-- ==== Sys2Proof/Word.lean ====
section
/-! DEFINITION. The word types, the keyed store and the plainest arithmetic of the model. -/
namespace Sys2Proof

/-- A 32-bit register word (R403). -/
abbrev Word := BitVec 32

/-- A byte of object space, of the exchange RAM or of an image. -/
abbrev Byte := BitVec 8

/-- A keyed store: pairs of a key and a value, keys strictly rising, and no entry
equal to what an unlisted key reads as. -/
abbrev SMap (α : Type) := List (Nat × α)

/-- Bits `hi` down to `lo` of a number, as a number. -/
def bitsOf (v hi lo : Nat) : Nat := (v >>> lo) % 2 ^ (hi - lo + 1)

/-- Bit `i` of a number. -/
def bitOf (v i : Nat) : Bool := v.testBit i

/-- Two's complement reading of the low `w` bits of `v`. -/
def signedOf (w v : Nat) : Int :=
  let m := v % 2 ^ w
  if m < 2 ^ (w - 1) then (m : Int) else (m : Int) - (2 ^ w : Nat)

end Sys2Proof
end

