-- ==== Sys2Proof/Syntax.lean ====
section
/-! DEFINITION. The commands of the block: one constructor per row of spec/opcode_table.json, with the operands
that the sender (software, a ball, a bus, the attached parts, or the block's own sequencers and engines) supplies.
An operand `t` is a tick on the physical axis (DESIGN CHOICE, log 1); the block's clock never runs back to it. -/
namespace Sys2Proof

/-- A cluster Kn, n from 0 to 7 (R2). -/
abbrev Clu := Fin 8
/-- A waveform lane Ww (R2). -/
abbrev Lane := Fin 16
/-- A pin group PGg (R2). -/
abbrev Pg := Fin 4
/-- A pattern pin Pp (R2). -/
abbrev PinIdx := Fin 64
/-- A level channel Lc (R2). -/
abbrev Lvl := Fin 48
/-- A load group LGg (R10 chapter, R263). -/
abbrev Lg := Fin 6
/-- A stream context (R383). -/
abbrev Ctx := Fin 64
/-- A DRAM channel Gg (R330). -/
abbrev Chan := Fin 16

/-- What pulled PERST_N's reset (R374, R444). -/
inductive PerstCause where
  | ball | hotReset | linkDown
  deriving DecidableEq, Repr

/-- How a ball of a W lane leaves its window (R209): OUTP or OUTN. -/
inductive BallSide where
  | outp | outn
  deriving DecidableEq, Repr

/-- Why an UP port falls (R304, R422). Block errors come with what the lane carried: the 58 line bits before, the latest in bit 0, and
at most 1,024 consecutive blocks of 66 bits, sync header in bits 1:0, each as scrambled (R302, R303). -/
inductive PortCause where
  | blockErrors (before : BitVec 58) (line : List (BitVec 66))
  | beaconTimeout
  | disabled
  | slip
  deriving DecidableEq, Repr

/-- How an AER error is reported: as correctable, non-fatal or fatal (R376). -/
inductive AerSeverity where
  | correctable | nonFatal | fatal
  deriving DecidableEq, Repr

/-- The errors that AER logs (R376). -/
inductive AerKind where
  | receiverError | badTlp | badDllp | replayTimeout | replayRollover | advisoryNonFatal
  | dataLinkProtocol | poisonedTlp | completionTimeout | unexpectedCompletion | malformedTlp | unsupportedRequest
  deriving DecidableEq, Repr

/-- The supply rails (R470). -/
inductive Rail where
  | vddCore | vddSram | vddAon | vddIo18 | vddqG6 | vddHs | vddaHs | vddConv | avddConv | avddOut | vddPat
  | avpp | avnn | vddaPll
  deriving DecidableEq, Repr

/-- How an access or a host write ends at the DRAM pins (R349, R350): clean, clean after `n` retries, or escaped. -/
inductive EdcOutcome where
  | ok (retries : Nat) | escaped
  deriving DecidableEq, Repr

/-- The tag of a DRAM access (R153), with its direction. -/
structure AccessTag where
  /-- DEST, the staging slot index. -/
  dest : Fin 1572864
  /-- RT: scheduled by deadline. -/
  rt : Bool
  /-- DEADLINE, bits 31:0 of the deadline tick on the time base. -/
  deadline : BitVec 32
  /-- SRC, the master of R357. -/
  src : Fin 44
  /-- ADDR, object-space address in 64-byte units. -/
  addr : BitVec 30
  /-- The entry whose staged copy the access makes for Luthier or Capo (R133, R136, R145, R149); none for any other access. -/
  entry : Option (BitVec 17)
  deriving DecidableEq, Repr

/-- A refresh decision's input (R343, R344): whether a real-time access waits on the channel. -/
abbrev RtWaiting := Bool

/-- The memories that clear (R366). -/
inductive ClearKind where
  | staging | tables | xram | winterStore
  deriving DecidableEq, Repr

/-- A neighbour refresh: its tick, and whether a real-time access waits on the channel, behind which it stands (R347). -/
structure NbrTurn where
  tick : Nat
  rtWaiting : Bool := false
  deriving DecidableEq, Repr

/-- The level of the EPOCH ball over a pulse: the ticks at which it goes high and returns low; or the comparison that an EPOCH makes 64
ticks after its registration (R420, R422). -/
inductive EpochPart where
  | pulse (high low : Nat)
  | check
  deriving DecidableEq, Repr

/-- The levels of the compare balls, PCH and PCL of each pin (R238). -/
structure CompareBalls where
  pch : BitVec 64
  pcl : BitVec 64
  deriving DecidableEq, Repr

/-- The balls that a power-on samples: BOOT_SEL (R43), SMB_AD1 and SMB_AD0 (R491). -/
structure PowerOnBalls where
  bootSel : Bool
  smbAd : BitVec 2 := 0
  deriving DecidableEq, Repr

/-- What the monitor measures at its ball: the voltage in steps of 8 V / 2^23, the delivered current in steps of 32 mA / 2^23 (R277). -/
structure MonMeasure where
  volts : BitVec 24
  amps : BitVec 24
  deriving DecidableEq, Repr

/-- A read of a descriptor ring in host memory: the address and the bytes that it returned (R385, R386). -/
structure DescRead where
  addr : BitVec 64
  bytes : List Byte
  deriving DecidableEq, Repr

/-- A 16-byte cell of the link, byte 0 in bits 7:0 (R305). -/
abbrev Cell := BitVec 128

/-- A descriptor as read from host memory (R385). -/
structure Descriptor where
  addrLo : Word
  addrHi : Word
  len : Word
  flags : Word
  deriving DecidableEq, Repr

/-- The level of a compare ball over a window: as the window opens, and the offsets at which it changes from then on, rising, in
hundredths of a fine unit (R224: 150 ps are 24,576 of them). -/
structure Wave where
  first : Bool
  flips : List Nat
  deriving DecidableEq, Repr

/-- What the balls of one pin give a strobe (R223, R224). -/
inductive StrobeSample where
  /-- edge mode: PCH and PCL at the strobe's instants. -/
  | edge (pch pcl : Bool)
  /-- window mode: PCH and PCL over their windows. -/
  | window (pch pcl : Wave)
  deriving DecidableEq, Repr

/-- Which strobe (R243): S1 (or the window), S2, or the sample that a capture takes of a pin (R229). -/
inductive StrobeSel where
  | s1 | s2 | cap
  deriving DecidableEq, Repr

/-- The tick at which an open-load or open-loop filter completes, and whether a compliance filter of the same lane or channel completes
in it (R209, R275). -/
structure FlagTick where
  tick : Nat
  compliance : Bool
  deriving DecidableEq, Repr

/-- The tick at which a level channel's compliance filter completes, and the millivolts that its load asks for (R275). -/
structure LoadAsk where
  tick : Nat
  mv : Int
  deriving DecidableEq, Repr

/-- A low level of LOAD_N: the tick of its falling edge and its length in ticks (R266). -/
structure LoadPulse where
  tick : Nat
  low : Nat
  deriving DecidableEq, Repr

/-- The origin whose slot is checked: as a member index of the view, or as a device that is no member (R315). -/
structure OriginKey where
  member : Bool
  id : BitVec 64
  deriving DecidableEq, Repr

/-- What a landing access met: the requests made at its slot's tile, master and tick, that no command has told of yet, and the slots of
the other accesses that were ready on its channel when it was issued to the memory (R339, R340, R358). -/
structure LandRound where
  rivals : List (Fin 44 × Nat)
  ready : List (Fin 1572864)
  deriving DecidableEq, Repr

/-- What the accesses of a host read or write met: what the EDC said of each (R349, R350), and the slots of the other accesses that were
ready on their channels (R340). -/
structure HostRound where
  edc : List EdcOutcome
  ready : List (Fin 1572864) := []
  deriving DecidableEq, Repr

/-- A piece of a stream as it reaches the ring: its bytes, and what its writes met (R340, R350, R387). -/
structure Piece extends HostRound where
  bytes : List Byte
  deriving DecidableEq, Repr

/-- A BAR0 access (R403, R404): a word write with its byte enables, a 64-bit write, a write of several words, a word read, or a read of
several words. The table gives reads no row of their own, and REGISTER_WRITE therefore carries them (R401, R407; DESIGN CHOICE, log 11). -/
inductive Bar0Op where
  | write (be : BitVec 4) (data : Word)
  | writePair (be : BitVec 8) (data : BitVec 64)
  | writeWords (words : List (BitVec 4 × Word))
  | read
  | readWords (count : Nat)
  deriving DecidableEq, Repr

/-- The commands. -/
inductive Instr where
  -- resets, clocks and power
  | powerOn (balls : PowerOnBalls)
  | resetNAssert (t : Nat)
  | resetNRelease (t : Nat) (bootSel : Bool)
  | perstNAssert (t : Nat) (cause : PerstCause)
  | perstNRelease (t : Nat) (bootSel : Bool)
  | warmReset
  | warmResetRelease
  | clusterReset (n : Clu)
  | clusterResetPark (n : Clu)
  | linkReset
  | managementTick (balls : CompareBalls) (parityOk : Bool)
  | epoch (part : EpochPart) (slips : BitVec 16)
  | epochLate
  | pllUnlock (t : Nat) (pll : Fin 8)
  | pllRelock (t : Nat) (pll : Fin 8)
  | aonPeriodUpdate (ticks : BitVec 32)
  | powerGo
  | powerBlockAnswer (t : Nat) (block : Fin 13)
  | quietResumeDone
  | winterSaveDone
  | winterCommitCycle
  | wakeNEdge (t : Nat) (staysLow : Bool)
  | wakeTimerExpiry
  | thawPhaseDone (crcOk : Bool) (aonCycles : Nat) (bootSel : Bool)
  -- image and overlays
  | imgLoad
  | imgFetchDone (ok : Bool) (bytes : List Byte)
  | imgCheckDone
  | dramTrainDone (failed : Option (Chan × Fin 8))
  | imgApplyDone
  | ovlValidate
  | ovlValidateDone
  | ovlApply
  | ovlCancel
  | ovlRelease
  | ovlQuietPoint
  | ovlApplyDone
  -- sequencers
  | cluStart (n : Clu)
  | cluStop (n : Clu)
  | cluAbort (n : Clu)
  | cluCntClr (n : Clu)
  | clusterStartRelease (n : Clu)
  | firstSegmentStart (n : Clu)
  | finalFret (n : Clu)
  | triggerPulseEnd (line : Fin 8)
  | matchCut (n : Clu)
  | abortPark (n : Clu)
  | markerFire (n : Clu) (slot : Fin 8)
  | conditionRequest (n : Clu) (c : Fin 16)
  | jumpDecision (n : Clu)
  | jumpTargetRead (n : Clu)
  | jumpRefusalCheck (n : Clu)
  | jumpSwitch (n : Clu)
  | jmpFire (n : Clu)
  | jmpCntClr (n : Clu)
  | lateCheck (n : Clu) (reader : Fin 20) (sample : Nat)
  | latePark (n : Clu)
  | lateSaturate (n : Clu)
  | skipResume (n : Clu)
  | lateCntClr (n : Clu)
  -- waveform lanes
  | ncoLoad (w : Lane)
  | ncoPlanRead (w : Lane)
  | ncoAction (w : Lane)
  | qbGlideEnd (w : Lane)
  | wlnCntClr (w : Lane)
  | laneArm (w : Lane)
  | laneDisarm (w : Lane)
  | laneCal (w : Lane)
  | govAdmit
  | armProbeEnd (w : Lane) (probeFails : Bool)
  | spanChangeStart (w : Lane)
  | spanChangeEnd (w : Lane) (probeFails : Bool)
  | calDone (w : Lane) (ofs : BitVec 18) (gain : BitVec 12)
  | wComplianceFlag (w : Lane) (side : BallSide) (t : Nat)
  | wOpenLoadFlag (w : Lane) (t : FlagTick)
  | compCntClr (w : Lane)
  -- pattern pins
  | ffArm (g : Pg)
  | pgCntClr (g : Pg)
  | pinCntClr (p : PinIdx)
  | flRdCountWrite (g : Pg) (v : Word)
  | failRecordWrite (g : Pg)
  | tcal (g : Pg)
  | tcalDone (g : Pg)
  | tsgCntClr (g : Pg)
  -- level channels
  | lvlOeWrite (c : Lvl)
  | lvlSpanWrite (c : Lvl)
  | lvlSpanChangeEnd (c : Lvl)
  | lvlConnect (c : Lvl)
  | loadNEdge (t : LoadPulse)
  | lgLoad (g : Lg)
  | loadCapture (g : Lg)
  | loadInstant (g : Lg)
  | lvlComplianceFlag (c : Lvl) (t : LoadAsk)
  | lvlOpenLoopFlag (c : Lvl) (t : FlagTick)
  | lvlReconnect (c : Lvl)
  | lvlCntClr (c : Lvl)
  | lgCntClr (g : Lg)
  | monConversion (m : MonMeasure)
  -- Bridge
  | bridgeHop
  | stormSuppress (p : Fin 256)
  | stormSuppClear (word : Fin 8) (mask : Word)
  | timerStart (k : Fin 8)
  | timerStop (k : Fin 8)
  | timerExpiry (k : Fin 8)
  | brgSwFire (mask : BitVec 16)
  | brgCntClr
  | eviEdge (i : Fin 16) (level : Bool) (t : Nat)
  | evoPulseEnd (i : Fin 16)
  -- Chiord link
  | portTrained (p : Fin 4) (t : Nat) (neighbour : BitVec 64)
  | portDown (p : Fin 4) (t : Nat) (cause : PortCause)
  | beaconSend
  | beaconReceive (p : Fin 4) (t : Nat) (cells : List Cell)
  | eventCellReceive (p : Fin 4) (t : Nat) (cell : Cell)
  | messageRelease
  | slotCheck (origin : OriginKey)
  | ensembleFound
  | membChangedCheck
  | lnkCntClr
  -- DRAM controller
  | accessIssue (tag : AccessTag) (t : Nat)
  | accessLand (dest : Fin 1572864) (t : Nat) (edc : EdcOutcome) (round : LandRound)
  | refreshDue (g : Chan) (t : Nat) (rtWaiting : RtWaiting)
  | nbrRefresh (g : Chan) (turn : NbrTurn)
  | pageClose (g : Chan) (bank : Fin 16)
  | dramRetrain
  | shortTrainDone (failed : Option (Chan × Fin 8))
  | dramCntClr
  -- placement
  | pubGo
  | publishRun
  | luthierReevaluate
  | capoStaticSwitch
  | pubCntClr
  -- on-chip memory
  | tuneBlockStart
  | tunePhaseDone (testPassed : Bool)
  | memoryClearDone (k : ClearKind)
  | memCntClr
  | lbAccess (t : Nat) (write : Bool) (addr : BitVec 18) (be : BitVec 4) (data : Word)
  | bar2Access (t : Nat) (write : Bool) (addr : BitVec 18) (be : List (BitVec 4)) (data : List Word)
  -- host
  | bar4Read (addr : BitVec 35) (len : Nat) (round : HostRound)
  | bar4Write (addr : BitVec 35) (bytes : List (Option Byte))
  | bar4WriteDrain (round : HostRound)
  | registerWrite (t : Nat) (addr : BitVec 24) (op : Bar0Op)
  | intPendClear (word : Fin 3) (mask : Word)
  | strmOpen (n : Ctx)
  | strmClose (n : Ctx)
  | strmTailWrite (n : Ctx) (v : BitVec 16)
  | descFetch (n : Ctx) (read : DescRead)
  | streamPieceLand (n : Ctx) (piece : Piece)
  | streamDmaError (n : Ctx) (code : Fin 4)
  | bmeChange (t : Nat) (bme d3hot : Bool)
  | hostCntClr
  -- faults
  | faultRecordWrite
  | fltRdCountWrite (v : Word)
  | fltCntClr
  | watchdogTimeout
  | safeParkClear
  | pwrCntClr
  | devCntClr
  -- JTAG
  | extest
  | sample
  | idcode
  | highz
  | clamp
  | extestPulse
  | extestTrain
  | fuseRead
  | fuseProg (value : BitVec 512) (tjInRange : Bool)
  | fuseProgDone (failed : Bool)
  | bypass (code : BitVec 8)
  | jtagTestExit (next : BitVec 8) (bootSel : Bool)
  -- SMBus
  | smbId
  | smbRev
  | smbStatus
  | smbTemp (n : Fin 12)
  | smbAlertStatus (write : Option Byte) (pecOk : Bool)
  | smbAlertMask (write : Option Byte) (pecOk : Bool)
  | smbTempLimit (write : Option (BitVec 16)) (pecOk : Bool)
  | smbAlertResponse
  | tempConversion (n : Fin 12) (reading : BitVec 16)
  | supplyFall (rail : Rail)
  -- data path and endpoint
  | modulatorCycle (w : Lane)
  | vectorStart (g : Pg)
  | strobe (p : PinIdx) (sel : StrobeSel) (s : StrobeSample)
  | aerError (k : AerKind)
  | smbusTimeout
  deriving DecidableEq, Repr

end Sys2Proof
end

