-- ==== Sys2Proof/Decode.lean ====
section
/-! DEFINITION. The command that a word spells. spec/opcode_table.json gives no row any bits: commands reach the block
by its buses, balls and its own events, and none is encoded in a word. -/
namespace Sys2Proof

/-- The command that the `nbits` bits `w` spell: none, since no row of the table gives bits. -/
def decodeTableWord (_nbits _w : Nat) : Option Instr := none

end Sys2Proof
end

