-- ==== Sys2Proof/Machine/Crypto.lean ====
section
/-! DEFINITION. The digest and the signature that R36 to R38 and R58 name: SHA-384 and ECDSA over P-384. The spec names
them; their arithmetic and constants are those of FIPS 180-4 and FIPS 186 (PRESUMED, log 8). -/
namespace Sys2Proof.Machine

/-! ### SHA-384 -/

/-- A 64-bit word of the digest's arithmetic. -/
abbrev Word64 := BitVec 64

/-- The round constants: the first 64 fraction bits of the cube roots of the first 80 primes. -/
def shaK : List Word64 :=
  [0x428A2F98D728AE22, 0x7137449123EF65CD, 0xB5C0FBCFEC4D3B2F, 0xE9B5DBA58189DBBC,
   0x3956C25BF348B538, 0x59F111F1B605D019, 0x923F82A4AF194F9B, 0xAB1C5ED5DA6D8118,
   0xD807AA98A3030242, 0x12835B0145706FBE, 0x243185BE4EE4B28C, 0x550C7DC3D5FFB4E2,
   0x72BE5D74F27B896F, 0x80DEB1FE3B1696B1, 0x9BDC06A725C71235, 0xC19BF174CF692694,
   0xE49B69C19EF14AD2, 0xEFBE4786384F25E3, 0x0FC19DC68B8CD5B5, 0x240CA1CC77AC9C65] ++
  [0x2DE92C6F592B0275, 0x4A7484AA6EA6E483, 0x5CB0A9DCBD41FBD4, 0x76F988DA831153B5,
   0x983E5152EE66DFAB, 0xA831C66D2DB43210, 0xB00327C898FB213F, 0xBF597FC7BEEF0EE4,
   0xC6E00BF33DA88FC2, 0xD5A79147930AA725, 0x06CA6351E003826F, 0x142929670A0E6E70,
   0x27B70A8546D22FFC, 0x2E1B21385C26C926, 0x4D2C6DFC5AC42AED, 0x53380D139D95B3DF,
   0x650A73548BAF63DE, 0x766A0ABB3C77B2A8, 0x81C2C92E47EDAEE6, 0x92722C851482353B] ++
  [0xA2BFE8A14CF10364, 0xA81A664BBC423001, 0xC24B8B70D0F89791, 0xC76C51A30654BE30,
   0xD192E819D6EF5218, 0xD69906245565A910, 0xF40E35855771202A, 0x106AA07032BBD1B8,
   0x19A4C116B8D2D0C8, 0x1E376C085141AB53, 0x2748774CDF8EEB99, 0x34B0BCB5E19B48A8,
   0x391C0CB3C5C95A63, 0x4ED8AA4AE3418ACB, 0x5B9CCA4F7763E373, 0x682E6FF3D6B2B8A3,
   0x748F82EE5DEFB2FC, 0x78A5636F43172F60, 0x84C87814A1F0AB72, 0x8CC702081A6439EC] ++
  [0x90BEFFFA23631E28, 0xA4506CEBDE82BDE9, 0xBEF9A3F7B2C67915, 0xC67178F2E372532B,
   0xCA273ECEEA26619C, 0xD186B8C721C0C207, 0xEADA7DD6CDE0EB1E, 0xF57D4F7FEE6ED178,
   0x06F067AA72176FBA, 0x0A637DC5A2C898A6, 0x113F9804BEF90DAE, 0x1B710B35131C471B,
   0x28DB77F523047D84, 0x32CAAB7B40C72493, 0x3C9EBE0A15C9BEBC, 0x431D67C49C100D4C,
   0x4CC5D4BECB3E42B6, 0x597F299CFC657E2A, 0x5FCB6FAB3AD6FAEC, 0x6C44198C4A475817]

/-- The eight working variables of a block. -/
structure ShaState where
  a : Word64
  b : Word64
  c : Word64
  d : Word64
  e : Word64
  f : Word64
  g : Word64
  h : Word64
  deriving DecidableEq, Repr

/-- The initial digest: the first 64 fraction bits of the square roots of the ninth to the sixteenth prime. -/
def shaInit : ShaState :=
  { a := 0xCBBB9D5DC1059ED8, b := 0x629A292A367CD507, c := 0x9159015A3070DD17, d := 0x152FECD8F70E5939
    e := 0x67332667FFC00B31, f := 0x8EB44A8768581511, g := 0xDB0C2E0D64F98FA7, h := 0x47B5481DBEFA4FA4 }

/-- One round with its constant and its word of the schedule added. -/
def ShaState.round (v : ShaState) (kw : Word64) : ShaState :=
  let s1 := v.e.rotateRight 14 ^^^ v.e.rotateRight 18 ^^^ v.e.rotateRight 41
  let ch := (v.e &&& v.f) ^^^ (~~~v.e &&& v.g)
  let t1 := v.h + s1 + ch + kw
  let s0 := v.a.rotateRight 28 ^^^ v.a.rotateRight 34 ^^^ v.a.rotateRight 39
  let maj := (v.a &&& v.b) ^^^ (v.a &&& v.c) ^^^ (v.b &&& v.c)
  { a := t1 + s0 + maj, b := v.a, c := v.b, d := v.c, e := v.d + t1, f := v.e, g := v.f, h := v.g }

/-- The word sixteen places on in the schedule, from the sixteen words in hand. -/
def shaNext (w : List Word64) : Word64 :=
  let x := w.getD 1 0
  let y := w.getD 14 0
  (y.rotateRight 19 ^^^ y.rotateRight 61 ^^^ (y >>> 6)) + w.getD 9 0 + (x.rotateRight 1 ^^^ x.rotateRight 8 ^^^ (x >>> 7)) + w.getD 0 0

/-- The rounds of a block over the constants left, with the next sixteen words of its schedule. -/
def shaRounds : List Word64 → List Word64 → ShaState → ShaState
  | [], _, v => v
  | k :: ks, w, v => shaRounds ks (w.drop 1 ++ [shaNext w]) (v.round (k + w.getD 0 0))

/-- A number from bytes, the first byte highest. -/
def beNat (l : List Byte) : Nat := l.foldl (fun n b => 256 * n + b.toNat) 0

/-- The eight-byte words of a string, as many as given. -/
def words64 : Nat → List Byte → List Word64
  | 0, _ => []
  | k + 1, l => BitVec.ofNat 64 (beNat (l.take 8)) :: words64 k (l.drop 8)

/-- A block of 128 bytes is taken into the digest. -/
def ShaState.block (v : ShaState) (l : List Byte) : ShaState :=
  let x := shaRounds shaK (words64 16 l) v
  { a := v.a + x.a, b := v.b + x.b, c := v.c + x.c, d := v.d + x.d, e := v.e + x.e, f := v.f + x.f, g := v.g + x.g, h := v.h + x.h }

/-- As many blocks as given. -/
def ShaState.blocks : Nat → ShaState → List Byte → ShaState
  | 0, v, _ => v
  | k + 1, v, l => ShaState.blocks k (v.block (l.take 128)) (l.drop 128)

/-- A string with its padding: 0x80, zeros, and the length in bits in the last 16 bytes of a block. -/
def shaPad (l : List Byte) : List Byte :=
  let n := l.length
  l ++ 0x80 :: List.replicate ((239 - n % 128) % 128) 0 ++ ((List.range 16).map (fun i => BitVec.ofNat 8 (8 * n / 256 ^ i))).reverse

/-- SHA-384 of a byte string, its first byte in bits 383:376. -/
def sha384 (l : List Byte) : BitVec 384 :=
  let p := shaPad l
  let v := shaInit.blocks (p.length / 128) p
  v.a ++ v.b ++ v.c ++ v.d ++ v.e ++ v.f

/-! ### ECDSA over P-384 -/

/-- The field prime, the group order, the coefficient b and the base point of P-384. -/
def p384P : Nat := 2 ^ 384 - 2 ^ 128 - 2 ^ 96 + 2 ^ 32 - 1
def p384N : Nat := 0xFFFFFFFFFFFFFFFFFFFFFFFFFFFFFFFFFFFFFFFFFFFFFFFFC7634D81F4372DDF581A0DB248B0A77AECEC196ACCC52973
def p384B : Nat := 0xb3312fa7e23ee7e4988e056be3f82d19181d9c6efe8141120314088f5013875ac656398d8a2ed19d2a85c8edd3ec2aef
def p384G : Nat × Nat :=
  (0xaa87ca22be8b05378eb1c71ef320ad746e1d3b628ba79b9859f741e082542a385502f25dbf55296c3a545e3872760ab7,
   0x3617de4a96262c6f5d9e98bf9292dc29f8f41dbd289a147ce9da3113b5f0b8c00a60b1ce1d7e819d7a431d7c90ea0e5f)

/-- The bits of a number of 384 bits, the highest first. -/
def bits384 (n : Nat) : List Bool := (List.range 384).reverse.map n.testBit

/-- a to the power e, modulo m. -/
def powMod (m a e : Nat) : Nat := (bits384 e).foldl (fun r bit => if bit then r * r % m * a % m else r * r % m) 1

/-- The inverse modulo a prime. -/
def invMod (m a : Nat) : Nat := powMod m a (m - 2)

/-- The difference modulo the field prime. -/
def subP (a b : Nat) : Nat := (a + p384P - b % p384P) % p384P

/-- A point of the curve; none is the point at infinity. -/
abbrev Point := Option (Nat × Nat)

/-- The third point of a line of slope m through (x, y) and a point with abscissa u, mirrored. -/
def lineThird (m x y u : Nat) : Point :=
  let z := subP (m * m % p384P) (x + u)
  some (z, subP (m * subP x z % p384P) y)

/-- The sum of two points. -/
def ecAdd : Point → Point → Point
  | none, q => q
  | p, none => p
  | some (x, y), some (u, v) =>
    if x = u then
      if (y + v) % p384P = 0 then none else lineThird (subP (3 * x * x) 3 * invMod p384P (2 * y % p384P) % p384P) x y u
    else lineThird (subP v y * invMod p384P (subP u x) % p384P) x y u

/-- A multiple of a point. -/
def ecMul (k : Nat) (p : Nat × Nat) : Point :=
  (bits384 k).foldl (fun r bit => let d := ecAdd r r; if bit then ecAdd d (some p) else d) none

/-- The point lies on the curve. -/
def onCurve (p : Nat × Nat) : Bool := decide (p.2 * p.2 % p384P = subP (p.1 * p.1 * p.1 + p384B) (3 * p.1))

/-- The signature (r, s) over a digest verifies under a key. -/
def ecdsaVerifies (key : Nat × Nat) (digest : BitVec 384) (r s : Nat) : Bool :=
  let w := invMod p384N s
  let u := ecAdd (ecMul (digest.toNat * w % p384N) p384G) (ecMul (r * w % p384N) key)
  onCurve key && match u with
    | some (x, _) => decide (x % p384N = r)
    | none => false

end Sys2Proof.Machine
end

