-- ==== Sys2Proof/Config.lean ====
section
/-! DEFINITION. What an implementation fixes and the spec leaves open: the free values (no body: nothing in
Lean can see what they are) and the constants of the part. -/
namespace Sys2Proof.Config

/-- FREE VALUE (R494, log 3): the byte that a never-written object-space address holds, for the `gen`-th time
the contents were lost. -/
opaque dramByte (gen addr : Nat) : BitVec 8

/-- FREE VALUE (R368, log 4): the word an exchange RAM read returns when its word collides with a write. -/
opaque collidedWord (n : Nat) : BitVec 32

/-- FREE VALUE (R173, log 5): coefficient `k` of half-band filter HB0 to HB3, counted from its outermost tap inwards; the innermost
follows from the DC gain (R172). -/
opaque hbTap (stage k : Nat) : Int

/-- FREE VALUE (R173, log 5): the rounding point inside a half-band filter: its coefficients count units of 2^-(this + 1). -/
opaque hbScale (stage : Nat) : Nat

/-- FREE VALUE (R173, log 5): where the factor 4 of the chain's DC gain is made: bits of it at the chain's input (4) and in HB1 and HB2;
HB3 makes what is left. -/
opaque hbGain (stage : Nat) : Nat

/-- FREE VALUE (R197, log 18): the step of SCRAMBLE's 23-bit sequence, whose polynomial the spec does not print. -/
opaque scrambleNext (state : BitVec 23) : BitVec 23

/-- FREE VALUE (R190, log 18): the modulator's level for coefficients, input word and loop state. -/
opaque loopLevel (coef : Nat) (y : BitVec 18) (loop : Nat) : BitVec 4

/-- FREE VALUE (R190, log 18): the loop's state one cycle later. -/
opaque loopNext (coef : Nat) (y : BitVec 18) (loop : Nat) : Nat

/-- FREE VALUE (R190, log 18): the coefficient set of a width and a centre index. -/
opaque coefSet (width centre : Nat) : Nat

/-- FREE VALUE (R193, log 18): the blend of two sets in cycle j, 0 to 31, of a glide. -/
opaque coefBlend (old new j : Nat) : Nat

/-- FREE VALUE (log 5): the `i`-th thing that a lane's datapath holds after cycles that the model has not followed, at an instant. -/
opaque unseen (lane instant i : Nat) : Nat

/-- FREE VALUE (R397, log 10): which of the link widths and speeds of R374 the PCI Express link trains to. -/
opaque hostLanes : Nat
opaque hostSpeed : Nat

/-- FREE VALUE (R335, log 20): how many ticks a phase of the training that starts at a tick lasts. -/
opaque phaseTicks (start phase : Nat) : Nat

/-- FREE VALUE (R345, log 6): one draw of a channel's 31-bit sequence from a DEVICE_ID; the spec states neither the
polynomial nor the mapping of the seed. -/
opaque neighbourDraw (deviceId : BitVec 64) (channel n : Nat) : BitVec 31

/-- FREE VALUE (R139, log 7): Luthier's hash of an entry index, a section and a layout. -/
opaque tileHash (entry part layout : Nat) : Nat

/-- FREE VALUE (R350, log 3): a byte of the 64 bytes that an escaped write leaves. -/
opaque escapedByte (n addr : Nat) : BitVec 8

/-- FREE VALUE (R490, log 23): the KEY_HASH fuses that a programming cut short by a loss of power has reached. -/
opaque fusedBits (n : Nat) : BitVec 384

/-- FREE VALUE (R488, log 23): what the tester has shifted into the boundary cells, by ball. -/
opaque shiftedIn (n : Nat) : BitVec 1303

/-- FREE VALUE (R488, log 23): the level of a ball that nothing of the model drives, or whose level the spec does not state. -/
opaque ballLevel (n ball : Nat) : Bool

/-- FREE VALUE (R488, log 23): whether a bidirectional ball is driven where the spec does not state it. -/
opaque ballDrives (n ball : Nat) : Bool

/-- FREE VALUE (R349, R350, R434, log 22): how many attempts of a burst of the parking copy fail its EDC, one after the other. -/
opaque parkEdc (n unit : Nat) : Nat

/-- FREE VALUE (R353, R434, log 22): the ESC_SRC of a burst of the parking copy, for which R357 lists no master. -/
opaque parkMaster : BitVec 6

/-- FREE VALUE (R374, log 10): the Vendor ID of Poreno Semiconductor, of which the spec gives no value. -/
opaque vendorId : BitVec 16

/-- FREE VALUE (R190, log 18; R273, log 19; log 9): a value that the spec leaves open, numbered by the state's
counter. -/
opaque freeWord (n : Nat) : BitVec 32

end Sys2Proof.Config
end

