-- ==== Sys2Proof/Machine/State.lean ====
section
/-! DEFINITION. The state of the block as plain data: every register, queue, table, counter, mode and line that the
spec gives it, and the queue of waiting commands. A field's default is its value at reset. Each docstring names the
rule of the spec that names the field. Instants are ticks on the physical axis (DESIGN CHOICE, log 1) unless the docstring says
fine units (1/1,024 tick, R243). -/
namespace Sys2Proof.Machine

/-- Why a step stops. -/
inductive Fault where
  /-- Raised by every command but RESET_N_ASSERT, PERST_N_ASSERT, POWER_ON and SUPPLY_FALL after a rail other than
  VDD_AON and VDD_CORE has fallen: R471 leaves the behaviour undefined until RESET_N or PERST_N. Safe. -/
  | behaviourUndefined
  deriving DecidableEq, Repr

/-- Why a command has no meaning. -/
inductive Refusal where
  /-- Raised by an arm of exec that has no meaning yet. Safe. -/
  | notModelled (mnemonic : String)
  deriving DecidableEq, Repr

/-- A W1C word with the bits that hardware set in the latest tick in which it set any (R408). -/
structure Evt where
  bits : Word := 0
  fresh : Word := 0
  tick : Nat := 0
  deriving DecidableEq, Repr

/-- A hardware counter with the increments of the latest tick in which it counted (R410). -/
structure Ctr where
  val : Nat := 0
  inc : Nat := 0
  tick : Nat := 0
  deriving DecidableEq, Repr

/-- The part's variant (R2). -/
inductive Variant where
  | lqf6416 | lqf6408 | lqf3216
  deriving DecidableEq, Repr

/-- What the part is: identity and fuses (R2, R37, R414, R490). No reset changes it. -/
structure Part where
  /-- VARIANT (R414); reset: DESIGN CHOICE LQF-6416 (log 2). -/
  variant : Variant := .lqf6416
  /-- GRADE fuse: true is -20 (R5, R414); reset: DESIGN CHOICE -32 (log 2). -/
  grade20 : Bool := false
  /-- SILICON_REV (R414): 0x01 for the first production revision. -/
  siliconRev : BitVec 8 := 1
  /-- COMPAT (R414): 1 for the first production revision. -/
  compat : BitVec 16 := 1
  /-- DEVICE_ID fuse (R327, R490); reset: DESIGN CHOICE 0 (log 2). -/
  deviceId : BitVec 64 := 0
  /-- KEY_HASH fuses (R37); reset: DESIGN CHOICE unprogrammed (log 2). -/
  keyHash : BitVec 384 := 0
  /-- KEY_SET fuse (R37, R69); reset: DESIGN CHOICE unprogrammed (log 2). -/
  keySet : Bool := false
  /-- SIGNED_ONLY fuse (R37, R69); reset: DESIGN CHOICE unprogrammed (log 2). -/
  signedOnly : Bool := false
  /-- ERR of the fuse register (R490); reset: DESIGN CHOICE 0 (log 2). -/
  fuseErr : Bool := false
  /-- DONE of the fuse register (R490); reset: DESIGN CHOICE 0 (log 2). -/
  fuseDone : Bool := false
  deriving DecidableEq, Repr

/-- Clocks, time base, crossings and PLLs (R310, R416 to R425). -/
structure Clock where
  /-- Ticks since reset release on the physical axis (R12; DESIGN CHOICE, log 1). -/
  now : Nat := 0
  /-- The time base LNK_TIME is now + ofs (R310); 0 at reset release. -/
  ofs : Int := 0
  /-- CK_CORE's time base runs; false from cycle 0 of the commit window to the restart (R436, R443). -/
  timeRuns : Bool := true
  /-- The instant `now` at which the time base stopped (R443). -/
  stoppedAt : Nat := 0
  /-- TIME_VALID (R310). -/
  timeValid : Bool := false
  /-- TIME_COARSE (R443). -/
  timeCoarse : Bool := false
  /-- EPOCH_COUNT (R310). -/
  epochCount : BitVec 48 := 0
  /-- No EPOCH has been registered since power-on, reset or thaw (R310). -/
  firstEpoch : Bool := true
  /-- The tick at which the next EPOCH pulse is due (R425). -/
  epochDue : Option Nat := none
  /-- Crossings 0 to 11 of CLK_ALIGNED that an earlier EPOCH aligned (R419, R421). -/
  aligned : BitVec 16 := 0
  /-- An alignment whose effect is due: E + 64, and its crossings (R421). -/
  aligning : Option (Nat × BitVec 16) := none
  /-- The tick E + 64 at which the crossings that were aligned at the latest EPOCH are compared, until they have been (R422). -/
  checkAt : Option Nat := none
  /-- The tick at which the EPOCH ball returned low after the latest pulse (R420). -/
  epochLow : Option Nat := none
  /-- CLK_STATUS: PLL lock bits CORE, PAT, CONV d, DRAM, HOST (R451); reset given as 0, CORE and HOST locked once
  the internal reset is released (R416; PRESUMED, log 10). -/
  pll : BitVec 8 := 0x81
  /-- CK_PAT of PGg runs (R416). -/
  patRun : BitVec 4 := 0
  /-- CK_CONV of die d runs (R416). -/
  convRun : BitVec 4 := 0
  /-- CK_DRAM runs (R416). -/
  dramRun : Bool := false
  /-- AON_PERIOD (R418). -/
  aonPeriod : BitVec 32 := 104857600
  /-- AON_PERIOD's last value before SAVING (R443). -/
  aonSaved : BitVec 32 := 104857600
  /-- The tick from which the next management tick is sought: it falls at the first multiple of 1,024 at or after it (R412). -/
  mgmtFrom : Nat := 0
  /-- Management ticks taken (R137, R363). -/
  mgmtCount : Nat := 0
  /-- TIME: the time base at the last management tick (R327). -/
  timeSnap : BitVec 64 := 0
  /-- CLOCK_PLAN word 0 as loaded (R417). -/
  plan : Word := 0
  deriving DecidableEq, Repr

/-- Where a power request stands (R426, R436, R440). -/
inductive PwrPhase where
  | none | preparing | quiet | saving | commit | winter | thawing | resuming | resetting
  deriving DecidableEq, Repr

/-- The phases of a thaw (R440). -/
inductive ThawPhase where
  | power | clocks | clear | registers | dram | tables | planned | done
  deriving DecidableEq, Repr

/-- Power states, reset sources and the always-on records (R426 to R448). -/
structure Power where
  phase : PwrPhase := .none
  thaw : ThawPhase := .power
  /-- Next cycle of the commit window, 0 to 6 (R436). -/
  cycle : Nat := 0
  /-- TARGET of the request in progress (R430). -/
  target : BitVec 2 := 0
  /-- The request was made in QUIET, to which a refusal returns (R432; DEDUCED, log 22). -/
  wasQuiet : Bool := false
  /-- The tick in which the latest request was refused (R432). -/
  refusedAt : Option Nat := none
  /-- Blocks that have agreed to the request in progress (R432). -/
  agreed : List (Fin 13) := []
  /-- Blocks that are prepared and hold their commands (R431, R433). -/
  prepared : List (Fin 13) := []
  /-- PWR_RESULT.CODE (R451). -/
  resCode : BitVec 3 := 0
  /-- PWR_RESULT.BLOCK (R451). -/
  resBlock : BitVec 8 := 0
  /-- A wake event latched during SAVING or still held low (R438): 1 WAKE_N, 2 timer. -/
  wakeLatched : BitVec 2 := 0
  /-- WAKE_N went low and stays low to cycle 6 of the commit window, as WAKE_N_EDGE tells (R438). -/
  wakeLow : Bool := false
  /-- The tick at which the wake timer, which counts from cycle 6, expires (R438). -/
  wakeAt : Nat := 0
  /-- The release of a warm reset has begun: it ends with the training that it started (R446). -/
  releasing : Bool := false
  /-- VDD_AON is below its minimum: every output ball is high-impedance (R472). -/
  aonDown : Bool := false
  /-- PWR_WAKE_SRC (R438, R451). -/
  wakeSrc : BitVec 2 := 0
  /-- WINTER_AON, N_A (R443). -/
  winterAon : BitVec 64 := 0
  /-- RST_CAUSE (R451). -/
  rstCause : BitVec 3 := 0
  /-- The power-on detector holds the device (R444). -/
  porHold : Bool := false
  /-- RESET_N is low (R444). -/
  resetLow : Bool := false
  /-- PERST_N, a hot reset or a link-down holds the device (R444). -/
  perstLow : Bool := false
  /-- A JTAG test instruction holds the core in cold reset (R489). -/
  jtagHold : Bool := false
  /-- POWER_POLICY.QUIET_SR of the loaded base (R427). -/
  quietSr : Bool := false
  /-- Commands held by a prepared block or an unlocked PLL, oldest first (R431, R432, R495). -/
  held : List Instr := []
  deriving DecidableEq, Repr

/-- IMG_STATUS.STATE (R67). -/
inductive ImgState where
  | unconfigured | fetch | check | apply | configured
  deriving DecidableEq, Repr

/-- A read of the boot flash in SPI mode 0 (R44): the command, a 24-bit address, the mode byte and the dummy clocks, at 25 MHz
for the header and at 100 MHz for the rest. -/
structure FlashRead where
  command : BitVec 8
  addr : BitVec 24
  mode : BitVec 8
  dummy : Nat
  headerMHz : Nat
  restMHz : Nat
  deriving DecidableEq, Repr

/-- The image registers and the load in progress (R31 to R52, R66 to R69). -/
structure Image where
  /-- IMG_STATUS.STATE (R67). -/
  state : ImgState := .unconfigured
  /-- LOADED_SRC (R67). -/
  loadedSrc : BitVec 2 := 0
  /-- FALLBACK_USED (R67). -/
  fallbackUsed : Bool := false
  /-- VERIFIED (R67). -/
  verified : Bool := false
  /-- IMG_ERR.SECTION (R68). -/
  errSection : BitVec 8 := 0
  /-- IMG_ERR.CODE (R64, R68). -/
  errCode : BitVec 8 := 0
  /-- IMG_VERSION of the loaded base (R69). -/
  version : Word := 0
  /-- SEC_COUNT of the loaded base (R69). -/
  secCount : BitVec 16 := 0
  /-- IMG_COMPAT (R69). -/
  compat : BitVec 16 := 0
  /-- IMG_BASE_ID (R69). -/
  baseId : Word := 0
  /-- The source of the load in progress: 0 host, 1 primary, 2 fallback (R43, R66). -/
  src : BitVec 2 := 0
  /-- A refusal of the primary copy goes on to the fallback (R43, R66). -/
  fallbackNext : Bool := false
  /-- What the flash interface reads during FETCH from flash (R44). -/
  flash : Option FlashRead := none
  /-- IMG_HOST_LEN of the load in progress (R45). -/
  hostLen : Word := 0
  /-- The image bytes held in the staging store for the loader (R40). -/
  buf : List Byte := []
  /-- Whether the image being loaded verified (R38). -/
  bufVerified : Bool := false
  /-- Always-on record of a load that a reset interrupted (R52). -/
  aborted : Bool := false
  deriving DecidableEq, Repr

/-- The states of an overlay slot (R54). -/
inductive SlotState where
  | free | valid | pending | applied
  deriving DecidableEq, Repr

/-- An overlay slot (R54). -/
structure OvlSlot where
  state : SlotState := .free
  /-- The SHA-384 digest that VALIDATE recorded (R54, R58). -/
  digest : Option (BitVec 384) := none
  /-- The affected set of the overlay checked, CLU_MASK of its header (R55, R57). -/
  mask : BitVec 8 := 0
  deriving DecidableEq, Repr

/-- A register write that an overlay application holds (R59, R109, R183, R253). -/
structure HeldWrite where
  addr : Nat
  be : BitVec 4
  data : Word
  deriving DecidableEq, Repr

/-- Overlays (R53 to R63, R70). -/
structure Overlay where
  slots : Vector OvlSlot 16 := Vector.replicate 16 {}
  /-- PENDING overlays in the order of their APPLY commands (R56). -/
  queue : List (Fin 16) := []
  /-- APPLY writes that no management tick has taken yet: each is a request of its own (R65, R409). -/
  applies : Nat := 0
  /-- The slot that a VALIDATE is checking (R54). -/
  validating : Option (Fin 16) := none
  /-- The head overlay whose application has begun (R58, R61). -/
  applying : Option (Fin 16) := none
  /-- The bytes that its quiet point re-read and checked (R58). -/
  applyBytes : List Byte := []
  /-- The 64-byte units of object space that the loader's reads of slots in progress have taken (R54, R58). -/
  loaded : List Nat := []
  /-- The units of which such a read has escaped (R349). -/
  unread : List Nat := []
  /-- RES_SLOT (R70). -/
  resSlot : BitVec 4 := 0
  /-- OVL_RESULT.CODE (R70). -/
  resCode : BitVec 8 := 0
  /-- The table index of the section at fault (R64). -/
  resSection : BitVec 8 := 0
  /-- Writes held while an overlay is applied (R59). -/
  heldWrites : List HeldWrite := []
  deriving DecidableEq, Repr

/-- Trigger lines (R95 to R97, R105). -/
structure Triggers where
  /-- The tick at which each raised line falls (R95). -/
  fallAt : Vector (Option Nat) 8 := Vector.replicate 8 none
  /-- The tick and sequencer of each line's latest pulse (R96). -/
  last : Vector (Option (Nat × Clu)) 8 := Vector.replicate 8 none
  deriving DecidableEq, Repr

/-- The table memories (R73, R92, R106, R180, R250), words by word index; cleared to zero (R366). -/
structure Tables where
  seg : SMap Word := []
  jump : SMap Word := []
  nco : SMap Word := []
  mkp : SMap Word := []
  /-- The timing-set shadow (R253). -/
  tsetShadow : SMap Word := []
  /-- The timing sets in force (R253). -/
  tset : SMap Word := []
  deriving DecidableEq, Repr

/-- The states of a cluster (R98). -/
inductive CluState where
  | idle | held | lead | run | stopping
  deriving DecidableEq, Repr

/-- A frame of the loop stack (R89, R103): FRAME_BEGIN and FRAME_LEFT. -/
structure Frame where
  first : BitVec 17
  left : BitVec 16
  deriving DecidableEq, Repr

/-- Jump modes (R107). -/
inductive JumpMode where
  | immediate | fret | atEnd
  deriving DecidableEq, Repr

/-- A request on a condition input (R111): its timestamp (T, or T + 1,280 for an ensemble channel, R126). -/
structure Req where
  cond : Fin 16
  ts : Nat
  /-- FIRE placed it: it enters whatever the input's source (R128). -/
  forced : Bool := false
  /-- LATE raised it under DIVERT: a jump must serve it (R160). -/
  late : Bool := false
  /-- MATCH or NOMATCH raised it: 1, 2; LATE: 3; 0 from the Bridge (R110). -/
  src : Fin 4 := 0
  deriving DecidableEq, Repr

/-- A cluster's layout (R132). -/
structure Layout where
  wMask : BitVec 16
  /-- Two bits for each bound lane: the format that it acts as. -/
  formats : BitVec 32
  pgMask : BitVec 4
  k : BitVec 3
  /-- VEC_RATIO of a mixed cluster, else 0. -/
  ratio : BitVec 16
  deriving DecidableEq, Repr

/-- Placement classes (R136). -/
inductive PClass where
  | resident | headed | fetched | hosted
  deriving DecidableEq, Repr

/-- What placement records of an entry (R132 to R137). -/
structure EntryRec where
  published : Bool := false
  /-- Recorded layouts with the class of each, at most two. -/
  layouts : List (Layout × PClass) := []
  heat : Nat := 0
  /-- The latest re-evaluation made it resident (R137). -/
  promoted : Bool := false
  /-- A re-evaluation has seen it as a candidate since it was last written (R137). -/
  seen : Bool := false
  deriving DecidableEq, Repr

/-- A jump target as the target-entry stage read it at T + 12 (R116): its 32 bytes, whether it was published for the cluster, and the
class recorded for the cluster's layout. -/
structure TargetRead where
  entry : BitVec 256
  published : Bool
  cls : Option (Layout × PClass)
  deriving DecidableEq, Repr

/-- The scheduled jump (R113). -/
structure Sched where
  target : BitVec 17
  mode : JumpMode
  cond : Fin 16
  ts : Nat
  /-- S = T + L (R114). -/
  s : Nat
  /-- The target as read at T + 12 (R116). -/
  read : Option TargetRead := none
  /-- How many publishes of the target have begun since the decision: which staged copy the jump plays (R135). -/
  age : Nat := 0
  /-- A STOP found the target's first data released, so the jump is past cancellation by it (R121). -/
  past : Bool := false
  /-- The refusal check of T + 20 has passed (R118). -/
  checked : Bool := false
  deriving DecidableEq, Repr

/-- A late fault between its check instant and its park (R157, R158). -/
structure LatePend where
  /-- O(s), in fine units. -/
  o : Nat
  /-- The timestamp T of the LATE request (R157). -/
  ts : Nat
  /-- ACTION in force at the check (R158). -/
  action : BitVec 2
  /-- Under DIVERT, the cond and timestamp of the LATE request that a jump may serve (R160). -/
  unserved : Bool := true
  deriving DecidableEq, Repr

/-- A late fault record that waits for its access to land (R157). -/
structure LateRec where
  entry : BitVec 17
  sample : Nat
  ts : Nat
  reader : Fin 20
  action : BitVec 2
  /-- The 64-byte unit that was missing. -/
  unit : Nat
  /-- The number of the play that the sample belongs to. -/
  play : Nat
  /-- Which staged copy of the entry that play takes (R135). -/
  age : Nat := 0
  deriving DecidableEq, Repr

/-- A Hosted object that a commit took (R389): context, ring position and size in 64-byte units. -/
structure HostedObj where
  ctx : Ctx
  pos : Nat
  size : Nat
  /-- The tick of the segment start that took it. -/
  at_ : Nat := 0
  deriving DecidableEq, Repr

/-- The entry that an accepted START has committed to and copied (R76, R85, R101), until the first segment start. -/
structure LeadEntry where
  idx : BitVec 17
  entry : BitVec 256
  /-- How many publishes of it have begun since the commit (R135). -/
  age : Nat := 0
  deriving DecidableEq, Repr

/-- A cluster and its sequencer (R71 to R130, R157 to R163). -/
structure Cluster where
  /-- CLU_STATUS.STATE (R98). -/
  state : CluState := .idle
  /-- STOP_REASON (R103). -/
  stopReason : BitVec 4 := 0
  /-- The loop stack, top first (R89). -/
  stack : List Frame := []
  /-- SEG_NOW (R103): the entry that plays at the output reference plane. In HELD, LEAD and IDLE nothing plays there, and it keeps the
  entry that played last (DESIGN CHOICE, log 14). -/
  seg : BitVec 17 := 0
  /-- The copy of the entry committed (R76). -/
  entry : BitVec 256 := 0
  /-- Plays completed in this commit (R86, R103). -/
  plays : Nat := 0
  /-- CLU_STARTS, 64 bits (R103, R104). -/
  starts : Ctr := {}
  /-- CLU_REFUSE.CODE (R101). -/
  refuse : BitVec 4 := 0
  /-- CLU_SEQ_FAULT.CODE (R85). -/
  seqCode : BitVec 4 := 0
  /-- CLU_SEQ_FAULT.ENTRY (R85). -/
  seqEntry : BitVec 17 := 0
  /-- W_BOUND (R103). -/
  wBound : BitVec 16 := 0
  /-- PG_BOUND (R103). -/
  pgBound : BitVec 4 := 0
  /-- What an accepted START has committed to, in HELD and LEAD (R76, R101). -/
  lead : Option LeadEntry := none
  /-- The instant of the first sample of the run (R100), while in LEAD. -/
  leadAt : Nat := 0
  /-- The model's own number of the play in progress, which names the accesses that serve it (R156, R157); no reset changes it. -/
  playNo : Nat := 0
  /-- The fill engine that has the cluster's fetch work since its latest segment start; none until it issues (R139). -/
  engine : Option (Fin 12) := none
  /-- The tick at which the forecast last started afresh: at a START, a jump, or a jump's refusal or cancellation (R147). -/
  foreseenAt : Nat := 0
  /-- How many publishes of the entry have begun since it was committed: which staged copy the run keeps (R135). -/
  copyAge : Nat := 0
  /-- The segment start of the play in progress, in fine units (R71). -/
  playStart : Nat := 0
  /-- t + D of an ABORT that waits for the next fret, in fine units (R99). -/
  abortAt : Option Nat := none
  /-- t + D of a per-cluster reset, in ticks, while the data released before it plays out (R447). -/
  resetPark : Option Nat := none
  /-- The loop stack by which that data was released (R447). -/
  outStack : List Frame := []
  /-- Requests on their way from the Bridge hop to T + 3 (R111). -/
  arriving : List Req := []
  /-- The pending-request registers (R111). -/
  pend : List Req := []
  /-- The scheduled jump (R113). -/
  sched : Option Sched := none
  /-- The tick from which the slot of a refused jump is free again (R119). -/
  slotFree : Nat := 0
  /-- CLU_JMP_REFUSE.CODE (R119). -/
  jmpCode : BitVec 4 := 0
  /-- CLU_JMP_REFUSE.ENTRY (R119). -/
  jmpEntry : BitVec 17 := 0
  /-- PARKED: park values after a late fault (R163). -/
  parked : Bool := false
  /-- A late fault before its late instant (R157). -/
  latePend : Option LatePend := none
  /-- Late fault records waiting for their landing (R157). -/
  lateRecs : List LateRec := []
  /-- The late accesses met since the latest late fault, itself among them: play, reader and 64-byte unit of the object (R159). -/
  lateSeen : List (Nat × Fin 20 × Nat) := []
  /-- LATE_ENTRY (R163). -/
  lateEntry : BitVec 17 := 0
  /-- LATE_SAMPLE (R163). -/
  lateSample : Word := 0
  /-- A counted strobe of this match play failed (R234). -/
  matchFail : Bool := false
  /-- A vector of this play was parked (R161). -/
  matchParked : Bool := false
  /-- The outcome chosen at the match cut of this play (R233). -/
  matchOutcome : Option Bool := none
  /-- The periods, in fine units, of the latest vectors that the run has played on the lowest bound group, at most 64 and the latest
  first (R156). -/
  runVecs : List Nat := []
  /-- The Hosted object of this commit (R389). -/
  hosted : Option HostedObj := none
  deriving DecidableEq, Repr

/-- The states of a W lane (R201). -/
inductive LaneState where
  | off | queued | arming | armed | spanChange | tripped | disarming | cal
  deriving DecidableEq, Repr

/-- What a governor request asks (R203). -/
inductive GovKind where
  | arm | cal | disarm
  deriving DecidableEq, Repr

/-- A request in the governor's queue (R203). -/
structure GovReq where
  kind : GovKind
  lane : Lane
  takenAt : Nat
  deriving DecidableEq, Repr

/-- The governor (R203, R215). -/
structure Governor where
  queue : List GovReq := []
  /-- The tick of the previous admission (R203). -/
  lastAdmit : Option Nat := none
  deriving DecidableEq, Repr

/-- An NCO action on its way (R181, R183, R184). -/
structure NcoAct where
  /-- The action instant, in fine units on the physical axis. -/
  due : Nat
  /-- R184: 0 LOAD, 1 segment start, 2 + slot marker, 16 + condition event. -/
  rank : Nat
  /-- The plan entry, for every source but LOAD. -/
  plan : Option (BitVec 14)
  /-- The cluster that produced it, whose output delay fixes when its plan entry is read (R180, R183). -/
  from_ : Clu := 0
  /-- The plan entry's eight words once read (R183). -/
  words : Option (BitVec 256) := none
  deriving DecidableEq, Repr

/-- Whether a LOAD waits, and for what (R181). -/
inductive LoadWait where
  | none | segmentStart | managementTick
  deriving DecidableEq, Repr

/-- The NCO of a W lane (R177). -/
structure Nco where
  running : Bool := false
  freq : BitVec 48 := 0
  acc : BitVec 48 := 0
  phaseOfs : BitVec 16 := 0
  chirp : BitVec 48 := 0
  /-- The modulator cycle whose start this state describes, on the time base (R177). -/
  m : Nat := 0
  /-- An action at cycle m has loaded FREQ, so no chirp step is made there (R184). -/
  freqLoaded : Bool := false
  deriving DecidableEq, Repr

/-- The registers of one SMOOTH interpolator: three comb delays and three integrators (R171). -/
structure Cic where
  d1 : BitVec 40 := 0
  d2 : BitVec 40 := 0
  d3 : BitVec 40 := 0
  i1 : BitVec 40 := 0
  i2 : BitVec 40 := 0
  i3 : BitVec 40 := 0
  deriving DecidableEq, Repr

/-- The words that the half-band filters HB0 to HB3 hold, the newest first: two for each pair of their coefficients (R172). -/
structure Fir where
  h0 : List (BitVec 18) := []
  h1 : List (BitVec 18) := []
  h2 : List (BitVec 18) := []
  h3 : List (BitVec 18) := []
  deriving DecidableEq, Repr

/-- A lane's datapath from the gain stage to the modulator's loop (R169 to R176, R190). The spec does not print the filters'
coefficients, nor the loop, whose state is a code that an uninterpreted function of Config steps (DESIGN CHOICE, logs 5 and 18). -/
structure Datapath where
  /-- The modulator cycle that follows the latest one that ran, while the datapath's past is known. -/
  next : Option Nat := none
  /-- K, FORMAT and EXP of the latest cycle (R167, R171). -/
  mode : BitVec 3 × Nat × Bool := (0, 0, false)
  /-- The place of the latest cycle in its sample (R167). -/
  pos : Nat := 0
  /-- The sample in progress after the gain stage: I, or a real lane's value (R169). -/
  vI : BitVec 16 := 0
  /-- The sample in progress after the gain stage: Q (R169). -/
  vQ : BitVec 16 := 0
  /-- The expander's output value in progress: I, or a real lane's value (R171). -/
  eI : BitVec 16 := 0
  /-- The expander's output value in progress: Q (R171). -/
  eQ : BitVec 16 := 0
  cicI : Cic := {}
  cicQ : Cic := {}
  /-- The interpolation filters on I, or on a real lane's values, and on Q (R172). -/
  firI : Fir := {}
  firQ : Fir := {}
  /-- The state of SCRAMBLE's 23-bit sequence (R197). -/
  scr : BitVec 23 := 0
  /-- The state of the modulator's loop, 0 at the admission of an arm (R190). -/
  loop : Nat := 0
  /-- The loop-filter coefficients at which the latest glide began (R193). -/
  coefFrom : Nat := 0
  deriving DecidableEq, Repr

/-- A W lane (R166 to R215). -/
structure WLane where
  /-- WLN_ARM_STATUS.STATE (R201). -/
  state : LaneState := .off
  /-- WLN_ARM_STATUS.REASON (R210). -/
  reason : BitVec 4 := 0
  /-- The tick at which ARMING, SPAN_CHANGE, CAL or a reconnection probe ends (R203, R207, R210, R211). -/
  due : Nat := 0
  /-- A reconnection probe runs in TRIPPED (R210). -/
  reconnect : Bool := false
  /-- FS taken at the last admission or span change (R203, R207). -/
  fs : BitVec 9 := 160
  /-- SPAN taken at the last admission or span change (R203, R207). -/
  unipolar : Bool := false
  /-- DEM taken at the last admission (R197, R203). -/
  dem : BitVec 2 := 0
  /-- The ticks of the latest compliance flags of OUTP and of OUTN and of the latest open-load flag: a flag is raised again only once its
  condition has been clear for 64 ticks (R210). -/
  compP : Option Nat := none
  compN : Option Nat := none
  openAt : Option Nat := none
  /-- A DISARM that R202 holds. -/
  disarmHeld : Bool := false
  /-- CAL_OFS (R211, R213). -/
  calOfs : BitVec 18 := 0
  /-- CAL_GAIN (R211, R213). -/
  calGain : BitVec 12 := 0
  /-- CAL_OFS applied since the last admission of an arm (R211). -/
  ofsUsed : BitVec 18 := 0
  /-- CAL_GAIN applied since the last admission of an arm (R211). -/
  gainUsed : BitVec 12 := 0
  /-- FS and SPAN at which the last CAL measured (R211). -/
  calAt : Option (BitVec 9 × Bool) := none
  nco : Nco := {}
  /-- NCO actions scheduled, by action instant (R181). -/
  acts : List NcoAct := []
  load : LoadWait := .none
  /-- The tick from which a LOAD waits for a management tick: a later one is its action instant (R181, R411). -/
  loadAt : Nat := 0
  /-- Plan entries read ahead of their action instant: instant in fine units, entry and words (R183). -/
  planReads : List (Nat × Nat × BitVec 256) := []
  /-- Centre index in force (R192). -/
  centre : Nat := 0
  /-- The tracked part of n while the band is held (R194). -/
  heldN : Option Nat := none
  /-- The modulator cycle at which the glide in progress ends (R193). -/
  glideEnd : Option Nat := none
  /-- WLN_QB.TRACK in force when the centre was last found: a change of TRACK ends a hold (R194). -/
  tracking : Bool := false
  /-- The cycle of the latest NCO action (R184). -/
  actAt : Option Nat := none
  /-- The modulator cycle of the latest snapshots (R187, R214). -/
  snapAt : Option Nat := none
  /-- NCO_NOW_FREQ snapshot (R187). -/
  snapFreq : BitVec 48 := 0
  /-- NCO_NOW_P snapshot (R187). -/
  snapP : BitVec 20 := 0
  /-- CENTRE_NOW snapshot (R214). -/
  snapCentre : BitVec 10 := 0
  /-- HELD snapshot (R214). -/
  snapHeld : Bool := false
  /-- GLIDING snapshot (R214). -/
  snapGliding : Bool := false
  /-- The modulator input word y_mod of the latest cycle (R189). -/
  yMod : BitVec 18 := 0
  /-- The quantiser level q of the latest cycle (R190). -/
  level : BitVec 4 := 0
  /-- The rotating pointer of the element matching, 0 to 14 (R197). -/
  demPtr : Nat := 0
  /-- The cells that the latest cycle steers to OUTP (R197). -/
  cells : BitVec 15 := 0
  path : Datapath := {}
  deriving DecidableEq, Repr

/-- A first-fail record (R228). -/
structure FirstFail where
  entry : BitVec 17
  play : BitVec 20
  vec : BitVec 30
  time : BitVec 64
  mask : BitVec 16
  deriving DecidableEq, Repr

/-- A placed strobe, or the sample of a capture (R229), that has not sampled yet (R243, R248). -/
structure StrobePend where
  pin : Fin 16
  sel : StrobeSel
  window : Bool
  /-- Sampling instants (opening instants of a window) on PCH and PCL, in fine units. -/
  atCh : Nat
  atCl : Nat
  /-- Closing instants of a window, in fine units. -/
  closeCh : Nat
  closeCl : Nat
  /-- The state code (R217). -/
  code : BitVec 3
  /-- The start of its vector, in fine units, which names the vector. -/
  vec : Nat
  deriving DecidableEq, Repr

/-- A vector with strobes or captures still open (R228 to R230). -/
structure VecOpen where
  /-- Start, in fine units. -/
  start : Nat
  entry : BitVec 17
  play : Nat
  idx : Nat
  ts : BitVec 5
  cluster : Clu
  cap : Bool
  /-- The vector counts for a match outcome (R234). -/
  inMatch : Bool
  fails : BitVec 16 := 0
  passes : BitVec 16 := 0
  obsCh : BitVec 16 := 0
  obsCl : BitVec 16 := 0
  deriving DecidableEq, Repr

/-- A pin group (R216 to R259). -/
structure PinGroup where
  /-- The first-fail record is armed (R228). -/
  ffArmed : Bool := true
  /-- The first-fail record; FF_VALID while it holds a vector (R228). -/
  ff : Option FirstFail := none
  /-- The first failing vector of the latest tick in which a failing vector's result was known (R228). -/
  ffLast : Option (Nat × FirstFail) := none
  /-- FL_WR_COUNT (R231). -/
  flWr : Word := 0
  /-- FL_RD_COUNT (R239). -/
  flRd : Word := 0
  /-- The tick of the latest FL_RD_COUNT write, and the count before it (R239). -/
  flRdOld : Option (Nat × Word) := none
  /-- The tick of the latest ring write (R231). -/
  flWrote : Option Nat := none
  /-- SEQ of the next record (R230). -/
  flSeq : Word := 0
  /-- The writer's queue of at most 64 records (R231). -/
  flQueue : List (BitVec 256) := []
  /-- The fail-log ring, by slot (R231, R232). -/
  ring : SMap (BitVec 256) := []
  /-- FL_SIZE, from STAGING_PART (R141, R237). -/
  flSize : Nat := 0
  /-- The tick at which a TCAL ends (R254). -/
  tcalUntil : Option Nat := none
  /-- A TCAL has completed since power-on or cold reset (R254). -/
  calibrated : Bool := false
  /-- Strobes placed and not yet sampled (R243). -/
  strobes : List StrobePend := []
  /-- Vectors whose results are still open. -/
  vecs : List VecOpen := []
  /-- The start of the group's next vector of the play, in fine units (R240). -/
  vecNext : Nat := 0
  /-- Index of that vector within the play (R228). -/
  vecIdx : Nat := 0
  /-- Period of the latest vector, in fine units (R240). -/
  vecPeriod : Nat := 512
  /-- The vectors of the play in progress that started before their word had landed: index and check tick (R156, R391). -/
  unlanded : List (Nat × Nat) := []
  /-- While data of a run plays out after a per-cluster reset: the tick of each copy of the shadow since then and the group's sets in force
  before it, the latest first (R253, R447). -/
  setsWas : List (Nat × SMap Word) := []
  deriving DecidableEq, Repr

/-- A transition to come on a drive pair: its instant in fine units, the level, and the start of the vector that placed it (R23). -/
structure Edge where
  at_ : Nat
  level : Bool
  vec : Nat
  deriving DecidableEq, Repr

/-- A pattern pin (R218, R221, R247, R248). -/
structure Pin where
  /-- The drive-data pair's logical level, and its edges still to come. -/
  dd : Bool := false
  ddEdges : List Edge := []
  /-- The drive-enable pair: driver on, and its edges still to come. -/
  de : Bool := false
  deEdges : List Edge := []
  /-- The latest transition of each drive pair (R247). -/
  lastDd : Option Nat := none
  lastDe : Option Nat := none
  /-- The latest sampling instant on each compare input (R248). -/
  lastCh : Option Nat := none
  lastCl : Option Nat := none
  /-- CH_NOW and CL_NOW (R238). -/
  chNow : Bool := false
  clNow : Bool := false
  deriving DecidableEq, Repr

/-- The states of a level channel (R268). -/
inductive LvlState where
  | opened | settling | connected | spanChange | tripped
  deriving DecidableEq, Repr

/-- A level channel (R260 to R282). -/
structure Level where
  /-- LVL_STATUS.STATE (R268). -/
  state : LvlState := .opened
  /-- SPAN_NOW (R260, R279). -/
  span : BitVec 4 := 0
  /-- LVL_ACTIVE.CODE (R262). -/
  active : BitVec 20 := 0
  /-- LVL_STATUS.REASON (R276). -/
  reason : BitVec 4 := 0
  /-- The tick at which settling or the change period ends (R270, R272). -/
  due : Nat := 0
  /-- The change in progress keeps the output driven: make before break (R272). -/
  driven : Bool := false
  /-- A span change runs on while the channel is OPEN or TRIPPED (R270). -/
  changing : Bool := false
  /-- The channel was SETTLING when its span change began: CONNECTED is still to be set (R270, R272). -/
  settling : Bool := false
  /-- OE in force (R270). -/
  oe : Bool := false
  /-- The tick of the latest CODE write, and the code pending before that tick (R263, R282). -/
  codeWas : Option (Nat × BitVec 20) := none
  /-- The ticks of the latest COMPLIANCE and of the latest OPEN_LOOP flag: a flag is raised again only once its condition has been clear
  for 3,200 ticks (R276). -/
  compAt : Option Nat := none
  openAt : Option Nat := none
  deriving DecidableEq, Repr

/-- A strobe that has been taken and captured: its capture tick, load tick and codes (R263). -/
structure Captured where
  capAt : Nat
  loadAt : Nat
  codes : List (BitVec 20)
  deriving DecidableEq, Repr

/-- A load group (R263 to R267). -/
structure LoadGroup where
  /-- Timestamps of strobes whose capture instant lies ahead (R263). -/
  strobes : List Nat := []
  /-- Captured codes waiting for their load instant (R263, R264). -/
  captured : List Captured := []
  deriving DecidableEq, Repr

/-- A monitor result (R278, R281). -/
structure MonResult where
  valid : Bool := false
  disturbed : Bool := false
  seq : BitVec 4 := 0
  result : BitVec 24 := 0
  deriving DecidableEq, Repr

/-- The monitor converter (R277). -/
structure Monitor where
  results : Vector MonResult 8 := Vector.replicate 8 {}
  /-- The channel of the conversion in progress (R277). -/
  chan : Option (Fin 8) := none
  /-- The tick at which the conversion in progress ends. -/
  due : Nat := 0
  /-- The conversion in progress has spanned a load instant, a connection or a span change (R278). -/
  disturbed : Bool := false
  deriving DecidableEq, Repr

/-- An event in the Bridge before its hop (R285, R289). -/
structure BrgEvt where
  prod : Fin 256
  /-- The tick from which the event counts: T, or T + 1,280 for an ensemble channel. -/
  at_ : Nat
  /-- The timestamp a link send carries, on the time base. -/
  carried : Nat
  data : BitVec 16
  /-- Its sticky flag and window count have been made. -/
  seen : Bool
  /-- The consumers enabled for it, fixed by a matrix change at or before its hop (R287). -/
  row : Option (List Nat) := none
  /-- The producer was suppressed at its firing tick (R292). -/
  muted : Bool := false
  deriving DecidableEq, Repr

/-- A Bridge timer (R294, R300). -/
structure Timer where
  /-- RUNNING. -/
  armed : Bool := false
  period : Nat := 8
  /-- Expiries remaining; 0 unlimited. -/
  left : Nat := 0
  unlimited : Bool := false
  /-- The next expiry. -/
  due : Nat := 0
  /-- An expiry due at the tick at which a START armed the timer again: it fires all the same (R295). -/
  owed : Option Nat := none
  /-- The tick of the latest STOP (R295). -/
  stopAt : Option Nat := none
  deriving DecidableEq, Repr

/-- The Bridge (R283 to R301). -/
structure Bridge where
  inFlight : List BrgEvt := []
  /-- Firings of each producer in the current window (R292). -/
  window : SMap Nat := []
  /-- The first suppressed tick of each producer whose 129th firing of a window has come and whose suppression is still to be entered
  (R292, R453). -/
  storms : SMap Nat := []
  /-- Producers whose counting starts afresh at the next management tick (R293). -/
  resting : List Nat := []
  /-- BRG_WATCH_SRC.VALID, DATA, SRC and BRG_WATCH_TIME (R290, R299). -/
  watchValid : Bool := false
  watchData : BitVec 16 := 0
  watchSrc : BitVec 8 := 0
  watchTime : BitVec 64 := 0
  timers : Vector Timer 8 := Vector.replicate 8 {}
  /-- Levels of the EVI balls (R297); reset: DESIGN CHOICE low, as their pull-downs hold them (R478; log 2). -/
  evi : BitVec 16 := 0
  /-- The tick at which LOAD_N last rose; none while it has been high since before reset (R266). -/
  loadNRise : Option Nat := none
  /-- EVO lines (R298). -/
  evo : BitVec 16 := 0
  /-- When each raised EVO line falls (R298). -/
  evoFall : Vector (Option Nat) 16 := Vector.replicate 16 none
  /-- EVI_NOW and EVO_NOW snapshots (R300). -/
  eviNow : BitVec 16 := 0
  evoNow : BitVec 16 := 0
  deriving DecidableEq, Repr

/-- Port states (R304). -/
inductive PortState where
  | down | train | up
  deriving DecidableEq, Repr

/-- A link port (R304, R328). -/
structure Port where
  state : PortState := .down
  neighValid : Bool := false
  neighId : BitVec 64 := 0
  /-- The tick, on the physical axis, of the neighbour's latest beacon (R304). -/
  neighAt : Nat := 0
  /-- The receive crossing has lost its alignment while the port is UP (R423). -/
  misaligned : Bool := false
  /-- Starts, in 1/1,000 tick, of the event cells queued for the port (R305, R309; DEDUCED, log 12). -/
  sends : List Nat := []
  deriving DecidableEq, Repr

/-- What an event cell carries, less TYPE and CRC (R306). -/
structure EventCell where
  hops : BitVec 4
  origin : Fin 64
  channel : Fin 32
  producer : BitVec 8
  data : BitVec 16
  /-- T, bits 47:0. -/
  time : BitVec 48
  deriving DecidableEq, Repr

/-- What the cells of a beacon carry (R307). -/
structure Beacon where
  hops : BitVec 4
  count : BitVec 4
  deviceId : BitVec 64
  /-- STATE of R312. -/
  state : BitVec 2
  auth : Bool
  ready : Bool
  idxValid : Bool
  memberIdx : Fin 64
  ensTag : BitVec 16
  authId : BitVec 64
  generation : BitVec 16
  epochCount : BitVec 48
  pendEpoch : BitVec 48
  view : BitVec 64
  reach : BitVec 64
  pend : BitVec 64
  /-- ADMIT cells: candidate DEVICE_ID and its new index. -/
  admits : List (BitVec 64 × Fin 64)
  deriving DecidableEq, Repr

/-- A beacon already taken: its origin, its count and when it came, on the time base (R308). -/
structure HeardBeacon where
  deviceId : BitVec 64
  count : BitVec 4
  at_ : Nat
  deriving DecidableEq, Repr

/-- What the device holds of an origin whose slot it checks (R313 to R319): a member index of the view, whose STATE is 3, or a device that is
no member. A device that has left the view without the others' knowledge stands here twice (R318, R326). -/
structure Origin where
  deviceId : BitVec 64
  state : BitVec 2
  idx : Fin 64
  ready : Bool
  reach : BitVec 64
  /-- Time base tick of the latest beacon (R308, R315). -/
  heard : Nat
  count : BitVec 4
  /-- Time base tick of the next check of its slot (R315). -/
  check : Nat
  missed : Nat
  lost : Bool
  deriving DecidableEq, Repr

/-- A pending change of the view (R314). -/
structure PendView where
  /-- PEND_EPOCH. -/
  epoch : BitVec 48
  view : BitVec 64
  admits : List (BitVec 64 × Fin 64)
  /-- The announcer's GENERATION, which the change raises by 1. -/
  gen : BitVec 16
  /-- The DEVICE_ID of a founder that announces it, whose index is to be 0 (R317). -/
  founder : Option (BitVec 64) := none
  deriving DecidableEq, Repr

/-- A message held until T + 1,280, or one sent (R322, R324); times on the time base. -/
structure LinkMsg where
  origin : Fin 64
  channel : Fin 32
  time : Nat
  data : BitVec 16
  /-- The device's own message, looped back (R321). -/
  own : Bool := false
  deriving DecidableEq, Repr

/-- Membership states (R312). -/
inductive LinkState where
  | off | alone | candidate | member
  deriving DecidableEq, Repr

/-- The Chiord link (R302 to R329). -/
structure Link where
  state : LinkState := .off
  ports : Vector Port 4 := Vector.replicate 4 {}
  memberIdx : Fin 64 := 0
  /-- LNK_STATUS.AUTH (R312). -/
  auth : Bool := false
  authId : BitVec 64 := 0
  generation : BitVec 16 := 0
  /-- The view in force (R314), and each index's DEVICE_ID and hops (R328). -/
  view : BitVec 64 := 0
  ids : SMap (BitVec 64) := []
  hops : SMap (BitVec 4) := []
  pendView : Option PendView := none
  /-- The changes of the view, the latest first: the time base tick of each, and the view before it (R322). -/
  viewLog : List (Nat × BitVec 64) := []
  /-- The spans of membership on the time base, the latest first (R318, R322). -/
  memberSpans : List (Nat × Option Nat) := []
  /-- The ensemble's EPOCH count as a candidate follows it from the authority's beacons (R318). -/
  ensEpoch : BitVec 48 := 0
  /-- The device founds the ensemble with its next beacon (R317). -/
  founding : Bool := false
  /-- Indices that the authority is to remove (R315, R319). -/
  removing : BitVec 64 := 0
  origins : List Origin := []
  /-- REACH: members heard and not declared lost (R307). -/
  reach : BitVec 64 := 0
  /-- The beacon count modulo 16 (R307). -/
  beaconCount : BitVec 4 := 0
  /-- The time base tick of the latest own beacon (R313). -/
  lastBeacon : Option Nat := none
  /-- The tick, on the physical axis, since which the candidate has heard no MEMBER and no lower candidate (R317). -/
  quietSince : Nat := 0
  /-- Messages held until T + 1,280, at most 256 (R322). -/
  heldMsgs : List LinkMsg := []
  /-- Event cells already received: origin, channel and T (R308). -/
  seen : List LinkMsg := []
  /-- Beacons already received, the latest of each origin (R308). -/
  beacons : List HeardBeacon := []
  /-- The time base tick of the latest change of GENERATION or declared loss (R324). -/
  changedAt : Option Nat := none
  /-- Own messages whose span from T to T + 1,600 is open, with their change mark (R324). -/
  sent : List (LinkMsg × Bool) := []
  /-- MC_TIME (R324). -/
  mcTime : BitVec 64 := 0
  /-- AUTH_IDs of other parts already recorded (R320). -/
  splitSeen : List (BitVec 64) := []
  /-- Cells sent: the latest event cell and beacon, as the ports carry them, and the ports used (R305 to R308). -/
  txCell : Option Cell := none
  txBeacon : List Cell := []
  txPorts : BitVec 4 := 0
  deriving DecidableEq, Repr

/-- A DRAM channel (R333 to R354). -/
structure DramChan where
  /-- POSTPONED: owed refreshes (R343). -/
  owed : Nat := 0
  /-- RT_INFLIGHT and BE_INFLIGHT (R354). -/
  rt : Nat := 0
  be : Nat := 0
  /-- The next bank of a per-bank refresh (R343). -/
  refBank : Fin 16 := 0
  /-- Open rows by bank (R348). -/
  rows : SMap Nat := []
  /-- The tick of the latest access of each bank (R348). -/
  used : SMap Nat := []
  /-- PREDICT counters by bank, 2 at training (R348). -/
  predict : SMap Nat := []
  /-- Pending aggressors, bank and row, at most 8 (R347). -/
  aggressors : List (Fin 16 × Nat) := []
  /-- The tick of the latest neighbour refresh (R347). -/
  lastNbr : Option Nat := none
  /-- Activates drawn so far (R345). -/
  draws : Nat := 0
  /-- The next instant at which a refresh falls due, in sixteenths of a tick; none until the first after a training or a change of
  REF_MODE (R343). -/
  due : Option Nat := none
  deriving DecidableEq, Repr

/-- Which training runs (R335 to R337). -/
inductive Training where
  | none | full | retrain | short
  deriving DecidableEq, Repr

/-- A DRAM access in flight (R153). -/
structure InFlight where
  tag : AccessTag
  issued : Nat
  /-- The cluster and the number of its play that an access of a reader serves (R156, R157). -/
  play : Option (Clu × Nat) := none
  /-- Its deadline had passed when it arrived at its channel (R339). -/
  passed : Bool := false
  deriving DecidableEq, Repr

/-- The DRAM controller and the DRAM (R330 to R355, R494). -/
structure Dram where
  /-- DRAM_PART is in force (R353). -/
  configured : Bool := false
  /-- The DRAM_PART payload (R332). -/
  part : BitVec 512 := 0
  /-- The tick at which the training began, from which DRAM_STATUS.PHASE follows (R335). -/
  trainAt : Nat := 0
  training : Training := .none
  /-- DRAM_STATUS.READY (R336). -/
  ready : Bool := false
  /-- DRAM_STATUS.SELF_REFRESH (R352). -/
  selfRefresh : Bool := false
  /-- A warm reset ended a full training, which starts again on release (R337). -/
  againFull : Bool := false
  /-- A RETRAIN that waits for its clusters (R336). -/
  retrainWait : Bool := false
  /-- The CK_DRAM PLL has relocked during a training: the short training follows it (R495). -/
  shortNext : Bool := false
  /-- ESC_ADDR, ESC_WRITE, ESC_SRC (R349, R353). -/
  escAddr : BitVec 64 := 0
  escWrite : Bool := false
  escSrc : BitVec 6 := 0
  chans : Vector DramChan 16 := Vector.replicate 16 {}
  /-- Accesses in flight, in the order in which they arrived at their channels (R338, R339). -/
  inFlight : List InFlight := []
  /-- Issued accesses that wait for a place at their channel, in order of issue (R338). -/
  waiting : List InFlight := []
  /-- The bytes written since the contents were last lost (R494). -/
  cells : List Host.Cell := []
  /-- How often the contents have been lost (R494). -/
  gen : Nat := 0
  deriving DecidableEq, Repr

/-- A staging slot that has been allocated (R154, R356). -/
structure Slot where
  /-- The object-space address held, in 64-byte units. -/
  addr : BitVec 30
  /-- The landing bit. -/
  landed : Bool
  landedAt : Nat
  data : BitVec 512
  /-- The entry whose staged copy the slot belongs to (R135); none for data that a reader fetched. -/
  entry : Option (BitVec 17) := none
  /-- How many publishes of that entry have begun since its access was issued (R135). -/
  age : Nat := 0
  /-- The cluster and the number of its play that an access of a reader serves (R156, R157). -/
  play : Option (Clu × Nat) := none
  /-- Its access landed after its deadline (R150). -/
  late : Bool := false
  deriving DecidableEq, Repr

/-- The arbitration of one tile (R358): the ticks before `at_` are settled. -/
structure Arb where
  at_ : Nat := 0
  /-- Requests not granted yet: the master and the tick of the request. -/
  waiting : List (Fin 44 × Nat) := []
  /-- The index at which the round robin of each class goes on; the spec does not state where it begins (DESIGN CHOICE, log 20). -/
  turn : Vector Nat 4 := Vector.replicate 4 0
  deriving DecidableEq, Repr

/-- Tuning-pass phases (R363). -/
inductive TunePhase where
  | idle | copy | test | restore
  deriving DecidableEq, Repr

/-- One slot of the exchange RAM's cycle (R367, R368). -/
structure XramSlot where
  tick : Nat
  word : Nat
  write : Bool
  be : BitVec 4
  data : Word
  deriving DecidableEq, Repr

/-- An LB access that was sampled: its edge, the word that a read drives on LB_D, and BUSY_N (asserted is true) (R370). -/
structure LbRun where
  edge : Nat
  data : Option Word := none
  busy : Bool := false
  deriving DecidableEq, Repr

/-- On-chip memory (R356 to R373). -/
structure Mem where
  /-- Allocated staging slots by slot index. -/
  slots : SMap Slot := []
  /-- The arbitration of each tile (R358). -/
  arb : SMap Arb := []
  /-- MEM_VIOL_ADDR and MEM_VIOL_INFO (R362). -/
  violAddr : BitVec 21 := 0
  violWrite : Bool := false
  violSrc : BitVec 6 := 0
  /-- Masters with a violation since the latest management tick (R362). -/
  violSeen : List Nat := []
  /-- CLEARING, by memory: staging, tables, exchange RAM, winter store (R366). -/
  clearing : BitVec 4 := 0
  /-- TUNE_STATUS and TUNE_FAIL (R363, R364). -/
  tunePhase : TunePhase := .idle
  tuneTile : Fin 96 := 0
  tuneBlock : Fin 256 := 0
  tuneStopped : Bool := false
  failTile : BitVec 7 := 0
  failBlock : BitVec 8 := 0
  /-- The block that stays redirected to the spare buffer (R364). -/
  redirect : Option (Fin 96 × Fin 256) := none
  /-- Management tick count at which the next block may start (R363). -/
  tuneNext : Nat := 0
  /-- The tile accesses of the phase in progress that the test engine has been granted (R363). -/
  tuneDone : Nat := 0
  /-- The spare buffer, by row of the block in progress or redirected (R363, R364). -/
  spare : SMap (BitVec 512) := []
  /-- The exchange RAM, by byte; cleared to zero (R366). -/
  xram : List Host.Cell := []
  /-- The host slots of the latest host access, the first word's first, and the latest LB slot (R367, R368). -/
  hostSlots : List XramSlot := []
  lbSlot : Option XramSlot := none
  /-- The LB accesses whose second edge has not passed, the latest first (R370). -/
  lbRuns : List LbRun := []
  /-- The words of the latest BAR2 read, in ascending address order (R367). -/
  bar2Data : List Word := []
  /-- XRAM_COLLIDE_ADDR (R368). -/
  collideAddr : BitVec 18 := 0
  deriving DecidableEq, Repr

/-- Stream context states (R383). -/
inductive CtxState where
  | closed | opened | error | closing
  deriving DecidableEq, Repr

/-- A stream context (R382 to R399). -/
structure Stream where
  state : CtxState := .closed
  /-- STRM_STATUS.ERR (R384, R392). -/
  err : BitVec 4 := 0
  /-- Pool units taken, in order (R382). -/
  units : List Nat := []
  /-- HEAD and TAIL (R386, R387). -/
  head : BitVec 16 := 0
  tail : BitVec 16 := 0
  /-- Descriptors read and not completed, oldest first (R386). -/
  descs : List Descriptor := []
  /-- The code of a bad descriptor that follows those in `descs`; 0 for none (R392). -/
  badDesc : BitVec 4 := 0
  /-- Bytes of the oldest descriptor already landed (R387). -/
  pieceDone : Nat := 0
  /-- LANDED and RELEASED, 64-byte units modulo 2^32 (R388). -/
  landed : Word := 0
  released : Word := 0
  /-- The ring position that follows the previous object taken, in units (R389). -/
  taken : Nat := 0
  /-- Objects committed and not released, oldest first (R390). -/
  objs : List (Clu × Nat) := []
  /-- Units of released objects that have not landed, position and count: they are freed as they land (R390). -/
  passed : List (Nat × Nat) := []
  /-- LOW_WATER may set (R393). -/
  lowArmed : Bool := true
  /-- The latest writeback of HEAD: the host address, which is WB_ADDR in force, and the value (R387). -/
  wbHead : Option (BitVec 64 × Word) := none
  /-- The descriptor whose piece was in transmission when CLOSE was taken (R394). -/
  lastPiece : Option Descriptor := none
  deriving DecidableEq, Repr

/-- A BAR4 write that has been accepted and not drained (R381). -/
structure HostWrite where
  addr : Nat
  bytes : List (Option Byte)
  /-- R379 discards it. -/
  discard : Bool
  deriving DecidableEq, Repr

/-- The host interface (R374 to R399). -/
structure HostIf where
  /-- Bus mastering enabled in the command register; reset: PCI Express gives 0 (PRESUMED, log 10). -/
  bme : Bool := false
  /-- The function is in D3hot (R374). -/
  d3hot : Bool := false
  /-- WR_ACCEPTED and WR_DRAINED (R381). -/
  wrAccepted : Word := 0
  wrDrained : Word := 0
  writes : List HostWrite := []
  /-- The word the latest BAR0 read returned, the lowest where it read several (R401, R407). -/
  bar0Data : Word := 0
  /-- The words that followed it in the latest BAR0 read (R403, R404). -/
  bar0More : List Word := []
  /-- The data of the latest BAR4 read (R379). -/
  bar4Data : List Byte := []
  ctxs : Vector Stream 64 := Vector.replicate 64 {}
  /-- Pool units not held by any context (R382). -/
  poolFree : List Nat := []
  /-- MSI-X table words, by word index from 0x8000 (R397), and the pending bit array. -/
  msixTable : SMap Word := []
  msixPending : BitVec 64 := 0
  /-- MSI-X messages sent, and the vector of the latest (R378). -/
  msixSent : Nat := 0
  msixLast : Option (Fin 64) := none
  /-- AER correctable and uncorrectable status, by R376's list (R376). -/
  aerCorr : BitVec 6 := 0
  aerUncorr : BitVec 6 := 0
  /-- The severity of the latest error that the endpoint has reported (R376). -/
  aerReport : Option AerSeverity := none
  deriving DecidableEq, Repr

/-- A fault record before its encoding (R454). -/
structure FaultRec where
  cls : BitVec 8
  cause : BitVec 8
  cluster : Option Clu := none
  source : BitVec 8
  entry : BitVec 17 := 0
  sample : Word := 0
  lateness : BitVec 16 := 0
  aux : BitVec 16 := 0
  time : BitVec 64
  detail : Word := 0
  deriving DecidableEq, Repr

/-- A record in the supervisor's queue, with its SEQ and report tick (R455). -/
structure QueuedRec where
  body : FaultRec
  seq : Word
  reported : Nat
  deriving DecidableEq, Repr

/-- The fault supervisor and the watchdog (R453 to R467). -/
structure Supervisor where
  queue : List QueuedRec := []
  /-- The fault ring of 256 records, by slot (R455). -/
  ring : SMap (BitVec 256) := []
  /-- FLT_WR_COUNT and FLT_RD_COUNT (R455, R463). -/
  wr : Word := 0
  rd : Word := 0
  /-- Records produced, modulo 2^32 (R454). -/
  seq : Word := 0
  /-- The tick of the latest FLT_RD_COUNT write, and the count before it (R463). -/
  rdOld : Option (Nat × Word) := none
  /-- The tick of the latest record written or lost from the queue's head (R455, R460). -/
  wroteAt : Option Nat := none
  /-- WATCHING (R460); from the release of the internal reset. -/
  watching : Bool := true
  /-- The tick at which the watchdog's pauses have begun, while it pauses (R460). -/
  pausedAt : Option Nat := none
  /-- The tick of the latest heartbeat, moved on by the pauses since, and its time base value (R460, R462). -/
  beatAt : Nat := 0
  beatTime : BitVec 64 := 0
  /-- The device is in safe park (R461). -/
  safePark : Bool := false
  /-- LAST_BEAT (R462). -/
  lastBeat : BitVec 64 := 0
  deriving DecidableEq, Repr

/-- A publish command (R133). -/
structure PubCmd where
  first : Nat
  count : Nat
  mask : BitVec 8
  /-- HOST_WR_ACCEPTED at the GO (R381). -/
  snapshot : Word
  /-- Layouts recorded at the management tick of the GO, by cluster in ascending order (R132). -/
  layouts : List Layout
  deriving DecidableEq, Repr

/-- An entry that a publish is staging (R133): its new layouts and the unit ranges (first, count) that must land. -/
structure StagingJob where
  entry : Nat
  layouts : List (Layout × PClass)
  ranges : List (Nat × Nat)
  /-- A promotion or a change of class (R138): the entry keeps its class until the staging has landed. -/
  keep : Bool := false
  promoted : Bool := false
  /-- The staging has landed while the class could not change: the change waits for the next re-evaluation (R138). -/
  waits : Bool := false
  deriving DecidableEq, Repr

/-- An old staged copy of an entry that a run may still use, and the units that it holds in the head and resident areas (R135, R145). -/
structure KeptCopy where
  entry : Nat
  age : Nat
  heads : Nat
  res : Nat
  deriving DecidableEq, Repr

/-- Luthier and Capo (R131 to R165). -/
structure Placement where
  /-- GO writes that no management tick has taken yet: PUB_INDEX, PUB_COUNT and CLU_MASK (R133). -/
  goes : List (Nat × Nat × BitVec 8) := []
  queue : List PubCmd := []
  /-- The next entry of the command at the head, once it has started to run. -/
  next : Option Nat := none
  /-- PUB_STATUS.CODE and REFUSE_IDX (R134, R164). -/
  code : BitVec 4 := 0
  refuseIdx : BitVec 17 := 0
  jobs : List StagingJob := []
  entries : SMap EntryRec := []
  kept : List KeptCopy := []
  /-- The 64-byte units of the resident area that the latest re-evaluation left free, less those that publishes have taken of it since;
  0 before the first (R137). -/
  evalRoom : Nat := 0
  /-- The number of the management tick of the latest re-evaluation (R137). -/
  evalAt : Nat := 0
  /-- The tick at which each entry's head was last in the fan-out of a reach (R149). -/
  needed : SMap Nat := []
  /-- ROLL_EN as STAGING_PART set it (R141, R445). -/
  rollInit : Bool := false
  /-- CAPO_STATUS.MODE (R148): true is ROLLING. -/
  rolling : Bool := false
  /-- SWITCHING (R148, R164). -/
  switching : Bool := false
  /-- STAGING_PART words 0 to 5 as loaded (R141). -/
  headUnits : Nat := 0
  resUnits : Nat := 0
  capoRate : Nat := 0
  shares : BitVec 64 := 0
  rollMin : Word := 0
  flLog2 : Word := 0
  deriving DecidableEq, Repr

/-- The test access port and the fuse programmer (R488 to R490). -/
structure Jtag where
  /-- The instruction register; IDCODE at Test-Logic-Reset (R488). -/
  ir : BitVec 8 := 2
  /-- The data register that the latest instruction selected, as captured (R488, R490). -/
  dr : BitVec 512 := 0
  /-- The bypass register is selected (R488). -/
  bypassed : Bool := false
  /-- The boundary cells as last loaded, by ball (R488); reset: DESIGN CHOICE 0 (log 2). -/
  cells : BitVec 1303 := 0
  /-- What the boundary cells captured last, by ball (R488); reset: DESIGN CHOICE 0 (log 2). -/
  scan : BitVec 1303 := 0
  /-- Fuse programming in progress: the value being programmed (R490). -/
  fusing : Option (BitVec 512) := none
  deriving DecidableEq, Repr

/-- The SMBus port (R491, R492). -/
structure Smbus where
  /-- ALERT_STATUS: bit 0 OVER_TEMP, bit 1 SAFE_PARK (R492). -/
  status : Evt := {}
  /-- ALERT_MASK (R492). -/
  mask : Byte := 0
  /-- TEMP_LIMIT (R492). -/
  limit : BitVec 16 := 0x0690
  /-- TEMP n, latched readings (R492). -/
  temps : Vector (BitVec 16) 12 := Vector.replicate 12 0x8000
  /-- What the latest read returned, and the address answered at the Alert Response Address (R491, R492). -/
  data : BitVec 16 := 0
  /-- The packet error code of that read as Read Byte or Read Word, and as Block Read (R491). -/
  pec : Byte := 0
  blockPec : Byte := 0
  /-- The count byte with which a Block Read returns it (R491). -/
  blockCount : Byte := 0
  ara : Option (BitVec 7) := none
  /-- The bytes of a read are being shifted out (R491). -/
  active : Bool := false
  /-- SMB_AD1 and SMB_AD0 as sampled (R491); reset: DESIGN CHOICE 0 (log 2). -/
  addrPins : BitVec 2 := 0
  deriving DecidableEq, Repr

/-- What software's writes of one tick replaced, in the tables and in RW words: a read that the device makes in that tick, and a boundary
that falls in it, still take it (R109, R116, R183, R411). -/
structure TickOld where
  tick : Nat := 0
  /-- Words by BAR0 address. -/
  words : SMap Word := []
  /-- What placement recorded of entries that a write unpublished. -/
  recs : SMap EntryRec := []
  deriving DecidableEq, Repr

/-- The block: everything the spec gives it, and the queue of waiting commands. -/
structure State where
  part : Part := {}
  clk : Clock := {}
  pwr : Power := {}
  img : Image := {}
  ovl : Overlay := {}
  trg : Triggers := {}
  /-- RW words as last written, by canonical BAR0 address; unlisted reads as its reset value (R408, R411). -/
  cfg : SMap Word := []
  /-- RW words in force (R411). -/
  eff : SMap Word := []
  /-- W1C words, by canonical BAR0 address (R408); unlisted reads as zero. -/
  flg : SMap Evt := []
  /-- Hardware counters, by canonical BAR0 address (R410); unlisted reads as zero. -/
  ctr : SMap Ctr := []
  /-- CMD bits held until their command is taken, by canonical BAR0 address (R409). -/
  cmd : SMap Word := []
  /-- CMD bits written again while they still read 1: one further request each (R409). -/
  more : SMap Word := []
  /-- ERR_ADDR and ERR_WRITE (R414). -/
  errAddr : BitVec 24 := 0
  errWrite : Bool := false
  tabs : Tables := {}
  was : TickOld := {}
  clu : Vector Cluster 8 := Vector.replicate 8 {}
  wl : Vector WLane 16 := Vector.replicate 16 {}
  gov : Governor := {}
  pg : Vector PinGroup 4 := Vector.replicate 4 {}
  pin : Vector Pin 64 := Vector.replicate 64 {}
  lvl : Vector Level 48 := Vector.replicate 48 {}
  lg : Vector LoadGroup 6 := Vector.replicate 6 {}
  mon : Monitor := {}
  brg : Bridge := {}
  link : Link := {}
  dram : Dram := {}
  mem : Mem := {}
  host : HostIf := {}
  flt : Supervisor := {}
  plc : Placement := {}
  jtag : Jtag := {}
  smb : Smbus := {}
  /-- A rail other than VDD_AON and VDD_CORE has fallen: behaviour undefined until RESET_N or PERST_N (R471). -/
  undef : Bool := false
  /-- The model's own: the number of the next free value (log 9); no rule reads it. -/
  freeN : Nat := 0
  /-- The commands that wait, first in, first out. -/
  pending : List Instr := []
  deriving DecidableEq, Repr

/-- The block right after the release of the internal reset at power-on with BOOT_SEL low (R1, R43, R448, R450):
unconfigured, every output safe, the time base at 0, every register at its reset value. -/
def State.reset : State := {}

end Sys2Proof.Machine
end

