-- ==== Sys2Proof/Machine/Ops.lean ====
section
/-! DEFINITION. The named operations over the state: keyed stores and byte memories in canonical form, W1C words
and counters with their same-tick outcomes (R408, R410), the tick, and the parts of the state by index. -/
namespace Sys2Proof.Machine

/-! ### Keyed stores: keys strictly rising, no entry equal to the default of its key -/

/-- The listed value of a key. -/
def smFind {α : Type} : SMap α → Nat → Option α
  | [], _ => none
  | (a, x) :: r, k => if a = k then some x else smFind r k

/-- The value of a key, `d k` where it is not listed. -/
def smGet {α : Type} (d : Nat → α) (m : SMap α) (k : Nat) : α := (smFind m k).getD (d k)

/-- List key `k` with `v`, keeping the order of keys. -/
def smInsert {α : Type} : SMap α → Nat → α → SMap α
  | [], k, v => [(k, v)]
  | (a, x) :: r, k, v =>
    if k < a then (k, v) :: (a, x) :: r else if k = a then (k, v) :: r else (a, x) :: smInsert r k v

/-- Drop key `k`. -/
def smErase {α : Type} (m : SMap α) (k : Nat) : SMap α := m.filter (fun p => p.1 ≠ k)

/-- Give key `k` the value `v`; a key at its default is not listed. -/
def smPut {α : Type} [DecidableEq α] (d : Nat → α) (m : SMap α) (k : Nat) (v : α) : SMap α :=
  if v = d k then smErase m k else smInsert m k v

/-- Change the value of key `k` by `f`. -/
def smMod {α : Type} [DecidableEq α] (d : Nat → α) (m : SMap α) (k : Nat) (f : α → α) : SMap α :=
  smPut d m k (f (smGet d m k))

/-- The canonical form of a keyed store. -/
def smWf {α : Type} [DecidableEq α] (d : Nat → α) (m : SMap α) : Bool :=
  decide (List.Pairwise (fun p q : Nat × α => p.1 < q.1) m) && m.all (fun p => decide (p.2 ≠ d p.1))

/-! ### Byte memories -/

/-- The canonical form of a byte memory (addresses strictly rising, no entry equal to what an unlisted address reads as). -/
def Memory.wf (d : Nat → Byte) (m : List Host.Cell) : Bool := smWf d m

/-- Write a list of bytes at rising addresses from `a`; `none` leaves a byte as it is. -/
def putBytes (d : Nat → Byte) (m : List Host.Cell) (a : Nat) : List (Option Byte) → List Host.Cell
  | [] => m
  | none :: r => putBytes d m (a + 1) r
  | some b :: r => putBytes d (smPut d m a b) (a + 1) r

/-- `n` bytes at rising addresses from `a`. -/
def getBytes (d : Nat → Byte) (m : List Host.Cell) (a n : Nat) : List Byte :=
  (List.range n).map (fun i => smGet d m (a + i))

/-- The number that bytes in ascending address order spell, little-endian. -/
def leNat : List Byte → Nat
  | [] => 0
  | b :: r => b.toNat + 256 * leNat r

/-- The `n` low bytes of a number in ascending address order, little-endian. -/
def leBytes (n v : Nat) : List Byte := (List.range n).map (fun i => BitVec.ofNat 8 (v >>> (8 * i)))

/-- The 32 bits of a word that byte enables select (R405). -/
def beMask (be : BitVec 4) : Word :=
  (if be.getLsbD 0 then 0xFF#32 else 0) ||| (if be.getLsbD 1 then 0xFF00#32 else 0) |||
  (if be.getLsbD 2 then 0xFF0000#32 else 0) ||| (if be.getLsbD 3 then 0xFF000000#32 else 0)

/-- `old` with the bits of `mask` taken from `new`. -/
def merge (old new mask : Word) : Word := (old &&& ~~~mask) ||| (new &&& mask)

/-- The word mask of bits `hi` down to `lo`. -/
def fmask (hi lo : Nat) : Word := BitVec.ofNat 32 ((2 ^ (hi - lo + 1) - 1) <<< lo)

/-- A word with the single bit `i`. -/
def bit32 (i : Nat) : Word := BitVec.ofNat 32 (1 <<< i)

/-- Bits `hi` down to `lo` of a word, as a number. -/
def fld (w : Word) (hi lo : Nat) : Nat := bitsOf w.toNat hi lo

/-- The indices of the bits set in the low `n` bits of a number, rising. -/
def setBits (n v : Nat) : List Nat := (List.range n).filter (fun i => v.testBit i)

/-! ### The outcome of a command -/

/-- Raise a fault where an earlier fall of a rail leaves the behaviour undefined (R471), else run. -/
def State.guarded (s : State) (f : State → State) : Host.Outcome State Fault Refusal :=
  if s.undef then .fault .behaviourUndefined else .next (f s)

/-! ### Time -/

/-- Move the tick on to `t`; it never goes back. -/
def State.upto (s : State) (t : Nat) : State := { s with clk := { s.clk with now := max s.clk.now t } }

/-- The current tick on the physical axis (R12; DESIGN CHOICE, log 1). -/
def State.now (s : State) : Nat := s.clk.now

/-- The device time base at tick `t` of the physical axis (R310). -/
def State.tbAt (s : State) (t : Nat) : Nat :=
  (((if s.clk.timeRuns then t else s.clk.stoppedAt : Nat) : Int) + s.clk.ofs).toNat

/-- The device time base, LNK_TIME (R310). -/
def State.tb (s : State) : Nat := s.tbAt s.clk.now

/-- The tick of the physical axis at which the time base holds `v`; 0 where it lies before the axis. -/
def State.physOf (s : State) (v : Nat) : Nat := ((v : Int) - s.clk.ofs).toNat

/-- The first management tick after tick `t` (R412), on the physical axis. -/
def State.mgmtAfter (s : State) (t : Nat) : Nat := s.physOf ((s.tbAt t / 1024 + 1) * 1024)

/-- The first management tick at or after tick `t` (R412), on the physical axis. -/
def State.mgmtFrom (s : State) (t : Nat) : Nat := s.physOf ((s.tbAt t + 1023) / 1024 * 1024)

/-- Do in tick `t` what falls there, also where later ticks have been told of already; the tick never goes back (R12). -/
def State.inTick (s : State) (t : Nat) (f : State → State) : State :=
  let r := f { s with clk := { s.clk with now := t } }
  r.upto s.clk.now

/-- CLK_ALIGNED (R419, R421): a crossing aligned at E counts from E + 64; a link receive crossing is aligned while its
port is UP (R422), until it loses its alignment (R423). -/
def State.alignedNow (s : State) : BitVec 16 :=
  let due := match s.clk.aligning with
    | some x => if x.1 ≤ s.clk.now then x.2 else 0
    | none => 0
  let ports := (List.finRange 4).foldl (fun m (p : Fin 4) =>
    if s.link.ports[p].state = .up ∧ !s.link.ports[p].misaligned then m ||| (1#16 <<< (12 + p.val)) else m) 0
  ((s.clk.aligned ||| due) &&& 0x0FFF) ||| ports

/-! ### Isolation clamps (R437, R461, R472) -/

/-- Something holds the device in reset (R444, R489). -/
def State.heldInReset (s : State) : Bool := s.pwr.porHold || s.pwr.resetLow || s.pwr.perstLow || s.pwr.jtagHold

/-- Every clamp of R437 holds: from cycle 0 of the commit window until the thaw releases them (R437), and in a reset (R472). -/
def State.isolated (s : State) : Bool :=
  s.heldInReset || decide (s.pwr.phase = .commit ∨ s.pwr.phase = .winter ∨ s.pwr.phase = .thawing)

/-- The clamps hold the output balls that R461 lists: as those of R437 do, and in safe park. -/
def State.clamped (s : State) : Bool := s.flt.safePark || s.isolated

/-! ### Free values -/

/-- A value that the spec leaves open, and the state that has used it up (log 9). -/
def State.free (s : State) : Word × State := (Config.freeWord s.freeN, { s with freeN := s.freeN + 1 })

/-! ### W1C words and counters -/

/-- Hardware sets `m` in tick `t` (R408). -/
def Evt.set (e : Evt) (t : Nat) (m : Word) : Evt :=
  { bits := e.bits ||| m, fresh := if e.tick = t then e.fresh ||| m else m, tick := t }

/-- Software clears `m` in tick `t`: what hardware set in that tick stays (R408). -/
def Evt.clear (e : Evt) (t : Nat) (m : Word) : Evt :=
  { e with bits := e.bits &&& ~~~(m &&& ~~~(if e.tick = t then e.fresh else 0)) }

/-- Count `n` in tick `t`, saturating at `top` (R410). -/
def Ctr.count (c : Ctr) (top t n : Nat) : Ctr :=
  { val := min (c.val + n) top, inc := (if c.tick = t then c.inc else 0) + n, tick := t }

/-- Count `n` in tick `t` modulo `m`. -/
def Ctr.countMod (c : Ctr) (m t n : Nat) : Ctr :=
  { val := (c.val + n) % m, inc := (if c.tick = t then c.inc else 0) + n, tick := t }

/-- Software clears in tick `t`: the increments of that tick stay (R410). -/
def Ctr.clear (c : Ctr) (t : Nat) : Ctr := { c with val := if c.tick = t then c.inc else 0 }

/-- The top of a saturating 32-bit counter. -/
def top32 : Nat := 0xFFFFFFFF

/-- A W1C word's bits. -/
def State.flag (s : State) (a : Nat) : Word := (smGet (fun _ => ({} : Evt)) s.flg a).bits

/-- Software clears bits of a W1C word (R408). -/
def State.clearFlag (s : State) (a : Nat) (m : Word) : State :=
  { s with flg := smMod (fun _ => {}) s.flg a (fun e => e.clear s.clk.now m) }

/-- A counter's value. -/
def State.counter (s : State) (a : Nat) : Nat := (smGet (fun _ => ({} : Ctr)) s.ctr a).val

/-- Hardware counts `n` at a saturating counter (R410). -/
def State.count (s : State) (a n : Nat) : State :=
  if n = 0 then s else { s with ctr := smMod (fun _ => {}) s.ctr a (fun c => c.count top32 s.clk.now n) }

/-- A clear of a counter (R410). -/
def State.clearCtr (s : State) (a : Nat) : State :=
  { s with ctr := smMod (fun _ => {}) s.ctr a (fun c => c.clear s.clk.now) }

/-- Clears of several counters. -/
def State.clearCtrs (s : State) (l : List Nat) : State := l.foldl State.clearCtr s

/-! ### CMD bits that wait to be taken (R409) -/

/-- The waiting bits of a CMD word. -/
def State.cmdWord (s : State) (a : Nat) : Word := smGet (fun _ => 0) s.cmd a

/-- A write of 1 leaves its bits waiting; a bit that still reads 1 gains one further request (R409). -/
def State.cmdHold (s : State) (a : Nat) (m : Word) : State :=
  { s with cmd := smMod (fun _ => 0) s.cmd a (fun w => w ||| m)
           more := smMod (fun _ => 0) s.more a (fun w => w ||| (s.cmdWord a &&& m)) }

/-- Bits read 1 and gain no further request. -/
def State.cmdShow (s : State) (a : Nat) (m : Word) : State := { s with cmd := smMod (fun _ => 0) s.cmd a (fun w => w ||| m) }

/-- Taking or dropping a command clears its bits, or presents their further requests (R409). -/
def State.cmdTake (s : State) (a : Nat) (m : Word) : State :=
  let again := smGet (fun _ => 0) s.more a &&& m
  { s with cmd := smMod (fun _ => 0) s.cmd a (fun w => (w &&& ~~~m) ||| again)
           more := smMod (fun _ => 0) s.more a (fun w => w &&& ~~~m) }

/-- A command and its further request are both dropped. -/
def State.cmdDrop (s : State) (a : Nat) (m : Word) : State :=
  { s with cmd := smMod (fun _ => 0) s.cmd a (fun w => w &&& ~~~m)
           more := smMod (fun _ => 0) s.more a (fun w => w &&& ~~~m) }

/-! ### Parts by index -/

def State.modClu (s : State) (n : Clu) (f : Cluster → Cluster) : State :=
  { s with clu := s.clu.set n (f s.clu[n]) }

def State.modWl (s : State) (w : Lane) (f : WLane → WLane) : State :=
  { s with wl := s.wl.set w (f s.wl[w]) }

def State.modPg (s : State) (g : Pg) (f : PinGroup → PinGroup) : State :=
  { s with pg := s.pg.set g (f s.pg[g]) }

def State.modPin (s : State) (p : PinIdx) (f : Pin → Pin) : State :=
  { s with pin := s.pin.set p (f s.pin[p]) }

def State.modLvl (s : State) (c : Lvl) (f : Level → Level) : State :=
  { s with lvl := s.lvl.set c (f s.lvl[c]) }

def State.modLg (s : State) (g : Lg) (f : LoadGroup → LoadGroup) : State :=
  { s with lg := s.lg.set g (f s.lg[g]) }

def State.modTmr (s : State) (k : Fin 8) (f : Timer → Timer) : State :=
  { s with brg := { s.brg with timers := s.brg.timers.set k (f s.brg.timers[k]) } }

def State.modPort (s : State) (p : Fin 4) (f : Port → Port) : State :=
  { s with link := { s.link with ports := s.link.ports.set p (f s.link.ports[p]) } }

def State.modChan (s : State) (g : Chan) (f : DramChan → DramChan) : State :=
  { s with dram := { s.dram with chans := s.dram.chans.set g (f s.dram.chans[g]) } }

def State.modCtx (s : State) (c : Ctx) (f : Stream → Stream) : State :=
  { s with host := { s.host with ctxs := s.host.ctxs.set c (f s.host.ctxs[c]) } }

def State.modSlot (s : State) (k : Fin 16) (f : OvlSlot → OvlSlot) : State :=
  { s with ovl := { s.ovl with slots := s.ovl.slots.set k (f s.ovl.slots[k]) } }

def State.modOvl (s : State) (f : Overlay → Overlay) : State := { s with ovl := f s.ovl }

/-- PENDING overlays return to VALID, but for the one being applied (R62). -/
def State.dropPending (s : State) : State :=
  let stay := s.ovl.queue.filter (fun k => decide (s.ovl.applying = some k))
  let back := s.ovl.queue.filter (fun k => decide (s.ovl.applying ≠ some k))
  let s := back.foldl (fun s k => s.modSlot k (fun o => { o with state := .valid })) s
  s.modOvl (fun o => { o with queue := stay })

/-- Every index below `n`, rising. -/
def allFin (n : Nat) : List (Fin n) := List.finRange n

/-- Whether the device is configured (R48). -/
def State.configured (s : State) : Bool := decide (s.img.state = .configured)

end Sys2Proof.Machine
end

