-- ==== Sys2Proof/Machine/Regs.lean ====
section
/-! DEFINITION. The register map: the decode of a BAR0 address (R400 to R402), the RW words of every register
table with their reset values and boundaries (R408, R411), and their last-written and in-force values. -/
namespace Sys2Proof.Machine

/-- The boundaries of R411. -/
inductive Bnd where
  | now | mgmt | start | segment | strobe | arm | span | opening | epoch | timer
  deriving DecidableEq, Repr

/-- RW words of one shape: `n1` copies at stride `s1` of `n2` words at stride `s2`; the reset word; whether its
access code is RWS; and its fields, high bit, low bit and boundary. -/
structure RwRow where
  base : Nat
  n1 : Nat
  s1 : Nat
  n2 : Nat
  s2 : Nat
  reset : Word
  rws : Bool
  fields : List (Nat × Nat × Bnd)
  deriving DecidableEq, Repr

/-- RW words of the register tables, part 1. -/
def rwRowsA : List RwRow := [
  ⟨0x100, 1, 0x0, 1, 0, 0x0, false, [(2, 1, .mgmt)]⟩,  -- R66 SRC
  ⟨0x110, 1, 0x0, 1, 0, 0x0, false, [(31, 0, .mgmt)]⟩, -- R69 IMG_HOST_ADDR_LO
  ⟨0x114, 1, 0x0, 1, 0, 0x0, false, [(31, 0, .mgmt)]⟩, -- R69 IMG_HOST_ADDR_HI
  ⟨0x118, 1, 0x0, 1, 0, 0x0, false, [(31, 0, .mgmt)]⟩, -- R69 IMG_HOST_LEN
  ⟨0x130, 1, 0x0, 1, 0, 0x0, false, [(3, 0, .mgmt)]⟩, -- R70 SLOT
  ⟨0x100000, 8, 0x10000, 1, 0, 0x0, false, [(5, 5, .start)]⟩, -- R103 TIMED
  ⟨0x100004, 8, 0x10000, 1, 0, 0x0, false, [(31, 16, .start), (2, 0, .start)]⟩, -- R103 VEC_RATIO K
  ⟨0x100008, 8, 0x10000, 1, 0, 0x0, false, [(16, 0, .start)]⟩, -- R103 START_IDX
  ⟨0x100010, 8, 0x10000, 1, 0, 0x0, false, [(31, 0, .start)]⟩, -- R103 START_TIME_LO
  ⟨0x100014, 8, 0x10000, 1, 0, 0x0, false, [(31, 0, .start)]⟩, -- R103 START_TIME_HI
  ⟨0x200, 1, 0x0, 1, 0, 0xf00, false, [(13, 8, .mgmt), (7, 0, .mgmt)]⟩, -- R105 WIDTH OE
  ⟨0x100100, 8, 0x10000, 1, 0, 0x0, false, [(31, 0, .segment)]⟩, -- R129 COND_SRC
  ⟨0x100104, 8, 0x10000, 1, 0, 0x0, false, [(3, 0, .mgmt)]⟩, -- R129 COND
  ⟨0x100140, 8, 0x10000, 1, 0, 0x0, false, [(1, 0, .segment)]⟩, -- R163 ACTION
  ⟨0x40000, 1, 0x0, 1, 0, 0x0, false, [(15, 8, .mgmt)]⟩, -- R164 CLU_MASK
  ⟨0x40004, 1, 0x0, 1, 0, 0x0, false, [(16, 0, .mgmt)]⟩, -- R164 PUB_INDEX
  ⟨0x40008, 1, 0x0, 1, 0, 0x1, false, [(12, 0, .mgmt)]⟩, -- R164 PUB_COUNT
  ⟨0x40020, 1, 0x0, 1, 0, 0x0, false, [(0, 0, .mgmt)]⟩, -- R164 ROLL_EN
  ⟨0x40040, 1, 0x0, 1, 0, 0x0, false, [(0, 0, .mgmt)]⟩, -- R164 FREEZE
  ⟨0x40044, 1, 0x0, 1, 0, 0x0, false, [(17, 17, .mgmt), (16, 0, .mgmt)]⟩, -- R164 LAYOUT QUERY_IDX
  ⟨0x200000, 16, 0x10000, 1, 0, 0x0, false, [(4, 4, .start), (3, 3, .start), (1, 0, .start)]⟩  -- R186 MIX EXP FORMAT
  ]

/-- RW words of the register tables, part 2. -/
def rwRowsB : List RwRow := [
  ⟨0x200004, 16, 0x10000, 1, 0, 0x4000, false, [(15, 0, .segment)]⟩, -- R186 GAIN
  ⟨0x200008, 16, 0x10000, 1, 0, 0x0, false, [(31, 16, .segment), (15, 0, .segment)]⟩, -- R186 OFS_Q OFS_I
  ⟨0x200010, 16, 0x10000, 1, 0, 0x0, false, [(31, 0, .mgmt)]⟩, -- R186 NCO_FREQ_LO
  ⟨0x200014, 16, 0x10000, 1, 0, 0x0, false, [(15, 0, .mgmt)]⟩, -- R186 NCO_FREQ_HI
  ⟨0x200018, 16, 0x10000, 1, 0, 0x0, false, [(31, 0, .mgmt)]⟩, -- R186 NCO_CHIRP_LO
  ⟨0x20001c, 16, 0x10000, 1, 0, 0x0, false, [(15, 0, .mgmt)]⟩, -- R186 NCO_CHIRP_HI
  ⟨0x200020, 16, 0x10000, 1, 0, 0x0, false, [(31, 16, .mgmt), (7, 7, .mgmt), (6, 5, .mgmt), (4, 4, .mgmt), (3, 3, .mgmt), (2, 2, .mgmt)]⟩, -- R186 PHASE_OFS QB_HOLD PHASE_MODE OFS_EN CHIRP_EN FREQ_EN
  ⟨0x100180, 8, 0x10000, 16, 4, 0x0, false, [(31, 31, .segment), (13, 0, .segment)]⟩, -- R188 EN PLAN
  ⟨0x200100, 16, 0x10000, 1, 0, 0xa00000, false, [(24, 16, .span), (8, 8, .span), (1, 0, .arm)]⟩, -- R213 FS SPAN DEM
  ⟨0x200104, 16, 0x10000, 1, 0, 0x0, false, [(17, 0, .mgmt)]⟩, -- R213 PARK
  ⟨0x200108, 16, 0x10000, 1, 0, 0x1000000, false, [(26, 26, .start), (25, 24, .start), (23, 16, .segment), (9, 0, .segment)]⟩, -- R213 TRACK WIDTH OFFSET CENTRE
  ⟨0x200118, 16, 0x10000, 1, 0, 0x0, false, [(5, 4, .mgmt), (1, 0, .mgmt)]⟩, -- R213 OL_ACT COMP_ACT
  ⟨0x200128, 16, 0x10000, 1, 0, 0x0, false, [(17, 0, .mgmt)]⟩, -- R213 TRIM_OFS
  ⟨0x10400, 1, 0x0, 1, 0, 0x104, false, [(8, 8, .mgmt), (5, 0, .mgmt)]⟩, -- R215 DISARM_GOV SPACING
  ⟨0x300000, 4, 0x10000, 1, 0, 0x0, false, [(2, 2, .start), (1, 1, .start), (0, 0, .start)]⟩, -- R237 WRAP LOG_CAPTURE LOG_FAIL
  ⟨0x300040, 4, 0x10000, 1, 0, 0x0, false, [(9, 0, .now)]⟩, -- R237 FL_WIN
  ⟨0x340000, 64, 0x1000, 1, 0, 0x0, false, [(4, 4, .start), (3, 3, .start), (2, 2, .start), (1, 1, .start), (0, 0, .start)]⟩, -- R238 EN CL_INV CH_INV DE_INV DD_INV
  ⟨0x340020, 64, 0x1000, 1, 0, 0x0, true, [(28, 16, .start), (12, 0, .start)]⟩, -- R258 DSK_DE DSK_DD
  ⟨0x340024, 64, 0x1000, 1, 0, 0x0, true, [(28, 16, .start), (12, 0, .start)]⟩, -- R258 DSK_CL DSK_CH
  ⟨0x400000, 48, 0x100, 1, 0, 0x0, false, [(8, 8, .mgmt), (4, 4, .mgmt), (3, 0, .mgmt)]⟩  -- R279 MBB OE SPAN
  ]

/-- RW words of the register tables, part 3. -/
def rwRowsC : List RwRow := [
  ⟨0x400004, 48, 0x100, 1, 0, 0x0, false, [(19, 0, .strobe)]⟩, -- R279 CODE
  ⟨0x40000c, 48, 0x100, 1, 0, 0xe10064, false, [(24, 16, .mgmt), (8, 0, .mgmt)]⟩, -- R279 CMP_HI CMP_LO
  ⟨0x400010, 48, 0x100, 1, 0, 0x0, false, [(1, 0, .mgmt)]⟩, -- R279 ACT
  ⟨0x403000, 6, 0x40, 1, 0, 0x0, false, [(1, 1, .mgmt)]⟩, -- R280 BALL_EN
  ⟨0x403400, 1, 0x0, 1, 0, 0x0, false, [(7, 0, .mgmt)]⟩, -- R281 MASK
  ⟨0x30000, 256, 0x20, 8, 4, 0x0, false, [(31, 0, .mgmt)]⟩, -- R299 ROW
  ⟨0x32080, 1, 0x0, 8, 4, 0x0, false, [(31, 0, .mgmt)]⟩, -- R299 STORM_EXEMPT
  ⟨0x320a0, 1, 0x0, 1, 0, 0x0, false, [(31, 16, .mgmt)]⟩, -- R299 DATA
  ⟨0x320a8, 1, 0x0, 1, 0, 0x0, false, [(7, 0, .mgmt)]⟩, -- R299 WATCH
  ⟨0x32804, 8, 0x20, 1, 0, 0x8, false, [(31, 0, .timer)]⟩, -- R300 PERIOD
  ⟨0x32808, 8, 0x20, 1, 0, 0x1, false, [(15, 0, .timer)]⟩, -- R300 REPEAT
  ⟨0x32c00, 16, 0x4, 1, 0, 0x0, false, [(1, 1, .mgmt), (0, 0, .mgmt)]⟩, -- R300 POL EN
  ⟨0x32c40, 16, 0x4, 1, 0, 0xf00, false, [(13, 8, .mgmt), (2, 1, .mgmt), (0, 0, .mgmt)]⟩, -- R300 WIDTH MODE OE
  ⟨0x80000, 1, 0x0, 1, 0, 0x0, false, [(7, 4, .mgmt), (3, 3, .mgmt), (2, 2, .mgmt), (1, 1, .mgmt)]⟩, -- R327 PORT_EN ADMIT_EN JOIN EN
  ⟨0x80004, 1, 0x0, 1, 0, 0x100000, false, [(23, 16, .mgmt), (15, 0, .mgmt)]⟩, -- R327 ADMIT_EVERY ENS_TAG
  ⟨0x80008, 1, 0x0, 1, 0, 0x2710, false, [(19, 0, .epoch)]⟩, -- R327 EPOCH_PERIOD
  ⟨0x8000c, 1, 0x0, 1, 0, 0x0, false, [(31, 0, .mgmt)]⟩, -- R327 CHAN_RX_EN
  ⟨0x50010, 1, 0x0, 1, 0, 0x4000, false, [(18, 8, .mgmt), (5, 5, .mgmt), (4, 4, .mgmt)]⟩, -- R353 PAGE_TIMER REF_MODE PAGE_POLICY
  ⟨0x50014, 1, 0x0, 1, 0, 0x10b0000, false, [(31, 31, .mgmt), (25, 24, .mgmt), (23, 20, .mgmt), (19, 16, .mgmt), (15, 0, .mgmt)]⟩, -- R353 NBR_OFF ADJ_DIST ADJ_BIT N_LOG2 ADJ_MASK
  ⟨0x50018, 1, 0x0, 1, 0, 0x100, false, [(11, 0, .mgmt)]⟩  -- R353 NBR_GAP
  ]

/-- RW words of the register tables, part 4. -/
def rwRowsD : List RwRow := [
  ⟨0x5001c, 1, 0x0, 1, 0, 0x3, false, [(2, 0, .mgmt)]⟩, -- R353 RETRY_MAX
  ⟨0x60300, 1, 0x0, 1, 0, 0x20, false, [(8, 1, .mgmt), (0, 0, .mgmt)]⟩, -- R372 GAP EN
  ⟨0x60400, 1, 0x0, 1, 0, 0x0, false, [(1, 1, .now), (0, 0, .now)]⟩, -- R372 INT EN
  ⟨0x61000, 44, 0x20, 8, 4, 0x0, false, [(31, 0, .mgmt)]⟩, -- R372 REGION
  ⟨0x70800, 96, 0x4, 1, 0, 0x0, false, [(31, 31, .now), (30, 30, .now), (5, 0, .now)]⟩, -- R397 EN IRQ_EN VECTOR
  ⟨0x71004, 64, 0x40, 1, 0, 0x40001, false, [(24, 24, .opening), (20, 16, .opening), (8, 0, .opening)]⟩, -- R398 WB_EN DESC_LOG2 RING_UNITS
  ⟨0x71008, 64, 0x40, 1, 0, 0x0, false, [(31, 0, .opening)]⟩, -- R398 DESC_BASE_LO
  ⟨0x7100c, 64, 0x40, 1, 0, 0x0, false, [(31, 0, .opening)]⟩, -- R398 DESC_BASE_HI
  ⟨0x71010, 64, 0x40, 1, 0, 0x0, false, [(31, 0, .opening)]⟩, -- R398 WB_ADDR_LO
  ⟨0x71014, 64, 0x40, 1, 0, 0x0, false, [(31, 0, .opening)]⟩, -- R398 WB_ADDR_HI
  ⟨0x71020, 64, 0x40, 1, 0, 0x0, false, [(18, 0, .now)]⟩, -- R398 LOW_WATER
  ⟨0xc, 1, 0x0, 1, 0, 0x0, false, [(31, 0, .now)]⟩, -- R414 SCRATCH
  ⟨0x10000, 1, 0x0, 1, 0, 0x0, false, [(5, 4, .mgmt)]⟩, -- R451 TARGET
  ⟨0x10014, 1, 0x0, 1, 0, 0x0, false, [(1, 1, .mgmt), (0, 0, .mgmt)]⟩, -- R451 TIMER_EN WAKE_N_EN
  ⟨0x10018, 1, 0x0, 1, 0, 0x0, false, [(31, 0, .mgmt)]⟩, -- R451 WAKE_TIMER
  ⟨0x20000, 1, 0x0, 1, 0, 0x0, false, [(1, 1, .mgmt)]⟩, -- R465 WRAP
  ⟨0x1001c0, 8, 0x10000, 1, 0, 0x0, false, [(0, 0, .segment)]⟩  -- R466 ACT
  ]

/-- Every RW word but FL_RD_COUNT, FLT_RD_COUNT and TAIL, whose writes have rows of their own. -/
def rwRows : List RwRow := rwRowsA ++ rwRowsB ++ rwRowsC ++ rwRowsD

/-- Whether a row covers a canonical address. -/
def RwRow.hit (r : RwRow) (a : Nat) : Bool :=
  let d := a - r.base
  let i := if r.s1 = 0 then 0 else d / r.s1
  let q := d - i * r.s1
  let j := if r.s2 = 0 then 0 else q / r.s2
  decide (r.base ≤ a) && decide (i < r.n1) && decide (j < r.n2) && decide (q = j * r.s2)

/-- Masters 41 and 42 have no region words (R360). -/
def regionFixed (a : Nat) : Bool := decide (0x61000 + 32 * 41 ≤ a) && decide (a < 0x61000 + 32 * 43)

/-- The RW row of a canonical address. -/
def rwRow? (a : Nat) : Option RwRow :=
  if regionFixed a then none else rwRows.find? (fun r => r.hit a)

/-- The reset word of a canonical address; zero where it holds no RW field. -/
def resetWord (a : Nat) : Word := ((rwRow? a).map RwRow.reset).getD 0

/-- The bits of a row whose boundary `p` selects. -/
def RwRow.maskOf (r : RwRow) (p : Bnd → Bool) : Word :=
  r.fields.foldl (fun m f => if p f.2.2 then m ||| fmask f.1 f.2.1 else m) 0

/-- The RW bits of a canonical address. -/
def rwMask (a : Nat) : Word := ((rwRow? a).map (fun r => r.maskOf (fun _ => true))).getD 0

/-- The register blocks of R400: base, window, number of windows, span. -/
def blocks : List (Nat × Nat × Nat × Nat) := [
  (0x000000, 0x10000, 1, 0x400), (0x010000, 0x10000, 1, 0x1000), (0x020000, 0x10000, 1, 0x4000),
  (0x030000, 0x10000, 1, 0x4000), (0x040000, 0x10000, 1, 0x80), (0x050000, 0x10000, 1, 0x400),
  (0x060000, 0x10000, 1, 0x2000), (0x070000, 0x10000, 1, 0x10000), (0x080000, 0x10000, 1, 0x800),
  (0x100000, 0x10000, 8, 0x200), (0x200000, 0x10000, 16, 0x200), (0x300000, 0x10000, 4, 0x10000),
  (0x340000, 0x1000, 64, 0x40), (0x400000, 0x10000, 1, 0x4000), (0x800000, 0x400000, 1, 0x400000),
  (0xC00000, 0x40000, 1, 0x40000), (0xC40000, 0x80000, 1, 0x80000), (0xD00000, 0x20000, 1, 0x20000),
  (0xE00000, 0x40000, 1, 0x40000)]

/-- The canonical address of a BAR0 byte address: its window's base and its word's offset modulo the span (R400);
none where the range is unmapped (R401). -/
def canon (a : Nat) : Option Nat :=
  (blocks.find? (fun b => decide (b.1 ≤ a) && decide (a < b.1 + b.2.1 * b.2.2.1))).map
    (fun b => let o := a - b.1
              b.1 + o / b.2.1 * b.2.1 + (o % b.2.1 % b.2.2.2) / 4 * 4)

/-- W lanes, pin groups and load groups that the variant has (R2). -/
def Variant.wCount : Variant → Nat
  | .lqf6408 => 8
  | _ => 16
def Variant.pgCount : Variant → Nat
  | .lqf3216 => 2
  | _ => 4
def Variant.lgCount : Variant → Nat
  | .lqf3216 => 3
  | _ => 6
/-- VARIANT (R414). -/
def Variant.code : Variant → BitVec 16
  | .lqf6416 => 0x6416
  | .lqf6408 => 0x6408
  | .lqf3216 => 0x3216

def State.hasLane (s : State) (w : Lane) : Bool := decide (w.val < s.part.variant.wCount)
def State.hasPg (s : State) (g : Pg) : Bool := decide (g.val < s.part.variant.pgCount)
def State.hasPin (s : State) (p : PinIdx) : Bool := decide (p.val < 16 * s.part.variant.pgCount)
def State.hasLg (s : State) (g : Lg) : Bool := decide (g.val < s.part.variant.lgCount)
def State.hasLvl (s : State) (c : Lvl) : Bool := decide (c.val < 8 * s.part.variant.lgCount)

/-- Whether the word at a canonical address belongs to a lane, pin group, pin, level channel or load group that
the variant has, or to no such part (R3). -/
def State.present (s : State) (a : Nat) : Bool :=
  if 0x200000 ≤ a ∧ a < 0x300000 then decide ((a - 0x200000) / 0x10000 < s.part.variant.wCount)
  else if 0x300000 ≤ a ∧ a < 0x340000 then decide ((a - 0x300000) / 0x10000 < s.part.variant.pgCount)
  else if 0x340000 ≤ a ∧ a < 0x380000 then decide ((a - 0x340000) / 0x10000 < s.part.variant.pgCount)
  else if 0x400000 ≤ a ∧ a < 0x403000 then decide ((a - 0x400000) / 0x800 < s.part.variant.lgCount)
  else if 0x403000 ≤ a ∧ a < 0x403180 then decide ((a - 0x403000) / 0x40 < s.part.variant.lgCount)
  else true

/-- Whether a block is served while the device is unconfigured (R48). -/
def servedUnconfigured (a : Nat) : Bool :=
  decide (a < 0x30000) || (decide (0x70000 ≤ a) && decide (a < 0x80000))

/-- Whether the word at a canonical address is served (R401). -/
def State.served (s : State) (a : Nat) : Bool :=
  s.present a && (s.configured || servedUnconfigured a)

/-! ### Canonical addresses of the windows -/

def cluA (n : Clu) (off : Nat) : Nat := 0x100000 + n.val * 0x10000 + off
def wlA (w : Lane) (off : Nat) : Nat := 0x200000 + w.val * 0x10000 + off
def pgA (g : Pg) (off : Nat) : Nat := 0x300000 + g.val * 0x10000 + off
def pinA (p : PinIdx) (off : Nat) : Nat := 0x340000 + p.val * 0x1000 + off
def lvlA (c : Lvl) (off : Nat) : Nat := 0x400000 + c.val * 0x100 + off
def lgA (g : Lg) (off : Nat) : Nat := 0x403000 + g.val * 0x40 + off
def ctxA (c : Ctx) (off : Nat) : Nat := 0x71000 + c.val * 0x40 + off
def brgA (off : Nat) : Nat := 0x30000 + off
def clkA (off : Nat) : Nat := 0x10000 + off
def fltA (off : Nat) : Nat := 0x20000 + off
def plcA (off : Nat) : Nat := 0x40000 + off
def drmA (off : Nat) : Nat := 0x50000 + off
def memA (off : Nat) : Nat := 0x60000 + off
def hostA (off : Nat) : Nat := 0x70000 + off
def lnkA (off : Nat) : Nat := 0x80000 + off

/-! ### What a tick's writes replaced (R109, R116, R183, R411) -/

/-- The record of the present tick. -/
def State.tickOld (s : State) : TickOld := if s.was.tick = s.clk.now then s.was else { tick := s.clk.now }

/-- A write is about to replace the word at a BAR0 address: the first word of the tick is kept. -/
def State.keepWord (s : State) (a : Nat) (w : Word) : State :=
  let x := s.tickOld
  { s with was := { x with words := if (smFind x.words a).isSome then x.words else smInsert x.words a w } }

/-- What a read made in tick `t` takes of the word at a BAR0 address that now holds `w`. -/
def State.oldWordAt (s : State) (t a : Nat) (w : Word) : Word :=
  if s.was.tick = t then (smFind s.was.words a).getD w else w

/-! ### Last-written values and values in force -/

/-- An RW word as last written (R411). -/
def State.cfgW (s : State) (a : Nat) : Word := smGet resetWord s.cfg a

/-- An RW word in force (R411). -/
def State.effW (s : State) (a : Nat) : Word := smGet resetWord s.eff a

/-- A field in force. -/
def State.effF (s : State) (a hi lo : Nat) : Nat := fld (s.effW a) hi lo

/-- A one-bit field in force. -/
def State.effB (s : State) (a i : Nat) : Bool := (s.effW a).getLsbD i

/-- An RW word as a boundary of the present tick finds it: a write taken in that tick waits for the next boundary (R411). -/
def State.settledW (s : State) (a : Nat) : Word := s.oldWordAt s.clk.now a (s.cfgW a)

/-- The bits of `m` of a word take effect at their boundary, in the present tick (R411). -/
def State.applyDue (s : State) (a : Nat) (m : Word) : State :=
  { s with eff := smPut resetWord s.eff a (merge (s.effW a) (s.settledW a) m) }

/-- Take the bits of `m` of a word into force. -/
def State.applyMask (s : State) (a : Nat) (m : Word) : State :=
  { s with eff := smPut resetWord s.eff a (merge (s.effW a) (s.cfgW a) m) }

/-- Write the bits of `m` of an RW word, without taking them into force. -/
def State.storeCfg (s : State) (a : Nat) (data m : Word) : State :=
  { s with cfg := smPut resetWord s.cfg a (merge (s.cfgW a) data m) }

/-- Write an RW word and take it into force at once, as the image loader does (R40, R411). -/
def State.loadWord (s : State) (a : Nat) (data m : Word) : State :=
  let s1 := (s.storeCfg a data m).applyMask a m
  { s1 with was := { s1.was with words := match smFind s1.was.words a with
    | some w => smInsert s1.was.words a (merge w data m)
    | none => s1.was.words } }

/-- The addresses of the RW words that differ from reset in either value or before the writes of the last tick. -/
def State.rwKeys (s : State) : List Nat := s.cfg.map Prod.fst ++ s.eff.map Prod.fst ++ s.was.words.map Prod.fst

/-- At a boundary, every pending field that `p` selects by address and boundary takes effect (R411). -/
def State.applyWhere (s : State) (p : Nat → Bnd → Bool) : State :=
  s.rwKeys.foldl (fun s a =>
    match rwRow? a with
    | some r => s.applyDue a (r.maskOf (p a))
    | none => s) s

/-- CLU_COND_SRC of condition c in force (R110, R129). -/
def State.condSrc (s : State) (n : Clu) (c : Fin 16) : Nat := s.effF (cluA n 0x100) (2 * c.val + 1) (2 * c.val)

/-- The cluster that binds a W lane, by the binding in force (R103). -/
def State.laneOwner (s : State) (w : Lane) : Option Clu :=
  (allFin 8).find? (fun n => s.clu[n].wBound.getLsbD w)

/-- The cluster that binds a pin group, by the binding in force (R103). -/
def State.pgOwner (s : State) (g : Pg) : Option Clu :=
  (allFin 8).find? (fun n => s.clu[n].pgBound.getLsbD g)

/-- The cluster whose segment starts and entries into IDLE serve the fields of an address (R103, R129). -/
def State.addrOwner (s : State) (a : Nat) : Option Clu :=
  if 0x100000 ≤ a ∧ a < 0x180000 then some (Fin.ofNat 8 ((a - 0x100000) / 0x10000))
  else if 0x200000 ≤ a ∧ a < 0x300000 then s.laneOwner (Fin.ofNat 16 ((a - 0x200000) / 0x10000))
  else if 0x300000 ≤ a ∧ a < 0x340000 then s.pgOwner (Fin.ofNat 4 ((a - 0x300000) / 0x10000))
  else if 0x340000 ≤ a ∧ a < 0x380000 then s.pgOwner (Fin.ofNat 4 ((a - 0x340000) / 0x10000))
  else none

/-- The Start and segment-start fields of a cluster that enters IDLE take effect, those written in the very tick too: they act at once while
it is IDLE (R103, R129). -/
def State.applyIdle (s : State) (n : Clu) : State :=
  s.rwKeys.foldl (fun x a =>
    match rwRow? a with
    | some r => if s.addrOwner a = some n then x.applyMask a (r.maskOf (fun b => decide (b = .start) || decide (b = .segment))) else x
    | none => x) s

/-- Start and segment-start fields take effect at once: their cluster is IDLE, or nothing binds their lane or
group (R103, R129). -/
def State.atOnce (s : State) (a : Nat) : Bool :=
  match s.addrOwner a with
  | none => true
  | some n => decide (s.clu[n].state = .idle)

/-- The boundaries that a write taken now has already reached. -/
def State.bndNow (s : State) (a : Nat) (b : Bnd) : Bool :=
  match b with
  | .now => true
  | .start | .segment => s.atOnce a
  | _ => false

/-- A software write of RW fields: stored, and in force at once where the boundary is reached (R411). -/
def State.rwWrite (s : State) (a : Nat) (data m : Word) : State :=
  match rwRow? a with
  | none => s
  | some r =>
    let s1 := (s.keepWord a (s.cfgW a)).storeCfg a data (m &&& r.maskOf (fun _ => true))
    s1.applyMask a (r.maskOf (s1.bndNow a))

end Sys2Proof.Machine
end

