-- ==== Sys2Proof/Machine/Flags.lean ====
section
/-! DEFINITION. What a block raises: W1C flags with the interrupt causes they make pending (R377, R378), fault
records (R453 to R456) and Bridge producers (R283, R285, R290, R292). -/
namespace Sys2Proof.Machine

/-! ### Interrupt causes -/

/-- The cause that a W1C word feeds, and the bits of the word that feed it (R377). -/
def causeOf (a : Nat) : Option (Nat × Word) :=
  if a = fltA 0x4 then some (0, 3)
  else if a = 0x108 then some (1, bit32 16)
  else if a = 0x138 then some (1, bit32 12 ||| bit32 13)
  else if a = plcA 0x10 then some (2, bit32 8 ||| bit32 9 ||| bit32 10)
  else if a = drmA 0x24 then some (3, ~~~0)
  else if a = lnkA 0x40 ∨ a = lnkA 0x44 then some (4, ~~~0)
  else if a = memA 0x200 ∨ a = memA 0x204 ∨ a = memA 0x308 then some (5, ~~~0)
  else if a = memA 0x408 then some (5, 1)
  else if a = clkA 0xC ∨ a = clkA 0x24 then some (6, ~~~0)
  else if brgA 0x2060 ≤ a ∧ a < brgA 0x2080 then some (7, ~~~0)
  else if 0x100000 ≤ a ∧ a < 0x180000 then
    let o := (a - 0x100000) % 0x10000
    let n := (a - 0x100000) / 0x10000
    if o = 0x40 ∨ o = 0x118 then some (8 + n, ~~~0) else if o = 0x144 then some (8 + n, 1) else none
  else if 0x300000 ≤ a ∧ a < 0x340000 then
    let o := (a - 0x300000) % 0x10000
    if o = 0x8 ∨ o = 0x108 then some (16 + (a - 0x300000) / 0x10000, ~~~0) else none
  else if 0x340000 ≤ a ∧ a < 0x380000 then
    if (a - 0x340000) % 0x1000 = 8 then some (16 + (a - 0x340000) / 0x10000, ~~~0) else none
  else if 0x200000 ≤ a ∧ a < 0x300000 then
    let o := (a - 0x200000) % 0x10000
    if o = 0x30 ∨ o = 0x11C then some (20, ~~~0) else none
  else if 0x400000 ≤ a ∧ a < 0x403000 then
    if (a - 0x400000) % 0x100 = 0x18 then some (21, ~~~0) else none
  else if 0x403000 ≤ a ∧ a < 0x403180 then
    if (a - 0x403000) % 0x40 = 8 then some (21, ~~~0) else none
  else if a = hostA 0x4 then some (32, bit32 0 ||| bit32 1 ||| bit32 3)
  else if 0x71000 ≤ a ∧ a < 0x72000 then
    if (a - 0x71000) % 0x40 = 0x28 then some (32 + (a - 0x71000) / 0x40, ~~~0) else none
  else none

/-- The reset word of the MSI-X table: every vector masked, as PCI Express gives it (PRESUMED, log 10). -/
def msixReset (k : Nat) : Word := if k % 4 = 3 then 1 else 0

/-- A word of the MSI-X table, by word index. -/
def State.msixWord (s : State) (k : Nat) : Word := smGet msixReset s.host.msixTable k

/-- The host link is down in a thaw: it trains once the registers are back (R440). -/
def State.thawLinkDown (s : State) : Bool :=
  decide (s.pwr.phase = .thawing) && decide (s.pwr.thaw = .power ∨ s.pwr.thaw = .clocks ∨ s.pwr.thaw = .clear ∨ s.pwr.thaw = .registers)

/-- BAR accesses and MSI-X messages are cut off: in safe park (R461), and from SAVING until the thaw has brought the host link back (R434,
R440). -/
def State.hostCut (s : State) : Bool :=
  s.flt.safePark || decide (s.pwr.phase = .saving ∨ s.pwr.phase = .commit ∨ s.pwr.phase = .winter) || s.thawLinkDown

/-- A vector whose pending bit is set sends its message unless it is masked or the function may not master the bus
(R378, R374, R461). -/
def State.sendVector (s : State) (v : Fin 64) : State :=
  if s.host.msixPending.getLsbD v && !(s.msixWord (4 * v + 3)).getLsbD 0 && s.host.bme && !s.host.d3hot && !s.hostCut
  then { s with host := { s.host with msixPending := s.host.msixPending &&& ~~~(1#64 <<< v.val)
                                      msixSent := s.host.msixSent + 1, msixLast := some v } }
  else s

/-- Every vector that may send its message does. -/
def State.sendVectors (s : State) : State := (allFin 64).foldl State.sendVector s

/-- The map entry of cause k (R378). -/
def State.mapWord (s : State) (k : Nat) : Word := s.effW (hostA (0x800 + 4 * k))

/-- Whether cause k is pending. -/
def State.causePending (s : State) (k : Nat) : Bool := (s.flag (hostA (0x400 + 4 * (k / 32)))).getLsbD (k % 32)

/-- A pending cause with EN = 1 sets the pending bit of its vector (R378). -/
def State.postCause (s : State) (k : Nat) : State :=
  if (s.mapWord k).getLsbD 31 then
    let v : Fin 64 := Fin.ofNat 64 (fld (s.mapWord k) 5 0)
    ({ s with host := { s.host with msixPending := s.host.msixPending ||| (1#64 <<< v.val) } }).sendVector v
  else s

/-- A cause becomes pending (R377). -/
def State.raiseCause (s : State) (k : Nat) : State :=
  let set := fun e : Evt => e.set s.clk.now (bit32 (k % 32))
  ({ s with flg := smMod (fun _ => {}) s.flg (hostA (0x400 + 4 * (k / 32))) set }).postCause k

/-- Hardware sets bits of a W1C word; a source bit that goes from 0 to 1 makes its cause pending (R377, R408). -/
def State.setFlag (s : State) (a : Nat) (m : Word) : State :=
  let rose := m &&& ~~~(s.flag a)
  let s1 := { s with flg := smMod (fun _ => {}) s.flg a (fun e => e.set s.clk.now m) }
  match causeOf a with
  | some (k, src) => if rose &&& src = 0 then s1 else s1.raiseCause k
  | none => s1

/-- Set one bit. -/
def State.setBit (s : State) (a i : Nat) : State := s.setFlag a (bit32 i)

/-- Set one bit where a condition holds. -/
def State.setBitIf (s : State) (c : Bool) (a i : Nat) : State := if c then s.setBit a i else s

/-! ### Fault records -/

/-- The record's eight words joined, word 0 in the low bits (R454). -/
def FaultRec.encode (r : FaultRec) (seq : Word) : BitVec 256 :=
  let w0 := r.cls.toNat <<< 24 + r.cause.toNat <<< 16 +
    (match r.cluster with | some n => 2048 + n.val * 256 | none => 0) + r.source.toNat
  let w3 := r.lateness.toNat <<< 16 + r.aux.toNat
  BitVec.ofNat 256 (w0 + r.entry.toNat <<< 32 + r.sample.toNat <<< 64 + w3 <<< 96 + r.time.toNat <<< 128 +
    r.detail.toNat <<< 192 + seq.toNat <<< 224)

/-- The order in which reports of one tick enter the queue: class, source, cluster (R455). -/
def FaultRec.rank (r : FaultRec) : Nat :=
  r.cls.toNat * 65536 + r.source.toNat * 256 + (match r.cluster with | some n => n.val + 1 | none => 0)

/-- Put a report among those of its tick. -/
def rankInsert (q : QueuedRec) : List QueuedRec → List QueuedRec
  | [] => [q]
  | x :: r => if q.body.rank < x.body.rank then q :: x :: r else x :: rankInsert q r

/-- Number a run of reports. -/
def renumber : Nat → List QueuedRec → List QueuedRec
  | _, [] => []
  | k, x :: r => { x with seq := BitVec.ofNat 32 k } :: renumber (k + 1) r

/-- The canonical address of a class count (R465). -/
def classCountA (r : FaultRec) : Nat := fltA (0x40 + 4 * r.cls.toNat)

/-- A record that is lost: counted, and FLT_EVT.LOST set (R456). -/
def State.loseRec (s : State) (r : FaultRec) : State :=
  ((s.count (fltA 0x10) 1).count (classCountA r) 1).setBit (fltA 0x4) 1

/-- A source reports a fault to the supervisor's queue of 32 (R455, R456). -/
def State.report (s : State) (r : FaultRec) : State :=
  let old := s.flt.queue.filter (fun q => q.reported ≠ s.clk.now)
  let cur := s.flt.queue.filter (fun q => q.reported = s.clk.now)
  let base := match cur with | x :: _ => x.seq.toNat | [] => s.flt.seq.toNat
  let cur1 := renumber base (rankInsert { body := r, seq := 0, reported := s.clk.now } cur)
  let all := old ++ cur1
  let s1 := { s with flt := { s.flt with queue := all.take 32, seq := s.flt.seq + 1 } }
  (all.drop 32).foldl (fun s q => s.loseRec q.body) s1

/-! ### Bridge producers -/

/-- The producers that never fire: reserved, or on a part that the variant lacks (R283). -/
def State.producerOk (s : State) (p : Nat) : Bool :=
  if 24 ≤ p ∧ p < 88 then decide ((p - 24) / 4 < s.part.variant.wCount)
  else if 88 ≤ p ∧ p < 96 then decide ((p - 88) / 2 < s.part.variant.pgCount)
  else if 96 ≤ p ∧ p < 100 then decide (p - 96 < s.part.variant.pgCount)
  else if 180 ≤ p ∧ p < 196 then decide (p - 180 < s.part.variant.wCount)
  else if 196 ≤ p ∧ p < 244 then decide (p - 196 < 8 * s.part.variant.lgCount)
  else decide (p < 246)

/-- The consumers that exist (R284). -/
def State.consumerOk (s : State) (c : Nat) : Bool :=
  if 144 ≤ c ∧ c < 150 then decide (c - 144 < s.part.variant.lgCount)
  else decide (c < 144) || (decide (160 ≤ c) && decide (c < 208))

/-- The enable bits that are not fixed at 0 (R286). -/
def State.enableOk (s : State) (c p : Nat) : Bool :=
  s.consumerOk c && s.producerOk p && !(decide (148 ≤ p ∧ p < 180) && decide (160 ≤ c ∧ c < 192))

/-- The consumers that the matrix in force enables for a producer, rising (R285). -/
def State.consumersOf (s : State) (p : Nat) : List Nat :=
  s.eff.filterMap (fun x =>
    if brgA 0 ≤ x.1 ∧ x.1 < brgA 0x2000 ∧ (x.1 - brgA 0) % 32 / 4 = p / 32 ∧ x.2.getLsbD (p % 32)
    then some ((x.1 - brgA 0) / 32) else none)

/-- The storm guard watches a producer with an enabled consumer that is not exempt (R292). -/
def State.guardedProducer (s : State) (p : Nat) : Bool :=
  !(s.consumersOf p).isEmpty && !(s.effW (brgA (0x2080 + 4 * (p / 32)))).getLsbD (p % 32)

/-- Whether a producer is suppressed (R292). -/
def State.suppressed (s : State) (p : Nat) : Bool := (s.flag (brgA (0x2060 + 4 * (p / 32)))).getLsbD (p % 32)

/-- The first suppressed tick of a producer whose suppression is still to be entered; 0 for none. -/
def State.stormAt (s : State) (p : Nat) : Nat := smGet (fun _ => 0) s.brg.storms p

/-- Set a flag in tick `t`, at or before the present one (R408). -/
def Evt.setIn (e : Evt) (t : Nat) (m : Word) : Evt := if t < e.tick then { e with bits := e.bits ||| m } else e.set t m

/-- The window counts a firing; at the 129th the producer is suppressed from the next tick on (R292). -/
def Bridge.counted (b : Bridge) (p t : Nat) : Bridge :=
  let k := smGet (fun _ => 0) b.window p + 1
  { b with window := smPut (fun _ => 0) b.window p k
           storms := if k = 129 then smPut (fun _ => 0) b.storms p (t + 1) else b.storms }

/-- A firing: the sticky flag sets in its tick (R290), the window counts it (R292, R293), and a suppressed producer's event is
one that every consumer ignores (R292). -/
def State.seeEvent (s : State) (e : BrgEvt) : State × BrgEvt :=
  let p := e.prod.val
  let stormed := decide (s.stormAt p ≠ 0 ∧ s.stormAt p ≤ e.at_)
  let s1 := { s with flg := smMod (fun _ => {}) s.flg (brgA (0x2000 + 4 * (p / 32))) (fun x => x.setIn e.at_ (bit32 (p % 32))) }
  let s2 := if s.guardedProducer p && !s.suppressed p && !stormed && !s.brg.resting.contains p then
      { s1 with brg := s1.brg.counted p e.at_ } else s1
  (s2, { e with seen := true, muted := s.suppressed p || stormed })

/-- An event whose tick has come and that has not been seen yet. -/
def State.isDue (s : State) (e : BrgEvt) : Bool := !e.seen && decide (e.at_ ≤ s.clk.now)

/-- Every firing whose tick has come is seen (R290, R292). -/
def State.seeDue (s : State) : State :=
  let r := s.brg.inFlight.foldl (fun r e => let x := if r.1.isDue e then r.1.seeEvent e else (r.1, e); (x.1, r.2 ++ [x.2]))
    (s, ([] : List BrgEvt))
  { r.1 with brg := { r.1.brg with inFlight := r.2 } }

/-- The sticky flags of word i that firings not yet seen have set (R290). -/
def State.stickyDue (s : State) (i : Nat) : Word :=
  (s.brg.inFlight.filter (fun e => s.isDue e && decide (e.prod.val / 32 = i))).foldl (fun m e => m ||| bit32 (e.prod.val % 32)) 0

/-- Producer `p` fires with timestamp `t` (R283, R285, R289): once per tick, and not while the Bridge is stopped
(R47). `carried` is the timestamp that a link send carries. -/
def State.fireWith (s : State) (p : Fin 256) (t carried : Nat) (data : BitVec 16) : State :=
  if !s.configured || !s.producerOk p || s.brg.inFlight.any (fun e => decide (e.prod = p ∧ e.at_ = t)) then s else
  let e : BrgEvt := { prod := p, at_ := t, carried := carried, data := data, seen := false }
  let r := if t ≤ s.clk.now then s.seeEvent e else (s, e)
  { r.1 with brg := { r.1.brg with inFlight := r.1.brg.inFlight ++ [r.2] } }

/-- Producer `p` fires with timestamp `t` and no DATA. -/
def State.fire (s : State) (p : Nat) (t : Nat) : State := s.fireWith (Fin.ofNat 256 p) t (s.tbAt t) 0

end Sys2Proof.Machine
end

