-- ==== Sys2Proof/Machine/Link.lean ====
section
/-! DEFINITION. The Chiord link (R302 to R329): ports, beacons, membership, views and ensemble events. Times in
this file are on the time base unless a name says otherwise. -/
namespace Sys2Proof.Machine

/-! ### Settings in force (R327) -/

def State.lnkEn (s : State) : Bool := s.configured && s.effB (lnkA 0) 1
def State.lnkJoin (s : State) : Bool := s.effB (lnkA 0) 2
def State.lnkAdmitEn (s : State) : Bool := s.effB (lnkA 0) 3
def State.portEn (s : State) (p : Fin 4) : Bool := s.lnkEn && s.effB (lnkA 0) (4 + p.val)
def State.ensTag (s : State) : BitVec 16 := BitVec.ofNat 16 (s.effF (lnkA 4) 15 0)
def State.admitEvery (s : State) : Nat := max 1 (s.effF (lnkA 4) 23 16)
def State.chanRxEn (s : State) (c : Fin 32) : Bool := s.effB (lnkA 0xC) c

/-- EPOCH_PERIOD in force, clamped (R327), in ticks (R310). -/
def State.epochTicks (s : State) : Nat := 16 * max 1000 (min 1000000 (s.effF (lnkA 8) 19 0))

/-- Every cluster is IDLE (READY, R312). -/
def State.allIdle (s : State) : Bool := (allFin 8).all (fun n => decide (s.clu[n].state = .idle))

def State.modLink (s : State) (f : Link → Link) : State := { s with link := f s.link }

/-- A link fault record (R325, R453), stamped with the present tick. -/
def State.linkFault (s : State) (cause source aux : Nat) (detail : Word) : State :=
  s.report { cls := 9, cause := BitVec.ofNat 8 cause, source := BitVec.ofNat 8 source, aux := BitVec.ofNat 16 aux
             time := BitVec.ofNat 64 s.tb, detail := detail }

/-! ### Lanes (R302, R303) -/

/-- The scrambler x^58 + x^39 + 1 on a run of bits: `st` holds the 58 line bits before, the latest first (R302). -/
def scrambleBits : List Bool → List Bool → List Bool
  | _, [] => []
  | st, b :: r =>
    let o := b ^^ st.getD 38 false ^^ st.getD 57 false
    o :: scrambleBits (o :: st.take 57) r

/-- The self-synchronous descrambler (R302). -/
def descrambleBits : List Bool → List Bool → List Bool
  | _, [] => []
  | st, b :: r => (b ^^ st.getD 38 false ^^ st.getD 57 false) :: descrambleBits (b :: st.take 57) r

/-- The bits of a value from a lowest place on. -/
def bitList (v lo n : Nat) : List Bool := (List.range n).map (fun i => v.testBit (lo + i))

/-- A number from its bits, the lowest first. -/
def bitNat : List Bool → Nat
  | [] => 0
  | b :: r => (if b then 1 else 0) + 2 * bitNat r

/-- A block is valid: a data block (sync header 01), or a control block (10) of type IDLE 0x1E or ALIGN 0x4B (R303). -/
def blockOk (sync type : Nat) : Bool := decide (sync = 1) || (decide (sync = 2) && decide (type = 0x1E ∨ type = 0x4B))

/-- How many of a run of blocks are invalid, from the line bits before it (R302 to R304). -/
def badBlocks (st : List Bool) : List (BitVec 66) → Nat
  | [] => 0
  | x :: r =>
    let line := bitList x.toNat 2 64
    let type := bitNat ((descrambleBits st line).take 8)
    (if blockOk (x.toNat % 4) type then 0 else 1) + badBlocks (line.reverse.take 58) r

/-! ### Cells (R305 to R307) -/

/-- One bit of the CRC: polynomial 0x1021, no reflection (R305). -/
def crc16Bit (c : BitVec 16) : BitVec 16 := if c.getLsbD 15 then (c <<< 1) ^^^ 0x1021#16 else c <<< 1

/-- One byte of the CRC. -/
def crc16Byte (c : BitVec 16) (b : Byte) : BitVec 16 :=
  (List.range 8).foldl (fun c _ => crc16Bit c) (c ^^^ (b.setWidth 16 <<< 8))

/-- CRC-16 of some bytes: initial value 0xFFFF, no final XOR (R305). -/
def crc16 (l : List Byte) : BitVec 16 := l.foldl crc16Byte 0xFFFF#16

/-- Bits hi to lo of a cell. -/
def cellBits (x : Cell) (hi lo : Nat) : Nat := x.toNat / 2 ^ lo % 2 ^ (hi + 1 - lo)

/-- TYPE (R305). -/
def cellType (x : Cell) : Nat := cellBits x 7 0

/-- The CRC over bytes 0 to 13 of a number. -/
def cellCrc (n : Nat) : BitVec 16 := crc16 ((List.range 14).map (fun i => BitVec.ofNat 8 (n / 2 ^ (8 * i))))

/-- The cell with a good CRC and a TYPE that is not reserved (R305 to R307). -/
def cellGood (x : Cell) : Bool :=
  decide (cellBits x 127 112 = (cellCrc x.toNat).toNat) && [1, 0x10, 0x11, 0x12, 0x13, 0x14, 0x15, 0x16].contains (cellType x)

/-- A cell of a TYPE with byte 1 and the bytes from 2 on (R305). -/
def frameCell (type byte1 body : Nat) : Cell :=
  let n := type + byte1 * 2 ^ 8 + body * 2 ^ 16
  BitVec.ofNat 128 (n + (cellCrc n).toNat * 2 ^ 112)

/-- An event cell as its fields (R306). -/
def EventCell.read (x : Cell) : EventCell :=
  { hops := BitVec.ofNat 4 (cellBits x 15 12), origin := Fin.ofNat 64 (cellBits x 21 16), channel := Fin.ofNat 32 (cellBits x 28 24)
    producer := BitVec.ofNat 8 (cellBits x 39 32), data := BitVec.ofNat 16 (cellBits x 63 48)
    time := BitVec.ofNat 48 (cellBits x 111 64) }

/-- An event cell as it is sent (R306). -/
def EventCell.frame (c : EventCell) : Cell :=
  frameCell 1 (c.hops.toNat * 16) (c.origin.val + c.channel.val * 2 ^ 8 + c.producer.toNat * 2 ^ 16 + c.data.toNat * 2 ^ 32 +
    c.time.toNat * 2 ^ 48)

/-- The cells of a beacon as they are sent (R307). -/
def Beacon.frame (b : Beacon) : List Cell :=
  let cell := fun type body => frameCell type (b.hops.toNat * 16 + b.count.toNat) body
  let flag := fun (x : Bool) (k : Nat) => if x then 2 ^ k else 0
  let ident := b.deviceId.toNat + (b.state.toNat + flag b.auth 2 + flag b.ready 3) * 2 ^ 64 +
    (flag b.idxValid 7 + b.memberIdx.val) * 2 ^ 72 + b.ensTag.toNat * 2 ^ 80
  [cell 0x10 ident, cell 0x11 (b.authId.toNat + b.generation.toNat * 2 ^ 64),
   cell 0x12 (b.epochCount.toNat + b.pendEpoch.toNat * 2 ^ 48), cell 0x13 b.view.toNat, cell 0x14 b.reach.toNat,
   cell 0x15 b.pend.toNat] ++ b.admits.map (fun a => cell 0x16 (a.1.toNat + a.2.val * 2 ^ 64))

/-- The cells of one beacon, in order, as its fields (R307); none where they are not one beacon. -/
def Beacon.read (l : List Cell) : Option Beacon :=
  match l with
  | ident :: time :: epoch :: view :: reach :: pend :: admits =>
    if l.map cellType = [0x10, 0x11, 0x12, 0x13, 0x14, 0x15] ++ admits.map (fun _ => 0x16) ∧ admits.length ≤ 8 ∧
        l.all (fun x => decide (cellBits x 11 8 = cellBits ident 11 8)) then
      some { hops := BitVec.ofNat 4 (cellBits ident 15 12), count := BitVec.ofNat 4 (cellBits ident 11 8)
             deviceId := BitVec.ofNat 64 (cellBits ident 79 16), state := BitVec.ofNat 2 (cellBits ident 81 80)
             auth := ident.getLsbD 82, ready := ident.getLsbD 83, idxValid := ident.getLsbD 95
             memberIdx := Fin.ofNat 64 (cellBits ident 93 88), ensTag := BitVec.ofNat 16 (cellBits ident 111 96)
             authId := BitVec.ofNat 64 (cellBits time 79 16), generation := BitVec.ofNat 16 (cellBits time 95 80)
             epochCount := BitVec.ofNat 48 (cellBits epoch 63 16), pendEpoch := BitVec.ofNat 48 (cellBits epoch 111 64)
             view := BitVec.ofNat 64 (cellBits view 79 16), reach := BitVec.ofNat 64 (cellBits reach 79 16)
             pend := BitVec.ofNat 64 (cellBits pend 79 16)
             admits := admits.map (fun x => (BitVec.ofNat 64 (cellBits x 79 16), Fin.ofNat 64 (cellBits x 85 80))) }
    else none
  | _ => none

/-! ### Ports (R304) -/

/-- A port that is enabled and DOWN trains (R304, R328). -/
def State.portTrain (s : State) (p : Fin 4) : State :=
  if s.portEn p && decide (s.link.ports[p].state = .down) then
    (s.modPort p (fun q => { q with state := .train })).count (lnkA (0x114 + 0x20 * p.val)) 1
  else s

/-- A port falls; a fall from UP sets PORT_DOWN (R304). -/
def State.portFall (s : State) (p : Fin 4) : State :=
  let was := decide (s.link.ports[p].state = .up)
  (s.modPort p (fun _ => { state := .down })).setBitIf was (lnkA 0x40) 10

/-- The ports follow LNK_CTRL in force (R304). -/
def State.portsFollow (s : State) : State :=
  (allFin 4).foldl (fun s p =>
    if s.portEn p then s.portTrain p else if s.link.ports[p].state = .down then s else s.portFall p) s

/-- PORT_TRAINED (R304). -/
def execPortTrained (p : Fin 4) (t : Nat) (neighbour : BitVec 64) (s : State) : Host.Outcome State Fault Refusal :=
  s.guarded fun s =>
    let s := s.upto t
    if s.link.ports[p].state = .train then
      s.modPort p (fun q => { q with
        state := .up, neighValid := true, neighId := neighbour, neighAt := s.clk.now, misaligned := false })
    else s

/-- A cause that R304 gives holds of an UP port: 16 invalid blocks within 1,024 slots, no beacon from the neighbour for 30 µs (48,000
ticks), the port disabled, or a slip (R422). -/
def State.portFails (s : State) (p : Fin 4) (cause : PortCause) : Bool :=
  match cause with
  | .blockErrors before line => decide (line.length ≤ 1024 ∧ 16 ≤ badBlocks (bitList before.toNat 0 58) line)
  | .beaconTimeout => decide (s.link.ports[p].neighAt + 48000 ≤ s.clk.now)
  | .disabled => !s.portEn p
  | .slip => true

/-- PORT_DOWN (R304, R422): an UP port falls and trains again if it is still enabled. -/
def execPortDown (p : Fin 4) (t : Nat) (cause : PortCause) (s : State) : Host.Outcome State Fault Refusal :=
  s.guarded fun s =>
    let s := s.upto t
    if s.link.ports[p].state = .up ∧ s.portFails p cause then (s.portFall p).portTrain p else s

/-- The UP ports but `p`. -/
def State.upPorts (s : State) (skip : Option (Fin 4)) : List (Fin 4) :=
  (allFin 4).filter (fun q => decide (s.link.ports[q].state = .up) && decide (some q ≠ skip))

/-- The bits of a list of ports. -/
def portMask (l : List (Fin 4)) : BitVec 4 := l.foldl (fun m q => m ||| (1#4 <<< q.val)) 0

/-- Queue an event cell on a port: it waits for the event cells ahead of it, 8.448 ticks each (R305, R309; DEDUCED, log 12). -/
def State.queueCell (s : State) (p : Fin 4) : State :=
  let nowm := 1000 * s.clk.now
  let wait := s.link.ports[p].sends.filter (fun d => nowm < d)
  let start := match s.link.ports[p].sends.getLast? with
    | some d => max nowm (d + 8448)
    | none => nowm
  let s1 := s.modPort p (fun q => { q with sends := wait ++ [start] })
  if 8 < wait.length then s1.count (lnkA (0x110 + 0x20 * p.val)) 1 else s1

/-- Send an event cell on some ports. -/
def State.sendCell (s : State) (c : EventCell) (l : List (Fin 4)) : State :=
  let s1 := l.foldl State.queueCell s
  s1.modLink (fun k => { k with txCell := some c.frame, txPorts := portMask l })

/-! ### Membership -/

/-- The lowest DEVICE_ID of a view's indices, where their IDs are known (R316). -/
def Link.lowest (k : Link) (view : BitVec 64) : Option (BitVec 64) :=
  (setBits 64 view.toNat).foldl (fun m i =>
    match smFind k.ids i, m with
    | some d, some x => some (if d.toNat < x.toNat then d else x)
    | some d, none => some d
    | none, m => m) none

/-- The authority of a view is its member with the lowest DEVICE_ID; a device that has been a MEMBER sets AUTH_CHANGED where that is
another (R316; DEDUCED, log 12). -/
def State.takeAuthority (s : State) (view : BitVec 64) (was : Bool) : State :=
  let a := s.link.lowest view
  let changed := was && decide (s.link.authId ≠ a.getD 0)
  (s.modLink (fun k => { k with authId := a.getD 0, auth := decide (a = some s.part.deviceId) })).setBitIf changed (lnkA 0x40) 3

/-- A change of GENERATION or a declared loss in the present tick marks the messages whose span from T to T + 1,600 holds
it (R324). -/
def State.markSent (s : State) : State :=
  s.modLink (fun k => { k with changedAt := some s.tb, sent := k.sent.map (fun m =>
    if m.1.time ≤ s.tb ∧ s.tb ≤ m.1.time + 1600 then (m.1, true) else m) })

/-- The device leaves the ensemble: it loses its index and view (R326). -/
def State.leaveView (s : State) : State :=
  let spans := s.link.memberSpans.map (fun x => (x.1, some (x.2.getD s.tb)))
  s.modLink (fun k => { k with state := if s.lnkEn then (if s.lnkJoin then .candidate else .alone) else .off
                               memberIdx := 0, auth := false, authId := 0, view := 0, viewLog := (s.tb, k.view) :: k.viewLog
                               ids := [], hops := [], pendView := none, memberSpans := spans, founding := false
                               removing := 0 })

/-- A link reset (R326). Own messages whose span is open stay under watch: a mark made before still raises MEMB_CHANGED (R324). -/
def State.linkReset (s : State) : State :=
  let was := decide (s.link.state = .member)
  let s1 := s.leaveView
  let s2 := s1.modLink (fun k => { k with heldMsgs := [], seen := [], beacons := [], origins := [], reach := 0
                                          quietSince := s.clk.now, lastBeacon := none, ensEpoch := 0, splitSeen := [] })
  let s3 := (allFin 4).foldl State.portFall s2
  s3.portsFollow.setBitIf was (lnkA 0x40) 1

/-- LINK_RESET (R62, R326); PENDING overlays are dropped, as by any reset (DEDUCED, log 21). -/
def execLinkReset (s : State) : Host.Outcome State Fault Refusal :=
  s.guarded fun s => s.linkReset.dropPending.cmdTake (lnkA 0) 1

/-- At a management tick the membership state follows EN and JOIN (R312); a MEMBER stays one while EN is 1. A device that ceases to be a
candidate gives up what it was to join or to found, and one that becomes a candidate begins its three periods (R317). -/
def State.linkFollow (s : State) : State :=
  let s1 := if !s.lnkEn then
      if s.link.state = .off then s else (s.leaveView.modLink (fun k => { k with heldMsgs := [], origins := [], reach := 0 }))
    else if s.link.state = .member then s
    else if s.lnkJoin then
      s.modLink (fun k => { k with state := .candidate, quietSince := if k.state = .candidate then k.quietSince else s.clk.now })
    else s.modLink (fun k => { k with state := .alone, pendView := none, auth := false, authId := 0, founding := false })
  s1.portsFollow

/-- A slot's residue modulo 16,000 (R313). -/
def slotOf (member : Bool) (idx : Fin 64) (id : BitVec 64) : Nat :=
  if member then 160 * idx.val else 10240 + 160 * (id.toNat % 32)

/-- The latest value at or before `v` that is congruent to `r` modulo 16,000; `r` where there is none. -/
def slotBefore (v r : Nat) : Nat := if v < r then r else v - (v - r) % 16000

/-- The least multiple of `k` EPOCHs that lies at least 48,000 ticks after `v` (R314). -/
def pendEpochFor (v period k : Nat) : Nat :=
  let n := (v + 48000 + period - 1) / period
  (n + k - 1) / k * k

/-- The lowest free indices of a view, `n` of them. -/
def freeIdx (view : BitVec 64) (n : Nat) : List (Fin 64) :=
  ((allFin 64).filter (fun i : Fin 64 => !view.getLsbD i.val)).take n

/-- The bits of a list of indices. -/
def idxBits (l : List (Fin 64)) : BitVec 64 := l.foldl (fun m i => m ||| (1#64 <<< i.val)) 0

/-- Order origins by DEVICE_ID. -/
def idInsert (o : Origin) : List Origin → List Origin
  | [] => [o]
  | x :: r => if o.deviceId.toNat < x.deviceId.toNat then o :: x :: r else x :: idInsert o r

/-- The READY candidates heard, in ascending DEVICE_ID (R317, R318). -/
def Link.readyCandidates (k : Link) : List Origin :=
  (k.origins.filter (fun o => decide (o.state = 2) && o.ready && !o.lost)).foldl (fun l o => idInsert o l) []

/-- The change that the authority announces next (R314, R317, R318): none where there is nothing to change. -/
def State.nextChange (s : State) : Option PendView :=
  let k := s.link
  if k.founding then
    let cs := k.readyCandidates.take 8
    let admits := List.zip (cs.map Origin.deviceId) ((allFin 64).drop 1)
    some { epoch := BitVec.ofNat 48 (pendEpochFor s.tb s.epochTicks s.admitEvery)
           view := 1 ||| idxBits (admits.map Prod.snd), admits := admits, gen := k.generation, founder := some s.part.deviceId }
  else if k.state ≠ .member ∨ !k.auth then none else
    let stay := k.view &&& ~~~k.removing
    let cs := if s.lnkAdmitEn then (k.readyCandidates.filter (fun o => decide (o.reach &&& k.view = k.view))).take 8 else []
    let admits := List.zip (cs.map Origin.deviceId) (freeIdx k.view 8)
    if admits = [] ∧ stay = k.view then none
    else some { epoch := BitVec.ofNat 48 (pendEpochFor s.tb s.epochTicks (if admits = [] then 1 else s.admitEvery))
                view := stay ||| idxBits (admits.map Prod.snd), admits := admits, gen := k.generation }

/-- The device's own slot (R313). -/
def State.ownSlot (s : State) : Nat := slotOf (decide (s.link.state = .member)) s.link.memberIdx s.part.deviceId

/-- STATE as beacons and LNK_STATUS code it (R312). -/
def LinkState.code : LinkState → BitVec 2
  | .off => 0
  | .alone => 1
  | .candidate => 2
  | .member => 3

/-- The beacon as the device sends it (R307). -/
def State.ownBeacon (s : State) : Beacon :=
  let k := s.link
  { hops := 1, count := k.beaconCount, deviceId := s.part.deviceId, state := k.state.code, auth := k.auth
    ready := decide (k.state = .candidate) && s.allIdle, idxValid := decide (k.state = .member)
    memberIdx := k.memberIdx, ensTag := s.ensTag, authId := k.authId, generation := k.generation
    epochCount := s.clk.epochCount, pendEpoch := (k.pendView.map PendView.epoch).getD 0, view := k.view
    reach := k.reach, pend := (k.pendView.map PendView.view).getD 0
    admits := if k.auth then (k.pendView.map PendView.admits).getD [] else [] }

/-- The device's next slot: the first at or after the present tick and after its latest beacon (R313). -/
def State.nextSlot (s : State) : Nat :=
  slotBefore (max s.tb (match s.link.lastBeacon with | some b => b + 1 | none => 0) + 15999) s.ownSlot

/-- BEACON_SEND (R313, R314, R317): at its slot a device with EN = 1 settles the change it announces and sends its
beacon on every UP port. -/
def execBeaconSend (s : State) : Host.Outcome State Fault Refusal :=
  s.guarded fun s =>
    if !s.lnkEn then s else
    let v := s.nextSlot
    let s := s.upto (s.physOf v)
    let s := if s.link.pendView = none then s.modLink (fun k => { k with pendView := s.nextChange, founding := false })
             else s
    let b := s.ownBeacon
    let ports := s.upPorts none
    s.modLink (fun k => { k with txBeacon := b.frame, txPorts := portMask ports, beaconCount := k.beaconCount + 1
                                 lastBeacon := some s.tb })

/-- ENSEMBLE_FOUND (R317): once it has heard no rival for 3 beacon periods, 48,000 ticks, the candidate takes index 0 and becomes
authority; a change that another authority had announced to it is none of the view that it founds. -/
def execEnsembleFound (s : State) : Host.Outcome State Fault Refusal :=
  s.guarded fun s =>
    if s.link.state = .candidate ∧ s.lnkAdmitEn ∧ !s.link.auth then
      (s.upto (s.link.quietSince + 48000)).modLink (fun k => { k with
        founding := true, auth := true, authId := s.part.deviceId, memberIdx := 0, ids := [(0, s.part.deviceId)], pendView := none })
    else s

/-- The device's own EPOCH count at a slot of the time base (R319). -/
def State.countAt (s : State) (slot : Nat) : BitVec 48 :=
  if s.clk.epochCount.toNat * s.epochTicks ≤ slot then s.clk.epochCount else s.clk.epochCount - 1

/-- What a device keeps of the origin of a beacon (R313, R315). -/
def State.originOf (s : State) (b : Beacon) : Origin :=
  let slot := slotBefore s.tb (slotOf (decide (b.state = 3)) b.memberIdx b.deviceId)
  { deviceId := b.deviceId, state := b.state, idx := b.memberIdx, ready := b.ready, reach := b.reach, heard := s.tb
    count := b.count, check := slot + 17600, missed := 0, lost := false }

/-- The origin of a device as a member, or as one that is none. -/
def Origin.isOf (o : Origin) (member : Bool) (id : BitVec 64) : Bool := decide (o.deviceId = id) && decide (o.state = 3) == member

/-- Replace or add an origin; a device heard as a member is no candidate any more. -/
def putOrigin (o : Origin) (l : List Origin) : List Origin :=
  let l := if o.state = 3 then l.filter (fun x => !x.isOf false o.deviceId) else l
  if l.any (fun x => x.isOf (decide (o.state = 3)) o.deviceId) then
    l.map (fun x => if x.isOf (decide (o.state = 3)) o.deviceId then o else x)
  else l ++ [o]

/-- The count by which a device follows PEND_EPOCH: its own as a MEMBER or founder, the ensemble's as a candidate. -/
def State.viewCount (s : State) : BitVec 48 :=
  if s.link.state = .member ∨ s.link.auth then s.clk.epochCount else s.link.ensEpoch

/-- The announced change of a beacon, where a device takes it: from its own authority, or as a candidate from any
authority; a change whose EPOCH has passed is not taken again (R314, R318). -/
def State.announced (s : State) (b : Beacon) : Option PendView :=
  let k := s.link
  if b.auth ∧ s.viewCount.toNat < b.pendEpoch.toNat ∧
      ((k.state = .candidate ∧ !k.auth) ∨ (k.state = .member ∧ b.deviceId = k.authId)) then
    some { epoch := b.pendEpoch, view := b.pend, admits := b.admits, gen := b.generation
           founder := if b.state = 3 then none else some b.deviceId }
  else k.pendView

/-- Ticks since the device registered its latest EPOCH, by its time base (R310). -/
def State.sinceEpoch (s : State) : Nat := s.tb - s.clk.epochCount.toNat * s.epochTicks

/-- The ensemble's count as a candidate follows it from an authority's beacon (R318). The beacon shows the count at its slot: the slot, the
latest that the beacon's index gives at or before the present value of the ensemble's time base, tells whether the device's latest EPOCH
came since, and counts (R310, R313; DEDUCED, log 12). -/
def State.followed (s : State) (b : Beacon) : BitVec 48 :=
  if !b.auth then s.link.ensEpoch
  else
    let first := b.epochCount.toNat * s.epochTicks
    let slot := slotBefore (first + s.sinceEpoch) (slotOf (decide (b.state = 3)) b.memberIdx b.deviceId)
    if s.clk.firstEpoch || decide (first ≤ slot) then b.epochCount else b.epochCount + 1

/-- A beacon with the device's own tag acts on membership (R313 to R320). -/
def State.beaconActs (s : State) (b : Beacon) : State :=
  let k := s.link
  let member := decide (b.state = 3)
  if k.state = .member ∧ member ∧ b.authId ≠ k.authId then
    let s1 := s.setBit (lnkA 0x40) 6
    if k.splitSeen.contains b.authId then s1
    else (s1.modLink (fun k => { k with splitSeen := k.splitSeen ++ [b.authId] })).linkFault 3 0xFF 0 (b.authId.setWidth 32)
  else
    let slot := slotBefore s.tb (slotOf member b.memberIdx b.deviceId)
    let differs := decide (k.state = .member) && member && decide (b.epochCount ≠ s.countAt slot)
    let rival := member || (decide (b.state = 2) && decide (b.deviceId.toNat < s.part.deviceId.toNat))
    let s1 := s.modLink (fun k => { k with
      origins := putOrigin (s.originOf b) k.origins
      reach := if member && b.idxValid then k.reach ||| (1#64 <<< b.memberIdx.val) else k.reach
      hops := if member && b.idxValid then smInsert k.hops b.memberIdx b.hops else k.hops
      ids := if member && b.idxValid then smInsert k.ids b.memberIdx b.deviceId else k.ids
      pendView := ({ s with link := { k with ensEpoch := s.followed b } } : State).announced b
      ensEpoch := s.followed b
      quietSince := if rival then s.clk.now else k.quietSince
      removing := if k.auth && differs && !b.auth then k.removing ||| (1#64 <<< b.memberIdx.val) else k.removing })
    if differs && b.auth then (s1.setBit (lnkA 0x40) 7).linkFault 2 b.memberIdx 0 0 else s1

/-- The origin's beacon of this period has come already, or it is the device's own (R308). -/
def State.beaconDup (s : State) (b : Beacon) : Bool :=
  decide (b.deviceId = s.part.deviceId) ||
    s.link.beacons.any (fun o => decide (o.deviceId = b.deviceId ∧ o.count = b.count ∧ s.tb < o.at_ + 16000))

/-- A whole beacon arrives at a port (R307, R308, R313): the first copy of an origin's beacon in a period is forwarded, and
acts where its tag is the device's own. -/
def State.hearBeacon (s : State) (p : Fin 4) (b : Beacon) : State :=
  let s := if b.hops = 1 then s.modPort p (fun q => { q with neighValid := true, neighId := b.deviceId, neighAt := s.clk.now }) else s
  if s.beaconDup b then s else
    let out := if b.hops.toNat < 8 ∧ s.link.ports[p].state = .up then s.upPorts (some p) else []
    let s := s.modLink (fun k => { k with
      beacons := k.beacons.filter (fun o => decide (o.deviceId ≠ b.deviceId)) ++ [{ deviceId := b.deviceId, count := b.count, at_ := s.tb }]
      txBeacon := if out = [] then k.txBeacon else ({ b with hops := b.hops + 1 } : Beacon).frame
      txPorts := if out = [] then k.txPorts else portMask out })
    if b.ensTag = s.ensTag then s.beaconActs b else s

/-- BEACON_RECEIVE (R305, R307): a beacon that loses a cell is dropped whole. -/
def execBeaconReceive (p : Fin 4) (t : Nat) (cells : List Cell) (s : State) : Host.Outcome State Fault Refusal :=
  s.guarded fun s =>
    let s := s.upto t
    let bad := cells.filter (fun x => !cellGood x)
    if !s.lnkEn ∨ s.link.ports[p].state = .down then s
    else if bad ≠ [] then s.count (lnkA (0x10C + 0x20 * p.val)) bad.length
    else match Beacon.read cells with
      | none => s
      | some b => s.hearBeacon p b

/-- SLOT_CHECK (R315, R316): the third missing beacon of an origin, as a member or as a candidate, declares it lost. -/
def execSlotCheck (origin : OriginKey) (s : State) : Host.Outcome State Fault Refusal :=
  s.guarded fun s =>
    match s.link.origins.find? (fun o => o.isOf origin.member origin.id) with
    | none => s
    | some o =>
      let s := s.upto (s.physOf o.check)
      let missed := if o.check ≤ o.heard + 1600 then 0 else o.missed + 1
      let lost := decide (missed = 3 ∧ (o.state = 2 ∨ o.state = 3))
      let o' : Origin := { o with check := o.check + 16000, missed := missed, lost := o.lost || lost }
      let s := s.modLink (fun k => { k with origins := putOrigin o' k.origins })
      if !lost then s else
        let bit := 1#64 <<< o.idx.val
        let s := s.modLink (fun k => { k with
          reach := if origin.member then k.reach &&& ~~~bit else k.reach
          removing := if origin.member then k.removing ||| (bit &&& k.view) else k.removing })
        let s := ((s.setBit (lnkA 0x40) 9).linkFault 4 (if origin.member then o.idx.val else 0xFF) 0 0).markSent
        if origin.member ∧ s.link.state = .member ∧ o.deviceId = s.link.authId then
          s.takeAuthority (s.link.view &&& ~~~s.link.removing) true
        else s

/-! ### Views at EPOCH (R314, R318) -/

/-- The devices that a change adds, with their indices: a founder takes index 0. -/
def PendView.named (p : PendView) : List (BitVec 64 × Fin 64) := p.founder.toList.map (fun d => (d, 0)) ++ p.admits

/-- The IDs that a change adds. -/
def PendView.addIds (p : PendView) (ids : SMap (BitVec 64)) : SMap (BitVec 64) :=
  p.named.foldl (fun m a => smInsert m a.2.val a.1) ids

/-- The origins that a device checks under a new view: those that leave it go, and every index that joins is checked from its next slot on,
whether its beacon comes or not (R315, R318). -/
def State.viewOrigins (s : State) (p : PendView) : List Origin :=
  let new := p.named.filter (fun a => decide (a.1 ≠ s.part.deviceId))
  s.link.origins.filter (fun o =>
    if o.state = 3 then p.view.getLsbD o.idx && !new.any (fun a => decide (a.2 = o.idx)) else !new.any (fun a => decide (a.1 = o.deviceId)))
    ++ new.map (fun a => { deviceId := a.1, state := 3, idx := a.2, ready := false, reach := 0, heard := 0, count := 0
                           check := slotBefore (s.tb + 15999) (slotOf true a.2 a.1) + 1600, missed := 0, lost := false })

/-- A view in force from the present tick (R314): index, generation, authority and flags. REACH keeps the members of the new view that have
been heard as such (R307). -/
def State.setView (s : State) (p : PendView) (gen : BitVec 16) (joining : Option (Fin 64)) : State :=
  let was := decide (s.link.state = .member)
  let s1 := s.modLink (fun k => { k with
    viewLog := (s.tb, k.view) :: k.viewLog, view := p.view, generation := gen + 1, pendView := none
    removing := k.removing &&& p.view
    reach := k.reach &&& p.view &&& ~~~(idxBits (p.admits.map Prod.snd)), origins := s.viewOrigins p
    state := if joining.isSome then .member else k.state
    memberIdx := joining.getD k.memberIdx
    memberSpans := if joining.isSome then (s.tb, none) :: k.memberSpans else k.memberSpans
    ids := match joining with
      | some i => smInsert (p.addIds k.ids) i s.part.deviceId
      | none => p.addIds k.ids })
  ((s1.takeAuthority (p.view &&& ~~~s1.link.removing) was).setBit (lnkA 0x40) 2).markSent

/-- The time base has stepped by d: what the link holds of other devices keeps its instants, and their slots are found anew (R313, R315). -/
def State.linkStep (s : State) (d : Int) : State :=
  let move := fun (v : Nat) => ((v : Int) + d).toNat
  s.modLink (fun k => { k with
    lastBeacon := none, changedAt := k.changedAt.map move
    beacons := k.beacons.map (fun b => { b with at_ := move b.at_ })
    origins := k.origins.map (fun o => { o with
      heard := move o.heard, check := slotBefore (s.tb + 15999) (slotOf (decide (o.state = 3)) o.idx o.deviceId) + 1600 }) })

/-- A pending view takes effect at EPOCH PEND_EPOCH (R314): a member changes its view, the founder becomes member 0
(R317), a candidate named in it becomes a MEMBER or declines (R318). The time base of a joining candidate steps to
PEND_EPOCH's tick; the second part tells by how much. -/
def State.viewEffect (s : State) : State × Int :=
  match s.link.pendView with
  | none => (s, 0)
  | some p =>
    if s.viewCount.toNat < p.epoch.toNat then (s, 0)
    else if s.link.state = .member then
      let s1 := s.setView p s.link.generation none
      if p.view.getLsbD s1.link.memberIdx then (s1, 0)
      else (s1.leaveView.setBit (lnkA 0x40) 1, 0)
    else if s.link.state ≠ .candidate then (s.modLink (fun k => { k with pendView := none }), 0)
    else if s.link.auth then ((s.setView p p.gen (some 0)).setBit (lnkA 0x40) 0, 0)
    else match p.admits.find? (fun a => decide (a.1 = s.part.deviceId)) with
      | none => (s.modLink (fun k => { k with pendView := none }), 0)
      | some a =>
        if !s.allIdle then ((s.modLink (fun k => { k with pendView := none })).setBit (lnkA 0x40) 5, 0)
        else
          let target := p.epoch.toNat * s.epochTicks
          let step : Int := (target : Int) - (s.tb : Int)
          let s1 : State := { s with clk := { s.clk with epochCount := p.epoch, ofs := s.clk.ofs + step } }
          let s1 := if step = 0 then s1 else s1.linkStep step
          ((((s1.setView p p.gen (some a.2)).setBit (lnkA 0x40) 0).setBitIf (decide (step ≠ 0)) (lnkA 0x40) 4), step)

/-! ### Ensemble events (R321 to R324) -/

/-- Whether the device was a MEMBER at T (R322). -/
def State.memberAt (s : State) (t : Nat) : Bool :=
  s.link.memberSpans.any (fun x => decide (x.1 ≤ t) && x.2.all (fun b => decide (t < b)))

/-- The view in force at T (R322): the one before the earliest change that came after T. -/
def State.viewAtTime (s : State) (t : Nat) : BitVec 64 :=
  match (s.link.viewLog.filter (fun x => decide (t < x.1))).getLast? with
  | some x => x.2
  | none => s.link.view

/-- A link send of channel c fires with timestamp T, producer and DATA (R321). -/
def State.linkSend (s : State) (c : Fin 32) (t : Nat) (producer : BitVec 8) (data : BitVec 16) : State :=
  if !s.lnkEn then s else
  let m : LinkMsg := { origin := s.link.memberIdx, channel := c, time := t, data := data, own := true }
  let s1 := if s.chanRxEn c then s.modLink (fun k => { k with heldMsgs := k.heldMsgs ++ [m] }) else s
  if s1.link.state = .member then
    let cell : EventCell := { hops := 1, origin := s1.link.memberIdx, channel := c, producer := producer, data := data
                              time := BitVec.ofNat 48 t }
    let s2 := (s1.sendCell cell (s1.upPorts none)).count (lnkA 0x50) 1
    s2.modLink (fun k => { k with seen := k.seen ++ [m], sent := k.sent ++ [(m, k.changedAt.any (fun v => decide (t ≤ v)))] })
  else s1.count (lnkA 0x5C) 1

/-- The 64-bit value nearest `v` with the low 48 bits `t` (R322). -/
def extendTime (v : Nat) (t : BitVec 48) : Nat :=
  let d := (t.toNat + 2 ^ 48 - v % 2 ^ 48) % 2 ^ 48
  if 2 ^ 47 ≤ d ∧ 2 ^ 48 ≤ v + d then v + d - 2 ^ 48 else v + d

/-- An event cell arrives at a port: the first copy is forwarded and taken (R308, R322). -/
def State.hearCell (s : State) (p : Fin 4) (c : EventCell) : State :=
  let v := extendTime s.tb c.time
  let m : LinkMsg := { origin := c.origin, channel := c.channel, time := v, data := c.data }
  if s.link.seen.any (fun x => decide (x.origin = m.origin ∧ x.channel = m.channel ∧ x.time = m.time)) then s
  else
    let s := s.modLink (fun k => { k with seen := k.seen ++ [m] })
    let s := if c.hops.toNat < 8 then s.sendCell { c with hops := c.hops + 1 } (s.upPorts (some p)) else s
    if s.tb ≤ v then ((s.count (lnkA 0x68) 1).setBit (lnkA 0x40) 7).linkFault 2 c.origin 0 0
    else if !s.memberAt v || !(s.viewAtTime v).getLsbD c.origin then s.count (lnkA 0x60) 1
    else if !s.chanRxEn c.channel then s
    else if v + 1280 < s.tb ∨ 256 ≤ (s.link.heldMsgs.filter (fun x => !x.own)).length then
      ((s.count (lnkA 0x58) 1).setBit (lnkA 0x40) 8).linkFault 1 c.origin c.channel 0
    else (s.modLink (fun k => { k with heldMsgs := k.heldMsgs ++ [m] })).count (lnkA 0x54) 1

/-- EVENT_CELL_RECEIVE (R305, R306, R308, R322): a cell with a bad CRC or a reserved TYPE counts and is dropped. -/
def execEventCellReceive (p : Fin 4) (t : Nat) (cell : Cell) (s : State) : Host.Outcome State Fault Refusal :=
  s.guarded fun s =>
    let s := s.upto t
    if !s.lnkEn ∨ s.link.ports[p].state = .down then s
    else if !cellGood cell then s.count (lnkA (0x10C + 0x20 * p.val)) 1
    else if cellType cell = 1 ∧ s.link.ports[p].state = .up then s.hearCell p (EventCell.read cell) else s

/-- The least of the times of held messages. -/
def minTime : List LinkMsg → Option Nat
  | [] => none
  | m :: r => match minTime r with
    | none => some m.time
    | some v => some (min m.time v)

/-- The message of the lowest origin. -/
def lowOrigin : List LinkMsg → Option LinkMsg
  | [] => none
  | m :: r => match lowOrigin r with
    | none => some m
    | some x => if m.origin ≤ x.origin then some m else some x

/-- Messages of one channel and one T enter the Bridge as one firing (R323). -/
def State.releaseChan (s : State) (v : Nat) (l : List LinkMsg) (c : Fin 32) : State :=
  let mine := l.filter (fun m => decide (m.channel = c))
  match lowOrigin mine with
  | none => s
  | some m => (s.count (lnkA 0x64) (mine.length - 1)).fireWith (Fin.ofNat 256 (148 + c.val)) (s.physOf (v + 1280)) v m.data

/-- MESSAGE_RELEASE (R322, R323): the messages with the earliest T enter the Bridge at T + 1,280. -/
def execMessageRelease (s : State) : Host.Outcome State Fault Refusal :=
  s.guarded fun s =>
    match minTime s.link.heldMsgs with
    | none => s
    | some v =>
      let s := s.upto (s.physOf (v + 1280))
      let l := s.link.heldMsgs.filter (fun m => decide (m.time = v))
      let s := s.modLink (fun k => { k with heldMsgs := k.heldMsgs.filter (fun m => decide (m.time ≠ v)) })
      (allFin 32).foldl (fun s c => s.releaseChan v l c) s

/-- MEMB_CHANGED_CHECK (R324): at T + 1,600 the oldest message sent is judged. -/
def execMembChangedCheck (s : State) : Host.Outcome State Fault Refusal :=
  s.guarded fun s =>
    match s.link.sent with
    | [] => s
    | (m, changed) :: r =>
      let s := (s.upto (s.physOf (m.time + 1600))).modLink (fun k => { k with sent := r })
      if changed then
        (s.modLink (fun k => { k with mcTime := BitVec.ofNat 64 m.time })).setBit (lnkA 0x44) m.channel
      else s

/-- The counters of the link block (R327 to R329). -/
def linkCtrs : List Nat :=
  (List.range 7).map (fun i => lnkA (0x50 + 4 * i)) ++
  (List.range 4).flatMap (fun p => [lnkA (0x10C + 0x20 * p), lnkA (0x110 + 0x20 * p), lnkA (0x114 + 0x20 * p)])

/-- LNK_CTRL.CNT_CLR (R329). -/
def execLnkCntClr (s : State) : Host.Outcome State Fault Refusal :=
  s.guarded fun s => s.clearCtrs linkCtrs

end Sys2Proof.Machine
end

