-- ==== Sys2Proof/Machine/Bridge.lean ====
section
/-! DEFINITION. The Bridge (R283 to R301): the hop, coalescing, the storm guard, timers, software events and the
EVI and EVO balls. -/
namespace Sys2Proof.Machine

def State.modBrg (s : State) (f : Bridge → Bridge) : State := { s with brg := f s.brg }

/-! ### Timers (R294, R295) -/

/-- Arm timer k at tick t with the PERIOD and REPEAT last written; an expiry due at t still fires, and a STOP of the same tick acts alone
(R295). An unconfigured device holds its Bridge stopped, and its timers with it (R47). -/
def State.timerStart (s : State) (k : Fin 8) (t : Nat) : State :=
  let tm := s.brg.timers[k]
  if !s.configured || decide (tm.stopAt = some t) then s
  else
    let s1 := (s.applyDue (brgA (0x2804 + 32 * k)) (~~~0)).applyDue (brgA (0x2808 + 32 * k)) (fmask 15 0)
    let period := max 8 (s1.effW (brgA (0x2804 + 32 * k))).toNat
    let rep := s1.effF (brgA (0x2808 + 32 * k)) 15 0
    s1.modTmr k (fun m => { m with
      armed := true, period := period, left := rep, unlimited := decide (rep = 0), due := t + period
      owed := if tm.armed ∧ tm.due = t then some t else m.owed })

/-- A STOP at tick t disarms timer k: no expiry at t or later takes place (R294, R295). -/
def State.timerStop (s : State) (k : Fin 8) (t : Nat) : State :=
  s.modTmr k (fun m => { m with armed := false, left := 0, unlimited := false, stopAt := some t
                                owed := m.owed.filter (fun o => decide (o < t)) })

/-- TIMER_START: TMR_CTRL.START is taken; with STOP written beside it, STOP acts alone (R294, R295). -/
def execTimerStart (k : Fin 8) (s : State) : Host.Outcome State Fault Refusal :=
  s.guarded fun s =>
    let a := brgA (0x2800 + 32 * k.val)
    let s1 := if (s.cmdWord a).getLsbD 1 then s else s.timerStart k s.clk.now
    s1.cmdTake a 1

/-- TIMER_STOP: TMR_CTRL.STOP is taken (R294). -/
def execTimerStop (k : Fin 8) (s : State) : Host.Outcome State Fault Refusal :=
  s.guarded fun s => (s.timerStop k s.clk.now).cmdTake (brgA (0x2800 + 32 * k.val)) 3

/-- An expiry makes the timer go on to its next, or stop after the last (R294). -/
def Timer.expired (m : Timer) : Timer :=
  if m.unlimited then { m with due := m.due + m.period }
  else if m.left ≤ 1 then { m with armed := false, left := 0 }
  else { m with left := m.left - 1, due := m.due + m.period }

/-- TIMER_EXPIRY (R294): the producer fires with the expiry tick; after REPEAT expiries the timer stops. An expiry that fell due as a
START armed the timer again comes first (R295). -/
def execTimerExpiry (k : Fin 8) (s : State) : Host.Outcome State Fault Refusal :=
  s.guarded fun s =>
    let tm := s.brg.timers[k]
    match tm.owed with
    | some o => ((s.upto o).fire (124 + k) o).modTmr k (fun m => { m with owed := none })
    | none =>
      if !tm.armed then s else ((s.upto tm.due).fire (124 + k) tm.due).modTmr k Timer.expired

/-! ### EVO lines (R298) -/

/-- EVO_CFG.MODE in force is TOGGLE. -/
def State.evoToggles (s : State) (i : Fin 16) : Bool := decide (s.effF (brgA (0x2C40 + 4 * i)) 2 1 = 1)

/-- Consumer 128 + i fires at tick t. -/
def State.evoFire (s : State) (i : Fin 16) (t : Nat) : State :=
  if s.evoToggles i then
    s.modBrg (fun b => { b with evo := b.evo ^^^ (1#16 <<< i.val), evoFall := b.evoFall.set i none })
  else
    let fall := t + s.effF (brgA (0x2C40 + 4 * i)) 13 8 + 1
    s.modBrg (fun b => { b with evo := b.evo ||| (1#16 <<< i.val), evoFall := b.evoFall.set i (some fall) })

/-- EVO_PULSE_END (R298): the line falls WIDTH + 1 ticks after its last firing. -/
def execEvoPulseEnd (i : Fin 16) (s : State) : Host.Outcome State Fault Refusal :=
  s.guarded fun s =>
    match s.brg.evoFall[i] with
    | none => s
    | some t =>
      (s.upto t).modBrg (fun b => { b with evo := b.evo &&& ~~~(1#16 <<< i.val), evoFall := b.evoFall.set i none })

/-! ### The hop (R285 to R290) -/

/-- The least timestamp in flight. -/
def minAt : List BrgEvt → Option Nat
  | [] => none
  | e :: r => match minAt r with
    | none => some e.at_
    | some v => some (min e.at_ v)

/-- The event of the lowest-numbered producer (R289). -/
def lowProducer : List BrgEvt → Option BrgEvt
  | [] => none
  | e :: r => match lowProducer r with
    | none => some e
    | some x => if e.prod ≤ x.prod then some e else some x

/-- A request reaches a condition input whose source is BRIDGE (R110, R289): its T is the firing tick less one. -/
def State.condFire (s : State) (n : Clu) (c : Fin 16) (t : Nat) : State :=
  if s.condSrc n c ≠ 0 then s else s.modClu n (fun k => { k with arriving := k.arriving ++ [{ cond := c, ts := t }] })

/-- A strobe reaches a load group with timestamp T (R263); strobes with one capture instant are one (R264), and a
group that the variant lacks takes none (R267), nor does any group of an unconfigured device, whose codes stay 0 (R269). -/
def State.strobeFire (s : State) (g : Lg) (t : Nat) : State :=
  if !s.hasLg g || !s.configured then s
  else if s.lg[g].strobes.contains t then s.setBit (lgA g 8) 0
  else s.modLg g (fun l => { l with strobes := l.strobes ++ [t] })

/-- What a consumer does when it fires from an event whose Bridge timestamp is t (R284, R289); `stops` lists the
timers whose STOP fires in the same tick. -/
def State.consume (s : State) (c : Nat) (e : BrgEvt) (stops : List Nat) : State :=
  if c < 128 then s.condFire (Fin.ofNat 8 (c / 16)) (Fin.ofNat 16 (c % 16)) e.at_
  else if c < 144 then s.evoFire (Fin.ofNat 16 (c - 128)) (e.at_ + 1)
  else if c < 150 then s.strobeFire (Fin.ofNat 6 (c - 144)) e.at_
  else if 160 ≤ c ∧ c < 192 then s.linkSend (Fin.ofNat 32 (c - 160)) e.carried (BitVec.ofNat 8 e.prod.val) e.data
  else if 192 ≤ c ∧ c < 200 then
    if stops.contains (c - 192) then s else s.timerStart (Fin.ofNat 8 (c - 192)) (e.at_ + 1)
  else if 200 ≤ c ∧ c < 208 then s.timerStop (Fin.ofNat 8 (c - 200)) (e.at_ + 1)
  else s

/-- The timestamp that a consumer takes: a link send the carried one, any other the Bridge's (R289). -/
def State.takenTime (s : State) (c : Nat) (e : BrgEvt) : Nat := if 160 ≤ c ∧ c < 192 then e.carried else s.tbAt e.at_

/-- A watched consumer records what it took (R290). A consumer that WATCH is about to leave records still, but VALID stands for the one
that WATCH was last written with (R299). -/
def State.watch (s : State) (c : Nat) (e : BrgEvt) : State :=
  if s.effF (brgA 0x20A8) 7 0 = c then
    s.modBrg (fun b => { b with watchValid := b.watchValid || decide (fld (s.cfgW (brgA 0x20A8)) 7 0 = c)
                                watchData := e.data, watchSrc := BitVec.ofNat 8 e.prod.val
                                watchTime := BitVec.ofNat 64 (s.takenTime c e) })
  else s

/-- Consumer c fires once from the events that reach it in one tick (R285, R288, R289, R290). -/
def State.fireConsumer (s : State) (l : List (BrgEvt × List Nat)) (stops : List Nat) (c : Nat) : State :=
  let mine := (l.filter (fun x => x.2.contains c)).map Prod.fst
  match lowProducer mine with
  | none => s
  | some e =>
    let s := s.setBit (brgA (0x2020 + 4 * (c / 32))) (c % 32)
    let s := if 1 < mine.length then
        (s.setBit (brgA (0x2040 + 4 * (c / 32))) (c % 32)).count (brgA (0x2400 + 4 * c)) (mine.length - 1)
      else s
    (s.watch c e).consume c e stops

/-- The events of one timestamp with the consumers that each reaches. -/
def State.hopEvents (s : State) (l : List BrgEvt) : State × List (BrgEvt × List Nat) :=
  l.foldl (fun r e =>
    let x := if e.seen then (r.1, e) else r.1.seeEvent e
    let cs := if x.2.muted then [] else (e.row.getD (x.1.consumersOf e.prod)).filter (fun c => x.1.enableOk c e.prod)
    (x.1, r.2 ++ [(x.2, cs)])) (s, [])

/-- BRIDGE_HOP (R285): the events with the earliest timestamp T reach their consumers at T + 1. -/
def execBridgeHop (s : State) : Host.Outcome State Fault Refusal :=
  s.guarded fun s =>
    match minAt s.brg.inFlight with
    | none => s
    | some t =>
      let now := s.brg.inFlight.filter (fun e => decide (e.at_ = t))
      let s := (s.upto (t + 1)).modBrg (fun b => { b with inFlight := b.inFlight.filter (fun e => decide (e.at_ ≠ t)) })
      let r := s.hopEvents now
      let stops := (List.range 8).filter (fun k => r.2.any (fun x => x.2.contains (200 + k)))
      (List.range 208).foldl (fun s c => s.fireConsumer r.2 stops c) r.1

/-- At a management tick, an event with an earlier timestamp counts in the window that ends, and keeps the old enables
(R287, R292). -/
def State.freezeEvent (s : State) (e : BrgEvt) : State × BrgEvt :=
  if s.clk.now ≤ e.at_ then (s, e)
  else
    let x := if e.seen then (s, e) else s.seeEvent e
    (x.1, if x.2.row = none then { x.2 with row := some (x.1.consumersOf e.prod) } else x.2)

/-- At a management tick the shadow matrix is about to be copied: the events in flight are settled. -/
def State.freezeRows (s : State) : State :=
  let r := s.brg.inFlight.foldl (fun r e => let x := r.1.freezeEvent e; (x.1, r.2 ++ [x.2])) (s, ([] : List BrgEvt))
  r.1.modBrg (fun b => { b with inFlight := r.2 })

/-! ### The storm guard (R292, R293) -/

/-- STORM_SUPPRESS (R292): a producer at its 129th firing of a window is suppressed from the next tick, which the record's TIME
names (R453). -/
def execStormSuppress (p : Fin 256) (s : State) : Host.Outcome State Fault Refusal :=
  s.guarded fun s =>
    let s := s.seeDue
    let t := s.stormAt p
    if t = 0 then s
    else
      let s := s.modBrg (fun b => { b with storms := smErase b.storms p })
      let s := (s.setBit (brgA (0x2060 + 4 * (p.val / 32))) (p.val % 32)).count (brgA 0x20B8) 1
      s.report { cls := 5, cause := 1, source := BitVec.ofNat 8 p.val, time := BitVec.ofNat 64 (s.tbAt t) }

/-- STORM_SUPP_CLEAR (R293): suppression ends, and counting starts afresh at the next management tick. -/
def execStormSuppClear (word : Fin 8) (mask : Word) (s : State) : Host.Outcome State Fault Refusal :=
  s.guarded fun s =>
    let a := brgA (0x2060 + 4 * word.val)
    let s := s.seeDue
    let s1 := s.clearFlag a mask
    let freed := s.flag a &&& ~~~(s1.flag a)
    let ps := (setBits 32 freed.toNat).map (fun b => 32 * word.val + b)
    s1.modBrg (fun b => { b with resting := b.resting ++ ps, window := ps.foldl smErase b.window })

/-- BRG_SW_FIRE (R296). -/
def execBrgSwFire (mask : BitVec 16) (s : State) : Host.Outcome State Fault Refusal :=
  s.guarded fun s =>
    let data := BitVec.ofNat 16 (s.effF (brgA 0x20A0) 31 16)
    let s1 := (setBits 16 mask.toNat).foldl (fun s e => s.fireWith (Fin.ofNat 256 (132 + e)) s.clk.now s.tb data) s
    s1.cmdTake (brgA 0x20A0) (mask.setWidth 32)

/-- The Bridge's counters (R301). -/
def brgCtrs : List Nat := brgA 0x20B8 :: (List.range 256).map (fun c => brgA (0x2400 + 4 * c))

/-- BRG_CNT_CLR (R301). -/
def execBrgCntClr (s : State) : Host.Outcome State Fault Refusal :=
  s.guarded fun s => s.clearCtrs brgCtrs

/-! ### EVI balls (R297) -/

/-- EVI_EDGE (R297, R20): a ball that changes to its asserted level while EN is 1 fires its producer with
timestamp t. -/
def execEviEdge (i : Fin 16) (level : Bool) (t : Nat) (s : State) : Host.Outcome State Fault Refusal :=
  s.guarded fun s =>
    let s := s.upto t
    if s.brg.evi.getLsbD i = level then s else
    let s := s.modBrg (fun b => { b with evi := b.evi ^^^ (1#16 <<< i.val) })
    let c := s.effW (brgA (0x2C00 + 4 * i.val))
    if c.getLsbD 0 ∧ level ≠ c.getLsbD 1 then s.fire i t else s

/-- The asserted state of the EVI balls under the POL in force (R297). -/
def State.eviAsserted (s : State) : BitVec 16 :=
  (allFin 16).foldl (fun m (i : Fin 16) =>
    if s.brg.evi.getLsbD i ≠ (s.effW (brgA (0x2C00 + 4 * i.val))).getLsbD 1 then m ||| (1#16 <<< i.val) else m) 0

/-- The levels of the EVO balls: the line where OE is 1, else low (R298). -/
def State.evoBalls (s : State) : BitVec 16 :=
  (allFin 16).foldl (fun m (i : Fin 16) =>
    if s.brg.evo.getLsbD i ∧ (s.effW (brgA (0x2C40 + 4 * i.val))).getLsbD 0 then m ||| (1#16 <<< i.val) else m) 0

/-- The Bridge's part of a management tick (R287, R292, R293, R300): the window starts anew and the balls are
sampled. -/
def State.bridgeTick (s : State) : State :=
  s.modBrg (fun b => { b with window := [], resting := [], eviNow := s.eviAsserted, evoNow := s.evoBalls })

end Sys2Proof.Machine
end

