-- ==== Sys2Proof/Machine/Operands.lean ====
section
/-! DEFINITION. The operand forms: fields of a segment table entry (R73), of jump words, marker slots and the NCO
plans, a cluster's layout, rates and delays (R79, R123, R132, R167, R174), and the sections of a data object (R77). -/
namespace Sys2Proof.Machine

/-! ### Segment table entries (R73) -/

/-- A word of the segment table, by word index. -/
def State.segWord (s : State) (k : Nat) : Word := smGet (fun _ => 0) s.tabs.seg k

/-! ### What a tick's writes replaced: placement records (R133) -/

/-- A write is about to unpublish an entry: its first record of the tick is kept. -/
def State.keepRec (s : State) (i : Nat) (r : EntryRec) : State :=
  let x := s.tickOld
  { s with was := { x with recs := if (smFind x.recs i).isSome then x.recs else smInsert x.recs i r } }

/-- Join words into one number, the first in the low bits. -/
def joinWords : List Word → Nat
  | [] => 0
  | w :: r => w.toNat + 2 ^ 32 * joinWords r

/-- Entry n, read as all 32 bytes at once (R75). -/
def State.entry (s : State) (n : Nat) : BitVec 256 :=
  BitVec.ofNat 256 (joinWords ((List.range 8).map (fun i => s.segWord (8 * n + i))))

/-- Entry n as a read made in tick `t` takes it (R75, R116). -/
def State.entryAt (s : State) (t n : Nat) : BitVec 256 :=
  BitVec.ofNat 256 (joinWords ((List.range 8).map (fun i => s.oldWordAt t (0x800000 + 32 * n + 4 * i) (s.segWord (8 * n + i)))))

/-- Bits hi down to lo of word i of an entry. -/
def ent (e : BitVec 256) (i hi lo : Nat) : Nat := bitsOf e.toNat (32 * i + hi) (32 * i + lo)

/-- Bit b of word i of an entry. -/
def entB (e : BitVec 256) (i b : Nat) : Bool := e.getLsbD (32 * i + b)

def eObjBase (e : BitVec 256) : Nat := ent e 0 26 0
def eTsOvrEn (e : BitVec 256) : Bool := entB e 1 29
def eTsOvr (e : BitVec 256) : Nat := ent e 1 28 24
def eLenGr (e : BitVec 256) : Nat := ent e 1 23 0
def eRepeat (e : BitVec 256) : Nat := ent e 2 19 0
def eLink (e : BitVec 256) : Bool := entB e 3 31
def eSucc (e : BitVec 256) : Nat := ent e 3 16 0
def eMkpEn (e : BitVec 256) : Bool := entB e 4 31
def eMkp (e : BitVec 256) : Nat := ent e 4 27 16
def eJtEn (e : BitVec 256) : Bool := entB e 4 15
def eJt (e : BitVec 256) : Nat := ent e 4 11 0
def eTrgOnce (e : BitVec 256) : Bool := entB e 5 24
def eTrgMask (e : BitVec 256) : Nat := ent e 5 23 16
def eNcoEn (e : BitVec 256) : Bool := entB e 5 15
def eNcoAct (e : BitVec 256) : Nat := ent e 5 13 0
def eStrmCtx (e : BitVec 256) : Ctx := Fin.ofNat 64 (ent e 6 29 24)
def ePin (e : BitVec 256) : Nat := ent e 6 23 22
def eStream (e : BitVec 256) : Bool := entB e 6 21
def eJumpable (e : BitVec 256) : Bool := entB e 6 20
def eMatch (e : BitVec 256) : Bool := entB e 6 19
def eStackClr (e : BitVec 256) : Bool := entB e 6 18
def eLoopEnd (e : BitVec 256) : Bool := entB e 6 17
def eLoopBegin (e : BitVec 256) : Bool := entB e 6 16
def eLoopCount (e : BitVec 256) : Nat := ent e 6 15 0

/-- The reserved bits of an entry (R73). -/
def entReserved : List Nat := [0xF8000000, 0xC0000000, 0xFFF00000, 0x7FFE0000, 0x70007000, 0xFE004000, 0xC0000000, 0xFFFFFFFF]

/-- Words in which every bit of a mask list is clear. -/
def clearOf : List Word → List Nat → Bool
  | w :: r, m :: q => decide (w &&& BitVec.ofNat 32 m = 0) && clearOf r q
  | _, _ => true

/-- The eight words of an entry. -/
def entWords (e : BitVec 256) : List Word := (List.range 8).map (fun i => BitVec.ofNat 32 (e.toNat >>> (32 * i)))

/-- An entry keeps the rules of R74. -/
def entryOk (e : BitVec 256) : Bool :=
  decide (4 ≤ eLenGr e) && clearOf (entWords e) entReserved &&
  !(eStream e && (decide (ePin e ≠ 0) || eJumpable e)) && (eLoopBegin e || decide (eLoopCount e = 0))

/-! ### Jump words, marker slots and NCO plans -/

/-- Condition word c of jump table t (R106). -/
def State.jumpWord (s : State) (t : Nat) (c : Nat) : Word := smGet (fun _ => 0) s.tabs.jump (16 * t + c)

/-- The same as a read made in tick `t` takes it: a write of that tick does not reach it (R109). -/
def State.jumpWordAt (s : State) (tick t c : Nat) : Word := s.oldWordAt tick (0xC00000 + 64 * t + 4 * c) (s.jumpWord t c)

/-- A condition word leads to a jump; MODE = 3 acts as EN = 0 (R107, R108). -/
def jwEn (w : Word) : Bool := w.getLsbD 31 && decide (fld w 30 29 ≠ 3)
def jwTarget (w : Word) : BitVec 17 := w.setWidth 17
def jwMode (w : Word) : JumpMode := if fld w 30 29 = 1 then .fret else if fld w 30 29 = 2 then .atEnd else .immediate

/-- Word 0 or 1 of slot k of marker profile p (R92). -/
def State.mkWord (s : State) (p k i : Nat) : Word := smGet (fun _ => 0) s.tabs.mkp (16 * p + 2 * k + i)

/-- The eight words of NCO plan entry p (R180). -/
def State.ncoPlan (s : State) (p : Nat) : BitVec 256 :=
  BitVec.ofNat 256 (joinWords ((List.range 8).map (fun i => smGet (fun _ => 0) s.tabs.nco (8 * p + i))))

/-- The same as a read made in tick `t` takes it: a write of that tick does not reach it (R183). -/
def State.ncoPlanAt (s : State) (t p : Nat) : BitVec 256 :=
  BitVec.ofNat 256 (joinWords ((List.range 8).map (fun i =>
    s.oldWordAt t (0xC40000 + 32 * p + 4 * i) (smGet (fun _ => 0) s.tabs.nco (8 * p + i)))))

/-! ### Lanes, groups and rates of a cluster -/

/-- The W lanes that a cluster binds, rising (R103). -/
def State.lanesOf (s : State) (n : Clu) : List Lane := (allFin 16).filter (fun w : Lane => s.clu[n].wBound.getLsbD w)

/-- The pin groups that a cluster binds, rising (R103). -/
def State.groupsOf (s : State) (n : Clu) : List Pg := (allFin 4).filter (fun g : Pg => s.clu[n].pgBound.getLsbD g)

def State.hasW (s : State) (n : Clu) : Bool := decide (s.clu[n].wBound ≠ 0)
def State.hasP (s : State) (n : Clu) : Bool := decide (s.clu[n].pgBound ≠ 0)

/-- A mixed cluster binds W lanes and pin groups (R80). -/
def State.mixed (s : State) (n : Clu) : Bool := s.hasW n && s.hasP n

/-- CLU_CFG.K and VEC_RATIO in force (R79, R80). -/
def State.kOf (s : State) (n : Clu) : Nat := s.effF (cluA n 4) 2 0
def State.mOf (s : State) (n : Clu) : Nat := s.effF (cluA n 4) 31 16

/-- The format that a lane acts as: FORMAT = 3 acts as REAL16 (R166). -/
def State.formatOf (s : State) (w : Lane) : Nat := let f := s.effF (wlA w 0) 1 0; if f = 3 then 0 else f

/-- Sample period Ts in fine units: 2^K / 3.2 GS/s, 1.25 times as long on the -20 grade (R79, R124, R167). -/
def sampleFu (grade20 : Bool) (k : Nat) : Nat := 2 ^ k * (if grade20 then 640 else 512)

def State.tsOf (s : State) (n : Clu) : Nat := sampleFu s.part.grade20 (s.kOf n)

/-- One modulator cycle in fine units: a sample lasts 8 × 2^K of them (R167). -/
def State.modFu (s : State) : Nat := if s.part.grade20 then 80 else 64

/-- The rate expander's delay in ticks: max(5 Ts, 40 ticks) (R26, R174). -/
def expanderTicks (grade20 : Bool) (k : Nat) : Nat := max (5 * sampleFu grade20 k / 1024) 40

/-- D_out in ticks (R174): 160 beside the expander, but 520 at K = 7 on the -20 grade, as R156, R174 and R233 print it, where R174's own
stages add up to 560 (DEDUCED, log 14). -/
def doutTicks (grade20 : Bool) (k : Nat) : Nat := if grade20 ∧ k = 7 then 520 else 160 + expanderTicks grade20 k

def State.doutOf (s : State) (n : Clu) : Nat := doutTicks s.part.grade20 (s.kOf n)

/-- The release lead D of a cluster in ticks: D_out, or 72 with pin groups only (R99). -/
def State.leadOf (s : State) (n : Clu) : Nat := if s.hasW n then s.doutOf n else 72

/-- The local latency L in ticks (R26, R27, R123, R124). -/
def State.latencyOf (s : State) (n : Clu) : Nat := if s.hasW n then 280 + expanderTicks s.part.grade20 (s.kOf n) else 320

/-- The match lead C in ticks (R233). -/
def State.matchLead (s : State) (n : Clu) : Nat := s.leadOf n + 48

/-- Round an instant in fine units up to a whole tick (R20, R241). -/
def upTick (fu : Nat) : Nat := (fu + 1023) / 1024

/-! ### Layouts and data objects (R77, R132) -/

/-- The layout of a cluster from the values in force (R132). -/
def State.layoutOf (s : State) (n : Clu) : Layout :=
  { wMask := s.clu[n].wBound
    formats := (s.lanesOf n).foldl (fun m (w : Lane) => m ||| BitVec.ofNat 32 (s.formatOf w <<< (2 * w.val))) 0
    pgMask := s.clu[n].pgBound, k := BitVec.ofNat 3 (s.kOf n)
    ratio := if s.mixed n then BitVec.ofNat 16 (s.mOf n) else 0 }

/-- One section of an object: its reader, the bytes per granule, its offset and its size in bytes (R77). -/
structure Section where
  reader : Fin 20
  perGr : Nat
  offset : Nat
  size : Nat
  deriving DecidableEq, Repr

/-- Bytes per granule of a W lane's format (R77). -/
def bytesPerGr (format : Nat) : Nat := if format = 1 then 96 else if format = 2 then 256 else 128

def Layout.hasW (l : Layout) : Bool := decide (l.wMask ≠ 0)
def Layout.hasP (l : Layout) : Bool := decide (l.pgMask ≠ 0)
def Layout.format (l : Layout) (w : Lane) : Nat := bitsOf l.formats.toNat (2 * w.val + 1) (2 * w.val)

/-- Pin-group granules of a play of LEN_GR granules (R71, R80). -/
def Layout.pgGranules (l : Layout) (len : Nat) : Nat := if l.hasW then len / l.ratio.toNat else len

/-- Round up to a multiple of 256. -/
def up256 (n : Nat) : Nat := (n + 255) / 256 * 256

/-- Readers, bytes per granule and granules of each section, in object order (R77). -/
def Layout.parts (l : Layout) (len : Nat) : List (Fin 20 × Nat × Nat) :=
  ((allFin 16).filter (fun w : Lane => l.wMask.getLsbD w)).map
    (fun w : Lane => (Fin.ofNat 20 w.val, bytesPerGr (l.format w), len)) ++
  ((allFin 4).filter (fun g : Pg => l.pgMask.getLsbD g)).map
    (fun g : Pg => (Fin.ofNat 20 (16 + g.val), 512, l.pgGranules len))

/-- Lay parts out one after another on 256-byte boundaries. -/
def layParts : Nat → List (Fin 20 × Nat × Nat) → List Section
  | _, [] => []
  | off, (r, b, g) :: rest =>
    { reader := r, perGr := b, offset := off, size := b * g } :: layParts (off + up256 (b * g)) rest

/-- The sections of an object under a layout (R77). -/
def Layout.sections (l : Layout) (len : Nat) : List Section := layParts 0 (l.parts len)

/-- The size of an object in bytes (R77). -/
def Layout.objectSize (l : Layout) (len : Nat) : Nat := ((l.sections len).map (fun x => up256 x.size)).sum

/-- The size of object space in bytes (R330). -/
def State.objSpace (s : State) : Nat := if s.dram.part.getLsbD 4 then 2 ^ 35 else 2 ^ 34

/-- A field of DRAM_PART by word and bits (R332). -/
def State.dramPart (s : State) (i hi lo : Nat) : Nat := bitsOf s.dram.part.toNat (32 * i + hi) (32 * i + lo)

/-- LEN_GR keeps R80 for a layout: a multiple of M and at least 4 M in a mixed cluster. -/
def Layout.lengthOk (l : Layout) (len : Nat) : Bool :=
  if l.hasW && l.hasP then decide (0 < l.ratio.toNat ∧ len % l.ratio.toNat = 0 ∧ 4 * l.ratio.toNat ≤ len) else true

/-- The data object keeps R78: inside object space, unless the segment is Hosted. -/
def State.rangeOk (s : State) (e : BitVec 256) (l : Layout) : Bool :=
  eStream e || decide (eObjBase e * 256 + l.objectSize (eLenGr e) ≤ s.objSpace)

/-- Length of a play of a cluster with W lanes, in fine units (R72). -/
def State.playFu (s : State) (n : Clu) (e : BitVec 256) : Nat := eLenGr e * 64 * s.tsOf n

/-- Vectors in a play on each pin group (R71, R80). -/
def State.playVectors (s : State) (n : Clu) (e : BitVec 256) : Nat := (s.layoutOf n).pgGranules (eLenGr e) * 64

/-- Fret spacing of a cluster with W lanes, in fine units (R81, R123). -/
def State.fretFu (s : State) (n : Clu) : Nat := 64 * s.tsOf n * (if s.mixed n then s.mOf n else 1)

/-! ### Matters of a cluster's play -/

/-- The lowest-numbered pin group of a cluster, whose vectors give the timeline of a cluster with no W lanes (R82). -/
def State.firstGroup (s : State) (n : Clu) : Option Pg := (s.groupsOf n).head?

end Sys2Proof.Machine
end

