-- ==== Sys2Proof/Machine/DramOps.lean ====
section
/-! DEFINITION. Object space in DRAM: the bytes (R494), the address map (R333) and the record of an escape (R349,
R350). -/
namespace Sys2Proof.Machine

/-- What an unlisted byte of object space reads as: a free value of the present contents (R494; log 3). -/
def State.dramDefault (s : State) : Nat → Byte := Config.dramByte s.dram.gen

/-- A byte of object space. -/
def State.dramByte (s : State) (a : Nat) : Byte := smGet s.dramDefault s.dram.cells a

/-- `n` bytes of object space from `a`. -/
def State.dramBytes (s : State) (a n : Nat) : List Byte := getBytes s.dramDefault s.dram.cells a n

/-- Write bytes of object space; `none` leaves a byte. -/
def State.dramWrite (s : State) (a : Nat) (l : List (Option Byte)) : State :=
  { s with dram := { s.dram with cells := putBytes s.dramDefault s.dram.cells a l } }

/-- The contents are lost: every byte is a new free value (R448, R494). -/
def State.dramLose (s : State) : State := { s with dram := { s.dram with cells := [], gen := s.dram.gen + 1 } }

def xorAll : List Nat → Nat
  | [] => 0
  | a :: r => a ^^^ xorAll r

/-- The channel of a byte address of object space (R333). -/
def chanOf (a : Nat) : Chan :=
  let b := a / 256
  Fin.ofNat 16 (xorAll ((List.range 7).map (fun i => b >>> (4 * i) % 16)))

/-- The row of a byte address (R333): b[25:11] or b[26:11]. -/
def State.rowOf (s : State) (a : Nat) : Nat := a / 256 / 2048 % (if s.dram.part.getLsbD 4 then 65536 else 32768)

/-- The bank of a byte address (R333). -/
def State.bankOf (s : State) (a : Nat) : Fin 16 := Fin.ofNat 16 ((a / 256 / 128 % 16) ^^^ (s.rowOf a % 16))

/-- The canonical address of a register of channel g (R354). -/
def chanA (g : Chan) (off : Nat) : Nat := drmA (0x100 + 0x20 * g.val + off)

/-- An EDC escape at a byte address by a master (R349, R350). -/
def State.escape (s : State) (a : Nat) (write : Bool) (src : Nat) : State :=
  let s1 := (s.count (chanA (chanOf a) 0xC) 1).setBit (drmA 0x24) (if write then 1 else 0)
  let s2 := { s1 with dram := { s1.dram with escAddr := BitVec.ofNat 64 a, escWrite := write, escSrc := BitVec.ofNat 6 src } }
  s2.report { cls := 7, cause := if write then 2 else 1, source := BitVec.ofNat 8 src, time := BitVec.ofNat 64 s.tb
              detail := BitVec.ofNat 32 (a / 64) }

/-! ### Rows, predictors and aggressors (R345 to R348) -/

/-- DRAM_CTRL.PAGE_POLICY in force is PREDICT (R348). -/
def State.predicts (s : State) : Bool := s.effB (drmA 0x10) 4

/-- N_LOG2 as it acts (R345, R353). -/
def State.nLog2 (s : State) : Nat :=
  let v := s.effF (drmA 0x14) 19 16
  if v = 0 then 16 else max 8 v

/-- An activate of a row: it becomes a pending aggressor with probability 1 / 2^N_LOG2 (R345; log 6); a full queue drops
it (R347). -/
def State.activate (s : State) (g : Chan) (bank : Fin 16) (row : Nat) : State :=
  if (s.effW (drmA 0x14)).getLsbD 31 then s
  else
    let k := s.dram.chans[g]
    let marked := decide ((Config.neighbourDraw s.part.deviceId g.val k.draws).toNat % 2 ^ s.nLog2 = 0)
    let s := s.modChan g (fun k => { k with draws := k.draws + 1 })
    if !marked then s
    else if 8 ≤ k.aggressors.length then (s.count (chanA g 0x18) 1).setBit (drmA 0x24) 8
    else s.modChan g (fun k => { k with aggressors := k.aggressors ++ [(bank, row)] })

/-- Memory clocks of the configured rate in ticks, rounded up: CK is the data rate / 8 (R330). -/
def State.memClocks (s : State) (n : Nat) : Nat :=
  match s.dramPart 0 1 0 with
  | 1 => (n * 16 + 14) / 15
  | 2 => (n * 32 + 34) / 35
  | _ => (n * 16 + 19) / 20

/-- A bank's PREDICT counter, 2 at training (R348). -/
def DramChan.predictor (k : DramChan) (bank : Fin 16) : Nat := smGet (fun _ => 2) k.predict bank.val

/-- PAGE_TIMER of a word of DRAM_CTRL in ticks, clamped (R348). -/
def State.timerTicks (s : State) (w : Word) : Nat := s.memClocks (max 16 (min 1024 (fld w 18 8)))

/-- PAGE_TIMER in force, in ticks (R348). -/
def State.pageTimer (s : State) : Nat := s.timerTicks (s.effW (drmA 0x10))

/-- The row that is open in a bank under a word of DRAM_CTRL: under TIMER it has closed once PAGE_TIMER has passed since the latest access
(R348). -/
def State.rowUnder (s : State) (w : Word) (g : Chan) (bank : Fin 16) : Option Nat :=
  let k := s.dram.chans[g]
  if w.getLsbD 4 || decide (s.clk.now < smGet (fun _ => 0) k.used bank.val + s.timerTicks w) then smFind k.rows bank.val else none

/-- The row that is open in a bank (R348). -/
def State.openRow (s : State) (g : Chan) (bank : Fin 16) : Option Nat := s.rowUnder (s.effW (drmA 0x10)) g bank

/-- Rows that TIMER has closed under a word of DRAM_CTRL are no longer held as open (R348). -/
def State.closeExpired (s : State) (w : Word) : State :=
  (allFin 16).foldl (fun s g =>
    let shut := (allFin 16).filter (fun b => (s.rowUnder w g b).isNone)
    s.modChan g (fun k => { k with rows := shut.foldl (fun r b => smErase r b.val) k.rows })) s

/-- An access to the row of a byte address: the open row changes, the predictor moves, and the page policy may close
the row (R348). -/
def State.bankAccess (s : State) (a : Nat) : State :=
  let g := chanOf a
  let bank := s.bankOf a
  let row := s.rowOf a
  let k := s.dram.chans[g]
  let open_ := s.openRow g bank
  let hit := decide (open_ = some row)
  let p := k.predictor bank
  let p1 := if hit then min 3 (p + 1) else if open_.isSome then p - 1 else p
  let s := if hit then s else s.activate g bank row
  s.modChan g (fun k => { k with
    used := smInsert k.used bank.val s.clk.now
    predict := smPut (fun _ => 2) k.predict bank.val p1
    rows := if s.predicts && decide (p1 < 2) then smErase k.rows bank.val else smInsert k.rows bank.val row })

/-! ### Places at a channel, and the order of issue (R338 to R340, R347) -/

/-- The channel of a unit address (R333). -/
def unitChan (u : Nat) : Chan := chanOf (u * 64)

/-- A channel has a place for an access (R338): of the 2,560 in all, best effort may use 2,048. -/
def DramChan.room (k : DramChan) (rt : Bool) : Bool := decide (k.rt + k.be < 2560) && (rt || decide (k.be < 2048))

/-- A channel gains or loses an access in flight (R354). -/
def DramChan.carry (k : DramChan) (rt : Bool) (more : Bool) : DramChan :=
  if rt then { k with rt := if more then k.rt + 1 else k.rt - 1 }
  else { k with be := if more then k.be + 1 else k.be - 1 }

/-- A time base is past a deadline: a signed 32-bit difference (R339). -/
def pastDeadline (tb : Nat) (deadline : BitVec 32) : Bool := decide (0 < (BitVec.ofNat 32 tb - deadline).toInt)

/-- NBR_GAP in ticks (R347, R353). -/
def State.nbrGap (s : State) : Nat := s.memClocks (max 64 (s.effF (drmA 0x18) 11 0))

/-- The row of an access is open (R339, R340, R348). -/
def State.rowHit (s : State) (x : InFlight) : Bool :=
  let b := x.tag.addr.toNat * 64
  decide (s.openRow (chanOf b) (s.bankOf b) = some (s.rowOf b))

/-- A real-time access has an earlier deadline than another, as signed 32-bit differences; one that had passed when it arrived counts as
the earliest (R339). -/
def InFlight.sooner (x y : InFlight) : Bool :=
  if x.passed || y.passed then x.passed && !y.passed else decide ((x.tag.deadline - y.tag.deadline).toInt < 0)

/-- The controller issues x before y, of which `first` says whether x arrived first (R339, R340): real time before best effort, then the
earlier deadline, then a row hit, then arrival. -/
def State.beats (s : State) (x y : InFlight) (first : Bool) : Bool :=
  if x.tag.rt ≠ y.tag.rt then x.tag.rt
  else if x.tag.rt && x.sooner y then true
  else if x.tag.rt && y.sooner x then false
  else if s.rowHit x ≠ s.rowHit y then s.rowHit x
  else first

/-- A neighbour refresh is due on a channel: it goes ahead of best effort (R347). -/
def State.nbrDue (s : State) (g : Chan) : Bool :=
  decide (s.dram.chans[g].aggressors ≠ []) && s.dram.chans[g].lastNbr.all (fun t => decide (t + s.nbrGap ≤ s.clk.now))

/-- The accesses in flight on a channel of which a list of slots says that they are ready, in order of arrival. -/
def State.readyOn (s : State) (g : Chan) (ready : List (Fin 1572864)) : List InFlight :=
  s.dram.inFlight.filter (fun y => decide (unitChan y.tag.addr.toNat = g) && ready.contains y.tag.dest)

/-! ### Retries (R349, R350) -/

/-- DRAM_EDC.RETRY_MAX as it acts (R349, R353). -/
def State.retryMax (s : State) : Nat := max 1 (s.effF (drmA 0x1C) 2 0)

/-- Retries of an access (R349, R350): each counts, at most RETRY_MAX. -/
def State.retries (s : State) (a : Nat) (o : EdcOutcome) : State :=
  match o with
  | .ok n => s.count (chanA (chanOf a) 8) (min n s.retryMax)
  | .escaped => s.count (chanA (chanOf a) 8) s.retryMax

/-- The 64 bytes of an escaped write: a free value each, held as written (R350, R494; log 3). -/
def State.smear (s : State) (a : Nat) : State :=
  let base := a / 64 * 64
  let s1 := s.dramWrite base ((List.range 64).map (fun i => some (Config.escapedByte s.freeN (base + i))))
  { s1 with freeN := s1.freeN + 1 }

end Sys2Proof.Machine
end

