-- ==== Sys2Proof/Machine/Regions.lean ====
section
/-! DEFINITION. Commands that a prepared block holds (R431, R432, R495), and the region words of the staging store
with their violations (R360, R362). -/
namespace Sys2Proof.Machine

/-! ### Holds (R428, R431 to R433, R495) -/

/-- Block `b` of R431 is prepared, and holds the commands listed there. -/
def State.prepared (s : State) (b : Fin 13) : Bool := s.pwr.prepared.contains b

/-- Hold a command until its block is released. -/
def State.hold (s : State) (i : Instr) : State := { s with pwr := { s.pwr with held := s.pwr.held ++ [i] } }

/-- A training of a configured device holds host traffic (R336); in a thaw BAR4 behaves as with READY = 0 (R440). -/
def State.trainingHolds (s : State) : Bool :=
  decide (s.dram.training = .retrain ∨ s.dram.training = .short) && decide (s.pwr.phase ≠ .thawing)

/-! ### Region words (R360 to R362) -/

/-- A region word in force. -/
def State.regionWord (s : State) (m r : Nat) : Word := s.effW (memA (0x1000 + 32 * m + 4 * r))

/-- A region covers a slot (R360). -/
def regionCovers (w : Word) (slot : Nat) : Bool :=
  decide (64 * fld w 14 0 ≤ slot ∧ slot ≤ 64 * fld w 29 15 + 63 ∧ fld w 14 0 ≤ fld w 29 15)

/-- An access by master m to a slot is allowed (R360). -/
def State.slotOk (s : State) (m slot : Nat) (write : Bool) : Bool :=
  decide (m = 41 ∨ m = 42) ||
    (List.range 8).any (fun r =>
      let w := s.regionWord m r
      regionCovers w slot && (if write then w.getLsbD 31 else w.getLsbD 30))

/-- A violation by master m (R362): counted and flagged; the first of a management tick is recorded. -/
def State.violate (s : State) (m slot : Nat) (write : Bool) : State :=
  let s := (s.count (memA (0x100 + 4 * m)) 1).setBit (memA (0x200 + 4 * (m / 32))) (m % 32)
  let seen := s.mem.violSeen.contains m
  let s := { s with mem := { s.mem with violAddr := BitVec.ofNat 21 slot, violWrite := write, violSrc := BitVec.ofNat 6 m
                                        violSeen := if seen then s.mem.violSeen else m :: s.mem.violSeen } }
  if seen then s
  else s.report { cls := 6, cause := if write then 2 else 1, source := BitVec.ofNat 8 m, time := BitVec.ofNat 64 s.tb
                  detail := BitVec.ofNat 32 slot }

end Sys2Proof.Machine
end

