-- ==== Sys2Proof/Machine/Arbiter.lean ====
section
/-! DEFINITION. The tiles of the staging store (R356 to R359) and what the tuning pass does at them (R363): the place of a slot, the
arbitration of a tile's port, and the spare buffer. -/
namespace Sys2Proof.Machine

def State.modMem (s : State) (f : Mem → Mem) : State := { s with mem := f s.mem }

/-! ### Places (R141, R356) -/

/-- The tile of a slot (R356). -/
def tileOf (slot : Nat) : Nat := slot % 96

/-- The row of a slot in its tile (R356). -/
def rowOfSlot (slot : Nat) : Nat := slot / 96

/-- The slot at a row of a tile (R356). -/
def slotAt (tile row : Nat) : Nat := 96 * row + tile

/-- The staging slot that holds a record of a group's ring: the rings take the start of the resident area (R141). -/
def State.ringSlot (s : State) (g : Pg) (rec : Nat) : Nat :=
  s.plc.headUnits * 64 + (((allFin 4).filter (fun h : Pg => decide (h < g))).map (fun h : Pg => s.pg[h].flSize / 2)).sum + rec / 2

/-- The group whose fail-log ring holds a slot, and the first of the two records there (R141, R231). -/
def State.ringAt (s : State) (slot : Nat) : Option (Pg × Nat) :=
  ((allFin 4).find? (fun g => decide (s.ringSlot g 0 ≤ slot ∧ slot < s.ringSlot g 0 + s.pg[g].flSize / 2))).map (fun g =>
    (g, 2 * (slot - s.ringSlot g 0)))

/-- The 64 bytes that an access to a slot reads: two records of a fail log, or the data of an access that was given the slot; else zero
(R154, R231, R366). -/
def State.slotBits (s : State) (slot : Nat) : BitVec 512 :=
  match s.ringAt slot with
  | some x => smGet (fun _ => (0 : BitVec 256)) s.pg[x.1].ring (x.2 + 1) ++ smGet (fun _ => (0 : BitVec 256)) s.pg[x.1].ring x.2
  | none => match smFind s.mem.slots slot with
    | some y => y.data
    | none => 0

/-! ### The test engine's accesses (R363) -/

/-- How many accesses of its tile each phase makes (R363). -/
def TunePhase.work : TunePhase → Nat
  | .idle => 0
  | .copy => 64
  | .test => 640
  | .restore => 64

/-- The accesses of the phase in progress that are still to be granted (R363). -/
def State.tuneLeft (s : State) : Nat := s.mem.tunePhase.work - s.mem.tuneDone

/-- A slot lies in a block: 64 rows of one tile (R363). -/
def inBlock (x : Fin 96 × Fin 256) (slot : Nat) : Bool := decide (tileOf slot = x.1.val ∧ rowOfSlot slot / 64 = x.2.val)

/-- A slot's accesses are redirected: the spare serves them (R363, R364). -/
def State.redirected (s : State) (slot : Nat) : Bool := s.mem.redirect.any (fun x => inBlock x slot)

/-- A write of a slot goes to the spare: one to a row already copied, or to a redirected block (R363). -/
def State.spareTakes (s : State) (slot : Nat) : Bool :=
  s.redirected slot ||
    (decide (s.mem.tunePhase = .copy ∧ rowOfSlot slot % 64 < s.mem.tuneDone) && inBlock (s.mem.tuneTile, s.mem.tuneBlock) slot)

/-- A write of a slot goes to its tile: outside a redirected block, or to a row already restored (R363). -/
def State.tileTakes (s : State) (slot : Nat) : Bool :=
  !s.redirected slot || decide (s.mem.tunePhase = .restore ∧ rowOfSlot slot % 64 < s.mem.tuneDone)

/-- The spare's row of a slot takes what the slot now reads as, where writes of the slot go to the spare (R363). -/
def State.spareFollow (s : State) (slot : Nat) : State :=
  if s.spareTakes slot then s.modMem (fun m => { m with spare := smPut (fun _ => 0) m.spare (rowOfSlot slot % 64) (s.slotBits slot) })
  else s

/-- The test engine asks for its next access of the block's tile, from tick `t` on, where its phase has one left (R363). -/
def State.tuneAsk (s : State) (t : Nat) : State :=
  if s.tuneLeft = 0 then s
  else s.modMem (fun m => { m with arb := smMod (fun _ => ({} : Arb)) m.arb m.tuneTile.val (fun b =>
    { b with waiting := b.waiting.filter (fun x => decide (x.1 ≠ 41)) ++ [(41, t)] }) })

/-- The test engine gives up its request (R364, R365). -/
def State.tuneUnask (s : State) : State :=
  s.modMem (fun m => { m with arb := smMod (fun _ => ({} : Arb)) m.arb m.tuneTile.val (fun b =>
    { b with waiting := b.waiting.filter (fun x => decide (x.1 ≠ 41)) }) })

/-- A grant of the test engine in tick `t`: in COPY the next row is copied to the spare; then it asks for the next access (R363). -/
def State.tuneGranted (s : State) (tile t : Nat) : State :=
  if s.mem.tuneTile.val ≠ tile ∨ s.tuneLeft = 0 then s
  else
    let row := s.mem.tuneDone
    let data := s.slotBits (slotAt tile (64 * s.mem.tuneBlock.val + row))
    let s := s.modMem (fun m => { m with
      spare := if m.tunePhase = .copy then smPut (fun _ => 0) m.spare row data else m.spare, tuneDone := m.tuneDone + 1 })
    s.tuneAsk (t + 1)

/-! ### Arbitration (R357 to R359) -/

/-- The class of a master (R357). -/
def masterClass (m : Nat) : Nat := if m < 20 then 0 else if m < 36 then 1 else if 37 ≤ m ∧ m < 41 then 2 else 3

/-- The class in which a request stands in a tick: one of class 3 joins class 2 after 256 ticks (R358). -/
def requestClass (t : Nat) (x : Fin 44 × Nat) : Nat :=
  let c := masterClass x.1.val
  if c = 3 ∧ x.2 + 256 ≤ t then 2 else c

/-- The least of some numbers. -/
def leastOf : List Nat → Option Nat
  | [] => none
  | a :: r => match leastOf r with
    | none => some a
    | some b => some (min a b)

/-- The request that a tile grants in a tick whose number is `num`, with its class: class 1 first at multiples of 8, else the lowest class,
in round-robin order of index within it (R358). -/
def Arb.grant (b : Arb) (t num : Nat) : Option ((Fin 44 × Nat) × Nat) :=
  let now := b.waiting.filter (fun x => decide (x.2 ≤ t))
  let cls := if num % 8 = 0 ∧ now.any (fun x => decide (requestClass t x = 1)) then some 1 else leastOf (now.map (requestClass t))
  match cls with
  | none => none
  | some c =>
    let ms := (now.filter (fun x => decide (requestClass t x = c))).map (fun x => x.1.val)
    let turn := b.turn.toList.getD c 0
    let m := match leastOf (ms.filter (fun m => decide (turn ≤ m))) with | some m => some m | none => leastOf ms
    (now.find? (fun x => decide (some x.1.val = m) && decide (requestClass t x = c))).map (fun x => (x, c))

/-- The masters that have a request waiting at a tile in a tick, each once. -/
def Arb.masters (b : Arb) (t : Nat) : List Nat :=
  (List.range 44).filter (fun m => b.waiting.any (fun x => decide (x.1.val = m ∧ x.2 ≤ t)))

/-- The first tick from which a tile has a request to grant; none where none waits. -/
def Arb.nextTick (b : Arb) : Option Nat := (leastOf (b.waiting.map Prod.snd)).map (fun t => max b.at_ t)

/-- One tick of a tile's arbitration: a grant, and a conflict for every other master that waits (R358, R359). -/
def State.arbTick (s : State) (tile t : Nat) : State × Option (Fin 44 × Nat) :=
  let b := smGet (fun _ => ({} : Arb)) s.mem.arb tile
  match b.grant t (s.tbAt t) with
  | none => (s, none)
  | some (x, c) =>
    let s := ((b.masters t).filter (fun m => decide (m ≠ x.1.val))).foldl (fun s m => s.count (memA (4 * m)) 1) (s.upto t)
    let b := { b with at_ := t + 1, waiting := b.waiting.erase x, turn := b.turn.setIfInBounds c (x.1.val + 1) }
    let s := s.modMem (fun m => { m with arb := smPut (fun _ => {}) m.arb tile b })
    (if x.1 = 41 then s.tuneGranted tile t else s, some x)

/-- A tile's arbitration, grant by grant, until it grants a request: the state, and the tick of that grant. -/
def State.arbRun (s : State) (tile : Nat) (x : Fin 44 × Nat) : Nat → State × Nat
  | 0 => (s, s.clk.now)
  | fuel + 1 =>
    match (smGet (fun _ => ({} : Arb)) s.mem.arb tile).nextTick with
    | none => (s, s.clk.now)
    | some t =>
      let r := s.arbTick tile t
      if r.2 = some x then (r.1, t) else r.1.arbRun tile x fuel

/-- A master's request at a tile at tick `t`, with requests of others that are not known yet: the state at its grant, and that tick. -/
def State.tileGrant (s : State) (tile : Nat) (m : Fin 44) (t : Nat) (rivals : List (Fin 44 × Nat)) : State × Nat :=
  let b := smGet (fun _ => ({} : Arb)) s.mem.arb tile
  let told := b.waiting ++ rivals.filter (fun x => decide (b.at_ ≤ x.2))
  let mine := (m, t)
  let all := if told.contains mine then told else told ++ [mine]
  let s := s.modMem (fun m => { m with arb := smPut (fun _ => {}) m.arb tile { b with waiting := all } })
  s.arbRun tile mine (all.length + s.tuneLeft)

/-- A master reads or writes a slot from the present tick on: the state at the grant, in its tick (R358). -/
def State.slotGrant (s : State) (m : Fin 44) (slot : Nat) : State :=
  let r := s.tileGrant (tileOf slot) m s.clk.now []
  r.1.upto r.2

/-- A reader's request at a slot in a tick that may lie behind the present one: a tile that has gone on from that tick has been told of it
(R358, R359). -/
def State.readerAsks (s : State) (r : Fin 20) (slot t : Nat) : State :=
  if (smGet (fun _ => ({} : Arb)) s.mem.arb (tileOf slot)).at_ ≤ t then
    let now := s.clk.now
    let s := (s.tileGrant (tileOf slot) (Fin.ofNat 44 r.val) t []).1
    { s with clk := { s.clk with now := now } }
  else s

/-- The test engine makes the accesses of its phase that are left, as its tile grants them: the state at the last grant (R363). -/
def State.tuneRun (s : State) : Nat → State
  | 0 => s
  | fuel + 1 =>
    if s.tuneLeft = 0 then s
    else match (smGet (fun _ => ({} : Arb)) s.mem.arb s.mem.tuneTile.val).nextTick with
      | none => s
      | some t => (s.arbTick s.mem.tuneTile.val t).1.tuneRun fuel

/-- The same for all of them. -/
def State.tuneFinish (s : State) : State :=
  s.tuneRun ((smGet (fun _ => ({} : Arb)) s.mem.arb s.mem.tuneTile.val).waiting.length + s.tuneLeft)

end Sys2Proof.Machine
end

