-- ==== Sys2Proof/Machine/Streams.lean ====
section
/-! DEFINITION. Stream contexts and their rings (R382 to R396): opening, descriptors, landing, objects taken and
released by Hosted commits, low water and closing. -/
namespace Sys2Proof.Machine

/-- Ring size in 64-byte units (R382). -/
def Stream.ringUnits (c : Stream) : Nat := c.units.length * 16384

/-- FILL: landed less released, 64-byte units (R388). -/
def Stream.fill (c : Stream) : Nat := (c.landed - c.released).toNat

/-- How many of some units from a ring position have landed (R388). -/
def Stream.landedOf (k : Stream) (pos size : Nat) : Nat := min size (k.landed - BitVec.ofNat 32 pos).toInt.toNat

/-- Units from a ring position are freed: RELEASED counts those that have landed, and the others as they land (R388, R390). -/
def Stream.free (k : Stream) (pos size : Nat) : Stream :=
  let n := k.landedOf pos size
  { k with released := k.released + BitVec.ofNat 32 n, passed := if n < size then k.passed ++ [(pos + n, size - n)] else k.passed }

/-- Units land in order: those that a released object had left behind are freed at once (R388, R390). -/
def Stream.land (k : Stream) (n : Nat) : Stream :=
  let old := k.passed
  let on := { k with landed := k.landed + BitVec.ofNat 32 n, passed := [] }
  old.foldl (fun k x => k.free x.1 x.2) on

/-- The object-space byte address of a ring position in 64-byte units (R382, R388). -/
def State.ringAddr (s : State) (c : Ctx) (pos : Nat) : Nat :=
  let k := s.host.ctxs[c]
  let u := pos % 2 ^ 32 % k.ringUnits
  (s.dramPart 13 15 0 + (k.units[u / 16384]?).getD 0) * 2 ^ 20 + (u % 16384) * 64

/-- LOW_WATER in units of 64 bytes (R393, R398). -/
def State.lowUnits (s : State) (c : Ctx) : Nat := s.effF (ctxA c 0x20) 18 0 * 16

/-- Low water (R393): the flag sets at the first tick in which an OPEN context has FILL below the mark. -/
def State.lowWater (s : State) (c : Ctx) : State :=
  let k := s.host.ctxs[c]
  let w := s.lowUnits c
  if w = 0 then s
  else if w ≤ k.fill then s.modCtx c (fun k => { k with lowArmed := true })
  else if k.state = .opened ∧ k.lowArmed then
    ((s.modCtx c (fun k => { k with lowArmed := false })).setBit (ctxA c 0x28) 0).count (ctxA c 0x38) 1
  else s

/-- Return a context's units to the pool and clear what CLOSED clears (R395, R399). -/
def State.ctxClear (s : State) (c : Ctx) : State :=
  let k := s.host.ctxs[c]
  let s1 := s.modCtx c (fun _ => { err := k.err })
  { s1 with host := { s1.host with poolFree := s1.host.poolFree ++ k.units } }

/-- A CLOSING context whose last committed object is released closes (R395). -/
def State.ctxCloseIfDone (s : State) (c : Ctx) : State :=
  let k := s.host.ctxs[c]
  if k.state = .closing ∧ k.objs = [] then (s.ctxClear c).setBit (ctxA c 0x28) 5 else s

/-- A cluster holds an object of a context that it took in the present tick. -/
def State.tookNow (s : State) (c : Ctx) (m : Clu) : Bool := s.clu[m].hosted.any (fun o => decide (o.ctx = c ∧ o.at_ = s.clk.now))

/-- A commit of cluster n to a Hosted entry takes the next object of its context's ring (R389). Of clusters whose segment starts fall in
one tick the lower-numbered takes first, whichever comes first here: objects that higher ones have taken in this tick move on by one. -/
def State.takeObject (s : State) (n : Clu) (e : BitVec 256) : State :=
  if !eStream e then s else
  let c := eStrmCtx e
  let k := s.host.ctxs[c]
  let size := (s.layoutOf n).objectSize (eLenGr e) / 64
  if k.state = .opened ∨ k.state = .error then
    let later := (allFin 8).filter (fun m => decide (n < m) && s.tookNow c m)
    let pos := (later.filterMap (fun m => s.clu[m].hosted)).foldl (fun a o => min a o.pos) k.taken
    let s1 := s.modCtx c (fun k => { k with taken := k.taken + size, objs := k.objs ++ [(n, size)] })
    let s2 := later.foldl (fun s m => s.modClu m (fun q => { q with hosted := q.hosted.map (fun o => { o with pos := o.pos + size }) })) s1
    s2.modClu n (fun q => { q with hosted := some { ctx := c, pos := pos, size := size, at_ := s.clk.now } })
  else s.modClu n (fun q => { q with hosted := some { ctx := c, pos := k.taken, size := 0 } })

/-- Drop the first object that cluster n holds. -/
def dropObj (n : Clu) : List (Clu × Nat) → List (Clu × Nat)
  | [] => []
  | x :: r => if x.1 = n then r else x :: dropObj n r

/-- The object of the commit that cluster n leaves is released at once (R390, R395). -/
def State.releaseObject (s : State) (n : Clu) : State :=
  match s.clu[n].hosted with
  | none => s
  | some o =>
    let s1 := s.modClu n (fun q => { q with hosted := none })
    if s1.host.ctxs[o.ctx].objs.any (fun x => decide (x.1 = n)) then
      let s2 := s1.modCtx o.ctx (fun k => { k with objs := dropObj n k.objs }.free o.pos o.size)
      (s2.lowWater o.ctx).ctxCloseIfDone o.ctx
    else s1

/-! ### Commands -/

/-- The first failing check of an OPEN (R384); 0 where it passes. -/
def State.openCheck (s : State) (c : Ctx) : Nat :=
  let w := s.settledW (ctxA c 4)
  let ring := fld w 8 0
  let log2 := fld w 20 16
  if !s.configured then 1
  else if s.host.ctxs[c].state ≠ .closed then 2
  else if ring < 1 ∨ 256 < ring ∨ log2 < 4 ∨ 16 < log2 ∨ fld (s.settledW (ctxA c 8)) 5 0 ≠ 0 ∨
    (w.getLsbD 24 ∧ fld (s.settledW (ctxA c 0x10)) 1 0 ≠ 0) then 3
  else if s.host.poolFree.length < ring then 4
  else 0

/-- The fields whose boundary is Open take effect (R399). -/
def State.applyOpen (s : State) (c : Ctx) : State :=
  [4, 8, 0xC, 0x10, 0x14].foldl (fun s o => s.applyDue (ctxA c o) (~~~0)) s

/-- STRM_OPEN (R384): taken at a management tick; with CLOSE written beside it, CLOSE acts alone. -/
def execStrmOpen (c : Ctx) (s : State) : Host.Outcome State Fault Refusal :=
  s.guarded fun s =>
    let a := ctxA c 0
    let both := (s.cmdWord a).getLsbD 1
    if !both && s.prepared 8 then s.hold (.strmOpen c) else
    let s := s.cmdTake a 1
    if both then s else
    let code := s.openCheck c
    if code ≠ 0 then
      (s.modCtx c (fun k => { k with err := BitVec.ofNat 4 code })).setBit (ctxA c 0x28) 3
    else
      let s := s.applyOpen c
      let ring := s.effF (ctxA c 4) 8 0
      let units := s.host.poolFree.take ring
      let s := { s with host := { s.host with poolFree := s.host.poolFree.drop ring } }
      ((s.modCtx c (fun k => { state := .opened, err := k.err, units := units })).setBit (ctxA c 0x28) 4).lowWater c

/-- STRM_CLOSE (R394, R395): what has landed outside every committed object is freed, and stream DMA stops after the piece in transmission,
which is the next one of the oldest descriptor. -/
def execStrmClose (c : Ctx) (s : State) : Host.Outcome State Fault Refusal :=
  s.guarded fun s =>
    let s := s.cmdTake (ctxA c 0) 3
    let k := s.host.ctxs[c]
    if k.state = .opened ∨ k.state = .error then
      let loose := (k.landed - BitVec.ofNat 32 k.taken).toInt.toNat
      (s.modCtx c (fun k => { k with
        state := .closing, lastPiece := if k.state = .opened then k.descs.head? else none, descs := [], badDesc := 0, passed := []
        released := k.released + BitVec.ofNat 32 loose })).ctxCloseIfDone c
    else s.setBit (ctxA c 0x28) 6

/-- Descriptors that the device owns: from HEAD to TAIL - 1 (R386). -/
def State.owned (s : State) (c : Ctx) : Nat :=
  let k := s.host.ctxs[c]
  let size := 2 ^ s.effF (ctxA c 4) 20 16
  (k.tail.toNat + size - k.head.toNat % size) % size

/-- STRM_TAIL_WRITE (R386): a TAIL that names fewer descriptors than the device owns is ignored with TAIL_BAD. -/
def execStrmTailWrite (c : Ctx) (v : BitVec 16) (s : State) : Host.Outcome State Fault Refusal :=
  s.guarded fun s =>
    let size := 2 ^ s.effF (ctxA c 4) 20 16
    let new := (v.toNat % size + size - s.host.ctxs[c].head.toNat % size) % size
    if new < s.owned c then s.setBit (ctxA c 0x28) 7
    else s.modCtx c (fun k => { k with tail := BitVec.ofNat 16 (v.toNat % size) })

/-- Stream DMA runs: bus mastering on, and the function in D0 (R391). -/
def State.dmaOn (s : State) : Bool := s.host.bme && !s.host.d3hot

/-- The first fault of a descriptor (R385, R392); 0 where it is good. -/
def descCheck (d : Descriptor) : Nat :=
  if fld d.addrLo 5 0 ≠ 0 then 5
  else if d.len = 0 ∨ fld d.len 5 0 ≠ 0 ∨ 16777216 < d.len.toNat then 6
  else if fld d.flags 30 0 ≠ 0 then 7
  else 0

/-- A context goes into ERROR (R392). -/
def State.ctxError (s : State) (c : Ctx) (code : Nat) : State :=
  (s.modCtx c (fun k => { k with state := .error, err := BitVec.ofNat 4 code, descs := [], badDesc := 0, pieceDone := 0 })).setBit
    (ctxA c 0x28) 2

/-- Take descriptors in order up to the first that breaks R385; the code of that one. -/
def goodDescs : List Descriptor → List Descriptor × Nat
  | [] => ([], 0)
  | d :: r => if descCheck d ≠ 0 then ([], descCheck d) else let x := goodDescs r; (d :: x.1, x.2)

/-- A bad descriptor stops the stream once every good one before it has completed: HEAD then stands at it (R392; DEDUCED, log 15). -/
def State.ctxBad (s : State) (c : Ctx) : State :=
  let k := s.host.ctxs[c]
  if k.badDesc ≠ 0 ∧ k.descs = [] then s.ctxError c k.badDesc.toNat else s

/-- The number of descriptors in a context's ring (R385). -/
def State.descCount (s : State) (c : Ctx) : Nat := 2 ^ s.effF (ctxA c 4) 20 16

/-- A host address in force in an aligned pair of words (R385, R387, R404). -/
def State.hostAddr (s : State) (a : Nat) : BitVec 64 := s.effW (a + 4) ++ s.effW a

/-- The index of the descriptor that the device reads next: they are read in ascending order, once each (R386). -/
def State.descNext (s : State) (c : Ctx) : Nat :=
  let k := s.host.ctxs[c]
  (k.head.toNat + k.descs.length) % s.descCount c

/-- The host address of descriptor i: DESC_BASE + 16i (R385). -/
def State.descAddr (s : State) (c : Ctx) (i : Nat) : BitVec 64 := s.hostAddr (ctxA c 8) + BitVec.ofNat 64 (16 * i)

/-- A descriptor: four little-endian words of its 16 bytes (R385). -/
def descOf (l : List Byte) : Descriptor :=
  let w := fun i => BitVec.ofNat 32 (leNat ((l.drop (4 * i)).take 4))
  { addrLo := w 0, addrHi := w 1, len := w 2, flags := w 3 }

/-- The descriptors of n times 16 bytes, in order. -/
def descsOf : Nat → List Byte → List Descriptor
  | 0, _ => []
  | n + 1, l => descOf l :: descsOf n (l.drop 16)

/-- DESC_FETCH (R385, R386, R392): the bytes of a batch of up to 16 owned descriptors, as read at the address of the next one and no further
than the ring's end; each is read once, and none follows a bad one. -/
def execDescFetch (c : Ctx) (read : DescRead) (s : State) : Host.Outcome State Fault Refusal :=
  s.guarded fun s =>
    let k := s.host.ctxs[c]
    let i := s.descNext c
    if k.state ≠ .opened ∨ !s.dmaOn ∨ k.badDesc ≠ 0 ∨ read.addr ≠ s.descAddr c i then s else
    let room := min (s.owned c - k.descs.length) (s.descCount c - i)
    let x := goodDescs (descsOf (min (min 16 room) (read.bytes.length / 16)) read.bytes)
    (s.modCtx c (fun k => { k with descs := k.descs ++ x.1, badDesc := BitVec.ofNat 4 x.2 })).ctxBad c

/-- The oldest descriptor completes (R387): HEAD, its writeback to WB_ADDR, and DESC_DONE. -/
def State.descComplete (s : State) (c : Ctx) (d : Descriptor) : State :=
  let head := BitVec.ofNat 16 ((s.host.ctxs[c].head.toNat + 1) % s.descCount c)
  let wb := s.effB (ctxA c 4) 24
  let s1 := s.modCtx c (fun k => { k with
    head := head, descs := k.descs.tail, pieceDone := 0
    wbHead := if wb then some (s.hostAddr (ctxA c 0x10), head.setWidth 32) else k.wbHead })
  s1.setBitIf (d.flags.getLsbD 31) (ctxA c 0x28) 1

/-! ### Accesses of master 36 (R348 to R350, R379, R387) -/

/-- The 64-byte units that n bytes at a touch, rising. -/
def unitsOf (a n : Nat) : List Nat := (List.range ((a % 64 + n + 63) / 64)).map (a / 64 + ·)

/-- Units with the outcome of each one's access; one that is not listed ends clean. -/
def withEdc (us : List Nat) (edc : List EdcOutcome) : List (Nat × EdcOutcome) :=
  (List.range us.length).map (fun i => ((us[i]?).getD 0, (edc[i]?).getD (.ok 0)))

/-- The accesses of master 36 at DRAM: of a host request, or of stream DMA (R348 to R350, R357). -/
def State.hostAccesses (s : State) (l : List (Nat × EdcOutcome)) : State :=
  l.foldl (fun s x => (s.bankAccess (x.1 * 64)).retries (x.1 * 64) x.2) s

/-- The byte addresses of the accesses that escaped. -/
def escapesOf (l : List (Nat × EdcOutcome)) : List Nat := (l.filter (fun x => decide (x.2 = .escaped))).map (fun x => x.1 * 64)

/-- The units of writes that escaped: 64 undefined bytes each, and the records of it (R350). -/
def State.writeEscapes (s : State) (l : List Nat) : State := l.foldl (fun s x => (s.smear x).escape x true 36) s

/-- An access of master 36 as its channel takes it: best effort, and the latest to arrive there (R338, R340, R357). -/
def State.hostFlight (s : State) (unit : Nat) : InFlight :=
  { tag := { dest := 0, rt := false, deadline := 0, src := 36, addr := BitVec.ofNat 30 unit, entry := none }, issued := s.clk.now }

/-- The accesses of a host request, or of a piece, can be made: each finds a place at its channel, and neither a neighbour refresh that is due
nor an access that is ready there goes first. Where they cannot, they wait (R338, R340, R347). -/
def State.hostGoes (s : State) (l : List (Nat × EdcOutcome)) (ready : List (Fin 1572864)) : Bool :=
  l.all (fun x =>
    let g := unitChan x.1
    s.dram.chans[g].room false && !s.nbrDue g && (s.readyOn g ready).all (fun y => s.beats (s.hostFlight x.1) y false))

/-- Write landed bytes into the ring, unit by unit (R387, R388). -/
def ringWrite (s : State) (c : Ctx) : Nat → Nat → List Byte → State
  | 0, _, _ => s
  | k + 1, pos, l => ringWrite (s.dramWrite (s.ringAddr c pos) ((l.take 64).map some)) c k (pos + 1) (l.drop 64)

/-- The descriptor whose next piece lands: the oldest of an OPEN context, or that of the piece which was in transmission at CLOSE (R387,
R394). -/
def Stream.pieceOf (k : Stream) : Option Descriptor :=
  if k.state = .opened then k.descs.head? else if k.state = .closing then k.lastPiece else none

/-- How many of the n units of a piece the ring takes: all in OPEN, and in CLOSING those of objects already committed (R394). -/
def Stream.takes (k : Stream) (n : Nat) : Nat := if k.state = .opened then n else min n (BitVec.ofNat 32 k.taken - k.landed).toInt.toNat

/-- A piece can be the next one of a descriptor: whole units, at most 4 KB, within the descriptor's data and the ring's room (R387). -/
def Stream.fits (k : Stream) (d : Descriptor) (len : Nat) : Bool :=
  decide (0 < len ∧ len % 64 = 0 ∧ len ≤ 4096 ∧ k.pieceDone + len ≤ d.len.toNat ∧ k.fill + len / 64 ≤ k.ringUnits)

/-- STREAM_PIECE_LAND (R336, R350, R387, R388, R391, R393, R394): the next piece of a descriptor has reached the ring. Stream DMA pauses with
BME_OFF, and a training or READY = 0 holds it. -/
def execStreamPieceLand (c : Ctx) (piece : Piece) (s : State) : Host.Outcome State Fault Refusal :=
  s.guarded fun s =>
    let k := s.host.ctxs[c]
    match k.pieceOf with
    | none => s
    | some d =>
      let len := piece.bytes.length
      let n := k.takes (len / 64)
      let acc := withEdc ((List.range n).map (fun i => s.ringAddr c (k.landed.toNat + i) / 64)) piece.edc
      if !k.fits d len || !s.dmaOn || !s.dram.ready || !s.hostGoes acc piece.ready then s
      else
        let s := (ringWrite (s.hostAccesses acc) c n k.landed.toNat piece.bytes).writeEscapes (escapesOf acc)
        let s := s.modCtx c (fun k => { k with pieceDone := k.pieceDone + len, lastPiece := none }.land n)
        let s := if n = len / 64 ∧ k.pieceDone + len = d.len.toNat then (s.descComplete c d).ctxBad c else s
        s.lowWater c

/-- STREAM_DMA_ERROR (R392): code 0 to 3 stands for DESC_ADDR, DESC_LEN, DESC_RSVD and DMA. -/
def execStreamDmaError (c : Ctx) (code : Fin 4) (s : State) : Host.Outcome State Fault Refusal :=
  s.guarded fun s => if s.host.ctxs[c].state = .opened then s.ctxError c (5 + code.val) else s

/-- BME_CHANGE (R374, R391): stream DMA pauses with BME_OFF, or resumes, and vectors that wait may be sent (R378). -/
def execBmeChange (t : Nat) (bme d3hot : Bool) (s : State) : Host.Outcome State Fault Refusal :=
  s.guarded fun s =>
    let s := s.upto t
    let s := { s with host := { s.host with bme := bme, d3hot := d3hot } }
    (s.setBitIf (!s.dmaOn) (hostA 4) 1).sendVectors

/-- Clear STRM_LOW_COUNT of every context (R397, R399). -/
def execHostCntClr (s : State) : Host.Outcome State Fault Refusal :=
  s.guarded fun s => s.clearCtrs ((List.range 64).map (fun c => 0x71000 + 0x40 * c + 0x38))

/-- INT_PEND_CLEAR (R378): a bit that hardware sets in the same tick stays set. -/
def execIntPendClear (word : Fin 3) (mask : Word) (s : State) : Host.Outcome State Fault Refusal :=
  s.guarded fun s => s.clearFlag (hostA (0x400 + 4 * word.val)) mask

/-! ### BAR4 (R379 to R381) -/

/-- Where a BAR4 access at a falls, in order of precedence (R379). -/
inductive Bar4Zone where
  | down | range | park | pool | data
  deriving DecidableEq, Repr

/-- The zone of one byte address (R379, R332, R334, R382); in a thaw as with READY = 0 (R440). -/
def State.bar4Zone (s : State) (a : Nat) : Bar4Zone :=
  let mb := a / 2 ^ 20
  let park := s.dramPart 12 15 0
  let pool := s.dramPart 13 15 0
  if !s.configured ∨ !s.dram.ready ∨ s.pwr.phase = .thawing then .down
  else if s.objSpace ≤ a then .range
  else if park ≤ mb ∧ mb < park + 8 then .park
  else if pool ≤ mb ∧ mb < pool + s.dramPart 14 15 0 then .pool
  else .data

/-- The flags that accesses to a zone set (R334, R379). -/
def State.zoneFlag (s : State) (z : Bar4Zone) (write : Bool) : State :=
  match z with
  | .range => s.setBit (hostA 4) 0
  | .park => s.setBitIf write (drmA 0x24) 7
  | .pool => s.setBit (hostA 4) 3
  | _ => s

/-- The zones that an access of n bytes at a touches. -/
def State.zonesOf (s : State) (a n : Nat) : List Bar4Zone := ((List.range n).map (fun i => s.bar4Zone (a + i))).dedup

/-- A byte as host reads find it: every earlier host write to it counts, drained or not (R341, R379). -/
def State.hostByte (s : State) (a : Nat) : Byte :=
  s.host.writes.foldl (fun b w =>
    match w.bytes[a - w.addr]? with
    | some (some x) => if w.addr ≤ a then x else b
    | _ => b) (s.dramByte a)

/-- BAR4_READ (R338, R340, R349, R379): each byte reads as its zone gives it, once the accesses of the request are made; an escape completes
with all-ones data. -/
def execBar4Read (addr : BitVec 35) (len : Nat) (round : HostRound) (s : State) : Host.Outcome State Fault Refusal :=
  s.guarded fun s =>
    if s.trainingHolds && !s.hostCut then s.hold (.bar4Read addr len round) else
    if s.hostCut then { s with host := { s.host with bar4Data := List.replicate len 0xFF#8 } } else
    let a := addr.toNat
    let zs := s.zonesOf a len
    let acc := withEdc ((unitsOf a len).filter (fun u => decide (s.bar4Zone (u * 64) = .data))) round.edc
    if !s.hostGoes acc round.ready then s else
    let s := zs.foldl (fun s z => s.zoneFlag z false) s
    let esc := escapesOf acc
    let byte := fun i => if s.bar4Zone (a + i) = .data ∧ esc = [] then s.hostByte (a + i) else 0xFF#8
    let bytes := (List.range len).map byte
    let s := esc.foldl (fun s x => s.escape x false 36) (s.hostAccesses acc)
    { s with host := { s.host with bar4Data := bytes } }

/-- The oldest accepted writes that R379 discards count as drained at once (R381). -/
def State.settleWrites (s : State) : State :=
  let gone := s.host.writes.takeWhile HostWrite.discard
  { s with host := { s.host with writes := s.host.writes.dropWhile HostWrite.discard
                                 wrDrained := s.host.wrDrained + BitVec.ofNat 32 gone.length } }

/-- BAR4_WRITE (R381): the request is accepted and waits to drain; bytes outside the data zone are discarded
(R379). -/
def execBar4Write (addr : BitVec 35) (bytes : List (Option Byte)) (s : State) : Host.Outcome State Fault Refusal :=
  s.guarded fun s =>
    if s.hostCut then s else
    if s.trainingHolds then s.hold (.bar4Write addr bytes) else
    let a := addr.toNat
    let zs := s.zonesOf a bytes.length
    let s := zs.foldl (fun s z => s.zoneFlag z true) s
    let kept := (List.zip (List.range bytes.length) bytes).map
      (fun x => if s.bar4Zone (a + x.1) = .data then x.2 else none)
    let w : HostWrite := { addr := a, bytes := kept, discard := !zs.contains .data }
    { s with host := { s.host with writes := s.host.writes ++ [w], wrAccepted := s.host.wrAccepted + 1 } }.settleWrites

/-- The units of a write that it puts data into. -/
def HostWrite.units (w : HostWrite) : List Nat :=
  (unitsOf w.addr w.bytes.length).filter (fun u =>
    (List.range w.bytes.length).any (fun i => decide ((w.addr + i) / 64 = u) && ((w.bytes[i]?).getD none).isSome))

/-- The oldest accepted write reaches DRAM (R350, R381): the 64 bytes of an access that escapes are left undefined. -/
def State.drain (s : State) (edc : List EdcOutcome) : State :=
  match s.host.writes with
  | [] => s
  | w :: r =>
    let s := { s with host := { s.host with writes := r, wrDrained := s.host.wrDrained + 1 } }
    let acc := withEdc w.units edc
    let s := (s.hostAccesses acc).dramWrite w.addr w.bytes
    (s.writeEscapes (escapesOf acc)).settleWrites

/-- The accesses of the oldest accepted write, with what the EDC says of each. -/
def State.drainAccesses (s : State) (edc : List EdcOutcome) : List (Nat × EdcOutcome) :=
  match s.host.writes with
  | [] => []
  | w :: _ => withEdc w.units edc

/-- BAR4_WRITE_DRAIN (R336, R338, R340, R350, R381): best-effort traffic that a training, or READY = 0, holds. -/
def execBar4WriteDrain (round : HostRound) (s : State) : Host.Outcome State Fault Refusal :=
  s.guarded fun s => if s.dram.ready && s.hostGoes (s.drainAccesses round.edc) round.ready then s.drain round.edc else s

end Sys2Proof.Machine
end

