-- ==== Sys2Proof/Machine/Vectors.lean ====
section
/-! DEFINITION. Staged data and the vectors of a play (R154, R156, R216, R219, R240, R250): where a sample or a vector
word lies, the timing set that a vector selects, and the timeline that follows from the periods. -/
namespace Sys2Proof.Machine

/-! ### Plays -/

/-- A play of a cluster, in progress or still to come: its entry, its start in fine units, its number, which staged copy of the entry it
takes (R135), and the ring object of a Hosted one (R389). What follows from it: with pin groups only the periods of the vectors just before
it (R156), the loop stack, how many further plays the commit brings (none: no end), whether it is a commit's first, and the ring objects
that plays from the present one up to it take. -/
structure Play where
  idx : BitVec 17
  entry : BitVec 256
  start : Nat
  no : Nat
  age : Nat
  obj : Option HostedObj
  tail : List Nat := []
  stack : List Frame := []
  left : Option Nat := some 0
  fresh : Bool := false
  took : List (Ctx × Nat) := []
  deriving DecidableEq, Repr

/-- The play in progress. -/
def State.playNow (s : State) (n : Clu) : Play :=
  let k := s.clu[n]
  { idx := k.seg, entry := k.entry, start := k.playStart, no := k.playNo, age := k.copyAge, obj := k.hosted
    stack := if k.resetPark.isSome then k.outStack else k.stack }

/-! ### Staged data (R153, R154) -/

/-- Whether a slot of the staged copy of an entry that is `age` publishes old holds the unit, landed (R135, R154). -/
def State.unitLanded (s : State) (i age u : Nat) : Bool :=
  s.mem.slots.any (fun x => x.2.landed && decide (x.2.addr.toNat = u ∧ x.2.entry = some (BitVec.ofNat 17 i) ∧ x.2.age = age))

/-- A slot holds data that a play of a cluster takes: the play's copy of the entry, or what an access fetched for that play (R135,
R156, R157). -/
def Slot.serves (x : Slot) (n : Clu) (p : Play) : Bool :=
  match x.entry with
  | some j => decide (j = p.idx ∧ x.age = p.age)
  | none => decide (x.play = some (n, p.no))

/-- Of two slots that serve, the reader takes the one that landed last (DEDUCED, log 16). -/
def bestSlot : List Slot → Option Slot
  | [] => none
  | x :: r => match bestSlot r with
    | none => some x
    | some y => if x.landedAt < y.landedAt then some y else some x

/-- A slot that a reader finds landed with the unit: a read that its regions block counts as not landed (R362). -/
def State.readerSlot (s : State) (n : Clu) (p : Play) (r : Fin 20) (u : Nat) : Option Slot :=
  bestSlot ((s.mem.slots.filter (fun x =>
    x.2.landed && decide (x.2.addr.toNat = u) && x.2.serves n p && s.slotOk r.val x.1 false)).map Prod.snd)

/-- A landed slot of the unit that the reader's regions block. -/
def State.blockedSlot (s : State) (n : Clu) (p : Play) (r : Fin 20) (u : Nat) : Option Nat :=
  (s.mem.slots.find? (fun x =>
    x.2.landed && decide (x.2.addr.toNat = u) && x.2.serves n p && !s.slotOk r.val x.1 false)).map Prod.fst

/-- Whether the unit had landed for a reader by a tick (R157). -/
def State.landedBy (s : State) (n : Clu) (p : Play) (r : Fin 20) (u t : Nat) : Bool :=
  s.mem.slots.any (fun x => x.2.landed && decide (x.2.addr.toNat = u ∧ x.2.landedAt ≤ t) && x.2.serves n p && s.slotOk r.val x.1 false)

/-- The section of an object that a reader plays (R77). -/
def State.sectionOf (s : State) (n : Clu) (e : BitVec 256) (r : Fin 20) : Option Section :=
  ((s.layoutOf n).sections (eLenGr e)).find? (fun x => decide (x.reader = r))

/-- The bytes of its object, first and last, that hold sample or vector i of a section (R77, R166): a 12-bit sample starts and ends
within a byte. -/
def Section.bytesOf (x : Section) (i : Nat) : Nat × Nat :=
  let at_ := fun j => x.offset + j / 64 * x.perGr + j % 64 * x.perGr / 64
  (at_ i, at_ i + (x.perGr + 63) / 64 - 1)

/-- The 64-byte unit that holds a byte of a play's object: in object space, or in the ring of a Hosted entry's
context (R77, R389). -/
def State.unitAt (s : State) (p : Play) (byte : Nat) : Option Nat :=
  if eStream p.entry then
    match p.obj with
    | some o => if o.size = 0 then none else some (s.ringAddr o.ctx (o.pos + byte / 64) / 64)
    | none => none
  else some (eObjBase p.entry * 4 + byte / 64)

/-- The units that hold sample or vector i of a reader's section: one, or two where a 12-bit sample lies across their boundary. -/
def State.unitsOf (s : State) (n : Clu) (p : Play) (r : Fin 20) (i : Nat) : List (Option Nat) :=
  match s.sectionOf n p.entry r with
  | none => [none]
  | some x =>
    let b := x.bytesOf i
    if b.1 / 64 = b.2 / 64 then [s.unitAt p b.1] else [s.unitAt p b.1, s.unitAt p b.2]

/-- The access that holds sample or vector i has landed, or both of them (R16, R157). -/
def State.sampleLanded (s : State) (n : Clu) (p : Play) (r : Fin 20) (i : Nat) : Bool :=
  (s.unitsOf n p r i).all (fun u => u.any (fun u => (s.readerSlot n p r u).isSome))

/-- The accesses of sample or vector i that have not landed, each by the number of its 64-byte unit within the object (R157, R159). -/
def State.lateUnits (s : State) (n : Clu) (p : Play) (r : Fin 20) (i : Nat) : List Nat :=
  match s.sectionOf n p.entry r with
  | none => []
  | some x =>
    let b := x.bytesOf i
    (if b.1 / 64 = b.2 / 64 then [b.1] else [b.1, b.2]).filterMap (fun b =>
      if (s.unitAt p b).any (fun u => (s.readerSlot n p r u).isSome) then none else some (b / 64))

/-- The first unit of sample or vector i whose access has not landed. -/
def State.missingUnit (s : State) (n : Clu) (p : Play) (r : Fin 20) (i : Nat) : Option Nat :=
  ((s.unitsOf n p r i).find? (fun u => !u.any (fun u => (s.readerSlot n p r u).isSome))).bind id

/-- The bits of the object from the first byte of sample or vector i on, as a reader finds them: none where an access that holds the
sample has not landed (R16). -/
def State.objectBits (s : State) (n : Clu) (p : Play) (r : Fin 20) (i : Nat) : Option Nat :=
  if s.sampleLanded n p r i then
    match s.sectionOf n p.entry r with
    | none => none
    | some x =>
      let b := (x.bytesOf i).1
      let unit := fun b => match (s.unitAt p b).bind (s.readerSlot n p r) with | some x => x.data.toNat | none => 0
      some ((unit b + 2 ^ 512 * unit (b + 64)) >>> (8 * (b % 64)))
  else none

/-- The reader of a pin group (R77). -/
def pgReader (g : Pg) : Fin 20 := Fin.ofNat 20 (16 + g.val)

/-- Vector word i of a play on a group, once landed (R216). -/
def State.vectorWord (s : State) (n : Clu) (p : Play) (g : Pg) (i : Nat) : Option (BitVec 64) :=
  (s.objectBits n p (pgReader g) i).map (BitVec.ofNat 64)

/-! ### Timing sets (R250, R251) -/

/-- The word index of a set in the timing-set window (R250). -/
def setBase (g : Pg) (set : Nat) : Nat := 256 * (32 * g.val + set)

/-- The group's sets as the vector-decode stage reads them for a vector that starts at an instant, 48 ticks before it: those before the
first copy of the shadow that came after that read, else those in force (R253). -/
def State.setsFor (s : State) (g : Pg) (at_ : Nat) : SMap Word :=
  match (s.pg[g].setsWas.filter (fun x => decide (at_ < (x.1 + 48) * 1024))).getLast? with
  | some x => x.2
  | none => s.tabs.tset

/-- The start of a vector that reads the sets now in force. -/
def State.setSoon (s : State) : Nat := (s.clk.now + 48) * 1024

/-- Word k of set `set` of group g, for a vector that starts at an instant. -/
def State.tsetWord (s : State) (g : Pg) (at_ set k : Nat) : Word := smGet (fun _ => 0) (s.setsFor g at_) (setBase g set + k)

/-- The period of a set, in fine units, for a vector that starts at an instant (R240, R252). -/
def State.setPeriod (s : State) (g : Pg) (at_ set : Nat) : Nat := (fld (s.tsetWord g at_ set 0) 14 0 + 1) * 512

/-- The period of a VALID set in force (R251). -/
def State.setPeriodFu (s : State) (g : Pg) (set : Nat) : Option Nat :=
  if (s.tsetWord g s.setSoon set 0).getLsbD 31 then some (s.setPeriod g s.setSoon set) else none

/-- The timing set of a vector (R219); a word that has not landed acts as zero (R240). -/
def vecSet (e : BitVec 256) (w : Option (BitVec 64)) : Nat :=
  if eTsOvrEn e then eTsOvr e else bitsOf (w.getD 0).toNat 52 48

/-! ### The vector timeline of a play (R71, R80, R82, R156, R240; DEDUCED, log 14) -/

/-- A place on the vector timeline of a play: the index of the next vector, its start in fine units, and the periods of the vectors that play
just before it, the latest first and at most 64 (R156). -/
structure VecPos where
  i : Nat
  at_ : Nat
  prev : List Nat
  deriving DecidableEq, Repr

/-- LA of the vector at a place in a cluster with pin groups only, in fine units: the periods of the 64 vectors before it, half a tick for
each that is missing (R156). -/
def VecPos.span (x : VecPos) : Nat := x.prev.sum + (64 - x.prev.length) * 512

/-- D_out + LA of a reader's sample or vector, in fine units (R156): LA is 64 periods of its lane, or the span before a place on the vector
timeline. -/
def State.leadAt (s : State) (n : Clu) (r : Fin 20) (x : VecPos) : Nat :=
  s.leadOf n * 1024 + (if s.hasW n then 64 * (if r.val < 16 then s.tsOf n else s.mOf n * s.tsOf n) else x.span)

/-- The word of the vector at a place on a group, where it has landed by its check instant: a vector whose word lands later is parked, and
lasts the period of an all-zero word (R157, R240). -/
def State.timedWord (s : State) (n : Clu) (p : Play) (g : Pg) (x : VecPos) : Option (BitVec 64) :=
  let r := pgReader g
  if (s.unitsOf n p r x.i).all (fun u => u.any (fun u => s.landedBy n p r u (upTick (x.at_ - s.leadAt n r x)))) then s.vectorWord n p g x.i
  else none

/-- The period of the vector at a place of a play, on every group of a cluster, in fine units (R80, R82, R240, R253). -/
def State.vecPeriodAt (s : State) (n : Clu) (p : Play) (x : VecPos) : Nat :=
  if s.hasW n then s.mOf n * s.tsOf n
  else match s.firstGroup n with
    | some g => s.setPeriod g x.at_ (vecSet p.entry (s.timedWord n p g x))
    | none => 512

/-- The place after the vector at a place. -/
def State.vecNextAt (s : State) (n : Clu) (p : Play) (x : VecPos) : VecPos :=
  let d := s.vecPeriodAt n p x
  { i := x.i + 1, at_ := x.at_ + d, prev := (d :: x.prev).take 64 }

/-- The place a number of vectors on. -/
def State.vecGo (s : State) (n : Clu) (p : Play) : Nat → VecPos → VecPos
  | 0, x => x
  | k + 1, x => s.vecGo n p k (s.vecNextAt n p x)

/-- The place at which a play begins. -/
def Play.first (p : Play) : VecPos := { i := 0, at_ := p.start, prev := p.tail }

/-- The place of the next vector of the play in progress, on the lowest bound group (R82). -/
def State.vecsDone (s : State) (n : Clu) : VecPos :=
  match s.firstGroup n with
  | some g => { i := s.pg[g].vecIdx, at_ := s.pg[g].vecNext, prev := s.clu[n].runVecs }
  | none => { i := 0, at_ := s.clu[n].playStart, prev := s.clu[n].runVecs }

/-- The place from which a play's vectors are still to come. -/
def State.vecFrom (s : State) (n : Clu) (p : Play) : VecPos := if p.no = s.clu[n].playNo then s.vecsDone n else p.first

/-- The place of vector i of a play; of one that has started, the next place. -/
def State.vecPlace (s : State) (n : Clu) (p : Play) (i : Nat) : VecPos :=
  let x := s.vecFrom n p
  s.vecGo n p (i - x.i) x

/-- The place at which a play ends. -/
def State.vecEnd (s : State) (n : Clu) (p : Play) : VecPos := s.vecPlace n p (s.playVectors n p.entry)

/-! ### The timeline of a play (R71, R81, R82) -/

/-- Length of one whole play still to come, in fine units (R72). -/
def State.playLen (s : State) (n : Clu) (p : Play) : Nat :=
  if s.hasW n then s.playFu n p.entry else (s.vecGo n p (s.playVectors n p.entry) p.first).at_ - p.start

/-- The final fret of the play in progress, in fine units (R71). With pin groups only it follows from the sets that the
vectors still to come select. -/
def State.finalFret (s : State) (n : Clu) : Nat :=
  let k := s.clu[n]
  if s.hasW n then k.playStart + s.playFu n k.entry
  else
    let x := s.vecsDone n
    (s.vecGo n (s.playNow n) (s.playVectors n k.entry - x.i) x).at_

/-- The first fret at or after `o` of a play with pin groups only, from the fret at a place on, as a place; none
before the play's final fret. -/
def State.fretScan (s : State) (n : Clu) (p : Play) (o : Nat) : Nat → VecPos → Option VecPos
  | 0, _ => none
  | k + 1, x =>
    if o ≤ x.at_ then some x
    else if s.playVectors n p.entry ≤ x.i + 64 then none
    else s.fretScan n p o k (s.vecGo n p 64 x)

/-- The first fret at or after `o` within the play in progress, with the index of the granule that starts at it on a W lane, or on a
pin group of a cluster without W lanes; none where the play ends before (R81, R114). -/
def State.fretWithin (s : State) (n : Clu) (o : Nat) : Option (Nat × Nat) :=
  let k := s.clu[n]
  if s.hasW n then
    let f := s.fretFu n
    let j := (o - k.playStart + f - 1) / f
    if k.playStart + j * f < s.finalFret n then some (j, k.playStart + j * f) else none
  else
    let p := s.playNow n
    let x := s.vecsDone n
    (s.fretScan n p o (s.playVectors n k.entry / 64 + 1) (s.vecGo n p ((64 - x.i % 64) % 64) x)).map (fun y => (y.i / 64, y.at_))

/-- The first fret at or after `o` within a play still to come (R81, R114). -/
def State.fretInPlay (s : State) (n : Clu) (p : Play) (o : Nat) : Option Nat :=
  if s.hasW n then
    let f := s.fretFu n
    let x := p.start + (o - p.start + f - 1) / f * f
    if x < p.start + s.playLen n p then some x else none
  else (s.fretScan n p o (s.playVectors n p.entry / 64 + 1) p.first).map VecPos.at_

/-! ### Check instants (R156) -/

/-- O(i), the instant of sample or vector i of a play, in fine units; none of a vector that has started. -/
def State.readerAt (s : State) (n : Clu) (p : Play) (r : Fin 20) (i : Nat) : Option Nat :=
  if s.hasW n then some (p.start + i * (if r.val < 16 then s.tsOf n else s.mOf n * s.tsOf n))
  else if i < (s.vecFrom n p).i then none
  else some (s.vecPlace n p i).at_

/-- The periods of the vectors just before the play that follows a play (R156). -/
def State.tailOf (s : State) (n : Clu) (p : Play) : List Nat := if s.hasW n then [] else (s.vecEnd n p).prev

/-- O(i) less the check instant of sample or vector i, in fine units: D_out + LA (R156). -/
def State.readerLead (s : State) (n : Clu) (p : Play) (r : Fin 20) (i : Nat) : Nat := s.leadAt n r (s.vecPlace n p i)

/-- The check instant of sample or vector i of a play, in fine units (R156). -/
def State.checkAt (s : State) (n : Clu) (p : Play) (r : Fin 20) (i : Nat) : Option Nat :=
  (s.readerAt n p r i).map (fun o => o - s.readerLead n p r i)

/-! ### A reader's requests at the tiles (R357 to R359) -/

/-- The index of the slot in which a reader finds a unit. -/
def State.readerPlace (s : State) (n : Clu) (p : Play) (r : Fin 20) (u : Nat) : Option Nat :=
  match s.readerSlot n p r u with
  | none => none
  | some y => (s.mem.slots.find? (fun x => decide (x.2 = y) && s.slotOk r.val x.1 false)).map Prod.fst

/-- The units of which sample or vector i holds the first byte that its play takes. -/
def State.freshUnits (s : State) (n : Clu) (p : Play) (r : Fin 20) (i : Nat) : List Nat :=
  ((s.unitsOf n p r i).filterMap id).filter (fun u => decide (i = 0) || !(s.unitsOf n p r (i - 1)).contains (some u))

/-- A reader reads each 64-byte unit of its play once, at the check instant of the first sample or vector in it (R156, R358; DEDUCED,
log 20). -/
def State.readerReads (s : State) (n : Clu) (p : Play) (r : Fin 20) (i : Nat) : State :=
  let t := upTick ((s.checkAt n p r i).getD 0)
  (s.freshUnits n p r i).foldl (fun s u => match s.readerPlace n p r u with | some slot => s.readerAsks r slot t | none => s) s

end Sys2Proof.Machine
end

