-- ==== Sys2Proof/Machine/Placement.lean ====
section
/-! DEFINITION. Placement (R131 to R152): the sequencer's forecast, heads, publishing, Luthier's classes and Capo's
modes. -/
namespace Sys2Proof.Machine

/-! ### The step that leaves an entry, and the forecast (R89, R147) -/

/-- What leaving an entry does: the commit that follows, if any, and whether it is a loop-back; the stack; and
whether a loop end met an empty stack (R89). -/
structure LeaveStep where
  next : Option (BitVec 17 × Bool)
  stack : List Frame
  underflow : Bool
  deriving DecidableEq, Repr

/-- The successor rule (R73). -/
def succOf (e : BitVec 256) : Option (BitVec 17 × Bool) :=
  if eLink e then some (BitVec.ofNat 17 (eSucc e), false) else none

/-- Leave an entry after its last play (R89). -/
def leaveEntry (e : BitVec 256) (st : List Frame) : LeaveStep :=
  if !eLoopEnd e then { next := succOf e, stack := st, underflow := false }
  else match st with
    | [] => { next := succOf e, stack := [], underflow := true }
    | f :: r =>
      if f.left = 0 then { next := some (f.first, true), stack := st, underflow := false }
      else if f.left.toNat = 1 then { next := succOf e, stack := r, underflow := false }
      else { next := some (f.first, true), stack := { f with left := f.left - 1 } :: r, underflow := false }

/-- The stack after a commit to entry i; none where the push overflows (R89, R91). -/
def commitStack (i : BitVec 17) (e : BitVec 256) (loopback : Bool) (st : List Frame) : Option (List Frame) :=
  if loopback then some st
  else
    let st1 := if eStackClr e then [] else st
    if !eLoopBegin e then some st1
    else if 8 ≤ st1.length then none
    else some ({ first := i, left := BitVec.ofNat 16 (eLoopCount e) } :: st1)

/-- Plays that the forecast gives an entry: one for a MATCH entry of a cluster with pin groups (R87, R88, R147). -/
def State.foreseenPlays (s : State) (n : Clu) (e : BitVec 256) : Nat :=
  if eMatch e && s.hasP n then 1 else eRepeat e

/-- The further plays of a commit, after its first; none without end. -/
def State.playsLeft (s : State) (n : Clu) (e : BitVec 256) : Option Nat :=
  let m := s.foreseenPlays n e
  if m = 0 then none else some (m - 1)

/-- The further plays of the entry in progress: of a match play as its outcome stands once it is judged (R87, R233). -/
def State.nowLeft (s : State) (n : Clu) : Option Nat :=
  let k := s.clu[n]
  let more := decide (eRepeat k.entry = 0) || decide (k.plays + 1 < eRepeat k.entry)
  if eMatch k.entry && s.hasP n then some (if k.matchOutcome = some false ∧ more then 1 else 0)
  else if eRepeat k.entry = 0 then none
  else some (eRepeat k.entry - 1 - k.plays)

/-- The ring object that a commit to an entry would take, after objects that plays before it take (R389). -/
def State.foreseenObj (s : State) (n : Clu) (e : BitVec 256) (took : List (Ctx × Nat)) : Option HostedObj × List (Ctx × Nat) :=
  if !eStream e then (none, took)
  else
    let c := eStrmCtx e
    let k := s.host.ctxs[c]
    let before := ((took.filter (fun x => decide (x.1 = c))).map Prod.snd).sum
    if k.state = .opened ∨ k.state = .error then
      let size := (s.layoutOf n).objectSize (eLenGr e) / 64
      (some { ctx := c, pos := k.taken + before, size := size }, (c, size) :: took)
    else (some { ctx := c, pos := k.taken + before, size := 0 }, took)

/-- The end of a play, in fine units. -/
def State.playEnd (s : State) (n : Clu) (p : Play) : Nat :=
  if p.no = s.clu[n].playNo then s.finalFret n else p.start + s.playLen n p

/-- A commit to an entry in place of what would follow a play: its first play. -/
def State.commitPlay (s : State) (n : Clu) (p : Play) (i : BitVec 17) (e : BitVec 256) (st : List Frame) (age start : Nat)
    (tail : List Nat) : Play :=
  let o := s.foreseenObj n e p.took
  { idx := i, entry := e, start := start, no := p.no + 1, age := age, obj := o.1, tail := tail, stack := st, left := s.playsLeft n e
    fresh := true, took := o.2 }

/-- The play that follows a play by the sequencer step (R86, R89); none where the cluster stops. -/
def State.playAfter (s : State) (n : Clu) (p : Play) : Option Play :=
  let again := { p with start := s.playEnd n p, no := p.no + 1, tail := s.tailOf n p, fresh := false }
  match p.left with
  | none => some again
  | some (k + 1) => some { again with left := some k }
  | some 0 =>
    let l := leaveEntry p.entry p.stack
    match l.next with
    | none => none
    | some (i, lb) =>
      let e := s.entry i.toNat
      (commitStack i e lb l.stack).map (fun st => s.commitPlay n p i e st 0 (s.playEnd n p) again.tail)

/-- A play and those that follow it, up to a count. -/
def State.playsFrom (s : State) (n : Clu) : Nat → Play → List Play
  | 0, _ => []
  | fuel + 1, p => p :: (match s.playAfter n p with | none => [] | some q => s.playsFrom n fuel q)

/-- The first play of an accepted START (R100). -/
def State.leadPlay (s : State) (n : Clu) (l : LeadEntry) : Play :=
  let before := { s.playNow n with took := [] }
  s.commitPlay n before l.idx l.entry ((commitStack l.idx l.entry false []).getD []) l.age (s.clu[n].leadAt * 1024) []

/-- The plays of a cluster from the one in progress on, up to a count, as its timeline stands without a jump. -/
def State.plainPlays (s : State) (n : Clu) (count : Nat) : List Play :=
  let k := s.clu[n]
  let now := { s.playNow n with left := s.nowLeft n }
  match k.state, k.lead with
  | .lead, some l => if k.resetPark.isSome then [] else s.playsFrom n count (s.leadPlay n l)
  | .run, _ => s.playsFrom n count now
  | .stopping, _ => if k.sched.any Sched.past then s.playsFrom n count now else [now]
  | _, _ => if k.resetPark.isSome then s.playsFrom n count now else []

/-! ### The switch instant (R113, R114) -/

/-- The first fret at or after `o` within a play, before its end. -/
def State.fretOf (s : State) (n : Clu) (p : Play) (o : Nat) : Option Nat :=
  if p.no = s.clu[n].playNo then (s.fretWithin n o).map Prod.snd else s.fretInPlay n p o

/-- The play of a cluster's timeline that has an instant within it or at its end. -/
def State.playOver (s : State) (n : Clu) (o : Nat) : Option Play := (s.plainPlays n 16).find? (fun p => decide (o ≤ s.playEnd n p))

/-- The first fret at or after an instant on the cluster's timeline, as it will play (R81, R99, R114). -/
def State.fretFrom (s : State) (n : Clu) (o : Nat) : Nat :=
  match s.playOver n o with
  | some p => (s.fretOf n p o).getD (s.playEnd n p)
  | none => o

/-- The switch instant of a scheduled jump, as the cluster's timeline then stands (R113, R114). -/
def State.switchAt (s : State) (n : Clu) (j : Sched) : Nat :=
  let sf := j.s * 1024
  match j.mode with
  | .immediate => sf
  | .fret => s.fretFrom n sf
  | .atEnd => match s.playOver n sf with | some p => s.playEnd n p | none => sf

/-- The last play that starts before an instant. -/
def State.playBefore (s : State) (n : Clu) (at_ : Nat) : Play :=
  (((s.plainPlays n 16).filter (fun p => decide (p.start < at_))).getLast?).getD (s.playNow n)

/-- The first place at or after an instant, from a place on. -/
def State.vecScan (s : State) (n : Clu) (p : Play) (at_ : Nat) : Nat → VecPos → VecPos
  | 0, x => x
  | fuel + 1, x => if at_ ≤ x.at_ then x else s.vecScan n p at_ fuel (s.vecNextAt n p x)

/-- The periods of the vectors just before an instant of a play at which a jump leaves it (R156). -/
def State.tailAt (s : State) (n : Clu) (p : Play) (at_ : Nat) : List Nat :=
  if s.hasW n then [] else (s.vecScan n p at_ (s.playVectors n p.entry) (s.vecFrom n p)).prev

/-- The first play of a scheduled jump's target (R115, R116). -/
def State.targetPlay (s : State) (n : Clu) (j : Sched) : Play :=
  let at_ := s.switchAt n j
  let p := s.playBefore n at_
  let e := (j.read.map TargetRead.entry).getD (s.entry j.target.toNat)
  s.commitPlay n p j.target e ((commitStack j.target e false p.stack).getD p.stack) j.age at_ (s.tailAt n p at_)

/-- The plays of a cluster from the one in progress on, up to a count: a scheduled jump's target from its switch instant. -/
def State.coming (s : State) (n : Clu) (count : Nat) : List Play :=
  match s.clu[n].sched with
  | none => s.plainPlays n count
  | some j => (s.plainPlays n count).filter (fun p => decide (p.start < s.switchAt n j)) ++ s.playsFrom n count (s.targetPlay n j)

/-! ### The forecast (R147) and the reach (R149) -/

/-- The horizon of the forecast (R147). -/
def State.horizon (s : State) (n : Clu) : Nat := (s.clk.now + (if s.part.grade20 && decide (s.kOf n = 7) then 10240 else 8192)) * 1024

/-- The forecast ends at an entry with REPEAT = 0 or LINK = 0, a MATCH entry and a loop end among them (R147). -/
def forecastEnds (e : BitVec 256) : Bool := decide (eRepeat e = 0) || !eLink e

/-- The plays of a timeline up to the last play of an entry at which the forecast ends (R147). -/
def foreseen : List Play → List Play
  | [] => []
  | p :: r => p :: (if forecastEnds p.entry && decide (p.left = some 0) then [] else foreseen r)

/-- The forecast of a cluster (R147): the commits within the horizon, at most 64, from the target of a scheduled jump
where there is one. No play is shorter than 128 ticks (R72), so 81 plays reach past the horizon. -/
def State.forecast (s : State) (n : Clu) : List Play :=
  let k := s.clu[n]
  if k.state ≠ .lead ∧ k.state ≠ .run then [] else
  let l := match k.sched with
    | some j => s.playsFrom n 81 (s.targetPlay n j)
    | none => s.plainPlays n 81
  ((foreseen l).filter (fun p => p.fresh && decide (p.start ≤ s.horizon n))).take 64

/-- The depth of the loop stack at a switch instant, by look-ahead along the successor chain (R118). -/
def State.depthAt (s : State) (n : Clu) (switch : Nat) : Nat := (s.playBefore n switch).stack.length

/-- A cluster's reach (R149), each entry with its segment start in fine units: the entry playing, the target of a scheduled jump, and
the forecast. -/
def State.reachStarts (s : State) (n : Clu) : List (Nat × Nat) :=
  let k := s.clu[n]
  let l := if k.state = .lead then s.forecast n
    else if k.state = .run ∨ k.state = .stopping then
      s.playNow n :: ((match k.sched with | some j => [s.targetPlay n j] | none => []) ++ s.forecast n)
    else []
  l.map (fun p => (p.idx.toNat, p.start))

/-- The entries in a cluster's reach (R149). -/
def State.reach (s : State) (n : Clu) : List Nat := (s.reachStarts n).map Prod.fst

/-- The fan-out of a cluster's reach (R149): the entries that an enabled word of its jump tables names, each with the start of the entry
that names it, in fine units. -/
def State.fanOut (s : State) (n : Clu) : List (Nat × Nat) :=
  (s.reachStarts n).flatMap (fun x =>
    let e := s.entry x.1
    if eJtEn e then
      ((List.range 16).map (fun c => s.jumpWord (eJt e) c)).filterMap
        (fun w => if jwEn w then some ((jwTarget w).toNat, x.2) else none)
    else [])

/-! ### Heads (R142) -/

/-- The granules that a head covers, of each W lane and of each pin group (R142). -/
def headGranules (grade20 : Bool) (l : Layout) : Nat × Nat :=
  if !l.hasW then (0, 80)
  else
    let ts := sampleFu grade20 l.k.toNat
    let m := if l.hasP then max 1 l.ratio.toNat else 1
    let fret := 64 * ts * m
    let h := max (2560 * 1024) (2300 * 1024 + 64 * ts)
    let frets := (h + fret - 1) / fret
    (frets * m, frets)

/-- A head is no shorter than a play (R142). -/
def headCovers (grade20 : Bool) (l : Layout) (e : BitVec 256) : Bool :=
  let h := headGranules grade20 l
  if l.hasW then decide (eLenGr e ≤ h.1) else decide (eLenGr e ≤ h.2)

/-- The 64-byte units, first and count, of the whole object of an entry, section by section (R77, R136). -/
def wholeRanges (l : Layout) (e : BitVec 256) : List (Nat × Nat) :=
  (l.sections (eLenGr e)).map (fun x => (eObjBase e * 4 + x.offset / 64, (x.size + 63) / 64))

/-- The 64-byte units of the head of an entry, section by section (R142). -/
def headRanges (grade20 : Bool) (l : Layout) (e : BitVec 256) : List (Nat × Nat) :=
  let h := headGranules grade20 l
  (l.sections (eLenGr e)).map (fun x =>
    let gr := if x.reader.val < 16 then h.1 else h.2
    (eObjBase e * 4 + x.offset / 64, (min x.size (gr * x.perGr) + 63) / 64))

/-- How many units a list of ranges holds. -/
def rangeUnits (l : List (Nat × Nat)) : Nat := (l.map Prod.snd).sum

/-! ### Staged data (R153, R154) -/

/-- Whether every unit of some ranges of a staged copy of an entry has landed (R135, R154). -/
def State.copyLanded (s : State) (i age : Nat) (l : List (Nat × Nat)) : Bool :=
  l.all (fun r => (List.range r.2).all (fun k => s.unitLanded i age (r.1 + k)))

/-- The same of the newest copy. -/
def State.rangesLanded (s : State) (i : Nat) (l : List (Nat × Nat)) : Bool := s.copyLanded i 0 l

def inRanges (l : List (Nat × Nat)) (u : Nat) : Bool := l.any (fun r => decide (r.1 ≤ u ∧ u < r.1 + r.2))

/-- A run of a cluster has committed the entry, or a scheduled jump has it as its target (R135, R138): the ages of the copies that they
use. -/
def State.agesUsed (s : State) (n : Clu) (i : Nat) : List Nat :=
  let k := s.clu[n]
  (if (k.state = .run ∨ k.state = .stopping ∨ k.resetPark.isSome) ∧ k.seg.toNat = i then [k.copyAge] else []) ++
  (match k.lead with | some l => if l.idx.toNat = i then [l.age] else [] | none => []) ++
  (match k.sched with | some j => if j.target.toNat = i then [j.age] else [] | none => [])

/-- A staged copy of an entry is in use (R133, R135). -/
def State.copyUsed (s : State) (i age : Nat) : Bool := (allFin 8).any (fun n => (s.agesUsed n i).contains age)

/-- A slot of an entry's staged copy that no run uses (R133, R135). -/
def State.slotUnused (s : State) (i : Nat) (x : Slot) : Bool :=
  decide (x.entry = some (BitVec.ofNat 17 i)) && !s.copyUsed i x.age

/-- Every staged copy of an entry that no run is using goes (R133). -/
def State.dropCopies (s : State) (i : Nat) : State :=
  { s with mem := { s.mem with slots := s.mem.slots.filter (fun x => !s.slotUnused i x.2) } }

/-- A slot of an entry's staged copy, one publish older. -/
def olderSlot (i : Nat) (x : Nat × Slot) : Nat × Slot :=
  (x.1, if x.2.entry = some (BitVec.ofNat 17 i) then { x.2 with age := x.2.age + 1 } else x.2)

/-- The copies of an entry that a cluster uses, one publish older. -/
def Cluster.older (k : Cluster) (i : Nat) : Cluster :=
  { k with copyAge := if k.seg.toNat = i then k.copyAge + 1 else k.copyAge
           lead := k.lead.map (fun l => if l.idx.toNat = i then { l with age := l.age + 1 } else l)
           sched := k.sched.map (fun j => if j.target.toNat = i then { j with age := j.age + 1 } else j)
           lateRecs := k.lateRecs.map (fun r => if r.entry.toNat = i then { r with age := r.age + 1 } else r) }

/-! ### Entries (R132, R136, R137) -/

def State.entryRec (s : State) (i : Nat) : EntryRec := smGet (fun _ => ({} : EntryRec)) s.plc.entries i

def State.modPlc (s : State) (f : Placement → Placement) : State := { s with plc := f s.plc }

def State.modEntry (s : State) (i : Nat) (f : EntryRec → EntryRec) : State :=
  s.modPlc (fun p => { p with entries := smMod (fun _ => {}) p.entries i f })

/-- The entry is published for cluster n (R132). -/
def State.publishedFor (s : State) (n : Clu) (i : Nat) : Bool :=
  let r := s.entryRec i
  r.published && r.layouts.any (fun x => decide (x.1 = s.layoutOf n))

/-- A run of some cluster plays the entry, or a jump is to (R135, R138). -/
def State.inRun (s : State) (i : Nat) : Bool := (allFin 8).any (fun n => s.agesUsed n i ≠ [])

/-- What placement recorded of an entry as a read made in tick `t` takes it (R116). -/
def State.recAt (s : State) (t i : Nat) : EntryRec :=
  if s.was.tick = t then (smFind s.was.recs i).getD (s.entryRec i) else s.entryRec i

/-- Luthier's class for an entry under a layout (R137, R142). -/
def classify (grade20 : Bool) (e : BitVec 256) (l : Layout) (promoted : Bool) : PClass :=
  if eStream e then .hosted
  else if ePin e = 1 then .resident
  else if ePin e = 2 then .headed
  else if ePin e = 3 then .fetched
  else if headCovers grade20 l e then .resident
  else if promoted then .resident
  else if eJumpable e then .headed
  else .fetched

/-- What publishing stages for a class (R136, R145, R146): all of a RESIDENT, the head of a HEADED entry in static
mode or pinned. -/
def State.stagedRanges (s : State) (e : BitVec 256) (x : Layout × PClass) : List (Nat × Nat) :=
  match x.2 with
  | .resident => wholeRanges x.1 e
  | .headed => if !s.plc.rolling || decide (ePin e = 2) then headRanges s.part.grade20 x.1 e else []
  | _ => []

/-- Units that an entry holds in the head area: its heads, and a RESIDENT segment that its head covers (R142). A segment with PIN = 1 that its
head covers lies in the resident area: R134 holds PIN = 1 against that area and R142 does not say which takes it (DESIGN CHOICE, log 16). -/
def headUse (grade20 : Bool) (e : BitVec 256) (x : Layout × PClass) : Nat :=
  match x.2 with
  | .headed => rangeUnits (headRanges grade20 x.1 e)
  | .resident => if headCovers grade20 x.1 e && decide (ePin e ≠ 1) then rangeUnits (wholeRanges x.1 e) else 0
  | _ => 0

/-- Units that an entry holds in the resident area (R136). -/
def residentUse (grade20 : Bool) (e : BitVec 256) (x : Layout × PClass) : Nat :=
  match x.2 with
  | .resident => if headCovers grade20 x.1 e && decide (ePin e ≠ 1) then 0 else rangeUnits (wholeRanges x.1 e)
  | _ => 0

/-- A publish of the entry is staging it (R133). -/
def State.staging (s : State) (i : Nat) : Bool := s.plc.jobs.any (fun j => decide (j.entry = i) && !j.keep)

/-- Units in use, summed over the newest copies of the published entries but `skip` and over the entries that are being staged (R145). -/
def State.useOf (s : State) (f : BitVec 256 → Layout × PClass → Nat) (skip : Nat) : Nat :=
  ((s.plc.entries.filter (fun x => decide (x.1 ≠ skip) && !s.staging x.1)).map
    (fun x => (x.2.layouts.map (f (s.entry x.1))).sum)).sum +
  ((s.plc.jobs.filter (fun j => decide (j.entry ≠ skip ∧ !j.keep))).map
    (fun j => (j.layouts.map (f (s.entry j.entry))).sum)).sum

/-- Old copies that a run still uses (R135). -/
def State.keptInUse (s : State) : List KeptCopy := s.plc.kept.filter (fun c => s.copyUsed c.entry c.age)

/-- Units of the head area and of the resident area in use, but for an entry's newest copy (R135, R145). -/
def State.headsBut (s : State) (skip : Nat) : Nat := s.useOf (headUse s.part.grade20) skip + (s.keptInUse.map KeptCopy.heads).sum
def State.residentBut (s : State) (skip : Nat) : Nat := s.useOf (residentUse s.part.grade20) skip + (s.keptInUse.map KeptCopy.res).sum

/-- Units that the fail-log rings take at the start of the resident area (R141): 32 bytes a record. -/
def State.ringUnits (s : State) : Nat := ((allFin 4).map (fun g : Pg => s.pg[g].flSize / 2)).sum

/-- Units of the resident area in use or promised to promotions, but for an entry's newest copy (R135, R137, R164). -/
def State.residentTakenBut (s : State) (skip : Nat) : Nat :=
  s.ringUnits + s.residentBut skip + ((s.plc.jobs.filter (fun j => j.keep && decide (j.entry ≠ skip))).map (fun j => rangeUnits j.ranges)).sum
def State.residentTaken (s : State) : Nat := s.residentTakenBut 131072

/-- Capacity of the head and resident areas in 64-byte units (R141). -/
def State.headCap (s : State) : Nat := s.plc.headUnits * 64
def State.resCap (s : State) : Nat := s.plc.resUnits * 64

/-- Units that a staged copy takes in the head area: in rolling mode only those of a pinned or covered one (R145, R146). -/
def State.headStage (s : State) (e : BitVec 256) (x : Layout × PClass) : Nat :=
  if s.plc.rolling ∧ x.2 = .headed ∧ ePin e ≠ 2 then 0 else headUse s.part.grade20 e x

/-- The newest copy of an entry is to be given up: where a run uses it, its units stay taken until the run ends (R135, R145). -/
def State.retireCopy (s : State) (i : Nat) : State :=
  let r := s.entryRec i
  let c : KeptCopy := { entry := i, age := 0, heads := (r.layouts.map (s.headStage (s.entry i))).sum
                        res := (r.layouts.map (residentUse s.part.grade20 (s.entry i))).sum }
  let keep := r.published && s.copyUsed i 0
  s.modPlc (fun p => { p with kept := s.keptInUse ++ (if keep then [c] else []) })

/-- The newest copy of an entry is given up, at a publish or a write of it: copies that no run uses go, and those that runs keep are one
step older, so that what follows is a copy beside them (R75, R133, R135, R145). -/
def State.ageCopies (s : State) (i : Nat) : State :=
  let s1 := (s.retireCopy i).dropCopies i
  let s2 := { s1 with mem := { s1.mem with slots := s1.mem.slots.map (olderSlot i) } }
  let s3 := s2.modPlc (fun p => { p with kept := p.kept.map (fun c => if c.entry = i then { c with age := c.age + 1 } else c)
                                         jobs := p.jobs.filter (fun j => decide (j.entry ≠ i)) })
  (allFin 8).foldl (fun s n => s.modClu n (fun k => k.older i)) s3

/-- A slot of a retired staged copy that no run uses any more: it counts as free from the end of that run on (R133, R135, R145). -/
def State.slotDead (s : State) (x : Slot) : Bool :=
  match x.entry with
  | some j => decide (x.age ≠ 0) && !s.copyUsed j.toNat x.age
  | none => false

/-- The entry after a command's last (R133): indices do not wrap. -/
def PubCmd.last (c : PubCmd) : Nat := min (c.first + c.count) 131072

/-- The command at the head has taken its entries and none of its staging is left: it completes, and the next one starts to run (R133,
R134). -/
def State.publishFinish (s : State) : State :=
  match s.plc.queue, s.plc.next with
  | c :: r, some i =>
    if i < c.last ∨ s.plc.jobs.any (fun j => !j.keep) then s
    else (s.modPlc (fun p => { p with queue := r, next := none, code := if r = [] then p.code else 0
                                      refuseIdx := if r = [] then p.refuseIdx else 0 })).setBit (plcA 0x10) 8
  | _, _ => s

/-- Drop an entry's record and its staged copies, while the table still holds the entry they were made of: a write through the window
unpublishes it, and ends its handling in a publish (R75, R132, R133, R145). -/
def State.unpublish (s : State) (i : Nat) : State :=
  (((s.keepRec i (s.entryRec i)).ageCopies i).modEntry i (fun r => { r with published := false, layouts := [], seen := false })).publishFinish

/-! ### Commands -/

/-- CAPO_CTRL.ROLL_EN in force (R148). -/
def State.rollEn (s : State) : Bool := s.effB (plcA 0x20) 0

/-- Add layouts that are not recorded yet (R132). -/
def addLayouts : List Layout → List Layout → List Layout
  | old, [] => old
  | old, l :: r => addLayouts (if old.contains l then old else old ++ [l]) r

/-- A layout that binds no lane. -/
def Layout.bare (l : Layout) : Bool := !l.hasW && !l.hasP

/-- A re-evaluation makes the entry resident, as far as the latest one tells: it did so, or it has not seen the entry and left room for these
units, for an entry of heat 0 fills what is left (R137; DEDUCED, log 16). -/
def State.wouldPromote (s : State) (i units : Nat) : Bool :=
  let r := s.entryRec i
  r.promoted || (!r.seen && decide (0 < units ∧ units ≤ s.plc.evalRoom))

/-- The layouts that a publish would leave an entry with, and their classes (R132, R137): the class that the latest re-evaluation would give,
where the area has room for it. -/
def State.publishClasses (s : State) (c : PubCmd) (i : Nat) : List (Layout × PClass) :=
  let e := s.entry i
  let ls := addLayouts ((s.entryRec i).layouts.map Prod.fst) c.layouts
  let of := fun promoted => ls.map (fun l => (l, classify s.part.grade20 e l promoted))
  let up := of true
  let units := (up.map (residentUse s.part.grade20 e)).sum
  if decide (ePin e = 0) && s.wouldPromote i units && decide (s.residentTakenBut i + units ≤ s.resCap) then up else of false

/-- Old copies of the entry itself that runs keep: a second copy waits for them, and nothing is refused for their room (R135). -/
def State.keptOf (s : State) (i : Nat) : List KeptCopy := s.keptInUse.filter (fun c => decide (c.entry = i))

/-- The refusal code of an entry, 0 where it is accepted (R134), and its layouts with classes. Room that another entry takes counts, a
copy of it that a run keeps included. -/
def State.publishCheck (s : State) (c : PubCmd) (i : Nat) : Nat × List (Layout × PClass) :=
  let e := s.entry i
  let cls := s.publishClasses c i
  let ls := cls.map Prod.fst
  let heads := (cls.map (headUse s.part.grade20 e)).sum
  let res := (cls.map (residentUse s.part.grade20 e)).sum
  let own := s.keptOf i
  if !entryOk e then (1, cls)
  else if c.mask = 0 ∨ c.layouts.any Layout.bare then (2, cls)
  else if 2 < ls.length then (3, cls)
  else if ls.any (fun l => !s.rangeOk e l) then (4, cls)
  else if ePin e = 3 ∧ eJumpable e then (5, cls)
  else if ePin e = 1 ∧ s.resCap + (own.map KeptCopy.res).sum < s.residentTakenBut i + res then (6, cls)
  else if !s.plc.rolling ∧ 0 < heads ∧ s.headCap + (own.map KeptCopy.heads).sum < s.headsBut i + heads then (7, cls)
  else if !s.configured then (8, cls)
  else (0, cls)

/-- The layouts under which an entry counts in the areas now: those of its staging, or those recorded (R145). -/
def State.countedLayouts (s : State) (i : Nat) : List (Layout × PClass) :=
  match s.plc.jobs.find? (fun j => decide (j.entry = i) && !j.keep) with
  | some j => j.layouts
  | none => (s.entryRec i).layouts

/-- The entries that the commands queued name, each once. -/
def State.queuedEntries (s : State) : List Nat :=
  s.plc.queue.foldl (fun l c => l ++ ((List.range (c.last - c.first)).map (fun k => c.first + k)).filter (fun i => !l.contains i)) []

/-- All commands queued that name an entry, as one that records their layouts beside those the entry counts with, but for a command that
LAYOUTS refuses (R134). -/
def State.queuedFor (s : State) (i : Nat) : PubCmd :=
  let l := (s.plc.queue.filter (fun c => decide (c.first ≤ i ∧ i < c.last))).map PubCmd.layouts
  let join := fun a b => let c := addLayouts a b; if 2 < c.length then a else c
  { first := i, count := 1, mask := 0, snapshot := 0, layouts := l.foldl join ((s.countedLayouts i).map Prod.fst) }

/-- Units of the head area that the commands queued add to those in use, as the entries stand: each entry once (R148). -/
def State.queuedHeads (s : State) : Nat :=
  (s.queuedEntries.map (fun i =>
    let e := s.entry i
    if entryOk e then
      ((s.publishClasses (s.queuedFor i) i).map (headUse s.part.grade20 e)).sum -
        ((s.countedLayouts i).map (headUse s.part.grade20 e)).sum
    else 0)).sum

/-- A publish that would overflow the head area in static mode switches Capo to rolling mode at the management tick at which it is
taken, with ROLL_EN set and every cluster IDLE (R148). -/
def State.goRolls (s : State) : State :=
  let idle := (allFin 8).all (fun n => decide (s.clu[n].state = .idle))
  if !s.plc.rolling && s.rollEn && idle && decide (s.headCap < s.headsBut 131072 + s.queuedHeads)
  then s.modPlc (fun p => { p with rolling := true }) else s

/-- PUB_GO (R132, R133): at a management tick the oldest GO write is taken with the parameters last written before
it, or dropped with OVERFLOW where 16 commands wait. PUB_COUNT goes from 1 to 4,096 and 0 acts as 1; a larger number, which its 13 bits
can hold, acts as 4,096 (the spec does not say what it does: DESIGN CHOICE, log 16). -/
def execPubGo (s : State) : Host.Outcome State Fault Refusal :=
  s.guarded fun s =>
    if s.prepared 6 then s.hold .pubGo else
    let now := (fld (s.cfgW (plcA 4)) 16 0, fld (s.cfgW (plcA 8)) 12 0, BitVec.ofNat 8 (fld (s.cfgW (plcA 0)) 15 8))
    let x := s.plc.goes.head?.getD now
    let s := s.modPlc (fun p => { p with goes := p.goes.tail })
    let s := if s.plc.goes = [] then s.cmdDrop (plcA 0) 1 else s
    if 16 ≤ s.plc.queue.length then s.setBit (plcA 0x10) 10
    else
      let c : PubCmd := { first := x.1, count := max 1 (min 4096 x.2.1), mask := x.2.2, snapshot := s.host.wrAccepted
                          layouts := (setBits 8 x.2.2.toNat).map (fun n => s.layoutOf (Fin.ofNat 8 n)) }
      (s.modPlc (fun p => { p with queue := p.queue ++ [c], code := if p.queue = [] then 0 else p.code
                                   refuseIdx := if p.queue = [] then 0 else p.refuseIdx })).goRolls

/-- A publish refuses an entry, which keeps its state (R134). -/
def State.publishRefuse (s : State) (i code : Nat) : State :=
  let s1 := if s.plc.code = 0 then
      s.modPlc (fun p => { p with code := BitVec.ofNat 4 code, refuseIdx := BitVec.ofNat 17 i }) else s
  (s1.setBit (plcA 0x10) 9).count (plcA 0x18) 1

/-- An entry is published with its layouts and classes (R132, R133). -/
def State.publishDone (s : State) (i : Nat) (cls : List (Layout × PClass)) (promoted : Bool) : State :=
  s.modEntry i (fun r => { r with published := true, layouts := cls, promoted := promoted })

/-- The classes make an unpinned entry resident for its heat (R137). -/
def State.promotedBy (s : State) (i : Nat) (cls : List (Layout × PClass)) : Bool :=
  let e := s.entry i
  decide (ePin e = 0) && !eStream e && cls.any (fun x => decide (x.2 = .resident) && !headCovers s.part.grade20 x.1 e)

/-- A publish takes room that the latest re-evaluation left, for an entry that it had not made resident (R137). -/
def State.takeRoom (s : State) (i : Nat) (cls : List (Layout × PClass)) : State :=
  if s.promotedBy i cls && !(s.entryRec i).promoted then
    s.modPlc (fun p => { p with evalRoom := p.evalRoom - (cls.map (residentUse s.part.grade20 (s.entry i))).sum })
  else s

/-- One entry of a publish command (R133). -/
def State.publishEntry (s : State) (c : PubCmd) (i : Nat) : State :=
  let x := s.publishCheck c i
  if x.1 ≠ 0 then s.publishRefuse i x.1
  else
    let e := s.entry i
    let promoted := s.promotedBy i x.2
    let s := ((s.takeRoom i x.2).ageCopies i).modEntry i (fun r => { r with published := false })
    let ranges := x.2.flatMap (s.stagedRanges e)
    if ranges = [] then s.publishDone i x.2 promoted
    else s.modPlc (fun p => { p with jobs := p.jobs ++ [{ entry := i, layouts := x.2, ranges := ranges, promoted := promoted }] })

/-- Units of the head area in use: in rolling mode the unpinned heads that some slot holds (R145, R149, R164). -/
def State.headUsed (s : State) : Nat :=
  s.useOf s.headStage 131072 + (s.keptInUse.map KeptCopy.heads).sum +
    (if s.plc.rolling then
      (s.mem.slots.filter (fun x => decide (x.1 < s.headCap) && x.2.entry.any (fun i =>
        let e := s.entry i.toNat
        if x.2.age = 0 then
          decide (ePin e ≠ 2) && (s.entryRec i.toNat).layouts.any (fun l =>
            decide (l.2 = .headed) && inRanges (headRanges s.part.grade20 l.1 e) x.2.addr.toNat)
        else s.keptInUse.any (fun c => decide (c.entry = i.toNat ∧ c.age = x.2.age ∧ c.heads = 0))))).length
    else 0)

/-- Room that the entry's own copies in use take: the newest, where a run uses it, and older ones (R135). -/
def State.ownRoom (s : State) (i : Nat) (f : BitVec 256 → Layout × PClass → Nat) (g : KeptCopy → Nat) : Nat :=
  (if s.copyUsed i 0 then ((s.entryRec i).layouts.map (f (s.entry i))).sum else 0) + ((s.keptOf i).map g).sum

/-- Runs of the entry keep staged copies of it, and the areas have no room for another beside them: the publish waits (R135). -/
def State.publishBlocked (s : State) (c : PubCmd) (i : Nat) : Bool :=
  let x := s.publishCheck c i
  let e := s.entry i
  let heads := (x.2.map (s.headStage e)).sum
  let res := (x.2.map (residentUse s.part.grade20 e)).sum
  let others := (s.keptInUse.filter (fun c => decide (c.entry ≠ i)))
  decide (x.1 = 0) &&
    (decide (s.headCap < s.useOf s.headStage i + (others.map KeptCopy.heads).sum + s.ownRoom i s.headStage KeptCopy.heads + heads ∧ 0 < heads) ||
     decide (s.resCap + ((s.keptOf i).map KeptCopy.res).sum <
       s.residentTakenBut i + s.ownRoom i (residentUse s.part.grade20) KeptCopy.res + res ∧ 0 < res))

/-- Take the entries of a command in ascending order from i, up to one that has to wait (R133, R135). -/
def State.publishFrom (s : State) (c : PubCmd) : Nat → Nat → State
  | 0, i => s.modPlc (fun p => { p with next := some i })
  | fuel + 1, i =>
    if c.last ≤ i ∨ s.publishBlocked c i then s.modPlc (fun p => { p with next := some i })
    else (s.publishEntry c i).publishFrom c fuel (i + 1)

/-- PUBLISH_RUN (R133, R134, R381): once the host writes of its snapshot have drained, the command at the head takes
its entries in ascending order. -/
def execPublishRun (s : State) : Host.Outcome State Fault Refusal :=
  s.guarded fun s =>
    match s.plc.queue with
    | [] => s
    | c :: _ =>
      match s.plc.next with
      | some i => (s.publishFrom c c.count i).publishFinish
      | none =>
        if 2 ^ 31 ≤ (s.host.wrDrained - c.snapshot).toNat then s
        else
          let s := s.setBitIf (decide (131072 < c.first + c.count)) (plcA 0x10) 11
          (s.publishFrom c c.count c.first).publishFinish

/-- A re-evaluation may change the class of the entry now (R138). -/
def State.mayChange (s : State) (i : Nat) : Bool :=
  !s.inRun i && (allFin 8).all (fun n => !(s.reach n).contains i)

/-- A change of class takes effect (R138). -/
def State.reclass (s : State) (j : StagingJob) : State :=
  s.modEntry j.entry (fun r => if r.published then { r with layouts := j.layouts, promoted := j.promoted } else r)

/-- A staging job has landed: its entry is published (R133), or changes its class, unless that has to wait (R138). -/
def State.jobDone (s : State) (j : StagingJob) : State :=
  let drop := s.modPlc (fun p => { p with jobs := p.jobs.filter (fun x => decide (x ≠ j)) })
  if !j.keep then drop.publishDone j.entry j.layouts j.promoted
  else if s.mayChange j.entry then drop.reclass j
  else s.modPlc (fun p => { p with jobs := p.jobs.map (fun x => if x = j then { x with waits := true } else x) })

/-- Staging jobs whose every access has landed mark their entries published, or change their class (R133, R138). -/
def State.jobsLanded (s : State) : State :=
  let done := s.plc.jobs.filter (fun j => !j.waits && s.rangesLanded j.entry j.ranges)
  if done = [] then s else (done.foldl State.jobDone s).publishFinish

/-- At a re-evaluation, the changes of class that waited for it (R138). -/
def State.waitingJobs (s : State) : State := (s.plc.jobs.filter StagingJob.waits).foldl State.jobDone s

/-- The footprint of an entry in the resident area, in units (R137). -/
def State.footprint (s : State) (i : Nat) : Nat :=
  ((s.entryRec i).layouts.map (fun x => rangeUnits (wholeRanges x.1 (s.entry i)))).sum

/-- An unpinned published entry that Luthier may make resident (R137). -/
def State.candidate (s : State) (i : Nat) : Bool :=
  let e := s.entry i
  (s.entryRec i).published && decide (ePin e = 0) && !eStream e &&
    (s.entryRec i).layouts.any (fun x => !headCovers s.part.grade20 x.1 e)

/-- Order candidates by heat over footprint, the hottest first. -/
def hotInsert (s : State) (i : Nat) : List Nat → List Nat
  | [] => [i]
  | j :: r =>
    if (s.entryRec j).heat * max 1 (s.footprint i) < (s.entryRec i).heat * max 1 (s.footprint j) then i :: j :: r
    else j :: hotInsert s i r

/-- The coolest of some entries. -/
def coolest (s : State) : List Nat → Option Nat
  | [] => none
  | i :: r => match coolest s r with
    | none => some i
    | some j => if (s.entryRec i).heat ≤ (s.entryRec j).heat then some i else some j

/-- The classes of an entry with or without promotion (R137). -/
def State.classesOf (s : State) (i : Nat) (promoted : Bool) : List (Layout × PClass) :=
  (s.entryRec i).layouts.map (fun x => (x.1, classify s.part.grade20 (s.entry i) x.1 promoted))

/-- Demote a resident entry at once: all but its heads goes (R138, R145). -/
def State.demote (s : State) (i : Nat) : State :=
  let cls := s.classesOf i false
  let kept := cls.flatMap (s.stagedRanges (s.entry i))
  let gone := fun x : Slot => decide (x.entry = some (BitVec.ofNat 17 i)) && !inRanges kept x.addr.toNat
  let s1 := { s with mem := { s.mem with slots := s.mem.slots.filter (fun x => !gone x.2) } }
  s1.modEntry i (fun r => { r with promoted := false, layouts := cls })

/-- Stage a promotion; the class changes once every access has landed (R138). -/
def State.promote (s : State) (i : Nat) : State :=
  let cls := s.classesOf i true
  s.modPlc (fun p => { p with jobs := p.jobs ++ [{ entry := i, layouts := cls, ranges := cls.flatMap (fun x => wholeRanges x.1 (s.entry i)),
                                                   keep := true, promoted := true }] })

/-- Make room for an entry: the coolest residents that may change go one by one, as long as it beats each twofold (R137; DEDUCED,
log 16). None where that does not make room. -/
def State.makeSpace (s : State) (i : Nat) : Nat → Option State
  | 0 => none
  | fuel + 1 =>
    if s.residentTaken + s.footprint i ≤ s.resCap then some s
    else
      match coolest s ((s.plc.entries.map Prod.fst).filter (fun j => (s.entryRec j).promoted && decide (j ≠ i) && s.mayChange j)) with
      | none => none
      | some j => if 2 * (s.entryRec j).heat ≤ (s.entryRec i).heat then (s.demote j).makeSpace i fuel else none

/-- Consider one candidate (R137). -/
def State.consider (s : State) (i : Nat) : State :=
  if (s.entryRec i).promoted ∨ !s.mayChange i ∨ s.plc.jobs.any (fun j => decide (j.entry = i)) then s
  else match s.makeSpace i (s.plc.entries.length + 1) with
    | none => s
    | some t => t.promote i

/-- A re-evaluation falls due at every 1,024th management tick, once (R137). -/
def State.evalDue (s : State) : Bool := decide (s.clk.mgmtCount % 1024 = 0 ∧ s.clk.mgmtCount ≠ s.plc.evalAt)

/-- LUTHIER_REEVALUATE (R137, R138): at every 1,024th management tick, unless LUT_CTRL.FREEZE, changes that waited take effect, and Luthier
promotes by heat over footprint; each re-evaluation halves heat. -/
def execLuthierReevaluate (s : State) : Host.Outcome State Fault Refusal :=
  s.guarded fun s =>
    if s.effB (plcA 0x40) 0 || !s.evalDue then s else
    let s := s.waitingJobs
    let cs := ((s.plc.entries.map Prod.fst).filter s.candidate).foldl (fun l i => hotInsert s i l) []
    let s := cs.foldl State.consider s
    s.modPlc (fun p => { p with
      entries := p.entries.map (fun x => (x.1, { x.2 with heat := x.2.heat / 2, seen := x.2.seen || cs.contains x.1 }))
      evalRoom := s.resCap - s.residentTaken, evalAt := s.clk.mgmtCount })

/-- The heads that static mode requires, with their entries (R145, R146). -/
def State.requiredHeads (s : State) : List (Nat × List (Nat × Nat)) :=
  (s.plc.entries.filter (fun x => x.2.published && (eJumpable (s.entry x.1) || decide (ePin (s.entry x.1) = 2)))).map (fun x =>
    (x.1, x.2.layouts.flatMap (fun l => if l.2 = .headed then headRanges s.part.grade20 l.1 (s.entry x.1) else [])))

/-- Units that the head area needs in static mode (R145). -/
def State.staticNeed (s : State) : Nat := s.headsBut 131072

/-- At a management tick, a return to static mode begins or ends its attempt; without ROLL_EN Capo does not run in rolling mode (R148;
DEDUCED, log 16). -/
def State.capoTick (s : State) : State :=
  let idle := (allFin 8).all (fun n => decide (s.clu[n].state = .idle))
  if s.rollEn then s.modPlc (fun p => { p with switching := p.rolling && idle && decide (s.staticNeed ≤ s.headCap) })
  else s.modPlc (fun p => { p with rolling := false, switching := false })

/-- CAPO_STATIC_SWITCH (R148): with every cluster IDLE and every required head landed, Capo returns to static mode. -/
def execCapoStaticSwitch (s : State) : Host.Outcome State Fault Refusal :=
  s.guarded fun s =>
    let idle := (allFin 8).all (fun n => decide (s.clu[n].state = .idle))
    if s.plc.rolling && idle && decide (s.staticNeed ≤ s.headCap) && s.requiredHeads.all (fun x => s.rangesLanded x.1 x.2) then
      s.modPlc (fun p => { p with rolling := false, switching := false })
    else s

/-- PUB_CNT_CLR (R164). -/
def execPubCntClr (s : State) : Host.Outcome State Fault Refusal :=
  s.guarded fun s => s.clearCtrs [plcA 0x18, plcA 0x30]

/-- The class recorded of an entry for cluster n's layout. -/
def State.classFor (s : State) (n : Clu) (r : EntryRec) : Option (Layout × PClass) :=
  r.layouts.find? (fun x => decide (x.1 = s.layoutOf n))

/-- The target-entry stage reads an entry in a tick: its bytes, whether it is published for cluster n, and its class (R116, R132). -/
def State.readTarget (s : State) (n : Clu) (t i : Nat) : TargetRead :=
  let r := s.recAt t i
  let c := s.classFor n r
  { entry := s.entryAt t i, published := r.published && c.isSome, cls := c }

/-- The head of a jump's target, as the target was read, is staged (R118, R150). -/
def State.headStaged (s : State) (j : Sched) (x : TargetRead) : Bool :=
  match x.cls with
  | some (_, .resident) => true
  | some (l, _) => s.copyLanded j.target.toNat j.age (headRanges s.part.grade20 l x.entry)
  | none => false

/-- In rolling mode, the heads of a cluster's fan-out are needed now (R149). They are so in every tick in which its reach names them: the
stamp is made where the reach begins and where it ends, since a head that a reach names is not given up meanwhile. -/
def State.markNeeded (s : State) (n : Clu) : State :=
  if s.plc.rolling then
    s.modPlc (fun p => { p with needed := (s.fanOut n).foldl (fun m x => smInsert m x.1 s.clk.now) p.needed })
  else s

/-- The same of every cluster: a write to the tables may end what they name. -/
def State.markAll (s : State) : State := (allFin 8).foldl State.markNeeded s

end Sys2Proof.Machine
end

