-- ==== Sys2Proof/Machine/LaneOps.lean ====
section
/-! DEFINITION. W lanes: modulator cycles (R177, R497), the quiet band (R191 to R196), the NCO's advance, and the
moves of a lane's state that other blocks cause (R201 to R206). -/
namespace Sys2Proof.Machine

/-! ### Modulator cycles (R177) -/

/-- The first modulator cycle that begins at or after an instant in fine units (R177, R181). -/
def State.cycleFrom (s : State) (fu : Nat) : Nat := (((fu : Int) + s.clk.ofs * 1024).toNat + s.modFu - 1) / s.modFu

/-- The instant at which a cycle begins, in fine units on the physical axis. -/
def State.cycleAt (s : State) (m : Nat) : Nat := (((m * s.modFu : Nat) : Int) - s.clk.ofs * 1024).toNat

/-! ### The quiet band (R192 to R196) -/

/-- WLN_QB in force (R213). -/
def State.qbWord (s : State) (w : Lane) : Word := s.effW (wlA w 0x108)

/-- The tracked part of the centre index for a frequency word (R192). -/
def trackedOf (f : BitVec 48) : Nat := (f.toInt.natAbs + 2 ^ 36) / 2 ^ 37

/-- The centre index n before the clamp, and whether a clamp acts on CENTRE (R192). -/
def State.centreRaw (s : State) (w : Lane) (f : BitVec 48) : Int × Bool :=
  let q := s.qbWord w
  let base := if q.getLsbD 26 then (s.wl[w].heldN).getD (trackedOf f) else min 896 (fld q 9 0)
  ((base : Int) + signedOf 8 (fld q 23 16), !q.getLsbD 26 && decide (896 < fld q 9 0))

/-- The loop-filter coefficients in force at a cycle: those of the width and centre, or their blend while a glide lasts (R190, R193). -/
def State.coefAt (s : State) (w : Lane) (m : Nat) : Nat :=
  let l := s.wl[w]
  let width := fld (s.qbWord w) 25 24
  let c := Config.coefSet (if width = 3 then 1 else width) l.centre
  match l.glideEnd with
  | some g => if m < g then Config.coefBlend l.path.coefFrom c (m + 32 - g) else c
  | none => c

/-- The centre follows a frequency at a cycle: clamped to 0 to 896 (R192); a change glides for 32 cycles (R193), two
changes in one cycle in one glide (R196), and at the admission of an arm it does not (R195). -/
def State.bandAt (s : State) (w : Lane) (m : Nat) (f : BitVec 48) (glide : Bool) : State :=
  let track := (s.qbWord w).getLsbD 26
  let s := if track = s.wl[w].tracking then s else s.modWl w (fun l => { l with tracking := track, heldN := none })
  let r := s.centreRaw w f
  let c := (max 0 (min 896 r.1)).toNat
  let s := s.setBitIf (r.2 || decide ((c : Int) ≠ r.1)) (wlA w 0x11C) 9
  if s.wl[w].centre = c then s
  else
    let from_ := if s.wl[w].glideEnd = some (m + 32) then s.wl[w].path.coefFrom else s.coefAt w m
    s.modWl w (fun l => { l with
      centre := c, glideEnd := if glide && l.nco.running then some (m + 32) else none, path := { l.path with coefFrom := from_ } })

/-! ### The advance of the NCO (R177) -/

/-- FREQ in force at cycle m, after the chirp step of a cycle that is a multiple of 16 (R177, R184). -/
def Nco.freqNow (x : Nco) : BitVec 48 := if x.m % 16 = 0 ∧ !x.freqLoaded then x.freq + x.chirp else x.freq

/-- Cycles from m up to cycle `to_`, in which no further chirp step falls. -/
def Nco.run (x : Nco) (to_ : Nat) : Nco :=
  let f := x.freqNow
  { x with freq := f, acc := x.acc + f * BitVec.ofNat 48 (to_ - x.m), m := to_, freqLoaded := false }

/-- Change a lane's NCO. -/
def State.modNco (s : State) (w : Lane) (f : Nco → Nco) : State := s.modWl w (fun l => { l with nco := f l.nco })

/-- One run of cycles up to `to_`; the band follows the frequency at its first cycle (R193). -/
def State.ncoRun (s : State) (w : Lane) (to_ : Nat) : State :=
  let x := s.wl[w].nco
  (s.bandAt w x.m x.freqNow true).modNco w (fun x => x.run to_)

/-- Chirp step by chirp step, as many as given, up to cycle `to_`. -/
def State.ncoSteps (s : State) (w : Lane) (to_ : Nat) : Nat → State
  | 0 => s
  | k + 1 =>
    let x := s.wl[w].nco
    if to_ ≤ x.m then s else (s.ncoRun w (min to_ ((x.m / 16 + 1) * 16))).ncoSteps w to_ k

/-- The lane's NCO advances to the start of cycle `to_` (R177). -/
def State.ncoUpTo (s : State) (w : Lane) (to_ : Nat) : State :=
  let x := s.wl[w].nco
  if !x.running || decide (to_ ≤ x.m) then s
  else
    let s := if x.chirp = 0 then s.ncoRun w to_ else s.ncoSteps w to_ ((to_ - x.m) / 16 + 2)
    s.modWl w (fun l => { l with glideEnd := if l.glideEnd.any (fun g => decide (g ≤ to_)) then none else l.glideEnd })

/-- The lane's NCO advances to the first cycle from an instant. -/
def State.ncoSync (s : State) (fu : Nat) (w : Lane) : State := s.ncoUpTo w (s.cycleFrom fu)

/-- The time base is about to step by `d` ticks: every NCO that runs is advanced to the present tick, cycle numbers step with the base, and
ACC as if the skipped cycles had run with the FREQ in force (R497). -/
def State.ncoStepBase (s : State) (d : Int) : State :=
  let dm : Int := if s.part.grade20 then (128 * d + 5).fdiv 10 else 16 * d
  (allFin 16).foldl (fun s w =>
    let s := s.ncoSync (s.clk.now * 1024) w
    let x := s.wl[w].nco
    let f := if s.cycleAt x.m = s.clk.now * 1024 then x.freqNow else x.freq
    s.modWl w (fun l =>
      if l.nco.running then
        { l with nco := { l.nco with m := ((l.nco.m : Int) + dm).toNat, acc := l.nco.acc + f * BitVec.ofInt 48 dm }
                 snapAt := l.snapAt.map (fun g => ((g : Int) + dm).toNat)
                 glideEnd := l.glideEnd.map (fun g => ((g : Int) + dm).toNat)
                 actAt := l.actAt.map (fun g => ((g : Int) + dm).toNat)
                 path := { l.path with next := l.path.next.map (fun g => ((g : Int) + dm).toNat) } }
      else l)) s

/-- The snapshots of a lane, taken at cycle m (R187, R214). -/
def State.snapTake (s : State) (w : Lane) (m : Nat) : State :=
  s.modWl w (fun l =>
    let x := l.nco
    { l with
      snapAt := some m
      snapFreq := if x.running then x.freqNow else 0
      snapP := if x.running then BitVec.ofNat 20 (x.acc.toNat / 2 ^ 28 + 16 * x.phaseOfs.toNat) else 0
      snapCentre := BitVec.ofNat 10 l.centre, snapHeld := l.heldN.isSome
      snapGliding := l.glideEnd.any (fun g => decide (m < g)) })

/-- A change of cycle m reaches the snapshots that were taken at that cycle (R187). -/
def State.snapAgain (s : State) (w : Lane) (m : Nat) : State := if s.wl[w].snapAt = some m then s.snapTake w m else s

/-- A datapath after cycles that the model has not followed: what it holds is free (DESIGN CHOICE, log 5). SMOOTH's registers, which its
first cycle in that mode finds, follow from free samples (Datapath.flushed). -/
def Datapath.unseen (w : Lane) (at_ : Nat) : Datapath :=
  let u := Config.unseen w.val at_
  let line := fun n k => (List.range n).map (fun i => BitVec.ofNat 18 (u (k + i)))
  let fir := fun k => { h0 := line 40 k, h1 := line 28 (k + 40), h2 := line 12 (k + 68), h3 := line 6 (k + 80) : Fir }
  { pos := u 0, vI := BitVec.ofNat 16 (u 1), vQ := BitVec.ofNat 16 (u 2), eI := BitVec.ofNat 16 (u 3), eQ := BitVec.ofNat 16 (u 4)
    scr := BitVec.ofNat 23 (u 5), loop := u 6, firI := fir 100, firQ := fir 200 }

/-- The NCO state that an arm takes at its first cycle (R179, R195), which a snapshot of that cycle shows (R187), with the loop's state zero (R190, R203) and the sequence of
SCRAMBLE seeded by a free value (R197; log 18). -/
def State.ncoArm (s : State) (w : Lane) : State :=
  let m := s.cycleFrom (s.clk.now * 1024)
  let freq := BitVec.ofNat 48 ((s.effW (wlA w 0x10)).toNat + 2 ^ 32 * s.effF (wlA w 0x14) 15 0)
  let chirp := BitVec.ofNat 48 ((s.effW (wlA w 0x18)).toNat + 2 ^ 32 * s.effF (wlA w 0x1C) 15 0)
  let s := s.modWl w (fun l => { l with
    heldN := none, glideEnd := none, path := { Datapath.unseen w (s.clk.now * 1024) with next := some m, loop := 0 }
    nco := { running := true, freq := freq, chirp := chirp, phaseOfs := BitVec.ofNat 16 (s.effF (wlA w 0x20) 31 16)
             acc := freq * BitVec.ofNat 48 m, m := m, freqLoaded := true } })
  (s.bandAt w m freq false).snapAgain w m

/-! ### CMD bits of a lane (R202) -/

/-- WLN_ARM_CTRL, and the key that holds its bits until a management tick takes them. -/
def armA (w : Lane) : Nat := wlA w 0x110
def armNewA (w : Lane) : Nat := wlA w 0x110 + 1

/-- A lane's command completes or is dropped: its bit clears, unless it has been written anew. -/
def State.laneCmdEnd (s : State) (w : Lane) (m : Word) : State := s.cmdTake (armA w) (m &&& ~~~(s.cmdWord (armNewA w)))

/-- The commands of a lane that are held or running, as bits of WLN_ARM_CTRL (R202, R203, R210, R211, R431). -/
def State.laneRuns (s : State) (w : Lane) : Word :=
  let l := s.wl[w]
  let asks := fun k => decide (l.state = .queued) && s.gov.queue.any (fun q => decide (q.lane = w ∧ q.kind = k))
  let arm := asks .arm || decide (l.state = .arming) || l.reconnect || s.pwr.held.contains (Instr.laneArm w)
  let cal := asks .cal || decide (l.state = .cal) || (decide (l.state = .disarming) && (s.cmdWord (armA w)).getLsbD 2) ||
    s.pwr.held.contains (Instr.laneCal w)
  (if arm then 1 else 0) ||| (if cal then 4 else 0)

/-- A command gives way to another of the same write, or is dropped: its bit clears, unless the same command is held or running already
(R202, R408). -/
def State.laneGive (s : State) (w : Lane) (m : Word) : State := s.laneCmdEnd w (m &&& ~~~(s.laneRuns w))

/-! ### Moves of a lane's state (R201 to R206) -/

/-- The lane's cluster is IDLE, or it has none. -/
def State.laneIdle (s : State) (w : Lane) : Bool :=
  match s.laneOwner w with
  | none => true
  | some n => decide (s.clu[n].state = .idle)

/-- FS as it acts (R198). -/
def fsActs (c : Nat) : Nat := min 320 (max 40 c)

/-- FS and SPAN as last written before the present tick are taken (R198, R203, R206, R211, R411). -/
def State.takeSpan (s : State) (w : Lane) : State :=
  let a := wlA w 0x100
  let c := s.settledW a
  let fs := fld c 24 16
  let uni := c.getLsbD 8
  let l := s.wl[w]
  let changed := decide (l.fs ≠ BitVec.ofNat 9 fs ∨ l.unipolar ≠ uni)
  let s := s.applyDue a (fmask 24 16 ||| bit32 8)
  let s := s.setBitIf (decide (fs ≠ fsActs fs)) (wlA w 0x11C) 7
  let s := s.setBitIf (changed && l.calAt.isSome) (wlA w 0x11C) 8
  s.modWl w (fun l => { l with fs := BitVec.ofNat 9 fs, unipolar := uni })

/-- FS or SPAN has been written before the present tick with a value that is not in force (R206, R411). A write of the values in force makes
no span change: R206 speaks of a write and does not say whether such a one counts (DESIGN CHOICE, log 18). -/
def State.spanWaits (s : State) (w : Lane) : Bool :=
  let c := s.settledW (wlA w 0x100)
  decide (s.wl[w].fs ≠ BitVec.ofNat 9 (fld c 24 16) ∨ s.wl[w].unipolar ≠ c.getLsbD 8)

/-- The lane enters OFF: modulator and NCO stop, WLN_NCO_NOW reads zero, a waiting LOAD is cleared (R179, R181, R201). -/
def State.laneOff (s : State) (w : Lane) : State :=
  (s.modWl w (fun l => { l with state := .off, nco := {}, load := .none, disarmHeld := false, reconnect := false
                                glideEnd := none, snapFreq := 0, snapP := 0 })).cmdDrop (wlA w 0x20) 1

/-- Put a request into the governor's queue: those of one tick in ascending lane number (R203). -/
def govInsert (r : GovReq) : List GovReq → List GovReq
  | [] => [r]
  | x :: l => if x.takenAt = r.takenAt ∧ r.lane < x.lane then r :: x :: l else x :: govInsert r l

def State.govJoin (s : State) (k : GovKind) (w : Lane) : State :=
  { s with gov := { s.gov with queue := govInsert { kind := k, lane := w, takenAt := s.clk.now } s.gov.queue } }

/-- GOV_CFG.DISARM_GOV in force (R203, R215). -/
def State.disarmGov (s : State) : Bool := s.effB (clkA 0x400) 8

/-- The lane is disconnected and leaves for OFF, through the governor or at once (R202, R203). -/
def State.laneDisarm (s : State) (w : Lane) : State :=
  let s := s.modWl w (fun l => { l with disarmHeld := false, reconnect := false
                                        reason := if l.state = .armed then 1 else l.reason })
  let s := s.laneCmdEnd w 1
  if s.disarmGov then (s.modWl w (fun l => { l with state := .disarming })).govJoin .disarm w
  else (s.laneOff w).laneCmdEnd w 6

/-- A cluster's entry into IDLE lets its held DISARMs act (R202). -/
def State.lanesIdle (s : State) (n : Clu) : State :=
  (s.lanesOf n).foldl (fun s w => if s.wl[w].disarmHeld ∧ (s.wl[w].state = .armed ∨ s.wl[w].state = .tripped) then s.laneDisarm w else s) s

/-- Every lane enters OFF at once, with REASON = RESET where it leaves ARMED (R205, R210), and NCO actions on their way are gone. -/
def State.lanesReset (s : State) : State :=
  let s := (allFin 16).foldl (fun s w =>
    let s := s.modWl w (fun l => { l with reason := if l.state = .armed then 4 else l.reason })
    (((s.laneOff w).cmdDrop (armA w) 7).cmdDrop (armNewA w) 7).modWl w (fun l => { l with acts := [], planReads := [] })) s
  { s with gov := {} }

end Sys2Proof.Machine
end

