-- ==== Sys2Proof/Machine/NcoOps.lean ====
section
/-! DEFINITION. Scheduling NCO actions (R180, R181, R183 to R185): the sources that a sequencer drives. -/
namespace Sys2Proof.Machine

/-- The lane's NCO registers in force, laid out as a plan entry (R181, R186). -/
def State.loadWords (s : State) (w : Lane) : BitVec 256 :=
  let c := s.effW (wlA w 0x20)
  let w1 := fld c 31 16 * 65536 + s.effF (wlA w 0x14) 15 0
  let w4 := fld c 2 2 * 2 ^ 31 + fld c 3 3 * 2 ^ 30 + fld c 4 4 * 2 ^ 29 + fld c 6 5 * 2 ^ 27 + fld c 7 7 * 2 ^ 26
  BitVec.ofNat 256 ((s.effW (wlA w 0x10)).toNat + w1 * 2 ^ 32 + (s.effW (wlA w 0x18)).toNat * 2 ^ 64 +
    s.effF (wlA w 0x1C) 15 0 * 2 ^ 96 + w4 * 2 ^ 128)

/-- LANE_MASK of plan words: 0 means every lane of the cluster (R180). -/
def planActsOn (words : BitVec 256) (w : Lane) : Bool :=
  let m := bitsOf words.toNat 143 128
  decide (m = 0) || m.testBit w.val

/-- The words of a plan entry for an action instant, once NCO_PLAN_READ has read them (R183). -/
def State.planWords (s : State) (w : Lane) (due p : Nat) : Option (BitVec 256) :=
  (s.wl[w].planReads.find? (fun x => decide (x.1 = due ∧ x.2.1 = p))).map (fun x => x.2.2)

/-- Schedule an action on a lane. -/
def State.ncoAdd (s : State) (w : Lane) (a : NcoAct) : State := s.modWl w (fun l => { l with acts := l.acts ++ [a] })

/-- A plan entry acts at an instant on the lanes that a cluster binds and the entry's mask names (R180, R181). The
words stay open until the entry has been read (R183). A lane counts as bound to the cluster if it is so when the action is produced: R180
does not say whether the binding counts then or at the action instant (DESIGN CHOICE, log 21). -/
def State.ncoPlanAct (s : State) (n : Clu) (due p rank : Nat) : State :=
  (s.lanesOf n).foldl (fun s w =>
    let words := s.planWords w due p
    if words.any (fun x => !planActsOn x w) then s
    else s.ncoAdd w { due := due, rank := rank, plan := some (BitVec.ofNat 14 p), from_ := n, words := words }) s

/-- The plan actions that a play of an entry brings a lane: its segment start and its marker slots (R181). -/
def State.playPlans (s : State) (n : Clu) (w : Lane) (e : BitVec 256) (start : Nat) : List (Nat × Nat) :=
  (if eNcoEn e then [(start, eNcoAct e)] else []) ++
  (if eMkpEn e then
    (List.range 8).filterMap (fun k =>
      let w1 := s.mkWord (eMkp e) k 1
      if w1.getLsbD 31 ∧ w1.getLsbD 30 ∧ s.clu[n].wBound.getLsbD w then
        some (start + fld (s.mkWord (eMkp e) k 0) 29 0 * s.tsOf n, fld w1 29 16) else none)
  else [])

/-- An NCO action falls in a cycle of a lane: one that is scheduled, or one that the play in progress brings (R181, R196). -/
def State.actsIn (s : State) (w : Lane) (m : Nat) : Bool :=
  s.wl[w].acts.any (fun a => decide (s.cycleFrom a.due = m)) ||
  (match s.laneOwner w with
    | none => false
    | some n => (s.playPlans n w s.clu[n].entry s.clu[n].playStart).any (fun x => decide (s.cycleFrom x.1 = m)))

/-- The band follows new values in force of WLN_QB, from the first cycle from an instant on; an NCO action of that cycle moves it together
with them (R196). The NCO has been advanced to the cycle before. -/
def State.bandFollow (s : State) (fu : Nat) (w : Lane) : State :=
  let m := s.cycleFrom fu
  if s.wl[w].nco.running && s.actsIn w m then s
  else (s.bandAt w m s.wl[w].nco.freqNow true).snapAgain w m

/-- A LOAD of a lane acts at an instant, with the register values then in force (R181, R185). -/
def State.ncoLoadAct (s : State) (w : Lane) (due : Nat) : State :=
  ((s.modWl w (fun l => { l with load := .none })).cmdTake (wlA w 0x20) 1).ncoAdd w { due := due, rank := 0, plan := none, words := some (s.loadWords w) }

/-- At a segment start waiting LOADs act, and then the entry's own plan (R181, R184). -/
def State.ncoSegment (s : State) (n : Clu) (at_ : Nat) (e : BitVec 256) : State :=
  let s1 := (s.lanesOf n).foldl (fun s w => if s.wl[w].load = .segmentStart then s.ncoLoadAct w at_ else s) s
  if eNcoEn e then s1.ncoPlanAct n at_ (eNcoAct e) 1 else s1

/-- A LOAD that waits for a segment start acts at the first management tick once its cluster is IDLE (R181). -/
def State.ncoIdle (s : State) (n : Clu) : State :=
  (s.lanesOf n).foldl (fun s w =>
    s.modWl w (fun l => if l.load = .segmentStart then { l with load := .managementTick, loadAt := s.clk.now } else l)) s

end Sys2Proof.Machine
end

