-- ==== Sys2Proof/Machine/PatternOps.lean ====
section
/-! DEFINITION. Pattern pins: the drive pairs and their spacing (R221, R222, R247), open strobes and vectors (R225,
R228 to R231, R248), timing sets (R250 to R253) and TCAL (R254). -/
namespace Sys2Proof.Machine

/-- Pin j of a pin group (R216). -/
def pinOf (g : Pg) (j : Fin 16) : PinIdx := Fin.ofNat 64 (16 * g.val + j.val)

/-! ### Drive pairs (R221, R247) -/

/-- The edges of a pair that lie at or before an instant, applied to its level. -/
def levelAt (base : Bool) (edges : List Edge) (fu : Nat) : Bool :=
  match (edges.filter (fun e => decide (e.at_ ≤ fu))).getLast? with
  | some e => e.level
  | none => base

/-- The logical level of the drive-data pair at an instant (R221). -/
def Pin.ddAt (p : Pin) (fu : Nat) : Bool := levelAt p.dd p.ddEdges fu

/-- Whether the driver is on at an instant (R221). -/
def Pin.deAt (p : Pin) (fu : Nat) : Bool := levelAt p.de p.deEdges fu

/-- The level of pin p's PDD pair at the balls at an instant: DD_INV in force inverts it (R221, R238); a clamp holds it low (R437, R461). -/
def State.pddBall (s : State) (p : PinIdx) (fu : Nat) : Bool := !s.clamped && (s.pin[p].ddAt fu != s.effB (pinA p 0) 0)

/-- The level of pin p's PDE pair at the balls at an instant: DE_INV in force inverts it (R221, R238); a clamp holds it at driver off
(R437, R461), inverted too (DEDUCED, log 22). -/
def State.pdeBall (s : State) (p : PinIdx) (fu : Nat) : Bool := (!s.clamped && s.pin[p].deAt fu) != s.effB (pinA p 0) 1

/-- Edges that an instant has passed become the level of their pair. -/
def Pin.settle (p : Pin) (fu : Nat) : Pin :=
  let last := fun (l : List Edge) (x : Option Nat) =>
    match (l.filter (fun e => decide (e.at_ ≤ fu))).getLast? with | some e => some e.at_ | none => x
  { p with
    dd := p.ddAt fu, lastDd := last p.ddEdges p.lastDd, ddEdges := p.ddEdges.filter (fun e => decide (fu < e.at_))
    de := p.deAt fu, lastDe := last p.deEdges p.lastDe, deEdges := p.deEdges.filter (fun e => decide (fu < e.at_)) }

/-- The edges of a pin that satisfy a test stay, the others are cancelled. -/
def Pin.keep (p : Pin) (f : Edge → Bool) : Pin := { p with ddEdges := p.ddEdges.filter f, deEdges := p.deEdges.filter f }

/-- Place an edge on a pair: no transition where the pair already holds the level; at least 256 fine units after the
previous transition, and whether it was delayed (R245, R247). -/
def placeEdge (base : Bool) (last : Option Nat) (edges : List Edge) (x : Edge) : List Edge × Bool :=
  let prev := edges.getLast?
  let level := (prev.map Edge.level).getD base
  let after := match prev with | some e => some e.at_ | none => last
  if level = x.level then (edges, false)
  else
    let t := match after with | some a => max x.at_ (a + 256) | none => x.at_
    (edges ++ [{ x with at_ := t }], decide (x.at_ < t))

/-- The address of a timing register of group g (R257). -/
def tsgA (g : Pg) (off : Nat) : Nat := pgA g (0x100 + off)

/-- A delayed edge or a cancelled strobe counts (R247, R248, R257). -/
def State.crowd (s : State) (g : Pg) (bit : Nat) : State := (s.count (tsgA g 0x10) 1).setBit (tsgA g 8) bit

/-- Place an edge on the drive-data pair of pin j. -/
def State.ddEdge (s : State) (g : Pg) (j : Fin 16) (x : Edge) : State :=
  let p := s.pin[pinOf g j]
  let r := placeEdge p.dd p.lastDd p.ddEdges x
  let s1 := s.modPin (pinOf g j) (fun p => { p with ddEdges := r.1 })
  if r.2 then s1.crowd g 1 else s1

/-- Place an edge on the drive-enable pair of pin j. -/
def State.deEdge (s : State) (g : Pg) (j : Fin 16) (x : Edge) : State :=
  let p := s.pin[pinOf g j]
  let r := placeEdge p.de p.lastDe p.deEdges x
  let s1 := s.modPin (pinOf g j) (fun p => { p with deEdges := r.1 })
  if r.2 then s1.crowd g 1 else s1

/-! ### Results of vectors (R227 to R231) -/

/-- A record of the fail log (R230). -/
def VecOpen.record (v : VecOpen) (g : Pg) (time : Nat) (seq : Word) : BitVec 256 :=
  let w3 := (if v.fails ≠ 0 then 2 ^ 28 else 0) + (if v.cap then 2 ^ 27 else 0) + g.val * 2 ^ 25 + v.ts.toNat * 2 ^ 20 +
    v.play % 2 ^ 20
  let w4 := v.cluster.val * 2 ^ 17 + v.entry.toNat
  let w5 := (v.fails ||| v.passes).toNat * 2 ^ 16 + v.fails.toNat
  let w6 := if v.cap then v.obsCl.toNat * 2 ^ 16 + v.obsCh.toNat else 0
  BitVec.ofNat 256 (time + (v.idx % 2 ^ 30) * 2 ^ 64 + w3 * 2 ^ 96 + w4 * 2 ^ 128 + w5 * 2 ^ 160 + w6 * 2 ^ 192 +
    seq.toNat * 2 ^ 224)

/-- A record produced by the group enters the writer's queue of 64, or is lost (R229, R231). -/
def State.logVector (s : State) (g : Pg) (v : VecOpen) : State :=
  let p := s.pg[g]
  let wants := (s.effB (pgA g 0) 0 && decide (v.fails ≠ 0)) || v.cap
  if p.flSize = 0 || !wants then s
  else
    let s1 := s.modPg g (fun p => { p with flSeq := p.flSeq + 1 })
    if 64 ≤ p.flQueue.length then (s1.count (pgA g 0x3C) 1).setBit (pgA g 8) 4
    else s1.modPg g (fun q => { q with flQueue := q.flQueue ++ [v.record g (s.tbAt (upTick v.start)) p.flSeq] })

/-- The first-fail record that a failing vector would leave (R228). -/
def State.firstFail (s : State) (v : VecOpen) : FirstFail :=
  { entry := v.entry, play := BitVec.ofNat 20 v.play, vec := BitVec.ofNat 30 v.idx
    time := BitVec.ofNat 64 (s.tbAt (upTick v.start)), mask := v.fails }

/-- Take the first-fail record (R228). -/
def State.takeFf (s : State) (g : Pg) (f : FirstFail) : State :=
  (s.modPg g (fun p => { p with ff := some f, ffArmed := false })).setBit (pgA g 8) 0

/-- A vector whose strobes have all sampled or been cancelled (R225, R228, R229). -/
def State.closeVector (s : State) (g : Pg) (v : VecOpen) : State :=
  let s1 : State :=
    if v.fails = 0 then s
    else
      let f := s.firstFail v
      let note := s.modPg g (fun p => { p with ffLast := some (s.clk.now, f) })
      let s0 : State := match s.pg[g].ffLast with
        | some x => if x.1 = s.clk.now then s else note
        | none => note
      if s.pg[g].ffArmed then s0.takeFf g f else s0
  s1.logVector g v

/-- Close the vectors of the group that wait for no strobe, in the order in which they play: one whose strobes end sooner than those of a
vector before it waits for that vector, so that the first failing vector fills the record (R228; DEDUCED, log 17). -/
def State.closeVectors (s : State) (g : Pg) : State :=
  let done := fun v : VecOpen => !s.pg[g].strobes.any (fun x => decide (x.vec = v.start))
  (s.pg[g].vecs.takeWhile done).foldl (fun s v => s.closeVector g v) (s.modPg g (fun p => { p with vecs := p.vecs.dropWhile done }))

/-! ### Cuts and parks (R23, R222) -/

/-- A strobe that has some instant at or after a cut. A compare window that opens before the cut and closes at or after it counts whole, even
where a failing interval of it would have been complete before the cut: R234 says so of the match cut, and R23 does not say when a window
of a switch is cancelled (DESIGN CHOICE, log 17). -/
def StrobePend.reaches (x : StrobePend) (fu : Nat) : Bool :=
  decide (fu ≤ x.atCh ∨ fu ≤ x.atCl) || (x.window && decide (fu ≤ x.closeCh ∨ fu ≤ x.closeCl))

/-- Edges and strobes of a group at or after an instant are cancelled, of the vectors whose start satisfies a test. A capture's sample is
cancelled like a strobe: the record is produced all the same, with that pin's OBS bits 0 (DESIGN CHOICE, log 17). -/
def State.cutGroup (s : State) (g : Pg) (at_ : Nat) (f : Nat → Bool) : State :=
  let s1 := (allFin 16).foldl (fun s j => s.modPin (pinOf g j) (fun p => p.keep (fun e => !f e.vec || decide (e.at_ < at_)))) s
  (s1.modPg g (fun p => { p with strobes := p.strobes.filter (fun x => !(f x.vec && x.reaches at_)) })).closeVectors g

/-- A switch cuts short the vector in progress on every group of a cluster: edges and strobes of earlier vectors, which deskew carries past
the switch, stay (R23, R249). -/
def State.cutGroups (s : State) (n : Clu) (at_ : Nat) : State :=
  (s.groupsOf n).foldl (fun s g =>
    if at_ < s.pg[g].vecNext then s.cutGroup g at_ (fun v => decide (v = s.pg[g].vecNext - s.pg[g].vecPeriod)) else s) s

/-- Pin j parks from an instant: drive off with the data low (R222). -/
def State.parkPin (s : State) (g : Pg) (j : Fin 16) (at_ : Nat) : State :=
  (s.deEdge g j { at_ := at_, level := false, vec := at_ }).ddEdge g j { at_ := at_, level := false, vec := at_ }

/-- Every pin of a cluster's groups parks from an instant (R222). -/
def State.parkGroups (s : State) (n : Clu) (at_ : Nat) : State :=
  (s.groupsOf n).foldl (fun s g => (allFin 16).foldl (fun s j => s.parkPin g j at_) (s.cutGroup g at_ (fun _ => true))) s

/-! ### Timing sets (R250 to R253) -/

/-- The keys of a group's timing sets in the window. -/
def setKey (g : Pg) (k : Nat) : Bool := decide (setBase g 0 ≤ k ∧ k < setBase g 32)

/-- Replace a group's words of one keyed store by those of another. -/
def setMerge (g : Pg) (old new : SMap Word) : SMap Word :=
  old.filter (fun x => decide (x.1 < setBase g 0)) ++ new.filter (fun x => setKey g x.1) ++
    old.filter (fun x => decide (setBase g 32 ≤ x.1))

/-- The group's sets in force are about to change. While data of a run plays out, the vectors about to start have read their sets already,
so the sets as they were are kept until the play-out ends (R253, R447). -/
def State.noteSets (s : State) (g : Pg) : State :=
  if (s.pgOwner g).any (fun n => s.clu[n].resetPark.isSome) then
    s.modPg g (fun p => { p with setsWas := (s.clk.now, s.tabs.tset.filter (fun x => setKey g x.1)) :: p.setsWas })
  else s

/-- The group's shadow copies into its sets in force (R253). -/
def State.copyTset (s : State) (g : Pg) : State :=
  let s1 := s.noteSets g
  { s1 with tabs := { s1.tabs with tset := setMerge g s1.tabs.tset s1.tabs.tsetShadow } }

/-- The shadow differs from the sets in force (R253). -/
def State.tsetPending (s : State) (g : Pg) : Bool :=
  decide (s.tabs.tset.filter (fun x => setKey g x.1) ≠ s.tabs.tsetShadow.filter (fun x => setKey g x.1))

/-- Event e of pin j in a set: enabled, and its offset (R243, R250). -/
def eventOf (w : Nat → Word) (j : Fin 16) (e : Nat) : Option Nat :=
  let x := w (16 + 8 * j.val + e)
  if x.getLsbD 31 then some (fld x 23 0) else none

/-- FMT and SMODE of pin j in a set (R245, R246, R250). -/
def fmtOf (w : Nat → Word) (j : Fin 16) : Nat := fld (w (22 + 8 * j.val)) 1 0
def windowed (w : Nat → Word) (j : Fin 16) : Bool := (w (22 + 8 * j.val)).getLsbD 4

/-- Two events both enabled, the second less than 256 fine units after the first (R251). -/
def tooNear (a b : Option Nat) : Bool :=
  match a, b with
  | some x, some y => decide (y < x + 256)
  | _, _ => false

/-- A pin's part of a set keeps R251. -/
def pinSetOk (w : Nat → Word) (j : Fin 16) : Bool :=
  let ev := eventOf w j
  let period := (fld (w 0) 14 0 + 1) * 512
  (List.range 6).all (fun e => decide (w (16 + 8 * j.val + e) &&& 0x7F000000#32 = 0) &&
    match ev e with | some x => decide (x < period) | none => true) &&
  decide (w (22 + 8 * j.val) &&& 0xFFFFFFEC#32 = 0) && decide (w (23 + 8 * j.val) = 0) &&
  !tooNear (ev 0) (ev 1) && !tooNear (ev 2) (ev 3) &&
  !(decide (fmtOf w j = 3) && match ev 0 with | some x => decide (x < 256) | none => false) &&
  !(windowed w j && tooNear (ev 4) (ev 5))

/-- The reserved words of a set are zero (R250, R251). -/
def setReservedOk (w : Nat → Word) : Bool :=
  decide (w 0 &&& 0x7FFF8000#32 = 0) && (List.range 15).all (fun i => decide (w (i + 1) = 0)) &&
  (List.range 112).all (fun i => decide (w (144 + i) = 0))

/-- A set of 256 words is not broken (R251). -/
def setOk (w : Nat → Word) : Bool := (w 0).getLsbD 31 && setReservedOk w && (allFin 16).all (pinSetOk w)

/-- A set is broken, for a vector that starts at an instant (R251, R253). -/
def State.setBroken (s : State) (g : Pg) (at_ set : Nat) : Bool := !setOk (s.tsetWord g at_ set)

/-- TSG_BAD (R252, R257). -/
def State.tsgBad (s : State) (g : Pg) : Word :=
  (List.range 32).foldl (fun m i => if s.setBroken g s.setSoon i then m ||| bit32 i else m) 0

/-! ### TCAL (R254) -/

/-- The group is bound to no cluster, or its cluster is IDLE. -/
def State.pgIdle (s : State) (g : Pg) : Bool :=
  match s.pgOwner g with
  | none => true
  | some n => decide (s.clu[n].state = .idle)

/-- A start ends a TCAL that runs (R254). -/
def State.tcalAbort (s : State) (g : Pg) : State :=
  if s.pg[g].tcalUntil.isSome then ((s.modPg g (fun p => { p with tcalUntil := none })).setBit (tsgA g 8) 6).cmdTake (tsgA g 0) 1 else s

end Sys2Proof.Machine
end

