-- ==== Sys2Proof/Machine/Sequencer.lean ====
section
/-! DEFINITION. The sequencers (R71 to R104): starts, commits, plays, stops, trigger lines and markers. Instants of
plays are in fine units on the physical axis. -/
namespace Sys2Proof.Machine

/-! ### Cancelling a jump (R121, R122) -/

/-- A scheduled jump is dropped and counted as cancelled (R122). Under DIVERT no jump then serves the LATE request
(R160). -/
def State.dropJump (s : State) (n : Clu) : State :=
  let s1 := (s.markNeeded n).modClu n (fun k => { k with
    sched := none, foreseenAt := s.clk.now, latePend := k.latePend.map (fun l => { l with unserved := true }) })
  (s1.count (cluA n 0x12C) 1).setBit (cluA n 0x118) 8

/-- Cancel a scheduled jump; `soft` for STOP, ABORT and a per-cluster reset, which a jump whose data has been released
outlives (R121). Its data is released at its switch instant less D; as for an ABORT's fret (R99), released means before the present tick
(DEDUCED, log 14). -/
def State.cancelJump (s : State) (n : Clu) (soft : Bool) : State :=
  match s.clu[n].sched with
  | none => s
  | some j =>
    if soft && decide (s.switchAt n j < (s.clk.now + s.leadOf n) * 1024) then s else s.dropJump n

/-! ### Entering IDLE (R99) -/

/-- What entry into IDLE brings: Start and segment-start fields (R103, R129), the timing sets (R253), waiting LOADs
(R181) and the Hosted object (R390). -/
def State.idleEffects (s : State) (n : Clu) : State :=
  let fu := s.clk.now * 1024
  let s0 := (s.lanesOf n).foldl (fun s w => s.ncoSync fu w) s
  let s1 := s0.releaseObject n
  let s2 := s1.applyIdle n
  let s3 := (s2.groupsOf n).foldl State.copyTset s2
  let s4 := (s3.lanesOf n).foldl (fun s w => s.bandFollow fu w) s3
  (s4.ncoIdle n).lanesIdle n

/-- The cluster goes IDLE at an instant with a stop reason; every lane parks (R85, R99). -/
def State.stopCluster (s : State) (n : Clu) (reason : Nat) (at_ : Nat) : State :=
  let was := decide (s.clu[n].state ≠ .idle)
  let s1 := ((s.markNeeded n).cutGroups n at_).parkGroups n at_
  let s2 := s1.cancelJump n false
  let s3 := s2.modClu n (fun k => { k with
    state := .idle, stopReason := BitVec.ofNat 4 reason, stack := [], abortAt := none, latePend := none
    matchOutcome := none, resetPark := none, outStack := [], lead := none })
  (s3.idleEffects n).setBitIf was (cluA n 0x40) 1

/-! ### Trigger lines (R95 to R97) -/

/-- TRG_CTRL.WIDTH in force. -/
def State.trgWidth (s : State) : Nat := s.effF 0x200 13 8

/-- Sequencer n pulses a line at a tick (R95, R96). -/
def State.pulseLine (s : State) (n : Clu) (l : Fin 8) (t : Nat) : State :=
  let merged := match s.trg.last[l] with
    | some (u, m) => decide (u = t ∧ m ≠ n)
    | none => false
  let s1 := s.setBitIf merged 0x204 l
  let s2 := { s1 with trg := { fallAt := s1.trg.fallAt.set l (some (t + s1.trgWidth + 1)), last := s1.trg.last.set l (some (t, n)) } }
  s2.fire (16 + l) t

/-- TRIGGER_PULSE_END (R95): the line falls WIDTH + 1 ticks after its last pulse began. -/
def execTriggerPulseEnd (l : Fin 8) (s : State) : Host.Outcome State Fault Refusal :=
  s.guarded fun s =>
    match s.trg.fallAt[l] with
    | none => s
    | some t =>
      let s := s.upto t
      { s with trg := { s.trg with fallAt := s.trg.fallAt.set l none } }

/-- The levels of the TRG balls: the line where OE is 1, else low (R97). -/
def State.trgBalls (s : State) : BitVec 8 :=
  (allFin 8).foldl (fun m (l : Fin 8) =>
    if s.trg.fallAt[l].isSome ∧ (s.effW 0x200).getLsbD l.val then m ||| (1#8 <<< l.val) else m) 0

/-! ### Plays and commits (R85, R86, R89) -/

/-- The checks of R85 on an entry for cluster n; 0 where they pass. -/
def State.commitCheck (s : State) (n : Clu) (i : Nat) : Nat :=
  let e := s.entry i
  let l := s.layoutOf n
  if !s.publishedFor n i then 1
  else if !l.lengthOk (eLenGr e) then 2
  else if !s.rangeOk e l then 3
  else 0

/-- A segment start (R95, R103, R129, R181, R228): the play begins at an instant. -/
def State.startPlay (s : State) (n : Clu) (at_ : Nat) : State :=
  let k := s.clu[n]
  let e := k.entry
  let t := upTick at_
  let s := s.upto t
  let s := (s.lanesOf n).foldl (fun s w => s.ncoSync at_ w) s
  let s := s.applyWhere (fun a b => decide (b = .segment) && decide (s.addrOwner a = some n))
  let s := s.modClu n (fun k => { k with playStart := at_, playNo := k.playNo + 1, engine := none, matchFail := false, matchParked := false
                                         matchOutcome := none, starts := k.starts.countMod (2 ^ 64) s.clk.now 1 })
  let s := s.modEntry k.seg.toNat (fun r => { r with heat := r.heat + 1 })
  let s := (s.groupsOf n).foldl (fun s g => s.modPg g (fun p => { p with vecNext := at_, vecIdx := 0, unlanded := [] })) s
  let pulse := decide (eTrgMask e ≠ 0) && (!eTrgOnce e || decide (k.plays = 0))
  let s := if pulse then (setBits 8 (eTrgMask e)).foldl (fun s l => s.pulseLine n (Fin.ofNat 8 l) t) s else s
  let s := s.ncoSegment n at_ e
  ((s.lanesOf n).foldl (fun s w => s.bandFollow at_ w) s).markNeeded n

/-- A sequence fault (R85): the cluster parks and stops at the instant, and the supervisor records it. -/
def State.seqFault (s : State) (n : Clu) (code : Nat) (i : BitVec 17) (at_ : Nat) : State :=
  let s := s.upto (upTick at_)
  let s := s.modClu n (fun k => { k with seqCode := BitVec.ofNat 4 code, seqEntry := i })
  let s := s.report { cls := 2, cause := BitVec.ofNat 8 code, cluster := some n, source := 0xFF, entry := i
                      time := BitVec.ofNat 64 (s.tbAt (upTick at_)) }
  s.stopCluster n 4 at_

/-- The loop stack of what plays: of data that plays out after a per-cluster reset the stack by which it was released, for the cluster's own
is empty (R447). -/
def Cluster.nowStack (k : Cluster) : List Frame := if k.resetPark.isSome then k.outStack else k.stack

/-- That stack takes a new value. -/
def Cluster.putStack (k : Cluster) (st : List Frame) : Cluster :=
  if k.resetPark.isSome then { k with outStack := st } else { k with stack := st }

/-- Take an entry as committed, with its stack, and start its first play (R76, R86, R389, R447). -/
def State.playEntry (s : State) (n : Clu) (i : BitVec 17) (e : BitVec 256) (st : List Frame) (at_ : Nat) : State :=
  let s := (s.upto (upTick at_)).modClu n (fun k => { k.putStack st with seg := i, entry := e, plays := 0 })
  (s.takeObject n e).startPlay n at_

/-- Commit to an entry at an instant (R85, R89). -/
def State.commit (s : State) (n : Clu) (i : BitVec 17) (loopback : Bool) (st : List Frame) (at_ : Nat) : State :=
  let code := s.commitCheck n i.toNat
  if code ≠ 0 then s.seqFault n code i at_
  else
    let e := s.entry i.toNat
    match commitStack i e loopback st with
    | none => (s.modClu n (fun k => { k with stack := st })).seqFault n 4 i at_
    | some st1 => (s.modClu n (fun k => { k with copyAge := 0 })).playEntry n i e st1 at_

/-- Leave the entry playing at its final fret (R86, R89, R90). -/
def State.leave (s : State) (n : Clu) (at_ : Nat) : State :=
  let k := s.clu[n]
  let l := leaveEntry k.entry k.stack
  let s := if l.underflow then
      ({ s with ctr := smMod (fun _ => {}) s.ctr (cluA n 0x38) (fun c => c.count 0xFFFF s.clk.now 1) }).setBit (cluA n 0x40) 5
    else s
  let s := (s.markNeeded n).releaseObject n
  let s := s.modClu n (fun k => { k with stack := l.stack })
  match l.next with
  | none => s.stopCluster n 1 at_
  | some (i, lb) => s.commit n i lb l.stack at_

/-- Play the entry again (R86). -/
def State.again (s : State) (n : Clu) (at_ : Nat) : State := s.startPlay n at_

/-- MATCH or NOMATCH of a cluster with timestamp F, towards the Bridge and its own conditions (R87, R110, R235). It is raised once the
step at F is made: it reaches the condition latch at F + 1, with the COND_SRC then in force, as a Bridge event does (DEDUCED, log 14). -/
def State.raiseMatch (s : State) (n : Clu) (matched : Bool) (t : Nat) : State :=
  let s1 := s.fire ((if matched then 100 else 108) + n) t
  let src : Fin 4 := if matched then 1 else 2
  s1.modClu n (fun k => { k with arriving := k.arriving ++
    ((allFin 16).filter (fun c => decide (s.condSrc n c = src.val))).map (fun c => { cond := c, ts := t, src := src }) })

/-- The compare outcome of the match play that ends (R87, R161, R234). -/
def State.playPassed (s : State) (n : Clu) : Bool :=
  let k := s.clu[n]
  k.matchOutcome.getD (!k.matchFail) && !k.matchParked

/-- The data of a cluster that a per-cluster reset has taken still plays before t + D (R447). -/
def State.playsOut (s : State) (n : Clu) (at_ : Nat) : Bool :=
  match s.clu[n].resetPark with
  | some p => decide (at_ < p * 1024)
  | none => false

/-- The cluster plays at an instant. -/
def State.playing (s : State) (n : Clu) (at_ : Nat) : Bool :=
  decide (s.clu[n].state = .run ∨ s.clu[n].state = .stopping) || s.playsOut n at_

/-- The step of data that plays out after a per-cluster reset: only what it starts (R447). -/
def State.playOutStep (s : State) (n : Clu) (at_ : Nat) : State :=
  let k := s.clu[n]
  let e := k.entry
  if (!eMatch e || !s.hasP n) && (decide (eRepeat e = 0) || decide (k.plays < eRepeat e)) then s.startPlay n at_
  else
    let l := leaveEntry e k.outStack
    match l.next with
    | none => s.cancelJump n false
    | some (i, lb) =>
      if s.commitCheck n i.toNat ≠ 0 then s.cancelJump n false else
      let st := (commitStack i (s.entry i.toNat) lb l.stack).getD l.stack
      let s := s.modClu n (fun k => { k with seg := i, entry := s.entry i.toNat, plays := 0, outStack := st })
      s.startPlay n at_

/-- The slot of a jump that switches is free; under DIVERT the jump that serves the LATE request ends its park, or comes before it (R158,
R160). Any other late fault keeps its late instant. -/
def Cluster.freeJump (k : Cluster) : Cluster :=
  if k.latePend.any (fun l => decide (l.action = 2) && !l.unserved) then { k with sched := none, latePend := none, parked := false }
  else { k with sched := none }

/-- The switch of a scheduled jump at its switch instant (R90, R115, R116): an End jump is committed as a successor is, any other from the
target as read at T + 12. -/
def State.takeJump (s : State) (n : Clu) (j : Sched) (at_ : Nat) : State :=
  let k := s.clu[n]
  let taken := fun s : State => ((s.modClu n Cluster.freeJump).count (cluA n 0x120) 1).setBit (cluA n 0x118) 6
  let hot := fun s : State => s.modEntry j.target.toNat (fun r => { r with heat := r.heat + 4 })
  let st := k.nowStack
  let s := (s.upto (upTick at_)).markNeeded n
  match j.mode with
  | .atEnd =>
    let e := s.entry j.target.toNat
    let ok := decide (s.commitCheck n j.target.toNat = 0) && (commitStack j.target e false st).isSome
    let s := s.releaseObject n
    if ok then (hot (taken s)).commit n j.target false st at_
    else if k.resetPark.isSome then s.cancelJump n false
    else s.commit n j.target false st at_
  | _ =>
    let e := (j.read.map TargetRead.entry).getD (s.entry j.target.toNat)
    let st := (commitStack j.target e false st).getD st
    let s := (s.cutGroups n at_).releaseObject n
    ((hot (taken s)).modClu n (fun k => { k with copyAge := j.age })).playEntry n j.target e st at_

/-- FINAL_FRET (R86 to R90, R99, R116, R121, R236): the step at the final fret F of the play in progress. In STOPPING the cluster stops
there, unless a jump past cancellation still lies ahead: then the step is made as normal, and the cluster stops at the final fret of the
play that the jump brings (DEDUCED, log 14). -/
def execFinalFret (n : Clu) (s : State) : Host.Outcome State Fault Refusal :=
  s.guarded fun s =>
    let f := s.finalFret n
    let t := upTick f
    if !s.playing n f then s else
    let k := s.clu[n]
    let s := s.upto t
    match k.sched with
    | some j =>
      if j.checked ∧ s.switchAt n j ≤ f then s.takeJump n j f
      else step_ s k f t
    | none => step_ s k f t
where
  step_ (s : State) (k : Cluster) (f t : Nat) : State :=
    let e := k.entry
    let s := s.modClu n (fun k => { k with plays := k.plays + 1 })
    let plays := k.plays + 1
    let ends := decide (k.state = .stopping) && !k.sched.any Sched.past
    let isMatch := eMatch e && s.hasP n
    let passed := s.playPassed n
    let spent := decide (eRepeat e ≠ 0 ∧ plays = eRepeat e)
    if k.resetPark.isSome then s.playOutStep n f
    else if k.abortAt.any (fun a => decide (a ≤ f)) then s.stopCluster n 3 f
    else if ends then
      let s := s.stopCluster n 2 f
      if isMatch then (if passed then s.raiseMatch n true t else if spent then s.raiseMatch n false t else s) else s
    else if isMatch then
      if passed then (s.leave n f).raiseMatch n true t
      else if spent then (s.leave n f).raiseMatch n false t
      else s.again n f
    else if eRepeat e = 0 ∨ plays < eRepeat e then s.again n f
    else s.leave n f

/-! ### Starts (R99 to R102) -/

/-- The crossings that serve a cluster (R419, R424). -/
def State.crossingsOf (s : State) (n : Clu) : List Nat :=
  ((s.lanesOf n).map (fun w : Lane => w.val / 4)) ++ (s.groupsOf n).flatMap (fun g : Pg => [4 + g.val, 8 + g.val])

/-- A start is held: a crossing is not aligned (R19, R424), or a pending overlay affects the cluster (R57). -/
def State.startHeld (s : State) (n : Clu) : Bool :=
  (s.crossingsOf n).any (fun i => !s.alignedNow.getLsbD i) ||
    s.ovl.queue.any (fun k => s.ovl.slots[k].mask.getLsbD n)

/-- A bound pin group's VALID sets carry one period, a whole multiple of Ts; a group with none passes (R101, R251). -/
def State.groupPeriodOk (s : State) (n : Clu) (g : Pg) : Bool :=
  match (List.range 32).filterMap (fun i => s.setPeriodFu g i) with
  | [] => true
  | p :: r => r.all (fun q => decide (q = p)) && decide (p % s.tsOf n = 0)

/-- The timing sets of every bound pin group pass (R101, R251). -/
def State.periodsOk (s : State) (n : Clu) : Bool := (s.groupsOf n).all (s.groupPeriodOk n)

/-- CLU_START_TIME in force (R100). -/
def State.startTime (s : State) (n : Clu) : Nat := (s.effW (cluA n 0x10)).toNat + (s.effW (cluA n 0x14)).toNat * 2 ^ 32

/-- CLU_CTRL.TIMED in force. -/
def State.timed (s : State) (n : Clu) : Bool := s.effB (cluA n 0) 5

/-- A timed start lies too close (R100). -/
def State.startTooLate (s : State) (n : Clu) : Bool := s.timed n && decide (s.startTime n < s.tb + 3200)

/-- The first failing check of a START (R101); 0 where it is accepted. START_TIME counts where the cluster would enter
LEAD at once. -/
def State.startCheck (s : State) (n : Clu) : Nat :=
  if !s.hasW n ∧ !s.hasP n then 1
  else if (s.lanesOf n).any (fun w => decide (s.wl[w].state ≠ .armed)) then 2
  else if (s.lanesOf n).any (fun w => decide (s.formatOf w = 2)) ∧ s.kOf n = 0 then 3
  else if s.mixed n ∧ (s.mOf n < 1 ∨ 32768 < s.mOf n) then 4
  else if s.commitCheck n (s.effF (cluA n 8) 16 0) ≠ 0 then 5
  else if !s.startHeld n ∧ s.startTooLate n then 6
  else if !s.configured then 7
  else if s.mixed n ∧ !s.periodsOk n then 8
  else 0

/-- A refused start (R99, R101). -/
def State.startRefuse (s : State) (n : Clu) (code : Nat) : State :=
  (s.modClu n (fun k => { k with refuse := BitVec.ofNat 4 code })).setBit (cluA n 0x40) 2

/-- Enter LEAD (R100): the first sample is due 3,200 ticks on, or at CLU_START_TIME; a TCAL of a bound group ends
(R254), and a return to static mode too (R148). Data of the run before, which plays out after a per-cluster reset (R447), plays on. SEG_NOW
keeps the last entry until the first segment start (DESIGN CHOICE, log 14). -/
def State.enterLead (s : State) (n : Clu) : State :=
  let at_ := if s.timed n then s.physOf (s.startTime n) else s.clk.now + 3200
  let s := (s.groupsOf n).foldl State.tcalAbort s
  let s := s.modPlc (fun p => { p with switching := false })
  s.modClu n (fun k => { k with state := .lead, leadAt := at_, engine := none, foreseenAt := s.clk.now, parked := k.parked && k.resetPark.isSome })

/-- The accepted start has committed to its entry and copied it (R76, R85, R101); it waits or enters LEAD (R99). -/
def State.startAccepted (s : State) (n : Clu) : State :=
  let i := BitVec.ofNat 17 (s.effF (cluA n 8) 16 0)
  let s := s.modClu n (fun k => { k with lead := some { idx := i, entry := s.entry i.toNat } })
  if s.startHeld n then s.modClu n (fun k => { k with state := .held }) else s.enterLead n

/-- CLU_START (R99, R101, R102): taken at a management tick. -/
def execCluStart (n : Clu) (s : State) : Host.Outcome State Fault Refusal :=
  s.guarded fun s =>
    if s.prepared 1 || s.trainingHolds then s.hold (.cluStart n) else
    let s := s.cmdTake (cluA n 0) 1
    if s.clu[n].state ≠ .idle then s.setBit (cluA n 0x40) 3
    else
      let code := s.startCheck n
      if code ≠ 0 then s.startRefuse n code else s.startAccepted n

/-- CLUSTER_START_RELEASE (R99, R100, R424): a HELD start whose holds have cleared. -/
def execClusterStartRelease (n : Clu) (s : State) : Host.Outcome State Fault Refusal :=
  s.guarded fun s =>
    if s.clu[n].state ≠ .held ∨ s.startHeld n then s
    else if s.startTooLate n then
      let s := s.modClu n (fun k => { k with state := .idle, lead := none })
      ((s.startRefuse n 6).idleEffects n).setBit (cluA n 0x40) 1
    else s.enterLead n

/-- FIRST_SEGMENT_START (R99, R100): the first sample reaches the output reference plane. -/
def execFirstSegmentStart (n : Clu) (s : State) : Host.Outcome State Fault Refusal :=
  s.guarded fun s =>
    let k := s.clu[n]
    match k.state, k.lead with
    | .lead, some l =>
      let at_ := k.leadAt * 1024
      let s := (s.upto k.leadAt).modClu n (fun k => { k with
        state := .run, lead := none, runVecs := [], copyAge := l.age, resetPark := none, outStack := [], sched := none })
      let s := s.setBit (cluA n 0x40) 0
      let st := (commitStack l.idx l.entry false []).getD []
      s.playEntry n l.idx l.entry st at_
    | _, _ => s

/-! ### Stops (R99, R102, R447) -/

/-- The jump that served a LATE request under DIVERT has gone while the lanes are parked (R160). -/
def State.divertLost (s : State) (n : Clu) : Bool :=
  s.clu[n].parked && s.clu[n].latePend.any (fun l => decide (l.action = 2) && l.unserved)

/-- STOP or ABORT cancels a scheduled jump that has not been released; a DIVERT that loses its jump so, parked, acts as
HALT now (R121, R160). -/
def State.stopJump (s : State) (n : Clu) (f : State → State) : State :=
  let s1 := s.cancelJump n true
  if s1.divertLost n then s1.stopCluster n 4 (s1.clk.now * 1024) else f s1

/-- STOP or ABORT in HELD or LEAD: nothing is played (R99). Data of an earlier run that plays out after a per-cluster reset plays on to its
end (R447). -/
def State.dropStart (s : State) (n : Clu) (reason : Nat) : State :=
  if s.clu[n].resetPark.isSome then
    let s := s.modClu n (fun k => { k with state := .idle, stopReason := BitVec.ofNat 4 reason, lead := none })
    (s.idleEffects n).setBit (cluA n 0x40) 1
  else s.stopCluster n reason (s.clk.now * 1024)

/-- STOP acts on a cluster (R99). -/
def State.stop (s : State) (n : Clu) : State :=
  match s.clu[n].state with
  | .run => s.stopJump n (fun s => s.modClu n (fun k => { k with
      state := .stopping, sched := k.sched.map (fun j => { j with past := true }) }))
  | .held | .lead => s.dropStart n 2
  | _ => s.setBit (cluA n 0x40) 3

/-- The next fret of an ABORT that waits: the first fret F of the timeline as it plays with F - D at or after the ABORT's tick (R99). -/
def State.abortFret (s : State) (n : Clu) : Option Nat := s.clu[n].abortAt.map (s.fretFrom n)

/-- ABORT acts on a cluster (R99). -/
def State.abort (s : State) (n : Clu) : State :=
  match s.clu[n].state with
  | .run | .stopping =>
    s.stopJump n (fun s => s.modClu n (fun k => { k with abortAt := some (k.abortAt.getD ((s.clk.now + s.leadOf n) * 1024)) }))
  | .held | .lead => s.dropStart n 3
  | .idle => s.setBit (cluA n 0x40) 3

/-- CLU_STOP (R99). -/
def execCluStop (n : Clu) (s : State) : Host.Outcome State Fault Refusal := s.guarded fun s => s.stop n

/-- CLU_ABORT (R99). -/
def execCluAbort (n : Clu) (s : State) : Host.Outcome State Fault Refusal := s.guarded fun s => s.abort n

/-- ABORT_PARK (R94, R99): at the next fret after an ABORT; a final fret or a switch that comes before it goes first. -/
def execAbortPark (n : Clu) (s : State) : Host.Outcome State Fault Refusal :=
  s.guarded fun s =>
    match s.abortFret n with
    | none => s
    | some f =>
      if s.finalFret n < f ∨ s.clu[n].sched.any (fun j => j.checked && decide (s.switchAt n j < f)) then s
      else (s.upto (upTick f)).stopCluster n 3 f

/-- CLU_CNT_CLR (R104). -/
def execCluCntClr (n : Clu) (s : State) : Host.Outcome State Fault Refusal :=
  s.guarded fun s =>
    (s.clearCtr (cluA n 0x38)).modClu n (fun k => { k with starts := k.starts.clear s.clk.now })

/-- The counters that a per-cluster reset restarts (R104, R130, R165). -/
def cluCtrs (n : Clu) : List Nat := [0x38, 0x120, 0x124, 0x128, 0x12C, 0x148, 0x14C].map (cluA n)

/-- A START of the cluster that waits for a block or a training is cleared (R431, R447). -/
def State.dropHeldStart (s : State) (n : Clu) : State :=
  if s.pwr.held.contains (Instr.cluStart n) then
    ({ s with pwr := { s.pwr with held := s.pwr.held.filter (fun i => decide (i ≠ Instr.cluStart n)) } }).cmdDrop (cluA n 0) 1
  else s

/-- A per-cluster reset in the present tick (R447): the cluster is IDLE, and released data plays to t + D. A jump that the reset itself
cancels is counted before the counters restart, so JMP_CANCEL reads 0 after it; R130 and R447 do not say which comes first (DESIGN CHOICE,
log 22). -/
def State.clusterReset (s : State) (n : Clu) : State :=
  let k := s.clu[n]
  let was := decide (k.state ≠ .idle)
  let played := decide (k.state = .run ∨ k.state = .stopping)
  let s1 := (s.dropHeldStart n).cancelJump n true
  let park := s1.clk.now + s1.leadOf n
  let s2 := s1.modClu n (fun k => { k with
    state := .idle, stopReason := 5, stack := [], outStack := if played then k.stack else k.outStack, arriving := [], pend := []
    abortAt := none, latePend := none, lead := none, starts := {}, resetPark := if played then some park else k.resetPark })
  let s3 := { s2 with ctr := (cluCtrs n).foldl smErase s2.ctr }
  (s3.idleEffects n).setBitIf was (cluA n 0x40) 1

/-- CLUSTER_RESET (R62, R447): PWR_RST.CLU bit n; PENDING overlays are dropped, as by any reset (DEDUCED, log 21). -/
def execClusterReset (n : Clu) (s : State) : Host.Outcome State Fault Refusal :=
  s.guarded fun s => (s.clusterReset n).dropPending.cmdTake (clkA 0x10) (bit32 n)

/-- The play-out of a per-cluster reset ends at an instant: every lane parks (R447). -/
def State.endPlayOut (s : State) (n : Clu) (at_ : Nat) : State :=
  let s := ((s.cutGroups n at_).parkGroups n at_).cancelJump n false
  let s := (s.groupsOf n).foldl (fun s g => s.modPg g (fun p => { p with setsWas := [] })) s
  s.modClu n (fun k => { k with resetPark := none, outStack := [], parked := k.parked && decide (k.state ≠ .lead) })

/-- CLUSTER_RESET_PARK (R447): from t + D every lane plays park values. -/
def execClusterResetPark (n : Clu) (s : State) : Host.Outcome State Fault Refusal :=
  s.guarded fun s =>
    match s.clu[n].resetPark with
    | none => s
    | some p => (s.upto p).endPlayOut n (p * 1024)

/-! ### Markers (R92 to R94) and the match cut (R233) -/

/-- A slot with this PLAY code takes the play in progress (R92, R93). -/
def slotPlays (code plays rep : Nat) : Bool :=
  if code = 1 then decide (plays = 0)
  else if code = 2 then decide (rep ≠ 0 ∧ plays + 1 = rep)
  else if code = 3 then decide (plays ≠ 0)
  else true

/-- A late fault stops the cluster at or before an instant: HALT, or DIVERT with no jump that serves it (R158, R160). -/
def Cluster.haltsBy (k : Cluster) (at_ : Nat) : Bool :=
  k.latePend.any (fun l => decide (l.action ≠ 1 ∧ l.o ≤ at_) && !(decide (l.action = 2) && !l.unserved))

/-- MARKER_FIRE (R92, R93, R94, R181): slot k of the entry's marker profile at sample POS. Under DIVERT, as under SKIP (R159), a slot
fires while the lanes are parked (DEDUCED, log 14). -/
def execMarkerFire (n : Clu) (k : Fin 8) (s : State) : Host.Outcome State Fault Refusal :=
  s.guarded fun s =>
    let c := s.clu[n]
    let e := c.entry
    let w0 := s.mkWord (eMkp e) k 0
    let w1 := s.mkWord (eMkp e) k 1
    let pos := fld w0 29 0
    let at_ := c.playStart + pos * s.tsOf n
    let w : Lane := Fin.ofNat 16 (fld w1 3 0)
    let cut := (s.abortFret n).any (fun a => decide (a ≤ at_)) || c.haltsBy at_ ||
      c.sched.any (fun j => j.checked && decide (j.mode ≠ .atEnd) && decide (s.switchAt n j ≤ at_))
    if !s.playing n at_ || !eMkpEn e || !w1.getLsbD 31 || !c.wBound.getLsbD w || decide (eLenGr e * 64 ≤ pos) || cut ||
      !slotPlays (fld w0 31 30) c.plays (eRepeat e) then s
    else
      let s := (s.upto (upTick at_)).fire (24 + 4 * w + fld w1 5 4) (upTick at_)
      if w1.getLsbD 30 then s.ncoPlanAct n at_ (fld w1 29 16) (2 + k) else s

/-- MATCH_CUT (R233, R234): at F - C the outcome of the match play is judged. -/
def execMatchCut (n : Clu) (s : State) : Host.Outcome State Fault Refusal :=
  s.guarded fun s =>
    let k := s.clu[n]
    if !eMatch k.entry || !s.hasP n || !s.playing n (s.finalFret n) then s else
    let s := s.upto (upTick (s.finalFret n) - s.matchLead n)
    s.modClu n (fun k => { k with matchOutcome := some (!k.matchFail && !k.matchParked) })

end Sys2Proof.Machine
end

