-- ==== Sys2Proof/Machine/Jumps.lean ====
section
/-! DEFINITION. Jumps on events (R105 to R130): requests, decisions, refusal checks and switches. -/
namespace Sys2Proof.Machine

/-- A discarded request (R111, R112): counted, and its flag set: 1 NOT_RUN, 2 OVERRUN, 3 ARBITRATED, 4 SHADOWED,
5 NO_ENTRY. -/
def State.discard (s : State) (n : Clu) (code : Nat) : State :=
  (s.count (cluA n 0x128) 1).setBit (cluA n 0x118) code

/-- The earliest request that is on its way to a condition input. -/
def firstReq (c : Fin 16) : List Req → Option Req
  | [] => none
  | r :: l => match firstReq c l with
    | none => if r.cond = c then some r else none
    | some x => if r.cond = c ∧ r.ts ≤ x.ts then some r else some x

/-- An event NCO action for a request that R111 writes (R181, R188): it acts at T + L. -/
def State.ncoEvent (s : State) (n : Clu) (r : Req) : State :=
  let m := s.effW (cluA n (0x180 + 4 * r.cond.val))
  if m.getLsbD 31 then s.ncoPlanAct n ((r.ts + s.latencyOf n) * 1024) (fld m 13 0) (16 + r.cond) else s

/-- CONDITION_REQUEST (R111, R128, R181): at T + 3 the earliest request of the input is written into its pending
register, or discarded. A FIRE and a request of the same tick are one: of one timestamp, so that a source's request of an earlier timestamp
which reaches the latch in the tick of a FIRE stays a request of its own (R128 does not say which is meant: DESIGN CHOICE, log 14). -/
def execConditionRequest (n : Clu) (c : Fin 16) (s : State) : Host.Outcome State Fault Refusal :=
  s.guarded fun s =>
    match firstReq c s.clu[n].arriving with
    | none => s
    | some r =>
      let same := fun x : Req => decide (x.cond = c ∧ x.ts = r.ts)
      let late := (s.clu[n].arriving.filter same).any Req.late
      let s := (s.upto (r.ts + 3)).modClu n (fun k => { k with arriving := k.arriving.filter (fun x => !same x) })
      let k := s.clu[n]
      if k.state ≠ .run then s.discard n 1
      else if k.pend.any (fun x => decide (x.cond = c ∧ r.ts ≤ x.ts + 4)) then s.discard n 2
      else
        let r := { r with late := late }
        (s.modClu n (fun k => { k with pend := k.pend ++ [r] })).ncoEvent n r

/-- The least timestamp of pending requests. -/
def minReq : List Req → Option Nat
  | [] => none
  | r :: l => match minReq l with
    | none => some r.ts
    | some v => some (min r.ts v)

/-- A scheduled jump serves the LATE request under DIVERT (R160). -/
def State.serveLate (s : State) (n : Clu) (r : Req) : State :=
  if r.late then s.modClu n (fun k => { k with latePend := k.latePend.map (fun l => { l with unserved := false }) }) else s

/-- The request that goes on at its decision instant (R112, R113, R119): the condition word as a read of that tick takes it (R109). -/
def State.decideReq (s : State) (n : Clu) (r : Req) : State :=
  let k := s.clu[n]
  if k.sched.isSome then (s.discard n 4).serveLate n r
  else if r.ts + 8 < k.slotFree then s.discard n 4
  else
    let w := s.jumpWordAt (r.ts + 8) (eJt k.entry) r.cond
    if !eJtEn k.entry || !jwEn w then s.discard n 5
    else
      (((s.markNeeded n).modClu n (fun k => { k with
        foreseenAt := s.clk.now
        sched := some { target := jwTarget w, mode := jwMode w, cond := r.cond, ts := r.ts, s := r.ts + s.latencyOf n } })).serveLate n r).markNeeded n

/-- Order requests by condition number. -/
def condInsert (r : Req) : List Req → List Req
  | [] => [r]
  | x :: l => if r.cond ≤ x.cond then r :: x :: l else x :: condInsert r l

/-- JUMP_DECISION (R112, R113): at D = T + 8 the requests with the earliest T are decided, the lowest condition
first. -/
def execJumpDecision (n : Clu) (s : State) : Host.Outcome State Fault Refusal :=
  s.guarded fun s =>
    match minReq s.clu[n].pend with
    | none => s
    | some t =>
      let l := (s.clu[n].pend.filter (fun r => decide (r.ts = t))).foldl (fun l r => condInsert r l) []
      let s := (s.upto (t + 8)).modClu n (fun k => { k with pend := k.pend.filter (fun r => decide (r.ts ≠ t)) })
      if s.clu[n].state ≠ .run then l.foldl (fun s _ => s.discard n 1) s
      else match l with
        | [] => s
        | r :: rest => rest.foldl (fun s _ => s.discard n 3) (s.decideReq n r)

/-- JUMP_TARGET_READ (R116, R135): at T + 12 the target and its published state are read as one whole; the jump plays the staged copy
that is then the newest. -/
def execJumpTargetRead (n : Clu) (s : State) : Host.Outcome State Fault Refusal :=
  s.guarded fun s =>
    match s.clu[n].sched with
    | none => s
    | some j =>
      if j.read.isSome then s else
      let s := s.upto (j.ts + 12)
      s.modClu n (fun k => { k with sched := some { j with read := some (s.readTarget n (j.ts + 12) j.target.toNat), age := 0 } })

/-- The refusal checks of R118 on a target as read; 0 where they pass. -/
def State.refusalCheck (s : State) (n : Clu) (j : Sched) (x : TargetRead) : Nat :=
  let l := s.layoutOf n
  let e := x.entry
  if !x.published then 1
  else if !eJumpable e then 2
  else if s.plc.rolling && !s.headStaged j x then 3
  else if !l.lengthOk (eLenGr e) then 4
  else if !s.rangeOk e l then 5
  else if eLoopBegin e && !eStackClr e && decide (8 ≤ s.depthAt n (s.switchAt n j)) then 6
  else 0

/-- No jump serves the LATE request: the cluster acts as HALT at O(s), or now if it is parked already (R160). -/
def State.unserve (s : State) (n : Clu) : State :=
  let k := s.clu[n]
  match k.latePend with
  | none => s
  | some l =>
    if l.action ≠ 2 ∨ l.unserved then s
    else if k.parked then s.stopCluster n 4 (s.clk.now * 1024)
    else s.modClu n (fun k => { k with latePend := some { l with unserved := true } })

/-- A refused jump is dropped; its slot is free again from T + 21 (R119). -/
def State.jumpRefuse (s : State) (n : Clu) (j : Sched) (code : Nat) : State :=
  let s := s.modClu n (fun k => { k with sched := none, foreseenAt := s.clk.now, slotFree := j.ts + 21, jmpCode := BitVec.ofNat 4 code, jmpEntry := j.target })
  let s := (s.count (cluA n 0x124) 1).setBit (cluA n 0x118) 7
  let s := s.report { cls := 3, cause := BitVec.ofNat 8 code, cluster := some n, source := BitVec.ofNat 8 j.cond.val
                      entry := j.target, time := BitVec.ofNat 64 (s.tbAt j.ts) }
  s.unserve n

/-- JUMP_REFUSAL_CHECK (R118, R119): at T + 20. -/
def execJumpRefusalCheck (n : Clu) (s : State) : Host.Outcome State Fault Refusal :=
  s.guarded fun s =>
    match s.clu[n].sched with
    | none => s
    | some j =>
      if j.checked then s else
      let s := s.upto (j.ts + 20)
      let x := j.read.getD (s.readTarget n (j.ts + 12) j.target.toNat)
      let code := s.refusalCheck n j x
      if code ≠ 0 then s.jumpRefuse n j code
      else s.modClu n (fun k => { k with sched := some { j with read := some x, checked := true } })

/-- JUMP_SWITCH (R22, R23, R114 to R117): at the switch instant the target replaces the next sequencer step. -/
def execJumpSwitch (n : Clu) (s : State) : Host.Outcome State Fault Refusal :=
  s.guarded fun s =>
    match s.clu[n].sched with
    | none => s
    | some j =>
      let at_ := s.switchAt n j
      if !j.checked || !s.playing n at_ || decide (s.finalFret n < at_) || (s.abortFret n).any (fun a => decide (a < at_)) then s else
      s.takeJump n j at_

/-- JMP_FIRE (R128): a request on condition COND, whatever its source, timestamped at the management tick. -/
def execJmpFire (n : Clu) (s : State) : Host.Outcome State Fault Refusal :=
  s.guarded fun s =>
    let c : Fin 16 := Fin.ofNat 16 (s.effF (cluA n 0x104) 3 0)
    let s := s.cmdTake (cluA n 0x104) (bit32 4)
    s.modClu n (fun k => { k with arriving := k.arriving ++ [{ cond := c, ts := s.clk.now, forced := true }] })

/-- JMP_CNT_CLR (R130). -/
def execJmpCntClr (n : Clu) (s : State) : Host.Outcome State Fault Refusal :=
  s.guarded fun s => s.clearCtrs ([0x120, 0x124, 0x128, 0x12C].map (cluA n))

end Sys2Proof.Machine
end

