-- ==== Sys2Proof/Machine/Late.lean ====
section
/-! DEFINITION. Late samples and the late actions (R156 to R163). -/
namespace Sys2Proof.Machine

/-- CLU_LATE_CTRL.ACTION in force (R158). -/
def State.lateAction (s : State) (n : Clu) : BitVec 2 := BitVec.ofNat 2 (s.effF (cluA n 0x140) 1 0)

/-- How many samples or vectors a play has for a reader (R71). -/
def State.samplesOf (s : State) (n : Clu) (p : Play) (r : Fin 20) : Nat :=
  if r.val < 16 then eLenGr p.entry * 64 else s.playVectors n p.entry

/-- The play that a check of sample i belongs to: of those to come on the cluster's timeline the first whose check instant of the sample
has not passed (R156; DEDUCED, log 14). A check instant lies at most 4,096 + 560 ticks ahead at a play of 256 samples or more, and eight
plays reach past it. -/
def State.checkedPlay (s : State) (n : Clu) (r : Fin 20) (i : Nat) : Option Play :=
  (s.coming n 8).find? (fun p => decide (i < s.samplesOf n p r) && (s.checkAt n p r i).any (fun c => decide (s.clk.now ≤ upTick c)))

/-- LATE reaches the cluster's own condition sources under DIVERT (R110, R157). -/
def State.lateConds (s : State) (n : Clu) (t : Nat) : State :=
  s.modClu n (fun k => { k with arriving := k.arriving ++
    ((allFin 16).filter (fun c => decide (s.condSrc n c = 3))).map (fun c => { cond := c, ts := t, late := true, src := 3 }) })

/-- The late accesses of a sample that no check has met since the latest late fault (R159). -/
def State.newLate (s : State) (n : Clu) (p : Play) (reader : Fin 20) (sample : Nat) : List (Nat × Fin 20 × Nat) :=
  ((s.lateUnits n p reader sample).map (fun u => (p.no, reader, u))).filter (fun x => !s.clu[n].lateSeen.contains x)

/-- A late fault that stands takes a late sample in: each late access counts once (R159, R160). -/
def State.mergeLate (s : State) (n : Clu) (p : Play) (reader : Fin 20) (sample : Nat) : State :=
  let l := s.newLate n p reader sample
  (s.count (cluA n 0x14C) l.length).modClu n (fun k => { k with lateSeen := k.lateSeen ++ l })

/-- A sample of a play is late at its check instant, with O(s) and the LATE timestamp T (R157): merged while a late fault stands (R159,
R160), else the cluster's late fault. The sample found first is the late fault and its O(s) the late instant, even where a sample found
after it and before the park has an earlier O(s): the spec does not say what happens there (DESIGN CHOICE, log 16). -/
def State.lateFault (s : State) (n : Clu) (p : Play) (reader : Fin 20) (sample o t : Nat) : State :=
  let k := s.clu[n]
  if k.parked ∨ k.latePend.isSome then s.mergeLate n p reader sample
  else
    let s := s.upto t
    let act := s.lateAction n
    let l := (s.lateUnits n p reader sample).map (fun u => (p.no, reader, u))
    let s := s.modClu n (fun k => { k with
      latePend := some { o := o, ts := t, action := act }, lateEntry := p.idx, lateSample := BitVec.ofNat 32 sample, lateSeen := l
      lateRecs := k.lateRecs ++ [{ entry := p.idx, sample := sample, ts := t, reader := reader, action := act, age := p.age
                                   unit := (s.missingUnit n p reader sample).getD 0, play := p.no }] })
    let s := ((s.count (cluA n 0x148) 1).setBit (cluA n 0x144) 0).fire (116 + n) t
    if act = 2 then s.lateConds n t else s

/-- LATE_CHECK (R157, R159, R160): a reader finds sample or vector i of the play under check not landed; a landed slot that its regions
block is a violation (R362). -/
def execLateCheck (n : Clu) (reader : Fin 20) (sample : Nat) (s : State) : Host.Outcome State Fault Refusal :=
  s.guarded fun s =>
    let k := s.clu[n]
    match s.checkedPlay n reader sample with
    | none => s
    | some p =>
      if k.state = .idle ∨ k.state = .held ∨ s.sampleLanded n p reader sample then s
      else
        let o := (s.readerAt n p reader sample).getD 0
        let t := upTick (o - s.readerLead n p reader sample)
        let s := match (s.missingUnit n p reader sample).bind (s.blockedSlot n p reader) with
          | some slot => (s.readerAsks reader slot t).violate reader.val slot false
          | none => s
        s.lateFault n p reader sample o t

/-- The record of a late fault, with its lateness (R157, R453, R454). -/
def State.reportLate (s : State) (n : Clu) (r : LateRec) (lateness : Nat) : State :=
  s.report { cls := 1, cause := r.action.setWidth 8, cluster := some n
             source := BitVec.ofNat 8 r.reader.val, entry := r.entry
             sample := BitVec.ofNat 32 r.sample, lateness := BitVec.ofNat 16 lateness
             time := BitVec.ofNat 64 (s.tbAt r.ts) }

/-- Whether a landing is that of the access which a late record waits for: of its unit, and for its play or of the staged copy that the play
takes (R157). -/
def LateRec.awaits (r : LateRec) (n : Clu) (u : Nat) (x : Slot) : Bool :=
  decide (r.unit = u) && match x.entry with
    | some j => decide (j = r.entry ∧ x.age = r.age)
    | none => decide (x.play = some (n, r.play))

/-- Late records whose access has now landed in a slot are reported (R157). -/
def State.landRecs (s : State) (n : Clu) (u : Nat) (x : Slot) : State :=
  let done := s.clu[n].lateRecs.filter (fun r => r.awaits n u x)
  let s1 := s.modClu n (fun k => { k with lateRecs := k.lateRecs.filter (fun r => !r.awaits n u x) })
  done.foldl (fun s r => s.reportLate n r (min 65535 (s.clk.now - r.ts))) s1

/-- LATE_SATURATE (R157): the oldest late access that is still missing 65,535 ticks after detection. -/
def execLateSaturate (n : Clu) (s : State) : Host.Outcome State Fault Refusal :=
  s.guarded fun s =>
    match s.clu[n].lateRecs with
    | [] => s
    | r :: rest =>
      let s := (s.upto (r.ts + 65535)).modClu n (fun k => { k with lateRecs := rest })
      s.reportLate n r 65535

/-- LATE_PARK (R157, R158, R160): at O(s) every lane parks, and the late action acts. A vector of the play that holds O(s) is parked
(R161). -/
def execLatePark (n : Clu) (s : State) : Host.Outcome State Fault Refusal :=
  s.guarded fun s =>
    let k := s.clu[n]
    match k.latePend with
    | none => s
    | some l =>
      if k.parked then s else
      let s := s.upto (upTick l.o)
      let inPlay := decide (l.o < s.finalFret n)
      let parkNow := fun s : State => ((s.cutGroups n l.o).parkGroups n l.o).modClu n (fun k => { k with parked := true, matchParked := k.matchParked || inPlay })
      if l.action = 1 then (parkNow s).modClu n (fun k => { k with latePend := none })
      else if l.action = 2 ∧ !l.unserved ∧ k.sched.isSome then parkNow s
      else (s.stopCluster n 4 l.o).modClu n (fun k => { k with parked := true })

/-- The first fret at or after an instant on the timeline as it plays, with the play and the fret within it that start there: at a
boundary the play that follows and its fret 0 (R159). -/
def State.resumeAt (s : State) (n : Clu) (o : Nat) : Option (Nat × Play × Nat) :=
  match (s.coming n 8).filter (fun p => decide (o < s.playEnd n p ∨ o ≤ p.start)) with
  | [] => none
  | p :: r =>
    match s.fretOf n p o with
    | some f => some (f, p, if p.no = s.clu[n].playNo then ((s.fretWithin n o).map Prod.fst).getD 0 else 0)
    | none => r.head?.map (fun q => (q.start, q, 0))

/-- The check instant of the granule that starts at fret j of a play finds every access of it landed, on every lane (R159). -/
def State.granuleLanded (s : State) (n : Clu) (p : Play) (j : Nat) : Bool :=
  ((s.layoutOf n).parts (eLenGr p.entry)).all (fun x =>
    let g := if x.1.val < 16 ∧ s.mixed n then j * s.mOf n else j
    match s.checkAt n p x.1 (64 * g) with
    | none => false
    | some c => (List.range 64).all (fun i => (s.unitsOf n p x.1 (64 * g + i)).all (fun u => u.any (fun u =>
        (s.readerSlot n p x.1 u).any (fun y => decide (y.landedAt * 1024 ≤ c))))))

/-- SKIP_RESUME (R159): play resumes at the fret of the present tick, if its check found its granule landed. -/
def execSkipResume (n : Clu) (s : State) : Host.Outcome State Fault Refusal :=
  s.guarded fun s =>
    let k := s.clu[n]
    if !k.parked ∨ k.latePend.isSome ∨ (k.state ≠ .run ∧ k.state ≠ .stopping) then s
    else match s.resumeAt n ((s.clk.now - 1) * 1024 + 1) with
      | none => s
      | some x => if s.granuleLanded n x.2.1 x.2.2 then (s.upto (upTick x.1)).modClu n (fun k => { k with parked := false }) else s

/-- LATE_CNT_CLR (R163). -/
def execLateCntClr (n : Clu) (s : State) : Host.Outcome State Fault Refusal :=
  s.guarded fun s => s.clearCtrs [cluA n 0x148, cluA n 0x14C]

end Sys2Proof.Machine
end

