-- ==== Sys2Proof/Machine/Pattern.lean ====
section
/-! DEFINITION. Pattern vectors and compare (R216 to R259): vector starts, strobes, the fail log, counters and TCAL. -/
namespace Sys2Proof.Machine

/-! ### Vector starts (R216 to R222, R240 to R252) -/

/-- A signed deskew field (R255, R258). -/
def State.deskew (s : State) (g : Pg) (j : Fin 16) (off lo : Nat) : Int :=
  signedOf 13 (s.effF (pinA (pinOf g j) off) (lo + 12) lo)

/-- An instant shifted by a deskew (R243). -/
def shifted (t : Nat) (d : Int) : Nat := ((t : Int) + d).toNat

/-- The pin takes part in its group's vectors (R222, R238). -/
def State.pinEn (s : State) (g : Pg) (j : Fin 16) : Bool := s.effB (pinA (pinOf g j) 0) 4

/-- The state code of pin j (R217). -/
def codeOf (w : BitVec 64) (j : Fin 16) : Nat := bitsOf w.toNat (3 * j.val + 2) (3 * j.val)

/-- What a vector gives its pins: the set's words, the start and the actual period. -/
structure VecCtx where
  word : Nat → Word
  start : Nat
  period : Nat

/-- An edge at an offset on a pair, or its cancellation at or beyond the period (R249). -/
def State.edgeAt (s : State) (g : Pg) (j : Fin 16) (c : VecCtx) (enable : Bool) (ofs : Nat) (v : Bool) : State :=
  if c.period ≤ ofs then s.setBit (tsgA g 8) 3
  else if enable then s.deEdge g j { at_ := shifted (c.start + ofs) (s.deskew g j 0x20 16), level := v, vec := c.start }
  else s.ddEdge g j { at_ := shifted (c.start + ofs) (s.deskew g j 0x20 0), level := v, vec := c.start }

/-- The drive edges of pin j for a state code (R244, R245). -/
def State.driveEdges (s : State) (g : Pg) (j : Fin 16) (c : VecCtx) (code : Nat) : State :=
  let ev := eventOf c.word j
  if code = 3 then s
  else
    let drives := decide (code = 1 ∨ code = 2)
    let d := decide (code = 2)
    let fmt := fmtOf c.word j
    let s := s.edgeAt g j c true ((ev 2).getD 0) drives
    if !drives then s
    else
      let s := match ev 3 with | some x => s.edgeAt g j c true x false | none => s
      let s := if fmt = 3 then s.edgeAt g j c false 0 (!d) else s
      let s := s.edgeAt g j c false ((ev 0).getD 0) d
      match ev 1 with
      | some x => if fmt = 0 then s else s.edgeAt g j c false x (if fmt = 1 then false else if fmt = 2 then true else !d)
      | none => s

/-- The latest instants at which a pin's edge-mode strobes sample PCH and PCL, those still to come included (R248). -/
def State.lastSamples (s : State) (g : Pg) (j : Fin 16) : Option Nat × Option Nat :=
  let l := s.pg[g].strobes.filter (fun x => decide (x.pin = j ∧ x.sel ≠ .cap) && !x.window)
  match l.getLast? with
  | some x => (some x.atCh, some x.atCl)
  | none => (s.pin[pinOf g j].lastCh, s.pin[pinOf g j].lastCl)

/-- Closer than 256 fine units to the previous sampling instant. -/
def crowded (prev : Option Nat) (t : Nat) : Bool :=
  match prev with
  | some a => decide (t < a + 256)
  | none => false

/-- Add a strobe or a capture sample that is to come. -/
def State.addStrobe (s : State) (g : Pg) (x : StrobePend) : State :=
  s.modPg g (fun p => { p with strobes := p.strobes ++ [x] })

/-- Place one edge-mode strobe, or cancel it (R248, R249). -/
def State.edgeStrobe (s : State) (g : Pg) (j : Fin 16) (c : VecCtx) (code : Nat) (sel : StrobeSel) (ofs : Nat) : State :=
  if c.period ≤ ofs then s.setBit (tsgA g 8) 3
  else
    let ch := shifted (c.start + ofs) (s.deskew g j 0x24 0)
    let cl := shifted (c.start + ofs) (s.deskew g j 0x24 16)
    let last := s.lastSamples g j
    if crowded last.1 ch || crowded last.2 cl then s.crowd g 2
    else s.addStrobe g { pin := j, sel := sel, window := false, atCh := ch, atCl := cl, closeCh := ch, closeCl := cl
                         code := BitVec.ofNat 3 code, vec := c.start }

/-- Place a window (R246, R249): a cancelled S2 closes it at the vector's end, a cancelled S1 gives no result. -/
def State.windowStrobe (s : State) (g : Pg) (j : Fin 16) (c : VecCtx) (code : Nat) (s1 s2 : Nat) : State :=
  let dch := s.deskew g j 0x24 0
  let dcl := s.deskew g j 0x24 16
  let s := if c.period ≤ s1 ∨ c.period ≤ s2 then s.setBit (tsgA g 8) 3 else s
  if c.period ≤ s1 then s
  else
    let close := c.start + min s2 c.period
    s.addStrobe g { pin := j, sel := .s1, window := true, atCh := shifted (c.start + s1) dch, atCl := shifted (c.start + s1) dcl
                    closeCh := shifted close dch, closeCl := shifted close dcl, code := BitVec.ofNat 3 code, vec := c.start }

/-- The strobes of a compare pin (R244, R246). -/
def State.placeStrobes (s : State) (g : Pg) (j : Fin 16) (c : VecCtx) (code : Nat) : State :=
  if code < 4 then s
  else
    let ev := eventOf c.word j
    if windowed c.word j then
      match ev 4, ev 5 with
      | some a, some b => s.windowStrobe g j c code a b
      | some a, none => s.setBitIf (decide (c.period ≤ a)) (tsgA g 8) 3
      | none, some b => s.setBitIf (decide (c.period ≤ b)) (tsgA g 8) 3
      | none, none => s
    else
      match ev 4, ev 5 with
      | some a, some b =>
        if a ≤ b then (s.edgeStrobe g j c code .s1 a).edgeStrobe g j c code .s2 b
        else (s.edgeStrobe g j c code .s2 b).edgeStrobe g j c code .s1 a
      | some a, none => s.edgeStrobe g j c code .s1 a
      | none, some b => s.edgeStrobe g j c code .s2 b
      | none, none => s

/-- The sample that a capture takes of a pin: at its S1 instant, or at the start of the cycle where S1 is disabled
(R229; DEDUCED, log 17). An S1 offset at or beyond a period that R82 shortens cancels the strobe (R249) and not the sample, which is
taken at that instant: R229 does not say (DESIGN CHOICE, log 17). -/
def State.placeCapture (s : State) (g : Pg) (j : Fin 16) (c : VecCtx) : State :=
  let at_ := fun lo => match eventOf c.word j 4 with
    | some x => shifted (c.start + x) (s.deskew g j 0x24 lo)
    | none => c.start
  s.addStrobe g { pin := j, sel := .cap, window := false, atCh := at_ 0, atCl := at_ 16, closeCh := at_ 0, closeCl := at_ 16
                  code := 0, vec := c.start }

/-- One pin of a vector: parked where it is disabled (R222), as DZ in a broken set (R252). -/
def State.playPin (s : State) (g : Pg) (c : VecCtx) (broken cap : Bool) (w : BitVec 64) (j : Fin 16) : State :=
  let s := s.modPin (pinOf g j) (fun p => p.settle (c.start - 1))
  if !s.pinEn g j then s.parkPin g j c.start
  else
    let code := if broken then 0 else codeOf w j
    let s := (s.driveEdges g j c code).placeStrobes g j c code
    if cap then s.placeCapture g j c else s

/-- A vector whose word is at hand plays on a group (R219, R220, R252). -/
def State.playVector (s : State) (n : Clu) (g : Pg) (w : BitVec 64) (c : VecCtx) (set i : Nat) : State :=
  let k := s.clu[n]
  let broken := s.setBroken g c.start set
  let t := upTick c.start
  let s := s.setBitIf (decide (bitsOf w.toNat 63 56 ≠ 0)) (pgA g 8) 6
  let s := s.setBitIf broken (tsgA g 8) 0
  let s := if w.getLsbD 54 then s.fire (88 + 2 * g) t else s
  let s := if w.getLsbD 55 then s.fire (89 + 2 * g) t else s
  let cap := w.getLsbD 53 && s.effB (pgA g 0) 1 && !broken && decide (s.pg[g].flSize ≠ 0)
  let s := s.modPg g (fun p => { p with vecs := p.vecs ++ [
    { start := c.start, entry := k.seg, play := k.plays + 1, idx := i, ts := BitVec.ofNat 5 set, cluster := n, cap := cap
      inMatch := eMatch k.entry }] })
  ((allFin 16).foldl (fun s j => s.playPin g c broken cap w j) s).closeVectors g

/-- The place of the group's next vector: the periods before it are those that the cluster's lowest bound group has played up to it (R82,
R156). -/
def State.groupPlace (s : State) (n : Clu) (g : Pg) : VecPos :=
  let p := s.pg[g]
  { i := p.vecIdx, at_ := p.vecNext, prev := s.clu[n].runVecs.drop ((s.vecsDone n).i - p.vecIdx) }

/-- A vector that starts before its word has landed is noted with its check tick: its unit may still come from a ring (R391). -/
def State.noteUnlanded (s : State) (n : Clu) (p : Play) (g : Pg) (x : VecPos) : State :=
  if (s.vectorWord n p g x.i).isSome then s
  else s.modPg g (fun q => { q with unlanded := (x.i, upTick (x.at_ - s.leadAt n (pgReader g) x)) :: q.unlanded })

/-- VECTOR_START (R216 to R222, R240, R83): the next vector of the group reaches the output reference plane. -/
def execVectorStart (g : Pg) (s : State) : Host.Outcome State Fault Refusal :=
  s.guarded fun s =>
    match s.pgOwner g with
    | none => s
    | some n =>
      let k := s.clu[n]
      let e := k.entry
      let at_ := s.pg[g].vecNext
      let i := s.pg[g].vecIdx
      if !s.playing n at_ || decide (s.playVectors n e ≤ i) then s
      else
        let s := s.upto (upTick at_)
        let p := s.playNow n
        let s := s.readerReads n p (pgReader g) i
        let x := s.groupPlace n g
        let w := s.timedWord n p g x
        let set := vecSet e w
        let period := s.vecPeriodAt n p x
        let s := s.setBitIf (decide (s.setPeriod g at_ set ≠ period)) (cluA n 0x40) 4
        let s : State := match w, k.parked with
          | some w, false => s.playVector n g w { word := s.tsetWord g at_ set, start := at_, period := period } set i
          | _, _ => (((allFin 16).foldl (fun (s : State) j => s.parkPin g j at_) s).modClu n
              (fun k => { k with matchParked := true })).noteUnlanded n p g x
        let s := if s.firstGroup n = some g then s.modClu n (fun k => { k with runVecs := (period :: k.runVecs).take 64 }) else s
        s.modPg g (fun p => { p with vecNext := at_ + period, vecIdx := i + 1, vecPeriod := period })

/-! ### Strobes (R223 to R229, R234) -/

/-- The outcome of an edge-mode strobe: none where masked, else whether it passes (R223). -/
def compareOf (code : Nat) (pch pcl : Bool) : Option Bool :=
  if code = 5 then some (!pch && pcl)
  else if code = 6 then some (pch && !pcl)
  else if code = 7 then some (!pch && !pcl)
  else none

/-- The level of a ball at an offset from the opening of its window. -/
def waveAt (w : Wave) (u : Nat) : Bool := w.first != decide ((w.flips.filter (fun f => decide (f ≤ u))).length % 2 = 1)

/-- Put an offset in its place among rising ones. -/
def insertUp (a : Nat) : List Nat → List Nat
  | [] => [a]
  | b :: r => if a ≤ b then a :: b :: r else b :: insertUp a r

/-- Scan rising offsets for the first contiguous interval of at least 150 ps (24,576 hundredths of a fine unit), up to the end `len`,
throughout which a state holds; `since` is where the one in progress began. The answer is where its 150 ps are complete (R224). -/
def firstHold (holds : Nat → Bool) (len : Nat) : Option Nat → List Nat → Option Nat
  | since, [] => since.bind (fun a => if a + 24576 ≤ len then some (a + 24576) else none)
  | some a, u :: r => if a + 24576 ≤ min u len then some (a + 24576) else firstHold holds len (if holds u then some a else none) r
  | none, u :: r => firstHold holds len (if holds u then some u else none) r

/-- Where a state of the paired inputs has first held for 150 ps within the shorter of two windows: PCH at offset u from the opening of
its window pairs with PCL at offset u from the opening of its own (R224). -/
def pairedHold (pch pcl : Wave) (len : Nat) (f : Bool → Bool → Bool) : Option Nat :=
  let offsets := ((pch.flips ++ pcl.flips).filter (fun u => decide (u < len))).foldr insertUp []
  firstHold (fun u => f (waveAt pch u) (waveAt pcl u)) len none (0 :: offsets)

/-- The ball of a compare pair gives the logical value, inverted under CH_INV or CL_INV (R221). -/
def waveUnder (w : Wave) (inv : Bool) : Wave := { w with first := w.first ^^ inv }

/-- The shorter of a strobe's two windows, in hundredths of a fine unit (R224). -/
def StrobePend.windowLen (x : StrobePend) : Nat := 100 * min (x.closeCh - x.atCh) (x.closeCl - x.atCl)

/-- Change the open vector that starts at an instant. -/
def State.modVec (s : State) (g : Pg) (start : Nat) (f : VecOpen → VecOpen) : State :=
  s.modPg g (fun p => { p with vecs := p.vecs.map (fun v => if v.start = start then f v else v) })

/-- A failing strobe that a match outcome counts, or one of its tail (R234). -/
def State.matchStrobe (s : State) (g : Pg) (x : StrobePend) (v : VecOpen) : State :=
  if !v.inMatch then s
  else
    let n := v.cluster
    let k := s.clu[n]
    let cut := s.finalFret n - s.matchLead n * 1024
    let counts := decide (k.playStart ≤ v.start) && k.matchOutcome.isNone && !x.reaches cut
    if counts then s.modClu n (fun k => { k with matchFail := true }) else s.setBit (pgA g 8) 3

/-- A failing strobe at an instant (R226, R227, R234). -/
def State.failStrobe (s : State) (g : Pg) (x : StrobePend) (v : VecOpen) (inst : Nat) : State :=
  let p := pinOf g x.pin
  let m : BitVec 16 := 1#16 <<< x.pin.val
  let newPin := !v.fails.getLsbD x.pin
  let s := if newPin then (s.count (pinA p 4) 1).setBit (pinA p 8) 0 else s
  let s := if v.fails = 0 then
      ((s.count (pgA g 0xC) 1).setBit (pgA g 8) 1).fire (96 + g) (upTick (inst + 40 * 1024))
    else s
  (s.modVec g v.start (fun v => { v with fails := v.fails ||| m, passes := v.passes &&& ~~~m })).matchStrobe g x v

/-- A passing strobe (R224). -/
def State.passStrobe (s : State) (g : Pg) (x : StrobePend) : State :=
  s.modVec g x.vec (fun v => if v.fails.getLsbD x.pin then v else { v with passes := v.passes ||| (1#16 <<< x.pin.val) })

/-- Both inputs asserted (R223, R224). -/
def State.bothStrobe (s : State) (g : Pg) (x : StrobePend) (both : Bool) : State :=
  if both then (s.setBit (pinA (pinOf g x.pin) 8) 1).setBit (pgA g 8) 2 else s

/-- A strobe's result, at the instant at which it is known. -/
def State.judge (s : State) (g : Pg) (x : StrobePend) (r : Option Bool) (inst : Nat) : State :=
  match r, s.pg[g].vecs.find? (fun v => decide (v.start = x.vec)) with
  | some true, some _ => s.passStrobe g x
  | some false, some v => s.failStrobe g x v inst
  | _, _ => s

/-- Drop the first strobe that is `x`. -/
def State.dropStrobe (s : State) (g : Pg) (x : StrobePend) : State :=
  s.modPg g (fun p => { p with strobes := p.strobes.erase x })

/-- STROBE (R223, R224, R229): the next strobe or capture sample of a pin. -/
def execStrobe (p : PinIdx) (sel : StrobeSel) (sample : StrobeSample) (s : State) : Host.Outcome State Fault Refusal :=
  s.guarded fun s =>
    let g : Pg := Fin.ofNat 4 (p.val / 16)
    let j : Fin 16 := Fin.ofNat 16 (p.val % 16)
    match s.pg[g].strobes.find? (fun x => decide (x.pin = j ∧ x.sel = sel)) with
    | none => s
    | some x =>
      let cfg := s.effW (pinA p 0)
      match sample, x.window with
      | .edge ballCh ballCl, false =>
        let pch := ballCh ^^ cfg.getLsbD 2
        let pcl := ballCl ^^ cfg.getLsbD 3
        let inst := max x.atCh x.atCl
        let s := (s.upto (upTick inst)).dropStrobe g x
        if sel = .cap then
          let m : BitVec 16 := 1#16 <<< j.val
          (s.modVec g x.vec (fun v => { v with
            obsCh := if pch then v.obsCh ||| m else v.obsCh, obsCl := if pcl then v.obsCl ||| m else v.obsCl })).closeVectors g
        else
          let s := s.modPin p (fun q => { q with lastCh := some x.atCh, lastCl := some x.atCl })
          ((s.bothStrobe g x (pch && pcl)).judge g x (compareOf x.code.toNat pch pcl) inst).closeVectors g
      | .window ballCh ballCl, true =>
        let hold := pairedHold (waveUnder ballCh (cfg.getLsbD 2)) (waveUnder ballCl (cfg.getLsbD 3)) x.windowLen
        let failing := hold (fun pch pcl => decide (compareOf x.code.toNat pch pcl = some false))
        let inst := match failing with
          | some u => max x.atCh x.atCl + (u + 99) / 100
          | none => max x.closeCh x.closeCl
        let r := if x.code = 4 then none else some failing.isNone
        let both := (hold (fun pch pcl => pch && pcl)).isSome
        (((s.upto (upTick inst)).dropStrobe g x).bothStrobe g x both |>.judge g x r inst).closeVectors g
      | _, _ => s

/-! ### Counters, the first fail and the fail log (R228, R231, R239) -/

/-- FF_ARM (R228): clears and arms the record; a failing vector of the same tick is captured. -/
def State.ffArm (s : State) (g : Pg) : State :=
  let s1 := s.modPg g (fun p => { p with ff := none, ffArmed := true })
  match s.pg[g].ffLast with
  | some x => if x.1 = s.clk.now then s1.takeFf g x.2 else s1
  | none => s1

/-- FF_ARM; discarded at a group that the variant lacks, as are the other commands of such a group (R3). -/
def execFfArm (g : Pg) (s : State) : Host.Outcome State Fault Refusal := s.guarded fun s => if s.hasPg g then s.ffArm g else s

/-- PG_CNT_CLR (R239). -/
def execPgCntClr (g : Pg) (s : State) : Host.Outcome State Fault Refusal :=
  s.guarded fun s => if s.hasPg g then s.clearCtrs [pgA g 0xC, pgA g 0x3C] else s

/-- PIN_CNT_CLR (R239). -/
def execPinCntClr (p : PinIdx) (s : State) : Host.Outcome State Fault Refusal :=
  s.guarded fun s => if s.hasPin p then s.clearCtr (pinA p 4) else s

/-- TSG_CNT_CLR (R259). -/
def execTsgCntClr (g : Pg) (s : State) : Host.Outcome State Fault Refusal :=
  s.guarded fun s => if s.hasPg g then s.clearCtr (tsgA g 0x10) else s

/-- A write of PG_FL_RD_COUNT (R239). -/
def State.flRdWrite (s : State) (g : Pg) (v : Word) : State :=
  let p := s.pg[g]
  let taken := fun s : State => s.modPg g (fun p => { p with flRd := v, flRdOld := some (s.clk.now, p.flRd) })
  if s.pgIdle g ∨ (v - p.flRd).toNat ≤ (p.flWr - p.flRd).toNat then taken s else s.setBit (pgA g 8) 7

/-- FL_RD_COUNT_WRITE. -/
def execFlRdCountWrite (g : Pg) (v : Word) (s : State) : Host.Outcome State Fault Refusal :=
  s.guarded fun s => if s.hasPg g then s.flRdWrite g v else s

/-- FAIL_RECORD_WRITE (R231, R358): the oldest record of the writer's queue, at most one per tick, as its tile grants it; a write of
FL_RD_COUNT in the same tick does not count yet (R239). -/
def execFailRecordWrite (g : Pg) (s : State) : Host.Outcome State Fault Refusal :=
  s.guarded fun s =>
    let p := s.pg[g]
    match p.flQueue with
    | [] => s
    | r :: rest =>
      let s := s.upto (match p.flWrote with | some t => t + 1 | none => 0)
      let rd := match p.flRdOld with | some x => if x.1 = s.clk.now then x.2 else p.flRd | none => p.flRd
      let slot := p.flWr.toNat % p.flSize
      let full := decide ((p.flWr - rd).toNat = p.flSize)
      let wrap := s.effB (pgA g 0) 2
      let s := s.modPg g (fun p => { p with flQueue := rest, flWrote := some s.clk.now })
      if full && !wrap then (s.count (pgA g 0x3C) 1).setBit (pgA g 8) 4
      else
        let at_ := s.ringSlot g slot
        let s := (s.slotGrant (Fin.ofNat 44 (37 + g.val)) at_).setBitIf full (pgA g 8) 5
        let s := s.modPg g (fun p => { p with flWrote := some s.clk.now })
        if s.slotOk (37 + g) at_ true then
          (s.modPg g (fun p => { p with ring := smPut (fun _ => 0) p.ring slot r, flWr := p.flWr + 1 })).spareFollow at_
        else (s.violate (37 + g) at_ true).modPg g (fun p => { p with flWr := p.flWr + 1 })

/-! ### TCAL (R254) -/

/-- TCAL: taken at a management tick while the group is idle, else dropped. The bit reads 1 until the run ends; a further request waits
for that (R409). -/
def execTcal (g : Pg) (s : State) : Host.Outcome State Fault Refusal :=
  s.guarded fun s =>
    let planned := s.clk.plan.getLsbD (8 + g.val)
    if !s.hasPg g || s.pg[g].tcalUntil.isSome then s
    else if planned && (s.prepared 4 || !s.clk.pll.getLsbD 1) then s.hold (.tcal g)
    else if s.pgIdle g && planned then
      (s.cmdShow (tsgA g 0) 1).modPg g (fun p => { p with tcalUntil := some (s.clk.now + 320000) })
    else (s.cmdTake (tsgA g 0) 1).setBit (tsgA g 8) 4

/-- TCAL_DONE: 200 µs after it began. -/
def execTcalDone (g : Pg) (s : State) : Host.Outcome State Fault Refusal :=
  s.guarded fun s =>
    match s.pg[g].tcalUntil with
    | none => s
    | some t =>
      (((s.upto t).modPg g (fun p => { p with tcalUntil := none, calibrated := true })).setBit (tsgA g 8) 5).cmdTake (tsgA g 0) 1

end Sys2Proof.Machine
end

