-- ==== Sys2Proof/Machine/Nco.lean ====
section
/-! DEFINITION. The waveform datapath of a W lane (R166 to R187): gain, the mixer, NCO actions and modulator cycles. -/
namespace Sys2Proof.Machine

/-! ### NCO actions (R180 to R185) -/

/-- A LOAD of the lane waits for its action instant (R181); a second one before it is merged (R185). -/
def State.ncoLoad (s : State) (w : Lane) : State :=
  if s.wl[w].load ≠ .none then s.setBit (wlA w 0x30) 2
  else (s.cmdHold (wlA w 0x20) 1).modWl w (fun l => { l with
    load := if s.laneIdle w then .managementTick else .segmentStart, loadAt := s.clk.now })

/-- NCO_LOAD (R181, R185). -/
def execNcoLoad (w : Lane) (s : State) : Host.Outcome State Fault Refusal :=
  s.guarded fun s => if s.hasLane w then s.ncoLoad w else s

/-- LOADs that wait for a management tick act at it, but for one that began to wait in its very tick (R181, R411). -/
def State.ncoTick (s : State) : State :=
  (allFin 16).foldl (fun s w => if s.wl[w].load = .managementTick ∧ s.wl[w].loadAt ≠ s.clk.now then s.ncoLoadAct w (s.clk.now * 1024) else s) s

/-- Plan reads of a lane that lie ahead: the cluster that produces the action, its instant in fine units, and the plan entry (R183). An
action that has been produced is read whatever binds the lane by then. -/
def State.planAhead (s : State) (w : Lane) : List (Clu × Nat × Nat) :=
  (s.wl[w].acts.filterMap (fun a => if a.words.isNone then a.plan.map (fun p => (a.from_, a.due, p.toNat)) else none)) ++
  (match s.laneOwner w with
    | none => []
    | some n =>
      (((s.coming n 8).flatMap (fun p => s.playPlans n w p.entry p.start)).filter (fun x => decide (s.clk.now * 1024 < x.1 ∧
        !s.wl[w].planReads.any (fun r => decide (r.1 = x.1 ∧ r.2.1 = x.2)) ∧
        !s.wl[w].acts.any (fun a => decide (a.due = x.1 ∧ a.plan.map BitVec.toNat = some x.2))))).map (fun x => (n, x)))

/-- The read with the earliest action instant. -/
def earliest : List (Clu × Nat × Nat) → Option (Clu × Nat × Nat)
  | [] => none
  | x :: r => match earliest r with
    | none => some x
    | some y => if x.2.1 ≤ y.2.1 then some x else some y

/-- NCO_PLAN_READ (R183): the next plan entry is read as one whole, D_out - 32 ticks before its action instant; a write of that tick does
not reach it. -/
def execNcoPlanRead (w : Lane) (s : State) : Host.Outcome State Fault Refusal :=
  s.guarded fun s =>
    match earliest (s.planAhead w) with
    | some (n, x) =>
      let s := s.upto (upTick (x.1 - (s.doutOf n - 32) * 1024))
      let words := s.ncoPlanAt s.clk.now x.2
      if s.wl[w].acts.any (fun a => decide (a.due = x.1 ∧ a.plan.map BitVec.toNat = some x.2)) then
        s.modWl w (fun l => { l with acts := l.acts.map (fun a =>
          if a.due = x.1 ∧ a.plan.map BitVec.toNat = some x.2 then { a with words := some words } else a) })
      else s.modWl w (fun l => { l with planReads := l.planReads ++ [(x.1, x.2, words)] })
    | none => s

/-- One action acts at cycle m (R182, R184, R194). -/
def State.ncoApply (s : State) (w : Lane) (m : Nat) (p : BitVec 256) : State :=
  let freqEn := p.getLsbD 159
  let hold := p.getLsbD 154
  let mode := bitsOf p.toNat 156 155
  let tracked := (s.wl[w].heldN).getD (trackedOf s.wl[w].nco.freq)
  s.modWl w (fun l =>
    let x := l.nco
    let f := if freqEn then BitVec.ofNat 48 (bitsOf p.toNat 31 0 + 2 ^ 32 * bitsOf p.toNat 47 32) else x.freq
    let c := if p.getLsbD 158 then BitVec.ofNat 48 (bitsOf p.toNat 95 64 + 2 ^ 32 * bitsOf p.toNat 111 96) else x.chirp
    let o := if p.getLsbD 157 then BitVec.ofNat 16 (bitsOf p.toNat 63 48) else x.phaseOfs
    let a := if mode = 1 then 0 else if mode = 2 then f * BitVec.ofNat 48 m else x.acc
    { l with
      heldN := if hold then some tracked else if freqEn then none else l.heldN
      nco := { x with freq := f, chirp := c, phaseOfs := o, acc := a, freqLoaded := x.freqLoaded || freqEn } })

/-- What an action acts with, once read, and whether it comes from a LOAD, which acts on its own lane (R181). -/
def NcoAct.acting (a : NcoAct) : Option (Bool × BitVec 256) := a.words.map (fun p => (a.plan.isNone, p))

/-- Order actions by rank (R184). -/
def actInsert (a : NcoAct) : List NcoAct → List NcoAct
  | [] => [a]
  | x :: l => if a.rank < x.rank then a :: x :: l else x :: actInsert a l

/-- The least action instant. -/
def minDue : List NcoAct → Option Nat
  | [] => none
  | a :: l => match minDue l with
    | none => some a.due
    | some v => some (min a.due v)

/-- NCO_ACTION (R181 to R184): the actions of the lane's next action cycle, once the plan entries of all of them have been read. -/
def execNcoAction (w : Lane) (s : State) : Host.Outcome State Fault Refusal :=
  s.guarded fun s =>
    match minDue s.wl[w].acts with
    | none => s
    | some due =>
      let m := s.cycleFrom due
      let now := (s.wl[w].acts.filter (fun a => decide (s.cycleFrom a.due = m))).foldl (fun l a => actInsert a l) []
      if now.any (fun a => a.words.isNone) then s else
      let s := (s.upto (upTick due)).modWl w (fun l => { l with
        acts := l.acts.filter (fun a => decide (s.cycleFrom a.due ≠ m)), planReads := l.planReads.filter (fun r => decide (due < r.1)) })
      if !s.wl[w].nco.running then s
      else
        let words := (now.filterMap NcoAct.acting).filter (fun x => x.1 || planActsOn x.2 w) |>.map Prod.snd
        let s := s.ncoUpTo w m
        let s := s.setBitIf (decide (1 < words.length) || (!words.isEmpty && decide (s.wl[w].actAt = some m))) (wlA w 0x30) 3
        let s := words.foldl (fun s p => s.ncoApply w m p) s
        let s := if words.isEmpty then s else s.modWl w (fun l => { l with actAt := some m })
        (s.bandAt w m s.wl[w].nco.freqNow true).snapAgain w m

/-- QB_GLIDE_END (R193): 32 cycles after a centre change. -/
def execQbGlideEnd (w : Lane) (s : State) : Host.Outcome State Fault Refusal :=
  s.guarded fun s =>
    match s.wl[w].glideEnd with
    | none => s
    | some g => (s.upto (s.cycleAt g / 1024)).modWl w (fun l => { l with glideEnd := none })

/-- WLN_CNT_CLR (R187). -/
def execWlnCntClr (w : Lane) (s : State) : Host.Outcome State Fault Refusal :=
  s.guarded fun s => s.clearCtr (wlA w 0x34)

/-- The snapshots of a lane at a management tick, at the first cycle from it on (R187, R214). -/
def State.ncoSnap (s : State) (w : Lane) : State :=
  let m := s.cycleFrom (s.clk.now * 1024)
  let s := s.ncoUpTo w m
  let s := if s.wl[w].nco.running then s.bandAt w m s.wl[w].nco.freqNow true else s
  s.snapTake w m

/-! ### Samples, gain and mixer (R166, R169, R178, R189) -/

/-- Limit to `w` bits of two's complement; whether it was limited (R169, R178). -/
def satTo (w : Nat) (v : Int) : Int × Bool :=
  let top : Int := 2 ^ (w - 1) - 1
  if top < v then (top, true) else if v < -top - 1 then (-top - 1, true) else (v, false)

/-- Sample i of a lane's section as it enters the gain stage: I (or the real value) and Q (R166). -/
def State.sampleOf (s : State) (n : Clu) (p : Play) (w : Lane) (i : Nat) : Option (Int × Int) :=
  let f := s.formatOf w
  (s.objectBits n p (Fin.ofNat 20 w.val) i).map (fun v =>
    if f = 1 then (signedOf 12 (v >>> (12 * i % 8)) * 16, 0)
    else if f = 2 then (signedOf 16 v, signedOf 16 (v >>> 16))
    else (signedOf 16 v, 0))

/-- The gain stage on one value: v = sat16(floor((x × G + 8,192) / 16,384) + O) (R169). -/
def gainOf (g o x : Int) : Int × Bool := satTo 16 ((x * g + 8192).fdiv 16384 + o)

/-- I, or a real lane's value, and Q through the gain stage of a lane, and whether each was limited (R169). -/
def State.gainPair (s : State) (w : Lane) (x : Int × Int) : (Int × Bool) × (Int × Bool) :=
  let g := signedOf 16 (s.effF (wlA w 4) 15 0)
  (gainOf g (signedOf 16 (s.effF (wlA w 8) 15 0)) x.1, gainOf g (signedOf 16 (s.effF (wlA w 8) 31 16)) x.2)

/-- A sample through the gain stage: whether it, or its I or Q, was limited (R169). -/
def State.gainLimits (s : State) (w : Lane) (x : Int × Int) : Bool :=
  let r := s.gainPair w x
  r.1.2 || (decide (s.formatOf w = 2) && r.2.2)

/-- π/2 in units of 2^-64. -/
def halfPi : Nat := 28976077832308491370

/-- The Taylor sum of a sine or cosine in units of 2^-64: `k` terms from term `t`, the next divided by d (d + 1). -/
def taylor (x2 : Nat) : Nat → Nat → Nat → Int
  | 0, _, _ => 0
  | k + 1, t, d => (t : Int) - taylor x2 k (t * x2 / 2 ^ 64 / (d * (d + 1))) (d + 2)

/-- Cosine and sine of r quarter turns / 2^18, in units of 2^-64. -/
def quarter (r : Nat) : Int × Int :=
  let x := r * halfPi / 2 ^ 18
  let x2 := x * x / 2 ^ 64
  (taylor x2 14 (2 ^ 64) 1, taylor x2 14 x 2)

/-- round(131,071 × v / 2^64), ties away from zero (R178). -/
def carrierOf (v : Int) : Int :=
  let a : Int := (((v.natAbs * 131071 * 2 + 2 ^ 64) / 2 ^ 65 : Nat) : Int)
  if v < 0 then -a else a

/-- C and S for a 20-bit phase (R178). -/
def carrier (p : BitVec 20) : Int × Int :=
  let q := p.toNat / 2 ^ 18
  let x := quarter (p.toNat % 2 ^ 18)
  let r := if q = 0 then (x.1, x.2) else if q = 1 then (-x.2, x.1) else if q = 2 then (-x.1, -x.2) else (x.2, -x.1)
  (carrierOf r.1, carrierOf r.2)

/-- The mixer word y(m) and whether it was limited, from the interpolator outputs (R178). -/
def State.mix (s : State) (w : Lane) (p : BitVec 20) (i q : Int) : Int × Bool :=
  let c := carrier p
  if s.formatOf w = 2 then satTo 18 ((i * c.1 - q * c.2 + 65536).fdiv 131072)
  else if s.effB (wlA w 0) 4 then satTo 18 ((i * c.1 + 65536).fdiv 131072)
  else (i, false)

/-- A limited sample or word counts (R169, R178, R189). -/
def State.satCount (s : State) (w : Lane) (limited : Bool) (bit : Nat) : State :=
  if limited then (s.count (wlA w 0x34) 1).setBit (wlA w 0x30) bit else s

/-- The lane plays its cluster's data at an instant, not its park code (R168, R176, R208). -/
def State.lanePlays (s : State) (w : Lane) (at_ : Nat) : Option Clu :=
  match s.laneOwner w with
  | none => none
  | some n =>
    let k := s.clu[n]
    if s.wl[w].state = .armed ∧ s.playing n at_ ∧ k.playStart ≤ at_ ∧ !k.parked then some n else none

/-! ### The rate expander and the interpolation filters (R171 to R176) -/

/-- A sample enters the comb, which gives its third difference (R171). -/
def Cic.comb (c : Cic) (x : BitVec 40) : Cic × BitVec 40 :=
  let a := x - c.d1
  let b := a - c.d2
  ({ c with d1 := x, d2 := a, d3 := b }, b - c.d3)

/-- The three integrators take a value of the output rate (R171). -/
def Cic.integrate (c : Cic) (u : BitVec 40) : Cic :=
  let a := c.i1 + u
  let b := c.i2 + a
  { c with i1 := a, i2 := b, i3 := c.i3 + b }

/-- The output for expansion E: the gain of E² removed, halves rounded up, limited to 16 bits (R171). -/
def Cic.out (c : Cic) (e : Nat) : BitVec 16 :=
  let g : Int := ((e * e : Nat) : Int)
  BitVec.ofInt 16 (satTo 16 ((2 * c.i3.toInt + g).fdiv (2 * g))).1

/-- One output value of SMOOTH: at the first of a sample the comb's word goes in, at the others zero (R171, R175). -/
def Cic.step (c : Cic) (first : Bool) (v : BitVec 16) : Cic :=
  let x := if first then c.comb (v.signExtend 40) else (c, 0)
  x.1.integrate x.2

/-- Pairs of coefficients of HB0 to HB3, of 79, 55, 23 and 11 taps: a half-band filter's other taps but the middle one are zero (R172). -/
def hbPairs (stage : Nat) : Nat := if stage = 0 then 20 else if stage = 1 then 14 else if stage = 2 then 6 else 3

/-- The gain of the chain's parts in turn, in bits: each its free share of what is left, the last all of it (R172; log 5). -/
def gainShares : List Nat → Nat → List (Nat × Nat)
  | [], _ => []
  | [x], left => [(x, left)]
  | x :: r, left => (x, min left (Config.hbGain x)) :: gainShares r (left - min left (Config.hbGain x))

/-- The gain of a filter, or of the chain's input (4), in bits: 2 in all but for HB0, so that v gives 4v on every lane (R172). -/
def hbBits (stage : Nat) : Nat := (((gainShares [4, 1, 2, 3] 2).find? (fun x => decide (x.1 = stage))).map Prod.snd).getD 0

/-- The coefficients of a filter's pairs, the outermost first: free but for the innermost, which makes the DC gain exact (R172, R173; log 5). -/
def hbTaps (stage : Nat) : List Int :=
  let l := (List.range (hbPairs stage - 1)).map (Config.hbTap stage)
  l ++ [2 ^ (Config.hbScale stage + hbBits stage) - l.sum]

/-- One output of a half-band filter: between its inputs from the pairs, on an input from the middle tap; rounded to nearest with ties up, and
limited to 18 bits (R172). -/
def hbOut (stage : Nat) (h : List (BitVec 18)) (middle : Bool) : BitVec 18 :=
  let n := hbPairs stage
  let x := fun k => (h.getD k 0).toInt
  if middle then BitVec.ofInt 18 (satTo 18 (x (n - 1) * 2 ^ hbBits stage)).1
  else
    let v := ((List.range n).map (fun j => (hbTaps stage).getD j 0 * (x j + x (2 * n - 1 - j)))).sum
    let d : Int := 2 ^ Config.hbScale stage
    BitVec.ofInt 18 (satTo 18 ((v + d).fdiv (2 * d))).1

/-- A word enters a filter. -/
def hbPush (stage : Nat) (h : List (BitVec 18)) (v : BitVec 18) : List (BitVec 18) := (v :: h).take (2 * hbPairs stage)

/-- One modulator cycle of the chain, at a place in its input period, on an expander value: HB0 of a complex lane doubles 1.6 GS/s, HB1 to HB3
bring 3.2 GS/s to the modulator rate (R172). Each filter answers from the inputs up to its latest one (DESIGN CHOICE, log 5). -/
def Fir.step (f : Fir) (cplx : Bool) (phase : Nat) (v : BitVec 16) : Fir × BitVec 18 :=
  let x := v.signExtend 18 <<< hbBits 4
  let h0 := if cplx && decide (phase % 16 = 0) then hbPush 0 f.h0 x else f.h0
  let x1 := if cplx then hbOut 0 h0 (decide (phase % 16 ≠ 0)) else x
  let h1 := if phase % 8 = 0 then hbPush 1 f.h1 x1 else f.h1
  let h2 := if phase % 4 = 0 then hbPush 2 f.h2 (hbOut 1 h1 (decide (phase % 8 ≠ 0))) else f.h2
  let h3 := if phase % 2 = 0 then hbPush 3 f.h3 (hbOut 2 h2 (decide (phase % 4 ≠ 0))) else f.h3
  ({ h0 := h0, h1 := h1, h2 := h2, h3 := h3 }, hbOut 3 h3 (decide (phase % 2 ≠ 0)))

/-- The sample that a cycle of a lane belongs to, before the gain stage: zero-valued where none plays (R168, R176). -/
def State.sampleAt (s : State) (w : Lane) (plays : Option Clu) (at_ : Nat) : Int × Int :=
  match plays with
  | some n => (s.sampleOf n (s.playNow n) w ((at_ - s.clu[n].playStart) / s.tsOf n)).getD (0, 0)
  | none => (0, 0)

/-- The cluster whose play sets a lane's sample grid at an instant, parked or not (R175, R176). -/
def State.gridOf (s : State) (w : Lane) (at_ : Nat) : Option Clu :=
  match s.laneOwner w with
  | none => none
  | some n => if s.playing n at_ ∧ s.clu[n].playStart ≤ at_ then some n else none

/-- The place of cycle m in its sample: a play's first sample begins at its first cycle (R175), and each sample lasts 8 × 2^K
cycles (R167). -/
def State.placeAt (s : State) (d : Datapath) (followed : Bool) (grid : Option Clu) (at_ : Nat) : Nat :=
  let span := 8 * 2 ^ d.mode.1.toNat
  match grid with
  | some n =>
    let c := (at_ - s.clu[n].playStart) / s.modFu
    if c = 0 then 0 else if followed then (d.pos + 1) % span else c % span
  | none => (d.pos + 1) % span

/-- The registers of SMOOTH after `j` of the `e` outputs of a sample, where the latest samples have been x0, x1 and x2: the comb keeps their
differences, and the integrators, which have taken every earlier sample in full, hold sums that follow from them alone (R171). So a
sample stream gives the same words whatever went before it (R173). -/
def Cic.after (x0 x1 x2 : BitVec 16) (e j : Nat) : Cic :=
  let a := x0.toInt
  let b := x1.toInt
  let c := x2.toInt
  let d1 := b - c
  let d2 := a - 2 * b + c
  let e' : Int := ((e : Nat) : Int)
  let j' : Int := ((j : Nat) : Int)
  { d1 := BitVec.ofInt 40 a, d2 := BitVec.ofInt 40 (a - b), d3 := BitVec.ofInt 40 d2
    i1 := BitVec.ofInt 40 d2, i2 := BitVec.ofInt 40 (e' * d1 + j' * d2)
    i3 := BitVec.ofInt 40 (e' * e' * c + e' * (e' + 1) / 2 * d1 + j' * e' * d1 + j' * (j' + 1) / 2 * d2) }

/-- A datapath whose SMOOTH registers the model has not followed up to a place in a sample: the three latest samples are free (DESIGN
CHOICE, log 5). -/
def Datapath.flushed (d : Datapath) (w : Lane) (at_ : Nat) (cplx : Bool) (pos : Nat) : Datapath :=
  let u := fun i => BitVec.ofNat 16 (Config.unseen w.val at_ i)
  let period := if cplx then 16 else 8
  let e := 8 * 2 ^ d.mode.1.toNat / period
  let j := if pos = 0 then e else (pos - 1) / period + 1
  { d with cicI := Cic.after (u 8) (u 9) (u 10) e j, cicQ := Cic.after (u 11) (u 12) (u 13) e j }

/-- The datapath as cycle m finds it. Cycles that were not followed leave what it holds free, and a change of K, FORMAT or EXP the samples
that SMOOTH's registers follow from (DESIGN CHOICE, log 5). -/
def State.pathFound (s : State) (w : Lane) (m at_ : Nat) : Datapath :=
  let followed := decide (s.wl[w].path.next = some m)
  let d := if followed then s.wl[w].path else { Datapath.unseen w at_ with coefFrom := s.wl[w].path.coefFrom }
  let k := match s.laneOwner w with | some n => s.kOf n | none => 0
  let mode := (BitVec.ofNat 3 k, s.formatOf w, s.effB (wlA w 0) 3)
  if d.mode = mode then d
  else
    let d := { d with mode := mode }
    d.flushed w at_ (decide (s.formatOf w = 2)) (s.placeAt d followed (s.gridOf w at_) at_)

/-- One cycle of gain stage, expander and filters: the datapath, the words I, or a real lane's, and Q that the filters give, and whether the
gain stage limited a sample (R167 to R176). -/
def State.pathStep (s : State) (w : Lane) (plays : Option Clu) (m at_ : Nat) : Datapath × (Int × Int) × Bool :=
  let d := s.pathFound w m at_
  let cplx := decide (s.formatOf w = 2)
  let pos := s.placeAt d (decide (s.wl[w].path.next = some m)) (s.gridOf w at_) at_
  let period := if cplx then 16 else 8
  let e := 8 * 2 ^ d.mode.1.toNat / period
  let x := s.sampleAt w plays at_
  let begins := decide (pos = 0)
  let g := s.gainPair w x
  let vI := if begins then BitVec.ofInt 16 g.1.1 else d.vI
  let vQ := if begins then BitVec.ofInt 16 g.2.1 else d.vQ
  let smooth := d.mode.2.2 && decide (1 < e)
  let steps := decide (pos % period = 0)
  let cicI := if smooth && steps then d.cicI.step begins vI else d.cicI
  let cicQ := if smooth && steps then d.cicQ.step begins vQ else d.cicQ
  let eI := if !steps then d.eI else if smooth then cicI.out e else vI
  let eQ := if !steps then d.eQ else if smooth then cicQ.out e else vQ
  let fI := d.firI.step cplx (pos % period) eI
  let fQ := d.firQ.step cplx (pos % period) eQ
  ({ d with next := some (m + 1), pos := pos, vI := vI, vQ := vQ, cicI := cicI, cicQ := cicQ, eI := eI, eQ := eQ
            firI := fI.1, firQ := fQ.1 }, (fI.2.toInt, fQ.2.toInt), begins && s.gainLimits w x)

/-! ### The modulator (R189, R190, R197) -/

/-- The input word of the modulator, and whether it was limited (R189). -/
def State.modWord (s : State) (w : Lane) (y : Int) : Int × Bool :=
  let cal := if s.wl[w].state = .cal then 0 else s.wl[w].ofsUsed.toInt
  satTo 18 (y + cal + signedOf 18 (s.effF (wlA w 0x128) 17 0))

/-- The cells that a level steers to OUTP: from the pointer on, or from cell 0 (R197). -/
def cellsOf (dem : BitVec 2) (ptr : Nat) (q : BitVec 4) : BitVec 15 :=
  let c := BitVec.ofNat 15 (2 ^ q.toNat - 1)
  if dem = 2 then c else c.rotateLeft ptr

/-- The modulator takes a word: the loop gives the level (R190; DESIGN CHOICE, log 18), and the element matching its cells; SCRAMBLE's
further 0 or 1 is the lowest bit of its sequence (R197; DESIGN CHOICE, log 18). -/
def State.modulate (s : State) (w : Lane) (m : Nat) (y : Int) : State :=
  let r := s.modWord w y
  let s := s.satCount w r.2 1
  let word := BitVec.ofInt 18 r.1
  let coef := s.coefAt w m
  let q := Config.loopLevel coef word s.wl[w].path.loop
  let extra := if s.wl[w].dem = 1 then s.wl[w].path.scr.toNat % 2 else 0
  s.modWl w (fun l => { l with
    yMod := word, level := q, cells := cellsOf l.dem l.demPtr q
    path := { l.path with loop := Config.loopNext coef word l.path.loop, scr := Config.scrambleNext l.path.scr }
    demPtr := if l.dem = 2 then l.demPtr else (l.demPtr + q.toNat + extra) % 15 })

/-- While the CK_CONV PLL of its die is unlocked, what a lane puts out is undefined: a free value (R14, R495; log 18). -/
def State.unlockedOut (s : State) (w : Lane) : State :=
  if s.clk.pll.getLsbD (2 + w.val / 4) then s
  else
    { s.modWl w (fun l => { l with level := (Config.freeWord s.freeN).setWidth 4
                                   cells := (Config.freeWord s.freeN).extractLsb' 4 15 }) with freeN := s.freeN + 1 }

/-- The first cycle of a sample that its lane plays: the lane's reader has read the units that begin with it (R156, R358). -/
def State.laneReads (s : State) (w : Lane) (plays : Option Clu) (m at_ : Nat) : State :=
  match plays with
  | none => s
  | some n =>
    let start := s.clu[n].playStart
    let i := (at_ - start) / s.tsOf n
    let was := s.cycleAt (m - 1)
    if start ≤ was ∧ (was - start) / s.tsOf n = i then s else s.readerReads n (s.playNow n) (Fin.ofNat 20 w.val) i

/-- MODULATOR_CYCLE (R177, R178, R189, R495): the lane's next modulator cycle, from the present tick on. -/
def execModulatorCycle (w : Lane) (s : State) : Host.Outcome State Fault Refusal :=
  s.guarded fun s =>
    if !s.wl[w].nco.running then s
    else
      let m := max s.wl[w].nco.m (s.cycleFrom (s.clk.now * 1024))
      let at_ := s.cycleAt m
      let s := (s.upto (at_ / 1024)).ncoUpTo w m
      let x := s.wl[w].nco
      let p := BitVec.ofNat 20 (x.acc.toNat / 2 ^ 28 + 16 * x.phaseOfs.toNat)
      let plays := s.lanePlays w at_
      let s := s.laneReads w plays m at_
      let d := s.pathStep w plays m at_
      let y := match plays with
        | some _ => s.mix w p d.2.1.1 d.2.1.2
        | none => (signedOf 18 (s.effF (wlA w 0x104) 17 0), false)
      let ptr := if s.wl[w].path.next = some m then s.wl[w].demPtr else Config.unseen w.val at_ 7 % 15
      let s := (s.satCount w d.2.2 0).modWl w (fun l => { l with path := d.1, demPtr := ptr })
      (((s.satCount w y.2 1).modulate w m y.1).unlockedOut w).ncoUpTo w (m + 1)

end Sys2Proof.Machine
end

