-- ==== Sys2Proof/Machine/Converter.lean ====
section
/-! DEFINITION. Arming, the governor, span changes, protection and calibration of W lanes (R198 to R215). -/
namespace Sys2Proof.Machine

/-! ### Commands (R202) -/

/-- A dropped command of a lane. -/
def State.laneDrop (s : State) (w : Lane) : State := s.setBit (wlA w 0x11C) 6

/-- Take one CMD bit of WLN_ARM_CTRL at a management tick; the bits written together with it. Bits of separate writes before one management
tick count as written together, so that the one that gives way sets no CMD_DROPPED: R202 does not say (DESIGN CHOICE, log 18). -/
def State.armTake (s : State) (w : Lane) (bit : Nat) : State × Word :=
  (s.cmdTake (armNewA w) (bit32 bit), s.cmdWord (armNewA w) &&& ~~~(bit32 bit))

/-- The lane's die lies outside DIE_EN (R417). -/
def State.dieAbsent (s : State) (w : Lane) : Bool := !s.clk.plan.getLsbD (w.val / 4)

/-- ARM, CAL and span changes are held: W lanes are prepared (R428, R431), or the CK_CONV PLL of the die is unlocked
(R495). -/
def State.laneHeld (s : State) (w : Lane) : Bool :=
  s.prepared 2 || (!s.dieAbsent w && !s.clk.pll.getLsbD (2 + w.val / 4))

/-- LANE_ARM (R202, R210): ARM is taken. Written together with DISARM or CAL it gives way to them; an ARM that R431 or R495 held has no
other command with it. A second ARM in TRIPPED while the reconnection probe runs makes no further probe and is not dropped: R202 lists ARM for
TRIPPED, and R210 does not say what a second one does (DESIGN CHOICE, log 18). -/
def execLaneArm (w : Lane) (s : State) : Host.Outcome State Fault Refusal :=
  s.guarded fun s =>
    if !s.hasLane w || !s.configured then s else
    let fresh := (s.cmdWord (armNewA w)).getLsbD 0
    let r := s.armTake w 0
    let s := r.1
    if fresh && decide (r.2 ≠ 0) then s.laneGive w 1
    else if s.laneHeld w then s.hold (.laneArm w)
    else if s.dieAbsent w then (s.laneCmdEnd w 1).laneDrop w
    else match s.wl[w].state with
      | .off => (s.modWl w (fun l => { l with state := .queued })).govJoin .arm w
      | .tripped =>
        if s.wl[w].reconnect then s
        else s.modWl w (fun l => { l with reconnect := true, due := s.clk.now + 1600 })
      | .queued =>
        let arming := s.gov.queue.any (fun q => decide (q.lane = w ∧ q.kind = .arm))
        (if arming then s else s.laneCmdEnd w 1).laneDrop w
      | .arming => s.laneDrop w
      | _ => (s.laneCmdEnd w 1).laneDrop w

/-- The lane leaves the governor's queue for OFF, and what waited completes (R202). -/
def State.laneUnqueue (s : State) (w : Lane) : State :=
  let s := { s with gov := { s.gov with queue := s.gov.queue.filter (fun q => decide (q.lane ≠ w)) } }
  (s.laneOff w).laneCmdEnd w 7

/-- The lane is in DISARMING after a CAL, and no DISARM runs (R202, R211). -/
def State.calLeaves (s : State) (w : Lane) : Bool := (s.cmdWord (armA w) &&& ~~~(s.cmdWord (armNewA w))).getLsbD 2

/-- LANE_DISARM (R202): DISARM is taken. -/
def execLaneDisarm (w : Lane) (s : State) : Host.Outcome State Fault Refusal :=
  s.guarded fun s =>
    if !s.hasLane w then s else
    let r := s.armTake w 1
    let s := (r.1.cmdTake (armNewA w) 5).laneGive w r.2
    match s.wl[w].state with
    | .queued => s.laneUnqueue w
    | .arming | .tripped => s.laneDisarm w
    | .armed => if s.laneIdle w then s.laneDisarm w else s.modWl w (fun l => { l with disarmHeld := true })
    | .spanChange => s.modWl w (fun l => { l with disarmHeld := true })
    | .disarming => (if s.calLeaves w then s.laneCmdEnd w 2 else s).laneDrop w
    | _ => (s.laneCmdEnd w 2).laneDrop w

/-- LANE_CAL (R202, R211): CAL is taken. -/
def execLaneCal (w : Lane) (s : State) : Host.Outcome State Fault Refusal :=
  s.guarded fun s =>
    if !s.hasLane w then s else
    let fresh := (s.cmdWord (armNewA w)).getLsbD 2
    let r := s.armTake w 2
    let s := r.1
    if fresh && r.2.getLsbD 1 then s.laneGive w 4
    else
    let s := if fresh && r.2.getLsbD 0 then (s.cmdTake (armNewA w) 1).laneGive w 1 else s
    if s.laneHeld w then s.hold (.laneCal w)
    else if s.dieAbsent w then (s.laneCmdEnd w 4).laneDrop w
    else match s.wl[w].state with
      | .off =>
        if s.configured then (s.modWl w (fun l => { l with state := .queued })).govJoin .cal w
        else (s.laneCmdEnd w 4).laneDrop w
      | .queued =>
        let cal := s.gov.queue.any (fun q => decide (q.lane = w ∧ q.kind = .cal))
        (if cal then s else s.laneCmdEnd w 4).laneDrop w
      | _ => (s.laneGive w 4).laneDrop w

/-! ### The governor (R203, R215) -/

/-- GOV_CFG.SPACING in force, in ticks; 0 acts as 4 (R215). -/
def State.govSpacing (s : State) : Nat :=
  let v := s.effF (clkA 0x400) 5 0
  1600 * (if v = 0 then 4 else v)

/-- GOV_ADMIT (R203): the head of the queue is admitted at the first tick that its spacing allows. -/
def execGovAdmit (s : State) : Host.Outcome State Fault Refusal :=
  s.guarded fun s =>
    if s.prepared 10 then s else
    match s.gov.queue with
    | [] => s
    | q :: rest =>
      let t := max q.takenAt (match s.gov.lastAdmit with | some a => a + s.govSpacing | none => 0)
      let s := s.upto t
      let now := s.clk.now
      let s := { s with gov := { queue := rest, lastAdmit := some now } }
      let w := q.lane
      match q.kind with
      | .arm =>
        let s := (s.takeSpan w).applyDue (wlA w 0x100) 3
        let s := s.modWl w (fun l => { l with
          state := .arming, due := now + 12800, reason := 0, dem := BitVec.ofNat 2 (s.effF (wlA w 0x100) 1 0)
          ofsUsed := l.calOfs, gainUsed := l.calGain })
        s.ncoArm w
      | .cal =>
        let s := s.takeSpan w
        s.modWl w (fun l => { l with state := .cal, due := now + 3200000, calAt := some (l.fs, l.unipolar) })
      | .disarm => (s.laneOff w).laneCmdEnd w 6

/-! ### Flags and the probe (R209, R210) -/

/-- A protection flag of a lane at a tick: event bit, cause, and the action code in force (R210, R453, R454). -/
def State.laneFlag (s : State) (w : Lane) (bit cause : Nat) (act : Nat) (t : Nat) : State :=
  let s := ((s.count (wlA w 0x120) 1).setBit (wlA w 0x11C) bit).fire (180 + w) t
  s.report { cls := 8, cause := BitVec.ofNat 8 cause, cluster := s.laneOwner w, source := BitVec.ofNat 8 w.val
             aux := BitVec.ofNat 16 act, time := BitVec.ofNat 64 (s.tbAt t) }

/-- HALT (R210): the lane trips, and a cluster that plays with it stops. -/
def State.laneTrip (s : State) (w : Lane) (reason : BitVec 4) (t : Nat) : State :=
  let s := s.modWl w (fun l => { l with state := .tripped, reason := reason, reconnect := false })
  match s.laneOwner w with
  | none => s
  | some n =>
    if s.clu[n].state = .lead ∨ s.clu[n].state = .run ∨ s.clu[n].state = .stopping then s.stopCluster n 4 (t * 1024) else s

/-- WLN_PROT.COMP_ACT and OL_ACT in force (R210). -/
def State.compAct (s : State) (w : Lane) : Nat := s.effF (wlA w 0x118) 1 0
def State.olAct (s : State) (w : Lane) : Nat := s.effF (wlA w 0x118) 5 4

/-- The lane connects and enters ARMED; a reconnection takes FS and SPAN (R206). -/
def State.laneConnect (s : State) (w : Lane) (bit : Nat) : State :=
  (((if s.wl[w].reconnect then s.takeSpan w else s).modWl w (fun l => { l with state := .armed, reconnect := false })).laneCmdEnd w 1).setBit (wlA w 0x11C) bit

/-- The end of an open-load probe (R203, R207, R210): the lane connects, with its event bit, or trips. -/
def State.probeEnd (s : State) (w : Lane) (fails : Bool) (bit : Nat) : State :=
  let s1 := if fails then s.laneFlag w 5 4 (s.olAct w) s.clk.now else s
  if fails ∧ s.olAct w ≠ 1 then
    (s1.modWl w (fun l => { l with state := .tripped, reconnect := false, reason := 3 })).laneCmdEnd w 1
  else s1.laneConnect w bit

/-- ARM_PROBE_END (R203, R210): 8 µs after admission, or 1 µs after a reconnection began. -/
def execArmProbeEnd (w : Lane) (probeFails : Bool) (s : State) : Host.Outcome State Fault Refusal :=
  s.guarded fun s =>
    let l := s.wl[w]
    if l.state = .arming ∨ (l.state = .tripped ∧ l.reconnect) then (s.upto l.due).probeEnd w probeFails 0 else s

/-- SPAN_CHANGE_START (R206, R207): at a management tick, break before make. -/
def execSpanChangeStart (w : Lane) (s : State) : Host.Outcome State Fault Refusal :=
  s.guarded fun s =>
    if s.wl[w].state ≠ .armed ∨ !s.laneIdle w ∨ !s.spanWaits w then s
    else if s.prepared 2 then s.hold (.spanChangeStart w)
    else (s.takeSpan w).modWl w (fun l => { l with state := .spanChange, reason := 5, due := s.clk.now + 3200 })

/-- SPAN_CHANGE_END (R202, R207): the change ends as the probe decides, and a DISARM that it held then acts. -/
def execSpanChangeEnd (w : Lane) (probeFails : Bool) (s : State) : Host.Outcome State Fault Refusal :=
  s.guarded fun s =>
    let l := s.wl[w]
    if l.state ≠ .spanChange then s
    else
      let s := (s.upto l.due).probeEnd w probeFails 1
      if l.disarmHeld then s.laneDisarm w else s

/-- CAL_DONE (R211): 2 ms after admission. -/
def execCalDone (w : Lane) (ofs : BitVec 18) (gain : BitVec 12) (s : State) : Host.Outcome State Fault Refusal :=
  s.guarded fun s =>
    if s.wl[w].state ≠ .cal then s
    else
      let s := (s.upto s.wl[w].due).modWl w (fun l => { l with calOfs := ofs, calGain := gain })
      (s.setBit (wlA w 0x11C) 2).laneDisarm w

/-- A flag may be raised: its condition has been clear for 64 ticks since the latest one, and its filter has then run anew (R209, R210). -/
def mayFlag (latest : Option Nat) (filter t : Nat) : Bool := latest.all (fun u => decide (u + 64 + filter ≤ t))

/-- A lane is connected, or a flag of this tick has just tripped it, whereupon a DISARM that was held may have acted (R202, R209, R210). -/
def State.flagsNow (s : State) (w : Lane) (t : Nat) : Bool :=
  let l := s.wl[w]
  decide (l.state = .armed) || decide (l.state = .tripped ∨ l.state = .disarming ∨ l.state = .off) && !l.reconnect &&
    (decide (l.compP = some t) || decide (l.compN = some t))

/-- W_COMPLIANCE_FLAG (R209, R210): a watched ball of a connected lane has left its window for 64 ticks; both balls may flag in one tick. -/
def execWComplianceFlag (w : Lane) (side : BallSide) (t : Nat) (s : State) : Host.Outcome State Fault Refusal :=
  s.guarded fun s =>
    let s := s.upto t
    let l := s.wl[w]
    let latest := match side with | .outp => l.compP | .outn => l.compN
    if !s.flagsNow w t ∨ (l.unipolar ∧ side = .outn) ∨ !mayFlag latest 64 t then s
    else
      let s := match side with
        | .outp => (s.laneFlag w 3 1 (s.compAct w) t).modWl w (fun l => { l with compP := some t })
        | .outn => (s.laneFlag w 4 2 (s.compAct w) t).modWl w (fun l => { l with compN := some t })
      if s.compAct w = 1 ∨ s.wl[w].state ≠ .armed then s else s.laneTrip w 2 t

/-- W_OPEN_LOAD_FLAG (R209, R210): undelivered current for 1,600 ticks. Where a compliance filter completes in the same tick, compliance is
the cause, and this flag is not raised. -/
def execWOpenLoadFlag (w : Lane) (f : FlagTick) (s : State) : Host.Outcome State Fault Refusal :=
  s.guarded fun s =>
    let s := s.upto f.tick
    let l := s.wl[w]
    if l.state ≠ .armed ∨ f.compliance ∨ l.compP = some f.tick ∨ l.compN = some f.tick ∨ !mayFlag l.openAt 1600 f.tick then s
    else
      let s := (s.laneFlag w 5 3 (s.olAct w) f.tick).modWl w (fun l => { l with openAt := some f.tick })
      if s.olAct w = 1 then s else s.laneTrip w 3 f.tick

/-- COMP_CNT_CLR (R214). -/
def execCompCntClr (w : Lane) (s : State) : Host.Outcome State Fault Refusal :=
  s.guarded fun s => s.clearCtr (wlA w 0x120)

end Sys2Proof.Machine
end

