-- ==== Sys2Proof/Machine/Levels.lean ====
section
/-! DEFINITION. Level channels, load groups and the monitor (R260 to R282). -/
namespace Sys2Proof.Machine

/-! ### Spans and codes (R260) -/

/-- A span of currents (R260). -/
def currentSpan (sp : Nat) : Bool := decide (4 ≤ sp)

/-- A span whose code is two's complement (R260). -/
def bipolarSpan (sp : Nat) : Bool := decide (sp = 2 ∨ sp = 3 ∨ sp = 5)

/-- One code step in units of 1/2^21 V or mA (R260). -/
def spanStep (sp : Nat) : Int :=
  match sp with | 0 => 5 | 1 => 10 | 2 => 8 | 3 => 4 | 4 => 4 | 5 => 8 | _ => 40

/-- The number that a code stands for in a span (R260). -/
def codeValue (sp : Nat) (c : BitVec 20) : Int := if bipolarSpan sp then c.toInt else c.toNat

/-- The least and greatest numbers of a span (R260). -/
def spanLow (sp : Nat) : Int := if bipolarSpan sp then -524288 else 0
def spanHigh (sp : Nat) : Int := if bipolarSpan sp then 524287 else 1048575

/-- The code of span `b` nearest the output of code `c` in span `a`, and whether it was clamped (R272); between two
codes that are equally near, `up` decides. -/
def nearestCode (a b : Nat) (c : BitVec 20) (up : Bool) : BitVec 20 × Bool :=
  let v := codeValue a c * spanStep a
  let k := spanStep b
  let lo := v.fdiv k
  let r := v - lo * k
  let n := if 2 * r < k then lo else if k < 2 * r then lo + 1 else if up then lo + 1 else lo
  if v < spanLow b * k then (BitVec.ofInt 20 (spanLow b), true)
  else if spanHigh b * k < v then (BitVec.ofInt 20 (spanHigh b), true)
  else (BitVec.ofInt 20 n, false)

/-! ### Registers in force (R279) -/

def State.lvlSpanCfg (s : State) (c : Lvl) : Nat := s.effF (lvlA c 0) 3 0
def State.lvlMbb (s : State) (c : Lvl) : Bool := s.effB (lvlA c 0) 8
def State.lvlOeCfg (s : State) (c : Lvl) : Bool := s.effB (lvlA c 0) 4
def State.lvlAct (s : State) (c : Lvl) : Nat := s.effF (lvlA c 0x10) 1 0

/-- LVL_CODE.CODE, the pending code (R262). -/
def State.lvlCode (s : State) (c : Lvl) : BitVec 20 := BitVec.ofNat 20 (fld (s.cfgW (lvlA c 4)) 19 0)

/-- A load instant, a connection or a span change of a channel disturbs its conversion (R278). -/
def State.monDisturb (s : State) (c : Lvl) : State :=
  if s.mon.chan.any (fun k => decide (k.val = c.val)) then { s with mon := { s.mon with disturbed := true } } else s

/-! ### Output enable (R270) -/

/-- The channel begins to settle at the present tick (R270). -/
def State.lvlSettle (s : State) (c : Lvl) : State :=
  s.modLvl c (fun l => { l with
    state := .settling, due := if l.changing then max l.due (s.clk.now + 32000) else s.clk.now + 32000
    driven := false, settling := true, reason := if l.state = .opened then 0 else l.reason })

/-- The output is driven (R268). -/
def Level.on (l : Level) : Bool := decide (l.state = .connected) || (decide (l.state = .spanChange) && l.driven)

/-- LVL_OE_WRITE (R270): OE as in force from the present management tick. -/
def execLvlOeWrite (c : Lvl) (s : State) : Host.Outcome State Fault Refusal :=
  s.guarded fun s =>
    let oe := s.lvlOeCfg c
    let l := s.lvl[c]
    if oe = l.oe then s
    else if oe && s.prepared 3 then s.hold (.lvlOeWrite c)
    else
      let s := s.modLvl c (fun l => { l with oe := oe })
      if oe then
        if l.state = .opened ∨ l.state = .tripped then s.lvlSettle c else s
      else
        s.modLvl c (fun l => { l with
          state := .opened, driven := false, settling := false, reason := if l.on then 1 else l.reason
          changing := l.changing || decide (l.state = .spanChange) })

/-- LVL_CONNECT (R270, R272): the filter has settled. -/
def execLvlConnect (c : Lvl) (s : State) : Host.Outcome State Fault Refusal :=
  s.guarded fun s =>
    let l := s.lvl[c]
    if l.state ≠ .settling then s
    else
      let s := (s.upto l.due).modLvl c (fun l => { l with state := .connected, settling := false, changing := false })
      ((s.setBit (lvlA c 0x18) 0).setBitIf l.changing (lvlA c 0x18) 1).monDisturb c

/-- LVL_RECONNECT (R276). -/
def execLvlReconnect (c : Lvl) (s : State) : Host.Outcome State Fault Refusal :=
  s.guarded fun s =>
    if s.prepared 3 then (s.cmdHold (lvlA c 0x10) 4).hold (.lvlReconnect c)
    else
      let s := s.cmdDrop (lvlA c 0x10) 4
      if s.lvl[c].state = .tripped then s.lvlSettle c else s

/-! ### Span changes (R271 to R273) -/

/-- The span switches at the present tick and the active code follows (R272, R273). -/
def State.lvlSwitch (s : State) (c : Lvl) (sp : Nat) (keep : Bool) : State :=
  let l := s.lvl[c]
  if keep then
    let f := s.free
    let n := nearestCode l.span.toNat sp l.active (f.1.getLsbD 0)
    (f.2.modLvl c (fun l => { l with span := BitVec.ofNat 4 sp, active := n.1 })).setBitIf n.2 (lvlA c 0x18) 5
  else s.modLvl c (fun l => { l with span := BitVec.ofNat 4 sp, active := 0 })

/-- A span that differs from the one in force is taken, unless a change is in progress (R271 to R273). -/
def State.lvlSpanTake (s : State) (c : Lvl) : State :=
  let sp := s.lvlSpanCfg c
  let l := s.lvl[c]
  if sp = l.span.toNat ∨ 7 ≤ sp ∨ l.state = .spanChange then s
  else
    let cross := decide (currentSpan sp ≠ currentSpan l.span.toNat)
    let mbb := s.lvlMbb c
    let s := s.setBitIf (mbb && cross) (lvlA c 0x18) 6
    let keep := mbb && !cross
    let s := (s.lvlSwitch c sp keep).monDisturb c
    if l.state = .opened ∨ l.state = .tripped then s
    else s.modLvl c (fun l => { l with
      state := .spanChange, due := s.clk.now + 32000, settling := decide (l.state = .settling)
      driven := keep && decide (l.state = .connected), changing := false
      reason := if l.state = .connected ∧ !keep then 4 else l.reason })

/-- LVL_SPAN_WRITE (R271 to R273): at a management tick. -/
def execLvlSpanWrite (c : Lvl) (s : State) : Host.Outcome State Fault Refusal := s.guarded fun s => s.lvlSpanTake c

/-- The pending code is about to change: the code before this tick's first write stays for a strobe captured in this
tick (R263, R282). -/
def State.codeNote (s : State) (c : Lvl) : State :=
  if s.lvl[c].codeWas.any (fun x => decide (x.1 = s.clk.now)) then s
  else s.modLvl c (fun l => { l with codeWas := some (s.clk.now, s.lvlCode c) })

/-- LVL_SPAN_CHANGE_END (R270, R272). -/
def execLvlSpanChangeEnd (c : Lvl) (s : State) : Host.Outcome State Fault Refusal :=
  s.guarded fun s =>
    let l := s.lvl[c]
    if l.state = .spanChange then
      let s := (s.upto l.due).modLvl c (fun l => { l with state := .connected, driven := false, settling := false })
      ((s.setBit (lvlA c 0x18) 1).setBitIf l.settling (lvlA c 0x18) 0).monDisturb c
    else if l.changing ∧ (l.state = .opened ∨ l.state = .tripped) then
      ((s.upto l.due).modLvl c (fun l => { l with changing := false })).setBit (lvlA c 0x18) 1
    else s

/-! ### Load groups (R263 to R267) -/

/-- Channel i of a load group. -/
def lgChan (g : Lg) (i : Nat) : Lvl := Fin.ofNat 48 (8 * g.val + i)

/-- LOAD_N_EDGE (R263, R266, R297): LOAD_N falls and stays low for a number of ticks. Every falling edge fires the producer; it is a
strobe where the low level lasts at least 10 ns (16 ticks) and the ball had been high for at least 10 ns (DEDUCED, log 19: a shorter low
level asserts nothing). -/
def execLoadNEdge (x : LoadPulse) (s : State) : Host.Outcome State Fault Refusal :=
  s.guarded fun s =>
    let taken := decide (16 ≤ x.low) && s.brg.loadNRise.all (fun r => decide (r + 16 ≤ x.tick))
    let s := ((s.upto x.tick).fire 244 x.tick).modBrg (fun b => { b with loadNRise := some (x.tick + x.low) })
    if taken then (allFin 6).foldl (fun s g => if s.effB (lgA g 0) 1 then s.strobeFire g x.tick else s) s else s

/-- LG_LOAD (R263): a strobe with the management tick as its timestamp. -/
def execLgLoad (g : Lg) (s : State) : Host.Outcome State Fault Refusal :=
  s.guarded fun s => (s.cmdTake (lgA g 0) 1).strobeFire g s.clk.now

/-- The code that a capture at a tick copies (R263, R282). -/
def State.captureCode (s : State) (t : Nat) (c : Lvl) : BitVec 20 :=
  match s.lvl[c].codeWas with
  | some x => if t ≤ x.1 then x.2 else s.lvlCode c
  | none => s.lvlCode c

/-- The least timestamp. -/
def minNat : List Nat → Option Nat
  | [] => none
  | a :: l => match minNat l with
    | none => some a
    | some v => some (min a v)

/-- The load instant of a strobe: the first level-modulator clock edge at or after T + 64 (R263). -/
def State.loadAt (s : State) (t : Nat) : Nat := s.physOf ((s.tbAt (t + 64) + 15) / 16 * 16)

/-- LOAD_CAPTURE (R263, R264): at T + 8 every channel of the group copies its pending code. -/
def execLoadCapture (g : Lg) (s : State) : Host.Outcome State Fault Refusal :=
  s.guarded fun s =>
    match minNat s.lg[g].strobes with
    | none => s
    | some t =>
      let s := s.upto (t + 8)
      let at_ := s.loadAt t
      let x : Captured := { capAt := t + 8, loadAt := at_, codes := (List.range 8).map (fun i => s.captureCode (t + 8) (lgChan g i)) }
      let merged := s.lg[g].captured.any (fun y => decide (y.loadAt = at_))
      let s := (s.count (lgA g 4) 1).setBitIf merged (lgA g 8) 0
      s.modLg g (fun l => { strobes := l.strobes.erase t, captured := l.captured.filter (fun y => decide (y.loadAt ≠ at_)) ++ [x] })

/-- A channel takes its active code at a load instant, and a connection to come waits 32,000 ticks from it (R263, R265,
R270, R272). -/
def State.lvlLoad (s : State) (c : Lvl) (code : BitVec 20) : State :=
  (s.modLvl c (fun l =>
    let waits := decide (l.state = .settling) || (decide (l.state = .spanChange) && !l.driven)
    { l with active := code, due := if waits then max l.due (s.clk.now + 32000) else l.due })).monDisturb c

/-- LOAD_INSTANT (R263): the copied codes become active. -/
def execLoadInstant (g : Lg) (s : State) : Host.Outcome State Fault Refusal :=
  s.guarded fun s =>
    match minNat (s.lg[g].captured.map Captured.loadAt) with
    | none => s
    | some t =>
      let s := s.upto t
      let codes := match s.lg[g].captured.find? (fun x => decide (x.loadAt = t)) with | some x => x.codes | none => []
      let s := s.modLg g (fun l => { l with captured := l.captured.filter (fun y => decide (y.loadAt ≠ t)) })
      (List.range 8).foldl (fun s i => match codes[i]? with | some v => s.lvlLoad (lgChan g i) v | none => s) s

/-- LG_CNT_CLR (R282). -/
def execLgCntClr (g : Lg) (s : State) : Host.Outcome State Fault Refusal := s.guarded fun s => s.clearCtr (lgA g 4)

/-- LVL_CNT_CLR (R282). -/
def execLvlCntClr (c : Lvl) (s : State) : Host.Outcome State Fault Refusal := s.guarded fun s => s.clearCtr (lvlA c 0x1C)

/-! ### Protection (R275, R276) -/

/-- The compliance window in force, in millivolts: a value v stands for -2,000 mV + 20 mV times v, one above 350 acts as 350, and edges that
do not rise act as 0 V to +2.5 V (R275). -/
def State.lvlWindow (s : State) (c : Lvl) : Int × Int :=
  let lo := min 350 (s.effF (lvlA c 0xC) 8 0)
  let hi := min 350 (s.effF (lvlA c 0xC) 24 16)
  if hi ≤ lo then (0, 2500) else (-2000 + 20 * lo, -2000 + 20 * hi)

/-- A flag may be raised at t: none before, or its condition has since been clear for 3,200 ticks and then held for 3,200 (R275, R276). -/
def mayRaise (latest : Option Nat) (t : Nat) : Bool := latest.all (fun u => decide (u + 6400 ≤ t))

/-- The load protection watches a driven channel in a current span (R275). -/
def Level.watched (l : Level) : Bool := l.on && currentSpan l.span.toNat

/-- A flag of a channel in a current span, and its action (R276). -/
def State.lvlFlag (s : State) (c : Lvl) (bit cause : Nat) (reason : BitVec 4) (t : Nat) : State :=
  let s := s.upto t
  let l := s.lvl[c]
  if !l.watched then s
  else
    let act := s.lvlAct c
    let s := ((s.count (lvlA c 0x1C) 1).setBit (lvlA c 0x18) bit).fire (196 + c) t
    let s := s.report { cls := 8, cause := BitVec.ofNat 8 cause, source := BitVec.ofNat 8 (0x20 + c.val)
                        aux := BitVec.ofNat 16 act, time := BitVec.ofNat 64 (s.tbAt t) }
    if act = 1 then s
    else s.modLvl c (fun l => { l with state := .tripped, reason := reason, driven := false
                                       changing := decide (l.state = .spanChange) })

/-- LVL_COMPLIANCE_FLAG (R275, R276): the load has asked for a voltage outside the window, for 3,200 ticks. -/
def execLvlComplianceFlag (c : Lvl) (x : LoadAsk) (s : State) : Host.Outcome State Fault Refusal :=
  s.guarded fun s =>
    let w := s.lvlWindow c
    if !s.lvl[c].watched ∨ (w.1 ≤ x.mv ∧ x.mv ≤ w.2) ∨ !mayRaise s.lvl[c].compAt x.tick then s.upto x.tick
    else (s.lvlFlag c 2 5 2 x.tick).modLvl c (fun l => { l with compAt := some x.tick })

/-- LVL_OPEN_LOOP_FLAG (R275, R276): where the clamp's filter completes in the same tick, COMPLIANCE is the cause and acts alone. -/
def execLvlOpenLoopFlag (c : Lvl) (f : FlagTick) (s : State) : Host.Outcome State Fault Refusal :=
  s.guarded fun s =>
    if !s.lvl[c].watched ∨ f.compliance ∨ s.lvl[c].compAt = some f.tick ∨ !mayRaise s.lvl[c].openAt f.tick then s.upto f.tick
    else (s.lvlFlag c 3 6 3 f.tick).modLvl c (fun l => { l with openAt := some f.tick })

/-! ### The monitor (R277, R278) -/

/-- MON_CTRL.MASK in force. -/
def State.monMask (s : State) : Nat := s.effF 0x403400 7 0

/-- The next selected channel after one, in turn (R277). -/
def nextMon (mask : Nat) (after : Option (Fin 8)) : Option (Fin 8) :=
  let sel := (allFin 8).filter (fun c : Fin 8 => mask.testBit c.val)
  match after with
  | none => sel.head?
  | some k => match sel.find? (fun c => decide (k < c)) with | some c => some c | none => sel.head?

/-- Begin the conversion that follows one, at the present tick. -/
def State.monNext (s : State) (after : Option (Fin 8)) : State :=
  { s with mon := { s.mon with chan := nextMon s.monMask after, due := s.clk.now + 16000, disturbed := false } }

/-- At a management tick a stopped monitor starts with the lowest selected channel (R277). -/
def State.monTick (s : State) : State := if s.mon.chan.isNone ∧ s.monMask ≠ 0 then s.monNext none else s

/-- The quantity that the monitor reads from a channel (R277): of IU2, IB2 and IU20 while CONNECTED the delivered current, else the voltage
at the ball. -/
def Level.measured (l : Level) (m : MonMeasure) : BitVec 24 :=
  if l.state = .connected ∧ 4 ≤ l.span.toNat ∧ l.span.toNat ≤ 6 then m.amps else m.volts

/-- MON_CONVERSION (R277, R278): the conversion in progress ends. -/
def execMonConversion (m : MonMeasure) (s : State) : Host.Outcome State Fault Refusal :=
  s.guarded fun s =>
    match s.mon.chan with
    | none => s
    | some c =>
      let s := s.upto s.mon.due
      let r := s.mon.results[c]
      let v := s.lvl[(Fin.ofNat 48 c.val : Lvl)].measured m
      let r1 : MonResult := { valid := true, disturbed := s.mon.disturbed, seq := r.seq + 1, result := v }
      ({ s with mon := { s.mon with results := s.mon.results.set c r1 } }).monNext (some c)

end Sys2Proof.Machine
end

