-- ==== Sys2Proof/Machine/Fetch.lean ====
section
/-! DEFINITION. Which DRAM accesses the masters of the staging store issue (R139, R141, R149, R153, R155, R156, R391), where their data
goes, and the arbitration of the tiles (R356 to R359). -/
namespace Sys2Proof.Machine

/-! ### Tiles and areas (R139, R141, R356) -/

/-- A layout as one number. -/
def Layout.code (l : Layout) : Nat := (l.wMask ++ l.formats ++ l.pgMask ++ l.k ++ l.ratio).toNat

/-- The tiles at which the sections of an entry start under a layout: for each the hash chooses among the tiles at which no earlier
section starts (R139; log 7). -/
def startTiles (i : Nat) (l : Layout) : List Section → List Nat → List (Fin 20 × Nat)
  | [], _ => []
  | x :: r, used =>
    let free := (List.range 96).filter (fun t => !used.contains t)
    let t := free.getD (Config.tileHash i x.reader.val l.code % free.length) 0
    (x.reader, t) :: startTiles i l r (t :: used)

/-- The tile of a unit of a staged copy of an entry: each section takes consecutive tiles (R139). -/
def State.copyTile (s : State) (i : Nat) (l : Layout) (u : Nat) : Option Nat :=
  let e := s.entry i
  let xs := l.sections (eLenGr e)
  let first := fun x : Section => eObjBase e * 4 + x.offset / 64
  match xs.find? (fun x => decide (first x ≤ u ∧ u < first x + (x.size + 63) / 64)) with
  | none => none
  | some x => ((startTiles i l xs []).find? (fun p => decide (p.1 = x.reader))).map (fun p => (p.2 + (u - first x)) % 96)

/-- The reader whose flow buffer a slot lies in: the first 1 MB of the stream area, W0 to W15 and then PG0 to PG3 (R140, R141). -/
def State.bufferReader (s : State) (slot : Nat) : Option (Fin 20) :=
  let b := s.headCap + s.resCap
  if slot < b then none
  else if slot < b + 8192 then some (Fin.ofNat 20 ((slot - b) / 512))
  else if slot < b + 16384 then some (Fin.ofNat 20 (16 + (slot - b - 8192) / 2048))
  else none

/-- The cluster that binds a reader's lane or pin group. -/
def State.readerOwner (s : State) (r : Fin 20) : Option Clu :=
  if r.val < 16 then s.laneOwner (Fin.ofNat 16 r.val) else s.pgOwner (Fin.ofNat 4 (r.val - 16))

/-- Accesses issued that have not landed. -/
def State.flights (s : State) : List InFlight := s.dram.inFlight ++ s.dram.waiting

/-- An access to a slot has been issued and has not landed. -/
def State.slotBusy (s : State) (slot : Nat) : Bool := s.flights.any (fun x => decide (x.tag.dest.val = slot))

/-- A slot holds nothing that is still kept, and nothing is on its way to it. -/
def State.slotOpen (s : State) (slot : Nat) : Bool := (smFind s.mem.slots slot).all s.slotDead && !s.slotBusy slot

/-- DEADLINE of a tick of the physical axis (R153). -/
def State.deadlineOf (s : State) (t : Nat) : BitVec 32 := BitVec.ofNat 32 (s.tbAt t)

/-! ### Reader data (R155, R156, R391) -/

/-- The unit of a reader's section that holds unit `u` of memory. -/
def State.sectionUnit (s : State) (p : Play) (x : Section) (u : Nat) : Option Nat :=
  let count := (x.size + 63) / 64
  if eStream p.entry then (List.range count).find? (fun k => decide (s.unitAt p (x.offset + 64 * k) = some u))
  else
    let first := eObjBase p.entry * 4 + x.offset / 64
    if first ≤ u ∧ u < first + count then some (u - first) else none

/-- The first sample or vector that unit k of a section holds a byte of (R77, R166). -/
def Section.firstIn (x : Section) (k : Nat) : Nat := 64 * k / x.perGr * 64 + 64 * k % x.perGr * 64 / x.perGr

/-- A play needs a unit from DRAM: it is not data that the entry's class keeps staged (R136, R155). -/
def State.fetchNeeded (s : State) (n : Clu) (p : Play) (u : Nat) : Bool :=
  if p.age ≠ 0 then !s.unitLanded p.idx.toNat p.age u
  else match s.classFor n (s.entryRec p.idx.toNat) with
    | some (_, .resident) => false
    | some (l, .headed) => !inRanges (headRanges s.part.grade20 l p.entry) u
    | _ => true

/-- The ring data of a Hosted entry's unit has landed in DRAM (R391). -/
def State.ringCovers (s : State) (p : Play) (x : Section) (k : Nat) : Bool :=
  match p.obj with
  | some o => decide (0 < (s.host.ctxs[o.ctx].landed - BitVec.ofNat 32 (o.pos + x.offset / 64 + k)).toInt)
  | none => !eStream p.entry

/-- The plays whose data the fill engines may fetch, as the forecast has them: a scheduled jump's target counts from its check at T + 20 on
(R25, R147, R155), and what plays before its switch instant. -/
def State.fetchPlays (s : State) (n : Clu) : List Play :=
  match s.clu[n].sched with
  | none => foreseen (s.plainPlays n 81)
  | some j => (foreseen (s.plainPlays n 81)).filter (fun p => decide (p.start < s.switchAt n j)) ++
      (if j.checked then foreseen (s.playsFrom n 81 (s.targetPlay n j)) else [])

/-- The units that a play's accesses of a reader have asked for already. -/
def State.askedFor (s : State) (n : Clu) (p : Play) : List Nat :=
  (s.mem.slots.filter (fun x => decide (x.2.play = some (n, p.no)))).map (fun x => x.2.addr.toNat) ++
    (s.flights.filter (fun x => decide (x.play = some (n, p.no)))).map (fun x => x.tag.addr.toNat)

/-- O and the check tick of the first sample or vector that unit k of a play's section holds (R156); of a pin group's vector that has
started without its word the check tick, with O = 0 (R391). -/
def State.unitTimes (s : State) (n : Clu) (p : Play) (x : Section) (k : Nat) : Option (Nat × Nat) :=
  let i := x.firstIn k
  match s.readerAt n p x.reader i with
  | some o => some (o, upTick (o - s.readerLead n p x.reader i))
  | none => if p.no = s.clu[n].playNo then
      (s.pg[(Fin.ofNat 4 (x.reader.val - 16) : Pg)].unlanded.find? (fun y => decide (y.1 = i))).map (fun y => (0, y.2)) else none

/-- An instant of a play falls to a scheduled jump's target (R113). -/
def State.jumpCuts (s : State) (n : Clu) (p : Play) (o : Nat) : Bool :=
  match s.clu[n].sched with
  | some j => decide (p.start < s.switchAt n j) && decide (s.switchAt n j ≤ o)
  | none => false

/-- The latest time of an issue has not passed for a check tick: it does not bind ring data, nor data that a fresh forecast asks for at
once (R156, R391). -/
def State.inWindow (s : State) (n : Clu) (p : Play) (d : Nat) : Bool :=
  eStream p.entry || decide (s.clk.now + 2720 ≤ d) || decide (d < s.clu[n].foreseenAt + 12 + 2720)

/-- A unit of a play is still to be asked for, and its first sample plays before `o`: it has to come from DRAM, its reader has not passed it
and its latest time has not gone by. -/
def State.unitOwed (s : State) (n : Clu) (p : Play) (x : Section) (k o : Nat) : Bool :=
  match s.unitAt p (x.offset + 64 * k), s.unitTimes n p x k with
  | some u, some (v, d) =>
    decide (v < o ∧ (s.clk.now + s.leadOf n) * 1024 < v) && s.fetchNeeded n p u && !(s.askedFor n p).contains u && !s.jumpCuts n p v &&
      s.inWindow n p d
  | _, _ => false

/-- Play order (R156): nothing of the cluster's plays that plays before an instant of play `no` is still to be asked for. -/
def State.orderKept (s : State) (n : Clu) (no o : Nat) : Bool :=
  (s.fetchPlays n).all (fun q => decide (no < q.no) || ((s.layoutOf n).sections (eLenGr q.entry)).all (fun y =>
    (List.range ((y.size + 63) / 64)).all (fun j => !s.unitOwed n q y j o)))

/-- Whether the reader data of a unit of a play may be issued now with a deadline (R156, R391): a deadline at the check instant of the first
sample or vector that the unit holds, an issue within its window, and play order. -/
def State.fetchDue (s : State) (n : Clu) (p : Play) (x : Section) (k : Nat) (deadline : BitVec 32) : Bool :=
  match s.unitTimes n p x k with
  | none => false
  | some (o, d) =>
    decide (x.firstIn k < s.samplesOf n p x.reader) && !s.jumpCuts n p o && decide (deadline = s.deadlineOf d) &&
      decide (d ≤ s.clk.now + 4096) && s.inWindow n p d && s.ringCovers p x k &&
      (s.askedFor n p).all (fun v => match s.sectionUnit p x v with | some j => decide (j < k) | none => true) && s.orderKept n p.no o

/-- A slot of a flow buffer is free for new data: what it holds has been passed, or belongs to no play to come (R140, R156). -/
def State.bufferFree (s : State) (n : Clu) (r : Fin 20) (slot : Nat) : Bool :=
  !s.slotBusy slot &&
  match smFind s.mem.slots slot with
  | none => true
  | some x =>
    match (s.coming n 16).find? (fun p => decide (x.play = some (n, p.no))) with
    | none => true
    | some p =>
      match s.sectionOf n p.entry r with
      | none => true
      | some y =>
        match s.sectionUnit p y x.addr.toNat with
        | none => true
        | some k => match s.readerAt n p r (y.firstIn (k + 1)) with
          | none => true
          | some o => decide (o ≤ (s.clk.now + s.leadOf n) * 1024)

/-- The play that a fill engine's access serves: the first that needs the unit now (R139, R155, R156). None where no engine issues it. -/
def State.readerAccess (s : State) (a : AccessTag) : Option (Clu × Nat) :=
  match s.bufferReader a.dest.val with
  | none => none
  | some r =>
    match s.readerOwner r with
    | none => none
    | some n =>
      let ours := decide (20 ≤ a.src.val ∧ a.src.val < 32) && s.clu[n].engine.all (fun f => decide (f.val + 20 = a.src.val)) &&
        a.rt && a.entry.isNone && s.bufferFree n r a.dest.val
      if !ours then none
      else
        ((s.fetchPlays n).find? (fun p => match s.sectionOf n p.entry r with
          | none => false
          | some x => match s.sectionUnit p x a.addr.toNat with
            | none => false
            | some k => s.fetchNeeded n p a.addr.toNat && s.fetchDue n p x k a.deadline)).map (fun p => (n, p.no))

/-! ### Staged copies (R133, R136, R138, R145, R148) -/

/-- The newest copy of an entry has a slot for a unit already. -/
def State.copyHas (s : State) (i u : Nat) : Bool :=
  s.mem.slots.any (fun x => decide (x.2.entry = some (BitVec.ofNat 17 i) ∧ x.2.age = 0 ∧ x.2.addr.toNat = u))

/-- A class keeps its data in the head area under a layout (R136, R142). -/
def State.inHeadArea (s : State) (e : BitVec 256) (x : Layout × PClass) : Bool :=
  decide (x.2 = .headed) || headCovers s.part.grade20 x.1 e && decide (ePin e ≠ 1)

/-- The layout and class under which a publish, a promotion or a return to static mode wants a unit of an entry staged
(R133, R138, R148). -/
def State.stagingFor (s : State) (i u : Nat) : Option (Layout × PClass) :=
  let e := s.entry i
  match s.plc.jobs.find? (fun j => decide (j.entry = i) && inRanges j.ranges u) with
  | some j => j.layouts.find? (fun x => inRanges (match x.2 with | .resident => wholeRanges x.1 e | _ => headRanges s.part.grade20 x.1 e) u)
  | none =>
    if s.plc.switching && s.requiredHeads.any (fun x => decide (x.1 = i) && inRanges x.2 u) then
      (s.entryRec i).layouts.find? (fun x => decide (x.2 = .headed) && inRanges (headRanges s.part.grade20 x.1 e) u)
    else none

/-- A slot lies in the area of a class (R140, R141). -/
def State.areaOf (s : State) (slot : Nat) (heads : Bool) : Bool :=
  if heads then decide (slot < s.headCap) else decide (s.headCap + s.ringUnits ≤ slot ∧ slot < s.headCap + s.resCap)

/-- An access of the Luthier mover, or of a Capo head port for a head, that stages a copy as best effort (R133, R136, R145, R155). -/
def State.stagingAccess (s : State) (a : AccessTag) : Bool :=
  match a.entry with
  | none => false
  | some j =>
    let i := j.toNat
    let u := a.addr.toNat
    match s.stagingFor i u with
    | none => false
    | some x =>
      let port := decide (a.src.val = 43) || decide (x.2 = .headed) && decide (32 ≤ a.src.val ∧ a.src.val < 36)
      port && !a.rt && !s.copyHas i u && s.areaOf a.dest.val (s.inHeadArea (s.entry i) x) && s.slotOpen a.dest.val &&
        decide (s.copyTile i x.1 u = some (tileOf a.dest.val))

/-! ### Heads in rolling mode (R149) -/

/-- A cluster's Capo share (R141). -/
def State.capoShare (s : State) (n : Clu) : Nat := bitsOf s.plc.shares.toNat (8 * n.val + 7) (8 * n.val)

/-- The layout under which Capo stages the head of an entry for a cluster: published for it, jumpable, headed and not pinned (R149). -/
def State.capoWants (s : State) (n : Clu) (i : Nat) : Option Layout :=
  let r := s.entryRec i
  if r.published && eJumpable (s.entry i) && decide (ePin (s.entry i) ≠ 2) then
    match s.classFor n r with
    | some (l, .headed) => some l
    | _ => none
  else none

/-- The deadlines of a head for a cluster: start(x) + 4 for each x whose table names it (R149). -/
def State.capoDeadlines (s : State) (n : Clu) (i : Nat) : List (BitVec 32) :=
  ((s.fanOut n).filter (fun x => decide (x.1 = i))).map (fun x => s.deadlineOf (upTick x.2 + 4))

/-- Entries whose heads Capo may evict: outside every reach and not in use (R149). -/
def State.evictable (s : State) : List Nat :=
  let mine := fun x : Nat × Slot => match x.2.entry with
    | some j =>
      let i := j.toNat
      if decide (x.1 < s.headCap) && decide (x.2.age = 0) && decide (ePin (s.entry i) ≠ 2) &&
        (s.entryRec i).layouts.any (fun l => decide (l.2 = .headed)) && !s.staging i && !s.inRun i &&
        !(allFin 8).any (fun n => (s.fanOut n).any (fun y => decide (y.1 = i))) then some i else none
    | none => none
  s.mem.slots.filterMap mine

/-- The tick at which a head was last needed (R149). -/
def State.neededAt (s : State) (i : Nat) : Nat := smGet (fun _ => 0) s.plc.needed i

/-- The head area has no room for a head, or its tile none for a unit of it (R149). -/
def State.headsFull (s : State) (size tile : Nat) : Bool :=
  decide (s.headCap < s.headUsed + size) ||
  decide ((s.headCap + 95 - tile) / 96 ≤ (s.mem.slots.filter (fun x => decide (x.1 < s.headCap ∧ tileOf x.1 = tile) && !s.slotDead x.2)).length)

/-- The least recently needed head whose slot a new head may take, where one has to make room (R149). -/
def State.victim (s : State) (slot size : Nat) : Option Nat :=
  match (smFind s.mem.slots slot).bind Slot.entry with
  | none => none
  | some j =>
    let l := s.evictable
    if s.headsFull size (tileOf slot) && l.contains j.toNat && l.all (fun i => decide (s.neededAt j.toNat ≤ s.neededAt i)) && !s.slotBusy slot
    then some j.toNat else none

/-- Evict a head: its slots in the head area are free again (R149). -/
def State.evict (s : State) (i : Nat) : State :=
  { s with mem := { s.mem with slots := s.mem.slots.filter (fun x =>
      !(decide (x.1 < s.headCap) && decide (x.2.entry = some (BitVec.ofNat 17 i)) && decide (x.2.age = 0))) } }

/-- A Capo head access for a cluster in LEAD or RUN, in rolling mode and with a share that is not zero (R141, R149): real-time, to a
free slot of its tile or to one of a head that it evicts. -/
def State.capoAccess (s : State) (a : AccessTag) (n : Clu) : Bool :=
  match a.entry with
  | none => false
  | some j =>
    let i := j.toNat
    let u := a.addr.toNat
    let runs := decide (s.clu[n].state = .lead ∨ s.clu[n].state = .run)
    match s.capoWants n i with
    | none => false
    | some l =>
      let ranges := headRanges s.part.grade20 l (s.entry i)
      s.plc.rolling && runs && decide (s.capoShare n ≠ 0) && decide (32 ≤ a.src.val ∧ a.src.val < 36) && a.rt &&
        inRanges ranges u && !s.copyHas i u && (s.capoDeadlines n i).contains a.deadline && s.areaOf a.dest.val true &&
        decide (s.copyTile i l u = some (tileOf a.dest.val)) &&
        (s.slotOpen a.dest.val || (s.victim a.dest.val (rangeUnits ranges)).isSome)

/-! ### Issue (R153, R338) -/

/-- An access arrives at its channel (R338, R339). -/
def State.arrive (s : State) (x : InFlight) : State :=
  let x := { x with passed := x.tag.rt && pastDeadline s.tb x.tag.deadline }
  let s := s.modChan (unitChan x.tag.addr.toNat) (fun k => k.carry x.tag.rt true)
  { s with dram := { s.dram with inFlight := s.dram.inFlight ++ [x] } }

/-- Accesses that wait take the places that there are, each master's in order (R338). -/
def State.admitFrom : List InFlight → List (Fin 44) → State → State
  | [], _, s => s
  | x :: r, stuck, s =>
    if stuck.contains x.tag.src || !s.dram.chans[unitChan x.tag.addr.toNat].room x.tag.rt then admitFrom r (x.tag.src :: stuck) s
    else
      let s := s.arrive x
      admitFrom r stuck { s with dram := { s.dram with waiting := s.dram.waiting.erase x } }

/-- The same for all that wait. -/
def State.takePlaces (s : State) : State := State.admitFrom s.dram.waiting [] s

/-- A slot is allocated to an access and its landing bit cleared; the access goes to its channel, or waits (R153, R154, R338). -/
def State.issue (s : State) (a : AccessTag) (play : Option (Clu × Nat)) : State :=
  let slot : Slot := { addr := a.addr, landed := false, landedAt := 0, data := 0, entry := a.entry, play := play }
  let x : InFlight := { tag := a, issued := s.clk.now, play := play }
  let s := { s with mem := { s.mem with slots := smInsert s.mem.slots a.dest.val slot } }
  ({ s with dram := { s.dram with waiting := s.dram.waiting ++ [x] } }).takePlaces

/-- Where an overlay slot begins in object space (R334, R53). -/
def State.slotBase (s : State) (k : Fin 16) : Nat := s.dramPart 11 15 0 * 2 ^ 20 + 65536 * k.val

/-- A read of the image loader, best effort: of the slot that a VALIDATE checks, or of the head overlay's, which its quiet point re-reads
(R54, R58, R357). It has no place in the staging store, which the loader uses in FETCH alone (R40; DEDUCED, log 21). -/
def State.loaderRead (s : State) (a : AccessTag) : Bool :=
  decide (a.src = 42 ∧ a.entry = none) && !a.rt && (s.ovl.validating.toList ++ s.ovl.queue.head?.toList).any (fun k =>
    decide (s.slotBase k ≤ a.addr.toNat * 64 ∧ a.addr.toNat * 64 < s.slotBase k + 65536))

/-- A read of the image loader goes to its channel, or waits (R338). -/
def State.issueLoader (s : State) (a : AccessTag) : State :=
  ({ s with dram := { s.dram with waiting := s.dram.waiting ++ [({ tag := a, issued := s.clk.now } : InFlight)] } }).takePlaces

/-- An access that a master issues now, and nothing else: reader data of a fill engine, a staged copy, a head of Capo's (R155), or a part of
an overlay slot. -/
def State.issueNow (s : State) (a : AccessTag) : State :=
  if s.loaderRead a then s.issueLoader a
  else match s.readerAccess a with
  | some p => (s.modClu p.1 (fun k => { k with engine := some (Fin.ofNat 12 (a.src.val - 20)) })).issue a (some p)
  | none =>
    if s.stagingAccess a then s.issue a none
    else match (allFin 8).find? (s.capoAccess a) with
      | none => s
      | some n =>
        let size := match a.entry.bind (fun j => s.capoWants n j.toNat) with
          | some l => rangeUnits (headRanges s.part.grade20 l (s.entry ((a.entry.getD 0).toNat)))
          | none => 0
        (match s.victim a.dest.val size with | some i => s.evict i | none => s).issue a none

end Sys2Proof.Machine
end

