-- ==== Sys2Proof/Machine/Dram.lean ====
section
/-! DEFINITION. The DRAM controller (R153 to R155, R330 to R355): accesses and their landing, refresh, neighbour
refresh, page policy and retraining. -/
namespace Sys2Proof.Machine

/-! ### Accesses (R153, R154, R338, R339) -/

/-- ACCESS_ISSUE (R47, R153 to R156, R338): a master issues an access of a configured device; one that no master would issue leaves the
state (DESIGN CHOICE, log 1). -/
def execAccessIssue (tag : AccessTag) (t : Nat) (s : State) : Host.Outcome State Fault Refusal :=
  s.guarded fun s =>
    let s := s.upto t
    if s.configured then s.issueNow tag else s

/-- The heads of an entry that hold a unit (R142, R150). -/
def State.headsWith (s : State) (i u : Nat) : List (List (Nat × Nat)) :=
  ((s.entryRec i).layouts.filter (fun l => decide (l.2 = .headed))).filterMap (fun l =>
    let r := headRanges s.part.grade20 l.1 (s.entry i)
    if inRanges r u then some r else none)

/-- The slot that takes an access's data; none where it has been given up since the access was issued (R133, R135). -/
def State.landsIn (s : State) (a : AccessTag) : Option Slot := smFind s.mem.slots a.dest.val

/-- Write an access's data to its slot and set the landing bit (R154). -/
def State.landSlot (s : State) (a : AccessTag) (late : Bool) (x : Slot) : State :=
  let slot : Slot := { x with landed := true, landedAt := s.clk.now, late := late
                              data := BitVec.ofNat 512 (leNat (s.dramBytes (a.addr.toNat * 64) 64)) }
  { s with mem := { s.mem with slots := smInsert s.mem.slots a.dest.val slot } }

/-- A head whose last access has landed, some access of it after its deadline (R150). -/
def State.headLate (s : State) (i : Nat) (l : List (Nat × Nat)) : Bool :=
  s.rangesLanded i l && s.mem.slots.any (fun x =>
    x.2.late && decide (x.2.entry = some (BitVec.ofNat 17 i) ∧ x.2.age = 0) && inRanges l x.2.addr.toNat)

/-- What follows a landing: late records (R157), staging jobs (R133), and a head of Capo's that completes late (R150). -/
def State.afterLanding (s : State) (a : AccessTag) (y : Slot) : State :=
  let u := a.addr.toNat
  let heads := match a.entry with
    | some i => if a.rt then (s.headsWith i.toNat u).filter (s.headLate i.toNat) else []
    | none => []
  let s := s.count (plcA 0x30) heads.length
  let s := (allFin 8).foldl (fun s n => s.landRecs n u y) s
  s.jobsLanded

/-- The landing write of an access at its grant (R154, R362): where the master's regions block it, the landing bit stays clear. -/
def State.landWrite (s : State) (x : InFlight) (late : Bool) : State :=
  let a := x.tag
  if !s.slotOk a.src.val a.dest.val true then s.violate a.src.val a.dest.val true
  else match s.landsIn a with
    | none => s
    | some y => ((s.landSlot a late y).spareFollow a.dest.val).afterLanding a y

/-- DRAM_CTRL.REF_MODE in force is per-bank (R343). -/
def State.perBank (s : State) : Bool := s.effB (drmA 0x10) 5

/-- Refreshes are issued: they close rows, all or those of the next banks in turn (R343, R344). -/
def DramChan.refresh (k : DramChan) (perBank : Bool) (n : Nat) : DramChan :=
  if perBank then
    { k with refBank := Fin.ofNat 16 (k.refBank.val + n)
             rows := (List.range (min n 16)).foldl (fun r i => smErase r ((k.refBank.val + i) % 16)) k.rows }
  else if n = 0 then k else { k with rows := [] }

/-- With its last real-time access gone, a channel issues the refreshes that it owes (R344; DEDUCED, log 25). -/
def State.payRefresh (s : State) (g : Chan) : State :=
  if s.dram.chans[g].rt = 0 then
    let pb := s.perBank
    s.modChan g (fun k => { (k.refresh pb k.owed) with owed := 0 })
  else s

/-- Of the accesses that are ready on its channel, an access is the one that the controller issues first (R339, R340); best effort comes
after a neighbour refresh that is due (R347). -/
def State.issuedFirst (s : State) (x : InFlight) (ready : List (Fin 1572864)) : Bool :=
  let g := unitChan x.tag.addr.toNat
  let l := s.dram.inFlight
  (x.tag.rt || !s.nbrDue g) && (s.readyOn g ready).all (fun y => decide (y = x) || s.beats x y (decide (l.idxOf x < l.idxOf y)))

/-- An access ends (R154, R339, R349, R358): it leaves its channel, and its landing write is granted by its tile. What the image loader reads
goes to the loader, which does not get a unit whose read escapes. -/
def State.landAccess (s : State) (x : InFlight) (edc : EdcOutcome) (rivals : List (Fin 44 × Nat)) : State :=
  let a := x.tag
  let b := a.addr.toNat * 64
  let g := unitChan a.addr.toNat
  let s := s.bankAccess b
  let s := { s with dram := { s.dram with inFlight := s.dram.inFlight.erase x } }
  let s := ((s.modChan g (fun k => k.carry a.rt false)).takePlaces).payRefresh g
  let s := s.retries b edc
  match edc with
  | .escaped =>
    let s := s.escape b false a.src.val
    if a.src = 42 then s.modOvl (fun o => { o with unread := o.unread ++ [a.addr.toNat], loaded := o.loaded ++ [a.addr.toNat] }) else s
  | .ok _ =>
    if a.src = 42 then s.modOvl (fun o => { o with loaded := o.loaded ++ [a.addr.toNat] }) else
    let r := s.tileGrant (tileOf a.dest.val) a.src s.clk.now rivals
    let s := r.1.upto r.2
    let late := a.rt && pastDeadline s.tb a.deadline
    let s := if a.rt then s.count (chanA g 0x1C) 1 else s
    let s := if late then (s.count (chanA g 4) 1).setBit (drmA 0x24) 3 else s
    s.landWrite x late

/-- ACCESS_LAND (R154, R339, R340, R349, R358): the access to slot `dest`, the first by rule of those that were ready, asks its tile for its
landing write at tick t and ends with the grant. -/
def execAccessLand (dest : Fin 1572864) (t : Nat) (edc : EdcOutcome) (round : LandRound) (s : State) :
    Host.Outcome State Fault Refusal :=
  s.guarded fun s =>
    if !s.dram.ready then s
    else match s.dram.inFlight.find? (fun x => decide (x.tag.dest = dest)) with
      | none => s
      | some x => if s.issuedFirst x round.ready then (s.upto t).landAccess x edc round.rivals else s

/-! ### Refresh (R343, R344) -/

/-- The interval between refreshes that fall due, in sixteenths of a tick (R343). -/
def State.refreshEvery (s : State) : Nat := s.dramPart 1 15 0 * (if s.perBank then 1 else 16)

/-- The instant at which a channel's next refresh falls due, in sixteenths of a tick: an interval after the latest; of the first, the tick
given (R343). -/
def State.refreshAt (s : State) (g : Chan) (t : Nat) : Nat := (s.dram.chans[g].due).getD (16 * t)

/-- REFRESH_DUE (R343, R344): a refresh falls due on a channel. -/
def execRefreshDue (g : Chan) (t : Nat) (rtWaiting : RtWaiting) (s : State) : Host.Outcome State Fault Refusal :=
  s.guarded fun s =>
    if !s.dram.ready then s
    else
      let d := s.refreshAt g t
      let s := s.upto ((d + 15) / 16)
      let every := s.refreshEvery
      let s := s.modChan g (fun k => { k with due := some (d + every) })
      let owed := s.dram.chans[g].owed
      let pb := s.perBank
      if !rtWaiting || decide (s.dram.chans[g].rt = 0) then s.modChan g (fun k => { (k.refresh pb (owed + 1)) with owed := 0 })
      else if owed < 8 then s.modChan g (fun k => { k with owed := owed + 1 })
      else ((s.modChan g (fun k => k.refresh pb 1)).count (chanA g 0x10) 1).setBit (drmA 0x24) 2

/-! ### Neighbour refresh (R346, R347) -/

/-- p(x) of R346; an ADJ_MASK that includes bit ADJ_BIT acts as zero. -/
def adjMap (mask bit x : Nat) : Nat := if mask.testBit bit then x else if x.testBit bit then x ^^^ mask else x

/-- The victims of an aggressor row (R346). -/
def State.victims (s : State) (row : Nat) : List Nat :=
  let w := s.effW (drmA 0x14)
  let p := adjMap (fld w 15 0) (fld w 23 20)
  let dist := max 1 (min 2 (fld w 25 24))
  let rows := if s.dram.part.getLsbD 4 then 65536 else 32768
  (List.range rows).filter (fun v =>
    (List.range dist).any (fun d => decide (p v = p row + (d + 1) ∨ p v + (d + 1) = p row)))

/-- NBR_REFRESH (R345 to R347): each victim of the oldest pending aggressor is activated and precharged, which closes its bank's row; no
sooner than NBR_GAP after the set before, with DRAM ready, and behind real-time accesses. -/
def execNbrRefresh (g : Chan) (turn : NbrTurn) (s : State) : Host.Outcome State Fault Refusal :=
  s.guarded fun s =>
    match s.dram.chans[g].aggressors, s.dram.ready && !(turn.rtWaiting && decide (0 < s.dram.chans[g].rt)) with
    | [], _ | _, false => s
    | a :: rest, true =>
      let s := s.upto (max turn.tick (match s.dram.chans[g].lastNbr with | some l => l + s.nbrGap | none => 0))
      let s := s.modChan g (fun k => { k with aggressors := rest, lastNbr := some s.clk.now, rows := smErase k.rows a.1.val })
      ((s.victims a.2).foldl (fun s v => s.activate g a.1 v) s).count (chanA g 0x14) 1

/-- PAGE_CLOSE (R348): under TIMER, a row closes once its bank has had no access for PAGE_TIMER clocks. -/
def execPageClose (g : Chan) (bank : Fin 16) (s : State) : Host.Outcome State Fault Refusal :=
  s.guarded fun s =>
    if s.predicts then s
    else match smFind s.dram.chans[g].rows bank.val with
      | none => s
      | some _ =>
        let s := s.upto (smGet (fun _ => 0) s.dram.chans[g].used bank.val + s.pageTimer)
        s.modChan g (fun k => { k with rows := smErase k.rows bank.val })

/-! ### Training (R335 to R337) -/

/-- Every row closes (R343, R348, R352). -/
def State.closeRows (s : State) : State :=
  (allFin 16).foldl (fun s g => s.modChan g (fun k => { k with rows := [] })) s

/-- The phases of a training, in order (R335, R337). -/
def trainPhases : Training → List Nat
  | .none => []
  | .short => [7, 3, 4]
  | _ => [1, 2, 3, 4, 5, 6]

/-- The phase that runs `t` ticks after a training that began at `start` (R335; log 20). -/
def phaseAt (start : Nat) : List Nat → Nat → Nat
  | [], _ => 0
  | [p], _ => p
  | p :: r, t => if t < Config.phaseTicks start p then p else phaseAt start r (t - Config.phaseTicks start p)

/-- DRAM_STATUS.PHASE (R335). -/
def State.dramPhase (s : State) : Nat := phaseAt s.dram.trainAt (trainPhases s.dram.training) (s.clk.now - s.dram.trainAt)

/-- A training starts: READY drops and rows close (R335 to R337); the cadence of refreshes starts afresh. -/
def State.train (s : State) (k : Training) : State :=
  let s := (allFin 16).foldl (fun s g => s.modChan g (fun k => { k with due := none })) s.closeRows
  { s with dram := { s.dram with training := k, trainAt := s.clk.now, ready := false, selfRefresh := false } }

/-- Every access in flight, and then every one that waits for a place, completes. -/
def State.landAll (s : State) : Nat → State
  | 0 => s
  | fuel + 1 => match s.dram.inFlight with
    | [] => s
    | x :: _ => (s.landAccess x (.ok 0) []).landAll fuel

/-- DRAM enters self-refresh: every access in flight and every accepted write completes before (DEDUCED, log 22), every owed
refresh is issued, and every row closes (R352). -/
def State.selfRefreshIn (s : State) : State :=
  let s := s.host.writes.foldl (fun s _ => s.drain []) (s.landAll s.flights.length)
  let s := (allFin 16).foldl (fun s g => s.modChan g (fun k => { k with owed := 0 })) s.closeRows
  { s with dram := { s.dram with ready := false, selfRefresh := true } }

/-- A failed training of a configured device (R336): READY stays 0, and the supervisor records it. -/
def State.trainFail (s : State) (g : Chan) (phase : Fin 8) : State :=
  let s := { s with dram := { s.dram with training := .none, ready := false, shortNext := false } }
  (s.setBit (drmA 0x24) 4).report { cls := 11, cause := 1, source := BitVec.ofNat 8 g.val, aux := BitVec.ofNat 16 phase.val
                                    time := BitVec.ofNat 64 s.tb }

/-- A training ends well: READY, unless the CK_DRAM PLL is unlocked, and every predictor at 2 (R336, R348); where the PLL has relocked
during it, the short training follows before READY (R495). -/
def State.trainPass (s : State) : State :=
  let s := (allFin 16).foldl (fun s g => s.modChan g (fun k => { k with predict := [] })) s
  let next := s.dram.shortNext
  let s := { s with dram := { s.dram with training := .none, ready := s.clk.pll.getLsbD 6, shortNext := false } }
  if next then s.train .short else s

/-- DRAM_RETRAIN (R336): at the first management tick at which every cluster is IDLE and no overlay is PENDING; until
then the command waits. -/
def execDramRetrain (s : State) : Host.Outcome State Fault Refusal :=
  s.guarded fun s =>
    if !s.configured then s
    else if s.prepared 7 then s.hold .dramRetrain
    else if s.dram.training ≠ .none then (s.cmdTake (drmA 0x10) 1).setBit (drmA 0x24) 6
    else if !s.allIdle || !s.ovl.queue.isEmpty then { s with dram := { s.dram with retrainWait := true } }
    else
      let s := s.cmdTake (drmA 0x10) 1
      { s with dram := { s.dram with retrainWait := false } }.train .retrain

/-- The counters of R354. -/
def dramCtrs : List Nat := (allFin 16).flatMap (fun g => [4, 8, 0xC, 0x10, 0x14, 0x18, 0x1C].map (chanA g))

/-- DRAM_CNT_CLR (R355). -/
def execDramCntClr (s : State) : Host.Outcome State Fault Refusal := s.guarded fun s => s.clearCtrs dramCtrs

/-- The controller's part of a management tick: REF_MODE waits until no channel owes a refresh and then starts at bank 0 (R343), and a
change of page policy closes every row (R348). -/
def State.dramTick (s : State) (before : Word) : State :=
  let a := drmA 0x10
  let after := s.effW a
  let owes := (allFin 16).any (fun g => decide (s.dram.chans[g].owed ≠ 0))
  let s := if before = after then s else s.closeExpired before
  let turns := !owes && decide (before.getLsbD 5 ≠ after.getLsbD 5)
  let s := if owes then { s with eff := smPut resetWord s.eff a (merge after before (bit32 5)) } else s
  let s := if turns then (allFin 16).foldl (fun s g => s.modChan g (fun k => { k with due := none, refBank := 0 })) s else s
  if before.getLsbD 4 ≠ after.getLsbD 4 then s.closeRows else s

end Sys2Proof.Machine
end

