-- ==== Sys2Proof/Machine/Memory.lean ====
section
/-! DEFINITION. On-chip memory (R356 to R373): the tuning pass, clearing, and the exchange RAM with its two ports. -/
namespace Sys2Proof.Machine

/-! ### The tuning pass (R363 to R365) -/

/-- TUNE_CTRL.EN and GAP in force (R372). -/
def State.tuneEn (s : State) : Bool := s.effB (memA 0x300) 0
def State.tuneGap (s : State) : Nat := max 1 (s.effF (memA 0x300) 8 1)

/-- TUNE_BLOCK_START (R363): GAP management ticks after the previous block ended. -/
def execTuneBlockStart (s : State) : Host.Outcome State Fault Refusal :=
  s.guarded fun s =>
    if !s.tuneEn || s.mem.tuneStopped || decide (s.mem.tunePhase ≠ .idle) || decide (s.clk.mgmtCount < s.mem.tuneNext) ||
      s.prepared 9 then s
    else (s.modMem (fun m => { m with tunePhase := .copy, tuneDone := 0 })).tuneAsk s.clk.now

/-- A block has ended: the next one follows, tile by tile and then block by block (R363). -/
def State.tuneNextBlock (s : State) : State :=
  let m := s.mem
  let lastTile := decide (m.tuneTile.val = 95)
  let s := s.modMem (fun m => { m with
    tunePhase := .idle, tuneDone := 0, tuneTile := m.tuneTile + 1, tuneBlock := if lastTile then m.tuneBlock + 1 else m.tuneBlock
    tuneNext := s.clk.mgmtCount + s.tuneGap })
  if lastTile && decide (m.tuneBlock = 255) then (s.count (memA 0x310) 1).setBit (memA 0x308) 0 else s

/-- A block fails its test (R364): it stays redirected, and the pass stops. -/
def State.tuneFail (s : State) : State :=
  let m := s.mem
  let s := s.tuneUnask.modMem (fun m => { m with
    tunePhase := .idle, tuneDone := 0, tuneStopped := true, redirect := some (m.tuneTile, m.tuneBlock)
    failTile := BitVec.ofNat 7 m.tuneTile.val, failBlock := BitVec.ofNat 8 m.tuneBlock.val })
  (s.setBit (memA 0x308) 1).report { cls := 10, cause := 1, source := BitVec.ofNat 8 m.tuneTile.val
                                     aux := BitVec.ofNat 16 m.tuneBlock.val, time := BitVec.ofNat 64 s.tb }

/-- The test engine goes on to a phase of the block, and asks for its first access in the next tick (R363). -/
def State.tuneTo (s : State) (p : TunePhase) (redirect : Option (Fin 96 × Fin 256)) : State :=
  (s.modMem (fun m => { m with tunePhase := p, tuneDone := 0, redirect := redirect })).tuneAsk (s.clk.now + 1)

/-- TUNE_PHASE_DONE (R363, R364): the accesses of the phase that are left are granted, and the phase ends; a test that fails makes no more. -/
def execTunePhaseDone (testPassed : Bool) (s : State) : Host.Outcome State Fault Refusal :=
  s.guarded fun s =>
    let block := some (s.mem.tuneTile, s.mem.tuneBlock)
    match s.mem.tunePhase with
    | .idle => s
    | .copy => s.tuneFinish.tuneTo .test block
    | .test => if testPassed then s.tuneFinish.tuneTo .restore block else s.tuneFail
    | .restore => (s.tuneFinish.modMem (fun m => { m with redirect := none })).tuneNextBlock

/-- A reset or a sleep request stops the block in progress: COPY is abandoned, TEST and RESTORE end restored ahead of every other master, and
the block is visited again (R365). -/
def State.tuneStop (s : State) : State :=
  if s.mem.tunePhase = .idle then s
  else s.tuneUnask.modMem (fun m => { m with tunePhase := .idle, tuneDone := 0, redirect := none })

/-! ### Clearing (R366) -/

/-- The bit of CLEARING of each memory. -/
def clearBit : ClearKind → BitVec 4
  | .staging => 1
  | .tables => 2
  | .xram => 4
  | .winterStore => 8

/-- A memory is cleared to zero; CLEARING shows it until the clear completes (R366). -/
def State.clearMem (s : State) (k : ClearKind) : State :=
  let s := s.modMem (fun m => { m with clearing := m.clearing ||| clearBit k })
  match k with
  | .staging =>
    (allFin 4).foldl (fun s g => s.modPg g (fun p => { p with ring := [] })) (s.modMem (fun m => { m with slots := [], spare := [] }))
  | .tables => { s with tabs := {} }
  | .xram => s.modMem (fun m => { m with xram := [] })
  | .winterStore => s

/-- The clear of a memory completes (R366). -/
def State.clearEnd (s : State) (k : ClearKind) : State := s.modMem (fun m => { m with clearing := m.clearing &&& ~~~(clearBit k) })

/-- MEMORY_CLEAR_DONE (R366). -/
def execMemoryClearDone (k : ClearKind) (s : State) : Host.Outcome State Fault Refusal := s.guarded fun s => s.clearEnd k

/-- MEM_CNT_CLR (R373). -/
def execMemCntClr (s : State) : Host.Outcome State Fault Refusal :=
  s.guarded fun s => s.clearCtrs (memA 0x404 :: (List.range 44).flatMap (fun m => [memA (4 * m), memA (0x100 + 4 * m)]))

/-! ### The exchange RAM (R367 to R371) -/

/-- What an unlisted byte of the exchange RAM reads as: it is cleared to zero (R366). -/
def xramDefault : Nat → Byte := fun _ => 0

/-- A word of the exchange RAM, by word address. -/
def State.xramWord (s : State) (w : Nat) : Word := BitVec.ofNat 32 (leNat (getBytes xramDefault s.mem.xram (4 * w) 4))

/-- The bytes of a word that byte enables select. -/
def enabledBytes (be : BitVec 4) (v : Word) : List (Option Byte) :=
  (List.range 4).map (fun i => if be.getLsbD i then some (BitVec.ofNat 8 (v.toNat >>> (8 * i))) else none)

/-- Write a word under byte enables. -/
def State.xramWrite (s : State) (w : Nat) (be : BitVec 4) (v : Word) : State :=
  s.modMem (fun m => { m with xram := putBytes xramDefault m.xram (4 * w) (enabledBytes be v) })

/-- Host and LB slots of one cycle collide (R368). -/
def collides (a b : Option XramSlot) : Bool :=
  match a, b with
  | some x, some y => decide (x.tick = y.tick ∧ x.word = y.word) && (x.write || y.write)
  | _, _ => false

/-- The LB access whose slot lies in a cycle changes; an LB slot lies 4 ticks after its edge (R370). -/
def State.modRun (s : State) (cycle : Nat) (f : LbRun → LbRun) : State :=
  s.modMem (fun m => { m with lbRuns := m.lbRuns.map (fun r => if r.edge + 4 = cycle then f r else r) })

/-- A collision counts, is recorded, and asserts BUSY_N for the LB access (R368). -/
def State.xramCollide (s : State) (w cycle : Nat) : State :=
  (((s.count (memA 0x404) 1).setBit (memA 0x408) 0).modMem (fun m => { m with collideAddr := BitVec.ofNat 18 w })).modRun cycle
    (fun r => { r with busy := true })

/-- A word that a collided read returns: a free value (R368; log 4), and the state that has used it up. -/
def State.collided (s : State) : Word × State := (Config.collidedWord s.freeN, { s with freeN := s.freeN + 1 })

/-- The exchange RAM is being cleared. -/
def State.xramClearing (s : State) : Bool := s.mem.clearing.getLsbD 2

/-- LB_CLK runs: it is held low while CK_CORE is not running (R371), and by the clamps (R437, R472). -/
def State.lbClock (s : State) : Bool := s.clk.pll.getLsbD 0 && !s.isolated

/-- The local bus is served (R371). -/
def State.lbServed (s : State) : Bool :=
  s.effB (memA 0x400) 0 && !s.xramClearing && !s.heldInReset && decide (s.pwr.phase ≠ .resetting)

/-- The ball LB_D as the device drives it: during the clock period that ends at the second edge after a read that it serves, and undriven
at any other time (R370) and under the clamps (R437). -/
def State.lbD (s : State) : Option Word :=
  if s.isolated then none
  else ((s.mem.lbRuns.filter (fun r => decide (r.edge + 8 ≤ s.clk.now ∧ s.clk.now ≤ r.edge + 16))).filterMap LbRun.data).getLast?

/-- The ball BUSY_N, low, as it is valid at the second edge after an access (R370, R371); the clamps hold it high (R437, R461). -/
def State.busy (s : State) : Bool := !s.clamped && s.mem.lbRuns.any (fun r => r.busy && decide (r.edge + 16 = s.clk.now))

/-- LB_INT_N is low: it follows XRAM_LB_CTRL.INT, inverted (R369, R372); the clamps hold it high (R437, R461). -/
def State.lbInt (s : State) : Bool := !s.clamped && s.effB (memA 0x400) 1

/-- A read slot of either port: its word, or a free value where it collides with a write. -/
def State.slotRead (s : State) (w : Nat) (clash : Bool) : Word × State := if clash then s.collided else (s.xramWord w, s)

/-- An LB access is sampled at an edge: it joins those whose second edge has not passed (R370). -/
def State.lbSample (s : State) (t : Nat) (busy : Bool) : State :=
  s.modMem (fun m => { m with lbRuns := { edge := t, busy := busy } :: m.lbRuns.filter (fun r => decide (t < r.edge + 24)) })

/-- The word that a host read took in a cycle is undefined after all (R368). -/
def State.hostSpoiled (s : State) (cycle : Nat) : State :=
  let f := s.collided
  f.2.modMem (fun m => { m with
    bar2Data := (List.zip m.hostSlots m.bar2Data).map (fun x => if x.1.tick = cycle then f.1 else x.2) })

/-- LB_ACCESS (R369 to R371): sampled at the LB_CLK edge at tick t, a multiple of 8, it takes the LB slot of the cycle at t + 4. -/
def execLbAccess (t : Nat) (write : Bool) (addr : BitVec 18) (be : BitVec 4) (data : Word) (s : State) :
    Host.Outcome State Fault Refusal :=
  s.guarded fun s =>
    if !s.lbClock || decide (s.tbAt t % 8 ≠ 0) then s else
    let s := s.upto (t + 4)
    if !s.lbServed then s.lbSample t (s.effB (memA 0x400) 0)
    else
      let w := addr.toNat
      let slot : XramSlot := { tick := t + 4, word := w, write := write, be := be, data := data }
      let host := s.mem.hostSlots.find? (fun h => collides (some h) (some slot))
      let s := (s.lbSample t false).modMem (fun m => { m with lbSlot := some slot })
      let s := if host.isSome then s.xramCollide w (t + 4) else s
      if write then
        let s := match host with
          | some h => if h.write then s else s.hostSpoiled (t + 4)
          | none => s
        s.xramWrite w be data
      else
        let r := s.slotRead w host.isSome
        r.2.modRun (t + 4) (fun x => { x with data := some r.1 })

/-- The cycle that serves a host word given at tick `t`: the next one where an earlier word has taken that of the present tick (R367). -/
def State.hostCycle (s : State) (t : Nat) : Nat :=
  match s.mem.hostSlots.getLast? with
  | none => max s.clk.now t
  | some h => max (max s.clk.now t) (h.tick + 1)

/-- A word of a host write in its slot; a write that the LB makes in the same cycle follows it (R368). -/
def State.hostWord (s : State) (slot : XramSlot) : State :=
  let clash := collides (some slot) s.mem.lbSlot
  let s := if clash then s.xramCollide slot.word slot.tick else s
  let s := s.xramWrite slot.word slot.be slot.data
  match s.mem.lbSlot, clash with
  | some l, true =>
    if l.write then s.xramWrite l.word l.be l.data
    else
      let f := s.collided
      f.2.modRun slot.tick (fun x => { x with data := some f.1 })
  | _, _ => s

/-- A word of a host read in its slot (R368). -/
def State.hostFetch (s : State) (slot : XramSlot) : Word × State :=
  let clash := collides (some slot) s.mem.lbSlot
  let s := if clash then s.xramCollide slot.word slot.tick else s
  s.slotRead slot.word clash

/-- The words of a host access, one per cycle in ascending address order (R367). -/
def State.hostWords (s : State) (t : Nat) (write : Bool) (addr : BitVec 18) : List (BitVec 4 × Word) → State
  | [] => s
  | w :: ws =>
    let cycle := s.hostCycle t
    let slot : XramSlot := { tick := cycle, word := addr.toNat, write := write, be := w.1, data := w.2 }
    let s := s.upto cycle
    let r := if write then (0, s.hostWord slot) else s.hostFetch slot
    let s := r.2.modMem (fun m => { m with
      hostSlots := m.hostSlots ++ [slot], bar2Data := if write then m.bar2Data else m.bar2Data ++ [r.1] })
    s.hostWords (cycle + 1) write (addr + 1) ws

/-- BAR2_ACCESS (R366 to R368): a host access from tick t on, of the words that `be` counts, in as many cycles. Where the host interface is
cut off or the device is held in reset, a read completes with all ones and a write is discarded; one that meets a clear of the exchange RAM
waits for its end. -/
def execBar2Access (t : Nat) (write : Bool) (addr : BitVec 18) (be : List (BitVec 4)) (data : List Word) (s : State) :
    Host.Outcome State Fault Refusal :=
  s.guarded fun s =>
    let s := s.upto t
    let words := (List.range be.length).map (fun i => ((be[i]?).getD 0, (data[i]?).getD 0))
    if s.heldInReset || s.hostCut then
      if write then s else s.modMem (fun m => { m with bar2Data := words.map (fun _ => ~~~0) })
    else
      let first := s.hostCycle t
      let s := s.clearEnd .xram
      (s.modMem (fun m => { m with hostSlots := [], bar2Data := if write then m.bar2Data else [] })).hostWords first write addr words

end Sys2Proof.Machine
end

