-- ==== Sys2Proof/Machine/Windows.lean ====
section
/-! DEFINITION. The table windows of BAR0 (R73, R75, R92, R106, R109, R180, R183, R250, R253) and the writes that an
overlay application holds (R59, R408). -/
namespace Sys2Proof.Machine

/-- Store one word of a table under byte enables (R405). -/
def tabPut (m : SMap Word) (k : Nat) (be : BitVec 4) (data : Word) : SMap Word :=
  smMod (fun _ => (0 : Word)) m k (fun w => merge w data (beMask be))

/-- A write to the segment table: the entry is unpublished (R75). -/
def State.segWrite (s : State) (k : Nat) (be : BitVec 4) (data : Word) : State :=
  if be = 0 then s
  else
    let s := (s.markAll.keepWord (0x800000 + 4 * k) (s.segWord k)).unpublish (k / 8)
    { s with tabs := { s.tabs with seg := tabPut s.tabs.seg k be data } }

/-- A write to the timing-set shadow, which copies at once while the group's cluster is IDLE (R253). -/
def State.tsetWrite (s : State) (k : Nat) (be : BitVec 4) (data : Word) : State :=
  let g : Pg := Fin.ofNat 4 (k / 8192)
  let s := { s with tabs := { s.tabs with tsetShadow := tabPut s.tabs.tsetShadow k be data } }
  if s.pgIdle g then s.copyTset g else s

/-- A write to a table window at a canonical address, which a read made in the same tick does not see (R109, R116, R183); marker profiles are read-only (R92, R400). -/
def State.tableWrite (s : State) (a : Nat) (be : BitVec 4) (data : Word) : State :=
  if a < 0xC00000 then s.segWrite ((a - 0x800000) / 4) be data
  else if a < 0xC40000 then
    let k := (a - 0xC00000) / 4
    let s := s.markAll.keepWord a (smGet (fun _ => 0) s.tabs.jump k)
    { s with tabs := { s.tabs with jump := tabPut s.tabs.jump k be data } }
  else if a < 0xCC0000 then
    let k := (a - 0xC40000) / 4
    let s := s.keepWord a (smGet (fun _ => 0) s.tabs.nco k)
    { s with tabs := { s.tabs with nco := tabPut s.tabs.nco k be data } }
  else if a < 0xD20000 then s.tsetWrite ((a - 0xD00000) / 4) be data
  else s

/-- The bits of a word of a timing set that are no reserved field, by its byte offset in the set (R250). -/
def tsetFields (o : Nat) : Word :=
  if o = 0 then 0x80007FFF
  else if 0x40 ≤ o ∧ o < 0x240 then if o % 32 < 24 then 0x80FFFFFF else if o % 32 = 24 then 0x13 else 0
  else 0

/-- The bits of a table word that are no reserved field (R73, R92, R107, R180, R250). -/
def tableFields (a : Nat) : Word :=
  if a < 0xC00000 then ~~~(BitVec.ofNat 32 (entReserved.getD (a / 4 % 8) 0))
  else if a < 0xC40000 then ~~~0x1FFE0000
  else if a < 0xCC0000 then
    let k := a / 4 % 8
    if k < 3 then ~~~0 else if k = 3 then 0xFFFF else if k = 4 then 0xFC00FFFF else 0
  else if a < 0xD20000 then tsetFields (a % 1024)
  else if a / 4 % 2 = 0 then ~~~0 else 0xFFFF003F

/-- Enable bits of a matrix word that are not fixed at 0 (R286). -/
def State.rowMask (s : State) (a : Nat) : Word :=
  let c := (a - brgA 0) / 32
  let p := (a - brgA 0) % 32 / 4 * 32
  (List.range 32).foldl (fun m i => if s.enableOk c (p + i) then m ||| bit32 i else m) 0

/-- The address lies in the matrix. -/
def inMatrix (a : Nat) : Bool := decide (brgA 0 ≤ a) && decide (a < brgA 0x2000)

/-- The bits of a matrix or table word that a write takes under byte enables (R286, R405). -/
def State.sharedMask (s : State) (a : Nat) (be : BitVec 4) : Word := if inMatrix a then beMask be &&& s.rowMask a else beMask be

/-- A word of the matrix or a table as a read finds it: with the writes that an overlay application holds (R59, R407). -/
def State.heldOver (s : State) (a : Nat) (w : Word) : Word :=
  (s.ovl.heldWrites.filter (fun x => decide (x.addr = a))).foldl (fun w x => merge w x.data (s.sharedMask a x.be)) w

/-- A read of a table window: a reserved field reads as zero (R9), whatever is stored, which R74 and R251 judge (DEDUCED, log 24). -/
def State.tableRead (s : State) (a : Nat) : Word := tableFields a &&& s.heldOver a (word_ a)
where
  word_ (a : Nat) : Word :=
  let get := fun m k => smGet (fun _ => (0 : Word)) m k
  if a < 0xC00000 then s.segWord ((a - 0x800000) / 4)
  else if a < 0xC40000 then get s.tabs.jump ((a - 0xC00000) / 4)
  else if a < 0xCC0000 then get s.tabs.nco ((a - 0xC40000) / 4)
  else if a < 0xD20000 then get s.tabs.tsetShadow ((a - 0xD00000) / 4)
  else get s.tabs.mkp ((a - 0xE00000) / 4)

/-- Writes to these addresses are held while an overlay is applied (R59, R109, R183, R253). -/
def overlayHolds (a : Nat) : Bool := inMatrix a || (decide (0xC00000 ≤ a) && decide (a < 0xD20000))

/-- A software write to the matrix or a table window. -/
def State.sharedWrite (s : State) (a : Nat) (be : BitVec 4) (data : Word) : State :=
  if inMatrix a then s.rwWrite a data (s.sharedMask a be) else s.tableWrite a be data

/-- The same, held while an overlay is applied (R59). -/
def State.sharedWriteHeld (s : State) (a : Nat) (be : BitVec 4) (data : Word) : State :=
  if s.ovl.applying.isSome && overlayHolds a then
    { s with ovl := { s.ovl with heldWrites := s.ovl.heldWrites ++ [{ addr := a, be := be, data := data }] } }
  else s.sharedWrite a be data

/-- The application has ended: what it held is written, in order (R59). -/
def State.releaseWrites (s : State) : State :=
  s.ovl.heldWrites.foldl (fun s x => s.sharedWrite x.addr x.be x.data) { s with ovl := { s.ovl with heldWrites := [] } }

end Sys2Proof.Machine
end

