-- ==== Sys2Proof/Machine/ImageFormat.lean ====
section
/-! DEFINITION. The image as a byte string (R31 to R36): CRC-32, header, section table, records, and the checks of
R496 with the content rules they name. A refusal is a pair: its code of R64 and the section index, 255 for none. -/
namespace Sys2Proof.Machine

/-! ### CRC-32 (R32) -/

/-- Shift the reflected register by one bit: the polynomial 0x04C1_1DB7 reflected is 0xEDB8_8320. -/
def crcBit (c : Word) : Word := if c.getLsbD 0 then (c >>> 1) ^^^ 0xEDB88320#32 else c >>> 1

/-- Take one byte. -/
def crcByte (c : Word) (b : Byte) : Word := (List.range 8).foldl (fun c _ => crcBit c) (c ^^^ b.setWidth 32)

/-- CRC-32 of a byte string. -/
def crc32 (l : List Byte) : Word := ~~~(l.foldl crcByte 0xFFFFFFFF#32)

/-! ### Header and section table (R31, R33, R34) -/

/-- A little-endian field of n bytes at an offset. -/
def leAt (b : List Byte) (off n : Nat) : Nat := leNat ((b.drop off).take n)

/-- A big-endian number of n bytes at an offset. -/
def beAt (b : List Byte) (off n : Nat) : Nat := leNat ((b.drop off).take n).reverse

def hdrVersion (b : List Byte) : Nat := leAt b 0x0C 4
def hdrCompat (b : List Byte) : Nat := leAt b 0x10 2
def hdrFlags (b : List Byte) : Nat := leAt b 0x12 2
def hdrCount (b : List Byte) : Nat := leAt b 0x14 2
def hdrMask (b : List Byte) : Nat := leAt b 0x16 2
def hdrTotal (b : List Byte) : Nat := leAt b 0x18 4
def hdrTableCrc (b : List Byte) : Nat := leAt b 0x20 4
def hdrSigned (b : List Byte) : Bool := (hdrFlags b).testBit 0
def hdrOverlay (b : List Byte) : Bool := (hdrFlags b).testBit 1

/-- An entry of the section table (R33). -/
structure ImgSect where
  idx : Nat
  typ : Nat
  zero : Nat
  off : Nat
  len : Nat
  crc : Nat
  deriving DecidableEq, Repr

/-- The section table. -/
def sectTable (b : List Byte) : List ImgSect :=
  (List.range (hdrCount b)).map (fun i =>
    let a := 0x40 + 16 * i
    { idx := i, typ := leAt b a 2, zero := leAt b (a + 2) 2, off := leAt b (a + 4) 4, len := leAt b (a + 8) 4
      crc := leAt b (a + 12) 4 })

/-- A section's payload. -/
def payload (b : List Byte) (e : ImgSect) : List Byte := (b.drop e.off).take e.len

/-- The section of a type. -/
def sectOf (b : List Byte) (typ : Nat) : Option ImgSect := (sectTable b).find? (fun e => decide (e.typ = typ))

/-- The types that are not reserved, and those that an overlay may carry (R34). -/
def sectTypes : List Nat := [1, 2, 3, 4, 5, 6, 7, 8, 9, 10, 11, 12, 0xF0]
def overlayTypes : List Nat := [4, 5, 6, 7, 8, 9, 10, 0xF0]

/-- The length of a fixed-layout section (R496 step 11). -/
def fixedLen (typ : Nat) : Option Nat :=
  if typ = 1 ∨ typ = 12 then some 16
  else if typ = 2 then some 64
  else if typ = 3 then some 1472
  else if typ = 0xF0 then some 224
  else none

/-! ### Records (R35) -/

/-- The words of a payload. -/
def wordsFrom : Nat → List Byte → List Word
  | 0, _ => []
  | k + 1, l => BitVec.ofNat 32 (leNat (l.take 4)) :: wordsFrom k (l.drop 4)

def wordsOf (l : List Byte) : List Word := wordsFrom (l.length / 4) l

/-- Words per table entry of a windowed section; 0 for any other (R35). -/
def entryWordsOf (typ : Nat) : Nat :=
  if typ = 6 then 256 else if typ = 8 ∨ typ = 9 then 8 else if typ = 10 then 1 else if typ = 11 then 16 else 0

/-- Entries in the table of a windowed section (R35). -/
def tableSize (typ : Nat) : Nat :=
  if typ = 6 then 128 else if typ = 8 then 16384 else if typ = 9 then 131072 else if typ = 10 then 65536 else 4096

/-- Words of one record, where the section has records of one size. -/
def recWords (typ : Nat) : Nat := if typ = 4 ∨ typ = 7 then 2 else 9

/-- Cut words into records; none where the payload ends inside one. -/
def cutRecs (typ : Nat) : Nat → List Word → List (Option (List Word))
  | 0, _ => []
  | _ + 1, [] => []
  | k + 1, f :: c :: r =>
    let w := entryWordsOf typ
    let n := if w = 0 then recWords typ else 2 + c.toNat * w
    if (f :: c :: r).length < n then [none] else some ((f :: c :: r).take n) :: cutRecs typ k ((f :: c :: r).drop n)
  | _ + 1, [_] => [none]

/-- The records of a section; a fixed-layout section is one record. -/
def recordsOf (b : List Byte) (e : ImgSect) : List (Option (List Word)) :=
  let w := wordsOf (payload b e)
  if (fixedLen e.typ).isSome then [some w] else cutRecs e.typ w.length w

/-- The well-cut records of the section of a type. -/
def goodRecs (b : List Byte) (typ : Nat) : List (List Word) :=
  match sectOf b typ with
  | some e => (recordsOf b e).filterMap id
  | none => []

def wordAt (r : List Word) (k : Nat) : Word := r.getD k 0

/-- A BINDING record (R35). -/
def bindClu (r : List Word) : Nat := fld (wordAt r 0) 7 0
def bindW (r : List Word) : BitVec 16 := BitVec.ofNat 16 (fld (wordAt r 1) 15 0)
def bindPg (r : List Word) : BitVec 4 := BitVec.ofNat 4 (fld (wordAt r 1) 19 16)

/-- An EVENT_MATRIX record: its consumer and its 256 enables as a number (R35). -/
def matrixCons (r : List Word) : Nat := fld (wordAt r 0) 15 0
def matrixBits (r : List Word) : Nat := joinWords (r.drop 1)

/-- FIRST, COUNT and the entries of a window record (R35). -/
def winFirst (r : List Word) : Nat := (wordAt r 0).toNat
def winCount (r : List Word) : Nat := (wordAt r 1).toNat

/-- Word w of entry i of a window record. -/
def winWord (typ : Nat) (r : List Word) (i w : Nat) : Word := wordAt r (2 + i * entryWordsOf typ + w)

/-! ### Content rules (R496 step 18) -/

/-- CONTENT and ABSENT_LANE. -/
def cContent : Nat := 0x0D
def cAbsent : Nat := 0x0C

/-- CONTENT unless a condition holds. -/
def need (ok : Bool) : Option Nat := if ok then none else some cContent

/-- Two ranges of at least one entry overlap. -/
def meets (a n b m : Nat) : Bool := decide (max a b < min (a + n) (b + m))

/-- CLOCK_PLAN (R417). -/
def State.clockPlanOk (s : State) (b : List Byte) (r : List Word) : Bool :=
  let w := wordAt r 0
  let binds := goodRecs b 4
  decide (w &&& 0xFFFEF0F0#32 = 0) && (r.drop 1).all (fun x => decide (x = 0)) && decide (w.getLsbD 16 = s.part.grade20) &&
    binds.all (fun x =>
      (setBits 16 (bindW x).toNat).all (fun l => w.getLsbD (l / 4)) &&
      (setBits 4 (bindPg x).toNat).all (fun g => w.getLsbD (8 + g)))

/-- The reserved bits of each word of DRAM_PART (R332). -/
def dramReserved : List Nat :=
  [0xFFFFFFCC, 0xFFFF0000, 0, 0, 0, 0, 0, 0, 0, 0, 0, 0xFFFF0000, 0xFFFF0000, 0xFFFF0000, 0xFFFF0000, 0xFFFFFFFF]

/-- DRAM_PART (R331, R332): bases and sizes in MB. -/
def dramPartOk (r : List Word) : Bool :=
  let w := wordAt r
  let rate := fld (w 0) 1 0
  let size := if (w 0).getLsbD 4 then 32768 else 16384
  let lo := fun k => fld (w k) 15 0
  let areas := [(lo 11, 1), (lo 12, 8), (lo 13, lo 14)]
  clearOf r dramReserved && decide (rate ≠ 0) && !((w 0).getLsbD 5 && decide (rate = 3)) && decide (2400 ≤ lo 1) &&
    ((List.range 9).all (fun i => decide (lo (2 + i) ≠ 0 ∧ fld (w (2 + i)) 31 16 ≠ 0))) && decide (lo 12 % 8 = 0) &&
    areas.all (fun x => decide (x.1 + x.2 ≤ size)) &&
    !meets (lo 11) 1 (lo 12) 8 && !meets (lo 11) 1 (lo 13) (lo 14) && !meets (lo 12) 8 (lo 13) (lo 14)

/-- Fail-log ring size of a group in records: 2^FL_LOG2, or none (R141). -/
def flRing (w : Word) (g : Nat) : Nat := let k := fld w (8 * g + 7) (8 * g); if k = 0 then 0 else 2 ^ k

/-- STAGING_PART (R141). -/
def stagingOk (r : List Word) : Bool :=
  let w := wordAt r
  let res := fld (w 0) 30 16
  let share := (List.range 4).map (fun i => fld (w 2) (8 * i + 7) (8 * i) + fld (w 3) (8 * i + 7) (8 * i))
  let logs := (List.range 4).map (fun g => fld (w 5) (8 * g + 7) (8 * g))
  let rings := ((List.range 4).map (flRing (w 5))).sum
  !(w 0).getLsbD 15 && decide (fld (w 1) 31 9 = 0) && (List.range 10).all (fun i => decide (w (6 + i) = 0)) &&
    (List.range 16).all (fun i => decide (w (16 + 8 * 41 + i) = 0)) &&
    decide (fld (w 0) 14 0 + res + 256 ≤ 24576) && decide (16 ≤ fld (w 1) 8 0 ∧ fld (w 1) 8 0 ≤ 256) &&
    decide (share.sum ≤ 256) && logs.all (fun k => decide (k = 0 ∨ (10 ≤ k ∧ k ≤ 20))) &&
    decide (rings ≤ 2 ^ 20) && decide (32 * rings ≤ 4096 * res)

/-- BINDING (R4, R6, R35). A lane or group that two records name is refused; one that belongs to a cluster without a record moves
to the record's (R55; DEDUCED, log 21). -/
def State.bindRec (s : State) (prev : List (List Word)) (r : List Word) : Option Nat :=
  let w := bindW r
  let g := bindPg r
  let taken := prev.map (fun x => (bindW x, bindPg x))
  if !decide (bindClu r < 8) || decide (fld (wordAt r 0) 31 8 ≠ 0) || decide (fld (wordAt r 1) 31 20 ≠ 0) ||
      prev.any (fun x => decide (bindClu x = bindClu r)) ||
      taken.any (fun x => decide (x.1 &&& w ≠ 0 ∨ x.2 &&& g ≠ 0)) then some cContent
  else if (setBits 16 w.toNat).any (fun l => decide (s.part.variant.wCount ≤ l)) ||
      (setBits 4 g.toNat).any (fun x => decide (s.part.variant.pgCount ≤ x)) then some cAbsent
  else none

/-- EVENT_MATRIX, record by record (R35, R286). -/
def State.matrixRec (s : State) (prev : List (List Word)) (r : List Word) : Option Nat :=
  let c := matrixCons r
  let ps := setBits 256 (matrixBits r)
  let deadC := (decide (150 ≤ c) && decide (c < 160)) || decide (208 ≤ c)
  let bad := fun p : Nat => deadC || decide (246 ≤ p) || (decide (148 ≤ p ∧ p < 180) && decide (160 ≤ c ∧ c < 192))
  if decide (256 ≤ c) || decide (fld (wordAt r 0) 31 16 ≠ 0) || prev.any (fun x => decide (matrixCons x = c)) || ps.any bad
  then some cContent
  else if ps.any (fun p => !s.enableOk c p) then some cAbsent
  else none

/-- The producers that a consumer drives inside the device, as a bit set (R291). -/
def internalOuts (bind : Nat → BitVec 16 × BitVec 4) (c : Nat) : Nat :=
  let bits := fun l : List Nat => l.foldl (fun m p => m ||| (1 <<< p)) 0
  if c < 128 then
    let n := c / 16
    bits ((List.range 8).map (16 + ·) ++
      (setBits 16 (bind n).1.toNat).flatMap (fun w => [24 + 4 * w, 25 + 4 * w, 26 + 4 * w, 27 + 4 * w, 180 + w]) ++
      (setBits 4 (bind n).2.toNat).flatMap (fun g => [88 + 2 * g, 89 + 2 * g, 96 + g]) ++ [100 + n, 108 + n, 116 + n])
  else if 144 ≤ c ∧ c < 150 then bits ((List.range 8).map (fun i => 196 + 8 * (c - 144) + i))
  else if 160 ≤ c ∧ c < 192 then bits [148 + (c - 160)]
  else 0

/-- Drop, as often as told, every node that leads to no node left; a node is a consumer's producers and enables. -/
def pruneGraph : Nat → List (Nat × Nat) → List (Nat × Nat)
  | 0, l => l
  | k + 1, l => pruneGraph k (l.filter (fun x => l.any (fun y => decide (x.1 &&& y.2 ≠ 0))))

/-- A graph of enabled bits and internal edges holds a cycle that passes through no timer consumer (R291). -/
def hasCycle (bind : Nat → BitVec 16 × BitVec 4) (rows : List (Nat × Nat)) : Bool :=
  let nodes := rows.map (fun x => (internalOuts bind x.1, x.2))
  !(pruneGraph nodes.length nodes).isEmpty

/-- TIMING_SETS (R251): `mixedPg` tells the groups that the image's BINDING places in mixed clusters. -/
def tsetRec (mixedPg : Nat → Bool) (prev : List (List Word)) (r : List Word) : Option Nat :=
  let sets := fun x : List Word => (List.range (winCount x)).map (fun i => (winFirst x + i, fun k => winWord 6 x i k))
  let valid := (sets r).filter (fun x => (x.2 0).getLsbD 31)
  let before := ((prev.reverse.flatMap sets).filter (fun x => (x.2 0).getLsbD 31)) ++ valid
  let period := fun x : Nat × (Nat → Word) => fld (x.2 0) 14 0
  need (valid.all (fun x => setOk x.2) &&
    valid.all (fun x => !mixedPg (x.1 / 32) || before.all (fun y => decide (y.1 / 32 ≠ x.1 / 32) || decide (period y = period x))))

/-- LEVEL_SPANS (R261). -/
def State.levelRec (s : State) (prev : List (List Word)) (r : List Word) : Option Nat :=
  let c := fld (wordAt r 0) 7 0
  need (decide (c < 8 * s.part.variant.lgCount) && decide (fld (wordAt r 0) 15 8 < 7) && decide (fld (wordAt r 0) 31 16 = 0) &&
    decide (fld (wordAt r 1) 31 20 = 0) && !prev.any (fun x => decide (fld (wordAt x 0) 7 0 = c)))

/-- NCO_PLANS (R180). -/
def planRec (r : List Word) : Option Nat :=
  need ((List.range (winCount r)).all (fun i =>
    let w := winWord 8 r i
    decide (fld (w 4) 28 27 ≠ 3) && decide (fld (w 4) 25 16 = 0) && decide (fld (w 3) 31 16 = 0) &&
      decide (w 5 = 0 ∧ w 6 = 0 ∧ w 7 = 0)))

/-- SEGMENT_TABLE (R74). -/
def segRec (r : List Word) : Option Nat :=
  need ((List.range (winCount r)).all (fun i =>
    entryOk (BitVec.ofNat 256 (joinWords ((List.range 8).map (winWord 9 r i))))))

/-- JUMP_TABLES (R108). -/
def jumpRec (r : List Word) : Option Nat :=
  need ((List.range (winCount r)).all (fun i =>
    let w := winWord 10 r i 0
    decide (fld w 30 29 ≠ 3) && decide (fld w 28 17 = 0)))

/-- A window record lies in its table and overlaps no earlier one; one with COUNT = 0 is not judged (R35). -/
def winOk (typ : Nat) (prev : List (List Word)) (r : List Word) : Bool :=
  decide (winCount r = 0) ||
    (decide (winFirst r + winCount r ≤ tableSize typ) &&
      !prev.any (fun x => meets (winFirst x) (winCount x) (winFirst r) (winCount r)))

/-- The binding that an image gives a cluster: its record's, else for an overlay the one in force less what records move, else
none (R55, R291). -/
def State.givenBind (s : State) (b : List Byte) (n : Nat) : BitVec 16 × BitVec 4 :=
  match (goodRecs b 4).find? (fun x => decide (bindClu x = n)) with
  | some x => (bindW x, bindPg x)
  | none =>
    if hdrOverlay b then
      match s.clu[n]? with
      | some k =>
        ((goodRecs b 4).foldl (fun m x => m &&& ~~~(bindW x)) k.wBound, (goodRecs b 4).foldl (fun m x => m &&& ~~~(bindPg x)) k.pgBound)
      | none => (0, 0)
    else (0, 0)

/-- The check of one record of a section, after the earlier ones, latest first. Set reserved bits of a marker slot are accepted (R35, R92;
DESIGN CHOICE, log 21). -/
def State.recCheck (s : State) (b : List Byte) (typ : Nat) (prev : List (List Word)) (r : List Word) : Option Nat :=
  if entryWordsOf typ ≠ 0 ∧ !winOk typ prev r then some cContent
  else match typ with
    | 1 => need (s.clockPlanOk b r)
    | 2 => need (dramPartOk r)
    | 3 => need (stagingOk r)
    | 4 => s.bindRec prev r
    | 5 => s.matrixRec prev r
    | 6 =>
      let mixedPg := fun g => (goodRecs b 4).any (fun x => decide (bindW x ≠ 0) && (bindPg x).getLsbD g)
      tsetRec mixedPg prev r
    | 7 => s.levelRec prev r
    | 8 => planRec r
    | 9 => segRec r
    | 10 => jumpRec r
    | 11 => none  -- R92 states no rule of content: reserved bits are taken, and read as zero (DEDUCED, log 21)
    | 12 => need (decide (wordAt r 0 &&& ~~~1#32 = 0) && (r.drop 1).all (fun x => decide (x = 0)))
    | _ => none

/-- The first failing record of a section. -/
def checkRecs (f : List (List Word) → List Word → Option Nat) : List (List Word) → List (Option (List Word)) → Option Nat
  | _, [] => none
  | _, none :: _ => some cContent
  | prev, some r :: rest =>
    match f prev r with
    | some c => some c
    | none => checkRecs f (r :: prev) rest

/-- Rows of the matrix in force that an overlay leaves, as numbers (R291). -/
def State.keptRows (s : State) (named : List Nat) : List (Nat × Nat) :=
  ((List.range 208).filter (fun c => !named.contains c)).map
    (fun c => (c, joinWords ((List.range 8).map (fun i => s.effW (brgA (32 * c + 4 * i))))))

/-- The loop check of R291 on the matrix that an image gives. -/
def State.loopCheck (s : State) (b : List Byte) (recs : List (List Word)) : Option Nat :=
  let rows := recs.map (fun r => (matrixCons r, matrixBits r))
  let all := (if hdrOverlay b then s.keptRows (rows.map Prod.fst) else []) ++ rows
  need (!hasCycle (s.givenBind b) all)

/-- The content rules of one section. -/
def State.sectCheck (s : State) (b : List Byte) (e : ImgSect) : Option Nat :=
  let recs := recordsOf b e
  match checkRecs (s.recCheck b e.typ) [] recs with
  | some c => some c
  | none => if e.typ = 5 then s.loopCheck b (recs.filterMap id) else none

/-! ### Signatures (R36 to R39) -/

/-- The SIGNATURE payload; empty where there is none. -/
def sigBytes (b : List Byte) : List Byte := match sectOf b 0xF0 with | some e => payload b e | none => []

/-- The format check of R38. -/
def sigFormatOk (b : List Byte) : Bool :=
  let p := sigBytes b
  decide (leAt p 0 1 = 4) && ((p.drop 97).take 31).all (fun x => decide (x = 0)) && decide (beAt p 1 48 < p384P) &&
    decide (beAt p 49 48 < p384P) && decide (1 ≤ beAt p 128 48 ∧ beAt p 128 48 < p384N) &&
    decide (1 ≤ beAt p 176 48 ∧ beAt p 176 48 < p384N)

/-- Bytes with `n` of them from an offset taken as zero. -/
def zeroed (l : List Byte) (off n : Nat) : List Byte := l.take off ++ List.replicate n 0 ++ l.drop (off + n)

/-- The bytes that the signature covers (R36). -/
def signedBytes (b : List Byte) : List Byte :=
  match sectOf b 0xF0 with
  | some e => (zeroed (zeroed (zeroed b 0x20 4) 0x3C 4) (0x40 + 16 * e.idx + 12) 4).take e.off
  | none => []

/-- The key's digest equals KEY_HASH and the signature verifies (R36, R38). -/
def State.sigVerifies (s : State) (b : List Byte) : Bool :=
  let p := sigBytes b
  decide (sha384 (p.take 97) = s.part.keyHash) &&
    ecdsaVerifies (beAt p 1 48, beAt p 49 48) (sha384 (signedBytes b)) (beAt p 128 48) (beAt p 176 48)

/-- An accepted image is verified (R38). -/
def State.isVerified (s : State) (b : List Byte) : Bool := s.part.keySet && hdrSigned b

/-- The rules of R38 and R39: SIG_REQUIRED is 10, SIG_BAD is 11. -/
def State.sigCheck (s : State) (b : List Byte) : Option Nat :=
  if !s.part.keySet && s.part.signedOnly then some 10
  else if hdrSigned b && !sigFormatOk b then some 11
  else if s.part.keySet && s.part.signedOnly && !hdrSigned b then some 10
  else if s.isVerified b && !s.sigVerifies b then some 11
  else if hdrOverlay b && s.img.verified && !s.isVerified b then some 10
  else none

/-! ### The checks in order (R496) -/

/-- A check that reports no section. -/
def whole (ok : Bool) (code : Nat) : Option (Nat × Nat) := if ok then none else some (code, 255)

/-- The first entry that fails a check. -/
def firstBad (code : Nat) (ok : ImgSect → Bool) : List ImgSect → Option (Nat × Nat)
  | [] => none
  | e :: r => if ok e then firstBad code ok r else some (code, e.idx)

/-- The first section whose content breaks a rule; step 18 reports no section (R496, which names the steps that do; DEDUCED, log 21). -/
def State.contentCheck (s : State) (b : List Byte) : List ImgSect → Option (Nat × Nat)
  | [] => none
  | e :: r =>
    match s.sectCheck b e with
    | some c => some (c, 255)
    | none => s.contentCheck b r

/-- Steps 1 to 8: the header. `limit` is IMG_HOST_LEN of a host load (R45). -/
def State.headerCheck (s : State) (b : List Byte) (overlay : Bool) (limit : Option Nat) : Option (Nat × Nat) :=
  let n := hdrCount b
  let total := hdrTotal b
  whole (decide (b.take 4 = [0x4C#8, 0x51#8, 0x46#8, 0x49#8])) 1 <|>
  whole (decide ((crc32 (b.take 60)).toNat = leAt b 0x3C 4)) 2 <|>
  whole (decide (leAt b 4 2 = 64)) 5 <|>
  whole (decide (leAt b 6 2 = 1) && decide (hdrFlags b / 4 = 0) && decide (hdrOverlay b = overlay) &&
    (if overlay then decide (hdrMask b < 256) else decide (hdrMask b = 0) && decide (leAt b 0x24 4 = 0)) &&
    decide (leAt b 0x28 20 = 0)) 0x0D <|>
  whole (decide (leAt b 8 4 = 0x6416)) 3 <|>
  whole (if overlay then decide (hdrCompat b = s.img.compat.toNat) else decide (hdrCompat b ≤ s.part.compat.toNat)) 4 <|>
  whole (!overlay || decide (leAt b 0x24 4 = s.img.baseId.toNat)) 0x12 <|>
  whole (decide (1 ≤ n ∧ n ≤ 64) && decide (0x40 + 16 * n ≤ total) &&
    decide (total ≤ if overlay then 65536 else 8388608) && limit.all (fun l => decide (total ≤ l))) 5

/-- The layout of one entry (step 11). -/
def layoutOk (b : List Byte) (t : List ImgSect) (e : ImgSect) : Bool :=
  let total := hdrTotal b
  decide (e.off % 64 = 0) && decide (0x40 + 16 * hdrCount b ≤ e.off) && decide (e.len % 4 = 0) &&
    decide (e.off + e.len ≤ total) && t.all (fun x => decide (x.idx = e.idx) || !meets x.off x.len e.off e.len) &&
    (fixedLen e.typ).all (fun n => decide (e.len = n)) && (decide (e.typ ≠ 0xF0) || decide (e.off + e.len = total))

/-- Steps 10 to 12 on one entry: the code of the first that fails. -/
def entryCheck (b : List Byte) (t : List ImgSect) (overlay : Bool) (e : ImgSect) : Option Nat :=
  if !sectTypes.contains e.typ || t.any (fun x => decide (x.idx < e.idx ∧ x.typ = e.typ)) ||
    (overlay && !overlayTypes.contains e.typ) then some 8
  else if !layoutOk b t e then some 5
  else if e.zero ≠ 0 then some 0x0D
  else none

/-- The first entry that fails one of its checks: all of one entry's come before the next entry's (R496). -/
def firstEntry (f : ImgSect → Option Nat) : List ImgSect → Option (Nat × Nat)
  | [] => none
  | e :: r =>
    match f e with
    | some c => some (c, e.idx)
    | none => firstEntry f r

/-- Steps 9 to 16: the section table and the payloads' CRCs. -/
def tableCheck (b : List Byte) (overlay : Bool) : Option (Nat × Nat) :=
  let t := sectTable b
  let has := fun k => t.any (fun e => decide (e.typ = k))
  whole (decide ((crc32 ((b.drop 0x40).take (16 * hdrCount b))).toNat = hdrTableCrc b)) 6 <|>
  firstEntry (entryCheck b t overlay) t <|>
  whole ((overlay || (has 1 && has 2 && has 3)) && (!hdrSigned b || has 0xF0)) 9 <|>
  firstBad 8 (fun e => overlay || decide (3 ≤ e.idx) || decide (e.typ = e.idx + 1)) t <|>
  firstBad 8 (fun e => decide (e.typ ≠ 0xF0) || decide (e.idx + 1 = hdrCount b)) t <|>
  whole (hdrSigned b || !has 0xF0) 0x0D <|>
  firstBad 7 (fun e => decide ((crc32 (payload b e)).toNat = e.crc)) t

/-- Step 19 (R55): CLU_MASK names every cluster that a BINDING record names or takes from, and every cluster bound to a
group whose timing sets change. -/
def State.maskCheck (s : State) (b : List Byte) : Option (Nat × Nat) :=
  let m := BitVec.ofNat 8 (hdrMask b)
  let owners := (goodRecs b 4).flatMap (fun r =>
    bindClu r :: ((setBits 16 (bindW r).toNat).filterMap (fun w => (s.laneOwner (Fin.ofNat 16 w)).map Fin.val) ++
      (setBits 4 (bindPg r).toNat).filterMap (fun g => (s.pgOwner (Fin.ofNat 4 g)).map Fin.val)))
  let timed := (goodRecs b 6).flatMap (fun r =>
    (List.range (winCount r)).filterMap (fun i => (s.pgOwner (Fin.ofNat 4 ((winFirst r + i) / 32))).map Fin.val))
  whole ((owners ++ timed).all (fun n => m.getLsbD n)) 0x13

/-- CHECK of a base, or VALIDATE of an overlay: the first failing check (R496). -/
def State.imageCheck (s : State) (b : List Byte) (overlay : Bool) (limit : Option Nat) : Option (Nat × Nat) :=
  s.headerCheck b overlay limit <|> tableCheck b overlay <|> (s.sigCheck b).map (fun c => (c, 255)) <|>
    s.contentCheck b (sectTable b) <|> (if overlay then s.maskCheck b else none)

end Sys2Proof.Machine
end

