-- ==== Sys2Proof/Machine/Resets.lean ====
section
/-! DEFINITION. The shared parts of resets (R41, R46, R47, R444 to R449): the unconfigured state, the state that a
power-on, RESET_N or PERST_N leaves, and the end of a reset. -/
namespace Sys2Proof.Machine

/-! ### Shared parts -/

def State.modPwr (s : State) (f : Power → Power) : State := { s with pwr := f s.pwr }
def State.modImg (s : State) (f : Image → Image) : State := { s with img := f s.img }
def State.modClk (s : State) (f : Clock → Clock) : State := { s with clk := f s.clk }

/-- Return RW words to their reset values, in both values. -/
def State.resetWords (s : State) (p : Nat → Bool) : State :=
  { s with cfg := s.cfg.filter (fun x => !p x.1), eff := s.eff.filter (fun x => !p x.1) }

/-- Return the fields of a mask of one RW word to their reset values. -/
def State.resetField (s : State) (a : Nat) (m : Word) : State :=
  { s with cfg := smPut resetWord s.cfg a (merge (s.cfgW a) (resetWord a) m)
           eff := smPut resetWord s.eff a (merge (s.effW a) (resetWord a) m) }

/-- A level channel in its state at power-on: OPEN at U2.5 with both codes 0 (R269); one that leaves CONNECTED so shows RESET (R276). -/
def State.lvlPowerOn (s : State) (c : Lvl) : State :=
  ((s.resetField (lvlA c 0) 0x1F).resetField (lvlA c 4) (~~~0)).modLvl c (fun l => {
    reason := if l.on then 5 else l.reason })

/-- Every level channel opens and every strobe is dropped. -/
def State.lvlsPowerOn (s : State) : State :=
  let s := (allFin 48).foldl State.lvlPowerOn s
  { s with lg := Vector.replicate 6 {}, mon := { s.mon with chan := none } }

/-- Pin groups drop what they were playing and every pin parks (R47). -/
def State.pinsOff (s : State) : State :=
  let s := (allFin 4).foldl (fun s g =>
    (if s.pg[g].tcalUntil.isSome then s.cmdTake (tsgA g 0) 1 else s).modPg g (fun p => { p with
      strobes := [], vecs := [], flQueue := [], tcalUntil := none, vecNext := 0, vecIdx := 0, vecPeriod := 512, unlanded := []
      setsWas := [] })) s
  (allFin 64).foldl (fun s p => s.modPin p (fun q => { chNow := q.chNow, clNow := q.clNow })) s

/-- Every context closes and its units return to the pool (R396). -/
def State.ctxsClose (s : State) : State :=
  { s with host := { s.host with ctxs := Vector.replicate 64 {}, poolFree := List.range (s.dramPart 14 15 0) } }

/-- Bridge and trigger lines fall silent (R47). -/
def State.linesOff (s : State) : State :=
  { s with trg := {}, brg := { s.brg with
      inFlight := [], window := [], storms := [], resting := [], timers := Vector.replicate 8 {}, evo := 0, evoFall := Vector.replicate 16 none } }

/-- The clocks that APPLY starts stop, and their crossings lose alignment (R41, R423). -/
def State.clocksOff (s : State) : State :=
  s.modClk (fun c => { c with
    patRun := 0, convRun := 0, dramRun := false, aligned := 0, aligning := none, pll := c.pll &&& 0x81 })

/-! ### The unconfigured state (R41, R46, R47) -/

/-- The result of a command on a slot (R70): bit 12 DONE, bit 13 REFUSED. -/
def State.ovlResult (s : State) (k : Fin 16) (code sect bit : Nat) : State :=
  (s.modOvl (fun o => { o with resSlot := BitVec.ofNat 4 k.val, resCode := BitVec.ofNat 8 code, resSection := BitVec.ofNat 8 sect })).setBit
    0x138 bit

/-- A command is dropped with SLOT_STATE (R54). -/
def State.ovlDrop (s : State) (k : Fin 16) : State := s.ovlResult k 0x15 255 13

/-- A VALIDATE that runs while the device loses its base is dropped as every overlay command is there (R70). -/
def State.validateDrop (s : State) : State :=
  match s.ovl.validating with
  | some k => ((s.modOvl (fun o => { o with validating := none })).ovlDrop k).cmdTake 0x130 (bit32 8)
  | none => s

/-- Nothing of a base stays in force: the device returns to the state of R47, with table memories, overlay slots,
bindings, the matrix and the partitions gone. Registers that no image section sets keep their values (DEDUCED, log 21). -/
def State.unconfigure (s : State) : State :=
  let s := s.validateDrop.lanesReset.pinsOff.lvlsPowerOn.linesOff.clocksOff
  let s := (allFin 8).foldl (fun s n => s.modClu n (fun k => { k with
    state := .idle, wBound := 0, pgBound := 0, stack := [], outStack := [], arriving := [], pend := [], sched := none, latePend := none
    lateRecs := [], hosted := none, abortAt := none, resetPark := none, lead := none })) s
  let s := s.resetWords inMatrix
  let ovl : Overlay := { resSlot := s.ovl.resSlot, resCode := s.ovl.resCode, resSection := s.ovl.resSection, applies := s.ovl.applies }
  let s := { s with tabs := {}, was := {}, ovl := ovl, plc := {}, mem := { s.mem with slots := [] } }
  let s := (allFin 4).foldl (fun s g => s.modPg g (fun p => { p with ring := [], flSize := 0 })) s
  let s := (s.modClk (fun c => { c with plan := 0 })).modPwr (fun p => { p with quietSr := false })
  let s := s.modImg (fun i => { i with
    state := .unconfigured, loadedSrc := 0, fallbackUsed := false, verified := false, version := 0, secCount := 0
    compat := 0, baseId := 0, buf := [], flash := none })
  let s := { s with dram := { s.dram with configured := false, part := 0, training := .none, ready := false
                                          selfRefresh := false, retrainWait := false, inFlight := [], waiting := []
                                          chans := Vector.ofFn (fun g : Chan => { draws := s.dram.chans[g].draws }) } }
  s.ctxsClose.linkReset

/-! ### Base loads (R40, R43, R46, R64) -/

/-- IMG_ERR takes a new code (R64, R68). -/
def State.imgErr (s : State) (code sect : Nat) : State :=
  (s.modImg (fun i => { i with errCode := BitVec.ofNat 8 code, errSection := BitVec.ofNat 8 sect })).setBit 0x108 16

/-- How a copy in flash is read (R43, R44): Fast Read Quad I/O 0xEB, mode byte 0x00, 4 dummy clocks, from 0x00_0000 for the primary
copy and from 0x80_0000 for the fallback; a host load reads none. -/
def flashRead (src : BitVec 2) : Option FlashRead :=
  if src = 0 then none
  else some { command := 0xEB, addr := if src = 2 then 0x800000 else 0, mode := 0, dummy := 4, headerMHz := 25, restMHz := 100 }

/-- A load begins FETCH from a source: the table memories are cleared (R366). -/
def State.fetchFrom (s : State) (src : BitVec 2) (next : Bool) : State :=
  (s.clearMem .tables).modImg (fun i => { i with
    state := .fetch, src := src, fallbackNext := next, buf := [], flash := flashRead src })

/-- BOOT_SEL at a reset release (R43). -/
def State.boot (s : State) (bootSel : Bool) : State := if bootSel then s.fetchFrom 1 true else s

/-- A load in progress (R67). -/
def State.loading (s : State) : Bool := decide (s.img.state = .fetch ∨ s.img.state = .check ∨ s.img.state = .apply)

/-! ### Power-on, RESET_N and PERST_N (R444, R448) -/

/-- What a power-on, RESET_N or PERST_N leaves, while it still holds the device: everything at its reset value but the
part, what the always-on domain keeps, the exchange RAM at PERST_N, and the pins that hold the device. -/
def State.coldState (s : State) (xram : Bool) : State :=
  { part := s.part
    clk := { now := s.clk.now, ofs := s.clk.ofs, mgmtFrom := s.clk.now, mgmtCount := s.clk.mgmtCount }
    pwr := { rstCause := s.pwr.rstCause, winterAon := s.pwr.winterAon, porHold := s.pwr.porHold, resetLow := s.pwr.resetLow
             perstLow := s.pwr.perstLow, jtagHold := s.pwr.jtagHold, aonDown := s.pwr.aonDown }
    img := { aborted := s.img.aborted || s.loading }
    flg := smPut (fun _ => {}) [] (fltA 0x14) (smGet (fun _ => {}) s.flg (fltA 0x14))
    brg := { evi := s.brg.evi, loadNRise := s.brg.loadNRise }
    dram := { gen := s.dram.gen + 1 }
    mem := { xram := if xram then s.mem.xram else [], clearing := if xram then clearBit .tables else clearBit .tables ||| clearBit .xram }
    flt := { watching := s.flt.watching, lastBeat := s.flt.lastBeat, beatAt := s.flt.beatAt, beatTime := s.flt.beatTime
             pausedAt := some (s.flt.pausedAt.getD s.clk.now) }
    jtag := s.jtag
    smb := s.smb
    freeN := s.freeN
    pending := s.pending }

/-- RST_CAUSE (R451): 0 power-on, 1 RESET_N, 2 PERST_N, 3 warm, 4 thaw, 5 a thaw that failed. -/
def State.cause (s : State) (c : BitVec 3) : State := s.modPwr (fun p => { p with rstCause := c })

/-- A load that a reset interrupted is reported, and its record is spent (R52). -/
def State.abortReport (s : State) : State :=
  if s.img.aborted then (s.imgErr 0x10 255).modImg (fun i => { i with aborted := false }) else s

/-- The time base starts at 0 in the present tick (R310); what the link holds by the old time base is gone. -/
def State.timeZero (s : State) : State :=
  let s := s.modLink (fun k => { k with sent := [], changedAt := none, memberSpans := [], viewLog := [] })
  s.modClk (fun c => { c with ofs := -(c.now : Int), timeRuns := true, timeValid := false, timeCoarse := false, firstEpoch := true
                              epochCount := 0, epochDue := none, checkAt := none, mgmtFrom := c.now, timeSnap := 0 })

/-- CK_PAT and CK_CONV start as CLOCK_PLAN has them (R417, R429). -/
def State.playClocksStart (s : State) : State :=
  s.modClk (fun c => { c with patRun := c.plan.extractLsb' 8 4, convRun := c.plan.extractLsb' 0 4 })

/-- The watchdog pauses: its count stands from now on (R460). -/
def State.watchPause (s : State) : State :=
  { s with flt := { s.flt with pausedAt := some (s.flt.pausedAt.getD s.clk.now) } }

/-- The watchdog's pause ends: its count goes on from where it stood (R460). -/
def State.watchResume (s : State) : State :=
  match s.flt.pausedAt with
  | none => s
  | some t => { s with flt := { s.flt with pausedAt := none, beatAt := s.flt.beatAt + (s.clk.now - t) } }

/-- The watchdog at a release: it begins to watch at that of a power-on, and goes on at any other (R460). -/
def State.watchRelease (s : State) : State :=
  if s.flt.watching then s.watchResume
  else { s with flt := { s.flt with watching := true, beatAt := s.clk.now, pausedAt := none } }

/-- The release of a warm reset ends: the time base restarts at 0, and WARM_DONE is set (R446). -/
def State.warmEnd (s : State) : State :=
  let s := (s.timeZero.abortReport.modPwr (fun p => { p with phase := .none, releasing := false })).cmdTake (clkA 0x10) (bit32 8)
  s.playClocksStart.watchResume.setBit (clkA 0xC) 5

/-- The clears of a reset complete before it is released (R366). -/
def State.clearsEnd (s : State) : State := s.modMem (fun m => { m with clearing := 0 })

/-- The last hold is gone and the internal reset is released (R43, R52, R366, R450, R460). -/
def State.coldRelease (s : State) (bootSel : Bool) : State :=
  if s.heldInReset then s
  else
    s.clearsEnd.timeZero.abortReport.watchRelease.boot bootSel

end Sys2Proof.Machine
end

