-- ==== Sys2Proof/Machine/Image.lean ====
section
/-! DEFINITION. Taking in a base image and applying overlays (R40 to R46, R53 to R70). -/
namespace Sys2Proof.Machine

/-! ### Writing sections (R35, R40, R58, R60) -/

/-- BINDING (R103): what the record names leaves the cluster that owned it, so that no two clusters share a lane or group (R6, R55);
a LOAD that waits on a lane that it unbinds acts at the next management tick (R181), and the shadow of a pin group that it takes off a HELD
cluster, to none or to one that is IDLE, copies at once (R253). -/
def State.applyBind (s : State) (r : List Word) : State :=
  let n : Clu := Fin.ofNat 8 (bindClu r)
  let t := (allFin 8).foldl (fun s k =>
    if k = n then s.modClu k (fun c => { c with wBound := bindW r, pgBound := bindPg r })
    else s.modClu k (fun c => { c with wBound := c.wBound &&& ~~~(bindW r), pgBound := c.pgBound &&& ~~~(bindPg r) })) s
  let t := (allFin 16).foldl (fun t w =>
    if t.laneOwner w = s.laneOwner w then t
    else t.modWl w (fun l => if l.load = .segmentStart then { l with load := .managementTick, loadAt := t.clk.now } else l)) t
  ((allFin 4).filter (fun g => !s.pgIdle g && t.pgIdle g)).foldl State.copyTset t

/-- EVENT_MATRIX: shadow and matrix in force together (R287). -/
def State.applyRow (s : State) (r : List Word) : State :=
  (List.range 8).foldl (fun s i =>
    let a := brgA (32 * matrixCons r + 4 * i)
    s.loadWord a (wordAt r (1 + i)) (s.rowMask a)) s

/-- The words of a windowed record, at their word indices in the table. -/
def winCells (typ : Nat) (r : List Word) : List (Nat × Word) :=
  let w := entryWordsOf typ
  (List.range (winCount r * w)).map (fun i => (winFirst r * w + i, wordAt r (2 + i)))

/-- Put words into a table. -/
def putWords (m : SMap Word) (l : List (Nat × Word)) : SMap Word := l.foldl (fun m x => smPut (fun _ => 0) m x.1 x.2) m

/-- LEVEL_SPANS (R60): span and pending code; a span that changes makes a span change. -/
def State.applyLevel (s : State) (r : List Word) : State :=
  let c : Lvl := Fin.ofNat 48 (fld (wordAt r 0) 7 0)
  let s := (s.codeNote c).loadWord (lvlA c 4) (wordAt r 1) (fmask 19 0)
  (s.loadWord (lvlA c 0) (BitVec.ofNat 32 (fld (wordAt r 0) 15 8)) (fmask 3 0)).lvlSpanTake c

/-- SEGMENT_TABLE: entries arrive unpublished (R49); what they replace is given up first (R145). -/
def State.applySegs (s : State) (r : List Word) : State :=
  let s := (List.range (winCount r)).foldl (fun s i => s.unpublish (winFirst r + i)) s
  { s with tabs := { s.tabs with seg := putWords s.tabs.seg (winCells 9 r) } }

/-- TIMING_SETS: both copies (R253). -/
def State.applyTsets (s : State) (r : List Word) : State :=
  let s := (allFin 4).foldl State.noteSets s
  { s with tabs := { s.tabs with tsetShadow := putWords s.tabs.tsetShadow (winCells 6 r), tset := putWords s.tabs.tset (winCells 6 r) } }

/-- CLOCK_PLAN: the planned clocks start (R416, R417). -/
def State.applyClocks (s : State) (w : Word) : State :=
  let pg := BitVec.ofNat 4 (fld w 11 8)
  let die := BitVec.ofNat 4 (fld w 3 0)
  s.modClk (fun c => { c with
    plan := w, patRun := pg, convRun := die
    pll := c.pll ||| (if pg = 0 then 0 else 2) ||| (die.setWidth 8 <<< 2) })

/-- DRAM_PART: the controller and the pool are laid out and CK_DRAM starts (R332, R382, R416). -/
def State.applyDram (s : State) (r : List Word) : State :=
  let s := { s with dram := { s.dram with part := BitVec.ofNat 512 (joinWords r), configured := true } }
  (s.ctxsClose).modClk (fun c => { c with dramRun := true, pll := c.pll ||| 0x40 })

/-- STAGING_PART: the partition, the fail-log rings and every region word (R141, R361). -/
def State.applyStaging (s : State) (r : List Word) : State :=
  let w := wordAt r
  let s := s.modPlc (fun p => { p with
    headUnits := fld (w 0) 14 0, resUnits := fld (w 0) 30 16, capoRate := fld (w 1) 8 0
    shares := BitVec.ofNat 64 ((w 2).toNat + 2 ^ 32 * (w 3).toNat), rollMin := w 4, flLog2 := w 5 })
  let s := (s.loadWord (plcA 0x20) (BitVec.ofNat 32 (fld (w 0) 31 31)) 1).modPlc (fun p => { p with rollInit := (w 0).getLsbD 31 })
  let s := (allFin 4).foldl (fun s g => s.modPg g (fun p => { p with flSize := flRing (w 5) g.val })) s
  ((List.range 352).filter (fun k => decide (k < 8 * 41 ∨ 8 * 43 ≤ k))).foldl
    (fun s k => s.loadWord (memA (0x1000 + 4 * k)) (w (16 + k)) (~~~0)) s

/-- Write one record of a section to its destination. -/
def State.applyRec (s : State) (typ : Nat) (r : List Word) : State :=
  match typ with
  | 1 => s.applyClocks (wordAt r 0)
  | 2 => s.applyDram r
  | 3 => s.applyStaging r
  | 4 => s.applyBind r
  | 5 => s.applyRow r
  | 6 => s.applyTsets r
  | 7 => s.applyLevel r
  | 8 => { s with tabs := { s.tabs with nco := putWords s.tabs.nco (winCells 8 r) } }
  | 9 => s.applySegs r
  | 10 => { s with tabs := { s.tabs with jump := putWords s.tabs.jump (winCells 10 r) } }
  | 11 => { s with tabs := { s.tabs with mkp := putWords s.tabs.mkp (winCells 11 r) } }
  | 12 => s.modPwr (fun p => { p with quietSr := (wordAt r 0).getLsbD 0 })
  | _ => s

/-- Write sections in table order. -/
def State.applySects (s : State) (b : List Byte) (l : List ImgSect) : State :=
  l.foldl (fun s e => ((recordsOf b e).filterMap id).foldl (fun s r => s.applyRec e.typ r) s) s

/-! ### Base loads (R40 to R46) -/

/-- The LOAD command ends: its CMD bit clears (R408). -/
def State.loadEnd (s : State) : State := s.cmdTake 0x100 1

/-- A copy is refused: the flash primary gives way to the fallback, else the device stays unconfigured (R40, R43). FALLBACK_USED sets only
where the load goes on to the fallback: R67 calls it so and gives "The primary flash copy was refused" as its meaning, and leaves open
whether the refusal of a load from the primary alone (SRC = 1) sets it (DESIGN CHOICE, log 21). -/
def State.loadRefuse (s : State) (code sect : Nat) : State :=
  let next := decide (s.img.src = 1) && s.img.fallbackNext
  let s := s.imgErr code sect
  if next then (s.fetchFrom 2 false).modImg (fun i => { i with fallbackUsed := true })
  else (s.modImg (fun i => { i with state := .unconfigured, buf := [], flash := none })).loadEnd

/-- IMG_LOAD (R45, R46, R66): LOAD is taken at a management tick. -/
def execImgLoad (s : State) : Host.Outcome State Fault Refusal :=
  s.guarded fun s =>
    if s.loading then s
    else if s.prepared 5 then s.hold .imgLoad
    else
      let src := BitVec.ofNat 2 (s.effF 0x100 2 1)
      let word := s.effW 0x118
      let len := word.toNat
      let bad := decide (src = 0) && (decide (fld (s.effW 0x110) 5 0 ≠ 0) || decide (len < 64) || decide (8388608 < len) || !s.host.bme)
      if bad then (s.imgErr 0x0F 255).loadEnd
      else if s.configured && !s.allIdle then (s.imgErr 0x11 255).loadEnd
      else (s.unconfigure.fetchFrom (if src = 3 then 1 else src) (decide (src = 3))).modImg (fun i => { i with hostLen := word })

/-- IMG_FETCH_DONE (R40, R44, R45): the image stands in the staging store, or its source failed. -/
def execImgFetchDone (ok : Bool) (bytes : List Byte) (s : State) : Host.Outcome State Fault Refusal :=
  s.guarded fun s =>
    if s.img.state ≠ .fetch then s
    else if ok then s.modImg (fun i => { i with state := .check, buf := bytes, flash := none }) else s.loadRefuse 0x0F 255

/-- The identity of the image being loaded (R67, R69). -/
def State.imgIdentity (s : State) (b : List Byte) : State :=
  s.modImg (fun i => { i with
    loadedSrc := i.src, verified := i.bufVerified
    version := BitVec.ofNat 32 (hdrVersion b), secCount := BitVec.ofNat 16 (hdrCount b)
    compat := BitVec.ofNat 16 (hdrCompat b), baseId := BitVec.ofNat 32 (hdrTableCrc b) })

/-- IMG_CHECK_DONE (R40, R496): the image is refused, or APPLY begins: CLOCK_PLAN and DRAM_PART are written, and DRAM
trains. -/
def execImgCheckDone (s : State) : Host.Outcome State Fault Refusal :=
  s.guarded fun s =>
    if s.img.state ≠ .check then s
    else
      let b := s.img.buf
      let limit := if s.img.src = 0 then some s.img.hostLen.toNat else none
      match s.imageCheck b false limit with
      | some (code, sect) => s.loadRefuse code sect
      | none =>
        let s := s.modImg (fun i => { i with state := .apply, bufVerified := s.isVerified b })
        (s.applySects b ((sectTable b).take 2)).train .full

/-- A training of a load fails (R41): the load is undone and refused with DRAM_TRAIN at DRAM_PART's index. -/
def State.trainUndo (s : State) : State :=
  let src := s.img.src
  let next := s.img.fallbackNext
  let used := s.img.fallbackUsed
  let s := s.unconfigure.modImg (fun i => { i with src := src, fallbackNext := next, fallbackUsed := used })
  s.loadRefuse 0x0E 1

/-- The training of a load has passed: the other sections are written, and the staging store is cleared (R40, R366). -/
def State.applyRest (s : State) : State :=
  (s.trainPass.applySects s.img.buf ((sectTable s.img.buf).drop 2)).clearMem .staging

/-- A RETRAIN, or a full training that a warm reset made start again, ends (R336, R337). -/
def State.retrainEnd (s : State) (failed : Option (Chan × Fin 8)) : State :=
  let s := match failed with
    | some x => s.trainFail x.1 x.2
    | none => s.trainPass
  s.setBit (drmA 0x24) 5

/-- IMG_APPLY_DONE (R40, R43, R49): the staging store is cleared and partitioned, and the base is configured. -/
def execImgApplyDone (s : State) : Host.Outcome State Fault Refusal :=
  s.guarded fun s =>
    if s.img.state ≠ .apply || decide (s.dram.training ≠ .none) || !s.dram.ready then s
    else
      let s := (s.imgIdentity s.img.buf).modMem (fun m => { m with clearing := m.clearing &&& ~~~1 })
      (s.modImg (fun i => { i with state := .configured, buf := [] })).loadEnd

/-! ### Overlays (R53 to R63) -/

/-- OVL_CTRL.SLOT in force (R70). -/
def State.ovlSlot (s : State) : Fin 16 := Fin.ofNat 16 (s.effF 0x130 3 0)

/-- The bytes of a slot as the loader reads them (R53): of a unit whose read has escaped it gets no data, and finds a free value (R349;
log 21). -/
def State.slotBytes (s : State) (k : Fin 16) : List Byte :=
  let a := s.slotBase k
  if s.ovl.unread = [] then s.dramBytes a 65536
  else (List.range 65536).map (fun i =>
    if s.ovl.unread.contains ((a + i) / 64) then Config.escapedByte s.freeN (a + i) else s.dramByte (a + i))

/-- The units of a slot. -/
def State.slotUnits (s : State) (k : Fin 16) : List Nat := (List.range 1024).map (fun i => s.slotBase k / 64 + i)

/-- A read of the loader is under way. -/
def State.loaderReads (s : State) : Bool :=
  s.dram.inFlight.any (fun x => decide (x.tag.src = 42)) || s.dram.waiting.any (fun x => decide (x.tag.src = 42))

/-- The loader has read a slot: the reads that no ACCESS_LAND has told of were made too, and ended clean (R345, R348, R349; DESIGN CHOICE,
log 21). -/
def State.loaderDone (s : State) (k : Fin 16) : State :=
  let free := s.ovl.unread ≠ []
  let s := ((s.slotUnits k).filter (fun u => !s.ovl.loaded.contains u)).foldl (fun s u => s.bankAccess (u * 64)) s
  { s.modOvl (fun o => { o with loaded := [], unread := [] }) with freeN := if free then s.freeN + 1 else s.freeN }

/-- The slot's state. -/
def State.slotIs (s : State) (k : Fin 16) (x : SlotState) : Bool := decide (s.ovl.slots[k].state = x)

/-- OVL_VALIDATE (R54, R65). -/
def execOvlValidate (s : State) : Host.Outcome State Fault Refusal :=
  s.guarded fun s =>
    if s.ovl.validating.isSome then s
    else if s.prepared 5 then s.hold .ovlValidate
    else
      let k := s.ovlSlot
      if !s.configured || s.slotIs k .pending then (s.ovlDrop k).cmdTake 0x130 (bit32 8)
      else s.modOvl (fun o => { o with validating := some k })

/-- OVL_VALIDATE_DONE (R54, R336, R496): the slot's bytes have been read while DRAM is ready. -/
def execOvlValidateDone (s : State) : Host.Outcome State Fault Refusal :=
  s.guarded fun s =>
    match s.ovl.validating, s.dram.ready && !s.loaderReads with
    | none, _ | _, false => s
    | some k, true =>
      let b := s.slotBytes k
      let found := s.imageCheck b true none
      let s := ((s.loaderDone k).modOvl (fun o => { o with validating := none })).cmdTake 0x130 (bit32 8)
      match found with
      | some (code, sect) => (s.modSlot k (fun _ => {})).ovlResult k code sect 13
      | none =>
        (s.modSlot k (fun _ => { state := .valid, digest := some (sha384 b), mask := BitVec.ofNat 8 (hdrMask b) })).ovlResult k 0 255 12

/-- One APPLY write is taken (R65, R409). -/
def State.applyTaken (s : State) : State :=
  let n := s.ovl.applies - 1
  let s := s.modOvl (fun o => { o with applies := n })
  if n = 0 then s.cmdDrop 0x130 (bit32 9) else s

/-- A VALIDATE that waits for the tick in which APPLY is taken goes first, the bits of OVL_CTRL acting in ascending order (R409): where it is
accepted, it runs from then on. Of the two written apart before one tick too (DEDUCED, log 21). -/
def State.validateFirst (s : State) : State :=
  let k := s.ovlSlot
  if (s.cmdWord 0x130).getLsbD 8 && s.ovl.validating.isNone && s.configured && !s.slotIs k .pending then
    s.modOvl (fun o => { o with validating := some k })
  else s

/-- OVL_APPLY (R54, R56, R409): a slot under VALIDATE does not take it (DEDUCED, log 21). -/
def execOvlApply (s : State) : Host.Outcome State Fault Refusal :=
  s.guarded fun s =>
    if s.prepared 5 then s.hold .ovlApply
    else
      let k := s.ovlSlot
      let s := s.validateFirst.applyTaken
      if s.configured && (s.slotIs k .valid || s.slotIs k .applied) && decide (s.ovl.validating ≠ some k) then
        (s.modSlot k (fun o => { o with state := .pending })).modOvl (fun o => { o with queue := o.queue ++ [k] })
      else s.ovlDrop k

/-- OVL_CANCEL (R54, R61). -/
def execOvlCancel (s : State) : Host.Outcome State Fault Refusal :=
  s.guarded fun s =>
    let k := s.ovlSlot
    let s := s.cmdTake 0x130 (bit32 10)
    if s.ovl.applying = some k then s
    else if s.configured && s.slotIs k .pending then
      (s.modSlot k (fun o => { o with state := .valid })).modOvl (fun o => { o with queue := o.queue.filter (fun x => decide (x ≠ k)) })
    else s.ovlDrop k

/-- OVL_RELEASE (R54). -/
def execOvlRelease (s : State) : Host.Outcome State Fault Refusal :=
  s.guarded fun s =>
    let k := s.ovlSlot
    let s := s.cmdTake 0x130 (bit32 11)
    if s.configured && (s.slotIs k .valid || s.slotIs k .applied) then s.modSlot k (fun _ => {}) else s.ovlDrop k

/-- Every cluster of an affected set is idle; a start that is held counts as idle (R56, R57). -/
def State.quietFor (s : State) (m : BitVec 8) : Bool :=
  (allFin 8).all (fun n => !m.getLsbD n || decide (s.clu[n].state = .idle ∨ s.clu[n].state = .held))

/-- The digest of the slot still equals the recorded one (R58). -/
def State.digestSame (s : State) (k : Fin 16) : Bool := decide (s.ovl.slots[k].digest = some (sha384 (s.slotBytes k)))

/-- OVL_QUIET_POINT (R56, R58, R336): the head of the queue; a changed slot is refused with DIGEST. The slot's bytes are read while DRAM is
ready. -/
def execOvlQuietPoint (s : State) : Host.Outcome State Fault Refusal :=
  s.guarded fun s =>
    match s.ovl.queue with
    | [] => s
    | k :: rest =>
      if s.ovl.applying.isSome || !s.quietFor s.ovl.slots[k].mask || !s.dram.ready || s.loaderReads then s
      else if s.digestSame k then (s.loaderDone k).modOvl (fun o => { o with applying := some k, applyBytes := s.slotBytes k })
      else (((s.loaderDone k).modOvl (fun o => { o with queue := rest })).modSlot k (fun _ => {})).ovlResult k 0x14 255 13

/-- OVL_APPLY_DONE (R57 to R60, R63): every record is written, and the writes held meanwhile follow. -/
def execOvlApplyDone (s : State) : Host.Outcome State Fault Refusal :=
  s.guarded fun s =>
    match s.ovl.applying with
    | none => s
    | some k =>
      let b := s.ovl.applyBytes
      let s := s.freezeRows.applySects b (sectTable b)
      let s := (s.modSlot k (fun o => { o with state := .applied })).modOvl
        (fun o => { o with applying := none, applyBytes := [], queue := o.queue.filter (fun x => decide (x ≠ k)) })
      (s.ovlResult k 0 255 12).releaseWrites

end Sys2Proof.Machine
end

