-- ==== Sys2Proof/Machine/Held.lean ====
section
/-! DEFINITION. Commands that a prepared block, a training or an unlocked PLL has held act again in the order in which
they were taken (R336, R431, R432, R495); and the ends of DRAM trainings. -/
namespace Sys2Proof.Machine

/-- A held command runs again as the command it is; a command that nothing holds is not in the list. -/
def heldOutcome (i : Instr) (s : State) : Host.Outcome State Fault Refusal :=
  match i with
  | .bar4Read a l e => execBar4Read a l e s
  | .bar4Write a b => execBar4Write a b s
  | .cluStart n => execCluStart n s
  | .laneArm w => execLaneArm w s
  | .laneCal w => execLaneCal w s
  | .spanChangeStart w => execSpanChangeStart w s
  | .tcal g => execTcal g s
  | .lvlOeWrite c => execLvlOeWrite c s
  | .lvlReconnect c => execLvlReconnect c s
  | .imgLoad => execImgLoad s
  | .ovlValidate => execOvlValidate s
  | .ovlApply => execOvlApply s
  | .pubGo => execPubGo s
  | .dramRetrain => execDramRetrain s
  | .strmOpen c => execStrmOpen c s
  | _ => .next s

/-- The state that an outcome goes on with. -/
def onward (s : State) : Host.Outcome State Fault Refusal → State
  | .next t => t
  | _ => s

/-- Every held command acts again; what is still held is held anew. -/
def State.runHeld (s : State) : State :=
  s.pwr.held.foldl (fun s i => onward s (heldOutcome i s)) (s.modPwr (fun p => { p with held := [] }))

/-- DRAM_TRAIN_DONE (R41, R335, R336): a full training ends; one of a base load that fails undoes the load. -/
def execDramTrainDone (failed : Option (Chan × Fin 8)) (s : State) : Host.Outcome State Fault Refusal :=
  s.guarded fun s =>
    match s.dram.training with
    | .full =>
      if s.img.state ≠ .apply then s
      else match failed with
        | none => s.applyRest
        | some _ => s.trainUndo
    | .retrain => (s.retrainEnd failed).runHeld
    | _ => s

/-- A short training has ended: it ends the release of a warm reset that waits for it (R337, R446), and what it held acts. -/
def State.shortEnd (s : State) : State := (if s.pwr.releasing ∧ s.dram.training = .none then s.warmEnd else s).runHeld

/-- SHORT_TRAIN_DONE (R336, R337, R446). -/
def execShortTrainDone (failed : Option (Chan × Fin 8)) (s : State) : Host.Outcome State Fault Refusal :=
  s.guarded fun s =>
    if s.dram.training ≠ .short then s
    else match failed with
      | none => s.trainPass.shortEnd
      | some x => (s.trainFail x.1 x.2).shortEnd

end Sys2Proof.Machine
end

