-- ==== Sys2Proof/Machine/Faults.lean ====
section
/-! DEFINITION. The fault supervisor and the watchdog (R453 to R467). -/
namespace Sys2Proof.Machine

def State.modFlt (s : State) (f : Supervisor → Supervisor) : State := { s with flt := f s.flt }

/-- FLT_CTRL.WRAP in force (R456). -/
def State.fltWrap (s : State) : Bool := s.effB (fltA 0) 1

/-- FLT_RD_COUNT as a ring write of the present tick judges it (R463). -/
def State.fltRdFor (s : State) : Word :=
  match s.flt.rdOld with
  | some x => if x.1 = s.clk.now then x.2 else s.flt.rd
  | none => s.flt.rd

/-- The ring is full: FLT_WR_COUNT - FLT_RD_COUNT = 256, modulo 2^32 (R456). -/
def State.fltFull (s : State) : Bool := decide (s.flt.wr - s.fltRdFor = 256)

/-- The supervisor takes the record at the head of its queue: it writes it to the ring, or loses it to a full ring
(R455, R456, R457). -/
def State.writeRecord (s : State) : State :=
  match s.flt.queue with
  | [] => s
  | q :: r =>
    let s := s.modFlt (fun f => { f with queue := r, wroteAt := some s.clk.now })
    let full := s.fltFull
    if full && !s.fltWrap then s.loseRec q.body
    else
      let s := s.modFlt (fun f => { f with
        ring := smPut (fun _ => 0) f.ring (f.wr.toNat % 256) (q.body.encode q.seq), wr := f.wr + 1 })
      ((s.count (classCountA q.body) 1).setBitIf full (fltA 4) 2).setBit (fltA 4) 0

/-- FAULT_RECORD_WRITE (R455): at most one record per tick; CK_CORE has to run (R459). -/
def execFaultRecordWrite (s : State) : Host.Outcome State Fault Refusal :=
  s.guarded fun s =>
    if s.flt.queue = [] ∨ !s.clk.pll.getLsbD 0 then s
    else (s.upto (match s.flt.wroteAt with | some t => t + 1 | none => 0)).writeRecord

/-- A write of FLT_RD_COUNT (R463): from the present count up to FLT_WR_COUNT, else ignored with RD_BAD. -/
def State.fltRdWrite (s : State) (v : Word) : State :=
  if (s.flt.wr - s.flt.rd).toNat < (v - s.flt.rd).toNat then s.setBit (fltA 4) 3
  else
    let old := match s.flt.rdOld with
      | some x => if x.1 = s.clk.now then x else (s.clk.now, s.flt.rd)
      | none => (s.clk.now, s.flt.rd)
    s.modFlt (fun f => { f with rd := v, rdOld := some old })

/-- FLT_RD_COUNT_WRITE (R463). -/
def execFltRdCountWrite (v : Word) (s : State) : Host.Outcome State Fault Refusal := s.guarded fun s => s.fltRdWrite v

/-- FLT_LOST and the class counts (R465). -/
def fltCtrs : List Nat := fltA 0x10 :: (List.range 11).map (fun k => fltA (0x44 + 4 * k))

/-- FLT_CNT_CLR (R467). -/
def execFltCntClr (s : State) : Host.Outcome State Fault Refusal := s.guarded fun s => s.clearCtrs fltCtrs

/-! ### The watchdog (R460 to R462) -/

/-- The watchdog pauses (R460). -/
def State.watchPaused (s : State) : Bool :=
  s.heldInReset || match s.pwr.phase with
    | .saving | .commit | .winter | .thawing | .resetting => true
    | _ => false

/-- FLT_WDOG.WATCHING (R460, R465). -/
def State.watchingNow (s : State) : Bool := s.flt.watching && !s.watchPaused

/-- The supervisor withholds its heartbeat: a parity check of its own state fails, or its queue has held a record for 1,024 ticks without
writing one (R460). In a reset it has no management tick. -/
def State.beatWithheld (s : State) (parityOk : Bool) : Bool :=
  !parityOk || match s.flt.queue with
  | [] => false
  | q :: _ => decide (q.reported + 1024 ≤ s.clk.now) &&
      (match s.flt.wroteAt with | some t => decide (t + 1024 ≤ s.clk.now) | none => true)

/-- A heartbeat at a management tick (R460, R462). -/
def State.heartbeat (s : State) (parityOk : Bool) : State :=
  if s.beatWithheld parityOk then s
  else s.modFlt (fun f => { f with beatAt := s.clk.now, beatTime := BitVec.ofNat 64 s.tb })

/-- WATCHDOG_TIMEOUT (R460 to R462): 8 CK_AON cycles, at least 12,160 ticks, after the last heartbeat. -/
def execWatchdogTimeout (s : State) : Host.Outcome State Fault Refusal :=
  s.guarded fun s =>
    if !s.watchingNow || s.flt.safePark then s
    else
      let s := (s.upto (s.flt.beatAt + 12160)).setBit (fltA 0x14) 1
      let s := { s with smb := { s.smb with status := s.smb.status.set s.clk.now 2 } }
      s.modFlt (fun f => { f with safePark := true, lastBeat := f.beatTime })

/-- SAFE_PARK_CLEAR (R467): discarded while the device is in safe park. -/
def execSafeParkClear (s : State) : Host.Outcome State Fault Refusal :=
  s.guarded fun s => if s.flt.safePark then s else s.clearFlag (fltA 0x14) 2

/-- The level of FAULT_N: high outside safe park (R462); none without VDD_AON, when it is high-impedance (R472). -/
def State.faultN (s : State) : Option Bool := if s.pwr.aonDown then none else some (!s.flt.safePark)

/-- The currents of a lane's OUTP and OUTN balls, in units of 1 mA / 9,830,400: q of 15 cells of I_T = 1.25 × I_FS, trimmed by CAL_GAIN in
steps of 2% / 2,048; the other cells go to OUTN, or in UNIPOLAR to the dump; none while the lane is not connected or a clamp holds the
balls (R198, R201, R208, R211, R437, R461). -/
def State.wCurrents (s : State) (w : Lane) : Int × Int :=
  let l := s.wl[w]
  if l.state ≠ .armed ∨ s.clamped then (0, 0)
  else
    let i : Int := (fsActs l.fs.toNat : Int) * (102400 + l.gainUsed.toInt)
    (l.level.toNat * i, if l.unipolar then 0 else (15 - l.level.toNat : Nat) * i)

/-- The output of a level channel at its ball, in units of 1/2^21 V or mA by its span: the active code under the span in force;
none is high-impedance (R260, R268, R437, R461). -/
def State.lvlOut (s : State) (c : Lvl) : Option Int :=
  let l := s.lvl[c]
  if l.on && !s.clamped then some (codeValue l.span.toNat l.active * spanStep l.span.toNat) else none

/-- The levels of the TRG and EVO balls with the clamps (R97, R298, R437, R461). -/
def State.trgOut (s : State) : BitVec 8 := if s.clamped then 0 else s.trgBalls
def State.evoOut (s : State) : BitVec 16 := if s.clamped then 0 else s.evoBalls

/-- IRQ_N is asserted: a pending cause with IRQ_EN = 1 (R378), unless a clamp holds the ball (R461). -/
def State.irqAsserted (s : State) : Bool :=
  !s.clamped && (List.range 96).any (fun k => s.causePending k && (s.mapWord k).getLsbD 30)

/-- SMB_ALERT_N is asserted (R492). -/
def State.alerting (s : State) : Bool := decide (s.smb.status.bits &&& s.smb.mask.setWidth 32 ≠ 0)

end Sys2Proof.Machine
end

