-- ==== Sys2Proof/Machine/Clocks.lean ====
section
/-! DEFINITION. Management ticks, EPOCH, the clock crossings and the PLLs (R310, R412, R416 to R425, R459, R495). -/
namespace Sys2Proof.Machine

/-! ### Management ticks (R412) -/

/-- CH_NOW and CL_NOW follow the balls, as CH_INV and CL_INV take them (R218, R238). -/
def State.sampleBalls (s : State) (balls : CompareBalls) : State :=
  (allFin 64).foldl (fun s (p : PinIdx) =>
    let c := s.effW (pinA p 0)
    s.modPin p (fun q => { q with
      chNow := balls.pch.getLsbD p.val != c.getLsbD 2, clNow := balls.pcl.getLsbD p.val != c.getLsbD 3 })) s

/-- What a management tick does in the present tick: pending fields apply, and each block takes its part. -/
def State.mgmtWork (s : State) (balls : CompareBalls) (parityOk : Bool) : State :=
  let before := s.effW (drmA 0x10)
  let s := s.modClk (fun c => { c with mgmtFrom := c.now + 1, mgmtCount := c.mgmtCount + 1, timeSnap := BitVec.ofNat 64 s.tb })
  let s := s.modMem (fun m => { m with violSeen := [] })
  let s := (s.freezeRows.applyWhere (fun _ b => decide (b = .mgmt))).ncoTick
  let s := (((s.dramTick before).bridgeTick).linkFollow).capoTick.monTick
  let s := (allFin 16).foldl State.ncoSnap s
  ((s.sampleBalls balls).heartbeat parityOk).runHeld

/-- CK_CORE drives the device: nothing holds it in reset, the time base runs and the PLL is locked (R416, R423). -/
def State.coreRuns (s : State) : Bool := !s.heldInReset && s.clk.timeRuns && s.clk.pll.getLsbD 0

/-- MANAGEMENT_TICK (R412): the next time base multiple of 1,024, in whose tick its work is done, also where later ticks have been told of. -/
def execManagementTick (balls : CompareBalls) (parityOk : Bool) (s : State) : Host.Outcome State Fault Refusal :=
  s.guarded fun s => if !s.coreRuns then s else s.inTick (s.mgmtFrom s.clk.mgmtFrom) (fun s => s.mgmtWork balls parityOk)

/-! ### The alignment action (R458, R459) -/

/-- CLU_ALIGN_CTRL.ACT in force is HALT (R459). -/
def State.halts (s : State) (n : Clu) : Bool := !s.effB (cluA n 0x1C0) 0

/-- The cluster is in LEAD, RUN or STOPPING. -/
def State.inAction (s : State) (n : Clu) : Bool :=
  decide (s.clu[n].state = .lead ∨ s.clu[n].state = .run ∨ s.clu[n].state = .stopping)

/-- The alignment action on every running cluster that a crossing of a list serves, at a tick (R458, R459). -/
def State.alignAction (s : State) (l : List Nat) (at_ : Nat) : State :=
  (allFin 8).foldl (fun s n =>
    if s.inAction n && s.halts n && (s.crossingsOf n).any (fun i => l.contains i) then
      (s.upto at_).stopCluster n 4 (at_ * 1024)
    else s) s

/-- An alignment fault record (R453). -/
def State.alignFault (s : State) (cause source at_ : Nat) : State :=
  s.report { cls := 4, cause := BitVec.ofNat 8 cause, source := BitVec.ofNat 8 source, time := BitVec.ofNat 64 (s.tbAt at_) }

/-! ### Crossings (R419 to R422) -/

/-- Both clocks of a crossing run (R419, R421). -/
def State.crossingRuns (s : State) (i : Nat) : Bool :=
  s.clk.pll.getLsbD 0 &&
    (if i < 4 then s.clk.convRun.getLsbD i && s.clk.pll.getLsbD (2 + i)
     else s.clk.patRun.getLsbD (i % 4) && s.clk.pll.getLsbD 1)

/-- The bits of a list of crossings. -/
def crossBits (l : List Nat) : BitVec 16 := l.foldl (fun m i => m ||| (1#16 <<< i)) 0

/-- Crossings lose their alignment, link receive crossings until their ports train again (R422, R423). -/
def State.misalign (s : State) (m : BitVec 16) : State :=
  let s := (allFin 4).foldl (fun s p => if m.getLsbD (12 + p.val) then s.modPort p (fun q => { q with misaligned := true }) else s) s
  s.modClk (fun c => { c with aligned := c.aligned &&& ~~~m, aligning := c.aligning.map (fun x => (x.1, x.2 &&& ~~~m)) })

/-- One crossing has slipped (R422). -/
def State.slip (s : State) (i at_ : Nat) : State :=
  (((s.misalign (crossBits [i])).setBit (clkA 0x24) i).count (clkA 0x28) 1).alignFault 1 i at_

/-- A link receive crossing slips: its port goes DOWN and trains again (R422). -/
def State.portSlip (s : State) (p : Fin 4) : State :=
  if s.link.ports[p].state = .up then (s.portFall p).portTrain p else s

/-- The crossings at an EPOCH of tick t that did not slip the time base: those not aligned whose clocks run are aligned from t + 64, and
those aligned are compared then (R421, R422). -/
def State.crossEpoch (s : State) (t : Nat) : State :=
  let held := s.alignedNow
  let fresh := (List.range 12).filter (fun i => !held.getLsbD i && s.crossingRuns i)
  s.modClk (fun c => { c with aligned := held &&& 0x0FFF, aligning := some (t + 64, crossBits fresh), checkAt := some (t + 64) })

/-- The comparison at E + 64: `slips` are the crossings whose pointer difference is not their fixed depth. Those that were aligned have
slipped (R422, R458). -/
def State.crossCheck (s : State) (slips : BitVec 16) : State :=
  match s.clk.checkAt with
  | none => s
  | some t =>
    let s := (s.upto t).modClk (fun c => { c with checkAt := none })
    let gone := (List.range 12).filter (fun i => s.clk.aligned.getLsbD i && slips.getLsbD i)
    let s := gone.foldl (fun s i => s.slip i t) s
    let s := (allFin 4).foldl (fun s (p : Fin 4) => if slips.getLsbD (12 + p.val) then s.portSlip p else s) s
    s.alignAction gone t

/-! ### EPOCH (R310, R420, R443) -/

/-- The management tick of the present tick is still to come, where the time base has stepped to a multiple of 1,024
(R412). -/
def State.mgmtRearm (s : State) : State :=
  if s.clk.mgmtFrom = s.clk.now + 1 then s else s.modClk (fun c => { c with mgmtFrom := c.now })

/-- The first EPOCH anchors the time base at the least multiple of the period that is not below it (R310, R443). -/
def State.epochFirst (s : State) (p : Nat) : State :=
  let n := (s.tb + p - 1) / p
  let d : Int := ((n * p : Nat) : Int) - (s.tb : Int)
  let coarse := s.clk.timeCoarse
  let s := ((s.ncoStepBase d).modClk (fun c => { c with
    ofs := c.ofs + d, timeValid := true, timeCoarse := false, firstEpoch := false, epochCount := BitVec.ofNat 48 n })).mgmtRearm
  let s := if d = 0 then s else s.linkStep d
  (s.setBitIf coarse (clkA 0xC) 9).setBitIf (decide (d ≠ 0)) (lnkA 0x40) 4

/-- A later EPOCH counts, and one that is no multiple of the period slips (R310, R421). -/
def State.epochLater (s : State) (p : Nat) (slipped : Bool) : State :=
  let s := s.modClk (fun c => { c with epochCount := BitVec.ofNat 48 ((2 * s.tb + p) / (2 * p)) })
  if slipped then (s.setBit (lnkA 0x40) 11).alignFault 2 0xFF (s.clk.now + 64) else s

/-- The pulse counts in the ensemble's count as a candidate follows it; a change of the view takes effect at its EPOCH, and
an admission may step the time base (R314, R318, R497). -/
def State.epochView (s : State) : State :=
  let s := s.modLink (fun k => { k with ensEpoch := k.ensEpoch + 1 })
  let d := s.viewEffect.2
  if d = 0 then s.viewEffect.1 else (s.ncoStepBase d).viewEffect.1.mgmtRearm

/-- The first REFCLK rising edge at or after a tick: one every 16 ticks, at multiples of 16 of the physical axis (R416; DESIGN CHOICE,
log 22). -/
def refEdge (t : Nat) : Nat := (t + 15) / 16 * 16

/-- The tick at which a pulse of the EPOCH ball is registered: 32 ticks after the first REFCLK rising edge at which it is seen high; none where
no edge sees it, or where none has seen the ball low since the pulse before (R420). -/
def State.registers (s : State) (high low : Nat) : Option Nat :=
  if low ≤ refEdge high || s.clk.epochLow.any (fun l => decide (high ≤ refEdge l)) then none else some (refEdge high + 32)

/-- A pulse is registered at tick t (R310, R421). -/
def State.epochAt (s : State) (t : Nat) : State :=
  let s := (s.upto t).applyWhere (fun _ b => decide (b = .epoch))
  let p := s.epochTicks
  let slipped := !s.clk.firstEpoch && decide (s.tb % p ≠ 0)
  let s := if s.clk.firstEpoch then s.epochFirst p else s.epochLater p slipped
  let at_ := s.clk.now
  let s := s.epochView.modClk (fun c => { c with epochDue := some (c.now + p) })
  if slipped then s.modClk (fun c => { c with checkAt := none }) else s.crossEpoch at_

/-- EPOCH (R310, R420 to R422): a pulse of the ball, or the comparison that follows 64 ticks after one is registered. -/
def execEpoch (part : EpochPart) (slips : BitVec 16) (s : State) : Host.Outcome State Fault Refusal :=
  s.guarded fun s =>
    if !s.coreRuns then s
    else match part with
      | .check => s.crossCheck slips
      | .pulse high low =>
        let seen := s.modClk (fun c => { c with epochLow := if low ≤ refEdge high then c.epochLow else some low })
        match s.registers high low with
        | none => seen
        | some t => seen.epochAt t

/-- EPOCH_LATE (R425): 16 ticks after the tick at which the next pulse was due. -/
def execEpochLate (s : State) : Host.Outcome State Fault Refusal :=
  s.guarded fun s =>
    match s.clk.epochDue with
    | none => s
    | some d =>
      if !s.coreRuns then s
      else ((s.upto (d + 16)).modClk (fun c => { c with epochDue := some (d + s.epochTicks) })).setBit (clkA 0xC) 7

/-! ### PLLs (R423, R495) -/

/-- The crossings that a PLL of CLK_STATUS feeds: that of CK_CORE every one, link receive crossings among them (R416, R419, R423). -/
def pllCrossings (p : Fin 8) : List Nat :=
  match p.val with
  | 0 => List.range 16
  | 1 => (List.range 8).map (fun i => 4 + i)
  | 2 => [0]
  | 3 => [1]
  | 4 => [2]
  | 5 => [3]
  | _ => []

/-- PLL_UNLOCK (R423, R458, R459, R495). -/
def execPllUnlock (t : Nat) (pll : Fin 8) (s : State) : Host.Outcome State Fault Refusal :=
  s.guarded fun s =>
    let s := s.upto t
    if s.heldInReset || !s.clk.pll.getLsbD pll.val then s
    else
      let l := pllCrossings pll
      let s := (s.modClk (fun c => { c with pll := c.pll &&& ~~~(1#8 <<< pll.val) })).misalign (crossBits l)
      let s := (s.setBit (clkA 0xC) 8).alignFault 3 pll.val s.clk.now
      let s := if pll.val = 6 then { s with dram := { s.dram with ready := false } } else s
      if pll.val = 0 then s else s.alignAction l s.clk.now

/-- PLL_RELOCK (R495): every PLL but that of CK_CORE relocks; the commands it held are taken at the next management tick.
After a relock of CK_DRAM the short training runs, at once or after a training in progress. -/
def execPllRelock (t : Nat) (pll : Fin 8) (s : State) : Host.Outcome State Fault Refusal :=
  s.guarded fun s =>
    let s := s.upto t
    if s.heldInReset || s.clk.pll.getLsbD pll.val || decide (pll.val = 0) then s
    else
      let s := s.modClk (fun c => { c with pll := c.pll ||| (1#8 <<< pll.val) })
      if pll.val ≠ 6 ∨ !s.dram.configured ∨ s.dram.selfRefresh then s
      else if s.dram.training = .none then s.train .short
      else { s with dram := { s.dram with shortNext := true } }

/-- AON_PERIOD_UPDATE (R418): a run of 65,536 CK_AON cycles ends while CK_CORE runs. -/
def execAonPeriodUpdate (ticks : BitVec 32) (s : State) : Host.Outcome State Fault Refusal :=
  s.guarded fun s => if s.coreRuns then s.modClk (fun c => { c with aonPeriod := ticks }) else s

/-- PWR_CNT_CLR (R452). -/
def execPwrCntClr (s : State) : Host.Outcome State Fault Refusal := s.guarded fun s => s.clearCtr (clkA 0x28)

/-- DEV_CNT_CLR (R415). -/
def execDevCntClr (s : State) : Host.Outcome State Fault Refusal := s.guarded fun s => s.clearCtr 0x18

end Sys2Proof.Machine
end

