-- ==== Sys2Proof/Machine/Power.lean ====
section
/-! DEFINITION. Power states: QUIET, Winter and thaw (R426 to R443). -/
namespace Sys2Proof.Machine

/-! ### Clocks that QUIET and Winter stop (R429, R433, R436) -/

/-- CK_PAT and CK_CONV stop, and their crossings lose alignment (R423, R433). -/
def State.playClocksStop (s : State) : State :=
  (s.modClk (fun c => { c with patRun := 0, convRun := 0 })).misalign 0x0FFF

/-! ### Requests (R430 to R433) -/

/-- A block refuses a request for a target (R431). Block 12 refuses when a wake event arrives, by WAKE_N_EDGE. -/
def State.blockRefuses (s : State) (target : BitVec 2) (b : Fin 13) : Bool :=
  let winter := decide (target = 2)
  match b.val with
  | 0 => !s.configured
  | 1 => !s.allIdle
  | 2 => (allFin 16).any (fun w => decide (s.wl[w].state ≠ .off))
  | 3 => winter && (allFin 48).any (fun c => decide (s.lvl[c].state ≠ .opened))
  | 4 => (allFin 4).any (fun g => s.pg[g].tcalUntil.isSome)
  | 5 => s.loading || s.ovl.validating.isSome || !s.ovl.queue.isEmpty
  | 6 => !s.plc.queue.isEmpty || s.plc.switching
  | 7 => decide (s.dram.training ≠ .none)
  | 8 => (winter || s.pwr.quietSr) && (allFin 64).any (fun c => decide (s.host.ctxs[c].state ≠ .closed))
  | 10 => !s.gov.queue.isEmpty
  | _ => false

/-- The blocks that stay prepared in QUIET (R433). -/
def State.quietBlocks (s : State) : List (Fin 13) := if s.pwr.quietSr then [2, 4, 7, 8] else [2, 4]

/-- The request is refused by a block (R432): in the next tick every prepared block is released and held commands act.
A request made in QUIET leaves the device in QUIET (DEDUCED, log 22). -/
def State.requestRefuse (s : State) (b : Fin 13) : State :=
  let at_ := s.clk.now
  let s := (s.modPwr (fun p => { p with
    phase := if p.wasQuiet then .quiet else .none, resCode := 2, resBlock := BitVec.ofNat 8 b.val, refusedAt := some at_
    agreed := [], prepared := if p.wasQuiet then s.quietBlocks else [] })).setBit (clkA 0xC) 1
  (s.upto (at_ + 1)).runHeld

/-- Every block has agreed to QUIET (R433). -/
def State.enterQuiet (s : State) : State :=
  let s := s.playClocksStop
  let s := if s.pwr.quietSr ∧ s.dram.configured then s.selfRefreshIn else s
  let s := s.modPwr (fun p => { p with phase := .quiet, resCode := 1, agreed := [], prepared := s.quietBlocks })
  (s.setBit (clkA 0xC) 0).runHeld

/-- QUIET is left (R429). -/
def State.leaveQuiet (s : State) : State :=
  let s := s.playClocksStart.modPwr (fun p => { p with phase := .resuming })
  if s.dram.selfRefresh then s.train .short else s

/-- POWER_GO (R430): GO is taken at a management tick. -/
def execPowerGo (s : State) : Host.Outcome State Fault Refusal :=
  s.guarded fun s =>
    let s := s.cmdTake (clkA 0) 1
    let target := BitVec.ofNat 2 (s.effF (clkA 0) 5 4)
    let quiet := decide (s.pwr.phase = .quiet)
    let free := quiet || decide (s.pwr.phase = .none)
    if !free || decide (target = 3) || (decide (target = 0) && !quiet) || (decide (target = 1) && quiet) then
      (s.modPwr (fun p => { p with resCode := 3 })).setBit (clkA 0xC) 6
    else if target = 0 then s.leaveQuiet
    else s.modPwr (fun p => { p with phase := .preparing, target := target, wasQuiet := quiet, refusedAt := none, agreed := [] })

/-- A block agrees (R432); block 9 stops its tuning pass before it does (R365). Once every block has, QUIET or SAVING is entered (R433): the
last AON_PERIOD before SAVING is kept (R443), and the watchdog pauses (R460). -/
def State.blockAgrees (s : State) (b : Fin 13) : State :=
  let s := if b = 9 then s.tuneStop else s
  let s := s.modPwr (fun p => { p with
    agreed := if p.agreed.contains b then p.agreed else p.agreed ++ [b]
    prepared := if p.prepared.contains b then p.prepared else p.prepared ++ [b] })
  if s.pwr.agreed.length < 13 then s
  else if s.pwr.target = 1 then s.enterQuiet
  else ((s.modPwr (fun p => { p with phase := .saving, agreed := [] })).modClk (fun c => { c with aonSaved := c.aonPeriod })).watchPause

/-- POWER_BLOCK_ANSWER (R431, R432): a block answers at tick t. Of several that refuse in one tick the lowest is
reported. -/
def execPowerBlockAnswer (t : Nat) (block : Fin 13) (s : State) : Host.Outcome State Fault Refusal :=
  s.guarded fun s =>
    if s.pwr.phase = .preparing then
      let s := s.upto t
      if s.blockRefuses s.pwr.target block then s.requestRefuse block else s.blockAgrees block
    else if s.pwr.refusedAt = some t ∧ block.val < s.pwr.resBlock.toNat ∧ s.blockRefuses s.pwr.target block then
      s.modPwr (fun p => { p with resBlock := BitVec.ofNat 8 block.val })
    else s

/-- QUIET_RESUME_DONE (R429): RESUMING ends. -/
def execQuietResumeDone (s : State) : Host.Outcome State Fault Refusal :=
  s.guarded fun s =>
    if s.pwr.phase ≠ .resuming ∨ s.dram.training = .short then s
    else ((s.modPwr (fun p => { p with phase := .none, prepared := [] })).setBit (clkA 0xC) 4).runHeld

/-! ### Winter (R434 to R439) -/

/-- The words of the table memories in the order in which the parking copy holds them, that of their windows with the timing sets in force
before their shadow (R434; DESIGN CHOICE, log 22). -/
def Tables.words (t : Tables) : List Word :=
  let part := fun (m : SMap Word) (n : Nat) => (List.range n).map (fun k => smGet (fun _ => (0 : Word)) m k)
  part t.seg 0x100000 ++ part t.jump 0x10000 ++ part t.nco 0x20000 ++ part t.tset 0x8000 ++ part t.tsetShadow 0x8000 ++ part t.mkp 0x10000

/-- The bytes of the parking copy: 5.25 MB (R434). -/
def parkSize : Nat := 4 * 0x150000

/-- The bytes of a word, low byte first. -/
def wordBytes (w : Word) : List Byte := (List.range 4).map (fun i => w.extractLsb' (8 * i) 8)

/-- Where the parking area begins in object space (R334). -/
def State.parkBase (s : State) : Nat := s.dramPart 12 15 0 * 2 ^ 20

/-- The bursts of the parking copy and of its CRC-32, each with what the EDC says of it: free values (R349, R350; log 22). -/
def State.parkBursts (s : State) : List (Nat × EdcOutcome) :=
  (List.range (parkSize / 64 + 1)).map (fun i =>
    let u := s.parkBase / 64 + i
    (u, if Config.parkEdc s.freeN u ≤ s.retryMax then .ok (Config.parkEdc s.freeN u) else .escaped))

/-- The tables are written to the parking area, and a CRC-32 of the copy behind them (R32, R334, R350, R434). -/
def State.parkTables (s : State) : State :=
  let copy := s.tabs.words.flatMap wordBytes
  let acc := s.parkBursts
  let s := (s.hostAccesses acc).dramWrite s.parkBase ((copy ++ wordBytes (crc32 copy)).map some)
  let s := (escapesOf acc).foldl (fun s x => (s.smear x).escape x true Config.parkMaster.toNat) s
  { s with freeN := s.freeN + 1 }

/-- A table memory that holds a run of words: only those that are not zero stand in it. -/
def tableOf (n : Nat) (w : Nat → Word) : SMap Word :=
  (List.range n).filterMap (fun k => if w k = 0 then none else some (k, w k))

/-- The word at a place of the parking area. -/
def State.parkWord (s : State) (k : Nat) : Word := BitVec.ofNat 32 (leNat (s.dramBytes (s.parkBase + 4 * k) 4))

/-- The parking copy is intact: its CRC-32 is the one behind it (R32, R434). -/
def State.parkGood (s : State) : Bool := decide (crc32 (s.dramBytes s.parkBase parkSize) = s.parkWord 0x150000)

/-- The tables that the parking copy holds (R440). -/
def State.parkedTables (s : State) : Tables :=
  let part := fun (k n : Nat) => tableOf n (fun i => s.parkWord (k + i))
  { seg := part 0 0x100000, jump := part 0x100000 0x10000, nco := part 0x110000 0x20000, tset := part 0x130000 0x8000
    tsetShadow := part 0x138000 0x8000, mkp := part 0x140000 0x10000 }

/-- The bursts of the parking copy are read (R349, R440). -/
def State.parkRead (s : State) : State :=
  let acc := s.parkBursts
  let s := (escapesOf acc).foldl (fun s x => s.escape x false Config.parkMaster.toNat) (s.hostAccesses acc)
  { s with freeN := s.freeN + 1 }

/-- TABLES of a thaw (R440): the parking copy is read and written to the table memories; whether it came whole and its CRC-32 agrees. -/
def State.thawTables (s : State) : State × Bool :=
  if !s.dram.configured then (s, true)
  else ({ s.parkRead with tabs := s.parkedTables }, (escapesOf s.parkBursts).isEmpty && s.parkGood)

/-- WINTER_SAVE_DONE (R434, R464): the records queued are written, the tables are copied to the parking area, the save list is
kept, and DRAM is in self-refresh. -/
def execWinterSaveDone (s : State) : Host.Outcome State Fault Refusal :=
  s.guarded fun s =>
    if s.pwr.phase ≠ .saving then s
    else
      let s := s.flt.queue.foldl (fun s _ => s.writeRecord) s
      let s := if s.dram.configured then s.parkTables.selfRefreshIn else s
      s.modPwr (fun p => { p with phase := .commit, cycle := 0 })

/-- A thaw starts from a wake source (R438, R440). -/
def State.thawStart (s : State) (src : BitVec 2) : State :=
  s.modPwr (fun p => { p with phase := .thawing, thaw := .power, wakeSrc := src, wakeLatched := 0 })

/-- The sensors of a list of dies lose power (R492). -/
def State.sensorsOff (s : State) (p : Nat → Bool) : State :=
  { s with smb := { s.smb with temps := Vector.ofFn (fun i : Fin 12 => if p i.val then 0x8000 else s.smb.temps[i]) } }

/-- What a cycle of the commit window takes away (R436). -/
def State.commitCycle (s : State) (c : Nat) : State :=
  match c with
  | 0 =>
    let s := (allFin 4).foldl State.portFall s
    s.modClk (fun k => { k with timeRuns := false, stoppedAt := k.now, epochDue := none })
  | 1 => s.playClocksStop.sensorsOff (fun i => decide (4 ≤ i))
  | 2 =>
    let s := { s with tabs := {} }.modMem (fun m => { m with
      slots := [], spare := [], xram := [], hostSlots := [], lbSlot := none, lbRuns := [] })
    (allFin 4).foldl (fun s g => s.modPg g (fun p => { p with ring := [] })) s
  | 3 => s.sensorsOff (fun i => decide (i < 4))
  | _ => s

/-- PWR_WAKE_CFG.WAKE_N_EN and TIMER_EN in force (R451). -/
def State.wakeNEn (s : State) : Bool := s.effB (clkA 0x14) 0
def State.wakeTimerEn (s : State) : Bool := s.effB (clkA 0x14) 1

/-- The ticks that the wake timer runs: WAKE_TIMER cycles of CK_AON, 0 acting as 1, each of the period last measured (R418, R438, R451;
DESIGN CHOICE, log 22). -/
def State.wakeTicks (s : State) : Nat := max 1 (s.effW (clkA 0x18)).toNat * s.clk.aonSaved.toNat / 65536

/-- WINTER_COMMIT_CYCLE (R436, R438): the next CK_AON cycle of the commit window; a wake event that was latched, or that
is still there at cycle 6, starts a thaw at once. -/
def execWinterCommitCycle (s : State) : Host.Outcome State Fault Refusal :=
  s.guarded fun s =>
    if s.pwr.phase ≠ .commit then s
    else
      let c := s.pwr.cycle
      let s := (s.commitCycle c).modPwr (fun p => { p with cycle := c + 1 })
      if c < 6 then s
      else if s.pwr.wakeLatched ≠ 0 then s.thawStart s.pwr.wakeLatched
      else if s.wakeNEn && s.pwr.wakeLow then s.thawStart 1
      else s.modPwr (fun p => { p with phase := .winter, wakeAt := s.clk.now + s.wakeTicks })

/-- WAKE_N_EDGE (R283, R429, R432, R438): WAKE_N goes low at tick t; `staysLow` where it is still low at the next cycle 6. -/
def execWakeNEdge (t : Nat) (staysLow : Bool) (s : State) : Host.Outcome State Fault Refusal :=
  s.guarded fun s =>
    if s.heldInReset then s
    else
      let s := (s.upto t).modPwr (fun p => { p with wakeLow := staysLow })
      let latch := s.modPwr (fun p => { p with wakeLatched := 1 })
      match s.pwr.phase with
      | .commit => s
      | .winter => if s.wakeNEn then s.thawStart 1 else s
      | .thawing => s
      | .saving => (if s.wakeNEn then latch else s).fire 245 t
      | .preparing =>
        let s := s.fire 245 t
        if s.wakeNEn then s.requestRefuse 12 else s
      | .quiet =>
        let s := s.fire 245 t
        if s.wakeNEn then s.leaveQuiet else s
      | _ => s.fire 245 t

/-- WAKE_TIMER_EXPIRY (R438): the timer, which runs from cycle 6, has counted WAKE_TIMER cycles. -/
def execWakeTimerExpiry (s : State) : Host.Outcome State Fault Refusal :=
  s.guarded fun s => if s.pwr.phase = .winter ∧ s.wakeTimerEn then (s.upto s.pwr.wakeAt).thawStart 2 else s

/-! ### Thaw (R440 to R443) -/

/-- The time base restarts at its stopped value plus floor(N_A × AON_PERIOD / 65,536), AON_PERIOD as it was before SAVING (R443). -/
def State.timeRestart (s : State) (aonCycles : Nat) : State :=
  let v := s.tb + aonCycles * s.clk.aonSaved.toNat / 65536
  let s := s.modClk (fun c => { c with
    ofs := (v : Int) - (c.now : Int), timeRuns := true, timeCoarse := true, timeValid := false, firstEpoch := true
    epochDue := none, mgmtFrom := c.now })
  s.modPwr (fun p => { p with winterAon := BitVec.ofNat 64 aonCycles })

/-- A level channel after a thaw: OPEN with its span and both codes, OE cleared (R435). -/
def State.lvlThaw (s : State) (c : Lvl) : State :=
  (s.resetField (lvlA c 0) (bit32 4)).modLvl c (fun l => { l with
    state := .opened, oe := false, changing := false, settling := false, driven := false })

/-- The saved registers are back, with the exceptions of R435. -/
def State.thawState (s : State) : State :=
  let s := { s with cmd := [], more := [] }.modPwr (fun p => { p with held := [], prepared := [], agreed := [] })
  let s := (allFin 48).foldl State.lvlThaw s
  let s := { s with lg := Vector.replicate 6 {}, mon := { s.mon with chan := none } }
  let s := (List.range 16).foldl (fun s i => s.resetField (brgA (0x2C40 + 4 * i)) 1) (s.resetField 0x200 (fmask 7 0))
  let s := s.linesOff.modPlc (fun p => { p with
    goes := [], queue := [], next := none, code := 0, refuseIdx := 0, jobs := [], entries := [], rolling := false, switching := false })
  let s := { s with flg := smErase s.flg (plcA 0x10) }
  let s := (allFin 4).foldl (fun s g => s.modPg g (fun p => { p with
    flWr := 0, flRd := 0, flRdOld := none, flQueue := [], ring := [], strobes := [], vecs := [] })) s
  s.linkReset

/-- A CRC-32 fails: the thaw ends as THAW_FAILED and the device boots (R442). -/
def State.thawFail (s : State) (bootSel : Bool) : State :=
  let s := ((s.coldState false).cause 5).modPwr (fun p => { p with resCode := 4 })
  (s.setBit (clkA 0xC) 3).coldRelease bootSel

/-- Go on to a phase of the thaw. -/
def State.thawTo (s : State) (x : ThawPhase) : State := s.modPwr (fun p => { p with thaw := x })

/-- THAW_PHASE_DONE (R366, R440 to R443): a phase ends; the next begins. `crcOk` is false where the copy that a phase checks was corrupted
in the memory that kept it, `aonCycles` the CK_AON cycles since cycle 0 of the window, and `bootSel` the ball at a failed thaw. -/
def execThawPhaseDone (crcOk : Bool) (aonCycles : Nat) (bootSel : Bool) (s : State) : Host.Outcome State Fault Refusal :=
  s.guarded fun s =>
    if s.pwr.phase ≠ .thawing then s
    else match s.pwr.thaw with
      | .power => s.thawTo .clocks
      | .clocks => ((((s.timeRestart aonCycles).clearMem .staging).clearMem .tables).clearMem .xram).thawTo .clear
      | .clear => (((s.clearEnd .staging).clearEnd .tables).clearEnd .xram).thawTo .registers
      | .registers =>
        if !crcOk then s.thawFail bootSel
        else
          let s := s.thawState
          ((if s.dram.configured then s.train .short else s).thawTo .dram).sendVectors
      | .dram => if s.dram.training = .short then s else s.thawTo .tables
      | .tables =>
        let r := s.thawTables
        if crcOk && r.2 then r.1.thawTo .planned else r.1.thawFail bootSel
      | .planned => s.playClocksStart.thawTo .done
      | .done =>
        let s := (s.modPwr (fun p => { p with phase := .none, wasQuiet := false })).cause 4
        s.watchResume.setBit (clkA 0xC) 2

/-- PWR_STATUS.STATE (R426). -/
def State.pwrState (s : State) : Nat :=
  match s.pwr.phase with
  | .none => if s.allIdle then 1 else 0
  | .quiet => 2
  | .preparing => 3
  | .saving => 4
  | .thawing => 5
  | .resuming => 6
  | .resetting => 7
  | .commit => 8
  | .winter => 9

end Sys2Proof.Machine
end

