-- ==== Sys2Proof/Machine/ResetRows.lean ====
section
/-! DEFINITION. Power-on, RESET_N, PERST_N and warm reset (R43, R62, R444 to R450, R471). -/
namespace Sys2Proof.Machine

/-! ### Power-on, RESET_N and PERST_N -/

/-- Power fails while fuses are programmed: of KEY_HASH, which goes first, any part may have been programmed, KEY_SET stays 0, and DONE and ERR
tell of no completion and no refusal (R490; log 23). -/
def Part.cutShort (p : Part) (fusing : Option (BitVec 512)) (n : Nat) : Part :=
  match fusing with
  | none => p
  | some v =>
    let p := { p with fuseDone := false, fuseErr := false }
    if v.getLsbD 384 then { p with keyHash := p.keyHash ||| (v.setWidth 384 &&& Config.fusedBits n) } else p

/-- Power-on also clears the always-on domain (R448): its records, SAFE_PARK, LAST_BEAT, the SMBus port and the test
access port. -/
def State.powerOnState (s : State) : State :=
  let part := s.part.cutShort s.jtag.fusing s.freeN
  let s := s.coldState false
  { s with
    part := part
    freeN := s.freeN + 1
    pwr := { s.pwr with rstCause := 0, winterAon := 0 }
    img := { s.img with aborted := false }
    mem := { s.mem with clearing := 15 }
    flg := []
    flt := { watching := false }
    jtag := {}
    smb := { addrPins := s.smb.addrPins } }

/-- POWER_ON (R444, R450, R491): the power-on detector releases; VDD_AON has become valid, at which SMB_AD1 and SMB_AD0 are sampled. -/
def execPowerOn (balls : PowerOnBalls) (s : State) : Host.Outcome State Fault Refusal :=
  let s := s.powerOnState.modPwr (fun p => { p with porHold := false, jtagHold := false, aonDown := false })
  .next ({ s with smb := { s.smb with addrPins := balls.smbAd } }.coldRelease balls.bootSel)

/-- RESET_N_ASSERT (R444, R448). -/
def execResetNAssert (t : Nat) (s : State) : Host.Outcome State Fault Refusal :=
  .next (((((s.upto t).coldState false).cause 1)).modPwr (fun p => { p with resetLow := true }))

/-- RESET_N_RELEASE (R444, R450): once nothing else holds the device it is released. -/
def execResetNRelease (t : Nat) (bootSel : Bool) (s : State) : Host.Outcome State Fault Refusal :=
  s.guarded fun s =>
    if !s.pwr.resetLow then s
    else ((s.upto t).modPwr (fun p => { p with resetLow := false })).coldRelease bootSel

/-- The exchange RAM has lost power (R436). -/
def State.xramUnpowered (s : State) : Bool :=
  decide (s.pwr.phase = .winter ∨ s.pwr.phase = .thawing) || (decide (s.pwr.phase = .commit) && decide (2 < s.pwr.cycle))

/-- The link is down or trains because of Winter: it does not act as PERST_N (R439). -/
def State.winterLink (s : State) : Bool :=
  decide (s.pwr.phase = .commit ∨ s.pwr.phase = .winter ∨ s.pwr.phase = .thawing)

/-- PERST_N_ASSERT (R374, R439, R444, R448). -/
def execPerstNAssert (t : Nat) (cause : PerstCause) (s : State) : Host.Outcome State Fault Refusal :=
  let s := s.upto t
  if cause = .linkDown ∧ s.winterLink then .next s
  else .next (((s.coldState (!s.xramUnpowered)).cause 2).modPwr (fun p => { p with perstLow := true }))

/-- PERST_N_RELEASE (R444, R450). -/
def execPerstNRelease (t : Nat) (bootSel : Bool) (s : State) : Host.Outcome State Fault Refusal :=
  s.guarded fun s =>
    if !s.pwr.perstLow then s
    else ((s.upto t).modPwr (fun p => { p with perstLow := false })).coldRelease bootSel

/-- SUPPLY_FALL (R471, R472): a fall of VDD_AON or VDD_CORE makes a power-on reset; without VDD_AON every output is high-impedance. After a
fall of any other rail the behaviour is undefined until RESET_N or PERST_N. -/
def execSupplyFall (rail : Rail) (s : State) : Host.Outcome State Fault Refusal :=
  match rail with
  | .vddAon => .next (s.powerOnState.modPwr (fun p => { p with porHold := true, aonDown := true }))
  | .vddCore => .next (s.powerOnState.modPwr (fun p => { p with porHold := true }))
  | _ => .next { s with undef := true }

/-! ### Warm reset (R445, R446, R449) -/

/-- A cluster at a warm reset: IDLE with STOP_REASON = RESET, with no data still playing out (R446). A request in a pending register is
not among what the reset clears: it is discarded with NOT_RUN at its decision instant (R112; DEDUCED, log 14). -/
def State.warmCluster (s : State) (n : Clu) : State :=
  let s := if s.clu[n].state = .idle then (if s.clu[n].resetPark.isSome then s.endPlayOut n (s.clk.now * 1024) else s)
    else s.stopCluster n 5 (s.clk.now * 1024)
  s.modClu n (fun k => { k with stopReason := 5, stack := [] })

/-- A level channel at a warm reset: OPEN with its span and both codes, OE cleared (R269, R276, R449). -/
def State.warmLevel (s : State) (c : Lvl) : State :=
  s.modLvl c (fun l => { l with
    state := .opened, reason := if l.on then 5 else l.reason, oe := false, changing := false, settling := false, driven := false })

/-- The words of the stream contexts (R396). -/
def inContexts (a : Nat) : Bool := decide (0x71000 ≤ a) && decide (a < 0x72000)

/-- Contexts close and every register of a context returns to reset, but for LOW_COUNT, which counts from power-on, cold reset, PERST_N or
CNT_CLR (R396, R399; DEDUCED, log 15); accepted writes have drained and their counts restart. -/
def State.warmStreams (s : State) : State :=
  let s := s.ctxsClose
  { s with
    host := { s.host with writes := [], wrAccepted := 0, wrDrained := 0 }
    flg := s.flg.filter (fun x => !inContexts x.1)
    ctr := s.ctr.filter (fun x => !(inContexts x.1 && decide (x.1 % 0x40 ≠ 0x38))) }

/-- RW words that a warm reset keeps whole (R258, R269, R301, R355, R373, R399, R415, R445). -/
def warmKeeps (a : Nat) : Bool :=
  ((rwRow? a).map RwRow.rws).getD false || inMatrix a ||
  (decide (brgA 0x2080 ≤ a) && decide (a < brgA 0x20A0)) ||
  (decide (brgA 0x2800 ≤ a) && decide (a < brgA 0x2900)) ||
  (decide (0x400000 ≤ a) && decide (a < 0x403000) && decide (a % 0x100 = 4 ∨ a % 0x100 = 0xC ∨ a % 0x100 = 0x10)) ||
  (decide (drmA 0x10 ≤ a) && decide (a < drmA 0x20)) ||
  (decide (memA 0x1000 ≤ a) && decide (a < memA 0x2000)) ||
  decide (a = memA 0x300 ∨ a = memA 0x400 ∨ a = 0xC ∨ a = clkA 0x14 ∨ a = clkA 0x18) ||
  (decide (hostA 0x800 ≤ a) && decide (a < hostA 0x1000))

/-- The bits of an RW word that a warm reset returns to reset: of LVL_CFG all but SPAN (R269), of WLN_SPAN all but FS and
SPAN where the lane was changing span (R449). -/
def warmMask (changing : List Nat) (a : Nat) : Word :=
  if 0x400000 ≤ a ∧ a < 0x403000 ∧ a % 0x100 = 0 then ~~~(fmask 3 0)
  else if changing.contains a then ~~~(fmask 24 16 ||| bit32 8)
  else ~~~0

/-- RW fields return to their reset values but those kept; ROLL_EN is set again from the image (R445). -/
def State.warmWords (s : State) (changing : List Nat) : State :=
  let s := (s.rwKeys.filter (fun a => !warmKeeps a)).foldl (fun s a => s.resetField a (warmMask changing a)) s
  s.loadWord (plcA 0x20) (if s.plc.rollInit then 1 else 0) 1

/-- A training that a warm reset ends (R337): a full one starts again on release, and the data is lost. -/
def State.warmTraining (s : State) : State :=
  if s.dram.training = .retrain ∨ s.dram.training = .full then
    { s.dramLose with dram := { s.dramLose.dram with training := .none, againFull := true } }
  else { s with dram := { s.dram with training := .none } }

/-- PENDING overlays return to VALID, but for the one being applied, and a VALIDATE ends (R62). -/
def State.warmOverlays (s : State) : State :=
  s.dropPending.modOvl (fun o => { o with validating := none, applies := 0 })

/-- What the tick of a warm reset does (R446). -/
def State.warmTake (s : State) : State :=
  let changing := ((allFin 16).filter (fun w : Lane => decide (s.wl[w].state = .spanChange))).map (fun w => wlA w 0x100)
  let s := (allFin 8).foldl State.warmCluster s
  let s := (allFin 48).foldl State.warmLevel s.lanesReset
  let s := { s with lg := Vector.replicate 6 {}, mon := { s.mon with chan := none } }
  let s := (allFin 4).foldl (fun s g => s.modPg g (fun p => { p with tcalUntil := none, flRd := 0, flRdOld := none })) s
  let s := if s.dram.configured then s.warmTraining.selfRefreshIn else s
  let s := (linksDown_ s.warmStreams).tuneStop.warmOverlays
  let s := s.modPlc (fun p => { p with goes := [], queue := [], next := none, jobs := [], switching := false })
  let s := { s with cmd := [(clkA 0x10, bit32 8)], more := [], was := {} }
  let s := (s.warmWords changing).modBrg (fun b => { b with watchValid := false })
  let s := if s.loading then s.unconfigure.modImg (fun i => { i with aborted := true }) else s
  let s := (s.modPwr (fun p => { p with phase := .resetting, prepared := [], agreed := [], held := [] })).cause 3
  (s.misalign 0x0FFF).linkReset.watchPause
where
  /-- Bridge and trigger lines fall, timers are disarmed, and suppressions end (R298, R301). -/
  linksDown_ (s : State) : State :=
    let s := s.linesOff
    { s with flg := (List.range 8).foldl (fun f i => smErase f (brgA (0x2060 + 4 * i))) s.flg }

/-- WARM_RESET (R446, R461): taken at the management tick after the write; dropped while a request or a warm reset is in
progress; without effect in safe park. -/
def execWarmReset (s : State) : Host.Outcome State Fault Refusal :=
  s.guarded fun s =>
    let a := clkA 0x10
    if s.heldInReset then s
    else if s.flt.safePark then s.cmdDrop a (bit32 8)
    else if s.pwr.phase = .resetting then
      ({ s with more := smMod (fun _ => 0) s.more a (fun w => w &&& ~~~(bit32 8)) }).setBit (clkA 0xC) 6
    else if s.pwr.phase = .none ∨ s.pwr.phase = .quiet then s.warmTake
    else (s.cmdTake a (bit32 8)).setBit (clkA 0xC) 6

/-- WARM_RESET_RELEASE (R337, R446): once no overlay is being applied, the short training runs, with which the release ends; a full training
that the reset had ended starts again instead, on release. -/
def execWarmResetRelease (s : State) : Host.Outcome State Fault Refusal :=
  s.guarded fun s =>
    if s.pwr.phase ≠ .resetting ∨ s.ovl.applying.isSome ∨ s.pwr.releasing then s
    else if !s.dram.configured then s.warmEnd
    else if s.dram.againFull then ({ s with dram := { s.dram with againFull := false } }.train .retrain).warmEnd
    else (s.train .short).modPwr (fun p => { p with releasing := true })

end Sys2Proof.Machine
end

