-- ==== Sys2Proof/Machine/Balls.lean ====
section
/-! DEFINITION. The balls that boundary scan covers (R469, R488, R489): who drives each, as the core, the clamps (R437, R461, R472) or the
boundary cells do. -/
namespace Sys2Proof.Machine

/-- The balls of boundary scan by group, each group in R469's order, an index or a pair's _P and _N rising (R488). -/
inductive Ball where
  | control (i : Fin 47)
  | bus (i : Fin 58)
  | qspi (i : Fin 6)
  | gddr (i : Fin 616)
  | pins (i : Fin 512)
  | pcie (i : Fin 32)
  | chiord (i : Fin 32)
  deriving DecidableEq, Repr

/-- The cell of a ball: one for each, group after group (DESIGN CHOICE, log 23). -/
def Ball.cell : Ball → Fin 1303
  | .control i => ⟨i.val, by omega⟩
  | .bus i => ⟨47 + i.val, by omega⟩
  | .qspi i => ⟨105 + i.val, by omega⟩
  | .gddr i => ⟨111 + i.val, by omega⟩
  | .pins i => ⟨727 + i.val, by omega⟩
  | .pcie i => ⟨1239 + i.val, by omega⟩
  | .chiord i => ⟨1271 + i.val, by omega⟩

/-- The ball of a cell. -/
def ballOf (n : Fin 1303) : Ball :=
  if h : n.val < 47 then .control ⟨n.val, h⟩
  else if h : n.val < 105 then .bus ⟨n.val - 47, by omega⟩
  else if h : n.val < 111 then .qspi ⟨n.val - 105, by omega⟩
  else if h : n.val < 727 then .gddr ⟨n.val - 111, by omega⟩
  else if h : n.val < 1239 then .pins ⟨n.val - 727, by omega⟩
  else if h : n.val < 1271 then .pcie ⟨n.val - 1239, by omega⟩
  else .chiord ⟨n.val - 1271, by omega⟩

/-- Whether a ball is an input, an output or both. -/
inductive BallDir where
  | input | output | both
  deriving DecidableEq, Repr

/-- The direction of a ball (R95, R221, R283, R298, R369, R469, R486). A channel of GDDR6 has DQ, DBI_N, EDC, CA, CABI_N, CKE_N, CK and WCK in
that order; after the channels come the RESET_N. -/
def Ball.dir : Ball → BallDir
  | .control i => if i.val < 16 ∨ i.val = 40 ∨ i.val = 41 ∨ 45 ≤ i.val then .input else .output
  | .bus i => if i.val = 0 ∨ i.val = 57 then .output else if i.val < 25 then .input else .both
  | .qspi i => if i.val < 2 then .output else .both
  | .gddr i =>
    let j := i.val % 38
    if 608 ≤ i.val ∨ 20 ≤ j then .output else if j < 18 then .both else .input
  | .pins i => if i.val % 8 < 4 then .output else .input
  | .pcie i => if i.val < 16 then .output else .input
  | .chiord i => if i.val % 8 < 4 then .output else .input

/-- The AC-coupled balls, which carry IEEE 1149.6 (R483, R484). -/
def Ball.ac : Ball → Bool
  | .pcie _ | .chiord _ => true
  | _ => false

/-- What drives a ball: nothing, a level, or the pulse or the train of pulses of IEEE 1149.6 for a level. -/
inductive Drive where
  | off
  | level (b : Bool)
  | pulse (b : Bool)
  | train (b : Bool)
  deriving DecidableEq, Repr

/-- The drive of an output, or of a bidirectional ball, that the spec does not state: a free value (log 23). -/
def State.unstated (s : State) (b : Ball) : Drive :=
  let n := b.cell.val
  if b.dir = .both && !Config.ballDrives s.freeN n then .off else .level (Config.ballLevel s.freeN n)

/-- A bit of a pair: its _P carries the level, its _N the complement. -/
def pairLevel (i : Nat) (b : Bool) : Drive := .level (if i % 2 = 0 then b else !b)

/-- The balls of the event and control group: EVI, EVO, TRG, LOAD_N, WAKE_N, BUSY_N, IRQ_N, FAULT_N, RESET_N, BOOT_SEL (R469). -/
def State.controlDrive (s : State) (i : Fin 47) : Drive :=
  if i.val < 16 then .off
  else if i.val < 32 then .level (s.evoOut.getLsbD (i.val - 16))
  else if i.val < 40 then .level (s.trgOut.getLsbD (i.val - 32))
  else if i.val = 42 then .level (!s.busy)
  else if i.val = 43 then .level (!s.irqAsserted)
  else if i.val = 44 then match s.faultN with | some b => .level b | none => .off
  else .off

/-- The balls of the local bus: LB_CLK, LB_CS_N, LB_WE_N, LB_BE_N, LB_A, LB_D, LB_INT_N (R369 to R371, R469). -/
def State.busDrive (s : State) (i : Fin 58) : Drive :=
  if i.val = 0 then if s.lbClock then s.unstated (.bus i) else .level false
  else if i.val = 57 then .level (!s.lbInt)
  else if i.val < 25 then .off
  else match s.lbD with
    | some w => .level (w.getLsbD (i.val - 25))
    | none => .off

/-- The quad-SPI balls QSPI_CLK, QSPI_CS_N and QSPI_IO: a clamp holds the chip select high and the clock low (R437, R472). -/
def State.qspiDrive (s : State) (i : Fin 6) : Drive :=
  if !s.isolated then s.unstated (.qspi i)
  else if i.val = 0 then .level false
  else if i.val = 1 then .level true
  else .off

/-- The GDDR6 balls: a clamp holds RESET_N and CKE_N high, and command and address at their self-refresh levels, which the spec does not
state (R437, R472). -/
def State.gddrDrive (s : State) (i : Fin 616) : Drive :=
  if (Ball.gddr i).dir = .input then .off
  else if s.isolated ∧ (608 ≤ i.val ∨ i.val % 38 = 31) then .level true
  else s.unstated (.gddr i)

/-- The pin-electronics pairs PDD, PDE, PCH and PCL of each pin at the present tick (R221, R437). -/
def State.pinDrive (s : State) (i : Fin 512) : Drive :=
  let p : PinIdx := ⟨i.val / 8, by omega⟩
  let fu := s.clk.now * 1024
  if i.val % 8 < 2 then pairLevel i.val (s.pddBall p fu)
  else if i.val % 8 < 4 then pairLevel i.val (s.pdeBall p fu)
  else .off

/-- A high-speed transmitter: in electrical idle under the clamps (R436, R437, R472). -/
def State.laneDrive (s : State) (b : Ball) : Drive := if b.dir = .input ∨ s.isolated then .off else s.unstated b

/-- What the core, or a clamp, drives onto a ball. -/
def State.ownDrive (s : State) : Ball → Drive
  | .control i => s.controlDrive i
  | .bus i => s.busDrive i
  | .qspi i => s.qspiDrive i
  | .gddr i => s.gddrDrive i
  | .pins i => s.pinDrive i
  | .pcie i => s.laneDrive (.pcie i)
  | .chiord i => s.laneDrive (.chiord i)

/-- What a boundary cell drives onto a ball under the instruction in force (R483, R484, R488): nothing under HIGHZ; under EXTEST_PULSE and
EXTEST_TRAIN an AC-coupled ball carries pulses, and any other its level. -/
def State.cellDrive (s : State) (b : Ball) : Drive :=
  let v := s.jtag.cells.getLsbD b.cell.val
  if s.jtag.ir = 3 ∨ b.dir = .input ∨ (b.dir = .both ∧ Config.ballDrives s.freeN b.cell.val = false) then .off
  else if b.ac ∧ s.jtag.ir = 5 then .pulse v
  else if b.ac ∧ s.jtag.ir = 6 then .train v
  else .level v

/-- What drives a ball: nothing without VDD_AON (R472); the boundary cells while a test instruction holds the core, in safe park too (R489);
else the core and its clamps. -/
def State.ballDrive (s : State) (b : Ball) : Drive :=
  if s.pwr.aonDown then .off else if s.pwr.jtagHold then s.cellDrive b else s.ownDrive b

/-- The level at a ball: of its drive, or the board's, a free value (log 23). -/
def State.ballNow (s : State) (b : Ball) : Bool :=
  match s.ballDrive b with
  | .off => Config.ballLevel s.freeN b.cell.val
  | .level v | .pulse v | .train v => v

/-- What the boundary cells capture (R488). -/
def State.ballLevels (s : State) : BitVec 1303 :=
  BitVec.ofNat 1303 ((List.finRange 1303).foldl (fun m n => if s.ballNow (ballOf n) then m ||| 1 <<< n.val else m) 0)

end Sys2Proof.Machine
end

