-- ==== Sys2Proof/Machine/Service.lean ====
section
/-! DEFINITION. The test access port (R488 to R490), the SMBus port (R491, R492), and the endpoint's identity (R374) and error log (R376). -/
namespace Sys2Proof.Machine

/-! ### JTAG -/

def State.modJtag (s : State) (f : Jtag → Jtag) : State := { s with jtag := f s.jtag }

/-- The instructions that hold the core in a cold reset (R489). -/
def holdsCore (code : BitVec 8) : Bool := decide (code = 0 ∨ code = 3 ∨ code = 4 ∨ code = 5 ∨ code = 6)

/-- The instructions of R488; every other code acts as BYPASS. -/
def jtagCode (code : BitVec 8) : BitVec 8 :=
  if code.toNat ≤ 6 ∨ code = 0x20 ∨ code = 0x21 then code else 0xFF

/-- HIGHZ, CLAMP and BYPASS select the bypass register (R488). -/
def picksBypass (code : BitVec 8) : Bool := decide (code = 3 ∨ code = 4 ∨ code = 0xFF)

/-- IDCODE (R488). -/
def State.idcodeWord (s : State) : Nat :=
  s.part.siliconRev.toNat % 16 * 2 ^ 28 + s.part.variant.code.toNat * 2 ^ 12 + 0x5A3 * 2 + 1

/-- The fuse register (R490). -/
def State.fuseWord (s : State) : BitVec 512 :=
  let b := fun (x : Bool) (i : Nat) => if x then 2 ^ i else 0
  BitVec.ofNat 512 (s.part.deviceId.toNat * 2 ^ 448 + b s.part.fuseErr 388 + b s.part.fuseDone 387 + b s.part.grade20 386 +
    b s.part.signedOnly 385 + b s.part.keySet 384 + s.part.keyHash.toNat)

/-- EXTEST, SAMPLE, EXTEST_PULSE and EXTEST_TRAIN select the boundary cells (R488). -/
def picksBoundary (code : BitVec 8) : Bool := decide (code = 0 ∨ code = 1 ∨ code = 5 ∨ code = 6)

/-- What an instruction captures of the identification or the fuse register (R488). -/
def State.captured (s : State) (code : BitVec 8) : BitVec 512 :=
  if code = 2 then BitVec.ofNat 512 s.idcodeWord else if code = 0x20 ∨ code = 0x21 then s.fuseWord else 0

/-- Update-IR (R488), and the capture that follows: the boundary cells capture the levels at the balls. What SAMPLE/PRELOAD leaves in the
cells is what the tester shifts in, a free value (log 23). -/
def State.selectIr (s : State) (code : BitVec 8) : State :=
  let c := jtagCode code
  let s1 := s.modJtag (fun j => { j with ir := c, dr := s.captured c, bypassed := picksBypass c })
  let s2 := s1.modJtag (fun j => { j with
    scan := if picksBoundary c then s1.ballLevels else j.scan, cells := if c = 1 then Config.shiftedIn s.freeN else j.cells })
  { s2 with freeN := s2.freeN + 1 }

/-- A test instruction holds the core in a cold reset as RESET_N does; safe park outlasts it (R461, R489). -/
def State.jtagTest (s : State) (code : BitVec 8) : State :=
  let park := s.flt.safePark
  let s := if s.pwr.jtagHold then s
    else (((s.coldState false).cause 1).modPwr (fun p => { p with jtagHold := true })).modFlt (fun f => { f with safePark := park })
  s.selectIr code

/-- Any other instruction; a test instruction is left by JTAG_TEST_EXIT (R489; DEDUCED, log 23). -/
def State.jtagPlain (s : State) (code : BitVec 8) : State := if s.pwr.jtagHold then s else s.selectIr code

/-- EXTEST (R488, R489). -/
def execExtest (s : State) : Host.Outcome State Fault Refusal := s.guarded fun s => s.jtagTest 0
/-- SAMPLE (R488). -/
def execSample (s : State) : Host.Outcome State Fault Refusal := s.guarded fun s => s.jtagPlain 1
/-- IDCODE (R488). -/
def execIdcode (s : State) : Host.Outcome State Fault Refusal := s.guarded fun s => s.jtagPlain 2
/-- HIGHZ (R488, R489). -/
def execHighz (s : State) : Host.Outcome State Fault Refusal := s.guarded fun s => s.jtagTest 3
/-- CLAMP (R488, R489). -/
def execClamp (s : State) : Host.Outcome State Fault Refusal := s.guarded fun s => s.jtagTest 4
/-- EXTEST_PULSE (R488, R489). -/
def execExtestPulse (s : State) : Host.Outcome State Fault Refusal := s.guarded fun s => s.jtagTest 5
/-- EXTEST_TRAIN (R488, R489). -/
def execExtestTrain (s : State) : Host.Outcome State Fault Refusal := s.guarded fun s => s.jtagTest 6
/-- FUSE_READ (R490). -/
def execFuseRead (s : State) : Host.Outcome State Fault Refusal := s.guarded fun s => s.jtagPlain 0x20
/-- BYPASS, or a code that R488 does not list. -/
def execBypass (code : BitVec 8) (s : State) : Host.Outcome State Fault Refusal :=
  s.guarded fun s => if jtagCode code = 0xFF then s.jtagPlain 0xFF else s

/-- JTAG_TEST_EXIT (R489): the Update-IR that selects `next`. Leaving the test instructions releases the core. -/
def execJtagTestExit (next : BitVec 8) (bootSel : Bool) (s : State) : Host.Outcome State Fault Refusal :=
  s.guarded fun s =>
    if !s.pwr.jtagHold then s
    else if holdsCore (jtagCode next) then s.selectIr next
    else ((s.selectIr next).modPwr (fun p => { p with jtagHold := false })).coldRelease bootSel

def State.modPart (s : State) (f : Part → Part) : State := { s with part := f s.part }

/-- A programming is refused (R490). -/
def State.fuseRefuses (s : State) (v : BitVec 512) (tjInRange : Bool) : Bool :=
  !s.pwr.resetLow || !tjInRange ||
    (v.getLsbD 384 && (s.part.keySet || decide (s.part.keyHash &&& ~~~(v.setWidth 384) ≠ 0)))

/-- FUSE_PROG (R490): the Update-DR with the shifted value. DONE and ERR tell of the last programming: one that has begun has neither
completed nor failed. -/
def execFuseProg (value : BitVec 512) (tjInRange : Bool) (s : State) : Host.Outcome State Fault Refusal :=
  s.guarded fun s =>
    if s.pwr.jtagHold ∨ s.jtag.fusing.isSome then s
    else
      let s := s.modJtag (fun j => { j with ir := 0x21, bypassed := false })
      if s.fuseRefuses value tjInRange then s.modPart (fun p => { p with fuseErr := true, fuseDone := false })
      else (s.modPart (fun p => { p with fuseDone := false, fuseErr := false })).modJtag (fun j => { j with fusing := some value })

/-- The fuses that a completed programming has set: KEY_HASH and KEY_SET, or SIGNED_ONLY where bit 385 stands alone (R490). -/
def Part.fused (p : Part) (v : BitVec 512) : Part :=
  if v.getLsbD 384 then { p with keyHash := p.keyHash ||| v.setWidth 384, keySet := true }
  else if v.setWidth 386 = 1#386 <<< 385 then { p with signedOnly := true }
  else p

/-- FUSE_PROG_DONE (R490). -/
def execFuseProgDone (failed : Bool) (s : State) : Host.Outcome State Fault Refusal :=
  s.guarded fun s =>
    match s.jtag.fusing with
    | none => s
    | some v =>
      let s := s.modJtag (fun j => { j with fusing := none })
      s.modPart (fun p => { (if failed then p else p.fused v) with fuseErr := failed, fuseDone := !failed })

/-! ### SMBus -/

def State.modSmb (s : State) (f : Smbus → Smbus) : State := { s with smb := f s.smb }

/-- The device's SMBus address (R491). -/
def State.smbAddress (s : State) : BitVec 7 := 0x58 + s.smb.addrPins.setWidth 7

/-- One bit of the packet error code: the CRC-8 of x^8 + x^2 + x + 1 (R491; PRESUMED, log 23). -/
def pecBit (c : Byte) : Byte := if c.getLsbD 7 then (c <<< 1) ^^^ 7 else c <<< 1

/-- The packet error code of the bytes of a message (R491; PRESUMED, log 23). -/
def pecOf (l : List Byte) : Byte := l.foldl (fun c b => (List.range 8).foldl (fun c _ => pecBit c) (c ^^^ b)) 0

/-- The bytes of a read before its data: the address to write, the command, and the address to read (R491; PRESUMED, log 23). -/
def State.smbHead (s : State) (code : Byte) : List Byte :=
  let a : Byte := s.smbAddress.setWidth 8 <<< 1
  [a, code, a ||| 1]

/-- A read latches its word at the first byte, and returns it low byte first (R492): as Read Byte or Read Word, or after its count as Block Read,
with a packet error code over either (R491). -/
def State.smbRead (s : State) (code : Byte) (n : Nat) (v : Nat) : State :=
  let bytes := (List.range n).map (fun i => BitVec.ofNat 8 (v >>> (8 * i)))
  let count := BitVec.ofNat 8 n
  s.modSmb (fun m => { m with
    data := BitVec.ofNat 16 (leNat bytes), ara := none, active := true, blockCount := count
    pec := pecOf (s.smbHead code ++ bytes), blockPec := pecOf (s.smbHead code ++ count :: bytes) })

/-- A write ends at its stop; one whose PEC is wrong is discarded (R491). -/
def State.smbWrite (s : State) (pecOk : Bool) (f : Smbus → Smbus) : State :=
  let s := s.modSmb (fun m => { m with ara := none, active := false })
  if pecOk then s.modSmb f else s

/-- SMB_ID (R492). -/
def execSmbId (s : State) : Host.Outcome State Fault Refusal := s.guarded fun s => s.smbRead 0 2 s.part.variant.code.toNat
/-- SMB_REV (R492). -/
def execSmbRev (s : State) : Host.Outcome State Fault Refusal := s.guarded fun s => s.smbRead 1 1 s.part.siliconRev.toNat

/-- The STATUS byte (R492); its SAFE_PARK is that of FLT_WDOG (DEDUCED, log 23). -/
def State.smbStatusByte (s : State) : Nat :=
  (if s.configured then 1 else 0) + (if (s.flag (fltA 0x14)).getLsbD 1 then 2 else 0) + (if s.alerting then 4 else 0) +
    16 * s.pwrState

/-- SMB_STATUS (R492). -/
def execSmbStatus (s : State) : Host.Outcome State Fault Refusal := s.guarded fun s => s.smbRead 2 1 s.smbStatusByte
/-- SMB_TEMP (R492). -/
def execSmbTemp (n : Fin 12) (s : State) : Host.Outcome State Fault Refusal :=
  s.guarded fun s => s.smbRead (0x10 + BitVec.ofNat 8 n.val) 2 s.smb.temps[n].toNat

/-- SMB_ALERT_STATUS (R492): a read, or a write of 1 that clears. -/
def execSmbAlertStatus (write : Option Byte) (pecOk : Bool) (s : State) : Host.Outcome State Fault Refusal :=
  s.guarded fun s =>
    match write with
    | none => s.smbRead 0x20 1 s.smb.status.bits.toNat
    | some b => s.smbWrite pecOk (fun m => { m with status := m.status.clear s.clk.now (b.setWidth 32 &&& 3) })

/-- SMB_ALERT_MASK (R492): bits 1 and 0. -/
def execSmbAlertMask (write : Option Byte) (pecOk : Bool) (s : State) : Host.Outcome State Fault Refusal :=
  s.guarded fun s =>
    match write with
    | none => s.smbRead 0x21 1 s.smb.mask.toNat
    | some b => s.smbWrite pecOk (fun m => { m with mask := b })

/-- SMB_TEMP_LIMIT (R492). -/
def execSmbTempLimit (write : Option (BitVec 16)) (pecOk : Bool) (s : State) : Host.Outcome State Fault Refusal :=
  s.guarded fun s =>
    match write with
    | none => s.smbRead 0x22 2 s.smb.limit.toNat
    | some v => s.smbWrite pecOk (fun m => { m with limit := v })

/-- SMB_ALERT_RESPONSE (R491): an alerting device answers with its address. -/
def execSmbAlertResponse (s : State) : Host.Outcome State Fault Refusal :=
  s.guarded fun s =>
    s.modSmb (fun m => { m with
      ara := if s.alerting then some s.smbAddress else none, active := s.alerting
      pec := if s.alerting then pecOf [0x19, s.smbAddress.setWidth 8 <<< 1] else m.pec })

/-- The domain of a sensor has power (R436, R492). -/
def State.sensorPowered (s : State) (n : Fin 12) : Bool :=
  match s.pwr.phase with
  | .winter => false
  | .commit => decide (s.pwr.cycle ≤ (if 4 ≤ n.val then 1 else 3))
  | .thawing => decide (s.pwr.thaw ≠ .power)
  | _ => true

/-- TEMP_CONVERSION (R492): a reading above TEMP_LIMIT sets OVER_TEMP. -/
def execTempConversion (n : Fin 12) (reading : BitVec 16) (s : State) : Host.Outcome State Fault Refusal :=
  s.guarded fun s =>
    if !s.sensorPowered n then s
    else
      let s := s.modSmb (fun m => { m with temps := m.temps.set n reading })
      if s.smb.limit.toInt < reading.toInt then s.modSmb (fun m => { m with status := m.status.set s.clk.now 1 }) else s

/-- SMBUS_TIMEOUT (R491): the slave abandons the transaction. -/
def execSmbusTimeout (s : State) : Host.Outcome State Fault Refusal :=
  s.guarded fun s => s.modSmb (fun m => { m with active := false, ara := none, data := 0 })

/-! ### The endpoint (R374, R376) -/

/-- The identity in configuration space (R374): Vendor ID and Device ID, and Revision ID and class code. -/
def State.endpointId (s : State) : Word := s.part.variant.code ++ Config.vendorId
def State.endpointClass (s : State) : Word := 0x118000#24 ++ s.part.siliconRev.setWidth 8

/-- The default severity of an error (R376; PRESUMED from the PCI Express specification, log 10). -/
def aerSeverity : AerKind → AerSeverity
  | .receiverError | .badTlp | .badDllp | .replayTimeout | .replayRollover | .advisoryNonFatal => .correctable
  | .dataLinkProtocol | .malformedTlp => .fatal
  | .poisonedTlp | .completionTimeout | .unexpectedCompletion | .unsupportedRequest => .nonFatal

/-- The bit of an error in the register of its kind, by R376's order. -/
def aerPlace : AerKind → Nat
  | .receiverError | .dataLinkProtocol => 0
  | .badTlp | .poisonedTlp => 1
  | .badDllp | .completionTimeout => 2
  | .replayTimeout | .unexpectedCompletion => 3
  | .replayRollover | .malformedTlp => 4
  | .advisoryNonFatal | .unsupportedRequest => 5

/-- AER_ERROR (R376): the error is logged in the register of its kind, and reported by its severity. -/
def execAerError (k : AerKind) (s : State) : Host.Outcome State Fault Refusal :=
  s.guarded fun s =>
    let b := 1#6 <<< aerPlace k
    if s.heldInReset then s
    else
      let v := aerSeverity k
      let h := s.host
      { s with host := { h with
          aerCorr := if v = .correctable then h.aerCorr ||| b else h.aerCorr
          aerUncorr := if v = .correctable then h.aerUncorr else h.aerUncorr ||| b
          aerReport := some v } }

end Sys2Proof.Machine
end

