-- ==== Sys2Proof/Machine/RegRead.lean ====
section
/-! DEFINITION. What a BAR0 read returns (R401, R402, R407, R411): last-written RW fields, flags, waiting CMD bits,
counters, the status fields of every register table, and the windows. -/
namespace Sys2Proof.Machine

/-! ### Codes of states -/

/-- CLU_STATUS.STATE (R98). -/
def CluState.code : CluState → Nat
  | .idle => 0
  | .held => 1
  | .lead => 2
  | .run => 3
  | .stopping => 4

/-- WLN_ARM_STATUS.STATE (R201). -/
def LaneState.code : LaneState → Nat
  | .off => 0
  | .queued => 1
  | .arming => 2
  | .armed => 3
  | .spanChange => 4
  | .tripped => 5
  | .disarming => 6
  | .cal => 7

/-- LVL_STATUS.STATE (R268). -/
def LvlState.code : LvlState → Nat
  | .opened => 0
  | .settling => 1
  | .connected => 2
  | .spanChange => 3
  | .tripped => 4

/-- Port STATE (R304). -/
def PortState.code : PortState → Nat
  | .down => 0
  | .train => 1
  | .up => 2

/-- STRM_STATUS.STATE (R383). -/
def CtxState.code : CtxState → Nat
  | .closed => 0
  | .opened => 1
  | .error => 2
  | .closing => 3

/-- Overlay slot states (R54). -/
def SlotState.code : SlotState → Nat
  | .free => 0
  | .valid => 1
  | .pending => 2
  | .applied => 3

/-- IMG_STATUS.STATE (R67). -/
def ImgState.code : ImgState → Nat
  | .unconfigured => 0
  | .fetch => 1
  | .check => 2
  | .apply => 3
  | .configured => 4

/-- Jump modes (R107). -/
def JumpMode.code : JumpMode → Nat
  | .immediate => 0
  | .fret => 1
  | .atEnd => 2

/-- Placement classes (R136). -/
def PClass.code : PClass → Nat
  | .resident => 0
  | .headed => 1
  | .fetched => 2
  | .hosted => 3

/-- TUNE_STATUS.PHASE (R363). -/
def TunePhase.code : TunePhase → Nat
  | .idle => 0
  | .copy => 1
  | .test => 2
  | .restore => 3

/-- 1 for true. -/
def bit (b : Bool) : Nat := if b then 1 else 0

/-- A word from a number. -/
def word (n : Nat) : Word := BitVec.ofNat 32 n

/-- The low and the high word of a wide value (R413). -/
def lo32 (n : Nat) : Word := BitVec.ofNat 32 n
def hi32 (n : Nat) : Word := BitVec.ofNat 32 (n / 2 ^ 32)

/-- Word i of a wide value. -/
def wordOf {w : Nat} (v : BitVec w) (i : Nat) : Word := BitVec.ofNat 32 (v.toNat >>> (32 * i))

/-! ### Status fields, block by block -/

/-- The device-global block (R67 to R70, R414). -/
def State.roDevice (s : State) (o : Nat) : Word :=
  let v := s.part.variant
  if o = 0 then word (0x6416 * 65536 + v.code.toNat)
  else if o = 4 then word (s.part.siliconRev.toNat * 65536 + s.part.compat.toNat)
  else if o = 8 then word (bit s.part.grade20 * 65536 + v.lgCount * 256 + v.pgCount * 32 + v.wCount)
  else if o = 0x14 then word (bit s.errWrite * 2 ^ 24 + s.errAddr.toNat)
  else if o = 0x104 then
    word (s.img.loadedSrc.toNat * 64 + bit s.img.fallbackUsed * 32 + bit s.img.verified * 16 + s.img.state.code)
  else if o = 0x108 then word (s.img.errSection.toNat * 256 + s.img.errCode.toNat)
  else if o = 0x11C then s.img.version
  else if o = 0x120 then word (s.img.secCount.toNat * 65536 + s.img.compat.toNat)
  else if o = 0x124 then s.img.baseId
  else if o = 0x128 then word (bit s.part.signedOnly * 2 + bit s.part.keySet)
  else if o = 0x134 then word ((allFin 16).foldl (fun m (k : Fin 16) => m + s.ovl.slots[k].state.code * 4 ^ k.val) 0)
  else if o = 0x138 then word (s.ovl.resSlot.toNat * 256 + s.ovl.resCode.toNat)
  else if o = 0x13C then if s.configured then lo32 (s.dramPart 11 15 0 * 2 ^ 20) else 0
  else if o = 0x140 then if s.configured then hi32 (s.dramPart 11 15 0 * 2 ^ 20) else 0
  else 0

/-- The clocks-and-power block (R215, R451). -/
def State.roClocks (s : State) (o : Nat) : Word :=
  if o = 4 then word (s.pwrState % 8)
  else if o = 8 then word (s.pwr.resBlock.toNat * 256 + s.pwr.resCode.toNat)
  else if o = 0x1C then word s.pwr.wakeSrc.toNat
  else if o = 0x20 then word s.alignedNow.toNat
  else if o = 0x2C then word s.clk.pll.toNat
  else if o = 0x30 then s.clk.aonPeriod
  else if o = 0x34 then word (bit s.clk.timeCoarse)
  else if o = 0x38 then lo32 s.pwr.winterAon.toNat
  else if o = 0x3C then hi32 s.pwr.winterAon.toNat
  else if o = 0x40 then word s.pwr.rstCause.toNat
  else if o = 0x404 then
    let next := match s.gov.queue with | q :: _ => q.lane.val | [] => 0
    word (s.gov.queue.length * 65536 + bit (!s.gov.queue.isEmpty) * 16 + next)
  else 0

/-- The faults block (R465). -/
def State.roFaults (s : State) (o : Nat) : Word :=
  if o = 8 then s.flt.wr
  else if o = 0xC then s.flt.rd
  else if o = 0x14 then word (bit s.watchingNow)
  else if o = 0x18 then lo32 s.flt.lastBeat.toNat
  else if o = 0x1C then hi32 s.flt.lastBeat.toNat
  else if 0x2000 ≤ o then wordOf (smGet (fun _ => 0) s.flt.ring ((o - 0x2000) / 32)) ((o - 0x2000) % 32 / 4)
  else 0

/-- The Bridge block (R299, R300). -/
def State.roBridge (s : State) (o : Nat) : Word :=
  if 0x2000 ≤ o ∧ o < 0x2020 then s.stickyDue ((o - 0x2000) / 4)
  else if o = 0x20AC then word (bit s.brg.watchValid * 2 ^ 31 + s.brg.watchData.toNat * 256 + s.brg.watchSrc.toNat)
  else if o = 0x20B0 then lo32 s.brg.watchTime.toNat
  else if o = 0x20B4 then hi32 s.brg.watchTime.toNat
  else if 0x2800 ≤ o ∧ o < 0x2900 then
    let t := s.brg.timers[(Fin.ofNat 8 ((o - 0x2800) / 32) : Fin 8)]
    if o % 32 = 0 then word (bit t.armed * 4)
    else if o % 32 = 8 then word ((if t.armed && !t.unlimited then t.left else 0) * 65536)
    else 0
  else if o = 0x2C80 then word (s.brg.evoNow.toNat * 65536 + s.brg.eviNow.toNat)
  else 0

/-- Units of 64 bytes in KB, rounded up. -/
def unitsKb (n : Nat) : Nat := (n + 15) / 16

/-- PUB_QUERY (R164, R165): the entry and layout queried, as in force. -/
def State.roQuery (s : State) : Word :=
  let i := s.effF (plcA 0x44) 16 0
  let k := s.effF (plcA 0x44) 17 17
  let r := s.entryRec i
  match r.layouts[k]? with
  | none => 0
  | some x =>
    let staged := match x.2 with
      | .resident => s.rangesLanded i (wholeRanges x.1 (s.entry i))
      | .hosted => false
      | _ => s.rangesLanded i (headRanges s.part.grade20 x.1 (s.entry i))
    let clus := (allFin 8).foldl (fun m (n : Clu) => if s.layoutOf n = x.1 then m + 2 ^ n.val else m) 0
    word (clus * 256 + bit staged * 8 + bit r.published * 4 + x.2.code)

/-- The placement block (R164). -/
def State.roPlacement (s : State) (o : Nat) : Word :=
  if o = 0x10 then word (s.plc.queue.length * 65536 + s.plc.code.toNat)
  else if o = 0x14 then word s.plc.refuseIdx.toNat
  else if o = 0x24 then word (bit s.plc.switching * 2 + bit s.plc.rolling)
  else if o = 0x28 then word (unitsKb s.headCap)
  else if o = 0x2C then word (unitsKb s.headUsed)
  else if o = 0x34 then word s.plc.capoRate
  else if o = 0x38 then s.plc.rollMin
  else if o = 0x3C then word (unitsKb s.residentTaken)
  else if o = 0x48 then s.roQuery
  else if o = 0x4C then
    let r := s.entryRec (s.effF (plcA 0x44) 16 0)
    if r.layouts = [] then 0 else word r.heat
  else 0

/-- The DRAM controller block (R353, R354). -/
def State.roDram (s : State) (o : Nat) : Word :=
  let d := s.dram
  if o = 0 then word (bit d.configured * 256 + s.dramPart 0 5 5 * 32 + s.dramPart 0 4 4 * 16 + s.dramPart 0 1 0)
  else if o = 4 then word (s.dramPart 1 15 0)
  else if o = 8 then word (s.dramPart 12 15 0)
  else if o = 0x20 then
    word (s.dramPhase * 16 + bit d.selfRefresh * 4 + bit (decide (d.training ≠ .none)) * 2 + bit d.ready)
  else if o = 0x28 then lo32 d.escAddr.toNat
  else if o = 0x2C then hi32 d.escAddr.toNat
  else if o = 0x30 then word (bit d.escWrite * 256 + d.escSrc.toNat)
  else if 0x100 ≤ o ∧ o < 0x300 ∧ o % 32 = 0 then
    let k := d.chans[(Fin.ofNat 16 ((o - 0x100) / 32) : Fin 16)]
    word (k.owed * 2 ^ 28 + k.rt * 4096 + k.be)
  else 0

/-- The on-chip memory block (R372). -/
def State.roMem (s : State) (o : Nat) : Word :=
  let m := s.mem
  if o = 0x208 then word m.violAddr.toNat
  else if o = 0x20C then word (bit m.violWrite * 256 + m.violSrc.toNat)
  else if o = 0x214 then word (bit (decide (m.clearing ≠ 0)))
  else if o = 0x304 then
    word (bit m.tuneStopped * 2 ^ 17 + m.tunePhase.code * 2 ^ 15 + m.tuneTile.val * 256 + m.tuneBlock.val)
  else if o = 0x30C then word (m.failTile.toNat * 256 + m.failBlock.toNat)
  else if o = 0x40C then word m.collideAddr.toNat
  else 0

/-- A stream context (R398). -/
def State.roCtx (s : State) (c : Ctx) (o : Nat) : Word :=
  let k := s.host.ctxs[c]
  if o = 0x18 then word k.tail.toNat
  else if o = 0x1C then word k.head.toNat
  else if o = 0x24 then word (k.err.toNat * 256 + k.state.code)
  else if k.state = .closed then 0
  else if o = 0x2C then word k.fill
  else if o = 0x30 then k.landed
  else if o = 0x34 then k.released
  else 0

/-- The negotiated width and speed of the host link, of those of R374: one of 1, 2, 4 or 8 lanes, and a speed code of 1 to 5 (R397; free
values, log 10). -/
def linkWidth : Nat := 2 ^ (Config.hostLanes % 4)
def linkSpeed : Nat := 1 + Config.hostSpeed % 5

/-- The host block (R397, R398): the MSI-X table at 0x8000, the pending bits at 0xC000. -/
def State.roHost (s : State) (o : Nat) : Word :=
  let h := s.host
  if o = 0 then word (bit s.dmaOn * 1024 + linkWidth * 16 + linkSpeed)
  else if o = 0x10 then h.wrAccepted
  else if o = 0x14 then h.wrDrained
  else if o = 0x20 then word (s.dramPart 14 15 0)
  else if o = 0x24 then word h.poolFree.length
  else if 0x1000 ≤ o ∧ o < 0x2000 then s.roCtx (Fin.ofNat 64 ((o - 0x1000) / 64)) (o % 64)
  else if 0x8000 ≤ o ∧ o < 0x8400 then s.msixWord ((o - 0x8000) / 4)
  else if o = 0xC000 then lo32 h.msixPending.toNat
  else if o = 0xC004 then hi32 h.msixPending.toNat
  else 0

/-- Port and member registers (R328). -/
def State.roPorts (s : State) (o : Nat) : Word :=
  if o < 0x180 then
    let q := s.link.ports[(Fin.ofNat 4 ((o - 0x100) / 32) : Fin 4)]
    if o % 32 = 0 then word (bit q.neighValid * 4 + q.state.code)
    else if o % 32 = 4 then lo32 q.neighId.toNat
    else if o % 32 = 8 then hi32 q.neighId.toNat
    else 0
  else
    let i := (o - 0x400) / 16
    let inView := s.link.view.getLsbD i
    let id := if inView then (smFind s.link.ids i).getD 0 else 0
    if o % 16 = 0 then lo32 id.toNat
    else if o % 16 = 4 then hi32 id.toNat
    else if o % 16 = 8 then
      let own := decide (s.link.state = .member) && decide (i = s.link.memberIdx.val)
      word (bit inView * 2 ^ 31 + (if inView && !own then ((smFind s.link.hops i).getD 0).toNat else 0))
    else 0

/-- The link block (R327, R328). -/
def State.roLink (s : State) (o : Nat) : Word :=
  let k := s.link
  if o = 0x10 then
    let members := (setBits 64 k.view.toNat).length
    let ready := decide (k.state = .candidate) && s.allIdle
    let idx := if k.state = .member then k.memberIdx.val else 0
    word (bit s.clk.timeValid * 2 ^ 31 + members * 65536 + idx * 256 + bit k.auth * 8 + bit ready * 4 + k.state.code.toNat)
  else if o = 0x14 then lo32 s.part.deviceId.toNat
  else if o = 0x18 then hi32 s.part.deviceId.toNat
  else if o = 0x1C then lo32 k.authId.toNat
  else if o = 0x20 then hi32 k.authId.toNat
  else if o = 0x24 then word k.generation.toNat
  else if o = 0x28 then lo32 k.view.toNat
  else if o = 0x2C then hi32 k.view.toNat
  else if o = 0x30 then lo32 s.clk.epochCount.toNat
  else if o = 0x34 then hi32 s.clk.epochCount.toNat
  else if o = 0x38 then lo32 s.clk.timeSnap.toNat
  else if o = 0x3C then hi32 s.clk.timeSnap.toNat
  else if o = 0x48 then lo32 k.mcTime.toNat
  else if o = 0x4C then hi32 k.mcTime.toNat
  else if (0x100 ≤ o ∧ o < 0x180) ∨ (0x400 ≤ o ∧ o < 0x800) then s.roPorts o
  else 0

/-- A frame of the loop stack, 0 at the bottom; none above LOOP_DEPTH (R104). -/
def Cluster.frame (k : Cluster) (d : Nat) : Option Frame := k.stack.reverse[d]?

/-- A cluster window (R103, R129, R163). SEG_NOW keeps the last entry in HELD, LEAD and IDLE, and PLAY_NOW counts modulo 2^20 (DESIGN CHOICE,
log 14). -/
def State.roClu (s : State) (n : Clu) (o : Nat) : Word :=
  let k := s.clu[n]
  let at_ := match k.sched with | some j => s.tbAt (upTick (s.switchAt n j)) | none => 0
  if o = 0x18 then word (k.pgBound.toNat * 65536 + k.wBound.toNat)
  else if o = 0x20 then word (k.stopReason.toNat * 4096 + k.stack.length * 256 + k.state.code)
  else if o = 0x24 then word k.seg.toNat
  else if o = 0x28 then word (k.plays % 2 ^ 20)
  else if o = 0x30 then lo32 k.starts.val
  else if o = 0x34 then hi32 k.starts.val
  else if o = 0x44 then word k.refuse.toNat
  else if o = 0x48 then word (k.seqEntry.toNat * 256 + k.seqCode.toNat)
  else if 0x80 ≤ o ∧ o < 0xC0 then
    match k.frame ((o - 0x80) / 8) with
    | none => 0
    | some f => if o % 8 = 0 then word f.first.toNat else word f.left.toNat
  else if o = 0x108 then word ((k.pend.map (fun r => r.cond.val)).dedup.foldl (fun m c => m + 2 ^ c) 0)
  else if o = 0x10C then
    match k.sched with
    | none => 0
    | some j => word (2 ^ 31 + j.mode.code * 2 ^ 29 + j.cond.val * 2 ^ 17 + j.target.toNat)
  else if o = 0x110 then lo32 at_
  else if o = 0x114 then hi32 at_
  else if o = 0x11C then word (k.jmpEntry.toNat * 256 + k.jmpCode.toNat)
  else if o = 0x144 then word (bit k.parked * 2)
  else if o = 0x150 then word k.lateEntry.toNat
  else if o = 0x154 then k.lateSample
  else 0

/-- A W lane window (R186, R213). -/
def State.roLane (s : State) (w : Lane) (o : Nat) : Word :=
  let l := s.wl[w]
  if o = 0x24 then lo32 l.snapFreq.toNat
  else if o = 0x28 then hi32 l.snapFreq.toNat
  else if o = 0x2C then word (l.snapP.toNat * 4096)
  else if o = 0x10C then word (bit l.snapHeld * 2048 + bit l.snapGliding * 1024 + l.snapCentre.toNat)
  else if o = 0x110 then s.cmdWord (armNewA w)
  else if o = 0x114 then word (l.reason.toNat * 256 + l.state.code)
  else if o = 0x124 then word (l.calGain.toNat * 2 ^ 20 + l.calOfs.toNat)
  else 0

/-- A block is served (R48, R401, R440, R446): while a thaw or a warm reset runs, only the device-global and
clocks-and-power blocks are. -/
def State.servedNow (s : State) (a : Nat) : Bool :=
  s.served a && (decide (a < 0x20000) || !decide (s.pwr.phase = .thawing ∨ s.pwr.phase = .resetting))

/-- The fail-log window (R232): slots at or above FL_SIZE read zero, and a read that master 36 may not make returns zero
(R362). -/
def State.roFailLog (s : State) (g : Pg) (o : Nat) : Word :=
  let slot := 1024 * s.effF (pgA g 0x40) 9 0 + (o - 0x8000) / 32
  if s.pg[g].flSize ≤ slot ∨ !s.slotOk 36 (s.ringSlot g slot) false then 0
  else wordOf (smGet (fun _ => 0) s.pg[g].ring slot) (o % 32 / 4)

/-- The staging slot that a read at an address of a fail-log window reads (R232). -/
def State.failLogSlot (s : State) (a : Nat) : Option Nat :=
  if 0x300000 ≤ a ∧ a < 0x340000 ∧ 0x8000 ≤ a % 0x10000 ∧ s.servedNow a then
    let g : Pg := Fin.ofNat 4 ((a - 0x300000) / 0x10000)
    let rec_ := 1024 * s.effF (pgA g 0x40) 9 0 + (a % 0x10000 - 0x8000) / 32
    if s.pg[g].flSize ≤ rec_ then none else some (s.ringSlot g rec_)
  else none

/-- A read of the fail-log window asks the tile of its slot, and is a violation where master 36 may not make it (R357, R358, R362). -/
def State.failLogSeen (s : State) (a : Nat) : State :=
  match s.failLogSlot a with
  | none => s
  | some slot =>
    let s := s.slotGrant 36 slot
    if s.slotOk 36 slot false then s else s.violate 36 slot false

/-- A pin-group window (R237, R257). -/
def State.roGroup (s : State) (g : Pg) (o : Nat) : Word :=
  let p := s.pg[g]
  let f := p.ff.getD { entry := 0, play := 0, vec := 0, time := 0, mask := 0 }
  if o = 0x10 then word (bit p.ff.isSome * 2 ^ 31 + f.entry.toNat)
  else if o = 0x14 then word f.play.toNat
  else if o = 0x18 then word f.vec.toNat
  else if o = 0x1C then lo32 f.time.toNat
  else if o = 0x20 then hi32 f.time.toNat
  else if o = 0x24 then word f.mask.toNat
  else if o = 0x30 then word p.flSize
  else if o = 0x34 then p.flWr
  else if o = 0x38 then p.flRd
  else if o = 0x104 then word (bit p.tcalUntil.isSome * 2 + bit (s.tsetPending g))
  else if o = 0x10C then s.tsgBad g
  else if 0x8000 ≤ o then s.roFailLog g o
  else 0

/-- Level channels, load groups and the monitor (R279 to R281). -/
def State.roLevels (s : State) (o : Nat) : Word :=
  if o < 0x3000 then
    let l := s.lvl[(Fin.ofNat 48 (o / 256) : Fin 48)]
    if o % 256 = 8 then word l.active.toNat
    else if o % 256 = 0x14 then word (l.reason.toNat * 256 + l.span.toNat * 16 + l.state.code)
    else 0
  else if 0x3410 ≤ o ∧ o < 0x3430 then
    let r := s.mon.results[(Fin.ofNat 8 ((o - 0x3410) / 4) : Fin 8)]
    word (bit r.valid * 2 ^ 31 + bit r.disturbed * 2 ^ 30 + r.seq.toNat * 2 ^ 24 + r.result.toNat)
  else 0

/-- The status fields of a word. -/
def State.roWord (s : State) (a : Nat) : Word :=
  if a < 0x10000 then s.roDevice a
  else if a < 0x20000 then s.roClocks (a - 0x10000)
  else if a < 0x30000 then s.roFaults (a - 0x20000)
  else if a < 0x40000 then s.roBridge (a - 0x30000)
  else if a < 0x50000 then s.roPlacement (a - 0x40000)
  else if a < 0x60000 then s.roDram (a - 0x50000)
  else if a < 0x70000 then s.roMem (a - 0x60000)
  else if a < 0x80000 then s.roHost (a - 0x70000)
  else if a < 0x90000 then s.roLink (a - 0x80000)
  else if a < 0x200000 then s.roClu (Fin.ofNat 8 ((a - 0x100000) / 0x10000)) (a % 0x10000)
  else if a < 0x300000 then s.roLane (Fin.ofNat 16 ((a - 0x200000) / 0x10000)) (a % 0x10000)
  else if a < 0x340000 then s.roGroup (Fin.ofNat 4 ((a - 0x300000) / 0x10000)) (a % 0x10000)
  else if a < 0x400000 then
    let p := s.pin[(Fin.ofNat 64 ((a - 0x340000) / 0x1000) : Fin 64)]
    if a % 0x1000 = 0x10 then word (bit p.chNow * 2 + bit p.clNow) else 0
  else s.roLevels (a - 0x400000)

/-! ### The read -/

/-- The word at a canonical address that is served (R407, R409, R411). -/
def State.readServed (s : State) (a : Nat) : Word :=
  if 0x800000 ≤ a then s.tableRead a
  else s.heldOver a (s.cfgW a) ||| s.flag a ||| s.cmdWord a ||| BitVec.ofNat 32 (s.counter a) ||| s.roWord a

/-- The word at a canonical address (R401, R402). -/
def State.readWord (s : State) (a : Nat) : Word := if s.servedNow a then s.readServed a else 0

end Sys2Proof.Machine
end

