-- ==== Sys2Proof/Machine/RegWrite.lean ====
section
/-! DEFINITION. BAR0 word accesses (R400 to R411): which access is recorded, what a read returns, and what a write to
each field does. A write whose command has a row of its own acts by that row's meaning. -/
namespace Sys2Proof.Machine

/-! ### Access errors (R401, R406, R414) -/

/-- An access is recorded in DEV_ACC_ERR_ADDR and counted (R401, R406). -/
def State.accRecord (s : State) (addr : BitVec 24) (write : Bool) : State :=
  { s.count 0x18 1 with errAddr := BitVec.ofNat 24 (addr.toNat / 4 * 4), errWrite := write }

/-- Byte enables that are not contiguous (R406). -/
def gapped (be : BitVec 4) : Bool :=
  decide (be = 0b0101 ∨ be = 0b1001 ∨ be = 0b1010 ∨ be = 0b1011 ∨ be = 0b1101)

/-! ### Fields that act (R405) -/

/-- The bits of the W1C or CMD field of a word that lies in more than one byte; 0 where there is none. -/
def wideField (a : Nat) : Word :=
  if a = clkA 0x24 ∨ a = brgA 0x20A0 then 0xFFFF
  else if a = memA 0x204 then 0xFFF
  else if (decide (brgA 0x2000 ≤ a) && decide (a < brgA 0x2080)) || decide (a = lnkA 0x44 ∨ a = memA 0x200) ||
    (decide (hostA 0x400 ≤ a) && decide (a < hostA 0x40C)) then ~~~0
  else 0

/-- The bits that a write acts on: a field in several bytes acts only where every byte of it is enabled (R405). -/
def actMask (a : Nat) (be : BitVec 4) : Word :=
  if wideField a &&& ~~~(beMask be) = 0 then beMask be else beMask be &&& ~~~(wideField a)

/-! ### RW fields with an effect of their own at the write -/

/-- A write to the RW fields of a word (R405, R411). -/
def State.writeRw (s : State) (a : Nat) (be : BitVec 4) (data : Word) : State :=
  let m := beMask be
  if 0x400000 ≤ a ∧ a < 0x403000 then
    let c : Lvl := Fin.ofNat 48 ((a - 0x400000) / 256)
    let o := a % 256
    if o = 0 ∧ 7 ≤ fld (merge (s.cfgW a) data m) 3 0 then (s.rwWrite a data (m &&& ~~~0xF)).setBit (lvlA c 0x18) 4
    else if o = 4 then (s.codeNote c).rwWrite a data m
    else s.rwWrite a data m
  else if 0x200000 ≤ a ∧ a < 0x300000 ∧ a % 0x10000 = 0x108 then
    let w : Lane := Fin.ofNat 16 ((a - 0x200000) / 0x10000)
    (((s.ncoSync (s.clk.now * 1024) w).rwWrite a data m).bandFollow (s.clk.now * 1024) w)
  else if 0x71000 ≤ a ∧ a < 0x72000 ∧ a % 0x40 = 0x20 then
    (s.rwWrite a data m).lowWater (Fin.ofNat 64 ((a - 0x71000) / 0x40))
  else if a = brgA 0x20A8 then
    let s1 := s.rwWrite a data m
    if be.getLsbD 0 then { s1 with brg := { s1.brg with watchValid := false } } else s1
  else if hostA 0x800 ≤ a ∧ a < hostA 0x980 then
    let k := (a - hostA 0x800) / 4
    let was := (s.mapWord k).getLsbD 31
    let s1 := s.rwWrite a data m
    if !was && s1.causePending k then s1.postCause k else s1
  else s.rwWrite a data m

/-! ### Writes to the words that hold no RW row -/

/-- FLT_RD_COUNT: its enabled bytes replace those of the present count (R405, R463). -/
def State.writeFltRd (s : State) (be : BitVec 4) (data : Word) : State :=
  if be = 0 then s else s.fltRdWrite (merge s.flt.rd data (beMask be))

/-- PG_FL_RD_COUNT acts only with every byte enabled (R239, R405). -/
def State.writeFlRd (s : State) (g : Pg) (be : BitVec 4) (data : Word) : State :=
  if be = 0xF then onward s (execFlRdCountWrite g data s) else s

/-- STRM_TAIL acts only with both its bytes enabled (R386, R405). -/
def State.writeTail (s : State) (c : Ctx) (be : BitVec 4) (data : Word) : State :=
  if be.getLsbD 0 ∧ be.getLsbD 1 then onward s (execStrmTailWrite c (data.setWidth 16) s) else s

/-- An MSI-X table word (R378, R397): an unmasked vector that is pending sends its message. -/
def State.writeMsix (s : State) (k : Nat) (be : BitVec 4) (data : Word) : State :=
  let keep : Word := if k % 4 = 3 then 1 else ~~~0
  ({ s with host := { s.host with msixTable := smPut msixReset s.host.msixTable k
                                    (merge (s.msixWord k) data (beMask be &&& keep)) } }).sendVectors

/-! ### W1C fields -/

/-- A write of 1 clears flags (R408); suppression bits (R293), pending causes (R378) and SAFE_PARK (R467) clear by
their rows. -/
def State.writeW1c (s : State) (a : Nat) (m : Word) : State :=
  if m = 0 then s
  else if brgA 0x2000 ≤ a ∧ a < brgA 0x2020 then s.seeDue.clearFlag a m
  else if brgA 0x2060 ≤ a ∧ a < brgA 0x2080 then onward s (execStormSuppClear (Fin.ofNat 8 ((a - brgA 0x2060) / 4)) m s)
  else if hostA 0x400 ≤ a ∧ a < hostA 0x40C then onward s (execIntPendClear (Fin.ofNat 3 ((a - hostA 0x400) / 4)) m s)
  else if a = fltA 0x14 then if m.getLsbD 1 then onward s (execSafeParkClear s) else s
  else s.clearFlag a m

/-! ### CMD fields (R409): held until a management tick takes them, or at once -/

/-- One bit acts at once by the meaning of its row. -/
def State.cmdNow (s : State) (m : Word) (i : Nat) (f : State → Host.Outcome State Fault Refusal) : State :=
  if m.getLsbD i then onward s (f s) else s

/-- Bits wait for the management tick that takes them. -/
def State.cmdWait (s : State) (a : Nat) (m bits : Word) : State := if m &&& bits = 0 then s else s.cmdHold a (m &&& bits)

/-- CMD fields of the device-global block: CANCEL and RELEASE act at once, the others at a management tick (R65, R411). -/
def State.cmdDevice (s : State) (a : Nat) (m : Word) : State :=
  if a = 0x10 then s.cmdNow m 2 execDevCntClr
  else if a = 0x100 then s.cmdWait a m 1
  else if a = 0x130 then
    let s1 := s.cmdWait a m 0x300
    let s2 := if m.getLsbD 9 then { s1 with ovl := { s1.ovl with applies := s1.ovl.applies + 1 } } else s1
    (s2.cmdNow m 10 execOvlCancel).cmdNow m 11 execOvlRelease
  else s

/-- CMD fields of the clocks-and-power block: cluster resets act at once, in ascending order (R447). -/
def State.cmdClocks (s : State) (a : Nat) (m : Word) : State :=
  if a = clkA 0 then s.cmdWait a m 1
  else if a = clkA 0x10 then
    ((allFin 8).foldl (fun s (n : Clu) => s.cmdNow m n.val (execClusterReset n)) s).cmdWait a m 0x100
  else if a = clkA 0x44 then s.cmdNow m 0 execPwrCntClr
  else s

/-- CMD fields of the Bridge block. -/
def State.cmdBridge (s : State) (a : Nat) (m : Word) : State :=
  if a = brgA 0x20A0 then s.cmdWait a m 0xFFFF
  else if a = brgA 0x20A4 then s.cmdNow m 0 execBrgCntClr
  else if brgA 0x2800 ≤ a ∧ a < brgA 0x2900 ∧ a % 32 = 0 then s.cmdWait a m 3
  else s

/-- CMD fields of the placement block: each GO keeps the parameters last written before it (R133). -/
def State.cmdPlacement (s : State) (a : Nat) (m : Word) : State :=
  if a = plcA 0 then
    if m.getLsbD 0 then
      let x := (fld (s.cfgW (plcA 4)) 16 0, fld (s.cfgW (plcA 8)) 12 0, BitVec.ofNat 8 (fld (s.cfgW (plcA 0)) 15 8))
      (s.cmdShow a 1).modPlc (fun p => { p with goes := p.goes ++ [x] })
    else s
  else if a = plcA 0x40 then s.cmdNow m 1 execPubCntClr
  else s

/-- CMD fields of the DRAM controller: a RETRAIN while a training runs is dropped (R336). -/
def State.cmdDram (s : State) (a : Nat) (m : Word) : State :=
  if a = drmA 0x10 then
    let s1 := if m.getLsbD 0 ∧ s.dram.training ≠ .none then s.setBit (drmA 0x24) 6 else s.cmdWait a m 1
    s1.cmdNow m 2 execDramCntClr
  else s

/-- CMD fields of the host block. -/
def State.cmdHost (s : State) (a : Nat) (m : Word) : State :=
  if a = hostA 4 then s.cmdNow m 2 execHostCntClr
  else if 0x71000 ≤ a ∧ a < 0x72000 ∧ a % 0x40 = 0 then s.cmdWait a m 3
  else s

/-- START, STOP and ABORT of one write (R102): START gives way to the others with CMD_DROPPED, and STOP to ABORT. -/
def State.cmdRun (s : State) (n : Clu) (m : Word) : State :=
  let s1 :=
    if m &&& 6 = 0 then s.cmdWait (cluA n 0) m 1 else s.setBitIf (m.getLsbD 0) (cluA n 0x40) 3
  let s2 := if m.getLsbD 2 then s1.cmdNow m 2 (execCluAbort n) else s1.cmdNow m 1 (execCluStop n)
  s2.cmdNow m 4 (execCluCntClr n)

/-- CMD fields of a cluster window. -/
def State.cmdCluster (s : State) (n : Clu) (o : Nat) (m : Word) : State :=
  if o = 0 then s.cmdRun n m
  else if o = 0x104 then (s.cmdWait (cluA n o) m 0x10).cmdNow m 5 (execJmpCntClr n)
  else if o = 0x140 then s.cmdNow m 2 (execLateCntClr n)
  else s

/-- CMD fields of a lane window. -/
def State.cmdLane (s : State) (w : Lane) (o : Nat) (m : Word) : State :=
  if o = 0x20 then s.cmdNow m 0 (execNcoLoad w)
  else if o = 0x38 then s.cmdNow m 0 (execWlnCntClr w)
  else if o = 0x110 then ((s.cmdShow (armA w) (m &&& 7)).cmdWait (armNewA w) m 7).cmdNow m 3 (execCompCntClr w)
  else s

/-- CMD fields of a pin-group window. -/
def State.cmdGroup (s : State) (g : Pg) (o : Nat) (m : Word) : State :=
  if o = 4 then (s.cmdNow m 0 (execFfArm g)).cmdNow m 1 (execPgCntClr g)
  else if o = 0x100 then (s.cmdWait (pgA g o) m 1).cmdNow m 1 (execTsgCntClr g)
  else s

/-- CMD fields of the level-channel block. -/
def State.cmdLevel (s : State) (a : Nat) (m : Word) : State :=
  if a < 0x403000 then
    let c : Lvl := Fin.ofNat 48 ((a - 0x400000) / 256)
    if a % 256 = 0x10 then (s.cmdNow m 2 (execLvlReconnect c)).cmdNow m 3 (execLvlCntClr c) else s
  else if a < 0x403180 ∧ a % 0x40 = 0 then
    (s.cmdWait a m 1).cmdNow m 2 (execLgCntClr (Fin.ofNat 6 ((a - 0x403000) / 0x40)))
  else s

/-- A write of 1 to CMD bits (R408, R409). -/
def State.writeCmd (s : State) (a : Nat) (m : Word) : State :=
  if m = 0 then s
  else if a < 0x10000 then s.cmdDevice a m
  else if a < 0x20000 then s.cmdClocks a m
  else if a < 0x30000 then if a = fltA 0 then s.cmdNow m 0 execFltCntClr else s
  else if a < 0x40000 then s.cmdBridge a m
  else if a < 0x50000 then s.cmdPlacement a m
  else if a < 0x60000 then s.cmdDram a m
  else if a < 0x70000 then if a = memA 0x210 then s.cmdNow m 0 execMemCntClr else s
  else if a < 0x80000 then s.cmdHost a m
  else if a < 0x90000 then if a = lnkA 0 then (s.cmdWait a m 1).cmdNow m 8 execLnkCntClr else s
  else if a < 0x200000 then s.cmdCluster (Fin.ofNat 8 ((a - 0x100000) / 0x10000)) (a % 0x10000) m
  else if a < 0x300000 then s.cmdLane (Fin.ofNat 16 ((a - 0x200000) / 0x10000)) (a % 0x10000) m
  else if a < 0x340000 then s.cmdGroup (Fin.ofNat 4 ((a - 0x300000) / 0x10000)) (a % 0x10000) m
  else if a < 0x400000 then
    if a % 0x1000 = 0xC then s.cmdNow m 0 (execPinCntClr (Fin.ofNat 64 ((a - 0x340000) / 0x1000))) else s
  else s.cmdLevel a m

/-! ### The access -/

/-- A write to a word of a register table (R405, R408). -/
def State.writeFields (s : State) (a : Nat) (be : BitVec 4) (data : Word) : State :=
  let m := data &&& actMask a be
  (((s.writeRw a be data).writeW1c a m).writeCmd a m)

/-- A write to a served canonical address. -/
def State.writeServed (s : State) (a : Nat) (be : BitVec 4) (data : Word) : State :=
  if 0x800000 ≤ a ∨ inMatrix a then s.sharedWriteHeld a be data
  else if a = fltA 0xC then s.writeFltRd be data
  else if 0x78000 ≤ a ∧ a < 0x78400 then s.writeMsix ((a - 0x78000) / 4) be data
  else if 0x71000 ≤ a ∧ a < 0x72000 ∧ a % 0x40 = 0x18 then s.writeTail (Fin.ofNat 64 ((a - 0x71000) / 0x40)) be data
  else if 0x300000 ≤ a ∧ a < 0x340000 ∧ a % 0x10000 = 0x38 then
    s.writeFlRd (Fin.ofNat 4 ((a - 0x300000) / 0x10000)) be data
  else s.writeFields a be data

/-- A BAR0 word write (R401, R406). -/
def State.bar0Write (s : State) (addr : BitVec 24) (be : BitVec 4) (data : Word) : State :=
  let c := canon addr.toNat
  if gapped be || c.isNone then ((s.setBitIf (gapped be) 0x10 0).setBitIf c.isNone 0x10 1).accRecord addr true
  else match c with
    | some a => if s.servedNow a then s.writeServed a be data else s
    | none => s

/-- An aligned 64-bit write: the low word, then in the next tick the high word. No boundary lies between them: at one in the next tick
both halves wait (R404; DESIGN CHOICE, log 11). -/
def State.bar0Pair (s : State) (addr : BitVec 24) (lo hi : BitVec 4 × Word) : State :=
  let at_ := s.clk.now
  let s1 := (s.bar0Write addr lo.1 lo.2).upto (at_ + 1)
  let s2 := match canon addr.toNat with
    | some a => if (rwRow? a).isSome then s1.keepWord a (s.cfgW a) else s1
    | none => s1
  s2.bar0Write (addr + 4) hi.1 hi.2

/-- A write of several words: in ascending order, the word at place i in tick t + i (R403). -/
def State.bar0Words (s : State) (t : Nat) (addr : BitVec 24) : List (BitVec 4 × Word) → State
  | [] => s
  | w :: ws => ((s.upto t).bar0Write addr w.1 w.2).bar0Words (t + 1) (addr + 4) ws

/-- A write request from tick t on: two words at an offset that is a multiple of 8 are an aligned 64-bit access, and every other request is
taken word by word (R403, R404). -/
def State.bar0Request (s : State) (t : Nat) (addr : BitVec 24) (words : List (BitVec 4 × Word)) : State :=
  match words with
  | [lo, hi] => if addr.toNat / 4 % 2 = 0 then s.bar0Pair addr lo hi else s.bar0Words t addr words
  | _ => s.bar0Words t addr words

/-- A BAR0 read of one word returns it. -/
def State.bar0Answer (s : State) (w : Word) : State := { s with host := { s.host with bar0Data := w, bar0More := [] } }

/-- A BAR0 word read (R401, R407): its only effects are the returned word, the record of an unmapped access, and what R358 and R362 make of a
read of the fail log (log 11). -/
def State.bar0Read (s : State) (addr : BitVec 24) : State :=
  match canon addr.toNat with
  | none => ((s.setBit 0x10 1).accRecord addr false).bar0Answer 0
  | some a => (s.failLogSeen a).bar0Answer (s.readWord a)

/-- A read of `count` words: the lowest first, the word at place i in tick t + i (R403, R404, R413). -/
def State.bar0ReadWords (s : State) (t : Nat) (addr : BitVec 24) : Nat → State
  | 0 => s
  | 1 => (s.upto t).bar0Read addr
  | n + 1 =>
    let s1 := (s.upto t).bar0Read addr
    let s2 := s1.bar0ReadWords (t + 1) (addr + 4) n
    { s2 with host := { s2.host with bar0Data := s1.host.bar0Data, bar0More := s2.host.bar0Data :: s2.host.bar0More } }

/-- REGISTER_WRITE (R400 to R411; DESIGN CHOICE, log 11): a BAR0 access taken from tick t on. Where the host interface is cut off or
the device is held in reset, a read completes with all ones and a write is discarded (R434, R444, R461). -/
def execRegisterWrite (t : Nat) (addr : BitVec 24) (op : Bar0Op) (s : State) : Host.Outcome State Fault Refusal :=
  s.guarded fun s =>
    let s := s.upto t
    let t := s.clk.now
    if s.heldInReset || s.hostCut then
      match op with
      | .read => { s with host := { s.host with bar0Data := ~~~0, bar0More := [] } }
      | .readWords n => { s with host := { s.host with bar0Data := ~~~0, bar0More := List.replicate (min 128 n - 1) (~~~0) } }
      | _ => s
    else
      match op with
      | .read => s.bar0Read addr
      | .readWords n => s.bar0ReadWords t addr (min 128 n)
      | .write be data => s.bar0Write addr be data
      | .writePair be data =>
        s.bar0Request t addr [(be.setWidth 4, data.setWidth 32), (be.extractLsb' 4 4, data.extractLsb' 32 32)]
      | .writeWords words => s.bar0Request t addr (words.take 128)

end Sys2Proof.Machine
end

