-- ==== Sys2Proof/Machine/Dispatch.lean ====
section
/-! DEFINITION. The dispatch: one arm per command, each one call of its meaning. -/

namespace Sys2Proof.Machine

/-- The effect of a command on everything but the queue (one arm per row of the table). -/
def exec (i : Instr) (s : State) : Host.Outcome State Fault Refusal :=
  match i with
  | .powerOn bootSel => Sys2Proof.Machine.execPowerOn bootSel s
  | .resetNAssert t => Sys2Proof.Machine.execResetNAssert t s
  | .resetNRelease t bootSel => Sys2Proof.Machine.execResetNRelease t bootSel s
  | .perstNAssert t cause => Sys2Proof.Machine.execPerstNAssert t cause s
  | .perstNRelease t bootSel => Sys2Proof.Machine.execPerstNRelease t bootSel s
  | .warmReset => Sys2Proof.Machine.execWarmReset s
  | .warmResetRelease => Sys2Proof.Machine.execWarmResetRelease s
  | .clusterReset n => Sys2Proof.Machine.execClusterReset n s
  | .clusterResetPark n => Sys2Proof.Machine.execClusterResetPark n s
  | .linkReset => Sys2Proof.Machine.execLinkReset s
  | .managementTick pch pcl => Sys2Proof.Machine.execManagementTick pch pcl s
  | .epoch t slips => Sys2Proof.Machine.execEpoch t slips s
  | .epochLate => Sys2Proof.Machine.execEpochLate s
  | .pllUnlock t pll => Sys2Proof.Machine.execPllUnlock t pll s
  | .pllRelock t pll => Sys2Proof.Machine.execPllRelock t pll s
  | .aonPeriodUpdate ticks => Sys2Proof.Machine.execAonPeriodUpdate ticks s
  | .powerGo => Sys2Proof.Machine.execPowerGo s
  | .powerBlockAnswer t block => Sys2Proof.Machine.execPowerBlockAnswer t block s
  | .quietResumeDone => Sys2Proof.Machine.execQuietResumeDone s
  | .winterSaveDone => Sys2Proof.Machine.execWinterSaveDone s
  | .winterCommitCycle => Sys2Proof.Machine.execWinterCommitCycle s
  | .wakeNEdge t staysLow => Sys2Proof.Machine.execWakeNEdge t staysLow s
  | .wakeTimerExpiry => Sys2Proof.Machine.execWakeTimerExpiry s
  | .thawPhaseDone crcOk aonCycles bootSel => Sys2Proof.Machine.execThawPhaseDone crcOk aonCycles bootSel s
  | .imgLoad => Sys2Proof.Machine.execImgLoad s
  | .imgFetchDone ok bytes => Sys2Proof.Machine.execImgFetchDone ok bytes s
  | .imgCheckDone => Sys2Proof.Machine.execImgCheckDone s
  | .dramTrainDone failed => Sys2Proof.Machine.execDramTrainDone failed s
  | .imgApplyDone => Sys2Proof.Machine.execImgApplyDone s
  | .ovlValidate => Sys2Proof.Machine.execOvlValidate s
  | .ovlValidateDone => Sys2Proof.Machine.execOvlValidateDone s
  | .ovlApply => Sys2Proof.Machine.execOvlApply s
  | .ovlCancel => Sys2Proof.Machine.execOvlCancel s
  | .ovlRelease => Sys2Proof.Machine.execOvlRelease s
  | .ovlQuietPoint => Sys2Proof.Machine.execOvlQuietPoint s
  | .ovlApplyDone => Sys2Proof.Machine.execOvlApplyDone s
  | .cluStart n => Sys2Proof.Machine.execCluStart n s
  | .cluStop n => Sys2Proof.Machine.execCluStop n s
  | .cluAbort n => Sys2Proof.Machine.execCluAbort n s
  | .cluCntClr n => Sys2Proof.Machine.execCluCntClr n s
  | .clusterStartRelease n => Sys2Proof.Machine.execClusterStartRelease n s
  | .firstSegmentStart n => Sys2Proof.Machine.execFirstSegmentStart n s
  | .finalFret n => Sys2Proof.Machine.execFinalFret n s
  | .triggerPulseEnd line => Sys2Proof.Machine.execTriggerPulseEnd line s
  | .matchCut n => Sys2Proof.Machine.execMatchCut n s
  | .abortPark n => Sys2Proof.Machine.execAbortPark n s
  | .markerFire n slot => Sys2Proof.Machine.execMarkerFire n slot s
  | .conditionRequest n c => Sys2Proof.Machine.execConditionRequest n c s
  | .jumpDecision n => Sys2Proof.Machine.execJumpDecision n s
  | .jumpTargetRead n => Sys2Proof.Machine.execJumpTargetRead n s
  | .jumpRefusalCheck n => Sys2Proof.Machine.execJumpRefusalCheck n s
  | .jumpSwitch n => Sys2Proof.Machine.execJumpSwitch n s
  | .jmpFire n => Sys2Proof.Machine.execJmpFire n s
  | .jmpCntClr n => Sys2Proof.Machine.execJmpCntClr n s
  | .lateCheck n reader sample => Sys2Proof.Machine.execLateCheck n reader sample s
  | .latePark n => Sys2Proof.Machine.execLatePark n s
  | .lateSaturate n => Sys2Proof.Machine.execLateSaturate n s
  | .skipResume n => Sys2Proof.Machine.execSkipResume n s
  | .lateCntClr n => Sys2Proof.Machine.execLateCntClr n s
  | .ncoLoad w => Sys2Proof.Machine.execNcoLoad w s
  | .ncoPlanRead w => Sys2Proof.Machine.execNcoPlanRead w s
  | .ncoAction w => Sys2Proof.Machine.execNcoAction w s
  | .qbGlideEnd w => Sys2Proof.Machine.execQbGlideEnd w s
  | .wlnCntClr w => Sys2Proof.Machine.execWlnCntClr w s
  | .laneArm w => Sys2Proof.Machine.execLaneArm w s
  | .laneDisarm w => Sys2Proof.Machine.execLaneDisarm w s
  | .laneCal w => Sys2Proof.Machine.execLaneCal w s
  | .govAdmit => Sys2Proof.Machine.execGovAdmit s
  | .armProbeEnd w probeFails => Sys2Proof.Machine.execArmProbeEnd w probeFails s
  | .spanChangeStart w => Sys2Proof.Machine.execSpanChangeStart w s
  | .spanChangeEnd w probeFails => Sys2Proof.Machine.execSpanChangeEnd w probeFails s
  | .calDone w ofs gain => Sys2Proof.Machine.execCalDone w ofs gain s
  | .wComplianceFlag w side t => Sys2Proof.Machine.execWComplianceFlag w side t s
  | .wOpenLoadFlag w t => Sys2Proof.Machine.execWOpenLoadFlag w t s
  | .compCntClr w => Sys2Proof.Machine.execCompCntClr w s
  | .ffArm g => Sys2Proof.Machine.execFfArm g s
  | .pgCntClr g => Sys2Proof.Machine.execPgCntClr g s
  | .pinCntClr p => Sys2Proof.Machine.execPinCntClr p s
  | .flRdCountWrite g v => Sys2Proof.Machine.execFlRdCountWrite g v s
  | .failRecordWrite g => Sys2Proof.Machine.execFailRecordWrite g s
  | .tcal g => Sys2Proof.Machine.execTcal g s
  | .tcalDone g => Sys2Proof.Machine.execTcalDone g s
  | .tsgCntClr g => Sys2Proof.Machine.execTsgCntClr g s
  | .lvlOeWrite c => Sys2Proof.Machine.execLvlOeWrite c s
  | .lvlSpanWrite c => Sys2Proof.Machine.execLvlSpanWrite c s
  | .lvlSpanChangeEnd c => Sys2Proof.Machine.execLvlSpanChangeEnd c s
  | .lvlConnect c => Sys2Proof.Machine.execLvlConnect c s
  | .loadNEdge t => Sys2Proof.Machine.execLoadNEdge t s
  | .lgLoad g => Sys2Proof.Machine.execLgLoad g s
  | .loadCapture g => Sys2Proof.Machine.execLoadCapture g s
  | .loadInstant g => Sys2Proof.Machine.execLoadInstant g s
  | .lvlComplianceFlag c t => Sys2Proof.Machine.execLvlComplianceFlag c t s
  | .lvlOpenLoopFlag c t => Sys2Proof.Machine.execLvlOpenLoopFlag c t s
  | .lvlReconnect c => Sys2Proof.Machine.execLvlReconnect c s
  | .lvlCntClr c => Sys2Proof.Machine.execLvlCntClr c s
  | .lgCntClr g => Sys2Proof.Machine.execLgCntClr g s
  | .monConversion result => Sys2Proof.Machine.execMonConversion result s
  | .bridgeHop => Sys2Proof.Machine.execBridgeHop s
  | .stormSuppress p => Sys2Proof.Machine.execStormSuppress p s
  | .stormSuppClear word mask => Sys2Proof.Machine.execStormSuppClear word mask s
  | .timerStart k => Sys2Proof.Machine.execTimerStart k s
  | .timerStop k => Sys2Proof.Machine.execTimerStop k s
  | .timerExpiry k => Sys2Proof.Machine.execTimerExpiry k s
  | .brgSwFire mask => Sys2Proof.Machine.execBrgSwFire mask s
  | .brgCntClr => Sys2Proof.Machine.execBrgCntClr s
  | .eviEdge b level t => Sys2Proof.Machine.execEviEdge b level t s
  | .evoPulseEnd b => Sys2Proof.Machine.execEvoPulseEnd b s
  | .portTrained p t neighbour => Sys2Proof.Machine.execPortTrained p t neighbour s
  | .portDown p t cause => Sys2Proof.Machine.execPortDown p t cause s
  | .beaconSend => Sys2Proof.Machine.execBeaconSend s
  | .beaconReceive p t cells => Sys2Proof.Machine.execBeaconReceive p t cells s
  | .eventCellReceive p t cell => Sys2Proof.Machine.execEventCellReceive p t cell s
  | .messageRelease => Sys2Proof.Machine.execMessageRelease s
  | .slotCheck origin => Sys2Proof.Machine.execSlotCheck origin s
  | .ensembleFound => Sys2Proof.Machine.execEnsembleFound s
  | .membChangedCheck => Sys2Proof.Machine.execMembChangedCheck s
  | .lnkCntClr => Sys2Proof.Machine.execLnkCntClr s
  | .accessIssue tag t => Sys2Proof.Machine.execAccessIssue tag t s
  | .accessLand dest t edc round => Sys2Proof.Machine.execAccessLand dest t edc round s
  | .refreshDue g t rtWaiting => Sys2Proof.Machine.execRefreshDue g t rtWaiting s
  | .nbrRefresh g t => Sys2Proof.Machine.execNbrRefresh g t s
  | .pageClose g bank => Sys2Proof.Machine.execPageClose g bank s
  | .dramRetrain => Sys2Proof.Machine.execDramRetrain s
  | .shortTrainDone failed => Sys2Proof.Machine.execShortTrainDone failed s
  | .dramCntClr => Sys2Proof.Machine.execDramCntClr s
  | .pubGo => Sys2Proof.Machine.execPubGo s
  | .publishRun => Sys2Proof.Machine.execPublishRun s
  | .luthierReevaluate => Sys2Proof.Machine.execLuthierReevaluate s
  | .capoStaticSwitch => Sys2Proof.Machine.execCapoStaticSwitch s
  | .pubCntClr => Sys2Proof.Machine.execPubCntClr s
  | .tuneBlockStart => Sys2Proof.Machine.execTuneBlockStart s
  | .tunePhaseDone testPassed => Sys2Proof.Machine.execTunePhaseDone testPassed s
  | .memoryClearDone k => Sys2Proof.Machine.execMemoryClearDone k s
  | .memCntClr => Sys2Proof.Machine.execMemCntClr s
  | .lbAccess t write addr be data => Sys2Proof.Machine.execLbAccess t write addr be data s
  | .bar2Access t write addr be data => Sys2Proof.Machine.execBar2Access t write addr be data s
  | .bar4Read addr len edc => Sys2Proof.Machine.execBar4Read addr len edc s
  | .bar4Write addr bytes => Sys2Proof.Machine.execBar4Write addr bytes s
  | .bar4WriteDrain edc => Sys2Proof.Machine.execBar4WriteDrain edc s
  | .registerWrite t addr op => Sys2Proof.Machine.execRegisterWrite t addr op s
  | .intPendClear word mask => Sys2Proof.Machine.execIntPendClear word mask s
  | .strmOpen n => Sys2Proof.Machine.execStrmOpen n s
  | .strmClose n => Sys2Proof.Machine.execStrmClose n s
  | .strmTailWrite n v => Sys2Proof.Machine.execStrmTailWrite n v s
  | .descFetch n descs => Sys2Proof.Machine.execDescFetch n descs s
  | .streamPieceLand n piece => Sys2Proof.Machine.execStreamPieceLand n piece s
  | .streamDmaError n code => Sys2Proof.Machine.execStreamDmaError n code s
  | .bmeChange t bme d3hot => Sys2Proof.Machine.execBmeChange t bme d3hot s
  | .hostCntClr => Sys2Proof.Machine.execHostCntClr s
  | .faultRecordWrite => Sys2Proof.Machine.execFaultRecordWrite s
  | .fltRdCountWrite v => Sys2Proof.Machine.execFltRdCountWrite v s
  | .fltCntClr => Sys2Proof.Machine.execFltCntClr s
  | .watchdogTimeout => Sys2Proof.Machine.execWatchdogTimeout s
  | .safeParkClear => Sys2Proof.Machine.execSafeParkClear s
  | .pwrCntClr => Sys2Proof.Machine.execPwrCntClr s
  | .devCntClr => Sys2Proof.Machine.execDevCntClr s
  | .extest => Sys2Proof.Machine.execExtest s
  | .sample => Sys2Proof.Machine.execSample s
  | .idcode => Sys2Proof.Machine.execIdcode s
  | .highz => Sys2Proof.Machine.execHighz s
  | .clamp => Sys2Proof.Machine.execClamp s
  | .extestPulse => Sys2Proof.Machine.execExtestPulse s
  | .extestTrain => Sys2Proof.Machine.execExtestTrain s
  | .fuseRead => Sys2Proof.Machine.execFuseRead s
  | .fuseProg value tjInRange => Sys2Proof.Machine.execFuseProg value tjInRange s
  | .fuseProgDone failed => Sys2Proof.Machine.execFuseProgDone failed s
  | .bypass code => Sys2Proof.Machine.execBypass code s
  | .jtagTestExit next bootSel => Sys2Proof.Machine.execJtagTestExit next bootSel s
  | .smbId => Sys2Proof.Machine.execSmbId s
  | .smbRev => Sys2Proof.Machine.execSmbRev s
  | .smbStatus => Sys2Proof.Machine.execSmbStatus s
  | .smbTemp n => Sys2Proof.Machine.execSmbTemp n s
  | .smbAlertStatus write pecOk => Sys2Proof.Machine.execSmbAlertStatus write pecOk s
  | .smbAlertMask write pecOk => Sys2Proof.Machine.execSmbAlertMask write pecOk s
  | .smbTempLimit write pecOk => Sys2Proof.Machine.execSmbTempLimit write pecOk s
  | .smbAlertResponse => Sys2Proof.Machine.execSmbAlertResponse s
  | .tempConversion n reading => Sys2Proof.Machine.execTempConversion n reading s
  | .supplyFall rail => Sys2Proof.Machine.execSupplyFall rail s
  | .modulatorCycle w => Sys2Proof.Machine.execModulatorCycle w s
  | .vectorStart g => Sys2Proof.Machine.execVectorStart g s
  | .strobe p sel x => Sys2Proof.Machine.execStrobe p sel x s
  | .aerError k => Sys2Proof.Machine.execAerError k s
  | .smbusTimeout => Sys2Proof.Machine.execSmbusTimeout s

end Sys2Proof.Machine
end

