-- ==== Sys2Proof/Safety.lean ====
section
/-! DEFINITION. What counts as safe: the canonical forms that every state of a run has, the outputs that hold safe
values, and a run that meets no fault. -/
namespace Sys2Proof.Machine

/-- DRAM and the exchange RAM in canonical form: the byte that an unlisted address reads as is not listed (R366, R494). -/
def State.memOk (s : State) : Bool :=
  Memory.wf (Config.dramByte s.dram.gen) s.dram.cells && Memory.wf (fun _ => 0) s.mem.xram

/-- The register stores in canonical form. -/
def State.regsOk (s : State) : Bool :=
  smWf resetWord s.cfg && smWf resetWord s.eff && smWf (fun _ => ({} : Evt)) s.flg && smWf (fun _ => ({} : Ctr)) s.ctr &&
    smWf (fun _ => (0 : Word)) s.cmd && smWf (fun _ => (0 : Word)) s.more

/-- No output ball can leave its safe level: every lane is off, every channel open, every pin parked, and no trigger
or event line is up (R47). -/
def State.outputsSafe (s : State) : Bool :=
  s.wl.toList.all (fun l => decide (l.state = .off)) && s.lvl.toList.all (fun l => decide (l.state = .opened)) &&
    decide (s.trgOut = 0) && decide (s.evoOut = 0)

/-- A run of k steps from s meets no fault and no refusal. -/
def SafeRun (k : Nat) (s : State) : Prop := ∃ t, Sys2Proof.core.run k s = .next t

/-! ### Frames: which parts of the state a command may change -/

/-- A part of the state, as a frame names it. -/
inductive Field where
  | part | clk | pwr | img | ovl | trg | cfg | eff | flg | ctr | cmd | more | err | tabs | was | clu | wl | gov | pg | pin | lvl | lg
  | mon | brg | link | dram | bytes | mem | xram | host | msix | flt | plc | jtag | smb | undef | freeN | pending
  | chip | memForm | regForm
  deriving DecidableEq, Repr

/-- Every programmed fuse stays programmed, and what no reset changes stays as it is (R37, R415, R490). -/
def Part.sameChip (p q : Part) : Prop :=
  q.variant = p.variant ∧ q.grade20 = p.grade20 ∧ q.siliconRev = p.siliconRev ∧ q.compat = p.compat ∧ q.deviceId = p.deviceId ∧
    q.keyHash &&& p.keyHash = p.keyHash ∧ (p.keySet = true → q.keySet = true) ∧ (p.signedOnly = true → q.signedOnly = true)

/-- How two states agree on a part: they hold the same there. `bytes` are the bytes of object space, `xram` those of
the exchange RAM, `msix` the MSI-X messages pending and sent; `dram`, `mem` and `host` are what is left of those blocks.
Of `chip` a programmed fuse stays programmed; `memForm` and `regForm` say that a canonical form is kept. -/
def Agree (f : Field) (s t : State) : Prop :=
  match f with
  | .part => t.part = s.part
  | .clk => t.clk = s.clk
  | .pwr => t.pwr = s.pwr
  | .img => t.img = s.img
  | .ovl => t.ovl = s.ovl
  | .trg => t.trg = s.trg
  | .cfg => t.cfg = s.cfg
  | .eff => t.eff = s.eff
  | .flg => t.flg = s.flg
  | .ctr => t.ctr = s.ctr
  | .cmd => t.cmd = s.cmd
  | .more => t.more = s.more
  | .err => t.errAddr = s.errAddr ∧ t.errWrite = s.errWrite
  | .tabs => t.tabs = s.tabs
  | .was => t.was = s.was
  | .clu => t.clu = s.clu
  | .wl => t.wl = s.wl
  | .gov => t.gov = s.gov
  | .pg => t.pg = s.pg
  | .pin => t.pin = s.pin
  | .lvl => t.lvl = s.lvl
  | .lg => t.lg = s.lg
  | .mon => t.mon = s.mon
  | .brg => t.brg = s.brg
  | .link => t.link = s.link
  | .bytes => t.dram.cells = s.dram.cells ∧ t.dram.gen = s.dram.gen
  | .dram => { t.dram with cells := s.dram.cells, gen := s.dram.gen } = s.dram
  | .xram => t.mem.xram = s.mem.xram
  | .mem => { t.mem with xram := s.mem.xram } = s.mem
  | .msix => t.host.msixPending = s.host.msixPending ∧ t.host.msixSent = s.host.msixSent ∧ t.host.msixLast = s.host.msixLast
  | .host => { t.host with
      msixPending := s.host.msixPending, msixSent := s.host.msixSent, msixLast := s.host.msixLast } = s.host
  | .flt => t.flt = s.flt
  | .plc => t.plc = s.plc
  | .jtag => t.jtag = s.jtag
  | .smb => t.smb = s.smb
  | .undef => t.undef = s.undef
  | .freeN => t.freeN = s.freeN
  | .pending => t.pending = s.pending
  | .chip => s.part.sameChip t.part
  | .memForm => s.memOk = true → t.memOk = true
  | .regForm => s.regsOk = true → t.regsOk = true

/-- Two states agree but on the parts of a list. -/
def Within (l : List Field) (s t : State) : Prop := ∀ f, f ∉ l → Agree f s t

/-! ### The vocabulary of the statements -/

/-- The command gives a next state, of which P holds. -/
def Gives (c : Instr) (s : State) (P : State → Prop) : Prop := ∃ t, exec c s = .next t ∧ P t

/-- The words of HOST_INT_PEND, in which a rising W1C bit makes its cause pending (R377). -/
def pendWords : List Nat := [hostA 0x400, hostA 0x404, hostA 0x408]

/-- No W1C word changes but those listed and HOST_INT_PEND. -/
def FlagsBut (l : List Nat) (s t : State) : Prop := ∀ a, a ∉ l → a ∉ pendWords → t.flag a = s.flag a

/-- No counter changes but those listed. -/
def CtrsBut (l : List Nat) (s t : State) : Prop := ∀ a, a ∉ l → t.counter a = s.counter a

/-- No waiting CMD bit changes but in the words listed. -/
def CmdsBut (l : List Nat) (s t : State) : Prop :=
  ∀ a, a ∉ l → t.cmdWord a = s.cmdWord a ∧ smGet (fun _ => 0) t.more a = smGet (fun _ => 0) s.more a

/-- The bits of a mask of a CMD word are taken: they clear, or present a further request (R409); no other waiting bit changes. -/
def Takes (a : Nat) (m : Word) (s t : State) : Prop :=
  t.cmdWord a = (s.cmdWord a &&& ~~~m) ||| (smGet (fun _ => 0) s.more a &&& m) ∧
    smGet (fun _ => 0) t.more a = smGet (fun _ => 0) s.more a &&& ~~~m ∧ CmdsBut [a] s t

/-- The bits of a mask of a CMD word are dropped with their further requests; no other waiting bit changes. -/
def Drops (a : Nat) (m : Word) (s t : State) : Prop :=
  t.cmdWord a = s.cmdWord a &&& ~~~m ∧ smGet (fun _ => 0) t.more a = smGet (fun _ => 0) s.more a &&& ~~~m ∧ CmdsBut [a] s t

/-- No RW word changes but those listed, neither as written nor in force. -/
def WordsBut (l : List Nat) (s t : State) : Prop := ∀ a, a ∉ l → t.cfgW a = s.cfgW a ∧ t.effW a = s.effW a

/-- No cluster changes but cluster n. -/
def CluBut (n : Clu) (s t : State) : Prop := ∀ m, m ≠ n → t.clu[m] = s.clu[m]

/-- No lane changes but lane w. -/
def WlBut (w : Lane) (s t : State) : Prop := ∀ v, v ≠ w → t.wl[v] = s.wl[v]

/-- No pin group changes but group g. -/
def PgBut (g : Pg) (s t : State) : Prop := ∀ h, h ≠ g → t.pg[h] = s.pg[h]

/-- No pin changes but those of group g. -/
def PinsBut (g : Pg) (s t : State) : Prop := ∀ p : PinIdx, p.val / 16 ≠ g.val → t.pin[p] = s.pin[p]

/-- No level channel changes but channel c. -/
def LvlBut (c : Lvl) (s t : State) : Prop := ∀ d, d ≠ c → t.lvl[d] = s.lvl[d]

/-- No load group changes but group g. -/
def LgBut (g : Lg) (s t : State) : Prop := ∀ h, h ≠ g → t.lg[h] = s.lg[h]

/-- No stream context changes but context c. -/
def CtxBut (c : Ctx) (s t : State) : Prop := ∀ d, d ≠ c → t.host.ctxs[d] = s.host.ctxs[d]

/-- No DRAM channel changes but channel g. -/
def ChanBut (g : Chan) (s t : State) : Prop := ∀ h, h ≠ g → t.dram.chans[h] = s.dram.chans[h]

end Sys2Proof.Machine
end

