-- ==== Sys2Proof/Certificates/Slice0/Obligations.lean ====
section
/-! DEFINITION. The statements for the provers, from the spec's rules: the queue and the invariants first, then what each
command does and leaves alone, family by family. -/
open Sys2Proof Sys2Proof.Machine

/-- A step takes the command at the front of the queue and answers what exec answers on the state with the rest of the
queue. (The queue is the model's own: the form that this block's description asks for.) -/
def Obligations.StepRunsFrontCommand : Prop :=
  ∀ (c : Instr) (s : State) (q : List Instr), s.pending = c :: q → step s = exec c { s with pending := q }

/-- On an empty queue a step leaves the whole state as it is. This is the model's choice (log 1): time passes only with
the commands that carry it. -/
def Obligations.EmptyQueueIdles : Prop := ∀ s : State, s.pending = [] → step s = .next s

/-- Whatever the command and the state, a command that gives a next state leaves the queue of waiting commands as it
was: the block takes what is sent to it, first in, first out, and sends itself nothing. -/
def Obligations.CommandsLeaveTheQueue : Prop :=
  ∀ (c : Instr) (s t : State), exec c s = .next t → t.pending = s.pending

/-- From every state, reachable or not, a step that gives a next state keeps the part's variant, grade, revision, COMPAT
and DEVICE_ID, keeps every programmed bit of KEY_HASH, and never clears KEY_SET or SIGNED_ONLY (R37, R414, R490). -/
def Obligations.ProgrammedFusesStay : Prop := ∀ s t : State, step s = .next t → s.part.sameChip t.part

/-- From every state in which DRAM, the exchange RAM and the register stores are in canonical form (keys strictly rising,
no entry equal to what an unlisted one reads as), a step gives only states in which they are. -/
def Obligations.MemoriesStayCanonical : Prop :=
  ∀ s t : State, s.memOk = true → s.regsOk = true → step s = .next t → t.memOk = true ∧ t.regsOk = true

/-- After reset the memories and register stores are in canonical form, no command waits, every lane is OFF, every level channel OPEN, and no trigger or
event line is up (R47). The device is unconfigured (R47), AON_PERIOD reads 104,857,600 (R418), the time base is 0 and not valid (R310), no DRAM
content is ready (R335), the registers read their reset words, no flag is set, every counter is 0, and every cluster is IDLE with STOP_REASON 0
(R98, R103). -/
def Obligations.ResetState : Prop :=
  (State.reset.memOk = true ∧ State.reset.regsOk = true ∧ State.reset.pending = [] ∧ State.reset.outputsSafe = true) ∧
    State.reset.img.state = .unconfigured ∧ State.reset.clk.aonPeriod = 104857600 ∧ State.reset.tb = 0 ∧
    State.reset.clk.timeValid = false ∧ State.reset.clk.epochCount = 0 ∧ State.reset.dram.ready = false ∧
    State.reset.pwr.phase = .none ∧ State.reset.flt.safePark = false ∧ State.reset.flt.wr = 0 ∧
    (∀ a, State.reset.cfgW a = resetWord a ∧ State.reset.effW a = resetWord a ∧ State.reset.flag a = 0 ∧
      State.reset.counter a = 0 ∧ State.reset.cmdWord a = 0) ∧
    (∀ n : Clu, State.reset.clu[n].state = .idle ∧ State.reset.clu[n].stopReason = 0) ∧
    (∀ w : Lane, State.reset.wl[w].state = .off ∧ State.reset.wl[w].fs = 160)

/-- While no rail has fallen, every command gives a next state. After a fall of a rail other than VDD_AON and VDD_CORE,
every command but a power-on, RESET_N, PERST_N and a further fall stops with behaviourUndefined, and those four give a
next state (R471: undefined until RESET_N or PERST_N). No command is ever refused. -/
def Obligations.OnlyUndefinedBehaviourFaults : Prop :=
  ∀ (c : Instr) (s : State),
    let brings := match c with
      | .powerOn _ | .resetNAssert _ | .perstNAssert _ _ | .supplyFall _ => true
      | _ => false
    (s.undef = false ∨ brings = true → ∃ t, exec c s = .next t) ∧
      (s.undef = true → brings = false → exec c s = .fault .behaviourUndefined)

/-- RESET_N and PERST_N (but for a link-down that belongs to Winter, R439) end any undefined behaviour, hold the device,
record their cause in RST_CAUSE (1, 2), and leave every cluster, lane, pin group, pin and level channel at its reset value,
the device unconfigured, every register word at its reset value, every counter at 0, and DRAM with nothing known
(R444, R448, R494). Only the part, the test port, the SMBus port and FLT_SAFE survive; the exchange RAM survives PERST_N
while it is powered, and the memories that the reset clears show it in CLEARING (R366). A Winter link-down changes nothing but the tick.
Two clauses are the model's choice: that STOP_REASON reads 0, its reset value, and not RESET (log 22, beside R99), and that the SMBus port
keeps its registers (log 23, beside R491). -/
def Obligations.ColdResetsInvalidate : Prop :=
  let cold := fun (s t : State) (tick : Nat) (cause : BitVec 3) =>
    t.pwr.rstCause = cause ∧ t.heldInReset = true ∧ t.clk.now = max s.clk.now tick ∧ t.undef = false ∧
    t.img.state = .unconfigured ∧ t.clu = State.reset.clu ∧ t.wl = State.reset.wl ∧ t.pg = State.reset.pg ∧
    t.pin = State.reset.pin ∧ t.lvl = State.reset.lvl ∧ t.link = State.reset.link ∧ t.plc = State.reset.plc ∧
    t.tabs = {} ∧ t.dram.cells = [] ∧ t.dram.gen = s.dram.gen + 1 ∧ t.dram.configured = false ∧
    (∀ a, t.cfgW a = resetWord a ∧ t.effW a = resetWord a ∧ t.counter a = 0 ∧ t.cmdWord a = 0) ∧
    (∀ a, a ≠ fltA 0x14 → t.flag a = 0) ∧ t.flag (fltA 0x14) = s.flag (fltA 0x14) ∧
    t.part = s.part ∧ t.jtag = s.jtag ∧ t.smb = s.smb ∧ t.pending = s.pending ∧ t.freeN = s.freeN
  ∀ (s : State) (tick : Nat),
    Gives (.resetNAssert tick) s (fun t => cold s t tick 1 ∧ t.pwr.resetLow = true ∧ t.pwr.perstLow = s.pwr.perstLow ∧
      t.mem = { clearing := clearBit .tables ||| clearBit .xram }) ∧
    (∀ cause : PerstCause, cause ≠ .linkDown ∨ s.winterLink = false →
      Gives (.perstNAssert tick cause) s (fun t => cold s t tick 2 ∧ t.pwr.perstLow = true ∧ t.pwr.resetLow = s.pwr.resetLow ∧
        t.mem = if s.xramUnpowered then { clearing := clearBit .tables ||| clearBit .xram }
          else { xram := s.mem.xram, clearing := clearBit .tables })) ∧
    (s.winterLink = true → Gives (.perstNAssert tick .linkDown) s (fun t => t.clk.now = max s.clk.now tick ∧ Within [.clk] s t))

/-- A fall of VDD_AON or VDD_CORE is a power-on reset that holds the device (R471), and without VDD_AON every ball of boundary scan, FAULT_N
among them, is undriven (R472): every W1C word, the SMBus port but its
address pins, the test port, WINTER_AON and the last heartbeat return to reset (R448). The part keeps every programmed fuse, KEY_SET and
SIGNED_ONLY as they were; only a fuse programming that the fall cut short can have left its marks on KEY_HASH (R490). POWER_ON ends the hold with
RST_CAUSE 0 and samples the SMBus address pins (R491);
with no pin holding the device and BOOT_SEL high the load of the primary copy begins (R43, R450), with BOOT_SEL low the device
stays unconfigured, and under RESET_N or PERST_N it stays held. A fall of any other rail marks the behaviour undefined and
changes nothing else. -/
def Obligations.PowerOnAndSupplyFalls : Prop :=
  let keeps := fun (s t : State) => s.part.sameChip t.part ∧ t.part.keySet = s.part.keySet ∧ t.part.signedOnly = s.part.signedOnly ∧
    (s.jtag.fusing = none → t.part = s.part)
  ∀ (s : State) (balls : PowerOnBalls),
    (∀ rail : Rail, rail = .vddAon ∨ rail = .vddCore → Gives (.supplyFall rail) s (fun t =>
      t.pwr.porHold = true ∧ t.pwr.rstCause = 0 ∧ t.pwr.winterAon = 0 ∧ t.undef = false ∧ t.img.state = .unconfigured ∧
      (∀ a, t.flag a = 0) ∧ t.jtag = {} ∧ t.smb = { addrPins := s.smb.addrPins } ∧ t.flt.lastBeat = 0 ∧
      t.mem = { clearing := 15 } ∧ t.dram.cells = [] ∧ t.wl = State.reset.wl ∧ t.lvl = State.reset.lvl ∧ keeps s t ∧
      (rail = .vddAon → t.faultN = none ∧ ∀ b : Ball, t.ballDrive b = .off) ∧ t.pending = s.pending)) ∧
    (∀ rail : Rail, rail ≠ .vddAon → rail ≠ .vddCore →
      Gives (.supplyFall rail) s (fun t => t.undef = true ∧ Within [.undef] s t)) ∧
    Gives (.powerOn balls) s (fun t => t.smb = { addrPins := balls.smbAd } ∧ t.faultN = some true ∧ t.pwr.porHold = false ∧ t.pwr.rstCause = 0 ∧ t.undef = false ∧
      t.wl = State.reset.wl ∧ t.lvl = State.reset.lvl ∧ t.clu = State.reset.clu ∧ keeps s t ∧ t.pending = s.pending ∧
      t.heldInReset = (s.pwr.resetLow || s.pwr.perstLow) ∧
      t.img.state = (if balls.bootSel && !t.heldInReset then .fetch else .unconfigured) ∧
      (t.img.state = .fetch → t.img.src = 1) ∧ (t.heldInReset = false → t.tb = 0))

/-- RESET_N_RELEASE and PERST_N_RELEASE drop their pin's hold. While something else still holds the device nothing but the
pins and the tick changes; with the last hold gone the clears have completed (R366), the time base starts at 0 and is not valid, the watchdog
watches, from now where it did not and else after its pause, a load that a reset interrupted is reported as ABORTED, and BOOT_SEL high begins
the load of the primary copy (R43, R52, R450, R460). WARM_RESET_RELEASE acts once no overlay is being applied. With a configured DRAM it starts
the short training, and the release ends with it; without one, or where a full training that was cut off starts again, it ends at once. Its end
sets WARM_DONE, starts the time base at 0, restarts the play clocks as the plan says and ends the watchdog's pause (R337, R446, R460). The
clause on the end of the training is for no command held and no relock that asks for another. -/
def Obligations.ResetReleases : Prop :=
  let released := fun (s t : State) (bootSel : Bool) =>
    t.tb = 0 ∧ t.clk.timeValid = false ∧ t.clk.firstEpoch = true ∧ t.flt.watching = true ∧ t.flt.pausedAt = none ∧
    (s.flt.watching = false → t.flt.beatAt = t.clk.now) ∧
    (∀ p, s.flt.watching = true → s.flt.pausedAt = some p → t.flt.beatAt = s.flt.beatAt + (t.clk.now - p)) ∧
    t.mem.clearing = (if bootSel then clearBit .tables else 0) ∧
    (s.img.aborted = true → t.img.errCode = 0x10 ∧ t.img.aborted = false) ∧
    (bootSel = true → t.img.state = .fetch ∧ t.img.src = 1 ∧ t.img.fallbackNext = true) ∧
    (bootSel = false → t.img.state = s.img.state) ∧
    Within [.clk, .pwr, .img, .flg, .tabs, .link, .mem, .host, .msix, .flt] s t
  let ended := fun s t : State =>
    t.pwr.phase = .none ∧ t.pwr.releasing = false ∧ t.tb = 0 ∧ t.clk.firstEpoch = true ∧ t.flag (clkA 0xC) = s.flag (clkA 0xC) ||| bit32 5 ∧
    t.clk.patRun = s.clk.plan.extractLsb' 8 4 ∧ t.clk.convRun = s.clk.plan.extractLsb' 0 4 ∧ t.flt.pausedAt = none ∧
    (∀ p, s.flt.pausedAt = some p → t.flt.beatAt = s.flt.beatAt + (s.clk.now - p)) ∧
    t.cmdWord (clkA 0x10) = (s.cmdWord (clkA 0x10) &&& ~~~(bit32 8)) ||| (smGet (fun _ => 0) s.more (clkA 0x10) &&& bit32 8) ∧
    Within [.clk, .pwr, .img, .flg, .cmd, .more, .link, .dram, .msix, .flt] s t
  ∀ (s : State) (tick : Nat) (bootSel : Bool), s.undef = false →
    (s.pwr.resetLow = true → Gives (.resetNRelease tick bootSel) s (fun t =>
      t.pwr.resetLow = false ∧ t.clk.now = max s.clk.now tick ∧
      t.heldInReset = (s.pwr.porHold || s.pwr.perstLow || s.pwr.jtagHold) ∧
      (t.heldInReset = true → Within [.clk, .pwr] s t) ∧ (t.heldInReset = false → released s t bootSel))) ∧
    (s.pwr.perstLow = true → Gives (.perstNRelease tick bootSel) s (fun t =>
      t.pwr.perstLow = false ∧ t.clk.now = max s.clk.now tick ∧
      t.heldInReset = (s.pwr.porHold || s.pwr.resetLow || s.pwr.jtagHold) ∧
      (t.heldInReset = true → Within [.clk, .pwr] s t) ∧ (t.heldInReset = false → released s t bootSel))) ∧
    (s.pwr.phase = .resetting → s.ovl.applying = none → s.pwr.releasing = false →
      (s.dram.configured = true → s.dram.againFull = false → Gives .warmResetRelease s (fun t =>
        t.pwr = { s.pwr with releasing := true } ∧ t.dram.training = .short ∧ t.dram.trainAt = s.clk.now ∧ t.dram.selfRefresh = false ∧
        t.dram.ready = false ∧ Within [.pwr, .dram] s t)) ∧
      (s.dram.configured = false ∨ s.dram.againFull = true → Gives .warmResetRelease s (fun t => ended s t ∧
        (s.dram.configured = true → t.dram.training = .retrain ∧ t.dram.againFull = false ∧ t.dram.selfRefresh = false ∧ t.dram.ready = false) ∧
        (s.dram.configured = false → t.dram = s.dram)))) ∧
    (s.pwr.releasing = true → s.dram.training = .short → s.dram.shortNext = false → s.pwr.held = [] →
      Gives (.shortTrainDone none) s (fun t => ended s t ∧ t.dram.training = .none ∧ t.dram.ready = s.clk.pll.getLsbD 6))

/-- A warm reset taken outside any request leaves every cluster IDLE with STOP_REASON = RESET, every lane OFF, every level channel
OPEN, OE cleared, no jump scheduled on a cluster that was playing or playing out, no host object held by one that was playing, the governor and the Bridge's events empty, every trigger line low, RST_CAUSE = 3, and a configured DRAM in
self-refresh (R352, R445, R446), and PG_FL_RD_COUNT of every group at 0 (R445); SPAN_NOW and the active code of every channel stay (R269), and a loaded image stays loaded (R51).
A base load in progress ends with the device unconfigured (R51). In safe park the write is dropped without effect (R461), and while
a request or a warm reset is in progress it is dropped with CMD_DROPPED (R446). That an already idle cluster also reads
STOP_REASON = RESET is the model's choice (log 22), and so is that requests pending stay for their decision (log 14). -/
def Obligations.WarmResetStopsEverything : Prop :=
  ∀ s : State, s.undef = false → s.heldInReset = false →
    (s.flt.safePark = true → Gives .warmReset s (fun t => (t.cmdWord (clkA 0x10)).getLsbD 8 = false ∧
      CmdsBut [clkA 0x10] s t ∧ Within [.cmd, .more] s t)) ∧
    (s.flt.safePark = false → s.pwr.phase ≠ .none → s.pwr.phase ≠ .quiet → Gives .warmReset s (fun t =>
      t.flag (clkA 0xC) = s.flag (clkA 0xC) ||| bit32 6 ∧ FlagsBut [clkA 0xC] s t ∧ Within [.flg, .cmd, .more, .msix] s t)) ∧
    (s.flt.safePark = false → s.pwr.phase = .none ∨ s.pwr.phase = .quiet → Gives .warmReset s (fun t =>
      t.pwr.phase = .resetting ∧ t.pwr.rstCause = 3 ∧ t.pwr.held = [] ∧
      (∀ n : Clu, t.clu[n].state = .idle ∧ t.clu[n].stopReason = 5 ∧ t.clu[n].stack = [] ∧ t.clu[n].resetPark = none ∧
        (s.clu[n].state ≠ .idle ∨ s.clu[n].resetPark.isSome = true → t.clu[n].sched = none) ∧
        (s.clu[n].state ≠ .idle → t.clu[n].hosted = none) ∧
        (s.loading = false → t.clu[n].pend = s.clu[n].pend ∧ t.clu[n].arriving = s.clu[n].arriving)) ∧
      (∀ w : Lane, t.wl[w].state = .off) ∧ t.gov = {} ∧ (∀ c : Lvl, t.lvl[c].state = .opened ∧ t.lvl[c].oe = false) ∧
      (∀ g : Pg, t.pg[g].flRd = 0) ∧ t.trg = {} ∧ t.brg.inFlight = [] ∧ t.brg.evo = 0 ∧ t.clk.aligned &&& 0x0FFF = 0 ∧
      (s.loading = false → t.img = s.img ∧ (∀ c : Lvl, t.lvl[c].span = s.lvl[c].span ∧ t.lvl[c].active = s.lvl[c].active) ∧
        (s.dram.configured = true → t.dram.selfRefresh = true ∧ t.dram.ready = false ∧ t.dram.training = .none)) ∧
      (s.loading = true → t.img.state = .unconfigured ∧ t.img.aborted = true) ∧
      t.part = s.part ∧ t.jtag = s.jtag ∧ t.smb = s.smb ∧ t.mem.xram = s.mem.xram ∧ t.pending = s.pending))

/-- CLUSTER_RESET makes its cluster IDLE with STOP_REASON = RESET, an empty loop stack, no request and no late fault pending, and
its counters at 0; a START of it that is held is cleared, and a cluster that was playing parks at t + D (R447). It also returns every PENDING overlay but the one being applied to
VALID, as any reset does (R62; the model's reading, log 21). CLUSTER_RESET_PARK is that park: the tick moves on to it, a jump still
scheduled is cancelled and counted (R121, R122), and the groups that other clusters bind, and every other cluster, stay as they are. -/
def Obligations.ClusterResets : Prop :=
  ∀ (s : State) (n : Clu), s.undef = false →
    Gives (.clusterReset n) s (fun t =>
      t.clu[n].state = .idle ∧ t.clu[n].stopReason = 5 ∧ t.clu[n].stack = [] ∧ t.clu[n].arriving = [] ∧ t.clu[n].pend = [] ∧
      t.clu[n].latePend = none ∧ t.clu[n].abortAt = none ∧ t.clu[n].starts.val = 0 ∧
      (s.clu[n].state = .run ∨ s.clu[n].state = .stopping → t.clu[n].resetPark = some (s.clk.now + s.leadOf n)) ∧
      (∀ a ∈ cluCtrs n, t.counter a = 0) ∧
      (s.clu[n].state ≠ .idle → (t.flag (cluA n 0x40)).getLsbD 1 = true) ∧
      t.ovl.queue = s.ovl.queue.filter (fun k => decide (s.ovl.applying = some k)) ∧
      t.pwr = { s.pwr with held := s.pwr.held.filter (fun i => decide (i ≠ Instr.cluStart n)) } ∧
      CluBut n s t ∧ Within [.pwr, .ovl, .eff, .flg, .ctr, .cmd, .more, .tabs, .clu, .wl, .gov, .pg, .host, .msix, .plc] s t) ∧
    (∀ p, s.clu[n].resetPark = some p → Gives (.clusterResetPark n) s (fun t =>
      t.clu[n].state = s.clu[n].state ∧ t.clu[n].resetPark = none ∧ t.clu[n].outStack = [] ∧ t.clu[n].sched = none ∧
      t.clu[n].stack = s.clu[n].stack ∧ t.clu[n].pend = s.clu[n].pend ∧ t.clu[n].arriving = s.clu[n].arriving ∧
      (s.clu[n].sched.isSome = true → (t.flag (cluA n 0x118)).getLsbD 8 = true ∧
        t.counter (cluA n 0x12C) = min (s.counter (cluA n 0x12C) + 1) 0xFFFFFFFF) ∧ t.clk.now = max s.clk.now p ∧
      CluBut n s t ∧ (∀ g : Pg, s.clu[n].pgBound.getLsbD g = false → t.pg[g] = s.pg[g]) ∧
      (∀ q : PinIdx, s.clu[n].pgBound.getLsbD (q.val / 16) = false → t.pin[q] = s.pin[q]) ∧
      Within [.clk, .flg, .ctr, .clu, .pg, .pin, .msix, .plc] s t))

/-- A link reset leaves the view: OFF without EN, else CANDIDATE with JOIN and ALONE without; no index, no authority, no message
held or awaited, and every enabled port trains again while the others are DOWN. A MEMBER that leaves so sets LEFT (R326, R328). The
command is taken, with a further request presented anew (R409), and nothing but the link, its flags and counters changes and the PENDING
overlays, which return to VALID but for the one being applied (R62; the model's reading, log 21). The device's own messages whose span
is open stay under watch (R324). -/
def Obligations.LinkResetLeaves : Prop :=
  ∀ s : State, s.undef = false → Gives .linkReset s (fun t =>
    t.link.state = (if s.lnkEn then (if s.lnkJoin then .candidate else .alone) else .off) ∧ t.link.view = 0 ∧
    t.link.memberIdx = 0 ∧ t.link.auth = false ∧ t.link.pendView = none ∧ t.link.origins = [] ∧ t.link.heldMsgs = [] ∧
    t.link.sent = s.link.sent ∧ t.link.seen = [] ∧ t.ovl.queue = s.ovl.queue.filter (fun k => decide (s.ovl.applying = some k)) ∧ t.link.reach = 0 ∧
    (∀ p : Fin 4, t.link.ports[p].state = if s.portEn p then .train else .down) ∧
    (s.link.state = .member → (t.flag (lnkA 0x40)).getLsbD 1 = true) ∧
    t.cmdWord (lnkA 0) = (s.cmdWord (lnkA 0) &&& ~~~1) ||| (smGet (fun _ => 0) s.more (lnkA 0) &&& 1) ∧
    CmdsBut [lnkA 0] s t ∧ FlagsBut [lnkA 0x40] s t ∧ Within [.ovl, .flg, .ctr, .cmd, .more, .link, .msix] s t)

/-- While CK_CORE drives the device, MANAGEMENT_TICK acts in the tick of the next multiple of 1,024 of the time base, also where a later tick has been told of, and the
tick of a restart that is such a multiple counts (R412); it snapshots the time base, and, where no held command runs again in it, takes every field with the management-tick boundary into force, as it stood
before the writes of the tick itself, which wait for the next one (R411; of DRAM_CTRL the chapter on DRAM says when) and CH_NOW and CL_NOW from the balls as the inversion in force takes them (R238); no software
register changes as written. While CK_CORE does not drive the device nothing changes. -/
def Obligations.ManagementTickApplies : Prop :=
  ∀ (s : State) (balls : CompareBalls) (parityOk : Bool), s.undef = false →
    let tick := s.mgmtFrom s.clk.mgmtFrom
    let u : State := { s with clk := { s.clk with now := tick } }
    (s.coreRuns = true → Gives (.managementTick balls parityOk) s (fun t =>
      t.clk.now = max s.clk.now tick ∧ t.part = s.part ∧ t.pending = s.pending ∧
      (s.pwr.held = [] → t.clk.mgmtFrom = tick + 1 ∧ t.clk.mgmtCount = s.clk.mgmtCount + 1 ∧
        t.clk.timeSnap = BitVec.ofNat 64 (s.tbAt tick) ∧ t.cfg = s.cfg ∧
        (∀ a r, rwRow? a = some r → a ≠ drmA 0x10 →
          t.effW a &&& r.maskOf (fun b => decide (b = .mgmt)) = u.settledW a &&& r.maskOf (fun b => decide (b = .mgmt)) ∧
            (s.was.tick ≠ tick → u.settledW a = s.cfgW a)) ∧
        (∀ p : PinIdx, t.pin[p].chNow = (balls.pch.getLsbD p.val != (t.effW (pinA p 0)).getLsbD 2) ∧
          t.pin[p].clNow = (balls.pcl.getLsbD p.val != (t.effW (pinA p 0)).getLsbD 3)) ∧
        t.brg.window = [] ∧ t.clu = s.clu ∧
        Within [.clk, .pwr, .eff, .flg, .ctr, .cmd, .more, .wl, .pin, .mon, .brg, .link, .dram, .mem, .msix, .flt, .plc] s t))) ∧
    (s.coreRuns = false → Gives (.managementTick balls parityOk) s (fun t => t = s))

/-- A pulse of the EPOCH ball is registered 32 ticks after the first REFCLK rising edge (a multiple of 16: log 22) at which it is seen high,
where the ball is still high then and an edge has seen it low since the pulse before (R420); another only changes what is known of the ball. The
first EPOCH since reset or thaw anchors the time base at the least multiple of the period that is not below it, and the epoch count follows it
(R310). A later one keeps the time base; one on a multiple of the period aligns, from E + 64, every crossing that was not aligned and whose clocks
run (R421), and the next is due one period on (R425). One that is no multiple slips: TIME_SLIP is set and no crossing is checked (R310, R421). At
E + 64 each crossing that was aligned and whose pointer is off loses its alignment and is flagged, and a cluster in action that it serves and whose
alignment action is HALT stops (R422, R458, R459). EPOCH_LATE moves on to 16 ticks after the due tick and only sets its flag (R425). A pulse also
moves on the ensemble's count (log 12); an anchor that steps the time base sets TIME_STEP (R310). The clauses on a pulse are for no pending change of
the view, which LINK statements cover. -/
def Obligations.EpochAnchorsTheTimeBase : Prop :=
  ∀ (s : State) (high low : Nat) (slips : BitVec 16), s.undef = false → s.coreRuns = true →
    let e := (high + 15) / 16 * 16
    let u := s.upto (e + 32)
    let sees := e < low ∧ ∀ l, s.clk.epochLow = some l → (l + 15) / 16 * 16 < high
    let c := Instr.epoch (.pulse high low) slips
    let counts := fun t : State => t.link = { s.link with ensEpoch := s.link.ensEpoch + 1 }
    let stays := fun t : State => t.link.ensEpoch = s.link.ensEpoch + 1 ∧ t.link.state = s.link.state ∧ t.link.view = s.link.view ∧
      t.link.generation = s.link.generation ∧ t.link.memberIdx = s.link.memberIdx ∧ t.link.ports = s.link.ports
    (¬sees → Gives c s (fun t => t.clk = { s.clk with epochLow := if low ≤ e then s.clk.epochLow else some low } ∧ Within [.clk] s t)) ∧
    (sees → s.link.pendView = none → 0 ≤ (u.clk.now : Int) + s.clk.ofs →
      (s.clk.firstEpoch = true → Gives c s (fun t =>
        t.clk.now = u.clk.now ∧ t.tb % t.epochTicks = 0 ∧ u.tb ≤ t.tb ∧ t.tb < u.tb + t.epochTicks ∧ t.clk.timeValid = true ∧
        t.clk.timeCoarse = false ∧ t.clk.firstEpoch = false ∧ t.clk.epochCount = BitVec.ofNat 48 (t.tb / t.epochTicks) ∧
        t.clk.epochDue = some (t.clk.now + t.epochTicks) ∧ t.clk.epochLow = some low ∧
        (s.clk.timeCoarse = true → (t.flag (clkA 0xC)).getLsbD 9 = true) ∧ t.clu = s.clu ∧ stays t ∧
        (t.tb = u.tb → counts t) ∧ (t.tb ≠ u.tb → (t.flag (lnkA 0x40)).getLsbD 4 = true) ∧
        Within [.clk, .eff, .flg, .wl, .link, .msix] s t)) ∧
      (s.clk.firstEpoch = false → Gives c s (fun t =>
        t.clk.now = u.clk.now ∧ t.tb = u.tb ∧ t.clk.epochDue = some (t.clk.now + t.epochTicks) ∧ counts t ∧
        (u.tb % t.epochTicks = 0 → t.clk.epochCount = BitVec.ofNat 48 (u.tb / t.epochTicks) ∧
          t.clk.aligned = u.alignedNow &&& 0x0FFF ∧ t.clk.checkAt = some (t.clk.now + 64) ∧
          (∃ m : BitVec 16, t.clk.aligning = some (t.clk.now + 64, m) ∧
            ∀ i, i < 12 → m.getLsbD i = (!u.alignedNow.getLsbD i && u.crossingRuns i)) ∧
          Within [.clk, .eff, .link] s t) ∧
        (u.tb % t.epochTicks ≠ 0 → (t.flag (lnkA 0x40)).getLsbD 11 = true ∧ t.flt.seq = s.flt.seq + 1 ∧ t.clk.checkAt = none ∧
          t.clk.aligned = s.clk.aligned ∧ t.clk.aligning = s.clk.aligning ∧ Within [.clk, .eff, .flg, .ctr, .link, .msix, .flt] s t)))) ∧
    (∀ d, s.clk.checkAt = some d → Gives (.epoch .check slips) s (fun t =>
      t.clk.checkAt = none ∧ t.clk.now = max s.clk.now d ∧ t.clk.aligned = s.clk.aligned &&& ~~~(slips &&& 0x0FFF) ∧ t.tb = (s.upto d).tb ∧
      (∀ i, i < 12 → (t.flag (clkA 0x24)).getLsbD i =
        ((s.flag (clkA 0x24)).getLsbD i || (s.clk.aligned.getLsbD i && slips.getLsbD i))) ∧
      (∀ n : Clu, if s.inAction n = true ∧ s.halts n = true ∧
            (∃ i ∈ s.crossingsOf n, i < 12 ∧ s.clk.aligned.getLsbD i = true ∧ slips.getLsbD i = true)
        then t.clu[n].state = .idle ∧ t.clu[n].stopReason = 4 else t.clu[n] = s.clu[n]) ∧
      Within [.clk, .eff, .flg, .ctr, .cmd, .more, .tabs, .clu, .wl, .gov, .pg, .pin, .link, .host, .msix, .flt, .plc] s t)) ∧
    (∀ d, s.clk.epochDue = some d → Gives .epochLate s (fun t =>
      t.clk.now = max s.clk.now (d + 16) ∧ t.clk.epochDue = some (d + s.epochTicks) ∧
      t.flag (clkA 0xC) = s.flag (clkA 0xC) ||| bit32 7 ∧ FlagsBut [clkA 0xC] s t ∧ Within [.clk, .flg, .msix] s t))

/-- A PLL that loses lock while nothing holds the device clears its lock bit, sets PLL_LOST, reports one fault, and takes the alignment
from every crossing it feeds (R423, R453); of the CK_DRAM PLL also READY falls (R495). Every cluster in LEAD, RUN or STOPPING that such a
crossing serves and whose alignment action is HALT stops with a fault (R458, R459); every other cluster is untouched, and so are all
where CK_CORE itself lost its clock (log 22), which takes the alignment of the link receive crossings too until their ports train again. A relock
sets the bit again, but CK_CORE's never relocks; after one of CK_DRAM the short training of a configured, awake DRAM starts, at once or after the
training in progress (R495). AON_PERIOD takes the count of a completed run while CK_CORE drives the device (R418). -/
def Obligations.PllsLoseAndRegainLock : Prop :=
  ∀ (s : State) (tick : Nat) (pll : Fin 8), s.undef = false →
    (s.heldInReset = false → s.clk.pll.getLsbD pll.val = true → Gives (.pllUnlock tick pll) s (fun t =>
      t.clk.pll = s.clk.pll &&& ~~~(1#8 <<< pll.val) ∧ t.clk.now = max s.clk.now tick ∧ (t.flag (clkA 0xC)).getLsbD 8 = true ∧
      t.flt.seq = s.flt.seq + 1 ∧ (∀ i ∈ pllCrossings pll, t.alignedNow.getLsbD i = false) ∧ (pll = 6 → t.dram.ready = false) ∧
      (∀ n : Clu, if pll ≠ 0 ∧ s.inAction n = true ∧ s.halts n = true ∧ (∃ i ∈ s.crossingsOf n, i ∈ pllCrossings pll)
        then t.clu[n].state = .idle ∧ t.clu[n].stopReason = 4 else t.clu[n] = s.clu[n]) ∧
      Within [.clk, .eff, .flg, .ctr, .cmd, .more, .tabs, .clu, .wl, .gov, .pg, .pin, .link, .dram, .host, .msix, .flt, .plc] s t)) ∧
    (s.heldInReset = false → s.clk.pll.getLsbD pll.val = false → pll ≠ 0 → Gives (.pllRelock tick pll) s (fun t =>
      t.clk = { s.clk with now := max s.clk.now tick, pll := s.clk.pll ||| (1#8 <<< pll.val) } ∧
      (if pll = 6 ∧ s.dram.configured = true ∧ s.dram.selfRefresh = false then
          (if s.dram.training = .none then t.dram.training = .short else t.dram = { s.dram with shortNext := true })
        else t.dram = s.dram) ∧ Within [.clk, .dram] s t)) ∧
    (s.heldInReset = false → Gives (.pllRelock tick 0) s (fun t =>
      t.clk = { s.clk with now := max s.clk.now tick } ∧ Within [.clk] s t)) ∧
    (∀ ticks, s.coreRuns = true → Gives (.aonPeriodUpdate ticks) s (fun t =>
      t.clk = { s.clk with aonPeriod := ticks } ∧ Within [.clk] s t))

/-- GO is taken with the TARGET in force (R430): from RUN or QUIET towards WINTER, or from RUN towards QUIET, the blocks are asked; RUN
in QUIET starts the play clocks again and resumes; anything else is dropped with CMD_DROPPED and CODE = DROPPED. A block that refuses ends
the request in the next tick with CODE = REFUSED, its number and the REFUSED flag (R432). A block that agrees is prepared; when the last agrees, a
request for QUIET stops CK_PAT and CK_CONV, puts DRAM into self-refresh where the policy asks for it, and sets its flag (R429, R433),
and one for WINTER goes on to SAVING (R434), for which the last AON_PERIOD is kept (R443) and the watchdog's count stands (R460).
QUIET_RESUME_DONE ends RESUMING (R429). Where commands were held they act again, which these clauses leave to the commands' own statements.
Two clauses are the model's choice (DEDUCED, log 22): a WINTER request made in QUIET and refused returns to QUIET, where R432 speaks of RUN
and IDLE alone, and a GO that is dropped leaves RESULT's BLOCK and the phase as they are. -/
def Obligations.PowerRequests : Prop :=
  ∀ s : State, s.undef = false →
    (let target := s.effF (clkA 0) 5 4
     ((s.pwr.phase = .none ∧ (target = 1 ∨ target = 2)) ∨ (s.pwr.phase = .quiet ∧ target = 2) → Gives .powerGo s (fun t =>
        t.pwr.phase = .preparing ∧ t.pwr.target.toNat = target ∧ t.pwr.agreed = [] ∧
        t.pwr.wasQuiet = decide (s.pwr.phase = .quiet) ∧ t.pwr.prepared = s.pwr.prepared ∧ CmdsBut [clkA 0] s t ∧
        Within [.pwr, .cmd, .more] s t)) ∧
     (s.pwr.phase = .quiet ∧ target = 0 → Gives .powerGo s (fun t => t.pwr.phase = .resuming ∧
        t.clk.patRun = s.clk.plan.extractLsb' 8 4 ∧ t.clk.convRun = s.clk.plan.extractLsb' 0 4 ∧
        (s.dram.selfRefresh = true → t.dram.training = .short ∧ t.dram.selfRefresh = false) ∧ CmdsBut [clkA 0] s t ∧
        Within [.clk, .pwr, .cmd, .more, .dram] s t)) ∧
     ((s.pwr.phase ≠ .none ∧ s.pwr.phase ≠ .quiet) ∨ target = 3 ∨ (s.pwr.phase = .none ∧ target = 0) ∨
        (s.pwr.phase = .quiet ∧ target = 1) → Gives .powerGo s (fun t =>
        t.pwr = { s.pwr with resCode := 3 } ∧ t.flag (clkA 0xC) = s.flag (clkA 0xC) ||| bit32 6 ∧ FlagsBut [clkA 0xC] s t ∧
        CmdsBut [clkA 0] s t ∧ Within [.pwr, .flg, .cmd, .more, .msix] s t))) ∧
    (∀ (tick : Nat) (b : Fin 13), s.pwr.phase = .preparing →
      let all := if s.pwr.agreed.contains b then s.pwr.agreed else s.pwr.agreed ++ [b]
      (s.blockRefuses s.pwr.target b = true → s.pwr.held = [] → Gives (.powerBlockAnswer tick b) s (fun t =>
        t.pwr.phase = (if s.pwr.wasQuiet then .quiet else .none) ∧ t.pwr.resCode = 2 ∧ t.pwr.resBlock.toNat = b.val ∧
        t.pwr.agreed = [] ∧ t.clk.now = max s.clk.now tick + 1 ∧ t.flag (clkA 0xC) = s.flag (clkA 0xC) ||| bit32 1 ∧
        Within [.clk, .pwr, .flg, .msix] s t)) ∧
      (s.blockRefuses s.pwr.target b = false → all.length < 13 → Gives (.powerBlockAnswer tick b) s (fun t =>
        t.pwr.phase = .preparing ∧ t.pwr.agreed = all ∧ t.pwr.prepared.contains b = true ∧ Within [.clk, .pwr, .mem] s t)) ∧
      (s.blockRefuses s.pwr.target b = false → all.length = 13 → s.pwr.target = 1 → s.pwr.held = [] →
        Gives (.powerBlockAnswer tick b) s (fun t =>
          t.pwr.phase = .quiet ∧ t.pwr.resCode = 1 ∧ t.clk.patRun = 0 ∧ t.clk.convRun = 0 ∧ t.clk.aligned &&& 0x0FFF = 0 ∧
          (t.flag (clkA 0xC)).getLsbD 0 = true ∧
          (s.pwr.quietSr = true → s.dram.configured = true → t.dram.selfRefresh = true))) ∧
      (s.blockRefuses s.pwr.target b = false → all.length = 13 → s.pwr.target ≠ 1 → Gives (.powerBlockAnswer tick b) s (fun t =>
        t.pwr.phase = .saving ∧ t.pwr.agreed = [] ∧ t.clk.aonSaved = s.clk.aonPeriod ∧
        t.flt.pausedAt = some (s.flt.pausedAt.getD (max s.clk.now tick)) ∧ Within [.clk, .pwr, .mem, .flt] s t))) ∧
    (s.pwr.phase = .resuming → s.dram.training ≠ .short → s.pwr.held = [] → Gives .quietResumeDone s (fun t =>
      t.pwr.phase = .none ∧ t.pwr.prepared = [] ∧ t.flag (clkA 0xC) = s.flag (clkA 0xC) ||| bit32 4 ∧
      FlagsBut [clkA 0xC] s t ∧ Within [.pwr, .flg, .msix] s t))

/-- WINTER_SAVE_DONE enters the commit window with a configured DRAM in self-refresh; where no accepted write
is left to drain, the parking area holds the tables' bytes and their CRC-32, but for the bursts of the copy that escape (R434). The window's cycles
stop the time base (0), CK_PAT and CK_CONV (1), and take away the tables, the staging memory and the exchange RAM (2); after cycle 6 the
device is in WINTER, whose timer then runs, or thaws at once where a wake event was latched or WAKE_N is low while it is enabled (R436, R438).
In WINTER an enabled WAKE_N, or the timer at its end, starts the thaw and is its source; in QUIET an enabled WAKE_N resumes; and whenever
the Bridge still runs, WAKE_N also fires its producer (R283, R429, R438). The order of the words in the copy and the timer's period
are log 22. -/
def Obligations.WinterAndItsWakes : Prop :=
  ∀ s : State, s.undef = false →
    (s.pwr.phase = .saving → Gives .winterSaveDone s (fun t => t.pwr = { s.pwr with phase := .commit, cycle := 0 } ∧
      (s.dram.configured = true → t.dram.selfRefresh = true ∧ t.dram.ready = false) ∧
      (s.dram.configured = true → s.host.writes = [] →
        let copy := s.tabs.words.flatMap wordBytes
        ∀ (i : Nat) (b : Byte), (copy ++ wordBytes (crc32 copy))[i]? = some b →
          (s.parkBase + i) / 64 * 64 ∉ escapesOf s.parkBursts → t.dramByte (s.parkBase + i) = b))) ∧
    (s.pwr.phase = .commit → Gives .winterCommitCycle s (fun t =>
      (s.pwr.cycle < 6 → t.pwr = { s.pwr with cycle := s.pwr.cycle + 1 }) ∧
      (s.pwr.cycle = 0 → t.clk.timeRuns = false ∧ t.clk.stoppedAt = s.clk.now ∧ ∀ p : Fin 4, t.link.ports[p].state = .down) ∧
      (s.pwr.cycle = 1 → t.clk.patRun = 0 ∧ t.clk.convRun = 0) ∧ (s.pwr.cycle = 2 → t.mem.xram = [] ∧ t.mem.slots = [] ∧ t.tabs = {}) ∧
      (6 ≤ s.pwr.cycle → s.pwr.wakeLatched = 0 → (s.wakeNEn && s.pwr.wakeLow) = false → t.pwr.phase = .winter ∧
        t.pwr.wakeAt = t.clk.now + s.wakeTicks) ∧
      (6 ≤ s.pwr.cycle → s.pwr.wakeLatched = 0 → (s.wakeNEn && s.pwr.wakeLow) = true → t.pwr.phase = .thawing ∧ t.pwr.wakeSrc = 1) ∧
      (6 ≤ s.pwr.cycle → s.pwr.wakeLatched ≠ 0 → t.pwr.phase = .thawing ∧ t.pwr.wakeSrc = s.pwr.wakeLatched ∧ t.pwr.wakeLatched = 0) ∧
      Within [.clk, .pwr, .flg, .tabs, .pg, .link, .mem, .xram, .msix, .smb] s t)) ∧
    (s.pwr.phase = .winter → s.wakeTimerEn = true → Gives .wakeTimerExpiry s (fun t =>
      t.pwr = { s.pwr with phase := .thawing, thaw := .power, wakeSrc := 2, wakeLatched := 0 } ∧
      t.clk.now = max s.clk.now s.pwr.wakeAt ∧ Within [.clk, .pwr] s t)) ∧
    (∀ (tick : Nat) (low : Bool), s.heldInReset = false →
      (s.pwr.phase = .winter → s.wakeNEn = true → Gives (.wakeNEdge tick low) s (fun t =>
        t.pwr = { s.pwr with phase := .thawing, thaw := .power, wakeSrc := 1, wakeLatched := 0, wakeLow := low } ∧
        Within [.clk, .pwr] s t)) ∧
      (s.pwr.phase = .commit → Gives (.wakeNEdge tick low) s (fun t =>
        t.pwr = { s.pwr with wakeLow := low } ∧ Within [.clk, .pwr] s t)) ∧
      (s.pwr.phase = .quiet → s.wakeNEn = true → Gives (.wakeNEdge tick low) s (fun t =>
        t.pwr.phase = .resuming ∧ t.clk.patRun = s.clk.plan.extractLsb' 8 4 ∧
        (s.configured = true → ∃ e ∈ t.brg.inFlight, e.prod = 245 ∧ e.at_ = tick))) ∧
      (s.pwr.phase = .none → s.configured = true → Gives (.wakeNEdge tick low) s (fun t =>
        t.clk.now = max s.clk.now tick ∧ (∃ e ∈ t.brg.inFlight, e.prod = 245 ∧ e.at_ = tick) ∧
        t.pwr = { s.pwr with wakeLow := low } ∧ Within [.clk, .pwr, .flg, .brg, .msix] s t)))

/-- Each THAW_PHASE_DONE goes on to the next phase of R440: the time base restarts at its stopped value plus the window's CK_AON cycles
times the AON_PERIOD kept before SAVING / 65,536, coarse and unaligned (R443), and the staging memory, the tables and the exchange RAM are
cleared, CLEARING showing it to the end of the phase CLEAR (R366); a good save list brings back the registers with every level channel OPEN in its
span with both codes, no CMD bit waiting, and the short training of a configured DRAM (R337, R435); the phase that trains DRAM waits for it;
and the last phase ends in RUN with RST_CAUSE = thaw and THAW_DONE. Where the parking copy comes whole and its CRC-32 agrees the tables
are those it holds (R434, R440). A CRC-32 that fails in either checked phase ends in the state of a cold
reset that is released: THAW_FAILED, RST_CAUSE = 5, and a boot where BOOT_SEL is high (R442). -/
def Obligations.ThawRunsInPhases : Prop :=
  ∀ (s : State) (crcOk : Bool) (cycles : Nat) (bootSel : Bool), s.undef = false → s.pwr.phase = .thawing →
    (s.pwr.thaw = .power → Gives (.thawPhaseDone crcOk cycles bootSel) s (fun t =>
      t.pwr = { s.pwr with thaw := .clocks } ∧ Within [.pwr] s t)) ∧
    (s.pwr.thaw = .clocks → Gives (.thawPhaseDone crcOk cycles bootSel) s (fun t =>
      t.pwr.thaw = .clear ∧ t.tb = s.tb + cycles * s.clk.aonSaved.toNat / 65536 ∧ t.clk.timeRuns = true ∧ t.clk.timeCoarse = true ∧
      t.clk.timeValid = false ∧ t.clk.firstEpoch = true ∧ t.pwr.winterAon = BitVec.ofNat 64 cycles ∧
      t.tabs = {} ∧ t.mem.slots = [] ∧ t.mem.xram = [] ∧ t.mem.clearing = s.mem.clearing ||| 7 ∧
      Within [.clk, .pwr, .tabs, .pg, .mem, .xram] s t)) ∧
    (s.pwr.thaw = .clear → Gives (.thawPhaseDone crcOk cycles bootSel) s (fun t =>
      t.pwr = { s.pwr with thaw := .registers } ∧ t.mem.clearing = s.mem.clearing &&& ~~~7 ∧ Within [.pwr, .mem] s t)) ∧
    (s.pwr.thaw = .registers → crcOk = true → Gives (.thawPhaseDone crcOk cycles bootSel) s (fun t =>
      t.pwr.phase = .thawing ∧ t.pwr.thaw = .dram ∧ t.cmd = [] ∧ t.more = [] ∧ t.pwr.held = [] ∧
      (∀ c : Lvl, t.lvl[c].state = .opened ∧ t.lvl[c].oe = false ∧ t.lvl[c].span = s.lvl[c].span ∧
        t.lvl[c].active = s.lvl[c].active) ∧
      (s.dram.configured = true → t.dram.training = .short) ∧
      Within [.pwr, .trg, .cfg, .eff, .flg, .ctr, .cmd, .more, .pg, .lvl, .lg, .mon, .brg, .link, .dram, .msix, .plc] s t)) ∧
    (s.pwr.thaw = .dram → s.dram.training ≠ .short → Gives (.thawPhaseDone crcOk cycles bootSel) s (fun t =>
      t.pwr = { s.pwr with thaw := .tables } ∧ Within [.pwr] s t)) ∧
    (s.pwr.thaw = .tables → crcOk = true → s.dram.configured = false → Gives (.thawPhaseDone crcOk cycles bootSel) s (fun t =>
      t.pwr = { s.pwr with thaw := .planned } ∧ Within [.pwr] s t)) ∧
    (s.pwr.thaw = .tables → crcOk = true → s.dram.configured = true →
      Gives (.thawPhaseDone crcOk cycles bootSel) s (fun t => escapesOf s.parkBursts = [] → s.parkRead.parkGood = true →
        t.pwr = { s.pwr with thaw := .planned } ∧ t.tabs = s.parkRead.parkedTables ∧
        Within [.flg, .ctr, .tabs, .dram, .msix, .flt, .freeN, .pwr] s t)) ∧
    (s.pwr.thaw = .planned → Gives (.thawPhaseDone crcOk cycles bootSel) s (fun t =>
      t.pwr = { s.pwr with thaw := .done } ∧ t.clk.patRun = s.clk.plan.extractLsb' 8 4 ∧
      t.clk.convRun = s.clk.plan.extractLsb' 0 4 ∧ Within [.clk, .pwr] s t)) ∧
    (s.pwr.thaw = .done → Gives (.thawPhaseDone crcOk cycles bootSel) s (fun t =>
      t.pwr.phase = .none ∧ t.pwr.rstCause = 4 ∧ t.flag (clkA 0xC) = s.flag (clkA 0xC) ||| bit32 2 ∧ FlagsBut [clkA 0xC] s t ∧
      (∀ p : Nat, s.flt.pausedAt = some p → t.flt.pausedAt = none ∧ t.flt.beatAt = s.flt.beatAt + (s.clk.now - p)) ∧
      Within [.pwr, .flg, .msix, .flt] s t)) ∧
    (s.pwr.thaw = .registers ∨ s.pwr.thaw = .tables → s.heldInReset = false →
      Gives (.thawPhaseDone crcOk cycles bootSel) s (fun t => crcOk = false ∨ (s.pwr.thaw = .tables ∧ s.thawTables.2 = false) →
        t.pwr.phase = .none ∧ t.pwr.rstCause = 5 ∧ t.pwr.resCode = 4 ∧ (t.flag (clkA 0xC)).getLsbD 3 = true ∧
        t.img.state = (if bootSel then .fetch else .unconfigured) ∧ t.dram.cells = [] ∧ t.wl = State.reset.wl ∧
        t.lvl = State.reset.lvl ∧ t.clu = State.reset.clu ∧ t.part = s.part ∧ t.jtag = s.jtag ∧ t.smb = s.smb ∧
        t.pending = s.pending))

/-- LOAD, with no load in progress: block 5 prepared for a power request holds it (R431); a host source whose address is no multiple of 64, whose
length lies outside 64 bytes to 8 MB, or without bus mastering fails with SOURCE, and a configured device with a cluster out of IDLE with
BUSY, both leaving the loaded image as it is and taking the command (R45, R46, R64); else the device is unconfigured, with every cluster IDLE
and unbound, every lane OFF, every channel OPEN, and no table, overlay, staged copy, publish, stream context, matrix row or play clock of the
old base (R46, R47), a VALIDATE that ran being dropped with SLOT_STATE (R54, R70), and FETCH begins from the source (R41, R43, R66): the flash is read with 0xEB from the copy's address (R44). IMG_FETCH_DONE goes on to CHECK with the bytes fetched, or refuses the copy with SOURCE: the flash primary of a boot then gives
way to the fallback, any other leaves the device unconfigured and takes the command (R40, R43). -/
def Obligations.BaseLoadsBeginAndFetch : Prop :=
  ∀ s : State, s.undef = false →
    (s.loading = false →
      let src := s.effF 0x100 2 1
      let len := (s.effW 0x118).toNat
      let bad := src = 0 ∧ (s.effF 0x110 5 0 ≠ 0 ∨ len < 64 ∨ 8388608 < len ∨ s.host.bme = false)
      (s.prepared 5 = true → Gives .imgLoad s (fun t => t.pwr.held = s.pwr.held ++ [.imgLoad] ∧ Within [.pwr] s t)) ∧
      (s.prepared 5 = false → bad → Gives .imgLoad s (fun t => t.img = { s.img with errCode := 0x0F, errSection := 255 } ∧
        t.flag 0x108 = s.flag 0x108 ||| bit32 16 ∧ FlagsBut [0x108] s t ∧ Takes 0x100 1 s t ∧
        Within [.img, .flg, .cmd, .more, .msix] s t)) ∧
      (s.prepared 5 = false → ¬ bad → s.configured = true → s.allIdle = false → Gives .imgLoad s (fun t =>
        t.img = { s.img with errCode := 0x11, errSection := 255 } ∧ t.flag 0x108 = s.flag 0x108 ||| bit32 16 ∧
        FlagsBut [0x108] s t ∧ Takes 0x100 1 s t ∧ Within [.img, .flg, .cmd, .more, .msix] s t)) ∧
      (s.prepared 5 = false → ¬ bad → s.configured = false ∨ s.allIdle = true → Gives .imgLoad s (fun t =>
        t.img.state = .fetch ∧ t.img.src.toNat = (if src = 3 then 1 else src) ∧ t.img.fallbackNext = decide (src = 3) ∧
        t.img.hostLen = s.effW 0x118 ∧ t.img.buf = [] ∧ t.img.fallbackUsed = false ∧ t.img.verified = false ∧ t.img.baseId = 0 ∧
        (src = 0 → t.img.flash = none) ∧
        (src ≠ 0 → ∃ f, t.img.flash = some f ∧ f.command = 0xEB ∧ f.addr = if src = 2 then 0x800000 else 0) ∧
        t.dram.configured = false ∧ t.dram.ready = false ∧
        (∀ n : Clu, t.clu[n].state = .idle ∧ t.clu[n].wBound = 0 ∧ t.clu[n].pgBound = 0) ∧
        (∀ w : Lane, t.wl[w].state = .off) ∧ (∀ c : Lvl, t.lvl[c].state = .opened ∧ t.lvl[c].span = 0 ∧ t.lvl[c].active = 0) ∧
        t.tabs = {} ∧ t.plc = {} ∧ (∀ k : Fin 16, t.ovl.slots[k] = {}) ∧ t.ovl.queue = [] ∧ t.mem.slots = [] ∧
        (∀ c : Ctx, t.host.ctxs[c].state = .closed) ∧ t.brg.inFlight = [] ∧ t.trg = {} ∧
        (∀ a, inMatrix a = true → t.cfgW a = resetWord a ∧ t.effW a = resetWord a) ∧ t.clk.convRun = 0 ∧ t.clk.patRun = 0 ∧
        (∀ k, s.ovl.validating = some k → t.ovl.resSlot.toNat = k.val ∧ t.ovl.resCode = 0x15 ∧ (t.flag 0x138).getLsbD 13 = true) ∧
        t.ovl.validating = none ∧ t.ovl.applies = s.ovl.applies ∧
        t.cmdWord 0x100 = s.cmdWord 0x100 ∧ t.part = s.part ∧ t.pending = s.pending))) ∧
    (∀ bytes, s.img.state = .fetch → Gives (.imgFetchDone true bytes) s (fun t =>
      t.img = { s.img with state := .check, buf := bytes, flash := none } ∧ Within [.img] s t)) ∧
    (∀ bytes, s.img.state = .fetch → Gives (.imgFetchDone false bytes) s (fun t =>
      t.img.errCode = 0x0F ∧ t.img.errSection = 255 ∧ t.flag 0x108 = s.flag 0x108 ||| bit32 16 ∧
      (if s.img.src = 1 ∧ s.img.fallbackNext = true
        then t.img.state = .fetch ∧ t.img.src = 2 ∧ t.img.fallbackUsed = true ∧ t.img.fallbackNext = false
        else t.img.state = .unconfigured ∧ t.img.buf = [] ∧ t.img.fallbackUsed = s.img.fallbackUsed ∧ Takes 0x100 1 s t) ∧
      FlagsBut [0x108] s t ∧
      Within [.img, .flg, .cmd, .more, .tabs, .mem, .msix] s t))

/-- IMG_CHECK_DONE reports the first failing check of the image, with its section, and refuses the copy: the flash primary of a boot gives way to
the fallback, any other copy leaves the device unconfigured and takes the LOAD (R40, R43, R496); a good image goes on to APPLY with its first two
sections, CLOCK_PLAN and DRAM_PART, written and the full training begun (R40, R335). A training that fails undoes the load and refuses it with
DRAM_TRAIN at DRAM_PART's index (R41, R335); one that passes makes DRAM ready while its PLL is locked, unless that PLL has relocked during it,
which the short training then follows (R495), and the other sections are written in order (R40). IMG_APPLY_DONE, once DRAM is ready, makes the device configured under the image's own identity and takes the LOAD
(R40, R49, R69). A RETRAIN's end sets its flag, and where it failed the fault's (R336). -/
def Obligations.BaseLoadsCheckTrainApply : Prop :=
  let lanesStay := fun s t : State => ∀ w : Lane, t.wl[w] = s.wl[w] ∨
    ∃ at_, t.wl[w] = { s.wl[w] with load := .managementTick, loadAt := at_ }
  let trained := fun s t : State => t.dram.training = (if s.dram.shortNext then .short else .none) ∧
    t.dram.ready = (!s.dram.shortNext && s.clk.pll.getLsbD 6) ∧ t.dram.shortNext = false
  ∀ s : State, s.undef = false →
    (s.img.state = .check →
      let limit := if s.img.src = 0 then some s.img.hostLen.toNat else none
      (∀ code sect, s.imageCheck s.img.buf false limit = some (code, sect) → Gives .imgCheckDone s (fun t =>
        t.img.errCode = BitVec.ofNat 8 code ∧ t.img.errSection = BitVec.ofNat 8 sect ∧
        t.flag 0x108 = s.flag 0x108 ||| bit32 16 ∧
        (if s.img.src = 1 ∧ s.img.fallbackNext = true then t.img.state = .fetch ∧ t.img.src = 2 ∧ t.img.fallbackUsed = true
          else t.img.state = .unconfigured ∧ t.img.buf = [] ∧ Takes 0x100 1 s t) ∧
        FlagsBut [0x108] s t ∧ Within [.img, .flg, .cmd, .more, .tabs, .mem, .msix] s t)) ∧
      (s.imageCheck s.img.buf false limit = none → Gives .imgCheckDone s (fun t =>
        t = ((s.modImg (fun i => { i with state := .apply, bufVerified := s.isVerified s.img.buf })).applySects s.img.buf
          ((sectTable s.img.buf).take 2)).train .full ∧
        t.img = { s.img with state := .apply, bufVerified := s.isVerified s.img.buf } ∧ t.dram.training = .full ∧
        t.dram.ready = false ∧ t.dram.trainAt = t.clk.now ∧ t.part = s.part ∧ lanesStay s t ∧ t.smb = s.smb ∧ t.pending = s.pending))) ∧
    (s.dram.training = .full → s.img.state = .apply →
      Gives (.dramTrainDone none) s (fun t => t.img = s.img ∧ trained s t ∧
        (s.dram.shortNext = false → t.dramPhase = 0) ∧ t.tabs = (s.trainPass.applySects s.img.buf ((sectTable s.img.buf).drop 2)).tabs ∧
        t.clu = (s.trainPass.applySects s.img.buf ((sectTable s.img.buf).drop 2)).clu ∧ t.mem.slots = [] ∧
        lanesStay s t ∧ t.part = s.part) ∧
      (∀ x, Gives (.dramTrainDone (some x)) s (fun t =>
        t.img.errCode = 0x0E ∧ t.img.errSection = 1 ∧ (t.flag 0x108).getLsbD 16 = true ∧ t.dram.configured = false ∧
        (if s.img.src = 1 ∧ s.img.fallbackNext = true then t.img.state = .fetch ∧ t.img.src = 2 ∧ t.img.fallbackUsed = true
          else t.img.state = .unconfigured ∧ t.img.fallbackUsed = s.img.fallbackUsed)))) ∧
    (s.dram.training = .retrain → s.pwr.held = [] →
      Gives (.dramTrainDone none) s (fun t => trained s t ∧
        t.flag (drmA 0x24) = s.flag (drmA 0x24) ||| bit32 5 ∧ Within [.pwr, .flg, .dram, .msix] s t) ∧
      (∀ x, Gives (.dramTrainDone (some x)) s (fun t => t.dram.training = .none ∧ t.dram.ready = false ∧
        (t.flag (drmA 0x24)).getLsbD 4 = true ∧ (t.flag (drmA 0x24)).getLsbD 5 = true ∧ t.flt.seq = s.flt.seq + 1 ∧
        Within [.pwr, .flg, .ctr, .dram, .msix, .flt] s t))) ∧
    (s.img.state = .apply → s.dram.training = .none → s.dram.ready = true → Gives .imgApplyDone s (fun t =>
      t.img.state = .configured ∧ t.img.loadedSrc = s.img.src ∧ t.img.verified = s.img.bufVerified ∧
      t.img.version = BitVec.ofNat 32 (hdrVersion s.img.buf) ∧ t.img.secCount = BitVec.ofNat 16 (hdrCount s.img.buf) ∧
      t.img.compat = BitVec.ofNat 16 (hdrCompat s.img.buf) ∧ t.img.baseId = BitVec.ofNat 32 (hdrTableCrc s.img.buf) ∧
      t.img.buf = [] ∧ Takes 0x100 1 s t ∧ Within [.img, .cmd, .more, .mem] s t))

/-- The slot commands act on the slot that OVL_CTRL names in force, and on no other: VALIDATE begins the check of a slot that is not PENDING;
its end, while DRAM is ready, makes the slot VALID with the digest of its bytes and the affected set recorded, or FREE with the failing check's
code; APPLY of a VALID or
APPLIED slot, after a VALIDATE that waits with it and takes the slot first (R409), makes it PENDING at the back of the queue; CANCEL of a PENDING one makes it VALID again, unless its application has begun; RELEASE of a
VALID or APPLIED one makes it FREE. A command in any other state is dropped with SLOT_STATE (R54 to R56, R61, R65). That an APPLY of a slot under
VALIDATE is dropped, and that a VALIDATE of a write before counts as waiting with it, is the model's choice (log 21). -/
def Obligations.OverlaySlotCommands : Prop :=
  ∀ s : State, s.undef = false →
    let k := s.ovlSlot
    let others := fun t : State => ∀ j : Fin 16, j ≠ k → t.ovl.slots[j] = s.ovl.slots[j]
    let dropped := fun t : State => t.ovl.slots = s.ovl.slots ∧ t.ovl.queue = s.ovl.queue ∧ t.ovl.resCode = 0x15 ∧
      t.ovl.resSlot.toNat = k.val ∧ t.ovl.resSection = 255 ∧ t.flag 0x138 = s.flag 0x138 ||| bit32 13 ∧ FlagsBut [0x138] s t ∧
      CmdsBut [0x130] s t ∧ Within [.ovl, .flg, .cmd, .more, .msix] s t
    (s.ovl.validating = none → s.prepared 5 = false →
      (s.configured = true → s.slotIs k .pending = false → Gives .ovlValidate s (fun t =>
        t.ovl = { s.ovl with validating := some k } ∧ Within [.ovl] s t)) ∧
      (s.configured = false ∨ s.slotIs k .pending = true → Gives .ovlValidate s (fun t => dropped t ∧ Takes 0x130 (bit32 8) s t))) ∧
    (s.prepared 5 = true → s.ovl.validating = none →
      Gives .ovlValidate s (fun t => t.pwr.held = s.pwr.held ++ [.ovlValidate] ∧ Within [.pwr] s t)) ∧
    (s.prepared 5 = true → Gives .ovlApply s (fun t => t.pwr.held = s.pwr.held ++ [.ovlApply] ∧ Within [.pwr] s t)) ∧
    (s.ovl.validating ≠ none → s.dram.ready = false ∨ s.loaderReads = true → Gives .ovlValidateDone s (fun t => t = s)) ∧
    (∀ j : Fin 16, s.ovl.validating = some j → s.dram.ready = true → s.loaderReads = false →
      (∀ code sect, s.imageCheck (s.slotBytes j) true none = some (code, sect) → Gives .ovlValidateDone s (fun t =>
        t.ovl.slots[j] = {} ∧ t.ovl.validating = none ∧ t.ovl.resSlot.toNat = j.val ∧ t.ovl.resCode = BitVec.ofNat 8 code ∧
        t.ovl.resSection = BitVec.ofNat 8 sect ∧ t.flag 0x138 = s.flag 0x138 ||| bit32 13 ∧ FlagsBut [0x138, drmA 0x24] s t ∧
        (∀ i : Fin 16, i ≠ j → t.ovl.slots[i] = s.ovl.slots[i]) ∧ t.ovl.queue = s.ovl.queue ∧ t.ovl.loaded = [] ∧
        t.ovl.unread = [] ∧ Takes 0x130 (bit32 8) s t ∧ Within [.ovl, .flg, .ctr, .cmd, .more, .dram, .msix, .freeN] s t)) ∧
      (s.imageCheck (s.slotBytes j) true none = none → Gives .ovlValidateDone s (fun t =>
        t.ovl.slots[j] = { state := .valid, digest := some (sha384 (s.slotBytes j)), mask := BitVec.ofNat 8 (hdrMask (s.slotBytes j)) } ∧
        t.ovl.validating = none ∧ t.ovl.resSlot.toNat = j.val ∧ t.ovl.resCode = 0 ∧ t.flag 0x138 = s.flag 0x138 ||| bit32 12 ∧
        FlagsBut [0x138, drmA 0x24] s t ∧ (∀ i : Fin 16, i ≠ j → t.ovl.slots[i] = s.ovl.slots[i]) ∧ t.ovl.queue = s.ovl.queue ∧
        t.ovl.loaded = [] ∧ t.ovl.unread = [] ∧ Takes 0x130 (bit32 8) s t ∧
        Within [.ovl, .flg, .ctr, .cmd, .more, .dram, .msix, .freeN] s t))) ∧
    (s.prepared 5 = false →
      let first := (s.cmdWord 0x130).getLsbD 8 = true ∧ s.ovl.validating = none ∧ s.configured = true ∧ s.slotIs k .pending = false
      let may := s.configured = true ∧ (s.slotIs k .valid = true ∨ s.slotIs k .applied = true) ∧ s.ovl.validating ≠ some k ∧ ¬ first
      let taken := fun t : State => t.ovl.applies = s.ovl.applies - 1 ∧ (s.ovl.applies ≤ 1 → Drops 0x130 (bit32 9) s t) ∧
        (1 < s.ovl.applies → t.cmd = s.cmd ∧ t.more = s.more)
      (may → Gives .ovlApply s (fun t => t.ovl.slots[k] = { s.ovl.slots[k] with state := .pending } ∧
        t.ovl.queue = s.ovl.queue ++ [k] ∧ others t ∧ taken t ∧ Within [.ovl, .cmd, .more] s t)) ∧
      (¬ may → Gives .ovlApply s (fun t => dropped t ∧ taken t ∧ (first → t.ovl.validating = some k) ∧
        (¬ first → t.ovl.validating = s.ovl.validating)))) ∧
    (s.ovl.applying = some k → Gives .ovlCancel s (fun t => Takes 0x130 (bit32 10) s t ∧ Within [.cmd, .more] s t)) ∧
    (s.ovl.applying ≠ some k →
      (s.configured = true ∧ s.slotIs k .pending = true → Gives .ovlCancel s (fun t =>
        t.ovl.slots[k] = { s.ovl.slots[k] with state := .valid } ∧
        t.ovl.queue = s.ovl.queue.filter (fun x => decide (x ≠ k)) ∧ others t ∧ Takes 0x130 (bit32 10) s t ∧
        Within [.ovl, .cmd, .more] s t)) ∧
      (¬ (s.configured = true ∧ s.slotIs k .pending = true) → Gives .ovlCancel s (fun t => dropped t ∧ Takes 0x130 (bit32 10) s t))) ∧
    (let may := s.configured = true ∧ (s.slotIs k .valid = true ∨ s.slotIs k .applied = true)
     (may → Gives .ovlRelease s (fun t => t.ovl.slots[k] = {} ∧ t.ovl.queue = s.ovl.queue ∧ others t ∧ Takes 0x130 (bit32 11) s t ∧
        Within [.ovl, .cmd, .more] s t)) ∧
     (¬ may → Gives .ovlRelease s (fun t => dropped t ∧ Takes 0x130 (bit32 11) s t)))

/-- At a quiet point of every cluster of its affected set the head of the queue begins its application, if the slot's bytes, read while DRAM is
ready and no read of the loader is under way, still have the digest that VALIDATE recorded; else it is refused with DIGEST and its slot becomes FREE (R56, R58). Until DRAM is ready,
and while a cluster of the set is not quiet, it waits. The end of an application has written every section of those bytes in table order (R57,
R60): the tables, the registers, the bindings and the clusters are what those records leave, where no write was held meanwhile (R59). It makes the
slot APPLIED, takes it from the queue, reports it as done, and leaves IMG_BASE_ID and the base's identity as they are (R57, R63); staged
copies of rewritten entries go, or stand as old copies while a run uses them (R132, R135), and no memory gains anything. -/
def Obligations.OverlayApplications : Prop :=
  ∀ (s : State) (k : Fin 16), s.undef = false →
    (∀ rest, s.ovl.queue = k :: rest → s.ovl.applying = none → s.quietFor s.ovl.slots[k].mask = true → s.dram.ready = true →
      s.loaderReads = false →
      (s.digestSame k = true → Gives .ovlQuietPoint s (fun t =>
        t.ovl = { s.ovl with applying := some k, applyBytes := s.slotBytes k, loaded := [], unread := [] } ∧ FlagsBut [drmA 0x24] s t ∧
        Within [.ovl, .flg, .ctr, .dram, .msix, .freeN] s t)) ∧
      (s.digestSame k = false → Gives .ovlQuietPoint s (fun t => t.ovl.queue = rest ∧ t.ovl.slots[k] = {} ∧
        t.ovl.resCode = 0x14 ∧ t.ovl.resSlot.toNat = k.val ∧ t.flag 0x138 = s.flag 0x138 ||| bit32 13 ∧
        (∀ j : Fin 16, j ≠ k → t.ovl.slots[j] = s.ovl.slots[j]) ∧ FlagsBut [0x138, drmA 0x24] s t ∧
        Within [.ovl, .flg, .ctr, .dram, .msix, .freeN] s t))) ∧
    (∀ rest, s.ovl.queue = k :: rest → s.quietFor s.ovl.slots[k].mask = false ∨ s.dram.ready = false ∨ s.loaderReads = true →
      Gives .ovlQuietPoint s (fun t => t = s)) ∧
    (s.ovl.applying = some k → Gives .ovlApplyDone s (fun t =>
      t.ovl.slots[k].state = .applied ∧ t.ovl.slots[k].mask = s.ovl.slots[k].mask ∧ t.ovl.applying = none ∧
      t.ovl.queue = s.ovl.queue.filter (fun x => decide (x ≠ k)) ∧ t.ovl.heldWrites = [] ∧
      t.ovl.applyBytes = [] ∧
      (s.ovl.heldWrites = [] →
        let u := s.freezeRows.applySects s.ovl.applyBytes (sectTable s.ovl.applyBytes)
        t.tabs = u.tabs ∧ t.cfg = u.cfg ∧ t.eff = u.eff ∧ t.lvl = u.lvl ∧ t.plc = u.plc ∧ t.clu = u.clu) ∧
      (∀ j : Fin 16, j ≠ k → t.ovl.slots[j] = s.ovl.slots[j]) ∧ t.ovl.resCode = 0 ∧ t.ovl.resSlot.toNat = k.val ∧
      (t.flag 0x138).getLsbD 12 = true ∧ t.img = s.img ∧ t.pin = s.pin ∧
      (∀ w : Lane, t.wl[w] = s.wl[w] ∨ ∃ at_, t.wl[w] = { s.wl[w] with load := .managementTick, loadAt := at_ }) ∧
      t.mem = { s.mem with slots := t.mem.slots } ∧ (∀ x ∈ t.mem.slots, ∃ y ∈ s.mem.slots, ∃ a, x = (y.1, { y.2 with age := a })) ∧
      t.part = s.part))

/-- A START out of IDLE is dropped with CMD_DROPPED; one that fails a check of R101 is refused with its code and the cluster stays IDLE; one that a
crossing or a pending overlay holds waits in HELD; any other enters LEAD with its first sample 3,200 ticks on, or at START_TIME (R99, R100,
R101). Either has committed to the START_IDX in force and holds the entry as it was then (R76, R85). Blocks prepared for a power request, and a
training, hold the command itself (R336, R431). A HELD start whose holds have cleared enters LEAD with that commit, or is refused with TOO_LATE
and sets both flags. The first segment start enters RUN and plays the committed entry from its first play. No other cluster changes. That
SEG_NOW keeps the last entry until the first segment start is the model's choice (log 14). -/
def Obligations.ClustersStart : Prop :=
  ∀ (s : State) (n : Clu), s.undef = false →
    let i := BitVec.ofNat 17 (s.effF (cluA n 8) 16 0)
    let first := fun t : State =>
      t.clu[n].state = .lead ∧ t.clu[n].seg = s.clu[n].seg ∧ t.clu[n].entry = s.clu[n].entry ∧ t.clu[n].stack = s.clu[n].stack ∧
      (s.clu[n].resetPark = none → t.clu[n].parked = false) ∧
      t.clu[n].leadAt = (if s.timed n then s.physOf (s.startTime n) else s.clk.now + 3200)
    (s.prepared 1 = true ∨ s.trainingHolds = true →
      Gives (.cluStart n) s (fun t => t.pwr.held = s.pwr.held ++ [.cluStart n] ∧ Within [.pwr] s t)) ∧
    (s.prepared 1 = false → s.trainingHolds = false →
      (s.clu[n].state ≠ .idle → Gives (.cluStart n) s (fun t =>
        t.flag (cluA n 0x40) = s.flag (cluA n 0x40) ||| bit32 3 ∧ FlagsBut [cluA n 0x40] s t ∧ Takes (cluA n 0) 1 s t ∧
        Within [.flg, .cmd, .more, .msix] s t)) ∧
      (s.clu[n].state = .idle → s.startCheck n ≠ 0 → Gives (.cluStart n) s (fun t =>
        t.clu[n] = { s.clu[n] with refuse := BitVec.ofNat 4 (s.startCheck n) } ∧ CluBut n s t ∧
        t.flag (cluA n 0x40) = s.flag (cluA n 0x40) ||| bit32 2 ∧ FlagsBut [cluA n 0x40] s t ∧ Takes (cluA n 0) 1 s t ∧
        Within [.flg, .cmd, .more, .clu, .msix] s t)) ∧
      (s.clu[n].state = .idle → s.startCheck n = 0 → s.startHeld n = true → Gives (.cluStart n) s (fun t =>
        t.clu[n] = { s.clu[n] with state := .held, lead := some { idx := i, entry := s.entry i.toNat } } ∧
        CluBut n s t ∧ Takes (cluA n 0) 1 s t ∧ Within [.cmd, .more, .clu] s t)) ∧
      (s.clu[n].state = .idle → s.startCheck n = 0 → s.startHeld n = false → Gives (.cluStart n) s (fun t =>
        first t ∧ t.clu[n].lead = some { idx := i, entry := s.entry i.toNat } ∧ CluBut n s t ∧ Takes (cluA n 0) 1 s t ∧ Within [.flg, .cmd, .more, .clu, .pg, .msix, .plc] s t))) ∧
    (s.clu[n].state = .held → s.startHeld n = false →
      (s.startTooLate n = true → Gives (.clusterStartRelease n) s (fun t =>
        t.clu[n].state = .idle ∧ t.clu[n].refuse = 6 ∧ t.clu[n].lead = none ∧ CluBut n s t ∧ (t.flag (cluA n 0x40)).getLsbD 1 = true ∧
        (t.flag (cluA n 0x40)).getLsbD 2 = true ∧
        Within [.eff, .flg, .ctr, .cmd, .more, .tabs, .clu, .wl, .gov, .pg, .host, .msix] s t)) ∧
      (s.startTooLate n = false → Gives (.clusterStartRelease n) s (fun t =>
        first t ∧ t.clu[n].lead = s.clu[n].lead ∧ CluBut n s t ∧ Within [.flg, .clu, .pg, .msix, .plc] s t))) ∧
    (∀ l, s.clu[n].state = .lead → s.clu[n].lead = some l → Gives (.firstSegmentStart n) s (fun t =>
      t.clu[n].state = .run ∧ t.clu[n].playStart = s.clu[n].leadAt * 1024 ∧ t.clu[n].plays = 0 ∧ t.clu[n].seg = l.idx ∧
      t.clu[n].entry = l.entry ∧ t.clu[n].stack = (commitStack l.idx l.entry false []).getD [] ∧ t.clu[n].copyAge = l.age ∧
      t.clu[n].lead = none ∧ t.clu[n].sched = none ∧ t.clu[n].starts.val = (s.clu[n].starts.val + 1) % 2 ^ 64 ∧ CluBut n s t ∧
      s.clu[n].leadAt ≤ t.clk.now ∧ (t.flag (cluA n 0x40)).getLsbD 0 = true ∧
      Within [.clk, .trg, .eff, .flg, .cmd, .more, .clu, .wl, .pg, .brg, .host, .msix, .plc] s t))

/-- STOP of a running cluster enters STOPPING; ABORT of a playing one marks now + D, from which on the next fret is its end (R99). Either cancels
and counts a scheduled jump whose switch instant less D has not passed, and leaves one that is past it to switch (R121, R122); where a DIVERT
that is parked so loses the jump that serves it, or has lost it, the cluster stops at once with reason FAULT (R160). Both make a HELD or
LEAD cluster IDLE at once, with STOP_REASON 2 and 3, while data of an earlier run that a per-cluster reset left playing plays on (R447); in
the states that do not list them they are dropped with CMD_DROPPED (R99). ABORT_PARK makes the cluster IDLE at that fret, unless a final fret
or a switch comes before it, empty, with reason ABORT. No other cluster changes. That released means before the present tick is the
model's choice (log 14). -/
def Obligations.ClustersStop : Prop :=
  ∀ (s : State) (n : Clu), s.undef = false →
    let k := s.clu[n]
    let empty := fun (reason : BitVec 4) (t : State) =>
      t.clu[n] = { s.clu[n] with state := .idle, stopReason := reason, stack := [], outStack := [], abortAt := none, latePend := none
                                 matchOutcome := none, resetPark := none, lead := none, sched := none, hosted := none
                                 foreseenAt := t.clu[n].foreseenAt }
    let stopped := fun (reason : BitVec 4) (t : State) =>
      (s.clu[n].resetPark = none → empty reason t) ∧
      (s.clu[n].resetPark.isSome = true →
        t.clu[n] = { s.clu[n] with state := .idle, stopReason := reason, lead := none, hosted := none }) ∧
      CluBut n s t ∧ (t.flag (cluA n 0x40)).getLsbD 1 = true ∧
      Within [.eff, .flg, .ctr, .cmd, .more, .tabs, .clu, .wl, .gov, .pg, .pin, .host, .msix, .plc] s t
    let dropped := fun t : State => t.flag (cluA n 0x40) = s.flag (cluA n 0x40) ||| bit32 3 ∧ FlagsBut [cluA n 0x40] s t ∧
      Within [.flg, .msix] s t
    let cancels := k.sched.any (fun j => decide ((s.clk.now + s.leadOf n) * 1024 ≤ s.switchAt n j))
    let lost := k.parked && k.latePend.any (fun l => decide (l.action = 2) && (l.unserved || cancels))
    let left := if cancels then { k with sched := none, foreseenAt := s.clk.now, latePend := k.latePend.map (fun l => { l with unserved := true }) }
      else k
    let counted := fun t : State =>
      (cancels = true → t.counter (cluA n 0x12C) = min (s.counter (cluA n 0x12C) + 1) top32 ∧
        t.flag (cluA n 0x118) = s.flag (cluA n 0x118) ||| bit32 8 ∧ CtrsBut [cluA n 0x12C] s t ∧ FlagsBut [cluA n 0x118] s t ∧
        Within [.flg, .ctr, .clu, .msix, .plc] s t) ∧
      (cancels = false → Within [.clu] s t)
    (k.state = .run → lost = false → Gives (.cluStop n) s (fun t =>
      t.clu[n] = { left with state := .stopping, sched := left.sched.map (fun j => { j with past := true }) } ∧ CluBut n s t ∧ counted t)) ∧
    (k.state = .run ∨ k.state = .stopping → lost = false → Gives (.cluAbort n) s (fun t =>
      t.clu[n] = { left with abortAt := some (k.abortAt.getD ((s.clk.now + s.leadOf n) * 1024)) } ∧ CluBut n s t ∧ counted t)) ∧
    (∀ c, (c = .cluStop n ∧ k.state = .run) ∨ (c = .cluAbort n ∧ (k.state = .run ∨ k.state = .stopping)) → lost = true →
      Gives c s (fun t => empty 4 t ∧ CluBut n s t ∧ (t.flag (cluA n 0x40)).getLsbD 1 = true ∧
        (k.sched.isSome = true → t.counter (cluA n 0x12C) = min (s.counter (cluA n 0x12C) + 1) top32) ∧
        Within [.eff, .flg, .ctr, .cmd, .more, .tabs, .clu, .wl, .gov, .pg, .pin, .host, .msix, .plc] s t)) ∧
    (s.clu[n].state = .held ∨ s.clu[n].state = .lead → Gives (.cluStop n) s (stopped 2) ∧ Gives (.cluAbort n) s (stopped 3)) ∧
    (s.clu[n].state = .idle → Gives (.cluStop n) s dropped ∧ Gives (.cluAbort n) s dropped) ∧
    (s.clu[n].state = .stopping → Gives (.cluStop n) s dropped) ∧
    (∀ f, s.abortFret n = some f → s.clu[n].state ≠ .idle → f ≤ s.finalFret n →
      s.clu[n].sched.any (fun j => j.checked && decide (s.switchAt n j < f)) = false → Gives (.abortPark n) s (fun t =>
      empty 3 t ∧ CluBut n s t ∧ t.clk.now = max s.clk.now (upTick f) ∧ (t.flag (cluA n 0x40)).getLsbD 1 = true ∧
      Within [.clk, .eff, .flg, .ctr, .cmd, .more, .tabs, .clu, .wl, .gov, .pg, .pin, .host, .msix, .plc] s t))

/-- At the final fret F of a running cluster with no jump, abort or reset pending and an entry that is no match entry: while plays are left it plays
again from F (R86); after the last, an entry without successor stops the cluster with reason END (R85, R90); a successor or loop-back that passes
the checks of R85 is committed and plays from F with a play count of 0 (R76, R86, R89); one that fails them stops the cluster with reason FAULT,
its code and entry, and one fault report (R85), and so does one whose loop frame finds the stack full (R89). A match play that has passed leaves its entry whatever plays are left and fires MATCH with
timestamp F; one that has not is played again while plays are left, and after the last fires NOMATCH and leaves (R87, R235). A STOPPING cluster
stops there with reason STOP (R99), its match play raising what the step would raise (R236), unless a jump past cancellation is still to switch:
then the step is made (log 14). An ABORT whose fret is F stops it with reason ABORT. MATCH_CUT records whether the match play has had no failing strobe and no parked vector (R233, R234). No other
cluster changes. -/
def Obligations.FinalFretSteps : Prop :=
  ∀ (s : State) (n : Clu), s.undef = false →
    let f := s.finalFret n
    let e := s.clu[n].entry
    let spent := eRepeat e ≠ 0 ∧ eRepeat e ≤ s.clu[n].plays + 1
    let faulted := fun (code : BitVec 4) (i : BitVec 17) (t : State) => t.clu[n].state = .idle ∧ t.clu[n].stopReason = 4 ∧
      t.clu[n].seqCode = code ∧ t.clu[n].seqEntry = i ∧ t.flt.seq = s.flt.seq + 1 ∧ CluBut n s t
    let raised := fun (producer : Nat) (t : State) =>
      s.configured = true → ∃ x ∈ t.brg.inFlight, x.prod.val = producer + n.val ∧ x.at_ = upTick f
    (s.clu[n].state = .run → s.clu[n].sched = none → s.clu[n].resetPark = none → s.clu[n].abortAt = none →
      (eMatch e = false ∨ s.hasP n = false) →
      (¬ spent → Gives (.finalFret n) s (fun t => t.clu[n].state = .run ∧ t.clu[n].plays = s.clu[n].plays + 1 ∧
        t.clu[n].playStart = f ∧ t.clu[n].seg = s.clu[n].seg ∧ t.clu[n].entry = e ∧ t.clu[n].stack = s.clu[n].stack ∧
        CluBut n s t ∧ upTick f ≤ t.clk.now ∧ Within [.clk, .trg, .eff, .flg, .cmd, .more, .clu, .wl, .pg, .brg, .msix, .plc] s t)) ∧
      (spent → (leaveEntry e s.clu[n].stack).next = none → Gives (.finalFret n) s (fun t =>
        t.clu[n].state = .idle ∧ t.clu[n].stopReason = 1 ∧ t.clu[n].stack = [] ∧ CluBut n s t ∧
        (t.flag (cluA n 0x40)).getLsbD 1 = true)) ∧
      (∀ i lb st, spent → (leaveEntry e s.clu[n].stack).next = some (i, lb) → s.commitCheck n i.toNat = 0 →
        commitStack i (s.entry i.toNat) lb (leaveEntry e s.clu[n].stack).stack = some st → Gives (.finalFret n) s (fun t =>
          t.clu[n].state = .run ∧ t.clu[n].seg = i ∧ t.clu[n].entry = s.entry i.toNat ∧ t.clu[n].plays = 0 ∧
          t.clu[n].playStart = f ∧ t.clu[n].stack = st ∧ CluBut n s t)) ∧
      (∀ i lb, spent → (leaveEntry e s.clu[n].stack).next = some (i, lb) → s.commitCheck n i.toNat ≠ 0 →
        Gives (.finalFret n) s (faulted (BitVec.ofNat 4 (s.commitCheck n i.toNat)) i)) ∧
      (∀ i lb, spent → (leaveEntry e s.clu[n].stack).next = some (i, lb) → s.commitCheck n i.toNat = 0 →
        commitStack i (s.entry i.toNat) lb (leaveEntry e s.clu[n].stack).stack = none → Gives (.finalFret n) s (faulted 4 i))) ∧
    (s.clu[n].state = .run → s.clu[n].sched = none → s.clu[n].resetPark = none → s.clu[n].abortAt = none → eMatch e = true → s.hasP n = true →
      let leaves := fun (producer : Nat) (t : State) =>
        raised producer t ∧ ((leaveEntry e s.clu[n].stack).next = none → t.clu[n].state = .idle ∧ t.clu[n].stopReason = 1) ∧
        (∀ i lb st, (leaveEntry e s.clu[n].stack).next = some (i, lb) → s.commitCheck n i.toNat = 0 →
          commitStack i (s.entry i.toNat) lb (leaveEntry e s.clu[n].stack).stack = some st →
          t.clu[n].state = .run ∧ t.clu[n].seg = i ∧ t.clu[n].plays = 0 ∧ t.clu[n].playStart = f ∧ t.clu[n].stack = st) ∧
        (∀ i lb, (leaveEntry e s.clu[n].stack).next = some (i, lb) → s.commitCheck n i.toNat ≠ 0 →
          faulted (BitVec.ofNat 4 (s.commitCheck n i.toNat)) i t) ∧
        (∀ i lb, (leaveEntry e s.clu[n].stack).next = some (i, lb) → s.commitCheck n i.toNat = 0 →
          commitStack i (s.entry i.toNat) lb (leaveEntry e s.clu[n].stack).stack = none → faulted 4 i t) ∧ CluBut n s t
      (s.playPassed n = true → Gives (.finalFret n) s (leaves 100)) ∧
      (s.playPassed n = false → eRepeat e ≠ 0 ∧ s.clu[n].plays + 1 = eRepeat e → Gives (.finalFret n) s (leaves 108)) ∧
      (s.playPassed n = false → ¬ spent → Gives (.finalFret n) s (fun t => t.clu[n].state = .run ∧
        t.clu[n].plays = s.clu[n].plays + 1 ∧ t.clu[n].playStart = f ∧ t.clu[n].seg = s.clu[n].seg ∧ CluBut n s t))) ∧
    (s.clu[n].state = .stopping → s.clu[n].sched = none → s.clu[n].resetPark = none → s.clu[n].abortAt = none →
      let judged := eMatch e && s.hasP n
      Gives (.finalFret n) s (fun t =>
        t.clu[n].state = .idle ∧ t.clu[n].stopReason = 2 ∧ t.clu[n].plays = s.clu[n].plays + 1 ∧ CluBut n s t ∧
        (judged = true → s.playPassed n = true → raised 100 t) ∧
        (judged = true → s.playPassed n = false → eRepeat e ≠ 0 ∧ s.clu[n].plays + 1 = eRepeat e → raised 108 t) ∧
        (judged = false ∨ (s.playPassed n = false ∧ ¬ (eRepeat e ≠ 0 ∧ s.clu[n].plays + 1 = eRepeat e)) → t.brg = s.brg))) ∧
    (∀ j, s.clu[n].state = .stopping → s.clu[n].sched = some j → j.past = true → (j.checked = false ∨ f < s.switchAt n j) →
      s.clu[n].resetPark = none → s.clu[n].abortAt = none → (eMatch e = false ∨ s.hasP n = false) → ¬ spent →
      Gives (.finalFret n) s (fun t => t.clu[n].state = .stopping ∧ t.clu[n].sched = some j ∧ t.clu[n].plays = s.clu[n].plays + 1 ∧
        t.clu[n].playStart = f ∧ t.clu[n].seg = s.clu[n].seg ∧ CluBut n s t)) ∧
    (∀ a, s.clu[n].state = .run ∨ s.clu[n].state = .stopping → s.clu[n].sched = none → s.clu[n].resetPark = none →
      s.clu[n].abortAt = some a → a ≤ f → Gives (.finalFret n) s (fun t =>
        t.clu[n].state = .idle ∧ t.clu[n].stopReason = 3 ∧ t.clu[n].stack = [] ∧ t.brg = s.brg ∧ CluBut n s t)) ∧
    (eMatch e = true → s.hasP n = true → s.clu[n].state = .run ∨ s.clu[n].state = .stopping → Gives (.matchCut n) s (fun t =>
      t.clu[n] = { s.clu[n] with matchOutcome := some (!s.clu[n].matchFail && !s.clu[n].matchParked) } ∧ CluBut n s t ∧
      t.clk.now = max s.clk.now (upTick f - s.matchLead n) ∧ Within [.clk, .clu] s t))

/-- TRIGGER_PULSE_END and EVO_PULSE_END let their own line fall and no other (R95, R298). EVI_EDGE follows the ball, and fires producer i with the edge's
tick where EN is 1 and the level is the asserted one, else no producer (R297). MARKER_FIRE of a valid slot of the profile that takes this play,
at a sample of the play, on a bound lane, before any stop of the play, fires the marker producer of its lane with that sample's tick, and
starts an NCO action only where the slot names one; a slot that is not valid, does not take the play, or lies at or after a late fault's stop
fires nothing (R92, R93, R94, R181). -/
def Obligations.LinesAndMarkers : Prop :=
  ∀ s : State, s.undef = false →
    (∀ (l : Fin 8) (tick : Nat), s.trg.fallAt[l] = some tick → Gives (.triggerPulseEnd l) s (fun t =>
      t.trg.fallAt[l] = none ∧ (∀ m : Fin 8, m ≠ l → t.trg.fallAt[m] = s.trg.fallAt[m]) ∧ t.trg.last = s.trg.last ∧
      t.clk.now = max s.clk.now tick ∧ Within [.clk, .trg] s t)) ∧
    (∀ (i : Fin 16) (tick : Nat), s.brg.evoFall[i] = some tick → Gives (.evoPulseEnd i) s (fun t =>
      t.brg.evo = s.brg.evo &&& ~~~(1#16 <<< i.val) ∧ t.brg.evoFall[i] = none ∧
      (∀ j : Fin 16, j ≠ i → t.brg.evoFall[j] = s.brg.evoFall[j]) ∧ t.brg.inFlight = s.brg.inFlight ∧
      t.clk.now = max s.clk.now tick ∧ Within [.clk, .brg] s t)) ∧
    (∀ (i : Fin 16) (level : Bool) (tick : Nat), s.brg.evi.getLsbD i ≠ level →
      let cfg := s.effW (brgA (0x2C00 + 4 * i.val))
      (s.configured = true → cfg.getLsbD 0 = true → level ≠ cfg.getLsbD 1 → Gives (.eviEdge i level tick) s (fun t =>
        t.brg.evi = s.brg.evi ^^^ (1#16 <<< i.val) ∧ (∃ e ∈ t.brg.inFlight, e.prod.val = i.val ∧ e.at_ = tick) ∧
        (∀ e ∈ t.brg.inFlight, e ∈ s.brg.inFlight ∨ e.prod.val = i.val ∧ e.at_ = tick) ∧
        Within [.clk, .flg, .brg, .msix] s t)) ∧
      (cfg.getLsbD 0 = false ∨ level = cfg.getLsbD 1 → Gives (.eviEdge i level tick) s (fun t =>
        t.brg = { s.brg with evi := s.brg.evi ^^^ (1#16 <<< i.val) } ∧ Within [.clk, .brg] s t))) ∧
    (∀ (n : Clu) (k : Fin 8),
      let c := s.clu[n]
      let w0 := s.mkWord (eMkp c.entry) k 0
      let w1 := s.mkWord (eMkp c.entry) k 1
      let pos := fld w0 29 0
      let at_ := c.playStart + pos * s.tsOf n
      let w : Lane := Fin.ofNat 16 (fld w1 3 0)
      (w1.getLsbD 31 = false ∨ slotPlays (fld w0 31 30) c.plays (eRepeat c.entry) = false ∨ c.haltsBy at_ = true →
        Gives (.markerFire n k) s (fun t => t = s)) ∧
      (c.state = .run → c.abortAt = none → c.sched = none → c.haltsBy at_ = false → eMkpEn c.entry = true → w1.getLsbD 31 = true →
      c.wBound.getLsbD w = true → pos < eLenGr c.entry * 64 → slotPlays (fld w0 31 30) c.plays (eRepeat c.entry) = true →
      s.configured = true → s.hasLane w = true → Gives (.markerFire n k) s (fun t =>
        (∃ e ∈ t.brg.inFlight, e.prod.val = 24 + 4 * w.val + fld w1 5 4 ∧ e.at_ = upTick at_) ∧ upTick at_ ≤ t.clk.now ∧
        (w1.getLsbD 30 = false → t.wl = s.wl) ∧ Within [.clk, .flg, .wl, .brg, .msix] s t)))

/-- JMP_FIRE sends a request on COND at the present tick (R128). CONDITION_REQUEST takes the earliest request of its input at T + 3: out of RUN it is
discarded with NOT_RUN, within 4 ticks of a pending one with OVERRUN, else it is pending (R111). JUMP_DECISION takes the pending requests of the
earliest T at T + 8: out of RUN all are discarded; the lowest condition goes on and the others count as ARBITRATED; under a scheduled jump, and
until T + 21 of one refused at T + 20, it is SHADOWED, without an enabled entry NO_ENTRY, else it schedules its target for T + L (R112, R113,
R119, R123); the condition word is read as it stood before that tick's writes (R109). JUMP_TARGET_READ reads the target and its published state at
T + 12, before that tick's writes (R116). No other cluster changes. -/
def Obligations.JumpRequests : Prop :=
  ∀ (s : State) (n : Clu), s.undef = false →
    let k := s.clu[n]
    let dis := cluA n 0x128
    let evt := cluA n 0x118
    let lost := fun (m : Nat) (bits : Word) (t : State) =>
      t.counter dis = (if m = 0 then s.counter dis else min (s.counter dis + m) top32) ∧ CtrsBut [dis] s t ∧
      t.flag evt = s.flag evt ||| bits ∧ FlagsBut [evt] s t
    (Gives (.jmpFire n) s (fun t =>
      t.clu[n] = { k with arriving := k.arriving ++ [{ cond := Fin.ofNat 16 (s.effF (cluA n 0x104) 3 0), ts := s.clk.now, forced := true }] } ∧
      CluBut n s t ∧ Takes (cluA n 0x104) (bit32 4) s t ∧ Within [.cmd, .more, .clu] s t)) ∧
    (∀ (c : Fin 16) (r : Req), firstReq c k.arriving = some r →
      let rest := k.arriving.filter (fun x => !decide (x.cond = c ∧ x.ts = r.ts))
      let late := (k.arriving.filter (fun x => decide (x.cond = c ∧ x.ts = r.ts))).any Req.late
      let near := k.pend.any (fun x => decide (x.cond = c ∧ r.ts ≤ x.ts + 4))
      (k.state ≠ .run → Gives (.conditionRequest n c) s (fun t => t.clu[n] = { k with arriving := rest } ∧ CluBut n s t ∧
        lost 1 (bit32 1) t ∧ t.clk.now = max s.clk.now (r.ts + 3) ∧ Within [.clk, .flg, .ctr, .clu, .msix] s t)) ∧
      (k.state = .run → near = true → Gives (.conditionRequest n c) s (fun t => t.clu[n] = { k with arriving := rest } ∧
        CluBut n s t ∧ lost 1 (bit32 2) t ∧ Within [.clk, .flg, .ctr, .clu, .msix] s t)) ∧
      (k.state = .run → near = false → Gives (.conditionRequest n c) s (fun t =>
        t.clu[n] = { k with arriving := rest, pend := k.pend ++ [{ r with late := late }] } ∧ CluBut n s t ∧
        ((s.effW (cluA n (0x180 + 4 * c.val))).getLsbD 31 = false → Within [.clk, .clu] s t) ∧
        Within [.clk, .clu, .wl] s t))) ∧
    (∀ v, minReq k.pend = some v →
      let all := (k.pend.filter (fun r => decide (r.ts = v))).foldl (fun l r => condInsert r l) []
      let left := k.pend.filter (fun r => decide (r.ts ≠ v))
      let served := fun r : Req => if r.late then k.latePend.map (fun l => { l with unserved := false }) else k.latePend
      let arb := fun rest : List Req => if rest = [] then 0 else bit32 3
      (k.state ≠ .run → Gives (.jumpDecision n) s (fun t => t.clu[n] = { k with pend := left } ∧ CluBut n s t ∧
        lost all.length (bit32 1) t ∧ Within [.clk, .flg, .ctr, .clu, .msix] s t)) ∧
      (∀ r rest, all = r :: rest → k.state = .run →
        let w := s.jumpWordAt (v + 8) (eJt k.entry) r.cond
        (k.sched.isSome → Gives (.jumpDecision n) s (fun t => t.clu[n] = { k with pend := left, latePend := served r } ∧
          CluBut n s t ∧ lost (1 + rest.length) (bit32 4 ||| arb rest) t ∧ Within [.clk, .flg, .ctr, .clu, .msix] s t)) ∧
        (k.sched = none → v + 8 < k.slotFree → Gives (.jumpDecision n) s (fun t => t.clu[n] = { k with pend := left } ∧
          CluBut n s t ∧ lost (1 + rest.length) (bit32 4 ||| arb rest) t ∧ Within [.clk, .flg, .ctr, .clu, .msix] s t)) ∧
        (k.sched = none → k.slotFree ≤ v + 8 → eJtEn k.entry = false ∨ jwEn w = false → Gives (.jumpDecision n) s (fun t =>
          t.clu[n] = { k with pend := left } ∧ CluBut n s t ∧ lost (1 + rest.length) (bit32 5 ||| arb rest) t ∧
          Within [.clk, .flg, .ctr, .clu, .msix] s t)) ∧
        (k.sched = none → k.slotFree ≤ v + 8 → eJtEn k.entry = true → jwEn w = true → Gives (.jumpDecision n) s (fun t =>
          t.clu[n] = { k with
            pend := left, latePend := served r, foreseenAt := max s.clk.now (v + 8)
            sched := some { target := jwTarget w, mode := jwMode w, cond := r.cond, ts := r.ts, s := r.ts + s.latencyOf n } } ∧
          CluBut n s t ∧ lost rest.length (arb rest) t ∧ t.clk.now = max s.clk.now (v + 8) ∧
          Within [.clk, .flg, .ctr, .clu, .msix, .plc] s t)))) ∧
    (∀ j, k.sched = some j → j.read = none → Gives (.jumpTargetRead n) s (fun t =>
      t.clu[n] = { k with sched := some { j with read := some (s.readTarget n (j.ts + 12) j.target.toNat), age := 0 } } ∧
      CluBut n s t ∧ t.clk.now = max s.clk.now (j.ts + 12) ∧ Within [.clk, .clu] s t))

/-- JUMP_REFUSAL_CHECK: at T + 20 a jump that fails a check of R118 is dropped, counted in JMP_REFUSED with its code and entry, and reported, and
its slot is free from T + 21; the cluster plays on, but a LATE request that nothing then serves acts as HALT (R119, R160). One that passes all
stands as checked, with its target as read. JUMP_SWITCH of a checked jump that no abort or final fret comes before, or FINAL_FRET at that very
instant, replaces the play at the switch instant, in RUN, in STOPPING and while data plays out after a per-cluster reset (R99, R121, R447): the target plays from it with a play count of 0 and its own loop frames, TAKEN is counted and its flag sets (R114 to R117, R130); a late
fault stays pending unless the jump serves it under DIVERT (R160). An End jump whose target then fails the checks of R85, or overflows the stack,
stops the cluster with reason FAULT (R90, R91); in the play-out it is cancelled and counted. No other cluster changes. -/
def Obligations.JumpChecksAndSwitches : Prop :=
  ∀ (s : State) (n : Clu) (j : Sched), s.undef = false → s.clu[n].sched = some j →
    let k := s.clu[n]
    let s20 := s.upto (j.ts + 20)
    let x := j.read.getD (s.readTarget n (j.ts + 12) j.target.toNat)
    let code := s20.refusalCheck n j x
    let out := k.resetPark.isSome
    let stack := if out then k.outStack else k.stack
    let serves := k.latePend.any (fun l => decide (l.action = 2) && !l.unserved)
    let dest := j.target.toNat
    let atn := s.switchAt n j
    let stackNow := fun t : State => if out then t.clu[n].outStack else t.clu[n].stack
    let switches := fun t : State =>
      t.clu[n].state = k.state ∧ t.clu[n].seg = j.target ∧ t.clu[n].plays = 0 ∧ t.clu[n].playStart = atn ∧ t.clu[n].sched = none ∧
      (if out then t.clu[n].stack = k.stack else t.clu[n].outStack = k.outStack) ∧ t.clu[n].resetPark = k.resetPark ∧
      t.clu[n].latePend = (if serves then none else k.latePend) ∧ t.clu[n].parked = (k.parked && !serves) ∧
      t.clu[n].starts.val = (k.starts.val + 1) % 2 ^ 64 ∧ CluBut n s t ∧ upTick atn ≤ t.clk.now ∧
      t.counter (cluA n 0x120) = min (s.counter (cluA n 0x120) + 1) top32 ∧ (t.flag (cluA n 0x118)).getLsbD 6 = true
    let faulted := fun (c : BitVec 4) (t : State) => t.clu[n].state = .idle ∧ t.clu[n].stopReason = 4 ∧ t.clu[n].seqCode = c ∧
      t.clu[n].seqEntry = j.target ∧ t.flt.seq = s.flt.seq + 1 ∧ CluBut n s t
    (j.checked = false → code = 0 → Gives (.jumpRefusalCheck n) s (fun t =>
      t.clu[n] = { k with sched := some { j with read := some x, checked := true } } ∧ CluBut n s t ∧
      t.clk.now = max s.clk.now (j.ts + 20) ∧ Within [.clk, .clu] s t)) ∧
    (j.checked = false → code ≠ 0 → (∀ l, k.latePend = some l → k.parked = true → l.action ≠ 2 ∨ l.unserved = true) →
      Gives (.jumpRefusalCheck n) s (fun t =>
      t.clu[n] = { k with sched := none, foreseenAt := max s.clk.now (j.ts + 20), slotFree := j.ts + 21, jmpCode := BitVec.ofNat 4 code, jmpEntry := j.target
                          latePend := k.latePend.map (fun l => if l.action = 2 then { l with unserved := true } else l) } ∧
      CluBut n s t ∧ t.counter (cluA n 0x124) = min (s.counter (cluA n 0x124) + 1) top32 ∧
      (t.flag (cluA n 0x118)).getLsbD 7 = true ∧ t.flt.seq = s.flt.seq + 1 ∧ Within [.clk, .flg, .ctr, .clu, .msix, .flt] s t)) ∧
    (∀ l, j.checked = false → code ≠ 0 → k.parked = true → k.latePend = some l → l.action = 2 → l.unserved = false →
      Gives (.jumpRefusalCheck n) s (fun t => t.clu[n].state = .idle ∧ t.clu[n].stopReason = 4 ∧ t.clu[n].sched = none ∧
        t.clu[n].jmpCode = BitVec.ofNat 4 code ∧ t.flt.seq = s.flt.seq + 1 ∧ CluBut n s t)) ∧
    (∀ c, j.checked = true → s.playing n atn = true → atn ≤ s.finalFret n → (∀ a, s.abortFret n = some a → atn ≤ a) →
      c = .jumpSwitch n ∨ (c = .finalFret n ∧ atn = s.finalFret n) →
      let fits := s.commitCheck n dest = 0 ∧ (commitStack j.target (s.entry dest) false stack).isSome
      (j.mode ≠ .atEnd → Gives c s (fun t => switches t ∧
        (let e := (j.read.map TargetRead.entry).getD (s.entry dest)
         t.clu[n].entry = e ∧ stackNow t = (commitStack j.target e false stack).getD stack) ∧ t.clu[n].copyAge = j.age ∧
        Within [.clk, .trg, .eff, .flg, .ctr, .cmd, .more, .clu, .wl, .pg, .pin, .brg, .host, .msix, .plc] s t)) ∧
      (j.mode = .atEnd → fits → Gives c s (fun t => switches t ∧ t.clu[n].entry = s.entry dest ∧
          some (stackNow t) = commitStack j.target (s.entry dest) false stack ∧ t.pin = s.pin)) ∧
      (j.mode = .atEnd → out = false → s.commitCheck n dest = 0 → commitStack j.target (s.entry dest) false stack = none →
        Gives c s (faulted 4)) ∧
      (j.mode = .atEnd → out = false → s.commitCheck n dest ≠ 0 → Gives c s (faulted (BitVec.ofNat 4 (s.commitCheck n dest)))) ∧
      (j.mode = .atEnd → out = true → ¬ fits → Gives c s (fun t => t.clu[n].sched = none ∧ t.clu[n].state = k.state ∧
        t.clu[n].seg = k.seg ∧ t.clu[n].playStart = k.playStart ∧ CluBut n s t ∧
        t.counter (cluA n 0x12C) = min (s.counter (cluA n 0x12C) + 1) top32 ∧ (t.flag (cluA n 0x118)).getLsbD 8 = true ∧ t.flt = s.flt)))

/-- Each cancellation of a scheduled jump increments CLU_JMP_CANCEL, up to its top (R410), and sets CLU_JMP_EVT.CANCELLED; it writes no fault record
and touches neither the ring nor the supervisor's queue. One that cancels nothing changes nothing. A cluster in STOPPING accepts no new request:
the request is discarded with NOT_RUN (R122). -/
def Obligations.CancelledJumps : Prop :=
  ∀ (s : State) (n : Clu) (soft : Bool),
    (s.cancelJump n soft = s ∨
      (s.cancelJump n soft).clu[n].sched = none ∧
      (s.cancelJump n soft).counter (cluA n 0x12C) = min (s.counter (cluA n 0x12C) + 1) top32 ∧
      (s.cancelJump n soft).flag (cluA n 0x118) = s.flag (cluA n 0x118) ||| bit32 8 ∧
      CtrsBut [cluA n 0x12C] s (s.cancelJump n soft) ∧ FlagsBut [cluA n 0x118] s (s.cancelJump n soft) ∧
      CluBut n s (s.cancelJump n soft) ∧ Within [.flg, .ctr, .clu, .msix, .plc] s (s.cancelJump n soft)) ∧
    (s.clu[n].sched.isSome = true → soft = false → (s.cancelJump n soft).clu[n].sched = none) ∧
    (∀ (c : Fin 16), s.undef = false → s.clu[n].state = .stopping → Gives (.conditionRequest n c) s (fun t =>
      t.clu[n].pend = s.clu[n].pend ∧ t.clu[n].sched = s.clu[n].sched ∧
      ((firstReq c s.clu[n].arriving).isSome = true → t.flag (cluA n 0x118) = s.flag (cluA n 0x118) ||| bit32 1 ∧
        t.counter (cluA n 0x128) = min (s.counter (cluA n 0x128) + 1) top32)))

/-- A check that finds its sample landed, a cluster idle or held, or no play to come whose check of it is due, changes nothing. A missing sample of a parked cluster, or after a late fault that
waits, only counts its late accesses, each once (R159); else the late fault is recorded with its entry, sample and tick, is counted, sets its flag, and waits for its output instant
with the action then in force; under DIVERT it reaches the LATE conditions (R157, R161). LATE_PARK at that instant parks: SKIP goes on parked,
HALT stops the cluster with reason FAULT, DIVERT with its jump scheduled waits parked for the jump (R158, R159, R160); a park within a match
play makes it fail (R161). LATE_SATURATE reports the oldest record with a lateness of 65,535. SKIP_RESUME unparks at the fret of the present tick
if its granule has landed, and else leaves it parked (R159). No other cluster changes. -/
def Obligations.LateSamples : Prop :=
  ∀ (s : State) (n : Clu), s.undef = false →
    let k := s.clu[n]
    (∀ (r : Fin 20) (i : Nat),
      (s.checkedPlay n r i = none → Gives (.lateCheck n r i) s (fun t => t = s)) ∧
      ∀ p, s.checkedPlay n r i = some p →
      let landed := s.sampleLanded n p r i
      let o := (s.readerAt n p r i).getD 0
      let v := upTick (o - s.readerLead n p r i)
      let act := s.lateAction n
      let u := s.missingUnit n p r i
      let s1 := match u.bind (s.blockedSlot n p r) with
        | some slot => (s.readerAsks r slot v).violate r.val slot false
        | none => s
      (k.state = .idle ∨ k.state = .held ∨ landed = true → Gives (.lateCheck n r i) s (fun t => t = s)) ∧
      (k.state ≠ .idle → k.state ≠ .held → landed = false →
        (k.parked = true ∨ k.latePend.isSome → Gives (.lateCheck n r i) s (fun t =>
          t.counter (cluA n 0x14C) = min (s.counter (cluA n 0x14C) + (s1.newLate n p r i).length) top32 ∧
          t.clu[n] = { k with lateSeen := k.lateSeen ++ s1.newLate n p r i } ∧ CluBut n s t ∧
          (u.bind (s.blockedSlot n p r) = none → CtrsBut [cluA n 0x14C] s t ∧ Within [.ctr, .clu] s t) ∧
          Within [.clk, .flg, .ctr, .clu, .mem, .msix, .flt] s t)) ∧
        (k.parked = false → k.latePend = none → Gives (.lateCheck n r i) s (fun t =>
          t.clu[n] = { k with
            latePend := some { o := o, ts := v, action := act }, lateEntry := p.idx, lateSample := BitVec.ofNat 32 i
            lateSeen := (s1.lateUnits n p r i).map (fun u => (p.no, r, u))
            lateRecs := k.lateRecs ++ [{ entry := p.idx, sample := i, ts := v, reader := r, action := act, age := p.age
                                         unit := (s1.missingUnit n p r i).getD 0, play := p.no }]
            arriving := k.arriving ++ (if act = 2 then ((allFin 16).filter (fun c => decide (s.condSrc n c = 3))).map
              (fun c => { cond := c, ts := v, late := true, src := 3 }) else []) } ∧ CluBut n s t ∧
          t.counter (cluA n 0x148) = min (s.counter (cluA n 0x148) + 1) top32 ∧ t.clk.now = max s.clk.now v ∧
          (t.flag (cluA n 0x144)).getLsbD 0 = true ∧ Within [.clk, .flg, .ctr, .clu, .brg, .mem, .msix, .flt] s t)))) ∧
    (∀ l, k.latePend = some l → k.parked = false →
      let inPlay := decide (l.o < s.finalFret n)
      (l.action = 1 → Gives (.latePark n) s (fun t =>
        t.clu[n] = { k with parked := true, matchParked := k.matchParked || inPlay, latePend := none } ∧
        CluBut n s t ∧ t.clk.now = max s.clk.now (upTick l.o) ∧ Within [.clk, .flg, .ctr, .clu, .pg, .pin, .msix] s t)) ∧
      (l.action = 2 → l.unserved = false → k.sched.isSome → Gives (.latePark n) s (fun t =>
        t.clu[n] = { k with parked := true, matchParked := k.matchParked || inPlay } ∧ CluBut n s t ∧
        Within [.clk, .flg, .ctr, .clu, .pg, .pin, .msix] s t)) ∧
      (l.action ≠ 1 → (l.action = 2 → l.unserved = true ∨ k.sched = none) → Gives (.latePark n) s (fun t =>
        t.clu[n].state = .idle ∧ t.clu[n].stopReason = 4 ∧ t.clu[n].parked = true ∧ CluBut n s t ∧
        Within [.clk, .eff, .flg, .ctr, .cmd, .more, .tabs, .clu, .wl, .gov, .pg, .pin, .host, .msix, .plc] s t))) ∧
    (∀ r rest, k.lateRecs = r :: rest → Gives (.lateSaturate n) s (fun t => t.clu[n] = { k with lateRecs := rest } ∧ CluBut n s t ∧
      t.flt.seq = s.flt.seq + 1 ∧ t.clk.now = max s.clk.now (r.ts + 65535) ∧
      (s.flt.queue = [] → t.flt.queue.map QueuedRec.body = [{
        cls := 1, cause := r.action.setWidth 8, cluster := some n, source := BitVec.ofNat 8 r.reader.val, entry := r.entry
        sample := BitVec.ofNat 32 r.sample, lateness := 65535, time := BitVec.ofNat 64 (s.tbAt r.ts) }]) ∧
      Within [.clk, .flg, .ctr, .clu, .msix, .flt] s t)) ∧
    (∀ x, k.parked = true → k.latePend = none → k.state = .run ∨ k.state = .stopping →
      s.resumeAt n ((s.clk.now - 1) * 1024 + 1) = some x →
      (s.granuleLanded n x.2.1 x.2.2 = true → Gives (.skipResume n) s (fun t => t.clu[n] = { k with parked := false } ∧ CluBut n s t ∧
        t.clk.now = max s.clk.now (upTick x.1) ∧ Within [.clk, .clu] s t)) ∧
      (s.granuleLanded n x.2.1 x.2.2 = false → Gives (.skipResume n) s (fun t => t = s)))

/-- Each counter clear leaves each counter of its own list at what hardware has counted in the present tick, 0 where that is nothing, and changes no
other counter and nothing else (R410); CLU_CNT_CLR also clears CLU_STARTS. A count and a clear of one tick leave the increment, in either order
(R410). A clear of a pin group or pin that the chip does not have leaves the whole state (R3). Every block has its clear: clusters, jumps, late, generator, converter, pin groups, pins, timing sets, levels, load groups, Bridge,
link, DRAM, placement, memory, host, faults, power and device. -/
def Obligations.CounterClears : Prop :=
  ∀ s : State, s.undef = false →
    let fresh := fun a : Nat =>
      if (smGet (fun _ => ({} : Ctr)) s.ctr a).tick = s.clk.now then (smGet (fun _ => ({} : Ctr)) s.ctr a).inc else 0
    let cleared := fun (l : List Nat) (t : State) => (∀ a ∈ l, t.counter a = fresh a) ∧ CtrsBut l s t ∧ Within [.ctr] s t
    (∀ n : Clu,
      Gives (.cluCntClr n) s (fun t => t.counter (cluA n 0x38) = fresh (cluA n 0x38) ∧ CtrsBut [cluA n 0x38] s t ∧
        t.clu[n] = { s.clu[n] with starts := s.clu[n].starts.clear s.clk.now } ∧ CluBut n s t ∧ Within [.ctr, .clu] s t) ∧
      Gives (.jmpCntClr n) s (cleared [cluA n 0x120, cluA n 0x124, cluA n 0x128, cluA n 0x12C]) ∧
      Gives (.lateCntClr n) s (cleared [cluA n 0x148, cluA n 0x14C])) ∧
    (∀ w : Lane, Gives (.wlnCntClr w) s (cleared [wlA w 0x34]) ∧ Gives (.compCntClr w) s (cleared [wlA w 0x120])) ∧
    (∀ g : Pg,
      (s.hasPg g = true → Gives (.pgCntClr g) s (cleared [pgA g 0xC, pgA g 0x3C]) ∧ Gives (.tsgCntClr g) s (cleared [tsgA g 0x10])) ∧
      (s.hasPg g = false → Gives (.pgCntClr g) s (fun t => t = s) ∧ Gives (.tsgCntClr g) s (fun t => t = s))) ∧
    (∀ p : PinIdx, (s.hasPin p = true → Gives (.pinCntClr p) s (cleared [pinA p 4])) ∧
      (s.hasPin p = false → Gives (.pinCntClr p) s (fun t => t = s))) ∧
    (∀ c : Lvl, Gives (.lvlCntClr c) s (cleared [lvlA c 0x1C])) ∧
    (∀ g : Lg, Gives (.lgCntClr g) s (cleared [lgA g 4])) ∧
    Gives .brgCntClr s (cleared (brgA 0x20B8 :: (List.range 256).map (fun c => brgA (0x2400 + 4 * c)))) ∧
    Gives .lnkCntClr s (cleared linkCtrs) ∧
    Gives .dramCntClr s (cleared ((allFin 16).flatMap (fun g => [4, 8, 0xC, 0x10, 0x14, 0x18, 0x1C].map (chanA g)))) ∧
    Gives .pubCntClr s (cleared [plcA 0x18, plcA 0x30]) ∧
    Gives .memCntClr s (cleared (memA 0x404 :: (List.range 44).flatMap (fun m => [memA (4 * m), memA (0x100 + 4 * m)]))) ∧
    Gives .hostCntClr s (cleared ((List.range 64).map (fun c => 0x71000 + 0x40 * c + 0x38))) ∧
    Gives .fltCntClr s (cleared (fltA 0x10 :: (List.range 11).map (fun k => fltA (0x44 + 4 * k)))) ∧
    Gives .pwrCntClr s (cleared [clkA 0x28]) ∧ Gives .devCntClr s (cleared [0x18]) ∧
    (∀ a k, 0 < k → ((s.count a k).clearCtr a).counter a = fresh a + k ∧
      ((s.clearCtr a).count a k).counter a = min (fresh a + k) top32)

/-- NCO_LOAD waits for a segment start, or a management tick on an idle lane, and reads 1; a second one before it acts is merged with its flag
(R181, R185). NCO_PLAN_READ reads the plan entry with the earliest action instant as one whole, D_out - 32 ticks before that instant at the cluster that produces the
action, as it stood before that tick's writes (R183).
NCO_ACTION waits until every plan entry of its cycle has been read; at the earliest instant it acts at the first cycle from it on: FREQ, CHIRP and the phase offset take the action's values where it enables them, and ACC stays, restarts at 0 or takes
FREQ × m by the action's mode (R181, R182, R184); on a stopped generator it is only spent. QB_GLIDE_END ends the glide (R193). No other lane
changes. -/
def Obligations.GeneratorActions : Prop :=
  ∀ (s : State) (w : Lane), s.undef = false →
    let l := s.wl[w]
    (s.hasLane w = true →
      (l.load ≠ .none → Gives (.ncoLoad w) s (fun t =>
        t.flag (wlA w 0x30) = s.flag (wlA w 0x30) ||| bit32 2 ∧ FlagsBut [wlA w 0x30] s t ∧ Within [.flg, .msix] s t)) ∧
      (l.load = .none → Gives (.ncoLoad w) s (fun t =>
        t.wl[w] = { l with load := if s.laneIdle w then .managementTick else .segmentStart, loadAt := s.clk.now } ∧ WlBut w s t ∧
        t.cmdWord (wlA w 0x20) = s.cmdWord (wlA w 0x20) ||| 1 ∧ CmdsBut [wlA w 0x20] s t ∧ Within [.cmd, .more, .wl] s t))) ∧
    (∀ n x, earliest (s.planAhead w) = some (n, x) →
      let acting := l.acts.any (fun a => decide (a.due = x.1 ∧ a.plan.map BitVec.toNat = some x.2))
      let at_ := max s.clk.now (upTick (x.1 - (s.doutOf n - 32) * 1024))
      let words := s.ncoPlanAt at_ x.2
      Gives (.ncoPlanRead w) s (fun t =>
        (acting = true → t.wl[w] = { l with acts := l.acts.map (fun a =>
          if a.due = x.1 ∧ a.plan.map BitVec.toNat = some x.2 then { a with words := some words } else a) }) ∧
        (acting = false → t.wl[w] = { l with planReads := l.planReads ++ [(x.1, x.2, words)] }) ∧ WlBut w s t ∧
        t.clk.now = at_ ∧ Within [.clk, .wl] s t)) ∧
    (∀ due, minDue l.acts = some due →
      let m := s.cycleFrom due
      let left := l.acts.filter (fun a => decide (s.cycleFrom a.due ≠ m))
      let u := (s.upto (upTick due)).modWl w (fun l => { l with acts := left, planReads := l.planReads.filter (fun r => decide (due < r.1)) })
      let x := (u.ncoUpTo w m).wl[w].nco
      let read := (l.acts.filter (fun a => decide (s.cycleFrom a.due = m))).all (fun a => a.words.isSome)
      (read = false → Gives (.ncoAction w) s (fun t => t = s)) ∧
      (read = true → l.nco.running = false → Gives (.ncoAction w) s (fun t => t = u)) ∧
      (read = true → l.nco.running = true → Gives (.ncoAction w) s (fun t =>
        t.wl[w].acts = left ∧ t.wl[w].state = l.state ∧ WlBut w s t ∧ t.clk.now = max s.clk.now (upTick due) ∧
        Within [.clk, .flg, .wl, .msix] s t)) ∧
      (∀ a p, l.nco.running = true → l.acts.filter (fun a => decide (s.cycleFrom a.due = m)) = [a] → a.words = some p →
        a.plan = none ∨ planActsOn p w = true →
        let f := if p.getLsbD 159 then BitVec.ofNat 48 (bitsOf p.toNat 31 0 + 2 ^ 32 * bitsOf p.toNat 47 32) else x.freq
        Gives (.ncoAction w) s (fun t => t.wl[w].nco = { x with
            freq := f
            chirp := if p.getLsbD 158 then BitVec.ofNat 48 (bitsOf p.toNat 95 64 + 2 ^ 32 * bitsOf p.toNat 111 96) else x.chirp
            phaseOfs := if p.getLsbD 157 then BitVec.ofNat 16 (bitsOf p.toNat 63 48) else x.phaseOfs
            acc := if bitsOf p.toNat 156 155 = 1 then 0
              else if bitsOf p.toNat 156 155 = 2 then f * BitVec.ofNat 48 m else x.acc
            freqLoaded := x.freqLoaded || p.getLsbD 159 } ∧
          t.wl[w].actAt = some m ∧ (l.actAt = some m → (t.flag (wlA w 0x30)).getLsbD 3 = true)))) ∧
    (∀ g, l.glideEnd = some g → Gives (.qbGlideEnd w) s (fun t => t.wl[w] = { l with glideEnd := none } ∧ WlBut w s t ∧
      t.clk.now = max s.clk.now (s.cycleAt g / 1024) ∧ Within [.clk, .wl] s t))

/-- MODULATOR_CYCLE of a running generator runs the lane's next cycle m. The datapath takes the sample that the cycle belongs to, zero-valued where
none plays, through gain stage, expander and half-band filters (R167 to R176), whose limits count and flag; the filters' coefficients are free (R172;
log 5). A lane that does not play feeds its park code (R168, R176), one that plays the mixer word of what the filters give under the carrier of its
phase (R178); calibration and trim offsets are added and the sum is limited to 18 bits (R189). The loop's level is an uninterpreted function of that
word and the loop's state (R190, log 18), the element matching steers it onto the cells from its pointer on, which SCRAMBLE moves by one more at each
1 of its sequence (R197; its polynomial is free, log 18), and the NCO advances by one cycle (R177). While the PLL of the lane's die is unlocked its
level and cells are free (R14, R495; log 18). Nothing outside the lane, its counters and flags changes, but for the tiles that the lane's reader asks
for a sample that begins, and their conflict counters (R358, R359). -/
def Obligations.ModulatorCycles : Prop :=
  ∀ (s : State) (w : Lane), s.undef = false → s.wl[w].nco.running = true →
    let m := max s.wl[w].nco.m (s.cycleFrom (s.clk.now * 1024))
    let at_ := s.cycleAt m
    let u := (s.upto (at_ / 1024)).ncoUpTo w m
    let x := u.wl[w].nco
    let l := s.wl[w]
    let p := BitVec.ofNat 20 (x.acc.toNat / 2 ^ 28 + 16 * x.phaseOfs.toNat)
    let plays := u.lanePlays w at_
    let v := u.laneReads w plays m at_
    let d := v.pathStep w plays m at_
    let y := if plays.isSome then v.mix w p d.2.1.1 d.2.1.2 else (signedOf 18 (s.effF (wlA w 0x104) 17 0), false)
    let cal := if l.state = .cal then 0 else l.ofsUsed.toInt
    let sum := satTo 18 (y.1 + cal + signedOf 18 (s.effF (wlA w 0x128) 17 0))
    let coef := (v.modWl w (fun l => { l with path := d.1 })).coefAt w m
    let n := (if d.2.2 then 1 else 0) + (if y.2 then 1 else 0) + (if sum.2 then 1 else 0)
    let level := Config.loopLevel coef (BitVec.ofInt 18 sum.1) d.1.loop
    let ptr := if l.path.next = some m then l.demPtr else Config.unseen w.val at_ 7 % 15
    let extra := if l.dem = 1 then d.1.scr.toNat % 2 else 0
    let locked := s.clk.pll.getLsbD (2 + w.val / 4)
    Gives (.modulatorCycle w) s (fun t =>
      t.wl[w].yMod = BitVec.ofInt 18 sum.1 ∧
      (locked = true → t.wl[w].level = level ∧ t.wl[w].cells = cellsOf l.dem ptr level ∧ t.freeN = s.freeN) ∧
      (locked = false → t.wl[w].level = (Config.freeWord s.freeN).setWidth 4 ∧
        t.wl[w].cells = (Config.freeWord s.freeN).extractLsb' 4 15 ∧ t.freeN = s.freeN + 1) ∧
      { t.wl[w].path with coefFrom := d.1.coefFrom } =
        { d.1 with loop := Config.loopNext coef (BitVec.ofInt 18 sum.1) d.1.loop, scr := Config.scrambleNext d.1.scr } ∧
      t.wl[w].demPtr = (if l.dem = 2 then ptr else (ptr + level.toNat + extra) % 15) ∧
      t.wl[w].nco = x.run (m + 1) ∧ t.wl[w].state = l.state ∧ WlBut w s t ∧
      (d.2.2 = true → (t.flag (wlA w 0x30)).getLsbD 0 = true) ∧
      (y.2 = true ∨ sum.2 = true → (t.flag (wlA w 0x30)).getLsbD 1 = true) ∧
      t.counter (wlA w 0x34) = (if n = 0 then s.counter (wlA w 0x34) else min (s.counter (wlA w 0x34) + n) top32) ∧
      t.clk.now = max s.clk.now (at_ / 1024) ∧ CtrsBut (wlA w 0x34 :: (List.range 44).map (fun k => memA (4 * k))) s t ∧
      (plays = none → CtrsBut [wlA w 0x34] s t ∧ t.mem = s.mem) ∧ FlagsBut [wlA w 0x30, wlA w 0x11C] s t ∧
      Within [.clk, .flg, .ctr, .wl, .mem, .msix, .freeN] s t)

/-- ARM of a configured device joins the governor's queue from OFF, starts a reconnection from TRIPPED, gives way to a DISARM or CAL written with it, and is
dropped with its flag in the other states; a running ARM keeps its bit, prepared lanes and an unlocked PLL hold a taken ARM, and on an absent die it is
dropped (R202, R203, R206, R210, R417, R428, R495). DISARM drops what was written with it, takes a queued lane out of the queue to OFF, an arming, tripped or
idle armed one to OFF or, under DISARM_GOV, into the queue; it waits on a playing or span-changing lane, and is dropped elsewhere (R202). CAL joins the
queue from OFF of a configured device, gives way to DISARM, wins over an ARM written with it, and is dropped elsewhere (R202, R211); a command that
is held or runs keeps its bit when a further one of it gives way or is dropped (R408). A lane that enters
OFF shows zero in WLN_NCO_NOW (R179). No other lane and no cluster changes. -/
def Obligations.LaneCommands : Prop :=
  ∀ (s : State) (w : Lane), s.undef = false → s.hasLane w = true →
    let l := s.wl[w]
    let also := s.cmdWord (armNewA w)
    let further := smGet (fun _ => 0) s.more
    let plain := fun m : Word => also = m ∧ further (armNewA w) = 0 ∧ further (armA w) = 0
    let mine := fun t : State => WlBut w s t ∧ CmdsBut [armA w, armNewA w, wlA w 0x20] s t
    let reads := fun (m ends : Word) (t : State) => plain m →
      t.cmdWord (armNewA w) = 0 ∧ t.cmdWord (armA w) = s.cmdWord (armA w) &&& ~~~ends
    let drop := fun t : State => t.flag (wlA w 0x11C) = s.flag (wlA w 0x11C) ||| bit32 6 ∧ FlagsBut [wlA w 0x11C] s t ∧
      CmdsBut [armA w, armNewA w] s t ∧ Within [.flg, .cmd, .more, .msix] s t
    let join := fun (k : GovKind) (t : State) =>
      t.gov = { s.gov with queue := govInsert { kind := k, lane := w, takenAt := s.clk.now } s.gov.queue }
    let off := fun t : State => t.wl[w].state = .off ∧ t.wl[w].nco = {} ∧ t.wl[w].load = .none ∧ t.wl[w].disarmHeld = false ∧
      t.wl[w].snapFreq = 0 ∧ t.wl[w].snapP = 0 ∧ (t.cmdWord (wlA w 0x20)).getLsbD 0 = false ∧
      t.wl[w].reason = (if l.state = .armed then 1 else l.reason) ∧ mine t
    let leaves := fun t : State =>
      (s.disarmGov = true → t.wl[w].state = .disarming ∧ join .disarm t ∧ reads 2 1 t) ∧
      (s.disarmGov = false → off t ∧ t.gov = s.gov ∧ reads 2 7 t) ∧
      mine t ∧ Within [.cmd, .more, .wl, .gov] s t
    let waits := fun t : State => t.wl[w] = { l with disarmHeld := true } ∧ WlBut w s t ∧ CmdsBut [armA w, armNewA w] s t ∧
      reads 2 0 t ∧ Within [.cmd, .more, .wl] s t
    let inQueue := fun k : GovKind => s.gov.queue.any (fun q => decide (q.lane = w ∧ q.kind = k))
    let yields := also.getLsbD 0 = true ∧ also &&& ~~~1#32 ≠ 0
    (s.configured = true → yields → Gives (.laneArm w) s (fun t => CmdsBut [armA w, armNewA w] s t ∧ Within [.cmd, .more] s t)) ∧
    (s.configured = true → ¬ yields → s.laneHeld w = true → Gives (.laneArm w) s (fun t =>
      t.pwr = { s.pwr with held := s.pwr.held ++ [.laneArm w] } ∧ Takes (armNewA w) 1 s t ∧ Within [.pwr, .cmd, .more] s t)) ∧
    (s.configured = true → ¬ yields → s.laneHeld w = false →
      (s.dieAbsent w = true → Gives (.laneArm w) s (fun t => drop t ∧ reads 1 1 t)) ∧
      (s.dieAbsent w = false →
        (l.state = .off → Gives (.laneArm w) s (fun t => t.wl[w] = { l with state := .queued } ∧ join .arm t ∧ WlBut w s t ∧
          Takes (armNewA w) 1 s t ∧ Within [.cmd, .more, .wl, .gov] s t)) ∧
        (l.state = .tripped → l.reconnect = false → Gives (.laneArm w) s (fun t =>
          t.wl[w] = { l with reconnect := true, due := s.clk.now + 1600 } ∧ WlBut w s t ∧ Takes (armNewA w) 1 s t ∧
          Within [.cmd, .more, .wl] s t)) ∧
        (l.state = .tripped → l.reconnect = true → Gives (.laneArm w) s (fun t =>
          Takes (armNewA w) 1 s t ∧ Within [.cmd, .more] s t)) ∧
        (l.state = .arming ∨ (l.state = .queued ∧ inQueue .arm = true) → Gives (.laneArm w) s (fun t => drop t ∧ reads 1 0 t)) ∧
        (l.state = .armed ∨ l.state = .spanChange ∨ l.state = .disarming ∨ l.state = .cal ∨
          (l.state = .queued ∧ inQueue .arm = false) → Gives (.laneArm w) s (fun t => drop t ∧ reads 1 1 t)))) ∧
    (l.state = .queued → Gives (.laneDisarm w) s (fun t => off t ∧ reads 2 7 t ∧
      t.gov = { s.gov with queue := s.gov.queue.filter (fun q => decide (q.lane ≠ w)) } ∧ Within [.cmd, .more, .wl, .gov] s t)) ∧
    (l.state = .arming ∨ l.state = .tripped ∨ (l.state = .armed ∧ s.laneIdle w = true) → Gives (.laneDisarm w) s leaves) ∧
    ((l.state = .armed ∧ s.laneIdle w = false) ∨ l.state = .spanChange → Gives (.laneDisarm w) s waits) ∧
    (l.state = .off ∨ l.state = .cal → Gives (.laneDisarm w) s (fun t => drop t ∧ reads 2 2 t)) ∧
    (l.state = .disarming → Gives (.laneDisarm w) s drop) ∧
    (also.getLsbD 2 = true → also.getLsbD 1 = true → Gives (.laneCal w) s (fun t =>
      CmdsBut [armA w, armNewA w] s t ∧ Within [.cmd, .more] s t)) ∧
    (¬ (also.getLsbD 2 = true ∧ also.getLsbD 1 = true) →
      (s.laneHeld w = true → Gives (.laneCal w) s (fun t =>
        t.pwr = { s.pwr with held := s.pwr.held ++ [.laneCal w] } ∧ CmdsBut [armA w, armNewA w] s t ∧
        Within [.pwr, .cmd, .more] s t)) ∧
      (s.laneHeld w = false → s.dieAbsent w = true → Gives (.laneCal w) s (fun t => drop t ∧ reads 4 4 t)) ∧
      (s.laneHeld w = false → s.dieAbsent w = false →
        (l.state = .off → s.configured = true → Gives (.laneCal w) s (fun t => t.wl[w] = { l with state := .queued } ∧
          join .cal t ∧ mine t ∧ reads 4 0 t ∧ (also = 5#32 → plain 5#32 → t.cmdWord (armA w) = s.cmdWord (armA w) &&& ~~~(1#32 &&& ~~~(s.laneRuns w))) ∧
          Within [.cmd, .more, .wl, .gov] s t)) ∧
        (l.state = .cal ∨ (l.state = .queued ∧ inQueue .cal = true) → Gives (.laneCal w) s (fun t => drop t ∧ reads 4 0 t)) ∧
        ((l.state = .off ∧ s.configured = false) ∨ (l.state = .queued ∧ inQueue .cal = false) →
          Gives (.laneCal w) s (fun t => drop t ∧ reads 4 4 t)) ∧
        (l.state = .arming ∨ l.state = .armed ∨ l.state = .spanChange ∨ l.state = .disarming ∨ l.state = .tripped →
          Gives (.laneCal w) s (fun t => drop t ∧ reads 4 (4#32 &&& ~~~(s.laneRuns w)) t))))

/-- The head of the governor's queue is admitted at the first tick that the spacing from the previous admission allows. An arm takes FS and SPAN as last
written before that tick (R411), and DEM and the calibration results; it enters ARMING for 8 µs with REASON cleared, and starts the generator from its registers with the loop at
zero and the modulator not yet run (R203, R179, R190, R195, R211); the pointer of the element matching stays (log 18). A CAL takes FS and SPAN and
measures for 2 ms (R211); a disarm enters OFF and drops a waiting LOAD (R203). A prepared governor admits nothing (R428). No other lane changes. -/
def Obligations.GovernorAdmits : Prop :=
  ∀ (s : State) (q : GovReq) (rest : List GovReq), s.undef = false → s.gov.queue = q :: rest →
    let w := q.lane
    let at_ := max s.clk.now (max q.takenAt (match s.gov.lastAdmit with | some a => a + s.govSpacing | none => 0))
    let c := (s.upto at_).settledW (wlA w 0x100)
    let taken := fun t : State => t.wl[w].fs = BitVec.ofNat 9 (fld c 24 16) ∧ t.wl[w].unipolar = c.getLsbD 8 ∧
      (fld c 24 16 ≠ fsActs (fld c 24 16) → (t.flag (wlA w 0x11C)).getLsbD 7 = true)
    let head := fun t : State => t.gov = { queue := rest, lastAdmit := some at_ } ∧ t.clk.now = at_ ∧ WlBut w s t ∧
      FlagsBut [wlA w 0x11C] s t ∧ WordsBut [wlA w 0x100] s t ∧ CmdsBut [armA w, wlA w 0x20] s t ∧
      Within [.clk, .eff, .flg, .cmd, .more, .wl, .gov, .msix] s t
    (s.prepared 10 = true → Gives .govAdmit s (fun t => t = s)) ∧
    (s.prepared 10 = false →
      (q.kind = .arm → Gives .govAdmit s (fun t => head t ∧ taken t ∧ t.wl[w].state = .arming ∧ t.wl[w].due = at_ + 12800 ∧
        t.wl[w].reason = 0 ∧ t.wl[w].ofsUsed = s.wl[w].calOfs ∧
        t.wl[w].dem.toNat = fld (merge (s.effW (wlA w 0x100)) ((s.upto at_).settledW (wlA w 0x100)) 3) 1 0 ∧
        t.wl[w].gainUsed = s.wl[w].calGain ∧ t.wl[w].nco.running = true ∧ t.wl[w].glideEnd = none ∧
        t.wl[w].path.loop = 0 ∧ t.wl[w].path.next = some t.wl[w].nco.m ∧ t.wl[w].demPtr = s.wl[w].demPtr ∧
        t.wl[w].nco.m = (s.upto at_).cycleFrom (at_ * 1024) ∧
        t.wl[w].nco.freq.toNat = (s.effW (wlA w 0x10)).toNat + 2 ^ 32 * s.effF (wlA w 0x14) 15 0 ∧
        t.wl[w].nco.chirp.toNat = (s.effW (wlA w 0x18)).toNat + 2 ^ 32 * s.effF (wlA w 0x1C) 15 0 ∧
        t.wl[w].nco.phaseOfs.toNat = s.effF (wlA w 0x20) 31 16 ∧
        t.wl[w].nco.acc = t.wl[w].nco.freq * BitVec.ofNat 48 t.wl[w].nco.m)) ∧
      (q.kind = .cal → Gives .govAdmit s (fun t => head t ∧ taken t ∧ t.wl[w].state = .cal ∧ t.wl[w].due = at_ + 3200000 ∧
        t.wl[w].calAt = some (t.wl[w].fs, t.wl[w].unipolar) ∧ t.wl[w].nco = s.wl[w].nco)) ∧
      (q.kind = .disarm → Gives .govAdmit s (fun t => head t ∧ t.wl[w].state = .off ∧ t.wl[w].nco = {} ∧ t.wl[w].load = .none ∧
        t.wl[w].reason = s.wl[w].reason)))

/-- ARM_PROBE_END connects the lane into ARMED with its event bit, or, where the probe fails and OL_ACT is not NONE, trips it with REASON 3 (R203, R210);
a reconnection takes FS and SPAN as last written before the tick in which it connects (R206, R411). SPAN_CHANGE_START takes them on an idle armed lane where they differ, for 2 µs
(R206, R207); SPAN_CHANGE_END connects or trips, and a DISARM held meanwhile then acts (R202). CAL_DONE stores the measured offset and gain and leaves for
OFF (R211). A failed probe counts and is reported. No other lane changes. -/
def Obligations.LaneProbesAndSpans : Prop :=
  ∀ (s : State) (w : Lane), s.undef = false →
    let l := s.wl[w]
    let evt := wlA w 0x11C
    let c := s.settledW (wlA w 0x100)
    let d := (s.upto l.due).settledW (wlA w 0x100)
    let joined := { l with
      state := .armed, reconnect := false
      fs := if l.reconnect then BitVec.ofNat 9 (fld d 24 16) else l.fs
      unipolar := if l.reconnect then d.getLsbD 8 else l.unipolar }
    let failed := fun t : State => (t.flag evt).getLsbD 5 = true ∧ t.flt.seq = s.flt.seq + 1 ∧
      t.counter (wlA w 0x120) = min (s.counter (wlA w 0x120) + 1) top32
    let ends := fun t : State => WlBut w s t ∧ t.clk.now = max s.clk.now l.due ∧ WordsBut [wlA w 0x100] s t ∧
      Takes (armA w) (1#32 &&& ~~~(s.cmdWord (armNewA w))) s t
    let connects := fun (bit : Nat) (t : State) => t.wl[w] = joined ∧ (t.flag evt).getLsbD bit = true ∧ FlagsBut [evt] s t ∧ ends t ∧
      Within [.clk, .eff, .flg, .cmd, .more, .wl, .msix] s t
    let warns := fun (bit : Nat) (t : State) => t.wl[w] = joined ∧ (t.flag evt).getLsbD bit = true ∧ failed t ∧ ends t ∧
      Within [.clk, .eff, .flg, .ctr, .cmd, .more, .wl, .brg, .msix, .flt] s t
    let trips := fun t : State => t.wl[w] = { l with state := .tripped, reconnect := false, reason := 3 } ∧ failed t ∧ ends t ∧
      Within [.clk, .flg, .ctr, .cmd, .more, .wl, .brg, .msix, .flt] s t
    (l.state = .arming ∨ (l.state = .tripped ∧ l.reconnect = true) →
      Gives (.armProbeEnd w false) s (connects 0) ∧ (s.olAct w = 1 → Gives (.armProbeEnd w true) s (warns 0)) ∧
      (s.olAct w ≠ 1 → Gives (.armProbeEnd w true) s trips)) ∧
    (l.state = .armed → s.laneIdle w = true → s.spanWaits w = true →
      (s.prepared 2 = true → Gives (.spanChangeStart w) s (fun t => t.pwr.held = s.pwr.held ++ [.spanChangeStart w] ∧ Within [.pwr] s t)) ∧
      (s.prepared 2 = false → Gives (.spanChangeStart w) s (fun t =>
        t.wl[w] = { l with state := .spanChange, reason := 5, due := s.clk.now + 3200, fs := BitVec.ofNat 9 (fld c 24 16),
                           unipolar := c.getLsbD 8 } ∧
        WlBut w s t ∧ WordsBut [wlA w 0x100] s t ∧ FlagsBut [evt] s t ∧ Within [.eff, .flg, .wl, .msix] s t))) ∧
    (l.state = .spanChange → l.disarmHeld = false → Gives (.spanChangeEnd w false) s (connects 1) ∧
      (s.olAct w = 1 → Gives (.spanChangeEnd w true) s (warns 1)) ∧ (s.olAct w ≠ 1 → Gives (.spanChangeEnd w true) s trips)) ∧
    (∀ fails, l.state = .spanChange → l.disarmHeld = true → Gives (.spanChangeEnd w fails) s (fun t =>
      t.wl[w].state = (if s.disarmGov then .disarming else .off) ∧ t.wl[w].disarmHeld = false ∧ WlBut w s t ∧
      (fails = true → failed t) ∧ (fails = false ∨ s.olAct w = 1 → (t.flag evt).getLsbD 1 = true) ∧
      t.clk.now = max s.clk.now l.due ∧ Within [.clk, .eff, .flg, .ctr, .cmd, .more, .wl, .gov, .brg, .msix, .flt] s t)) ∧
    (∀ ofs gain, l.state = .cal → Gives (.calDone w ofs gain) s (fun t => t.wl[w].calOfs = ofs ∧ t.wl[w].calGain = gain ∧
      t.wl[w].ofsUsed = l.ofsUsed ∧ t.wl[w].state = (if s.disarmGov then .disarming else .off) ∧ WlBut w s t ∧
      t.flag evt = s.flag evt ||| bit32 2 ∧ FlagsBut [evt] s t ∧ t.clk.now = max s.clk.now l.due ∧
      Within [.clk, .flg, .cmd, .more, .wl, .gov, .msix] s t))

/-- A compliance flag of a watched ball, and an open-load flag, of an ARMED lane counts in WLN_PROT_COUNT, sets the bit of its ball, and is reported with
class 8 (R209, R210); a second ball's flag of the same tick does the same although the first has just tripped the lane. Under NONE nothing else happens;
else the lane trips with REASON 2 or 3, and a cluster in LEAD, RUN or STOPPING that it serves stops with reason FAULT (R210). Nothing happens but the
tick passing on a lane that is not connected, for OUTN in unipolar span, before the condition has been clear for 64 ticks and the filter has run anew,
and for an open-load flag in a tick of a compliance flag, which is then the cause (R209). -/
def Obligations.LaneProtection : Prop :=
  ∀ (s : State) (w : Lane) (at_ : Nat), s.undef = false →
    let l := s.wl[w]
    let quiet := fun t : State => t = s.upto at_
    let latest := fun side : BallSide => match side with | .outp => l.compP | .outn => l.compN
    let stamped := fun side : BallSide => match side with | .outp => { l with compP := some at_ } | .outn => { l with compN := some at_ }
    let bitOf := fun side : BallSide => match side with | .outp => 3 | .outn => 4
    let flagged := fun (bit : Nat) (t : State) => (t.flag (wlA w 0x11C)).getLsbD bit = true ∧
      t.counter (wlA w 0x120) = min (s.counter (wlA w 0x120) + 1) top32 ∧ t.flt.seq = s.flt.seq + 1 ∧ t.clk.now = max s.clk.now at_
    let only := fun (bit : Nat) (v : WLane) (t : State) => flagged bit t ∧ t.wl[w] = v ∧ WlBut w s t ∧ t.clu = s.clu ∧
      Within [.clk, .flg, .ctr, .wl, .brg, .msix, .flt] s t
    let plays := fun n : Clu => s.clu[n].state = .lead ∨ s.clu[n].state = .run ∨ s.clu[n].state = .stopping
    let alone := fun (bit : Nat) (v : WLane) (why : BitVec 4) (t : State) =>
      only bit { v with state := .tripped, reason := why, reconnect := false } t
    let stops := fun (bit : Nat) (why : BitVec 4) (n : Clu) (t : State) =>
      (l.disarmHeld = false → t.wl[w].state = .tripped ∧ t.wl[w].reason = why) ∧ t.clu[n].state = .idle ∧ t.clu[n].stopReason = 4 ∧
      CluBut n s t ∧ (t.flag (wlA w 0x11C)).getLsbD bit = true ∧ t.flt.seq = s.flt.seq + 1
    let noPlay := ∀ n, s.laneOwner w = some n → ¬ plays n
    (∀ side, s.flagsNow w at_ = false ∨ (l.unipolar = true ∧ side = .outn) ∨ mayFlag (latest side) 64 at_ = false →
      Gives (.wComplianceFlag w side at_) s quiet) ∧
    (∀ b, l.state ≠ .armed ∨ b = true ∨ l.compP = some at_ ∨ l.compN = some at_ ∨ mayFlag l.openAt 1600 at_ = false →
      Gives (.wOpenLoadFlag w ⟨at_, b⟩) s quiet) ∧
    (∀ side, s.flagsNow w at_ = true → (l.unipolar = true → side = .outp) → mayFlag (latest side) 64 at_ = true →
      (s.compAct w = 1 ∨ l.state ≠ .armed → Gives (.wComplianceFlag w side at_) s (only (bitOf side) (stamped side))) ∧
      (s.compAct w ≠ 1 → l.state = .armed →
        (noPlay → Gives (.wComplianceFlag w side at_) s (alone (bitOf side) (stamped side) 2)) ∧
        (∀ n, s.laneOwner w = some n → plays n → Gives (.wComplianceFlag w side at_) s (stops (bitOf side) 2 n)))) ∧
    (l.state = .armed → l.compP ≠ some at_ → l.compN ≠ some at_ → mayFlag l.openAt 1600 at_ = true →
      (s.olAct w = 1 → Gives (.wOpenLoadFlag w ⟨at_, false⟩) s (only 5 { l with openAt := some at_ })) ∧
      (s.olAct w ≠ 1 →
        (noPlay → Gives (.wOpenLoadFlag w ⟨at_, false⟩) s (alone 5 { l with openAt := some at_ } 3)) ∧
        (∀ n, s.laneOwner w = some n → plays n → Gives (.wOpenLoadFlag w ⟨at_, false⟩) s (stops 5 3 n))))

/-- FF_ARM clears and arms the record; a failing vector of the same tick is captured at once (R228). A write of FL_RD_COUNT is taken on an idle group, or
up to FL_WR_COUNT, and else only sets its flag (R239); a group that the part lacks takes neither (R3). FAIL_RECORD_WRITE writes the oldest record into its ring slot, in the tick in which the slot's tile
grants it (R358), and counts it, at most one a tick; a full ring without WRAP loses and counts it, one with WRAP flags it, and a slot that the group's regions deny is not written (R231, R362).
TCAL runs 200 µs on an idle, planned group and reads 1 while it runs; it is dropped with its flag elsewhere, waits under a prepared block or an unlocked
PLL, and does nothing on a group that the part lacks or while one runs, which presents it when it ends (R254, R408, R409, R431, R495). -/
def Obligations.FailRecords : Prop :=
  ∀ (s : State) (g : Pg), s.undef = false →
    let p := s.pg[g]
    let evt := pgA g 8
    let sets := fun (a bit : Nat) (t : State) => t.flag a = s.flag a ||| bit32 bit ∧ FlagsBut [a] s t
    (s.hasPg g = false → Gives (.ffArm g) s (fun t => t = s) ∧ ∀ v, Gives (.flRdCountWrite g v) s (fun t => t = s)) ∧
    (s.hasPg g = true → (∀ x, p.ffLast = some (s.clk.now, x) → Gives (.ffArm g) s (fun t => t.pg[g] = { p with ff := some x, ffArmed := false } ∧
        PgBut g s t ∧ sets evt 0 t ∧ Within [.flg, .pg, .msix] s t)) ∧
      ((∀ x, p.ffLast = some x → x.1 ≠ s.clk.now) → Gives (.ffArm g) s (fun t =>
        t.pg[g] = { p with ff := none, ffArmed := true } ∧ PgBut g s t ∧ Within [.pg] s t))) ∧
    (∀ v : Word, s.hasPg g = true →
      let ok := s.pgIdle g = true ∨ (v - p.flRd).toNat ≤ (p.flWr - p.flRd).toNat
      (ok → Gives (.flRdCountWrite g v) s (fun t => t.pg[g] = { p with flRd := v, flRdOld := some (s.clk.now, p.flRd) } ∧
        PgBut g s t ∧ Within [.pg] s t)) ∧
      (¬ ok → Gives (.flRdCountWrite g v) s (fun t => sets evt 7 t ∧ Within [.flg, .msix] s t))) ∧
    (∀ r rest, p.flQueue = r :: rest →
      let at_ := max s.clk.now (match p.flWrote with | some t => t + 1 | none => 0)
      let rd := match p.flRdOld with | some x => if x.1 = at_ then x.2 else p.flRd | none => p.flRd
      let slot := p.flWr.toNat % p.flSize
      let full := (p.flWr - rd).toNat = p.flSize
      let wrap := s.effB (pgA g 0) 2
      let ok := s.slotOk (37 + g.val) (s.ringSlot g slot) true
      (full → wrap = false → Gives (.failRecordWrite g) s (fun t => t.pg[g] = { p with flQueue := rest, flWrote := some at_ } ∧
        PgBut g s t ∧ t.counter (pgA g 0x3C) = min (s.counter (pgA g 0x3C) + 1) top32 ∧ CtrsBut [pgA g 0x3C] s t ∧
        sets evt 4 t ∧ t.clk.now = at_ ∧ Within [.clk, .flg, .ctr, .pg, .msix] s t)) ∧
      let got := (((s.upto at_).modPg g (fun p => { p with flQueue := rest, flWrote := some at_ })).slotGrant
        (Fin.ofNat 44 (37 + g.val)) (s.ringSlot g slot)).clk.now
      (¬ full ∨ wrap = true → ok = true → Gives (.failRecordWrite g) s (fun t =>
        t.pg[g] = { p with flQueue := rest, flWrote := some got, flWr := p.flWr + 1, ring := smPut (fun _ => 0) p.ring slot r } ∧
        PgBut g s t ∧ (full → sets evt 5 t) ∧ (¬ full → t.flg = s.flg) ∧ t.clk.now = got ∧
        CtrsBut ((List.range 44).map (fun m => memA (4 * m))) s t ∧ Within [.clk, .flg, .ctr, .pg, .mem, .msix] s t)) ∧
      (¬ full ∨ wrap = true → ok = false → Gives (.failRecordWrite g) s (fun t =>
        t.pg[g] = { p with flQueue := rest, flWrote := some got, flWr := p.flWr + 1 } ∧ PgBut g s t ∧
        t.mem.violSrc.toNat = 37 + g.val ∧ t.mem.violWrite = true ∧ Within [.clk, .flg, .ctr, .pg, .mem, .msix, .flt] s t))) ∧
    (let planned := s.clk.plan.getLsbD (8 + g.val)
     let holds := planned && (s.prepared 4 || !s.clk.pll.getLsbD 1)
     let free := s.hasPg g = true ∧ p.tcalUntil = none
     (¬ free → Gives (.tcal g) s (fun t => t = s)) ∧
     (free → holds = true → Gives (.tcal g) s (fun t => t.pwr = { s.pwr with held := s.pwr.held ++ [.tcal g] } ∧ Within [.pwr] s t)) ∧
     (free → holds = false → planned = true → s.pgIdle g = true → Gives (.tcal g) s (fun t =>
       t.pg[g] = { p with tcalUntil := some (s.clk.now + 320000) } ∧ PgBut g s t ∧
       t.cmdWord (tsgA g 0) = s.cmdWord (tsgA g 0) ||| 1 ∧ CmdsBut [tsgA g 0] s t ∧ Within [.cmd, .more, .pg] s t)) ∧
     (free → holds = false → planned = false ∨ s.pgIdle g = false → Gives (.tcal g) s (fun t =>
       sets (tsgA g 8) 4 t ∧ Takes (tsgA g 0) 1 s t ∧ Within [.flg, .cmd, .more, .msix] s t)) ∧
     (∀ v, p.tcalUntil = some v → Gives (.tcalDone g) s (fun t => t.pg[g] = { p with tcalUntil := none, calibrated := true } ∧
       PgBut g s t ∧ sets (tsgA g 8) 5 t ∧ Takes (tsgA g 0) 1 s t ∧ t.clk.now = max s.clk.now v ∧
       Within [.clk, .flg, .cmd, .more, .pg, .msix] s t)))

/-- VECTOR_START of a playing cluster starts the group's next vector at its instant: the next one follows by the actual period, which is that of the first
group's set in a cluster without W lanes, or M × Ts; a set whose period differs sets its cluster's flag (R216, R240). A vector whose word has landed by its check instant fires the
vector producers that its bits name, with its tick (R219); without it, or in a parked cluster, every pin of the group parks from the instant and
the match play has parked vectors (R222, R159, R234). The periods that the cluster's first group plays are kept for the readers (R156), and the group's reader asks its tiles
for the units that the vector begins (R358). No other group, no pin of
another group and no other cluster changes. -/
def Obligations.VectorsPlay : Prop :=
  ∀ (s : State) (g : Pg) (n : Clu), s.undef = false → s.pgOwner g = some n →
    let k := s.clu[n]
    let e := k.entry
    let at_ := s.pg[g].vecNext
    let i := s.pg[g].vecIdx
    let u := s.upto (upTick at_)
    let p := u.playNow n
    let v := u.readerReads n p (pgReader g) i
    let x := v.groupPlace n g
    let w := v.timedWord n p g x
    let set := vecSet e w
    let period := if v.hasW n then v.mOf n * v.tsOf n
      else match v.firstGroup n with
        | some h => v.setPeriod h at_ (vecSet e (v.timedWord n p h x))
        | none => 512
    let after := fun k : Cluster => if s.firstGroup n = some g then { k with runVecs := (period :: k.runVecs).take 64 } else k
    let goesOn := fun t : State =>
      t.pg[g].vecNext = at_ + period ∧ t.pg[g].vecIdx = i + 1 ∧ t.pg[g].vecPeriod = period ∧ PgBut g s t ∧ PinsBut g s t ∧
      CluBut n s t ∧ t.clk.now = max s.clk.now (upTick at_) ∧
      (v.setPeriod g at_ set ≠ period → (t.flag (cluA n 0x40)).getLsbD 4 = true)
    s.playing n at_ = true → i < s.playVectors n e →
      (k.parked = true ∨ w = none → Gives (.vectorStart g) s (fun t => goesOn t ∧ t.clu[n] = after { k with matchParked := true } ∧
        (∀ j : Fin 16, t.pin[pinOf g j] = (s.parkPin g j at_).pin[pinOf g j]) ∧ t.brg = s.brg ∧
        Within [.clk, .flg, .ctr, .clu, .pg, .pin, .mem, .msix] s t)) ∧
      (∀ x, k.parked = false → w = some x → Gives (.vectorStart g) s (fun t => goesOn t ∧ t.clu[n] = after k ∧
        (x.getLsbD 54 = true → s.configured = true → s.producerOk (88 + 2 * g.val) = true →
          ∃ b ∈ t.brg.inFlight, b.prod.val = 88 + 2 * g.val ∧ b.at_ = upTick at_) ∧
        (x.getLsbD 55 = true → s.configured = true → s.producerOk (89 + 2 * g.val) = true →
          ∃ b ∈ t.brg.inFlight, b.prod.val = 89 + 2 * g.val ∧ b.at_ = upTick at_) ∧
        (bitsOf x.toNat 63 56 ≠ 0 → (t.flag (pgA g 8)).getLsbD 6 = true) ∧
        Within [.clk, .flg, .ctr, .clu, .pg, .pin, .brg, .mem, .msix] s t))

/-- STROBE takes the pin's next pending strobe of its kind: edge samples compare PCH and PCL, after the pin's inversions, with the state code; a window pairs
the two inputs at equal offsets from the openings of their windows, and fails where they leave the code's state for 150 ps (R221, R223, R224, R246). A pass or a
masked strobe counts nothing; the first fail of a pin in its vector counts the pin, and the first of the vector the group, with their flags (R226, R227); both
inputs asserted, in a window for 150 ps, sets its flags (R224). The pin keeps its sampling instants (R248); a capture only observes (R229). A strobe of a
vector outside match play touches no cluster. No other group and no other pin changes. -/
def Obligations.StrobesCompare : Prop :=
  ∀ (s : State) (p : PinIdx) (sel : StrobeSel), s.undef = false →
    let g : Pg := Fin.ofNat 4 (p.val / 16)
    let j : Fin 16 := Fin.ofNat 16 (p.val % 16)
    ∀ x, s.pg[g].strobes.find? (fun x => decide (x.pin = j ∧ x.sel = sel)) = some x →
      let frame := fun (inst : Nat) (t : State) =>
        t.pg[g].strobes = s.pg[g].strobes.erase x ∧ PgBut g s t ∧ (∀ q : PinIdx, q ≠ p → t.pin[q] = s.pin[q]) ∧
        t.clk.now = max s.clk.now (upTick inst) ∧ Within [.clk, .flg, .ctr, .clu, .pg, .pin, .brg, .msix] s t
      let same := fun t : State => t.counter (pinA p 4) = s.counter (pinA p 4) ∧ t.counter (pgA g 0xC) = s.counter (pgA g 0xC) ∧
        t.clu = s.clu ∧ t.brg = s.brg
      let fails := fun (v : VecOpen) (t : State) =>
        t.counter (pinA p 4) = (if v.fails.getLsbD j.val then s.counter (pinA p 4) else min (s.counter (pinA p 4) + 1) top32) ∧
        t.counter (pgA g 0xC) = (if v.fails = 0 then min (s.counter (pgA g 0xC) + 1) top32 else s.counter (pgA g 0xC)) ∧
        (v.fails.getLsbD j.val = false → (t.flag (pinA p 8)).getLsbD 0 = true) ∧
        (v.fails = 0 → (t.flag (pgA g 8)).getLsbD 1 = true) ∧ (v.inMatch = false → t.clu = s.clu)
      let vec := s.pg[g].vecs.find? (fun v => decide (v.start = x.vec))
      (∀ ballCh ballCl, x.window = false → sel ≠ .cap →
        let pch := ballCh ^^ (s.effW (pinA p 0)).getLsbD 2
        let pcl := ballCl ^^ (s.effW (pinA p 0)).getLsbD 3
        let inst := max x.atCh x.atCl
        let edge := Instr.strobe p sel (.edge ballCh ballCl)
        let sampled := fun t : State => frame inst t ∧ t.pin[p] = { s.pin[p] with lastCh := some x.atCh, lastCl := some x.atCl } ∧
          (pch = true → pcl = true → (t.flag (pinA p 8)).getLsbD 1 = true ∧ (t.flag (pgA g 8)).getLsbD 2 = true)
        (compareOf x.code.toNat pch pcl ≠ some false → Gives edge s (fun t => sampled t ∧ same t)) ∧
        (∀ v, compareOf x.code.toNat pch pcl = some false → vec = some v → Gives edge s (fun t => sampled t ∧ fails v t))) ∧
      (∀ ballCh ballCl, x.window = true →
        let hold := pairedHold (waveUnder ballCh ((s.effW (pinA p 0)).getLsbD 2)) (waveUnder ballCl ((s.effW (pinA p 0)).getLsbD 3)) x.windowLen
        let failing := hold (fun pch pcl => decide (compareOf x.code.toNat pch pcl = some false))
        let both := (hold (fun pch pcl => pch && pcl)).isSome
        let inst := match failing with | some u => max x.atCh x.atCl + (u + 99) / 100 | none => max x.closeCh x.closeCl
        let win := Instr.strobe p sel (.window ballCh ballCl)
        (x.code = 4 ∨ failing = none → Gives win s (fun t => frame inst t ∧ t.pin = s.pin ∧ same t)) ∧
        (∀ v, x.code ≠ 4 → failing ≠ none → vec = some v → Gives win s (fun t => frame inst t ∧ t.pin = s.pin ∧ fails v t)) ∧
        (both = true → Gives win s (fun t => (t.flag (pinA p 8)).getLsbD 1 = true ∧ (t.flag (pgA g 8)).getLsbD 2 = true))) ∧
      (∀ ballCh ballCl, x.window = false → sel = .cap → Gives (.strobe p sel (.edge ballCh ballCl)) s (fun t =>
        frame (max x.atCh x.atCl) t ∧ t.pin = s.pin ∧ same t))

/-- A rising OE settles an OPEN or TRIPPED channel for 32,000 ticks, longer under a span change that runs on; a falling one opens it at once, with REASON 1
where it was driven (R270). LVL_CONNECT connects a settling channel at its instant, with its flags, and disturbs its own conversion (R270, R278).
LVL_RECONNECT settles a TRIPPED channel and is dropped elsewhere (R276). A prepared block holds a rising OE and RECONNECT (R431). No other channel
changes. -/
def Obligations.LevelConnections : Prop :=
  ∀ (s : State) (c : Lvl), s.undef = false →
    let l := s.lvl[c]
    let oe := s.lvlOeCfg c
    let due := if l.changing then max l.due (s.clk.now + 32000) else s.clk.now + 32000
    let settled := { l with
      state := .settling, due := due, driven := false, settling := true, reason := if l.state = .opened then 0 else l.reason }
    (oe = l.oe → Gives (.lvlOeWrite c) s (fun t => t = s)) ∧
    (oe = true → l.oe = false → s.prepared 3 = true → Gives (.lvlOeWrite c) s (fun t =>
      t.pwr.held = s.pwr.held ++ [.lvlOeWrite c] ∧ Within [.pwr] s t)) ∧
    (oe = true → l.oe = false → s.prepared 3 = false → Gives (.lvlOeWrite c) s (fun t =>
      t.lvl[c] = (if l.state = .opened ∨ l.state = .tripped then { settled with oe := true } else { l with oe := true }) ∧
      LvlBut c s t ∧ Within [.lvl] s t)) ∧
    (oe = false → l.oe = true → Gives (.lvlOeWrite c) s (fun t =>
      t.lvl[c] = { l with oe := false, state := .opened, driven := false, settling := false
                          reason := if l.on then 1 else l.reason, changing := l.changing || decide (l.state = .spanChange) } ∧
      LvlBut c s t ∧ Within [.lvl] s t)) ∧
    (l.state = .settling → Gives (.lvlConnect c) s (fun t =>
      t.lvl[c] = { l with state := .connected, settling := false, changing := false } ∧ LvlBut c s t ∧
      t.flag (lvlA c 0x18) = s.flag (lvlA c 0x18) ||| bit32 0 ||| (if l.changing then bit32 1 else 0) ∧ FlagsBut [lvlA c 0x18] s t ∧
      t.mon = (if s.mon.chan.any (fun k => decide (k.val = c.val)) then { s.mon with disturbed := true } else s.mon) ∧
      t.clk.now = max s.clk.now l.due ∧ Within [.clk, .flg, .lvl, .mon, .msix] s t)) ∧
    (s.prepared 3 = true → Gives (.lvlReconnect c) s (fun t => t.pwr.held = s.pwr.held ++ [.lvlReconnect c] ∧
      t.cmdWord (lvlA c 0x10) = s.cmdWord (lvlA c 0x10) ||| 4 ∧ CmdsBut [lvlA c 0x10] s t ∧ Within [.pwr, .cmd, .more] s t)) ∧
    (s.prepared 3 = false → Gives (.lvlReconnect c) s (fun t => t.lvl[c] = (if l.state = .tripped then settled else l) ∧
      LvlBut c s t ∧ CmdsBut [lvlA c 0x10] s t ∧ Within [.cmd, .more, .lvl] s t))

/-- A span that differs from the one in force is taken (not while a change runs, not a reserved one). Under MBB within volts or within currents the code
becomes the nearest one (a tie is a free value, log 19) and the output stays driven; else the code is 0 and the output leaves (R271 to R273). The
change ends 32,000 ticks later (R272). A compliance flag of a driven current channel, for an output outside the window in force, and an open-loop flag, not in a
tick of a compliance flag, counts, sets its bit and is reported once the condition has been clear, and trips unless the action is NONE (R275, R276). A conversion ends valid and numbered, with the delivered current of a CONNECTED channel of a current span and else the ball's voltage, and the
next selected channel follows (R277, R278). No other channel
changes. -/
def Obligations.LevelSpansAndFlags : Prop :=
  ∀ (s : State) (c : Lvl), s.undef = false →
    let l := s.lvl[c]
    let sp := s.lvlSpanCfg c
    let evt := lvlA c 0x18
    let disturbs := fun t : State =>
      t.mon = (if s.mon.chan.any (fun k => decide (k.val = c.val)) then { s.mon with disturbed := true } else s.mon)
    let keep := s.lvlMbb c && decide (currentSpan sp = currentSpan l.span.toNat)
    let code := nearestCode l.span.toNat sp l.active ((Config.freeWord s.freeN).getLsbD 0)
    let switched := { l with span := BitVec.ofNat 4 sp, active := if keep then code.1 else 0 }
    (sp = l.span.toNat ∨ 7 ≤ sp ∨ l.state = .spanChange → Gives (.lvlSpanWrite c) s (fun t => t = s)) ∧
    (sp ≠ l.span.toNat → sp < 7 → l.state ≠ .spanChange → Gives (.lvlSpanWrite c) s (fun t =>
      (l.state = .opened ∨ l.state = .tripped → t.lvl[c] = switched) ∧
      (l.state = .settling ∨ l.state = .connected → t.lvl[c] = { switched with
        state := .spanChange, due := s.clk.now + 32000, settling := decide (l.state = .settling)
        driven := keep && decide (l.state = .connected), changing := false
        reason := if l.state = .connected ∧ keep = false then 4 else l.reason }) ∧
      LvlBut c s t ∧ disturbs t ∧ t.freeN = s.freeN + (if keep then 1 else 0) ∧
      (s.lvlMbb c = true → keep = false → (t.flag evt).getLsbD 6 = true) ∧
      (keep = true → code.2 = true → (t.flag evt).getLsbD 5 = true) ∧ FlagsBut [evt] s t ∧
      Within [.flg, .lvl, .mon, .msix, .freeN] s t)) ∧
    (l.state = .spanChange → Gives (.lvlSpanChangeEnd c) s (fun t =>
      t.lvl[c] = { l with state := .connected, driven := false, settling := false } ∧ LvlBut c s t ∧ disturbs t ∧
      t.flag evt = s.flag evt ||| bit32 1 ||| (if l.settling then bit32 0 else 0) ∧ t.clk.now = max s.clk.now l.due ∧
      Within [.clk, .flg, .lvl, .mon, .msix] s t)) ∧
    (l.changing = true → l.state = .opened ∨ l.state = .tripped → Gives (.lvlSpanChangeEnd c) s (fun t =>
      t.lvl[c] = { l with changing := false } ∧ LvlBut c s t ∧ t.flag evt = s.flag evt ||| bit32 1 ∧
      Within [.clk, .flg, .lvl, .msix] s t)) ∧
    (∀ at_ : Nat,
      let trip := fun why : BitVec 4 => if s.lvlAct c = 1 then l else
        { l with state := .tripped, reason := why, driven := false, changing := decide (l.state = .spanChange) }
      let flagged := fun (bit : Nat) (v : Level) (t : State) => t.lvl[c] = v ∧ LvlBut c s t ∧
        t.counter (lvlA c 0x1C) = min (s.counter (lvlA c 0x1C) + 1) top32 ∧ (t.flag evt).getLsbD bit = true ∧
        t.flt.seq = s.flt.seq + 1 ∧ t.clk.now = max s.clk.now at_ ∧ Within [.clk, .flg, .ctr, .lvl, .brg, .msix, .flt] s t
      let watched := l.on = true ∧ currentSpan l.span.toNat = true
      let win := s.lvlWindow c
      (∀ mv : Int,
        let raised := watched ∧ (mv < win.1 ∨ win.2 < mv) ∧ mayRaise l.compAt at_ = true
        (raised → Gives (.lvlComplianceFlag c ⟨at_, mv⟩) s (flagged 2 { trip 2 with compAt := some at_ })) ∧
        (¬ raised → Gives (.lvlComplianceFlag c ⟨at_, mv⟩) s (fun t => t = s.upto at_))) ∧
      (∀ with_ : Bool,
        let raised := watched ∧ with_ = false ∧ l.compAt ≠ some at_ ∧ mayRaise l.openAt at_ = true
        (raised → Gives (.lvlOpenLoopFlag c ⟨at_, with_⟩) s (flagged 3 { trip 3 with openAt := some at_ })) ∧
        (¬ raised → Gives (.lvlOpenLoopFlag c ⟨at_, with_⟩) s (fun t => t = s.upto at_)))) ∧
    (∀ (k : Fin 8) (m : MonMeasure), s.mon.chan = some k → Gives (.monConversion m) s (fun t =>
      (let x := s.lvl[(Fin.ofNat 48 k.val : Lvl)]
       t.mon.results[k] = { valid := true, disturbed := s.mon.disturbed, seq := s.mon.results[k].seq + 1
                            result := if x.state = .connected ∧ 4 ≤ x.span.toNat ∧ x.span.toNat ≤ 6 then m.amps else m.volts }) ∧
      (∀ m : Fin 8, m ≠ k → t.mon.results[m] = s.mon.results[m]) ∧ t.mon.chan = nextMon s.monMask (some k) ∧
      t.clk.now = max s.clk.now s.mon.due ∧ t.mon.due = t.clk.now + 16000 ∧ t.mon.disturbed = false ∧ Within [.clk, .mon] s t))

/-- LG_LOAD strobes its group with the management tick. LOAD_N_EDGE fires producer 244 with the edge's tick, and strobes every group whose LOAD_N_EN is 1 where
the ball had been high for 16 ticks and stays low for 16 (a shorter low level is no strobe: log 19). Two strobes of
one tick are one, with a flag, and a group that the variant lacks, or of an unconfigured device, takes none (R47, R263, R264, R266, R267, R297). LOAD_CAPTURE at T + 8 copies the pending
codes of its eight channels for the first level clock edge at or after T + 64, is counted, and replaces a copy for the same instant with its flag
(R263, R264). LOAD_INSTANT makes the eight codes active together; no channel of another group changes (R263). -/
def Obligations.LoadsCaptureAndAct : Prop :=
  ∀ (s : State) (g : Lg), s.undef = false →
    let strobed := fun (h : Lg) (at_ : Nat) (t : State) =>
      t.lg[h] = (if s.hasLg h && s.configured && !s.lg[h].strobes.contains at_ then { s.lg[h] with strobes := s.lg[h].strobes ++ [at_] } else s.lg[h]) ∧
      (s.hasLg h = true → s.configured = true → s.lg[h].strobes.contains at_ = true → (t.flag (lgA h 8)).getLsbD 0 = true)
    Gives (.lgLoad g) s (fun t => strobed g s.clk.now t ∧ LgBut g s t ∧ FlagsBut [lgA g 8] s t ∧ Takes (lgA g 0) 1 s t ∧
      Within [.flg, .cmd, .more, .lg, .msix] s t) ∧
    (∀ at_ low, Gives (.loadNEdge ⟨at_, low⟩) s (fun t =>
      let taken := 16 ≤ low ∧ s.brg.loadNRise.all (fun r => decide (r + 16 ≤ at_)) = true
      (taken → ∀ h : Lg, s.effB (lgA h 0) 1 = true → strobed h at_ t) ∧ (∀ h : Lg, s.effB (lgA h 0) 1 = false → t.lg[h] = s.lg[h]) ∧
      (¬ taken → t.lg = s.lg) ∧ t.brg.loadNRise = some (at_ + low) ∧ (s.configured = true → ∃ e ∈ t.brg.inFlight, e.prod.val = 244 ∧ e.at_ = at_) ∧ t.clk.now = max s.clk.now at_ ∧
      Within [.clk, .flg, .lg, .brg, .msix] s t)) ∧
    (∀ v, minNat s.lg[g].strobes = some v →
      let u := s.upto (v + 8)
      let x : Captured := { capAt := v + 8, loadAt := s.loadAt v
                            codes := (List.range 8).map (fun i => s.captureCode (v + 8) (lgChan g i)) }
      Gives (.loadCapture g) s (fun t =>
        t.lg[g] = { strobes := s.lg[g].strobes.erase v
                    captured := s.lg[g].captured.filter (fun y => decide (y.loadAt ≠ s.loadAt v)) ++ [x] } ∧ LgBut g s t ∧
        t.counter (lgA g 4) = min (s.counter (lgA g 4) + 1) top32 ∧ CtrsBut [lgA g 4] s t ∧
        (s.lg[g].captured.any (fun y => decide (y.loadAt = s.loadAt v)) = true → (t.flag (lgA g 8)).getLsbD 0 = true) ∧
        t.clk = u.clk ∧ Within [.clk, .flg, .ctr, .lg, .msix] s t)) ∧
    (∀ x, minNat (s.lg[g].captured.map Captured.loadAt) = some x.loadAt →
      s.lg[g].captured.find? (fun y => decide (y.loadAt = x.loadAt)) = some x → Gives (.loadInstant g) s (fun t =>
        t.lg[g] = { s.lg[g] with captured := s.lg[g].captured.filter (fun y => decide (y.loadAt ≠ x.loadAt)) } ∧ LgBut g s t ∧
        (∀ (i : Fin 8) (v : BitVec 20), x.codes[i.val]? = some v → t.lvl[lgChan g i.val] = { s.lvl[lgChan g i.val] with
          active := v
          due := if s.lvl[lgChan g i.val].state = .settling ∨
              s.lvl[lgChan g i.val].state = .spanChange ∧ s.lvl[lgChan g i.val].driven = false
            then max s.lvl[lgChan g i.val].due (t.clk.now + 32000) else s.lvl[lgChan g i.val].due }) ∧
        (∀ d : Lvl, d.val / 8 ≠ g.val → t.lvl[d] = s.lvl[d]) ∧ t.clk.now = max s.clk.now x.loadAt ∧
        Within [.clk, .lvl, .lg, .mon] s t))

/-- BRIDGE_HOP takes every event of the earliest timestamp T out of flight and keeps the later ones (R285). One event that it has seen reaches every
existing consumer that the matrix enables, or that was enabled when its row was frozen, and none while its producer is suppressed (R287, R292): each
fires with its flag (R290); a condition input fed by the Bridge gets a request with T (R110), an EVO line toggles or rises for its width (R298), a
load group of a configured device gets a strobe (R263, R269), a timer arms at T + 1 or stops, STOP winning, be it this hop's or a command's of that tick (R294,
R295). What it does not reach does not change. -/
def Obligations.BridgeHops : Prop :=
  ∀ (s : State) (v : Nat), s.undef = false → minAt s.brg.inFlight = some v →
    Gives .bridgeHop s (fun t => (∀ e ∈ t.brg.inFlight, e.at_ ≠ v) ∧ (∀ e ∈ s.brg.inFlight, e.at_ ≠ v → e ∈ t.brg.inFlight) ∧
      t.clk.now = max s.clk.now (v + 1) ∧ Within [.clk, .eff, .flg, .ctr, .clu, .lg, .brg, .link, .msix] s t) ∧
    (∀ e, s.brg.inFlight.filter (fun e => decide (e.at_ = v)) = [e] → e.seen = true →
      let cs := if e.muted then [] else (e.row.getD (s.consumersOf e.prod)).filter (fun c => s.enableOk c e.prod)
      Gives .bridgeHop s (fun t =>
        (∀ c ∈ cs, c < 208 ∧ (t.flag (brgA (0x2020 + 4 * (c / 32)))).getLsbD (c % 32) = true) ∧
        (∀ (n : Clu) (i : Fin 16), 16 * n.val + i.val ∈ cs → s.condSrc n i = 0 → ∃ r ∈ t.clu[n].arriving, r.cond = i ∧ r.ts = v) ∧
        (∀ n : Clu, (∀ i : Fin 16, 16 * n.val + i.val ∉ cs) → t.clu[n] = s.clu[n]) ∧
        (∀ i : Fin 16,
          (128 + i.val ∈ cs → s.evoToggles i = true → t.brg.evo.getLsbD i = !s.brg.evo.getLsbD i ∧ t.brg.evoFall[i] = none) ∧
          (128 + i.val ∈ cs → s.evoToggles i = false → t.brg.evo.getLsbD i = true ∧
            t.brg.evoFall[i] = some (v + 1 + s.effF (brgA (0x2C40 + 4 * i.val)) 13 8 + 1)) ∧
          (128 + i.val ∉ cs → t.brg.evo.getLsbD i = s.brg.evo.getLsbD i ∧ t.brg.evoFall[i] = s.brg.evoFall[i])) ∧
        (∀ g : Lg, (144 + g.val ∈ cs → s.hasLg g = true → s.configured = true → v ∈ t.lg[g].strobes) ∧ (144 + g.val ∉ cs → t.lg[g] = s.lg[g])) ∧
        (∀ k : Fin 8,
          (200 + k.val ∈ cs → t.brg.timers[k].armed = false ∧ t.brg.timers[k].stopAt = some (v + 1)) ∧
          (192 + k.val ∈ cs → 200 + k.val ∉ cs → s.configured = true → s.brg.timers[k].stopAt ≠ some (v + 1) →
            t.brg.timers[k].armed = true ∧ t.brg.timers[k].due = v + 1 + t.brg.timers[k].period) ∧
          (192 + k.val ∈ cs → s.brg.timers[k].stopAt = some (v + 1) → 200 + k.val ∉ cs → t.brg.timers[k] = s.brg.timers[k]) ∧
          (192 + k.val ∉ cs → 200 + k.val ∉ cs → t.brg.timers[k] = s.brg.timers[k])) ∧
        ((∀ c ∈ cs, c < 160 ∨ 192 ≤ c) → t.link = s.link)))

/-- TIMER_START of a configured device takes PERIOD, at least 8, and REPEAT as last written before this tick and arms the timer from the present tick, an expiry
due in it staying owed; with STOP written beside it, or a STOP of the same tick, only STOP acts (R294, R295, R411). TIMER_STOP disarms, and no expiry at its
tick or later takes place (R294, R295). TIMER_EXPIRY fires the timer's producer with the tick of an owed expiry, else with that of the timer's next one, and
after REPEAT expiries the timer stops (R294). BRG_SW_FIRE fires producer 132 + e for each bit e of its mask with the present tick, the time base and its DATA
(R296). No other timer changes. -/
def Obligations.BridgeTimersAndSoftware : Prop :=
  ∀ (s : State) (k : Fin 8), s.undef = false →
    let m := s.brg.timers[k]
    let a := brgA (0x2800 + 32 * k.val)
    let pa := brgA (0x2804 + 32 * k.val)
    let ra := brgA (0x2808 + 32 * k.val)
    let others := fun t : State => ∀ j : Fin 8, j ≠ k → t.brg.timers[j] = s.brg.timers[j]
    let fired := fun (p at_ : Nat) (t : State) => s.configured = true → ∃ e ∈ t.brg.inFlight, e.prod.val = p ∧ e.at_ = at_
    let period := max 8 (s.settledW pa).toNat
    let rep := fld (s.settledW ra) 15 0
    let arms := (s.cmdWord a).getLsbD 1 = false ∧ s.configured = true ∧ m.stopAt ≠ some s.clk.now
    (¬ arms → Gives (.timerStart k) s (fun t => Takes a 1 s t ∧ Within [.cmd, .more] s t)) ∧
    (arms → Gives (.timerStart k) s (fun t =>
      t.brg.timers[k] = { m with armed := true, period := period, left := rep, unlimited := decide (rep = 0), due := s.clk.now + period,
                                 owed := if m.armed = true ∧ m.due = s.clk.now then some s.clk.now else m.owed } ∧
      others t ∧ t.brg.inFlight = s.brg.inFlight ∧ WordsBut [pa, ra] s t ∧ Takes a 1 s t ∧ Within [.eff, .cmd, .more, .brg] s t)) ∧
    Gives (.timerStop k) s (fun t => t.brg.timers[k] = { m with
        armed := false, left := 0, unlimited := false, stopAt := some s.clk.now, owed := m.owed.filter (fun o => decide (o < s.clk.now)) } ∧
      others t ∧ t.brg.inFlight = s.brg.inFlight ∧ Takes a 3 s t ∧ Within [.cmd, .more, .brg] s t) ∧
    (m.owed = none → m.armed = false → Gives (.timerExpiry k) s (fun t => t = s)) ∧
    (∀ o, m.owed = some o → Gives (.timerExpiry k) s (fun t => t.brg.timers[k] = { m with owed := none } ∧ others t ∧
      fired (124 + k.val) o t ∧ t.clk.now = max s.clk.now o ∧ Within [.clk, .flg, .brg, .msix] s t)) ∧
    (m.owed = none → m.armed = true → Gives (.timerExpiry k) s (fun t =>
      t.brg.timers[k] = (if m.unlimited then { m with due := m.due + m.period } else if m.left ≤ 1 then { m with armed := false, left := 0 }
        else { m with left := m.left - 1, due := m.due + m.period }) ∧ others t ∧ fired (124 + k.val) m.due t ∧
      t.clk.now = max s.clk.now m.due ∧ Within [.clk, .flg, .brg, .msix] s t)) ∧
    (∀ mask : BitVec 16, Gives (.brgSwFire mask) s (fun t =>
      (∀ e : Fin 16, mask.getLsbD e = true → fired (132 + e.val) s.clk.now t) ∧
      (∀ x ∈ t.brg.inFlight, x ∈ s.brg.inFlight ∨ ∃ e : Fin 16, mask.getLsbD e = true ∧ x.prod.val = 132 + e.val ∧
        x.at_ = s.clk.now ∧ x.carried = s.tb ∧ x.data = BitVec.ofNat 16 (s.effF (brgA 0x20A0) 31 16)) ∧
      t.brg.timers = s.brg.timers ∧ Takes (brgA 0x20A0) (mask.setWidth 32) s t ∧ Within [.flg, .cmd, .more, .brg, .msix] s t))

/-- A firing sets its sticky flag in its tick (R290); the 129th of a guarded producer in a window makes the next tick its first suppressed one (R292), from which on
its events are ones that every consumer ignores. STORM_SUPPRESS of such a producer sets its suppression bit, counts it and reports it with class 5 and that
tick as TIME (R292, R453); of any other it does nothing but see the firings that are due. STORM_SUPP_CLEAR clears the bits that its mask names, but not those
that hardware set in the same tick (R408); each producer so freed counts afresh from the next management tick (R293). -/
def Obligations.StormGuard : Prop :=
  ∀ s : State, s.undef = false →
    (∀ p : Fin 256,
      let a := brgA (0x2060 + 4 * (p.val / 32))
      let first := s.seeDue.stormAt p.val
      (first = 0 → Gives (.stormSuppress p) s (fun t => t = s.seeDue)) ∧
      (first ≠ 0 → Gives (.stormSuppress p) s (fun t =>
        t.suppressed p = true ∧ t.stormAt p.val = 0 ∧ t.flag a = s.flag a ||| bit32 (p.val % 32) ∧
        t.counter (brgA 0x20B8) = min (s.counter (brgA 0x20B8) + 1) top32 ∧ t.flt.seq = s.flt.seq + 1 ∧
        (s.flt.queue = [] → ∃ q, t.flt.queue = [q] ∧ q.body.cls = 5 ∧ q.body.cause = 1 ∧ q.body.source.toNat = p.val ∧
          q.body.time = BitVec.ofNat 64 (s.tbAt first) ∧ q.body.cluster = none) ∧
        Within [.flg, .ctr, .brg, .msix, .flt] s t)) ∧
      (∀ e : BrgEvt, e.prod = p →
        (s.seeEvent e).2 = { e with seen := true, muted := s.suppressed p || decide (s.stormAt p ≠ 0 ∧ s.stormAt p ≤ e.at_) } ∧
        (s.guardedProducer p = true → s.suppressed p = false → s.stormAt p = 0 → s.brg.resting.contains p.val = false →
          smGet (fun _ => 0) s.brg.window p.val = 128 → (s.seeEvent e).1.stormAt p = e.at_ + 1) ∧
        ((s.seeEvent e).1.flag (brgA (0x2000 + 4 * (p.val / 32)))).getLsbD (p.val % 32) = true)) ∧
    (∀ (word : Fin 8) (mask : Word),
      let a := brgA (0x2060 + 4 * word.val)
      let e := smGet (fun _ => ({} : Evt)) s.flg a
      let fresh := if e.tick = s.clk.now then e.fresh else 0
      Gives (.stormSuppClear word mask) s (fun t =>
        t.flag a = s.flag a &&& ~~~(mask &&& ~~~fresh) ∧ (∀ b, b ≠ a → t.flag b = s.seeDue.flag b) ∧
        (∀ b : Fin 32, (s.flag a).getLsbD b = true → (t.flag a).getLsbD b = false →
          32 * word.val + b.val ∈ t.brg.resting ∧ smGet (fun _ => 0) t.brg.window (32 * word.val + b.val) = 0) ∧
        t.brg.inFlight = s.seeDue.brg.inFlight ∧ t.brg.timers = s.brg.timers ∧ Within [.flg, .brg] s t))

/-- PORT_TRAINED of a training port brings it UP with its neighbour; PORT_DOWN of an UP port, where its cause holds (16 invalid blocks in 1,024 slots, 30 µs without
the neighbour's beacon, the port disabled, a slip), sets its flag and trains it again where it is still
enabled (R304, R422). SLOT_CHECK moves an origin's check on by one period, counts a missing beacon, and at the third declares a candidate or member lost: flag,
fault record, and a member leaves REACH and is to be removed from the view; if it was the authority, the lowest ID left takes over (R315, R316). ENSEMBLE_FOUND
makes a candidate that has heard no rival for three periods the authority with index 0, dropping a change that another authority had announced (R317). No other port changes. -/
def Obligations.LinkPortsAndOrigins : Prop :=
  ∀ s : State, s.undef = false →
    (∀ (p : Fin 4) (at_ : Nat) (neighbour : BitVec 64),
      let others := fun t : State => ∀ q : Fin 4, q ≠ p → t.link.ports[q] = s.link.ports[q]
      (s.link.ports[p].state = .train → Gives (.portTrained p at_ neighbour) s (fun t =>
        t.link.ports[p] = { s.link.ports[p] with state := .up, neighValid := true, neighId := neighbour, neighAt := max s.clk.now at_, misaligned := false } ∧ others t ∧
        { t.link with ports := s.link.ports } = s.link ∧ t.clk.now = max s.clk.now at_ ∧ Within [.clk, .link] s t)) ∧
      (s.link.ports[p].state ≠ .train → Gives (.portTrained p at_ neighbour) s (fun t => t = s.upto at_)) ∧
      (∀ cause, (s.link.ports[p].state = .up → (s.upto at_).portFails p cause = true → Gives (.portDown p at_ cause) s (fun t =>
          t.link.ports[p] = { state := if s.portEn p then .train else .down } ∧ others t ∧
          { t.link with ports := s.link.ports } = s.link ∧ t.flag (lnkA 0x40) = s.flag (lnkA 0x40) ||| bit32 10 ∧
          FlagsBut [lnkA 0x40] s t ∧ t.counter (lnkA (0x114 + 0x20 * p.val)) = (if s.portEn p
            then min (s.counter (lnkA (0x114 + 0x20 * p.val)) + 1) top32 else s.counter (lnkA (0x114 + 0x20 * p.val))) ∧
          Within [.clk, .flg, .ctr, .link, .msix] s t)) ∧
        (s.link.ports[p].state ≠ .up ∨ (s.upto at_).portFails p cause = false → Gives (.portDown p at_ cause) s (fun t => t = s.upto at_)))) ∧
    (∀ o (member : Bool), s.link.origins.find? (fun x => x.isOf member o.deviceId) = some o →
      let missed := if o.check ≤ o.heard + 1600 then 0 else o.missed + 1
      let gone := missed = 3 ∧ (o.state = 2 ∨ o.state = 3)
      let after : Origin := { o with check := o.check + 16000, missed := missed, lost := o.lost || decide gone }
      (¬ gone → Gives (.slotCheck ⟨member, o.deviceId⟩) s (fun t =>
        t.link = { s.link with origins := putOrigin after s.link.origins } ∧ t.clk.now = max s.clk.now (s.physOf o.check) ∧
        Within [.clk, .link] s t)) ∧
      (gone → Gives (.slotCheck ⟨member, o.deviceId⟩) s (fun t => t.link.origins = putOrigin after s.link.origins ∧
        (o.state = 3 → t.link.reach = s.link.reach &&& ~~~(1#64 <<< o.idx.val) ∧
          t.link.removing = s.link.removing ||| ((1#64 <<< o.idx.val) &&& s.link.view)) ∧
        (o.state ≠ 3 → t.link.reach = s.link.reach ∧ t.link.removing = s.link.removing) ∧ t.link.view = s.link.view ∧
        (o.state = 3 → s.link.state = .member → o.deviceId = s.link.authId →
          t.link.authId = (s.link.lowest (s.link.view &&& ~~~t.link.removing)).getD 0 ∧
          (t.link.auth = true ↔ s.link.lowest (s.link.view &&& ~~~t.link.removing) = some s.part.deviceId)) ∧
        t.link.ports = s.link.ports ∧ (t.flag (lnkA 0x40)).getLsbD 9 = true ∧ t.flt.seq = s.flt.seq + 1 ∧
        Within [.clk, .flg, .ctr, .link, .msix, .flt] s t))) ∧
    (let founds := s.link.state = .candidate ∧ s.lnkAdmitEn = true ∧ s.link.auth = false
     (founds → Gives .ensembleFound s (fun t => t.link = { s.link with
       founding := true, auth := true, authId := s.part.deviceId, memberIdx := 0, ids := [(0, s.part.deviceId)], pendView := none } ∧
       t.clk.now = max s.clk.now (s.link.quietSince + 48000) ∧ Within [.clk, .link] s t)) ∧
     (¬ founds → Gives .ensembleFound s (fun t => t = s)))

/-- BEACON_SEND at the device's next slot after its latest beacon sends its numbered beacon, with the change it announces, as its cells on every UP port (R307, R313). Of a received beacon
cells with a bad CRC or a reserved TYPE count and drop it whole; a duplicate acts no more; another goes on with one hop more, and with the own tag its origin is recorded (R305, R307, R308, R313). An
event cell with a bad CRC counts on a training port too (R305); on an UP port one is taken once, forwarded, and held for its release where its origin was a member at T; one that lies ahead, comes too late or finds the queue
full counts, sets its flag and is reported (R322, R325). MESSAGE_RELEASE fires the channels of the earliest T at T + 1,280, the lowest origin's DATA
first (R323). MEMB_CHANGED_CHECK judges the oldest message sent (R324). Which beacons are duplicates (of one DEVICE_ID and COUNT within 16,000
ticks), and that the device's own messages take none of the 256 places, is the model's choice (DEDUCED, log 12). -/
def Obligations.BeaconsAndMessages : Prop :=
  ∀ s : State, s.undef = false →
    (s.lnkEn = false → Gives .beaconSend s (fun t => t = s)) ∧
    (s.lnkEn = true →
      let u := s.upto (s.physOf s.nextSlot)
      Gives .beaconSend s (fun t =>
        (∃ b : Beacon, t.link.txBeacon = b.frame ∧ b.hops = 1 ∧ b.count = s.link.beaconCount ∧ b.deviceId = s.part.deviceId ∧
          b.ensTag = s.ensTag ∧ b.view = s.link.view ∧ b.generation = s.link.generation ∧ b.epochCount = s.clk.epochCount ∧
          b.pendEpoch = (t.link.pendView.map PendView.epoch).getD 0) ∧
        t.link.pendView = (if s.link.pendView = none then u.nextChange else s.link.pendView) ∧
        t.link.txPorts = portMask (s.upPorts none) ∧ t.link.beaconCount = s.link.beaconCount + 1 ∧ t.link.lastBeacon = some u.tb ∧
        t.link.ports = s.link.ports ∧ t.link.view = s.link.view ∧ t.clk = u.clk ∧ Within [.clk, .link] s t)) ∧
    (∀ (p : Fin 4) (at_ : Nat) (cells : List Cell),
      let u := s.upto at_
      let a := lnkA (0x10C + 0x20 * p.val)
      let bad := (cells.filter (fun x => !cellGood x)).length
      (s.lnkEn = false ∨ s.link.ports[p].state = .down → Gives (.beaconReceive p at_ cells) s (fun t => t = u)) ∧
      (s.lnkEn = true → s.link.ports[p].state ≠ .down →
        (0 < bad → Gives (.beaconReceive p at_ cells) s (fun t =>
          t.counter a = min (s.counter a + bad) top32 ∧ CtrsBut [a] s t ∧ Within [.clk, .ctr] s t)) ∧
        (bad = 0 → Beacon.read cells = none → Gives (.beaconReceive p at_ cells) s (fun t => t = u)))) ∧
    (∀ (p : Fin 4) (at_ : Nat) (cells : List Cell) (b : Beacon),
      let u := s.upto at_
      let known := fun o : HeardBeacon => decide (o.deviceId = b.deviceId ∧ o.count = b.count ∧ u.tb < o.at_ + 16000)
      let dup := b.deviceId = s.part.deviceId ∨ s.link.beacons.any known = true
      let out := if b.hops.toNat < 8 ∧ s.link.ports[p].state = .up then s.upPorts (some p) else []
      let sent := fun t : State => t.link.txBeacon = (if out = [] then s.link.txBeacon else ({ b with hops := b.hops + 1 } : Beacon).frame) ∧
        (b.hops = 1 → t.link.ports[p].neighId = b.deviceId ∧ t.link.ports[p].neighAt = u.clk.now)
      let split := s.link.state = .member ∧ b.state = 3 ∧ b.authId ≠ s.link.authId
      s.lnkEn = true → s.link.ports[p].state ≠ .down → (∀ x ∈ cells, cellGood x = true) → Beacon.read cells = some b →
        (dup → Gives (.beaconReceive p at_ cells) s (fun t => { t.link with ports := s.link.ports } = s.link ∧ Within [.clk, .link] s t)) ∧
        (¬ dup → b.ensTag ≠ s.ensTag → Gives (.beaconReceive p at_ cells) s (fun t =>
          sent t ∧ t.link.origins = s.link.origins ∧ Within [.clk, .link] s t)) ∧
        (¬ dup → b.ensTag = s.ensTag → split → Gives (.beaconReceive p at_ cells) s (fun t =>
          sent t ∧ t.link.origins = s.link.origins ∧ (t.flag (lnkA 0x40)).getLsbD 6 = true)) ∧
        (¬ dup → b.ensTag = s.ensTag → ¬ split → Gives (.beaconReceive p at_ cells) s (fun t =>
          sent t ∧ t.link.origins = putOrigin (u.originOf b) s.link.origins ∧ t.link.view = s.link.view ∧
          Within [.clk, .flg, .ctr, .link, .msix, .flt] s t))) ∧
    (∀ (p : Fin 4) (at_ : Nat) (cell : Cell),
      let c := EventCell.read cell
      let u := s.upto at_
      let v := extendTime u.tb c.time
      let m : LinkMsg := { origin := c.origin, channel := c.channel, time := v, data := c.data }
      let seen := s.link.seen.any (fun x => decide (x.origin = m.origin ∧ x.channel = m.channel ∧ x.time = m.time))
      let taken := fun t : State => t.link.seen = s.link.seen ++ [m] ∧
        (c.hops.toNat < 8 → t.link.txCell = some ({ c with hops := c.hops + 1 } : EventCell).frame ∧ t.link.txPorts = portMask (s.upPorts (some p))) ∧
        t.clk.now = max s.clk.now at_ ∧ Within [.clk, .flg, .ctr, .link, .msix, .flt] s t
      let more := fun (a : Nat) (t : State) => t.counter a = min (s.counter a + 1) top32
      let member := s.memberAt v && (s.viewAtTime v).getLsbD c.origin.val
      let tooLate := v + 1280 < u.tb ∨ 256 ≤ (s.link.heldMsgs.filter (fun x => !x.own)).length
      (s.lnkEn = false ∨ s.link.ports[p].state = .down → Gives (.eventCellReceive p at_ cell) s (fun t => t = u)) ∧
      (s.lnkEn = true → s.link.ports[p].state = .train →
        (cellGood cell = false → Gives (.eventCellReceive p at_ cell) s (fun t =>
          more (lnkA (0x10C + 0x20 * p.val)) t ∧ CtrsBut [lnkA (0x10C + 0x20 * p.val)] s t ∧ Within [.clk, .ctr] s t)) ∧
        (cellGood cell = true → Gives (.eventCellReceive p at_ cell) s (fun t => t = u))) ∧
      (s.lnkEn = true → s.link.ports[p].state = .up →
        (cellGood cell = false → Gives (.eventCellReceive p at_ cell) s (fun t => more (lnkA (0x10C + 0x20 * p.val)) t ∧ t.link = s.link)) ∧
        (cellGood cell = true → cellType cell ≠ 1 → Gives (.eventCellReceive p at_ cell) s (fun t => t = u)) ∧
        (cellGood cell = true → cellType cell = 1 → seen = true → Gives (.eventCellReceive p at_ cell) s (fun t => t = u)) ∧
        (cellGood cell = true → cellType cell = 1 → seen = false →
          (u.tb ≤ v → Gives (.eventCellReceive p at_ cell) s (fun t => taken t ∧ more (lnkA 0x68) t ∧ t.link.heldMsgs = s.link.heldMsgs ∧
            (t.flag (lnkA 0x40)).getLsbD 7 = true ∧ t.flt.seq = s.flt.seq + 1)) ∧
          (v < u.tb → member = false → Gives (.eventCellReceive p at_ cell) s (fun t => taken t ∧ more (lnkA 0x60) t ∧
            t.link.heldMsgs = s.link.heldMsgs ∧ t.flt = s.flt)) ∧
          (v < u.tb → member = true → s.chanRxEn c.channel = false → Gives (.eventCellReceive p at_ cell) s (fun t => taken t ∧
            t.link.heldMsgs = s.link.heldMsgs ∧ t.flt = s.flt)) ∧
          (v < u.tb → member = true → s.chanRxEn c.channel = true → tooLate → Gives (.eventCellReceive p at_ cell) s (fun t =>
            taken t ∧ more (lnkA 0x58) t ∧ t.link.heldMsgs = s.link.heldMsgs ∧ (t.flag (lnkA 0x40)).getLsbD 8 = true ∧
            t.flt.seq = s.flt.seq + 1)) ∧
          (v < u.tb → member = true → s.chanRxEn c.channel = true → ¬ tooLate → Gives (.eventCellReceive p at_ cell) s (fun t =>
            taken t ∧ more (lnkA 0x54) t ∧ t.link.heldMsgs = s.link.heldMsgs ++ [m] ∧ t.flg = s.flg ∧ t.flt = s.flt))))) ∧
    (∀ v, minTime s.link.heldMsgs = some v →
      let due := s.physOf (v + 1280)
      let mine := fun c : Fin 32 => (s.link.heldMsgs.filter (fun m => decide (m.time = v))).filter (fun m => decide (m.channel = c))
      Gives .messageRelease s (fun t =>
        t.link = { s.link with heldMsgs := s.link.heldMsgs.filter (fun m => decide (m.time ≠ v)) } ∧
        (∀ c, s.configured = true → mine c ≠ [] → ∃ e ∈ t.brg.inFlight, e.prod.val = 148 + c.val ∧ e.at_ = due) ∧
        (∀ e ∈ t.brg.inFlight, e ∈ s.brg.inFlight ∨ ∃ c m, lowOrigin (mine c) = some m ∧ e.prod.val = 148 + c.val ∧ e.at_ = due ∧
          e.carried = v ∧ e.data = m.data) ∧
        t.clk.now = max s.clk.now due ∧ Within [.clk, .flg, .ctr, .brg, .link, .msix] s t)) ∧
    (∀ m changed rest, s.link.sent = (m, changed) :: rest → Gives .membChangedCheck s (fun t =>
      t.link = { s.link with sent := rest, mcTime := if changed then BitVec.ofNat 64 m.time else s.link.mcTime } ∧
      (changed = true → (t.flag (lnkA 0x44)).getLsbD m.channel.val = true) ∧ (changed = false → t.flg = s.flg) ∧
      t.clk.now = max s.clk.now (s.physOf (m.time + 1600)) ∧ Within [.clk, .flg, .link, .msix] s t))

/-- An access that a fill engine, the mover or Capo issues now takes its slot, whose landing bit it clears, and is in flight on the channel of its address where
that has a place, else it waits for one; a read of the image loader is on its way likewise, and takes no slot (R54, R58, R357; log 21); any other leaves the state, as in a device that is not configured (R47, R139, R153, R155, R333, R338; log 1). Of the accesses that
are ready the one that R339 and R340 put first ends: with the tick at which its tile grants the write (R358) it puts the 64 bytes into a slot that is still
allocated where the regions allow it, counts its wait, and counts a real-time access past its deadline with its flag; an escape counts and is recorded, and lands
nothing (R154, R339, R349, R362); what the loader read goes to it, a unit whose read escaped not (R349). A refresh falls due an interval after the one before; one that no real-time access holds pays what is owed, else
it is owed, up to eight (R343, R344). The last real-time access to land pays what is owed (log 25). NBR_REFRESH, behind real-time accesses, serves the oldest aggressor, each victim's
activate being drawn for (R345 to R347), PAGE_CLOSE closes a row whose bank PAGE_TIMER has passed (R348). RETRAIN is refused under a training and waits for idle
clusters (R336); an end leaves READY by its outcome and the PLL's lock, a PLL that relocked during it bringing the short training first (R495), and held commands
then act. -/
def Obligations.DramAccessesAndRefresh : Prop :=
  ∀ s : State, s.undef = false →
    (∀ (tag : AccessTag) (at_ : Nat),
      let u := s.upto at_
      let g := unitChan tag.addr.toNat
      let k := s.dram.chans[g]
      let issued := fun (play : Option (Clu × Nat)) (t : State) =>
        smFind t.mem.slots tag.dest.val = some { addr := tag.addr, landed := false, landedAt := 0, data := 0, entry := tag.entry, play := play } ∧
        (s.dram.waiting = [] → k.room tag.rt = true → t.dram.waiting = [] ∧ t.dram.inFlight = s.dram.inFlight ++
            [{ tag := tag, issued := u.clk.now, play := play, passed := tag.rt && pastDeadline u.tb tag.deadline }] ∧
          t.dram.chans[g].rt = (if tag.rt then k.rt + 1 else k.rt) ∧ t.dram.chans[g].be = (if tag.rt then k.be else k.be + 1) ∧
          ChanBut g s t) ∧
        (s.dram.waiting = [] → k.room tag.rt = false → t.dram = { s.dram with
          waiting := [{ tag := tag, issued := u.clk.now, play := play }] }) ∧
        t.clk = u.clk ∧ Within [.clk, .clu, .dram, .mem] s t
      let kept := fun t : State => ∀ d, d ≠ tag.dest.val → smFind t.mem.slots d = smFind s.mem.slots d
      let capo := (allFin 8).find? (u.capoAccess tag)
      (s.configured = false → Gives (.accessIssue tag at_) s (fun t => t = u)) ∧
      (s.configured = true → u.loaderRead tag = true → Gives (.accessIssue tag at_) s (fun t =>
        (s.dram.waiting = [] → k.room tag.rt = true → t.dram.waiting = [] ∧ t.dram.inFlight = s.dram.inFlight ++
            [{ tag := tag, issued := u.clk.now, passed := tag.rt && pastDeadline u.tb tag.deadline }] ∧ ChanBut g s t) ∧
        (s.dram.waiting = [] → k.room tag.rt = false → t.dram = { s.dram with waiting := [{ tag := tag, issued := u.clk.now }] }) ∧
        t.clk = u.clk ∧ Within [.clk, .dram] s t)) ∧
      (s.configured = true → u.loaderRead tag = false → ∀ p, u.readerAccess tag = some p → Gives (.accessIssue tag at_) s (fun t => issued (some p) t ∧ kept t ∧
        t.clu[p.1] = { s.clu[p.1] with engine := some (Fin.ofNat 12 (tag.src.val - 20)) } ∧ CluBut p.1 s t)) ∧
      (s.configured = true → u.loaderRead tag = false → u.readerAccess tag = none → u.stagingAccess tag = true →
        Gives (.accessIssue tag at_) s (fun t => issued none t ∧ kept t ∧ t.clu = s.clu)) ∧
      (s.configured = true → u.loaderRead tag = false → u.readerAccess tag = none → u.stagingAccess tag = false → capo.isSome →
        Gives (.accessIssue tag at_) s (fun t => issued none t ∧ t.clu = s.clu)) ∧
      (s.configured = true → u.loaderRead tag = false → u.readerAccess tag = none → u.stagingAccess tag = false → capo = none →
        Gives (.accessIssue tag at_) s (fun t => t = u))) ∧
    (∀ (x : InFlight) (at_ n : Nat) (rivals : List (Fin 44 × Nat)) (ready : List (Fin 1572864)),
      s.dram.inFlight.find? (fun y => decide (y.tag.dest = x.tag.dest)) = some x →
      let a := x.tag
      let g := unitChan a.addr.toNat
      let u := s.upto at_
      let r := u.tileGrant (tileOf a.dest.val) a.src u.clk.now rivals
      let granted := r.1.upto r.2
      let loader := a.src = 42
      let late := a.rt && pastDeadline granted.tb a.deadline
      let gone := fun t : State =>
        (s.dram.waiting = [] → t.dram.inFlight = s.dram.inFlight.erase x ∧ t.dram.waiting = [] ∧ ChanBut g s t) ∧
        t.dram.chans[g].owed = (if t.dram.chans[g].rt = 0 then 0 else s.dram.chans[g].owed) ∧
        (∀ d, d ≠ a.dest.val → smFind t.mem.slots d = smFind s.mem.slots d) ∧
        (¬ loader → t.ovl = s.ovl) ∧ Within [.clk, .ovl, .flg, .ctr, .clu, .dram, .mem, .msix, .flt, .plc] s t
      (∀ o, s.dram.ready = false ∨ s.issuedFirst x ready = false → Gives (.accessLand a.dest at_ o ⟨rivals, ready⟩) s (fun t => t = s)) ∧
      (s.dram.ready = true → s.issuedFirst x ready = true →
        (¬ loader → s.slotOk a.src.val a.dest.val true = true → Gives (.accessLand a.dest at_ (.ok n) ⟨rivals, ready⟩) s (fun t =>
          gone t ∧ t.clk = granted.clk ∧ (smFind s.mem.slots a.dest.val = none → t.mem.slots = s.mem.slots) ∧
          (∀ y, smFind s.mem.slots a.dest.val = some y → smFind t.mem.slots a.dest.val = some { y with
            landed := true, landedAt := granted.clk.now, late := late
            data := BitVec.ofNat 512 (leNat (s.dramBytes (a.addr.toNat * 64) 64)) }) ∧
          (a.rt = true → t.counter (chanA g 0x1C) = min (s.counter (chanA g 0x1C) + 1) top32) ∧
          (late = true → (t.flag (drmA 0x24)).getLsbD 3 = true ∧ t.counter (chanA g 4) = min (s.counter (chanA g 4) + 1) top32) ∧
          (late = false → t.counter (chanA g 4) = s.counter (chanA g 4)))) ∧
        (¬ loader → s.slotOk a.src.val a.dest.val true = false → Gives (.accessLand a.dest at_ (.ok n) ⟨rivals, ready⟩) s (fun t => gone t ∧ t.clk = granted.clk ∧
          t.mem.slots = s.mem.slots ∧ t.mem.violSrc = BitVec.ofNat 6 a.src.val ∧ t.mem.violWrite = true)) ∧
        (loader → Gives (.accessLand a.dest at_ (.ok n) ⟨rivals, ready⟩) s (fun t => gone t ∧ t.mem = s.mem ∧ t.clk = u.clk ∧
          t.ovl = { s.ovl with loaded := s.ovl.loaded ++ [a.addr.toNat] })) ∧
        Gives (.accessLand a.dest at_ .escaped ⟨rivals, ready⟩) s (fun t => gone t ∧ t.mem = s.mem ∧ t.clk = u.clk ∧
          (loader → t.ovl = { s.ovl with unread := s.ovl.unread ++ [a.addr.toNat], loaded := s.ovl.loaded ++ [a.addr.toNat] }) ∧
          t.dram.escAddr = BitVec.ofNat 64 (a.addr.toNat * 64) ∧ t.dram.escWrite = false ∧ (t.flag (drmA 0x24)).getLsbD 0 = true ∧
          t.flt.seq = s.flt.seq + 1))) ∧
    (∀ (g : Chan) (at_ : Nat) (rtWaiting : RtWaiting),
      let d := s.refreshAt g at_
      let k := { s.dram.chans[g] with due := some (d + s.refreshEvery) }
      let falls := fun t : State => ChanBut g s t ∧ t.clk = (s.upto ((d + 15) / 16)).clk
      (s.dram.ready = false → Gives (.refreshDue g at_ rtWaiting) s (fun t => t = s)) ∧
      (s.dram.ready = true →
        (rtWaiting = false ∨ k.rt = 0 → Gives (.refreshDue g at_ rtWaiting) s (fun t =>
          t.dram.chans[g] = { k.refresh s.perBank (k.owed + 1) with owed := 0 } ∧ falls t ∧ Within [.clk, .dram] s t)) ∧
        (rtWaiting = true → k.rt ≠ 0 → k.owed < 8 → Gives (.refreshDue g at_ rtWaiting) s (fun t =>
          t.dram.chans[g] = { k with owed := k.owed + 1 } ∧ falls t ∧ Within [.clk, .dram] s t)) ∧
        (rtWaiting = true → k.rt ≠ 0 → 8 ≤ k.owed → Gives (.refreshDue g at_ rtWaiting) s (fun t =>
          t.dram.chans[g] = k.refresh s.perBank 1 ∧ falls t ∧
          t.counter (chanA g 0x10) = min (s.counter (chanA g 0x10) + 1) top32 ∧ (t.flag (drmA 0x24)).getLsbD 2 = true ∧
          Within [.clk, .flg, .ctr, .dram, .msix] s t)))) ∧
    (∀ (g : Chan) (at_ : Nat) (rtWaiting : Bool) (a : Fin 16 × Nat) (rest : List (Fin 16 × Nat)), s.dram.chans[g].aggressors = a :: rest →
      let k := s.dram.chans[g]
      let drawn := if (s.effW (drmA 0x14)).getLsbD 31 then 0 else (s.victims a.2).length
      (s.dram.ready = false ∨ (rtWaiting = true ∧ 0 < k.rt) → Gives (.nbrRefresh g ⟨at_, rtWaiting⟩) s (fun t => t = s)) ∧
      (s.dram.ready = true → ¬ (rtWaiting = true ∧ 0 < k.rt) → Gives (.nbrRefresh g ⟨at_, rtWaiting⟩) s (fun t => (∃ more, t.dram.chans[g].aggressors = rest ++ more ∧ more.length ≤ drawn) ∧
        t.dram.chans[g].draws = k.draws + drawn ∧ t.dram.chans[g].rows = smErase k.rows a.1.val ∧
        t.clk.now = max s.clk.now (max at_ (match k.lastNbr with | some l => l + s.nbrGap | none => 0)) ∧
        t.dram.chans[g].lastNbr = some t.clk.now ∧ ChanBut g s t ∧
        t.counter (chanA g 0x14) = min (s.counter (chanA g 0x14) + 1) top32 ∧ CtrsBut [chanA g 0x14, chanA g 0x18] s t ∧
        FlagsBut [drmA 0x24] s t ∧ Within [.clk, .flg, .ctr, .dram, .msix] s t))) ∧
    (∀ (g : Chan) (bank : Fin 16),
      (s.predicts = true → Gives (.pageClose g bank) s (fun t => t = s)) ∧
      (smFind s.dram.chans[g].rows bank.val = none → Gives (.pageClose g bank) s (fun t => t = s)) ∧
      (s.predicts = false → (smFind s.dram.chans[g].rows bank.val).isSome → Gives (.pageClose g bank) s (fun t =>
        t.dram.chans[g] = { s.dram.chans[g] with rows := smErase s.dram.chans[g].rows bank.val } ∧ ChanBut g s t ∧
        t.clk.now = max s.clk.now (smGet (fun _ => 0) s.dram.chans[g].used bank.val + s.pageTimer) ∧
        Within [.clk, .dram] s t))) ∧
    (s.configured = true →
      (s.prepared 7 = true → Gives .dramRetrain s (fun t => t.pwr.held = s.pwr.held ++ [.dramRetrain] ∧ Within [.pwr] s t)) ∧
      (s.prepared 7 = false → s.dram.training ≠ .none → Gives .dramRetrain s (fun t =>
        t.flag (drmA 0x24) = s.flag (drmA 0x24) ||| bit32 6 ∧ Takes (drmA 0x10) 1 s t ∧ Within [.flg, .cmd, .more, .msix] s t)) ∧
      (s.prepared 7 = false → s.dram.training = .none → s.allIdle = false ∨ s.ovl.queue ≠ [] → Gives .dramRetrain s (fun t =>
        t.dram = { s.dram with retrainWait := true } ∧ Within [.dram] s t)) ∧
      (s.prepared 7 = false → s.dram.training = .none → s.allIdle = true → s.ovl.queue = [] → Gives .dramRetrain s (fun t =>
        t.dram.training = .retrain ∧ t.dram.ready = false ∧ t.dram.trainAt = s.clk.now ∧
        (∀ g : Chan, t.dram.chans[g] = { s.dram.chans[g] with rows := [], due := none }) ∧
        t.dram.inFlight = s.dram.inFlight ∧ Takes (drmA 0x10) 1 s t ∧ Within [.cmd, .more, .dram] s t))) ∧
    (∀ failed : Option (Chan × Fin 8),
      let again := failed.isNone && s.dram.shortNext
      let ended := fun (u : State) => u.dram.training = (if again then .short else .none) ∧ (again = false → u.dramPhase = 0) ∧
        u.dram.ready = (failed.isNone && !s.dram.shortNext && s.clk.pll.getLsbD 6) ∧ u.dram.shortNext = false ∧
        (failed = none → ∀ (g : Chan) (b : Fin 16), u.dram.chans[g].predictor b = 2) ∧
        (failed ≠ none → (u.flag (drmA 0x24)).getLsbD 4 = true ∧ u.flt.seq = s.flt.seq + 1) ∧
        Within [.flg, .ctr, .dram, .msix, .flt] s u
      (s.dram.training = .short → s.pwr.releasing = false ∨ again = true → Gives (.shortTrainDone failed) s (fun t => ∃ u, ended u ∧ t = u.runHeld)) ∧
      (s.dram.training = .retrain → Gives (.dramTrainDone failed) s (fun t =>
        ∃ u, ended u ∧ (u.flag (drmA 0x24)).getLsbD 5 = true ∧ t = u.runHeld)))

/-- PUB_GO queues a command with its parameters, the layouts of its clusters and the snapshot of accepted writes; with 16 waiting it is dropped with OVERFLOW
(R132, R133). A command that starts to run clears CODE and REFUSE_IDX (R134), and one that would overflow the head area rolls Capo where ROLL_EN is 1 and every
cluster is IDLE (R148). PUBLISH_RUN waits until the snapshot has drained (R381). Of a command of one entry: one that fails a check of R134 is refused with its
code and counted, and keeps its state; one that needs no staging is published at once, one that does when every access has landed; either
way a new copy of the entry begins, and runs keep theirs (R133, R135, R136). A
command with no staging left completes. LUTHIER_REEVALUATE, once at every 1,024th management tick, halves every heat, publishes and unpublishes nothing, unless frozen (R137, R138). Capo returns to
static mode once every cluster is idle and every required head has landed (R148). -/
def Obligations.PublishingAndPlacement : Prop :=
  ∀ s : State, s.undef = false →
    let go := s.plc.goes.head?.getD (fld (s.cfgW (plcA 4)) 16 0, fld (s.cfgW (plcA 8)) 12 0, BitVec.ofNat 8 (fld (s.cfgW (plcA 0)) 15 8))
    (s.prepared 6 = true → Gives .pubGo s (fun t => t.pwr.held = s.pwr.held ++ [.pubGo] ∧ Within [.pwr] s t)) ∧
    let bit := fun t : State => (s.plc.goes.tail = [] → Drops (plcA 0) 1 s t) ∧ (s.plc.goes.tail ≠ [] → CmdsBut [] s t)
    let idleNow := s.plc.queue = []
    let queued := s.modPlc (fun p => { p with
      goes := p.goes.tail, code := if idleNow then 0 else p.code, refuseIdx := if idleNow then 0 else p.refuseIdx
      queue := p.queue ++ [{
        first := go.1, count := max 1 (min 4096 go.2.1), mask := go.2.2, snapshot := s.host.wrAccepted
        layouts := (setBits 8 go.2.2.toNat).map (fun n => s.layoutOf (Fin.ofNat 8 n)) }] })
    let rolls := s.rollEn = true ∧ s.allIdle = true ∧ s.headCap < queued.headsBut 131072 + queued.queuedHeads
    (s.prepared 6 = false → s.plc.queue.length < 16 → Gives .pubGo s (fun t =>
      t.plc = { queued.plc with rolling := t.plc.rolling } ∧ (t.plc.rolling = true ↔ s.plc.rolling = true ∨ rolls) ∧
      bit t ∧ Within [.cmd, .more, .plc] s t)) ∧
    (s.prepared 6 = false → 16 ≤ s.plc.queue.length → Gives .pubGo s (fun t => t.plc = { s.plc with goes := s.plc.goes.tail } ∧
      t.flag (plcA 0x10) = s.flag (plcA 0x10) ||| bit32 10 ∧ bit t ∧ Within [.flg, .cmd, .more, .msix, .plc] s t)) ∧
    (s.plc.queue = [] → Gives .publishRun s (fun t => t = s)) ∧
    (∀ c rest, s.plc.queue = c :: rest → s.plc.next = none →
      let drained := (s.host.wrDrained - c.snapshot).toNat < 2 ^ 31
      (¬ drained → Gives .publishRun s (fun t => t = s)) ∧
      (drained → Gives .publishRun s (fun t =>
        (131072 < c.first + c.count → (t.flag (plcA 0x10)).getLsbD 11 = true) ∧ Within [.flg, .ctr, .clu, .mem, .msix, .plc] s t)) ∧
      (drained → c.count = 1 → c.first < 131072 → s.publishBlocked c c.first = false → s.plc.jobs = [] →
        let i := c.first
        let x := s.publishCheck c i
        let ranges := x.2.flatMap (s.stagedRanges (s.entry i))
        let others := fun t : State => ∀ j, j ≠ i → t.entryRec j = s.entryRec j
        let afresh := fun t : State =>
          (∀ y ∈ t.mem.slots, y.2.entry = some (BitVec.ofNat 17 i) → 0 < y.2.age) ∧
          (∀ y ∈ s.mem.slots, y.2.entry ≠ some (BitVec.ofNat 17 i) → y ∈ t.mem.slots) ∧
          ∀ n : Clu, t.clu[n] = s.clu[n].older i
        let completes := fun t : State => t.plc.queue = rest ∧ t.plc.next = none ∧ (t.flag (plcA 0x10)).getLsbD 8 = true
        (x.1 ≠ 0 → Gives .publishRun s (fun t => completes t ∧ others t ∧ t.entryRec i = s.entryRec i ∧
          (rest = [] → s.plc.code = 0 → t.plc.code = BitVec.ofNat 4 x.1 ∧ t.plc.refuseIdx = BitVec.ofNat 17 i) ∧
          (rest ≠ [] → t.plc.code = 0 ∧ t.plc.refuseIdx = 0) ∧ (t.flag (plcA 0x10)).getLsbD 9 = true ∧
          t.counter (plcA 0x18) = min (s.counter (plcA 0x18) + 1) top32 ∧ t.mem = s.mem ∧ t.clu = s.clu)) ∧
        (x.1 = 0 → ranges = [] → Gives .publishRun s (fun t => completes t ∧ others t ∧ afresh t ∧
          t.entryRec i = { s.entryRec i with published := true, layouts := x.2, promoted := s.promotedBy i x.2 } ∧ t.plc.rolling = s.plc.rolling ∧ t.ctr = s.ctr)) ∧
        (x.1 = 0 → ranges ≠ [] → Gives .publishRun s (fun t => t.plc.queue = s.plc.queue ∧ t.plc.next = some (i + 1) ∧ others t ∧ afresh t ∧
          t.plc.jobs = [{ entry := i, layouts := x.2, ranges := ranges, promoted := s.promotedBy i x.2 }] ∧
          (t.entryRec i).published = false)))) ∧
    let due := s.clk.mgmtCount % 1024 = 0 ∧ s.clk.mgmtCount ≠ s.plc.evalAt
    (s.effB (plcA 0x40) 0 = true ∨ ¬ due → Gives .luthierReevaluate s (fun t => t = s)) ∧
    (s.effB (plcA 0x40) 0 = false → due → (∀ j ∈ s.plc.jobs, j.waits = true → j.keep = true) → Gives .luthierReevaluate s (fun t =>
      (∀ i, (t.entryRec i).heat = (s.entryRec i).heat / 2 ∧ (t.entryRec i).published = (s.entryRec i).published) ∧
      t.plc.queue = s.plc.queue ∧ t.plc.rolling = s.plc.rolling ∧ t.plc.evalAt = s.clk.mgmtCount ∧ t.mem = { s.mem with slots := t.mem.slots } ∧
      (∀ y ∈ t.mem.slots, y ∈ s.mem.slots) ∧ Within [.mem, .plc] s t)) ∧
    (let may := s.plc.rolling = true ∧ s.allIdle = true ∧ s.staticNeed ≤ s.headCap ∧ s.requiredHeads.all (fun x => s.rangesLanded x.1 x.2) = true
     (may → Gives .capoStaticSwitch s (fun t => t.plc = { s.plc with rolling := false, switching := false } ∧ Within [.plc] s t)) ∧
     (¬ may → Gives .capoStaticSwitch s (fun t => t = s)))

/-- TUNE_BLOCK_START starts a COPY when its GAP has passed, and its engine asks for the first access (R363); each row of a COPY goes to the spare;
the block goes through TEST and RESTORE once the accesses of each phase are granted, and the next one follows; a failing block stays
redirected, stops the pass, sets its flag and is reported (R363, R364). MEMORY_CLEAR_DONE ends its own CLEARING bit (R366). A BAR2 access takes one cycle
for each word, in ascending order, and waits for a clear to end (R366, R367); it and a local-bus access that is served write the enabled bytes of their
words, or read the words, in their own slots, and no other word changes (R367, R370, R371); a host that is cut off, or held in reset, writes nothing and
reads all ones. There is no local-bus access off its clock's edges or while that clock is held (R369, R371). Where the two slots of a cycle collide,
a count, a flag and the address say so, and a read that meets a write returns a free value (R368, log 4). -/
def Obligations.OnChipMemory : Prop :=
  ∀ s : State, s.undef = false →
    let m := s.mem
    let starts := s.tuneEn = true ∧ m.tuneStopped = false ∧ m.tunePhase = .idle ∧ m.tuneNext ≤ s.clk.mgmtCount ∧ s.prepared 9 = false
    let asks := fun t : State => ((smGet (fun _ => ({} : Arb)) t.mem.arb m.tuneTile.val).waiting.filter (fun x => decide (x.1 = 41))).map Prod.snd
    let block := (m.tuneTile, m.tuneBlock)
    let u := s.tuneFinish
    (starts → Gives .tuneBlockStart s (fun t => t.mem = { m with tunePhase := .copy, tuneDone := 0, arb := t.mem.arb } ∧
      asks t = [s.clk.now] ∧ Within [.mem] s t)) ∧
    (¬ starts → Gives .tuneBlockStart s (fun t => t = s)) ∧
    (∀ at_ : Nat, m.tunePhase = .copy → m.tuneDone < 64 →
      let v := s.tuneGranted m.tuneTile.val at_
      smGet (fun _ => (0 : BitVec 512)) v.mem.spare m.tuneDone = s.slotBits (96 * (64 * m.tuneBlock.val + m.tuneDone) + m.tuneTile.val) ∧
        v.mem.tuneDone = m.tuneDone + 1 ∧ v.mem.slots = m.slots) ∧
    (∀ passed : Bool,
      (m.tunePhase = .copy → Gives (.tunePhaseDone passed) s (fun t =>
        t.mem = { u.mem with tunePhase := .test, tuneDone := 0, redirect := some block, arb := t.mem.arb } ∧ asks t = [u.clk.now + 1] ∧
        Within [.clk, .ctr, .mem] s t)) ∧
      (m.tunePhase = .restore → Gives (.tunePhaseDone passed) s (fun t => t.mem = { u.mem with
          redirect := none, tunePhase := .idle, tuneDone := 0, tuneTile := m.tuneTile + 1
          tuneBlock := if m.tuneTile.val = 95 then m.tuneBlock + 1 else m.tuneBlock, tuneNext := s.clk.mgmtCount + s.tuneGap } ∧
        (m.tuneTile.val = 95 → m.tuneBlock = 255 → (t.flag (memA 0x308)).getLsbD 0 = true ∧
          t.counter (memA 0x310) = min (s.counter (memA 0x310) + 1) top32) ∧
        (m.tuneTile.val ≠ 95 ∨ m.tuneBlock ≠ 255 → Within [.clk, .ctr, .mem] s t) ∧ Within [.clk, .flg, .ctr, .mem, .msix] s t))) ∧
    (m.tunePhase = .test →
      Gives (.tunePhaseDone true) s (fun t =>
        t.mem = { u.mem with tunePhase := .restore, tuneDone := 0, redirect := some block, arb := t.mem.arb } ∧ asks t = [u.clk.now + 1] ∧
        Within [.clk, .ctr, .mem] s t) ∧
      Gives (.tunePhaseDone false) s (fun t => t.mem = { m with
          tunePhase := .idle, tuneDone := 0, tuneStopped := true, redirect := some block, arb := t.mem.arb
          failTile := BitVec.ofNat 7 m.tuneTile.val, failBlock := BitVec.ofNat 8 m.tuneBlock.val } ∧ asks t = [] ∧
        (t.flag (memA 0x308)).getLsbD 1 = true ∧ t.flt.seq = s.flt.seq + 1 ∧ Within [.flg, .ctr, .mem, .msix, .flt] s t)) ∧
    (∀ k, Gives (.memoryClearDone k) s (fun t => t.mem = { m with clearing := m.clearing &&& ~~~(clearBit k) } ∧ Within [.mem] s t)) ∧
    let byteOf := fun (t : State) (a : Nat) => smGet xramDefault t.mem.xram a
    let met := fun (clash : Bool) (w : Nat) (t : State) => clash = true → t.mem.collideAddr = BitVec.ofNat 18 w ∧
      t.counter (memA 0x404) = min (s.counter (memA 0x404) + 1) top32 ∧ (t.flag (memA 0x408)).getLsbD 0 = true
    (∀ (at_ : Nat) (addr : BitVec 18) (be : List (BitVec 4)) (data : List Word), be.length ≤ 2 ^ 18 →
      let first := (s.upto at_).hostCycle at_
      let word := fun i : Nat => (addr + BitVec.ofNat 18 i).toNat
      let value := fun i : Nat => (data[i]?).getD 0
      let slots := fun write : Bool => (List.range be.length).map (fun i =>
        ({ tick := first + i, word := word i, write := write, be := (be[i]?).getD 0, data := value i } : XramSlot))
      let clash := fun (write : Bool) (x : XramSlot) => collides (some x) m.lbSlot && decide (x ∈ slots write)
      let elsewhere := fun t : State => ∀ a, (∀ i : Nat, i < be.length → a < 4 * word i ∨ 4 * word i + 4 ≤ a) → byteOf t a = byteOf s a
      (s.hostCut = false → s.heldInReset = false →
        Gives (.bar2Access at_ true addr be data) s (fun t => elsewhere t ∧ t.mem.hostSlots = slots true ∧ t.mem.bar2Data = m.bar2Data ∧
          t.mem.clearing = m.clearing &&& ~~~4 ∧ (∀ x, clash true x = true → met true x.word t) ∧
          ((∀ x, clash true x = false) → (∀ (i : Nat) (j : Fin 4), i < be.length → byteOf t (4 * word i + j.val) =
            if ((be[i]?).getD 0).getLsbD j then BitVec.ofNat 8 ((value i).toNat >>> (8 * j.val)) else byteOf s (4 * word i + j.val)) ∧
            Within [.clk, .mem, .xram] s t)) ∧
        Gives (.bar2Access at_ false addr be data) s (fun t => t.mem.xram = m.xram ∧ t.mem.hostSlots = slots false ∧
          (∀ x, clash false x = true → met true x.word t) ∧
          t.mem.bar2Data = (slots false).map (fun x => if clash false x then Config.collidedWord s.freeN else s.xramWord x.word) ∧
          Within [.clk, .flg, .ctr, .mem, .msix, .freeN] s t)) ∧
      (s.hostCut = true ∨ s.heldInReset = true → Gives (.bar2Access at_ false addr be data) s (fun t =>
          t.mem = { m with bar2Data := List.replicate be.length (~~~0) } ∧ Within [.clk, .mem] s t) ∧
        Gives (.bar2Access at_ true addr be data) s (fun t => t = s.upto at_))) ∧
    (∀ (at_ : Nat) (addr : BitVec 18) (be : BitVec 4) (data : Word),
      let w := addr.toNat
      let wrote := fun t : State => (∀ i : Fin 4, byteOf t (4 * w + i.val) =
          if be.getLsbD i then BitVec.ofNat 8 (data.toNat >>> (8 * i.val)) else byteOf s (4 * w + i.val)) ∧
        (∀ a, (a < 4 * w ∨ 4 * w + 4 ≤ a) → byteOf t a = byteOf s a)
      let slot := fun write : Bool => ({ tick := at_ + 4, word := w, write := write, be := be, data := data } : XramSlot)
      let host := fun write : Bool => m.hostSlots.find? (fun h => collides (some h) (some (slot write)))
      let edge := s.lbClock = true ∧ s.tbAt at_ % 8 = 0
      let run := fun (busy : Bool) (x : Option Word) (t : State) => t.mem.lbRuns.head? = some { edge := at_, busy := busy, data := x } ∧
        (∀ r ∈ m.lbRuns, r.edge ≠ at_ → at_ < r.edge + 24 → r ∈ t.mem.lbRuns)
      (¬ edge → ∀ write, Gives (.lbAccess at_ write addr be data) s (fun t => t = s)) ∧
      (edge → s.lbServed = false → ∀ write, Gives (.lbAccess at_ write addr be data) s (fun t =>
        run (s.effB (memA 0x400) 0) none t ∧ t.mem = { m with lbRuns := t.mem.lbRuns } ∧ Within [.clk, .mem] s t)) ∧
      (edge → s.lbServed = true →
        Gives (.lbAccess at_ true addr be data) s (fun t => wrote t ∧ met (host true).isSome w t ∧ run (host true).isSome none t ∧
          t.mem.lbSlot = some (slot true) ∧ t.mem.bar2Data = (if (host true).any (fun h => !h.write)
            then (List.zip m.hostSlots m.bar2Data).map (fun x => if x.1.tick = at_ + 4 then Config.collidedWord s.freeN else x.2)
            else m.bar2Data) ∧
          Within [.clk, .flg, .ctr, .mem, .xram, .msix, .freeN] s t) ∧
        Gives (.lbAccess at_ false addr be data) s (fun t => met (host false).isSome w t ∧ t.mem.xram = m.xram ∧
          run (host false).isSome (some (if (host false).isSome then Config.collidedWord s.freeN else s.xramWord w)) t ∧
          t.mem.bar2Data = m.bar2Data ∧ Within [.clk, .flg, .ctr, .mem, .msix, .freeN] s t)))

/-- A BAR4 read returns, byte by byte, what its zone gives: data as every earlier write left it, else all ones, with the flags of the zones (R379); an escape
returns all ones (R349). It and a drain wait while their channel has no place for them, a neighbour refresh is due there, or an access
that is ready there goes first: the same for accesses of master 36 as for others (R338, R340, R347). A BAR4 write is accepted, counts, and waits without touching DRAM; one that is discarded whole counts as drained once it
is the oldest (R381). With DRAM ready the oldest write drains into it byte by byte (R336), and each 64-byte unit that escapes is left with free values (R350). A training holds both, and a cut host reads all ones and writes nothing (R336,
R434, R461). INT_PEND_CLEAR clears but what hardware set in the tick (R378, R408); BME_CHANGE flags a pause (R391); an error logs its own bit and is
reported by its severity, which the model takes from the PCI Express defaults (R376; log 10). -/
def Obligations.HostAccesses : Prop :=
  ∀ s : State, s.undef = false →
    let h := s.host
    let goes := fun (acc : List (Nat × EdcOutcome)) (r : HostRound) => ∀ x ∈ acc, (s.dram.chans[unitChan x.1]).room false = true ∧
      s.nbrDue (unitChan x.1) = false ∧ ∀ y ∈ s.readyOn (unitChan x.1) r.ready, s.beats (s.hostFlight x.1) y false = true
    let settled := fun (l : List HostWrite) (k : Word) (t : State) => t.host.writes = l.dropWhile HostWrite.discard ∧
      t.host.wrDrained = h.wrDrained + k + BitVec.ofNat 32 (l.takeWhile HostWrite.discard).length
    (∀ (addr : BitVec 35) (len : Nat) (r : HostRound),
      let a := addr.toNat
      let acc := withEdc ((unitsOf a len).filter (fun u => decide (s.bar4Zone (u * 64) = .data))) r.edc
      let esc := escapesOf acc
      (s.hostCut = true → Gives (.bar4Read addr len r) s (fun t =>
        t.host = { h with bar4Data := List.replicate len 0xFF#8 } ∧ Within [.host] s t)) ∧
      (s.hostCut = false → s.trainingHolds = true → Gives (.bar4Read addr len r) s (fun t =>
        t.pwr.held = s.pwr.held ++ [.bar4Read addr len r] ∧ Within [.pwr] s t)) ∧
      (s.hostCut = false → s.trainingHolds = false → ¬ goes acc r → Gives (.bar4Read addr len r) s (fun t => t = s)) ∧
      (s.hostCut = false → s.trainingHolds = false → goes acc r → Gives (.bar4Read addr len r) s (fun t =>
        t.host.bar4Data = (List.range len).map (fun i => if s.bar4Zone (a + i) = .data ∧ esc = [] then s.hostByte (a + i) else 0xFF#8) ∧
        (.range ∈ s.zonesOf a len → (t.flag (hostA 4)).getLsbD 0 = true) ∧
        (.pool ∈ s.zonesOf a len → (t.flag (hostA 4)).getLsbD 3 = true) ∧
        (∀ x, esc.getLast? = some x → t.dram.escAddr = BitVec.ofNat 64 x ∧ t.dram.escWrite = false) ∧ t.host.writes = h.writes ∧
        Within [.flg, .ctr, .dram, .host, .msix, .flt] s t))) ∧
    (∀ (addr : BitVec 35) (bytes : List (Option Byte)),
      let a := addr.toNat
      (s.hostCut = true → Gives (.bar4Write addr bytes) s (fun t => t = s)) ∧
      (s.hostCut = false → s.trainingHolds = true → Gives (.bar4Write addr bytes) s (fun t =>
        t.pwr.held = s.pwr.held ++ [.bar4Write addr bytes] ∧ Within [.pwr] s t)) ∧
      (s.hostCut = false → s.trainingHolds = false → Gives (.bar4Write addr bytes) s (fun t =>
        (∃ w, settled (h.writes ++ [w]) 0 t ∧ w.addr = a ∧ w.discard = !(s.zonesOf a bytes.length).contains .data ∧
          w.bytes.length = bytes.length ∧
          ∀ i : Nat, i < bytes.length → w.bytes[i]? = some (if s.bar4Zone (a + i) = .data then (bytes[i]?).getD none else none)) ∧
        t.host.wrAccepted = h.wrAccepted + 1 ∧ Within [.flg, .host, .msix] s t))) ∧
    (h.writes = [] → ∀ r, Gives (.bar4WriteDrain r) s (fun t => t = s)) ∧
    (s.dram.ready = false → ∀ r, Gives (.bar4WriteDrain r) s (fun t => t = s)) ∧
    (∀ w rest (r : HostRound), h.writes = w :: rest → ¬ goes (withEdc w.units r.edc) r → Gives (.bar4WriteDrain r) s (fun t => t = s)) ∧
    (∀ w rest (r : HostRound), s.dram.ready = true → h.writes = w :: rest → goes (withEdc w.units r.edc) r →
      let esc := escapesOf (withEdc w.units r.edc)
      Gives (.bar4WriteDrain r) s (fun t => settled rest 1 t ∧ t.host.wrAccepted = h.wrAccepted ∧ t.freeN = s.freeN + esc.length ∧
        (∀ a, t.dramByte a = if a / 64 * 64 ∈ esc then Config.escapedByte (s.freeN + esc.idxOf (a / 64 * 64)) a
          else match w.bytes[a - w.addr]? with
            | some (some x) => if w.addr ≤ a then x else s.dramByte a
            | _ => s.dramByte a) ∧
        (∀ x, esc.getLast? = some x → t.dram.escAddr = BitVec.ofNat 64 x ∧ t.dram.escWrite = true ∧
          (t.flag (drmA 0x24)).getLsbD 1 = true) ∧
        (esc = [] → Within [.flg, .ctr, .dram, .bytes, .host, .msix] s t))) ∧
    (∀ (word : Fin 3) (mask : Word),
      let a := hostA (0x400 + 4 * word.val)
      let e := smGet (fun _ => ({} : Evt)) s.flg a
      Gives (.intPendClear word mask) s (fun t =>
        t.flag a = s.flag a &&& ~~~(mask &&& ~~~(if e.tick = s.clk.now then e.fresh else 0)) ∧ (∀ b, b ≠ a → t.flag b = s.flag b) ∧
        Within [.flg] s t)) ∧
    (∀ (at_ : Nat) (bme d3hot : Bool), Gives (.bmeChange at_ bme d3hot) s (fun t => t.host.bme = bme ∧ t.host.d3hot = d3hot ∧
      ((bme = false ∨ d3hot = true) → (t.flag (hostA 4)).getLsbD 1 = true) ∧ (bme = true → d3hot = false → t.flg = s.flg) ∧
      t.host.ctxs = h.ctxs ∧ t.clk.now = max s.clk.now at_ ∧ Within [.clk, .flg, .host, .msix] s t)) ∧
    (∀ k : AerKind,
      let corr : BitVec 6 := match k with
        | .receiverError => 1 | .badTlp => 2 | .badDllp => 4 | .replayTimeout => 8 | .replayRollover => 16
        | .advisoryNonFatal => 32 | _ => 0
      let uncorr : BitVec 6 := match k with
        | .dataLinkProtocol => 1 | .poisonedTlp => 2 | .completionTimeout => 4 | .unexpectedCompletion => 8
        | .malformedTlp => 16 | .unsupportedRequest => 32 | _ => 0
      (s.heldInReset = true → Gives (.aerError k) s (fun t => t = s)) ∧
      (s.heldInReset = false → Gives (.aerError k) s (fun t =>
        t.host = { h with
          aerCorr := h.aerCorr ||| corr, aerUncorr := h.aerUncorr ||| uncorr
          aerReport := some (if corr ≠ 0 then .correctable else if k = .dataLinkProtocol ∨ k = .malformedTlp then .fatal else .nonFatal) } ∧
        Within [.host] s t)))

/-- OPEN that fails a check of R384 keeps the context with its code and flag; one that passes takes its units from the pool and is OPEN; with CLOSE written
beside it only CLOSE acts, and a prepared block holds it. CLOSE drops what is not committed and, with no object left, returns the units at once
(R394, R395); the piece in transmission lands all the same, as far as committed objects reach. TAIL naming fewer descriptors than the device owns is
ignored with its flag (R386). Descriptors are read at DESC_BASE + 16i, as four little-endian words, up to the ring's end (R385). With DMA on, DRAM
ready and no other access first a landing piece advances LANDED, writes only its ring units, 64 free bytes where a write escapes, and completes its
descriptor with HEAD and its writeback at WB_ADDR (R336, R340, R350, R387, R388, R391). STREAM_DMA_ERROR puts an OPEN context into ERROR (R392). No
other context changes. Four clauses are the model's readings (log 15): good descriptors before a bad one are worked off first, none is read after it,
which piece is in transmission at CLOSE, and that CLOSE adds what has landed outside every committed object to RELEASED. -/
def Obligations.StreamContexts : Prop :=
  ∀ (s : State) (c : Ctx), s.undef = false →
    let k := s.host.ctxs[c]
    let evt := ctxA c 0x28
    let both := (s.cmdWord (ctxA c 0)).getLsbD 1
    let code := s.openCheck c
    let ring := fld (s.settledW (ctxA c 4)) 8 0
    let size := 2 ^ s.effF (ctxA c 4) 20 16
    let failed := fun (why : Nat) (t : State) => t.host.ctxs[c] = { k with
        state := .error, err := BitVec.ofNat 4 why, descs := [], badDesc := 0, pieceDone := 0 } ∧ CtxBut c s t ∧
      t.flag evt = s.flag evt ||| bit32 2 ∧ FlagsBut [evt] s t ∧ Within [.flg, .host, .msix] s t
    (both = true → Gives (.strmOpen c) s (fun t => Takes (ctxA c 0) 1 s t ∧ Within [.cmd, .more] s t)) ∧
    (both = false → s.prepared 8 = true → Gives (.strmOpen c) s (fun t =>
      t.pwr.held = s.pwr.held ++ [.strmOpen c] ∧ Within [.pwr] s t)) ∧
    (both = false → s.prepared 8 = false → code ≠ 0 → Gives (.strmOpen c) s (fun t =>
      t.host.ctxs[c] = { k with err := BitVec.ofNat 4 code } ∧ CtxBut c s t ∧ t.host.poolFree = s.host.poolFree ∧
      Takes (ctxA c 0) 1 s t ∧ t.flag evt = s.flag evt ||| bit32 3 ∧ FlagsBut [evt] s t ∧ Within [.flg, .cmd, .more, .host, .msix] s t)) ∧
    (both = false → s.prepared 8 = false → code = 0 → Gives (.strmOpen c) s (fun t =>
      t.host.ctxs[c].state = .opened ∧ t.host.ctxs[c].units = s.host.poolFree.take ring ∧ t.host.ctxs[c].head = 0 ∧
      t.host.ctxs[c].tail = 0 ∧ t.host.ctxs[c].landed = 0 ∧ t.host.ctxs[c].descs = [] ∧ t.host.ctxs[c].err = k.err ∧
      t.host.poolFree = s.host.poolFree.drop ring ∧ CtxBut c s t ∧ (t.flag evt).getLsbD 4 = true ∧ FlagsBut [evt] s t ∧
      Takes (ctxA c 0) 1 s t ∧ t.effW (ctxA c 4) = s.settledW (ctxA c 4) ∧ Within [.eff, .flg, .ctr, .cmd, .more, .host, .msix] s t)) ∧
    (k.state = .opened ∨ k.state = .error →
      (k.objs = [] → Gives (.strmClose c) s (fun t => t.host.ctxs[c] = { err := k.err } ∧ CtxBut c s t ∧ Takes (ctxA c 0) 3 s t ∧
        t.host.poolFree = s.host.poolFree ++ k.units ∧ t.flag evt = s.flag evt ||| bit32 5 ∧ FlagsBut [evt] s t ∧
        Within [.flg, .cmd, .more, .host, .msix] s t)) ∧
      (k.objs ≠ [] → Gives (.strmClose c) s (fun t => t.host.ctxs[c] = { k with
          state := .closing, lastPiece := if k.state = .opened then k.descs.head? else none, descs := [], badDesc := 0, passed := []
          released := k.released + BitVec.ofNat 32 (k.landed - BitVec.ofNat 32 k.taken).toInt.toNat } ∧ CtxBut c s t ∧ Takes (ctxA c 0) 3 s t ∧
        t.host.poolFree = s.host.poolFree ∧ Within [.cmd, .more, .host] s t))) ∧
    (k.state = .closed ∨ k.state = .closing → Gives (.strmClose c) s (fun t => Takes (ctxA c 0) 3 s t ∧
      t.flag evt = s.flag evt ||| bit32 6 ∧ FlagsBut [evt] s t ∧ Within [.flg, .cmd, .more, .msix] s t)) ∧
    (∀ v : BitVec 16,
      let new := (v.toNat % size + size - k.head.toNat % size) % size
      (new < s.owned c → Gives (.strmTailWrite c v) s (fun t => t.flag evt = s.flag evt ||| bit32 7 ∧ FlagsBut [evt] s t ∧
        Within [.flg, .msix] s t)) ∧
      (s.owned c ≤ new → Gives (.strmTailWrite c v) s (fun t => t.host.ctxs[c] = { k with tail := BitVec.ofNat 16 (v.toNat % size) } ∧
        CtxBut c s t ∧ Within [.host] s t))) ∧
    (∀ read : DescRead,
      let i := (k.head.toNat + k.descs.length) % size
      let x := goodDescs (descsOf (min (min 16 (min (s.owned c - k.descs.length) (size - i))) (read.bytes.length / 16)) read.bytes)
      let reads := k.state = .opened ∧ s.dmaOn = true ∧ k.badDesc = 0 ∧
        read.addr = (s.effW (ctxA c 0xC) ++ s.effW (ctxA c 8)) + BitVec.ofNat 64 (16 * i)
      (¬ reads → Gives (.descFetch c read) s (fun t => t = s)) ∧
      (reads → x.2 = 0 ∨ k.descs ++ x.1 ≠ [] → Gives (.descFetch c read) s (fun t =>
        t.host.ctxs[c] = { k with descs := k.descs ++ x.1, badDesc := BitVec.ofNat 4 x.2 } ∧ CtxBut c s t ∧ Within [.host] s t)) ∧
      (reads → x.2 ≠ 0 → k.descs ++ x.1 = [] → Gives (.descFetch c read) s (failed x.2))) ∧
    (∀ p : Piece, k.pieceOf = none ∨ s.dmaOn = false ∨ s.dram.ready = false → Gives (.streamPieceLand c p) s (fun t => t = s)) ∧
    (∀ (d : Descriptor) (p : Piece),
      let len := p.bytes.length
      let n := k.takes (len / 64)
      let unit := fun i : Nat => s.ringAddr c (k.landed.toNat + i)
      let acc := withEdc ((List.range n).map (fun i => unit i / 64)) p.edc
      let esc := escapesOf acc
      let done := k.pieceDone + len = d.len.toNat
      let lands := 0 < len ∧ len % 64 = 0 ∧ len ≤ 4096 ∧ k.pieceDone + len ≤ d.len.toNat ∧ k.fill + len / 64 ≤ k.ringUnits ∧
        s.hostGoes acc p.ready = true
      let stored := fun t : State => t.host.ctxs[c].landed = k.landed + BitVec.ofNat 32 n ∧ t.host.ctxs[c].lastPiece = none ∧
        (n = 1 → esc = [] → ∀ i : Nat, i < 64 → some (t.dramByte (unit 0 + i)) = p.bytes[i]?) ∧
        (∀ x, esc.getLast? = some x → t.dram.escAddr = BitVec.ofNat 64 x ∧ t.dram.escWrite = true ∧ (t.flag (drmA 0x24)).getLsbD 1 = true) ∧
        (∀ a, (∀ i : Nat, i < n → a < unit i ∨ unit i + 64 ≤ a) → t.dramByte a = s.dramByte a) ∧ CtxBut c s t ∧
        t.host.poolFree = s.host.poolFree ∧ Within [.flg, .ctr, .dram, .bytes, .host, .msix, .flt, .freeN] s t
      s.dmaOn = true → s.dram.ready = true →
        (k.pieceOf = some d → ¬ lands → Gives (.streamPieceLand c p) s (fun t => t = s)) ∧
        (k.state = .closing → k.lastPiece = some d → k.badDesc = 0 → lands → Gives (.streamPieceLand c p) s (fun t =>
          stored t ∧ n = min (len / 64) (BitVec.ofNat 32 k.taken - k.landed).toInt.toNat ∧ t.host.ctxs[c].state = .closing ∧
          t.host.ctxs[c].taken = k.taken ∧ t.host.ctxs[c].objs = k.objs)) ∧
        (∀ more, k.state = .opened → k.descs = d :: more → lands → Gives (.streamPieceLand c p) s (fun t => stored t ∧ n = len / 64 ∧
          (¬ done ∨ k.badDesc = 0 ∨ more ≠ [] → t.host.ctxs[c].state = .opened) ∧
          (done → k.badDesc ≠ 0 → more = [] → t.host.ctxs[c].state = .error ∧ t.host.ctxs[c].err = k.badDesc ∧
            (t.flag evt).getLsbD 2 = true) ∧
          (¬ done → t.host.ctxs[c].pieceDone = k.pieceDone + len ∧
            t.host.ctxs[c].descs = k.descs ∧ t.host.ctxs[c].head = k.head) ∧
          (done → t.host.ctxs[c].pieceDone = 0 ∧ t.host.ctxs[c].descs = more ∧
            t.host.ctxs[c].head = BitVec.ofNat 16 ((k.head.toNat + 1) % size) ∧
            (s.effB (ctxA c 4) 24 = true → t.host.ctxs[c].wbHead =
              some (s.effW (ctxA c 0x14) ++ s.effW (ctxA c 0x10), t.host.ctxs[c].head.setWidth 32)) ∧
            (d.flags.getLsbD 31 = true → (t.flag evt).getLsbD 1 = true))))) ∧
    (∀ e : Fin 4, (k.state = .opened → Gives (.streamDmaError c e) s (failed (5 + e.val))) ∧
      (k.state ≠ .opened → Gives (.streamDmaError c e) s (fun t => t = s)))

/-- A read returns the word at its canonical address, 0 and a record where nothing is mapped, all ones where the host is cut off or the device held
(R401, R407, R434, R444); that reads are commands of this row is the model's choice (log 11). A write of a served RW word of a cluster replaces the
enabled bytes of the value last written, and of the one in force while the cluster is IDLE (R405, R411); a W1C word loses the bits written as 1 but
those that hardware set in the tick (R408); START waits for its management tick (R409). An address that is not served takes no write (R402). A write of two words,
here of START_TIME, takes both, the lower first and the higher in the next tick (R404); a request of several words takes or returns one word a tick in
ascending order (R403, R413). A read of the fail log that master 36 may not make returns 0 and is a violation (R362); that its record counts beside
R407's words is the model's reading (log 11). -/
def Obligations.RegisterAccesses : Prop :=
  ∀ (s : State) (at_ : Nat) (addr : BitVec 24), s.undef = false →
    let u := s.upto at_
    let cut := s.heldInReset || s.hostCut
    (cut = true → Gives (.registerWrite at_ addr .read) s (fun t => t.host = { s.host with bar0Data := ~~~0, bar0More := [] } ∧
      Within [.clk, .host] s t)) ∧
    (∀ n : Nat, cut = true → Gives (.registerWrite at_ addr (.readWords n)) s (fun t => Within [.clk, .host] s t ∧
      t.host = { s.host with bar0Data := ~~~0, bar0More := List.replicate (min 128 n - 1) (~~~0) })) ∧
    (∀ words, cut = true → Gives (.registerWrite at_ addr (.writeWords words)) s (fun t => t = u)) ∧
    (∀ be data, cut = true → Gives (.registerWrite at_ addr (.write be data)) s (fun t => t = u)) ∧
    (∀ be data, cut = true → Gives (.registerWrite at_ addr (.writePair be data)) s (fun t => t = u)) ∧
    (∀ (n : Clu) (data : BitVec 64), cut = false → canon addr.toNat = some (cluA n 0x10) → canon (addr + 4).toNat = some (cluA n 0x14) →
      u.servedNow (cluA n 0x10) = true → u.servedNow (cluA n 0x14) = true →
      ∀ op : Bar0Op, op = .writePair 0xFF data ∨ op = .writeWords [(0xF, data.setWidth 32), (0xF, data.extractLsb' 32 32)] →
      Gives (.registerWrite at_ addr op) s (fun t => t.cfgW (cluA n 0x10) = data.setWidth 32 ∧ t.cfgW (cluA n 0x14) = data.extractLsb' 32 32 ∧
        t.clk.now = max s.clk.now at_ + 1 ∧ WordsBut [cluA n 0x10, cluA n 0x14] s t ∧ Within [.clk, .cfg, .eff, .flg, .was] s t)) ∧
    (cut = false → canon addr.toNat = none → Gives (.registerWrite at_ addr .read) s (fun t => t.host.bar0Data = 0 ∧
      t.flag 0x10 = s.flag 0x10 ||| bit32 1 ∧ FlagsBut [0x10] s t ∧ t.counter 0x18 = min (s.counter 0x18 + 1) top32 ∧
      t.errAddr.toNat = addr.toNat / 4 * 4 ∧ t.errWrite = false)) ∧
    (∀ a, cut = false → canon addr.toNat = some a →
      (u.failLogSlot a = none → Gives (.registerWrite at_ addr .read) s (fun t =>
        t.host = { s.host with bar0Data := u.readWord a, bar0More := [] } ∧ t.clk.now = max s.clk.now at_ ∧ Within [.clk, .host] s t)) ∧
      (∀ slot, u.failLogSlot a = some slot → Gives (.registerWrite at_ addr .read) s (fun t =>
        t.host = { s.host with bar0Data := u.readWord a, bar0More := [] } ∧
        (s.slotOk 36 slot false = false → t.host.bar0Data = 0 ∧ t.counter (memA 0x190) = min (s.counter (memA 0x190) + 1) top32 ∧
          (t.flag (memA 0x204)).getLsbD 4 = true ∧ t.mem.violAddr = BitVec.ofNat 21 slot ∧ t.mem.violWrite = false ∧ t.mem.violSrc = 36) ∧
        Within [.clk, .ctr, .flg, .mem, .host, .msix, .flt] s t)) ∧
      (∀ b, let u1 := (u.bar0Answer (u.readWord a)).upto (u.clk.now + 1)
        canon (addr + 4).toNat = some b → u.failLogSlot a = none → u1.failLogSlot b = none →
        Gives (.registerWrite at_ addr (.readWords 2)) s (fun t => t.clk.now = max s.clk.now at_ + 1 ∧ Within [.clk, .host] s t ∧
          t.host = { s.host with bar0Data := u.readWord a, bar0More := [u1.readWord b] })) ∧
      (∀ be data, gapped be = false → u.servedNow a = false → Gives (.registerWrite at_ addr (.write be data)) s (fun t => t = u)) ∧
      (u.servedNow a = true →
        (∀ (n : Clu) (o : Nat) (be : BitVec 4) (data : Word), a = cluA n o → o = 8 ∨ o = 0x10 ∨ o = 0x14 → gapped be = false →
          let mask : Word := if o = 8 then 0x1FFFF else ~~~0
          Gives (.registerWrite at_ addr (.write be data)) s (fun t =>
            t.cfgW a = merge (s.cfgW a) data (beMask be &&& mask) ∧
            t.effW a = (if s.clu[n].state = .idle then merge (s.effW a) (t.cfgW a) mask else s.effW a) ∧ WordsBut [a] s t ∧
            (∀ b, b ≠ a → t.flag b = s.flag b) ∧ Within [.clk, .cfg, .eff, .flg, .was] s t)) ∧
        (∀ (n : Clu) (be : BitVec 4) (data : Word), a = cluA n 0x40 → gapped be = false →
          let e := smGet (fun _ => ({} : Evt)) s.flg a
          Gives (.registerWrite at_ addr (.write be data)) s (fun t =>
            t.flag a = s.flag a &&& ~~~(data &&& beMask be &&& ~~~(if e.tick = u.clk.now then e.fresh else 0)) ∧
            (∀ b, b ≠ a → t.flag b = s.flag b) ∧ Within [.clk, .flg] s t)) ∧
        (∀ (n : Clu) (d0 d1 : Word), a = cluA n 0x14 → canon (addr + 4).toNat = some (cluA n 0x18) →
          Gives (.registerWrite at_ addr (.writeWords [(0xF, d0), (0, d1)])) s (fun t => t.cfgW a = d0 ∧
            t.clk.now = max s.clk.now at_ + 1 ∧ WordsBut [a] s t ∧ Within [.clk, .cfg, .eff, .flg, .was] s t)) ∧
        (∀ n : Clu, a = cluA n 0 → Gives (.registerWrite at_ addr (.write 1 1)) s (fun t =>
          t.cmdWord a = s.cmdWord a ||| 1 ∧ CmdsBut [a] s t ∧ t.clu = s.clu ∧ WordsBut [a] s t))))

/-- While the host can reach the device, a single-word write whose byte enables are 0101, 1010, 1001, 1011 or 1101 changes no register, table or command:
it sets DEV_ACC_ERR.BE_GAP, records the word in DEV_ACC_ERR_ADDR and increments DEV_ACC_ERR_COUNT, up to its top (R410); in an unmapped range it
sets UNMAPPED as well, and is still recorded once and counts once. A read of a mapped word is served whatever its enables: the command has none to look at.
A write of two words is no single-word write, and the PCI Express rules let it carry no such
enables (R406). -/
def Obligations.GappedWrites : Prop :=
  ∀ (s : State) (at_ : Nat) (addr : BitVec 24) (data : Word), s.undef = false → s.heldInReset = false → s.hostCut = false →
    (∀ be : BitVec 4, be = 0b0101 ∨ be = 0b1010 ∨ be = 0b1001 ∨ be = 0b1011 ∨ be = 0b1101 →
      Gives (.registerWrite at_ addr (.write be data)) s (fun t =>
        t.flag 0x10 = s.flag 0x10 ||| bit32 0 ||| (if canon addr.toNat = none then bit32 1 else 0) ∧ FlagsBut [0x10] s t ∧
        t.errAddr.toNat = addr.toNat / 4 * 4 ∧ t.errWrite = true ∧ t.counter 0x18 = min (s.counter 0x18 + 1) top32 ∧
        CtrsBut [0x18] s t ∧ t.clk.now = max s.clk.now at_ ∧ Within [.clk, .flg, .ctr, .err, .msix] s t)) ∧
    (∀ a, canon addr.toNat = some a → Gives (.registerWrite at_ addr .read) s (fun t =>
      t.host.bar0Data = (s.upto at_).readWord a ∧ FlagsBut [memA 0x204] s t ∧
      t.errAddr = s.errAddr ∧ t.errWrite = s.errWrite ∧ Within [.clk, .ctr, .flg, .mem, .host, .msix, .flt] s t))

/-- A write of FLT_RD_COUNT with a value from its current value to FLT_WR_COUNT is taken; one outside that range is ignored and sets FLT_EVT.RD_BAD. In the
tick of the write a ring write is judged as full or not full against the old count: with a full ring and no WRAP the record is lost, and
FLT_WR_COUNT stays; from the next tick on the new count judges (R463). -/
def Obligations.ReadCountWrites : Prop :=
  ∀ (s : State) (v : Word), s.undef = false →
    let inRange := (v - s.flt.rd).toNat ≤ (s.flt.wr - s.flt.rd).toNat
    (¬ inRange → Gives (.fltRdCountWrite v) s (fun t => t.flt = s.flt ∧ t.flag (fltA 4) = s.flag (fltA 4) ||| bit32 3 ∧
      FlagsBut [fltA 4] s t ∧ Within [.flg, .msix] s t)) ∧
    (inRange → Gives (.fltRdCountWrite v) s (fun t =>
      t.flt.rd = v ∧ t.flt.wr = s.flt.wr ∧ t.flt.queue = s.flt.queue ∧ t.flt.ring = s.flt.ring ∧ t.fltRdFor = s.fltRdFor ∧
      (s.flt.rdOld = none → t.fltRdFor = s.flt.rd) ∧ (∀ k, s.clk.now < k → (t.upto k).fltRdFor = v) ∧ Within [.flt] s t ∧
      (∀ q rest, s.flt.queue = q :: rest → s.clk.pll.getLsbD 0 = true → (∀ k, s.flt.wroteAt = some k → k < s.clk.now) →
        let full := s.flt.wr - s.fltRdFor = 256
        (full → s.fltWrap = false → Gives .faultRecordWrite t (fun r => r.flt.wr = s.flt.wr ∧ r.flt.ring = s.flt.ring ∧
          r.flt.queue = rest ∧ (r.flag (fltA 4)).getLsbD 1 = true)) ∧
        (¬ full → Gives .faultRecordWrite t (fun r => r.flt.wr = s.flt.wr + 1 ∧ r.flt.queue = rest ∧
          (r.flag (fltA 4)).getLsbD 0 = true)))))

/-- FAULT_RECORD_WRITE, with CK_CORE running, takes the oldest report, at most one a tick: a full ring without WRAP loses it, with LOST and the counts; else
it goes into its slot, FLT_WR_COUNT and its class count rise, NEW sets, and under a full ring the overwrite flag (R455, R456, R457, R459, R465).
WATCHDOG_TIMEOUT of a watched device parks it: FAULT_N falls, every trigger and event ball is low, no lane carries current, no level
channel drives, IRQ_N is released, the alert and SAFE_PARK set,
LAST_BEAT is kept (R460, R461, R462). SAFE_PARK clears only once the park is over (R467). -/
def Obligations.SupervisorAndWatchdog : Prop :=
  ∀ s : State, s.undef = false →
    (s.flt.queue = [] ∨ s.clk.pll.getLsbD 0 = false → Gives .faultRecordWrite s (fun t => t = s)) ∧
    (∀ q rest, s.flt.queue = q :: rest → s.clk.pll.getLsbD 0 = true →
      let at_ := max s.clk.now (match s.flt.wroteAt with | some k => k + 1 | none => 0)
      let full := (s.upto at_).fltFull
      let cls := classCountA q.body
      let taken := fun t : State => t.flt.queue = rest ∧ t.flt.wroteAt = some at_ ∧ t.clk.now = at_ ∧ t.flt.rd = s.flt.rd ∧
        t.flt.seq = s.flt.seq ∧ t.counter cls = min (s.counter cls + 1) top32 ∧ FlagsBut [fltA 4] s t
      (full = true → s.fltWrap = false → Gives .faultRecordWrite s (fun t => taken t ∧ t.flt.wr = s.flt.wr ∧ t.flt.ring = s.flt.ring ∧
        t.counter (fltA 0x10) = min (s.counter (fltA 0x10) + 1) top32 ∧ CtrsBut [cls, fltA 0x10] s t ∧
        t.flag (fltA 4) = s.flag (fltA 4) ||| bit32 1 ∧ Within [.clk, .flg, .ctr, .msix, .flt] s t)) ∧
      (full = false ∨ s.fltWrap = true → Gives .faultRecordWrite s (fun t => taken t ∧ t.flt.wr = s.flt.wr + 1 ∧
        t.flt.ring = smPut (fun _ => 0) s.flt.ring (s.flt.wr.toNat % 256) (q.body.encode q.seq) ∧ CtrsBut [cls] s t ∧
        t.flag (fltA 4) = s.flag (fltA 4) ||| (if full then bit32 2 else 0) ||| bit32 0 ∧
        Within [.clk, .flg, .ctr, .msix, .flt] s t))) ∧
    (s.watchingNow = false ∨ s.flt.safePark = true → Gives .watchdogTimeout s (fun t => t = s)) ∧
    (s.watchingNow = true → s.flt.safePark = false → Gives .watchdogTimeout s (fun t =>
      t.flt = { s.flt with safePark := true, lastBeat := s.flt.beatTime } ∧ t.faultN = (if s.pwr.aonDown then none else some false) ∧ t.trgOut = 0 ∧ t.evoOut = 0 ∧
      t.irqAsserted = false ∧ (∀ w : Lane, t.wCurrents w = (0, 0)) ∧ (∀ c : Lvl, t.lvlOut c = none) ∧ t.hostCut = true ∧ t.smb.status.bits = s.smb.status.bits ||| 2 ∧
      t.flag (fltA 0x14) = s.flag (fltA 0x14) ||| bit32 1 ∧ FlagsBut [fltA 0x14] s t ∧
      t.clk.now = max s.clk.now (s.flt.beatAt + 12160) ∧ Within [.clk, .flg, .msix, .flt, .smb] s t)) ∧
    (s.flt.safePark = true → Gives .safeParkClear s (fun t => t = s)) ∧
    (s.flt.safePark = false →
      let e := smGet (fun _ => ({} : Evt)) s.flg (fltA 0x14)
      Gives .safeParkClear s (fun t =>
        t.flag (fltA 0x14) = s.flag (fltA 0x14) &&& ~~~(2 &&& ~~~(if e.tick = s.clk.now then e.fresh else 0)) ∧
        (∀ b, b ≠ fltA 0x14 → t.flag b = s.flag b) ∧ Within [.flg] s t))

/-- SAMPLE, IDCODE, FUSE_READ and BYPASS select their register and change nothing else (R488, R490); the boundary cells capture the balls' levels, and
what PRELOAD leaves in them is a free value (log 23). EXTEST, HIGHZ, CLAMP, EXTEST_PULSE and EXTEST_TRAIN
hold the core in a cold reset with RST_CAUSE 1, and every ball carries its cell's level, AC-coupled ones pulses, or nothing under HIGHZ (R483, R484,
R488); safe park and the ports outlast it; under another of them only the register changes (R461, R489).
JTAG_TEST_EXIT to a test instruction only selects it, else it releases the core, whose time base starts at 0 unless a pin still holds it (R310, R489).
FUSE_PROG is refused, with FUSE_ERR, outside RESET_N, its temperature, or for a key that is set or has other bits; else it programs with DONE and ERR clear, and FUSE_PROG_DONE
sets fuses and never clears one (R490). That only JTAG_TEST_EXIT leaves a test instruction is the model's choice (log 23). -/
def Obligations.TestPort : Prop :=
  ∀ s : State, s.undef = false →
    let selects := fun (code : BitVec 8) (dr : BitVec 512) (t : State) => t.jtag.ir = code ∧ t.jtag.dr = dr ∧
      t.jtag.bypassed = picksBypass code ∧ t.jtag.fusing = s.jtag.fusing ∧
      (picksBoundary code = false → t.jtag.scan = s.jtag.scan) ∧ (code ≠ 1 → t.jtag.cells = s.jtag.cells) ∧
      (picksBoundary code = true → t.pwr.jtagHold = s.pwr.jtagHold → t.jtag.scan =
        { s with jtag := { s.jtag with ir := code, dr := dr, bypassed := picksBypass code } }.ballLevels)
    let shows := fun (code : BitVec 8) (dr : BitVec 512) (t : State) => selects code dr t ∧ Within [.jtag, .freeN] s t
    let again := fun (code : BitVec 8) (t : State) => shows code (s.captured code) t
    let drives := fun (code : BitVec 8) (t : State) (b : Ball) =>
      if code = 3 ∨ b.dir = .input ∨ (b.dir = .both ∧ Config.ballDrives t.freeN b.cell.val = false) then Drive.off
      else if b.ac ∧ code = 5 then .pulse (s.jtag.cells.getLsbD b.cell.val)
      else if b.ac ∧ code = 6 then .train (s.jtag.cells.getLsbD b.cell.val)
      else .level (s.jtag.cells.getLsbD b.cell.val)
    let holds := fun (code : BitVec 8) (t : State) => selects code (s.captured code) t ∧ t.pwr.jtagHold = true ∧ t.heldInReset = true ∧
      t.pwr.rstCause = 1 ∧ t.img.state = .unconfigured ∧ t.clu = State.reset.clu ∧ t.wl = State.reset.wl ∧ t.lvl = State.reset.lvl ∧
      t.pin = State.reset.pin ∧ t.flt.safePark = s.flt.safePark ∧ t.flag (fltA 0x14) = s.flag (fltA 0x14) ∧
      (∀ a, t.cfgW a = resetWord a ∧ t.counter a = 0) ∧ t.mem.xram = [] ∧ t.part = s.part ∧ t.smb = s.smb ∧
      t.dram.cells = [] ∧ (∀ b : Ball, t.pwr.aonDown = false → t.ballDrive b = drives code t b) ∧
      (t.pwr.aonDown = false → picksBoundary code = true → ∀ b : Ball, b.dir = .output →
        t.jtag.scan.getLsbD b.cell.val = s.jtag.cells.getLsbD b.cell.val) ∧
      t.clk.now = s.clk.now ∧ t.undef = false ∧ t.pending = s.pending
    (s.pwr.jtagHold = false →
      Gives .sample s (fun t => shows 1 0 t ∧ t.jtag.cells = Config.shiftedIn s.freeN) ∧ Gives .idcode s (shows 2 (BitVec.ofNat 512 s.idcodeWord)) ∧
      Gives .fuseRead s (shows 0x20 s.fuseWord) ∧ (∀ code, jtagCode code = 0xFF → Gives (.bypass code) s (shows 0xFF 0)) ∧
      Gives .extest s (holds 0) ∧ Gives .highz s (holds 3) ∧ Gives .clamp s (holds 4) ∧ Gives .extestPulse s (holds 5) ∧
      Gives .extestTrain s (holds 6)) ∧
    (s.pwr.jtagHold = true →
      Gives .sample s (fun t => t = s) ∧ Gives .idcode s (fun t => t = s) ∧ Gives .fuseRead s (fun t => t = s) ∧
      (∀ code, Gives (.bypass code) s (fun t => t = s)) ∧
      Gives .extest s (again 0) ∧ Gives .highz s (again 3) ∧ Gives .clamp s (again 4) ∧ Gives .extestPulse s (again 5) ∧
      Gives .extestTrain s (again 6)) ∧
    (∀ (next : BitVec 8) (boot : Bool),
      let code := jtagCode next
      (s.pwr.jtagHold = false → Gives (.jtagTestExit next boot) s (fun t => t = s)) ∧
      (s.pwr.jtagHold = true → holdsCore code = true → Gives (.jtagTestExit next boot) s (fun t =>
        selects code (s.captured code) t ∧ Within [.jtag, .freeN] s t)) ∧
      (s.pwr.jtagHold = true → holdsCore code = false →
        (s.pwr.porHold = true ∨ s.pwr.resetLow = true ∨ s.pwr.perstLow = true → Gives (.jtagTestExit next boot) s (fun t =>
          selects code (s.captured code) t ∧ t.pwr = { s.pwr with jtagHold := false } ∧ t.heldInReset = true ∧
          Within [.pwr, .jtag, .freeN] s t)) ∧
        (s.pwr.porHold = false → s.pwr.resetLow = false → s.pwr.perstLow = false → Gives (.jtagTestExit next boot) s (fun t =>
          selects code (s.captured code) t ∧ t.heldInReset = false ∧ t.tb = 0 ∧ t.flt.watching = true ∧
          t.clk.now = s.clk.now ∧ t.clu = s.clu)))) ∧
    (∀ (v : BitVec 512) (inRange : Bool),
      let refuses := s.pwr.resetLow = false ∨ inRange = false ∨
        (v.getLsbD 384 = true ∧ (s.part.keySet = true ∨ s.part.keyHash &&& ~~~(v.setWidth 384) ≠ 0))
      (s.pwr.jtagHold = true ∨ s.jtag.fusing.isSome → Gives (.fuseProg v inRange) s (fun t => t = s)) ∧
      (s.pwr.jtagHold = false → s.jtag.fusing = none → refuses → Gives (.fuseProg v inRange) s (fun t =>
        t.part = { s.part with fuseErr := true, fuseDone := false } ∧ t.jtag.fusing = none ∧ Within [.part, .jtag] s t)) ∧
      (s.pwr.jtagHold = false → s.jtag.fusing = none → ¬ refuses → Gives (.fuseProg v inRange) s (fun t =>
        t.part = { s.part with fuseErr := false, fuseDone := false } ∧
        t.jtag = { s.jtag with ir := 0x21, bypassed := false, fusing := some v } ∧ Within [.part, .jtag] s t))) ∧
    (∀ v, s.jtag.fusing = some v →
      Gives (.fuseProgDone true) s (fun t => t.part = { s.part with fuseErr := true, fuseDone := false } ∧
        t.jtag = { s.jtag with fusing := none } ∧ Within [.part, .jtag] s t) ∧
      Gives (.fuseProgDone false) s (fun t => t.part = { s.part with
          keyHash := if v.getLsbD 384 then s.part.keyHash ||| v.setWidth 384 else s.part.keyHash
          keySet := s.part.keySet || v.getLsbD 384
          signedOnly := s.part.signedOnly || decide (v.setWidth 386 = 1#386 <<< 385), fuseErr := false, fuseDone := true } ∧
        t.jtag = { s.jtag with fusing := none } ∧ Within [.part, .jtag] s t))

/-- A read latches its register: the variant, the revision, STATUS, a temperature, or an alert register (R492). A write with a good PEC clears the alert
bits written as 1, but those that hardware set in the tick, or sets the mask or the limit; with a bad one it is discarded (R491). The Alert Response
Address answers while the device alerts. A conversion of a powered sensor stores its reading, and one above TEMP_LIMIT sets OVER_TEMP (R492). A timeout
abandons the transaction (R491). Only the SMBus port changes. A read returns its bytes
with a packet error code, as Block Read after a count; its polynomial and what it spans are the model's (log 23). -/
def Obligations.SmbusPort : Prop :=
  ∀ s : State, s.undef = false →
    let m := s.smb
    let own : Byte := (0x58 + m.addrPins.setWidth 7).setWidth 8 <<< 1
    let reads := fun (code : Byte) (l : List Byte) (t : State) =>
      t.smb = { m with
        data := BitVec.ofNat 16 (leNat l), ara := none, active := true, blockCount := BitVec.ofNat 8 l.length
        pec := pecOf (own :: code :: (own ||| 1) :: l)
        blockPec := pecOf (own :: code :: (own ||| 1) :: BitVec.ofNat 8 l.length :: l) } ∧ Within [.smb] s t
    let two := fun v : BitVec 16 => [v.setWidth 8, (v >>> 8).setWidth 8]
    let one := fun v : Nat => [BitVec.ofNat 8 v]
    let writes := fun (after : Smbus) (t : State) => t.smb = { after with ara := none, active := false } ∧ Within [.smb] s t
    Gives .smbId s (reads 0 (two s.part.variant.code)) ∧ Gives .smbRev s (reads 1 (one s.part.siliconRev.toNat)) ∧
    Gives .smbStatus s (reads 2 (one s.smbStatusByte)) ∧
    (∀ n : Fin 12, Gives (.smbTemp n) s (reads (0x10 + BitVec.ofNat 8 n.val) (two m.temps[n]))) ∧
    (∀ ok, Gives (.smbAlertStatus none ok) s (reads 0x20 (one m.status.bits.toNat)) ∧
      Gives (.smbAlertMask none ok) s (reads 0x21 (one m.mask.toNat)) ∧ Gives (.smbTempLimit none ok) s (reads 0x22 (two m.limit))) ∧
    (∀ b : Byte,
      let fresh := if m.status.tick = s.clk.now then m.status.fresh else 0
      Gives (.smbAlertStatus (some b) true) s
        (writes { m with status := { m.status with bits := m.status.bits &&& ~~~(b.setWidth 32 &&& 3 &&& ~~~fresh) } }) ∧
      Gives (.smbAlertStatus (some b) false) s (writes m) ∧
      Gives (.smbAlertMask (some b) true) s (writes { m with mask := b }) ∧ Gives (.smbAlertMask (some b) false) s (writes m)) ∧
    (∀ v : BitVec 16, Gives (.smbTempLimit (some v) true) s (writes { m with limit := v }) ∧
      Gives (.smbTempLimit (some v) false) s (writes m)) ∧
    (s.alerting = true → Gives .smbAlertResponse s (fun t =>
      t.smb = { m with ara := some (0x58 + m.addrPins.setWidth 7), active := true, pec := pecOf [0x19, own] } ∧ Within [.smb] s t)) ∧
    (s.alerting = false → Gives .smbAlertResponse s (fun t => t.smb = { m with ara := none, active := false } ∧ Within [.smb] s t)) ∧
    (∀ (n : Fin 12) (v : BitVec 16),
      (s.sensorPowered n = false → Gives (.tempConversion n v) s (fun t => t = s)) ∧
      (s.sensorPowered n = true → Gives (.tempConversion n v) s (fun t =>
        t.smb.temps[n] = v ∧ (∀ k : Fin 12, k ≠ n → t.smb.temps[k] = m.temps[k]) ∧ t.smb.limit = m.limit ∧ t.smb.mask = m.mask ∧
        t.smb.status.bits = (if m.limit.toInt < v.toInt then m.status.bits ||| 1 else m.status.bits) ∧ Within [.smb] s t))) ∧
    Gives .smbusTimeout s (fun t => t.smb = { m with active := false, ara := none, data := 0 } ∧ Within [.smb] s t)
end

