-- ==== Sys2Proof/Laws/Store.lean ====
section
/-! SUPPORT. Keyed stores and byte memories: what a read finds after a write, and the canonical form that every
operation keeps. -/
namespace Sys2Proof.Machine

/-! ### Reads after writes -/

theorem smFind_insert_self {α : Type} (m : SMap α) (k : Nat) (v : α) : smFind (smInsert m k v) k = some v := by
  induction m with
  | nil => simp [smInsert, smFind]
  | cons p r ih =>
    obtain ⟨a, x⟩ := p
    simp only [smInsert]
    split
    · simp [smFind]
    · split
      · simp [smFind]
      · next h1 h2 => simp only [smFind, if_neg (Ne.symm h2), ih]

theorem smFind_insert_other {α : Type} (m : SMap α) {k j : Nat} (v : α) (h : j ≠ k) :
    smFind (smInsert m k v) j = smFind m j := by
  induction m with
  | nil => simp [smInsert, smFind, Ne.symm h]
  | cons p r ih =>
    obtain ⟨a, x⟩ := p
    simp only [smInsert]
    split
    · simp [smFind, Ne.symm h]
    · split
      · next h2 => subst h2; simp [smFind, Ne.symm h]
      · simp only [smFind, ih]

theorem smFind_filter {α : Type} (m : SMap α) (q : Nat → Bool) (j : Nat) :
    smFind (m.filter (fun p => q p.1)) j = if q j then smFind m j else none := by
  induction m with
  | nil => simp [smFind]
  | cons p r ih =>
    obtain ⟨a, x⟩ := p
    by_cases hq : q a <;> by_cases ha : a = j <;> simp_all [smFind]

theorem smFind_erase {α : Type} (m : SMap α) (k j : Nat) :
    smFind (smErase m k) j = if j = k then none else smFind m j := by
  have := smFind_filter m (fun a => decide (a ≠ k)) j
  by_cases h : j = k <;> simp_all [smErase]

/-- A read of the key just written gives the value written. -/
@[simp] theorem smGet_put_self {α : Type} [DecidableEq α] (d : Nat → α) (m : SMap α) (k : Nat) (v : α) :
    smGet d (smPut d m k v) k = v := by
  unfold smPut
  split
  · next h => simp [smGet, smFind_erase, h]
  · simp [smGet, smFind_insert_self]

/-- A write leaves every other key as it was. -/
theorem smGet_put_other {α : Type} [DecidableEq α] (d : Nat → α) (m : SMap α) {k j : Nat} (v : α) (h : j ≠ k) :
    smGet d (smPut d m k v) j = smGet d m j := by
  unfold smPut
  split
  · simp [smGet, smFind_erase, h]
  · simp [smGet, smFind_insert_other m v h]

@[simp] theorem smGet_mod_self {α : Type} [DecidableEq α] (d : Nat → α) (m : SMap α) (k : Nat) (f : α → α) :
    smGet d (smMod d m k f) k = f (smGet d m k) := by simp [smMod]

theorem smGet_mod_other {α : Type} [DecidableEq α] (d : Nat → α) (m : SMap α) {k j : Nat} (f : α → α) (h : j ≠ k) :
    smGet d (smMod d m k f) j = smGet d m j := smGet_put_other d m _ h

theorem smGet_erase {α : Type} (d : Nat → α) (m : SMap α) (k j : Nat) :
    smGet d (smErase m k) j = if j = k then d j else smGet d m j := by
  simp only [smGet, smFind_erase]; split <;> simp

/-- A byte outside the bytes written reads as before. -/
theorem smGet_putBytes_other (d : Nat → Byte) (l : List (Option Byte)) :
    ∀ (m : List Host.Cell) (a j : Nat), (j < a ∨ a + l.length ≤ j) → smGet d (putBytes d m a l) j = smGet d m j := by
  induction l with
  | nil => intro m a j _; rfl
  | cons x r ih =>
    intro m a j h
    simp only [List.length_cons] at h
    cases x with
    | none => rw [putBytes, ih m (a + 1) j (by omega)]
    | some b => rw [putBytes, ih _ (a + 1) j (by omega), smGet_put_other d m b (by omega)]

/-- A byte just written reads as written. -/
theorem smGet_putBytes (d : Nat → Byte) (l : List (Option Byte)) :
    ∀ (m : List Host.Cell) (a i : Nat) (b : Byte), l[i]? = some (some b) → smGet d (putBytes d m a l) (a + i) = b := by
  induction l with
  | nil => intro m a i b h; simp at h
  | cons x r ih =>
    intro m a i b h
    cases i with
    | zero =>
      simp only [List.getElem?_cons_zero, Option.some.injEq] at h
      subst h
      show smGet d (putBytes d (smPut d m a b) (a + 1) r) a = b
      rw [smGet_putBytes_other d r _ (a + 1) a (by omega), smGet_put_self]
    | succ k =>
      simp only [List.getElem?_cons_succ] at h
      have e : a + (k + 1) = a + 1 + k := by omega
      cases x with
      | none => rw [putBytes, e]; exact ih _ _ _ _ h
      | some c => rw [putBytes, e]; exact ih _ _ _ _ h

/-! ### The canonical form -/

/-- The canonical form as a proposition. -/
theorem smWf_iff {α : Type} [DecidableEq α] (d : Nat → α) (m : SMap α) :
    smWf d m = true ↔ List.Pairwise (fun p q : Nat × α => p.1 < q.1) m ∧ ∀ p ∈ m, p.2 ≠ d p.1 := by
  simp [smWf, Bool.and_eq_true, List.all_eq_true]

@[simp] theorem smWf_nil {α : Type} [DecidableEq α] (d : Nat → α) : smWf d [] = true := by
  rw [smWf_iff]; simp

theorem smInsert_mem {α : Type} (m : SMap α) (k : Nat) (v : α) {p : Nat × α} (h : p ∈ smInsert m k v) :
    p = (k, v) ∨ p ∈ m := by
  induction m with
  | nil => simpa [smInsert] using h
  | cons q r ih =>
    obtain ⟨a, x⟩ := q
    simp only [smInsert] at h
    split at h
    · simpa using h
    · split at h
      · simp only [List.mem_cons] at h ⊢; tauto
      · simp only [List.mem_cons] at h ⊢
        rcases h with h | h
        · exact .inr (.inl h)
        · rcases ih h with h | h
          · exact .inl h
          · exact .inr (.inr h)

theorem smInsert_sorted {α : Type} (m : SMap α) (k : Nat) (v : α)
    (h : List.Pairwise (fun p q : Nat × α => p.1 < q.1) m) :
    List.Pairwise (fun p q : Nat × α => p.1 < q.1) (smInsert m k v) := by
  induction m with
  | nil => simp [smInsert]
  | cons q r ih =>
    obtain ⟨a, x⟩ := q
    rw [List.pairwise_cons] at h
    simp only [smInsert]
    split
    · next hk =>
      rw [List.pairwise_cons]
      refine ⟨?_, List.pairwise_cons.mpr h⟩
      intro p hp
      rcases List.mem_cons.mp hp with rfl | hp
      · exact hk
      · exact Nat.lt_trans hk (h.1 p hp)
    · split
      · next hk =>
        subst hk
        exact List.pairwise_cons.mpr ⟨h.1, h.2⟩
      · next h1 h2 =>
        rw [List.pairwise_cons]
        refine ⟨?_, ih h.2⟩
        intro p hp
        rcases smInsert_mem r k v hp with rfl | hp
        · show a < k; omega
        · exact h.1 p hp

theorem smWf_filter {α : Type} [DecidableEq α] (d : Nat → α) (m : SMap α) (q : Nat × α → Bool)
    (h : smWf d m = true) : smWf d (m.filter q) = true := by
  rw [smWf_iff] at *
  exact ⟨h.1.filter _, fun p hp => h.2 p (List.mem_of_mem_filter hp)⟩

theorem smWf_erase {α : Type} [DecidableEq α] (d : Nat → α) (m : SMap α) (k : Nat) (h : smWf d m = true) :
    smWf d (smErase m k) = true := smWf_filter d m _ h

/-- A write keeps the canonical form. -/
theorem smWf_put {α : Type} [DecidableEq α] (d : Nat → α) (m : SMap α) (k : Nat) (v : α) (h : smWf d m = true) :
    smWf d (smPut d m k v) = true := by
  unfold smPut
  split
  · exact smWf_erase d m k h
  · next hv =>
    rw [smWf_iff] at *
    refine ⟨smInsert_sorted m k v h.1, fun p hp => ?_⟩
    rcases smInsert_mem m k v hp with rfl | hp
    · exact hv
    · exact h.2 p hp

theorem smWf_mod {α : Type} [DecidableEq α] (d : Nat → α) (m : SMap α) (k : Nat) (f : α → α) (h : smWf d m = true) :
    smWf d (smMod d m k f) = true := smWf_put d m k _ h

theorem smWf_eraseAll {α : Type} [DecidableEq α] (d : Nat → α) (l : List Nat) :
    ∀ m : SMap α, smWf d m = true → smWf d (l.foldl smErase m) = true := by
  induction l with
  | nil => intro m h; exact h
  | cons k r ih => intro m h; exact ih _ (smWf_erase d m k h)

theorem smWf_eraseMap {α β : Type} [DecidableEq α] (d : Nat → α) (g : β → Nat) (l : List β) :
    ∀ m : SMap α, smWf d m = true → smWf d (l.foldl (fun f i => smErase f (g i)) m) = true := by
  induction l with
  | nil => intro m h; exact h
  | cons k r ih => intro m h; exact ih _ (smWf_erase d m (g k) h)

/-- A write of bytes keeps the canonical form of a byte memory. -/
theorem memWf_putBytes (d : Nat → Byte) (l : List (Option Byte)) :
    ∀ (m : List Host.Cell) (a : Nat), Memory.wf d m = true → Memory.wf d (putBytes d m a l) = true := by
  induction l with
  | nil => intro m a h; exact h
  | cons x r ih =>
    intro m a h
    cases x with
    | none => exact ih m (a + 1) h
    | some b => exact ih _ (a + 1) (smWf_put d m a b h)

end Sys2Proof.Machine
end

