-- ==== Sys2Proof/Laws/Frame.lean ====
section
/-! SUPPORT. Frames: how a frame composes, and what each plain update of the state leaves alone. -/
namespace Sys2Proof.Machine

theorem Part.sameChip.refl (p : Part) : p.sameChip p :=
  ⟨rfl, rfl, rfl, rfl, rfl, BitVec.and_self, id, id⟩

theorem Part.sameChip.trans {p q r : Part} (h : p.sameChip q) (k : q.sameChip r) : p.sameChip r := by
  obtain ⟨a1, a2, a3, a4, a5, a6, a7, a8⟩ := h
  obtain ⟨b1, b2, b3, b4, b5, b6, b7, b8⟩ := k
  refine ⟨b1.trans a1, b2.trans a2, b3.trans a3, b4.trans a4, b5.trans a5, ?_, b7 ∘ a7, b8 ∘ a8⟩
  calc r.keyHash &&& p.keyHash = r.keyHash &&& (q.keyHash &&& p.keyHash) := by rw [a6]
    _ = p.keyHash := by rw [← BitVec.and_assoc, b6, a6]

theorem Agree.refl (f : Field) (s : State) : Agree f s s := by
  cases f <;> first | rfl | exact ⟨rfl, rfl⟩ | exact ⟨rfl, rfl, rfl⟩ | exact Part.sameChip.refl _ | exact id

theorem Agree.trans {f : Field} {s t u : State} (h : Agree f s t) (k : Agree f t u) : Agree f s u := by
  cases f
  case err => exact ⟨k.1.trans h.1, k.2.trans h.2⟩
  case bytes => exact ⟨k.1.trans h.1, k.2.trans h.2⟩
  case msix => exact ⟨k.1.trans h.1, k.2.1.trans h.2.1, k.2.2.trans h.2.2⟩
  case chip => exact Part.sameChip.trans h k
  case memForm => exact fun x => k (h x)
  case regForm => exact fun x => k (h x)
  case dram =>
    show ({ u.dram with cells := s.dram.cells, gen := s.dram.gen } : Dram) = s.dram
    have h' : ({ t.dram with cells := s.dram.cells, gen := s.dram.gen } : Dram) = s.dram := h
    have k' : ({ u.dram with cells := t.dram.cells, gen := t.dram.gen } : Dram) = t.dram := k
    rw [← h', ← k']
  case mem =>
    show ({ u.mem with xram := s.mem.xram } : Mem) = s.mem
    have h' : ({ t.mem with xram := s.mem.xram } : Mem) = s.mem := h
    have k' : ({ u.mem with xram := t.mem.xram } : Mem) = t.mem := k
    rw [← h', ← k']
  case host =>
    show ({ u.host with
      msixPending := s.host.msixPending, msixSent := s.host.msixSent, msixLast := s.host.msixLast } : HostIf) = s.host
    have h' : ({ t.host with
      msixPending := s.host.msixPending, msixSent := s.host.msixSent, msixLast := s.host.msixLast } : HostIf) = s.host := h
    have k' : ({ u.host with
      msixPending := t.host.msixPending, msixSent := t.host.msixSent, msixLast := t.host.msixLast } : HostIf) = t.host := k
    rw [← h', ← k']
  all_goals exact Eq.trans k h

theorem Within.refl (l : List Field) (s : State) : Within l s s := fun f _ => Agree.refl f s

/-- A frame goes on through a further operation whose own frame it covers. -/
theorem Within.step {l m : List Field} {s t u : State} (h : Within l s t) (k : Within m t u)
    (hm : m.all (fun f => l.contains f) = true) : Within l s u := by
  intro f hf
  refine Agree.trans (h f hf) (k f fun hfm => hf ?_)
  have := List.all_eq_true.mp hm f hfm
  simpa using this

theorem Within.mono {l m : List Field} {s t : State} (h : Within m s t)
    (hm : m.all (fun f => l.contains f) = true) : Within l s t := (Within.refl l s).step h hm

/-- A fold keeps a frame that each of its steps keeps. -/
theorem Within.fold {α : Type} {l : List Field} {s t : State} {g : State → α → State} {xs : List α}
    (h : Within l s t) (hg : ∀ u x, Within l s u → Within l s (g u x)) : Within l s (xs.foldl g t) := by
  induction xs generalizing t with
  | nil => exact h
  | cons x r ih => exact ih (hg t x h)

theorem Within.ite {l : List Field} {s a b : State} {c : Prop} [Decidable c] (ha : Within l s a) (hb : Within l s b) :
    Within l s (if c then a else b) := by split <;> assumption

/-! ### Plain updates -/


theorem Within.set_clk (s : State) (x : Clock) : Within [.clk] s { s with clk := x } := by
  intro f hf
  cases f <;> first | exact absurd (by decide) hf | rfl | exact ⟨rfl, rfl⟩ | exact ⟨rfl, rfl, rfl⟩ |
    exact Part.sameChip.refl _ | exact id

theorem Within.set_pwr (s : State) (x : Power) : Within [.pwr] s { s with pwr := x } := by
  intro f hf
  cases f <;> first | exact absurd (by decide) hf | rfl | exact ⟨rfl, rfl⟩ | exact ⟨rfl, rfl, rfl⟩ |
    exact Part.sameChip.refl _ | exact id

theorem Within.set_img (s : State) (x : Image) : Within [.img] s { s with img := x } := by
  intro f hf
  cases f <;> first | exact absurd (by decide) hf | rfl | exact ⟨rfl, rfl⟩ | exact ⟨rfl, rfl, rfl⟩ |
    exact Part.sameChip.refl _ | exact id

theorem Within.set_ovl (s : State) (x : Overlay) : Within [.ovl] s { s with ovl := x } := by
  intro f hf
  cases f <;> first | exact absurd (by decide) hf | rfl | exact ⟨rfl, rfl⟩ | exact ⟨rfl, rfl, rfl⟩ |
    exact Part.sameChip.refl _ | exact id

theorem Within.set_trg (s : State) (x : Triggers) : Within [.trg] s { s with trg := x } := by
  intro f hf
  cases f <;> first | exact absurd (by decide) hf | rfl | exact ⟨rfl, rfl⟩ | exact ⟨rfl, rfl, rfl⟩ |
    exact Part.sameChip.refl _ | exact id

theorem Within.set_tabs (s : State) (x : Tables) : Within [.tabs] s { s with tabs := x } := by
  intro f hf
  cases f <;> first | exact absurd (by decide) hf | rfl | exact ⟨rfl, rfl⟩ | exact ⟨rfl, rfl, rfl⟩ |
    exact Part.sameChip.refl _ | exact id

theorem Within.set_was (s : State) (x : TickOld) : Within [.was] s { s with was := x } := by
  intro f hf
  cases f <;> first | exact absurd (by decide) hf | rfl | exact ⟨rfl, rfl⟩ | exact ⟨rfl, rfl, rfl⟩ |
    exact Part.sameChip.refl _ | exact id

theorem Within.set_clu (s : State) (x : Vector Cluster 8) : Within [.clu] s { s with clu := x } := by
  intro f hf
  cases f <;> first | exact absurd (by decide) hf | rfl | exact ⟨rfl, rfl⟩ | exact ⟨rfl, rfl, rfl⟩ |
    exact Part.sameChip.refl _ | exact id

theorem Within.set_wl (s : State) (x : Vector WLane 16) : Within [.wl] s { s with wl := x } := by
  intro f hf
  cases f <;> first | exact absurd (by decide) hf | rfl | exact ⟨rfl, rfl⟩ | exact ⟨rfl, rfl, rfl⟩ |
    exact Part.sameChip.refl _ | exact id

theorem Within.set_gov (s : State) (x : Governor) : Within [.gov] s { s with gov := x } := by
  intro f hf
  cases f <;> first | exact absurd (by decide) hf | rfl | exact ⟨rfl, rfl⟩ | exact ⟨rfl, rfl, rfl⟩ |
    exact Part.sameChip.refl _ | exact id

theorem Within.set_pg (s : State) (x : Vector PinGroup 4) : Within [.pg] s { s with pg := x } := by
  intro f hf
  cases f <;> first | exact absurd (by decide) hf | rfl | exact ⟨rfl, rfl⟩ | exact ⟨rfl, rfl, rfl⟩ |
    exact Part.sameChip.refl _ | exact id

theorem Within.set_pin (s : State) (x : Vector Pin 64) : Within [.pin] s { s with pin := x } := by
  intro f hf
  cases f <;> first | exact absurd (by decide) hf | rfl | exact ⟨rfl, rfl⟩ | exact ⟨rfl, rfl, rfl⟩ |
    exact Part.sameChip.refl _ | exact id

theorem Within.set_lvl (s : State) (x : Vector Level 48) : Within [.lvl] s { s with lvl := x } := by
  intro f hf
  cases f <;> first | exact absurd (by decide) hf | rfl | exact ⟨rfl, rfl⟩ | exact ⟨rfl, rfl, rfl⟩ |
    exact Part.sameChip.refl _ | exact id

theorem Within.set_lg (s : State) (x : Vector LoadGroup 6) : Within [.lg] s { s with lg := x } := by
  intro f hf
  cases f <;> first | exact absurd (by decide) hf | rfl | exact ⟨rfl, rfl⟩ | exact ⟨rfl, rfl, rfl⟩ |
    exact Part.sameChip.refl _ | exact id

theorem Within.set_mon (s : State) (x : Monitor) : Within [.mon] s { s with mon := x } := by
  intro f hf
  cases f <;> first | exact absurd (by decide) hf | rfl | exact ⟨rfl, rfl⟩ | exact ⟨rfl, rfl, rfl⟩ |
    exact Part.sameChip.refl _ | exact id

theorem Within.set_brg (s : State) (x : Bridge) : Within [.brg] s { s with brg := x } := by
  intro f hf
  cases f <;> first | exact absurd (by decide) hf | rfl | exact ⟨rfl, rfl⟩ | exact ⟨rfl, rfl, rfl⟩ |
    exact Part.sameChip.refl _ | exact id

theorem Within.set_link (s : State) (x : Link) : Within [.link] s { s with link := x } := by
  intro f hf
  cases f <;> first | exact absurd (by decide) hf | rfl | exact ⟨rfl, rfl⟩ | exact ⟨rfl, rfl, rfl⟩ |
    exact Part.sameChip.refl _ | exact id

theorem Within.set_flt (s : State) (x : Supervisor) : Within [.flt] s { s with flt := x } := by
  intro f hf
  cases f <;> first | exact absurd (by decide) hf | rfl | exact ⟨rfl, rfl⟩ | exact ⟨rfl, rfl, rfl⟩ |
    exact Part.sameChip.refl _ | exact id

theorem Within.set_plc (s : State) (x : Placement) : Within [.plc] s { s with plc := x } := by
  intro f hf
  cases f <;> first | exact absurd (by decide) hf | rfl | exact ⟨rfl, rfl⟩ | exact ⟨rfl, rfl, rfl⟩ |
    exact Part.sameChip.refl _ | exact id

theorem Within.set_jtag (s : State) (x : Jtag) : Within [.jtag] s { s with jtag := x } := by
  intro f hf
  cases f <;> first | exact absurd (by decide) hf | rfl | exact ⟨rfl, rfl⟩ | exact ⟨rfl, rfl, rfl⟩ |
    exact Part.sameChip.refl _ | exact id

theorem Within.set_smb (s : State) (x : Smbus) : Within [.smb] s { s with smb := x } := by
  intro f hf
  cases f <;> first | exact absurd (by decide) hf | rfl | exact ⟨rfl, rfl⟩ | exact ⟨rfl, rfl, rfl⟩ |
    exact Part.sameChip.refl _ | exact id

theorem Within.set_undef (s : State) (x : Bool) : Within [.undef] s { s with undef := x } := by
  intro f hf
  cases f <;> first | exact absurd (by decide) hf | rfl | exact ⟨rfl, rfl⟩ | exact ⟨rfl, rfl, rfl⟩ |
    exact Part.sameChip.refl _ | exact id

theorem Within.set_freeN (s : State) (x : Nat) : Within [.freeN] s { s with freeN := x } := by
  intro f hf
  cases f <;> first | exact absurd (by decide) hf | rfl | exact ⟨rfl, rfl⟩ | exact ⟨rfl, rfl, rfl⟩ |
    exact Part.sameChip.refl _ | exact id

theorem Within.set_pending (s : State) (x : List Instr) : Within [.pending] s { s with pending := x } := by
  intro f hf
  cases f <;> first | exact absurd (by decide) hf | rfl | exact ⟨rfl, rfl⟩ | exact ⟨rfl, rfl, rfl⟩ |
    exact Part.sameChip.refl _ | exact id

theorem Within.set_part (s : State) (x : Part) : Within [.part, .chip] s { s with part := x } := by
  intro f hf
  cases f <;> first | exact absurd (by decide) hf | rfl | exact ⟨rfl, rfl⟩ | exact ⟨rfl, rfl, rfl⟩ |
    exact Part.sameChip.refl _ | exact id

theorem Within.set_err (s : State) (x : BitVec 24) (y : Bool) : Within [.err] s { s with errAddr := x, errWrite := y } := by
  intro f hf
  cases f <;> first | exact absurd (by decide) hf | rfl | exact ⟨rfl, rfl⟩ | exact ⟨rfl, rfl, rfl⟩ |
    exact Part.sameChip.refl _ | exact id

theorem Within.set_lg_mon (s : State) (x : Vector LoadGroup 6) (y : Monitor) : Within [.lg, .mon] s { s with lg := x, mon := y } := by
  intro f hf
  cases f <;> first | exact absurd (by decide) hf | rfl | exact ⟨rfl, rfl⟩ | exact ⟨rfl, rfl, rfl⟩ |
    exact Part.sameChip.refl _ | exact id

theorem Within.set_trg_brg (s : State) (x : Triggers) (y : Bridge) : Within [.trg, .brg] s { s with trg := x, brg := y } := by
  intro f hf
  cases f <;> first | exact absurd (by decide) hf | rfl | exact ⟨rfl, rfl⟩ | exact ⟨rfl, rfl, rfl⟩ |
    exact Part.sameChip.refl _ | exact id

theorem Within.set_cfg (s : State) (x : SMap Word) (h : smWf resetWord s.cfg = true → smWf resetWord x = true) :
    Within [.cfg] s { s with cfg := x } := by
  intro f hf
  cases f
  case regForm =>
    intro hs
    simp only [State.regsOk, Bool.and_eq_true] at hs ⊢
    exact by simp only [hs, h, and_self]
  all_goals first | exact absurd (by decide) hf | rfl | exact ⟨rfl, rfl⟩ | exact ⟨rfl, rfl, rfl⟩ | exact Part.sameChip.refl _ | exact id

theorem Within.set_eff (s : State) (x : SMap Word) (h : smWf resetWord s.eff = true → smWf resetWord x = true) :
    Within [.eff] s { s with eff := x } := by
  intro f hf
  cases f
  case regForm =>
    intro hs
    simp only [State.regsOk, Bool.and_eq_true] at hs ⊢
    exact by simp only [hs, h, and_self]
  all_goals first | exact absurd (by decide) hf | rfl | exact ⟨rfl, rfl⟩ | exact ⟨rfl, rfl, rfl⟩ | exact Part.sameChip.refl _ | exact id

theorem Within.set_flg (s : State) (x : SMap Evt) (h : smWf (fun _ => ({} : Evt)) s.flg = true → smWf (fun _ => ({} : Evt)) x = true) :
    Within [.flg] s { s with flg := x } := by
  intro f hf
  cases f
  case regForm =>
    intro hs
    simp only [State.regsOk, Bool.and_eq_true] at hs ⊢
    exact by simp only [hs, h, and_self]
  all_goals first | exact absurd (by decide) hf | rfl | exact ⟨rfl, rfl⟩ | exact ⟨rfl, rfl, rfl⟩ | exact Part.sameChip.refl _ | exact id

theorem Within.set_ctr (s : State) (x : SMap Ctr) (h : smWf (fun _ => ({} : Ctr)) s.ctr = true → smWf (fun _ => ({} : Ctr)) x = true) :
    Within [.ctr] s { s with ctr := x } := by
  intro f hf
  cases f
  case regForm =>
    intro hs
    simp only [State.regsOk, Bool.and_eq_true] at hs ⊢
    exact by simp only [hs, h, and_self]
  all_goals first | exact absurd (by decide) hf | rfl | exact ⟨rfl, rfl⟩ | exact ⟨rfl, rfl, rfl⟩ | exact Part.sameChip.refl _ | exact id

theorem Within.set_cmd (s : State) (x : SMap Word) (h : smWf (fun _ => (0 : Word)) s.cmd = true → smWf (fun _ => (0 : Word)) x = true) :
    Within [.cmd] s { s with cmd := x } := by
  intro f hf
  cases f
  case regForm =>
    intro hs
    simp only [State.regsOk, Bool.and_eq_true] at hs ⊢
    exact by simp only [hs, h, and_self]
  all_goals first | exact absurd (by decide) hf | rfl | exact ⟨rfl, rfl⟩ | exact ⟨rfl, rfl, rfl⟩ | exact Part.sameChip.refl _ | exact id

theorem Within.set_more (s : State) (x : SMap Word) (h : smWf (fun _ => (0 : Word)) s.more = true → smWf (fun _ => (0 : Word)) x = true) :
    Within [.more] s { s with more := x } := by
  intro f hf
  cases f
  case regForm =>
    intro hs
    simp only [State.regsOk, Bool.and_eq_true] at hs ⊢
    exact by simp only [hs, h, and_self]
  all_goals first | exact absurd (by decide) hf | rfl | exact ⟨rfl, rfl⟩ | exact ⟨rfl, rfl, rfl⟩ | exact Part.sameChip.refl _ | exact id

/-- Two stores change together. -/
theorem Within.set_cmd_more (s : State) (x y : SMap Word)
    (h : smWf (fun _ => (0 : Word)) s.cmd = true → smWf (fun _ => (0 : Word)) x = true)
    (k : smWf (fun _ => (0 : Word)) s.more = true → smWf (fun _ => (0 : Word)) y = true) :
    Within [.cmd, .more] s { s with cmd := x, more := y } :=
  ((Within.set_cmd s x h).mono rfl).step (Within.set_more { s with cmd := x } y k) rfl

theorem Within.set_cfg_eff (s : State) (x y : SMap Word) (h : smWf resetWord s.cfg = true → smWf resetWord x = true)
    (k : smWf resetWord s.eff = true → smWf resetWord y = true) : Within [.cfg, .eff] s { s with cfg := x, eff := y } :=
  ((Within.set_cfg s x h).mono rfl).step (Within.set_eff { s with cfg := x } y k) rfl

/-- DRAM's registers change and its bytes stay. -/
theorem Within.set_dram (s : State) (x : Dram) (h : x.cells = s.dram.cells) (k : x.gen = s.dram.gen) :
    Within [.dram] s { s with dram := x } := by
  intro f hf
  cases f
  case memForm => intro hs; simp only [State.memOk] at hs ⊢; rw [h, k]; exact hs
  case bytes => exact ⟨h, k⟩
  all_goals first | exact absurd (by decide) hf | rfl | exact ⟨rfl, rfl⟩ | exact ⟨rfl, rfl, rfl⟩ | exact Part.sameChip.refl _ | exact id

/-- The bytes of object space change and keep their form. -/
theorem Within.set_bytes (s : State) (c : List Host.Cell) (g : Nat)
    (h : Memory.wf (Config.dramByte s.dram.gen) s.dram.cells = true → Memory.wf (Config.dramByte g) c = true) :
    Within [.bytes] s { s with dram := { s.dram with cells := c, gen := g } } := by
  intro f hf
  cases f
  case memForm =>
    intro hs
    simp only [State.memOk, Bool.and_eq_true] at hs ⊢
    exact ⟨h hs.1, hs.2⟩
  all_goals first | exact absurd (by decide) hf | rfl | exact ⟨rfl, rfl⟩ | exact ⟨rfl, rfl, rfl⟩ | exact Part.sameChip.refl _ | exact id

/-- The on-chip memory's registers change and the exchange RAM stays. -/
theorem Within.set_mem (s : State) (x : Mem) (h : x.xram = s.mem.xram) : Within [.mem] s { s with mem := x } := by
  intro f hf
  cases f
  case memForm => intro hs; simp only [State.memOk] at hs ⊢; rw [h]; exact hs
  case xram => exact h
  all_goals first | exact absurd (by decide) hf | rfl | exact ⟨rfl, rfl⟩ | exact ⟨rfl, rfl, rfl⟩ | exact Part.sameChip.refl _ | exact id

/-- The exchange RAM may change and keeps its form. -/
theorem Within.set_xram (s : State) (x : Mem)
    (h : Memory.wf (fun _ => 0) s.mem.xram = true → Memory.wf (fun _ => 0) x.xram = true) :
    Within [.mem, .xram] s { s with mem := x } := by
  intro f hf
  cases f
  case memForm =>
    intro hs
    simp only [State.memOk, Bool.and_eq_true] at hs ⊢
    exact ⟨hs.1, h hs.2⟩
  all_goals first | exact absurd (by decide) hf | rfl | exact ⟨rfl, rfl⟩ | exact ⟨rfl, rfl, rfl⟩ | exact Part.sameChip.refl _ | exact id

/-- The host interface changes and its messages stay. -/
theorem Within.set_host (s : State) (x : HostIf) (h : x.msixPending = s.host.msixPending) (k : x.msixSent = s.host.msixSent)
    (j : x.msixLast = s.host.msixLast) : Within [.host] s { s with host := x } := by
  intro f hf
  cases f
  case msix => exact ⟨h, k, j⟩
  all_goals first | exact absurd (by decide) hf | rfl | exact ⟨rfl, rfl⟩ | exact Part.sameChip.refl _ | exact id

/-- Messages change and the rest of the host interface stays. -/
theorem Within.set_msix (s : State) (p : BitVec 64) (n : Nat) (v : Option (Fin 64)) :
    Within [.msix] s { s with host := { s.host with msixPending := p, msixSent := n, msixLast := v } } := by
  intro f hf
  cases f <;> first | exact absurd (by decide) hf | rfl | exact ⟨rfl, rfl⟩ | exact Part.sameChip.refl _ | exact id

/-- What a guarded command leaves alone. -/
theorem Within.guarded {l : List Field} {s t : State} {f : State → State} (h : Within l s (f s))
    (ht : s.guarded f = .next t) : Within l s t := by
  unfold State.guarded at ht
  split at ht
  · cases ht
  · cases ht; exact h

end Sys2Proof.Machine
end

