-- ==== Sys2Proof/Laws/FrameBase.lean ====
section
/-! SUPPORT. Frames of the operations and commands of the shared operations: registers, flags, the link, the Bridge, DRAM and the streams: the parts of the state that each may change. -/
namespace Sys2Proof.Machine

/-- What RESET_N and PERST_N may change. -/
def coldParts : List Field :=
  Field.clk :: Field.pwr :: Field.img :: Field.ovl :: Field.trg :: Field.cfg :: Field.eff :: Field.flg :: Field.ctr :: Field.cmd :: Field.more :: Field.err :: Field.tabs :: Field.was :: Field.clu :: Field.wl :: Field.gov :: Field.pg :: Field.pin :: Field.lvl :: Field.lg :: Field.mon :: Field.brg :: Field.link :: Field.dram :: Field.bytes :: Field.mem :: Field.xram :: Field.host :: Field.msix :: Field.flt :: Field.plc :: Field.undef :: []

/-- What a power-on may change. -/
def powerOnParts : List Field :=
  Field.part :: Field.clk :: Field.pwr :: Field.img :: Field.ovl :: Field.trg :: Field.cfg :: Field.eff :: Field.flg :: Field.ctr :: Field.cmd :: Field.more :: Field.err :: Field.tabs :: Field.was :: Field.clu :: Field.wl :: Field.gov :: Field.pg :: Field.pin :: Field.lvl :: Field.lg :: Field.mon :: Field.brg :: Field.link :: Field.dram :: Field.bytes :: Field.mem :: Field.xram :: Field.host :: Field.msix :: Field.flt :: Field.plc :: Field.jtag :: Field.smb :: Field.undef :: Field.freeN :: []

/-- What the held commands may change as they run again. -/
def heldParts : List Field :=
  Field.clk :: Field.pwr :: Field.img :: Field.ovl :: Field.trg :: Field.cfg :: Field.eff :: Field.flg :: Field.ctr :: Field.cmd :: Field.more :: Field.tabs :: Field.was :: Field.clu :: Field.wl :: Field.gov :: Field.pg :: Field.pin :: Field.lvl :: Field.lg :: Field.mon :: Field.brg :: Field.link :: Field.dram :: Field.mem :: Field.xram :: Field.host :: Field.msix :: Field.flt :: Field.plc :: []

/-- What a JTAG test may change. -/
def testParts : List Field :=
  Field.clk :: Field.pwr :: Field.img :: Field.ovl :: Field.trg :: Field.cfg :: Field.eff :: Field.flg :: Field.ctr :: Field.cmd :: Field.more :: Field.err :: Field.tabs :: Field.was :: Field.clu :: Field.wl :: Field.gov :: Field.pg :: Field.pin :: Field.lvl :: Field.lg :: Field.mon :: Field.brg :: Field.link :: Field.dram :: Field.bytes :: Field.mem :: Field.xram :: Field.host :: Field.msix :: Field.flt :: Field.plc :: Field.jtag :: Field.undef :: Field.freeN :: []

/-- What the phases of a thaw may change. -/
def thawParts : List Field :=
  Field.clk :: Field.pwr :: Field.img :: Field.ovl :: Field.trg :: Field.cfg :: Field.eff :: Field.flg :: Field.ctr :: Field.cmd :: Field.more :: Field.err :: Field.tabs :: Field.was :: Field.clu :: Field.wl :: Field.gov :: Field.pg :: Field.pin :: Field.lvl :: Field.lg :: Field.mon :: Field.brg :: Field.link :: Field.dram :: Field.bytes :: Field.mem :: Field.xram :: Field.host :: Field.msix :: Field.flt :: Field.plc :: Field.undef :: Field.freeN :: []

theorem State.upto_within (s : State) (a1 : Nat) : Within [.clk] s (State.upto s a1) := by
  unfold State.upto
  refine Within.step ?_ (Within.set_clk _ _) rfl
  exact Within.refl _ _

theorem State.inTick_within (s : State) (t : Nat) (f : State → State) {l : List Field} (hf : ∀ u, Within l u (f u))
    (hl : l.contains .clk = true) : Within l s (State.inTick s t f) := by
  have hc : [Field.clk].all (fun f => l.contains f) = true := by rw [List.all_cons, hl]; rfl
  unfold State.inTick
  exact ((((Within.set_clk s _).mono hc).step (hf _) (List.all_eq_true.mpr fun x hx => by simpa using hx)).step
    (State.upto_within _ _) hc)

theorem State.free_within (s : State) : Within [.freeN] s (State.free s).2 := by
  unfold State.free
  refine Within.step ?_ (Within.set_freeN _ _) rfl
  exact Within.refl _ _

theorem State.clearFlag_within (s : State) (a1 : Nat) (a2 : Sys2Proof.Word) : Within [.flg] s (State.clearFlag s a1 a2) := by
  unfold State.clearFlag
  refine Within.step ?_ (Within.set_flg _ _ (smWf_mod _ _ _ _)) rfl
  exact Within.refl _ _

theorem State.count_within (s : State) (a1 : Nat) (a2 : Nat) : Within [.ctr] s (State.count s a1 a2) := by
  unfold State.count
  refine Within.ite ?_ ?_
  · exact Within.refl _ _
  · refine Within.step ?_ (Within.set_ctr _ _ (smWf_mod _ _ _ _)) rfl
    exact Within.refl _ _

theorem State.clearCtr_within (s : State) (a1 : Nat) : Within [.ctr] s (State.clearCtr s a1) := by
  unfold State.clearCtr
  refine Within.step ?_ (Within.set_ctr _ _ (smWf_mod _ _ _ _)) rfl
  exact Within.refl _ _

theorem State.clearCtrs_within (s : State) (a1 : List Nat) : Within [.ctr] s (State.clearCtrs s a1) := by
  unfold State.clearCtrs
  refine Within.fold ?_ (fun u x hu => ?_)
  · exact Within.refl _ _
  · refine Within.step ?_ (State.clearCtr_within _ _) rfl
    exact hu

theorem State.cmdHold_within (s : State) (a1 : Nat) (a2 : Sys2Proof.Word) : Within [.cmd, .more] s (State.cmdHold s a1 a2) := by
  unfold State.cmdHold
  refine Within.step ?_ (Within.set_cmd_more _ _ _ (smWf_mod _ _ _ _) (smWf_mod _ _ _ _)) rfl
  exact Within.refl _ _

theorem State.cmdShow_within (s : State) (a1 : Nat) (a2 : Sys2Proof.Word) : Within [.cmd] s (State.cmdShow s a1 a2) := by
  unfold State.cmdShow
  refine Within.step ?_ (Within.set_cmd _ _ (smWf_mod _ _ _ _)) rfl
  exact Within.refl _ _

theorem State.cmdTake_within (s : State) (a1 : Nat) (a2 : Sys2Proof.Word) : Within [.cmd, .more] s (State.cmdTake s a1 a2) := by
  unfold State.cmdTake
  extract_lets -merge -useContext -underBinder +onlyGivenNames x1
  try clear_value x1
  refine Within.step ?_ (Within.set_cmd_more _ _ _ (smWf_mod _ _ _ _) (smWf_mod _ _ _ _)) rfl
  exact Within.refl _ _

theorem State.cmdDrop_within (s : State) (a1 : Nat) (a2 : Sys2Proof.Word) : Within [.cmd, .more] s (State.cmdDrop s a1 a2) := by
  unfold State.cmdDrop
  refine Within.step ?_ (Within.set_cmd_more _ _ _ (smWf_mod _ _ _ _) (smWf_mod _ _ _ _)) rfl
  exact Within.refl _ _

theorem State.modClu_within (s : State) (a1 : Sys2Proof.Clu) (a2 : Cluster → Cluster) : Within [.clu] s (State.modClu s a1 a2) := by
  unfold State.modClu
  refine Within.step ?_ (Within.set_clu _ _) rfl
  exact Within.refl _ _

theorem State.modWl_within (s : State) (a1 : Sys2Proof.Lane) (a2 : WLane → WLane) : Within [.wl] s (State.modWl s a1 a2) := by
  unfold State.modWl
  refine Within.step ?_ (Within.set_wl _ _) rfl
  exact Within.refl _ _

theorem State.modPg_within (s : State) (a1 : Sys2Proof.Pg) (a2 : PinGroup → PinGroup) : Within [.pg] s (State.modPg s a1 a2) := by
  unfold State.modPg
  refine Within.step ?_ (Within.set_pg _ _) rfl
  exact Within.refl _ _

theorem State.modPin_within (s : State) (a1 : Sys2Proof.PinIdx) (a2 : Pin → Pin) : Within [.pin] s (State.modPin s a1 a2) := by
  unfold State.modPin
  refine Within.step ?_ (Within.set_pin _ _) rfl
  exact Within.refl _ _

theorem State.modLvl_within (s : State) (a1 : Sys2Proof.Lvl) (a2 : Level → Level) : Within [.lvl] s (State.modLvl s a1 a2) := by
  unfold State.modLvl
  refine Within.step ?_ (Within.set_lvl _ _) rfl
  exact Within.refl _ _

theorem State.modLg_within (s : State) (a1 : Sys2Proof.Lg) (a2 : LoadGroup → LoadGroup) : Within [.lg] s (State.modLg s a1 a2) := by
  unfold State.modLg
  refine Within.step ?_ (Within.set_lg _ _) rfl
  exact Within.refl _ _

theorem State.modTmr_within (s : State) (a1 : Fin 8) (a2 : Timer → Timer) : Within [.brg] s (State.modTmr s a1 a2) := by
  unfold State.modTmr
  refine Within.step ?_ (Within.set_brg _ _) rfl
  exact Within.refl _ _

theorem State.modPort_within (s : State) (a1 : Fin 4) (a2 : Port → Port) : Within [.link] s (State.modPort s a1 a2) := by
  unfold State.modPort
  refine Within.step ?_ (Within.set_link _ _) rfl
  exact Within.refl _ _

theorem State.modChan_within (s : State) (a1 : Sys2Proof.Chan) (a2 : DramChan → DramChan) : Within [.dram] s (State.modChan s a1 a2) := by
  unfold State.modChan
  refine Within.step ?_ (Within.set_dram _ _ rfl rfl) rfl
  exact Within.refl _ _

theorem State.modCtx_within (s : State) (a1 : Sys2Proof.Ctx) (a2 : Stream → Stream) : Within [.host] s (State.modCtx s a1 a2) := by
  unfold State.modCtx
  refine Within.step ?_ (Within.set_host _ _ rfl rfl rfl) rfl
  exact Within.refl _ _

theorem State.modSlot_within (s : State) (a1 : Fin 16) (a2 : OvlSlot → OvlSlot) : Within [.ovl] s (State.modSlot s a1 a2) := by
  unfold State.modSlot
  refine Within.step ?_ (Within.set_ovl _ _) rfl
  exact Within.refl _ _

theorem State.modOvl_within (s : State) (a1 : Overlay → Overlay) : Within [.ovl] s (State.modOvl s a1) := by
  unfold State.modOvl
  refine Within.step ?_ (Within.set_ovl _ _) rfl
  exact Within.refl _ _

theorem State.dropPending_within (s : State) : Within [.ovl] s (State.dropPending s) := by
  unfold State.dropPending
  extract_lets -merge -useContext -underBinder +onlyGivenNames x1
  try clear_value x1
  extract_lets -merge -useContext -underBinder +onlyGivenNames x2
  try clear_value x2
  extract_lets -merge -useContext -underBinder +onlyGivenNames x3
  have hx3 : Within [.ovl] s x3 := by
    unfold x3
    refine Within.fold ?_ (fun u x hu => ?_)
    · exact Within.refl _ _
    · refine Within.step ?_ (State.modSlot_within _ _ _) rfl
      assumption
  try clear_value x3
  refine Within.step ?_ (State.modOvl_within _ _) rfl
  assumption

theorem State.keepWord_within (s : State) (a1 : Nat) (a2 : Sys2Proof.Word) : Within [.was] s (State.keepWord s a1 a2) := by
  unfold State.keepWord
  extract_lets -merge -useContext -underBinder +onlyGivenNames x1
  try clear_value x1
  refine Within.step ?_ (Within.set_was _ _) rfl
  exact Within.refl _ _

theorem State.applyDue_within (s : State) (a1 : Nat) (a2 : Sys2Proof.Word) : Within [.eff] s (State.applyDue s a1 a2) := by
  unfold State.applyDue
  refine Within.step ?_ (Within.set_eff _ _ (smWf_put _ _ _ _)) rfl
  exact Within.refl _ _

theorem State.applyMask_within (s : State) (a1 : Nat) (a2 : Sys2Proof.Word) : Within [.eff] s (State.applyMask s a1 a2) := by
  unfold State.applyMask
  refine Within.step ?_ (Within.set_eff _ _ (smWf_put _ _ _ _)) rfl
  exact Within.refl _ _

theorem State.storeCfg_within (s : State) (a1 : Nat) (a2 : Sys2Proof.Word) (a3 : Sys2Proof.Word) : Within [.cfg] s (State.storeCfg s a1 a2 a3) := by
  unfold State.storeCfg
  refine Within.step ?_ (Within.set_cfg _ _ (smWf_put _ _ _ _)) rfl
  exact Within.refl _ _

theorem State.loadWord_within (s : State) (a1 : Nat) (a2 : Sys2Proof.Word) (a3 : Sys2Proof.Word) : Within [.cfg, .eff, .was] s (State.loadWord s a1 a2 a3) := by
  unfold State.loadWord
  extract_lets -merge -useContext -underBinder +onlyGivenNames x1
  have hx1 : Within [.cfg, .eff, .was] s x1 := by
    unfold x1
    refine Within.step ?_ (State.applyMask_within _ _ _) rfl
    refine Within.step ?_ (State.storeCfg_within _ _ _ _) rfl
    exact Within.refl _ _
  try clear_value x1
  refine Within.step ?_ (Within.set_was _ _) rfl
  assumption

theorem State.applyWhere_within (s : State) (a1 : Nat → Bnd → Bool) : Within [.eff] s (State.applyWhere s a1) := by
  unfold State.applyWhere
  refine Within.fold ?_ (fun u x hu => ?_)
  · exact Within.refl _ _
  · split
    · refine Within.step ?_ (State.applyDue_within _ _ _) rfl
      assumption
    · assumption

theorem State.applyIdle_within (s : State) (a1 : Sys2Proof.Clu) : Within [.eff] s (State.applyIdle s a1) := by
  unfold State.applyIdle
  refine Within.fold ?_ (fun u x hu => ?_)
  · exact Within.refl _ _
  · split
    · refine Within.ite ?_ ?_
      · refine Within.step ?_ (State.applyMask_within _ _ _) rfl
        assumption
      · assumption
    · assumption

theorem State.rwWrite_within (s : State) (a1 : Nat) (a2 : Sys2Proof.Word) (a3 : Sys2Proof.Word) : Within [.cfg, .eff, .was] s (State.rwWrite s a1 a2 a3) := by
  unfold State.rwWrite
  split
  · exact Within.refl _ _
  · extract_lets -merge -useContext -underBinder +onlyGivenNames x1
    have hx1 : Within [.cfg, .eff, .was] s x1 := by
      unfold x1
      refine Within.step ?_ (State.storeCfg_within _ _ _ _) rfl
      refine Within.step ?_ (State.keepWord_within _ _ _) rfl
      exact Within.refl _ _
    try clear_value x1
    refine Within.step ?_ (State.applyMask_within _ _ _) rfl
    assumption

theorem State.sendVector_within (s : State) (a1 : Fin 64) : Within [.msix] s (State.sendVector s a1) := by
  unfold State.sendVector
  refine Within.ite ?_ ?_
  · refine Within.step ?_ (Within.set_msix _ _ _ _) rfl
    exact Within.refl _ _
  · exact Within.refl _ _

theorem State.sendVectors_within (s : State) : Within [.msix] s (State.sendVectors s) := by
  unfold State.sendVectors
  refine Within.fold ?_ (fun u x hu => ?_)
  · exact Within.refl _ _
  · refine Within.step ?_ (State.sendVector_within _ _) rfl
    exact hu

theorem State.postCause_within (s : State) (a1 : Nat) : Within [.msix] s (State.postCause s a1) := by
  unfold State.postCause
  refine Within.ite ?_ ?_
  · extract_lets -merge -useContext -underBinder +onlyGivenNames x1
    try clear_value x1
    refine Within.step ?_ (State.sendVector_within _ _) rfl
    refine Within.step ?_ (Within.set_msix _ _ _ _) rfl
    exact Within.refl _ _
  · exact Within.refl _ _

theorem State.raiseCause_within (s : State) (a1 : Nat) : Within [.flg, .msix] s (State.raiseCause s a1) := by
  unfold State.raiseCause
  extract_lets -merge -useContext -underBinder +onlyGivenNames x1
  try clear_value x1
  refine Within.step ?_ (State.postCause_within _ _) rfl
  refine Within.step ?_ (Within.set_flg _ _ (smWf_mod _ _ _ _)) rfl
  exact Within.refl _ _

theorem State.setFlag_within (s : State) (a1 : Nat) (a2 : Sys2Proof.Word) : Within [.flg, .msix] s (State.setFlag s a1 a2) := by
  unfold State.setFlag
  extract_lets -merge -useContext -underBinder +onlyGivenNames x1
  try clear_value x1
  extract_lets -merge -useContext -underBinder +onlyGivenNames x2
  have hx2 : Within [.flg, .msix] s x2 := by
    unfold x2
    refine Within.step ?_ (Within.set_flg _ _ (smWf_mod _ _ _ _)) rfl
    exact Within.refl _ _
  try clear_value x2
  split
  · refine Within.ite ?_ ?_
    · assumption
    · refine Within.step ?_ (State.raiseCause_within _ _) rfl
      assumption
  · assumption

theorem State.setBit_within (s : State) (a1 : Nat) (a2 : Nat) : Within [.flg, .msix] s (State.setBit s a1 a2) := by
  unfold State.setBit
  refine Within.step ?_ (State.setFlag_within _ _ _) rfl
  exact Within.refl _ _

theorem State.setBitIf_within (s : State) (a1 : Bool) (a2 : Nat) (a3 : Nat) : Within [.flg, .msix] s (State.setBitIf s a1 a2 a3) := by
  unfold State.setBitIf
  refine Within.ite ?_ ?_
  · refine Within.step ?_ (State.setBit_within _ _ _) rfl
    exact Within.refl _ _
  · exact Within.refl _ _

theorem State.loseRec_within (s : State) (a1 : FaultRec) : Within [.flg, .ctr, .msix] s (State.loseRec s a1) := by
  unfold State.loseRec
  refine Within.step ?_ (State.setBit_within _ _ _) rfl
  refine Within.step ?_ (State.count_within _ _ _) rfl
  refine Within.step ?_ (State.count_within _ _ _) rfl
  exact Within.refl _ _

theorem State.report_within (s : State) (a1 : FaultRec) : Within [.flg, .ctr, .msix, .flt] s (State.report s a1) := by
  unfold State.report
  extract_lets -merge -useContext -underBinder +onlyGivenNames x1
  try clear_value x1
  extract_lets -merge -useContext -underBinder +onlyGivenNames x2
  try clear_value x2
  extract_lets -merge -useContext -underBinder +onlyGivenNames x3
  try clear_value x3
  extract_lets -merge -useContext -underBinder +onlyGivenNames x4
  try clear_value x4
  extract_lets -merge -useContext -underBinder +onlyGivenNames x5
  try clear_value x5
  extract_lets -merge -useContext -underBinder +onlyGivenNames x6
  extract_lets -merge -useContext -underBinder +onlyGivenNames x7
  have hx7 : Within [.flg, .ctr, .msix, .flt] s x7 := by
    unfold x7
    refine Within.step ?_ (Within.set_flt _ _) rfl
    exact Within.refl _ _
  try clear_value x7
  refine Within.fold ?_ (fun u x hu => ?_)
  · assumption
  · refine Within.step ?_ (State.loseRec_within _ _) rfl
    assumption

theorem State.seeEvent_within (s : State) (a1 : BrgEvt) : Within [.flg, .brg] s (State.seeEvent s a1).1 := by
  unfold State.seeEvent
  extract_lets p stormed s1 s2
  have h1 : Within [.flg, .brg] s s1 := (Within.set_flg s _ (smWf_mod _ _ _ _)).mono rfl
  show Within [.flg, .brg] s s2
  exact Within.ite (h1.step (Within.set_brg _ _) rfl) h1

theorem State.seeDue_within (s : State) : Within [.flg, .brg] s (State.seeDue s) := by
  unfold State.seeDue
  suffices h : ∀ (l : List BrgEvt) (r : State × List BrgEvt), Within [.flg, .brg] s r.1 →
      Within [.flg, .brg] s
        (l.foldl (fun r e => let x := if r.1.isDue e then r.1.seeEvent e else (r.1, e); (x.1, r.2 ++ [x.2])) r).1 from
    (h _ (s, []) (Within.refl _ _)).step (Within.set_brg _ _) rfl
  intro l
  induction l with
  | nil => intro r h; exact h
  | cons e l ih =>
    intro r h
    refine ih _ ?_
    show Within [.flg, .brg] s (if r.1.isDue e then r.1.seeEvent e else (r.1, e)).1
    split
    · exact h.step (State.seeEvent_within _ _) rfl
    · exact h

theorem State.fireWith_within (s : State) (a1 : Fin 256) (a2 : Nat) (a3 : Nat) (a4 : BitVec 16) : Within [.flg, .brg] s (State.fireWith s a1 a2 a3 a4) := by
  unfold State.fireWith
  refine Within.ite (Within.refl _ _) ?_
  extract_lets e r
  refine Within.step ?_ (Within.set_brg _ _) rfl
  show Within [.flg, .brg] s (if a2 ≤ s.clk.now then s.seeEvent e else (s, e)).1
  split
  · exact State.seeEvent_within _ _
  · exact Within.refl _ _

theorem State.fire_within (s : State) (a1 : Nat) (a2 : Nat) : Within [.flg, .brg] s (State.fire s a1 a2) := by
  unfold State.fire
  refine Within.step ?_ (State.fireWith_within _ _ _ _ _) rfl
  exact Within.refl _ _

theorem State.modLink_within (s : State) (a1 : Link → Link) : Within [.link] s (State.modLink s a1) := by
  unfold State.modLink
  refine Within.step ?_ (Within.set_link _ _) rfl
  exact Within.refl _ _

theorem State.linkFault_within (s : State) (a1 : Nat) (a2 : Nat) (a3 : Nat) (a4 : Sys2Proof.Word) : Within [.flg, .ctr, .msix, .flt] s (State.linkFault s a1 a2 a3 a4) := by
  unfold State.linkFault
  refine Within.step ?_ (State.report_within _ _) rfl
  exact Within.refl _ _

theorem State.portTrain_within (s : State) (a1 : Fin 4) : Within [.ctr, .link] s (State.portTrain s a1) := by
  unfold State.portTrain
  refine Within.ite ?_ ?_
  · refine Within.step ?_ (State.count_within _ _ _) rfl
    refine Within.step ?_ (State.modPort_within _ _ _) rfl
    exact Within.refl _ _
  · exact Within.refl _ _

theorem State.portFall_within (s : State) (a1 : Fin 4) : Within [.flg, .link, .msix] s (State.portFall s a1) := by
  unfold State.portFall
  extract_lets -merge -useContext -underBinder +onlyGivenNames x1
  try clear_value x1
  refine Within.step ?_ (State.setBitIf_within _ _ _ _) rfl
  refine Within.step ?_ (State.modPort_within _ _ _) rfl
  exact Within.refl _ _

theorem State.portsFollow_within (s : State) : Within [.flg, .ctr, .link, .msix] s (State.portsFollow s) := by
  unfold State.portsFollow
  refine Within.fold ?_ (fun u x hu => ?_)
  · exact Within.refl _ _
  · refine Within.ite ?_ ?_
    · refine Within.step ?_ (State.portTrain_within _ _) rfl
      assumption
    · refine Within.ite ?_ ?_
      · assumption
      · refine Within.step ?_ (State.portFall_within _ _) rfl
        assumption

theorem execPortTrained_within (a0 : Fin 4) (a1 : Nat) (a2 : BitVec 64) (s : State) {t : State} (h : execPortTrained a0 a1 a2 s = .next t) : Within [.clk, .link] s t := by
  unfold execPortTrained at h
  refine Within.guarded ?_ h
  extract_lets -merge -useContext -underBinder +onlyGivenNames x1
  have hx1 : Within [.clk, .link] s x1 := by
    unfold x1
    refine Within.step ?_ (State.upto_within _ _) rfl
    exact Within.refl _ _
  try clear_value x1
  refine Within.ite ?_ ?_
  · refine Within.step ?_ (State.modPort_within _ _ _) rfl
    assumption
  · assumption

theorem execPortDown_within (a0 : Fin 4) (a1 : Nat) (a2 : Sys2Proof.PortCause) (s : State) {t : State} (h : execPortDown a0 a1 a2 s = .next t) : Within [.clk, .flg, .ctr, .link, .msix] s t := by
  unfold execPortDown at h
  refine Within.guarded ?_ h
  extract_lets -merge -useContext -underBinder +onlyGivenNames x1
  have hx1 : Within [.clk, .flg, .ctr, .link, .msix] s x1 := by
    unfold x1
    refine Within.step ?_ (State.upto_within _ _) rfl
    exact Within.refl _ _
  try clear_value x1
  refine Within.ite ?_ ?_
  · refine Within.step ?_ (State.portTrain_within _ _) rfl
    refine Within.step ?_ (State.portFall_within _ _) rfl
    assumption
  · assumption

theorem State.queueCell_within (s : State) (a1 : Fin 4) : Within [.ctr, .link] s (State.queueCell s a1) := by
  unfold State.queueCell
  extract_lets -merge -useContext -underBinder +onlyGivenNames x1
  try clear_value x1
  extract_lets -merge -useContext -underBinder +onlyGivenNames x2
  try clear_value x2
  extract_lets -merge -useContext -underBinder +onlyGivenNames x3
  try clear_value x3
  extract_lets -merge -useContext -underBinder +onlyGivenNames x4
  have hx4 : Within [.ctr, .link] s x4 := by
    unfold x4
    refine Within.step ?_ (State.modPort_within _ _ _) rfl
    exact Within.refl _ _
  try clear_value x4
  refine Within.ite ?_ ?_
  · refine Within.step ?_ (State.count_within _ _ _) rfl
    assumption
  · assumption

theorem State.sendCell_within (s : State) (a1 : EventCell) (a2 : List (Fin 4)) : Within [.ctr, .link] s (State.sendCell s a1 a2) := by
  unfold State.sendCell
  extract_lets -merge -useContext -underBinder +onlyGivenNames x1
  have hx1 : Within [.ctr, .link] s x1 := by
    unfold x1
    refine Within.fold ?_ (fun u x hu => ?_)
    · exact Within.refl _ _
    · refine Within.step ?_ (State.queueCell_within _ _) rfl
      exact hu
  try clear_value x1
  refine Within.step ?_ (State.modLink_within _ _) rfl
  assumption

theorem State.takeAuthority_within (s : State) (a1 : BitVec 64) (a2 : Bool) : Within [.flg, .link, .msix] s (State.takeAuthority s a1 a2) := by
  unfold State.takeAuthority
  extract_lets -merge -useContext -underBinder +onlyGivenNames x1
  try clear_value x1
  extract_lets -merge -useContext -underBinder +onlyGivenNames x2
  try clear_value x2
  refine Within.step ?_ (State.setBitIf_within _ _ _ _) rfl
  refine Within.step ?_ (State.modLink_within _ _) rfl
  exact Within.refl _ _

theorem State.markSent_within (s : State) : Within [.link] s (State.markSent s) := by
  unfold State.markSent
  refine Within.step ?_ (State.modLink_within _ _) rfl
  exact Within.refl _ _

theorem State.leaveView_within (s : State) : Within [.link] s (State.leaveView s) := by
  unfold State.leaveView
  extract_lets -merge -useContext -underBinder +onlyGivenNames x1
  try clear_value x1
  refine Within.step ?_ (State.modLink_within _ _) rfl
  exact Within.refl _ _

theorem State.linkReset_within (s : State) : Within [.flg, .ctr, .link, .msix] s (State.linkReset s) := by
  unfold State.linkReset
  extract_lets -merge -useContext -underBinder +onlyGivenNames x1
  try clear_value x1
  extract_lets -merge -useContext -underBinder +onlyGivenNames x2
  have hx2 : Within [.flg, .ctr, .link, .msix] s x2 := by
    unfold x2
    refine Within.step ?_ (State.leaveView_within _) rfl
    exact Within.refl _ _
  try clear_value x2
  extract_lets -merge -useContext -underBinder +onlyGivenNames x3
  have hx3 : Within [.flg, .ctr, .link, .msix] s x3 := by
    unfold x3
    refine Within.step ?_ (State.modLink_within _ _) rfl
    assumption
  try clear_value x3
  extract_lets -merge -useContext -underBinder +onlyGivenNames x4
  have hx4 : Within [.flg, .ctr, .link, .msix] s x4 := by
    unfold x4
    refine Within.fold ?_ (fun u x hu => ?_)
    · assumption
    · refine Within.step ?_ (State.portFall_within _ _) rfl
      exact hu
  try clear_value x4
  refine Within.step ?_ (State.setBitIf_within _ _ _ _) rfl
  refine Within.step ?_ (State.portsFollow_within _) rfl
  assumption

theorem execLinkReset_within (s : State) {t : State} (h : execLinkReset s = .next t) : Within [.ovl, .flg, .ctr, .cmd, .more, .link, .msix] s t := by
  unfold execLinkReset at h
  refine Within.guarded ?_ h
  refine Within.step ?_ (State.cmdTake_within _ _ _) rfl
  refine Within.step ?_ (State.dropPending_within _) rfl
  refine Within.step ?_ (State.linkReset_within _) rfl
  exact Within.refl _ _

theorem State.linkFollow_within (s : State) : Within [.flg, .ctr, .link, .msix] s (State.linkFollow s) := by
  unfold State.linkFollow
  extract_lets -merge -useContext -underBinder +onlyGivenNames x1
  have hx1 : Within [.flg, .ctr, .link, .msix] s x1 := by
    unfold x1
    refine Within.ite ?_ ?_
    · refine Within.ite ?_ ?_
      · exact Within.refl _ _
      · refine Within.step ?_ (State.modLink_within _ _) rfl
        refine Within.step ?_ (State.leaveView_within _) rfl
        exact Within.refl _ _
    · refine Within.ite ?_ ?_
      · exact Within.refl _ _
      · refine Within.ite ?_ ?_
        · refine Within.step ?_ (State.modLink_within _ _) rfl
          exact Within.refl _ _
        · refine Within.step ?_ (State.modLink_within _ _) rfl
          exact Within.refl _ _
  try clear_value x1
  refine Within.step ?_ (State.portsFollow_within _) rfl
  assumption

theorem execBeaconSend_within (s : State) {t : State} (h : execBeaconSend s = .next t) : Within [.clk, .link] s t := by
  unfold execBeaconSend at h
  refine Within.guarded ?_ h
  refine Within.ite ?_ ?_
  · exact Within.refl _ _
  · extract_lets -merge -useContext -underBinder +onlyGivenNames x1
    try clear_value x1
    extract_lets -merge -useContext -underBinder +onlyGivenNames x2
    have hx2 : Within [.clk, .link] s x2 := by
      unfold x2
      refine Within.step ?_ (State.upto_within _ _) rfl
      exact Within.refl _ _
    try clear_value x2
    extract_lets -merge -useContext -underBinder +onlyGivenNames x3
    have hx3 : Within [.clk, .link] s x3 := by
      unfold x3
      refine Within.ite ?_ ?_
      · refine Within.step ?_ (State.modLink_within _ _) rfl
        assumption
      · assumption
    try clear_value x3
    extract_lets -merge -useContext -underBinder +onlyGivenNames x4
    try clear_value x4
    extract_lets -merge -useContext -underBinder +onlyGivenNames x5
    try clear_value x5
    refine Within.step ?_ (State.modLink_within _ _) rfl
    assumption

theorem execEnsembleFound_within (s : State) {t : State} (h : execEnsembleFound s = .next t) : Within [.clk, .link] s t := by
  unfold execEnsembleFound at h
  refine Within.guarded ?_ h
  refine Within.ite ?_ ?_
  · refine Within.step ?_ (State.modLink_within _ _) rfl
    refine Within.step ?_ (State.upto_within _ _) rfl
    exact Within.refl _ _
  · exact Within.refl _ _

theorem State.beaconActs_within (s : State) (a1 : Beacon) : Within [.flg, .ctr, .link, .msix, .flt] s (State.beaconActs s a1) := by
  unfold State.beaconActs
  extract_lets -merge -useContext -underBinder +onlyGivenNames x1
  try clear_value x1
  extract_lets -merge -useContext -underBinder +onlyGivenNames x2
  try clear_value x2
  refine Within.ite ?_ ?_
  · extract_lets -merge -useContext -underBinder +onlyGivenNames x3
    have hx3 : Within [.flg, .ctr, .link, .msix, .flt] s x3 := by
      unfold x3
      refine Within.step ?_ (State.setBit_within _ _ _) rfl
      exact Within.refl _ _
    try clear_value x3
    refine Within.ite ?_ ?_
    · assumption
    · refine Within.step ?_ (State.linkFault_within _ _ _ _ _) rfl
      refine Within.step ?_ (State.modLink_within _ _) rfl
      assumption
  · extract_lets -merge -useContext -underBinder +onlyGivenNames x4
    try clear_value x4
    extract_lets -merge -useContext -underBinder +onlyGivenNames x5
    try clear_value x5
    extract_lets -merge -useContext -underBinder +onlyGivenNames x6
    try clear_value x6
    extract_lets -merge -useContext -underBinder +onlyGivenNames x7
    have hx7 : Within [.flg, .ctr, .link, .msix, .flt] s x7 := by
      unfold x7
      refine Within.step ?_ (State.modLink_within _ _) rfl
      exact Within.refl _ _
    try clear_value x7
    refine Within.ite ?_ ?_
    · refine Within.step ?_ (State.linkFault_within _ _ _ _ _) rfl
      refine Within.step ?_ (State.setBit_within _ _ _) rfl
      assumption
    · assumption

theorem State.hearBeacon_within (s : State) (a1 : Fin 4) (a2 : Beacon) : Within [.flg, .ctr, .link, .msix, .flt] s (State.hearBeacon s a1 a2) := by
  unfold State.hearBeacon
  extract_lets -merge -useContext -underBinder +onlyGivenNames x1
  have hx1 : Within [.flg, .ctr, .link, .msix, .flt] s x1 := by
    unfold x1
    refine Within.ite ?_ ?_
    · refine Within.step ?_ (State.modPort_within _ _ _) rfl
      exact Within.refl _ _
    · exact Within.refl _ _
  try clear_value x1
  refine Within.ite ?_ ?_
  · assumption
  · extract_lets -merge -useContext -underBinder +onlyGivenNames x2
    try clear_value x2
    extract_lets -merge -useContext -underBinder +onlyGivenNames x3
    have hx3 : Within [.flg, .ctr, .link, .msix, .flt] s x3 := by
      unfold x3
      refine Within.step ?_ (State.modLink_within _ _) rfl
      assumption
    try clear_value x3
    refine Within.ite ?_ ?_
    · refine Within.step ?_ (State.beaconActs_within _ _) rfl
      assumption
    · assumption

theorem execBeaconReceive_within (a0 : Fin 4) (a1 : Nat) (a2 : List Sys2Proof.Cell) (s : State) {t : State} (h : execBeaconReceive a0 a1 a2 s = .next t) : Within [.clk, .flg, .ctr, .link, .msix, .flt] s t := by
  unfold execBeaconReceive at h
  refine Within.guarded ?_ h
  extract_lets -merge -useContext -underBinder +onlyGivenNames x1
  have hx1 : Within [.clk, .flg, .ctr, .link, .msix, .flt] s x1 := by
    unfold x1
    refine Within.step ?_ (State.upto_within _ _) rfl
    exact Within.refl _ _
  try clear_value x1
  extract_lets -merge -useContext -underBinder +onlyGivenNames x2
  try clear_value x2
  refine Within.ite ?_ ?_
  · assumption
  · refine Within.ite ?_ ?_
    · refine Within.step ?_ (State.count_within _ _ _) rfl
      assumption
    · split
      · assumption
      · refine Within.step ?_ (State.hearBeacon_within _ _ _) rfl
        assumption

theorem execSlotCheck_within (a0 : Sys2Proof.OriginKey) (s : State) {t : State} (h : execSlotCheck a0 s = .next t) : Within [.clk, .flg, .ctr, .link, .msix, .flt] s t := by
  unfold execSlotCheck at h
  refine Within.guarded ?_ h
  split
  · exact Within.refl _ _
  · extract_lets -merge -useContext -underBinder +onlyGivenNames x1
    have hx1 : Within [.clk, .flg, .ctr, .link, .msix, .flt] s x1 := by
      unfold x1
      refine Within.step ?_ (State.upto_within _ _) rfl
      exact Within.refl _ _
    try clear_value x1
    extract_lets -merge -useContext -underBinder +onlyGivenNames x2
    try clear_value x2
    extract_lets -merge -useContext -underBinder +onlyGivenNames x3
    try clear_value x3
    extract_lets -merge -useContext -underBinder +onlyGivenNames x4
    try clear_value x4
    extract_lets -merge -useContext -underBinder +onlyGivenNames x5
    have hx5 : Within [.clk, .flg, .ctr, .link, .msix, .flt] s x5 := by
      unfold x5
      refine Within.step ?_ (State.modLink_within _ _) rfl
      assumption
    try clear_value x5
    refine Within.ite ?_ ?_
    · assumption
    · extract_lets -merge -useContext -underBinder +onlyGivenNames x6
      try clear_value x6
      extract_lets -merge -useContext -underBinder +onlyGivenNames x7
      have hx7 : Within [.clk, .flg, .ctr, .link, .msix, .flt] s x7 := by
        unfold x7
        refine Within.step ?_ (State.modLink_within _ _) rfl
        assumption
      try clear_value x7
      extract_lets -merge -useContext -underBinder +onlyGivenNames x8
      have hx8 : Within [.clk, .flg, .ctr, .link, .msix, .flt] s x8 := by
        unfold x8
        refine Within.step ?_ (State.markSent_within _) rfl
        refine Within.step ?_ (State.linkFault_within _ _ _ _ _) rfl
        refine Within.step ?_ (State.setBit_within _ _ _) rfl
        assumption
      try clear_value x8
      refine Within.ite ?_ ?_
      · refine Within.step ?_ (State.takeAuthority_within _ _ _) rfl
        assumption
      · assumption

theorem State.setView_within (s : State) (a1 : PendView) (a2 : BitVec 16) (a3 : Option (Fin 64)) : Within [.flg, .link, .msix] s (State.setView s a1 a2 a3) := by
  unfold State.setView
  extract_lets -merge -useContext -underBinder +onlyGivenNames x1
  try clear_value x1
  extract_lets -merge -useContext -underBinder +onlyGivenNames x2
  have hx2 : Within [.flg, .link, .msix] s x2 := by
    unfold x2
    refine Within.step ?_ (State.modLink_within _ _) rfl
    exact Within.refl _ _
  try clear_value x2
  refine Within.step ?_ (State.markSent_within _) rfl
  refine Within.step ?_ (State.setBit_within _ _ _) rfl
  refine Within.step ?_ (State.takeAuthority_within _ _ _) rfl
  assumption

theorem State.linkStep_within (s : State) (a1 : Int) : Within [.link] s (State.linkStep s a1) := by
  unfold State.linkStep
  extract_lets -merge -useContext -underBinder +onlyGivenNames x1
  try clear_value x1
  refine Within.step ?_ (State.modLink_within _ _) rfl
  exact Within.refl _ _

theorem State.viewEffect_within (s : State) : Within [.clk, .flg, .link, .msix] s (State.viewEffect s).1 := by
  unfold State.viewEffect
  split
  · exact Within.refl _ _
  · split
    · exact Within.refl _ _
    · split
      · extract_lets x1
        have h1 : Within [.clk, .flg, .link, .msix] s x1 := (State.setView_within _ _ _ _).mono rfl
        split
        · exact h1
        · exact (h1.step (State.leaveView_within _) rfl).step (State.setBit_within _ _ _) rfl
      · split
        · exact (State.modLink_within s _).mono rfl
        · split
          · exact ((State.setView_within s _ _ _).mono rfl).step (State.setBit_within _ _ _) rfl
          · split
            · exact (State.modLink_within s _).mono rfl
            · split
              · exact ((State.modLink_within s _).mono rfl).step (State.setBit_within _ _ _) rfl
              · extract_lets target step x0 x1 x2
                have h1 : Within [.clk, .flg, .link, .msix] s x1 := (Within.set_clk s _).mono rfl
                have h2 : Within [.clk, .flg, .link, .msix] s x2 := Within.ite h1 (h1.step (State.linkStep_within _ _) rfl)
                exact ((h2.step (State.setView_within _ _ _ _) rfl).step (State.setBit_within _ _ _) rfl).step
                  (State.setBitIf_within _ _ _ _) rfl

theorem State.linkSend_within (s : State) (a1 : Fin 32) (a2 : Nat) (a3 : BitVec 8) (a4 : BitVec 16) : Within [.ctr, .link] s (State.linkSend s a1 a2 a3 a4) := by
  unfold State.linkSend
  refine Within.ite ?_ ?_
  · exact Within.refl _ _
  · extract_lets -merge -useContext -underBinder +onlyGivenNames x1
    try clear_value x1
    extract_lets -merge -useContext -underBinder +onlyGivenNames x2
    have hx2 : Within [.ctr, .link] s x2 := by
      unfold x2
      refine Within.ite ?_ ?_
      · refine Within.step ?_ (State.modLink_within _ _) rfl
        exact Within.refl _ _
      · exact Within.refl _ _
    try clear_value x2
    refine Within.ite ?_ ?_
    · extract_lets -merge -useContext -underBinder +onlyGivenNames x3
      try clear_value x3
      extract_lets -merge -useContext -underBinder +onlyGivenNames x4
      have hx4 : Within [.ctr, .link] s x4 := by
        unfold x4
        refine Within.step ?_ (State.count_within _ _ _) rfl
        refine Within.step ?_ (State.sendCell_within _ _ _) rfl
        assumption
      try clear_value x4
      refine Within.step ?_ (State.modLink_within _ _) rfl
      assumption
    · refine Within.step ?_ (State.count_within _ _ _) rfl
      assumption

theorem State.hearCell_within (s : State) (a1 : Fin 4) (a2 : EventCell) : Within [.flg, .ctr, .link, .msix, .flt] s (State.hearCell s a1 a2) := by
  unfold State.hearCell
  extract_lets -merge -useContext -underBinder +onlyGivenNames x1
  try clear_value x1
  extract_lets -merge -useContext -underBinder +onlyGivenNames x2
  try clear_value x2
  refine Within.ite ?_ ?_
  · exact Within.refl _ _
  · extract_lets -merge -useContext -underBinder +onlyGivenNames x3
    have hx3 : Within [.flg, .ctr, .link, .msix, .flt] s x3 := by
      unfold x3
      refine Within.step ?_ (State.modLink_within _ _) rfl
      exact Within.refl _ _
    try clear_value x3
    extract_lets -merge -useContext -underBinder +onlyGivenNames x4
    have hx4 : Within [.flg, .ctr, .link, .msix, .flt] s x4 := by
      unfold x4
      refine Within.ite ?_ ?_
      · refine Within.step ?_ (State.sendCell_within _ _ _) rfl
        assumption
      · assumption
    try clear_value x4
    refine Within.ite ?_ ?_
    · refine Within.step ?_ (State.linkFault_within _ _ _ _ _) rfl
      refine Within.step ?_ (State.setBit_within _ _ _) rfl
      refine Within.step ?_ (State.count_within _ _ _) rfl
      assumption
    · refine Within.ite ?_ ?_
      · refine Within.step ?_ (State.count_within _ _ _) rfl
        assumption
      · refine Within.ite ?_ ?_
        · assumption
        · refine Within.ite ?_ ?_
          · refine Within.step ?_ (State.linkFault_within _ _ _ _ _) rfl
            refine Within.step ?_ (State.setBit_within _ _ _) rfl
            refine Within.step ?_ (State.count_within _ _ _) rfl
            assumption
          · refine Within.step ?_ (State.count_within _ _ _) rfl
            refine Within.step ?_ (State.modLink_within _ _) rfl
            assumption

theorem execEventCellReceive_within (a0 : Fin 4) (a1 : Nat) (a2 : Sys2Proof.Cell) (s : State) {t : State} (h : execEventCellReceive a0 a1 a2 s = .next t) : Within [.clk, .flg, .ctr, .link, .msix, .flt] s t := by
  unfold execEventCellReceive at h
  refine Within.guarded ?_ h
  extract_lets -merge -useContext -underBinder +onlyGivenNames x1
  have hx1 : Within [.clk, .flg, .ctr, .link, .msix, .flt] s x1 := by
    unfold x1
    refine Within.step ?_ (State.upto_within _ _) rfl
    exact Within.refl _ _
  try clear_value x1
  refine Within.ite ?_ ?_
  · assumption
  · refine Within.ite ?_ ?_
    · refine Within.step ?_ (State.count_within _ _ _) rfl
      assumption
    · refine Within.ite ?_ ?_
      · refine Within.step ?_ (State.hearCell_within _ _ _) rfl
        assumption
      · assumption

theorem State.releaseChan_within (s : State) (a1 : Nat) (a2 : List LinkMsg) (a3 : Fin 32) : Within [.flg, .ctr, .brg] s (State.releaseChan s a1 a2 a3) := by
  unfold State.releaseChan
  extract_lets -merge -useContext -underBinder +onlyGivenNames x1
  try clear_value x1
  split
  · exact Within.refl _ _
  · refine Within.step ?_ (State.fireWith_within _ _ _ _ _) rfl
    refine Within.step ?_ (State.count_within _ _ _) rfl
    exact Within.refl _ _

theorem execMessageRelease_within (s : State) {t : State} (h : execMessageRelease s = .next t) : Within [.clk, .flg, .ctr, .brg, .link] s t := by
  unfold execMessageRelease at h
  refine Within.guarded ?_ h
  split
  · exact Within.refl _ _
  · extract_lets -merge -useContext -underBinder +onlyGivenNames x1
    have hx1 : Within [.clk, .flg, .ctr, .brg, .link] s x1 := by
      unfold x1
      refine Within.step ?_ (State.upto_within _ _) rfl
      exact Within.refl _ _
    try clear_value x1
    extract_lets -merge -useContext -underBinder +onlyGivenNames x2
    try clear_value x2
    extract_lets -merge -useContext -underBinder +onlyGivenNames x3
    have hx3 : Within [.clk, .flg, .ctr, .brg, .link] s x3 := by
      unfold x3
      refine Within.step ?_ (State.modLink_within _ _) rfl
      assumption
    try clear_value x3
    refine Within.fold ?_ (fun u x hu => ?_)
    · assumption
    · refine Within.step ?_ (State.releaseChan_within _ _ _ _) rfl
      assumption

theorem execMembChangedCheck_within (s : State) {t : State} (h : execMembChangedCheck s = .next t) : Within [.clk, .flg, .link, .msix] s t := by
  unfold execMembChangedCheck at h
  refine Within.guarded ?_ h
  split
  · exact Within.refl _ _
  · extract_lets -merge -useContext -underBinder +onlyGivenNames x1
    have hx1 : Within [.clk, .flg, .link, .msix] s x1 := by
      unfold x1
      refine Within.step ?_ (State.modLink_within _ _) rfl
      refine Within.step ?_ (State.upto_within _ _) rfl
      exact Within.refl _ _
    try clear_value x1
    refine Within.ite ?_ ?_
    · refine Within.step ?_ (State.setBit_within _ _ _) rfl
      refine Within.step ?_ (State.modLink_within _ _) rfl
      assumption
    · assumption

theorem execLnkCntClr_within (s : State) {t : State} (h : execLnkCntClr s = .next t) : Within [.ctr] s t := by
  unfold execLnkCntClr at h
  refine Within.guarded ?_ h
  refine Within.step ?_ (State.clearCtrs_within _ _) rfl
  exact Within.refl _ _

theorem State.modBrg_within (s : State) (a1 : Bridge → Bridge) : Within [.brg] s (State.modBrg s a1) := by
  unfold State.modBrg
  refine Within.step ?_ (Within.set_brg _ _) rfl
  exact Within.refl _ _

theorem State.timerStart_within (s : State) (a1 : Fin 8) (a2 : Nat) : Within [.eff, .brg] s (State.timerStart s a1 a2) := by
  unfold State.timerStart
  extract_lets -merge -useContext -underBinder +onlyGivenNames x1
  try clear_value x1
  refine Within.ite ?_ ?_
  · exact Within.refl _ _
  · extract_lets -merge -useContext -underBinder +onlyGivenNames x2
    have hx2 : Within [.eff, .brg] s x2 := by
      unfold x2
      refine Within.step ?_ (State.applyDue_within _ _ _) rfl
      refine Within.step ?_ (State.applyDue_within _ _ _) rfl
      exact Within.refl _ _
    try clear_value x2
    extract_lets -merge -useContext -underBinder +onlyGivenNames x3
    try clear_value x3
    extract_lets -merge -useContext -underBinder +onlyGivenNames x4
    try clear_value x4
    refine Within.step ?_ (State.modTmr_within _ _ _) rfl
    assumption

theorem State.timerStop_within (s : State) (a1 : Fin 8) (a2 : Nat) : Within [.brg] s (State.timerStop s a1 a2) := by
  unfold State.timerStop
  refine Within.step ?_ (State.modTmr_within _ _ _) rfl
  exact Within.refl _ _

theorem execTimerStart_within (a0 : Fin 8) (s : State) {t : State} (h : execTimerStart a0 s = .next t) : Within [.eff, .cmd, .more, .brg] s t := by
  unfold execTimerStart at h
  refine Within.guarded ?_ h
  extract_lets -merge -useContext -underBinder +onlyGivenNames x1
  try clear_value x1
  extract_lets -merge -useContext -underBinder +onlyGivenNames x2
  have hx2 : Within [.eff, .cmd, .more, .brg] s x2 := by
    unfold x2
    refine Within.ite ?_ ?_
    · exact Within.refl _ _
    · refine Within.step ?_ (State.timerStart_within _ _ _) rfl
      exact Within.refl _ _
  try clear_value x2
  refine Within.step ?_ (State.cmdTake_within _ _ _) rfl
  assumption

theorem execTimerStop_within (a0 : Fin 8) (s : State) {t : State} (h : execTimerStop a0 s = .next t) : Within [.cmd, .more, .brg] s t := by
  unfold execTimerStop at h
  refine Within.guarded ?_ h
  refine Within.step ?_ (State.cmdTake_within _ _ _) rfl
  refine Within.step ?_ (State.timerStop_within _ _ _) rfl
  exact Within.refl _ _

theorem execTimerExpiry_within (a0 : Fin 8) (s : State) {t : State} (h : execTimerExpiry a0 s = .next t) : Within [.clk, .flg, .brg] s t := by
  unfold execTimerExpiry at h
  refine Within.guarded ?_ h
  extract_lets -merge -useContext -underBinder +onlyGivenNames x1
  try clear_value x1
  split
  · refine Within.step ?_ (State.modTmr_within _ _ _) rfl
    refine Within.step ?_ (State.fire_within _ _ _) rfl
    refine Within.step ?_ (State.upto_within _ _) rfl
    exact Within.refl _ _
  · refine Within.ite ?_ ?_
    · exact Within.refl _ _
    · refine Within.step ?_ (State.modTmr_within _ _ _) rfl
      refine Within.step ?_ (State.fire_within _ _ _) rfl
      refine Within.step ?_ (State.upto_within _ _) rfl
      exact Within.refl _ _

theorem State.evoFire_within (s : State) (a1 : Fin 16) (a2 : Nat) : Within [.brg] s (State.evoFire s a1 a2) := by
  unfold State.evoFire
  refine Within.ite ?_ ?_
  · refine Within.step ?_ (State.modBrg_within _ _) rfl
    exact Within.refl _ _
  · extract_lets -merge -useContext -underBinder +onlyGivenNames x1
    try clear_value x1
    refine Within.step ?_ (State.modBrg_within _ _) rfl
    exact Within.refl _ _

theorem execEvoPulseEnd_within (a0 : Fin 16) (s : State) {t : State} (h : execEvoPulseEnd a0 s = .next t) : Within [.clk, .brg] s t := by
  unfold execEvoPulseEnd at h
  refine Within.guarded ?_ h
  split
  · exact Within.refl _ _
  · refine Within.step ?_ (State.modBrg_within _ _) rfl
    refine Within.step ?_ (State.upto_within _ _) rfl
    exact Within.refl _ _

theorem State.condFire_within (s : State) (a1 : Sys2Proof.Clu) (a2 : Fin 16) (a3 : Nat) : Within [.clu] s (State.condFire s a1 a2 a3) := by
  unfold State.condFire
  refine Within.ite ?_ ?_
  · exact Within.refl _ _
  · refine Within.step ?_ (State.modClu_within _ _ _) rfl
    exact Within.refl _ _

theorem State.strobeFire_within (s : State) (a1 : Sys2Proof.Lg) (a2 : Nat) : Within [.flg, .lg, .msix] s (State.strobeFire s a1 a2) := by
  unfold State.strobeFire
  refine Within.ite ?_ ?_
  · exact Within.refl _ _
  · refine Within.ite ?_ ?_
    · refine Within.step ?_ (State.setBit_within _ _ _) rfl
      exact Within.refl _ _
    · refine Within.step ?_ (State.modLg_within _ _ _) rfl
      exact Within.refl _ _

theorem State.consume_within (s : State) (a1 : Nat) (a2 : BrgEvt) (a3 : List Nat) : Within [.eff, .flg, .ctr, .clu, .lg, .brg, .link, .msix] s (State.consume s a1 a2 a3) := by
  unfold State.consume
  refine Within.ite ?_ ?_
  · refine Within.step ?_ (State.condFire_within _ _ _ _) rfl
    exact Within.refl _ _
  · refine Within.ite ?_ ?_
    · refine Within.step ?_ (State.evoFire_within _ _ _) rfl
      exact Within.refl _ _
    · refine Within.ite ?_ ?_
      · refine Within.step ?_ (State.strobeFire_within _ _ _) rfl
        exact Within.refl _ _
      · refine Within.ite ?_ ?_
        · refine Within.step ?_ (State.linkSend_within _ _ _ _ _) rfl
          exact Within.refl _ _
        · refine Within.ite ?_ ?_
          · refine Within.ite ?_ ?_
            · exact Within.refl _ _
            · refine Within.step ?_ (State.timerStart_within _ _ _) rfl
              exact Within.refl _ _
          · refine Within.ite ?_ ?_
            · refine Within.step ?_ (State.timerStop_within _ _ _) rfl
              exact Within.refl _ _
            · exact Within.refl _ _

theorem State.watch_within (s : State) (a1 : Nat) (a2 : BrgEvt) : Within [.brg] s (State.watch s a1 a2) := by
  unfold State.watch
  refine Within.ite ?_ ?_
  · refine Within.step ?_ (State.modBrg_within _ _) rfl
    exact Within.refl _ _
  · exact Within.refl _ _

theorem State.fireConsumer_within (s : State) (a1 : List (BrgEvt × List Nat)) (a2 : List Nat) (a3 : Nat) : Within [.eff, .flg, .ctr, .clu, .lg, .brg, .link, .msix] s (State.fireConsumer s a1 a2 a3) := by
  unfold State.fireConsumer
  extract_lets -merge -useContext -underBinder +onlyGivenNames x1
  try clear_value x1
  split
  · exact Within.refl _ _
  · extract_lets -merge -useContext -underBinder +onlyGivenNames x2
    have hx2 : Within [.eff, .flg, .ctr, .clu, .lg, .brg, .link, .msix] s x2 := by
      unfold x2
      refine Within.step ?_ (State.setBit_within _ _ _) rfl
      exact Within.refl _ _
    try clear_value x2
    extract_lets -merge -useContext -underBinder +onlyGivenNames x3
    have hx3 : Within [.eff, .flg, .ctr, .clu, .lg, .brg, .link, .msix] s x3 := by
      unfold x3
      refine Within.ite ?_ ?_
      · refine Within.step ?_ (State.count_within _ _ _) rfl
        refine Within.step ?_ (State.setBit_within _ _ _) rfl
        assumption
      · assumption
    try clear_value x3
    refine Within.step ?_ (State.consume_within _ _ _ _) rfl
    refine Within.step ?_ (State.watch_within _ _ _) rfl
    assumption

theorem State.hopEvents_within (s : State) (a1 : List BrgEvt) : Within [.flg, .brg] s (State.hopEvents s a1).1 := by
  unfold State.hopEvents
  suffices h : ∀ (l : List BrgEvt) (r : State × List (BrgEvt × List Nat)), Within [.flg, .brg] s r.1 →
      Within [.flg, .brg] s (l.foldl (fun r e =>
        let x := if e.seen then (r.1, e) else r.1.seeEvent e
        let cs := if x.2.muted then [] else (e.row.getD (x.1.consumersOf e.prod)).filter (fun c => x.1.enableOk c e.prod)
        (x.1, r.2 ++ [(x.2, cs)])) r).1 from h a1 (s, []) (Within.refl _ _)
  intro l
  induction l with
  | nil => intro r h; exact h
  | cons e l ih =>
    intro r h
    refine ih _ ?_
    show Within [.flg, .brg] s (if e.seen then (r.1, e) else r.1.seeEvent e).1
    split
    · exact h
    · exact h.step (State.seeEvent_within _ _) rfl

theorem execBridgeHop_within (s : State) {t : State} (h : execBridgeHop s = .next t) : Within [.clk, .eff, .flg, .ctr, .clu, .lg, .brg, .link, .msix] s t := by
  unfold execBridgeHop at h
  refine Within.guarded ?_ h
  split
  · exact Within.refl _ _
  · extract_lets -merge -useContext -underBinder +onlyGivenNames x1
    try clear_value x1
    extract_lets -merge -useContext -underBinder +onlyGivenNames x2
    have hx2 : Within [.clk, .eff, .flg, .ctr, .clu, .lg, .brg, .link, .msix] s x2 := by
      unfold x2
      refine Within.step ?_ (State.modBrg_within _ _) rfl
      refine Within.step ?_ (State.upto_within _ _) rfl
      exact Within.refl _ _
    try clear_value x2
    extract_lets -merge -useContext -underBinder +onlyGivenNames x3
    have hx3 : Within [.clk, .eff, .flg, .ctr, .clu, .lg, .brg, .link, .msix] s x3.1 := by
      unfold x3
      refine Within.step ?_ (State.hopEvents_within _ _) rfl
      assumption
    try clear_value x3
    extract_lets -merge -useContext -underBinder +onlyGivenNames x4
    try clear_value x4
    refine Within.fold ?_ (fun u x hu => ?_)
    · assumption
    · refine Within.step ?_ (State.fireConsumer_within _ _ _ _) rfl
      assumption

theorem State.freezeEvent_within (s : State) (a1 : BrgEvt) : Within [.flg, .brg] s (State.freezeEvent s a1).1 := by
  unfold State.freezeEvent
  split
  · exact Within.refl _ _
  · show Within [.flg, .brg] s (if a1.seen then (s, a1) else s.seeEvent a1).1
    split
    · exact Within.refl _ _
    · exact State.seeEvent_within _ _

theorem State.freezeRows_within (s : State) : Within [.flg, .brg] s (State.freezeRows s) := by
  unfold State.freezeRows
  suffices h : ∀ (l : List BrgEvt) (r : State × List BrgEvt), Within [.flg, .brg] s r.1 →
      Within [.flg, .brg] s
        (l.foldl (fun r e => let x := r.1.freezeEvent e; (x.1, r.2 ++ [x.2])) r).1 from
    (h _ (s, []) (Within.refl _ _)).step (State.modBrg_within _ _) rfl
  intro l
  induction l with
  | nil => intro r h; exact h
  | cons e l ih => exact fun r h => ih _ (h.step (State.freezeEvent_within _ _) rfl)

theorem execStormSuppress_within (a0 : Fin 256) (s : State) {t : State} (h : execStormSuppress a0 s = .next t) : Within [.flg, .ctr, .brg, .msix, .flt] s t := by
  unfold execStormSuppress at h
  refine Within.guarded ?_ h
  extract_lets -merge -useContext -underBinder +onlyGivenNames x1
  have hx1 : Within [.flg, .ctr, .brg, .msix, .flt] s x1 := by
    unfold x1
    refine Within.step ?_ (State.seeDue_within _) rfl
    exact Within.refl _ _
  try clear_value x1
  extract_lets -merge -useContext -underBinder +onlyGivenNames x2
  try clear_value x2
  refine Within.ite ?_ ?_
  · assumption
  · extract_lets -merge -useContext -underBinder +onlyGivenNames x3
    have hx3 : Within [.flg, .ctr, .brg, .msix, .flt] s x3 := by
      unfold x3
      refine Within.step ?_ (State.modBrg_within _ _) rfl
      assumption
    try clear_value x3
    extract_lets -merge -useContext -underBinder +onlyGivenNames x4
    have hx4 : Within [.flg, .ctr, .brg, .msix, .flt] s x4 := by
      unfold x4
      refine Within.step ?_ (State.count_within _ _ _) rfl
      refine Within.step ?_ (State.setBit_within _ _ _) rfl
      assumption
    try clear_value x4
    refine Within.step ?_ (State.report_within _ _) rfl
    assumption

theorem execStormSuppClear_within (a0 : Fin 8) (a1 : Sys2Proof.Word) (s : State) {t : State} (h : execStormSuppClear a0 a1 s = .next t) : Within [.flg, .brg] s t := by
  unfold execStormSuppClear at h
  refine Within.guarded ?_ h
  extract_lets -merge -useContext -underBinder +onlyGivenNames x1
  try clear_value x1
  extract_lets -merge -useContext -underBinder +onlyGivenNames x2
  have hx2 : Within [.flg, .brg] s x2 := by
    unfold x2
    refine Within.step ?_ (State.seeDue_within _) rfl
    exact Within.refl _ _
  try clear_value x2
  extract_lets -merge -useContext -underBinder +onlyGivenNames x3
  have hx3 : Within [.flg, .brg] s x3 := by
    unfold x3
    refine Within.step ?_ (State.clearFlag_within _ _ _) rfl
    assumption
  try clear_value x3
  extract_lets -merge -useContext -underBinder +onlyGivenNames x4
  try clear_value x4
  extract_lets -merge -useContext -underBinder +onlyGivenNames x5
  try clear_value x5
  refine Within.step ?_ (State.modBrg_within _ _) rfl
  assumption

theorem execBrgSwFire_within (a0 : BitVec 16) (s : State) {t : State} (h : execBrgSwFire a0 s = .next t) : Within [.flg, .cmd, .more, .brg] s t := by
  unfold execBrgSwFire at h
  refine Within.guarded ?_ h
  extract_lets -merge -useContext -underBinder +onlyGivenNames x1
  try clear_value x1
  extract_lets -merge -useContext -underBinder +onlyGivenNames x2
  have hx2 : Within [.flg, .cmd, .more, .brg] s x2 := by
    unfold x2
    refine Within.fold ?_ (fun u x hu => ?_)
    · exact Within.refl _ _
    · refine Within.step ?_ (State.fireWith_within _ _ _ _ _) rfl
      assumption
  try clear_value x2
  refine Within.step ?_ (State.cmdTake_within _ _ _) rfl
  assumption

theorem execBrgCntClr_within (s : State) {t : State} (h : execBrgCntClr s = .next t) : Within [.ctr] s t := by
  unfold execBrgCntClr at h
  refine Within.guarded ?_ h
  refine Within.step ?_ (State.clearCtrs_within _ _) rfl
  exact Within.refl _ _

theorem execEviEdge_within (a0 : Fin 16) (a1 : Bool) (a2 : Nat) (s : State) {t : State} (h : execEviEdge a0 a1 a2 s = .next t) : Within [.clk, .flg, .brg] s t := by
  unfold execEviEdge at h
  refine Within.guarded ?_ h
  extract_lets -merge -useContext -underBinder +onlyGivenNames x1
  have hx1 : Within [.clk, .flg, .brg] s x1 := by
    unfold x1
    refine Within.step ?_ (State.upto_within _ _) rfl
    exact Within.refl _ _
  try clear_value x1
  refine Within.ite ?_ ?_
  · assumption
  · extract_lets -merge -useContext -underBinder +onlyGivenNames x2
    have hx2 : Within [.clk, .flg, .brg] s x2 := by
      unfold x2
      refine Within.step ?_ (State.modBrg_within _ _) rfl
      assumption
    try clear_value x2
    extract_lets -merge -useContext -underBinder +onlyGivenNames x3
    try clear_value x3
    refine Within.ite ?_ ?_
    · refine Within.step ?_ (State.fire_within _ _ _) rfl
      assumption
    · assumption

theorem State.bridgeTick_within (s : State) : Within [.brg] s (State.bridgeTick s) := by
  unfold State.bridgeTick
  refine Within.step ?_ (State.modBrg_within _ _) rfl
  exact Within.refl _ _

theorem State.keepRec_within (s : State) (a1 : Nat) (a2 : EntryRec) : Within [.was] s (State.keepRec s a1 a2) := by
  unfold State.keepRec
  extract_lets -merge -useContext -underBinder +onlyGivenNames x1
  try clear_value x1
  refine Within.step ?_ (Within.set_was _ _) rfl
  exact Within.refl _ _

theorem State.dramWrite_within (s : State) (a1 : Nat) (a2 : List (Option Byte)) : Within [.bytes] s (State.dramWrite s a1 a2) :=
  Within.set_bytes s _ _ (fun h => memWf_putBytes _ _ _ _ h)

theorem State.dramLose_within (s : State) : Within [.bytes] s (State.dramLose s) :=
  Within.set_bytes s _ _ (fun _ => smWf_nil _)

theorem State.escape_within (s : State) (a1 : Nat) (a2 : Bool) (a3 : Nat) : Within [.flg, .ctr, .dram, .msix, .flt] s (State.escape s a1 a2 a3) := by
  unfold State.escape
  extract_lets -merge -useContext -underBinder +onlyGivenNames x1
  have hx1 : Within [.flg, .ctr, .dram, .msix, .flt] s x1 := by
    unfold x1
    refine Within.step ?_ (State.setBit_within _ _ _) rfl
    refine Within.step ?_ (State.count_within _ _ _) rfl
    exact Within.refl _ _
  try clear_value x1
  extract_lets -merge -useContext -underBinder +onlyGivenNames x2
  extract_lets -merge -useContext -underBinder +onlyGivenNames x3
  have hx3 : Within [.flg, .ctr, .dram, .msix, .flt] s x3 := by
    unfold x3
    refine Within.step ?_ (Within.set_dram _ _ rfl rfl) rfl
    assumption
  try clear_value x3
  refine Within.step ?_ (State.report_within _ _) rfl
  assumption

theorem State.activate_within (s : State) (a1 : Sys2Proof.Chan) (a2 : Fin 16) (a3 : Nat) : Within [.flg, .ctr, .dram, .msix] s (State.activate s a1 a2 a3) := by
  unfold State.activate
  refine Within.ite ?_ ?_
  · exact Within.refl _ _
  · extract_lets -merge -useContext -underBinder +onlyGivenNames x1
    try clear_value x1
    extract_lets -merge -useContext -underBinder +onlyGivenNames x2
    try clear_value x2
    extract_lets -merge -useContext -underBinder +onlyGivenNames x3
    have hx3 : Within [.flg, .ctr, .dram, .msix] s x3 := by
      unfold x3
      refine Within.step ?_ (State.modChan_within _ _ _) rfl
      exact Within.refl _ _
    try clear_value x3
    refine Within.ite ?_ ?_
    · assumption
    · refine Within.ite ?_ ?_
      · refine Within.step ?_ (State.setBit_within _ _ _) rfl
        refine Within.step ?_ (State.count_within _ _ _) rfl
        assumption
      · refine Within.step ?_ (State.modChan_within _ _ _) rfl
        assumption

theorem State.closeExpired_within (s : State) (a1 : Sys2Proof.Word) : Within [.dram] s (State.closeExpired s a1) := by
  unfold State.closeExpired
  refine Within.fold ?_ (fun u x hu => ?_)
  · exact Within.refl _ _
  · extract_lets -merge -useContext -underBinder +onlyGivenNames x1
    try clear_value x1
    refine Within.step ?_ (State.modChan_within _ _ _) rfl
    assumption

theorem State.bankAccess_within (s : State) (a1 : Nat) : Within [.flg, .ctr, .dram, .msix] s (State.bankAccess s a1) := by
  unfold State.bankAccess
  extract_lets -merge -useContext -underBinder +onlyGivenNames x1
  try clear_value x1
  extract_lets -merge -useContext -underBinder +onlyGivenNames x2
  try clear_value x2
  extract_lets -merge -useContext -underBinder +onlyGivenNames x3
  try clear_value x3
  extract_lets -merge -useContext -underBinder +onlyGivenNames x4
  try clear_value x4
  extract_lets -merge -useContext -underBinder +onlyGivenNames x5
  try clear_value x5
  extract_lets -merge -useContext -underBinder +onlyGivenNames x6
  try clear_value x6
  extract_lets -merge -useContext -underBinder +onlyGivenNames x7
  try clear_value x7
  extract_lets -merge -useContext -underBinder +onlyGivenNames x8
  try clear_value x8
  extract_lets -merge -useContext -underBinder +onlyGivenNames x9
  have hx9 : Within [.flg, .ctr, .dram, .msix] s x9 := by
    unfold x9
    refine Within.ite ?_ ?_
    · exact Within.refl _ _
    · refine Within.step ?_ (State.activate_within _ _ _ _) rfl
      exact Within.refl _ _
  try clear_value x9
  refine Within.step ?_ (State.modChan_within _ _ _) rfl
  assumption

theorem State.retries_within (s : State) (a1 : Nat) (a2 : Sys2Proof.EdcOutcome) : Within [.ctr] s (State.retries s a1 a2) := by
  unfold State.retries
  split
  · refine Within.step ?_ (State.count_within _ _ _) rfl
    exact Within.refl _ _
  · refine Within.step ?_ (State.count_within _ _ _) rfl
    exact Within.refl _ _

theorem State.smear_within (s : State) (a1 : Nat) : Within [.bytes, .freeN] s (State.smear s a1) := by
  unfold State.smear
  extract_lets -merge -useContext -underBinder +onlyGivenNames x1
  try clear_value x1
  extract_lets -merge -useContext -underBinder +onlyGivenNames x2
  have hx2 : Within [.bytes, .freeN] s x2 := by
    unfold x2
    refine Within.step ?_ (State.dramWrite_within _ _ _) rfl
    exact Within.refl _ _
  try clear_value x2
  refine Within.step ?_ (Within.set_freeN _ _) rfl
  assumption

theorem State.hold_within (s : State) (a1 : Sys2Proof.Instr) : Within [.pwr] s (State.hold s a1) := by
  unfold State.hold
  refine Within.step ?_ (Within.set_pwr _ _) rfl
  exact Within.refl _ _

theorem State.violate_within (s : State) (a1 : Nat) (a2 : Nat) (a3 : Bool) : Within [.flg, .ctr, .mem, .msix, .flt] s (State.violate s a1 a2 a3) := by
  unfold State.violate
  extract_lets -merge -useContext -underBinder +onlyGivenNames x1
  have hx1 : Within [.flg, .ctr, .mem, .msix, .flt] s x1 := by
    unfold x1
    refine Within.step ?_ (State.setBit_within _ _ _) rfl
    refine Within.step ?_ (State.count_within _ _ _) rfl
    exact Within.refl _ _
  try clear_value x1
  extract_lets -merge -useContext -underBinder +onlyGivenNames x2
  try clear_value x2
  extract_lets -merge -useContext -underBinder +onlyGivenNames x3
  extract_lets -merge -useContext -underBinder +onlyGivenNames x4
  have hx4 : Within [.flg, .ctr, .mem, .msix, .flt] s x4 := by
    unfold x4
    refine Within.step ?_ (Within.set_mem _ _ rfl) rfl
    assumption
  try clear_value x4
  refine Within.ite ?_ ?_
  · assumption
  · refine Within.step ?_ (State.report_within _ _) rfl
    assumption

/-- Within of a change of the on-chip memory that keeps the exchange RAM's form. -/
theorem State.modMem_within (s : State) (f : Mem → Mem)
    (h : Memory.wf (fun _ => 0) s.mem.xram = true → Memory.wf (fun _ => 0) (f s.mem).xram = true) :
    Within [.mem, .xram] s (s.modMem f) := Within.set_xram s _ h

theorem State.spareFollow_within (s : State) (a1 : Nat) : Within [.mem] s (State.spareFollow s a1) := by
  unfold State.spareFollow
  refine Within.ite ?_ ?_
  · refine Within.step ?_ (Within.set_mem _ _ rfl) rfl
    exact Within.refl _ _
  · exact Within.refl _ _

theorem State.tuneAsk_within (s : State) (a1 : Nat) : Within [.mem] s (State.tuneAsk s a1) := by
  unfold State.tuneAsk
  refine Within.ite ?_ ?_
  · exact Within.refl _ _
  · refine Within.step ?_ (Within.set_mem _ _ rfl) rfl
    exact Within.refl _ _

theorem State.tuneUnask_within (s : State) : Within [.mem] s (State.tuneUnask s) := by
  unfold State.tuneUnask
  refine Within.step ?_ (Within.set_mem _ _ rfl) rfl
  exact Within.refl _ _

theorem State.tuneGranted_within (s : State) (a1 : Nat) (a2 : Nat) : Within [.mem] s (State.tuneGranted s a1 a2) := by
  unfold State.tuneGranted
  refine Within.ite ?_ ?_
  · exact Within.refl _ _
  · extract_lets -merge -useContext -underBinder +onlyGivenNames x1
    try clear_value x1
    extract_lets -merge -useContext -underBinder +onlyGivenNames x2
    try clear_value x2
    extract_lets -merge -useContext -underBinder +onlyGivenNames x3
    have hx3 : Within [.mem] s x3 := by
      unfold x3
      refine Within.step ?_ (Within.set_mem _ _ rfl) rfl
      exact Within.refl _ _
    try clear_value x3
    refine Within.step ?_ (State.tuneAsk_within _ _) rfl
    assumption

theorem State.arbTick_within (s : State) (a1 : Nat) (a2 : Nat) : Within [.clk, .ctr, .mem] s (State.arbTick s a1 a2).1 := by
  unfold State.arbTick
  dsimp only
  split
  · exact Within.refl _ _
  · rename_i x c _
    have h1 : Within [.clk, .ctr, .mem] s ((((smGet (fun _ => ({} : Arb)) s.mem.arb a1).masters a2).filter
        (fun m => decide (m ≠ x.1.val))).foldl (fun s m => s.count (memA (4 * m)) 1) (s.upto a2)) :=
      Within.fold ((State.upto_within s _).mono rfl) (fun u x hu => hu.step (State.count_within _ _ _) rfl)
    refine Within.ite ?_ ?_
    · refine Within.step (m := [.mem]) ?_ (State.tuneGranted_within _ _ _) rfl
      exact h1.step (m := [.mem]) (Within.set_mem _ _ rfl) rfl
    · exact h1.step (m := [.mem]) (Within.set_mem _ _ rfl) rfl

theorem State.arbRun_within (s : State) (a1 : Nat) (a2 : Fin 44 × Nat) (a3 : Nat) :
    Within [.clk, .ctr, .mem] s (State.arbRun s a1 a2 a3).1 := by
  induction a3 generalizing s with
  | zero => exact Within.refl _ _
  | succ k ih =>
    unfold State.arbRun
    split
    · exact Within.refl _ _
    · dsimp only
      split
      · exact State.arbTick_within _ _ _
      · exact (State.arbTick_within s _ _).step (ih _) rfl

theorem State.tileGrant_within (s : State) (a1 : Nat) (a2 : Fin 44) (a3 : Nat) (a4 : List (Fin 44 × Nat)) :
    Within [.clk, .ctr, .mem] s (State.tileGrant s a1 a2 a3 a4).1 := by
  unfold State.tileGrant
  refine Within.step (m := [.clk, .ctr, .mem]) ?_ (State.arbRun_within _ _ _ _) rfl
  refine Within.mono (m := [.mem]) ?_ rfl
  exact Within.set_mem s _ rfl

theorem State.slotGrant_within (s : State) (a1 : Fin 44) (a2 : Nat) : Within [.clk, .ctr, .mem] s (State.slotGrant s a1 a2) := by
  unfold State.slotGrant
  extract_lets -merge -useContext -underBinder +onlyGivenNames x1
  have hx1 : Within [.clk, .ctr, .mem] s x1.1 := by
    unfold x1
    refine Within.step ?_ (State.tileGrant_within _ _ _ _ _) rfl
    exact Within.refl _ _
  try clear_value x1
  refine Within.step ?_ (State.upto_within _ _) rfl
  assumption

theorem State.readerAsks_within (s : State) (a1 : Fin 20) (a2 : Nat) (a3 : Nat) : Within [.clk, .ctr, .mem] s (State.readerAsks s a1 a2 a3) := by
  unfold State.readerAsks
  refine Within.ite ?_ ?_
  · extract_lets -merge -useContext -underBinder +onlyGivenNames x1
    try clear_value x1
    extract_lets -merge -useContext -underBinder +onlyGivenNames x2
    have hx2 : Within [.clk, .ctr, .mem] s x2 := by
      unfold x2
      refine Within.step ?_ (State.tileGrant_within _ _ _ _ _) rfl
      exact Within.refl _ _
    try clear_value x2
    refine Within.step ?_ (Within.set_clk _ _) rfl
    assumption
  · exact Within.refl _ _

theorem State.tuneRun_within (s : State) (a1 : Nat) : Within [.clk, .ctr, .mem] s (State.tuneRun s a1) := by
  induction a1 generalizing s with
  | zero => exact Within.refl _ _
  | succ k ih =>
    unfold State.tuneRun
    refine Within.ite (Within.refl _ _) ?_
    split
    · exact Within.refl _ _
    · exact (State.arbTick_within s _ _).step (ih _) rfl

theorem State.tuneFinish_within (s : State) : Within [.clk, .ctr, .mem] s (State.tuneFinish s) := by
  unfold State.tuneFinish
  refine Within.step ?_ (State.tuneRun_within _ _) rfl
  exact Within.refl _ _

theorem State.lowWater_within (s : State) (a1 : Sys2Proof.Ctx) : Within [.flg, .ctr, .host, .msix] s (State.lowWater s a1) := by
  unfold State.lowWater
  extract_lets -merge -useContext -underBinder +onlyGivenNames x1
  try clear_value x1
  extract_lets -merge -useContext -underBinder +onlyGivenNames x2
  try clear_value x2
  refine Within.ite ?_ ?_
  · exact Within.refl _ _
  · refine Within.ite ?_ ?_
    · refine Within.step ?_ (State.modCtx_within _ _ _) rfl
      exact Within.refl _ _
    · refine Within.ite ?_ ?_
      · refine Within.step ?_ (State.count_within _ _ _) rfl
        refine Within.step ?_ (State.setBit_within _ _ _) rfl
        refine Within.step ?_ (State.modCtx_within _ _ _) rfl
        exact Within.refl _ _
      · exact Within.refl _ _

theorem State.ctxClear_within (s : State) (a1 : Sys2Proof.Ctx) : Within [.host] s (State.ctxClear s a1) := by
  unfold State.ctxClear
  extract_lets -merge -useContext -underBinder +onlyGivenNames x1
  try clear_value x1
  extract_lets -merge -useContext -underBinder +onlyGivenNames x2
  have hx2 : Within [.host] s x2 := by
    unfold x2
    refine Within.step ?_ (State.modCtx_within _ _ _) rfl
    exact Within.refl _ _
  try clear_value x2
  refine Within.step ?_ (Within.set_host _ _ rfl rfl rfl) rfl
  assumption

theorem State.ctxCloseIfDone_within (s : State) (a1 : Sys2Proof.Ctx) : Within [.flg, .host, .msix] s (State.ctxCloseIfDone s a1) := by
  unfold State.ctxCloseIfDone
  extract_lets -merge -useContext -underBinder +onlyGivenNames x1
  try clear_value x1
  refine Within.ite ?_ ?_
  · refine Within.step ?_ (State.setBit_within _ _ _) rfl
    refine Within.step ?_ (State.ctxClear_within _ _) rfl
    exact Within.refl _ _
  · exact Within.refl _ _

theorem State.takeObject_within (s : State) (a1 : Sys2Proof.Clu) (a2 : BitVec 256) : Within [.clu, .host] s (State.takeObject s a1 a2) := by
  unfold State.takeObject
  refine Within.ite ?_ ?_
  · exact Within.refl _ _
  · extract_lets -merge -useContext -underBinder +onlyGivenNames x1
    extract_lets -merge -useContext -underBinder +onlyGivenNames x2
    extract_lets -merge -useContext -underBinder +onlyGivenNames x3
    refine Within.ite ?_ ?_
    · extract_lets -merge -useContext -underBinder +onlyGivenNames x4
      extract_lets -merge -useContext -underBinder +onlyGivenNames x5
      extract_lets -merge -useContext -underBinder +onlyGivenNames x6
      have hx6 : Within [.clu, .host] s x6 := by
        unfold x6
        refine Within.step ?_ (State.modCtx_within _ _ _) rfl
        exact Within.refl _ _
      extract_lets -merge -useContext -underBinder +onlyGivenNames x7
      have hx7 : Within [.clu, .host] s x7 := by
        unfold x7
        refine Within.fold ?_ (fun u x hu => ?_)
        · assumption
        · refine Within.step ?_ (State.modClu_within _ _ _) rfl
          assumption
      refine Within.step ?_ (State.modClu_within _ _ _) rfl
      assumption
    · refine Within.step ?_ (State.modClu_within _ _ _) rfl
      exact Within.refl _ _

theorem State.releaseObject_within (s : State) (a1 : Sys2Proof.Clu) : Within [.flg, .ctr, .clu, .host, .msix] s (State.releaseObject s a1) := by
  unfold State.releaseObject
  split
  · exact Within.refl _ _
  · extract_lets -merge -useContext -underBinder +onlyGivenNames x1
    have hx1 : Within [.flg, .ctr, .clu, .host, .msix] s x1 := by
      unfold x1
      refine Within.step ?_ (State.modClu_within _ _ _) rfl
      exact Within.refl _ _
    try clear_value x1
    refine Within.ite ?_ ?_
    · extract_lets -merge -useContext -underBinder +onlyGivenNames x2
      have hx2 : Within [.flg, .ctr, .clu, .host, .msix] s x2 := by
        unfold x2
        refine Within.step ?_ (State.modCtx_within _ _ _) rfl
        assumption
      try clear_value x2
      refine Within.step ?_ (State.ctxCloseIfDone_within _ _) rfl
      refine Within.step ?_ (State.lowWater_within _ _) rfl
      assumption
    · assumption

theorem State.applyOpen_within (s : State) (a1 : Sys2Proof.Ctx) : Within [.eff] s (State.applyOpen s a1) := by
  unfold State.applyOpen
  refine Within.fold ?_ (fun u x hu => ?_)
  · exact Within.refl _ _
  · refine Within.step ?_ (State.applyDue_within _ _ _) rfl
    assumption

theorem execStrmOpen_within (a0 : Sys2Proof.Ctx) (s : State) {t : State} (h : execStrmOpen a0 s = .next t) : Within [.pwr, .eff, .flg, .ctr, .cmd, .more, .host, .msix] s t := by
  unfold execStrmOpen at h
  refine Within.guarded ?_ h
  extract_lets -merge -useContext -underBinder +onlyGivenNames x1
  try clear_value x1
  extract_lets -merge -useContext -underBinder +onlyGivenNames x2
  try clear_value x2
  refine Within.ite ?_ ?_
  · refine Within.step ?_ (State.hold_within _ _) rfl
    exact Within.refl _ _
  · extract_lets -merge -useContext -underBinder +onlyGivenNames x3
    have hx3 : Within [.pwr, .eff, .flg, .ctr, .cmd, .more, .host, .msix] s x3 := by
      unfold x3
      refine Within.step ?_ (State.cmdTake_within _ _ _) rfl
      exact Within.refl _ _
    try clear_value x3
    refine Within.ite ?_ ?_
    · assumption
    · extract_lets -merge -useContext -underBinder +onlyGivenNames x4
      try clear_value x4
      refine Within.ite ?_ ?_
      · refine Within.step ?_ (State.setBit_within _ _ _) rfl
        refine Within.step ?_ (State.modCtx_within _ _ _) rfl
        assumption
      · extract_lets -merge -useContext -underBinder +onlyGivenNames x5
        have hx5 : Within [.pwr, .eff, .flg, .ctr, .cmd, .more, .host, .msix] s x5 := by
          unfold x5
          refine Within.step ?_ (State.applyOpen_within _ _) rfl
          assumption
        try clear_value x5
        extract_lets -merge -useContext -underBinder +onlyGivenNames x6
        try clear_value x6
        extract_lets -merge -useContext -underBinder +onlyGivenNames x7
        try clear_value x7
        extract_lets -merge -useContext -underBinder +onlyGivenNames x8
        extract_lets -merge -useContext -underBinder +onlyGivenNames x9
        have hx9 : Within [.pwr, .eff, .flg, .ctr, .cmd, .more, .host, .msix] s x9 := by
          unfold x9
          refine Within.step ?_ (Within.set_host _ _ rfl rfl rfl) rfl
          assumption
        try clear_value x9
        refine Within.step ?_ (State.lowWater_within _ _) rfl
        refine Within.step ?_ (State.setBit_within _ _ _) rfl
        refine Within.step ?_ (State.modCtx_within _ _ _) rfl
        assumption

theorem execStrmClose_within (a0 : Sys2Proof.Ctx) (s : State) {t : State} (h : execStrmClose a0 s = .next t) : Within [.flg, .cmd, .more, .host, .msix] s t := by
  unfold execStrmClose at h
  refine Within.guarded ?_ h
  extract_lets -merge -useContext -underBinder +onlyGivenNames x1
  have hx1 : Within [.flg, .cmd, .more, .host, .msix] s x1 := by
    unfold x1
    refine Within.step ?_ (State.cmdTake_within _ _ _) rfl
    exact Within.refl _ _
  try clear_value x1
  extract_lets -merge -useContext -underBinder +onlyGivenNames x2
  try clear_value x2
  refine Within.ite ?_ ?_
  · extract_lets -merge -useContext -underBinder +onlyGivenNames x3
    try clear_value x3
    refine Within.step ?_ (State.ctxCloseIfDone_within _ _) rfl
    refine Within.step ?_ (State.modCtx_within _ _ _) rfl
    assumption
  · refine Within.step ?_ (State.setBit_within _ _ _) rfl
    assumption

theorem execStrmTailWrite_within (a0 : Sys2Proof.Ctx) (a1 : BitVec 16) (s : State) {t : State} (h : execStrmTailWrite a0 a1 s = .next t) : Within [.flg, .host, .msix] s t := by
  unfold execStrmTailWrite at h
  refine Within.guarded ?_ h
  extract_lets -merge -useContext -underBinder +onlyGivenNames x1
  try clear_value x1
  extract_lets -merge -useContext -underBinder +onlyGivenNames x2
  try clear_value x2
  refine Within.ite ?_ ?_
  · refine Within.step ?_ (State.setBit_within _ _ _) rfl
    exact Within.refl _ _
  · refine Within.step ?_ (State.modCtx_within _ _ _) rfl
    exact Within.refl _ _

theorem State.ctxError_within (s : State) (a1 : Sys2Proof.Ctx) (a2 : Nat) : Within [.flg, .host, .msix] s (State.ctxError s a1 a2) := by
  unfold State.ctxError
  refine Within.step ?_ (State.setBit_within _ _ _) rfl
  refine Within.step ?_ (State.modCtx_within _ _ _) rfl
  exact Within.refl _ _

theorem State.ctxBad_within (s : State) (a1 : Sys2Proof.Ctx) : Within [.flg, .host, .msix] s (State.ctxBad s a1) := by
  unfold State.ctxBad
  extract_lets -merge -useContext -underBinder +onlyGivenNames x1
  try clear_value x1
  refine Within.ite ?_ ?_
  · refine Within.step ?_ (State.ctxError_within _ _ _) rfl
    exact Within.refl _ _
  · exact Within.refl _ _

theorem execDescFetch_within (a0 : Sys2Proof.Ctx) (a1 : Sys2Proof.DescRead) (s : State) {t : State} (h : execDescFetch a0 a1 s = .next t) : Within [.flg, .host, .msix] s t := by
  unfold execDescFetch at h
  refine Within.guarded ?_ h
  extract_lets -merge -useContext -underBinder +onlyGivenNames x1
  try clear_value x1
  extract_lets -merge -useContext -underBinder +onlyGivenNames x2
  try clear_value x2
  refine Within.ite ?_ ?_
  · exact Within.refl _ _
  · extract_lets -merge -useContext -underBinder +onlyGivenNames x3
    try clear_value x3
    extract_lets -merge -useContext -underBinder +onlyGivenNames x4
    try clear_value x4
    refine Within.step ?_ (State.ctxBad_within _ _) rfl
    refine Within.step ?_ (State.modCtx_within _ _ _) rfl
    exact Within.refl _ _

theorem State.descComplete_within (s : State) (a1 : Sys2Proof.Ctx) (a2 : Sys2Proof.Descriptor) : Within [.flg, .host, .msix] s (State.descComplete s a1 a2) := by
  unfold State.descComplete
  extract_lets -merge -useContext -underBinder +onlyGivenNames x1
  try clear_value x1
  extract_lets -merge -useContext -underBinder +onlyGivenNames x2
  try clear_value x2
  extract_lets -merge -useContext -underBinder +onlyGivenNames x3
  have hx3 : Within [.flg, .host, .msix] s x3 := by
    unfold x3
    refine Within.step ?_ (State.modCtx_within _ _ _) rfl
    exact Within.refl _ _
  try clear_value x3
  refine Within.step ?_ (State.setBitIf_within _ _ _ _) rfl
  assumption

theorem State.hostAccesses_within (s : State) (a1 : List (Nat × Sys2Proof.EdcOutcome)) : Within [.flg, .ctr, .dram, .msix] s (State.hostAccesses s a1) := by
  unfold State.hostAccesses
  refine Within.fold ?_ (fun u x hu => ?_)
  · exact Within.refl _ _
  · refine Within.step ?_ (State.retries_within _ _ _) rfl
    refine Within.step ?_ (State.bankAccess_within _ _) rfl
    assumption

theorem State.writeEscapes_within (s : State) (a1 : List Nat) : Within [.flg, .ctr, .dram, .bytes, .msix, .flt, .freeN] s (State.writeEscapes s a1) := by
  unfold State.writeEscapes
  refine Within.fold ?_ (fun u x hu => ?_)
  · exact Within.refl _ _
  · refine Within.step ?_ (State.escape_within _ _ _ _) rfl
    refine Within.step ?_ (State.smear_within _ _) rfl
    assumption

theorem ringWrite_within (s : State) (a1 : Sys2Proof.Ctx) (a2 : Nat) (a3 : Nat) (a4 : List Byte) : Within [.bytes] s (ringWrite s a1 a2 a3 a4) := by
  induction a2 generalizing s a3 a4 with
  | zero => exact Within.refl _ _
  | succ k ih => exact (State.dramWrite_within s _ _).step (ih _ _ _) rfl

theorem execStreamPieceLand_within (a0 : Sys2Proof.Ctx) (a1 : Sys2Proof.Piece) (s : State) {t : State} (h : execStreamPieceLand a0 a1 s = .next t) : Within [.flg, .ctr, .dram, .bytes, .host, .msix, .flt, .freeN] s t := by
  unfold execStreamPieceLand at h
  refine Within.guarded ?_ h
  extract_lets -merge -useContext -underBinder +onlyGivenNames x1
  try clear_value x1
  split
  · exact Within.refl _ _
  · extract_lets -merge -useContext -underBinder +onlyGivenNames x2
    try clear_value x2
    extract_lets -merge -useContext -underBinder +onlyGivenNames x3
    try clear_value x3
    extract_lets -merge -useContext -underBinder +onlyGivenNames x4
    try clear_value x4
    refine Within.ite ?_ ?_
    · exact Within.refl _ _
    · extract_lets -merge -useContext -underBinder +onlyGivenNames x5
      have hx5 : Within [.flg, .ctr, .dram, .bytes, .host, .msix, .flt, .freeN] s x5 := by
        unfold x5
        refine Within.step ?_ (State.writeEscapes_within _ _) rfl
        refine Within.step ?_ (ringWrite_within _ _ _ _ _) rfl
        refine Within.step ?_ (State.hostAccesses_within _ _) rfl
        exact Within.refl _ _
      try clear_value x5
      extract_lets -merge -useContext -underBinder +onlyGivenNames x6
      have hx6 : Within [.flg, .ctr, .dram, .bytes, .host, .msix, .flt, .freeN] s x6 := by
        unfold x6
        refine Within.step ?_ (State.modCtx_within _ _ _) rfl
        assumption
      try clear_value x6
      extract_lets -merge -useContext -underBinder +onlyGivenNames x7
      have hx7 : Within [.flg, .ctr, .dram, .bytes, .host, .msix, .flt, .freeN] s x7 := by
        unfold x7
        refine Within.ite ?_ ?_
        · refine Within.step ?_ (State.ctxBad_within _ _) rfl
          refine Within.step ?_ (State.descComplete_within _ _ _) rfl
          assumption
        · assumption
      try clear_value x7
      refine Within.step ?_ (State.lowWater_within _ _) rfl
      assumption

theorem execStreamDmaError_within (a0 : Sys2Proof.Ctx) (a1 : Fin 4) (s : State) {t : State} (h : execStreamDmaError a0 a1 s = .next t) : Within [.flg, .host, .msix] s t := by
  unfold execStreamDmaError at h
  refine Within.guarded ?_ h
  refine Within.ite ?_ ?_
  · refine Within.step ?_ (State.ctxError_within _ _ _) rfl
    exact Within.refl _ _
  · exact Within.refl _ _

theorem execBmeChange_within (a0 : Nat) (a1 : Bool) (a2 : Bool) (s : State) {t : State} (h : execBmeChange a0 a1 a2 s = .next t) : Within [.clk, .flg, .host, .msix] s t := by
  unfold execBmeChange at h
  refine Within.guarded ?_ h
  extract_lets -merge -useContext -underBinder +onlyGivenNames x1
  have hx1 : Within [.clk, .flg, .host, .msix] s x1 := by
    unfold x1
    refine Within.step ?_ (State.upto_within _ _) rfl
    exact Within.refl _ _
  try clear_value x1
  extract_lets -merge -useContext -underBinder +onlyGivenNames x2
  extract_lets -merge -useContext -underBinder +onlyGivenNames x3
  have hx3 : Within [.clk, .flg, .host, .msix] s x3 := by
    unfold x3
    refine Within.step ?_ (Within.set_host _ _ rfl rfl rfl) rfl
    assumption
  try clear_value x3
  refine Within.step ?_ (State.sendVectors_within _) rfl
  refine Within.step ?_ (State.setBitIf_within _ _ _ _) rfl
  assumption

theorem execHostCntClr_within (s : State) {t : State} (h : execHostCntClr s = .next t) : Within [.ctr] s t := by
  unfold execHostCntClr at h
  refine Within.guarded ?_ h
  refine Within.step ?_ (State.clearCtrs_within _ _) rfl
  exact Within.refl _ _

theorem execIntPendClear_within (a0 : Fin 3) (a1 : Sys2Proof.Word) (s : State) {t : State} (h : execIntPendClear a0 a1 s = .next t) : Within [.flg] s t := by
  unfold execIntPendClear at h
  refine Within.guarded ?_ h
  refine Within.step ?_ (State.clearFlag_within _ _ _) rfl
  exact Within.refl _ _

theorem State.zoneFlag_within (s : State) (a1 : Bar4Zone) (a2 : Bool) : Within [.flg, .msix] s (State.zoneFlag s a1 a2) := by
  unfold State.zoneFlag
  split
  · refine Within.step ?_ (State.setBit_within _ _ _) rfl
    exact Within.refl _ _
  · refine Within.step ?_ (State.setBitIf_within _ _ _ _) rfl
    exact Within.refl _ _
  · refine Within.step ?_ (State.setBit_within _ _ _) rfl
    exact Within.refl _ _
  · exact Within.refl _ _

theorem execBar4Read_within (a0 : BitVec 35) (a1 : Nat) (a2 : Sys2Proof.HostRound) (s : State) {t : State} (h : execBar4Read a0 a1 a2 s = .next t) : Within [.pwr, .flg, .ctr, .dram, .host, .msix, .flt] s t := by
  unfold execBar4Read at h
  refine Within.guarded ?_ h
  refine Within.ite ?_ ?_
  · refine Within.step ?_ (State.hold_within _ _) rfl
    exact Within.refl _ _
  · refine Within.ite ?_ ?_
    · refine Within.step ?_ (Within.set_host _ _ rfl rfl rfl) rfl
      exact Within.refl _ _
    · extract_lets -merge -useContext -underBinder +onlyGivenNames x1
      try clear_value x1
      extract_lets -merge -useContext -underBinder +onlyGivenNames x2
      try clear_value x2
      extract_lets -merge -useContext -underBinder +onlyGivenNames x3
      try clear_value x3
      refine Within.ite ?_ ?_
      · exact Within.refl _ _
      · extract_lets -merge -useContext -underBinder +onlyGivenNames x4
        have hx4 : Within [.pwr, .flg, .ctr, .dram, .host, .msix, .flt] s x4 := by
          unfold x4
          refine Within.fold ?_ (fun u x hu => ?_)
          · exact Within.refl _ _
          · refine Within.step ?_ (State.zoneFlag_within _ _ _) rfl
            assumption
        try clear_value x4
        extract_lets -merge -useContext -underBinder +onlyGivenNames x5
        try clear_value x5
        extract_lets -merge -useContext -underBinder +onlyGivenNames x6
        try clear_value x6
        extract_lets -merge -useContext -underBinder +onlyGivenNames x7
        try clear_value x7
        extract_lets -merge -useContext -underBinder +onlyGivenNames x8
        have hx8 : Within [.pwr, .flg, .ctr, .dram, .host, .msix, .flt] s x8 := by
          unfold x8
          refine Within.fold ?_ (fun u x hu => ?_)
          · refine Within.step ?_ (State.hostAccesses_within _ _) rfl
            assumption
          · refine Within.step ?_ (State.escape_within _ _ _ _) rfl
            assumption
        try clear_value x8
        refine Within.step ?_ (Within.set_host _ _ rfl rfl rfl) rfl
        assumption

theorem State.settleWrites_within (s : State) : Within [.host] s (State.settleWrites s) := by
  unfold State.settleWrites
  extract_lets -merge -useContext -underBinder +onlyGivenNames x1
  try clear_value x1
  refine Within.step ?_ (Within.set_host _ _ rfl rfl rfl) rfl
  exact Within.refl _ _

theorem execBar4Write_within (a0 : BitVec 35) (a1 : List (Option Sys2Proof.Byte)) (s : State) {t : State} (h : execBar4Write a0 a1 s = .next t) : Within [.pwr, .flg, .host, .msix] s t := by
  unfold execBar4Write at h
  refine Within.guarded ?_ h
  refine Within.ite ?_ ?_
  · exact Within.refl _ _
  · refine Within.ite ?_ ?_
    · refine Within.step ?_ (State.hold_within _ _) rfl
      exact Within.refl _ _
    · extract_lets -merge -useContext -underBinder +onlyGivenNames x1
      try clear_value x1
      extract_lets -merge -useContext -underBinder +onlyGivenNames x2
      try clear_value x2
      extract_lets -merge -useContext -underBinder +onlyGivenNames x3
      have hx3 : Within [.pwr, .flg, .host, .msix] s x3 := by
        unfold x3
        refine Within.fold ?_ (fun u x hu => ?_)
        · exact Within.refl _ _
        · refine Within.step ?_ (State.zoneFlag_within _ _ _) rfl
          assumption
      try clear_value x3
      extract_lets -merge -useContext -underBinder +onlyGivenNames x4
      try clear_value x4
      extract_lets -merge -useContext -underBinder +onlyGivenNames x5
      try clear_value x5
      refine Within.step ?_ (State.settleWrites_within _) rfl
      refine Within.step ?_ (Within.set_host _ _ rfl rfl rfl) rfl
      assumption

theorem State.drain_within (s : State) (a1 : List Sys2Proof.EdcOutcome) : Within [.flg, .ctr, .dram, .bytes, .host, .msix, .flt, .freeN] s (State.drain s a1) := by
  unfold State.drain
  split
  · exact Within.refl _ _
  · extract_lets -merge -useContext -underBinder +onlyGivenNames x1
    extract_lets -merge -useContext -underBinder +onlyGivenNames x2
    have hx2 : Within [.flg, .ctr, .dram, .bytes, .host, .msix, .flt, .freeN] s x2 := by
      unfold x2
      refine Within.step ?_ (Within.set_host _ _ rfl rfl rfl) rfl
      exact Within.refl _ _
    try clear_value x2
    extract_lets -merge -useContext -underBinder +onlyGivenNames x3
    try clear_value x3
    extract_lets -merge -useContext -underBinder +onlyGivenNames x4
    have hx4 : Within [.flg, .ctr, .dram, .bytes, .host, .msix, .flt, .freeN] s x4 := by
      unfold x4
      refine Within.step ?_ (State.dramWrite_within _ _ _) rfl
      refine Within.step ?_ (State.hostAccesses_within _ _) rfl
      assumption
    try clear_value x4
    refine Within.step ?_ (State.settleWrites_within _) rfl
    refine Within.step ?_ (State.writeEscapes_within _ _) rfl
    assumption

theorem execBar4WriteDrain_within (a0 : Sys2Proof.HostRound) (s : State) {t : State} (h : execBar4WriteDrain a0 s = .next t) : Within [.flg, .ctr, .dram, .bytes, .host, .msix, .flt, .freeN] s t := by
  unfold execBar4WriteDrain at h
  refine Within.guarded ?_ h
  refine Within.ite ?_ ?_
  · refine Within.step ?_ (State.drain_within _ _) rfl
    exact Within.refl _ _
  · exact Within.refl _ _

theorem State.readerReads_within (s : State) (a1 : Sys2Proof.Clu) (a2 : Play) (a3 : Fin 20) (a4 : Nat) : Within [.clk, .ctr, .mem] s (State.readerReads s a1 a2 a3 a4) := by
  unfold State.readerReads
  extract_lets -merge -useContext -underBinder +onlyGivenNames x1
  try clear_value x1
  refine Within.fold ?_ (fun u x hu => ?_)
  · exact Within.refl _ _
  · split
    · refine Within.step ?_ (State.readerAsks_within _ _ _ _) rfl
      assumption
    · assumption

end Sys2Proof.Machine
end

