-- ==== Sys2Proof/Laws/FramePlay.lean ====
section
/-! SUPPORT. Frames of the operations and commands of placement, the lanes and the play clusters: the parts of the state that each may change. -/
namespace Sys2Proof.Machine

theorem State.dropCopies_within (s : State) (a1 : Nat) : Within [.mem] s (State.dropCopies s a1) := by
  unfold State.dropCopies
  refine Within.step ?_ (Within.set_mem _ _ rfl) rfl
  exact Within.refl _ _

theorem State.modPlc_within (s : State) (a1 : Placement → Placement) : Within [.plc] s (State.modPlc s a1) := by
  unfold State.modPlc
  refine Within.step ?_ (Within.set_plc _ _) rfl
  exact Within.refl _ _

theorem State.modEntry_within (s : State) (a1 : Nat) (a2 : EntryRec → EntryRec) : Within [.plc] s (State.modEntry s a1 a2) := by
  unfold State.modEntry
  refine Within.step ?_ (State.modPlc_within _ _) rfl
  exact Within.refl _ _

theorem State.retireCopy_within (s : State) (a1 : Nat) : Within [.plc] s (State.retireCopy s a1) := by
  unfold State.retireCopy
  extract_lets -merge -useContext -underBinder +onlyGivenNames x1
  try clear_value x1
  extract_lets -merge -useContext -underBinder +onlyGivenNames x2
  try clear_value x2
  extract_lets -merge -useContext -underBinder +onlyGivenNames x3
  try clear_value x3
  refine Within.step ?_ (State.modPlc_within _ _) rfl
  exact Within.refl _ _

theorem State.ageCopies_within (s : State) (a1 : Nat) : Within [.clu, .mem, .plc] s (State.ageCopies s a1) := by
  unfold State.ageCopies
  extract_lets -merge -useContext -underBinder +onlyGivenNames x1
  have hx1 : Within [.clu, .mem, .plc] s x1 := by
    unfold x1
    refine Within.step ?_ (State.dropCopies_within _ _) rfl
    refine Within.step ?_ (State.retireCopy_within _ _) rfl
    exact Within.refl _ _
  try clear_value x1
  extract_lets -merge -useContext -underBinder +onlyGivenNames x2
  extract_lets -merge -useContext -underBinder +onlyGivenNames x3
  have hx3 : Within [.clu, .mem, .plc] s x3 := by
    unfold x3
    refine Within.step ?_ (Within.set_mem _ _ rfl) rfl
    assumption
  try clear_value x3
  extract_lets -merge -useContext -underBinder +onlyGivenNames x4
  have hx4 : Within [.clu, .mem, .plc] s x4 := by
    unfold x4
    refine Within.step ?_ (State.modPlc_within _ _) rfl
    assumption
  try clear_value x4
  refine Within.fold ?_ (fun u x hu => ?_)
  · assumption
  · refine Within.step ?_ (State.modClu_within _ _ _) rfl
    assumption

theorem State.publishFinish_within (s : State) : Within [.flg, .msix, .plc] s (State.publishFinish s) := by
  unfold State.publishFinish
  split
  · refine Within.ite ?_ ?_
    · exact Within.refl _ _
    · refine Within.step ?_ (State.setBit_within _ _ _) rfl
      refine Within.step ?_ (State.modPlc_within _ _) rfl
      exact Within.refl _ _
  · exact Within.refl _ _

theorem State.unpublish_within (s : State) (a1 : Nat) : Within [.flg, .was, .clu, .mem, .msix, .plc] s (State.unpublish s a1) := by
  unfold State.unpublish
  refine Within.step ?_ (State.publishFinish_within _) rfl
  refine Within.step ?_ (State.modEntry_within _ _ _) rfl
  refine Within.step ?_ (State.ageCopies_within _ _) rfl
  refine Within.step ?_ (State.keepRec_within _ _ _) rfl
  exact Within.refl _ _

theorem State.goRolls_within (s : State) : Within [.plc] s (State.goRolls s) := by
  unfold State.goRolls
  extract_lets -merge -useContext -underBinder +onlyGivenNames x1
  try clear_value x1
  refine Within.ite ?_ ?_
  · refine Within.step ?_ (State.modPlc_within _ _) rfl
    exact Within.refl _ _
  · exact Within.refl _ _

theorem execPubGo_within (s : State) {t : State} (h : execPubGo s = .next t) : Within [.pwr, .flg, .cmd, .more, .msix, .plc] s t := by
  unfold execPubGo at h
  refine Within.guarded ?_ h
  refine Within.ite ?_ ?_
  · refine Within.step ?_ (State.hold_within _ _) rfl
    exact Within.refl _ _
  · extract_lets -merge -useContext -underBinder +onlyGivenNames x1
    try clear_value x1
    extract_lets -merge -useContext -underBinder +onlyGivenNames x2
    try clear_value x2
    extract_lets -merge -useContext -underBinder +onlyGivenNames x3
    have hx3 : Within [.pwr, .flg, .cmd, .more, .msix, .plc] s x3 := by
      unfold x3
      refine Within.step ?_ (State.modPlc_within _ _) rfl
      exact Within.refl _ _
    try clear_value x3
    extract_lets -merge -useContext -underBinder +onlyGivenNames x4
    have hx4 : Within [.pwr, .flg, .cmd, .more, .msix, .plc] s x4 := by
      unfold x4
      refine Within.ite ?_ ?_
      · refine Within.step ?_ (State.cmdDrop_within _ _ _) rfl
        assumption
      · assumption
    try clear_value x4
    refine Within.ite ?_ ?_
    · refine Within.step ?_ (State.setBit_within _ _ _) rfl
      assumption
    · extract_lets -merge -useContext -underBinder +onlyGivenNames x5
      try clear_value x5
      refine Within.step ?_ (State.goRolls_within _) rfl
      refine Within.step ?_ (State.modPlc_within _ _) rfl
      assumption

theorem State.publishRefuse_within (s : State) (a1 : Nat) (a2 : Nat) : Within [.flg, .ctr, .msix, .plc] s (State.publishRefuse s a1 a2) := by
  unfold State.publishRefuse
  extract_lets -merge -useContext -underBinder +onlyGivenNames x1
  have hx1 : Within [.flg, .ctr, .msix, .plc] s x1 := by
    unfold x1
    refine Within.ite ?_ ?_
    · refine Within.step ?_ (State.modPlc_within _ _) rfl
      exact Within.refl _ _
    · exact Within.refl _ _
  try clear_value x1
  refine Within.step ?_ (State.count_within _ _ _) rfl
  refine Within.step ?_ (State.setBit_within _ _ _) rfl
  assumption

theorem State.publishDone_within (s : State) (a1 : Nat) (a2 : List (Layout × PClass)) (a3 : Bool) : Within [.plc] s (State.publishDone s a1 a2 a3) := by
  unfold State.publishDone
  refine Within.step ?_ (State.modEntry_within _ _ _) rfl
  exact Within.refl _ _

theorem State.takeRoom_within (s : State) (a1 : Nat) (a2 : List (Layout × PClass)) : Within [.plc] s (State.takeRoom s a1 a2) := by
  unfold State.takeRoom
  refine Within.ite ?_ ?_
  · refine Within.step ?_ (State.modPlc_within _ _) rfl
    exact Within.refl _ _
  · exact Within.refl _ _

theorem State.publishEntry_within (s : State) (a1 : PubCmd) (a2 : Nat) : Within [.flg, .ctr, .clu, .mem, .msix, .plc] s (State.publishEntry s a1 a2) := by
  unfold State.publishEntry
  extract_lets -merge -useContext -underBinder +onlyGivenNames x1
  try clear_value x1
  refine Within.ite ?_ ?_
  · refine Within.step ?_ (State.publishRefuse_within _ _ _) rfl
    exact Within.refl _ _
  · extract_lets -merge -useContext -underBinder +onlyGivenNames x2
    try clear_value x2
    extract_lets -merge -useContext -underBinder +onlyGivenNames x3
    try clear_value x3
    extract_lets -merge -useContext -underBinder +onlyGivenNames x4
    have hx4 : Within [.flg, .ctr, .clu, .mem, .msix, .plc] s x4 := by
      unfold x4
      refine Within.step ?_ (State.modEntry_within _ _ _) rfl
      refine Within.step ?_ (State.ageCopies_within _ _) rfl
      refine Within.step ?_ (State.takeRoom_within _ _ _) rfl
      exact Within.refl _ _
    try clear_value x4
    extract_lets -merge -useContext -underBinder +onlyGivenNames x5
    try clear_value x5
    refine Within.ite ?_ ?_
    · refine Within.step ?_ (State.publishDone_within _ _ _ _) rfl
      assumption
    · refine Within.step ?_ (State.modPlc_within _ _) rfl
      assumption

theorem State.publishFrom_within (s : State) (a1 : PubCmd) (a2 : Nat) (a3 : Nat) :
    Within [.flg, .ctr, .clu, .mem, .msix, .plc] s (State.publishFrom s a1 a2 a3) := by
  induction a2 generalizing s a3 with
  | zero => exact (State.modPlc_within s _).mono rfl
  | succ k ih =>
    unfold State.publishFrom
    refine Within.ite ((State.modPlc_within s _).mono rfl) ?_
    exact ((State.publishEntry_within s _ _).mono rfl).step (ih _ _) rfl

theorem execPublishRun_within (s : State) {t : State} (h : execPublishRun s = .next t) : Within [.flg, .ctr, .clu, .mem, .msix, .plc] s t := by
  unfold execPublishRun at h
  refine Within.guarded ?_ h
  split
  · exact Within.refl _ _
  · split
    · refine Within.step ?_ (State.publishFinish_within _) rfl
      refine Within.step ?_ (State.publishFrom_within _ _ _ _) rfl
      exact Within.refl _ _
    · refine Within.ite ?_ ?_
      · exact Within.refl _ _
      · extract_lets -merge -useContext -underBinder +onlyGivenNames x1
        have hx1 : Within [.flg, .ctr, .clu, .mem, .msix, .plc] s x1 := by
          unfold x1
          refine Within.step ?_ (State.setBitIf_within _ _ _ _) rfl
          exact Within.refl _ _
        try clear_value x1
        refine Within.step ?_ (State.publishFinish_within _) rfl
        refine Within.step ?_ (State.publishFrom_within _ _ _ _) rfl
        assumption

theorem State.reclass_within (s : State) (a1 : StagingJob) : Within [.plc] s (State.reclass s a1) := by
  unfold State.reclass
  refine Within.step ?_ (State.modEntry_within _ _ _) rfl
  exact Within.refl _ _

theorem State.jobDone_within (s : State) (a1 : StagingJob) : Within [.plc] s (State.jobDone s a1) := by
  unfold State.jobDone
  extract_lets -merge -useContext -underBinder +onlyGivenNames x1
  have hx1 : Within [.plc] s x1 := by
    unfold x1
    refine Within.step ?_ (State.modPlc_within _ _) rfl
    exact Within.refl _ _
  try clear_value x1
  refine Within.ite ?_ ?_
  · refine Within.step ?_ (State.publishDone_within _ _ _ _) rfl
    assumption
  · refine Within.ite ?_ ?_
    · refine Within.step ?_ (State.reclass_within _ _) rfl
      assumption
    · refine Within.step ?_ (State.modPlc_within _ _) rfl
      exact Within.refl _ _

theorem State.jobsLanded_within (s : State) : Within [.flg, .msix, .plc] s (State.jobsLanded s) := by
  unfold State.jobsLanded
  extract_lets -merge -useContext -underBinder +onlyGivenNames x1
  try clear_value x1
  refine Within.ite ?_ ?_
  · exact Within.refl _ _
  · refine Within.step ?_ (State.publishFinish_within _) rfl
    refine Within.fold ?_ (fun u x hu => ?_)
    · exact Within.refl _ _
    · refine Within.step ?_ (State.jobDone_within _ _) rfl
      exact hu

theorem State.waitingJobs_within (s : State) : Within [.plc] s (State.waitingJobs s) := by
  unfold State.waitingJobs
  refine Within.fold ?_ (fun u x hu => ?_)
  · exact Within.refl _ _
  · refine Within.step ?_ (State.jobDone_within _ _) rfl
    exact hu

theorem State.demote_within (s : State) (a1 : Nat) : Within [.mem, .plc] s (State.demote s a1) := by
  unfold State.demote
  extract_lets -merge -useContext -underBinder +onlyGivenNames x1
  try clear_value x1
  extract_lets -merge -useContext -underBinder +onlyGivenNames x2
  try clear_value x2
  extract_lets -merge -useContext -underBinder +onlyGivenNames x3
  try clear_value x3
  extract_lets -merge -useContext -underBinder +onlyGivenNames x4
  extract_lets -merge -useContext -underBinder +onlyGivenNames x5
  have hx5 : Within [.mem, .plc] s x5 := by
    unfold x5
    refine Within.step ?_ (Within.set_mem _ _ rfl) rfl
    exact Within.refl _ _
  try clear_value x5
  refine Within.step ?_ (State.modEntry_within _ _ _) rfl
  assumption

theorem State.promote_within (s : State) (a1 : Nat) : Within [.plc] s (State.promote s a1) := by
  unfold State.promote
  extract_lets -merge -useContext -underBinder +onlyGivenNames x1
  try clear_value x1
  refine Within.step ?_ (State.modPlc_within _ _) rfl
  exact Within.refl _ _

theorem State.makeSpace_within (s : State) (a1 : Nat) (a2 : Nat) {t : State} (h : State.makeSpace s a1 a2 = some t) :
    Within [.mem, .plc] s t := by
  induction a2 generalizing s with
  | zero => cases h
  | succ k ih =>
    unfold State.makeSpace at h
    split at h
    · cases h; exact Within.refl _ _
    · split at h
      · cases h
      · split at h
        · exact ((State.demote_within s _).mono rfl).step (ih _ h) rfl
        · cases h

theorem State.consider_within (s : State) (a1 : Nat) : Within [.mem, .plc] s (State.consider s a1) := by
  unfold State.consider
  refine Within.ite (Within.refl _ _) ?_
  split
  · exact Within.refl _ _
  · rename_i h
    exact (State.makeSpace_within s _ _ h).step (State.promote_within _ _) rfl

theorem execLuthierReevaluate_within (s : State) {t : State} (h : execLuthierReevaluate s = .next t) : Within [.mem, .plc] s t := by
  unfold execLuthierReevaluate at h
  refine Within.guarded ?_ h
  refine Within.ite ?_ ?_
  · exact Within.refl _ _
  · extract_lets -merge -useContext -underBinder +onlyGivenNames x1
    have hx1 : Within [.mem, .plc] s x1 := by
      unfold x1
      refine Within.step ?_ (State.waitingJobs_within _) rfl
      exact Within.refl _ _
    try clear_value x1
    extract_lets -merge -useContext -underBinder +onlyGivenNames x2
    try clear_value x2
    extract_lets -merge -useContext -underBinder +onlyGivenNames x3
    have hx3 : Within [.mem, .plc] s x3 := by
      unfold x3
      refine Within.fold ?_ (fun u x hu => ?_)
      · assumption
      · refine Within.step ?_ (State.consider_within _ _) rfl
        exact hu
    try clear_value x3
    refine Within.step ?_ (State.modPlc_within _ _) rfl
    assumption

theorem State.capoTick_within (s : State) : Within [.plc] s (State.capoTick s) := by
  unfold State.capoTick
  extract_lets -merge -useContext -underBinder +onlyGivenNames x1
  try clear_value x1
  refine Within.ite ?_ ?_
  · refine Within.step ?_ (State.modPlc_within _ _) rfl
    exact Within.refl _ _
  · refine Within.step ?_ (State.modPlc_within _ _) rfl
    exact Within.refl _ _

theorem execCapoStaticSwitch_within (s : State) {t : State} (h : execCapoStaticSwitch s = .next t) : Within [.plc] s t := by
  unfold execCapoStaticSwitch at h
  refine Within.guarded ?_ h
  extract_lets -merge -useContext -underBinder +onlyGivenNames x1
  try clear_value x1
  refine Within.ite ?_ ?_
  · refine Within.step ?_ (State.modPlc_within _ _) rfl
    exact Within.refl _ _
  · exact Within.refl _ _

theorem execPubCntClr_within (s : State) {t : State} (h : execPubCntClr s = .next t) : Within [.ctr] s t := by
  unfold execPubCntClr at h
  refine Within.guarded ?_ h
  refine Within.step ?_ (State.clearCtrs_within _ _) rfl
  exact Within.refl _ _

theorem State.markNeeded_within (s : State) (a1 : Sys2Proof.Clu) : Within [.plc] s (State.markNeeded s a1) := by
  unfold State.markNeeded
  refine Within.ite ?_ ?_
  · refine Within.step ?_ (State.modPlc_within _ _) rfl
    exact Within.refl _ _
  · exact Within.refl _ _

theorem State.markAll_within (s : State) : Within [.plc] s (State.markAll s) := by
  unfold State.markAll
  refine Within.fold ?_ (fun u x hu => ?_)
  · exact Within.refl _ _
  · refine Within.step ?_ (State.markNeeded_within _ _) rfl
    exact hu

theorem State.bandAt_within (s : State) (a1 : Sys2Proof.Lane) (a2 : Nat) (a3 : BitVec 48) (a4 : Bool) : Within [.flg, .wl, .msix] s (State.bandAt s a1 a2 a3 a4) := by
  unfold State.bandAt
  extract_lets -merge -useContext -underBinder +onlyGivenNames x1
  try clear_value x1
  extract_lets -merge -useContext -underBinder +onlyGivenNames x2
  have hx2 : Within [.flg, .wl, .msix] s x2 := by
    unfold x2
    refine Within.ite ?_ ?_
    · exact Within.refl _ _
    · refine Within.step ?_ (State.modWl_within _ _ _) rfl
      exact Within.refl _ _
  try clear_value x2
  extract_lets -merge -useContext -underBinder +onlyGivenNames x3
  try clear_value x3
  extract_lets -merge -useContext -underBinder +onlyGivenNames x4
  try clear_value x4
  extract_lets -merge -useContext -underBinder +onlyGivenNames x5
  have hx5 : Within [.flg, .wl, .msix] s x5 := by
    unfold x5
    refine Within.step ?_ (State.setBitIf_within _ _ _ _) rfl
    assumption
  try clear_value x5
  refine Within.ite ?_ ?_
  · assumption
  · extract_lets -merge -useContext -underBinder +onlyGivenNames x6
    try clear_value x6
    refine Within.step ?_ (State.modWl_within _ _ _) rfl
    assumption

theorem State.modNco_within (s : State) (a1 : Sys2Proof.Lane) (a2 : Nco → Nco) : Within [.wl] s (State.modNco s a1 a2) := by
  unfold State.modNco
  refine Within.step ?_ (State.modWl_within _ _ _) rfl
  exact Within.refl _ _

theorem State.ncoRun_within (s : State) (a1 : Sys2Proof.Lane) (a2 : Nat) : Within [.flg, .wl, .msix] s (State.ncoRun s a1 a2) := by
  unfold State.ncoRun
  extract_lets -merge -useContext -underBinder +onlyGivenNames x1
  try clear_value x1
  refine Within.step ?_ (State.modNco_within _ _ _) rfl
  refine Within.step ?_ (State.bandAt_within _ _ _ _ _) rfl
  exact Within.refl _ _

theorem State.ncoSteps_within (s : State) (a1 : Sys2Proof.Lane) (a2 : Nat) (a3 : Nat) :
    Within [.flg, .wl, .msix] s (State.ncoSteps s a1 a2 a3) := by
  induction a3 generalizing s with
  | zero => exact Within.refl _ _
  | succ k ih =>
    unfold State.ncoSteps
    refine Within.ite (Within.refl _ _) ?_
    exact ((State.ncoRun_within s _ _).mono rfl).step (ih _) rfl

theorem State.ncoUpTo_within (s : State) (a1 : Sys2Proof.Lane) (a2 : Nat) : Within [.flg, .wl, .msix] s (State.ncoUpTo s a1 a2) := by
  unfold State.ncoUpTo
  extract_lets -merge -useContext -underBinder +onlyGivenNames x1
  try clear_value x1
  refine Within.ite ?_ ?_
  · exact Within.refl _ _
  · extract_lets -merge -useContext -underBinder +onlyGivenNames x2
    have hx2 : Within [.flg, .wl, .msix] s x2 := by
      unfold x2
      refine Within.ite ?_ ?_
      · refine Within.step ?_ (State.ncoRun_within _ _ _) rfl
        exact Within.refl _ _
      · refine Within.step ?_ (State.ncoSteps_within _ _ _ _) rfl
        exact Within.refl _ _
    try clear_value x2
    refine Within.step ?_ (State.modWl_within _ _ _) rfl
    assumption

theorem State.ncoSync_within (s : State) (a1 : Nat) (a2 : Sys2Proof.Lane) : Within [.flg, .wl, .msix] s (State.ncoSync s a1 a2) := by
  unfold State.ncoSync
  refine Within.step ?_ (State.ncoUpTo_within _ _ _) rfl
  exact Within.refl _ _

theorem State.ncoStepBase_within (s : State) (a1 : Int) : Within [.flg, .wl, .msix] s (State.ncoStepBase s a1) := by
  unfold State.ncoStepBase
  extract_lets -merge -useContext -underBinder +onlyGivenNames x1
  try clear_value x1
  refine Within.fold ?_ (fun u x hu => ?_)
  · exact Within.refl _ _
  · extract_lets -merge -useContext -underBinder +onlyGivenNames x2
    have hx2 : Within [.flg, .wl, .msix] s x2 := by
      unfold x2
      refine Within.step ?_ (State.ncoSync_within _ _ _) rfl
      assumption
    try clear_value x2
    extract_lets -merge -useContext -underBinder +onlyGivenNames x3
    try clear_value x3
    extract_lets -merge -useContext -underBinder +onlyGivenNames x4
    try clear_value x4
    refine Within.step ?_ (State.modWl_within _ _ _) rfl
    assumption

theorem State.snapTake_within (s : State) (a1 : Sys2Proof.Lane) (a2 : Nat) : Within [.wl] s (State.snapTake s a1 a2) := by
  unfold State.snapTake
  refine Within.step ?_ (State.modWl_within _ _ _) rfl
  exact Within.refl _ _

theorem State.snapAgain_within (s : State) (a1 : Sys2Proof.Lane) (a2 : Nat) : Within [.wl] s (State.snapAgain s a1 a2) := by
  unfold State.snapAgain
  refine Within.ite ?_ ?_
  · refine Within.step ?_ (State.snapTake_within _ _ _) rfl
    exact Within.refl _ _
  · exact Within.refl _ _

theorem State.ncoArm_within (s : State) (a1 : Sys2Proof.Lane) : Within [.flg, .wl, .msix] s (State.ncoArm s a1) := by
  unfold State.ncoArm
  extract_lets -merge -useContext -underBinder +onlyGivenNames x1
  try clear_value x1
  extract_lets -merge -useContext -underBinder +onlyGivenNames x2
  try clear_value x2
  extract_lets -merge -useContext -underBinder +onlyGivenNames x3
  try clear_value x3
  extract_lets -merge -useContext -underBinder +onlyGivenNames x4
  have hx4 : Within [.flg, .wl, .msix] s x4 := by
    unfold x4
    refine Within.step ?_ (State.modWl_within _ _ _) rfl
    exact Within.refl _ _
  try clear_value x4
  refine Within.step ?_ (State.snapAgain_within _ _ _) rfl
  refine Within.step ?_ (State.bandAt_within _ _ _ _ _) rfl
  assumption

theorem State.laneCmdEnd_within (s : State) (a1 : Sys2Proof.Lane) (a2 : Sys2Proof.Word) : Within [.cmd, .more] s (State.laneCmdEnd s a1 a2) := by
  unfold State.laneCmdEnd
  refine Within.step ?_ (State.cmdTake_within _ _ _) rfl
  exact Within.refl _ _

theorem State.laneGive_within (s : State) (a1 : Sys2Proof.Lane) (a2 : Sys2Proof.Word) : Within [.cmd, .more] s (State.laneGive s a1 a2) := by
  unfold State.laneGive
  refine Within.step ?_ (State.laneCmdEnd_within _ _ _) rfl
  exact Within.refl _ _

theorem State.takeSpan_within (s : State) (a1 : Sys2Proof.Lane) : Within [.eff, .flg, .wl, .msix] s (State.takeSpan s a1) := by
  unfold State.takeSpan
  extract_lets -merge -useContext -underBinder +onlyGivenNames x1
  try clear_value x1
  extract_lets -merge -useContext -underBinder +onlyGivenNames x2
  try clear_value x2
  extract_lets -merge -useContext -underBinder +onlyGivenNames x3
  try clear_value x3
  extract_lets -merge -useContext -underBinder +onlyGivenNames x4
  try clear_value x4
  extract_lets -merge -useContext -underBinder +onlyGivenNames x5
  try clear_value x5
  extract_lets -merge -useContext -underBinder +onlyGivenNames x6
  try clear_value x6
  extract_lets -merge -useContext -underBinder +onlyGivenNames x7
  have hx7 : Within [.eff, .flg, .wl, .msix] s x7 := by
    unfold x7
    refine Within.step ?_ (State.applyDue_within _ _ _) rfl
    exact Within.refl _ _
  try clear_value x7
  extract_lets -merge -useContext -underBinder +onlyGivenNames x8
  have hx8 : Within [.eff, .flg, .wl, .msix] s x8 := by
    unfold x8
    refine Within.step ?_ (State.setBitIf_within _ _ _ _) rfl
    assumption
  try clear_value x8
  extract_lets -merge -useContext -underBinder +onlyGivenNames x9
  have hx9 : Within [.eff, .flg, .wl, .msix] s x9 := by
    unfold x9
    refine Within.step ?_ (State.setBitIf_within _ _ _ _) rfl
    assumption
  try clear_value x9
  refine Within.step ?_ (State.modWl_within _ _ _) rfl
  assumption

theorem State.laneOff_within (s : State) (a1 : Sys2Proof.Lane) : Within [.cmd, .more, .wl] s (State.laneOff s a1) := by
  unfold State.laneOff
  refine Within.step ?_ (State.cmdDrop_within _ _ _) rfl
  refine Within.step ?_ (State.modWl_within _ _ _) rfl
  exact Within.refl _ _

theorem State.govJoin_within (s : State) (a1 : GovKind) (a2 : Sys2Proof.Lane) : Within [.gov] s (State.govJoin s a1 a2) := by
  unfold State.govJoin
  refine Within.step ?_ (Within.set_gov _ _) rfl
  exact Within.refl _ _

theorem State.laneDisarm_within (s : State) (a1 : Sys2Proof.Lane) : Within [.cmd, .more, .wl, .gov] s (State.laneDisarm s a1) := by
  unfold State.laneDisarm
  extract_lets -merge -useContext -underBinder +onlyGivenNames x1
  have hx1 : Within [.cmd, .more, .wl, .gov] s x1 := by
    unfold x1
    refine Within.step ?_ (State.modWl_within _ _ _) rfl
    exact Within.refl _ _
  try clear_value x1
  extract_lets -merge -useContext -underBinder +onlyGivenNames x2
  have hx2 : Within [.cmd, .more, .wl, .gov] s x2 := by
    unfold x2
    refine Within.step ?_ (State.laneCmdEnd_within _ _ _) rfl
    assumption
  try clear_value x2
  refine Within.ite ?_ ?_
  · refine Within.step ?_ (State.govJoin_within _ _ _) rfl
    refine Within.step ?_ (State.modWl_within _ _ _) rfl
    assumption
  · refine Within.step ?_ (State.laneCmdEnd_within _ _ _) rfl
    refine Within.step ?_ (State.laneOff_within _ _) rfl
    assumption

theorem State.lanesIdle_within (s : State) (a1 : Sys2Proof.Clu) : Within [.cmd, .more, .wl, .gov] s (State.lanesIdle s a1) := by
  unfold State.lanesIdle
  refine Within.fold ?_ (fun u x hu => ?_)
  · exact Within.refl _ _
  · refine Within.ite ?_ ?_
    · refine Within.step ?_ (State.laneDisarm_within _ _) rfl
      assumption
    · assumption

theorem State.lanesReset_within (s : State) : Within [.cmd, .more, .wl, .gov] s (State.lanesReset s) := by
  unfold State.lanesReset
  extract_lets -merge -useContext -underBinder +onlyGivenNames x1
  have hx1 : Within [.cmd, .more, .wl, .gov] s x1 := by
    unfold x1
    refine Within.fold ?_ (fun u x hu => ?_)
    · exact Within.refl _ _
    · extract_lets -merge -useContext -underBinder +onlyGivenNames x2
      have hx2 : Within [.cmd, .more, .wl, .gov] s x2 := by
        unfold x2
        refine Within.step ?_ (State.modWl_within _ _ _) rfl
        assumption
      try clear_value x2
      refine Within.step ?_ (State.modWl_within _ _ _) rfl
      refine Within.step ?_ (State.cmdDrop_within _ _ _) rfl
      refine Within.step ?_ (State.cmdDrop_within _ _ _) rfl
      refine Within.step ?_ (State.laneOff_within _ _) rfl
      assumption
  try clear_value x1
  refine Within.step ?_ (Within.set_gov _ _) rfl
  assumption

theorem State.ncoAdd_within (s : State) (a1 : Sys2Proof.Lane) (a2 : NcoAct) : Within [.wl] s (State.ncoAdd s a1 a2) := by
  unfold State.ncoAdd
  refine Within.step ?_ (State.modWl_within _ _ _) rfl
  exact Within.refl _ _

theorem State.ncoPlanAct_within (s : State) (a1 : Sys2Proof.Clu) (a2 : Nat) (a3 : Nat) (a4 : Nat) : Within [.wl] s (State.ncoPlanAct s a1 a2 a3 a4) := by
  unfold State.ncoPlanAct
  refine Within.fold ?_ (fun u x hu => ?_)
  · exact Within.refl _ _
  · extract_lets -merge -useContext -underBinder +onlyGivenNames x1
    try clear_value x1
    refine Within.ite ?_ ?_
    · assumption
    · refine Within.step ?_ (State.ncoAdd_within _ _ _) rfl
      assumption

theorem State.bandFollow_within (s : State) (a1 : Nat) (a2 : Sys2Proof.Lane) : Within [.flg, .wl, .msix] s (State.bandFollow s a1 a2) := by
  unfold State.bandFollow
  extract_lets -merge -useContext -underBinder +onlyGivenNames x1
  try clear_value x1
  refine Within.ite ?_ ?_
  · exact Within.refl _ _
  · refine Within.step ?_ (State.snapAgain_within _ _ _) rfl
    refine Within.step ?_ (State.bandAt_within _ _ _ _ _) rfl
    exact Within.refl _ _

theorem State.ncoLoadAct_within (s : State) (a1 : Sys2Proof.Lane) (a2 : Nat) : Within [.cmd, .more, .wl] s (State.ncoLoadAct s a1 a2) := by
  unfold State.ncoLoadAct
  refine Within.step ?_ (State.ncoAdd_within _ _ _) rfl
  refine Within.step ?_ (State.cmdTake_within _ _ _) rfl
  refine Within.step ?_ (State.modWl_within _ _ _) rfl
  exact Within.refl _ _

theorem State.ncoSegment_within (s : State) (a1 : Sys2Proof.Clu) (a2 : Nat) (a3 : BitVec 256) : Within [.cmd, .more, .wl] s (State.ncoSegment s a1 a2 a3) := by
  unfold State.ncoSegment
  extract_lets -merge -useContext -underBinder +onlyGivenNames x1
  have hx1 : Within [.cmd, .more, .wl] s x1 := by
    unfold x1
    refine Within.fold ?_ (fun u x hu => ?_)
    · exact Within.refl _ _
    · refine Within.ite ?_ ?_
      · refine Within.step ?_ (State.ncoLoadAct_within _ _ _) rfl
        assumption
      · assumption
  try clear_value x1
  refine Within.ite ?_ ?_
  · refine Within.step ?_ (State.ncoPlanAct_within _ _ _ _ _) rfl
    assumption
  · assumption

theorem State.ncoIdle_within (s : State) (a1 : Sys2Proof.Clu) : Within [.wl] s (State.ncoIdle s a1) := by
  unfold State.ncoIdle
  refine Within.fold ?_ (fun u x hu => ?_)
  · exact Within.refl _ _
  · refine Within.step ?_ (State.modWl_within _ _ _) rfl
    assumption

theorem State.crowd_within (s : State) (a1 : Sys2Proof.Pg) (a2 : Nat) : Within [.flg, .ctr, .msix] s (State.crowd s a1 a2) := by
  unfold State.crowd
  refine Within.step ?_ (State.setBit_within _ _ _) rfl
  refine Within.step ?_ (State.count_within _ _ _) rfl
  exact Within.refl _ _

theorem State.ddEdge_within (s : State) (a1 : Sys2Proof.Pg) (a2 : Fin 16) (a3 : Edge) : Within [.flg, .ctr, .pin, .msix] s (State.ddEdge s a1 a2 a3) := by
  unfold State.ddEdge
  extract_lets -merge -useContext -underBinder +onlyGivenNames x1
  try clear_value x1
  extract_lets -merge -useContext -underBinder +onlyGivenNames x2
  try clear_value x2
  extract_lets -merge -useContext -underBinder +onlyGivenNames x3
  have hx3 : Within [.flg, .ctr, .pin, .msix] s x3 := by
    unfold x3
    refine Within.step ?_ (State.modPin_within _ _ _) rfl
    exact Within.refl _ _
  try clear_value x3
  refine Within.ite ?_ ?_
  · refine Within.step ?_ (State.crowd_within _ _ _) rfl
    assumption
  · assumption

theorem State.deEdge_within (s : State) (a1 : Sys2Proof.Pg) (a2 : Fin 16) (a3 : Edge) : Within [.flg, .ctr, .pin, .msix] s (State.deEdge s a1 a2 a3) := by
  unfold State.deEdge
  extract_lets -merge -useContext -underBinder +onlyGivenNames x1
  try clear_value x1
  extract_lets -merge -useContext -underBinder +onlyGivenNames x2
  try clear_value x2
  extract_lets -merge -useContext -underBinder +onlyGivenNames x3
  have hx3 : Within [.flg, .ctr, .pin, .msix] s x3 := by
    unfold x3
    refine Within.step ?_ (State.modPin_within _ _ _) rfl
    exact Within.refl _ _
  try clear_value x3
  refine Within.ite ?_ ?_
  · refine Within.step ?_ (State.crowd_within _ _ _) rfl
    assumption
  · assumption

theorem State.logVector_within (s : State) (a1 : Sys2Proof.Pg) (a2 : VecOpen) : Within [.flg, .ctr, .pg, .msix] s (State.logVector s a1 a2) := by
  unfold State.logVector
  extract_lets -merge -useContext -underBinder +onlyGivenNames x1
  try clear_value x1
  extract_lets -merge -useContext -underBinder +onlyGivenNames x2
  try clear_value x2
  refine Within.ite ?_ ?_
  · exact Within.refl _ _
  · extract_lets -merge -useContext -underBinder +onlyGivenNames x3
    have hx3 : Within [.flg, .ctr, .pg, .msix] s x3 := by
      unfold x3
      refine Within.step ?_ (State.modPg_within _ _ _) rfl
      exact Within.refl _ _
    try clear_value x3
    refine Within.ite ?_ ?_
    · refine Within.step ?_ (State.setBit_within _ _ _) rfl
      refine Within.step ?_ (State.count_within _ _ _) rfl
      assumption
    · refine Within.step ?_ (State.modPg_within _ _ _) rfl
      assumption

theorem State.takeFf_within (s : State) (a1 : Sys2Proof.Pg) (a2 : FirstFail) : Within [.flg, .pg, .msix] s (State.takeFf s a1 a2) := by
  unfold State.takeFf
  refine Within.step ?_ (State.setBit_within _ _ _) rfl
  refine Within.step ?_ (State.modPg_within _ _ _) rfl
  exact Within.refl _ _

theorem State.closeVector_within (s : State) (a1 : Sys2Proof.Pg) (a2 : VecOpen) : Within [.flg, .ctr, .pg, .msix] s (State.closeVector s a1 a2) := by
  unfold State.closeVector
  extract_lets -merge -useContext -underBinder +onlyGivenNames x1
  extract_lets -merge -useContext -underBinder +onlyGivenNames x2
  have hx2 : Within [.flg, .ctr, .pg, .msix] s x2 := by
    unfold x2
    refine Within.step ?_ (State.modPg_within _ _ _) rfl
    exact Within.refl _ _
  extract_lets -merge -useContext -underBinder +onlyGivenNames x3
  have hx3 : Within [.flg, .ctr, .pg, .msix] s x3 := by
    unfold x3
    split
    · refine Within.ite ?_ ?_
      · exact Within.refl _ _
      · assumption
    · assumption
  extract_lets -merge -useContext -underBinder +onlyGivenNames x4
  have hx4 : Within [.flg, .ctr, .pg, .msix] s x4 := by
    unfold x4
    refine Within.ite ?_ ?_
    · exact Within.refl _ _
    · refine Within.ite ?_ ?_
      · refine Within.step ?_ (State.takeFf_within _ _ _) rfl
        assumption
      · assumption
  try clear_value x4
  refine Within.step ?_ (State.logVector_within _ _ _) rfl
  assumption

theorem State.closeVectors_within (s : State) (a1 : Sys2Proof.Pg) : Within [.flg, .ctr, .pg, .msix] s (State.closeVectors s a1) := by
  unfold State.closeVectors
  extract_lets -merge -useContext -underBinder +onlyGivenNames x1
  try clear_value x1
  refine Within.fold ?_ (fun u x hu => ?_)
  · refine Within.step ?_ (State.modPg_within _ _ _) rfl
    exact Within.refl _ _
  · refine Within.step ?_ (State.closeVector_within _ _ _) rfl
    assumption

theorem State.cutGroup_within (s : State) (a1 : Sys2Proof.Pg) (a2 : Nat) (a3 : Nat → Bool) : Within [.flg, .ctr, .pg, .pin, .msix] s (State.cutGroup s a1 a2 a3) := by
  unfold State.cutGroup
  extract_lets -merge -useContext -underBinder +onlyGivenNames x1
  have hx1 : Within [.flg, .ctr, .pg, .pin, .msix] s x1 := by
    unfold x1
    refine Within.fold ?_ (fun u x hu => ?_)
    · exact Within.refl _ _
    · refine Within.step ?_ (State.modPin_within _ _ _) rfl
      assumption
  try clear_value x1
  refine Within.step ?_ (State.closeVectors_within _ _) rfl
  refine Within.step ?_ (State.modPg_within _ _ _) rfl
  assumption

theorem State.cutGroups_within (s : State) (a1 : Sys2Proof.Clu) (a2 : Nat) : Within [.flg, .ctr, .pg, .pin, .msix] s (State.cutGroups s a1 a2) := by
  unfold State.cutGroups
  refine Within.fold ?_ (fun u x hu => ?_)
  · exact Within.refl _ _
  · refine Within.ite ?_ ?_
    · refine Within.step ?_ (State.cutGroup_within _ _ _ _) rfl
      assumption
    · assumption

theorem State.parkPin_within (s : State) (a1 : Sys2Proof.Pg) (a2 : Fin 16) (a3 : Nat) : Within [.flg, .ctr, .pin, .msix] s (State.parkPin s a1 a2 a3) := by
  unfold State.parkPin
  refine Within.step ?_ (State.ddEdge_within _ _ _ _) rfl
  refine Within.step ?_ (State.deEdge_within _ _ _ _) rfl
  exact Within.refl _ _

theorem State.parkGroups_within (s : State) (a1 : Sys2Proof.Clu) (a2 : Nat) : Within [.flg, .ctr, .pg, .pin, .msix] s (State.parkGroups s a1 a2) := by
  unfold State.parkGroups
  refine Within.fold ?_ (fun u x hu => ?_)
  · exact Within.refl _ _
  · refine Within.fold ?_ (fun u x hu => ?_)
    · refine Within.step ?_ (State.cutGroup_within _ _ _ _) rfl
      assumption
    · refine Within.step ?_ (State.parkPin_within _ _ _ _) rfl
      assumption

theorem State.noteSets_within (s : State) (a1 : Sys2Proof.Pg) : Within [.pg] s (State.noteSets s a1) := by
  unfold State.noteSets
  refine Within.ite ?_ ?_
  · refine Within.step ?_ (State.modPg_within _ _ _) rfl
    exact Within.refl _ _
  · exact Within.refl _ _

theorem State.copyTset_within (s : State) (a1 : Sys2Proof.Pg) : Within [.tabs, .pg] s (State.copyTset s a1) := by
  unfold State.copyTset
  extract_lets -merge -useContext -underBinder +onlyGivenNames x1
  have hx1 : Within [.tabs, .pg] s x1 := by
    unfold x1
    refine Within.step ?_ (State.noteSets_within _ _) rfl
    exact Within.refl _ _
  try clear_value x1
  refine Within.step ?_ (Within.set_tabs _ _) rfl
  assumption

theorem State.tcalAbort_within (s : State) (a1 : Sys2Proof.Pg) : Within [.flg, .cmd, .more, .pg, .msix] s (State.tcalAbort s a1) := by
  unfold State.tcalAbort
  refine Within.ite ?_ ?_
  · refine Within.step ?_ (State.cmdTake_within _ _ _) rfl
    refine Within.step ?_ (State.setBit_within _ _ _) rfl
    refine Within.step ?_ (State.modPg_within _ _ _) rfl
    exact Within.refl _ _
  · exact Within.refl _ _

theorem State.dropJump_within (s : State) (a1 : Sys2Proof.Clu) : Within [.flg, .ctr, .clu, .msix, .plc] s (State.dropJump s a1) := by
  unfold State.dropJump
  extract_lets -merge -useContext -underBinder +onlyGivenNames x1
  have hx1 : Within [.flg, .ctr, .clu, .msix, .plc] s x1 := by
    unfold x1
    refine Within.step ?_ (State.modClu_within _ _ _) rfl
    refine Within.step ?_ (State.markNeeded_within _ _) rfl
    exact Within.refl _ _
  try clear_value x1
  refine Within.step ?_ (State.setBit_within _ _ _) rfl
  refine Within.step ?_ (State.count_within _ _ _) rfl
  assumption

theorem State.cancelJump_within (s : State) (a1 : Sys2Proof.Clu) (a2 : Bool) : Within [.flg, .ctr, .clu, .msix, .plc] s (State.cancelJump s a1 a2) := by
  unfold State.cancelJump
  split
  · exact Within.refl _ _
  · refine Within.ite ?_ ?_
    · exact Within.refl _ _
    · refine Within.step ?_ (State.dropJump_within _ _) rfl
      exact Within.refl _ _

theorem State.idleEffects_within (s : State) (a1 : Sys2Proof.Clu) : Within [.eff, .flg, .ctr, .cmd, .more, .tabs, .clu, .wl, .gov, .pg, .host, .msix] s (State.idleEffects s a1) := by
  unfold State.idleEffects
  extract_lets -merge -useContext -underBinder +onlyGivenNames x1
  try clear_value x1
  extract_lets -merge -useContext -underBinder +onlyGivenNames x2
  have hx2 : Within [.eff, .flg, .ctr, .cmd, .more, .tabs, .clu, .wl, .gov, .pg, .host, .msix] s x2 := by
    unfold x2
    refine Within.fold ?_ (fun u x hu => ?_)
    · exact Within.refl _ _
    · refine Within.step ?_ (State.ncoSync_within _ _ _) rfl
      assumption
  try clear_value x2
  extract_lets -merge -useContext -underBinder +onlyGivenNames x3
  have hx3 : Within [.eff, .flg, .ctr, .cmd, .more, .tabs, .clu, .wl, .gov, .pg, .host, .msix] s x3 := by
    unfold x3
    refine Within.step ?_ (State.releaseObject_within _ _) rfl
    assumption
  try clear_value x3
  extract_lets -merge -useContext -underBinder +onlyGivenNames x4
  have hx4 : Within [.eff, .flg, .ctr, .cmd, .more, .tabs, .clu, .wl, .gov, .pg, .host, .msix] s x4 := by
    unfold x4
    refine Within.step ?_ (State.applyIdle_within _ _) rfl
    assumption
  try clear_value x4
  extract_lets -merge -useContext -underBinder +onlyGivenNames x5
  have hx5 : Within [.eff, .flg, .ctr, .cmd, .more, .tabs, .clu, .wl, .gov, .pg, .host, .msix] s x5 := by
    unfold x5
    refine Within.fold ?_ (fun u x hu => ?_)
    · assumption
    · refine Within.step ?_ (State.copyTset_within _ _) rfl
      exact hu
  try clear_value x5
  extract_lets -merge -useContext -underBinder +onlyGivenNames x6
  have hx6 : Within [.eff, .flg, .ctr, .cmd, .more, .tabs, .clu, .wl, .gov, .pg, .host, .msix] s x6 := by
    unfold x6
    refine Within.fold ?_ (fun u x hu => ?_)
    · assumption
    · refine Within.step ?_ (State.bandFollow_within _ _ _) rfl
      assumption
  try clear_value x6
  refine Within.step ?_ (State.lanesIdle_within _ _) rfl
  refine Within.step ?_ (State.ncoIdle_within _ _) rfl
  assumption

theorem State.stopCluster_within (s : State) (a1 : Sys2Proof.Clu) (a2 : Nat) (a3 : Nat) : Within [.eff, .flg, .ctr, .cmd, .more, .tabs, .clu, .wl, .gov, .pg, .pin, .host, .msix, .plc] s (State.stopCluster s a1 a2 a3) := by
  unfold State.stopCluster
  extract_lets -merge -useContext -underBinder +onlyGivenNames x1
  try clear_value x1
  extract_lets -merge -useContext -underBinder +onlyGivenNames x2
  have hx2 : Within [.eff, .flg, .ctr, .cmd, .more, .tabs, .clu, .wl, .gov, .pg, .pin, .host, .msix, .plc] s x2 := by
    unfold x2
    refine Within.step ?_ (State.parkGroups_within _ _ _) rfl
    refine Within.step ?_ (State.cutGroups_within _ _ _) rfl
    refine Within.step ?_ (State.markNeeded_within _ _) rfl
    exact Within.refl _ _
  try clear_value x2
  extract_lets -merge -useContext -underBinder +onlyGivenNames x3
  have hx3 : Within [.eff, .flg, .ctr, .cmd, .more, .tabs, .clu, .wl, .gov, .pg, .pin, .host, .msix, .plc] s x3 := by
    unfold x3
    refine Within.step ?_ (State.cancelJump_within _ _ _) rfl
    assumption
  try clear_value x3
  extract_lets -merge -useContext -underBinder +onlyGivenNames x4
  have hx4 : Within [.eff, .flg, .ctr, .cmd, .more, .tabs, .clu, .wl, .gov, .pg, .pin, .host, .msix, .plc] s x4 := by
    unfold x4
    refine Within.step ?_ (State.modClu_within _ _ _) rfl
    assumption
  try clear_value x4
  refine Within.step ?_ (State.setBitIf_within _ _ _ _) rfl
  refine Within.step ?_ (State.idleEffects_within _ _) rfl
  assumption

theorem State.pulseLine_within (s : State) (a1 : Sys2Proof.Clu) (a2 : Fin 8) (a3 : Nat) : Within [.trg, .flg, .brg, .msix] s (State.pulseLine s a1 a2 a3) := by
  unfold State.pulseLine
  extract_lets -merge -useContext -underBinder +onlyGivenNames x1
  try clear_value x1
  extract_lets -merge -useContext -underBinder +onlyGivenNames x2
  have hx2 : Within [.trg, .flg, .brg, .msix] s x2 := by
    unfold x2
    refine Within.step ?_ (State.setBitIf_within _ _ _ _) rfl
    exact Within.refl _ _
  try clear_value x2
  extract_lets -merge -useContext -underBinder +onlyGivenNames x3
  have hx3 : Within [.trg, .flg, .brg, .msix] s x3 := by
    unfold x3
    refine Within.step ?_ (Within.set_trg _ _) rfl
    assumption
  try clear_value x3
  refine Within.step ?_ (State.fire_within _ _ _) rfl
  assumption

theorem execTriggerPulseEnd_within (a0 : Fin 8) (s : State) {t : State} (h : execTriggerPulseEnd a0 s = .next t) : Within [.clk, .trg] s t := by
  unfold execTriggerPulseEnd at h
  refine Within.guarded ?_ h
  split
  · exact Within.refl _ _
  · extract_lets -merge -useContext -underBinder +onlyGivenNames x1
    have hx1 : Within [.clk, .trg] s x1 := by
      unfold x1
      refine Within.step ?_ (State.upto_within _ _) rfl
      exact Within.refl _ _
    try clear_value x1
    refine Within.step ?_ (Within.set_trg _ _) rfl
    assumption

theorem State.startPlay_within (s : State) (a1 : Sys2Proof.Clu) (a2 : Nat) : Within [.clk, .trg, .eff, .flg, .cmd, .more, .clu, .wl, .pg, .brg, .msix, .plc] s (State.startPlay s a1 a2) := by
  unfold State.startPlay
  extract_lets -merge -useContext -underBinder +onlyGivenNames x1
  try clear_value x1
  extract_lets -merge -useContext -underBinder +onlyGivenNames x2
  try clear_value x2
  extract_lets -merge -useContext -underBinder +onlyGivenNames x3
  try clear_value x3
  extract_lets -merge -useContext -underBinder +onlyGivenNames x4
  have hx4 : Within [.clk, .trg, .eff, .flg, .cmd, .more, .clu, .wl, .pg, .brg, .msix, .plc] s x4 := by
    unfold x4
    refine Within.step ?_ (State.upto_within _ _) rfl
    exact Within.refl _ _
  try clear_value x4
  extract_lets -merge -useContext -underBinder +onlyGivenNames x5
  have hx5 : Within [.clk, .trg, .eff, .flg, .cmd, .more, .clu, .wl, .pg, .brg, .msix, .plc] s x5 := by
    unfold x5
    refine Within.fold ?_ (fun u x hu => ?_)
    · assumption
    · refine Within.step ?_ (State.ncoSync_within _ _ _) rfl
      assumption
  try clear_value x5
  extract_lets -merge -useContext -underBinder +onlyGivenNames x6
  have hx6 : Within [.clk, .trg, .eff, .flg, .cmd, .more, .clu, .wl, .pg, .brg, .msix, .plc] s x6 := by
    unfold x6
    refine Within.step ?_ (State.applyWhere_within _ _) rfl
    assumption
  try clear_value x6
  extract_lets -merge -useContext -underBinder +onlyGivenNames x7
  have hx7 : Within [.clk, .trg, .eff, .flg, .cmd, .more, .clu, .wl, .pg, .brg, .msix, .plc] s x7 := by
    unfold x7
    refine Within.step ?_ (State.modClu_within _ _ _) rfl
    assumption
  try clear_value x7
  extract_lets -merge -useContext -underBinder +onlyGivenNames x8
  have hx8 : Within [.clk, .trg, .eff, .flg, .cmd, .more, .clu, .wl, .pg, .brg, .msix, .plc] s x8 := by
    unfold x8
    refine Within.step ?_ (State.modEntry_within _ _ _) rfl
    assumption
  try clear_value x8
  extract_lets -merge -useContext -underBinder +onlyGivenNames x9
  have hx9 : Within [.clk, .trg, .eff, .flg, .cmd, .more, .clu, .wl, .pg, .brg, .msix, .plc] s x9 := by
    unfold x9
    refine Within.fold ?_ (fun u x hu => ?_)
    · assumption
    · refine Within.step ?_ (State.modPg_within _ _ _) rfl
      assumption
  try clear_value x9
  extract_lets -merge -useContext -underBinder +onlyGivenNames x10
  try clear_value x10
  extract_lets -merge -useContext -underBinder +onlyGivenNames x11
  have hx11 : Within [.clk, .trg, .eff, .flg, .cmd, .more, .clu, .wl, .pg, .brg, .msix, .plc] s x11 := by
    unfold x11
    refine Within.ite ?_ ?_
    · refine Within.fold ?_ (fun u x hu => ?_)
      · assumption
      · refine Within.step ?_ (State.pulseLine_within _ _ _ _) rfl
        assumption
    · assumption
  try clear_value x11
  extract_lets -merge -useContext -underBinder +onlyGivenNames x12
  have hx12 : Within [.clk, .trg, .eff, .flg, .cmd, .more, .clu, .wl, .pg, .brg, .msix, .plc] s x12 := by
    unfold x12
    refine Within.step ?_ (State.ncoSegment_within _ _ _ _) rfl
    assumption
  try clear_value x12
  refine Within.step ?_ (State.markNeeded_within _ _) rfl
  refine Within.fold ?_ (fun u x hu => ?_)
  · assumption
  · refine Within.step ?_ (State.bandFollow_within _ _ _) rfl
    assumption

theorem State.seqFault_within (s : State) (a1 : Sys2Proof.Clu) (a2 : Nat) (a3 : BitVec 17) (a4 : Nat) : Within [.clk, .eff, .flg, .ctr, .cmd, .more, .tabs, .clu, .wl, .gov, .pg, .pin, .host, .msix, .flt, .plc] s (State.seqFault s a1 a2 a3 a4) := by
  unfold State.seqFault
  extract_lets -merge -useContext -underBinder +onlyGivenNames x1
  have hx1 : Within [.clk, .eff, .flg, .ctr, .cmd, .more, .tabs, .clu, .wl, .gov, .pg, .pin, .host, .msix, .flt, .plc] s x1 := by
    unfold x1
    refine Within.step ?_ (State.upto_within _ _) rfl
    exact Within.refl _ _
  try clear_value x1
  extract_lets -merge -useContext -underBinder +onlyGivenNames x2
  have hx2 : Within [.clk, .eff, .flg, .ctr, .cmd, .more, .tabs, .clu, .wl, .gov, .pg, .pin, .host, .msix, .flt, .plc] s x2 := by
    unfold x2
    refine Within.step ?_ (State.modClu_within _ _ _) rfl
    assumption
  try clear_value x2
  extract_lets -merge -useContext -underBinder +onlyGivenNames x3
  have hx3 : Within [.clk, .eff, .flg, .ctr, .cmd, .more, .tabs, .clu, .wl, .gov, .pg, .pin, .host, .msix, .flt, .plc] s x3 := by
    unfold x3
    refine Within.step ?_ (State.report_within _ _) rfl
    assumption
  try clear_value x3
  refine Within.step ?_ (State.stopCluster_within _ _ _ _) rfl
  assumption

theorem State.playEntry_within (s : State) (a1 : Sys2Proof.Clu) (a2 : BitVec 17) (a3 : BitVec 256) (a4 : List Frame) (a5 : Nat) : Within [.clk, .trg, .eff, .flg, .cmd, .more, .clu, .wl, .pg, .brg, .host, .msix, .plc] s (State.playEntry s a1 a2 a3 a4 a5) := by
  unfold State.playEntry
  extract_lets -merge -useContext -underBinder +onlyGivenNames x1
  have hx1 : Within [.clk, .trg, .eff, .flg, .cmd, .more, .clu, .wl, .pg, .brg, .host, .msix, .plc] s x1 := by
    unfold x1
    refine Within.step ?_ (State.modClu_within _ _ _) rfl
    refine Within.step ?_ (State.upto_within _ _) rfl
    exact Within.refl _ _
  try clear_value x1
  refine Within.step ?_ (State.startPlay_within _ _ _) rfl
  refine Within.step ?_ (State.takeObject_within _ _ _) rfl
  assumption

theorem State.commit_within (s : State) (a1 : Sys2Proof.Clu) (a2 : BitVec 17) (a3 : Bool) (a4 : List Frame) (a5 : Nat) : Within [.clk, .trg, .eff, .flg, .ctr, .cmd, .more, .tabs, .clu, .wl, .gov, .pg, .pin, .brg, .host, .msix, .flt, .plc] s (State.commit s a1 a2 a3 a4 a5) := by
  unfold State.commit
  extract_lets -merge -useContext -underBinder +onlyGivenNames x1
  try clear_value x1
  refine Within.ite ?_ ?_
  · refine Within.step ?_ (State.seqFault_within _ _ _ _ _) rfl
    exact Within.refl _ _
  · extract_lets -merge -useContext -underBinder +onlyGivenNames x2
    try clear_value x2
    split
    · refine Within.step ?_ (State.seqFault_within _ _ _ _ _) rfl
      refine Within.step ?_ (State.modClu_within _ _ _) rfl
      exact Within.refl _ _
    · refine Within.step ?_ (State.playEntry_within _ _ _ _ _ _) rfl
      refine Within.step ?_ (State.modClu_within _ _ _) rfl
      exact Within.refl _ _

theorem State.leave_within (s : State) (a1 : Sys2Proof.Clu) (a2 : Nat) : Within [.clk, .trg, .eff, .flg, .ctr, .cmd, .more, .tabs, .clu, .wl, .gov, .pg, .pin, .brg, .host, .msix, .flt, .plc] s (State.leave s a1 a2) := by
  unfold State.leave
  extract_lets -merge -useContext -underBinder +onlyGivenNames x1
  try clear_value x1
  extract_lets -merge -useContext -underBinder +onlyGivenNames x2
  try clear_value x2
  extract_lets -merge -useContext -underBinder +onlyGivenNames x3
  have hx3 : Within [.clk, .trg, .eff, .flg, .ctr, .cmd, .more, .tabs, .clu, .wl, .gov, .pg, .pin, .brg, .host, .msix, .flt, .plc] s x3 := by
    unfold x3
    refine Within.ite ?_ ?_
    · refine Within.step ?_ (State.setBit_within _ _ _) rfl
      refine Within.step ?_ (Within.set_ctr _ _ (smWf_mod _ _ _ _)) rfl
      exact Within.refl _ _
    · exact Within.refl _ _
  try clear_value x3
  extract_lets -merge -useContext -underBinder +onlyGivenNames x4
  have hx4 : Within [.clk, .trg, .eff, .flg, .ctr, .cmd, .more, .tabs, .clu, .wl, .gov, .pg, .pin, .brg, .host, .msix, .flt, .plc] s x4 := by
    unfold x4
    refine Within.step ?_ (State.releaseObject_within _ _) rfl
    refine Within.step ?_ (State.markNeeded_within _ _) rfl
    assumption
  try clear_value x4
  extract_lets -merge -useContext -underBinder +onlyGivenNames x5
  have hx5 : Within [.clk, .trg, .eff, .flg, .ctr, .cmd, .more, .tabs, .clu, .wl, .gov, .pg, .pin, .brg, .host, .msix, .flt, .plc] s x5 := by
    unfold x5
    refine Within.step ?_ (State.modClu_within _ _ _) rfl
    assumption
  try clear_value x5
  split
  · refine Within.step ?_ (State.stopCluster_within _ _ _ _) rfl
    assumption
  · refine Within.step ?_ (State.commit_within _ _ _ _ _ _) rfl
    assumption

theorem State.again_within (s : State) (a1 : Sys2Proof.Clu) (a2 : Nat) : Within [.clk, .trg, .eff, .flg, .cmd, .more, .clu, .wl, .pg, .brg, .msix, .plc] s (State.again s a1 a2) := by
  unfold State.again
  refine Within.step ?_ (State.startPlay_within _ _ _) rfl
  exact Within.refl _ _

theorem State.raiseMatch_within (s : State) (a1 : Sys2Proof.Clu) (a2 : Bool) (a3 : Nat) : Within [.flg, .clu, .brg] s (State.raiseMatch s a1 a2 a3) := by
  unfold State.raiseMatch
  extract_lets -merge -useContext -underBinder +onlyGivenNames x1
  have hx1 : Within [.flg, .clu, .brg] s x1 := by
    unfold x1
    refine Within.step ?_ (State.fire_within _ _ _) rfl
    exact Within.refl _ _
  try clear_value x1
  extract_lets -merge -useContext -underBinder +onlyGivenNames x2
  try clear_value x2
  refine Within.step ?_ (State.modClu_within _ _ _) rfl
  assumption

theorem State.playOutStep_within (s : State) (a1 : Sys2Proof.Clu) (a2 : Nat) : Within [.clk, .trg, .eff, .flg, .ctr, .cmd, .more, .clu, .wl, .pg, .brg, .msix, .plc] s (State.playOutStep s a1 a2) := by
  unfold State.playOutStep
  extract_lets -merge -useContext -underBinder +onlyGivenNames x1
  try clear_value x1
  extract_lets -merge -useContext -underBinder +onlyGivenNames x2
  try clear_value x2
  refine Within.ite ?_ ?_
  · refine Within.step ?_ (State.startPlay_within _ _ _) rfl
    exact Within.refl _ _
  · extract_lets -merge -useContext -underBinder +onlyGivenNames x3
    try clear_value x3
    split
    · refine Within.step ?_ (State.cancelJump_within _ _ _) rfl
      exact Within.refl _ _
    · refine Within.ite ?_ ?_
      · refine Within.step ?_ (State.cancelJump_within _ _ _) rfl
        exact Within.refl _ _
      · extract_lets -merge -useContext -underBinder +onlyGivenNames x4
        try clear_value x4
        extract_lets -merge -useContext -underBinder +onlyGivenNames x5
        have hx5 : Within [.clk, .trg, .eff, .flg, .ctr, .cmd, .more, .clu, .wl, .pg, .brg, .msix, .plc] s x5 := by
          unfold x5
          refine Within.step ?_ (State.modClu_within _ _ _) rfl
          exact Within.refl _ _
        try clear_value x5
        refine Within.step ?_ (State.startPlay_within _ _ _) rfl
        assumption

theorem State.takeJump_within (s : State) (a1 : Sys2Proof.Clu) (a2 : Sched) (a3 : Nat) : Within [.clk, .trg, .eff, .flg, .ctr, .cmd, .more, .tabs, .clu, .wl, .gov, .pg, .pin, .brg, .host, .msix, .flt, .plc] s (State.takeJump s a1 a2 a3) := by
  unfold State.takeJump
  extract_lets -merge -useContext -underBinder +onlyGivenNames x1
  try clear_value x1
  extract_lets -merge -useContext -underBinder +onlyGivenNames x2
  have hx2 : ∀ u, Within [.clk, .trg, .eff, .flg, .ctr, .cmd, .more, .tabs, .clu, .wl, .gov, .pg, .pin, .brg, .host, .msix, .flt, .plc] s u → Within [.clk, .trg, .eff, .flg, .ctr, .cmd, .more, .tabs, .clu, .wl, .gov, .pg, .pin, .brg, .host, .msix, .flt, .plc] s (x2 u) := by
    intro u hu
    unfold x2
    refine Within.step ?_ (State.setBit_within _ _ _) rfl
    refine Within.step ?_ (State.count_within _ _ _) rfl
    refine Within.step ?_ (State.modClu_within _ _ _) rfl
    assumption
  try clear_value x2
  extract_lets -merge -useContext -underBinder +onlyGivenNames x3
  have hx3 : ∀ u, Within [.clk, .trg, .eff, .flg, .ctr, .cmd, .more, .tabs, .clu, .wl, .gov, .pg, .pin, .brg, .host, .msix, .flt, .plc] s u → Within [.clk, .trg, .eff, .flg, .ctr, .cmd, .more, .tabs, .clu, .wl, .gov, .pg, .pin, .brg, .host, .msix, .flt, .plc] s (x3 u) := by
    intro u hu
    unfold x3
    refine Within.step ?_ (State.modEntry_within _ _ _) rfl
    assumption
  try clear_value x3
  extract_lets -merge -useContext -underBinder +onlyGivenNames x4
  try clear_value x4
  extract_lets -merge -useContext -underBinder +onlyGivenNames x5
  have hx5 : Within [.clk, .trg, .eff, .flg, .ctr, .cmd, .more, .tabs, .clu, .wl, .gov, .pg, .pin, .brg, .host, .msix, .flt, .plc] s x5 := by
    unfold x5
    refine Within.step ?_ (State.markNeeded_within _ _) rfl
    refine Within.step ?_ (State.upto_within _ _) rfl
    exact Within.refl _ _
  try clear_value x5
  split
  · extract_lets -merge -useContext -underBinder +onlyGivenNames x6
    try clear_value x6
    extract_lets -merge -useContext -underBinder +onlyGivenNames x7
    try clear_value x7
    extract_lets -merge -useContext -underBinder +onlyGivenNames x8
    have hx8 : Within [.clk, .trg, .eff, .flg, .ctr, .cmd, .more, .tabs, .clu, .wl, .gov, .pg, .pin, .brg, .host, .msix, .flt, .plc] s x8 := by
      unfold x8
      refine Within.step ?_ (State.releaseObject_within _ _) rfl
      assumption
    try clear_value x8
    refine Within.ite ?_ ?_
    · refine Within.step ?_ (State.commit_within _ _ _ _ _ _) rfl
      refine hx3 _ ?_
      refine hx2 _ ?_
      assumption
    · refine Within.ite ?_ ?_
      · refine Within.step ?_ (State.cancelJump_within _ _ _) rfl
        assumption
      · refine Within.step ?_ (State.commit_within _ _ _ _ _ _) rfl
        assumption
  · extract_lets -merge -useContext -underBinder +onlyGivenNames x9
    try clear_value x9
    extract_lets -merge -useContext -underBinder +onlyGivenNames x10
    try clear_value x10
    extract_lets -merge -useContext -underBinder +onlyGivenNames x11
    have hx11 : Within [.clk, .trg, .eff, .flg, .ctr, .cmd, .more, .tabs, .clu, .wl, .gov, .pg, .pin, .brg, .host, .msix, .flt, .plc] s x11 := by
      unfold x11
      refine Within.step ?_ (State.releaseObject_within _ _) rfl
      refine Within.step ?_ (State.cutGroups_within _ _ _) rfl
      assumption
    try clear_value x11
    refine Within.step ?_ (State.playEntry_within _ _ _ _ _ _) rfl
    refine Within.step ?_ (State.modClu_within _ _ _) rfl
    refine hx3 _ ?_
    refine hx2 _ ?_
    assumption

theorem State.finalFretStep_within (a0 : Sys2Proof.Clu) (s : State) (a2 : Cluster) (a3 : Nat) (a4 : Nat) : Within [.clk, .trg, .eff, .flg, .ctr, .cmd, .more, .tabs, .clu, .wl, .gov, .pg, .pin, .brg, .host, .msix, .flt, .plc] s (execFinalFret.step_ a0 s a2 a3 a4) := by
  unfold execFinalFret.step_
  extract_lets -merge -useContext -underBinder +onlyGivenNames x1
  try clear_value x1
  extract_lets -merge -useContext -underBinder +onlyGivenNames x2
  have hx2 : Within [.clk, .trg, .eff, .flg, .ctr, .cmd, .more, .tabs, .clu, .wl, .gov, .pg, .pin, .brg, .host, .msix, .flt, .plc] s x2 := by
    unfold x2
    refine Within.step ?_ (State.modClu_within _ _ _) rfl
    exact Within.refl _ _
  try clear_value x2
  extract_lets -merge -useContext -underBinder +onlyGivenNames x3
  try clear_value x3
  extract_lets -merge -useContext -underBinder +onlyGivenNames x4
  try clear_value x4
  extract_lets -merge -useContext -underBinder +onlyGivenNames x5
  try clear_value x5
  extract_lets -merge -useContext -underBinder +onlyGivenNames x6
  try clear_value x6
  extract_lets -merge -useContext -underBinder +onlyGivenNames x7
  try clear_value x7
  refine Within.ite ?_ ?_
  · refine Within.step ?_ (State.playOutStep_within _ _ _) rfl
    assumption
  · refine Within.ite ?_ ?_
    · refine Within.step ?_ (State.stopCluster_within _ _ _ _) rfl
      assumption
    · refine Within.ite ?_ ?_
      · extract_lets -merge -useContext -underBinder +onlyGivenNames x8
        have hx8 : Within [.clk, .trg, .eff, .flg, .ctr, .cmd, .more, .tabs, .clu, .wl, .gov, .pg, .pin, .brg, .host, .msix, .flt, .plc] s x8 := by
          unfold x8
          refine Within.step ?_ (State.stopCluster_within _ _ _ _) rfl
          assumption
        try clear_value x8
        refine Within.ite ?_ ?_
        · refine Within.ite ?_ ?_
          · refine Within.step ?_ (State.raiseMatch_within _ _ _ _) rfl
            assumption
          · refine Within.ite ?_ ?_
            · refine Within.step ?_ (State.raiseMatch_within _ _ _ _) rfl
              assumption
            · assumption
        · assumption
      · refine Within.ite ?_ ?_
        · refine Within.ite ?_ ?_
          · refine Within.step ?_ (State.raiseMatch_within _ _ _ _) rfl
            refine Within.step ?_ (State.leave_within _ _ _) rfl
            assumption
          · refine Within.ite ?_ ?_
            · refine Within.step ?_ (State.raiseMatch_within _ _ _ _) rfl
              refine Within.step ?_ (State.leave_within _ _ _) rfl
              assumption
            · refine Within.step ?_ (State.again_within _ _ _) rfl
              assumption
        · refine Within.ite ?_ ?_
          · refine Within.step ?_ (State.again_within _ _ _) rfl
            assumption
          · refine Within.step ?_ (State.leave_within _ _ _) rfl
            assumption

theorem execFinalFret_within (a0 : Sys2Proof.Clu) (s : State) {t : State} (h : execFinalFret a0 s = .next t) : Within [.clk, .trg, .eff, .flg, .ctr, .cmd, .more, .tabs, .clu, .wl, .gov, .pg, .pin, .brg, .host, .msix, .flt, .plc] s t := by
  unfold execFinalFret at h
  refine Within.guarded ?_ h
  extract_lets -merge -useContext -underBinder +onlyGivenNames x1
  try clear_value x1
  extract_lets -merge -useContext -underBinder +onlyGivenNames x2
  try clear_value x2
  refine Within.ite ?_ ?_
  · exact Within.refl _ _
  · extract_lets -merge -useContext -underBinder +onlyGivenNames x3
    try clear_value x3
    extract_lets -merge -useContext -underBinder +onlyGivenNames x4
    have hx4 : Within [.clk, .trg, .eff, .flg, .ctr, .cmd, .more, .tabs, .clu, .wl, .gov, .pg, .pin, .brg, .host, .msix, .flt, .plc] s x4 := by
      unfold x4
      refine Within.step ?_ (State.upto_within _ _) rfl
      exact Within.refl _ _
    try clear_value x4
    split
    · refine Within.ite ?_ ?_
      · refine Within.step ?_ (State.takeJump_within _ _ _ _) rfl
        assumption
      · refine Within.step ?_ (State.finalFretStep_within _ _ _ _ _) rfl
        assumption
    · refine Within.step ?_ (State.finalFretStep_within _ _ _ _ _) rfl
      assumption

theorem State.startRefuse_within (s : State) (a1 : Sys2Proof.Clu) (a2 : Nat) : Within [.flg, .clu, .msix] s (State.startRefuse s a1 a2) := by
  unfold State.startRefuse
  refine Within.step ?_ (State.setBit_within _ _ _) rfl
  refine Within.step ?_ (State.modClu_within _ _ _) rfl
  exact Within.refl _ _

theorem State.enterLead_within (s : State) (a1 : Sys2Proof.Clu) : Within [.flg, .cmd, .more, .clu, .pg, .msix, .plc] s (State.enterLead s a1) := by
  unfold State.enterLead
  extract_lets -merge -useContext -underBinder +onlyGivenNames x1
  try clear_value x1
  extract_lets -merge -useContext -underBinder +onlyGivenNames x2
  have hx2 : Within [.flg, .cmd, .more, .clu, .pg, .msix, .plc] s x2 := by
    unfold x2
    refine Within.fold ?_ (fun u x hu => ?_)
    · exact Within.refl _ _
    · refine Within.step ?_ (State.tcalAbort_within _ _) rfl
      exact hu
  try clear_value x2
  extract_lets -merge -useContext -underBinder +onlyGivenNames x3
  have hx3 : Within [.flg, .cmd, .more, .clu, .pg, .msix, .plc] s x3 := by
    unfold x3
    refine Within.step ?_ (State.modPlc_within _ _) rfl
    assumption
  try clear_value x3
  refine Within.step ?_ (State.modClu_within _ _ _) rfl
  assumption

theorem State.startAccepted_within (s : State) (a1 : Sys2Proof.Clu) : Within [.flg, .cmd, .more, .clu, .pg, .msix, .plc] s (State.startAccepted s a1) := by
  unfold State.startAccepted
  extract_lets -merge -useContext -underBinder +onlyGivenNames x1
  try clear_value x1
  extract_lets -merge -useContext -underBinder +onlyGivenNames x2
  have hx2 : Within [.flg, .cmd, .more, .clu, .pg, .msix, .plc] s x2 := by
    unfold x2
    refine Within.step ?_ (State.modClu_within _ _ _) rfl
    exact Within.refl _ _
  try clear_value x2
  refine Within.ite ?_ ?_
  · refine Within.step ?_ (State.modClu_within _ _ _) rfl
    assumption
  · refine Within.step ?_ (State.enterLead_within _ _) rfl
    assumption

theorem execCluStart_within (a0 : Sys2Proof.Clu) (s : State) {t : State} (h : execCluStart a0 s = .next t) : Within [.pwr, .flg, .cmd, .more, .clu, .pg, .msix, .plc] s t := by
  unfold execCluStart at h
  refine Within.guarded ?_ h
  refine Within.ite ?_ ?_
  · refine Within.step ?_ (State.hold_within _ _) rfl
    exact Within.refl _ _
  · extract_lets -merge -useContext -underBinder +onlyGivenNames x1
    have hx1 : Within [.pwr, .flg, .cmd, .more, .clu, .pg, .msix, .plc] s x1 := by
      unfold x1
      refine Within.step ?_ (State.cmdTake_within _ _ _) rfl
      exact Within.refl _ _
    try clear_value x1
    refine Within.ite ?_ ?_
    · refine Within.step ?_ (State.setBit_within _ _ _) rfl
      assumption
    · extract_lets -merge -useContext -underBinder +onlyGivenNames x2
      try clear_value x2
      refine Within.ite ?_ ?_
      · refine Within.step ?_ (State.startRefuse_within _ _ _) rfl
        assumption
      · refine Within.step ?_ (State.startAccepted_within _ _) rfl
        assumption

theorem execClusterStartRelease_within (a0 : Sys2Proof.Clu) (s : State) {t : State} (h : execClusterStartRelease a0 s = .next t) : Within [.eff, .flg, .ctr, .cmd, .more, .tabs, .clu, .wl, .gov, .pg, .host, .msix, .plc] s t := by
  unfold execClusterStartRelease at h
  refine Within.guarded ?_ h
  refine Within.ite ?_ ?_
  · exact Within.refl _ _
  · refine Within.ite ?_ ?_
    · extract_lets -merge -useContext -underBinder +onlyGivenNames x1
      have hx1 : Within [.eff, .flg, .ctr, .cmd, .more, .tabs, .clu, .wl, .gov, .pg, .host, .msix, .plc] s x1 := by
        unfold x1
        refine Within.step ?_ (State.modClu_within _ _ _) rfl
        exact Within.refl _ _
      try clear_value x1
      refine Within.step ?_ (State.setBit_within _ _ _) rfl
      refine Within.step ?_ (State.idleEffects_within _ _) rfl
      refine Within.step ?_ (State.startRefuse_within _ _ _) rfl
      assumption
    · refine Within.step ?_ (State.enterLead_within _ _) rfl
      exact Within.refl _ _

theorem execFirstSegmentStart_within (a0 : Sys2Proof.Clu) (s : State) {t : State} (h : execFirstSegmentStart a0 s = .next t) : Within [.clk, .trg, .eff, .flg, .cmd, .more, .clu, .wl, .pg, .brg, .host, .msix, .plc] s t := by
  unfold execFirstSegmentStart at h
  refine Within.guarded ?_ h
  extract_lets -merge -useContext -underBinder +onlyGivenNames x1
  try clear_value x1
  split
  · extract_lets -merge -useContext -underBinder +onlyGivenNames x2
    try clear_value x2
    extract_lets -merge -useContext -underBinder +onlyGivenNames x3
    have hx3 : Within [.clk, .trg, .eff, .flg, .cmd, .more, .clu, .wl, .pg, .brg, .host, .msix, .plc] s x3 := by
      unfold x3
      refine Within.step ?_ (State.modClu_within _ _ _) rfl
      refine Within.step ?_ (State.upto_within _ _) rfl
      exact Within.refl _ _
    try clear_value x3
    extract_lets -merge -useContext -underBinder +onlyGivenNames x4
    have hx4 : Within [.clk, .trg, .eff, .flg, .cmd, .more, .clu, .wl, .pg, .brg, .host, .msix, .plc] s x4 := by
      unfold x4
      refine Within.step ?_ (State.setBit_within _ _ _) rfl
      assumption
    try clear_value x4
    extract_lets -merge -useContext -underBinder +onlyGivenNames x5
    try clear_value x5
    refine Within.step ?_ (State.playEntry_within _ _ _ _ _ _) rfl
    assumption
  · exact Within.refl _ _

theorem State.stopJump_within (s : State) (a1 : Sys2Proof.Clu) (a2 : State → State)
    (ha2 : ∀ u, Within [.clu] u (a2 u)) : Within [.eff, .flg, .ctr, .cmd, .more, .tabs, .clu, .wl, .gov, .pg, .pin, .host, .msix, .plc] s (State.stopJump s a1 a2) := by
  unfold State.stopJump
  extract_lets -merge -useContext -underBinder +onlyGivenNames x1
  have hx1 : Within [.eff, .flg, .ctr, .cmd, .more, .tabs, .clu, .wl, .gov, .pg, .pin, .host, .msix, .plc] s x1 := by
    unfold x1
    refine Within.step ?_ (State.cancelJump_within _ _ _) rfl
    exact Within.refl _ _
  try clear_value x1
  refine Within.ite ?_ ?_
  · refine Within.step ?_ (State.stopCluster_within _ _ _ _) rfl
    assumption
  · refine Within.step ?_ (ha2 _) rfl
    assumption

theorem State.dropStart_within (s : State) (a1 : Sys2Proof.Clu) (a2 : Nat) : Within [.eff, .flg, .ctr, .cmd, .more, .tabs, .clu, .wl, .gov, .pg, .pin, .host, .msix, .plc] s (State.dropStart s a1 a2) := by
  unfold State.dropStart
  refine Within.ite ?_ ?_
  · extract_lets -merge -useContext -underBinder +onlyGivenNames x1
    have hx1 : Within [.eff, .flg, .ctr, .cmd, .more, .tabs, .clu, .wl, .gov, .pg, .pin, .host, .msix, .plc] s x1 := by
      unfold x1
      refine Within.step ?_ (State.modClu_within _ _ _) rfl
      exact Within.refl _ _
    try clear_value x1
    refine Within.step ?_ (State.setBit_within _ _ _) rfl
    refine Within.step ?_ (State.idleEffects_within _ _) rfl
    assumption
  · refine Within.step ?_ (State.stopCluster_within _ _ _ _) rfl
    exact Within.refl _ _

theorem State.stop_within (s : State) (a1 : Sys2Proof.Clu) : Within [.eff, .flg, .ctr, .cmd, .more, .tabs, .clu, .wl, .gov, .pg, .pin, .host, .msix, .plc] s (State.stop s a1) := by
  unfold State.stop
  split
  · refine Within.step ?_ (State.stopJump_within _ _ _ (fun _ => State.modClu_within _ _ _)) rfl
    exact Within.refl _ _
  · refine Within.step ?_ (State.dropStart_within _ _ _) rfl
    exact Within.refl _ _
  · refine Within.step ?_ (State.dropStart_within _ _ _) rfl
    exact Within.refl _ _
  · refine Within.step ?_ (State.setBit_within _ _ _) rfl
    exact Within.refl _ _

theorem State.abort_within (s : State) (a1 : Sys2Proof.Clu) : Within [.eff, .flg, .ctr, .cmd, .more, .tabs, .clu, .wl, .gov, .pg, .pin, .host, .msix, .plc] s (State.abort s a1) := by
  unfold State.abort
  split
  · refine Within.step ?_ (State.stopJump_within _ _ _ (fun _ => State.modClu_within _ _ _)) rfl
    exact Within.refl _ _
  · refine Within.step ?_ (State.stopJump_within _ _ _ (fun _ => State.modClu_within _ _ _)) rfl
    exact Within.refl _ _
  · refine Within.step ?_ (State.dropStart_within _ _ _) rfl
    exact Within.refl _ _
  · refine Within.step ?_ (State.dropStart_within _ _ _) rfl
    exact Within.refl _ _
  · refine Within.step ?_ (State.setBit_within _ _ _) rfl
    exact Within.refl _ _

theorem execCluStop_within (a0 : Sys2Proof.Clu) (s : State) {t : State} (h : execCluStop a0 s = .next t) : Within [.eff, .flg, .ctr, .cmd, .more, .tabs, .clu, .wl, .gov, .pg, .pin, .host, .msix, .plc] s t := by
  unfold execCluStop at h
  refine Within.guarded ?_ h
  refine Within.step ?_ (State.stop_within _ _) rfl
  exact Within.refl _ _

theorem execCluAbort_within (a0 : Sys2Proof.Clu) (s : State) {t : State} (h : execCluAbort a0 s = .next t) : Within [.eff, .flg, .ctr, .cmd, .more, .tabs, .clu, .wl, .gov, .pg, .pin, .host, .msix, .plc] s t := by
  unfold execCluAbort at h
  refine Within.guarded ?_ h
  refine Within.step ?_ (State.abort_within _ _) rfl
  exact Within.refl _ _

theorem execAbortPark_within (a0 : Sys2Proof.Clu) (s : State) {t : State} (h : execAbortPark a0 s = .next t) : Within [.clk, .eff, .flg, .ctr, .cmd, .more, .tabs, .clu, .wl, .gov, .pg, .pin, .host, .msix, .plc] s t := by
  unfold execAbortPark at h
  refine Within.guarded ?_ h
  split
  · exact Within.refl _ _
  · refine Within.ite ?_ ?_
    · exact Within.refl _ _
    · refine Within.step ?_ (State.stopCluster_within _ _ _ _) rfl
      refine Within.step ?_ (State.upto_within _ _) rfl
      exact Within.refl _ _

theorem execCluCntClr_within (a0 : Sys2Proof.Clu) (s : State) {t : State} (h : execCluCntClr a0 s = .next t) : Within [.ctr, .clu] s t := by
  unfold execCluCntClr at h
  refine Within.guarded ?_ h
  refine Within.step ?_ (State.modClu_within _ _ _) rfl
  refine Within.step ?_ (State.clearCtr_within _ _) rfl
  exact Within.refl _ _

theorem State.dropHeldStart_within (s : State) (a1 : Sys2Proof.Clu) : Within [.pwr, .cmd, .more] s (State.dropHeldStart s a1) := by
  unfold State.dropHeldStart
  refine Within.ite ?_ ?_
  · refine Within.step ?_ (State.cmdDrop_within _ _ _) rfl
    refine Within.step ?_ (Within.set_pwr _ _) rfl
    exact Within.refl _ _
  · exact Within.refl _ _

theorem State.clusterReset_within (s : State) (a1 : Sys2Proof.Clu) : Within [.pwr, .eff, .flg, .ctr, .cmd, .more, .tabs, .clu, .wl, .gov, .pg, .host, .msix, .plc] s (State.clusterReset s a1) := by
  unfold State.clusterReset
  extract_lets -merge -useContext -underBinder +onlyGivenNames x1
  try clear_value x1
  extract_lets -merge -useContext -underBinder +onlyGivenNames x2
  try clear_value x2
  extract_lets -merge -useContext -underBinder +onlyGivenNames x3
  try clear_value x3
  extract_lets -merge -useContext -underBinder +onlyGivenNames x4
  have hx4 : Within [.pwr, .eff, .flg, .ctr, .cmd, .more, .tabs, .clu, .wl, .gov, .pg, .host, .msix, .plc] s x4 := by
    unfold x4
    refine Within.step ?_ (State.cancelJump_within _ _ _) rfl
    refine Within.step ?_ (State.dropHeldStart_within _ _) rfl
    exact Within.refl _ _
  try clear_value x4
  extract_lets -merge -useContext -underBinder +onlyGivenNames x5
  try clear_value x5
  extract_lets -merge -useContext -underBinder +onlyGivenNames x6
  have hx6 : Within [.pwr, .eff, .flg, .ctr, .cmd, .more, .tabs, .clu, .wl, .gov, .pg, .host, .msix, .plc] s x6 := by
    unfold x6
    refine Within.step ?_ (State.modClu_within _ _ _) rfl
    assumption
  try clear_value x6
  extract_lets -merge -useContext -underBinder +onlyGivenNames x7
  have hx7 : Within [.pwr, .eff, .flg, .ctr, .cmd, .more, .tabs, .clu, .wl, .gov, .pg, .host, .msix, .plc] s x7 := by
    unfold x7
    exact hx6.step (Within.set_ctr _ _ (smWf_eraseAll _ _ _)) rfl
  try clear_value x7
  refine Within.step ?_ (State.setBitIf_within _ _ _ _) rfl
  refine Within.step ?_ (State.idleEffects_within _ _) rfl
  assumption

theorem execClusterReset_within (a0 : Sys2Proof.Clu) (s : State) {t : State} (h : execClusterReset a0 s = .next t) : Within [.pwr, .ovl, .eff, .flg, .ctr, .cmd, .more, .tabs, .clu, .wl, .gov, .pg, .host, .msix, .plc] s t := by
  unfold execClusterReset at h
  refine Within.guarded ?_ h
  refine Within.step ?_ (State.cmdTake_within _ _ _) rfl
  refine Within.step ?_ (State.dropPending_within _) rfl
  refine Within.step ?_ (State.clusterReset_within _ _) rfl
  exact Within.refl _ _

theorem State.endPlayOut_within (s : State) (a1 : Sys2Proof.Clu) (a2 : Nat) : Within [.flg, .ctr, .clu, .pg, .pin, .msix, .plc] s (State.endPlayOut s a1 a2) := by
  unfold State.endPlayOut
  extract_lets -merge -useContext -underBinder +onlyGivenNames x1
  have hx1 : Within [.flg, .ctr, .clu, .pg, .pin, .msix, .plc] s x1 := by
    unfold x1
    refine Within.step ?_ (State.cancelJump_within _ _ _) rfl
    refine Within.step ?_ (State.parkGroups_within _ _ _) rfl
    refine Within.step ?_ (State.cutGroups_within _ _ _) rfl
    exact Within.refl _ _
  try clear_value x1
  extract_lets -merge -useContext -underBinder +onlyGivenNames x2
  have hx2 : Within [.flg, .ctr, .clu, .pg, .pin, .msix, .plc] s x2 := by
    unfold x2
    refine Within.fold ?_ (fun u x hu => ?_)
    · assumption
    · refine Within.step ?_ (State.modPg_within _ _ _) rfl
      assumption
  try clear_value x2
  refine Within.step ?_ (State.modClu_within _ _ _) rfl
  assumption

theorem execClusterResetPark_within (a0 : Sys2Proof.Clu) (s : State) {t : State} (h : execClusterResetPark a0 s = .next t) : Within [.clk, .flg, .ctr, .clu, .pg, .pin, .msix, .plc] s t := by
  unfold execClusterResetPark at h
  refine Within.guarded ?_ h
  split
  · exact Within.refl _ _
  · refine Within.step ?_ (State.endPlayOut_within _ _ _) rfl
    refine Within.step ?_ (State.upto_within _ _) rfl
    exact Within.refl _ _

theorem execMarkerFire_within (a0 : Sys2Proof.Clu) (a1 : Fin 8) (s : State) {t : State} (h : execMarkerFire a0 a1 s = .next t) : Within [.clk, .flg, .wl, .brg] s t := by
  unfold execMarkerFire at h
  refine Within.guarded ?_ h
  extract_lets -merge -useContext -underBinder +onlyGivenNames x1
  try clear_value x1
  extract_lets -merge -useContext -underBinder +onlyGivenNames x2
  try clear_value x2
  extract_lets -merge -useContext -underBinder +onlyGivenNames x3
  try clear_value x3
  extract_lets -merge -useContext -underBinder +onlyGivenNames x4
  try clear_value x4
  extract_lets -merge -useContext -underBinder +onlyGivenNames x5
  try clear_value x5
  extract_lets -merge -useContext -underBinder +onlyGivenNames x6
  try clear_value x6
  extract_lets -merge -useContext -underBinder +onlyGivenNames x7
  try clear_value x7
  extract_lets -merge -useContext -underBinder +onlyGivenNames x8
  try clear_value x8
  refine Within.ite ?_ ?_
  · exact Within.refl _ _
  · extract_lets -merge -useContext -underBinder +onlyGivenNames x9
    have hx9 : Within [.clk, .flg, .wl, .brg] s x9 := by
      unfold x9
      refine Within.step ?_ (State.fire_within _ _ _) rfl
      refine Within.step ?_ (State.upto_within _ _) rfl
      exact Within.refl _ _
    try clear_value x9
    refine Within.ite ?_ ?_
    · refine Within.step ?_ (State.ncoPlanAct_within _ _ _ _ _) rfl
      assumption
    · assumption

theorem execMatchCut_within (a0 : Sys2Proof.Clu) (s : State) {t : State} (h : execMatchCut a0 s = .next t) : Within [.clk, .clu] s t := by
  unfold execMatchCut at h
  refine Within.guarded ?_ h
  extract_lets -merge -useContext -underBinder +onlyGivenNames x1
  try clear_value x1
  refine Within.ite ?_ ?_
  · exact Within.refl _ _
  · extract_lets -merge -useContext -underBinder +onlyGivenNames x2
    have hx2 : Within [.clk, .clu] s x2 := by
      unfold x2
      refine Within.step ?_ (State.upto_within _ _) rfl
      exact Within.refl _ _
    try clear_value x2
    refine Within.step ?_ (State.modClu_within _ _ _) rfl
    assumption

theorem State.discard_within (s : State) (a1 : Sys2Proof.Clu) (a2 : Nat) : Within [.flg, .ctr, .msix] s (State.discard s a1 a2) := by
  unfold State.discard
  refine Within.step ?_ (State.setBit_within _ _ _) rfl
  refine Within.step ?_ (State.count_within _ _ _) rfl
  exact Within.refl _ _

theorem State.ncoEvent_within (s : State) (a1 : Sys2Proof.Clu) (a2 : Req) : Within [.wl] s (State.ncoEvent s a1 a2) := by
  unfold State.ncoEvent
  extract_lets -merge -useContext -underBinder +onlyGivenNames x1
  try clear_value x1
  refine Within.ite ?_ ?_
  · refine Within.step ?_ (State.ncoPlanAct_within _ _ _ _ _) rfl
    exact Within.refl _ _
  · exact Within.refl _ _

theorem execConditionRequest_within (a0 : Sys2Proof.Clu) (a1 : Fin 16) (s : State) {t : State} (h : execConditionRequest a0 a1 s = .next t) : Within [.clk, .flg, .ctr, .clu, .wl, .msix] s t := by
  unfold execConditionRequest at h
  refine Within.guarded ?_ h
  split
  · exact Within.refl _ _
  · extract_lets -merge -useContext -underBinder +onlyGivenNames x1
    try clear_value x1
    extract_lets -merge -useContext -underBinder +onlyGivenNames x2
    try clear_value x2
    extract_lets -merge -useContext -underBinder +onlyGivenNames x3
    have hx3 : Within [.clk, .flg, .ctr, .clu, .wl, .msix] s x3 := by
      unfold x3
      refine Within.step ?_ (State.modClu_within _ _ _) rfl
      refine Within.step ?_ (State.upto_within _ _) rfl
      exact Within.refl _ _
    try clear_value x3
    extract_lets -merge -useContext -underBinder +onlyGivenNames x4
    try clear_value x4
    refine Within.ite ?_ ?_
    · refine Within.step ?_ (State.discard_within _ _ _) rfl
      assumption
    · refine Within.ite ?_ ?_
      · refine Within.step ?_ (State.discard_within _ _ _) rfl
        assumption
      · extract_lets -merge -useContext -underBinder +onlyGivenNames x5
        try clear_value x5
        refine Within.step ?_ (State.ncoEvent_within _ _ _) rfl
        refine Within.step ?_ (State.modClu_within _ _ _) rfl
        assumption

theorem State.serveLate_within (s : State) (a1 : Sys2Proof.Clu) (a2 : Req) : Within [.clu] s (State.serveLate s a1 a2) := by
  unfold State.serveLate
  refine Within.ite ?_ ?_
  · refine Within.step ?_ (State.modClu_within _ _ _) rfl
    exact Within.refl _ _
  · exact Within.refl _ _

theorem State.decideReq_within (s : State) (a1 : Sys2Proof.Clu) (a2 : Req) : Within [.flg, .ctr, .clu, .msix, .plc] s (State.decideReq s a1 a2) := by
  unfold State.decideReq
  extract_lets -merge -useContext -underBinder +onlyGivenNames x1
  try clear_value x1
  refine Within.ite ?_ ?_
  · refine Within.step ?_ (State.serveLate_within _ _ _) rfl
    refine Within.step ?_ (State.discard_within _ _ _) rfl
    exact Within.refl _ _
  · refine Within.ite ?_ ?_
    · refine Within.step ?_ (State.discard_within _ _ _) rfl
      exact Within.refl _ _
    · extract_lets -merge -useContext -underBinder +onlyGivenNames x2
      try clear_value x2
      refine Within.ite ?_ ?_
      · refine Within.step ?_ (State.discard_within _ _ _) rfl
        exact Within.refl _ _
      · refine Within.step ?_ (State.markNeeded_within _ _) rfl
        refine Within.step ?_ (State.serveLate_within _ _ _) rfl
        refine Within.step ?_ (State.modClu_within _ _ _) rfl
        refine Within.step ?_ (State.markNeeded_within _ _) rfl
        exact Within.refl _ _

theorem execJumpDecision_within (a0 : Sys2Proof.Clu) (s : State) {t : State} (h : execJumpDecision a0 s = .next t) : Within [.clk, .flg, .ctr, .clu, .msix, .plc] s t := by
  unfold execJumpDecision at h
  refine Within.guarded ?_ h
  split
  · exact Within.refl _ _
  · extract_lets -merge -useContext -underBinder +onlyGivenNames x1
    try clear_value x1
    extract_lets -merge -useContext -underBinder +onlyGivenNames x2
    have hx2 : Within [.clk, .flg, .ctr, .clu, .msix, .plc] s x2 := by
      unfold x2
      refine Within.step ?_ (State.modClu_within _ _ _) rfl
      refine Within.step ?_ (State.upto_within _ _) rfl
      exact Within.refl _ _
    try clear_value x2
    refine Within.ite ?_ ?_
    · refine Within.fold ?_ (fun u x hu => ?_)
      · assumption
      · refine Within.step ?_ (State.discard_within _ _ _) rfl
        assumption
    · split
      · assumption
      · refine Within.fold ?_ (fun u x hu => ?_)
        · refine Within.step ?_ (State.decideReq_within _ _ _) rfl
          assumption
        · refine Within.step ?_ (State.discard_within _ _ _) rfl
          assumption

theorem execJumpTargetRead_within (a0 : Sys2Proof.Clu) (s : State) {t : State} (h : execJumpTargetRead a0 s = .next t) : Within [.clk, .clu] s t := by
  unfold execJumpTargetRead at h
  refine Within.guarded ?_ h
  split
  · exact Within.refl _ _
  · refine Within.ite ?_ ?_
    · exact Within.refl _ _
    · extract_lets -merge -useContext -underBinder +onlyGivenNames x1
      have hx1 : Within [.clk, .clu] s x1 := by
        unfold x1
        refine Within.step ?_ (State.upto_within _ _) rfl
        exact Within.refl _ _
      try clear_value x1
      refine Within.step ?_ (State.modClu_within _ _ _) rfl
      assumption

theorem State.unserve_within (s : State) (a1 : Sys2Proof.Clu) : Within [.eff, .flg, .ctr, .cmd, .more, .tabs, .clu, .wl, .gov, .pg, .pin, .host, .msix, .plc] s (State.unserve s a1) := by
  unfold State.unserve
  extract_lets -merge -useContext -underBinder +onlyGivenNames x1
  try clear_value x1
  split
  · exact Within.refl _ _
  · refine Within.ite ?_ ?_
    · exact Within.refl _ _
    · refine Within.ite ?_ ?_
      · refine Within.step ?_ (State.stopCluster_within _ _ _ _) rfl
        exact Within.refl _ _
      · refine Within.step ?_ (State.modClu_within _ _ _) rfl
        exact Within.refl _ _

theorem State.jumpRefuse_within (s : State) (a1 : Sys2Proof.Clu) (a2 : Sched) (a3 : Nat) : Within [.eff, .flg, .ctr, .cmd, .more, .tabs, .clu, .wl, .gov, .pg, .pin, .host, .msix, .flt, .plc] s (State.jumpRefuse s a1 a2 a3) := by
  unfold State.jumpRefuse
  extract_lets -merge -useContext -underBinder +onlyGivenNames x1
  have hx1 : Within [.eff, .flg, .ctr, .cmd, .more, .tabs, .clu, .wl, .gov, .pg, .pin, .host, .msix, .flt, .plc] s x1 := by
    unfold x1
    refine Within.step ?_ (State.modClu_within _ _ _) rfl
    exact Within.refl _ _
  try clear_value x1
  extract_lets -merge -useContext -underBinder +onlyGivenNames x2
  have hx2 : Within [.eff, .flg, .ctr, .cmd, .more, .tabs, .clu, .wl, .gov, .pg, .pin, .host, .msix, .flt, .plc] s x2 := by
    unfold x2
    refine Within.step ?_ (State.setBit_within _ _ _) rfl
    refine Within.step ?_ (State.count_within _ _ _) rfl
    assumption
  try clear_value x2
  extract_lets -merge -useContext -underBinder +onlyGivenNames x3
  have hx3 : Within [.eff, .flg, .ctr, .cmd, .more, .tabs, .clu, .wl, .gov, .pg, .pin, .host, .msix, .flt, .plc] s x3 := by
    unfold x3
    refine Within.step ?_ (State.report_within _ _) rfl
    assumption
  try clear_value x3
  refine Within.step ?_ (State.unserve_within _ _) rfl
  assumption

theorem execJumpRefusalCheck_within (a0 : Sys2Proof.Clu) (s : State) {t : State} (h : execJumpRefusalCheck a0 s = .next t) : Within [.clk, .eff, .flg, .ctr, .cmd, .more, .tabs, .clu, .wl, .gov, .pg, .pin, .host, .msix, .flt, .plc] s t := by
  unfold execJumpRefusalCheck at h
  refine Within.guarded ?_ h
  split
  · exact Within.refl _ _
  · refine Within.ite ?_ ?_
    · exact Within.refl _ _
    · extract_lets -merge -useContext -underBinder +onlyGivenNames x1
      have hx1 : Within [.clk, .eff, .flg, .ctr, .cmd, .more, .tabs, .clu, .wl, .gov, .pg, .pin, .host, .msix, .flt, .plc] s x1 := by
        unfold x1
        refine Within.step ?_ (State.upto_within _ _) rfl
        exact Within.refl _ _
      try clear_value x1
      extract_lets -merge -useContext -underBinder +onlyGivenNames x2
      try clear_value x2
      extract_lets -merge -useContext -underBinder +onlyGivenNames x3
      try clear_value x3
      refine Within.ite ?_ ?_
      · refine Within.step ?_ (State.jumpRefuse_within _ _ _ _) rfl
        assumption
      · refine Within.step ?_ (State.modClu_within _ _ _) rfl
        assumption

theorem execJumpSwitch_within (a0 : Sys2Proof.Clu) (s : State) {t : State} (h : execJumpSwitch a0 s = .next t) : Within [.clk, .trg, .eff, .flg, .ctr, .cmd, .more, .tabs, .clu, .wl, .gov, .pg, .pin, .brg, .host, .msix, .flt, .plc] s t := by
  unfold execJumpSwitch at h
  refine Within.guarded ?_ h
  split
  · exact Within.refl _ _
  · extract_lets -merge -useContext -underBinder +onlyGivenNames x1
    try clear_value x1
    refine Within.ite ?_ ?_
    · exact Within.refl _ _
    · refine Within.step ?_ (State.takeJump_within _ _ _ _) rfl
      exact Within.refl _ _

theorem execJmpFire_within (a0 : Sys2Proof.Clu) (s : State) {t : State} (h : execJmpFire a0 s = .next t) : Within [.cmd, .more, .clu] s t := by
  unfold execJmpFire at h
  refine Within.guarded ?_ h
  extract_lets -merge -useContext -underBinder +onlyGivenNames x1
  try clear_value x1
  extract_lets -merge -useContext -underBinder +onlyGivenNames x2
  have hx2 : Within [.cmd, .more, .clu] s x2 := by
    unfold x2
    refine Within.step ?_ (State.cmdTake_within _ _ _) rfl
    exact Within.refl _ _
  try clear_value x2
  refine Within.step ?_ (State.modClu_within _ _ _) rfl
  assumption

theorem execJmpCntClr_within (a0 : Sys2Proof.Clu) (s : State) {t : State} (h : execJmpCntClr a0 s = .next t) : Within [.ctr] s t := by
  unfold execJmpCntClr at h
  refine Within.guarded ?_ h
  refine Within.step ?_ (State.clearCtrs_within _ _) rfl
  exact Within.refl _ _

theorem State.lateConds_within (s : State) (a1 : Sys2Proof.Clu) (a2 : Nat) : Within [.clu] s (State.lateConds s a1 a2) := by
  unfold State.lateConds
  refine Within.step ?_ (State.modClu_within _ _ _) rfl
  exact Within.refl _ _

theorem State.mergeLate_within (s : State) (a1 : Sys2Proof.Clu) (a2 : Play) (a3 : Fin 20) (a4 : Nat) : Within [.ctr, .clu] s (State.mergeLate s a1 a2 a3 a4) := by
  unfold State.mergeLate
  extract_lets -merge -useContext -underBinder +onlyGivenNames x1
  try clear_value x1
  refine Within.step ?_ (State.modClu_within _ _ _) rfl
  refine Within.step ?_ (State.count_within _ _ _) rfl
  exact Within.refl _ _

theorem State.lateFault_within (s : State) (a1 : Sys2Proof.Clu) (a2 : Play) (a3 : Fin 20) (a4 : Nat) (a5 : Nat) (a6 : Nat) : Within [.clk, .flg, .ctr, .clu, .brg, .msix] s (State.lateFault s a1 a2 a3 a4 a5 a6) := by
  unfold State.lateFault
  extract_lets -merge -useContext -underBinder +onlyGivenNames x1
  try clear_value x1
  refine Within.ite ?_ ?_
  · refine Within.step ?_ (State.mergeLate_within _ _ _ _ _) rfl
    exact Within.refl _ _
  · extract_lets -merge -useContext -underBinder +onlyGivenNames x2
    have hx2 : Within [.clk, .flg, .ctr, .clu, .brg, .msix] s x2 := by
      unfold x2
      refine Within.step ?_ (State.upto_within _ _) rfl
      exact Within.refl _ _
    try clear_value x2
    extract_lets -merge -useContext -underBinder +onlyGivenNames x3
    try clear_value x3
    extract_lets -merge -useContext -underBinder +onlyGivenNames x4
    try clear_value x4
    extract_lets -merge -useContext -underBinder +onlyGivenNames x5
    have hx5 : Within [.clk, .flg, .ctr, .clu, .brg, .msix] s x5 := by
      unfold x5
      refine Within.step ?_ (State.modClu_within _ _ _) rfl
      assumption
    try clear_value x5
    extract_lets -merge -useContext -underBinder +onlyGivenNames x6
    have hx6 : Within [.clk, .flg, .ctr, .clu, .brg, .msix] s x6 := by
      unfold x6
      refine Within.step ?_ (State.fire_within _ _ _) rfl
      refine Within.step ?_ (State.setBit_within _ _ _) rfl
      refine Within.step ?_ (State.count_within _ _ _) rfl
      assumption
    try clear_value x6
    refine Within.ite ?_ ?_
    · refine Within.step ?_ (State.lateConds_within _ _ _) rfl
      assumption
    · assumption

theorem execLateCheck_within (a0 : Sys2Proof.Clu) (a1 : Fin 20) (a2 : Nat) (s : State) {t : State} (h : execLateCheck a0 a1 a2 s = .next t) : Within [.clk, .flg, .ctr, .clu, .brg, .mem, .msix, .flt] s t := by
  unfold execLateCheck at h
  refine Within.guarded ?_ h
  extract_lets -merge -useContext -underBinder +onlyGivenNames x1
  split
  · exact Within.refl _ _
  · refine Within.ite ?_ ?_
    · exact Within.refl _ _
    · extract_lets -merge -useContext -underBinder +onlyGivenNames x2
      extract_lets -merge -useContext -underBinder +onlyGivenNames x3
      try clear_value x3
      extract_lets -merge -useContext -underBinder +onlyGivenNames x4
      have hx4 : Within [.clk, .flg, .ctr, .clu, .brg, .mem, .msix, .flt] s x4 := by
        unfold x4
        split
        · refine Within.step ?_ (State.violate_within _ _ _ _) rfl
          refine Within.step ?_ (State.readerAsks_within _ _ _ _) rfl
          exact Within.refl _ _
        · exact Within.refl _ _
      refine Within.step ?_ (State.lateFault_within _ _ _ _ _ _ _) rfl
      assumption

theorem State.reportLate_within (s : State) (a1 : Sys2Proof.Clu) (a2 : LateRec) (a3 : Nat) : Within [.flg, .ctr, .msix, .flt] s (State.reportLate s a1 a2 a3) := by
  unfold State.reportLate
  refine Within.step ?_ (State.report_within _ _) rfl
  exact Within.refl _ _

theorem State.landRecs_within (s : State) (a1 : Sys2Proof.Clu) (a2 : Nat) (a3 : Slot) : Within [.flg, .ctr, .clu, .msix, .flt] s (State.landRecs s a1 a2 a3) := by
  unfold State.landRecs
  extract_lets -merge -useContext -underBinder +onlyGivenNames x1
  try clear_value x1
  extract_lets -merge -useContext -underBinder +onlyGivenNames x2
  have hx2 : Within [.flg, .ctr, .clu, .msix, .flt] s x2 := by
    unfold x2
    refine Within.step ?_ (State.modClu_within _ _ _) rfl
    exact Within.refl _ _
  try clear_value x2
  refine Within.fold ?_ (fun u x hu => ?_)
  · assumption
  · refine Within.step ?_ (State.reportLate_within _ _ _ _) rfl
    assumption

theorem execLateSaturate_within (a0 : Sys2Proof.Clu) (s : State) {t : State} (h : execLateSaturate a0 s = .next t) : Within [.clk, .flg, .ctr, .clu, .msix, .flt] s t := by
  unfold execLateSaturate at h
  refine Within.guarded ?_ h
  split
  · exact Within.refl _ _
  · extract_lets -merge -useContext -underBinder +onlyGivenNames x1
    have hx1 : Within [.clk, .flg, .ctr, .clu, .msix, .flt] s x1 := by
      unfold x1
      refine Within.step ?_ (State.modClu_within _ _ _) rfl
      refine Within.step ?_ (State.upto_within _ _) rfl
      exact Within.refl _ _
    try clear_value x1
    refine Within.step ?_ (State.reportLate_within _ _ _ _) rfl
    assumption

theorem execLatePark_within (a0 : Sys2Proof.Clu) (s : State) {t : State} (h : execLatePark a0 s = .next t) : Within [.clk, .eff, .flg, .ctr, .cmd, .more, .tabs, .clu, .wl, .gov, .pg, .pin, .host, .msix, .plc] s t := by
  unfold execLatePark at h
  refine Within.guarded ?_ h
  extract_lets -merge -useContext -underBinder +onlyGivenNames x1
  try clear_value x1
  split
  · exact Within.refl _ _
  · refine Within.ite ?_ ?_
    · exact Within.refl _ _
    · extract_lets -merge -useContext -underBinder +onlyGivenNames x2
      have hx2 : Within [.clk, .eff, .flg, .ctr, .cmd, .more, .tabs, .clu, .wl, .gov, .pg, .pin, .host, .msix, .plc] s x2 := by
        unfold x2
        refine Within.step ?_ (State.upto_within _ _) rfl
        exact Within.refl _ _
      try clear_value x2
      extract_lets -merge -useContext -underBinder +onlyGivenNames x3
      try clear_value x3
      extract_lets -merge -useContext -underBinder +onlyGivenNames x4
      have hx4 : ∀ u, Within [.clk, .eff, .flg, .ctr, .cmd, .more, .tabs, .clu, .wl, .gov, .pg, .pin, .host, .msix, .plc] s u → Within [.clk, .eff, .flg, .ctr, .cmd, .more, .tabs, .clu, .wl, .gov, .pg, .pin, .host, .msix, .plc] s (x4 u) := by
        intro u hu
        unfold x4
        refine Within.step ?_ (State.modClu_within _ _ _) rfl
        refine Within.step ?_ (State.parkGroups_within _ _ _) rfl
        refine Within.step ?_ (State.cutGroups_within _ _ _) rfl
        assumption
      try clear_value x4
      refine Within.ite ?_ ?_
      · refine Within.step ?_ (State.modClu_within _ _ _) rfl
        refine hx4 _ ?_
        assumption
      · refine Within.ite ?_ ?_
        · refine hx4 _ ?_
          assumption
        · refine Within.step ?_ (State.modClu_within _ _ _) rfl
          refine Within.step ?_ (State.stopCluster_within _ _ _ _) rfl
          assumption

theorem execSkipResume_within (a0 : Sys2Proof.Clu) (s : State) {t : State} (h : execSkipResume a0 s = .next t) : Within [.clk, .clu] s t := by
  unfold execSkipResume at h
  refine Within.guarded ?_ h
  extract_lets -merge -useContext -underBinder +onlyGivenNames x1
  try clear_value x1
  refine Within.ite ?_ ?_
  · exact Within.refl _ _
  · split
    · exact Within.refl _ _
    · refine Within.ite ?_ ?_
      · refine Within.step ?_ (State.modClu_within _ _ _) rfl
        refine Within.step ?_ (State.upto_within _ _) rfl
        exact Within.refl _ _
      · exact Within.refl _ _

theorem execLateCntClr_within (a0 : Sys2Proof.Clu) (s : State) {t : State} (h : execLateCntClr a0 s = .next t) : Within [.ctr] s t := by
  unfold execLateCntClr at h
  refine Within.guarded ?_ h
  refine Within.step ?_ (State.clearCtrs_within _ _) rfl
  exact Within.refl _ _

end Sys2Proof.Machine
end

