-- ==== Sys2Proof/Laws/FrameOutputs.lean ====
section
/-! SUPPORT. Frames of the operations and commands of the pattern outputs, the oscillators, the converters and the level channels: the parts of the state that each may change. -/
namespace Sys2Proof.Machine

theorem State.edgeAt_within (s : State) (a1 : Sys2Proof.Pg) (a2 : Fin 16) (a3 : VecCtx) (a4 : Bool) (a5 : Nat) (a6 : Bool) : Within [.flg, .ctr, .pin, .msix] s (State.edgeAt s a1 a2 a3 a4 a5 a6) := by
  unfold State.edgeAt
  refine Within.ite ?_ ?_
  · refine Within.step ?_ (State.setBit_within _ _ _) rfl
    exact Within.refl _ _
  · refine Within.ite ?_ ?_
    · refine Within.step ?_ (State.deEdge_within _ _ _ _) rfl
      exact Within.refl _ _
    · refine Within.step ?_ (State.ddEdge_within _ _ _ _) rfl
      exact Within.refl _ _

theorem State.driveEdges_within (s : State) (a1 : Sys2Proof.Pg) (a2 : Fin 16) (a3 : VecCtx) (a4 : Nat) : Within [.flg, .ctr, .pin, .msix] s (State.driveEdges s a1 a2 a3 a4) := by
  unfold State.driveEdges
  extract_lets -merge -useContext -underBinder +onlyGivenNames x1
  try clear_value x1
  refine Within.ite ?_ ?_
  · exact Within.refl _ _
  · extract_lets -merge -useContext -underBinder +onlyGivenNames x2
    try clear_value x2
    extract_lets -merge -useContext -underBinder +onlyGivenNames x3
    try clear_value x3
    extract_lets -merge -useContext -underBinder +onlyGivenNames x4
    try clear_value x4
    extract_lets -merge -useContext -underBinder +onlyGivenNames x5
    have hx5 : Within [.flg, .ctr, .pin, .msix] s x5 := by
      unfold x5
      refine Within.step ?_ (State.edgeAt_within _ _ _ _ _ _ _) rfl
      exact Within.refl _ _
    try clear_value x5
    refine Within.ite ?_ ?_
    · assumption
    · extract_lets -merge -useContext -underBinder +onlyGivenNames x6
      have hx6 : Within [.flg, .ctr, .pin, .msix] s x6 := by
        unfold x6
        split
        · refine Within.step ?_ (State.edgeAt_within _ _ _ _ _ _ _) rfl
          assumption
        · assumption
      try clear_value x6
      extract_lets -merge -useContext -underBinder +onlyGivenNames x7
      have hx7 : Within [.flg, .ctr, .pin, .msix] s x7 := by
        unfold x7
        refine Within.ite ?_ ?_
        · refine Within.step ?_ (State.edgeAt_within _ _ _ _ _ _ _) rfl
          assumption
        · assumption
      try clear_value x7
      extract_lets -merge -useContext -underBinder +onlyGivenNames x8
      have hx8 : Within [.flg, .ctr, .pin, .msix] s x8 := by
        unfold x8
        refine Within.step ?_ (State.edgeAt_within _ _ _ _ _ _ _) rfl
        assumption
      try clear_value x8
      split
      · refine Within.ite ?_ ?_
        · assumption
        · refine Within.step ?_ (State.edgeAt_within _ _ _ _ _ _ _) rfl
          assumption
      · assumption

theorem State.addStrobe_within (s : State) (a1 : Sys2Proof.Pg) (a2 : StrobePend) : Within [.pg] s (State.addStrobe s a1 a2) := by
  unfold State.addStrobe
  refine Within.step ?_ (State.modPg_within _ _ _) rfl
  exact Within.refl _ _

theorem State.edgeStrobe_within (s : State) (a1 : Sys2Proof.Pg) (a2 : Fin 16) (a3 : VecCtx) (a4 : Nat) (a5 : Sys2Proof.StrobeSel) (a6 : Nat) : Within [.flg, .ctr, .pg, .msix] s (State.edgeStrobe s a1 a2 a3 a4 a5 a6) := by
  unfold State.edgeStrobe
  refine Within.ite ?_ ?_
  · refine Within.step ?_ (State.setBit_within _ _ _) rfl
    exact Within.refl _ _
  · extract_lets -merge -useContext -underBinder +onlyGivenNames x1
    try clear_value x1
    extract_lets -merge -useContext -underBinder +onlyGivenNames x2
    try clear_value x2
    extract_lets -merge -useContext -underBinder +onlyGivenNames x3
    try clear_value x3
    refine Within.ite ?_ ?_
    · refine Within.step ?_ (State.crowd_within _ _ _) rfl
      exact Within.refl _ _
    · refine Within.step ?_ (State.addStrobe_within _ _ _) rfl
      exact Within.refl _ _

theorem State.windowStrobe_within (s : State) (a1 : Sys2Proof.Pg) (a2 : Fin 16) (a3 : VecCtx) (a4 : Nat) (a5 : Nat) (a6 : Nat) : Within [.flg, .pg, .msix] s (State.windowStrobe s a1 a2 a3 a4 a5 a6) := by
  unfold State.windowStrobe
  extract_lets -merge -useContext -underBinder +onlyGivenNames x1
  try clear_value x1
  extract_lets -merge -useContext -underBinder +onlyGivenNames x2
  try clear_value x2
  extract_lets -merge -useContext -underBinder +onlyGivenNames x3
  have hx3 : Within [.flg, .pg, .msix] s x3 := by
    unfold x3
    refine Within.ite ?_ ?_
    · refine Within.step ?_ (State.setBit_within _ _ _) rfl
      exact Within.refl _ _
    · exact Within.refl _ _
  try clear_value x3
  refine Within.ite ?_ ?_
  · assumption
  · extract_lets -merge -useContext -underBinder +onlyGivenNames x4
    try clear_value x4
    refine Within.step ?_ (State.addStrobe_within _ _ _) rfl
    assumption

theorem State.placeStrobes_within (s : State) (a1 : Sys2Proof.Pg) (a2 : Fin 16) (a3 : VecCtx) (a4 : Nat) : Within [.flg, .ctr, .pg, .msix] s (State.placeStrobes s a1 a2 a3 a4) := by
  unfold State.placeStrobes
  refine Within.ite ?_ ?_
  · exact Within.refl _ _
  · extract_lets -merge -useContext -underBinder +onlyGivenNames x1
    try clear_value x1
    refine Within.ite ?_ ?_
    · split
      · refine Within.step ?_ (State.windowStrobe_within _ _ _ _ _ _ _) rfl
        exact Within.refl _ _
      · refine Within.step ?_ (State.setBitIf_within _ _ _ _) rfl
        exact Within.refl _ _
      · refine Within.step ?_ (State.setBitIf_within _ _ _ _) rfl
        exact Within.refl _ _
      · exact Within.refl _ _
    · split
      · refine Within.ite ?_ ?_
        · refine Within.step ?_ (State.edgeStrobe_within _ _ _ _ _ _ _) rfl
          refine Within.step ?_ (State.edgeStrobe_within _ _ _ _ _ _ _) rfl
          exact Within.refl _ _
        · refine Within.step ?_ (State.edgeStrobe_within _ _ _ _ _ _ _) rfl
          refine Within.step ?_ (State.edgeStrobe_within _ _ _ _ _ _ _) rfl
          exact Within.refl _ _
      · refine Within.step ?_ (State.edgeStrobe_within _ _ _ _ _ _ _) rfl
        exact Within.refl _ _
      · refine Within.step ?_ (State.edgeStrobe_within _ _ _ _ _ _ _) rfl
        exact Within.refl _ _
      · exact Within.refl _ _

theorem State.placeCapture_within (s : State) (a1 : Sys2Proof.Pg) (a2 : Fin 16) (a3 : VecCtx) : Within [.pg] s (State.placeCapture s a1 a2 a3) := by
  unfold State.placeCapture
  extract_lets -merge -useContext -underBinder +onlyGivenNames x1
  try clear_value x1
  refine Within.step ?_ (State.addStrobe_within _ _ _) rfl
  exact Within.refl _ _

theorem State.playPin_within (s : State) (a1 : Sys2Proof.Pg) (a2 : VecCtx) (a3 : Bool) (a4 : Bool) (a5 : BitVec 64) (a6 : Fin 16) : Within [.flg, .ctr, .pg, .pin, .msix] s (State.playPin s a1 a2 a3 a4 a5 a6) := by
  unfold State.playPin
  extract_lets -merge -useContext -underBinder +onlyGivenNames x1
  have hx1 : Within [.flg, .ctr, .pg, .pin, .msix] s x1 := by
    unfold x1
    refine Within.step ?_ (State.modPin_within _ _ _) rfl
    exact Within.refl _ _
  try clear_value x1
  refine Within.ite ?_ ?_
  · refine Within.step ?_ (State.parkPin_within _ _ _ _) rfl
    assumption
  · extract_lets -merge -useContext -underBinder +onlyGivenNames x2
    try clear_value x2
    extract_lets -merge -useContext -underBinder +onlyGivenNames x3
    have hx3 : Within [.flg, .ctr, .pg, .pin, .msix] s x3 := by
      unfold x3
      refine Within.step ?_ (State.placeStrobes_within _ _ _ _ _) rfl
      refine Within.step ?_ (State.driveEdges_within _ _ _ _ _) rfl
      assumption
    try clear_value x3
    refine Within.ite ?_ ?_
    · refine Within.step ?_ (State.placeCapture_within _ _ _ _) rfl
      assumption
    · assumption

theorem State.playVector_within (s : State) (a1 : Sys2Proof.Clu) (a2 : Sys2Proof.Pg) (a3 : BitVec 64) (a4 : VecCtx) (a5 : Nat) (a6 : Nat) : Within [.flg, .ctr, .pg, .pin, .brg, .msix] s (State.playVector s a1 a2 a3 a4 a5 a6) := by
  unfold State.playVector
  extract_lets -merge -useContext -underBinder +onlyGivenNames x1
  try clear_value x1
  extract_lets -merge -useContext -underBinder +onlyGivenNames x2
  try clear_value x2
  extract_lets -merge -useContext -underBinder +onlyGivenNames x3
  try clear_value x3
  extract_lets -merge -useContext -underBinder +onlyGivenNames x4
  have hx4 : Within [.flg, .ctr, .pg, .pin, .brg, .msix] s x4 := by
    unfold x4
    refine Within.step ?_ (State.setBitIf_within _ _ _ _) rfl
    exact Within.refl _ _
  try clear_value x4
  extract_lets -merge -useContext -underBinder +onlyGivenNames x5
  have hx5 : Within [.flg, .ctr, .pg, .pin, .brg, .msix] s x5 := by
    unfold x5
    refine Within.step ?_ (State.setBitIf_within _ _ _ _) rfl
    assumption
  try clear_value x5
  extract_lets -merge -useContext -underBinder +onlyGivenNames x6
  have hx6 : Within [.flg, .ctr, .pg, .pin, .brg, .msix] s x6 := by
    unfold x6
    refine Within.ite ?_ ?_
    · refine Within.step ?_ (State.fire_within _ _ _) rfl
      assumption
    · assumption
  try clear_value x6
  extract_lets -merge -useContext -underBinder +onlyGivenNames x7
  have hx7 : Within [.flg, .ctr, .pg, .pin, .brg, .msix] s x7 := by
    unfold x7
    refine Within.ite ?_ ?_
    · refine Within.step ?_ (State.fire_within _ _ _) rfl
      assumption
    · assumption
  try clear_value x7
  extract_lets -merge -useContext -underBinder +onlyGivenNames x8
  try clear_value x8
  extract_lets -merge -useContext -underBinder +onlyGivenNames x9
  have hx9 : Within [.flg, .ctr, .pg, .pin, .brg, .msix] s x9 := by
    unfold x9
    refine Within.step ?_ (State.modPg_within _ _ _) rfl
    assumption
  try clear_value x9
  refine Within.step ?_ (State.closeVectors_within _ _) rfl
  refine Within.fold ?_ (fun u x hu => ?_)
  · assumption
  · refine Within.step ?_ (State.playPin_within _ _ _ _ _ _ _) rfl
    assumption

theorem State.noteUnlanded_within (s : State) (a1 : Sys2Proof.Clu) (a2 : Play) (a3 : Sys2Proof.Pg) (a4 : VecPos) : Within [.pg] s (State.noteUnlanded s a1 a2 a3 a4) := by
  unfold State.noteUnlanded
  refine Within.ite ?_ ?_
  · exact Within.refl _ _
  · refine Within.step ?_ (State.modPg_within _ _ _) rfl
    exact Within.refl _ _

theorem execVectorStart_within (a0 : Sys2Proof.Pg) (s : State) {t : State} (h : execVectorStart a0 s = .next t) : Within [.clk, .flg, .ctr, .clu, .pg, .pin, .brg, .mem, .msix] s t := by
  unfold execVectorStart at h
  refine Within.guarded ?_ h
  split
  · exact Within.refl _ _
  · extract_lets -merge -useContext -underBinder +onlyGivenNames x1
    try clear_value x1
    extract_lets -merge -useContext -underBinder +onlyGivenNames x2
    try clear_value x2
    extract_lets -merge -useContext -underBinder +onlyGivenNames x3
    try clear_value x3
    extract_lets -merge -useContext -underBinder +onlyGivenNames x4
    try clear_value x4
    refine Within.ite ?_ ?_
    · exact Within.refl _ _
    · extract_lets -merge -useContext -underBinder +onlyGivenNames x5
      have hx5 : Within [.clk, .flg, .ctr, .clu, .pg, .pin, .brg, .mem, .msix] s x5 := by
        unfold x5
        refine Within.step ?_ (State.upto_within _ _) rfl
        exact Within.refl _ _
      try clear_value x5
      extract_lets -merge -useContext -underBinder +onlyGivenNames x6
      try clear_value x6
      extract_lets -merge -useContext -underBinder +onlyGivenNames x7
      have hx7 : Within [.clk, .flg, .ctr, .clu, .pg, .pin, .brg, .mem, .msix] s x7 := by
        unfold x7
        refine Within.step ?_ (State.readerReads_within _ _ _ _ _) rfl
        assumption
      try clear_value x7
      extract_lets -merge -useContext -underBinder +onlyGivenNames x8
      try clear_value x8
      extract_lets -merge -useContext -underBinder +onlyGivenNames x9
      try clear_value x9
      extract_lets -merge -useContext -underBinder +onlyGivenNames x10
      try clear_value x10
      extract_lets -merge -useContext -underBinder +onlyGivenNames x11
      try clear_value x11
      extract_lets -merge -useContext -underBinder +onlyGivenNames x12
      have hx12 : Within [.clk, .flg, .ctr, .clu, .pg, .pin, .brg, .mem, .msix] s x12 := by
        unfold x12
        refine Within.step ?_ (State.setBitIf_within _ _ _ _) rfl
        assumption
      try clear_value x12
      extract_lets -merge -useContext -underBinder +onlyGivenNames x13
      have hx13 : Within [.clk, .flg, .ctr, .clu, .pg, .pin, .brg, .mem, .msix] s x13 := by
        unfold x13
        split
        · refine Within.step ?_ (State.playVector_within _ _ _ _ _ _ _) rfl
          assumption
        · refine Within.step ?_ (State.noteUnlanded_within _ _ _ _ _) rfl
          refine Within.step ?_ (State.modClu_within _ _ _) rfl
          refine Within.fold ?_ (fun u x hu => ?_)
          · assumption
          · refine Within.step ?_ (State.parkPin_within _ _ _ _) rfl
            assumption
      try clear_value x13
      extract_lets -merge -useContext -underBinder +onlyGivenNames x14
      have hx14 : Within [.clk, .flg, .ctr, .clu, .pg, .pin, .brg, .mem, .msix] s x14 := by
        unfold x14
        refine Within.ite ?_ ?_
        · refine Within.step ?_ (State.modClu_within _ _ _) rfl
          assumption
        · assumption
      try clear_value x14
      refine Within.step ?_ (State.modPg_within _ _ _) rfl
      assumption

theorem State.modVec_within (s : State) (a1 : Sys2Proof.Pg) (a2 : Nat) (a3 : VecOpen → VecOpen) : Within [.pg] s (State.modVec s a1 a2 a3) := by
  unfold State.modVec
  refine Within.step ?_ (State.modPg_within _ _ _) rfl
  exact Within.refl _ _

theorem State.matchStrobe_within (s : State) (a1 : Sys2Proof.Pg) (a2 : StrobePend) (a3 : VecOpen) : Within [.flg, .clu, .msix] s (State.matchStrobe s a1 a2 a3) := by
  unfold State.matchStrobe
  refine Within.ite ?_ ?_
  · exact Within.refl _ _
  · extract_lets -merge -useContext -underBinder +onlyGivenNames x1
    try clear_value x1
    extract_lets -merge -useContext -underBinder +onlyGivenNames x2
    try clear_value x2
    extract_lets -merge -useContext -underBinder +onlyGivenNames x3
    try clear_value x3
    extract_lets -merge -useContext -underBinder +onlyGivenNames x4
    try clear_value x4
    refine Within.ite ?_ ?_
    · refine Within.step ?_ (State.modClu_within _ _ _) rfl
      exact Within.refl _ _
    · refine Within.step ?_ (State.setBit_within _ _ _) rfl
      exact Within.refl _ _

theorem State.failStrobe_within (s : State) (a1 : Sys2Proof.Pg) (a2 : StrobePend) (a3 : VecOpen) (a4 : Nat) : Within [.flg, .ctr, .clu, .pg, .brg, .msix] s (State.failStrobe s a1 a2 a3 a4) := by
  unfold State.failStrobe
  extract_lets -merge -useContext -underBinder +onlyGivenNames x1
  try clear_value x1
  extract_lets -merge -useContext -underBinder +onlyGivenNames x2
  try clear_value x2
  extract_lets -merge -useContext -underBinder +onlyGivenNames x3
  try clear_value x3
  extract_lets -merge -useContext -underBinder +onlyGivenNames x4
  have hx4 : Within [.flg, .ctr, .clu, .pg, .brg, .msix] s x4 := by
    unfold x4
    refine Within.ite ?_ ?_
    · refine Within.step ?_ (State.setBit_within _ _ _) rfl
      refine Within.step ?_ (State.count_within _ _ _) rfl
      exact Within.refl _ _
    · exact Within.refl _ _
  try clear_value x4
  extract_lets -merge -useContext -underBinder +onlyGivenNames x5
  have hx5 : Within [.flg, .ctr, .clu, .pg, .brg, .msix] s x5 := by
    unfold x5
    refine Within.ite ?_ ?_
    · refine Within.step ?_ (State.fire_within _ _ _) rfl
      refine Within.step ?_ (State.setBit_within _ _ _) rfl
      refine Within.step ?_ (State.count_within _ _ _) rfl
      assumption
    · assumption
  try clear_value x5
  refine Within.step ?_ (State.matchStrobe_within _ _ _ _) rfl
  refine Within.step ?_ (State.modVec_within _ _ _ _) rfl
  assumption

theorem State.passStrobe_within (s : State) (a1 : Sys2Proof.Pg) (a2 : StrobePend) : Within [.pg] s (State.passStrobe s a1 a2) := by
  unfold State.passStrobe
  refine Within.step ?_ (State.modVec_within _ _ _ _) rfl
  exact Within.refl _ _

theorem State.bothStrobe_within (s : State) (a1 : Sys2Proof.Pg) (a2 : StrobePend) (a3 : Bool) : Within [.flg, .msix] s (State.bothStrobe s a1 a2 a3) := by
  unfold State.bothStrobe
  refine Within.ite ?_ ?_
  · refine Within.step ?_ (State.setBit_within _ _ _) rfl
    refine Within.step ?_ (State.setBit_within _ _ _) rfl
    exact Within.refl _ _
  · exact Within.refl _ _

theorem State.judge_within (s : State) (a1 : Sys2Proof.Pg) (a2 : StrobePend) (a3 : Option Bool) (a4 : Nat) : Within [.flg, .ctr, .clu, .pg, .brg, .msix] s (State.judge s a1 a2 a3 a4) := by
  unfold State.judge
  split
  · refine Within.step ?_ (State.passStrobe_within _ _ _) rfl
    exact Within.refl _ _
  · refine Within.step ?_ (State.failStrobe_within _ _ _ _ _) rfl
    exact Within.refl _ _
  · exact Within.refl _ _

theorem State.dropStrobe_within (s : State) (a1 : Sys2Proof.Pg) (a2 : StrobePend) : Within [.pg] s (State.dropStrobe s a1 a2) := by
  unfold State.dropStrobe
  refine Within.step ?_ (State.modPg_within _ _ _) rfl
  exact Within.refl _ _

theorem execStrobe_within (a0 : Sys2Proof.PinIdx) (a1 : Sys2Proof.StrobeSel) (a2 : Sys2Proof.StrobeSample) (s : State) {t : State} (h : execStrobe a0 a1 a2 s = .next t) : Within [.clk, .flg, .ctr, .clu, .pg, .pin, .brg, .msix] s t := by
  unfold execStrobe at h
  refine Within.guarded ?_ h
  extract_lets -merge -useContext -underBinder +onlyGivenNames x1
  try clear_value x1
  extract_lets -merge -useContext -underBinder +onlyGivenNames x2
  try clear_value x2
  split
  · exact Within.refl _ _
  · extract_lets -merge -useContext -underBinder +onlyGivenNames x3
    try clear_value x3
    split
    · extract_lets -merge -useContext -underBinder +onlyGivenNames x4
      try clear_value x4
      extract_lets -merge -useContext -underBinder +onlyGivenNames x5
      try clear_value x5
      extract_lets -merge -useContext -underBinder +onlyGivenNames x6
      try clear_value x6
      extract_lets -merge -useContext -underBinder +onlyGivenNames x7
      have hx7 : Within [.clk, .flg, .ctr, .clu, .pg, .pin, .brg, .msix] s x7 := by
        unfold x7
        refine Within.step ?_ (State.dropStrobe_within _ _ _) rfl
        refine Within.step ?_ (State.upto_within _ _) rfl
        exact Within.refl _ _
      try clear_value x7
      refine Within.ite ?_ ?_
      · extract_lets -merge -useContext -underBinder +onlyGivenNames x8
        try clear_value x8
        refine Within.step ?_ (State.closeVectors_within _ _) rfl
        refine Within.step ?_ (State.modVec_within _ _ _ _) rfl
        assumption
      · extract_lets -merge -useContext -underBinder +onlyGivenNames x9
        have hx9 : Within [.clk, .flg, .ctr, .clu, .pg, .pin, .brg, .msix] s x9 := by
          unfold x9
          refine Within.step ?_ (State.modPin_within _ _ _) rfl
          assumption
        try clear_value x9
        refine Within.step ?_ (State.closeVectors_within _ _) rfl
        refine Within.step ?_ (State.judge_within _ _ _ _ _) rfl
        refine Within.step ?_ (State.bothStrobe_within _ _ _ _) rfl
        assumption
    · extract_lets -merge -useContext -underBinder +onlyGivenNames x10
      try clear_value x10
      extract_lets -merge -useContext -underBinder +onlyGivenNames x11
      try clear_value x11
      extract_lets -merge -useContext -underBinder +onlyGivenNames x12
      try clear_value x12
      extract_lets -merge -useContext -underBinder +onlyGivenNames x13
      try clear_value x13
      extract_lets -merge -useContext -underBinder +onlyGivenNames x14
      try clear_value x14
      refine Within.step ?_ (State.closeVectors_within _ _) rfl
      refine Within.step ?_ (State.judge_within _ _ _ _ _) rfl
      refine Within.step ?_ (State.bothStrobe_within _ _ _ _) rfl
      refine Within.step ?_ (State.dropStrobe_within _ _ _) rfl
      refine Within.step ?_ (State.upto_within _ _) rfl
      exact Within.refl _ _
    · exact Within.refl _ _

theorem State.ffArm_within (s : State) (a1 : Sys2Proof.Pg) : Within [.flg, .pg, .msix] s (State.ffArm s a1) := by
  unfold State.ffArm
  extract_lets -merge -useContext -underBinder +onlyGivenNames x1
  have hx1 : Within [.flg, .pg, .msix] s x1 := by
    unfold x1
    refine Within.step ?_ (State.modPg_within _ _ _) rfl
    exact Within.refl _ _
  try clear_value x1
  split
  · refine Within.ite ?_ ?_
    · refine Within.step ?_ (State.takeFf_within _ _ _) rfl
      assumption
    · assumption
  · assumption

theorem execFfArm_within (a0 : Sys2Proof.Pg) (s : State) {t : State} (h : execFfArm a0 s = .next t) : Within [.flg, .pg, .msix] s t := by
  unfold execFfArm at h
  refine Within.guarded ?_ h
  refine Within.ite ?_ ?_
  · refine Within.step ?_ (State.ffArm_within _ _) rfl
    exact Within.refl _ _
  · exact Within.refl _ _

theorem execPgCntClr_within (a0 : Sys2Proof.Pg) (s : State) {t : State} (h : execPgCntClr a0 s = .next t) : Within [.ctr] s t := by
  unfold execPgCntClr at h
  refine Within.guarded ?_ h
  refine Within.ite ?_ ?_
  · refine Within.step ?_ (State.clearCtrs_within _ _) rfl
    exact Within.refl _ _
  · exact Within.refl _ _

theorem execPinCntClr_within (a0 : Sys2Proof.PinIdx) (s : State) {t : State} (h : execPinCntClr a0 s = .next t) : Within [.ctr] s t := by
  unfold execPinCntClr at h
  refine Within.guarded ?_ h
  refine Within.ite ?_ ?_
  · refine Within.step ?_ (State.clearCtr_within _ _) rfl
    exact Within.refl _ _
  · exact Within.refl _ _

theorem execTsgCntClr_within (a0 : Sys2Proof.Pg) (s : State) {t : State} (h : execTsgCntClr a0 s = .next t) : Within [.ctr] s t := by
  unfold execTsgCntClr at h
  refine Within.guarded ?_ h
  refine Within.ite ?_ ?_
  · refine Within.step ?_ (State.clearCtr_within _ _) rfl
    exact Within.refl _ _
  · exact Within.refl _ _

theorem State.flRdWrite_within (s : State) (a1 : Sys2Proof.Pg) (a2 : Sys2Proof.Word) : Within [.flg, .pg, .msix] s (State.flRdWrite s a1 a2) := by
  unfold State.flRdWrite
  extract_lets -merge -useContext -underBinder +onlyGivenNames x1
  try clear_value x1
  extract_lets -merge -useContext -underBinder +onlyGivenNames x2
  have hx2 : ∀ u, Within [.flg, .pg, .msix] s u → Within [.flg, .pg, .msix] s (x2 u) := by
    intro u hu
    unfold x2
    refine Within.step ?_ (State.modPg_within _ _ _) rfl
    assumption
  try clear_value x2
  refine Within.ite ?_ ?_
  · refine hx2 _ ?_
    exact Within.refl _ _
  · refine Within.step ?_ (State.setBit_within _ _ _) rfl
    exact Within.refl _ _

theorem execFlRdCountWrite_within (a0 : Sys2Proof.Pg) (a1 : Sys2Proof.Word) (s : State) {t : State} (h : execFlRdCountWrite a0 a1 s = .next t) : Within [.flg, .pg, .msix] s t := by
  unfold execFlRdCountWrite at h
  refine Within.guarded ?_ h
  refine Within.ite ?_ ?_
  · refine Within.step ?_ (State.flRdWrite_within _ _ _) rfl
    exact Within.refl _ _
  · exact Within.refl _ _

theorem execFailRecordWrite_within (a0 : Sys2Proof.Pg) (s : State) {t : State} (h : execFailRecordWrite a0 s = .next t) : Within [.clk, .flg, .ctr, .pg, .mem, .msix, .flt] s t := by
  unfold execFailRecordWrite at h
  refine Within.guarded ?_ h
  extract_lets -merge -useContext -underBinder +onlyGivenNames x1
  try clear_value x1
  split
  · exact Within.refl _ _
  · extract_lets -merge -useContext -underBinder +onlyGivenNames x2
    have hx2 : Within [.clk, .flg, .ctr, .pg, .mem, .msix, .flt] s x2 := by
      unfold x2
      refine Within.step ?_ (State.upto_within _ _) rfl
      exact Within.refl _ _
    try clear_value x2
    extract_lets -merge -useContext -underBinder +onlyGivenNames x3
    try clear_value x3
    extract_lets -merge -useContext -underBinder +onlyGivenNames x4
    try clear_value x4
    extract_lets -merge -useContext -underBinder +onlyGivenNames x5
    try clear_value x5
    extract_lets -merge -useContext -underBinder +onlyGivenNames x6
    try clear_value x6
    extract_lets -merge -useContext -underBinder +onlyGivenNames x7
    have hx7 : Within [.clk, .flg, .ctr, .pg, .mem, .msix, .flt] s x7 := by
      unfold x7
      refine Within.step ?_ (State.modPg_within _ _ _) rfl
      assumption
    try clear_value x7
    refine Within.ite ?_ ?_
    · refine Within.step ?_ (State.setBit_within _ _ _) rfl
      refine Within.step ?_ (State.count_within _ _ _) rfl
      assumption
    · extract_lets -merge -useContext -underBinder +onlyGivenNames x8
      try clear_value x8
      extract_lets -merge -useContext -underBinder +onlyGivenNames x9
      have hx9 : Within [.clk, .flg, .ctr, .pg, .mem, .msix, .flt] s x9 := by
        unfold x9
        refine Within.step ?_ (State.setBitIf_within _ _ _ _) rfl
        refine Within.step ?_ (State.slotGrant_within _ _ _) rfl
        assumption
      try clear_value x9
      extract_lets -merge -useContext -underBinder +onlyGivenNames x10
      have hx10 : Within [.clk, .flg, .ctr, .pg, .mem, .msix, .flt] s x10 := by
        unfold x10
        refine Within.step ?_ (State.modPg_within _ _ _) rfl
        assumption
      try clear_value x10
      refine Within.ite ?_ ?_
      · refine Within.step ?_ (State.spareFollow_within _ _) rfl
        refine Within.step ?_ (State.modPg_within _ _ _) rfl
        assumption
      · refine Within.step ?_ (State.modPg_within _ _ _) rfl
        refine Within.step ?_ (State.violate_within _ _ _ _) rfl
        assumption

theorem execTcal_within (a0 : Sys2Proof.Pg) (s : State) {t : State} (h : execTcal a0 s = .next t) : Within [.pwr, .flg, .cmd, .more, .pg, .msix] s t := by
  unfold execTcal at h
  refine Within.guarded ?_ h
  extract_lets -merge -useContext -underBinder +onlyGivenNames x1
  try clear_value x1
  refine Within.ite ?_ ?_
  · exact Within.refl _ _
  · refine Within.ite ?_ ?_
    · refine Within.step ?_ (State.hold_within _ _) rfl
      exact Within.refl _ _
    · refine Within.ite ?_ ?_
      · refine Within.step ?_ (State.modPg_within _ _ _) rfl
        refine Within.step ?_ (State.cmdShow_within _ _ _) rfl
        exact Within.refl _ _
      · refine Within.step ?_ (State.setBit_within _ _ _) rfl
        refine Within.step ?_ (State.cmdTake_within _ _ _) rfl
        exact Within.refl _ _

theorem execTcalDone_within (a0 : Sys2Proof.Pg) (s : State) {t : State} (h : execTcalDone a0 s = .next t) : Within [.clk, .flg, .cmd, .more, .pg, .msix] s t := by
  unfold execTcalDone at h
  refine Within.guarded ?_ h
  split
  · exact Within.refl _ _
  · refine Within.step ?_ (State.cmdTake_within _ _ _) rfl
    refine Within.step ?_ (State.setBit_within _ _ _) rfl
    refine Within.step ?_ (State.modPg_within _ _ _) rfl
    refine Within.step ?_ (State.upto_within _ _) rfl
    exact Within.refl _ _

theorem State.ncoLoad_within (s : State) (a1 : Sys2Proof.Lane) : Within [.flg, .cmd, .more, .wl, .msix] s (State.ncoLoad s a1) := by
  unfold State.ncoLoad
  refine Within.ite ?_ ?_
  · refine Within.step ?_ (State.setBit_within _ _ _) rfl
    exact Within.refl _ _
  · refine Within.step ?_ (State.modWl_within _ _ _) rfl
    refine Within.step ?_ (State.cmdHold_within _ _ _) rfl
    exact Within.refl _ _

theorem execNcoLoad_within (a0 : Sys2Proof.Lane) (s : State) {t : State} (h : execNcoLoad a0 s = .next t) : Within [.flg, .cmd, .more, .wl, .msix] s t := by
  unfold execNcoLoad at h
  refine Within.guarded ?_ h
  refine Within.ite ?_ ?_
  · refine Within.step ?_ (State.ncoLoad_within _ _) rfl
    exact Within.refl _ _
  · exact Within.refl _ _

theorem State.ncoTick_within (s : State) : Within [.cmd, .more, .wl] s (State.ncoTick s) := by
  unfold State.ncoTick
  refine Within.fold ?_ (fun u x hu => ?_)
  · exact Within.refl _ _
  · refine Within.ite ?_ ?_
    · refine Within.step ?_ (State.ncoLoadAct_within _ _ _) rfl
      assumption
    · assumption

theorem execNcoPlanRead_within (a0 : Sys2Proof.Lane) (s : State) {t : State} (h : execNcoPlanRead a0 s = .next t) : Within [.clk, .wl] s t := by
  unfold execNcoPlanRead at h
  refine Within.guarded ?_ h
  split
  · extract_lets -merge -useContext -underBinder +onlyGivenNames x1
    have hx1 : Within [.clk, .wl] s x1 := by
      unfold x1
      refine Within.step ?_ (State.upto_within _ _) rfl
      exact Within.refl _ _
    try clear_value x1
    extract_lets -merge -useContext -underBinder +onlyGivenNames x2
    try clear_value x2
    refine Within.ite ?_ ?_
    · refine Within.step ?_ (State.modWl_within _ _ _) rfl
      assumption
    · refine Within.step ?_ (State.modWl_within _ _ _) rfl
      assumption
  · exact Within.refl _ _

theorem State.ncoApply_within (s : State) (a1 : Sys2Proof.Lane) (a2 : Nat) (a3 : BitVec 256) : Within [.wl] s (State.ncoApply s a1 a2 a3) := by
  unfold State.ncoApply
  extract_lets -merge -useContext -underBinder +onlyGivenNames x1
  try clear_value x1
  extract_lets -merge -useContext -underBinder +onlyGivenNames x2
  try clear_value x2
  extract_lets -merge -useContext -underBinder +onlyGivenNames x3
  try clear_value x3
  extract_lets -merge -useContext -underBinder +onlyGivenNames x4
  try clear_value x4
  refine Within.step ?_ (State.modWl_within _ _ _) rfl
  exact Within.refl _ _

theorem execNcoAction_within (a0 : Sys2Proof.Lane) (s : State) {t : State} (h : execNcoAction a0 s = .next t) : Within [.clk, .flg, .wl, .msix] s t := by
  unfold execNcoAction at h
  refine Within.guarded ?_ h
  split
  · exact Within.refl _ _
  · extract_lets -merge -useContext -underBinder +onlyGivenNames x1
    try clear_value x1
    extract_lets -merge -useContext -underBinder +onlyGivenNames x2
    try clear_value x2
    refine Within.ite ?_ ?_
    · exact Within.refl _ _
    · extract_lets -merge -useContext -underBinder +onlyGivenNames x3
      have hx3 : Within [.clk, .flg, .wl, .msix] s x3 := by
        unfold x3
        refine Within.step ?_ (State.modWl_within _ _ _) rfl
        refine Within.step ?_ (State.upto_within _ _) rfl
        exact Within.refl _ _
      try clear_value x3
      refine Within.ite ?_ ?_
      · assumption
      · extract_lets -merge -useContext -underBinder +onlyGivenNames x4
        try clear_value x4
        extract_lets -merge -useContext -underBinder +onlyGivenNames x5
        have hx5 : Within [.clk, .flg, .wl, .msix] s x5 := by
          unfold x5
          refine Within.step ?_ (State.ncoUpTo_within _ _ _) rfl
          assumption
        try clear_value x5
        extract_lets -merge -useContext -underBinder +onlyGivenNames x6
        have hx6 : Within [.clk, .flg, .wl, .msix] s x6 := by
          unfold x6
          refine Within.step ?_ (State.setBitIf_within _ _ _ _) rfl
          assumption
        try clear_value x6
        extract_lets -merge -useContext -underBinder +onlyGivenNames x7
        have hx7 : Within [.clk, .flg, .wl, .msix] s x7 := by
          unfold x7
          refine Within.fold ?_ (fun u x hu => ?_)
          · assumption
          · refine Within.step ?_ (State.ncoApply_within _ _ _ _) rfl
            assumption
        try clear_value x7
        extract_lets -merge -useContext -underBinder +onlyGivenNames x8
        have hx8 : Within [.clk, .flg, .wl, .msix] s x8 := by
          unfold x8
          refine Within.ite ?_ ?_
          · assumption
          · refine Within.step ?_ (State.modWl_within _ _ _) rfl
            assumption
        try clear_value x8
        refine Within.step ?_ (State.snapAgain_within _ _ _) rfl
        refine Within.step ?_ (State.bandAt_within _ _ _ _ _) rfl
        assumption

theorem execQbGlideEnd_within (a0 : Sys2Proof.Lane) (s : State) {t : State} (h : execQbGlideEnd a0 s = .next t) : Within [.clk, .wl] s t := by
  unfold execQbGlideEnd at h
  refine Within.guarded ?_ h
  split
  · exact Within.refl _ _
  · refine Within.step ?_ (State.modWl_within _ _ _) rfl
    refine Within.step ?_ (State.upto_within _ _) rfl
    exact Within.refl _ _

theorem execWlnCntClr_within (a0 : Sys2Proof.Lane) (s : State) {t : State} (h : execWlnCntClr a0 s = .next t) : Within [.ctr] s t := by
  unfold execWlnCntClr at h
  refine Within.guarded ?_ h
  refine Within.step ?_ (State.clearCtr_within _ _) rfl
  exact Within.refl _ _

theorem State.ncoSnap_within (s : State) (a1 : Sys2Proof.Lane) : Within [.flg, .wl, .msix] s (State.ncoSnap s a1) := by
  unfold State.ncoSnap
  extract_lets -merge -useContext -underBinder +onlyGivenNames x1
  try clear_value x1
  extract_lets -merge -useContext -underBinder +onlyGivenNames x2
  have hx2 : Within [.flg, .wl, .msix] s x2 := by
    unfold x2
    refine Within.step ?_ (State.ncoUpTo_within _ _ _) rfl
    exact Within.refl _ _
  try clear_value x2
  extract_lets -merge -useContext -underBinder +onlyGivenNames x3
  have hx3 : Within [.flg, .wl, .msix] s x3 := by
    unfold x3
    refine Within.ite ?_ ?_
    · refine Within.step ?_ (State.bandAt_within _ _ _ _ _) rfl
      assumption
    · assumption
  try clear_value x3
  refine Within.step ?_ (State.snapTake_within _ _ _) rfl
  assumption

theorem State.satCount_within (s : State) (a1 : Sys2Proof.Lane) (a2 : Bool) (a3 : Nat) : Within [.flg, .ctr, .msix] s (State.satCount s a1 a2 a3) := by
  unfold State.satCount
  refine Within.ite ?_ ?_
  · refine Within.step ?_ (State.setBit_within _ _ _) rfl
    refine Within.step ?_ (State.count_within _ _ _) rfl
    exact Within.refl _ _
  · exact Within.refl _ _

theorem State.modulate_within (s : State) (a1 : Sys2Proof.Lane) (a2 : Nat) (a3 : Int) : Within [.flg, .ctr, .wl, .msix] s (State.modulate s a1 a2 a3) := by
  unfold State.modulate
  extract_lets -merge -useContext -underBinder +onlyGivenNames x1
  try clear_value x1
  extract_lets -merge -useContext -underBinder +onlyGivenNames x2
  have hx2 : Within [.flg, .ctr, .wl, .msix] s x2 := by
    unfold x2
    refine Within.step ?_ (State.satCount_within _ _ _ _) rfl
    exact Within.refl _ _
  try clear_value x2
  extract_lets -merge -useContext -underBinder +onlyGivenNames x3
  try clear_value x3
  extract_lets -merge -useContext -underBinder +onlyGivenNames x4
  try clear_value x4
  extract_lets -merge -useContext -underBinder +onlyGivenNames x5
  try clear_value x5
  extract_lets -merge -useContext -underBinder +onlyGivenNames x6
  try clear_value x6
  refine Within.step ?_ (State.modWl_within _ _ _) rfl
  assumption

theorem State.unlockedOut_within (s : State) (a1 : Sys2Proof.Lane) : Within [.wl, .freeN] s (State.unlockedOut s a1) := by
  unfold State.unlockedOut
  refine Within.ite ?_ ?_
  · exact Within.refl _ _
  · extract_lets -merge -useContext -underBinder +onlyGivenNames x1
    have hx1 : Within [.wl, .freeN] s x1 := by
      unfold x1
      refine Within.step ?_ (State.modWl_within _ _ _) rfl
      exact Within.refl _ _
    refine Within.step ?_ (Within.set_freeN _ _) rfl
    assumption

theorem State.laneReads_within (s : State) (a1 : Sys2Proof.Lane) (a2 : Option Sys2Proof.Clu) (a3 : Nat) (a4 : Nat) : Within [.clk, .ctr, .mem] s (State.laneReads s a1 a2 a3 a4) := by
  unfold State.laneReads
  split
  · exact Within.refl _ _
  · extract_lets -merge -useContext -underBinder +onlyGivenNames x1
    try clear_value x1
    extract_lets -merge -useContext -underBinder +onlyGivenNames x2
    try clear_value x2
    extract_lets -merge -useContext -underBinder +onlyGivenNames x3
    try clear_value x3
    refine Within.ite ?_ ?_
    · exact Within.refl _ _
    · refine Within.step ?_ (State.readerReads_within _ _ _ _ _) rfl
      exact Within.refl _ _

theorem execModulatorCycle_within (a0 : Sys2Proof.Lane) (s : State) {t : State} (h : execModulatorCycle a0 s = .next t) : Within [.clk, .flg, .ctr, .wl, .mem, .msix, .freeN] s t := by
  unfold execModulatorCycle at h
  refine Within.guarded ?_ h
  refine Within.ite ?_ ?_
  · exact Within.refl _ _
  · extract_lets -merge -useContext -underBinder +onlyGivenNames x1
    try clear_value x1
    extract_lets -merge -useContext -underBinder +onlyGivenNames x2
    try clear_value x2
    extract_lets -merge -useContext -underBinder +onlyGivenNames x3
    have hx3 : Within [.clk, .flg, .ctr, .wl, .mem, .msix, .freeN] s x3 := by
      unfold x3
      refine Within.step ?_ (State.ncoUpTo_within _ _ _) rfl
      refine Within.step ?_ (State.upto_within _ _) rfl
      exact Within.refl _ _
    try clear_value x3
    extract_lets -merge -useContext -underBinder +onlyGivenNames x4
    try clear_value x4
    extract_lets -merge -useContext -underBinder +onlyGivenNames x5
    try clear_value x5
    extract_lets -merge -useContext -underBinder +onlyGivenNames x6
    try clear_value x6
    extract_lets -merge -useContext -underBinder +onlyGivenNames x7
    have hx7 : Within [.clk, .flg, .ctr, .wl, .mem, .msix, .freeN] s x7 := by
      unfold x7
      refine Within.step ?_ (State.laneReads_within _ _ _ _ _) rfl
      assumption
    try clear_value x7
    extract_lets -merge -useContext -underBinder +onlyGivenNames x8
    try clear_value x8
    extract_lets -merge -useContext -underBinder +onlyGivenNames x9
    try clear_value x9
    extract_lets -merge -useContext -underBinder +onlyGivenNames x10
    try clear_value x10
    extract_lets -merge -useContext -underBinder +onlyGivenNames x11
    have hx11 : Within [.clk, .flg, .ctr, .wl, .mem, .msix, .freeN] s x11 := by
      unfold x11
      refine Within.step ?_ (State.modWl_within _ _ _) rfl
      refine Within.step ?_ (State.satCount_within _ _ _ _) rfl
      assumption
    try clear_value x11
    refine Within.step ?_ (State.ncoUpTo_within _ _ _) rfl
    refine Within.step ?_ (State.unlockedOut_within _ _) rfl
    refine Within.step ?_ (State.modulate_within _ _ _ _) rfl
    refine Within.step ?_ (State.satCount_within _ _ _ _) rfl
    assumption

theorem State.laneDrop_within (s : State) (a1 : Sys2Proof.Lane) : Within [.flg, .msix] s (State.laneDrop s a1) := by
  unfold State.laneDrop
  refine Within.step ?_ (State.setBit_within _ _ _) rfl
  exact Within.refl _ _

theorem State.armTake_within (s : State) (a1 : Sys2Proof.Lane) (a2 : Nat) : Within [.cmd, .more] s (State.armTake s a1 a2).1 := by
  unfold State.armTake
  refine Within.step ?_ (State.cmdTake_within _ _ _) rfl
  exact Within.refl _ _

theorem execLaneArm_within (a0 : Sys2Proof.Lane) (s : State) {t : State} (h : execLaneArm a0 s = .next t) : Within [.pwr, .flg, .cmd, .more, .wl, .gov, .msix] s t := by
  unfold execLaneArm at h
  refine Within.guarded ?_ h
  refine Within.ite ?_ ?_
  · exact Within.refl _ _
  · extract_lets -merge -useContext -underBinder +onlyGivenNames x1
    try clear_value x1
    extract_lets -merge -useContext -underBinder +onlyGivenNames x2
    have hx2 : Within [.pwr, .flg, .cmd, .more, .wl, .gov, .msix] s x2.1 := by
      unfold x2
      refine Within.step ?_ (State.armTake_within _ _ _) rfl
      exact Within.refl _ _
    try clear_value x2
    extract_lets -merge -useContext -underBinder +onlyGivenNames x3
    have hx3 : Within [.pwr, .flg, .cmd, .more, .wl, .gov, .msix] s x3 := by
      unfold x3
      assumption
    try clear_value x3
    refine Within.ite ?_ ?_
    · refine Within.step ?_ (State.laneGive_within _ _ _) rfl
      assumption
    · refine Within.ite ?_ ?_
      · refine Within.step ?_ (State.hold_within _ _) rfl
        assumption
      · refine Within.ite ?_ ?_
        · refine Within.step ?_ (State.laneDrop_within _ _) rfl
          refine Within.step ?_ (State.laneCmdEnd_within _ _ _) rfl
          assumption
        · split
          · refine Within.step ?_ (State.govJoin_within _ _ _) rfl
            refine Within.step ?_ (State.modWl_within _ _ _) rfl
            assumption
          · refine Within.ite ?_ ?_
            · assumption
            · refine Within.step ?_ (State.modWl_within _ _ _) rfl
              assumption
          · extract_lets -merge -useContext -underBinder +onlyGivenNames x4
            try clear_value x4
            refine Within.step ?_ (State.laneDrop_within _ _) rfl
            refine Within.ite ?_ ?_
            · assumption
            · refine Within.step ?_ (State.laneCmdEnd_within _ _ _) rfl
              assumption
          · refine Within.step ?_ (State.laneDrop_within _ _) rfl
            assumption
          · refine Within.step ?_ (State.laneDrop_within _ _) rfl
            refine Within.step ?_ (State.laneCmdEnd_within _ _ _) rfl
            assumption

theorem State.laneUnqueue_within (s : State) (a1 : Sys2Proof.Lane) : Within [.cmd, .more, .wl, .gov] s (State.laneUnqueue s a1) := by
  unfold State.laneUnqueue
  extract_lets -merge -useContext -underBinder +onlyGivenNames x1
  extract_lets -merge -useContext -underBinder +onlyGivenNames x2
  have hx2 : Within [.cmd, .more, .wl, .gov] s x2 := by
    unfold x2
    refine Within.step ?_ (Within.set_gov _ _) rfl
    exact Within.refl _ _
  try clear_value x2
  refine Within.step ?_ (State.laneCmdEnd_within _ _ _) rfl
  refine Within.step ?_ (State.laneOff_within _ _) rfl
  assumption

theorem execLaneDisarm_within (a0 : Sys2Proof.Lane) (s : State) {t : State} (h : execLaneDisarm a0 s = .next t) : Within [.flg, .cmd, .more, .wl, .gov, .msix] s t := by
  unfold execLaneDisarm at h
  refine Within.guarded ?_ h
  refine Within.ite ?_ ?_
  · exact Within.refl _ _
  · extract_lets -merge -useContext -underBinder +onlyGivenNames x1
    have hx1 : Within [.flg, .cmd, .more, .wl, .gov, .msix] s x1.1 := by
      unfold x1
      refine Within.step ?_ (State.armTake_within _ _ _) rfl
      exact Within.refl _ _
    try clear_value x1
    extract_lets -merge -useContext -underBinder +onlyGivenNames x2
    have hx2 : Within [.flg, .cmd, .more, .wl, .gov, .msix] s x2 := by
      unfold x2
      refine Within.step ?_ (State.laneGive_within _ _ _) rfl
      refine Within.step ?_ (State.cmdTake_within _ _ _) rfl
      assumption
    try clear_value x2
    split
    · refine Within.step ?_ (State.laneUnqueue_within _ _) rfl
      assumption
    · refine Within.step ?_ (State.laneDisarm_within _ _) rfl
      assumption
    · refine Within.step ?_ (State.laneDisarm_within _ _) rfl
      assumption
    · refine Within.ite ?_ ?_
      · refine Within.step ?_ (State.laneDisarm_within _ _) rfl
        assumption
      · refine Within.step ?_ (State.modWl_within _ _ _) rfl
        assumption
    · refine Within.step ?_ (State.modWl_within _ _ _) rfl
      assumption
    · refine Within.step ?_ (State.laneDrop_within _ _) rfl
      refine Within.ite ?_ ?_
      · refine Within.step ?_ (State.laneCmdEnd_within _ _ _) rfl
        assumption
      · assumption
    · refine Within.step ?_ (State.laneDrop_within _ _) rfl
      refine Within.step ?_ (State.laneCmdEnd_within _ _ _) rfl
      assumption

theorem execLaneCal_within (a0 : Sys2Proof.Lane) (s : State) {t : State} (h : execLaneCal a0 s = .next t) : Within [.pwr, .flg, .cmd, .more, .wl, .gov, .msix] s t := by
  unfold execLaneCal at h
  refine Within.guarded ?_ h
  refine Within.ite ?_ ?_
  · exact Within.refl _ _
  · extract_lets -merge -useContext -underBinder +onlyGivenNames x1
    try clear_value x1
    extract_lets -merge -useContext -underBinder +onlyGivenNames x2
    have hx2 : Within [.pwr, .flg, .cmd, .more, .wl, .gov, .msix] s x2.1 := by
      unfold x2
      refine Within.step ?_ (State.armTake_within _ _ _) rfl
      exact Within.refl _ _
    try clear_value x2
    extract_lets -merge -useContext -underBinder +onlyGivenNames x3
    have hx3 : Within [.pwr, .flg, .cmd, .more, .wl, .gov, .msix] s x3 := by
      unfold x3
      assumption
    try clear_value x3
    refine Within.ite ?_ ?_
    · refine Within.step ?_ (State.laneGive_within _ _ _) rfl
      assumption
    · extract_lets -merge -useContext -underBinder +onlyGivenNames x4
      have hx4 : Within [.pwr, .flg, .cmd, .more, .wl, .gov, .msix] s x4 := by
        unfold x4
        refine Within.ite ?_ ?_
        · refine Within.step ?_ (State.laneGive_within _ _ _) rfl
          refine Within.step ?_ (State.cmdTake_within _ _ _) rfl
          assumption
        · assumption
      try clear_value x4
      refine Within.ite ?_ ?_
      · refine Within.step ?_ (State.hold_within _ _) rfl
        assumption
      · refine Within.ite ?_ ?_
        · refine Within.step ?_ (State.laneDrop_within _ _) rfl
          refine Within.step ?_ (State.laneCmdEnd_within _ _ _) rfl
          assumption
        · split
          · refine Within.ite ?_ ?_
            · refine Within.step ?_ (State.govJoin_within _ _ _) rfl
              refine Within.step ?_ (State.modWl_within _ _ _) rfl
              assumption
            · refine Within.step ?_ (State.laneDrop_within _ _) rfl
              refine Within.step ?_ (State.laneCmdEnd_within _ _ _) rfl
              assumption
          · extract_lets -merge -useContext -underBinder +onlyGivenNames x5
            try clear_value x5
            refine Within.step ?_ (State.laneDrop_within _ _) rfl
            refine Within.ite ?_ ?_
            · assumption
            · refine Within.step ?_ (State.laneCmdEnd_within _ _ _) rfl
              assumption
          · refine Within.step ?_ (State.laneDrop_within _ _) rfl
            refine Within.step ?_ (State.laneGive_within _ _ _) rfl
            assumption

theorem execGovAdmit_within (s : State) {t : State} (h : execGovAdmit s = .next t) : Within [.clk, .eff, .flg, .cmd, .more, .wl, .gov, .msix] s t := by
  unfold execGovAdmit at h
  refine Within.guarded ?_ h
  refine Within.ite ?_ ?_
  · exact Within.refl _ _
  · split
    · exact Within.refl _ _
    · extract_lets -merge -useContext -underBinder +onlyGivenNames x1
      try clear_value x1
      extract_lets -merge -useContext -underBinder +onlyGivenNames x2
      have hx2 : Within [.clk, .eff, .flg, .cmd, .more, .wl, .gov, .msix] s x2 := by
        unfold x2
        refine Within.step ?_ (State.upto_within _ _) rfl
        exact Within.refl _ _
      try clear_value x2
      extract_lets -merge -useContext -underBinder +onlyGivenNames x3
      try clear_value x3
      extract_lets -merge -useContext -underBinder +onlyGivenNames x4
      have hx4 : Within [.clk, .eff, .flg, .cmd, .more, .wl, .gov, .msix] s x4 := by
        unfold x4
        refine Within.step ?_ (Within.set_gov _ _) rfl
        assumption
      try clear_value x4
      extract_lets -merge -useContext -underBinder +onlyGivenNames x5
      try clear_value x5
      split
      · extract_lets -merge -useContext -underBinder +onlyGivenNames x6
        have hx6 : Within [.clk, .eff, .flg, .cmd, .more, .wl, .gov, .msix] s x6 := by
          unfold x6
          refine Within.step ?_ (State.applyDue_within _ _ _) rfl
          refine Within.step ?_ (State.takeSpan_within _ _) rfl
          assumption
        try clear_value x6
        extract_lets -merge -useContext -underBinder +onlyGivenNames x7
        have hx7 : Within [.clk, .eff, .flg, .cmd, .more, .wl, .gov, .msix] s x7 := by
          unfold x7
          refine Within.step ?_ (State.modWl_within _ _ _) rfl
          assumption
        try clear_value x7
        refine Within.step ?_ (State.ncoArm_within _ _) rfl
        assumption
      · extract_lets -merge -useContext -underBinder +onlyGivenNames x8
        have hx8 : Within [.clk, .eff, .flg, .cmd, .more, .wl, .gov, .msix] s x8 := by
          unfold x8
          refine Within.step ?_ (State.takeSpan_within _ _) rfl
          assumption
        try clear_value x8
        refine Within.step ?_ (State.modWl_within _ _ _) rfl
        assumption
      · refine Within.step ?_ (State.laneCmdEnd_within _ _ _) rfl
        refine Within.step ?_ (State.laneOff_within _ _) rfl
        assumption

theorem State.laneFlag_within (s : State) (a1 : Sys2Proof.Lane) (a2 : Nat) (a3 : Nat) (a4 : Nat) (a5 : Nat) : Within [.flg, .ctr, .brg, .msix, .flt] s (State.laneFlag s a1 a2 a3 a4 a5) := by
  unfold State.laneFlag
  extract_lets -merge -useContext -underBinder +onlyGivenNames x1
  have hx1 : Within [.flg, .ctr, .brg, .msix, .flt] s x1 := by
    unfold x1
    refine Within.step ?_ (State.fire_within _ _ _) rfl
    refine Within.step ?_ (State.setBit_within _ _ _) rfl
    refine Within.step ?_ (State.count_within _ _ _) rfl
    exact Within.refl _ _
  try clear_value x1
  refine Within.step ?_ (State.report_within _ _) rfl
  assumption

theorem State.laneTrip_within (s : State) (a1 : Sys2Proof.Lane) (a2 : BitVec 4) (a3 : Nat) : Within [.eff, .flg, .ctr, .cmd, .more, .tabs, .clu, .wl, .gov, .pg, .pin, .host, .msix, .plc] s (State.laneTrip s a1 a2 a3) := by
  unfold State.laneTrip
  extract_lets -merge -useContext -underBinder +onlyGivenNames x1
  have hx1 : Within [.eff, .flg, .ctr, .cmd, .more, .tabs, .clu, .wl, .gov, .pg, .pin, .host, .msix, .plc] s x1 := by
    unfold x1
    refine Within.step ?_ (State.modWl_within _ _ _) rfl
    exact Within.refl _ _
  try clear_value x1
  split
  · assumption
  · refine Within.ite ?_ ?_
    · refine Within.step ?_ (State.stopCluster_within _ _ _ _) rfl
      assumption
    · assumption

theorem State.laneConnect_within (s : State) (a1 : Sys2Proof.Lane) (a2 : Nat) : Within [.eff, .flg, .cmd, .more, .wl, .msix] s (State.laneConnect s a1 a2) := by
  unfold State.laneConnect
  refine Within.step ?_ (State.setBit_within _ _ _) rfl
  refine Within.step ?_ (State.laneCmdEnd_within _ _ _) rfl
  refine Within.step ?_ (State.modWl_within _ _ _) rfl
  refine Within.ite ?_ ?_
  · refine Within.step ?_ (State.takeSpan_within _ _) rfl
    exact Within.refl _ _
  · exact Within.refl _ _

theorem State.probeEnd_within (s : State) (a1 : Sys2Proof.Lane) (a2 : Bool) (a3 : Nat) : Within [.eff, .flg, .ctr, .cmd, .more, .wl, .brg, .msix, .flt] s (State.probeEnd s a1 a2 a3) := by
  unfold State.probeEnd
  extract_lets -merge -useContext -underBinder +onlyGivenNames x1
  have hx1 : Within [.eff, .flg, .ctr, .cmd, .more, .wl, .brg, .msix, .flt] s x1 := by
    unfold x1
    refine Within.ite ?_ ?_
    · refine Within.step ?_ (State.laneFlag_within _ _ _ _ _ _) rfl
      exact Within.refl _ _
    · exact Within.refl _ _
  try clear_value x1
  refine Within.ite ?_ ?_
  · refine Within.step ?_ (State.laneCmdEnd_within _ _ _) rfl
    refine Within.step ?_ (State.modWl_within _ _ _) rfl
    assumption
  · refine Within.step ?_ (State.laneConnect_within _ _ _) rfl
    assumption

theorem execArmProbeEnd_within (a0 : Sys2Proof.Lane) (a1 : Bool) (s : State) {t : State} (h : execArmProbeEnd a0 a1 s = .next t) : Within [.clk, .eff, .flg, .ctr, .cmd, .more, .wl, .brg, .msix, .flt] s t := by
  unfold execArmProbeEnd at h
  refine Within.guarded ?_ h
  extract_lets -merge -useContext -underBinder +onlyGivenNames x1
  try clear_value x1
  refine Within.ite ?_ ?_
  · refine Within.step ?_ (State.probeEnd_within _ _ _ _) rfl
    refine Within.step ?_ (State.upto_within _ _) rfl
    exact Within.refl _ _
  · exact Within.refl _ _

theorem execSpanChangeStart_within (a0 : Sys2Proof.Lane) (s : State) {t : State} (h : execSpanChangeStart a0 s = .next t) : Within [.pwr, .eff, .flg, .wl, .msix] s t := by
  unfold execSpanChangeStart at h
  refine Within.guarded ?_ h
  refine Within.ite ?_ ?_
  · exact Within.refl _ _
  · refine Within.ite ?_ ?_
    · refine Within.step ?_ (State.hold_within _ _) rfl
      exact Within.refl _ _
    · refine Within.step ?_ (State.modWl_within _ _ _) rfl
      refine Within.step ?_ (State.takeSpan_within _ _) rfl
      exact Within.refl _ _

theorem execSpanChangeEnd_within (a0 : Sys2Proof.Lane) (a1 : Bool) (s : State) {t : State} (h : execSpanChangeEnd a0 a1 s = .next t) : Within [.clk, .eff, .flg, .ctr, .cmd, .more, .wl, .gov, .brg, .msix, .flt] s t := by
  unfold execSpanChangeEnd at h
  refine Within.guarded ?_ h
  extract_lets -merge -useContext -underBinder +onlyGivenNames x1
  try clear_value x1
  refine Within.ite ?_ ?_
  · exact Within.refl _ _
  · extract_lets -merge -useContext -underBinder +onlyGivenNames x2
    have hx2 : Within [.clk, .eff, .flg, .ctr, .cmd, .more, .wl, .gov, .brg, .msix, .flt] s x2 := by
      unfold x2
      refine Within.step ?_ (State.probeEnd_within _ _ _ _) rfl
      refine Within.step ?_ (State.upto_within _ _) rfl
      exact Within.refl _ _
    try clear_value x2
    refine Within.ite ?_ ?_
    · refine Within.step ?_ (State.laneDisarm_within _ _) rfl
      assumption
    · assumption

theorem execCalDone_within (a0 : Sys2Proof.Lane) (a1 : BitVec 18) (a2 : BitVec 12) (s : State) {t : State} (h : execCalDone a0 a1 a2 s = .next t) : Within [.clk, .flg, .cmd, .more, .wl, .gov, .msix] s t := by
  unfold execCalDone at h
  refine Within.guarded ?_ h
  refine Within.ite ?_ ?_
  · exact Within.refl _ _
  · extract_lets -merge -useContext -underBinder +onlyGivenNames x1
    have hx1 : Within [.clk, .flg, .cmd, .more, .wl, .gov, .msix] s x1 := by
      unfold x1
      refine Within.step ?_ (State.modWl_within _ _ _) rfl
      refine Within.step ?_ (State.upto_within _ _) rfl
      exact Within.refl _ _
    try clear_value x1
    refine Within.step ?_ (State.laneDisarm_within _ _) rfl
    refine Within.step ?_ (State.setBit_within _ _ _) rfl
    assumption

theorem execWComplianceFlag_within (a0 : Sys2Proof.Lane) (a1 : Sys2Proof.BallSide) (a2 : Nat) (s : State) {t : State} (h : execWComplianceFlag a0 a1 a2 s = .next t) : Within [.clk, .eff, .flg, .ctr, .cmd, .more, .tabs, .clu, .wl, .gov, .pg, .pin, .brg, .host, .msix, .flt, .plc] s t := by
  unfold execWComplianceFlag at h
  refine Within.guarded ?_ h
  extract_lets -merge -useContext -underBinder +onlyGivenNames x1
  have hx1 : Within [.clk, .eff, .flg, .ctr, .cmd, .more, .tabs, .clu, .wl, .gov, .pg, .pin, .brg, .host, .msix, .flt, .plc] s x1 := by
    unfold x1
    refine Within.step ?_ (State.upto_within _ _) rfl
    exact Within.refl _ _
  extract_lets -merge -useContext -underBinder +onlyGivenNames x2
  extract_lets -merge -useContext -underBinder +onlyGivenNames x3
  refine Within.ite ?_ ?_
  · assumption
  · extract_lets -merge -useContext -underBinder +onlyGivenNames x4
    have hx4 : Within [.clk, .eff, .flg, .ctr, .cmd, .more, .tabs, .clu, .wl, .gov, .pg, .pin, .brg, .host, .msix, .flt, .plc] s x4 := by
      unfold x4
      split
      · refine Within.step ?_ (State.modWl_within _ _ _) rfl
        refine Within.step ?_ (State.laneFlag_within _ _ _ _ _ _) rfl
        assumption
      · refine Within.step ?_ (State.modWl_within _ _ _) rfl
        refine Within.step ?_ (State.laneFlag_within _ _ _ _ _ _) rfl
        assumption
    refine Within.ite ?_ ?_
    · assumption
    · refine Within.step ?_ (State.laneTrip_within _ _ _ _) rfl
      assumption

theorem execWOpenLoadFlag_within (a0 : Sys2Proof.Lane) (a1 : Sys2Proof.FlagTick) (s : State) {t : State} (h : execWOpenLoadFlag a0 a1 s = .next t) : Within [.clk, .eff, .flg, .ctr, .cmd, .more, .tabs, .clu, .wl, .gov, .pg, .pin, .brg, .host, .msix, .flt, .plc] s t := by
  unfold execWOpenLoadFlag at h
  refine Within.guarded ?_ h
  extract_lets -merge -useContext -underBinder +onlyGivenNames x1
  have hx1 : Within [.clk, .eff, .flg, .ctr, .cmd, .more, .tabs, .clu, .wl, .gov, .pg, .pin, .brg, .host, .msix, .flt, .plc] s x1 := by
    unfold x1
    refine Within.step ?_ (State.upto_within _ _) rfl
    exact Within.refl _ _
  try clear_value x1
  extract_lets -merge -useContext -underBinder +onlyGivenNames x2
  try clear_value x2
  refine Within.ite ?_ ?_
  · assumption
  · extract_lets -merge -useContext -underBinder +onlyGivenNames x3
    have hx3 : Within [.clk, .eff, .flg, .ctr, .cmd, .more, .tabs, .clu, .wl, .gov, .pg, .pin, .brg, .host, .msix, .flt, .plc] s x3 := by
      unfold x3
      refine Within.step ?_ (State.modWl_within _ _ _) rfl
      refine Within.step ?_ (State.laneFlag_within _ _ _ _ _ _) rfl
      assumption
    try clear_value x3
    refine Within.ite ?_ ?_
    · assumption
    · refine Within.step ?_ (State.laneTrip_within _ _ _ _) rfl
      assumption

theorem execCompCntClr_within (a0 : Sys2Proof.Lane) (s : State) {t : State} (h : execCompCntClr a0 s = .next t) : Within [.ctr] s t := by
  unfold execCompCntClr at h
  refine Within.guarded ?_ h
  refine Within.step ?_ (State.clearCtr_within _ _) rfl
  exact Within.refl _ _

theorem State.monDisturb_within (s : State) (a1 : Sys2Proof.Lvl) : Within [.mon] s (State.monDisturb s a1) := by
  unfold State.monDisturb
  refine Within.ite ?_ ?_
  · refine Within.step ?_ (Within.set_mon _ _) rfl
    exact Within.refl _ _
  · exact Within.refl _ _

theorem State.lvlSettle_within (s : State) (a1 : Sys2Proof.Lvl) : Within [.lvl] s (State.lvlSettle s a1) := by
  unfold State.lvlSettle
  refine Within.step ?_ (State.modLvl_within _ _ _) rfl
  exact Within.refl _ _

theorem execLvlOeWrite_within (a0 : Sys2Proof.Lvl) (s : State) {t : State} (h : execLvlOeWrite a0 s = .next t) : Within [.pwr, .lvl] s t := by
  unfold execLvlOeWrite at h
  refine Within.guarded ?_ h
  extract_lets -merge -useContext -underBinder +onlyGivenNames x1
  try clear_value x1
  extract_lets -merge -useContext -underBinder +onlyGivenNames x2
  try clear_value x2
  refine Within.ite ?_ ?_
  · exact Within.refl _ _
  · refine Within.ite ?_ ?_
    · refine Within.step ?_ (State.hold_within _ _) rfl
      exact Within.refl _ _
    · extract_lets -merge -useContext -underBinder +onlyGivenNames x3
      have hx3 : Within [.pwr, .lvl] s x3 := by
        unfold x3
        refine Within.step ?_ (State.modLvl_within _ _ _) rfl
        exact Within.refl _ _
      try clear_value x3
      refine Within.ite ?_ ?_
      · refine Within.ite ?_ ?_
        · refine Within.step ?_ (State.lvlSettle_within _ _) rfl
          assumption
        · assumption
      · refine Within.step ?_ (State.modLvl_within _ _ _) rfl
        assumption

theorem execLvlConnect_within (a0 : Sys2Proof.Lvl) (s : State) {t : State} (h : execLvlConnect a0 s = .next t) : Within [.clk, .flg, .lvl, .mon, .msix] s t := by
  unfold execLvlConnect at h
  refine Within.guarded ?_ h
  extract_lets -merge -useContext -underBinder +onlyGivenNames x1
  try clear_value x1
  refine Within.ite ?_ ?_
  · exact Within.refl _ _
  · extract_lets -merge -useContext -underBinder +onlyGivenNames x2
    have hx2 : Within [.clk, .flg, .lvl, .mon, .msix] s x2 := by
      unfold x2
      refine Within.step ?_ (State.modLvl_within _ _ _) rfl
      refine Within.step ?_ (State.upto_within _ _) rfl
      exact Within.refl _ _
    try clear_value x2
    refine Within.step ?_ (State.monDisturb_within _ _) rfl
    refine Within.step ?_ (State.setBitIf_within _ _ _ _) rfl
    refine Within.step ?_ (State.setBit_within _ _ _) rfl
    assumption

theorem execLvlReconnect_within (a0 : Sys2Proof.Lvl) (s : State) {t : State} (h : execLvlReconnect a0 s = .next t) : Within [.pwr, .cmd, .more, .lvl] s t := by
  unfold execLvlReconnect at h
  refine Within.guarded ?_ h
  refine Within.ite ?_ ?_
  · refine Within.step ?_ (State.hold_within _ _) rfl
    refine Within.step ?_ (State.cmdHold_within _ _ _) rfl
    exact Within.refl _ _
  · extract_lets -merge -useContext -underBinder +onlyGivenNames x1
    have hx1 : Within [.pwr, .cmd, .more, .lvl] s x1 := by
      unfold x1
      refine Within.step ?_ (State.cmdDrop_within _ _ _) rfl
      exact Within.refl _ _
    try clear_value x1
    refine Within.ite ?_ ?_
    · refine Within.step ?_ (State.lvlSettle_within _ _) rfl
      assumption
    · assumption

theorem State.lvlSwitch_within (s : State) (a1 : Sys2Proof.Lvl) (a2 : Nat) (a3 : Bool) : Within [.flg, .lvl, .msix, .freeN] s (State.lvlSwitch s a1 a2 a3) := by
  unfold State.lvlSwitch
  extract_lets -merge -useContext -underBinder +onlyGivenNames x1
  try clear_value x1
  refine Within.ite ?_ ?_
  · extract_lets -merge -useContext -underBinder +onlyGivenNames x2
    have hx2 : Within [.flg, .lvl, .msix, .freeN] s x2.2 := by
      unfold x2
      refine Within.step ?_ (State.free_within _) rfl
      exact Within.refl _ _
    try clear_value x2
    extract_lets -merge -useContext -underBinder +onlyGivenNames x3
    try clear_value x3
    refine Within.step ?_ (State.setBitIf_within _ _ _ _) rfl
    refine Within.step ?_ (State.modLvl_within _ _ _) rfl
    assumption
  · refine Within.step ?_ (State.modLvl_within _ _ _) rfl
    exact Within.refl _ _

theorem State.lvlSpanTake_within (s : State) (a1 : Sys2Proof.Lvl) : Within [.flg, .lvl, .mon, .msix, .freeN] s (State.lvlSpanTake s a1) := by
  unfold State.lvlSpanTake
  extract_lets -merge -useContext -underBinder +onlyGivenNames x1
  try clear_value x1
  extract_lets -merge -useContext -underBinder +onlyGivenNames x2
  try clear_value x2
  refine Within.ite ?_ ?_
  · exact Within.refl _ _
  · extract_lets -merge -useContext -underBinder +onlyGivenNames x3
    try clear_value x3
    extract_lets -merge -useContext -underBinder +onlyGivenNames x4
    try clear_value x4
    extract_lets -merge -useContext -underBinder +onlyGivenNames x5
    have hx5 : Within [.flg, .lvl, .mon, .msix, .freeN] s x5 := by
      unfold x5
      refine Within.step ?_ (State.setBitIf_within _ _ _ _) rfl
      exact Within.refl _ _
    try clear_value x5
    extract_lets -merge -useContext -underBinder +onlyGivenNames x6
    try clear_value x6
    extract_lets -merge -useContext -underBinder +onlyGivenNames x7
    have hx7 : Within [.flg, .lvl, .mon, .msix, .freeN] s x7 := by
      unfold x7
      refine Within.step ?_ (State.monDisturb_within _ _) rfl
      refine Within.step ?_ (State.lvlSwitch_within _ _ _ _) rfl
      assumption
    try clear_value x7
    refine Within.ite ?_ ?_
    · assumption
    · refine Within.step ?_ (State.modLvl_within _ _ _) rfl
      assumption

theorem execLvlSpanWrite_within (a0 : Sys2Proof.Lvl) (s : State) {t : State} (h : execLvlSpanWrite a0 s = .next t) : Within [.flg, .lvl, .mon, .msix, .freeN] s t := by
  unfold execLvlSpanWrite at h
  refine Within.guarded ?_ h
  refine Within.step ?_ (State.lvlSpanTake_within _ _) rfl
  exact Within.refl _ _

theorem State.codeNote_within (s : State) (a1 : Sys2Proof.Lvl) : Within [.lvl] s (State.codeNote s a1) := by
  unfold State.codeNote
  refine Within.ite ?_ ?_
  · exact Within.refl _ _
  · refine Within.step ?_ (State.modLvl_within _ _ _) rfl
    exact Within.refl _ _

theorem execLvlSpanChangeEnd_within (a0 : Sys2Proof.Lvl) (s : State) {t : State} (h : execLvlSpanChangeEnd a0 s = .next t) : Within [.clk, .flg, .lvl, .mon, .msix] s t := by
  unfold execLvlSpanChangeEnd at h
  refine Within.guarded ?_ h
  extract_lets -merge -useContext -underBinder +onlyGivenNames x1
  try clear_value x1
  refine Within.ite ?_ ?_
  · extract_lets -merge -useContext -underBinder +onlyGivenNames x2
    have hx2 : Within [.clk, .flg, .lvl, .mon, .msix] s x2 := by
      unfold x2
      refine Within.step ?_ (State.modLvl_within _ _ _) rfl
      refine Within.step ?_ (State.upto_within _ _) rfl
      exact Within.refl _ _
    try clear_value x2
    refine Within.step ?_ (State.monDisturb_within _ _) rfl
    refine Within.step ?_ (State.setBitIf_within _ _ _ _) rfl
    refine Within.step ?_ (State.setBit_within _ _ _) rfl
    assumption
  · refine Within.ite ?_ ?_
    · refine Within.step ?_ (State.setBit_within _ _ _) rfl
      refine Within.step ?_ (State.modLvl_within _ _ _) rfl
      refine Within.step ?_ (State.upto_within _ _) rfl
      exact Within.refl _ _
    · exact Within.refl _ _

theorem execLoadNEdge_within (a0 : Sys2Proof.LoadPulse) (s : State) {t : State} (h : execLoadNEdge a0 s = .next t) : Within [.clk, .flg, .lg, .brg, .msix] s t := by
  unfold execLoadNEdge at h
  refine Within.guarded ?_ h
  extract_lets -merge -useContext -underBinder +onlyGivenNames x1
  try clear_value x1
  extract_lets -merge -useContext -underBinder +onlyGivenNames x2
  have hx2 : Within [.clk, .flg, .lg, .brg, .msix] s x2 := by
    unfold x2
    refine Within.step ?_ (State.modBrg_within _ _) rfl
    refine Within.step ?_ (State.fire_within _ _ _) rfl
    refine Within.step ?_ (State.upto_within _ _) rfl
    exact Within.refl _ _
  try clear_value x2
  refine Within.ite ?_ ?_
  · refine Within.fold ?_ (fun u x hu => ?_)
    · assumption
    · refine Within.ite ?_ ?_
      · refine Within.step ?_ (State.strobeFire_within _ _ _) rfl
        assumption
      · assumption
  · assumption

theorem execLgLoad_within (a0 : Sys2Proof.Lg) (s : State) {t : State} (h : execLgLoad a0 s = .next t) : Within [.flg, .cmd, .more, .lg, .msix] s t := by
  unfold execLgLoad at h
  refine Within.guarded ?_ h
  refine Within.step ?_ (State.strobeFire_within _ _ _) rfl
  refine Within.step ?_ (State.cmdTake_within _ _ _) rfl
  exact Within.refl _ _

theorem execLoadCapture_within (a0 : Sys2Proof.Lg) (s : State) {t : State} (h : execLoadCapture a0 s = .next t) : Within [.clk, .flg, .ctr, .lg, .msix] s t := by
  unfold execLoadCapture at h
  refine Within.guarded ?_ h
  split
  · exact Within.refl _ _
  · extract_lets -merge -useContext -underBinder +onlyGivenNames x1
    have hx1 : Within [.clk, .flg, .ctr, .lg, .msix] s x1 := by
      unfold x1
      refine Within.step ?_ (State.upto_within _ _) rfl
      exact Within.refl _ _
    try clear_value x1
    extract_lets -merge -useContext -underBinder +onlyGivenNames x2
    try clear_value x2
    extract_lets -merge -useContext -underBinder +onlyGivenNames x3
    try clear_value x3
    extract_lets -merge -useContext -underBinder +onlyGivenNames x4
    try clear_value x4
    extract_lets -merge -useContext -underBinder +onlyGivenNames x5
    have hx5 : Within [.clk, .flg, .ctr, .lg, .msix] s x5 := by
      unfold x5
      refine Within.step ?_ (State.setBitIf_within _ _ _ _) rfl
      refine Within.step ?_ (State.count_within _ _ _) rfl
      assumption
    try clear_value x5
    refine Within.step ?_ (State.modLg_within _ _ _) rfl
    assumption

theorem State.lvlLoad_within (s : State) (a1 : Sys2Proof.Lvl) (a2 : BitVec 20) : Within [.lvl, .mon] s (State.lvlLoad s a1 a2) := by
  unfold State.lvlLoad
  refine Within.step ?_ (State.monDisturb_within _ _) rfl
  refine Within.step ?_ (State.modLvl_within _ _ _) rfl
  exact Within.refl _ _

theorem execLoadInstant_within (a0 : Sys2Proof.Lg) (s : State) {t : State} (h : execLoadInstant a0 s = .next t) : Within [.clk, .lvl, .lg, .mon] s t := by
  unfold execLoadInstant at h
  refine Within.guarded ?_ h
  split
  · exact Within.refl _ _
  · extract_lets -merge -useContext -underBinder +onlyGivenNames x1
    have hx1 : Within [.clk, .lvl, .lg, .mon] s x1 := by
      unfold x1
      refine Within.step ?_ (State.upto_within _ _) rfl
      exact Within.refl _ _
    try clear_value x1
    extract_lets -merge -useContext -underBinder +onlyGivenNames x2
    try clear_value x2
    extract_lets -merge -useContext -underBinder +onlyGivenNames x3
    have hx3 : Within [.clk, .lvl, .lg, .mon] s x3 := by
      unfold x3
      refine Within.step ?_ (State.modLg_within _ _ _) rfl
      assumption
    try clear_value x3
    refine Within.fold ?_ (fun u x hu => ?_)
    · assumption
    · split
      · refine Within.step ?_ (State.lvlLoad_within _ _ _) rfl
        assumption
      · assumption

theorem execLgCntClr_within (a0 : Sys2Proof.Lg) (s : State) {t : State} (h : execLgCntClr a0 s = .next t) : Within [.ctr] s t := by
  unfold execLgCntClr at h
  refine Within.guarded ?_ h
  refine Within.step ?_ (State.clearCtr_within _ _) rfl
  exact Within.refl _ _

theorem execLvlCntClr_within (a0 : Sys2Proof.Lvl) (s : State) {t : State} (h : execLvlCntClr a0 s = .next t) : Within [.ctr] s t := by
  unfold execLvlCntClr at h
  refine Within.guarded ?_ h
  refine Within.step ?_ (State.clearCtr_within _ _) rfl
  exact Within.refl _ _

theorem State.lvlFlag_within (s : State) (a1 : Sys2Proof.Lvl) (a2 : Nat) (a3 : Nat) (a4 : BitVec 4) (a5 : Nat) : Within [.clk, .flg, .ctr, .lvl, .brg, .msix, .flt] s (State.lvlFlag s a1 a2 a3 a4 a5) := by
  unfold State.lvlFlag
  extract_lets -merge -useContext -underBinder +onlyGivenNames x1
  have hx1 : Within [.clk, .flg, .ctr, .lvl, .brg, .msix, .flt] s x1 := by
    unfold x1
    refine Within.step ?_ (State.upto_within _ _) rfl
    exact Within.refl _ _
  try clear_value x1
  extract_lets -merge -useContext -underBinder +onlyGivenNames x2
  try clear_value x2
  refine Within.ite ?_ ?_
  · assumption
  · extract_lets -merge -useContext -underBinder +onlyGivenNames x3
    try clear_value x3
    extract_lets -merge -useContext -underBinder +onlyGivenNames x4
    have hx4 : Within [.clk, .flg, .ctr, .lvl, .brg, .msix, .flt] s x4 := by
      unfold x4
      refine Within.step ?_ (State.fire_within _ _ _) rfl
      refine Within.step ?_ (State.setBit_within _ _ _) rfl
      refine Within.step ?_ (State.count_within _ _ _) rfl
      assumption
    try clear_value x4
    extract_lets -merge -useContext -underBinder +onlyGivenNames x5
    have hx5 : Within [.clk, .flg, .ctr, .lvl, .brg, .msix, .flt] s x5 := by
      unfold x5
      refine Within.step ?_ (State.report_within _ _) rfl
      assumption
    try clear_value x5
    refine Within.ite ?_ ?_
    · assumption
    · refine Within.step ?_ (State.modLvl_within _ _ _) rfl
      assumption

theorem execLvlComplianceFlag_within (a0 : Sys2Proof.Lvl) (a1 : Sys2Proof.LoadAsk) (s : State) {t : State} (h : execLvlComplianceFlag a0 a1 s = .next t) : Within [.clk, .flg, .ctr, .lvl, .brg, .msix, .flt] s t := by
  unfold execLvlComplianceFlag at h
  refine Within.guarded ?_ h
  extract_lets -merge -useContext -underBinder +onlyGivenNames x1
  try clear_value x1
  refine Within.ite ?_ ?_
  · refine Within.step ?_ (State.upto_within _ _) rfl
    exact Within.refl _ _
  · refine Within.step ?_ (State.modLvl_within _ _ _) rfl
    refine Within.step ?_ (State.lvlFlag_within _ _ _ _ _ _) rfl
    exact Within.refl _ _

theorem execLvlOpenLoopFlag_within (a0 : Sys2Proof.Lvl) (a1 : Sys2Proof.FlagTick) (s : State) {t : State} (h : execLvlOpenLoopFlag a0 a1 s = .next t) : Within [.clk, .flg, .ctr, .lvl, .brg, .msix, .flt] s t := by
  unfold execLvlOpenLoopFlag at h
  refine Within.guarded ?_ h
  refine Within.ite ?_ ?_
  · refine Within.step ?_ (State.upto_within _ _) rfl
    exact Within.refl _ _
  · refine Within.step ?_ (State.modLvl_within _ _ _) rfl
    refine Within.step ?_ (State.lvlFlag_within _ _ _ _ _ _) rfl
    exact Within.refl _ _

theorem State.monNext_within (s : State) (a1 : Option (Fin 8)) : Within [.mon] s (State.monNext s a1) := by
  unfold State.monNext
  refine Within.step ?_ (Within.set_mon _ _) rfl
  exact Within.refl _ _

theorem State.monTick_within (s : State) : Within [.mon] s (State.monTick s) := by
  unfold State.monTick
  refine Within.ite ?_ ?_
  · refine Within.step ?_ (State.monNext_within _ _) rfl
    exact Within.refl _ _
  · exact Within.refl _ _

theorem execMonConversion_within (a0 : Sys2Proof.MonMeasure) (s : State) {t : State} (h : execMonConversion a0 s = .next t) : Within [.clk, .mon] s t := by
  unfold execMonConversion at h
  refine Within.guarded ?_ h
  split
  · exact Within.refl _ _
  · extract_lets -merge -useContext -underBinder +onlyGivenNames x1
    have hx1 : Within [.clk, .mon] s x1 := by
      unfold x1
      refine Within.step ?_ (State.upto_within _ _) rfl
      exact Within.refl _ _
    try clear_value x1
    extract_lets -merge -useContext -underBinder +onlyGivenNames x2
    try clear_value x2
    extract_lets -merge -useContext -underBinder +onlyGivenNames x3
    try clear_value x3
    extract_lets -merge -useContext -underBinder +onlyGivenNames x4
    try clear_value x4
    refine Within.step ?_ (State.monNext_within _ _) rfl
    refine Within.step ?_ (Within.set_mon _ _) rfl
    assumption

end Sys2Proof.Machine
end

