-- ==== Sys2Proof/Laws/FrameMemory.lean ====
section
/-! SUPPORT. Frames of the operations and commands of DRAM, the on-chip memories and the windows: the parts of the state that each may change. -/
namespace Sys2Proof.Machine

theorem State.evict_within (s : State) (a1 : Nat) : Within [.mem] s (State.evict s a1) := by
  unfold State.evict
  refine Within.step ?_ (Within.set_mem _ _ rfl) rfl
  exact Within.refl _ _

theorem State.arrive_within (s : State) (a1 : InFlight) : Within [.dram] s (State.arrive s a1) := by
  unfold State.arrive
  extract_lets -merge -useContext -underBinder +onlyGivenNames x1
  try clear_value x1
  extract_lets -merge -useContext -underBinder +onlyGivenNames x2
  have hx2 : Within [.dram] s x2 := by
    unfold x2
    refine Within.step ?_ (State.modChan_within _ _ _) rfl
    exact Within.refl _ _
  try clear_value x2
  refine Within.step ?_ (Within.set_dram _ _ rfl rfl) rfl
  assumption

theorem State.admitFrom_within (a0 : List InFlight) (a1 : List (Fin 44)) (s : State) : Within [.dram] s (State.admitFrom a0 a1 s) := by
  induction a0 generalizing a1 s with
  | nil => exact Within.refl _ _
  | cons x r ih =>
    unfold State.admitFrom
    refine Within.ite (ih _ _) ?_
    refine Within.step (m := [.dram]) ?_ (ih _ _) rfl
    refine Within.step (m := [.dram]) ?_ (Within.set_dram _ _ rfl rfl) rfl
    exact State.arrive_within s x

theorem State.takePlaces_within (s : State) : Within [.dram] s (State.takePlaces s) := by
  unfold State.takePlaces
  refine Within.step ?_ (State.admitFrom_within _ _ _) rfl
  exact Within.refl _ _

theorem State.issue_within (s : State) (a1 : Sys2Proof.AccessTag) (a2 : Option (Sys2Proof.Clu × Nat)) : Within [.dram, .mem] s (State.issue s a1 a2) := by
  unfold State.issue
  extract_lets -merge -useContext -underBinder +onlyGivenNames x1
  try clear_value x1
  extract_lets -merge -useContext -underBinder +onlyGivenNames x2
  try clear_value x2
  extract_lets -merge -useContext -underBinder +onlyGivenNames x3
  extract_lets -merge -useContext -underBinder +onlyGivenNames x4
  have hx4 : Within [.dram, .mem] s x4 := by
    unfold x4
    refine Within.step ?_ (Within.set_mem _ _ rfl) rfl
    exact Within.refl _ _
  try clear_value x4
  refine Within.step ?_ (State.takePlaces_within _) rfl
  refine Within.step ?_ (Within.set_dram _ _ rfl rfl) rfl
  assumption

theorem State.issueLoader_within (s : State) (a1 : Sys2Proof.AccessTag) : Within [.dram] s (State.issueLoader s a1) := by
  unfold State.issueLoader
  refine Within.step ?_ (State.takePlaces_within _) rfl
  refine Within.step ?_ (Within.set_dram _ _ rfl rfl) rfl
  exact Within.refl _ _

theorem State.issueNow_within (s : State) (a1 : Sys2Proof.AccessTag) : Within [.clu, .dram, .mem] s (State.issueNow s a1) := by
  unfold State.issueNow
  refine Within.ite ?_ ?_
  · refine Within.step ?_ (State.issueLoader_within _ _) rfl
    exact Within.refl _ _
  · split
    · refine Within.step ?_ (State.issue_within _ _ _) rfl
      refine Within.step ?_ (State.modClu_within _ _ _) rfl
      exact Within.refl _ _
    · refine Within.ite ?_ ?_
      · refine Within.step ?_ (State.issue_within _ _ _) rfl
        exact Within.refl _ _
      · split
        · exact Within.refl _ _
        · extract_lets -merge -useContext -underBinder +onlyGivenNames x1
          try clear_value x1
          refine Within.step ?_ (State.issue_within _ _ _) rfl
          split
          · refine Within.step ?_ (State.evict_within _ _) rfl
            exact Within.refl _ _
          · exact Within.refl _ _

theorem execAccessIssue_within (a0 : Sys2Proof.AccessTag) (a1 : Nat) (s : State) {t : State} (h : execAccessIssue a0 a1 s = .next t) : Within [.clk, .clu, .dram, .mem] s t := by
  unfold execAccessIssue at h
  refine Within.guarded ?_ h
  extract_lets -merge -useContext -underBinder +onlyGivenNames x1
  have hx1 : Within [.clk, .clu, .dram, .mem] s x1 := by
    unfold x1
    refine Within.step ?_ (State.upto_within _ _) rfl
    exact Within.refl _ _
  try clear_value x1
  refine Within.ite ?_ ?_
  · refine Within.step ?_ (State.issueNow_within _ _) rfl
    assumption
  · assumption

theorem State.landSlot_within (s : State) (a1 : Sys2Proof.AccessTag) (a2 : Bool) (a3 : Slot) : Within [.mem] s (State.landSlot s a1 a2 a3) := by
  unfold State.landSlot
  extract_lets -merge -useContext -underBinder +onlyGivenNames x1
  try clear_value x1
  refine Within.step ?_ (Within.set_mem _ _ rfl) rfl
  exact Within.refl _ _

theorem State.afterLanding_within (s : State) (a1 : Sys2Proof.AccessTag) (a2 : Slot) : Within [.flg, .ctr, .clu, .msix, .flt, .plc] s (State.afterLanding s a1 a2) := by
  unfold State.afterLanding
  extract_lets -merge -useContext -underBinder +onlyGivenNames x1
  try clear_value x1
  extract_lets -merge -useContext -underBinder +onlyGivenNames x2
  try clear_value x2
  extract_lets -merge -useContext -underBinder +onlyGivenNames x3
  have hx3 : Within [.flg, .ctr, .clu, .msix, .flt, .plc] s x3 := by
    unfold x3
    refine Within.step ?_ (State.count_within _ _ _) rfl
    exact Within.refl _ _
  try clear_value x3
  extract_lets -merge -useContext -underBinder +onlyGivenNames x4
  have hx4 : Within [.flg, .ctr, .clu, .msix, .flt, .plc] s x4 := by
    unfold x4
    refine Within.fold ?_ (fun u x hu => ?_)
    · assumption
    · refine Within.step ?_ (State.landRecs_within _ _ _ _) rfl
      assumption
  try clear_value x4
  refine Within.step ?_ (State.jobsLanded_within _) rfl
  assumption

theorem State.landWrite_within (s : State) (a1 : InFlight) (a2 : Bool) : Within [.flg, .ctr, .clu, .mem, .msix, .flt, .plc] s (State.landWrite s a1 a2) := by
  unfold State.landWrite
  extract_lets -merge -useContext -underBinder +onlyGivenNames x1
  try clear_value x1
  refine Within.ite ?_ ?_
  · refine Within.step ?_ (State.violate_within _ _ _ _) rfl
    exact Within.refl _ _
  · split
    · exact Within.refl _ _
    · refine Within.step ?_ (State.afterLanding_within _ _ _) rfl
      refine Within.step ?_ (State.spareFollow_within _ _) rfl
      refine Within.step ?_ (State.landSlot_within _ _ _ _) rfl
      exact Within.refl _ _

theorem State.payRefresh_within (s : State) (a1 : Sys2Proof.Chan) : Within [.dram] s (State.payRefresh s a1) := by
  unfold State.payRefresh
  refine Within.ite ?_ ?_
  · extract_lets -merge -useContext -underBinder +onlyGivenNames x1
    try clear_value x1
    refine Within.step ?_ (State.modChan_within _ _ _) rfl
    exact Within.refl _ _
  · exact Within.refl _ _

theorem State.landAccess_within (s : State) (a1 : InFlight) (a2 : Sys2Proof.EdcOutcome) (a3 : List (Fin 44 × Nat)) : Within [.clk, .ovl, .flg, .ctr, .clu, .dram, .mem, .msix, .flt, .plc] s (State.landAccess s a1 a2 a3) := by
  unfold State.landAccess
  extract_lets -merge -useContext -underBinder +onlyGivenNames x1
  try clear_value x1
  extract_lets -merge -useContext -underBinder +onlyGivenNames x2
  try clear_value x2
  extract_lets -merge -useContext -underBinder +onlyGivenNames x3
  try clear_value x3
  extract_lets -merge -useContext -underBinder +onlyGivenNames x4
  have hx4 : Within [.clk, .ovl, .flg, .ctr, .clu, .dram, .mem, .msix, .flt, .plc] s x4 := by
    unfold x4
    refine Within.step ?_ (State.bankAccess_within _ _) rfl
    exact Within.refl _ _
  try clear_value x4
  extract_lets -merge -useContext -underBinder +onlyGivenNames x5
  extract_lets -merge -useContext -underBinder +onlyGivenNames x6
  have hx6 : Within [.clk, .ovl, .flg, .ctr, .clu, .dram, .mem, .msix, .flt, .plc] s x6 := by
    unfold x6
    refine Within.step ?_ (Within.set_dram _ _ rfl rfl) rfl
    assumption
  try clear_value x6
  extract_lets -merge -useContext -underBinder +onlyGivenNames x7
  have hx7 : Within [.clk, .ovl, .flg, .ctr, .clu, .dram, .mem, .msix, .flt, .plc] s x7 := by
    unfold x7
    refine Within.step ?_ (State.payRefresh_within _ _) rfl
    refine Within.step ?_ (State.takePlaces_within _) rfl
    refine Within.step ?_ (State.modChan_within _ _ _) rfl
    assumption
  try clear_value x7
  extract_lets -merge -useContext -underBinder +onlyGivenNames x8
  have hx8 : Within [.clk, .ovl, .flg, .ctr, .clu, .dram, .mem, .msix, .flt, .plc] s x8 := by
    unfold x8
    refine Within.step ?_ (State.retries_within _ _ _) rfl
    assumption
  try clear_value x8
  split
  · extract_lets -merge -useContext -underBinder +onlyGivenNames x9
    have hx9 : Within [.clk, .ovl, .flg, .ctr, .clu, .dram, .mem, .msix, .flt, .plc] s x9 := by
      unfold x9
      refine Within.step ?_ (State.escape_within _ _ _ _) rfl
      assumption
    try clear_value x9
    refine Within.ite ?_ ?_
    · refine Within.step ?_ (State.modOvl_within _ _) rfl
      assumption
    · assumption
  · refine Within.ite ?_ ?_
    · refine Within.step ?_ (State.modOvl_within _ _) rfl
      assumption
    · extract_lets -merge -useContext -underBinder +onlyGivenNames x10
      have hx10 : Within [.clk, .ovl, .flg, .ctr, .clu, .dram, .mem, .msix, .flt, .plc] s x10.1 := by
        unfold x10
        refine Within.step ?_ (State.tileGrant_within _ _ _ _ _) rfl
        assumption
      try clear_value x10
      extract_lets -merge -useContext -underBinder +onlyGivenNames x11
      have hx11 : Within [.clk, .ovl, .flg, .ctr, .clu, .dram, .mem, .msix, .flt, .plc] s x11 := by
        unfold x11
        refine Within.step ?_ (State.upto_within _ _) rfl
        assumption
      try clear_value x11
      extract_lets -merge -useContext -underBinder +onlyGivenNames x12
      try clear_value x12
      extract_lets -merge -useContext -underBinder +onlyGivenNames x13
      have hx13 : Within [.clk, .ovl, .flg, .ctr, .clu, .dram, .mem, .msix, .flt, .plc] s x13 := by
        unfold x13
        refine Within.ite ?_ ?_
        · refine Within.step ?_ (State.count_within _ _ _) rfl
          assumption
        · assumption
      try clear_value x13
      extract_lets -merge -useContext -underBinder +onlyGivenNames x14
      have hx14 : Within [.clk, .ovl, .flg, .ctr, .clu, .dram, .mem, .msix, .flt, .plc] s x14 := by
        unfold x14
        refine Within.ite ?_ ?_
        · refine Within.step ?_ (State.setBit_within _ _ _) rfl
          refine Within.step ?_ (State.count_within _ _ _) rfl
          assumption
        · assumption
      try clear_value x14
      refine Within.step ?_ (State.landWrite_within _ _ _) rfl
      assumption

theorem execAccessLand_within (a0 : Fin 1572864) (a1 : Nat) (a2 : Sys2Proof.EdcOutcome) (a3 : Sys2Proof.LandRound) (s : State) {t : State} (h : execAccessLand a0 a1 a2 a3 s = .next t) : Within [.clk, .ovl, .flg, .ctr, .clu, .dram, .mem, .msix, .flt, .plc] s t := by
  unfold execAccessLand at h
  refine Within.guarded ?_ h
  refine Within.ite ?_ ?_
  · exact Within.refl _ _
  · split
    · exact Within.refl _ _
    · refine Within.ite ?_ ?_
      · refine Within.step ?_ (State.landAccess_within _ _ _ _) rfl
        refine Within.step ?_ (State.upto_within _ _) rfl
        exact Within.refl _ _
      · exact Within.refl _ _

theorem execRefreshDue_within (a0 : Sys2Proof.Chan) (a1 : Nat) (a2 : Sys2Proof.RtWaiting) (s : State) {t : State} (h : execRefreshDue a0 a1 a2 s = .next t) : Within [.clk, .flg, .ctr, .dram, .msix] s t := by
  unfold execRefreshDue at h
  refine Within.guarded ?_ h
  refine Within.ite ?_ ?_
  · exact Within.refl _ _
  · extract_lets -merge -useContext -underBinder +onlyGivenNames x1
    try clear_value x1
    extract_lets -merge -useContext -underBinder +onlyGivenNames x2
    have hx2 : Within [.clk, .flg, .ctr, .dram, .msix] s x2 := by
      unfold x2
      refine Within.step ?_ (State.upto_within _ _) rfl
      exact Within.refl _ _
    try clear_value x2
    extract_lets -merge -useContext -underBinder +onlyGivenNames x3
    try clear_value x3
    extract_lets -merge -useContext -underBinder +onlyGivenNames x4
    have hx4 : Within [.clk, .flg, .ctr, .dram, .msix] s x4 := by
      unfold x4
      refine Within.step ?_ (State.modChan_within _ _ _) rfl
      assumption
    try clear_value x4
    extract_lets -merge -useContext -underBinder +onlyGivenNames x5
    try clear_value x5
    extract_lets -merge -useContext -underBinder +onlyGivenNames x6
    try clear_value x6
    refine Within.ite ?_ ?_
    · refine Within.step ?_ (State.modChan_within _ _ _) rfl
      assumption
    · refine Within.ite ?_ ?_
      · refine Within.step ?_ (State.modChan_within _ _ _) rfl
        assumption
      · refine Within.step ?_ (State.setBit_within _ _ _) rfl
        refine Within.step ?_ (State.count_within _ _ _) rfl
        refine Within.step ?_ (State.modChan_within _ _ _) rfl
        assumption

theorem execNbrRefresh_within (a0 : Sys2Proof.Chan) (a1 : Sys2Proof.NbrTurn) (s : State) {t : State} (h : execNbrRefresh a0 a1 s = .next t) : Within [.clk, .flg, .ctr, .dram, .msix] s t := by
  unfold execNbrRefresh at h
  refine Within.guarded ?_ h
  split
  · exact Within.refl _ _
  · exact Within.refl _ _
  · extract_lets -merge -useContext -underBinder +onlyGivenNames x1
    have hx1 : Within [.clk, .flg, .ctr, .dram, .msix] s x1 := by
      unfold x1
      refine Within.step ?_ (State.upto_within _ _) rfl
      exact Within.refl _ _
    try clear_value x1
    extract_lets -merge -useContext -underBinder +onlyGivenNames x2
    have hx2 : Within [.clk, .flg, .ctr, .dram, .msix] s x2 := by
      unfold x2
      refine Within.step ?_ (State.modChan_within _ _ _) rfl
      assumption
    try clear_value x2
    refine Within.step ?_ (State.count_within _ _ _) rfl
    refine Within.fold ?_ (fun u x hu => ?_)
    · assumption
    · refine Within.step ?_ (State.activate_within _ _ _ _) rfl
      assumption

theorem execPageClose_within (a0 : Sys2Proof.Chan) (a1 : Fin 16) (s : State) {t : State} (h : execPageClose a0 a1 s = .next t) : Within [.clk, .dram] s t := by
  unfold execPageClose at h
  refine Within.guarded ?_ h
  refine Within.ite ?_ ?_
  · exact Within.refl _ _
  · split
    · exact Within.refl _ _
    · extract_lets -merge -useContext -underBinder +onlyGivenNames x1
      have hx1 : Within [.clk, .dram] s x1 := by
        unfold x1
        refine Within.step ?_ (State.upto_within _ _) rfl
        exact Within.refl _ _
      try clear_value x1
      refine Within.step ?_ (State.modChan_within _ _ _) rfl
      assumption

theorem State.closeRows_within (s : State) : Within [.dram] s (State.closeRows s) := by
  unfold State.closeRows
  refine Within.fold ?_ (fun u x hu => ?_)
  · exact Within.refl _ _
  · refine Within.step ?_ (State.modChan_within _ _ _) rfl
    assumption

theorem State.train_within (s : State) (a1 : Training) : Within [.dram] s (State.train s a1) := by
  unfold State.train
  extract_lets -merge -useContext -underBinder +onlyGivenNames x1
  have hx1 : Within [.dram] s x1 := by
    unfold x1
    refine Within.fold ?_ (fun u x hu => ?_)
    · refine Within.step ?_ (State.closeRows_within _) rfl
      exact Within.refl _ _
    · refine Within.step ?_ (State.modChan_within _ _ _) rfl
      assumption
  try clear_value x1
  refine Within.step ?_ (Within.set_dram _ _ rfl rfl) rfl
  assumption

theorem State.landAll_within (s : State) (a1 : Nat) : Within [.clk, .ovl, .flg, .ctr, .clu, .dram, .mem, .msix, .flt, .plc] s (State.landAll s a1) := by
  induction a1 generalizing s with
  | zero => exact Within.refl _ _
  | succ k ih =>
    unfold State.landAll
    split
    · exact Within.refl _ _
    · exact (State.landAccess_within s _ _ _).step (ih _) rfl

theorem State.selfRefreshIn_within (s : State) : Within [.clk, .ovl, .flg, .ctr, .clu, .dram, .bytes, .mem, .host, .msix, .flt, .plc, .freeN] s (State.selfRefreshIn s) := by
  unfold State.selfRefreshIn
  extract_lets -merge -useContext -underBinder +onlyGivenNames x1
  have hx1 : Within [.clk, .ovl, .flg, .ctr, .clu, .dram, .bytes, .mem, .host, .msix, .flt, .plc, .freeN] s x1 := by
    unfold x1
    refine Within.fold ?_ (fun u x hu => ?_)
    · refine Within.step ?_ (State.landAll_within _ _) rfl
      exact Within.refl _ _
    · refine Within.step ?_ (State.drain_within _ _) rfl
      assumption
  try clear_value x1
  extract_lets -merge -useContext -underBinder +onlyGivenNames x2
  have hx2 : Within [.clk, .ovl, .flg, .ctr, .clu, .dram, .bytes, .mem, .host, .msix, .flt, .plc, .freeN] s x2 := by
    unfold x2
    refine Within.fold ?_ (fun u x hu => ?_)
    · refine Within.step ?_ (State.closeRows_within _) rfl
      assumption
    · refine Within.step ?_ (State.modChan_within _ _ _) rfl
      assumption
  try clear_value x2
  refine Within.step ?_ (Within.set_dram _ _ rfl rfl) rfl
  assumption

theorem State.trainFail_within (s : State) (a1 : Sys2Proof.Chan) (a2 : Fin 8) : Within [.flg, .ctr, .dram, .msix, .flt] s (State.trainFail s a1 a2) := by
  unfold State.trainFail
  extract_lets -merge -useContext -underBinder +onlyGivenNames x1
  extract_lets -merge -useContext -underBinder +onlyGivenNames x2
  have hx2 : Within [.flg, .ctr, .dram, .msix, .flt] s x2 := by
    unfold x2
    refine Within.step ?_ (Within.set_dram _ _ rfl rfl) rfl
    exact Within.refl _ _
  try clear_value x2
  refine Within.step ?_ (State.report_within _ _) rfl
  refine Within.step ?_ (State.setBit_within _ _ _) rfl
  assumption

theorem State.trainPass_within (s : State) : Within [.dram] s (State.trainPass s) := by
  unfold State.trainPass
  extract_lets -merge -useContext -underBinder +onlyGivenNames x1
  have hx1 : Within [.dram] s x1 := by
    unfold x1
    refine Within.fold ?_ (fun u x hu => ?_)
    · exact Within.refl _ _
    · refine Within.step ?_ (State.modChan_within _ _ _) rfl
      assumption
  try clear_value x1
  extract_lets -merge -useContext -underBinder +onlyGivenNames x2
  try clear_value x2
  extract_lets -merge -useContext -underBinder +onlyGivenNames x3
  extract_lets -merge -useContext -underBinder +onlyGivenNames x4
  have hx4 : Within [.dram] s x4 := by
    unfold x4
    refine Within.step ?_ (Within.set_dram _ _ rfl rfl) rfl
    assumption
  try clear_value x4
  refine Within.ite ?_ ?_
  · refine Within.step ?_ (State.train_within _ _) rfl
    assumption
  · assumption

theorem execDramRetrain_within (s : State) {t : State} (h : execDramRetrain s = .next t) : Within [.pwr, .flg, .cmd, .more, .dram, .msix] s t := by
  unfold execDramRetrain at h
  refine Within.guarded ?_ h
  refine Within.ite ?_ ?_
  · exact Within.refl _ _
  · refine Within.ite ?_ ?_
    · refine Within.step ?_ (State.hold_within _ _) rfl
      exact Within.refl _ _
    · refine Within.ite ?_ ?_
      · refine Within.step ?_ (State.setBit_within _ _ _) rfl
        refine Within.step ?_ (State.cmdTake_within _ _ _) rfl
        exact Within.refl _ _
      · refine Within.ite ?_ ?_
        · refine Within.step ?_ (Within.set_dram _ _ rfl rfl) rfl
          exact Within.refl _ _
        · extract_lets -merge -useContext -underBinder +onlyGivenNames x1
          have hx1 : Within [.pwr, .flg, .cmd, .more, .dram, .msix] s x1 := by
            unfold x1
            refine Within.step ?_ (State.cmdTake_within _ _ _) rfl
            exact Within.refl _ _
          try clear_value x1
          refine Within.step ?_ (State.train_within _ _) rfl
          refine Within.step ?_ (Within.set_dram _ _ rfl rfl) rfl
          assumption

theorem execDramCntClr_within (s : State) {t : State} (h : execDramCntClr s = .next t) : Within [.ctr] s t := by
  unfold execDramCntClr at h
  refine Within.guarded ?_ h
  refine Within.step ?_ (State.clearCtrs_within _ _) rfl
  exact Within.refl _ _

theorem State.dramTick_within (s : State) (a1 : Sys2Proof.Word) : Within [.eff, .dram] s (State.dramTick s a1) := by
  unfold State.dramTick
  extract_lets -merge -useContext -underBinder +onlyGivenNames x1
  try clear_value x1
  extract_lets -merge -useContext -underBinder +onlyGivenNames x2
  try clear_value x2
  extract_lets -merge -useContext -underBinder +onlyGivenNames x3
  try clear_value x3
  extract_lets -merge -useContext -underBinder +onlyGivenNames x4
  have hx4 : Within [.eff, .dram] s x4 := by
    unfold x4
    refine Within.ite ?_ ?_
    · exact Within.refl _ _
    · refine Within.step ?_ (State.closeExpired_within _ _) rfl
      exact Within.refl _ _
  try clear_value x4
  extract_lets -merge -useContext -underBinder +onlyGivenNames x5
  try clear_value x5
  extract_lets -merge -useContext -underBinder +onlyGivenNames x6
  have hx6 : Within [.eff, .dram] s x6 := by
    unfold x6
    refine Within.ite ?_ ?_
    · refine Within.step ?_ (Within.set_eff _ _ (smWf_put _ _ _ _)) rfl
      assumption
    · assumption
  try clear_value x6
  extract_lets -merge -useContext -underBinder +onlyGivenNames x7
  have hx7 : Within [.eff, .dram] s x7 := by
    unfold x7
    refine Within.ite ?_ ?_
    · refine Within.fold ?_ (fun u x hu => ?_)
      · assumption
      · refine Within.step ?_ (State.modChan_within _ _ _) rfl
        assumption
    · assumption
  try clear_value x7
  refine Within.ite ?_ ?_
  · refine Within.step ?_ (State.closeRows_within _) rfl
    assumption
  · assumption

theorem execTuneBlockStart_within (s : State) {t : State} (h : execTuneBlockStart s = .next t) : Within [.mem] s t := by
  unfold execTuneBlockStart at h
  refine Within.guarded ?_ h
  refine Within.ite ?_ ?_
  · exact Within.refl _ _
  · refine Within.step ?_ (State.tuneAsk_within _ _) rfl
    refine Within.step ?_ (Within.set_mem _ _ rfl) rfl
    exact Within.refl _ _

theorem State.tuneNextBlock_within (s : State) : Within [.flg, .ctr, .mem, .msix] s (State.tuneNextBlock s) := by
  unfold State.tuneNextBlock
  extract_lets -merge -useContext -underBinder +onlyGivenNames x1
  try clear_value x1
  extract_lets -merge -useContext -underBinder +onlyGivenNames x2
  try clear_value x2
  extract_lets -merge -useContext -underBinder +onlyGivenNames x3
  have hx3 : Within [.flg, .ctr, .mem, .msix] s x3 := by
    unfold x3
    refine Within.step ?_ (Within.set_mem _ _ rfl) rfl
    exact Within.refl _ _
  try clear_value x3
  refine Within.ite ?_ ?_
  · refine Within.step ?_ (State.setBit_within _ _ _) rfl
    refine Within.step ?_ (State.count_within _ _ _) rfl
    assumption
  · assumption

theorem State.tuneFail_within (s : State) : Within [.flg, .ctr, .mem, .msix, .flt] s (State.tuneFail s) := by
  unfold State.tuneFail
  extract_lets -merge -useContext -underBinder +onlyGivenNames x1
  try clear_value x1
  extract_lets -merge -useContext -underBinder +onlyGivenNames x2
  have hx2 : Within [.flg, .ctr, .mem, .msix, .flt] s x2 := by
    unfold x2
    refine Within.step ?_ (Within.set_mem _ _ rfl) rfl
    refine Within.step ?_ (State.tuneUnask_within _) rfl
    exact Within.refl _ _
  try clear_value x2
  refine Within.step ?_ (State.report_within _ _) rfl
  refine Within.step ?_ (State.setBit_within _ _ _) rfl
  assumption

theorem State.tuneTo_within (s : State) (a1 : TunePhase) (a2 : Option (Fin 96 × Fin 256)) : Within [.mem] s (State.tuneTo s a1 a2) := by
  unfold State.tuneTo
  refine Within.step ?_ (State.tuneAsk_within _ _) rfl
  refine Within.step ?_ (Within.set_mem _ _ rfl) rfl
  exact Within.refl _ _

theorem execTunePhaseDone_within (a0 : Bool) (s : State) {t : State} (h : execTunePhaseDone a0 s = .next t) : Within [.clk, .flg, .ctr, .mem, .msix, .flt] s t := by
  unfold execTunePhaseDone at h
  refine Within.guarded ?_ h
  extract_lets -merge -useContext -underBinder +onlyGivenNames x1
  try clear_value x1
  split
  · exact Within.refl _ _
  · refine Within.step ?_ (State.tuneTo_within _ _ _) rfl
    refine Within.step ?_ (State.tuneFinish_within _) rfl
    exact Within.refl _ _
  · refine Within.ite ?_ ?_
    · refine Within.step ?_ (State.tuneTo_within _ _ _) rfl
      refine Within.step ?_ (State.tuneFinish_within _) rfl
      exact Within.refl _ _
    · refine Within.step ?_ (State.tuneFail_within _) rfl
      exact Within.refl _ _
  · refine Within.step ?_ (State.tuneNextBlock_within _) rfl
    refine Within.step ?_ (Within.set_mem _ _ rfl) rfl
    refine Within.step ?_ (State.tuneFinish_within _) rfl
    exact Within.refl _ _

theorem State.tuneStop_within (s : State) : Within [.mem] s (State.tuneStop s) := by
  unfold State.tuneStop
  refine Within.ite ?_ ?_
  · exact Within.refl _ _
  · refine Within.step ?_ (Within.set_mem _ _ rfl) rfl
    refine Within.step ?_ (State.tuneUnask_within _) rfl
    exact Within.refl _ _

theorem State.clearMem_within (s : State) (a1 : Sys2Proof.ClearKind) : Within [.tabs, .pg, .mem, .xram] s (State.clearMem s a1) := by
  unfold State.clearMem
  extract_lets -merge -useContext -underBinder +onlyGivenNames x1
  have hx1 : Within [.tabs, .pg, .mem, .xram] s x1 := by
    unfold x1
    refine Within.step ?_ (Within.set_mem _ _ rfl) rfl
    exact Within.refl _ _
  try clear_value x1
  split
  · refine Within.fold ?_ (fun u x hu => ?_)
    · refine Within.step ?_ (Within.set_mem _ _ rfl) rfl
      assumption
    · refine Within.step ?_ (State.modPg_within _ _ _) rfl
      assumption
  · refine Within.step ?_ (Within.set_tabs _ _) rfl
    assumption
  · exact hx1.step (State.modMem_within _ _ (fun _ => smWf_nil _)) rfl
  · assumption

theorem State.clearEnd_within (s : State) (a1 : Sys2Proof.ClearKind) : Within [.mem] s (State.clearEnd s a1) := by
  unfold State.clearEnd
  refine Within.step ?_ (Within.set_mem _ _ rfl) rfl
  exact Within.refl _ _

theorem execMemoryClearDone_within (a0 : Sys2Proof.ClearKind) (s : State) {t : State} (h : execMemoryClearDone a0 s = .next t) : Within [.mem] s t := by
  unfold execMemoryClearDone at h
  refine Within.guarded ?_ h
  refine Within.step ?_ (State.clearEnd_within _ _) rfl
  exact Within.refl _ _

theorem execMemCntClr_within (s : State) {t : State} (h : execMemCntClr s = .next t) : Within [.ctr] s t := by
  unfold execMemCntClr at h
  refine Within.guarded ?_ h
  refine Within.step ?_ (State.clearCtrs_within _ _) rfl
  exact Within.refl _ _

theorem State.xramWrite_within (s : State) (a1 : Nat) (a2 : BitVec 4) (a3 : Sys2Proof.Word) : Within [.mem, .xram] s (State.xramWrite s a1 a2 a3) := by
  unfold State.xramWrite
  exact State.modMem_within _ _ (fun h => memWf_putBytes _ _ _ _ h)

theorem State.modRun_within (s : State) (a1 : Nat) (a2 : LbRun → LbRun) : Within [.mem] s (State.modRun s a1 a2) := by
  unfold State.modRun
  refine Within.step ?_ (Within.set_mem _ _ rfl) rfl
  exact Within.refl _ _

theorem State.xramCollide_within (s : State) (a1 : Nat) (a2 : Nat) : Within [.flg, .ctr, .mem, .msix] s (State.xramCollide s a1 a2) := by
  unfold State.xramCollide
  refine Within.step ?_ (State.modRun_within _ _ _) rfl
  refine Within.step ?_ (Within.set_mem _ _ rfl) rfl
  refine Within.step ?_ (State.setBit_within _ _ _) rfl
  refine Within.step ?_ (State.count_within _ _ _) rfl
  exact Within.refl _ _

theorem State.collided_within (s : State) : Within [.freeN] s (State.collided s).2 := by
  unfold State.collided
  refine Within.step ?_ (Within.set_freeN _ _) rfl
  exact Within.refl _ _

theorem State.slotRead_within (s : State) (a1 : Nat) (a2 : Bool) : Within [.freeN] s (State.slotRead s a1 a2).2 := by
  unfold State.slotRead
  split
  · refine Within.step ?_ (State.collided_within _) rfl
    exact Within.refl _ _
  · exact Within.refl _ _

theorem State.lbSample_within (s : State) (a1 : Nat) (a2 : Bool) : Within [.mem] s (State.lbSample s a1 a2) := by
  unfold State.lbSample
  refine Within.step ?_ (Within.set_mem _ _ rfl) rfl
  exact Within.refl _ _

theorem State.hostSpoiled_within (s : State) (a1 : Nat) : Within [.mem, .freeN] s (State.hostSpoiled s a1) := by
  unfold State.hostSpoiled
  extract_lets -merge -useContext -underBinder +onlyGivenNames x1
  have hx1 : Within [.mem, .freeN] s x1.2 := by
    unfold x1
    refine Within.step ?_ (State.collided_within _) rfl
    exact Within.refl _ _
  try clear_value x1
  refine Within.step ?_ (Within.set_mem _ _ rfl) rfl
  assumption

theorem execLbAccess_within (a0 : Nat) (a1 : Bool) (a2 : BitVec 18) (a3 : BitVec 4) (a4 : Sys2Proof.Word) (s : State) {t : State} (h : execLbAccess a0 a1 a2 a3 a4 s = .next t) : Within [.clk, .flg, .ctr, .mem, .xram, .msix, .freeN] s t := by
  unfold execLbAccess at h
  refine Within.guarded ?_ h
  refine Within.ite ?_ ?_
  · exact Within.refl _ _
  · extract_lets -merge -useContext -underBinder +onlyGivenNames x1
    have hx1 : Within [.clk, .flg, .ctr, .mem, .xram, .msix, .freeN] s x1 := by
      unfold x1
      refine Within.step ?_ (State.upto_within _ _) rfl
      exact Within.refl _ _
    try clear_value x1
    refine Within.ite ?_ ?_
    · refine Within.step ?_ (State.lbSample_within _ _ _) rfl
      assumption
    · extract_lets -merge -useContext -underBinder +onlyGivenNames x2
      try clear_value x2
      extract_lets -merge -useContext -underBinder +onlyGivenNames x3
      try clear_value x3
      extract_lets -merge -useContext -underBinder +onlyGivenNames x4
      try clear_value x4
      extract_lets -merge -useContext -underBinder +onlyGivenNames x5
      have hx5 : Within [.clk, .flg, .ctr, .mem, .xram, .msix, .freeN] s x5 := by
        unfold x5
        refine Within.step ?_ (Within.set_mem _ _ rfl) rfl
        refine Within.step ?_ (State.lbSample_within _ _ _) rfl
        assumption
      try clear_value x5
      extract_lets -merge -useContext -underBinder +onlyGivenNames x6
      have hx6 : Within [.clk, .flg, .ctr, .mem, .xram, .msix, .freeN] s x6 := by
        unfold x6
        refine Within.ite ?_ ?_
        · refine Within.step ?_ (State.xramCollide_within _ _ _) rfl
          assumption
        · assumption
      try clear_value x6
      refine Within.ite ?_ ?_
      · extract_lets -merge -useContext -underBinder +onlyGivenNames x7
        have hx7 : Within [.clk, .flg, .ctr, .mem, .xram, .msix, .freeN] s x7 := by
          unfold x7
          split
          · refine Within.ite ?_ ?_
            · assumption
            · refine Within.step ?_ (State.hostSpoiled_within _ _) rfl
              assumption
          · assumption
        try clear_value x7
        refine Within.step ?_ (State.xramWrite_within _ _ _ _) rfl
        assumption
      · extract_lets -merge -useContext -underBinder +onlyGivenNames x8
        have hx8 : Within [.clk, .flg, .ctr, .mem, .xram, .msix, .freeN] s x8.2 := by
          unfold x8
          refine Within.step ?_ (State.slotRead_within _ _ _) rfl
          assumption
        try clear_value x8
        refine Within.step ?_ (State.modRun_within _ _ _) rfl
        assumption

theorem State.hostWord_within (s : State) (a1 : XramSlot) : Within [.flg, .ctr, .mem, .xram, .msix, .freeN] s (State.hostWord s a1) := by
  unfold State.hostWord
  extract_lets -merge -useContext -underBinder +onlyGivenNames x1
  try clear_value x1
  extract_lets -merge -useContext -underBinder +onlyGivenNames x2
  have hx2 : Within [.flg, .ctr, .mem, .xram, .msix, .freeN] s x2 := by
    unfold x2
    refine Within.ite ?_ ?_
    · refine Within.step ?_ (State.xramCollide_within _ _ _) rfl
      exact Within.refl _ _
    · exact Within.refl _ _
  try clear_value x2
  extract_lets -merge -useContext -underBinder +onlyGivenNames x3
  have hx3 : Within [.flg, .ctr, .mem, .xram, .msix, .freeN] s x3 := by
    unfold x3
    refine Within.step ?_ (State.xramWrite_within _ _ _ _) rfl
    assumption
  try clear_value x3
  split
  · refine Within.ite ?_ ?_
    · refine Within.step ?_ (State.xramWrite_within _ _ _ _) rfl
      assumption
    · extract_lets -merge -useContext -underBinder +onlyGivenNames x4
      have hx4 : Within [.flg, .ctr, .mem, .xram, .msix, .freeN] s x4.2 := by
        unfold x4
        refine Within.step ?_ (State.collided_within _) rfl
        assumption
      try clear_value x4
      refine Within.step ?_ (State.modRun_within _ _ _) rfl
      assumption
  · assumption

theorem State.hostFetch_within (s : State) (a1 : XramSlot) : Within [.flg, .ctr, .mem, .msix, .freeN] s (State.hostFetch s a1).2 := by
  unfold State.hostFetch
  refine Within.step ?_ (State.slotRead_within _ _ _) rfl
  split
  · exact (State.xramCollide_within _ _ _).mono rfl
  · exact Within.refl _ _

theorem State.hostWords_within (s : State) (a1 : Nat) (a2 : Bool) (a3 : BitVec 18) (a4 : List (BitVec 4 × Sys2Proof.Word)) :
    Within [.clk, .flg, .ctr, .mem, .xram, .msix, .freeN] s (State.hostWords s a1 a2 a3 a4) := by
  induction a4 generalizing s a1 a3 with
  | nil => exact Within.refl _ _
  | cons w ws ih =>
    unfold State.hostWords
    refine Within.step ?_ (ih _ _ _) rfl
    refine Within.step (m := [.mem]) ?_ (Within.set_mem _ _ rfl) rfl
    split
    · exact ((State.upto_within s _).mono rfl).step (State.hostWord_within _ _) rfl
    · exact ((State.upto_within s _).mono rfl).step (State.hostFetch_within _ _) rfl

theorem execBar2Access_within (a0 : Nat) (a1 : Bool) (a2 : BitVec 18) (a3 : List (BitVec 4)) (a4 : List Sys2Proof.Word) (s : State) {t : State} (h : execBar2Access a0 a1 a2 a3 a4 s = .next t) : Within [.clk, .flg, .ctr, .mem, .xram, .msix, .freeN] s t := by
  unfold execBar2Access at h
  refine Within.guarded ?_ h
  extract_lets -merge -useContext -underBinder +onlyGivenNames x1
  have hx1 : Within [.clk, .flg, .ctr, .mem, .xram, .msix, .freeN] s x1 := by
    unfold x1
    refine Within.step ?_ (State.upto_within _ _) rfl
    exact Within.refl _ _
  try clear_value x1
  extract_lets -merge -useContext -underBinder +onlyGivenNames x2
  try clear_value x2
  refine Within.ite ?_ ?_
  · refine Within.ite ?_ ?_
    · assumption
    · refine Within.step ?_ (Within.set_mem _ _ rfl) rfl
      assumption
  · extract_lets -merge -useContext -underBinder +onlyGivenNames x3
    try clear_value x3
    extract_lets -merge -useContext -underBinder +onlyGivenNames x4
    have hx4 : Within [.clk, .flg, .ctr, .mem, .xram, .msix, .freeN] s x4 := by
      unfold x4
      refine Within.step ?_ (State.clearEnd_within _ _) rfl
      assumption
    try clear_value x4
    refine Within.step ?_ (State.hostWords_within _ _ _ _ _) rfl
    refine Within.step ?_ (Within.set_mem _ _ rfl) rfl
    assumption

theorem State.segWrite_within (s : State) (a1 : Nat) (a2 : BitVec 4) (a3 : Sys2Proof.Word) : Within [.flg, .tabs, .was, .clu, .mem, .msix, .plc] s (State.segWrite s a1 a2 a3) := by
  unfold State.segWrite
  refine Within.ite ?_ ?_
  · exact Within.refl _ _
  · extract_lets -merge -useContext -underBinder +onlyGivenNames x1
    have hx1 : Within [.flg, .tabs, .was, .clu, .mem, .msix, .plc] s x1 := by
      unfold x1
      refine Within.step ?_ (State.unpublish_within _ _) rfl
      refine Within.step ?_ (State.keepWord_within _ _ _) rfl
      refine Within.step ?_ (State.markAll_within _) rfl
      exact Within.refl _ _
    try clear_value x1
    refine Within.step ?_ (Within.set_tabs _ _) rfl
    assumption

theorem State.tsetWrite_within (s : State) (a1 : Nat) (a2 : BitVec 4) (a3 : Sys2Proof.Word) : Within [.tabs, .pg] s (State.tsetWrite s a1 a2 a3) := by
  unfold State.tsetWrite
  extract_lets -merge -useContext -underBinder +onlyGivenNames x1
  try clear_value x1
  extract_lets -merge -useContext -underBinder +onlyGivenNames x2
  extract_lets -merge -useContext -underBinder +onlyGivenNames x3
  have hx3 : Within [.tabs, .pg] s x3 := by
    unfold x3
    refine Within.step ?_ (Within.set_tabs _ _) rfl
    exact Within.refl _ _
  try clear_value x3
  refine Within.ite ?_ ?_
  · refine Within.step ?_ (State.copyTset_within _ _) rfl
    assumption
  · assumption

theorem State.tableWrite_within (s : State) (a1 : Nat) (a2 : BitVec 4) (a3 : Sys2Proof.Word) : Within [.flg, .tabs, .was, .clu, .pg, .mem, .msix, .plc] s (State.tableWrite s a1 a2 a3) := by
  unfold State.tableWrite
  refine Within.ite ?_ ?_
  · refine Within.step ?_ (State.segWrite_within _ _ _ _) rfl
    exact Within.refl _ _
  · refine Within.ite ?_ ?_
    · extract_lets -merge -useContext -underBinder +onlyGivenNames x1
      try clear_value x1
      extract_lets -merge -useContext -underBinder +onlyGivenNames x2
      have hx2 : Within [.flg, .tabs, .was, .clu, .pg, .mem, .msix, .plc] s x2 := by
        unfold x2
        refine Within.step ?_ (State.keepWord_within _ _ _) rfl
        refine Within.step ?_ (State.markAll_within _) rfl
        exact Within.refl _ _
      try clear_value x2
      refine Within.step ?_ (Within.set_tabs _ _) rfl
      assumption
    · refine Within.ite ?_ ?_
      · extract_lets -merge -useContext -underBinder +onlyGivenNames x3
        try clear_value x3
        extract_lets -merge -useContext -underBinder +onlyGivenNames x4
        have hx4 : Within [.flg, .tabs, .was, .clu, .pg, .mem, .msix, .plc] s x4 := by
          unfold x4
          refine Within.step ?_ (State.keepWord_within _ _ _) rfl
          exact Within.refl _ _
        try clear_value x4
        refine Within.step ?_ (Within.set_tabs _ _) rfl
        assumption
      · refine Within.ite ?_ ?_
        · refine Within.step ?_ (State.tsetWrite_within _ _ _ _) rfl
          exact Within.refl _ _
        · exact Within.refl _ _

theorem State.sharedWrite_within (s : State) (a1 : Nat) (a2 : BitVec 4) (a3 : Sys2Proof.Word) : Within [.cfg, .eff, .flg, .tabs, .was, .clu, .pg, .mem, .msix, .plc] s (State.sharedWrite s a1 a2 a3) := by
  unfold State.sharedWrite
  refine Within.ite ?_ ?_
  · refine Within.step ?_ (State.rwWrite_within _ _ _ _) rfl
    exact Within.refl _ _
  · refine Within.step ?_ (State.tableWrite_within _ _ _ _) rfl
    exact Within.refl _ _

theorem State.sharedWriteHeld_within (s : State) (a1 : Nat) (a2 : BitVec 4) (a3 : Sys2Proof.Word) : Within [.ovl, .cfg, .eff, .flg, .tabs, .was, .clu, .pg, .mem, .msix, .plc] s (State.sharedWriteHeld s a1 a2 a3) := by
  unfold State.sharedWriteHeld
  refine Within.ite ?_ ?_
  · refine Within.step ?_ (Within.set_ovl _ _) rfl
    exact Within.refl _ _
  · refine Within.step ?_ (State.sharedWrite_within _ _ _ _) rfl
    exact Within.refl _ _

theorem State.releaseWrites_within (s : State) : Within [.ovl, .cfg, .eff, .flg, .tabs, .was, .clu, .pg, .mem, .msix, .plc] s (State.releaseWrites s) := by
  unfold State.releaseWrites
  refine Within.fold ?_ (fun u x hu => ?_)
  · refine Within.step ?_ (Within.set_ovl _ _) rfl
    exact Within.refl _ _
  · refine Within.step ?_ (State.sharedWrite_within _ _ _ _) rfl
    assumption

end Sys2Proof.Machine
end

