-- ==== Sys2Proof/Laws/FrameDevice.lean ====
section
/-! SUPPORT. Frames of the operations and commands of resets, images, faults, clocks, power, JTAG and SMBus: the parts of the state that each may change. -/
namespace Sys2Proof.Machine

theorem State.modPwr_within (s : State) (a1 : Power → Power) : Within [.pwr] s (State.modPwr s a1) := by
  unfold State.modPwr
  refine Within.step ?_ (Within.set_pwr _ _) rfl
  exact Within.refl _ _

theorem State.modImg_within (s : State) (a1 : Image → Image) : Within [.img] s (State.modImg s a1) := by
  unfold State.modImg
  refine Within.step ?_ (Within.set_img _ _) rfl
  exact Within.refl _ _

theorem State.modClk_within (s : State) (a1 : Clock → Clock) : Within [.clk] s (State.modClk s a1) := by
  unfold State.modClk
  refine Within.step ?_ (Within.set_clk _ _) rfl
  exact Within.refl _ _

theorem State.resetWords_within (s : State) (a1 : Nat → Bool) : Within [.cfg, .eff] s (State.resetWords s a1) := by
  unfold State.resetWords
  refine Within.step ?_ (Within.set_cfg_eff _ _ _ (smWf_filter _ _ _) (smWf_filter _ _ _)) rfl
  exact Within.refl _ _

theorem State.resetField_within (s : State) (a1 : Nat) (a2 : Sys2Proof.Word) : Within [.cfg, .eff] s (State.resetField s a1 a2) := by
  unfold State.resetField
  refine Within.step ?_ (Within.set_cfg_eff _ _ _ (smWf_put _ _ _ _) (smWf_put _ _ _ _)) rfl
  exact Within.refl _ _

theorem State.lvlPowerOn_within (s : State) (a1 : Sys2Proof.Lvl) : Within [.cfg, .eff, .lvl] s (State.lvlPowerOn s a1) := by
  unfold State.lvlPowerOn
  refine Within.step ?_ (State.modLvl_within _ _ _) rfl
  refine Within.step ?_ (State.resetField_within _ _ _) rfl
  refine Within.step ?_ (State.resetField_within _ _ _) rfl
  exact Within.refl _ _

theorem State.lvlsPowerOn_within (s : State) : Within [.cfg, .eff, .lvl, .lg, .mon] s (State.lvlsPowerOn s) := by
  unfold State.lvlsPowerOn
  extract_lets -merge -useContext -underBinder +onlyGivenNames x1
  have hx1 : Within [.cfg, .eff, .lvl, .lg, .mon] s x1 := by
    unfold x1
    refine Within.fold ?_ (fun u x hu => ?_)
    · exact Within.refl _ _
    · refine Within.step ?_ (State.lvlPowerOn_within _ _) rfl
      exact hu
  try clear_value x1
  refine Within.step ?_ (Within.set_lg_mon _ _ _) rfl
  assumption

theorem State.pinsOff_within (s : State) : Within [.cmd, .more, .pg, .pin] s (State.pinsOff s) := by
  unfold State.pinsOff
  extract_lets -merge -useContext -underBinder +onlyGivenNames x1
  have hx1 : Within [.cmd, .more, .pg, .pin] s x1 := by
    unfold x1
    refine Within.fold ?_ (fun u x hu => ?_)
    · exact Within.refl _ _
    · refine Within.step ?_ (State.modPg_within _ _ _) rfl
      refine Within.ite ?_ ?_
      · refine Within.step ?_ (State.cmdTake_within _ _ _) rfl
        assumption
      · assumption
  try clear_value x1
  refine Within.fold ?_ (fun u x hu => ?_)
  · assumption
  · refine Within.step ?_ (State.modPin_within _ _ _) rfl
    assumption

theorem State.ctxsClose_within (s : State) : Within [.host] s (State.ctxsClose s) := by
  unfold State.ctxsClose
  refine Within.step ?_ (Within.set_host _ _ rfl rfl rfl) rfl
  exact Within.refl _ _

theorem State.linesOff_within (s : State) : Within [.trg, .brg] s (State.linesOff s) := by
  unfold State.linesOff
  refine Within.step ?_ (Within.set_trg_brg _ _ _) rfl
  exact Within.refl _ _

theorem State.clocksOff_within (s : State) : Within [.clk] s (State.clocksOff s) := by
  unfold State.clocksOff
  refine Within.step ?_ (State.modClk_within _ _) rfl
  exact Within.refl _ _

theorem State.ovlResult_within (s : State) (a1 : Fin 16) (a2 : Nat) (a3 : Nat) (a4 : Nat) : Within [.ovl, .flg, .msix] s (State.ovlResult s a1 a2 a3 a4) := by
  unfold State.ovlResult
  refine Within.step ?_ (State.setBit_within _ _ _) rfl
  refine Within.step ?_ (State.modOvl_within _ _) rfl
  exact Within.refl _ _

theorem State.ovlDrop_within (s : State) (a1 : Fin 16) : Within [.ovl, .flg, .msix] s (State.ovlDrop s a1) := by
  unfold State.ovlDrop
  refine Within.step ?_ (State.ovlResult_within _ _ _ _ _) rfl
  exact Within.refl _ _

theorem State.validateDrop_within (s : State) : Within [.ovl, .flg, .cmd, .more, .msix] s (State.validateDrop s) := by
  unfold State.validateDrop
  split
  · refine Within.step ?_ (State.cmdTake_within _ _ _) rfl
    refine Within.step ?_ (State.ovlDrop_within _ _) rfl
    refine Within.step ?_ (State.modOvl_within _ _) rfl
    exact Within.refl _ _
  · exact Within.refl _ _

theorem State.unconfigure_within (s : State) : Within [.clk, .pwr, .img, .ovl, .trg, .cfg, .eff, .flg, .ctr, .cmd, .more, .tabs, .was, .clu, .wl, .gov, .pg, .pin, .lvl, .lg, .mon, .brg, .link, .dram, .mem, .host, .msix, .plc] s (State.unconfigure s) := by
  unfold State.unconfigure
  extract_lets -merge -useContext -underBinder +onlyGivenNames x1
  have hx1 : Within [.clk, .pwr, .img, .ovl, .trg, .cfg, .eff, .flg, .ctr, .cmd, .more, .tabs, .was, .clu, .wl, .gov, .pg, .pin, .lvl, .lg, .mon, .brg, .link, .dram, .mem, .host, .msix, .plc] s x1 := by
    unfold x1
    refine Within.step ?_ (State.clocksOff_within _) rfl
    refine Within.step ?_ (State.linesOff_within _) rfl
    refine Within.step ?_ (State.lvlsPowerOn_within _) rfl
    refine Within.step ?_ (State.pinsOff_within _) rfl
    refine Within.step ?_ (State.lanesReset_within _) rfl
    refine Within.step ?_ (State.validateDrop_within _) rfl
    exact Within.refl _ _
  try clear_value x1
  extract_lets -merge -useContext -underBinder +onlyGivenNames x2
  have hx2 : Within [.clk, .pwr, .img, .ovl, .trg, .cfg, .eff, .flg, .ctr, .cmd, .more, .tabs, .was, .clu, .wl, .gov, .pg, .pin, .lvl, .lg, .mon, .brg, .link, .dram, .mem, .host, .msix, .plc] s x2 := by
    unfold x2
    refine Within.fold ?_ (fun u x hu => ?_)
    · assumption
    · refine Within.step ?_ (State.modClu_within _ _ _) rfl
      assumption
  try clear_value x2
  extract_lets -merge -useContext -underBinder +onlyGivenNames x3
  have hx3 : Within [.clk, .pwr, .img, .ovl, .trg, .cfg, .eff, .flg, .ctr, .cmd, .more, .tabs, .was, .clu, .wl, .gov, .pg, .pin, .lvl, .lg, .mon, .brg, .link, .dram, .mem, .host, .msix, .plc] s x3 := by
    unfold x3
    refine Within.step ?_ (State.resetWords_within _ _) rfl
    assumption
  try clear_value x3
  extract_lets -merge -useContext -underBinder +onlyGivenNames x4
  try clear_value x4
  extract_lets -merge -useContext -underBinder +onlyGivenNames x5
  extract_lets -merge -useContext -underBinder +onlyGivenNames x6
  have hx6 : Within [.clk, .pwr, .img, .ovl, .trg, .cfg, .eff, .flg, .ctr, .cmd, .more, .tabs, .was, .clu, .wl, .gov, .pg, .pin, .lvl, .lg, .mon, .brg, .link, .dram, .mem, .host, .msix, .plc] s x6 := by
    unfold x6
    exact ((((hx3.step (Within.set_tabs _ {}) rfl).step (Within.set_was _ {}) rfl).step (Within.set_ovl _ x4) rfl).step (Within.set_plc _ {}) rfl).step (m := [.mem]) (Within.set_mem _ { x3.mem with slots := [] } rfl) rfl
  try clear_value x6
  extract_lets -merge -useContext -underBinder +onlyGivenNames x7
  have hx7 : Within [.clk, .pwr, .img, .ovl, .trg, .cfg, .eff, .flg, .ctr, .cmd, .more, .tabs, .was, .clu, .wl, .gov, .pg, .pin, .lvl, .lg, .mon, .brg, .link, .dram, .mem, .host, .msix, .plc] s x7 := by
    unfold x7
    refine Within.fold ?_ (fun u x hu => ?_)
    · assumption
    · refine Within.step ?_ (State.modPg_within _ _ _) rfl
      assumption
  try clear_value x7
  extract_lets -merge -useContext -underBinder +onlyGivenNames x8
  have hx8 : Within [.clk, .pwr, .img, .ovl, .trg, .cfg, .eff, .flg, .ctr, .cmd, .more, .tabs, .was, .clu, .wl, .gov, .pg, .pin, .lvl, .lg, .mon, .brg, .link, .dram, .mem, .host, .msix, .plc] s x8 := by
    unfold x8
    refine Within.step ?_ (State.modPwr_within _ _) rfl
    refine Within.step ?_ (State.modClk_within _ _) rfl
    assumption
  try clear_value x8
  extract_lets -merge -useContext -underBinder +onlyGivenNames x9
  have hx9 : Within [.clk, .pwr, .img, .ovl, .trg, .cfg, .eff, .flg, .ctr, .cmd, .more, .tabs, .was, .clu, .wl, .gov, .pg, .pin, .lvl, .lg, .mon, .brg, .link, .dram, .mem, .host, .msix, .plc] s x9 := by
    unfold x9
    refine Within.step ?_ (State.modImg_within _ _) rfl
    assumption
  try clear_value x9
  extract_lets -merge -useContext -underBinder +onlyGivenNames x10
  extract_lets -merge -useContext -underBinder +onlyGivenNames x11
  have hx11 : Within [.clk, .pwr, .img, .ovl, .trg, .cfg, .eff, .flg, .ctr, .cmd, .more, .tabs, .was, .clu, .wl, .gov, .pg, .pin, .lvl, .lg, .mon, .brg, .link, .dram, .mem, .host, .msix, .plc] s x11 := by
    unfold x11
    refine Within.step ?_ (Within.set_dram _ _ rfl rfl) rfl
    assumption
  try clear_value x11
  refine Within.step ?_ (State.linkReset_within _) rfl
  refine Within.step ?_ (State.ctxsClose_within _) rfl
  assumption

theorem State.imgErr_within (s : State) (a1 : Nat) (a2 : Nat) : Within [.img, .flg, .msix] s (State.imgErr s a1 a2) := by
  unfold State.imgErr
  refine Within.step ?_ (State.setBit_within _ _ _) rfl
  refine Within.step ?_ (State.modImg_within _ _) rfl
  exact Within.refl _ _

theorem State.fetchFrom_within (s : State) (a1 : BitVec 2) (a2 : Bool) : Within [.img, .tabs, .pg, .mem, .xram] s (State.fetchFrom s a1 a2) := by
  unfold State.fetchFrom
  refine Within.step ?_ (State.modImg_within _ _) rfl
  refine Within.step ?_ (State.clearMem_within _ _) rfl
  exact Within.refl _ _

theorem State.boot_within (s : State) (a1 : Bool) : Within [.img, .tabs, .pg, .mem, .xram] s (State.boot s a1) := by
  unfold State.boot
  refine Within.ite ?_ ?_
  · refine Within.step ?_ (State.fetchFrom_within _ _ _) rfl
    exact Within.refl _ _
  · exact Within.refl _ _

theorem State.coldState_within (s : State) (a1 : Bool) : Within coldParts s (State.coldState s a1) := by
  intro f hf
  cases f
  case part => rfl
  case jtag => rfl
  case smb => rfl
  case freeN => rfl
  case pending => rfl
  case chip => exact Part.sameChip.refl _
  case memForm =>
    intro h
    have hx : Memory.wf (fun _ => 0) s.mem.xram = true := (Bool.and_eq_true_iff.mp h).2
    refine Bool.and_eq_true_iff.mpr ⟨smWf_nil _, ?_⟩
    cases a1
    · exact smWf_nil _
    · exact hx
  case regForm =>
    intro _
    unfold State.regsOk State.coldState
    simp only [smWf_nil, Bool.and_true, Bool.true_and]
    exact smWf_put _ _ _ _ (smWf_nil _)
  all_goals exact absurd (by decide) hf

theorem State.cause_within (s : State) (a1 : BitVec 3) : Within [.pwr] s (State.cause s a1) := by
  unfold State.cause
  refine Within.step ?_ (State.modPwr_within _ _) rfl
  exact Within.refl _ _

theorem State.abortReport_within (s : State) : Within [.img, .flg, .msix] s (State.abortReport s) := by
  unfold State.abortReport
  refine Within.ite ?_ ?_
  · refine Within.step ?_ (State.modImg_within _ _) rfl
    refine Within.step ?_ (State.imgErr_within _ _ _) rfl
    exact Within.refl _ _
  · exact Within.refl _ _

theorem State.timeZero_within (s : State) : Within [.clk, .link] s (State.timeZero s) := by
  unfold State.timeZero
  extract_lets -merge -useContext -underBinder +onlyGivenNames x1
  have hx1 : Within [.clk, .link] s x1 := by
    unfold x1
    refine Within.step ?_ (State.modLink_within _ _) rfl
    exact Within.refl _ _
  try clear_value x1
  refine Within.step ?_ (State.modClk_within _ _) rfl
  assumption

theorem State.playClocksStart_within (s : State) : Within [.clk] s (State.playClocksStart s) := by
  unfold State.playClocksStart
  refine Within.step ?_ (State.modClk_within _ _) rfl
  exact Within.refl _ _

theorem State.watchPause_within (s : State) : Within [.flt] s (State.watchPause s) := by
  unfold State.watchPause
  refine Within.step ?_ (Within.set_flt _ _) rfl
  exact Within.refl _ _

theorem State.watchResume_within (s : State) : Within [.flt] s (State.watchResume s) := by
  unfold State.watchResume
  split
  · exact Within.refl _ _
  · refine Within.step ?_ (Within.set_flt _ _) rfl
    exact Within.refl _ _

theorem State.watchRelease_within (s : State) : Within [.flt] s (State.watchRelease s) := by
  unfold State.watchRelease
  refine Within.ite ?_ ?_
  · refine Within.step ?_ (State.watchResume_within _) rfl
    exact Within.refl _ _
  · refine Within.step ?_ (Within.set_flt _ _) rfl
    exact Within.refl _ _

theorem State.warmEnd_within (s : State) : Within [.clk, .pwr, .img, .flg, .cmd, .more, .link, .msix, .flt] s (State.warmEnd s) := by
  unfold State.warmEnd
  extract_lets -merge -useContext -underBinder +onlyGivenNames x1
  have hx1 : Within [.clk, .pwr, .img, .flg, .cmd, .more, .link, .msix, .flt] s x1 := by
    unfold x1
    refine Within.step ?_ (State.cmdTake_within _ _ _) rfl
    refine Within.step ?_ (State.modPwr_within _ _) rfl
    refine Within.step ?_ (State.abortReport_within _) rfl
    refine Within.step ?_ (State.timeZero_within _) rfl
    exact Within.refl _ _
  try clear_value x1
  refine Within.step ?_ (State.setBit_within _ _ _) rfl
  refine Within.step ?_ (State.watchResume_within _) rfl
  refine Within.step ?_ (State.playClocksStart_within _) rfl
  assumption

theorem State.clearsEnd_within (s : State) : Within [.mem] s (State.clearsEnd s) := by
  unfold State.clearsEnd
  refine Within.step ?_ (Within.set_mem _ _ rfl) rfl
  exact Within.refl _ _

theorem State.coldRelease_within (s : State) (a1 : Bool) : Within [.clk, .img, .flg, .tabs, .pg, .link, .mem, .xram, .msix, .flt] s (State.coldRelease s a1) := by
  unfold State.coldRelease
  refine Within.ite ?_ ?_
  · exact Within.refl _ _
  · refine Within.step ?_ (State.boot_within _ _) rfl
    refine Within.step ?_ (State.watchRelease_within _) rfl
    refine Within.step ?_ (State.abortReport_within _) rfl
    refine Within.step ?_ (State.timeZero_within _) rfl
    refine Within.step ?_ (State.clearsEnd_within _) rfl
    exact Within.refl _ _

theorem State.applyBind_within (s : State) (a1 : List Sys2Proof.Word) : Within [.tabs, .clu, .wl, .pg] s (State.applyBind s a1) := by
  unfold State.applyBind
  extract_lets -merge -useContext -underBinder +onlyGivenNames x1
  try clear_value x1
  extract_lets -merge -useContext -underBinder +onlyGivenNames x2
  have hx2 : Within [.tabs, .clu, .wl, .pg] s x2 := by
    unfold x2
    refine Within.fold ?_ (fun u x hu => ?_)
    · exact Within.refl _ _
    · refine Within.ite ?_ ?_
      · refine Within.step ?_ (State.modClu_within _ _ _) rfl
        assumption
      · refine Within.step ?_ (State.modClu_within _ _ _) rfl
        assumption
  try clear_value x2
  extract_lets -merge -useContext -underBinder +onlyGivenNames x3
  have hx3 : Within [.tabs, .clu, .wl, .pg] s x3 := by
    unfold x3
    refine Within.fold ?_ (fun u x hu => ?_)
    · assumption
    · refine Within.ite ?_ ?_
      · assumption
      · refine Within.step ?_ (State.modWl_within _ _ _) rfl
        assumption
  try clear_value x3
  refine Within.fold ?_ (fun u x hu => ?_)
  · assumption
  · refine Within.step ?_ (State.copyTset_within _ _) rfl
    exact hu

theorem State.applyRow_within (s : State) (a1 : List Sys2Proof.Word) : Within [.cfg, .eff, .was] s (State.applyRow s a1) := by
  unfold State.applyRow
  refine Within.fold ?_ (fun u x hu => ?_)
  · exact Within.refl _ _
  · extract_lets -merge -useContext -underBinder +onlyGivenNames x1
    try clear_value x1
    refine Within.step ?_ (State.loadWord_within _ _ _ _) rfl
    assumption

theorem State.applyLevel_within (s : State) (a1 : List Sys2Proof.Word) : Within [.cfg, .eff, .flg, .was, .lvl, .mon, .msix, .freeN] s (State.applyLevel s a1) := by
  unfold State.applyLevel
  extract_lets -merge -useContext -underBinder +onlyGivenNames x1
  try clear_value x1
  extract_lets -merge -useContext -underBinder +onlyGivenNames x2
  have hx2 : Within [.cfg, .eff, .flg, .was, .lvl, .mon, .msix, .freeN] s x2 := by
    unfold x2
    refine Within.step ?_ (State.loadWord_within _ _ _ _) rfl
    refine Within.step ?_ (State.codeNote_within _ _) rfl
    exact Within.refl _ _
  try clear_value x2
  refine Within.step ?_ (State.lvlSpanTake_within _ _) rfl
  refine Within.step ?_ (State.loadWord_within _ _ _ _) rfl
  assumption

theorem State.applySegs_within (s : State) (a1 : List Sys2Proof.Word) : Within [.flg, .tabs, .was, .clu, .mem, .msix, .plc] s (State.applySegs s a1) := by
  unfold State.applySegs
  extract_lets -merge -useContext -underBinder +onlyGivenNames x1
  have hx1 : Within [.flg, .tabs, .was, .clu, .mem, .msix, .plc] s x1 := by
    unfold x1
    refine Within.fold ?_ (fun u x hu => ?_)
    · exact Within.refl _ _
    · refine Within.step ?_ (State.unpublish_within _ _) rfl
      assumption
  try clear_value x1
  refine Within.step ?_ (Within.set_tabs _ _) rfl
  assumption

theorem State.applyTsets_within (s : State) (a1 : List Sys2Proof.Word) : Within [.tabs, .pg] s (State.applyTsets s a1) := by
  unfold State.applyTsets
  extract_lets -merge -useContext -underBinder +onlyGivenNames x1
  have hx1 : Within [.tabs, .pg] s x1 := by
    unfold x1
    refine Within.fold ?_ (fun u x hu => ?_)
    · exact Within.refl _ _
    · refine Within.step ?_ (State.noteSets_within _ _) rfl
      exact hu
  try clear_value x1
  refine Within.step ?_ (Within.set_tabs _ _) rfl
  assumption

theorem State.applyClocks_within (s : State) (a1 : Sys2Proof.Word) : Within [.clk] s (State.applyClocks s a1) := by
  unfold State.applyClocks
  extract_lets -merge -useContext -underBinder +onlyGivenNames x1
  try clear_value x1
  extract_lets -merge -useContext -underBinder +onlyGivenNames x2
  try clear_value x2
  refine Within.step ?_ (State.modClk_within _ _) rfl
  exact Within.refl _ _

theorem State.applyDram_within (s : State) (a1 : List Sys2Proof.Word) : Within [.clk, .dram, .host] s (State.applyDram s a1) := by
  unfold State.applyDram
  extract_lets -merge -useContext -underBinder +onlyGivenNames x1
  extract_lets -merge -useContext -underBinder +onlyGivenNames x2
  have hx2 : Within [.clk, .dram, .host] s x2 := by
    unfold x2
    refine Within.step ?_ (Within.set_dram _ _ rfl rfl) rfl
    exact Within.refl _ _
  try clear_value x2
  refine Within.step ?_ (State.modClk_within _ _) rfl
  refine Within.step ?_ (State.ctxsClose_within _) rfl
  assumption

theorem State.applyStaging_within (s : State) (a1 : List Sys2Proof.Word) : Within [.cfg, .eff, .was, .pg, .plc] s (State.applyStaging s a1) := by
  unfold State.applyStaging
  extract_lets -merge -useContext -underBinder +onlyGivenNames x1
  try clear_value x1
  extract_lets -merge -useContext -underBinder +onlyGivenNames x2
  have hx2 : Within [.cfg, .eff, .was, .pg, .plc] s x2 := by
    unfold x2
    refine Within.step ?_ (State.modPlc_within _ _) rfl
    exact Within.refl _ _
  try clear_value x2
  extract_lets -merge -useContext -underBinder +onlyGivenNames x3
  have hx3 : Within [.cfg, .eff, .was, .pg, .plc] s x3 := by
    unfold x3
    refine Within.step ?_ (State.modPlc_within _ _) rfl
    refine Within.step ?_ (State.loadWord_within _ _ _ _) rfl
    assumption
  try clear_value x3
  extract_lets -merge -useContext -underBinder +onlyGivenNames x4
  have hx4 : Within [.cfg, .eff, .was, .pg, .plc] s x4 := by
    unfold x4
    refine Within.fold ?_ (fun u x hu => ?_)
    · assumption
    · refine Within.step ?_ (State.modPg_within _ _ _) rfl
      assumption
  try clear_value x4
  refine Within.fold ?_ (fun u x hu => ?_)
  · assumption
  · refine Within.step ?_ (State.loadWord_within _ _ _ _) rfl
    assumption

theorem State.applyRec_within (s : State) (a1 : Nat) (a2 : List Sys2Proof.Word) : Within [.clk, .pwr, .cfg, .eff, .flg, .tabs, .was, .clu, .wl, .pg, .lvl, .mon, .dram, .mem, .host, .msix, .plc, .freeN] s (State.applyRec s a1 a2) := by
  unfold State.applyRec
  split
  · refine Within.step ?_ (State.applyClocks_within _ _) rfl
    exact Within.refl _ _
  · refine Within.step ?_ (State.applyDram_within _ _) rfl
    exact Within.refl _ _
  · refine Within.step ?_ (State.applyStaging_within _ _) rfl
    exact Within.refl _ _
  · refine Within.step ?_ (State.applyBind_within _ _) rfl
    exact Within.refl _ _
  · refine Within.step ?_ (State.applyRow_within _ _) rfl
    exact Within.refl _ _
  · refine Within.step ?_ (State.applyTsets_within _ _) rfl
    exact Within.refl _ _
  · refine Within.step ?_ (State.applyLevel_within _ _) rfl
    exact Within.refl _ _
  · refine Within.step ?_ (Within.set_tabs _ _) rfl
    exact Within.refl _ _
  · refine Within.step ?_ (State.applySegs_within _ _) rfl
    exact Within.refl _ _
  · refine Within.step ?_ (Within.set_tabs _ _) rfl
    exact Within.refl _ _
  · refine Within.step ?_ (Within.set_tabs _ _) rfl
    exact Within.refl _ _
  · refine Within.step ?_ (State.modPwr_within _ _) rfl
    exact Within.refl _ _
  · exact Within.refl _ _

theorem State.applySects_within (s : State) (a1 : List Sys2Proof.Byte) (a2 : List ImgSect) : Within [.clk, .pwr, .cfg, .eff, .flg, .tabs, .was, .clu, .wl, .pg, .lvl, .mon, .dram, .mem, .host, .msix, .plc, .freeN] s (State.applySects s a1 a2) := by
  unfold State.applySects
  refine Within.fold ?_ (fun u x hu => ?_)
  · exact Within.refl _ _
  · refine Within.fold ?_ (fun u x hu => ?_)
    · assumption
    · refine Within.step ?_ (State.applyRec_within _ _ _) rfl
      assumption

theorem State.loadEnd_within (s : State) : Within [.cmd, .more] s (State.loadEnd s) := by
  unfold State.loadEnd
  refine Within.step ?_ (State.cmdTake_within _ _ _) rfl
  exact Within.refl _ _

theorem State.loadRefuse_within (s : State) (a1 : Nat) (a2 : Nat) : Within [.img, .flg, .cmd, .more, .tabs, .pg, .mem, .xram, .msix] s (State.loadRefuse s a1 a2) := by
  unfold State.loadRefuse
  extract_lets -merge -useContext -underBinder +onlyGivenNames x1
  try clear_value x1
  extract_lets -merge -useContext -underBinder +onlyGivenNames x2
  have hx2 : Within [.img, .flg, .cmd, .more, .tabs, .pg, .mem, .xram, .msix] s x2 := by
    unfold x2
    refine Within.step ?_ (State.imgErr_within _ _ _) rfl
    exact Within.refl _ _
  try clear_value x2
  refine Within.ite ?_ ?_
  · refine Within.step ?_ (State.modImg_within _ _) rfl
    refine Within.step ?_ (State.fetchFrom_within _ _ _) rfl
    assumption
  · refine Within.step ?_ (State.loadEnd_within _) rfl
    refine Within.step ?_ (State.modImg_within _ _) rfl
    assumption

theorem execImgLoad_within (s : State) {t : State} (h : execImgLoad s = .next t) : Within [.clk, .pwr, .img, .ovl, .trg, .cfg, .eff, .flg, .ctr, .cmd, .more, .tabs, .was, .clu, .wl, .gov, .pg, .pin, .lvl, .lg, .mon, .brg, .link, .dram, .mem, .xram, .host, .msix, .plc] s t := by
  unfold execImgLoad at h
  refine Within.guarded ?_ h
  refine Within.ite ?_ ?_
  · exact Within.refl _ _
  · refine Within.ite ?_ ?_
    · refine Within.step ?_ (State.hold_within _ _) rfl
      exact Within.refl _ _
    · extract_lets -merge -useContext -underBinder +onlyGivenNames x1
      try clear_value x1
      extract_lets -merge -useContext -underBinder +onlyGivenNames x2
      try clear_value x2
      extract_lets -merge -useContext -underBinder +onlyGivenNames x3
      try clear_value x3
      extract_lets -merge -useContext -underBinder +onlyGivenNames x4
      try clear_value x4
      refine Within.ite ?_ ?_
      · refine Within.step ?_ (State.loadEnd_within _) rfl
        refine Within.step ?_ (State.imgErr_within _ _ _) rfl
        exact Within.refl _ _
      · refine Within.ite ?_ ?_
        · refine Within.step ?_ (State.loadEnd_within _) rfl
          refine Within.step ?_ (State.imgErr_within _ _ _) rfl
          exact Within.refl _ _
        · refine Within.step ?_ (State.modImg_within _ _) rfl
          refine Within.step ?_ (State.fetchFrom_within _ _ _) rfl
          refine Within.step ?_ (State.unconfigure_within _) rfl
          exact Within.refl _ _

theorem execImgFetchDone_within (a0 : Bool) (a1 : List Sys2Proof.Byte) (s : State) {t : State} (h : execImgFetchDone a0 a1 s = .next t) : Within [.img, .flg, .cmd, .more, .tabs, .pg, .mem, .xram, .msix] s t := by
  unfold execImgFetchDone at h
  refine Within.guarded ?_ h
  refine Within.ite ?_ ?_
  · exact Within.refl _ _
  · refine Within.ite ?_ ?_
    · refine Within.step ?_ (State.modImg_within _ _) rfl
      exact Within.refl _ _
    · refine Within.step ?_ (State.loadRefuse_within _ _ _) rfl
      exact Within.refl _ _

theorem State.imgIdentity_within (s : State) (a1 : List Sys2Proof.Byte) : Within [.img] s (State.imgIdentity s a1) := by
  unfold State.imgIdentity
  refine Within.step ?_ (State.modImg_within _ _) rfl
  exact Within.refl _ _

theorem execImgCheckDone_within (s : State) {t : State} (h : execImgCheckDone s = .next t) : Within [.clk, .pwr, .img, .cfg, .eff, .flg, .cmd, .more, .tabs, .was, .clu, .wl, .pg, .lvl, .mon, .dram, .mem, .xram, .host, .msix, .plc, .freeN] s t := by
  unfold execImgCheckDone at h
  refine Within.guarded ?_ h
  refine Within.ite ?_ ?_
  · exact Within.refl _ _
  · extract_lets -merge -useContext -underBinder +onlyGivenNames x1
    try clear_value x1
    extract_lets -merge -useContext -underBinder +onlyGivenNames x2
    try clear_value x2
    split
    · refine Within.step ?_ (State.loadRefuse_within _ _ _) rfl
      exact Within.refl _ _
    · extract_lets -merge -useContext -underBinder +onlyGivenNames x3
      have hx3 : Within [.clk, .pwr, .img, .cfg, .eff, .flg, .cmd, .more, .tabs, .was, .clu, .wl, .pg, .lvl, .mon, .dram, .mem, .xram, .host, .msix, .plc, .freeN] s x3 := by
        unfold x3
        refine Within.step ?_ (State.modImg_within _ _) rfl
        exact Within.refl _ _
      try clear_value x3
      refine Within.step ?_ (State.train_within _ _) rfl
      refine Within.step ?_ (State.applySects_within _ _ _) rfl
      assumption

theorem State.trainUndo_within (s : State) : Within [.clk, .pwr, .img, .ovl, .trg, .cfg, .eff, .flg, .ctr, .cmd, .more, .tabs, .was, .clu, .wl, .gov, .pg, .pin, .lvl, .lg, .mon, .brg, .link, .dram, .mem, .xram, .host, .msix, .plc] s (State.trainUndo s) := by
  unfold State.trainUndo
  extract_lets -merge -useContext -underBinder +onlyGivenNames x1
  try clear_value x1
  extract_lets -merge -useContext -underBinder +onlyGivenNames x2
  try clear_value x2
  extract_lets -merge -useContext -underBinder +onlyGivenNames x3
  try clear_value x3
  extract_lets -merge -useContext -underBinder +onlyGivenNames x4
  have hx4 : Within [.clk, .pwr, .img, .ovl, .trg, .cfg, .eff, .flg, .ctr, .cmd, .more, .tabs, .was, .clu, .wl, .gov, .pg, .pin, .lvl, .lg, .mon, .brg, .link, .dram, .mem, .xram, .host, .msix, .plc] s x4 := by
    unfold x4
    refine Within.step ?_ (State.modImg_within _ _) rfl
    refine Within.step ?_ (State.unconfigure_within _) rfl
    exact Within.refl _ _
  try clear_value x4
  refine Within.step ?_ (State.loadRefuse_within _ _ _) rfl
  assumption

theorem State.applyRest_within (s : State) : Within [.clk, .pwr, .cfg, .eff, .flg, .tabs, .was, .clu, .wl, .pg, .lvl, .mon, .dram, .mem, .xram, .host, .msix, .plc, .freeN] s (State.applyRest s) := by
  unfold State.applyRest
  refine Within.step ?_ (State.clearMem_within _ _) rfl
  refine Within.step ?_ (State.applySects_within _ _ _) rfl
  refine Within.step ?_ (State.trainPass_within _) rfl
  exact Within.refl _ _

theorem State.retrainEnd_within (s : State) (a1 : Option (Sys2Proof.Chan × Fin 8)) : Within [.flg, .ctr, .dram, .msix, .flt] s (State.retrainEnd s a1) := by
  unfold State.retrainEnd
  extract_lets -merge -useContext -underBinder +onlyGivenNames x1
  have hx1 : Within [.flg, .ctr, .dram, .msix, .flt] s x1 := by
    unfold x1
    split
    · refine Within.step ?_ (State.trainFail_within _ _ _) rfl
      exact Within.refl _ _
    · refine Within.step ?_ (State.trainPass_within _) rfl
      exact Within.refl _ _
  try clear_value x1
  refine Within.step ?_ (State.setBit_within _ _ _) rfl
  assumption

theorem execImgApplyDone_within (s : State) {t : State} (h : execImgApplyDone s = .next t) : Within [.img, .cmd, .more, .mem] s t := by
  unfold execImgApplyDone at h
  refine Within.guarded ?_ h
  refine Within.ite ?_ ?_
  · exact Within.refl _ _
  · extract_lets -merge -useContext -underBinder +onlyGivenNames x1
    have hx1 : Within [.img, .cmd, .more, .mem] s x1 := by
      unfold x1
      refine Within.step ?_ (Within.set_mem _ _ rfl) rfl
      refine Within.step ?_ (State.imgIdentity_within _ _) rfl
      exact Within.refl _ _
    try clear_value x1
    refine Within.step ?_ (State.loadEnd_within _) rfl
    refine Within.step ?_ (State.modImg_within _ _) rfl
    assumption

theorem State.loaderDone_within (s : State) (a1 : Fin 16) : Within [.ovl, .flg, .ctr, .dram, .msix, .freeN] s (State.loaderDone s a1) := by
  unfold State.loaderDone
  extract_lets -merge -useContext -underBinder +onlyGivenNames x1
  try clear_value x1
  extract_lets -merge -useContext -underBinder +onlyGivenNames x2
  have hx2 : Within [.ovl, .flg, .ctr, .dram, .msix, .freeN] s x2 := by
    unfold x2
    refine Within.fold ?_ (fun u x hu => ?_)
    · exact Within.refl _ _
    · refine Within.step ?_ (State.bankAccess_within _ _) rfl
      assumption
  try clear_value x2
  extract_lets -merge -useContext -underBinder +onlyGivenNames x3
  have hx3 : Within [.ovl, .flg, .ctr, .dram, .msix, .freeN] s x3 := by
    unfold x3
    refine Within.step ?_ (State.modOvl_within _ _) rfl
    assumption
  refine Within.step ?_ (Within.set_freeN _ _) rfl
  assumption

theorem execOvlValidate_within (s : State) {t : State} (h : execOvlValidate s = .next t) : Within [.pwr, .ovl, .flg, .cmd, .more, .msix] s t := by
  unfold execOvlValidate at h
  refine Within.guarded ?_ h
  refine Within.ite ?_ ?_
  · exact Within.refl _ _
  · refine Within.ite ?_ ?_
    · refine Within.step ?_ (State.hold_within _ _) rfl
      exact Within.refl _ _
    · extract_lets -merge -useContext -underBinder +onlyGivenNames x1
      try clear_value x1
      refine Within.ite ?_ ?_
      · refine Within.step ?_ (State.cmdTake_within _ _ _) rfl
        refine Within.step ?_ (State.ovlDrop_within _ _) rfl
        exact Within.refl _ _
      · refine Within.step ?_ (State.modOvl_within _ _) rfl
        exact Within.refl _ _

theorem execOvlValidateDone_within (s : State) {t : State} (h : execOvlValidateDone s = .next t) : Within [.ovl, .flg, .ctr, .cmd, .more, .dram, .msix, .freeN] s t := by
  unfold execOvlValidateDone at h
  refine Within.guarded ?_ h
  split
  · exact Within.refl _ _
  · exact Within.refl _ _
  · extract_lets -merge -useContext -underBinder +onlyGivenNames x1
    try clear_value x1
    extract_lets -merge -useContext -underBinder +onlyGivenNames x3
    try clear_value x3
    extract_lets -merge -useContext -underBinder +onlyGivenNames x2
    have hx2 : Within [.ovl, .flg, .ctr, .cmd, .more, .dram, .msix, .freeN] s x2 := by
      unfold x2
      refine Within.step ?_ (State.cmdTake_within _ _ _) rfl
      refine Within.step ?_ (State.modOvl_within _ _) rfl
      refine Within.step ?_ (State.loaderDone_within _ _) rfl
      exact Within.refl _ _
    try clear_value x2
    split
    · refine Within.step ?_ (State.ovlResult_within _ _ _ _ _) rfl
      refine Within.step ?_ (State.modSlot_within _ _ _) rfl
      assumption
    · refine Within.step ?_ (State.ovlResult_within _ _ _ _ _) rfl
      refine Within.step ?_ (State.modSlot_within _ _ _) rfl
      assumption

theorem State.applyTaken_within (s : State) : Within [.ovl, .cmd, .more] s (State.applyTaken s) := by
  unfold State.applyTaken
  extract_lets -merge -useContext -underBinder +onlyGivenNames x1
  try clear_value x1
  extract_lets -merge -useContext -underBinder +onlyGivenNames x2
  have hx2 : Within [.ovl, .cmd, .more] s x2 := by
    unfold x2
    refine Within.step ?_ (State.modOvl_within _ _) rfl
    exact Within.refl _ _
  try clear_value x2
  refine Within.ite ?_ ?_
  · refine Within.step ?_ (State.cmdDrop_within _ _ _) rfl
    assumption
  · assumption

theorem State.validateFirst_within (s : State) : Within [.ovl] s (State.validateFirst s) := by
  unfold State.validateFirst
  extract_lets -merge -useContext -underBinder +onlyGivenNames x1
  try clear_value x1
  refine Within.ite ?_ ?_
  · refine Within.step ?_ (State.modOvl_within _ _) rfl
    exact Within.refl _ _
  · exact Within.refl _ _

theorem execOvlApply_within (s : State) {t : State} (h : execOvlApply s = .next t) : Within [.pwr, .ovl, .flg, .cmd, .more, .msix] s t := by
  unfold execOvlApply at h
  refine Within.guarded ?_ h
  refine Within.ite ?_ ?_
  · refine Within.step ?_ (State.hold_within _ _) rfl
    exact Within.refl _ _
  · extract_lets -merge -useContext -underBinder +onlyGivenNames x1
    try clear_value x1
    extract_lets -merge -useContext -underBinder +onlyGivenNames x2
    have hx2 : Within [.pwr, .ovl, .flg, .cmd, .more, .msix] s x2 := by
      unfold x2
      refine Within.step ?_ (State.applyTaken_within _) rfl
      refine Within.step ?_ (State.validateFirst_within _) rfl
      exact Within.refl _ _
    try clear_value x2
    refine Within.ite ?_ ?_
    · refine Within.step ?_ (State.modOvl_within _ _) rfl
      refine Within.step ?_ (State.modSlot_within _ _ _) rfl
      assumption
    · refine Within.step ?_ (State.ovlDrop_within _ _) rfl
      assumption

theorem execOvlCancel_within (s : State) {t : State} (h : execOvlCancel s = .next t) : Within [.ovl, .flg, .cmd, .more, .msix] s t := by
  unfold execOvlCancel at h
  refine Within.guarded ?_ h
  extract_lets -merge -useContext -underBinder +onlyGivenNames x1
  try clear_value x1
  extract_lets -merge -useContext -underBinder +onlyGivenNames x2
  have hx2 : Within [.ovl, .flg, .cmd, .more, .msix] s x2 := by
    unfold x2
    refine Within.step ?_ (State.cmdTake_within _ _ _) rfl
    exact Within.refl _ _
  try clear_value x2
  refine Within.ite ?_ ?_
  · assumption
  · refine Within.ite ?_ ?_
    · refine Within.step ?_ (State.modOvl_within _ _) rfl
      refine Within.step ?_ (State.modSlot_within _ _ _) rfl
      assumption
    · refine Within.step ?_ (State.ovlDrop_within _ _) rfl
      assumption

theorem execOvlRelease_within (s : State) {t : State} (h : execOvlRelease s = .next t) : Within [.ovl, .flg, .cmd, .more, .msix] s t := by
  unfold execOvlRelease at h
  refine Within.guarded ?_ h
  extract_lets -merge -useContext -underBinder +onlyGivenNames x1
  try clear_value x1
  extract_lets -merge -useContext -underBinder +onlyGivenNames x2
  have hx2 : Within [.ovl, .flg, .cmd, .more, .msix] s x2 := by
    unfold x2
    refine Within.step ?_ (State.cmdTake_within _ _ _) rfl
    exact Within.refl _ _
  try clear_value x2
  refine Within.ite ?_ ?_
  · refine Within.step ?_ (State.modSlot_within _ _ _) rfl
    assumption
  · refine Within.step ?_ (State.ovlDrop_within _ _) rfl
    assumption

theorem execOvlQuietPoint_within (s : State) {t : State} (h : execOvlQuietPoint s = .next t) : Within [.ovl, .flg, .ctr, .dram, .msix, .freeN] s t := by
  unfold execOvlQuietPoint at h
  refine Within.guarded ?_ h
  split
  · exact Within.refl _ _
  · refine Within.ite ?_ ?_
    · exact Within.refl _ _
    · refine Within.ite ?_ ?_
      · refine Within.step ?_ (State.modOvl_within _ _) rfl
        refine Within.step ?_ (State.loaderDone_within _ _) rfl
        exact Within.refl _ _
      · refine Within.step ?_ (State.ovlResult_within _ _ _ _ _) rfl
        refine Within.step ?_ (State.modSlot_within _ _ _) rfl
        refine Within.step ?_ (State.modOvl_within _ _) rfl
        refine Within.step ?_ (State.loaderDone_within _ _) rfl
        exact Within.refl _ _

theorem execOvlApplyDone_within (s : State) {t : State} (h : execOvlApplyDone s = .next t) : Within [.clk, .pwr, .ovl, .cfg, .eff, .flg, .tabs, .was, .clu, .wl, .pg, .lvl, .mon, .brg, .dram, .mem, .host, .msix, .plc, .freeN] s t := by
  unfold execOvlApplyDone at h
  refine Within.guarded ?_ h
  split
  · exact Within.refl _ _
  · extract_lets -merge -useContext -underBinder +onlyGivenNames x1
    try clear_value x1
    extract_lets -merge -useContext -underBinder +onlyGivenNames x2
    have hx2 : Within [.clk, .pwr, .ovl, .cfg, .eff, .flg, .tabs, .was, .clu, .wl, .pg, .lvl, .mon, .brg, .dram, .mem, .host, .msix, .plc, .freeN] s x2 := by
      unfold x2
      refine Within.step ?_ (State.applySects_within _ _ _) rfl
      refine Within.step ?_ (State.freezeRows_within _) rfl
      exact Within.refl _ _
    try clear_value x2
    extract_lets -merge -useContext -underBinder +onlyGivenNames x3
    have hx3 : Within [.clk, .pwr, .ovl, .cfg, .eff, .flg, .tabs, .was, .clu, .wl, .pg, .lvl, .mon, .brg, .dram, .mem, .host, .msix, .plc, .freeN] s x3 := by
      unfold x3
      refine Within.step ?_ (State.modOvl_within _ _) rfl
      refine Within.step ?_ (State.modSlot_within _ _ _) rfl
      assumption
    try clear_value x3
    refine Within.step ?_ (State.releaseWrites_within _) rfl
    refine Within.step ?_ (State.ovlResult_within _ _ _ _ _) rfl
    assumption

theorem onward_within (s : State) (a1 : Host.Outcome State Fault Refusal) {l : List Field}
    (h : ∀ t, a1 = .next t → Within l s t) : Within l s (onward s a1) := by
  unfold onward
  split
  · exact h _ rfl
  · exact Within.refl _ _

theorem heldOutcome_within (i : Instr) (s t : State) (h : heldOutcome i s = .next t) : Within heldParts s t := by
  unfold heldOutcome at h
  cases i
  case bar4Read => exact (execBar4Read_within _ _ _ _ h).mono rfl
  case bar4Write => exact (execBar4Write_within _ _ _ h).mono rfl
  case cluStart => exact (execCluStart_within _ _ h).mono rfl
  case laneArm => exact (execLaneArm_within _ _ h).mono rfl
  case laneCal => exact (execLaneCal_within _ _ h).mono rfl
  case spanChangeStart => exact (execSpanChangeStart_within _ _ h).mono rfl
  case tcal => exact (execTcal_within _ _ h).mono rfl
  case lvlOeWrite => exact (execLvlOeWrite_within _ _ h).mono rfl
  case lvlReconnect => exact (execLvlReconnect_within _ _ h).mono rfl
  case imgLoad => exact (execImgLoad_within _ h).mono rfl
  case ovlValidate => exact (execOvlValidate_within _ h).mono rfl
  case ovlApply => exact (execOvlApply_within _ h).mono rfl
  case pubGo => exact (execPubGo_within _ h).mono rfl
  case dramRetrain => exact (execDramRetrain_within _ h).mono rfl
  case strmOpen => exact (execStrmOpen_within _ _ h).mono rfl
  all_goals
    cases h
    exact Within.refl _ _

theorem State.runHeld_within (s : State) : Within heldParts s (State.runHeld s) := by
  unfold State.runHeld
  refine Within.fold ((State.modPwr_within s _).mono rfl) (fun u i hu => ?_)
  exact hu.step (onward_within u _ (heldOutcome_within i u)) rfl

theorem execDramTrainDone_within (a0 : Option (Sys2Proof.Chan × Fin 8)) (s : State) {t : State} (h : execDramTrainDone a0 s = .next t) : Within [.clk, .pwr, .img, .ovl, .trg, .cfg, .eff, .flg, .ctr, .cmd, .more, .tabs, .was, .clu, .wl, .gov, .pg, .pin, .lvl, .lg, .mon, .brg, .link, .dram, .mem, .xram, .host, .msix, .flt, .plc, .freeN] s t := by
  unfold execDramTrainDone at h
  refine Within.guarded ?_ h
  split
  · refine Within.ite ?_ ?_
    · exact Within.refl _ _
    · split
      · refine Within.step ?_ (State.applyRest_within _) rfl
        exact Within.refl _ _
      · refine Within.step ?_ (State.trainUndo_within _) rfl
        exact Within.refl _ _
  · refine Within.step ?_ (State.runHeld_within _) rfl
    refine Within.step ?_ (State.retrainEnd_within _ _) rfl
    exact Within.refl _ _
  · exact Within.refl _ _

theorem State.shortEnd_within (s : State) : Within heldParts s (State.shortEnd s) := by
  unfold State.shortEnd
  refine Within.step ?_ (State.runHeld_within _) rfl
  refine Within.ite ?_ ?_
  · refine Within.step ?_ (State.warmEnd_within _) rfl
    exact Within.refl _ _
  · exact Within.refl _ _

theorem execShortTrainDone_within (a0 : Option (Sys2Proof.Chan × Fin 8)) (s : State) {t : State} (h : execShortTrainDone a0 s = .next t) : Within heldParts s t := by
  unfold execShortTrainDone at h
  refine Within.guarded ?_ h
  refine Within.ite ?_ ?_
  · exact Within.refl _ _
  · split
    · refine Within.step ?_ (State.shortEnd_within _) rfl
      refine Within.step ?_ (State.trainPass_within _) rfl
      exact Within.refl _ _
    · refine Within.step ?_ (State.shortEnd_within _) rfl
      refine Within.step ?_ (State.trainFail_within _ _ _) rfl
      exact Within.refl _ _

theorem State.modFlt_within (s : State) (a1 : Supervisor → Supervisor) : Within [.flt] s (State.modFlt s a1) := by
  unfold State.modFlt
  refine Within.step ?_ (Within.set_flt _ _) rfl
  exact Within.refl _ _

theorem State.writeRecord_within (s : State) : Within [.flg, .ctr, .msix, .flt] s (State.writeRecord s) := by
  unfold State.writeRecord
  split
  · exact Within.refl _ _
  · extract_lets -merge -useContext -underBinder +onlyGivenNames x1
    have hx1 : Within [.flg, .ctr, .msix, .flt] s x1 := by
      unfold x1
      refine Within.step ?_ (State.modFlt_within _ _) rfl
      exact Within.refl _ _
    try clear_value x1
    extract_lets -merge -useContext -underBinder +onlyGivenNames x2
    try clear_value x2
    refine Within.ite ?_ ?_
    · refine Within.step ?_ (State.loseRec_within _ _) rfl
      assumption
    · extract_lets -merge -useContext -underBinder +onlyGivenNames x3
      have hx3 : Within [.flg, .ctr, .msix, .flt] s x3 := by
        unfold x3
        refine Within.step ?_ (State.modFlt_within _ _) rfl
        assumption
      try clear_value x3
      refine Within.step ?_ (State.setBit_within _ _ _) rfl
      refine Within.step ?_ (State.setBitIf_within _ _ _ _) rfl
      refine Within.step ?_ (State.count_within _ _ _) rfl
      assumption

theorem execFaultRecordWrite_within (s : State) {t : State} (h : execFaultRecordWrite s = .next t) : Within [.clk, .flg, .ctr, .msix, .flt] s t := by
  unfold execFaultRecordWrite at h
  refine Within.guarded ?_ h
  refine Within.ite ?_ ?_
  · exact Within.refl _ _
  · refine Within.step ?_ (State.writeRecord_within _) rfl
    refine Within.step ?_ (State.upto_within _ _) rfl
    exact Within.refl _ _

theorem State.fltRdWrite_within (s : State) (a1 : Sys2Proof.Word) : Within [.flg, .msix, .flt] s (State.fltRdWrite s a1) := by
  unfold State.fltRdWrite
  refine Within.ite ?_ ?_
  · refine Within.step ?_ (State.setBit_within _ _ _) rfl
    exact Within.refl _ _
  · extract_lets -merge -useContext -underBinder +onlyGivenNames x1
    try clear_value x1
    refine Within.step ?_ (State.modFlt_within _ _) rfl
    exact Within.refl _ _

theorem execFltRdCountWrite_within (a0 : Sys2Proof.Word) (s : State) {t : State} (h : execFltRdCountWrite a0 s = .next t) : Within [.flg, .msix, .flt] s t := by
  unfold execFltRdCountWrite at h
  refine Within.guarded ?_ h
  refine Within.step ?_ (State.fltRdWrite_within _ _) rfl
  exact Within.refl _ _

theorem execFltCntClr_within (s : State) {t : State} (h : execFltCntClr s = .next t) : Within [.ctr] s t := by
  unfold execFltCntClr at h
  refine Within.guarded ?_ h
  refine Within.step ?_ (State.clearCtrs_within _ _) rfl
  exact Within.refl _ _

theorem State.heartbeat_within (s : State) (a1 : Bool) : Within [.flt] s (State.heartbeat s a1) := by
  unfold State.heartbeat
  refine Within.ite ?_ ?_
  · exact Within.refl _ _
  · refine Within.step ?_ (State.modFlt_within _ _) rfl
    exact Within.refl _ _

theorem execWatchdogTimeout_within (s : State) {t : State} (h : execWatchdogTimeout s = .next t) : Within [.clk, .flg, .msix, .flt, .smb] s t := by
  unfold execWatchdogTimeout at h
  refine Within.guarded ?_ h
  refine Within.ite ?_ ?_
  · exact Within.refl _ _
  · extract_lets -merge -useContext -underBinder +onlyGivenNames x1
    have hx1 : Within [.clk, .flg, .msix, .flt, .smb] s x1 := by
      unfold x1
      refine Within.step ?_ (State.setBit_within _ _ _) rfl
      refine Within.step ?_ (State.upto_within _ _) rfl
      exact Within.refl _ _
    try clear_value x1
    extract_lets -merge -useContext -underBinder +onlyGivenNames x2
    extract_lets -merge -useContext -underBinder +onlyGivenNames x3
    have hx3 : Within [.clk, .flg, .msix, .flt, .smb] s x3 := by
      unfold x3
      refine Within.step ?_ (Within.set_smb _ _) rfl
      assumption
    try clear_value x3
    refine Within.step ?_ (State.modFlt_within _ _) rfl
    assumption

theorem execSafeParkClear_within (s : State) {t : State} (h : execSafeParkClear s = .next t) : Within [.flg] s t := by
  unfold execSafeParkClear at h
  refine Within.guarded ?_ h
  refine Within.ite ?_ ?_
  · exact Within.refl _ _
  · refine Within.step ?_ (State.clearFlag_within _ _ _) rfl
    exact Within.refl _ _

theorem State.sampleBalls_within (s : State) (a1 : Sys2Proof.CompareBalls) : Within [.pin] s (State.sampleBalls s a1) := by
  unfold State.sampleBalls
  refine Within.fold ?_ (fun u x hu => ?_)
  · exact Within.refl _ _
  · extract_lets -merge -useContext -underBinder +onlyGivenNames x1
    try clear_value x1
    refine Within.step ?_ (State.modPin_within _ _ _) rfl
    assumption

theorem State.mgmtWork_within (s : State) (a1 : Sys2Proof.CompareBalls) (a2 : Bool) : Within heldParts s (State.mgmtWork s a1 a2) := by
  unfold State.mgmtWork
  extract_lets -merge -useContext -underBinder +onlyGivenNames x1
  try clear_value x1
  extract_lets -merge -useContext -underBinder +onlyGivenNames x2
  have hx2 : Within heldParts s x2 := by
    unfold x2
    refine Within.step ?_ (State.modClk_within _ _) rfl
    exact Within.refl _ _
  try clear_value x2
  extract_lets -merge -useContext -underBinder +onlyGivenNames x3
  have hx3 : Within heldParts s x3 := by
    unfold x3
    refine Within.step ?_ (Within.set_mem _ _ rfl) rfl
    assumption
  try clear_value x3
  extract_lets -merge -useContext -underBinder +onlyGivenNames x4
  have hx4 : Within heldParts s x4 := by
    unfold x4
    refine Within.step ?_ (State.ncoTick_within _) rfl
    refine Within.step ?_ (State.applyWhere_within _ _) rfl
    refine Within.step ?_ (State.freezeRows_within _) rfl
    assumption
  try clear_value x4
  extract_lets -merge -useContext -underBinder +onlyGivenNames x5
  have hx5 : Within heldParts s x5 := by
    unfold x5
    refine Within.step ?_ (State.monTick_within _) rfl
    refine Within.step ?_ (State.capoTick_within _) rfl
    refine Within.step ?_ (State.linkFollow_within _) rfl
    refine Within.step ?_ (State.bridgeTick_within _) rfl
    refine Within.step ?_ (State.dramTick_within _ _) rfl
    assumption
  try clear_value x5
  extract_lets -merge -useContext -underBinder +onlyGivenNames x6
  have hx6 : Within heldParts s x6 := by
    unfold x6
    refine Within.fold ?_ (fun u x hu => ?_)
    · assumption
    · refine Within.step ?_ (State.ncoSnap_within _ _) rfl
      exact hu
  try clear_value x6
  refine Within.step ?_ (State.runHeld_within _) rfl
  refine Within.step ?_ (State.heartbeat_within _ _) rfl
  refine Within.step ?_ (State.sampleBalls_within _ _) rfl
  assumption

theorem execManagementTick_within (a0 : Sys2Proof.CompareBalls) (a1 : Bool) (s : State) {t : State} (h : execManagementTick a0 a1 s = .next t) : Within heldParts s t := by
  unfold execManagementTick at h
  refine Within.guarded ?_ h
  refine Within.ite ?_ ?_
  · exact Within.refl _ _
  · exact State.inTick_within s _ _ (fun u => (State.mgmtWork_within u _ _).mono rfl) rfl

theorem State.alignAction_within (s : State) (a1 : List Nat) (a2 : Nat) : Within [.clk, .eff, .flg, .ctr, .cmd, .more, .tabs, .clu, .wl, .gov, .pg, .pin, .host, .msix, .plc] s (State.alignAction s a1 a2) := by
  unfold State.alignAction
  refine Within.fold ?_ (fun u x hu => ?_)
  · exact Within.refl _ _
  · refine Within.ite ?_ ?_
    · refine Within.step ?_ (State.stopCluster_within _ _ _ _) rfl
      refine Within.step ?_ (State.upto_within _ _) rfl
      assumption
    · assumption

theorem State.alignFault_within (s : State) (a1 : Nat) (a2 : Nat) (a3 : Nat) : Within [.flg, .ctr, .msix, .flt] s (State.alignFault s a1 a2 a3) := by
  unfold State.alignFault
  refine Within.step ?_ (State.report_within _ _) rfl
  exact Within.refl _ _

theorem State.misalign_within (s : State) (a1 : BitVec 16) : Within [.clk, .link] s (State.misalign s a1) := by
  unfold State.misalign
  extract_lets -merge -useContext -underBinder +onlyGivenNames x1
  have hx1 : Within [.clk, .link] s x1 := by
    unfold x1
    refine Within.fold ?_ (fun u x hu => ?_)
    · exact Within.refl _ _
    · refine Within.ite ?_ ?_
      · refine Within.step ?_ (State.modPort_within _ _ _) rfl
        assumption
      · assumption
  try clear_value x1
  refine Within.step ?_ (State.modClk_within _ _) rfl
  assumption

theorem State.slip_within (s : State) (a1 : Nat) (a2 : Nat) : Within [.clk, .flg, .ctr, .link, .msix, .flt] s (State.slip s a1 a2) := by
  unfold State.slip
  refine Within.step ?_ (State.alignFault_within _ _ _ _) rfl
  refine Within.step ?_ (State.count_within _ _ _) rfl
  refine Within.step ?_ (State.setBit_within _ _ _) rfl
  refine Within.step ?_ (State.misalign_within _ _) rfl
  exact Within.refl _ _

theorem State.portSlip_within (s : State) (a1 : Fin 4) : Within [.flg, .ctr, .link, .msix] s (State.portSlip s a1) := by
  unfold State.portSlip
  refine Within.ite ?_ ?_
  · refine Within.step ?_ (State.portTrain_within _ _) rfl
    refine Within.step ?_ (State.portFall_within _ _) rfl
    exact Within.refl _ _
  · exact Within.refl _ _

theorem State.crossEpoch_within (s : State) (a1 : Nat) : Within [.clk] s (State.crossEpoch s a1) := by
  unfold State.crossEpoch
  extract_lets -merge -useContext -underBinder +onlyGivenNames x1
  try clear_value x1
  extract_lets -merge -useContext -underBinder +onlyGivenNames x2
  try clear_value x2
  refine Within.step ?_ (State.modClk_within _ _) rfl
  exact Within.refl _ _

theorem State.crossCheck_within (s : State) (a1 : BitVec 16) : Within [.clk, .eff, .flg, .ctr, .cmd, .more, .tabs, .clu, .wl, .gov, .pg, .pin, .link, .host, .msix, .flt, .plc] s (State.crossCheck s a1) := by
  unfold State.crossCheck
  split
  · exact Within.refl _ _
  · extract_lets -merge -useContext -underBinder +onlyGivenNames x1
    have hx1 : Within [.clk, .eff, .flg, .ctr, .cmd, .more, .tabs, .clu, .wl, .gov, .pg, .pin, .link, .host, .msix, .flt, .plc] s x1 := by
      unfold x1
      refine Within.step ?_ (State.modClk_within _ _) rfl
      refine Within.step ?_ (State.upto_within _ _) rfl
      exact Within.refl _ _
    try clear_value x1
    extract_lets -merge -useContext -underBinder +onlyGivenNames x2
    try clear_value x2
    extract_lets -merge -useContext -underBinder +onlyGivenNames x3
    have hx3 : Within [.clk, .eff, .flg, .ctr, .cmd, .more, .tabs, .clu, .wl, .gov, .pg, .pin, .link, .host, .msix, .flt, .plc] s x3 := by
      unfold x3
      refine Within.fold ?_ (fun u x hu => ?_)
      · assumption
      · refine Within.step ?_ (State.slip_within _ _ _) rfl
        assumption
    try clear_value x3
    extract_lets -merge -useContext -underBinder +onlyGivenNames x4
    have hx4 : Within [.clk, .eff, .flg, .ctr, .cmd, .more, .tabs, .clu, .wl, .gov, .pg, .pin, .link, .host, .msix, .flt, .plc] s x4 := by
      unfold x4
      refine Within.fold ?_ (fun u x hu => ?_)
      · assumption
      · refine Within.ite ?_ ?_
        · refine Within.step ?_ (State.portSlip_within _ _) rfl
          assumption
        · assumption
    try clear_value x4
    refine Within.step ?_ (State.alignAction_within _ _ _) rfl
    assumption

theorem State.mgmtRearm_within (s : State) : Within [.clk] s (State.mgmtRearm s) := by
  unfold State.mgmtRearm
  refine Within.ite ?_ ?_
  · exact Within.refl _ _
  · refine Within.step ?_ (State.modClk_within _ _) rfl
    exact Within.refl _ _

theorem State.epochFirst_within (s : State) (a1 : Nat) : Within [.clk, .flg, .wl, .link, .msix] s (State.epochFirst s a1) := by
  unfold State.epochFirst
  extract_lets -merge -useContext -underBinder +onlyGivenNames x1
  try clear_value x1
  extract_lets -merge -useContext -underBinder +onlyGivenNames x2
  try clear_value x2
  extract_lets -merge -useContext -underBinder +onlyGivenNames x3
  try clear_value x3
  extract_lets -merge -useContext -underBinder +onlyGivenNames x4
  have hx4 : Within [.clk, .flg, .wl, .link, .msix] s x4 := by
    unfold x4
    refine Within.step ?_ (State.mgmtRearm_within _) rfl
    refine Within.step ?_ (State.modClk_within _ _) rfl
    refine Within.step ?_ (State.ncoStepBase_within _ _) rfl
    exact Within.refl _ _
  try clear_value x4
  extract_lets -merge -useContext -underBinder +onlyGivenNames x5
  have hx5 : Within [.clk, .flg, .wl, .link, .msix] s x5 := by
    unfold x5
    refine Within.ite ?_ ?_
    · assumption
    · refine Within.step ?_ (State.linkStep_within _ _) rfl
      assumption
  try clear_value x5
  refine Within.step ?_ (State.setBitIf_within _ _ _ _) rfl
  refine Within.step ?_ (State.setBitIf_within _ _ _ _) rfl
  assumption

theorem State.epochLater_within (s : State) (a1 : Nat) (a2 : Bool) : Within [.clk, .flg, .ctr, .msix, .flt] s (State.epochLater s a1 a2) := by
  unfold State.epochLater
  extract_lets -merge -useContext -underBinder +onlyGivenNames x1
  have hx1 : Within [.clk, .flg, .ctr, .msix, .flt] s x1 := by
    unfold x1
    refine Within.step ?_ (State.modClk_within _ _) rfl
    exact Within.refl _ _
  try clear_value x1
  refine Within.ite ?_ ?_
  · refine Within.step ?_ (State.alignFault_within _ _ _ _) rfl
    refine Within.step ?_ (State.setBit_within _ _ _) rfl
    assumption
  · assumption

theorem State.epochView_within (s : State) : Within [.clk, .flg, .wl, .link, .msix] s (State.epochView s) := by
  unfold State.epochView
  extract_lets -merge -useContext -underBinder +onlyGivenNames x1
  have hx1 : Within [.clk, .flg, .wl, .link, .msix] s x1 := by
    unfold x1
    refine Within.step ?_ (State.modLink_within _ _) rfl
    exact Within.refl _ _
  try clear_value x1
  extract_lets -merge -useContext -underBinder +onlyGivenNames x2
  try clear_value x2
  refine Within.ite ?_ ?_
  · refine Within.step ?_ (State.viewEffect_within _) rfl
    assumption
  · refine Within.step ?_ (State.mgmtRearm_within _) rfl
    refine Within.step ?_ (State.viewEffect_within _) rfl
    refine Within.step ?_ (State.ncoStepBase_within _ _) rfl
    assumption

theorem State.epochAt_within (s : State) (a1 : Nat) : Within [.clk, .eff, .flg, .ctr, .wl, .link, .msix, .flt] s (State.epochAt s a1) := by
  unfold State.epochAt
  extract_lets -merge -useContext -underBinder +onlyGivenNames x1
  have hx1 : Within [.clk, .eff, .flg, .ctr, .wl, .link, .msix, .flt] s x1 := by
    unfold x1
    refine Within.step ?_ (State.applyWhere_within _ _) rfl
    refine Within.step ?_ (State.upto_within _ _) rfl
    exact Within.refl _ _
  try clear_value x1
  extract_lets -merge -useContext -underBinder +onlyGivenNames x2
  try clear_value x2
  extract_lets -merge -useContext -underBinder +onlyGivenNames x3
  try clear_value x3
  extract_lets -merge -useContext -underBinder +onlyGivenNames x4
  have hx4 : Within [.clk, .eff, .flg, .ctr, .wl, .link, .msix, .flt] s x4 := by
    unfold x4
    refine Within.ite ?_ ?_
    · refine Within.step ?_ (State.epochFirst_within _ _) rfl
      assumption
    · refine Within.step ?_ (State.epochLater_within _ _ _) rfl
      assumption
  try clear_value x4
  extract_lets -merge -useContext -underBinder +onlyGivenNames x5
  try clear_value x5
  extract_lets -merge -useContext -underBinder +onlyGivenNames x6
  have hx6 : Within [.clk, .eff, .flg, .ctr, .wl, .link, .msix, .flt] s x6 := by
    unfold x6
    refine Within.step ?_ (State.modClk_within _ _) rfl
    refine Within.step ?_ (State.epochView_within _) rfl
    assumption
  try clear_value x6
  refine Within.ite ?_ ?_
  · refine Within.step ?_ (State.modClk_within _ _) rfl
    assumption
  · refine Within.step ?_ (State.crossEpoch_within _ _) rfl
    assumption

theorem execEpoch_within (a0 : Sys2Proof.EpochPart) (a1 : BitVec 16) (s : State) {t : State} (h : execEpoch a0 a1 s = .next t) : Within [.clk, .eff, .flg, .ctr, .cmd, .more, .tabs, .clu, .wl, .gov, .pg, .pin, .link, .host, .msix, .flt, .plc] s t := by
  unfold execEpoch at h
  refine Within.guarded ?_ h
  refine Within.ite ?_ ?_
  · exact Within.refl _ _
  · split
    · refine Within.step ?_ (State.crossCheck_within _ _) rfl
      exact Within.refl _ _
    · extract_lets -merge -useContext -underBinder +onlyGivenNames x1
      have hx1 : Within [.clk, .eff, .flg, .ctr, .cmd, .more, .tabs, .clu, .wl, .gov, .pg, .pin, .link, .host, .msix, .flt, .plc] s x1 := by
        unfold x1
        refine Within.step ?_ (State.modClk_within _ _) rfl
        exact Within.refl _ _
      try clear_value x1
      split
      · assumption
      · refine Within.step ?_ (State.epochAt_within _ _) rfl
        assumption

theorem execEpochLate_within (s : State) {t : State} (h : execEpochLate s = .next t) : Within [.clk, .flg, .msix] s t := by
  unfold execEpochLate at h
  refine Within.guarded ?_ h
  split
  · exact Within.refl _ _
  · refine Within.ite ?_ ?_
    · exact Within.refl _ _
    · refine Within.step ?_ (State.setBit_within _ _ _) rfl
      refine Within.step ?_ (State.modClk_within _ _) rfl
      refine Within.step ?_ (State.upto_within _ _) rfl
      exact Within.refl _ _

theorem execPllUnlock_within (a0 : Nat) (a1 : Fin 8) (s : State) {t : State} (h : execPllUnlock a0 a1 s = .next t) : Within [.clk, .eff, .flg, .ctr, .cmd, .more, .tabs, .clu, .wl, .gov, .pg, .pin, .link, .dram, .host, .msix, .flt, .plc] s t := by
  unfold execPllUnlock at h
  refine Within.guarded ?_ h
  extract_lets -merge -useContext -underBinder +onlyGivenNames x1
  have hx1 : Within [.clk, .eff, .flg, .ctr, .cmd, .more, .tabs, .clu, .wl, .gov, .pg, .pin, .link, .dram, .host, .msix, .flt, .plc] s x1 := by
    unfold x1
    refine Within.step ?_ (State.upto_within _ _) rfl
    exact Within.refl _ _
  try clear_value x1
  refine Within.ite ?_ ?_
  · assumption
  · extract_lets -merge -useContext -underBinder +onlyGivenNames x2
    try clear_value x2
    extract_lets -merge -useContext -underBinder +onlyGivenNames x3
    have hx3 : Within [.clk, .eff, .flg, .ctr, .cmd, .more, .tabs, .clu, .wl, .gov, .pg, .pin, .link, .dram, .host, .msix, .flt, .plc] s x3 := by
      unfold x3
      refine Within.step ?_ (State.misalign_within _ _) rfl
      refine Within.step ?_ (State.modClk_within _ _) rfl
      assumption
    try clear_value x3
    extract_lets -merge -useContext -underBinder +onlyGivenNames x4
    have hx4 : Within [.clk, .eff, .flg, .ctr, .cmd, .more, .tabs, .clu, .wl, .gov, .pg, .pin, .link, .dram, .host, .msix, .flt, .plc] s x4 := by
      unfold x4
      refine Within.step ?_ (State.alignFault_within _ _ _ _) rfl
      refine Within.step ?_ (State.setBit_within _ _ _) rfl
      assumption
    try clear_value x4
    extract_lets -merge -useContext -underBinder +onlyGivenNames x5
    extract_lets -merge -useContext -underBinder +onlyGivenNames x6
    have hx6 : Within [.clk, .eff, .flg, .ctr, .cmd, .more, .tabs, .clu, .wl, .gov, .pg, .pin, .link, .dram, .host, .msix, .flt, .plc] s x6 := by
      unfold x6
      refine Within.ite ?_ ?_
      · refine Within.step ?_ (Within.set_dram _ _ rfl rfl) rfl
        assumption
      · assumption
    try clear_value x6
    refine Within.ite ?_ ?_
    · assumption
    · refine Within.step ?_ (State.alignAction_within _ _ _) rfl
      assumption

theorem execPllRelock_within (a0 : Nat) (a1 : Fin 8) (s : State) {t : State} (h : execPllRelock a0 a1 s = .next t) : Within [.clk, .dram] s t := by
  unfold execPllRelock at h
  refine Within.guarded ?_ h
  extract_lets -merge -useContext -underBinder +onlyGivenNames x1
  have hx1 : Within [.clk, .dram] s x1 := by
    unfold x1
    refine Within.step ?_ (State.upto_within _ _) rfl
    exact Within.refl _ _
  try clear_value x1
  refine Within.ite ?_ ?_
  · assumption
  · extract_lets -merge -useContext -underBinder +onlyGivenNames x2
    have hx2 : Within [.clk, .dram] s x2 := by
      unfold x2
      refine Within.step ?_ (State.modClk_within _ _) rfl
      assumption
    try clear_value x2
    refine Within.ite ?_ ?_
    · assumption
    · refine Within.ite ?_ ?_
      · refine Within.step ?_ (State.train_within _ _) rfl
        assumption
      · refine Within.step ?_ (Within.set_dram _ _ rfl rfl) rfl
        assumption

theorem execAonPeriodUpdate_within (a0 : BitVec 32) (s : State) {t : State} (h : execAonPeriodUpdate a0 s = .next t) : Within [.clk] s t := by
  unfold execAonPeriodUpdate at h
  refine Within.guarded ?_ h
  refine Within.ite ?_ ?_
  · refine Within.step ?_ (State.modClk_within _ _) rfl
    exact Within.refl _ _
  · exact Within.refl _ _

theorem execPwrCntClr_within (s : State) {t : State} (h : execPwrCntClr s = .next t) : Within [.ctr] s t := by
  unfold execPwrCntClr at h
  refine Within.guarded ?_ h
  refine Within.step ?_ (State.clearCtr_within _ _) rfl
  exact Within.refl _ _

theorem execDevCntClr_within (s : State) {t : State} (h : execDevCntClr s = .next t) : Within [.ctr] s t := by
  unfold execDevCntClr at h
  refine Within.guarded ?_ h
  refine Within.step ?_ (State.clearCtr_within _ _) rfl
  exact Within.refl _ _

theorem State.playClocksStop_within (s : State) : Within [.clk, .link] s (State.playClocksStop s) := by
  unfold State.playClocksStop
  refine Within.step ?_ (State.misalign_within _ _) rfl
  refine Within.step ?_ (State.modClk_within _ _) rfl
  exact Within.refl _ _

theorem State.requestRefuse_within (s : State) (a1 : Fin 13) : Within heldParts s (State.requestRefuse s a1) := by
  unfold State.requestRefuse
  extract_lets -merge -useContext -underBinder +onlyGivenNames x1
  try clear_value x1
  extract_lets -merge -useContext -underBinder +onlyGivenNames x2
  have hx2 : Within heldParts s x2 := by
    unfold x2
    refine Within.step ?_ (State.setBit_within _ _ _) rfl
    refine Within.step ?_ (State.modPwr_within _ _) rfl
    exact Within.refl _ _
  try clear_value x2
  refine Within.step ?_ (State.runHeld_within _) rfl
  refine Within.step ?_ (State.upto_within _ _) rfl
  assumption

theorem State.enterQuiet_within (s : State) : Within [.clk, .pwr, .img, .ovl, .trg, .cfg, .eff, .flg, .ctr, .cmd, .more, .tabs, .was, .clu, .wl, .gov, .pg, .pin, .lvl, .lg, .mon, .brg, .link, .dram, .bytes, .mem, .xram, .host, .msix, .flt, .plc, .freeN] s (State.enterQuiet s) := by
  unfold State.enterQuiet
  extract_lets -merge -useContext -underBinder +onlyGivenNames x1
  have hx1 : Within [.clk, .pwr, .img, .ovl, .trg, .cfg, .eff, .flg, .ctr, .cmd, .more, .tabs, .was, .clu, .wl, .gov, .pg, .pin, .lvl, .lg, .mon, .brg, .link, .dram, .bytes, .mem, .xram, .host, .msix, .flt, .plc, .freeN] s x1 := by
    unfold x1
    refine Within.step ?_ (State.playClocksStop_within _) rfl
    exact Within.refl _ _
  try clear_value x1
  extract_lets -merge -useContext -underBinder +onlyGivenNames x2
  have hx2 : Within [.clk, .pwr, .img, .ovl, .trg, .cfg, .eff, .flg, .ctr, .cmd, .more, .tabs, .was, .clu, .wl, .gov, .pg, .pin, .lvl, .lg, .mon, .brg, .link, .dram, .bytes, .mem, .xram, .host, .msix, .flt, .plc, .freeN] s x2 := by
    unfold x2
    refine Within.ite ?_ ?_
    · refine Within.step ?_ (State.selfRefreshIn_within _) rfl
      assumption
    · assumption
  try clear_value x2
  extract_lets -merge -useContext -underBinder +onlyGivenNames x3
  have hx3 : Within [.clk, .pwr, .img, .ovl, .trg, .cfg, .eff, .flg, .ctr, .cmd, .more, .tabs, .was, .clu, .wl, .gov, .pg, .pin, .lvl, .lg, .mon, .brg, .link, .dram, .bytes, .mem, .xram, .host, .msix, .flt, .plc, .freeN] s x3 := by
    unfold x3
    refine Within.step ?_ (State.modPwr_within _ _) rfl
    assumption
  try clear_value x3
  refine Within.step ?_ (State.runHeld_within _) rfl
  refine Within.step ?_ (State.setBit_within _ _ _) rfl
  assumption

theorem State.leaveQuiet_within (s : State) : Within [.clk, .pwr, .dram] s (State.leaveQuiet s) := by
  unfold State.leaveQuiet
  extract_lets -merge -useContext -underBinder +onlyGivenNames x1
  have hx1 : Within [.clk, .pwr, .dram] s x1 := by
    unfold x1
    refine Within.step ?_ (State.modPwr_within _ _) rfl
    refine Within.step ?_ (State.playClocksStart_within _) rfl
    exact Within.refl _ _
  try clear_value x1
  refine Within.ite ?_ ?_
  · refine Within.step ?_ (State.train_within _ _) rfl
    assumption
  · assumption

theorem execPowerGo_within (s : State) {t : State} (h : execPowerGo s = .next t) : Within [.clk, .pwr, .flg, .cmd, .more, .dram, .msix] s t := by
  unfold execPowerGo at h
  refine Within.guarded ?_ h
  extract_lets -merge -useContext -underBinder +onlyGivenNames x1
  have hx1 : Within [.clk, .pwr, .flg, .cmd, .more, .dram, .msix] s x1 := by
    unfold x1
    refine Within.step ?_ (State.cmdTake_within _ _ _) rfl
    exact Within.refl _ _
  try clear_value x1
  extract_lets -merge -useContext -underBinder +onlyGivenNames x2
  try clear_value x2
  extract_lets -merge -useContext -underBinder +onlyGivenNames x3
  try clear_value x3
  extract_lets -merge -useContext -underBinder +onlyGivenNames x4
  try clear_value x4
  refine Within.ite ?_ ?_
  · refine Within.step ?_ (State.setBit_within _ _ _) rfl
    refine Within.step ?_ (State.modPwr_within _ _) rfl
    assumption
  · refine Within.ite ?_ ?_
    · refine Within.step ?_ (State.leaveQuiet_within _) rfl
      assumption
    · refine Within.step ?_ (State.modPwr_within _ _) rfl
      assumption

theorem State.blockAgrees_within (s : State) (a1 : Fin 13) : Within [.clk, .pwr, .img, .ovl, .trg, .cfg, .eff, .flg, .ctr, .cmd, .more, .tabs, .was, .clu, .wl, .gov, .pg, .pin, .lvl, .lg, .mon, .brg, .link, .dram, .bytes, .mem, .xram, .host, .msix, .flt, .plc, .freeN] s (State.blockAgrees s a1) := by
  unfold State.blockAgrees
  extract_lets -merge -useContext -underBinder +onlyGivenNames x1
  have hx1 : Within [.clk, .pwr, .img, .ovl, .trg, .cfg, .eff, .flg, .ctr, .cmd, .more, .tabs, .was, .clu, .wl, .gov, .pg, .pin, .lvl, .lg, .mon, .brg, .link, .dram, .bytes, .mem, .xram, .host, .msix, .flt, .plc, .freeN] s x1 := by
    unfold x1
    refine Within.ite ?_ ?_
    · refine Within.step ?_ (State.tuneStop_within _) rfl
      exact Within.refl _ _
    · exact Within.refl _ _
  try clear_value x1
  extract_lets -merge -useContext -underBinder +onlyGivenNames x2
  have hx2 : Within [.clk, .pwr, .img, .ovl, .trg, .cfg, .eff, .flg, .ctr, .cmd, .more, .tabs, .was, .clu, .wl, .gov, .pg, .pin, .lvl, .lg, .mon, .brg, .link, .dram, .bytes, .mem, .xram, .host, .msix, .flt, .plc, .freeN] s x2 := by
    unfold x2
    refine Within.step ?_ (State.modPwr_within _ _) rfl
    assumption
  try clear_value x2
  refine Within.ite ?_ ?_
  · assumption
  · refine Within.ite ?_ ?_
    · refine Within.step ?_ (State.enterQuiet_within _) rfl
      assumption
    · refine Within.step ?_ (State.watchPause_within _) rfl
      refine Within.step ?_ (State.modClk_within _ _) rfl
      refine Within.step ?_ (State.modPwr_within _ _) rfl
      assumption

theorem execPowerBlockAnswer_within (a0 : Nat) (a1 : Fin 13) (s : State) {t : State} (h : execPowerBlockAnswer a0 a1 s = .next t) : Within [.clk, .pwr, .img, .ovl, .trg, .cfg, .eff, .flg, .ctr, .cmd, .more, .tabs, .was, .clu, .wl, .gov, .pg, .pin, .lvl, .lg, .mon, .brg, .link, .dram, .bytes, .mem, .xram, .host, .msix, .flt, .plc, .freeN] s t := by
  unfold execPowerBlockAnswer at h
  refine Within.guarded ?_ h
  refine Within.ite ?_ ?_
  · extract_lets -merge -useContext -underBinder +onlyGivenNames x1
    have hx1 : Within [.clk, .pwr, .img, .ovl, .trg, .cfg, .eff, .flg, .ctr, .cmd, .more, .tabs, .was, .clu, .wl, .gov, .pg, .pin, .lvl, .lg, .mon, .brg, .link, .dram, .bytes, .mem, .xram, .host, .msix, .flt, .plc, .freeN] s x1 := by
      unfold x1
      refine Within.step ?_ (State.upto_within _ _) rfl
      exact Within.refl _ _
    try clear_value x1
    refine Within.ite ?_ ?_
    · refine Within.step ?_ (State.requestRefuse_within _ _) rfl
      assumption
    · refine Within.step ?_ (State.blockAgrees_within _ _) rfl
      assumption
  · refine Within.ite ?_ ?_
    · refine Within.step ?_ (State.modPwr_within _ _) rfl
      exact Within.refl _ _
    · exact Within.refl _ _

theorem execQuietResumeDone_within (s : State) {t : State} (h : execQuietResumeDone s = .next t) : Within heldParts s t := by
  unfold execQuietResumeDone at h
  refine Within.guarded ?_ h
  refine Within.ite ?_ ?_
  · exact Within.refl _ _
  · refine Within.step ?_ (State.runHeld_within _) rfl
    refine Within.step ?_ (State.setBit_within _ _ _) rfl
    refine Within.step ?_ (State.modPwr_within _ _) rfl
    exact Within.refl _ _

theorem State.parkTables_within (s : State) : Within [.flg, .ctr, .dram, .bytes, .msix, .flt, .freeN] s (State.parkTables s) := by
  unfold State.parkTables
  extract_lets -merge -useContext -underBinder +onlyGivenNames x1
  try clear_value x1
  extract_lets -merge -useContext -underBinder +onlyGivenNames x2
  try clear_value x2
  extract_lets -merge -useContext -underBinder +onlyGivenNames x3
  have hx3 : Within [.flg, .ctr, .dram, .bytes, .msix, .flt, .freeN] s x3 := by
    unfold x3
    refine Within.step ?_ (State.dramWrite_within _ _ _) rfl
    refine Within.step ?_ (State.hostAccesses_within _ _) rfl
    exact Within.refl _ _
  try clear_value x3
  extract_lets -merge -useContext -underBinder +onlyGivenNames x4
  have hx4 : Within [.flg, .ctr, .dram, .bytes, .msix, .flt, .freeN] s x4 := by
    unfold x4
    refine Within.fold ?_ (fun u x hu => ?_)
    · assumption
    · refine Within.step ?_ (State.escape_within _ _ _ _) rfl
      refine Within.step ?_ (State.smear_within _ _) rfl
      assumption
  try clear_value x4
  refine Within.step ?_ (Within.set_freeN _ _) rfl
  assumption

theorem State.parkRead_within (s : State) : Within [.flg, .ctr, .dram, .msix, .flt, .freeN] s (State.parkRead s) := by
  unfold State.parkRead
  extract_lets -merge -useContext -underBinder +onlyGivenNames x1
  try clear_value x1
  extract_lets -merge -useContext -underBinder +onlyGivenNames x2
  have hx2 : Within [.flg, .ctr, .dram, .msix, .flt, .freeN] s x2 := by
    unfold x2
    refine Within.fold ?_ (fun u x hu => ?_)
    · refine Within.step ?_ (State.hostAccesses_within _ _) rfl
      exact Within.refl _ _
    · refine Within.step ?_ (State.escape_within _ _ _ _) rfl
      assumption
  try clear_value x2
  refine Within.step ?_ (Within.set_freeN _ _) rfl
  assumption

theorem State.thawTables_within (s : State) : Within [.flg, .ctr, .tabs, .dram, .msix, .flt, .freeN] s (State.thawTables s).1 := by
  unfold State.thawTables
  split
  · exact Within.refl _ _
  · extract_lets -merge -useContext -underBinder +onlyGivenNames x1
    have hx1 : Within [.flg, .ctr, .tabs, .dram, .msix, .flt, .freeN] s x1 := by
      unfold x1
      refine Within.step ?_ (State.parkRead_within _) rfl
      exact Within.refl _ _
    refine Within.step ?_ (Within.set_tabs _ _) rfl
    assumption

theorem execWinterSaveDone_within (s : State) {t : State} (h : execWinterSaveDone s = .next t) : Within [.clk, .pwr, .ovl, .flg, .ctr, .clu, .dram, .bytes, .mem, .host, .msix, .flt, .plc, .freeN] s t := by
  unfold execWinterSaveDone at h
  refine Within.guarded ?_ h
  refine Within.ite ?_ ?_
  · exact Within.refl _ _
  · extract_lets -merge -useContext -underBinder +onlyGivenNames x1
    have hx1 : Within [.clk, .pwr, .ovl, .flg, .ctr, .clu, .dram, .bytes, .mem, .host, .msix, .flt, .plc, .freeN] s x1 := by
      unfold x1
      refine Within.fold ?_ (fun u x hu => ?_)
      · exact Within.refl _ _
      · refine Within.step ?_ (State.writeRecord_within _) rfl
        assumption
    try clear_value x1
    extract_lets -merge -useContext -underBinder +onlyGivenNames x2
    have hx2 : Within [.clk, .pwr, .ovl, .flg, .ctr, .clu, .dram, .bytes, .mem, .host, .msix, .flt, .plc, .freeN] s x2 := by
      unfold x2
      refine Within.ite ?_ ?_
      · refine Within.step ?_ (State.selfRefreshIn_within _) rfl
        refine Within.step ?_ (State.parkTables_within _) rfl
        assumption
      · assumption
    try clear_value x2
    refine Within.step ?_ (State.modPwr_within _ _) rfl
    assumption

theorem State.thawStart_within (s : State) (a1 : BitVec 2) : Within [.pwr] s (State.thawStart s a1) := by
  unfold State.thawStart
  refine Within.step ?_ (State.modPwr_within _ _) rfl
  exact Within.refl _ _

theorem State.sensorsOff_within (s : State) (a1 : Nat → Bool) : Within [.smb] s (State.sensorsOff s a1) := by
  unfold State.sensorsOff
  refine Within.step ?_ (Within.set_smb _ _) rfl
  exact Within.refl _ _

theorem State.commitCycle_within (s : State) (a1 : Nat) : Within [.clk, .flg, .tabs, .pg, .link, .mem, .xram, .msix, .smb] s (State.commitCycle s a1) := by
  unfold State.commitCycle
  split
  · extract_lets -merge -useContext -underBinder +onlyGivenNames x1
    have hx1 : Within [.clk, .flg, .tabs, .pg, .link, .mem, .xram, .msix, .smb] s x1 := by
      unfold x1
      refine Within.fold ?_ (fun u x hu => ?_)
      · exact Within.refl _ _
      · refine Within.step ?_ (State.portFall_within _ _) rfl
        exact hu
    try clear_value x1
    refine Within.step ?_ (State.modClk_within _ _) rfl
    assumption
  · refine Within.step ?_ (State.sensorsOff_within _ _) rfl
    refine Within.step ?_ (State.playClocksStop_within _) rfl
    exact Within.refl _ _
  · extract_lets -merge -useContext -underBinder +onlyGivenNames x2
    have hx2 : Within [.clk, .flg, .tabs, .pg, .link, .mem, .xram, .msix, .smb] s x2 := by
      unfold x2
      exact ((Within.set_tabs s {}).mono rfl).step (State.modMem_within _ _ (fun _ => smWf_nil _)) rfl
    try clear_value x2
    refine Within.fold ?_ (fun u x hu => ?_)
    · assumption
    · refine Within.step ?_ (State.modPg_within _ _ _) rfl
      assumption
  · refine Within.step ?_ (State.sensorsOff_within _ _) rfl
    exact Within.refl _ _
  · exact Within.refl _ _

theorem execWinterCommitCycle_within (s : State) {t : State} (h : execWinterCommitCycle s = .next t) : Within [.clk, .pwr, .flg, .tabs, .pg, .link, .mem, .xram, .msix, .smb] s t := by
  unfold execWinterCommitCycle at h
  refine Within.guarded ?_ h
  refine Within.ite ?_ ?_
  · exact Within.refl _ _
  · extract_lets -merge -useContext -underBinder +onlyGivenNames x1
    try clear_value x1
    extract_lets -merge -useContext -underBinder +onlyGivenNames x2
    have hx2 : Within [.clk, .pwr, .flg, .tabs, .pg, .link, .mem, .xram, .msix, .smb] s x2 := by
      unfold x2
      refine Within.step ?_ (State.modPwr_within _ _) rfl
      refine Within.step ?_ (State.commitCycle_within _ _) rfl
      exact Within.refl _ _
    try clear_value x2
    refine Within.ite ?_ ?_
    · assumption
    · refine Within.ite ?_ ?_
      · refine Within.step ?_ (State.thawStart_within _ _) rfl
        assumption
      · refine Within.ite ?_ ?_
        · refine Within.step ?_ (State.thawStart_within _ _) rfl
          assumption
        · refine Within.step ?_ (State.modPwr_within _ _) rfl
          assumption

theorem execWakeNEdge_within (a0 : Nat) (a1 : Bool) (s : State) {t : State} (h : execWakeNEdge a0 a1 s = .next t) : Within heldParts s t := by
  unfold execWakeNEdge at h
  refine Within.guarded ?_ h
  refine Within.ite ?_ ?_
  · exact Within.refl _ _
  · extract_lets -merge -useContext -underBinder +onlyGivenNames x1
    have hx1 : Within heldParts s x1 := by
      unfold x1
      refine Within.step ?_ (State.modPwr_within _ _) rfl
      refine Within.step ?_ (State.upto_within _ _) rfl
      exact Within.refl _ _
    try clear_value x1
    extract_lets -merge -useContext -underBinder +onlyGivenNames x2
    have hx2 : Within heldParts s x2 := by
      unfold x2
      refine Within.step ?_ (State.modPwr_within _ _) rfl
      assumption
    try clear_value x2
    split
    · assumption
    · refine Within.ite ?_ ?_
      · refine Within.step ?_ (State.thawStart_within _ _) rfl
        assumption
      · assumption
    · assumption
    · refine Within.step ?_ (State.fire_within _ _ _) rfl
      refine Within.ite ?_ ?_
      · assumption
      · assumption
    · extract_lets -merge -useContext -underBinder +onlyGivenNames x3
      have hx3 : Within heldParts s x3 := by
        unfold x3
        refine Within.step ?_ (State.fire_within _ _ _) rfl
        assumption
      try clear_value x3
      refine Within.ite ?_ ?_
      · refine Within.step ?_ (State.requestRefuse_within _ _) rfl
        assumption
      · assumption
    · extract_lets -merge -useContext -underBinder +onlyGivenNames x4
      have hx4 : Within heldParts s x4 := by
        unfold x4
        refine Within.step ?_ (State.fire_within _ _ _) rfl
        assumption
      try clear_value x4
      refine Within.ite ?_ ?_
      · refine Within.step ?_ (State.leaveQuiet_within _) rfl
        assumption
      · assumption
    · refine Within.step ?_ (State.fire_within _ _ _) rfl
      assumption

theorem execWakeTimerExpiry_within (s : State) {t : State} (h : execWakeTimerExpiry s = .next t) : Within [.clk, .pwr] s t := by
  unfold execWakeTimerExpiry at h
  refine Within.guarded ?_ h
  refine Within.ite ?_ ?_
  · refine Within.step ?_ (State.thawStart_within _ _) rfl
    refine Within.step ?_ (State.upto_within _ _) rfl
    exact Within.refl _ _
  · exact Within.refl _ _

theorem State.timeRestart_within (s : State) (a1 : Nat) : Within [.clk, .pwr] s (State.timeRestart s a1) := by
  unfold State.timeRestart
  extract_lets -merge -useContext -underBinder +onlyGivenNames x1
  try clear_value x1
  extract_lets -merge -useContext -underBinder +onlyGivenNames x2
  have hx2 : Within [.clk, .pwr] s x2 := by
    unfold x2
    refine Within.step ?_ (State.modClk_within _ _) rfl
    exact Within.refl _ _
  try clear_value x2
  refine Within.step ?_ (State.modPwr_within _ _) rfl
  assumption

theorem State.lvlThaw_within (s : State) (a1 : Sys2Proof.Lvl) : Within [.cfg, .eff, .lvl] s (State.lvlThaw s a1) := by
  unfold State.lvlThaw
  refine Within.step ?_ (State.modLvl_within _ _ _) rfl
  refine Within.step ?_ (State.resetField_within _ _ _) rfl
  exact Within.refl _ _

theorem State.thawState_within (s : State) : Within [.pwr, .trg, .cfg, .eff, .flg, .ctr, .cmd, .more, .pg, .lvl, .lg, .mon, .brg, .link, .msix, .plc] s (State.thawState s) := by
  unfold State.thawState
  extract_lets -merge -useContext -underBinder +onlyGivenNames x1
  have hx1 : Within [.pwr, .trg, .cfg, .eff, .flg, .ctr, .cmd, .more, .pg, .lvl, .lg, .mon, .brg, .link, .msix, .plc] s x1 := by
    unfold x1
    refine Within.step ?_ (State.modPwr_within _ _) rfl
    exact (Within.set_cmd_more s _ _ (fun _ => smWf_nil _) (fun _ => smWf_nil _)).mono rfl
  try clear_value x1
  extract_lets -merge -useContext -underBinder +onlyGivenNames x2
  have hx2 : Within [.pwr, .trg, .cfg, .eff, .flg, .ctr, .cmd, .more, .pg, .lvl, .lg, .mon, .brg, .link, .msix, .plc] s x2 := by
    unfold x2
    refine Within.fold ?_ (fun u x hu => ?_)
    · assumption
    · refine Within.step ?_ (State.lvlThaw_within _ _) rfl
      exact hu
  try clear_value x2
  extract_lets -merge -useContext -underBinder +onlyGivenNames x3
  extract_lets -merge -useContext -underBinder +onlyGivenNames x4
  have hx4 : Within [.pwr, .trg, .cfg, .eff, .flg, .ctr, .cmd, .more, .pg, .lvl, .lg, .mon, .brg, .link, .msix, .plc] s x4 := by
    unfold x4
    refine Within.step ?_ (Within.set_lg_mon _ _ _) rfl
    assumption
  try clear_value x4
  extract_lets -merge -useContext -underBinder +onlyGivenNames x5
  have hx5 : Within [.pwr, .trg, .cfg, .eff, .flg, .ctr, .cmd, .more, .pg, .lvl, .lg, .mon, .brg, .link, .msix, .plc] s x5 := by
    unfold x5
    refine Within.fold ?_ (fun u x hu => ?_)
    · refine Within.step ?_ (State.resetField_within _ _ _) rfl
      assumption
    · refine Within.step ?_ (State.resetField_within _ _ _) rfl
      assumption
  try clear_value x5
  extract_lets -merge -useContext -underBinder +onlyGivenNames x6
  have hx6 : Within [.pwr, .trg, .cfg, .eff, .flg, .ctr, .cmd, .more, .pg, .lvl, .lg, .mon, .brg, .link, .msix, .plc] s x6 := by
    unfold x6
    refine Within.step ?_ (State.modPlc_within _ _) rfl
    refine Within.step ?_ (State.linesOff_within _) rfl
    assumption
  try clear_value x6
  extract_lets -merge -useContext -underBinder +onlyGivenNames x7
  have hx7 : Within [.pwr, .trg, .cfg, .eff, .flg, .ctr, .cmd, .more, .pg, .lvl, .lg, .mon, .brg, .link, .msix, .plc] s x7 := by
    unfold x7
    refine Within.step ?_ (Within.set_flg _ _ (smWf_erase _ _ _)) rfl
    assumption
  try clear_value x7
  extract_lets -merge -useContext -underBinder +onlyGivenNames x8
  have hx8 : Within [.pwr, .trg, .cfg, .eff, .flg, .ctr, .cmd, .more, .pg, .lvl, .lg, .mon, .brg, .link, .msix, .plc] s x8 := by
    unfold x8
    refine Within.fold ?_ (fun u x hu => ?_)
    · assumption
    · refine Within.step ?_ (State.modPg_within _ _ _) rfl
      assumption
  try clear_value x8
  refine Within.step ?_ (State.linkReset_within _) rfl
  assumption

theorem State.thawFail_within (s : State) (a1 : Bool) : Within coldParts s (State.thawFail s a1) := by
  unfold State.thawFail
  extract_lets -merge -useContext -underBinder +onlyGivenNames x1
  have hx1 : Within coldParts s x1 := by
    unfold x1
    refine Within.step ?_ (State.modPwr_within _ _) rfl
    refine Within.step ?_ (State.cause_within _ _) rfl
    refine Within.step ?_ (State.coldState_within _ _) rfl
    exact Within.refl _ _
  try clear_value x1
  refine Within.step ?_ (State.coldRelease_within _ _) rfl
  refine Within.step ?_ (State.setBit_within _ _ _) rfl
  assumption

theorem State.thawTo_within (s : State) (a1 : ThawPhase) : Within [.pwr] s (State.thawTo s a1) := by
  unfold State.thawTo
  refine Within.step ?_ (State.modPwr_within _ _) rfl
  exact Within.refl _ _

theorem execThawPhaseDone_within (a0 : Bool) (a1 : Nat) (a2 : Bool) (s : State) {t : State} (h : execThawPhaseDone a0 a1 a2 s = .next t) : Within thawParts s t := by
  unfold execThawPhaseDone at h
  refine Within.guarded ?_ h
  refine Within.ite ?_ ?_
  · exact Within.refl _ _
  · split
    · refine Within.step ?_ (State.thawTo_within _ _) rfl
      exact Within.refl _ _
    · refine Within.step ?_ (State.thawTo_within _ _) rfl
      refine Within.step ?_ (State.clearMem_within _ _) rfl
      refine Within.step ?_ (State.clearMem_within _ _) rfl
      refine Within.step ?_ (State.clearMem_within _ _) rfl
      refine Within.step ?_ (State.timeRestart_within _ _) rfl
      exact Within.refl _ _
    · refine Within.step ?_ (State.thawTo_within _ _) rfl
      refine Within.step ?_ (State.clearEnd_within _ _) rfl
      refine Within.step ?_ (State.clearEnd_within _ _) rfl
      refine Within.step ?_ (State.clearEnd_within _ _) rfl
      exact Within.refl _ _
    · refine Within.ite ?_ ?_
      · refine Within.step ?_ (State.thawFail_within _ _) rfl
        exact Within.refl _ _
      · extract_lets -merge -useContext -underBinder +onlyGivenNames x1
        have hx1 : Within thawParts s x1 := by
          unfold x1
          refine Within.step ?_ (State.thawState_within _) rfl
          exact Within.refl _ _
        try clear_value x1
        refine Within.step ?_ (State.sendVectors_within _) rfl
        refine Within.step ?_ (State.thawTo_within _ _) rfl
        refine Within.ite ?_ ?_
        · refine Within.step ?_ (State.train_within _ _) rfl
          assumption
        · assumption
    · refine Within.ite ?_ ?_
      · exact Within.refl _ _
      · refine Within.step ?_ (State.thawTo_within _ _) rfl
        exact Within.refl _ _
    · extract_lets -merge -useContext -underBinder +onlyGivenNames x2
      have hx2 : Within thawParts s x2.1 := by
        unfold x2
        refine Within.step ?_ (State.thawTables_within _) rfl
        exact Within.refl _ _
      try clear_value x2
      refine Within.ite ?_ ?_
      · refine Within.step ?_ (State.thawTo_within _ _) rfl
        assumption
      · refine Within.step ?_ (State.thawFail_within _ _) rfl
        assumption
    · refine Within.step ?_ (State.thawTo_within _ _) rfl
      refine Within.step ?_ (State.playClocksStart_within _) rfl
      exact Within.refl _ _
    · extract_lets -merge -useContext -underBinder +onlyGivenNames x3
      have hx3 : Within thawParts s x3 := by
        unfold x3
        refine Within.step ?_ (State.cause_within _ _) rfl
        refine Within.step ?_ (State.modPwr_within _ _) rfl
        exact Within.refl _ _
      try clear_value x3
      refine Within.step ?_ (State.setBit_within _ _ _) rfl
      refine Within.step ?_ (State.watchResume_within _) rfl
      assumption

/-- A change of the part that keeps every programmed fuse. -/
theorem Within.set_part_kept (s : State) (x : Part) (h : s.part.sameChip x) : Within [.part] s { s with part := x } := by
  intro g hg
  cases g
  case chip => exact h
  case part => exact absurd (by decide) hg
  all_goals exact Within.set_part s x _ (by decide)

theorem BitVec.or_and_self {w : Nat} (a b : BitVec w) : (a ||| b) &&& a = a := by
  ext i hi
  simp only [BitVec.getElem_and, BitVec.getElem_or]
  cases a[i] <;> simp

theorem Part.cutShort_sameChip (p : Part) (f : Option (BitVec 512)) (n : Nat) : p.sameChip (p.cutShort f n) := by
  unfold Part.cutShort
  split
  · exact Part.sameChip.refl p
  · dsimp only
    split
    · exact ⟨rfl, rfl, rfl, rfl, rfl, BitVec.or_and_self _ _, id, id⟩
    · exact ⟨rfl, rfl, rfl, rfl, rfl, BitVec.and_self, id, id⟩

theorem State.powerOnState_within (s : State) : Within powerOnParts s (State.powerOnState s) := by
  unfold State.powerOnState
  extract_lets part x1
  have h1 : Within powerOnParts s x1 := (State.coldState_within s false).mono rfl
  have hp : x1.part.sameChip part := Part.cutShort_sameChip s.part s.jtag.fusing s.freeN
  exact ((((((((h1.step (Within.set_part_kept x1 part hp) rfl).step (Within.set_freeN _ _) rfl).step (Within.set_pwr _ _) rfl).step
    (Within.set_img _ _) rfl).step (m := [.mem]) (Within.set_mem _ { x1.mem with clearing := 15 } rfl) rfl).step
    (Within.set_flg _ _ (fun _ => smWf_nil _)) rfl).step (Within.set_flt _ _) rfl).step
    (Within.set_jtag _ _) rfl).step (Within.set_smb _ _) rfl

theorem execPowerOn_within (a0 : PowerOnBalls) (s : State) {t : State} (h : execPowerOn a0 s = .next t) : Within powerOnParts s t := by
  cases h
  exact (((State.powerOnState_within s).step (State.modPwr_within _ _) rfl).step (Within.set_smb _ _) rfl).step (State.coldRelease_within _ _) rfl

theorem execResetNAssert_within (a0 : Nat) (s : State) {t : State} (h : execResetNAssert a0 s = .next t) : Within coldParts s t := by
  cases h
  exact (((((State.upto_within s a0).mono rfl : Within coldParts s _).step (State.coldState_within _ _) rfl).step
    (State.cause_within _ _) rfl).step (State.modPwr_within _ _) rfl)

theorem execResetNRelease_within (a0 : Nat) (a1 : Bool) (s : State) {t : State} (h : execResetNRelease a0 a1 s = .next t) : Within [.clk, .pwr, .img, .flg, .tabs, .pg, .link, .mem, .xram, .msix, .flt] s t := by
  unfold execResetNRelease at h
  refine Within.guarded ?_ h
  refine Within.ite ?_ ?_
  · exact Within.refl _ _
  · refine Within.step ?_ (State.coldRelease_within _ _) rfl
    refine Within.step ?_ (State.modPwr_within _ _) rfl
    refine Within.step ?_ (State.upto_within _ _) rfl
    exact Within.refl _ _

theorem execPerstNAssert_within (a0 : Nat) (a1 : PerstCause) (s : State) {t : State}
    (h : execPerstNAssert a0 a1 s = .next t) : Within coldParts s t := by
  have hu : Within coldParts s (s.upto a0) := (State.upto_within s a0).mono rfl
  unfold execPerstNAssert at h
  dsimp only at h
  split at h
  · cases h; exact hu
  · cases h
    exact ((hu.step (State.coldState_within _ _) rfl).step (State.cause_within _ _) rfl).step (State.modPwr_within _ _) rfl

theorem execPerstNRelease_within (a0 : Nat) (a1 : Bool) (s : State) {t : State} (h : execPerstNRelease a0 a1 s = .next t) : Within [.clk, .pwr, .img, .flg, .tabs, .pg, .link, .mem, .xram, .msix, .flt] s t := by
  unfold execPerstNRelease at h
  refine Within.guarded ?_ h
  refine Within.ite ?_ ?_
  · exact Within.refl _ _
  · refine Within.step ?_ (State.coldRelease_within _ _) rfl
    refine Within.step ?_ (State.modPwr_within _ _) rfl
    refine Within.step ?_ (State.upto_within _ _) rfl
    exact Within.refl _ _

theorem execSupplyFall_within (a0 : Rail) (s : State) {t : State} (h : execSupplyFall a0 s = .next t) : Within powerOnParts s t := by
  cases a0 <;> cases h <;>
    first
    | exact (State.powerOnState_within s).step (State.modPwr_within _ _) rfl
    | exact (Within.set_undef s _).mono rfl

theorem State.warmCluster_within (s : State) (a1 : Sys2Proof.Clu) : Within [.eff, .flg, .ctr, .cmd, .more, .tabs, .clu, .wl, .gov, .pg, .pin, .host, .msix, .plc] s (State.warmCluster s a1) := by
  unfold State.warmCluster
  extract_lets -merge -useContext -underBinder +onlyGivenNames x1
  have hx1 : Within [.eff, .flg, .ctr, .cmd, .more, .tabs, .clu, .wl, .gov, .pg, .pin, .host, .msix, .plc] s x1 := by
    unfold x1
    refine Within.ite ?_ ?_
    · refine Within.ite ?_ ?_
      · refine Within.step ?_ (State.endPlayOut_within _ _ _) rfl
        exact Within.refl _ _
      · exact Within.refl _ _
    · refine Within.step ?_ (State.stopCluster_within _ _ _ _) rfl
      exact Within.refl _ _
  try clear_value x1
  refine Within.step ?_ (State.modClu_within _ _ _) rfl
  assumption

theorem State.warmLevel_within (s : State) (a1 : Sys2Proof.Lvl) : Within [.lvl] s (State.warmLevel s a1) := by
  unfold State.warmLevel
  refine Within.step ?_ (State.modLvl_within _ _ _) rfl
  exact Within.refl _ _

theorem State.warmStreams_within (s : State) : Within [.flg, .ctr, .host] s (State.warmStreams s) := by
  unfold State.warmStreams
  extract_lets -merge -useContext -underBinder +onlyGivenNames x1
  have hx1 : Within [.flg, .ctr, .host] s x1 := by
    unfold x1
    refine Within.step ?_ (State.ctxsClose_within _) rfl
    exact Within.refl _ _
  try clear_value x1
  exact ((hx1.step (m := [.host]) (Within.set_host _ { x1.host with writes := [], wrAccepted := 0, wrDrained := 0 } rfl rfl rfl) rfl).step (Within.set_flg _ _ (smWf_filter _ _ _)) rfl).step (Within.set_ctr _ _ (smWf_filter _ _ _)) rfl

theorem State.warmWords_within (s : State) (a1 : List Nat) : Within [.cfg, .eff, .was] s (State.warmWords s a1) := by
  unfold State.warmWords
  extract_lets -merge -useContext -underBinder +onlyGivenNames x1
  have hx1 : Within [.cfg, .eff, .was] s x1 := by
    unfold x1
    refine Within.fold ?_ (fun u x hu => ?_)
    · exact Within.refl _ _
    · refine Within.step ?_ (State.resetField_within _ _ _) rfl
      assumption
  try clear_value x1
  refine Within.step ?_ (State.loadWord_within _ _ _ _) rfl
  assumption

theorem State.warmTraining_within (s : State) : Within [.dram, .bytes] s (State.warmTraining s) := by
  unfold State.warmTraining
  refine Within.ite ?_ ?_
  · extract_lets -merge -useContext -underBinder +onlyGivenNames x1
    have hx1 : Within [.dram, .bytes] s x1 := by
      unfold x1
      refine Within.step ?_ (State.dramLose_within _) rfl
      exact Within.refl _ _
    refine Within.step ?_ (Within.set_dram _ _ rfl rfl) rfl
    assumption
  · refine Within.step ?_ (Within.set_dram _ _ rfl rfl) rfl
    exact Within.refl _ _

theorem State.warmOverlays_within (s : State) : Within [.ovl] s (State.warmOverlays s) := by
  unfold State.warmOverlays
  refine Within.step ?_ (State.modOvl_within _ _) rfl
  refine Within.step ?_ (State.dropPending_within _) rfl
  exact Within.refl _ _

theorem State.warmLinksDown_within (s : State) : Within [.trg, .flg, .brg] s (State.warmTake.linksDown_ s) := by
  unfold State.warmTake.linksDown_
  extract_lets -merge -useContext -underBinder +onlyGivenNames x1
  have hx1 : Within [.trg, .flg, .brg] s x1 := by
    unfold x1
    refine Within.step ?_ (State.linesOff_within _) rfl
    exact Within.refl _ _
  try clear_value x1
  exact hx1.step (Within.set_flg _ _ (smWf_eraseMap _ _ _ _)) rfl

theorem State.warmTake_within (s : State) : Within [.clk, .pwr, .img, .ovl, .trg, .cfg, .eff, .flg, .ctr, .cmd, .more, .tabs, .was, .clu, .wl, .gov, .pg, .pin, .lvl, .lg, .mon, .brg, .link, .dram, .bytes, .mem, .host, .msix, .flt, .plc, .freeN] s (State.warmTake s) := by
  unfold State.warmTake
  extract_lets -merge -useContext -underBinder +onlyGivenNames x1
  try clear_value x1
  extract_lets -merge -useContext -underBinder +onlyGivenNames x2
  have hx2 : Within [.clk, .pwr, .img, .ovl, .trg, .cfg, .eff, .flg, .ctr, .cmd, .more, .tabs, .was, .clu, .wl, .gov, .pg, .pin, .lvl, .lg, .mon, .brg, .link, .dram, .bytes, .mem, .host, .msix, .flt, .plc, .freeN] s x2 := by
    unfold x2
    refine Within.fold ?_ (fun u x hu => ?_)
    · exact Within.refl _ _
    · refine Within.step ?_ (State.warmCluster_within _ _) rfl
      exact hu
  try clear_value x2
  extract_lets -merge -useContext -underBinder +onlyGivenNames x3
  have hx3 : Within [.clk, .pwr, .img, .ovl, .trg, .cfg, .eff, .flg, .ctr, .cmd, .more, .tabs, .was, .clu, .wl, .gov, .pg, .pin, .lvl, .lg, .mon, .brg, .link, .dram, .bytes, .mem, .host, .msix, .flt, .plc, .freeN] s x3 := by
    unfold x3
    refine Within.fold ?_ (fun u x hu => ?_)
    · refine Within.step ?_ (State.lanesReset_within _) rfl
      assumption
    · refine Within.step ?_ (State.warmLevel_within _ _) rfl
      exact hu
  try clear_value x3
  extract_lets -merge -useContext -underBinder +onlyGivenNames x4
  extract_lets -merge -useContext -underBinder +onlyGivenNames x5
  have hx5 : Within [.clk, .pwr, .img, .ovl, .trg, .cfg, .eff, .flg, .ctr, .cmd, .more, .tabs, .was, .clu, .wl, .gov, .pg, .pin, .lvl, .lg, .mon, .brg, .link, .dram, .bytes, .mem, .host, .msix, .flt, .plc, .freeN] s x5 := by
    unfold x5
    refine Within.step ?_ (Within.set_lg_mon _ _ _) rfl
    assumption
  try clear_value x5
  extract_lets -merge -useContext -underBinder +onlyGivenNames x6
  have hx6 : Within [.clk, .pwr, .img, .ovl, .trg, .cfg, .eff, .flg, .ctr, .cmd, .more, .tabs, .was, .clu, .wl, .gov, .pg, .pin, .lvl, .lg, .mon, .brg, .link, .dram, .bytes, .mem, .host, .msix, .flt, .plc, .freeN] s x6 := by
    unfold x6
    refine Within.fold ?_ (fun u x hu => ?_)
    · assumption
    · refine Within.step ?_ (State.modPg_within _ _ _) rfl
      assumption
  try clear_value x6
  extract_lets -merge -useContext -underBinder +onlyGivenNames x7
  have hx7 : Within [.clk, .pwr, .img, .ovl, .trg, .cfg, .eff, .flg, .ctr, .cmd, .more, .tabs, .was, .clu, .wl, .gov, .pg, .pin, .lvl, .lg, .mon, .brg, .link, .dram, .bytes, .mem, .host, .msix, .flt, .plc, .freeN] s x7 := by
    unfold x7
    refine Within.ite ?_ ?_
    · refine Within.step ?_ (State.selfRefreshIn_within _) rfl
      refine Within.step ?_ (State.warmTraining_within _) rfl
      assumption
    · assumption
  try clear_value x7
  extract_lets -merge -useContext -underBinder +onlyGivenNames x8
  have hx8 : Within [.clk, .pwr, .img, .ovl, .trg, .cfg, .eff, .flg, .ctr, .cmd, .more, .tabs, .was, .clu, .wl, .gov, .pg, .pin, .lvl, .lg, .mon, .brg, .link, .dram, .bytes, .mem, .host, .msix, .flt, .plc, .freeN] s x8 := by
    unfold x8
    refine Within.step ?_ (State.warmOverlays_within _) rfl
    refine Within.step ?_ (State.tuneStop_within _) rfl
    refine Within.step ?_ (State.warmLinksDown_within _) rfl
    refine Within.step ?_ (State.warmStreams_within _) rfl
    assumption
  try clear_value x8
  extract_lets -merge -useContext -underBinder +onlyGivenNames x9
  have hx9 : Within [.clk, .pwr, .img, .ovl, .trg, .cfg, .eff, .flg, .ctr, .cmd, .more, .tabs, .was, .clu, .wl, .gov, .pg, .pin, .lvl, .lg, .mon, .brg, .link, .dram, .bytes, .mem, .host, .msix, .flt, .plc, .freeN] s x9 := by
    unfold x9
    refine Within.step ?_ (State.modPlc_within _ _) rfl
    assumption
  try clear_value x9
  extract_lets -merge -useContext -underBinder +onlyGivenNames x10
  have hx10 : Within [.clk, .pwr, .img, .ovl, .trg, .cfg, .eff, .flg, .ctr, .cmd, .more, .tabs, .was, .clu, .wl, .gov, .pg, .pin, .lvl, .lg, .mon, .brg, .link, .dram, .bytes, .mem, .host, .msix, .flt, .plc, .freeN] s x10 := by
    unfold x10
    refine Within.step (Within.step ?_ (Within.set_cmd_more _ _ _ (fun _ => by decide) (fun _ => smWf_nil _)) rfl) (Within.set_was _ _) rfl
    assumption
  try clear_value x10
  extract_lets -merge -useContext -underBinder +onlyGivenNames x11
  have hx11 : Within [.clk, .pwr, .img, .ovl, .trg, .cfg, .eff, .flg, .ctr, .cmd, .more, .tabs, .was, .clu, .wl, .gov, .pg, .pin, .lvl, .lg, .mon, .brg, .link, .dram, .bytes, .mem, .host, .msix, .flt, .plc, .freeN] s x11 := by
    unfold x11
    refine Within.step ?_ (State.modBrg_within _ _) rfl
    refine Within.step ?_ (State.warmWords_within _ _) rfl
    assumption
  try clear_value x11
  extract_lets -merge -useContext -underBinder +onlyGivenNames x12
  have hx12 : Within [.clk, .pwr, .img, .ovl, .trg, .cfg, .eff, .flg, .ctr, .cmd, .more, .tabs, .was, .clu, .wl, .gov, .pg, .pin, .lvl, .lg, .mon, .brg, .link, .dram, .bytes, .mem, .host, .msix, .flt, .plc, .freeN] s x12 := by
    unfold x12
    refine Within.ite ?_ ?_
    · refine Within.step ?_ (State.modImg_within _ _) rfl
      refine Within.step ?_ (State.unconfigure_within _) rfl
      assumption
    · assumption
  try clear_value x12
  extract_lets -merge -useContext -underBinder +onlyGivenNames x13
  have hx13 : Within [.clk, .pwr, .img, .ovl, .trg, .cfg, .eff, .flg, .ctr, .cmd, .more, .tabs, .was, .clu, .wl, .gov, .pg, .pin, .lvl, .lg, .mon, .brg, .link, .dram, .bytes, .mem, .host, .msix, .flt, .plc, .freeN] s x13 := by
    unfold x13
    refine Within.step ?_ (State.cause_within _ _) rfl
    refine Within.step ?_ (State.modPwr_within _ _) rfl
    assumption
  try clear_value x13
  refine Within.step ?_ (State.watchPause_within _) rfl
  refine Within.step ?_ (State.linkReset_within _) rfl
  refine Within.step ?_ (State.misalign_within _ _) rfl
  assumption

theorem execWarmReset_within (s : State) {t : State} (h : execWarmReset s = .next t) : Within [.clk, .pwr, .img, .ovl, .trg, .cfg, .eff, .flg, .ctr, .cmd, .more, .tabs, .was, .clu, .wl, .gov, .pg, .pin, .lvl, .lg, .mon, .brg, .link, .dram, .bytes, .mem, .host, .msix, .flt, .plc, .freeN] s t := by
  unfold execWarmReset at h
  refine Within.guarded ?_ h
  extract_lets -merge -useContext -underBinder +onlyGivenNames x1
  try clear_value x1
  refine Within.ite ?_ ?_
  · exact Within.refl _ _
  · refine Within.ite ?_ ?_
    · refine Within.step ?_ (State.cmdDrop_within _ _ _) rfl
      exact Within.refl _ _
    · refine Within.ite ?_ ?_
      · refine Within.step ?_ (State.setBit_within _ _ _) rfl
        refine Within.step ?_ (Within.set_more _ _ (smWf_mod _ _ _ _)) rfl
        exact Within.refl _ _
      · refine Within.ite ?_ ?_
        · refine Within.step ?_ (State.warmTake_within _) rfl
          exact Within.refl _ _
        · refine Within.step ?_ (State.setBit_within _ _ _) rfl
          refine Within.step ?_ (State.cmdTake_within _ _ _) rfl
          exact Within.refl _ _

theorem execWarmResetRelease_within (s : State) {t : State} (h : execWarmResetRelease s = .next t) : Within [.clk, .pwr, .img, .flg, .cmd, .more, .link, .dram, .msix, .flt] s t := by
  unfold execWarmResetRelease at h
  refine Within.guarded ?_ h
  refine Within.ite ?_ ?_
  · exact Within.refl _ _
  · refine Within.ite ?_ ?_
    · refine Within.step ?_ (State.warmEnd_within _) rfl
      exact Within.refl _ _
    · refine Within.ite ?_ ?_
      · refine Within.step ?_ (State.warmEnd_within _) rfl
        refine Within.step ?_ (State.train_within _ _) rfl
        refine Within.step ?_ (Within.set_dram _ _ rfl rfl) rfl
        exact Within.refl _ _
      · refine Within.step ?_ (State.modPwr_within _ _) rfl
        refine Within.step ?_ (State.train_within _ _) rfl
        exact Within.refl _ _

theorem State.modJtag_within (s : State) (a1 : Jtag → Jtag) : Within [.jtag] s (State.modJtag s a1) := by
  unfold State.modJtag
  refine Within.step ?_ (Within.set_jtag _ _) rfl
  exact Within.refl _ _

theorem State.selectIr_within (s : State) (a1 : BitVec 8) : Within [.jtag, .freeN] s (State.selectIr s a1) := by
  unfold State.selectIr
  extract_lets -merge -useContext -underBinder +onlyGivenNames x1
  try clear_value x1
  extract_lets -merge -useContext -underBinder +onlyGivenNames x2
  have hx2 : Within [.jtag, .freeN] s x2 := by
    unfold x2
    refine Within.step ?_ (State.modJtag_within _ _) rfl
    exact Within.refl _ _
  try clear_value x2
  extract_lets -merge -useContext -underBinder +onlyGivenNames x3
  have hx3 : Within [.jtag, .freeN] s x3 := by
    unfold x3
    refine Within.step ?_ (State.modJtag_within _ _) rfl
    assumption
  try clear_value x3
  refine Within.step ?_ (Within.set_freeN _ _) rfl
  assumption

theorem State.jtagTest_within (s : State) (a1 : BitVec 8) : Within testParts s (State.jtagTest s a1) := by
  unfold State.jtagTest
  extract_lets -merge -useContext -underBinder +onlyGivenNames x1
  try clear_value x1
  extract_lets -merge -useContext -underBinder +onlyGivenNames x2
  have hx2 : Within testParts s x2 := by
    unfold x2
    refine Within.ite ?_ ?_
    · exact Within.refl _ _
    · refine Within.step ?_ (State.modFlt_within _ _) rfl
      refine Within.step ?_ (State.modPwr_within _ _) rfl
      refine Within.step ?_ (State.cause_within _ _) rfl
      refine Within.step ?_ (State.coldState_within _ _) rfl
      exact Within.refl _ _
  try clear_value x2
  refine Within.step ?_ (State.selectIr_within _ _) rfl
  assumption

theorem State.jtagPlain_within (s : State) (a1 : BitVec 8) : Within [.jtag, .freeN] s (State.jtagPlain s a1) := by
  unfold State.jtagPlain
  refine Within.ite ?_ ?_
  · exact Within.refl _ _
  · refine Within.step ?_ (State.selectIr_within _ _) rfl
    exact Within.refl _ _

theorem execExtest_within (s : State) {t : State} (h : execExtest s = .next t) : Within testParts s t := by
  unfold execExtest at h
  refine Within.guarded ?_ h
  refine Within.step ?_ (State.jtagTest_within _ _) rfl
  exact Within.refl _ _

theorem execSample_within (s : State) {t : State} (h : execSample s = .next t) : Within [.jtag, .freeN] s t := by
  unfold execSample at h
  refine Within.guarded ?_ h
  refine Within.step ?_ (State.jtagPlain_within _ _) rfl
  exact Within.refl _ _

theorem execIdcode_within (s : State) {t : State} (h : execIdcode s = .next t) : Within [.jtag, .freeN] s t := by
  unfold execIdcode at h
  refine Within.guarded ?_ h
  refine Within.step ?_ (State.jtagPlain_within _ _) rfl
  exact Within.refl _ _

theorem execHighz_within (s : State) {t : State} (h : execHighz s = .next t) : Within testParts s t := by
  unfold execHighz at h
  refine Within.guarded ?_ h
  refine Within.step ?_ (State.jtagTest_within _ _) rfl
  exact Within.refl _ _

theorem execClamp_within (s : State) {t : State} (h : execClamp s = .next t) : Within testParts s t := by
  unfold execClamp at h
  refine Within.guarded ?_ h
  refine Within.step ?_ (State.jtagTest_within _ _) rfl
  exact Within.refl _ _

theorem execExtestPulse_within (s : State) {t : State} (h : execExtestPulse s = .next t) : Within testParts s t := by
  unfold execExtestPulse at h
  refine Within.guarded ?_ h
  refine Within.step ?_ (State.jtagTest_within _ _) rfl
  exact Within.refl _ _

theorem execExtestTrain_within (s : State) {t : State} (h : execExtestTrain s = .next t) : Within testParts s t := by
  unfold execExtestTrain at h
  refine Within.guarded ?_ h
  refine Within.step ?_ (State.jtagTest_within _ _) rfl
  exact Within.refl _ _

theorem execFuseRead_within (s : State) {t : State} (h : execFuseRead s = .next t) : Within [.jtag, .freeN] s t := by
  unfold execFuseRead at h
  refine Within.guarded ?_ h
  refine Within.step ?_ (State.jtagPlain_within _ _) rfl
  exact Within.refl _ _

theorem execBypass_within (a0 : BitVec 8) (s : State) {t : State} (h : execBypass a0 s = .next t) : Within [.jtag, .freeN] s t := by
  unfold execBypass at h
  refine Within.guarded ?_ h
  refine Within.ite ?_ ?_
  · refine Within.step ?_ (State.jtagPlain_within _ _) rfl
    exact Within.refl _ _
  · exact Within.refl _ _

theorem execJtagTestExit_within (a0 : BitVec 8) (a1 : Bool) (s : State) {t : State} (h : execJtagTestExit a0 a1 s = .next t) : Within [.clk, .pwr, .img, .flg, .tabs, .pg, .link, .mem, .xram, .msix, .flt, .jtag, .freeN] s t := by
  unfold execJtagTestExit at h
  refine Within.guarded ?_ h
  refine Within.ite ?_ ?_
  · exact Within.refl _ _
  · refine Within.ite ?_ ?_
    · refine Within.step ?_ (State.selectIr_within _ _) rfl
      exact Within.refl _ _
    · refine Within.step ?_ (State.coldRelease_within _ _) rfl
      refine Within.step ?_ (State.modPwr_within _ _) rfl
      refine Within.step ?_ (State.selectIr_within _ _) rfl
      exact Within.refl _ _

theorem State.modPart_within (s : State) (a1 : Part → Part) : Within [.part, .chip] s (State.modPart s a1) := by
  unfold State.modPart
  refine Within.step ?_ (Within.set_part _ _) rfl
  exact Within.refl _ _

/-- A change of the part that keeps every programmed fuse. -/
theorem State.modPart_kept (s : State) (f : Part → Part) (h : s.part.sameChip (f s.part)) : Within [.part] s (s.modPart f) :=
  Within.set_part_kept s _ h

theorem Part.fused_sameChip (p : Part) (v : BitVec 512) : p.sameChip (p.fused v) := by
  unfold Part.fused
  split
  · refine ⟨rfl, rfl, rfl, rfl, rfl, ?_, fun _ => rfl, id⟩
    show (p.keyHash ||| v.setWidth 384) &&& p.keyHash = p.keyHash
    ext i hi
    simp only [BitVec.getElem_and, BitVec.getElem_or]
    cases p.keyHash[i] <;> simp
  · split
    · exact ⟨rfl, rfl, rfl, rfl, rfl, BitVec.and_self, id, fun _ => rfl⟩
    · exact Part.sameChip.refl p

theorem Part.sameChip_marks (p q : Part) (h : p.sameChip q) (a b : Bool) :
    p.sameChip { q with fuseErr := a, fuseDone := b } := h

theorem execFuseProg_within (v : BitVec 512) (c : Bool) (s : State) {t : State} (h : execFuseProg v c s = .next t) :
    Within [.part, .jtag] s t := by
  unfold execFuseProg at h
  refine Within.guarded ?_ h
  refine Within.ite (Within.refl _ _) ?_
  extract_lets x1
  have hx1 : Within [.part, .jtag] s x1 := (State.modJtag_within s _).mono rfl
  refine Within.ite ?_ ?_
  · exact hx1.step (State.modPart_kept _ _ (Part.sameChip.refl x1.part)) rfl
  · exact (hx1.step (State.modPart_kept _ _ (Part.sameChip_marks x1.part x1.part (Part.sameChip.refl _) false false)) rfl).step
      (State.modJtag_within _ _) rfl

theorem Part.sameChip_done (p : Part) (v : BitVec 512) (failed : Bool) :
    p.sameChip { (if failed then p else p.fused v) with fuseErr := failed, fuseDone := !failed } := by
  refine Part.sameChip_marks p _ ?_ _ _
  split
  · exact Part.sameChip.refl _
  · exact Part.fused_sameChip _ v

theorem execFuseProgDone_within (failed : Bool) (s : State) {t : State} (h : execFuseProgDone failed s = .next t) :
    Within [.part, .jtag] s t := by
  unfold execFuseProgDone at h
  refine Within.guarded ?_ h
  split
  · exact Within.refl _ _
  · exact ((State.modJtag_within s _).mono rfl : Within [.part, .jtag] s _).step
      (State.modPart_kept _ _ (Part.sameChip_done _ _ failed)) rfl

theorem State.modSmb_within (s : State) (a1 : Smbus → Smbus) : Within [.smb] s (State.modSmb s a1) := by
  unfold State.modSmb
  refine Within.step ?_ (Within.set_smb _ _) rfl
  exact Within.refl _ _

theorem State.smbRead_within (s : State) (a1 : Sys2Proof.Byte) (a2 : Nat) (a3 : Nat) : Within [.smb] s (State.smbRead s a1 a2 a3) := by
  unfold State.smbRead
  extract_lets -merge -useContext -underBinder +onlyGivenNames x1
  try clear_value x1
  extract_lets -merge -useContext -underBinder +onlyGivenNames x2
  try clear_value x2
  refine Within.step ?_ (State.modSmb_within _ _) rfl
  exact Within.refl _ _

theorem State.smbWrite_within (s : State) (a1 : Bool) (a2 : Smbus → Smbus) : Within [.smb] s (State.smbWrite s a1 a2) := by
  unfold State.smbWrite
  extract_lets -merge -useContext -underBinder +onlyGivenNames x1
  have hx1 : Within [.smb] s x1 := by
    unfold x1
    refine Within.step ?_ (State.modSmb_within _ _) rfl
    exact Within.refl _ _
  try clear_value x1
  refine Within.ite ?_ ?_
  · refine Within.step ?_ (State.modSmb_within _ _) rfl
    assumption
  · assumption

theorem execSmbId_within (s : State) {t : State} (h : execSmbId s = .next t) : Within [.smb] s t := by
  unfold execSmbId at h
  refine Within.guarded ?_ h
  refine Within.step ?_ (State.smbRead_within _ _ _ _) rfl
  exact Within.refl _ _

theorem execSmbRev_within (s : State) {t : State} (h : execSmbRev s = .next t) : Within [.smb] s t := by
  unfold execSmbRev at h
  refine Within.guarded ?_ h
  refine Within.step ?_ (State.smbRead_within _ _ _ _) rfl
  exact Within.refl _ _

theorem execSmbStatus_within (s : State) {t : State} (h : execSmbStatus s = .next t) : Within [.smb] s t := by
  unfold execSmbStatus at h
  refine Within.guarded ?_ h
  refine Within.step ?_ (State.smbRead_within _ _ _ _) rfl
  exact Within.refl _ _

theorem execSmbTemp_within (a0 : Fin 12) (s : State) {t : State} (h : execSmbTemp a0 s = .next t) : Within [.smb] s t := by
  unfold execSmbTemp at h
  refine Within.guarded ?_ h
  refine Within.step ?_ (State.smbRead_within _ _ _ _) rfl
  exact Within.refl _ _

theorem execSmbAlertStatus_within (a0 : Option Sys2Proof.Byte) (a1 : Bool) (s : State) {t : State} (h : execSmbAlertStatus a0 a1 s = .next t) : Within [.smb] s t := by
  unfold execSmbAlertStatus at h
  refine Within.guarded ?_ h
  split
  · refine Within.step ?_ (State.smbRead_within _ _ _ _) rfl
    exact Within.refl _ _
  · refine Within.step ?_ (State.smbWrite_within _ _ _) rfl
    exact Within.refl _ _

theorem execSmbAlertMask_within (a0 : Option Sys2Proof.Byte) (a1 : Bool) (s : State) {t : State} (h : execSmbAlertMask a0 a1 s = .next t) : Within [.smb] s t := by
  unfold execSmbAlertMask at h
  refine Within.guarded ?_ h
  split
  · refine Within.step ?_ (State.smbRead_within _ _ _ _) rfl
    exact Within.refl _ _
  · refine Within.step ?_ (State.smbWrite_within _ _ _) rfl
    exact Within.refl _ _

theorem execSmbTempLimit_within (a0 : Option (BitVec 16)) (a1 : Bool) (s : State) {t : State} (h : execSmbTempLimit a0 a1 s = .next t) : Within [.smb] s t := by
  unfold execSmbTempLimit at h
  refine Within.guarded ?_ h
  split
  · refine Within.step ?_ (State.smbRead_within _ _ _ _) rfl
    exact Within.refl _ _
  · refine Within.step ?_ (State.smbWrite_within _ _ _) rfl
    exact Within.refl _ _

theorem execSmbAlertResponse_within (s : State) {t : State} (h : execSmbAlertResponse s = .next t) : Within [.smb] s t := by
  unfold execSmbAlertResponse at h
  refine Within.guarded ?_ h
  refine Within.step ?_ (State.modSmb_within _ _) rfl
  exact Within.refl _ _

theorem execTempConversion_within (a0 : Fin 12) (a1 : BitVec 16) (s : State) {t : State} (h : execTempConversion a0 a1 s = .next t) : Within [.smb] s t := by
  unfold execTempConversion at h
  refine Within.guarded ?_ h
  refine Within.ite ?_ ?_
  · exact Within.refl _ _
  · extract_lets -merge -useContext -underBinder +onlyGivenNames x1
    have hx1 : Within [.smb] s x1 := by
      unfold x1
      refine Within.step ?_ (State.modSmb_within _ _) rfl
      exact Within.refl _ _
    try clear_value x1
    refine Within.ite ?_ ?_
    · refine Within.step ?_ (State.modSmb_within _ _) rfl
      assumption
    · assumption

theorem execSmbusTimeout_within (s : State) {t : State} (h : execSmbusTimeout s = .next t) : Within [.smb] s t := by
  unfold execSmbusTimeout at h
  refine Within.guarded ?_ h
  refine Within.step ?_ (State.modSmb_within _ _) rfl
  exact Within.refl _ _

theorem execAerError_within (a0 : AerKind) (s : State) {t : State} (h : execAerError a0 s = .next t) : Within [.host] s t := by
  unfold execAerError at h
  refine Within.guarded ?_ h
  exact Within.ite (Within.refl _ _) (Within.set_host _ _ rfl rfl rfl)

end Sys2Proof.Machine
end

