-- ==== Sys2Proof/Laws/FrameWrite.lean ====
section
/-! SUPPORT. Frames of the operations and commands of register writes: the parts of the state that each may change. -/
namespace Sys2Proof.Machine

theorem State.failLogSeen_within (s : State) (a1 : Nat) : Within [.clk, .flg, .ctr, .mem, .msix, .flt] s (State.failLogSeen s a1) := by
  unfold State.failLogSeen
  split
  · exact Within.refl _ _
  · extract_lets -merge -useContext -underBinder +onlyGivenNames x1
    have hx1 : Within [.clk, .flg, .ctr, .mem, .msix, .flt] s x1 := by
      unfold x1
      refine Within.step ?_ (State.slotGrant_within _ _ _) rfl
      exact Within.refl _ _
    try clear_value x1
    refine Within.ite ?_ ?_
    · assumption
    · refine Within.step ?_ (State.violate_within _ _ _ _) rfl
      assumption

theorem State.accRecord_within (s : State) (a1 : BitVec 24) (a2 : Bool) : Within [.ctr, .err] s (State.accRecord s a1 a2) := by
  unfold State.accRecord
  extract_lets -merge -useContext -underBinder +onlyGivenNames x1
  have hx1 : Within [.ctr, .err] s x1 := by
    unfold x1
    refine Within.step ?_ (State.count_within _ _ _) rfl
    exact Within.refl _ _
  refine Within.step ?_ (Within.set_err _ _ _) rfl
  assumption

theorem State.writeRw_within (s : State) (a1 : Nat) (a2 : BitVec 4) (a3 : Sys2Proof.Word) : Within [.cfg, .eff, .flg, .ctr, .was, .wl, .lvl, .brg, .host, .msix] s (State.writeRw s a1 a2 a3) := by
  unfold State.writeRw
  extract_lets -merge -useContext -underBinder +onlyGivenNames x1
  try clear_value x1
  refine Within.ite ?_ ?_
  · extract_lets -merge -useContext -underBinder +onlyGivenNames x2
    try clear_value x2
    extract_lets -merge -useContext -underBinder +onlyGivenNames x3
    try clear_value x3
    refine Within.ite ?_ ?_
    · refine Within.step ?_ (State.setBit_within _ _ _) rfl
      refine Within.step ?_ (State.rwWrite_within _ _ _ _) rfl
      exact Within.refl _ _
    · refine Within.ite ?_ ?_
      · refine Within.step ?_ (State.rwWrite_within _ _ _ _) rfl
        refine Within.step ?_ (State.codeNote_within _ _) rfl
        exact Within.refl _ _
      · refine Within.step ?_ (State.rwWrite_within _ _ _ _) rfl
        exact Within.refl _ _
  · refine Within.ite ?_ ?_
    · extract_lets -merge -useContext -underBinder +onlyGivenNames x4
      try clear_value x4
      refine Within.step ?_ (State.bandFollow_within _ _ _) rfl
      refine Within.step ?_ (State.rwWrite_within _ _ _ _) rfl
      refine Within.step ?_ (State.ncoSync_within _ _ _) rfl
      exact Within.refl _ _
    · refine Within.ite ?_ ?_
      · refine Within.step ?_ (State.lowWater_within _ _) rfl
        refine Within.step ?_ (State.rwWrite_within _ _ _ _) rfl
        exact Within.refl _ _
      · refine Within.ite ?_ ?_
        · extract_lets -merge -useContext -underBinder +onlyGivenNames x5
          have hx5 : Within [.cfg, .eff, .flg, .ctr, .was, .wl, .lvl, .brg, .host, .msix] s x5 := by
            unfold x5
            refine Within.step ?_ (State.rwWrite_within _ _ _ _) rfl
            exact Within.refl _ _
          try clear_value x5
          refine Within.ite ?_ ?_
          · refine Within.step ?_ (Within.set_brg _ _) rfl
            assumption
          · assumption
        · refine Within.ite ?_ ?_
          · extract_lets -merge -useContext -underBinder +onlyGivenNames x6
            try clear_value x6
            extract_lets -merge -useContext -underBinder +onlyGivenNames x7
            try clear_value x7
            extract_lets -merge -useContext -underBinder +onlyGivenNames x8
            have hx8 : Within [.cfg, .eff, .flg, .ctr, .was, .wl, .lvl, .brg, .host, .msix] s x8 := by
              unfold x8
              refine Within.step ?_ (State.rwWrite_within _ _ _ _) rfl
              exact Within.refl _ _
            try clear_value x8
            refine Within.ite ?_ ?_
            · refine Within.step ?_ (State.postCause_within _ _) rfl
              assumption
            · assumption
          · refine Within.step ?_ (State.rwWrite_within _ _ _ _) rfl
            exact Within.refl _ _

theorem State.writeFltRd_within (s : State) (a1 : BitVec 4) (a2 : Sys2Proof.Word) : Within [.flg, .msix, .flt] s (State.writeFltRd s a1 a2) := by
  unfold State.writeFltRd
  refine Within.ite ?_ ?_
  · exact Within.refl _ _
  · refine Within.step ?_ (State.fltRdWrite_within _ _) rfl
    exact Within.refl _ _

theorem State.writeFlRd_within (s : State) (a1 : Sys2Proof.Pg) (a2 : BitVec 4) (a3 : Sys2Proof.Word) : Within [.flg, .pg, .msix] s (State.writeFlRd s a1 a2 a3) := by
  unfold State.writeFlRd
  refine Within.ite ?_ ?_
  · refine Within.step ?_ (onward_within _ _ (fun _ h => execFlRdCountWrite_within _ _ _ h)) rfl
    exact Within.refl _ _
  · exact Within.refl _ _

theorem State.writeTail_within (s : State) (a1 : Sys2Proof.Ctx) (a2 : BitVec 4) (a3 : Sys2Proof.Word) : Within [.flg, .host, .msix] s (State.writeTail s a1 a2 a3) := by
  unfold State.writeTail
  refine Within.ite ?_ ?_
  · refine Within.step ?_ (onward_within _ _ (fun _ h => execStrmTailWrite_within _ _ _ h)) rfl
    exact Within.refl _ _
  · exact Within.refl _ _

theorem State.writeMsix_within (s : State) (a1 : Nat) (a2 : BitVec 4) (a3 : Sys2Proof.Word) : Within [.host, .msix] s (State.writeMsix s a1 a2 a3) := by
  unfold State.writeMsix
  extract_lets -merge -useContext -underBinder +onlyGivenNames x1
  try clear_value x1
  refine Within.step ?_ (State.sendVectors_within _) rfl
  refine Within.step ?_ (Within.set_host _ _ rfl rfl rfl) rfl
  exact Within.refl _ _

theorem State.writeW1c_within (s : State) (a1 : Nat) (a2 : Sys2Proof.Word) : Within [.flg, .brg] s (State.writeW1c s a1 a2) := by
  unfold State.writeW1c
  refine Within.ite ?_ ?_
  · exact Within.refl _ _
  · refine Within.ite ?_ ?_
    · refine Within.step ?_ (State.clearFlag_within _ _ _) rfl
      refine Within.step ?_ (State.seeDue_within _) rfl
      exact Within.refl _ _
    · refine Within.ite ?_ ?_
      · refine Within.step ?_ (onward_within _ _ (fun _ h => execStormSuppClear_within _ _ _ h)) rfl
        exact Within.refl _ _
      · refine Within.ite ?_ ?_
        · refine Within.step ?_ (onward_within _ _ (fun _ h => execIntPendClear_within _ _ _ h)) rfl
          exact Within.refl _ _
        · refine Within.ite ?_ ?_
          · refine Within.ite ?_ ?_
            · refine Within.step ?_ (onward_within _ _ (fun _ h => execSafeParkClear_within _ h)) rfl
              exact Within.refl _ _
            · exact Within.refl _ _
          · refine Within.step ?_ (State.clearFlag_within _ _ _) rfl
            exact Within.refl _ _

theorem State.cmdNow_within (s : State) (m : Word) (i : Nat) (f : State → Host.Outcome State Fault Refusal) {l : List Field}
    (h : ∀ u t, f u = .next t → Within l u t) : Within l s (State.cmdNow s m i f) := by
  unfold State.cmdNow
  exact Within.ite (onward_within _ _ (h s)) (Within.refl _ _)

theorem State.cmdWait_within (s : State) (a1 : Nat) (a2 : Sys2Proof.Word) (a3 : Sys2Proof.Word) : Within [.cmd, .more] s (State.cmdWait s a1 a2 a3) := by
  unfold State.cmdWait
  refine Within.ite ?_ ?_
  · exact Within.refl _ _
  · refine Within.step ?_ (State.cmdHold_within _ _ _) rfl
    exact Within.refl _ _

theorem State.cmdDevice_within (s : State) (a1 : Nat) (a2 : Sys2Proof.Word) : Within [.ovl, .flg, .ctr, .cmd, .more, .msix] s (State.cmdDevice s a1 a2) := by
  unfold State.cmdDevice
  refine Within.ite ?_ ?_
  · refine Within.step ?_ (State.cmdNow_within _ _ _ _ (fun _ _ h => execDevCntClr_within _ h)) rfl
    exact Within.refl _ _
  · refine Within.ite ?_ ?_
    · refine Within.step ?_ (State.cmdWait_within _ _ _ _) rfl
      exact Within.refl _ _
    · refine Within.ite ?_ ?_
      · extract_lets -merge -useContext -underBinder +onlyGivenNames x1
        have hx1 : Within [.ovl, .flg, .ctr, .cmd, .more, .msix] s x1 := by
          unfold x1
          refine Within.step ?_ (State.cmdWait_within _ _ _ _) rfl
          exact Within.refl _ _
        try clear_value x1
        extract_lets -merge -useContext -underBinder +onlyGivenNames x2
        extract_lets -merge -useContext -underBinder +onlyGivenNames x3
        have hx3 : Within [.ovl, .flg, .ctr, .cmd, .more, .msix] s x3 := by
          unfold x3
          refine Within.ite ?_ ?_
          · refine Within.step ?_ (Within.set_ovl _ _) rfl
            assumption
          · assumption
        try clear_value x3
        refine Within.step ?_ (State.cmdNow_within _ _ _ _ (fun _ _ h => execOvlRelease_within _ h)) rfl
        refine Within.step ?_ (State.cmdNow_within _ _ _ _ (fun _ _ h => execOvlCancel_within _ h)) rfl
        assumption
      · exact Within.refl _ _

theorem State.cmdClocks_within (s : State) (a1 : Nat) (a2 : Sys2Proof.Word) : Within [.pwr, .ovl, .eff, .flg, .ctr, .cmd, .more, .tabs, .clu, .wl, .gov, .pg, .host, .msix, .plc] s (State.cmdClocks s a1 a2) := by
  unfold State.cmdClocks
  refine Within.ite ?_ ?_
  · refine Within.step ?_ (State.cmdWait_within _ _ _ _) rfl
    exact Within.refl _ _
  · refine Within.ite ?_ ?_
    · refine Within.step ?_ (State.cmdWait_within _ _ _ _) rfl
      refine Within.fold ?_ (fun u x hu => ?_)
      · exact Within.refl _ _
      · refine Within.step ?_ (State.cmdNow_within _ _ _ _ (fun _ _ h => execClusterReset_within _ _ h)) rfl
        assumption
    · refine Within.ite ?_ ?_
      · refine Within.step ?_ (State.cmdNow_within _ _ _ _ (fun _ _ h => execPwrCntClr_within _ h)) rfl
        exact Within.refl _ _
      · exact Within.refl _ _

theorem State.cmdBridge_within (s : State) (a1 : Nat) (a2 : Sys2Proof.Word) : Within [.ctr, .cmd, .more] s (State.cmdBridge s a1 a2) := by
  unfold State.cmdBridge
  refine Within.ite ?_ ?_
  · refine Within.step ?_ (State.cmdWait_within _ _ _ _) rfl
    exact Within.refl _ _
  · refine Within.ite ?_ ?_
    · refine Within.step ?_ (State.cmdNow_within _ _ _ _ (fun _ _ h => execBrgCntClr_within _ h)) rfl
      exact Within.refl _ _
    · refine Within.ite ?_ ?_
      · refine Within.step ?_ (State.cmdWait_within _ _ _ _) rfl
        exact Within.refl _ _
      · exact Within.refl _ _

theorem State.cmdPlacement_within (s : State) (a1 : Nat) (a2 : Sys2Proof.Word) : Within [.ctr, .cmd, .plc] s (State.cmdPlacement s a1 a2) := by
  unfold State.cmdPlacement
  refine Within.ite ?_ ?_
  · refine Within.ite ?_ ?_
    · extract_lets -merge -useContext -underBinder +onlyGivenNames x1
      try clear_value x1
      refine Within.step ?_ (State.modPlc_within _ _) rfl
      refine Within.step ?_ (State.cmdShow_within _ _ _) rfl
      exact Within.refl _ _
    · exact Within.refl _ _
  · refine Within.ite ?_ ?_
    · refine Within.step ?_ (State.cmdNow_within _ _ _ _ (fun _ _ h => execPubCntClr_within _ h)) rfl
      exact Within.refl _ _
    · exact Within.refl _ _

theorem State.cmdDram_within (s : State) (a1 : Nat) (a2 : Sys2Proof.Word) : Within [.flg, .ctr, .cmd, .more, .msix] s (State.cmdDram s a1 a2) := by
  unfold State.cmdDram
  refine Within.ite ?_ ?_
  · extract_lets -merge -useContext -underBinder +onlyGivenNames x1
    have hx1 : Within [.flg, .ctr, .cmd, .more, .msix] s x1 := by
      unfold x1
      refine Within.ite ?_ ?_
      · refine Within.step ?_ (State.setBit_within _ _ _) rfl
        exact Within.refl _ _
      · refine Within.step ?_ (State.cmdWait_within _ _ _ _) rfl
        exact Within.refl _ _
    try clear_value x1
    refine Within.step ?_ (State.cmdNow_within _ _ _ _ (fun _ _ h => execDramCntClr_within _ h)) rfl
    assumption
  · exact Within.refl _ _

theorem State.cmdHost_within (s : State) (a1 : Nat) (a2 : Sys2Proof.Word) : Within [.ctr, .cmd, .more] s (State.cmdHost s a1 a2) := by
  unfold State.cmdHost
  refine Within.ite ?_ ?_
  · refine Within.step ?_ (State.cmdNow_within _ _ _ _ (fun _ _ h => execHostCntClr_within _ h)) rfl
    exact Within.refl _ _
  · refine Within.ite ?_ ?_
    · refine Within.step ?_ (State.cmdWait_within _ _ _ _) rfl
      exact Within.refl _ _
    · exact Within.refl _ _

theorem State.cmdRun_within (s : State) (a1 : Sys2Proof.Clu) (a2 : Sys2Proof.Word) : Within [.eff, .flg, .ctr, .cmd, .more, .tabs, .clu, .wl, .gov, .pg, .pin, .host, .msix, .plc] s (State.cmdRun s a1 a2) := by
  unfold State.cmdRun
  extract_lets -merge -useContext -underBinder +onlyGivenNames x1
  have hx1 : Within [.eff, .flg, .ctr, .cmd, .more, .tabs, .clu, .wl, .gov, .pg, .pin, .host, .msix, .plc] s x1 := by
    unfold x1
    refine Within.ite ?_ ?_
    · refine Within.step ?_ (State.cmdWait_within _ _ _ _) rfl
      exact Within.refl _ _
    · refine Within.step ?_ (State.setBitIf_within _ _ _ _) rfl
      exact Within.refl _ _
  try clear_value x1
  extract_lets -merge -useContext -underBinder +onlyGivenNames x2
  have hx2 : Within [.eff, .flg, .ctr, .cmd, .more, .tabs, .clu, .wl, .gov, .pg, .pin, .host, .msix, .plc] s x2 := by
    unfold x2
    refine Within.ite ?_ ?_
    · refine Within.step ?_ (State.cmdNow_within _ _ _ _ (fun _ _ h => execCluAbort_within _ _ h)) rfl
      assumption
    · refine Within.step ?_ (State.cmdNow_within _ _ _ _ (fun _ _ h => execCluStop_within _ _ h)) rfl
      assumption
  try clear_value x2
  refine Within.step ?_ (State.cmdNow_within _ _ _ _ (fun _ _ h => execCluCntClr_within _ _ h)) rfl
  assumption

theorem State.cmdCluster_within (s : State) (a1 : Sys2Proof.Clu) (a2 : Nat) (a3 : Sys2Proof.Word) : Within [.eff, .flg, .ctr, .cmd, .more, .tabs, .clu, .wl, .gov, .pg, .pin, .host, .msix, .plc] s (State.cmdCluster s a1 a2 a3) := by
  unfold State.cmdCluster
  refine Within.ite ?_ ?_
  · refine Within.step ?_ (State.cmdRun_within _ _ _) rfl
    exact Within.refl _ _
  · refine Within.ite ?_ ?_
    · refine Within.step ?_ (State.cmdNow_within _ _ _ _ (fun _ _ h => execJmpCntClr_within _ _ h)) rfl
      refine Within.step ?_ (State.cmdWait_within _ _ _ _) rfl
      exact Within.refl _ _
    · refine Within.ite ?_ ?_
      · refine Within.step ?_ (State.cmdNow_within _ _ _ _ (fun _ _ h => execLateCntClr_within _ _ h)) rfl
        exact Within.refl _ _
      · exact Within.refl _ _

theorem State.cmdLane_within (s : State) (a1 : Sys2Proof.Lane) (a2 : Nat) (a3 : Sys2Proof.Word) : Within [.flg, .ctr, .cmd, .more, .wl, .msix] s (State.cmdLane s a1 a2 a3) := by
  unfold State.cmdLane
  refine Within.ite ?_ ?_
  · refine Within.step ?_ (State.cmdNow_within _ _ _ _ (fun _ _ h => execNcoLoad_within _ _ h)) rfl
    exact Within.refl _ _
  · refine Within.ite ?_ ?_
    · refine Within.step ?_ (State.cmdNow_within _ _ _ _ (fun _ _ h => execWlnCntClr_within _ _ h)) rfl
      exact Within.refl _ _
    · refine Within.ite ?_ ?_
      · refine Within.step ?_ (State.cmdNow_within _ _ _ _ (fun _ _ h => execCompCntClr_within _ _ h)) rfl
        refine Within.step ?_ (State.cmdWait_within _ _ _ _) rfl
        refine Within.step ?_ (State.cmdShow_within _ _ _) rfl
        exact Within.refl _ _
      · exact Within.refl _ _

theorem State.cmdGroup_within (s : State) (a1 : Sys2Proof.Pg) (a2 : Nat) (a3 : Sys2Proof.Word) : Within [.flg, .ctr, .cmd, .more, .pg, .msix] s (State.cmdGroup s a1 a2 a3) := by
  unfold State.cmdGroup
  refine Within.ite ?_ ?_
  · refine Within.step ?_ (State.cmdNow_within _ _ _ _ (fun _ _ h => execPgCntClr_within _ _ h)) rfl
    refine Within.step ?_ (State.cmdNow_within _ _ _ _ (fun _ _ h => execFfArm_within _ _ h)) rfl
    exact Within.refl _ _
  · refine Within.ite ?_ ?_
    · refine Within.step ?_ (State.cmdNow_within _ _ _ _ (fun _ _ h => execTsgCntClr_within _ _ h)) rfl
      refine Within.step ?_ (State.cmdWait_within _ _ _ _) rfl
      exact Within.refl _ _
    · exact Within.refl _ _

theorem State.cmdLevel_within (s : State) (a1 : Nat) (a2 : Sys2Proof.Word) : Within [.pwr, .ctr, .cmd, .more, .lvl] s (State.cmdLevel s a1 a2) := by
  unfold State.cmdLevel
  refine Within.ite ?_ ?_
  · extract_lets -merge -useContext -underBinder +onlyGivenNames x1
    try clear_value x1
    refine Within.ite ?_ ?_
    · refine Within.step ?_ (State.cmdNow_within _ _ _ _ (fun _ _ h => execLvlCntClr_within _ _ h)) rfl
      refine Within.step ?_ (State.cmdNow_within _ _ _ _ (fun _ _ h => execLvlReconnect_within _ _ h)) rfl
      exact Within.refl _ _
    · exact Within.refl _ _
  · refine Within.ite ?_ ?_
    · refine Within.step ?_ (State.cmdNow_within _ _ _ _ (fun _ _ h => execLgCntClr_within _ _ h)) rfl
      refine Within.step ?_ (State.cmdWait_within _ _ _ _) rfl
      exact Within.refl _ _
    · exact Within.refl _ _

theorem State.writeCmd_within (s : State) (a1 : Nat) (a2 : Sys2Proof.Word) : Within [.pwr, .ovl, .eff, .flg, .ctr, .cmd, .more, .tabs, .clu, .wl, .gov, .pg, .pin, .lvl, .host, .msix, .plc] s (State.writeCmd s a1 a2) := by
  unfold State.writeCmd
  refine Within.ite ?_ ?_
  · exact Within.refl _ _
  · refine Within.ite ?_ ?_
    · refine Within.step ?_ (State.cmdDevice_within _ _ _) rfl
      exact Within.refl _ _
    · refine Within.ite ?_ ?_
      · refine Within.step ?_ (State.cmdClocks_within _ _ _) rfl
        exact Within.refl _ _
      · refine Within.ite ?_ ?_
        · refine Within.ite ?_ ?_
          · refine Within.step ?_ (State.cmdNow_within _ _ _ _ (fun _ _ h => execFltCntClr_within _ h)) rfl
            exact Within.refl _ _
          · exact Within.refl _ _
        · refine Within.ite ?_ ?_
          · refine Within.step ?_ (State.cmdBridge_within _ _ _) rfl
            exact Within.refl _ _
          · refine Within.ite ?_ ?_
            · refine Within.step ?_ (State.cmdPlacement_within _ _ _) rfl
              exact Within.refl _ _
            · refine Within.ite ?_ ?_
              · refine Within.step ?_ (State.cmdDram_within _ _ _) rfl
                exact Within.refl _ _
              · refine Within.ite ?_ ?_
                · refine Within.ite ?_ ?_
                  · refine Within.step ?_ (State.cmdNow_within _ _ _ _ (fun _ _ h => execMemCntClr_within _ h)) rfl
                    exact Within.refl _ _
                  · exact Within.refl _ _
                · refine Within.ite ?_ ?_
                  · refine Within.step ?_ (State.cmdHost_within _ _ _) rfl
                    exact Within.refl _ _
                  · refine Within.ite ?_ ?_
                    · refine Within.ite ?_ ?_
                      · refine Within.step ?_ (State.cmdNow_within _ _ _ _ (fun _ _ h => execLnkCntClr_within _ h)) rfl
                        refine Within.step ?_ (State.cmdWait_within _ _ _ _) rfl
                        exact Within.refl _ _
                      · exact Within.refl _ _
                    · refine Within.ite ?_ ?_
                      · refine Within.step ?_ (State.cmdCluster_within _ _ _ _) rfl
                        exact Within.refl _ _
                      · refine Within.ite ?_ ?_
                        · refine Within.step ?_ (State.cmdLane_within _ _ _ _) rfl
                          exact Within.refl _ _
                        · refine Within.ite ?_ ?_
                          · refine Within.step ?_ (State.cmdGroup_within _ _ _ _) rfl
                            exact Within.refl _ _
                          · refine Within.ite ?_ ?_
                            · refine Within.ite ?_ ?_
                              · refine Within.step ?_ (State.cmdNow_within _ _ _ _ (fun _ _ h => execPinCntClr_within _ _ h)) rfl
                                exact Within.refl _ _
                              · exact Within.refl _ _
                            · refine Within.step ?_ (State.cmdLevel_within _ _ _) rfl
                              exact Within.refl _ _

theorem State.writeFields_within (s : State) (a1 : Nat) (a2 : BitVec 4) (a3 : Sys2Proof.Word) : Within [.pwr, .ovl, .cfg, .eff, .flg, .ctr, .cmd, .more, .tabs, .was, .clu, .wl, .gov, .pg, .pin, .lvl, .brg, .host, .msix, .plc] s (State.writeFields s a1 a2 a3) := by
  unfold State.writeFields
  extract_lets -merge -useContext -underBinder +onlyGivenNames x1
  try clear_value x1
  refine Within.step ?_ (State.writeCmd_within _ _ _) rfl
  refine Within.step ?_ (State.writeW1c_within _ _ _) rfl
  refine Within.step ?_ (State.writeRw_within _ _ _ _) rfl
  exact Within.refl _ _

theorem State.writeServed_within (s : State) (a1 : Nat) (a2 : BitVec 4) (a3 : Sys2Proof.Word) : Within [.pwr, .ovl, .cfg, .eff, .flg, .ctr, .cmd, .more, .tabs, .was, .clu, .wl, .gov, .pg, .pin, .lvl, .brg, .mem, .host, .msix, .flt, .plc] s (State.writeServed s a1 a2 a3) := by
  unfold State.writeServed
  refine Within.ite ?_ ?_
  · refine Within.step ?_ (State.sharedWriteHeld_within _ _ _ _) rfl
    exact Within.refl _ _
  · refine Within.ite ?_ ?_
    · refine Within.step ?_ (State.writeFltRd_within _ _ _) rfl
      exact Within.refl _ _
    · refine Within.ite ?_ ?_
      · refine Within.step ?_ (State.writeMsix_within _ _ _ _) rfl
        exact Within.refl _ _
      · refine Within.ite ?_ ?_
        · refine Within.step ?_ (State.writeTail_within _ _ _ _) rfl
          exact Within.refl _ _
        · refine Within.ite ?_ ?_
          · refine Within.step ?_ (State.writeFlRd_within _ _ _ _) rfl
            exact Within.refl _ _
          · refine Within.step ?_ (State.writeFields_within _ _ _ _) rfl
            exact Within.refl _ _

theorem State.bar0Write_within (s : State) (a1 : BitVec 24) (a2 : BitVec 4) (a3 : Sys2Proof.Word) : Within [.pwr, .ovl, .cfg, .eff, .flg, .ctr, .cmd, .more, .err, .tabs, .was, .clu, .wl, .gov, .pg, .pin, .lvl, .brg, .mem, .host, .msix, .flt, .plc] s (State.bar0Write s a1 a2 a3) := by
  unfold State.bar0Write
  extract_lets -merge -useContext -underBinder +onlyGivenNames x1
  try clear_value x1
  refine Within.ite ?_ ?_
  · refine Within.step ?_ (State.accRecord_within _ _ _) rfl
    refine Within.step ?_ (State.setBitIf_within _ _ _ _) rfl
    refine Within.step ?_ (State.setBitIf_within _ _ _ _) rfl
    exact Within.refl _ _
  · split
    · refine Within.ite ?_ ?_
      · refine Within.step ?_ (State.writeServed_within _ _ _ _) rfl
        exact Within.refl _ _
      · exact Within.refl _ _
    · exact Within.refl _ _

theorem State.bar0Pair_within (s : State) (a1 : BitVec 24) (a2 : BitVec 4 × Sys2Proof.Word) (a3 : BitVec 4 × Sys2Proof.Word) : Within [.clk, .pwr, .ovl, .cfg, .eff, .flg, .ctr, .cmd, .more, .err, .tabs, .was, .clu, .wl, .gov, .pg, .pin, .lvl, .brg, .mem, .host, .msix, .flt, .plc] s (State.bar0Pair s a1 a2 a3) := by
  unfold State.bar0Pair
  extract_lets -merge -useContext -underBinder +onlyGivenNames x1
  try clear_value x1
  extract_lets -merge -useContext -underBinder +onlyGivenNames x2
  have hx2 : Within [.clk, .pwr, .ovl, .cfg, .eff, .flg, .ctr, .cmd, .more, .err, .tabs, .was, .clu, .wl, .gov, .pg, .pin, .lvl, .brg, .mem, .host, .msix, .flt, .plc] s x2 := by
    unfold x2
    refine Within.step ?_ (State.upto_within _ _) rfl
    refine Within.step ?_ (State.bar0Write_within _ _ _ _) rfl
    exact Within.refl _ _
  try clear_value x2
  extract_lets -merge -useContext -underBinder +onlyGivenNames x3
  have hx3 : Within [.clk, .pwr, .ovl, .cfg, .eff, .flg, .ctr, .cmd, .more, .err, .tabs, .was, .clu, .wl, .gov, .pg, .pin, .lvl, .brg, .mem, .host, .msix, .flt, .plc] s x3 := by
    unfold x3
    split
    · refine Within.ite ?_ ?_
      · refine Within.step ?_ (State.keepWord_within _ _ _) rfl
        assumption
      · assumption
    · assumption
  try clear_value x3
  refine Within.step ?_ (State.bar0Write_within _ _ _ _) rfl
  assumption

theorem State.bar0Words_within (s : State) (a1 : Nat) (a2 : BitVec 24) (a3 : List (BitVec 4 × Sys2Proof.Word)) :
    Within [.clk, .pwr, .ovl, .cfg, .eff, .flg, .ctr, .cmd, .more, .err, .tabs, .was, .clu, .wl, .gov, .pg, .pin, .lvl, .brg, .mem, .host, .msix, .flt, .plc] s (State.bar0Words s a1 a2 a3) := by
  induction a3 generalizing s a1 a2 with
  | nil => exact Within.refl _ _
  | cons w ws ih => exact (((State.upto_within s _).mono rfl).step (State.bar0Write_within _ _ _ _) rfl).step (ih _ _ _) rfl

theorem State.bar0Request_within (s : State) (a1 : Nat) (a2 : BitVec 24) (a3 : List (BitVec 4 × Sys2Proof.Word)) : Within [.clk, .pwr, .ovl, .cfg, .eff, .flg, .ctr, .cmd, .more, .err, .tabs, .was, .clu, .wl, .gov, .pg, .pin, .lvl, .brg, .mem, .host, .msix, .flt, .plc] s (State.bar0Request s a1 a2 a3) := by
  unfold State.bar0Request
  split
  · refine Within.ite ?_ ?_
    · refine Within.step ?_ (State.bar0Pair_within _ _ _ _) rfl
      exact Within.refl _ _
    · refine Within.step ?_ (State.bar0Words_within _ _ _ _) rfl
      exact Within.refl _ _
  · refine Within.step ?_ (State.bar0Words_within _ _ _ _) rfl
    exact Within.refl _ _

theorem State.bar0Answer_within (s : State) (a1 : Sys2Proof.Word) : Within [.host] s (State.bar0Answer s a1) := by
  unfold State.bar0Answer
  refine Within.step ?_ (Within.set_host _ _ rfl rfl rfl) rfl
  exact Within.refl _ _

theorem State.bar0Read_within (s : State) (a1 : BitVec 24) : Within [.clk, .flg, .ctr, .err, .mem, .host, .msix, .flt] s (State.bar0Read s a1) := by
  unfold State.bar0Read
  split
  · refine Within.step ?_ (State.bar0Answer_within _ _) rfl
    refine Within.step ?_ (State.accRecord_within _ _ _) rfl
    refine Within.step ?_ (State.setBit_within _ _ _) rfl
    exact Within.refl _ _
  · refine Within.step ?_ (State.bar0Answer_within _ _) rfl
    refine Within.step ?_ (State.failLogSeen_within _ _) rfl
    exact Within.refl _ _

theorem State.bar0ReadWords_within (s : State) (a1 : Nat) (a2 : BitVec 24) (a3 : Nat) :
    Within [.clk, .flg, .ctr, .err, .mem, .host, .msix, .flt] s (State.bar0ReadWords s a1 a2 a3) := by
  induction a3 generalizing s a1 a2 with
  | zero => exact Within.refl _ _
  | succ k ih =>
    have h1 : Within [.clk, .flg, .ctr, .err, .mem, .host, .msix, .flt] s ((s.upto a1).bar0Read a2) := ((State.upto_within s _).mono rfl).step (State.bar0Read_within _ _) rfl
    cases k with
    | zero => exact h1
    | succ n => exact (h1.step (ih _ _ _) rfl).step (m := [.host]) (Within.set_host _ _ rfl rfl rfl) rfl

theorem execRegisterWrite_within (a0 : Nat) (a1 : BitVec 24) (a2 : Sys2Proof.Bar0Op) (s : State) {t : State} (h : execRegisterWrite a0 a1 a2 s = .next t) : Within [.clk, .pwr, .ovl, .cfg, .eff, .flg, .ctr, .cmd, .more, .err, .tabs, .was, .clu, .wl, .gov, .pg, .pin, .lvl, .brg, .mem, .host, .msix, .flt, .plc] s t := by
  unfold execRegisterWrite at h
  refine Within.guarded ?_ h
  extract_lets -merge -useContext -underBinder +onlyGivenNames x1
  have hx1 : Within [.clk, .pwr, .ovl, .cfg, .eff, .flg, .ctr, .cmd, .more, .err, .tabs, .was, .clu, .wl, .gov, .pg, .pin, .lvl, .brg, .mem, .host, .msix, .flt, .plc] s x1 := by
    unfold x1
    refine Within.step ?_ (State.upto_within _ _) rfl
    exact Within.refl _ _
  try clear_value x1
  extract_lets -merge -useContext -underBinder +onlyGivenNames x2
  try clear_value x2
  refine Within.ite ?_ ?_
  · split
    · refine Within.step ?_ (Within.set_host _ _ rfl rfl rfl) rfl
      assumption
    · refine Within.step ?_ (Within.set_host _ _ rfl rfl rfl) rfl
      assumption
    · assumption
  · split
    · refine Within.step ?_ (State.bar0Read_within _ _) rfl
      assumption
    · refine Within.step ?_ (State.bar0ReadWords_within _ _ _ _) rfl
      assumption
    · refine Within.step ?_ (State.bar0Write_within _ _ _ _) rfl
      assumption
    · refine Within.step ?_ (State.bar0Request_within _ _ _ _) rfl
      assumption
    · refine Within.step ?_ (State.bar0Request_within _ _ _ _) rfl
      assumption

theorem State.rest_within (s : State) (a1 : List Sys2Proof.Instr) : Within [.pending] s (State.rest s a1) := by
  unfold State.rest
  refine Within.step ?_ (Within.set_pending _ _) rfl
  exact Within.refl _ _

theorem State.withFetchWord_within (s : State) (a1 : Nat) (a2 : Nat) : Within [.pending] s (State.withFetchWord s a1 a2) := by
  unfold State.withFetchWord
  split
  · refine Within.step ?_ (Within.set_pending _ _) rfl
    exact Within.refl _ _
  · exact Within.refl _ _

end Sys2Proof.Machine
end

