-- ==== Sys2Proof/Laws/State.lean ====
section
/-! SUPPORT. The shared operations field by field: what each leaves alone, and what the indexed ones write. -/
namespace Sys2Proof.Machine

/-! ### State.modClu -/
@[simp] theorem State.modClu_part (s : State) (n : Clu) (f : Cluster → Cluster) : (s.modClu n f).part = s.part := rfl
@[simp] theorem State.modClu_clk (s : State) (n : Clu) (f : Cluster → Cluster) : (s.modClu n f).clk = s.clk := rfl
@[simp] theorem State.modClu_pwr (s : State) (n : Clu) (f : Cluster → Cluster) : (s.modClu n f).pwr = s.pwr := rfl
@[simp] theorem State.modClu_img (s : State) (n : Clu) (f : Cluster → Cluster) : (s.modClu n f).img = s.img := rfl
@[simp] theorem State.modClu_ovl (s : State) (n : Clu) (f : Cluster → Cluster) : (s.modClu n f).ovl = s.ovl := rfl
@[simp] theorem State.modClu_trg (s : State) (n : Clu) (f : Cluster → Cluster) : (s.modClu n f).trg = s.trg := rfl
@[simp] theorem State.modClu_cfg (s : State) (n : Clu) (f : Cluster → Cluster) : (s.modClu n f).cfg = s.cfg := rfl
@[simp] theorem State.modClu_eff (s : State) (n : Clu) (f : Cluster → Cluster) : (s.modClu n f).eff = s.eff := rfl
@[simp] theorem State.modClu_flg (s : State) (n : Clu) (f : Cluster → Cluster) : (s.modClu n f).flg = s.flg := rfl
@[simp] theorem State.modClu_ctr (s : State) (n : Clu) (f : Cluster → Cluster) : (s.modClu n f).ctr = s.ctr := rfl
@[simp] theorem State.modClu_cmd (s : State) (n : Clu) (f : Cluster → Cluster) : (s.modClu n f).cmd = s.cmd := rfl
@[simp] theorem State.modClu_more (s : State) (n : Clu) (f : Cluster → Cluster) : (s.modClu n f).more = s.more := rfl
@[simp] theorem State.modClu_errAddr (s : State) (n : Clu) (f : Cluster → Cluster) : (s.modClu n f).errAddr = s.errAddr := rfl
@[simp] theorem State.modClu_errWrite (s : State) (n : Clu) (f : Cluster → Cluster) : (s.modClu n f).errWrite = s.errWrite := rfl
@[simp] theorem State.modClu_tabs (s : State) (n : Clu) (f : Cluster → Cluster) : (s.modClu n f).tabs = s.tabs := rfl
@[simp] theorem State.modClu_was (s : State) (n : Clu) (f : Cluster → Cluster) : (s.modClu n f).was = s.was := rfl
@[simp] theorem State.modClu_wl (s : State) (n : Clu) (f : Cluster → Cluster) : (s.modClu n f).wl = s.wl := rfl
@[simp] theorem State.modClu_gov (s : State) (n : Clu) (f : Cluster → Cluster) : (s.modClu n f).gov = s.gov := rfl
@[simp] theorem State.modClu_pg (s : State) (n : Clu) (f : Cluster → Cluster) : (s.modClu n f).pg = s.pg := rfl
@[simp] theorem State.modClu_pin (s : State) (n : Clu) (f : Cluster → Cluster) : (s.modClu n f).pin = s.pin := rfl
@[simp] theorem State.modClu_lvl (s : State) (n : Clu) (f : Cluster → Cluster) : (s.modClu n f).lvl = s.lvl := rfl
@[simp] theorem State.modClu_lg (s : State) (n : Clu) (f : Cluster → Cluster) : (s.modClu n f).lg = s.lg := rfl
@[simp] theorem State.modClu_mon (s : State) (n : Clu) (f : Cluster → Cluster) : (s.modClu n f).mon = s.mon := rfl
@[simp] theorem State.modClu_brg (s : State) (n : Clu) (f : Cluster → Cluster) : (s.modClu n f).brg = s.brg := rfl
@[simp] theorem State.modClu_link (s : State) (n : Clu) (f : Cluster → Cluster) : (s.modClu n f).link = s.link := rfl
@[simp] theorem State.modClu_dram (s : State) (n : Clu) (f : Cluster → Cluster) : (s.modClu n f).dram = s.dram := rfl
@[simp] theorem State.modClu_mem (s : State) (n : Clu) (f : Cluster → Cluster) : (s.modClu n f).mem = s.mem := rfl
@[simp] theorem State.modClu_host (s : State) (n : Clu) (f : Cluster → Cluster) : (s.modClu n f).host = s.host := rfl
@[simp] theorem State.modClu_flt (s : State) (n : Clu) (f : Cluster → Cluster) : (s.modClu n f).flt = s.flt := rfl
@[simp] theorem State.modClu_plc (s : State) (n : Clu) (f : Cluster → Cluster) : (s.modClu n f).plc = s.plc := rfl
@[simp] theorem State.modClu_jtag (s : State) (n : Clu) (f : Cluster → Cluster) : (s.modClu n f).jtag = s.jtag := rfl
@[simp] theorem State.modClu_smb (s : State) (n : Clu) (f : Cluster → Cluster) : (s.modClu n f).smb = s.smb := rfl
@[simp] theorem State.modClu_undef (s : State) (n : Clu) (f : Cluster → Cluster) : (s.modClu n f).undef = s.undef := rfl
@[simp] theorem State.modClu_freeN (s : State) (n : Clu) (f : Cluster → Cluster) : (s.modClu n f).freeN = s.freeN := rfl
@[simp] theorem State.modClu_pending (s : State) (n : Clu) (f : Cluster → Cluster) : (s.modClu n f).pending = s.pending := rfl
@[simp] theorem State.modClu_self (s : State) (n : Clu) (f : Cluster → Cluster) : (s.modClu n f).clu[n] = f s.clu[n] := by simp [State.modClu]
theorem State.modClu_other (s : State) (n : Clu) (f : Cluster → Cluster) {j : Clu} (h : j ≠ n) : (s.modClu n f).clu[j] = s.clu[j] := by
  have : n.val ≠ j.val := fun e => h (Fin.ext e.symm)
  simp [State.modClu, this]
/-! ### State.modWl -/
@[simp] theorem State.modWl_part (s : State) (w : Lane) (f : WLane → WLane) : (s.modWl w f).part = s.part := rfl
@[simp] theorem State.modWl_clk (s : State) (w : Lane) (f : WLane → WLane) : (s.modWl w f).clk = s.clk := rfl
@[simp] theorem State.modWl_pwr (s : State) (w : Lane) (f : WLane → WLane) : (s.modWl w f).pwr = s.pwr := rfl
@[simp] theorem State.modWl_img (s : State) (w : Lane) (f : WLane → WLane) : (s.modWl w f).img = s.img := rfl
@[simp] theorem State.modWl_ovl (s : State) (w : Lane) (f : WLane → WLane) : (s.modWl w f).ovl = s.ovl := rfl
@[simp] theorem State.modWl_trg (s : State) (w : Lane) (f : WLane → WLane) : (s.modWl w f).trg = s.trg := rfl
@[simp] theorem State.modWl_cfg (s : State) (w : Lane) (f : WLane → WLane) : (s.modWl w f).cfg = s.cfg := rfl
@[simp] theorem State.modWl_eff (s : State) (w : Lane) (f : WLane → WLane) : (s.modWl w f).eff = s.eff := rfl
@[simp] theorem State.modWl_flg (s : State) (w : Lane) (f : WLane → WLane) : (s.modWl w f).flg = s.flg := rfl
@[simp] theorem State.modWl_ctr (s : State) (w : Lane) (f : WLane → WLane) : (s.modWl w f).ctr = s.ctr := rfl
@[simp] theorem State.modWl_cmd (s : State) (w : Lane) (f : WLane → WLane) : (s.modWl w f).cmd = s.cmd := rfl
@[simp] theorem State.modWl_more (s : State) (w : Lane) (f : WLane → WLane) : (s.modWl w f).more = s.more := rfl
@[simp] theorem State.modWl_errAddr (s : State) (w : Lane) (f : WLane → WLane) : (s.modWl w f).errAddr = s.errAddr := rfl
@[simp] theorem State.modWl_errWrite (s : State) (w : Lane) (f : WLane → WLane) : (s.modWl w f).errWrite = s.errWrite := rfl
@[simp] theorem State.modWl_tabs (s : State) (w : Lane) (f : WLane → WLane) : (s.modWl w f).tabs = s.tabs := rfl
@[simp] theorem State.modWl_was (s : State) (w : Lane) (f : WLane → WLane) : (s.modWl w f).was = s.was := rfl
@[simp] theorem State.modWl_clu (s : State) (w : Lane) (f : WLane → WLane) : (s.modWl w f).clu = s.clu := rfl
@[simp] theorem State.modWl_gov (s : State) (w : Lane) (f : WLane → WLane) : (s.modWl w f).gov = s.gov := rfl
@[simp] theorem State.modWl_pg (s : State) (w : Lane) (f : WLane → WLane) : (s.modWl w f).pg = s.pg := rfl
@[simp] theorem State.modWl_pin (s : State) (w : Lane) (f : WLane → WLane) : (s.modWl w f).pin = s.pin := rfl
@[simp] theorem State.modWl_lvl (s : State) (w : Lane) (f : WLane → WLane) : (s.modWl w f).lvl = s.lvl := rfl
@[simp] theorem State.modWl_lg (s : State) (w : Lane) (f : WLane → WLane) : (s.modWl w f).lg = s.lg := rfl
@[simp] theorem State.modWl_mon (s : State) (w : Lane) (f : WLane → WLane) : (s.modWl w f).mon = s.mon := rfl
@[simp] theorem State.modWl_brg (s : State) (w : Lane) (f : WLane → WLane) : (s.modWl w f).brg = s.brg := rfl
@[simp] theorem State.modWl_link (s : State) (w : Lane) (f : WLane → WLane) : (s.modWl w f).link = s.link := rfl
@[simp] theorem State.modWl_dram (s : State) (w : Lane) (f : WLane → WLane) : (s.modWl w f).dram = s.dram := rfl
@[simp] theorem State.modWl_mem (s : State) (w : Lane) (f : WLane → WLane) : (s.modWl w f).mem = s.mem := rfl
@[simp] theorem State.modWl_host (s : State) (w : Lane) (f : WLane → WLane) : (s.modWl w f).host = s.host := rfl
@[simp] theorem State.modWl_flt (s : State) (w : Lane) (f : WLane → WLane) : (s.modWl w f).flt = s.flt := rfl
@[simp] theorem State.modWl_plc (s : State) (w : Lane) (f : WLane → WLane) : (s.modWl w f).plc = s.plc := rfl
@[simp] theorem State.modWl_jtag (s : State) (w : Lane) (f : WLane → WLane) : (s.modWl w f).jtag = s.jtag := rfl
@[simp] theorem State.modWl_smb (s : State) (w : Lane) (f : WLane → WLane) : (s.modWl w f).smb = s.smb := rfl
@[simp] theorem State.modWl_undef (s : State) (w : Lane) (f : WLane → WLane) : (s.modWl w f).undef = s.undef := rfl
@[simp] theorem State.modWl_freeN (s : State) (w : Lane) (f : WLane → WLane) : (s.modWl w f).freeN = s.freeN := rfl
@[simp] theorem State.modWl_pending (s : State) (w : Lane) (f : WLane → WLane) : (s.modWl w f).pending = s.pending := rfl
@[simp] theorem State.modWl_self (s : State) (w : Lane) (f : WLane → WLane) : (s.modWl w f).wl[w] = f s.wl[w] := by simp [State.modWl]
theorem State.modWl_other (s : State) (w : Lane) (f : WLane → WLane) {j : Lane} (h : j ≠ w) : (s.modWl w f).wl[j] = s.wl[j] := by
  have : w.val ≠ j.val := fun e => h (Fin.ext e.symm)
  simp [State.modWl, this]
/-! ### State.modPg -/
@[simp] theorem State.modPg_part (s : State) (g : Pg) (f : PinGroup → PinGroup) : (s.modPg g f).part = s.part := rfl
@[simp] theorem State.modPg_clk (s : State) (g : Pg) (f : PinGroup → PinGroup) : (s.modPg g f).clk = s.clk := rfl
@[simp] theorem State.modPg_pwr (s : State) (g : Pg) (f : PinGroup → PinGroup) : (s.modPg g f).pwr = s.pwr := rfl
@[simp] theorem State.modPg_img (s : State) (g : Pg) (f : PinGroup → PinGroup) : (s.modPg g f).img = s.img := rfl
@[simp] theorem State.modPg_ovl (s : State) (g : Pg) (f : PinGroup → PinGroup) : (s.modPg g f).ovl = s.ovl := rfl
@[simp] theorem State.modPg_trg (s : State) (g : Pg) (f : PinGroup → PinGroup) : (s.modPg g f).trg = s.trg := rfl
@[simp] theorem State.modPg_cfg (s : State) (g : Pg) (f : PinGroup → PinGroup) : (s.modPg g f).cfg = s.cfg := rfl
@[simp] theorem State.modPg_eff (s : State) (g : Pg) (f : PinGroup → PinGroup) : (s.modPg g f).eff = s.eff := rfl
@[simp] theorem State.modPg_flg (s : State) (g : Pg) (f : PinGroup → PinGroup) : (s.modPg g f).flg = s.flg := rfl
@[simp] theorem State.modPg_ctr (s : State) (g : Pg) (f : PinGroup → PinGroup) : (s.modPg g f).ctr = s.ctr := rfl
@[simp] theorem State.modPg_cmd (s : State) (g : Pg) (f : PinGroup → PinGroup) : (s.modPg g f).cmd = s.cmd := rfl
@[simp] theorem State.modPg_more (s : State) (g : Pg) (f : PinGroup → PinGroup) : (s.modPg g f).more = s.more := rfl
@[simp] theorem State.modPg_errAddr (s : State) (g : Pg) (f : PinGroup → PinGroup) : (s.modPg g f).errAddr = s.errAddr := rfl
@[simp] theorem State.modPg_errWrite (s : State) (g : Pg) (f : PinGroup → PinGroup) : (s.modPg g f).errWrite = s.errWrite := rfl
@[simp] theorem State.modPg_tabs (s : State) (g : Pg) (f : PinGroup → PinGroup) : (s.modPg g f).tabs = s.tabs := rfl
@[simp] theorem State.modPg_was (s : State) (g : Pg) (f : PinGroup → PinGroup) : (s.modPg g f).was = s.was := rfl
@[simp] theorem State.modPg_clu (s : State) (g : Pg) (f : PinGroup → PinGroup) : (s.modPg g f).clu = s.clu := rfl
@[simp] theorem State.modPg_wl (s : State) (g : Pg) (f : PinGroup → PinGroup) : (s.modPg g f).wl = s.wl := rfl
@[simp] theorem State.modPg_gov (s : State) (g : Pg) (f : PinGroup → PinGroup) : (s.modPg g f).gov = s.gov := rfl
@[simp] theorem State.modPg_pin (s : State) (g : Pg) (f : PinGroup → PinGroup) : (s.modPg g f).pin = s.pin := rfl
@[simp] theorem State.modPg_lvl (s : State) (g : Pg) (f : PinGroup → PinGroup) : (s.modPg g f).lvl = s.lvl := rfl
@[simp] theorem State.modPg_lg (s : State) (g : Pg) (f : PinGroup → PinGroup) : (s.modPg g f).lg = s.lg := rfl
@[simp] theorem State.modPg_mon (s : State) (g : Pg) (f : PinGroup → PinGroup) : (s.modPg g f).mon = s.mon := rfl
@[simp] theorem State.modPg_brg (s : State) (g : Pg) (f : PinGroup → PinGroup) : (s.modPg g f).brg = s.brg := rfl
@[simp] theorem State.modPg_link (s : State) (g : Pg) (f : PinGroup → PinGroup) : (s.modPg g f).link = s.link := rfl
@[simp] theorem State.modPg_dram (s : State) (g : Pg) (f : PinGroup → PinGroup) : (s.modPg g f).dram = s.dram := rfl
@[simp] theorem State.modPg_mem (s : State) (g : Pg) (f : PinGroup → PinGroup) : (s.modPg g f).mem = s.mem := rfl
@[simp] theorem State.modPg_host (s : State) (g : Pg) (f : PinGroup → PinGroup) : (s.modPg g f).host = s.host := rfl
@[simp] theorem State.modPg_flt (s : State) (g : Pg) (f : PinGroup → PinGroup) : (s.modPg g f).flt = s.flt := rfl
@[simp] theorem State.modPg_plc (s : State) (g : Pg) (f : PinGroup → PinGroup) : (s.modPg g f).plc = s.plc := rfl
@[simp] theorem State.modPg_jtag (s : State) (g : Pg) (f : PinGroup → PinGroup) : (s.modPg g f).jtag = s.jtag := rfl
@[simp] theorem State.modPg_smb (s : State) (g : Pg) (f : PinGroup → PinGroup) : (s.modPg g f).smb = s.smb := rfl
@[simp] theorem State.modPg_undef (s : State) (g : Pg) (f : PinGroup → PinGroup) : (s.modPg g f).undef = s.undef := rfl
@[simp] theorem State.modPg_freeN (s : State) (g : Pg) (f : PinGroup → PinGroup) : (s.modPg g f).freeN = s.freeN := rfl
@[simp] theorem State.modPg_pending (s : State) (g : Pg) (f : PinGroup → PinGroup) : (s.modPg g f).pending = s.pending := rfl
@[simp] theorem State.modPg_self (s : State) (g : Pg) (f : PinGroup → PinGroup) : (s.modPg g f).pg[g] = f s.pg[g] := by simp [State.modPg]
theorem State.modPg_other (s : State) (g : Pg) (f : PinGroup → PinGroup) {j : Pg} (h : j ≠ g) : (s.modPg g f).pg[j] = s.pg[j] := by
  have : g.val ≠ j.val := fun e => h (Fin.ext e.symm)
  simp [State.modPg, this]
/-! ### State.modPin -/
@[simp] theorem State.modPin_part (s : State) (p : PinIdx) (f : Pin → Pin) : (s.modPin p f).part = s.part := rfl
@[simp] theorem State.modPin_clk (s : State) (p : PinIdx) (f : Pin → Pin) : (s.modPin p f).clk = s.clk := rfl
@[simp] theorem State.modPin_pwr (s : State) (p : PinIdx) (f : Pin → Pin) : (s.modPin p f).pwr = s.pwr := rfl
@[simp] theorem State.modPin_img (s : State) (p : PinIdx) (f : Pin → Pin) : (s.modPin p f).img = s.img := rfl
@[simp] theorem State.modPin_ovl (s : State) (p : PinIdx) (f : Pin → Pin) : (s.modPin p f).ovl = s.ovl := rfl
@[simp] theorem State.modPin_trg (s : State) (p : PinIdx) (f : Pin → Pin) : (s.modPin p f).trg = s.trg := rfl
@[simp] theorem State.modPin_cfg (s : State) (p : PinIdx) (f : Pin → Pin) : (s.modPin p f).cfg = s.cfg := rfl
@[simp] theorem State.modPin_eff (s : State) (p : PinIdx) (f : Pin → Pin) : (s.modPin p f).eff = s.eff := rfl
@[simp] theorem State.modPin_flg (s : State) (p : PinIdx) (f : Pin → Pin) : (s.modPin p f).flg = s.flg := rfl
@[simp] theorem State.modPin_ctr (s : State) (p : PinIdx) (f : Pin → Pin) : (s.modPin p f).ctr = s.ctr := rfl
@[simp] theorem State.modPin_cmd (s : State) (p : PinIdx) (f : Pin → Pin) : (s.modPin p f).cmd = s.cmd := rfl
@[simp] theorem State.modPin_more (s : State) (p : PinIdx) (f : Pin → Pin) : (s.modPin p f).more = s.more := rfl
@[simp] theorem State.modPin_errAddr (s : State) (p : PinIdx) (f : Pin → Pin) : (s.modPin p f).errAddr = s.errAddr := rfl
@[simp] theorem State.modPin_errWrite (s : State) (p : PinIdx) (f : Pin → Pin) : (s.modPin p f).errWrite = s.errWrite := rfl
@[simp] theorem State.modPin_tabs (s : State) (p : PinIdx) (f : Pin → Pin) : (s.modPin p f).tabs = s.tabs := rfl
@[simp] theorem State.modPin_was (s : State) (p : PinIdx) (f : Pin → Pin) : (s.modPin p f).was = s.was := rfl
@[simp] theorem State.modPin_clu (s : State) (p : PinIdx) (f : Pin → Pin) : (s.modPin p f).clu = s.clu := rfl
@[simp] theorem State.modPin_wl (s : State) (p : PinIdx) (f : Pin → Pin) : (s.modPin p f).wl = s.wl := rfl
@[simp] theorem State.modPin_gov (s : State) (p : PinIdx) (f : Pin → Pin) : (s.modPin p f).gov = s.gov := rfl
@[simp] theorem State.modPin_pg (s : State) (p : PinIdx) (f : Pin → Pin) : (s.modPin p f).pg = s.pg := rfl
@[simp] theorem State.modPin_lvl (s : State) (p : PinIdx) (f : Pin → Pin) : (s.modPin p f).lvl = s.lvl := rfl
@[simp] theorem State.modPin_lg (s : State) (p : PinIdx) (f : Pin → Pin) : (s.modPin p f).lg = s.lg := rfl
@[simp] theorem State.modPin_mon (s : State) (p : PinIdx) (f : Pin → Pin) : (s.modPin p f).mon = s.mon := rfl
@[simp] theorem State.modPin_brg (s : State) (p : PinIdx) (f : Pin → Pin) : (s.modPin p f).brg = s.brg := rfl
@[simp] theorem State.modPin_link (s : State) (p : PinIdx) (f : Pin → Pin) : (s.modPin p f).link = s.link := rfl
@[simp] theorem State.modPin_dram (s : State) (p : PinIdx) (f : Pin → Pin) : (s.modPin p f).dram = s.dram := rfl
@[simp] theorem State.modPin_mem (s : State) (p : PinIdx) (f : Pin → Pin) : (s.modPin p f).mem = s.mem := rfl
@[simp] theorem State.modPin_host (s : State) (p : PinIdx) (f : Pin → Pin) : (s.modPin p f).host = s.host := rfl
@[simp] theorem State.modPin_flt (s : State) (p : PinIdx) (f : Pin → Pin) : (s.modPin p f).flt = s.flt := rfl
@[simp] theorem State.modPin_plc (s : State) (p : PinIdx) (f : Pin → Pin) : (s.modPin p f).plc = s.plc := rfl
@[simp] theorem State.modPin_jtag (s : State) (p : PinIdx) (f : Pin → Pin) : (s.modPin p f).jtag = s.jtag := rfl
@[simp] theorem State.modPin_smb (s : State) (p : PinIdx) (f : Pin → Pin) : (s.modPin p f).smb = s.smb := rfl
@[simp] theorem State.modPin_undef (s : State) (p : PinIdx) (f : Pin → Pin) : (s.modPin p f).undef = s.undef := rfl
@[simp] theorem State.modPin_freeN (s : State) (p : PinIdx) (f : Pin → Pin) : (s.modPin p f).freeN = s.freeN := rfl
@[simp] theorem State.modPin_pending (s : State) (p : PinIdx) (f : Pin → Pin) : (s.modPin p f).pending = s.pending := rfl
@[simp] theorem State.modPin_self (s : State) (p : PinIdx) (f : Pin → Pin) : (s.modPin p f).pin[p] = f s.pin[p] := by simp [State.modPin]
theorem State.modPin_other (s : State) (p : PinIdx) (f : Pin → Pin) {j : PinIdx} (h : j ≠ p) : (s.modPin p f).pin[j] = s.pin[j] := by
  have : p.val ≠ j.val := fun e => h (Fin.ext e.symm)
  simp [State.modPin, this]
/-! ### State.modLvl -/
@[simp] theorem State.modLvl_part (s : State) (c : Lvl) (f : Level → Level) : (s.modLvl c f).part = s.part := rfl
@[simp] theorem State.modLvl_clk (s : State) (c : Lvl) (f : Level → Level) : (s.modLvl c f).clk = s.clk := rfl
@[simp] theorem State.modLvl_pwr (s : State) (c : Lvl) (f : Level → Level) : (s.modLvl c f).pwr = s.pwr := rfl
@[simp] theorem State.modLvl_img (s : State) (c : Lvl) (f : Level → Level) : (s.modLvl c f).img = s.img := rfl
@[simp] theorem State.modLvl_ovl (s : State) (c : Lvl) (f : Level → Level) : (s.modLvl c f).ovl = s.ovl := rfl
@[simp] theorem State.modLvl_trg (s : State) (c : Lvl) (f : Level → Level) : (s.modLvl c f).trg = s.trg := rfl
@[simp] theorem State.modLvl_cfg (s : State) (c : Lvl) (f : Level → Level) : (s.modLvl c f).cfg = s.cfg := rfl
@[simp] theorem State.modLvl_eff (s : State) (c : Lvl) (f : Level → Level) : (s.modLvl c f).eff = s.eff := rfl
@[simp] theorem State.modLvl_flg (s : State) (c : Lvl) (f : Level → Level) : (s.modLvl c f).flg = s.flg := rfl
@[simp] theorem State.modLvl_ctr (s : State) (c : Lvl) (f : Level → Level) : (s.modLvl c f).ctr = s.ctr := rfl
@[simp] theorem State.modLvl_cmd (s : State) (c : Lvl) (f : Level → Level) : (s.modLvl c f).cmd = s.cmd := rfl
@[simp] theorem State.modLvl_more (s : State) (c : Lvl) (f : Level → Level) : (s.modLvl c f).more = s.more := rfl
@[simp] theorem State.modLvl_errAddr (s : State) (c : Lvl) (f : Level → Level) : (s.modLvl c f).errAddr = s.errAddr := rfl
@[simp] theorem State.modLvl_errWrite (s : State) (c : Lvl) (f : Level → Level) : (s.modLvl c f).errWrite = s.errWrite := rfl
@[simp] theorem State.modLvl_tabs (s : State) (c : Lvl) (f : Level → Level) : (s.modLvl c f).tabs = s.tabs := rfl
@[simp] theorem State.modLvl_was (s : State) (c : Lvl) (f : Level → Level) : (s.modLvl c f).was = s.was := rfl
@[simp] theorem State.modLvl_clu (s : State) (c : Lvl) (f : Level → Level) : (s.modLvl c f).clu = s.clu := rfl
@[simp] theorem State.modLvl_wl (s : State) (c : Lvl) (f : Level → Level) : (s.modLvl c f).wl = s.wl := rfl
@[simp] theorem State.modLvl_gov (s : State) (c : Lvl) (f : Level → Level) : (s.modLvl c f).gov = s.gov := rfl
@[simp] theorem State.modLvl_pg (s : State) (c : Lvl) (f : Level → Level) : (s.modLvl c f).pg = s.pg := rfl
@[simp] theorem State.modLvl_pin (s : State) (c : Lvl) (f : Level → Level) : (s.modLvl c f).pin = s.pin := rfl
@[simp] theorem State.modLvl_lg (s : State) (c : Lvl) (f : Level → Level) : (s.modLvl c f).lg = s.lg := rfl
@[simp] theorem State.modLvl_mon (s : State) (c : Lvl) (f : Level → Level) : (s.modLvl c f).mon = s.mon := rfl
@[simp] theorem State.modLvl_brg (s : State) (c : Lvl) (f : Level → Level) : (s.modLvl c f).brg = s.brg := rfl
@[simp] theorem State.modLvl_link (s : State) (c : Lvl) (f : Level → Level) : (s.modLvl c f).link = s.link := rfl
@[simp] theorem State.modLvl_dram (s : State) (c : Lvl) (f : Level → Level) : (s.modLvl c f).dram = s.dram := rfl
@[simp] theorem State.modLvl_mem (s : State) (c : Lvl) (f : Level → Level) : (s.modLvl c f).mem = s.mem := rfl
@[simp] theorem State.modLvl_host (s : State) (c : Lvl) (f : Level → Level) : (s.modLvl c f).host = s.host := rfl
@[simp] theorem State.modLvl_flt (s : State) (c : Lvl) (f : Level → Level) : (s.modLvl c f).flt = s.flt := rfl
@[simp] theorem State.modLvl_plc (s : State) (c : Lvl) (f : Level → Level) : (s.modLvl c f).plc = s.plc := rfl
@[simp] theorem State.modLvl_jtag (s : State) (c : Lvl) (f : Level → Level) : (s.modLvl c f).jtag = s.jtag := rfl
@[simp] theorem State.modLvl_smb (s : State) (c : Lvl) (f : Level → Level) : (s.modLvl c f).smb = s.smb := rfl
@[simp] theorem State.modLvl_undef (s : State) (c : Lvl) (f : Level → Level) : (s.modLvl c f).undef = s.undef := rfl
@[simp] theorem State.modLvl_freeN (s : State) (c : Lvl) (f : Level → Level) : (s.modLvl c f).freeN = s.freeN := rfl
@[simp] theorem State.modLvl_pending (s : State) (c : Lvl) (f : Level → Level) : (s.modLvl c f).pending = s.pending := rfl
@[simp] theorem State.modLvl_self (s : State) (c : Lvl) (f : Level → Level) : (s.modLvl c f).lvl[c] = f s.lvl[c] := by simp [State.modLvl]
theorem State.modLvl_other (s : State) (c : Lvl) (f : Level → Level) {j : Lvl} (h : j ≠ c) : (s.modLvl c f).lvl[j] = s.lvl[j] := by
  have : c.val ≠ j.val := fun e => h (Fin.ext e.symm)
  simp [State.modLvl, this]
/-! ### State.modLg -/
@[simp] theorem State.modLg_part (s : State) (g : Lg) (f : LoadGroup → LoadGroup) : (s.modLg g f).part = s.part := rfl
@[simp] theorem State.modLg_clk (s : State) (g : Lg) (f : LoadGroup → LoadGroup) : (s.modLg g f).clk = s.clk := rfl
@[simp] theorem State.modLg_pwr (s : State) (g : Lg) (f : LoadGroup → LoadGroup) : (s.modLg g f).pwr = s.pwr := rfl
@[simp] theorem State.modLg_img (s : State) (g : Lg) (f : LoadGroup → LoadGroup) : (s.modLg g f).img = s.img := rfl
@[simp] theorem State.modLg_ovl (s : State) (g : Lg) (f : LoadGroup → LoadGroup) : (s.modLg g f).ovl = s.ovl := rfl
@[simp] theorem State.modLg_trg (s : State) (g : Lg) (f : LoadGroup → LoadGroup) : (s.modLg g f).trg = s.trg := rfl
@[simp] theorem State.modLg_cfg (s : State) (g : Lg) (f : LoadGroup → LoadGroup) : (s.modLg g f).cfg = s.cfg := rfl
@[simp] theorem State.modLg_eff (s : State) (g : Lg) (f : LoadGroup → LoadGroup) : (s.modLg g f).eff = s.eff := rfl
@[simp] theorem State.modLg_flg (s : State) (g : Lg) (f : LoadGroup → LoadGroup) : (s.modLg g f).flg = s.flg := rfl
@[simp] theorem State.modLg_ctr (s : State) (g : Lg) (f : LoadGroup → LoadGroup) : (s.modLg g f).ctr = s.ctr := rfl
@[simp] theorem State.modLg_cmd (s : State) (g : Lg) (f : LoadGroup → LoadGroup) : (s.modLg g f).cmd = s.cmd := rfl
@[simp] theorem State.modLg_more (s : State) (g : Lg) (f : LoadGroup → LoadGroup) : (s.modLg g f).more = s.more := rfl
@[simp] theorem State.modLg_errAddr (s : State) (g : Lg) (f : LoadGroup → LoadGroup) : (s.modLg g f).errAddr = s.errAddr := rfl
@[simp] theorem State.modLg_errWrite (s : State) (g : Lg) (f : LoadGroup → LoadGroup) : (s.modLg g f).errWrite = s.errWrite := rfl
@[simp] theorem State.modLg_tabs (s : State) (g : Lg) (f : LoadGroup → LoadGroup) : (s.modLg g f).tabs = s.tabs := rfl
@[simp] theorem State.modLg_was (s : State) (g : Lg) (f : LoadGroup → LoadGroup) : (s.modLg g f).was = s.was := rfl
@[simp] theorem State.modLg_clu (s : State) (g : Lg) (f : LoadGroup → LoadGroup) : (s.modLg g f).clu = s.clu := rfl
@[simp] theorem State.modLg_wl (s : State) (g : Lg) (f : LoadGroup → LoadGroup) : (s.modLg g f).wl = s.wl := rfl
@[simp] theorem State.modLg_gov (s : State) (g : Lg) (f : LoadGroup → LoadGroup) : (s.modLg g f).gov = s.gov := rfl
@[simp] theorem State.modLg_pg (s : State) (g : Lg) (f : LoadGroup → LoadGroup) : (s.modLg g f).pg = s.pg := rfl
@[simp] theorem State.modLg_pin (s : State) (g : Lg) (f : LoadGroup → LoadGroup) : (s.modLg g f).pin = s.pin := rfl
@[simp] theorem State.modLg_lvl (s : State) (g : Lg) (f : LoadGroup → LoadGroup) : (s.modLg g f).lvl = s.lvl := rfl
@[simp] theorem State.modLg_mon (s : State) (g : Lg) (f : LoadGroup → LoadGroup) : (s.modLg g f).mon = s.mon := rfl
@[simp] theorem State.modLg_brg (s : State) (g : Lg) (f : LoadGroup → LoadGroup) : (s.modLg g f).brg = s.brg := rfl
@[simp] theorem State.modLg_link (s : State) (g : Lg) (f : LoadGroup → LoadGroup) : (s.modLg g f).link = s.link := rfl
@[simp] theorem State.modLg_dram (s : State) (g : Lg) (f : LoadGroup → LoadGroup) : (s.modLg g f).dram = s.dram := rfl
@[simp] theorem State.modLg_mem (s : State) (g : Lg) (f : LoadGroup → LoadGroup) : (s.modLg g f).mem = s.mem := rfl
@[simp] theorem State.modLg_host (s : State) (g : Lg) (f : LoadGroup → LoadGroup) : (s.modLg g f).host = s.host := rfl
@[simp] theorem State.modLg_flt (s : State) (g : Lg) (f : LoadGroup → LoadGroup) : (s.modLg g f).flt = s.flt := rfl
@[simp] theorem State.modLg_plc (s : State) (g : Lg) (f : LoadGroup → LoadGroup) : (s.modLg g f).plc = s.plc := rfl
@[simp] theorem State.modLg_jtag (s : State) (g : Lg) (f : LoadGroup → LoadGroup) : (s.modLg g f).jtag = s.jtag := rfl
@[simp] theorem State.modLg_smb (s : State) (g : Lg) (f : LoadGroup → LoadGroup) : (s.modLg g f).smb = s.smb := rfl
@[simp] theorem State.modLg_undef (s : State) (g : Lg) (f : LoadGroup → LoadGroup) : (s.modLg g f).undef = s.undef := rfl
@[simp] theorem State.modLg_freeN (s : State) (g : Lg) (f : LoadGroup → LoadGroup) : (s.modLg g f).freeN = s.freeN := rfl
@[simp] theorem State.modLg_pending (s : State) (g : Lg) (f : LoadGroup → LoadGroup) : (s.modLg g f).pending = s.pending := rfl
@[simp] theorem State.modLg_self (s : State) (g : Lg) (f : LoadGroup → LoadGroup) : (s.modLg g f).lg[g] = f s.lg[g] := by simp [State.modLg]
theorem State.modLg_other (s : State) (g : Lg) (f : LoadGroup → LoadGroup) {j : Lg} (h : j ≠ g) : (s.modLg g f).lg[j] = s.lg[j] := by
  have : g.val ≠ j.val := fun e => h (Fin.ext e.symm)
  simp [State.modLg, this]
/-! ### State.modTmr -/
@[simp] theorem State.modTmr_part (s : State) (k : Fin 8) (f : Timer → Timer) : (s.modTmr k f).part = s.part := rfl
@[simp] theorem State.modTmr_clk (s : State) (k : Fin 8) (f : Timer → Timer) : (s.modTmr k f).clk = s.clk := rfl
@[simp] theorem State.modTmr_pwr (s : State) (k : Fin 8) (f : Timer → Timer) : (s.modTmr k f).pwr = s.pwr := rfl
@[simp] theorem State.modTmr_img (s : State) (k : Fin 8) (f : Timer → Timer) : (s.modTmr k f).img = s.img := rfl
@[simp] theorem State.modTmr_ovl (s : State) (k : Fin 8) (f : Timer → Timer) : (s.modTmr k f).ovl = s.ovl := rfl
@[simp] theorem State.modTmr_trg (s : State) (k : Fin 8) (f : Timer → Timer) : (s.modTmr k f).trg = s.trg := rfl
@[simp] theorem State.modTmr_cfg (s : State) (k : Fin 8) (f : Timer → Timer) : (s.modTmr k f).cfg = s.cfg := rfl
@[simp] theorem State.modTmr_eff (s : State) (k : Fin 8) (f : Timer → Timer) : (s.modTmr k f).eff = s.eff := rfl
@[simp] theorem State.modTmr_flg (s : State) (k : Fin 8) (f : Timer → Timer) : (s.modTmr k f).flg = s.flg := rfl
@[simp] theorem State.modTmr_ctr (s : State) (k : Fin 8) (f : Timer → Timer) : (s.modTmr k f).ctr = s.ctr := rfl
@[simp] theorem State.modTmr_cmd (s : State) (k : Fin 8) (f : Timer → Timer) : (s.modTmr k f).cmd = s.cmd := rfl
@[simp] theorem State.modTmr_more (s : State) (k : Fin 8) (f : Timer → Timer) : (s.modTmr k f).more = s.more := rfl
@[simp] theorem State.modTmr_errAddr (s : State) (k : Fin 8) (f : Timer → Timer) : (s.modTmr k f).errAddr = s.errAddr := rfl
@[simp] theorem State.modTmr_errWrite (s : State) (k : Fin 8) (f : Timer → Timer) : (s.modTmr k f).errWrite = s.errWrite := rfl
@[simp] theorem State.modTmr_tabs (s : State) (k : Fin 8) (f : Timer → Timer) : (s.modTmr k f).tabs = s.tabs := rfl
@[simp] theorem State.modTmr_was (s : State) (k : Fin 8) (f : Timer → Timer) : (s.modTmr k f).was = s.was := rfl
@[simp] theorem State.modTmr_clu (s : State) (k : Fin 8) (f : Timer → Timer) : (s.modTmr k f).clu = s.clu := rfl
@[simp] theorem State.modTmr_wl (s : State) (k : Fin 8) (f : Timer → Timer) : (s.modTmr k f).wl = s.wl := rfl
@[simp] theorem State.modTmr_gov (s : State) (k : Fin 8) (f : Timer → Timer) : (s.modTmr k f).gov = s.gov := rfl
@[simp] theorem State.modTmr_pg (s : State) (k : Fin 8) (f : Timer → Timer) : (s.modTmr k f).pg = s.pg := rfl
@[simp] theorem State.modTmr_pin (s : State) (k : Fin 8) (f : Timer → Timer) : (s.modTmr k f).pin = s.pin := rfl
@[simp] theorem State.modTmr_lvl (s : State) (k : Fin 8) (f : Timer → Timer) : (s.modTmr k f).lvl = s.lvl := rfl
@[simp] theorem State.modTmr_lg (s : State) (k : Fin 8) (f : Timer → Timer) : (s.modTmr k f).lg = s.lg := rfl
@[simp] theorem State.modTmr_mon (s : State) (k : Fin 8) (f : Timer → Timer) : (s.modTmr k f).mon = s.mon := rfl
@[simp] theorem State.modTmr_link (s : State) (k : Fin 8) (f : Timer → Timer) : (s.modTmr k f).link = s.link := rfl
@[simp] theorem State.modTmr_dram (s : State) (k : Fin 8) (f : Timer → Timer) : (s.modTmr k f).dram = s.dram := rfl
@[simp] theorem State.modTmr_mem (s : State) (k : Fin 8) (f : Timer → Timer) : (s.modTmr k f).mem = s.mem := rfl
@[simp] theorem State.modTmr_host (s : State) (k : Fin 8) (f : Timer → Timer) : (s.modTmr k f).host = s.host := rfl
@[simp] theorem State.modTmr_flt (s : State) (k : Fin 8) (f : Timer → Timer) : (s.modTmr k f).flt = s.flt := rfl
@[simp] theorem State.modTmr_plc (s : State) (k : Fin 8) (f : Timer → Timer) : (s.modTmr k f).plc = s.plc := rfl
@[simp] theorem State.modTmr_jtag (s : State) (k : Fin 8) (f : Timer → Timer) : (s.modTmr k f).jtag = s.jtag := rfl
@[simp] theorem State.modTmr_smb (s : State) (k : Fin 8) (f : Timer → Timer) : (s.modTmr k f).smb = s.smb := rfl
@[simp] theorem State.modTmr_undef (s : State) (k : Fin 8) (f : Timer → Timer) : (s.modTmr k f).undef = s.undef := rfl
@[simp] theorem State.modTmr_freeN (s : State) (k : Fin 8) (f : Timer → Timer) : (s.modTmr k f).freeN = s.freeN := rfl
@[simp] theorem State.modTmr_pending (s : State) (k : Fin 8) (f : Timer → Timer) : (s.modTmr k f).pending = s.pending := rfl
/-! ### State.modPort -/
@[simp] theorem State.modPort_part (s : State) (p : Fin 4) (f : Port → Port) : (s.modPort p f).part = s.part := rfl
@[simp] theorem State.modPort_clk (s : State) (p : Fin 4) (f : Port → Port) : (s.modPort p f).clk = s.clk := rfl
@[simp] theorem State.modPort_pwr (s : State) (p : Fin 4) (f : Port → Port) : (s.modPort p f).pwr = s.pwr := rfl
@[simp] theorem State.modPort_img (s : State) (p : Fin 4) (f : Port → Port) : (s.modPort p f).img = s.img := rfl
@[simp] theorem State.modPort_ovl (s : State) (p : Fin 4) (f : Port → Port) : (s.modPort p f).ovl = s.ovl := rfl
@[simp] theorem State.modPort_trg (s : State) (p : Fin 4) (f : Port → Port) : (s.modPort p f).trg = s.trg := rfl
@[simp] theorem State.modPort_cfg (s : State) (p : Fin 4) (f : Port → Port) : (s.modPort p f).cfg = s.cfg := rfl
@[simp] theorem State.modPort_eff (s : State) (p : Fin 4) (f : Port → Port) : (s.modPort p f).eff = s.eff := rfl
@[simp] theorem State.modPort_flg (s : State) (p : Fin 4) (f : Port → Port) : (s.modPort p f).flg = s.flg := rfl
@[simp] theorem State.modPort_ctr (s : State) (p : Fin 4) (f : Port → Port) : (s.modPort p f).ctr = s.ctr := rfl
@[simp] theorem State.modPort_cmd (s : State) (p : Fin 4) (f : Port → Port) : (s.modPort p f).cmd = s.cmd := rfl
@[simp] theorem State.modPort_more (s : State) (p : Fin 4) (f : Port → Port) : (s.modPort p f).more = s.more := rfl
@[simp] theorem State.modPort_errAddr (s : State) (p : Fin 4) (f : Port → Port) : (s.modPort p f).errAddr = s.errAddr := rfl
@[simp] theorem State.modPort_errWrite (s : State) (p : Fin 4) (f : Port → Port) : (s.modPort p f).errWrite = s.errWrite := rfl
@[simp] theorem State.modPort_tabs (s : State) (p : Fin 4) (f : Port → Port) : (s.modPort p f).tabs = s.tabs := rfl
@[simp] theorem State.modPort_was (s : State) (p : Fin 4) (f : Port → Port) : (s.modPort p f).was = s.was := rfl
@[simp] theorem State.modPort_clu (s : State) (p : Fin 4) (f : Port → Port) : (s.modPort p f).clu = s.clu := rfl
@[simp] theorem State.modPort_wl (s : State) (p : Fin 4) (f : Port → Port) : (s.modPort p f).wl = s.wl := rfl
@[simp] theorem State.modPort_gov (s : State) (p : Fin 4) (f : Port → Port) : (s.modPort p f).gov = s.gov := rfl
@[simp] theorem State.modPort_pg (s : State) (p : Fin 4) (f : Port → Port) : (s.modPort p f).pg = s.pg := rfl
@[simp] theorem State.modPort_pin (s : State) (p : Fin 4) (f : Port → Port) : (s.modPort p f).pin = s.pin := rfl
@[simp] theorem State.modPort_lvl (s : State) (p : Fin 4) (f : Port → Port) : (s.modPort p f).lvl = s.lvl := rfl
@[simp] theorem State.modPort_lg (s : State) (p : Fin 4) (f : Port → Port) : (s.modPort p f).lg = s.lg := rfl
@[simp] theorem State.modPort_mon (s : State) (p : Fin 4) (f : Port → Port) : (s.modPort p f).mon = s.mon := rfl
@[simp] theorem State.modPort_brg (s : State) (p : Fin 4) (f : Port → Port) : (s.modPort p f).brg = s.brg := rfl
@[simp] theorem State.modPort_dram (s : State) (p : Fin 4) (f : Port → Port) : (s.modPort p f).dram = s.dram := rfl
@[simp] theorem State.modPort_mem (s : State) (p : Fin 4) (f : Port → Port) : (s.modPort p f).mem = s.mem := rfl
@[simp] theorem State.modPort_host (s : State) (p : Fin 4) (f : Port → Port) : (s.modPort p f).host = s.host := rfl
@[simp] theorem State.modPort_flt (s : State) (p : Fin 4) (f : Port → Port) : (s.modPort p f).flt = s.flt := rfl
@[simp] theorem State.modPort_plc (s : State) (p : Fin 4) (f : Port → Port) : (s.modPort p f).plc = s.plc := rfl
@[simp] theorem State.modPort_jtag (s : State) (p : Fin 4) (f : Port → Port) : (s.modPort p f).jtag = s.jtag := rfl
@[simp] theorem State.modPort_smb (s : State) (p : Fin 4) (f : Port → Port) : (s.modPort p f).smb = s.smb := rfl
@[simp] theorem State.modPort_undef (s : State) (p : Fin 4) (f : Port → Port) : (s.modPort p f).undef = s.undef := rfl
@[simp] theorem State.modPort_freeN (s : State) (p : Fin 4) (f : Port → Port) : (s.modPort p f).freeN = s.freeN := rfl
@[simp] theorem State.modPort_pending (s : State) (p : Fin 4) (f : Port → Port) : (s.modPort p f).pending = s.pending := rfl
/-! ### State.modChan -/
@[simp] theorem State.modChan_part (s : State) (g : Chan) (f : DramChan → DramChan) : (s.modChan g f).part = s.part := rfl
@[simp] theorem State.modChan_clk (s : State) (g : Chan) (f : DramChan → DramChan) : (s.modChan g f).clk = s.clk := rfl
@[simp] theorem State.modChan_pwr (s : State) (g : Chan) (f : DramChan → DramChan) : (s.modChan g f).pwr = s.pwr := rfl
@[simp] theorem State.modChan_img (s : State) (g : Chan) (f : DramChan → DramChan) : (s.modChan g f).img = s.img := rfl
@[simp] theorem State.modChan_ovl (s : State) (g : Chan) (f : DramChan → DramChan) : (s.modChan g f).ovl = s.ovl := rfl
@[simp] theorem State.modChan_trg (s : State) (g : Chan) (f : DramChan → DramChan) : (s.modChan g f).trg = s.trg := rfl
@[simp] theorem State.modChan_cfg (s : State) (g : Chan) (f : DramChan → DramChan) : (s.modChan g f).cfg = s.cfg := rfl
@[simp] theorem State.modChan_eff (s : State) (g : Chan) (f : DramChan → DramChan) : (s.modChan g f).eff = s.eff := rfl
@[simp] theorem State.modChan_flg (s : State) (g : Chan) (f : DramChan → DramChan) : (s.modChan g f).flg = s.flg := rfl
@[simp] theorem State.modChan_ctr (s : State) (g : Chan) (f : DramChan → DramChan) : (s.modChan g f).ctr = s.ctr := rfl
@[simp] theorem State.modChan_cmd (s : State) (g : Chan) (f : DramChan → DramChan) : (s.modChan g f).cmd = s.cmd := rfl
@[simp] theorem State.modChan_more (s : State) (g : Chan) (f : DramChan → DramChan) : (s.modChan g f).more = s.more := rfl
@[simp] theorem State.modChan_errAddr (s : State) (g : Chan) (f : DramChan → DramChan) : (s.modChan g f).errAddr = s.errAddr := rfl
@[simp] theorem State.modChan_errWrite (s : State) (g : Chan) (f : DramChan → DramChan) : (s.modChan g f).errWrite = s.errWrite := rfl
@[simp] theorem State.modChan_tabs (s : State) (g : Chan) (f : DramChan → DramChan) : (s.modChan g f).tabs = s.tabs := rfl
@[simp] theorem State.modChan_was (s : State) (g : Chan) (f : DramChan → DramChan) : (s.modChan g f).was = s.was := rfl
@[simp] theorem State.modChan_clu (s : State) (g : Chan) (f : DramChan → DramChan) : (s.modChan g f).clu = s.clu := rfl
@[simp] theorem State.modChan_wl (s : State) (g : Chan) (f : DramChan → DramChan) : (s.modChan g f).wl = s.wl := rfl
@[simp] theorem State.modChan_gov (s : State) (g : Chan) (f : DramChan → DramChan) : (s.modChan g f).gov = s.gov := rfl
@[simp] theorem State.modChan_pg (s : State) (g : Chan) (f : DramChan → DramChan) : (s.modChan g f).pg = s.pg := rfl
@[simp] theorem State.modChan_pin (s : State) (g : Chan) (f : DramChan → DramChan) : (s.modChan g f).pin = s.pin := rfl
@[simp] theorem State.modChan_lvl (s : State) (g : Chan) (f : DramChan → DramChan) : (s.modChan g f).lvl = s.lvl := rfl
@[simp] theorem State.modChan_lg (s : State) (g : Chan) (f : DramChan → DramChan) : (s.modChan g f).lg = s.lg := rfl
@[simp] theorem State.modChan_mon (s : State) (g : Chan) (f : DramChan → DramChan) : (s.modChan g f).mon = s.mon := rfl
@[simp] theorem State.modChan_brg (s : State) (g : Chan) (f : DramChan → DramChan) : (s.modChan g f).brg = s.brg := rfl
@[simp] theorem State.modChan_link (s : State) (g : Chan) (f : DramChan → DramChan) : (s.modChan g f).link = s.link := rfl
@[simp] theorem State.modChan_mem (s : State) (g : Chan) (f : DramChan → DramChan) : (s.modChan g f).mem = s.mem := rfl
@[simp] theorem State.modChan_host (s : State) (g : Chan) (f : DramChan → DramChan) : (s.modChan g f).host = s.host := rfl
@[simp] theorem State.modChan_flt (s : State) (g : Chan) (f : DramChan → DramChan) : (s.modChan g f).flt = s.flt := rfl
@[simp] theorem State.modChan_plc (s : State) (g : Chan) (f : DramChan → DramChan) : (s.modChan g f).plc = s.plc := rfl
@[simp] theorem State.modChan_jtag (s : State) (g : Chan) (f : DramChan → DramChan) : (s.modChan g f).jtag = s.jtag := rfl
@[simp] theorem State.modChan_smb (s : State) (g : Chan) (f : DramChan → DramChan) : (s.modChan g f).smb = s.smb := rfl
@[simp] theorem State.modChan_undef (s : State) (g : Chan) (f : DramChan → DramChan) : (s.modChan g f).undef = s.undef := rfl
@[simp] theorem State.modChan_freeN (s : State) (g : Chan) (f : DramChan → DramChan) : (s.modChan g f).freeN = s.freeN := rfl
@[simp] theorem State.modChan_pending (s : State) (g : Chan) (f : DramChan → DramChan) : (s.modChan g f).pending = s.pending := rfl
/-! ### State.modCtx -/
@[simp] theorem State.modCtx_part (s : State) (c : Ctx) (f : Stream → Stream) : (s.modCtx c f).part = s.part := rfl
@[simp] theorem State.modCtx_clk (s : State) (c : Ctx) (f : Stream → Stream) : (s.modCtx c f).clk = s.clk := rfl
@[simp] theorem State.modCtx_pwr (s : State) (c : Ctx) (f : Stream → Stream) : (s.modCtx c f).pwr = s.pwr := rfl
@[simp] theorem State.modCtx_img (s : State) (c : Ctx) (f : Stream → Stream) : (s.modCtx c f).img = s.img := rfl
@[simp] theorem State.modCtx_ovl (s : State) (c : Ctx) (f : Stream → Stream) : (s.modCtx c f).ovl = s.ovl := rfl
@[simp] theorem State.modCtx_trg (s : State) (c : Ctx) (f : Stream → Stream) : (s.modCtx c f).trg = s.trg := rfl
@[simp] theorem State.modCtx_cfg (s : State) (c : Ctx) (f : Stream → Stream) : (s.modCtx c f).cfg = s.cfg := rfl
@[simp] theorem State.modCtx_eff (s : State) (c : Ctx) (f : Stream → Stream) : (s.modCtx c f).eff = s.eff := rfl
@[simp] theorem State.modCtx_flg (s : State) (c : Ctx) (f : Stream → Stream) : (s.modCtx c f).flg = s.flg := rfl
@[simp] theorem State.modCtx_ctr (s : State) (c : Ctx) (f : Stream → Stream) : (s.modCtx c f).ctr = s.ctr := rfl
@[simp] theorem State.modCtx_cmd (s : State) (c : Ctx) (f : Stream → Stream) : (s.modCtx c f).cmd = s.cmd := rfl
@[simp] theorem State.modCtx_more (s : State) (c : Ctx) (f : Stream → Stream) : (s.modCtx c f).more = s.more := rfl
@[simp] theorem State.modCtx_errAddr (s : State) (c : Ctx) (f : Stream → Stream) : (s.modCtx c f).errAddr = s.errAddr := rfl
@[simp] theorem State.modCtx_errWrite (s : State) (c : Ctx) (f : Stream → Stream) : (s.modCtx c f).errWrite = s.errWrite := rfl
@[simp] theorem State.modCtx_tabs (s : State) (c : Ctx) (f : Stream → Stream) : (s.modCtx c f).tabs = s.tabs := rfl
@[simp] theorem State.modCtx_was (s : State) (c : Ctx) (f : Stream → Stream) : (s.modCtx c f).was = s.was := rfl
@[simp] theorem State.modCtx_clu (s : State) (c : Ctx) (f : Stream → Stream) : (s.modCtx c f).clu = s.clu := rfl
@[simp] theorem State.modCtx_wl (s : State) (c : Ctx) (f : Stream → Stream) : (s.modCtx c f).wl = s.wl := rfl
@[simp] theorem State.modCtx_gov (s : State) (c : Ctx) (f : Stream → Stream) : (s.modCtx c f).gov = s.gov := rfl
@[simp] theorem State.modCtx_pg (s : State) (c : Ctx) (f : Stream → Stream) : (s.modCtx c f).pg = s.pg := rfl
@[simp] theorem State.modCtx_pin (s : State) (c : Ctx) (f : Stream → Stream) : (s.modCtx c f).pin = s.pin := rfl
@[simp] theorem State.modCtx_lvl (s : State) (c : Ctx) (f : Stream → Stream) : (s.modCtx c f).lvl = s.lvl := rfl
@[simp] theorem State.modCtx_lg (s : State) (c : Ctx) (f : Stream → Stream) : (s.modCtx c f).lg = s.lg := rfl
@[simp] theorem State.modCtx_mon (s : State) (c : Ctx) (f : Stream → Stream) : (s.modCtx c f).mon = s.mon := rfl
@[simp] theorem State.modCtx_brg (s : State) (c : Ctx) (f : Stream → Stream) : (s.modCtx c f).brg = s.brg := rfl
@[simp] theorem State.modCtx_link (s : State) (c : Ctx) (f : Stream → Stream) : (s.modCtx c f).link = s.link := rfl
@[simp] theorem State.modCtx_dram (s : State) (c : Ctx) (f : Stream → Stream) : (s.modCtx c f).dram = s.dram := rfl
@[simp] theorem State.modCtx_mem (s : State) (c : Ctx) (f : Stream → Stream) : (s.modCtx c f).mem = s.mem := rfl
@[simp] theorem State.modCtx_flt (s : State) (c : Ctx) (f : Stream → Stream) : (s.modCtx c f).flt = s.flt := rfl
@[simp] theorem State.modCtx_plc (s : State) (c : Ctx) (f : Stream → Stream) : (s.modCtx c f).plc = s.plc := rfl
@[simp] theorem State.modCtx_jtag (s : State) (c : Ctx) (f : Stream → Stream) : (s.modCtx c f).jtag = s.jtag := rfl
@[simp] theorem State.modCtx_smb (s : State) (c : Ctx) (f : Stream → Stream) : (s.modCtx c f).smb = s.smb := rfl
@[simp] theorem State.modCtx_undef (s : State) (c : Ctx) (f : Stream → Stream) : (s.modCtx c f).undef = s.undef := rfl
@[simp] theorem State.modCtx_freeN (s : State) (c : Ctx) (f : Stream → Stream) : (s.modCtx c f).freeN = s.freeN := rfl
@[simp] theorem State.modCtx_pending (s : State) (c : Ctx) (f : Stream → Stream) : (s.modCtx c f).pending = s.pending := rfl
/-! ### State.modSlot -/
@[simp] theorem State.modSlot_part (s : State) (k : Fin 16) (f : OvlSlot → OvlSlot) : (s.modSlot k f).part = s.part := rfl
@[simp] theorem State.modSlot_clk (s : State) (k : Fin 16) (f : OvlSlot → OvlSlot) : (s.modSlot k f).clk = s.clk := rfl
@[simp] theorem State.modSlot_pwr (s : State) (k : Fin 16) (f : OvlSlot → OvlSlot) : (s.modSlot k f).pwr = s.pwr := rfl
@[simp] theorem State.modSlot_img (s : State) (k : Fin 16) (f : OvlSlot → OvlSlot) : (s.modSlot k f).img = s.img := rfl
@[simp] theorem State.modSlot_trg (s : State) (k : Fin 16) (f : OvlSlot → OvlSlot) : (s.modSlot k f).trg = s.trg := rfl
@[simp] theorem State.modSlot_cfg (s : State) (k : Fin 16) (f : OvlSlot → OvlSlot) : (s.modSlot k f).cfg = s.cfg := rfl
@[simp] theorem State.modSlot_eff (s : State) (k : Fin 16) (f : OvlSlot → OvlSlot) : (s.modSlot k f).eff = s.eff := rfl
@[simp] theorem State.modSlot_flg (s : State) (k : Fin 16) (f : OvlSlot → OvlSlot) : (s.modSlot k f).flg = s.flg := rfl
@[simp] theorem State.modSlot_ctr (s : State) (k : Fin 16) (f : OvlSlot → OvlSlot) : (s.modSlot k f).ctr = s.ctr := rfl
@[simp] theorem State.modSlot_cmd (s : State) (k : Fin 16) (f : OvlSlot → OvlSlot) : (s.modSlot k f).cmd = s.cmd := rfl
@[simp] theorem State.modSlot_more (s : State) (k : Fin 16) (f : OvlSlot → OvlSlot) : (s.modSlot k f).more = s.more := rfl
@[simp] theorem State.modSlot_errAddr (s : State) (k : Fin 16) (f : OvlSlot → OvlSlot) : (s.modSlot k f).errAddr = s.errAddr := rfl
@[simp] theorem State.modSlot_errWrite (s : State) (k : Fin 16) (f : OvlSlot → OvlSlot) : (s.modSlot k f).errWrite = s.errWrite := rfl
@[simp] theorem State.modSlot_tabs (s : State) (k : Fin 16) (f : OvlSlot → OvlSlot) : (s.modSlot k f).tabs = s.tabs := rfl
@[simp] theorem State.modSlot_was (s : State) (k : Fin 16) (f : OvlSlot → OvlSlot) : (s.modSlot k f).was = s.was := rfl
@[simp] theorem State.modSlot_clu (s : State) (k : Fin 16) (f : OvlSlot → OvlSlot) : (s.modSlot k f).clu = s.clu := rfl
@[simp] theorem State.modSlot_wl (s : State) (k : Fin 16) (f : OvlSlot → OvlSlot) : (s.modSlot k f).wl = s.wl := rfl
@[simp] theorem State.modSlot_gov (s : State) (k : Fin 16) (f : OvlSlot → OvlSlot) : (s.modSlot k f).gov = s.gov := rfl
@[simp] theorem State.modSlot_pg (s : State) (k : Fin 16) (f : OvlSlot → OvlSlot) : (s.modSlot k f).pg = s.pg := rfl
@[simp] theorem State.modSlot_pin (s : State) (k : Fin 16) (f : OvlSlot → OvlSlot) : (s.modSlot k f).pin = s.pin := rfl
@[simp] theorem State.modSlot_lvl (s : State) (k : Fin 16) (f : OvlSlot → OvlSlot) : (s.modSlot k f).lvl = s.lvl := rfl
@[simp] theorem State.modSlot_lg (s : State) (k : Fin 16) (f : OvlSlot → OvlSlot) : (s.modSlot k f).lg = s.lg := rfl
@[simp] theorem State.modSlot_mon (s : State) (k : Fin 16) (f : OvlSlot → OvlSlot) : (s.modSlot k f).mon = s.mon := rfl
@[simp] theorem State.modSlot_brg (s : State) (k : Fin 16) (f : OvlSlot → OvlSlot) : (s.modSlot k f).brg = s.brg := rfl
@[simp] theorem State.modSlot_link (s : State) (k : Fin 16) (f : OvlSlot → OvlSlot) : (s.modSlot k f).link = s.link := rfl
@[simp] theorem State.modSlot_dram (s : State) (k : Fin 16) (f : OvlSlot → OvlSlot) : (s.modSlot k f).dram = s.dram := rfl
@[simp] theorem State.modSlot_mem (s : State) (k : Fin 16) (f : OvlSlot → OvlSlot) : (s.modSlot k f).mem = s.mem := rfl
@[simp] theorem State.modSlot_host (s : State) (k : Fin 16) (f : OvlSlot → OvlSlot) : (s.modSlot k f).host = s.host := rfl
@[simp] theorem State.modSlot_flt (s : State) (k : Fin 16) (f : OvlSlot → OvlSlot) : (s.modSlot k f).flt = s.flt := rfl
@[simp] theorem State.modSlot_plc (s : State) (k : Fin 16) (f : OvlSlot → OvlSlot) : (s.modSlot k f).plc = s.plc := rfl
@[simp] theorem State.modSlot_jtag (s : State) (k : Fin 16) (f : OvlSlot → OvlSlot) : (s.modSlot k f).jtag = s.jtag := rfl
@[simp] theorem State.modSlot_smb (s : State) (k : Fin 16) (f : OvlSlot → OvlSlot) : (s.modSlot k f).smb = s.smb := rfl
@[simp] theorem State.modSlot_undef (s : State) (k : Fin 16) (f : OvlSlot → OvlSlot) : (s.modSlot k f).undef = s.undef := rfl
@[simp] theorem State.modSlot_freeN (s : State) (k : Fin 16) (f : OvlSlot → OvlSlot) : (s.modSlot k f).freeN = s.freeN := rfl
@[simp] theorem State.modSlot_pending (s : State) (k : Fin 16) (f : OvlSlot → OvlSlot) : (s.modSlot k f).pending = s.pending := rfl
/-! ### State.modBrg -/
@[simp] theorem State.modBrg_part (s : State) (f : Bridge → Bridge) : (s.modBrg f).part = s.part := rfl
@[simp] theorem State.modBrg_clk (s : State) (f : Bridge → Bridge) : (s.modBrg f).clk = s.clk := rfl
@[simp] theorem State.modBrg_pwr (s : State) (f : Bridge → Bridge) : (s.modBrg f).pwr = s.pwr := rfl
@[simp] theorem State.modBrg_img (s : State) (f : Bridge → Bridge) : (s.modBrg f).img = s.img := rfl
@[simp] theorem State.modBrg_ovl (s : State) (f : Bridge → Bridge) : (s.modBrg f).ovl = s.ovl := rfl
@[simp] theorem State.modBrg_trg (s : State) (f : Bridge → Bridge) : (s.modBrg f).trg = s.trg := rfl
@[simp] theorem State.modBrg_cfg (s : State) (f : Bridge → Bridge) : (s.modBrg f).cfg = s.cfg := rfl
@[simp] theorem State.modBrg_eff (s : State) (f : Bridge → Bridge) : (s.modBrg f).eff = s.eff := rfl
@[simp] theorem State.modBrg_flg (s : State) (f : Bridge → Bridge) : (s.modBrg f).flg = s.flg := rfl
@[simp] theorem State.modBrg_ctr (s : State) (f : Bridge → Bridge) : (s.modBrg f).ctr = s.ctr := rfl
@[simp] theorem State.modBrg_cmd (s : State) (f : Bridge → Bridge) : (s.modBrg f).cmd = s.cmd := rfl
@[simp] theorem State.modBrg_more (s : State) (f : Bridge → Bridge) : (s.modBrg f).more = s.more := rfl
@[simp] theorem State.modBrg_errAddr (s : State) (f : Bridge → Bridge) : (s.modBrg f).errAddr = s.errAddr := rfl
@[simp] theorem State.modBrg_errWrite (s : State) (f : Bridge → Bridge) : (s.modBrg f).errWrite = s.errWrite := rfl
@[simp] theorem State.modBrg_tabs (s : State) (f : Bridge → Bridge) : (s.modBrg f).tabs = s.tabs := rfl
@[simp] theorem State.modBrg_was (s : State) (f : Bridge → Bridge) : (s.modBrg f).was = s.was := rfl
@[simp] theorem State.modBrg_clu (s : State) (f : Bridge → Bridge) : (s.modBrg f).clu = s.clu := rfl
@[simp] theorem State.modBrg_wl (s : State) (f : Bridge → Bridge) : (s.modBrg f).wl = s.wl := rfl
@[simp] theorem State.modBrg_gov (s : State) (f : Bridge → Bridge) : (s.modBrg f).gov = s.gov := rfl
@[simp] theorem State.modBrg_pg (s : State) (f : Bridge → Bridge) : (s.modBrg f).pg = s.pg := rfl
@[simp] theorem State.modBrg_pin (s : State) (f : Bridge → Bridge) : (s.modBrg f).pin = s.pin := rfl
@[simp] theorem State.modBrg_lvl (s : State) (f : Bridge → Bridge) : (s.modBrg f).lvl = s.lvl := rfl
@[simp] theorem State.modBrg_lg (s : State) (f : Bridge → Bridge) : (s.modBrg f).lg = s.lg := rfl
@[simp] theorem State.modBrg_mon (s : State) (f : Bridge → Bridge) : (s.modBrg f).mon = s.mon := rfl
@[simp] theorem State.modBrg_link (s : State) (f : Bridge → Bridge) : (s.modBrg f).link = s.link := rfl
@[simp] theorem State.modBrg_dram (s : State) (f : Bridge → Bridge) : (s.modBrg f).dram = s.dram := rfl
@[simp] theorem State.modBrg_mem (s : State) (f : Bridge → Bridge) : (s.modBrg f).mem = s.mem := rfl
@[simp] theorem State.modBrg_host (s : State) (f : Bridge → Bridge) : (s.modBrg f).host = s.host := rfl
@[simp] theorem State.modBrg_flt (s : State) (f : Bridge → Bridge) : (s.modBrg f).flt = s.flt := rfl
@[simp] theorem State.modBrg_plc (s : State) (f : Bridge → Bridge) : (s.modBrg f).plc = s.plc := rfl
@[simp] theorem State.modBrg_jtag (s : State) (f : Bridge → Bridge) : (s.modBrg f).jtag = s.jtag := rfl
@[simp] theorem State.modBrg_smb (s : State) (f : Bridge → Bridge) : (s.modBrg f).smb = s.smb := rfl
@[simp] theorem State.modBrg_undef (s : State) (f : Bridge → Bridge) : (s.modBrg f).undef = s.undef := rfl
@[simp] theorem State.modBrg_freeN (s : State) (f : Bridge → Bridge) : (s.modBrg f).freeN = s.freeN := rfl
@[simp] theorem State.modBrg_pending (s : State) (f : Bridge → Bridge) : (s.modBrg f).pending = s.pending := rfl
/-! ### State.modLink -/
@[simp] theorem State.modLink_part (s : State) (f : Link → Link) : (s.modLink f).part = s.part := rfl
@[simp] theorem State.modLink_clk (s : State) (f : Link → Link) : (s.modLink f).clk = s.clk := rfl
@[simp] theorem State.modLink_pwr (s : State) (f : Link → Link) : (s.modLink f).pwr = s.pwr := rfl
@[simp] theorem State.modLink_img (s : State) (f : Link → Link) : (s.modLink f).img = s.img := rfl
@[simp] theorem State.modLink_ovl (s : State) (f : Link → Link) : (s.modLink f).ovl = s.ovl := rfl
@[simp] theorem State.modLink_trg (s : State) (f : Link → Link) : (s.modLink f).trg = s.trg := rfl
@[simp] theorem State.modLink_cfg (s : State) (f : Link → Link) : (s.modLink f).cfg = s.cfg := rfl
@[simp] theorem State.modLink_eff (s : State) (f : Link → Link) : (s.modLink f).eff = s.eff := rfl
@[simp] theorem State.modLink_flg (s : State) (f : Link → Link) : (s.modLink f).flg = s.flg := rfl
@[simp] theorem State.modLink_ctr (s : State) (f : Link → Link) : (s.modLink f).ctr = s.ctr := rfl
@[simp] theorem State.modLink_cmd (s : State) (f : Link → Link) : (s.modLink f).cmd = s.cmd := rfl
@[simp] theorem State.modLink_more (s : State) (f : Link → Link) : (s.modLink f).more = s.more := rfl
@[simp] theorem State.modLink_errAddr (s : State) (f : Link → Link) : (s.modLink f).errAddr = s.errAddr := rfl
@[simp] theorem State.modLink_errWrite (s : State) (f : Link → Link) : (s.modLink f).errWrite = s.errWrite := rfl
@[simp] theorem State.modLink_tabs (s : State) (f : Link → Link) : (s.modLink f).tabs = s.tabs := rfl
@[simp] theorem State.modLink_was (s : State) (f : Link → Link) : (s.modLink f).was = s.was := rfl
@[simp] theorem State.modLink_clu (s : State) (f : Link → Link) : (s.modLink f).clu = s.clu := rfl
@[simp] theorem State.modLink_wl (s : State) (f : Link → Link) : (s.modLink f).wl = s.wl := rfl
@[simp] theorem State.modLink_gov (s : State) (f : Link → Link) : (s.modLink f).gov = s.gov := rfl
@[simp] theorem State.modLink_pg (s : State) (f : Link → Link) : (s.modLink f).pg = s.pg := rfl
@[simp] theorem State.modLink_pin (s : State) (f : Link → Link) : (s.modLink f).pin = s.pin := rfl
@[simp] theorem State.modLink_lvl (s : State) (f : Link → Link) : (s.modLink f).lvl = s.lvl := rfl
@[simp] theorem State.modLink_lg (s : State) (f : Link → Link) : (s.modLink f).lg = s.lg := rfl
@[simp] theorem State.modLink_mon (s : State) (f : Link → Link) : (s.modLink f).mon = s.mon := rfl
@[simp] theorem State.modLink_brg (s : State) (f : Link → Link) : (s.modLink f).brg = s.brg := rfl
@[simp] theorem State.modLink_dram (s : State) (f : Link → Link) : (s.modLink f).dram = s.dram := rfl
@[simp] theorem State.modLink_mem (s : State) (f : Link → Link) : (s.modLink f).mem = s.mem := rfl
@[simp] theorem State.modLink_host (s : State) (f : Link → Link) : (s.modLink f).host = s.host := rfl
@[simp] theorem State.modLink_flt (s : State) (f : Link → Link) : (s.modLink f).flt = s.flt := rfl
@[simp] theorem State.modLink_plc (s : State) (f : Link → Link) : (s.modLink f).plc = s.plc := rfl
@[simp] theorem State.modLink_jtag (s : State) (f : Link → Link) : (s.modLink f).jtag = s.jtag := rfl
@[simp] theorem State.modLink_smb (s : State) (f : Link → Link) : (s.modLink f).smb = s.smb := rfl
@[simp] theorem State.modLink_undef (s : State) (f : Link → Link) : (s.modLink f).undef = s.undef := rfl
@[simp] theorem State.modLink_freeN (s : State) (f : Link → Link) : (s.modLink f).freeN = s.freeN := rfl
@[simp] theorem State.modLink_pending (s : State) (f : Link → Link) : (s.modLink f).pending = s.pending := rfl
/-! ### State.modPlc -/
@[simp] theorem State.modPlc_part (s : State) (f : Placement → Placement) : (s.modPlc f).part = s.part := rfl
@[simp] theorem State.modPlc_clk (s : State) (f : Placement → Placement) : (s.modPlc f).clk = s.clk := rfl
@[simp] theorem State.modPlc_pwr (s : State) (f : Placement → Placement) : (s.modPlc f).pwr = s.pwr := rfl
@[simp] theorem State.modPlc_img (s : State) (f : Placement → Placement) : (s.modPlc f).img = s.img := rfl
@[simp] theorem State.modPlc_ovl (s : State) (f : Placement → Placement) : (s.modPlc f).ovl = s.ovl := rfl
@[simp] theorem State.modPlc_trg (s : State) (f : Placement → Placement) : (s.modPlc f).trg = s.trg := rfl
@[simp] theorem State.modPlc_cfg (s : State) (f : Placement → Placement) : (s.modPlc f).cfg = s.cfg := rfl
@[simp] theorem State.modPlc_eff (s : State) (f : Placement → Placement) : (s.modPlc f).eff = s.eff := rfl
@[simp] theorem State.modPlc_flg (s : State) (f : Placement → Placement) : (s.modPlc f).flg = s.flg := rfl
@[simp] theorem State.modPlc_ctr (s : State) (f : Placement → Placement) : (s.modPlc f).ctr = s.ctr := rfl
@[simp] theorem State.modPlc_cmd (s : State) (f : Placement → Placement) : (s.modPlc f).cmd = s.cmd := rfl
@[simp] theorem State.modPlc_more (s : State) (f : Placement → Placement) : (s.modPlc f).more = s.more := rfl
@[simp] theorem State.modPlc_errAddr (s : State) (f : Placement → Placement) : (s.modPlc f).errAddr = s.errAddr := rfl
@[simp] theorem State.modPlc_errWrite (s : State) (f : Placement → Placement) : (s.modPlc f).errWrite = s.errWrite := rfl
@[simp] theorem State.modPlc_tabs (s : State) (f : Placement → Placement) : (s.modPlc f).tabs = s.tabs := rfl
@[simp] theorem State.modPlc_was (s : State) (f : Placement → Placement) : (s.modPlc f).was = s.was := rfl
@[simp] theorem State.modPlc_clu (s : State) (f : Placement → Placement) : (s.modPlc f).clu = s.clu := rfl
@[simp] theorem State.modPlc_wl (s : State) (f : Placement → Placement) : (s.modPlc f).wl = s.wl := rfl
@[simp] theorem State.modPlc_gov (s : State) (f : Placement → Placement) : (s.modPlc f).gov = s.gov := rfl
@[simp] theorem State.modPlc_pg (s : State) (f : Placement → Placement) : (s.modPlc f).pg = s.pg := rfl
@[simp] theorem State.modPlc_pin (s : State) (f : Placement → Placement) : (s.modPlc f).pin = s.pin := rfl
@[simp] theorem State.modPlc_lvl (s : State) (f : Placement → Placement) : (s.modPlc f).lvl = s.lvl := rfl
@[simp] theorem State.modPlc_lg (s : State) (f : Placement → Placement) : (s.modPlc f).lg = s.lg := rfl
@[simp] theorem State.modPlc_mon (s : State) (f : Placement → Placement) : (s.modPlc f).mon = s.mon := rfl
@[simp] theorem State.modPlc_brg (s : State) (f : Placement → Placement) : (s.modPlc f).brg = s.brg := rfl
@[simp] theorem State.modPlc_link (s : State) (f : Placement → Placement) : (s.modPlc f).link = s.link := rfl
@[simp] theorem State.modPlc_dram (s : State) (f : Placement → Placement) : (s.modPlc f).dram = s.dram := rfl
@[simp] theorem State.modPlc_mem (s : State) (f : Placement → Placement) : (s.modPlc f).mem = s.mem := rfl
@[simp] theorem State.modPlc_host (s : State) (f : Placement → Placement) : (s.modPlc f).host = s.host := rfl
@[simp] theorem State.modPlc_flt (s : State) (f : Placement → Placement) : (s.modPlc f).flt = s.flt := rfl
@[simp] theorem State.modPlc_jtag (s : State) (f : Placement → Placement) : (s.modPlc f).jtag = s.jtag := rfl
@[simp] theorem State.modPlc_smb (s : State) (f : Placement → Placement) : (s.modPlc f).smb = s.smb := rfl
@[simp] theorem State.modPlc_undef (s : State) (f : Placement → Placement) : (s.modPlc f).undef = s.undef := rfl
@[simp] theorem State.modPlc_freeN (s : State) (f : Placement → Placement) : (s.modPlc f).freeN = s.freeN := rfl
@[simp] theorem State.modPlc_pending (s : State) (f : Placement → Placement) : (s.modPlc f).pending = s.pending := rfl
/-! ### State.modMem -/
@[simp] theorem State.modMem_part (s : State) (f : Mem → Mem) : (s.modMem f).part = s.part := rfl
@[simp] theorem State.modMem_clk (s : State) (f : Mem → Mem) : (s.modMem f).clk = s.clk := rfl
@[simp] theorem State.modMem_pwr (s : State) (f : Mem → Mem) : (s.modMem f).pwr = s.pwr := rfl
@[simp] theorem State.modMem_img (s : State) (f : Mem → Mem) : (s.modMem f).img = s.img := rfl
@[simp] theorem State.modMem_ovl (s : State) (f : Mem → Mem) : (s.modMem f).ovl = s.ovl := rfl
@[simp] theorem State.modMem_trg (s : State) (f : Mem → Mem) : (s.modMem f).trg = s.trg := rfl
@[simp] theorem State.modMem_cfg (s : State) (f : Mem → Mem) : (s.modMem f).cfg = s.cfg := rfl
@[simp] theorem State.modMem_eff (s : State) (f : Mem → Mem) : (s.modMem f).eff = s.eff := rfl
@[simp] theorem State.modMem_flg (s : State) (f : Mem → Mem) : (s.modMem f).flg = s.flg := rfl
@[simp] theorem State.modMem_ctr (s : State) (f : Mem → Mem) : (s.modMem f).ctr = s.ctr := rfl
@[simp] theorem State.modMem_cmd (s : State) (f : Mem → Mem) : (s.modMem f).cmd = s.cmd := rfl
@[simp] theorem State.modMem_more (s : State) (f : Mem → Mem) : (s.modMem f).more = s.more := rfl
@[simp] theorem State.modMem_errAddr (s : State) (f : Mem → Mem) : (s.modMem f).errAddr = s.errAddr := rfl
@[simp] theorem State.modMem_errWrite (s : State) (f : Mem → Mem) : (s.modMem f).errWrite = s.errWrite := rfl
@[simp] theorem State.modMem_tabs (s : State) (f : Mem → Mem) : (s.modMem f).tabs = s.tabs := rfl
@[simp] theorem State.modMem_was (s : State) (f : Mem → Mem) : (s.modMem f).was = s.was := rfl
@[simp] theorem State.modMem_clu (s : State) (f : Mem → Mem) : (s.modMem f).clu = s.clu := rfl
@[simp] theorem State.modMem_wl (s : State) (f : Mem → Mem) : (s.modMem f).wl = s.wl := rfl
@[simp] theorem State.modMem_gov (s : State) (f : Mem → Mem) : (s.modMem f).gov = s.gov := rfl
@[simp] theorem State.modMem_pg (s : State) (f : Mem → Mem) : (s.modMem f).pg = s.pg := rfl
@[simp] theorem State.modMem_pin (s : State) (f : Mem → Mem) : (s.modMem f).pin = s.pin := rfl
@[simp] theorem State.modMem_lvl (s : State) (f : Mem → Mem) : (s.modMem f).lvl = s.lvl := rfl
@[simp] theorem State.modMem_lg (s : State) (f : Mem → Mem) : (s.modMem f).lg = s.lg := rfl
@[simp] theorem State.modMem_mon (s : State) (f : Mem → Mem) : (s.modMem f).mon = s.mon := rfl
@[simp] theorem State.modMem_brg (s : State) (f : Mem → Mem) : (s.modMem f).brg = s.brg := rfl
@[simp] theorem State.modMem_link (s : State) (f : Mem → Mem) : (s.modMem f).link = s.link := rfl
@[simp] theorem State.modMem_dram (s : State) (f : Mem → Mem) : (s.modMem f).dram = s.dram := rfl
@[simp] theorem State.modMem_host (s : State) (f : Mem → Mem) : (s.modMem f).host = s.host := rfl
@[simp] theorem State.modMem_flt (s : State) (f : Mem → Mem) : (s.modMem f).flt = s.flt := rfl
@[simp] theorem State.modMem_plc (s : State) (f : Mem → Mem) : (s.modMem f).plc = s.plc := rfl
@[simp] theorem State.modMem_jtag (s : State) (f : Mem → Mem) : (s.modMem f).jtag = s.jtag := rfl
@[simp] theorem State.modMem_smb (s : State) (f : Mem → Mem) : (s.modMem f).smb = s.smb := rfl
@[simp] theorem State.modMem_undef (s : State) (f : Mem → Mem) : (s.modMem f).undef = s.undef := rfl
@[simp] theorem State.modMem_freeN (s : State) (f : Mem → Mem) : (s.modMem f).freeN = s.freeN := rfl
@[simp] theorem State.modMem_pending (s : State) (f : Mem → Mem) : (s.modMem f).pending = s.pending := rfl
/-! ### State.modPwr -/
@[simp] theorem State.modPwr_part (s : State) (f : Power → Power) : (s.modPwr f).part = s.part := rfl
@[simp] theorem State.modPwr_clk (s : State) (f : Power → Power) : (s.modPwr f).clk = s.clk := rfl
@[simp] theorem State.modPwr_img (s : State) (f : Power → Power) : (s.modPwr f).img = s.img := rfl
@[simp] theorem State.modPwr_ovl (s : State) (f : Power → Power) : (s.modPwr f).ovl = s.ovl := rfl
@[simp] theorem State.modPwr_trg (s : State) (f : Power → Power) : (s.modPwr f).trg = s.trg := rfl
@[simp] theorem State.modPwr_cfg (s : State) (f : Power → Power) : (s.modPwr f).cfg = s.cfg := rfl
@[simp] theorem State.modPwr_eff (s : State) (f : Power → Power) : (s.modPwr f).eff = s.eff := rfl
@[simp] theorem State.modPwr_flg (s : State) (f : Power → Power) : (s.modPwr f).flg = s.flg := rfl
@[simp] theorem State.modPwr_ctr (s : State) (f : Power → Power) : (s.modPwr f).ctr = s.ctr := rfl
@[simp] theorem State.modPwr_cmd (s : State) (f : Power → Power) : (s.modPwr f).cmd = s.cmd := rfl
@[simp] theorem State.modPwr_more (s : State) (f : Power → Power) : (s.modPwr f).more = s.more := rfl
@[simp] theorem State.modPwr_errAddr (s : State) (f : Power → Power) : (s.modPwr f).errAddr = s.errAddr := rfl
@[simp] theorem State.modPwr_errWrite (s : State) (f : Power → Power) : (s.modPwr f).errWrite = s.errWrite := rfl
@[simp] theorem State.modPwr_tabs (s : State) (f : Power → Power) : (s.modPwr f).tabs = s.tabs := rfl
@[simp] theorem State.modPwr_was (s : State) (f : Power → Power) : (s.modPwr f).was = s.was := rfl
@[simp] theorem State.modPwr_clu (s : State) (f : Power → Power) : (s.modPwr f).clu = s.clu := rfl
@[simp] theorem State.modPwr_wl (s : State) (f : Power → Power) : (s.modPwr f).wl = s.wl := rfl
@[simp] theorem State.modPwr_gov (s : State) (f : Power → Power) : (s.modPwr f).gov = s.gov := rfl
@[simp] theorem State.modPwr_pg (s : State) (f : Power → Power) : (s.modPwr f).pg = s.pg := rfl
@[simp] theorem State.modPwr_pin (s : State) (f : Power → Power) : (s.modPwr f).pin = s.pin := rfl
@[simp] theorem State.modPwr_lvl (s : State) (f : Power → Power) : (s.modPwr f).lvl = s.lvl := rfl
@[simp] theorem State.modPwr_lg (s : State) (f : Power → Power) : (s.modPwr f).lg = s.lg := rfl
@[simp] theorem State.modPwr_mon (s : State) (f : Power → Power) : (s.modPwr f).mon = s.mon := rfl
@[simp] theorem State.modPwr_brg (s : State) (f : Power → Power) : (s.modPwr f).brg = s.brg := rfl
@[simp] theorem State.modPwr_link (s : State) (f : Power → Power) : (s.modPwr f).link = s.link := rfl
@[simp] theorem State.modPwr_dram (s : State) (f : Power → Power) : (s.modPwr f).dram = s.dram := rfl
@[simp] theorem State.modPwr_mem (s : State) (f : Power → Power) : (s.modPwr f).mem = s.mem := rfl
@[simp] theorem State.modPwr_host (s : State) (f : Power → Power) : (s.modPwr f).host = s.host := rfl
@[simp] theorem State.modPwr_flt (s : State) (f : Power → Power) : (s.modPwr f).flt = s.flt := rfl
@[simp] theorem State.modPwr_plc (s : State) (f : Power → Power) : (s.modPwr f).plc = s.plc := rfl
@[simp] theorem State.modPwr_jtag (s : State) (f : Power → Power) : (s.modPwr f).jtag = s.jtag := rfl
@[simp] theorem State.modPwr_smb (s : State) (f : Power → Power) : (s.modPwr f).smb = s.smb := rfl
@[simp] theorem State.modPwr_undef (s : State) (f : Power → Power) : (s.modPwr f).undef = s.undef := rfl
@[simp] theorem State.modPwr_freeN (s : State) (f : Power → Power) : (s.modPwr f).freeN = s.freeN := rfl
@[simp] theorem State.modPwr_pending (s : State) (f : Power → Power) : (s.modPwr f).pending = s.pending := rfl
/-! ### State.modImg -/
@[simp] theorem State.modImg_part (s : State) (f : Image → Image) : (s.modImg f).part = s.part := rfl
@[simp] theorem State.modImg_clk (s : State) (f : Image → Image) : (s.modImg f).clk = s.clk := rfl
@[simp] theorem State.modImg_pwr (s : State) (f : Image → Image) : (s.modImg f).pwr = s.pwr := rfl
@[simp] theorem State.modImg_ovl (s : State) (f : Image → Image) : (s.modImg f).ovl = s.ovl := rfl
@[simp] theorem State.modImg_trg (s : State) (f : Image → Image) : (s.modImg f).trg = s.trg := rfl
@[simp] theorem State.modImg_cfg (s : State) (f : Image → Image) : (s.modImg f).cfg = s.cfg := rfl
@[simp] theorem State.modImg_eff (s : State) (f : Image → Image) : (s.modImg f).eff = s.eff := rfl
@[simp] theorem State.modImg_flg (s : State) (f : Image → Image) : (s.modImg f).flg = s.flg := rfl
@[simp] theorem State.modImg_ctr (s : State) (f : Image → Image) : (s.modImg f).ctr = s.ctr := rfl
@[simp] theorem State.modImg_cmd (s : State) (f : Image → Image) : (s.modImg f).cmd = s.cmd := rfl
@[simp] theorem State.modImg_more (s : State) (f : Image → Image) : (s.modImg f).more = s.more := rfl
@[simp] theorem State.modImg_errAddr (s : State) (f : Image → Image) : (s.modImg f).errAddr = s.errAddr := rfl
@[simp] theorem State.modImg_errWrite (s : State) (f : Image → Image) : (s.modImg f).errWrite = s.errWrite := rfl
@[simp] theorem State.modImg_tabs (s : State) (f : Image → Image) : (s.modImg f).tabs = s.tabs := rfl
@[simp] theorem State.modImg_was (s : State) (f : Image → Image) : (s.modImg f).was = s.was := rfl
@[simp] theorem State.modImg_clu (s : State) (f : Image → Image) : (s.modImg f).clu = s.clu := rfl
@[simp] theorem State.modImg_wl (s : State) (f : Image → Image) : (s.modImg f).wl = s.wl := rfl
@[simp] theorem State.modImg_gov (s : State) (f : Image → Image) : (s.modImg f).gov = s.gov := rfl
@[simp] theorem State.modImg_pg (s : State) (f : Image → Image) : (s.modImg f).pg = s.pg := rfl
@[simp] theorem State.modImg_pin (s : State) (f : Image → Image) : (s.modImg f).pin = s.pin := rfl
@[simp] theorem State.modImg_lvl (s : State) (f : Image → Image) : (s.modImg f).lvl = s.lvl := rfl
@[simp] theorem State.modImg_lg (s : State) (f : Image → Image) : (s.modImg f).lg = s.lg := rfl
@[simp] theorem State.modImg_mon (s : State) (f : Image → Image) : (s.modImg f).mon = s.mon := rfl
@[simp] theorem State.modImg_brg (s : State) (f : Image → Image) : (s.modImg f).brg = s.brg := rfl
@[simp] theorem State.modImg_link (s : State) (f : Image → Image) : (s.modImg f).link = s.link := rfl
@[simp] theorem State.modImg_dram (s : State) (f : Image → Image) : (s.modImg f).dram = s.dram := rfl
@[simp] theorem State.modImg_mem (s : State) (f : Image → Image) : (s.modImg f).mem = s.mem := rfl
@[simp] theorem State.modImg_host (s : State) (f : Image → Image) : (s.modImg f).host = s.host := rfl
@[simp] theorem State.modImg_flt (s : State) (f : Image → Image) : (s.modImg f).flt = s.flt := rfl
@[simp] theorem State.modImg_plc (s : State) (f : Image → Image) : (s.modImg f).plc = s.plc := rfl
@[simp] theorem State.modImg_jtag (s : State) (f : Image → Image) : (s.modImg f).jtag = s.jtag := rfl
@[simp] theorem State.modImg_smb (s : State) (f : Image → Image) : (s.modImg f).smb = s.smb := rfl
@[simp] theorem State.modImg_undef (s : State) (f : Image → Image) : (s.modImg f).undef = s.undef := rfl
@[simp] theorem State.modImg_freeN (s : State) (f : Image → Image) : (s.modImg f).freeN = s.freeN := rfl
@[simp] theorem State.modImg_pending (s : State) (f : Image → Image) : (s.modImg f).pending = s.pending := rfl
/-! ### State.modClk -/
@[simp] theorem State.modClk_part (s : State) (f : Clock → Clock) : (s.modClk f).part = s.part := rfl
@[simp] theorem State.modClk_pwr (s : State) (f : Clock → Clock) : (s.modClk f).pwr = s.pwr := rfl
@[simp] theorem State.modClk_img (s : State) (f : Clock → Clock) : (s.modClk f).img = s.img := rfl
@[simp] theorem State.modClk_ovl (s : State) (f : Clock → Clock) : (s.modClk f).ovl = s.ovl := rfl
@[simp] theorem State.modClk_trg (s : State) (f : Clock → Clock) : (s.modClk f).trg = s.trg := rfl
@[simp] theorem State.modClk_cfg (s : State) (f : Clock → Clock) : (s.modClk f).cfg = s.cfg := rfl
@[simp] theorem State.modClk_eff (s : State) (f : Clock → Clock) : (s.modClk f).eff = s.eff := rfl
@[simp] theorem State.modClk_flg (s : State) (f : Clock → Clock) : (s.modClk f).flg = s.flg := rfl
@[simp] theorem State.modClk_ctr (s : State) (f : Clock → Clock) : (s.modClk f).ctr = s.ctr := rfl
@[simp] theorem State.modClk_cmd (s : State) (f : Clock → Clock) : (s.modClk f).cmd = s.cmd := rfl
@[simp] theorem State.modClk_more (s : State) (f : Clock → Clock) : (s.modClk f).more = s.more := rfl
@[simp] theorem State.modClk_errAddr (s : State) (f : Clock → Clock) : (s.modClk f).errAddr = s.errAddr := rfl
@[simp] theorem State.modClk_errWrite (s : State) (f : Clock → Clock) : (s.modClk f).errWrite = s.errWrite := rfl
@[simp] theorem State.modClk_tabs (s : State) (f : Clock → Clock) : (s.modClk f).tabs = s.tabs := rfl
@[simp] theorem State.modClk_was (s : State) (f : Clock → Clock) : (s.modClk f).was = s.was := rfl
@[simp] theorem State.modClk_clu (s : State) (f : Clock → Clock) : (s.modClk f).clu = s.clu := rfl
@[simp] theorem State.modClk_wl (s : State) (f : Clock → Clock) : (s.modClk f).wl = s.wl := rfl
@[simp] theorem State.modClk_gov (s : State) (f : Clock → Clock) : (s.modClk f).gov = s.gov := rfl
@[simp] theorem State.modClk_pg (s : State) (f : Clock → Clock) : (s.modClk f).pg = s.pg := rfl
@[simp] theorem State.modClk_pin (s : State) (f : Clock → Clock) : (s.modClk f).pin = s.pin := rfl
@[simp] theorem State.modClk_lvl (s : State) (f : Clock → Clock) : (s.modClk f).lvl = s.lvl := rfl
@[simp] theorem State.modClk_lg (s : State) (f : Clock → Clock) : (s.modClk f).lg = s.lg := rfl
@[simp] theorem State.modClk_mon (s : State) (f : Clock → Clock) : (s.modClk f).mon = s.mon := rfl
@[simp] theorem State.modClk_brg (s : State) (f : Clock → Clock) : (s.modClk f).brg = s.brg := rfl
@[simp] theorem State.modClk_link (s : State) (f : Clock → Clock) : (s.modClk f).link = s.link := rfl
@[simp] theorem State.modClk_dram (s : State) (f : Clock → Clock) : (s.modClk f).dram = s.dram := rfl
@[simp] theorem State.modClk_mem (s : State) (f : Clock → Clock) : (s.modClk f).mem = s.mem := rfl
@[simp] theorem State.modClk_host (s : State) (f : Clock → Clock) : (s.modClk f).host = s.host := rfl
@[simp] theorem State.modClk_flt (s : State) (f : Clock → Clock) : (s.modClk f).flt = s.flt := rfl
@[simp] theorem State.modClk_plc (s : State) (f : Clock → Clock) : (s.modClk f).plc = s.plc := rfl
@[simp] theorem State.modClk_jtag (s : State) (f : Clock → Clock) : (s.modClk f).jtag = s.jtag := rfl
@[simp] theorem State.modClk_smb (s : State) (f : Clock → Clock) : (s.modClk f).smb = s.smb := rfl
@[simp] theorem State.modClk_undef (s : State) (f : Clock → Clock) : (s.modClk f).undef = s.undef := rfl
@[simp] theorem State.modClk_freeN (s : State) (f : Clock → Clock) : (s.modClk f).freeN = s.freeN := rfl
@[simp] theorem State.modClk_pending (s : State) (f : Clock → Clock) : (s.modClk f).pending = s.pending := rfl
/-! ### State.modOvl -/
@[simp] theorem State.modOvl_part (s : State) (f : Overlay → Overlay) : (s.modOvl f).part = s.part := rfl
@[simp] theorem State.modOvl_clk (s : State) (f : Overlay → Overlay) : (s.modOvl f).clk = s.clk := rfl
@[simp] theorem State.modOvl_pwr (s : State) (f : Overlay → Overlay) : (s.modOvl f).pwr = s.pwr := rfl
@[simp] theorem State.modOvl_img (s : State) (f : Overlay → Overlay) : (s.modOvl f).img = s.img := rfl
@[simp] theorem State.modOvl_trg (s : State) (f : Overlay → Overlay) : (s.modOvl f).trg = s.trg := rfl
@[simp] theorem State.modOvl_cfg (s : State) (f : Overlay → Overlay) : (s.modOvl f).cfg = s.cfg := rfl
@[simp] theorem State.modOvl_eff (s : State) (f : Overlay → Overlay) : (s.modOvl f).eff = s.eff := rfl
@[simp] theorem State.modOvl_flg (s : State) (f : Overlay → Overlay) : (s.modOvl f).flg = s.flg := rfl
@[simp] theorem State.modOvl_ctr (s : State) (f : Overlay → Overlay) : (s.modOvl f).ctr = s.ctr := rfl
@[simp] theorem State.modOvl_cmd (s : State) (f : Overlay → Overlay) : (s.modOvl f).cmd = s.cmd := rfl
@[simp] theorem State.modOvl_more (s : State) (f : Overlay → Overlay) : (s.modOvl f).more = s.more := rfl
@[simp] theorem State.modOvl_errAddr (s : State) (f : Overlay → Overlay) : (s.modOvl f).errAddr = s.errAddr := rfl
@[simp] theorem State.modOvl_errWrite (s : State) (f : Overlay → Overlay) : (s.modOvl f).errWrite = s.errWrite := rfl
@[simp] theorem State.modOvl_tabs (s : State) (f : Overlay → Overlay) : (s.modOvl f).tabs = s.tabs := rfl
@[simp] theorem State.modOvl_was (s : State) (f : Overlay → Overlay) : (s.modOvl f).was = s.was := rfl
@[simp] theorem State.modOvl_clu (s : State) (f : Overlay → Overlay) : (s.modOvl f).clu = s.clu := rfl
@[simp] theorem State.modOvl_wl (s : State) (f : Overlay → Overlay) : (s.modOvl f).wl = s.wl := rfl
@[simp] theorem State.modOvl_gov (s : State) (f : Overlay → Overlay) : (s.modOvl f).gov = s.gov := rfl
@[simp] theorem State.modOvl_pg (s : State) (f : Overlay → Overlay) : (s.modOvl f).pg = s.pg := rfl
@[simp] theorem State.modOvl_pin (s : State) (f : Overlay → Overlay) : (s.modOvl f).pin = s.pin := rfl
@[simp] theorem State.modOvl_lvl (s : State) (f : Overlay → Overlay) : (s.modOvl f).lvl = s.lvl := rfl
@[simp] theorem State.modOvl_lg (s : State) (f : Overlay → Overlay) : (s.modOvl f).lg = s.lg := rfl
@[simp] theorem State.modOvl_mon (s : State) (f : Overlay → Overlay) : (s.modOvl f).mon = s.mon := rfl
@[simp] theorem State.modOvl_brg (s : State) (f : Overlay → Overlay) : (s.modOvl f).brg = s.brg := rfl
@[simp] theorem State.modOvl_link (s : State) (f : Overlay → Overlay) : (s.modOvl f).link = s.link := rfl
@[simp] theorem State.modOvl_dram (s : State) (f : Overlay → Overlay) : (s.modOvl f).dram = s.dram := rfl
@[simp] theorem State.modOvl_mem (s : State) (f : Overlay → Overlay) : (s.modOvl f).mem = s.mem := rfl
@[simp] theorem State.modOvl_host (s : State) (f : Overlay → Overlay) : (s.modOvl f).host = s.host := rfl
@[simp] theorem State.modOvl_flt (s : State) (f : Overlay → Overlay) : (s.modOvl f).flt = s.flt := rfl
@[simp] theorem State.modOvl_plc (s : State) (f : Overlay → Overlay) : (s.modOvl f).plc = s.plc := rfl
@[simp] theorem State.modOvl_jtag (s : State) (f : Overlay → Overlay) : (s.modOvl f).jtag = s.jtag := rfl
@[simp] theorem State.modOvl_smb (s : State) (f : Overlay → Overlay) : (s.modOvl f).smb = s.smb := rfl
@[simp] theorem State.modOvl_undef (s : State) (f : Overlay → Overlay) : (s.modOvl f).undef = s.undef := rfl
@[simp] theorem State.modOvl_freeN (s : State) (f : Overlay → Overlay) : (s.modOvl f).freeN = s.freeN := rfl
@[simp] theorem State.modOvl_pending (s : State) (f : Overlay → Overlay) : (s.modOvl f).pending = s.pending := rfl
/-! ### State.modFlt -/
@[simp] theorem State.modFlt_part (s : State) (f : Supervisor → Supervisor) : (s.modFlt f).part = s.part := rfl
@[simp] theorem State.modFlt_clk (s : State) (f : Supervisor → Supervisor) : (s.modFlt f).clk = s.clk := rfl
@[simp] theorem State.modFlt_pwr (s : State) (f : Supervisor → Supervisor) : (s.modFlt f).pwr = s.pwr := rfl
@[simp] theorem State.modFlt_img (s : State) (f : Supervisor → Supervisor) : (s.modFlt f).img = s.img := rfl
@[simp] theorem State.modFlt_ovl (s : State) (f : Supervisor → Supervisor) : (s.modFlt f).ovl = s.ovl := rfl
@[simp] theorem State.modFlt_trg (s : State) (f : Supervisor → Supervisor) : (s.modFlt f).trg = s.trg := rfl
@[simp] theorem State.modFlt_cfg (s : State) (f : Supervisor → Supervisor) : (s.modFlt f).cfg = s.cfg := rfl
@[simp] theorem State.modFlt_eff (s : State) (f : Supervisor → Supervisor) : (s.modFlt f).eff = s.eff := rfl
@[simp] theorem State.modFlt_flg (s : State) (f : Supervisor → Supervisor) : (s.modFlt f).flg = s.flg := rfl
@[simp] theorem State.modFlt_ctr (s : State) (f : Supervisor → Supervisor) : (s.modFlt f).ctr = s.ctr := rfl
@[simp] theorem State.modFlt_cmd (s : State) (f : Supervisor → Supervisor) : (s.modFlt f).cmd = s.cmd := rfl
@[simp] theorem State.modFlt_more (s : State) (f : Supervisor → Supervisor) : (s.modFlt f).more = s.more := rfl
@[simp] theorem State.modFlt_errAddr (s : State) (f : Supervisor → Supervisor) : (s.modFlt f).errAddr = s.errAddr := rfl
@[simp] theorem State.modFlt_errWrite (s : State) (f : Supervisor → Supervisor) : (s.modFlt f).errWrite = s.errWrite := rfl
@[simp] theorem State.modFlt_tabs (s : State) (f : Supervisor → Supervisor) : (s.modFlt f).tabs = s.tabs := rfl
@[simp] theorem State.modFlt_was (s : State) (f : Supervisor → Supervisor) : (s.modFlt f).was = s.was := rfl
@[simp] theorem State.modFlt_clu (s : State) (f : Supervisor → Supervisor) : (s.modFlt f).clu = s.clu := rfl
@[simp] theorem State.modFlt_wl (s : State) (f : Supervisor → Supervisor) : (s.modFlt f).wl = s.wl := rfl
@[simp] theorem State.modFlt_gov (s : State) (f : Supervisor → Supervisor) : (s.modFlt f).gov = s.gov := rfl
@[simp] theorem State.modFlt_pg (s : State) (f : Supervisor → Supervisor) : (s.modFlt f).pg = s.pg := rfl
@[simp] theorem State.modFlt_pin (s : State) (f : Supervisor → Supervisor) : (s.modFlt f).pin = s.pin := rfl
@[simp] theorem State.modFlt_lvl (s : State) (f : Supervisor → Supervisor) : (s.modFlt f).lvl = s.lvl := rfl
@[simp] theorem State.modFlt_lg (s : State) (f : Supervisor → Supervisor) : (s.modFlt f).lg = s.lg := rfl
@[simp] theorem State.modFlt_mon (s : State) (f : Supervisor → Supervisor) : (s.modFlt f).mon = s.mon := rfl
@[simp] theorem State.modFlt_brg (s : State) (f : Supervisor → Supervisor) : (s.modFlt f).brg = s.brg := rfl
@[simp] theorem State.modFlt_link (s : State) (f : Supervisor → Supervisor) : (s.modFlt f).link = s.link := rfl
@[simp] theorem State.modFlt_dram (s : State) (f : Supervisor → Supervisor) : (s.modFlt f).dram = s.dram := rfl
@[simp] theorem State.modFlt_mem (s : State) (f : Supervisor → Supervisor) : (s.modFlt f).mem = s.mem := rfl
@[simp] theorem State.modFlt_host (s : State) (f : Supervisor → Supervisor) : (s.modFlt f).host = s.host := rfl
@[simp] theorem State.modFlt_plc (s : State) (f : Supervisor → Supervisor) : (s.modFlt f).plc = s.plc := rfl
@[simp] theorem State.modFlt_jtag (s : State) (f : Supervisor → Supervisor) : (s.modFlt f).jtag = s.jtag := rfl
@[simp] theorem State.modFlt_smb (s : State) (f : Supervisor → Supervisor) : (s.modFlt f).smb = s.smb := rfl
@[simp] theorem State.modFlt_undef (s : State) (f : Supervisor → Supervisor) : (s.modFlt f).undef = s.undef := rfl
@[simp] theorem State.modFlt_freeN (s : State) (f : Supervisor → Supervisor) : (s.modFlt f).freeN = s.freeN := rfl
@[simp] theorem State.modFlt_pending (s : State) (f : Supervisor → Supervisor) : (s.modFlt f).pending = s.pending := rfl
/-! ### State.modJtag -/
@[simp] theorem State.modJtag_part (s : State) (f : Jtag → Jtag) : (s.modJtag f).part = s.part := rfl
@[simp] theorem State.modJtag_clk (s : State) (f : Jtag → Jtag) : (s.modJtag f).clk = s.clk := rfl
@[simp] theorem State.modJtag_pwr (s : State) (f : Jtag → Jtag) : (s.modJtag f).pwr = s.pwr := rfl
@[simp] theorem State.modJtag_img (s : State) (f : Jtag → Jtag) : (s.modJtag f).img = s.img := rfl
@[simp] theorem State.modJtag_ovl (s : State) (f : Jtag → Jtag) : (s.modJtag f).ovl = s.ovl := rfl
@[simp] theorem State.modJtag_trg (s : State) (f : Jtag → Jtag) : (s.modJtag f).trg = s.trg := rfl
@[simp] theorem State.modJtag_cfg (s : State) (f : Jtag → Jtag) : (s.modJtag f).cfg = s.cfg := rfl
@[simp] theorem State.modJtag_eff (s : State) (f : Jtag → Jtag) : (s.modJtag f).eff = s.eff := rfl
@[simp] theorem State.modJtag_flg (s : State) (f : Jtag → Jtag) : (s.modJtag f).flg = s.flg := rfl
@[simp] theorem State.modJtag_ctr (s : State) (f : Jtag → Jtag) : (s.modJtag f).ctr = s.ctr := rfl
@[simp] theorem State.modJtag_cmd (s : State) (f : Jtag → Jtag) : (s.modJtag f).cmd = s.cmd := rfl
@[simp] theorem State.modJtag_more (s : State) (f : Jtag → Jtag) : (s.modJtag f).more = s.more := rfl
@[simp] theorem State.modJtag_errAddr (s : State) (f : Jtag → Jtag) : (s.modJtag f).errAddr = s.errAddr := rfl
@[simp] theorem State.modJtag_errWrite (s : State) (f : Jtag → Jtag) : (s.modJtag f).errWrite = s.errWrite := rfl
@[simp] theorem State.modJtag_tabs (s : State) (f : Jtag → Jtag) : (s.modJtag f).tabs = s.tabs := rfl
@[simp] theorem State.modJtag_was (s : State) (f : Jtag → Jtag) : (s.modJtag f).was = s.was := rfl
@[simp] theorem State.modJtag_clu (s : State) (f : Jtag → Jtag) : (s.modJtag f).clu = s.clu := rfl
@[simp] theorem State.modJtag_wl (s : State) (f : Jtag → Jtag) : (s.modJtag f).wl = s.wl := rfl
@[simp] theorem State.modJtag_gov (s : State) (f : Jtag → Jtag) : (s.modJtag f).gov = s.gov := rfl
@[simp] theorem State.modJtag_pg (s : State) (f : Jtag → Jtag) : (s.modJtag f).pg = s.pg := rfl
@[simp] theorem State.modJtag_pin (s : State) (f : Jtag → Jtag) : (s.modJtag f).pin = s.pin := rfl
@[simp] theorem State.modJtag_lvl (s : State) (f : Jtag → Jtag) : (s.modJtag f).lvl = s.lvl := rfl
@[simp] theorem State.modJtag_lg (s : State) (f : Jtag → Jtag) : (s.modJtag f).lg = s.lg := rfl
@[simp] theorem State.modJtag_mon (s : State) (f : Jtag → Jtag) : (s.modJtag f).mon = s.mon := rfl
@[simp] theorem State.modJtag_brg (s : State) (f : Jtag → Jtag) : (s.modJtag f).brg = s.brg := rfl
@[simp] theorem State.modJtag_link (s : State) (f : Jtag → Jtag) : (s.modJtag f).link = s.link := rfl
@[simp] theorem State.modJtag_dram (s : State) (f : Jtag → Jtag) : (s.modJtag f).dram = s.dram := rfl
@[simp] theorem State.modJtag_mem (s : State) (f : Jtag → Jtag) : (s.modJtag f).mem = s.mem := rfl
@[simp] theorem State.modJtag_host (s : State) (f : Jtag → Jtag) : (s.modJtag f).host = s.host := rfl
@[simp] theorem State.modJtag_flt (s : State) (f : Jtag → Jtag) : (s.modJtag f).flt = s.flt := rfl
@[simp] theorem State.modJtag_plc (s : State) (f : Jtag → Jtag) : (s.modJtag f).plc = s.plc := rfl
@[simp] theorem State.modJtag_smb (s : State) (f : Jtag → Jtag) : (s.modJtag f).smb = s.smb := rfl
@[simp] theorem State.modJtag_undef (s : State) (f : Jtag → Jtag) : (s.modJtag f).undef = s.undef := rfl
@[simp] theorem State.modJtag_freeN (s : State) (f : Jtag → Jtag) : (s.modJtag f).freeN = s.freeN := rfl
@[simp] theorem State.modJtag_pending (s : State) (f : Jtag → Jtag) : (s.modJtag f).pending = s.pending := rfl
/-! ### State.modSmb -/
@[simp] theorem State.modSmb_part (s : State) (f : Smbus → Smbus) : (s.modSmb f).part = s.part := rfl
@[simp] theorem State.modSmb_clk (s : State) (f : Smbus → Smbus) : (s.modSmb f).clk = s.clk := rfl
@[simp] theorem State.modSmb_pwr (s : State) (f : Smbus → Smbus) : (s.modSmb f).pwr = s.pwr := rfl
@[simp] theorem State.modSmb_img (s : State) (f : Smbus → Smbus) : (s.modSmb f).img = s.img := rfl
@[simp] theorem State.modSmb_ovl (s : State) (f : Smbus → Smbus) : (s.modSmb f).ovl = s.ovl := rfl
@[simp] theorem State.modSmb_trg (s : State) (f : Smbus → Smbus) : (s.modSmb f).trg = s.trg := rfl
@[simp] theorem State.modSmb_cfg (s : State) (f : Smbus → Smbus) : (s.modSmb f).cfg = s.cfg := rfl
@[simp] theorem State.modSmb_eff (s : State) (f : Smbus → Smbus) : (s.modSmb f).eff = s.eff := rfl
@[simp] theorem State.modSmb_flg (s : State) (f : Smbus → Smbus) : (s.modSmb f).flg = s.flg := rfl
@[simp] theorem State.modSmb_ctr (s : State) (f : Smbus → Smbus) : (s.modSmb f).ctr = s.ctr := rfl
@[simp] theorem State.modSmb_cmd (s : State) (f : Smbus → Smbus) : (s.modSmb f).cmd = s.cmd := rfl
@[simp] theorem State.modSmb_more (s : State) (f : Smbus → Smbus) : (s.modSmb f).more = s.more := rfl
@[simp] theorem State.modSmb_errAddr (s : State) (f : Smbus → Smbus) : (s.modSmb f).errAddr = s.errAddr := rfl
@[simp] theorem State.modSmb_errWrite (s : State) (f : Smbus → Smbus) : (s.modSmb f).errWrite = s.errWrite := rfl
@[simp] theorem State.modSmb_tabs (s : State) (f : Smbus → Smbus) : (s.modSmb f).tabs = s.tabs := rfl
@[simp] theorem State.modSmb_was (s : State) (f : Smbus → Smbus) : (s.modSmb f).was = s.was := rfl
@[simp] theorem State.modSmb_clu (s : State) (f : Smbus → Smbus) : (s.modSmb f).clu = s.clu := rfl
@[simp] theorem State.modSmb_wl (s : State) (f : Smbus → Smbus) : (s.modSmb f).wl = s.wl := rfl
@[simp] theorem State.modSmb_gov (s : State) (f : Smbus → Smbus) : (s.modSmb f).gov = s.gov := rfl
@[simp] theorem State.modSmb_pg (s : State) (f : Smbus → Smbus) : (s.modSmb f).pg = s.pg := rfl
@[simp] theorem State.modSmb_pin (s : State) (f : Smbus → Smbus) : (s.modSmb f).pin = s.pin := rfl
@[simp] theorem State.modSmb_lvl (s : State) (f : Smbus → Smbus) : (s.modSmb f).lvl = s.lvl := rfl
@[simp] theorem State.modSmb_lg (s : State) (f : Smbus → Smbus) : (s.modSmb f).lg = s.lg := rfl
@[simp] theorem State.modSmb_mon (s : State) (f : Smbus → Smbus) : (s.modSmb f).mon = s.mon := rfl
@[simp] theorem State.modSmb_brg (s : State) (f : Smbus → Smbus) : (s.modSmb f).brg = s.brg := rfl
@[simp] theorem State.modSmb_link (s : State) (f : Smbus → Smbus) : (s.modSmb f).link = s.link := rfl
@[simp] theorem State.modSmb_dram (s : State) (f : Smbus → Smbus) : (s.modSmb f).dram = s.dram := rfl
@[simp] theorem State.modSmb_mem (s : State) (f : Smbus → Smbus) : (s.modSmb f).mem = s.mem := rfl
@[simp] theorem State.modSmb_host (s : State) (f : Smbus → Smbus) : (s.modSmb f).host = s.host := rfl
@[simp] theorem State.modSmb_flt (s : State) (f : Smbus → Smbus) : (s.modSmb f).flt = s.flt := rfl
@[simp] theorem State.modSmb_plc (s : State) (f : Smbus → Smbus) : (s.modSmb f).plc = s.plc := rfl
@[simp] theorem State.modSmb_jtag (s : State) (f : Smbus → Smbus) : (s.modSmb f).jtag = s.jtag := rfl
@[simp] theorem State.modSmb_undef (s : State) (f : Smbus → Smbus) : (s.modSmb f).undef = s.undef := rfl
@[simp] theorem State.modSmb_freeN (s : State) (f : Smbus → Smbus) : (s.modSmb f).freeN = s.freeN := rfl
@[simp] theorem State.modSmb_pending (s : State) (f : Smbus → Smbus) : (s.modSmb f).pending = s.pending := rfl
/-! ### State.modPart -/
@[simp] theorem State.modPart_clk (s : State) (f : Part → Part) : (s.modPart f).clk = s.clk := rfl
@[simp] theorem State.modPart_pwr (s : State) (f : Part → Part) : (s.modPart f).pwr = s.pwr := rfl
@[simp] theorem State.modPart_img (s : State) (f : Part → Part) : (s.modPart f).img = s.img := rfl
@[simp] theorem State.modPart_ovl (s : State) (f : Part → Part) : (s.modPart f).ovl = s.ovl := rfl
@[simp] theorem State.modPart_trg (s : State) (f : Part → Part) : (s.modPart f).trg = s.trg := rfl
@[simp] theorem State.modPart_cfg (s : State) (f : Part → Part) : (s.modPart f).cfg = s.cfg := rfl
@[simp] theorem State.modPart_eff (s : State) (f : Part → Part) : (s.modPart f).eff = s.eff := rfl
@[simp] theorem State.modPart_flg (s : State) (f : Part → Part) : (s.modPart f).flg = s.flg := rfl
@[simp] theorem State.modPart_ctr (s : State) (f : Part → Part) : (s.modPart f).ctr = s.ctr := rfl
@[simp] theorem State.modPart_cmd (s : State) (f : Part → Part) : (s.modPart f).cmd = s.cmd := rfl
@[simp] theorem State.modPart_more (s : State) (f : Part → Part) : (s.modPart f).more = s.more := rfl
@[simp] theorem State.modPart_errAddr (s : State) (f : Part → Part) : (s.modPart f).errAddr = s.errAddr := rfl
@[simp] theorem State.modPart_errWrite (s : State) (f : Part → Part) : (s.modPart f).errWrite = s.errWrite := rfl
@[simp] theorem State.modPart_tabs (s : State) (f : Part → Part) : (s.modPart f).tabs = s.tabs := rfl
@[simp] theorem State.modPart_was (s : State) (f : Part → Part) : (s.modPart f).was = s.was := rfl
@[simp] theorem State.modPart_clu (s : State) (f : Part → Part) : (s.modPart f).clu = s.clu := rfl
@[simp] theorem State.modPart_wl (s : State) (f : Part → Part) : (s.modPart f).wl = s.wl := rfl
@[simp] theorem State.modPart_gov (s : State) (f : Part → Part) : (s.modPart f).gov = s.gov := rfl
@[simp] theorem State.modPart_pg (s : State) (f : Part → Part) : (s.modPart f).pg = s.pg := rfl
@[simp] theorem State.modPart_pin (s : State) (f : Part → Part) : (s.modPart f).pin = s.pin := rfl
@[simp] theorem State.modPart_lvl (s : State) (f : Part → Part) : (s.modPart f).lvl = s.lvl := rfl
@[simp] theorem State.modPart_lg (s : State) (f : Part → Part) : (s.modPart f).lg = s.lg := rfl
@[simp] theorem State.modPart_mon (s : State) (f : Part → Part) : (s.modPart f).mon = s.mon := rfl
@[simp] theorem State.modPart_brg (s : State) (f : Part → Part) : (s.modPart f).brg = s.brg := rfl
@[simp] theorem State.modPart_link (s : State) (f : Part → Part) : (s.modPart f).link = s.link := rfl
@[simp] theorem State.modPart_dram (s : State) (f : Part → Part) : (s.modPart f).dram = s.dram := rfl
@[simp] theorem State.modPart_mem (s : State) (f : Part → Part) : (s.modPart f).mem = s.mem := rfl
@[simp] theorem State.modPart_host (s : State) (f : Part → Part) : (s.modPart f).host = s.host := rfl
@[simp] theorem State.modPart_flt (s : State) (f : Part → Part) : (s.modPart f).flt = s.flt := rfl
@[simp] theorem State.modPart_plc (s : State) (f : Part → Part) : (s.modPart f).plc = s.plc := rfl
@[simp] theorem State.modPart_jtag (s : State) (f : Part → Part) : (s.modPart f).jtag = s.jtag := rfl
@[simp] theorem State.modPart_smb (s : State) (f : Part → Part) : (s.modPart f).smb = s.smb := rfl
@[simp] theorem State.modPart_undef (s : State) (f : Part → Part) : (s.modPart f).undef = s.undef := rfl
@[simp] theorem State.modPart_freeN (s : State) (f : Part → Part) : (s.modPart f).freeN = s.freeN := rfl
@[simp] theorem State.modPart_pending (s : State) (f : Part → Part) : (s.modPart f).pending = s.pending := rfl
/-! ### State.upto -/
@[simp] theorem State.upto_part (s : State) (t : Nat) : (s.upto t).part = s.part := rfl
@[simp] theorem State.upto_pwr (s : State) (t : Nat) : (s.upto t).pwr = s.pwr := rfl
@[simp] theorem State.upto_img (s : State) (t : Nat) : (s.upto t).img = s.img := rfl
@[simp] theorem State.upto_ovl (s : State) (t : Nat) : (s.upto t).ovl = s.ovl := rfl
@[simp] theorem State.upto_trg (s : State) (t : Nat) : (s.upto t).trg = s.trg := rfl
@[simp] theorem State.upto_cfg (s : State) (t : Nat) : (s.upto t).cfg = s.cfg := rfl
@[simp] theorem State.upto_eff (s : State) (t : Nat) : (s.upto t).eff = s.eff := rfl
@[simp] theorem State.upto_flg (s : State) (t : Nat) : (s.upto t).flg = s.flg := rfl
@[simp] theorem State.upto_ctr (s : State) (t : Nat) : (s.upto t).ctr = s.ctr := rfl
@[simp] theorem State.upto_cmd (s : State) (t : Nat) : (s.upto t).cmd = s.cmd := rfl
@[simp] theorem State.upto_more (s : State) (t : Nat) : (s.upto t).more = s.more := rfl
@[simp] theorem State.upto_errAddr (s : State) (t : Nat) : (s.upto t).errAddr = s.errAddr := rfl
@[simp] theorem State.upto_errWrite (s : State) (t : Nat) : (s.upto t).errWrite = s.errWrite := rfl
@[simp] theorem State.upto_tabs (s : State) (t : Nat) : (s.upto t).tabs = s.tabs := rfl
@[simp] theorem State.upto_was (s : State) (t : Nat) : (s.upto t).was = s.was := rfl
@[simp] theorem State.upto_clu (s : State) (t : Nat) : (s.upto t).clu = s.clu := rfl
@[simp] theorem State.upto_wl (s : State) (t : Nat) : (s.upto t).wl = s.wl := rfl
@[simp] theorem State.upto_gov (s : State) (t : Nat) : (s.upto t).gov = s.gov := rfl
@[simp] theorem State.upto_pg (s : State) (t : Nat) : (s.upto t).pg = s.pg := rfl
@[simp] theorem State.upto_pin (s : State) (t : Nat) : (s.upto t).pin = s.pin := rfl
@[simp] theorem State.upto_lvl (s : State) (t : Nat) : (s.upto t).lvl = s.lvl := rfl
@[simp] theorem State.upto_lg (s : State) (t : Nat) : (s.upto t).lg = s.lg := rfl
@[simp] theorem State.upto_mon (s : State) (t : Nat) : (s.upto t).mon = s.mon := rfl
@[simp] theorem State.upto_brg (s : State) (t : Nat) : (s.upto t).brg = s.brg := rfl
@[simp] theorem State.upto_link (s : State) (t : Nat) : (s.upto t).link = s.link := rfl
@[simp] theorem State.upto_dram (s : State) (t : Nat) : (s.upto t).dram = s.dram := rfl
@[simp] theorem State.upto_mem (s : State) (t : Nat) : (s.upto t).mem = s.mem := rfl
@[simp] theorem State.upto_host (s : State) (t : Nat) : (s.upto t).host = s.host := rfl
@[simp] theorem State.upto_flt (s : State) (t : Nat) : (s.upto t).flt = s.flt := rfl
@[simp] theorem State.upto_plc (s : State) (t : Nat) : (s.upto t).plc = s.plc := rfl
@[simp] theorem State.upto_jtag (s : State) (t : Nat) : (s.upto t).jtag = s.jtag := rfl
@[simp] theorem State.upto_smb (s : State) (t : Nat) : (s.upto t).smb = s.smb := rfl
@[simp] theorem State.upto_undef (s : State) (t : Nat) : (s.upto t).undef = s.undef := rfl
@[simp] theorem State.upto_freeN (s : State) (t : Nat) : (s.upto t).freeN = s.freeN := rfl
@[simp] theorem State.upto_pending (s : State) (t : Nat) : (s.upto t).pending = s.pending := rfl
/-! ### State.cmdHold -/
@[simp] theorem State.cmdHold_part (s : State) (a : Nat) (m : Word) : (s.cmdHold a m).part = s.part := rfl
@[simp] theorem State.cmdHold_clk (s : State) (a : Nat) (m : Word) : (s.cmdHold a m).clk = s.clk := rfl
@[simp] theorem State.cmdHold_pwr (s : State) (a : Nat) (m : Word) : (s.cmdHold a m).pwr = s.pwr := rfl
@[simp] theorem State.cmdHold_img (s : State) (a : Nat) (m : Word) : (s.cmdHold a m).img = s.img := rfl
@[simp] theorem State.cmdHold_ovl (s : State) (a : Nat) (m : Word) : (s.cmdHold a m).ovl = s.ovl := rfl
@[simp] theorem State.cmdHold_trg (s : State) (a : Nat) (m : Word) : (s.cmdHold a m).trg = s.trg := rfl
@[simp] theorem State.cmdHold_cfg (s : State) (a : Nat) (m : Word) : (s.cmdHold a m).cfg = s.cfg := rfl
@[simp] theorem State.cmdHold_eff (s : State) (a : Nat) (m : Word) : (s.cmdHold a m).eff = s.eff := rfl
@[simp] theorem State.cmdHold_flg (s : State) (a : Nat) (m : Word) : (s.cmdHold a m).flg = s.flg := rfl
@[simp] theorem State.cmdHold_ctr (s : State) (a : Nat) (m : Word) : (s.cmdHold a m).ctr = s.ctr := rfl
@[simp] theorem State.cmdHold_errAddr (s : State) (a : Nat) (m : Word) : (s.cmdHold a m).errAddr = s.errAddr := rfl
@[simp] theorem State.cmdHold_errWrite (s : State) (a : Nat) (m : Word) : (s.cmdHold a m).errWrite = s.errWrite := rfl
@[simp] theorem State.cmdHold_tabs (s : State) (a : Nat) (m : Word) : (s.cmdHold a m).tabs = s.tabs := rfl
@[simp] theorem State.cmdHold_was (s : State) (a : Nat) (m : Word) : (s.cmdHold a m).was = s.was := rfl
@[simp] theorem State.cmdHold_clu (s : State) (a : Nat) (m : Word) : (s.cmdHold a m).clu = s.clu := rfl
@[simp] theorem State.cmdHold_wl (s : State) (a : Nat) (m : Word) : (s.cmdHold a m).wl = s.wl := rfl
@[simp] theorem State.cmdHold_gov (s : State) (a : Nat) (m : Word) : (s.cmdHold a m).gov = s.gov := rfl
@[simp] theorem State.cmdHold_pg (s : State) (a : Nat) (m : Word) : (s.cmdHold a m).pg = s.pg := rfl
@[simp] theorem State.cmdHold_pin (s : State) (a : Nat) (m : Word) : (s.cmdHold a m).pin = s.pin := rfl
@[simp] theorem State.cmdHold_lvl (s : State) (a : Nat) (m : Word) : (s.cmdHold a m).lvl = s.lvl := rfl
@[simp] theorem State.cmdHold_lg (s : State) (a : Nat) (m : Word) : (s.cmdHold a m).lg = s.lg := rfl
@[simp] theorem State.cmdHold_mon (s : State) (a : Nat) (m : Word) : (s.cmdHold a m).mon = s.mon := rfl
@[simp] theorem State.cmdHold_brg (s : State) (a : Nat) (m : Word) : (s.cmdHold a m).brg = s.brg := rfl
@[simp] theorem State.cmdHold_link (s : State) (a : Nat) (m : Word) : (s.cmdHold a m).link = s.link := rfl
@[simp] theorem State.cmdHold_dram (s : State) (a : Nat) (m : Word) : (s.cmdHold a m).dram = s.dram := rfl
@[simp] theorem State.cmdHold_mem (s : State) (a : Nat) (m : Word) : (s.cmdHold a m).mem = s.mem := rfl
@[simp] theorem State.cmdHold_host (s : State) (a : Nat) (m : Word) : (s.cmdHold a m).host = s.host := rfl
@[simp] theorem State.cmdHold_flt (s : State) (a : Nat) (m : Word) : (s.cmdHold a m).flt = s.flt := rfl
@[simp] theorem State.cmdHold_plc (s : State) (a : Nat) (m : Word) : (s.cmdHold a m).plc = s.plc := rfl
@[simp] theorem State.cmdHold_jtag (s : State) (a : Nat) (m : Word) : (s.cmdHold a m).jtag = s.jtag := rfl
@[simp] theorem State.cmdHold_smb (s : State) (a : Nat) (m : Word) : (s.cmdHold a m).smb = s.smb := rfl
@[simp] theorem State.cmdHold_undef (s : State) (a : Nat) (m : Word) : (s.cmdHold a m).undef = s.undef := rfl
@[simp] theorem State.cmdHold_freeN (s : State) (a : Nat) (m : Word) : (s.cmdHold a m).freeN = s.freeN := rfl
@[simp] theorem State.cmdHold_pending (s : State) (a : Nat) (m : Word) : (s.cmdHold a m).pending = s.pending := rfl
/-! ### State.cmdTake -/
@[simp] theorem State.cmdTake_part (s : State) (a : Nat) (m : Word) : (s.cmdTake a m).part = s.part := rfl
@[simp] theorem State.cmdTake_clk (s : State) (a : Nat) (m : Word) : (s.cmdTake a m).clk = s.clk := rfl
@[simp] theorem State.cmdTake_pwr (s : State) (a : Nat) (m : Word) : (s.cmdTake a m).pwr = s.pwr := rfl
@[simp] theorem State.cmdTake_img (s : State) (a : Nat) (m : Word) : (s.cmdTake a m).img = s.img := rfl
@[simp] theorem State.cmdTake_ovl (s : State) (a : Nat) (m : Word) : (s.cmdTake a m).ovl = s.ovl := rfl
@[simp] theorem State.cmdTake_trg (s : State) (a : Nat) (m : Word) : (s.cmdTake a m).trg = s.trg := rfl
@[simp] theorem State.cmdTake_cfg (s : State) (a : Nat) (m : Word) : (s.cmdTake a m).cfg = s.cfg := rfl
@[simp] theorem State.cmdTake_eff (s : State) (a : Nat) (m : Word) : (s.cmdTake a m).eff = s.eff := rfl
@[simp] theorem State.cmdTake_flg (s : State) (a : Nat) (m : Word) : (s.cmdTake a m).flg = s.flg := rfl
@[simp] theorem State.cmdTake_ctr (s : State) (a : Nat) (m : Word) : (s.cmdTake a m).ctr = s.ctr := rfl
@[simp] theorem State.cmdTake_errAddr (s : State) (a : Nat) (m : Word) : (s.cmdTake a m).errAddr = s.errAddr := rfl
@[simp] theorem State.cmdTake_errWrite (s : State) (a : Nat) (m : Word) : (s.cmdTake a m).errWrite = s.errWrite := rfl
@[simp] theorem State.cmdTake_tabs (s : State) (a : Nat) (m : Word) : (s.cmdTake a m).tabs = s.tabs := rfl
@[simp] theorem State.cmdTake_was (s : State) (a : Nat) (m : Word) : (s.cmdTake a m).was = s.was := rfl
@[simp] theorem State.cmdTake_clu (s : State) (a : Nat) (m : Word) : (s.cmdTake a m).clu = s.clu := rfl
@[simp] theorem State.cmdTake_wl (s : State) (a : Nat) (m : Word) : (s.cmdTake a m).wl = s.wl := rfl
@[simp] theorem State.cmdTake_gov (s : State) (a : Nat) (m : Word) : (s.cmdTake a m).gov = s.gov := rfl
@[simp] theorem State.cmdTake_pg (s : State) (a : Nat) (m : Word) : (s.cmdTake a m).pg = s.pg := rfl
@[simp] theorem State.cmdTake_pin (s : State) (a : Nat) (m : Word) : (s.cmdTake a m).pin = s.pin := rfl
@[simp] theorem State.cmdTake_lvl (s : State) (a : Nat) (m : Word) : (s.cmdTake a m).lvl = s.lvl := rfl
@[simp] theorem State.cmdTake_lg (s : State) (a : Nat) (m : Word) : (s.cmdTake a m).lg = s.lg := rfl
@[simp] theorem State.cmdTake_mon (s : State) (a : Nat) (m : Word) : (s.cmdTake a m).mon = s.mon := rfl
@[simp] theorem State.cmdTake_brg (s : State) (a : Nat) (m : Word) : (s.cmdTake a m).brg = s.brg := rfl
@[simp] theorem State.cmdTake_link (s : State) (a : Nat) (m : Word) : (s.cmdTake a m).link = s.link := rfl
@[simp] theorem State.cmdTake_dram (s : State) (a : Nat) (m : Word) : (s.cmdTake a m).dram = s.dram := rfl
@[simp] theorem State.cmdTake_mem (s : State) (a : Nat) (m : Word) : (s.cmdTake a m).mem = s.mem := rfl
@[simp] theorem State.cmdTake_host (s : State) (a : Nat) (m : Word) : (s.cmdTake a m).host = s.host := rfl
@[simp] theorem State.cmdTake_flt (s : State) (a : Nat) (m : Word) : (s.cmdTake a m).flt = s.flt := rfl
@[simp] theorem State.cmdTake_plc (s : State) (a : Nat) (m : Word) : (s.cmdTake a m).plc = s.plc := rfl
@[simp] theorem State.cmdTake_jtag (s : State) (a : Nat) (m : Word) : (s.cmdTake a m).jtag = s.jtag := rfl
@[simp] theorem State.cmdTake_smb (s : State) (a : Nat) (m : Word) : (s.cmdTake a m).smb = s.smb := rfl
@[simp] theorem State.cmdTake_undef (s : State) (a : Nat) (m : Word) : (s.cmdTake a m).undef = s.undef := rfl
@[simp] theorem State.cmdTake_freeN (s : State) (a : Nat) (m : Word) : (s.cmdTake a m).freeN = s.freeN := rfl
@[simp] theorem State.cmdTake_pending (s : State) (a : Nat) (m : Word) : (s.cmdTake a m).pending = s.pending := rfl
/-! ### State.cmdDrop -/
@[simp] theorem State.cmdDrop_part (s : State) (a : Nat) (m : Word) : (s.cmdDrop a m).part = s.part := rfl
@[simp] theorem State.cmdDrop_clk (s : State) (a : Nat) (m : Word) : (s.cmdDrop a m).clk = s.clk := rfl
@[simp] theorem State.cmdDrop_pwr (s : State) (a : Nat) (m : Word) : (s.cmdDrop a m).pwr = s.pwr := rfl
@[simp] theorem State.cmdDrop_img (s : State) (a : Nat) (m : Word) : (s.cmdDrop a m).img = s.img := rfl
@[simp] theorem State.cmdDrop_ovl (s : State) (a : Nat) (m : Word) : (s.cmdDrop a m).ovl = s.ovl := rfl
@[simp] theorem State.cmdDrop_trg (s : State) (a : Nat) (m : Word) : (s.cmdDrop a m).trg = s.trg := rfl
@[simp] theorem State.cmdDrop_cfg (s : State) (a : Nat) (m : Word) : (s.cmdDrop a m).cfg = s.cfg := rfl
@[simp] theorem State.cmdDrop_eff (s : State) (a : Nat) (m : Word) : (s.cmdDrop a m).eff = s.eff := rfl
@[simp] theorem State.cmdDrop_flg (s : State) (a : Nat) (m : Word) : (s.cmdDrop a m).flg = s.flg := rfl
@[simp] theorem State.cmdDrop_ctr (s : State) (a : Nat) (m : Word) : (s.cmdDrop a m).ctr = s.ctr := rfl
@[simp] theorem State.cmdDrop_errAddr (s : State) (a : Nat) (m : Word) : (s.cmdDrop a m).errAddr = s.errAddr := rfl
@[simp] theorem State.cmdDrop_errWrite (s : State) (a : Nat) (m : Word) : (s.cmdDrop a m).errWrite = s.errWrite := rfl
@[simp] theorem State.cmdDrop_tabs (s : State) (a : Nat) (m : Word) : (s.cmdDrop a m).tabs = s.tabs := rfl
@[simp] theorem State.cmdDrop_was (s : State) (a : Nat) (m : Word) : (s.cmdDrop a m).was = s.was := rfl
@[simp] theorem State.cmdDrop_clu (s : State) (a : Nat) (m : Word) : (s.cmdDrop a m).clu = s.clu := rfl
@[simp] theorem State.cmdDrop_wl (s : State) (a : Nat) (m : Word) : (s.cmdDrop a m).wl = s.wl := rfl
@[simp] theorem State.cmdDrop_gov (s : State) (a : Nat) (m : Word) : (s.cmdDrop a m).gov = s.gov := rfl
@[simp] theorem State.cmdDrop_pg (s : State) (a : Nat) (m : Word) : (s.cmdDrop a m).pg = s.pg := rfl
@[simp] theorem State.cmdDrop_pin (s : State) (a : Nat) (m : Word) : (s.cmdDrop a m).pin = s.pin := rfl
@[simp] theorem State.cmdDrop_lvl (s : State) (a : Nat) (m : Word) : (s.cmdDrop a m).lvl = s.lvl := rfl
@[simp] theorem State.cmdDrop_lg (s : State) (a : Nat) (m : Word) : (s.cmdDrop a m).lg = s.lg := rfl
@[simp] theorem State.cmdDrop_mon (s : State) (a : Nat) (m : Word) : (s.cmdDrop a m).mon = s.mon := rfl
@[simp] theorem State.cmdDrop_brg (s : State) (a : Nat) (m : Word) : (s.cmdDrop a m).brg = s.brg := rfl
@[simp] theorem State.cmdDrop_link (s : State) (a : Nat) (m : Word) : (s.cmdDrop a m).link = s.link := rfl
@[simp] theorem State.cmdDrop_dram (s : State) (a : Nat) (m : Word) : (s.cmdDrop a m).dram = s.dram := rfl
@[simp] theorem State.cmdDrop_mem (s : State) (a : Nat) (m : Word) : (s.cmdDrop a m).mem = s.mem := rfl
@[simp] theorem State.cmdDrop_host (s : State) (a : Nat) (m : Word) : (s.cmdDrop a m).host = s.host := rfl
@[simp] theorem State.cmdDrop_flt (s : State) (a : Nat) (m : Word) : (s.cmdDrop a m).flt = s.flt := rfl
@[simp] theorem State.cmdDrop_plc (s : State) (a : Nat) (m : Word) : (s.cmdDrop a m).plc = s.plc := rfl
@[simp] theorem State.cmdDrop_jtag (s : State) (a : Nat) (m : Word) : (s.cmdDrop a m).jtag = s.jtag := rfl
@[simp] theorem State.cmdDrop_smb (s : State) (a : Nat) (m : Word) : (s.cmdDrop a m).smb = s.smb := rfl
@[simp] theorem State.cmdDrop_undef (s : State) (a : Nat) (m : Word) : (s.cmdDrop a m).undef = s.undef := rfl
@[simp] theorem State.cmdDrop_freeN (s : State) (a : Nat) (m : Word) : (s.cmdDrop a m).freeN = s.freeN := rfl
@[simp] theorem State.cmdDrop_pending (s : State) (a : Nat) (m : Word) : (s.cmdDrop a m).pending = s.pending := rfl
/-! ### State.count -/
@[simp] theorem State.count_part (s : State) (a n : Nat) : (s.count a n).part = s.part := (State.count_within s a n .part (by decide))
@[simp] theorem State.count_clk (s : State) (a n : Nat) : (s.count a n).clk = s.clk := (State.count_within s a n .clk (by decide))
@[simp] theorem State.count_pwr (s : State) (a n : Nat) : (s.count a n).pwr = s.pwr := (State.count_within s a n .pwr (by decide))
@[simp] theorem State.count_img (s : State) (a n : Nat) : (s.count a n).img = s.img := (State.count_within s a n .img (by decide))
@[simp] theorem State.count_ovl (s : State) (a n : Nat) : (s.count a n).ovl = s.ovl := (State.count_within s a n .ovl (by decide))
@[simp] theorem State.count_trg (s : State) (a n : Nat) : (s.count a n).trg = s.trg := (State.count_within s a n .trg (by decide))
@[simp] theorem State.count_cfg (s : State) (a n : Nat) : (s.count a n).cfg = s.cfg := (State.count_within s a n .cfg (by decide))
@[simp] theorem State.count_eff (s : State) (a n : Nat) : (s.count a n).eff = s.eff := (State.count_within s a n .eff (by decide))
@[simp] theorem State.count_flg (s : State) (a n : Nat) : (s.count a n).flg = s.flg := (State.count_within s a n .flg (by decide))
@[simp] theorem State.count_cmd (s : State) (a n : Nat) : (s.count a n).cmd = s.cmd := (State.count_within s a n .cmd (by decide))
@[simp] theorem State.count_more (s : State) (a n : Nat) : (s.count a n).more = s.more := (State.count_within s a n .more (by decide))
@[simp] theorem State.count_errAddr (s : State) (a n : Nat) : (s.count a n).errAddr = s.errAddr := (State.count_within s a n .err (by decide)).1
@[simp] theorem State.count_errWrite (s : State) (a n : Nat) : (s.count a n).errWrite = s.errWrite := (State.count_within s a n .err (by decide)).2
@[simp] theorem State.count_tabs (s : State) (a n : Nat) : (s.count a n).tabs = s.tabs := (State.count_within s a n .tabs (by decide))
@[simp] theorem State.count_was (s : State) (a n : Nat) : (s.count a n).was = s.was := (State.count_within s a n .was (by decide))
@[simp] theorem State.count_clu (s : State) (a n : Nat) : (s.count a n).clu = s.clu := (State.count_within s a n .clu (by decide))
@[simp] theorem State.count_wl (s : State) (a n : Nat) : (s.count a n).wl = s.wl := (State.count_within s a n .wl (by decide))
@[simp] theorem State.count_gov (s : State) (a n : Nat) : (s.count a n).gov = s.gov := (State.count_within s a n .gov (by decide))
@[simp] theorem State.count_pg (s : State) (a n : Nat) : (s.count a n).pg = s.pg := (State.count_within s a n .pg (by decide))
@[simp] theorem State.count_pin (s : State) (a n : Nat) : (s.count a n).pin = s.pin := (State.count_within s a n .pin (by decide))
@[simp] theorem State.count_lvl (s : State) (a n : Nat) : (s.count a n).lvl = s.lvl := (State.count_within s a n .lvl (by decide))
@[simp] theorem State.count_lg (s : State) (a n : Nat) : (s.count a n).lg = s.lg := (State.count_within s a n .lg (by decide))
@[simp] theorem State.count_mon (s : State) (a n : Nat) : (s.count a n).mon = s.mon := (State.count_within s a n .mon (by decide))
@[simp] theorem State.count_brg (s : State) (a n : Nat) : (s.count a n).brg = s.brg := (State.count_within s a n .brg (by decide))
@[simp] theorem State.count_link (s : State) (a n : Nat) : (s.count a n).link = s.link := (State.count_within s a n .link (by decide))
@[simp] theorem State.count_flt (s : State) (a n : Nat) : (s.count a n).flt = s.flt := (State.count_within s a n .flt (by decide))
@[simp] theorem State.count_plc (s : State) (a n : Nat) : (s.count a n).plc = s.plc := (State.count_within s a n .plc (by decide))
@[simp] theorem State.count_jtag (s : State) (a n : Nat) : (s.count a n).jtag = s.jtag := (State.count_within s a n .jtag (by decide))
@[simp] theorem State.count_smb (s : State) (a n : Nat) : (s.count a n).smb = s.smb := (State.count_within s a n .smb (by decide))
@[simp] theorem State.count_undef (s : State) (a n : Nat) : (s.count a n).undef = s.undef := (State.count_within s a n .undef (by decide))
@[simp] theorem State.count_freeN (s : State) (a n : Nat) : (s.count a n).freeN = s.freeN := (State.count_within s a n .freeN (by decide))
@[simp] theorem State.count_pending (s : State) (a n : Nat) : (s.count a n).pending = s.pending := (State.count_within s a n .pending (by decide))
/-! ### State.setFlag -/
@[simp] theorem State.setFlag_part (s : State) (a : Nat) (m : Word) : (s.setFlag a m).part = s.part := (State.setFlag_within s a m .part (by decide))
@[simp] theorem State.setFlag_clk (s : State) (a : Nat) (m : Word) : (s.setFlag a m).clk = s.clk := (State.setFlag_within s a m .clk (by decide))
@[simp] theorem State.setFlag_pwr (s : State) (a : Nat) (m : Word) : (s.setFlag a m).pwr = s.pwr := (State.setFlag_within s a m .pwr (by decide))
@[simp] theorem State.setFlag_img (s : State) (a : Nat) (m : Word) : (s.setFlag a m).img = s.img := (State.setFlag_within s a m .img (by decide))
@[simp] theorem State.setFlag_ovl (s : State) (a : Nat) (m : Word) : (s.setFlag a m).ovl = s.ovl := (State.setFlag_within s a m .ovl (by decide))
@[simp] theorem State.setFlag_trg (s : State) (a : Nat) (m : Word) : (s.setFlag a m).trg = s.trg := (State.setFlag_within s a m .trg (by decide))
@[simp] theorem State.setFlag_cfg (s : State) (a : Nat) (m : Word) : (s.setFlag a m).cfg = s.cfg := (State.setFlag_within s a m .cfg (by decide))
@[simp] theorem State.setFlag_eff (s : State) (a : Nat) (m : Word) : (s.setFlag a m).eff = s.eff := (State.setFlag_within s a m .eff (by decide))
@[simp] theorem State.setFlag_ctr (s : State) (a : Nat) (m : Word) : (s.setFlag a m).ctr = s.ctr := (State.setFlag_within s a m .ctr (by decide))
@[simp] theorem State.setFlag_cmd (s : State) (a : Nat) (m : Word) : (s.setFlag a m).cmd = s.cmd := (State.setFlag_within s a m .cmd (by decide))
@[simp] theorem State.setFlag_more (s : State) (a : Nat) (m : Word) : (s.setFlag a m).more = s.more := (State.setFlag_within s a m .more (by decide))
@[simp] theorem State.setFlag_errAddr (s : State) (a : Nat) (m : Word) : (s.setFlag a m).errAddr = s.errAddr := (State.setFlag_within s a m .err (by decide)).1
@[simp] theorem State.setFlag_errWrite (s : State) (a : Nat) (m : Word) : (s.setFlag a m).errWrite = s.errWrite := (State.setFlag_within s a m .err (by decide)).2
@[simp] theorem State.setFlag_tabs (s : State) (a : Nat) (m : Word) : (s.setFlag a m).tabs = s.tabs := (State.setFlag_within s a m .tabs (by decide))
@[simp] theorem State.setFlag_was (s : State) (a : Nat) (m : Word) : (s.setFlag a m).was = s.was := (State.setFlag_within s a m .was (by decide))
@[simp] theorem State.setFlag_clu (s : State) (a : Nat) (m : Word) : (s.setFlag a m).clu = s.clu := (State.setFlag_within s a m .clu (by decide))
@[simp] theorem State.setFlag_wl (s : State) (a : Nat) (m : Word) : (s.setFlag a m).wl = s.wl := (State.setFlag_within s a m .wl (by decide))
@[simp] theorem State.setFlag_gov (s : State) (a : Nat) (m : Word) : (s.setFlag a m).gov = s.gov := (State.setFlag_within s a m .gov (by decide))
@[simp] theorem State.setFlag_pg (s : State) (a : Nat) (m : Word) : (s.setFlag a m).pg = s.pg := (State.setFlag_within s a m .pg (by decide))
@[simp] theorem State.setFlag_pin (s : State) (a : Nat) (m : Word) : (s.setFlag a m).pin = s.pin := (State.setFlag_within s a m .pin (by decide))
@[simp] theorem State.setFlag_lvl (s : State) (a : Nat) (m : Word) : (s.setFlag a m).lvl = s.lvl := (State.setFlag_within s a m .lvl (by decide))
@[simp] theorem State.setFlag_lg (s : State) (a : Nat) (m : Word) : (s.setFlag a m).lg = s.lg := (State.setFlag_within s a m .lg (by decide))
@[simp] theorem State.setFlag_mon (s : State) (a : Nat) (m : Word) : (s.setFlag a m).mon = s.mon := (State.setFlag_within s a m .mon (by decide))
@[simp] theorem State.setFlag_brg (s : State) (a : Nat) (m : Word) : (s.setFlag a m).brg = s.brg := (State.setFlag_within s a m .brg (by decide))
@[simp] theorem State.setFlag_link (s : State) (a : Nat) (m : Word) : (s.setFlag a m).link = s.link := (State.setFlag_within s a m .link (by decide))
@[simp] theorem State.setFlag_flt (s : State) (a : Nat) (m : Word) : (s.setFlag a m).flt = s.flt := (State.setFlag_within s a m .flt (by decide))
@[simp] theorem State.setFlag_plc (s : State) (a : Nat) (m : Word) : (s.setFlag a m).plc = s.plc := (State.setFlag_within s a m .plc (by decide))
@[simp] theorem State.setFlag_jtag (s : State) (a : Nat) (m : Word) : (s.setFlag a m).jtag = s.jtag := (State.setFlag_within s a m .jtag (by decide))
@[simp] theorem State.setFlag_smb (s : State) (a : Nat) (m : Word) : (s.setFlag a m).smb = s.smb := (State.setFlag_within s a m .smb (by decide))
@[simp] theorem State.setFlag_undef (s : State) (a : Nat) (m : Word) : (s.setFlag a m).undef = s.undef := (State.setFlag_within s a m .undef (by decide))
@[simp] theorem State.setFlag_freeN (s : State) (a : Nat) (m : Word) : (s.setFlag a m).freeN = s.freeN := (State.setFlag_within s a m .freeN (by decide))
@[simp] theorem State.setFlag_pending (s : State) (a : Nat) (m : Word) : (s.setFlag a m).pending = s.pending := (State.setFlag_within s a m .pending (by decide))
/-! ### State.setBit -/
@[simp] theorem State.setBit_part (s : State) (a i : Nat) : (s.setBit a i).part = s.part := (State.setBit_within s a i .part (by decide))
@[simp] theorem State.setBit_clk (s : State) (a i : Nat) : (s.setBit a i).clk = s.clk := (State.setBit_within s a i .clk (by decide))
@[simp] theorem State.setBit_pwr (s : State) (a i : Nat) : (s.setBit a i).pwr = s.pwr := (State.setBit_within s a i .pwr (by decide))
@[simp] theorem State.setBit_img (s : State) (a i : Nat) : (s.setBit a i).img = s.img := (State.setBit_within s a i .img (by decide))
@[simp] theorem State.setBit_ovl (s : State) (a i : Nat) : (s.setBit a i).ovl = s.ovl := (State.setBit_within s a i .ovl (by decide))
@[simp] theorem State.setBit_trg (s : State) (a i : Nat) : (s.setBit a i).trg = s.trg := (State.setBit_within s a i .trg (by decide))
@[simp] theorem State.setBit_cfg (s : State) (a i : Nat) : (s.setBit a i).cfg = s.cfg := (State.setBit_within s a i .cfg (by decide))
@[simp] theorem State.setBit_eff (s : State) (a i : Nat) : (s.setBit a i).eff = s.eff := (State.setBit_within s a i .eff (by decide))
@[simp] theorem State.setBit_ctr (s : State) (a i : Nat) : (s.setBit a i).ctr = s.ctr := (State.setBit_within s a i .ctr (by decide))
@[simp] theorem State.setBit_cmd (s : State) (a i : Nat) : (s.setBit a i).cmd = s.cmd := (State.setBit_within s a i .cmd (by decide))
@[simp] theorem State.setBit_more (s : State) (a i : Nat) : (s.setBit a i).more = s.more := (State.setBit_within s a i .more (by decide))
@[simp] theorem State.setBit_errAddr (s : State) (a i : Nat) : (s.setBit a i).errAddr = s.errAddr := (State.setBit_within s a i .err (by decide)).1
@[simp] theorem State.setBit_errWrite (s : State) (a i : Nat) : (s.setBit a i).errWrite = s.errWrite := (State.setBit_within s a i .err (by decide)).2
@[simp] theorem State.setBit_tabs (s : State) (a i : Nat) : (s.setBit a i).tabs = s.tabs := (State.setBit_within s a i .tabs (by decide))
@[simp] theorem State.setBit_was (s : State) (a i : Nat) : (s.setBit a i).was = s.was := (State.setBit_within s a i .was (by decide))
@[simp] theorem State.setBit_clu (s : State) (a i : Nat) : (s.setBit a i).clu = s.clu := (State.setBit_within s a i .clu (by decide))
@[simp] theorem State.setBit_wl (s : State) (a i : Nat) : (s.setBit a i).wl = s.wl := (State.setBit_within s a i .wl (by decide))
@[simp] theorem State.setBit_gov (s : State) (a i : Nat) : (s.setBit a i).gov = s.gov := (State.setBit_within s a i .gov (by decide))
@[simp] theorem State.setBit_pg (s : State) (a i : Nat) : (s.setBit a i).pg = s.pg := (State.setBit_within s a i .pg (by decide))
@[simp] theorem State.setBit_pin (s : State) (a i : Nat) : (s.setBit a i).pin = s.pin := (State.setBit_within s a i .pin (by decide))
@[simp] theorem State.setBit_lvl (s : State) (a i : Nat) : (s.setBit a i).lvl = s.lvl := (State.setBit_within s a i .lvl (by decide))
@[simp] theorem State.setBit_lg (s : State) (a i : Nat) : (s.setBit a i).lg = s.lg := (State.setBit_within s a i .lg (by decide))
@[simp] theorem State.setBit_mon (s : State) (a i : Nat) : (s.setBit a i).mon = s.mon := (State.setBit_within s a i .mon (by decide))
@[simp] theorem State.setBit_brg (s : State) (a i : Nat) : (s.setBit a i).brg = s.brg := (State.setBit_within s a i .brg (by decide))
@[simp] theorem State.setBit_link (s : State) (a i : Nat) : (s.setBit a i).link = s.link := (State.setBit_within s a i .link (by decide))
@[simp] theorem State.setBit_flt (s : State) (a i : Nat) : (s.setBit a i).flt = s.flt := (State.setBit_within s a i .flt (by decide))
@[simp] theorem State.setBit_plc (s : State) (a i : Nat) : (s.setBit a i).plc = s.plc := (State.setBit_within s a i .plc (by decide))
@[simp] theorem State.setBit_jtag (s : State) (a i : Nat) : (s.setBit a i).jtag = s.jtag := (State.setBit_within s a i .jtag (by decide))
@[simp] theorem State.setBit_smb (s : State) (a i : Nat) : (s.setBit a i).smb = s.smb := (State.setBit_within s a i .smb (by decide))
@[simp] theorem State.setBit_undef (s : State) (a i : Nat) : (s.setBit a i).undef = s.undef := (State.setBit_within s a i .undef (by decide))
@[simp] theorem State.setBit_freeN (s : State) (a i : Nat) : (s.setBit a i).freeN = s.freeN := (State.setBit_within s a i .freeN (by decide))
@[simp] theorem State.setBit_pending (s : State) (a i : Nat) : (s.setBit a i).pending = s.pending := (State.setBit_within s a i .pending (by decide))
/-! ### State.setBitIf -/
@[simp] theorem State.setBitIf_part (s : State) (c : Bool) (a i : Nat) : (s.setBitIf c a i).part = s.part := (State.setBitIf_within s c a i .part (by decide))
@[simp] theorem State.setBitIf_clk (s : State) (c : Bool) (a i : Nat) : (s.setBitIf c a i).clk = s.clk := (State.setBitIf_within s c a i .clk (by decide))
@[simp] theorem State.setBitIf_pwr (s : State) (c : Bool) (a i : Nat) : (s.setBitIf c a i).pwr = s.pwr := (State.setBitIf_within s c a i .pwr (by decide))
@[simp] theorem State.setBitIf_img (s : State) (c : Bool) (a i : Nat) : (s.setBitIf c a i).img = s.img := (State.setBitIf_within s c a i .img (by decide))
@[simp] theorem State.setBitIf_ovl (s : State) (c : Bool) (a i : Nat) : (s.setBitIf c a i).ovl = s.ovl := (State.setBitIf_within s c a i .ovl (by decide))
@[simp] theorem State.setBitIf_trg (s : State) (c : Bool) (a i : Nat) : (s.setBitIf c a i).trg = s.trg := (State.setBitIf_within s c a i .trg (by decide))
@[simp] theorem State.setBitIf_cfg (s : State) (c : Bool) (a i : Nat) : (s.setBitIf c a i).cfg = s.cfg := (State.setBitIf_within s c a i .cfg (by decide))
@[simp] theorem State.setBitIf_eff (s : State) (c : Bool) (a i : Nat) : (s.setBitIf c a i).eff = s.eff := (State.setBitIf_within s c a i .eff (by decide))
@[simp] theorem State.setBitIf_ctr (s : State) (c : Bool) (a i : Nat) : (s.setBitIf c a i).ctr = s.ctr := (State.setBitIf_within s c a i .ctr (by decide))
@[simp] theorem State.setBitIf_cmd (s : State) (c : Bool) (a i : Nat) : (s.setBitIf c a i).cmd = s.cmd := (State.setBitIf_within s c a i .cmd (by decide))
@[simp] theorem State.setBitIf_more (s : State) (c : Bool) (a i : Nat) : (s.setBitIf c a i).more = s.more := (State.setBitIf_within s c a i .more (by decide))
@[simp] theorem State.setBitIf_errAddr (s : State) (c : Bool) (a i : Nat) : (s.setBitIf c a i).errAddr = s.errAddr := (State.setBitIf_within s c a i .err (by decide)).1
@[simp] theorem State.setBitIf_errWrite (s : State) (c : Bool) (a i : Nat) : (s.setBitIf c a i).errWrite = s.errWrite := (State.setBitIf_within s c a i .err (by decide)).2
@[simp] theorem State.setBitIf_tabs (s : State) (c : Bool) (a i : Nat) : (s.setBitIf c a i).tabs = s.tabs := (State.setBitIf_within s c a i .tabs (by decide))
@[simp] theorem State.setBitIf_was (s : State) (c : Bool) (a i : Nat) : (s.setBitIf c a i).was = s.was := (State.setBitIf_within s c a i .was (by decide))
@[simp] theorem State.setBitIf_clu (s : State) (c : Bool) (a i : Nat) : (s.setBitIf c a i).clu = s.clu := (State.setBitIf_within s c a i .clu (by decide))
@[simp] theorem State.setBitIf_wl (s : State) (c : Bool) (a i : Nat) : (s.setBitIf c a i).wl = s.wl := (State.setBitIf_within s c a i .wl (by decide))
@[simp] theorem State.setBitIf_gov (s : State) (c : Bool) (a i : Nat) : (s.setBitIf c a i).gov = s.gov := (State.setBitIf_within s c a i .gov (by decide))
@[simp] theorem State.setBitIf_pg (s : State) (c : Bool) (a i : Nat) : (s.setBitIf c a i).pg = s.pg := (State.setBitIf_within s c a i .pg (by decide))
@[simp] theorem State.setBitIf_pin (s : State) (c : Bool) (a i : Nat) : (s.setBitIf c a i).pin = s.pin := (State.setBitIf_within s c a i .pin (by decide))
@[simp] theorem State.setBitIf_lvl (s : State) (c : Bool) (a i : Nat) : (s.setBitIf c a i).lvl = s.lvl := (State.setBitIf_within s c a i .lvl (by decide))
@[simp] theorem State.setBitIf_lg (s : State) (c : Bool) (a i : Nat) : (s.setBitIf c a i).lg = s.lg := (State.setBitIf_within s c a i .lg (by decide))
@[simp] theorem State.setBitIf_mon (s : State) (c : Bool) (a i : Nat) : (s.setBitIf c a i).mon = s.mon := (State.setBitIf_within s c a i .mon (by decide))
@[simp] theorem State.setBitIf_brg (s : State) (c : Bool) (a i : Nat) : (s.setBitIf c a i).brg = s.brg := (State.setBitIf_within s c a i .brg (by decide))
@[simp] theorem State.setBitIf_link (s : State) (c : Bool) (a i : Nat) : (s.setBitIf c a i).link = s.link := (State.setBitIf_within s c a i .link (by decide))
@[simp] theorem State.setBitIf_flt (s : State) (c : Bool) (a i : Nat) : (s.setBitIf c a i).flt = s.flt := (State.setBitIf_within s c a i .flt (by decide))
@[simp] theorem State.setBitIf_plc (s : State) (c : Bool) (a i : Nat) : (s.setBitIf c a i).plc = s.plc := (State.setBitIf_within s c a i .plc (by decide))
@[simp] theorem State.setBitIf_jtag (s : State) (c : Bool) (a i : Nat) : (s.setBitIf c a i).jtag = s.jtag := (State.setBitIf_within s c a i .jtag (by decide))
@[simp] theorem State.setBitIf_smb (s : State) (c : Bool) (a i : Nat) : (s.setBitIf c a i).smb = s.smb := (State.setBitIf_within s c a i .smb (by decide))
@[simp] theorem State.setBitIf_undef (s : State) (c : Bool) (a i : Nat) : (s.setBitIf c a i).undef = s.undef := (State.setBitIf_within s c a i .undef (by decide))
@[simp] theorem State.setBitIf_freeN (s : State) (c : Bool) (a i : Nat) : (s.setBitIf c a i).freeN = s.freeN := (State.setBitIf_within s c a i .freeN (by decide))
@[simp] theorem State.setBitIf_pending (s : State) (c : Bool) (a i : Nat) : (s.setBitIf c a i).pending = s.pending := (State.setBitIf_within s c a i .pending (by decide))
/-! ### State.clearFlag -/
@[simp] theorem State.clearFlag_part (s : State) (a : Nat) (m : Word) : (s.clearFlag a m).part = s.part := (State.clearFlag_within s a m .part (by decide))
@[simp] theorem State.clearFlag_clk (s : State) (a : Nat) (m : Word) : (s.clearFlag a m).clk = s.clk := (State.clearFlag_within s a m .clk (by decide))
@[simp] theorem State.clearFlag_pwr (s : State) (a : Nat) (m : Word) : (s.clearFlag a m).pwr = s.pwr := (State.clearFlag_within s a m .pwr (by decide))
@[simp] theorem State.clearFlag_img (s : State) (a : Nat) (m : Word) : (s.clearFlag a m).img = s.img := (State.clearFlag_within s a m .img (by decide))
@[simp] theorem State.clearFlag_ovl (s : State) (a : Nat) (m : Word) : (s.clearFlag a m).ovl = s.ovl := (State.clearFlag_within s a m .ovl (by decide))
@[simp] theorem State.clearFlag_trg (s : State) (a : Nat) (m : Word) : (s.clearFlag a m).trg = s.trg := (State.clearFlag_within s a m .trg (by decide))
@[simp] theorem State.clearFlag_cfg (s : State) (a : Nat) (m : Word) : (s.clearFlag a m).cfg = s.cfg := (State.clearFlag_within s a m .cfg (by decide))
@[simp] theorem State.clearFlag_eff (s : State) (a : Nat) (m : Word) : (s.clearFlag a m).eff = s.eff := (State.clearFlag_within s a m .eff (by decide))
@[simp] theorem State.clearFlag_ctr (s : State) (a : Nat) (m : Word) : (s.clearFlag a m).ctr = s.ctr := (State.clearFlag_within s a m .ctr (by decide))
@[simp] theorem State.clearFlag_cmd (s : State) (a : Nat) (m : Word) : (s.clearFlag a m).cmd = s.cmd := (State.clearFlag_within s a m .cmd (by decide))
@[simp] theorem State.clearFlag_more (s : State) (a : Nat) (m : Word) : (s.clearFlag a m).more = s.more := (State.clearFlag_within s a m .more (by decide))
@[simp] theorem State.clearFlag_errAddr (s : State) (a : Nat) (m : Word) : (s.clearFlag a m).errAddr = s.errAddr := (State.clearFlag_within s a m .err (by decide)).1
@[simp] theorem State.clearFlag_errWrite (s : State) (a : Nat) (m : Word) : (s.clearFlag a m).errWrite = s.errWrite := (State.clearFlag_within s a m .err (by decide)).2
@[simp] theorem State.clearFlag_tabs (s : State) (a : Nat) (m : Word) : (s.clearFlag a m).tabs = s.tabs := (State.clearFlag_within s a m .tabs (by decide))
@[simp] theorem State.clearFlag_was (s : State) (a : Nat) (m : Word) : (s.clearFlag a m).was = s.was := (State.clearFlag_within s a m .was (by decide))
@[simp] theorem State.clearFlag_clu (s : State) (a : Nat) (m : Word) : (s.clearFlag a m).clu = s.clu := (State.clearFlag_within s a m .clu (by decide))
@[simp] theorem State.clearFlag_wl (s : State) (a : Nat) (m : Word) : (s.clearFlag a m).wl = s.wl := (State.clearFlag_within s a m .wl (by decide))
@[simp] theorem State.clearFlag_gov (s : State) (a : Nat) (m : Word) : (s.clearFlag a m).gov = s.gov := (State.clearFlag_within s a m .gov (by decide))
@[simp] theorem State.clearFlag_pg (s : State) (a : Nat) (m : Word) : (s.clearFlag a m).pg = s.pg := (State.clearFlag_within s a m .pg (by decide))
@[simp] theorem State.clearFlag_pin (s : State) (a : Nat) (m : Word) : (s.clearFlag a m).pin = s.pin := (State.clearFlag_within s a m .pin (by decide))
@[simp] theorem State.clearFlag_lvl (s : State) (a : Nat) (m : Word) : (s.clearFlag a m).lvl = s.lvl := (State.clearFlag_within s a m .lvl (by decide))
@[simp] theorem State.clearFlag_lg (s : State) (a : Nat) (m : Word) : (s.clearFlag a m).lg = s.lg := (State.clearFlag_within s a m .lg (by decide))
@[simp] theorem State.clearFlag_mon (s : State) (a : Nat) (m : Word) : (s.clearFlag a m).mon = s.mon := (State.clearFlag_within s a m .mon (by decide))
@[simp] theorem State.clearFlag_brg (s : State) (a : Nat) (m : Word) : (s.clearFlag a m).brg = s.brg := (State.clearFlag_within s a m .brg (by decide))
@[simp] theorem State.clearFlag_link (s : State) (a : Nat) (m : Word) : (s.clearFlag a m).link = s.link := (State.clearFlag_within s a m .link (by decide))
@[simp] theorem State.clearFlag_flt (s : State) (a : Nat) (m : Word) : (s.clearFlag a m).flt = s.flt := (State.clearFlag_within s a m .flt (by decide))
@[simp] theorem State.clearFlag_plc (s : State) (a : Nat) (m : Word) : (s.clearFlag a m).plc = s.plc := (State.clearFlag_within s a m .plc (by decide))
@[simp] theorem State.clearFlag_jtag (s : State) (a : Nat) (m : Word) : (s.clearFlag a m).jtag = s.jtag := (State.clearFlag_within s a m .jtag (by decide))
@[simp] theorem State.clearFlag_smb (s : State) (a : Nat) (m : Word) : (s.clearFlag a m).smb = s.smb := (State.clearFlag_within s a m .smb (by decide))
@[simp] theorem State.clearFlag_undef (s : State) (a : Nat) (m : Word) : (s.clearFlag a m).undef = s.undef := (State.clearFlag_within s a m .undef (by decide))
@[simp] theorem State.clearFlag_freeN (s : State) (a : Nat) (m : Word) : (s.clearFlag a m).freeN = s.freeN := (State.clearFlag_within s a m .freeN (by decide))
@[simp] theorem State.clearFlag_pending (s : State) (a : Nat) (m : Word) : (s.clearFlag a m).pending = s.pending := (State.clearFlag_within s a m .pending (by decide))
/-! ### State.clearCtrs -/
@[simp] theorem State.clearCtrs_part (s : State) (l : List Nat) : (s.clearCtrs l).part = s.part := (State.clearCtrs_within s l .part (by decide))
@[simp] theorem State.clearCtrs_clk (s : State) (l : List Nat) : (s.clearCtrs l).clk = s.clk := (State.clearCtrs_within s l .clk (by decide))
@[simp] theorem State.clearCtrs_pwr (s : State) (l : List Nat) : (s.clearCtrs l).pwr = s.pwr := (State.clearCtrs_within s l .pwr (by decide))
@[simp] theorem State.clearCtrs_img (s : State) (l : List Nat) : (s.clearCtrs l).img = s.img := (State.clearCtrs_within s l .img (by decide))
@[simp] theorem State.clearCtrs_ovl (s : State) (l : List Nat) : (s.clearCtrs l).ovl = s.ovl := (State.clearCtrs_within s l .ovl (by decide))
@[simp] theorem State.clearCtrs_trg (s : State) (l : List Nat) : (s.clearCtrs l).trg = s.trg := (State.clearCtrs_within s l .trg (by decide))
@[simp] theorem State.clearCtrs_cfg (s : State) (l : List Nat) : (s.clearCtrs l).cfg = s.cfg := (State.clearCtrs_within s l .cfg (by decide))
@[simp] theorem State.clearCtrs_eff (s : State) (l : List Nat) : (s.clearCtrs l).eff = s.eff := (State.clearCtrs_within s l .eff (by decide))
@[simp] theorem State.clearCtrs_flg (s : State) (l : List Nat) : (s.clearCtrs l).flg = s.flg := (State.clearCtrs_within s l .flg (by decide))
@[simp] theorem State.clearCtrs_cmd (s : State) (l : List Nat) : (s.clearCtrs l).cmd = s.cmd := (State.clearCtrs_within s l .cmd (by decide))
@[simp] theorem State.clearCtrs_more (s : State) (l : List Nat) : (s.clearCtrs l).more = s.more := (State.clearCtrs_within s l .more (by decide))
@[simp] theorem State.clearCtrs_errAddr (s : State) (l : List Nat) : (s.clearCtrs l).errAddr = s.errAddr := (State.clearCtrs_within s l .err (by decide)).1
@[simp] theorem State.clearCtrs_errWrite (s : State) (l : List Nat) : (s.clearCtrs l).errWrite = s.errWrite := (State.clearCtrs_within s l .err (by decide)).2
@[simp] theorem State.clearCtrs_tabs (s : State) (l : List Nat) : (s.clearCtrs l).tabs = s.tabs := (State.clearCtrs_within s l .tabs (by decide))
@[simp] theorem State.clearCtrs_was (s : State) (l : List Nat) : (s.clearCtrs l).was = s.was := (State.clearCtrs_within s l .was (by decide))
@[simp] theorem State.clearCtrs_clu (s : State) (l : List Nat) : (s.clearCtrs l).clu = s.clu := (State.clearCtrs_within s l .clu (by decide))
@[simp] theorem State.clearCtrs_wl (s : State) (l : List Nat) : (s.clearCtrs l).wl = s.wl := (State.clearCtrs_within s l .wl (by decide))
@[simp] theorem State.clearCtrs_gov (s : State) (l : List Nat) : (s.clearCtrs l).gov = s.gov := (State.clearCtrs_within s l .gov (by decide))
@[simp] theorem State.clearCtrs_pg (s : State) (l : List Nat) : (s.clearCtrs l).pg = s.pg := (State.clearCtrs_within s l .pg (by decide))
@[simp] theorem State.clearCtrs_pin (s : State) (l : List Nat) : (s.clearCtrs l).pin = s.pin := (State.clearCtrs_within s l .pin (by decide))
@[simp] theorem State.clearCtrs_lvl (s : State) (l : List Nat) : (s.clearCtrs l).lvl = s.lvl := (State.clearCtrs_within s l .lvl (by decide))
@[simp] theorem State.clearCtrs_lg (s : State) (l : List Nat) : (s.clearCtrs l).lg = s.lg := (State.clearCtrs_within s l .lg (by decide))
@[simp] theorem State.clearCtrs_mon (s : State) (l : List Nat) : (s.clearCtrs l).mon = s.mon := (State.clearCtrs_within s l .mon (by decide))
@[simp] theorem State.clearCtrs_brg (s : State) (l : List Nat) : (s.clearCtrs l).brg = s.brg := (State.clearCtrs_within s l .brg (by decide))
@[simp] theorem State.clearCtrs_link (s : State) (l : List Nat) : (s.clearCtrs l).link = s.link := (State.clearCtrs_within s l .link (by decide))
@[simp] theorem State.clearCtrs_flt (s : State) (l : List Nat) : (s.clearCtrs l).flt = s.flt := (State.clearCtrs_within s l .flt (by decide))
@[simp] theorem State.clearCtrs_plc (s : State) (l : List Nat) : (s.clearCtrs l).plc = s.plc := (State.clearCtrs_within s l .plc (by decide))
@[simp] theorem State.clearCtrs_jtag (s : State) (l : List Nat) : (s.clearCtrs l).jtag = s.jtag := (State.clearCtrs_within s l .jtag (by decide))
@[simp] theorem State.clearCtrs_smb (s : State) (l : List Nat) : (s.clearCtrs l).smb = s.smb := (State.clearCtrs_within s l .smb (by decide))
@[simp] theorem State.clearCtrs_undef (s : State) (l : List Nat) : (s.clearCtrs l).undef = s.undef := (State.clearCtrs_within s l .undef (by decide))
@[simp] theorem State.clearCtrs_freeN (s : State) (l : List Nat) : (s.clearCtrs l).freeN = s.freeN := (State.clearCtrs_within s l .freeN (by decide))
@[simp] theorem State.clearCtrs_pending (s : State) (l : List Nat) : (s.clearCtrs l).pending = s.pending := (State.clearCtrs_within s l .pending (by decide))
/-! ### State.cause -/
@[simp] theorem State.cause_part (s : State) (c : BitVec 3) : (s.cause c).part = s.part := (State.cause_within s c .part (by decide))
@[simp] theorem State.cause_clk (s : State) (c : BitVec 3) : (s.cause c).clk = s.clk := (State.cause_within s c .clk (by decide))
@[simp] theorem State.cause_img (s : State) (c : BitVec 3) : (s.cause c).img = s.img := (State.cause_within s c .img (by decide))
@[simp] theorem State.cause_ovl (s : State) (c : BitVec 3) : (s.cause c).ovl = s.ovl := (State.cause_within s c .ovl (by decide))
@[simp] theorem State.cause_trg (s : State) (c : BitVec 3) : (s.cause c).trg = s.trg := (State.cause_within s c .trg (by decide))
@[simp] theorem State.cause_cfg (s : State) (c : BitVec 3) : (s.cause c).cfg = s.cfg := (State.cause_within s c .cfg (by decide))
@[simp] theorem State.cause_eff (s : State) (c : BitVec 3) : (s.cause c).eff = s.eff := (State.cause_within s c .eff (by decide))
@[simp] theorem State.cause_flg (s : State) (c : BitVec 3) : (s.cause c).flg = s.flg := (State.cause_within s c .flg (by decide))
@[simp] theorem State.cause_ctr (s : State) (c : BitVec 3) : (s.cause c).ctr = s.ctr := (State.cause_within s c .ctr (by decide))
@[simp] theorem State.cause_cmd (s : State) (c : BitVec 3) : (s.cause c).cmd = s.cmd := (State.cause_within s c .cmd (by decide))
@[simp] theorem State.cause_more (s : State) (c : BitVec 3) : (s.cause c).more = s.more := (State.cause_within s c .more (by decide))
@[simp] theorem State.cause_errAddr (s : State) (c : BitVec 3) : (s.cause c).errAddr = s.errAddr := (State.cause_within s c .err (by decide)).1
@[simp] theorem State.cause_errWrite (s : State) (c : BitVec 3) : (s.cause c).errWrite = s.errWrite := (State.cause_within s c .err (by decide)).2
@[simp] theorem State.cause_tabs (s : State) (c : BitVec 3) : (s.cause c).tabs = s.tabs := (State.cause_within s c .tabs (by decide))
@[simp] theorem State.cause_was (s : State) (c : BitVec 3) : (s.cause c).was = s.was := (State.cause_within s c .was (by decide))
@[simp] theorem State.cause_clu (s : State) (c : BitVec 3) : (s.cause c).clu = s.clu := (State.cause_within s c .clu (by decide))
@[simp] theorem State.cause_wl (s : State) (c : BitVec 3) : (s.cause c).wl = s.wl := (State.cause_within s c .wl (by decide))
@[simp] theorem State.cause_gov (s : State) (c : BitVec 3) : (s.cause c).gov = s.gov := (State.cause_within s c .gov (by decide))
@[simp] theorem State.cause_pg (s : State) (c : BitVec 3) : (s.cause c).pg = s.pg := (State.cause_within s c .pg (by decide))
@[simp] theorem State.cause_pin (s : State) (c : BitVec 3) : (s.cause c).pin = s.pin := (State.cause_within s c .pin (by decide))
@[simp] theorem State.cause_lvl (s : State) (c : BitVec 3) : (s.cause c).lvl = s.lvl := (State.cause_within s c .lvl (by decide))
@[simp] theorem State.cause_lg (s : State) (c : BitVec 3) : (s.cause c).lg = s.lg := (State.cause_within s c .lg (by decide))
@[simp] theorem State.cause_mon (s : State) (c : BitVec 3) : (s.cause c).mon = s.mon := (State.cause_within s c .mon (by decide))
@[simp] theorem State.cause_brg (s : State) (c : BitVec 3) : (s.cause c).brg = s.brg := (State.cause_within s c .brg (by decide))
@[simp] theorem State.cause_link (s : State) (c : BitVec 3) : (s.cause c).link = s.link := (State.cause_within s c .link (by decide))
@[simp] theorem State.cause_flt (s : State) (c : BitVec 3) : (s.cause c).flt = s.flt := (State.cause_within s c .flt (by decide))
@[simp] theorem State.cause_plc (s : State) (c : BitVec 3) : (s.cause c).plc = s.plc := (State.cause_within s c .plc (by decide))
@[simp] theorem State.cause_jtag (s : State) (c : BitVec 3) : (s.cause c).jtag = s.jtag := (State.cause_within s c .jtag (by decide))
@[simp] theorem State.cause_smb (s : State) (c : BitVec 3) : (s.cause c).smb = s.smb := (State.cause_within s c .smb (by decide))
@[simp] theorem State.cause_undef (s : State) (c : BitVec 3) : (s.cause c).undef = s.undef := (State.cause_within s c .undef (by decide))
@[simp] theorem State.cause_freeN (s : State) (c : BitVec 3) : (s.cause c).freeN = s.freeN := (State.cause_within s c .freeN (by decide))
@[simp] theorem State.cause_pending (s : State) (c : BitVec 3) : (s.cause c).pending = s.pending := (State.cause_within s c .pending (by decide))
/-! ### State.report -/
@[simp] theorem State.report_part (s : State) (r : FaultRec) : (s.report r).part = s.part := (State.report_within s r .part (by decide))
@[simp] theorem State.report_clk (s : State) (r : FaultRec) : (s.report r).clk = s.clk := (State.report_within s r .clk (by decide))
@[simp] theorem State.report_pwr (s : State) (r : FaultRec) : (s.report r).pwr = s.pwr := (State.report_within s r .pwr (by decide))
@[simp] theorem State.report_img (s : State) (r : FaultRec) : (s.report r).img = s.img := (State.report_within s r .img (by decide))
@[simp] theorem State.report_ovl (s : State) (r : FaultRec) : (s.report r).ovl = s.ovl := (State.report_within s r .ovl (by decide))
@[simp] theorem State.report_trg (s : State) (r : FaultRec) : (s.report r).trg = s.trg := (State.report_within s r .trg (by decide))
@[simp] theorem State.report_cfg (s : State) (r : FaultRec) : (s.report r).cfg = s.cfg := (State.report_within s r .cfg (by decide))
@[simp] theorem State.report_eff (s : State) (r : FaultRec) : (s.report r).eff = s.eff := (State.report_within s r .eff (by decide))
@[simp] theorem State.report_cmd (s : State) (r : FaultRec) : (s.report r).cmd = s.cmd := (State.report_within s r .cmd (by decide))
@[simp] theorem State.report_more (s : State) (r : FaultRec) : (s.report r).more = s.more := (State.report_within s r .more (by decide))
@[simp] theorem State.report_errAddr (s : State) (r : FaultRec) : (s.report r).errAddr = s.errAddr := (State.report_within s r .err (by decide)).1
@[simp] theorem State.report_errWrite (s : State) (r : FaultRec) : (s.report r).errWrite = s.errWrite := (State.report_within s r .err (by decide)).2
@[simp] theorem State.report_tabs (s : State) (r : FaultRec) : (s.report r).tabs = s.tabs := (State.report_within s r .tabs (by decide))
@[simp] theorem State.report_was (s : State) (r : FaultRec) : (s.report r).was = s.was := (State.report_within s r .was (by decide))
@[simp] theorem State.report_clu (s : State) (r : FaultRec) : (s.report r).clu = s.clu := (State.report_within s r .clu (by decide))
@[simp] theorem State.report_wl (s : State) (r : FaultRec) : (s.report r).wl = s.wl := (State.report_within s r .wl (by decide))
@[simp] theorem State.report_gov (s : State) (r : FaultRec) : (s.report r).gov = s.gov := (State.report_within s r .gov (by decide))
@[simp] theorem State.report_pg (s : State) (r : FaultRec) : (s.report r).pg = s.pg := (State.report_within s r .pg (by decide))
@[simp] theorem State.report_pin (s : State) (r : FaultRec) : (s.report r).pin = s.pin := (State.report_within s r .pin (by decide))
@[simp] theorem State.report_lvl (s : State) (r : FaultRec) : (s.report r).lvl = s.lvl := (State.report_within s r .lvl (by decide))
@[simp] theorem State.report_lg (s : State) (r : FaultRec) : (s.report r).lg = s.lg := (State.report_within s r .lg (by decide))
@[simp] theorem State.report_mon (s : State) (r : FaultRec) : (s.report r).mon = s.mon := (State.report_within s r .mon (by decide))
@[simp] theorem State.report_brg (s : State) (r : FaultRec) : (s.report r).brg = s.brg := (State.report_within s r .brg (by decide))
@[simp] theorem State.report_link (s : State) (r : FaultRec) : (s.report r).link = s.link := (State.report_within s r .link (by decide))
@[simp] theorem State.report_plc (s : State) (r : FaultRec) : (s.report r).plc = s.plc := (State.report_within s r .plc (by decide))
@[simp] theorem State.report_jtag (s : State) (r : FaultRec) : (s.report r).jtag = s.jtag := (State.report_within s r .jtag (by decide))
@[simp] theorem State.report_smb (s : State) (r : FaultRec) : (s.report r).smb = s.smb := (State.report_within s r .smb (by decide))
@[simp] theorem State.report_undef (s : State) (r : FaultRec) : (s.report r).undef = s.undef := (State.report_within s r .undef (by decide))
@[simp] theorem State.report_freeN (s : State) (r : FaultRec) : (s.report r).freeN = s.freeN := (State.report_within s r .freeN (by decide))
@[simp] theorem State.report_pending (s : State) (r : FaultRec) : (s.report r).pending = s.pending := (State.report_within s r .pending (by decide))
/-! ### State.fire -/
@[simp] theorem State.fire_part (s : State) (p : Nat) (t : Nat) : (s.fire p t).part = s.part := (State.fire_within s p t .part (by decide))
@[simp] theorem State.fire_clk (s : State) (p : Nat) (t : Nat) : (s.fire p t).clk = s.clk := (State.fire_within s p t .clk (by decide))
@[simp] theorem State.fire_pwr (s : State) (p : Nat) (t : Nat) : (s.fire p t).pwr = s.pwr := (State.fire_within s p t .pwr (by decide))
@[simp] theorem State.fire_img (s : State) (p : Nat) (t : Nat) : (s.fire p t).img = s.img := (State.fire_within s p t .img (by decide))
@[simp] theorem State.fire_ovl (s : State) (p : Nat) (t : Nat) : (s.fire p t).ovl = s.ovl := (State.fire_within s p t .ovl (by decide))
@[simp] theorem State.fire_trg (s : State) (p : Nat) (t : Nat) : (s.fire p t).trg = s.trg := (State.fire_within s p t .trg (by decide))
@[simp] theorem State.fire_cfg (s : State) (p : Nat) (t : Nat) : (s.fire p t).cfg = s.cfg := (State.fire_within s p t .cfg (by decide))
@[simp] theorem State.fire_eff (s : State) (p : Nat) (t : Nat) : (s.fire p t).eff = s.eff := (State.fire_within s p t .eff (by decide))
@[simp] theorem State.fire_ctr (s : State) (p : Nat) (t : Nat) : (s.fire p t).ctr = s.ctr := (State.fire_within s p t .ctr (by decide))
@[simp] theorem State.fire_cmd (s : State) (p : Nat) (t : Nat) : (s.fire p t).cmd = s.cmd := (State.fire_within s p t .cmd (by decide))
@[simp] theorem State.fire_more (s : State) (p : Nat) (t : Nat) : (s.fire p t).more = s.more := (State.fire_within s p t .more (by decide))
@[simp] theorem State.fire_errAddr (s : State) (p : Nat) (t : Nat) : (s.fire p t).errAddr = s.errAddr := (State.fire_within s p t .err (by decide)).1
@[simp] theorem State.fire_errWrite (s : State) (p : Nat) (t : Nat) : (s.fire p t).errWrite = s.errWrite := (State.fire_within s p t .err (by decide)).2
@[simp] theorem State.fire_tabs (s : State) (p : Nat) (t : Nat) : (s.fire p t).tabs = s.tabs := (State.fire_within s p t .tabs (by decide))
@[simp] theorem State.fire_was (s : State) (p : Nat) (t : Nat) : (s.fire p t).was = s.was := (State.fire_within s p t .was (by decide))
@[simp] theorem State.fire_clu (s : State) (p : Nat) (t : Nat) : (s.fire p t).clu = s.clu := (State.fire_within s p t .clu (by decide))
@[simp] theorem State.fire_wl (s : State) (p : Nat) (t : Nat) : (s.fire p t).wl = s.wl := (State.fire_within s p t .wl (by decide))
@[simp] theorem State.fire_gov (s : State) (p : Nat) (t : Nat) : (s.fire p t).gov = s.gov := (State.fire_within s p t .gov (by decide))
@[simp] theorem State.fire_pg (s : State) (p : Nat) (t : Nat) : (s.fire p t).pg = s.pg := (State.fire_within s p t .pg (by decide))
@[simp] theorem State.fire_pin (s : State) (p : Nat) (t : Nat) : (s.fire p t).pin = s.pin := (State.fire_within s p t .pin (by decide))
@[simp] theorem State.fire_lvl (s : State) (p : Nat) (t : Nat) : (s.fire p t).lvl = s.lvl := (State.fire_within s p t .lvl (by decide))
@[simp] theorem State.fire_lg (s : State) (p : Nat) (t : Nat) : (s.fire p t).lg = s.lg := (State.fire_within s p t .lg (by decide))
@[simp] theorem State.fire_mon (s : State) (p : Nat) (t : Nat) : (s.fire p t).mon = s.mon := (State.fire_within s p t .mon (by decide))
@[simp] theorem State.fire_link (s : State) (p : Nat) (t : Nat) : (s.fire p t).link = s.link := (State.fire_within s p t .link (by decide))
@[simp] theorem State.fire_flt (s : State) (p : Nat) (t : Nat) : (s.fire p t).flt = s.flt := (State.fire_within s p t .flt (by decide))
@[simp] theorem State.fire_plc (s : State) (p : Nat) (t : Nat) : (s.fire p t).plc = s.plc := (State.fire_within s p t .plc (by decide))
@[simp] theorem State.fire_jtag (s : State) (p : Nat) (t : Nat) : (s.fire p t).jtag = s.jtag := (State.fire_within s p t .jtag (by decide))
@[simp] theorem State.fire_smb (s : State) (p : Nat) (t : Nat) : (s.fire p t).smb = s.smb := (State.fire_within s p t .smb (by decide))
@[simp] theorem State.fire_undef (s : State) (p : Nat) (t : Nat) : (s.fire p t).undef = s.undef := (State.fire_within s p t .undef (by decide))
@[simp] theorem State.fire_freeN (s : State) (p : Nat) (t : Nat) : (s.fire p t).freeN = s.freeN := (State.fire_within s p t .freeN (by decide))
@[simp] theorem State.fire_pending (s : State) (p : Nat) (t : Nat) : (s.fire p t).pending = s.pending := (State.fire_within s p t .pending (by decide))

end Sys2Proof.Machine
end

