-- ==== Sys2Proof/Laws/Shared.lean ====
section
/-! SUPPORT. What the shared operations do to W1C words, counters and waiting CMD bits, said once for each. -/
namespace Sys2Proof.Machine

theorem guarded_next {s : State} (h : s.undef = false) (f : State → State) : s.guarded f = .next (f s) := by
  simp [State.guarded, h]

theorem guarded_eq_next {s t : State} {f : State → State} (h : s.guarded f = .next t) : s.undef = false ∧ f s = t := by
  unfold State.guarded at h
  split at h
  · cases h
  · rename_i hu; cases h; exact ⟨by simpa using hu, rfl⟩

theorem causeBelow_ite {c : Prop} [Decidable c] {x y : Option (Nat × Word)} (hx : c → ∀ p, x = some p → p.1 < 96)
    (hy : ∀ p, y = some p → p.1 < 96) : ∀ p, (if c then x else y) = some p → p.1 < 96 := by
  by_cases h : c
  · rw [if_pos h]; exact hx h
  · rw [if_neg h]; exact hy

theorem causeOf_below (a : Nat) : ∀ p, causeOf a = some p → p.1 < 96 := by
  unfold causeOf
  repeat' refine causeBelow_ite (fun _ => ?_) ?_
  all_goals
    intro p hp
    cases hp <;> (dsimp only; omega)

theorem causeOf_lt {a k : Nat} {m : Word} (h : causeOf a = some (k, m)) : k < 96 := causeOf_below a _ h

theorem flag_raiseCause_other (s : State) (k b : Nat) (h : b ≠ hostA (0x400 + 4 * (k / 32))) :
    (s.raiseCause k).flag b = s.flag b := by
  have hp : ∀ u : State, (u.postCause k).flg = u.flg := fun u => State.postCause_within u k .flg (by decide)
  unfold State.raiseCause State.flag
  rw [hp, smGet_mod_other _ _ _ h]

theorem flag_setFlag_other (s : State) (a : Nat) (m : Word) (b : Nat) (h : b ≠ a) (hp : b ∉ pendWords) :
    (s.setFlag a m).flag b = s.flag b := by
  unfold State.setFlag
  have h1 : ({ s with flg := smMod (fun _ => ({} : Evt)) s.flg a (fun e => e.set s.clk.now m) } : State).flag b = s.flag b := by
    unfold State.flag
    rw [smGet_mod_other _ _ _ h]
  dsimp only
  split
  · rename_i k src hc
    split
    · exact h1
    · rw [flag_raiseCause_other _ _ _ ?_]
      · exact h1
      · have := causeOf_lt hc
        simp only [pendWords, hostA, List.mem_cons, List.not_mem_nil, or_false, not_or] at hp
        simp only [hostA]
        omega
  · exact h1

theorem flag_setFlag_self (s : State) (a : Nat) (m : Word) (ha : a ∉ pendWords) : (s.setFlag a m).flag a = s.flag a ||| m := by
  unfold State.setFlag
  have h1 : ({ s with flg := smMod (fun _ => ({} : Evt)) s.flg a (fun e => e.set s.clk.now m) } : State).flag a = s.flag a ||| m := by
    unfold State.flag
    rw [smGet_mod_self]
    rfl
  dsimp only
  split
  · rename_i k src hc
    split
    · exact h1
    · rw [flag_raiseCause_other _ _ _ ?_]
      · exact h1
      · have := causeOf_lt hc
        simp only [pendWords, hostA, List.mem_cons, List.not_mem_nil, or_false, not_or] at ha
        simp only [hostA]
        omega
  · exact h1

theorem flag_of_flg_eq {s t : State} (h : t.flg = s.flg) (a : Nat) : t.flag a = s.flag a := by
  unfold State.flag; rw [h]

theorem counter_of_ctr_eq {s t : State} (h : t.ctr = s.ctr) (a : Nat) : t.counter a = s.counter a := by
  unfold State.counter; rw [h]

theorem counter_count_self (s : State) (a n : Nat) (hn : 0 < n) : (s.count a n).counter a = min (s.counter a + n) top32 := by
  unfold State.count
  rw [if_neg (by omega)]
  unfold State.counter
  rw [smGet_mod_self]
  rfl

theorem counter_count_other (s : State) (a n b : Nat) (h : b ≠ a) : (s.count a n).counter b = s.counter b := by
  unfold State.count
  split
  · rfl
  · unfold State.counter
    rw [smGet_mod_other _ _ _ h]

theorem counter_clearCtr_other (s : State) (a b : Nat) (h : b ≠ a) : (s.clearCtr a).counter b = s.counter b := by
  unfold State.clearCtr State.counter
  rw [smGet_mod_other _ _ _ h]

theorem smGet_clearCtr_self (s : State) (a : Nat) : smGet (fun _ => ({} : Ctr)) (s.clearCtr a).ctr a =
    (smGet (fun _ => ({} : Ctr)) s.ctr a).clear s.clk.now := by
  unfold State.clearCtr
  rw [smGet_mod_self]

theorem clearCtr_clk (s : State) (a : Nat) : (s.clearCtr a).clk = s.clk := rfl

theorem Ctr.clear_clear (c : Ctr) (t : Nat) : (c.clear t).clear t = c.clear t := by
  unfold Ctr.clear; split <;> simp_all

/-- Clears of several counters: each keeps what was counted in the present tick (R410), and every other stays. -/
theorem smGet_clearCtrs (l : List Nat) : ∀ (s : State) (b : Nat),
    smGet (fun _ => ({} : Ctr)) (s.clearCtrs l).ctr b =
      if b ∈ l then (smGet (fun _ => ({} : Ctr)) s.ctr b).clear s.clk.now else smGet (fun _ => ({} : Ctr)) s.ctr b := by
  induction l with
  | nil => intro s b; simp [State.clearCtrs]
  | cons a r ih =>
    intro s b
    show smGet _ ((s.clearCtr a).clearCtrs r).ctr b = _
    rw [ih]
    by_cases h : b = a
    · subst h
      rw [smGet_clearCtr_self, clearCtr_clk, Ctr.clear_clear]
      simp
    · have : smGet (fun _ => ({} : Ctr)) (s.clearCtr a).ctr b = smGet (fun _ => ({} : Ctr)) s.ctr b := by
        unfold State.clearCtr; rw [smGet_mod_other _ _ _ h]
      rw [this, clearCtr_clk]
      simp [h]

theorem cmd_cmdTake_other (s : State) (a : Nat) (m : Word) (b : Nat) (h : b ≠ a) :
    (s.cmdTake a m).cmdWord b = s.cmdWord b ∧ smGet (fun _ => 0) (s.cmdTake a m).more b = smGet (fun _ => 0) s.more b := by
  unfold State.cmdTake State.cmdWord
  dsimp only
  rw [smGet_mod_other _ _ _ h, smGet_mod_other _ _ _ h]
  exact ⟨rfl, rfl⟩

theorem cmd_cmdTake_self (s : State) (a : Nat) (m : Word) :
    (s.cmdTake a m).cmdWord a = (s.cmdWord a &&& ~~~m) ||| (smGet (fun _ => 0) s.more a &&& m) ∧
      smGet (fun _ => 0) (s.cmdTake a m).more a = smGet (fun _ => 0) s.more a &&& ~~~m := by
  unfold State.cmdTake State.cmdWord
  dsimp only
  rw [smGet_mod_self, smGet_mod_self]
  exact ⟨rfl, rfl⟩

end Sys2Proof.Machine
end

