-- ==== Sys2Proof/Laws/Clusters.lean ====
section
/-! SUPPORT. What the shared operations of the sequencers do to the clusters, said once for each. -/
namespace Sys2Proof.Machine

theorem getClu_of_eq {s t : State} (h : t.clu = s.clu) (m : Clu) : t.clu[m] = s.clu[m] := by rw [h]

/-- Cluster n of a state is x, and every other cluster is as it was. -/
def CluIs (n : Clu) (x : Cluster) (s t : State) : Prop := t.clu[n] = x ∧ CluBut n s t

theorem CluIs.refl (n : Clu) (s : State) : CluIs n s.clu[n] s s := ⟨rfl, fun _ _ => rfl⟩

theorem CluIs.mod {n : Clu} {x : Cluster} {s t : State} (h : CluIs n x s t) (f : Cluster → Cluster) :
    CluIs n (f x) s (t.modClu n f) :=
  ⟨by rw [State.modClu_self, h.1], fun m hm => by rw [State.modClu_other _ _ _ hm]; exact h.2 m hm⟩

theorem CluIs.same {n : Clu} {x : Cluster} {s t u : State} (h : CluIs n x s t) (e : u.clu = t.clu) : CluIs n x s u :=
  ⟨by rw [getClu_of_eq e]; exact h.1, fun m hm => by rw [getClu_of_eq e]; exact h.2 m hm⟩

theorem CluIs.but {n : Clu} {x : Cluster} {s t : State} (h : CluIs n x s t) : CluBut n s t := h.2

/-- A frame that does not name the clusters keeps them. -/
theorem Within.cluEq {l : List Field} {s t : State} (h : Within l s t) (hl : Field.clu ∉ l) : t.clu = s.clu := h .clu hl

theorem State.releaseObject_clu (s : State) (n : Clu) :
    CluIs n { s.clu[n] with hosted := none } s (s.releaseObject n) := by
  unfold State.releaseObject
  split
  · rename_i h
    refine ⟨?_, fun _ _ => rfl⟩
    show s.clu[n] = { s.clu[n] with hosted := none }
    rw [← h]
  · have h1 : CluIs n { s.clu[n] with hosted := none } s (s.modClu n (fun q => { q with hosted := none })) :=
      (CluIs.refl n s).mod (fun q => { q with hosted := none })
    dsimp only
    split
    · exact ((h1.same ((State.modCtx_within _ _ _).cluEq (by decide))).same
        ((State.lowWater_within _ _).cluEq (by decide))).same ((State.ctxCloseIfDone_within _ _).cluEq (by decide))
    · exact h1

theorem State.foldSame {α : Type} (l : List α) (f : State → α → State) (h : ∀ u x, (f u x).clu = u.clu) (s : State) :
    (l.foldl f s).clu = s.clu := by
  induction l generalizing s with
  | nil => rfl
  | cons x r ih => exact (ih _).trans (h _ _)

theorem State.idleEffects_clu (s : State) (n : Clu) : CluIs n { s.clu[n] with hosted := none } s (s.idleEffects n) := by
  unfold State.idleEffects
  dsimp only
  refine CluIs.same ?_ ((State.lanesIdle_within _ _).cluEq (by decide))
  refine CluIs.same ?_ ((State.ncoIdle_within _ _).cluEq (by decide))
  refine CluIs.same ?_ (State.foldSame _ _ (fun u x => (State.bandFollow_within u _ x).cluEq (by decide)) _)
  refine CluIs.same ?_ (State.foldSame _ _ (fun u x => (State.copyTset_within u x).cluEq (by decide)) _)
  refine CluIs.same ?_ ((State.applyIdle_within _ _).cluEq (by decide))
  have h0 := State.foldSame (s.lanesOf n) (fun u w => u.ncoSync (s.clk.now * 1024) w)
    (fun u x => (State.ncoSync_within u _ x).cluEq (by decide)) s
  have h1 := State.releaseObject_clu ((s.lanesOf n).foldl (fun u w => u.ncoSync (s.clk.now * 1024) w) s) n
  rw [getClu_of_eq h0] at h1
  exact ⟨h1.1, fun m hm => (h1.2 m hm).trans (getClu_of_eq h0 m)⟩

theorem State.dropJump_clu (s : State) (n : Clu) :
    CluIs n { s.clu[n] with sched := none, foreseenAt := s.clk.now,
                            latePend := s.clu[n].latePend.map (fun l => { l with unserved := true }) } s (s.dropJump n) := by
  unfold State.dropJump
  dsimp only
  refine CluIs.same ?_ ((State.setBit_within _ _ _).cluEq (by decide))
  refine CluIs.same ?_ ((State.count_within _ _ _).cluEq (by decide))
  have h := (CluIs.refl n s).same ((State.markNeeded_within s n).cluEq (by decide))
  exact h.mod (fun k => { k with sched := none, foreseenAt := s.clk.now,
                                 latePend := k.latePend.map (fun l => { l with unserved := true }) })

/-- A cancellation that nothing can outlive leaves no scheduled jump. -/
theorem State.cancelJump_clu (s : State) (n : Clu) :
    ∃ l f, CluIs n { s.clu[n] with sched := none, latePend := l, foreseenAt := f } s (s.cancelJump n false) := by
  unfold State.cancelJump
  split
  · rename_i h
    refine ⟨s.clu[n].latePend, s.clu[n].foreseenAt, ?_, fun _ _ => rfl⟩
    show s.clu[n] = { s.clu[n] with sched := none }
    rw [← h]
  · rw [if_neg (by simp)]
    exact ⟨_, _, State.dropJump_clu s n⟩

/-- A cluster that stops is IDLE, empty and without a jump, and no other cluster changes (R85, R99). -/
theorem State.stopCluster_clu (s : State) (n : Clu) (reason at_ : Nat) :
    ∃ f, CluIs n { s.clu[n] with state := .idle, stopReason := BitVec.ofNat 4 reason, stack := [], abortAt := none, latePend := none,
                                 matchOutcome := none, resetPark := none, outStack := [], lead := none, sched := none,
                                 hosted := none, foreseenAt := f } s
      (s.stopCluster n reason at_) := by
  have hp : (((s.markNeeded n).cutGroups n at_).parkGroups n at_).clu = s.clu :=
    ((State.parkGroups_within _ _ _).cluEq (by decide)).trans
      (((State.cutGroups_within _ _ _).cluEq (by decide)).trans ((State.markNeeded_within _ _).cluEq (by decide)))
  obtain ⟨l, f, hc⟩ := State.cancelJump_clu (((s.markNeeded n).cutGroups n at_).parkGroups n at_) n
  refine ⟨f, ?_⟩
  unfold State.stopCluster
  dsimp only
  refine CluIs.same ?_ ((State.setBitIf_within _ _ _ _).cluEq (by decide))
  have hm := hc.mod (fun k => { k with
    state := .idle, stopReason := BitVec.ofNat 4 reason, stack := [], abortAt := none, latePend := none,
    matchOutcome := none, resetPark := none, outStack := [], lead := none })
  have hi := State.idleEffects_clu
    (((((s.markNeeded n).cutGroups n at_).parkGroups n at_).cancelJump n false).modClu n (fun k => { k with
      state := .idle, stopReason := BitVec.ofNat 4 reason, stack := [], abortAt := none, latePend := none,
      matchOutcome := none, resetPark := none, outStack := [], lead := none })) n
  rw [hm.1, getClu_of_eq hp] at hi
  exact ⟨hi.1, fun m hne => (hi.2 m hne).trans ((hm.2 m hne).trans (getClu_of_eq hp m))⟩

end Sys2Proof.Machine
end

