-- ==== Sys2Proof/WellFormed.lean ====
section
/-! DEFINITION. Which operands a sender can give a command: the sizes that the buses and the block's formats set. -/
namespace Sys2Proof

/-- A PCI Express request carries 1 to 4,096 bytes of read, as the link is set (R374). -/
def wfRead (len : Nat) : Bool := decide (1 ≤ len) && decide (len ≤ 4096)

/-- A PCI Express write carries 1 to 512 bytes (R374). -/
def wfWrite {α : Type} (l : List α) : Bool := decide (1 ≤ l.length) && decide (l.length ≤ 512)

/-- A beacon is six cells and at most 8 of ADMIT (R307). -/
def wfBeacon (l : List Cell) : Bool := decide (6 ≤ l.length) && decide (l.length ≤ 14)

/-- A piece is a whole number of 64-byte units, at most 4 KB (R387). -/
def wfPiece (l : List Byte) : Bool := decide (1 ≤ l.length) && decide (l.length ≤ 4096) && decide (l.length % 64 = 0)

/-- Descriptors are read as up to 16 records of 16 bytes (R385, R386). -/
def wfDescs (l : List Byte) : Bool := decide (l.length ≤ 256) && decide (l.length % 16 = 0)

/-- A request to BAR0 carries 1 to 512 bytes (R403): 1 to 128 words. -/
def wfBar0 : Bar0Op → Bool
  | .writeWords words => decide (1 ≤ words.length) && decide (words.length ≤ 128)
  | .readWords n => decide (1 ≤ n) && decide (n ≤ 128)
  | _ => true

/-- The bad blocks that bring a port down lie within 1,024 slots (R304). -/
def wfCause : PortCause → Bool
  | .blockErrors _ line => decide (line.length ≤ 1024)
  | _ => true

/-- A ball's changes over a window rise from one to the next (R224). -/
def wfWave (w : Wave) : Bool := decide (w.flips.Pairwise (· < ·))

/-- An instruction code that the test access port lists (R488). -/
def tapListed (code : BitVec 8) : Bool := decide (code.toNat ≤ 6) || decide (code = 0x20) || decide (code = 0x21)

/-- Whether a command's operands are ones that can occur. -/
def Instr.wf (i : Instr) : Bool :=
  match i with
  | .bar4Read _ len _ => wfRead len
  | .bar4Write _ bytes => wfWrite bytes
  | .imgFetchDone _ bytes => decide (bytes.length ≤ 8388608)
  | .descFetch _ read => wfDescs read.bytes
  | .registerWrite _ _ op => wfBar0 op
  | .streamPieceLand _ piece => wfPiece piece.bytes
  | .beaconReceive _ _ b => wfBeacon b
  | .portDown _ _ cause => wfCause cause
  | .strobe _ _ (.window pch pcl) => wfWave pch && wfWave pcl
  | .bypass code => !tapListed code
  | _ => true

end Sys2Proof
end

