-- ==== Sys2Proof/Tests/Slice0.lean ====
section
/-! SUPPORT. Tests: the operands that WellFormed refuses, a witness for the hypotheses of every obligation, and small
runs of one command whose outcome the spec states. -/
namespace Sys2Proof.Tests
set_option Elab.async false
open Sys2Proof.Machine

/-! ### WellFormed -/

/-- Bytes of zero. -/
def zeros (n : Nat) : List Byte := List.replicate n 0

/-- A descriptor of 128 bytes with IRQ, and as host memory holds it. -/
def desc : Descriptor := { addrLo := 64, addrHi := 0, len := 128, flags := 0x80000000 }
def descBytes : List Byte := leBytes 4 64 ++ zeros 4 ++ leBytes 4 128 ++ leBytes 4 0x80000000

/-- A beacon with as many ADMIT cells as given, as its fields and as its cells. -/
def beaconOf (admits : Nat) : Beacon :=
  { hops := 1, count := 3, deviceId := 0x42, state := 3, auth := false, ready := true, idxValid := true, memberIdx := 2, ensTag := 0
    authId := 9, generation := 1, epochCount := 5, pendEpoch := 0, view := 5, reach := 5, pend := 0
    admits := List.replicate admits (1, 2) }
def beacon (admits : Nat) : List Cell := List.replicate (6 + admits) 0

/-- R374: a read of 0 bytes and one of 4,097 are refused, 1 and 4,096 are not. -/
theorem test_wf_read : (Instr.bar4Read 0 0 ⟨[.ok 0], []⟩).wf = false ∧ (Instr.bar4Read 0 4097 ⟨[.ok 0], []⟩).wf = false ∧
    (Instr.bar4Read 0 1 ⟨[.ok 0], []⟩).wf = true ∧ (Instr.bar4Read 0 4096 ⟨[.escaped], []⟩).wf = true := by decide

/-- R374: a write of no byte and one of 513 are refused. -/
theorem test_wf_write : (Instr.bar4Write 0 []).wf = false ∧ (Instr.bar4Write 0 (List.replicate 513 none)).wf = false ∧
    (Instr.bar4Write 0 [some 1]).wf = true ∧ (Instr.bar4Write 0 (List.replicate 512 none)).wf = true := by decide +kernel

/-- R40: an image is at most 8 MB. -/
theorem test_wf_fetch : (Instr.imgFetchDone true (zeros 8388609)).wf = false ∧ (Instr.imgFetchDone true (zeros 8388608)).wf = true := by
  refine ⟨?_, ?_⟩ <;> simp only [Instr.wf, zeros, List.length_replicate] <;> decide

/-- R386: at most 16 descriptors are read at a time. -/
theorem test_wf_descriptors : (Instr.descFetch 0 ⟨0, zeros 272⟩).wf = false ∧
    (Instr.descFetch 0 ⟨0, zeros 15⟩).wf = false ∧ (Instr.descFetch 0 ⟨0, zeros 256⟩).wf = true := by decide +kernel

/-- R403: a request to BAR0 has 1 to 128 words. -/
theorem test_wf_bar0 : (Instr.registerWrite 0 0 (.writeWords [])).wf = false ∧ (Instr.registerWrite 0 0 (.readWords 129)).wf = false ∧
    (Instr.registerWrite 0 0 (.writeWords [(15, 1)])).wf = true ∧ (Instr.registerWrite 0 0 (.readWords 128)).wf = true := by decide

/-- R387: a piece is a whole number of 64-byte units, at least one and at most 4 KB. -/
theorem test_wf_piece : (Instr.streamPieceLand 0 ⟨⟨[], []⟩, []⟩).wf = false ∧ (Instr.streamPieceLand 0 ⟨⟨[], []⟩, zeros 63⟩).wf = false ∧
    (Instr.streamPieceLand 0 ⟨⟨[], []⟩, zeros 4160⟩).wf = false ∧ (Instr.streamPieceLand 0 ⟨⟨[], []⟩, zeros 64⟩).wf = true := by decide +kernel

/-- R307: a beacon is six cells and at most 8 of candidates. -/
theorem test_wf_beacon : (Instr.beaconReceive 0 0 (beacon 9)).wf = false ∧ (Instr.beaconReceive 0 0 (beacon 8)).wf = true := by decide

/-- R304: the 16 bad blocks lie within 1,024 slots. -/
theorem test_wf_cause : (Instr.portDown 0 0 (.blockErrors 0 (List.replicate 1025 0))).wf = false ∧
    (Instr.portDown 0 0 (.blockErrors 0 (List.replicate 1024 0))).wf = true := by decide +kernel

/-- R224: the changes of a ball over a window rise. -/
theorem test_wf_wave : (Instr.strobe 0 .s1 (.window ⟨true, [7, 7]⟩ ⟨true, []⟩)).wf = false ∧
    (Instr.strobe 0 .s1 (.window ⟨true, [7, 8]⟩ ⟨true, []⟩)).wf = true := by decide

/-- R488: BYPASS stands for every code that the port does not list. -/
theorem test_wf_bypass : (Instr.bypass 0x02).wf = false ∧ (Instr.bypass 0x21).wf = false ∧ (Instr.bypass 0xFF).wf = true ∧
    (Instr.bypass 0x07).wf = true := by decide

/-! ### States for the witnesses -/

def modClk (f : Clock → Clock) (s : State) : State := { s with clk := f s.clk }
def modPow (f : Power → Power) (s : State) : State := { s with pwr := f s.pwr }
def modImg (f : Image → Image) (s : State) : State := { s with img := f s.img }
def modOvl (f : Overlay → Overlay) (s : State) : State := { s with ovl := f s.ovl }
def modDram (f : Dram → Dram) (s : State) : State := { s with dram := f s.dram }
def modMem (f : Mem → Mem) (s : State) : State := { s with mem := f s.mem }
def modHost (f : HostIf → HostIf) (s : State) : State := { s with host := f s.host }
def modPlace (f : Placement → Placement) (s : State) : State := { s with plc := f s.plc }
def modFlt (f : Supervisor → Supervisor) (s : State) : State := { s with flt := f s.flt }
def modBrg (f : Bridge → Bridge) (s : State) : State := { s with brg := f s.brg }
def modLink (f : Link → Link) (s : State) : State := { s with link := f s.link }

/-- RW words as written and in force. -/
def words (l : List (Nat × Word)) (s : State) : State := l.foldl (fun s p => { s with
  eff := smPut resetWord s.eff p.1 p.2, cfg := smPut resetWord s.cfg p.1 p.2 }) s

/-- CMD bits that wait. -/
def cmds (l : List (Nat × Word)) (s : State) : State :=
  l.foldl (fun s p => { s with cmd := smPut (fun _ => 0) s.cmd p.1 p.2 }) s

/-- A configured device at tick 5,000, with every clock running, every crossing aligned and DRAM ready. -/
def conf : State := { State.reset with
  clk := { ({} : Clock) with now := 5000, pll := 0xFF, plan := 0xF0F, patRun := 15, convRun := 15, dramRun := true, aligned := 0xFFF }
  img := { ({} : Image) with state := .configured }
  dram := { ({} : Dram) with configured := true, ready := true } }

/-- Entry n of the segment table, from eight words. -/
def entryAt (n : Nat) (ws : List Word) (s : State) : State :=
  let seg := (List.range ws.length).foldl (fun m i => smPut (fun _ => 0) m (8 * n + i) (ws.getD i 0)) s.tabs.seg
  { s with tabs := { s.tabs with seg := seg } }

/-- Entry i is published under cluster n's layout. -/
def published (n : Clu) (i : Nat) (s : State) : State :=
  modPlace (fun p => { p with entries := smPut (fun _ => {}) p.entries i { published := true, layouts := [(s.layoutOf n, .resident)] } }) s

/-- Cluster 1 binds the armed lane 0. Entry 3 plays twice and ends, with jump table 0 and marker profile 0; entry 4 plays
once and goes on to entry 3; entry 5 plays once and goes on to entry 9, which is not published. -/
def bound : State :=
  (published 1 0 ∘ published 1 3 ∘ published 1 4 ∘ published 1 5 ∘ entryAt 0 [0, 4, 1, 0, 0, 0, 0x100000, 0] ∘
    entryAt 3 [0, 4, 2, 0, 0x80008000, 0, 0x100000, 0] ∘ entryAt 4 [0, 4, 1, 0x80000003, 0, 0, 0x100000, 0] ∘
    entryAt 5 [0, 4, 1, 0x80000009, 0, 0, 0, 0]) ((conf.modWl 0 (fun l => { l with state := .armed })).modClu 1
      (fun k => { k with wBound := 1 }))

/-- Cluster 1 in RUN, in the play of an entry that began at tick 4,990. -/
def running (e : Nat) (f : Cluster → Cluster) (s : State) : State :=
  s.modClu 1 (fun k => f { k with state := .run, seg := BitVec.ofNat 17 e, entry := s.entry e, playStart := 4990 * 1024 })

/-- Words of the jump tables and of the marker profiles. -/
def jumpAt (k : Nat) (w : Word) (s : State) : State := { s with tabs := { s.tabs with jump := smPut (fun _ => 0) s.tabs.jump k w } }
def markAt (k : Nat) (w : Word) (s : State) : State := { s with tabs := { s.tabs with mkp := smPut (fun _ => 0) s.tabs.mkp k w } }

/-- Cluster 1 may jump: condition 0 to entry 4 at once, 2 to it at the end, 5 to the unpublished entry 9; markers 0 and 1. -/
def jumpy : State :=
  (jumpAt 0 0x80000004 ∘ jumpAt 2 0xC0000004 ∘ jumpAt 5 0x80000009 ∘ markAt 0 8 ∘ markAt 1 0xC0000000 ∘ markAt 3 0x80000000) bound

def req (c : Fin 16) (t : Nat) : Req := { cond := c, ts := t }
def jumpTo (target : BitVec 17) (m : JumpMode) : Sched := { target := target, mode := m, cond := 0, ts := 4990, s := 5310 }
def lateAt (action : BitVec 2) (unserved : Bool) : LatePend := { o := 4999 * 1024, ts := 4990, action := action, unserved := unserved }

/-- A staging slot that holds a unit of the staged copy of an entry, and regions that let a master read and write every slot. -/
def landed (e : BitVec 17) (slot addr : Nat) (d : BitVec 512) (s : State) : State :=
  modMem (fun m => { m with
    slots := smInsert m.slots slot { addr := BitVec.ofNat 30 addr, landed := true, landedAt := 10, data := d, entry := some e } }) s
def opened (m : Nat) (s : State) : State := words [(memA (0x1000 + 32 * m), 0xFFFF8000)] s

/-- Cluster 2 binds pin groups 0 and 1; entry 3 plays a match twice, entry 4 plays once and goes on to 3. The vectors of both
groups have landed but for those of entry 4 beyond the first unit. -/
def pattern : State :=
  (published 2 3 ∘ published 2 4 ∘ entryAt 3 [0, 4, 2, 0, 0, 0, 0x180000, 0] ∘ entryAt 4 [0x40, 4, 1, 0x80000003, 0, 0, 0x100000, 0] ∘
    opened 16 ∘ opened 17 ∘ landed 3 0 0 0xC1000000000000) (conf.modClu 2 (fun k => { k with pgBound := 3 }))

/-- Cluster 2 in RUN, before the first vector of the play that began at tick 4,990. -/
def testing (e : Nat) (f : Cluster → Cluster) (s : State) : State :=
  ((s.modPg 0 (fun p => { p with vecNext := 4990 * 1024, vecIdx := 0 })).modPg 1 (fun p => { p with vecNext := 4990 * 1024, vecIdx := 0 })).modClu 2
    (fun k => f { k with state := .run, seg := BitVec.ofNat 17 e, entry := s.entry e, playStart := 4990 * 1024 })

/-- The state is defined, and a hypothesis holds. -/
abbrev Meets (s : State) (p : Prop) : Prop := s.undef = false ∧ p

/-! ### A witness for the hypotheses of every obligation that has some, clause by clause -/

def waiting : State := { conf with pending := [.pubGo, .warmReset] }

theorem witness_StepRunsFrontCommand : waiting.pending = .pubGo :: [.warmReset] := by decide
theorem witness_EmptyQueueIdles : conf.pending = [] := by decide
theorem witness_CommandsLeaveTheQueue : ∃ t, exec .warmReset waiting = .next t := ⟨_, rfl⟩
theorem witness_ProgrammedFusesStay : ∃ t, step waiting = .next t := ⟨_, rfl⟩
theorem witness_MemoriesStayCanonical : waiting.memOk = true ∧ waiting.regsOk = true ∧ ∃ t, step waiting = .next t :=
  ⟨by decide, by decide, _, rfl⟩

def lost : State := { conf with undef := true }

theorem witness_OnlyUndefinedBehaviourFaults : conf.undef = false ∧ lost.undef = true := by decide

def link (f : Power → Power) : State := modPow f conf
def lowReset : State := link (fun p => { p with resetLow := true })
def lowBoth : State := link (fun p => { p with resetLow := true, perstLow := true })
def resetting : State := link (fun p => { p with phase := .resetting })
def releasing : State := modDram (fun d => { d with training := .short, ready := false }) (modPow (fun p => { p with releasing := true }) resetting)
def parked : State := modFlt (fun f => { f with safePark := true }) conf
def phase (p : PwrPhase) : State := link (fun x => { x with phase := p })
def loading : State := modImg (fun i => { i with state := .fetch, src := 1, fallbackNext := true }) State.reset

theorem witness_ColdResetsInvalidate : conf.winterLink = false ∧ (phase .winter).winterLink = true ∧
    PerstCause.ball ≠ .linkDown := by decide
theorem witness_PowerOnAndSupplyFalls : Rail.avpp ≠ .vddAon ∧ Rail.avpp ≠ .vddCore := by decide
theorem witness_ResetReleases : Meets lowReset (lowReset.pwr.resetLow = true) ∧ Meets lowBoth (lowBoth.pwr.perstLow = true) ∧
    Meets resetting (resetting.pwr.phase = .resetting ∧ resetting.ovl.applying = none ∧ resetting.pwr.releasing = false ∧
      resetting.dram.configured = true ∧ resetting.dram.againFull = false) ∧
    Meets (modDram (fun d => { d with againFull := true }) resetting) ((modDram (fun d => { d with againFull := true }) resetting).dram.againFull = true) ∧
    Meets releasing (releasing.pwr.releasing = true ∧ releasing.dram.training = .short ∧ releasing.dram.shortNext = false ∧
      releasing.pwr.held = []) := by decide
theorem witness_WarmResetStopsEverything : Meets parked (parked.heldInReset = false ∧ parked.flt.safePark = true) ∧
    Meets (phase .saving) ((phase .saving).heldInReset = false ∧ (phase .saving).flt.safePark = false ∧
      (phase .saving).pwr.phase ≠ .none ∧ (phase .saving).pwr.phase ≠ .quiet) ∧
    Meets conf (conf.heldInReset = false ∧ conf.flt.safePark = false ∧ conf.pwr.phase = .none ∧ conf.loading = false) ∧
    Meets loading (loading.heldInReset = false ∧ loading.pwr.phase = .none ∧ loading.loading = true) := by decide

def leaving : State := running 3 (fun k => { k with state := .idle, resetPark := some 5050 }) bound

theorem witness_ClusterResets : Meets leaving (leaving.clu[(1 : Clu)].resetPark = some 5050) := by decide
theorem witness_LinkResetLeaves : conf.undef = false := by decide
theorem witness_ManagementTickApplies : Meets conf (conf.coreRuns = true ∧ conf.pwr.held = []) ∧
    Meets lowReset (lowReset.coreRuns = false) := by decide

/-- A pulse that an edge sees high at tick 4,976 is registered at 5,008; one from 4,990 to 5,500 at 5,024. -/
def later : State := modClk (fun c => { c with firstEpoch := false, epochDue := some 5100, ofs := 154992, checkAt := some 5072 }) conf
def seenHigh : State := modClk (fun c => { c with epochLow := some 4970 }) conf
abbrev sees (s : State) (high low : Nat) : Prop := (high + 15) / 16 * 16 < low ∧ s.clk.epochLow.all (fun l => decide ((l + 15) / 16 * 16 < high)) = true

theorem witness_EpochAnchorsTheTimeBase :
    Meets conf (conf.coreRuns = true ∧ conf.link.pendView = none ∧ 0 ≤ ((conf.upto 5008).clk.now : Int) + conf.clk.ofs ∧
      conf.clk.firstEpoch = true ∧ sees conf 4970 5500 ∧ ¬ sees conf 4970 4976) ∧
    Meets seenHigh (seenHigh.coreRuns = true ∧ ¬ sees seenHigh 4976 5500 ∧ sees seenHigh 4977 5500) ∧
    Meets later (later.coreRuns = true ∧ later.clk.firstEpoch = false ∧ sees later 4970 5500 ∧ (later.upto 5008).tb % later.epochTicks = 0) ∧
    Meets later (sees later 4990 5500 ∧ (later.upto 5024).tb % later.epochTicks ≠ 0) ∧
    Meets later (later.clk.checkAt = some 5072) ∧ Meets later (later.clk.epochDue = some 5100) := by decide
/-- The DRAM PLL has unlocked while a RETRAIN runs. -/
def noDramPll : State := modDram (fun d => { d with training := .retrain, ready := false }) (modClk (fun c => { c with pll := 0xBF }) conf)

theorem witness_PllsLoseAndRegainLock :
    Meets conf (conf.heldInReset = false ∧ conf.clk.pll.getLsbD 7 = true ∧ conf.coreRuns = true) ∧
    Meets State.reset (State.reset.heldInReset = false ∧ State.reset.clk.pll.getLsbD 1 = false ∧ (1 : Fin 8) ≠ 0) ∧
    Meets noDramPll (noDramPll.clk.pll.getLsbD 6 = false ∧ noDramPll.dram.configured = true ∧ noDramPll.dram.selfRefresh = false ∧
      noDramPll.dram.training = .retrain) := by decide

def asks (t : Word) (p : PwrPhase) : State := words [(clkA 0, t)] (phase p)
def asked (t : BitVec 2) (l : List (Fin 13)) : State := link (fun p => { p with phase := .preparing, target := t, agreed := l })
def busy : State := modPow (fun p => { p with phase := .preparing, target := 1, agreed := [0, 2] }) (running 3 id bound)

theorem witness_PowerRequests :
    Meets (asks 0x10 .none) ((asks 0x10 .none).pwr.phase = .none ∧ (asks 0x10 .none).effF (clkA 0) 5 4 = 1) ∧
    Meets (asks 0x20 .quiet) ((asks 0x20 .quiet).pwr.phase = .quiet ∧ (asks 0x20 .quiet).effF (clkA 0) 5 4 = 2) ∧
    Meets (phase .quiet) ((phase .quiet).pwr.phase = .quiet ∧ (phase .quiet).effF (clkA 0) 5 4 = 0) ∧
    Meets (asks 0x30 .none) ((asks 0x30 .none).effF (clkA 0) 5 4 = 3) ∧
    Meets conf (conf.pwr.phase = .none ∧ conf.effF (clkA 0) 5 4 = 0) ∧
    Meets busy (busy.pwr.phase = .preparing ∧ busy.blockRefuses busy.pwr.target 1 = true ∧ busy.pwr.held = []) ∧
    Meets (asked 1 []) ((asked 1 []).blockRefuses 1 0 = false) ∧
    Meets (asked 1 [0, 1, 2, 3, 4, 5, 6, 7, 8, 9, 10, 11]) (((asked 1 []).blockRefuses 1 12 = false) ∧
      ([0, 1, 2, 3, 4, 5, 6, 7, 8, 9, 10, 11] ++ [(12 : Fin 13)]).length = 13) ∧
    Meets (asked 2 [0, 1, 2, 3, 4, 5, 6, 7, 8, 9, 10, 11]) ((asked 2 []).blockRefuses 2 12 = false) ∧
    Meets (phase .resuming) ((phase .resuming).pwr.phase = .resuming ∧ (phase .resuming).dram.training ≠ .short ∧
      (phase .resuming).pwr.held = []) := by decide

def cycle (n : Nat) (latched : BitVec 2) : State := link (fun p => { p with phase := .commit, cycle := n, wakeLatched := latched })
def wakes (p : PwrPhase) : State := words [(clkA 0x14, 3)] (phase p)

def noDram (s : State) : State := modDram (fun d => { d with configured := false, ready := false }) s
/-- WAKE_N is enabled and low at cycle 6. -/
def lowAtSix : State := words [(clkA 0x14, 3)] (modPow (fun p => { p with wakeLow := true }) (cycle 6 0))

theorem witness_WinterAndItsWakes : Meets (phase .saving) ((phase .saving).pwr.phase = .saving ∧ (phase .saving).dram.configured = true ∧
      (phase .saving).host.writes = []) ∧
    Meets (noDram (phase .saving)) ((noDram (phase .saving)).pwr.phase = .saving) ∧
    Meets (cycle 0 0) ((cycle 0 0).pwr.phase = .commit) ∧ Meets (cycle 6 0) ((cycle 6 0).pwr.cycle = 6 ∧ (cycle 6 0).pwr.wakeLatched = 0 ∧
      (cycle 6 0).pwr.wakeLow = false) ∧
    Meets lowAtSix (lowAtSix.pwr.cycle = 6 ∧ lowAtSix.pwr.wakeLatched = 0 ∧ (lowAtSix.wakeNEn && lowAtSix.pwr.wakeLow) = true) ∧
    Meets (cycle 6 1) ((cycle 6 1).pwr.wakeLatched ≠ 0) ∧
    Meets (wakes .winter) ((wakes .winter).wakeTimerEn = true ∧ (wakes .winter).heldInReset = false ∧ (wakes .winter).wakeNEn = true) ∧
    Meets (wakes .commit) ((wakes .commit).wakeNEn = true) ∧ Meets (wakes .quiet) ((wakes .quiet).wakeNEn = true) ∧
    Meets conf (conf.pwr.phase = .none ∧ conf.configured = true) := by decide

def thawing (t : ThawPhase) : State :=
  modPow (fun p => { p with phase := .thawing, thaw := t }) (modClk (fun c => { c with timeRuns := false, stoppedAt := 4000 }) conf)

theorem witness_ThawRunsInPhases : [ThawPhase.power, .clocks, .clear, .registers, .dram, .tables, .planned, .done].all (fun t =>
    decide (Meets (thawing t) ((thawing t).pwr.phase = .thawing ∧ (thawing t).pwr.thaw = t ∧ (thawing t).dram.training ≠ .short ∧
      (thawing t).heldInReset = false))) = true ∧ (thawing .tables).dram.configured = true ∧
    Meets (noDram (thawing .tables)) ((noDram (thawing .tables)).dram.configured = false ∧ (noDram (thawing .tables)).pwr.thaw = .tables) := by decide

/-! #### Images -/

/-- CRC-32 with its register as a number, forced byte by byte, so that the kernel evaluates it in steps. -/
def crcRun : Nat → List Byte → Nat
  | c, [] => c
  | 0, b :: r => crcRun (crcByte (BitVec.ofNat 32 0) b).toNat r
  | c + 1, b :: r => crcRun (crcByte (BitVec.ofNat 32 (c + 1)) b).toNat r

theorem crcRun_eq (l : List Byte) : ∀ c : Word, BitVec.ofNat 32 (crcRun c.toNat l) = l.foldl crcByte c := by
  induction l with
  | nil => intro c; simp [crcRun]
  | cons b r ih =>
    intro c
    have h : crcRun c.toNat (b :: r) = crcRun (crcByte c b).toNat r := by
      cases h : c.toNat with
      | zero => simp [crcRun, ← h]
      | succ n => simp [crcRun, ← h]
    rw [h, ih]; rfl

/-- CRC-32 by crcRun. -/
def crcFast (l : List Byte) : Word := ~~~(BitVec.ofNat 32 (crcRun 0xFFFFFFFF l))

theorem crc32_fast : crc32 = crcFast := by
  funext l
  have h := crcRun_eq l 0xFFFFFFFF#32
  unfold crc32 crcFast
  rw [← h]; rfl

/-- Bytes up to a length. -/
def padTo (n : Nat) (l : List Byte) : List Byte := l ++ zeros (n - l.length)

/-- Sections by type and payload, each at the next 64-byte boundary. -/
def placed : Nat → List (Nat × List Byte) → List (Nat × Nat × List Byte)
  | _, [] => []
  | o, (t, p) :: r => (o, t, p) :: placed ((o + p.length + 63) / 64 * 64) r

/-- An image as R31 to R33 lay it out. -/
def image (flags mask base : Nat) (sects : List (Nat × List Byte)) : List Byte :=
  let n := sects.length
  let start := (0x40 + 16 * n + 63) / 64 * 64
  let os := placed start sects
  let body := os.foldl (fun b x => padTo x.1 b ++ x.2.2) ([] : List Byte)
  let table := os.flatMap (fun x => leBytes 2 x.2.1 ++ leBytes 2 0 ++ leBytes 4 x.1 ++ leBytes 4 x.2.2.length ++ leBytes 4 (crcFast x.2.2).toNat)
  let hdr := [0x4C, 0x51, 0x46, 0x49] ++ leBytes 2 64 ++ leBytes 2 1 ++ leBytes 4 0x6416 ++ leBytes 4 7 ++ leBytes 2 1 ++ leBytes 2 flags ++
    leBytes 2 n ++ leBytes 2 mask ++ leBytes 4 (max start body.length) ++ leBytes 4 0 ++ leBytes 4 (crcFast table).toNat ++ leBytes 4 base ++ zeros 20
  padTo start (hdr ++ leBytes 4 (crcFast hdr).toNat ++ table) ++ body.drop start

/-- A small base image: CLOCK_PLAN, DRAM_PART and STAGING_PART. -/
def baseImage : List Byte :=
  image 0 0 0 [(1, zeros 16), (2, [1, 3000, 0x10001, 0x10001, 0x10001, 0x10001, 0x10001, 0x10001, 0x10001, 0x10001, 0x10001, 0, 8, 16, 16, 0].flatMap (leBytes 4)),
    (3, leBytes 4 0 ++ leBytes 4 16 ++ zeros 1464)]

/-- An overlay with an empty LEVEL_SPANS section. -/
def overlayImage : List Byte := image 2 0 0 [(7, [])]

def checking (buf : List Byte) : State := modImg (fun i => { i with state := .check, src := 1, fallbackNext := true, buf := buf }) State.reset
def training (t : Training) (st : ImgState) (ready : Bool) : State :=
  modDram (fun d => { d with training := t, ready := ready }) (modImg (fun i => { i with state := st }) conf)
def bigLoad (src len : Word) (s : State) : State := words [(0x100, src), (0x118, len)] (modHost (fun h => { h with bme := true }) s)
def held5 : State := link (fun p => { p with prepared := [5] })

theorem witness_BaseLoadsBeginAndFetch :
    Meets held5 (held5.loading = false ∧ held5.prepared 5 = true) ∧
    Meets (bigLoad 0 63 conf) ((bigLoad 0 63 conf).prepared 5 = false ∧ (bigLoad 0 63 conf).effF 0x100 2 1 = 0 ∧
      ((bigLoad 0 63 conf).effW 0x118).toNat < 64) ∧
    Meets (bigLoad 0 64 (running 3 id bound)) ((bigLoad 0 64 (running 3 id bound)).configured = true ∧
      (bigLoad 0 64 (running 3 id bound)).allIdle = false ∧ (bigLoad 0 64 (running 3 id bound)).effF 0x110 5 0 = 0 ∧
      ((bigLoad 0 64 (running 3 id bound)).effW 0x118).toNat = 64 ∧ (bigLoad 0 64 (running 3 id bound)).host.bme = true) ∧
    Meets (bigLoad 0 8388608 conf) ((bigLoad 0 8388608 conf).allIdle = true ∧
      ((bigLoad 0 8388608 conf).effW 0x118).toNat = 8388608) ∧
    Meets (modOvl (fun o => { o with validating := some 2 }) (bigLoad 4 0 conf)) ((bigLoad 4 0 conf).effF 0x100 2 1 = 2 ∧ (bigLoad 4 0 conf).allIdle = true) ∧
    Meets loading (loading.img.state = .fetch) := by decide +kernel
/-- The base image passes every check of R496. -/
theorem baseImage_good : (checking baseImage).imageCheck baseImage false none = none := by
  simp only [State.imageCheck, State.headerCheck, tableCheck, crc32_fast]
  decide +kernel

theorem witness_BaseLoadsCheckTrainApply :
    Meets (checking []) ((checking []).img.state = .check ∧ (checking []).imageCheck [] false none = some (1, 255)) ∧
    Meets (training .full .apply false) ((training .full .apply false).dram.training = .full ∧ (training .full .apply false).img.state = .apply) ∧
    Meets (training .retrain .configured false) ((training .retrain .configured false).dram.training = .retrain ∧
      (training .retrain .configured false).pwr.held = []) ∧
    Meets (training .none .apply true) ((training .none .apply true).img.state = .apply ∧ (training .none .apply true).dram.ready = true) ∧
    Meets (checking baseImage) ((checking baseImage).imageCheck baseImage false none = none) :=
  ⟨by decide, by decide, by decide, by decide, by decide, baseImage_good⟩

def slot (k : Fin 16) (x : OvlSlot) (s : State) : State := modOvl (fun o => { o with slots := o.slots.set k x }) s
def cellsOf (l : List Byte) : List Host.Cell := l.zipIdx.map (fun x => (x.2, x.1))
def validating (l : List Byte) : State :=
  modDram (fun d => { d with cells := cellsOf l }) (modOvl (fun o => { o with validating := some 0 }) (modImg (fun i => { i with compat := 1 }) conf))
def applying : State := modOvl (fun o => { o with queue := [0], applying := some 0 }) (slot 0 { state := .pending, mask := 2 } conf)
def queuedOn (s : State) : State := modOvl (fun o => { o with queue := [0, 3] }) (slot 0 { state := .pending, mask := 2 } s)
def queuedBusy : State := queuedOn (running 3 id bound)
def queued : State := queuedOn conf

/-- A slot whose first byte is wrong fails the first check; the overlay passes every check. -/
theorem slot_bad : (validating [0]).imageCheck ((validating [0]).slotBytes 0) true none = some (1, 255) := by
  simp only [State.imageCheck, State.headerCheck, tableCheck, crc32_fast]
  decide +kernel
theorem slot_good : (validating overlayImage).imageCheck ((validating overlayImage).slotBytes 0) true none = none := by
  simp only [State.imageCheck, State.headerCheck, tableCheck, crc32_fast]
  decide +kernel

/-- A VALIDATE waits with APPLY for the tick that takes both; a read of the loader is under way. -/
def bothAsked : State := modOvl (fun o => { o with applies := 2 }) (cmds [(0x130, 0x300)] (slot 0 { state := .valid } conf))
def loaderFlight : InFlight :=
  { tag := { dest := 5, rt := false, deadline := 0, src := 42, addr := 7, entry := none }, issued := 4900 }
def reading : State := modDram (fun d => { d with inFlight := [loaderFlight] }) (validating [0])

theorem witness_OverlaySlotCommands :
    Meets bothAsked ((bothAsked.cmdWord 0x130).getLsbD 8 = true ∧ bothAsked.ovl.validating = none ∧ bothAsked.configured = true ∧
      bothAsked.ovlSlot = 0 ∧ bothAsked.slotIs 0 .pending = false ∧ bothAsked.slotIs 0 .valid = true ∧ 1 < bothAsked.ovl.applies) ∧
    Meets reading (reading.ovl.validating ≠ none ∧ reading.loaderReads = true) ∧
    Meets conf (conf.ovl.validating = none ∧ conf.prepared 5 = false ∧ conf.configured = true ∧ conf.slotIs conf.ovlSlot .pending = false) ∧
    Meets queued (queued.slotIs queued.ovlSlot .pending = true ∧ queued.ovl.applying ≠ some queued.ovlSlot) ∧
    Meets held5 (held5.prepared 5 = true ∧ held5.ovl.validating = none) ∧
    Meets (slot 0 { state := .valid } conf) ((slot 0 { state := .valid } conf).slotIs 0 .valid = true ∧
      (slot 0 { state := .valid } conf).ovlSlot = 0 ∧ (slot 0 { state := .valid } conf).ovl.validating ≠ some 0) ∧
    Meets (slot 0 { state := .applied } conf) ((slot 0 { state := .applied } conf).slotIs 0 .applied = true) ∧
    Meets applying (applying.ovl.applying = some applying.ovlSlot) ∧
    Meets (validating [0]) ((validating [0]).ovl.validating = some 0 ∧ (validating [0]).dram.ready = true ∧ (validating [0]).loaderReads = false ∧
      (validating [0]).imageCheck ((validating [0]).slotBytes 0) true none = some (1, 255)) ∧
    Meets (validating overlayImage) ((validating overlayImage).ovl.validating = some 0 ∧ (validating overlayImage).dram.ready = true ∧
      (validating overlayImage).loaderReads = false ∧
      (validating overlayImage).imageCheck ((validating overlayImage).slotBytes 0) true none = none) :=
  ⟨by decide, by decide, by decide, by decide, by decide, by decide, by decide, by decide, ⟨rfl, rfl, rfl, rfl, slot_bad⟩,
    ⟨rfl, rfl, rfl, rfl, slot_good⟩⟩
theorem witness_OverlayApplications :
    Meets queued (queued.ovl.queue = 0 :: [3] ∧ queued.ovl.applying = none ∧ queued.quietFor queued.ovl.slots[(0 : Fin 16)].mask = true ∧
      queued.dram.ready = true ∧ queued.loaderReads = false ∧ queued.digestSame 0 = false) ∧
    Meets queuedBusy (queuedBusy.ovl.queue = 0 :: [3] ∧ queuedBusy.quietFor queuedBusy.ovl.slots[(0 : Fin 16)].mask = false) ∧
    Meets applying (applying.ovl.applying = some 0) := by decide

/-- A slot whose bytes have the digest that VALIDATE recorded. -/
def unchanged : State := slot 0 { state := .pending, digest := some (sha384 (queued.slotBytes 0)), mask := 2 } queued

theorem unchanged_digest : unchanged.ovl.slots[(0 : Fin 16)].digest = some (sha384 (queued.slotBytes 0)) := rfl
theorem unchanged_bytes : unchanged.slotBytes 0 = queued.slotBytes 0 := by
  have h : unchanged.dram = queued.dram := rfl
  have h1 : unchanged.slotBase 0 = queued.slotBase 0 := by simp only [State.slotBase, State.dramPart, h]
  have h2 : unchanged.ovl.unread = [] := rfl
  have h3 : queued.ovl.unread = [] := rfl
  simp only [State.slotBytes, State.dramBytes, State.dramDefault, h, h1, h2, h3, if_true]
theorem witness_UnchangedSlot : Meets unchanged (unchanged.ovl.queue = 0 :: [3] ∧ unchanged.ovl.applying = none ∧
    unchanged.quietFor unchanged.ovl.slots[(0 : Fin 16)].mask = true ∧ unchanged.dram.ready = true ∧ unchanged.digestSame 0 = true) := by
  refine ⟨rfl, rfl, rfl, by decide, rfl, ?_⟩
  simp only [State.digestSame, unchanged_digest, unchanged_bytes, decide_true]

/-! #### Clusters and jumps -/

/-- The copy of entry 3 that a START has taken. -/
def lead3 : LeadEntry := { idx := 3, entry := bound.entry 3 }
def starting (l : List (Nat × Word)) : State := words (l ++ [(cluA 1 8, 3)]) bound
def unaligned (s : State) : State := modClk (fun c => { c with aligned := 0 }) s
def heldStart (l : List (Nat × Word)) : State := (starting l).modClu 1 (fun k => { k with state := .held, lead := some lead3 })
def timedSoon : List (Nat × Word) := [(cluA 1 0, 0x20), (cluA 1 0x10, 8199)]
def leading : State := bound.modClu 1 (fun k => { k with state := .lead, leadAt := 8200, lead := some lead3 })
abbrev mayStart (s : State) : Prop := s.prepared 1 = false ∧ s.trainingHolds = false ∧ s.clu[(1 : Clu)].state = .idle
def held1 : State := modPow (fun p => { p with prepared := [1] }) bound

theorem witness_ClustersStart :
    Meets held1 (held1.prepared 1 = true) ∧
    Meets (training .short .configured false) ((training .short .configured false).trainingHolds = true) ∧
    Meets leading (leading.prepared 1 = false ∧ leading.trainingHolds = false ∧ leading.clu[(1 : Clu)].state ≠ .idle) ∧
    Meets conf (mayStart conf ∧ conf.startCheck 1 = 1) ∧
    Meets (starting timedSoon) (mayStart (starting timedSoon) ∧ (starting timedSoon).startCheck 1 = 6) ∧
    Meets (unaligned (starting [])) (mayStart (unaligned (starting [])) ∧ (unaligned (starting [])).startCheck 1 = 0 ∧ (unaligned (starting [])).startHeld 1 = true) ∧
    Meets (starting []) (mayStart (starting []) ∧ (starting []).startCheck 1 = 0 ∧ (starting []).startHeld 1 = false) ∧
    Meets (heldStart timedSoon) ((heldStart timedSoon).clu[(1 : Clu)].state = .held ∧ (heldStart timedSoon).startHeld 1 = false ∧
      (heldStart timedSoon).startTooLate 1 = true) ∧
    Meets (heldStart []) ((heldStart []).clu[(1 : Clu)].state = .held ∧ (heldStart []).startHeld 1 = false ∧ (heldStart []).startTooLate 1 = false) ∧
    Meets leading (leading.clu[(1 : Clu)].state = .lead ∧ leading.clu[(1 : Clu)].lead = some lead3) := by decide +kernel

def run (e : Nat) : State := running e id jumpy
def stopping : State := running 3 (fun k => { k with state := .stopping }) jumpy
def aborting : State := running 3 (fun k => { k with abortAt := some (5118 * 1024) }) jumpy

def jumping (j : Sched) (f : Cluster → Cluster) : State := running 3 (fun k => f { k with sched := some j }) jumpy
def good (m : JumpMode) : Sched := { jumpTo 4 m with s := 5050, checked := true, read := some { entry := jumpy.entry 4, published := true, cls := some (jumpy.layoutOf 1, .resident) } }
/-- A jump whose switch instant is far off; a DIVERT that is parked, with the jump that serves it or with none. -/
def far (m : JumpMode) : Sched := { good m with s := 9000 }
def divertOn (u : Bool) (j : Option Sched) : State := running 3 (fun k => { k with parked := true, latePend := some (lateAt 2 u), sched := j }) jumpy
abbrev soon (s : State) : Prop := s.clu[(1 : Clu)].sched.any (fun j => decide ((s.clk.now + s.leadOf 1) * 1024 ≤ s.switchAt 1 j)) = true
/-- Cluster 1 plays out the run that a per-cluster reset ended. -/
def playOut (f : Cluster → Cluster) : State := running 3 (fun k => f { k with state := .idle, resetPark := some 9900, outStack := [{ first := 4, left := 1 }] }) jumpy
def leadingOut : State := leading.modClu 1 (fun k => { k with resetPark := some 9900 })

theorem witness_ClustersStop :
    Meets (run 3) ((run 3).clu[(1 : Clu)].state = .run ∧ (run 3).clu[(1 : Clu)].parked = false ∧ (run 3).clu[(1 : Clu)].sched = none) ∧
    Meets (jumping (far .fret) id) ((jumping (far .fret) id).clu[(1 : Clu)].state = .run ∧ soon (jumping (far .fret) id)) ∧
    Meets (jumping (good .immediate) id) (¬ soon (jumping (good .immediate) id) ∧ (jumping (good .immediate) id).clu[(1 : Clu)].sched.isSome = true) ∧
    Meets (jumping (far .fret) (fun k => { k with state := .stopping })) (soon (jumping (far .fret) (fun k => { k with state := .stopping }))) ∧
    Meets (divertOn false (some (far .fret))) (soon (divertOn false (some (far .fret))) ∧ (divertOn false (some (far .fret))).clu[(1 : Clu)].parked = true) ∧
    Meets (divertOn true none) ((divertOn true none).clu[(1 : Clu)].latePend.any (fun l => decide (l.action = 2) && l.unserved) = true) ∧
    Meets (divertOn false (some (good .immediate))) (¬ soon (divertOn false (some (good .immediate)))) ∧
    Meets leading (leading.clu[(1 : Clu)].state = .lead ∧ leading.clu[(1 : Clu)].resetPark = none) ∧
    Meets leadingOut (leadingOut.clu[(1 : Clu)].resetPark.isSome = true) ∧
    Meets (heldStart []) ((heldStart []).clu[(1 : Clu)].state = .held) ∧
    Meets conf (conf.clu[(1 : Clu)].state = .idle) ∧
    Meets stopping (stopping.clu[(1 : Clu)].state = .stopping ∧ stopping.clu[(1 : Clu)].parked = false ∧ stopping.clu[(1 : Clu)].sched = none) ∧
    Meets aborting ((aborting.abortFret 1).any (fun f => decide (f ≤ aborting.finalFret 1)) = true ∧
      aborting.clu[(1 : Clu)].state ≠ .idle ∧ aborting.clu[(1 : Clu)].sched = none) := by decide +kernel

/-- The last play of its entry. -/
def lastPlay (e : Nat) : State := running e (fun k => { k with plays := eRepeat (jumpy.entry e) - 1 }) jumpy
abbrev nothingPends (s : State) : Prop := s.clu[(1 : Clu)].sched = none ∧ s.clu[(1 : Clu)].resetPark = none ∧ s.clu[(1 : Clu)].abortAt = none

/-- A play of the match entry, with an outcome chosen or none. -/
def matchIn (st : CluState) (o : Option Bool) (plays : Nat) : State := testing 3 (fun k => { k with state := st, matchOutcome := o, plays := plays }) pattern
def matching (o : Option Bool) (plays : Nat) : State := matchIn .run o plays
/-- A passed match of an entry whose successor is not published; a match entry whose successor finds the stack full. -/
def badMatch : State := testing 5 (fun k => { k with matchOutcome := some true }) (entryAt 5 [0, 4, 1, 0x80000009, 0, 0, 0x180000, 0] pattern)
def fullStack : List Frame := List.replicate 8 { first := 6, left := 1 }
def loopy (s : State) : State := entryAt 6 [0, 4, 1, 0, 0, 0, 0x110001, 0] s
def fullMatch : State := testing 5 (fun k => { k with matchOutcome := some true, stack := fullStack })
  (published 2 6 (loopy (entryAt 5 [0, 4, 1, 0x80000006, 0, 0, 0x180000, 0] pattern)))
/-- The last play of an entry whose successor begins a loop, with the stack full. -/
def overfull : State := running 7 (fun k => { k with stack := fullStack })
  (published 1 6 (loopy (entryAt 7 [0, 4, 1, 0x80000006, 0, 0, 0x100000, 0] jumpy)))
abbrev isMatch (s : State) : Prop := eMatch s.clu[(2 : Clu)].entry = true ∧ s.hasP 2 = true ∧ s.clu[(2 : Clu)].state = .run ∧
  s.clu[(2 : Clu)].sched = none ∧ s.clu[(2 : Clu)].resetPark = none ∧ s.clu[(2 : Clu)].abortAt = none

theorem witness_FinalFretSteps :
    (∀ s ∈ [run 3, lastPlay 3, run 4, run 5, overfull, stopping], nothingPends s ∧ eMatch s.clu[(1 : Clu)].entry = false) ∧
    Meets (run 3) ((run 3).clu[(1 : Clu)].state = .run ∧ eRepeat (run 3).clu[(1 : Clu)].entry = 2 ∧ (run 3).clu[(1 : Clu)].plays = 0) ∧
    Meets (lastPlay 3) ((lastPlay 3).clu[(1 : Clu)].plays = 1 ∧ (leaveEntry (lastPlay 3).clu[(1 : Clu)].entry []).next = none) ∧
    Meets (run 4) (eRepeat (run 4).clu[(1 : Clu)].entry = 1 ∧ (leaveEntry (run 4).clu[(1 : Clu)].entry []).next = some (3, false) ∧
      (run 4).commitCheck 1 3 = 0 ∧ commitStack 3 ((run 4).entry 3) false [] = some []) ∧
    Meets (run 5) ((leaveEntry (run 5).clu[(1 : Clu)].entry []).next = some (9, false) ∧ (run 5).commitCheck 1 9 = 1) ∧
    Meets overfull ((leaveEntry overfull.clu[(1 : Clu)].entry fullStack).next = some (6, false) ∧ overfull.commitCheck 1 6 = 0 ∧
      commitStack 6 (overfull.entry 6) false (leaveEntry overfull.clu[(1 : Clu)].entry fullStack).stack = none) ∧
    Meets stopping (stopping.clu[(1 : Clu)].state = .stopping) ∧
    Meets (jumping { far .fret with past := true } (fun k => { k with state := .stopping })) ((far .fret).checked = true ∧
      (run 3).finalFret 1 < (jumping (far .fret) id).switchAt 1 (far .fret)) ∧
    Meets aborting (aborting.clu[(1 : Clu)].abortAt.any (fun a => decide (a ≤ aborting.finalFret 1)) = true) := by decide +kernel
theorem witness_MatchPlays :
    Meets (matching none 0) (isMatch (matching none 0) ∧ (matching none 0).playPassed 2 = true) ∧
    Meets (matching (some false) 0) (isMatch (matching (some false) 0) ∧ (matching (some false) 0).playPassed 2 = false ∧
      eRepeat (matching (some false) 0).clu[(2 : Clu)].entry = 2) ∧
    Meets (matching (some false) 1) (isMatch (matching (some false) 1) ∧ (matching (some false) 1).playPassed 2 = false ∧
      (matching (some false) 1).clu[(2 : Clu)].plays + 1 = eRepeat (matching (some false) 1).clu[(2 : Clu)].entry) := by decide +kernel
theorem witness_MatchLeaves :
    Meets badMatch (isMatch badMatch ∧ badMatch.playPassed 2 = true ∧ (leaveEntry badMatch.clu[(2 : Clu)].entry []).next = some (9, false) ∧
      badMatch.commitCheck 2 9 ≠ 0) ∧
    Meets fullMatch (isMatch fullMatch ∧ fullMatch.playPassed 2 = true ∧ (leaveEntry fullMatch.clu[(2 : Clu)].entry fullStack).next = some (6, false) ∧
      fullMatch.commitCheck 2 6 = 0 ∧ commitStack 6 (fullMatch.entry 6) false (leaveEntry fullMatch.clu[(2 : Clu)].entry fullStack).stack = none) ∧
    (∀ s ∈ [matchIn .stopping none 0, matchIn .stopping (some false) 1, matchIn .stopping (some false) 0], s.undef = false ∧
      s.clu[(2 : Clu)].state = .stopping ∧ s.clu[(2 : Clu)].sched = none ∧ (eMatch s.clu[(2 : Clu)].entry && s.hasP 2) = true) := by decide +kernel

def pulsing : State :=
  modBrg (fun b => { b with evo := 2, evoFall := b.evoFall.set 1 (some 5005) }) (words [(brgA 0x2C00, 1)]
    { run 3 with trg := { jumpy.trg with fallAt := jumpy.trg.fallAt.set 2 (some 5001) } })

/-- A HALT late fault whose instant is past. -/
def lateOn (a : BitVec 2) : State := running 3 (fun k => { k with latePend := some { lateAt a true with o := 4990 * 1024 } }) jumpy

theorem witness_LinesAndMarkers :
    Meets pulsing (pulsing.trg.fallAt[(2 : Fin 8)] = some 5001) ∧ Meets pulsing (pulsing.brg.evoFall[(1 : Fin 16)] = some 5005) ∧
    Meets pulsing (pulsing.brg.evi.getLsbD 0 = false ∧ pulsing.configured = true ∧
      (pulsing.effW (brgA (0x2C00 + 4 * 0))).getLsbD 0 = true ∧ true ≠ (pulsing.effW (brgA 0x2C00)).getLsbD 1) ∧
    Meets pulsing (pulsing.brg.evi.getLsbD 1 = false ∧ (pulsing.effW (brgA (0x2C00 + 4 * 1))).getLsbD 0 = false) ∧
    Meets (run 3) (((run 3).mkWord 0 2 1).getLsbD 31 = false) ∧
    Meets (lateOn 0) ((lateOn 0).clu[(1 : Clu)].haltsBy ((lateOn 0).clu[(1 : Clu)].playStart + 8 * (lateOn 0).tsOf 1) = true) ∧
    Meets (run 3) ((run 3).clu[(1 : Clu)].state = .run ∧ (run 3).clu[(1 : Clu)].haltsBy 0 = false ∧ (run 3).clu[(1 : Clu)].latePend = none ∧ (run 3).clu[(1 : Clu)].abortAt = none ∧ (run 3).clu[(1 : Clu)].sched = none ∧
      eMkpEn (run 3).clu[(1 : Clu)].entry = true ∧ ((run 3).mkWord 0 1 1).getLsbD 31 = true ∧ eMkp (run 3).clu[(1 : Clu)].entry = 0 ∧
      (run 3).clu[(1 : Clu)].wBound.getLsbD 0 = true ∧ fld ((run 3).mkWord 0 1 0) 29 0 < eLenGr (run 3).clu[(1 : Clu)].entry * 64 ∧
      slotPlays (fld ((run 3).mkWord 0 1 0) 31 30) 0 2 = true ∧ (run 3).configured = true ∧ (run 3).hasLane 0 = true) := by decide +kernel

def withReqs (arriving pend : List Req) (f : Cluster → Cluster) : State := running 3 (fun k => f { k with arriving := arriving, pend := pend }) jumpy
def one : State := withReqs [req 0 4999] [] id
def near : State := withReqs [req 0 4999] [req 0 4995] id
def gone : State := withReqs [req 0 4999] [req 0 4998, req 1 4998] (fun k => { k with state := .stopping })
def three : State := withReqs [] [req 2 4998, req 0 4998, req 1 4999] id
def shadowed : State := withReqs [] [req 0 4998] (fun k => { k with sched := some (jumpTo 4 .fret) })
def without : State := withReqs [] [req 3 4998] id
def freed : State := withReqs [] [req 0 4998] (fun k => { k with slotFree := 5007 })

theorem witness_JumpRequests :
    Meets gone (firstReq 0 gone.clu[(1 : Clu)].arriving = some (req 0 4999) ∧ gone.clu[(1 : Clu)].state ≠ .run) ∧
    Meets near (firstReq 0 near.clu[(1 : Clu)].arriving = some (req 0 4999) ∧ near.clu[(1 : Clu)].state = .run ∧
      near.clu[(1 : Clu)].pend.any (fun x => decide (x.cond = 0 ∧ 4999 ≤ x.ts + 4)) = true) ∧
    Meets one (firstReq 0 one.clu[(1 : Clu)].arriving = some (req 0 4999) ∧ one.clu[(1 : Clu)].pend = []) ∧
    Meets gone (minReq gone.clu[(1 : Clu)].pend = some 4998) ∧
    Meets shadowed (minReq shadowed.clu[(1 : Clu)].pend = some 4998 ∧ shadowed.clu[(1 : Clu)].state = .run ∧ shadowed.clu[(1 : Clu)].sched.isSome ∧
      (shadowed.clu[(1 : Clu)].pend.filter (fun r => decide (r.ts = 4998))).foldl (fun l r => condInsert r l) [] = [req 0 4998]) ∧
    Meets without (without.clu[(1 : Clu)].state = .run ∧ minReq without.clu[(1 : Clu)].pend = some 4998 ∧ (without.clu[(1 : Clu)].pend.filter (fun r => decide (r.ts = 4998))).foldl (fun l r => condInsert r l) [] = [req 3 4998] ∧
      without.clu[(1 : Clu)].sched = none ∧ without.clu[(1 : Clu)].slotFree ≤ 4998 + 8 ∧
      jwEn (without.jumpWordAt (4998 + 8) (eJt without.clu[(1 : Clu)].entry) 3) = false) ∧
    Meets freed (minReq freed.clu[(1 : Clu)].pend = some 4998 ∧ freed.clu[(1 : Clu)].state = .run ∧ freed.clu[(1 : Clu)].sched = none ∧
      (freed.clu[(1 : Clu)].pend.filter (fun r => decide (r.ts = 4998))).foldl (fun l r => condInsert r l) [] = [req 0 4998] ∧
      4998 + 8 < freed.clu[(1 : Clu)].slotFree) ∧
    Meets three (three.clu[(1 : Clu)].state = .run ∧ minReq three.clu[(1 : Clu)].pend = some 4998 ∧ (three.clu[(1 : Clu)].pend.filter (fun r => decide (r.ts = 4998))).foldl (fun l r => condInsert r l) [] =
        req 0 4998 :: [req 2 4998] ∧ three.clu[(1 : Clu)].sched = none ∧ eJtEn three.clu[(1 : Clu)].entry = true ∧
      three.clu[(1 : Clu)].slotFree ≤ 4998 + 8 ∧ jwEn (three.jumpWordAt (4998 + 8) (eJt three.clu[(1 : Clu)].entry) 0) = true) ∧
    Meets shadowed (shadowed.clu[(1 : Clu)].sched = some (jumpTo 4 .fret) ∧ (jumpTo 4 .fret).read = none) := by decide +kernel

def checkCode (s : State) (j : Sched) : Nat :=
  (s.upto (j.ts + 20)).refusalCheck 1 j (j.read.getD (s.readTarget 1 (j.ts + 12) j.target.toNat))
/-- A loop entry 6, with the loop stack full. -/
def stacked : State := running 3 (fun k => { k with sched := some { good .atEnd with target := 6 }, stack := List.replicate 8 { first := 6, left := 1 } })
  ((published 1 6 ∘ entryAt 6 [0, 4, 1, 0, 0, 0, 0x110001, 0]) jumpy)
abbrev switches (s : State) (j : Sched) : Prop := s.clu[(1 : Clu)].sched = some j ∧ j.checked = true ∧ s.playing 1 (s.switchAt 1 j) = true ∧
  s.switchAt 1 j ≤ s.finalFret 1 ∧ s.abortFret 1 = none
def diverted : State := jumping (jumpTo 9 .fret) (fun k => { k with parked := true, latePend := some (lateAt 2 false) })

theorem witness_JumpChecksAndSwitches :
    Meets (jumping (jumpTo 4 .fret) id) ((jumpTo 4 .fret).checked = false ∧ checkCode (jumping (jumpTo 4 .fret) id) (jumpTo 4 .fret) = 0) ∧
    Meets (jumping (jumpTo 9 .fret) id) (checkCode (jumping (jumpTo 9 .fret) id) (jumpTo 9 .fret) ≠ 0 ∧
      (jumping (jumpTo 9 .fret) id).clu[(1 : Clu)].parked = false) ∧
    Meets diverted (checkCode diverted (jumpTo 9 .fret) ≠ 0 ∧ diverted.clu[(1 : Clu)].parked = true ∧
      diverted.clu[(1 : Clu)].latePend = some (lateAt 2 false)) ∧
    Meets (jumping (good .immediate) id) (switches (jumping (good .immediate) id) (good .immediate) ∧ (good .immediate).mode ≠ .atEnd) ∧
    Meets (jumping (good .fret) id) (switches (jumping (good .fret) id) (good .fret) ∧ (good .fret).mode ≠ .atEnd) ∧
    Meets (jumping (good .atEnd) id) (switches (jumping (good .atEnd) id) (good .atEnd) ∧ (jumping (good .atEnd) id).commitCheck 1 4 = 0 ∧
      (commitStack 4 ((jumping (good .atEnd) id).entry 4) false []).isSome = true) ∧
    Meets stacked (switches stacked { good .atEnd with target := 6 } ∧ stacked.commitCheck 1 6 = 0 ∧
      commitStack 6 (stacked.entry 6) false stacked.clu[(1 : Clu)].stack = none ∧ stacked.clu[(1 : Clu)].resetPark = none) ∧
    Meets (jumping { good .atEnd with target := 9 } id) (switches (jumping { good .atEnd with target := 9 } id) { good .atEnd with target := 9 } ∧
      (jumping { good .atEnd with target := 9 } id).commitCheck 1 9 ≠ 0) ∧
    Meets (jumping (good .atEnd) id) ((jumping (good .atEnd) id).switchAt 1 (good .atEnd) = (jumping (good .atEnd) id).finalFret 1) := by
  decide +kernel
theorem witness_ReleasedJumps :
    (∀ m ∈ [JumpMode.immediate, .fret, .atEnd], switches (jumping (good m) (fun k => { k with state := .stopping })) (good m)) ∧
    (∀ m ∈ [JumpMode.immediate, .fret, .atEnd], switches (playOut (fun k => { k with sched := some (good m) })) (good m)) ∧
    Meets (playOut (fun k => { k with sched := some { good .atEnd with target := 9 } }))
      (switches (playOut (fun k => { k with sched := some { good .atEnd with target := 9 } })) { good .atEnd with target := 9 } ∧
        (playOut id).clu[(1 : Clu)].resetPark.isSome = true ∧ (playOut id).commitCheck 1 9 ≠ 0) := by decide +kernel
theorem witness_CancelledJumps : shadowed.clu[(1 : Clu)].sched.isSome = true ∧ gone.undef = false ∧
    gone.clu[(1 : Clu)].state = .stopping ∧ (firstReq 0 gone.clu[(1 : Clu)].arriving).isSome = true := by decide +kernel

def parkedAt (l : Option LatePend) : State := running 3 (fun k => { k with parked := true, latePend := l }) jumpy
def late (a : BitVec 2) (u : Bool) (j : Option Sched) : State := running 3 (fun k => { k with latePend := some (lateAt a u), sched := j }) jumpy
def lateRec : LateRec := { entry := 3, sample := 5, ts := 4980, reader := 0, action := 2, unit := 0, play := 0 }
def recorded : State := running 3 (fun k => { k with lateRecs := [lateRec] }) jumpy
def fed (s : State) : State := opened 0 ((List.range 9).foldl (fun s i => landed 3 i i 5 s) s)
/-- What LATE_CHECK and SKIP_RESUME find. -/
def checkFinds (s : State) (i : Nat) : Option Bool := (s.checkedPlay 1 0 i).map (fun p => s.sampleLanded 1 p 0 i)
def resumeFinds (s : State) : Option Bool := (s.resumeAt 1 ((s.clk.now - 1) * 1024 + 1)).map (fun x => s.granuleLanded 1 x.2.1 x.2.2)

theorem witness_LateSamples :
    Meets conf (conf.clu[(1 : Clu)].state = .idle ∧ conf.checkedPlay 1 0 0 = none) ∧
    Meets (fed (run 3)) (checkFinds (fed (run 3)) 255 = some true) ∧
    Meets (parkedAt none) ((parkedAt none).clu[(1 : Clu)].parked = true ∧ (parkedAt none).clu[(1 : Clu)].state = .run ∧
      checkFinds (parkedAt none) 255 = some false) ∧
    Meets (run 3) ((run 3).clu[(1 : Clu)].parked = false ∧ (run 3).clu[(1 : Clu)].latePend = none ∧ (run 3).clu[(1 : Clu)].state = .run ∧
      checkFinds (run 3) 255 = some false) ∧
    Meets (late 1 true none) ((late 1 true none).clu[(1 : Clu)].latePend = some (lateAt 1 true)) ∧
    Meets (late 2 false (some (jumpTo 4 .fret))) ((late 2 false (some (jumpTo 4 .fret))).clu[(1 : Clu)].sched.isSome = true) ∧
    Meets (late 0 true none) ((lateAt 0 true).action ≠ 1 ∧ (lateAt 0 true).action ≠ 2) ∧
    Meets (late 2 true none) ((late 2 true none).clu[(1 : Clu)].sched = none) ∧
    Meets recorded (recorded.clu[(1 : Clu)].lateRecs = lateRec :: [] ∧ recorded.flt.queue = []) ∧
    Meets (fed (parkedAt none)) ((fed (parkedAt none)).clu[(1 : Clu)].parked = true ∧ (fed (parkedAt none)).clu[(1 : Clu)].latePend = none ∧
      (fed (parkedAt none)).clu[(1 : Clu)].state = .run ∧ resumeFinds (fed (parkedAt none)) = some true) ∧
    Meets (parkedAt none) (resumeFinds (parkedAt none) = some false) := by decide +kernel
/-- A chip with two pin groups. -/
def part16 : State := { conf with part := { conf.part with variant := .lqf3216 } }

theorem witness_CounterClears : Meets conf (conf.hasPg 3 = true ∧ conf.hasPin 63 = true) ∧
    Meets part16 (part16.hasPg 2 = false ∧ part16.hasPin 32 = false ∧ part16.hasPin 31 = true) := by decide

/-! #### Lanes -/

def lane (f : WLane → WLane) (s : State) : State := s.modWl 0 f
def gen : Nco := { running := true, freq := 0x100000000, m := 79000, chirp := 5 }
/-- An action due at tick 5,001: its plan entry, and its words once read. -/
def act (p : Option (BitVec 14)) (w : Option (BitVec 256)) : NcoAct := { due := 5001 * 1024, rank := 0, plan := p, words := w, from_ := 1 }
def generating (acts : List NcoAct) : State := lane (fun l => { l with nco := gen, acts := acts, actAt := some 80016 }) (run 3)
def freqAct : BitVec 256 := BitVec.ofNat 256 (2 ^ 159 + 77)

/-- Every plan entry of the cycle of an instant has been read. -/
def allRead (s : State) (due : Nat) : Bool :=
  (s.wl[(0 : Lane)].acts.filter (fun a => decide (s.cycleFrom a.due = s.cycleFrom due))).all (fun a => a.words.isSome)

theorem witness_GeneratorActions :
    Meets (lane (fun l => { l with load := .segmentStart }) conf) (conf.hasLane 0 = true ∧
      (lane (fun l => { l with load := .segmentStart }) conf).wl[(0 : Lane)].load ≠ .none) ∧
    Meets conf (conf.hasLane 15 = true ∧ conf.wl[(15 : Lane)].load = .none) ∧
    Meets (generating [act (some 2) none]) (earliest ((generating [act (some 2) none]).planAhead 0) = some (1, 5001 * 1024, 2) ∧
      (generating [act (some 2) none]).laneOwner 0 = some 1) ∧
    Meets (generating [act (some 2) none]) (minDue (generating [act (some 2) none]).wl[(0 : Lane)].acts = some (5001 * 1024) ∧
      allRead (generating [act (some 2) none]) (5001 * 1024) = false) ∧
    Meets (lane (fun l => { l with acts := [act none (some freqAct)] }) (run 3)) (minDue [act none (some freqAct)] = some (5001 * 1024) ∧
      allRead (lane (fun l => { l with acts := [act none (some freqAct)] }) (run 3)) (5001 * 1024) = true ∧ (run 3).wl[(0 : Lane)].nco.running = false) ∧
    Meets (generating [act none (some freqAct)]) (minDue (generating [act none (some freqAct)]).wl[(0 : Lane)].acts = some (5001 * 1024) ∧
      allRead (generating [act none (some freqAct)]) (5001 * 1024) = true ∧ (generating [act none (some freqAct)]).wl[(0 : Lane)].acts = [act none (some freqAct)] ∧
      (act none (some freqAct)).plan = none ∧ (generating [act none (some freqAct)]).wl[(0 : Lane)].nco.running = true ∧
      (generating [act none (some freqAct)]).cycleFrom (5001 * 1024) = 80016 ∧
      (generating [act none (some freqAct)]).wl[(0 : Lane)].actAt = some 80016 ∧ freqAct.getLsbD 159 = true) ∧
    Meets (lane (fun l => { l with glideEnd := some 80100 }) conf) ((lane (fun l => { l with glideEnd := some 80100 }) conf).wl[(0 : Lane)].glideEnd =
      some 80100) := by decide +kernel

def idleGen : State := lane (fun l => { l with nco := gen, ofsUsed := 0x20001 }) (words [(wlA 0 0x104, 0x20000)] conf)

theorem witness_ModulatorCycles :
    Meets idleGen (idleGen.wl[(0 : Lane)].nco.running = true ∧ idleGen.lanePlays 0 (idleGen.cycleAt 80000) = none) ∧
    Meets (generating []) ((generating []).wl[(0 : Lane)].nco.running = true ∧
      ((generating []).lanePlays 0 ((generating []).cycleAt 80000)).isSome = true) := by decide +kernel

def inState (st : LaneState) : State := lane (fun l => { l with state := st, due := 5100 }) conf
def playingLane (st : LaneState) : State := lane (fun l => { l with state := st, due := 5100 }) (run 3)
def held2 : State := link (fun p => { p with prepared := [2] })
def noDie : State := modClk (fun c => { c with plan := 0xF0E }) conf
def pressed (w : Word) : State := cmds [(armNewA 0, w)] conf
def inQueue (k : GovKind) : State := { inState .queued with gov := { queue := [{ kind := k, lane := 0, takenAt := 4990 }], lastAdmit := none } }
def unloaded : State := modImg (fun i => { i with state := .unconfigured }) conf
abbrev present (s : State) : Prop := s.hasLane 0 = true ∧ s.cmdWord (armNewA 0) = 0
abbrev free (s : State) : Prop := present s ∧ s.configured = true ∧ s.laneHeld 0 = false ∧ s.dieAbsent 0 = false

/-- A CMD bit of lane 0 that waits alone, newly presented. -/
def ask (w : Word) (s : State) : State := cmds [(armA 0, w), (armNewA 0, w)] s
abbrev open_ (s : State) : Prop := s.hasLane 0 = true ∧ s.configured = true ∧ s.laneHeld 0 = false ∧ s.dieAbsent 0 = false
abbrev alone (s : State) (w : Word) : Prop := s.cmdWord (armNewA 0) = w ∧ smGet (fun _ => 0) s.more (armNewA 0) = 0 ∧ smGet (fun _ => 0) s.more (armA 0) = 0
def govOff (s : State) : State := words [(clkA 0x400, 0)] s
def reconnecting : State := lane (fun l => { l with reconnect := true }) (inState .tripped)

theorem witness_LaneCommands :
    Meets (pressed 3) ((pressed 3).hasLane 0 = true ∧ (pressed 3).configured = true ∧ ((pressed 3).cmdWord (armNewA 0)).getLsbD 0 = true ∧
      (pressed 3).cmdWord (armNewA 0) &&& ~~~1#32 ≠ 0 ∧ ((pressed 3).cmdWord (armNewA 0)).getLsbD 1 = true) ∧
    Meets (pressed 6) (((pressed 6).cmdWord (armNewA 0)).getLsbD 2 = true ∧ ((pressed 6).cmdWord (armNewA 0)).getLsbD 1 = true) ∧
    Meets held2 (present held2 ∧ held2.configured = true ∧ held2.laneHeld 0 = true) ∧
    Meets noDie (present noDie ∧ noDie.configured = true ∧ noDie.laneHeld 0 = false ∧ noDie.dieAbsent 0 = true) ∧
    Meets conf (free conf ∧ conf.wl[(0 : Lane)].state = .off) ∧
    Meets (inState .tripped) (free (inState .tripped) ∧ (inState .tripped).wl[(0 : Lane)].state = .tripped ∧ (inState .tripped).wl[(0 : Lane)].reconnect = false) ∧
    Meets reconnecting (free reconnecting ∧ reconnecting.wl[(0 : Lane)].reconnect = true) := by decide +kernel
theorem witness_LaneCommandsQueued :
    Meets (inState .arming) (free (inState .arming) ∧ (inState .arming).wl[(0 : Lane)].state = .arming) ∧
    Meets (inQueue .arm) (free (inQueue .arm) ∧ (inQueue .arm).wl[(0 : Lane)].state = .queued ∧
      (inQueue .arm).gov.queue.any (fun q => decide (q.lane = 0 ∧ q.kind = .arm)) = true ∧ (inQueue .arm).gov.queue.any (fun q => decide (q.lane = 0 ∧ q.kind = .cal)) = false) ∧
    Meets (inQueue .cal) (free (inQueue .cal) ∧ (inQueue .cal).gov.queue.any (fun q => decide (q.lane = 0 ∧ q.kind = .arm)) = false ∧
      (inQueue .cal).gov.queue.any (fun q => decide (q.lane = 0 ∧ q.kind = .cal)) = true) := by decide +kernel
theorem witness_LaneCommandsConnected :
    Meets (inState .armed) (free (inState .armed) ∧ (inState .armed).laneIdle 0 = true) ∧
    Meets (playingLane .armed) ((playingLane .armed).hasLane 0 = true ∧ (playingLane .armed).laneIdle 0 = false) ∧
    Meets (inState .spanChange) (free (inState .spanChange) ∧ (inState .spanChange).wl[(0 : Lane)].state = .spanChange) ∧
    Meets (inState .disarming) (free (inState .disarming) ∧ (inState .disarming).wl[(0 : Lane)].state = .disarming) ∧
    Meets (inState .cal) (free (inState .cal) ∧ (inState .cal).wl[(0 : Lane)].state = .cal) ∧
    Meets unloaded (present unloaded ∧ unloaded.configured = false ∧ unloaded.laneHeld 0 = false ∧ unloaded.dieAbsent 0 = false ∧
      unloaded.wl[(0 : Lane)].state = .off) := by decide +kernel

theorem witness_LaneCommandsAsked :
    Meets (ask 1 conf) (open_ (ask 1 conf) ∧ alone (ask 1 conf) 1) ∧
    Meets (ask 1 (inState .tripped)) (open_ (ask 1 (inState .tripped)) ∧ alone (ask 1 (inState .tripped)) 1) ∧
    Meets (ask 1 reconnecting) (open_ (ask 1 reconnecting) ∧ alone (ask 1 reconnecting) 1) ∧
    Meets (ask 1 (inQueue .arm)) (open_ (ask 1 (inQueue .arm)) ∧ alone (ask 1 (inQueue .arm)) 1) ∧
    Meets (ask 1 (inState .armed)) (open_ (ask 1 (inState .armed)) ∧ alone (ask 1 (inState .armed)) 1) ∧
    Meets (ask 1 noDie) (alone (ask 1 noDie) 1 ∧ (ask 1 noDie).dieAbsent 0 = true) := by decide +kernel
theorem witness_LaneCommandsDisarm :
    Meets (ask 2 (inQueue .cal)) (open_ (ask 2 (inQueue .cal)) ∧ alone (ask 2 (inQueue .cal)) 2) ∧
    Meets (ask 2 (inState .arming)) (alone (ask 2 (inState .arming)) 2 ∧ (ask 2 (inState .arming)).disarmGov = true) ∧
    Meets (ask 2 (govOff (inState .armed))) (alone (ask 2 (govOff (inState .armed))) 2 ∧ (ask 2 (govOff (inState .armed))).disarmGov = false ∧
      (ask 2 (govOff (inState .armed))).laneIdle 0 = true) ∧
    Meets (ask 2 (playingLane .armed)) (alone (ask 2 (playingLane .armed)) 2 ∧ (ask 2 (playingLane .armed)).laneIdle 0 = false) ∧
    Meets (ask 2 (inState .cal)) (alone (ask 2 (inState .cal)) 2) := by decide +kernel
theorem witness_LaneCommandsCal :
    Meets (ask 4 conf) (open_ (ask 4 conf) ∧ alone (ask 4 conf) 4) ∧ Meets (ask 5 conf) (open_ (ask 5 conf) ∧ alone (ask 5 conf) 5) ∧
    Meets (ask 4 (inQueue .arm)) (open_ (ask 4 (inQueue .arm)) ∧ alone (ask 4 (inQueue .arm)) 4) ∧
    Meets (ask 4 (inQueue .cal)) (open_ (ask 4 (inQueue .cal)) ∧ alone (ask 4 (inQueue .cal)) 4) ∧
    Meets (ask 4 (inState .cal)) (open_ (ask 4 (inState .cal)) ∧ alone (ask 4 (inState .cal)) 4) ∧
    Meets (ask 4 (inState .disarming)) (open_ (ask 4 (inState .disarming)) ∧ alone (ask 4 (inState .disarming)) 4) ∧
    Meets (ask 4 unloaded) ((ask 4 unloaded).configured = false ∧ alone (ask 4 unloaded) 4) ∧
    Meets (ask 4 noDie) (alone (ask 4 noDie) 4 ∧ (ask 4 noDie).dieAbsent 0 = true) := by decide +kernel

def admitting (k : GovKind) (last : Option Nat) : State :=
  { lane (fun l => { l with state := if k = .disarm then .disarming else .queued }) conf with
    gov := { queue := [{ kind := k, lane := 0, takenAt := 4990 }], lastAdmit := last } }

theorem witness_GovernorAdmits :
    Meets (admitting .arm none) ((admitting .arm none).gov.queue = { kind := .arm, lane := 0, takenAt := 4990 } :: [] ∧
      (admitting .arm none).prepared 10 = false) ∧
    Meets (admitting .cal (some 5000)) ((admitting .cal (some 5000)).gov.queue = { kind := .cal, lane := 0, takenAt := 4990 } :: []) ∧
    Meets (admitting .disarm (some 4000)) ((admitting .disarm (some 4000)).gov.queue = { kind := .disarm, lane := 0, takenAt := 4990 } :: []) ∧
    Meets (modPow (fun p => { p with prepared := [10] }) (admitting .arm none))
      ((modPow (fun p => { p with prepared := [10] }) (admitting .arm none)).prepared 10 = true) := by decide +kernel

def spanWritten : State := words [(wlA 0 0x100, 0x1400100)] (inState .armed)
def reporting (st : LaneState) : State := words [(wlA 0 0x118, 0x11)] (inState st)

theorem witness_LaneProbesAndSpans :
    Meets (inState .arming) ((inState .arming).wl[(0 : Lane)].state = .arming ∧ (inState .arming).olAct 0 ≠ 1) ∧
    Meets (reporting .arming) ((reporting .arming).olAct 0 = 1) ∧
    Meets (lane (fun l => { l with state := .tripped, reconnect := true }) conf)
      ((lane (fun l => { l with state := .tripped, reconnect := true }) conf).wl[(0 : Lane)].reconnect = true) ∧
    Meets spanWritten (spanWritten.wl[(0 : Lane)].state = .armed ∧ spanWritten.laneIdle 0 = true ∧ spanWritten.spanWaits 0 = true ∧ spanWritten.prepared 2 = false) ∧
    Meets (modPow (fun p => { p with prepared := [2] }) spanWritten) ((modPow (fun p => { p with prepared := [2] }) spanWritten).prepared 2 = true) ∧
    Meets (inState .spanChange) ((inState .spanChange).wl[(0 : Lane)].state = .spanChange ∧ (inState .spanChange).wl[(0 : Lane)].disarmHeld = false ∧
      (inState .spanChange).olAct 0 ≠ 1) ∧
    Meets (reporting .spanChange) ((reporting .spanChange).wl[(0 : Lane)].disarmHeld = false ∧ (reporting .spanChange).olAct 0 = 1) ∧
    Meets (lane (fun l => { l with disarmHeld := true }) (reporting .spanChange))
      ((lane (fun l => { l with disarmHeld := true }) (reporting .spanChange)).olAct 0 = 1) ∧
    Meets (lane (fun l => { l with reconnect := true }) (reporting .tripped))
      ((lane (fun l => { l with reconnect := true }) (reporting .tripped)).olAct 0 = 1) ∧
    Meets (lane (fun l => { l with disarmHeld := true }) (inState .spanChange))
      ((lane (fun l => { l with disarmHeld := true }) (inState .spanChange)).wl[(0 : Lane)].disarmHeld = true) ∧
    Meets (inState .cal) ((inState .cal).wl[(0 : Lane)].state = .cal) := by decide +kernel
/-- An armed lane whose latest flags were raised at the ticks given. -/
def flagged (p n o : Option Nat) (st : LaneState) : State := lane (fun l => { l with compP := p, compN := n, openAt := o }) (inState st)
/-- A DISARM waits for the end of play. -/
def stopHeld : State := lane (fun l => { l with disarmHeld := true }) (playingLane .armed)
abbrev raises (s : State) (t : Nat) : Prop := s.flagsNow 0 t = true ∧ mayFlag s.wl[(0 : Lane)].compP 64 t = true ∧ s.wl[(0 : Lane)].unipolar = false
abbrev opens (s : State) (t : Nat) : Prop := s.wl[(0 : Lane)].state = .armed ∧ s.wl[(0 : Lane)].compP ≠ some t ∧ s.wl[(0 : Lane)].compN ≠ some t ∧
  mayFlag s.wl[(0 : Lane)].openAt 1600 t = true

theorem witness_LaneProtection :
    Meets conf (conf.flagsNow 0 5000 = false ∧ conf.wl[(0 : Lane)].state ≠ .armed) ∧
    Meets (lane (fun l => { l with unipolar := true }) (inState .armed)) ((lane (fun l => { l with unipolar := true }) (inState .armed)).wl[(0 : Lane)].unipolar = true) ∧
    Meets (flagged (some 4873) none none .armed) (mayFlag (some 4873) 64 5000 = false) ∧
    Meets (flagged none none (some 3337) .armed) (mayFlag (some 3337) 1600 5000 = false) ∧
    Meets (flagged (some 4872) none none .armed) (raises (flagged (some 4872) none none .armed) 5000 ∧ (flagged (some 4872) none none .armed).compAct 0 ≠ 1 ∧
      (flagged (some 4872) none none .armed).laneOwner 0 = none) ∧
    Meets (flagged none (some 5000) none .tripped) (raises (flagged none (some 5000) none .tripped) 5000 ∧
      (flagged none (some 5000) none .tripped).wl[(0 : Lane)].state ≠ .armed) ∧
    Meets (flagged none none (some 3336) .armed) (opens (flagged none none (some 3336) .armed) 5000 ∧ (flagged none none (some 3336) .armed).olAct 0 ≠ 1 ∧
      (flagged none none (some 3336) .armed).laneOwner 0 = none) ∧
    Meets (reporting .armed) (raises (reporting .armed) 5000 ∧ opens (reporting .armed) 5000 ∧ (reporting .armed).compAct 0 = 1 ∧ (reporting .armed).olAct 0 = 1) ∧
    Meets (playingLane .armed) (raises (playingLane .armed) 5000 ∧ opens (playingLane .armed) 5000 ∧ (playingLane .armed).compAct 0 ≠ 1 ∧
      (playingLane .armed).olAct 0 ≠ 1 ∧ (playingLane .armed).laneOwner 0 = some 1 ∧ (playingLane .armed).clu[(1 : Clu)].state = .run ∧
      (playingLane .armed).wl[(0 : Lane)].disarmHeld = false) ∧
    Meets stopHeld (stopHeld.flagsNow 0 5000 = true ∧ stopHeld.wl[(0 : Lane)].disarmHeld = true ∧ stopHeld.wl[(0 : Lane)].state = .armed) := by decide +kernel

/-! #### Pin groups -/

def group (f : PinGroup → PinGroup) (s : State) : State := s.modPg 0 f
def failing : FirstFail := { entry := 1, play := 2, vec := 3, time := 4, mask := 5 }
def logging (wr : Word) : State := group (fun p => { p with flSize := 4, flWr := wr, flRd := 0, flQueue := [7, 8] }) conf
def wrapOn (s : State) : State := words [(pgA 0 0, 4)] s
def inTest : State := group (fun p => { p with flWr := 3, flRd := 1 }) (testing 3 id pattern)

theorem witness_FailRecords :
    Meets (group (fun p => { p with ffLast := some (5000, failing) }) conf)
      ((group (fun p => { p with ffLast := some (5000, failing) }) conf).pg[(0 : Pg)].ffLast = some (conf.clk.now, failing)) ∧
    Meets conf (conf.pg[(0 : Pg)].ffLast = none) ∧
    Meets conf (conf.pgIdle 0 = true) ∧
    Meets inTest (inTest.pgIdle 0 = false ∧ (3 - inTest.pg[(0 : Pg)].flRd).toNat ≤ (inTest.pg[(0 : Pg)].flWr - inTest.pg[(0 : Pg)].flRd).toNat ∧
      ¬ ((0 - inTest.pg[(0 : Pg)].flRd).toNat ≤ (inTest.pg[(0 : Pg)].flWr - inTest.pg[(0 : Pg)].flRd).toNat)) ∧
    Meets (logging 4) ((logging 4).pg[(0 : Pg)].flQueue = 7 :: [8] ∧ (logging 4).pg[(0 : Pg)].flRdOld = none ∧
      ((logging 4).pg[(0 : Pg)].flWr - (logging 4).pg[(0 : Pg)].flRd).toNat = (logging 4).pg[(0 : Pg)].flSize ∧ (logging 4).effB (pgA 0 0) 2 = false) ∧
    Meets part16 (part16.hasPg 3 = false ∧ part16.hasPg 1 = true) ∧
    Meets (wrapOn (logging 4)) ((wrapOn (logging 4)).effB (pgA 0 0) 2 = true ∧
      (wrapOn (logging 4)).slotOk 37 ((logging 4).ringSlot 0 0) true = false) ∧
    Meets (words [(pgA 0 0, 4)] (opened 37 (logging 4))) ((words [(pgA 0 0, 4)] (opened 37 (logging 4))).effB (pgA 0 0) 2 = true ∧
      (words [(pgA 0 0, 4)] (opened 37 (logging 4))).slotOk 37 ((logging 4).ringSlot 0 0) true = true) ∧
    Meets (opened 37 (logging 3)) ((opened 37 (logging 3)).slotOk 37 ((logging 3).ringSlot 0 3) true = true) ∧
    Meets (logging 3) ((logging 3).slotOk 37 ((logging 3).ringSlot 0 3) true = false) ∧
    Meets (link (fun p => { p with prepared := [4] })) (conf.hasPg 0 = true ∧ conf.pg[(0 : Pg)].tcalUntil = none ∧ (link (fun p => { p with prepared := [4] })).prepared 4 = true ∧ conf.clk.plan.getLsbD (8 + 0) = true) ∧
    Meets inTest (inTest.prepared 4 = false ∧ inTest.clk.pll.getLsbD 1 = true ∧ inTest.clk.plan.getLsbD (8 + 0) = true ∧ inTest.pg[(0 : Pg)].tcalUntil = none) ∧
    Meets conf (conf.prepared 4 = false ∧ conf.hasPg 3 = true ∧ conf.pg[(3 : Pg)].tcalUntil = none ∧ conf.pgIdle 3 = true ∧ conf.clk.pll.getLsbD 1 = true ∧ conf.clk.plan.getLsbD (8 + 3) = true) ∧
    Meets State.reset (State.reset.hasPg 0 = true ∧ State.reset.pg[(0 : Pg)].tcalUntil = none ∧ State.reset.clk.plan.getLsbD (8 + 0) = false) ∧
    Meets (group (fun p => { p with tcalUntil := some 9999 }) conf) ((group (fun p => { p with tcalUntil := some 9999 }) conf).pg[(0 : Pg)].tcalUntil = some 9999) := by
  decide +kernel
theorem witness_VectorsPlay :
    Meets (testing 3 id pattern) ((testing 3 id pattern).pgOwner 0 = some 2 ∧ (testing 3 id pattern).playing 2 (4990 * 1024) = true ∧
      (testing 3 id pattern).pg[(0 : Pg)].vecIdx < (testing 3 id pattern).playVectors 2 ((testing 3 id pattern).entry 3) ∧
      (testing 3 id pattern).clu[(2 : Clu)].parked = false ∧ ((testing 3 id pattern).upto 5000).vectorWord 2 (((testing 3 id pattern).upto 5000).playNow 2) 0 0 = some 0xC1000000000000 ∧
      (0xC1000000000000 : BitVec 64).getLsbD 54 = true ∧ (testing 3 id pattern).producerOk (88 + 2 * 0) = true) ∧
    Meets (testing 4 id pattern) ((testing 4 id pattern).pgOwner 0 = some 2 ∧ (testing 4 id pattern).playing 2 (4990 * 1024) = true ∧
      ((testing 4 id pattern).upto 5000).vectorWord 2 (((testing 4 id pattern).upto 5000).playNow 2) 0 0 = none) ∧
    Meets (testing 3 (fun k => { k with parked := true }) pattern) ((testing 3 (fun k => { k with parked := true }) pattern).clu[(2 : Clu)].parked = true) := by
  decide +kernel

def strobeAt (j : Fin 16) (sel : StrobeSel) (win : Bool) (code : BitVec 3) : StrobePend :=
  { pin := j, sel := sel, window := win, atCh := 5130240, atCl := 5130245, closeCh := 5131264, closeCl := 5131269, code := code, vec := 5109760 }
def vecOf (fails : BitVec 16) : VecOpen := { start := 5109760, entry := 3, play := 0, idx := 0, ts := 0, cluster := 2, cap := true, inMatch := true, fails := fails, passes := 0 }
def strobing (sel : StrobeSel) (win : Bool) (code : BitVec 3) (fails : BitVec 16) : State :=
  group (fun p => { p with strobes := [strobeAt 0 sel win code], vecs := [vecOf fails] }) (testing 3 id pattern)

def outside (s : State) : State := group (fun p => { p with vecs := p.vecs.map (fun v => { v with inMatch := false }) }) s
/-- A ball that stays at one level through its window. -/
def steady (b : Bool) : Wave := { first := b, flips := [] }

theorem witness_StrobesCompareLater :
    Meets (strobing .s1 false 5 1) ((vecOf 1).fails.getLsbD 0 = true) ∧ Meets (strobing .s1 false 5 2) ((vecOf 2).fails.getLsbD 0 = false) ∧
    Meets (strobing .s2 true 5 1) ((strobeAt 0 .s2 true 5).window = true) ∧ Meets (strobing .s2 true 6 0) (compareOf 6 false true = some false) ∧
    Meets (outside (strobing .s1 false 5 0)) ((outside (strobing .s1 false 5 0)).pg[(0 : Pg)].vecs = [{ vecOf 0 with inMatch := false }]) ∧
    Meets (outside (strobing .s2 true 5 0)) ((outside (strobing .s2 true 5 0)).pg[(0 : Pg)].vecs = [{ vecOf 0 with inMatch := false }]) := by
  decide +kernel
theorem witness_StrobesCompare :
    Meets (strobing .s1 false 5 0) ((strobing .s1 false 5 0).pg[(0 : Pg)].strobes.find? (fun x => decide (x.pin = 0 ∧ x.sel = .s1)) =
        some (strobeAt 0 .s1 false 5) ∧ (strobing .s1 false 5 0).pg[(0 : Pg)].vecs.find? (fun v => decide (v.start = 5109760)) = some (vecOf 0) ∧
      compareOf 5 true false = some false ∧ compareOf 5 false true ≠ some false) ∧
    Meets (strobing .s1 false 6 0xFFFF) ((strobing .s1 false 6 0xFFFF).pg[(0 : Pg)].vecs.find? (fun v => decide (v.start = 5109760)) =
      some (vecOf 0xFFFF) ∧ compareOf 6 false true = some false ∧ compareOf 6 true false ≠ some false) ∧
    Meets (strobing .s2 true 5 0) ((strobing .s2 true 5 0).pg[(0 : Pg)].strobes.find? (fun x => decide (x.pin = 0 ∧ x.sel = .s2)) =
        some (strobeAt 0 .s2 true 5) ∧ (strobeAt 0 .s2 true 5).window = true ∧ (strobeAt 0 .s2 true 5).code ≠ 4 ∧
      pairedHold (waveUnder (steady true) false) (waveUnder (steady false) false) (strobeAt 0 .s2 true 5).windowLen
        (fun h l => decide (compareOf 5 h l = some false)) = some 24576 ∧
      pairedHold (waveUnder (steady false) false) (waveUnder (steady true) false) (strobeAt 0 .s2 true 5).windowLen
        (fun h l => decide (compareOf 5 h l = some false)) = none ∧
      (pairedHold (waveUnder (steady true) false) (waveUnder (steady true) false) (strobeAt 0 .s2 true 5).windowLen (fun h l => h && l)).isSome = true ∧
      pairedHold { first := true, flips := [24575] } (steady false) 102400 (fun h l => h && !l) = none ∧
      pairedHold { first := true, flips := [24576] } (steady false) 102400 (fun h l => h && !l) = some 24576) ∧
    Meets (strobing .s2 true 4 0) ((strobing .s2 true 4 0).pg[(0 : Pg)].strobes.find? (fun x => decide (x.pin = 0 ∧ x.sel = .s2)) =
      some (strobeAt 0 .s2 true 4) ∧ (strobeAt 0 .s2 true 4).code = 4) ∧
    Meets (strobing .cap false 4 0) ((strobing .cap false 4 0).pg[(0 : Pg)].strobes.find? (fun x => decide (x.pin = 0 ∧ x.sel = .cap)) =
      some (strobeAt 0 .cap false 4)) := by decide +kernel

/-! #### Levels and the Bridge -/

def level (f : Level → Level) (s : State) : State := s.modLvl 0 f
def lvlIn (st : LvlState) (w : Word) : State := level (fun l => { l with state := st, oe := decide (st ≠ .opened), span := 5, active := 5 }) (words [(lvlA 0 0, w)] conf)
def held3 : State := modPow (fun p => { p with prepared := [3] }) (lvlIn .opened 0x15)

theorem witness_LevelConnections :
    Meets (lvlIn .opened 5) ((lvlIn .opened 5).lvlOeCfg 0 = (lvlIn .opened 5).lvl[(0 : Lvl)].oe) ∧
    Meets held3 (held3.lvlOeCfg 0 = true ∧ held3.lvl[(0 : Lvl)].oe = false ∧ held3.prepared 3 = true) ∧
    Meets (lvlIn .opened 0x15) ((lvlIn .opened 0x15).lvlOeCfg 0 = true ∧ (lvlIn .opened 0x15).lvl[(0 : Lvl)].oe = false ∧
      (lvlIn .opened 0x15).prepared 3 = false) ∧
    Meets (lvlIn .connected 5) ((lvlIn .connected 5).lvlOeCfg 0 = false ∧ (lvlIn .connected 5).lvl[(0 : Lvl)].oe = true) ∧
    Meets (lvlIn .settling 0x15) ((lvlIn .settling 0x15).lvl[(0 : Lvl)].state = .settling) := by decide +kernel

def changing : State := level (fun l => { l with changing := true }) conf
def monitoring : State := { lvlIn .connected 0x15 with mon := { conf.mon with chan := some 0, due := 5200 } }

/-- A connected channel in a current span whose latest flags were raised at a tick. -/
def raisedAt (t : Option Nat) : State := level (fun l => { l with compAt := t, openAt := t }) (lvlIn .connected 5)
abbrev watched (s : State) : Prop := s.lvl[(0 : Lvl)].on = true ∧ currentSpan s.lvl[(0 : Lvl)].span.toNat = true

theorem witness_LevelSpansAndFlags :
    Meets (lvlIn .opened 5) ((lvlIn .opened 5).lvlSpanCfg 0 = (lvlIn .opened 5).lvl[(0 : Lvl)].span.toNat) ∧
    Meets (lvlIn .opened 7) (7 ≤ (lvlIn .opened 7).lvlSpanCfg 0) ∧
    Meets (lvlIn .opened 0x011) ((lvlIn .opened 0x011).lvlSpanCfg 0 ≠ (lvlIn .opened 0x011).lvl[(0 : Lvl)].span.toNat ∧
      (lvlIn .opened 0x011).lvlSpanCfg 0 < 7 ∧ (lvlIn .opened 0x011).lvl[(0 : Lvl)].state ≠ .spanChange ∧ (lvlIn .opened 0x011).lvlMbb 0 = false) ∧
    Meets (lvlIn .connected 0x116) ((lvlIn .connected 0x116).lvlSpanCfg 0 = 6 ∧ (lvlIn .connected 0x116).lvlMbb 0 = true ∧
      currentSpan 6 = currentSpan 5) ∧
    Meets (lvlIn .settling 0x110) ((lvlIn .settling 0x110).lvlSpanCfg 0 = 0 ∧ (lvlIn .settling 0x110).lvlMbb 0 = true ∧
      currentSpan 0 ≠ currentSpan 5) ∧
    Meets (lvlIn .spanChange 5) ((lvlIn .spanChange 5).lvl[(0 : Lvl)].state = .spanChange) ∧
    Meets changing (changing.lvl[(0 : Lvl)].changing = true ∧ changing.lvl[(0 : Lvl)].state = .opened) ∧
    Meets conf (conf.lvl[(0 : Lvl)].on = false) ∧
    Meets (raisedAt (some 4000)) (watched (raisedAt (some 4000)) ∧ mayRaise (some 4000) 10399 = false ∧ mayRaise (some 4000) 10400 = true ∧
      (raisedAt (some 4000)).lvlWindow 0 = (0, 2500) ∧ (raisedAt (some 4000)).lvl[(0 : Lvl)].compAt ≠ some 10400) ∧
    Meets (raisedAt none) (watched (raisedAt none) ∧ mayRaise none 5000 = true) ∧
    Meets monitoring (monitoring.mon.chan = some 0) := by decide +kernel

def captured : Captured := { capAt := 4998, loadAt := 5120, codes := [1, 2, 3, 4, 5, 6, 7, 8] }
def strobed : State := conf.modLg 5 (fun _ => { strobes := [4990, 5000], captured := [captured] })

theorem witness_LoadsCaptureAndAct :
    Meets conf (conf.hasLg 5 = true ∧ conf.configured = true ∧ conf.lg[(5 : Lg)].strobes.contains 5000 = false ∧ conf.brg.loadNRise = none) ∧
    Meets (words [(lgA 5 0, 2)] (modBrg (fun b => { b with loadNRise := some 4984 }) strobed)) ((words [(lgA 5 0, 2)] strobed).effB (lgA 5 0) 1 = true ∧
      strobed.effB (lgA 5 0) 1 = false ∧ (some 4984 : Option Nat).all (fun r => decide (r + 16 ≤ 5000)) = true ∧
      (some 4985 : Option Nat).all (fun r => decide (r + 16 ≤ 5000)) = false ∧ strobed.lg[(5 : Lg)].strobes.contains 5000 = true) ∧
    Meets strobed (minNat strobed.lg[(5 : Lg)].strobes = some 4990) ∧
    Meets strobed (minNat (strobed.lg[(5 : Lg)].captured.map Captured.loadAt) = some captured.loadAt ∧
      strobed.lg[(5 : Lg)].captured.find? (fun y => decide (y.loadAt = captured.loadAt)) = some captured) := by decide +kernel

def event (p : Fin 256) (t : Nat) : BrgEvt := { prod := p, at_ := t, carried := t, data := 5, seen := true }
def routed : State := modBrg (fun b => { b with inFlight := [event 0 4999, event 1 5001] })
  (words [(brgA (32 * 20), 1), (brgA (32 * 131), 1), (brgA (32 * 145), 1), (brgA (32 * 193), 1), (brgA (32 * 201), 1), (brgA 0x2C4C, 0xF03)] jumpy)

theorem witness_BridgeHops : Meets routed (minAt routed.brg.inFlight = some 4999 ∧
    routed.brg.inFlight.filter (fun e => decide (e.at_ = 4999)) = [event 0 4999] ∧ (event 0 4999).seen = true ∧
    (routed.consumersOf 0).filter (fun c => routed.enableOk c 0) = [20, 131, 145, 193, 201] ∧ routed.condSrc 1 4 = 0) := by decide +kernel

def timed (t : Timer) : State := modBrg (fun b => { b with timers := b.timers.set 0 t }) conf
def both : State := cmds [(brgA 0x2800, 3)] conf

def running0 : Timer := { armed := true, period := 8, left := 1, due := 5000 }

theorem witness_BridgeTimersAndSoftware :
    Meets both ((both.cmdWord (brgA (0x2800 + 32 * 0))).getLsbD 1 = true) ∧
    Meets (timed { stopAt := some 5000 }) ((timed { stopAt := some 5000 }).brg.timers[(0 : Fin 8)].stopAt = some conf.clk.now) ∧
    Meets (timed running0) (((timed running0).cmdWord (brgA 0x2800)).getLsbD 1 = false ∧ (timed running0).configured = true ∧
      (timed running0).brg.timers[(0 : Fin 8)].stopAt ≠ some conf.clk.now ∧ (timed running0).brg.timers[(0 : Fin 8)].armed = true ∧
      (timed running0).brg.timers[(0 : Fin 8)].due = conf.clk.now ∧ (timed running0).brg.timers[(0 : Fin 8)].owed = none) ∧
    Meets (timed { running0 with owed := some 5000 }) ((timed { running0 with owed := some 5000 }).brg.timers[(0 : Fin 8)].owed = some 5000) ∧
    Meets conf (conf.brg.timers[(7 : Fin 8)].armed = false ∧ conf.brg.timers[(7 : Fin 8)].owed = none ∧ conf.configured = true) := by decide +kernel

def storming (n : Nat) : State := modBrg (fun b => { b with window := [(0, n)] }) routed
def seeing : State := modBrg (fun b => { b with inFlight := [{ event 0 4999 with seen := false }] }) (storming 128)

theorem witness_StormGuard :
    Meets (storming 128) ((storming 128).suppressed 0 = false ∧ (storming 128).guardedProducer 0 = true ∧ (storming 128).stormAt 0 = 0 ∧
      (storming 128).brg.resting.contains 0 = false ∧ smGet (fun _ => 0) (storming 128).brg.window 0 = 128 ∧ (storming 128).seeDue.stormAt 0 = 0) ∧
    Meets seeing (seeing.seeDue.stormAt 0 = 5000 ∧ seeing.flt.queue = []) ∧
    Meets { storming 500 with flg := [(brgA 0x2060, { bits := 1, fresh := 0, tick := 5000 })] }
      (({ storming 500 with flg := [(brgA 0x2060, { bits := 1, fresh := 0, tick := 5000 })] } : State).suppressed 0 = true) := by decide +kernel

/-! #### The Ensemble Link -/

def port0 (st : PortState) (s : State) : State := modLink (fun l => { l with ports := (l.ports.set 0 { state := st }).set 1 { state := .up } }) s
def msg (o : Fin 64) (c : Fin 32) (t : Nat) : LinkMsg := { origin := o, channel := c, time := t, data := 4 }
/-- A MEMBER of an ensemble with the view 5, ports 0 and 1 UP, every channel received, a message sent and some held. -/
def member : State := port0 .up (modLink (fun l => { l with
  state := .member, view := 5, reach := 5, memberSpans := [(0, none)], heldMsgs := [msg 2 3 4000, msg 0 3 4000, msg 0 0 4500]
  seen := [msg 2 3 4900], sent := [(msg 0 3 3000, true)] }) (words [(lnkA 0, 0xF2), (lnkA 0xC, 0xFFFFFFFF)] conf))
def originOf2 (st : BitVec 2) (check heard missed : Nat) : Origin :=
  { deviceId := 0x42, state := st, idx := 2, ready := true, reach := 5, heard := heard, count := 2, check := check, missed := missed, lost := false }
def hearing (o : Origin) : State := modLink (fun l => { l with origins := [o] }) member
def lonely : State := modLink (fun l => { l with state := .candidate }) (words [(lnkA 0, 0xFA)] conf)
/-- An UP port 0 whose neighbour's latest beacon came at a tick. -/
def silent (at_ : Nat) (s : State) : State :=
  modLink (fun l => { l with ports := l.ports.set 0 { state := .up, neighValid := true, neighId := 9, neighAt := at_ } }) s

theorem witness_LinkPortsAndOrigins :
    Meets (port0 .train conf) ((port0 .train conf).link.ports[(0 : Fin 4)].state = .train) ∧
    Meets member (member.link.ports[(0 : Fin 4)].state = .up ∧ member.link.ports[(0 : Fin 4)].state ≠ .train ∧
      (member.upto 5000).portFails 0 .slip = true ∧ (member.upto 5000).portFails 0 .disabled = false ∧
      (member.upto 5000).portFails 0 (.blockErrors 0 (List.replicate 16 0)) = true ∧
      (member.upto 5000).portFails 0 (.blockErrors 0 (List.replicate 15 0)) = false) ∧
    Meets (silent 900 member) (((silent 900 member).upto 48900).portFails 0 .beaconTimeout = true ∧
      ((silent 900 member).upto 48899).portFails 0 .beaconTimeout = false) ∧
    Meets conf (conf.link.ports[(0 : Fin 4)].state ≠ .up ∧ conf.portEn 0 = false) ∧
    Meets (hearing (originOf2 3 20000 3000 2)) ((hearing (originOf2 3 20000 3000 2)).link.origins.find? (fun x => x.isOf true 0x42) =
      some (originOf2 3 20000 3000 2) ∧ ¬ 20000 ≤ 3000 + 1600 ∧ 2 + 1 = 3) ∧
    Meets (hearing (originOf2 2 4601 3000 2)) ((hearing (originOf2 2 4601 3000 2)).link.origins.find? (fun x => x.isOf false 0x42) =
      some (originOf2 2 4601 3000 2) ∧ ¬ 4601 ≤ 3000 + 1600) ∧
    Meets (hearing (originOf2 1 4600 3000 2)) ((hearing (originOf2 1 4600 3000 2)).link.origins.find? (fun x => x.isOf false 0x42) =
      some (originOf2 1 4600 3000 2) ∧ 4600 ≤ 3000 + 1600) ∧
    Meets lonely (lonely.link.state = .candidate ∧ lonely.lnkAdmitEn = true ∧ lonely.link.auth = false) ∧
    Meets conf (¬ conf.link.state = .candidate) := by decide +kernel

/-- A beacon was heard before, by any port, with COUNT 3. -/
def heardBefore : State := modLink (fun l => { l with beacons := [{ deviceId := 0x42, count := 3, at_ := 4990 }] }) member
def ours : State := modLink (fun l => { l with authId := 9 }) member
def strange : Beacon := { beaconOf 1 with ensTag := 5 }
def cellAt (t : BitVec 48) : EventCell := { hops := 1, origin := 2, channel := 3, producer := 0, data := 9, time := t }
def crowded : State := modLink (fun l => { l with heldMsgs := List.replicate 256 (msg 2 3 4000) }) member
abbrev heard (l : List Cell) (b : Beacon) : Prop := l.all cellGood = true ∧ Beacon.read l = some b

/-- A beacon's fields come back from its cells, 6 and one of ADMIT. -/
theorem beacon_heard : heard (beaconOf 1).frame (beaconOf 1) ∧ heard strange.frame strange ∧ (beaconOf 1).frame.length = 7 := by decide +kernel

theorem witness_BeaconsAndMessages :
    Meets conf (conf.lnkEn = false ∧ conf.link.ports[(0 : Fin 4)].state = .down) ∧
    Meets member (member.lnkEn = true ∧ member.link.ports[(0 : Fin 4)].state ≠ .down ∧
      0 < (([0] : List Cell).filter (fun x => !cellGood x)).length ∧ cellGood (cellAt 4990).frame = true ∧ Beacon.read [(cellAt 4990).frame] = none) ∧
    Meets (port0 .train member) ((port0 .train member).lnkEn = true ∧ (port0 .train member).link.ports[(0 : Fin 4)].state = .train) ∧
    Meets heardBefore (heardBefore.lnkEn = true ∧ heardBefore.link.beacons.any (fun o => decide (o.deviceId = (beaconOf 1).deviceId ∧
      o.count = (beaconOf 1).count ∧ (heardBefore.upto 5000).tb < o.at_ + 16000)) = true) ∧
    Meets member (member.link.beacons = [] ∧ (beaconOf 1).deviceId ≠ member.part.deviceId ∧ strange.ensTag ≠ member.ensTag ∧
      (beaconOf 1).ensTag = member.ensTag ∧ (beaconOf 1).authId ≠ member.link.authId ∧ member.link.state = .member ∧ (beaconOf 1).state = 3) ∧
    Meets ours (ours.lnkEn = true ∧ ours.link.ports[(0 : Fin 4)].state = .up ∧ ours.link.beacons = [] ∧ (beaconOf 1).authId = ours.link.authId) := by
  decide +kernel

theorem witness_EventCells :
    Meets member (cellGood (cellAt 5000).frame = true ∧ cellType (cellAt 5000).frame = 1 ∧
      (member.upto 5000).tb ≤ extendTime (member.upto 5000).tb (EventCell.read (cellAt 5000).frame).time) ∧
    Meets member (EventCell.read (cellAt 4999).frame = cellAt 4999 ∧ cellGood 0 = false ∧ cellType (beaconOf 1).frame.head! ≠ 1 ∧
      extendTime (member.upto 5000).tb (cellAt 4999).time < (member.upto 5000).tb ∧
      (member.memberAt 4999 && (member.viewAtTime 4999).getLsbD 2) = true ∧
      (member.memberAt 4999 && (member.viewAtTime 4999).getLsbD 1) = false ∧ member.chanRxEn 3 = true ∧
      ¬ 4999 + 1280 < (member.upto 5000).tb ∧ 3719 + 1280 < (member.upto 5000).tb ∧ ¬ 3720 + 1280 < (member.upto 5000).tb ∧
      ¬ 256 ≤ (member.link.heldMsgs.filter (fun x => !x.own)).length ∧
      member.link.seen.any (fun x => decide (x.origin = 2 ∧ x.channel = 3 ∧ x.time = 4999)) = false ∧
      member.link.seen.any (fun x => decide (x.origin = 2 ∧ x.channel = 3 ∧ x.time = 4900)) = true) ∧
    Meets (words [(lnkA 0xC, 0)] member) ((words [(lnkA 0xC, 0)] member).chanRxEn 3 = false) ∧
    Meets crowded (256 ≤ (crowded.link.heldMsgs.filter (fun x => !x.own)).length) ∧
    Meets member (minTime member.link.heldMsgs = some 4000 ∧ member.link.sent = (msg 0 3 3000, true) :: []) := by decide +kernel

/-! #### Memories -/

def flight (d : Fin 1572864) (rt : Bool) (src : Fin 44) : InFlight :=
  { tag := { dest := d, rt := rt, deadline := 100, src := src, addr := 7, entry := none }, issued := 4900, passed := rt }
def flying (ready : Bool) : State := opened 42 (modDram (fun d => { d with ready := ready, inFlight := [flight 5 true 42, flight 6 false 3] }) conf)
def chans (f : DramChan → DramChan) (s : State) : State := modDram (fun d => { d with chans := d.chans.map f }) s
def full4 : State := chans (fun k => { k with rt := 512, be := 2048, owed := 8, aggressors := [(3, 7)] }) conf
def dramTraining (t : Training) : State := modDram (fun d => { d with training := t, ready := false }) conf
def openRow : State := chans (fun k => { k with rows := [(15, 7)] }) conf
def unready (s : State) : State := modDram (fun d => { d with ready := false }) s
def predicting : State := words [(drmA 0x10, 0x10)] conf

theorem witness_DramAccessesAndRefresh :
    Meets State.reset (State.reset.configured = false) ∧
    Meets conf (conf.configured = true ∧ conf.dram.waiting = [] ∧ conf.dram.chans[(0 : Chan)].room true = true ∧
      conf.dram.ready = true ∧ conf.dram.chans[(0 : Chan)].owed < 8 ∧ conf.dram.chans[(0 : Chan)].rt = 0 ∧ conf.predicts = false ∧
      conf.readerAccess (flight 5 true 20).tag = none ∧ conf.stagingAccess (flight 5 true 20).tag = false ∧
      (allFin 8).find? (conf.capoAccess (flight 5 true 20).tag) = none) ∧
    Meets full4 (full4.dram.waiting = [] ∧ full4.dram.chans[(0 : Chan)].room true = false ∧ full4.dram.chans[(0 : Chan)].room false = false ∧
      8 ≤ full4.dram.chans[(0 : Chan)].owed ∧ full4.dram.chans[(0 : Chan)].rt ≠ 0 ∧ full4.dram.chans[(0 : Chan)].aggressors = (3, 7) :: []) ∧
    Meets (chans (fun k => { k with rt := 1, owed := 7 }) conf) ((chans (fun k => { k with rt := 1, owed := 7 }) conf).dram.chans[(0 : Chan)].owed < 8) ∧
    Meets (flying true) ((flying true).dram.inFlight.find? (fun y => decide (y.tag.dest = 5)) = some (flight 5 true 42) ∧
      (flying true).dram.inFlight.find? (fun y => decide (y.tag.dest = 6)) = some (flight 6 false 3) ∧ (flying true).dram.ready = true ∧
      (flying true).issuedFirst (flight 5 true 42) [5, 6] = true ∧ (flying true).issuedFirst (flight 6 false 3) [5, 6] = false ∧
      (flying true).issuedFirst (flight 6 false 3) [6] = true ∧
      (flying true).slotOk 42 5 true = true ∧ (flying true).slotOk 3 6 true = false ∧ pastDeadline 5000 100 = true) ∧
    Meets (flying false) ((flying false).dram.ready = false) ∧
    Meets (landed 3 5 7 0 (flying true)) ((smFind (landed 3 5 7 0 (flying true)).mem.slots 5).isSome = true) ∧
    Meets (chans (fun k => { k with aggressors := [(3, 7)], lastNbr := some 4990 }) conf) (¬ (true = true ∧ 0 < conf.dram.chans[(0 : Chan)].rt)) ∧
    Meets (unready full4) ((unready full4).dram.ready = false ∧ (unready full4).dram.chans[(0 : Chan)].aggressors = (3, 7) :: []) ∧
    Meets openRow (openRow.predicts = false ∧ (smFind openRow.dram.chans[(0 : Chan)].rows 15).isSome = true ∧
      smFind openRow.dram.chans[(0 : Chan)].rows 0 = none) ∧
    Meets predicting (predicting.predicts = true) := by decide +kernel

/-- A hash gives every unit of a section a tile (R139). -/
theorem copyTile_some (s : State) (i u : Nat) (l : Layout) (h : (s.copyTile i l u).isSome = true) :
    ∃ v : Fin 96, s.copyTile i l u = some v.val := by
  simp only [State.copyTile] at h ⊢
  split at h
  · simp at h
  · obtain ⟨x, hx⟩ := Option.isSome_iff_exists.1 h
    obtain ⟨p, _, hp⟩ := Option.map_eq_some_iff.1 hx
    exact ⟨⟨x, by omega⟩, by simp_all⟩

def ofLane : Layout := bound.layoutOf 1
/-- Cluster 1 plays entry 3, which nothing keeps staged. -/
def fetching : State := running 3 (fun k => { k with foreseenAt := 4800 })
  (modPlace (fun p => { p with entries := smPut (fun _ => {}) p.entries 3 { published := true, layouts := [(ofLane, .fetched)] } }) bound)
def fetchTag (d : BitVec 32) : AccessTag := { dest := 7, rt := true, deadline := d, src := 21, addr := 0, entry := none }
/-- Entry 3 waits for the data of its sections. -/
def staging : State := modPlace (fun p => { p with
  headUnits := 64, resUnits := 64
  jobs := [{ entry := 3, layouts := [(ofLane, .resident)], ranges := [(0, 8)], promoted := false }] }) bound
def stagingTag (v : Fin 96) : AccessTag :=
  { dest := Fin.ofNat _ v.val, rt := false, deadline := 0, src := 43, addr := 5, entry := some 3 }
/-- In rolling mode entry 3 may jump to entry 4, whose head is not staged. -/
def rollingHead : State := running 3 (fun k => { k with foreseenAt := 4800 }) (modPlace (fun p => { p with
  rolling := true, shares := 0xFFFF, headUnits := 64, resUnits := 64
  entries := smPut (fun _ => {}) p.entries 4 { published := true, layouts := [(ofLane, .headed)] } }) jumpy)
def headTag (v : Fin 96) : AccessTag :=
  { dest := Fin.ofNat _ v.val, rt := true, deadline := 4994, src := 32, addr := 5, entry := some 4 }

/-- The loader reads slot 3, which a VALIDATE checks. -/
def readingSlot : State := modOvl (fun o => { o with validating := some 3 }) conf
def loaderTag (addr : Nat) : AccessTag := { dest := 9, rt := false, deadline := 0, src := 42, addr := BitVec.ofNat 30 addr, entry := none }
def slotUnit : Nat := readingSlot.slotBase 3 / 64
def fullFor (s : State) : State := modDram (fun d => { d with chans := full4.dram.chans }) s

theorem witness_LoaderAccess : Meets readingSlot (readingSlot.configured = true ∧ (readingSlot.upto 5000).loaderRead (loaderTag slotUnit) = true ∧
      (readingSlot.upto 5000).loaderRead (loaderTag 5) = false) ∧
    Meets (fullFor readingSlot) (((fullFor readingSlot).dram.chans[(unitChan slotUnit : Chan)]).room false = false ∧
      ((fullFor readingSlot).upto 5000).loaderRead (loaderTag slotUnit) = true) ∧
    Meets (fullFor fetching) ((fullFor fetching).dram.chans[(0 : Chan)].room true = false ∧
      ((fullFor fetching).upto 5000).readerAccess (fetchTag 4758) = some (1, 0)) := by decide +kernel
theorem witness_FillAccess : Meets fetching (fetching.configured = true ∧ (fetching.upto 5000).readerAccess (fetchTag 4758) = some (1, 0) ∧
    fetching.readerAccess (fetchTag 4759) = none) := by decide +kernel

theorem witness_StagingAccess : ∃ a, Meets staging ((staging.upto 5000).configured = true ∧ (staging.upto 5000).readerAccess a = none ∧
    (staging.upto 5000).stagingAccess a = true) := by
  obtain ⟨v, hv⟩ := copyTile_some (staging.upto 5000) 3 5 ofLane (by decide +kernel)
  have hf : (staging.upto 5000).stagingFor 3 5 = some (ofLane, .resident) := by decide +kernel
  have hr : ∀ v : Fin 96, (staging.upto 5000).readerAccess (stagingTag v) = none ∧ tileOf (stagingTag v).dest.val = v.val ∧
    (staging.upto 5000).areaOf (stagingTag v).dest.val ((staging.upto 5000).inHeadArea ((staging.upto 5000).entry 3) (ofLane, .resident)) = true ∧
    (staging.upto 5000).slotOpen (stagingTag v).dest.val = true := by decide +kernel
  have hc : (staging.upto 5000).copyHas 3 5 = false ∧ staging.undef = false ∧ (staging.upto 5000).configured = true := by decide +kernel
  obtain ⟨h1, h2, h3, h4⟩ := hr v
  have h : (staging.upto 5000).stagingAccess (stagingTag v) = true := by
    unfold State.stagingAccess
    rw [show (stagingTag v).entry = some 3 from rfl]
    dsimp only
    rw [show (3 : BitVec 17).toNat = 3 from rfl, show (stagingTag v).addr.toNat = 5 from rfl, hf]
    dsimp only
    rw [show (stagingTag v).src = 43 from rfl, show (stagingTag v).rt = false from rfl, hc.1, h2, h3, h4, hv]
    simp only [decide_true]
    decide +kernel
  exact ⟨stagingTag v, hc.2.1, hc.2.2, h1, h⟩

theorem witness_HeadAccess : ∃ a, Meets rollingHead ((rollingHead.upto 5000).readerAccess a = none ∧
    (rollingHead.upto 5000).stagingAccess a = false ∧ ((allFin 8).find? ((rollingHead.upto 5000).capoAccess a)).isSome = true) := by
  obtain ⟨v, hv⟩ := copyTile_some (rollingHead.upto 5000) 4 5 ofLane (by decide +kernel)
  have hr : ∀ v : Fin 96, (rollingHead.upto 5000).readerAccess (headTag v) = none ∧ tileOf (headTag v).dest.val = v.val ∧
    (rollingHead.upto 5000).areaOf (headTag v).dest.val true = true ∧
    (rollingHead.upto 5000).slotOpen (headTag v).dest.val = true := by decide +kernel
  have hc : (rollingHead.upto 5000).copyHas 4 5 = false ∧ rollingHead.undef = false ∧ (rollingHead.upto 5000).stagingFor 4 5 = none ∧
    (rollingHead.upto 5000).capoWants 1 4 = some ofLane ∧ (rollingHead.upto 5000).capoShare 1 ≠ 0 ∧
    ((rollingHead.upto 5000).capoDeadlines 1 4).contains 4994 = true ∧ (rollingHead.upto 5000).plc.rolling = true ∧
    (rollingHead.upto 5000).clu[(1 : Clu)].state = .run ∧
    inRanges (headRanges (rollingHead.upto 5000).part.grade20 ofLane ((rollingHead.upto 5000).entry 4)) 5 = true := by decide +kernel
  obtain ⟨h1, h2, h3, h4⟩ := hr v
  obtain ⟨c1, c2, c3, c4, c5, c6, c7, c8, c9⟩ := hc
  have hs : ∀ v : Fin 96, (rollingHead.upto 5000).stagingAccess (headTag v) = false := by decide +kernel
  have h : (rollingHead.upto 5000).capoAccess (headTag v) 1 = true := by
    unfold State.capoAccess
    rw [show (headTag v).entry = some 4 from rfl]
    dsimp only
    rw [show (4 : BitVec 17).toNat = 4 from rfl, c4]
    dsimp only
    rw [show (headTag v).addr.toNat = 5 from rfl, show (headTag v).src = 32 from rfl, show (headTag v).rt = true from rfl,
      show (headTag v).deadline = 4994 from rfl, c1, c6, c7, c8, c9, h2, h3, h4, hv]
    simp only [c5, ne_eq, not_false_eq_true, Bool.true_or]
    decide +kernel
  exact ⟨headTag v, c2, h1, hs v, List.find?_isSome.2 ⟨1, by decide, h⟩⟩

theorem witness_Retrainings :
    Meets (link (fun p => { p with prepared := [7] })) (conf.configured = true ∧ (link (fun p => { p with prepared := [7] })).prepared 7 = true) ∧
    Meets (dramTraining .retrain) ((dramTraining .retrain).dram.training ≠ .none ∧ (dramTraining .retrain).prepared 7 = false) ∧
    Meets (dramTraining .short) ((dramTraining .short).dram.training = .short) ∧
    Meets (run 3) ((run 3).dram.training = .none ∧ (run 3).allIdle = false ∧ (run 3).prepared 7 = false) ∧
    Meets conf (conf.dram.training = .none ∧ conf.allIdle = true ∧ conf.ovl.queue = []) := by decide +kernel

def pub (i : Nat) (mask : BitVec 8) (snap : Word) : PubCmd := { first := i, count := 1, mask := mask, snapshot := snap, layouts := [jumpy.layoutOf 1] }
def publishing (i : Nat) (mask : BitVec 8) (snap : Word) (s : State) : State :=
  modPlace (fun p => { p with headUnits := 4096, resUnits := 100000, capoRate := 5, queue := [pub i mask snap] }) s
/-- Entry 3 as above, or with a Hosted object. -/
def small3 : State := publishing 3 2 0 jumpy
def hosted3 : State := publishing 3 2 0 (entryAt 3 [0, 4, 2, 0, 0, 0, 0x200000, 0] jumpy)
def mayReturn : State := modPlace (fun p => { p with rolling := true, headUnits := 4096 }) conf

theorem witness_PublishingAndPlacement :
    Meets (link (fun p => { p with prepared := [6] })) ((link (fun p => { p with prepared := [6] })).prepared 6 = true) ∧
    Meets conf (conf.prepared 6 = false ∧ conf.plc.queue.length < 16 ∧ conf.plc.queue = []) ∧
    Meets (modPlace (fun p => { p with queue := List.replicate 16 (pub 3 2 0) }) jumpy) (16 ≤
      (modPlace (fun p => { p with queue := List.replicate 16 (pub 3 2 0) }) jumpy).plc.queue.length) ∧
    Meets (publishing 3 2 1 jumpy) ((publishing 3 2 1 jumpy).plc.queue = pub 3 2 1 :: [] ∧
      ¬ ((publishing 3 2 1 jumpy).host.wrDrained - 1).toNat < 2 ^ 31) ∧
    Meets (publishing 9 2 0 jumpy) ((publishing 9 2 0 jumpy).plc.queue = pub 9 2 0 :: [] ∧ (publishing 9 2 0 jumpy).plc.next = none ∧
      ((publishing 9 2 0 jumpy).host.wrDrained - 0).toNat < 2 ^ 31 ∧ (publishing 9 2 0 jumpy).publishBlocked (pub 9 2 0) 9 = false ∧
      (pub 9 2 0).count = 1 ∧ (pub 9 2 0).first < 131072 ∧ (pub 9 2 0).first = 9 ∧
      (publishing 9 2 0 jumpy).plc.jobs = [] ∧ ((publishing 9 2 0 jumpy).publishCheck (pub 9 2 0) 9).1 ≠ 0) ∧
    Meets small3 (small3.publishBlocked (pub 3 2 0) 3 = false ∧ small3.plc.jobs = [] ∧ (small3.publishCheck (pub 3 2 0) 3).1 = 0 ∧
      ((small3.publishCheck (pub 3 2 0) 3).2.flatMap (small3.stagedRanges (small3.entry 3))) ≠ []) ∧
    Meets hosted3 (hosted3.publishBlocked (pub 3 2 0) 3 = false ∧ hosted3.plc.jobs = [] ∧ (hosted3.publishCheck (pub 3 2 0) 3).1 = 0 ∧
      ((hosted3.publishCheck (pub 3 2 0) 3).2.flatMap (hosted3.stagedRanges (hosted3.entry 3))) = []) ∧
    Meets (words [(plcA 0x40, 1)] conf) ((words [(plcA 0x40, 1)] conf).effB (plcA 0x40) 0 = true) ∧
    Meets conf (conf.effB (plcA 0x40) 0 = false ∧ ∀ j ∈ conf.plc.jobs, j.waits = true → j.keep = true) ∧
    Meets mayReturn (mayReturn.plc.rolling = true ∧ mayReturn.allIdle = true ∧ mayReturn.staticNeed ≤ mayReturn.headCap ∧
      mayReturn.requiredHeads.all (fun x => mayReturn.rangesLanded x.1 x.2) = true) ∧
    Meets conf (conf.plc.rolling = false) := by decide +kernel

def tuning (p : TunePhase) (t : Fin 96) (b : Fin 256) : State := modMem (fun m => { m with tunePhase := p, tuneTile := t, tuneBlock := b }) conf
def tuneOn : State := words [(memA 0x300, 1)] conf
def cut : State := parked
def lbOn : State := words [(memA 0x400, 1)] conf
def xslot (t w : Nat) (write : Bool) : XramSlot := { tick := t, word := w, write := write, be := 15, data := 3 }
/-- An LB slot in the cycle of tick 5,001, and host slots in those of 5,004 and 5,005. -/
def lbBefore : State := modMem (fun m => { m with lbSlot := some (xslot 5001 10 true) }) lbOn
def hostBefore : State := modMem (fun m => { m with hostSlots := [xslot 5004 9 true, xslot 5005 10 false], bar2Data := [1, 2] }) lbOn

theorem witness_OnChipMemory :
    Meets tuneOn (tuneOn.tuneEn = true ∧ tuneOn.mem.tuneStopped = false ∧ tuneOn.mem.tunePhase = .idle ∧ tuneOn.mem.tuneNext ≤ tuneOn.clk.mgmtCount ∧
      tuneOn.prepared 9 = false) ∧
    Meets conf (conf.tuneEn = false) ∧
    Meets (tuning .copy 5 5) ((tuning .copy 5 5).mem.tunePhase = .copy ∧ (tuning .copy 5 5).mem.tuneDone < 64) ∧
    Meets (tuning .restore 95 255) ((tuning .restore 95 255).mem.tunePhase = .restore ∧ (tuning .restore 95 255).mem.tuneTile.val = 95 ∧
      (tuning .restore 95 255).mem.tuneBlock = 255) ∧
    Meets (tuning .test 5 5) ((tuning .test 5 5).mem.tunePhase = .test) ∧
    Meets conf (conf.hostCut = false ∧ conf.lbServed = false ∧ conf.lbClock = true ∧ conf.tbAt 5000 % 8 = 0 ∧ conf.tbAt 5001 % 8 ≠ 0 ∧
      conf.heldInReset = false ∧ [(15 : BitVec 4), 3].length ≤ 2 ^ 18 ∧ collides (some (xslot 5000 9 true)) conf.mem.lbSlot = false) ∧
    Meets lbBefore ((lbBefore.upto 5000).hostCycle 5000 = 5000 ∧ collides (some (xslot 5000 9 true)) lbBefore.mem.lbSlot = false ∧
      collides (some (xslot 5001 10 true)) lbBefore.mem.lbSlot = true) ∧
    Meets hostBefore (hostBefore.lbServed = true ∧ hostBefore.lbClock = true ∧
      hostBefore.mem.hostSlots.find? (fun h => collides (some h) (some (xslot 5004 9 false))) = some (xslot 5004 9 true)) ∧
    Meets cut (cut.hostCut = true) ∧ Meets lowReset (lowReset.heldInReset = true) := by decide +kernel

/-! #### Host -/

def withWrites (l : List HostWrite) : State := modHost (fun h => { h with writes := l }) conf
def wr (discard : Bool) : HostWrite := { addr := 70, bytes := [some 1, none, some 3], discard := discard }

theorem witness_HostAccesses :
    Meets cut (cut.hostCut = true ∧ cut.heldInReset = false) ∧
    Meets (dramTraining .retrain) ((dramTraining .retrain).hostCut = false ∧ (dramTraining .retrain).dram.ready = false ∧ (dramTraining .retrain).trainingHolds = true) ∧
    Meets conf (conf.hostCut = false ∧ conf.trainingHolds = false ∧ conf.dram.ready = true ∧ conf.host.writes = [] ∧ conf.heldInReset = false) ∧
    Meets (withWrites [wr true, wr false]) ((withWrites [wr true, wr false]).host.writes = wr true :: [wr false] ∧ (wr true).discard = true) ∧
    Meets (withWrites [wr false]) ((withWrites [wr false]).host.writes = wr false :: [] ∧ (wr false).discard = false ∧
      escapesOf (withEdc (wr false).units [.escaped]) = [64] ∧ escapesOf (withEdc (wr false).units [.ok 2]) = []) ∧
    Meets State.reset (State.reset.heldInReset = false) ∧ Meets lowReset (lowReset.heldInReset = true) ∧
    Meets (fullFor (withWrites [wr false])) ((fullFor (withWrites [wr false])).host.writes = wr false :: [] ∧
      ((fullFor (withWrites [wr false])).dram.chans[(0 : Chan)]).room false = false) ∧
    Meets conf (conf.zonesOf 70 3 = [.park] ∧ conf.zonesOf 8388678 3 = [.data]) := by decide +kernel

def ctx (f : Stream → Stream) (s : State) : State := s.modCtx 0 f
def stream (st : CtxState) : State := ctx (fun k => { k with state := st, units := [3], tail := 4 })
  (words [(ctxA 0 4, 0x40001)] (modHost (fun h => { h with poolFree := [5, 6, 7], bme := true }) conf))
def fetched (done : Nat) : State := ctx (fun k => { k with descs := [desc], pieceDone := done, objs := [(1, 1)] }) (stream .opened)
def spoilt (done : Nat) : State := ctx (fun k => { k with badDesc := 2 }) (fetched done)

theorem witness_StreamContexts :
    Meets (cmds [(ctxA 0 0, 2)] conf) (((cmds [(ctxA 0 0, 2)] conf).cmdWord (ctxA 0 0)).getLsbD 1 = true) ∧
    Meets (link (fun p => { p with prepared := [8] })) (((link (fun p => { p with prepared := [8] })).cmdWord (ctxA 0 0)).getLsbD 1 = false ∧
      (link (fun p => { p with prepared := [8] })).prepared 8 = true) ∧
    Meets conf ((conf.cmdWord (ctxA 0 0)).getLsbD 1 = false ∧ conf.prepared 8 = false ∧ conf.openCheck 0 = 4 ∧
      conf.host.ctxs[(0 : Ctx)].state = .closed ∧ conf.dmaOn = false) ∧
    Meets (stream .closed) ((stream .closed).openCheck 0 = 0 ∧ (stream .closed).host.ctxs[(0 : Ctx)].state = .closed) ∧
    Meets (stream .opened) ((stream .opened).host.ctxs[(0 : Ctx)].state = .opened ∧ (stream .opened).host.ctxs[(0 : Ctx)].objs = [] ∧
      (stream .opened).dmaOn = true ∧ (stream .opened).owned 0 = 4 ∧ (goodDescs [desc]).2 = 0 ∧
      (goodDescs [{ desc with len := 63 }]).2 ≠ 0 ∧ (goodDescs [{ desc with len := 63 }]).1 = [] ∧
      (stream .opened).host.ctxs[(0 : Ctx)].badDesc = 0 ∧ (stream .opened).host.ctxs[(0 : Ctx)].descs = []) ∧
    Meets (stream .error) ((stream .error).host.ctxs[(0 : Ctx)].state = .error) ∧
    Meets (stream .closing) ((stream .closing).host.ctxs[(0 : Ctx)].state = .closing) := by decide +kernel

/-- A CLOSE left the piece in transmission, and one committed object of two units, of which the ring holds one. -/
def leavingRing (taken : Nat) : State := ctx (fun k => { k with state := .closing, lastPiece := some desc, descs := [], taken := taken }) (fetched 0)
abbrev landsIn (s : State) (n : Nat) : Prop := s.dmaOn = true ∧ s.dram.ready = true ∧ s.host.ctxs[(0 : Ctx)].state = .closing ∧
  s.host.ctxs[(0 : Ctx)].pieceOf = some desc ∧ s.host.ctxs[(0 : Ctx)].takes (128 / 64) = n ∧ s.host.ctxs[(0 : Ctx)].fits desc 128 = true

theorem witness_LastPieces : Meets (leavingRing 2) (landsIn (leavingRing 2) 2) ∧ Meets (leavingRing 1) (landsIn (leavingRing 1) 1) ∧
    Meets (stream .opened) ((stream .opened).dmaOn = true ∧ (goodDescs (descsOf 1 descBytes)).2 = 0 ∧
      (stream .opened).effW (ctxA 0 0xC) ++ (stream .opened).effW (ctxA 0 8) = (0 : BitVec 64)) := by decide +kernel
theorem witness_StreamPieces :
    Meets (fetched 0) ((fetched 0).host.ctxs[(0 : Ctx)].objs ≠ [] ∧ (fetched 0).host.ctxs[(0 : Ctx)].descs = desc :: [] ∧
      (fetched 0).dmaOn = true ∧ (fetched 0).dram.ready = true ∧ (fetched 0).host.ctxs[(0 : Ctx)].state = .opened ∧
      (fetched 0).host.ctxs[(0 : Ctx)].pieceDone + (zeros 64).length ≠ desc.len.toNat ∧ (zeros 64).length % 64 = 0 ∧
      (fetched 0).host.ctxs[(0 : Ctx)].fill + 1 ≤ (fetched 0).host.ctxs[(0 : Ctx)].ringUnits) ∧
    Meets (fetched 64) ((fetched 64).host.ctxs[(0 : Ctx)].pieceDone + (zeros 64).length = desc.len.toNat ∧
      (fetched 64).host.ctxs[(0 : Ctx)].badDesc = 0) ∧
    Meets (spoilt 64) ((spoilt 64).host.ctxs[(0 : Ctx)].badDesc = 2 ∧ (spoilt 64).host.ctxs[(0 : Ctx)].descs = desc :: []) := by decide +kernel

/-! #### Registers, the supervisor and the service ports -/

theorem witness_RegisterAccesses :
    Meets cut ((cut.heldInReset || cut.hostCut) = true) ∧
    Meets conf ((conf.heldInReset || conf.hostCut) = false ∧ canon 0x700000 = none ∧ canon (cluA 1 8) = some (cluA 1 8) ∧
      canon (cluA 1 0x10) = some (cluA 1 0x10) ∧ canon (cluA 1 0x10 + 4) = some (cluA 1 0x14) ∧ canon (cluA 7 0x14 + 3) = some (cluA 7 0x14) ∧ canon (cluA 1 0x40) = some (cluA 1 0x40) ∧
      canon (cluA 1 0) = some (cluA 1 0) ∧ conf.clu[(1 : Clu)].state = .idle ∧ gapped 0b0111 = false) ∧
    Meets conf ((conf.upto 5001).servedNow (cluA 1 8) = true ∧ (conf.upto 5001).servedNow (cluA 1 0x10) = true ∧
      (conf.upto 5001).servedNow (cluA 1 0x14) = true ∧ (conf.upto 5001).servedNow (cluA 7 0x14) = true) ∧
    Meets (run 3) ((run 3).clu[(1 : Clu)].state ≠ .idle ∧ ((run 3).upto 5001).servedNow (cluA 1 8) = true) ∧
    Meets State.reset ((State.reset.upto 1).servedNow (cluA 1 8) = false) := by decide +kernel
/-- Group 0 has a fail-log ring of 4 records. -/
def logged : State := group (fun p => { p with flSize := 4, flWr := 2, ring := [(1, 77)] }) conf

theorem witness_FailLogReads : Meets logged (canon 0x308020 = some 0x308020 ∧ logged.failLogSlot 0x308020 = some (logged.ringSlot 0 1) ∧
      logged.slotOk 36 (logged.ringSlot 0 1) false = false ∧ logged.failLogSlot 0x308080 = none ∧ canon 0x308080 = some 0x308080) ∧
    Meets (opened 36 logged) ((opened 36 logged).slotOk 36 ((opened 36 logged).ringSlot 0 1) false = true) := by decide +kernel
theorem witness_GappedWrites : Meets conf (conf.heldInReset = false ∧ conf.hostCut = false ∧ canon 0x700000 = none ∧
    canon 0x10 = some 0x10) := by decide +kernel

def report : QueuedRec := { body := { cls := 1, cause := 0, source := 3, time := 5 }, seq := 1, reported := 4000 }
def ring (wr : Word) (at_ : Option Nat) : State := modFlt (fun f => { f with queue := [report], wr := wr, rd := 0, wroteAt := at_ }) conf
def wrapping : State := words [(fltA 0, 2)] (ring 256 none)

theorem witness_ReadCountWrites :
    Meets (ring 256 none) ((1 - (ring 256 none).flt.rd).toNat ≤ ((ring 256 none).flt.wr - (ring 256 none).flt.rd).toNat ∧
      ¬ (257 - (ring 256 none).flt.rd).toNat ≤ ((ring 256 none).flt.wr - (ring 256 none).flt.rd).toNat ∧
      (ring 256 none).flt.rdOld = none ∧ (ring 256 none).flt.queue = report :: [] ∧ (ring 256 none).clk.pll.getLsbD 0 = true ∧
      256 ≤ ((ring 256 none).flt.wr - (ring 256 none).fltRdFor).toNat ∧ (ring 256 none).fltWrap = false) ∧
    Meets (ring 5 (some 4999)) (¬ 256 ≤ ((ring 5 (some 4999)).flt.wr - (ring 5 (some 4999)).fltRdFor).toNat ∧
      (ring 5 (some 4999)).flt.wroteAt = some 4999 ∧ 4999 < (ring 5 (some 4999)).clk.now) := by decide +kernel
theorem witness_SupervisorAndWatchdog :
    Meets conf (conf.flt.queue = [] ∧ conf.watchingNow = true ∧ conf.flt.safePark = false) ∧
    Meets (ring 256 (some 5000)) ((ring 256 (some 5000)).flt.queue = report :: [] ∧ (ring 256 (some 5000)).clk.pll.getLsbD 0 = true ∧
      ((ring 256 (some 5000)).upto 5001).fltFull = true ∧ (ring 256 (some 5000)).fltWrap = false) ∧
    Meets wrapping ((wrapping.upto 5000).fltFull = true ∧ wrapping.fltWrap = true) ∧
    Meets (ring 255 none) (((ring 255 none).upto 5000).fltFull = false) ∧
    Meets parked (parked.flt.safePark = true) ∧ Meets (phase .winter) ((phase .winter).watchingNow = false) := by decide +kernel

def held4 (low : Bool) : State := link (fun p => { p with jtagHold := true, resetLow := low })
def fusing : State := { lowReset with jtag := { lowReset.jtag with fusing := some 77 } }
def keyed : State := { lowReset with part := { lowReset.part with keySet := true } }

theorem witness_TestPort :
    Meets conf (conf.pwr.jtagHold = false ∧ conf.jtag.fusing = none ∧ conf.pwr.resetLow = false) ∧
    Meets (held4 false) ((held4 false).pwr.jtagHold = true ∧ (held4 false).pwr.porHold = false ∧ (held4 false).pwr.resetLow = false ∧
      (held4 false).pwr.perstLow = false ∧ holdsCore (jtagCode 3) = true ∧ holdsCore (jtagCode 2) = false) ∧
    Meets (held4 true) ((held4 true).pwr.jtagHold = true ∧ (held4 true).pwr.resetLow = true) ∧
    Meets fusing (fusing.jtag.fusing = some 77) ∧
    Meets lowReset (lowReset.pwr.jtagHold = false ∧ lowReset.jtag.fusing = none ∧ lowReset.pwr.resetLow = true ∧
      (BitVec.ofNat 512 (2 ^ 385)).getLsbD 384 = false ∧ lowReset.part.keySet = false) ∧
    Meets keyed ((BitVec.ofNat 512 (2 ^ 384)).getLsbD 384 = true ∧ keyed.part.keySet = true) ∧
    jtagCode 0x77 = 0xFF := by decide +kernel

def alerted : State := { conf with smb := { conf.smb with status := { bits := 3, fresh := 1, tick := 5000 }, mask := 1 } }

theorem witness_SmbusPort :
    Meets conf (conf.alerting = false ∧ conf.sensorPowered 4 = true) ∧ Meets alerted (alerted.alerting = true ∧ alerted.smb.status.tick =
      alerted.clk.now) ∧ Meets (phase .winter) ((phase .winter).sensorPowered 4 = false) := by decide +kernel

/-! ### The spec's worked examples, one command or table lookup each -/

/-- The state a command gives has a property. -/
def gives (o : Host.Outcome State Fault Refusal) (p : State → Bool) : Bool := match o with | .next t => p t | _ => false

/-- The mixed cluster of 03_segments_and_sequencing: two lanes and a pin group with VEC_RATIO 4 at K = 1. -/
def mixedLayout : Layout := { wMask := 3, formats := 0, pgMask := 1, k := 1, ratio := 4 }

/-- R77: sections of 8,192 bytes at 0, 8,192 and 16,384, and a size of 24,576 bytes. -/
theorem test_object_layout : (mixedLayout.sections 64).map (fun x => (x.offset, x.size)) = [(0, 8192), (8192, 8192), (16384, 8192)] ∧
    mixedLayout.objectSize 64 = 24576 ∧ mixedLayout.lengthOk 64 = true ∧ mixedLayout.lengthOk 15 = false := by decide +kernel

/-- R142: a head of 40 granules on each lane and 10 on the pin group. -/
theorem test_head_granules : headGranules false mixedLayout = (40, 10) := by decide +kernel

/-- R331 to R333: 0x1_2345_6700 lies on G0, row 0x2468, bank 2; the next block on G15 in the same row and bank; blocks
0x7F and 0x80 on G8. -/
theorem test_dram_mapping : chanOf 0x123456700 = 0 ∧ State.reset.rowOf 0x123456700 = 0x2468 ∧ State.reset.bankOf 0x123456700 = 2 ∧
    chanOf 0x123456800 = 15 ∧ State.reset.bankOf 0x123456800 = 2 ∧ chanOf 0x7F00 = 8 ∧ chanOf 0x8000 = 8 := by decide +kernel

/-- R402: the three accesses of 16_register_model and the words they reach. -/
theorem test_mirrors : canon 0x100208 = some (cluA 0 8) ∧ canon 0x41004 = some (plcA 4) ∧ canon 0x345044 = some (pinA 5 4) := by decide +kernel

/-- R454: the record of the late fault of 18_faults_and_supervision. -/
theorem test_record_words : entWords (FaultRec.encode { cls := 1, cause := 0, cluster := some 3, source := 6, entry := 900, sample := 1024
                                                        lateness := 140, time := 50760 } 5) =
    [0x01000B06, 0x384, 0x400, 0x8C0000, 0xC648, 0, 0, 5] := by decide +kernel

/-- R343: G3 postpones the eighth refresh and forces the one that falls due at eight owed. -/
theorem test_refreshes : gives (exec (.refreshDue 3 100500 true) (chans (fun k => { k with owed := 7, rt := 1 }) conf)) (fun t => t.dram.chans[(3 : Chan)].owed = 8) = true ∧
    gives (exec (.refreshDue 3 124820 true) full4) (fun t => t.dram.chans[(3 : Chan)].owed = 8 ∧ t.flag (drmA 0x24) = 4 ∧ t.clk.now = 124820) = true := by
  decide +kernel

/-- R368: the LB read of word 0x1000 at edge 8,000 meets the host write of tick 8,004. -/
theorem test_collision : gives (exec (.lbAccess 8000 false 0x1000 15 0) (modMem (fun m => { m with
      hostSlots := [xslot 8004 0x1000 true] }) lbOn))
    (fun t => t.mem.lbRuns.any LbRun.busy && decide (t.mem.collideAddr = 0x1000 ∧ t.counter (memA 0x404) = 1)) = true := by decide +kernel

/-- R263: the strobe of 200,003 captures at 200,011 and loads at 200,080. -/
theorem test_capture : gives (exec (.loadCapture 1) (words [(lvlA 9 4, 692060)] (conf.modLg 1 (fun _ => { strobes := [200003] }))))
    (fun t => decide (t.clk.now = 200011 ∧ t.lg[(1 : Lg)].captured.map Captured.loadAt = [200080]) &&
      t.lg[(1 : Lg)].captured.all (fun x => decide (x.codes[1]? = some 0xA8F5C))) = true := by decide +kernel
/-- R265, R270: the load makes the code active, and the connection waits 32,000 ticks more, to 232,080. -/
theorem test_load : gives (exec (.loadInstant 1) ((conf.modLvl 9 (fun l => { l with state := .settling })).modLg 1 (fun _ => { captured := [{
      capAt := 200011, loadAt := 200080, codes := [0, 0xA8F5C, 0, 0, 0, 0, 0, 0] }] })))
    (fun t => t.lvl[(9 : Lvl)].active = 0xA8F5C ∧ t.lvl[(9 : Lvl)].due = 232080) = true := by decide +kernel

/-- R294, R295: a START at 5,042 re-arms timer 0 with PERIOD 40, and the expiry at 5,081 is dropped. -/
theorem test_timer : gives (exec (.timerStart 0) (words [(brgA 0x2804, 40), (brgA 0x2808, 2)] (modClk (fun c => { c with now := 5042 })
      (timed { armed := true, period := 40, left := 1, due := 5081 }))))
    (fun t => t.brg.timers[(0 : Fin 8)] = { armed := true, period := 40, left := 2, due := 5082 }) = true := by decide +kernel

/-- R442: after the thaw the first EPOCH moves the time base from 8,200,190,000 to 8,200,320,000. -/
theorem test_reanchor : gives (exec (.epoch (.pulse 4970 5500) 0) (words [(lnkA 8, 10000)] (modClk (fun c => { c with ofs := 8200184992, timeCoarse := true }) conf)))
    (fun t => t.tb = 8200320000 ∧ t.clk.epochCount = 51252 ∧ t.clk.timeCoarse = false) = true := by decide +kernel

/-- A plan entry to 1.2 GHz with word 4 as given, at the start of the segment at tick 4,001. -/
def hop (word4 : Nat) : State := lane (fun l => { l with
  nco := { running := true, freq := 10 * 2 ^ 40, acc := 160 * 2 ^ 40, m := 64016 }
  acts := [{ due := 4001 * 1024, rank := 1, plan := none, words := some (BitVec.ofNat 256 (0xC00 * 2 ^ 32 + word4 * 2 ^ 128)) }] })
  (modClk (fun c => { c with now := 4000 }) conf)

/-- R182: CONTINUOUS keeps the accumulator, RESET clears it, COHERENT gives 12 × 64,016 mod 256 units of 2^40. -/
theorem test_hop : gives (exec (.ncoAction 0) (hop 0x80000000)) (fun t => t.wl[(0 : Lane)].nco.freq = 12 * 2 ^ 40 ∧ t.wl[(0 : Lane)].nco.acc = 160 * 2 ^ 40) = true ∧
    gives (exec (.ncoAction 0) (hop 0x88000000)) (fun t => t.wl[(0 : Lane)].nco.acc = 0) = true := by decide +kernel
theorem test_hop_coherent : gives (exec (.ncoAction 0) (hop 0x90000000)) (fun t => t.wl[(0 : Lane)].nco.acc = 192 * 2 ^ 40) = true := by decide +kernel

/-- R203, R204: the lane admitted at 0.64 µs (tick 1,024) ends its probe at 8.64 µs, and the next one waits 4 µs. -/
theorem test_governor : gives (exec .govAdmit { modClk (fun c => { c with now := 1024 }) (lane (fun l => { l with state := .queued }) conf) with
      gov := { queue := [{ kind := .arm, lane := 0, takenAt := 1024 }], lastAdmit := none } })
    (fun t => t.wl[(0 : Lane)].state = .arming ∧ t.wl[(0 : Lane)].due = 13824 ∧ t.gov.lastAdmit = some 1024) = true := by decide +kernel

/-- R315: the third missing check, for the slot at 3,248,000, declares the origin lost at 3,249,600. -/
theorem test_lost : gives (exec (.slotCheck ⟨true, 0x42⟩) (hearing (originOf2 3 3249600 3200000 2))) (fun t => decide (t.clk.now = 3249600) &&
    (t.link.origins.all fun o => o.lost)) = true := by decide +kernel
/-- R314: the change announced at 3,264,160 takes effect at EPOCH 21. -/
theorem test_pend_epoch : pendEpochFor 3264160 160000 1 = 21 := by decide

/-- R492: a reading above TEMP_LIMIT sets OVER_TEMP, one that equals it does not. -/
theorem test_over_temp : gives (exec (.tempConversion 4 0x2000) { conf with smb := { conf.smb with limit := 0x1FFF } })
    (fun t => t.smb.status.bits = 1) = true ∧
    gives (exec (.tempConversion 4 0x1FFF) { conf with smb := { conf.smb with limit := 0x1FFF } }) (fun t => t.smb.status.bits = 0) = true := by decide +kernel

/-- The front command is taken from the queue. -/
theorem test_step_takes_front : gives (step waiting) (fun t => t.pending = [.warmReset]) = true := by decide +kernel

/-- R305: the CRC of the ASCII string 123456789 is 0x29B1. -/
theorem test_cell_crc : crc16 [0x31, 0x32, 0x33, 0x34, 0x35, 0x36, 0x37, 0x38, 0x39] = 0x29B1 := by decide +kernel

/-- R192: F of 1.0 GHz is 80 × 2^37 and tracks to index 80, of 1.2 GHz to 96. -/
theorem test_tracked : trackedOf (80 * 2 ^ 37) = 80 ∧ trackedOf (96 * 2 ^ 37) = 96 := by decide

/-- R36: SHA-384 of the ASCII string abc, the example of FIPS 180-4 (PRESUMED, log 8). -/
theorem test_sha384 : sha384 [0x61, 0x62, 0x63] =
    0xcb00753f45a35e8bb5a03d699ac65007272c32ab0eded1631a8b605a43ff5bed8086072ba1e7cc2358baeca134c825a7 := by decide +kernel

end Sys2Proof.Tests
end

