-- ==== Sys2Proof/Proofs/CancelledJumps.lean ====
section
/-! PROOF. Cancelled jumps and the requests that a cluster out of RUN discards (R111, R121, R122). -/
namespace Sys2Proof.Machine

/-! ### One counter counts once and one W1C bit is set -/

/-- A cluster's words lie above HOST_INT_PEND, so that a cause they raise leaves them alone. -/
theorem cluA_not_mem_pendWords (n : Clu) (off : Nat) : cluA n off ∉ pendWords := by
  simp only [cluA, pendWords, hostA, List.mem_cons, List.not_mem_nil, or_false]
  omega

theorem counter_countSetBit_self (s : State) (a b i : Nat) :
    ((s.count a 1).setBit b i).counter a = min (s.counter a + 1) top32 :=
  (counter_of_ctr_eq (State.setBit_ctr _ b i) a).trans (counter_count_self s a 1 Nat.one_pos)

theorem countSetBit_ctrsBut (s : State) (a b i : Nat) : CtrsBut [a] s ((s.count a 1).setBit b i) := fun x hx =>
  (counter_of_ctr_eq (State.setBit_ctr _ b i) x).trans (counter_count_other s a 1 x (List.ne_of_not_mem_cons hx))

theorem flag_countSetBit_self (s : State) (a i : Nat) {b : Nat} (hb : b ∉ pendWords) :
    ((s.count a 1).setBit b i).flag b = s.flag b ||| bit32 i :=
  (flag_setFlag_self _ b (bit32 i) hb).trans (by rw [flag_of_flg_eq (State.count_flg s a 1)])

theorem countSetBit_flagsBut (s : State) (a b i : Nat) : FlagsBut [b] s ((s.count a 1).setBit b i) := fun x hx hp =>
  (flag_setFlag_other _ b (bit32 i) x (List.ne_of_not_mem_cons hx) hp).trans (flag_of_flg_eq (State.count_flg s a 1) x)

/-! ### Cancelling a jump (R122) -/

/-- Dropping a jump is: the cluster forgets it, which counts and flags nothing, and then JMP_CANCEL counts and CANCELLED is set. -/
theorem State.dropJump_eq (s : State) (n : Clu) : ∃ u : State, u.flg = s.flg ∧ u.ctr = s.ctr ∧
    s.dropJump n = (u.count (cluA n 0x12C) 1).setBit (cluA n 0x118) 8 := by
  refine ⟨_, ?_, ?_, rfl⟩
  · exact s.markNeeded_within n .flg (by decide)
  · exact s.markNeeded_within n .ctr (by decide)

theorem State.dropJump_sched (s : State) (n : Clu) : (s.dropJump n).clu[n].sched = none := by
  rw [(s.dropJump_clu n).1]

theorem State.dropJump_counter (s : State) (n : Clu) :
    (s.dropJump n).counter (cluA n 0x12C) = min (s.counter (cluA n 0x12C) + 1) top32 := by
  obtain ⟨u, -, hctr, hdrop⟩ := s.dropJump_eq n
  rw [hdrop, counter_countSetBit_self, counter_of_ctr_eq hctr]

theorem State.dropJump_flag (s : State) (n : Clu) :
    (s.dropJump n).flag (cluA n 0x118) = s.flag (cluA n 0x118) ||| bit32 8 := by
  obtain ⟨u, hflg, -, hdrop⟩ := s.dropJump_eq n
  rw [hdrop, flag_countSetBit_self _ _ _ (cluA_not_mem_pendWords n _), flag_of_flg_eq hflg]

theorem State.dropJump_ctrsBut (s : State) (n : Clu) : CtrsBut [cluA n 0x12C] s (s.dropJump n) := by
  obtain ⟨u, -, hctr, hdrop⟩ := s.dropJump_eq n
  rw [hdrop]
  exact fun a ha => (countSetBit_ctrsBut u _ _ _ a ha).trans (counter_of_ctr_eq hctr a)

theorem State.dropJump_flagsBut (s : State) (n : Clu) : FlagsBut [cluA n 0x118] s (s.dropJump n) := by
  obtain ⟨u, hflg, -, hdrop⟩ := s.dropJump_eq n
  rw [hdrop]
  exact fun a ha hp => (countSetBit_flagsBut u _ _ _ a ha hp).trans (flag_of_flg_eq hflg a)

/-- A cancellation cancels nothing, or drops the scheduled jump. -/
theorem State.cancelJump_cases (s : State) (n : Clu) (soft : Bool) : s.cancelJump n soft = s ∨ s.cancelJump n soft = s.dropJump n := by
  unfold State.cancelJump
  split
  · exact .inl rfl
  · exact ite_eq_or_eq _ _ _

/-- A cancellation that nothing outlives leaves no jump scheduled (R121). -/
theorem State.cancelJump_false_sched (s : State) (n : Clu) : (s.cancelJump n false).clu[n].sched = none := by
  obtain ⟨l, f, hclu, -⟩ := s.cancelJump_clu n
  rw [hclu]

/-! ### A request that finds its cluster out of RUN (R111) -/

theorem State.discard_counter (s : State) (n : Clu) (code : Nat) :
    (s.discard n code).counter (cluA n 0x128) = min (s.counter (cluA n 0x128) + 1) top32 := counter_countSetBit_self s _ _ _

theorem State.discard_flag (s : State) (n : Clu) (code : Nat) :
    (s.discard n code).flag (cluA n 0x118) = s.flag (cluA n 0x118) ||| bit32 code :=
  flag_countSetBit_self s _ _ (cluA_not_mem_pendWords n _)

theorem State.discard_clu (s : State) (n : Clu) (code : Nat) : (s.discard n code).clu = s.clu :=
  (s.discard_within n code).cluEq (by decide)

/-- The state at T + 3 of a request, which is on its way no more, nor is any other of its input and timestamp (R111, R128). -/
def State.latchRequest (s : State) (n : Clu) (c : Fin 16) (r : Req) : State :=
  (s.upto (r.ts + 3)).modClu n (fun k => { k with arriving := k.arriving.filter (fun x => !decide (x.cond = c ∧ x.ts = r.ts)) })

theorem State.latchRequest_clu (s : State) (n : Clu) (c : Fin 16) (r : Req) :
    (s.latchRequest n c r).clu[n] =
      { s.clu[n] with arriving := s.clu[n].arriving.filter (fun x => !decide (x.cond = c ∧ x.ts = r.ts)) } :=
  State.modClu_self _ _ _

theorem exec_conditionRequest (s : State) (n : Clu) (c : Fin 16) : exec (.conditionRequest n c) s = execConditionRequest n c s := rfl

theorem exec_conditionRequest_of_none {s : State} {n : Clu} {c : Fin 16} (hu : s.undef = false)
    (hreq : firstReq c s.clu[n].arriving = none) : exec (.conditionRequest n c) s = .next s := by
  rw [exec_conditionRequest, execConditionRequest, guarded_next hu, hreq]

/-- A cluster that is not in RUN discards the request with NOT_RUN. -/
theorem exec_conditionRequest_of_not_run {s : State} {n : Clu} {c : Fin 16} {r : Req} (hu : s.undef = false)
    (hreq : firstReq c s.clu[n].arriving = some r) (hrun : s.clu[n].state ≠ .run) :
    exec (.conditionRequest n c) s = .next ((s.latchRequest n c r).discard n 1) := by
  have hlatched : (s.latchRequest n c r).clu[n].state ≠ .run := by rwa [State.latchRequest_clu]
  rw [exec_conditionRequest, execConditionRequest, guarded_next hu, hreq]
  exact congrArg _ (if_pos hlatched)

/-- A cluster out of RUN takes no request: what is pending and scheduled stays, and a request that arrives is counted and flagged NOT_RUN. -/
theorem conditionRequest_not_run {s : State} {n : Clu} (c : Fin 16) (hu : s.undef = false) (hrun : s.clu[n].state ≠ .run) :
    Gives (.conditionRequest n c) s (fun t => t.clu[n].pend = s.clu[n].pend ∧ t.clu[n].sched = s.clu[n].sched ∧
      ((firstReq c s.clu[n].arriving).isSome = true → t.flag (cluA n 0x118) = s.flag (cluA n 0x118) ||| bit32 1 ∧
        t.counter (cluA n 0x128) = min (s.counter (cluA n 0x128) + 1) top32)) := by
  cases hreq : firstReq c s.clu[n].arriving with
  | none => exact ⟨s, exec_conditionRequest_of_none hu hreq, rfl, rfl, fun h => nomatch h⟩
  | some r =>
    refine ⟨_, exec_conditionRequest_of_not_run hu hreq hrun, ?_, ?_, fun _ => ⟨State.discard_flag _ n 1, State.discard_counter _ n 1⟩⟩
    all_goals rw [State.discard_clu, State.latchRequest_clu]

/-- Settles O30: a cancellation does nothing or drops the jump, and STOPPING is out of RUN. -/
theorem cancelledJumps : Obligations.CancelledJumps := by
  intro s n soft
  refine ⟨?_, ?_, fun c hu hstop => conditionRequest_not_run c hu (by rw [hstop]; decide)⟩
  · have hwithin := s.cancelJump_within n soft
    rcases s.cancelJump_cases n soft with hsame | hdrop
    · exact .inl hsame
    · rw [hdrop] at hwithin ⊢
      exact .inr ⟨s.dropJump_sched n, s.dropJump_counter n, s.dropJump_flag n, s.dropJump_ctrsBut n, s.dropJump_flagsBut n,
        (s.dropJump_clu n).but, hwithin⟩
  · rintro - rfl
    exact s.cancelJump_false_sched n

end Sys2Proof.Machine
end

