-- ==== Sys2Proof/Proofs/GappedWrites.lean ====
section
/-! PROOF. A read of a mapped word may flag more than its violation: the fault record of a blocked read of the fail log is lost where it finds
the supervisor's queue full, and FLT_EVT.LOST is set (R362, R456). -/
namespace Sys2Proof.Machine

theorem exec_registerWrite (at_ : Nat) (addr : BitVec 24) (op : Bar0Op) (s : State) :
    exec (.registerWrite at_ addr op) s = execRegisterWrite at_ addr op s := rfl

theorem State.bar0Answer_flag (s : State) (w : Word) (a : Nat) : (s.bar0Answer w).flag a = s.flag a := rfl

/-- Where the host can reach the device, a read of a mapped word returns it, after what the read of a fail log makes happen. -/
theorem exec_registerWrite_read {s : State} (at_ : Nat) {addr : BitVec 24} {a : Nat} (hu : s.undef = false)
    (hheld : s.heldInReset = false) (hcut : s.hostCut = false) (ha : canon addr.toNat = some a) :
    exec (.registerWrite at_ addr .read) s =
      .next (((s.upto at_).failLogSeen a).bar0Answer ((s.upto at_).readWord a)) := by
  have hreach : ((s.upto at_).heldInReset || (s.upto at_).hostCut) = false := Bool.or_eq_false_iff.mpr ⟨hheld, hcut⟩
  rw [exec_registerWrite, execRegisterWrite, guarded_next hu]
  simp only [hreach, Bool.false_eq_true, if_false, State.bar0Read, ha]

/-! ### A read whose record is lost -/

/-- The record of a read in tick 5,000 that was blocked for a master (R362, R454). -/
def blockedReport (m : Nat) : QueuedRec :=
  { body := { cls := 6, cause := 1, source := BitVec.ofNat 8 m, time := 5000 }, seq := BitVec.ofNat 32 m, reported := 5000 }

/-- A configured device at tick 5,000 whose pin groups log four records each, in slots that no region opens to the host, while the records of masters
0 to 31, blocked in this tick, fill the supervisor's queue. -/
def queueFull : State :=
  { State.reset with
    clk := { ({} : Clock) with now := 5000, pll := 0xFF }
    img := { ({} : Image) with state := .configured }
    pg := Vector.replicate 4 { ({} : PinGroup) with flSize := 4 }
    flt := { ({} : Supervisor) with queue := (List.range 32).map blockedReport, seq := 32 } }

/-- The canonical address of word 0 of record 1 in group 0's fail log (R232). -/
def logWord : Nat := pgA 0 0x8020

/-- In the state above the read of the fail log is master 36's violation, and its record finds the queue full. -/
theorem queueFull_read_sets_lost :
    queueFull.flag (fltA 4) = 0 ∧ ((queueFull.upto 5000).failLogSeen logWord).flag (fltA 4) = bit32 1 := by decide +kernel

/-- Refutes O56 in its clause on reads: in `queueFull` the read of a mapped word of the fail log sets FLT_EVT.LOST, where the clause lets flags
of MEM_VIOL alone change. -/
theorem not_gappedWrites : ¬ Obligations.GappedWrites := by
  unfold Obligations.GappedWrites
  intro h
  have hmapped : canon (0x308020 : BitVec 24).toNat = some logWord := by decide
  obtain ⟨t, hexec, -, hflags, -⟩ := (h queueFull 5000 0x308020 0 rfl rfl rfl).2 logWord hmapped
  rw [exec_registerWrite_read 5000 rfl rfl rfl hmapped] at hexec
  cases hexec
  have hkept := hflags (fltA 4) (by decide) (by decide)
  obtain ⟨hbefore, hafter⟩ := queueFull_read_sets_lost
  rw [State.bar0Answer_flag, hbefore, hafter] at hkept
  exact absurd hkept (by decide)

end Sys2Proof.Machine
end

