-- ==== Sys2Proof/Proofs/ReadCountWrites.lean ====
section
/-! PROOF. Writes of FLT_RD_COUNT, and the ring write that follows one in its tick (R455, R456, R463). -/
namespace Sys2Proof.Machine

/-! ### FLT_EVT -/

theorem fltEvt_not_mem_pendWords : fltA 4 ∉ pendWords := by decide

theorem State.setFltEvt_flag (s : State) (i : Nat) : (s.setBit (fltA 4) i).flag (fltA 4) = s.flag (fltA 4) ||| bit32 i :=
  flag_setFlag_self s (fltA 4) (bit32 i) fltEvt_not_mem_pendWords

theorem State.setFltEvt_bit (s : State) {i : Nat} (hi : (bit32 i).getLsbD i = true) :
    ((s.setBit (fltA 4) i).flag (fltA 4)).getLsbD i = true := by
  rw [State.setFltEvt_flag, BitVec.getLsbD_or, hi, Bool.or_true]

theorem State.setBit_flagsBut (s : State) (a i : Nat) : FlagsBut [a] s (s.setBit a i) := fun b hb hp =>
  flag_setFlag_other s a (bit32 i) b (List.ne_of_not_mem_cons hb) hp

/-! ### A ring write (R455, R456) -/

theorem State.upto_of_le {s : State} {k : Nat} (h : k ≤ s.clk.now) : s.upto k = s := by
  unfold State.upto
  rw [Nat.max_eq_left h]

theorem State.loseRec_flt (s : State) (r : FaultRec) : (s.loseRec r).flt = s.flt :=
  s.loseRec_within r .flt (by decide)

/-- The head of the supervisor's queue is taken in the present tick. -/
def State.takeHead (s : State) (rest : List QueuedRec) : State :=
  s.modFlt (fun f => { f with queue := rest, wroteAt := some s.clk.now })

/-- A record goes into the slot that FLT_WR_COUNT gives. -/
def State.storeRecord (s : State) (q : QueuedRec) : State :=
  s.modFlt (fun f => { f with ring := smPut (fun _ => 0) f.ring (f.wr.toNat % 256) (q.body.encode q.seq), wr := f.wr + 1 })

theorem State.writeRecord_of_cons {s : State} {q : QueuedRec} {rest : List QueuedRec} (hq : s.flt.queue = q :: rest) :
    s.writeRecord =
      if s.fltFull && !s.fltWrap then (s.takeHead rest).loseRec q.body
      else
        ((((s.takeHead rest).storeRecord q).count (classCountA q.body) 1).setBitIf s.fltFull (fltA 4) 2).setBit (fltA 4) 0 := by
  unfold State.writeRecord
  rw [hq]
  rfl

/-- A full ring without WRAP loses the record: FLT_WR_COUNT and the ring stay, and LOST is set. -/
theorem State.writeRecord_lost {s : State} {q : QueuedRec} {rest : List QueuedRec} (hq : s.flt.queue = q :: rest)
    (hfull : s.fltFull = true) (hwrap : s.fltWrap = false) :
    s.writeRecord.flt = (s.takeHead rest).flt ∧ (s.writeRecord.flag (fltA 4)).getLsbD 1 = true := by
  rw [State.writeRecord_of_cons hq, if_pos (by rw [hfull, hwrap]; rfl)]
  exact ⟨State.loseRec_flt _ _, State.setFltEvt_bit _ (by decide)⟩

/-- A ring that is not full takes the record: FLT_WR_COUNT rises, and NEW is set. -/
theorem State.writeRecord_stored {s : State} {q : QueuedRec} {rest : List QueuedRec} (hq : s.flt.queue = q :: rest)
    (hfull : s.fltFull = false) :
    s.writeRecord.flt.wr = s.flt.wr + 1 ∧ s.writeRecord.flt.queue = rest ∧ (s.writeRecord.flag (fltA 4)).getLsbD 0 = true := by
  rw [State.writeRecord_of_cons hq, if_neg (by simp [hfull])]
  refine ⟨?_, ?_, State.setFltEvt_bit _ (by decide)⟩
  all_goals
    rw [State.setBit_flt, State.setBitIf_flt, State.count_flt]
    rfl

theorem exec_faultRecordWrite (s : State) : exec .faultRecordWrite s = execFaultRecordWrite s := rfl

/-- With CK_CORE running and no record written in the present tick, the supervisor takes its record at once. -/
theorem exec_faultRecordWrite_now {s : State} (hu : s.undef = false) (hq : s.flt.queue ≠ []) (hpll : s.clk.pll.getLsbD 0 = true)
    (hfree : ∀ k, s.flt.wroteAt = some k → k < s.clk.now) : exec .faultRecordWrite s = .next s.writeRecord := by
  have hacts : ¬ (s.flt.queue = [] ∨ (!s.clk.pll.getLsbD 0) = true) := by simp [hq, hpll]
  rw [exec_faultRecordWrite, execFaultRecordWrite, guarded_next hu, if_neg hacts]
  refine congrArg (fun u : State => Host.Outcome.next u.writeRecord) (State.upto_of_le ?_)
  cases hwrote : s.flt.wroteAt with
  | none => exact Nat.zero_le _
  | some k => exact hfree k hwrote

/-! ### A write of FLT_RD_COUNT (R463) -/

/-- A write of FLT_RD_COUNT in range: the count that judges the ring writes of its tick stays on record. -/
def State.putRdCount (s : State) (v : Word) : State := s.modFlt (fun f => { f with rd := v, rdOld := some (s.clk.now, s.fltRdFor) })

theorem State.putRdCount_within (s : State) (v : Word) : Within [.flt] s (s.putRdCount v) := s.modFlt_within _

/-- In the tick of the write the old count judges. -/
theorem State.putRdCount_fltRdFor (s : State) (v : Word) : (s.putRdCount v).fltRdFor = s.fltRdFor := if_pos rfl

theorem State.putRdCount_fltFull (s : State) (v : Word) : (s.putRdCount v).fltFull = decide (s.flt.wr - s.fltRdFor = 256) := by
  unfold State.fltFull
  rw [State.putRdCount_fltRdFor]
  rfl

/-- From the next tick on the new count judges. -/
theorem State.putRdCount_upto_fltRdFor (s : State) (v : Word) {k : Nat} (hk : s.clk.now < k) :
    ((s.putRdCount v).upto k).fltRdFor = v :=
  if_neg (show s.clk.now ≠ max s.clk.now k by omega)

theorem State.fltRdFor_of_rdOld_none {s : State} (h : s.flt.rdOld = none) : s.fltRdFor = s.flt.rd := by
  unfold State.fltRdFor
  rw [h]

theorem State.fltRdWrite_of_outside {s : State} {v : Word} (h : ¬ (v - s.flt.rd).toNat ≤ (s.flt.wr - s.flt.rd).toNat) :
    s.fltRdWrite v = s.setBit (fltA 4) 3 := if_pos (Nat.lt_of_not_le h)

theorem State.fltRdWrite_of_inRange {s : State} {v : Word} (h : (v - s.flt.rd).toNat ≤ (s.flt.wr - s.flt.rd).toNat) :
    s.fltRdWrite v = s.putRdCount v := by
  unfold State.fltRdWrite State.putRdCount State.fltRdFor
  rw [if_neg (Nat.not_lt.mpr h)]
  cases hold : s.flt.rdOld with
  | none => rfl
  | some x =>
    by_cases hnow : x.1 = s.clk.now
    · simp only [hnow, if_true]
      rw [← hnow]
    · simp only [hnow, if_false]

theorem exec_fltRdCountWrite {s : State} (hu : s.undef = false) (v : Word) :
    exec (.fltRdCountWrite v) s = .next (s.fltRdWrite v) :=
  guarded_next hu fun u => u.fltRdWrite v

/-- Settles O57: a write in range keeps for its tick the count that judged before it, and a ring write asks only that count. -/
theorem readCountWrites : Obligations.ReadCountWrites := by
  intro s v hu
  refine ⟨fun houtside => ?_, fun hrange => ?_⟩
  · refine ⟨_, exec_fltRdCountWrite hu v, ?_⟩
    rw [State.fltRdWrite_of_outside houtside]
    exact ⟨State.setBit_flt _ _ _, s.setFltEvt_flag 3, s.setBit_flagsBut _ _, s.setBit_within _ _⟩
  · refine ⟨_, exec_fltRdCountWrite hu v, ?_⟩
    rw [State.fltRdWrite_of_inRange hrange]
    refine ⟨rfl, rfl, rfl, rfl, s.putRdCount_fltRdFor v, fun hnone => ?_, fun k hk => s.putRdCount_upto_fltRdFor v hk,
      s.putRdCount_within v, fun q rest hq hpll hfree => ?_⟩
    · rw [State.putRdCount_fltRdFor, State.fltRdFor_of_rdOld_none hnone]
    · have hqueue : (s.putRdCount v).flt.queue = q :: rest := hq
      have hexec : exec .faultRecordWrite (s.putRdCount v) = .next (s.putRdCount v).writeRecord :=
        exec_faultRecordWrite_now hu (hqueue ▸ List.cons_ne_nil q rest) hpll hfree
      refine ⟨fun hfull hwrap => ⟨_, hexec, ?_⟩, fun hroom => ⟨_, hexec, ?_⟩⟩
      · obtain ⟨hflt, hlost⟩ := State.writeRecord_lost hqueue ((s.putRdCount_fltFull v).trans (decide_eq_true hfull)) hwrap
        rw [hflt]
        exact ⟨rfl, rfl, rfl, hlost⟩
      · exact State.writeRecord_stored hqueue ((s.putRdCount_fltFull v).trans (decide_eq_false hroom))

end Sys2Proof.Machine
end

