-- ==== Sys2Proof/Proofs/EveryCommand.lean ====
section
/-! PROOF. What holds of every command and every step: which parts of the state none of them touches, which invariants all of them keep
(R37, R414, R490, R494), when one of them faults (R471), and the state after reset. -/
namespace Sys2Proof.Machine

/-! ### The frame of a command -/

/-- The parts that no command may spoil: the queue, the fuses and the canonical forms. -/
def Field.kept : Field → Bool
  | .pending | .chip | .memForm | .regForm => true
  | _ => false

theorem Within.kept {l : List Field} {s t : State} (h : Within l s t) (hl : l.all (fun f => !f.kept) = true) :
    ∀ f : Field, f.kept = true → Agree f s t := fun f hf =>
  h f fun hm => by simpa [hf] using List.all_eq_true.mp hl f hm

/-- One case for each command: its own frame names none of these parts. -/
theorem exec_agree_kept {c : Instr} {s t : State} (h : exec c s = .next t) : ∀ f : Field, f.kept = true → Agree f s t := by
  cases c with
  | powerOn bootSel => exact (execPowerOn_within bootSel s h).kept rfl
  | resetNAssert t => exact (execResetNAssert_within t s h).kept rfl
  | resetNRelease t bootSel => exact (execResetNRelease_within t bootSel s h).kept rfl
  | perstNAssert t cause => exact (execPerstNAssert_within t cause s h).kept rfl
  | perstNRelease t bootSel => exact (execPerstNRelease_within t bootSel s h).kept rfl
  | warmReset => exact (execWarmReset_within s h).kept rfl
  | warmResetRelease => exact (execWarmResetRelease_within s h).kept rfl
  | clusterReset n => exact (execClusterReset_within n s h).kept rfl
  | clusterResetPark n => exact (execClusterResetPark_within n s h).kept rfl
  | linkReset => exact (execLinkReset_within s h).kept rfl
  | managementTick pch pcl => exact (execManagementTick_within pch pcl s h).kept rfl
  | epoch t slips => exact (execEpoch_within t slips s h).kept rfl
  | epochLate => exact (execEpochLate_within s h).kept rfl
  | pllUnlock t pll => exact (execPllUnlock_within t pll s h).kept rfl
  | pllRelock t pll => exact (execPllRelock_within t pll s h).kept rfl
  | aonPeriodUpdate ticks => exact (execAonPeriodUpdate_within ticks s h).kept rfl
  | powerGo => exact (execPowerGo_within s h).kept rfl
  | powerBlockAnswer t block => exact (execPowerBlockAnswer_within t block s h).kept rfl
  | quietResumeDone => exact (execQuietResumeDone_within s h).kept rfl
  | winterSaveDone => exact (execWinterSaveDone_within s h).kept rfl
  | winterCommitCycle => exact (execWinterCommitCycle_within s h).kept rfl
  | wakeNEdge t staysLow => exact (execWakeNEdge_within t staysLow s h).kept rfl
  | wakeTimerExpiry => exact (execWakeTimerExpiry_within s h).kept rfl
  | thawPhaseDone crcOk aonCycles bootSel => exact (execThawPhaseDone_within crcOk aonCycles bootSel s h).kept rfl
  | imgLoad => exact (execImgLoad_within s h).kept rfl
  | imgFetchDone ok bytes => exact (execImgFetchDone_within ok bytes s h).kept rfl
  | imgCheckDone => exact (execImgCheckDone_within s h).kept rfl
  | dramTrainDone failed => exact (execDramTrainDone_within failed s h).kept rfl
  | imgApplyDone => exact (execImgApplyDone_within s h).kept rfl
  | ovlValidate => exact (execOvlValidate_within s h).kept rfl
  | ovlValidateDone => exact (execOvlValidateDone_within s h).kept rfl
  | ovlApply => exact (execOvlApply_within s h).kept rfl
  | ovlCancel => exact (execOvlCancel_within s h).kept rfl
  | ovlRelease => exact (execOvlRelease_within s h).kept rfl
  | ovlQuietPoint => exact (execOvlQuietPoint_within s h).kept rfl
  | ovlApplyDone => exact (execOvlApplyDone_within s h).kept rfl
  | cluStart n => exact (execCluStart_within n s h).kept rfl
  | cluStop n => exact (execCluStop_within n s h).kept rfl
  | cluAbort n => exact (execCluAbort_within n s h).kept rfl
  | cluCntClr n => exact (execCluCntClr_within n s h).kept rfl
  | clusterStartRelease n => exact (execClusterStartRelease_within n s h).kept rfl
  | firstSegmentStart n => exact (execFirstSegmentStart_within n s h).kept rfl
  | finalFret n => exact (execFinalFret_within n s h).kept rfl
  | triggerPulseEnd line => exact (execTriggerPulseEnd_within line s h).kept rfl
  | matchCut n => exact (execMatchCut_within n s h).kept rfl
  | abortPark n => exact (execAbortPark_within n s h).kept rfl
  | markerFire n slot => exact (execMarkerFire_within n slot s h).kept rfl
  | conditionRequest n c => exact (execConditionRequest_within n c s h).kept rfl
  | jumpDecision n => exact (execJumpDecision_within n s h).kept rfl
  | jumpTargetRead n => exact (execJumpTargetRead_within n s h).kept rfl
  | jumpRefusalCheck n => exact (execJumpRefusalCheck_within n s h).kept rfl
  | jumpSwitch n => exact (execJumpSwitch_within n s h).kept rfl
  | jmpFire n => exact (execJmpFire_within n s h).kept rfl
  | jmpCntClr n => exact (execJmpCntClr_within n s h).kept rfl
  | lateCheck n reader sample => exact (execLateCheck_within n reader sample s h).kept rfl
  | latePark n => exact (execLatePark_within n s h).kept rfl
  | lateSaturate n => exact (execLateSaturate_within n s h).kept rfl
  | skipResume n => exact (execSkipResume_within n s h).kept rfl
  | lateCntClr n => exact (execLateCntClr_within n s h).kept rfl
  | ncoLoad w => exact (execNcoLoad_within w s h).kept rfl
  | ncoPlanRead w => exact (execNcoPlanRead_within w s h).kept rfl
  | ncoAction w => exact (execNcoAction_within w s h).kept rfl
  | qbGlideEnd w => exact (execQbGlideEnd_within w s h).kept rfl
  | wlnCntClr w => exact (execWlnCntClr_within w s h).kept rfl
  | laneArm w => exact (execLaneArm_within w s h).kept rfl
  | laneDisarm w => exact (execLaneDisarm_within w s h).kept rfl
  | laneCal w => exact (execLaneCal_within w s h).kept rfl
  | govAdmit => exact (execGovAdmit_within s h).kept rfl
  | armProbeEnd w probeFails => exact (execArmProbeEnd_within w probeFails s h).kept rfl
  | spanChangeStart w => exact (execSpanChangeStart_within w s h).kept rfl
  | spanChangeEnd w probeFails => exact (execSpanChangeEnd_within w probeFails s h).kept rfl
  | calDone w ofs gain => exact (execCalDone_within w ofs gain s h).kept rfl
  | wComplianceFlag w side t => exact (execWComplianceFlag_within w side t s h).kept rfl
  | wOpenLoadFlag w t => exact (execWOpenLoadFlag_within w t s h).kept rfl
  | compCntClr w => exact (execCompCntClr_within w s h).kept rfl
  | ffArm g => exact (execFfArm_within g s h).kept rfl
  | pgCntClr g => exact (execPgCntClr_within g s h).kept rfl
  | pinCntClr p => exact (execPinCntClr_within p s h).kept rfl
  | flRdCountWrite g v => exact (execFlRdCountWrite_within g v s h).kept rfl
  | failRecordWrite g => exact (execFailRecordWrite_within g s h).kept rfl
  | tcal g => exact (execTcal_within g s h).kept rfl
  | tcalDone g => exact (execTcalDone_within g s h).kept rfl
  | tsgCntClr g => exact (execTsgCntClr_within g s h).kept rfl
  | lvlOeWrite c => exact (execLvlOeWrite_within c s h).kept rfl
  | lvlSpanWrite c => exact (execLvlSpanWrite_within c s h).kept rfl
  | lvlSpanChangeEnd c => exact (execLvlSpanChangeEnd_within c s h).kept rfl
  | lvlConnect c => exact (execLvlConnect_within c s h).kept rfl
  | loadNEdge t => exact (execLoadNEdge_within t s h).kept rfl
  | lgLoad g => exact (execLgLoad_within g s h).kept rfl
  | loadCapture g => exact (execLoadCapture_within g s h).kept rfl
  | loadInstant g => exact (execLoadInstant_within g s h).kept rfl
  | lvlComplianceFlag c t => exact (execLvlComplianceFlag_within c t s h).kept rfl
  | lvlOpenLoopFlag c t => exact (execLvlOpenLoopFlag_within c t s h).kept rfl
  | lvlReconnect c => exact (execLvlReconnect_within c s h).kept rfl
  | lvlCntClr c => exact (execLvlCntClr_within c s h).kept rfl
  | lgCntClr g => exact (execLgCntClr_within g s h).kept rfl
  | monConversion result => exact (execMonConversion_within result s h).kept rfl
  | bridgeHop => exact (execBridgeHop_within s h).kept rfl
  | stormSuppress p => exact (execStormSuppress_within p s h).kept rfl
  | stormSuppClear word mask => exact (execStormSuppClear_within word mask s h).kept rfl
  | timerStart k => exact (execTimerStart_within k s h).kept rfl
  | timerStop k => exact (execTimerStop_within k s h).kept rfl
  | timerExpiry k => exact (execTimerExpiry_within k s h).kept rfl
  | brgSwFire mask => exact (execBrgSwFire_within mask s h).kept rfl
  | brgCntClr => exact (execBrgCntClr_within s h).kept rfl
  | eviEdge b level t => exact (execEviEdge_within b level t s h).kept rfl
  | evoPulseEnd b => exact (execEvoPulseEnd_within b s h).kept rfl
  | portTrained p t neighbour => exact (execPortTrained_within p t neighbour s h).kept rfl
  | portDown p t cause => exact (execPortDown_within p t cause s h).kept rfl
  | beaconSend => exact (execBeaconSend_within s h).kept rfl
  | beaconReceive p t cells => exact (execBeaconReceive_within p t cells s h).kept rfl
  | eventCellReceive p t cell => exact (execEventCellReceive_within p t cell s h).kept rfl
  | messageRelease => exact (execMessageRelease_within s h).kept rfl
  | slotCheck origin => exact (execSlotCheck_within origin s h).kept rfl
  | ensembleFound => exact (execEnsembleFound_within s h).kept rfl
  | membChangedCheck => exact (execMembChangedCheck_within s h).kept rfl
  | lnkCntClr => exact (execLnkCntClr_within s h).kept rfl
  | accessIssue tag t => exact (execAccessIssue_within tag t s h).kept rfl
  | accessLand dest t edc round => exact (execAccessLand_within dest t edc round s h).kept rfl
  | refreshDue g t rtWaiting => exact (execRefreshDue_within g t rtWaiting s h).kept rfl
  | nbrRefresh g t => exact (execNbrRefresh_within g t s h).kept rfl
  | pageClose g bank => exact (execPageClose_within g bank s h).kept rfl
  | dramRetrain => exact (execDramRetrain_within s h).kept rfl
  | shortTrainDone failed => exact (execShortTrainDone_within failed s h).kept rfl
  | dramCntClr => exact (execDramCntClr_within s h).kept rfl
  | pubGo => exact (execPubGo_within s h).kept rfl
  | publishRun => exact (execPublishRun_within s h).kept rfl
  | luthierReevaluate => exact (execLuthierReevaluate_within s h).kept rfl
  | capoStaticSwitch => exact (execCapoStaticSwitch_within s h).kept rfl
  | pubCntClr => exact (execPubCntClr_within s h).kept rfl
  | tuneBlockStart => exact (execTuneBlockStart_within s h).kept rfl
  | tunePhaseDone testPassed => exact (execTunePhaseDone_within testPassed s h).kept rfl
  | memoryClearDone k => exact (execMemoryClearDone_within k s h).kept rfl
  | memCntClr => exact (execMemCntClr_within s h).kept rfl
  | lbAccess t write addr be data => exact (execLbAccess_within t write addr be data s h).kept rfl
  | bar2Access t write addr be data => exact (execBar2Access_within t write addr be data s h).kept rfl
  | bar4Read addr len edc => exact (execBar4Read_within addr len edc s h).kept rfl
  | bar4Write addr bytes => exact (execBar4Write_within addr bytes s h).kept rfl
  | bar4WriteDrain edc => exact (execBar4WriteDrain_within edc s h).kept rfl
  | registerWrite t addr op => exact (execRegisterWrite_within t addr op s h).kept rfl
  | intPendClear word mask => exact (execIntPendClear_within word mask s h).kept rfl
  | strmOpen n => exact (execStrmOpen_within n s h).kept rfl
  | strmClose n => exact (execStrmClose_within n s h).kept rfl
  | strmTailWrite n v => exact (execStrmTailWrite_within n v s h).kept rfl
  | descFetch n descs => exact (execDescFetch_within n descs s h).kept rfl
  | streamPieceLand n piece => exact (execStreamPieceLand_within n piece s h).kept rfl
  | streamDmaError n code => exact (execStreamDmaError_within n code s h).kept rfl
  | bmeChange t bme d3hot => exact (execBmeChange_within t bme d3hot s h).kept rfl
  | hostCntClr => exact (execHostCntClr_within s h).kept rfl
  | faultRecordWrite => exact (execFaultRecordWrite_within s h).kept rfl
  | fltRdCountWrite v => exact (execFltRdCountWrite_within v s h).kept rfl
  | fltCntClr => exact (execFltCntClr_within s h).kept rfl
  | watchdogTimeout => exact (execWatchdogTimeout_within s h).kept rfl
  | safeParkClear => exact (execSafeParkClear_within s h).kept rfl
  | pwrCntClr => exact (execPwrCntClr_within s h).kept rfl
  | devCntClr => exact (execDevCntClr_within s h).kept rfl
  | extest => exact (execExtest_within s h).kept rfl
  | sample => exact (execSample_within s h).kept rfl
  | idcode => exact (execIdcode_within s h).kept rfl
  | highz => exact (execHighz_within s h).kept rfl
  | clamp => exact (execClamp_within s h).kept rfl
  | extestPulse => exact (execExtestPulse_within s h).kept rfl
  | extestTrain => exact (execExtestTrain_within s h).kept rfl
  | fuseRead => exact (execFuseRead_within s h).kept rfl
  | fuseProg value tjInRange => exact (execFuseProg_within value tjInRange s h).kept rfl
  | fuseProgDone failed => exact (execFuseProgDone_within failed s h).kept rfl
  | bypass code => exact (execBypass_within code s h).kept rfl
  | jtagTestExit next bootSel => exact (execJtagTestExit_within next bootSel s h).kept rfl
  | smbId => exact (execSmbId_within s h).kept rfl
  | smbRev => exact (execSmbRev_within s h).kept rfl
  | smbStatus => exact (execSmbStatus_within s h).kept rfl
  | smbTemp n => exact (execSmbTemp_within n s h).kept rfl
  | smbAlertStatus write pecOk => exact (execSmbAlertStatus_within write pecOk s h).kept rfl
  | smbAlertMask write pecOk => exact (execSmbAlertMask_within write pecOk s h).kept rfl
  | smbTempLimit write pecOk => exact (execSmbTempLimit_within write pecOk s h).kept rfl
  | smbAlertResponse => exact (execSmbAlertResponse_within s h).kept rfl
  | tempConversion n reading => exact (execTempConversion_within n reading s h).kept rfl
  | supplyFall rail => exact (execSupplyFall_within rail s h).kept rfl
  | modulatorCycle w => exact (execModulatorCycle_within w s h).kept rfl
  | vectorStart g => exact (execVectorStart_within g s h).kept rfl
  | strobe p sel x => exact (execStrobe_within p sel x s h).kept rfl
  | aerError k => exact (execAerError_within k s h).kept rfl
  | smbusTimeout => exact (execSmbusTimeout_within s h).kept rfl

theorem exec_keeps_pending {c : Instr} {s t : State} (h : exec c s = .next t) : t.pending = s.pending :=
  exec_agree_kept h .pending rfl

/-! ### A step -/

theorem step_of_empty {s : State} (h : s.pending = []) : step s = .next s := by
  unfold step
  rw [h]

theorem step_of_cons {s : State} {c : Instr} {q : List Instr} (h : s.pending = c :: q) : step s = exec c (s.rest q) := by
  unfold step
  rw [h]

/-- What a command's kept parts agree on, a step's do: taking the command off the queue touches no other part. -/
theorem step_agree {f : Field} (hf : f.kept = true) (hp : f ≠ .pending) {s t : State} (h : step s = .next t) : Agree f s t := by
  cases hq : s.pending with
  | nil =>
    rw [step_of_empty hq] at h
    cases h
    exact Agree.refl f s
  | cons c q =>
    rw [step_of_cons hq] at h
    have hrest : Within [.pending] s (s.rest q) := Within.set_pending s q
    exact (hrest f (by simpa using hp)).trans (exec_agree_kept h f hf)

/-- Settles O1. -/
theorem stepRunsFrontCommand : Obligations.StepRunsFrontCommand := fun _ _ _ h => step_of_cons h

/-- Settles O2. -/
theorem emptyQueueIdles : Obligations.EmptyQueueIdles := fun _ h => step_of_empty h

/-- Settles O3: the queue lies in no command's frame. -/
theorem commandsLeaveTheQueue : Obligations.CommandsLeaveTheQueue := fun _ _ _ h => exec_keeps_pending h

/-- Settles O4: every command keeps the fuses, and taking it off the queue does not touch the part. -/
theorem programmedFusesStay : Obligations.ProgrammedFusesStay := by
  intro s t h
  exact step_agree (f := .chip) rfl (by decide) h

/-- Settles O5: every command keeps both canonical forms, and taking it off the queue touches neither. -/
theorem memoriesStayCanonical : Obligations.MemoriesStayCanonical := by
  intro s t hm hr h
  exact ⟨step_agree (f := .memForm) rfl (by decide) h hm, step_agree (f := .regForm) rfl (by decide) h hr⟩

/-! ### Faults (R471) -/

/-- The commands that R471 lets act while a fallen rail leaves the behaviour undefined. -/
def endsUndef : Instr → Bool
  | .powerOn _ | .resetNAssert _ | .perstNAssert _ _ | .supplyFall _ => true
  | _ => false

/-- Every other command is guarded. -/
theorem exec_fault_of_undef {c : Instr} {s : State} (h : endsUndef c = false) (hu : s.undef = true) :
    exec c s = .fault .behaviourUndefined := by
  cases c with
  | powerOn | resetNAssert | perstNAssert | supplyFall => cases h
  | _ => exact if_pos hu

theorem exec_next_of_defined {c : Instr} {s : State} (h : endsUndef c = false) (hu : s.undef = false) : ∃ t, exec c s = .next t := by
  cases c with
  | powerOn | resetNAssert | perstNAssert | supplyFall => cases h
  | _ => exact ⟨_, if_neg (by simp [hu])⟩

theorem exec_next_of_endsUndef {c : Instr} (h : endsUndef c = true) (s : State) : ∃ t, exec c s = .next t := by
  cases c with
  | powerOn | resetNAssert => exact ⟨_, rfl⟩
  | perstNAssert t cause =>
    show ∃ u, execPerstNAssert t cause s = .next u
    unfold execPerstNAssert
    dsimp only
    split <;> exact ⟨_, rfl⟩
  | supplyFall rail => cases rail <;> exact ⟨_, rfl⟩
  | _ => cases h

/-- Settles O7: all but four commands are guarded, and those four are not. -/
theorem onlyUndefinedBehaviourFaults : Obligations.OnlyUndefinedBehaviourFaults := by
  intro c s
  show (s.undef = false ∨ endsUndef c = true → ∃ t, exec c s = .next t) ∧
    (s.undef = true → endsUndef c = false → exec c s = .fault .behaviourUndefined)
  refine ⟨fun h => ?_, fun hu hc => exec_fault_of_undef hc hu⟩
  cases hc : endsUndef c with
  | true => exact exec_next_of_endsUndef hc s
  | false => exact exec_next_of_defined hc (h.resolve_right (by simp [hc]))

/-! ### The state after reset -/

/-- Settles O6: State.reset lists nothing but defaults. -/
theorem resetState : Obligations.ResetState := by
  refine ⟨⟨by decide, by decide, rfl, by decide⟩, rfl, rfl, by decide, rfl, rfl, rfl, rfl, rfl, rfl,
    fun a => ⟨rfl, rfl, rfl, rfl, rfl⟩, fun n => ?_, fun w => ?_⟩
  · simp [State.reset]
  · simp [State.reset]

end Sys2Proof.Machine
end

