-- ==== Sys2Proof/Proofs/Outcomes.lean ====
section
/-! PROOF. How a statement that a command gives a state reduces to its meaning, and what a frame says of each part. -/
namespace Sys2Proof.Machine

/-! ### Outcomes -/

/-- Where the behaviour is defined, a guarded command gives the state that its meaning names. -/
theorem gives_next {c : Instr} {s u : State} {P : State → Prop} (hu : s.undef = false)
    (hc : exec c s = if s.undef = true then .fault .behaviourUndefined else .next u) (h : P u) : Gives c s P :=
  ⟨u, by rw [hc, if_neg (by simp [hu])], h⟩

/-- The same, once the branch that the meaning takes has been found. -/
theorem gives_branch {c : Instr} {s b u : State} {P : State → Prop} (hu : s.undef = false)
    (hc : exec c s = if s.undef = true then .fault .behaviourUndefined else .next b) (hb : b = u) (h : P u) : Gives c s P :=
  gives_next hu hc (hb ▸ h)

/-- The same, where the command's own frame is at hand. -/
theorem gives_framed {c : Instr} {s b u : State} {P : State → Prop} {l : List Field} (hu : s.undef = false)
    (hw : ∀ t, exec c s = .next t → Within l s t)
    (hc : exec c s = if s.undef = true then .fault .behaviourUndefined else .next b) (hb : b = u) (h : Within l s u → P u) :
    Gives c s P :=
  have hnext : exec c s = .next u := by rw [hc, if_neg (by simp [hu]), hb]
  ⟨u, hnext, h (hw u hnext)⟩

/-! ### A part that a frame does not name stays -/

/-- One operation after another, in a frame that covers both of theirs. -/
theorem Within.seq {l m n : List Field} {s t u : State} (h : Within m s t) (k : Within n t u)
    (hm : m.all (fun f => l.contains f) = true := by rfl) (hn : n.all (fun f => l.contains f) = true := by rfl) : Within l s u :=
  (h.mono hm).step k hn

section
variable {l : List Field} {s t : State} (h : Within l s t)
include h

theorem Within.partEq (hl : Field.part ∉ l := by decide) : t.part = s.part := h .part hl
theorem Within.clkEq (hl : Field.clk ∉ l := by decide) : t.clk = s.clk := h .clk hl
theorem Within.pwrEq (hl : Field.pwr ∉ l := by decide) : t.pwr = s.pwr := h .pwr hl
theorem Within.imgEq (hl : Field.img ∉ l := by decide) : t.img = s.img := h .img hl
theorem Within.ovlEq (hl : Field.ovl ∉ l := by decide) : t.ovl = s.ovl := h .ovl hl
theorem Within.trgEq (hl : Field.trg ∉ l := by decide) : t.trg = s.trg := h .trg hl
theorem Within.cfgEq (hl : Field.cfg ∉ l := by decide) : t.cfg = s.cfg := h .cfg hl
theorem Within.effEq (hl : Field.eff ∉ l := by decide) : t.eff = s.eff := h .eff hl
theorem Within.flgEq (hl : Field.flg ∉ l := by decide) : t.flg = s.flg := h .flg hl
theorem Within.ctrEq (hl : Field.ctr ∉ l := by decide) : t.ctr = s.ctr := h .ctr hl
theorem Within.cmdEq (hl : Field.cmd ∉ l := by decide) : t.cmd = s.cmd := h .cmd hl
theorem Within.moreEq (hl : Field.more ∉ l := by decide) : t.more = s.more := h .more hl
theorem Within.tabsEq (hl : Field.tabs ∉ l := by decide) : t.tabs = s.tabs := h .tabs hl
theorem Within.wasEq (hl : Field.was ∉ l := by decide) : t.was = s.was := h .was hl
theorem Within.wlEq (hl : Field.wl ∉ l := by decide) : t.wl = s.wl := h .wl hl
theorem Within.govEq (hl : Field.gov ∉ l := by decide) : t.gov = s.gov := h .gov hl
theorem Within.pgEq (hl : Field.pg ∉ l := by decide) : t.pg = s.pg := h .pg hl
theorem Within.pinEq (hl : Field.pin ∉ l := by decide) : t.pin = s.pin := h .pin hl
theorem Within.lvlEq (hl : Field.lvl ∉ l := by decide) : t.lvl = s.lvl := h .lvl hl
theorem Within.lgEq (hl : Field.lg ∉ l := by decide) : t.lg = s.lg := h .lg hl
theorem Within.monEq (hl : Field.mon ∉ l := by decide) : t.mon = s.mon := h .mon hl
theorem Within.brgEq (hl : Field.brg ∉ l := by decide) : t.brg = s.brg := h .brg hl
theorem Within.linkEq (hl : Field.link ∉ l := by decide) : t.link = s.link := h .link hl
theorem Within.fltEq (hl : Field.flt ∉ l := by decide) : t.flt = s.flt := h .flt hl
theorem Within.plcEq (hl : Field.plc ∉ l := by decide) : t.plc = s.plc := h .plc hl
theorem Within.jtagEq (hl : Field.jtag ∉ l := by decide) : t.jtag = s.jtag := h .jtag hl
theorem Within.smbEq (hl : Field.smb ∉ l := by decide) : t.smb = s.smb := h .smb hl
theorem Within.undefEq (hl : Field.undef ∉ l := by decide) : t.undef = s.undef := h .undef hl
theorem Within.freeNEq (hl : Field.freeN ∉ l := by decide) : t.freeN = s.freeN := h .freeN hl
theorem Within.pendingEq (hl : Field.pending ∉ l := by decide) : t.pending = s.pending := h .pending hl
theorem Within.bytesEq (hl : Field.bytes ∉ l := by decide) : t.dram.cells = s.dram.cells ∧ t.dram.gen = s.dram.gen := h .bytes hl
theorem Within.xramEq (hl : Field.xram ∉ l := by decide) : t.mem.xram = s.mem.xram := h .xram hl

theorem Within.dramEq (hl : Field.dram ∉ l := by decide) (hb : Field.bytes ∉ l := by decide) : t.dram = s.dram := by
  have h1 : ({ t.dram with cells := s.dram.cells, gen := s.dram.gen } : Dram) = s.dram := h .dram hl
  obtain ⟨h2, h3⟩ := h.bytesEq hb
  rw [← h1, ← h2, ← h3]

theorem Within.memEq (hl : Field.mem ∉ l := by decide) (hx : Field.xram ∉ l := by decide) : t.mem = s.mem := by
  have h1 : ({ t.mem with xram := s.mem.xram } : Mem) = s.mem := h .mem hl
  rw [← h1, ← h.xramEq hx]

theorem Within.hostEq (hl : Field.host ∉ l := by decide) (hm : Field.msix ∉ l := by decide) : t.host = s.host := by
  have h1 : ({ t.host with msixPending := s.host.msixPending, msixSent := s.host.msixSent, msixLast := s.host.msixLast } : HostIf) =
    s.host := h .host hl
  have h2 : t.host.msixPending = s.host.msixPending ∧ t.host.msixSent = s.host.msixSent ∧ t.host.msixLast = s.host.msixLast := h .msix hm
  obtain ⟨h3, h4, h5⟩ := h2
  rw [← h1, ← h3, ← h4, ← h5]

theorem Within.flagEq (a : Nat) (hl : Field.flg ∉ l := by decide) : t.flag a = s.flag a := flag_of_flg_eq (h.flgEq hl) a
theorem Within.counterEq (a : Nat) (hl : Field.ctr ∉ l := by decide) : t.counter a = s.counter a := counter_of_ctr_eq (h.ctrEq hl) a
theorem Within.cmdWordEq (a : Nat) (hl : Field.cmd ∉ l := by decide) : t.cmdWord a = s.cmdWord a :=
  congrArg (fun m => smGet (fun _ => 0) m a) (h.cmdEq hl)
theorem Within.moreWordEq (a : Nat) (hl : Field.more ∉ l := by decide) :
    smGet (fun _ => (0 : Word)) t.more a = smGet (fun _ => 0) s.more a :=
  congrArg (fun m => smGet (fun _ => 0) m a) (h.moreEq hl)

theorem Within.flagsBut (m : List Nat) (hl : Field.flg ∉ l := by decide) : FlagsBut m s t := fun a _ _ => h.flagEq a hl
theorem Within.ctrsBut (m : List Nat) (hl : Field.ctr ∉ l := by decide) : CtrsBut m s t := fun a _ => h.counterEq a hl
theorem Within.cmdsBut (m : List Nat) (hc : Field.cmd ∉ l := by decide) (hm : Field.more ∉ l := by decide) : CmdsBut m s t :=
  fun a _ => ⟨h.cmdWordEq a hc, h.moreWordEq a hm⟩
end

/-! ### Words that change, one after the other -/

theorem FlagsBut.refl (l : List Nat) (s : State) : FlagsBut l s s := fun _ _ _ => rfl
theorem CtrsBut.refl (l : List Nat) (s : State) : CtrsBut l s s := fun _ _ => rfl
theorem CmdsBut.refl (l : List Nat) (s : State) : CmdsBut l s s := fun _ _ => ⟨rfl, rfl⟩

theorem FlagsBut.trans {l : List Nat} {s t u : State} (h : FlagsBut l s t) (k : FlagsBut l t u) : FlagsBut l s u :=
  fun a ha hp => (k a ha hp).trans (h a ha hp)
theorem CtrsBut.trans {l : List Nat} {s t u : State} (h : CtrsBut l s t) (k : CtrsBut l t u) : CtrsBut l s u :=
  fun a ha => (k a ha).trans (h a ha)
theorem CmdsBut.trans {l : List Nat} {s t u : State} (h : CmdsBut l s t) (k : CmdsBut l t u) : CmdsBut l s u :=
  fun a ha => ⟨(k a ha).1.trans (h a ha).1, (k a ha).2.trans (h a ha).2⟩

/-- A flag that is set changes the words that hold it, and no other. -/
theorem FlagsBut.setBit {l : List Nat} {s t : State} (h : FlagsBut l s t) {a : Nat} (i : Nat) (ha : a ∈ l) :
    FlagsBut l s (t.setBit a i) :=
  h.trans fun b hb hp => State.setBit_flagsBut t a i b (fun hm => hb (List.mem_singleton.mp hm ▸ ha)) hp

theorem FlagsBut.setBitIf {l : List Nat} {s t : State} (h : FlagsBut l s t) (c : Bool) {a : Nat} (i : Nat) (ha : a ∈ l) :
    FlagsBut l s (t.setBitIf c a i) := by
  unfold State.setBitIf
  split
  · exact h.setBit i ha
  · exact h

theorem CtrsBut.count {l : List Nat} {s t : State} (h : CtrsBut l s t) {a : Nat} (n : Nat) (ha : a ∈ l) : CtrsBut l s (t.count a n) :=
  h.trans fun b hb => counter_count_other t a n b fun e => hb (e ▸ ha)

theorem CmdsBut.cmdTake {l : List Nat} {s t : State} (h : CmdsBut l s t) {a : Nat} (m : Word) (ha : a ∈ l) :
    CmdsBut l s (t.cmdTake a m) :=
  h.trans fun b hb => cmd_cmdTake_other t a m b fun e => hb (e ▸ ha)

/-! ### One W1C bit, one CMD word -/

theorem State.flag_setBit_self (s : State) {a : Nat} (i : Nat) (ha : a ∉ pendWords) : (s.setBit a i).flag a = s.flag a ||| bit32 i :=
  flag_setFlag_self s a (bit32 i) ha

theorem State.flag_setBit_other (s : State) {a b : Nat} (i : Nat) (hb : b ≠ a) (hp : b ∉ pendWords) :
    (s.setBit a i).flag b = s.flag b := flag_setFlag_other s a (bit32 i) b hb hp

/-- A bit that is set reads 1. -/
theorem State.flagBit_setBit (s : State) {a i : Nat} (ha : a ∉ pendWords) (hi : (bit32 i).getLsbD i = true) :
    ((s.setBit a i).flag a).getLsbD i = true := by
  rw [State.flag_setBit_self s i ha, BitVec.getLsbD_or, hi, Bool.or_true]

/-- Software clears bits of a W1C word, but for those that hardware set in the same tick (R408). -/
theorem State.flag_clearFlag_self (s : State) (a : Nat) (m : Word) :
    (s.clearFlag a m).flag a = ((smGet (fun _ => ({} : Evt)) s.flg a).clear s.clk.now m).bits := by
  unfold State.clearFlag State.flag
  dsimp only
  rw [smGet_mod_self]

theorem State.flag_clearFlag_other (s : State) {a b : Nat} (m : Word) (h : b ≠ a) : (s.clearFlag a m).flag b = s.flag b := by
  unfold State.clearFlag State.flag
  dsimp only
  rw [smGet_mod_other _ _ _ h]

/-- The bits of a CMD word that a command takes. -/
theorem State.cmdTake_takes (s : State) (a : Nat) (m : Word) : Takes a m s (s.cmdTake a m) :=
  ⟨(cmd_cmdTake_self s a m).1, (cmd_cmdTake_self s a m).2, (CmdsBut.refl [a] s).cmdTake m (List.mem_singleton_self a)⟩

theorem Takes.cmd_eq {a : Nat} {m : Word} {s t u : State} (h : Takes a m s t) (hc : u.cmd = t.cmd) (hm : u.more = t.more) :
    Takes a m s u := by
  unfold Takes CmdsBut State.cmdWord at h ⊢
  rwa [hc, hm]

theorem Takes.from_eq {a : Nat} {m : Word} {s t u : State} (h : Takes a m t u) (hc : t.cmd = s.cmd) (hm : t.more = s.more) :
    Takes a m s u := by
  unfold Takes CmdsBut State.cmdWord at h ⊢
  rwa [hc, hm] at h

theorem State.cmdDrop_drops (s : State) (a : Nat) (m : Word) : Drops a m s (s.cmdDrop a m) := by
  unfold Drops CmdsBut State.cmdDrop State.cmdWord
  dsimp only
  rw [smGet_mod_self, smGet_mod_self]
  refine ⟨rfl, rfl, fun b hb => ?_⟩
  rw [smGet_mod_other _ _ _ (List.ne_of_not_mem_cons hb), smGet_mod_other _ _ _ (List.ne_of_not_mem_cons hb)]
  exact ⟨rfl, rfl⟩

end Sys2Proof.Machine
end

