-- ==== Sys2Proof/Proofs/SmbusPort.lean ====
section
/-! PROOF. The SMBus port (R491, R492). -/
namespace Sys2Proof.Machine

/-! ### Reads -/

/-- The bytes of a word of 16 bits, low byte first. -/
theorem halfWord_bytes (v : BitVec 16) :
    (List.range 2).map (fun i => BitVec.ofNat 8 (v.toNat >>> (8 * i))) = [v.setWidth 8, (v >>> 8).setWidth 8] := by
  refine List.cons_eq_cons.mpr ⟨BitVec.eq_of_toNat_eq ?_, List.cons_eq_cons.mpr ⟨BitVec.eq_of_toNat_eq ?_, rfl⟩⟩ <;> simp

/-- What a read of the bytes of a register leaves of the port. -/
def smbAfterRead (m : Smbus) (code : Byte) (l : List Byte) : Smbus :=
  let own : Byte := (0x58 + m.addrPins.setWidth 7).setWidth 8 <<< 1
  { m with
    data := BitVec.ofNat 16 (leNat l), ara := none, active := true, blockCount := BitVec.ofNat 8 l.length
    pec := pecOf (own :: code :: (own ||| 1) :: l)
    blockPec := pecOf (own :: code :: (own ||| 1) :: BitVec.ofNat 8 l.length :: l) }

theorem State.smbRead_smb (s : State) (code : Byte) (n v : Nat) :
    (s.smbRead code n v).smb = smbAfterRead s.smb code ((List.range n).map fun i => BitVec.ofNat 8 (v >>> (8 * i))) := by
  simp [State.smbRead, State.modSmb, smbAfterRead, State.smbHead, State.smbAddress]

theorem State.smbRead_word (s : State) (code : Byte) (v : BitVec 16) :
    (s.smbRead code 2 v.toNat).smb = smbAfterRead s.smb code [v.setWidth 8, (v >>> 8).setWidth 8] := by
  rw [State.smbRead_smb, halfWord_bytes]

theorem State.smbRead_byte (s : State) (code : Byte) (v : Nat) :
    (s.smbRead code 1 v).smb = smbAfterRead s.smb code [BitVec.ofNat 8 v] := State.smbRead_smb s code 1 v

/-! ### Temperatures -/

theorem smbTemps_set (temps : Vector (BitVec 16) 12) (n : Fin 12) (v : BitVec 16) :
    (temps.set n v)[n] = v ∧ ∀ k : Fin 12, k ≠ n → (temps.set n v)[k] = temps[k] := by
  refine ⟨by simp, fun k hk => ?_⟩
  have : n.val ≠ k.val := fun e => hk (Fin.ext e.symm)
  simp [this]

/-- Settles O60. -/
theorem smbusPort : Obligations.SmbusPort := by
  intro s hu
  have hw : ∀ (code : Byte) (n v : Nat), Within [.smb] s (s.smbRead code n v) := fun code n v => State.smbRead_within s code n v
  refine ⟨?_, ?_, ?_, fun n => ?_, fun ok => ⟨?_, ?_, ?_⟩, fun b => ⟨?_, ?_, ?_, ?_⟩, fun v => ⟨?_, ?_⟩, fun ha => ?_, fun ha => ?_,
    fun n v => ⟨fun hp => ?_, fun hp => ?_⟩, ?_⟩
  · exact gives_next hu rfl ⟨s.smbRead_word _ _, hw _ _ _⟩
  · exact gives_next hu rfl ⟨s.smbRead_byte _ _, hw _ _ _⟩
  · exact gives_next hu rfl ⟨s.smbRead_byte _ _, hw _ _ _⟩
  · exact gives_next hu rfl ⟨s.smbRead_word _ _, hw _ _ _⟩
  · exact gives_next hu rfl ⟨s.smbRead_byte _ _, hw _ _ _⟩
  · exact gives_next hu rfl ⟨s.smbRead_byte _ _, hw _ _ _⟩
  · exact gives_next hu rfl ⟨s.smbRead_word _ _, hw _ _ _⟩
  · exact gives_next hu rfl ⟨rfl, s.smbWrite_within true _⟩
  · exact gives_next hu rfl ⟨rfl, s.smbWrite_within false _⟩
  · exact gives_next hu rfl ⟨rfl, s.smbWrite_within true _⟩
  · exact gives_next hu rfl ⟨rfl, s.smbWrite_within false _⟩
  · exact gives_next hu rfl ⟨rfl, s.smbWrite_within true _⟩
  · exact gives_next hu rfl ⟨rfl, s.smbWrite_within false _⟩
  · refine gives_next hu rfl ⟨?_, State.modSmb_within s _⟩
    simp [State.modSmb, ha, State.smbAddress]
  · refine gives_next hu rfl ⟨?_, State.modSmb_within s _⟩
    simp [State.modSmb, ha]
  · exact gives_branch hu rfl (if_pos (by simp [hp])) rfl
  · have htemps := smbTemps_set s.smb.temps n v
    have hstore := State.modSmb_within s (fun m => { m with temps := m.temps.set n v })
    by_cases hover : s.smb.limit.toInt < v.toInt
    · refine gives_branch hu rfl ((if_neg (by simp [hp])).trans (if_pos hover)) ?_
      rw [if_pos hover]
      exact ⟨htemps.1, htemps.2, rfl, rfl, rfl, hstore.step (State.modSmb_within _ _) rfl⟩
    · refine gives_branch hu rfl ((if_neg (by simp [hp])).trans (if_neg hover)) ?_
      rw [if_neg hover]
      exact ⟨htemps.1, htemps.2, rfl, rfl, rfl, hstore⟩
  · exact gives_next hu rfl ⟨rfl, State.modSmb_within s _⟩

end Sys2Proof.Machine
end

