-- ==== Sys2Proof/Proofs/ColdResets.lean ====
section
/-! PROOF. Power-on, RESET_N and PERST_N, falls of supplies, and the releases of resets (R43, R310, R337, R366, R444 to R450, R460, R471). -/
namespace Sys2Proof.Machine

/-! ### What a fold over an index set of plain updates leaves alone -/

/-- A fold keeps a part of the state that each of its steps keeps. -/
theorem foldl_keeps {α β : Type} (p : State → β) (l : List α) (f : State → α → State) (h : ∀ u x, p (f u x) = p u) (s : State) :
    p (l.foldl f s) = p s := by
  induction l generalizing s with
  | nil => rfl
  | cons x r ih => exact (ih _).trans (h _ _)

/-! ### The time base at a release (R310) -/

theorem State.tb_of_ofs {s : State} (hruns : s.clk.timeRuns = true) (hofs : s.clk.ofs = -(s.clk.now : Int)) : s.tb = 0 := by
  unfold State.tb State.tbAt
  rw [hruns, hofs]
  simp

theorem State.tb_of_timeZero {s t : State} (h : t.clk = s.timeZero.clk) : t.tb = 0 :=
  State.tb_of_ofs (by rw [h]; rfl) (by rw [h]; rfl)

/-! ### A load that a reset interrupted (R52) -/

theorem State.abortReport_img (s : State) :
    s.abortReport.img = if s.img.aborted then { s.img with errCode := 0x10, errSection := 255, aborted := false } else s.img := by
  unfold State.abortReport State.imgErr
  split <;> simp [State.modImg]

theorem State.abortReport_img_aborted (s : State) : s.abortReport.img.aborted = false := by
  rw [State.abortReport_img]
  split
  · rfl
  · next h => simpa using h

/-! ### BOOT_SEL (R43) -/

theorem State.boot_within_img (s : State) (b : Bool) : Within [.img, .tabs, .mem] s (s.boot b) := by
  unfold State.boot State.fetchFrom State.clearMem
  refine Within.ite ?_ (Within.refl _ _)
  have hmem : Within [.img, .tabs, .mem] s (s.modMem fun m => { m with clearing := m.clearing ||| clearBit .tables }) :=
    (Within.set_mem s { s.mem with clearing := s.mem.clearing ||| clearBit .tables } rfl).mono rfl
  exact (hmem.step (Within.set_tabs _ _) rfl).step (State.modImg_within _ _) rfl

theorem State.boot_img (s : State) (b : Bool) : (s.boot b).img =
    if b then { s.img with state := .fetch, src := 1, fallbackNext := true, buf := [], flash := flashRead 1 } else s.img := by
  cases b <;> rfl

theorem State.boot_clearing (s : State) (b : Bool) :
    (s.boot b).mem.clearing = if b then s.mem.clearing ||| clearBit .tables else s.mem.clearing := by
  cases b <;> rfl

/-! ### The watchdog at a release (R460) -/

theorem State.watchResume_flt (s : State) : s.watchResume.flt = match s.flt.pausedAt with
    | none => s.flt
    | some p => { s.flt with pausedAt := none, beatAt := s.flt.beatAt + (s.clk.now - p) } := by
  unfold State.watchResume
  split <;> simp_all

theorem State.watchResume_pausedAt (s : State) : s.watchResume.flt.pausedAt = none := by
  rw [State.watchResume_flt]
  split
  · assumption
  · rfl

theorem State.watchResume_beatAt {s : State} {p : Nat} (h : s.flt.pausedAt = some p) :
    s.watchResume.flt.beatAt = s.flt.beatAt + (s.clk.now - p) := by
  rw [State.watchResume_flt, h]

theorem State.watchRelease_watching (s : State) : s.watchRelease.flt.watching = true ∧ s.watchRelease.flt.pausedAt = none := by
  unfold State.watchRelease
  split
  · next h =>
    refine ⟨?_, s.watchResume_pausedAt⟩
    rw [State.watchResume_flt]
    split <;> exact h
  · exact ⟨rfl, rfl⟩

theorem State.watchRelease_beatAt_new {s : State} (h : s.flt.watching = false) : s.watchRelease.flt.beatAt = s.clk.now := by
  unfold State.watchRelease
  rw [if_neg (by simp [h])]

theorem State.watchRelease_beatAt_on {s : State} (h : s.flt.watching = true) {p : Nat} (hp : s.flt.pausedAt = some p) :
    s.watchRelease.flt.beatAt = s.flt.beatAt + (s.clk.now - p) := by
  unfold State.watchRelease
  rw [if_pos h, State.watchResume_beatAt hp]

/-! ### The release of the internal reset (R43, R52, R366, R450, R460) -/

theorem State.coldRelease_of_held {s : State} (h : s.heldInReset = true) (b : Bool) : s.coldRelease b = s := if_pos h

/-- Everything that the release does before the boot. -/
def State.coldReady (s : State) : State := s.clearsEnd.timeZero.abortReport.watchRelease

theorem State.coldRelease_of_free {s : State} (h : s.heldInReset = false) (b : Bool) : s.coldRelease b = s.coldReady.boot b :=
  if_neg (by simp [h])

theorem State.coldReady_within (s : State) : Within [.clk, .img, .flg, .link, .mem, .msix, .flt] s s.coldReady :=
  ((((State.clearsEnd_within s).mono rfl : Within [.clk, .img, .flg, .link, .mem, .msix, .flt] s _).step (State.timeZero_within _) rfl).step
    (State.abortReport_within _) rfl).step (State.watchRelease_within _) rfl

theorem State.coldReady_clk (s : State) : s.coldReady.clk = s.timeZero.clk :=
  (State.watchRelease_within _).clkEq.trans (State.abortReport_within _).clkEq

theorem State.coldReady_mem (s : State) : s.coldReady.mem = { s.mem with clearing := 0 } :=
  (State.watchRelease_within _).memEq.trans (State.abortReport_within _).memEq

theorem State.coldReady_img (s : State) : s.coldReady.img =
    if s.img.aborted then { s.img with errCode := 0x10, errSection := 255, aborted := false } else s.img :=
  (State.watchRelease_within _).imgEq.trans (State.abortReport_img _)

theorem State.coldReady_flt (s : State) : s.coldReady.flt.watching = true ∧ s.coldReady.flt.pausedAt = none ∧
    (s.flt.watching = false → s.coldReady.flt.beatAt = s.clk.now) ∧
    (∀ p, s.flt.watching = true → s.flt.pausedAt = some p → s.coldReady.flt.beatAt = s.flt.beatAt + (s.clk.now - p)) := by
  have hflt : s.clearsEnd.timeZero.abortReport.flt = s.flt := (State.abortReport_within _).fltEq
  have hnow : s.clearsEnd.timeZero.abortReport.clk.now = s.clk.now := by rw [(State.abortReport_within _).clkEq]; rfl
  refine ⟨(State.watchRelease_watching _).1, (State.watchRelease_watching _).2, fun h => ?_, fun p h hp => ?_⟩
  · exact (State.watchRelease_beatAt_new (hflt ▸ h)).trans hnow
  · refine (State.watchRelease_beatAt_on (hflt ▸ h) (hflt ▸ hp)).trans ?_
    rw [hflt, hnow]

theorem State.watchRelease_safePark (s : State) : s.watchRelease.flt.safePark = s.flt.safePark := by
  unfold State.watchRelease
  split
  · rw [State.watchResume_flt]
    split <;> rfl
  · rfl

/-- A release leaves no safe park and ends none (R461). -/
theorem State.coldRelease_safePark (s : State) (b : Bool) : (s.coldRelease b).flt.safePark = s.flt.safePark := by
  unfold State.coldRelease
  split
  · rfl
  · rw [(State.boot_within_img _ b).fltEq, State.watchRelease_safePark, (State.abortReport_within _).fltEq]
    rfl

/-! ### RESET_N_RELEASE and PERST_N_RELEASE -/

/-- What a release with nothing holding the device any more leaves (R43, R52, R310, R366, R460). -/
theorem State.coldRelease_released {s : State} (h : s.heldInReset = false) (b : Bool) :
    let t := s.coldRelease b
    t.tb = 0 ∧ t.clk.timeValid = false ∧ t.clk.firstEpoch = true ∧ t.flt.watching = true ∧ t.flt.pausedAt = none ∧
      (s.flt.watching = false → t.flt.beatAt = t.clk.now) ∧
      (∀ p, s.flt.watching = true → s.flt.pausedAt = some p → t.flt.beatAt = s.flt.beatAt + (t.clk.now - p)) ∧
      t.mem.clearing = (if b then clearBit .tables else 0) ∧
      (s.img.aborted = true → t.img.errCode = 0x10 ∧ t.img.aborted = false) ∧
      (b = true → t.img.state = .fetch ∧ t.img.src = 1 ∧ t.img.fallbackNext = true) ∧
      (b = false → t.img.state = s.img.state) ∧
      t.clk.now = s.clk.now ∧ t.pwr = s.pwr ∧ Within [.clk, .pwr, .img, .flg, .tabs, .link, .mem, .host, .msix, .flt] s t := by
  have hboot := State.boot_within_img s.coldReady b
  have hclk : (s.coldRelease b).clk = s.timeZero.clk := by
    rw [State.coldRelease_of_free h, hboot.clkEq, State.coldReady_clk]
  obtain ⟨hwatch, hpause, hnew, hon⟩ := s.coldReady_flt
  have hwithin := (s.coldReady_within.mono rfl : Within [.clk, .pwr, .img, .flg, .tabs, .link, .mem, .host, .msix, .flt] s _).step hboot rfl
  refine ⟨State.tb_of_timeZero hclk, by rw [hclk]; rfl, by rw [hclk]; rfl, ?_⟩
  have hnow : (s.coldRelease b).clk.now = s.clk.now := by rw [hclk]; rfl
  rw [hnow]
  rw [State.coldRelease_of_free h, hboot.fltEq]
  refine ⟨hwatch, hpause, hnew, hon, ?_, fun ha => ?_, ?_, ?_, rfl, ?_, hwithin⟩
  · rw [State.boot_clearing, State.coldReady_mem]
    cases b
    · rfl
    · exact BitVec.zero_or
  · rw [State.boot_img, State.coldReady_img, if_pos ha]
    cases b <;> exact ⟨rfl, rfl⟩
  · rintro rfl
    exact ⟨rfl, rfl, rfl⟩
  · rintro rfl
    show s.coldReady.img.state = s.img.state
    rw [State.coldReady_img]
    split <;> rfl
  · exact hboot.pwrEq.trans s.coldReady_within.pwrEq

/-- A pin that falls leaves its hold, and the device is released where that was the last one. -/
theorem release_of_pin {s u : State} {b : Bool} {hold : Bool} (hwithin : Within [.clk, .pwr] s u)
    (hheld : u.heldInReset = hold) :
    (u.coldRelease b).pwr = u.pwr ∧ (u.coldRelease b).clk.now = u.clk.now ∧ (u.coldRelease b).heldInReset = hold ∧
      ((u.coldRelease b).heldInReset = true → Within [.clk, .pwr] s (u.coldRelease b)) := by
  have hpwr : (u.coldRelease b).pwr = u.pwr := (u.coldRelease_within b).pwrEq
  have hsame : (u.coldRelease b).heldInReset = hold := by
    rw [← hheld]
    unfold State.heldInReset
    rw [hpwr]
  cases hold with
  | true =>
    rw [State.coldRelease_of_held hheld]
    exact ⟨rfl, rfl, hheld, fun _ => hwithin⟩
  | false =>
    obtain ⟨-, -, -, -, -, -, -, -, -, -, -, hnow, -⟩ := State.coldRelease_released hheld b
    exact ⟨hpwr, hnow, hsame, fun h => absurd h (by simp [hsame])⟩

/-! ### The release of a warm reset (R337, R446, R460) -/

/-- An update that writes back what stands there. -/
theorem State.modPwr_self {s : State} {f : Power → Power} (h : f s.pwr = s.pwr) : s.modPwr f = s := by
  unfold State.modPwr
  rw [h]

/-- With no command held nothing runs again. -/
theorem State.runHeld_of_nil {s : State} (h : s.pwr.held = []) : s.runHeld = s := by
  have hsame : s.modPwr (fun p => { p with held := [] }) = s := State.modPwr_self (by rw [← h])
  unfold State.runHeld
  rw [h]
  exact hsame

/-- What the end of a warm reset's release leaves. -/
structure WarmEnded (s t : State) : Prop where
  phase : t.pwr.phase = .none
  releasing : t.pwr.releasing = false
  tb : t.tb = 0
  firstEpoch : t.clk.firstEpoch = true
  done : t.flag (clkA 0xC) = s.flag (clkA 0xC) ||| bit32 5
  pat : t.clk.patRun = s.clk.plan.extractLsb' 8 4
  conv : t.clk.convRun = s.clk.plan.extractLsb' 0 4
  watch : t.flt.pausedAt = none
  beat : ∀ p, s.flt.pausedAt = some p → t.flt.beatAt = s.flt.beatAt + (s.clk.now - p)
  taken : Takes (clkA 0x10) (bit32 8) s t
  held : t.pwr.held = s.pwr.held
  within : Within [.clk, .pwr, .img, .flg, .cmd, .more, .link, .dram, .msix, .flt] s t

theorem State.abortReport_flag_other (s : State) {a : Nat} (ha : a ≠ 0x108) (hp : a ∉ pendWords) :
    s.abortReport.flag a = s.flag a := by
  unfold State.abortReport
  split
  · exact State.flag_setBit_other _ 16 ha hp
  · rfl

theorem State.warmEnd_ended (s : State) : WarmEnded s s.warmEnd := by
  have hr := s.timeZero.abortReport_within
  have hs := s.timeZero_within
  let u := ((s.timeZero.abortReport.modPwr (fun p => { p with phase := .none, releasing := false })).cmdTake (clkA 0x10) (bit32 8)).playClocksStart
  have hu : s.warmEnd = u.watchResume.setBit (clkA 0xC) 5 := rfl
  have hw := u.watchResume_within
  have huclk : u.clk = { s.timeZero.clk with
      patRun := s.clk.plan.extractLsb' 8 4, convRun := s.clk.plan.extractLsb' 0 4 } := by
    have h : u.clk = { s.timeZero.abortReport.clk with
      patRun := s.timeZero.abortReport.clk.plan.extractLsb' 8 4, convRun := s.timeZero.abortReport.clk.plan.extractLsb' 0 4 } := rfl
    rw [h, hr.clkEq]
    rfl
  have hclk : s.warmEnd.clk = u.clk := by rw [hu, State.setBit_clk, hw.clkEq]
  have hpwr : s.warmEnd.pwr = u.pwr := by rw [hu, State.setBit_pwr, hw.pwrEq]
  have hflt : s.warmEnd.flt = u.watchResume.flt := State.setBit_flt _ _ _
  have huflt : u.flt = s.flt := hr.fltEq
  have hupwr : u.pwr = { s.pwr with phase := .none, releasing := false } := by
    show ({ s.timeZero.abortReport.pwr with phase := _, releasing := _ } : Power) = _
    rw [hr.pwrEq]
    rfl
  exact {
    phase := by rw [hpwr, hupwr]
    releasing := by rw [hpwr, hupwr]
    tb := State.tb_of_ofs (by rw [hclk, huclk]; rfl) (by rw [hclk, huclk]; rfl)
    firstEpoch := by rw [hclk, huclk]; rfl
    done := by
      rw [hu, State.flag_setBit_self _ _ (by decide), hw.flagEq]
      exact congrArg (· ||| bit32 5) (State.abortReport_flag_other s.timeZero (by decide) (by decide))
    pat := by rw [hclk, huclk]
    conv := by rw [hclk, huclk]
    watch := by rw [hflt, State.watchResume_pausedAt]
    beat := fun p hp => by
      rw [hflt, State.watchResume_beatAt (huflt ▸ hp), huflt, huclk]
      rfl
    taken := by
      have htake := State.cmdTake_takes (s.timeZero.abortReport.modPwr (fun p => { p with phase := .none, releasing := false }))
        (clkA 0x10) (bit32 8)
      refine (htake.from_eq hr.cmdEq hr.moreEq).cmd_eq ?_ ?_
      · rw [hu, State.setBit_cmd, hw.cmdEq]; rfl
      · rw [hu, State.setBit_more, hw.moreEq]; rfl
    held := by rw [hpwr, hupwr]
    within := s.warmEnd_within.mono rfl }

/-! ### What RESET_N, PERST_N and a power-on leave (R444, R448) -/

/-- Of the W1C words only FLT_SAFE outlasts a cold reset. -/
theorem State.coldState_flag (s : State) (b : Bool) : (∀ a, a ≠ fltA 0x14 → (s.coldState b).flag a = 0) ∧
    (s.coldState b).flag (fltA 0x14) = s.flag (fltA 0x14) := by
  refine ⟨fun a ha => ?_, congrArg Evt.bits (smGet_put_self _ _ _ _)⟩
  unfold State.flag State.coldState
  dsimp only
  rw [smGet_put_other _ _ _ ha]
  rfl

/-- Settles O8: each assert is coldState with its cause and its pin. -/
theorem coldResetsInvalidate : Obligations.ColdResetsInvalidate := by
  unfold Obligations.ColdResetsInvalidate
  intro cold s tick
  have hcold : ∀ (b : Bool) (cause : BitVec 3) (f : Power → Power) (hc : ∀ p, (f p).rstCause = p.rstCause)
      (hf : ∀ p, (f p).resetLow = true ∨ (f p).perstLow = true),
      cold s ((((s.upto tick).coldState b).cause cause).modPwr f) tick cause := fun b cause f hc hf => by
    refine ⟨hc _, ?_, rfl, rfl, rfl, rfl, rfl, rfl, rfl, rfl, rfl, rfl, rfl, rfl, rfl, rfl, fun a => ⟨rfl, rfl, rfl, rfl⟩,
      ((s.upto tick).coldState_flag b).1, ((s.upto tick).coldState_flag b).2, rfl, rfl, rfl, rfl, rfl⟩
    have := hf (((s.upto tick).coldState b).cause cause).pwr
    unfold State.heldInReset State.modPwr
    simp only [Bool.or_eq_true]
    tauto
  refine ⟨⟨_, rfl, hcold false 1 _ (fun _ => rfl) (fun _ => .inl rfl), rfl, rfl, rfl⟩, fun cause hcause => ?_, fun hwinter => ?_⟩
  · have hacts : ¬ (cause = .linkDown ∧ s.winterLink = true) := by
      rintro ⟨h1, h2⟩
      rcases hcause with h | h
      · exact h h1
      · rw [h] at h2; cases h2
    refine ⟨_, if_neg hacts, hcold _ 2 _ (fun _ => rfl) (fun _ => .inr rfl), rfl, rfl, ?_⟩
    show ((s.upto tick).coldState (!s.xramUnpowered)).mem = _
    cases s.xramUnpowered <;> rfl
  · exact ⟨_, if_pos ⟨rfl, hwinter⟩, rfl, s.upto_within tick⟩

/-! ### Power-on and falls of supplies (R448, R471, R472, R490) -/

/-- A programming that power cuts short clears no fuse, and sets neither KEY_SET nor SIGNED_ONLY (R490). -/
theorem Part.cutShort_keeps (p : Part) (fusing : Option (BitVec 512)) (n : Nat) :
    p.sameChip (p.cutShort fusing n) ∧ (p.cutShort fusing n).keySet = p.keySet ∧ (p.cutShort fusing n).signedOnly = p.signedOnly ∧
      (fusing = none → p.cutShort fusing n = p) := by
  unfold Part.cutShort
  cases fusing with
  | none => exact ⟨Part.sameChip.refl p, rfl, rfl, fun _ => rfl⟩
  | some v =>
    dsimp only
    split
    · refine ⟨⟨rfl, rfl, rfl, rfl, rfl, ?_, id, id⟩, rfl, rfl, fun h => nomatch h⟩
      ext i
      rw [BitVec.getElem_and, BitVec.getElem_or]
      cases p.keyHash[i] <;> simp
    · exact ⟨⟨rfl, rfl, rfl, rfl, rfl, BitVec.and_self, id, id⟩, rfl, rfl, fun h => nomatch h⟩

/-- Without VDD_AON no ball is driven (R472). -/
theorem State.ballDrive_of_aonDown {s : State} (h : s.pwr.aonDown = true) (b : Ball) : s.ballDrive b = .off := if_pos h

theorem State.faultN_of_aonDown {s : State} (h : s.pwr.aonDown = true) : s.faultN = none := if_pos h

/-- Settles O9: a fall of an always-on or core rail and POWER_ON both go through powerOnState. -/
theorem powerOnAndSupplyFalls : Obligations.PowerOnAndSupplyFalls := by
  unfold Obligations.PowerOnAndSupplyFalls
  intro keeps s balls
  have hpart := s.part.cutShort_keeps s.jtag.fusing s.freeN
  refine ⟨?_, fun rail haon hcore => ?_, ?_⟩
  · rintro rail (rfl | rfl)
    · exact ⟨_, rfl, rfl, rfl, rfl, rfl, rfl, fun _ => rfl, rfl, rfl, rfl, rfl, rfl, rfl, rfl, hpart,
        fun _ => ⟨State.faultN_of_aonDown rfl, State.ballDrive_of_aonDown rfl⟩, rfl⟩
    · exact ⟨_, rfl, rfl, rfl, rfl, rfl, rfl, fun _ => rfl, rfl, rfl, rfl, rfl, rfl, rfl, rfl, hpart, fun h => absurd h (by decide), rfl⟩
  · refine ⟨{ s with undef := true }, ?_, rfl, Within.set_undef s true⟩
    cases rail <;> first | rfl | contradiction
  · let u : State := { s.powerOnState.modPwr (fun p => { p with porHold := false, jtagHold := false, aonDown := false }) with
      smb := { addrPins := balls.smbAd } }
    have hheld : u.heldInReset = (s.pwr.resetLow || s.pwr.perstLow) := by
      show (false || s.pwr.resetLow || s.pwr.perstLow || false) = _
      rw [Bool.false_or, Bool.or_false]
    have hwithin := u.coldRelease_within balls.bootSel
    have htheld : (u.coldRelease balls.bootSel).heldInReset = u.heldInReset := congrArg (fun p : Power =>
      p.porHold || p.resetLow || p.perstLow || p.jtagHold) hwithin.pwrEq
    have hpwr : (u.coldRelease balls.bootSel).pwr = u.pwr := hwithin.pwrEq
    have hsafe : (u.coldRelease balls.bootSel).faultN = some true := by
      unfold State.faultN
      rw [hpwr, State.coldRelease_safePark]
      rfl
    have hnone : u.img.state = .unconfigured := rfl
    refine ⟨u.coldRelease balls.bootSel, rfl, hwithin.smbEq, hsafe, by rw [hpwr]; rfl, by rw [hpwr]; rfl, hwithin.undefEq, hwithin.wlEq,
      hwithin.lvlEq, hwithin.cluEq (by decide), ?_, hwithin.pendingEq, htheld.trans hheld, ?_⟩
    · show s.part.sameChip _ ∧ _
      rw [hwithin.partEq]
      exact hpart
    · rw [htheld]
      cases hfree : u.heldInReset with
      | true =>
        rw [State.coldRelease_of_held hfree, Bool.not_true, Bool.and_false]
        exact ⟨rfl, fun h => absurd (hnone.symm.trans h) (by decide), fun h => absurd h (by decide)⟩
      | false =>
        obtain ⟨htb, -, -, -, -, -, -, -, -, hboot, hstays, -⟩ := State.coldRelease_released hfree balls.bootSel
        rw [Bool.not_false, Bool.and_true]
        refine ⟨?_, fun hfetch => ?_, fun _ => htb⟩
        · split
          · next hb => exact (hboot hb).1
          · next hb => exact hstays (by simpa using hb)
        · cases hb : balls.bootSel with
          | true => exact hb ▸ (hboot hb).2.1
          | false => exact absurd (hfetch.symm.trans (hstays hb)) (fun h => nomatch h)

/-! ### The releases (R43, R337, R446, R450) -/

/-- Updates of DRAM channels leave all else as it was. -/
theorem State.foldl_modChan (f : Chan → DramChan → DramChan) (l : List Chan) (s : State) :
    ∃ chans, l.foldl (fun s g => s.modChan g (f g)) s = { s with dram := { s.dram with chans := chans } } := by
  induction l generalizing s with
  | nil => exact ⟨s.dram.chans, rfl⟩
  | cons g r ih =>
    obtain ⟨chans, h⟩ := ih (s.modChan g (f g))
    exact ⟨chans, h⟩

theorem State.closeRows_eq (s : State) : ∃ chans, s.closeRows = { s with dram := { s.dram with chans := chans } } :=
  State.foldl_modChan _ _ s

/-- A training starts (R335 to R337). -/
theorem State.train_eq (s : State) (k : Training) : ∃ chans, s.train k = { s with dram := { s.dram with
    chans := chans, training := k, trainAt := s.clk.now, ready := false, selfRefresh := false } } := by
  obtain ⟨c1, h1⟩ := s.closeRows_eq
  obtain ⟨c2, h2⟩ := State.foldl_modChan (fun _ k => { k with due := none }) (allFin 16) s.closeRows
  refine ⟨c2, ?_⟩
  unfold State.train
  rw [h2, h1]

/-- A training that ends with no other to follow leaves READY as its PLL is locked (R336). -/
theorem State.trainPass_eq {s : State} (h : s.dram.shortNext = false) : ∃ chans, s.trainPass = { s with dram := { s.dram with
    chans := chans, training := .none, ready := s.clk.pll.getLsbD 6, shortNext := false } } := by
  obtain ⟨c, hc⟩ := State.foldl_modChan (fun _ k => { k with predict := [] }) (allFin 16) s
  refine ⟨c, ?_⟩
  unfold State.trainPass
  dsimp only
  rw [hc, if_neg (by simp [h])]

/-- The end of the release of a state that differs only in its DRAM. -/
theorem WarmEnded.of_dram {s u t : State} (h : WarmEnded u t) (k : Within [.dram] s u) : WarmEnded s t := {
  phase := h.phase, releasing := h.releasing, tb := h.tb, firstEpoch := h.firstEpoch, watch := h.watch
  done := h.done.trans (by rw [k.flagEq])
  pat := h.pat.trans (by rw [k.clkEq])
  conv := h.conv.trans (by rw [k.clkEq])
  beat := fun p hp => (h.beat p (by rw [k.fltEq, hp])).trans (by rw [k.fltEq, k.clkEq])
  taken := h.taken.from_eq k.cmdEq k.moreEq
  held := h.held.trans (by rw [k.pwrEq])
  within := (k.mono rfl).step h.within rfl }

/-- Settles O10: a pin's release is coldRelease, and a warm reset's is warmEnd, at once or at the end of the short training. -/
theorem resetReleases : Obligations.ResetReleases := by
  unfold Obligations.ResetReleases
  intro released ended s tick bootSel hu
  have hended : ∀ {u t : State}, WarmEnded u t → Within [.dram] s u → ended s t := fun h k => by
    obtain ⟨hphase, hreleasing, htb, hfirst, hdone, hpat, hconv, hwatch, hbeat, htaken, -, hwithin⟩ := h.of_dram k
    exact ⟨hphase, hreleasing, htb, hfirst, hdone, hpat, hconv, hwatch, hbeat, htaken.1, hwithin⟩
  have hreleased : ∀ {u : State}, Within [.clk, .pwr] s u → (u.coldRelease bootSel).heldInReset = false →
      released s (u.coldRelease bootSel) bootSel := fun {u} hk hfree => by
    have hheld : u.heldInReset = false := by
      unfold State.heldInReset at hfree ⊢
      rwa [(u.coldRelease_within bootSel).pwrEq] at hfree
    obtain ⟨htb, hvalid, hfirst, hwatch, hpause, hnew, hon, hclear, habort, hboot, hstays, -, -, hwithin⟩ :=
      State.coldRelease_released hheld bootSel
    refine ⟨htb, hvalid, hfirst, hwatch, hpause, ?_, ?_, hclear, ?_, hboot, ?_, hk.seq hwithin⟩
    · rwa [hk.fltEq] at hnew
    · rwa [hk.fltEq] at hon
    · rwa [hk.imgEq] at habort
    · rwa [hk.imgEq] at hstays
  refine ⟨fun hlow => ?_, fun hlow => ?_, fun hphase hovl hrel => ⟨fun hconf hagain => ?_, fun hnone => ?_⟩, fun hrel htrain hnext hheld => ?_⟩
  · obtain ⟨hpwr, hnow, hheld, hpins⟩ := release_of_pin (s := s) (b := bootSel) (hold := s.pwr.porHold || s.pwr.perstLow || s.pwr.jtagHold)
      (u := (s.upto tick).modPwr fun p => { p with resetLow := false }) ((s.upto_within tick).seq (State.modPwr_within _ _))
      (by show (s.pwr.porHold || false || s.pwr.perstLow || s.pwr.jtagHold) = _; rw [Bool.or_false])
    refine gives_branch hu rfl (if_neg (by simp [hlow])) ⟨by rw [hpwr]; rfl, hnow, hheld, hpins, fun hfree => ?_⟩
    exact hreleased ((s.upto_within tick).seq (State.modPwr_within _ _)) hfree
  · obtain ⟨hpwr, hnow, hheld, hpins⟩ := release_of_pin (s := s) (b := bootSel) (hold := s.pwr.porHold || s.pwr.resetLow || s.pwr.jtagHold)
      (u := (s.upto tick).modPwr fun p => { p with perstLow := false }) ((s.upto_within tick).seq (State.modPwr_within _ _))
      (by show (s.pwr.porHold || s.pwr.resetLow || false || s.pwr.jtagHold) = _; rw [Bool.or_false])
    refine gives_branch hu rfl (if_neg (by simp [hlow])) ⟨by rw [hpwr]; rfl, hnow, hheld, hpins, fun hfree => ?_⟩
    exact hreleased ((s.upto_within tick).seq (State.modPwr_within _ _)) hfree
  · obtain ⟨c, hc⟩ := s.train_eq .short
    refine gives_branch hu rfl ((if_neg (by simp [hphase, hovl, hrel])).trans ((if_neg (by simp [hconf])).trans (if_neg (by simp [hagain])))) ?_
    refine ⟨?_, ?_, ?_, ?_, ?_, (s.train_within .short).seq (State.modPwr_within _ _)⟩ <;> rw [hc] <;> rfl
  · rcases hnone with hconf | hagain
    · refine gives_branch hu rfl ((if_neg (by simp [hphase, hovl, hrel])).trans (if_pos (by simp [hconf])))
        ⟨hended s.warmEnd_ended (Within.refl _ s), ?_, ?_⟩
      · exact fun h => absurd (hconf.symm.trans h) (by decide)
      · exact fun _ => s.warmEnd_within.dramEq
    · cases hconf : s.dram.configured with
      | false =>
        exact gives_branch hu rfl ((if_neg (by simp [hphase, hovl, hrel])).trans (if_pos (by simp [hconf])))
          ⟨hended s.warmEnd_ended (Within.refl _ s), fun h => absurd h (by decide), fun _ => s.warmEnd_within.dramEq⟩
      | true =>
        let u : State := { s with dram := { s.dram with againFull := false } }
        obtain ⟨c, hc⟩ := u.train_eq .retrain
        have hwithin : Within [.dram] s (u.train .retrain) :=
          (Within.set_dram s { s.dram with againFull := false } rfl rfl).seq (u.train_within .retrain)
        have hdram : ((u.train .retrain).warmEnd).dram = (u.train .retrain).dram := (u.train .retrain).warmEnd_within.dramEq
        refine gives_branch hu rfl ((if_neg (by simp [hphase, hovl, hrel])).trans ((if_neg (by simp [hconf])).trans (if_pos hagain)))
          ⟨hended (u.train .retrain).warmEnd_ended hwithin, fun _ => ?_, fun h => absurd h (by decide)⟩
        rw [hdram, hc]
        exact ⟨rfl, rfl, rfl, rfl⟩
  · obtain ⟨c, hc⟩ := State.trainPass_eq hnext
    have hpass := s.trainPass_within
    have hend := s.trainPass.warmEnd_ended
    have hdram : s.trainPass.warmEnd.dram = s.trainPass.dram := s.trainPass.warmEnd_within.dramEq
    have hacts : s.trainPass.shortEnd = s.trainPass.warmEnd := by
      unfold State.shortEnd
      rw [if_pos (by rw [hc]; exact ⟨hrel, rfl⟩), State.runHeld_of_nil (by rw [hend.held, hpass.pwrEq, hheld])]
    refine gives_branch hu rfl ((if_neg (by simp [htrain])).trans hacts) ⟨hended hend hpass, ?_, ?_⟩
    all_goals
      rw [hdram, hc]

end Sys2Proof.Machine
end

