-- ==== Sys2Proof/Proofs/Supervisor.lean ====
section
/-! PROOF. The fault supervisor and the watchdog (R453 to R467). -/
namespace Sys2Proof.Machine

/-! ### A record is written, or lost (R455, R456) -/

theorem State.upto_max (s : State) (k : Nat) : s.upto (max s.clk.now k) = s.upto k := by
  unfold State.upto
  rw [show max s.clk.now (max s.clk.now k) = max s.clk.now k by omega]

/-- A class count is none of FLT_CTRL to FLT_LOST. -/
theorem classCountA_ne (r : FaultRec) : classCountA r ≠ fltA 0x10 := by
  unfold classCountA fltA
  omega

theorem State.loseRec_eq (s : State) (r : FaultRec) :
    s.loseRec r = ((s.count (fltA 0x10) 1).count (classCountA r) 1).setBit (fltA 4) 1 := rfl

/-- A lost record is counted twice over, and LOST is set. -/
theorem State.loseRec_counts (s : State) (r : FaultRec) :
    (s.loseRec r).counter (classCountA r) = min (s.counter (classCountA r) + 1) top32 ∧
      (s.loseRec r).counter (fltA 0x10) = min (s.counter (fltA 0x10) + 1) top32 ∧
      CtrsBut [classCountA r, fltA 0x10] s (s.loseRec r) ∧ FlagsBut [fltA 4] s (s.loseRec r) ∧
      (s.loseRec r).flag (fltA 4) = s.flag (fltA 4) ||| bit32 1 := by
  rw [State.loseRec_eq]
  have hne := classCountA_ne r
  refine ⟨?_, ?_, fun b hb => ?_, ?_, ?_⟩
  · rw [counter_of_ctr_eq (State.setBit_ctr _ _ _), counter_count_self _ _ 1 Nat.one_pos, counter_count_other _ _ _ _ hne]
  · rw [counter_of_ctr_eq (State.setBit_ctr _ _ _), counter_count_other _ _ _ _ hne.symm, counter_count_self _ _ 1 Nat.one_pos]
  · have hcls : b ≠ classCountA r := fun e => hb (e ▸ List.mem_cons_self)
    have hlost : b ≠ fltA 0x10 := fun e => hb (e ▸ List.mem_cons_of_mem _ List.mem_cons_self)
    rw [counter_of_ctr_eq (State.setBit_ctr _ _ _), counter_count_other _ _ _ _ hcls, counter_count_other _ _ _ _ hlost]
  · exact ((Within.seq (l := [.ctr]) (s.count_within _ _) (State.count_within _ _ _)).flagsBut [fltA 4]).setBit 1 (List.mem_singleton_self _)
  · rw [State.setFltEvt_flag, (Within.seq (l := [.ctr]) (s.count_within _ _) (State.count_within _ _ _)).flagEq]

/-- FAULT_RECORD_WRITE of a running supervisor writes the record at the head of its queue in the first tick that has written none. -/
theorem gives_faultRecordWrite {s : State} {P : State → Prop} (hu : s.undef = false) (hq : s.flt.queue ≠ [])
    (hpll : s.clk.pll.getLsbD 0 = true)
    {u : State} (hat : u = s.upto (max s.clk.now (match s.flt.wroteAt with | some k => k + 1 | none => 0)))
    (h : P u.writeRecord) : Gives .faultRecordWrite s P := by
  rw [hat, State.upto_max] at h
  exact gives_branch hu rfl (if_neg (by simp [hq, hpll])) h

theorem State.takeHead_within (s : State) (rest : List QueuedRec) : Within [.flt] s (s.takeHead rest) := State.modFlt_within _ _

/-- What a ring write leaves where the ring takes the record (R455, R456, R465). -/
theorem State.writeRecord_taken {s : State} {q : QueuedRec} {rest : List QueuedRec} (hq : s.flt.queue = q :: rest)
    (hroom : s.fltFull = false ∨ s.fltWrap = true) :
    s.writeRecord.flt = { s.flt with
      queue := rest, wroteAt := some s.clk.now, wr := s.flt.wr + 1
      ring := smPut (fun _ => 0) s.flt.ring (s.flt.wr.toNat % 256) (q.body.encode q.seq) } ∧
      s.writeRecord.counter (classCountA q.body) = min (s.counter (classCountA q.body) + 1) top32 ∧
      CtrsBut [classCountA q.body] s s.writeRecord ∧ FlagsBut [fltA 4] s s.writeRecord ∧
      s.writeRecord.flag (fltA 4) = s.flag (fltA 4) ||| (if s.fltFull then bit32 2 else 0) ||| bit32 0 := by
  have hkeep : ¬ (s.fltFull && !s.fltWrap) = true := by rcases hroom with h | h <;> simp [h]
  rw [State.writeRecord_of_cons hq, if_neg hkeep]
  have hstore : Within [.flt] s ((s.takeHead rest).storeRecord q) := (s.takeHead_within rest).seq (State.modFlt_within _ _)
  refine ⟨?_, ?_, fun b hb => ?_, ?_, ?_⟩
  · rw [State.setBit_flt, State.setBitIf_flt, State.count_flt]
    rfl
  · rw [counter_of_ctr_eq (State.setBit_ctr _ _ _), counter_of_ctr_eq (State.setBitIf_ctr _ _ _ _), counter_count_self _ _ 1 Nat.one_pos,
      hstore.counterEq]
  · rw [counter_of_ctr_eq (State.setBit_ctr _ _ _), counter_of_ctr_eq (State.setBitIf_ctr _ _ _ _),
      counter_count_other _ _ _ _ (List.ne_of_not_mem_cons hb), hstore.counterEq]
  · exact ((((hstore.flagsBut [fltA 4]).trans ((State.count_within _ _ _).flagsBut _)).setBitIf _ 2 (List.mem_singleton_self _))).setBit 0
      (List.mem_singleton_self _)
  · have hcount : (((s.takeHead rest).storeRecord q).count (classCountA q.body) 1).flag (fltA 4) = s.flag (fltA 4) := by
      rw [(State.count_within _ _ _).flagEq, hstore.flagEq]
    rw [State.setFltEvt_flag]
    unfold State.setBitIf
    split
    · rw [State.setFltEvt_flag, hcount]
    · rw [hcount]
      exact congrArg (· ||| bit32 0) BitVec.or_zero.symm

/-! ### The watchdog (R460 to R462, R467) -/

/-- Settles O58. -/
theorem supervisorAndWatchdog : Obligations.SupervisorAndWatchdog := by
  intro s hu
  refine ⟨fun h => ?_, ?_, fun h => ?_, fun hwatch hpark => ?_, fun hpark => ?_, fun hpark => ?_⟩
  · exact gives_branch hu rfl (if_pos (by simpa using h)) rfl
  · intro q rest hq hpll at_ full cls taken
    have hne : s.flt.queue ≠ [] := hq ▸ List.cons_ne_nil q rest
    obtain ⟨u, hudef⟩ : ∃ u, u = s.upto at_ := ⟨_, rfl⟩
    have huq : u.flt.queue = q :: rest := by rw [hudef]; exact hq
    have hnow : u.clk.now = at_ := by
      rw [hudef]
      exact Nat.max_eq_right (Nat.le_max_left _ _)
    have hup : Within [.clk] s u := hudef ▸ s.upto_within at_
    have huflt : u.flt = s.flt := hup.fltEq
    have hwithin : Within [.clk, .flg, .ctr, .msix, .flt] s u.writeRecord := hup.seq u.writeRecord_within
    have hclk : u.writeRecord.clk = u.clk := u.writeRecord_within.clkEq
    refine ⟨fun hfull hwrap => gives_faultRecordWrite hu hne hpll hudef ?_, fun hroom => gives_faultRecordWrite hu hne hpll hudef ?_⟩
    · have hlost : u.writeRecord = (u.takeHead rest).loseRec q.body := by
        rw [State.writeRecord_of_cons huq, if_pos (by rw [hudef]; show (full && !s.fltWrap) = true; rw [hfull, hwrap]; rfl)]
      obtain ⟨hcls, hlostCtr, hctrs, hflags, hflag⟩ := (u.takeHead rest).loseRec_counts q.body
      have hflt : u.writeRecord.flt = (u.takeHead rest).flt := by rw [hlost, State.loseRec_flt]
      have hhead : Within [.clk, .flt] s (u.takeHead rest) := hup.seq (u.takeHead_within rest)
      rw [← hlost] at hcls hlostCtr hctrs hflags hflag
      have hfltEq : u.writeRecord.flt = { s.flt with queue := rest, wroteAt := some at_ } := by
        rw [hflt, ← hnow, ← huflt]
        rfl
      refine ⟨⟨by rw [hfltEq], by rw [hfltEq], by rw [hclk, hnow], by rw [hfltEq], by rw [hfltEq], ?_, ?_⟩,
        by rw [hfltEq], by rw [hfltEq], ?_, (hhead.ctrsBut _).trans hctrs, ?_, hwithin⟩
      · rw [hcls, hhead.counterEq]
      · exact (hhead.flagsBut _).trans hflags
      · rw [hlostCtr, hhead.counterEq]
      · rw [hflag, hhead.flagEq]
    · obtain ⟨hflt, hcls, hctrs, hflags, hflag⟩ := State.writeRecord_taken huq (by rw [hudef]; exact hroom)
      rw [huflt, hnow] at hflt
      refine ⟨⟨by rw [hflt], by rw [hflt], by rw [hclk, hnow], by rw [hflt], by rw [hflt], ?_, (hup.flagsBut _).trans hflags⟩,
        by rw [hflt], by rw [hflt], (hup.ctrsBut _).trans hctrs, ?_, hwithin⟩
      · rw [hcls, hup.counterEq]
      · rw [hflag, hup.flagEq, hudef]
  · refine gives_branch hu rfl (if_pos ?_) rfl
    rcases h with h | h <;> simp [h]
  · have hclamped : ∀ t : State, t.flt.safePark = true → t.clamped = true := fun t h => by simp [State.clamped, h]
    let u := (s.upto (s.flt.beatAt + 12160)).setBit (fltA 0x14) 1
    have hu1 : Within [.clk, .flg, .msix] s u := (s.upto_within _).seq (State.setBit_within _ _ _)
    let v : State := { u with smb := { u.smb with status := u.smb.status.set u.clk.now 2 } }
    let t := v.modFlt (fun f => { f with safePark := true, lastBeat := f.beatTime })
    have huclk : u.clk = (s.upto (s.flt.beatAt + 12160)).clk := State.setBit_clk _ _ _
    have ht : Within [.smb, .flt] u t := (Within.set_smb u _).seq (State.modFlt_within v _)
    have hparked : t.flt.safePark = true := rfl
    have hclamp : t.clamped = true := hclamped t rfl
    have hflt : u.flt = s.flt := hu1.fltEq
    refine gives_branch (u := t) hu rfl (if_neg (by simp [hwatch, hpark])) ⟨?_, ?_, if_pos hclamp, if_pos hclamp, ?_, fun w => ?_, fun c => ?_, ?_, ?_, ?_,
      ?_, ?_, hu1.seq ht⟩
    · show ({ u.flt with safePark := true, lastBeat := u.flt.beatTime } : Supervisor) = _
      rw [hflt]
    · show (if u.pwr.aonDown = true then none else some (!true)) = _
      rw [hu1.pwrEq]
      rfl
    · simp [State.irqAsserted, hclamp]
    · exact if_pos (.inr hclamp)
    · simp [State.lvlOut, hclamp]
    · simp [State.hostCut, hparked]
    · show u.smb.status.bits ||| 2 = _
      rw [hu1.smbEq]
    · rw [ht.flagEq, State.flag_setBit_self _ _ (by decide)]
      rfl
    · exact (((s.upto_within _).flagsBut _).setBit 1 (List.mem_singleton_self _)).trans (ht.flagsBut _)
    · rw [ht.clkEq, huclk]
      rfl
  · exact gives_branch hu rfl (if_pos hpark) rfl
  · refine gives_branch hu rfl (if_neg (by simp [hpark])) ⟨?_, fun b hb => ?_, State.clearFlag_within _ _ _⟩
    · rw [State.flag_clearFlag_self]
      rfl
    · exact s.flag_clearFlag_other 2 hb

end Sys2Proof.Machine
end

