-- ==== Sys2Proof/Proofs/TestPort.lean ====
section
/-! PROOF. The test access port and the fuse programmer (R483, R484, R488 to R490). -/
namespace Sys2Proof.Machine

/-! ### The boundary cells (R488) -/

/-- Bit k of a mask built by a fold over its bits. -/
theorem testBit_foldl_or {n : Nat} (p : Fin n → Bool) (k : Fin n) (l : List (Fin n)) (m : Nat) :
    (l.foldl (fun m i => if p i then m ||| 1 <<< i.val else m) m).testBit k = (m.testBit k || (decide (k ∈ l) && p k)) := by
  induction l generalizing m with
  | nil => simp
  | cons i r ih =>
    rw [List.foldl_cons, ih]
    by_cases hik : k = i
    · subst hik
      by_cases hp : p k = true <;> simp [hp, Nat.testBit_or, Nat.testBit_shiftLeft]
    · have hne : ¬ k.val = i.val := fun e => hik (Fin.ext e)
      have hbit : (1 <<< i.val).testBit k.val = false := by
        rw [Nat.one_shiftLeft, Nat.testBit_two_pow]
        simp [Ne.symm hne]
      by_cases hp : p i = true <;> simp [hp, hik, Nat.testBit_or, hbit]

theorem State.ballLevels_bit (s : State) (n : Fin 1303) : s.ballLevels.getLsbD n.val = s.ballNow (ballOf n) := by
  unfold State.ballLevels
  rw [BitVec.getLsbD_ofNat, testBit_foldl_or (fun n => s.ballNow (ballOf n))]
  simp [n.isLt]

theorem ballOf_cell (b : Ball) : ballOf b.cell = b := by
  cases b with
  | control i => exact dif_pos i.isLt
  | _ i =>
    simp only [ballOf, Ball.cell]
    grind

/-- A boundary cell captures the level of the ball it stands for. -/
theorem State.ballLevels_cell (s : State) (b : Ball) : s.ballLevels.getLsbD b.cell.val = s.ballNow b := by
  rw [State.ballLevels_bit, ballOf_cell]

/-! ### Update-IR (R488) -/

/-- The instruction register after Update-IR, before the cells capture. -/
def State.irLoaded (s : State) (code : BitVec 8) : State :=
  { s with jtag := { s.jtag with ir := code, dr := s.captured code, bypassed := picksBypass code } }

theorem State.selectIr_jtag (s : State) (next : BitVec 8) : (s.selectIr next).jtag = { s.jtag with
    ir := jtagCode next, dr := s.captured (jtagCode next), bypassed := picksBypass (jtagCode next)
    scan := if picksBoundary (jtagCode next) then (s.irLoaded (jtagCode next)).ballLevels else s.jtag.scan
    cells := if jtagCode next = 1 then Config.shiftedIn s.freeN else s.jtag.cells } := rfl

/-- What Update-IR loads and keeps, and what the boundary cells capture where the core goes on as it was (R488). -/
def Selects (s : State) (code : BitVec 8) (dr : BitVec 512) (t : State) : Prop :=
  t.jtag.ir = code ∧ t.jtag.dr = dr ∧ t.jtag.bypassed = picksBypass code ∧ t.jtag.fusing = s.jtag.fusing ∧
    (picksBoundary code = false → t.jtag.scan = s.jtag.scan) ∧ (code ≠ 1 → t.jtag.cells = s.jtag.cells) ∧
    (picksBoundary code = true → t.pwr.jtagHold = s.pwr.jtagHold → t.jtag.scan =
      { s with jtag := { s.jtag with ir := code, dr := dr, bypassed := picksBypass code } }.ballLevels)

theorem selects_of_jtag {s t : State} {next code : BitVec 8} (hcode : jtagCode next = code) (hj : t.jtag = (s.selectIr next).jtag) :
    Selects s code (s.captured code) t := by
  rw [State.selectIr_jtag, hcode] at hj
  unfold Selects
  rw [hj]
  exact ⟨rfl, rfl, rfl, rfl, fun h => if_neg (by simp [h]), fun h => if_neg h, fun h _ => if_pos h⟩

/-- A core that the instruction has put into its cold reset captures what its clamps show. -/
theorem selects_of_held {s u t : State} {next code : BitVec 8} (hcode : jtagCode next = code) (hu : u.jtag = s.jtag) (hpart : u.part = s.part)
    (hj : t.jtag = (u.selectIr next).jtag) (hhold : t.pwr.jtagHold ≠ s.pwr.jtagHold) : Selects s code (s.captured code) t := by
  rw [State.selectIr_jtag, hcode, hu] at hj
  unfold Selects
  rw [hj]
  refine ⟨rfl, ?_, rfl, rfl, fun h => if_neg (by simp [h]), fun h => if_neg h, fun _ h => absurd h hhold⟩
  unfold State.captured State.idcodeWord State.fuseWord
  rw [hpart]

/-- What each boundary cell drives under a test instruction (R483, R484, R488). -/
def testDrive (s : State) (code : BitVec 8) (t : State) (b : Ball) : Drive :=
  if code = 3 ∨ b.dir = .input ∨ (b.dir = .both ∧ Config.ballDrives t.freeN b.cell.val = false) then Drive.off
  else if b.ac ∧ code = 5 then .pulse (s.jtag.cells.getLsbD b.cell.val)
  else if b.ac ∧ code = 6 then .train (s.jtag.cells.getLsbD b.cell.val)
  else .level (s.jtag.cells.getLsbD b.cell.val)

/-- The core in the cold reset of a test instruction; safe park outlasts it (R461, R489). -/
def State.testHeld (s : State) : State :=
  (((s.coldState false).cause 1).modPwr (fun p => { p with jtagHold := true })).modFlt (fun f => { f with safePark := s.flt.safePark })

theorem State.ballDrive_of_test {s : State} (haon : s.pwr.aonDown = false) (hhold : s.pwr.jtagHold = true) (b : Ball) :
    s.ballDrive b = s.cellDrive b := (if_neg (by simp [haon])).trans (if_pos hhold)

/-- A cell that drives its output captures its own level (R488). -/
theorem State.ballNow_of_output {s : State} (haon : s.pwr.aonDown = false) (hhold : s.pwr.jtagHold = true) {b : Ball} (hb : b.dir = .output)
    (hir : s.jtag.ir ≠ 3) : s.ballNow b = s.jtag.cells.getLsbD b.cell.val := by
  unfold State.ballNow
  rw [State.ballDrive_of_test haon hhold]
  unfold State.cellDrive
  have hdrives : ¬ (s.jtag.ir = 3 ∨ b.dir = .input ∨ (b.dir = .both ∧ Config.ballDrives s.freeN b.cell.val = false)) := by
    rw [hb]
    rintro (h | h | ⟨h, -⟩)
    · exact hir h
    · exact absurd h (by decide)
    · exact absurd h (by decide)
  rw [if_neg hdrives]
  by_cases h5 : b.ac = true ∧ s.jtag.ir = 5
  · rw [if_pos h5]
  · rw [if_neg h5]
    by_cases h6 : b.ac = true ∧ s.jtag.ir = 6
    · rw [if_pos h6]
    · rw [if_neg h6]

/-- A test instruction of a core that none holds yet (R461, R483, R484, R488, R489). -/
theorem State.jtagTest_holds {s : State} {code : BitVec 8} (hfree : s.pwr.jtagHold = false) (hcode : jtagCode code = code)
    (hcells : code ≠ 1) :
    let t := s.jtagTest code
    Selects s code (s.captured code) t ∧ t.pwr.jtagHold = true ∧ t.heldInReset = true ∧
      t.pwr.rstCause = 1 ∧ t.img.state = .unconfigured ∧ t.clu = State.reset.clu ∧ t.wl = State.reset.wl ∧ t.lvl = State.reset.lvl ∧
      t.pin = State.reset.pin ∧ t.flt.safePark = s.flt.safePark ∧ t.flag (fltA 0x14) = s.flag (fltA 0x14) ∧
      (∀ a, t.cfgW a = resetWord a ∧ t.counter a = 0) ∧ t.mem.xram = [] ∧ t.part = s.part ∧ t.smb = s.smb ∧
      t.dram.cells = [] ∧ (∀ b : Ball, t.pwr.aonDown = false → t.ballDrive b = testDrive s code t b) ∧
      (t.pwr.aonDown = false → picksBoundary code = true → ∀ b : Ball, b.dir = .output →
        t.jtag.scan.getLsbD b.cell.val = s.jtag.cells.getLsbD b.cell.val) ∧
      t.clk.now = s.clk.now ∧ t.undef = false ∧ t.pending = s.pending := by
  intro t
  have ht : t = s.testHeld.selectIr code := by
    show State.selectIr (if s.pwr.jtagHold = true then s else s.testHeld) code = _
    rw [if_neg (by simp [hfree])]
  have hj : t.jtag = (s.testHeld.selectIr code).jtag := by rw [ht]
  have hjcells : t.jtag.cells = s.jtag.cells := by rw [hj, State.selectIr_jtag, hcode]; exact if_neg hcells
  have hjir : t.jtag.ir = code := by rw [hj, State.selectIr_jtag, hcode]
  have hhold : t.pwr.jtagHold = true := by rw [ht]; rfl
  have hheld : t.heldInReset = true := by
    unfold State.heldInReset
    rw [hhold, Bool.or_true]
  refine ⟨selects_of_held (u := s.testHeld) hcode rfl rfl hj (by rw [hhold, hfree]; decide), hhold, hheld, ?_⟩
  have hsel : Within [.jtag, .freeN] s.testHeld t := ht ▸ s.testHeld.selectIr_within code
  refine ⟨by rw [hsel.pwrEq]; rfl, by rw [hsel.imgEq]; rfl, hsel.cluEq (by decide), hsel.wlEq, hsel.lvlEq, hsel.pinEq,
    by rw [hsel.fltEq]; rfl, ?_, fun a => ⟨?_, ?_⟩, hsel.xramEq, hsel.partEq, hsel.smbEq, hsel.bytesEq.1, fun b haon => ?_,
    fun haon hpicks b hb => ?_, by rw [hsel.clkEq]; rfl, hsel.undefEq, hsel.pendingEq⟩
  · rw [hsel.flagEq]
    exact (s.coldState_flag false).2
  · exact congrArg (fun m => smGet resetWord m a) hsel.cfgEq
  · exact hsel.counterEq a
  · rw [State.ballDrive_of_test haon hhold]
    unfold State.cellDrive testDrive
    rw [hjcells, hjir]
  · have hscan : t.jtag.scan = (s.testHeld.irLoaded code).ballLevels := by
      rw [hj, State.selectIr_jtag, hcode]
      exact if_pos hpicks
    have hir : code ≠ 3 := by
      rintro rfl
      exact absurd hpicks (by decide)
    rw [hscan, State.ballLevels_cell]
    exact State.ballNow_of_output (s := s.testHeld.irLoaded code) (by rw [ht] at haon; exact haon) rfl hb hir

/-! ### Fuses (R490) -/

theorem State.fuseRefuses_iff (s : State) (v : BitVec 512) (inRange : Bool) : s.fuseRefuses v inRange = true ↔
    s.pwr.resetLow = false ∨ inRange = false ∨
      (v.getLsbD 384 = true ∧ (s.part.keySet = true ∨ s.part.keyHash &&& ~~~(v.setWidth 384) ≠ 0)) := by
  unfold State.fuseRefuses
  simp only [Bool.or_eq_true, Bool.not_eq_true', Bool.and_eq_true, decide_eq_true_eq, or_assoc]

/-- A key programs KEY_HASH and KEY_SET; SIGNED_ONLY is programmed where bit 385 stands alone. -/
theorem Part.fused_eq (p : Part) (v : BitVec 512) : p.fused v = { p with
    keyHash := if v.getLsbD 384 then p.keyHash ||| v.setWidth 384 else p.keyHash
    keySet := p.keySet || v.getLsbD 384
    signedOnly := p.signedOnly || decide (v.setWidth 386 = 1#386 <<< 385) } := by
  unfold Part.fused
  by_cases hkey : v.getLsbD 384 = true
  · have halone : ¬ v.setWidth 386 = 1#386 <<< 385 := fun h => by
      have hbit : (v.setWidth 386).getLsbD 384 = (1#386 <<< 385).getLsbD 384 := by rw [h]
      rw [BitVec.getLsbD_setWidth, BitVec.getLsbD_shiftLeft, hkey] at hbit
      exact absurd hbit (by decide)
    rw [if_pos hkey, if_pos hkey, hkey, Bool.or_true, decide_eq_false halone, Bool.or_false]
  · rw [if_neg hkey, if_neg hkey]
    rw [Bool.not_eq_true] at hkey
    rw [hkey, Bool.or_false]
    split
    · next h => rw [decide_eq_true h, Bool.or_true]
    · next h => rw [decide_eq_false h, Bool.or_false]

/-- Settles O59. -/
theorem testPort : Obligations.TestPort := by
  intro s hu selects shows again drives holds
  have hplain : ∀ {code : BitVec 8} {dr : BitVec 512}, jtagCode code = code → s.captured code = dr → shows code dr (s.selectIr code) :=
    fun hcode hdr => ⟨hdr ▸ selects_of_jtag hcode rfl, s.selectIr_within _⟩
  refine ⟨fun hfree => ?_, fun hheld => ?_, fun next boot => ?_, fun v inRange => ?_, fun v hv => ?_⟩
  · have hact : s.pwr.jtagHold ≠ true := by simp [hfree]
    refine ⟨?_, ?_, ?_, fun code hcode => ?_, ?_, ?_, ?_, ?_, ?_⟩
    · exact gives_branch hu rfl (if_neg hact) ⟨hplain rfl rfl, rfl⟩
    · exact gives_branch hu rfl (if_neg hact) (hplain rfl rfl)
    · exact gives_branch hu rfl (if_neg hact) (hplain rfl rfl)
    · exact gives_branch hu rfl ((if_pos hcode).trans (if_neg hact)) (hplain rfl rfl)
    all_goals exact gives_next hu rfl (State.jtagTest_holds hfree rfl (by decide))
  · have hagain : ∀ {code : BitVec 8}, jtagCode code = code → again code (s.jtagTest code) := fun {code} hcode => by
      have ht : s.jtagTest code = s.selectIr code := congrArg (fun u => State.selectIr u code) (if_pos hheld)
      rw [ht]
      exact hplain hcode rfl
    refine ⟨?_, ?_, ?_, fun code => ?_, ?_, ?_, ?_, ?_, ?_⟩
    · exact gives_branch hu rfl (if_pos hheld) rfl
    · exact gives_branch hu rfl (if_pos hheld) rfl
    · exact gives_branch hu rfl (if_pos hheld) rfl
    · by_cases hcode : jtagCode code = 0xFF
      · exact gives_branch hu rfl ((if_pos hcode).trans (if_pos hheld)) rfl
      · exact gives_branch hu rfl (if_neg hcode) rfl
    all_goals exact gives_next hu rfl (hagain rfl)
  · intro code
    refine ⟨fun hfree => ?_, fun hheld hcore => ?_, fun hheld hcore => ?_⟩
    · exact gives_branch hu rfl (if_pos (by simp [hfree])) rfl
    · exact gives_branch hu rfl ((if_neg (by simp [hheld])).trans (if_pos hcore)) ⟨selects_of_jtag rfl rfl, s.selectIr_within next⟩
    · let u := (s.selectIr next).modPwr (fun p => { p with jtagHold := false })
      have hexit : ∀ P : State → Prop, P (u.coldRelease boot) → Gives (.jtagTestExit next boot) s P := fun P h =>
        gives_branch hu rfl ((if_neg (by simp [hheld])).trans (if_neg (by simpa using hcore))) h
      have hwithin : Within [.pwr, .jtag, .freeN] s u := (s.selectIr_within next).seq (State.modPwr_within _ _)
      have hrel := u.coldRelease_within boot
      have hsel : selects code (s.captured code) (u.coldRelease boot) := selects_of_jtag rfl hrel.jtagEq
      have hpins : u.heldInReset = (s.pwr.porHold || s.pwr.resetLow || s.pwr.perstLow || false) := rfl
      refine ⟨fun hpin => hexit _ ⟨hsel, ?_⟩, fun hpor hreset hperst => hexit _ ⟨hsel, ?_⟩⟩
      · have hstill : u.heldInReset = true := by
          rw [hpins, Bool.or_false]
          rcases hpin with h | h | h <;> simp [h]
        rw [State.coldRelease_of_held hstill]
        exact ⟨rfl, hstill, hwithin⟩
      · have hgone : u.heldInReset = false := by rw [hpins, hpor, hreset, hperst]; rfl
        obtain ⟨htb, -, -, hwatch, -, -, -, -, -, -, -, hnow, hpwr, hreleased⟩ := State.coldRelease_released hgone boot
        refine ⟨?_, htb, hwatch, hnow, hreleased.cluEq (by decide)⟩
        unfold State.heldInReset at hgone ⊢
        rwa [hpwr]
  · intro refuses
    refine ⟨fun hbusy => ?_, fun hfree hidle hrefuses => ?_, fun hfree hidle hgood => ?_⟩
    · exact gives_branch hu rfl (if_pos hbusy) rfl
    · have hrefuse := ((s.modJtag (fun j => { j with ir := 0x21, bypassed := false })).fuseRefuses_iff v inRange).mpr hrefuses
      exact gives_framed hu (fun t => execFuseProg_within v inRange s) rfl
        ((if_neg (by simp [hfree, hidle])).trans (if_pos hrefuse)) fun hw => ⟨rfl, hidle, hw⟩
    · have htake : ¬ (s.modJtag (fun j => { j with ir := 0x21, bypassed := false })).fuseRefuses v inRange = true :=
        fun h => hgood (((State.fuseRefuses_iff _ v inRange)).mp h)
      exact gives_framed hu (fun t => execFuseProg_within v inRange s) rfl
        ((if_neg (by simp [hfree, hidle])).trans (if_neg htake)) fun hw => ⟨rfl, rfl, hw⟩
  · have hdone : ∀ failed : Bool, exec (.fuseProgDone failed) s = .next
        ((s.modJtag (fun j => { j with fusing := none })).modPart
          (fun p => { (if failed then p else p.fused v) with fuseErr := failed, fuseDone := !failed })) := fun failed => by
      show execFuseProgDone failed s = _
      rw [execFuseProgDone, guarded_next hu, hv]
    refine ⟨⟨_, hdone true, rfl, rfl, execFuseProgDone_within true s (hdone true)⟩,
      ⟨_, hdone false, ?_, rfl, execFuseProgDone_within false s (hdone false)⟩⟩
    show ({ s.part.fused v with fuseErr := false, fuseDone := true } : Part) = _
    rw [Part.fused_eq]

end Sys2Proof.Machine
end

