-- ==== Sys2Proof/Proofs/CounterClears.lean ====
section
/-! PROOF. The counter clears of every block (R410). -/
namespace Sys2Proof.Machine

/-- What hardware has counted in the present tick, which a clear leaves (R410). -/
def State.countedNow (s : State) (a : Nat) : Nat :=
  if (smGet (fun _ => ({} : Ctr)) s.ctr a).tick = s.clk.now then (smGet (fun _ => ({} : Ctr)) s.ctr a).inc else 0

/-- A clear of the counters of a list. -/
def Cleared (l : List Nat) (s t : State) : Prop := (∀ a ∈ l, t.counter a = s.countedNow a) ∧ CtrsBut l s t ∧ Within [.ctr] s t

theorem Ctr.clear_val (c : Ctr) (t : Nat) : (c.clear t).val = if c.tick = t then c.inc else 0 := by
  unfold Ctr.clear
  split <;> rfl

theorem State.clearCtrs_cleared (s : State) (l : List Nat) : Cleared l s (s.clearCtrs l) := by
  refine ⟨fun a ha => ?_, fun b hb => ?_, State.clearCtrs_within s l⟩
  · unfold State.counter State.countedNow
    rw [smGet_clearCtrs, if_pos ha, Ctr.clear_val]
  · unfold State.counter
    rw [smGet_clearCtrs, if_neg hb]

theorem State.clearCtr_cleared (s : State) (a : Nat) : Cleared [a] s (s.clearCtr a) := s.clearCtrs_cleared [a]

theorem State.clearCtr_count_counter (s : State) (a : Nat) {k : Nat} (hk : 0 < k) :
    ((s.clearCtr a).count a k).counter a = min (s.countedNow a + k) top32 := by
  rw [counter_count_self _ _ _ hk, s.clearCtr_cleared a |>.1 a (List.mem_singleton_self a)]

theorem State.count_clearCtr_counter (s : State) (a : Nat) {k : Nat} (hk : 0 < k) :
    ((s.count a k).clearCtr a).counter a = s.countedNow a + k := by
  have hctr : smGet (fun _ => ({} : Ctr)) (s.count a k).ctr a = (smGet (fun _ => ({} : Ctr)) s.ctr a).count top32 s.clk.now k := by
    unfold State.count
    rw [if_neg (by omega)]
    rw [smGet_mod_self]
  rw [((s.count a k).clearCtr_cleared a).1 a (List.mem_singleton_self a)]
  unfold State.countedNow
  rw [hctr, State.count_clk]
  exact if_pos rfl

/-- A counter clear. -/
theorem gives_clears {c : Instr} {s : State} {l : List Nat} (hu : s.undef = false)
    (hc : exec c s = if s.undef = true then .fault .behaviourUndefined else .next (s.clearCtrs l)) : Gives c s (Cleared l s) :=
  gives_next hu hc (s.clearCtrs_cleared l)

/-- A counter clear of a pin group or a pin that the part may lack (R3). -/
theorem gives_clears_where {c : Instr} {s : State} {l : List Nat} {b : Bool} (hu : s.undef = false)
    (hc : exec c s = if s.undef = true then .fault .behaviourUndefined else .next (if b then s.clearCtrs l else s)) :
    (b = true → Gives c s (Cleared l s)) ∧ (b = false → Gives c s fun t => t = s) :=
  ⟨fun hb => gives_branch hu hc (if_pos hb) (s.clearCtrs_cleared l), fun hb => gives_branch hu hc (if_neg (by simp [hb])) rfl⟩

theorem cluCntClr_gives {s : State} (n : Clu) (hu : s.undef = false) : Gives (.cluCntClr n) s fun t =>
    t.counter (cluA n 0x38) = s.countedNow (cluA n 0x38) ∧ CtrsBut [cluA n 0x38] s t ∧
      t.clu[n] = { s.clu[n] with starts := s.clu[n].starts.clear s.clk.now } ∧ CluBut n s t ∧ Within [.ctr, .clu] s t := by
  obtain ⟨hc, hb, hw⟩ := s.clearCtr_cleared (cluA n 0x38)
  have hm := (s.clearCtr (cluA n 0x38)).modClu_within n fun k => { k with starts := k.starts.clear s.clk.now }
  have hclu : (s.clearCtr (cluA n 0x38)).clu = s.clu := hw.cluEq (by decide)
  refine gives_next hu rfl ⟨(hm.counterEq _).trans (hc _ (List.mem_singleton_self _)), hb.trans (hm.ctrsBut _), ?_, fun m hne => ?_, hw.seq hm⟩
  · exact (State.modClu_self _ _ _).trans rfl
  · exact (State.modClu_other _ _ _ hne).trans (getClu_of_eq hclu m)

/-- Settles O32: each clear takes its own list of counters to what the present tick has counted. -/
theorem counterClears : Obligations.CounterClears := by
  unfold Obligations.CounterClears
  intro s hu fresh cleared
  have groups := fun g : Pg => And.intro (gives_clears_where (c := .pgCntClr g) (l := [pgA g 0xC, pgA g 0x3C]) hu rfl)
    (gives_clears_where (c := .tsgCntClr g) (l := [tsgA g 0x10]) hu rfl)
  exact ⟨fun n => ⟨cluCntClr_gives n hu, gives_clears hu rfl, gives_clears hu rfl⟩,
    fun w => ⟨gives_clears (l := [wlA w 0x34]) hu rfl, gives_clears (l := [wlA w 0x120]) hu rfl⟩,
    fun g => ⟨fun hg => ⟨(groups g).1.1 hg, (groups g).2.1 hg⟩, fun hg => ⟨(groups g).1.2 hg, (groups g).2.2 hg⟩⟩,
    fun p => gives_clears_where (c := .pinCntClr p) (l := [pinA p 4]) hu rfl,
    fun c => gives_clears (l := [lvlA c 0x1C]) hu rfl, fun g => gives_clears (l := [lgA g 4]) hu rfl,
    gives_clears hu rfl, gives_clears hu rfl, gives_clears hu rfl, gives_clears hu rfl, gives_clears hu rfl, gives_clears hu rfl,
    gives_clears hu rfl, gives_clears (l := [clkA 0x28]) hu rfl, gives_clears (l := [0x18]) hu rfl,
    fun a k hk => ⟨s.count_clearCtr_counter a hk, s.clearCtr_count_counter a hk⟩⟩

end Sys2Proof.Machine
end

