-- ==== Sys2Proof/Proofs/LinkReset.lean ====
section
/-! PROOF. What a fold over an index set does at each index, the ports of the link, and the link reset (R304, R326). -/
namespace Sys2Proof.Machine

/-! ### A fold whose step at an index touches that index alone -/

/-- A fold of steps each of which acts on its own index: every index of the list is acted on once, and no other changes. -/
theorem foldl_each {ι α : Type} [DecidableEq ι] (inv : State → Prop) (get : State → ι → α) (f : State → ι → State) (g : ι → α → α)
    (hinv : ∀ u p, inv u → inv (f u p)) (hself : ∀ u p, inv u → get (f u p) p = g p (get u p))
    (hother : ∀ u p q, q ≠ p → get (f u p) q = get u q) :
    ∀ (l : List ι) (s : State), l.Nodup → inv s → ∀ q, get (l.foldl f s) q = if q ∈ l then g q (get s q) else get s q := by
  intro l
  induction l with
  | nil => intro s _ _ q; rfl
  | cons x r ih =>
    intro s hn hs q
    obtain ⟨hx, hr⟩ := List.nodup_cons.mp hn
    rw [List.foldl_cons, ih (f s x) hr (hinv s x hs) q]
    by_cases hq : q = x
    · subst hq
      rw [if_neg hx, if_pos List.mem_cons_self, hself s q hs]
    · rw [hother s x q hq]
      simp [hq]

/-- The same over a whole index set. -/
theorem foldl_allFin {n : Nat} {α : Type} (inv : State → Prop) (get : State → Fin n → α) (f : State → Fin n → State) (g : Fin n → α → α)
    (hinv : ∀ u p, inv u → inv (f u p)) (hself : ∀ u p, inv u → get (f u p) p = g p (get u p))
    (hother : ∀ u p q, q ≠ p → get (f u p) q = get u q) {s : State} (hs : inv s) (q : Fin n) :
    get ((allFin n).foldl f s) q = g q (get s q) := by
  exact (foldl_each inv get f g hinv hself hother (allFin n) s (List.nodup_finRange n) hs q).trans (if_pos (List.mem_finRange q))

/-- What each step of a fold keeps, the fold keeps. -/
theorem foldl_rel {ι : Type} (R : State → State → Prop) (refl : ∀ u, R u u) (trans : ∀ {u v w}, R u v → R v w → R u w)
    (f : State → ι → State) (h : ∀ u x, R u (f u x)) (l : List ι) (s : State) : R s (l.foldl f s) := by
  induction l generalizing s with
  | nil => exact refl s
  | cons x r ih => exact trans (h s x) (ih _)

/-- A bit that is set where a condition holds reads 1 there. -/
theorem State.flagBit_setBitIf (s : State) {c : Bool} {a i : Nat} (hc : c = true) (ha : a ∉ pendWords) (hi : (bit32 i).getLsbD i = true) :
    ((s.setBitIf c a i).flag a).getLsbD i = true := by
  rw [State.setBitIf, if_pos hc]
  exact State.flagBit_setBit s ha hi

/-! ### The ports (R304) -/

/-- Nothing of the link changes but its ports. -/
def PortsOnly (s t : State) : Prop := { t.link with ports := s.link.ports } = s.link

theorem PortsOnly.refl (s : State) : PortsOnly s s := rfl

theorem PortsOnly.trans {s t u : State} (h : PortsOnly s t) (k : PortsOnly t u) : PortsOnly s u := by
  unfold PortsOnly at *
  rw [← h, ← k]

theorem PortsOnly.of_eq {s t : State} (h : t.link = s.link) : PortsOnly s t := by
  unfold PortsOnly
  rw [h]

theorem PortsOnly.proj {α : Type} {s t : State} (h : PortsOnly s t) (p : Link → α) (hp : ∀ k v, p { k with ports := v } = p k) :
    p t.link = p s.link := by
  rw [← hp t.link s.link.ports, h]

theorem State.modPort_portsOnly (s : State) (p : Fin 4) (f : Port → Port) : PortsOnly s (s.modPort p f) := rfl

theorem State.modPort_port_self (s : State) (p : Fin 4) (f : Port → Port) : (s.modPort p f).link.ports[p] = f s.link.ports[p] := by
  simp [State.modPort]

theorem State.modPort_port_other (s : State) {p q : Fin 4} (f : Port → Port) (h : q ≠ p) :
    (s.modPort p f).link.ports[q] = s.link.ports[q] := by
  have hne : p.val ≠ q.val := fun e => h (Fin.ext e.symm)
  simp [State.modPort, Vector.getElem_set_ne _ _ hne]

theorem port_of_link {s t : State} (h : t.link = s.link) (p : Fin 4) : t.link.ports[p] = s.link.ports[p] := by rw [h]

/-- LNK_CTRL in force and the image decide which ports are enabled. -/
theorem State.portEn_congr {s t : State} (he : t.eff = s.eff) (hi : t.img = s.img) (p : Fin 4) : t.portEn p = s.portEn p := by
  unfold State.portEn State.lnkEn State.configured State.effB State.effW
  rw [he, hi]

theorem State.portFall_link (s : State) (p : Fin 4) : (s.portFall p).link = (s.modPort p fun _ => { state := .down }).link :=
  (State.setBitIf_within _ _ _ _).linkEq

theorem State.portFall_only (s : State) (p : Fin 4) : PortsOnly s (s.portFall p) :=
  (s.modPort_portsOnly p _).trans (PortsOnly.of_eq (s.portFall_link p))

theorem State.portFall_self (s : State) (p : Fin 4) : (s.portFall p).link.ports[p] = { state := .down } := by
  rw [port_of_link (s.portFall_link p), State.modPort_port_self]

theorem State.portFall_other (s : State) {p q : Fin 4} (h : q ≠ p) : (s.portFall p).link.ports[q] = s.link.ports[q] := by
  rw [port_of_link (s.portFall_link p), State.modPort_port_other _ _ h]

theorem State.portFall_flags (s : State) (p : Fin 4) : FlagsBut [lnkA 0x40] s (s.portFall p) :=
  ((State.modPort_within s p _).flagsBut _).setBitIf _ _ (List.mem_singleton_self _)

/-- A port that trains: it was DOWN and is enabled. -/
theorem State.portTrain_of_trains {s : State} {p : Fin 4} (he : s.portEn p = true) (hd : s.link.ports[p].state = .down) :
    s.portTrain p = (s.modPort p (fun q => { q with state := .train })).count (lnkA (0x114 + 0x20 * p.val)) 1 :=
  if_pos (by rw [he, hd]; rfl)

theorem State.portTrain_of_not {s : State} {p : Fin 4} (h : ¬ (s.portEn p = true ∧ s.link.ports[p].state = .down)) : s.portTrain p = s :=
  if_neg (by simpa using h)

theorem State.portTrain_only (s : State) (p : Fin 4) : PortsOnly s (s.portTrain p) := by
  by_cases h : s.portEn p = true ∧ s.link.ports[p].state = .down
  · rw [State.portTrain_of_trains h.1 h.2]
    exact (s.modPort_portsOnly p _).trans (PortsOnly.of_eq (State.count_within _ _ _).linkEq)
  · rw [State.portTrain_of_not h]
    exact PortsOnly.refl s

theorem State.portTrain_self_of_trains {s : State} {p : Fin 4} (he : s.portEn p = true) (hd : s.link.ports[p].state = .down) :
    (s.portTrain p).link.ports[p] = { s.link.ports[p] with state := .train } := by
  rw [State.portTrain_of_trains he hd, port_of_link (State.count_within _ _ _).linkEq, State.modPort_port_self]

theorem State.portTrain_other (s : State) {p q : Fin 4} (h : q ≠ p) : (s.portTrain p).link.ports[q] = s.link.ports[q] := by
  by_cases ht : s.portEn p = true ∧ s.link.ports[p].state = .down
  · rw [State.portTrain_of_trains ht.1 ht.2, port_of_link (State.count_within _ _ _).linkEq, State.modPort_port_other _ _ h]
  · rw [State.portTrain_of_not ht]

/-- What one port does as it follows LNK_CTRL. -/
def State.portFollow (s : State) (p : Fin 4) : State :=
  if s.portEn p then s.portTrain p else if s.link.ports[p].state = .down then s else s.portFall p

theorem State.portsFollow_eq (s : State) : s.portsFollow = (allFin 4).foldl State.portFollow s := rfl

theorem State.portFollow_only (s : State) (p : Fin 4) : PortsOnly s (s.portFollow p) := by
  unfold State.portFollow
  split
  · exact s.portTrain_only p
  · split
    · exact PortsOnly.refl s
    · exact s.portFall_only p

theorem State.portFollow_other (s : State) {p q : Fin 4} (h : q ≠ p) : (s.portFollow p).link.ports[q] = s.link.ports[q] := by
  unfold State.portFollow
  split
  · exact s.portTrain_other h
  · split
    · rfl
    · exact s.portFall_other h

theorem State.portFollow_flags (s : State) (p : Fin 4) : FlagsBut [lnkA 0x40] s (s.portFollow p) := by
  unfold State.portFollow
  split
  · exact (s.portTrain_within p).flagsBut _
  · split
    · exact FlagsBut.refl _ s
    · exact s.portFall_flags p

/-- An enabled port that is DOWN trains, another one that is enabled stays as it is, and one that is not enabled is DOWN. -/
theorem State.portFollow_self_state (s : State) (p : Fin 4) : (s.portFollow p).link.ports[p].state =
    if s.portEn p then (if s.link.ports[p].state = .down then .train else s.link.ports[p].state) else .down := by
  unfold State.portFollow
  by_cases he : s.portEn p = true
  · by_cases hd : s.link.ports[p].state = .down
    · rw [if_pos he, if_pos he, if_pos hd, State.portTrain_self_of_trains he hd]
    · rw [if_pos he, if_pos he, if_neg hd, State.portTrain_of_not fun h => hd h.2]
  · by_cases hd : s.link.ports[p].state = .down
    · rw [if_neg he, if_neg he, if_pos hd, hd]
    · rw [if_neg he, if_neg he, if_neg hd, s.portFall_self]

theorem State.portFollow_within (s : State) (p : Fin 4) : Within [.flg, .ctr, .link, .msix] s (s.portFollow p) := by
  unfold State.portFollow
  split
  · exact (s.portTrain_within p).mono rfl
  · split
    · exact Within.refl _ s
    · exact (s.portFall_within p).mono rfl

/-- The enabled ports train and the others are DOWN, where all were DOWN. -/
theorem State.portsFollow_state {s : State} (hd : ∀ p : Fin 4, s.link.ports[p].state = .down) (p : Fin 4) :
    s.portsFollow.link.ports[p].state = if s.portEn p then .train else .down := by
  rw [State.portsFollow_eq, foldl_allFin (fun u => u.eff = s.eff ∧ u.img = s.img) (fun u q => u.link.ports[q].state) State.portFollow
    (fun q st => if s.portEn q then (if st = .down then .train else st) else .down)
    (fun u q h => ⟨(u.portFollow_within q).effEq.trans h.1, (u.portFollow_within q).imgEq.trans h.2⟩)
    (fun u q h => (u.portFollow_self_state q).trans (by rw [State.portEn_congr h.1 h.2]))
    (fun u q r h => by rw [u.portFollow_other h]) ⟨rfl, rfl⟩ p, hd p, if_pos rfl]

theorem State.portsFollow_only (s : State) : PortsOnly s s.portsFollow :=
  foldl_rel PortsOnly PortsOnly.refl PortsOnly.trans State.portFollow State.portFollow_only (allFin 4) s

theorem State.portsFollow_flags (s : State) : FlagsBut [lnkA 0x40] s s.portsFollow :=
  foldl_rel (FlagsBut [lnkA 0x40]) (FlagsBut.refl _) FlagsBut.trans State.portFollow State.portFollow_flags (allFin 4) s

/-! ### The fall of every port -/

def State.portsFall (s : State) : State := (allFin 4).foldl State.portFall s

theorem State.portsFall_down (s : State) (p : Fin 4) : s.portsFall.link.ports[p] = { state := .down } := by
  unfold State.portsFall
  exact foldl_allFin (s := s) (fun _ => True) (fun u q => u.link.ports[q]) State.portFall (fun _ _ => { state := .down })
    (fun _ _ _ => trivial) (fun u q _ => u.portFall_self q) (fun u _ _ h => u.portFall_other h) trivial p

theorem State.portsFall_only (s : State) : PortsOnly s s.portsFall :=
  foldl_rel PortsOnly PortsOnly.refl PortsOnly.trans State.portFall State.portFall_only (allFin 4) s

theorem State.portsFall_flags (s : State) : FlagsBut [lnkA 0x40] s s.portsFall :=
  foldl_rel (FlagsBut [lnkA 0x40]) (FlagsBut.refl _) FlagsBut.trans State.portFall State.portFall_flags (allFin 4) s

theorem State.portsFall_within (s : State) : Within [.flg, .link, .msix] s s.portsFall :=
  (Within.refl _ s).fold fun u q h => h.step (u.portFall_within q) rfl

/-! ### LINK_RESET (R326) -/

/-- The link once a reset has left the view, its ports apart. -/
def State.linkLeft (s : State) : State :=
  s.leaveView.modLink (fun k => { k with heldMsgs := [], seen := [], beacons := [], origins := [], reach := 0
                                         quietSince := s.clk.now, lastBeacon := none, ensEpoch := 0, splitSeen := [] })

theorem State.linkLeft_within (s : State) : Within [.link] s s.linkLeft :=
  (State.leaveView_within s).step (State.modLink_within _ _) rfl

theorem State.linkReset_eq (s : State) :
    s.linkReset = (s.linkLeft.portsFall.portsFollow).setBitIf (decide (s.link.state = .member)) (lnkA 0x40) 1 := rfl

theorem State.linkReset_link (s : State) : s.linkReset.link = s.linkLeft.portsFall.portsFollow.link :=
  (State.setBitIf_within _ _ _ _).linkEq

theorem State.linkReset_only (s : State) : PortsOnly s.linkLeft s.linkReset :=
  (s.linkLeft.portsFall_only.trans (State.portsFollow_only _)).trans (PortsOnly.of_eq s.linkReset_link)

theorem State.linkReset_port (s : State) (p : Fin 4) : s.linkReset.link.ports[p].state = if s.portEn p then .train else .down := by
  have hfall : Within [.flg, .link, .msix] s s.linkLeft.portsFall := s.linkLeft_within.seq s.linkLeft.portsFall_within
  rw [port_of_link s.linkReset_link, State.portsFollow_state (fun q => by rw [s.linkLeft.portsFall_down]),
    State.portEn_congr hfall.effEq hfall.imgEq]

theorem State.linkReset_flags (s : State) : FlagsBut [lnkA 0x40] s s.linkReset :=
  (((s.linkLeft_within.flagsBut _).trans s.linkLeft.portsFall_flags).trans (State.portsFollow_flags _)).setBitIf _ _
    (List.mem_singleton_self _)

theorem State.linkReset_left {s : State} (h : s.link.state = .member) : (s.linkReset.flag (lnkA 0x40)).getLsbD 1 = true := by
  rw [State.linkReset_eq]
  exact State.flagBit_setBitIf _ (decide_eq_true h) (by decide) (by decide)

/-- Settles O13: the view is left, every port falls and the enabled ones train, and the PENDING overlays return to VALID. -/
theorem linkResetLeaves : Obligations.LinkResetLeaves := by
  unfold Obligations.LinkResetLeaves
  intro s hu
  obtain ⟨r, hr⟩ : ∃ r, r = s.linkReset := ⟨_, rfl⟩
  have hreset : Within [.flg, .ctr, .link, .msix] s r := hr ▸ State.linkReset_within s
  have hrest : Within [.ovl, .cmd, .more] r (r.dropPending.cmdTake (lnkA 0) 1) :=
    (State.dropPending_within r).seq (State.cmdTake_within _ _ _)
  have hlink : (r.dropPending.cmdTake (lnkA 0) 1).link = r.link := hrest.linkEq
  have hkeep {α : Type} (f : Link → α) (hf : ∀ k v, f { k with ports := v } = f k) : f r.link = f s.linkLeft.link :=
    hr ▸ s.linkReset_only.proj f hf
  have htakes : Takes (lnkA 0) 1 s (r.dropPending.cmdTake (lnkA 0) 1) :=
    (State.cmdTake_takes r.dropPending (lnkA 0) 1).from_eq
      ((State.dropPending_within r).cmdEq.trans hreset.cmdEq) ((State.dropPending_within r).moreEq.trans hreset.moreEq)
  obtain ⟨hcmd, -, hcmds⟩ := htakes
  refine gives_next (u := r.dropPending.cmdTake (lnkA 0) 1) hu (by rw [hr]; rfl) ?_
  rw [hlink]
  refine ⟨hkeep Link.state fun _ _ => rfl, hkeep Link.view fun _ _ => rfl, hkeep Link.memberIdx fun _ _ => rfl,
    hkeep Link.auth fun _ _ => rfl, hkeep Link.pendView fun _ _ => rfl, hkeep Link.origins fun _ _ => rfl,
    hkeep Link.heldMsgs fun _ _ => rfl, hkeep Link.sent fun _ _ => rfl, hkeep Link.seen fun _ _ => rfl, ?_,
    hkeep Link.reach fun _ _ => rfl, fun p => hr ▸ s.linkReset_port p, fun h => ?_, hcmd, hcmds, ?_, hreset.seq hrest⟩
  · rw [← hreset.ovlEq]; rfl
  · rw [hrest.flagEq, hr]; exact State.linkReset_left h
  · exact (hr ▸ s.linkReset_flags).trans (hrest.flagsBut _)

end Sys2Proof.Machine
end

