-- ==== Sys2Proof/Proofs/BridgeTimers.lean ====
section
/-! PROOF. RW words at their boundaries (R411), the producers of the Bridge (R283, R285, R289), its timers (R294, R295) and its
software events (R296). -/
namespace Sys2Proof.Machine

/-! ### Words and masks -/

/-- Words that agree under a field's mask agree in the field. -/
theorem fld_congr {x y : Word} {hi lo : Nat} (h : ∀ i, lo ≤ i → i ≤ hi → x.getLsbD i = y.getLsbD i) (hle : lo ≤ hi) :
    fld x hi lo = fld y hi lo := by
  unfold fld bitsOf
  apply Nat.eq_of_testBit_eq
  intro i
  rw [Nat.testBit_mod_two_pow, Nat.testBit_mod_two_pow, Nat.testBit_shiftRight, Nat.testBit_shiftRight]
  by_cases hi' : i < hi - lo + 1
  · have := h (lo + i) (by omega) (by omega)
    rw [BitVec.getLsbD, BitVec.getLsbD] at this
    rw [this]
  · simp [hi']

theorem getLsbD_fmask {hi lo i : Nat} (h1 : lo ≤ i) (h2 : i ≤ hi) (h3 : i < 32) : (fmask hi lo).getLsbD i = true := by
  unfold fmask
  rw [BitVec.getLsbD_ofNat, Nat.testBit_shiftLeft, Nat.testBit_two_pow_sub_one]
  simp only [Bool.and_eq_true, decide_eq_true_eq]
  omega

theorem getLsbD_merge (x y m : Word) (i : Nat) : (merge x y m).getLsbD i = if m.getLsbD i then y.getLsbD i else x.getLsbD i := by
  unfold merge
  rw [BitVec.getLsbD_or, BitVec.getLsbD_and, BitVec.getLsbD_and, BitVec.getLsbD_not]
  by_cases hi : i < 32
  · cases m.getLsbD i <;> simp [hi]
  · have hge : 32 ≤ i := by omega
    simp [BitVec.getLsbD_of_ge x i hge, BitVec.getLsbD_of_ge y i hge, BitVec.getLsbD_of_ge m i hge]

/-- A mask of all bits takes the whole word. -/
theorem merge_all (x y : Word) : merge x y (~~~0) = y := by
  apply BitVec.eq_of_getLsbD_eq
  intro i hi
  rw [getLsbD_merge, if_pos (by rw [BitVec.getLsbD_not, decide_eq_true hi]; simp)]

/-- A field that a mask names is taken whole. -/
theorem fld_merge (x y : Word) {hi lo : Nat} (hle : lo ≤ hi) (h32 : hi < 32) : fld (merge x y (fmask hi lo)) hi lo = fld y hi lo :=
  fld_congr (fun i h1 h2 => by rw [getLsbD_merge, if_pos (getLsbD_fmask h1 h2 (by omega))]) hle

/-! ### Boundaries (R411) -/

theorem State.settledW_congr {s t : State} (hc : t.cfg = s.cfg) (hw : t.was = s.was) (hn : t.clk.now = s.clk.now) (a : Nat) :
    t.settledW a = s.settledW a := by
  unfold State.settledW State.oldWordAt State.cfgW
  rw [hc, hw, hn]

theorem State.effW_congr {s t : State} (h : t.eff = s.eff) (a : Nat) : t.effW a = s.effW a := by
  unfold State.effW
  rw [h]

theorem State.effF_congr {s t : State} (h : t.eff = s.eff) (a hi lo : Nat) : t.effF a hi lo = s.effF a hi lo := by
  unfold State.effF
  rw [State.effW_congr h]

theorem State.effB_congr {s t : State} (h : t.eff = s.eff) (a i : Nat) : t.effB a i = s.effB a i := by
  unfold State.effB
  rw [State.effW_congr h]

theorem State.cfgW_congr {s t : State} (h : t.cfg = s.cfg) (a : Nat) : t.cfgW a = s.cfgW a := by
  unfold State.cfgW
  rw [h]

theorem State.configured_congr {s t : State} (h : t.img = s.img) : t.configured = s.configured := by
  unfold State.configured
  rw [h]

theorem WordsBut.refl (l : List Nat) (s : State) : WordsBut l s s := fun _ _ => ⟨rfl, rfl⟩

theorem WordsBut.trans {l : List Nat} {s t u : State} (h : WordsBut l s t) (k : WordsBut l t u) : WordsBut l s u :=
  fun a ha => ⟨(k a ha).1.trans (h a ha).1, (k a ha).2.trans (h a ha).2⟩

theorem WordsBut.of_eq {l : List Nat} {s t : State} (hc : t.cfg = s.cfg) (he : t.eff = s.eff) : WordsBut l s t :=
  fun a _ => ⟨State.cfgW_congr hc a, State.effW_congr he a⟩

theorem State.effW_applyDue_self (s : State) (a : Nat) (m : Word) :
    (s.applyDue a m).effW a = merge (s.effW a) (s.settledW a) m := by
  unfold State.applyDue State.effW
  rw [smGet_put_self]

theorem State.effW_applyDue_other (s : State) {a b : Nat} (m : Word) (h : b ≠ a) : (s.applyDue a m).effW b = s.effW b := by
  unfold State.applyDue State.effW
  dsimp only
  rw [smGet_put_other _ _ _ h]

theorem State.settledW_applyDue (s : State) (a : Nat) (m : Word) : (s.applyDue a m).settledW = s.settledW := rfl

theorem WordsBut.applyDue {l : List Nat} {s t : State} (h : WordsBut l s t) {a : Nat} (m : Word) (ha : a ∈ l) :
    WordsBut l s (t.applyDue a m) :=
  h.trans fun _ hb => ⟨rfl, t.effW_applyDue_other m fun e => hb (e ▸ ha)⟩

/-! ### Producers (R283, R285, R289) -/

theorem State.seeEvent_timers (s : State) (e : BrgEvt) : (s.seeEvent e).1.brg.timers = s.brg.timers := by
  unfold State.seeEvent
  dsimp only
  split <;> rfl

theorem State.seeEvent_inFlight (s : State) (e : BrgEvt) : (s.seeEvent e).1.brg.inFlight = s.brg.inFlight := by
  unfold State.seeEvent
  dsimp only
  split <;> rfl

/-- What a firing adds to the events in flight, and that it touches no timer. -/
structure Fires (p : Fin 256) (at_ carried : Nat) (data : BitVec 16) (s t : State) : Prop where
  keeps : ∀ e ∈ s.brg.inFlight, e ∈ t.brg.inFlight
  adds : ∀ e ∈ t.brg.inFlight, e ∈ s.brg.inFlight ∨ (e.prod = p ∧ e.at_ = at_ ∧ e.carried = carried ∧ e.data = data)
  there : s.configured = true → s.producerOk p = true → ∃ e ∈ t.brg.inFlight, e.prod = p ∧ e.at_ = at_
  timers : t.brg.timers = s.brg.timers

theorem State.fireWith_fires (s : State) (p : Fin 256) (at_ carried : Nat) (data : BitVec 16) :
    Fires p at_ carried data s (s.fireWith p at_ carried data) := by
  unfold State.fireWith
  split
  · rename_i h
    refine ⟨fun _ he => he, fun _ he => Or.inl he, fun hc hp => ?_, rfl⟩
    rw [hc, hp] at h
    simpa using h
  · dsimp only
    generalize he : (⟨p, at_, carried, data, false, none, false⟩ : BrgEvt) = e
    have hseen : (s.seeEvent e).2.prod = p ∧ (s.seeEvent e).2.at_ = at_ ∧ (s.seeEvent e).2.carried = carried ∧
        (s.seeEvent e).2.data = data := by subst he; exact ⟨rfl, rfl, rfl, rfl⟩
    have hnew : e.prod = p ∧ e.at_ = at_ ∧ e.carried = carried ∧ e.data = data := by subst he; exact ⟨rfl, rfl, rfl, rfl⟩
    split
    · refine ⟨fun x hx => ?_, fun x hx => ?_, fun _ _ => ⟨_, List.mem_append_right _ (List.mem_singleton_self _), hseen.1, hseen.2.1⟩,
        s.seeEvent_timers e⟩
      · exact List.mem_append_left _ (by rw [s.seeEvent_inFlight]; exact hx)
      · rcases List.mem_append.mp hx with h | h
        · exact Or.inl (by rw [s.seeEvent_inFlight] at h; exact h)
        · exact Or.inr (by rw [List.mem_singleton.mp h]; exact hseen)
    · refine ⟨fun x hx => List.mem_append_left _ hx, fun x hx => ?_,
        fun _ _ => ⟨_, List.mem_append_right _ (List.mem_singleton_self _), hnew.1, hnew.2.1⟩, rfl⟩
      rcases List.mem_append.mp hx with h | h
      · exact Or.inl h
      · exact Or.inr (by rw [List.mem_singleton.mp h]; exact hnew)

theorem State.fire_fires (s : State) (p at_ : Nat) : Fires (Fin.ofNat 256 p) at_ (s.tbAt at_) 0 s (s.fire p at_) :=
  s.fireWith_fires _ _ _ _

/-- The producers that every variant has: those of no part that a variant may lack. -/
theorem State.producerOk_of_common (s : State) {p : Nat} (h : p < 24 ∨ (100 ≤ p ∧ p < 180) ∨ (244 ≤ p ∧ p < 246)) :
    s.producerOk p = true := by
  unfold State.producerOk
  rw [if_neg (by omega), if_neg (by omega), if_neg (by omega), if_neg (by omega), if_neg (by omega)]
  exact decide_eq_true (by omega)

/-- A common producer that fires is in flight. -/
theorem State.fire_there (s : State) {p : Nat} (at_ : Nat) (h : p < 24 ∨ (100 ≤ p ∧ p < 180) ∨ (244 ≤ p ∧ p < 246))
    (hc : s.configured = true) : ∃ e ∈ (s.fire p at_).brg.inFlight, e.prod.val = p ∧ e.at_ = at_ := by
  have hval : (Fin.ofNat 256 p).val = p := Nat.mod_eq_of_lt (by omega)
  obtain ⟨e, he, hp, hat⟩ := (s.fire_fires p at_).there hc (by rw [hval]; exact s.producerOk_of_common h)
  exact ⟨e, he, by rw [hp, hval], hat⟩

/-! ### Timers (R294, R295) -/

theorem State.modTmr_self (s : State) (k : Fin 8) (f : Timer → Timer) : (s.modTmr k f).brg.timers[k] = f s.brg.timers[k] := by
  simp [State.modTmr]

theorem State.modTmr_other (s : State) {k j : Fin 8} (f : Timer → Timer) (h : j ≠ k) :
    (s.modTmr k f).brg.timers[j] = s.brg.timers[j] := by
  have hne : k.val ≠ j.val := fun e => h (Fin.ext e.symm)
  simp [State.modTmr, Vector.getElem_set_ne _ _ hne]

theorem timer_of_eq {s t : State} (h : t.brg.timers = s.brg.timers) (k : Fin 8) : t.brg.timers[k] = s.brg.timers[k] := by rw [h]

/-- The words of a timer. -/
def tmrPeriodA (k : Fin 8) : Nat := brgA (0x2804 + 32 * k.val)
def tmrRepeatA (k : Fin 8) : Nat := brgA (0x2808 + 32 * k.val)

/-- PERIOD and REPEAT as a START of this tick finds them (R294, R411). -/
def State.tmrPeriod (s : State) (k : Fin 8) : Nat := max 8 (s.settledW (tmrPeriodA k)).toNat
def State.tmrRepeat (s : State) (k : Fin 8) : Nat := fld (s.settledW (tmrRepeatA k)) 15 0

/-- A timer as a START at tick t leaves it. -/
def Timer.started (m : Timer) (period rep t : Nat) : Timer :=
  { m with armed := true, period := period, left := rep, unlimited := decide (rep = 0), due := t + period
           owed := if m.armed = true ∧ m.due = t then some t else m.owed }

/-- A timer as a STOP at tick t leaves it. -/
def Timer.stopped (m : Timer) (t : Nat) : Timer :=
  { m with armed := false, left := 0, unlimited := false, stopAt := some t, owed := m.owed.filter (fun o => decide (o < t)) }

theorem State.timerStop_eq (s : State) (k : Fin 8) (t : Nat) : s.timerStop k t = s.modTmr k fun m => m.stopped t := rfl

theorem State.timerStart_of_not {s : State} {k : Fin 8} {t : Nat} (h : ¬ (s.configured = true ∧ s.brg.timers[k].stopAt ≠ some t)) :
    s.timerStart k t = s := by
  unfold State.timerStart
  dsimp only
  rw [if_pos]
  by_cases hc : s.configured = true
  · simpa [hc] using h
  · simp [hc]

theorem State.timerStart_of {s : State} {k : Fin 8} {t : Nat} (hc : s.configured = true) (ht : s.brg.timers[k].stopAt ≠ some t) :
    s.timerStart k t = ((s.applyDue (tmrPeriodA k) (~~~0)).applyDue (tmrRepeatA k) (fmask 15 0)).modTmr k
      (fun m => m.started (s.tmrPeriod k) (s.tmrRepeat k) t) := by
  have hne : tmrPeriodA k ≠ tmrRepeatA k := by unfold tmrPeriodA tmrRepeatA brgA; omega
  have hp : ((s.applyDue (tmrPeriodA k) (~~~0)).applyDue (tmrRepeatA k) (fmask 15 0)).effW (tmrPeriodA k) = s.settledW (tmrPeriodA k) := by
    rw [State.effW_applyDue_other _ _ hne, State.effW_applyDue_self, merge_all]
  have hr : ((s.applyDue (tmrPeriodA k) (~~~0)).applyDue (tmrRepeatA k) (fmask 15 0)).effF (tmrRepeatA k) 15 0 = s.tmrRepeat k := by
    unfold State.effF State.tmrRepeat
    rw [State.effW_applyDue_self, State.settledW_applyDue, fld_merge _ _ (by decide) (by decide)]
  unfold State.timerStart
  dsimp only
  rw [if_neg (by simpa [hc] using ht)]
  unfold tmrPeriodA tmrRepeatA at hp hr ⊢
  rw [hp, hr]
  rfl

theorem timerStart_takes {s : State} (k : Fin 8) (hu : s.undef = false)
    (h : ¬ ((s.cmdWord (brgA (0x2800 + 32 * k.val))).getLsbD 1 = false ∧ s.configured = true ∧ s.brg.timers[k].stopAt ≠ some s.clk.now)) :
    Gives (.timerStart k) s fun t => Takes (brgA (0x2800 + 32 * k.val)) 1 s t ∧ Within [.cmd, .more] s t := by
  have hb : (if (s.cmdWord (brgA (0x2800 + 32 * k.val))).getLsbD 1 then s else s.timerStart k s.clk.now) = s := by
    split
    · rfl
    · next hs => exact State.timerStart_of_not fun hc => h ⟨by simpa using hs, hc⟩
  exact gives_branch hu rfl (congrArg (fun u => u.cmdTake (brgA (0x2800 + 32 * k.val)) 1) hb)
    ⟨State.cmdTake_takes s _ 1, State.cmdTake_within s _ 1⟩

theorem timerStart_arms {s : State} (k : Fin 8) (hu : s.undef = false)
    (h : (s.cmdWord (brgA (0x2800 + 32 * k.val))).getLsbD 1 = false ∧ s.configured = true ∧ s.brg.timers[k].stopAt ≠ some s.clk.now) :
    Gives (.timerStart k) s fun t =>
      t.brg.timers[k] = s.brg.timers[k].started (s.tmrPeriod k) (s.tmrRepeat k) s.clk.now ∧
        (∀ j : Fin 8, j ≠ k → t.brg.timers[j] = s.brg.timers[j]) ∧ t.brg.inFlight = s.brg.inFlight ∧
        WordsBut [tmrPeriodA k, tmrRepeatA k] s t ∧ Takes (brgA (0x2800 + 32 * k.val)) 1 s t ∧ Within [.eff, .cmd, .more, .brg] s t := by
  obtain ⟨hs, hc, ht⟩ := h
  have hb := State.timerStart_of hc ht
  have hw := State.timerStart_within s k s.clk.now
  have hwords : WordsBut [tmrPeriodA k, tmrRepeatA k] s (s.timerStart k s.clk.now) := by
    rw [hb]
    exact (((WordsBut.refl _ s).applyDue _ (by simp)).applyDue _ (by simp)).trans
      (WordsBut.of_eq (State.modTmr_cfg _ _ _) (State.modTmr_eff _ _ _))
  have hbrg : (s.timerStart k s.clk.now).brg.timers[k] = s.brg.timers[k].started (s.tmrPeriod k) (s.tmrRepeat k) s.clk.now ∧
      (∀ j : Fin 8, j ≠ k → (s.timerStart k s.clk.now).brg.timers[j] = s.brg.timers[j]) ∧
      (s.timerStart k s.clk.now).brg.inFlight = s.brg.inFlight := by
    rw [hb]
    exact ⟨State.modTmr_self _ _ _, fun j hj => State.modTmr_other _ _ hj, rfl⟩
  have hbranch : (if (s.cmdWord (brgA (0x2800 + 32 * k.val))).getLsbD 1 then s else s.timerStart k s.clk.now) = s.timerStart k s.clk.now :=
    if_neg (by rw [hs]; simp)
  refine gives_branch hu rfl (congrArg (fun u => u.cmdTake (brgA (0x2800 + 32 * k.val)) 1) hbranch) ?_
  generalize s.timerStart k s.clk.now = u at hw hwords hbrg ⊢
  obtain ⟨hself, hother, hflight⟩ := hbrg
  exact ⟨hself, hother, hflight, hwords.trans (WordsBut.of_eq (State.cmdTake_cfg _ _ _) (State.cmdTake_eff _ _ _)), (State.cmdTake_takes u _ 1).from_eq hw.cmdEq hw.moreEq,
    hw.seq (State.cmdTake_within u _ _)⟩

/-- An expiry that fires and leaves its timer changed. -/
theorem State.timerFires (s : State) (k : Fin 8) (at_ : Nat) (f : Timer → Timer) :
    let t := ((s.upto at_).fire (124 + k.val) at_).modTmr k f
    t.brg.timers[k] = f s.brg.timers[k] ∧ (∀ j : Fin 8, j ≠ k → t.brg.timers[j] = s.brg.timers[j]) ∧
      (s.configured = true → ∃ e ∈ t.brg.inFlight, e.prod.val = 124 + k.val ∧ e.at_ = at_) ∧ t.clk.now = max s.clk.now at_ ∧
      Within [.clk, .flg, .brg, .msix] s t := by
  intro t
  have htimers := ((s.upto at_).fire_fires (124 + k.val) at_).timers
  refine ⟨?_, fun j hj => ?_, fun hc => (s.upto at_).fire_there at_ (by omega) hc, ?_, ?_⟩
  · exact (State.modTmr_self _ _ _).trans (congrArg f (timer_of_eq htimers k))
  · exact (State.modTmr_other _ _ hj).trans (timer_of_eq htimers j)
  · exact congrArg Clock.now ((State.modTmr_clk _ _ _).trans (State.fire_clk _ _ _))
  · exact (((State.upto_within s at_).mono rfl).step (State.fire_within _ _ _) rfl).step (State.modTmr_within _ _ _) rfl

/-! ### BRG_SW_FIRE (R296) -/

theorem State.tb_congr {s t : State} (h : t.clk = s.clk) : t.tb = s.tb := by
  unfold State.tb State.tbAt
  rw [h]

/-- One producer after the other fires; each is in flight at the end. -/
theorem foldl_fires (data : BitVec 16) (prod : Nat → Fin 256) (l : List Nat) (s : State) :
    let t := l.foldl (fun u e => u.fireWith (prod e) u.clk.now u.tb data) s
    (∀ x ∈ s.brg.inFlight, x ∈ t.brg.inFlight) ∧ t.brg.timers = s.brg.timers ∧
      (∀ x ∈ t.brg.inFlight, x ∈ s.brg.inFlight ∨ ∃ e ∈ l, x.prod = prod e ∧ x.at_ = s.clk.now ∧ x.carried = s.tb ∧ x.data = data) ∧
      (∀ e ∈ l, s.configured = true → s.producerOk (prod e) = true → ∃ x ∈ t.brg.inFlight, x.prod = prod e ∧ x.at_ = s.clk.now) := by
  induction l generalizing s with
  | nil => exact ⟨fun _ h => h, rfl, fun _ h => Or.inl h, fun _ h => absurd h List.not_mem_nil⟩
  | cons a r ih =>
    have hf := s.fireWith_fires (prod a) s.clk.now s.tb data
    have hw := s.fireWith_within (prod a) s.clk.now s.tb data
    have htb : (s.fireWith (prod a) s.clk.now s.tb data).tb = s.tb := State.tb_congr hw.clkEq
    obtain ⟨hkeep, htmr, hnew, hthere⟩ := ih (s.fireWith (prod a) s.clk.now s.tb data)
    rw [hw.clkEq, htb] at hnew
    rw [hw.clkEq] at hthere
    refine ⟨fun x hx => hkeep x (hf.keeps x hx), htmr.trans hf.timers, fun x hx => ?_, fun e he hc hp => ?_⟩
    · rcases hnew x hx with h | ⟨e, he, h⟩
      · rcases hf.adds x h with h | h
        · exact Or.inl h
        · exact Or.inr ⟨a, List.mem_cons_self, h⟩
      · exact Or.inr ⟨e, List.mem_cons_of_mem _ he, h⟩
    · rcases List.mem_cons.mp he with rfl | he
      · obtain ⟨x, hx, h⟩ := hf.there hc hp
        exact ⟨x, hkeep x hx, h⟩
      · refine hthere e he ((State.configured_congr hw.imgEq).trans hc) ?_
        unfold State.producerOk at hp ⊢
        rwa [hw.partEq]

theorem mem_setBits {n v i : Nat} : i ∈ setBits n v ↔ i < n ∧ v.testBit i = true := by
  unfold setBits
  rw [List.mem_filter, List.mem_range]

theorem brgSwFire_gives {s : State} (mask : BitVec 16) (hu : s.undef = false) : Gives (.brgSwFire mask) s fun t =>
    (∀ e : Fin 16, mask.getLsbD e = true → s.configured = true → ∃ x ∈ t.brg.inFlight, x.prod.val = 132 + e.val ∧ x.at_ = s.clk.now) ∧
      (∀ x ∈ t.brg.inFlight, x ∈ s.brg.inFlight ∨ ∃ e : Fin 16, mask.getLsbD e = true ∧ x.prod.val = 132 + e.val ∧
        x.at_ = s.clk.now ∧ x.carried = s.tb ∧ x.data = BitVec.ofNat 16 (s.effF (brgA 0x20A0) 31 16)) ∧
      t.brg.timers = s.brg.timers ∧ Takes (brgA 0x20A0) (mask.setWidth 32) s t ∧ Within [.flg, .cmd, .more, .brg, .msix] s t := by
  obtain ⟨-, htmr, hnew, hthere⟩ := foldl_fires (BitVec.ofNat 16 (s.effF (brgA 0x20A0) 31 16))
    (fun e => Fin.ofNat 256 (132 + e)) (setBits 16 mask.toNat) s
  have hval : ∀ e, e < 16 → (Fin.ofNat 256 (132 + e)).val = 132 + e := fun e he => Nat.mod_eq_of_lt (by omega)
  have hw : Within [.flg, .brg] s ((setBits 16 mask.toNat).foldl (fun u e => u.fireWith (Fin.ofNat 256 (132 + e)) u.clk.now u.tb
      (BitVec.ofNat 16 (s.effF (brgA 0x20A0) 31 16))) s) :=
    (Within.refl _ s).fold fun u e h => h.step (u.fireWith_within _ _ _ _) rfl
  generalize hr : (setBits 16 mask.toNat).foldl (fun u e => u.fireWith (Fin.ofNat 256 (132 + e)) u.clk.now u.tb
    (BitVec.ofNat 16 (s.effF (brgA 0x20A0) 31 16))) s = r at htmr hnew hthere hw
  refine gives_next (u := r.cmdTake (brgA 0x20A0) (mask.setWidth 32)) hu (by rw [← hr]; rfl)
    ⟨fun e he hc => ?_, fun x hx => ?_, htmr, (State.cmdTake_takes _ _ _).from_eq hw.cmdEq hw.moreEq,
    hw.seq (State.cmdTake_within _ _ _)⟩
  · obtain ⟨x, hx, hp, hat⟩ := hthere e (mem_setBits.mpr ⟨e.isLt, he⟩) hc
      (by rw [hval e e.isLt]; exact s.producerOk_of_common (by omega))
    exact ⟨x, hx, by rw [hp, hval e e.isLt], hat⟩
  · rcases hnew x hx with h | ⟨e, he, hp, h⟩
    · exact Or.inl h
    · obtain ⟨hlt, hb⟩ := mem_setBits.mp he
      exact Or.inr ⟨⟨e, hlt⟩, hb, by rw [hp, hval e hlt], h⟩

/-- Settles O46: a START, a STOP and an expiry change one timer, and an expiry and BRG_SW_FIRE fire their producers. -/
theorem bridgeTimersAndSoftware : Obligations.BridgeTimersAndSoftware := by
  unfold Obligations.BridgeTimersAndSoftware
  intro s k hu m a pa ra others fired period rep arms
  refine ⟨timerStart_takes k hu, timerStart_arms k hu, ?_, fun ho ha => ?_, fun o ho => ?_, fun ho ha => ?_, fun mask => brgSwFire_gives mask hu⟩
  · refine gives_next hu rfl ⟨?_, fun j hj => ?_, rfl, State.cmdTake_takes _ _ _,
      (State.timerStop_within s k s.clk.now).seq (State.cmdTake_within _ _ _)⟩
    · exact State.modTmr_self s k fun m => m.stopped s.clk.now
    · exact State.modTmr_other s (fun m => m.stopped s.clk.now) hj
  · exact gives_branch (u := s) hu rfl (by dsimp only; rw [ho]; exact if_pos (by rw [ha]; rfl)) rfl
  · obtain ⟨h1, h2, h3, h4, h5⟩ := s.timerFires k o fun m => { m with owed := none }
    exact gives_branch hu rfl (by dsimp only; rw [ho]) ⟨h1, h2, h3, h4, h5⟩
  · obtain ⟨h1, h2, h3, h4, h5⟩ := s.timerFires k m.due Timer.expired
    exact gives_branch hu rfl (by dsimp only; rw [ho]; exact if_neg (by rw [ha]; simp)) ⟨h1, h2, h3, h4, h5⟩

end Sys2Proof.Machine
end

