-- ==== Sys2Proof/Proofs/StormGuard.lean ====
section
/-! PROOF. Fault reports (R455, R456), firings as the storm guard sees them, and the guard itself (R290, R292, R293). -/
namespace Sys2Proof.Machine

/-! ### Reports (R455, R456) -/

theorem foldl_loseRec_flt (l : List QueuedRec) (s : State) : (l.foldl (fun u q => u.loseRec q.body) s).flt = s.flt :=
  foldl_keeps State.flt l _ (fun u q => u.loseRec_flt q.body) s

/-- The records that a report leaves waiting, before the 33rd is lost. -/
def State.reportQueue (s : State) (r : FaultRec) : List QueuedRec :=
  let cur := s.flt.queue.filter (fun q => q.reported = s.clk.now)
  s.flt.queue.filter (fun q => q.reported ≠ s.clk.now) ++
    renumber (match cur with | x :: _ => x.seq.toNat | [] => s.flt.seq.toNat)
      (rankInsert { body := r, seq := 0, reported := s.clk.now } cur)

/-- A report takes the next sequence number and a place in the queue of 32. -/
theorem State.report_flt (s : State) (r : FaultRec) :
    (s.report r).flt = { s.flt with queue := (s.reportQueue r).take 32, seq := s.flt.seq + 1 } :=
  foldl_loseRec_flt _ _

theorem State.report_seq (s : State) (r : FaultRec) : (s.report r).flt.seq = s.flt.seq + 1 := by rw [State.report_flt]

/-- A report into an empty queue is the one that waits. -/
theorem State.report_queue_of_nil {s : State} (h : s.flt.queue = []) (r : FaultRec) :
    ∃ q, (s.report r).flt.queue = [q] ∧ q.body = r ∧ q.reported = s.clk.now := by
  rw [State.report_flt]
  unfold State.reportQueue
  rw [h]
  exact ⟨_, rfl, rfl, rfl⟩

theorem State.loseRec_flags (s : State) (r : FaultRec) : FlagsBut [fltA 4] s (s.loseRec r) := by
  obtain ⟨-, -, -, h, -⟩ := s.loseRec_counts r
  exact h

theorem State.report_flags (s : State) (r : FaultRec) : FlagsBut [fltA 4] s (s.report r) :=
  FlagsBut.trans (fun _ _ _ => rfl)
    (foldl_rel (FlagsBut [fltA 4]) (FlagsBut.refl _) FlagsBut.trans _ (fun u (q : QueuedRec) => u.loseRec_flags q.body) _ _)

theorem State.loseRec_counter (s : State) (r : FaultRec) {a : Nat} (ha : a < fltA 0x10 ∨ fltA 0x440 ≤ a) :
    (s.loseRec r).counter a = s.counter a := by
  obtain ⟨-, -, h, -⟩ := s.loseRec_counts r
  have hlt := r.cls.isLt
  refine h a ?_
  simp only [List.mem_cons, List.not_mem_nil, or_false, not_or]
  unfold classCountA
  unfold fltA at *
  omega

/-- A report counts nothing outside the supervisor. -/
theorem State.report_counter (s : State) (r : FaultRec) {a : Nat} (ha : a < fltA 0x10 ∨ fltA 0x440 ≤ a) :
    (s.report r).counter a = s.counter a :=
  foldl_keeps (fun u => u.counter a) _ _ (fun u (q : QueuedRec) => u.loseRec_counter q.body ha) _

/-! ### Firings as the guard sees them (R290, R292) -/

theorem foldl_fst_keeps {α β γ : Type} (p : State → β) (f : State × γ → α → State × γ) (h : ∀ r x, p (f r x).1 = p r.1)
    (l : List α) (r : State × γ) : p (l.foldl f r).1 = p r.1 := by
  induction l generalizing r with
  | nil => rfl
  | cons x l ih => exact (ih _).trans (h r x)

/-- The sticky word of a producer. -/
def stickyA (p : Nat) : Nat := brgA (0x2000 + 4 * (p / 32))

/-- A W1C word with its same-tick record. -/
def State.evt (s : State) (a : Nat) : Evt := smGet (fun _ => ({} : Evt)) s.flg a

theorem State.flag_eq_evt (s : State) (a : Nat) : s.flag a = (s.evt a).bits := rfl

theorem State.seeEvent_evt_self (s : State) (e : BrgEvt) : (s.seeEvent e).1.evt (stickyA e.prod.val) =
    (s.evt (stickyA e.prod.val)).setIn e.at_ (bit32 (e.prod.val % 32)) := by
  unfold State.seeEvent State.evt stickyA
  dsimp only
  split <;> rw [smGet_mod_self]

theorem State.seeEvent_evt_other (s : State) (e : BrgEvt) {a : Nat} (ha : a ≠ stickyA e.prod.val) : (s.seeEvent e).1.evt a = s.evt a := by
  unfold stickyA at ha
  unfold State.seeEvent State.evt
  dsimp only
  split <;> rw [smGet_mod_other _ _ _ ha]

theorem Evt.setIn_bits (e : Evt) (t : Nat) (m : Word) : (e.setIn t m).bits = e.bits ||| m := by
  unfold Evt.setIn Evt.set
  split <;> rfl

theorem bit32_self {i : Nat} (h : i < 32) : (bit32 i).getLsbD i = true := by
  unfold bit32
  rw [BitVec.getLsbD_ofNat, Nat.testBit_shiftLeft]
  simp [h]

theorem State.seeEvent_sticky (s : State) (e : BrgEvt) :
    ((s.seeEvent e).1.flag (stickyA e.prod.val)).getLsbD (e.prod.val % 32) = true := by
  rw [State.flag_eq_evt, s.seeEvent_evt_self, Evt.setIn_bits, BitVec.getLsbD_or, bit32_self (by omega), Bool.or_true]

/-- The 129th firing of a window makes the next tick the first suppressed one (R292). -/
theorem State.seeEvent_storms {s : State} {e : BrgEvt} (hg : s.guardedProducer e.prod.val = true) (hs : s.suppressed e.prod.val = false)
    (hst : s.stormAt e.prod.val = 0) (hr : s.brg.resting.contains e.prod.val = false)
    (hw : smGet (fun _ => 0) s.brg.window e.prod.val = 128) : (s.seeEvent e).1.stormAt e.prod.val = e.at_ + 1 := by
  unfold State.seeEvent
  dsimp only
  rw [if_pos (by rw [hg, hs, hst, hr]; rfl)]
  unfold State.stormAt Bridge.counted
  dsimp only
  rw [hw, if_pos rfl, smGet_put_self]

/-- A firing sets sticky words alone. -/
theorem State.seeDue_evt (s : State) {a : Nat} (ha : a < brgA 0x2000 ∨ brgA 0x2020 ≤ a) : s.seeDue.evt a = s.evt a := by
  unfold State.seeDue
  refine foldl_fst_keeps (fun u => u.evt a) _ (fun r e => ?_) s.brg.inFlight (s, [])
  dsimp only
  split
  · refine r.1.seeEvent_evt_other e fun h => ?_
    have := e.prod.isLt
    unfold stickyA brgA at h
    unfold brgA at ha
    omega
  · rfl

theorem State.seeDue_timers (s : State) : s.seeDue.brg.timers = s.brg.timers := by
  refine foldl_fst_keeps (fun u => u.brg.timers) _ (fun r e => ?_) s.brg.inFlight (s, [])
  dsimp only
  split
  · exact r.1.seeEvent_timers e
  · rfl

/-! ### The guard (R292, R293) -/

/-- The suppression word of a producer. -/
def suppA (p : Nat) : Nat := brgA (0x2060 + 4 * (p / 32))

theorem suppA_not_pend (p : Fin 256) : suppA p.val ∉ pendWords := by
  have := p.isLt
  simp only [pendWords, List.mem_cons, List.not_mem_nil, or_false, not_or]
  unfold suppA brgA hostA
  omega

theorem State.seeDue_suppWord (s : State) (i : Fin 8) : s.seeDue.evt (brgA (0x2060 + 4 * i.val)) = s.evt (brgA (0x2060 + 4 * i.val)) :=
  s.seeDue_evt (by unfold brgA; omega)

/-- The state as a producer's suppression is entered, before its report. -/
def State.suppress (s : State) (p : Nat) : State :=
  ((s.modBrg (fun b => { b with storms := smErase b.storms p })).setBit (suppA p) (p % 32)).count (brgA 0x20B8) 1

theorem State.suppress_within (s : State) (p : Nat) : Within [.flg, .ctr, .brg, .msix] s (s.suppress p) :=
  ((State.modBrg_within s _).seq (State.setBit_within _ _ _) (l := [.flg, .brg, .msix])).seq (State.count_within _ _ _)

theorem State.suppress_flag (s : State) (p : Fin 256) : (s.suppress p).flag (suppA p) = s.flag (suppA p) ||| bit32 (p.val % 32) :=
  ((State.count_within _ _ _).flagEq _).trans (State.flag_setBit_self _ _ (suppA_not_pend p))

theorem State.suppress_counter (s : State) (p : Nat) :
    (s.suppress p).counter (brgA 0x20B8) = min (s.counter (brgA 0x20B8) + 1) top32 :=
  (counter_count_self _ _ _ (by decide)).trans (by rw [(State.setBit_within _ _ _).counterEq]; rfl)

theorem State.suppress_stormAt (s : State) (p : Nat) : (s.suppress p).stormAt p = 0 := by
  have hbrg : (s.suppress p).brg = { s.brg with storms := smErase s.brg.storms p } :=
    (State.count_within _ _ _).brgEq.trans (State.setBit_within _ _ _).brgEq
  unfold State.stormAt
  rw [hbrg]
  exact (smGet_erase _ _ _ _).trans (if_pos rfl)

/-- The record of a suppression (R453). -/
def stormRec (p : Fin 256) (time : Nat) : FaultRec :=
  { cls := 5, cause := 1, source := BitVec.ofNat 8 p.val, time := BitVec.ofNat 64 time }

/-- A storming producer is suppressed, counted and reported. -/
theorem stormSuppress_gives {s : State} (p : Fin 256) (hu : s.undef = false) (hf : s.seeDue.stormAt p.val ≠ 0) :
    Gives (.stormSuppress p) s fun t =>
      t.suppressed p = true ∧ t.stormAt p.val = 0 ∧ t.flag (suppA p.val) = s.flag (suppA p.val) ||| bit32 (p.val % 32) ∧
        t.counter (brgA 0x20B8) = min (s.counter (brgA 0x20B8) + 1) top32 ∧ t.flt.seq = s.flt.seq + 1 ∧
        (s.flt.queue = [] → ∃ q, t.flt.queue = [q] ∧ q.body.cls = 5 ∧ q.body.cause = 1 ∧ q.body.source.toNat = p.val ∧
          q.body.time = BitVec.ofNat 64 (s.tbAt (s.seeDue.stormAt p.val)) ∧ q.body.cluster = none) ∧
        Within [.flg, .ctr, .brg, .msix, .flt] s t := by
  have hp := p.isLt
  have hw := s.seeDue_within
  have hx := s.seeDue.suppress_within p
  have hflt : (s.seeDue.suppress p).flt = s.flt := hx.fltEq.trans hw.fltEq
  have htb : (s.seeDue.suppress p).tbAt (s.seeDue.stormAt p) = s.tbAt (s.seeDue.stormAt p) := by
    unfold State.tbAt
    rw [hx.clkEq, hw.clkEq]
  have hword : (s.seeDue.suppress p).flag (suppA p) = s.flag (suppA p) ||| bit32 (p.val % 32) :=
    (s.seeDue.suppress_flag p).trans
      (congrArg (· ||| bit32 (p.val % 32)) (congrArg Evt.bits (s.seeDue_evt (by unfold suppA brgA; omega))))
  have hctr : (s.seeDue.suppress p).counter (brgA 0x20B8) = min (s.counter (brgA 0x20B8) + 1) top32 :=
    (s.seeDue.suppress_counter p).trans (by rw [hw.counterEq])
  have hst := s.seeDue.suppress_stormAt p
  have hall : Within [.flg, .ctr, .brg, .msix, .flt] s (s.seeDue.suppress p) := hw.seq hx
  refine gives_branch hu rfl ((if_neg hf).trans rfl) (u := (s.seeDue.suppress p).report
    (stormRec p ((s.seeDue.suppress p).tbAt (s.seeDue.stormAt p)))) ?_
  generalize s.seeDue.suppress p = v at hflt htb hword hctr hst hall ⊢
  rw [htb]
  generalize hr : stormRec p (s.tbAt (s.seeDue.stormAt p)) = r
  have hflag : (v.report r).flag (suppA p) = s.flag (suppA p) ||| bit32 (p.val % 32) := by
    rw [v.report_flags r _ (by simp [suppA, brgA, fltA]; omega) (suppA_not_pend p), hword]
  have hrep := State.report_within v r
  refine ⟨?_, ?_, hflag, (v.report_counter r (by decide)).trans hctr, ?_, fun hq => ?_, hall.seq hrep⟩
  · show ((v.report r).flag (suppA p)).getLsbD (p.val % 32) = true
    rw [hflag, BitVec.getLsbD_or, bit32_self (by omega), Bool.or_true]
  · unfold State.stormAt at hst ⊢
    rw [hrep.brgEq, hst]
  · rw [State.report_seq, hflt]
  · obtain ⟨q, hq, hb, -⟩ := State.report_queue_of_nil (s := v) (by rw [hflt, hq]) r
    have hbody := hb.trans hr.symm
    exact ⟨q, hq, congrArg FaultRec.cls hbody, congrArg FaultRec.cause hbody,
      (congrArg (fun x => x.source.toNat) hbody).trans (Nat.mod_eq_of_lt hp), congrArg FaultRec.time hbody, congrArg FaultRec.cluster hbody⟩

/-- Keys that are dropped one after the other read as their default. -/
theorem smGet_foldl_erase {α : Type} (d : Nat → α) (l : List Nat) (m : SMap α) (k : Nat) :
    smGet d (l.foldl smErase m) k = if k ∈ l then d k else smGet d m k := by
  induction l generalizing m with
  | nil => rfl
  | cons a r ih =>
    rw [List.foldl_cons, ih, smGet_erase]
    by_cases h : k = a
    · subst h; simp
    · simp [h]

/-- A clear of suppression bits frees the producers whose bits clear (R293, R408). -/
theorem stormSuppClear_gives {s : State} (word : Fin 8) (mask : Word) (hu : s.undef = false) :
    let a := brgA (0x2060 + 4 * word.val)
    Gives (.stormSuppClear word mask) s fun t =>
      t.flag a = s.flag a &&& ~~~(mask &&& ~~~(if (s.evt a).tick = s.clk.now then (s.evt a).fresh else 0)) ∧
        (∀ b, b ≠ a → t.flag b = s.seeDue.flag b) ∧
        (∀ b : Fin 32, (s.flag a).getLsbD b = true → (t.flag a).getLsbD b = false →
          32 * word.val + b.val ∈ t.brg.resting ∧ smGet (fun _ => 0) t.brg.window (32 * word.val + b.val) = 0) ∧
        t.brg.inFlight = s.seeDue.brg.inFlight ∧ t.brg.timers = s.brg.timers ∧ Within [.flg, .brg] s t := by
  intro a
  have hevt : s.seeDue.evt a = s.evt a := s.seeDue_suppWord word
  have hw := s.seeDue_within
  have hself : (s.seeDue.clearFlag a mask).flag a =
      s.flag a &&& ~~~(mask &&& ~~~(if (s.evt a).tick = s.clk.now then (s.evt a).fresh else 0)) := by
    rw [State.flag_clearFlag_self]
    show ((s.seeDue.evt a).clear s.seeDue.clk.now mask).bits = _
    rw [hevt, hw.clkEq]
    rfl
  have hold : s.seeDue.flag a = s.flag a := congrArg Evt.bits hevt
  refine gives_next hu rfl ⟨hself, fun b hb => State.flag_clearFlag_other _ _ hb, fun b h1 h0 => ?_, rfl, s.seeDue_timers,
    hw.seq ((State.clearFlag_within _ _ _).seq (State.modBrg_within _ _) (l := [.flg, .brg]))⟩
  have hfreed : 32 * word.val + b.val ∈ (setBits 32 (s.seeDue.flag a &&& ~~~((s.seeDue.clearFlag a mask).flag a)).toNat).map
      (fun b => 32 * word.val + b) := by
    refine List.mem_map_of_mem (mem_setBits.mpr ⟨b.isLt, ?_⟩)
    show (s.seeDue.flag a &&& ~~~((s.seeDue.clearFlag a mask).flag a)).getLsbD b = true
    have h0' : ((s.seeDue.clearFlag a mask).flag a).getLsbD b = false := h0
    rw [BitVec.getLsbD_and, BitVec.getLsbD_not, hold, h1, h0', decide_eq_true b.isLt]
    rfl
  exact ⟨List.mem_append_right _ hfreed, (smGet_foldl_erase _ _ _ _).trans (if_pos hfreed)⟩

/-- Settles O47: a storming producer is suppressed and reported once, and a clear frees it. -/
theorem stormGuard : Obligations.StormGuard := by
  unfold Obligations.StormGuard
  intro s hu
  refine ⟨fun p => ⟨fun hf => gives_branch hu rfl (if_pos hf) rfl, stormSuppress_gives p hu, fun e he => ?_⟩,
    fun word mask => stormSuppClear_gives word mask hu⟩
  subst he
  exact ⟨rfl, State.seeEvent_storms, s.seeEvent_sticky e⟩

end Sys2Proof.Machine
end

