-- ==== Sys2Proof/Proofs/Lines.lean ====
section
/-! PROOF. Trigger and event lines, EVI edges and markers (R92 to R95, R297, R298). -/
namespace Sys2Proof.Machine

/-- A firing adds to the events in flight, and changes nothing else of the Bridge but what the storm guard keeps. -/
theorem State.fireWith_brg (s : State) (p : Fin 256) (at_ carried : Nat) (data : BitVec 16) :
    ∃ l w st, (s.fireWith p at_ carried data).brg = { s.brg with inFlight := l, window := w, storms := st } := by
  unfold State.fireWith
  split
  · exact ⟨_, _, _, rfl⟩
  · dsimp only
    split
    · unfold State.seeEvent
      dsimp only
      split <;> exact ⟨_, _, _, rfl⟩
    · exact ⟨_, _, _, rfl⟩

theorem State.fire_brg (s : State) (p at_ : Nat) :
    ∃ l w st, (s.fire p at_).brg = { s.brg with inFlight := l, window := w, storms := st } := s.fireWith_brg _ _ _ _

/-- A firing sets a sticky word alone. -/
theorem State.fireWith_evt (s : State) (p : Fin 256) (at_ carried : Nat) (data : BitVec 16) {a : Nat}
    (ha : a < brgA 0x2000 ∨ brgA 0x2020 ≤ a) : (s.fireWith p at_ carried data).evt a = s.evt a := by
  have hp := p.isLt
  unfold State.fireWith
  split
  · rfl
  · dsimp only
    split
    · refine s.seeEvent_evt_other _ fun h => ?_
      unfold stickyA brgA at h
      unfold brgA at ha
      dsimp only at h
      omega
    · rfl

theorem State.fire_flag (s : State) (p at_ : Nat) {a : Nat} (ha : a < brgA 0x2000 ∨ brgA 0x2020 ≤ a) :
    (s.fire p at_).flag a = s.flag a := congrArg Evt.bits (s.fireWith_evt _ _ _ _ ha)

/-! ### EVI edges (R297) -/

/-- The state in which an edge of an EVI ball is judged. -/
def State.eviSeen (s : State) (i : Fin 16) (tick : Nat) : State :=
  (s.upto tick).modBrg (fun b => { b with evi := b.evi ^^^ (1#16 <<< i.val) })

theorem State.eviSeen_within (s : State) (i : Fin 16) (tick : Nat) : Within [.clk, .brg] s (s.eviSeen i tick) :=
  (s.upto_within tick).seq (State.modBrg_within _ _)

theorem eviEdge_fires {s : State} {i : Fin 16} {level : Bool} {tick : Nat} (hu : s.undef = false) (hl : s.brg.evi.getLsbD i ≠ level)
    (hc : s.configured = true) (he : (s.effW (brgA (0x2C00 + 4 * i.val))).getLsbD 0 = true)
    (hp : level ≠ (s.effW (brgA (0x2C00 + 4 * i.val))).getLsbD 1) :
    Gives (.eviEdge i level tick) s fun t =>
      t.brg.evi = s.brg.evi ^^^ (1#16 <<< i.val) ∧ (∃ e ∈ t.brg.inFlight, e.prod.val = i.val ∧ e.at_ = tick) ∧
        (∀ e ∈ t.brg.inFlight, e ∈ s.brg.inFlight ∨ e.prod.val = i.val ∧ e.at_ = tick) ∧ Within [.clk, .flg, .brg, .msix] s t := by
  have hf := (s.eviSeen i tick).fire_fires i.val tick
  obtain ⟨l, w, st, hbrg⟩ := (s.eviSeen i tick).fire_brg i.val tick
  have hval : (Fin.ofNat 256 i.val).val = i.val := Nat.mod_eq_of_lt (by omega)
  refine gives_branch hu rfl ((if_neg hl).trans (if_pos ⟨he, hp⟩)) (u := (s.eviSeen i tick).fire i.val tick)
    ⟨by rw [hbrg]; rfl, State.fire_there _ tick (by omega) hc, fun e he => ?_,
      (s.eviSeen_within i tick).seq (State.fire_within _ _ _)⟩
  rcases hf.adds e he with h | ⟨hprod, hat, -⟩
  · exact Or.inl h
  · exact Or.inr ⟨by rw [hprod, hval], hat⟩

theorem eviEdge_silent {s : State} {i : Fin 16} {level : Bool} {tick : Nat} (hu : s.undef = false) (hl : s.brg.evi.getLsbD i ≠ level)
    (hn : (s.effW (brgA (0x2C00 + 4 * i.val))).getLsbD 0 = false ∨ level = (s.effW (brgA (0x2C00 + 4 * i.val))).getLsbD 1) :
    Gives (.eviEdge i level tick) s fun t =>
      t.brg = { s.brg with evi := s.brg.evi ^^^ (1#16 <<< i.val) } ∧ Within [.clk, .brg] s t := by
  refine gives_branch hu rfl ((if_neg hl).trans (if_neg fun h => ?_)) (u := s.eviSeen i tick) ⟨rfl, s.eviSeen_within i tick⟩
  obtain ⟨he, hp⟩ := h
  rcases hn with h0 | h1
  · rw [show (s.effW (brgA (0x2C00 + 4 * i.val))).getLsbD 0 = true from he] at h0
    cases h0
  · exact hp h1

/-! ### Markers (R92 to R94, R181) -/

theorem fld_lt {w : Word} {hi lo : Nat} : fld w hi lo < 2 ^ (hi - lo + 1) := Nat.mod_lt _ (Nat.two_pow_pos _)

/-- The producer of a marker of a lane exists where the lane does (R283). -/
theorem State.producerOk_marker {s : State} {w : Lane} {x : Nat} (hx : x < 4) (hw : s.hasLane w = true) :
    s.producerOk (24 + 4 * w.val + x) = true := by
  unfold State.producerOk
  rw [if_pos (by omega)]
  have : (24 + 4 * w.val + x - 24) / 4 = w.val := by omega
  rw [this]
  exact hw

/-- A slot that is not valid, does not take the play, or that a late fault's stop comes before, fires nothing. -/
theorem markerFire_silent {s : State} {n : Clu} {k : Fin 8} (hu : s.undef = false)
    (h : (s.mkWord (eMkp s.clu[n].entry) k 1).getLsbD 31 = false ∨
      slotPlays (fld (s.mkWord (eMkp s.clu[n].entry) k 0) 31 30) s.clu[n].plays (eRepeat s.clu[n].entry) = false ∨
      s.clu[n].haltsBy (s.clu[n].playStart + fld (s.mkWord (eMkp s.clu[n].entry) k 0) 29 0 * s.tsOf n) = true) :
    Gives (.markerFire n k) s fun t => t = s := by
  refine gives_branch hu rfl (if_pos ?_) rfl
  rcases h with h | h | h <;> rw [h] <;> simp

/-- A slot that fires. -/
theorem markerFire_fires {s : State} {n : Clu} {k : Fin 8} (hu : s.undef = false) (hrun : s.clu[n].state = .run)
    (hab : s.clu[n].abortAt = none) (hsc : s.clu[n].sched = none)
    (hh : s.clu[n].haltsBy (s.clu[n].playStart + fld (s.mkWord (eMkp s.clu[n].entry) k 0) 29 0 * s.tsOf n) = false)
    (hen : eMkpEn s.clu[n].entry = true) (hv : (s.mkWord (eMkp s.clu[n].entry) k 1).getLsbD 31 = true)
    (hb : s.clu[n].wBound.getLsbD (Fin.ofNat 16 (fld (s.mkWord (eMkp s.clu[n].entry) k 1) 3 0)) = true)
    (hpos : fld (s.mkWord (eMkp s.clu[n].entry) k 0) 29 0 < eLenGr s.clu[n].entry * 64)
    (hp : slotPlays (fld (s.mkWord (eMkp s.clu[n].entry) k 0) 31 30) s.clu[n].plays (eRepeat s.clu[n].entry) = true)
    (hc : s.configured = true) (hl : s.hasLane (Fin.ofNat 16 (fld (s.mkWord (eMkp s.clu[n].entry) k 1) 3 0)) = true) :
    let w1 := s.mkWord (eMkp s.clu[n].entry) k 1
    let w : Lane := Fin.ofNat 16 (fld w1 3 0)
    let at_ := s.clu[n].playStart + fld (s.mkWord (eMkp s.clu[n].entry) k 0) 29 0 * s.tsOf n
    Gives (.markerFire n k) s fun t =>
      (∃ e ∈ t.brg.inFlight, e.prod.val = 24 + 4 * w.val + fld w1 5 4 ∧ e.at_ = upTick at_) ∧ upTick at_ ≤ t.clk.now ∧
        (w1.getLsbD 30 = false → t.wl = s.wl) ∧ Within [.clk, .flg, .wl, .brg, .msix] s t := by
  intro w1 w at_
  have hplay : s.playing n at_ = true := by unfold State.playing; rw [hrun]; simp
  have hx : fld w1 5 4 < 4 := fld_lt
  have hval : (Fin.ofNat 256 (24 + 4 * w.val + fld w1 5 4)).val = 24 + 4 * w.val + fld w1 5 4 := Nat.mod_eq_of_lt (by omega)
  obtain ⟨v, hv'⟩ : ∃ v, v = (s.upto (upTick at_)).fire (24 + 4 * w.val + fld w1 5 4) (upTick at_) := ⟨_, rfl⟩
  have hfired : ∃ e ∈ v.brg.inFlight, e.prod.val = 24 + 4 * w.val + fld w1 5 4 ∧ e.at_ = upTick at_ := by
    obtain ⟨e, he, hprod, hat⟩ := ((s.upto (upTick at_)).fire_fires (24 + 4 * w.val + fld w1 5 4) (upTick at_)).there hc
      (by rw [hval]; exact State.producerOk_marker hx hl)
    exact ⟨e, hv' ▸ he, by rw [hprod, hval], hat⟩
  have hwv : Within [.clk, .flg, .brg] s v := hv' ▸ (s.upto_within _).seq (State.fire_within _ _ _)
  have hnow : upTick at_ ≤ v.clk.now := by
    rw [hv', State.fire_clk]
    exact Nat.le_max_right _ _
  obtain ⟨t, ht⟩ : ∃ t, t = if w1.getLsbD 30 then v.ncoPlanAct n at_ (fld w1 29 16) (2 + k.val) else v := ⟨_, rfl⟩
  have hwt : Within [.wl] v t := by
    rw [ht]
    exact Within.ite (State.ncoPlanAct_within _ _ _ _ _) (Within.refl _ _)
  have hgoes : ¬ ((!s.playing n at_ || !eMkpEn s.clu[n].entry || !w1.getLsbD 31 || !s.clu[n].wBound.getLsbD w ||
      decide (eLenGr s.clu[n].entry * 64 ≤ fld (s.mkWord (eMkp s.clu[n].entry) k 0) 29 0) ||
      ((s.abortFret n).any (fun a => decide (a ≤ at_)) || s.clu[n].haltsBy at_ ||
        s.clu[n].sched.any (fun j => j.checked && decide (j.mode ≠ .atEnd) && decide (s.switchAt n j ≤ at_))) ||
      !slotPlays (fld (s.mkWord (eMkp s.clu[n].entry) k 0) 31 30) s.clu[n].plays (eRepeat s.clu[n].entry)) = true) := by
    rw [hplay, hen, hv, hb, hh, hsc, hp, State.abortFret, hab]
    simpa using hpos
  refine gives_branch hu rfl ((if_neg hgoes).trans ?_) (u := t) ⟨?_, ?_, fun h30 => ?_, hwv.seq hwt⟩
  · rw [ht, hv']
  · rw [hwt.brgEq]
    exact hfired
  · rw [hwt.clkEq]
    exact hnow
  · rw [ht, if_neg (by rw [h30]; simp), hwv.wlEq]

/-- Settles O27: lines fall alone, edges and markers fire their own producer. -/
theorem linesAndMarkers : Obligations.LinesAndMarkers := by
  unfold Obligations.LinesAndMarkers
  intro s hu
  refine ⟨fun l tick h => ?_, fun i tick h => ?_, fun i level tick hl => ⟨eviEdge_fires hu hl, eviEdge_silent hu hl⟩,
    fun n k => ⟨markerFire_silent hu, markerFire_fires hu⟩⟩
  · refine gives_branch hu rfl (by dsimp only; rw [h]; rfl)
      (u := { s.upto tick with trg := { s.trg with fallAt := s.trg.fallAt.set l none } }) ⟨?_, fun m hm => ?_, rfl, rfl, ?_⟩
    · exact Vector.getElem_set_self _
    · exact Vector.getElem_set_ne l.isLt m.isLt fun e => hm (Fin.ext e.symm)
    · exact ((s.upto_within tick).mono rfl).step (Within.set_trg _ _) rfl
  · refine gives_branch hu rfl (by dsimp only; rw [h])
      (u := (s.upto tick).modBrg (fun b => { b with evo := b.evo &&& ~~~(1#16 <<< i.val), evoFall := b.evoFall.set i none }))
      ⟨rfl, ?_, fun m hm => ?_, rfl, rfl, (s.upto_within tick).seq (State.modBrg_within _ _)⟩
    · exact Vector.getElem_set_self _
    · exact Vector.getElem_set_ne i.isLt m.isLt fun e => hm (Fin.ext e.symm)

end Sys2Proof.Machine
end

