-- ==== Sys2Proof/Proofs/Loads.lean ====
section
/-! PROOF. Load strobes, their captures and their load instants (R263 to R267). -/
namespace Sys2Proof.Machine

theorem lg_of_eq {s t : State} (h : t.lg = s.lg) (g : Lg) : t.lg[g] = s.lg[g] := by rw [h]

theorem lgA_not_pend (g : Lg) (off : Nat) (h : off < 0x1000) : lgA g off ∉ pendWords := by
  simp only [pendWords, List.mem_cons, List.not_mem_nil, or_false, not_or]
  unfold lgA hostA
  omega

theorem lgA_ne {g h : Lg} (hne : h ≠ g) : lgA h 8 ≠ lgA g 8 := by
  have : h.val ≠ g.val := fun e => hne (Fin.ext e)
  unfold lgA
  omega

/-! ### A strobe (R263, R264, R267) -/

/-- A group that takes no strobe: the variant lacks it, or the device is unconfigured. -/
theorem State.strobeFire_of_none {s : State} {g : Lg} {v : Nat} (h : (s.hasLg g && s.configured) = false) : s.strobeFire g v = s := by
  unfold State.strobeFire
  rw [if_pos (by revert h; cases s.hasLg g <;> cases s.configured <;> decide)]

/-- A second strobe of one tick sets the group's flag. -/
theorem State.strobeFire_of_again {s : State} {g : Lg} {v : Nat} (h : (s.hasLg g && s.configured) = true)
    (ha : s.lg[g].strobes.contains v = true) : s.strobeFire g v = s.setBit (lgA g 8) 0 := by
  unfold State.strobeFire
  rw [if_neg (by revert h; cases s.hasLg g <;> cases s.configured <;> decide), if_pos ha]

theorem State.strobeFire_of_new {s : State} {g : Lg} {v : Nat} (h : (s.hasLg g && s.configured) = true)
    (ha : s.lg[g].strobes.contains v = false) : s.strobeFire g v = s.modLg g (fun l => { l with strobes := l.strobes ++ [v] }) := by
  unfold State.strobeFire
  rw [if_neg (by revert h; cases s.hasLg g <;> cases s.configured <;> decide), if_neg (by rw [ha]; simp)]

/-- What a strobe leaves of its group, and of the flag that tells of two in one tick. -/
def strobedGroup (takes : Bool) (v : Nat) (x : LoadGroup × Bool) : LoadGroup × Bool :=
  if takes then (if x.1.strobes.contains v then (x.1, true) else ({ x.1 with strobes := x.1.strobes ++ [v] }, x.2)) else x

/-- A load group with the flag that tells of two strobes in one tick. -/
def State.lgSeen (s : State) (g : Lg) : LoadGroup × Bool := (s.lg[g], (s.flag (lgA g 8)).getLsbD 0)

theorem State.strobeFire_self (s : State) (g : Lg) (v : Nat) :
    (s.strobeFire g v).lgSeen g = strobedGroup (s.hasLg g && s.configured) v (s.lgSeen g) := by
  unfold strobedGroup
  cases ht : s.hasLg g && s.configured
  · rw [State.strobeFire_of_none ht]; rfl
  · cases ha : s.lg[g].strobes.contains v
    · rw [State.strobeFire_of_new ht ha, if_pos rfl, if_neg (by unfold State.lgSeen; rw [ha]; simp)]
      unfold State.lgSeen
      rw [State.modLg_self]; rfl
    · rw [State.strobeFire_of_again ht ha, if_pos rfl, if_pos (by unfold State.lgSeen; exact ha)]
      unfold State.lgSeen
      rw [lg_of_eq (State.setBit_within _ _ _).lgEq, State.flagBit_setBit _ (lgA_not_pend g 8 (by decide)) (by decide)]

theorem State.strobeFire_lg_other (s : State) {g h : Lg} (v : Nat) (hne : h ≠ g) : (s.strobeFire g v).lg[h] = s.lg[h] := by
  cases ht : s.hasLg g && s.configured
  · rw [State.strobeFire_of_none ht]
  · cases ha : s.lg[g].strobes.contains v
    · rw [State.strobeFire_of_new ht ha, State.modLg_other _ _ _ hne]
    · rw [State.strobeFire_of_again ht ha, lg_of_eq (State.setBit_within _ _ _).lgEq]

theorem State.strobeFire_flags (s : State) (g : Lg) (v : Nat) : FlagsBut [lgA g 8] s (s.strobeFire g v) := by
  cases ht : s.hasLg g && s.configured
  · rw [State.strobeFire_of_none ht]; exact FlagsBut.refl _ s
  · cases ha : s.lg[g].strobes.contains v
    · rw [State.strobeFire_of_new ht ha]; exact (State.modLg_within _ _ _).flagsBut _
    · rw [State.strobeFire_of_again ht ha]; exact (FlagsBut.refl _ s).setBit _ (List.mem_singleton_self _)

theorem State.strobeFire_other (s : State) {g h : Lg} (v : Nat) (hne : h ≠ g) : (s.strobeFire g v).lgSeen h = s.lgSeen h := by
  unfold State.lgSeen
  rw [s.strobeFire_lg_other v hne, s.strobeFire_flags g v _ (by simpa using lgA_ne hne) (lgA_not_pend h 8 (by decide))]

/-- What a strobe at tick v leaves of a group, in the words of the statement. -/
def Strobed (h : Lg) (v : Nat) (s t : State) : Prop :=
  t.lg[h] = (if s.hasLg h && s.configured && !s.lg[h].strobes.contains v then { s.lg[h] with strobes := s.lg[h].strobes ++ [v] } else s.lg[h]) ∧
    (s.hasLg h = true → s.configured = true → s.lg[h].strobes.contains v = true → (t.flag (lgA h 8)).getLsbD 0 = true)

theorem Strobed.of_seen {h : Lg} {v : Nat} {s t : State} (hs : t.lgSeen h = strobedGroup (s.hasLg h && s.configured) v (s.lgSeen h)) :
    Strobed h v s t := by
  have h1 := congrArg Prod.fst hs
  have h2 := congrArg Prod.snd hs
  unfold strobedGroup at h1 h2
  refine ⟨h1.trans ?_, fun ha hc hv => h2.trans ?_⟩
  · cases ht : s.hasLg h && s.configured
    · rfl
    · cases hv : s.lg[h].strobes.contains v <;> (unfold State.lgSeen; dsimp only; rw [hv]; rfl)
  · rw [ha, hc]
    unfold State.lgSeen
    dsimp only
    rw [hv]; rfl

theorem State.hasLg_congr {s t : State} (h : t.part = s.part) (g : Lg) : t.hasLg g = s.hasLg g := by
  unfold State.hasLg
  rw [h]

/-! ### LOAD_N (R263, R266, R297) -/

/-- Every group that LOAD_N serves is strobed. -/
def State.loadN (s : State) (v : Nat) : State := (allFin 6).foldl (fun s g => if s.effB (lgA g 0) 1 then s.strobeFire g v else s) s

theorem State.loadN_within (s : State) (v : Nat) : Within [.flg, .lg, .msix] s (s.loadN v) :=
  (Within.refl _ s).fold fun u g h => h.step (Within.ite (u.strobeFire_within g v) (Within.refl _ u)) rfl

theorem State.loadN_seen (s : State) (v : Nat) (h : Lg) : (s.loadN v).lgSeen h =
    if s.effB (lgA h 0) 1 then strobedGroup (s.hasLg h && s.configured) v (s.lgSeen h) else s.lgSeen h := by
  have hw : ∀ (u : State) (g : Lg), Within [.flg, .lg, .msix] u (if u.effB (lgA g 0) 1 then u.strobeFire g v else u) := fun u g =>
    Within.ite (u.strobeFire_within g v) (Within.refl _ u)
  unfold State.loadN
  refine foldl_allFin (s := s) (fun u => u.eff = s.eff ∧ u.part = s.part ∧ u.img = s.img) (fun u g => u.lgSeen g)
    (fun u g => if u.effB (lgA g 0) 1 then u.strobeFire g v else u)
    (fun g x => if s.effB (lgA g 0) 1 then strobedGroup (s.hasLg g && s.configured) v x else x)
    (fun u g hi => ?_) (fun u g hi => ?_) (fun u g q hq => ?_) ⟨rfl, rfl, rfl⟩ h
  · obtain ⟨he, hp, him⟩ := hi
    exact ⟨(hw u g).effEq.trans he, (hw u g).partEq.trans hp, (hw u g).imgEq.trans him⟩
  · obtain ⟨he, hp, him⟩ := hi
    rw [State.effB_congr he]
    split
    · rw [u.strobeFire_self, State.hasLg_congr hp, State.configured_congr him]
    · rfl
  · split
    · exact u.strobeFire_other v hq
    · rfl

theorem loadNEdge_gives {s : State} (at_ low : Nat) (hu : s.undef = false) : Gives (.loadNEdge ⟨at_, low⟩) s fun t =>
    let taken := 16 ≤ low ∧ s.brg.loadNRise.all (fun r => decide (r + 16 ≤ at_)) = true
    (taken → ∀ h : Lg, s.effB (lgA h 0) 1 = true → Strobed h at_ s t) ∧ (∀ h : Lg, s.effB (lgA h 0) 1 = false → t.lg[h] = s.lg[h]) ∧
      (¬ taken → t.lg = s.lg) ∧ t.brg.loadNRise = some (at_ + low) ∧
      (s.configured = true → ∃ e ∈ t.brg.inFlight, e.prod.val = 244 ∧ e.at_ = at_) ∧ t.clk.now = max s.clk.now at_ ∧
      Within [.clk, .flg, .lg, .brg, .msix] s t := by
  obtain ⟨v, hv⟩ : ∃ v, v = ((s.upto at_).fire 244 at_).modBrg (fun b => { b with loadNRise := some (at_ + low) }) := ⟨_, rfl⟩
  have hfired : s.configured = true → ∃ e ∈ v.brg.inFlight, e.prod.val = 244 ∧ e.at_ = at_ := fun hc =>
    hv ▸ (s.upto at_).fire_there at_ (by omega) hc
  have hrise : v.brg.loadNRise = some (at_ + low) := by rw [hv]; rfl
  have hnow : v.clk.now = max s.clk.now at_ := by
    rw [hv, State.modBrg_clk, State.fire_clk]
    rfl
  have hw : Within [.clk, .flg, .brg] s v :=
    hv ▸ ((s.upto_within at_).seq (State.fire_within _ _ _) (l := [.clk, .flg, .brg])).seq (State.modBrg_within _ _)
  have hseen : ∀ h : Lg, v.lgSeen h = s.lgSeen h := fun h => by
    unfold State.lgSeen
    have hflag : v.flag (lgA h 8) = s.flag (lgA h 8) := by
      rw [hv]
      exact (s.upto at_).fire_flag _ _ (Or.inr (by unfold lgA brgA; omega))
    rw [hw.lgEq, hflag]
  obtain ⟨t, ht⟩ : ∃ t, t = if 16 ≤ low ∧ s.brg.loadNRise.all (fun r => decide (r + 16 ≤ at_)) = true then v.loadN at_ else v := ⟨_, rfl⟩
  have hwt : Within [.flg, .lg, .msix] v t := ht ▸ Within.ite (v.loadN_within at_) (Within.refl _ v)
  refine gives_branch hu rfl (u := t) ?_ ⟨fun htk h he => ?_, fun h he => ?_, fun htk => ?_, ?_, ?_, ?_, hw.seq hwt⟩
  · rw [ht, hv]
    simp only [Bool.and_eq_true, decide_eq_true_eq]
    rfl
  · rw [ht, if_pos htk]
    refine Strobed.of_seen ?_
    rw [v.loadN_seen, State.effB_congr hw.effEq, if_pos he, hseen, State.hasLg_congr hw.partEq, State.configured_congr hw.imgEq]
  · rw [ht]
    split
    · have := congrArg Prod.fst (v.loadN_seen at_ h)
      rw [State.effB_congr hw.effEq, if_neg (by rw [he]; simp), hseen] at this
      exact this
    · exact lg_of_eq hw.lgEq h
  · rw [ht, if_neg htk, hw.lgEq]
  · rw [hwt.brgEq, hrise]
  · rw [hwt.brgEq]
    exact hfired
  · rw [hwt.clkEq, hnow]

/-! ### LOAD_CAPTURE (R263, R264) -/

theorem loadCapture_gives {s : State} {g : Lg} {v : Nat} (hu : s.undef = false) (hm : minNat s.lg[g].strobes = some v) :
    let x : Captured := { capAt := v + 8, loadAt := s.loadAt v
                          codes := (List.range 8).map (fun i => s.captureCode (v + 8) (lgChan g i)) }
    Gives (.loadCapture g) s fun t =>
      t.lg[g] = { strobes := s.lg[g].strobes.erase v
                  captured := s.lg[g].captured.filter (fun y => decide (y.loadAt ≠ s.loadAt v)) ++ [x] } ∧ LgBut g s t ∧
      t.counter (lgA g 4) = min (s.counter (lgA g 4) + 1) top32 ∧ CtrsBut [lgA g 4] s t ∧
      (s.lg[g].captured.any (fun y => decide (y.loadAt = s.loadAt v)) = true → (t.flag (lgA g 8)).getLsbD 0 = true) ∧
      t.clk = (s.upto (v + 8)).clk ∧ Within [.clk, .flg, .ctr, .lg, .msix] s t := by
  intro x
  obtain ⟨m, hmer⟩ : ∃ m, m = s.lg[g].captured.any (fun y => decide (y.loadAt = s.loadAt v)) := ⟨_, rfl⟩
  obtain ⟨w, hwdef⟩ : ∃ w, w = ((s.upto (v + 8)).count (lgA g 4) 1).setBitIf m (lgA g 8) 0 := ⟨_, rfl⟩
  have hcount := (s.upto (v + 8)).count_within (lgA g 4) 1
  have hset : Within [.flg, .msix] ((s.upto (v + 8)).count (lgA g 4) 1) w := hwdef ▸ State.setBitIf_within _ _ _ _
  have hlg : w.lg = s.lg := hset.lgEq.trans hcount.lgEq
  obtain ⟨t, ht⟩ : ∃ t, t = w.modLg g (fun l => { strobes := l.strobes.erase v
                                                  captured := l.captured.filter (fun y => decide (y.loadAt ≠ s.loadAt v)) ++ [x] }) := ⟨_, rfl⟩
  have hmod : Within [.lg] w t := ht ▸ State.modLg_within _ _ _
  have hall : Within [.clk, .flg, .ctr, .lg, .msix] s t :=
    (((s.upto_within (v + 8)).seq hcount (l := [.clk, .ctr])).seq hset (l := [.clk, .ctr, .flg, .msix])).seq hmod
  refine gives_branch hu rfl (u := t) ?_ ⟨?_, fun h hh => ?_, ?_, ?_, fun hy => ?_, ?_, hall⟩
  · dsimp only
    rw [hm, ht, hwdef, hmer]
    rfl
  · rw [ht, State.modLg_self, hlg]
  · rw [ht, State.modLg_other _ _ _ hh, hlg]
  · rw [hmod.counterEq, hset.counterEq, counter_count_self _ _ _ (by decide)]
    rfl
  · exact (((s.upto_within _).ctrsBut _).count 1 (List.mem_singleton_self _)).trans ((hset.ctrsBut _).trans (hmod.ctrsBut _))
  · rw [hmod.flagEq, hwdef]
    exact State.flagBit_setBitIf _ (hmer.trans hy) (lgA_not_pend g 8 (by decide)) (by decide)
  · rw [hmod.clkEq, hset.clkEq, hcount.clkEq]

/-! ### LOAD_INSTANT (R263) -/

/-- A channel as a load instant in the present tick leaves it. -/
def Level.loaded (l : Level) (code : BitVec 20) (now : Nat) : Level :=
  let waits := decide (l.state = .settling) || (decide (l.state = .spanChange) && !l.driven)
  { l with active := code, due := if waits then max l.due (now + 32000) else l.due }

theorem State.lvlLoad_self (s : State) (c : Lvl) (code : BitVec 20) : (s.lvlLoad c code).lvl[c] = s.lvl[c].loaded code s.clk.now := by
  have h : (s.lvlLoad c code).lvl = (s.modLvl c (fun l => l.loaded code s.clk.now)).lvl := (State.monDisturb_within _ _).lvlEq
  rw [h, State.modLvl_self]

theorem State.lvlLoad_other (s : State) {c d : Lvl} (code : BitVec 20) (hd : d ≠ c) : (s.lvlLoad c code).lvl[d] = s.lvl[d] := by
  have h : (s.lvlLoad c code).lvl = (s.modLvl c (fun l => l.loaded code s.clk.now)).lvl := (State.monDisturb_within _ _).lvlEq
  rw [h, State.modLvl_other _ _ _ hd]

theorem lgChan_val (g : Lg) (i : Fin 8) : (lgChan g i.val).val = 8 * g.val + i.val := Nat.mod_eq_of_lt (by omega)

/-- The copied codes of a group become active. -/
def State.loadCodes (s : State) (g : Lg) (codes : List (BitVec 20)) : State :=
  (List.range 8).foldl (fun s i => match codes[i]? with | some v => s.lvlLoad (lgChan g i) v | none => s) s

/-- One channel of a group takes its copied code. -/
def State.loadCode (s : State) (g : Lg) (codes : List (BitVec 20)) (i : Fin 8) : State :=
  match codes[i.val]? with | some v => s.lvlLoad (lgChan g i.val) v | none => s

theorem State.loadCodes_eq (s : State) (g : Lg) (codes : List (BitVec 20)) :
    s.loadCodes g codes = (allFin 8).foldl (fun s i => s.loadCode g codes i) s := by
  unfold State.loadCodes
  rw [← List.map_coe_finRange_eq_range, List.foldl_map]
  rfl

theorem State.loadCode_within (s : State) (g : Lg) (codes : List (BitVec 20)) (i : Fin 8) : Within [.lvl, .mon] s (s.loadCode g codes i) := by
  unfold State.loadCode
  split
  · exact State.lvlLoad_within _ _ _
  · exact Within.refl _ s

theorem State.loadCode_other (s : State) (g : Lg) (codes : List (BitVec 20)) (i : Fin 8) {d : Lvl} (h : d ≠ lgChan g i.val) :
    (s.loadCode g codes i).lvl[d] = s.lvl[d] := by
  unfold State.loadCode
  split
  · exact s.lvlLoad_other _ h
  · rfl

theorem State.loadCodes_within (s : State) (g : Lg) (codes : List (BitVec 20)) : Within [.lvl, .mon] s (s.loadCodes g codes) :=
  s.loadCodes_eq g codes ▸ (Within.refl _ s).fold fun u i h => h.step (u.loadCode_within g codes i) rfl

theorem State.loadCodes_chan (s : State) (g : Lg) (codes : List (BitVec 20)) (i : Fin 8) {v : BitVec 20} (hv : codes[i.val]? = some v) :
    (s.loadCodes g codes).lvl[lgChan g i.val] = s.lvl[lgChan g i.val].loaded v s.clk.now := by
  rw [State.loadCodes_eq]
  refine (foldl_allFin (s := s) (fun u => u.clk = s.clk) (fun u (j : Fin 8) => u.lvl[lgChan g j.val]) (fun u j => u.loadCode g codes j)
    (fun j x => match codes[j.val]? with | some v => x.loaded v s.clk.now | none => x)
    (fun u j hj => ((u.loadCode_within g codes j).clkEq).trans hj) (fun u j hj => ?_) (fun u j k hk => ?_) rfl i).trans (by rw [hv])
  · unfold State.loadCode
    split
    · rw [State.lvlLoad_self, hj]
    · rfl
  · refine u.loadCode_other g codes j fun h => hk (Fin.ext ?_)
    have := congrArg Fin.val h
    rw [lgChan_val, lgChan_val] at this
    omega

theorem State.loadCodes_other (s : State) (g : Lg) (codes : List (BitVec 20)) {d : Lvl} (hd : d.val / 8 ≠ g.val) :
    (s.loadCodes g codes).lvl[d] = s.lvl[d] := by
  rw [State.loadCodes_eq]
  refine foldl_keeps (fun u : State => u.lvl[d]) _ _ (fun u j => u.loadCode_other g codes j fun h => hd ?_) s
  rw [h, lgChan_val]
  omega

theorem loadInstant_gives {s : State} {g : Lg} {x : Captured} (hu : s.undef = false)
    (hm : minNat (s.lg[g].captured.map Captured.loadAt) = some x.loadAt)
    (hx : s.lg[g].captured.find? (fun y => decide (y.loadAt = x.loadAt)) = some x) : Gives (.loadInstant g) s fun t =>
    t.lg[g] = { s.lg[g] with captured := s.lg[g].captured.filter (fun y => decide (y.loadAt ≠ x.loadAt)) } ∧ LgBut g s t ∧
      (∀ (i : Fin 8) (v : BitVec 20), x.codes[i.val]? = some v →
        t.lvl[lgChan g i.val] = s.lvl[lgChan g i.val].loaded v t.clk.now) ∧
      (∀ d : Lvl, d.val / 8 ≠ g.val → t.lvl[d] = s.lvl[d]) ∧ t.clk.now = max s.clk.now x.loadAt ∧
      Within [.clk, .lvl, .lg, .mon] s t := by
  obtain ⟨v, hv⟩ : ∃ v, v = (s.upto x.loadAt).modLg g
    (fun l => { l with captured := l.captured.filter (fun y => decide (y.loadAt ≠ x.loadAt)) }) := ⟨_, rfl⟩
  have hwv : Within [.clk, .lg] s v := hv ▸ (s.upto_within _).seq (State.modLg_within _ _ _)
  have hwt := v.loadCodes_within g x.codes
  have hlvl : ∀ d : Lvl, v.lvl[d] = s.lvl[d] := fun d => by rw [hwv.lvlEq]
  refine gives_branch hu rfl (u := v.loadCodes g x.codes) ?_
    ⟨?_, fun h hh => ?_, fun i y hy => ?_, fun d hd => ?_, ?_, hwv.seq hwt⟩
  · dsimp only
    rw [hm]
    dsimp only
    rw [show (s.upto x.loadAt).lg[g].captured.find? (fun y => decide (y.loadAt = x.loadAt)) = some x from hx, hv]
    rfl
  · rw [lg_of_eq hwt.lgEq, hv, State.modLg_self]; rfl
  · rw [lg_of_eq hwt.lgEq, hv, State.modLg_other _ _ _ hh]; rfl
  · rw [v.loadCodes_chan g x.codes i hy, hlvl, hwt.clkEq]
  · rw [v.loadCodes_other g x.codes hd, hlvl]
  · rw [hwt.clkEq, hv]; rfl

/-- Settles O44: strobes are taken, captured and act, each on its own group. -/
theorem loadsCaptureAndAct : Obligations.LoadsCaptureAndAct := by
  unfold Obligations.LoadsCaptureAndAct
  intro s g hu strobed
  refine ⟨?_, fun at_ low => loadNEdge_gives at_ low hu, fun v hm => loadCapture_gives hu hm, fun x hm hx => ?_⟩
  · have hw := State.cmdTake_within s (lgA g 0) 1
    have hseen : (s.cmdTake (lgA g 0) 1).lgSeen g = s.lgSeen g := by
      unfold State.lgSeen
      rw [hw.lgEq, hw.flagEq]
    have hf := (s.cmdTake (lgA g 0) 1).strobeFire_within g s.clk.now
    refine gives_next (u := (s.cmdTake (lgA g 0) 1).strobeFire g s.clk.now) hu rfl
      ⟨Strobed.of_seen ?_, fun h hh => ?_, ?_, (State.cmdTake_takes s _ _).cmd_eq hf.cmdEq hf.moreEq, hw.seq hf⟩
    · rw [State.strobeFire_self, hseen, State.hasLg_congr hw.partEq, State.configured_congr hw.imgEq]
    · rw [State.strobeFire_lg_other _ _ hh, lg_of_eq hw.lgEq]
    · exact (hw.flagsBut _).trans (State.strobeFire_flags _ _ _)
  · obtain ⟨t, hx, hg, hb, hc, hd, hn, hw⟩ := loadInstant_gives hu hm hx
    refine ⟨t, hx, hg, hb, fun i v hv => (hc i v hv).trans ?_, hd, hn, hw⟩
    unfold Level.loaded
    simp only [Bool.or_eq_true, Bool.and_eq_true, decide_eq_true_eq, Bool.not_eq_true']

end Sys2Proof.Machine
end

