-- ==== Sys2Proof/Proofs/BridgeHops.lean ====
section
/-! PROOF. A hop of the Bridge and what each consumer that it reaches does (R284 to R298). -/
namespace Sys2Proof.Machine

/-! ### One index of a fold -/

/-- What one step of a fold brings about, and every other keeps, holds at the end. -/
theorem foldl_reaches {ι : Type} (inv P : State → Prop) (f : State → ι → State) {x : ι} (hinv : ∀ u y, inv u → inv (f u y))
    (hx : ∀ u, inv u → P (f u x)) (hkeep : ∀ u y, inv u → P u → P (f u y)) :
    ∀ (l : List ι) (s : State), x ∈ l → inv s → P (l.foldl f s) := by
  have hstay : ∀ (l : List ι) (s : State), inv s → P s → P (l.foldl f s) := by
    intro l
    induction l with
    | nil => exact fun _ _ h => h
    | cons y r ih => exact fun s hs hp => ih (f s y) (hinv s y hs) (hkeep s y hs hp)
  intro l
  induction l with
  | nil => exact fun s h => absurd h List.not_mem_nil
  | cons y r ih =>
    intro s hm hs
    rcases List.mem_cons.mp hm with rfl | hm
    · exact hstay r _ (hinv s x hs) (hx s hs)
    · exact ih (f s y) hm (hinv s y hs)

/-- A part of the state that one step of a fold alone touches is, at the end, what that step makes of it. -/
theorem foldl_at {ι α : Type} (inv : State → Prop) (get : State → α) (Q : α → Prop) (f : State → ι → State) {x : ι}
    (hinv : ∀ u y, inv u → inv (f u y)) (hother : ∀ u y, y ≠ x → inv u → get (f u y) = get u) :
    ∀ (l : List ι) (s : State), l.Nodup → x ∈ l → inv s → (∀ u, inv u → get u = get s → Q (get (f u x))) → Q (get (l.foldl f s)) := by
  have hstay : ∀ (l : List ι) (s : State), x ∉ l → inv s → get (l.foldl f s) = get s := by
    intro l
    induction l with
    | nil => exact fun _ _ _ => rfl
    | cons y r ih =>
      intro s hm hs
      rw [List.foldl_cons, ih _ (fun h => hm (List.mem_cons_of_mem _ h)) (hinv s y hs),
        hother s y (fun e => hm (e ▸ List.mem_cons_self)) hs]
  intro l
  induction l with
  | nil => exact fun s _ h => absurd h List.not_mem_nil
  | cons y r ih =>
    intro s hn hm hs hq
    obtain ⟨hy, hr⟩ := List.nodup_cons.mp hn
    rw [List.foldl_cons]
    by_cases hyx : y = x
    · subst hyx
      rw [hstay r _ hy (hinv s y hs)]
      exact hq s hs rfl
    · refine ih (f s y) hr ((List.mem_cons.mp hm).resolve_left fun e => hyx e.symm) (hinv s y hs) fun u hu hg => ?_
      exact hq u hu (hg.trans (hother s y hyx hs))

/-! ### What each kind of consumer leaves alone -/

theorem State.evoFire_brg (s : State) (i : Fin 16) (v : Nat) : ∃ a b, (s.evoFire i v).brg = { s.brg with evo := a, evoFall := b } := by
  unfold State.evoFire
  split <;> exact ⟨_, _, rfl⟩

theorem State.timerStart_brg (s : State) (k : Fin 8) (v : Nat) : ∃ a, (s.timerStart k v).brg = { s.brg with timers := a } := by
  by_cases h : s.configured = true ∧ s.brg.timers[k].stopAt ≠ some v
  · rw [State.timerStart_of h.1 h.2]; exact ⟨_, rfl⟩
  · rw [State.timerStart_of_not h]; exact ⟨_, rfl⟩

theorem State.watch_brg (s : State) (c : Nat) (e : BrgEvt) : ∃ a b d g, (s.watch c e).brg =
    { s.brg with watchValid := a, watchData := b, watchSrc := d, watchTime := g } := by
  unfold State.watch
  split <;> exact ⟨_, _, _, _, rfl⟩

/-- The meanings of a consumer number. -/
inductive ConsumeCase (s : State) (c : Nat) (e : BrgEvt) (stops : List Nat) : State → Prop
  | cond (h : c < 128) : ConsumeCase s c e stops (s.condFire (Fin.ofNat 8 (c / 16)) (Fin.ofNat 16 (c % 16)) e.at_)
  | evo (h : 128 ≤ c) (h2 : c < 144) : ConsumeCase s c e stops (s.evoFire (Fin.ofNat 16 (c - 128)) (e.at_ + 1))
  | load (h : 144 ≤ c) (h2 : c < 150) : ConsumeCase s c e stops (s.strobeFire (Fin.ofNat 6 (c - 144)) e.at_)
  | send (h : 160 ≤ c) (h2 : c < 192) : ConsumeCase s c e stops (s.linkSend (Fin.ofNat 32 (c - 160)) e.carried (BitVec.ofNat 8 e.prod.val) e.data)
  | start (h : 192 ≤ c) (h2 : c < 200) (h3 : stops.contains (c - 192) = false) :
      ConsumeCase s c e stops (s.timerStart (Fin.ofNat 8 (c - 192)) (e.at_ + 1))
  | stop (h : 200 ≤ c) (h2 : c < 208) : ConsumeCase s c e stops (s.timerStop (Fin.ofNat 8 (c - 200)) (e.at_ + 1))
  | skip (h : (192 ≤ c ∧ c < 200 ∧ stops.contains (c - 192) = true) ∨ (150 ≤ c ∧ c < 160) ∨ 208 ≤ c) : ConsumeCase s c e stops s

theorem State.consume_case (s : State) (c : Nat) (e : BrgEvt) (stops : List Nat) : ConsumeCase s c e stops (s.consume c e stops) := by
  unfold State.consume
  split
  · exact .cond ‹_›
  · split
    · exact .evo (by omega) ‹_›
    · split
      · exact .load (by omega) ‹_›
      · split
        · rename_i h; exact .send h.1 h.2
        · split
          · rename_i h
            split
            · rename_i hs; exact .skip (Or.inl ⟨h.1, h.2, hs⟩)
            · rename_i hs; exact .start h.1 h.2 (by simpa using hs)
          · split
            · rename_i h; exact .stop h.1 h.2
            · exact .skip (by omega)

theorem getLsbD_bit {n i j : Nat} (hi : i < n) : (1#n <<< j).getLsbD i = decide (i = j) := by
  rw [BitVec.getLsbD_shiftLeft, BitVec.getLsbD_one]
  by_cases h : i = j
  · subst h; simp [hi]; omega
  · by_cases hlt : i < j
    · simp [hlt, h]
    · have : ¬ (i - j = 0) := by omega
      simp [h, this]

/-- An EVO line with the tick at which it falls. -/
def State.evoSeen (s : State) (i : Fin 16) : Bool × Option Nat := (s.brg.evo.getLsbD i, s.brg.evoFall[i])

theorem evoSeen_of_brg {s t : State} (i : Fin 16) (h : t.brg.evo = s.brg.evo) (h2 : t.brg.evoFall = s.brg.evoFall) :
    t.evoSeen i = s.evoSeen i := by
  unfold State.evoSeen
  rw [h, h2]

theorem State.evoFire_toggle {s : State} {i : Fin 16} (v : Nat) (h : s.evoToggles i = true) :
    (s.evoFire i v).evoSeen i = (!s.brg.evo.getLsbD i, none) := by
  unfold State.evoFire
  rw [if_pos h]
  refine Prod.ext ?_ (Vector.getElem_set_self _)
  show (s.brg.evo ^^^ (1#16 <<< i.val)).getLsbD i = _
  rw [BitVec.getLsbD_xor, getLsbD_bit i.isLt, decide_eq_true rfl, Bool.xor_true]

theorem State.evoFire_pulse {s : State} {i : Fin 16} (v : Nat) (h : s.evoToggles i = false) :
    (s.evoFire i v).evoSeen i = (true, some (v + s.effF (brgA (0x2C40 + 4 * i.val)) 13 8 + 1)) := by
  unfold State.evoFire
  rw [if_neg (by rw [h]; simp)]
  refine Prod.ext ?_ (Vector.getElem_set_self _)
  show (s.brg.evo ||| (1#16 <<< i.val)).getLsbD i = _
  rw [BitVec.getLsbD_or, getLsbD_bit i.isLt, decide_eq_true rfl, Bool.or_true]

theorem State.evoFire_other (s : State) {i j : Fin 16} (v : Nat) (h : j ≠ i) : (s.evoFire i v).evoSeen j = s.evoSeen j := by
  have hne : ¬ (j.val = i.val) := fun e => h (Fin.ext e)
  unfold State.evoFire
  split
  · refine Prod.ext ?_ (Vector.getElem_set_ne i.isLt j.isLt fun e => hne e.symm)
    show (s.brg.evo ^^^ (1#16 <<< i.val)).getLsbD j = _
    rw [BitVec.getLsbD_xor, getLsbD_bit j.isLt, decide_eq_false hne, Bool.xor_false]
    rfl
  · refine Prod.ext ?_ (Vector.getElem_set_ne i.isLt j.isLt fun e => hne e.symm)
    show (s.brg.evo ||| (1#16 <<< i.val)).getLsbD j = _
    rw [BitVec.getLsbD_or, getLsbD_bit j.isLt, decide_eq_false hne, Bool.or_false]
    rfl

theorem State.timerStart_other (s : State) {k j : Fin 8} (v : Nat) (h : j ≠ k) : (s.timerStart k v).brg.timers[j] = s.brg.timers[j] := by
  by_cases hc : s.configured = true ∧ s.brg.timers[k].stopAt ≠ some v
  · rw [State.timerStart_of hc.1 hc.2, State.modTmr_other _ _ h]; rfl
  · rw [State.timerStart_of_not hc]

/-- A START takes words of its own timer alone into force. -/
theorem State.timerStart_effW (s : State) (k : Fin 8) (v : Nat) {a : Nat} (ha : a < brgA 0x2800 ∨ brgA 0x2900 ≤ a) :
    (s.timerStart k v).effW a = s.effW a := by
  by_cases hc : s.configured = true ∧ s.brg.timers[k].stopAt ≠ some v
  · rw [State.timerStart_of hc.1 hc.2]
    have h1 : a ≠ tmrRepeatA k := by unfold tmrRepeatA; unfold brgA at *; omega
    have h2 : a ≠ tmrPeriodA k := by unfold tmrPeriodA; unfold brgA at *; omega
    exact (State.effW_applyDue_other _ _ h1).trans (State.effW_applyDue_other _ _ h2)
  · rw [State.timerStart_of_not hc]

theorem State.condFire_clu_other (s : State) {n m : Clu} (i : Fin 16) (v : Nat) (h : m ≠ n) : (s.condFire n i v).clu[m] = s.clu[m] := by
  unfold State.condFire
  split
  · rfl
  · exact State.modClu_other _ _ _ h

/-- A request is sent to an input that the Bridge feeds. -/
theorem State.condFire_sends {s : State} {n : Clu} {i : Fin 16} (v : Nat) (h : s.condSrc n i = 0) :
    (s.condFire n i v).clu[n].arriving = s.clu[n].arriving ++ [{ cond := i, ts := v }] := by
  unfold State.condFire
  rw [if_neg (by simpa using h), State.modClu_self]

/-- Requests on their way stay on their way. -/
theorem State.condFire_keeps (s : State) (n m : Clu) (i : Fin 16) (v : Nat) {r : Req} (h : r ∈ s.clu[m].arriving) :
    r ∈ (s.condFire n i v).clu[m].arriving := by
  unfold State.condFire
  split
  · exact h
  · by_cases hm : m = n
    · subst hm
      rw [State.modClu_self]
      exact List.mem_append_left _ h
    · rw [State.modClu_other _ _ _ hm]
      exact h

theorem fin_ofNat_val {n c : Nat} [NeZero n] (h : c < n) : (Fin.ofNat n c).val = c := Nat.mod_eq_of_lt h

/-- What a consumer leaves of what it does not act on. -/
structure ConsumeKeeps (c : Nat) (stops : List Nat) (s t : State) : Prop where
  inFlight : t.brg.inFlight = s.brg.inFlight
  evo : ∀ i : Fin 16, c ≠ 128 + i.val → t.evoSeen i = s.evoSeen i
  timer : ∀ k : Fin 8, (c ≠ 192 + k.val ∨ stops.contains k.val = true) → c ≠ 200 + k.val → t.brg.timers[k] = s.brg.timers[k]
  group : ∀ g : Lg, c ≠ 144 + g.val → t.lg[g] = s.lg[g]
  clu : ∀ n : Clu, 128 ≤ c ∨ c / 16 ≠ n.val → t.clu[n] = s.clu[n]
  arriving : ∀ (n : Clu) (r : Req), r ∈ s.clu[n].arriving → r ∈ t.clu[n].arriving
  link : c < 160 ∨ 192 ≤ c → t.link = s.link
  fired : ∀ a, brgA 0x2020 ≤ a → a < brgA 0x2040 → t.flag a = s.flag a
  part : t.part = s.part
  img : t.img = s.img
  clk : t.clk = s.clk
  word : ∀ a, a < brgA 0x2800 ∨ brgA 0x2900 ≤ a → t.effW a = s.effW a

theorem ConsumeKeeps.refl (c : Nat) (stops : List Nat) (s : State) : ConsumeKeeps c stops s s :=
  ⟨rfl, fun _ _ => rfl, fun _ _ _ => rfl, fun _ _ => rfl, fun _ _ => rfl, fun _ _ h => h, fun _ => rfl, fun _ _ _ => rfl, rfl, rfl, rfl,
    fun _ _ => rfl⟩

theorem ConsumeKeeps.trans {c : Nat} {stops : List Nat} {s t u : State} (h : ConsumeKeeps c stops s t) (k : ConsumeKeeps c stops t u) :
    ConsumeKeeps c stops s u :=
  ⟨k.inFlight.trans h.inFlight, fun i hi => (k.evo i hi).trans (h.evo i hi), fun j h1 h2 => (k.timer j h1 h2).trans (h.timer j h1 h2),
    fun g hg => (k.group g hg).trans (h.group g hg), fun n hn => (k.clu n hn).trans (h.clu n hn),
    fun n r hr => k.arriving n r (h.arriving n r hr), fun hc => (k.link hc).trans (h.link hc),
    fun a h1 h2 => (k.fired a h1 h2).trans (h.fired a h1 h2), k.part.trans h.part, k.img.trans h.img, k.clk.trans h.clk,
    fun a ha => (k.word a ha).trans (h.word a ha)⟩

/-- An operation that touches only some parts keeps all that lies in others. -/
theorem ConsumeKeeps.of_brg {c : Nat} {stops : List Nat} {s t : State} (hw : Within [.brg] s t)
    (hf : t.brg.inFlight = s.brg.inFlight) (he : ∀ i : Fin 16, c ≠ 128 + i.val → t.evoSeen i = s.evoSeen i)
    (ht : ∀ k : Fin 8, (c ≠ 192 + k.val ∨ stops.contains k.val = true) → c ≠ 200 + k.val → t.brg.timers[k] = s.brg.timers[k]) :
    ConsumeKeeps c stops s t :=
  ⟨hf, he, ht, fun g _ => lg_of_eq hw.lgEq g, fun n _ => getClu_of_eq (hw.cluEq (by decide)) n,
    fun n r h => by rw [getClu_of_eq (hw.cluEq (by decide)) n]; exact h, fun _ => hw.linkEq, fun a _ _ => hw.flagEq a,
    hw.partEq, hw.imgEq, hw.clkEq, fun a _ => State.effW_congr hw.effEq a⟩

theorem State.consume_keeps (s : State) (c : Nat) (e : BrgEvt) (stops : List Nat) : ConsumeKeeps c stops s (s.consume c e stops) := by
  have hcase := s.consume_case c e stops
  generalize s.consume c e stops = t at hcase
  cases hcase with
  | cond h =>
    have hn : (Fin.ofNat 8 (c / 16)).val = c / 16 := fin_ofNat_val (by omega)
    have hw := s.condFire_within (Fin.ofNat 8 (c / 16)) (Fin.ofNat 16 (c % 16)) e.at_
    have hb := hw.brgEq
    exact ⟨by rw [hb], fun i _ => evoSeen_of_brg i (by rw [hb]) (by rw [hb]), fun k _ _ => by rw [hb], fun g _ => lg_of_eq hw.lgEq g,
      fun n hne => s.condFire_clu_other _ _ fun he => by rw [he, hn] at hne; omega,
      fun n r hr => s.condFire_keeps _ n _ _ hr, fun _ => hw.linkEq, fun a _ _ => hw.flagEq a, hw.partEq, hw.imgEq, hw.clkEq,
      fun a _ => State.effW_congr hw.effEq a⟩
  | evo h h2 =>
    have hi : (Fin.ofNat 16 (c - 128)).val = c - 128 := fin_ofNat_val (by omega)
    obtain ⟨a, b, hb⟩ := s.evoFire_brg (Fin.ofNat 16 (c - 128)) (e.at_ + 1)
    exact ConsumeKeeps.of_brg (s.evoFire_within _ _) (by rw [hb])
      (fun i hne => s.evoFire_other _ fun he => by rw [he, hi] at hne; omega) (fun k _ _ => by rw [hb])
  | load h h2 =>
    have hg : (Fin.ofNat 6 (c - 144)).val = c - 144 := fin_ofNat_val (by omega)
    have hw := s.strobeFire_within (Fin.ofNat 6 (c - 144)) e.at_
    have hb := hw.brgEq
    exact ⟨by rw [hb], fun i _ => evoSeen_of_brg i (by rw [hb]) (by rw [hb]), fun k _ _ => by rw [hb],
      fun g hne => s.strobeFire_lg_other _ fun he => by rw [he, hg] at hne; omega,
      fun n _ => getClu_of_eq (hw.cluEq (by decide)) n, fun n r h => by rw [getClu_of_eq (hw.cluEq (by decide)) n]; exact h,
      fun _ => hw.linkEq,
      fun a h1 h2 => s.strobeFire_flags _ _ _ (by simp only [List.mem_singleton]; unfold lgA; unfold brgA at h2; omega)
        (by simp only [pendWords, List.mem_cons, List.not_mem_nil, or_false, not_or]; unfold hostA; unfold brgA at h2; omega),
      hw.partEq, hw.imgEq, hw.clkEq, fun a _ => State.effW_congr hw.effEq a⟩
  | send h h2 =>
    have hw := s.linkSend_within (Fin.ofNat 32 (c - 160)) e.carried (BitVec.ofNat 8 e.prod.val) e.data
    have hb := hw.brgEq
    exact ⟨by rw [hb], fun i _ => evoSeen_of_brg i (by rw [hb]) (by rw [hb]), fun k _ _ => by rw [hb], fun g _ => lg_of_eq hw.lgEq g,
      fun n _ => getClu_of_eq (hw.cluEq (by decide)) n, fun n r h => by rw [getClu_of_eq (hw.cluEq (by decide)) n]; exact h,
      fun hl => by omega, fun a _ _ => hw.flagEq a, hw.partEq, hw.imgEq, hw.clkEq, fun a _ => State.effW_congr hw.effEq a⟩
  | start h h2 h3 =>
    have hk : (Fin.ofNat 8 (c - 192)).val = c - 192 := fin_ofNat_val (by omega)
    have hw := s.timerStart_within (Fin.ofNat 8 (c - 192)) (e.at_ + 1)
    obtain ⟨a, hb⟩ := s.timerStart_brg (Fin.ofNat 8 (c - 192)) (e.at_ + 1)
    refine ⟨by rw [hb], fun i _ => evoSeen_of_brg i (by rw [hb]) (by rw [hb]),
      fun k hk1 hk2 => s.timerStart_other _ fun he => ?_, fun g _ => lg_of_eq hw.lgEq g,
      fun n _ => getClu_of_eq (hw.cluEq (by decide)) n, fun n r h => by rw [getClu_of_eq (hw.cluEq (by decide)) n]; exact h,
      fun _ => hw.linkEq, fun a _ _ => hw.flagEq a, hw.partEq, hw.imgEq, hw.clkEq, fun a ha => ?_⟩
    · rw [he, hk] at hk1
      rcases hk1 with h' | h'
      · omega
      · rw [h3] at h'; cases h'
    · exact s.timerStart_effW _ _ ha
  | stop h h2 =>
    have hk : (Fin.ofNat 8 (c - 200)).val = c - 200 := fin_ofNat_val (by omega)
    exact ConsumeKeeps.of_brg (s.timerStop_within _ _) rfl (fun i _ => rfl)
      (fun k _ hk2 => State.modTmr_other _ _ fun he => by rw [he, hk] at hk2; omega)
  | skip h => exact ConsumeKeeps.refl c stops s

/-! ### One consumer of a hop that has one event -/

/-- The flag of a consumer (R290). -/
def firedA (c : Nat) : Nat := brgA (0x2020 + 4 * (c / 32))

/-- The state in which a consumer that an event reaches acts: its flag is set, and its watch kept. -/
def State.reached (s : State) (c : Nat) (e : BrgEvt) : State := (s.setBit (firedA c) (c % 32)).watch c e

/-- A consumer that a hop's one event reaches, or does not. -/
def State.hopStep (s : State) (e : BrgEvt) (cs stops : List Nat) (c : Nat) : State :=
  if c ∈ cs then (s.reached c e).consume c e stops else s

theorem State.fireConsumer_single (s : State) (e : BrgEvt) (cs stops : List Nat) (c : Nat) :
    s.fireConsumer [(e, cs)] stops c = s.hopStep e cs stops c := by
  unfold State.fireConsumer State.hopStep State.reached
  by_cases h : c ∈ cs
  · have hf : [(e, cs)].filter (fun x => x.2.contains c) = [(e, cs)] := by simp [h]
    rw [hf, if_pos h]
    rfl
  · have hf : [(e, cs)].filter (fun x => x.2.contains c) = [] := by simp [h]
    rw [hf, if_neg h]
    rfl

theorem firedA_not_pend {c : Nat} (hc : c < 208) : firedA c ∉ pendWords := by
  simp only [pendWords, List.mem_cons, List.not_mem_nil, or_false, not_or]
  unfold firedA brgA hostA
  omega

theorem State.reached_within (s : State) (c : Nat) (e : BrgEvt) : Within [.flg, .brg, .msix] s (s.reached c e) :=
  (State.setBit_within _ _ _).seq (State.watch_within _ _ _)

theorem State.reached_brg (s : State) (c : Nat) (e : BrgEvt) : ∃ a b d g, (s.reached c e).brg =
    { s.brg with watchValid := a, watchData := b, watchSrc := d, watchTime := g } := by
  obtain ⟨a, b, d, g, h⟩ := (s.setBit (firedA c) (c % 32)).watch_brg c e
  exact ⟨a, b, d, g, h.trans (by rw [State.setBit_brg])⟩

theorem State.reached_flag (s : State) {c : Nat} (e : BrgEvt) (hc : c < 208) :
    ((s.reached c e).flag (firedA c)).getLsbD (c % 32) = true := by
  unfold State.reached
  rw [(State.watch_within _ _ _).flagEq]
  exact State.flagBit_setBit s (firedA_not_pend hc) (bit32_self (by omega))

/-- A flag bit that is set stays set as another consumer is reached. -/
theorem State.reached_flag_mono (s : State) (c : Nat) {d : Nat} (e : BrgEvt) (hd : d < 208)
    (h : (s.flag (firedA d)).getLsbD (d % 32) = true) : ((s.reached c e).flag (firedA d)).getLsbD (d % 32) = true := by
  unfold State.reached
  rw [(State.watch_within _ _ _).flagEq]
  by_cases hcd : firedA d = firedA c
  · rw [hcd] at h ⊢
    rw [State.flag_setBit_self _ _ (hcd ▸ firedA_not_pend hd), BitVec.getLsbD_or, h, Bool.true_or]
  · rw [State.flag_setBit_other _ _ hcd (firedA_not_pend hd)]
    exact h

/-- What the steps of a hop keep of what their consumers act by. -/
def SameSetting (s u : State) : Prop :=
  u.part = s.part ∧ u.img = s.img ∧ u.clk = s.clk ∧ ∀ a, a < brgA 0x2800 ∨ brgA 0x2900 ≤ a → u.effW a = s.effW a

theorem State.reached_setting (s : State) (c : Nat) (e : BrgEvt) : SameSetting s (s.reached c e) :=
  have hw := s.reached_within c e
  ⟨hw.partEq, hw.imgEq, hw.clkEq, fun a _ => State.effW_congr hw.effEq a⟩

theorem SameSetting.trans {s t u : State} (h : SameSetting s t) (k : SameSetting t u) : SameSetting s u := by
  obtain ⟨a1, a2, a3, a4⟩ := h
  obtain ⟨b1, b2, b3, b4⟩ := k
  exact ⟨b1.trans a1, b2.trans a2, b3.trans a3, fun a ha => (b4 a ha).trans (a4 a ha)⟩

theorem SameSetting.hopStep {s u : State} (h : SameSetting s u) (e : BrgEvt) (cs stops : List Nat) (c : Nat) :
    SameSetting s (u.hopStep e cs stops c) := by
  unfold State.hopStep
  split
  · have hk := (u.reached c e).consume_keeps c e stops
    exact (h.trans (u.reached_setting c e)).trans ⟨hk.part, hk.img, hk.clk, hk.word⟩
  · exact h

theorem SameSetting.effF {s u : State} (h : SameSetting s u) {a : Nat} (ha : a < brgA 0x2800 ∨ brgA 0x2900 ≤ a) (hi lo : Nat) :
    u.effF a hi lo = s.effF a hi lo := by
  obtain ⟨-, -, -, hw⟩ := h
  unfold State.effF
  rw [hw a ha]

/-! ### What a hop with one event leaves, part by part -/

/-- The consumers that a hop acts on, one after the other. -/
def State.hop (s : State) (e : BrgEvt) (cs stops : List Nat) : State := (List.range 208).foldl (fun u c => u.hopStep e cs stops c) s

section
variable (s : State) (e : BrgEvt) (cs stops : List Nat)

/-- A part that one consumer alone touches, where it is reached. -/
theorem State.hop_at {α : Type} (get : State → α) (Q : α → Prop) {x : Nat} (hx : x ∈ cs) (hlt : x < 208)
    (hreached : ∀ u c, get (u.reached c e) = get u) (hother : ∀ u c, c ∈ cs → c ≠ x → get (u.consume c e stops) = get u)
    (hq : ∀ u, SameSetting s u → get u = get s → Q (get (u.consume x e stops))) : Q (get (s.hop e cs stops)) := by
  refine foldl_at (SameSetting s) get Q (fun u c => u.hopStep e cs stops c) (x := x) (fun u c h => h.hopStep e cs stops c)
    (fun u c hc _ => ?_) (List.range 208) s List.nodup_range (List.mem_range.mpr hlt) ⟨rfl, rfl, rfl, fun _ _ => rfl⟩ fun u hu hg => ?_
  · unfold State.hopStep
    split
    · rename_i hm; rw [hother _ _ hm hc, hreached]
    · rfl
  · rw [State.hopStep, if_pos hx]
    exact hq _ (hu.trans (u.reached_setting x e)) ((hreached u x).trans hg)

/-- A part that no consumer that is reached touches. -/
theorem State.hop_keeps {α : Type} (get : State → α) (hreached : ∀ u c, get (u.reached c e) = get u)
    (hother : ∀ u c, c ∈ cs → get (u.consume c e stops) = get u) : get (s.hop e cs stops) = get s := by
  refine foldl_keeps get _ (fun u c => u.hopStep e cs stops c) (fun u c => ?_) s
  unfold State.hopStep
  split
  · rename_i hm; rw [hother _ _ hm, hreached]
  · rfl

theorem State.reached_evoSeen (i : Fin 16) (u : State) (c : Nat) : (u.reached c e).evoSeen i = u.evoSeen i := by
  obtain ⟨a, b, d, g, h⟩ := u.reached_brg c e
  exact evoSeen_of_brg i (by rw [h]) (by rw [h])

theorem State.reached_timer (k : Fin 8) (u : State) (c : Nat) : (u.reached c e).brg.timers[k] = u.brg.timers[k] := by
  obtain ⟨a, b, d, g, h⟩ := u.reached_brg c e
  rw [h]

theorem State.hop_inFlight : (s.hop e cs stops).brg.inFlight = s.brg.inFlight :=
  s.hop_keeps e cs stops (fun u => u.brg.inFlight) (fun u c => by obtain ⟨a, b, d, g, h⟩ := u.reached_brg c e; rw [h])
    fun u c _ => (u.consume_keeps c e stops).inFlight

theorem State.hop_fired {c : Nat} (hc : c ∈ cs) (hlt : c < 208) : ((s.hop e cs stops).flag (firedA c)).getLsbD (c % 32) = true := by
  have hrange : brgA 0x2020 ≤ firedA c ∧ firedA c < brgA 0x2040 := by unfold firedA brgA; omega
  refine foldl_reaches (fun _ => True) (fun u => (u.flag (firedA c)).getLsbD (c % 32) = true) (fun u c => u.hopStep e cs stops c) (x := c)
    (fun _ _ _ => trivial) (fun u _ => ?_) (fun u d _ h => ?_) (List.range 208) s (List.mem_range.mpr hlt) trivial
  · rw [State.hopStep, if_pos hc, ((u.reached c e).consume_keeps c e stops).fired _ hrange.1 hrange.2]
    exact u.reached_flag e hlt
  · unfold State.hopStep
    split
    · rw [((u.reached d e).consume_keeps d e stops).fired _ hrange.1 hrange.2]
      exact u.reached_flag_mono d e hlt h
    · exact h

/-- A condition input that is reached and that the Bridge feeds gets its request. -/
theorem State.hop_cond {n : Clu} {i : Fin 16} (hc : 16 * n.val + i.val ∈ cs) (hsrc : s.condSrc n i = 0) :
    ∃ r ∈ (s.hop e cs stops).clu[n].arriving, r.cond = i ∧ r.ts = e.at_ := by
  have hlt : 16 * n.val + i.val < 128 := by omega
  have hclu : ∀ (u : State) (d : Nat), (u.reached d e).clu = u.clu := fun u d => (u.reached_within d e).cluEq (by decide)
  refine foldl_reaches (SameSetting s) (fun u => ∃ r ∈ u.clu[n].arriving, r.cond = i ∧ r.ts = e.at_)
    (fun u c => u.hopStep e cs stops c) (x := 16 * n.val + i.val) (fun u c h => h.hopStep e cs stops c) (fun u hu => ?_)
    (fun u d _ h => ?_) (List.range 208) s (List.mem_range.mpr (by omega)) ⟨rfl, rfl, rfl, fun _ _ => rfl⟩
  · have hn : Fin.ofNat 8 ((16 * n.val + i.val) / 16) = n := Fin.ext (by rw [fin_ofNat_val] <;> omega)
    have hi : Fin.ofNat 16 ((16 * n.val + i.val) % 16) = i := Fin.ext (by rw [fin_ofNat_val] <;> omega)
    have hsrc' : (u.reached (16 * n.val + i.val) e).condSrc n i = 0 := by
      have hset := hu.trans (u.reached_setting (16 * n.val + i.val) e)
      unfold State.condSrc at hsrc ⊢
      rw [hset.effF (Or.inr (by unfold cluA brgA; omega)), hsrc]
    rw [State.hopStep, if_pos hc, State.consume, if_pos hlt, hn, hi, State.condFire_sends _ hsrc']
    exact ⟨_, List.mem_append_right _ (List.mem_singleton_self _), rfl, rfl⟩
  · obtain ⟨r, hr, h⟩ := h
    unfold State.hopStep
    split
    · exact ⟨r, ((u.reached d e).consume_keeps d e stops).arriving n r (by rw [getClu_of_eq (hclu u d)]; exact hr), h⟩
    · exact ⟨r, hr, h⟩

theorem State.hop_clu {n : Clu} (hc : ∀ i : Fin 16, 16 * n.val + i.val ∉ cs) : (s.hop e cs stops).clu[n] = s.clu[n] := by
  refine s.hop_keeps e cs stops (fun u => u.clu[n]) (fun u c => getClu_of_eq ((u.reached_within c e).cluEq (by decide)) n) fun u c hm => ?_
  refine (u.consume_keeps c e stops).clu n ?_
  by_contra hcon
  refine hc ⟨c % 16, by omega⟩ ?_
  have : 16 * n.val + c % 16 = c := by omega
  rw [this]
  exact hm

theorem State.hop_evo {i : Fin 16} (hc : 128 + i.val ∈ cs) : (s.hop e cs stops).evoSeen i =
    if s.evoToggles i then (!s.brg.evo.getLsbD i, none) else (true, some (e.at_ + 1 + s.effF (brgA (0x2C40 + 4 * i.val)) 13 8 + 1)) := by
  refine s.hop_at e cs stops (fun u => u.evoSeen i) (fun x => x = if s.evoToggles i then (!s.brg.evo.getLsbD i, none) else
    (true, some (e.at_ + 1 + s.effF (brgA (0x2C40 + 4 * i.val)) 13 8 + 1))) hc (by omega) (State.reached_evoSeen e i)
    (fun u c _ hne => (u.consume_keeps c e stops).evo i hne) fun u hu hg => ?_
  have hi : Fin.ofNat 16 (128 + i.val - 128) = i := Fin.ext (by rw [fin_ofNat_val] <;> omega)
  have hword : brgA (0x2C40 + 4 * i.val) < brgA 0x2800 ∨ brgA 0x2900 ≤ brgA (0x2C40 + 4 * i.val) := by unfold brgA; omega
  have htog : u.evoToggles i = s.evoToggles i := by unfold State.evoToggles; rw [hu.effF hword]
  rw [State.consume, if_neg (by omega), if_pos (by omega), hi]
  cases h : s.evoToggles i
  · rw [State.evoFire_pulse _ (htog.trans h), hu.effF hword]; rfl
  · rw [State.evoFire_toggle _ (htog.trans h), if_pos rfl]
    exact congrArg (fun b => (!b, none)) (congrArg Prod.fst hg)

theorem State.hop_evo_other {i : Fin 16} (hc : 128 + i.val ∉ cs) : (s.hop e cs stops).evoSeen i = s.evoSeen i :=
  s.hop_keeps e cs stops (fun u => u.evoSeen i) (State.reached_evoSeen e i) fun u c hm =>
    (u.consume_keeps c e stops).evo i fun h => hc (h ▸ hm)

theorem State.hop_group {g : Lg} (hc : 144 + g.val ∈ cs) (hg : s.hasLg g = true) (hcfg : s.configured = true) :
    e.at_ ∈ (s.hop e cs stops).lg[g].strobes := by
  refine s.hop_at e cs stops (fun u => u.lg[g]) (fun x => e.at_ ∈ x.strobes) hc (by omega)
    (fun u c => lg_of_eq (u.reached_within c e).lgEq g) (fun u c _ hne => (u.consume_keeps c e stops).group g hne) fun u hu _ => ?_
  obtain ⟨hp, him, -⟩ := hu
  have hi : Fin.ofNat 6 (144 + g.val - 144) = g := Fin.ext (by rw [fin_ofNat_val] <;> omega)
  have htakes : (u.hasLg g && u.configured) = true := by rw [State.hasLg_congr hp, State.configured_congr him, hg, hcfg]; rfl
  rw [State.consume, if_neg (by omega), if_neg (by omega), if_pos (by omega), hi]
  have h := congrArg Prod.fst (u.strobeFire_self g e.at_)
  rw [htakes] at h
  unfold strobedGroup State.lgSeen at h
  rw [if_pos rfl] at h
  cases hin : u.lg[g].strobes.contains e.at_
  · rw [if_neg (by rw [hin]; simp)] at h
    dsimp only at h
    rw [h]
    exact List.mem_append_right _ (List.mem_singleton_self _)
  · rw [if_pos hin] at h
    dsimp only at h
    rw [h]
    exact List.contains_iff_mem.mp hin

theorem State.hop_group_other {g : Lg} (hc : 144 + g.val ∉ cs) : (s.hop e cs stops).lg[g] = s.lg[g] :=
  s.hop_keeps e cs stops (fun u => u.lg[g]) (fun u c => lg_of_eq (u.reached_within c e).lgEq g) fun u c hm =>
    (u.consume_keeps c e stops).group g fun h => hc (h ▸ hm)

/-- A STOP that is reached wins over a START of the same hop (R295). -/
theorem State.hop_stop {k : Fin 8} (hc : 200 + k.val ∈ cs) (hstops : stops.contains k.val = true) :
    (s.hop e cs stops).brg.timers[k].armed = false ∧ (s.hop e cs stops).brg.timers[k].stopAt = some (e.at_ + 1) := by
  refine s.hop_at e cs stops (fun u => u.brg.timers[k]) (fun x => x.armed = false ∧ x.stopAt = some (e.at_ + 1)) hc (by omega)
    (State.reached_timer e k) (fun u c _ hne => (u.consume_keeps c e stops).timer k (Or.inr hstops) hne) fun u _ _ => ?_
  have hi : Fin.ofNat 8 (200 + k.val - 200) = k := Fin.ext (by rw [fin_ofNat_val] <;> omega)
  rw [State.consume, if_neg (by omega), if_neg (by omega), if_neg (by omega), if_neg (by omega), if_neg (by omega), if_pos (by omega), hi,
    State.timerStop_eq, State.modTmr_self]
  exact ⟨rfl, rfl⟩

/-- A START that is reached, with no STOP of the same hop. -/
theorem State.hop_start {k : Fin 8} (Q : Timer → Prop) (hc : 192 + k.val ∈ cs) (hno : 200 + k.val ∉ cs) (hstops : stops.contains k.val = false)
    (hq : ∀ u, SameSetting s u → u.brg.timers[k] = s.brg.timers[k] → Q ((u.timerStart k (e.at_ + 1)).brg.timers[k])) :
    Q (s.hop e cs stops).brg.timers[k] := by
  refine s.hop_at e cs stops (fun u => u.brg.timers[k]) Q hc (by omega) (State.reached_timer e k)
    (fun u c hm hne => (u.consume_keeps c e stops).timer k (Or.inl hne) fun h => hno (h ▸ hm)) fun u hu hg => ?_
  have hi : Fin.ofNat 8 (192 + k.val - 192) = k := Fin.ext (by rw [fin_ofNat_val] <;> omega)
  have hsub : 192 + k.val - 192 = k.val := by omega
  rw [State.consume, if_neg (by omega), if_neg (by omega), if_neg (by omega), if_neg (by omega), if_pos (by omega), hi, hsub, hstops]
  exact hq u hu hg

theorem State.hop_timer_other {k : Fin 8} (h1 : 192 + k.val ∉ cs) (h2 : 200 + k.val ∉ cs) :
    (s.hop e cs stops).brg.timers[k] = s.brg.timers[k] :=
  s.hop_keeps e cs stops (fun u => u.brg.timers[k]) (State.reached_timer e k) fun u c hm =>
    (u.consume_keeps c e stops).timer k (Or.inl fun h => h1 (h ▸ hm)) fun h => h2 (h ▸ hm)

theorem State.hop_link (h : ∀ c ∈ cs, c < 160 ∨ 192 ≤ c) : (s.hop e cs stops).link = s.link :=
  s.hop_keeps e cs stops (fun u => u.link) (fun u c => (u.reached_within c e).linkEq) fun u c hm =>
    (u.consume_keeps c e stops).link (h c hm)
end

/-! ### BRIDGE_HOP (R285) -/

/-- The state of a hop at tick v + 1, its events taken out of flight. -/
def State.hopBegun (s : State) (v : Nat) : State :=
  (s.upto (v + 1)).modBrg (fun b => { b with inFlight := b.inFlight.filter (fun e => decide (e.at_ ≠ v)) })

theorem State.hopBegun_within (s : State) (v : Nat) : Within [.clk, .brg] s (s.hopBegun v) :=
  (s.upto_within _).seq (State.modBrg_within _ _)

/-- The timers whose STOP fires in a hop. -/
def hopStops (l : List (BrgEvt × List Nat)) : List Nat := (List.range 8).filter (fun k => l.any (fun x => x.2.contains (200 + k)))

theorem hopStops_single (e : BrgEvt) (cs : List Nat) (k : Fin 8) : (hopStops [(e, cs)]).contains k.val = decide (200 + k.val ∈ cs) := by
  have hk := k.isLt
  unfold hopStops
  rw [Bool.eq_iff_iff, List.contains_iff_mem, List.mem_filter, List.mem_range, decide_eq_true_eq]
  simp [hk]

/-- What a hop leaves, before its timestamp is read. -/
def State.hopped (s : State) (v : Nat) : State :=
  let r := (s.hopBegun v).hopEvents (s.brg.inFlight.filter (fun e => decide (e.at_ = v)))
  (List.range 208).foldl (fun s c => s.fireConsumer r.2 (hopStops r.2) c) r.1

theorem bridgeHop_exec {s : State} {v : Nat} (hu : s.undef = false) (hm : minAt s.brg.inFlight = some v) :
    exec .bridgeHop s = .next (s.hopped v) := by
  show execBridgeHop s = _
  rw [execBridgeHop, guarded_next hu, hm]
  rfl

theorem State.hopEvents_inFlight (s : State) (l : List BrgEvt) : (s.hopEvents l).1.brg.inFlight = s.brg.inFlight := by
  refine foldl_fst_keeps (fun u => u.brg.inFlight) _ (fun r e => ?_) l (s, [])
  dsimp only
  split
  · rfl
  · exact r.1.seeEvent_inFlight e

theorem State.fireConsumer_inFlight (s : State) (l : List (BrgEvt × List Nat)) (stops : List Nat) (c : Nat) :
    (s.fireConsumer l stops c).brg.inFlight = s.brg.inFlight := by
  unfold State.fireConsumer
  dsimp only
  split
  · rfl
  · rename_i e _
    rw [(State.consume_keeps _ c e stops).inFlight]
    generalize hx : (if 1 < ((l.filter (fun x => x.2.contains c)).map Prod.fst).length then _ else _ : State) = x
    obtain ⟨a, b, d, g, h⟩ := x.watch_brg c e
    rw [h]
    rw [← hx]
    have hset : (s.setBit (brgA (0x2020 + 4 * (c / 32))) (c % 32)).brg = s.brg := State.setBit_brg _ _ _
    split
    · rw [(State.count_within _ _ _).brgEq, (State.setBit_within _ _ _).brgEq, hset]
    · rw [hset]

theorem State.hopped_inFlight (s : State) (v : Nat) :
    (s.hopped v).brg.inFlight = s.brg.inFlight.filter (fun e => decide (e.at_ ≠ v)) :=
  (foldl_keeps (fun u => u.brg.inFlight) _ _ (fun u c => u.fireConsumer_inFlight _ _ c) _).trans
    ((s.hopBegun v).hopEvents_inFlight _)

theorem State.hopped_clk (s : State) (v : Nat) : (s.hopped v).clk = (s.hopBegun v).clk :=
  (foldl_keeps State.clk _ _ (fun u c => (u.fireConsumer_within _ _ c).clkEq) _).trans ((s.hopBegun v).hopEvents_within _).clkEq

/-- A hop of one event that has been seen. -/
theorem State.hopped_single {s : State} {v : Nat} {e : BrgEvt} (hone : s.brg.inFlight.filter (fun e => decide (e.at_ = v)) = [e])
    (hs : e.seen = true) :
    let cs := if e.muted then [] else (e.row.getD (s.consumersOf e.prod)).filter (fun c => s.enableOk c e.prod)
    s.hopped v = (s.hopBegun v).hop e cs (hopStops [(e, cs)]) := by
  intro cs
  have hev : (s.hopBegun v).hopEvents [e] = (s.hopBegun v, [(e, cs)]) := by
    unfold State.hopEvents
    rw [List.foldl_cons, List.foldl_nil]
    dsimp only
    rw [if_pos hs]
    rfl
  unfold State.hopped State.hop
  rw [hone, hev]
  simp only [State.fireConsumer_single]

theorem bridgeHop_single {s : State} {v : Nat} {e : BrgEvt} (hu : s.undef = false) (hm : minAt s.brg.inFlight = some v)
    (hone : s.brg.inFlight.filter (fun e => decide (e.at_ = v)) = [e]) (hs : e.seen = true) :
    let cs := if e.muted then [] else (e.row.getD (s.consumersOf e.prod)).filter (fun c => s.enableOk c e.prod)
    Gives .bridgeHop s (fun t =>
      (∀ c ∈ cs, c < 208 ∧ (t.flag (brgA (0x2020 + 4 * (c / 32)))).getLsbD (c % 32) = true) ∧
      (∀ (n : Clu) (i : Fin 16), 16 * n.val + i.val ∈ cs → s.condSrc n i = 0 → ∃ r ∈ t.clu[n].arriving, r.cond = i ∧ r.ts = v) ∧
      (∀ n : Clu, (∀ i : Fin 16, 16 * n.val + i.val ∉ cs) → t.clu[n] = s.clu[n]) ∧
      (∀ i : Fin 16,
        (128 + i.val ∈ cs → s.evoToggles i = true → t.brg.evo.getLsbD i = !s.brg.evo.getLsbD i ∧ t.brg.evoFall[i] = none) ∧
        (128 + i.val ∈ cs → s.evoToggles i = false → t.brg.evo.getLsbD i = true ∧
          t.brg.evoFall[i] = some (v + 1 + s.effF (brgA (0x2C40 + 4 * i.val)) 13 8 + 1)) ∧
        (128 + i.val ∉ cs → t.brg.evo.getLsbD i = s.brg.evo.getLsbD i ∧ t.brg.evoFall[i] = s.brg.evoFall[i])) ∧
      (∀ g : Lg, (144 + g.val ∈ cs → s.hasLg g = true → s.configured = true → v ∈ t.lg[g].strobes) ∧ (144 + g.val ∉ cs → t.lg[g] = s.lg[g])) ∧
      (∀ k : Fin 8,
        (200 + k.val ∈ cs → t.brg.timers[k].armed = false ∧ t.brg.timers[k].stopAt = some (v + 1)) ∧
        (192 + k.val ∈ cs → 200 + k.val ∉ cs → s.configured = true → s.brg.timers[k].stopAt ≠ some (v + 1) →
          t.brg.timers[k].armed = true ∧ t.brg.timers[k].due = v + 1 + t.brg.timers[k].period) ∧
        (192 + k.val ∈ cs → s.brg.timers[k].stopAt = some (v + 1) → 200 + k.val ∉ cs → t.brg.timers[k] = s.brg.timers[k]) ∧
        (192 + k.val ∉ cs → 200 + k.val ∉ cs → t.brg.timers[k] = s.brg.timers[k])) ∧
      ((∀ c ∈ cs, c < 160 ∨ 192 ≤ c) → t.link = s.link)) := by
  intro cs
  have hat : e.at_ = v := by
    have : e ∈ s.brg.inFlight.filter (fun e => decide (e.at_ = v)) := hone ▸ List.mem_singleton_self e
    simpa using (List.mem_filter.mp this).2
  have hlt : ∀ c ∈ cs, c < 208 := by
    intro c hc
    have hok : s.enableOk c e.prod = true := by
      by_cases hmu : e.muted = true
      · exact absurd hc (by simp [cs, hmu])
      · exact (List.mem_filter.mp (show c ∈ (e.row.getD (s.consumersOf e.prod)).filter (fun c => s.enableOk c e.prod) by
          simpa [cs, hmu] using hc)).2
    unfold State.enableOk at hok
    have hcon : s.consumerOk c = true := by
      revert hok
      cases s.consumerOk c <;> simp
    unfold State.consumerOk at hcon
    split at hcon
    · omega
    · simp only [Bool.or_eq_true, Bool.and_eq_true, decide_eq_true_eq] at hcon
      omega
  obtain ⟨b, hb⟩ : ∃ b, b = s.hopBegun v := ⟨_, rfl⟩
  have hw : Within [.clk, .brg] s b := hb ▸ s.hopBegun_within v
  have hbrg : b.brg.evo = s.brg.evo ∧ b.brg.evoFall = s.brg.evoFall ∧ b.brg.timers = s.brg.timers := by subst hb; exact ⟨rfl, rfl, rfl⟩
  obtain ⟨hevo, hfall, htmr⟩ := hbrg
  have hstop := hopStops_single e cs
  have hsingle : s.hopped v = b.hop e cs (hopStops [(e, cs)]) := hb ▸ State.hopped_single hone hs
  generalize hopStops [(e, cs)] = stops at hstop hsingle
  have hcond : ∀ n i, b.condSrc n i = s.condSrc n i := fun n i => State.effF_congr hw.effEq _ _ _
  have htog : ∀ i, b.evoToggles i = s.evoToggles i := fun i => by unfold State.evoToggles; rw [State.effF_congr hw.effEq]
  subst hat
  refine ⟨_, bridgeHop_exec hu hm, ?_⟩
  rw [hsingle]
  refine ⟨fun c hc => ⟨hlt c hc, b.hop_fired e cs stops hc (hlt c hc)⟩, fun n i hc hsrc => b.hop_cond e cs stops hc ((hcond n i).trans hsrc),
    fun n hc => (b.hop_clu e cs stops hc).trans (getClu_of_eq (hw.cluEq (by decide)) n), fun i => ⟨fun hc ht => ?_, fun hc ht => ?_, fun hc => ?_⟩,
    fun g => ⟨fun hc hg hcfg => ?_, fun hc => (b.hop_group_other e cs stops hc).trans (lg_of_eq hw.lgEq g)⟩,
    fun k => ⟨fun hc => ?_, fun hc hno hcfg hst => ?_, fun hc hst hno => ?_, fun h1 h2 => ?_⟩,
    fun h => (b.hop_link e cs stops h).trans hw.linkEq⟩
  · have h := b.hop_evo e cs stops hc
    rw [htog, if_pos ht, hevo] at h
    exact ⟨congrArg Prod.fst h, congrArg Prod.snd h⟩
  · have h := b.hop_evo e cs stops hc
    rw [htog, if_neg (by rw [ht]; simp), State.effF_congr hw.effEq] at h
    exact ⟨congrArg Prod.fst h, congrArg Prod.snd h⟩
  · have h := (b.hop_evo_other e cs stops hc).trans (evoSeen_of_brg i hevo hfall)
    exact ⟨congrArg Prod.fst h, congrArg Prod.snd h⟩
  · exact b.hop_group e cs stops hc ((State.hasLg_congr hw.partEq g).trans hg) ((State.configured_congr hw.imgEq).trans hcfg)
  · exact b.hop_stop e cs stops hc ((hstop k).trans (decide_eq_true hc))
  · refine b.hop_start e cs stops (fun x => x.armed = true ∧ x.due = e.at_ + 1 + x.period) hc hno
      ((hstop k).trans (decide_eq_false hno)) fun u hset hg => ?_
    obtain ⟨-, him, -⟩ := hset
    rw [State.timerStart_of ((State.configured_congr him).trans ((State.configured_congr hw.imgEq).trans hcfg))
      (by rw [hg, timer_of_eq htmr]; exact hst), State.modTmr_self]
    exact ⟨rfl, rfl⟩
  · refine b.hop_start e cs stops (fun x => x = s.brg.timers[k]) hc hno ((hstop k).trans (decide_eq_false hno)) fun u _ hg => ?_
    rw [State.timerStart_of_not fun h => h.2 (by rw [hg, timer_of_eq htmr]; exact hst), hg, timer_of_eq htmr]
  · exact (b.hop_timer_other e cs stops h1 h2).trans (timer_of_eq htmr k)

/-- Settles O45: the events of the earliest timestamp leave the flight, and one event reaches each enabled consumer. -/
theorem bridgeHops : Obligations.BridgeHops := by
  unfold Obligations.BridgeHops
  intro s v hu hm
  refine ⟨⟨_, bridgeHop_exec hu hm, fun e he => ?_, fun e he hne => ?_, ?_, execBridgeHop_within s (bridgeHop_exec hu hm)⟩,
    fun e hone hs => bridgeHop_single hu hm hone hs⟩
  · rw [State.hopped_inFlight] at he
    simpa using (List.mem_filter.mp he).2
  · rw [State.hopped_inFlight]
    exact List.mem_filter.mpr ⟨he, decide_eq_true hne⟩
  · rw [State.hopped_clk]; rfl

end Sys2Proof.Machine
end

