-- ==== Sys2Proof/Proofs/LinkPorts.lean ====
section
/-! PROOF. The ports of the link, missing beacons, and the founding of an ensemble (R304, R315 to R317, R422). -/
namespace Sys2Proof.Machine

theorem lnkA_not_pend (off : Nat) (h : off < 0x10000) : lnkA off ∉ pendWords := by
  simp only [pendWords, List.mem_cons, List.not_mem_nil, or_false, not_or]
  unfold lnkA hostA
  omega

/-! ### PORT_TRAINED and PORT_DOWN (R304, R422) -/

theorem portTrained_gives {s : State} (p : Fin 4) (at_ : Nat) (neighbour : BitVec 64) (hu : s.undef = false)
    (ht : s.link.ports[p].state = .train) : Gives (.portTrained p at_ neighbour) s fun t =>
      t.link.ports[p] = { s.link.ports[p] with state := .up, neighValid := true, neighId := neighbour
                                               neighAt := max s.clk.now at_, misaligned := false } ∧
        (∀ q : Fin 4, q ≠ p → t.link.ports[q] = s.link.ports[q]) ∧ PortsOnly s t ∧ t.clk.now = max s.clk.now at_ ∧
        Within [.clk, .link] s t := by
  refine gives_branch hu rfl (if_pos ht) ⟨State.modPort_port_self _ _ _, fun q hq => State.modPort_port_other _ _ hq, rfl, rfl, ?_⟩
  exact (s.upto_within at_).seq (State.modPort_within _ _ _)

/-- The state in which an UP port falls. -/
theorem State.portFall_of_up {s : State} {p : Fin 4} (h : s.link.ports[p].state = .up) :
    s.portFall p = (s.modPort p fun _ => { state := .down }).setBit (lnkA 0x40) 10 := by
  unfold State.portFall State.setBitIf
  exact if_pos (decide_eq_true h)

/-- A fall that trains again: the port, and the count of its trainings. -/
theorem State.portFallTrain {s : State} (p : Fin 4) (h : s.link.ports[p].state = .up) :
    let t := (s.portFall p).portTrain p
    t.link.ports[p] = { state := if s.portEn p then .train else .down } ∧ (∀ q : Fin 4, q ≠ p → t.link.ports[q] = s.link.ports[q]) ∧
      PortsOnly s t ∧ t.flag (lnkA 0x40) = s.flag (lnkA 0x40) ||| bit32 10 ∧ FlagsBut [lnkA 0x40] s t ∧
      t.counter (lnkA (0x114 + 0x20 * p.val)) = (if s.portEn p
        then min (s.counter (lnkA (0x114 + 0x20 * p.val)) + 1) top32 else s.counter (lnkA (0x114 + 0x20 * p.val))) ∧
      Within [.flg, .ctr, .link, .msix] s t := by
  intro t
  have hfall := s.portFall_within p
  have htrain := (s.portFall p).portTrain_within p
  have hen : (s.portFall p).portEn p = s.portEn p := State.portEn_congr hfall.effEq hfall.imgEq p
  have hdown : (s.portFall p).link.ports[p].state = .down := by rw [s.portFall_self]
  have hflag : (s.portFall p).flag (lnkA 0x40) = s.flag (lnkA 0x40) ||| bit32 10 := by
    rw [State.portFall_of_up h, State.flag_setBit_self _ _ (by decide)]; rfl
  refine ⟨?_, fun q hq => (State.portTrain_other _ hq).trans (s.portFall_other hq), (s.portFall_only p).trans (State.portTrain_only _ p),
    (htrain.flagEq _).trans hflag, (s.portFall_flags p).trans (htrain.flagsBut _), ?_, hfall.seq htrain⟩
  · by_cases he : s.portEn p = true
    · rw [State.portTrain_self_of_trains (hen.trans he) hdown, s.portFall_self, if_pos he]
    · rw [show t = s.portFall p from State.portTrain_of_not fun hc => he (hen ▸ hc.1), s.portFall_self, if_neg he]
  · have hctr : (s.portFall p).counter (lnkA (0x114 + 0x20 * p.val)) = s.counter (lnkA (0x114 + 0x20 * p.val)) := hfall.counterEq _
    by_cases he : s.portEn p = true
    · rw [show t = _ from State.portTrain_of_trains (hen.trans he) hdown, counter_count_self _ _ _ (by decide),
        (State.modPort_within _ _ _).counterEq, hctr, if_pos he]
    · rw [show t = s.portFall p from State.portTrain_of_not fun hc => he (hen ▸ hc.1), hctr, if_neg he]

/-! ### SLOT_CHECK (R315, R316) -/

/-- An origin after a check, and whether the check declares it lost. -/
def Origin.misses (o : Origin) : Nat := if o.check ≤ o.heard + 1600 then 0 else o.missed + 1
def Origin.goes (o : Origin) : Bool := decide (o.misses = 3 ∧ (o.state = 2 ∨ o.state = 3))
def Origin.checked (o : Origin) : Origin := { o with check := o.check + 16000, missed := o.misses, lost := o.lost || o.goes }

/-- A state in which an origin's check has moved on. -/
def State.slotChecked (s : State) (o : Origin) : State :=
  (s.upto (s.physOf o.check)).modLink (fun k => { k with origins := putOrigin o.checked k.origins })

/-- A lost origin leaves REACH, and its index is to be removed. -/
def State.originGoes (s : State) (o : Origin) (member : Bool) : State :=
  s.modLink (fun k => { k with
    reach := if member then k.reach &&& ~~~(1#64 <<< o.idx.val) else k.reach
    removing := if member then k.removing ||| ((1#64 <<< o.idx.val) &&& k.view) else k.removing })

/-- A lost origin is flagged and reported, and marks the messages under watch. -/
def State.originLost (s : State) (o : Origin) (member : Bool) : State :=
  (((s.originGoes o member).setBit (lnkA 0x40) 9).linkFault 4 (if member then o.idx.val else 0xFF) 0 0).markSent

/-- The lowest ID left takes over where the authority itself is lost. -/
def State.originSucceeded (s : State) (o : Origin) (member : Bool) : State :=
  if member ∧ s.link.state = .member ∧ o.deviceId = s.link.authId then
    s.takeAuthority (s.link.view &&& ~~~s.link.removing) true
  else s

theorem slotCheck_exec {s : State} {member : Bool} {o : Origin} (hu : s.undef = false)
    (hf : s.link.origins.find? (fun x => x.isOf member o.deviceId) = some o) :
    exec (.slotCheck ⟨member, o.deviceId⟩) s = .next
      (if o.goes then ((s.slotChecked o).originLost o member).originSucceeded o member else s.slotChecked o) := by
  show execSlotCheck ⟨member, o.deviceId⟩ s = _
  rw [execSlotCheck, guarded_next hu]
  dsimp only
  rw [hf]
  cases hg : o.goes
  · exact congrArg Host.Outcome.next (if_pos (by show (!o.goes) = true; rw [hg]; rfl))
  · exact congrArg Host.Outcome.next (if_neg (by show ¬ (!o.goes) = true; rw [hg]; simp))

theorem isOf_member {o : Origin} {member : Bool} {id : BitVec 64} (h : o.isOf member id = true) : member = decide (o.state = 3) := by
  unfold Origin.isOf at h
  rw [Bool.and_eq_true] at h
  exact (beq_iff_eq.mp h.2).symm

theorem State.slotChecked_within (s : State) (o : Origin) : Within [.clk, .link] s (s.slotChecked o) :=
  (s.upto_within _).seq (State.modLink_within _ _)

/-- What a loss leaves of the link, but for the authority. -/
theorem State.originLost_link (s : State) (o : Origin) (member : Bool) : ∃ c x, (s.originLost o member).link =
    { (s.originGoes o member).link with changedAt := c, sent := x } := by
  have h : (((s.originGoes o member).setBit (lnkA 0x40) 9).linkFault 4 (if member then o.idx.val else 0xFF) 0 0).link =
      (s.originGoes o member).link := (State.linkFault_within _ _ _ _ _).linkEq.trans (State.setBit_within _ _ _).linkEq
  unfold State.originLost State.markSent State.modLink
  dsimp only
  rw [h]
  exact ⟨_, _, rfl⟩

theorem State.linkFault_flags (s : State) (cause source aux : Nat) (detail : Word) : FlagsBut [fltA 4] s (s.linkFault cause source aux detail) :=
  s.report_flags _

theorem State.linkFault_seq (s : State) (cause source aux : Nat) (detail : Word) :
    (s.linkFault cause source aux detail).flt.seq = s.flt.seq + 1 := s.report_seq _

theorem State.originLost_flag (s : State) (o : Origin) (member : Bool) : ((s.originLost o member).flag (lnkA 0x40)).getLsbD 9 = true := by
  unfold State.originLost
  rw [(State.markSent_within _).flagEq, State.linkFault_flags _ _ _ _ _ _ (by decide) (by decide)]
  exact State.flagBit_setBit _ (by decide) (by decide)

theorem State.originLost_seq (s : State) (o : Origin) (member : Bool) : (s.originLost o member).flt.seq = s.flt.seq + 1 := by
  unfold State.originLost
  rw [(State.markSent_within _).fltEq, State.linkFault_seq, (State.setBit_within _ _ _).fltEq]
  rfl

theorem State.originLost_within (s : State) (o : Origin) (member : Bool) : Within [.flg, .ctr, .link, .msix, .flt] s (s.originLost o member) :=
  (((State.modLink_within s _).seq (State.setBit_within _ _ _) (l := [.flg, .link, .msix])).seq (State.linkFault_within _ _ _ _ _)
    (l := [.flg, .ctr, .link, .msix, .flt])).seq (State.markSent_within _)

theorem State.takeAuthority_link (s : State) (view : BitVec 64) (was : Bool) : (s.takeAuthority view was).link =
    { s.link with authId := (s.link.lowest view).getD 0, auth := decide (s.link.lowest view = some s.part.deviceId) } :=
  (State.setBitIf_within _ _ _ _).linkEq

/-- A flag bit of a word stays set as another bit may set. -/
theorem State.flagBit_setBitIf_mono (s : State) (c : Bool) {a i j : Nat} (ha : a ∉ pendWords) (h : (s.flag a).getLsbD i = true) :
    ((s.setBitIf c a j).flag a).getLsbD i = true := by
  unfold State.setBitIf
  split
  · rw [State.flag_setBit_self _ _ ha, BitVec.getLsbD_or, h, Bool.true_or]
  · exact h

/-- Succession changes the authority alone. -/
theorem State.originSucceeded_keeps (s : State) (o : Origin) (member : Bool) :
    (∃ a b, (s.originSucceeded o member).link = { s.link with authId := a, auth := b }) ∧
      ((s.flag (lnkA 0x40)).getLsbD 9 = true → ((s.originSucceeded o member).flag (lnkA 0x40)).getLsbD 9 = true) ∧
      Within [.flg, .link, .msix] s (s.originSucceeded o member) := by
  unfold State.originSucceeded
  split
  · exact ⟨⟨_, _, s.takeAuthority_link _ _⟩, fun h => State.flagBit_setBitIf_mono _ _ (by decide) h, State.takeAuthority_within _ _ _⟩
  · exact ⟨⟨_, _, rfl⟩, fun h => h, Within.refl _ s⟩

theorem State.originSucceeded_auth {s : State} {o : Origin} (hm : s.link.state = .member) (ha : o.deviceId = s.link.authId) :
    let v := s.link.view &&& ~~~s.link.removing
    (s.originSucceeded o true).link =
      { s.link with authId := (s.link.lowest v).getD 0, auth := decide (s.link.lowest v = some s.part.deviceId) } := by
  intro v
  unfold State.originSucceeded
  rw [if_pos ⟨rfl, hm, ha⟩, State.takeAuthority_link]

/-- The third missing beacon of a candidate or member declares it lost. -/
theorem slotCheck_lost {s : State} {member : Bool} {o : Origin} (hu : s.undef = false)
    (hf : s.link.origins.find? (fun x => x.isOf member o.deviceId) = some o) (hg : o.goes = true) :
    Gives (.slotCheck ⟨member, o.deviceId⟩) s fun t => t.link.origins = putOrigin o.checked s.link.origins ∧
      (o.state = 3 → t.link.reach = s.link.reach &&& ~~~(1#64 <<< o.idx.val) ∧
        t.link.removing = s.link.removing ||| ((1#64 <<< o.idx.val) &&& s.link.view)) ∧
      (o.state ≠ 3 → t.link.reach = s.link.reach ∧ t.link.removing = s.link.removing) ∧ t.link.view = s.link.view ∧
      (o.state = 3 → s.link.state = .member → o.deviceId = s.link.authId →
        t.link.authId = (s.link.lowest (s.link.view &&& ~~~t.link.removing)).getD 0 ∧
        (t.link.auth = true ↔ s.link.lowest (s.link.view &&& ~~~t.link.removing) = some s.part.deviceId)) ∧
      t.link.ports = s.link.ports ∧ (t.flag (lnkA 0x40)).getLsbD 9 = true ∧ t.flt.seq = s.flt.seq + 1 ∧
      Within [.clk, .flg, .ctr, .link, .msix, .flt] s t := by
  have hmem : member = decide (o.state = 3) := 
    isOf_member (id := o.deviceId) (List.find?_some (p := fun x : Origin => x.isOf member o.deviceId) hf)
  obtain ⟨v, hv⟩ : ∃ v, v = s.slotChecked o := ⟨_, rfl⟩
  have hwv : Within [.clk, .link] s v := hv ▸ s.slotChecked_within o
  have hvlink : v.link = { s.link with origins := putOrigin o.checked s.link.origins } := hv ▸ rfl
  obtain ⟨c, x, hlost⟩ := v.originLost_link o member
  have hflag := v.originLost_flag o member
  have hseq := v.originLost_seq o member
  have hwl := v.originLost_within o member
  have hgoes : (v.originGoes o member).link = { v.link with
    reach := if member then v.link.reach &&& ~~~(1#64 <<< o.idx.val) else v.link.reach
    removing := if member then v.link.removing ||| ((1#64 <<< o.idx.val) &&& v.link.view) else v.link.removing } := rfl
  rw [hgoes, hvlink] at hlost
  have hexec := slotCheck_exec hu hf
  rw [if_pos hg, ← hv] at hexec
  generalize v.originLost o member = r at hlost hflag hseq hwl hexec
  obtain ⟨⟨a, b, hlink⟩, hmono, hwr⟩ := r.originSucceeded_keeps o member
  refine ⟨_, hexec, ?_, fun h3 => ?_, fun h3 => ?_, ?_, fun h3 hst hau => ?_, ?_, hmono hflag, ?_,
    (hwv.seq hwl (l := [.clk, .flg, .ctr, .link, .msix, .flt])).seq hwr⟩
  · rw [hlink, hlost]
  · rw [hlink, hlost, hmem, if_pos (decide_eq_true h3), if_pos (decide_eq_true h3)]
    exact ⟨rfl, rfl⟩
  · rw [hlink, hlost, hmem, if_neg (by simpa using h3), if_neg (by simpa using h3)]
    exact ⟨rfl, rfl⟩
  · rw [hlink, hlost]
  · have htrue : member = true := hmem.trans (decide_eq_true h3)
    subst htrue
    have hpart : r.part.deviceId = s.part.deviceId := by rw [hwl.partEq, hwv.partEq]
    rw [State.originSucceeded_auth (by rw [hlost]; exact hst) (by rw [hlost]; exact hau), hlost, hpart]
    exact ⟨rfl, decide_eq_true_iff⟩
  · rw [hlink, hlost]
  · rw [hwr.fltEq, hseq, hwv.fltEq]

/-! ### ENSEMBLE_FOUND (R317) -/

theorem ensembleFound_gives {s : State} (hu : s.undef = false)
    (h : s.link.state = .candidate ∧ s.lnkAdmitEn = true ∧ s.link.auth = false) : Gives .ensembleFound s fun t =>
      t.link = { s.link with
        founding := true, auth := true, authId := s.part.deviceId, memberIdx := 0, ids := [(0, s.part.deviceId)], pendView := none } ∧
      t.clk.now = max s.clk.now (s.link.quietSince + 48000) ∧ Within [.clk, .link] s t := by
  obtain ⟨hs, hen, ha⟩ := h
  refine gives_branch hu rfl (if_pos ⟨hs, hen, by rw [ha]; rfl⟩) ⟨rfl, rfl, ?_⟩
  exact (s.upto_within _).seq (State.modLink_within _ _)

/-- Settles O48: ports train, fall and train again, the third missing beacon declares a loss, and a candidate founds. -/
theorem linkPortsAndOrigins : Obligations.LinkPortsAndOrigins := by
  unfold Obligations.LinkPortsAndOrigins
  intro s hu
  refine ⟨fun p at_ neighbour => ⟨portTrained_gives p at_ neighbour hu, fun ht => gives_branch hu rfl (if_neg ht) rfl, fun cause =>
      ⟨fun hup hf => ?_, fun hn => ?_⟩⟩,
    fun o member hf => ⟨fun hn => ?_, fun hg => slotCheck_lost hu hf (decide_eq_true hg)⟩,
    fun h => ensembleFound_gives hu h, fun hn => ?_⟩
  · obtain ⟨h1, h2, h3, h4, h5, h6, hw⟩ := State.portFallTrain (s := s.upto at_) p hup
    exact gives_branch hu rfl (if_pos ⟨hup, hf⟩) ⟨h1, h2, h3, h4, h5, h6, (s.upto_within at_).seq hw⟩
  · refine gives_branch hu rfl (if_neg fun h => ?_) rfl
    rcases hn with hn | hn
    · exact hn h.1
    · exact Bool.false_ne_true (hn.symm.trans h.2)
  · have hg : o.goes = false := decide_eq_false hn
    exact ⟨s.slotChecked o, (slotCheck_exec hu hf).trans (by rw [if_neg (by rw [hg]; simp)]), rfl, rfl, s.slotChecked_within o⟩
  · exact gives_branch hu rfl (if_neg fun h => hn ⟨h.1, h.2.1, by simpa using h.2.2⟩) rfl

end Sys2Proof.Machine
end

