-- ==== Sys2Proof/Proofs/Beacons.lean ====
section
/-! PROOF. Beacons as they are sent, passed on and heard (R305 to R308, R313). -/
namespace Sys2Proof.Machine

theorem State.upPorts_congr {s t : State} (h : ∀ q : Fin 4, t.link.ports[q].state = s.link.ports[q].state) (skip : Option (Fin 4)) :
    t.upPorts skip = s.upPorts skip := by
  unfold State.upPorts
  refine List.filter_congr fun q _ => ?_
  rw [h q]

theorem State.lnkEn_congr {s t : State} (he : t.eff = s.eff) (hi : t.img = s.img) : t.lnkEn = s.lnkEn := by
  unfold State.lnkEn State.configured State.effB State.effW
  rw [he, hi]

/-! ### BEACON_SEND (R307, R313) -/

/-- The change that a beacon announces is settled as it is sent. -/
def State.beaconSettled (s : State) : State :=
  if s.link.pendView = none then s.modLink (fun k => { k with pendView := s.nextChange, founding := false }) else s

def State.beaconSent (s : State) : State :=
  s.modLink (fun k => { k with txBeacon := s.ownBeacon.frame, txPorts := portMask (s.upPorts none), beaconCount := k.beaconCount + 1
                               lastBeacon := some s.tb })

theorem State.beaconSettled_link (s : State) : ∃ f, s.beaconSettled.link =
    { s.link with pendView := if s.link.pendView = none then s.nextChange else s.link.pendView, founding := f } := by
  unfold State.beaconSettled
  split
  · exact ⟨_, rfl⟩
  · exact ⟨_, rfl⟩

theorem State.beaconSettled_within (s : State) : Within [.link] s s.beaconSettled :=
  Within.ite (State.modLink_within _ _) (Within.refl _ s)

theorem beaconSend_gives {s : State} (hu : s.undef = false) (hen : s.lnkEn = true) :
    let u := s.upto (s.physOf s.nextSlot)
    Gives .beaconSend s fun t =>
      (∃ b : Beacon, t.link.txBeacon = b.frame ∧ b.hops = 1 ∧ b.count = s.link.beaconCount ∧ b.deviceId = s.part.deviceId ∧
        b.ensTag = s.ensTag ∧ b.view = s.link.view ∧ b.generation = s.link.generation ∧ b.epochCount = s.clk.epochCount ∧
        b.pendEpoch = (t.link.pendView.map PendView.epoch).getD 0) ∧
      t.link.pendView = (if s.link.pendView = none then u.nextChange else s.link.pendView) ∧
      t.link.txPorts = portMask (s.upPorts none) ∧ t.link.beaconCount = s.link.beaconCount + 1 ∧ t.link.lastBeacon = some u.tb ∧
      t.link.ports = s.link.ports ∧ t.link.view = s.link.view ∧ t.clk = u.clk ∧ Within [.clk, .link] s t := by
  intro u
  have hwu : Within [.clk] s u := s.upto_within _
  obtain ⟨f, hlink⟩ := u.beaconSettled_link
  have hwv := u.beaconSettled_within
  generalize hv : u.beaconSettled = v at hlink hwv
  have hclk : v.clk = u.clk := hwv.clkEq
  have hports : v.link.ports = s.link.ports := by rw [hlink]; rfl
  have htag : v.ensTag = s.ensTag := by
    unfold State.ensTag
    rw [State.effF_congr (hwv.effEq.trans hwu.effEq)]
  refine gives_branch hu rfl (u := v.beaconSent) ((if_neg (by rw [hen]; simp)).trans (by rw [← hv]; rfl))
    ⟨⟨v.ownBeacon, rfl, rfl, ?_, ?_, htag, ?_, ?_, ?_, rfl⟩, ?_, ?_, ?_, ?_, hports, ?_, hclk, hwu.seq (hwv.seq (State.modLink_within _ _) (l := [.link]))⟩
  · show v.link.beaconCount = _
    rw [hlink]; rfl
  · show v.part.deviceId = _
    rw [hwv.partEq]; rfl
  · show v.link.view = _
    rw [hlink]; rfl
  · show v.link.generation = _
    rw [hlink]; rfl
  · show v.clk.epochCount = _
    rw [hclk]; rfl
  · show v.link.pendView = _
    rw [hlink]; rfl
  · show portMask (v.upPorts none) = _
    rw [State.upPorts_congr (s := s) fun q => by rw [hports]]
  · show v.link.beaconCount + 1 = _
    rw [hlink]; rfl
  · show some v.tb = _
    rw [State.tb_congr hclk]
  · show v.link.view = _
    rw [hlink]; rfl

/-! ### A beacon that is heard (R307, R308, R313) -/

/-- The neighbour of a port, as a beacon of one hop names it. -/
def State.hearFrom (s : State) (p : Fin 4) (b : Beacon) : State :=
  if b.hops = 1 then s.modPort p (fun q => { q with neighValid := true, neighId := b.deviceId, neighAt := s.clk.now }) else s

/-- The ports on which a beacon goes on. -/
def State.passPorts (s : State) (p : Fin 4) (b : Beacon) : List (Fin 4) :=
  if b.hops.toNat < 8 ∧ s.link.ports[p].state = .up then s.upPorts (some p) else []

/-- A beacon is noted and goes on with one hop more. -/
def State.passOn (s : State) (p : Fin 4) (b : Beacon) : State :=
  s.modLink (fun k => { k with
    beacons := k.beacons.filter (fun o => decide (o.deviceId ≠ b.deviceId)) ++ [{ deviceId := b.deviceId, count := b.count, at_ := s.tb }]
    txBeacon := if s.passPorts p b = [] then k.txBeacon else ({ b with hops := b.hops + 1 } : Beacon).frame
    txPorts := if s.passPorts p b = [] then k.txPorts else portMask (s.passPorts p b) })

theorem State.hearBeacon_eq (s : State) (p : Fin 4) (b : Beacon) : s.hearBeacon p b =
    if (s.hearFrom p b).beaconDup b then s.hearFrom p b
    else if b.ensTag = ((s.hearFrom p b).passOn p b).ensTag then ((s.hearFrom p b).passOn p b).beaconActs b
      else (s.hearFrom p b).passOn p b := rfl

theorem State.hearFrom_within (s : State) (p : Fin 4) (b : Beacon) : Within [.link] s (s.hearFrom p b) :=
  Within.ite (State.modPort_within _ _ _) (Within.refl _ s)

theorem State.hearFrom_only (s : State) (p : Fin 4) (b : Beacon) : PortsOnly s (s.hearFrom p b) := by
  unfold State.hearFrom
  split
  · exact s.modPort_portsOnly _ _
  · exact PortsOnly.refl s

theorem State.hearFrom_state (s : State) (p q : Fin 4) (b : Beacon) :
    (s.hearFrom p b).link.ports[q].state = s.link.ports[q].state := by
  unfold State.hearFrom
  split
  · by_cases h : q = p
    · subst h; rw [State.modPort_port_self]
    · rw [State.modPort_port_other _ _ h]
  · rfl

theorem State.hearFrom_neighbour {s : State} {p : Fin 4} {b : Beacon} (h : b.hops = 1) :
    (s.hearFrom p b).link.ports[p].neighId = b.deviceId ∧ (s.hearFrom p b).link.ports[p].neighAt = s.clk.now := by
  rw [State.hearFrom, if_pos h, State.modPort_port_self]
  exact ⟨rfl, rfl⟩

theorem State.hearFrom_passPorts (s : State) (p : Fin 4) (b : Beacon) : (s.hearFrom p b).passPorts p b = s.passPorts p b := by
  unfold State.passPorts
  rw [s.hearFrom_state, State.upPorts_congr fun q => s.hearFrom_state p q b]

theorem State.hearFrom_dup (s : State) (p : Fin 4) (b : Beacon) : (s.hearFrom p b).beaconDup b = s.beaconDup b := by
  have hw := s.hearFrom_within p b
  unfold State.beaconDup
  rw [hw.partEq, State.tb_congr hw.clkEq, (s.hearFrom_only p b).proj Link.beacons fun _ _ => rfl]

/-- What a beacon that goes on leaves of the link, for those that ask after the fact. -/
structure Passed (p : Fin 4) (b : Beacon) (s t : State) : Prop where
  sent : t.link.txBeacon = if s.passPorts p b = [] then s.link.txBeacon else ({ b with hops := b.hops + 1 } : Beacon).frame
  neighbour : b.hops = 1 → t.link.ports[p].neighId = b.deviceId ∧ t.link.ports[p].neighAt = s.clk.now
  origins : t.link.origins = s.link.origins
  view : t.link.view = s.link.view
  state : t.link.state = s.link.state
  authId : t.link.authId = s.link.authId
  within : Within [.link] s t

theorem State.passed (s : State) (p : Fin 4) (b : Beacon) : Passed p b s ((s.hearFrom p b).passOn p b) := by
  have honly := s.hearFrom_only p b
  refine ⟨?_, State.hearFrom_neighbour, honly.proj Link.origins fun _ _ => rfl, honly.proj Link.view fun _ _ => rfl,
    honly.proj Link.state fun _ _ => rfl, honly.proj Link.authId fun _ _ => rfl, (s.hearFrom_within p b).seq (State.modLink_within _ _)⟩
  show (if (s.hearFrom p b).passPorts p b = [] then (s.hearFrom p b).link.txBeacon else _) = _
  rw [s.hearFrom_passPorts, honly.proj Link.txBeacon fun _ _ => rfl]

/-- Another authority's part of a split ensemble is flagged (R320). -/
def State.splits (s : State) (b : Beacon) : Prop := s.link.state = .member ∧ b.state = 3 ∧ b.authId ≠ s.link.authId

theorem State.beaconActs_split {s : State} {b : Beacon} (h : s.splits b) :
    (∃ x, (s.beaconActs b).link = { s.link with splitSeen := x }) ∧ ((s.beaconActs b).flag (lnkA 0x40)).getLsbD 6 = true := by
  obtain ⟨h1, h2, h3⟩ := h
  have hlink : (s.setBit (lnkA 0x40) 6).link = s.link := (State.setBit_within _ _ _).linkEq
  have hbit : ((s.setBit (lnkA 0x40) 6).flag (lnkA 0x40)).getLsbD 6 = true := State.flagBit_setBit _ (by decide) (by decide)
  unfold State.beaconActs
  dsimp only
  rw [if_pos ⟨h1, decide_eq_true h2, h3⟩]
  split
  · exact ⟨⟨_, hlink⟩, hbit⟩
  · generalize s.setBit (lnkA 0x40) 6 = v at hlink hbit
    refine ⟨⟨v.link.splitSeen ++ [b.authId], ?_⟩, ?_⟩
    · rw [(State.linkFault_within _ _ _ _ _).linkEq, ← hlink]; rfl
    · rw [State.linkFault_flags _ _ _ _ _ _ (by decide) (by decide)]
      exact hbit

theorem State.originOf_congr {s t : State} (h : t.clk = s.clk) (b : Beacon) : t.originOf b = s.originOf b := by
  unfold State.originOf
  rw [State.tb_congr h]

theorem State.beaconActs_heard {s : State} {b : Beacon} (h : ¬ s.splits b) :
    (s.beaconActs b).link.txBeacon = s.link.txBeacon ∧ (s.beaconActs b).link.ports = s.link.ports ∧
      (s.beaconActs b).link.origins = putOrigin (s.originOf b) s.link.origins ∧ (s.beaconActs b).link.view = s.link.view := by
  unfold State.beaconActs
  dsimp only
  rw [if_neg (by simpa [State.splits] using h)]
  split
  · rw [(State.linkFault_within _ _ _ _ _).linkEq, (State.setBit_within _ _ _).linkEq]
    exact ⟨rfl, rfl, rfl, rfl⟩
  · exact ⟨rfl, rfl, rfl, rfl⟩

theorem execBeaconReceive_whole {s : State} {p : Fin 4} {at_ : Nat} {cells : List Cell} {b : Beacon} (hu : s.undef = false)
    (hen : s.lnkEn = true) (hp : s.link.ports[p].state ≠ .down) (hgood : ∀ x ∈ cells, cellGood x = true) (hb : Beacon.read cells = some b) :
    exec (.beaconReceive p at_ cells) s = .next ((s.upto at_).hearBeacon p b) := by
  have hbad : cells.filter (fun x => !cellGood x) = [] := List.filter_eq_nil_iff.mpr fun x hx => by rw [hgood x hx]; simp
  show execBeaconReceive p at_ cells s = _
  rw [execBeaconReceive, guarded_next hu]
  dsimp only
  rw [if_neg, hbad, if_neg (by simp), hb]
  intro h
  rcases h with h | h
  · rw [show (s.upto at_).lnkEn = true from hen] at h
    cases h
  · exact hp h

/-- A beacon that arrives whole: what becomes of it and its origin. -/
theorem beaconReceive_whole {s : State} {p : Fin 4} {at_ : Nat} {cells : List Cell} {b : Beacon} (hu : s.undef = false)
    (hen : s.lnkEn = true) (hp : s.link.ports[p].state ≠ .down) (hgood : ∀ x ∈ cells, cellGood x = true) (hb : Beacon.read cells = some b) :
    let u := s.upto at_
    ((u.beaconDup b = true → Gives (.beaconReceive p at_ cells) s fun t => PortsOnly s t ∧ Within [.clk, .link] s t) ∧
      (u.beaconDup b = false → b.ensTag ≠ s.ensTag → Gives (.beaconReceive p at_ cells) s fun t => Passed p b u t) ∧
      (u.beaconDup b = false → b.ensTag = s.ensTag → u.splits b → Gives (.beaconReceive p at_ cells) s fun t =>
        (∃ v x, Passed p b u v ∧ t.link = { v.link with splitSeen := x }) ∧ (t.flag (lnkA 0x40)).getLsbD 6 = true) ∧
      (u.beaconDup b = false → b.ensTag = s.ensTag → ¬ u.splits b → Gives (.beaconReceive p at_ cells) s fun t =>
        (∃ v, Passed p b u v ∧ t.link.txBeacon = v.link.txBeacon ∧ t.link.ports = v.link.ports) ∧
          t.link.origins = putOrigin (u.originOf b) s.link.origins ∧ t.link.view = s.link.view ∧
          Within [.clk, .flg, .ctr, .link, .msix, .flt] s t)) := by
  intro u
  have hexec := execBeaconReceive_whole (at_ := at_) hu hen hp hgood hb
  have hpass := u.passed p b
  have htag : ((u.hearFrom p b).passOn p b).ensTag = s.ensTag := by
    unfold State.ensTag
    rw [State.effF_congr hpass.within.effEq]; rfl
  rw [State.hearBeacon_eq, State.hearFrom_dup, htag] at hexec
  refine ⟨fun hd => ⟨_, hexec, ?_⟩, fun hd ht => ⟨_, hexec, ?_⟩, fun hd ht hs => ⟨_, hexec, ?_⟩, fun hd ht hs => ⟨_, hexec, ?_⟩⟩
  · rw [if_pos hd]
    exact ⟨u.hearFrom_only p b, (s.upto_within at_).seq (u.hearFrom_within p b)⟩
  · rw [if_neg (by rw [hd]; simp), if_neg ht]
    exact hpass
  · rw [if_neg (by rw [hd]; simp), if_pos ht]
    obtain ⟨⟨x, hx⟩, hf⟩ := State.beaconActs_split (s := (u.hearFrom p b).passOn p b) (b := b)
      (by unfold State.splits at hs ⊢; rw [hpass.state, hpass.authId]; exact hs)
    exact ⟨⟨_, x, hpass, hx⟩, hf⟩
  · rw [if_neg (by rw [hd]; simp), if_pos ht]
    obtain ⟨h1, h2, h3, h4⟩ := State.beaconActs_heard (s := (u.hearFrom p b).passOn p b) (b := b)
      (by unfold State.splits at hs ⊢; rw [hpass.state, hpass.authId]; exact hs)
    refine ⟨⟨_, hpass, h1, h2⟩, ?_, h4.trans hpass.view, ?_⟩
    · rw [h3, State.originOf_congr hpass.within.clkEq, hpass.origins]; rfl
    · exact ((s.upto_within at_).seq hpass.within (l := [.clk, .link])).seq (State.beaconActs_within _ _)

end Sys2Proof.Machine
end

