-- ==== Sys2Proof/Proofs/Messages.lean ====
section
/-! PROOF. Ensemble messages as they arrive, are released and are judged (R322 to R325). -/
namespace Sys2Proof.Machine

/-! ### A cell that goes on (R308, R309) -/

theorem State.queueCell_only (s : State) (p : Fin 4) : PortsOnly s (s.queueCell p) := by
  unfold State.queueCell
  dsimp only
  split
  · exact (s.modPort_portsOnly p _).trans (PortsOnly.of_eq (State.count_within _ _ _).linkEq)
  · exact s.modPort_portsOnly p _

theorem State.queueCell_counter (s : State) (p : Fin 4) {a : Nat} (ha : a < lnkA 0x110) : (s.queueCell p).counter a = s.counter a := by
  unfold State.queueCell
  dsimp only
  split
  · rw [counter_count_other _ _ _ _ (by unfold lnkA at *; omega)]
    exact (State.modPort_within _ _ _).counterEq _
  · exact (State.modPort_within _ _ _).counterEq _

/-- What sending a cell leaves of the link: the cell, its ports, and their queues. -/
theorem State.sendCell_link (s : State) (c : EventCell) (l : List (Fin 4)) :
    ∃ v, (s.sendCell c l).link = { s.link with ports := v, txCell := some c.frame, txPorts := portMask l } := by
  have h : PortsOnly s (l.foldl State.queueCell s) := foldl_rel PortsOnly PortsOnly.refl PortsOnly.trans _ State.queueCell_only l s
  unfold PortsOnly at h
  refine ⟨(l.foldl State.queueCell s).link.ports, ?_⟩
  rw [← h]
  rfl

theorem State.sendCell_counter (s : State) (c : EventCell) (l : List (Fin 4)) {a : Nat} (ha : a < lnkA 0x110) :
    (s.sendCell c l).counter a = s.counter a :=
  foldl_keeps (fun u => u.counter a) l State.queueCell (fun u p => u.queueCell_counter p ha) s

/-! ### A cell that is taken (R306, R308, R322) -/

/-- The message of a cell. -/
def EventCell.msg (c : EventCell) (tb : Nat) : LinkMsg :=
  { origin := c.origin, channel := c.channel, time := extendTime tb c.time, data := c.data }

/-- The message has been received already. -/
def State.hasSeen (s : State) (m : LinkMsg) : Bool :=
  s.link.seen.any (fun x => decide (x.origin = m.origin ∧ x.channel = m.channel ∧ x.time = m.time))

/-- A cell is noted and goes on with one hop more. -/
def State.cellPassed (s : State) (p : Fin 4) (c : EventCell) : State :=
  let u := s.modLink (fun k => { k with seen := k.seen ++ [c.msg s.tb] })
  if c.hops.toNat < 8 then u.sendCell { c with hops := c.hops + 1 } (u.upPorts (some p)) else u

/-- A message is judged by its time, its origin's membership and the place that is left. -/
def State.takeMsg (s : State) (c : EventCell) (m : LinkMsg) : State :=
  if s.tb ≤ m.time then ((s.count (lnkA 0x68) 1).setBit (lnkA 0x40) 7).linkFault 2 c.origin 0 0
  else if !s.memberAt m.time || !(s.viewAtTime m.time).getLsbD c.origin then s.count (lnkA 0x60) 1
  else if !s.chanRxEn c.channel then s
  else if m.time + 1280 < s.tb ∨ 256 ≤ (s.link.heldMsgs.filter (fun x => !x.own)).length then
    ((s.count (lnkA 0x58) 1).setBit (lnkA 0x40) 8).linkFault 1 c.origin c.channel 0
  else (s.modLink (fun k => { k with heldMsgs := k.heldMsgs ++ [m] })).count (lnkA 0x54) 1

theorem State.hearCell_eq (s : State) (p : Fin 4) (c : EventCell) :
    s.hearCell p c = if s.hasSeen (c.msg s.tb) then s else (s.cellPassed p c).takeMsg c (c.msg s.tb) := rfl

/-- What a cell that goes on leaves. -/
structure CellPassed (p : Fin 4) (c : EventCell) (s t : State) : Prop where
  seen : t.link.seen = s.link.seen ++ [c.msg s.tb]
  held : t.link.heldMsgs = s.link.heldMsgs
  sent : c.hops.toNat < 8 → t.link.txCell = some ({ c with hops := c.hops + 1 } : EventCell).frame ∧
    t.link.txPorts = portMask (s.upPorts (some p))
  spans : t.link.memberSpans = s.link.memberSpans
  views : t.link.viewLog = s.link.viewLog ∧ t.link.view = s.link.view
  counter : ∀ a, a < lnkA 0x110 → t.counter a = s.counter a
  within : Within [.ctr, .link] s t

theorem State.cellPassed_passed (s : State) (p : Fin 4) (c : EventCell) : CellPassed p c s (s.cellPassed p c) := by
  unfold State.cellPassed
  dsimp only
  generalize hu : s.modLink (fun k => { k with seen := k.seen ++ [c.msg s.tb] }) = u
  have hlink : u.link = { s.link with seen := s.link.seen ++ [c.msg s.tb] } := hu ▸ rfl
  have hw : Within [.link] s u := hu ▸ State.modLink_within _ _
  have hup : u.upPorts (some p) = s.upPorts (some p) := State.upPorts_congr (fun q => by rw [hlink]) _
  split
  · obtain ⟨v, hv⟩ := u.sendCell_link { c with hops := c.hops + 1 } (u.upPorts (some p))
    rw [hlink] at hv
    exact ⟨by rw [hv], by rw [hv], fun _ => ⟨by rw [hv], by rw [hv, hup]⟩, by rw [hv], ⟨by rw [hv], by rw [hv]⟩,
      fun a ha => (u.sendCell_counter _ _ ha).trans (hw.counterEq a), hw.seq (State.sendCell_within _ _ _)⟩
  · rename_i hn
    exact ⟨by rw [hlink], by rw [hlink], fun h => absurd h hn, by rw [hlink], ⟨by rw [hlink], by rw [hlink]⟩,
      fun a _ => hw.counterEq a, hw.mono rfl⟩

section
variable {p : Fin 4} {c : EventCell} {s v : State} (h : CellPassed p c s v)
include h

theorem CellPassed.memberAt (t : Nat) : v.memberAt t = s.memberAt t := by
  unfold State.memberAt
  rw [h.spans]

theorem CellPassed.viewAtTime (t : Nat) : v.viewAtTime t = s.viewAtTime t := by
  obtain ⟨h1, h2⟩ := h.views
  unfold State.viewAtTime
  rw [h1, h2]

theorem CellPassed.tb_eq : v.tb = s.tb := State.tb_congr h.within.clkEq
end

/-- What a message that is taken leaves of the link: the message is noted and has gone on. -/
def MsgTaken (p : Fin 4) (c : EventCell) (s t : State) : Prop :=
  t.link.seen = s.link.seen ++ [c.msg s.tb] ∧
    (c.hops.toNat < 8 → t.link.txCell = some ({ c with hops := c.hops + 1 } : EventCell).frame ∧ t.link.txPorts = portMask (s.upPorts (some p))) ∧
    Within [.flg, .ctr, .link, .msix, .flt] s t

theorem CellPassed.taken {p : Fin 4} {c : EventCell} {s v t : State} (h : CellPassed p c s v)
    (hlink : ∃ x, t.link = { v.link with heldMsgs := x }) (hw : Within [.flg, .ctr, .link, .msix, .flt] v t) : MsgTaken p c s t := by
  obtain ⟨x, hx⟩ := hlink
  exact ⟨by rw [hx]; exact h.seen, fun hh => by rw [hx]; exact h.sent hh, (h.within.mono rfl).step hw rfl⟩

/-- A message that counts, sets a flag and is reported. -/
theorem State.msgReported (v : State) (a i cause source aux : Nat) (ha : a < fltA 0x10 ∨ fltA 0x440 ≤ a) (hi : (bit32 i).getLsbD i = true) :
    let t := ((v.count a 1).setBit (lnkA 0x40) i).linkFault cause source aux 0
    t.link = v.link ∧ t.counter a = min (v.counter a + 1) top32 ∧ (t.flag (lnkA 0x40)).getLsbD i = true ∧
      t.flt.seq = v.flt.seq + 1 ∧ Within [.flg, .ctr, .link, .msix, .flt] v t := by
  intro t
  refine ⟨?_, ?_, ?_, ?_, ?_⟩
  · rw [(State.linkFault_within _ _ _ _ _).linkEq, (State.setBit_within _ _ _).linkEq, (State.count_within _ _ _).linkEq]
  · rw [show t.counter a = _ from State.report_counter _ _ ha, (State.setBit_within _ _ _).counterEq, counter_count_self _ _ _ (by decide)]
  · rw [show t.flag (lnkA 0x40) = _ from State.report_flags _ _ _ (by decide) (by decide)]
    exact State.flagBit_setBit _ (by decide) hi
  · rw [show t.flt.seq = _ from State.report_seq _ _, (State.setBit_within _ _ _).fltEq, (State.count_within _ _ _).fltEq]
  · exact ((State.count_within v _ _).seq (State.setBit_within _ _ _) (l := [.flg, .ctr, .msix])).seq (State.linkFault_within _ _ _ _ _)

/-- The cases of a message that is taken (R322, R325). -/
theorem State.hearCell_taken {s : State} {p : Fin 4} {c : EventCell} (hs : s.hasSeen (c.msg s.tb) = false) :
    let m := c.msg s.tb
    let t := s.hearCell p c
    let more := fun a => t.counter a = min (s.counter a + 1) top32
    let member := s.memberAt m.time && (s.viewAtTime m.time).getLsbD c.origin.val
    let tooLate := m.time + 1280 < s.tb ∨ 256 ≤ (s.link.heldMsgs.filter (fun x => !x.own)).length
    MsgTaken p c s t ∧
      (s.tb ≤ m.time → more (lnkA 0x68) ∧ t.link.heldMsgs = s.link.heldMsgs ∧ (t.flag (lnkA 0x40)).getLsbD 7 = true ∧
        t.flt.seq = s.flt.seq + 1) ∧
      (m.time < s.tb → member = false → more (lnkA 0x60) ∧ t.link.heldMsgs = s.link.heldMsgs ∧ t.flt = s.flt) ∧
      (m.time < s.tb → member = true → s.chanRxEn c.channel = false → t.link.heldMsgs = s.link.heldMsgs ∧ t.flt = s.flt) ∧
      (m.time < s.tb → member = true → s.chanRxEn c.channel = true → tooLate → more (lnkA 0x58) ∧ t.link.heldMsgs = s.link.heldMsgs ∧
        (t.flag (lnkA 0x40)).getLsbD 8 = true ∧ t.flt.seq = s.flt.seq + 1) ∧
      (m.time < s.tb → member = true → s.chanRxEn c.channel = true → ¬ tooLate → more (lnkA 0x54) ∧
        t.link.heldMsgs = s.link.heldMsgs ++ [m] ∧ t.flg = s.flg ∧ t.flt = s.flt) := by
  intro m t more member tooLate
  have hp := s.cellPassed_passed p c
  have ht : t = (s.cellPassed p c).takeMsg c m := (s.hearCell_eq p c).trans (if_neg (by rw [hs]; simp))
  generalize s.cellPassed p c = v at hp ht
  have hrx : v.chanRxEn c.channel = s.chanRxEn c.channel := State.effB_congr hp.within.effEq _ _
  have hflt : v.flt = s.flt := hp.within.fltEq
  unfold State.takeMsg at ht
  rw [hp.tb_eq, hp.memberAt, hp.viewAtTime, hrx, hp.held] at ht
  have hmore : ∀ (u : State) a, a < lnkA 0x110 → u.counter a = min (v.counter a + 1) top32 → u.counter a = min (s.counter a + 1) top32 :=
    fun u a ha h => by rw [h, hp.counter a ha]
  by_cases h1 : s.tb ≤ m.time
  · rw [if_pos h1] at ht
    obtain ⟨g1, g2, g3, g4, g5⟩ := v.msgReported (lnkA 0x68) 7 2 c.origin 0 (by decide) (by decide)
    rw [← ht] at g1 g2 g3 g4 g5
    refine ⟨hp.taken ⟨v.link.heldMsgs, g1⟩ g5, fun _ => ⟨hmore t _ (by decide) g2, by rw [g1, hp.held], g3, by rw [g4, hflt]⟩,
      fun h => ?_, fun h => ?_, fun h => ?_, fun h => ?_⟩ <;> omega
  · rw [if_neg h1] at ht
    cases hm : member
    · have hm' : (!s.memberAt m.time || !(s.viewAtTime m.time).getLsbD c.origin.val) = true := by
        have : (s.memberAt m.time && (s.viewAtTime m.time).getLsbD c.origin.val) = false := hm
        rw [← Bool.not_and, this]; rfl
      rw [if_pos hm'] at ht
      have hw : Within [.ctr] v t := ht ▸ State.count_within _ _ _
      refine ⟨hp.taken ⟨v.link.heldMsgs, hw.linkEq⟩ (hw.mono rfl), fun h => absurd h h1, fun _ _ => ⟨hmore t _ (by decide) ?_, ?_, ?_⟩,
        fun _ h => absurd h (by simp), fun _ h => absurd h (by simp), fun _ h => absurd h (by simp)⟩
      · rw [ht, counter_count_self _ _ _ (by decide)]
      · rw [hw.linkEq, hp.held]
      · rw [hw.fltEq, hflt]
    · have hm' : ¬ (!s.memberAt m.time || !(s.viewAtTime m.time).getLsbD c.origin.val) = true := by
        have : (s.memberAt m.time && (s.viewAtTime m.time).getLsbD c.origin.val) = true := hm
        rw [← Bool.not_and, this]; simp
      rw [if_neg hm'] at ht
      cases hr : s.chanRxEn c.channel
      · rw [if_pos (by rw [hr]; rfl)] at ht
        subst ht
        exact ⟨hp.taken ⟨t.link.heldMsgs, rfl⟩ (Within.refl _ t), fun h => absurd h h1, fun _ h => absurd h (by simp),
          fun _ _ _ => ⟨hp.held, hflt⟩, fun _ _ h => absurd h (by simp), fun _ _ h => absurd h (by simp)⟩
      · rw [if_neg (by rw [hr]; simp)] at ht
        by_cases hl : tooLate
        · rw [if_pos hl] at ht
          obtain ⟨g1, g2, g3, g4, g5⟩ := v.msgReported (lnkA 0x58) 8 1 c.origin c.channel (by decide) (by decide)
          rw [← ht] at g1 g2 g3 g4 g5
          exact ⟨hp.taken ⟨v.link.heldMsgs, g1⟩ g5, fun h => absurd h h1, fun _ h => absurd h (by simp), fun _ _ h => absurd h (by simp),
            fun _ _ _ _ => ⟨hmore t _ (by decide) g2, by rw [g1, hp.held], g3, by rw [g4, hflt]⟩, fun _ _ _ h => absurd hl h⟩
        · rw [if_neg hl] at ht
          have hwm : Within [.link] v (v.modLink fun k => { k with heldMsgs := k.heldMsgs ++ [m] }) := State.modLink_within _ _
          have hwc : Within [.ctr] _ t := ht ▸ State.count_within _ _ _
          have hlink : t.link = { v.link with heldMsgs := v.link.heldMsgs ++ [m] } := hwc.linkEq
          refine ⟨hp.taken ⟨_, hlink⟩ (hwm.seq hwc), fun h => absurd h h1, fun _ h => absurd h (by simp), fun _ _ h => absurd h (by simp),
            fun _ _ _ h => absurd h hl, fun _ _ _ _ => ⟨hmore t _ (by decide) ?_, by rw [hlink, hp.held], ?_, ?_⟩⟩
          · rw [ht, counter_count_self _ _ _ (by decide), hwm.counterEq]
          · rw [hwc.flgEq, hwm.flgEq, hp.within.flgEq]
          · rw [hwc.fltEq, hwm.fltEq, hflt]

/-! ### EVENT_CELL_RECEIVE (R305, R306) -/

theorem eventCellReceive_ignored {s : State} {p : Fin 4} {at_ : Nat} {cell : Cell} (hu : s.undef = false)
    (h : s.lnkEn = false ∨ s.link.ports[p].state = .down) : Gives (.eventCellReceive p at_ cell) s fun t => t = s.upto at_ := by
  refine gives_branch hu rfl (if_pos ?_) rfl
  rcases h with h | h
  · exact Or.inl (by show (!s.lnkEn) = true; rw [h]; rfl)
  · exact Or.inr h

section
variable {s : State} {p : Fin 4} {at_ : Nat} {cell : Cell} (hu : s.undef = false) (hen : s.lnkEn = true)
  (hp : s.link.ports[p].state ≠ .down)
include hu hen hp

theorem eventCellReceive_heard : exec (.eventCellReceive p at_ cell) s = .next
    (if !cellGood cell then (s.upto at_).count (lnkA (0x10C + 0x20 * p.val)) 1
     else if cellType cell = 1 ∧ s.link.ports[p].state = .up then (s.upto at_).hearCell p (EventCell.read cell) else s.upto at_) := by
  show execEventCellReceive p at_ cell s = _
  rw [execEventCellReceive, guarded_next hu]
  dsimp only
  rw [if_neg]
  · rfl
  intro h
  rcases h with h | h
  · rw [show (s.upto at_).lnkEn = true from hen] at h
    cases h
  · exact hp h

theorem eventCellReceive_bad (hc : cellGood cell = false) : Gives (.eventCellReceive p at_ cell) s fun t =>
    t.counter (lnkA (0x10C + 0x20 * p.val)) = min (s.counter (lnkA (0x10C + 0x20 * p.val)) + 1) top32 ∧
      CtrsBut [lnkA (0x10C + 0x20 * p.val)] s t ∧ Within [.clk, .ctr] s t ∧ t.link = s.link :=
  ⟨(s.upto at_).count (lnkA (0x10C + 0x20 * p.val)) 1, (eventCellReceive_heard hu hen hp).trans (by rw [if_pos (by rw [hc]; rfl)]),
    counter_count_self _ _ _ (by decide),
    ((s.upto_within at_).ctrsBut _).count 1 (List.mem_singleton_self _), (s.upto_within at_).seq (State.count_within _ _ _),
    (State.count_within _ _ _).linkEq⟩

theorem eventCellReceive_other (hc : cellGood cell = true) (h : ¬ (cellType cell = 1 ∧ s.link.ports[p].state = .up)) :
    Gives (.eventCellReceive p at_ cell) s fun t => t = s.upto at_ :=
  ⟨_, (eventCellReceive_heard hu hen hp).trans (by rw [if_neg (by rw [hc]; simp), if_neg h]), rfl⟩

theorem eventCellReceive_event (hc : cellGood cell = true) (ht : cellType cell = 1) (hup : s.link.ports[p].state = .up) :
    exec (.eventCellReceive p at_ cell) s = .next ((s.upto at_).hearCell p (EventCell.read cell)) :=
  (eventCellReceive_heard hu hen hp).trans (by rw [if_neg (by rw [hc]; simp), if_pos ⟨ht, hup⟩])
end

/-! ### MESSAGE_RELEASE (R323) -/

theorem lowOrigin_none {l : List LinkMsg} (h : lowOrigin l = none) : l = [] := by
  cases l with
  | nil => rfl
  | cons m r =>
    exfalso
    revert h
    unfold lowOrigin
    split
    · simp
    · split <;> simp

/-- The messages of a channel. -/
def ofChan (l : List LinkMsg) (c : Fin 32) : List LinkMsg := l.filter (fun m => decide (m.channel = c))

/-- The channels of messages of one T enter the Bridge, each once. -/
def State.releaseAll (s : State) (v : Nat) (l : List LinkMsg) (cs : List (Fin 32)) : State := cs.foldl (fun u c => u.releaseChan v l c) s

theorem State.releaseChan_of_none {s : State} {v : Nat} {l : List LinkMsg} {c : Fin 32} (h : lowOrigin (ofChan l c) = none) :
    s.releaseChan v l c = s := by
  unfold State.releaseChan
  dsimp only
  rw [show lowOrigin (l.filter (fun m => decide (m.channel = c))) = none from h]

theorem State.releaseChan_of_some {s : State} {v : Nat} {l : List LinkMsg} {c : Fin 32} {m : LinkMsg} (h : lowOrigin (ofChan l c) = some m) :
    s.releaseChan v l c = (s.count (lnkA 0x64) ((ofChan l c).length - 1)).fireWith (Fin.ofNat 256 (148 + c.val)) (s.physOf (v + 1280)) v m.data := by
  unfold State.releaseChan
  dsimp only
  rw [show lowOrigin (l.filter (fun m => decide (m.channel = c))) = some m from h]
  rfl

theorem State.releaseChan_fires (s : State) (v : Nat) (l : List LinkMsg) (c : Fin 32) :
    (∀ e ∈ s.brg.inFlight, e ∈ (s.releaseChan v l c).brg.inFlight) ∧
      (∀ e ∈ (s.releaseChan v l c).brg.inFlight, e ∈ s.brg.inFlight ∨ ∃ m, lowOrigin (ofChan l c) = some m ∧ e.prod.val = 148 + c.val ∧
        e.at_ = s.physOf (v + 1280) ∧ e.carried = v ∧ e.data = m.data) ∧
      (s.configured = true → ofChan l c ≠ [] →
        ∃ e ∈ (s.releaseChan v l c).brg.inFlight, e.prod.val = 148 + c.val ∧ e.at_ = s.physOf (v + 1280)) := by
  have hval : (Fin.ofNat 256 (148 + c.val)).val = 148 + c.val := Nat.mod_eq_of_lt (by omega)
  cases hm : lowOrigin (ofChan l c) with
  | none =>
    rw [State.releaseChan_of_none hm]
    exact ⟨fun _ h => h, fun _ h => Or.inl h, fun _ h => absurd (lowOrigin_none hm) h⟩
  | some m =>
    rw [State.releaseChan_of_some hm]
    have hc : Within [.ctr] s (s.count (lnkA 0x64) ((ofChan l c).length - 1)) := State.count_within _ _ _
    generalize s.count (lnkA 0x64) ((ofChan l c).length - 1) = u at hc
    have hf := u.fireWith_fires (Fin.ofNat 256 (148 + c.val)) (s.physOf (v + 1280)) v m.data
    refine ⟨fun e he => hf.keeps e (by rw [hc.brgEq]; exact he), fun e he => ?_, fun hcfg _ => ?_⟩
    · rcases hf.adds e he with h | ⟨h1, h2, h3, h4⟩
      · exact Or.inl (by rw [hc.brgEq] at h; exact h)
      · exact Or.inr ⟨m, rfl, by rw [h1, hval], h2, h3, h4⟩
    · obtain ⟨e, he, h1, h2⟩ := hf.there ((State.configured_congr hc.imgEq).trans hcfg)
        (by rw [hval]; exact u.producerOk_of_common (by omega))
      exact ⟨e, he, by rw [h1, hval], h2⟩

theorem State.releaseAll_fires (v : Nat) (l : List LinkMsg) (cs : List (Fin 32)) (s : State) :
    (∀ e ∈ s.brg.inFlight, e ∈ (s.releaseAll v l cs).brg.inFlight) ∧
      (∀ e ∈ (s.releaseAll v l cs).brg.inFlight, e ∈ s.brg.inFlight ∨ ∃ c m, lowOrigin (ofChan l c) = some m ∧ e.prod.val = 148 + c.val ∧
        e.at_ = s.physOf (v + 1280) ∧ e.carried = v ∧ e.data = m.data) ∧
      (∀ c ∈ cs, s.configured = true → ofChan l c ≠ [] →
        ∃ e ∈ (s.releaseAll v l cs).brg.inFlight, e.prod.val = 148 + c.val ∧ e.at_ = s.physOf (v + 1280)) := by
  induction cs generalizing s with
  | nil => exact ⟨fun _ h => h, fun _ h => Or.inl h, fun _ h => absurd h List.not_mem_nil⟩
  | cons a r ih =>
    have hw := s.releaseChan_within v l a
    have hphys : (s.releaseChan v l a).physOf (v + 1280) = s.physOf (v + 1280) := by unfold State.physOf; rw [hw.clkEq]
    obtain ⟨k1, k2, k3⟩ := s.releaseChan_fires v l a
    obtain ⟨i1, i2, i3⟩ := ih (s.releaseChan v l a)
    rw [hphys] at i2 i3
    refine ⟨fun e he => i1 e (k1 e he), fun e he => ?_, fun c hc hcfg hne => ?_⟩
    · rcases i2 e he with h | h
      · rcases k2 e h with h | ⟨m, h⟩
        · exact Or.inl h
        · exact Or.inr ⟨a, m, h⟩
      · exact Or.inr h
    · rcases List.mem_cons.mp hc with rfl | hc
      · obtain ⟨e, he, h⟩ := k3 hcfg hne
        exact ⟨e, i1 e he, h⟩
      · exact i3 c hc ((State.configured_congr hw.imgEq).trans hcfg) hne

theorem State.releaseAll_within (s : State) (v : Nat) (l : List LinkMsg) (cs : List (Fin 32)) :
    Within [.flg, .ctr, .brg] s (s.releaseAll v l cs) :=
  (Within.refl _ s).fold fun u c h => h.step (u.releaseChan_within v l c) rfl

theorem messageRelease_gives {s : State} {v : Nat} (hu : s.undef = false) (hm : minTime s.link.heldMsgs = some v) :
    let due := s.physOf (v + 1280)
    let mine := fun c : Fin 32 => (s.link.heldMsgs.filter (fun m => decide (m.time = v))).filter (fun m => decide (m.channel = c))
    Gives .messageRelease s fun t =>
      t.link = { s.link with heldMsgs := s.link.heldMsgs.filter (fun m => decide (m.time ≠ v)) } ∧
      (∀ c, s.configured = true → mine c ≠ [] → ∃ e ∈ t.brg.inFlight, e.prod.val = 148 + c.val ∧ e.at_ = due) ∧
      (∀ e ∈ t.brg.inFlight, e ∈ s.brg.inFlight ∨ ∃ c m, lowOrigin (mine c) = some m ∧ e.prod.val = 148 + c.val ∧ e.at_ = due ∧
        e.carried = v ∧ e.data = m.data) ∧
      t.clk.now = max s.clk.now due ∧ Within [.clk, .flg, .ctr, .brg, .link, .msix] s t := by
  intro due mine
  obtain ⟨b, hb⟩ : ∃ b, b = (s.upto due).modLink (fun k => { k with heldMsgs := k.heldMsgs.filter (fun m => decide (m.time ≠ v)) }) :=
    ⟨_, rfl⟩
  have hwb : Within [.clk, .link] s b := hb ▸ (s.upto_within _).seq (State.modLink_within _ _)
  obtain ⟨-, h2, h3⟩ := State.releaseAll_fires v (s.link.heldMsgs.filter (fun m => decide (m.time = v))) (allFin 32) b
  have hw := b.releaseAll_within v (s.link.heldMsgs.filter (fun m => decide (m.time = v))) (allFin 32)
  have hphys : b.physOf (v + 1280) = due := by rw [hb]; rfl
  have hbrg : b.brg = s.brg := hwb.brgEq
  rw [hphys] at h2 h3
  refine ⟨b.releaseAll v (s.link.heldMsgs.filter (fun m => decide (m.time = v))) (allFin 32), ?_, ?_,
    fun c hc hne => h3 c (List.mem_finRange c) ((State.configured_congr hwb.imgEq).trans hc) hne, fun e he => by
      have := h2 e he; rw [hbrg] at this; exact this, ?_, hwb.seq hw⟩
  · show execMessageRelease s = _
    rw [execMessageRelease, guarded_next hu, hm, hb]
    rfl
  · rw [hw.linkEq, hb]; rfl
  · rw [hw.clkEq, hb]; rfl

/-! ### MEMB_CHANGED_CHECK (R324) -/

theorem lnkEvt_not_pend : lnkA 0x44 ∉ pendWords := by decide

theorem membChangedCheck_gives {s : State} {m : LinkMsg} {changed : Bool} {rest : List (LinkMsg × Bool)} (hu : s.undef = false)
    (h : s.link.sent = (m, changed) :: rest) : Gives .membChangedCheck s fun t =>
      t.link = { s.link with sent := rest, mcTime := if changed then BitVec.ofNat 64 m.time else s.link.mcTime } ∧
      (changed = true → (t.flag (lnkA 0x44)).getLsbD m.channel.val = true) ∧ (changed = false → t.flg = s.flg) ∧
      t.clk.now = max s.clk.now (s.physOf (m.time + 1600)) ∧ Within [.clk, .flg, .link, .msix] s t := by
  have hexec : exec .membChangedCheck s = .next
      (let u := (s.upto (s.physOf (m.time + 1600))).modLink (fun k => { k with sent := rest })
       if changed then (u.modLink (fun k => { k with mcTime := BitVec.ofNat 64 m.time })).setBit (lnkA 0x44) m.channel else u) := by
    show execMembChangedCheck s = _
    rw [execMembChangedCheck, guarded_next hu, h]
  have hw0 : Within [.clk, .link] s ((s.upto (s.physOf (m.time + 1600))).modLink (fun k => { k with sent := rest })) :=
    (s.upto_within _).seq (State.modLink_within _ _)
  refine ⟨_, hexec, ?_⟩
  cases changed
  · exact ⟨rfl, fun h => absurd h (by simp), fun _ => rfl, rfl, hw0.mono rfl⟩
  · refine ⟨(State.setBit_within _ _ _).linkEq, fun _ => State.flagBit_setBit _ lnkEvt_not_pend (bit32_self m.channel.isLt),
      fun h => absurd h (by simp), congrArg Clock.now (State.setBit_within _ _ _).clkEq, ?_⟩
    exact (hw0.seq (State.modLink_within _ _) (l := [.clk, .link])).seq (State.setBit_within _ _ _)

/-- Settles O49: beacons are sent, passed on and heard, and messages are taken, released and judged. -/
theorem beaconsAndMessages : Obligations.BeaconsAndMessages := by
  unfold Obligations.BeaconsAndMessages
  intro s hu
  refine ⟨fun hen => gives_branch hu rfl (if_pos (by rw [hen]; rfl)) rfl, fun hen => beaconSend_gives hu hen, ?_, ?_, ?_,
    fun v hm => messageRelease_gives hu hm, fun m changed rest h => membChangedCheck_gives hu h⟩
  · intro p at_ cells u a bad
    refine ⟨fun h => gives_branch hu rfl (if_pos (h.imp (fun h => by rw [show (s.upto at_).lnkEn = false from h]; rfl) id)) rfl,
      fun hen hp => ?_⟩
    have hnot : ¬ ((!(s.upto at_).lnkEn) = true ∨ (s.upto at_).link.ports[p].state = .down) := fun h =>
      h.elim (fun h => by rw [show (s.upto at_).lnkEn = true from hen] at h; cases h) hp
    refine ⟨fun hb => ?_, fun hb hr => ?_⟩
    · refine gives_branch (u := u.count a bad) hu rfl ((if_neg hnot).trans (if_pos fun h => ?_))
        ⟨counter_count_self _ _ _ hb, ((s.upto_within at_).ctrsBut _).count _ (List.mem_singleton_self _),
          (s.upto_within at_).seq (State.count_within _ _ _)⟩
      have hlen : bad = 0 := congrArg List.length h
      omega
    · have hnil : cells.filter (fun x => !cellGood x) = [] := List.length_eq_zero_iff.mp hb
      exact gives_branch (u := u) hu rfl ((if_neg hnot).trans ((if_neg (by rw [hnil]; simp)).trans (by rw [hr]))) rfl
  · intro p at_ cells b u known dup out sent split hen hp hgood hr
    obtain ⟨h1, h2, h3, h4⟩ := beaconReceive_whole (at_ := at_) hu hen hp hgood hr
    have hdup : dup ↔ u.beaconDup b = true := by
      unfold State.beaconDup
      rw [Bool.or_eq_true, decide_eq_true_eq]
      exact Iff.rfl
    have hnodup : ¬ dup → u.beaconDup b = false := fun h => by rwa [hdup, Bool.not_eq_true] at h
    have hsent : ∀ {v t : State}, Passed p b u v → t.link.txBeacon = v.link.txBeacon → t.link.ports = v.link.ports → sent t :=
      fun hpass ht hports => ⟨ht.trans hpass.sent, fun h => by rw [hports]; exact hpass.neighbour h⟩
    refine ⟨fun hd => h1 (hdup.mp hd), fun hd ht => ?_, fun hd ht hs => ?_, fun hd ht hs => ?_⟩
    · obtain ⟨t, hx, hpass⟩ := h2 (hnodup hd) ht
      exact ⟨t, hx, hsent hpass rfl rfl, hpass.origins, (s.upto_within at_).seq hpass.within⟩
    · obtain ⟨t, hx, ⟨v, x, hpass, hlink⟩, hf⟩ := h3 (hnodup hd) ht hs
      exact ⟨t, hx, hsent hpass (by rw [hlink]) (by rw [hlink]), by rw [hlink]; exact hpass.origins, hf⟩
    · obtain ⟨t, hx, ⟨v, hpass, htx, hports⟩, ho, hv, hw⟩ := h4 (hnodup hd) ht hs
      exact ⟨t, hx, hsent hpass htx hports, ho, hv, hw⟩
  · intro p at_ cell c u v m seen taken more member tooLate
    refine ⟨eventCellReceive_ignored hu, fun hen hst => ?_, fun hen hst => ?_⟩
    · have hp : s.link.ports[p].state ≠ .down := by rw [hst]; decide
      refine ⟨fun hc => ?_, fun hc => eventCellReceive_other hu hen hp hc fun h => by rw [hst] at h; exact absurd h.2 (by decide)⟩
      obtain ⟨t, hx, h1, h2, h3, -⟩ := eventCellReceive_bad (at_ := at_) hu hen hp hc
      exact ⟨t, hx, h1, h2, h3⟩
    · have hp : s.link.ports[p].state ≠ .down := by rw [hst]; decide
      refine ⟨fun hc => ?_, fun hc ht => eventCellReceive_other hu hen hp hc fun h => ht h.1, fun hc ht hs => ?_, fun hc ht hs => ?_⟩
      · obtain ⟨t, hx, h1, -, -, h4⟩ := eventCellReceive_bad (at_ := at_) hu hen hp hc
        exact ⟨t, hx, h1, h4⟩
      · refine ⟨_, eventCellReceive_event hu hen hp hc ht hst, ?_⟩
        rw [State.hearCell_eq]
        exact if_pos hs
      · obtain ⟨⟨k1, k2, k3⟩, hlate, hout, hoff, hfull, hheld⟩ := State.hearCell_taken (s := u) (p := p) (c := c) hs
        have hx := eventCellReceive_event (at_ := at_) hu hen hp hc ht hst
        have htaken : taken ((s.upto at_).hearCell p (EventCell.read cell)) :=
          ⟨k1, k2, congrArg Clock.now k3.clkEq, (s.upto_within at_).seq k3⟩
        exact ⟨fun h => ⟨_, hx, htaken, hlate h⟩, fun h hm => ⟨_, hx, htaken, hout h hm⟩, fun h hm hr => ⟨_, hx, htaken, hoff h hm hr⟩,
          fun h hm hr hl => ⟨_, hx, htaken, hfull h hm hr hl⟩, fun h hm hr hl => ⟨_, hx, htaken, hheld h hm hr hl⟩⟩

end Sys2Proof.Machine
end

