-- ==== Sys2Proof/Proofs/Levels.lean ====
section
/-! PROOF. Level channels: output enable, connections, spans, flags and the monitor (R268 to R278). -/
namespace Sys2Proof.Machine

theorem lvlA_not_pend (c : Lvl) (off : Nat) : lvlA c off ∉ pendWords := by
  simp only [pendWords, List.mem_cons, List.not_mem_nil, or_false, not_or]
  unfold lvlA hostA
  omega

/-! ### One channel at a time -/

/-- Channel c holds v after a command, and every other channel what it held. -/
structure LvlIs (c : Lvl) (v : Level) (s t : State) : Prop where
  self : t.lvl[c] = v
  but : LvlBut c s t

theorem LvlIs.refl (c : Lvl) (s : State) : LvlIs c s.lvl[c] s s := ⟨rfl, fun _ _ => rfl⟩

theorem LvlIs.mod {c : Lvl} {v : Level} {s t : State} (h : LvlIs c v s t) (f : Level → Level) : LvlIs c (f v) s (t.modLvl c f) :=
  ⟨by rw [State.modLvl_self, h.self], fun d hd => (State.modLvl_other t c f hd).trans (h.but d hd)⟩

theorem LvlIs.modBy {c : Lvl} {v w : Level} {s t : State} {f : Level → Level} (h : LvlIs c v s t) (e : f v = w) : LvlIs c w s (t.modLvl c f) :=
  e ▸ h.mod f

theorem LvlIs.same {c : Lvl} {v : Level} {s t u : State} (h : LvlIs c v s t) (e : u.lvl = t.lvl) : LvlIs c v s u :=
  ⟨by rw [e]; exact h.self, fun d hd => by rw [e]; exact h.but d hd⟩

theorem LvlIs.eq {c : Lvl} {v w : Level} {s t : State} (h : LvlIs c v s t) (e : v = w) : LvlIs c w s t := e ▸ h

/-! ### Flags and the monitor -/

theorem State.flag_setBitIf_self (s : State) (b : Bool) {a : Nat} (i : Nat) (ha : a ∉ pendWords) :
    (s.setBitIf b a i).flag a = s.flag a ||| (if b then bit32 i else 0) := by
  unfold State.setBitIf
  cases b
  · simp
  · exact State.flag_setBit_self s i ha

theorem State.monDisturb_mon (s : State) (c : Lvl) :
    (s.monDisturb c).mon = if s.mon.chan.any (fun k => decide (k.val = c.val)) then { s.mon with disturbed := true } else s.mon := by
  unfold State.monDisturb
  split <;> rfl

/-- A connection or the end of a span change sets its event bits and disturbs the channel's conversion. -/
def State.lvlDone (s : State) (c : Lvl) (i j : Nat) (b : Bool) : State :=
  ((s.setBit (lvlA c 0x18) i).setBitIf b (lvlA c 0x18) j).monDisturb c

theorem State.lvlDone_within (s : State) (c : Lvl) (i j : Nat) (b : Bool) : Within [.flg, .mon, .msix] s (s.lvlDone c i j b) :=
  Within.seq (l := [.flg, .mon, .msix])
    ((State.setBit_within s _ i).seq (l := [.flg, .msix]) (State.setBitIf_within _ b _ j)) (State.monDisturb_within _ c)

theorem State.lvlDone_flag (s : State) (c : Lvl) (i j : Nat) (b : Bool) :
    (s.lvlDone c i j b).flag (lvlA c 0x18) = s.flag (lvlA c 0x18) ||| bit32 i ||| (if b then bit32 j else 0) := by
  unfold State.lvlDone
  rw [(State.monDisturb_within _ c).flagEq, State.flag_setBitIf_self _ b j (lvlA_not_pend c 0x18),
    State.flag_setBit_self _ i (lvlA_not_pend c 0x18)]

theorem State.lvlDone_flags (s : State) (c : Lvl) (i j : Nat) (b : Bool) : FlagsBut [lvlA c 0x18] s (s.lvlDone c i j b) :=
  (((FlagsBut.refl _ s).setBit i (List.mem_singleton_self _)).setBitIf b j (List.mem_singleton_self _)).trans
    ((State.monDisturb_within _ c).flagsBut _)

theorem State.lvlDone_mon (s : State) (c : Lvl) (i j : Nat) (b : Bool) :
    (s.lvlDone c i j b).mon = if s.mon.chan.any (fun k => decide (k.val = c.val)) then { s.mon with disturbed := true } else s.mon := by
  unfold State.lvlDone
  rw [State.monDisturb_mon, (State.setBitIf_within _ b _ j).monEq, (State.setBit_within s _ i).monEq]

/-! ### Output enable (R270) -/

/-- What a channel holds that settles from tick `now` on. -/
def Level.settled (l : Level) (now : Nat) : Level :=
  { l with state := .settling, due := if l.changing then max l.due (now + 32000) else now + 32000, driven := false, settling := true,
           reason := if l.state = .opened then 0 else l.reason }

theorem LvlIs.settle {c : Lvl} {v : Level} {s t : State} (h : LvlIs c v s t) : LvlIs c (v.settled t.clk.now) s (t.lvlSettle c) :=
  h.modBy rfl

/-- A rising OE settles a channel that is open or tripped. -/
theorem lvlOe_rises {s : State} {c : Lvl} (hu : s.undef = false) (ho : s.lvlOeCfg c = true) (hl : s.lvl[c].oe = false)
    (hp : s.prepared 3 = false) :
    Gives (.lvlOeWrite c) s (fun t =>
      t.lvl[c] = (if s.lvl[c].state = .opened ∨ s.lvl[c].state = .tripped then { s.lvl[c].settled s.clk.now with oe := true }
        else { s.lvl[c] with oe := true }) ∧ LvlBut c s t ∧ Within [.lvl] s t) := by
  have hne : ¬ s.lvlOeCfg c = s.lvl[c].oe := by rw [ho, hl]; decide
  have hhold : ¬ (s.lvlOeCfg c && s.prepared 3) = true := by rw [hp]; simp
  refine gives_branch hu rfl ((if_neg hne).trans ((if_neg hhold).trans (if_pos ho))) ?_
  have hv : LvlIs c { s.lvl[c] with oe := true } s (s.modLvl c (fun l => { l with oe := s.lvlOeCfg c })) :=
    (LvlIs.refl c s).modBy (by rw [ho])
  split
  · exact ⟨hv.settle.self, hv.settle.but, (State.modLvl_within s c _).seq (State.lvlSettle_within _ c)⟩
  · exact ⟨hv.self, hv.but, State.modLvl_within s c _⟩

/-- A falling OE opens the channel at once. -/
theorem lvlOe_falls {s : State} {c : Lvl} (hu : s.undef = false) (ho : s.lvlOeCfg c = false) (hl : s.lvl[c].oe = true) :
    Gives (.lvlOeWrite c) s (fun t =>
      t.lvl[c] = { s.lvl[c] with oe := false, state := .opened, driven := false, settling := false
                                 reason := if s.lvl[c].on then 1 else s.lvl[c].reason
                                 changing := s.lvl[c].changing || decide (s.lvl[c].state = .spanChange) } ∧
      LvlBut c s t ∧ Within [.lvl] s t) := by
  have hne : ¬ s.lvlOeCfg c = s.lvl[c].oe := by rw [ho, hl]; decide
  have hhold : ¬ (s.lvlOeCfg c && s.prepared 3) = true := by rw [ho]; simp
  refine gives_branch hu rfl ((if_neg hne).trans ((if_neg hhold).trans (if_neg (by rw [ho]; decide)))) ?_
  have hv : LvlIs c { s.lvl[c] with oe := false } s (s.modLvl c (fun l => { l with oe := s.lvlOeCfg c })) :=
    (LvlIs.refl c s).modBy (by rw [ho])
  exact ⟨(hv.modBy rfl).self, (hv.modBy rfl).but, (State.modLvl_within s c _).seq (State.modLvl_within _ c _)⟩

/-! ### Connection and reconnection (R270, R276, R278) -/

theorem lvlConnect_settled {s : State} {c : Lvl} (hu : s.undef = false) (hs : s.lvl[c].state = .settling) :
    Gives (.lvlConnect c) s (fun t =>
      t.lvl[c] = { s.lvl[c] with state := .connected, settling := false, changing := false } ∧ LvlBut c s t ∧
      t.flag (lvlA c 0x18) = s.flag (lvlA c 0x18) ||| bit32 0 ||| (if s.lvl[c].changing then bit32 1 else 0) ∧ FlagsBut [lvlA c 0x18] s t ∧
      t.mon = (if s.mon.chan.any (fun k => decide (k.val = c.val)) then { s.mon with disturbed := true } else s.mon) ∧
      t.clk.now = max s.clk.now s.lvl[c].due ∧ Within [.clk, .flg, .lvl, .mon, .msix] s t) := by
  refine gives_framed hu (fun _ h => execLvlConnect_within c s h) rfl (if_neg (by rw [hs]; decide)) fun hw => ?_
  obtain ⟨m, hm⟩ : ∃ m, m = (s.upto s.lvl[c].due).modLvl c (fun l => { l with state := .connected, settling := false, changing := false }) := ⟨_, rfl⟩
  rw [← hm] at hw ⊢
  have hv : LvlIs c { s.lvl[c] with state := .connected, settling := false, changing := false } s m :=
    hm ▸ ((LvlIs.refl c s).same (u := s.upto s.lvl[c].due) rfl).modBy rfl
  have hk : Within [.clk, .lvl] s m := hm ▸ (State.upto_within s _).seq (State.modLvl_within _ c _)
  have hd : (((m.setBit (lvlA c 0x18) 0).setBitIf s.lvl[c].changing (lvlA c 0x18) 1).monDisturb c) = m.lvlDone c 0 1 s.lvl[c].changing := rfl
  rw [hd] at hw ⊢
  have hv' := hv.same (State.lvlDone_within m c 0 1 s.lvl[c].changing).lvlEq
  refine ⟨hv'.self, hv'.but, ?_, (hk.flagsBut _).trans (State.lvlDone_flags m c 0 1 _), ?_, ?_, hw⟩
  · rw [State.lvlDone_flag, hk.flagEq]
  · rw [State.lvlDone_mon, hk.monEq]
  · rw [(State.lvlDone_within m c 0 1 _).clkEq, hm]
    rfl

theorem lvlReconnect_held {s : State} {c : Lvl} (hu : s.undef = false) (hp : s.prepared 3 = true) :
    Gives (.lvlReconnect c) s (fun t => t.pwr.held = s.pwr.held ++ [.lvlReconnect c] ∧
      t.cmdWord (lvlA c 0x10) = s.cmdWord (lvlA c 0x10) ||| 4 ∧ CmdsBut [lvlA c 0x10] s t ∧ Within [.pwr, .cmd, .more] s t) := by
  refine gives_branch hu rfl (if_pos hp) ⟨rfl, ?_, ?_, (State.cmdHold_within s _ 4).seq (State.hold_within _ _)⟩
  · unfold State.hold State.cmdHold State.cmdWord
    dsimp only
    rw [smGet_mod_self]
  · intro b hb
    unfold State.hold State.cmdHold State.cmdWord
    dsimp only
    rw [smGet_mod_other _ _ _ (List.ne_of_not_mem_cons hb), smGet_mod_other _ _ _ (List.ne_of_not_mem_cons hb)]
    exact ⟨rfl, rfl⟩

theorem lvlReconnect_taken {s : State} {c : Lvl} (hu : s.undef = false) (hp : s.prepared 3 = false) :
    Gives (.lvlReconnect c) s (fun t =>
      t.lvl[c] = (if s.lvl[c].state = .tripped then s.lvl[c].settled s.clk.now else s.lvl[c]) ∧
      LvlBut c s t ∧ CmdsBut [lvlA c 0x10] s t ∧ Within [.cmd, .more, .lvl] s t) := by
  obtain ⟨-, -, hd⟩ := State.cmdDrop_drops s (lvlA c 0x10) 4
  refine gives_branch hu rfl (if_neg (by rw [hp]; simp)) ?_
  dsimp only
  have hv : LvlIs c s.lvl[c] s (s.cmdDrop (lvlA c 0x10) 4) := (LvlIs.refl c s).same rfl
  rw [State.cmdDrop_lvl]
  split
  · refine ⟨hv.settle.self, hv.settle.but, hd.trans ((State.lvlSettle_within _ c).cmdsBut _),
      (State.cmdDrop_within s _ 4).seq (State.lvlSettle_within _ c)⟩
  · exact ⟨hv.self, hv.but, hd, (State.cmdDrop_within s _ 4).mono rfl⟩

/-- Settles O42: an OE write moves the output by what it was, a settling channel connects at its instant, RECONNECT settles a tripped one,
and a prepared block holds what would drive an output. -/
theorem levelConnections : Obligations.LevelConnections := by
  unfold Obligations.LevelConnections
  intro s c hu l oe due settled
  refine ⟨fun h => gives_branch hu rfl (if_pos h) rfl, fun ho hl hp => ?_, fun ho hl hp => lvlOe_rises hu ho hl hp,
    fun ho hl => lvlOe_falls hu ho hl, fun hs => lvlConnect_settled hu hs, fun hp => lvlReconnect_held hu hp,
    fun hp => lvlReconnect_taken hu hp⟩
  have ho' : s.lvlOeCfg c = true := ho
  have hl' : s.lvl[c].oe = false := hl
  exact gives_branch hu rfl ((if_neg (by rw [ho', hl']; decide)).trans (if_pos (by rw [ho', hp]; rfl)))
    ⟨rfl, State.hold_within s _⟩

/-! ### Spans (R271 to R273) -/

/-- What a channel holds whose span switches. -/
def Level.switched (l : Level) (sp : Nat) (code : BitVec 20) : Level := { l with span := BitVec.ofNat 4 sp, active := code }

/-- The code that follows a span that is kept. -/
def State.nearest (s : State) (c : Lvl) (sp : Nat) : BitVec 20 × Bool :=
  nearestCode s.lvl[c].span.toNat sp s.lvl[c].active ((Config.freeWord s.freeN).getLsbD 0)

theorem State.lvlSwitch_keep (s : State) (c : Lvl) (sp : Nat) :
    s.lvlSwitch c sp true = (s.free.2.modLvl c (fun l => l.switched sp (s.nearest c sp).1)).setBitIf (s.nearest c sp).2 (lvlA c 0x18) 5 := rfl

theorem State.lvlSwitch_leave (s : State) (c : Lvl) (sp : Nat) :
    s.lvlSwitch c sp false = s.modLvl c (fun l => l.switched sp 0) := rfl

theorem LvlIs.switch (s : State) (c : Lvl) (sp : Nat) (keep : Bool) :
    LvlIs c (s.lvl[c].switched sp (if keep then (s.nearest c sp).1 else 0)) s (s.lvlSwitch c sp keep) := by
  cases keep
  · exact (LvlIs.refl c s).mod (fun l => l.switched sp 0)
  · exact ((LvlIs.refl c s).same (u := s.free.2) rfl).mod (fun l => l.switched sp (s.nearest c sp).1) |>.same
      (State.setBitIf_within _ _ _ _).lvlEq

theorem State.lvlSwitch_flags (s : State) (c : Lvl) (sp : Nat) (keep : Bool) : FlagsBut [lvlA c 0x18] s (s.lvlSwitch c sp keep) := by
  cases keep
  · exact (State.modLvl_within s c (fun l => l.switched sp 0)).flagsBut _
  · exact FlagsBut.setBitIf (fun _ _ _ => rfl) _ 5 (List.mem_singleton_self _)

theorem State.lvlSwitch_freeN (s : State) (c : Lvl) (sp : Nat) (keep : Bool) :
    (s.lvlSwitch c sp keep).freeN = s.freeN + (if keep then 1 else 0) := by
  cases keep
  · rfl
  · rw [State.lvlSwitch_keep, (State.setBitIf_within _ _ _ _).freeNEq]; rfl

theorem State.lvlSwitch_clamped {s : State} {c : Lvl} {sp : Nat} (h : (s.nearest c sp).2 = true) :
    ((s.lvlSwitch c sp true).flag (lvlA c 0x18)).getLsbD 5 = true := by
  rw [State.lvlSwitch_keep, h]
  exact State.flagBit_setBit _ (lvlA_not_pend c 0x18) (bit32_self (by decide))

theorem State.lvlSwitch_left (s : State) (c : Lvl) (sp : Nat) : (s.lvlSwitch c sp false).flag (lvlA c 0x18) = s.flag (lvlA c 0x18) := rfl

/-- What a channel holds that takes a span. -/
def Level.spanned (l : Level) (keep : Bool) (now : Nat) : Level :=
  { l with
    state := .spanChange, due := now + 32000, settling := decide (l.state = .settling)
    driven := keep && decide (l.state = .connected), changing := false
    reason := if l.state = .connected ∧ (!keep) = true then 4 else l.reason }

/-- The output stays driven under a span change: MBB, and both spans of one kind (R272). -/
def State.spanKeeps (s : State) (c : Lvl) : Bool :=
  s.lvlMbb c && decide (currentSpan (s.lvlSpanCfg c) = currentSpan s.lvl[c].span.toNat)

/-- A channel whose span in force has switched, before its output moves. -/
def State.spanSwitched (s : State) (c : Lvl) : State :=
  ((s.setBitIf (s.lvlMbb c && !s.spanKeeps c) (lvlA c 0x18) 6).lvlSwitch c (s.lvlSpanCfg c) (s.spanKeeps c)).monDisturb c

theorem State.lvlSpanTake_eq {s : State} {c : Lvl} (h : ¬ (s.lvlSpanCfg c = s.lvl[c].span.toNat ∨ 7 ≤ s.lvlSpanCfg c ∨ s.lvl[c].state = .spanChange)) :
    s.lvlSpanTake c = if s.lvl[c].state = .opened ∨ s.lvl[c].state = .tripped then s.spanSwitched c
      else (s.spanSwitched c).modLvl c (fun l => l.spanned (s.spanKeeps c) s.clk.now) := by
  have hk : (s.lvlMbb c && !decide (currentSpan (s.lvlSpanCfg c) ≠ currentSpan s.lvl[c].span.toNat)) = s.spanKeeps c := by
    unfold State.spanKeeps
    simp
  have hx : (s.lvlMbb c && decide (currentSpan (s.lvlSpanCfg c) ≠ currentSpan s.lvl[c].span.toNat)) = (s.lvlMbb c && !s.spanKeeps c) := by
    unfold State.spanKeeps
    cases s.lvlMbb c <;> simp
  have hn : (s.spanSwitched c).clk = s.clk :=
    (Within.seq (l := [.flg, .lvl, .mon, .msix, .freeN]) ((State.setBitIf_within s _ _ _).seq (l := [.flg, .lvl, .msix, .freeN])
      (State.lvlSwitch_within _ _ _ _)) (State.monDisturb_within _ c)).clkEq
  rw [← hn]
  unfold State.lvlSpanTake
  rw [if_neg h]
  dsimp only
  rw [hk, hx]
  rfl

theorem LvlIs.spanSwitched (s : State) (c : Lvl) :
    LvlIs c (s.lvl[c].switched (s.lvlSpanCfg c) (if s.spanKeeps c then (s.nearest c (s.lvlSpanCfg c)).1 else 0)) s (s.spanSwitched c) := by
  obtain ⟨m, hm⟩ : ∃ m, m = s.setBitIf (s.lvlMbb c && !s.spanKeeps c) (lvlA c 0x18) 6 := ⟨_, rfl⟩
  have hw : Within [.flg, .msix] s m := hm ▸ State.setBitIf_within s _ _ _
  have hv := LvlIs.switch m c (s.lvlSpanCfg c) (s.spanKeeps c)
  have hn : m.nearest c (s.lvlSpanCfg c) = s.nearest c (s.lvlSpanCfg c) := by unfold State.nearest; rw [hw.lvlEq, hw.freeNEq]
  unfold State.spanSwitched
  rw [← hm]
  rw [hn, hw.lvlEq] at hv
  exact LvlIs.same ⟨hv.self, fun d hd => (hv.but d hd).trans (by rw [hw.lvlEq])⟩ (State.monDisturb_within _ c).lvlEq

theorem State.spanSwitched_mon (s : State) (c : Lvl) :
    (s.spanSwitched c).mon = if s.mon.chan.any (fun k => decide (k.val = c.val)) then { s.mon with disturbed := true } else s.mon := by
  unfold State.spanSwitched
  rw [State.monDisturb_mon, (State.lvlSwitch_within _ c _ _).monEq, (State.setBitIf_within s _ _ _).monEq]

theorem State.spanSwitched_flags (s : State) (c : Lvl) : FlagsBut [lvlA c 0x18] s (s.spanSwitched c) :=
  (((FlagsBut.refl _ s).setBitIf _ 6 (List.mem_singleton_self _)).trans (State.lvlSwitch_flags _ c _ _)).trans
    ((State.monDisturb_within _ c).flagsBut _)

theorem State.spanSwitched_freeN (s : State) (c : Lvl) : (s.spanSwitched c).freeN = s.freeN + (if s.spanKeeps c then 1 else 0) := by
  unfold State.spanSwitched
  rw [(State.monDisturb_within _ c).freeNEq, State.lvlSwitch_freeN, (State.setBitIf_within s _ _ _).freeNEq]

theorem State.spanSwitched_left {s : State} {c : Lvl} (hb : s.lvlMbb c = true) (hk : s.spanKeeps c = false) :
    ((s.spanSwitched c).flag (lvlA c 0x18)).getLsbD 6 = true := by
  unfold State.spanSwitched
  rw [(State.monDisturb_within _ c).flagEq, hk, State.lvlSwitch_left, hb]
  exact State.flagBit_setBitIf s rfl (lvlA_not_pend c 0x18) (bit32_self (by decide))

theorem State.spanSwitched_clamped {s : State} {c : Lvl} (hk : s.spanKeeps c = true) (h : (s.nearest c (s.lvlSpanCfg c)).2 = true) :
    ((s.spanSwitched c).flag (lvlA c 0x18)).getLsbD 5 = true := by
  unfold State.spanSwitched
  rw [(State.monDisturb_within _ c).flagEq, hk, Bool.not_true, Bool.and_false]
  exact State.lvlSwitch_clamped h

/-- A span that differs is taken. -/
theorem lvlSpan_taken {s : State} {c : Lvl} (hu : s.undef = false)
    (h : ¬ (s.lvlSpanCfg c = s.lvl[c].span.toNat ∨ 7 ≤ s.lvlSpanCfg c ∨ s.lvl[c].state = .spanChange)) :
    Gives (.lvlSpanWrite c) s (fun t =>
      LvlIs c (if s.lvl[c].state = .opened ∨ s.lvl[c].state = .tripped then
          s.lvl[c].switched (s.lvlSpanCfg c) (if s.spanKeeps c then (s.nearest c (s.lvlSpanCfg c)).1 else 0)
        else (s.lvl[c].switched (s.lvlSpanCfg c) (if s.spanKeeps c then (s.nearest c (s.lvlSpanCfg c)).1 else 0)).spanned
          (s.spanKeeps c) s.clk.now) s t ∧
      Within [.lvl] (s.spanSwitched c) t ∧ Within [.flg, .lvl, .mon, .msix, .freeN] s t) := by
  refine gives_framed hu (fun _ h => execLvlSpanWrite_within c s h) rfl (State.lvlSpanTake_eq h) fun hw => ?_
  revert hw
  split
  · exact fun hw => ⟨LvlIs.spanSwitched s c, Within.refl _ _, hw⟩
  · exact fun hw => ⟨(LvlIs.spanSwitched s c).modBy rfl, State.modLvl_within _ c _, hw⟩

/-! ### Compliance and open-load flags (R275, R276) -/

/-- What a flag leaves of a channel: it trips but under NONE. -/
def Level.trippedBy (l : Level) (act : Nat) (why : BitVec 4) : Level :=
  if act = 1 then l else { l with state := .tripped, reason := why, driven := false, changing := decide (l.state = .spanChange) }

/-- The record of a flag of a channel. -/
def State.loadRec (s : State) (c : Lvl) (cause act at_ : Nat) : FaultRec :=
  { cls := 8, cause := BitVec.ofNat 8 cause, source := BitVec.ofNat 8 (0x20 + c.val), aux := BitVec.ofNat 16 act,
    time := BitVec.ofNat 64 (s.tbAt at_) }

/-- A flag of a watched channel counts, sets its bit, is reported and trips. -/
theorem State.lvlFlag_raised {s : State} {c : Lvl} (bit cause : Nat) (why : BitVec 4) (at_ : Nat) (hb : bit < 32)
    (hw : s.lvl[c].watched = true) :
    LvlIs c (s.lvl[c].trippedBy (s.lvlAct c) why) s (s.lvlFlag c bit cause why at_) ∧
      (s.lvlFlag c bit cause why at_).counter (lvlA c 0x1C) = min (s.counter (lvlA c 0x1C) + 1) top32 ∧
      ((s.lvlFlag c bit cause why at_).flag (lvlA c 0x18)).getLsbD bit = true ∧
      (s.lvlFlag c bit cause why at_).flt.seq = s.flt.seq + 1 ∧ (s.lvlFlag c bit cause why at_).clk.now = max s.clk.now at_ := by
  obtain ⟨m, hm⟩ : ∃ m, m = (((s.upto at_).count (lvlA c 0x1C) 1).setBit (lvlA c 0x18) bit) := ⟨_, rfl⟩
  obtain ⟨r, hr⟩ : ∃ r : FaultRec, s.lvlFlag c bit cause why at_ = (if s.lvlAct c = 1 then (m.fire (196 + c) at_).report r
      else ((m.fire (196 + c) at_).report r).modLvl c (fun l => { l with state := .tripped, reason := why, driven := false
                                                                         changing := decide (l.state = .spanChange) })) := by
    refine ⟨(m.fire (196 + c) at_).loadRec c cause (s.lvlAct c) at_, ?_⟩
    unfold State.lvlFlag
    rw [hm]
    exact if_neg (by rw [State.upto_lvl, hw]; decide)
  obtain ⟨u, hu⟩ : ∃ u, u = (m.fire (196 + c) at_).report r := ⟨_, rfl⟩
  have hmw : Within [.clk, .ctr, .flg, .msix] s m :=
    hm ▸ Within.seq (l := [.clk, .ctr, .flg, .msix]) ((State.upto_within s at_).seq (l := [.clk, .ctr]) (State.count_within _ _ 1))
      (State.setBit_within _ _ bit)
  have hlvl : u.lvl = s.lvl := by rw [hu, State.report_lvl, State.fire_lvl, hmw.lvlEq]
  have hctr : u.counter (lvlA c 0x1C) = min (s.counter (lvlA c 0x1C) + 1) top32 := by
    rw [hu, State.report_counter _ r (by unfold lvlA fltA; omega), (State.fire_within m _ _).counterEq, hm,
      (State.setBit_within _ _ bit).counterEq, counter_count_self _ _ _ (by decide), (State.upto_within s at_).counterEq]
  have hflag : (u.flag (lvlA c 0x18)).getLsbD bit = true := by
    rw [hu, State.report_flags _ r _ (by simp only [List.mem_cons, List.not_mem_nil, or_false]; unfold lvlA fltA; omega)
      (lvlA_not_pend c 0x18), State.fire_flag _ _ _ (by unfold lvlA brgA; omega), hm]
    exact State.flagBit_setBit _ (lvlA_not_pend c 0x18) (bit32_self hb)
  have hseq : u.flt.seq = s.flt.seq + 1 := by rw [hu, State.report_seq, State.fire_flt, hmw.fltEq]
  have hnow : u.clk.now = max s.clk.now at_ := by
    rw [hu, State.report_clk, State.fire_clk, hm, (State.setBit_within _ _ bit).clkEq, (State.count_within _ _ 1).clkEq]
    rfl
  have hv : LvlIs c s.lvl[c] s u := (LvlIs.refl c s).same hlvl
  rw [hr, ← hu]
  unfold Level.trippedBy
  split
  · exact ⟨hv, hctr, hflag, hseq, hnow⟩
  · exact ⟨hv.modBy rfl, hctr, hflag, hseq, hnow⟩

/-- The same, once the channel keeps the tick of the flag. -/
theorem State.lvlFlag_kept {s : State} {c : Lvl} (bit cause : Nat) (why : BitVec 4) (at_ : Nat) (f : Level → Level) (hb : bit < 32)
    (hw : s.lvl[c].watched = true) :
    ∃ t, t = (s.lvlFlag c bit cause why at_).modLvl c f ∧ t.lvl[c] = f (s.lvl[c].trippedBy (s.lvlAct c) why) ∧ LvlBut c s t ∧
      t.counter (lvlA c 0x1C) = min (s.counter (lvlA c 0x1C) + 1) top32 ∧ (t.flag (lvlA c 0x18)).getLsbD bit = true ∧
      t.flt.seq = s.flt.seq + 1 ∧ t.clk.now = max s.clk.now at_ :=
  have ⟨hv, hctr, hflag, hseq, hnow⟩ := State.lvlFlag_raised bit cause why at_ hb hw
  ⟨_, rfl, (hv.mod f).self, (hv.mod f).but, hctr, hflag, hseq, hnow⟩

theorem lvlCompliance_raised {s : State} {c : Lvl} {x : LoadAsk} (hu : s.undef = false) (hw : s.lvl[c].watched = true)
    (ho : x.mv < (s.lvlWindow c).1 ∨ (s.lvlWindow c).2 < x.mv) (hr : mayRaise s.lvl[c].compAt x.tick = true) :
    Gives (.lvlComplianceFlag c x) s (fun t =>
      t = (s.lvlFlag c 2 5 2 x.tick).modLvl c (fun l => { l with compAt := some x.tick }) ∧
      Within [.clk, .flg, .ctr, .lvl, .brg, .msix, .flt] s t) :=
  gives_framed hu (fun _ h => execLvlComplianceFlag_within c x s h) rfl
    (if_neg (by rw [hw, hr]; simp only [Bool.not_true, Bool.false_eq_true, false_or, or_false]; omega)) fun hf => ⟨rfl, hf⟩

theorem lvlOpenLoop_raised {s : State} {c : Lvl} {x : FlagTick} (hu : s.undef = false) (hw : s.lvl[c].watched = true)
    (hc : x.compliance = false) (hn : s.lvl[c].compAt ≠ some x.tick) (hr : mayRaise s.lvl[c].openAt x.tick = true) :
    Gives (.lvlOpenLoopFlag c x) s (fun t =>
      t = (s.lvlFlag c 3 6 3 x.tick).modLvl c (fun l => { l with openAt := some x.tick }) ∧
      Within [.clk, .flg, .ctr, .lvl, .brg, .msix, .flt] s t) :=
  gives_framed hu (fun _ h => execLvlOpenLoopFlag_within c x s h) rfl
    (if_neg (by rw [hw, hr, hc]; simpa using hn)) fun hf => ⟨rfl, hf⟩

/-! ### The end of a span change, and conversions (R272, R277, R278) -/

theorem lvlSpanEnd_changed {s : State} {c : Lvl} (hu : s.undef = false) (hs : s.lvl[c].state = .spanChange) :
    Gives (.lvlSpanChangeEnd c) s (fun t =>
      t.lvl[c] = { s.lvl[c] with state := .connected, driven := false, settling := false } ∧ LvlBut c s t ∧
      t.mon = (if s.mon.chan.any (fun k => decide (k.val = c.val)) then { s.mon with disturbed := true } else s.mon) ∧
      t.flag (lvlA c 0x18) = s.flag (lvlA c 0x18) ||| bit32 1 ||| (if s.lvl[c].settling then bit32 0 else 0) ∧
      t.clk.now = max s.clk.now s.lvl[c].due ∧ Within [.clk, .flg, .lvl, .mon, .msix] s t) := by
  refine gives_framed hu (fun _ h => execLvlSpanChangeEnd_within c s h) rfl (if_pos hs) fun hw => ?_
  obtain ⟨m, hm⟩ : ∃ m, m = (s.upto s.lvl[c].due).modLvl c (fun l => { l with state := .connected, driven := false, settling := false }) := ⟨_, rfl⟩
  have hv : LvlIs c { s.lvl[c] with state := .connected, driven := false, settling := false } s m :=
    hm ▸ ((LvlIs.refl c s).same (u := s.upto s.lvl[c].due) rfl).modBy rfl
  have hk : Within [.clk, .lvl] s m := hm ▸ (State.upto_within s _).seq (State.modLvl_within _ c _)
  have hd : (((m.setBit (lvlA c 0x18) 1).setBitIf s.lvl[c].settling (lvlA c 0x18) 0).monDisturb c) = m.lvlDone c 1 0 s.lvl[c].settling := rfl
  rw [← hm, hd] at hw ⊢
  have hv' := hv.same (State.lvlDone_within m c 1 0 s.lvl[c].settling).lvlEq
  refine ⟨hv'.self, hv'.but, ?_, ?_, ?_, hw⟩
  · rw [State.lvlDone_mon, hk.monEq]
  · rw [State.lvlDone_flag, hk.flagEq]
  · rw [(State.lvlDone_within m c 1 0 _).clkEq, hm]
    rfl

theorem lvlSpanEnd_aside {s : State} {c : Lvl} (hu : s.undef = false) (hc : s.lvl[c].changing = true)
    (hs : s.lvl[c].state = .opened ∨ s.lvl[c].state = .tripped) :
    Gives (.lvlSpanChangeEnd c) s (fun t =>
      t.lvl[c] = { s.lvl[c] with changing := false } ∧ LvlBut c s t ∧ t.flag (lvlA c 0x18) = s.flag (lvlA c 0x18) ||| bit32 1 ∧
      Within [.clk, .flg, .lvl, .msix] s t) := by
  have hn : ¬ s.lvl[c].state = .spanChange := by rintro h; rw [h] at hs; simp at hs
  refine gives_branch hu rfl ((if_neg hn).trans (if_pos ⟨hc, hs⟩)) ?_
  have hv : LvlIs c { s.lvl[c] with changing := false } s
      (((s.upto s.lvl[c].due).modLvl c (fun l => { l with changing := false })).setBit (lvlA c 0x18) 1) :=
    LvlIs.same (t := (s.upto s.lvl[c].due).modLvl c (fun l => { l with changing := false }))
      (((LvlIs.refl c s).same (u := s.upto s.lvl[c].due) rfl).modBy rfl) (State.setBit_within _ _ 1).lvlEq
  refine ⟨hv.self, hv.but, ?_, Within.seq (l := [.clk, .flg, .lvl, .msix])
    ((State.upto_within s _).seq (l := [.clk, .lvl]) (State.modLvl_within _ c _)) (State.setBit_within _ _ 1)⟩
  rw [State.flag_setBit_self _ 1 (lvlA_not_pend c 0x18), (State.modLvl_within _ c _).flagEq, (State.upto_within s _).flagEq]

/-- The result of a conversion that ends. -/
def State.converted (s : State) (k : Fin 8) (m : MonMeasure) : MonResult :=
  { valid := true, disturbed := s.mon.disturbed, seq := s.mon.results[k].seq + 1,
    result := s.lvl[(Fin.ofNat 48 k.val : Lvl)].measured m }

/-- A result is stored. -/
def State.setResult (s : State) (k : Fin 8) (r : MonResult) : State := { s with mon := { s.mon with results := s.mon.results.set k r } }

theorem monConversion_next {s : State} {k : Fin 8} {m : MonMeasure} (hu : s.undef = false) (hk : s.mon.chan = some k) :
    exec (.monConversion m) s = .next (((s.upto s.mon.due).setResult k (s.converted k m)).monNext (some k)) := by
  show execMonConversion m s = _
  rw [execMonConversion, guarded_next hu]
  dsimp only
  rw [hk]
  rfl

/-- Settles O43: a span that differs is taken and the code follows or leaves, a flag of a watched channel counts, is reported and trips, and
a conversion ends with the quantity of its channel. -/
theorem levelSpansAndFlags : Obligations.LevelSpansAndFlags := by
  unfold Obligations.LevelSpansAndFlags
  intro s c hu l sp evt disturbs keep code switched
  refine ⟨fun h => gives_branch hu rfl (if_pos h) rfl, fun hd hr hs => ?_, fun hs => lvlSpanEnd_changed hu hs,
    fun hc hs => lvlSpanEnd_aside hu hc hs, fun at_ => ?_, fun k m hk => ?_⟩
  · obtain ⟨t, hx, hv, hw, hf⟩ := lvlSpan_taken hu (show ¬ (s.lvlSpanCfg c = s.lvl[c].span.toNat ∨ 7 ≤ s.lvlSpanCfg c ∨
      s.lvl[c].state = .spanChange) from not_or.mpr ⟨hd, not_or.mpr ⟨Nat.not_le.mpr hr, hs⟩⟩)
    refine ⟨t, hx, fun ho => hv.self.trans (if_pos ho), fun ho => hv.self.trans ((if_neg ?_).trans ?_), hv.but, ?_, ?_, fun hb hk => ?_,
      fun hk hc => ?_, (State.spanSwitched_flags s c).trans (hw.flagsBut _), hf⟩
    · rintro (h | h) <;> rcases ho with ho | ho <;> exact absurd (h.symm.trans ho) (by decide)
    · unfold Level.spanned
      congr 1
      simp only [Bool.not_eq_true']
      rfl
    · exact hw.monEq.trans (State.spanSwitched_mon s c)
    · exact hw.freeNEq.trans (State.spanSwitched_freeN s c)
    · rw [hw.flagEq]; exact State.spanSwitched_left hb hk
    · rw [hw.flagEq]; exact State.spanSwitched_clamped hk hc
  · intro trip flagged watched win
    constructor
    · intro mv raised
      refine ⟨fun ⟨⟨hon, hcur⟩, hout, hmay⟩ => ?_, fun h => ?_⟩
      · have hw : s.lvl[c].watched = true := Bool.and_eq_true_iff.mpr ⟨hon, hcur⟩
        obtain ⟨t, hx, ht, hf⟩ := lvlCompliance_raised (x := ⟨at_, mv⟩) hu hw hout hmay
        obtain ⟨u, hu', hv, hb, hctr, hflag, hseq, hnow⟩ := State.lvlFlag_kept 2 5 2 at_ (fun l => { l with compAt := some at_ }) (by decide) hw
        obtain rfl := ht.trans hu'.symm
        exact ⟨t, hx, hv, hb, hctr, hflag, hseq, hnow, hf⟩
      · refine gives_branch hu rfl (if_pos ?_) rfl
        by_contra hn
        rw [not_or, not_or, Bool.not_eq_true', Bool.not_eq_false, Bool.not_eq_true', Bool.not_eq_false, not_and_or, not_le, not_le] at hn
        obtain ⟨hw, hout, hmay⟩ := hn
        exact h ⟨Bool.and_eq_true_iff.mp hw, hout, hmay⟩
    · intro with_ raised
      refine ⟨fun ⟨⟨hon, hcur⟩, hwith, hne, hmay⟩ => ?_, fun h => ?_⟩
      · have hw : s.lvl[c].watched = true := Bool.and_eq_true_iff.mpr ⟨hon, hcur⟩
        obtain ⟨t, hx, ht, hf⟩ := lvlOpenLoop_raised (x := ⟨at_, with_⟩) hu hw hwith hne hmay
        obtain ⟨u, hu', hv, hb, hctr, hflag, hseq, hnow⟩ := State.lvlFlag_kept 3 6 3 at_ (fun l => { l with openAt := some at_ }) (by decide) hw
        obtain rfl := ht.trans hu'.symm
        exact ⟨t, hx, hv, hb, hctr, hflag, hseq, hnow, hf⟩
      · refine gives_branch hu rfl (if_pos ?_) rfl
        by_contra hn
        rw [not_or, not_or, not_or, Bool.not_eq_true', Bool.not_eq_false, Bool.not_eq_true', Bool.not_eq_false, Bool.not_eq_true] at hn
        obtain ⟨hw, hwith, hne, hmay⟩ := hn
        exact h ⟨Bool.and_eq_true_iff.mp hw, hwith, hne, hmay⟩
  · have hx := monConversion_next (m := m) hu hk
    refine ⟨_, hx, ?_, fun j hj => ?_, rfl, rfl, rfl, rfl, execMonConversion_within m s hx⟩
    · exact Vector.getElem_set_self _
    · exact Vector.getElem_set_ne k.isLt j.isLt (fun e => hj (Fin.ext e.symm))

end Sys2Proof.Machine
end

