-- ==== Sys2Proof/Proofs/Lanes.lean ====
section
/-! PROOF. W lanes: the governor's admissions, probes, span changes and calibration (R203 to R211). -/
namespace Sys2Proof.Machine

theorem wlA_not_pend (w : Lane) (off : Nat) : wlA w off ∉ pendWords := by
  simp only [pendWords, List.mem_cons, List.not_mem_nil, or_false, not_or]
  unfold wlA hostA
  omega

/-! ### One lane at a time -/

/-- Lane w holds v after a command, and every other lane what it held. -/
structure WlIs (w : Lane) (v : WLane) (s t : State) : Prop where
  self : t.wl[w] = v
  but : WlBut w s t

theorem WlIs.refl (w : Lane) (s : State) : WlIs w s.wl[w] s s := ⟨rfl, fun _ _ => rfl⟩

theorem WlIs.mod {w : Lane} {v : WLane} {s t : State} (h : WlIs w v s t) (f : WLane → WLane) : WlIs w (f v) s (t.modWl w f) :=
  ⟨by rw [State.modWl_self, h.self], fun d hd => (State.modWl_other t w f hd).trans (h.but d hd)⟩

theorem WlIs.modBy {w : Lane} {v x : WLane} {s t : State} {f : WLane → WLane} (h : WlIs w v s t) (e : f v = x) : WlIs w x s (t.modWl w f) :=
  e ▸ h.mod f

theorem WlIs.same {w : Lane} {v : WLane} {s t u : State} (h : WlIs w v s t) (e : u.wl = t.wl) : WlIs w v s u :=
  ⟨by rw [e]; exact h.self, fun d hd => by rw [e]; exact h.but d hd⟩

theorem WlIs.of_eq {w : Lane} {s t : State} (e : t.wl = s.wl) : WlIs w s.wl[w] s t := (WlIs.refl w s).same e

theorem WlIs.trans {w : Lane} {v x : WLane} {s t u : State} (h : WlIs w v s t) (k : WlIs w x t u) : WlIs w x s u :=
  ⟨k.self, fun d hd => (k.but d hd).trans (h.but d hd)⟩

theorem WlIs.eq {w : Lane} {v x : WLane} {s t : State} (h : WlIs w v s t) (e : v = x) : WlIs w x s t := e ▸ h

/-- What the operations of lane w may change outside the lane itself: its event word, its WLN_CFG and the CMD words of its commands. -/
structure LaneWords (w : Lane) (s t : State) : Prop where
  flags : FlagsBut [wlA w 0x11C] s t
  words : WordsBut [wlA w 0x100] s t
  cmds : CmdsBut [armA w, wlA w 0x20] s t

theorem LaneWords.refl (w : Lane) (s : State) : LaneWords w s s := ⟨FlagsBut.refl _ s, WordsBut.refl _ s, CmdsBut.refl _ s⟩

theorem LaneWords.trans {w : Lane} {s t u : State} (h : LaneWords w s t) (k : LaneWords w t u) : LaneWords w s u :=
  ⟨h.flags.trans k.flags, h.words.trans k.words, h.cmds.trans k.cmds⟩

/-- An operation that touches no word. -/
theorem LaneWords.of_within {w : Lane} {l : List Field} {s t : State} (h : Within l s t) (hf : Field.flg ∉ l := by decide)
    (hc : Field.cfg ∉ l := by decide) (he : Field.eff ∉ l := by decide) (hd : Field.cmd ∉ l := by decide)
    (hm : Field.more ∉ l := by decide) : LaneWords w s t :=
  ⟨h.flagsBut _ hf, WordsBut.of_eq (h.cfgEq hc) (h.effEq he), h.cmdsBut _ hd hm⟩

theorem LaneWords.mod (w : Lane) (s : State) (f : WLane → WLane) : LaneWords w s (s.modWl w f) := LaneWords.of_within (State.modWl_within s w f)

theorem LaneWords.setBit (w : Lane) (s : State) (i : Nat) : LaneWords w s (s.setBit (wlA w 0x11C) i) :=
  ⟨(FlagsBut.refl _ s).setBit i (List.mem_singleton_self _),
    WordsBut.of_eq (State.setBit_within s _ i).cfgEq (State.setBit_within s _ i).effEq, (State.setBit_within s _ i).cmdsBut _⟩

theorem LaneWords.setBitIf (w : Lane) (s : State) (b : Bool) (i : Nat) : LaneWords w s (s.setBitIf b (wlA w 0x11C) i) := by
  unfold State.setBitIf
  split
  · exact LaneWords.setBit w s i
  · exact LaneWords.refl w s

theorem LaneWords.applyDue (w : Lane) (s : State) (m : Word) : LaneWords w s (s.applyDue (wlA w 0x100) m) :=
  ⟨fun _ _ _ => rfl, (WordsBut.refl _ s).applyDue m (List.mem_singleton_self _), fun _ _ => ⟨rfl, rfl⟩⟩

theorem LaneWords.cmdTake (w : Lane) (s : State) (m : Word) : LaneWords w s (s.cmdTake (armA w) m) :=
  ⟨fun _ _ _ => rfl, WordsBut.of_eq rfl rfl, (CmdsBut.refl _ s).cmdTake m (List.mem_cons_self ..)⟩

theorem LaneWords.cmdDrop (w : Lane) (s : State) (m : Word) : LaneWords w s (s.cmdDrop (wlA w 0x20) m) := by
  obtain ⟨-, -, h⟩ := State.cmdDrop_drops s (wlA w 0x20) m
  exact ⟨fun _ _ _ => rfl, WordsBut.of_eq rfl rfl, fun a ha => h a fun hm => ha (List.mem_cons_of_mem _ hm)⟩

/-! ### FS and SPAN (R198, R206) -/

/-- What a lane holds that takes FS and SPAN from a word. -/
def WLane.spanned (l : WLane) (c : Word) : WLane := { l with fs := BitVec.ofNat 9 (fld c 24 16), unipolar := c.getLsbD 8 }

/-- What a lane holds after FS and SPAN are taken. -/
theorem State.takeSpan_wl (s : State) (w : Lane) : WlIs w (s.wl[w].spanned (s.settledW (wlA w 0x100))) s (s.takeSpan w) := by
  unfold State.takeSpan
  refine WlIs.modBy (v := s.wl[w]) (WlIs.of_eq ?_) rfl
  rw [(State.setBitIf_within _ _ _ _).wlEq, (State.setBitIf_within _ _ _ _).wlEq]
  rfl

theorem State.takeSpan_words (s : State) (w : Lane) : LaneWords w s (s.takeSpan w) :=
  (((LaneWords.applyDue w s (fmask 24 16 ||| bit32 8)).trans (LaneWords.setBitIf w _ _ 7)).trans (LaneWords.setBitIf w _ _ 8)).trans
    (LaneWords.mod w _ fun l => l.spanned (s.settledW (wlA w 0x100)))

/-- FS outside its range sets FS_CLIPPED. -/
theorem State.takeSpan_clips {s : State} {w : Lane} (h : fld (s.settledW (wlA w 0x100)) 24 16 ≠ fsActs (fld (s.settledW (wlA w 0x100)) 24 16)) :
    ((s.takeSpan w).flag (wlA w 0x11C)).getLsbD 7 = true := by
  unfold State.takeSpan
  rw [(State.modWl_within _ w _).flagEq]
  exact State.flagBit_setBitIf_mono _ _ (wlA_not_pend w _)
    (State.flagBit_setBitIf _ (decide_eq_true h) (wlA_not_pend w _) (bit32_self (by decide)))

theorem State.takeSpan_effW (s : State) (w : Lane) : (s.takeSpan w).effW (wlA w 0x100) =
    merge (s.effW (wlA w 0x100)) (s.settledW (wlA w 0x100)) (fmask 24 16 ||| bit32 8) := by
  unfold State.takeSpan
  rw [State.effW_congr (State.modWl_within _ w _).effEq, State.effW_congr (State.setBitIf_within _ _ _ _).effEq,
    State.effW_congr (State.setBitIf_within _ _ _ _).effEq]
  exact s.effW_applyDue_self _ _

/-! ### OFF, and the ends of commands (R179, R201 to R203) -/

/-- What a lane holds that enters OFF. -/
def WLane.off (l : WLane) : WLane :=
  { l with state := .off, nco := {}, load := .none, disarmHeld := false, reconnect := false, glideEnd := none, snapFreq := 0, snapP := 0 }

theorem State.laneOff_wl (s : State) (w : Lane) : WlIs w s.wl[w].off s (s.laneOff w) := (WlIs.refl w s).modBy rfl |>.same rfl

theorem State.laneOff_words (s : State) (w : Lane) : LaneWords w s (s.laneOff w) := (LaneWords.mod w s _).trans (LaneWords.cmdDrop w _ 1)

theorem State.laneCmdEnd_words (s : State) (w : Lane) (m : Word) : LaneWords w s (s.laneCmdEnd w m) := LaneWords.cmdTake w s _

/-! ### The NCO at an admission (R179, R190, R195) -/

/-- A lane but for its band and its snapshots. -/
def WLane.bare (l : WLane) : WLane :=
  { l with tracking := false, heldN := none, centre := 0, path := { l.path with coefFrom := 0 }
           snapAt := none, snapFreq := 0, snapP := 0, snapCentre := 0, snapHeld := false, snapGliding := false }

/-- A band that follows a frequency without a glide changes the band alone. -/
theorem State.bandAt_bare {s : State} {w : Lane} (m : Nat) (f : BitVec 48) (hg : s.wl[w].glideEnd = none) :
    (s.bandAt w m f false).wl[w].bare = s.wl[w].bare ∧ WlBut w s (s.bandAt w m f false) := by
  have htrack : ∀ b, ((if b = s.wl[w].tracking then s else s.modWl w (fun l => { l with tracking := b, heldN := none })).wl[w].bare = s.wl[w].bare ∧
      (if b = s.wl[w].tracking then s else s.modWl w (fun l => { l with tracking := b, heldN := none })).wl[w].glideEnd = none) ∧
      WlBut w s (if b = s.wl[w].tracking then s else s.modWl w (fun l => { l with tracking := b, heldN := none })) := by
    intro b
    split
    · exact ⟨⟨rfl, hg⟩, fun _ _ => rfl⟩
    · rw [State.modWl_self]
      exact ⟨⟨rfl, hg⟩, fun d hd => State.modWl_other s w _ hd⟩
  unfold State.bandAt
  dsimp only
  generalize hx : (if (s.qbWord w).getLsbD 26 = s.wl[w].tracking then s else _) = x
  obtain ⟨⟨hb, hgl⟩, hbut⟩ := hx ▸ htrack _
  generalize hy : x.setBitIf _ (wlA w 0x11C) 9 = y
  have hwl : ∀ d : Lane, y.wl[d] = x.wl[d] := fun d => by rw [← hy, (State.setBitIf_within x _ _ _).wlEq]
  split
  · exact ⟨(congrArg WLane.bare (hwl w)).trans hb, fun d hd => (hwl d).trans (hbut d hd)⟩
  · rw [State.modWl_self, hwl]
    refine ⟨Eq.trans ?_ hb, fun d hd => (State.modWl_other y w _ hd).trans ((hwl d).trans (hbut d hd))⟩
    unfold WLane.bare
    rw [← hgl]
    rfl

theorem State.snapAgain_bare (s : State) (w : Lane) (m : Nat) :
    (s.snapAgain w m).wl[w].bare = s.wl[w].bare ∧ WlBut w s (s.snapAgain w m) := by
  unfold State.snapAgain
  split
  · unfold State.snapTake
    rw [State.modWl_self]
    exact ⟨rfl, fun d hd => State.modWl_other s w _ hd⟩
  · exact ⟨rfl, fun _ _ => rfl⟩

theorem State.bandAt_words (s : State) (w : Lane) (m : Nat) (f : BitVec 48) (g : Bool) : LaneWords w s (s.bandAt w m f g) := by
  unfold State.bandAt
  dsimp only
  have htrack : ∀ b, LaneWords w s (if b = s.wl[w].tracking then s else s.modWl w (fun l => { l with tracking := b, heldN := none })) := by
    intro b
    split
    · exact LaneWords.refl w s
    · exact LaneWords.mod w s _
  generalize hx : (if (s.qbWord w).getLsbD 26 = s.wl[w].tracking then s else _) = x
  have hwx : LaneWords w s x := hx ▸ htrack _
  split
  · exact hwx.trans (LaneWords.setBitIf w x _ 9)
  · exact (hwx.trans (LaneWords.setBitIf w x _ 9)).trans (LaneWords.mod w _ _)

theorem State.bandAt_flag_mono {s : State} {w : Lane} {i : Nat} (m : Nat) (f : BitVec 48) (g : Bool)
    (h : (s.flag (wlA w 0x11C)).getLsbD i = true) : ((s.bandAt w m f g).flag (wlA w 0x11C)).getLsbD i = true := by
  unfold State.bandAt
  dsimp only
  have htrack : ∀ b, (if b = s.wl[w].tracking then s else s.modWl w (fun l => { l with tracking := b, heldN := none })).flg = s.flg := by
    intro b
    split <;> rfl
  generalize hx : (if (s.qbWord w).getLsbD 26 = s.wl[w].tracking then s else _) = x
  have hflg : x.flg = s.flg := hx ▸ htrack _
  generalize hy : x.setBitIf _ (wlA w 0x11C) 9 = y
  have hbit : (y.flag (wlA w 0x11C)).getLsbD i = true :=
    hy ▸ State.flagBit_setBitIf_mono x _ (wlA_not_pend w _) ((flag_of_flg_eq hflg _).symm ▸ h)
  split
  · exact hbit
  · exact hbit

/-- The NCO that an arm starts from its registers. -/
def State.armNco (s : State) (w : Lane) : Nco :=
  { running := true, phaseOfs := BitVec.ofNat 16 (s.effF (wlA w 0x20) 31 16), m := s.cycleFrom (s.clk.now * 1024), freqLoaded := true
    freq := BitVec.ofNat 48 ((s.effW (wlA w 0x10)).toNat + 2 ^ 32 * s.effF (wlA w 0x14) 15 0)
    chirp := BitVec.ofNat 48 ((s.effW (wlA w 0x18)).toNat + 2 ^ 32 * s.effF (wlA w 0x1C) 15 0)
    acc := BitVec.ofNat 48 ((s.effW (wlA w 0x10)).toNat + 2 ^ 32 * s.effF (wlA w 0x14) 15 0) *
      BitVec.ofNat 48 (s.cycleFrom (s.clk.now * 1024)) }

/-- What a lane holds whose generator starts with an NCO and a datapath. -/
def WLane.started (l : WLane) (x : Nco) (p : Datapath) : WLane :=
  { l with heldN := none, glideEnd := none, path := { p with next := some x.m, loop := 0 }, nco := x }

/-- What a started lane holds, whatever its band and its snapshots became. -/
structure Started (l : WLane) (x : Nco) (v : WLane) : Prop where
  state : v.state = l.state
  due : v.due = l.due
  reason : v.reason = l.reason
  fs : v.fs = l.fs
  span : v.unipolar = l.unipolar
  dem : v.dem = l.dem
  ofs : v.ofsUsed = l.ofsUsed
  gain : v.gainUsed = l.gainUsed
  demPtr : v.demPtr = l.demPtr
  nco : v.nco = x
  glide : v.glideEnd = none
  loop : v.path.loop = 0
  next : v.path.next = some x.m

theorem Started.of_bare {l v : WLane} {x : Nco} {p : Datapath} (h : v.bare = (l.started x p).bare) : Started l x v where
  state := (congrArg WLane.state h :)
  due := (congrArg WLane.due h :)
  reason := (congrArg WLane.reason h :)
  fs := (congrArg WLane.fs h :)
  span := (congrArg WLane.unipolar h :)
  dem := (congrArg WLane.dem h :)
  ofs := (congrArg WLane.ofsUsed h :)
  gain := (congrArg WLane.gainUsed h :)
  demPtr := (congrArg WLane.demPtr h :)
  nco := (congrArg WLane.nco h :)
  glide := (congrArg WLane.glideEnd h :)
  loop := (congrArg (fun l => l.path.loop) h :)
  next := (congrArg (fun l => l.path.next) h :)

theorem State.ncoArm_eq (s : State) (w : Lane) :
    s.ncoArm w = ((s.modWl w (fun l => l.started (s.armNco w) (Datapath.unseen w (s.clk.now * 1024)))).bandAt w
      (s.armNco w).m (s.armNco w).freq false).snapAgain w (s.armNco w).m := rfl

theorem State.ncoArm_wl (s : State) (w : Lane) :
    Started s.wl[w] (s.armNco w) (s.ncoArm w).wl[w] ∧ WlBut w s (s.ncoArm w) := by
  rw [State.ncoArm_eq]
  generalize hm : s.modWl w (fun l => l.started (s.armNco w) (Datapath.unseen w (s.clk.now * 1024))) = m
  have hv : WlIs w (s.wl[w].started (s.armNco w) (Datapath.unseen w (s.clk.now * 1024))) s m := hm ▸ (WlIs.refl w s).modBy rfl
  obtain ⟨hb, hbut⟩ := State.bandAt_bare (s := m) (w := w) (s.armNco w).m (s.armNco w).freq (by rw [hv.self]; rfl)
  obtain ⟨hs, hsbut⟩ := State.snapAgain_bare (m.bandAt w (s.armNco w).m (s.armNco w).freq false) w (s.armNco w).m
  exact ⟨Started.of_bare (hs.trans (hb.trans (congrArg WLane.bare hv.self))), fun d hd => (hsbut d hd).trans ((hbut d hd).trans (hv.but d hd))⟩

theorem State.ncoArm_words (s : State) (w : Lane) : LaneWords w s (s.ncoArm w) := by
  rw [State.ncoArm_eq]
  exact ((LaneWords.mod w s _).trans (State.bandAt_words _ w _ _ false)).trans (LaneWords.of_within (State.snapAgain_within _ w _))

theorem State.ncoArm_flag_mono {s : State} {w : Lane} {i : Nat} (h : (s.flag (wlA w 0x11C)).getLsbD i = true) :
    ((s.ncoArm w).flag (wlA w 0x11C)).getLsbD i = true := by
  rw [State.ncoArm_eq, (State.snapAgain_within _ w _).flagEq]
  exact State.bandAt_flag_mono _ _ _ h

theorem State.armNco_freq (s : State) (w : Lane) :
    (s.armNco w).freq.toNat = (s.effW (wlA w 0x10)).toNat + 2 ^ 32 * s.effF (wlA w 0x14) 15 0 := by
  have h1 := (s.effW (wlA w 0x10)).isLt
  have h2 : s.effF (wlA w 0x14) 15 0 < 2 ^ 16 := fld_lt
  exact (BitVec.toNat_ofNat ..).trans (Nat.mod_eq_of_lt (by omega))

theorem State.armNco_chirp (s : State) (w : Lane) :
    (s.armNco w).chirp.toNat = (s.effW (wlA w 0x18)).toNat + 2 ^ 32 * s.effF (wlA w 0x1C) 15 0 := by
  have h1 := (s.effW (wlA w 0x18)).isLt
  have h2 : s.effF (wlA w 0x1C) 15 0 < 2 ^ 16 := fld_lt
  exact (BitVec.toNat_ofNat ..).trans (Nat.mod_eq_of_lt (by omega))

theorem State.armNco_acc (s : State) (w : Lane) : (s.armNco w).acc = (s.armNco w).freq * BitVec.ofNat 48 (s.armNco w).m := rfl

theorem State.armNco_phaseOfs (s : State) (w : Lane) : (s.armNco w).phaseOfs.toNat = s.effF (wlA w 0x20) 31 16 :=
  (BitVec.toNat_ofNat ..).trans (Nat.mod_eq_of_lt fld_lt)

/-- The registers that an arm starts the NCO from are those in force, whatever WLN_CFG takes. -/
theorem State.armNco_congr {s t : State} {w : Lane} (h : WordsBut [wlA w 0x100] s t) :
    t.effW (wlA w 0x10) = s.effW (wlA w 0x10) ∧ t.effW (wlA w 0x14) = s.effW (wlA w 0x14) ∧ t.effW (wlA w 0x18) = s.effW (wlA w 0x18) ∧
      t.effW (wlA w 0x1C) = s.effW (wlA w 0x1C) ∧ t.effW (wlA w 0x20) = s.effW (wlA w 0x20) := by
  have hne : ∀ off, off < 0x100 → wlA w off ∉ [wlA w 0x100] := fun off ho hm => by
    have := List.mem_singleton.mp hm
    unfold wlA at this
    omega
  exact ⟨(h _ (hne _ (by decide))).2, (h _ (hne _ (by decide))).2, (h _ (hne _ (by decide))).2, (h _ (hne _ (by decide))).2,
    (h _ (hne _ (by decide))).2⟩

/-! ### The governor (R203, R215) -/

/-- The first tick at which the spacing admits a request. -/
def State.admitTick (s : State) (q : GovReq) : Nat := max q.takenAt (match s.gov.lastAdmit with | some a => a + s.govSpacing | none => 0)

/-- The head of the queue leaves it at a tick. -/
def State.admitting (s : State) (rest : List GovReq) (k : Nat) : State :=
  { s.upto k with gov := { queue := rest, lastAdmit := some (s.upto k).clk.now } }

theorem State.admitting_within (s : State) (rest : List GovReq) (k : Nat) : Within [.clk, .gov] s (s.admitting rest k) :=
  (State.upto_within s k).seq (Within.set_gov (s.upto k) _)

theorem State.admitting_clk (s : State) (rest : List GovReq) (k : Nat) : (s.admitting rest k).clk.now = max s.clk.now k := rfl

theorem State.admitting_settledW (s : State) (rest : List GovReq) (k a : Nat) :
    (s.admitting rest k).settledW a = (s.upto (max s.clk.now k)).settledW a := by
  have hat : max s.clk.now k = max s.clk.now (max s.clk.now k) := by omega
  exact State.settledW_congr (s := s.upto (max s.clk.now k)) (t := s.admitting rest k) rfl rfl hat a

/-- What a lane holds in ARMING from a tick on, with the element matching of a word. -/
def WLane.arming (l : WLane) (now : Nat) (dem : Nat) : WLane :=
  { l with state := .arming, due := now + 12800, reason := 0, dem := BitVec.ofNat 2 dem, ofsUsed := l.calOfs, gainUsed := l.calGain }

/-- What a lane holds that measures from a tick on. -/
def WLane.calibrating (l : WLane) (now : Nat) : WLane :=
  { l with state := .cal, due := now + 3200000, calAt := some (l.fs, l.unipolar) }

/-- The state in which the generator of an admitted arm starts. -/
def State.armAdmitted (s : State) (w : Lane) : State :=
  let t := (s.takeSpan w).applyDue (wlA w 0x100) 3
  t.modWl w (fun l => l.arming s.clk.now (t.effF (wlA w 0x100) 1 0))

section
variable {s : State} {q : GovReq} {rest : List GovReq} (hu : s.undef = false) (hp : s.prepared 10 = false) (hq : s.gov.queue = q :: rest)
include hu hp hq

theorem govAdmit_arm (hk : q.kind = .arm) :
    exec .govAdmit s = .next (((s.admitting rest (s.admitTick q)).armAdmitted q.lane).ncoArm q.lane) := by
  show execGovAdmit s = _
  rw [execGovAdmit, guarded_next hu, hp, if_neg (by decide), hq]
  dsimp only
  rw [hk]
  rfl

theorem govAdmit_cal (hk : q.kind = .cal) :
    exec .govAdmit s = .next (((s.admitting rest (s.admitTick q)).takeSpan q.lane).modWl q.lane (fun l =>
      l.calibrating (s.admitting rest (s.admitTick q)).clk.now)) := by
  show execGovAdmit s = _
  rw [execGovAdmit, guarded_next hu, hp, if_neg (by decide), hq]
  dsimp only
  rw [hk]
  rfl

theorem govAdmit_disarm (hk : q.kind = .disarm) :
    exec .govAdmit s = .next (((s.admitting rest (s.admitTick q)).laneOff q.lane).laneCmdEnd q.lane 6) := by
  show execGovAdmit s = _
  rw [execGovAdmit, guarded_next hu, hp, if_neg (by decide), hq]
  dsimp only
  rw [hk]
  rfl
end

/-- What every admission does: the head leaves the queue at its tick. -/
structure Admits (s : State) (rest : List GovReq) (at_ : Nat) (w : Lane) (t : State) : Prop where
  gov : t.gov = { queue := rest, lastAdmit := some at_ }
  now : t.clk.now = at_
  words : LaneWords w s t

theorem Admits.of {s u t : State} {rest : List GovReq} {k : Nat} {w : Lane} (hu : u = s.admitting rest k) {l : List Field} (h : Within l u t)
    (hw : LaneWords w u t) (hg : Field.gov ∉ l := by decide) (hc : Field.clk ∉ l := by decide) : Admits s rest (max s.clk.now k) w t := by
  subst hu
  exact ⟨h.govEq hg, by rw [h.clkEq hc]; rfl, (LaneWords.of_within (State.admitting_within s rest k)).trans hw⟩

/-- The element matching's selection is the one last written before the tick. -/
theorem State.armAdmitted_dem (s : State) (w : Lane) :
    ((s.takeSpan w).applyDue (wlA w 0x100) 3).effF (wlA w 0x100) 1 0 = fld (merge (s.effW (wlA w 0x100)) (s.settledW (wlA w 0x100)) 3) 1 0 := by
  have hset : (s.takeSpan w).settledW (wlA w 0x100) = s.settledW (wlA w 0x100) :=
    have h := State.takeSpan_within s w
    State.settledW_congr h.cfgEq h.wasEq (by rw [h.clkEq]) _
  unfold State.effF
  rw [State.effW_applyDue_self, hset, State.takeSpan_effW]
  refine fld_congr (fun i h1 h2 => ?_) (by decide)
  have hi : i = 0 ∨ i = 1 := by omega
  simp only [getLsbD_merge]
  rcases hi with rfl | rfl <;> rfl

/-- What an admitted arm leaves of the lane before its generator starts. -/
theorem State.armAdmitted_wl (s : State) (w : Lane) :
    WlIs w ((s.wl[w].spanned (s.settledW (wlA w 0x100))).arming s.clk.now
      (fld (merge (s.effW (wlA w 0x100)) (s.settledW (wlA w 0x100)) 3) 1 0)) s (s.armAdmitted w) := by
  unfold State.armAdmitted
  dsimp only
  rw [State.armAdmitted_dem]
  exact ((s.takeSpan_wl w).same (u := (s.takeSpan w).applyDue (wlA w 0x100) 3) rfl).modBy rfl

theorem State.armAdmitted_within (s : State) (w : Lane) : Within [.eff, .flg, .wl, .msix] s (s.armAdmitted w) :=
  ((State.takeSpan_within s w).seq (l := [.eff, .flg, .wl, .msix]) (State.applyDue_within _ _ _)).seq (State.modWl_within _ w _)

theorem State.armAdmitted_words (s : State) (w : Lane) : LaneWords w s (s.armAdmitted w) := by
  unfold State.armAdmitted
  exact ((s.takeSpan_words w).trans (LaneWords.applyDue w _ 3)).trans (LaneWords.mod w _ _)

theorem State.armAdmitted_clips {s : State} {w : Lane}
    (h : fld (s.settledW (wlA w 0x100)) 24 16 ≠ fsActs (fld (s.settledW (wlA w 0x100)) 24 16)) :
    ((s.armAdmitted w).flag (wlA w 0x11C)).getLsbD 7 = true := by
  unfold State.armAdmitted
  dsimp only
  rw [(State.modWl_within _ w _).flagEq, (State.applyDue_within _ _ _).flagEq]
  exact State.takeSpan_clips h

/-- What an admission leaves, in the words of the statement. -/
structure Admitted (s : State) (rest : List GovReq) (at_ : Nat) (w : Lane) (v : WLane) (t : State) : Prop extends Admits s rest at_ w t where
  lane : t.wl[w] = v
  but : WlBut w s t

theorem admitted_cal {s u : State} {rest : List GovReq} {k : Nat} (w : Lane) (hu : u = s.admitting rest k) :
    Admitted s rest (max s.clk.now k) w ((s.wl[w].spanned ((s.upto (max s.clk.now k)).settledW (wlA w 0x100))).calibrating (max s.clk.now k))
      ((u.takeSpan w).modWl w (fun l => l.calibrating u.clk.now)) := by
  have hwl : u.wl = s.wl := by rw [hu]; rfl
  have hset : u.settledW (wlA w 0x100) = (s.upto (max s.clk.now k)).settledW (wlA w 0x100) := by rw [hu]; exact s.admitting_settledW rest k _
  have hnow : u.clk.now = max s.clk.now k := by rw [hu]; rfl
  have hv := (u.takeSpan_wl w).mod (fun l => l.calibrating u.clk.now)
  rw [hset, hwl] at hv
  exact ⟨Admits.of hu ((State.takeSpan_within u w).seq (l := [.eff, .flg, .wl, .msix]) (State.modWl_within _ w _))
    ((u.takeSpan_words w).trans (LaneWords.mod w _ _)), hv.self.trans (by rw [hnow]), fun d hd => (hv.but d hd).trans (by rw [hwl])⟩

theorem admitted_disarm {s u : State} {rest : List GovReq} {k : Nat} (w : Lane) (hu : u = s.admitting rest k) :
    Admitted s rest (max s.clk.now k) w s.wl[w].off ((u.laneOff w).laneCmdEnd w 6) := by
  have hwl : u.wl = s.wl := by rw [hu]; rfl
  have hv := (u.laneOff_wl w).same (State.laneCmdEnd_within _ w 6).wlEq
  rw [hwl] at hv
  exact ⟨Admits.of hu ((State.laneOff_within u w).seq (l := [.cmd, .more, .wl]) (State.laneCmdEnd_within _ w 6))
    ((u.laneOff_words w).trans (State.laneCmdEnd_words _ w 6)), hv.self, fun d hd => (hv.but d hd).trans (by rw [hwl])⟩

/-- The lane that an admitted arm starts. -/
theorem admitted_arm {s u : State} {rest : List GovReq} {k : Nat} (w : Lane) (hu : u = s.admitting rest k) :
    Admits s rest (max s.clk.now k) w ((u.armAdmitted w).ncoArm w) ∧ WlBut w s ((u.armAdmitted w).ncoArm w) ∧
      Started ((s.wl[w].spanned ((s.upto (max s.clk.now k)).settledW (wlA w 0x100))).arming (max s.clk.now k)
          (fld (merge (s.effW (wlA w 0x100)) ((s.upto (max s.clk.now k)).settledW (wlA w 0x100)) 3) 1 0))
        ((u.armAdmitted w).armNco w) ((u.armAdmitted w).ncoArm w).wl[w] := by
  have hwl : u.wl = s.wl := by rw [hu]; rfl
  have hset : u.settledW (wlA w 0x100) = (s.upto (max s.clk.now k)).settledW (wlA w 0x100) := by rw [hu]; exact s.admitting_settledW rest k _
  have hnow : u.clk.now = max s.clk.now k := by rw [hu]; rfl
  have heff : u.effW (wlA w 0x100) = s.effW (wlA w 0x100) := by rw [hu]; rfl
  have hv := u.armAdmitted_wl w
  obtain ⟨hs, hbut⟩ := (u.armAdmitted w).ncoArm_wl w
  rw [hset, hwl, hnow, heff] at hv
  rw [hv.self] at hs
  exact ⟨Admits.of hu ((State.armAdmitted_within u w).seq (l := [.eff, .flg, .wl, .msix]) (State.ncoArm_within _ w))
    ((u.armAdmitted_words w).trans (State.ncoArm_words _ w)), fun d hd => (hbut d hd).trans ((hv.but d hd).trans (by rw [hwl])), hs⟩

/-- The registers and the cycle that an admitted arm starts the NCO from. -/
theorem admitted_nco {s u : State} {rest : List GovReq} {k : Nat} (w : Lane) (hu : u = s.admitting rest k) :
    ((u.armAdmitted w).armNco w).m = (s.upto (max s.clk.now k)).cycleFrom (max s.clk.now k * 1024) ∧
      ((u.armAdmitted w).armNco w).freq.toNat = (s.effW (wlA w 0x10)).toNat + 2 ^ 32 * s.effF (wlA w 0x14) 15 0 ∧
      ((u.armAdmitted w).armNco w).chirp.toNat = (s.effW (wlA w 0x18)).toNat + 2 ^ 32 * s.effF (wlA w 0x1C) 15 0 ∧
      ((u.armAdmitted w).armNco w).phaseOfs.toNat = s.effF (wlA w 0x20) 31 16 := by
  have hw : WordsBut [wlA w 0x100] s (u.armAdmitted w) :=
    ((LaneWords.of_within (w := w) (hu ▸ State.admitting_within s rest k)).trans (u.armAdmitted_words w)).words
  obtain ⟨h10, h14, h18, h1c, h20⟩ := State.armNco_congr hw
  have hclk : (u.armAdmitted w).clk = (s.upto (max s.clk.now k)).clk := by
    rw [(State.armAdmitted_within u w).clkEq, hu, State.upto_max]
    rfl
  have hpart : (u.armAdmitted w).part = s.part := by rw [(State.armAdmitted_within u w).partEq, hu]; rfl
  refine ⟨?_, ?_, ?_, ?_⟩
  · have hnow : (s.upto (max s.clk.now k)).clk.now = max s.clk.now k := by
      show max s.clk.now (max s.clk.now k) = _
      omega
    unfold State.armNco State.cycleFrom State.modFu
    rw [hclk, hpart, hnow]
    rfl
  · rw [State.armNco_freq, h10, State.effF, h14]; rfl
  · rw [State.armNco_chirp, h18, State.effF, h1c]; rfl
  · rw [State.armNco_phaseOfs, State.effF, h20]; rfl

/-- Settles O36: each kind of request is admitted at its tick, and an arm starts the generator from its registers. -/
theorem governorAdmits : Obligations.GovernorAdmits := by
  unfold Obligations.GovernorAdmits
  intro s q rest hu hq w at_ c taken head
  have hhead : ∀ {t : State}, exec .govAdmit s = .next t → Admits s rest at_ w t → WlBut w s t → head t :=
    fun hx ha hb => ⟨ha.gov, ha.now, hb, ha.words.flags, ha.words.words, ha.words.cmds, execGovAdmit_within s hx⟩
  refine ⟨fun hp => gives_branch hu rfl (if_pos hp) rfl, fun hp => ⟨fun hk => ?_, fun hk => ?_, fun hk => ?_⟩⟩
  · have hx := govAdmit_arm hu hp hq hk
    obtain ⟨ha, hb, hs⟩ := admitted_arm w (u := s.admitting rest (s.admitTick q)) rfl
    obtain ⟨hm, hfreq, hchirp, hphase⟩ := admitted_nco w (u := s.admitting rest (s.admitTick q)) rfl
    have hclip : fld c 24 16 ≠ fsActs (fld c 24 16) →
        ((((s.admitting rest (s.admitTick q)).armAdmitted w).ncoArm w).flag (wlA w 0x11C)).getLsbD 7 = true := fun hc =>
      State.ncoArm_flag_mono (State.armAdmitted_clips (by rw [State.admitting_settledW]; exact hc))
    have hrun : (((s.admitting rest (s.admitTick q)).armAdmitted w).armNco w).running = true := rfl
    have hacc := State.armNco_acc ((s.admitting rest (s.admitTick q)).armAdmitted w) w
    generalize ((s.admitting rest (s.admitTick q)).armAdmitted w).armNco w = x at hs hm hfreq hchirp hphase hrun hacc
    refine ⟨_, hx, hhead hx ha hb, ⟨hs.fs, hs.span, hclip⟩, hs.state, hs.due, hs.reason, hs.ofs, ?_, hs.gain, ?_, hs.glide, hs.loop,
      ?_, hs.demPtr, ?_, ?_, ?_, ?_, ?_⟩
    · rw [hs.dem]
      exact (BitVec.toNat_ofNat ..).trans (Nat.mod_eq_of_lt fld_lt)
    all_goals rw [hs.nco]
    · exact hrun
    · exact hs.next
    · exact hm
    · exact hfreq
    · exact hchirp
    · exact hphase
    · exact hacc
  · have hx := govAdmit_cal hu hp hq hk
    have ha := admitted_cal w (u := s.admitting rest (s.admitTick q)) rfl
    refine ⟨_, hx, hhead hx ha.toAdmits ha.but, ⟨?_, ?_, fun hc => ?_⟩, ?_, ?_, ?_, ?_⟩
    · rw [ha.lane]; rfl
    · rw [ha.lane]; rfl
    · rw [(State.modWl_within _ w _).flagEq]
      exact State.takeSpan_clips (by rw [State.admitting_settledW]; exact hc)
    · rw [ha.lane]; rfl
    · rw [ha.lane]; rfl
    · rw [ha.lane]; rfl
    · rw [ha.lane]; rfl
  · have hx := govAdmit_disarm hu hp hq hk
    have ha := admitted_disarm w (u := s.admitting rest (s.admitTick q)) rfl
    exact ⟨_, hx, hhead hx ha.toAdmits ha.but, by rw [ha.lane]; rfl, by rw [ha.lane]; rfl, by rw [ha.lane]; rfl, by rw [ha.lane]; rfl⟩

end Sys2Proof.Machine
end

