-- ==== Sys2Proof/Proofs/LaneProbes.lean ====
section
/-! PROOF. Probes, span changes, calibration and protection of W lanes (R202 to R211). -/
namespace Sys2Proof.Machine

/-! ### Flags of a lane (R210) -/

/-- What a flag of a lane leaves: its bit, one count and one report. -/
structure LaneFlagged (w : Lane) (bit : Nat) (s t : State) : Prop where
  bit : (t.flag (wlA w 0x11C)).getLsbD bit = true
  seq : t.flt.seq = s.flt.seq + 1
  count : t.counter (wlA w 0x120) = min (s.counter (wlA w 0x120) + 1) top32

/-- The record of a flag of a lane. -/
def State.laneRec (s : State) (w : Lane) (cause act at_ : Nat) : FaultRec :=
  { cls := 8, cause := BitVec.ofNat 8 cause, cluster := s.laneOwner w, source := BitVec.ofNat 8 w.val
    aux := BitVec.ofNat 16 act, time := BitVec.ofNat 64 (s.tbAt at_) }

theorem State.laneFlag_flagged (s : State) (w : Lane) {bit : Nat} (cause act at_ : Nat) (hb : bit < 32) :
    LaneFlagged w bit s (s.laneFlag w bit cause act at_) := by
  obtain ⟨m, hm⟩ : ∃ m, m = (s.count (wlA w 0x120) 1).setBit (wlA w 0x11C) bit := ⟨_, rfl⟩
  have he : s.laneFlag w bit cause act at_ =
      (m.fire (180 + w) at_).report ((m.fire (180 + w) at_).laneRec w cause act at_) := by rw [hm]; rfl
  generalize (m.fire (180 + w) at_).laneRec w cause act at_ = r at he
  have hmw : Within [.ctr, .flg, .msix] s m := hm ▸ (State.count_within _ _ 1).seq (State.setBit_within _ _ bit)
  rw [he]
  refine ⟨?_, ?_, ?_⟩
  · rw [State.report_flags _ r _ (by simp only [List.mem_cons, List.not_mem_nil, or_false]; unfold wlA fltA; omega)
      (wlA_not_pend w 0x11C), State.fire_flag _ _ _ (by unfold wlA brgA; omega), hm]
    exact State.flagBit_setBit _ (wlA_not_pend w 0x11C) (bit32_self hb)
  · rw [State.report_seq, State.fire_flt, hmw.fltEq]
  · rw [State.report_counter _ r (by unfold wlA fltA; omega), (State.fire_within m _ _).counterEq, hm,
      (State.setBit_within _ _ bit).counterEq, counter_count_self _ _ _ (by decide)]

/-- A flag stays where nothing after it clears it, counts or reports. -/
theorem LaneFlagged.then {w : Lane} {bit : Nat} {s t u : State} (h : LaneFlagged w bit s t) {l : List Field} (hw : Within l t u)
    (hf : (t.flag (wlA w 0x11C)).getLsbD bit = true → (u.flag (wlA w 0x11C)).getLsbD bit = true)
    (hc : Field.ctr ∉ l := by decide) (hl : Field.flt ∉ l := by decide) : LaneFlagged w bit s u :=
  ⟨hf h.bit, (by rw [hw.fltEq hl, h.seq]), (hw.counterEq _ hc).trans h.count⟩

/-! ### The ends of a probe (R203, R207, R210) -/

/-- What a lane holds that connects: a reconnection takes FS and SPAN. -/
def WLane.joined (l : WLane) (c : Word) : WLane :=
  { l with state := .armed, reconnect := false, fs := if l.reconnect then BitVec.ofNat 9 (fld c 24 16) else l.fs
           unipolar := if l.reconnect then c.getLsbD 8 else l.unipolar }

/-- What the end of a probe leaves of the lane's words. -/
structure ProbeWords (w : Lane) (s t : State) : Prop where
  words : WordsBut [wlA w 0x100] s t
  takes : Takes (armA w) (1#32 &&& ~~~(s.cmdWord (armNewA w))) s t

/-- A lane takes FS and SPAN where it reconnects. -/
def State.reconnects (s : State) (w : Lane) : State := if s.wl[w].reconnect then s.takeSpan w else s

theorem State.reconnects_wl (s : State) (w : Lane) :
    WlIs w (if s.wl[w].reconnect then s.wl[w].spanned (s.settledW (wlA w 0x100)) else s.wl[w]) s (s.reconnects w) := by
  unfold State.reconnects
  split
  · exact s.takeSpan_wl w
  · exact WlIs.refl w s

theorem State.reconnects_within (s : State) (w : Lane) : Within [.eff, .flg, .wl, .msix] s (s.reconnects w) :=
  Within.ite (State.takeSpan_within s w) (Within.refl _ s)

theorem State.reconnects_words (s : State) (w : Lane) : LaneWords w s (s.reconnects w) := by
  unfold State.reconnects
  split
  · exact s.takeSpan_words w
  · exact LaneWords.refl w s

theorem State.reconnects_flag_mono {s : State} {w : Lane} {i : Nat} (h : (s.flag (wlA w 0x11C)).getLsbD i = true) :
    ((s.reconnects w).flag (wlA w 0x11C)).getLsbD i = true := by
  unfold State.reconnects State.takeSpan
  split
  · rw [(State.modWl_within _ w _).flagEq]
    exact State.flagBit_setBitIf_mono _ _ (wlA_not_pend w _) (State.flagBit_setBitIf_mono _ _ (wlA_not_pend w _) h)
  · exact h

theorem State.laneConnect_eq (s : State) (w : Lane) (bit : Nat) :
    s.laneConnect w bit = (((s.reconnects w).modWl w (fun l => { l with state := .armed, reconnect := false })).laneCmdEnd w 1).setBit
      (wlA w 0x11C) bit := rfl

theorem State.laneConnect_wl (s : State) (w : Lane) (bit : Nat) :
    WlIs w (s.wl[w].joined (s.settledW (wlA w 0x100))) s (s.laneConnect w bit) := by
  rw [State.laneConnect_eq]
  have h := (s.reconnects_wl w).mod (fun l => { l with state := .armed, reconnect := false })
  refine ((h.same (State.laneCmdEnd_within _ w 1).wlEq).same (State.setBit_within _ _ bit).wlEq).eq ?_
  unfold WLane.joined WLane.spanned
  cases s.wl[w].reconnect <;> rfl

theorem State.laneConnect_flag (s : State) (w : Lane) {bit : Nat} (hb : bit < 32) :
    ((s.laneConnect w bit).flag (wlA w 0x11C)).getLsbD bit = true := State.flagBit_setBit _ (wlA_not_pend w _) (bit32_self hb)

theorem State.laneConnect_flag_mono {s : State} {w : Lane} {i : Nat} (bit : Nat) (h : (s.flag (wlA w 0x11C)).getLsbD i = true) :
    ((s.laneConnect w bit).flag (wlA w 0x11C)).getLsbD i = true := by
  rw [State.laneConnect_eq, State.flag_setBit_self _ _ (wlA_not_pend w _), BitVec.getLsbD_or, (State.laneCmdEnd_within _ w 1).flagEq,
    (State.modWl_within _ w _).flagEq, State.reconnects_flag_mono h, Bool.true_or]

theorem State.laneConnect_words (s : State) (w : Lane) (bit : Nat) : LaneWords w s (s.laneConnect w bit) := by
  rw [State.laneConnect_eq]
  exact (((s.reconnects_words w).trans (LaneWords.mod w _ _)).trans (State.laneCmdEnd_words _ w 1)).trans (LaneWords.setBit w _ bit)

/-- The end of ARM takes its bit, unless it has been written anew. -/
theorem State.laneCmdEnd_takes {s t u : State} {w : Lane} {l m : List Field} (h : Within l s t) (k : Within m (t.laneCmdEnd w 1) u)
    (hc : Field.cmd ∉ l := by decide) (hm : Field.more ∉ l := by decide) (kc : Field.cmd ∉ m := by decide)
    (km : Field.more ∉ m := by decide) : Takes (armA w) (1#32 &&& ~~~(s.cmdWord (armNewA w))) s u := by
  have ht := t.cmdTake_takes (armA w) (1#32 &&& ~~~(t.cmdWord (armNewA w)))
  rw [h.cmdWordEq _ hc] at ht
  have hk : Within m (t.cmdTake (armA w) (1#32 &&& ~~~(s.cmdWord (armNewA w)))) u := by rw [← h.cmdWordEq _ hc]; exact k
  exact (ht.cmd_eq (hk.cmdEq kc) (hk.moreEq km)).from_eq (h.cmdEq hc) (h.moreEq hm)

theorem State.laneConnect_probe (s : State) (w : Lane) (bit : Nat) : ProbeWords w s (s.laneConnect w bit) :=
  ⟨(s.laneConnect_words w bit).words, State.laneCmdEnd_takes
    ((s.reconnects_within w).seq (l := [.eff, .flg, .wl, .msix]) (State.modWl_within _ w (fun l => { l with state := .armed, reconnect := false })))
    (State.setBit_within _ (wlA w 0x11C) bit)⟩

/-! ### Three ends of a probe -/

/-- A lane that trips at a probe. -/
def WLane.probeTripped (l : WLane) : WLane := { l with state := .tripped, reconnect := false, reason := 3 }

theorem State.probeEnd_good (s : State) (w : Lane) (bit : Nat) : s.probeEnd w false bit = s.laneConnect w bit := by
  unfold State.probeEnd
  exact if_neg (by simp)

theorem State.probeEnd_warned {s : State} {w : Lane} (bit : Nat) (h : s.olAct w = 1) :
    s.probeEnd w true bit = (s.laneFlag w 5 4 (s.olAct w) s.clk.now).laneConnect w bit := by
  unfold State.probeEnd
  exact if_neg (by simp [h])

theorem State.probeEnd_trips {s : State} {w : Lane} (bit : Nat) (h : s.olAct w ≠ 1) :
    s.probeEnd w true bit = ((s.laneFlag w 5 4 (s.olAct w) s.clk.now).modWl w WLane.probeTripped).laneCmdEnd w 1 := by
  unfold State.probeEnd
  exact if_pos ⟨rfl, h⟩

/-- The lane connects at the end of its probe. -/
structure ProbeJoins (w : Lane) (bit : Nat) (s t : State) : Prop where
  lane : WlIs w (s.wl[w].joined (s.settledW (wlA w 0x100))) s t
  event : (t.flag (wlA w 0x11C)).getLsbD bit = true
  probe : ProbeWords w s t

theorem State.probeEnd_joins (s : State) (w : Lane) {bit : Nat} (hb : bit < 32) :
    ProbeJoins w bit s (s.probeEnd w false bit) ∧ FlagsBut [wlA w 0x11C] s (s.probeEnd w false bit) := by
  rw [State.probeEnd_good]
  exact ⟨⟨s.laneConnect_wl w bit, s.laneConnect_flag w hb, s.laneConnect_probe w bit⟩, (s.laneConnect_words w bit).flags⟩

theorem ProbeWords.after {w : Lane} {l : List Field} {s t u : State} (h : Within l s t) (k : ProbeWords w t u)
    (he : Field.eff ∉ l := by decide) (hg : Field.cfg ∉ l := by decide) (hc : Field.cmd ∉ l := by decide)
    (hm : Field.more ∉ l := by decide) : ProbeWords w s u := by
  obtain ⟨hw, ht⟩ := k
  rw [h.cmdWordEq _ hc] at ht
  exact ⟨(WordsBut.of_eq (h.cfgEq hg) (h.effEq he)).trans hw, ht.from_eq (h.cmdEq hc) (h.moreEq hm)⟩

theorem State.probeEnd_warns {s : State} {w : Lane} {bit : Nat} (hb : bit < 32) (h : s.olAct w = 1) :
    ProbeJoins w bit s (s.probeEnd w true bit) ∧ LaneFlagged w 5 s (s.probeEnd w true bit) := by
  rw [State.probeEnd_warned bit h]
  have hw := State.laneFlag_within s w 5 4 (s.olAct w) s.clk.now
  have hf := s.laneFlag_flagged w 4 (s.olAct w) s.clk.now (bit := 5) (by decide)
  generalize s.laneFlag w 5 4 (s.olAct w) s.clk.now = m at hw hf
  have hv := (WlIs.of_eq (w := w) hw.wlEq).trans (m.laneConnect_wl w bit)
  rw [hw.wlEq, State.settledW_congr hw.cfgEq hw.wasEq (by rw [hw.clkEq])] at hv
  exact ⟨⟨hv, m.laneConnect_flag w hb, ProbeWords.after hw (m.laneConnect_probe w bit)⟩,
    hf.then (State.laneConnect_within m w bit) (State.laneConnect_flag_mono bit)⟩

theorem State.probeEnd_tripped {s : State} {w : Lane} (bit : Nat) (h : s.olAct w ≠ 1) :
    WlIs w s.wl[w].probeTripped s (s.probeEnd w true bit) ∧ ProbeWords w s (s.probeEnd w true bit) ∧ LaneFlagged w 5 s (s.probeEnd w true bit) ∧
      Within [.flg, .ctr, .cmd, .more, .wl, .brg, .msix, .flt] s (s.probeEnd w true bit) := by
  rw [State.probeEnd_trips bit h]
  have hw := State.laneFlag_within s w 5 4 (s.olAct w) s.clk.now
  have hf := s.laneFlag_flagged w 4 (s.olAct w) s.clk.now (bit := 5) (by decide)
  generalize s.laneFlag w 5 4 (s.olAct w) s.clk.now = m at hw hf
  have hm := State.modWl_within m w WLane.probeTripped
  have he := State.laneCmdEnd_within (m.modWl w WLane.probeTripped) w 1
  have hv := (WlIs.of_eq (w := w) hw.wlEq).mod WLane.probeTripped
  have hkw : Within [.cmd, .more, .wl] m ((m.modWl w WLane.probeTripped).laneCmdEnd w 1) := hm.seq he
  refine ⟨hv.same he.wlEq, ProbeWords.after hw ⟨WordsBut.of_eq (hkw.cfgEq) hkw.effEq, State.laneCmdEnd_takes hm (Within.refl [] _)⟩,
    hf.then hkw (fun hb => by rw [hkw.flagEq]; exact hb), hw.seq hkw⟩

/-! ### Disarming (R202, R203) -/

/-- A lane that is about to leave for OFF. -/
def WLane.parted (l : WLane) : WLane :=
  { l with disarmHeld := false, reconnect := false, reason := if l.state = .armed then 1 else l.reason }

/-- What a lane holds that disarms. -/
def WLane.disarmed (l : WLane) (gov : Bool) : WLane := if gov then { l.parted with state := .disarming } else l.parted.off

theorem State.laneDisarm_wl (s : State) (w : Lane) : WlIs w (s.wl[w].disarmed s.disarmGov) s (s.laneDisarm w) := by
  obtain ⟨m, hm⟩ : ∃ m, m = (s.modWl w WLane.parted).laneCmdEnd w 1 := ⟨_, rfl⟩
  have hv : WlIs w s.wl[w].parted s m := hm ▸ ((WlIs.refl w s).mod WLane.parted).same (State.laneCmdEnd_within _ w 1).wlEq
  have hg : m.disarmGov = s.disarmGov := by rw [hm]; rfl
  have he : s.laneDisarm w = if m.disarmGov then (m.modWl w (fun l => { l with state := .disarming })).govJoin .disarm w
      else (m.laneOff w).laneCmdEnd w 6 := by rw [hm]; rfl
  rw [he, hg]
  unfold WLane.disarmed
  split
  · exact WlIs.same (t := m.modWl w (fun l => { l with state := .disarming })) (hv.modBy rfl) (State.govJoin_within _ .disarm w).wlEq
  · have ho := m.laneOff_wl w
    rw [hv.self] at ho
    exact (hv.trans ho).same (State.laneCmdEnd_within _ w 6).wlEq

theorem WLane.disarmed_state (l : WLane) (gov : Bool) : (l.disarmed gov).state = if gov then .disarming else .off := by
  cases gov <;> rfl

theorem WLane.disarmed_keeps (l : WLane) (gov : Bool) : (l.disarmed gov).disarmHeld = false ∧ (l.disarmed gov).calOfs = l.calOfs ∧
    (l.disarmed gov).calGain = l.calGain ∧ (l.disarmed gov).ofsUsed = l.ofsUsed := by
  cases gov <;> exact ⟨rfl, rfl, rfl, rfl⟩

/-- GOV_CFG stays where WLN_CFG alone changes. -/
theorem State.disarmGov_congr {s t : State} {w : Lane} (h : WordsBut [wlA w 0x100] s t) : t.disarmGov = s.disarmGov := by
  have ha : clkA 0x400 ∉ [wlA w 0x100] := fun hm => by
    have := List.mem_singleton.mp hm
    unfold wlA clkA at this
    omega
  unfold State.disarmGov State.effB
  rw [(h _ ha).2]

/-! ### The commands -/

/-- A lane whose probe ends: in ARMING, or while it reconnects. -/
theorem armProbeEnd_runs {s : State} {w : Lane} (fails : Bool) (hu : s.undef = false)
    (h : s.wl[w].state = .arming ∨ (s.wl[w].state = .tripped ∧ s.wl[w].reconnect = true)) :
    exec (.armProbeEnd w fails) s = .next ((s.upto s.wl[w].due).probeEnd w fails 0) := by
  show execArmProbeEnd w fails s = _
  rw [execArmProbeEnd, guarded_next hu]
  dsimp only
  rw [if_pos h]

theorem spanChangeEnd_runs {s : State} {w : Lane} (fails : Bool) (hu : s.undef = false) (h : s.wl[w].state = .spanChange)
    (hd : s.wl[w].disarmHeld = false) :
    exec (.spanChangeEnd w fails) s = .next ((s.upto s.wl[w].due).probeEnd w fails 1) := by
  show execSpanChangeEnd w fails s = _
  rw [execSpanChangeEnd, guarded_next hu]
  dsimp only
  rw [if_neg fun hn => hn h, hd]
  rfl

theorem spanChangeEnd_disarms {s : State} {w : Lane} (fails : Bool) (hu : s.undef = false) (h : s.wl[w].state = .spanChange)
    (hd : s.wl[w].disarmHeld = true) :
    exec (.spanChangeEnd w fails) s = .next (((s.upto s.wl[w].due).probeEnd w fails 1).laneDisarm w) := by
  show execSpanChangeEnd w fails s = _
  rw [execSpanChangeEnd, guarded_next hu]
  dsimp only
  rw [if_neg fun hn => hn h, hd]
  rfl

/-- What the end of a probe at a tick leaves beside the lane and its flags. -/
structure ProbeEnds (w : Lane) (k : Nat) (s t : State) : Prop where
  but : WlBut w s t
  now : t.clk.now = max s.clk.now k
  words : WordsBut [wlA w 0x100] s t
  takes : Takes (armA w) (1#32 &&& ~~~(s.cmdWord (armNewA w))) s t

theorem ProbeEnds.of {w : Lane} {k : Nat} {v : WLane} {s t : State} {l : List Field} (hw : Within l (s.upto k) t) (hv : WlIs w v (s.upto k) t)
    (hp : ProbeWords w (s.upto k) t) (hc : Field.clk ∉ l := by decide) : ProbeEnds w k s t :=
  have h := ProbeWords.after (State.upto_within s k) hp
  ⟨hv.but, by rw [hw.clkEq hc]; rfl, h.words, h.takes⟩

/-- A span change takes FS and SPAN and runs for 2 µs. -/
theorem spanChangeStart_taken {s : State} {w : Lane} (hu : s.undef = false)
    (h : ¬ (s.wl[w].state ≠ .armed ∨ (!s.laneIdle w) = true ∨ (!s.spanWaits w) = true)) (hp : s.prepared 2 = false) :
    Gives (.spanChangeStart w) s (fun t =>
      WlIs w { s.wl[w].spanned (s.settledW (wlA w 0x100)) with state := .spanChange, reason := 5, due := s.clk.now + 3200 } s t ∧
      LaneWords w s t ∧ Within [.eff, .flg, .wl, .msix] s t) :=
  gives_branch hu rfl ((if_neg h).trans (if_neg (by rw [hp]; decide)))
    ⟨(s.takeSpan_wl w).modBy rfl, (s.takeSpan_words w).trans (LaneWords.mod w _ _), (State.takeSpan_within s w).seq (State.modWl_within _ w _)⟩

/-- A span change that held a DISARM disarms at its end. -/
theorem probeEnd_disarmed {s : State} {w : Lane} {v : WLane} {bit : Nat} {fails : Bool} (hv : WlIs w v s (s.probeEnd w fails bit))
    (hp : ProbeWords w s (s.probeEnd w fails bit)) :
    WlIs w (v.disarmed s.disarmGov) s ((s.probeEnd w fails bit).laneDisarm w) := by
  have hd := (s.probeEnd w fails bit).laneDisarm_wl w
  rw [hv.self, State.disarmGov_congr hp.words] at hd
  exact hv.trans hd

theorem calDone_runs {s : State} {w : Lane} (ofs : BitVec 18) (gain : BitVec 12) (hu : s.undef = false) (h : s.wl[w].state = .cal) :
    exec (.calDone w ofs gain) s = .next ((((s.upto s.wl[w].due).modWl w (fun l => { l with calOfs := ofs, calGain := gain })).setBit
      (wlA w 0x11C) 2).laneDisarm w) := by
  show execCalDone w ofs gain s = _
  rw [execCalDone, guarded_next hu]
  exact congrArg Host.Outcome.next (if_neg fun hn => hn h)

/-- Settles O37: a probe connects, warns or trips, a span change runs from a management tick to its own probe, and CAL stores what it
measured. -/
theorem laneProbesAndSpans : Obligations.LaneProbesAndSpans := by
  unfold Obligations.LaneProbesAndSpans
  intro s w hu l evt c d joined failed ends connects warns trips
  have hup := State.upto_within s l.due
  have hends : ∀ {t : State}, ProbeEnds w l.due s t → ends t := fun h => ⟨h.but, h.now, h.words, h.takes⟩
  have hconn : ∀ {bit : Nat}, bit < 32 → connects bit ((s.upto l.due).probeEnd w false bit) := fun {bit} hb => by
    obtain ⟨hj, hfl⟩ := (s.upto l.due).probeEnd_joins w hb
    have hk : Within [.eff, .flg, .cmd, .more, .wl, .msix] (s.upto l.due) ((s.upto l.due).probeEnd w false bit) := by
      rw [State.probeEnd_good]; exact State.laneConnect_within _ w bit
    exact ⟨hj.lane.self, hj.event, (hup.flagsBut _).trans hfl, hends (ProbeEnds.of hk hj.lane hj.probe), hup.seq hk⟩
  have hwarn : ∀ {bit : Nat}, bit < 32 → s.olAct w = 1 → warns bit ((s.upto l.due).probeEnd w true bit) := fun {bit} hb ho => by
    obtain ⟨hj, hfl⟩ := State.probeEnd_warns (s := s.upto l.due) hb ho
    have hk := State.probeEnd_within (s.upto l.due) w true bit
    exact ⟨hj.lane.self, hj.event, ⟨hfl.bit, hfl.seq, hfl.count⟩, hends (ProbeEnds.of hk hj.lane hj.probe), hup.seq hk⟩
  have htrip : ∀ {bit : Nat}, s.olAct w ≠ 1 → trips ((s.upto l.due).probeEnd w true bit) := fun {bit} ho => by
    obtain ⟨hv, hp, hfl, hk⟩ := State.probeEnd_tripped (s := s.upto l.due) (w := w) bit ho
    exact ⟨hv.self, ⟨hfl.bit, hfl.seq, hfl.count⟩, hends (ProbeEnds.of hk hv hp), hup.seq hk⟩
  refine ⟨fun hs => ⟨⟨_, armProbeEnd_runs false hu hs, hconn (by decide)⟩, fun ho => ⟨_, armProbeEnd_runs true hu hs, hwarn (by decide) ho⟩,
      fun ho => ⟨_, armProbeEnd_runs true hu hs, htrip ho⟩⟩, fun ha hi hw => ?_,
    fun hs hd => ⟨⟨_, spanChangeEnd_runs false hu hs hd, hconn (by decide)⟩, fun ho => ⟨_, spanChangeEnd_runs true hu hs hd, hwarn (by decide) ho⟩,
      fun ho => ⟨_, spanChangeEnd_runs true hu hs hd, htrip ho⟩⟩, fun fails hs hd => ?_, fun ofs gain hs => ?_⟩
  · have hc : ¬ (s.wl[w].state ≠ .armed ∨ (!s.laneIdle w) = true ∨ (!s.spanWaits w) = true) := by
      rw [hi, hw, not_or, not_or, ne_eq, not_not]
      exact ⟨ha, by decide, by decide⟩
    refine ⟨fun hp => gives_branch hu rfl ((if_neg hc).trans (if_pos hp)) ⟨rfl, State.hold_within s _⟩, fun hp => ?_⟩
    obtain ⟨t, hx, hv, hl, hf⟩ := spanChangeStart_taken hu hc hp
    exact ⟨t, hx, hv.self, hv.but, hl.words, hl.flags, hf⟩
  · have hx := spanChangeEnd_disarms fails hu hs hd
    have hf := execSpanChangeEnd_within w fails s hx
    have hdis := State.laneDisarm_within ((s.upto l.due).probeEnd w fails 1) w
    obtain ⟨v, hv, hp, hfl, hev⟩ : ∃ v, WlIs w v (s.upto l.due) ((s.upto l.due).probeEnd w fails 1) ∧
        ProbeWords w (s.upto l.due) ((s.upto l.due).probeEnd w fails 1) ∧
        (fails = true → LaneFlagged w 5 (s.upto l.due) ((s.upto l.due).probeEnd w fails 1)) ∧
        (fails = false ∨ s.olAct w = 1 → (((s.upto l.due).probeEnd w fails 1).flag evt).getLsbD 1 = true) := by
      cases fails
      · obtain ⟨hj, -⟩ := (s.upto l.due).probeEnd_joins w (bit := 1) (by decide)
        exact ⟨_, hj.lane, hj.probe, fun h => absurd h (by decide), fun _ => hj.event⟩
      · by_cases ho : s.olAct w = 1
        · obtain ⟨hj, hfl⟩ := State.probeEnd_warns (s := s.upto l.due) (bit := 1) (by decide) ho
          exact ⟨_, hj.lane, hj.probe, fun _ => hfl, fun _ => hj.event⟩
        · obtain ⟨hv, hp, hfl, -⟩ := State.probeEnd_tripped (s := s.upto l.due) (w := w) 1 ho
          exact ⟨_, hv, hp, fun _ => hfl, fun h => absurd (h.resolve_left (by decide)) ho⟩
    have hvd := probeEnd_disarmed hv hp
    have hpw := State.probeEnd_within (s.upto l.due) w fails 1
    refine ⟨_, hx, by rw [hvd.self, WLane.disarmed_state]; rfl, ?_, hvd.but, fun h => ?_, fun h => ?_, ?_, hf⟩
    · rw [hvd.self]; exact (WLane.disarmed_keeps _ _).1
    · have hl := (hfl h).then hdis (fun hb => by rw [hdis.flagEq]; exact hb)
      exact ⟨hl.bit, hl.seq, hl.count⟩
    · rw [hdis.flagEq]; exact hev h
    · rw [hdis.clkEq, hpw.clkEq]; rfl
  · have hx := calDone_runs ofs gain hu hs
    have hf := execCalDone_within w ofs gain s hx
    obtain ⟨m, hm⟩ : ∃ m, m = ((s.upto l.due).modWl w (fun l => { l with calOfs := ofs, calGain := gain })).setBit (wlA w 0x11C) 2 := ⟨_, rfl⟩
    have hv : WlIs w { s.wl[w] with calOfs := ofs, calGain := gain } s m :=
      hm ▸ WlIs.same (t := (s.upto l.due).modWl w (fun l => { l with calOfs := ofs, calGain := gain }))
        (((WlIs.refl w s).same (u := s.upto l.due) rfl).modBy rfl) (State.setBit_within _ _ 2).wlEq
    have hk : Within [.clk, .wl] s ((s.upto l.due).modWl w (fun l => { l with calOfs := ofs, calGain := gain })) :=
      hup.seq (State.modWl_within _ w _)
    have hdis := State.laneDisarm_within m w
    have hd := m.laneDisarm_wl w
    rw [hv.self] at hd
    obtain ⟨-, hofs, hgain, hused⟩ := WLane.disarmed_keeps { s.wl[w] with calOfs := ofs, calGain := gain } m.disarmGov
    have hgov : m.disarmGov = s.disarmGov := by
      unfold State.disarmGov
      rw [hm, State.effB_congr (State.setBit_within _ _ 2).effEq, State.effB_congr hk.effEq]
    rw [show (((s.upto s.wl[w].due).modWl w (fun l => { l with calOfs := ofs, calGain := gain })).setBit (wlA w 0x11C) 2) = m from hm.symm] at hx hf
    refine ⟨_, hx, by rw [hd.self, hofs], by rw [hd.self, hgain], by rw [hd.self, hused], by rw [hd.self, WLane.disarmed_state, hgov],
      (hv.trans hd).but, ?_, ?_, ?_, hf⟩
    · rw [hdis.flagEq, hm, State.flag_setBit_self _ _ (wlA_not_pend w _), hk.flagEq]
    · exact ((hk.flagsBut _).trans (hm ▸ (LaneWords.setBit w _ 2).flags)).trans (hdis.flagsBut _)
    · rw [hdis.clkEq, hm, (State.setBit_within _ _ 2).clkEq]; rfl

end Sys2Proof.Machine
end

