-- ==== Sys2Proof/Proofs/Stops.lean ====
section
/-! PROOF. What a stop of a cluster leaves of the flags and of the lanes (R85, R99), and the protection of W lanes (R209, R210). -/
namespace Sys2Proof.Machine

/-! ### Flags that only rise, lanes that stand -/

/-- What a lane holds of its arming. -/
def WLane.arm (l : WLane) : LaneState × BitVec 4 × Bool := (l.state, l.reason, l.disarmHeld)

/-- No flag falls, and every lane keeps its state, its reason and a DISARM that it holds. -/
structure Runs (s t : State) : Prop where
  flags : ∀ a i, a ∉ pendWords → (s.flag a).getLsbD i = true → (t.flag a).getLsbD i = true
  arms : ∀ w : Lane, t.wl[w].arm = s.wl[w].arm

theorem Runs.refl (s : State) : Runs s s := ⟨fun _ _ _ h => h, fun _ => rfl⟩

theorem Runs.trans {s t u : State} (h : Runs s t) (k : Runs t u) : Runs s u :=
  ⟨fun a i ha hb => k.flags a i ha (h.flags a i ha hb), fun w => (k.arms w).trans (h.arms w)⟩

theorem Runs.of_eq {s t : State} (hf : t.flg = s.flg) (hw : t.wl = s.wl) : Runs s t :=
  ⟨fun a _ _ hb => (flag_of_flg_eq hf a).symm ▸ hb, fun w => by rw [hw]⟩

theorem Runs.of_within {l : List Field} {s t : State} (h : Within l s t) (hf : Field.flg ∉ l := by decide)
    (hw : Field.wl ∉ l := by decide) : Runs s t := Runs.of_eq (h.flgEq hf) (h.wlEq hw)

theorem Runs.fold {α : Type} {f : State → α → State} (h : ∀ u x, Runs u (f u x)) (l : List α) (s : State) : Runs s (l.foldl f s) :=
  foldl_rel Runs Runs.refl Runs.trans f h l s

theorem Runs.setBit (s : State) (a i : Nat) : Runs s (s.setBit a i) :=
  ⟨fun b j hb h => by
    by_cases hab : b = a
    · subst hab
      rw [State.flag_setBit_self s i hb, BitVec.getLsbD_or, h, Bool.true_or]
    · rwa [State.flag_setBit_other s i hab hb], fun w => by rw [(State.setBit_within s a i).wlEq]⟩

theorem Runs.setBitIf (s : State) (c : Bool) (a i : Nat) : Runs s (s.setBitIf c a i) := by
  unfold State.setBitIf
  split
  · exact Runs.setBit s a i
  · exact Runs.refl s

theorem Runs.ite {c : Prop} [Decidable c] {s t u : State} (h : Runs s t) (k : Runs s u) : Runs s (if c then t else u) := by
  split
  · exact h
  · exact k

/-- A change of a lane that leaves its arming. -/
theorem Runs.modWl (s : State) (w : Lane) {f : WLane → WLane} (hf : ∀ l, (f l).arm = l.arm) : Runs s (s.modWl w f) :=
  ⟨fun _ _ _ h => h, fun v => by
    by_cases hv : v = w
    · subst hv; rw [State.modWl_self, hf]
    · rw [State.modWl_other s w f hv]⟩

/-! ### The generators (R177, R192 to R196) -/

theorem Runs.bandAt (s : State) (w : Lane) (m : Nat) (f : BitVec 48) (g : Bool) : Runs s (s.bandAt w m f g) := by
  unfold State.bandAt
  dsimp only
  have htrack : ∀ b, Runs s (if b = s.wl[w].tracking then s else s.modWl w (fun l => { l with tracking := b, heldN := none })) :=
    fun b => Runs.ite (Runs.refl s) (Runs.modWl s w fun _ => rfl)
  generalize hx : (if (s.qbWord w).getLsbD 26 = s.wl[w].tracking then s else _) = x
  have hsx : Runs s x := hx ▸ htrack _
  exact Runs.ite (hsx.trans (Runs.setBitIf _ _ _ _)) ((hsx.trans (Runs.setBitIf _ _ _ _)).trans (Runs.modWl _ w fun _ => rfl))

theorem Runs.ncoRun (s : State) (w : Lane) (k : Nat) : Runs s (s.ncoRun w k) := by
  unfold State.ncoRun State.modNco
  exact (Runs.bandAt s w _ _ true).trans (Runs.modWl _ w fun _ => rfl)

theorem Runs.ncoSteps (w : Lane) (to_ k : Nat) (s : State) : Runs s (s.ncoSteps w to_ k) := by
  induction k generalizing s with
  | zero => exact Runs.refl s
  | succ k ih =>
    unfold State.ncoSteps
    exact Runs.ite (Runs.refl s) ((Runs.ncoRun s w _).trans (ih _))

theorem Runs.ncoUpTo (s : State) (w : Lane) (k : Nat) : Runs s (s.ncoUpTo w k) := by
  unfold State.ncoUpTo
  exact Runs.ite (Runs.refl s) ((Runs.ite (Runs.ncoRun s w _) (Runs.ncoSteps w _ _ s)).trans (Runs.modWl _ w fun _ => rfl))

theorem Runs.ncoSync (s : State) (fu : Nat) (w : Lane) : Runs s (s.ncoSync fu w) := Runs.ncoUpTo s w _

theorem Runs.snapAgain (s : State) (w : Lane) (m : Nat) : Runs s (s.snapAgain w m) :=
  Runs.ite (Runs.modWl s w fun _ => rfl) (Runs.refl s)

theorem Runs.bandFollow (s : State) (fu : Nat) (w : Lane) : Runs s (s.bandFollow fu w) :=
  Runs.ite (Runs.refl s) ((Runs.bandAt s w _ _ true).trans (Runs.snapAgain _ w _))

theorem Runs.ncoIdle (s : State) (n : Clu) : Runs s (s.ncoIdle n) :=
  Runs.fold (fun u w => Runs.modWl u w fun l => by split <;> rfl) _ s

/-! ### Streams and pin groups -/

theorem Runs.lowWater (s : State) (c : Ctx) : Runs s (s.lowWater c) := by
  unfold State.lowWater
  have hctx : ∀ f, Runs s (s.modCtx c f) := fun f => Runs.of_within (State.modCtx_within s c f)
  exact Runs.ite (Runs.refl _) (Runs.ite (hctx _) (Runs.ite
    (((hctx _).trans (Runs.setBit _ _ _)).trans (Runs.of_within (State.count_within _ _ _))) (Runs.refl _)))

theorem Runs.ctxCloseIfDone (s : State) (c : Ctx) : Runs s (s.ctxCloseIfDone c) := by
  unfold State.ctxCloseIfDone
  have hclear : Runs s (s.ctxClear c) := Runs.of_eq rfl rfl
  exact Runs.ite (hclear.trans (Runs.setBit _ _ _)) (Runs.refl _)

theorem Runs.releaseObject (s : State) (n : Clu) : Runs s (s.releaseObject n) := by
  unfold State.releaseObject
  split
  · exact Runs.refl s
  · rename_i o _
    have hctx : ∀ (u : State) (f : Stream → Stream), Runs u (((u.modCtx o.ctx f).lowWater o.ctx).ctxCloseIfDone o.ctx) := fun u f =>
      ((Runs.of_within (State.modCtx_within u o.ctx f)).trans (Runs.lowWater _ _)).trans (Runs.ctxCloseIfDone _ _)
    exact (Runs.of_within (State.modClu_within s n _)).trans (Runs.ite (hctx _ _) (Runs.refl _))

theorem Runs.crowd (s : State) (g : Pg) (bit : Nat) : Runs s (s.crowd g bit) :=
  (Runs.of_within (State.count_within s _ _)).trans (Runs.setBit _ _ _)

theorem Runs.ddEdge (s : State) (g : Pg) (j : Fin 16) (x : Edge) : Runs s (s.ddEdge g j x) := by
  unfold State.ddEdge
  exact Runs.ite ((Runs.of_within (State.modPin_within s _ _)).trans (Runs.crowd _ g 1)) (Runs.of_within (State.modPin_within s _ _))

theorem Runs.deEdge (s : State) (g : Pg) (j : Fin 16) (x : Edge) : Runs s (s.deEdge g j x) := by
  unfold State.deEdge
  exact Runs.ite ((Runs.of_within (State.modPin_within s _ _)).trans (Runs.crowd _ g 1)) (Runs.of_within (State.modPin_within s _ _))

theorem Runs.parkPin (s : State) (g : Pg) (j : Fin 16) (k : Nat) : Runs s (s.parkPin g j k) := (Runs.deEdge s g j _).trans (Runs.ddEdge _ g j _)

theorem Runs.logVector (s : State) (g : Pg) (v : VecOpen) : Runs s (s.logVector g v) := by
  unfold State.logVector
  refine Runs.ite (Runs.refl s) ((Runs.of_within (State.modPg_within s g _)).trans (Runs.ite ?_ (Runs.of_within (State.modPg_within _ g _))))
  exact (Runs.of_within (State.count_within _ _ _)).trans (Runs.setBit _ _ _)

theorem Runs.closeVector (s : State) (g : Pg) (v : VecOpen) : Runs s (s.closeVector g v) := by
  unfold State.closeVector
  refine Runs.trans (Runs.ite (Runs.refl s) ?_) (Runs.logVector _ g v)
  have hnote : Runs s (s.modPg g (fun p => { p with ffLast := some (s.clk.now, s.firstFail v) })) := Runs.of_within (State.modPg_within s g _)
  have htake : ∀ u, Runs u (u.takeFf g (s.firstFail v)) := fun u => (Runs.of_within (State.modPg_within u g _)).trans (Runs.setBit _ _ _)
  refine Runs.trans (t := match s.pg[g].ffLast with
    | some x => if x.1 = s.clk.now then s else s.modPg g (fun p => { p with ffLast := some (s.clk.now, s.firstFail v) })
    | none => s.modPg g (fun p => { p with ffLast := some (s.clk.now, s.firstFail v) })) ?_ (Runs.ite (htake _) (Runs.refl _))
  split
  · exact Runs.ite (Runs.refl s) hnote
  · exact hnote

theorem Runs.closeVectors (s : State) (g : Pg) : Runs s (s.closeVectors g) := by
  unfold State.closeVectors
  exact Runs.trans (Runs.of_within (State.modPg_within s g _)) (Runs.fold (fun u v => Runs.closeVector u g v) _ _)

theorem Runs.cutGroup (s : State) (g : Pg) (k : Nat) (f : Nat → Bool) : Runs s (s.cutGroup g k f) := by
  unfold State.cutGroup
  exact ((Runs.fold (fun u j => Runs.of_within (State.modPin_within u _ _)) _ s).trans (Runs.of_within (State.modPg_within _ g _))).trans
    (Runs.closeVectors _ g)

theorem Runs.cutGroups (s : State) (n : Clu) (k : Nat) : Runs s (s.cutGroups n k) :=
  Runs.fold (fun u g => Runs.ite (Runs.cutGroup u g k _) (Runs.refl u)) _ s

theorem Runs.parkGroups (s : State) (n : Clu) (k : Nat) : Runs s (s.parkGroups n k) :=
  Runs.fold (fun u g => (Runs.cutGroup u g k _).trans (Runs.fold (fun v j => Runs.parkPin v g j k) _ _)) _ s

/-! ### A stop (R85, R99) -/

theorem Runs.cancelJump (s : State) (n : Clu) (soft : Bool) : Runs s (s.cancelJump n soft) := by
  unfold State.cancelJump
  split
  · exact Runs.refl s
  · refine Runs.ite (Runs.refl s) ?_
    exact (((Runs.of_within (State.markNeeded_within s n)).trans (Runs.of_within (State.modClu_within _ n _))).trans
      (Runs.of_within (State.count_within _ _ _))).trans (Runs.setBit _ _ _)

/-- The effects of an entry into IDLE before the held DISARMs act. -/
def State.idleRuns (s : State) (n : Clu) : State :=
  let fu := s.clk.now * 1024
  let s0 := (s.lanesOf n).foldl (fun s w => s.ncoSync fu w) s
  let s1 := s0.releaseObject n
  let s2 := s1.applyIdle n
  let s3 := (s2.groupsOf n).foldl State.copyTset s2
  let s4 := (s3.lanesOf n).foldl (fun s w => s.bandFollow fu w) s3
  s4.ncoIdle n

theorem State.idleEffects_eq (s : State) (n : Clu) : s.idleEffects n = (s.idleRuns n).lanesIdle n := rfl

theorem Runs.idleRuns (s : State) (n : Clu) : Runs s (s.idleRuns n) := by
  unfold State.idleRuns
  refine Runs.trans ?_ (Runs.ncoIdle _ n)
  refine Runs.trans ?_ (Runs.fold (fun u w => Runs.bandFollow u _ w) _ _)
  refine Runs.trans ?_ (Runs.fold (fun u g => Runs.of_within (State.copyTset_within u g)) _ _)
  refine Runs.trans ?_ (Runs.of_within (State.applyIdle_within _ n))
  exact (Runs.fold (fun u w => Runs.ncoSync u _ w) _ s).trans (Runs.releaseObject _ n)

/-- A lane that holds no DISARM stands when its cluster enters IDLE. -/
theorem State.lanesIdle_wl {s : State} (n : Clu) {w : Lane} (h : s.wl[w].disarmHeld = false) : (s.lanesIdle n).wl[w] = s.wl[w] := by
  have hstep : ∀ (l : List Lane) (u : State), u.wl[w] = s.wl[w] →
      (l.foldl (fun s w => if s.wl[w].disarmHeld ∧ (s.wl[w].state = .armed ∨ s.wl[w].state = .tripped) then s.laneDisarm w else s) u).wl[w] =
        s.wl[w] := by
    intro l
    induction l with
    | nil => exact fun u hu => hu
    | cons x l ih =>
      intro u hu
      refine ih _ ?_
      by_cases hxw : w = x
      · subst hxw
        have hoff : ¬ (u.wl[w].disarmHeld = true ∧ (u.wl[w].state = .armed ∨ u.wl[w].state = .tripped)) := by rw [hu, h]; simp
        dsimp only
        rw [if_neg hoff]
        exact hu
      · have hbut : WlBut x u (if u.wl[x].disarmHeld ∧ (u.wl[x].state = .armed ∨ u.wl[x].state = .tripped) then u.laneDisarm x else u) := by
          split
          · exact (u.laneDisarm_wl x).but
          · exact fun _ _ => rfl
        exact (hbut w hxw).trans hu
  exact hstep _ s rfl

/-- Before the held DISARMs act, a stop leaves flags and lanes standing. -/
theorem Runs.stopCluster (s : State) (n : Clu) (reason at_ : Nat) :
    ∃ m, Runs s m ∧ ∃ b, s.stopCluster n reason at_ = (m.lanesIdle n).setBitIf b (cluA n 0x40) 1 := by
  refine ⟨State.idleRuns _ n, ?_, _, rfl⟩
  refine Runs.trans ?_ (Runs.idleRuns _ n)
  refine Runs.trans ?_ (Runs.of_within (State.modClu_within _ n _))
  refine Runs.trans ?_ (Runs.cancelJump _ n false)
  exact ((Runs.of_within (State.markNeeded_within s n)).trans (Runs.cutGroups _ n at_)).trans (Runs.parkGroups _ n at_)

theorem State.stopCluster_flag_mono {s : State} (n : Clu) (reason at_ : Nat) {a i : Nat} (ha : a ∉ pendWords) (h : (s.flag a).getLsbD i = true) :
    ((s.stopCluster n reason at_).flag a).getLsbD i = true := by
  obtain ⟨m, hm, b, he⟩ := Runs.stopCluster s n reason at_
  rw [he]
  refine (Runs.setBitIf _ _ _ _).flags a i ha ?_
  rw [(State.lanesIdle_within m n).flagEq]
  exact hm.flags a i ha h

theorem State.stopCluster_arm {s : State} (n : Clu) (reason at_ : Nat) {w : Lane} (h : s.wl[w].disarmHeld = false) :
    (s.stopCluster n reason at_).wl[w].state = s.wl[w].state ∧ (s.stopCluster n reason at_).wl[w].reason = s.wl[w].reason := by
  obtain ⟨m, hm, b, he⟩ := Runs.stopCluster s n reason at_
  obtain ⟨hstate, hrest⟩ := Prod.mk.inj (hm.arms w)
  obtain ⟨hreason, hheld⟩ := Prod.mk.inj hrest
  rw [he, (State.setBitIf_within _ b _ 1).wlEq, State.lanesIdle_wl n (hheld.trans h)]
  exact ⟨hstate, hreason⟩

/-! ### Protection (R209, R210) -/

/-- A flag of a lane at a tick, whose tick the lane keeps. -/
def State.laneStamp (s : State) (w : Lane) (bit cause act at_ : Nat) (f : WLane → WLane) : State :=
  ((s.upto at_).laneFlag w bit cause act at_).modWl w f

/-- What a flag leaves before the lane trips. -/
structure LaneStamped (w : Lane) (bit at_ : Nat) (v : WLane) (s t : State) : Prop extends LaneFlagged w bit s t where
  now : t.clk.now = max s.clk.now at_
  lane : WlIs w v s t
  frame : Within [.clk, .flg, .ctr, .wl, .brg, .msix, .flt] s t

theorem State.laneStamp_stamped (s : State) (w : Lane) {bit : Nat} (cause act at_ : Nat) (f : WLane → WLane) (hb : bit < 32) :
    LaneStamped w bit at_ (f s.wl[w]) s (s.laneStamp w bit cause act at_ f) := by
  have hf := (s.upto at_).laneFlag_flagged w cause act at_ hb
  have hw := State.laneFlag_within (s.upto at_) w bit cause act at_
  have hm := State.modWl_within ((s.upto at_).laneFlag w bit cause act at_) w f
  have hv := WlIs.of_eq (w := w) (hw.wlEq.trans (State.upto_wl s at_))
  have hk : Within [.clk, .flg, .ctr, .brg, .msix, .flt] s ((s.upto at_).laneFlag w bit cause act at_) := (State.upto_within s at_).seq hw
  have hnow : ((s.upto at_).laneFlag w bit cause act at_).clk.now = max s.clk.now at_ := by rw [hw.clkEq]; rfl
  unfold State.laneStamp
  generalize (s.upto at_).laneFlag w bit cause act at_ = m at hf hw hm hv hk hnow
  have hf' : LaneFlagged w bit s m := ⟨hf.bit, hf.seq, hf.count⟩
  exact ⟨hf'.then hm fun h => h, hnow, hv.mod f, hk.seq hm⟩

/-- What a lane holds that a flag trips. -/
def WLane.tripped (l : WLane) (why : BitVec 4) : WLane := { l with state := .tripped, reason := why, reconnect := false }

/-- The cluster plays. -/
def Cluster.playing (k : Cluster) : Prop := k.state = .lead ∨ k.state = .run ∨ k.state = .stopping

theorem State.laneTrip_alone {s : State} {w : Lane} (why : BitVec 4) (t : Nat)
    (h : ∀ n, s.laneOwner w = some n → ¬ s.clu[n].playing) : s.laneTrip w why t = s.modWl w (fun l => l.tripped why) := by
  unfold State.laneTrip
  dsimp only
  rw [show (s.modWl w (fun l => { l with state := .tripped, reason := why, reconnect := false })).laneOwner w = s.laneOwner w from rfl]
  cases ho : s.laneOwner w with
  | none => rfl
  | some n => exact if_neg (h n ho)

theorem State.laneTrip_stops {s : State} {w : Lane} {n : Clu} (why : BitVec 4) (t : Nat) (ho : s.laneOwner w = some n) (hp : s.clu[n].playing) :
    s.laneTrip w why t = (s.modWl w (fun l => l.tripped why)).stopCluster n 4 (t * 1024) := by
  unfold State.laneTrip
  dsimp only
  rw [show (s.modWl w (fun l => { l with state := .tripped, reason := why, reconnect := false })).laneOwner w = s.laneOwner w from rfl, ho]
  exact if_pos hp

/-- What a trip leaves whose lane no playing cluster owns. -/
theorem LaneStamped.trips_alone {w : Lane} {bit at_ : Nat} {v : WLane} {s t : State} (h : LaneStamped w bit at_ v s t) (why : BitVec 4)
    (hp : ∀ n, s.laneOwner w = some n → ¬ s.clu[n].playing) : LaneStamped w bit at_ (v.tripped why) s (t.laneTrip w why at_) := by
  have ho : t.laneOwner w = s.laneOwner w := by unfold State.laneOwner; rw [h.frame.cluEq (by decide)]
  rw [State.laneTrip_alone why at_ (by rw [ho, h.frame.cluEq (by decide)]; exact hp)]
  have hm := State.modWl_within t w (fun l => l.tripped why)
  exact ⟨h.toLaneFlagged.then hm fun h => h, h.now, h.lane.mod (fun l => l.tripped why), h.frame.seq hm⟩

/-- What a trip leaves whose lane a playing cluster owns: the cluster stops. -/
structure TripStops (w : Lane) (n : Clu) (bit : Nat) (why : BitVec 4) (s t : State) : Prop where
  lane : s.wl[w].disarmHeld = false → t.wl[w].state = .tripped ∧ t.wl[w].reason = why
  state : t.clu[n].state = .idle
  reason : t.clu[n].stopReason = 4
  but : CluBut n s t
  bit : (t.flag (wlA w 0x11C)).getLsbD bit = true
  seq : t.flt.seq = s.flt.seq + 1

theorem LaneStamped.trips_stops {w : Lane} {n : Clu} {bit at_ : Nat} {v : WLane} {s t : State} (h : LaneStamped w bit at_ v s t)
    (why : BitVec 4) (hv : v.disarmHeld = s.wl[w].disarmHeld) (ho : s.laneOwner w = some n) (hp : s.clu[n].playing) :
    TripStops w n bit why s (t.laneTrip w why at_) := by
  have ho' : t.laneOwner w = some n := by unfold State.laneOwner; rw [h.frame.cluEq (by decide)]; exact ho
  rw [State.laneTrip_stops why at_ ho' (by rw [h.frame.cluEq (by decide)]; exact hp)]
  have hl := h.lane.mod (fun l => l.tripped why)
  have hm := State.modWl_within t w (fun l => l.tripped why)
  generalize t.modWl w (fun l => l.tripped why) = m at hl hm
  obtain ⟨f, hc, hbut⟩ := State.stopCluster_clu m n 4 (at_ * 1024)
  have hk : m.clu = s.clu := (hm.cluEq (by decide)).trans (h.frame.cluEq (by decide))
  refine ⟨fun hd => ?_, by rw [hc], by rw [hc]; rfl, fun k hne => (hbut k hne).trans (by rw [hk]), ?_, ?_⟩
  · obtain ⟨hs, hr⟩ := State.stopCluster_arm n 4 (at_ * 1024) (s := m) (w := w) (by rw [hl.self]; exact hv.trans hd)
    rw [hs, hr, hl.self]
    exact ⟨rfl, rfl⟩
  · exact State.stopCluster_flag_mono n 4 _ (wlA_not_pend w _) (by rw [hm.flagEq]; exact h.bit)
  · rw [(State.stopCluster_within m n 4 _).fltEq, hm.fltEq, h.seq]

/-! ### The two flags -/

/-- The event bit and the cause of a ball's compliance flag, the tick of its latest one, and the lane that keeps a new one. -/
def sideBit (side : BallSide) : Nat := match side with | .outp => 3 | .outn => 4
def sideCause (side : BallSide) : Nat := match side with | .outp => 1 | .outn => 2
def WLane.sideLast (l : WLane) (side : BallSide) : Option Nat := match side with | .outp => l.compP | .outn => l.compN
def WLane.sideKept (l : WLane) (side : BallSide) (at_ : Nat) : WLane :=
  match side with | .outp => { l with compP := some at_ } | .outn => { l with compN := some at_ }

theorem WLane.sideKept_same (l : WLane) (side : BallSide) (at_ : Nat) :
    (l.sideKept side at_).disarmHeld = l.disarmHeld ∧ (l.sideKept side at_).state = l.state := by cases side <;> exact ⟨rfl, rfl⟩

section
variable {s : State} {w : Lane} {at_ : Nat} (hu : s.undef = false)
include hu

theorem wCompliance_quiet {side : BallSide}
    (h : s.flagsNow w at_ = false ∨ (s.wl[w].unipolar = true ∧ side = .outn) ∨ mayFlag (s.wl[w].sideLast side) 64 at_ = false) :
    exec (.wComplianceFlag w side at_) s = .next (s.upto at_) := by
  show execWComplianceFlag w side at_ s = _
  rw [execWComplianceFlag, guarded_next hu]
  refine congrArg Host.Outcome.next (if_pos ?_)
  rw [Bool.not_eq_true', Bool.not_eq_true']
  cases side <;> exact h

theorem wCompliance_raised {side : BallSide} (hf : s.flagsNow w at_ = true) (hs : s.wl[w].unipolar = true → side = .outp)
    (hm : mayFlag (s.wl[w].sideLast side) 64 at_ = true) :
    exec (.wComplianceFlag w side at_) s = .next
      (if s.compAct w = 1 ∨ s.wl[w].state ≠ .armed then
        s.laneStamp w (sideBit side) (sideCause side) (s.compAct w) at_ (fun l => l.sideKept side at_)
      else (s.laneStamp w (sideBit side) (sideCause side) (s.compAct w) at_ (fun l => l.sideKept side at_)).laneTrip w 2 at_) := by
  show execWComplianceFlag w side at_ s = _
  rw [execWComplianceFlag, guarded_next hu]
  refine congrArg Host.Outcome.next ((if_neg ?_).trans ?_)
  · have hn : ¬ (s.flagsNow w at_ = false ∨ (s.wl[w].unipolar = true ∧ side = .outn) ∨ mayFlag (s.wl[w].sideLast side) 64 at_ = false) := by
      rw [hf, hm]
      rintro (h | ⟨h, ho⟩ | h)
      · exact absurd h (by decide)
      · exact absurd ((hs h).symm.trans ho) (by decide)
      · exact absurd h (by decide)
    rw [Bool.not_eq_true', Bool.not_eq_true']
    cases side <;> exact hn
  · have hst := s.laneStamp_stamped w (sideCause side) (s.compAct w) at_ (fun l => l.sideKept side at_) (bit := sideBit side) (by cases side <;> decide)
    have ha : (s.laneStamp w (sideBit side) (sideCause side) (s.compAct w) at_ (fun l => l.sideKept side at_)).compAct w = s.compAct w :=
      State.effF_congr hst.frame.effEq _ _ _
    have hl : (s.laneStamp w (sideBit side) (sideCause side) (s.compAct w) at_ (fun l => l.sideKept side at_)).wl[w].state = s.wl[w].state := by
      rw [hst.lane.self]; exact (WLane.sideKept_same _ _ _).2
    have hiff : (s.laneStamp w (sideBit side) (sideCause side) (s.compAct w) at_ (fun l => l.sideKept side at_)).compAct w = 1 ∨
        (s.laneStamp w (sideBit side) (sideCause side) (s.compAct w) at_ (fun l => l.sideKept side at_)).wl[w].state ≠ .armed ↔
        s.compAct w = 1 ∨ s.wl[w].state ≠ .armed := by rw [ha, hl]
    refine Eq.trans ?_ (if_congr hiff rfl rfl)
    cases side <;> rfl

theorem wOpenLoad_quiet {b : Bool}
    (h : s.wl[w].state ≠ .armed ∨ b = true ∨ s.wl[w].compP = some at_ ∨ s.wl[w].compN = some at_ ∨ mayFlag s.wl[w].openAt 1600 at_ = false) :
    exec (.wOpenLoadFlag w ⟨at_, b⟩) s = .next (s.upto at_) := by
  show execWOpenLoadFlag w ⟨at_, b⟩ s = _
  rw [execWOpenLoadFlag, guarded_next hu]
  refine congrArg Host.Outcome.next (if_pos ?_)
  rw [Bool.not_eq_true']
  exact h

theorem wOpenLoad_raised (ha : s.wl[w].state = .armed) (hp : s.wl[w].compP ≠ some at_) (hn : s.wl[w].compN ≠ some at_)
    (hm : mayFlag s.wl[w].openAt 1600 at_ = true) :
    exec (.wOpenLoadFlag w ⟨at_, false⟩) s = .next
      (if s.olAct w = 1 then s.laneStamp w 5 3 (s.olAct w) at_ (fun l => { l with openAt := some at_ })
      else (s.laneStamp w 5 3 (s.olAct w) at_ (fun l => { l with openAt := some at_ })).laneTrip w 3 at_) := by
  show execWOpenLoadFlag w ⟨at_, false⟩ s = _
  rw [execWOpenLoadFlag, guarded_next hu]
  refine congrArg Host.Outcome.next ((if_neg ?_).trans ?_)
  · rw [Bool.not_eq_true']
    rintro (h | h | h | h | h)
    · exact h ha
    · exact Bool.false_ne_true h
    · exact hp h
    · exact hn h
    · exact absurd (hm.symm.trans h) (by decide)
  · have hst := s.laneStamp_stamped w 3 (s.olAct w) at_ (fun l => { l with openAt := some at_ }) (bit := 5) (by decide)
    have ho : (s.laneStamp w 5 3 (s.olAct w) at_ (fun l => { l with openAt := some at_ })).olAct w = s.olAct w :=
      State.effF_congr hst.frame.effEq _ _ _
    exact if_congr (iff_of_eq (congrArg (· = 1) ho)) rfl rfl
end

/-- Settles O38: a flag counts and is reported, and but under NONE it trips the lane and stops the cluster that plays with it. -/
theorem laneProtection : Obligations.LaneProtection := by
  unfold Obligations.LaneProtection
  intro s w at_ hu l quiet latest stamped bitOf flagged only plays alone stops noPlay
  have honly : ∀ {bit : Nat} {v : WLane} {t : State}, LaneStamped w bit at_ v s t → only bit v t := fun h =>
    ⟨⟨h.bit, h.count, h.seq, h.now⟩, h.lane.self, h.lane.but, h.frame.cluEq (by decide), h.frame⟩
  have hstops : ∀ {bit : Nat} {why : BitVec 4} {n : Clu} {t : State}, TripStops w n bit why s t → stops bit why n t := fun h =>
    ⟨h.lane, h.state, h.reason, h.but, h.bit, h.seq⟩
  refine ⟨fun side h => ⟨_, wCompliance_quiet hu (by cases side <;> exact h), rfl⟩, fun b h => ⟨_, wOpenLoad_quiet hu h, rfl⟩,
    fun side hf hs hm => ?_, fun ha hp hn hm => ?_⟩
  · have hx := wCompliance_raised (side := side) hu hf hs (by cases side <;> exact hm)
    have hst := s.laneStamp_stamped w (sideCause side) (s.compAct w) at_ (fun l => l.sideKept side at_) (bit := sideBit side) (by cases side <;> decide)
    generalize s.laneStamp w (sideBit side) (sideCause side) (s.compAct w) at_ (fun l => l.sideKept side at_) = m at hx hst
    have hv : s.wl[w].sideKept side at_ = stamped side := by cases side <;> rfl
    have hb : sideBit side = bitOf side := by cases side <;> rfl
    refine ⟨fun h => ⟨m, hx.trans (congrArg _ (if_pos h)), ?_⟩, fun hc ha => ?_⟩
    · rw [← hv, ← hb]; exact honly hst
    · have hn : ¬ (s.compAct w = 1 ∨ s.wl[w].state ≠ .armed) := not_or.mpr ⟨hc, not_not.mpr ha⟩
      refine ⟨fun hp => ⟨_, hx.trans (congrArg _ (if_neg hn)), ?_⟩, fun n ho hp => ⟨_, hx.trans (congrArg _ (if_neg hn)), ?_⟩⟩
      · have h := honly (hst.trips_alone 2 hp)
        rw [hv, hb] at h
        exact h
      · rw [← hb]; exact hstops (hst.trips_stops 2 (WLane.sideKept_same _ _ _).1 ho hp)
  · have hx := wOpenLoad_raised hu ha hp hn hm
    have hst := s.laneStamp_stamped w 3 (s.olAct w) at_ (fun l => { l with openAt := some at_ }) (bit := 5) (by decide)
    generalize s.laneStamp w 5 3 (s.olAct w) at_ (fun l => { l with openAt := some at_ }) = m at hx hst
    refine ⟨fun h => ⟨m, hx.trans (congrArg _ (if_pos h)), honly hst⟩, fun h => ⟨fun hp => ⟨_, hx.trans (congrArg _ (if_neg h)), ?_⟩,
      fun n ho hp => ⟨_, hx.trans (congrArg _ (if_neg h)), ?_⟩⟩⟩
    · exact honly (hst.trips_alone 3 hp)
    · exact hstops (hst.trips_stops 3 rfl ho hp)

end Sys2Proof.Machine
end

