-- ==== Sys2Proof/Proofs/LaneCommands.lean ====
section
/-! PROOF. ARM, DISARM and CAL of a W lane (R202, R203, R211). -/
namespace Sys2Proof.Machine

/-! ### The CMD words of a lane -/

theorem armNewA_ne_armA (w : Lane) : armNewA w ≠ armA w := by unfold armNewA armA; omega

theorem armA_ne_load (w : Lane) : armA w ≠ wlA w 0x20 := by unfold armA wlA; omega

theorem armNewA_ne_load (w : Lane) : armNewA w ≠ wlA w 0x20 := by unfold armNewA wlA; omega

theorem zero_and (x : Word) : 0 &&& x = 0 := BitVec.zero_and
theorem or_zero (x : Word) : x ||| 0 = x := BitVec.or_zero

/-- The CMD words of a lane's commands: what is written anew, and what is shown, with no further request of either. -/
structure ArmPlain (w : Lane) (new arm : Word) (s : State) : Prop where
  new : s.cmdWord (armNewA w) = new
  moreNew : smGet (fun _ => (0 : Word)) s.more (armNewA w) = 0
  moreArm : smGet (fun _ => (0 : Word)) s.more (armA w) = 0
  arm : s.cmdWord (armA w) = arm

theorem ArmPlain.takeNew {w : Lane} {n x : Word} {s : State} (h : ArmPlain w n x s) (m : Word) :
    ArmPlain w (n &&& ~~~m) x (s.cmdTake (armNewA w) m) := by
  obtain ⟨hc, hm⟩ := cmd_cmdTake_self s (armNewA w) m
  obtain ⟨hac, ham⟩ := cmd_cmdTake_other s (armNewA w) m (armA w) (armNewA_ne_armA w).symm
  refine ⟨?_, ?_, ham.trans h.moreArm, hac.trans h.arm⟩
  · rw [hc, h.new, h.moreNew, zero_and, or_zero]
  · rw [hm, h.moreNew, zero_and]

theorem ArmPlain.cmdEnd {w : Lane} {n x : Word} {s : State} (h : ArmPlain w n x s) (m : Word) :
    ArmPlain w n (x &&& ~~~(m &&& ~~~n)) (s.laneCmdEnd w m) := by
  unfold State.laneCmdEnd
  rw [h.new]
  obtain ⟨hc, hm⟩ := cmd_cmdTake_self s (armA w) (m &&& ~~~n)
  obtain ⟨hac, ham⟩ := cmd_cmdTake_other s (armA w) (m &&& ~~~n) (armNewA w) (armNewA_ne_armA w)
  refine ⟨hac.trans h.new, ham.trans h.moreNew, ?_, ?_⟩
  · rw [hm, h.moreArm, zero_and]
  · rw [hc, h.arm, h.moreArm, zero_and, or_zero]

/-- Nothing written anew: the bits end. -/
theorem ArmPlain.ends {w : Lane} {x : Word} {s : State} (h : ArmPlain w 0 x s) (m : Word) : ArmPlain w 0 (x &&& ~~~m) (s.laneCmdEnd w m) := by
  have := h.cmdEnd m
  rwa [show m &&& ~~~(0 : Word) = m from BitVec.and_allOnes] at this

theorem ArmPlain.gives {w : Lane} {x : Word} {s : State} (h : ArmPlain w 0 x s) (m : Word) :
    ArmPlain w 0 (x &&& ~~~(m &&& ~~~(s.laneRuns w))) (s.laneGive w m) := h.ends _

theorem ArmPlain.then {w : Lane} {n x : Word} {s t : State} {l : List Field} (h : ArmPlain w n x s) (hw : Within l s t)
    (hc : Field.cmd ∉ l := by decide) (hm : Field.more ∉ l := by decide) : ArmPlain w n x t :=
  ⟨(hw.cmdWordEq _ hc).trans h.new, (hw.moreWordEq _ hm).trans h.moreNew, (hw.moreWordEq _ hm).trans h.moreArm, (hw.cmdWordEq _ hc).trans h.arm⟩

/-- What the commands of a lane may change of the CMD words. -/
theorem State.laneCmdEnd_cmds {l : List Nat} {s t : State} {w : Lane} (h : CmdsBut l s t) (m : Word) (hm : armA w ∈ l := by simp) :
    CmdsBut l s (t.laneCmdEnd w m) := h.cmdTake _ hm

theorem State.laneGive_cmds {l : List Nat} {s t : State} {w : Lane} (h : CmdsBut l s t) (m : Word) (hm : armA w ∈ l := by simp) :
    CmdsBut l s (t.laneGive w m) := State.laneCmdEnd_cmds h _ hm

/-! ### A dropped command -/

/-- A command that is dropped: its flag sets, and no CMD word changes but the lane's. -/
structure LaneDropped (w : Lane) (s t : State) : Prop where
  flag : t.flag (wlA w 0x11C) = s.flag (wlA w 0x11C) ||| bit32 6
  flags : FlagsBut [wlA w 0x11C] s t
  cmds : CmdsBut [armA w, armNewA w] s t
  frame : Within [.flg, .cmd, .more, .msix] s t

theorem State.laneDrop_dropped {s m : State} {w : Lane} (hc : CmdsBut [armA w, armNewA w] s m) (hf : Within [.cmd, .more] s m) :
    LaneDropped w s (m.laneDrop w) :=
  have hs := State.setBit_within m (wlA w 0x11C) 6
  ⟨by rw [State.laneDrop, State.flag_setBit_self _ 6 (wlA_not_pend w _), hf.flagEq],
    (hf.flagsBut _).trans ((FlagsBut.refl _ m).setBit 6 (List.mem_singleton_self _)), hc.trans (hs.cmdsBut _), hf.seq hs⟩

/-! ### ARM (R202, R210) -/

/-- The new bit of a command is taken. -/
def State.armTaken (s : State) (w : Lane) (bit : Nat) : State := s.cmdTake (armNewA w) (bit32 bit)

theorem State.armTaken_within (s : State) (w : Lane) (bit : Nat) : Within [.cmd, .more] s (s.armTaken w bit) := State.cmdTake_within s _ _

theorem State.armTaken_cmds (s : State) (w : Lane) (bit : Nat) : CmdsBut [armA w, armNewA w] s (s.armTaken w bit) :=
  (CmdsBut.refl _ s).cmdTake _ (by simp)

section
variable {s : State} {w : Lane} (hu : s.undef = false) (hl : s.hasLane w = true) (hc : s.configured = true)
include hu hl hc

theorem laneArm_yields (hy : (s.cmdWord (armNewA w)).getLsbD 0 = true ∧ s.cmdWord (armNewA w) &&& ~~~1#32 ≠ 0) :
    exec (.laneArm w) s = .next ((s.armTaken w 0).laneGive w 1) := by
  have h0 : ¬ (!s.hasLane w || !s.configured) = true := by rw [hl, hc]; decide
  have h1 : ((s.cmdWord (armNewA w)).getLsbD 0 && decide (s.cmdWord (armNewA w) &&& ~~~(bit32 0) ≠ 0)) = true :=
    Bool.and_eq_true_iff.mpr ⟨hy.1, decide_eq_true hy.2⟩
  show execLaneArm w s = _
  rw [execLaneArm, guarded_next hu]
  exact congrArg Host.Outcome.next ((if_neg h0).trans (if_pos h1))

theorem laneArm_held (hy : ¬ ((s.cmdWord (armNewA w)).getLsbD 0 = true ∧ s.cmdWord (armNewA w) &&& ~~~1#32 ≠ 0)) (hh : s.laneHeld w = true) :
    exec (.laneArm w) s = .next ((s.armTaken w 0).hold (.laneArm w)) := by
  have h0 : ¬ (!s.hasLane w || !s.configured) = true := by rw [hl, hc]; decide
  have h1 : ¬ ((s.cmdWord (armNewA w)).getLsbD 0 && decide (s.cmdWord (armNewA w) &&& ~~~(bit32 0) ≠ 0)) = true := by
    rw [Bool.and_eq_true_iff, decide_eq_true_iff]; exact hy
  show execLaneArm w s = _
  rw [execLaneArm, guarded_next hu]
  exact congrArg Host.Outcome.next ((if_neg h0).trans ((if_neg h1).trans (if_pos hh)))

theorem laneArm_absent (hy : ¬ ((s.cmdWord (armNewA w)).getLsbD 0 = true ∧ s.cmdWord (armNewA w) &&& ~~~1#32 ≠ 0)) (hh : s.laneHeld w = false)
    (hd : s.dieAbsent w = true) : exec (.laneArm w) s = .next (((s.armTaken w 0).laneCmdEnd w 1).laneDrop w) := by
  have h0 : ¬ (!s.hasLane w || !s.configured) = true := by rw [hl, hc]; decide
  have h1 : ¬ ((s.cmdWord (armNewA w)).getLsbD 0 && decide (s.cmdWord (armNewA w) &&& ~~~(bit32 0) ≠ 0)) = true := by
    rw [Bool.and_eq_true_iff, decide_eq_true_iff]; exact hy
  show execLaneArm w s = _
  rw [execLaneArm, guarded_next hu]
  exact congrArg Host.Outcome.next ((if_neg h0).trans ((if_neg h1).trans ((if_neg (hh ▸ Bool.false_ne_true)).trans (if_pos hd))))

/-- What ARM does in each state of the lane. -/
theorem laneArm_acts (hy : ¬ ((s.cmdWord (armNewA w)).getLsbD 0 = true ∧ s.cmdWord (armNewA w) &&& ~~~1#32 ≠ 0)) (hh : s.laneHeld w = false)
    (hd : s.dieAbsent w = false) :
    (s.wl[w].state = .off → exec (.laneArm w) s = .next (((s.armTaken w 0).modWl w (fun l => { l with state := .queued })).govJoin .arm w)) ∧
    (s.wl[w].state = .tripped → exec (.laneArm w) s = .next (if s.wl[w].reconnect then s.armTaken w 0 else
      (s.armTaken w 0).modWl w (fun l => { l with reconnect := true, due := s.clk.now + 1600 }))) ∧
    (s.wl[w].state = .queued → exec (.laneArm w) s = .next ((if s.gov.queue.any (fun q => decide (q.lane = w ∧ q.kind = .arm)) then
      s.armTaken w 0 else (s.armTaken w 0).laneCmdEnd w 1).laneDrop w)) ∧
    (s.wl[w].state = .arming → exec (.laneArm w) s = .next ((s.armTaken w 0).laneDrop w)) ∧
    (s.wl[w].state = .armed ∨ s.wl[w].state = .spanChange ∨ s.wl[w].state = .disarming ∨ s.wl[w].state = .cal →
      exec (.laneArm w) s = .next (((s.armTaken w 0).laneCmdEnd w 1).laneDrop w)) := by
  have h0 : ¬ (!s.hasLane w || !s.configured) = true := by rw [hl, hc]; decide
  have h1 : ¬ ((s.cmdWord (armNewA w)).getLsbD 0 && decide (s.cmdWord (armNewA w) &&& ~~~(bit32 0) ≠ 0)) = true := by
    rw [Bool.and_eq_true_iff, decide_eq_true_iff]; exact hy
  have h2 : ¬ (s.armTaken w 0).laneHeld w = true := fun h => Bool.false_ne_true (hh.symm.trans h)
  have h3 : ¬ (s.armTaken w 0).dieAbsent w = true := fun h => Bool.false_ne_true (hd.symm.trans h)
  have hx : exec (.laneArm w) s = execLaneArm w s := rfl
  have hst : (s.armTake w 0).1.wl[w].state = s.wl[w].state := rfl
  rw [hx, execLaneArm, guarded_next hu]
  refine ⟨fun hs => ?_, fun hs => ?_, fun hs => ?_, fun hs => ?_, fun hs => ?_⟩
  all_goals refine congrArg Host.Outcome.next ((if_neg h0).trans ((if_neg h1).trans ((if_neg h2).trans ((if_neg h3).trans ?_))))
  case refine_5 => rcases hs with hs | hs | hs | hs <;> rw [hst, hs] <;> rfl
  all_goals rw [hst, hs]
  all_goals rfl
end

/-! ### OFF and the queue (R202, R203) -/

theorem ArmPlain.dropLoad {w : Lane} {n x : Word} {s : State} (h : ArmPlain w n x s) (m : Word) : ArmPlain w n x (s.cmdDrop (wlA w 0x20) m) := by
  obtain ⟨-, -, hb⟩ := State.cmdDrop_drops s (wlA w 0x20) m
  obtain ⟨ha1, ha2⟩ := hb (armA w) (fun hm => armA_ne_load w (List.mem_singleton.mp hm))
  obtain ⟨hn1, hn2⟩ := hb (armNewA w) (fun hm => armNewA_ne_load w (List.mem_singleton.mp hm))
  exact ⟨hn1.trans h.new, hn2.trans h.moreNew, ha2.trans h.moreArm, ha1.trans h.arm⟩

theorem ArmPlain.off {w : Lane} {n x : Word} {s : State} (h : ArmPlain w n x s) : ArmPlain w n x (s.laneOff w) :=
  (h.then (State.modWl_within s w _)).dropLoad 1

/-- The LOAD bit of a lane that has entered OFF reads 0, whatever command of the lane ends then. -/
theorem State.laneOff_load (s : State) (w : Lane) (m : Word) : (((s.laneOff w).laneCmdEnd w m).cmdWord (wlA w 0x20)).getLsbD 0 = false := by
  obtain ⟨hd, -, -⟩ := State.cmdDrop_drops (s.modWl w WLane.off) (wlA w 0x20) 1
  obtain ⟨hk, -⟩ := cmd_cmdTake_other (s.laneOff w) (armA w) (m &&& ~~~((s.laneOff w).cmdWord (armNewA w))) (wlA w 0x20) (armA_ne_load w).symm
  have he : (s.laneOff w).cmdWord (wlA w 0x20) = (s.modWl w WLane.off).cmdWord (wlA w 0x20) &&& ~~~1 := hd
  rw [State.laneCmdEnd, hk, he, BitVec.getLsbD_and]
  exact Bool.and_false _

theorem State.laneOff_cmds {l : List Nat} {s t : State} {w : Lane} (h : CmdsBut l s t) (hm : wlA w 0x20 ∈ l := by simp) :
    CmdsBut l s (t.laneOff w) := by
  obtain ⟨-, -, hd⟩ := State.cmdDrop_drops (t.modWl w WLane.off) (wlA w 0x20) 1
  exact h.trans fun a ha => hd a fun hs => ha (List.mem_singleton.mp hs ▸ hm)

/-- The lane leaves for OFF after its commands ended. -/
theorem State.laneDisarm_cmds {s t : State} {w : Lane} (h : CmdsBut [armA w, armNewA w, wlA w 0x20] s t) :
    CmdsBut [armA w, armNewA w, wlA w 0x20] s (t.laneDisarm w) := by
  obtain ⟨m, hm⟩ : ∃ m, m = (t.modWl w WLane.parted).laneCmdEnd w 1 := ⟨_, rfl⟩
  have hc : CmdsBut [armA w, armNewA w, wlA w 0x20] s m := by
    rw [hm]
    exact State.laneCmdEnd_cmds (h.trans ((State.modWl_within t w WLane.parted).cmdsBut _)) 1
  have he : t.laneDisarm w = if m.disarmGov then (m.modWl w (fun l => { l with state := .disarming })).govJoin .disarm w
      else (m.laneOff w).laneCmdEnd w 6 := by rw [hm]; rfl
  rw [he]
  split
  · exact (hc.trans ((State.modWl_within m w _).cmdsBut _)).trans ((State.govJoin_within _ .disarm w).cmdsBut _)
  · exact State.laneCmdEnd_cmds (State.laneOff_cmds hc) 6

/-- What disarming does at once, without the governor. -/
theorem State.laneDisarm_off {s : State} {w : Lane} (h : s.disarmGov = false) :
    s.laneDisarm w = (((s.modWl w WLane.parted).laneCmdEnd w 1).laneOff w).laneCmdEnd w 6 :=
  if_neg (fun hg => Bool.false_ne_true (h.symm.trans hg))

theorem State.laneDisarm_queued {s : State} {w : Lane} (h : s.disarmGov = true) :
    s.laneDisarm w = (((s.modWl w WLane.parted).laneCmdEnd w 1).modWl w (fun l => { l with state := .disarming })).govJoin .disarm w :=
  if_pos h

theorem State.laneDisarm_off_gov {s : State} {w : Lane} (h : s.disarmGov = false) : (s.laneDisarm w).gov = s.gov := by
  rw [State.laneDisarm_off h, (State.laneCmdEnd_within _ w 6).govEq, (State.laneOff_within _ w).govEq, (State.laneCmdEnd_within _ w 1).govEq]
  rfl

theorem State.laneDisarm_queued_gov {s : State} {w : Lane} (h : s.disarmGov = true) :
    (s.laneDisarm w).gov = { s.gov with queue := govInsert { kind := .disarm, lane := w, takenAt := s.clk.now } s.gov.queue } := by
  rw [State.laneDisarm_queued h]
  rfl

/-! ### DISARM (R202) -/

/-- DISARM is taken, and what was written with it dropped. -/
def State.disarmTaken (s : State) (w : Lane) : State :=
  ((s.armTaken w 1).cmdTake (armNewA w) 5).laneGive w (s.cmdWord (armNewA w) &&& ~~~(bit32 1))

theorem State.disarmTaken_within (s : State) (w : Lane) : Within [.cmd, .more] s (s.disarmTaken w) :=
  ((s.armTaken_within w 1).seq (l := [.cmd, .more]) (State.cmdTake_within _ _ _)).seq (State.laneGive_within _ w _)

theorem State.disarmTaken_cmds (s : State) (w : Lane) : CmdsBut [armA w, armNewA w] s (s.disarmTaken w) :=
  State.laneGive_cmds ((s.armTaken_cmds w 1).cmdTake 5 (by simp)) _

theorem ArmPlain.disarmTaken {w : Lane} {x : Word} {s : State} (h : ArmPlain w 2 x s) : ArmPlain w 0 x (s.disarmTaken w) := by
  have h1 : ArmPlain w 0 x ((s.armTaken w 1).cmdTake (armNewA w) 5) := (h.takeNew (bit32 1)).takeNew 5
  have h2 := h1.gives (s.cmdWord (armNewA w) &&& ~~~(bit32 1))
  rw [h.new] at h2
  have h3 : x &&& ~~~((2 &&& ~~~(bit32 1)) &&& ~~~(((s.armTaken w 1).cmdTake (armNewA w) 5).laneRuns w)) = x := by
    rw [show (2 : Word) &&& ~~~(bit32 1) = 0 by decide, zero_and]
    exact BitVec.and_allOnes
  rw [h3] at h2
  unfold State.disarmTaken
  rwa [h.new]

section
variable {s : State} {w : Lane} (hu : s.undef = false) (hl : s.hasLane w = true)
include hu hl

/-- What DISARM does in each state of the lane. -/
theorem laneDisarm_acts :
    (s.wl[w].state = .queued → exec (.laneDisarm w) s = .next ((s.disarmTaken w).laneUnqueue w)) ∧
    (s.wl[w].state = .arming ∨ s.wl[w].state = .tripped → exec (.laneDisarm w) s = .next ((s.disarmTaken w).laneDisarm w)) ∧
    (s.wl[w].state = .armed → exec (.laneDisarm w) s = .next (if s.laneIdle w then (s.disarmTaken w).laneDisarm w else
      (s.disarmTaken w).modWl w (fun l => { l with disarmHeld := true }))) ∧
    (s.wl[w].state = .spanChange → exec (.laneDisarm w) s = .next ((s.disarmTaken w).modWl w (fun l => { l with disarmHeld := true }))) ∧
    (s.wl[w].state = .disarming → exec (.laneDisarm w) s = .next
      ((if (s.disarmTaken w).calLeaves w then (s.disarmTaken w).laneCmdEnd w 2 else s.disarmTaken w).laneDrop w)) ∧
    (s.wl[w].state = .off ∨ s.wl[w].state = .cal → exec (.laneDisarm w) s = .next (((s.disarmTaken w).laneCmdEnd w 2).laneDrop w)) := by
  have h0 : ¬ (!s.hasLane w) = true := by rw [hl]; decide
  have hx : exec (.laneDisarm w) s = execLaneDisarm w s := rfl
  have hst : (s.disarmTaken w).wl[w].state = s.wl[w].state := rfl
  have hdef : (((s.armTake w 1).1.cmdTake (armNewA w) 5).laneGive w (s.armTake w 1).2) = s.disarmTaken w := rfl
  rw [hx, execLaneDisarm, guarded_next hu, if_neg h0]
  dsimp only
  rw [hdef, hst]
  refine ⟨fun hs => ?_, fun hs => ?_, fun hs => ?_, fun hs => ?_, fun hs => ?_, fun hs => ?_⟩
  case refine_2 => rcases hs with hs | hs <;> rw [hs]
  case refine_6 => rcases hs with hs | hs <;> rw [hs]
  all_goals rw [hs]
  all_goals rfl
end

/-! ### CAL (R202, R211) -/

theorem State.laneRuns_congr {s t : State} {w : Lane} (hw : t.wl = s.wl) (hg : t.gov = s.gov) (hp : t.pwr = s.pwr)
    (hc : t.cmdWord (armA w) = s.cmdWord (armA w)) : t.laneRuns w = s.laneRuns w := by
  unfold State.laneRuns
  rw [hw, hg, hp, hc]

/-- CAL is taken, and an ARM that was written with it gives way. -/
def State.calTaken (s : State) (w : Lane) : State :=
  if (s.cmdWord (armNewA w)).getLsbD 2 && (s.cmdWord (armNewA w) &&& ~~~(bit32 2)).getLsbD 0 then
    ((s.armTaken w 2).cmdTake (armNewA w) 1).laneGive w 1
  else s.armTaken w 2

theorem State.calTaken_within (s : State) (w : Lane) : Within [.cmd, .more] s (s.calTaken w) :=
  Within.ite (((s.armTaken_within w 2).seq (l := [.cmd, .more]) (State.cmdTake_within _ _ _)).seq (State.laneGive_within _ w _)) (s.armTaken_within w 2)

theorem State.calTaken_cmds (s : State) (w : Lane) : CmdsBut [armA w, armNewA w] s (s.calTaken w) := by
  unfold State.calTaken
  split
  · exact State.laneGive_cmds ((s.armTaken_cmds w 2).cmdTake 1 (by simp)) _
  · exact s.armTaken_cmds w 2

/-- CAL alone: the shown word stays. -/
theorem ArmPlain.calTaken {w : Lane} {x : Word} {s : State} (h : ArmPlain w 4 x s) : ArmPlain w 0 x (s.calTaken w) := by
  have hn : ¬ ((s.cmdWord (armNewA w)).getLsbD 2 && (s.cmdWord (armNewA w) &&& ~~~(bit32 2)).getLsbD 0) = true := by rw [h.new]; decide
  unfold State.calTaken
  rw [if_neg hn]
  exact h.takeNew (bit32 2)

/-- CAL and ARM written together: ARM's bit clears, unless an ARM is held or runs. -/
theorem ArmPlain.calTaken_both {w : Lane} {x : Word} {s : State} (h : ArmPlain w 5 x s) :
    ArmPlain w 0 (x &&& ~~~(1 &&& ~~~(s.laneRuns w))) (s.calTaken w) := by
  have hb : ((s.cmdWord (armNewA w)).getLsbD 2 && (s.cmdWord (armNewA w) &&& ~~~(bit32 2)).getLsbD 0) = true := by rw [h.new]; decide
  have h1 : ArmPlain w 0 x ((s.armTaken w 2).cmdTake (armNewA w) 1) := (h.takeNew (bit32 2)).takeNew 1
  have hr : ((s.armTaken w 2).cmdTake (armNewA w) 1).laneRuns w = s.laneRuns w :=
    State.laneRuns_congr rfl rfl rfl (h1.arm.trans h.arm.symm)
  have h2 := h1.gives 1
  rw [hr] at h2
  unfold State.calTaken
  rwa [if_pos hb]

section
variable {s : State} {w : Lane} (hu : s.undef = false) (hl : s.hasLane w = true)
include hu hl

theorem laneCal_yields (h2 : (s.cmdWord (armNewA w)).getLsbD 2 = true) (h1 : (s.cmdWord (armNewA w)).getLsbD 1 = true) :
    exec (.laneCal w) s = .next ((s.armTaken w 2).laneGive w 4) := by
  have h0 : ¬ (!s.hasLane w) = true := by rw [hl]; decide
  have hy : ((s.cmdWord (armNewA w)).getLsbD 2 && (s.cmdWord (armNewA w) &&& ~~~(bit32 2)).getLsbD 1) = true := by
    rw [h2, BitVec.getLsbD_and, h1]; decide
  show execLaneCal w s = _
  rw [execLaneCal, guarded_next hu]
  exact congrArg Host.Outcome.next ((if_neg h0).trans (if_pos hy))

/-- What CAL does where it does not give way. -/
theorem laneCal_acts (hy : ¬ ((s.cmdWord (armNewA w)).getLsbD 2 = true ∧ (s.cmdWord (armNewA w)).getLsbD 1 = true)) :
    (s.laneHeld w = true → exec (.laneCal w) s = .next ((s.calTaken w).hold (.laneCal w))) ∧
    (s.laneHeld w = false → s.dieAbsent w = true → exec (.laneCal w) s = .next (((s.calTaken w).laneCmdEnd w 4).laneDrop w)) ∧
    (s.laneHeld w = false → s.dieAbsent w = false →
      (s.wl[w].state = .off → exec (.laneCal w) s = .next (if s.configured then
        ((s.calTaken w).modWl w (fun l => { l with state := .queued })).govJoin .cal w else ((s.calTaken w).laneCmdEnd w 4).laneDrop w)) ∧
      (s.wl[w].state = .queued → exec (.laneCal w) s = .next ((if s.gov.queue.any (fun q => decide (q.lane = w ∧ q.kind = .cal)) then
        s.calTaken w else (s.calTaken w).laneCmdEnd w 4).laneDrop w)) ∧
      (s.wl[w].state = .arming ∨ s.wl[w].state = .armed ∨ s.wl[w].state = .spanChange ∨ s.wl[w].state = .disarming ∨
        s.wl[w].state = .tripped ∨ s.wl[w].state = .cal →
        exec (.laneCal w) s = .next (((s.calTaken w).laneGive w 4).laneDrop w))) := by
  have h0 : ¬ (!s.hasLane w) = true := by rw [hl]; decide
  have hn : ¬ ((s.cmdWord (armNewA w)).getLsbD 2 && (s.cmdWord (armNewA w) &&& ~~~(bit32 2)).getLsbD 1) = true := by
    rw [Bool.and_eq_true_iff, BitVec.getLsbD_and, Bool.and_eq_true_iff]
    exact fun h => hy ⟨h.1, h.2.1⟩
  have hw := s.calTaken_within w
  have hheld : (s.calTaken w).laneHeld w = s.laneHeld w := by
    unfold State.laneHeld State.prepared State.dieAbsent
    rw [hw.pwrEq, hw.clkEq]
  have habs : (s.calTaken w).dieAbsent w = s.dieAbsent w := by unfold State.dieAbsent; rw [hw.clkEq]
  have hst : (s.calTaken w).wl[w].state = s.wl[w].state := by rw [hw.wlEq]
  have hcfg : (s.calTaken w).configured = s.configured := State.configured_congr hw.imgEq
  have hgov : (s.calTaken w).gov = s.gov := hw.govEq
  have hx : exec (.laneCal w) s = execLaneCal w s := rfl
  have hdef : (if (s.cmdWord (armNewA w)).getLsbD 2 && (s.armTake w 2).2.getLsbD 0 then ((s.armTake w 2).1.cmdTake (armNewA w) 1).laneGive w 1
      else (s.armTake w 2).1) = s.calTaken w := rfl
  rw [hx, execLaneCal, guarded_next hu]
  refine ⟨fun hh => ?_, fun hh hd => ?_, fun hh hd => ⟨fun hs => ?_, fun hs => ?_, fun hs => ?_⟩⟩
  all_goals refine congrArg Host.Outcome.next ((if_neg h0).trans ((if_neg hn).trans ?_))
  all_goals dsimp only
  all_goals rw [hdef, hheld, hh]
  · rfl
  · rw [habs, hd]; rfl
  · rw [habs, hd, hst, hs, hcfg]; rfl
  · rw [habs, hd, hst, hs, hgov]; rfl
  · rw [habs, hd, hst]
    rcases hs with hs | hs | hs | hs | hs | hs <;> rw [hs] <;> rfl
end

/-! ### What leaves for OFF -/

/-- A lane that has entered OFF shows zero in WLN_NCO_NOW, and waits for no LOAD. -/
structure LaneOffed (w : Lane) (s t : State) : Prop where
  lane : WlIs w ({ s.wl[w] with reason := if s.wl[w].state = .armed then 1 else s.wl[w].reason } : WLane).off s t
  load : (t.cmdWord (wlA w 0x20)).getLsbD 0 = false
  cmds : CmdsBut [armA w, armNewA w, wlA w 0x20] s t

/-- The shorter list of CMD words. -/
theorem CmdsBut.more {l m : List Nat} {s t : State} (h : CmdsBut l s t) (hm : ∀ a, a ∈ l → a ∈ m) : CmdsBut m s t :=
  fun a ha => h a fun hl => ha (hm a hl)

theorem arm_mem_mine (w : Lane) : ∀ a, a ∈ [armA w, armNewA w] → a ∈ [armA w, armNewA w, wlA w 0x20] := fun _ h =>
  List.mem_append_left [wlA w 0x20] h

theorem State.disarmTaken_mine (s : State) (w : Lane) : CmdsBut [armA w, armNewA w, wlA w 0x20] s (s.disarmTaken w) :=
  (s.disarmTaken_cmds w).more (arm_mem_mine w)

/-- A queued lane leaves the queue for OFF. -/
theorem laneUnqueued {s : State} {w : Lane} (hs : s.wl[w].state = .queued) :
    LaneOffed w s ((s.disarmTaken w).laneUnqueue w) ∧
      ((s.disarmTaken w).laneUnqueue w).gov = { s.gov with queue := s.gov.queue.filter (fun q => decide (q.lane ≠ w)) } ∧
      Within [.cmd, .more, .wl, .gov] s ((s.disarmTaken w).laneUnqueue w) ∧
      ∀ x, ArmPlain w 2 x s → ArmPlain w 0 (x &&& ~~~7) ((s.disarmTaken w).laneUnqueue w) := by
  have hw := s.disarmTaken_within w
  obtain ⟨u, hu⟩ : ∃ u : State, u = { s.disarmTaken w with
    gov := { (s.disarmTaken w).gov with queue := (s.disarmTaken w).gov.queue.filter (fun q => decide (q.lane ≠ w)) } } := ⟨_, rfl⟩
  have he : (s.disarmTaken w).laneUnqueue w = (u.laneOff w).laneCmdEnd w 7 := by rw [hu]; rfl
  have huw : Within [.gov] (s.disarmTaken w) u := hu ▸ Within.set_gov _ _
  have hv := u.laneOff_wl w
  rw [huw.wlEq, hw.wlEq] at hv
  have hov : s.wl[w].off = ({ s.wl[w] with reason := if s.wl[w].state = .armed then 1 else s.wl[w].reason } : WLane).off := by
    rw [if_neg (by rw [hs]; decide)]
  rw [he]
  refine ⟨⟨⟨?_, fun d hd => ?_⟩, u.laneOff_load w 7, ?_⟩, ?_, ?_, fun x hp => ?_⟩
  · rw [(State.laneCmdEnd_within _ w 7).wlEq, hv.self, hov]
  · rw [(State.laneCmdEnd_within _ w 7).wlEq, hv.but d hd, huw.wlEq, hw.wlEq]
  · exact State.laneCmdEnd_cmds (State.laneOff_cmds ((s.disarmTaken_mine w).trans (huw.cmdsBut _))) 7
  · rw [(State.laneCmdEnd_within _ w 7).govEq, (State.laneOff_within u w).govEq, hu]
    rfl
  · exact Within.seq (l := [.cmd, .more, .wl, .gov]) ((hw.seq (l := [.cmd, .more, .gov]) huw).seq (l := [.cmd, .more, .wl, .gov])
      (State.laneOff_within u w)) (State.laneCmdEnd_within _ w 7)
  · exact ((hp.disarmTaken.then huw).off).ends 7

/-- A lane leaves for OFF, at once or through the governor. -/
theorem laneLeaves (s : State) (w : Lane) :
    (s.disarmGov = true → ((s.disarmTaken w).laneDisarm w).wl[w].state = .disarming ∧
      ((s.disarmTaken w).laneDisarm w).gov = { s.gov with queue := govInsert { kind := .disarm, lane := w, takenAt := s.clk.now } s.gov.queue } ∧
      ∀ x, ArmPlain w 2 x s → ArmPlain w 0 (x &&& ~~~1) ((s.disarmTaken w).laneDisarm w)) ∧
    (s.disarmGov = false → LaneOffed w s ((s.disarmTaken w).laneDisarm w) ∧ ((s.disarmTaken w).laneDisarm w).gov = s.gov ∧
      ∀ x, ArmPlain w 2 x s → ArmPlain w 0 (x &&& ~~~7) ((s.disarmTaken w).laneDisarm w)) ∧
    WlBut w s ((s.disarmTaken w).laneDisarm w) ∧ CmdsBut [armA w, armNewA w, wlA w 0x20] s ((s.disarmTaken w).laneDisarm w) ∧
    Within [.cmd, .more, .wl, .gov] s ((s.disarmTaken w).laneDisarm w) := by
  have hw := s.disarmTaken_within w
  have hg : (s.disarmTaken w).disarmGov = s.disarmGov := State.effB_congr hw.effEq _ _
  have hv := (s.disarmTaken w).laneDisarm_wl w
  rw [hw.wlEq, hg] at hv
  have hbut : WlBut w s ((s.disarmTaken w).laneDisarm w) := fun d hd => (hv.but d hd).trans (by rw [hw.wlEq])
  have hcmds := State.laneDisarm_cmds (s.disarmTaken_mine w)
  have hparts : ∀ x, ArmPlain w 2 x s → ArmPlain w 0 (x &&& ~~~1) (((s.disarmTaken w).modWl w WLane.parted).laneCmdEnd w 1) := fun x hp =>
    (hp.disarmTaken.then (State.modWl_within _ w WLane.parted)).ends 1
  refine ⟨fun hd => ⟨?_, ?_, fun x hp => ?_⟩, fun hd => ⟨⟨⟨?_, hbut⟩, ?_, hcmds⟩, ?_, fun x hp => ?_⟩, hbut, hcmds,
    hw.seq (State.laneDisarm_within _ w)⟩
  · rw [hv.self, hd]; rfl
  · rw [State.laneDisarm_queued_gov (hg.trans hd), hw.govEq, hw.clkEq]
  · rw [State.laneDisarm_queued (hg.trans hd)]
    exact ((hparts x hp).then (State.modWl_within _ w _)).then (State.govJoin_within _ .disarm w)
  · rw [hv.self, hd]; rfl
  · rw [State.laneDisarm_off (hg.trans hd)]
    exact State.laneOff_load _ w 6
  · rw [State.laneDisarm_off_gov (hg.trans hd), hw.govEq]
  · rw [State.laneDisarm_off (hg.trans hd)]
    have h6 := ((hparts x hp).off).ends 6
    rwa [BitVec.and_assoc, show ~~~(1 : Word) &&& ~~~6 = ~~~7 by decide] at h6

/-! ### The statement -/

theorem State.armTaken_takes (s : State) (w : Lane) : Takes (armNewA w) 1 s (s.armTaken w 0) := by
  have h := s.cmdTake_takes (armNewA w) (bit32 0)
  rwa [show bit32 0 = 1 by decide] at h

theorem Takes.then {a : Nat} {m : Word} {s t u : State} {l : List Field} (h : Takes a m s t) (hw : Within l t u)
    (hc : Field.cmd ∉ l := by decide) (hm : Field.more ∉ l := by decide) : Takes a m s u := h.cmd_eq (hw.cmdEq hc) (hw.moreEq hm)

/-- A taken ARM, by what was written. -/
theorem ArmPlain.armTaken {w : Lane} {x : Word} {s : State} (h : ArmPlain w 1 x s) : ArmPlain w 0 x (s.armTaken w 0) := h.takeNew (bit32 0)

/-- A command that is dropped without an end of its bits leaves them as they are. -/
theorem ArmPlain.stays {w : Lane} {x : Word} {s : State} (h : ArmPlain w 0 x s) : ArmPlain w 0 (x &&& ~~~0) s := by
  rwa [show x &&& ~~~(0 : Word) = x from BitVec.and_allOnes]

theorem ArmPlain.dropped {w : Lane} {n x : Word} {s : State} (h : ArmPlain w n x s) : ArmPlain w n x (s.laneDrop w) :=
  h.then (State.setBit_within s _ 6)

/-- A DISARM that the lane does not take is dropped. -/
theorem laneDisarm_dropped (s : State) (w : Lane) :
    LaneDropped w s (((s.disarmTaken w).laneCmdEnd w 2).laneDrop w) ∧
      LaneDropped w s ((if (s.disarmTaken w).calLeaves w then (s.disarmTaken w).laneCmdEnd w 2 else s.disarmTaken w).laneDrop w) := by
  have hw := s.disarmTaken_within w
  have hc := s.disarmTaken_cmds w
  have hend := State.laneDrop_dropped (State.laneCmdEnd_cmds hc 2) (hw.seq (State.laneCmdEnd_within _ w 2))
  refine ⟨hend, ?_⟩
  split
  · exact hend
  · exact State.laneDrop_dropped hc hw

/-- An ARM that joins the queue, and one that starts a reconnection. -/
theorem laneArm_joined (s : State) (w : Lane) :
    WlIs w { s.wl[w] with state := .queued } s (((s.armTaken w 0).modWl w (fun l => { l with state := .queued })).govJoin .arm w) ∧
      (((s.armTaken w 0).modWl w (fun l => { l with state := .queued })).govJoin .arm w).gov =
        { s.gov with queue := govInsert { kind := .arm, lane := w, takenAt := s.clk.now } s.gov.queue } ∧
      Takes (armNewA w) 1 s (((s.armTaken w 0).modWl w (fun l => { l with state := .queued })).govJoin .arm w) ∧
      Within [.cmd, .more, .wl, .gov] s (((s.armTaken w 0).modWl w (fun l => { l with state := .queued })).govJoin .arm w) := by
  have hw := s.armTaken_within w 0
  obtain ⟨m, hm⟩ : ∃ m, m = (s.armTaken w 0).modWl w (fun l => { l with state := .queued }) := ⟨_, rfl⟩
  have hmw : Within [.wl] (s.armTaken w 0) m := hm ▸ State.modWl_within _ w _
  have hv : WlIs w { s.wl[w] with state := .queued } s m := hm ▸ (WlIs.of_eq hw.wlEq).modBy rfl
  have hj := State.govJoin_within m .arm w
  have hg : (m.govJoin .arm w).gov = { m.gov with queue := govInsert { kind := .arm, lane := w, takenAt := m.clk.now } m.gov.queue } := rfl
  rw [← hm]
  refine ⟨hv.same hj.wlEq, ?_, ((s.armTaken_takes w).then hmw).then hj, Within.seq (l := [.cmd, .more, .wl, .gov]) (hw.seq (l := [.cmd, .more, .wl]) hmw) hj⟩
  rw [hg, hmw.govEq, hmw.clkEq, hw.govEq, hw.clkEq]

theorem laneArm_reconnects (s : State) (w : Lane) :
    WlIs w { s.wl[w] with reconnect := true, due := s.clk.now + 1600 } s
        ((s.armTaken w 0).modWl w (fun l => { l with reconnect := true, due := s.clk.now + 1600 })) ∧
      Takes (armNewA w) 1 s ((s.armTaken w 0).modWl w (fun l => { l with reconnect := true, due := s.clk.now + 1600 })) ∧
      Within [.cmd, .more, .wl] s ((s.armTaken w 0).modWl w (fun l => { l with reconnect := true, due := s.clk.now + 1600 })) := by
  have hw := s.armTaken_within w 0
  have hm := State.modWl_within (s.armTaken w 0) w (fun l => { l with reconnect := true, due := s.clk.now + 1600 })
  exact ⟨(WlIs.of_eq hw.wlEq).modBy rfl, (s.armTaken_takes w).then hm, hw.seq hm⟩

/-- A CAL that joins the queue. -/
theorem laneCal_joined (s : State) (w : Lane) :
    ∃ t, t = ((s.calTaken w).modWl w (fun l => { l with state := .queued })).govJoin .cal w ∧ WlIs w { s.wl[w] with state := .queued } s t ∧
      t.gov = { s.gov with queue := govInsert { kind := .cal, lane := w, takenAt := s.clk.now } s.gov.queue } ∧
      CmdsBut [armA w, armNewA w] s t ∧ Within [.cmd, .more, .wl, .gov] s t ∧ (∀ x, ArmPlain w 4 x s → ArmPlain w 0 x t) ∧
      (∀ x, ArmPlain w 5 x s → ArmPlain w 0 (x &&& ~~~(1 &&& ~~~(s.laneRuns w))) t) := by
  have hw := s.calTaken_within w
  obtain ⟨m, hm⟩ : ∃ m, m = (s.calTaken w).modWl w (fun l => { l with state := .queued }) := ⟨_, rfl⟩
  have hmw : Within [.wl] (s.calTaken w) m := hm ▸ State.modWl_within _ w _
  have hv : WlIs w { s.wl[w] with state := .queued } s m := hm ▸ (WlIs.of_eq hw.wlEq).modBy rfl
  have hj := State.govJoin_within m .cal w
  have hg : (m.govJoin .cal w).gov = { m.gov with queue := govInsert { kind := .cal, lane := w, takenAt := m.clk.now } m.gov.queue } := rfl
  rw [← hm]
  refine ⟨_, rfl, hv.same hj.wlEq, ?_, ((s.calTaken_cmds w).trans (hmw.cmdsBut _)).trans (hj.cmdsBut _),
    Within.seq (l := [.cmd, .more, .wl, .gov]) (hw.seq (l := [.cmd, .more, .wl]) hmw) hj, fun x hp => (hp.calTaken.then hmw).then hj,
    fun x hp => (hp.calTaken_both.then hmw).then hj⟩
  rw [hg, hmw.govEq, hmw.clkEq, hw.govEq, hw.clkEq]

theorem and_not_or_self (x y : Word) : y &&& ~~~(x ||| y) = 0 := by
  rw [BitVec.not_or, BitVec.and_comm (~~~x), ← BitVec.and_assoc, BitVec.and_not_self]
  exact zero_and _

/-- A CAL that runs keeps its bit. -/
theorem State.laneRuns_cal {s : State} {w : Lane} (h : s.wl[w].state = .cal) : 4#32 &&& ~~~(s.laneRuns w) = 0 := by
  obtain ⟨x, hx⟩ : ∃ x, s.laneRuns w = x ||| 4 := by
    refine ⟨_, congrArg (fun y => _ ||| y) (if_pos ?_)⟩
    rw [decide_eq_true h, Bool.or_true, Bool.true_or, Bool.true_or]
  rw [hx]
  exact and_not_or_self x 4

/-- Settles O35: ARM, DISARM and CAL do in each state of the lane what R202 lists, and the queue of the governor gets what joins it. -/
theorem laneCommands : Obligations.LaneCommands := by
  unfold Obligations.LaneCommands
  intro s w hu hl l also further plain mine reads drop join off leaves waits inQueue yields
  have hreads : ∀ {m ends : Word} {t : State}, (∀ x, ArmPlain w m x s → ArmPlain w 0 (x &&& ~~~ends) t) → reads m ends t := fun h hp =>
    have ha := h _ ⟨hp.1, hp.2.1, hp.2.2, rfl⟩
    ⟨ha.new, ha.arm⟩
  have hdrop : ∀ {t : State}, LaneDropped w s t → drop t := fun h => ⟨h.flag, h.flags, h.cmds, h.frame⟩
  have hoff : ∀ {t : State}, LaneOffed w s t → off t := fun h => by
    refine ⟨?_, ?_, ?_, ?_, ?_, ?_, h.load, ?_, h.lane.but, h.cmds⟩ <;> rw [h.lane.self] <;> rfl
  have ht0 := s.armTaken_within w 0
  have hc0 := s.armTaken_cmds w 0
  obtain ⟨hdq, hdd, hda, hds, hdi, hdo⟩ := laneDisarm_acts hu hl
  obtain ⟨hdrop2, hdrop3⟩ := laneDisarm_dropped s w
  obtain ⟨hqueued, hnow, hbut, hmine, hframe⟩ := laneLeaves s w
  have hleaves : leaves ((s.disarmTaken w).laneDisarm w) :=
    ⟨fun hg => ⟨(hqueued hg).1, (hqueued hg).2.1, hreads (hqueued hg).2.2⟩,
      fun hg => ⟨hoff (hnow hg).1, (hnow hg).2.1, hreads (hnow hg).2.2⟩, ⟨hbut, hmine⟩, hframe⟩
  have hwaits : waits ((s.disarmTaken w).modWl w (fun l => { l with disarmHeld := true })) := by
    have hw := s.disarmTaken_within w
    have hm := State.modWl_within (s.disarmTaken w) w (fun l => { l with disarmHeld := true })
    have hv : WlIs w { s.wl[w] with disarmHeld := true } s ((s.disarmTaken w).modWl w (fun l => { l with disarmHeld := true })) :=
      (WlIs.of_eq hw.wlEq).modBy rfl
    exact ⟨hv.self, hv.but, (s.disarmTaken_cmds w).trans (hm.cmdsBut _), hreads fun x hp => (hp.disarmTaken.then hm).stays, hw.seq hm⟩
  have hcalEnd : drop (((s.calTaken w).laneCmdEnd w 4).laneDrop w) ∧ reads 4 4 (((s.calTaken w).laneCmdEnd w 4).laneDrop w) :=
    ⟨hdrop (State.laneDrop_dropped (State.laneCmdEnd_cmds (s.calTaken_cmds w) 4) ((s.calTaken_within w).seq (State.laneCmdEnd_within _ w 4))),
      hreads fun x hp => (hp.calTaken.ends 4).dropped⟩
  have hcalGive : drop (((s.calTaken w).laneGive w 4).laneDrop w) ∧ reads 4 (4#32 &&& ~~~(s.laneRuns w)) (((s.calTaken w).laneGive w 4).laneDrop w) :=
    ⟨hdrop (State.laneDrop_dropped (State.laneGive_cmds (s.calTaken_cmds w) 4) ((s.calTaken_within w).seq (State.laneGive_within _ w 4))),
      hreads fun x hp => by
        have h := hp.calTaken.gives 4
        rw [State.laneRuns_congr (s.calTaken_within w).wlEq (s.calTaken_within w).govEq (s.calTaken_within w).pwrEq
          (hp.calTaken.arm.trans hp.arm.symm)] at h
        exact h.dropped⟩
  refine ⟨fun hc hy => ?_, fun hc hy hh => ?_, fun hc hy hh => ⟨fun hd => ?_, fun hd => ?_⟩, fun hs => ?_, fun hs => ?_, fun hs => ?_,
    fun hs => ?_, fun hs => ⟨_, hdi hs, hdrop hdrop3⟩, fun h2 h1 => ?_, fun hy => ⟨fun hh => ?_, fun hh hd => ?_, fun hh hd => ?_⟩⟩
  · exact ⟨_, laneArm_yields hu hl hc hy, State.laneGive_cmds hc0 1, ht0.seq (State.laneGive_within _ w 1)⟩
  · exact ⟨_, laneArm_held hu hl hc hy hh, rfl, s.armTaken_takes w |>.then (State.hold_within _ _), ht0.seq (State.hold_within _ _)⟩
  · exact ⟨_, laneArm_absent hu hl hc hy hh hd, hdrop (State.laneDrop_dropped (State.laneCmdEnd_cmds hc0 1) (ht0.seq (State.laneCmdEnd_within _ w 1))),
      hreads fun x hp => (hp.armTaken.ends 1).dropped⟩
  · obtain ⟨hoffs, htrip, hque, harm, helse⟩ := laneArm_acts hu hl hc hy hh hd
    have hkept : drop ((s.armTaken w 0).laneDrop w) ∧ reads 1 0 ((s.armTaken w 0).laneDrop w) :=
      ⟨hdrop (State.laneDrop_dropped hc0 ht0), hreads fun x hp => hp.armTaken.stays.dropped⟩
    have hended : drop (((s.armTaken w 0).laneCmdEnd w 1).laneDrop w) ∧ reads 1 1 (((s.armTaken w 0).laneCmdEnd w 1).laneDrop w) :=
      ⟨hdrop (State.laneDrop_dropped (State.laneCmdEnd_cmds hc0 1) (ht0.seq (State.laneCmdEnd_within _ w 1))),
        hreads fun x hp => (hp.armTaken.ends 1).dropped⟩
    refine ⟨fun hs => ?_, fun hs hr => ?_, fun hs hr => ?_, fun hs => ?_, fun hs => ?_⟩
    · obtain ⟨hv, hg, ht, hf⟩ := laneArm_joined s w
      exact ⟨_, hoffs hs, hv.self, hg, hv.but, ht, hf⟩
    · have hr' : ¬ s.wl[w].reconnect = true := fun h => Bool.false_ne_true (hr.symm.trans h)
      obtain ⟨hv, ht, hf⟩ := laneArm_reconnects s w
      exact ⟨_, (htrip hs).trans (congrArg _ (if_neg hr')), hv.self, hv.but, ht, hf⟩
    · exact ⟨_, (htrip hs).trans (congrArg _ (if_pos hr)), s.armTaken_takes w, ht0⟩
    · rcases hs with hs | ⟨hs, hq⟩
      · exact ⟨_, harm hs, hkept⟩
      · exact ⟨_, (hque hs).trans (congrArg (fun u => Host.Outcome.next (State.laneDrop u w)) (if_pos hq)), hkept⟩
    · rcases hs with hs | hs | hs | hs | ⟨hs, hq⟩
      · exact ⟨_, helse (.inl hs), hended⟩
      · exact ⟨_, helse (.inr (.inl hs)), hended⟩
      · exact ⟨_, helse (.inr (.inr (.inl hs))), hended⟩
      · exact ⟨_, helse (.inr (.inr (.inr hs))), hended⟩
      · have hq' : ¬ s.gov.queue.any (fun q => decide (q.lane = w ∧ q.kind = .arm)) = true := fun h => Bool.false_ne_true (hq.symm.trans h)
        exact ⟨_, (hque hs).trans (congrArg (fun u => Host.Outcome.next (State.laneDrop u w)) (if_neg hq')), hended⟩
  · obtain ⟨h1, h2, h3, h4⟩ := laneUnqueued hs
    exact ⟨_, hdq hs, hoff h1, hreads h4, h2, h3⟩
  · rcases hs with hs | hs | ⟨hs, hi⟩
    · exact ⟨_, hdd (.inl hs), hleaves⟩
    · exact ⟨_, hdd (.inr hs), hleaves⟩
    · exact ⟨_, (hda hs).trans (congrArg _ (if_pos hi)), hleaves⟩
  · rcases hs with ⟨hs, hi⟩ | hs
    · exact ⟨_, (hda hs).trans (congrArg _ (if_neg (by rw [hi]; decide))), hwaits⟩
    · exact ⟨_, hds hs, hwaits⟩
  · exact ⟨_, hdo hs, hdrop hdrop2, hreads fun x hp => (hp.disarmTaken.ends 2).dropped⟩
  · exact ⟨_, laneCal_yields hu hl h2 h1, State.laneGive_cmds (s.armTaken_cmds w 2) 4, (s.armTaken_within w 2).seq (State.laneGive_within _ w 4)⟩
  · obtain ⟨hheld, -, -⟩ := laneCal_acts hu hl hy
    exact ⟨_, hheld hh, by rw [State.hold, (s.calTaken_within w).pwrEq], (s.calTaken_cmds w).trans ((State.hold_within _ _).cmdsBut _),
      (s.calTaken_within w).seq (State.hold_within _ _)⟩
  · obtain ⟨-, habs, -⟩ := laneCal_acts hu hl hy
    exact ⟨_, habs hh hd, hcalEnd⟩
  · obtain ⟨-, -, hacts⟩ := laneCal_acts hu hl hy
    obtain ⟨hoffs, hque, helse⟩ := hacts hh hd
    have hw := s.calTaken_within w
    refine ⟨fun hs hc => ?_, fun hs => ?_, fun hs => ?_, fun hs => ?_⟩
    · obtain ⟨t, ht, hv, hg, hcm, hf, h4, h5⟩ := laneCal_joined s w
      have hx : exec (.laneCal w) s = .next t := by
        rw [hoffs hs, ht]
        exact congrArg Host.Outcome.next (if_pos hc)
      have hm : CmdsBut [armA w, armNewA w, wlA w 0x20] s t := hcm.more (arm_mem_mine w)
      have hr : reads 4 0 t := hreads fun x hp => (h4 x hp).stays
      have hboth : also = 5#32 → plain 5#32 → t.cmdWord (armA w) = s.cmdWord (armA w) &&& ~~~(1#32 &&& ~~~(s.laneRuns w)) := fun _ hp =>
        (h5 _ ⟨hp.1, hp.2.1, hp.2.2, rfl⟩).arm
      exact ⟨t, hx, hv.self, hg, ⟨hv.but, hm⟩, hr, hboth, hf⟩
    · rcases hs with hs | ⟨hs, hq⟩
      · have hz : reads 4 0 (((s.calTaken w).laneGive w 4).laneDrop w) := by rw [← State.laneRuns_cal hs]; exact hcalGive.2
        exact ⟨_, helse (.inr (.inr (.inr (.inr (.inr hs))))), hcalGive.1, hz⟩
      · exact ⟨_, (hque hs).trans (congrArg (fun u => Host.Outcome.next (State.laneDrop u w)) (if_pos hq)),
          hdrop (State.laneDrop_dropped (s.calTaken_cmds w) hw), hreads fun x hp => hp.calTaken.stays.dropped⟩
    · rcases hs with ⟨hs, hc⟩ | ⟨hs, hq⟩
      · have hc' : ¬ s.configured = true := fun h => Bool.false_ne_true (hc.symm.trans h)
        have hx : exec (.laneCal w) s = .next (((s.calTaken w).laneCmdEnd w 4).laneDrop w) :=
          (hoffs hs).trans (congrArg Host.Outcome.next (if_neg hc'))
        exact ⟨_, hx, hcalEnd⟩
      · have hq' : ¬ s.gov.queue.any (fun q => decide (q.lane = w ∧ q.kind = .cal)) = true := fun h => Bool.false_ne_true (hq.symm.trans h)
        exact ⟨_, (hque hs).trans (congrArg (fun u => Host.Outcome.next (State.laneDrop u w)) (if_neg hq')), hcalEnd⟩
    · have hx : exec (.laneCal w) s = .next (((s.calTaken w).laneGive w 4).laneDrop w) := by
        rcases hs with hs | hs | hs | hs | hs
        · exact helse (.inl hs)
        · exact helse (.inr (.inl hs))
        · exact helse (.inr (.inr (.inl hs)))
        · exact helse (.inr (.inr (.inr (.inl hs))))
        · exact helse (.inr (.inr (.inr (.inr (.inl hs)))))
      exact ⟨_, hx, hcalGive⟩

end Sys2Proof.Machine
end

