-- ==== Sys2Proof/Proofs/Generators.lean ====
section
/-! PROOF. The NCO's loads, plan reads and actions (R180 to R185, R193). -/
namespace Sys2Proof.Machine

/-! ### What a run of the generator leaves of a lane -/

/-- A lane but for its band, its glide and its snapshots. -/
def WLane.calm (l : WLane) : WLane := { l.bare with glideEnd := none }

/-- A lane but for its NCO too. -/
def WLane.still (l : WLane) : WLane := { l.calm with nco := {} }

/-- No lane but w changes, and of w only the band, the glide and the snapshots. -/
def BandTurns (w : Lane) (s t : State) : Prop := t.wl[w].calm = s.wl[w].calm ∧ WlBut w s t

/-- No lane but w changes, and of w only the NCO, the band, the glide and the snapshots. -/
def NcoTurns (w : Lane) (s t : State) : Prop := t.wl[w].still = s.wl[w].still ∧ WlBut w s t

theorem BandTurns.refl (w : Lane) (s : State) : BandTurns w s s := ⟨rfl, fun _ _ => rfl⟩
theorem NcoTurns.refl (w : Lane) (s : State) : NcoTurns w s s := ⟨rfl, fun _ _ => rfl⟩

theorem BandTurns.trans {w : Lane} {s t u : State} (h : BandTurns w s t) (k : BandTurns w t u) : BandTurns w s u :=
  ⟨k.1.trans h.1, fun d hd => (k.2 d hd).trans (h.2 d hd)⟩
theorem NcoTurns.trans {w : Lane} {s t u : State} (h : NcoTurns w s t) (k : NcoTurns w t u) : NcoTurns w s u :=
  ⟨k.1.trans h.1, fun d hd => (k.2 d hd).trans (h.2 d hd)⟩

theorem BandTurns.mod (w : Lane) (s : State) {f : WLane → WLane} (hf : ∀ l, (f l).calm = l.calm) : BandTurns w s (s.modWl w f) :=
  ⟨by rw [State.modWl_self, hf], fun d hd => State.modWl_other s w f hd⟩
theorem NcoTurns.mod (w : Lane) (s : State) {f : WLane → WLane} (hf : ∀ l, (f l).still = l.still) : NcoTurns w s (s.modWl w f) :=
  ⟨by rw [State.modWl_self, hf], fun d hd => State.modWl_other s w f hd⟩

theorem BandTurns.of_eq {w : Lane} {s t : State} (h : t.wl = s.wl) : BandTurns w s t := ⟨by rw [h], fun d _ => by rw [h]⟩

theorem BandTurns.ite {w : Lane} {c : Prop} [Decidable c] {s t u : State} (h : BandTurns w s t) (k : BandTurns w s u) :
    BandTurns w s (if c then t else u) := by
  split
  · exact h
  · exact k

theorem NcoTurns.ite {w : Lane} {c : Prop} [Decidable c] {s t u : State} (h : NcoTurns w s t) (k : NcoTurns w s u) :
    NcoTurns w s (if c then t else u) := by
  split
  · exact h
  · exact k

theorem BandTurns.nco {w : Lane} {s t : State} (h : BandTurns w s t) : NcoTurns w s t := ⟨congrArg (fun l => { l with nco := {} }) h.1, h.2⟩

theorem BandTurns.bandAt (s : State) (w : Lane) (m : Nat) (f : BitVec 48) (g : Bool) : BandTurns w s (s.bandAt w m f g) := by
  unfold State.bandAt
  dsimp only
  have htrack : ∀ b, BandTurns w s (if b = s.wl[w].tracking then s else s.modWl w (fun l => { l with tracking := b, heldN := none })) :=
    fun b => BandTurns.ite (BandTurns.refl w s) (BandTurns.mod w s fun _ => rfl)
  generalize hx : (if (s.qbWord w).getLsbD 26 = s.wl[w].tracking then s else _) = x
  have hsx : BandTurns w s x := hx ▸ htrack _
  have hclip : ∀ b, BandTurns w x (x.setBitIf b (wlA w 0x11C) 9) := fun b => BandTurns.of_eq (State.setBitIf_within x _ _ _).wlEq
  exact BandTurns.ite (hsx.trans (hclip _)) ((hsx.trans (hclip _)).trans (BandTurns.mod w _ fun _ => rfl))

theorem BandTurns.snapAgain (s : State) (w : Lane) (m : Nat) : BandTurns w s (s.snapAgain w m) :=
  BandTurns.ite (BandTurns.mod w s fun _ => rfl) (BandTurns.refl w s)

theorem NcoTurns.ncoRun (s : State) (w : Lane) (k : Nat) : NcoTurns w s (s.ncoRun w k) := by
  unfold State.ncoRun State.modNco
  exact (BandTurns.bandAt s w _ _ true).nco.trans (NcoTurns.mod w _ fun _ => rfl)

theorem NcoTurns.ncoSteps (w : Lane) (to_ k : Nat) (s : State) : NcoTurns w s (s.ncoSteps w to_ k) := by
  induction k generalizing s with
  | zero => exact NcoTurns.refl w s
  | succ k ih =>
    unfold State.ncoSteps
    exact NcoTurns.ite (NcoTurns.refl w s) ((NcoTurns.ncoRun s w _).trans (ih _))

theorem NcoTurns.ncoUpTo (s : State) (w : Lane) (k : Nat) : NcoTurns w s (s.ncoUpTo w k) := by
  unfold State.ncoUpTo
  exact NcoTurns.ite (NcoTurns.refl w s)
    ((NcoTurns.ite (NcoTurns.ncoRun s w _) (NcoTurns.ncoSteps w _ _ s)).trans (NcoTurns.mod w _ fun _ => rfl))

theorem NcoTurns.ncoApply (s : State) (w : Lane) (m : Nat) (p : BitVec 256) : NcoTurns w s (s.ncoApply w m p) :=
  NcoTurns.mod w s fun _ => rfl

theorem NcoTurns.fold {α : Type} {w : Lane} {f : State → α → State} (h : ∀ u x, NcoTurns w u (f u x)) (l : List α) (s : State) :
    NcoTurns w s (l.foldl f s) :=
  foldl_rel (NcoTurns w) (NcoTurns.refl w) NcoTurns.trans f h l s

/-- What the generators leave of a lane's schedule and state. -/
theorem NcoTurns.kept {w : Lane} {s t : State} (h : NcoTurns w s t) :
    t.wl[w].acts = s.wl[w].acts ∧ t.wl[w].state = s.wl[w].state ∧ t.wl[w].actAt = s.wl[w].actAt :=
  ⟨(congrArg WLane.acts h.1 :), (congrArg WLane.state h.1 :), (congrArg WLane.actAt h.1 :)⟩

theorem BandTurns.kept {w : Lane} {s t : State} (h : BandTurns w s t) : t.wl[w].nco = s.wl[w].nco ∧ t.wl[w].actAt = s.wl[w].actAt :=
  ⟨(congrArg WLane.nco h.1 :), (congrArg WLane.actAt h.1 :)⟩

/-! ### Loads and plan reads (R181, R183, R185) -/

theorem wl30_ne (w : Lane) : wlA w 0x30 ∉ pendWords := wlA_not_pend w 0x30

theorem ncoLoad_merged {s : State} {w : Lane} (hu : s.undef = false) (hl : s.hasLane w = true) (h : s.wl[w].load ≠ .none) :
    exec (.ncoLoad w) s = .next (s.setBit (wlA w 0x30) 2) := by
  show execNcoLoad w s = _
  rw [execNcoLoad, guarded_next hu, if_pos hl, State.ncoLoad, if_pos h]

/-- A LOAD begins to wait for its action instant. -/
def State.loadWaits (s : State) (w : Lane) : State :=
  (s.cmdHold (wlA w 0x20) 1).modWl w (fun l => { l with
    load := if s.laneIdle w then .managementTick else .segmentStart, loadAt := s.clk.now })

theorem ncoLoad_waits {s : State} {w : Lane} (hu : s.undef = false) (hl : s.hasLane w = true) (h : s.wl[w].load = .none) :
    exec (.ncoLoad w) s = .next (s.loadWaits w) := by
  show execNcoLoad w s = _
  rw [execNcoLoad, guarded_next hu, if_pos hl, State.ncoLoad, if_neg fun hn => hn h]
  rfl

/-- A CMD bit that is held reads 1, and no other word changes. -/
theorem State.cmdHold_holds (s : State) (a : Nat) (m : Word) :
    (s.cmdHold a m).cmdWord a = s.cmdWord a ||| m ∧ CmdsBut [a] s (s.cmdHold a m) := by
  unfold State.cmdHold CmdsBut State.cmdWord
  dsimp only
  refine ⟨by rw [smGet_mod_self], fun b hb => ?_⟩
  rw [smGet_mod_other _ _ _ (List.ne_of_not_mem_cons hb), smGet_mod_other _ _ _ (List.ne_of_not_mem_cons hb)]
  exact ⟨rfl, rfl⟩

/-- A plan entry is read whole. -/
theorem ncoPlanRead_reads {s : State} {w : Lane} {n : Clu} {x : Nat × Nat} (hu : s.undef = false) (h : earliest (s.planAhead w) = some (n, x)) :
    ∃ u, u = s.upto (upTick (x.1 - (s.doutOf n - 32) * 1024)) ∧ exec (.ncoPlanRead w) s = .next
      (if s.wl[w].acts.any (fun a => decide (a.due = x.1 ∧ a.plan.map BitVec.toNat = some x.2)) then
        u.modWl w (fun l => { l with acts := l.acts.map (fun a =>
          if a.due = x.1 ∧ a.plan.map BitVec.toNat = some x.2 then { a with words := some (s.ncoPlanAt u.clk.now x.2) } else a) })
      else u.modWl w (fun l => { l with planReads := l.planReads ++ [(x.1, x.2, s.ncoPlanAt u.clk.now x.2)] })) := by
  refine ⟨_, rfl, ?_⟩
  show execNcoPlanRead w s = _
  rw [execNcoPlanRead, guarded_next hu]
  dsimp only
  rw [h]
  rfl

/-! ### Actions (R182, R184) -/

theorem any_actInsert (p : NcoAct → Bool) (a : NcoAct) (l : List NcoAct) : (actInsert a l).any p = (p a || l.any p) := by
  induction l with
  | nil => rfl
  | cons x l ih =>
    unfold actInsert
    split
    · rfl
    · rw [List.any_cons, ih, List.any_cons, Bool.or_left_comm]

/-- Ordering the actions of a cycle adds and drops none. -/
theorem any_foldl_actInsert (p : NcoAct → Bool) (l acc : List NcoAct) :
    (l.foldl (fun l a => actInsert a l) acc).any p = (l.any p || acc.any p) := by
  induction l generalizing acc with
  | nil => rfl
  | cons x l ih => rw [List.foldl_cons, ih, any_actInsert, List.any_cons, Bool.or_left_comm, Bool.or_assoc]

/-- The actions of cycle m, ordered. -/
def State.actsAt (s : State) (w : Lane) (m : Nat) : List NcoAct :=
  (s.wl[w].acts.filter (fun a => decide (s.cycleFrom a.due = m))).foldl (fun l a => actInsert a l) []

theorem State.actsAt_unread (s : State) (w : Lane) (m : Nat) :
    (s.actsAt w m).any (fun a => a.words.isNone) =
      !(s.wl[w].acts.filter (fun a => decide (s.cycleFrom a.due = m))).all (fun a => a.words.isSome) := by
  unfold State.actsAt
  rw [any_foldl_actInsert, List.any_nil, Bool.or_false, List.not_all_eq_any_not]
  congr 1
  funext a
  cases a.words <;> rfl

/-- The words that the actions of a cycle act with on a lane. -/
def actWords (w : Lane) (l : List NcoAct) : List (BitVec 256) :=
  (l.filterMap NcoAct.acting).filter (fun x => x.1 || planActsOn x.2 w) |>.map Prod.snd

/-- The actions of a cycle are spent. -/
def State.actsSpent (s : State) (w : Lane) (due m : Nat) : State :=
  (s.upto (upTick due)).modWl w (fun l => { l with
    acts := l.acts.filter (fun a => decide (s.cycleFrom a.due ≠ m)), planReads := l.planReads.filter (fun r => decide (due < r.1)) })

/-- The words of a cycle act one after the other. -/
def State.wordsAct (s : State) (w : Lane) (m : Nat) (words : List (BitVec 256)) : State :=
  let s := s.setBitIf (decide (1 < words.length) || (!words.isEmpty && decide (s.wl[w].actAt = some m))) (wlA w 0x30) 3
  let s := words.foldl (fun s p => s.ncoApply w m p) s
  if words.isEmpty then s else s.modWl w (fun l => { l with actAt := some m })

/-- The band follows the frequency, and the snapshots of the cycle too. -/
def State.bandAfter (s : State) (w : Lane) (m : Nat) : State := (s.bandAt w m s.wl[w].nco.freqNow true).snapAgain w m

theorem State.bandAfter_within (s : State) (w : Lane) (m : Nat) : Within [.flg, .wl, .msix] s (s.bandAfter w m) :=
  (State.bandAt_within s w m _ true).seq (State.snapAgain_within _ w m)

theorem State.wordsAct_within (s : State) (w : Lane) (m : Nat) (words : List (BitVec 256)) : Within [.flg, .wl, .msix] s (s.wordsAct w m words) := by
  unfold State.wordsAct
  refine Within.ite ?_ (Within.step ?_ (State.modWl_within _ w _) rfl) <;>
    exact Within.fold ((State.setBitIf_within s _ _ _).mono rfl) fun u p h => h.step (State.ncoApply_within u w m p) rfl

section
variable {s : State} {w : Lane} {due : Nat} (hu : s.undef = false) (hd : minDue s.wl[w].acts = some due)
include hu hd

theorem ncoAction_waits (h : (s.wl[w].acts.filter (fun a => decide (s.cycleFrom a.due = s.cycleFrom due))).all (fun a => a.words.isSome) = false) :
    exec (.ncoAction w) s = .next s := by
  have hn := s.actsAt_unread w (s.cycleFrom due)
  rw [h] at hn
  show execNcoAction w s = _
  rw [execNcoAction, guarded_next hu]
  dsimp only
  rw [hd]
  exact congrArg Host.Outcome.next (if_pos hn)

theorem ncoAction_spent (h : (s.wl[w].acts.filter (fun a => decide (s.cycleFrom a.due = s.cycleFrom due))).all (fun a => a.words.isSome) = true)
    (hr : s.wl[w].nco.running = false) : exec (.ncoAction w) s = .next (s.actsSpent w due (s.cycleFrom due)) := by
  have hn := s.actsAt_unread w (s.cycleFrom due)
  rw [h] at hn
  have hrun : (!(s.actsSpent w due (s.cycleFrom due)).wl[w].nco.running) = true := by
    rw [State.actsSpent, State.modWl_self, State.upto_wl, hr]; rfl
  show execNcoAction w s = _
  rw [execNcoAction, guarded_next hu]
  dsimp only
  rw [hd]
  exact congrArg Host.Outcome.next ((if_neg (fun e => Bool.false_ne_true (hn.symm.trans e))).trans (if_pos hrun))

theorem ncoAction_acts (h : (s.wl[w].acts.filter (fun a => decide (s.cycleFrom a.due = s.cycleFrom due))).all (fun a => a.words.isSome) = true)
    (hr : s.wl[w].nco.running = true) :
    exec (.ncoAction w) s = .next ((((s.actsSpent w due (s.cycleFrom due)).ncoUpTo w (s.cycleFrom due)).wordsAct w (s.cycleFrom due)
      (actWords w (s.actsAt w (s.cycleFrom due)))).bandAfter w (s.cycleFrom due)) := by
  have hn := s.actsAt_unread w (s.cycleFrom due)
  rw [h] at hn
  have hrun : ¬ (!(s.actsSpent w due (s.cycleFrom due)).wl[w].nco.running) = true := by
    rw [State.actsSpent, State.modWl_self, State.upto_wl, hr]; decide
  show execNcoAction w s = _
  rw [execNcoAction, guarded_next hu]
  dsimp only
  rw [hd]
  exact congrArg Host.Outcome.next ((if_neg (fun e => Bool.false_ne_true (hn.symm.trans e))).trans (if_neg hrun))
end

theorem BandTurns.bandAfter (s : State) (w : Lane) (m : Nat) : BandTurns w s (s.bandAfter w m) :=
  (BandTurns.bandAt s w m _ true).trans (BandTurns.snapAgain _ w m)

/-- The words that act leave the schedule and the state of the lane. -/
theorem State.wordsAct_kept (s : State) (w : Lane) (m : Nat) (words : List (BitVec 256)) :
    (s.wordsAct w m words).wl[w].acts = s.wl[w].acts ∧ (s.wordsAct w m words).wl[w].state = s.wl[w].state ∧ WlBut w s (s.wordsAct w m words) := by
  unfold State.wordsAct
  dsimp only
  generalize hx : s.setBitIf _ (wlA w 0x30) 3 = x
  have hsx : NcoTurns w s x := (BandTurns.of_eq (hx ▸ (State.setBitIf_within s _ _ _).wlEq)).nco
  have ht := hsx.trans (NcoTurns.fold (fun u p => NcoTurns.ncoApply u w m p) words x)
  obtain ⟨ha, hst, -⟩ := ht.kept
  split
  · exact ⟨ha, hst, ht.2⟩
  · rw [State.modWl_self]
    exact ⟨ha, hst, fun d hd => (State.modWl_other _ w _ hd).trans (ht.2 d hd)⟩

/-- What one word makes of an NCO at cycle m. -/
def Nco.applied (x : Nco) (m : Nat) (p : BitVec 256) : Nco :=
  let f := if p.getLsbD 159 then BitVec.ofNat 48 (bitsOf p.toNat 31 0 + 2 ^ 32 * bitsOf p.toNat 47 32) else x.freq
  { x with
    freq := f
    chirp := if p.getLsbD 158 then BitVec.ofNat 48 (bitsOf p.toNat 95 64 + 2 ^ 32 * bitsOf p.toNat 111 96) else x.chirp
    phaseOfs := if p.getLsbD 157 then BitVec.ofNat 16 (bitsOf p.toNat 63 48) else x.phaseOfs
    acc := if bitsOf p.toNat 156 155 = 1 then 0 else if bitsOf p.toNat 156 155 = 2 then f * BitVec.ofNat 48 m else x.acc
    freqLoaded := x.freqLoaded || p.getLsbD 159 }

theorem State.ncoApply_nco (s : State) (w : Lane) (m : Nat) (p : BitVec 256) : (s.ncoApply w m p).wl[w].nco = s.wl[w].nco.applied m p := by
  unfold State.ncoApply
  dsimp only
  rw [State.modWl_self]
  rfl

/-- One word acts. -/
theorem State.wordsAct_one (s : State) (w : Lane) (m : Nat) (p : BitVec 256) :
    (s.wordsAct w m [p]).wl[w].nco = s.wl[w].nco.applied m p ∧ (s.wordsAct w m [p]).wl[w].actAt = some m ∧
      (s.wl[w].actAt = some m → ((s.wordsAct w m [p]).flag (wlA w 0x30)).getLsbD 3 = true) := by
  have he : s.wordsAct w m [p] = ((s.setBitIf (decide (s.wl[w].actAt = some m)) (wlA w 0x30) 3).ncoApply w m p).modWl w
      (fun l => { l with actAt := some m }) := rfl
  rw [he, State.modWl_self]
  refine ⟨?_, rfl, fun h => ?_⟩
  · show (State.ncoApply _ w m p).wl[w].nco = _
    rw [State.ncoApply_nco, (State.setBitIf_within s _ _ _).wlEq]
  · exact State.flagBit_setBitIf s (decide_eq_true h) (wl30_ne w) (bit32_self (by decide))

theorem State.actsAt_one {s : State} {w : Lane} {m : Nat} {a : NcoAct} (h : s.wl[w].acts.filter (fun a => decide (s.cycleFrom a.due = m)) = [a]) :
    s.actsAt w m = [a] := by
  unfold State.actsAt
  rw [h]
  rfl

theorem actWords_one {w : Lane} {a : NcoAct} {p : BitVec 256} (hw : a.words = some p) (hp : a.plan = none ∨ planActsOn p w = true) :
    actWords w [a] = [p] := by
  have hon : (a.plan.isNone || planActsOn p w) = true := by
    rcases hp with hp | hp
    · rw [hp]; rfl
    · rw [hp, Bool.or_true]
  unfold actWords NcoAct.acting
  simp only [List.filterMap_cons, List.filterMap_nil, hw, Option.map_some, List.filter_cons, hon, if_pos, List.filter_nil, List.map_cons, List.map_nil]

/-- What an action leaves beside the NCO. -/
theorem ncoAction_frame {s : State} {w : Lane} (due m : Nat) (words : List (BitVec 256)) :
    ∃ t, t = (((s.actsSpent w due m).ncoUpTo w m).wordsAct w m words).bandAfter w m ∧
      t.wl[w].acts = s.wl[w].acts.filter (fun a => decide (s.cycleFrom a.due ≠ m)) ∧ t.wl[w].state = s.wl[w].state ∧ WlBut w s t ∧
      t.clk.now = max s.clk.now (upTick due) := by
  refine ⟨_, rfl, ?_⟩
  have hspent : WlIs w { s.wl[w] with acts := s.wl[w].acts.filter (fun a => decide (s.cycleFrom a.due ≠ m))
                                      planReads := s.wl[w].planReads.filter (fun r => decide (due < r.1)) } s (s.actsSpent w due m) :=
    ((WlIs.refl w s).same (u := s.upto (upTick due)) rfl).modBy rfl
  obtain ⟨ha1, hs1, -⟩ := (NcoTurns.ncoUpTo (s.actsSpent w due m) w m).kept
  have hb1 := (NcoTurns.ncoUpTo (s.actsSpent w due m) w m).2
  obtain ⟨ha2, hs2, hb2⟩ := ((s.actsSpent w due m).ncoUpTo w m).wordsAct_kept w m words
  have hband := BandTurns.bandAfter (((s.actsSpent w due m).ncoUpTo w m).wordsAct w m words) w m
  obtain ⟨ha3, hs3, -⟩ := hband.nco.kept
  refine ⟨?_, ?_, fun d hd => (hband.2 d hd).trans ((hb2 d hd).trans ((hb1 d hd).trans (hspent.but d hd))), ?_⟩
  · rw [ha3, ha2, ha1, hspent.self]
  · rw [hs3, hs2, hs1, hspent.self]
  · rw [(State.bandAfter_within _ w m).clkEq, (State.wordsAct_within _ w m words).clkEq, (State.ncoUpTo_within _ w m).clkEq]
    rfl

theorem ncoPlanRead_leaves {s : State} {w : Lane} {n : Clu} {x : Nat × Nat} (hu : s.undef = false) (h : earliest (s.planAhead w) = some (n, x)) :
    let at_ := max s.clk.now (upTick (x.1 - (s.doutOf n - 32) * 1024))
    Gives (.ncoPlanRead w) s (fun t =>
      WlIs w (if s.wl[w].acts.any (fun a => decide (a.due = x.1 ∧ a.plan.map BitVec.toNat = some x.2)) then
          { s.wl[w] with acts := s.wl[w].acts.map (fun a =>
            if a.due = x.1 ∧ a.plan.map BitVec.toNat = some x.2 then { a with words := some (s.ncoPlanAt at_ x.2) } else a) }
        else { s.wl[w] with planReads := s.wl[w].planReads ++ [(x.1, x.2, s.ncoPlanAt at_ x.2)] }) s t ∧
      t.clk.now = at_ ∧ Within [.clk, .wl] s t) := by
  intro at_
  obtain ⟨u, hu', hread⟩ := ncoPlanRead_reads hu h
  have hnow : u.clk.now = at_ := by rw [hu']; rfl
  have hv : WlIs w s.wl[w] s u := (WlIs.refl w s).same (by rw [hu']; rfl)
  have hw : Within [.clk] s u := hu' ▸ State.upto_within s _
  rw [hnow] at hread
  refine ⟨_, hread, ?_⟩
  split
  · exact ⟨hv.modBy rfl, hnow, hw.seq (State.modWl_within u w _)⟩
  · exact ⟨hv.modBy rfl, hnow, hw.seq (State.modWl_within u w _)⟩

/-- One action, read, acts on the NCO as the run of the generator has left it. -/
theorem ncoAction_one {s : State} {w : Lane} {due : Nat} {a : NcoAct} {p : BitVec 256} (hu : s.undef = false) (hd : minDue s.wl[w].acts = some due)
    (hr : s.wl[w].nco.running = true) (h1 : s.wl[w].acts.filter (fun a => decide (s.cycleFrom a.due = s.cycleFrom due)) = [a])
    (hw : a.words = some p) (hp : a.plan = none ∨ planActsOn p w = true) :
    Gives (.ncoAction w) s (fun t =>
      t.wl[w].nco = (((s.actsSpent w due (s.cycleFrom due)).ncoUpTo w (s.cycleFrom due)).wl[w].nco).applied (s.cycleFrom due) p ∧
      t.wl[w].actAt = some (s.cycleFrom due) ∧ (s.wl[w].actAt = some (s.cycleFrom due) → (t.flag (wlA w 0x30)).getLsbD 3 = true)) := by
  have hx := ncoAction_acts hu hd (by rw [h1]; simp [hw]) hr
  rw [State.actsAt_one h1, actWords_one hw hp] at hx
  have hturn := NcoTurns.ncoUpTo (s.actsSpent w due (s.cycleFrom due)) w (s.cycleFrom due)
  obtain ⟨-, -, hat⟩ := hturn.kept
  have hs : (s.actsSpent w due (s.cycleFrom due)).wl[w].actAt = s.wl[w].actAt := by rw [State.actsSpent, State.modWl_self]; rfl
  obtain ⟨hn, ha, hf⟩ := ((s.actsSpent w due (s.cycleFrom due)).ncoUpTo w (s.cycleFrom due)).wordsAct_one w (s.cycleFrom due) p
  generalize ((s.actsSpent w due (s.cycleFrom due)).ncoUpTo w (s.cycleFrom due)).wordsAct w (s.cycleFrom due) [p] = m at hx hn ha hf
  obtain ⟨hbn, hba⟩ := (BandTurns.bandAfter m w (s.cycleFrom due)).kept
  refine ⟨_, hx, hbn.trans hn, hba.trans ha, fun hl => ?_⟩
  have hrun := (Runs.bandAt m w (s.cycleFrom due) m.wl[w].nco.freqNow true).trans (Runs.snapAgain _ w (s.cycleFrom due))
  exact hrun.flags _ _ (wl30_ne w) (hf (hat.trans (hs.trans hl)))

/-- Settles O33: a LOAD waits, a plan entry is read whole, and at its cycle the action changes the NCO as its words say. -/
theorem generatorActions : Obligations.GeneratorActions := by
  unfold Obligations.GeneratorActions
  intro s w hu l
  refine ⟨fun hl => ⟨fun h => ?_, fun h => ?_⟩, fun n x hx => ?_, fun due hdue => ?_, fun g hg => ?_⟩
  · exact ⟨_, ncoLoad_merged hu hl h, State.flag_setBit_self s 2 (wl30_ne w), (FlagsBut.refl _ s).setBit 2 (List.mem_singleton_self _),
      State.setBit_within s _ 2⟩
  · obtain ⟨hh, hc⟩ := s.cmdHold_holds (wlA w 0x20) 1
    have hm := State.modWl_within (s.cmdHold (wlA w 0x20) 1) w (fun l => { l with
      load := if s.laneIdle w then .managementTick else .segmentStart, loadAt := s.clk.now })
    have hv : WlIs w { s.wl[w] with load := if s.laneIdle w then .managementTick else .segmentStart, loadAt := s.clk.now } s (s.loadWaits w) :=
      ((WlIs.refl w s).same (u := s.cmdHold (wlA w 0x20) 1) rfl).modBy rfl
    exact ⟨_, ncoLoad_waits hu hl h, hv.self, hv.but, hh, hc.trans (hm.cmdsBut _), (State.cmdHold_within s _ 1).seq hm⟩
  · intro acting at_ words
    obtain ⟨t, ht, hv, hnow, hf⟩ := ncoPlanRead_leaves hu hx
    exact ⟨t, ht, fun ha => hv.self.trans (if_pos ha), fun ha => hv.self.trans (if_neg fun e => Bool.false_ne_true (ha.symm.trans e)),
      hv.but, hnow, hf⟩
  · intro m left u x read
    refine ⟨fun h => ⟨s, ncoAction_waits hu hdue h, rfl⟩, fun h hr => ⟨_, ncoAction_spent hu hdue h hr, rfl⟩, fun h hr => ?_,
      fun a p hr hone hwords hon => ncoAction_one hu hdue hr hone hwords hon⟩
    have hx := ncoAction_acts hu hdue h hr
    obtain ⟨t, ht, ha, hs, hb, hnow⟩ := ncoAction_frame (s := s) (w := w) due (s.cycleFrom due) (actWords w (s.actsAt w (s.cycleFrom due)))
    rw [← ht] at hx
    exact ⟨t, hx, ha, hs, hb, hnow, execNcoAction_within w s hx⟩
  · have hx : exec (.qbGlideEnd w) s = .next ((s.upto (s.cycleAt g / 1024)).modWl w (fun l => { l with glideEnd := none })) := by
      show execQbGlideEnd w s = _
      rw [execQbGlideEnd, guarded_next hu]
      rw [show s.wl[w].glideEnd = some g from hg]
    have hv : WlIs w { s.wl[w] with glideEnd := none } s ((s.upto (s.cycleAt g / 1024)).modWl w (fun l => { l with glideEnd := none })) :=
      ((WlIs.refl w s).same (u := s.upto (s.cycleAt g / 1024)) rfl).modBy rfl
    exact ⟨_, hx, hv.self, hv.but, rfl, (State.upto_within s _).seq (State.modWl_within _ w _)⟩

end Sys2Proof.Machine
end

