-- ==== Sys2Proof/Proofs/Tiles.lean ====
section
/-! PROOF. What the tiles' arbitration leaves alone (R358, R359), and the modulator's cycles (R166 to R197). -/
namespace Sys2Proof.Machine

/-! ### The tiles' arbitration counts conflicts, and nothing else -/

/-- The conflict counters of the masters (R359). -/
def conflictCtrs : List Nat := (List.range 44).map (fun k => memA (4 * k))

theorem conflict_mem {m : Nat} (h : m < 44) : memA (4 * m) ∈ conflictCtrs := List.mem_map.mpr ⟨m, List.mem_range.mpr h, rfl⟩

theorem CtrsBut.of_eq {l : List Nat} {s t : State} (h : t.ctr = s.ctr) : CtrsBut l s t := fun a _ => counter_of_ctr_eq h a

theorem State.tuneGranted_ctr (s : State) (tile t : Nat) : (s.tuneGranted tile t).ctr = s.ctr := by
  unfold State.tuneGranted State.tuneAsk
  split
  · rfl
  · dsimp only
    split <;> rfl

theorem CtrsBut.conflicts {s t : State} (h : CtrsBut conflictCtrs s t) (l : List Nat) (hl : ∀ m ∈ l, m < 44) :
    CtrsBut conflictCtrs s (l.foldl (fun s m => s.count (memA (4 * m)) 1) t) := by
  induction l generalizing t with
  | nil => exact h
  | cons m l ih =>
    exact ih (h.count 1 (conflict_mem (hl m (List.mem_cons_self ..)))) fun k hk => hl k (List.mem_cons_of_mem _ hk)

theorem Arb.masters_lt {b : Arb} {t m : Nat} (h : m ∈ b.masters t) : m < 44 := List.mem_range.mp (List.mem_filter.mp h).1

/-- What the arbitration of a tile leaves: of the counters all but the conflicts, and of the clocks all but the tick. -/
structure ArbSteps (s t : State) : Prop where
  ctrs : CtrsBut conflictCtrs s t
  clk : { t.clk with now := 0 } = { s.clk with now := 0 }

theorem ArbSteps.refl (s : State) : ArbSteps s s := ⟨CtrsBut.refl _ s, rfl⟩
theorem ArbSteps.trans {s t u : State} (h : ArbSteps s t) (k : ArbSteps t u) : ArbSteps s u := ⟨h.ctrs.trans k.ctrs, k.clk.trans h.clk⟩
theorem ArbSteps.of_eq {s t : State} (h : t.ctr = s.ctr) (hc : t.clk = s.clk) : ArbSteps s t := ⟨CtrsBut.of_eq h, by rw [hc]⟩

theorem State.tuneGranted_steps (s : State) (tile t : Nat) : ArbSteps s (s.tuneGranted tile t) :=
  ArbSteps.of_eq (s.tuneGranted_ctr tile t) (State.tuneGranted_within s tile t).clkEq

theorem State.arbTick_steps (s : State) (tile t : Nat) : ArbSteps s (s.arbTick tile t).1 := by
  unfold State.arbTick
  dsimp only
  split
  · exact ArbSteps.refl s
  · rename_i x c _
    dsimp only
    generalize hm : (((smGet (fun _ => ({} : Arb)) s.mem.arb tile).masters t).filter (fun m => decide (m ≠ x.1.val))).foldl
        (fun s m => s.count (memA (4 * m)) 1) (s.upto t) = m
    have hsm : ArbSteps s m := by
      refine ⟨hm ▸ CtrsBut.conflicts (CtrsBut.of_eq rfl) _ fun m hm => Arb.masters_lt (List.mem_filter.mp hm).1, ?_⟩
      rw [← hm, foldl_keeps State.clk _ _ (fun u k => (State.count_within u _ 1).clkEq) (s.upto t)]
      rfl
    split
    · have hm' : ∀ f, ArbSteps s (m.modMem f) := fun f => hsm.trans (ArbSteps.of_eq rfl rfl)
      exact (hm' _).trans (State.tuneGranted_steps _ tile t)
    · exact hsm.trans (ArbSteps.of_eq rfl rfl)

theorem State.arbRun_steps (tile : Nat) (x : Fin 44 × Nat) (fuel : Nat) (s : State) : ArbSteps s (s.arbRun tile x fuel).1 := by
  induction fuel generalizing s with
  | zero => exact ArbSteps.refl s
  | succ fuel ih =>
    unfold State.arbRun
    split
    · exact ArbSteps.refl s
    · rename_i t _
      dsimp only
      split
      · exact s.arbTick_steps tile t
      · exact (s.arbTick_steps tile t).trans (ih _)

theorem State.tileGrant_steps (s : State) (tile : Nat) (m : Fin 44) (t : Nat) (l : List (Fin 44 × Nat)) :
    ArbSteps s (s.tileGrant tile m t l).1 := by
  unfold State.tileGrant
  dsimp only
  have hm : ∀ f, ArbSteps s (s.modMem f) := fun f => ArbSteps.of_eq rfl rfl
  exact (hm _).trans (State.arbRun_steps tile _ _ _)

/-- What the reads of a reader leave: no counter but the conflicts, and no time passes. -/
structure TileReads (s t : State) : Prop where
  ctrs : CtrsBut conflictCtrs s t
  clk : t.clk = s.clk

theorem TileReads.refl (s : State) : TileReads s s := ⟨CtrsBut.refl _ s, rfl⟩
theorem TileReads.trans {s t u : State} (h : TileReads s t) (k : TileReads t u) : TileReads s u := ⟨h.ctrs.trans k.ctrs, k.clk.trans h.clk⟩

theorem State.readerAsks_reads (s : State) (r : Fin 20) (slot t : Nat) : TileReads s (s.readerAsks r slot t) := by
  unfold State.readerAsks
  split
  · have h := s.tileGrant_steps (tileOf slot) (Fin.ofNat 44 r.val) t []
    exact ⟨h.ctrs.trans (CtrsBut.of_eq rfl), (congrArg (fun c : Clock => { c with now := s.clk.now }) h.clk :)⟩
  · exact TileReads.refl s

theorem State.readerReads_reads (s : State) (n : Clu) (p : Play) (r : Fin 20) (i : Nat) : TileReads s (s.readerReads n p r i) := by
  unfold State.readerReads
  refine foldl_rel TileReads TileReads.refl TileReads.trans _ (fun u x => ?_) _ s
  split
  · exact u.readerAsks_reads r _ _
  · exact TileReads.refl u

theorem State.laneReads_reads (s : State) (w : Lane) (plays : Option Clu) (m at_ : Nat) : TileReads s (s.laneReads w plays m at_) := by
  unfold State.laneReads
  split
  · exact TileReads.refl s
  · dsimp only
    split
    · exact TileReads.refl s
    · exact s.readerReads_reads _ _ _ _

theorem State.laneReads_none (s : State) (w : Lane) (m at_ : Nat) : s.laneReads w none m at_ = s := rfl

/-! ### The NCO up to a cycle (R177) -/

theorem State.ncoRun_nco (s : State) (w : Lane) (k : Nat) : (s.ncoRun w k).wl[w].nco = s.wl[w].nco.run k := by
  have hb := (BandTurns.bandAt s w s.wl[w].nco.m s.wl[w].nco.freqNow true).kept.1
  unfold State.ncoRun State.modNco
  dsimp only
  rw [State.modWl_self]
  exact congrArg (fun x : Nco => x.run k) hb

theorem Nco.run_m (x : Nco) (k : Nat) : (x.run k).m = k ∧ (x.run k).running = x.running := ⟨rfl, rfl⟩

/-- The chirp steps bring the NCO to the cycle, where their number suffices. -/
theorem State.ncoSteps_m (w : Lane) (to_ k : Nat) (s : State) (hm : s.wl[w].nco.m ≤ to_) (hk : to_ ≤ s.wl[w].nco.m ∨ to_ ≤ 16 * (s.wl[w].nco.m / 16 + k)) :
    (s.ncoSteps w to_ k).wl[w].nco.m = to_ ∧ (s.ncoSteps w to_ k).wl[w].nco.running = s.wl[w].nco.running := by
  induction k generalizing s with
  | zero =>
    unfold State.ncoSteps
    exact ⟨by omega, rfl⟩
  | succ k ih =>
    unfold State.ncoSteps
    dsimp only
    split
    · exact ⟨by omega, rfl⟩
    · have hn := s.ncoRun_nco w (min to_ ((s.wl[w].nco.m / 16 + 1) * 16))
      obtain ⟨h1, h2⟩ := ih (s.ncoRun w (min to_ ((s.wl[w].nco.m / 16 + 1) * 16))) (by rw [hn]; exact Nat.min_le_left _ _)
        (by
          rw [hn, (Nco.run_m _ _).1]
          rcases Nat.le_total to_ ((s.wl[w].nco.m / 16 + 1) * 16) with h | h
          · exact .inl (by rw [Nat.min_eq_left h])
          · rw [Nat.min_eq_right h]; omega)
      exact ⟨h1, h2.trans (by rw [hn]; rfl)⟩

theorem State.ncoUpTo_m {s : State} {w : Lane} {k : Nat} (hr : s.wl[w].nco.running = true) (hm : s.wl[w].nco.m ≤ k) :
    (s.ncoUpTo w k).wl[w].nco.m = k ∧ (s.ncoUpTo w k).wl[w].nco.running = true := by
  unfold State.ncoUpTo
  dsimp only
  split
  · rename_i h
    rw [hr] at h
    have : k ≤ s.wl[w].nco.m := by simpa using h
    exact ⟨by omega, hr⟩
  · rw [State.modWl_self]
    dsimp only
    split
    · rw [s.ncoRun_nco]
      exact ⟨rfl, hr⟩
    · obtain ⟨h1, h2⟩ := s.ncoSteps_m w k ((k - s.wl[w].nco.m) / 16 + 2) hm (.inr (by omega))
      exact ⟨h1, h2.trans hr⟩

/-- One cycle on. -/
theorem State.ncoUpTo_next {s : State} {w : Lane} {m : Nat} (hr : s.wl[w].nco.running = true) (hm : s.wl[w].nco.m = m) :
    (s.ncoUpTo w (m + 1)).wl[w].nco = s.wl[w].nco.run (m + 1) := by
  have hgo : ¬ (!s.wl[w].nco.running || decide (m + 1 ≤ s.wl[w].nco.m)) = true := by rw [hr, hm]; simp
  unfold State.ncoUpTo
  dsimp only
  rw [if_neg hgo, State.modWl_self]
  dsimp only
  split
  · exact s.ncoRun_nco w _
  · have h2 : (m + 1 - s.wl[w].nco.m) / 16 + 2 = 1 + 1 := by omega
    have hn := s.ncoRun_nco w (min (m + 1) ((s.wl[w].nco.m / 16 + 1) * 16))
    have hmin : min (m + 1) ((s.wl[w].nco.m / 16 + 1) * 16) = m + 1 := by omega
    rw [h2, State.ncoSteps, if_neg (by omega)]
    rw [State.ncoSteps, if_pos (by rw [hn, hmin]; exact le_refl _), hn, hmin]

/-! ### A modulator cycle (R177, R178, R189, R190, R197) -/

/-- The lane as a modulator cycle finds it: the generator has come to cycle m. -/
def State.cycleFound (s : State) (w : Lane) (m : Nat) : State := (s.upto (s.cycleAt m / 1024)).ncoUpTo w m

/-- The lane's word of a cycle, and whether the mixer limited it. -/
def State.cycleWord (s : State) (w : Lane) (plays : Option Clu) (p : BitVec 20) (d : Datapath × (Int × Int) × Bool) : Int × Bool :=
  if plays.isSome then s.mix w p d.2.1.1 d.2.1.2 else (signedOf 18 (s.effF (wlA w 0x104) 17 0), false)

/-- The datapath has stepped, and what the gain stage limited counts. -/
def State.pathStepped (s : State) (w : Lane) (d : Datapath × (Int × Int) × Bool) (ptr : Nat) : State :=
  (s.satCount w d.2.2 0).modWl w (fun l => { l with path := d.1, demPtr := ptr })

theorem modulatorCycle_eq {s : State} {w : Lane} {m : Nat} {u v : State} {d : Datapath × (Int × Int) × Bool} {y : Int × Bool}
    (hu : s.undef = false) (hr : s.wl[w].nco.running = true)
    (hm : m = max s.wl[w].nco.m (s.cycleFrom (s.clk.now * 1024))) (hun : u = s.cycleFound w m)
    (hv : v = u.laneReads w (u.lanePlays w (s.cycleAt m)) m (s.cycleAt m))
    (hd : d = v.pathStep w (u.lanePlays w (s.cycleAt m)) m (s.cycleAt m))
    (hy : y = v.cycleWord w (u.lanePlays w (s.cycleAt m))
      (BitVec.ofNat 20 (u.wl[w].nco.acc.toNat / 2 ^ 28 + 16 * u.wl[w].nco.phaseOfs.toNat)) d) :
    exec (.modulatorCycle w) s = .next (((((v.pathStepped w d (if v.wl[w].path.next = some m then v.wl[w].demPtr else
      Config.unseen w.val (s.cycleAt m) 7 % 15)).satCount w y.2 1).modulate w m y.1).unlockedOut w).ncoUpTo w (m + 1)) := by
  have hgo : ¬ (!s.wl[w].nco.running) = true := by rw [hr]; decide
  show execModulatorCycle w s = _
  rw [execModulatorCycle, guarded_next hu]
  refine congrArg Host.Outcome.next ((if_neg hgo).trans ?_)
  subst hm hun hv hd hy
  unfold State.cycleWord State.cycleFound
  dsimp only
  cases ((s.upto (s.cycleAt (max s.wl[w].nco.m (s.cycleFrom (s.clk.now * 1024))) / 1024)).ncoUpTo w
      (max s.wl[w].nco.m (s.cycleFrom (s.clk.now * 1024)))).lanePlays w (s.cycleAt (max s.wl[w].nco.m (s.cycleFrom (s.clk.now * 1024)))) <;> rfl

/-! ### What limits count -/

/-- A limited word counts once more. -/
def counted (b : Bool) (c : Nat) : Nat := if b then min (c + 1) top32 else c

theorem State.satCount_counter (s : State) (w : Lane) (b : Bool) (bit : Nat) :
    (s.satCount w b bit).counter (wlA w 0x34) = counted b (s.counter (wlA w 0x34)) := by
  unfold State.satCount counted
  cases b
  · rfl
  · rw [if_pos rfl, if_pos rfl, (State.setBit_within _ _ bit).counterEq, counter_count_self _ _ _ (by decide)]

theorem State.satCount_ctrs (s : State) (w : Lane) (b : Bool) (bit : Nat) : CtrsBut [wlA w 0x34] s (s.satCount w b bit) := by
  unfold State.satCount
  split
  · exact ((CtrsBut.refl _ s).count 1 (List.mem_singleton_self _)).trans ((State.setBit_within _ _ bit).ctrsBut _)
  · exact CtrsBut.refl _ s

theorem State.satCount_flags (s : State) (w : Lane) (b : Bool) (bit : Nat) : FlagsBut [wlA w 0x30] s (s.satCount w b bit) := by
  unfold State.satCount
  split
  · exact ((State.count_within s _ 1).flagsBut _).trans ((FlagsBut.refl _ _).setBit bit (List.mem_singleton_self _))
  · exact FlagsBut.refl _ s

theorem State.satCount_runs (s : State) (w : Lane) (b : Bool) (bit : Nat) : Runs s (s.satCount w b bit) :=
  Runs.ite ((Runs.of_within (State.count_within s _ 1)).trans (Runs.setBit _ _ bit)) (Runs.refl s)

theorem State.satCount_bit (s : State) (w : Lane) {b : Bool} {bit : Nat} (hb : b = true) (hi : bit < 32) :
    ((s.satCount w b bit).flag (wlA w 0x30)).getLsbD bit = true := by
  rw [State.satCount, if_pos hb]
  exact State.flagBit_setBit _ (wl30_ne w) (bit32_self hi)

theorem counted_three (a b c : Bool) (n : Nat) :
    counted c (counted b (counted a n)) =
      if (if a then 1 else 0) + (if b then 1 else 0) + (if c then 1 else 0) = 0 then n
      else min (n + ((if a then 1 else 0) + (if b then 1 else 0) + (if c then 1 else 0))) top32 := by
  unfold counted
  cases a <;> cases b <;> cases c <;> simp <;> omega

/-! ### The modulator takes the word (R189, R190, R197) -/

/-- What a lane holds that has taken a word under a coefficient set. -/
def WLane.modulated (l : WLane) (word : BitVec 18) (coef : Nat) : WLane :=
  let q := Config.loopLevel coef word l.path.loop
  { l with
    yMod := word, level := q, cells := cellsOf l.dem l.demPtr q
    path := { l.path with loop := Config.loopNext coef word l.path.loop, scr := Config.scrambleNext l.path.scr }
    demPtr := if l.dem = 2 then l.demPtr else (l.demPtr + q.toNat + (if l.dem = 1 then l.path.scr.toNat % 2 else 0)) % 15 }

theorem State.modulate_eq (s : State) (w : Lane) (m : Nat) (y : Int) :
    ∃ c, c = s.satCount w (s.modWord w y).2 1 ∧
      s.modulate w m y = c.modWl w (fun l => l.modulated (BitVec.ofInt 18 (s.modWord w y).1) (c.coefAt w m)) := by
  refine ⟨_, rfl, ?_⟩
  unfold State.modulate
  dsimp only
  obtain ⟨c, hc⟩ : ∃ c, c = s.satCount w (s.modWord w y).2 1 := ⟨_, rfl⟩
  rw [← hc]
  have hf : ∀ f g : WLane → WLane, f c.wl[w] = g c.wl[w] → c.modWl w f = c.modWl w g := by
    intro f g h
    unfold State.modWl
    rw [h]
  exact hf _ _ rfl

theorem State.coefAt_congr {s t : State} {w : Lane} (m : Nat) (he : t.eff = s.eff) (hc : t.wl[w].centre = s.wl[w].centre)
    (hg : t.wl[w].glideEnd = s.wl[w].glideEnd) (hp : t.wl[w].path.coefFrom = s.wl[w].path.coefFrom) : t.coefAt w m = s.coefAt w m := by
  unfold State.coefAt State.qbWord
  dsimp only
  rw [State.effW_congr he, hc, hg, hp]

theorem State.modWord_congr {s t : State} {w : Lane} (y : Int) (he : t.eff = s.eff) (hs : t.wl[w].state = s.wl[w].state)
    (ho : t.wl[w].ofsUsed = s.wl[w].ofsUsed) : t.modWord w y = s.modWord w y := by
  unfold State.modWord
  dsimp only
  rw [State.effF_congr he, hs, ho]

/-! ### A cycle's word is taken -/

theorem State.ncoRun_words (s : State) (w : Lane) (k : Nat) : LaneWords w s (s.ncoRun w k) := by
  unfold State.ncoRun State.modNco
  exact (State.bandAt_words s w _ _ true).trans (LaneWords.mod w _ _)

theorem State.ncoSteps_words (w : Lane) (to_ k : Nat) (s : State) : LaneWords w s (s.ncoSteps w to_ k) := by
  induction k generalizing s with
  | zero => exact LaneWords.refl w s
  | succ k ih =>
    unfold State.ncoSteps
    dsimp only
    split
    · exact LaneWords.refl w s
    · exact (s.ncoRun_words w _).trans (ih _)

theorem State.ncoUpTo_words (s : State) (w : Lane) (k : Nat) : LaneWords w s (s.ncoUpTo w k) := by
  unfold State.ncoUpTo
  dsimp only
  split
  · exact LaneWords.refl w s
  · split
    · exact (s.ncoRun_words w k).trans (LaneWords.mod w _ _)
    · exact (s.ncoSteps_words w k _).trans (LaneWords.mod w _ _)

/-- What a lane puts out while its PLL is unlocked. -/
def WLane.freed (l : WLane) (n : Nat) : WLane :=
  { l with level := (Config.freeWord n).setWidth 4, cells := (Config.freeWord n).extractLsb' 4 15 }

theorem State.unlockedOut_of_locked {s : State} {w : Lane} (h : s.clk.pll.getLsbD (2 + w.val / 4) = true) : s.unlockedOut w = s := if_pos h

theorem State.unlockedOut_of_unlocked {s : State} {w : Lane} (h : s.clk.pll.getLsbD (2 + w.val / 4) = false) :
    s.unlockedOut w = { s.modWl w (fun l => l.freed s.freeN) with freeN := s.freeN + 1 } :=
  if_neg fun e => Bool.false_ne_true (h.symm.trans e)

/-- The modulator has taken a cycle's word. -/
def State.cycleWorded (v : State) (w : Lane) (m : Nat) (d : Datapath × (Int × Int) × Bool) (ptr : Nat) (y : Int × Bool) : State :=
  ((v.pathStepped w d ptr).satCount w y.2 1).modulate w m y.1

/-- The lane that has taken it. -/
def WLane.worded (l : WLane) (d : Datapath) (ptr : Nat) (word : BitVec 18) (coef : Nat) : WLane :=
  { l with path := d, demPtr := ptr }.modulated word coef

theorem State.satCount_wl (s : State) (w : Lane) (b : Bool) (bit : Nat) : (s.satCount w b bit).wl = s.wl := (State.satCount_within s w b bit).wlEq

theorem State.satCount_eff (s : State) (w : Lane) (b : Bool) (bit : Nat) : (s.satCount w b bit).eff = s.eff := (State.satCount_within s w b bit).effEq

theorem State.pathStepped_wl (v : State) (w : Lane) (d : Datapath × (Int × Int) × Bool) (ptr : Nat) :
    WlIs w { v.wl[w] with path := d.1, demPtr := ptr } v (v.pathStepped w d ptr) := by
  have h : WlIs w v.wl[w] v (v.satCount w d.2.2 0) := WlIs.of_eq (v.satCount_wl w d.2.2 0)
  exact h.modBy rfl

/-- A word is taken by the gain stage's limits, the mixer's and the sum's, and then by the loop. -/
theorem State.cycleWorded_eq (v : State) (w : Lane) (m : Nat) (d : Datapath × (Int × Int) × Bool) (ptr : Nat) (y : Int × Bool) :
    v.cycleWorded w m d ptr y = (((v.pathStepped w d ptr).satCount w y.2 1).satCount w (v.modWord w y.1).2 1).modWl w
      (fun l => l.modulated (BitVec.ofInt 18 (v.modWord w y.1).1) ((v.modWl w (fun l => { l with path := d.1 })).coefAt w m)) := by
  obtain ⟨c, hc, he⟩ := ((v.pathStepped w d ptr).satCount w y.2 1).modulate_eq w m y.1
  have hB : WlIs w { v.wl[w] with path := d.1, demPtr := ptr } v ((v.pathStepped w d ptr).satCount w y.2 1) :=
    (v.pathStepped_wl w d ptr).same (State.satCount_wl _ w y.2 1)
  have hC : WlIs w { v.wl[w] with path := d.1, demPtr := ptr } v c := hB.same (by rw [hc]; exact State.satCount_wl _ w _ 1)
  have heB : ((v.pathStepped w d ptr).satCount w y.2 1).eff = v.eff := (State.satCount_eff _ w y.2 1).trans (v.satCount_eff w d.2.2 0)
  have hword : ((v.pathStepped w d ptr).satCount w y.2 1).modWord w y.1 = v.modWord w y.1 :=
    State.modWord_congr y.1 heB (by rw [hB.self]) (by rw [hB.self])
  have hcoef : c.coefAt w m = (v.modWl w (fun l => { l with path := d.1 })).coefAt w m :=
    State.coefAt_congr m (by rw [hc, State.satCount_eff]; exact heB) (by rw [hC.self, State.modWl_self])
      (by rw [hC.self, State.modWl_self]) (by rw [hC.self, State.modWl_self])
  rw [State.cycleWorded, he, hcoef, hc, hword]

theorem State.cycleWorded_wl (v : State) (w : Lane) (m : Nat) (d : Datapath × (Int × Int) × Bool) (ptr : Nat) (y : Int × Bool) :
    WlIs w (v.wl[w].worded d.1 ptr (BitVec.ofInt 18 (v.modWord w y.1).1) ((v.modWl w (fun l => { l with path := d.1 })).coefAt w m)) v
      (v.cycleWorded w m d ptr y) := by
  have hB : WlIs w { v.wl[w] with path := d.1, demPtr := ptr } v
      (((v.pathStepped w d ptr).satCount w y.2 1).satCount w (v.modWord w y.1).2 1) :=
    (v.pathStepped_wl w d ptr).same (by rw [State.satCount_wl, State.satCount_wl])
  rw [State.cycleWorded_eq]
  exact hB.modBy rfl

theorem State.pathStepped_counter (v : State) (w : Lane) (d : Datapath × (Int × Int) × Bool) (ptr : Nat) :
    (v.pathStepped w d ptr).counter (wlA w 0x34) = counted d.2.2 (v.counter (wlA w 0x34)) := v.satCount_counter w d.2.2 0

theorem State.cycleWorded_counter (v : State) (w : Lane) (m : Nat) (d : Datapath × (Int × Int) × Bool) (ptr : Nat) (y : Int × Bool) :
    (v.cycleWorded w m d ptr y).counter (wlA w 0x34) =
      counted (v.modWord w y.1).2 (counted y.2 (counted d.2.2 (v.counter (wlA w 0x34)))) := by
  rw [State.cycleWorded_eq, (State.modWl_within _ w _).counterEq, State.satCount_counter, State.satCount_counter, State.pathStepped_counter]

/-- What counting limits leaves of the flags and of the counters. -/
structure Limits (w : Lane) (s t : State) : Prop where
  flags : FlagsBut [wlA w 0x30] s t
  ctrs : CtrsBut [wlA w 0x34] s t
  runs : Runs s t

theorem Limits.trans {w : Lane} {s t u : State} (h : Limits w s t) (k : Limits w t u) : Limits w s u :=
  ⟨h.flags.trans k.flags, h.ctrs.trans k.ctrs, h.runs.trans k.runs⟩

theorem Limits.sat (s : State) (w : Lane) (b : Bool) (bit : Nat) : Limits w s (s.satCount w b bit) :=
  ⟨s.satCount_flags w b bit, s.satCount_ctrs w b bit, s.satCount_runs w b bit⟩

theorem Limits.mod (s : State) (w : Lane) {f : WLane → WLane} (hf : ∀ l, (f l).arm = l.arm) : Limits w s (s.modWl w f) :=
  ⟨(State.modWl_within s w f).flagsBut _, (State.modWl_within s w f).ctrsBut _, Runs.modWl s w hf⟩

theorem Limits.pathStepped (v : State) (w : Lane) (d : Datapath × (Int × Int) × Bool) (ptr : Nat) : Limits w v (v.pathStepped w d ptr) := by
  unfold State.pathStepped
  exact (Limits.sat v w d.2.2 0).trans (Limits.mod _ w fun _ => rfl)

/-- What taking a word leaves of the flags and of the counters. -/
theorem State.cycleWorded_limits (v : State) (w : Lane) (m : Nat) (d : Datapath × (Int × Int) × Bool) (ptr : Nat) (y : Int × Bool) :
    Limits w v (v.cycleWorded w m d ptr y) := by
  rw [State.cycleWorded_eq]
  exact (((Limits.pathStepped v w d ptr).trans (Limits.sat _ w y.2 1)).trans (Limits.sat _ w _ 1)).trans (Limits.mod _ w fun _ => rfl)

/-- What the limits set. -/
theorem State.cycleWorded_bits (v : State) (w : Lane) (m : Nat) (d : Datapath × (Int × Int) × Bool) (ptr : Nat) (y : Int × Bool) :
    (d.2.2 = true → ((v.cycleWorded w m d ptr y).flag (wlA w 0x30)).getLsbD 0 = true) ∧
      (y.2 = true ∨ (v.modWord w y.1).2 = true → ((v.cycleWorded w m d ptr y).flag (wlA w 0x30)).getLsbD 1 = true) := by
  rw [State.cycleWorded_eq]
  obtain ⟨A, hA⟩ : ∃ A, A = v.pathStepped w d ptr := ⟨_, rfl⟩
  have hfirst : d.2.2 = true → (A.flag (wlA w 0x30)).getLsbD 0 = true := fun hd => hA ▸ State.satCount_bit v w hd (by decide)
  have hB := (Limits.sat A w y.2 1).runs
  have hC := (Limits.sat (A.satCount w y.2 1) w (v.modWord w y.1).2 1).runs
  rw [← hA, (State.modWl_within _ w _).flagEq]
  refine ⟨fun hd => (hB.trans hC).flags _ _ (wl30_ne w) (hfirst hd), ?_⟩
  rintro (hy | hs)
  · exact hC.flags _ _ (wl30_ne w) (State.satCount_bit A w hy (by decide))
  · exact State.satCount_bit _ w hs (by decide)

/-! ### A cycle ends -/

/-- The lane after a cycle's word, as its PLL lets it. -/
def WLane.putOut (l : WLane) (locked : Bool) (n : Nat) : WLane := if locked then l else l.freed n

theorem State.unlockedOut_wl (s : State) (w : Lane) :
    WlIs w (s.wl[w].putOut (s.clk.pll.getLsbD (2 + w.val / 4)) s.freeN) s (s.unlockedOut w) ∧
      (s.unlockedOut w).freeN = if s.clk.pll.getLsbD (2 + w.val / 4) then s.freeN else s.freeN + 1 := by
  cases h : s.clk.pll.getLsbD (2 + w.val / 4) with
  | true => rw [State.unlockedOut_of_locked h]; exact ⟨WlIs.refl w s, rfl⟩
  | false => rw [State.unlockedOut_of_unlocked h]; exact ⟨⟨State.modWl_self s w (fun l => l.freed s.freeN), fun b hb => State.modWl_other s w (fun l => l.freed s.freeN) hb⟩, rfl⟩

/-- Where a cycle ends: its word is taken and put out, and the generator has come to the next cycle. -/
def State.cycleEnded (v : State) (w : Lane) (m : Nat) (d : Datapath × (Int × Int) × Bool) (ptr : Nat) (y : Int × Bool) : State :=
  ((v.cycleWorded w m d ptr y).unlockedOut w).ncoUpTo w (m + 1)

/-- The word that a cycle gives the modulator, and the coefficients that it meets. -/
def State.cycleLane (v : State) (w : Lane) (m : Nat) (d : Datapath × (Int × Int) × Bool) (ptr : Nat) (y : Int × Bool) : WLane :=
  v.wl[w].worded d.1 ptr (BitVec.ofInt 18 (v.modWord w y.1).1) ((v.modWl w (fun l => { l with path := d.1 })).coefAt w m)

section
variable (v : State) (w : Lane) (m : Nat) (d : Datapath × (Int × Int) × Bool) (ptr : Nat) (y : Int × Bool)

theorem State.cycleWorded_frame : (v.cycleWorded w m d ptr y).clk = v.clk ∧ (v.cycleWorded w m d ptr y).freeN = v.freeN ∧
    (v.cycleWorded w m d ptr y).mem = v.mem := by
  have h := State.modulate_within ((v.pathStepped w d ptr).satCount w y.2 1) w m y.1
  have h2 := State.satCount_within (v.pathStepped w d ptr) w y.2 1
  have h3 := State.satCount_within v w d.2.2 0
  exact ⟨(h.clkEq.trans h2.clkEq).trans h3.clkEq, (h.freeNEq.trans h2.freeNEq).trans h3.freeNEq, (h.memEq.trans h2.memEq).trans h3.memEq⟩

theorem State.cycleEnded_wl (hr : v.wl[w].nco.running = true) (hm : v.wl[w].nco.m = m) :
    (v.cycleEnded w m d ptr y).wl[w].still = ((v.cycleLane w m d ptr y).putOut (v.clk.pll.getLsbD (2 + w.val / 4)) v.freeN).still ∧
      (v.cycleEnded w m d ptr y).wl[w].nco = v.wl[w].nco.run (m + 1) ∧ WlBut w v (v.cycleEnded w m d ptr y) := by
  obtain ⟨hclk, hfree, -⟩ := v.cycleWorded_frame w m d ptr y
  have h := (v.cycleWorded_wl w m d ptr y).trans ((v.cycleWorded w m d ptr y).unlockedOut_wl w).1
  rw [(v.cycleWorded_wl w m d ptr y).self, hclk, hfree] at h
  have hnco : ((v.cycleWorded w m d ptr y).unlockedOut w).wl[w].nco = v.wl[w].nco := by
    rw [h.self]; unfold WLane.putOut; split <;> rfl
  obtain ⟨hstill, hbut⟩ := NcoTurns.ncoUpTo ((v.cycleWorded w m d ptr y).unlockedOut w) w (m + 1)
  refine ⟨hstill.trans (by rw [h.self]; rfl), ?_, fun b hb => (hbut b hb).trans (h.but b hb)⟩
  rw [State.cycleEnded, State.ncoUpTo_next (by rw [hnco]; exact hr) (by rw [hnco]; exact hm), hnco]

theorem State.unlockedOut_limits (s : State) : Limits w s (s.unlockedOut w) := by
  have h := State.unlockedOut_within s w
  refine ⟨h.flagsBut _, h.ctrsBut _, fun a i _ hb => by rwa [h.flagEq], fun b => ?_⟩
  have hs := (s.unlockedOut_wl w).1
  by_cases hb : b = w
  · subst hb; rw [hs.self]; unfold WLane.putOut; split <;> rfl
  · rw [hs.but b hb]

theorem State.cycleEnded_frame : (v.cycleEnded w m d ptr y).clk = v.clk ∧ (v.cycleEnded w m d ptr y).mem = v.mem ∧
    (v.cycleEnded w m d ptr y).freeN = if v.clk.pll.getLsbD (2 + w.val / 4) then v.freeN else v.freeN + 1 := by
  obtain ⟨hclk, hfree, hmem⟩ := v.cycleWorded_frame w m d ptr y
  have h := State.ncoUpTo_within ((v.cycleWorded w m d ptr y).unlockedOut w) w (m + 1)
  have h2 := State.unlockedOut_within (v.cycleWorded w m d ptr y) w
  refine ⟨(h.clkEq.trans h2.clkEq).trans hclk, (h.memEq.trans h2.memEq).trans hmem, h.freeNEq.trans ?_⟩
  rw [((v.cycleWorded w m d ptr y).unlockedOut_wl w).2, hclk, hfree]

theorem State.cycleEnded_counter : (v.cycleEnded w m d ptr y).counter (wlA w 0x34) =
    counted (v.modWord w y.1).2 (counted y.2 (counted d.2.2 (v.counter (wlA w 0x34)))) := by
  rw [State.cycleEnded, (State.ncoUpTo_within _ w _).counterEq, (State.unlockedOut_within _ w).counterEq, State.cycleWorded_counter]

theorem State.cycleEnded_words : FlagsBut [wlA w 0x30, wlA w 0x11C] v (v.cycleEnded w m d ptr y) ∧
    CtrsBut [wlA w 0x34] v (v.cycleEnded w m d ptr y) ∧ Runs (v.cycleWorded w m d ptr y) (v.cycleEnded w m d ptr y) := by
  have h := (v.cycleWorded_limits w m d ptr y).trans (State.unlockedOut_limits w (v.cycleWorded w m d ptr y))
  have hn := State.ncoUpTo_words ((v.cycleWorded w m d ptr y).unlockedOut w) w (m + 1)
  refine ⟨fun a ha hp => ?_, h.ctrs.trans ((State.ncoUpTo_within _ w _).ctrsBut _),
    (State.unlockedOut_limits w (v.cycleWorded w m d ptr y)).runs.trans (Runs.ncoUpTo _ w _)⟩
  simp only [List.mem_cons, List.not_mem_nil, or_false, not_or] at ha
  exact (hn.flags a (by simpa using ha.2) hp).trans (h.flags a (by simpa using ha.1) hp)

end

/-- What a cycle finds of the lane: all but the NCO, the band and the glide is as it stood. -/
theorem State.cycleFound_kept (s : State) (w : Lane) (m : Nat) :
    (s.cycleFound w m).wl[w].still = s.wl[w].still ∧ WlBut w s (s.cycleFound w m) ∧
      (s.cycleFound w m).clk = (s.upto (s.cycleAt m / 1024)).clk ∧ FlagsBut [wlA w 0x30, wlA w 0x11C] s (s.cycleFound w m) ∧
      Within [.clk, .flg, .wl, .msix] s (s.cycleFound w m) := by
  have hn := NcoTurns.ncoUpTo (s.upto (s.cycleAt m / 1024)) w m
  have hw := State.ncoUpTo_within (s.upto (s.cycleAt m / 1024)) w m
  refine ⟨hn.1, hn.2, hw.clkEq, fun a ha hp => ?_, (State.upto_within s _).seq hw⟩
  simp only [List.mem_cons, List.not_mem_nil, or_false, not_or] at ha
  exact (State.ncoUpTo_words (s.upto (s.cycleAt m / 1024)) w m).flags a (by simpa using ha.2) hp

/-- What a cycle does to its lane, field by field. -/
theorem WLane.of_putOut {l x : WLane} {d : Datapath} {ptr n : Nat} {word : BitVec 18} {coef : Nat} {locked : Bool}
    (h : x.still = ((l.worded d ptr word coef).putOut locked n).still) :
    x.yMod = word ∧ x.state = l.state ∧
      (locked = true → x.level = Config.loopLevel coef word d.loop ∧ x.cells = cellsOf l.dem ptr (Config.loopLevel coef word d.loop)) ∧
      (locked = false → x.level = (Config.freeWord n).setWidth 4 ∧ x.cells = (Config.freeWord n).extractLsb' 4 15) ∧
      { x.path with coefFrom := d.coefFrom } =
        { d with loop := Config.loopNext coef word d.loop, scr := Config.scrambleNext d.scr } ∧
      x.demPtr = (if l.dem = 2 then ptr else
        (ptr + (Config.loopLevel coef word d.loop).toNat + (if l.dem = 1 then d.scr.toNat % 2 else 0)) % 15) := by
  unfold WLane.putOut WLane.freed WLane.worded WLane.modulated at h
  dsimp only at h
  generalize Config.loopLevel coef word d.loop = q at h ⊢
  generalize Config.loopNext coef word d.loop = k at h ⊢
  generalize Config.scrambleNext d.scr = z at h ⊢
  generalize Config.freeWord n = f at h ⊢
  cases locked with
  | true =>
    rw [if_pos rfl] at h
    exact ⟨(congrArg WLane.yMod h :), (congrArg WLane.state h :), fun _ => ⟨(congrArg WLane.level h :), (congrArg WLane.cells h :)⟩,
      fun h => absurd h (by decide), (congrArg (fun l : WLane => { l.path with coefFrom := d.coefFrom }) h :), (congrArg WLane.demPtr h :)⟩
  | false =>
    rw [if_neg Bool.false_ne_true] at h
    exact ⟨(congrArg WLane.yMod h :), (congrArg WLane.state h :), fun h => absurd h (by decide),
      fun _ => ⟨(congrArg WLane.level h :), (congrArg WLane.cells h :)⟩,
      (congrArg (fun l : WLane => { l.path with coefFrom := d.coefFrom }) h :), (congrArg WLane.demPtr h :)⟩

/-- What a cycle leaves of the rest of the state. -/
theorem modulatorCycle_frame {s v : State} {w : Lane} {m : Nat} (plays : Option Clu) (d : Datapath × (Int × Int) × Bool) (ptr : Nat) (y : Int × Bool)
    (hv : v = (s.cycleFound w m).laneReads w plays m (s.cycleAt m)) {t : State} (ht : t = v.cycleEnded w m d ptr y)
    (hbut : WlBut w v t) :
    WlBut w s t ∧ t.clk.now = max s.clk.now (s.cycleAt m / 1024) ∧ CtrsBut (wlA w 0x34 :: conflictCtrs) s t ∧
      (plays = none → CtrsBut [wlA w 0x34] s t ∧ t.mem = s.mem) ∧ FlagsBut [wlA w 0x30, wlA w 0x11C] s t ∧
      v.counter (wlA w 0x34) = s.counter (wlA w 0x34) := by
  obtain ⟨-, hbut1, hclk1, hfl1, hw1⟩ := s.cycleFound_kept w m
  have hreads := (s.cycleFound w m).laneReads_reads w plays m (s.cycleAt m)
  have hw2 := (State.laneReads_within (s.cycleFound w m) w plays m (s.cycleAt m))
  rw [← hv] at hreads hw2
  obtain ⟨hclk3, hmem3, -⟩ := v.cycleEnded_frame w m d ptr y
  obtain ⟨hfl3, hct3, -⟩ := v.cycleEnded_words w m d ptr y
  rw [← ht] at hclk3 hmem3 hfl3 hct3
  have hct12 : CtrsBut conflictCtrs s v := (CtrsBut.of_eq hw1.ctrEq).trans hreads.ctrs
  have hnone : plays = none → v = s.cycleFound w m := fun h => by rw [hv, h, State.laneReads_none]
  refine ⟨fun b hb => ?_, ?_, fun a ha => ?_, fun hp => ⟨?_, ?_⟩, (hfl1.trans (hw2.flagsBut _)).trans hfl3, ?_⟩
  · rw [hbut b hb, hw2.wlEq, hbut1 b hb]
  · rw [hclk3, hreads.clk, hclk1]; rfl
  · simp only [List.mem_cons, not_or] at ha
    exact (hct3 a (by simpa using ha.1)).trans (hct12 a ha.2)
  · exact (CtrsBut.of_eq (by rw [hnone hp, hw1.ctrEq])).trans hct3
  · rw [hmem3, hnone hp, hw1.memEq]
  · refine hct12 _ fun h => ?_
    obtain ⟨k, hk, he⟩ := List.mem_map.mp h
    have hk := List.mem_range.mp hk
    revert he; unfold wlA memA; omega

section
variable {s u v : State} {w : Lane} {m : Nat} {plays : Option Clu}
variable (hun : u = s.cycleFound w m) (hv : v = u.laneReads w plays m (s.cycleAt m))
include hun hv

/-- What the datapath and the modulator read of the lane stands as before the cycle. -/
theorem cycle_reads : v.wl[w].still = s.wl[w].still ∧ v.wl = u.wl ∧ v.eff = s.eff ∧ v.freeN = s.freeN ∧ v.clk.pll = s.clk.pll := by
  subst hun hv
  obtain ⟨hkept, -, hclk1, -, hw1⟩ := s.cycleFound_kept w m
  have hw2 := State.laneReads_within (s.cycleFound w m) w plays m (s.cycleAt m)
  have hclk := ((s.cycleFound w m).laneReads_reads w plays m (s.cycleAt m)).clk
  exact ⟨by rw [hw2.wlEq]; exact hkept, hw2.wlEq, hw2.effEq.trans hw1.effEq, hw2.freeNEq.trans hw1.freeNEq, by rw [hclk, hclk1]; rfl⟩

theorem cycle_word (y : Int) : v.modWord w y = s.modWord w y := by
  obtain ⟨hst, -, heff, -, -⟩ := cycle_reads hun hv
  exact State.modWord_congr y heff (congrArg WLane.state hst :) (congrArg WLane.ofsUsed hst :)

end

theorem State.cycleFound_nco {s : State} {w : Lane} {m : Nat} (hr : s.wl[w].nco.running = true) (hm : s.wl[w].nco.m ≤ m) :
    (s.cycleFound w m).wl[w].nco.m = m ∧ (s.cycleFound w m).wl[w].nco.running = true :=
  State.ncoUpTo_m (s := s.upto (s.cycleAt m / 1024)) hr hm

/-- A cycle of a running generator, in the words of the obligation. -/
structure Cycle (s : State) (w : Lane) (m : Nat) (u v : State) (plays : Option Clu) (d : Datapath × (Int × Int) × Bool)
    (y : Int × Bool) (ptr : Nat) : Prop where
  runs : s.wl[w].nco.running = true
  at_ : m = max s.wl[w].nco.m (s.cycleFrom (s.clk.now * 1024))
  found : u = s.cycleFound w m
  owner : plays = u.lanePlays w (s.cycleAt m)
  read : v = u.laneReads w plays m (s.cycleAt m)
  steps : d = v.pathStep w plays m (s.cycleAt m)
  word : y = if plays.isSome then v.mix w (BitVec.ofNat 20 (u.wl[w].nco.acc.toNat / 2 ^ 28 + 16 * u.wl[w].nco.phaseOfs.toNat)) d.2.1.1 d.2.1.2
    else (signedOf 18 (s.effF (wlA w 0x104) 17 0), false)
  pointer : ptr = if s.wl[w].path.next = some m then s.wl[w].demPtr else Config.unseen w.val (s.cycleAt m) 7 % 15

section
variable {s u v : State} {w : Lane} {m : Nat} {plays : Option Clu} {d : Datapath × (Int × Int) × Bool} {y : Int × Bool} {ptr : Nat}

theorem Cycle.exec_eq (h : Cycle s w m u v plays d y ptr) (hu : s.undef = false) :
    exec (.modulatorCycle w) s = .next (v.cycleEnded w m d ptr y) := by
  obtain ⟨hr, hm, hun, hpl, hv, hd, hy, hptr⟩ := h
  obtain ⟨hst, -, heff, -, -⟩ := cycle_reads hun hv
  have hnext : v.wl[w].path.next = s.wl[w].path.next := (congrArg (fun l : WLane => l.path.next) hst :)
  have hvptr : v.wl[w].demPtr = s.wl[w].demPtr := (congrArg WLane.demPtr hst :)
  rw [← State.effF_congr heff] at hy
  subst hpl
  rw [modulatorCycle_eq hu hr hm hun hv hd hy, hptr, ← hnext, ← hvptr]
  rfl

theorem Cycle.nco (h : Cycle s w m u v plays d y ptr) : v.wl[w].nco.running = true ∧ v.wl[w].nco.m = m ∧ v.wl[w].nco = u.wl[w].nco := by
  obtain ⟨hr, hm, hun, -, hv, -, -, -⟩ := h
  obtain ⟨-, hwl, -, -, -⟩ := cycle_reads hun hv
  obtain ⟨hxm, hxr⟩ := State.cycleFound_nco (m := m) hr (hm ▸ Nat.le_max_left _ _)
  rw [← hun, ← hwl] at hxm hxr
  exact ⟨hxr, hxm, by rw [hwl]⟩

theorem Cycle.lane (h : Cycle s w m u v plays d y ptr) {word : BitVec 18} {coef : Nat}
    (hword : word = BitVec.ofInt 18 (s.modWord w y.1).1) (hcoef : coef = (v.modWl w (fun l => { l with path := d.1 })).coefAt w m)
    {t : State} (ht : t = v.cycleEnded w m d ptr y) :
    t.wl[w].yMod = word ∧
      (s.clk.pll.getLsbD (2 + w.val / 4) = true → t.wl[w].level = Config.loopLevel coef word d.1.loop ∧
        t.wl[w].cells = cellsOf s.wl[w].dem ptr (Config.loopLevel coef word d.1.loop) ∧ t.freeN = s.freeN) ∧
      (s.clk.pll.getLsbD (2 + w.val / 4) = false → t.wl[w].level = (Config.freeWord s.freeN).setWidth 4 ∧
        t.wl[w].cells = (Config.freeWord s.freeN).extractLsb' 4 15 ∧ t.freeN = s.freeN + 1) ∧
      { t.wl[w].path with coefFrom := d.1.coefFrom } =
        { d.1 with loop := Config.loopNext coef word d.1.loop, scr := Config.scrambleNext d.1.scr } ∧
      t.wl[w].demPtr = (if s.wl[w].dem = 2 then ptr else
        (ptr + (Config.loopLevel coef word d.1.loop).toNat + (if s.wl[w].dem = 1 then d.1.scr.toNat % 2 else 0)) % 15) ∧
      t.wl[w].nco = u.wl[w].nco.run (m + 1) ∧ t.wl[w].state = s.wl[w].state := by
  obtain ⟨hr, hm, hx⟩ := h.nco
  obtain ⟨hst, -, -, hfree, hpll⟩ := cycle_reads h.found h.read
  have hdem : v.wl[w].dem = s.wl[w].dem := (congrArg WLane.dem hst :)
  have hstate : v.wl[w].state = s.wl[w].state := (congrArg WLane.state hst :)
  obtain ⟨hwl, hnco, -⟩ := v.cycleEnded_wl w m d ptr y hr hm
  obtain ⟨-, -, hfreeN⟩ := v.cycleEnded_frame w m d ptr y
  rw [← ht, State.cycleLane, cycle_word h.found h.read, ← hword, ← hcoef, hpll, hfree] at hwl
  rw [← ht, hpll, hfree] at hfreeN
  rw [← ht, hx] at hnco
  obtain ⟨h1, h2, h3, h4, h5, h6⟩ := WLane.of_putOut hwl
  rw [hdem] at h3 h6
  exact ⟨h1, fun hl => ⟨(h3 hl).1, (h3 hl).2, hfreeN.trans (if_pos hl)⟩,
    fun hl => ⟨(h4 hl).1, (h4 hl).2, hfreeN.trans (if_neg fun e => Bool.false_ne_true (hl.symm.trans e))⟩, h5, h6, hnco, h2.trans hstate⟩

theorem Cycle.limits (h : Cycle s w m u v plays d y ptr) {t : State} (ht : t = v.cycleEnded w m d ptr y) :
    (d.2.2 = true → (t.flag (wlA w 0x30)).getLsbD 0 = true) ∧
      (y.2 = true ∨ (s.modWord w y.1).2 = true → (t.flag (wlA w 0x30)).getLsbD 1 = true) ∧
      t.counter (wlA w 0x34) = counted (s.modWord w y.1).2 (counted y.2 (counted d.2.2 (s.counter (wlA w 0x34)))) := by
  obtain ⟨hr, hm, -⟩ := h.nco
  obtain ⟨hb0, hb1⟩ := v.cycleWorded_bits w m d ptr y
  obtain ⟨-, -, hruns⟩ := v.cycleEnded_words w m d ptr y
  obtain ⟨-, -, hbut⟩ := v.cycleEnded_wl w m d ptr y hr hm
  obtain ⟨-, -, -, -, -, hc⟩ := modulatorCycle_frame plays d ptr y (h.found ▸ h.read) ht (ht ▸ hbut)
  rw [cycle_word h.found h.read] at hb1
  rw [← ht] at hruns
  refine ⟨fun hd => hruns.flags _ _ (wl30_ne w) (hb0 hd), fun hy => hruns.flags _ _ (wl30_ne w) (hb1 hy), ?_⟩
  rw [ht, v.cycleEnded_counter, cycle_word h.found h.read, hc]

theorem Cycle.frame (h : Cycle s w m u v plays d y ptr) {t : State} (ht : t = v.cycleEnded w m d ptr y) :
    WlBut w s t ∧ t.clk.now = max s.clk.now (s.cycleAt m / 1024) ∧ CtrsBut (wlA w 0x34 :: conflictCtrs) s t ∧
      (plays = none → CtrsBut [wlA w 0x34] s t ∧ t.mem = s.mem) ∧ FlagsBut [wlA w 0x30, wlA w 0x11C] s t := by
  obtain ⟨hr, hm, -⟩ := h.nco
  obtain ⟨-, -, hbut⟩ := v.cycleEnded_wl w m d ptr y hr hm
  obtain ⟨h1, h2, h3, h4, h5, -⟩ := modulatorCycle_frame plays d ptr y (h.found ▸ h.read) ht (ht ▸ hbut)
  exact ⟨h1, h2, h3, h4, h5⟩

end

/-- Settles O34: the cycle finds its lane as the generators leave it, its reader reads, the datapath steps, the modulator takes the word that the limits
leave and the NCO goes on by one cycle; each stage leaves what the next one reads. -/
theorem modulatorCycles : Obligations.ModulatorCycles := by
  unfold Obligations.ModulatorCycles
  intro s w hu hr
  extract_lets m at_ u x l p plays v d y cal sum coef n level ptr extra locked
  have h : Cycle s w m u v plays d y ptr := ⟨hr, rfl, rfl, rfl, rfl, rfl, rfl, rfl⟩
  obtain ⟨t, ht⟩ : ∃ t, t = v.cycleEnded w m d ptr y := ⟨_, rfl⟩
  have hx : exec (.modulatorCycle w) s = .next t := ht ▸ h.exec_eq hu
  have hsum : sum = s.modWord w y.1 := rfl
  have hlane := h.lane (word := BitVec.ofInt 18 sum.1) (coef := coef) (by rw [hsum]) rfl ht
  obtain ⟨hb0, hb1, hct⟩ := h.limits ht
  obtain ⟨hbut, hclk, hctrs, hnone, hflags⟩ := h.frame ht
  obtain ⟨h1, h2, h3, h4, h5, h6, h7⟩ := hlane
  rw [← hsum] at hct hb1
  exact ⟨t, hx, h1, h2, h3, h4, h5, h6, h7, hbut, hb0, hb1, hct.trans (counted_three d.2.2 y.2 sum.2 _), hclk, hctrs, hnone, hflags,
    execModulatorCycle_within w s hx⟩

end Sys2Proof.Machine
end

