-- ==== Sys2Proof/Proofs/FailLogs.lean ====
section
/-! PROOF. A pin group's first-fail record, fail log and edge calibration (R228, R231, R239, R254). -/
namespace Sys2Proof.Machine

theorem pgA_not_pend (g : Pg) (off : Nat) : pgA g off ∉ pendWords := by
  simp only [pendWords, List.mem_cons, List.not_mem_nil, or_false, not_or]
  unfold pgA hostA
  omega

theorem tsgA_not_pend (g : Pg) (off : Nat) : tsgA g off ∉ pendWords := pgA_not_pend g _

/-! ### One pin group at a time -/

/-- Group g holds v after a command, and every other group what it held. -/
structure PgIs (g : Pg) (v : PinGroup) (s t : State) : Prop where
  self : t.pg[g] = v
  but : PgBut g s t

theorem PgIs.refl (g : Pg) (s : State) : PgIs g s.pg[g] s s := ⟨rfl, fun _ _ => rfl⟩

theorem PgIs.mod {g : Pg} {v : PinGroup} {s t : State} (h : PgIs g v s t) (f : PinGroup → PinGroup) : PgIs g (f v) s (t.modPg g f) :=
  ⟨by rw [State.modPg_self, h.self], fun d hd => (State.modPg_other t g f hd).trans (h.but d hd)⟩

theorem PgIs.modBy {g : Pg} {v x : PinGroup} {s t : State} {f : PinGroup → PinGroup} (h : PgIs g v s t) (e : f v = x) :
    PgIs g x s (t.modPg g f) := e ▸ h.mod f

theorem PgIs.same {g : Pg} {v : PinGroup} {s t u : State} (h : PgIs g v s t) (e : u.pg = t.pg) : PgIs g v s u :=
  ⟨by rw [e]; exact h.self, fun d hd => by rw [e]; exact h.but d hd⟩

theorem PgIs.of_eq {g : Pg} {s t : State} (e : t.pg = s.pg) : PgIs g s.pg[g] s t := (PgIs.refl g s).same e

/-- A bit of one event word is set, and no other flag changes. -/
def SetsBit (a i : Nat) (s t : State) : Prop := t.flag a = s.flag a ||| bit32 i ∧ FlagsBut [a] s t

theorem SetsBit.of {a i : Nat} {s u : State} (ha : a ∉ pendWords) (h : u.flg = s.flg) : SetsBit a i s (u.setBit a i) :=
  ⟨by rw [State.flag_setBit_self u i ha, flag_of_flg_eq h],
    fun b hb hp => (((FlagsBut.refl [a] u).setBit i (List.mem_singleton_self _)) b hb hp).trans (flag_of_flg_eq h b)⟩

theorem SetsBit.then {a i : Nat} {s t u : State} (h : SetsBit a i s t) (e : u.flg = t.flg) : SetsBit a i s u :=
  ⟨(flag_of_flg_eq e a).trans h.1, fun b hb hp => (flag_of_flg_eq e b).trans (h.2 b hb hp)⟩

/-! ### The first-fail record and FL_RD_COUNT (R228, R239) -/

theorem ffArm_absent {s : State} {g : Pg} (hu : s.undef = false) (hg : s.hasPg g = false) : exec (.ffArm g) s = .next s := by
  show execFfArm g s = _
  rw [execFfArm, guarded_next hu, if_neg (by rw [hg]; decide)]

theorem flRdCountWrite_absent {s : State} {g : Pg} (v : Word) (hu : s.undef = false) (hg : s.hasPg g = false) :
    exec (.flRdCountWrite g v) s = .next s := by
  show execFlRdCountWrite g v s = _
  rw [execFlRdCountWrite, guarded_next hu, if_neg (by rw [hg]; decide)]

theorem ffArm_captures {s : State} {g : Pg} {x : FirstFail} (hu : s.undef = false) (hg : s.hasPg g = true)
    (h : s.pg[g].ffLast = some (s.clk.now, x)) :
    exec (.ffArm g) s = .next ((s.modPg g (fun p => { p with ff := none, ffArmed := true })).takeFf g x) := by
  show execFfArm g s = _
  rw [execFfArm, guarded_next hu, if_pos hg, State.ffArm, h]
  exact congrArg Host.Outcome.next (if_pos rfl)

theorem ffArm_arms {s : State} {g : Pg} (hu : s.undef = false) (hg : s.hasPg g = true)
    (h : ∀ x, s.pg[g].ffLast = some x → x.1 ≠ s.clk.now) :
    exec (.ffArm g) s = .next (s.modPg g (fun p => { p with ff := none, ffArmed := true })) := by
  show execFfArm g s = _
  rw [execFfArm, guarded_next hu, if_pos hg, State.ffArm]
  cases hl : s.pg[g].ffLast with
  | none => rfl
  | some x => exact congrArg Host.Outcome.next (if_neg (h x hl))

theorem flRdCountWrite_taken {s : State} {g : Pg} {v : Word} (hu : s.undef = false) (hg : s.hasPg g = true)
    (h : s.pgIdle g = true ∨ (v - s.pg[g].flRd).toNat ≤ (s.pg[g].flWr - s.pg[g].flRd).toNat) :
    exec (.flRdCountWrite g v) s = .next (s.modPg g (fun p => { p with flRd := v, flRdOld := some (s.clk.now, p.flRd) })) := by
  show execFlRdCountWrite g v s = _
  rw [execFlRdCountWrite, guarded_next hu, if_pos hg]
  exact congrArg Host.Outcome.next (if_pos h)

theorem flRdCountWrite_flags {s : State} {g : Pg} {v : Word} (hu : s.undef = false) (hg : s.hasPg g = true)
    (h : ¬ (s.pgIdle g = true ∨ (v - s.pg[g].flRd).toNat ≤ (s.pg[g].flWr - s.pg[g].flRd).toNat)) :
    exec (.flRdCountWrite g v) s = .next (s.setBit (pgA g 8) 7) := by
  show execFlRdCountWrite g v s = _
  rw [execFlRdCountWrite, guarded_next hu, if_pos hg]
  exact congrArg Host.Outcome.next (if_neg h)

/-! ### The writer of the fail log (R231, R358, R362) -/

/-- The tick of the writer's next record: at most one a tick. -/
def State.writeTick (s : State) (g : Pg) : Nat := max s.clk.now (match s.pg[g].flWrote with | some t => t + 1 | none => 0)

/-- FL_RD_COUNT as the writer sees it in a tick. -/
def State.rdAt (s : State) (g : Pg) (at_ : Nat) : Word :=
  match s.pg[g].flRdOld with | some x => if x.1 = at_ then x.2 else s.pg[g].flRd | none => s.pg[g].flRd

/-- The writer has the oldest record in hand. -/
def State.recordTaken (s : State) (g : Pg) (rest : List (BitVec 256)) (at_ : Nat) : State :=
  (s.upto at_).modPg g (fun p => { p with flQueue := rest, flWrote := some at_ })

/-- The ring slot of the next record, and its staging slot. -/
def State.nextRec (s : State) (g : Pg) : Nat := s.pg[g].flWr.toNat % s.pg[g].flSize

/-- The slot's tile has granted the writer. -/
def State.recordGranted (s : State) (g : Pg) (rest : List (BitVec 256)) (at_ : Nat) : State :=
  (s.recordTaken g rest at_).slotGrant (Fin.ofNat 44 (37 + g.val)) (s.ringSlot g (s.nextRec g))

theorem recordTaken_within (s : State) (g : Pg) (rest : List (BitVec 256)) (at_ : Nat) : Within [.clk, .pg] s (s.recordTaken g rest at_) :=
  (State.upto_within s at_).seq (State.modPg_within _ g _)

theorem State.recordTaken_pg (s : State) (g : Pg) (rest : List (BitVec 256)) (at_ : Nat) :
    PgIs g { s.pg[g] with flQueue := rest, flWrote := some at_ } s (s.recordTaken g rest at_) := by
  have h : PgIs g s.pg[g] s (s.upto at_) := PgIs.of_eq rfl
  exact h.modBy rfl

/-- The ring's place does not depend on the records in it. -/
theorem State.ringSlot_congr {s t : State} {g : Pg} {v : PinGroup} (h : PgIs g v s t) (hv : v.flSize = s.pg[g].flSize) (hp : t.plc = s.plc) (k : Nat) :
    t.ringSlot g k = s.ringSlot g k := by
  unfold State.ringSlot
  rw [hp]
  have hm : (((allFin 4).filter (fun h : Pg => decide (h < g))).map (fun h : Pg => t.pg[h].flSize / 2)) =
      ((allFin 4).filter (fun h : Pg => decide (h < g))).map (fun h : Pg => s.pg[h].flSize / 2) := by
    refine List.map_congr_left fun d _ => ?_
    by_cases hd : d = g
    · subst hd; rw [h.self, hv]
    · rw [h.but d hd]
  rw [hm]

/-- The ring is full in the tick of the write. -/
def State.ringFull (s : State) (g : Pg) (at_ : Nat) : Bool := decide ((s.pg[g].flWr - s.rdAt g at_).toNat = s.pg[g].flSize)

theorem State.upto_writeTick (s : State) (g : Pg) :
    s.upto (s.writeTick g) = s.upto (match s.pg[g].flWrote with | some t => t + 1 | none => 0) := State.upto_max s _

theorem failRecordWrite_loses {s : State} {g : Pg} {r : BitVec 256} {rest : List (BitVec 256)} (hu : s.undef = false)
    (hq : s.pg[g].flQueue = r :: rest) (hf : s.ringFull g (s.writeTick g) = true) (hw : s.effB (pgA g 0) 2 = false) :
    exec (.failRecordWrite g) s = .next (((s.recordTaken g rest (s.writeTick g)).count (pgA g 0x3C) 1).setBit (pgA g 8) 4) := by
  show execFailRecordWrite g s = _
  rw [execFailRecordWrite, guarded_next hu]
  dsimp only
  rw [hq]
  refine congrArg Host.Outcome.next (Eq.trans (if_pos ?_) ?_)
  · exact (Bool.and_eq_true _ _).mpr ⟨hf, congrArg not hw⟩
  · rw [State.recordTaken, State.upto_writeTick]
    rfl

/-- The writer's group after the grant, and the ring's flag. -/
def State.recordPlaced (s : State) (g : Pg) (rest : List (BitVec 256)) (at_ : Nat) (full : Bool) : State :=
  let u := (s.recordGranted g rest at_).setBitIf full (pgA g 8) 5
  u.modPg g (fun p => { p with flWrote := some u.clk.now })

/-- A record is written, or counted as one that the regions deny. -/
def State.recordEnds (u : State) (g : Pg) (slot x : Nat) (r : BitVec 256) : State :=
  if u.slotOk (37 + g) x true then
    (u.modPg g (fun p => { p with ring := smPut (fun _ => 0) p.ring slot r, flWr := p.flWr + 1 })).spareFollow x
  else (u.violate (37 + g) x true).modPg g (fun p => { p with flWr := p.flWr + 1 })

theorem State.recordTaken_ringSlot (s : State) (g : Pg) (rest : List (BitVec 256)) (at_ k : Nat) :
    (s.recordTaken g rest at_).ringSlot g k = s.ringSlot g k :=
  State.ringSlot_congr (s.recordTaken_pg g rest at_) rfl rfl k

theorem failRecordWrite_writes {s : State} {g : Pg} {r : BitVec 256} {rest : List (BitVec 256)} {full : Bool} (hu : s.undef = false)
    (hq : s.pg[g].flQueue = r :: rest) (hf : full = s.ringFull g (s.writeTick g)) (h : full = false ∨ s.effB (pgA g 0) 2 = true) :
    exec (.failRecordWrite g) s = .next ((s.recordPlaced g rest (s.writeTick g) full).recordEnds g (s.nextRec g)
      (s.ringSlot g (s.nextRec g)) r) := by
  have hno : ¬ (full && !s.effB (pgA g 0) 2) = true := by
    rcases h with h | h <;> rw [h]
    · simp
    · simp
  show execFailRecordWrite g s = _
  rw [execFailRecordWrite, guarded_next hu]
  dsimp only
  rw [hq]
  subst hf
  refine congrArg Host.Outcome.next (Eq.trans (if_neg ?_) ?_)
  · exact hno
  · rw [State.recordPlaced, State.recordGranted, ← State.recordTaken_ringSlot s g rest (s.writeTick g)]
    unfold State.recordTaken
    rw [State.upto_writeTick]
    rfl

theorem State.slotGrant_ctrs (s : State) (m : Fin 44) (slot : Nat) : CtrsBut conflictCtrs s (s.slotGrant m slot) := by
  unfold State.slotGrant
  exact (State.tileGrant_steps s _ m _ _).ctrs.trans (CtrsBut.of_eq rfl)

/-- The regions are judged by their words in force. -/
theorem State.slotOk_congr {s t : State} (he : t.eff = s.eff) (m slot : Nat) (w : Bool) : t.slotOk m slot w = s.slotOk m slot w := by
  unfold State.slotOk State.regionWord
  simp only [State.effW_congr he]

theorem State.violate_mem (s : State) (m slot : Nat) (w : Bool) :
    (s.violate m slot w).mem.violSrc = BitVec.ofNat 6 m ∧ (s.violate m slot w).mem.violWrite = w := by
  unfold State.violate
  dsimp only
  split
  · exact ⟨rfl, rfl⟩
  · rw [(State.report_within _ _).memEq]
    exact ⟨rfl, rfl⟩

section
variable (s : State) (g : Pg) (rest : List (BitVec 256)) (at_ : Nat)

theorem State.recordGranted_within : Within [.clk, .ctr, .pg, .mem] s (s.recordGranted g rest at_) :=
  (recordTaken_within s g rest at_).seq (State.slotGrant_within _ _ _)

theorem State.recordPlaced_within (full : Bool) : Within [.clk, .flg, .ctr, .pg, .mem, .msix] s (s.recordPlaced g rest at_ full) :=
  ((s.recordGranted_within g rest at_).seq (l := [.clk, .flg, .ctr, .pg, .mem, .msix]) (State.setBitIf_within _ full _ 5)).seq
    (State.modPg_within _ g _)

theorem State.recordPlaced_pg (full : Bool) :
    PgIs g { s.pg[g] with flQueue := rest, flWrote := some (s.recordGranted g rest at_).clk.now } s (s.recordPlaced g rest at_ full) := by
  have h : PgIs g { s.pg[g] with flQueue := rest, flWrote := some at_ } s ((s.recordGranted g rest at_).setBitIf full (pgA g 8) 5) :=
    (s.recordTaken_pg g rest at_).same (by rw [(State.setBitIf_within _ full _ 5).pgEq]; exact (State.slotGrant_within _ _ _).pgEq)
  have hc : ((s.recordGranted g rest at_).setBitIf full (pgA g 8) 5).clk = (s.recordGranted g rest at_).clk :=
    (State.setBitIf_within _ full _ 5).clkEq
  unfold State.recordPlaced
  dsimp only
  rw [hc]
  exact h.modBy rfl

theorem State.recordPlaced_flags (full : Bool) :
    (full = true → SetsBit (pgA g 8) 5 s (s.recordPlaced g rest at_ full)) ∧
      (full = false → (s.recordPlaced g rest at_ full).flg = s.flg) := by
  have hg : (s.recordGranted g rest at_).flg = s.flg := (s.recordGranted_within g rest at_).flgEq
  refine ⟨fun h => ?_, fun h => ?_⟩
  · have hs : SetsBit (pgA g 8) 5 s ((s.recordGranted g rest at_).setBit (pgA g 8) 5) := SetsBit.of (pgA_not_pend g 8) hg
    rw [h]
    exact hs.then rfl
  · rw [h]; exact hg

theorem State.recordPlaced_ctrs (full : Bool) : CtrsBut conflictCtrs s (s.recordPlaced g rest at_ full) := by
  have h : CtrsBut conflictCtrs s (s.recordGranted g rest at_) :=
    (CtrsBut.of_eq (recordTaken_within s g rest at_).ctrEq).trans (State.slotGrant_ctrs _ _ _)
  have hb := State.setBitIf_within (s.recordGranted g rest at_) full (pgA g 8) 5
  exact (h.trans (hb.ctrsBut _)).trans (CtrsBut.of_eq rfl)

theorem State.recordPlaced_clk (full : Bool) : (s.recordPlaced g rest at_ full).clk = (s.recordGranted g rest at_).clk :=
  (State.setBitIf_within _ full _ 5).clkEq

end

/-- A record that the regions let pass. -/
theorem State.recordEnds_written {u : State} {g : Pg} {slot x : Nat} {r : BitVec 256} (h : u.slotOk (37 + g.val) x true = true) :
    u.recordEnds g slot x r =
      (u.modPg g (fun p => { p with ring := smPut (fun _ => 0) p.ring slot r, flWr := p.flWr + 1 })).spareFollow x := if_pos h

/-- One that they deny. -/
theorem State.recordEnds_denied {u : State} {g : Pg} {slot x : Nat} {r : BitVec 256} (h : u.slotOk (37 + g.val) x true = false) :
    u.recordEnds g slot x r = (u.violate (37 + g.val) x true).modPg g (fun p => { p with flWr := p.flWr + 1 }) :=
  if_neg fun e => Bool.false_ne_true (h.symm.trans e)

/-- A write of a record that the regions let pass. -/
theorem failRecord_written (s : State) (g : Pg) (rest : List (BitVec 256)) (r : BitVec 256) (at_ : Nat) (full : Bool)
    (hok : s.slotOk (37 + g.val) (s.ringSlot g (s.nextRec g)) true = true) {t : State}
    (ht : t = (s.recordPlaced g rest at_ full).recordEnds g (s.nextRec g) (s.ringSlot g (s.nextRec g)) r) :
    t.pg[g] = { s.pg[g] with flQueue := rest, flWrote := some (s.recordGranted g rest at_).clk.now, flWr := s.pg[g].flWr + 1,
                             ring := smPut (fun _ => 0) s.pg[g].ring (s.nextRec g) r } ∧
      PgBut g s t ∧ (full = true → SetsBit (pgA g 8) 5 s t) ∧ (full = false → t.flg = s.flg) ∧
      t.clk.now = (s.recordGranted g rest at_).clk.now ∧ CtrsBut conflictCtrs s t ∧ Within [.clk, .flg, .ctr, .pg, .mem, .msix] s t := by
  have hw := s.recordPlaced_within g rest at_ full
  rw [State.recordEnds_written ((State.slotOk_congr hw.effEq _ _ _).trans hok)] at ht
  obtain ⟨f, hf⟩ : ∃ f : PinGroup → PinGroup, f = fun p => { p with ring := smPut (fun _ => 0) p.ring (s.nextRec g) r, flWr := p.flWr + 1 } := ⟨_, rfl⟩
  have hpg := (s.recordPlaced_pg g rest at_ full).mod f
  have hsp := State.spareFollow_within ((s.recordPlaced g rest at_ full).modPg g f) (s.ringSlot g (s.nextRec g))
  rw [← hf] at ht
  rw [← ht] at hsp
  obtain ⟨hself, hbut⟩ := hpg.same (u := t) hsp.pgEq
  obtain ⟨hfull, hnot⟩ := s.recordPlaced_flags g rest at_ full
  have hflg : t.flg = (s.recordPlaced g rest at_ full).flg := hsp.flgEq
  refine ⟨by rw [hself, hf], hbut, fun h => (hfull h).then hflg, fun h => hflg.trans (hnot h), ?_, ?_, ?_⟩
  · rw [hsp.clkEq]; exact congrArg Clock.now (s.recordPlaced_clk g rest at_ full)
  · exact (s.recordPlaced_ctrs g rest at_ full).trans (CtrsBut.of_eq hsp.ctrEq)
  · exact (hw.seq (l := [.clk, .flg, .ctr, .pg, .mem, .msix]) (State.modPg_within _ g f)).seq hsp

/-- A write of a record that they deny. -/
theorem failRecord_denied (s : State) (g : Pg) (rest : List (BitVec 256)) (r : BitVec 256) (at_ : Nat) (full : Bool)
    (hok : s.slotOk (37 + g.val) (s.ringSlot g (s.nextRec g)) true = false) {t : State}
    (ht : t = (s.recordPlaced g rest at_ full).recordEnds g (s.nextRec g) (s.ringSlot g (s.nextRec g)) r) :
    t.pg[g] = { s.pg[g] with flQueue := rest, flWrote := some (s.recordGranted g rest at_).clk.now, flWr := s.pg[g].flWr + 1 } ∧
      PgBut g s t ∧ t.mem.violSrc.toNat = 37 + g.val ∧ t.mem.violWrite = true := by
  have hw := s.recordPlaced_within g rest at_ full
  rw [State.recordEnds_denied ((State.slotOk_congr hw.effEq _ _ _).trans hok)] at ht
  have hv := State.violate_within (s.recordPlaced g rest at_ full) (37 + g.val) (s.ringSlot g (s.nextRec g)) true
  obtain ⟨hsrc, hwr⟩ := State.violate_mem (s.recordPlaced g rest at_ full) (37 + g.val) (s.ringSlot g (s.nextRec g)) true
  have hpg := (s.recordPlaced_pg g rest at_ full).same hv.pgEq
  obtain ⟨hself, hbut⟩ : PgIs g { s.pg[g] with flQueue := rest, flWrote := some (s.recordGranted g rest at_).clk.now,
                                               flWr := s.pg[g].flWr + 1 } s t := ht ▸ hpg.modBy rfl
  refine ⟨hself, hbut, ?_, ?_⟩
  · rw [ht]
    refine (congrArg BitVec.toNat hsrc).trans ?_
    rw [BitVec.toNat_ofNat]
    omega
  · rw [ht]; exact hwr

/-! ### TCAL (R254) -/

theorem State.cmdShow_shows (s : State) (a : Nat) (m : Word) :
    (s.cmdShow a m).cmdWord a = s.cmdWord a ||| m ∧ CmdsBut [a] s (s.cmdShow a m) := by
  unfold State.cmdShow CmdsBut State.cmdWord
  dsimp only
  refine ⟨by rw [smGet_mod_self], fun b hb => ?_⟩
  rw [smGet_mod_other _ _ _ (List.ne_of_not_mem_cons hb)]
  exact ⟨rfl, rfl⟩

section
variable {s : State} {g : Pg} (hu : s.undef = false)
include hu

theorem tcal_idles (h : ¬ (s.hasPg g = true ∧ s.pg[g].tcalUntil = none)) : exec (.tcal g) s = .next s := by
  show execTcal g s = _
  rw [execTcal, guarded_next hu]
  refine congrArg Host.Outcome.next (if_pos ?_)
  by_cases hg : s.hasPg g = true
  · rw [Bool.or_eq_true, Option.isSome_iff_ne_none]
    exact .inr fun hn => h ⟨hg, hn⟩
  · rw [Bool.not_eq_true _ |>.mp hg]; rfl

omit hu in
theorem tcal_there (h : s.hasPg g = true ∧ s.pg[g].tcalUntil = none) : ¬ (!s.hasPg g || s.pg[g].tcalUntil.isSome) = true := by
  rw [h.1, h.2]; decide

theorem tcal_holds (h : s.hasPg g = true ∧ s.pg[g].tcalUntil = none)
    (hh : (s.clk.plan.getLsbD (8 + g.val) && (s.prepared 4 || !s.clk.pll.getLsbD 1)) = true) : exec (.tcal g) s = .next (s.hold (.tcal g)) := by
  show execTcal g s = _
  rw [execTcal, guarded_next hu]
  exact congrArg Host.Outcome.next ((if_neg (tcal_there h)).trans (if_pos hh))

theorem tcal_runs (h : s.hasPg g = true ∧ s.pg[g].tcalUntil = none)
    (hh : (s.clk.plan.getLsbD (8 + g.val) && (s.prepared 4 || !s.clk.pll.getLsbD 1)) = false)
    (hp : s.clk.plan.getLsbD (8 + g.val) = true) (hi : s.pgIdle g = true) :
    exec (.tcal g) s = .next ((s.cmdShow (tsgA g 0) 1).modPg g (fun p => { p with tcalUntil := some (s.clk.now + 320000) })) := by
  show execTcal g s = _
  rw [execTcal, guarded_next hu]
  exact congrArg Host.Outcome.next ((if_neg (tcal_there h)).trans ((if_neg fun e => Bool.false_ne_true (hh.symm.trans e)).trans
    (if_pos ((Bool.and_eq_true _ _).mpr ⟨hi, hp⟩))))

theorem tcal_drops (h : s.hasPg g = true ∧ s.pg[g].tcalUntil = none)
    (hh : (s.clk.plan.getLsbD (8 + g.val) && (s.prepared 4 || !s.clk.pll.getLsbD 1)) = false)
    (hp : s.clk.plan.getLsbD (8 + g.val) = false ∨ s.pgIdle g = false) :
    exec (.tcal g) s = .next ((s.cmdTake (tsgA g 0) 1).setBit (tsgA g 8) 4) := by
  show execTcal g s = _
  rw [execTcal, guarded_next hu]
  refine congrArg Host.Outcome.next ((if_neg (tcal_there h)).trans ((if_neg fun e => Bool.false_ne_true (hh.symm.trans e)).trans
    (if_neg ?_)))
  rcases hp with hp | hp <;> rw [hp] <;> simp

theorem tcalDone_ends {v : Nat} (h : s.pg[g].tcalUntil = some v) :
    exec (.tcalDone g) s = .next ((((s.upto v).modPg g (fun p => { p with tcalUntil := none, calibrated := true })).setBit (tsgA g 8) 5).cmdTake
      (tsgA g 0) 1) := by
  show execTcalDone g s = _
  rw [execTcalDone, guarded_next hu, h]

end

theorem SetsBit.take {a i c : Nat} {m : Word} {s t : State} (h : SetsBit a i s t) : SetsBit a i s (t.cmdTake c m) := h.then rfl

/-! ### O39 -/

section
variable {s : State} {g : Pg} (hu : s.undef = false)
include hu

theorem ffArm_settles (hg : s.hasPg g = true) :
    (∀ x, s.pg[g].ffLast = some (s.clk.now, x) → Gives (.ffArm g) s (fun t => t.pg[g] = { s.pg[g] with ff := some x, ffArmed := false } ∧
        PgBut g s t ∧ SetsBit (pgA g 8) 0 s t ∧ Within [.flg, .pg, .msix] s t)) ∧
      ((∀ x, s.pg[g].ffLast = some x → x.1 ≠ s.clk.now) → Gives (.ffArm g) s (fun t =>
        t.pg[g] = { s.pg[g] with ff := none, ffArmed := true } ∧ PgBut g s t ∧ Within [.pg] s t)) := by
  refine ⟨fun x hx => ?_, fun hx => ?_⟩
  · have h := ffArm_captures hu hg hx
    have h1 : PgIs g { s.pg[g] with ff := none, ffArmed := true } s (s.modPg g (fun p => { p with ff := none, ffArmed := true })) :=
      (PgIs.refl g s).modBy rfl
    have h2 : PgIs g { s.pg[g] with ff := some x, ffArmed := false } s ((s.modPg g (fun p => { p with ff := none, ffArmed := true })).modPg g
        (fun p => { p with ff := some x, ffArmed := false })) := h1.modBy rfl
    have h2 : PgIs g { s.pg[g] with ff := some x, ffArmed := false } s
        ((s.modPg g (fun p => { p with ff := none, ffArmed := true })).takeFf g x) := h2.same (State.setBit_within _ _ 0).pgEq
    exact ⟨_, h, h2.self, h2.but, SetsBit.of (pgA_not_pend g 8) rfl, execFfArm_within g s h⟩
  · have h1 : PgIs g { s.pg[g] with ff := none, ffArmed := true } s (s.modPg g (fun p => { p with ff := none, ffArmed := true })) :=
      (PgIs.refl g s).modBy rfl
    exact ⟨_, ffArm_arms hu hg hx, h1.self, h1.but, State.modPg_within _ g _⟩

theorem flRd_settles (v : Word) (hg : s.hasPg g = true) :
    (s.pgIdle g = true ∨ (v - s.pg[g].flRd).toNat ≤ (s.pg[g].flWr - s.pg[g].flRd).toNat → Gives (.flRdCountWrite g v) s (fun t =>
        t.pg[g] = { s.pg[g] with flRd := v, flRdOld := some (s.clk.now, s.pg[g].flRd) } ∧ PgBut g s t ∧ Within [.pg] s t)) ∧
      (¬ (s.pgIdle g = true ∨ (v - s.pg[g].flRd).toNat ≤ (s.pg[g].flWr - s.pg[g].flRd).toNat) → Gives (.flRdCountWrite g v) s (fun t =>
        SetsBit (pgA g 8) 7 s t ∧ Within [.flg, .msix] s t)) := by
  refine ⟨fun h => ?_, fun h => ?_⟩
  · have h1 : PgIs g { s.pg[g] with flRd := v, flRdOld := some (s.clk.now, s.pg[g].flRd) } s
        (s.modPg g (fun p => { p with flRd := v, flRdOld := some (s.clk.now, p.flRd) })) := (PgIs.refl g s).modBy rfl
    exact ⟨_, flRdCountWrite_taken hu hg h, h1.self, h1.but, State.modPg_within _ g _⟩
  · exact ⟨_, flRdCountWrite_flags hu hg h, SetsBit.of (pgA_not_pend g 8) rfl, State.setBit_within _ _ 7⟩

theorem failRecord_loses {r : BitVec 256} {rest : List (BitVec 256)} (hq : s.pg[g].flQueue = r :: rest)
    (hf : s.ringFull g (s.writeTick g) = true) (hw : s.effB (pgA g 0) 2 = false) :
    Gives (.failRecordWrite g) s (fun t => t.pg[g] = { s.pg[g] with flQueue := rest, flWrote := some (s.writeTick g) } ∧
      PgBut g s t ∧ t.counter (pgA g 0x3C) = min (s.counter (pgA g 0x3C) + 1) top32 ∧ CtrsBut [pgA g 0x3C] s t ∧
      SetsBit (pgA g 8) 4 s t ∧ t.clk.now = s.writeTick g ∧ Within [.clk, .flg, .ctr, .pg, .msix] s t) := by
  have h := failRecordWrite_loses hu hq hf hw
  obtain ⟨t, ht⟩ : ∃ t, t = ((s.recordTaken g rest (s.writeTick g)).count (pgA g 0x3C) 1).setBit (pgA g 8) 4 := ⟨_, rfl⟩
  have hw1 := recordTaken_within s g rest (s.writeTick g)
  have hw2 := State.count_within (s.recordTaken g rest (s.writeTick g)) (pgA g 0x3C) 1
  have hw3 := State.setBit_within ((s.recordTaken g rest (s.writeTick g)).count (pgA g 0x3C) 1) (pgA g 8) 4
  have hb : SetsBit (pgA g 8) 4 s t := ht ▸ SetsBit.of (pgA_not_pend g 8) (hw2.flgEq.trans hw1.flgEq)
  have hclk : t.clk = (s.recordTaken g rest (s.writeTick g)).clk := by rw [ht]; exact hw3.clkEq.trans hw2.clkEq
  have hc : t.counter (pgA g 0x3C) = min (s.counter (pgA g 0x3C) + 1) top32 := by
    rw [ht, hw3.counterEq, counter_count_self _ _ _ (by decide), hw1.counterEq]
  have hcb : CtrsBut [pgA g 0x3C] s t := by
    rw [ht]
    exact ((hw1.ctrsBut _).count 1 (List.mem_singleton_self _)).trans (hw3.ctrsBut _)
  have hpg := (s.recordTaken_pg g rest (s.writeTick g)).same (u := t) (by rw [ht]; exact hw3.pgEq.trans hw2.pgEq)
  rw [← ht] at h
  refine ⟨t, h, hpg.self, hpg.but, hc, hcb, hb, ?_, ?_⟩
  · rw [hclk]
    exact max_eq_right (Nat.le_max_left _ _)
  · rw [ht]
    exact (hw1.seq (l := [.clk, .flg, .ctr, .pg, .msix]) hw2).seq hw3

theorem failRecord_writes {r : BitVec 256} {rest : List (BitVec 256)} (hq : s.pg[g].flQueue = r :: rest)
    (hf : ¬ s.ringFull g (s.writeTick g) = true ∨ s.effB (pgA g 0) 2 = true) :
    (s.slotOk (37 + g.val) (s.ringSlot g (s.nextRec g)) true = true → Gives (.failRecordWrite g) s (fun t =>
        t.pg[g] = { s.pg[g] with flQueue := rest, flWrote := some (s.recordGranted g rest (s.writeTick g)).clk.now, flWr := s.pg[g].flWr + 1,
                                 ring := smPut (fun _ => 0) s.pg[g].ring (s.nextRec g) r } ∧
        PgBut g s t ∧ (s.ringFull g (s.writeTick g) = true → SetsBit (pgA g 8) 5 s t) ∧
        (¬ s.ringFull g (s.writeTick g) = true → t.flg = s.flg) ∧ t.clk.now = (s.recordGranted g rest (s.writeTick g)).clk.now ∧
        CtrsBut conflictCtrs s t ∧ Within [.clk, .flg, .ctr, .pg, .mem, .msix] s t)) ∧
      (s.slotOk (37 + g.val) (s.ringSlot g (s.nextRec g)) true = false → Gives (.failRecordWrite g) s (fun t =>
        t.pg[g] = { s.pg[g] with flQueue := rest, flWrote := some (s.recordGranted g rest (s.writeTick g)).clk.now,
                                 flWr := s.pg[g].flWr + 1 } ∧ PgBut g s t ∧
        t.mem.violSrc.toNat = 37 + g.val ∧ t.mem.violWrite = true ∧ Within [.clk, .flg, .ctr, .pg, .mem, .msix, .flt] s t)) := by
  have h := failRecordWrite_writes hu hq rfl (hf.imp_left fun h => Bool.not_eq_true _ |>.mp h)
  refine ⟨fun hok => ?_, fun hok => ?_⟩
  · obtain ⟨h1, h2, h3, h4, h5, h6, h7⟩ := failRecord_written s g rest r (s.writeTick g) (s.ringFull g (s.writeTick g)) hok rfl
    exact ⟨_, h, h1, h2, h3, fun hn => h4 (Bool.not_eq_true _ |>.mp hn), h5, h6, h7⟩
  · obtain ⟨h1, h2, h3, h4⟩ := failRecord_denied s g rest r (s.writeTick g) (s.ringFull g (s.writeTick g)) hok rfl
    exact ⟨_, h, h1, h2, h3, h4, execFailRecordWrite_within g s h⟩

theorem tcal_settles (h : s.hasPg g = true ∧ s.pg[g].tcalUntil = none)
    (hh : (s.clk.plan.getLsbD (8 + g.val) && (s.prepared 4 || !s.clk.pll.getLsbD 1)) = false) :
    (s.clk.plan.getLsbD (8 + g.val) = true → s.pgIdle g = true → Gives (.tcal g) s (fun t =>
        t.pg[g] = { s.pg[g] with tcalUntil := some (s.clk.now + 320000) } ∧ PgBut g s t ∧
        t.cmdWord (tsgA g 0) = s.cmdWord (tsgA g 0) ||| 1 ∧ CmdsBut [tsgA g 0] s t ∧ Within [.cmd, .more, .pg] s t)) ∧
      (s.clk.plan.getLsbD (8 + g.val) = false ∨ s.pgIdle g = false → Gives (.tcal g) s (fun t =>
        SetsBit (tsgA g 8) 4 s t ∧ Takes (tsgA g 0) 1 s t ∧ Within [.flg, .cmd, .more, .msix] s t)) := by
  refine ⟨fun hp hi => ?_, fun hp => ?_⟩
  · have h1 : PgIs g s.pg[g] s (s.cmdShow (tsgA g 0) 1) := PgIs.of_eq rfl
    have h2 : PgIs g { s.pg[g] with tcalUntil := some (s.clk.now + 320000) } s
        ((s.cmdShow (tsgA g 0) 1).modPg g (fun p => { p with tcalUntil := some (s.clk.now + 320000) })) := h1.modBy rfl
    obtain ⟨hc, hcb⟩ := s.cmdShow_shows (tsgA g 0) 1
    exact ⟨_, tcal_runs hu h hh hp hi, h2.self, h2.but, hc, hcb,
      ((State.cmdShow_within s (tsgA g 0) 1).seq (l := [.cmd, .more, .pg]) (State.modPg_within _ g _))⟩
  · have hw := State.cmdTake_within s (tsgA g 0) 1
    have hb := State.setBit_within (s.cmdTake (tsgA g 0) 1) (tsgA g 8) 4
    exact ⟨_, tcal_drops hu h hh hp, SetsBit.of (tsgA_not_pend g 8) hw.flgEq, (s.cmdTake_takes (tsgA g 0) 1).cmd_eq hb.cmdEq hb.moreEq,
      (hw.seq (l := [.flg, .cmd, .more, .msix]) hb)⟩

theorem tcalDone_settles {v : Nat} (h : s.pg[g].tcalUntil = some v) :
    Gives (.tcalDone g) s (fun t => t.pg[g] = { s.pg[g] with tcalUntil := none, calibrated := true } ∧
      PgBut g s t ∧ SetsBit (tsgA g 8) 5 s t ∧ Takes (tsgA g 0) 1 s t ∧ t.clk.now = max s.clk.now v ∧
      Within [.clk, .flg, .cmd, .more, .pg, .msix] s t) := by
  obtain ⟨u, hu1⟩ : ∃ u, u = ((s.upto v).modPg g (fun p => { p with tcalUntil := none, calibrated := true })).setBit (tsgA g 8) 5 := ⟨_, rfl⟩
  have hx := tcalDone_ends hu h
  have hw := State.setBit_within ((s.upto v).modPg g (fun p => { p with tcalUntil := none, calibrated := true })) (tsgA g 8) 5
  have hb : SetsBit (tsgA g 8) 5 s u := hu1 ▸ SetsBit.of (tsgA_not_pend g 8) rfl
  have h1 : PgIs g s.pg[g] s (s.upto v) := PgIs.of_eq rfl
  have h2 : PgIs g { s.pg[g] with tcalUntil := none, calibrated := true } s u := by
    rw [hu1]; exact (h1.modBy rfl).same hw.pgEq
  rw [← hu1] at hx hw
  have hc := State.cmdTake_within u (tsgA g 0) 1
  obtain ⟨hself, hbut⟩ := h2.same hc.pgEq
  exact ⟨_, hx, hself, hbut, hb.take, (u.cmdTake_takes (tsgA g 0) 1).from_eq hw.cmdEq hw.moreEq,
    (congrArg Clock.now (hc.clkEq.trans hw.clkEq) :), execTcalDone_within g s hx⟩

end

/-- Settles O39, command by command. -/
theorem failRecords : Obligations.FailRecords := by
  unfold Obligations.FailRecords
  intro s g hu
  refine ⟨fun hg => ⟨⟨s, ffArm_absent hu hg, rfl⟩, fun v => ⟨s, flRdCountWrite_absent v hu hg, rfl⟩⟩, fun hg => ffArm_settles hu hg,
    fun v hg => flRd_settles hu v hg, fun r rest hq => ?_, ?_, fun h hh => ?_, fun h hh hp hi => (tcal_settles hu h hh).1 hp hi,
    fun h hh hp => (tcal_settles hu h hh).2 hp, fun v h => tcalDone_settles hu h⟩
  · refine ⟨fun hf hw => failRecord_loses hu hq (decide_eq_true hf) hw, fun hf hok => ?_, fun hf hok => ?_⟩
    · obtain ⟨t, hx, h1, h2, h3, h4, h5, h6, h7⟩ := (failRecord_writes hu hq (hf.imp_left fun h e => h (of_decide_eq_true e))).1 hok
      exact ⟨t, hx, h1, h2, fun h => h3 (decide_eq_true h), fun h => h4 fun e => h (of_decide_eq_true e), h5, h6, h7⟩
    · exact (failRecord_writes hu hq (hf.imp_left fun h e => h (of_decide_eq_true e))).2 hok
  · exact fun h => ⟨s, tcal_idles hu h, rfl⟩
  · exact ⟨_, tcal_holds hu h hh, rfl, State.hold_within s _⟩

end Sys2Proof.Machine
end

