-- ==== Sys2Proof/Proofs/Strobes.lean ====
section
/-! PROOF. Strobes of a pin group: what a result counts, and what a vector's end leaves (R223 to R231). -/
namespace Sys2Proof.Machine

theorem pinA_not_pend (p : PinIdx) (off : Nat) : pinA p off ∉ pendWords := by
  simp only [pendWords, List.mem_cons, List.not_mem_nil, or_false, not_or]
  unfold pinA hostA
  omega

/-! ### The end of a vector (R225 to R231) -/

/-- A group's strobes stand, no other group changes, no counter but PG_FL_LOST counts, and flags only rise. -/
structure VecTurns (g : Pg) (s t : State) : Prop where
  strobes : t.pg[g].strobes = s.pg[g].strobes
  but : PgBut g s t
  ctrs : CtrsBut [pgA g 0x3C] s t
  runs : Runs s t

theorem VecTurns.refl (g : Pg) (s : State) : VecTurns g s s := ⟨rfl, fun _ _ => rfl, CtrsBut.refl _ s, Runs.refl s⟩

theorem VecTurns.trans {g : Pg} {s t u : State} (h : VecTurns g s t) (k : VecTurns g t u) : VecTurns g s u :=
  ⟨k.strobes.trans h.strobes, fun d hd => (k.but d hd).trans (h.but d hd), h.ctrs.trans k.ctrs, h.runs.trans k.runs⟩

theorem VecTurns.mod (g : Pg) (s : State) {f : PinGroup → PinGroup} (hf : ∀ p, (f p).strobes = p.strobes) : VecTurns g s (s.modPg g f) :=
  ⟨by rw [State.modPg_self, hf], fun d hd => State.modPg_other s g f hd, CtrsBut.of_eq rfl, Runs.of_within (State.modPg_within s g f)⟩

theorem VecTurns.ofMod {g : Pg} {s t : State} {f : PinGroup → PinGroup} (h : VecTurns g (s.modPg g f) t)
    (hf : ∀ p, (f p).strobes = p.strobes) : VecTurns g s t := (VecTurns.mod g s hf).trans h

theorem VecTurns.setBit (g : Pg) (s : State) (a i : Nat) : VecTurns g s (s.setBit a i) := by
  have h := State.setBit_within s a i
  exact ⟨by rw [h.pgEq], fun d _ => by rw [h.pgEq], h.ctrsBut _, Runs.setBit s a i⟩

theorem VecTurns.lost (g : Pg) (s : State) : VecTurns g s (s.count (pgA g 0x3C) 1) :=
  ⟨rfl, fun _ _ => rfl, (CtrsBut.refl _ s).count 1 (List.mem_singleton_self _), Runs.of_within (State.count_within s _ 1)⟩

theorem VecTurns.ite {g : Pg} {c : Prop} [Decidable c] {s t u : State} (h : VecTurns g s t) (k : VecTurns g s u) :
    VecTurns g s (if c then t else u) := by
  split
  · exact h
  · exact k

theorem VecTurns.logVector (s : State) (g : Pg) (v : VecOpen) : VecTurns g s (s.logVector g v) := by
  unfold State.logVector
  refine VecTurns.ite (VecTurns.refl g s) (VecTurns.ofMod (VecTurns.ite ?_ (VecTurns.ofMod (VecTurns.refl g _) fun _ => rfl)) fun _ => rfl)
  exact (VecTurns.lost g _).trans (VecTurns.setBit g _ _ _)

theorem VecTurns.takeFf (s : State) (g : Pg) (f : FirstFail) : VecTurns g s (s.takeFf g f) :=
  VecTurns.ofMod (VecTurns.setBit g _ _ _) fun _ => rfl

theorem VecTurns.closeVector (s : State) (g : Pg) (v : VecOpen) : VecTurns g s (s.closeVector g v) := by
  unfold State.closeVector
  refine VecTurns.trans (VecTurns.ite (VecTurns.refl g s) ?_) (VecTurns.logVector _ g v)
  have hnote : VecTurns g s (s.modPg g (fun p => { p with ffLast := some (s.clk.now, s.firstFail v) })) := VecTurns.mod g s fun _ => rfl
  refine VecTurns.trans (t := match s.pg[g].ffLast with
    | some x => if x.1 = s.clk.now then s else s.modPg g (fun p => { p with ffLast := some (s.clk.now, s.firstFail v) })
    | none => s.modPg g (fun p => { p with ffLast := some (s.clk.now, s.firstFail v) })) ?_
    (VecTurns.ite (VecTurns.takeFf _ g _) (VecTurns.refl g _))
  split
  · exact VecTurns.ite (VecTurns.refl g s) hnote
  · exact hnote

theorem VecTurns.closeVectors (s : State) (g : Pg) : VecTurns g s (s.closeVectors g) := by
  unfold State.closeVectors
  exact VecTurns.ofMod (foldl_rel (VecTurns g) (VecTurns.refl g) VecTurns.trans _ (fun u v => VecTurns.closeVector u g v) _ _) fun _ => rfl

/-! ### What a result counts (R223 to R227, R234) -/

/-- What a failing strobe counts in a state: the pin, where it is its first fail of the vector. -/
def State.pinFails (s : State) (p : PinIdx) (b : Bool) : State := if b then (s.count (pinA p 4) 1).setBit (pinA p 8) 0 else s

/-- The group, where it is the vector's first fail. -/
def State.groupFails (s : State) (g : Pg) (b : Bool) (at_ : Nat) : State :=
  if b then ((s.count (pgA g 0xC) 1).setBit (pgA g 8) 1).fire (96 + g) at_ else s

/-- The vector holds the failing pin. -/
def State.vecFails (s : State) (g : Pg) (start : Nat) (m : BitVec 16) : State :=
  s.modVec g start (fun v => { v with fails := v.fails ||| m, passes := v.passes &&& ~~~m })

theorem State.failStrobe_eq (s : State) (g : Pg) (x : StrobePend) (v : VecOpen) (inst : Nat) :
    s.failStrobe g x v inst = (((s.pinFails (pinOf g x.pin) (!v.fails.getLsbD x.pin)).groupFails g (decide (v.fails = 0))
      (upTick (inst + 40 * 1024))).vecFails g v.start (1#16 <<< x.pin.val)).matchStrobe g x v := by
  unfold State.failStrobe State.groupFails
  simp only [decide_eq_true_eq]
  rfl

theorem State.pinFails_counter (s : State) (p : PinIdx) (b : Bool) :
    (s.pinFails p b).counter (pinA p 4) = (if b then min (s.counter (pinA p 4) + 1) top32 else s.counter (pinA p 4)) ∧
      CtrsBut [pinA p 4] s (s.pinFails p b) := by
  unfold State.pinFails
  cases b with
  | false => exact ⟨rfl, CtrsBut.refl _ s⟩
  | true =>
    refine ⟨?_, ((CtrsBut.refl _ s).count 1 (List.mem_singleton_self _)).trans ((State.setBit_within _ _ 0).ctrsBut _)⟩
    rw [if_pos rfl, if_pos rfl, (State.setBit_within _ _ 0).counterEq, counter_count_self _ _ _ (by decide)]

theorem State.groupFails_counter (s : State) (g : Pg) (b : Bool) (at_ : Nat) :
    (s.groupFails g b at_).counter (pgA g 0xC) = (if b then min (s.counter (pgA g 0xC) + 1) top32 else s.counter (pgA g 0xC)) ∧
      CtrsBut [pgA g 0xC] s (s.groupFails g b at_) := by
  unfold State.groupFails
  cases b with
  | false => exact ⟨rfl, CtrsBut.refl _ s⟩
  | true =>
    refine ⟨?_, (((CtrsBut.refl _ s).count 1 (List.mem_singleton_self _)).trans ((State.setBit_within _ _ 1).ctrsBut _)).trans
      ((State.fire_within _ _ _).ctrsBut _)⟩
    rw [if_pos rfl, if_pos rfl, (State.fire_within _ _ _).counterEq, (State.setBit_within _ _ 1).counterEq,
      counter_count_self _ _ _ (by decide)]

/-- Flags of the pins and of the pin groups only rise. -/
def PinRises (s t : State) : Prop := ∀ a i, 0x100000 ≤ a → (s.flag a).getLsbD i = true → (t.flag a).getLsbD i = true

theorem PinRises.refl (s : State) : PinRises s s := fun _ _ _ h => h
theorem PinRises.trans {s t u : State} (h : PinRises s t) (k : PinRises t u) : PinRises s u := fun a i ha hb => k a i ha (h a i ha hb)

theorem high_not_pend {a : Nat} (h : 0x100000 ≤ a) : a ∉ pendWords := by
  simp only [pendWords, List.mem_cons, List.not_mem_nil, or_false, not_or]
  unfold hostA
  omega

theorem Runs.rises {s t : State} (h : Runs s t) : PinRises s t := fun a i ha hb => h.flags a i (high_not_pend ha) hb

theorem PinRises.fire (s : State) (p at_ : Nat) : PinRises s (s.fire p at_) := fun a i ha hb => by
  rw [State.fire_flag s p at_ (.inr (by unfold brgA; omega))]
  exact hb

theorem State.pinFails_rises (s : State) (p : PinIdx) (b : Bool) : PinRises s (s.pinFails p b) ∧
    (b = true → ((s.pinFails p b).flag (pinA p 8)).getLsbD 0 = true) := by
  unfold State.pinFails
  cases b with
  | false => exact ⟨PinRises.refl s, fun h => absurd h (by decide)⟩
  | true => exact ⟨((Runs.of_within (State.count_within s _ 1)).trans (Runs.setBit _ _ 0)).rises,
      fun _ => State.flagBit_setBit _ (pinA_not_pend p 8) (bit32_self (by decide))⟩

theorem State.groupFails_rises (s : State) (g : Pg) (b : Bool) (at_ : Nat) : PinRises s (s.groupFails g b at_) ∧
    (b = true → ((s.groupFails g b at_).flag (pgA g 8)).getLsbD 1 = true) := by
  unfold State.groupFails
  cases b with
  | false => exact ⟨PinRises.refl s, fun h => absurd h (by decide)⟩
  | true =>
    refine ⟨((Runs.of_within (State.count_within s _ 1)).trans (Runs.setBit _ _ 1)).rises.trans (PinRises.fire _ _ _), fun _ => ?_⟩
    rw [if_pos rfl, State.fire_flag _ _ _ (.inr (by unfold brgA pgA; omega))]
    exact State.flagBit_setBit _ (pgA_not_pend g 8) (bit32_self (by decide))

/-- What a vector's change leaves. -/
theorem VecTurns.modVec (s : State) (g : Pg) (start : Nat) (f : VecOpen → VecOpen) : VecTurns g s (s.modVec g start f) :=
  VecTurns.mod g s fun _ => rfl

theorem State.matchStrobe_leaves (s : State) (g : Pg) (x : StrobePend) (v : VecOpen) :
    (s.matchStrobe g x v).ctr = s.ctr ∧ (s.matchStrobe g x v).pg = s.pg ∧ PinRises s (s.matchStrobe g x v) ∧
      (v.inMatch = false → s.matchStrobe g x v = s) := by
  have hw := s.matchStrobe_within g x v
  refine ⟨hw.ctrEq, hw.pgEq, ?_, fun h => if_pos (by rw [h]; rfl)⟩
  unfold State.matchStrobe
  dsimp only
  split
  · exact PinRises.refl s
  · split
    · exact (Runs.of_within (State.modClu_within s _ _)).rises
    · exact (Runs.setBit s _ _).rises

theorem pinA_ne_lost (p : PinIdx) (g : Pg) : pinA p 4 ∉ [pgA g 0x3C] := by
  simp only [List.mem_singleton]; unfold pinA pgA; omega

theorem fails_ne_lost (g : Pg) : pgA g 0xC ∉ [pgA g 0x3C] := by
  simp only [List.mem_singleton]; unfold pgA; omega

theorem pinA_ne_fails (p : PinIdx) (g : Pg) : pinA p 4 ∉ [pgA g 0xC] := by
  simp only [List.mem_singleton]; unfold pinA pgA; omega

theorem fails_ne_pinA (p : PinIdx) (g : Pg) : pgA g 0xC ∉ [pinA p 4] := by
  simp only [List.mem_singleton]; unfold pinA pgA; omega

/-- What a failing strobe counts and sets. -/
structure StrobeFails (g : Pg) (p : PinIdx) (j : Fin 16) (v : VecOpen) (s t : State) : Prop where
  pin : t.counter (pinA p 4) = if v.fails.getLsbD j.val then s.counter (pinA p 4) else min (s.counter (pinA p 4) + 1) top32
  group : t.counter (pgA g 0xC) = if v.fails = 0 then min (s.counter (pgA g 0xC) + 1) top32 else s.counter (pgA g 0xC)
  pinFlag : v.fails.getLsbD j.val = false → (t.flag (pinA p 8)).getLsbD 0 = true
  groupFlag : v.fails = 0 → (t.flag (pgA g 8)).getLsbD 1 = true
  clu : v.inMatch = false → t.clu = s.clu

theorem State.failStrobe_fails (s : State) (g : Pg) (x : StrobePend) (v : VecOpen) (inst : Nat) :
    StrobeFails g (pinOf g x.pin) x.pin v s (s.failStrobe g x v inst) ∧ PinRises s (s.failStrobe g x v inst) ∧
      (s.failStrobe g x v inst).pg[g].strobes = s.pg[g].strobes ∧ PgBut g s (s.failStrobe g x v inst) := by
  obtain ⟨hpc, hpb⟩ := s.pinFails_counter (pinOf g x.pin) (!v.fails.getLsbD x.pin)
  obtain ⟨hpr, hpf⟩ := s.pinFails_rises (pinOf g x.pin) (!v.fails.getLsbD x.pin)
  have hpw : Within [.flg, .ctr, .msix] s (s.pinFails (pinOf g x.pin) (!v.fails.getLsbD x.pin)) :=
    Within.ite ((State.count_within s _ 1).seq (State.setBit_within _ _ 0)) (Within.refl _ s)
  rw [State.failStrobe_eq]
  generalize s.pinFails (pinOf g x.pin) (!v.fails.getLsbD x.pin) = a at *
  obtain ⟨hgc, hgb⟩ := a.groupFails_counter g (decide (v.fails = 0)) (upTick (inst + 40 * 1024))
  obtain ⟨hgr, hgf⟩ := a.groupFails_rises g (decide (v.fails = 0)) (upTick (inst + 40 * 1024))
  have hgw : Within [.flg, .ctr, .brg, .msix] a (a.groupFails g (decide (v.fails = 0)) (upTick (inst + 40 * 1024))) :=
    Within.ite (((State.count_within a _ 1).seq (l := [.flg, .ctr, .brg, .msix]) (State.setBit_within _ _ 1)).seq (State.fire_within _ _ _))
      (Within.refl _ a)
  generalize a.groupFails g (decide (v.fails = 0)) (upTick (inst + 40 * 1024)) = b at *
  obtain ⟨hvs, hvb, hvc, hvr⟩ : VecTurns g b (b.vecFails g v.start (1#16 <<< x.pin.val)) := VecTurns.modVec b g _ _
  have hvw : Within [.pg] b (b.vecFails g v.start (1#16 <<< x.pin.val)) := State.modVec_within b g _ _
  generalize b.vecFails g v.start (1#16 <<< x.pin.val) = c at *
  obtain ⟨hmc, hmp, hmr, hme⟩ := c.matchStrobe_leaves g x v
  have hrise : PinRises a (c.matchStrobe g x v) := (hgr.trans hvr.rises).trans hmr
  have hct : ∀ k, (c.matchStrobe g x v).counter k = b.counter k := fun k => (counter_of_ctr_eq hmc k).trans (counter_of_ctr_eq hvw.ctrEq k)
  refine ⟨⟨?_, ?_, fun h => hrise _ _ (by unfold pinA; omega) (hpf (by rw [h]; rfl)), fun h => ?_, fun h => ?_⟩,
    hpr.trans hrise, ?_, fun d hd => ?_⟩
  · rw [hct, hgb _ (pinA_ne_fails _ g), hpc]
    cases v.fails.getLsbD x.pin.val <;> rfl
  · rw [hct, hgc, hpb _ (fails_ne_pinA _ g)]
    simp only [decide_eq_true_eq]
  · exact (hvr.rises.trans hmr) _ _ (by unfold pgA; omega) (hgf (decide_eq_true h))
  · rw [hme h, hvw.cluEq (by decide), hgw.cluEq (by decide), hpw.cluEq (by decide)]
  · rw [hmp, hvs, hgw.pgEq, hpw.pgEq]
  · rw [hmp, hvb d hd, hgw.pgEq, hpw.pgEq]

/-- A result that does not fail leaves the counts, the clusters and the Bridge. -/
theorem State.judge_quiet (s : State) (g : Pg) (x : StrobePend) {r : Option Bool} (inst : Nat) (hr : r ≠ some false) :
    VecTurns g s (s.judge g x r inst) ∧ Within [.pg] s (s.judge g x r inst) := by
  unfold State.judge
  split
  · exact ⟨VecTurns.modVec s g _ _, s.passStrobe_within g x⟩
  · exact absurd rfl hr
  · exact ⟨VecTurns.refl g s, Within.refl _ s⟩

theorem State.judge_fails {s : State} {g : Pg} {x : StrobePend} {v : VecOpen} (inst : Nat)
    (h : s.pg[g].vecs.find? (fun v => decide (v.start = x.vec)) = some v) :
    s.judge g x (some false) inst = s.failStrobe g x v inst := by
  unfold State.judge
  rw [h]

/-- A result is judged, and the vectors that wait for no strobe end. -/
def State.judged (s : State) (g : Pg) (x : StrobePend) (both : Bool) (r : Option Bool) (inst : Nat) : State :=
  ((s.bothStrobe g x both).judge g x r inst).closeVectors g

theorem State.bothStrobe_leaves (s : State) (g : Pg) (x : StrobePend) (both : Bool) :
    VecTurns g s (s.bothStrobe g x both) ∧ (both = true → ((s.bothStrobe g x both).flag (pinA (pinOf g x.pin) 8)).getLsbD 1 = true ∧
      ((s.bothStrobe g x both).flag (pgA g 8)).getLsbD 2 = true) := by
  unfold State.bothStrobe
  cases both with
  | false => exact ⟨VecTurns.refl g s, fun h => absurd h (by decide)⟩
  | true =>
    refine ⟨(VecTurns.setBit g s _ 1).trans (VecTurns.setBit g _ _ 2), fun _ => ⟨?_, ?_⟩⟩
    · exact (Runs.setBit _ _ 2).flags _ _ (pinA_not_pend _ 8) (State.flagBit_setBit s (pinA_not_pend _ 8) (bit32_self (by decide)))
    · exact State.flagBit_setBit _ (pgA_not_pend g 8) (bit32_self (by decide))

/-- What every judged strobe leaves. -/
structure Judged (g : Pg) (p : PinIdx) (both : Bool) (s t : State) : Prop where
  strobes : t.pg[g].strobes = s.pg[g].strobes
  but : PgBut g s t
  both : both = true → (t.flag (pinA p 8)).getLsbD 1 = true ∧ (t.flag (pgA g 8)).getLsbD 2 = true
  within : Within [.flg, .ctr, .clu, .pg, .brg, .msix] s t

theorem State.judged_quiet (s : State) (g : Pg) (x : StrobePend) (both : Bool) {r : Option Bool} (inst : Nat) (hr : r ≠ some false) :
    Judged g (pinOf g x.pin) both s (s.judged g x both r inst) ∧
      (s.judged g x both r inst).counter (pinA (pinOf g x.pin) 4) = s.counter (pinA (pinOf g x.pin) 4) ∧
      (s.judged g x both r inst).counter (pgA g 0xC) = s.counter (pgA g 0xC) ∧
      (s.judged g x both r inst).clu = s.clu ∧ (s.judged g x both r inst).brg = s.brg := by
  obtain ⟨hb, hbf⟩ := s.bothStrobe_leaves g x both
  have hbw := s.bothStrobe_within g x both
  unfold State.judged
  generalize s.bothStrobe g x both = a at *
  obtain ⟨hj, hjw⟩ := a.judge_quiet g x inst hr
  generalize a.judge g x r inst = b at *
  have hc := VecTurns.closeVectors b g
  have hcw := State.closeVectors_within b g
  have hall := (hb.trans hj).trans hc
  refine ⟨⟨hall.strobes, hall.but, fun h => ?_, ?_⟩, hall.ctrs _ (pinA_ne_lost _ g), hall.ctrs _ (fails_ne_lost g), ?_, ?_⟩
  · exact ⟨(hj.trans hc).runs.flags _ _ (pinA_not_pend _ 8) (hbf h).1, (hj.trans hc).runs.flags _ _ (pgA_not_pend g 8) (hbf h).2⟩
  · exact (hbw.seq (l := [.flg, .ctr, .clu, .pg, .brg, .msix]) hjw).seq hcw
  · rw [hcw.cluEq (by decide), hjw.cluEq (by decide), hbw.cluEq (by decide)]
  · rw [hcw.brgEq, hjw.brgEq, hbw.brgEq]

theorem State.judged_fails {s : State} {g : Pg} {x : StrobePend} (both : Bool) {v : VecOpen} (inst : Nat)
    (hv : s.pg[g].vecs.find? (fun v => decide (v.start = x.vec)) = some v) :
    Judged g (pinOf g x.pin) both s (s.judged g x both (some false) inst) ∧
      StrobeFails g (pinOf g x.pin) x.pin v s (s.judged g x both (some false) inst) := by
  obtain ⟨hb, hbf⟩ := s.bothStrobe_leaves g x both
  have hbw := s.bothStrobe_within g x both
  unfold State.judged
  rw [State.judge_fails inst (by rw [hbw.pgEq]; exact hv)]
  generalize s.bothStrobe g x both = a at *
  obtain ⟨hf, hr, hs, hbut⟩ := a.failStrobe_fails g x v inst
  have hjw := a.failStrobe_within g x v inst
  generalize a.failStrobe g x v inst = b at *
  have hc := VecTurns.closeVectors b g
  have hcw := State.closeVectors_within b g
  have hrise : PinRises a (b.closeVectors g) := hr.trans hc.runs.rises
  refine ⟨⟨(hc.strobes.trans hs).trans hb.strobes, fun d hd => ((hc.but d hd).trans (hbut d hd)).trans (hb.but d hd), fun h => ?_, ?_⟩,
    ⟨?_, ?_, fun h => hc.runs.rises _ _ (by unfold pinA; omega) (hf.pinFlag h), fun h => hc.runs.rises _ _ (by unfold pgA; omega) (hf.groupFlag h),
      fun h => ?_⟩⟩
  · exact ⟨hrise _ _ (by unfold pinA; omega) (hbf h).1, hrise _ _ (by unfold pgA; omega) (hbf h).2⟩
  · exact (hbw.seq (l := [.flg, .ctr, .clu, .pg, .brg, .msix]) hjw).seq hcw
  · rw [hc.ctrs _ (pinA_ne_lost _ g), hf.pin, hbw.counterEq]
  · rw [hc.ctrs _ (fails_ne_lost g), hf.group, hbw.counterEq]
  · rw [hcw.cluEq (by decide), hf.clu h, hbw.cluEq (by decide)]

/-! ### STROBE (R223, R224, R229) -/

/-- The group of a pin, and its number in it. -/
def groupOf (p : PinIdx) : Pg := Fin.ofNat 4 (p.val / 16)
def placeIn (p : PinIdx) : Fin 16 := Fin.ofNat 16 (p.val % 16)

theorem pinOf_placeIn (p : PinIdx) : pinOf (groupOf p) (placeIn p) = p := by
  have h4 : p.val / 16 < 4 := by omega
  have h16 : p.val % 16 < 16 := by omega
  apply Fin.ext
  show (16 * (p.val / 16 % 4) + p.val % 16 % 16) % 64 = p.val
  omega

/-- The strobe is taken, at its instant. -/
def State.strobeAt (s : State) (g : Pg) (x : StrobePend) (inst : Nat) : State := (s.upto (upTick inst)).dropStrobe g x

theorem State.strobeAt_pg (s : State) (g : Pg) (x : StrobePend) (inst : Nat) :
    PgIs g { s.pg[g] with strobes := s.pg[g].strobes.erase x } s (s.strobeAt g x inst) := by
  have h : PgIs g s.pg[g] s (s.upto (upTick inst)) := PgIs.of_eq rfl
  unfold State.strobeAt State.dropStrobe
  exact h.modBy rfl

theorem State.strobeAt_within (s : State) (g : Pg) (x : StrobePend) (inst : Nat) : Within [.clk, .pg] s (s.strobeAt g x inst) :=
  (State.upto_within s _).seq (State.dropStrobe_within _ g x)

/-- The pin has sampled. -/
def State.sampledAt (s : State) (p : PinIdx) (x : StrobePend) : State :=
  s.modPin p (fun q => { q with lastCh := some x.atCh, lastCl := some x.atCl })

/-- A capture sample is noted in its vector. -/
def State.capturedIn (s : State) (g : Pg) (x : StrobePend) (m : BitVec 16) (pch pcl : Bool) : State :=
  s.modVec g x.vec (fun v => { v with
    obsCh := if pch then v.obsCh ||| m else v.obsCh, obsCl := if pcl then v.obsCl ||| m else v.obsCl })

/-- The result of a window: none where masked, else whether no failing interval has come. -/
def windowResult (x : StrobePend) (failing : Option Nat) : Option Bool := if x.code = 4 then none else some failing.isNone

/-- The instant at which it is known. -/
def windowInst (x : StrobePend) (failing : Option Nat) : Nat :=
  match failing with | some u => max x.atCh x.atCl + (u + 99) / 100 | none => max x.closeCh x.closeCl

section
variable {s : State} {p : PinIdx} {sel : StrobeSel} {x : StrobePend} (hu : s.undef = false)
variable (hx : s.pg[groupOf p].strobes.find? (fun x => decide (x.pin = placeIn p ∧ x.sel = sel)) = some x)
include hu hx

theorem strobe_edge (ballCh ballCl : Bool) (hw : x.window = false) (hs : sel ≠ .cap) :
    exec (.strobe p sel (.edge ballCh ballCl)) s = .next (((s.strobeAt (groupOf p) x (max x.atCh x.atCl)).sampledAt p x).judged (groupOf p) x
      ((ballCh ^^ (s.effW (pinA p 0)).getLsbD 2) && (ballCl ^^ (s.effW (pinA p 0)).getLsbD 3))
      (compareOf x.code.toNat (ballCh ^^ (s.effW (pinA p 0)).getLsbD 2) (ballCl ^^ (s.effW (pinA p 0)).getLsbD 3)) (max x.atCh x.atCl)) := by
  show execStrobe p sel _ s = _
  unfold groupOf placeIn at hx
  rw [execStrobe, guarded_next hu]
  dsimp only
  rw [hx]
  dsimp only
  rw [hw]
  exact congrArg Host.Outcome.next (if_neg hs)

theorem strobe_capture (ballCh ballCl : Bool) (hw : x.window = false) (hs : sel = .cap) :
    exec (.strobe p sel (.edge ballCh ballCl)) s = .next (((s.strobeAt (groupOf p) x (max x.atCh x.atCl)).capturedIn (groupOf p) x
      (1#16 <<< (placeIn p).val) (ballCh ^^ (s.effW (pinA p 0)).getLsbD 2) (ballCl ^^ (s.effW (pinA p 0)).getLsbD 3)).closeVectors (groupOf p)) := by
  show execStrobe p sel _ s = _
  unfold groupOf placeIn at hx
  rw [execStrobe, guarded_next hu]
  dsimp only
  rw [hx]
  dsimp only
  rw [hw]
  exact congrArg Host.Outcome.next (if_pos hs)

theorem strobe_window (ballCh ballCl : Wave) (hw : x.window = true) {hold : (Bool → Bool → Bool) → Option Nat}
    (hh : hold = pairedHold (waveUnder ballCh ((s.effW (pinA p 0)).getLsbD 2)) (waveUnder ballCl ((s.effW (pinA p 0)).getLsbD 3)) x.windowLen)
    {failing : Option Nat} (hf : failing = hold (fun pch pcl => decide (compareOf x.code.toNat pch pcl = some false))) :
    exec (.strobe p sel (.window ballCh ballCl)) s = .next ((s.strobeAt (groupOf p) x (windowInst x failing)).judged (groupOf p) x
      (hold (fun pch pcl => pch && pcl)).isSome (windowResult x failing) (windowInst x failing)) := by
  subst hf hh
  show execStrobe p sel _ s = _
  unfold groupOf placeIn at hx
  rw [execStrobe, guarded_next hu]
  dsimp only
  rw [hx]
  dsimp only
  rw [hw]
  rfl

end

/-- What a strobe leaves of its group, the other groups, the pins and the clock. -/
structure Struck (g : Pg) (p : PinIdx) (x : StrobePend) (inst : Nat) (s t : State) : Prop where
  strobes : t.pg[g].strobes = s.pg[g].strobes.erase x
  but : PgBut g s t
  pins : ∀ q : PinIdx, q ≠ p → t.pin[q] = s.pin[q]
  clk : t.clk.now = max s.clk.now (upTick inst)
  within : Within [.clk, .flg, .ctr, .clu, .pg, .pin, .brg, .msix] s t

/-- A state that a strobe's judging starts from. -/
structure StruckFrom (g : Pg) (p : PinIdx) (x : StrobePend) (inst : Nat) (s u : State) : Prop where
  pg : PgIs g { s.pg[g] with strobes := s.pg[g].strobes.erase x } s u
  pins : ∀ q : PinIdx, q ≠ p → u.pin[q] = s.pin[q]
  clk : u.clk.now = max s.clk.now (upTick inst)
  within : Within [.clk, .pg, .pin] s u

theorem StruckFrom.at_ (s : State) (g : Pg) (p : PinIdx) (x : StrobePend) (inst : Nat) : StruckFrom g p x inst s (s.strobeAt g x inst) :=
  ⟨s.strobeAt_pg g x inst, fun _ _ => rfl, rfl, (s.strobeAt_within g x inst).mono (by decide)⟩

theorem StruckFrom.sampled (s : State) (g : Pg) (p : PinIdx) (x : StrobePend) (inst : Nat) :
    StruckFrom g p x inst s ((s.strobeAt g x inst).sampledAt p x) :=
  ⟨(s.strobeAt_pg g x inst).same rfl, fun q hq => State.modPin_other _ p _ hq, rfl, (s.strobeAt_within g x inst).seq (State.modPin_within _ p _)⟩

theorem Struck.of {g : Pg} {p p' : PinIdx} {x : StrobePend} {inst : Nat} {both : Bool} {s u t : State} (h : StruckFrom g p x inst s u)
    (k : Judged g p' both u t) : Struck g p x inst s t := by
  have hw := k.within
  refine ⟨k.strobes.trans (by rw [h.pg.self]), fun d hd => (k.but d hd).trans (h.pg.but d hd), fun q hq => ?_, ?_, h.within.seq hw⟩
  · rw [hw.pinEq]; exact h.pins q hq
  · rw [hw.clkEq]; exact h.clk

/-- Counts and flags are those of the strobe's own state. -/
theorem StrobeFails.from {g : Pg} {p : PinIdx} {j : Fin 16} {v : VecOpen} {s u t : State} (h : StrobeFails g p j v u t)
    (hc : u.ctr = s.ctr) (hl : u.clu = s.clu) : StrobeFails g p j v s t :=
  ⟨by rw [h.pin, counter_of_ctr_eq hc], by rw [h.group, counter_of_ctr_eq hc], h.pinFlag, h.groupFlag, fun hm => (h.clu hm).trans hl⟩

/-- Nothing is counted, and no cluster and no event is touched. -/
def Uncounted (g : Pg) (p : PinIdx) (s t : State) : Prop :=
  t.counter (pinA p 4) = s.counter (pinA p 4) ∧ t.counter (pgA g 0xC) = s.counter (pgA g 0xC) ∧ t.clu = s.clu ∧ t.brg = s.brg

section
variable {g : Pg} {p : PinIdx} {x : StrobePend} {inst : Nat} {s u : State} (h : StruckFrom g p x inst s u) (hp : pinOf g x.pin = p)
include h hp

/-- A judged result that does not fail, from the strobe's state. -/
theorem judged_uncounted (both : Bool) {r : Option Bool} (hr : r ≠ some false) {t : State} (ht : t = u.judged g x both r inst) :
    Struck g p x inst s t ∧ t.pin = u.pin ∧ (both = true → (t.flag (pinA p 8)).getLsbD 1 = true ∧ (t.flag (pgA g 8)).getLsbD 2 = true) ∧
      Uncounted g p s t := by
  obtain ⟨hj, h1, h2, h3, h4⟩ := u.judged_quiet g x both inst hr
  rw [hp] at hj h1
  have hw := h.within
  rw [← ht] at hj h1 h2 h3 h4
  exact ⟨Struck.of h hj, hj.within.pinEq, hj.both, h1.trans (hw.counterEq _), h2.trans (hw.counterEq _),
    h3.trans (hw.cluEq (by decide)), h4.trans hw.brgEq⟩

/-- One that fails. -/
theorem judged_counted (both : Bool) {v : VecOpen} (hv : s.pg[g].vecs.find? (fun v => decide (v.start = x.vec)) = some v) {t : State}
    (ht : t = u.judged g x both (some false) inst) :
    Struck g p x inst s t ∧ t.pin = u.pin ∧ (both = true → (t.flag (pinA p 8)).getLsbD 1 = true ∧ (t.flag (pgA g 8)).getLsbD 2 = true) ∧
      StrobeFails g p x.pin v s t := by
  obtain ⟨hj, hf⟩ := State.judged_fails (s := u) (g := g) (x := x) both inst (v := v) (by rw [h.pg.self]; exact hv)
  rw [hp] at hj hf
  have hw := h.within
  rw [← ht] at hj hf
  exact ⟨Struck.of h hj, hj.within.pinEq, hj.both, hf.from hw.ctrEq (hw.cluEq (by decide))⟩

end

/-- A strobe is judged one way or the other: what both ways leave, and the flags of both inputs asserted. -/
theorem judged_either {g : Pg} {p : PinIdx} {x : StrobePend} {u : State} (inst : Nat) (hp : pinOf g x.pin = p) {r : Option Bool} {t : State}
    (ht : t = u.judged g x true r inst) : (t.flag (pinA p 8)).getLsbD 1 = true ∧ (t.flag (pgA g 8)).getLsbD 2 = true := by
  have hb := (u.bothStrobe_leaves g x true).2 rfl
  have hr : PinRises (u.bothStrobe g x true) t := by
    rw [ht, State.judged]
    refine PinRises.trans ?_ (VecTurns.closeVectors _ g).runs.rises
    unfold State.judge
    split
    · exact (VecTurns.modVec _ g _ _).runs.rises
    · exact (State.failStrobe_fails _ g x _ inst).2.1
    · exact PinRises.refl _
  rw [hp] at hb
  exact ⟨hr _ _ (by unfold pinA; omega) hb.1, hr _ _ (by unfold pgA; omega) hb.2⟩

theorem capture_settles {g : Pg} {p : PinIdx} {x : StrobePend} {inst : Nat} {s u : State} (h : StruckFrom g p x inst s u) (m : BitVec 16)
    (pch pcl : Bool) {t : State} (ht : t = (u.capturedIn g x m pch pcl).closeVectors g) :
    Struck g p x inst s t ∧ t.pin = u.pin ∧ Uncounted g p s t := by
  have hv := (VecTurns.modVec u g x.vec _).trans (VecTurns.closeVectors (u.capturedIn g x m pch pcl) g)
  have hw1 : Within [.pg] u (u.capturedIn g x m pch pcl) := State.modVec_within u g _ _
  have hw2 := State.closeVectors_within (u.capturedIn g x m pch pcl) g
  rw [← ht] at hv hw2
  have hw := h.within
  have hall : Within [.flg, .ctr, .pg, .msix] u t := hw1.seq hw2
  have hj : Judged g p false u t := ⟨hv.strobes, hv.but, fun hb => absurd hb (by decide), hall.mono (by decide)⟩
  exact ⟨Struck.of h hj, hall.pinEq, (hv.ctrs _ (pinA_ne_lost p g)).trans (hw.counterEq _), (hv.ctrs _ (fails_ne_lost g)).trans (hw.counterEq _),
    (hall.cluEq (by decide)).trans (hw.cluEq (by decide)), hall.brgEq.trans hw.brgEq⟩

/-- Settles O41: the strobe is taken at its instant and judged; a result that does not fail touches nothing that the statement names, one that fails counts. -/
theorem strobesCompare : Obligations.StrobesCompare := by
  unfold Obligations.StrobesCompare
  intro s p sel hu g j x hx
  have hsel := List.find?_some hx
  obtain ⟨hpin, -⟩ := of_decide_eq_true hsel
  have hp : pinOf g x.pin = p := by rw [hpin]; exact pinOf_placeIn p
  have hat : ∀ inst, StruckFrom g p x inst s (s.strobeAt g x inst) := StruckFrom.at_ s g p x
  refine ⟨fun ballCh ballCl hw hs => ?_, fun ballCh ballCl hw => ?_, fun ballCh ballCl hw hs => ?_⟩
  · have h := strobe_edge hu hx ballCh ballCl hw hs
    have hfrom := StruckFrom.sampled s g p x (max x.atCh x.atCl)
    have hself : ((s.strobeAt g x (max x.atCh x.atCl)).sampledAt p x).pin[p] =
        { s.pin[p] with lastCh := some x.atCh, lastCl := some x.atCl } := State.modPin_self _ p _
    refine ⟨fun hr => ?_, fun v hr hv => ?_⟩
    · obtain ⟨h1, h2, h3, h4⟩ := judged_uncounted hfrom hp _ hr rfl
      exact ⟨_, h, ⟨⟨h1.strobes, h1.but, h1.pins, h1.clk, h1.within⟩, (congrArg (fun v : Vector Pin 64 => v[p]) h2).trans hself, fun ha hb => h3 (by rw [Bool.and_eq_true]; exact ⟨ha, hb⟩)⟩, h4⟩
    · obtain ⟨h1, h2, h3, h4⟩ := judged_counted hfrom hp ((ballCh ^^ (s.effW (pinA p 0)).getLsbD 2) && (ballCl ^^ (s.effW (pinA p 0)).getLsbD 3)) hv rfl
      rw [hpin] at h4
      exact ⟨_, h.trans (by rw [hr]; rfl), ⟨⟨h1.strobes, h1.but, h1.pins, h1.clk, h1.within⟩, (congrArg (fun v : Vector Pin 64 => v[p]) h2).trans hself,
        fun ha hb => h3 (by rw [Bool.and_eq_true]; exact ⟨ha, hb⟩)⟩, h4.pin, h4.group, h4.pinFlag, h4.groupFlag, h4.clu⟩
  · intro hold failing both inst win
    have h := strobe_window hu hx ballCh ballCl hw (hold := hold) rfl (failing := failing) rfl
    refine ⟨fun hq => ?_, fun v hc hf hv => ?_, fun hb => ?_⟩
    · have hr : windowResult x failing ≠ some false := by
        unfold windowResult
        rcases hq with hq | hq
        · rw [if_pos hq]; simp
        · rw [hq]; split <;> simp
      obtain ⟨h1, h2, -, h4⟩ := judged_uncounted (hat _) hp (hold (fun pch pcl => pch && pcl)).isSome hr rfl
      exact ⟨_, h, ⟨h1.strobes, h1.but, h1.pins, h1.clk, h1.within⟩, h2, h4⟩
    · have hr : windowResult x failing = some false := by
        unfold windowResult
        rw [if_neg hc]
        cases hfe : failing with
        | none => exact absurd hfe hf
        | some _ => rfl
      obtain ⟨h1, h2, -, h4⟩ := judged_counted (hat (windowInst x failing)) hp (hold (fun pch pcl => pch && pcl)).isSome hv rfl
      rw [hpin] at h4
      exact ⟨_, h.trans (by rw [hr]; rfl), ⟨h1.strobes, h1.but, h1.pins, h1.clk, h1.within⟩, h2, h4.pin, h4.group, h4.pinFlag, h4.groupFlag, h4.clu⟩
    · have hb' : (hold (fun pch pcl => pch && pcl)).isSome = true := hb
      rw [hb'] at h
      exact ⟨_, h, judged_either _ hp rfl⟩
  · obtain ⟨h1, h2, h3⟩ := capture_settles (hat (max x.atCh x.atCl)) (1#16 <<< (placeIn p).val) (ballCh ^^ (s.effW (pinA p 0)).getLsbD 2)
      (ballCl ^^ (s.effW (pinA p 0)).getLsbD 3) rfl
    exact ⟨_, strobe_capture hu hx ballCh ballCl hw hs, ⟨h1.strobes, h1.but, h1.pins, h1.clk, h1.within⟩, h2, h3⟩

end Sys2Proof.Machine
end

