-- ==== Sys2Proof/Proofs/Vectors.lean ====
section
/-! PROOF. Vector starts: what a vector that plays and one that parks leave and place (R216 to R222, R240). -/
namespace Sys2Proof.Machine

/-! ### What the pins of a group may change -/

/-- Only the group and its own pins change, and no flag of a cluster, a lane, a pin group or a pin falls. -/
structure PinPlays (g : Pg) (s t : State) : Prop where
  pg : PgBut g s t
  pins : PinsBut g s t
  rises : PinRises s t

theorem PinPlays.refl (g : Pg) (s : State) : PinPlays g s s := ⟨fun _ _ => rfl, fun _ _ => rfl, PinRises.refl s⟩

theorem PinPlays.trans {g : Pg} {s t u : State} (h : PinPlays g s t) (k : PinPlays g t u) : PinPlays g s u :=
  ⟨fun d hd => (k.pg d hd).trans (h.pg d hd), fun p hp => (k.pins p hp).trans (h.pins p hp), h.rises.trans k.rises⟩

theorem PinPlays.ite {g : Pg} {c : Prop} [Decidable c] {s t u : State} (h : PinPlays g s t) (k : PinPlays g s u) :
    PinPlays g s (if c then t else u) := by
  split
  · exact h
  · exact k

theorem PinPlays.of_runs {g : Pg} {l : List Field} {s t : State} (h : Runs s t) (hw : Within l s t) (hg : Field.pg ∉ l := by decide)
    (hp : Field.pin ∉ l := by decide) : PinPlays g s t :=
  ⟨fun d _ => by rw [hw.pgEq hg], fun p _ => by rw [hw.pinEq hp], h.rises⟩

theorem PinPlays.fold {α : Type} {g : Pg} {f : State → α → State} (h : ∀ u x, PinPlays g u (f u x)) (l : List α) (s : State) :
    PinPlays g s (l.foldl f s) := foldl_rel (PinPlays g) (PinPlays.refl g) PinPlays.trans f h l s

theorem pinOf_group {g : Pg} {p : PinIdx} (h : p.val / 16 ≠ g.val) (j : Fin 16) : p ≠ pinOf g j := by
  rintro rfl
  refine h ?_
  show (16 * g.val + j.val) % 64 / 16 = g.val
  omega

theorem PinPlays.modPin (s : State) (g : Pg) (j : Fin 16) (f : Pin → Pin) : PinPlays g s (s.modPin (pinOf g j) f) :=
  ⟨fun _ _ => rfl, fun _ hp => State.modPin_other s _ f (pinOf_group hp j), (Runs.of_within (State.modPin_within s _ f)).rises⟩

theorem PinPlays.modPg (s : State) (g : Pg) (f : PinGroup → PinGroup) : PinPlays g s (s.modPg g f) :=
  ⟨fun _ hd => State.modPg_other s g f hd, fun _ _ => rfl, (Runs.of_within (State.modPg_within s g f)).rises⟩

theorem PinPlays.setBit (s : State) (g : Pg) (a i : Nat) : PinPlays g s (s.setBit a i) :=
  PinPlays.of_runs (Runs.setBit s a i) (State.setBit_within s a i)

theorem PinPlays.setBitIf (s : State) (g : Pg) (b : Bool) (a i : Nat) : PinPlays g s (s.setBitIf b a i) :=
  PinPlays.of_runs (Runs.setBitIf s b a i) (State.setBitIf_within s b a i)

theorem PinPlays.crowd (s : State) (g : Pg) (bit : Nat) : PinPlays g s (s.crowd g bit) :=
  PinPlays.of_runs (Runs.crowd s g bit) (State.crowd_within s g bit)

theorem PinPlays.fire (s : State) (g : Pg) (p at_ : Nat) : PinPlays g s (s.fire p at_) :=
  ⟨fun _ _ => by rw [(State.fire_within s p at_).pgEq], fun _ _ => by rw [(State.fire_within s p at_).pinEq], PinRises.fire s p at_⟩

theorem PinPlays.ddEdge (s : State) (g : Pg) (j : Fin 16) (x : Edge) : PinPlays g s (s.ddEdge g j x) := by
  unfold State.ddEdge
  exact PinPlays.ite ((PinPlays.modPin s g j _).trans (PinPlays.crowd _ g 1)) (PinPlays.modPin s g j _)

theorem PinPlays.deEdge (s : State) (g : Pg) (j : Fin 16) (x : Edge) : PinPlays g s (s.deEdge g j x) := by
  unfold State.deEdge
  exact PinPlays.ite ((PinPlays.modPin s g j _).trans (PinPlays.crowd _ g 1)) (PinPlays.modPin s g j _)

theorem PinPlays.parkPin (s : State) (g : Pg) (j : Fin 16) (k : Nat) : PinPlays g s (s.parkPin g j k) :=
  (PinPlays.deEdge s g j _).trans (PinPlays.ddEdge _ g j _)

theorem PinPlays.closeVectors (s : State) (g : Pg) : PinPlays g s (s.closeVectors g) :=
  ⟨(VecTurns.closeVectors s g).but, fun _ _ => by rw [(State.closeVectors_within s g).pinEq], (VecTurns.closeVectors s g).runs.rises⟩

/-! ### The pins of a vector (R243 to R249) -/

theorem PinPlays.edgeAt (s : State) (g : Pg) (j : Fin 16) (c : VecCtx) (e : Bool) (ofs : Nat) (v : Bool) : PinPlays g s (s.edgeAt g j c e ofs v) :=
  PinPlays.ite (PinPlays.setBit s g _ _) (PinPlays.ite (PinPlays.deEdge s g j _) (PinPlays.ddEdge s g j _))

theorem PinPlays.driveEdges (s : State) (g : Pg) (j : Fin 16) (c : VecCtx) (code : Nat) : PinPlays g s (s.driveEdges g j c code) := by
  unfold State.driveEdges
  dsimp only
  have hedge := fun u e ofs v => PinPlays.edgeAt u g j c e ofs v
  refine PinPlays.ite (PinPlays.refl g s) ?_
  refine (hedge s true ((eventOf c.word j 2).getD 0) _).trans (PinPlays.ite (PinPlays.refl g _) ?_)
  generalize s.edgeAt g j c true ((eventOf c.word j 2).getD 0) _ = a
  have hdata : ∀ b, PinPlays g b ((if fmtOf c.word j = 3 then b.edgeAt g j c false 0 (!decide (code = 2)) else b).edgeAt g j c false
      ((eventOf c.word j 0).getD 0) (decide (code = 2))) := fun b =>
    (PinPlays.ite (hedge b _ _ _) (PinPlays.refl g b)).trans (hedge _ _ _ _)
  have hlast : ∀ b x v, PinPlays g b (if fmtOf c.word j = 0 then b else b.edgeAt g j c false x v) := fun b x v =>
    PinPlays.ite (PinPlays.refl g b) (hedge b _ _ _)
  cases eventOf c.word j 3 with
  | none =>
    cases eventOf c.word j 1 with
    | none => exact hdata a
    | some y => exact (hdata a).trans (hlast _ y _)
  | some x =>
    cases eventOf c.word j 1 with
    | none => exact (hedge a true x false).trans (hdata _)
    | some y => exact ((hedge a true x false).trans (hdata _)).trans (hlast _ y _)

theorem PinPlays.addStrobe (s : State) (g : Pg) (x : StrobePend) : PinPlays g s (s.addStrobe g x) := PinPlays.modPg s g _

theorem PinPlays.edgeStrobe (s : State) (g : Pg) (j : Fin 16) (c : VecCtx) (code : Nat) (sel : StrobeSel) (ofs : Nat) :
    PinPlays g s (s.edgeStrobe g j c code sel ofs) :=
  PinPlays.ite (PinPlays.setBit s g _ _) (PinPlays.ite (PinPlays.crowd s g 2) (PinPlays.addStrobe s g _))

theorem PinPlays.windowStrobe (s : State) (g : Pg) (j : Fin 16) (c : VecCtx) (code s1 s2 : Nat) :
    PinPlays g s (s.windowStrobe g j c code s1 s2) := by
  unfold State.windowStrobe
  dsimp only
  have hb : PinPlays g s (if c.period ≤ s1 ∨ c.period ≤ s2 then s.setBit (tsgA g 8) 3 else s) :=
    PinPlays.ite (PinPlays.setBit s g _ _) (PinPlays.refl g s)
  exact hb.trans (PinPlays.ite (PinPlays.refl g _) (PinPlays.addStrobe _ g _))

theorem PinPlays.placeStrobes (s : State) (g : Pg) (j : Fin 16) (c : VecCtx) (code : Nat) : PinPlays g s (s.placeStrobes g j c code) := by
  unfold State.placeStrobes
  dsimp only
  refine PinPlays.ite (PinPlays.refl g s) (PinPlays.ite ?_ ?_)
  · split
    · exact PinPlays.windowStrobe s g j c code _ _
    · exact PinPlays.setBitIf s g _ _ _
    · exact PinPlays.setBitIf s g _ _ _
    · exact PinPlays.refl g s
  · split
    · exact PinPlays.ite ((PinPlays.edgeStrobe s g j c code _ _).trans (PinPlays.edgeStrobe _ g j c code _ _))
        ((PinPlays.edgeStrobe s g j c code _ _).trans (PinPlays.edgeStrobe _ g j c code _ _))
    · exact PinPlays.edgeStrobe s g j c code _ _
    · exact PinPlays.edgeStrobe s g j c code _ _
    · exact PinPlays.refl g s

theorem PinPlays.playPin (s : State) (g : Pg) (c : VecCtx) (broken cap : Bool) (w : BitVec 64) (j : Fin 16) :
    PinPlays g s (s.playPin g c broken cap w j) := by
  unfold State.playPin
  dsimp only
  refine (PinPlays.modPin s g j _).trans (PinPlays.ite (PinPlays.parkPin _ g j _) ?_)
  refine ((PinPlays.driveEdges _ g j c _).trans (PinPlays.placeStrobes _ g j c _)).trans (PinPlays.ite ?_ (PinPlays.refl g _))
  exact PinPlays.addStrobe _ g _

/-! ### A vector that plays (R219, R220) -/

/-- The vector's flags and its producers. -/
def State.vectorFires (s : State) (g : Pg) (w : BitVec 64) (broken : Bool) (k : Nat) : State :=
  let s := s.setBitIf (decide (bitsOf w.toNat 63 56 ≠ 0)) (pgA g 8) 6
  let s := s.setBitIf broken (tsgA g 8) 0
  let s := if w.getLsbD 54 then s.fire (88 + 2 * g) k else s
  if w.getLsbD 55 then s.fire (89 + 2 * g) k else s

/-- The vector opens, and its pins play it. -/
def State.vectorOpens (s : State) (g : Pg) (v : VecOpen) (c : VecCtx) (broken cap : Bool) (w : BitVec 64) : State :=
  ((allFin 16).foldl (fun s j => s.playPin g c broken cap w j) (s.modPg g (fun p => { p with vecs := p.vecs ++ [v] }))).closeVectors g

theorem State.playVector_eq (s : State) (n : Clu) (g : Pg) (w : BitVec 64) (c : VecCtx) (set i : Nat) :
    ∃ v cap, s.playVector n g w c set i =
      (s.vectorFires g w (s.setBroken g c.start set) (upTick c.start)).vectorOpens g v c (s.setBroken g c.start set) cap w := ⟨_, _, rfl⟩

theorem PinPlays.vectorOpens (s : State) (g : Pg) (v : VecOpen) (c : VecCtx) (broken cap : Bool) (w : BitVec 64) :
    PinPlays g s (s.vectorOpens g v c broken cap w) :=
  ((PinPlays.modPg s g _).trans (PinPlays.fold (fun u j => PinPlays.playPin u g c broken cap w j) _ _)).trans (PinPlays.closeVectors _ g)

theorem State.vectorOpens_brg (s : State) (g : Pg) (v : VecOpen) (c : VecCtx) (broken cap : Bool) (w : BitVec 64) :
    (s.vectorOpens g v c broken cap w).brg = s.brg := by
  unfold State.vectorOpens
  rw [(State.closeVectors_within _ g).brgEq, foldl_keeps State.brg _ _ (fun u j => (State.playPin_within u g c broken cap w j).brgEq)]
  rfl

theorem State.producerOk_congr {s t : State} (h : t.part = s.part) (p : Nat) : t.producerOk p = s.producerOk p := by
  unfold State.producerOk
  rw [h]

/-- An event that a firing puts in flight. -/
theorem State.fire_inFlight (s : State) {p : Nat} (k : Nat) (hp : p < 256) (hc : s.configured = true) (ho : s.producerOk p = true) :
    ∃ e ∈ (s.fire p k).brg.inFlight, e.prod.val = p ∧ e.at_ = k := by
  have hval : (Fin.ofNat 256 p).val = p := Nat.mod_eq_of_lt hp
  obtain ⟨e, he, hpr, hat⟩ := (s.fire_fires p k).there hc (by rw [hval]; exact ho)
  exact ⟨e, he, by rw [hpr, hval], hat⟩

/-- Both producers of a group's vectors. -/
theorem State.vectorFires_fires (s : State) (g : Pg) (w : BitVec 64) (broken : Bool) (k : Nat) :
    PinPlays g s (s.vectorFires g w broken k) ∧
      (w.getLsbD 54 = true → s.configured = true → s.producerOk (88 + 2 * g.val) = true →
        ∃ b ∈ (s.vectorFires g w broken k).brg.inFlight, b.prod.val = 88 + 2 * g.val ∧ b.at_ = k) ∧
      (w.getLsbD 55 = true → s.configured = true → s.producerOk (89 + 2 * g.val) = true →
        ∃ b ∈ (s.vectorFires g w broken k).brg.inFlight, b.prod.val = 89 + 2 * g.val ∧ b.at_ = k) ∧
      (bitsOf w.toNat 63 56 ≠ 0 → ((s.vectorFires g w broken k).flag (pgA g 8)).getLsbD 6 = true) := by
  unfold State.vectorFires
  dsimp only
  have h1 := PinPlays.setBitIf s g (decide (bitsOf w.toNat 63 56 ≠ 0)) (pgA g 8) 6
  have hw1 := State.setBitIf_within s (decide (bitsOf w.toNat 63 56 ≠ 0)) (pgA g 8) 6
  have hbit : bitsOf w.toNat 63 56 ≠ 0 → ((s.setBitIf (decide (bitsOf w.toNat 63 56 ≠ 0)) (pgA g 8) 6).flag (pgA g 8)).getLsbD 6 = true :=
    fun h => State.flagBit_setBitIf s (decide_eq_true h) (pgA_not_pend g 8) (bit32_self (by decide))
  generalize s.setBitIf (decide (bitsOf w.toNat 63 56 ≠ 0)) (pgA g 8) 6 = a at *
  have h2 := PinPlays.setBitIf a g broken (tsgA g 8) 0
  have hw2 := State.setBitIf_within a broken (tsgA g 8) 0
  generalize a.setBitIf broken (tsgA g 8) 0 = b at *
  have hconf : ∀ {u : State}, u.img = b.img → s.configured = true → u.configured = true := fun hu h =>
    (State.configured_congr ((hu.trans hw2.imgEq).trans hw1.imgEq)).trans h
  have hprod : ∀ {u : State} {p : Nat}, u.part = b.part → s.producerOk p = true → u.producerOk p = true := fun hu h =>
    (State.producerOk_congr ((hu.trans hw2.partEq).trans hw1.partEq) _).trans h
  have h3 : PinPlays g b (if w.getLsbD 54 then b.fire (88 + 2 * g) k else b) := PinPlays.ite (PinPlays.fire b g _ k) (PinPlays.refl g b)
  have hw3 : Within [.flg, .brg] b (if w.getLsbD 54 then b.fire (88 + 2 * g) k else b) :=
    Within.ite (State.fire_within b _ k) (Within.refl _ b)
  have h54 : w.getLsbD 54 = true → s.configured = true → s.producerOk (88 + 2 * g.val) = true →
      ∃ e ∈ (if w.getLsbD 54 then b.fire (88 + 2 * g) k else b).brg.inFlight, e.prod.val = 88 + 2 * g.val ∧ e.at_ = k := fun h hc hp => by
    rw [if_pos h]
    exact b.fire_inFlight k (by omega) (hconf rfl hc) (hprod rfl hp)
  generalize (if w.getLsbD 54 then b.fire (88 + 2 * g) k else b) = d at *
  have h4 : PinPlays g d (if w.getLsbD 55 then d.fire (89 + 2 * g) k else d) := PinPlays.ite (PinPlays.fire d g _ k) (PinPlays.refl g d)
  have hkeep : ∀ e ∈ d.brg.inFlight, e ∈ (if w.getLsbD 55 then d.fire (89 + 2 * g) k else d).brg.inFlight := fun e he => by
    split
    · exact (d.fire_fires _ k).keeps e he
    · exact he
  refine ⟨((h1.trans h2).trans h3).trans h4, fun h hc hp => ?_, fun h hc hp => ?_, fun h => ?_⟩
  · obtain ⟨e, he, hv⟩ := h54 h hc hp
    exact ⟨e, hkeep e he, hv⟩
  · rw [if_pos h]
    exact d.fire_inFlight k (by omega) (hconf hw3.imgEq hc) (hprod hw3.partEq hp)
  · exact ((h2.trans h3).trans h4).rises _ _ (by unfold pgA; omega) (hbit h)

/-- What a vector that plays leaves and fires. -/
theorem State.playVector_plays (s : State) (n : Clu) (g : Pg) (w : BitVec 64) (c : VecCtx) (set i : Nat) :
    PinPlays g s (s.playVector n g w c set i) ∧
      (w.getLsbD 54 = true → s.configured = true → s.producerOk (88 + 2 * g.val) = true →
        ∃ b ∈ (s.playVector n g w c set i).brg.inFlight, b.prod.val = 88 + 2 * g.val ∧ b.at_ = upTick c.start) ∧
      (w.getLsbD 55 = true → s.configured = true → s.producerOk (89 + 2 * g.val) = true →
        ∃ b ∈ (s.playVector n g w c set i).brg.inFlight, b.prod.val = 89 + 2 * g.val ∧ b.at_ = upTick c.start) ∧
      (bitsOf w.toNat 63 56 ≠ 0 → ((s.playVector n g w c set i).flag (pgA g 8)).getLsbD 6 = true) := by
  obtain ⟨v, cap, he⟩ := s.playVector_eq n g w c set i
  obtain ⟨h1, h2, h3, h4⟩ := s.vectorFires_fires g w (s.setBroken g c.start set) (upTick c.start)
  rw [he, State.vectorOpens_brg]
  have ho := PinPlays.vectorOpens (s.vectorFires g w (s.setBroken g c.start set) (upTick c.start)) g v c (s.setBroken g c.start set) cap w
  exact ⟨h1.trans ho, h2, h3, fun h => ho.rises _ _ (by unfold pgA; omega) (h4 h)⟩

/-! ### A vector that parks (R222) -/

/-- All pins of the group park from an instant. -/
def State.parkPins (s : State) (g : Pg) (k : Nat) : State := (allFin 16).foldl (fun (s : State) j => s.parkPin g j k) s

theorem PinPlays.parkPins (s : State) (g : Pg) (k : Nat) : PinPlays g s (s.parkPins g k) :=
  PinPlays.fold (fun u j => PinPlays.parkPin u g j k) _ s

theorem State.parkPins_within (s : State) (g : Pg) (k : Nat) : Within [.flg, .ctr, .pin, .msix] s (s.parkPins g k) :=
  Within.fold (Within.refl _ s) fun u x hu => hu.step (State.parkPin_within u g x k) rfl

/-- How a pin parks depends on that pin alone. -/
theorem State.ddEdge_pin (s : State) (g : Pg) (j : Fin 16) (x : Edge) :
    (s.ddEdge g j x).pin = (s.modPin (pinOf g j) (fun p => { p with
      ddEdges := (placeEdge s.pin[pinOf g j].dd s.pin[pinOf g j].lastDd s.pin[pinOf g j].ddEdges x).1 })).pin := by
  unfold State.ddEdge
  dsimp only
  split
  · rw [(State.crowd_within _ g 1).pinEq]
  · rfl

theorem State.deEdge_pin (s : State) (g : Pg) (j : Fin 16) (x : Edge) :
    (s.deEdge g j x).pin = (s.modPin (pinOf g j) (fun p => { p with
      deEdges := (placeEdge s.pin[pinOf g j].de s.pin[pinOf g j].lastDe s.pin[pinOf g j].deEdges x).1 })).pin := by
  unfold State.deEdge
  dsimp only
  split
  · rw [(State.crowd_within _ g 1).pinEq]
  · rfl

/-- A parked pin. -/
def Pin.parked (p : Pin) (k : Nat) : Pin :=
  { p with ddEdges := (placeEdge p.dd p.lastDd p.ddEdges { at_ := k, level := false, vec := k }).1
           deEdges := (placeEdge p.de p.lastDe p.deEdges { at_ := k, level := false, vec := k }).1 }

theorem State.parkPin_pin (s : State) (g : Pg) (j : Fin 16) (k : Nat) :
    (s.parkPin g j k).pin[pinOf g j] = s.pin[pinOf g j].parked k ∧ ∀ q, q ≠ pinOf g j → (s.parkPin g j k).pin[q] = s.pin[q] := by
  unfold State.parkPin
  have hde := s.deEdge_pin g j { at_ := k, level := false, vec := k }
  have hself : (s.deEdge g j { at_ := k, level := false, vec := k }).pin[pinOf g j] = { s.pin[pinOf g j] with
      deEdges := (placeEdge s.pin[pinOf g j].de s.pin[pinOf g j].lastDe s.pin[pinOf g j].deEdges { at_ := k, level := false, vec := k }).1 } := by
    rw [hde, State.modPin_self]
  refine ⟨?_, fun q hq => ?_⟩
  · rw [State.ddEdge_pin, State.modPin_self, hself]
    rfl
  · rw [State.ddEdge_pin, State.modPin_other _ _ _ hq, hde, State.modPin_other _ _ _ hq]

theorem pinOf_inj {g : Pg} {i j : Fin 16} (h : pinOf g i = pinOf g j) : i = j := by
  have h : (16 * g.val + i.val) % 64 = (16 * g.val + j.val) % 64 := congrArg Fin.val h
  apply Fin.ext
  omega

theorem State.parkPins_pin (s : State) (g : Pg) (k : Nat) (j : Fin 16) :
    (s.parkPins g k).pin[pinOf g j] = s.pin[pinOf g j].parked k := by
  exact foldl_allFin (fun _ => True) (fun u j => u.pin[pinOf g j]) _ (fun _ p => p.parked k) (fun _ _ h => h)
    (fun u j _ => (u.parkPin_pin g j k).1) (fun u i j hne => (u.parkPin_pin g i k).2 _ fun e => hne (pinOf_inj e)) trivial j

/-! ### VECTOR_START (R216, R240) -/

/-- A vector is about to start: its reader has read, at its instant. -/
def State.vectorRead (s : State) (n : Clu) (g : Pg) : State :=
  (s.upto (upTick s.pg[g].vecNext)).readerReads n ((s.upto (upTick s.pg[g].vecNext)).playNow n) (pgReader g) s.pg[g].vecIdx

/-- Its set's period is judged against the actual one. -/
def State.periodJudged (v : State) (n : Clu) (g : Pg) (at_ set period : Nat) : State :=
  v.setBitIf (decide (v.setPeriod g at_ set ≠ period)) (cluA n 0x40) 4

/-- The group goes on to its next vector. -/
def PinGroup.gone (q : PinGroup) (at_ i period : Nat) : PinGroup := { q with vecNext := at_ + period, vecIdx := i + 1, vecPeriod := period }

/-- A period of the cluster's first group is kept. -/
def Cluster.ran (k : Cluster) (period : Nat) : Cluster := { k with runVecs := (period :: k.runVecs).take 64 }

/-- The vector has started. -/
def State.vectorGoes (u : State) (n : Clu) (g : Pg) (at_ i period : Nat) : State :=
  (if u.firstGroup n = some g then u.modClu n (fun k => k.ran period) else u).modPg g (fun q => q.gone at_ i period)

/-- A vector parks its group. -/
def State.vectorParks (u : State) (n : Clu) (p : Play) (g : Pg) (at_ : Nat) (x : VecPos) : State :=
  ((u.parkPins g at_).modClu n (fun k => { k with matchParked := true })).noteUnlanded n p g x

theorem vectorStart_goes {s : State} {g : Pg} {n : Clu} (hplay : s.playing n s.pg[g].vecNext = true)
    (hi : s.pg[g].vecIdx < s.playVectors n s.clu[n].entry) :
    ¬ (!s.playing n s.pg[g].vecNext || decide (s.playVectors n s.clu[n].entry ≤ s.pg[g].vecIdx)) = true := by
  rw [hplay, Bool.not_true, Bool.false_or, decide_eq_true_eq]
  omega

section
variable {s v : State} {g : Pg} {n : Clu} {p : Play} {x : VecPos} {w : Option (BitVec 64)} {period : Nat}
variable (hu : s.undef = false) (ho : s.pgOwner g = some n) (hplay : s.playing n s.pg[g].vecNext = true)
variable (hi : s.pg[g].vecIdx < s.playVectors n s.clu[n].entry)
variable (hv : v = s.vectorRead n g) (hp : p = (s.upto (upTick s.pg[g].vecNext)).playNow n) (hx : x = v.groupPlace n g)
variable (hw : w = v.timedWord n p g x) (hper : period = v.vecPeriodAt n p x)
include hplay hi hu ho hv hp hx hw hper

theorem vectorStart_parks (hk : s.clu[n].parked = true ∨ w = none) :
    exec (.vectorStart g) s = .next (((v.periodJudged n g s.pg[g].vecNext (vecSet s.clu[n].entry w) period).vectorParks n p g s.pg[g].vecNext x).vectorGoes
      n g s.pg[g].vecNext s.pg[g].vecIdx period) := by
  show execVectorStart g s = _
  rw [execVectorStart, guarded_next hu]
  dsimp only
  rw [ho]
  refine congrArg Host.Outcome.next ((if_neg (vectorStart_goes hplay hi)).trans ?_)
  subst hv hp hx
  unfold State.vectorRead at hw hper ⊢
  rw [← hw, ← hper]
  rcases hk with hk | hk
  · rw [hk]
    cases w <;> rfl
  · subst hk
    rfl

theorem vectorStart_plays {w' : BitVec 64} (hk : s.clu[n].parked = false) (hs : w = some w') :
    exec (.vectorStart g) s = .next (((v.periodJudged n g s.pg[g].vecNext (vecSet s.clu[n].entry w) period).playVector n g w'
      { word := (v.periodJudged n g s.pg[g].vecNext (vecSet s.clu[n].entry w) period).tsetWord g s.pg[g].vecNext (vecSet s.clu[n].entry w),
        start := s.pg[g].vecNext, period := period } (vecSet s.clu[n].entry w) s.pg[g].vecIdx).vectorGoes
      n g s.pg[g].vecNext s.pg[g].vecIdx period) := by
  show execVectorStart g s = _
  rw [execVectorStart, guarded_next hu]
  dsimp only
  rw [ho]
  refine congrArg Host.Outcome.next ((if_neg (vectorStart_goes hplay hi)).trans ?_)
  subst hv hp hx
  unfold State.vectorRead at hw hper ⊢
  rw [← hw, ← hper, hk, hs]
  rfl

end

theorem State.firstGroup_congr {s t : State} {n : Clu} (h : t.clu[n].pgBound = s.clu[n].pgBound) : t.firstGroup n = s.firstGroup n := by
  unfold State.firstGroup State.groupsOf
  rw [h]

/-- What a vector that has started leaves. -/
structure VectorGone (n : Clu) (g : Pg) (at_ i period : Nat) (s u t : State) : Prop where
  next : t.pg[g].vecNext = at_ + period ∧ t.pg[g].vecIdx = i + 1 ∧ t.pg[g].vecPeriod = period
  pg : PgBut g s t
  pins : PinsBut g s t
  clu : CluBut n s t
  self : t.clu[n] = if s.firstGroup n = some g then u.clu[n].ran period else u.clu[n]
  pin : t.pin = u.pin
  brg : t.brg = u.brg
  clk : t.clk = u.clk
  rises : PinRises u t

theorem State.vectorGoes_gone {s u : State} {n : Clu} {g : Pg} (at_ i period : Nat) (hpg : PgBut g s u) (hpins : PinsBut g s u)
    (hclu : CluBut n s u) (hb : u.clu[n].pgBound = s.clu[n].pgBound) : VectorGone n g at_ i period s u (u.vectorGoes n g at_ i period) := by
  unfold State.vectorGoes
  rw [State.firstGroup_congr hb]
  by_cases hf : s.firstGroup n = some g
  · rw [if_pos hf]
    refine ⟨?_, fun d hd => ?_, hpins, fun m hm => ?_, ?_, rfl, rfl, rfl, (Runs.of_eq rfl rfl).rises⟩
    · rw [State.modPg_self]; exact ⟨rfl, rfl, rfl⟩
    · rw [State.modPg_other _ _ _ hd]; exact hpg d hd
    · exact (State.modClu_other u n (fun k => k.ran period) hm).trans (hclu m hm)
    · rw [if_pos hf]; exact State.modClu_self u n (fun k => k.ran period)
  · rw [if_neg hf]
    refine ⟨?_, fun d hd => ?_, hpins, hclu, by rw [if_neg hf]; rfl, rfl, rfl, rfl, (Runs.of_eq rfl rfl).rises⟩
    · rw [State.modPg_self]; exact ⟨rfl, rfl, rfl⟩
    · rw [State.modPg_other _ _ _ hd]; exact hpg d hd

theorem State.vectorRead_reads (s : State) (n : Clu) (g : Pg) :
    Within [.clk, .ctr, .mem] s (s.vectorRead n g) ∧ (s.vectorRead n g).clk.now = max s.clk.now (upTick s.pg[g].vecNext) := by
  have hr := (s.upto (upTick s.pg[g].vecNext)).readerReads_reads n ((s.upto (upTick s.pg[g].vecNext)).playNow n) (pgReader g) s.pg[g].vecIdx
  refine ⟨(State.upto_within s _).seq (l := [.clk, .ctr, .mem]) (State.readerReads_within _ n _ _ _), ?_⟩
  unfold State.vectorRead
  rw [hr.clk]
  rfl

/-- The period of a vector, as the statement writes it. -/
theorem State.vecPeriodAt_eq {s v : State} {n : Clu} {g : Pg} {p : Play} {x : VecPos} (hv : v = s.vectorRead n g)
    (hp : p = (s.upto (upTick s.pg[g].vecNext)).playNow n) (hx : x = v.groupPlace n g) :
    v.vecPeriodAt n p x = if v.hasW n then v.mOf n * v.tsOf n
      else match v.firstGroup n with
        | some h => v.setPeriod h s.pg[g].vecNext (vecSet s.clu[n].entry (v.timedWord n p h x))
        | none => 512 := by
  have hat : x.at_ = s.pg[g].vecNext := by
    rw [hx, hv]
    show (s.vectorRead n g).pg[g].vecNext = _
    rw [(s.vectorRead_reads n g).1.pgEq]
  have he : p.entry = s.clu[n].entry := by rw [hp]; rfl
  unfold State.vecPeriodAt
  rw [hat, he] <;> split <;> rfl

/-- What the statement names of a vector that starts. -/
structure GoesOn (n : Clu) (g : Pg) (at_ i period : Nat) (slips : Prop) (s t : State) : Prop where
  next : t.pg[g].vecNext = at_ + period ∧ t.pg[g].vecIdx = i + 1 ∧ t.pg[g].vecPeriod = period
  pg : PgBut g s t
  pins : PinsBut g s t
  clu : CluBut n s t
  clk : t.clk.now = max s.clk.now (upTick at_)
  slip : slips → (t.flag (cluA n 0x40)).getLsbD 4 = true

/-- The state that a vector's playing or parking begins from. -/
theorem State.periodJudged_judges {s v : State} {n : Clu} {g : Pg} (hv : v = s.vectorRead n g) (at_ set period : Nat) :
    Within [.clk, .flg, .ctr, .mem, .msix] s (v.periodJudged n g at_ set period) ∧
      (v.periodJudged n g at_ set period).clk.now = max s.clk.now (upTick s.pg[g].vecNext) ∧
      (v.setPeriod g at_ set ≠ period → ((v.periodJudged n g at_ set period).flag (cluA n 0x40)).getLsbD 4 = true) := by
  obtain ⟨hw, hc⟩ := s.vectorRead_reads n g
  rw [← hv] at hw hc
  have hb := State.setBitIf_within v (decide (v.setPeriod g at_ set ≠ period)) (cluA n 0x40) 4
  refine ⟨hw.seq (l := [.clk, .flg, .ctr, .mem, .msix]) hb, ?_, fun h => ?_⟩
  · exact (congrArg Clock.now hb.clkEq).trans hc
  · exact State.flagBit_setBitIf v (decide_eq_true h) (cluA_not_mem_pendWords n 0x40) (bit32_self (by decide))

theorem goesOn_of {s a u t : State} {n : Clu} {g : Pg} {at_ i period : Nat} {slips : Prop} (hat : at_ = s.pg[g].vecNext)
    (hc : a.clk.now = max s.clk.now (upTick s.pg[g].vecNext)) (hslip : slips → (a.flag (cluA n 0x40)).getLsbD 4 = true)
    (hr : PinRises a u) (hclk : u.clk = a.clk) (h : VectorGone n g at_ i period s u t) : GoesOn n g at_ i period slips s t :=
  ⟨h.next, h.pg, h.pins, h.clu, by rw [h.clk, hclk, hc, hat], fun hs => h.rises _ _ (by unfold cluA; omega) (hr _ _ (by unfold cluA; omega) (hslip hs))⟩

/-- A vector that parks: what it leaves. -/
theorem vectorParks_settles {s a u t : State} {n : Clu} {p : Play} {g : Pg} {at_ i period : Nat} {x : VecPos} {slips : Prop} (hat : at_ = s.pg[g].vecNext)
    (ha : Within [.clk, .flg, .ctr, .mem, .msix] s a) (hc : a.clk.now = max s.clk.now (upTick s.pg[g].vecNext))
    (hslip : slips → (a.flag (cluA n 0x40)).getLsbD 4 = true) (hu : u = a.vectorParks n p g at_ x) (ht : t = u.vectorGoes n g at_ i period) :
    GoesOn n g at_ i period slips s t ∧
      t.clu[n] = (if s.firstGroup n = some g then { s.clu[n] with matchParked := true }.ran period else { s.clu[n] with matchParked := true }) ∧
      (∀ j : Fin 16, t.pin[pinOf g j] = (s.parkPin g j at_).pin[pinOf g j]) ∧ t.brg = s.brg ∧
      Within [.clk, .flg, .ctr, .clu, .pg, .pin, .mem, .msix] s t := by
  have hk := PinPlays.parkPins a g at_
  have hkw := State.parkPins_within a g at_
  have hkp := a.parkPins_pin g at_
  unfold State.vectorParks at hu
  generalize a.parkPins g at_ = b at *
  obtain ⟨m, hm⟩ : ∃ m, m = b.modClu n (fun k => { k with matchParked := true }) := ⟨_, rfl⟩
  rw [← hm] at hu
  have hself : m.clu[n] = { s.clu[n] with matchParked := true } := by
    rw [hm, State.modClu_self, hkw.cluEq (by decide), ha.cluEq (by decide)]
  have hother : CluBut n s m := fun d hd => by
    rw [hm, State.modClu_other _ _ _ hd, hkw.cluEq (by decide), ha.cluEq (by decide)]
  have hmw : Within [.clu] b m := hm ▸ State.modClu_within b n _
  have hnw := State.noteUnlanded_within m n p g x
  have hn : PinPlays g m (m.noteUnlanded n p g x) := PinPlays.ite (PinPlays.refl g m) (PinPlays.modPg m g _)
  rw [← hu] at hnw hn
  have huc : u.clu = m.clu := hnw.cluEq (by decide)
  have hgone := State.vectorGoes_gone (s := s) (u := u) (n := n) (g := g) at_ i period
    (fun d hd => by rw [hn.pg d hd, hmw.pgEq, hk.pg d hd, ha.pgEq])
    (fun q hq => by rw [hn.pins q hq, hmw.pinEq, hk.pins q hq, ha.pinEq])
    (fun d hd => by rw [huc]; exact hother d hd) (by rw [huc, hself])
  rw [← ht] at hgone
  have hrise : PinRises a u := (hk.rises.trans (Runs.of_within hmw).rises).trans hn.rises
  refine ⟨goesOn_of hat hc hslip hrise ?_ hgone, ?_, fun j => ?_, ?_, ?_⟩
  · rw [hnw.clkEq, hmw.clkEq, hkw.clkEq]
  · rw [hgone.self, huc, hself]
  · rw [hgone.pin, hnw.pinEq, hmw.pinEq, hkp j, (s.parkPin_pin g j at_).1, ha.pinEq]
  · rw [hgone.brg, hnw.brgEq, hmw.brgEq, hkw.brgEq, ha.brgEq]
  · have hgo : Within [.clu, .pg] u t := by
      rw [ht]
      exact (Within.ite ((State.modClu_within u n _).mono (by decide)) (Within.refl _ u)).step (State.modPg_within _ g _) (by decide)
    exact (((ha.seq (l := [.clk, .flg, .ctr, .clu, .pg, .pin, .mem, .msix]) hkw).seq (l := [.clk, .flg, .ctr, .clu, .pg, .pin, .mem, .msix]) hmw).seq
      (l := [.clk, .flg, .ctr, .clu, .pg, .pin, .mem, .msix]) hnw).seq hgo

/-- A vector that plays: what it leaves. -/
theorem vectorPlays_settles {s a u t : State} {n : Clu} {g : Pg} {at_ i period set : Nat} {w : BitVec 64} {c : VecCtx} {slips : Prop}
    (hat : at_ = s.pg[g].vecNext) (hst : c.start = at_) (ha : Within [.clk, .flg, .ctr, .mem, .msix] s a)
    (hc : a.clk.now = max s.clk.now (upTick s.pg[g].vecNext)) (hslip : slips → (a.flag (cluA n 0x40)).getLsbD 4 = true)
    (hu : u = a.playVector n g w c set i) (ht : t = u.vectorGoes n g at_ i period) :
    GoesOn n g at_ i period slips s t ∧ t.clu[n] = (if s.firstGroup n = some g then s.clu[n].ran period else s.clu[n]) ∧
      (w.getLsbD 54 = true → s.configured = true → s.producerOk (88 + 2 * g.val) = true →
        ∃ b ∈ t.brg.inFlight, b.prod.val = 88 + 2 * g.val ∧ b.at_ = upTick at_) ∧
      (w.getLsbD 55 = true → s.configured = true → s.producerOk (89 + 2 * g.val) = true →
        ∃ b ∈ t.brg.inFlight, b.prod.val = 89 + 2 * g.val ∧ b.at_ = upTick at_) ∧
      (bitsOf w.toNat 63 56 ≠ 0 → (t.flag (pgA g 8)).getLsbD 6 = true) ∧
      Within [.clk, .flg, .ctr, .clu, .pg, .pin, .brg, .mem, .msix] s t := by
  obtain ⟨hp, h54, h55, h6⟩ := a.playVector_plays n g w c set i
  have hw := State.playVector_within a n g w c set i
  rw [← hu] at hp h54 h55 h6 hw
  rw [hst] at h54 h55
  have huc : u.clu = s.clu := (hw.cluEq (by decide)).trans (ha.cluEq (by decide))
  have hgone := State.vectorGoes_gone (s := s) (u := u) (n := n) (g := g) at_ i period
    (fun d hd => by rw [hp.pg d hd, ha.pgEq]) (fun q hq => by rw [hp.pins q hq, ha.pinEq])
    (fun d _ => by rw [huc]) (by rw [huc])
  rw [← ht] at hgone
  have hconf : s.configured = true → a.configured = true := fun h => (State.configured_congr ha.imgEq).trans h
  have hprod : ∀ {k : Nat}, s.producerOk k = true → a.producerOk k = true := fun h => (State.producerOk_congr ha.partEq _).trans h
  refine ⟨goesOn_of hat hc hslip hp.rises hw.clkEq hgone, by rw [hgone.self, huc], fun h hcf hpr => ?_, fun h hcf hpr => ?_, fun h => ?_, ?_⟩
  · rw [hgone.brg]; exact h54 h (hconf hcf) (hprod hpr)
  · rw [hgone.brg]; exact h55 h (hconf hcf) (hprod hpr)
  · exact hgone.rises _ _ (by unfold pgA; omega) (h6 h)
  · have hgo : Within [.clu, .pg] u t := by
      rw [ht]
      exact (Within.ite ((State.modClu_within u n _).mono (by decide)) (Within.refl _ u)).step (State.modPg_within _ g _) (by decide)
    exact (ha.seq (l := [.clk, .flg, .ctr, .clu, .pg, .pin, .brg, .mem, .msix]) hw).seq hgo

/-- Settles O40: the vector's reader reads and its set is judged; it parks or plays, and the group goes on by the period. -/
theorem vectorsPlay : Obligations.VectorsPlay := by
  unfold Obligations.VectorsPlay
  intro s g n hu ho k e at_ i u p v x w set period after goesOn hplay hi
  have hv : v = s.vectorRead n g := rfl
  have hp : p = (s.upto (upTick s.pg[g].vecNext)).playNow n := rfl
  have hx : x = v.groupPlace n g := rfl
  have hw : w = v.timedWord n p g x := rfl
  have hper : period = v.vecPeriodAt n p x := (State.vecPeriodAt_eq hv hp hx).symm
  have hset : set = vecSet s.clu[n].entry w := rfl
  obtain ⟨hja, hjc, hjs⟩ := State.periodJudged_judges (n := n) hv at_ set period
  refine ⟨fun hk => ?_, fun x' hk hsome => ?_⟩
  · have h := vectorStart_parks hu ho hplay hi hv hp hx hw hper hk
    obtain ⟨h1, h2, h3, h4, h5⟩ := vectorParks_settles (s := s) (i := i) (period := period) (p := p) (x := x) rfl hja hjc hjs rfl rfl
    exact ⟨_, h, ⟨h1.next.1, h1.next.2.1, h1.next.2.2, h1.pg, h1.pins, h1.clu, h1.clk, h1.slip⟩, h2, h3, h4, h5⟩
  · have h := vectorStart_plays hu ho hplay hi hv hp hx hw hper hk hsome
    obtain ⟨h1, h2, h3, h4, h5, h6⟩ := vectorPlays_settles (s := s) (i := i) (period := period) (set := set) (w := x') rfl
      (c := { word := (v.periodJudged n g s.pg[g].vecNext set period).tsetWord g s.pg[g].vecNext set, start := s.pg[g].vecNext, period := period })
      rfl hja hjc hjs rfl rfl
    exact ⟨_, h, ⟨h1.next.1, h1.next.2.1, h1.next.2.2, h1.pg, h1.pins, h1.clu, h1.clk, h1.slip⟩, h2, h3, h4, h5, h6⟩

end Sys2Proof.Machine
end

