-- ==== Sys2Proof/Proofs/LateSamples.lean ====
section
/-! PROOF. A late check that meets no new late access counts nothing, whatever its counter holds (R159). -/
namespace Sys2Proof.Machine

/-- A check of a parked cluster's missing sample, of which no unit is known, only merges. -/
theorem lateCheck_merges {s : State} {n : Clu} {r : Fin 20} {i : Nat} {p : Play} (hu : s.undef = false) (hp : s.checkedPlay n r i = some p)
    (hs : ¬ (s.clu[n].state = .idle ∨ s.clu[n].state = .held ∨ s.sampleLanded n p r i = true)) (hm : s.missingUnit n p r i = none)
    (hk : s.clu[n].parked = true) : exec (.lateCheck n r i) s = .next (s.mergeLate n p r i) := by
  show execLateCheck n r i s = _
  rw [execLateCheck, guarded_next hu]
  dsimp only
  rw [hp]
  refine congrArg Host.Outcome.next ((if_neg hs).trans ?_)
  rw [hm]
  exact if_pos (.inl hk)

/-- Without a new late access the merge counts nothing. -/
theorem State.mergeLate_counter {s : State} {n : Clu} {p : Play} {r : Fin 20} {i : Nat} (h : s.newLate n p r i = []) (a : Nat) :
    (s.mergeLate n p r i).counter a = s.counter a := by
  unfold State.mergeLate
  rw [h]
  rfl

/-- Cluster 0 parked in RUN on an entry of one granule, with no lane and no group bound, and its CLU_LATE_ACCESSES past its top. -/
def lateTopped : State :=
  { State.reset with
    clu := State.reset.clu.set 0 { State.reset.clu[0] with state := .run, parked := true, entry := BitVec.ofNat 256 (2 ^ 32 + 2 ^ 64) }
    ctr := [(cluA 0 0x14C, { val := top32 + 1 })] }

theorem lateTopped_checked : lateTopped.checkedPlay 0 0 0 = some (lateTopped.playNow 0) := by decide +kernel

theorem lateTopped_late : lateTopped.sampleLanded 0 (lateTopped.playNow 0) 0 0 = false ∧
    lateTopped.newLate 0 (lateTopped.playNow 0) 0 0 = [] ∧ lateTopped.missingUnit 0 (lateTopped.playNow 0) 0 0 = none := by decide +kernel

/-- Refutes O31 in its clause on a merged late sample: it has every merge leave the count at most 2³² − 1, also one without a new late access; but such
a merge leaves the counter as it is, and the statement ranges over states whose counter stands past that. -/
theorem not_lateSamples : ¬ Obligations.LateSamples := by
  unfold Obligations.LateSamples
  intro h
  obtain ⟨hlanded, hnew, hunit⟩ := lateTopped_late
  obtain ⟨-, hcheck⟩ := ((h lateTopped 0 rfl).1 0 0).2 _ lateTopped_checked
  obtain ⟨t, hx, hc, -⟩ := (hcheck (by decide) (by decide) hlanded).1 (.inl rfl)
  have hexec := lateCheck_merges (s := lateTopped) (n := 0) (r := 0) (i := 0) rfl lateTopped_checked
    (by rw [hlanded]; decide) hunit rfl
  obtain rfl : lateTopped.mergeLate 0 (lateTopped.playNow 0) 0 0 = t := Host.Outcome.next.inj (hexec.symm.trans hx)
  rw [State.mergeLate_counter hnew] at hc
  have hle : lateTopped.counter (cluA 0 0x14C) ≤ top32 := hc ▸ Nat.min_le_right _ _
  exact absurd hle (by decide)

end Sys2Proof.Machine
end

