-- ==== Sys2Proof/Proofs/HostedObjects.lean ====
section
/-! PROOF. A commit to a Hosted entry can move the object of another cluster: of clusters that take an object of one context in one tick the
lower-numbered takes first (R389). -/
namespace Sys2Proof.Machine

/-- A configured device at a tick, whose clusters 0 and 1 bind the lanes 0 and 1. Entry 1, published under cluster 0's layout, streams
from context 0: four granules, played once. -/
def ringTables (tick : Nat) : State :=
  let s := (State.reset.modClu 0 (fun k => { k with wBound := 1 })).modClu 1 (fun k => { k with wBound := 2 })
  { s with
    clk := { s.clk with now := tick, pll := 0xFF, plan := 0xF0F, patRun := 15, convRun := 15, dramRun := true, aligned := 0xFFF }
    img := { s.img with state := .configured }
    dram := { s.dram with configured := true, ready := true }
    tabs := { s.tabs with seg := [(9, 4), (10, 1), (14, 0x200000)] }
    plc := { s.plc with entries := [(1, { published := true, layouts := [(s.layoutOf 0, .resident)] })] } }

/-- Cluster 1 has taken an object of the open context 0 in a tick: its position is 0. Cluster 0 is about to take one in that tick. -/
def ringState (tick : Nat) (f : Cluster → Cluster) : State :=
  (((ringTables tick).modCtx 0 (fun k => { k with state := .opened, taken := 8, objs := [(1, 8)] })).modClu 1 (fun k =>
    { k with hosted := some { ctx := 0, pos := 0, size := 8, at_ := tick } })).modClu 0 f

def ringEntry : BitVec 256 := (ringTables 0).entry 1

/-- Cluster 0 in LEAD for entry 1, with its first sample due at tick 0. -/
def ringStart : State := ringState 0 fun k => { k with state := .lead, lead := some { idx := 1, entry := ringEntry } }

/-- An Immediate jump to entry 1, checked, whose switch instant is tick 100. -/
def ringSched : Sched :=
  { target := 1, mode := .immediate, cond := 0, ts := 0, s := 100, checked := true
    read := some { entry := ringEntry, published := true, cls := none } }

/-- Cluster 0 in RUN, in a play of four granules, with that jump scheduled. -/
def ringJump : State :=
  ringState 100 fun k => { k with state := .run, entry := BitVec.ofNat 256 (2 ^ 34 + 2 ^ 64), sched := some ringSched }

/-- Cluster 0 in RUN at the final fret of its only play, of four granules, which entry 1 follows. -/
def ringFret : State :=
  ringState 128 fun k => { k with state := .run, entry := BitVec.ofNat 256 (2 ^ 34 + 2 ^ 64 + (2 ^ 31 + 1) * 2 ^ 96) }

/-- The ring position of the object that cluster 1 holds. -/
def secondObject (s : State) : Option Nat := s.clu[(1 : Clu)].hosted.map HostedObj.pos

/-- That position after a command. -/
def objectAfter (c : Instr) (s : State) : Option Nat :=
  match exec c s with
  | .next t => secondObject t
  | _ => secondObject s

/-- A command of cluster 0 that moves it cannot leave every other cluster as it was. -/
theorem not_gives_of_moved {c : Instr} {s : State} (hm : objectAfter c s ≠ secondObject s) {P : State → Prop}
    (hP : ∀ t, P t → CluBut 0 s t) : ¬ Gives c s P := by
  rintro ⟨t, ht, hp⟩
  unfold objectAfter at hm
  rw [ht] at hm
  exact hm (congrArg (fun k : Cluster => k.hosted.map HostedObj.pos) (hP t hp 1 (by decide)))

theorem ringStart_moves : objectAfter (.firstSegmentStart 0) ringStart ≠ secondObject ringStart := by decide +kernel

theorem ringJump_moves : objectAfter (.jumpSwitch 0) ringJump ≠ secondObject ringJump := by decide +kernel

theorem ringFret_moves : objectAfter (.finalFret 0) ringFret ≠ secondObject ringFret := by decide +kernel

/-- Refutes O24 in its clause on the first segment start: it has no other cluster change, but where that start commits to a Hosted entry in the
tick in which a higher-numbered cluster has taken an object of the same context, that object moves on by one (R389). -/
theorem not_clustersStart : ¬ Obligations.ClustersStart := by
  unfold Obligations.ClustersStart
  intro h
  obtain ⟨-, -, -, hfirst⟩ := h ringStart 0 rfl
  refine not_gives_of_moved ringStart_moves (fun t ht => ?_) (hfirst { idx := 1, entry := ringEntry } rfl rfl)
  obtain ⟨-, -, -, -, -, -, -, -, -, -, hclu, -⟩ := ht
  exact hclu

/-- Refutes O29 in its clause on a switch: it has no other cluster change, but where the jump's target is a Hosted entry and a higher-numbered
cluster has taken an object of the same context in that tick, that object moves on by one (R389). -/
theorem not_jumpChecksAndSwitches : ¬ Obligations.JumpChecksAndSwitches := by
  unfold Obligations.JumpChecksAndSwitches
  intro h
  obtain ⟨-, -, -, hswitch⟩ := h ringJump 0 ringSched rfl rfl
  obtain ⟨hnow, -⟩ := hswitch (.jumpSwitch 0) rfl (by decide +kernel) (by decide +kernel) (by decide +kernel) (.inl rfl)
  refine not_gives_of_moved ringJump_moves (fun t ht => ?_) (hnow (by decide))
  obtain ⟨⟨-, -, -, -, -, -, -, -, -, -, hclu, -⟩, -⟩ := ht
  exact hclu

/-- What the final fret of `ringFret` meets: a spent entry whose successor, entry 1, passes the checks and opens no loop. -/
theorem ringFret_leaves : (eRepeat ringFret.clu[(0 : Clu)].entry = 1 ∧ ringFret.clu[(0 : Clu)].plays = 0) ∧
    (leaveEntry ringFret.clu[(0 : Clu)].entry []).next = some (1, false) ∧ ringFret.commitCheck 0 1 = 0 ∧
    commitStack 1 (ringFret.entry 1) false (leaveEntry ringFret.clu[(0 : Clu)].entry []).stack = some [] := by decide +kernel

/-- Refutes O26 in its clause on a successor that is committed: it has no other cluster change, but where the successor is a Hosted entry and a
higher-numbered cluster has taken an object of the same context in that tick, that object moves on by one (R389). -/
theorem not_finalFretSteps : ¬ Obligations.FinalFretSteps := by
  unfold Obligations.FinalFretSteps
  intro h
  obtain ⟨⟨hrepeat, hplays⟩, hnext, hcheck, hstack⟩ := ringFret_leaves
  obtain ⟨hplain, -⟩ := h ringFret 0 rfl
  obtain ⟨-, -, hcommit, -⟩ := hplain rfl rfl rfl rfl (.inl (by decide +kernel))
  refine not_gives_of_moved ringFret_moves (fun t ht => ?_) (hcommit 1 false [] ⟨by rw [hrepeat]; decide, by rw [hrepeat, hplays]⟩ hnext hcheck hstack)
  obtain ⟨-, -, -, -, -, -, hclu⟩ := ht
  exact hclu

end Sys2Proof.Machine
end

