-- ==== Sys2Proof/Proofs/ClusterCounts.lean ====
section
/-! PROOF. What cuts, parks and the entry into IDLE leave of the clusters' own counters (R104, R130, R165). -/
namespace Sys2Proof.Machine

/-- The counters of the clusters are as they were. -/
def CluCounts (s t : State) : Prop := ∀ a, 0x100000 ≤ a → a < 0x200000 → t.counter a = s.counter a

theorem CluCounts.refl (s : State) : CluCounts s s := fun _ _ _ => rfl

theorem CluCounts.trans {s t u : State} (h : CluCounts s t) (k : CluCounts t u) : CluCounts s u :=
  fun a lo hi => (k a lo hi).trans (h a lo hi)

theorem CluCounts.of_eq {s t : State} (h : t.ctr = s.ctr) : CluCounts s t := fun a _ _ => counter_of_ctr_eq h a

theorem CluCounts.of_within {l : List Field} {s t : State} (h : Within l s t) (hc : Field.ctr ∉ l := by decide) : CluCounts s t :=
  CluCounts.of_eq (h .ctr hc)

theorem CluCounts.fold {α : Type} {f : State → α → State} (h : ∀ u x, CluCounts u (f u x)) (l : List α) (s : State) :
    CluCounts s (l.foldl f s) :=
  foldl_rel CluCounts CluCounts.refl (fun h k => h.trans k) f h l s

theorem CluCounts.ite {c : Prop} [Decidable c] {s t u : State} (h : CluCounts s t) (k : CluCounts s u) :
    CluCounts s (if c then t else u) := by
  split
  · exact h
  · exact k

/-- A count of another block. -/
theorem CluCounts.count (s : State) {a : Nat} (n : Nat) (ha : a < 0x100000 ∨ 0x200000 ≤ a) : CluCounts s (s.count a n) :=
  fun b lo hi => counter_count_other s a n b (by omega)

theorem CluCounts.setBit (s : State) (a i : Nat) : CluCounts s (s.setBit a i) := CluCounts.of_within (State.setBit_within s a i)

theorem CluCounts.crowd (s : State) (g : Pg) (bit : Nat) : CluCounts s (s.crowd g bit) :=
  (CluCounts.count s 1 (.inr (by unfold tsgA pgA; omega))).trans (CluCounts.setBit _ _ _)

theorem CluCounts.ddEdge (s : State) (g : Pg) (j : Fin 16) (x : Edge) : CluCounts s (s.ddEdge g j x) := by
  unfold State.ddEdge
  have h : ∀ f, CluCounts s (s.modPin (pinOf g j) f) := fun f => CluCounts.of_within (State.modPin_within s _ f)
  exact CluCounts.ite ((h _).trans (CluCounts.crowd _ g 1)) (h _)

theorem CluCounts.deEdge (s : State) (g : Pg) (j : Fin 16) (x : Edge) : CluCounts s (s.deEdge g j x) := by
  unfold State.deEdge
  have h : ∀ f, CluCounts s (s.modPin (pinOf g j) f) := fun f => CluCounts.of_within (State.modPin_within s _ f)
  exact CluCounts.ite ((h _).trans (CluCounts.crowd _ g 1)) (h _)

theorem CluCounts.parkPin (s : State) (g : Pg) (j : Fin 16) (k : Nat) : CluCounts s (s.parkPin g j k) :=
  (CluCounts.deEdge s g j _).trans (CluCounts.ddEdge _ g j _)

theorem CluCounts.logVector (s : State) (g : Pg) (v : VecOpen) : CluCounts s (s.logVector g v) := by
  unfold State.logVector
  have h : ∀ (u : State) f, CluCounts u (u.modPg g f) := fun u f => CluCounts.of_within (State.modPg_within u g f)
  refine CluCounts.ite (CluCounts.refl s) ((h s _).trans (CluCounts.ite ?_ (h _ _)))
  exact (CluCounts.count _ 1 (.inr (by unfold pgA; omega))).trans (CluCounts.setBit _ _ _)

theorem CluCounts.closeVector (s : State) (g : Pg) (v : VecOpen) : CluCounts s (s.closeVector g v) := by
  unfold State.closeVector
  refine CluCounts.trans (CluCounts.ite (CluCounts.refl s) ?_) (CluCounts.logVector _ g v)
  have hnote : CluCounts s (s.modPg g (fun p => { p with ffLast := some (s.clk.now, s.firstFail v) })) :=
    CluCounts.of_within (State.modPg_within s g _)
  refine CluCounts.trans (t := match s.pg[g].ffLast with
    | some x => if x.1 = s.clk.now then s else s.modPg g (fun p => { p with ffLast := some (s.clk.now, s.firstFail v) })
    | none => s.modPg g (fun p => { p with ffLast := some (s.clk.now, s.firstFail v) })) ?_
    (CluCounts.ite (CluCounts.of_within (State.takeFf_within _ g _)) (CluCounts.refl _))
  split
  · exact CluCounts.ite (CluCounts.refl s) hnote
  · exact hnote

theorem CluCounts.closeVectors (s : State) (g : Pg) : CluCounts s (s.closeVectors g) := by
  unfold State.closeVectors
  exact CluCounts.trans (CluCounts.of_within (State.modPg_within s g _)) (CluCounts.fold (fun u v => CluCounts.closeVector u g v) _ _)

theorem CluCounts.cutGroup (s : State) (g : Pg) (k : Nat) (f : Nat → Bool) : CluCounts s (s.cutGroup g k f) := by
  unfold State.cutGroup
  exact ((CluCounts.fold (fun u j => CluCounts.of_within (State.modPin_within u _ _)) _ s).trans
    (CluCounts.of_within (State.modPg_within _ g _))).trans (CluCounts.closeVectors _ g)

theorem CluCounts.cutGroups (s : State) (n : Clu) (k : Nat) : CluCounts s (s.cutGroups n k) :=
  CluCounts.fold (fun u g => CluCounts.ite (CluCounts.cutGroup u g k _) (CluCounts.refl u)) _ s

theorem CluCounts.parkGroups (s : State) (n : Clu) (k : Nat) : CluCounts s (s.parkGroups n k) :=
  CluCounts.fold (fun u g => (CluCounts.cutGroup u g k _).trans (CluCounts.fold (fun v j => CluCounts.parkPin v g j k) _ _)) _ s

theorem CluCounts.lowWater (s : State) (c : Ctx) : CluCounts s (s.lowWater c) := by
  unfold State.lowWater
  have hctx : ∀ f, CluCounts s (s.modCtx c f) := fun f => CluCounts.of_within (State.modCtx_within s c f)
  exact CluCounts.ite (CluCounts.refl _) (CluCounts.ite (hctx _) (CluCounts.ite
    (((hctx _).trans (CluCounts.setBit _ _ _)).trans (CluCounts.count _ 1 (.inl (by unfold ctxA; omega)))) (CluCounts.refl _)))

theorem CluCounts.releaseObject (s : State) (n : Clu) : CluCounts s (s.releaseObject n) := by
  unfold State.releaseObject
  split
  · exact CluCounts.refl s
  · rename_i o _
    have hctx : ∀ (u : State) (f : Stream → Stream), CluCounts u (((u.modCtx o.ctx f).lowWater o.ctx).ctxCloseIfDone o.ctx) := fun u f =>
      ((CluCounts.of_within (State.modCtx_within u o.ctx f)).trans (CluCounts.lowWater _ _)).trans
        (CluCounts.of_within (State.ctxCloseIfDone_within _ _))
    exact (CluCounts.of_within (State.modClu_within s n _)).trans (CluCounts.ite (hctx _ _) (CluCounts.refl _))

/-- Entry into IDLE counts nothing of a cluster. -/
theorem CluCounts.idleEffects (s : State) (n : Clu) : CluCounts s (s.idleEffects n) := by
  unfold State.idleEffects
  dsimp only
  refine CluCounts.trans ?_ (CluCounts.of_within (State.lanesIdle_within _ n))
  refine CluCounts.trans ?_ (CluCounts.of_within (State.ncoIdle_within _ n))
  refine CluCounts.trans ?_ (CluCounts.fold (fun u w => CluCounts.of_within (State.bandFollow_within u _ w)) _ _)
  refine CluCounts.trans ?_ (CluCounts.fold (fun u g => CluCounts.of_within (State.copyTset_within u g)) _ _)
  refine CluCounts.trans ?_ (CluCounts.of_within (State.applyIdle_within _ n))
  exact (CluCounts.fold (fun u w => CluCounts.of_within (State.ncoSync_within u _ w)) _ s).trans (CluCounts.releaseObject _ n)

/-- A jump that is dropped counts as cancelled, once (R122). -/
theorem State.cancelJump_counter (s : State) (n : Clu) : (s.cancelJump n false).counter (cluA n 0x12C) =
    if s.clu[n].sched.isSome then min (s.counter (cluA n 0x12C) + 1) top32 else s.counter (cluA n 0x12C) := by
  unfold State.cancelJump
  cases hj : s.clu[n].sched with
  | none => rfl
  | some j => exact State.dropJump_counter s n

/-- A stop counts in its cluster only the jump that it cancels. -/
theorem State.stopCluster_cancels (s : State) (n : Clu) (reason at_ : Nat) : (s.stopCluster n reason at_).counter (cluA n 0x12C) =
    if s.clu[n].sched.isSome then min (s.counter (cluA n 0x12C) + 1) top32 else s.counter (cluA n 0x12C) := by
  have hparks : CluCounts s (((s.markNeeded n).cutGroups n at_).parkGroups n at_) :=
    ((CluCounts.of_within (State.markNeeded_within s n)).trans (CluCounts.cutGroups _ n at_)).trans (CluCounts.parkGroups _ n at_)
  have hclu : (((s.markNeeded n).cutGroups n at_).parkGroups n at_).clu = s.clu :=
    ((State.parkGroups_within _ _ _).cluEq (by decide)).trans
      (((State.cutGroups_within _ _ _).cluEq (by decide)).trans ((State.markNeeded_within _ _).cluEq (by decide)))
  have lo : 0x100000 ≤ cluA n 0x12C := by unfold cluA; omega
  have hi : cluA n 0x12C < 0x200000 := by unfold cluA; omega
  unfold State.stopCluster
  dsimp only
  rw [(CluCounts.of_within (State.setBitIf_within _ _ _ _)) _ lo hi, CluCounts.idleEffects _ n _ lo hi,
    (CluCounts.of_within (State.modClu_within _ n _)) _ lo hi, State.cancelJump_counter, hparks _ lo hi, getClu_of_eq hclu]

end Sys2Proof.Machine
end

