-- ==== Sys2Proof/Proofs/Stops.lean ====
section
/-! PROOF. STOP, ABORT and the park that an ABORT ends in (R99, R121, R122, R160, R447). -/
namespace Sys2Proof.Machine

/-! ### The jump that a STOP or an ABORT cancels (R121, R122) -/

/-- The scheduled jump's switch instant less D has not passed. -/
def State.stopCancels (s : State) (n : Clu) : Bool :=
  s.clu[n].sched.any (fun j => decide ((s.clk.now + s.leadOf n) * 1024 ≤ s.switchAt n j))

/-- The cluster after that cancellation. -/
def State.stopLeft (s : State) (n : Clu) : Cluster :=
  if s.stopCancels n then
    { s.clu[n] with sched := none, foreseenAt := s.clk.now, latePend := s.clu[n].latePend.map (fun l => { l with unserved := true }) }
  else s.clu[n]

/-- A DIVERT that is parked has lost the jump that serves it, or loses it now (R160). -/
def State.stopLoses (s : State) (n : Clu) : Bool :=
  s.clu[n].parked && s.clu[n].latePend.any (fun l => decide (l.action = 2) && (l.unserved || s.stopCancels n))

theorem State.cancelJump_soft (s : State) (n : Clu) : s.cancelJump n true = if s.stopCancels n then s.dropJump n else s := by
  unfold State.cancelJump State.stopCancels
  cases s.clu[n].sched with
  | none => rfl
  | some j =>
    simp only [Bool.true_and, decide_eq_true_eq, Option.any_some]
    by_cases h : s.switchAt n j < (s.clk.now + s.leadOf n) * 1024
    · rw [if_pos h, if_neg (by omega)]
    · rw [if_neg h, if_pos (by omega)]

theorem State.cancelJump_soft_clu (s : State) (n : Clu) : CluIs n (s.stopLeft n) s (s.cancelJump n true) := by
  rw [State.cancelJump_soft]
  unfold State.stopLeft
  cases s.stopCancels n with
  | false => exact CluIs.refl n s
  | true => exact s.dropJump_clu n

theorem State.divertLost_cancelJump (s : State) (n : Clu) : (s.cancelJump n true).divertLost n = s.stopLoses n := by
  unfold State.divertLost
  rw [(s.cancelJump_soft_clu n).1]
  unfold State.stopLoses State.stopLeft
  cases s.stopCancels n with
  | false => simp
  | true => cases s.clu[n].latePend <;> simp

/-- The release lead is a matter of what the cluster binds and of its rate. -/
theorem State.leadOf_congr {s t : State} {n : Clu} (hb : t.clu[n].wBound = s.clu[n].wBound) (he : t.eff = s.eff) (hp : t.part = s.part) :
    t.leadOf n = s.leadOf n := by
  have hrate : t.doutOf n = s.doutOf n := by
    unfold State.doutOf State.kOf
    rw [hp, State.effF_congr he]
  have hlanes : t.hasW n = s.hasW n := congrArg (fun b => decide (b ≠ 0)) hb
  unfold State.leadOf
  rw [hlanes, hrate]

theorem State.cancelJump_soft_lead (s : State) (n : Clu) : (s.cancelJump n true).leadOf n = s.leadOf n := by
  have hw := s.cancelJump_within n true
  refine State.leadOf_congr ?_ (hw .eff (by decide)) hw.partEq
  rw [(s.cancelJump_soft_clu n).1]
  unfold State.stopLeft
  cases s.stopCancels n <;> rfl

/-- Whether the cancellation of a STOP or an ABORT was made, with its count and flag, or nothing was. -/
structure SoftCancel (n : Clu) (s t : State) : Prop where
  counter : s.stopCancels n = true → t.counter (cluA n 0x12C) = min (s.counter (cluA n 0x12C) + 1) top32
  flag : s.stopCancels n = true → t.flag (cluA n 0x118) = s.flag (cluA n 0x118) ||| bit32 8
  ctrs : s.stopCancels n = true → CtrsBut [cluA n 0x12C] s t
  flags : s.stopCancels n = true → FlagsBut [cluA n 0x118] s t
  frame : s.stopCancels n = true → Within [.flg, .ctr, .clu, .msix, .plc] s t
  still : s.stopCancels n = false → Within [.clu] s t

theorem SoftCancel.of_none {s : State} {n : Clu} (hc : s.stopCancels n = false) (f : Cluster → Cluster) : SoftCancel n s (s.modClu n f) := by
  have hno : ∀ {p : Prop}, s.stopCancels n = true → p := fun h => absurd (hc.symm.trans h) Bool.false_ne_true
  exact ⟨hno, hno, hno, hno, hno, fun _ => State.modClu_within s n f⟩

theorem SoftCancel.of_drop {s : State} {n : Clu} (hc : s.stopCancels n = true) (f : Cluster → Cluster) :
    SoftCancel n s ((s.dropJump n).modClu n f) where
  counter _ := (counter_of_ctr_eq (State.modClu_ctr _ n f) _).trans (s.dropJump_counter n)
  flag _ := (flag_of_flg_eq (State.modClu_flg _ n f) _).trans (s.dropJump_flag n)
  ctrs _ := fun a ha => (counter_of_ctr_eq (State.modClu_ctr _ n f) a).trans (s.dropJump_ctrsBut n a ha)
  flags _ := fun a ha hp => (flag_of_flg_eq (State.modClu_flg _ n f) a).trans (s.dropJump_flagsBut n a ha hp)
  frame _ := (s.dropJump_within n).step (State.modClu_within _ n f) (by decide)
  still h := absurd (hc.symm.trans h) Bool.false_ne_true.symm

theorem State.cancelJump_softCancel (s : State) (n : Clu) (f : Cluster → Cluster) :
    SoftCancel n s ((s.cancelJump n true).modClu n f) := by
  rw [State.cancelJump_soft]
  by_cases hc : s.stopCancels n = true
  · rw [if_pos hc]
    exact SoftCancel.of_drop hc f
  · rw [if_neg hc]
    exact SoftCancel.of_none (Bool.eq_false_iff.2 hc) f

/-! ### A cluster that stops -/

/-- The cluster is IDLE and empty, with a stop reason. -/
def Cluster.emptied (k : Cluster) (reason : BitVec 4) (foreseen : Nat) : Cluster :=
  { k with state := .idle, stopReason := reason, stack := [], outStack := [], abortAt := none, latePend := none
           matchOutcome := none, resetPark := none, lead := none, sched := none, hosted := none, foreseenAt := foreseen }

/-- A cluster of a state has stopped, and no other changed. -/
structure Stopped (n : Clu) (reason : Nat) (s t : State) : Prop where
  clu : t.clu[n] = s.clu[n].emptied (BitVec.ofNat 4 reason) t.clu[n].foreseenAt
  other : CluBut n s t
  flag : s.clu[n].state ≠ .idle → (t.flag (cluA n 0x40)).getLsbD 1 = true
  cancels : t.counter (cluA n 0x12C) = if s.clu[n].sched.isSome then min (s.counter (cluA n 0x12C) + 1) top32 else s.counter (cluA n 0x12C)

theorem State.stopCluster_stopped (s : State) (n : Clu) (reason at_ : Nat) : Stopped n reason s (s.stopCluster n reason at_) := by
  obtain ⟨f, hself, hother⟩ := s.stopCluster_clu n reason at_
  refine ⟨?_, hother, fun hs => ?_, s.stopCluster_cancels n reason at_⟩
  · rw [hself]
    rfl
  · unfold State.stopCluster
    exact State.flagBit_setBitIf _ (decide_eq_true hs) (cluA_not_mem_pendWords n _) (by decide)

/-! ### STOP and ABORT of a cluster that plays -/

theorem exec_cluStop {s : State} (n : Clu) (hu : s.undef = false) : exec (.cluStop n) s = .next (s.stop n) := by
  show execCluStop n s = _
  rw [execCluStop, guarded_next hu]

theorem exec_cluAbort {s : State} (n : Clu) (hu : s.undef = false) : exec (.cluAbort n) s = .next (s.abort n) := by
  show execCluAbort n s = _
  rw [execCluAbort, guarded_next hu]

theorem State.stop_run {s : State} {n : Clu} (h : s.clu[n].state = .run) : s.stop n = s.stopJump n (fun s => s.modClu n (fun k =>
    { k with state := .stopping, sched := k.sched.map (fun j => { j with past := true }) })) := by
  unfold State.stop
  rw [h]

theorem State.stop_start {s : State} {n : Clu} (h : s.clu[n].state = .held ∨ s.clu[n].state = .lead) : s.stop n = s.dropStart n 2 := by
  unfold State.stop
  rcases h with h | h <;> rw [h]

theorem State.stop_else {s : State} {n : Clu} (h : s.clu[n].state = .idle ∨ s.clu[n].state = .stopping) :
    s.stop n = s.setBit (cluA n 0x40) 3 := by
  unfold State.stop
  rcases h with h | h <;> rw [h]

theorem State.abort_playing {s : State} {n : Clu} (h : s.clu[n].state = .run ∨ s.clu[n].state = .stopping) :
    s.abort n = s.stopJump n (fun s => s.modClu n (fun k => { k with abortAt := some (k.abortAt.getD ((s.clk.now + s.leadOf n) * 1024)) })) := by
  unfold State.abort
  rcases h with h | h <;> rw [h]

theorem State.abort_start {s : State} {n : Clu} (h : s.clu[n].state = .held ∨ s.clu[n].state = .lead) : s.abort n = s.dropStart n 3 := by
  unfold State.abort
  rcases h with h | h <;> rw [h]

theorem State.abort_idle {s : State} {n : Clu} (h : s.clu[n].state = .idle) : s.abort n = s.setBit (cluA n 0x40) 3 := by
  unfold State.abort
  rw [h]

theorem State.stopJump_plays {s : State} {n : Clu} (h : s.stopLoses n = false) (f : State → State) :
    s.stopJump n f = f (s.cancelJump n true) := by
  unfold State.stopJump
  dsimp only
  rw [State.divertLost_cancelJump, h]
  rfl

theorem State.stopJump_loses {s : State} {n : Clu} (h : s.stopLoses n = true) (f : State → State) :
    s.stopJump n f = (s.cancelJump n true).stopCluster n 4 ((s.cancelJump n true).clk.now * 1024) := by
  unfold State.stopJump
  dsimp only
  rw [State.divertLost_cancelJump, h]
  rfl

/-- A DIVERT that loses its jump is a stop with reason FAULT; a jump that was scheduled counts as cancelled either way. -/
theorem State.stopJump_stopped {s : State} {n : Clu} (h : s.stopLoses n = true) (f : State → State) :
    Stopped n 4 s (s.stopJump n f) := by
  rw [State.stopJump_loses h]
  have hclu := s.cancelJump_soft_clu n
  obtain ⟨hself, hother, hflag, hcancels⟩ := State.stopCluster_stopped (s.cancelJump n true) n 4 ((s.cancelJump n true).clk.now * 1024)
  generalize (s.cancelJump n true).stopCluster n 4 ((s.cancelJump n true).clk.now * 1024) = t at *
  rw [hclu.1] at hself hflag hcancels
  rw [State.cancelJump_soft] at hcancels
  unfold State.stopLeft at hself hflag hcancels
  cases hc : s.stopCancels n with
  | false =>
    rw [hc] at hself hflag hcancels
    exact ⟨hself, fun m hm => (hother m hm).trans (hclu.2 m hm), hflag, hcancels⟩
  | true =>
    rw [hc] at hself hflag hcancels
    have hsched : s.clu[n].sched.isSome = true := by
      unfold State.stopCancels at hc
      cases hj : s.clu[n].sched with
      | none => rw [hj] at hc; exact hc
      | some j => rfl
    refine ⟨hself, fun m hm => (hother m hm).trans (hclu.2 m hm), hflag, ?_⟩
    rw [if_pos hsched, ← s.dropJump_counter n]
    exact hcancels

theorem cluStop_plays {s : State} {n : Clu} (hu : s.undef = false) (hr : s.clu[n].state = .run) (hl : s.stopLoses n = false) :
    Gives (.cluStop n) s (fun t => t.clu[n] = { s.stopLeft n with
      state := .stopping, sched := (s.stopLeft n).sched.map (fun j => { j with past := true }) } ∧ CluBut n s t ∧ SoftCancel n s t) := by
  refine ⟨_, exec_cluStop n hu, ?_⟩
  rw [State.stop_run hr, State.stopJump_plays hl]
  obtain ⟨hself, hother⟩ := (s.cancelJump_soft_clu n).mod (fun k =>
    { k with state := .stopping, sched := k.sched.map (fun j => { j with past := true }) })
  exact ⟨hself, hother, s.cancelJump_softCancel n _⟩

theorem cluAbort_plays {s : State} {n : Clu} (hu : s.undef = false) (hr : s.clu[n].state = .run ∨ s.clu[n].state = .stopping)
    (hl : s.stopLoses n = false) : Gives (.cluAbort n) s (fun t => t.clu[n] = { s.stopLeft n with
      abortAt := some (s.clu[n].abortAt.getD ((s.clk.now + s.leadOf n) * 1024)) } ∧ CluBut n s t ∧ SoftCancel n s t) := by
  refine ⟨_, exec_cluAbort n hu, ?_⟩
  rw [State.abort_playing hr, State.stopJump_plays hl, State.cancelJump_soft_lead, (s.cancelJump_within n true).clkEq]
  obtain ⟨hself, hother⟩ := (s.cancelJump_soft_clu n).mod (fun k =>
    { k with abortAt := some (k.abortAt.getD ((s.clk.now + s.leadOf n) * 1024)) })
  refine ⟨hself.trans ?_, hother, s.cancelJump_softCancel n _⟩
  unfold State.stopLeft
  cases s.stopCancels n <;> rfl

/-! ### STOP and ABORT before the first segment start -/

/-- What STOP or ABORT leaves of a cluster in HELD or LEAD, while data of an earlier run plays out and else. -/
structure StartDropped (n : Clu) (reason : Nat) (s t : State) : Prop where
  clu : s.clu[n].resetPark = none → t.clu[n] = s.clu[n].emptied (BitVec.ofNat 4 reason) t.clu[n].foreseenAt
  playsOut : s.clu[n].resetPark.isSome = true →
    t.clu[n] = { s.clu[n] with state := .idle, stopReason := BitVec.ofNat 4 reason, lead := none, hosted := none }
  other : CluBut n s t
  flag : (t.flag (cluA n 0x40)).getLsbD 1 = true

theorem State.dropStart_drops {s : State} {n : Clu} (reason : Nat) (hs : s.clu[n].state ≠ .idle) :
    StartDropped n reason s (s.dropStart n reason) := by
  unfold State.dropStart
  cases hr : s.clu[n].resetPark with
  | none =>
    obtain ⟨hself, hother, hflag, -⟩ := s.stopCluster_stopped n reason (s.clk.now * 1024)
    exact ⟨fun _ => hself, fun h => absurd h (by rw [hr]; decide), hother, hflag hs⟩
  | some p =>
    have hmod := (CluIs.refl n s).mod (fun k => { k with state := .idle, stopReason := BitVec.ofNat 4 reason, lead := none })
    have hidle := State.idleEffects_clu
      (s.modClu n (fun k => { k with state := .idle, stopReason := BitVec.ofNat 4 reason, lead := none })) n
    rw [hmod.1] at hidle
    have hset := (State.setBit_within ((s.modClu n (fun k =>
      { k with state := .idle, stopReason := BitVec.ofNat 4 reason, lead := none })).idleEffects n) (cluA n 0x40) 1).cluEq (by decide)
    have hall := hidle.same hset
    exact ⟨fun h => absurd (hr.symm.trans h) (by simp), fun _ => hall.1, fun m hm => (hall.2 m hm).trans (hmod.2 m hm),
      flagBit_setBit _ (cluA_not_mem_pendWords n _) (by decide)⟩

/-! ### The park -/

theorem exec_abortPark {s : State} {n : Clu} {f : Nat} (hu : s.undef = false) (hf : s.abortFret n = some f) (hle : f ≤ s.finalFret n)
    (hj : s.clu[n].sched.any (fun j => j.checked && decide (s.switchAt n j < f)) = false) :
    exec (.abortPark n) s = .next ((s.upto (upTick f)).stopCluster n 3 f) := by
  show execAbortPark n s = _
  rw [execAbortPark, guarded_next hu, hf]
  exact congrArg Host.Outcome.next (if_neg (by rw [hj]; simp [hle]))

/-- Settles O25: a STOP or an ABORT that is taken is the soft cancellation and its own mark, every other stop is `stopCluster`. -/
theorem clustersStop : Obligations.ClustersStop := by
  unfold Obligations.ClustersStop
  intro s n hu k empty stopped dropped cancels lost left counted
  have hcounted : ∀ t, SoftCancel n s t → counted t := fun t h =>
    ⟨fun hc => ⟨h.counter hc, h.flag hc, h.ctrs hc, h.flags hc, h.frame hc⟩, h.still⟩
  have hframe : ∀ {reason}, StartDropped n reason s (s.dropStart n reason) → stopped (BitVec.ofNat 4 reason) (s.dropStart n reason) :=
    fun h => ⟨h.clu, h.playsOut, h.other, h.flag, s.dropStart_within n _⟩
  have hdropped : dropped (s.setBit (cluA n 0x40) 3) :=
    ⟨State.flag_setBit_self _ _ (cluA_not_mem_pendWords n _), (FlagsBut.refl _ s).setBit 3 (List.mem_singleton.2 rfl), State.setBit_within _ _ _⟩
  have hstart : k.state = .held ∨ k.state = .lead → k.state ≠ .idle := fun h e => by rw [e] at h; simp at h
  refine ⟨fun hr hl => ?_, fun hr hl => ?_, fun c hc hl => ?_, fun hs => ⟨?_, ?_⟩, fun hs => ⟨?_, ?_⟩, fun hs => ?_, fun f hf hs hle hj => ?_⟩
  · obtain ⟨t, hx, hself, hother, hsoft⟩ := cluStop_plays hu hr hl
    exact ⟨t, hx, hself, hother, hcounted t hsoft⟩
  · obtain ⟨t, hx, hself, hother, hsoft⟩ := cluAbort_plays hu hr hl
    exact ⟨t, hx, hself, hother, hcounted t hsoft⟩
  · have hgives : ∀ t, Stopped n 4 s t → Within [.eff, .flg, .ctr, .cmd, .more, .tabs, .clu, .wl, .gov, .pg, .pin, .host, .msix, .plc] s t →
        k.state ≠ .idle → _ := fun t h hw hs => (⟨h.clu, h.other, h.flag hs, fun hj => h.cancels.trans (if_pos hj), hw⟩ :
          empty 4 t ∧ CluBut n s t ∧ _ ∧ (_ → _) ∧ Within [.eff, .flg, .ctr, .cmd, .more, .tabs, .clu, .wl, .gov, .pg, .pin, .host, .msix, .plc] s t)
    rcases hc with ⟨rfl, hr⟩ | ⟨rfl, hr⟩
    · have hs : k.state ≠ .idle := by rw [hr]; decide
      have hw := s.stop_within n
      rw [State.stop_run hr] at hw
      exact ⟨_, (exec_cluStop n hu).trans (congrArg _ (State.stop_run hr)), hgives _ (State.stopJump_stopped hl _) hw hs⟩
    · have hs : k.state ≠ .idle := fun e => by rw [e] at hr; simp at hr
      have hw := s.abort_within n
      rw [State.abort_playing hr] at hw
      exact ⟨_, (exec_cluAbort n hu).trans (congrArg _ (State.abort_playing hr)), hgives _ (State.stopJump_stopped hl _) hw hs⟩
  · exact ⟨_, (exec_cluStop n hu).trans (congrArg _ (State.stop_start hs)), hframe (State.dropStart_drops 2 (hstart hs))⟩
  · exact ⟨_, (exec_cluAbort n hu).trans (congrArg _ (State.abort_start hs)), hframe (State.dropStart_drops 3 (hstart hs))⟩
  · exact ⟨_, (exec_cluStop n hu).trans (congrArg _ (State.stop_else (.inl hs))), hdropped⟩
  · exact ⟨_, (exec_cluAbort n hu).trans (congrArg _ (State.abort_idle hs)), hdropped⟩
  · exact ⟨_, (exec_cluStop n hu).trans (congrArg _ (State.stop_else (.inr hs))), hdropped⟩
  · obtain ⟨hself, hother, hflag, -⟩ := (s.upto (upTick f)).stopCluster_stopped n 3 f
    have hw := State.stopCluster_within (s.upto (upTick f)) n 3 f
    refine ⟨_, exec_abortPark hu hf hle hj, hself, hother, ?_, hflag hs, (Within.step ((State.upto_within s _).mono (by decide)) hw (by decide))⟩
    rw [hw.clkEq]
    rfl

end Sys2Proof.Machine
end

