-- ==== Sys2Proof/Proofs/JumpRequests.lean ====
section
/-! PROOF. Condition requests: written, discarded, decided, and the target read (R109 to R123, R128). -/
namespace Sys2Proof.Machine

/-! ### Requests that are lost (R111, R112) -/

/-- A number of the cluster's requests was discarded: they are counted, some bits of CLU_JMP_EVT are set, and nothing else but
clusters changes. -/
structure Lost (n : Clu) (m : Nat) (bits : Word) (s t : State) : Prop where
  counter : t.counter (cluA n 0x128) = if m = 0 then s.counter (cluA n 0x128) else min (s.counter (cluA n 0x128) + m) top32
  ctrs : CtrsBut [cluA n 0x128] s t
  flag : t.flag (cluA n 0x118) = s.flag (cluA n 0x118) ||| bits
  flags : FlagsBut [cluA n 0x118] s t
  frame : Within [.flg, .ctr, .clu, .msix] s t

theorem Lost.refl (n : Clu) (s : State) : Lost n 0 0 s s :=
  ⟨rfl, CtrsBut.refl _ s, BitVec.or_zero.symm, FlagsBut.refl _ s, Within.refl _ s⟩

theorem Lost.trans {n : Clu} {m k : Nat} {x y : Word} {s t u : State} (h : Lost n m x s t) (g : Lost n k y t u) :
    Lost n (m + k) (x ||| y) s u := by
  refine ⟨?_, h.ctrs.trans g.ctrs, by rw [g.flag, h.flag, BitVec.or_assoc], h.flags.trans g.flags, h.frame.step g.frame (by decide)⟩
  rw [g.counter, h.counter]
  generalize top32 = top
  split <;> split <;> split <;> omega

theorem State.discard_lost (s : State) (n : Clu) (code : Nat) : Lost n 1 (bit32 code) s (s.discard n code) :=
  ⟨s.discard_counter n code, countSetBit_ctrsBut s _ _ _, s.discard_flag n code, countSetBit_flagsBut s _ _ _, (s.discard_within n code).mono (by decide)⟩

/-- The bits that a list of requests sets that are all discarded for one reason. -/
def lostBits (code : Nat) (l : List Req) : Word := if l = [] then 0 else bit32 code

theorem discards_lost (n : Clu) (code : Nat) (l : List Req) (s : State) :
    Lost n l.length (lostBits code l) s (l.foldl (fun s _ => s.discard n code) s) := by
  induction l generalizing s with
  | nil => exact Lost.refl n s
  | cons r rest ih =>
    have h := (s.discard_lost n code).trans (ih (s.discard n code))
    have hb : bit32 code ||| lostBits code rest = lostBits code (r :: rest) := by
      unfold lostBits
      by_cases hr : rest = []
      · simp [hr]
      · simp [hr]
    rw [hb, Nat.add_comm] at h
    exact h

theorem discards_clu (n : Clu) (code : Nat) (l : List Req) (s : State) : (l.foldl (fun s _ => s.discard n code) s).clu = s.clu :=
  State.foldSame l _ (fun u _ => u.discard_clu n code) s

/-- What only changes clusters counts and flags nothing. -/
theorem Lost.andClu {n : Clu} {m : Nat} {x : Word} {s t u : State} (h : Lost n m x s t) (hw : Within [.clu] t u) : Lost n m x s u :=
  ⟨by rw [hw.counterEq, h.counter], fun a ha => by rw [hw.counterEq, h.ctrs a ha], by rw [hw.flagEq, h.flag],
    fun a ha hp => by rw [hw.flagEq, h.flags a ha hp], h.frame.step hw (by decide)⟩

/-- What the statement says of the requests that are lost. -/
def LostOf (n : Clu) (m : Nat) (bits : Word) (s t : State) : Prop :=
  t.counter (cluA n 0x128) = (if m = 0 then s.counter (cluA n 0x128) else min (s.counter (cluA n 0x128) + m) top32) ∧
    CtrsBut [cluA n 0x128] s t ∧ t.flag (cluA n 0x118) = s.flag (cluA n 0x118) ||| bits ∧ FlagsBut [cluA n 0x118] s t

/-- A change of the clock and of the clusters before the requests are lost counts and flags nothing. -/
theorem Lost.after {n : Clu} {m : Nat} {x : Word} {s t u : State} {l : List Field} (h : Lost n m x t u) (hw : Within l s t)
    (hf : Field.flg ∉ l := by decide) (hc : Field.ctr ∉ l := by decide) :
    LostOf n m x s u := by
  refine ⟨?_, fun a ha => ?_, ?_, fun a ha hp => ?_⟩
  · rw [h.counter, hw.counterEq _ hc]
  · rw [h.ctrs a ha, hw.counterEq _ hc]
  · rw [h.flag, hw.flagEq _ hf]
  · rw [h.flags a ha hp, hw.flagEq _ hf]

/-! ### The requests of one decision (R112) -/

/-- The pending requests of a timestamp, the lowest condition first. -/
def decided (v : Nat) (l : List Req) : List Req := (l.filter (fun r => decide (r.ts = v))).foldl (fun l r => condInsert r l) []

theorem mem_condInsert {r x : Req} {l : List Req} (h : x ∈ condInsert r l) : x = r ∨ x ∈ l := by
  induction l with
  | nil => exact .inl (List.mem_singleton.1 h)
  | cons y l ih =>
    unfold condInsert at h
    split at h
    · exact List.mem_cons.1 h
    · rcases List.mem_cons.1 h with rfl | h
      · exact .inr (List.mem_cons_self ..)
      · exact (ih h).imp_right (List.mem_cons_of_mem y)

theorem mem_foldl_condInsert {x : Req} (l acc : List Req) (h : x ∈ l.foldl (fun l r => condInsert r l) acc) : x ∈ l ∨ x ∈ acc := by
  induction l generalizing acc with
  | nil => exact .inr h
  | cons r l ih =>
    rcases ih _ h with h | h
    · exact .inl (List.mem_cons_of_mem r h)
    · exact (mem_condInsert h).imp_left (fun e => by rw [e]; exact List.mem_cons_self ..)

theorem ts_of_mem_decided {v : Nat} {l : List Req} {r : Req} (h : r ∈ decided v l) : r.ts = v := by
  rcases mem_foldl_condInsert _ _ h with h | h
  · exact of_decide_eq_true (List.mem_filter.1 h).2
  · exact absurd h (List.not_mem_nil)

theorem condInsert_ne_nil (r : Req) (l : List Req) : condInsert r l ≠ [] := by
  cases l with
  | nil => exact List.cons_ne_nil _ _
  | cons x l => unfold condInsert; split <;> exact List.cons_ne_nil _ _

theorem foldl_condInsert_ne_nil (l : List Req) {acc : List Req} (h : acc ≠ []) : l.foldl (fun l r => condInsert r l) acc ≠ [] := by
  induction l generalizing acc with
  | nil => exact h
  | cons r l ih => exact ih (condInsert_ne_nil r acc)

theorem minReq_mem {l : List Req} {v : Nat} (h : minReq l = some v) : ∃ r ∈ l, r.ts = v := by
  induction l generalizing v with
  | nil => exact nomatch h
  | cons r l ih =>
    unfold minReq at h
    cases hm : minReq l with
    | none =>
      rw [hm] at h
      exact ⟨r, List.mem_cons_self .., Option.some.inj h⟩
    | some w =>
      rw [hm] at h
      obtain ⟨x, hx, hw⟩ := ih hm
      obtain rfl := Option.some.inj h
      rcases Nat.le_total r.ts w with hle | hle
      · exact ⟨r, List.mem_cons_self .., (Nat.min_eq_left hle).symm⟩
      · exact ⟨x, List.mem_cons_of_mem r hx, hw.trans (Nat.min_eq_right hle).symm⟩

theorem decided_ne_nil {l : List Req} {v : Nat} (h : minReq l = some v) : decided v l ≠ [] := by
  obtain ⟨r, hr, hv⟩ := minReq_mem h
  unfold decided
  cases hf : l.filter (fun r => decide (r.ts = v)) with
  | nil => exact absurd (decide_eq_true hv) (List.filter_eq_nil_iff.1 hf r hr)
  | cons x rest => exact foldl_condInsert_ne_nil rest (condInsert_ne_nil x [])

/-! ### JMP_FIRE and CONDITION_REQUEST -/

/-- JMP_FIRE puts a request on its way and takes its bit. -/
theorem jmpFire_sends {s : State} {n : Clu} (hu : s.undef = false) : Gives (.jmpFire n) s (fun t =>
    t.clu[n] = { s.clu[n] with arriving :=
      s.clu[n].arriving ++ [{ cond := Fin.ofNat 16 (s.effF (cluA n 0x104) 3 0), ts := s.clk.now, forced := true }] } ∧
    CluBut n s t ∧ Takes (cluA n 0x104) (bit32 4) s t ∧ Within [.cmd, .more, .clu] s t) := by
  refine gives_framed hu (fun t => execJmpFire_within n s) rfl rfl (fun hw => ?_)
  have hc := (CluIs.refl n (s.cmdTake (cluA n 0x104) (bit32 4))).mod (fun k => { k with
    arriving := k.arriving ++ [{ cond := Fin.ofNat 16 (s.effF (cluA n 0x104) 3 0), ts := s.clk.now, forced := true }] })
  exact ⟨hc.1, hc.2, s.cmdTake_takes _ _, hw⟩

/-- What CONDITION_REQUEST leaves at T + 3. -/
theorem exec_conditionRequest_some {s : State} {n : Clu} {c : Fin 16} {r : Req} (hu : s.undef = false)
    (hreq : firstReq c s.clu[n].arriving = some r) : exec (.conditionRequest n c) s = .next (
      if (s.latchRequest n c r).clu[n].state ≠ .run then (s.latchRequest n c r).discard n 1
      else if (s.latchRequest n c r).clu[n].pend.any (fun x => decide (x.cond = c ∧ r.ts ≤ x.ts + 4)) then
        (s.latchRequest n c r).discard n 2
      else
        let late := (s.clu[n].arriving.filter (fun x => decide (x.cond = c ∧ x.ts = r.ts))).any Req.late
        ((s.latchRequest n c r).modClu n (fun k => { k with pend := k.pend ++ [{ r with late := late }] })).ncoEvent n
          { r with late := late }) := by
  rw [exec_conditionRequest, execConditionRequest, guarded_next hu, hreq]
  rfl

theorem State.latchRequest_cluIs (s : State) (n : Clu) (c : Fin 16) (r : Req) : CluIs n
    { s.clu[n] with arriving := s.clu[n].arriving.filter (fun x => !decide (x.cond = c ∧ x.ts = r.ts)) } s (s.latchRequest n c r) :=
  ((CluIs.refl n s).same (u := s.upto (r.ts + 3)) rfl).mod _

theorem State.latchRequest_within (s : State) (n : Clu) (c : Fin 16) (r : Req) : Within [.clk, .clu] s (s.latchRequest n c r) :=
  ((State.upto_within s _).mono (by decide)).step (State.modClu_within _ n _) (by decide)

theorem State.latchRequest_now (s : State) (n : Clu) (c : Fin 16) (r : Req) : (s.latchRequest n c r).clk.now = max s.clk.now (r.ts + 3) := rfl

/-- Without an event action a written request moves no lane. -/
theorem State.ncoEvent_of_off {s : State} {n : Clu} {r : Req} (h : (s.effW (cluA n (0x180 + 4 * r.cond.val))).getLsbD 31 = false) :
    s.ncoEvent n r = s := by
  unfold State.ncoEvent
  exact if_neg (by rw [h]; decide)

theorem firstReq_cond {c : Fin 16} {l : List Req} {r : Req} (h : firstReq c l = some r) : r.cond = c := by
  induction l generalizing r with
  | nil => exact nomatch h
  | cons x l ih =>
    unfold firstReq at h
    cases hf : firstReq c l with
    | none =>
      rw [hf] at h
      dsimp only at h
      by_cases hx : x.cond = c
      · rw [if_pos hx] at h
        exact (Option.some.inj h) ▸ hx
      · rw [if_neg hx] at h
        exact nomatch h
    | some y =>
      rw [hf] at h
      dsimp only at h
      by_cases hx : x.cond = c ∧ x.ts ≤ y.ts
      · rw [if_pos hx] at h
        exact (Option.some.inj h) ▸ hx.1
      · rw [if_neg hx] at h
        exact (Option.some.inj h) ▸ ih hf

/-! ### JUMP_DECISION (R112, R113, R119) -/

/-- The state at T + 8 of the requests that are decided, which are pending no more. -/
def State.takeRequests (s : State) (n : Clu) (v : Nat) : State :=
  (s.upto (v + 8)).modClu n (fun k => { k with pend := k.pend.filter (fun r => decide (r.ts ≠ v)) })

theorem State.takeRequests_clu (s : State) (n : Clu) (v : Nat) :
    CluIs n { s.clu[n] with pend := s.clu[n].pend.filter (fun r => decide (r.ts ≠ v)) } s (s.takeRequests n v) :=
  ((CluIs.refl n s).same (u := s.upto (v + 8)) rfl).mod _

theorem State.takeRequests_within (s : State) (n : Clu) (v : Nat) : Within [.clk, .clu] s (s.takeRequests n v) :=
  ((State.upto_within s _).mono (by decide)).step (State.modClu_within _ n _) (by decide)

theorem exec_jumpDecision {s : State} {n : Clu} {v : Nat} (hu : s.undef = false) (hv : minReq s.clu[n].pend = some v) :
    exec (.jumpDecision n) s = .next (
      if (s.takeRequests n v).clu[n].state ≠ .run then (decided v s.clu[n].pend).foldl (fun s _ => s.discard n 1) (s.takeRequests n v)
      else match decided v s.clu[n].pend with
        | [] => s.takeRequests n v
        | r :: rest => rest.foldl (fun s _ => s.discard n 3) ((s.takeRequests n v).decideReq n r)) := by
  show execJumpDecision n s = _
  rw [execJumpDecision, guarded_next hu, hv]
  rfl

/-- What the requests are decided to: the first goes on, the others are lost to arbitration. -/
theorem exec_jumpDecision_run {s : State} {n : Clu} {v : Nat} {r : Req} {rest : List Req} (hu : s.undef = false)
    (hv : minReq s.clu[n].pend = some v) (hall : decided v s.clu[n].pend = r :: rest) (hrun : s.clu[n].state = .run) :
    exec (.jumpDecision n) s = .next (rest.foldl (fun s _ => s.discard n 3) ((s.takeRequests n v).decideReq n r)) := by
  have hstate : (s.takeRequests n v).clu[n].state = .run := by rw [(s.takeRequests_clu n v).1]; exact hrun
  rw [exec_jumpDecision hu hv, if_neg (not_not.2 hstate), hall]

/-- The pending late fault that a request serves is served (R160). -/
def Req.serves (r : Req) (p : Option LatePend) : Option LatePend := if r.late then p.map (fun l => { l with unserved := false }) else p

theorem State.serveLate_clu {n : Clu} {k : Cluster} {s t : State} (h : CluIs n k s t) (r : Req) :
    CluIs n { k with latePend := r.serves k.latePend } s (t.serveLate n r) := by
  unfold State.serveLate Req.serves
  split
  · exact h.mod (fun k => { k with latePend := k.latePend.map (fun l => { l with unserved := false }) })
  · exact h

/-- Under a scheduled jump the request is shadowed, but serves a late fault all the same. -/
theorem State.decideReq_scheduled {s : State} {n : Clu} {r : Req} (h : s.clu[n].sched.isSome = true) :
    s.decideReq n r = (s.discard n 4).serveLate n r := by
  unfold State.decideReq
  exact if_pos h

theorem State.decideReq_busy {s : State} {n : Clu} {r : Req} (h : s.clu[n].sched = none) (hb : r.ts + 8 < s.clu[n].slotFree) :
    s.decideReq n r = s.discard n 4 := by
  unfold State.decideReq
  exact (if_neg (by rw [h]; decide)).trans (if_pos hb)

theorem State.decideReq_noEntry {s : State} {n : Clu} {r : Req} (h : s.clu[n].sched = none) (hb : s.clu[n].slotFree ≤ r.ts + 8)
    (he : eJtEn s.clu[n].entry = false ∨ jwEn (s.jumpWordAt (r.ts + 8) (eJt s.clu[n].entry) r.cond) = false) :
    s.decideReq n r = s.discard n 5 := by
  unfold State.decideReq
  refine (if_neg (by rw [h]; decide)).trans ((if_neg (by omega)).trans (if_pos ?_))
  rcases he with he | he
  · exact (congrArg (fun b => !b || _) he).trans (Bool.true_or _)
  · exact (congrArg (fun b => _ || !b) he).trans (Bool.or_true _)

/-- The jump that a request schedules (R113). -/
def Req.schedule (r : Req) (w : Word) (latency : Nat) : Sched :=
  { target := jwTarget w, mode := jwMode w, cond := r.cond, ts := r.ts, s := r.ts + latency }

theorem State.decideReq_schedules {s : State} {n : Clu} {r : Req} (h : s.clu[n].sched = none) (hb : s.clu[n].slotFree ≤ r.ts + 8)
    (he : eJtEn s.clu[n].entry = true) (hw : jwEn (s.jumpWordAt (r.ts + 8) (eJt s.clu[n].entry) r.cond) = true) :
    CluIs n { s.clu[n] with
      foreseenAt := s.clk.now, latePend := r.serves s.clu[n].latePend
      sched := some (r.schedule (s.jumpWordAt (r.ts + 8) (eJt s.clu[n].entry) r.cond) (s.latencyOf n)) } s (s.decideReq n r) ∧
    Within [.clu, .plc] s (s.decideReq n r) := by
  have hnow : (s.markNeeded n).latencyOf n = s.latencyOf n := by
    have hmark := s.markNeeded_within n
    unfold State.latencyOf State.hasW State.kOf
    rw [getClu_of_eq (hmark.cluEq (by decide)), hmark.partEq, State.effF_congr (hmark .eff (by decide))]
  have heq : s.decideReq n r = (((s.markNeeded n).modClu n (fun k => { k with
      foreseenAt := s.clk.now
      sched := some (r.schedule (s.jumpWordAt (r.ts + 8) (eJt s.clu[n].entry) r.cond) (s.latencyOf n)) })).serveLate n r).markNeeded n := by
    unfold State.decideReq
    exact (if_neg (by rw [h]; decide)).trans ((if_neg (by omega)).trans (if_neg (by rw [he, hw]; decide)))
  rw [heq]
  have hmark := (CluIs.refl n s).same ((State.markNeeded_within s n).cluEq (by decide))
  constructor
  · exact (State.serveLate_clu (hmark.mod (fun k => { k with
      foreseenAt := s.clk.now
      sched := some (r.schedule (s.jumpWordAt (r.ts + 8) (eJt s.clu[n].entry) r.cond) (s.latencyOf n)) })) r).same
        ((State.markNeeded_within _ n).cluEq (by decide))
  · exact ((((s.markNeeded_within n).mono (by decide)).step (State.modClu_within _ n _) (by decide)).step
      (State.serveLate_within _ n r) (by decide)).step (State.markNeeded_within _ n) (by decide)

/-! ### The decision's outcomes -/

theorem State.jumpWordAt_congr {s t : State} (hw : t.was = s.was) (ht : t.tabs = s.tabs) (k i c : Nat) :
    t.jumpWordAt k i c = s.jumpWordAt k i c := by
  unfold State.jumpWordAt State.oldWordAt State.jumpWord
  rw [hw, ht]

/-- The state before the decision of the first request: the cluster has its pending requests no more, and nothing else but the tick differs. -/
structure Deciding (n : Clu) (v : Nat) (s u : State) : Prop where
  clu : CluIs n { s.clu[n] with pend := s.clu[n].pend.filter (fun r => decide (r.ts ≠ v)) } s u
  frame : Within [.clk, .clu] s u
  now : u.clk.now = max s.clk.now (v + 8)

theorem State.takeRequests_deciding (s : State) (n : Clu) (v : Nat) : Deciding n v s (s.takeRequests n v) :=
  ⟨s.takeRequests_clu n v, s.takeRequests_within n v, rfl⟩

theorem Deciding.word {n : Clu} {v : Nat} {s u : State} (h : Deciding n v s u) (k c : Nat) :
    u.jumpWordAt k (eJt u.clu[n].entry) c = s.jumpWordAt k (eJt s.clu[n].entry) c := by
  rw [h.clu.1, State.jumpWordAt_congr h.frame.wasEq h.frame.tabsEq]

theorem Deciding.latency {n : Clu} {v : Nat} {s u : State} (h : Deciding n v s u) : u.latencyOf n = s.latencyOf n := by
  unfold State.latencyOf State.hasW State.kOf
  rw [h.clu.1, h.frame.partEq, State.effF_congr (h.frame .eff (by decide))]

/-- The end of a decision: after the first request the others are lost to arbitration. -/
theorem Deciding.loses {n : Clu} {v m : Nat} {x : Word} {k : Cluster} {s u w : State} (h : Deciding n v s u) (hc : CluIs n k s w)
    (hl : Lost n m x u w) (rest : List Req) : let t := rest.foldl (fun s _ => s.discard n 3) w
    CluIs n k s t ∧ LostOf n (m + rest.length) (x ||| lostBits 3 rest) s t ∧ Within [.clk, .flg, .ctr, .clu, .msix] s t := by
  have hall := hl.trans (discards_lost n 3 rest w)
  exact ⟨hc.same (discards_clu n 3 rest w), hall.after h.frame, (h.frame.mono (by decide)).step hall.frame (by decide)⟩

/-! ### The statement -/

section
variable {s : State} {n : Clu}

/-- A request that is latched and then discarded. -/
theorem latched_lost {c : Fin 16} {r : Req} (code : Nat) : let t := (s.latchRequest n c r).discard n code
    t.clu[n] = { s.clu[n] with arriving := s.clu[n].arriving.filter (fun x => !decide (x.cond = c ∧ x.ts = r.ts)) } ∧ CluBut n s t ∧
      LostOf n 1 (bit32 code) s t ∧ t.clk.now = max s.clk.now (r.ts + 3) ∧ Within [.clk, .flg, .ctr, .clu, .msix] s t := by
  have hl := (s.latchRequest n c r).discard_lost n code
  have hc := (s.latchRequest_cluIs n c r).same (State.discard_clu _ n code)
  have hw := s.latchRequest_within n c r
  refine ⟨hc.1, hc.2, hl.after hw, ?_, (hw.mono (by decide)).step hl.frame (by decide)⟩
  rw [hl.frame.clkEq, State.latchRequest_now]

/-- CONDITION_REQUEST of a request that is on its way. -/
theorem conditionRequest_latches {c : Fin 16} {r : Req} (hu : s.undef = false) (hreq : firstReq c s.clu[n].arriving = some r) :
    let rest := s.clu[n].arriving.filter (fun x => !decide (x.cond = c ∧ x.ts = r.ts))
    let late := (s.clu[n].arriving.filter (fun x => decide (x.cond = c ∧ x.ts = r.ts))).any Req.late
    let near := s.clu[n].pend.any (fun x => decide (x.cond = c ∧ r.ts ≤ x.ts + 4))
    (s.clu[n].state ≠ .run → Gives (.conditionRequest n c) s (fun t => t.clu[n] = { s.clu[n] with arriving := rest } ∧ CluBut n s t ∧
      LostOf n 1 (bit32 1) s t ∧ t.clk.now = max s.clk.now (r.ts + 3) ∧ Within [.clk, .flg, .ctr, .clu, .msix] s t)) ∧
    (s.clu[n].state = .run → near = true → Gives (.conditionRequest n c) s (fun t => t.clu[n] = { s.clu[n] with arriving := rest } ∧
      CluBut n s t ∧ LostOf n 1 (bit32 2) s t ∧ Within [.clk, .flg, .ctr, .clu, .msix] s t)) ∧
    (s.clu[n].state = .run → near = false → Gives (.conditionRequest n c) s (fun t =>
      t.clu[n] = { s.clu[n] with arriving := rest, pend := s.clu[n].pend ++ [{ r with late := late }] } ∧ CluBut n s t ∧
      ((s.effW (cluA n (0x180 + 4 * c.val))).getLsbD 31 = false → Within [.clk, .clu] s t) ∧ Within [.clk, .clu, .wl] s t)) := by
  intro rest late near
  have hx := exec_conditionRequest_some hu hreq
  have hc := s.latchRequest_cluIs n c r
  have hw := s.latchRequest_within n c r
  have hstate : (s.latchRequest n c r).clu[n].state = s.clu[n].state := by rw [hc.1]
  have hnear : (s.latchRequest n c r).clu[n].pend.any (fun x => decide (x.cond = c ∧ r.ts ≤ x.ts + 4)) = near := by rw [hc.1]
  rw [hstate, hnear] at hx
  refine ⟨fun hs => ?_, fun hs hn => ?_, fun hs hn => ?_⟩
  · rw [if_pos hs] at hx
    exact ⟨_, hx, latched_lost 1⟩
  · rw [if_neg (not_not.2 hs), if_pos hn] at hx
    obtain ⟨h1, h2, h3, -, h5⟩ := latched_lost (s := s) (n := n) (c := c) (r := r) 2
    exact ⟨_, hx, h1, h2, h3, h5⟩
  · rw [if_neg (not_not.2 hs), if_neg (by rw [hn]; decide)] at hx
    have hpend := hc.mod (fun k => { k with pend := k.pend ++ [{ r with late := late }] })
    have hpw := hw.step (State.modClu_within _ n (fun k => { k with pend := k.pend ++ [{ r with late := late }] })) (by decide)
    refine ⟨_, hx, ?_, ?_, fun hoff => ?_, ?_⟩
    · exact (hpend.same ((State.ncoEvent_within _ n _).cluEq (by decide))).1
    · exact (hpend.same ((State.ncoEvent_within _ n _).cluEq (by decide))).2
    · refine (State.ncoEvent_of_off ?_) ▸ hpw
      rw [State.effW_congr (hpw .eff (by decide)), ← hoff, ← firstReq_cond hreq]
    · exact (hpw.mono (by decide)).step (State.ncoEvent_within _ n _) (by decide)

/-- JUMP_DECISION in RUN: what the first request's decision leaves, with the others lost to arbitration. -/
theorem jumpDecision_first {v m : Nat} {r : Req} {rest : List Req} {x : Word} {k : Cluster} (hu : s.undef = false)
    (hv : minReq s.clu[n].pend = some v) (hall : decided v s.clu[n].pend = r :: rest) (hrun : s.clu[n].state = .run)
    (hc : CluIs n k s ((s.takeRequests n v).decideReq n r)) (hl : Lost n m x (s.takeRequests n v) ((s.takeRequests n v).decideReq n r)) :
    Gives (.jumpDecision n) s (fun t => t.clu[n] = k ∧ CluBut n s t ∧ LostOf n (m + rest.length) (x ||| lostBits 3 rest) s t ∧
      Within [.clk, .flg, .ctr, .clu, .msix] s t) := by
  obtain ⟨h1, h2, h3⟩ := (s.takeRequests_deciding n v).loses hc hl rest
  exact ⟨_, exec_jumpDecision_run hu hv hall hrun, h1.1, h1.2, h2, h3⟩

/-- The cluster without the requests that are decided. -/
def State.leftPending (s : State) (n : Clu) (v : Nat) : Cluster :=
  { s.clu[n] with pend := s.clu[n].pend.filter (fun r => decide (r.ts ≠ v)) }

/-- A first request under a scheduled jump. -/
theorem jumpDecision_shadowed {v : Nat} {r : Req} {rest : List Req} (hu : s.undef = false) (hv : minReq s.clu[n].pend = some v)
    (hall : decided v s.clu[n].pend = r :: rest) (hrun : s.clu[n].state = .run) (hj : s.clu[n].sched.isSome = true) :
    Gives (.jumpDecision n) s (fun t => t.clu[n] = { s.leftPending n v with latePend := r.serves s.clu[n].latePend } ∧ CluBut n s t ∧
      LostOf n (1 + rest.length) (bit32 4 ||| lostBits 3 rest) s t ∧ Within [.clk, .flg, .ctr, .clu, .msix] s t) := by
  have hc := s.takeRequests_clu n v
  have hd : (s.takeRequests n v).decideReq n r = ((s.takeRequests n v).discard n 4).serveLate n r :=
    State.decideReq_scheduled (by rw [hc.1]; exact hj)
  refine jumpDecision_first hu hv hall hrun ?_ ?_ <;> rw [hd]
  · exact State.serveLate_clu (hc.same (State.discard_clu _ n 4)) r
  · exact (State.discard_lost _ n 4).andClu (State.serveLate_within _ n r)

/-- A first request that is discarded with a code. -/
theorem jumpDecision_discarded {v code : Nat} {r : Req} {rest : List Req} (hu : s.undef = false) (hv : minReq s.clu[n].pend = some v)
    (hall : decided v s.clu[n].pend = r :: rest) (hrun : s.clu[n].state = .run)
    (hd : (s.takeRequests n v).decideReq n r = (s.takeRequests n v).discard n code) :
    Gives (.jumpDecision n) s (fun t => t.clu[n] = s.leftPending n v ∧ CluBut n s t ∧
      LostOf n (1 + rest.length) (bit32 code ||| lostBits 3 rest) s t ∧ Within [.clk, .flg, .ctr, .clu, .msix] s t) := by
  refine jumpDecision_first hu hv hall hrun ?_ ?_ <;> rw [hd]
  · exact (s.takeRequests_clu n v).same (State.discard_clu _ n code)
  · exact State.discard_lost _ n code

/-- A first request that schedules its target. -/
theorem jumpDecision_schedules {v : Nat} {r : Req} {rest : List Req} (hu : s.undef = false) (hv : minReq s.clu[n].pend = some v)
    (hall : decided v s.clu[n].pend = r :: rest) (hrun : s.clu[n].state = .run) (hj : s.clu[n].sched = none)
    (hb : s.clu[n].slotFree ≤ v + 8) (he : eJtEn s.clu[n].entry = true)
    (hw : jwEn (s.jumpWordAt (v + 8) (eJt s.clu[n].entry) r.cond) = true) :
    Gives (.jumpDecision n) s (fun t => t.clu[n] = { s.leftPending n v with
        foreseenAt := max s.clk.now (v + 8), latePend := r.serves s.clu[n].latePend
        sched := some (r.schedule (s.jumpWordAt (v + 8) (eJt s.clu[n].entry) r.cond) (s.latencyOf n)) } ∧ CluBut n s t ∧
      LostOf n rest.length (lostBits 3 rest) s t ∧ t.clk.now = max s.clk.now (v + 8) ∧
      Within [.clk, .flg, .ctr, .clu, .msix, .plc] s t) := by
  have hts : r.ts = v := ts_of_mem_decided (hall ▸ List.mem_cons_self ..)
  have hd := s.takeRequests_deciding n v
  have hc := hd.clu
  obtain ⟨hclu, hframe⟩ := State.decideReq_schedules (s := s.takeRequests n v) (n := n) (r := r) (by rw [hc.1]; exact hj)
    (by rw [hc.1, hts]; exact hb) (by rw [hc.1]; exact he) (by rw [hd.word, hts]; exact hw)
  rw [hd.word, hd.latency, hts, hd.now, hc.1] at hclu
  have hx := exec_jumpDecision_run hu hv hall hrun
  generalize (s.takeRequests n v).decideReq n r = w at hclu hframe hx
  have hlost := discards_lost n 3 rest w
  have hsame := hclu.same (discards_clu n 3 rest w)
  have hall := (hd.frame.mono (m := [.clk, .clu]) (l := [.clk, .clu, .plc]) (by decide)).step hframe (by decide)
  refine ⟨_, hx, hsame.1, fun m hm => (hsame.2 m hm).trans (hc.2 m hm), hlost.after hall, ?_,
    (hall.mono (by decide)).step hlost.frame (by decide)⟩
  rw [hlost.frame.clkEq, hframe.clkEq, hd.now]

end

theorem jumpTargetRead_reads {s : State} {n : Clu} {j : Sched} (hu : s.undef = false) (hj : s.clu[n].sched = some j) (hr : j.read = none) :
    exec (.jumpTargetRead n) s = .next ((s.upto (j.ts + 12)).modClu n (fun k =>
      { k with sched := some { j with read := some (s.readTarget n (j.ts + 12) j.target.toNat), age := 0 } })) := by
  show execJumpTargetRead n s = _
  rw [execJumpTargetRead, guarded_next hu, hj]
  exact congrArg Host.Outcome.next (if_neg (by rw [hr]; decide))

/-- Settles O28: each request is lost with its bit and count, or goes on; the state of the decision differs from the one before in the tick alone. -/
theorem jumpRequests : Obligations.JumpRequests := by
  unfold Obligations.JumpRequests
  intro s n hu k dis evt lost
  refine ⟨jmpFire_sends hu, fun c r hreq => conditionRequest_latches hu hreq, fun v hv => ?_, fun j hj hr => ?_⟩
  · intro all left served arb
    refine ⟨fun hs => ?_, fun r rest hall hrun => ?_⟩
    · have hx := exec_jumpDecision hu hv
      have hd := s.takeRequests_deciding n v
      have hl := discards_lost n 1 all (s.takeRequests n v)
      have hc := hd.clu.same (discards_clu n 1 all (s.takeRequests n v))
      rw [if_pos (by rw [hd.clu.1]; exact hs)] at hx
      have hbits : lostBits 1 all = bit32 1 := if_neg (decided_ne_nil hv)
      rw [hbits] at hl
      exact ⟨_, hx, hc.1, hc.2, hl.after hd.frame, (hd.frame.mono (by decide)).step hl.frame (by decide)⟩
    · intro w
      have hts : r.ts = v := ts_of_mem_decided (hall ▸ List.mem_cons_self ..)
      have hd := s.takeRequests_deciding n v
      refine ⟨jumpDecision_shadowed hu hv hall hrun, fun hj hb => ?_, fun hj hb he => ?_, fun hj hb he hw => ?_⟩
      · exact jumpDecision_discarded hu hv hall hrun (State.decideReq_busy (by rw [hd.clu.1]; exact hj) (by rw [hd.clu.1, hts]; exact hb))
      · exact jumpDecision_discarded hu hv hall hrun (State.decideReq_noEntry (by rw [hd.clu.1]; exact hj)
          (by rw [hd.clu.1, hts]; exact hb) (by rw [hd.word, hts, hd.clu.1]; exact he))
      · exact jumpDecision_schedules hu hv hall hrun hj hb he hw
  · have hc := ((CluIs.refl n s).same (u := s.upto (j.ts + 12)) rfl).mod (fun k =>
      { k with sched := some { j with read := some (s.readTarget n (j.ts + 12) j.target.toNat), age := 0 } })
    exact ⟨_, jumpTargetRead_reads hu hj hr, hc.1, hc.2, rfl,
      ((State.upto_within s _).mono (by decide)).step (State.modClu_within _ n _) (by decide)⟩

end Sys2Proof.Machine
end

