-- ==== Sys2Proof/Proofs/ClusterResets.lean ====
section
/-! PROOF. CLUSTER_RESET and the park that ends its play-out (R62, R104, R121, R130, R447). -/
namespace Sys2Proof.Machine

/-! ### CLUSTER_RESET -/

/-- A held START of the cluster is no longer held, whether there was one or not. -/
theorem State.dropHeldStart_pwr (s : State) (n : Clu) :
    (s.dropHeldStart n).pwr = { s.pwr with held := s.pwr.held.filter (fun i => decide (i ≠ Instr.cluStart n)) } := by
  unfold State.dropHeldStart
  by_cases h : s.pwr.held.contains (Instr.cluStart n) = true
  · rw [if_pos h]
    rfl
  · rw [if_neg h]
    have hno : s.pwr.held.filter (fun i => decide (i ≠ Instr.cluStart n)) = s.pwr.held :=
      List.filter_eq_self.2 fun i hi => decide_eq_true fun e => h (List.contains_iff_mem.2 (e ▸ hi))
    rw [hno]

/-- A cluster as a per-cluster reset leaves it, but for the Hosted object (R447). -/
def Cluster.resetAt (k : Cluster) (played : Bool) (park : Nat) : Cluster :=
  { k with
    state := .idle, stopReason := 5, stack := [], outStack := if played then k.stack else k.outStack, arriving := [], pend := []
    abortAt := none, latePend := none, lead := none, starts := {}, resetPark := if played then some park else k.resetPark }

/-- The cluster was playing. -/
def Cluster.played (k : Cluster) : Bool := decide (k.state = .run ∨ k.state = .stopping)

/-- The state before the reset cluster enters IDLE. -/
def State.resetQuiet (s : State) (n : Clu) : State :=
  let c := (s.dropHeldStart n).cancelJump n true
  let m := c.modClu n (fun k => k.resetAt s.clu[n].played (c.clk.now + c.leadOf n))
  { m with ctr := (cluCtrs n).foldl smErase m.ctr }

theorem State.clusterReset_eq (s : State) (n : Clu) :
    s.clusterReset n = ((s.resetQuiet n).idleEffects n).setBitIf (decide (s.clu[n].state ≠ .idle)) (cluA n 0x40) 1 := rfl

theorem State.resetQuiet_clu (s : State) (n : Clu) :
    ∃ k : Cluster, CluIs n (k.resetAt s.clu[n].played (s.clk.now + s.leadOf n)) s (s.resetQuiet n) := by
  have hdrop := s.dropHeldStart_within n
  have hsame := getClu_of_eq (hdrop.cluEq (by decide))
  have hlead : ((s.dropHeldStart n).cancelJump n true).leadOf n = s.leadOf n :=
    (State.cancelJump_soft_lead _ n).trans (State.leadOf_congr (by rw [hsame]) (hdrop .eff (by decide)) hdrop.partEq)
  have hnow : ((s.dropHeldStart n).cancelJump n true).clk.now = s.clk.now := by rw [(State.cancelJump_within _ n true).clkEq, hdrop.clkEq]
  have hmod := ((State.cancelJump_soft_clu (s.dropHeldStart n) n).mod (fun k => k.resetAt s.clu[n].played (s.clk.now + s.leadOf n)))
  refine ⟨(s.dropHeldStart n).stopLeft n, ?_⟩
  unfold State.resetQuiet
  dsimp only
  rw [hlead, hnow]
  exact ⟨hmod.1, fun m hm => (hmod.2 m hm).trans (hsame m)⟩

theorem State.resetQuiet_ctr (s : State) (n : Clu) {a : Nat} (ha : a ∈ cluCtrs n) : (s.resetQuiet n).counter a = 0 := by
  unfold State.resetQuiet State.counter
  dsimp only
  rw [smGet_foldl_erase, if_pos ha]

/-- The counters that a per-cluster reset restarts are the cluster's own. -/
theorem cluCtrs_own {n : Clu} {a : Nat} (ha : a ∈ cluCtrs n) : 0x100000 ≤ a ∧ a < 0x200000 := by
  simp only [cluCtrs, List.map_cons, List.map_nil, List.mem_cons, List.not_mem_nil, or_false, cluA] at ha
  omega

/-- CLUSTER_RESET leaves its cluster IDLE and empty, and its released data plays on. -/
theorem clusterReset_resets {s : State} {n : Clu} (hu : s.undef = false) : Gives (.clusterReset n) s (fun t =>
    t.clu[n].state = .idle ∧ t.clu[n].stopReason = 5 ∧ t.clu[n].stack = [] ∧ t.clu[n].arriving = [] ∧ t.clu[n].pend = [] ∧
    t.clu[n].latePend = none ∧ t.clu[n].abortAt = none ∧ t.clu[n].starts.val = 0 ∧
    (s.clu[n].state = .run ∨ s.clu[n].state = .stopping → t.clu[n].resetPark = some (s.clk.now + s.leadOf n)) ∧
    (∀ a ∈ cluCtrs n, t.counter a = 0) ∧
    (s.clu[n].state ≠ .idle → (t.flag (cluA n 0x40)).getLsbD 1 = true) ∧
    t.ovl.queue = s.ovl.queue.filter (fun k => decide (s.ovl.applying = some k)) ∧
    t.pwr = { s.pwr with held := s.pwr.held.filter (fun i => decide (i ≠ Instr.cluStart n)) } ∧
    CluBut n s t ∧ Within [.pwr, .ovl, .eff, .flg, .ctr, .cmd, .more, .tabs, .clu, .wl, .gov, .pg, .host, .msix, .plc] s t) := by
  obtain ⟨k, hquiet, hother⟩ := s.resetQuiet_clu n
  obtain ⟨hidle, hidles⟩ := State.idleEffects_clu (s.resetQuiet n) n
  rw [hquiet] at hidle
  have hbit := State.setBitIf_within ((s.resetQuiet n).idleEffects n) (decide (s.clu[n].state ≠ .idle)) (cluA n 0x40) 1
  have hrest : Within [.ovl, .cmd, .more] (s.clusterReset n) ((s.clusterReset n).dropPending.cmdTake (clkA 0x10) (bit32 n)) :=
    (State.dropPending_within _).seq (State.cmdTake_within _ _ _)
  have hreset := s.clusterReset_within n
  have hclu : ((s.clusterReset n).dropPending.cmdTake (clkA 0x10) (bit32 n)).clu = ((s.resetQuiet n).idleEffects n).clu := by
    rw [hrest.cluEq (by decide), State.clusterReset_eq, hbit.cluEq (by decide)]
  have hpwr : (s.clusterReset n).pwr = (s.dropHeldStart n).pwr := by
    rw [State.clusterReset_eq, hbit.pwrEq, (State.idleEffects_within _ n).pwrEq]
    exact (State.cancelJump_within (s.dropHeldStart n) n true).pwrEq
  refine gives_next hu rfl ?_
  have hself : ((s.clusterReset n).dropPending.cmdTake (clkA 0x10) (bit32 n)).clu[n] =
      { k.resetAt s.clu[n].played (s.clk.now + s.leadOf n) with hosted := none } := by rw [getClu_of_eq hclu, hidle]
  rw [hself]
  refine ⟨rfl, rfl, rfl, rfl, rfl, rfl, rfl, rfl, fun hp => if_pos (decide_eq_true hp), fun a ha => ?_, fun hs => ?_, ?_, ?_, fun m hm => ?_,
    (hreset.mono (by decide)).step hrest (by decide)⟩
  · obtain ⟨lo, hi⟩ := cluCtrs_own ha
    rw [hrest.counterEq, State.clusterReset_eq, hbit.counterEq, CluCounts.idleEffects _ n a lo hi, s.resetQuiet_ctr n ha]
  · rw [hrest.flagEq, State.clusterReset_eq]
    exact State.flagBit_setBitIf _ (decide_eq_true hs) (cluA_not_mem_pendWords n _) (by decide)
  · rw [← hreset.ovlEq]
    rfl
  · rw [hrest.pwrEq, hpwr, State.dropHeldStart_pwr]
  · rw [getClu_of_eq hclu, hidles m hm, hother m hm]

/-! ### The end of the play-out -/

theorem PinPlays.cutGroup (s : State) (g : Pg) (k : Nat) (f : Nat → Bool) : PinPlays g s (s.cutGroup g k f) := by
  unfold State.cutGroup
  exact ((PinPlays.fold (fun u j => PinPlays.modPin u g j _) _ s).trans (PinPlays.modPg _ g _)).trans (PinPlays.closeVectors _ g)

/-- The groups, and the pins of groups, that a cluster does not bind are as they were. -/
structure UnboundKept (n : Clu) (s t : State) : Prop where
  clu : t.clu = s.clu
  pg : ∀ g : Pg, s.clu[n].pgBound.getLsbD g = false → t.pg[g] = s.pg[g]
  pins : ∀ q : PinIdx, s.clu[n].pgBound.getLsbD (q.val / 16) = false → t.pin[q] = s.pin[q]

theorem UnboundKept.refl (n : Clu) (s : State) : UnboundKept n s s := ⟨rfl, fun _ _ => rfl, fun _ _ => rfl⟩

theorem UnboundKept.trans {n : Clu} {s t u : State} (h : UnboundKept n s t) (k : UnboundKept n t u) : UnboundKept n s u :=
  ⟨k.clu.trans h.clu, fun g hg => (k.pg g (by rw [h.clu]; exact hg)).trans (h.pg g hg),
    fun q hq => (k.pins q (by rw [h.clu]; exact hq)).trans (h.pins q hq)⟩

/-- What moves one bound group moves no other group. -/
theorem UnboundKept.of_plays {n : Clu} {g : Pg} {s t : State} (hb : s.clu[n].pgBound.getLsbD g = true) (h : PinPlays g s t)
    (hc : t.clu = s.clu) : UnboundKept n s t := by
  refine ⟨hc, fun d hd => h.pg d fun e => ?_, fun q hq => h.pins q fun e => ?_⟩
  · rw [e, hb] at hd
    exact Bool.false_ne_true hd.symm
  · rw [e, hb] at hq
    exact Bool.false_ne_true hq.symm

/-- A fold over the bound groups that moves in each step the group that it meets. -/
theorem UnboundKept.foldGroups {n : Clu} {f : State → Pg → State} (hf : ∀ u g, PinPlays g u (f u g)) (hc : ∀ u g, (f u g).clu = u.clu)
    (s : State) (l : List Pg) (hl : ∀ g ∈ l, s.clu[n].pgBound.getLsbD g = true) : UnboundKept n s (l.foldl f s) := by
  induction l generalizing s with
  | nil => exact UnboundKept.refl n s
  | cons g r ih =>
    refine (UnboundKept.of_plays (hl g (List.mem_cons_self ..)) (hf s g) (hc s g)).trans (ih (f s g) fun d hd => ?_)
    rw [hc]
    exact hl d (List.mem_cons_of_mem g hd)

theorem State.groupsOf_bound {s : State} {n : Clu} {g : Pg} (h : g ∈ s.groupsOf n) : s.clu[n].pgBound.getLsbD g = true :=
  (List.mem_filter.1 h).2

theorem UnboundKept.cutGroups (s : State) (n : Clu) (k : Nat) : UnboundKept n s (s.cutGroups n k) :=
  UnboundKept.foldGroups (fun u g => PinPlays.ite (PinPlays.cutGroup u g k _) (PinPlays.refl g u))
    (fun u g => by split <;> [exact (State.cutGroup_within u g k _).cluEq (by decide); rfl]) s _ fun _ h => State.groupsOf_bound h

theorem UnboundKept.parkGroups (s : State) (n : Clu) (k : Nat) : UnboundKept n s (s.parkGroups n k) := by
  refine UnboundKept.foldGroups (fun u g => (PinPlays.cutGroup u g k _).trans (PinPlays.fold (fun v j => PinPlays.parkPin v g j k) _ _))
    (fun u g => ?_) s _ fun _ h => State.groupsOf_bound h
  rw [State.foldSame _ _ (fun v j => (State.parkPin_within v g j k).cluEq (by decide)), (State.cutGroup_within u g k _).cluEq (by decide)]

/-- The groups and pins of a state are those of another. -/
theorem UnboundKept.same {n : Clu} {s t u : State} (h : UnboundKept n s t) (hc : u.clu = t.clu) (hg : u.pg = t.pg) (hp : u.pin = t.pin) :
    UnboundKept n s u :=
  ⟨hc.trans h.clu, fun g hb => by rw [hg]; exact h.pg g hb, fun q hb => by rw [hp]; exact h.pins q hb⟩

/-- Every group and pin of the cluster parks, before the jump that is still scheduled is cancelled. -/
def State.playOutParked (s : State) (n : Clu) (k : Nat) : State := (s.cutGroups n k).parkGroups n k

theorem State.playOutParked_kept (s : State) (n : Clu) (k : Nat) : UnboundKept n s (s.playOutParked n k) :=
  (UnboundKept.cutGroups s n k).trans (UnboundKept.parkGroups _ n k)

/-- The groups of the cluster forget the timing sets that the play-out read. -/
def State.forgetSets (s : State) (n : Clu) : State :=
  (s.groupsOf n).foldl (fun s g => s.modPg g (fun p => { p with setsWas := [] })) s

theorem State.forgetSets_within (s : State) (n : Clu) : Within [.pg] s (s.forgetSets n) :=
  (Within.refl _ s).fold fun u g h => h.step (State.modPg_within u g _) (by decide)

theorem State.endPlayOut_eq (s : State) (n : Clu) (k : Nat) : s.endPlayOut n k =
    (((s.playOutParked n k).cancelJump n false).forgetSets n).modClu n (fun k =>
      { k with resetPark := none, outStack := [], parked := k.parked && decide (k.state ≠ .lead) }) := rfl

/-- What the end of a play-out leaves. -/
structure PlayedOut (n : Clu) (s t : State) : Prop where
  own : t.clu[n].state = s.clu[n].state ∧ t.clu[n].resetPark = none ∧ t.clu[n].outStack = [] ∧ t.clu[n].sched = none ∧
    t.clu[n].stack = s.clu[n].stack ∧ t.clu[n].pend = s.clu[n].pend ∧ t.clu[n].arriving = s.clu[n].arriving
  cancels : s.clu[n].sched.isSome = true → (t.flag (cluA n 0x118)).getLsbD 8 = true ∧
    t.counter (cluA n 0x12C) = min (s.counter (cluA n 0x12C) + 1) top32
  other : CluBut n s t
  pg : ∀ g : Pg, s.clu[n].pgBound.getLsbD g = false → t.pg[g] = s.pg[g]
  pins : ∀ q : PinIdx, s.clu[n].pgBound.getLsbD (q.val / 16) = false → t.pin[q] = s.pin[q]

theorem State.endPlayOut_playedOut (s : State) (n : Clu) (k : Nat) : PlayedOut n s (s.endPlayOut n k) := by
  rw [State.endPlayOut_eq]
  have hkept := s.playOutParked_kept n k
  have hcounts : CluCounts s (s.playOutParked n k) := (CluCounts.cutGroups s n k).trans (CluCounts.parkGroups _ n k)
  obtain ⟨l, f, hself, hother⟩ := (s.playOutParked n k).cancelJump_clu n
  have hcancel := (s.playOutParked n k).cancelJump_within n false
  have hcount := (s.playOutParked n k).cancelJump_counter n
  have hbit : s.clu[n].sched.isSome = true → (((s.playOutParked n k).cancelJump n false).flag (cluA n 0x118)).getLsbD 8 = true := fun hs => by
    rw [← hkept.clu] at hs
    obtain ⟨j, hj⟩ := Option.isSome_iff_exists.1 hs
    have hdrops : (s.playOutParked n k).cancelJump n false = (s.playOutParked n k).dropJump n := by
      unfold State.cancelJump
      rw [hj]
      rfl
    rw [hdrops, State.dropJump_flag]
    exact (BitVec.getLsbD_or ..).trans (by rw [bit32_self (by decide), Bool.or_true])
  generalize s.playOutParked n k = p at *
  generalize p.cancelJump n false = c at *
  have hforget := c.forgetSets_within n
  have hsets : UnboundKept n c (c.forgetSets n) :=
    UnboundKept.foldGroups (fun u g => PinPlays.modPg u g _) (fun _ _ => rfl) c _ fun _ h => State.groupsOf_bound h
  generalize c.forgetSets n = d at *
  have hclu := hforget.cluEq (by decide)
  rw [hkept.clu] at hself hcount
  have hbound : c.clu[n].pgBound = s.clu[n].pgBound := by rw [hself]
  refine ⟨?_, fun hs => ⟨?_, ?_⟩, fun m hm => ?_, fun g hg => ?_, fun q hq => ?_⟩
  · rw [State.modClu_self, hclu, hself]
    exact ⟨rfl, rfl, rfl, rfl, rfl, rfl, rfl⟩
  · rw [flag_of_flg_eq (State.modClu_flg _ n _), hforget.flagEq]
    exact hbit hs
  · rw [counter_of_ctr_eq (State.modClu_ctr _ n _), hforget.counterEq, hcount, if_pos hs,
      hcounts _ (by unfold cluA; omega) (by unfold cluA; omega)]
  · rw [State.modClu_other _ _ _ hm, hclu, hother m hm, hkept.clu]
  · rw [State.modClu_pg, hsets.pg g (by rw [hbound]; exact hg), hcancel.pgEq, hkept.pg g hg]
  · rw [State.modClu_pin, hsets.pins q (by rw [hbound]; exact hq), hcancel.pinEq, hkept.pins q hq]

theorem exec_clusterResetPark {s : State} {n : Clu} {p : Nat} (hu : s.undef = false) (hp : s.clu[n].resetPark = some p) :
    exec (.clusterResetPark n) s = .next ((s.upto p).endPlayOut n (p * 1024)) := by
  show execClusterResetPark n s = _
  rw [execClusterResetPark, guarded_next hu, hp]

/-- Settles O12: the reset is an entry into IDLE after its counters restart; the park moves only the groups that the cluster binds. -/
theorem clusterResets : Obligations.ClusterResets := by
  unfold Obligations.ClusterResets
  refine fun s n hu => ⟨clusterReset_resets hu, fun p hp => ?_⟩
  have hx := exec_clusterResetPark hu hp
  have hw := execClusterResetPark_within n s hx
  obtain ⟨⟨h1, h2, h3, h4, h5, h6, h7⟩, hcancels, hother, hpg, hpins⟩ := (s.upto p).endPlayOut_playedOut n (p * 1024)
  have hnow : ((s.upto p).endPlayOut n (p * 1024)).clk = (s.upto p).clk := (State.endPlayOut_within _ n _).clkEq
  exact ⟨_, hx, h1, h2, h3, h4, h5, h6, h7, hcancels, congrArg Clock.now hnow, hother, hpg, hpins, hw⟩

end Sys2Proof.Machine
end

