-- ==== Sys2Proof/Proofs/Unconfigured.lean ====
section
/-! PROOF. What a device that loses its base is left with (R41, R46, R47). -/
namespace Sys2Proof.Machine

/-! ### Its stages -/

/-- The outputs fall silent and the clocks that APPLY started stop. -/
def State.outputsOff (s : State) : State := s.validateDrop.lanesReset.pinsOff.lvlsPowerOn.linesOff.clocksOff

/-- A cluster that is IDLE and bound to nothing. -/
def Cluster.unbound (k : Cluster) : Cluster :=
  { k with state := .idle, wBound := 0, pgBound := 0, stack := [], outStack := [], arriving := [], pend := [], sched := none
           latePend := none, lateRecs := [], hosted := none, abortAt := none, resetPark := none, lead := none }

def State.clusUnbound (s : State) : State := (allFin 8).foldl (fun s n => s.modClu n Cluster.unbound) s

/-- Tables, overlays, placement and staged copies are gone. -/
def State.tablesGone (s : State) : State :=
  let ovl : Overlay := { resSlot := s.ovl.resSlot, resCode := s.ovl.resCode, resSection := s.ovl.resSection, applies := s.ovl.applies }
  { s with tabs := {}, was := {}, ovl := ovl, plc := {}, mem := { s.mem with slots := [] } }

/-- No group has a fail-log ring. -/
def State.ringsGone (s : State) : State := (allFin 4).foldl (fun s g => s.modPg g (fun p => { p with ring := [], flSize := 0 })) s

/-- No clock plan, no power policy and no image is in force. -/
def State.imageGone (s : State) : State :=
  ((s.modClk (fun c => { c with plan := 0 })).modPwr (fun p => { p with quietSr := false })).modImg (fun i => { i with
    state := .unconfigured, loadedSrc := 0, fallbackUsed := false, verified := false, version := 0, secCount := 0
    compat := 0, baseId := 0, buf := [], flash := none })

/-- The DRAM controller is laid out no more. -/
def State.dramGone (s : State) : State :=
  { s with dram := { s.dram with configured := false, part := 0, training := .none, ready := false
                                 selfRefresh := false, retrainWait := false, inFlight := [], waiting := []
                                 chans := Vector.ofFn (fun g : Chan => { draws := s.dram.chans[g].draws }) } }

theorem State.unconfigure_eq (s : State) : s.unconfigure =
    ((((((s.outputsOff.clusUnbound).resetWords inMatrix).tablesGone).ringsGone).imageGone).dramGone).ctxsClose.linkReset := rfl

theorem State.outputsOff_within (s : State) :
    Within [.clk, .ovl, .trg, .cfg, .eff, .flg, .cmd, .more, .wl, .gov, .pg, .pin, .lvl, .lg, .mon, .brg, .msix] s s.outputsOff :=
  ((((((s.validateDrop_within).mono (by decide)).step (State.lanesReset_within _) (by decide)).step (State.pinsOff_within _) (by decide)).step
    (State.lvlsPowerOn_within _) (by decide)).step (State.linesOff_within _) (by decide)).step (State.clocksOff_within _) (by decide)

theorem State.clusUnbound_within (s : State) : Within [.clu] s s.clusUnbound :=
  (Within.refl _ s).fold fun u n h => h.step (State.modClu_within u n _) (by decide)

theorem State.tablesGone_within (s : State) : Within [.tabs, .was, .ovl, .plc, .mem] s s.tablesGone :=
  (((((Within.set_tabs s {}).mono (by decide)).step (Within.set_was _ {}) (by decide)).step (Within.set_ovl _ _) (by decide)).step
    (Within.set_plc _ {}) (by decide)).step (m := [.mem]) (Within.set_mem _ { s.mem with slots := [] } rfl) (by decide)

theorem State.ringsGone_within (s : State) : Within [.pg] s s.ringsGone :=
  (Within.refl _ s).fold fun u g h => h.step (State.modPg_within u g _) (by decide)

theorem State.imageGone_within (s : State) : Within [.clk, .pwr, .img] s s.imageGone :=
  (((State.modClk_within s _).mono (by decide)).step (State.modPwr_within _ _) (by decide)).step (State.modImg_within _ _) (by decide)

theorem State.dramGone_within (s : State) : Within [.dram] s s.dramGone := Within.set_dram _ _ rfl rfl

/-- What comes after the clusters are unbound. -/
theorem State.unconfigure_rest (s : State) : Within [.cfg, .eff, .tabs, .was, .ovl, .plc, .mem, .pg, .clk, .pwr, .img, .dram, .host, .flg,
    .ctr, .link, .msix] s.outputsOff.clusUnbound s.unconfigure := by
  rw [State.unconfigure_eq]
  exact ((((((((State.resetWords_within _ inMatrix).mono (by decide)).step (State.tablesGone_within _) (by decide)).step
    (State.ringsGone_within _) (by decide)).step (State.imageGone_within _) (by decide)).step (State.dramGone_within _) (by decide)).step
    (State.ctxsClose_within _) (by decide)).step (State.linkReset_within _) (by decide))

/-- The words and tables of the device without a base. -/
def State.wordsGone (s : State) : State := ((s.outputsOff.clusUnbound).resetWords inMatrix).tablesGone

/-- What comes after its words and tables are gone. -/
theorem State.unconfigure_tail (s : State) : Within [.pg, .clk, .pwr, .img, .dram, .host, .flg, .ctr, .link, .msix] s.wordsGone s.unconfigure := by
  rw [State.unconfigure_eq]
  exact (((((State.ringsGone_within _).mono (by decide)).step (State.imageGone_within _) (by decide)).step (State.dramGone_within _)
    (by decide)).step (State.ctxsClose_within _) (by decide)).step (State.linkReset_within _) (by decide)

/-! ### Clock, image, DRAM -/

theorem State.clocksOff_clk (s : State) : s.clocksOff.clk =
    { s.clk with patRun := 0, convRun := 0, dramRun := false, aligned := 0, aligning := none, pll := s.clk.pll &&& 0x81 } := rfl

theorem State.imageGone_clk (s : State) : s.imageGone.clk = { s.clk with plan := 0 } := rfl

theorem State.imageGone_img (s : State) : s.imageGone.img =
    { s.img with state := .unconfigured, loadedSrc := 0, fallbackUsed := false, verified := false, version := 0, secCount := 0
                 compat := 0, baseId := 0, buf := [], flash := none } := rfl

/-- What comes after the image is gone. -/
theorem State.unconfigure_end (s : State) :
    Within [.dram, .host, .flg, .ctr, .link, .msix] (s.wordsGone.ringsGone).imageGone s.unconfigure := by
  rw [State.unconfigure_eq]
  exact (((State.dramGone_within _).mono (by decide)).step (State.ctxsClose_within _) (by decide)).step (State.linkReset_within _) (by decide)

/-- Before the image is gone, words, tables and outputs are. -/
theorem State.ringsGone_front (s : State) : Within [.clk, .ovl, .trg, .cfg, .eff, .flg, .cmd, .more, .wl, .gov, .pg, .pin, .lvl, .lg, .mon, .brg,
    .msix, .clu, .tabs, .was, .plc, .mem] s s.wordsGone.ringsGone :=
  ((((s.outputsOff_within.mono (by decide)).step (State.clusUnbound_within _) (by decide)).step (State.resetWords_within _ inMatrix)
    (by decide)).step (State.tablesGone_within _) (by decide)).step (State.ringsGone_within _) (by decide)

theorem State.wordsGone_clk (s : State) : s.wordsGone.ringsGone.clk =
    { s.clk with patRun := 0, convRun := 0, dramRun := false, aligned := 0, aligning := none, pll := s.clk.pll &&& 0x81 } := by
  unfold State.wordsGone
  rw [(State.ringsGone_within _).clkEq, (State.tablesGone_within _).clkEq, (State.resetWords_within _ _).clkEq, (State.clusUnbound_within _).clkEq]
  unfold State.outputsOff
  rw [State.clocksOff_clk, (State.linesOff_within _).clkEq, (State.lvlsPowerOn_within _).clkEq, (State.pinsOff_within _).clkEq,
    (State.lanesReset_within _).clkEq, (State.validateDrop_within _).clkEq]

theorem State.unconfigure_clk (s : State) : s.unconfigure.clk =
    { s.clk with patRun := 0, convRun := 0, dramRun := false, aligned := 0, aligning := none, pll := s.clk.pll &&& 0x81, plan := 0 } := by
  rw [s.unconfigure_end.clkEq, State.imageGone_clk, State.wordsGone_clk]

theorem State.unconfigure_img (s : State) : s.unconfigure.img =
    { s.img with state := .unconfigured, loadedSrc := 0, fallbackUsed := false, verified := false, version := 0, secCount := 0
                 compat := 0, baseId := 0, buf := [], flash := none } := by
  rw [s.unconfigure_end.imgEq, State.imageGone_img, s.ringsGone_front.imgEq]

theorem State.unconfigure_dram (s : State) : s.unconfigure.dram = s.dramGone.dram := by
  have hold : (((((s.outputsOff.clusUnbound).resetWords inMatrix).tablesGone).ringsGone).imageGone).dram = s.dram := by
    rw [(State.imageGone_within _).dramEq, (State.ringsGone_within _).dramEq, (State.tablesGone_within _).dramEq,
      (State.resetWords_within _ _).dramEq, (State.clusUnbound_within _).dramEq, s.outputsOff_within.dramEq]
  rw [State.unconfigure_eq, (State.linkReset_within _).dramEq, (State.ctxsClose_within _).dramEq]
  unfold State.dramGone
  dsimp only
  rw [hold]

/-! ### Clusters, lanes, levels, lines -/

theorem State.clusUnbound_clu (s : State) (n : Clu) : s.clusUnbound.clu[n] = s.clu[n].unbound :=
  foldl_allFin (fun _ => True) (fun u (n : Clu) => u.clu[n]) (fun u n => u.modClu n Cluster.unbound) (fun _ => Cluster.unbound)
    (fun _ _ _ => trivial) (fun u p _ => State.modClu_self u p _) (fun u p q h => State.modClu_other u p _ h) trivial n

theorem State.unconfigure_clu (s : State) (n : Clu) : s.unconfigure.clu[n] = s.clu[n].unbound := by
  rw [getClu_of_eq (s.unconfigure_rest.cluEq (by decide)), State.clusUnbound_clu, getClu_of_eq (s.outputsOff_within.cluEq (by decide))]

/-- One lane of a reset. -/
def State.laneReset (s : State) (w : Lane) : State :=
  let s := s.modWl w (fun l => { l with reason := if l.state = .armed then 4 else l.reason })
  (((s.laneOff w).cmdDrop (armA w) 7).cmdDrop (armNewA w) 7).modWl w (fun l => { l with acts := [], planReads := [] })

theorem State.lanesReset_eq (s : State) : s.lanesReset = { (allFin 16).foldl State.laneReset s with gov := {} } := rfl

theorem State.laneReset_self (s : State) (w : Lane) : (s.laneReset w).wl[w].state = .off := by
  unfold State.laneReset
  dsimp only
  rw [State.modWl_self, State.cmdDrop_wl, State.cmdDrop_wl]
  exact congrArg WLane.state (State.laneOff_wl _ w).self

theorem State.laneReset_other (s : State) {w v : Lane} (h : v ≠ w) : (s.laneReset w).wl[v] = s.wl[v] := by
  unfold State.laneReset
  dsimp only
  rw [State.modWl_other _ _ _ h, State.cmdDrop_wl, State.cmdDrop_wl, (State.laneOff_wl _ w).but v h, State.modWl_other _ _ _ h]

theorem State.lanesReset_off (s : State) (w : Lane) : s.lanesReset.wl[w].state = .off := by
  rw [State.lanesReset_eq]
  exact foldl_reaches (fun _ => True) (fun u => u.wl[w].state = .off) State.laneReset (fun _ _ _ => trivial) (fun u _ => u.laneReset_self w)
    (fun u y _ h => by
      by_cases e : w = y
      · subst e; exact u.laneReset_self w
      · rw [u.laneReset_other e]; exact h) (allFin 16) s (List.mem_finRange w) trivial

theorem State.unconfigure_wl (s : State) (w : Lane) : s.unconfigure.wl[w].state = .off := by
  have h : s.unconfigure.wl = s.validateDrop.lanesReset.wl := by
    rw [s.unconfigure_rest.wlEq, (State.clusUnbound_within _).wlEq]
    unfold State.outputsOff
    rw [(State.clocksOff_within _).wlEq, (State.linesOff_within _).wlEq, (State.lvlsPowerOn_within _).wlEq, (State.pinsOff_within _).wlEq]
  rw [h]
  exact State.lanesReset_off _ w

/-- A level channel as it powers on: its reason alone can differ from the reset value. -/
theorem State.lvlsPowerOn_lvl (s : State) (c : Lvl) : ∃ r, s.lvlsPowerOn.lvl[c] = { reason := r } :=
  foldl_reaches (fun _ => True) (fun u => ∃ r, u.lvl[c] = { reason := r }) State.lvlPowerOn (fun _ _ _ => trivial)
    (fun u _ => ⟨_, State.modLvl_self _ c _⟩)
    (fun u y _ h => by
      by_cases e : c = y
      · subst e; exact ⟨_, State.modLvl_self _ c _⟩
      · obtain ⟨r, hr⟩ := h
        exact ⟨r, (State.modLvl_other _ _ _ e).trans hr⟩) (allFin 48) s (List.mem_finRange c) trivial

theorem State.unconfigure_lvl (s : State) (c : Lvl) : ∃ r, s.unconfigure.lvl[c] = { reason := r } := by
  have h : s.unconfigure.lvl = s.validateDrop.lanesReset.pinsOff.lvlsPowerOn.lvl := by
    rw [s.unconfigure_rest.lvlEq, (State.clusUnbound_within _).lvlEq]
    unfold State.outputsOff
    rw [(State.clocksOff_within _).lvlEq, (State.linesOff_within _).lvlEq]
  rw [h]
  exact State.lvlsPowerOn_lvl _ c

theorem State.unconfigure_lines (s : State) : s.unconfigure.trg = {} ∧ s.unconfigure.brg.inFlight = [] ∧ s.unconfigure.brg.evo = 0 := by
  have hclocks := State.clocksOff_within s.validateDrop.lanesReset.pinsOff.lvlsPowerOn.linesOff
  rw [s.unconfigure_rest.trgEq, s.unconfigure_rest.brgEq, (State.clusUnbound_within _).trgEq, (State.clusUnbound_within _).brgEq]
  unfold State.outputsOff
  rw [hclocks.trgEq, hclocks.brgEq]
  exact ⟨rfl, rfl, rfl⟩

/-! ### Tables, words, overlays, contexts -/

theorem smGet_filter_out {α : Type} (d : Nat → α) (m : SMap α) (p : Nat → Bool) {k : Nat} (h : p k = true) :
    smGet d (m.filter (fun x => !p x.1)) k = d k := by
  unfold smGet
  rw [smFind_filter m (fun a => !p a) k, if_neg (by rw [h]; decide)]
  rfl

theorem State.unconfigure_words (s : State) {a : Nat} (h : inMatrix a = true) :
    s.unconfigure.cfgW a = resetWord a ∧ s.unconfigure.effW a = resetWord a := by
  unfold State.cfgW State.effW
  rw [s.unconfigure_tail.cfgEq, s.unconfigure_tail.effEq]
  exact ⟨smGet_filter_out resetWord _ inMatrix h, smGet_filter_out resetWord _ inMatrix h⟩

theorem State.unconfigure_tables (s : State) : s.unconfigure.tabs = {} ∧ s.unconfigure.plc = {} ∧ s.unconfigure.mem.slots = [] := by
  rw [s.unconfigure_tail.tabsEq, s.unconfigure_tail.plcEq, s.unconfigure_tail.memEq]
  exact ⟨rfl, rfl, rfl⟩

theorem State.unconfigure_ovl (s : State) : s.unconfigure.ovl =
    { resSlot := s.validateDrop.ovl.resSlot, resCode := s.validateDrop.ovl.resCode, resSection := s.validateDrop.ovl.resSection
      applies := s.validateDrop.ovl.applies } := by
  have hold : ((s.outputsOff.clusUnbound).resetWords inMatrix).ovl = s.validateDrop.ovl := by
    rw [(State.resetWords_within _ _).ovlEq, (State.clusUnbound_within _).ovlEq]
    unfold State.outputsOff
    rw [(State.clocksOff_within _).ovlEq, (State.linesOff_within _).ovlEq, (State.lvlsPowerOn_within _).ovlEq, (State.pinsOff_within _).ovlEq,
      (State.lanesReset_within _).ovlEq]
  rw [s.unconfigure_tail.ovlEq]
  unfold State.wordsGone State.tablesGone
  dsimp only
  rw [hold]

/-- A VALIDATE that runs is dropped with SLOT_STATE (R70). -/
theorem State.validateDrop_of_some {s : State} {k : Fin 16} (h : s.ovl.validating = some k) :
    s.validateDrop = ((s.modOvl (fun o => { o with validating := none })).ovlDrop k).cmdTake 0x130 (bit32 8) := by
  unfold State.validateDrop
  rw [h]

theorem State.validateDrop_of_none {s : State} (h : s.ovl.validating = none) : s.validateDrop = s := by
  unfold State.validateDrop
  rw [h]

theorem State.validateDrop_applies (s : State) : s.validateDrop.ovl.applies = s.ovl.applies := by
  cases h : s.ovl.validating with
  | none => rw [State.validateDrop_of_none h]
  | some k =>
    rw [State.validateDrop_of_some h, (State.cmdTake_within _ _ _).ovlEq]
    unfold State.ovlDrop State.ovlResult
    rw [(State.setBit_within _ _ _).ovlEq]
    rfl

/-- A frame that does not name the host keeps the contexts. -/
theorem Within.ctxsEq {l : List Field} {s t : State} (h : Within l s t) (hl : Field.host ∉ l := by decide) : t.host.ctxs = s.host.ctxs := by
  have hhost : ({ t.host with msixPending := s.host.msixPending, msixSent := s.host.msixSent, msixLast := s.host.msixLast } : HostIf) =
    s.host := h .host hl
  have hctxs := congrArg HostIf.ctxs hhost
  exact hctxs

theorem State.unconfigure_ctxs (s : State) (c : Ctx) : s.unconfigure.host.ctxs[c].state = .closed := by
  have hctxs : s.unconfigure.host.ctxs = Vector.replicate 64 {} := by
    rw [State.unconfigure_eq, (State.linkReset_within _).ctxsEq]
    rfl
  rw [hctxs]
  rw [show (Vector.replicate 64 ({} : Stream))[c] = {} from Vector.getElem_replicate ..]

end Sys2Proof.Machine
end

