-- ==== Sys2Proof/Proofs/ManagementTicks.lean ====
section
/-! PROOF. Management ticks (R238, R411, R412). -/
namespace Sys2Proof.Machine

/-! ### The held commands move no tick -/

/-- An outcome leaves the tick as it was. -/
def KeepsNow (s : State) (o : Host.Outcome State Fault Refusal) : Prop := ∀ t, o = .next t → t.clk.now = s.clk.now

theorem KeepsNow.of_within {l : List Field} {s : State} {o : Host.Outcome State Fault Refusal} (h : ∀ t, o = .next t → Within l s t)
    (hc : Field.clk ∉ l := by decide) : KeepsNow s o := fun t ht => by rw [(h t ht).clkEq hc]

/-- A load that begins stops clocks, but moves no tick. -/
theorem execImgLoad_now (s : State) : KeepsNow s (execImgLoad s) := by
  intro t ht
  by_cases hu : s.undef = true
  · rw [execImgLoad, State.guarded, if_pos hu] at ht
    exact nomatch ht
  · rw [execImgLoad, guarded_next (Bool.eq_false_iff.2 hu)] at ht
    obtain rfl := Host.Outcome.next.inj ht
    have herr : ∀ code sect, ((s.imgErr code sect).loadEnd).clk.now = s.clk.now := fun code sect => by
      rw [(State.loadEnd_within _).clkEq, (State.imgErr_within _ _ _).clkEq]
    have hfetch : ∀ src next f, ((s.unconfigure.fetchFrom src next).modImg f).clk.now = s.clk.now := fun src next f => by
      rw [(State.modImg_within _ _).clkEq, (State.fetchFrom_within _ _ _).clkEq, s.unconfigure_clk]
    dsimp only
    split
    · rfl
    · split
      · exact congrArg Clock.now (State.hold_within s _).clkEq
      · split
        · exact herr _ _
        · split
          · exact herr _ _
          · exact hfetch _ _ _

theorem heldOutcome_now (i : Instr) (s : State) : KeepsNow s (heldOutcome i s) := by
  unfold heldOutcome
  split
  · exact KeepsNow.of_within fun t => execBar4Read_within _ _ _ s
  · exact KeepsNow.of_within fun t => execBar4Write_within _ _ s
  · exact KeepsNow.of_within fun t => execCluStart_within _ s
  · exact KeepsNow.of_within fun t => execLaneArm_within _ s
  · exact KeepsNow.of_within fun t => execLaneCal_within _ s
  · exact KeepsNow.of_within fun t => execSpanChangeStart_within _ s
  · exact KeepsNow.of_within fun t => execTcal_within _ s
  · exact KeepsNow.of_within fun t => execLvlOeWrite_within _ s
  · exact KeepsNow.of_within fun t => execLvlReconnect_within _ s
  · exact execImgLoad_now s
  · exact KeepsNow.of_within fun t => execOvlValidate_within s
  · exact KeepsNow.of_within fun t => execOvlApply_within s
  · exact KeepsNow.of_within fun t => execPubGo_within s
  · exact KeepsNow.of_within fun t => execDramRetrain_within s
  · exact KeepsNow.of_within fun t => execStrmOpen_within _ s
  · exact fun t ht => by rw [Host.Outcome.next.inj ht]

theorem onward_now {s : State} {o : Host.Outcome State Fault Refusal} (h : KeepsNow s o) : (onward s o).clk.now = s.clk.now := by
  cases o with
  | next t => exact h t rfl
  | fault f => rfl
  | refused r => rfl

theorem State.runHeld_now (s : State) : s.runHeld.clk.now = s.clk.now :=
  (foldl_keeps (fun u => u.clk.now) s.pwr.held (fun u i => onward u (heldOutcome i u)) (fun u i => onward_now (heldOutcome_now i u))
    (s.modPwr (fun p => { p with held := [] })))

/-! ### A boundary over every word (R411) -/

theorem merge_and (x y m : Word) : merge x y m &&& m = y &&& m := by
  apply BitVec.eq_of_getLsbD_eq
  intro i _
  rw [BitVec.getLsbD_and, BitVec.getLsbD_and, getLsbD_merge]
  cases m.getLsbD i <;> simp

/-- One word of a boundary. -/
def State.applyRow? (p : Nat → Bnd → Bool) (s : State) (a : Nat) : State :=
  match rwRow? a with
  | some r => s.applyDue a (r.maskOf (p a))
  | none => s

theorem State.applyWhere_eq (s : State) (p : Nat → Bnd → Bool) : s.applyWhere p = s.rwKeys.foldl (State.applyRow? p) s := rfl

theorem State.applyRow?_within (p : Nat → Bnd → Bool) (s : State) (a : Nat) : Within [.eff] s (State.applyRow? p s a) := by
  unfold State.applyRow?
  split
  · exact State.applyDue_within s a _
  · exact Within.refl _ s

theorem State.settledW_eff {s t : State} (h : Within [.eff] s t) (a : Nat) : t.settledW a = s.settledW a :=
  State.settledW_congr h.cfgEq h.wasEq (by rw [h.clkEq]) a

/-- The bits of the boundary of a word that is met have taken effect; those of another word are as they were. -/
theorem applyRows_word (p : Nat → Bnd → Bool) {a : Nat} {r : RwRow} (hr : rwRow? a = some r) (l : List Nat) (s : State) :
    let t := l.foldl (State.applyRow? p) s
    (a ∈ l → t.effW a &&& r.maskOf (p a) = s.settledW a &&& r.maskOf (p a)) ∧ (a ∉ l → t.effW a = s.effW a) := by
  induction l generalizing s with
  | nil => exact ⟨fun h => absurd h List.not_mem_nil, fun _ => rfl⟩
  | cons b l ih =>
    obtain ⟨hin, hout⟩ := ih (State.applyRow? p s b)
    have hset := State.settledW_eff (State.applyRow?_within p s b) a
    have hself : State.applyRow? p s a = s.applyDue a (r.maskOf (p a)) := by unfold State.applyRow?; rw [hr]
    have hother : b ≠ a → (State.applyRow? p s b).effW a = s.effW a := fun hb => by
      unfold State.applyRow?
      split
      · exact s.effW_applyDue_other _ (Ne.symm hb)
      · rfl
    refine ⟨fun _ => ?_, fun hm => ?_⟩
    · by_cases hl : a ∈ l
      · exact (hin hl).trans (by rw [hset])
      · by_cases hb : b = a
        · subst hb
          rw [List.foldl_cons, hout hl, hself, State.effW_applyDue_self, merge_and]
        · exact absurd (List.mem_cons.1 ‹_›) (by simp [hl, Ne.symm hb])
    · rw [List.foldl_cons, hout fun h => hm (List.mem_cons_of_mem b h), hother fun e => hm (e ▸ List.mem_cons_self ..)]

/-- A key that a store does not list reads as its default. -/
theorem smGet_of_not_mem {α : Type} (d : Nat → α) (m : SMap α) {k : Nat} (h : k ∉ m.map Prod.fst) : smGet d m k = d k := by
  have hf : smFind m k = none := by
    induction m with
    | nil => rfl
    | cons x m ih =>
      have hx : x.1 ≠ k := fun e => h (e ▸ List.mem_cons_self ..)
      obtain ⟨j, v⟩ := x
      unfold smFind
      rw [if_neg hx, ih fun hm => h (List.mem_cons_of_mem _ hm)]
  unfold smGet
  rw [hf]
  rfl

/-- The word of an address that is nowhere listed is settled. -/
theorem State.settled_of_unlisted {s : State} {a : Nat} (h : a ∉ s.rwKeys) : s.effW a = s.settledW a := by
  simp only [State.rwKeys, List.mem_append, not_or] at h
  obtain ⟨⟨hc, he⟩, hw⟩ := h
  have hword := smGet_of_not_mem resetWord s.cfg hc
  have hwas : smFind s.was.words a = none := by
    have := smGet_of_not_mem (fun _ => none) (s.was.words.map fun x => (x.1, some x.2)) (k := a) (by simpa using hw)
    have hmap : ∀ m : SMap Word, smFind (m.map fun x => (x.1, some x.2)) a = (smFind m a).map some := fun m => by
      induction m with
      | nil => rfl
      | cons x m ih =>
        obtain ⟨j, v⟩ := x
        simp only [List.map_cons, smFind]
        split
        · rfl
        · exact ih
    unfold smGet at this
    rw [hmap] at this
    cases hf : smFind s.was.words a with
    | none => rfl
    | some v => rw [hf] at this; exact nomatch this
  unfold State.effW State.settledW State.oldWordAt State.cfgW
  rw [smGet_of_not_mem resetWord s.eff he, hword, hwas]
  split <;> rfl

/-- After a boundary the bits that it takes of every word are those of the settled word. -/
theorem State.applyWhere_word (s : State) (p : Nat → Bnd → Bool) {a : Nat} {r : RwRow} (hr : rwRow? a = some r) :
    (s.applyWhere p).effW a &&& r.maskOf (p a) = s.settledW a &&& r.maskOf (p a) := by
  obtain ⟨hin, hout⟩ := applyRows_word p hr s.rwKeys s
  rw [State.applyWhere_eq]
  by_cases h : a ∈ s.rwKeys
  · exact hin h
  · rw [hout h, State.settled_of_unlisted h]

/-! ### The work of a management tick -/

/-- The management tick is noted, with its time snapshot. -/
def State.mgmtNote (s : State) : State :=
  (s.modClk (fun c => { c with mgmtFrom := c.now + 1, mgmtCount := c.mgmtCount + 1, timeSnap := BitVec.ofNat 64 s.tb })).modMem
    (fun m => { m with violSeen := [] })

/-- Pending fields take effect. -/
def State.mgmtFields (s : State) : State := s.mgmtNote.freezeRows.applyWhere (fun _ b => decide (b = .mgmt))

/-- Each block takes its part, the controller knowing what DRAM_CTRL was before. -/
def State.mgmtBlocks (s : State) (before : Word) : State :=
  (allFin 16).foldl State.ncoSnap (((s.ncoTick.dramTick before).bridgeTick.linkFollow).capoTick.monTick)

/-- All but the held commands. -/
def State.mgmtQuiet (s : State) (balls : CompareBalls) (parityOk : Bool) : State :=
  ((s.mgmtFields.mgmtBlocks (s.effW (drmA 0x10))).sampleBalls balls).heartbeat parityOk

theorem State.mgmtWork_eq (s : State) (balls : CompareBalls) (parityOk : Bool) :
    s.mgmtWork balls parityOk = (s.mgmtQuiet balls parityOk).runHeld := rfl

theorem State.mgmtNote_within (s : State) : Within [.clk, .mem] s s.mgmtNote :=
  ((State.modClk_within s _).mono (by decide)).step (m := [.mem]) (Within.set_mem _ _ rfl) (by decide)

theorem State.mgmtFields_within (s : State) : Within [.clk, .mem, .flg, .brg, .eff] s s.mgmtFields :=
  ((s.mgmtNote_within.mono (by decide)).step (State.freezeRows_within _) (by decide)).step (State.applyWhere_within _ _) (by decide)

theorem State.ncoSnaps_within (s : State) : Within [.flg, .wl, .msix] s ((allFin 16).foldl State.ncoSnap s) :=
  (Within.refl _ s).fold fun u w h => h.step (State.ncoSnap_within u w) (by decide)

theorem State.mgmtBlocks_within (s : State) (before : Word) :
    Within [.eff, .flg, .ctr, .cmd, .more, .wl, .mon, .brg, .link, .dram, .msix, .plc] s (s.mgmtBlocks before) :=
  (((((((State.ncoTick_within s).mono (by decide)).step (State.dramTick_within _ _) (by decide)).step (State.bridgeTick_within _)
    (by decide)).step (State.linkFollow_within _) (by decide)).step (State.capoTick_within _) (by decide)).step (State.monTick_within _)
    (by decide)).step (State.ncoSnaps_within _) (by decide)

theorem effW_ite {c : Prop} [Decidable c] {u v : State} {a : Nat} {x : Word} (hu : u.effW a = x) (hv : v.effW a = x) :
    (if c then u else v).effW a = x := by
  split
  · exact hu
  · exact hv

/-- The controller changes its own word alone (R343). -/
theorem State.dramTick_word (s : State) (before : Word) {a : Nat} (h : a ≠ drmA 0x10) : (s.dramTick before).effW a = s.effW a := by
  have hclosed : ∀ u : State, ∀ w, (u.closeExpired w).effW a = u.effW a := fun u w =>
    State.effW_congr ((State.closeExpired_within u w) .eff (by decide)) a
  have hrows : ∀ u : State, u.closeRows.effW a = u.effW a := fun u => State.effW_congr ((State.closeRows_within u) .eff (by decide)) a
  have hput : ∀ (u : State) (w : Word), ({ u with eff := smPut resetWord u.eff (drmA 0x10) w } : State).effW a = u.effW a := fun u w =>
    smGet_put_other resetWord u.eff w h
  have hturn : ∀ u : State, ((allFin 16).foldl (fun s g => s.modChan g (fun k => { k with due := none, refBank := 0 })) u).effW a =
      u.effW a := fun u => foldl_keeps (fun v => v.effW a) _ _
    (fun v g => State.effW_congr ((State.modChan_within v g _) .eff (by decide)) a) u
  unfold State.dramTick
  dsimp only
  have hexpired := effW_ite (c := before = s.effW (drmA 0x10)) rfl (hclosed s before)
  have howed : ∀ (c : Prop) [Decidable c] w, _ := fun c _ w => effW_ite (c := c) ((hput _ w).trans hexpired) hexpired
  have hturned : ∀ (c d : Prop) [Decidable c] [Decidable d] w, _ := fun c d _ _ w => effW_ite (c := d) ((hturn _).trans (howed c w)) (howed c w)
  exact effW_ite ((hrows _).trans (hturned _ _ _)) (hturned _ _ _)

/-- After the fields are taken, the blocks leave every other register as it is. -/
theorem State.mgmtQuiet_word (s : State) (balls : CompareBalls) (parityOk : Bool) {a : Nat} (h : a ≠ drmA 0x10) :
    (s.mgmtQuiet balls parityOk).effW a = s.mgmtFields.effW a := by
  have hrest : ∀ u : State, ((u.sampleBalls balls).heartbeat parityOk).effW a = u.effW a := fun u => by
    rw [State.effW_congr ((State.heartbeat_within _ parityOk) .eff (by decide)), State.effW_congr ((State.sampleBalls_within u balls) .eff (by decide))]
  have hblocks : ∀ u : State, ((allFin 16).foldl State.ncoSnap ((u.bridgeTick.linkFollow).capoTick.monTick)).effW a = u.effW a := fun u => by
    rw [State.effW_congr ((State.ncoSnaps_within _) .eff (by decide)), State.effW_congr ((State.monTick_within _) .eff (by decide)),
      State.effW_congr ((State.capoTick_within _) .eff (by decide)), State.effW_congr ((State.linkFollow_within _) .eff (by decide)),
      State.effW_congr ((State.bridgeTick_within _) .eff (by decide))]
  unfold State.mgmtQuiet State.mgmtBlocks
  rw [hrest, hblocks, State.dramTick_word _ _ h, State.effW_congr ((State.ncoTick_within _) .eff (by decide))]

/-- What a management tick brings while no command is held. -/
structure MgmtDone (balls : CompareBalls) (s t : State) : Prop where
  clk : t.clk = { s.clk with mgmtFrom := s.clk.now + 1, mgmtCount := s.clk.mgmtCount + 1, timeSnap := BitVec.ofNat 64 s.tb }
  words : ∀ a r, rwRow? a = some r → a ≠ drmA 0x10 →
    t.effW a &&& r.maskOf (fun b => decide (b = .mgmt)) = s.settledW a &&& r.maskOf (fun b => decide (b = .mgmt))
  pins : ∀ p : PinIdx, t.pin[p].chNow = (balls.pch.getLsbD p.val != (t.effW (pinA p 0)).getLsbD 2) ∧
    t.pin[p].clNow = (balls.pcl.getLsbD p.val != (t.effW (pinA p 0)).getLsbD 3)
  window : t.brg.window = []
  frame : Within [.clk, .pwr, .eff, .flg, .ctr, .cmd, .more, .wl, .pin, .mon, .brg, .link, .dram, .mem, .msix, .flt, .plc] s t

theorem State.settledW_noted (s : State) (a : Nat) : s.mgmtNote.freezeRows.settledW a = s.settledW a := by
  have hf := State.freezeRows_within s.mgmtNote
  refine State.settledW_congr (hf.cfgEq.trans s.mgmtNote_within.cfgEq) (hf.wasEq.trans s.mgmtNote_within.wasEq) ?_ a
  rw [hf.clkEq]
  rfl

/-- One pin's look at its balls. -/
def State.sampleBall (balls : CompareBalls) (s : State) (p : PinIdx) : State :=
  let c := s.effW (pinA p 0)
  s.modPin p (fun q => { q with chNow := balls.pch.getLsbD p.val != c.getLsbD 2, clNow := balls.pcl.getLsbD p.val != c.getLsbD 3 })

theorem State.sampleBalls_pin (s : State) (balls : CompareBalls) (p : PinIdx) :
    (s.sampleBalls balls).pin[p].chNow = (balls.pch.getLsbD p.val != (s.effW (pinA p 0)).getLsbD 2) ∧
      (s.sampleBalls balls).pin[p].clNow = (balls.pcl.getLsbD p.val != (s.effW (pinA p 0)).getLsbD 3) := by
  have hpin := foldl_allFin (fun u => u.eff = s.eff) (fun u (p : PinIdx) => u.pin[p]) (State.sampleBall balls)
    (fun p q => { q with
      chNow := balls.pch.getLsbD p.val != (s.effW (pinA p 0)).getLsbD 2, clNow := balls.pcl.getLsbD p.val != (s.effW (pinA p 0)).getLsbD 3 })
    (fun u p h => h) (fun u p h => by
      show (State.sampleBall balls u p).pin[p] = _
      unfold State.sampleBall
      dsimp only
      rw [State.modPin_self, State.effW_congr h]) (fun u p q h => State.modPin_other u p _ h) (s := s) rfl p
  have hall : (s.sampleBalls balls).pin[p] = _ := hpin
  rw [hall]
  exact ⟨rfl, rfl⟩

/-- The pins stay so while neither they nor the registers change. -/
theorem State.sampleBalls_kept {s t : State} {balls : CompareBalls} (hp : t.pin = (s.sampleBalls balls).pin) (he : t.eff = s.eff) (p : PinIdx) :
    t.pin[p].chNow = (balls.pch.getLsbD p.val != (t.effW (pinA p 0)).getLsbD 2) ∧
      t.pin[p].clNow = (balls.pcl.getLsbD p.val != (t.effW (pinA p 0)).getLsbD 3) := by
  rw [hp, State.effW_congr he]
  exact s.sampleBalls_pin balls p

theorem State.mgmtQuiet_done (s : State) (balls : CompareBalls) (parityOk : Bool) : MgmtDone balls s (s.mgmtQuiet balls parityOk) := by
  have hblocks := s.mgmtFields.mgmtBlocks_within (s.effW (drmA 0x10))
  have hpins := State.sampleBalls_within (s.mgmtFields.mgmtBlocks (s.effW (drmA 0x10))) balls
  have hbeat := State.heartbeat_within ((s.mgmtFields.mgmtBlocks (s.effW (drmA 0x10))).sampleBalls balls) parityOk
  refine ⟨?_, fun a r hr ha => ?_, fun p => ?_, ?_, ?_⟩
  · unfold State.mgmtQuiet
    rw [hbeat.clkEq, hpins.clkEq, hblocks.clkEq]
    unfold State.mgmtFields
    rw [(State.applyWhere_within _ _).clkEq, (State.freezeRows_within _).clkEq]
    rfl
  · rw [State.mgmtQuiet_word s balls parityOk ha, ← s.settledW_noted a]
    exact State.applyWhere_word _ (fun _ b => decide (b = .mgmt)) hr
  · exact State.sampleBalls_kept (hbeat.pinEq) (hbeat.effEq.trans hpins.effEq) p
  · unfold State.mgmtQuiet
    rw [hbeat.brgEq, hpins.brgEq]
    unfold State.mgmtBlocks
    rw [(State.ncoSnaps_within _).brgEq, (State.monTick_within _).brgEq, (State.capoTick_within _).brgEq, (State.linkFollow_within _).brgEq]
    rfl
  · exact (((s.mgmtFields_within.mono (by decide)).step hblocks (by decide)).step hpins (by decide)).step hbeat (by decide)

/-! ### The statement -/

theorem exec_managementTick {s : State} (balls : CompareBalls) (parityOk : Bool) (hu : s.undef = false) :
    exec (.managementTick balls parityOk) s = .next (if !s.coreRuns then s
      else s.inTick (s.mgmtFrom s.clk.mgmtFrom) (fun s => s.mgmtWork balls parityOk)) := by
  show execManagementTick balls parityOk s = _
  rw [execManagementTick, guarded_next hu]

/-- Settles O14: the fields are taken before any block acts, and no block but the DRAM controller changes a register; held commands, which act last,
move no tick. -/
theorem managementTickApplies : Obligations.ManagementTickApplies := by
  unfold Obligations.ManagementTickApplies
  intro s balls parityOk hu tick u
  have hx := exec_managementTick balls parityOk hu
  refine ⟨fun hc => ?_, fun hc => ⟨s, by rw [hx, hc]; rfl, rfl⟩⟩
  have hnext : exec (.managementTick balls parityOk) s = .next ((u.mgmtWork balls parityOk).upto s.clk.now) := by
    rw [hx, hc]
    rfl
  have hdone := u.mgmtQuiet_done balls parityOk
  have hupto := State.upto_within (u.mgmtWork balls parityOk) s.clk.now
  have hheld : Within heldParts (u.mgmtQuiet balls parityOk) (u.mgmtWork balls parityOk) := State.runHeld_within _
  have hnow : ((u.mgmtWork balls parityOk).upto s.clk.now).clk.now = max s.clk.now tick := by
    have hwork : (u.mgmtWork balls parityOk).clk.now = tick := by
      rw [State.mgmtWork_eq, State.runHeld_now, hdone.clk]
    show max (u.mgmtWork balls parityOk).clk.now s.clk.now = _
    rw [hwork, Nat.max_comm]
  refine ⟨_, hnext, hnow, ?_, ?_, fun hempty => ?_⟩
  · rw [hupto.partEq, hheld.partEq, hdone.frame.partEq]
  · rw [hupto.pendingEq, hheld.pendingEq, hdone.frame.pendingEq]
  · have hnone : (u.mgmtQuiet balls parityOk).pwr.held = [] := by
      unfold State.mgmtQuiet
      rw [(State.heartbeat_within _ _).pwrEq, (State.sampleBalls_within _ _).pwrEq, (State.mgmtBlocks_within _ _).pwrEq, u.mgmtFields_within.pwrEq]
      exact hempty
    have hsame : u.mgmtWork balls parityOk = u.mgmtQuiet balls parityOk := by rw [State.mgmtWork_eq, State.runHeld_of_nil hnone]
    rw [hsame] at hupto ⊢
    have hclock : ((u.mgmtQuiet balls parityOk).upto s.clk.now).clk = { (u.mgmtQuiet balls parityOk).clk with
      now := max (u.mgmtQuiet balls parityOk).clk.now s.clk.now } := rfl
    have heff : ((u.mgmtQuiet balls parityOk).upto s.clk.now).eff = (u.mgmtQuiet balls parityOk).eff := rfl
    refine ⟨?_, ?_, ?_, ?_, fun a r hr ha => ⟨hdone.words a r hr ha, fun hw => if_neg hw⟩, hdone.pins, hdone.window, ?_, ?_⟩
    · rw [hclock, hdone.clk]
    · rw [hclock, hdone.clk]
    · rw [hclock, hdone.clk]
      rfl
    · rw [hupto.cfgEq, hdone.frame.cfgEq]
    · rw [hupto.cluEq (by decide), hdone.frame.cluEq (by decide)]
    · exact ((Within.set_clk s _).mono (by decide)).step (hdone.frame.step hupto (by decide)) (by decide)

end Sys2Proof.Machine
end

