-- ==== Sys2Proof/Proofs/DramStatus.lean ====
section
/-! PROOF. What the traffic of DRAM leaves of the controller's state and of the clusters (R154, R336, R350, R352). -/
namespace Sys2Proof.Machine

/-! ### The controller's state -/

/-- What accesses, refreshes and escapes leave as it is. -/
def Dram.status (d : Dram) : Bool × BitVec 512 × Training × Nat × Bool × Bool × Bool × Bool × Bool :=
  (d.configured, d.part, d.training, d.trainAt, d.ready, d.selfRefresh, d.againFull, d.retrainWait, d.shortNext)

def SameStatus (s t : State) : Prop := t.dram.status = s.dram.status

theorem SameStatus.refl (s : State) : SameStatus s s := rfl

theorem SameStatus.trans {s t u : State} (h : SameStatus s t) (k : SameStatus t u) : SameStatus s u := Eq.trans k h

theorem SameStatus.of_within {l : List Field} {s t : State} (h : Within l s t) (hd : Field.dram ∉ l := by decide) : SameStatus s t := by
  have hdram : ({ t.dram with cells := s.dram.cells, gen := s.dram.gen } : Dram) = s.dram := h .dram hd
  have hstatus := congrArg Dram.status hdram
  exact hstatus

theorem SameStatus.ite {c : Prop} [Decidable c] {s t u : State} (h : SameStatus s t) (k : SameStatus s u) :
    SameStatus s (if c then t else u) := by
  split
  · exact h
  · exact k

theorem SameStatus.fold {α : Type} {f : State → α → State} (h : ∀ u x, SameStatus u (f u x)) (l : List α) (s : State) :
    SameStatus s (l.foldl f s) := foldl_rel SameStatus SameStatus.refl (fun h k => h.trans k) f h l s

section
variable {s t : State} (h : SameStatus s t)
include h

theorem SameStatus.training : t.dram.training = s.dram.training := congrArg (fun x => x.2.2.1) h
theorem SameStatus.configured : t.dram.configured = s.dram.configured := congrArg (fun x => x.1) h
theorem SameStatus.ready : t.dram.ready = s.dram.ready := congrArg (fun x => x.2.2.2.2.1) h

end

theorem SameStatus.modChan (s : State) (g : Chan) (f : DramChan → DramChan) : SameStatus s (s.modChan g f) := rfl

theorem SameStatus.count (s : State) (a n : Nat) : SameStatus s (s.count a n) := SameStatus.of_within (State.count_within s a n)

theorem SameStatus.setBit (s : State) (a i : Nat) : SameStatus s (s.setBit a i) := SameStatus.of_within (State.setBit_within s a i)

theorem SameStatus.activate (s : State) (g : Chan) (bank : Fin 16) (row : Nat) : SameStatus s (s.activate g bank row) := by
  unfold State.activate
  have hdraw : ∀ f, SameStatus s (s.modChan g f) := SameStatus.modChan s g
  exact SameStatus.ite (SameStatus.refl s) (SameStatus.ite (hdraw _) (SameStatus.ite
    (((hdraw _).trans (SameStatus.count _ _ 1)).trans (SameStatus.setBit _ _ 8)) ((hdraw _).trans (SameStatus.modChan _ g _))))

theorem SameStatus.bankAccess (s : State) (a : Nat) : SameStatus s (s.bankAccess a) := by
  unfold State.bankAccess
  exact SameStatus.trans (SameStatus.ite (SameStatus.refl s) (SameStatus.activate s _ _ _)) (SameStatus.modChan _ _ _)

theorem SameStatus.retries (s : State) (a : Nat) (o : EdcOutcome) : SameStatus s (s.retries a o) := by
  unfold State.retries
  split <;> exact SameStatus.count s _ _

theorem SameStatus.escape (s : State) (a : Nat) (write : Bool) (src : Nat) : SameStatus s (s.escape a write src) := by
  unfold State.escape
  have hflag := (SameStatus.count s (chanA (chanOf a) 0xC) 1).trans (SameStatus.setBit _ (drmA 0x24) (if write then 1 else 0))
  exact SameStatus.trans (t := { (s.count (chanA (chanOf a) 0xC) 1).setBit (drmA 0x24) (if write then 1 else 0) with
    dram := { ((s.count (chanA (chanOf a) 0xC) 1).setBit (drmA 0x24) (if write then 1 else 0)).dram with
      escAddr := BitVec.ofNat 64 a, escWrite := write, escSrc := BitVec.ofNat 6 src } }) hflag
    (SameStatus.of_within (State.report_within _ _))

theorem SameStatus.hostAccesses (s : State) (l : List (Nat × EdcOutcome)) : SameStatus s (s.hostAccesses l) :=
  SameStatus.fold (fun u _ => (SameStatus.bankAccess u _).trans (SameStatus.retries _ _ _)) l s

theorem SameStatus.writeEscapes (s : State) (l : List Nat) : SameStatus s (s.writeEscapes l) :=
  SameStatus.fold (fun u x => SameStatus.trans (t := u.smear x) rfl (SameStatus.escape _ x true 36)) l s

theorem SameStatus.drain (s : State) (edc : List EdcOutcome) : SameStatus s (s.drain edc) := by
  unfold State.drain
  split
  · exact SameStatus.refl s
  · rename_i w r _
    dsimp only
    generalize withEdc w.units edc = acc
    have hwrite : SameStatus s (State.dramWrite (State.hostAccesses { s with host := { s.host with
        writes := r, wrDrained := s.host.wrDrained + 1 } } acc) w.addr w.bytes) :=
      SameStatus.trans (SameStatus.trans (t := { s with host := { s.host with writes := r, wrDrained := s.host.wrDrained + 1 } }) rfl
        (SameStatus.hostAccesses _ acc)) (SameStatus.of_within (State.dramWrite_within _ _ _))
    exact (hwrite.trans (SameStatus.writeEscapes _ (escapesOf acc))).trans rfl

theorem SameStatus.arrive (s : State) (x : InFlight) : SameStatus s (s.arrive x) := rfl

theorem SameStatus.admitFrom (l : List InFlight) (stuck : List (Fin 44)) (s : State) : SameStatus s (State.admitFrom l stuck s) := by
  induction l generalizing stuck s with
  | nil => exact SameStatus.refl s
  | cons x r ih =>
    unfold State.admitFrom
    split
    · exact ih _ s
    · exact SameStatus.trans (t := { s.arrive x with dram := { (s.arrive x).dram with waiting := (s.arrive x).dram.waiting.erase x } })
        (SameStatus.arrive s x) (ih _ _)

theorem SameStatus.takePlaces (s : State) : SameStatus s s.takePlaces := SameStatus.admitFrom _ _ s

theorem SameStatus.payRefresh (s : State) (g : Chan) : SameStatus s (s.payRefresh g) := by
  unfold State.payRefresh
  exact SameStatus.ite (SameStatus.modChan s g _) (SameStatus.refl s)

/-! ### The landing of an access -/

/-- An access leaves its channel: what it does before its outcome counts. -/
def State.leaveChannel (s : State) (x : InFlight) (edc : EdcOutcome) : State :=
  let b := x.tag.addr.toNat * 64
  let g := unitChan x.tag.addr.toNat
  let s := s.bankAccess b
  let s := { s with dram := { s.dram with inFlight := s.dram.inFlight.erase x } }
  (((s.modChan g (fun k => k.carry x.tag.rt false)).takePlaces).payRefresh g).retries b edc

/-- An access that ends cleanly asks its tile, is counted, and lands. -/
def State.landsClean (s : State) (x : InFlight) (rivals : List (Fin 44 × Nat)) : State :=
  let a := x.tag
  let g := unitChan a.addr.toNat
  let r := s.tileGrant (tileOf a.dest.val) a.src s.clk.now rivals
  let s := r.1.upto r.2
  let late := a.rt && pastDeadline s.tb a.deadline
  let s := if a.rt then s.count (chanA g 0x1C) 1 else s
  let s := if late then (s.count (chanA g 4) 1).setBit (drmA 0x24) 3 else s
  s.landWrite x late

/-- An access that the image loader made has ended. -/
def State.loaderGets (s : State) (u : Nat) (escaped : Bool) : State :=
  s.modOvl (fun o => { o with unread := if escaped then o.unread ++ [u] else o.unread, loaded := o.loaded ++ [u] })

theorem State.landAccess_ok (s : State) (x : InFlight) (k : Nat) (rivals : List (Fin 44 × Nat)) : s.landAccess x (.ok k) rivals =
    if x.tag.src = 42 then (s.leaveChannel x (.ok k)).loaderGets x.tag.addr.toNat false
    else (s.leaveChannel x (.ok k)).landsClean x rivals := rfl

theorem State.landAccess_escaped (s : State) (x : InFlight) (rivals : List (Fin 44 × Nat)) : s.landAccess x .escaped rivals =
    let e := (s.leaveChannel x .escaped).escape (x.tag.addr.toNat * 64) false x.tag.src.val
    if x.tag.src = 42 then e.loaderGets x.tag.addr.toNat true else e := rfl

theorem SameStatus.leaveChannel (s : State) (x : InFlight) (edc : EdcOutcome) : SameStatus s (s.leaveChannel x edc) := by
  unfold State.leaveChannel
  have herase : SameStatus s { s.bankAccess (x.tag.addr.toNat * 64) with dram := { (s.bankAccess (x.tag.addr.toNat * 64)).dram with
      inFlight := (s.bankAccess (x.tag.addr.toNat * 64)).dram.inFlight.erase x } } := SameStatus.bankAccess s _
  exact (((herase.trans (SameStatus.modChan _ _ _)).trans (SameStatus.takePlaces _)).trans (SameStatus.payRefresh _ _)).trans
    (SameStatus.retries _ _ edc)

theorem State.landsClean_within (s : State) (x : InFlight) (rivals : List (Fin 44 × Nat)) :
    Within [.clk, .flg, .ctr, .clu, .mem, .msix, .flt, .plc] s (s.landsClean x rivals) := by
  have hgrant := ((State.tileGrant_within s (tileOf x.tag.dest.val) x.tag.src s.clk.now rivals).mono
    (l := [.clk, .flg, .ctr, .clu, .mem, .msix, .flt, .plc]) (by decide)).step
      (State.upto_within _ (s.tileGrant (tileOf x.tag.dest.val) x.tag.src s.clk.now rivals).2) (by decide)
  unfold State.landsClean
  dsimp only
  generalize (s.tileGrant (tileOf x.tag.dest.val) x.tag.src s.clk.now rivals).1.upto _ = u at *
  have hrt : Within [.clk, .flg, .ctr, .clu, .mem, .msix, .flt, .plc] s (if x.tag.rt then u.count (chanA (unitChan x.tag.addr.toNat) 0x1C) 1 else u) :=
    Within.ite (hgrant.step (State.count_within _ _ _) (by decide)) hgrant
  refine Within.step (Within.ite ?_ hrt) (State.landWrite_within _ _ _) (by decide)
  exact (hrt.step (State.count_within _ _ _) (by decide)).step (State.setBit_within _ _ _) (by decide)

theorem SameStatus.landAccess (s : State) (x : InFlight) (edc : EdcOutcome) (rivals : List (Fin 44 × Nat)) :
    SameStatus s (s.landAccess x edc rivals) := by
  have hleave := SameStatus.leaveChannel s x edc
  have hloader : ∀ (u : State) e, SameStatus u (u.loaderGets x.tag.addr.toNat e) := fun _ _ => rfl
  cases edc with
  | ok k =>
    rw [State.landAccess_ok]
    exact hleave.trans (SameStatus.ite (hloader _ _) (SameStatus.of_within (State.landsClean_within _ x rivals)))
  | escaped =>
    rw [State.landAccess_escaped]
    have hesc := hleave.trans (SameStatus.escape _ (x.tag.addr.toNat * 64) false x.tag.src.val)
    exact SameStatus.ite (hesc.trans (hloader _ _)) hesc

theorem SameStatus.landAll (s : State) (fuel : Nat) : SameStatus s (s.landAll fuel) := by
  induction fuel generalizing s with
  | zero => exact SameStatus.refl s
  | succ fuel ih =>
    unfold State.landAll
    split
    · exact SameStatus.refl s
    · exact (SameStatus.landAccess s _ _ _).trans (ih _)

theorem SameStatus.closeRows (s : State) : SameStatus s s.closeRows := SameStatus.fold (fun u g => SameStatus.modChan u g _) _ s

/-! ### The clusters -/

/-- Nothing of a cluster changes but its late records. -/
def LateAlone (s t : State) : Prop := ∀ n : Clu, ∃ l, t.clu[n] = { s.clu[n] with lateRecs := l }

theorem LateAlone.of_eq {s t : State} (h : t.clu = s.clu) : LateAlone s t := fun n => ⟨s.clu[n].lateRecs, by rw [h]⟩

theorem LateAlone.refl (s : State) : LateAlone s s := LateAlone.of_eq rfl

theorem LateAlone.trans {s t u : State} (h : LateAlone s t) (k : LateAlone t u) : LateAlone s u := fun n => by
  obtain ⟨l, hl⟩ := h n
  obtain ⟨m, hm⟩ := k n
  exact ⟨m, by rw [hm, hl]⟩

theorem LateAlone.of_within {l : List Field} {s t : State} (h : Within l s t) (hc : Field.clu ∉ l := by decide) : LateAlone s t :=
  LateAlone.of_eq (h.cluEq hc)

theorem LateAlone.landRecs (s : State) (n : Clu) (u : Nat) (x : Slot) : LateAlone s (s.landRecs n u x) := by
  unfold State.landRecs
  dsimp only
  have hmod : LateAlone s (s.modClu n (fun k => { k with lateRecs := k.lateRecs.filter (fun r => !r.awaits n u x) })) := fun m => by
    by_cases hm : m = n
    · subst hm
      exact ⟨_, State.modClu_self s m _⟩
    · exact ⟨s.clu[m].lateRecs, State.modClu_other s n _ hm⟩
  exact hmod.trans (LateAlone.of_eq (State.foldSame _ _ (fun v r => (State.reportLate_within v n r _).cluEq (by decide)) _))

theorem LateAlone.afterLanding (s : State) (a : AccessTag) (y : Slot) : LateAlone s (s.afterLanding a y) := by
  unfold State.afterLanding
  dsimp only
  refine LateAlone.trans ?_ (LateAlone.of_within (State.jobsLanded_within _))
  exact (LateAlone.of_within (State.count_within s _ _)).trans
    (foldl_rel LateAlone LateAlone.refl LateAlone.trans _ (fun u n => LateAlone.landRecs u n _ y) _ _)

theorem LateAlone.landWrite (s : State) (x : InFlight) (late : Bool) : LateAlone s (s.landWrite x late) := by
  unfold State.landWrite
  dsimp only
  split
  · exact LateAlone.of_within (State.violate_within s _ _ _)
  · split
    · exact LateAlone.refl s
    · exact ((LateAlone.of_within (State.landSlot_within s _ _ _)).trans (LateAlone.of_within (State.spareFollow_within _ _))).trans
        (LateAlone.afterLanding _ _ _)

theorem State.leaveChannel_within (s : State) (x : InFlight) (edc : EdcOutcome) : Within [.flg, .ctr, .dram, .msix] s (s.leaveChannel x edc) := by
  unfold State.leaveChannel
  dsimp only
  have herase : Within [.flg, .ctr, .dram, .msix] s { s.bankAccess (x.tag.addr.toNat * 64) with
      dram := { (s.bankAccess (x.tag.addr.toNat * 64)).dram with
        inFlight := (s.bankAccess (x.tag.addr.toNat * 64)).dram.inFlight.erase x } } :=
    (State.bankAccess_within s _).step (m := [.dram]) (Within.set_dram _ _ rfl rfl) (by decide)
  exact (((herase.step (State.modChan_within _ _ _) (by decide)).step (State.takePlaces_within _) (by decide)).step
    (State.payRefresh_within _ _) (by decide)).step (State.retries_within _ _ _) (by decide)

theorem LateAlone.landsClean (s : State) (x : InFlight) (rivals : List (Fin 44 × Nat)) : LateAlone s (s.landsClean x rivals) := by
  have hgrant : LateAlone s ((s.tileGrant (tileOf x.tag.dest.val) x.tag.src s.clk.now rivals).1.upto
      (s.tileGrant (tileOf x.tag.dest.val) x.tag.src s.clk.now rivals).2) :=
    (LateAlone.of_within (State.tileGrant_within s _ _ _ _)).trans (LateAlone.of_eq rfl)
  unfold State.landsClean
  dsimp only
  generalize (s.tileGrant (tileOf x.tag.dest.val) x.tag.src s.clk.now rivals).1.upto _ = u at *
  refine hgrant.trans (LateAlone.trans (LateAlone.of_within (l := [.flg, .ctr, .msix]) ?_) (LateAlone.landWrite _ x _))
  have hrt : Within [.flg, .ctr, .msix] u (if x.tag.rt then u.count (chanA (unitChan x.tag.addr.toNat) 0x1C) 1 else u) :=
    Within.ite ((State.count_within _ _ _).mono (by decide)) (Within.refl _ u)
  exact Within.ite ((hrt.step (State.count_within _ _ _) (by decide)).step (State.setBit_within _ _ _) (by decide)) hrt

theorem LateAlone.landAccess (s : State) (x : InFlight) (edc : EdcOutcome) (rivals : List (Fin 44 × Nat)) :
    LateAlone s (s.landAccess x edc rivals) := by
  have hleave := LateAlone.of_within (s.leaveChannel_within x edc)
  have hloader : ∀ (u : State) e, LateAlone u (u.loaderGets x.tag.addr.toNat e) := fun _ _ => LateAlone.of_eq rfl
  cases edc with
  | ok k =>
    rw [State.landAccess_ok]
    split
    · exact hleave.trans (hloader _ _)
    · exact hleave.trans (LateAlone.landsClean _ x rivals)
  | escaped =>
    rw [State.landAccess_escaped]
    have hesc := hleave.trans (LateAlone.of_within (State.escape_within _ (x.tag.addr.toNat * 64) false x.tag.src.val))
    dsimp only
    split
    · exact hesc.trans (hloader _ _)
    · exact hesc

theorem LateAlone.landAll (s : State) (fuel : Nat) : LateAlone s (s.landAll fuel) := by
  induction fuel generalizing s with
  | zero => exact LateAlone.refl s
  | succ fuel ih =>
    unfold State.landAll
    split
    · exact LateAlone.refl s
    · exact (LateAlone.landAccess s _ _ _).trans (ih _)

/-! ### Self-refresh (R352) -/

/-- Every access, write, refresh and row is done with before DRAM enters self-refresh. -/
def State.settleDram (s : State) : State :=
  let s := s.host.writes.foldl (fun s _ => s.drain []) (s.landAll s.flights.length)
  (allFin 16).foldl (fun s g => s.modChan g (fun k => { k with owed := 0 })) s.closeRows

theorem State.selfRefreshIn_eq (s : State) : s.selfRefreshIn =
    { s.settleDram with dram := { s.settleDram.dram with ready := false, selfRefresh := true } } := rfl

theorem SameStatus.settleDram (s : State) : SameStatus s s.settleDram :=
  (((SameStatus.landAll s _).trans (SameStatus.fold (fun u _ => SameStatus.drain u []) _ _)).trans (SameStatus.closeRows _)).trans
    (SameStatus.fold (fun u g => SameStatus.modChan u g _) _ _)

theorem LateAlone.settleDram (s : State) : LateAlone s s.settleDram := by
  have hdrain : ∀ (l : List HostWrite) (u : State), (l.foldl (fun s _ => s.drain []) u).clu = u.clu := fun l u =>
    State.foldSame l _ (fun v _ => (State.drain_within v []).cluEq (by decide)) u
  refine (LateAlone.landAll s s.flights.length).trans (LateAlone.of_eq ?_)
  unfold State.settleDram
  dsimp only
  rw [State.foldSame _ _ (fun v g => (State.modChan_within v g _).cluEq (by decide)), (State.closeRows_within _).cluEq (by decide), hdrain]

theorem State.selfRefreshIn_dram (s : State) : s.selfRefreshIn.dram.selfRefresh = true ∧ s.selfRefreshIn.dram.ready = false ∧
    s.selfRefreshIn.dram.training = s.dram.training ∧ s.selfRefreshIn.dram.configured = s.dram.configured := by
  rw [State.selfRefreshIn_eq]
  exact ⟨rfl, rfl, (SameStatus.settleDram s).training, (SameStatus.settleDram s).configured⟩

theorem LateAlone.selfRefreshIn (s : State) : LateAlone s s.selfRefreshIn := by
  have hsettle := LateAlone.settleDram s
  rw [State.selfRefreshIn_eq]
  generalize s.settleDram = u at *
  exact hsettle.trans (LateAlone.of_eq rfl)

end Sys2Proof.Machine
end

