-- ==== Sys2Proof/Proofs/WarmResets.lean ====
section
/-! PROOF. WARM_RESET (R51, R269, R352, R445, R446, R449, R461). -/
namespace Sys2Proof.Machine

/-! ### Its stages -/

/-- Clusters stop, lanes turn off and level channels open. -/
def State.warmOutputs (s : State) : State :=
  let s := (allFin 48).foldl State.warmLevel ((allFin 8).foldl State.warmCluster s).lanesReset
  { s with lg := Vector.replicate 6 {}, mon := { s.mon with chan := none } }

/-- Groups end a TCAL and restart FL_RD_COUNT. -/
def State.warmGroups (s : State) : State :=
  (allFin 4).foldl (fun s g => s.modPg g (fun p => { p with tcalUntil := none, flRd := 0, flRdOld := none })) s

/-- A configured DRAM goes into self-refresh. -/
def State.warmDram (s : State) : State := if s.dram.configured then s.warmTraining.selfRefreshIn else s

/-- Streams close and lines fall. -/
def State.warmSilent (s : State) : State := State.warmTake.linksDown_ s.warmStreams

/-- The tuning pass, overlays, publishes and waiting commands end, and registers return to reset. -/
def State.warmForget (s : State) (changing : List Nat) : State :=
  let s := s.tuneStop.warmOverlays
  let s := s.modPlc (fun p => { p with goes := [], queue := [], next := none, jobs := [], switching := false })
  let s := { s with cmd := [(clkA 0x10, bit32 8)], more := [], was := {} }
  s.warmWords changing

def State.warmRest (s : State) (changing : List Nat) : State :=
  (s.warmSilent.warmForget changing).modBrg (fun b => { b with watchValid := false })

/-- A base load in progress ends with the device unconfigured (R51). -/
def State.warmLoad (s : State) : State := if s.loading then s.unconfigure.modImg (fun i => { i with aborted := true }) else s

/-- The reset is in progress. -/
def State.warmEnter (s : State) : State :=
  let s := (s.modPwr (fun p => { p with phase := .resetting, prepared := [], agreed := [], held := [] })).cause 3
  (s.misalign 0x0FFF).linkReset.watchPause

/-- FS and SPAN of the lanes that change their span. -/
def State.changingSpans (s : State) : List Nat :=
  ((allFin 16).filter (fun w : Lane => decide (s.wl[w].state = .spanChange))).map (fun w => wlA w 0x100)

/-- What a base load finds that the reset ends. -/
def State.warmBase (s : State) : State := (s.warmOutputs.warmGroups.warmDram).warmRest s.changingSpans

theorem State.warmTake_eq (s : State) : s.warmTake = s.warmBase.warmLoad.warmEnter := rfl

theorem State.warmClusters_within (s : State) : Within [.eff, .flg, .ctr, .cmd, .more, .tabs, .clu, .wl, .gov, .pg, .pin, .host, .msix, .plc] s
    ((allFin 8).foldl State.warmCluster s) :=
  (Within.refl _ s).fold fun u n h => h.step (State.warmCluster_within u n) (by decide)

theorem State.warmLevels_within (s : State) : Within [.lvl] s ((allFin 48).foldl State.warmLevel s) :=
  (Within.refl _ s).fold fun u c h => h.step (State.warmLevel_within u c) (by decide)

theorem State.warmGroups_within (s : State) : Within [.pg] s s.warmGroups :=
  (Within.refl _ s).fold fun u g h => h.step (State.modPg_within u g _) (by decide)

/-- What comes after the levels open. -/
theorem State.warmLast_within (s : State) : Within [.lg, .mon] s { s with lg := Vector.replicate 6 {}, mon := { s.mon with chan := none } } :=
  Within.set_lg_mon s _ _

theorem State.warmOutputs_within (s : State) :
    Within [.eff, .flg, .ctr, .cmd, .more, .tabs, .clu, .wl, .gov, .pg, .pin, .host, .msix, .plc, .lvl, .lg, .mon] s s.warmOutputs :=
  (((s.warmClusters_within.mono (by decide)).step (State.lanesReset_within _) (by decide)).step (State.warmLevels_within _) (by decide)).step
    (State.warmLast_within _) (by decide)

theorem State.warmDram_within (s : State) :
    Within [.clk, .ovl, .flg, .ctr, .clu, .dram, .bytes, .mem, .host, .msix, .flt, .plc, .freeN] s s.warmDram := by
  unfold State.warmDram
  exact Within.ite (((State.warmTraining_within s).mono (by decide)).step (State.selfRefreshIn_within _) (by decide)) (Within.refl _ s)

theorem State.warmTables_within (s : State) : Within [.cmd, .more, .was] s { s with cmd := [(clkA 0x10, bit32 8)], more := [], was := {} } :=
  ((Within.set_cmd_more s _ _ (fun _ => by decide) (fun _ => smWf_nil _)).mono (by decide)).step (Within.set_was _ _) (by decide)

theorem State.warmSilent_within (s : State) : Within [.flg, .ctr, .host, .trg, .brg] s s.warmSilent :=
  ((State.warmStreams_within s).mono (by decide)).step (State.warmLinksDown_within _) (by decide)

theorem State.warmForget_within (s : State) (changing : List Nat) :
    Within [.mem, .ovl, .plc, .cmd, .more, .was, .cfg, .eff] s (s.warmForget changing) :=
  (((((State.tuneStop_within s).mono (by decide)).step (State.warmOverlays_within _) (by decide)).step (State.modPlc_within _ _)
    (by decide)).step (State.warmTables_within _) (by decide)).step (State.warmWords_within _ _) (by decide)

theorem State.warmRest_within (s : State) (changing : List Nat) :
    Within [.flg, .ctr, .host, .trg, .brg, .mem, .ovl, .plc, .cmd, .more, .was, .cfg, .eff] s (s.warmRest changing) :=
  ((s.warmSilent_within.mono (by decide)).step (State.warmForget_within _ _) (by decide)).step (State.modBrg_within _ _) (by decide)

theorem State.warmEnter_within (s : State) : Within [.pwr, .clk, .link, .flg, .ctr, .msix, .flt] s s.warmEnter :=
  (((((State.modPwr_within s _).mono (by decide)).step (State.cause_within _ _) (by decide)).step (State.misalign_within _ _) (by decide)).step
    (State.linkReset_within _) (by decide)).step (State.watchPause_within _) (by decide)

/-! ### The clusters -/

/-- A cluster as a warm reset leaves it. -/
structure Warmed (old k : Cluster) : Prop where
  idle : k.state = .idle ∧ k.stopReason = 5 ∧ k.stack = [] ∧ k.resetPark = none
  sched : old.state ≠ .idle ∨ old.resetPark.isSome = true → k.sched = none
  hosted : old.state ≠ .idle → k.hosted = none
  requests : k.pend = old.pend ∧ k.arriving = old.arriving

theorem State.warmCluster_warmed (s : State) (n : Clu) : Warmed s.clu[n] (s.warmCluster n).clu[n] := by
  unfold State.warmCluster
  dsimp only
  rw [State.modClu_self]
  by_cases hi : s.clu[n].state = .idle
  · rw [if_pos hi]
    cases hr : s.clu[n].resetPark with
    | none =>
      exact ⟨⟨hi, rfl, rfl, hr⟩, fun h => by rcases h with h | h <;> [exact absurd hi h; exact absurd (hr ▸ h) (by decide)],
        fun h => absurd hi h, rfl, rfl⟩
    | some p =>
      obtain ⟨⟨hstate, hpark, -, hsched, -, hpend, harr⟩, -⟩ := s.endPlayOut_playedOut n (s.clk.now * 1024)
      exact ⟨⟨hstate.trans hi, rfl, rfl, hpark⟩, fun _ => hsched, fun h => absurd hi h, hpend, harr⟩
  · rw [if_neg hi]
    obtain ⟨f, hself, -⟩ := s.stopCluster_clu n 5 (s.clk.now * 1024)
    rw [hself]
    exact ⟨⟨rfl, rfl, rfl, rfl⟩, fun _ => rfl, fun _ => rfl, rfl, rfl⟩

theorem State.warmCluster_other (s : State) {n m : Clu} (h : m ≠ n) : (s.warmCluster n).clu[m] = s.clu[m] := by
  unfold State.warmCluster
  dsimp only
  rw [State.modClu_other _ _ _ h]
  split
  · split
    · exact (s.endPlayOut_playedOut n _).other m h
    · rfl
  · obtain ⟨f, -, hother⟩ := s.stopCluster_clu n 5 (s.clk.now * 1024)
    exact hother m h

theorem State.warmClusters_warmed (s : State) (n : Clu) : Warmed s.clu[n] ((allFin 8).foldl State.warmCluster s).clu[n] :=
  foldl_at (fun _ => True) (fun u => u.clu[n]) (Warmed s.clu[n]) State.warmCluster (fun _ _ _ => trivial)
    (fun u y hy _ => u.warmCluster_other (Ne.symm hy)) (allFin 8) s (List.nodup_finRange 8) (List.mem_finRange n) trivial
    (fun u _ hu => by rw [← hu]; exact u.warmCluster_warmed n)

/-- Late records may go, as the last accesses land. -/
theorem Warmed.late {old k : Cluster} (h : Warmed old k) (l : List LateRec) : Warmed old { k with lateRecs := l } :=
  ⟨h.idle, h.sched, h.hosted, h.requests⟩

theorem LateAlone.warmDram (s : State) : LateAlone s s.warmDram := by
  unfold State.warmDram
  split
  · exact (LateAlone.of_within (State.warmTraining_within s)).trans (LateAlone.selfRefreshIn _)
  · exact LateAlone.refl s

theorem State.warmBase_clu (s : State) (n : Clu) : Warmed s.clu[n] s.warmBase.clu[n] := by
  obtain ⟨l, hl⟩ := LateAlone.warmDram s.warmOutputs.warmGroups n
  have hclusters : s.warmOutputs.warmGroups.clu = ((allFin 8).foldl State.warmCluster s).clu := by
    rw [(State.warmGroups_within _).cluEq (by decide)]
    unfold State.warmOutputs
    rw [(State.warmLast_within _).cluEq (by decide), (State.warmLevels_within _).cluEq (by decide), (State.lanesReset_within _).cluEq (by decide)]
  unfold State.warmBase
  rw [getClu_of_eq ((State.warmRest_within _ _).cluEq (by decide)), hl, getClu_of_eq hclusters]
  exact (s.warmClusters_warmed n).late l

/-! ### Lanes, levels, groups, lines and DRAM -/

theorem State.warmBase_wl (s : State) (w : Lane) : s.warmBase.wl[w].state = .off := by
  have h : s.warmBase.wl = ((allFin 8).foldl State.warmCluster s).lanesReset.wl := by
    unfold State.warmBase
    rw [(State.warmRest_within _ _).wlEq, (State.warmDram_within _).wlEq, (State.warmGroups_within _).wlEq]
    unfold State.warmOutputs
    rw [(State.warmLast_within _).wlEq, (State.warmLevels_within _).wlEq]
  rw [h]
  exact State.lanesReset_off _ w

theorem State.warmBase_gov (s : State) : s.warmBase.gov = {} := by
  unfold State.warmBase
  rw [(State.warmRest_within _ _).govEq, (State.warmDram_within _).govEq, (State.warmGroups_within _).govEq]
  unfold State.warmOutputs
  rw [(State.warmLast_within _).govEq, (State.warmLevels_within _).govEq]
  rfl

/-- A level channel as a warm reset leaves it. -/
theorem State.warmLevels_lvl (s : State) (c : Lvl) : ((allFin 48).foldl State.warmLevel s).lvl[c] =
    { s.lvl[c] with state := .opened, reason := if s.lvl[c].on then 5 else s.lvl[c].reason, oe := false, changing := false
                    settling := false, driven := false } :=
  foldl_allFin (fun _ => True) (fun u (c : Lvl) => u.lvl[c]) State.warmLevel (fun _ l => { l with
      state := .opened, reason := if l.on then 5 else l.reason, oe := false, changing := false, settling := false, driven := false })
    (fun _ _ _ => trivial) (fun u p _ => State.modLvl_self u p _) (fun u p q h => State.modLvl_other u p _ h) trivial c

theorem State.warmBase_lvl (s : State) (c : Lvl) : s.warmBase.lvl[c].state = .opened ∧ s.warmBase.lvl[c].oe = false ∧
    s.warmBase.lvl[c].span = s.lvl[c].span ∧ s.warmBase.lvl[c].active = s.lvl[c].active := by
  have h : s.warmBase.lvl = ((allFin 48).foldl State.warmLevel ((allFin 8).foldl State.warmCluster s).lanesReset).lvl := by
    unfold State.warmBase
    rw [(State.warmRest_within _ _).lvlEq, (State.warmDram_within _).lvlEq, (State.warmGroups_within _).lvlEq]
    unfold State.warmOutputs
    rw [(State.warmLast_within _).lvlEq]
  have hold : ((allFin 8).foldl State.warmCluster s).lanesReset.lvl = s.lvl := by
    rw [(State.lanesReset_within _).lvlEq, s.warmClusters_within.lvlEq]
  rw [h, State.warmLevels_lvl, hold]
  exact ⟨rfl, rfl, rfl, rfl⟩

theorem State.warmGroups_rd (s : State) (g : Pg) : s.warmGroups.pg[g].flRd = 0 :=
  foldl_reaches (fun _ => True) (fun u => u.pg[g].flRd = 0) (fun s g => s.modPg g (fun p => { p with tcalUntil := none, flRd := 0, flRdOld := none }))
    (fun _ _ _ => trivial) (fun u _ => by rw [State.modPg_self]) (fun u y _ h => by
      by_cases e : g = y
      · subst e; rw [State.modPg_self]
      · rw [State.modPg_other _ _ _ e]; exact h) (allFin 4) s (List.mem_finRange g) trivial

theorem State.warmBase_rd (s : State) (g : Pg) : s.warmBase.pg[g].flRd = 0 := by
  unfold State.warmBase
  rw [(State.warmRest_within _ _).pgEq, (State.warmDram_within _).pgEq]
  exact State.warmGroups_rd _ g

theorem State.warmSilent_lines (s : State) : s.warmSilent.trg = {} ∧ s.warmSilent.brg.inFlight = [] ∧ s.warmSilent.brg.evo = 0 :=
  ⟨rfl, rfl, rfl⟩

/-- Lines that are down stay so while no watch is valid. -/
theorem State.modBrg_lines (s : State) : (s.modBrg (fun b => { b with watchValid := false })).trg = s.trg ∧
    (s.modBrg (fun b => { b with watchValid := false })).brg.inFlight = s.brg.inFlight ∧
    (s.modBrg (fun b => { b with watchValid := false })).brg.evo = s.brg.evo := ⟨rfl, rfl, rfl⟩

theorem State.warmRest_lines (s : State) (changing : List Nat) :
    (s.warmRest changing).trg = {} ∧ (s.warmRest changing).brg.inFlight = [] ∧ (s.warmRest changing).brg.evo = 0 := by
  obtain ⟨htrg, hflight, hevo⟩ := s.warmSilent_lines
  have hforget := s.warmSilent.warmForget_within changing
  unfold State.warmRest
  obtain ⟨h1, h2, h3⟩ := (s.warmSilent.warmForget changing).modBrg_lines
  rw [h1, h2, h3, hforget.trgEq, hforget.brgEq]
  exact ⟨htrg, hflight, hevo⟩

theorem State.warmTraining_dram (s : State) : s.warmTraining.dram.training = .none ∧ s.warmTraining.dram.configured = s.dram.configured := by
  unfold State.warmTraining
  split <;> exact ⟨rfl, rfl⟩

theorem State.warmBase_dram (s : State) (h : s.dram.configured = true) : s.warmBase.dram.selfRefresh = true ∧ s.warmBase.dram.ready = false ∧
    s.warmBase.dram.training = .none := by
  have hconf : s.warmOutputs.warmGroups.dram = s.dram := by rw [(State.warmGroups_within _).dramEq, s.warmOutputs_within.dramEq]
  obtain ⟨hself, hready, htraining, -⟩ := s.warmOutputs.warmGroups.warmTraining.selfRefreshIn_dram
  have hwarm : s.warmOutputs.warmGroups.warmDram = s.warmOutputs.warmGroups.warmTraining.selfRefreshIn := by
    unfold State.warmDram
    rw [hconf, if_pos h]
  unfold State.warmBase
  rw [(State.warmRest_within _ _).dramEq, hwarm]
  exact ⟨hself, hready, htraining.trans (State.warmTraining_dram _).1⟩

/-! ### The end of a base load, and the entry into the reset -/

/-- One group drops what it was playing. -/
def State.groupOff (s : State) (g : Pg) : State :=
  (if s.pg[g].tcalUntil.isSome then s.cmdTake (tsgA g 0) 1 else s).modPg g (fun p => { p with
    strobes := [], vecs := [], flQueue := [], tcalUntil := none, vecNext := 0, vecIdx := 0, vecPeriod := 512, unlanded := []
    setsWas := [] })

theorem State.groupOff_rd (s : State) (y g : Pg) : (s.groupOff y).pg[g].flRd = s.pg[g].flRd := by
  have htake : (if s.pg[y].tcalUntil.isSome then s.cmdTake (tsgA y 0) 1 else s).pg = s.pg := by split <;> rfl
  unfold State.groupOff
  by_cases e : g = y
  · subst e
    rw [State.modPg_self, htake]
  · rw [State.modPg_other _ _ _ e, htake]

theorem State.pinsOff_eq (s : State) : s.pinsOff =
    (allFin 64).foldl (fun s p => s.modPin p (fun q => { chNow := q.chNow, clNow := q.clNow })) ((allFin 4).foldl State.groupOff s) := rfl

theorem State.pinsOff_rd (s : State) (g : Pg) : s.pinsOff.pg[g].flRd = s.pg[g].flRd := by
  have hpins : ∀ u : State, Within [.pin] u ((allFin 64).foldl (fun s p => s.modPin p (fun q => { chNow := q.chNow, clNow := q.clNow })) u) :=
    fun u => (Within.refl _ u).fold fun v p h => h.step (State.modPin_within v p _) (by decide)
  rw [State.pinsOff_eq, (hpins _).pgEq]
  exact foldl_keeps (fun v => v.pg[g].flRd) _ State.groupOff (fun v y => v.groupOff_rd y g) s

/-- The fail logs' read counts outlast the loss of a base. -/
theorem State.unconfigure_rd (s : State) (g : Pg) : s.unconfigure.pg[g].flRd = s.pg[g].flRd := by
  have hrings : ∀ u : State, u.ringsGone.pg[g].flRd = u.pg[g].flRd := fun u =>
    foldl_keeps (fun v => v.pg[g].flRd) _ _ (fun v y => by
      by_cases e : g = y
      · subst e; rw [State.modPg_self]
      · rw [State.modPg_other _ _ _ e]) u
  have hend : s.unconfigure.pg = s.wordsGone.ringsGone.pg := by rw [s.unconfigure_end.pgEq, (State.imageGone_within _).pgEq]
  rw [hend, hrings]
  unfold State.wordsGone
  rw [(State.tablesGone_within _).pgEq, (State.resetWords_within _ _).pgEq, (State.clusUnbound_within _).pgEq]
  unfold State.outputsOff
  rw [(State.clocksOff_within _).pgEq, (State.linesOff_within _).pgEq, (State.lvlsPowerOn_within _).pgEq, State.pinsOff_rd, (State.lanesReset_within _).pgEq,
    (State.validateDrop_within _).pgEq]

theorem State.unconfigure_gov (s : State) : s.unconfigure.gov = {} := by
  rw [s.unconfigure_rest.govEq, (State.clusUnbound_within _).govEq]
  unfold State.outputsOff
  rw [(State.clocksOff_within _).govEq, (State.linesOff_within _).govEq, (State.lvlsPowerOn_within _).govEq, (State.pinsOff_within _).govEq]
  rfl

/-- What every warm reset has stopped, whether a load was in progress or not. -/
structure WarmStopped (s t : State) : Prop where
  clu : ∀ n : Clu, (t.clu[n].state = .idle ∧ t.clu[n].stopReason = 5 ∧ t.clu[n].stack = [] ∧ t.clu[n].resetPark = none) ∧
    (s.clu[n].state ≠ .idle ∨ s.clu[n].resetPark.isSome = true → t.clu[n].sched = none) ∧ (s.clu[n].state ≠ .idle → t.clu[n].hosted = none)
  wl : ∀ w : Lane, t.wl[w].state = .off
  gov : t.gov = {}
  lvl : ∀ c : Lvl, t.lvl[c].state = .opened ∧ t.lvl[c].oe = false
  rd : ∀ g : Pg, t.pg[g].flRd = 0
  lines : t.trg = {} ∧ t.brg.inFlight = [] ∧ t.brg.evo = 0

theorem State.warmBase_stopped (s : State) : WarmStopped s s.warmBase where
  clu n := ⟨(s.warmBase_clu n).idle, (s.warmBase_clu n).sched, (s.warmBase_clu n).hosted⟩
  wl := s.warmBase_wl
  gov := s.warmBase_gov
  lvl c := ⟨(s.warmBase_lvl c).1, (s.warmBase_lvl c).2.1⟩
  rd := s.warmBase_rd
  lines := State.warmRest_lines _ _

theorem WarmStopped.unconfigured {s t : State} (h : WarmStopped s t) : WarmStopped s t.unconfigure where
  clu n := by
    obtain ⟨⟨-, hreason, -, -⟩, -, -⟩ := h.clu n
    rw [State.unconfigure_clu]
    exact ⟨⟨rfl, hreason, rfl, rfl⟩, fun _ => rfl, fun _ => rfl⟩
  wl := t.unconfigure_wl
  gov := t.unconfigure_gov
  lvl c := by
    obtain ⟨r, hr⟩ := t.unconfigure_lvl c
    rw [hr]
    exact ⟨rfl, rfl⟩
  rd g := (t.unconfigure_rd g).trans (h.rd g)
  lines := t.unconfigure_lines

theorem WarmStopped.framed {l : List Field} {s t u : State} (h : WarmStopped s t) (hw : Within l t u) (hc : Field.clu ∉ l := by decide)
    (hl : Field.wl ∉ l := by decide) (hg : Field.gov ∉ l := by decide) (hv : Field.lvl ∉ l := by decide) (hp : Field.pg ∉ l := by decide)
    (ht : Field.trg ∉ l := by decide) (hb : Field.brg ∉ l := by decide) : WarmStopped s u where
  clu n := by rw [hw.cluEq hc]; exact h.clu n
  wl w := by rw [hw.wlEq hl]; exact h.wl w
  gov := (hw.govEq hg).trans h.gov
  lvl c := by rw [hw.lvlEq hv]; exact h.lvl c
  rd g := by rw [hw.pgEq hp]; exact h.rd g
  lines := by rw [hw.trgEq ht, hw.brgEq hb]; exact h.lines

theorem State.warmTake_stopped (s : State) : WarmStopped s s.warmTake := by
  rw [State.warmTake_eq]
  refine WarmStopped.framed ?_ (State.warmEnter_within _)
  unfold State.warmLoad
  split
  · exact s.warmBase_stopped.unconfigured.framed (State.modImg_within _ _)
  · exact s.warmBase_stopped

theorem State.warmEnter_pwr (s : State) : s.warmEnter.pwr.phase = .resetting ∧ s.warmEnter.pwr.rstCause = 3 ∧ s.warmEnter.pwr.held = [] := by
  unfold State.warmEnter
  dsimp only
  rw [(State.watchPause_within _).pwrEq, (State.linkReset_within _).pwrEq, (State.misalign_within _ _).pwrEq]
  exact ⟨rfl, rfl, rfl⟩

theorem and_not_and (x m : BitVec 16) : x &&& ~~~m &&& m = 0 := by
  apply BitVec.eq_of_getLsbD_eq
  intro i hi
  simp only [BitVec.getLsbD_and, BitVec.getLsbD_not, hi, decide_true, Bool.true_and]
  cases m.getLsbD i <;> simp

theorem State.misalign_aligned (s : State) (m : BitVec 16) : (s.misalign m).clk.aligned = s.clk.aligned &&& ~~~m := by
  unfold State.misalign
  have hports : ∀ u : State, ((allFin 4).foldl (fun s p => if m.getLsbD (12 + p.val) then s.modPort p (fun q => { q with misaligned := true })
      else s) u).clk = u.clk := fun u => foldl_keeps State.clk _ _ (fun v p => by split <;> rfl) u
  show ((allFin 4).foldl _ s).clk.aligned &&& ~~~m = _
  rw [hports]

theorem State.warmEnter_aligned (s : State) : s.warmEnter.clk.aligned &&& 0x0FFF = 0 := by
  unfold State.warmEnter
  dsimp only
  rw [(State.watchPause_within _).clkEq, (State.linkReset_within _).clkEq, State.misalign_aligned]
  exact and_not_and _ _

theorem State.warmLoad_of_idle {s : State} (h : s.loading = false) : s.warmLoad = s := by
  unfold State.warmLoad
  rw [h]
  rfl

theorem State.warmLoad_of_loading {s : State} (h : s.loading = true) : s.warmLoad = s.unconfigure.modImg (fun i => { i with aborted := true }) := by
  unfold State.warmLoad
  rw [h]
  rfl

theorem State.unconfigure_aborted (s : State) : (s.unconfigure.modImg (fun i => { i with aborted := true })).img.state = .unconfigured ∧
    (s.unconfigure.modImg (fun i => { i with aborted := true })).img.aborted = true := by
  have h := s.unconfigure_img
  generalize s.unconfigure = u at *
  show u.img.state = .unconfigured ∧ true = true
  rw [h]
  exact ⟨rfl, rfl⟩

/-! ### The statement -/

theorem exec_warmReset {s : State} (hu : s.undef = false) (hh : s.heldInReset = false) : exec .warmReset s = .next (
    if s.flt.safePark then s.cmdDrop (clkA 0x10) (bit32 8)
    else if s.pwr.phase = .resetting then
      ({ s with more := smMod (fun _ => 0) s.more (clkA 0x10) (fun w => w &&& ~~~(bit32 8)) }).setBit (clkA 0xC) 6
    else if s.pwr.phase = .none ∨ s.pwr.phase = .quiet then s.warmTake
    else (s.cmdTake (clkA 0x10) (bit32 8)).setBit (clkA 0xC) 6) := by
  show execWarmReset s = _
  rw [execWarmReset, guarded_next hu]
  exact congrArg Host.Outcome.next (if_neg (by rw [hh]; decide))

/-- In safe park the write goes without effect (R461). -/
theorem warmReset_parked {s : State} (hu : s.undef = false) (hh : s.heldInReset = false) (hp : s.flt.safePark = true) :
    Gives .warmReset s (fun t => (t.cmdWord (clkA 0x10)).getLsbD 8 = false ∧ CmdsBut [clkA 0x10] s t ∧ Within [.cmd, .more] s t) := by
  obtain ⟨hword, -, hcmds⟩ := s.cmdDrop_drops (clkA 0x10) (bit32 8)
  refine ⟨_, (exec_warmReset hu hh).trans (congrArg _ (if_pos hp)), ?_, hcmds, State.cmdDrop_within _ _ _⟩
  rw [hword, BitVec.getLsbD_and, BitVec.getLsbD_not, bit32_self (by decide)]
  simp

/-- While a request or a warm reset is in progress it is dropped with CMD_DROPPED (R446). -/
theorem warmReset_dropped {s : State} (hu : s.undef = false) (hh : s.heldInReset = false) (hp : s.flt.safePark = false)
    (hn : s.pwr.phase ≠ .none) (hq : s.pwr.phase ≠ .quiet) : Gives .warmReset s (fun t =>
      t.flag (clkA 0xC) = s.flag (clkA 0xC) ||| bit32 6 ∧ FlagsBut [clkA 0xC] s t ∧ Within [.flg, .cmd, .more, .msix] s t) := by
  have hpend : clkA 0xC ∉ pendWords := by decide
  have hx := exec_warmReset hu hh
  rw [if_neg (by rw [hp]; decide)] at hx
  have hset : ∀ u : State, Within [.cmd, .more] s u → (u.setBit (clkA 0xC) 6).flag (clkA 0xC) = s.flag (clkA 0xC) ||| bit32 6 ∧
      FlagsBut [clkA 0xC] s (u.setBit (clkA 0xC) 6) ∧ Within [.flg, .cmd, .more, .msix] s (u.setBit (clkA 0xC) 6) := fun u hw =>
    ⟨by rw [State.flag_setBit_self u 6 hpend, hw.flagEq], (hw.flagsBut _).setBit 6 (List.mem_singleton.2 rfl),
      (hw.mono (by decide)).step (State.setBit_within _ _ _) (by decide)⟩
  by_cases hr : s.pwr.phase = .resetting
  · rw [if_pos hr] at hx
    exact ⟨_, hx, hset _ ((Within.set_more s _ (smWf_mod _ _ _ _)).mono (by decide))⟩
  · rw [if_neg hr, if_neg (by simp [hn, hq])] at hx
    exact ⟨_, hx, hset _ (State.cmdTake_within s _ _)⟩

/-- What the load finds is the state before but for what the reset has stopped. -/
theorem State.warmBase_within (s : State) : Within [.clk, .ovl, .trg, .cfg, .eff, .flg, .ctr, .cmd, .more, .tabs, .was, .clu, .wl, .gov, .pg, .pin,
    .lvl, .lg, .mon, .brg, .dram, .bytes, .mem, .host, .msix, .flt, .plc, .freeN] s s.warmBase := by
  unfold State.warmBase
  exact (((s.warmOutputs_within.mono (by decide)).step (State.warmGroups_within _) (by decide)).step (State.warmDram_within _) (by decide)).step
    (State.warmRest_within _ _) (by decide)

/-- Settles O11: the clusters stop before lanes and levels do, and nothing after them starts one again; a load in progress ends with the device
unconfigured, which keeps the STOP_REASON and the read counts. -/
theorem warmResetStopsEverything : Obligations.WarmResetStopsEverything := by
  unfold Obligations.WarmResetStopsEverything
  intro s hu hh
  refine ⟨fun hp => warmReset_parked hu hh hp, fun hp hn hq => warmReset_dropped hu hh hp hn hq, fun hp hphase => ?_⟩
  have hx : exec .warmReset s = .next s.warmTake := by
    have hr : s.pwr.phase ≠ .resetting := fun e => by rw [e] at hphase; simp at hphase
    rw [exec_warmReset hu hh, if_neg (by rw [hp]; decide), if_neg hr, if_pos hphase]
  have hframe := s.warmTake_within
  have hpwr : s.warmTake.pwr.phase = .resetting ∧ s.warmTake.pwr.rstCause = 3 ∧ s.warmTake.pwr.held = [] := by
    rw [State.warmTake_eq]
    exact State.warmEnter_pwr _
  have hstop := s.warmTake_stopped
  obtain ⟨htrg, hflight, hevo⟩ := hstop.lines
  have henter := s.warmBase.warmLoad.warmEnter_within
  have hbase := s.warmBase_within
  have hloading : s.warmBase.loading = s.loading := by unfold State.loading; rw [hbase.imgEq]
  have haligned : s.warmTake.clk.aligned &&& 0x0FFF = 0 := by rw [State.warmTake_eq]; exact State.warmEnter_aligned _
  have hclu : ∀ n : Clu, s.loading = false → s.warmTake.clu[n].pend = s.clu[n].pend ∧ s.warmTake.clu[n].arriving = s.clu[n].arriving :=
    fun n hl => by
      rw [State.warmTake_eq, getClu_of_eq (henter.cluEq (by decide)), State.warmLoad_of_idle (hloading.trans hl)]
      exact (s.warmBase_clu n).requests
  have hkept : s.loading = false → s.warmTake.img = s.img ∧
      (∀ c : Lvl, s.warmTake.lvl[c].span = s.lvl[c].span ∧ s.warmTake.lvl[c].active = s.lvl[c].active) ∧
      (s.dram.configured = true → s.warmTake.dram.selfRefresh = true ∧ s.warmTake.dram.ready = false ∧ s.warmTake.dram.training = .none) :=
    fun hl => by
      rw [State.warmLoad_of_idle (hloading.trans hl)] at henter
      rw [State.warmTake_eq, State.warmLoad_of_idle (hloading.trans hl), henter.imgEq, hbase.imgEq, henter.lvlEq, henter.dramEq]
      exact ⟨rfl, fun c => (s.warmBase_lvl c).2.2, s.warmBase_dram⟩
  have hgone : s.loading = true → s.warmTake.img.state = .unconfigured ∧ s.warmTake.img.aborted = true := fun hl => by
    rw [State.warmTake_eq, henter.imgEq, State.warmLoad_of_loading (hloading.trans hl)]
    exact State.unconfigure_aborted _
  refine ⟨s.warmTake, hx, hpwr.1, hpwr.2.1, hpwr.2.2, fun n => ?_, hstop.wl, hstop.gov, hstop.lvl, hstop.rd, htrg, hflight, hevo, haligned, hkept, hgone,
    hframe.partEq, hframe.jtagEq, hframe.smbEq, hframe.xramEq, hframe.pendingEq⟩
  obtain ⟨⟨hidle, hreason, hstack, hpark⟩, hsched, hhosted⟩ := hstop.clu n
  exact ⟨hidle, hreason, hstack, hpark, hsched, hhosted, hclu n⟩

end Sys2Proof.Machine
end

