-- ==== Sys2Proof/Proofs/OverlaySlots.lean ====
section
/-! PROOF. The slot commands of the overlays and what their results say (R54 to R56, R61, R65; O22). -/
namespace Sys2Proof.Machine

/-! ### Results and reads of the loader -/

/-- A result names its slot, its code and its section, and touches no slot. -/
def Overlay.told (o : Overlay) (k : Fin 16) (code sect : Nat) : Overlay :=
  { o with resSlot := BitVec.ofNat 4 k.val, resCode := BitVec.ofNat 8 code, resSection := BitVec.ofNat 8 sect }

theorem State.ovlResult_ovl (s : State) (k : Fin 16) (code sect bit : Nat) : (s.ovlResult k code sect bit).ovl = s.ovl.told k code sect :=
  (State.setBit_within _ 0x138 bit).ovlEq

theorem State.ovlResult_flag (s : State) (k : Fin 16) (code sect bit : Nat) :
    (s.ovlResult k code sect bit).flag 0x138 = s.flag 0x138 ||| bit32 bit :=
  State.flag_setBit_self (s.modOvl (fun o => o.told k code sect)) bit (by decide)

theorem State.ovlResult_flagsBut (s : State) (k : Fin 16) (code sect bit : Nat) : FlagsBut [0x138] s (s.ovlResult k code sect bit) :=
  FlagsBut.setBit (t := s.modOvl (fun o => o.told k code sect)) (fun _ _ _ => rfl) bit (List.mem_singleton_self 0x138)

theorem slots_set_other (v : Vector OvlSlot 16) {j i : Fin 16} (o : OvlSlot) (hi : i ≠ j) : (v.set j o)[i] = v[i] :=
  Vector.getElem_set_ne j.isLt i.isLt (fun e => hi (Fin.ext e.symm))

theorem slot_ofNat_toNat (k : Fin 16) : (BitVec.ofNat 4 k.val).toNat = k.val := by
  rw [BitVec.toNat_ofNat]
  omega

theorem FlagsBut.activate (s : State) (g : Chan) (bank : Fin 16) (row : Nat) : FlagsBut [drmA 0x24] s (s.activate g bank row) := by
  have hsame : ∀ u : State, Within [.ctr, .dram] s u → FlagsBut [drmA 0x24] s u := fun u hw => hw.flagsBut _
  have hdraw : ∀ f, Within [.ctr, .dram] s (s.modChan g f) := fun f => (State.modChan_within s g f).mono (by decide)
  unfold State.activate
  split
  · exact FlagsBut.refl _ s
  · dsimp only
    split
    · exact hsame _ (hdraw _)
    · split
      · exact (hsame _ ((hdraw _).step (State.count_within _ _ 1) (by decide))).setBit 8 (List.mem_singleton_self _)
      · exact hsame _ ((hdraw _).step (State.modChan_within _ g _) (by decide))

theorem FlagsBut.bankAccess (s : State) (a : Nat) : FlagsBut [drmA 0x24] s (s.bankAccess a) := by
  unfold State.bankAccess
  dsimp only
  split
  · exact (State.modChan_within s _ _).flagsBut _
  · exact (FlagsBut.activate s _ _ _).trans ((State.modChan_within _ _ _).flagsBut _)

/-- The units that the loader reads. -/
def State.loaderAccesses (s : State) (k : Fin 16) : State :=
  ((s.slotUnits k).filter (fun u => !s.ovl.loaded.contains u)).foldl (fun s u => s.bankAccess (u * 64)) s

theorem State.loaderAccesses_within (s : State) (k : Fin 16) : Within [.flg, .ctr, .dram, .msix] s (s.loaderAccesses k) :=
  Within.fold (Within.refl _ s) fun u x h => h.step (State.bankAccess_within u (x * 64)) (by decide)

theorem State.loaderAccesses_flags (s : State) (k : Fin 16) : FlagsBut [drmA 0x24] s (s.loaderAccesses k) :=
  foldl_rel (FlagsBut [drmA 0x24]) (FlagsBut.refl _) (fun h k => h.trans k) _ (fun u x => FlagsBut.bankAccess u (x * 64)) _ s

theorem State.loaderDone_eq (s : State) (k : Fin 16) : s.loaderDone k =
    { (s.loaderAccesses k).modOvl (fun o => { o with loaded := [], unread := [] }) with
      freeN := if s.ovl.unread ≠ [] then (s.loaderAccesses k).freeN + 1 else (s.loaderAccesses k).freeN } := rfl

theorem State.loaderDone_ovl (s : State) (k : Fin 16) : (s.loaderDone k).ovl = { s.ovl with loaded := [], unread := [] } := by
  have hread : ∀ (u : State) (n : Nat), ({ u.modOvl (fun o => { o with loaded := [], unread := [] }) with freeN := n } : State).ovl =
      { u.ovl with loaded := [], unread := [] } := fun _ _ => rfl
  rw [State.loaderDone_eq, hread, (s.loaderAccesses_within k).ovlEq]

theorem State.loaderDone_flags (s : State) (k : Fin 16) : FlagsBut [drmA 0x24] s (s.loaderDone k) := by
  have hsame : ∀ (u : State) (n : Nat), FlagsBut [drmA 0x24] s u →
      FlagsBut [drmA 0x24] s { u.modOvl (fun o => { o with loaded := [], unread := [] }) with freeN := n } := fun _ _ h => h
  rw [State.loaderDone_eq]
  exact hsame _ _ (s.loaderAccesses_flags k)

/-! ### A command that is dropped -/

/-- SLOT_STATE is told of, and no slot moves. -/
structure SlotDropped (k : Fin 16) (s t : State) : Prop where
  slots : t.ovl.slots = s.ovl.slots
  queue : t.ovl.queue = s.ovl.queue
  code : t.ovl.resCode = 0x15
  slot : t.ovl.resSlot.toNat = k.val
  section_ : t.ovl.resSection = 255
  flag : t.flag 0x138 = s.flag 0x138 ||| bit32 13
  flags : FlagsBut [0x138] s t

theorem State.ovlDrop_ovl (s : State) (k : Fin 16) : (s.ovlDrop k).ovl = s.ovl.told k 0x15 255 := s.ovlResult_ovl k 0x15 255 13

theorem State.ovlDrop_dropped (s : State) (k : Fin 16) : SlotDropped k s (s.ovlDrop k) where
  slots := by rw [State.ovlDrop_ovl]; rfl
  queue := by rw [State.ovlDrop_ovl]; rfl
  code := by rw [State.ovlDrop_ovl]; rfl
  slot := by rw [State.ovlDrop_ovl]; exact slot_ofNat_toNat k
  section_ := by rw [State.ovlDrop_ovl]; rfl
  flag := s.ovlResult_flag k 0x15 255 13
  flags := s.ovlResult_flagsBut k 0x15 255 13

theorem State.ovlDrop_validating (s : State) (k : Fin 16) : (s.ovlDrop k).ovl.validating = s.ovl.validating := by
  rw [State.ovlDrop_ovl]
  rfl

/-- What came before the drop moved no slot and no flag. -/
theorem SlotDropped.after {k : Fin 16} {l : List Field} {s t u : State} (h : SlotDropped k t u) (hw : Within l s t)
    (hs : t.ovl.slots = s.ovl.slots) (hq : t.ovl.queue = s.ovl.queue) (hf : Field.flg ∉ l := by decide) : SlotDropped k s u where
  slots := h.slots.trans hs
  queue := h.queue.trans hq
  code := h.code
  slot := h.slot
  section_ := h.section_
  flag := by rw [h.flag, hw.flagEq _ hf]
  flags := (hw.flagsBut _ hf).trans h.flags

theorem SlotDropped.then {k : Fin 16} {l : List Field} {s t u : State} (h : SlotDropped k s t) (hw : Within l t u)
    (ho : Field.ovl ∉ l := by decide) (hf : Field.flg ∉ l := by decide) : SlotDropped k s u where
  slots := by rw [hw.ovlEq ho]; exact h.slots
  queue := by rw [hw.ovlEq ho]; exact h.queue
  code := by rw [hw.ovlEq ho]; exact h.code
  slot := by rw [hw.ovlEq ho]; exact h.slot
  section_ := by rw [hw.ovlEq ho]; exact h.section_
  flag := by rw [hw.flagEq _ hf]; exact h.flag
  flags := h.flags.trans (hw.flagsBut _ hf)

/-- The whole of what a dropped slot command leaves. -/
def SlotDrop (k : Fin 16) (s t : State) : Prop :=
  t.ovl.slots = s.ovl.slots ∧ t.ovl.queue = s.ovl.queue ∧ t.ovl.resCode = 0x15 ∧ t.ovl.resSlot.toNat = k.val ∧ t.ovl.resSection = 255 ∧
    t.flag 0x138 = s.flag 0x138 ||| bit32 13 ∧ FlagsBut [0x138] s t ∧ CmdsBut [0x130] s t ∧ Within [.ovl, .flg, .cmd, .more, .msix] s t

theorem SlotDropped.whole {k : Fin 16} {s t : State} (h : SlotDropped k s t) (hc : CmdsBut [0x130] s t)
    (hw : Within [.ovl, .flg, .cmd, .more, .msix] s t) : SlotDrop k s t :=
  ⟨h.slots, h.queue, h.code, h.slot, h.section_, h.flag, h.flags, hc, hw⟩

/-- A command that is taken and then dropped. -/
theorem State.takeDrop (s : State) (k : Fin 16) (i : Nat) : SlotDrop k s ((s.cmdTake 0x130 (bit32 i)).ovlDrop k) ∧
    Takes 0x130 (bit32 i) s ((s.cmdTake 0x130 (bit32 i)).ovlDrop k) := by
  have htake := s.cmdTake_takes 0x130 (bit32 i)
  have hdrop := State.ovlDrop_within (s.cmdTake 0x130 (bit32 i)) k
  exact ⟨((State.ovlDrop_dropped _ k).after (State.cmdTake_within s _ _) rfl rfl).whole (htake.2.2.trans (hdrop.cmdsBut _))
    (((State.cmdTake_within s _ _).mono (by decide)).step hdrop (by decide)), htake.then hdrop⟩

/-! ### VALIDATE -/

theorem ovlValidate_begins {s : State} (hu : s.undef = false) (hv : s.ovl.validating = none) (hp : s.prepared 5 = false)
    (hc : s.configured = true) (hk : s.slotIs s.ovlSlot .pending = false) : Gives .ovlValidate s (fun t =>
      t.ovl = { s.ovl with validating := some s.ovlSlot } ∧ Within [.ovl] s t) := by
  refine gives_branch hu rfl ?_ (u := s.modOvl (fun o => { o with validating := some s.ovlSlot })) ⟨rfl, State.modOvl_within s _⟩
  simp [hv, hp, hc, hk]

theorem ovlValidate_drops {s : State} (hu : s.undef = false) (hv : s.ovl.validating = none) (hp : s.prepared 5 = false)
    (h : s.configured = false ∨ s.slotIs s.ovlSlot .pending = true) : Gives .ovlValidate s (fun t =>
      SlotDrop s.ovlSlot s t ∧ Takes 0x130 (bit32 8) s t) := by
  have hdrop := s.ovlDrop_within s.ovlSlot
  have htake := (State.cmdTake_takes (s.ovlDrop s.ovlSlot) 0x130 (bit32 8)).from_eq hdrop.cmdEq hdrop.moreEq
  have hwithin := State.cmdTake_within (s.ovlDrop s.ovlSlot) 0x130 (bit32 8)
  refine gives_branch hu rfl ?_ (u := (s.ovlDrop s.ovlSlot).cmdTake 0x130 (bit32 8))
    ⟨((s.ovlDrop_dropped s.ovlSlot).then hwithin).whole htake.2.2 ((hdrop.mono (by decide)).step hwithin (by decide)), htake⟩
  rcases h with h | h <;> simp [hv, hp, h]

theorem ovlValidate_held {s : State} (hu : s.undef = false) (hp : s.prepared 5 = true) (hv : s.ovl.validating = none) :
    Gives .ovlValidate s (fun t => t.pwr.held = s.pwr.held ++ [.ovlValidate] ∧ Within [.pwr] s t) := by
  refine gives_branch hu rfl ?_ (u := s.hold .ovlValidate) ⟨rfl, State.hold_within s _⟩
  simp [hp, hv]

/-! ### The end of VALIDATE -/

/-- The slot as its check leaves it, with the result. -/
def State.validated (s : State) (k : Fin 16) (o : OvlSlot) (code sect bit : Nat) : State :=
  ((((s.loaderDone k).modOvl (fun o => { o with validating := none })).cmdTake 0x130 (bit32 8)).modSlot k (fun _ => o)).ovlResult k code sect bit

theorem State.validated_ovl (s : State) (k : Fin 16) (o : OvlSlot) (code sect bit : Nat) : (s.validated k o code sect bit).ovl =
    Overlay.told { s.ovl with slots := s.ovl.slots.set k o, validating := none, loaded := [], unread := [] } k code sect := by
  unfold State.validated
  have hrest : ∀ u : State, (((u.modOvl (fun o => { o with validating := none })).cmdTake 0x130 (bit32 8)).modSlot k (fun _ => o)).ovl =
      { u.ovl with validating := none, slots := u.ovl.slots.set k o } := fun u => rfl
  rw [State.ovlResult_ovl, hrest, State.loaderDone_ovl]

theorem State.validated_flags (s : State) (k : Fin 16) (o : OvlSlot) (code sect bit : Nat) :
    (s.validated k o code sect bit).flag 0x138 = s.flag 0x138 ||| bit32 bit ∧ FlagsBut [0x138, drmA 0x24] s (s.validated k o code sect bit) := by
  have hread := s.loaderDone_flags k
  have hsame : ∀ (u : State) a, (((u.modOvl (fun o => { o with validating := none })).cmdTake 0x130 (bit32 8)).modSlot k (fun _ => o)).flag a =
      u.flag a := fun _ _ => rfl
  unfold State.validated
  refine ⟨by rw [State.ovlResult_flag, hsame, hread 0x138 (by decide) (by decide)], fun a ha hp => ?_⟩
  rw [State.ovlResult_flagsBut _ k code sect bit a (fun hm => ha (List.mem_singleton.1 hm ▸ List.mem_cons_self)) hp, hsame,
    hread a (fun hm => ha (List.mem_cons_of_mem _ hm)) hp]

theorem State.validated_takes (s : State) (k : Fin 16) (o : OvlSlot) (code sect bit : Nat) :
    Takes 0x130 (bit32 8) s (s.validated k o code sect bit) := by
  have hread := (s.loaderDone_within k).mono (l := [.ovl, .flg, .ctr, .dram, .msix, .freeN]) (m := [.ovl, .flg, .ctr, .dram, .msix, .freeN]) (by decide)
  have hopen := hread.step (State.modOvl_within _ (fun o => { o with validating := none })) (by decide)
  have htake := (State.cmdTake_takes ((s.loaderDone k).modOvl (fun o => { o with validating := none })) 0x130 (bit32 8)).from_eq
    hopen.cmdEq hopen.moreEq
  exact (htake.then (State.modSlot_within _ k (fun _ => o))).then (State.ovlResult_within _ k code sect bit)

theorem State.validated_within (s : State) (k : Fin 16) (o : OvlSlot) (code sect bit : Nat) :
    Within [.ovl, .flg, .ctr, .cmd, .more, .dram, .msix, .freeN] s (s.validated k o code sect bit) := by
  unfold State.validated
  exact (((((s.loaderDone_within k).mono (by decide)).step (State.modOvl_within _ _) (by decide)).step (State.cmdTake_within _ _ _)
    (by decide)).step (State.modSlot_within _ k _) (by decide)).step (State.ovlResult_within _ k _ _ _) (by decide)

/-- What the end of a check says of every slot. -/
structure Validated (j : Fin 16) (o : OvlSlot) (code sect : BitVec 8) (bit : Nat) (s t : State) : Prop where
  slot : t.ovl.slots[j] = o
  validating : t.ovl.validating = none
  named : t.ovl.resSlot.toNat = j.val
  code : t.ovl.resCode = code
  section_ : t.ovl.resSection = sect
  flag : t.flag 0x138 = s.flag 0x138 ||| bit32 bit
  flags : FlagsBut [0x138, drmA 0x24] s t
  others : ∀ i : Fin 16, i ≠ j → t.ovl.slots[i] = s.ovl.slots[i]
  queue : t.ovl.queue = s.ovl.queue
  loaded : t.ovl.loaded = []
  unread : t.ovl.unread = []
  takes : Takes 0x130 (bit32 8) s t
  within : Within [.ovl, .flg, .ctr, .cmd, .more, .dram, .msix, .freeN] s t

theorem State.validated_says (s : State) (j : Fin 16) (o : OvlSlot) (code sect bit : Nat) :
    Validated j o (BitVec.ofNat 8 code) (BitVec.ofNat 8 sect) bit s (s.validated j o code sect bit) where
  slot := by rw [State.validated_ovl]; exact Vector.getElem_set_self j.isLt
  validating := by rw [State.validated_ovl]; rfl
  named := by rw [State.validated_ovl]; exact slot_ofNat_toNat j
  code := by rw [State.validated_ovl]; rfl
  section_ := by rw [State.validated_ovl]; rfl
  flag := (s.validated_flags j o code sect bit).1
  flags := (s.validated_flags j o code sect bit).2
  others i hi := by rw [State.validated_ovl]; exact slots_set_other s.ovl.slots o hi
  queue := by rw [State.validated_ovl]; rfl
  loaded := by rw [State.validated_ovl]; rfl
  unread := by rw [State.validated_ovl]; rfl
  takes := s.validated_takes j o code sect bit
  within := s.validated_within j o code sect bit

theorem ovlValidateDone_waits {s : State} (hu : s.undef = false) (hv : s.ovl.validating ≠ none) (h : s.dram.ready = false ∨ s.loaderReads = true) :
    Gives .ovlValidateDone s (fun t => t = s) := by
  obtain ⟨k, hk⟩ := Option.ne_none_iff_exists'.1 hv
  have hb : (s.dram.ready && !s.loaderReads) = false := by rcases h with h | h <;> simp [h]
  refine gives_branch hu rfl ?_ (u := s) rfl
  simp only [hk, hb]

theorem exec_validateDone {s : State} {k : Fin 16} (hu : s.undef = false) (hv : s.ovl.validating = some k) (hr : s.dram.ready = true)
    (hl : s.loaderReads = false) : exec .ovlValidateDone s = .next (match s.imageCheck (s.slotBytes k) true none with
      | some (code, sect) => s.validated k {} code sect 13
      | none => s.validated k { state := .valid, digest := some (sha384 (s.slotBytes k)), mask := BitVec.ofNat 8 (hdrMask (s.slotBytes k)) }
          0 255 12) := by
  have hb : (s.dram.ready && !s.loaderReads) = true := by rw [hr, hl]; rfl
  show execOvlValidateDone s = _
  rw [execOvlValidateDone, guarded_next hu]
  simp only [hv, hb]
  rfl

/-! ### APPLY -/

/-- A VALIDATE that waits goes first (R409). -/
def State.validateWaits (s : State) : Prop :=
  (s.cmdWord 0x130).getLsbD 8 = true ∧ s.ovl.validating = none ∧ s.configured = true ∧ s.slotIs s.ovlSlot .pending = false

theorem State.validateFirst_of {s : State} (h : s.validateWaits) : s.validateFirst = s.modOvl (fun o => { o with validating := some s.ovlSlot }) := by
  obtain ⟨hbit, hnone, hconf, hpend⟩ := h
  unfold State.validateFirst
  dsimp only
  rw [if_pos (by rw [hbit, hnone, hconf, hpend]; rfl)]

theorem State.validateFirst_of_not {s : State} (h : ¬ s.validateWaits) : s.validateFirst = s := by
  unfold State.validateFirst
  dsimp only
  rw [if_neg]
  intro hc
  simp only [Bool.and_eq_true, Bool.not_eq_true', Option.isNone_iff_eq_none] at hc
  exact h ⟨hc.1.1.1, hc.1.1.2, hc.1.2, hc.2⟩

/-- One write of APPLY is taken, its bit with the last (R65, R409). -/
structure ApplyTaken (s t : State) : Prop where
  applies : t.ovl.applies = s.ovl.applies - 1
  last : s.ovl.applies ≤ 1 → Drops 0x130 (bit32 9) s t
  more : 1 < s.ovl.applies → t.cmd = s.cmd ∧ t.more = s.more

theorem ApplyTaken.then {l : List Field} {s t u : State} (h : ApplyTaken s t) (hw : Within l t u) (ha : u.ovl.applies = t.ovl.applies)
    (hc : Field.cmd ∉ l := by decide) (hm : Field.more ∉ l := by decide) : ApplyTaken s u where
  applies := ha.trans h.applies
  last hn := by
    obtain ⟨hword, hfurther, hbut⟩ := h.last hn
    exact ⟨(hw.cmdWordEq _ hc).trans hword, (hw.moreWordEq _ hm).trans hfurther, hbut.trans (hw.cmdsBut _ hc hm)⟩
  more hn := ⟨(hw.cmdEq hc).trans (h.more hn).1, (hw.moreEq hm).trans (h.more hn).2⟩

theorem State.applyTaken_taken (s : State) : ApplyTaken s s.applyTaken := by
  unfold State.applyTaken
  dsimp only
  split
  · next hn => exact ⟨rfl, fun _ => State.cmdDrop_drops s 0x130 (bit32 9), fun h => absurd hn (by omega)⟩
  · next hn => exact ⟨rfl, fun h => absurd (show s.ovl.applies - 1 = 0 by omega) hn, fun _ => ⟨rfl, rfl⟩⟩

theorem State.applyTaken_ovl (s : State) : s.applyTaken.ovl = { s.ovl with applies := s.ovl.applies - 1 } := by
  unfold State.applyTaken
  dsimp only
  split <;> rfl

/-- What APPLY finds: the VALIDATE that goes first, then its own write taken. -/
def State.applyFound (s : State) : State := s.validateFirst.applyTaken

theorem State.applyFound_ovl (s : State) : s.applyFound.ovl =
    { s.ovl with validating := s.validateFirst.ovl.validating, applies := s.ovl.applies - 1 } := by
  unfold State.applyFound
  rw [State.applyTaken_ovl]
  by_cases h : s.validateWaits
  · rw [State.validateFirst_of h]
    rfl
  · rw [State.validateFirst_of_not h]

theorem State.applyFound_taken (s : State) : ApplyTaken s s.applyFound := by
  have htaken := s.validateFirst.applyTaken_taken
  have hfirst := s.validateFirst_within
  have hsame : s.validateFirst.ovl.applies = s.ovl.applies := by
    by_cases h : s.validateWaits
    · rw [State.validateFirst_of h]
      rfl
    · rw [State.validateFirst_of_not h]
  refine ⟨by rw [State.applyFound_ovl], fun hn => ?_, fun hn => ?_⟩
  · obtain ⟨hword, hfurther, hbut⟩ := htaken.last (by rw [hsame]; exact hn)
    exact ⟨by rw [State.applyFound, hword, hfirst.cmdWordEq], by rw [State.applyFound, hfurther, hfirst.moreWordEq],
      (hfirst.cmdsBut _).trans hbut⟩
  · obtain ⟨hcmd, hmore⟩ := htaken.more (by rw [hsame]; exact hn)
    exact ⟨hcmd.trans hfirst.cmdEq, hmore.trans hfirst.moreEq⟩

theorem State.applyFound_within (s : State) : Within [.ovl, .cmd, .more] s s.applyFound :=
  (s.validateFirst_within.mono (by decide)).step (State.applyTaken_within _) (by decide)

theorem CmdsBut.of_taken {s t : State} (h : ApplyTaken s t) : CmdsBut [0x130] s t := by
  by_cases hn : s.ovl.applies ≤ 1
  · exact (h.last hn).2.2
  · obtain ⟨hcmd, hmore⟩ := h.more (by omega)
    exact fun a _ => ⟨congrArg (fun m => smGet (fun _ => 0) m a) hcmd, congrArg (fun m => smGet (fun _ => 0) m a) hmore⟩

/-- The slot takes APPLY (R54, R56). -/
def State.mayApply (s : State) : Prop :=
  s.configured = true ∧ (s.slotIs s.ovlSlot .valid = true ∨ s.slotIs s.ovlSlot .applied = true) ∧ s.ovl.validating ≠ some s.ovlSlot ∧
    ¬ s.validateWaits

theorem exec_ovlApply {s : State} (hu : s.undef = false) (hp : s.prepared 5 = false) : exec .ovlApply s = .next
    (if s.applyFound.configured && (s.applyFound.slotIs s.ovlSlot .valid || s.applyFound.slotIs s.ovlSlot .applied) &&
        decide (s.applyFound.ovl.validating ≠ some s.ovlSlot) then
      (s.applyFound.modSlot s.ovlSlot (fun o => { o with state := .pending })).modOvl (fun o => { o with queue := o.queue ++ [s.ovlSlot] })
    else s.applyFound.ovlDrop s.ovlSlot) := by
  show execOvlApply s = _
  rw [execOvlApply, guarded_next hu]
  rw [hp]
  rfl

/-- What APPLY finds lets it go on in just these cases. -/
theorem State.applyFound_may (s : State) : (s.applyFound.configured && (s.applyFound.slotIs s.ovlSlot .valid ||
    s.applyFound.slotIs s.ovlSlot .applied) && decide (s.applyFound.ovl.validating ≠ some s.ovlSlot)) = true ↔ s.mayApply := by
  have hconf : s.applyFound.configured = s.configured := by unfold State.configured; rw [s.applyFound_within.imgEq]
  have hslot : ∀ x, s.applyFound.slotIs s.ovlSlot x = s.slotIs s.ovlSlot x := fun x => by unfold State.slotIs; rw [State.applyFound_ovl]
  have hval : s.applyFound.ovl.validating = s.validateFirst.ovl.validating := by rw [State.applyFound_ovl]
  unfold State.mayApply
  rw [hconf, hslot, hslot, hval]
  by_cases h : s.validateWaits
  · have hself : (s.modOvl (fun o => { o with validating := some s.ovlSlot })).ovl.validating = some s.ovlSlot := rfl
    rw [State.validateFirst_of h, hself]
    simp [h]
  · rw [State.validateFirst_of_not h]
    simp [h, and_assoc]

theorem ovlApply_pends {s : State} (hu : s.undef = false) (hp : s.prepared 5 = false) (hm : s.mayApply) : Gives .ovlApply s (fun t =>
    t.ovl.slots[s.ovlSlot] = { s.ovl.slots[s.ovlSlot] with state := .pending } ∧ t.ovl.queue = s.ovl.queue ++ [s.ovlSlot] ∧
      (∀ j : Fin 16, j ≠ s.ovlSlot → t.ovl.slots[j] = s.ovl.slots[j]) ∧ ApplyTaken s t ∧ Within [.ovl, .cmd, .more] s t) := by
  have hx := exec_ovlApply hu hp
  rw [if_pos (s.applyFound_may.2 hm)] at hx
  have hw : Within [.ovl] s.applyFound ((s.applyFound.modSlot s.ovlSlot (fun o => { o with state := .pending })).modOvl
      (fun o => { o with queue := o.queue ++ [s.ovlSlot] })) := (State.modSlot_within _ _ _).step (State.modOvl_within _ _) (by decide)
  have hslots : s.applyFound.ovl.slots = s.ovl.slots := by rw [State.applyFound_ovl]
  have hqueue : s.applyFound.ovl.queue = s.ovl.queue := by rw [State.applyFound_ovl]
  refine ⟨_, hx, ?_, ?_, fun j hj => ?_, s.applyFound_taken.then hw rfl, s.applyFound_within.step hw (by decide)⟩
  · rw [← hslots]
    exact Vector.getElem_set_self s.ovlSlot.isLt
  · rw [← hqueue]
    rfl
  · rw [← hslots]
    exact slots_set_other s.applyFound.ovl.slots _ hj

theorem ovlApply_drops {s : State} (hu : s.undef = false) (hp : s.prepared 5 = false) (hm : ¬ s.mayApply) : Gives .ovlApply s (fun t =>
    SlotDrop s.ovlSlot s t ∧ ApplyTaken s t ∧ (s.validateWaits → t.ovl.validating = some s.ovlSlot) ∧
      (¬ s.validateWaits → t.ovl.validating = s.ovl.validating)) := by
  have hx := exec_ovlApply hu hp
  rw [if_neg (fun h => hm (s.applyFound_may.1 h))] at hx
  have hdrop := s.applyFound.ovlDrop_within s.ovlSlot
  have htaken := s.applyFound_taken.then hdrop ((by rw [State.ovlDrop_ovl]; rfl))
  have hval : (s.applyFound.ovlDrop s.ovlSlot).ovl.validating = s.validateFirst.ovl.validating := by
    rw [State.ovlDrop_validating, State.applyFound_ovl]
  refine ⟨_, hx, ((State.ovlDrop_dropped _ _).after s.applyFound_within (by rw [State.applyFound_ovl]) (by rw [State.applyFound_ovl])).whole
    (CmdsBut.of_taken htaken) ((s.applyFound_within.mono (by decide)).step hdrop (by decide)), htaken, fun h => ?_, fun h => ?_⟩
  · rw [hval, State.validateFirst_of h]
    rfl
  · rw [hval, State.validateFirst_of_not h]

theorem ovlApply_held {s : State} (hu : s.undef = false) (hp : s.prepared 5 = true) :
    Gives .ovlApply s (fun t => t.pwr.held = s.pwr.held ++ [.ovlApply] ∧ Within [.pwr] s t) := by
  refine gives_branch hu rfl ?_ (u := s.hold .ovlApply) ⟨rfl, State.hold_within s _⟩
  simp [hp]

/-! ### CANCEL and RELEASE -/

/-- A slot command that is taken and moves its slot. -/
theorem State.takeSlot (s : State) (k : Fin 16) (i : Nat) (f : OvlSlot → OvlSlot) :
    ((s.cmdTake 0x130 (bit32 i)).modSlot k f).ovl.slots[k] = f s.ovl.slots[k] ∧
    (∀ j : Fin 16, j ≠ k → ((s.cmdTake 0x130 (bit32 i)).modSlot k f).ovl.slots[j] = s.ovl.slots[j]) ∧
    Takes 0x130 (bit32 i) s ((s.cmdTake 0x130 (bit32 i)).modSlot k f) ∧
    Within [.ovl, .cmd, .more] s ((s.cmdTake 0x130 (bit32 i)).modSlot k f) :=
  ⟨Vector.getElem_set_self k.isLt, fun _ hj => slots_set_other s.ovl.slots _ hj,
    (s.cmdTake_takes 0x130 (bit32 i)).then (State.modSlot_within _ k f),
    ((State.cmdTake_within s _ _).mono (by decide)).step (State.modSlot_within _ k f) (by decide)⟩

theorem ovlCancel_begun {s : State} (hu : s.undef = false) (ha : s.ovl.applying = some s.ovlSlot) :
    Gives .ovlCancel s (fun t => Takes 0x130 (bit32 10) s t ∧ Within [.cmd, .more] s t) :=
  gives_branch hu rfl (if_pos ha) ⟨s.cmdTake_takes 0x130 (bit32 10), State.cmdTake_within s _ _⟩

theorem ovlCancel_returns {s : State} (hu : s.undef = false) (ha : s.ovl.applying ≠ some s.ovlSlot)
    (h : s.configured = true ∧ s.slotIs s.ovlSlot .pending = true) : Gives .ovlCancel s (fun t =>
      t.ovl.slots[s.ovlSlot] = { s.ovl.slots[s.ovlSlot] with state := .valid } ∧
      t.ovl.queue = s.ovl.queue.filter (fun x => decide (x ≠ s.ovlSlot)) ∧ (∀ j : Fin 16, j ≠ s.ovlSlot → t.ovl.slots[j] = s.ovl.slots[j]) ∧
      Takes 0x130 (bit32 10) s t ∧ Within [.ovl, .cmd, .more] s t) := by
  obtain ⟨hself, hothers, htakes, hw⟩ := s.takeSlot s.ovlSlot 10 (fun o => { o with state := .valid })
  have hq := State.modOvl_within ((s.cmdTake 0x130 (bit32 10)).modSlot s.ovlSlot (fun o => { o with state := .valid }))
    (fun o => { o with queue := o.queue.filter (fun x => decide (x ≠ s.ovlSlot)) })
  exact gives_branch hu rfl ((if_neg ha).trans (if_pos (Bool.and_eq_true_iff.2 h)))
    ⟨hself, rfl, hothers, htakes.then hq, hw.step hq (by decide)⟩

theorem ovlCancel_drops {s : State} (hu : s.undef = false) (ha : s.ovl.applying ≠ some s.ovlSlot)
    (h : ¬ (s.configured = true ∧ s.slotIs s.ovlSlot .pending = true)) : Gives .ovlCancel s (fun t =>
      SlotDrop s.ovlSlot s t ∧ Takes 0x130 (bit32 10) s t) :=
  gives_branch hu rfl ((if_neg ha).trans (if_neg (fun hb => h (Bool.and_eq_true_iff.1 hb)))) (s.takeDrop s.ovlSlot 10)

/-- A slot that RELEASE frees. -/
def State.mayRelease (s : State) : Prop :=
  s.configured = true ∧ (s.slotIs s.ovlSlot .valid = true ∨ s.slotIs s.ovlSlot .applied = true)

theorem State.mayRelease_iff (s : State) :
    (s.configured && (s.slotIs s.ovlSlot .valid || s.slotIs s.ovlSlot .applied)) = true ↔ s.mayRelease := by
  rw [State.mayRelease, Bool.and_eq_true_iff, Bool.or_eq_true_iff]

theorem ovlRelease_frees {s : State} (hu : s.undef = false) (h : s.mayRelease) : Gives .ovlRelease s (fun t =>
    t.ovl.slots[s.ovlSlot] = {} ∧ t.ovl.queue = s.ovl.queue ∧ (∀ j : Fin 16, j ≠ s.ovlSlot → t.ovl.slots[j] = s.ovl.slots[j]) ∧
      Takes 0x130 (bit32 11) s t ∧ Within [.ovl, .cmd, .more] s t) := by
  obtain ⟨hself, hothers, htakes, hw⟩ := s.takeSlot s.ovlSlot 11 (fun _ => {})
  exact gives_branch hu rfl (if_pos (s.mayRelease_iff.2 h)) ⟨hself, rfl, hothers, htakes, hw⟩

theorem ovlRelease_drops {s : State} (hu : s.undef = false) (h : ¬ s.mayRelease) : Gives .ovlRelease s (fun t =>
    SlotDrop s.ovlSlot s t ∧ Takes 0x130 (bit32 11) s t) :=
  gives_branch hu rfl (if_neg (fun hb => h (s.mayRelease_iff.1 hb))) (s.takeDrop s.ovlSlot 11)

/-! ### The obligation -/

/-- Settles O22: every slot command moves the named slot by one update of the vector of slots; the loader's reads touch no slot. -/
theorem overlaySlotCommands : Obligations.OverlaySlotCommands := by
  unfold Obligations.OverlaySlotCommands
  intro s hu k others dropped
  refine ⟨fun hv hp => ⟨fun hc hk => ovlValidate_begins hu hv hp hc hk, fun h => ovlValidate_drops hu hv hp h⟩,
    fun hp hv => ovlValidate_held hu hp hv, fun hp => ovlApply_held hu hp, fun hv h => ovlValidateDone_waits hu hv h,
    fun j hj hr hl => ⟨fun code sect hc => ?_, fun hc => ?_⟩,
    fun hp => ⟨fun hm => ?_, fun hm => ?_⟩,
    fun ha => ovlCancel_begun hu ha, fun ha => ⟨fun h => ovlCancel_returns hu ha h, fun h => ovlCancel_drops hu ha h⟩,
    fun h => ovlRelease_frees hu h, fun h => ovlRelease_drops hu h⟩
  · have hx := exec_validateDone hu hj hr hl
    rw [hc] at hx
    have h := s.validated_says j {} code sect 13
    exact ⟨_, hx, h.slot, h.validating, h.named, h.code, h.section_, h.flag, h.flags, h.others, h.queue, h.loaded, h.unread, h.takes, h.within⟩
  · have hx := exec_validateDone hu hj hr hl
    rw [hc] at hx
    have h := s.validated_says j { state := .valid, digest := some (sha384 (s.slotBytes j)), mask := BitVec.ofNat 8 (hdrMask (s.slotBytes j)) }
      0 255 12
    exact ⟨_, hx, h.slot, h.validating, h.named, h.code, h.flag, h.flags, h.others, h.queue, h.loaded, h.unread, h.takes, h.within⟩
  · obtain ⟨t, hx, hslot, hqueue, hothers, htaken, hw⟩ := ovlApply_pends hu hp hm
    exact ⟨t, hx, hslot, hqueue, hothers, ⟨htaken.applies, htaken.last, htaken.more⟩, hw⟩
  · obtain ⟨t, hx, hdrop, htaken, hfirst, hrest⟩ := ovlApply_drops hu hp hm
    exact ⟨t, hx, hdrop, ⟨htaken.applies, htaken.last, htaken.more⟩, hfirst, hrest⟩

end Sys2Proof.Machine
end

