-- ==== Sys2Proof/Proofs/BaseLoads.lean ====
section
/-! PROOF. A base load begins, fetches and gives way to the fallback (R40 to R47, R64, R66; O20). -/
namespace Sys2Proof.Machine

/-! ### What unconfiguring leaves of a waiting LOAD and tells of a slot -/

theorem State.cmdWord_cmdTake_other (s : State) {a b : Nat} (m : Word) (h : b ≠ a) : (s.cmdTake a m).cmdWord b = s.cmdWord b :=
  (cmd_cmdTake_other s a m b h).1

theorem State.cmdWord_cmdDrop_other (s : State) {a b : Nat} (m : Word) (h : b ≠ a) : (s.cmdDrop a m).cmdWord b = s.cmdWord b :=
  ((s.cmdDrop_drops a m).2.2 b (fun hm => h (List.mem_singleton.1 hm))).1

theorem State.laneReset_load (s : State) (w : Lane) : (s.laneReset w).cmdWord 0x100 = s.cmdWord 0x100 := by
  have hwl : 0x100 ≠ wlA w 0x20 := by unfold wlA; omega
  have harm : 0x100 ≠ armA w := by unfold armA wlA; omega
  have hnew : 0x100 ≠ armNewA w := by unfold armNewA wlA; omega
  unfold State.laneReset State.laneOff
  rw [(State.modWl_within _ w _).cmdWordEq, State.cmdWord_cmdDrop_other _ _ hnew, State.cmdWord_cmdDrop_other _ _ harm,
    State.cmdWord_cmdDrop_other _ _ hwl, (State.modWl_within _ w _).cmdWordEq, (State.modWl_within _ w _).cmdWordEq]

theorem State.lanesReset_load (s : State) : s.lanesReset.cmdWord 0x100 = s.cmdWord 0x100 := by
  rw [State.lanesReset_eq, (Within.set_gov _ _).cmdWordEq]
  exact foldl_keeps (fun u => u.cmdWord 0x100) (allFin 16) State.laneReset State.laneReset_load s

theorem State.pinsOff_load (s : State) : s.pinsOff.cmdWord 0x100 = s.cmdWord 0x100 := by
  unfold State.pinsOff
  rw [foldl_keeps (fun u => u.cmdWord 0x100) _ _ (fun u p => (State.modPin_within u p _).cmdWordEq 0x100)]
  refine foldl_keeps (fun u => u.cmdWord 0x100) _ _ (fun u g => ?_) s
  rw [(State.modPg_within _ g _).cmdWordEq]
  split
  · exact State.cmdWord_cmdTake_other u 1 (by unfold tsgA pgA; omega)
  · rfl

theorem State.validateDrop_load (s : State) : s.validateDrop.cmdWord 0x100 = s.cmdWord 0x100 := by
  cases h : s.ovl.validating with
  | none => rw [State.validateDrop_of_none h]
  | some k =>
    rw [State.validateDrop_of_some h, State.cmdWord_cmdTake_other _ _ (by decide), (State.ovlDrop_within _ k).cmdWordEq]
    rfl

/-- A LOAD that has begun stays in its CMD word until it ends. -/
theorem State.unconfigure_load (s : State) : s.unconfigure.cmdWord 0x100 = s.cmdWord 0x100 := by
  rw [s.unconfigure_rest.cmdWordEq, (State.clusUnbound_within _).cmdWordEq]
  unfold State.outputsOff
  rw [(State.clocksOff_within _).cmdWordEq, (State.linesOff_within _).cmdWordEq, (State.lvlsPowerOn_within _).cmdWordEq, State.pinsOff_load,
    State.lanesReset_load, State.validateDrop_load]

/-- The flags of the slots are those that the drop of a VALIDATE leaves. -/
theorem State.unconfigure_slotFlags (s : State) : s.unconfigure.flag 0x138 = s.validateDrop.flag 0x138 := by
  rw [State.unconfigure_eq, State.linkReset_flags _ 0x138 (by decide) (by decide), (State.ctxsClose_within _).flagEq,
    (State.dramGone_within _).flagEq, (State.imageGone_within _).flagEq, (State.ringsGone_within _).flagEq, (State.tablesGone_within _).flagEq,
    (State.resetWords_within _ _).flagEq, (State.clusUnbound_within _).flagEq]
  unfold State.outputsOff
  rw [(State.clocksOff_within _).flagEq, (State.linesOff_within _).flagEq, (State.lvlsPowerOn_within _).flagEq, (State.pinsOff_within _).flagEq,
    (State.lanesReset_within _).flagEq]

/-- A VALIDATE that ran is told of as dropped. -/
theorem State.unconfigure_validate {s : State} {k : Fin 16} (h : s.ovl.validating = some k) :
    s.unconfigure.ovl.resSlot.toNat = k.val ∧ s.unconfigure.ovl.resCode = 0x15 ∧ (s.unconfigure.flag 0x138).getLsbD 13 = true := by
  have hd := (s.modOvl (fun o => { o with validating := none })).ovlDrop_dropped k
  have htake := State.cmdTake_within ((s.modOvl (fun o => { o with validating := none })).ovlDrop k) 0x130 (bit32 8)
  have hovl : s.validateDrop.ovl = ((s.modOvl (fun o => { o with validating := none })).ovlDrop k).ovl := by
    rw [State.validateDrop_of_some h, htake.ovlEq]
  rw [State.unconfigure_ovl, hovl, State.unconfigure_slotFlags, State.validateDrop_of_some h, htake.flagEq, hd.flag]
  refine ⟨hd.slot, hd.code, ?_⟩
  rw [BitVec.getLsbD_or, bit32_self (by decide), Bool.or_true]

/-! ### Clears and errors -/

/-- The clear that a fetch begins with touches the tables and the sign of the clear alone. -/
theorem State.fetchFrom_eq (s : State) (src : BitVec 2) (next : Bool) : s.fetchFrom src next =
    ({ s.modMem (fun m => { m with clearing := m.clearing ||| clearBit .tables }) with tabs := {} }).modImg (fun i => { i with
      state := .fetch, src := src, fallbackNext := next, buf := [], flash := flashRead src }) := rfl

theorem State.fetchFrom_frame (s : State) (src : BitVec 2) (next : Bool) : Within [.img, .tabs, .mem] s (s.fetchFrom src next) := by
  rw [State.fetchFrom_eq]
  exact (((Within.set_mem s { s.mem with clearing := s.mem.clearing ||| clearBit .tables } rfl).mono (by decide)).step
    (Within.set_tabs _ {}) (by decide)).step (State.modImg_within _ _) (by decide)

theorem State.modImg_img (s : State) (f : Image → Image) : (s.modImg f).img = f s.img := rfl

theorem State.fetchFrom_img (s : State) (src : BitVec 2) (next : Bool) : (s.fetchFrom src next).img =
    { s.img with state := .fetch, src := src, fallbackNext := next, buf := [], flash := flashRead src } := rfl

theorem State.imgErr_img (s : State) (code sect : Nat) : (s.imgErr code sect).img =
    { s.img with errCode := BitVec.ofNat 8 code, errSection := BitVec.ofNat 8 sect } := (State.setBit_within _ 0x108 16).imgEq

theorem State.imgErr_flag (s : State) (code sect : Nat) : (s.imgErr code sect).flag 0x108 = s.flag 0x108 ||| bit32 16 :=
  State.flag_setBit_self (s.modImg (fun i => { i with errCode := BitVec.ofNat 8 code, errSection := BitVec.ofNat 8 sect })) 16 (by decide)

theorem State.imgErr_flagsBut (s : State) (code sect : Nat) : FlagsBut [0x108] s (s.imgErr code sect) :=
  FlagsBut.setBit (t := s.modImg (fun i => { i with errCode := BitVec.ofNat 8 code, errSection := BitVec.ofNat 8 sect }))
    (fun _ _ _ => rfl) 16 (List.mem_singleton_self 0x108)

/-! ### A copy is refused -/

/-- What the refusal of a copy leaves: the fallback fetched next, or an unconfigured device and the LOAD taken. -/
structure Refused (code sect : Nat) (s t : State) : Prop where
  code : t.img.errCode = BitVec.ofNat 8 code
  section_ : t.img.errSection = BitVec.ofNat 8 sect
  flag : t.flag 0x108 = s.flag 0x108 ||| bit32 16
  fallback : s.img.src = 1 ∧ s.img.fallbackNext = true → t.img.state = .fetch ∧ t.img.src = 2 ∧ t.img.fallbackUsed = true ∧
    t.img.fallbackNext = false
  ended : ¬ (s.img.src = 1 ∧ s.img.fallbackNext = true) → t.img.state = .unconfigured ∧ t.img.buf = [] ∧
    t.img.fallbackUsed = s.img.fallbackUsed ∧ Takes 0x100 1 s t
  flags : FlagsBut [0x108] s t
  within : Within [.img, .flg, .cmd, .more, .tabs, .mem, .msix] s t

/-- The flash primary of a boot gives way (R43). -/
def State.givesWay (s : State) : Bool := decide (s.img.src = 1) && s.img.fallbackNext

theorem State.givesWay_iff (s : State) : s.givesWay = true ↔ s.img.src = 1 ∧ s.img.fallbackNext = true := by
  unfold State.givesWay
  rw [Bool.and_eq_true_iff, decide_eq_true_eq]

theorem State.loadRefuse_eq (s : State) (code sect : Nat) : s.loadRefuse code sect =
    if s.givesWay then ((s.imgErr code sect).fetchFrom 2 false).modImg (fun i => { i with fallbackUsed := true })
    else ((s.imgErr code sect).modImg (fun i => { i with state := .unconfigured, buf := [], flash := none })).loadEnd := rfl

theorem State.loadRefuse_refused (s : State) (code sect : Nat) : Refused code sect s (s.loadRefuse code sect) := by
  have herr := s.imgErr_within code sect
  rw [State.loadRefuse_eq]
  by_cases h : s.givesWay = true
  · rw [if_pos h]
    have hw : Within [.img, .tabs, .mem] (s.imgErr code sect)
        (((s.imgErr code sect).fetchFrom 2 false).modImg (fun i => { i with fallbackUsed := true })) :=
      (State.fetchFrom_frame _ 2 false).step (State.modImg_within _ _) (by decide)
    have himg : (((s.imgErr code sect).fetchFrom 2 false).modImg (fun i => { i with fallbackUsed := true })).img =
        { s.img with errCode := BitVec.ofNat 8 code, errSection := BitVec.ofNat 8 sect, state := .fetch, src := 2, fallbackNext := false
                     buf := [], flash := flashRead 2, fallbackUsed := true } := by
      rw [State.modImg_img, State.fetchFrom_img, State.imgErr_img]
    exact ⟨by rw [himg], by rw [himg], by rw [hw.flagEq, State.imgErr_flag], fun _ => by rw [himg]; exact ⟨rfl, rfl, rfl, rfl⟩,
      fun hn => absurd (s.givesWay_iff.1 h) hn, (s.imgErr_flagsBut code sect).trans (hw.flagsBut _), (herr.mono (by decide)).step hw (by decide)⟩
  · rw [if_neg h]
    have hmod := State.modImg_within (s.imgErr code sect) (fun i => { i with state := .unconfigured, buf := [], flash := none })
    have hend := State.cmdTake_within ((s.imgErr code sect).modImg (fun i => { i with state := .unconfigured, buf := [], flash := none })) 0x100 1
    have himg : (((s.imgErr code sect).modImg (fun i => { i with state := .unconfigured, buf := [], flash := none })).loadEnd).img =
        { s.img with errCode := BitVec.ofNat 8 code, errSection := BitVec.ofNat 8 sect, state := .unconfigured, buf := [], flash := none } := by
      unfold State.loadEnd
      rw [hend.imgEq, State.modImg_img, State.imgErr_img]
    have htakes : Takes 0x100 1 s (((s.imgErr code sect).modImg (fun i => { i with state := .unconfigured, buf := [], flash := none })).loadEnd) :=
      (State.cmdTake_takes _ 0x100 1).from_eq ((herr.step (l := [.img, .flg, .msix]) hmod (by decide)).cmdEq)
        ((herr.step (l := [.img, .flg, .msix]) hmod (by decide)).moreEq)
    have hw : Within [.img, .cmd, .more] (s.imgErr code sect)
        (((s.imgErr code sect).modImg (fun i => { i with state := .unconfigured, buf := [], flash := none })).loadEnd) :=
      (hmod.mono (by decide)).step hend (by decide)
    exact ⟨by rw [himg], by rw [himg], (hw.flagEq _).trans (s.imgErr_flag code sect), fun hy => absurd (s.givesWay_iff.2 hy) h,
      fun _ => ⟨by rw [himg], by rw [himg], by rw [himg], htakes⟩, (s.imgErr_flagsBut code sect).trans (hw.flagsBut _),
      (herr.mono (by decide)).step hw (by decide)⟩

/-! ### LOAD -/

/-- A LOAD that is refused at once leaves the loaded image as it is and is taken (R45, R46, R64). -/
theorem State.imgErr_taken (s : State) (code : Nat) : ((s.imgErr code 255).loadEnd).img = { s.img with errCode := BitVec.ofNat 8 code, errSection := 255 } ∧
    (s.imgErr code 255).loadEnd.flag 0x108 = s.flag 0x108 ||| bit32 16 ∧ FlagsBut [0x108] s (s.imgErr code 255).loadEnd ∧
    Takes 0x100 1 s (s.imgErr code 255).loadEnd ∧ Within [.img, .flg, .cmd, .more, .msix] s (s.imgErr code 255).loadEnd := by
  have hend := State.cmdTake_within (s.imgErr code 255) 0x100 1
  have herr := s.imgErr_within code 255
  exact ⟨hend.imgEq.trans (s.imgErr_img code 255), (hend.flagEq _).trans (s.imgErr_flag code 255),
    (s.imgErr_flagsBut code 255).trans (hend.flagsBut _), (State.cmdTake_takes _ 0x100 1).from_eq herr.cmdEq herr.moreEq,
    (herr.mono (by decide)).step hend (by decide)⟩

/-- The source that OVL_CTRL names in force (R66). -/
def State.loadSrc (s : State) : Nat := s.effF 0x100 2 1

/-- A host source that cannot be read (R45). -/
def State.badSource (s : State) : Prop :=
  s.loadSrc = 0 ∧ (s.effF 0x110 5 0 ≠ 0 ∨ (s.effW 0x118).toNat < 64 ∨ 8388608 < (s.effW 0x118).toNat ∨ s.host.bme = false)

theorem State.loadSrc_lt (s : State) : s.loadSrc < 4 := fld_lt

theorem State.loadSrc_zero (s : State) (k : Nat) (hk : k < 4) : BitVec.ofNat 2 s.loadSrc = BitVec.ofNat 2 k ↔ s.loadSrc = k := by
  have hlt := s.loadSrc_lt
  constructor
  · intro h
    have hn := congrArg BitVec.toNat h
    rw [BitVec.toNat_ofNat, BitVec.toNat_ofNat] at hn
    omega
  · exact fun h => congrArg (BitVec.ofNat 2) h

/-- What a LOAD that goes on leaves. -/
def State.loadBegun (s : State) : State :=
  (s.unconfigure.fetchFrom (if BitVec.ofNat 2 s.loadSrc = 3 then 1 else BitVec.ofNat 2 s.loadSrc) (decide (BitVec.ofNat 2 s.loadSrc = 3))).modImg
    (fun i => { i with hostLen := s.effW 0x118 })

theorem State.badSource_iff (s : State) : (decide (BitVec.ofNat 2 s.loadSrc = 0) && (decide (fld (s.effW 0x110) 5 0 ≠ 0) ||
    decide ((s.effW 0x118).toNat < 64) || decide (8388608 < (s.effW 0x118).toNat) || !s.host.bme)) = true ↔ s.badSource := by
  have hz := s.loadSrc_zero 0 (by decide)
  unfold State.badSource State.effF
  simp only [Bool.and_eq_true_iff, Bool.or_eq_true_iff, decide_eq_true_eq, Bool.not_eq_true', or_assoc]
  exact and_congr_left' hz

theorem exec_imgLoad {s : State} (hu : s.undef = false) (hl : s.loading = false) (hp : s.prepared 5 = false) : exec .imgLoad s = .next
    (if (decide (BitVec.ofNat 2 s.loadSrc = 0) && (decide (fld (s.effW 0x110) 5 0 ≠ 0) || decide ((s.effW 0x118).toNat < 64) ||
        decide (8388608 < (s.effW 0x118).toNat) || !s.host.bme)) then (s.imgErr 0x0F 255).loadEnd
      else if s.configured && !s.allIdle then (s.imgErr 0x11 255).loadEnd else s.loadBegun) := by
  show execImgLoad s = _
  rw [execImgLoad, guarded_next hu]
  exact congrArg Host.Outcome.next ((if_neg (by rw [hl]; decide)).trans (if_neg (by rw [hp]; decide)))

theorem State.loadBegun_img (s : State) : s.loadBegun.img =
    { s.unconfigure.img with state := .fetch, src := if BitVec.ofNat 2 s.loadSrc = 3 then 1 else BitVec.ofNat 2 s.loadSrc
                             fallbackNext := decide (BitVec.ofNat 2 s.loadSrc = 3), buf := []
                             flash := flashRead (if BitVec.ofNat 2 s.loadSrc = 3 then 1 else BitVec.ofNat 2 s.loadSrc)
                             hostLen := s.effW 0x118 } := by
  unfold State.loadBegun
  rw [State.modImg_img, State.fetchFrom_img]

theorem State.loadBegun_within (s : State) : Within [.img, .tabs, .mem] s.unconfigure s.loadBegun :=
  (State.fetchFrom_frame _ _ _).step (State.modImg_within _ _) (by decide)

theorem State.fetchFrom_tables (s : State) (src : BitVec 2) (next : Bool) (f : Image → Image) :
    ((s.fetchFrom src next).modImg f).tabs = {} ∧ ((s.fetchFrom src next).modImg f).mem.slots = s.mem.slots := ⟨rfl, rfl⟩

theorem State.loadBegun_tables (s : State) : s.loadBegun.tabs = {} ∧ s.loadBegun.mem.slots = s.unconfigure.mem.slots :=
  s.unconfigure.fetchFrom_tables _ _ _

/-- The source that is read: the primary copy where both stand (R43). -/
theorem State.loadFrom (s : State) : (if BitVec.ofNat 2 s.loadSrc = 3 then 1 else BitVec.ofNat 2 s.loadSrc : BitVec 2) =
    BitVec.ofNat 2 (if s.loadSrc = 3 then 1 else s.loadSrc) := by
  have h3 : BitVec.ofNat 2 s.loadSrc = 3 ↔ s.loadSrc = 3 := s.loadSrc_zero 3 (by decide)
  by_cases h : s.loadSrc = 3
  · rw [if_pos (h3.2 h), if_pos h]
    rfl
  · rw [if_neg (fun e => h (h3.1 e)), if_neg h]

theorem State.loadBegun_source (s : State) : s.loadBegun.img.state = .fetch ∧
    s.loadBegun.img.src.toNat = (if s.loadSrc = 3 then 1 else s.loadSrc) ∧ s.loadBegun.img.fallbackNext = decide (s.loadSrc = 3) ∧
    s.loadBegun.img.hostLen = s.effW 0x118 ∧ s.loadBegun.img.buf = [] ∧ s.loadBegun.img.fallbackUsed = false ∧
    s.loadBegun.img.verified = false ∧ s.loadBegun.img.baseId = 0 := by
  have hlt := s.loadSrc_lt
  rw [State.loadBegun_img, State.loadFrom, State.unconfigure_img]
  refine ⟨rfl, ?_, decide_eq_decide.2 (s.loadSrc_zero 3 (by decide)), rfl, rfl, rfl, rfl, rfl⟩
  rw [BitVec.toNat_ofNat]
  split <;> omega

theorem State.loadBegun_flash (s : State) : (s.loadSrc = 0 → s.loadBegun.img.flash = none) ∧
    (s.loadSrc ≠ 0 → ∃ f, s.loadBegun.img.flash = some f ∧ f.command = 0xEB ∧ f.addr = if s.loadSrc = 2 then 0x800000 else 0) := by
  have hlt := s.loadSrc_lt
  rw [State.loadBegun_img, State.loadFrom]
  dsimp only
  rcases (by omega : s.loadSrc = 0 ∨ s.loadSrc = 1 ∨ s.loadSrc = 2 ∨ s.loadSrc = 3) with h | h | h | h
  · rw [h]; exact ⟨fun _ => rfl, fun hn => absurd rfl hn⟩
  · rw [h]; exact ⟨fun hn => absurd hn (by decide), fun _ => ⟨_, rfl, rfl, rfl⟩⟩
  · rw [h]; exact ⟨fun hn => absurd hn (by decide), fun _ => ⟨_, rfl, rfl, rfl⟩⟩
  · rw [h]; exact ⟨fun hn => absurd hn (by decide), fun _ => ⟨_, rfl, rfl, rfl⟩⟩

/-! ### The obligation -/

/-- Settles O20: the load that goes on unconfigures the device and clears the tables again; nothing in between writes the LOAD's own word. -/
theorem baseLoadsBeginAndFetch : Obligations.BaseLoadsBeginAndFetch := by
  unfold Obligations.BaseLoadsBeginAndFetch
  intro s hu
  refine ⟨fun hl => ?_, fun bytes hf => ?_, fun bytes hf => ?_⟩
  · intro src len bad
    refine ⟨fun hp => ?_, fun hp hb => ?_, fun hp hb hc hi => ?_, fun hp hb hgo => ?_⟩
    · exact gives_branch hu rfl ((if_neg (by rw [hl]; decide)).trans (if_pos hp)) ⟨rfl, State.hold_within s _⟩
    · have hx := exec_imgLoad hu hl hp
      rw [if_pos (s.badSource_iff.2 hb)] at hx
      exact ⟨_, hx, s.imgErr_taken 0x0F⟩
    · have hx := exec_imgLoad hu hl hp
      rw [if_neg (fun h => hb (s.badSource_iff.1 h)), if_pos (by rw [hc, hi]; rfl)] at hx
      exact ⟨_, hx, s.imgErr_taken 0x11⟩
    · have hx := exec_imgLoad hu hl hp
      rw [if_neg (fun h => hb (s.badSource_iff.1 h)), if_neg (by rcases hgo with h | h <;> simp [h])] at hx
      have hw := s.loadBegun_within
      obtain ⟨hstate, hsrc, hnext, hlen, hbuf, hused, hver, hbase⟩ := s.loadBegun_source
      obtain ⟨hnone, hflash⟩ := s.loadBegun_flash
      have hdram := s.unconfigure_dram
      have hclk := s.unconfigure_clk
      have hovl := s.unconfigure_ovl
      obtain ⟨htrg, hflight, -⟩ := s.unconfigure_lines
      obtain ⟨htabs, hplc, hslots⟩ := s.unconfigure_tables
      refine ⟨s.loadBegun, hx, hstate, hsrc, hnext, hlen, hbuf, hused, hver, hbase, hnone, hflash, ?_, ?_, fun n => ?_, fun w => ?_, fun c => ?_,
        ?_, ?_, fun k => ?_, ?_, ?_, fun c => ?_, ?_, ?_, fun a ha => ?_, ?_, ?_, fun k hk => ?_, ?_, ?_, ?_, ?_, ?_⟩
      · rw [hw.dramEq, hdram]; rfl
      · rw [hw.dramEq, hdram]; rfl
      · rw [hw.cluEq (by decide), State.unconfigure_clu]; exact ⟨rfl, rfl, rfl⟩
      · rw [hw.wlEq]; exact s.unconfigure_wl w
      · obtain ⟨r, hr⟩ := s.unconfigure_lvl c
        rw [hw.lvlEq, hr]; exact ⟨rfl, rfl, rfl⟩
      · exact s.loadBegun_tables.1
      · rw [hw.plcEq, hplc]
      · rw [hw.ovlEq, hovl]; exact Vector.getElem_replicate ..
      · rw [hw.ovlEq, hovl]
      · exact s.loadBegun_tables.2.trans hslots
      · rw [hw.ctxsEq]; exact s.unconfigure_ctxs c
      · rw [hw.brgEq, hflight]
      · rw [hw.trgEq, htrg]
      · rw [State.cfgW, State.effW, hw.cfgEq, hw.effEq]; exact s.unconfigure_words ha
      · rw [hw.clkEq, hclk]
      · rw [hw.clkEq, hclk]
      · rw [hw.ovlEq, hw.flagEq]; exact State.unconfigure_validate hk
      · rw [hw.ovlEq, hovl]
      · rw [hw.ovlEq, hovl]; exact s.validateDrop_applies
      · rw [hw.cmdWordEq, State.unconfigure_load]
      · rw [hw.partEq, s.unconfigure_rest.partEq, (State.clusUnbound_within _).partEq, s.outputsOff_within.partEq]
      · rw [hw.pendingEq, s.unconfigure_rest.pendingEq, (State.clusUnbound_within _).pendingEq, s.outputsOff_within.pendingEq]
  · exact gives_branch hu rfl ((if_neg (fun h => h hf)).trans (if_pos rfl)) ⟨rfl, State.modImg_within s _⟩
  · have h := s.loadRefuse_refused 0x0F 255
    refine gives_branch hu rfl ((if_neg (fun hn => hn hf)).trans (if_neg Bool.false_ne_true))
      ⟨h.code, h.section_, h.flag, ?_, h.flags, h.within⟩
    split
    · next hy => exact h.fallback hy
    · next hn => exact h.ended hn

end Sys2Proof.Machine
end

