-- ==== Sys2Proof/Proofs/Plls.lean ====
section
/-! PROOF. A PLL loses lock, relocks, and the count of CK_AON (R418, R423, R453, R458, R459, R495; O16). -/
namespace Sys2Proof.Machine

/-! ### Crossings that lose their alignment -/

/-- A bit of a mask that a fold sets bit by bit, where no member sets it. -/
theorem getLsbD_foldl_or_eq_false {α : Type} (c : α → Prop) [DecidablePred c] (k : α → Nat) (i : Nat) (l : List α) (m : BitVec 16)
    (hm : m.getLsbD i = false) (h : ∀ x ∈ l, c x → k x ≠ i) :
    (l.foldl (fun m x => if c x then m ||| (1#16 <<< k x) else m) m).getLsbD i = false := by
  induction l generalizing m with
  | nil => exact hm
  | cons x r ih =>
    refine ih _ ?_ (fun y hy => h y (List.mem_cons_of_mem _ hy))
    dsimp only
    split
    · next hc =>
      have hne := h x List.mem_cons_self hc
      rw [BitVec.getLsbD_or, hm, Bool.false_or, BitVec.getLsbD_shiftLeft, BitVec.getLsbD_one]
      simp only [Bool.and_eq_false_iff, decide_eq_false_iff_not, Bool.not_eq_false', decide_eq_true_eq]
      omega
    · exact hm

/-- The ports of the crossings in a mask are marked, and no other. -/
theorem State.misalign_port (s : State) (m : BitVec 16) (p : Fin 4) : (s.misalign m).link.ports[p] =
    if m.getLsbD (12 + p.val) then { s.link.ports[p] with misaligned := true } else s.link.ports[p] := by
  unfold State.misalign
  have hclk : ∀ (u : State) f, (u.modClk f).link = u.link := fun _ _ => rfl
  dsimp only
  rw [hclk]
  refine foldl_allFin (fun _ => True) (fun u q => u.link.ports[q]) (fun s p => if m.getLsbD (12 + p.val) then s.modPort p
    (fun q => { q with misaligned := true }) else s) (fun p x => if m.getLsbD (12 + p.val) then { x with misaligned := true } else x)
    (fun _ _ _ => trivial) (fun u p _ => ?_) (fun u p q hq => ?_) trivial p
  · split
    · exact Vector.getElem_set_self p.isLt
    · rfl
  · split
    · exact Vector.getElem_set_ne p.isLt q.isLt (fun e => hq (Fin.ext e.symm))
    · rfl

theorem State.misalign_clk (s : State) (m : BitVec 16) : (s.misalign m).clk = { s.clk with
    aligned := s.clk.aligned &&& ~~~m, aligning := s.clk.aligning.map (fun x => (x.1, x.2 &&& ~~~m)) } := by
  unfold State.misalign
  have hports : ((allFin 4).foldl (fun s p => if m.getLsbD (12 + p.val) then s.modPort p (fun q => { q with misaligned := true }) else s) s).clk =
      s.clk := foldl_keeps State.clk _ _ (fun v p => by split <;> rfl) s
  have hmod : ∀ (u : State) f, (u.modClk f).clk = f u.clk := fun _ _ => rfl
  dsimp only
  rw [hmod, hports]

/-- The crossings whose alignment has come due (R421). -/
def Clock.due (c : Clock) : BitVec 16 :=
  match c.aligning with
  | some x => if x.1 ≤ c.now then x.2 else 0
  | none => 0

/-- The link receive crossings that are aligned (R422). -/
def State.portsAligned (s : State) : BitVec 16 :=
  (List.finRange 4).foldl (fun m (p : Fin 4) =>
    if s.link.ports[p].state = .up ∧ !s.link.ports[p].misaligned then m ||| (1#16 <<< (12 + p.val)) else m) 0

theorem State.alignedNow_eq (s : State) : s.alignedNow = ((s.clk.aligned ||| s.clk.due) &&& 0x0FFF) ||| s.portsAligned := rfl

theorem State.misalign_due (s : State) {m : BitVec 16} {i : Nat} (hoff : ∀ x : BitVec 16, (x &&& ~~~m).getLsbD i = false) :
    (s.misalign m).clk.due.getLsbD i = false := by
  rw [State.misalign_clk]
  cases ha : s.clk.aligning with
  | none => exact BitVec.getLsbD_zero
  | some x =>
    show (if x.1 ≤ s.clk.now then x.2 &&& ~~~m else 0#16).getLsbD i = false
    split
    · exact hoff x.2
    · exact BitVec.getLsbD_zero

/-- Clock and ports alone say which crossings are aligned. -/
theorem State.alignedNow_congr {s t : State} (hc : t.clk = s.clk) (hl : t.link = s.link) : t.alignedNow = s.alignedNow := by
  unfold State.alignedNow
  rw [hc, hl]

/-- A crossing that loses its alignment is aligned no more, be it one of the play clocks or a port's (R422, R423). -/
theorem State.misalign_now (s : State) {m : BitVec 16} {i : Nat} (h : m.getLsbD i = true) :
    (s.misalign m).alignedNow.getLsbD i = false := by
  have hoff : ∀ x : BitVec 16, (x &&& ~~~m).getLsbD i = false := fun x => by
    rw [BitVec.getLsbD_and, BitVec.getLsbD_not, h]
    simp
  have hport : (s.misalign m).portsAligned.getLsbD i = false := getLsbD_foldl_or_eq_false (fun p : Fin 4 => (s.misalign m).link.ports[p].state = .up ∧ !(s.misalign m).link.ports[p].misaligned)
    (fun p => 12 + p.val) i (List.finRange 4) 0 BitVec.getLsbD_zero (fun p _ hup e => by
      obtain ⟨-, hmis⟩ := hup
      rw [State.misalign_port, e, h] at hmis
      exact Bool.false_ne_true hmis)
  rw [State.alignedNow_eq, BitVec.getLsbD_or, hport, Bool.or_false, BitVec.getLsbD_and, BitVec.getLsbD_or, State.misalign_due s hoff,
    Bool.or_false, State.misalign_clk]
  dsimp only
  rw [hoff, Bool.false_and]

/-! ### The alignment action -/

/-- The fields that a cluster's idle applies are its own. -/
theorem State.applyIdle_effW (s : State) (n : Clu) {a : Nat} (ha : s.addrOwner a ≠ some n) : (s.applyIdle n).effW a = s.effW a := by
  unfold State.applyIdle
  refine foldl_keeps (fun u => u.effW a) _ _ (fun u b => ?_) s
  split
  · split
    · next hb =>
      exact smGet_put_other resetWord u.eff _ (fun e => ha (e ▸ hb))
    · rfl
  · rfl

theorem State.idleEffects_effW (s : State) (n : Clu) {a : Nat} (ha : ∀ u : State, u.addrOwner a ≠ some n) :
    (s.idleEffects n).effW a = s.effW a := by
  have hfold : ∀ {α : Type} (f : State → α → State) (l : List α) (u : State), (∀ v x, (f v x).effW a = v.effW a) →
      (l.foldl f u).effW a = u.effW a := fun f l u h => foldl_keeps (fun v => v.effW a) l f h u
  unfold State.idleEffects
  dsimp only
  have heff : ∀ {u v : State}, v.eff = u.eff → v.effW a = u.effW a := fun h => by unfold State.effW; rw [h]
  rw [heff (State.lanesIdle_within _ n).effEq, heff (State.ncoIdle_within _ n).effEq,
    hfold _ _ _ (fun v w => heff (State.bandFollow_within v _ w).effEq), hfold _ _ _ (fun v g => heff (State.copyTset_within v g).effEq),
    State.applyIdle_effW _ n (ha _), heff (State.releaseObject_within _ n).effEq,
    hfold _ _ _ (fun v w => heff (State.ncoSync_within v _ w).effEq)]

theorem State.stopCluster_effW (s : State) (n : Clu) (reason at_ : Nat) {a : Nat} (ha : ∀ u : State, u.addrOwner a ≠ some n) :
    (s.stopCluster n reason at_).effW a = s.effW a := by
  have heff : ∀ {u v : State}, v.eff = u.eff → v.effW a = u.effW a := fun h => by unfold State.effW; rw [h]
  unfold State.stopCluster
  dsimp only
  rw [heff (State.setBitIf_within _ _ _ _).effEq, State.idleEffects_effW _ n ha, heff (State.modClu_within _ n _).effEq,
    heff (State.cancelJump_within _ n false).effEq, heff (State.parkGroups_within _ n _).effEq, heff (State.cutGroups_within _ n _).effEq,
    heff (State.markNeeded_within _ n).effEq]

/-- A word of a cluster is that cluster's. -/
theorem State.addrOwner_cluster (s : State) (n : Clu) {off : Nat} (h : off < 0x10000) : s.addrOwner (cluA n off) = some n := by
  have hn := n.isLt
  have hdiv : (cluA n off - 0x100000) / 0x10000 = n.val := by unfold cluA; omega
  unfold State.addrOwner
  rw [if_pos (by unfold cluA; omega), hdiv]
  exact congrArg some (Fin.ext (fin_ofNat_val n.isLt))

/-- What a cluster's alignment action depends on. -/
def State.alignView (s : State) (n : Clu) : Cluster × Word := (s.clu[n], s.effW (cluA n 0x1C0))

/-- A running cluster that a crossing of a list serves and whose alignment action is HALT (R458, R459). -/
def Cluster.halted (k : Cluster × Word) (l : List Nat) : Bool :=
  decide (k.1.state = .lead ∨ k.1.state = .run ∨ k.1.state = .stopping) && !k.2.getLsbD 0 &&
    (((allFin 16).filter (fun w : Lane => k.1.wBound.getLsbD w)).map (fun w : Lane => w.val / 4) ++
      ((allFin 4).filter (fun g : Pg => k.1.pgBound.getLsbD g)).flatMap (fun g : Pg => [4 + g.val, 8 + g.val])).any (fun i => l.contains i)

theorem State.halted_eq (s : State) (l : List Nat) (n : Clu) :
    (s.inAction n && s.halts n && (s.crossingsOf n).any (fun i => l.contains i)) = Cluster.halted (s.alignView n) l := rfl

/-- The action on one cluster. -/
def State.alignStop (l : List Nat) (at_ : Nat) (s : State) (n : Clu) : State :=
  if s.inAction n && s.halts n && (s.crossingsOf n).any (fun i => l.contains i) then (s.upto at_).stopCluster n 4 (at_ * 1024) else s

theorem State.alignAction_eq (s : State) (l : List Nat) (at_ : Nat) : s.alignAction l at_ = (allFin 8).foldl (State.alignStop l at_) s := rfl

theorem State.alignStop_self (s : State) (l : List Nat) (at_ : Nat) (n : Clu) : if Cluster.halted (s.alignView n) l = true
    then (s.alignStop l at_ n).clu[n].state = .idle ∧ (s.alignStop l at_ n).clu[n].stopReason = 4 else (s.alignStop l at_ n).clu[n] = s.clu[n] := by
  unfold State.alignStop
  rw [State.halted_eq]
  by_cases h : Cluster.halted (s.alignView n) l = true
  · rw [if_pos h, if_pos h]
    obtain ⟨f, hself, -⟩ := State.stopCluster_clu (s.upto at_) n 4 (at_ * 1024)
    rw [hself]
    exact ⟨rfl, rfl⟩
  · rw [if_neg h, if_neg h]

theorem State.alignStop_other (s : State) (l : List Nat) (at_ : Nat) {n m : Clu} (h : m ≠ n) :
    (s.alignStop l at_ m).alignView n = s.alignView n := by
  unfold State.alignStop
  split
  · obtain ⟨f, -, hbut⟩ := State.stopCluster_clu (s.upto at_) m 4 (at_ * 1024)
    refine Prod.ext (hbut n h.symm) ?_
    exact State.stopCluster_effW (s.upto at_) m 4 (at_ * 1024) (fun u e => h (Option.some.inj (e.symm.trans (u.addrOwner_cluster n (by decide)))))
  · rfl

/-- The action stops each cluster that it finds halted, and leaves every other as it is. -/
theorem State.alignAction_clu (s : State) (l : List Nat) (at_ : Nat) (n : Clu) : if Cluster.halted (s.alignView n) l = true
    then (s.alignAction l at_).clu[n].state = .idle ∧ (s.alignAction l at_).clu[n].stopReason = 4 else (s.alignAction l at_).clu[n] = s.clu[n] :=
  foldl_at (fun _ => True) (fun u => u.alignView n)
    (fun k => if Cluster.halted (s.alignView n) l = true then k.1.state = .idle ∧ k.1.stopReason = 4 else k.1 = s.clu[n])
    (State.alignStop l at_) (fun _ _ _ => trivial) (fun u m hm _ => u.alignStop_other l at_ hm) (allFin 8) s (List.nodup_finRange 8)
    (List.mem_finRange n) trivial (fun u _ hu => by
      have h := u.alignStop_self l at_ n
      have hclu : u.clu[n] = s.clu[n] := congrArg Prod.fst hu
      rw [hu, hclu] at h
      exact h)

theorem State.alignStop_clk (l : List Nat) {s : State} {at_ : Nat} (h : at_ ≤ s.clk.now) (n : Clu) : (s.alignStop l at_ n).clk = s.clk := by
  unfold State.alignStop
  split
  · rw [(State.stopCluster_within _ n 4 _).clkEq, State.upto_of_le h]
  · rfl

theorem State.alignAction_clk (l : List Nat) {s : State} {at_ : Nat} (h : at_ ≤ s.clk.now) : (s.alignAction l at_).clk = s.clk := by
  rw [State.alignAction_eq]
  generalize allFin 8 = xs
  induction xs generalizing s with
  | nil => rfl
  | cons n r ih =>
    have hstop := State.alignStop_clk l h n
    exact (ih (by rw [hstop]; exact h)).trans hstop

theorem State.alignAction_flag_mono (s : State) (l : List Nat) (at_ : Nat) {a i : Nat} (ha : a ∉ pendWords) (h : (s.flag a).getLsbD i = true) :
    ((s.alignAction l at_).flag a).getLsbD i = true := by
  refine foldl_rel (fun u v => (u.flag a).getLsbD i = true → (v.flag a).getLsbD i = true) (fun _ h => h) (fun h k x => k (h x))
    (State.alignStop l at_) (fun u n hu => ?_) (allFin 8) s h
  unfold State.alignStop
  split
  · exact State.stopCluster_flag_mono n 4 (at_ * 1024) ha hu
  · exact hu

/-! ### A PLL loses lock -/

/-- The lock bit clears and the crossings that it feeds lose their alignment. -/
def State.lockMarked (s : State) (pll : Fin 8) : State :=
  (s.modClk (fun c => { c with pll := c.pll &&& ~~~(1#8 <<< pll.val) })).misalign (crossBits (pllCrossings pll))

/-- With the flag and the report. -/
def State.lockLost (s : State) (pll : Fin 8) : State :=
  ((s.lockMarked pll).setBit (clkA 0xC) 8).alignFault 3 pll.val (s.lockMarked pll).clk.now

/-- Of CK_DRAM's PLL READY falls too. -/
def State.readyLost (s : State) (pll : Fin 8) : State :=
  if pll.val = 6 then { s with dram := { s.dram with ready := false } } else s

theorem State.lockLost_within (s : State) (pll : Fin 8) : Within [.clk, .link, .flg, .ctr, .msix, .flt] s (s.lockLost pll) := by
  unfold State.lockLost State.lockMarked
  exact ((((State.modClk_within s _).mono (by decide)).step (State.misalign_within _ _) (by decide)).step (State.setBit_within _ _ _)
    (by decide)).step (State.alignFault_within _ _ _ _) (by decide)

theorem State.lockLost_marks (s : State) (pll : Fin 8) : Within [.flg, .ctr, .msix, .flt] (s.lockMarked pll) (s.lockLost pll) :=
  ((State.setBit_within _ _ _).mono (by decide)).step (State.alignFault_within _ _ _ _) (by decide)

theorem State.lockLost_pll (s : State) (pll : Fin 8) : (s.lockLost pll).clk.pll = s.clk.pll &&& ~~~(1#8 <<< pll.val) ∧
    (s.lockLost pll).clk.now = s.clk.now := by
  rw [(s.lockLost_marks pll).clkEq, State.lockMarked, State.misalign_clk]
  exact ⟨rfl, rfl⟩

theorem State.lockLost_flag (s : State) (pll : Fin 8) : ((s.lockLost pll).flag (clkA 0xC)).getLsbD 8 = true := by
  unfold State.lockLost State.lockMarked State.alignFault
  rw [State.report_flags _ _ (clkA 0xC) (by decide) (by decide)]
  exact State.flagBit_setBit _ (by decide) (by decide)

theorem State.lockLost_seq (s : State) (pll : Fin 8) : (s.lockLost pll).flt.seq = s.flt.seq + 1 := by
  unfold State.lockLost State.lockMarked State.alignFault
  rw [State.report_seq, (State.setBit_within _ _ _).fltEq, (State.misalign_within _ _).fltEq]
  rfl

theorem crossBits_pll : ∀ (pll : Fin 8), ∀ i ∈ pllCrossings pll, (crossBits (pllCrossings pll)).getLsbD i = true := by decide

theorem State.lockLost_aligned (s : State) (pll : Fin 8) : ∀ i ∈ pllCrossings pll, (s.lockLost pll).alignedNow.getLsbD i = false := fun i hi => by
  rw [State.alignedNow_congr (s.lockLost_marks pll).clkEq (s.lockLost_marks pll).linkEq]
  exact State.misalign_now _ (crossBits_pll pll i hi)

theorem State.readyLost_within (s : State) (pll : Fin 8) : Within [.dram] s (s.readyLost pll) :=
  Within.ite (Within.set_dram _ _ rfl rfl) (Within.refl _ s)

theorem State.readyLost_ready (s : State) {pll : Fin 8} (h : pll = 6) : (s.readyLost pll).dram.ready = false := by
  unfold State.readyLost
  rw [if_pos (by rw [h]; rfl)]

/-- What a loss of lock leaves. -/
def State.unlocked (s : State) (pll : Fin 8) : State :=
  if pll.val = 0 then (s.lockLost pll).readyLost pll
  else ((s.lockLost pll).readyLost pll).alignAction (pllCrossings pll) ((s.lockLost pll).readyLost pll).clk.now

theorem exec_pllUnlock {s : State} {tick : Nat} {pll : Fin 8} (hu : s.undef = false) (hh : s.heldInReset = false)
    (hp : s.clk.pll.getLsbD pll.val = true) : exec (.pllUnlock tick pll) s = .next ((s.upto tick).unlocked pll) := by
  have hlock : ((s.upto tick).heldInReset || !(s.upto tick).clk.pll.getLsbD pll.val) = false := by
    show (s.heldInReset || !s.clk.pll.getLsbD pll.val) = false
    rw [hh, hp]
    rfl
  show execPllUnlock tick pll s = _
  rw [execPllUnlock, guarded_next hu]
  exact congrArg Host.Outcome.next (if_neg (by rw [hlock]; decide))

theorem State.lost_within (s : State) (pll : Fin 8) :
    Within [.clk, .link, .flg, .ctr, .msix, .flt, .dram] s ((s.lockLost pll).readyLost pll) :=
  ((s.lockLost_within pll).mono (by decide)).step (State.readyLost_within _ pll) (by decide)

theorem State.lost_clk (s : State) (pll : Fin 8) : ((s.lockLost pll).readyLost pll).clk.pll = s.clk.pll &&& ~~~(1#8 <<< pll.val) ∧
    ((s.lockLost pll).readyLost pll).clk.now = s.clk.now := by
  rw [(State.readyLost_within _ pll).clkEq]
  exact s.lockLost_pll pll

/-- What the loss of a lock leaves, with the clusters that stop. -/
structure Unlocked (pll : Fin 8) (s t : State) : Prop where
  lock : t.clk.pll = s.clk.pll &&& ~~~(1#8 <<< pll.val)
  now : t.clk.now = s.clk.now
  flag : (t.flag (clkA 0xC)).getLsbD 8 = true
  seq : t.flt.seq = s.flt.seq + 1
  aligned : ∀ i ∈ pllCrossings pll, t.alignedNow.getLsbD i = false
  ready : pll = 6 → t.dram.ready = false
  within : Within [.clk, .eff, .flg, .ctr, .cmd, .more, .tabs, .clu, .wl, .gov, .pg, .pin, .link, .dram, .host, .msix, .flt, .plc] s t

theorem State.lost_unlocked (s : State) (pll : Fin 8) : Unlocked pll s ((s.lockLost pll).readyLost pll) where
  lock := (s.lost_clk pll).1
  now := (s.lost_clk pll).2
  flag := by rw [(State.readyLost_within _ pll).flagEq]; exact s.lockLost_flag pll
  seq := by rw [(State.readyLost_within _ pll).fltEq]; exact s.lockLost_seq pll
  aligned i hi := by
    rw [State.alignedNow_congr (State.readyLost_within _ pll).clkEq (State.readyLost_within _ pll).linkEq]
    exact s.lockLost_aligned pll i hi
  ready h := State.readyLost_ready _ h
  within := (s.lost_within pll).mono (by decide)

theorem Unlocked.alignAction {pll : Fin 8} {s t : State} (h : Unlocked pll s t) (l : List Nat) : Unlocked pll s (t.alignAction l t.clk.now) := by
  have hw := t.alignAction_within l t.clk.now
  have hclk := State.alignAction_clk l (Nat.le_refl t.clk.now)
  exact { lock := by rw [hclk]; exact h.lock
          now := by rw [hclk]; exact h.now
          flag := t.alignAction_flag_mono l _ (by decide) h.flag
          seq := by rw [hw.fltEq]; exact h.seq
          aligned := fun i hi => by rw [State.alignedNow_congr hclk hw.linkEq]; exact h.aligned i hi
          ready := fun hp => by rw [hw.dramEq]; exact h.ready hp
          within := h.within.step hw (by decide) }

theorem State.unlocked_unlocked (s : State) (pll : Fin 8) : Unlocked pll s (s.unlocked pll) := by
  unfold State.unlocked
  split
  · exact s.lost_unlocked pll
  · exact (s.lost_unlocked pll).alignAction _

theorem Cluster.halted_iff (s : State) (l : List Nat) (n : Clu) : Cluster.halted (s.alignView n) l = true ↔
    s.inAction n = true ∧ s.halts n = true ∧ ∃ i ∈ s.crossingsOf n, i ∈ l := by
  rw [← State.halted_eq, Bool.and_eq_true_iff, Bool.and_eq_true_iff, List.any_eq_true, and_assoc]
  simp only [List.contains_iff_mem]

/-- Every cluster that such a crossing serves and whose action is HALT stops; every other is untouched. -/
theorem State.unlocked_clu (s : State) (pll : Fin 8) (n : Clu) :
    if pll ≠ 0 ∧ s.inAction n = true ∧ s.halts n = true ∧ (∃ i ∈ s.crossingsOf n, i ∈ pllCrossings pll)
      then (s.unlocked pll).clu[n].state = .idle ∧ (s.unlocked pll).clu[n].stopReason = 4 else (s.unlocked pll).clu[n] = s.clu[n] := by
  have hw := s.lost_within pll
  have hsame := getClu_of_eq (hw.cluEq (by decide)) n
  unfold State.unlocked
  by_cases h0 : pll = 0
  · rw [if_neg (fun h => h.1 h0), if_pos (by rw [h0]; rfl)]
    exact hsame
  · have hview : ((s.lockLost pll).readyLost pll).alignView n = s.alignView n :=
      Prod.ext hsame (congrArg (fun m => smGet resetWord m (cluA n 0x1C0)) hw.effEq)
    have hact := ((s.lockLost pll).readyLost pll).alignAction_clu (pllCrossings pll) ((s.lockLost pll).readyLost pll).clk.now n
    rw [hview, hsame] at hact
    rw [if_neg (fun h : pll.val = 0 => h0 (Fin.ext h))]
    by_cases hh : Cluster.halted (s.alignView n) (pllCrossings pll) = true
    · rw [if_pos hh] at hact
      rw [if_pos ⟨h0, (Cluster.halted_iff s _ n).1 hh⟩]
      exact hact
    · rw [if_neg hh] at hact
      rw [if_neg (fun h => hh ((Cluster.halted_iff s _ n).2 h.2))]
      exact hact

/-! ### A PLL relocks -/

theorem pllRelock_core {s : State} {tick : Nat} (hu : s.undef = false) : Gives (.pllRelock tick 0) s (fun t =>
    t.clk = { s.clk with now := max s.clk.now tick } ∧ Within [.clk] s t) :=
  gives_branch hu rfl (if_pos (by simp)) ⟨rfl, State.upto_within s tick⟩

/-- The lock bit is set again. -/
def State.relocked (s : State) (pll : Fin 8) : State := s.modClk (fun c => { c with pll := c.pll ||| (1#8 <<< pll.val) })

theorem exec_pllRelock {s : State} {tick : Nat} {pll : Fin 8} (hu : s.undef = false) (hh : s.heldInReset = false)
    (hp : s.clk.pll.getLsbD pll.val = false) (h0 : pll ≠ 0) : exec (.pllRelock tick pll) s = .next
      (if pll.val ≠ 6 ∨ !s.dram.configured ∨ s.dram.selfRefresh then (s.upto tick).relocked pll
        else if s.dram.training = .none then ((s.upto tick).relocked pll).train .short
        else { (s.upto tick).relocked pll with dram := { s.dram with shortNext := true } }) := by
  have hlock : ((s.upto tick).heldInReset || (s.upto tick).clk.pll.getLsbD pll.val || decide (pll.val = 0)) = false := by
    show (s.heldInReset || s.clk.pll.getLsbD pll.val || decide (pll.val = 0)) = false
    rw [hh, hp, decide_eq_false (fun h : pll.val = 0 => h0 (Fin.ext h))]
    rfl
  show execPllRelock tick pll s = _
  rw [execPllRelock, guarded_next hu]
  exact congrArg Host.Outcome.next (if_neg (by rw [hlock]; decide))

theorem pllRelock_other {s : State} {tick : Nat} {pll : Fin 8} (hu : s.undef = false) (hh : s.heldInReset = false)
    (hp : s.clk.pll.getLsbD pll.val = false) (h0 : pll ≠ 0) : Gives (.pllRelock tick pll) s (fun t =>
      t.clk = { s.clk with now := max s.clk.now tick, pll := s.clk.pll ||| (1#8 <<< pll.val) } ∧
      (if pll = 6 ∧ s.dram.configured = true ∧ s.dram.selfRefresh = false then
          (if s.dram.training = .none then t.dram.training = .short else t.dram = { s.dram with shortNext := true })
        else t.dram = s.dram) ∧ Within [.clk, .dram] s t) := by
  have hx := exec_pllRelock (tick := tick) hu hh hp h0
  have hw : Within [.clk] s ((s.upto tick).relocked pll) := (State.upto_within s tick).step (State.modClk_within _ _) (by decide)
  have hclk : ((s.upto tick).relocked pll).clk = { s.clk with now := max s.clk.now tick, pll := s.clk.pll ||| (1#8 <<< pll.val) } := rfl
  by_cases hd : pll = 6 ∧ s.dram.configured = true ∧ s.dram.selfRefresh = false
  · obtain ⟨h6, hc, hr⟩ := hd
    rw [if_neg (by rw [h6, hc, hr]; decide)] at hx
    by_cases ht : s.dram.training = .none
    · rw [if_pos ht] at hx
      obtain ⟨chans, htrain⟩ := ((s.upto tick).relocked pll).train_eq .short
      have hshort : (((s.upto tick).relocked pll).train .short).dram.training = .short := by rw [htrain]
      exact ⟨_, hx, by rw [(State.train_within _ _).clkEq, hclk], by rw [if_pos ⟨h6, hc, hr⟩, if_pos ht, hshort],
        (hw.mono (by decide)).step (State.train_within _ _) (by decide)⟩
    · rw [if_neg ht] at hx
      exact ⟨_, hx, hclk, by rw [if_pos ⟨h6, hc, hr⟩, if_neg ht],
        (hw.mono (by decide)).step (m := [.dram]) (Within.set_dram _ _ rfl rfl) (by decide)⟩
  · have hn : pll.val ≠ 6 ∨ !s.dram.configured ∨ s.dram.selfRefresh := by
      by_contra hno
      push Not at hno
      exact hd ⟨Fin.ext hno.1, by simpa using hno.2.1, by simpa using hno.2.2⟩
    rw [if_pos hn] at hx
    exact ⟨_, hx, hclk, by rw [if_neg hd]; exact hw.dramEq, hw.mono (by decide)⟩

/-! ### The obligation -/

/-- Settles O16: only the alignment action touches clusters, and stopping one of them writes no word of another. -/
theorem pllsLoseAndRegainLock : Obligations.PllsLoseAndRegainLock := by
  unfold Obligations.PllsLoseAndRegainLock
  intro s tick pll hu
  refine ⟨fun hh hp => ?_, fun hh hp h0 => pllRelock_other hu hh hp h0, fun _ => pllRelock_core hu, fun ticks hr => ?_⟩
  · have h := (s.upto tick).unlocked_unlocked pll
    exact ⟨_, exec_pllUnlock hu hh hp, h.lock, h.now, h.flag, h.seq, h.aligned, h.ready, (s.upto tick).unlocked_clu pll,
      ((State.upto_within s tick).mono (by decide)).step h.within (by decide)⟩
  · exact gives_branch hu rfl (if_pos hr) ⟨rfl, State.modClk_within s _⟩

end Sys2Proof.Machine
end

