-- ==== Sys2Proof/Proofs/PowerStates.lean ====
section
/-! PROOF. GO, the answers of the blocks, and the ways into and out of QUIET (R426 to R433; O17). -/
namespace Sys2Proof.Machine

/-! ### The clock while DRAM settles -/

/-- Nothing of the clock changes but the present tick. -/
def NowOnly (s t : State) : Prop := ∃ k, t.clk = { s.clk with now := k }

theorem NowOnly.of_eq {s t : State} (h : t.clk = s.clk) : NowOnly s t := ⟨s.clk.now, h⟩

theorem NowOnly.refl (s : State) : NowOnly s s := NowOnly.of_eq rfl

theorem NowOnly.of_within {l : List Field} {s t : State} (h : Within l s t) (hc : Field.clk ∉ l := by decide) : NowOnly s t :=
  NowOnly.of_eq (h.clkEq hc)

theorem NowOnly.trans {s t u : State} (h : NowOnly s t) (k : NowOnly t u) : NowOnly s u := by
  obtain ⟨x, hx⟩ := h
  obtain ⟨y, hy⟩ := k
  exact ⟨y, by rw [hy, hx]⟩

theorem NowOnly.upto (s : State) (t : Nat) : NowOnly s (s.upto t) := ⟨max s.clk.now t, rfl⟩

theorem NowOnly.of_steps {s t : State} (h : ArbSteps s t) : NowOnly s t :=
  ⟨t.clk.now, (congrArg (fun c : Clock => { c with now := t.clk.now }) h.clk :)⟩

theorem NowOnly.landsClean (s : State) (x : InFlight) (rivals : List (Fin 44 × Nat)) : NowOnly s (s.landsClean x rivals) := by
  have hgrant : NowOnly s ((s.tileGrant (tileOf x.tag.dest.val) x.tag.src s.clk.now rivals).1.upto
      (s.tileGrant (tileOf x.tag.dest.val) x.tag.src s.clk.now rivals).2) :=
    (NowOnly.of_steps (State.tileGrant_steps s _ _ _ _)).trans (NowOnly.upto _ _)
  unfold State.landsClean
  dsimp only
  generalize (s.tileGrant (tileOf x.tag.dest.val) x.tag.src s.clk.now rivals).1.upto _ = u at *
  refine (hgrant.trans (NowOnly.of_within (l := [.flg, .ctr, .msix]) ?_)).trans (NowOnly.of_within (State.landWrite_within _ x _))
  have hrt : Within [.flg, .ctr, .msix] u (if x.tag.rt then u.count (chanA (unitChan x.tag.addr.toNat) 0x1C) 1 else u) :=
    Within.ite ((State.count_within _ _ _).mono (by decide)) (Within.refl _ u)
  exact Within.ite ((hrt.step (State.count_within _ _ _) (by decide)).step (State.setBit_within _ _ _) (by decide)) hrt

theorem NowOnly.landAccess (s : State) (x : InFlight) (edc : EdcOutcome) (rivals : List (Fin 44 × Nat)) :
    NowOnly s (s.landAccess x edc rivals) := by
  have hleave := NowOnly.of_within (s.leaveChannel_within x edc)
  have hloader : ∀ (u : State) e, NowOnly u (u.loaderGets x.tag.addr.toNat e) := fun _ _ => NowOnly.of_eq rfl
  cases edc with
  | ok k =>
    rw [State.landAccess_ok]
    split
    · exact hleave.trans (hloader _ _)
    · exact hleave.trans (NowOnly.landsClean _ x rivals)
  | escaped =>
    rw [State.landAccess_escaped]
    have hesc := hleave.trans (NowOnly.of_within (State.escape_within _ (x.tag.addr.toNat * 64) false x.tag.src.val))
    dsimp only
    split
    · exact hesc.trans (hloader _ _)
    · exact hesc

theorem NowOnly.landAll (s : State) (fuel : Nat) : NowOnly s (s.landAll fuel) := by
  induction fuel generalizing s with
  | zero => exact NowOnly.refl s
  | succ fuel ih =>
    unfold State.landAll
    split
    · exact NowOnly.refl s
    · exact (NowOnly.landAccess s _ _ _).trans (ih _)

theorem NowOnly.settleDram (s : State) : NowOnly s s.settleDram := by
  have hdrain : ∀ (l : List HostWrite) (u : State), NowOnly u (l.foldl (fun s _ => s.drain []) u) := fun l u =>
    foldl_rel NowOnly NowOnly.refl NowOnly.trans _ (fun v _ => NowOnly.of_within (State.drain_within v [])) l u
  unfold State.settleDram
  dsimp only
  exact (((NowOnly.landAll s s.flights.length).trans (hdrain _ _)).trans (NowOnly.of_within (State.closeRows_within _))).trans
    (foldl_rel NowOnly NowOnly.refl NowOnly.trans _ (fun v g => NowOnly.of_within (State.modChan_within v g _)) _ _)

theorem NowOnly.selfRefreshIn (s : State) : NowOnly s s.selfRefreshIn := by
  have hsettle := NowOnly.settleDram s
  rw [State.selfRefreshIn_eq]
  generalize s.settleDram = u at *
  exact hsettle.trans (NowOnly.of_eq rfl)

/-! ### GO (R430) -/

/-- The target that PWR_CTRL names in force. -/
def State.goTarget (s : State) : Nat := s.effF (clkA 0) 5 4

theorem State.goTarget_is (s : State) (k : Nat) (hk : k < 4) : BitVec.ofNat 2 s.goTarget = BitVec.ofNat 2 k ↔ s.goTarget = k := by
  have hlt : s.goTarget < 4 := fld_lt
  refine ⟨fun h => ?_, fun h => congrArg (BitVec.ofNat 2) h⟩
  have hn := congrArg BitVec.toNat h
  rw [BitVec.toNat_ofNat, BitVec.toNat_ofNat] at hn
  omega

/-- GO is dropped: the phase is neither RUN nor QUIET, or the target is none that it leads to. -/
def State.goDropped (s : State) : Prop :=
  (s.pwr.phase ≠ .none ∧ s.pwr.phase ≠ .quiet) ∨ s.goTarget = 3 ∨ (s.pwr.phase = .none ∧ s.goTarget = 0) ∨
    (s.pwr.phase = .quiet ∧ s.goTarget = 1)

theorem State.goDropped_iff (s : State) : (!(decide (s.pwr.phase = .quiet) || decide (s.pwr.phase = .none)) ||
    decide (BitVec.ofNat 2 s.goTarget = 3) || (decide (BitVec.ofNat 2 s.goTarget = 0) && !decide (s.pwr.phase = .quiet)) ||
    (decide (BitVec.ofNat 2 s.goTarget = 1) && decide (s.pwr.phase = .quiet))) = true ↔ s.goDropped := by
  have h3 : BitVec.ofNat 2 s.goTarget = 3 ↔ s.goTarget = 3 := s.goTarget_is 3 (by decide)
  have h1 : BitVec.ofNat 2 s.goTarget = 1 ↔ s.goTarget = 1 := s.goTarget_is 1 (by decide)
  have h0 : BitVec.ofNat 2 s.goTarget = 0 ↔ s.goTarget = 0 := s.goTarget_is 0 (by decide)
  unfold State.goDropped
  simp only [h3, h1, h0]
  cases hph : s.pwr.phase <;> simp

theorem exec_powerGo {s : State} (hu : s.undef = false) : exec .powerGo s = .next
    (if !(decide (s.pwr.phase = .quiet) || decide (s.pwr.phase = .none)) || decide (BitVec.ofNat 2 s.goTarget = 3) ||
        (decide (BitVec.ofNat 2 s.goTarget = 0) && !decide (s.pwr.phase = .quiet)) ||
        (decide (BitVec.ofNat 2 s.goTarget = 1) && decide (s.pwr.phase = .quiet)) then
      ((s.cmdTake (clkA 0) 1).modPwr (fun p => { p with resCode := 3 })).setBit (clkA 0xC) 6
    else if BitVec.ofNat 2 s.goTarget = 0 then (s.cmdTake (clkA 0) 1).leaveQuiet
    else (s.cmdTake (clkA 0) 1).modPwr (fun p => { p with
      phase := .preparing, target := BitVec.ofNat 2 s.goTarget, wasQuiet := decide (s.pwr.phase = .quiet), refusedAt := none
      agreed := [] })) := by
  show execPowerGo s = _
  rw [execPowerGo, guarded_next hu]
  rfl

theorem powerGo_asks {s : State} (hu : s.undef = false) (h : (s.pwr.phase = .none ∧ (s.goTarget = 1 ∨ s.goTarget = 2)) ∨
    (s.pwr.phase = .quiet ∧ s.goTarget = 2)) : Gives .powerGo s (fun t =>
      t.pwr.phase = .preparing ∧ t.pwr.target.toNat = s.goTarget ∧ t.pwr.agreed = [] ∧ t.pwr.wasQuiet = decide (s.pwr.phase = .quiet) ∧
      t.pwr.prepared = s.pwr.prepared ∧ CmdsBut [clkA 0] s t ∧ Within [.pwr, .cmd, .more] s t) := by
  have hgo : ¬ s.goDropped := by
    unfold State.goDropped
    rcases h with ⟨hp, ht | ht⟩ | ⟨hp, ht⟩ <;> simp [hp, ht]
  have h0 : ¬ BitVec.ofNat 2 s.goTarget = 0 := fun e => by
    have hz : s.goTarget = 0 := (s.goTarget_is 0 (by decide)).1 e
    omega
  have hlt : s.goTarget < 4 := fld_lt
  have hx := exec_powerGo hu
  rw [if_neg (fun hd => hgo (s.goDropped_iff.1 hd)), if_neg h0] at hx
  refine ⟨_, hx, rfl, ?_, rfl, rfl, rfl, (s.cmdTake_takes (clkA 0) 1).2.2, ?_⟩
  · show (BitVec.ofNat 2 s.goTarget).toNat = _
    rw [BitVec.toNat_ofNat]
    omega
  · exact ((State.cmdTake_within s _ 1).mono (by decide)).step (State.modPwr_within _ _) (by decide)

theorem State.leaveQuiet_clk (s : State) : s.leaveQuiet.clk = { s.clk with
    patRun := s.clk.plan.extractLsb' 8 4, convRun := s.clk.plan.extractLsb' 0 4 } := by
  have hstart : (s.playClocksStart.modPwr (fun p => { p with phase := .resuming })).clk = { s.clk with
    patRun := s.clk.plan.extractLsb' 8 4, convRun := s.clk.plan.extractLsb' 0 4 } := rfl
  unfold State.leaveQuiet
  dsimp only
  split
  · rw [(State.train_within _ _).clkEq, hstart]
  · exact hstart

theorem State.leaveQuiet_pwr (s : State) : s.leaveQuiet.pwr = { s.pwr with phase := .resuming } := by
  have hstart : (s.playClocksStart.modPwr (fun p => { p with phase := .resuming })).pwr = { s.pwr with phase := .resuming } := rfl
  unfold State.leaveQuiet
  dsimp only
  split
  · rw [(State.train_within _ _).pwrEq, hstart]
  · exact hstart

theorem State.leaveQuiet_dram {s : State} (h : s.dram.selfRefresh = true) :
    s.leaveQuiet.dram.training = .short ∧ s.leaveQuiet.dram.selfRefresh = false := by
  obtain ⟨chans, htrain⟩ := (s.playClocksStart.modPwr (fun p => { p with phase := .resuming })).train_eq .short
  have hleave : s.leaveQuiet = (s.playClocksStart.modPwr (fun p => { p with phase := .resuming })).train .short := if_pos h
  rw [hleave, htrain]
  exact ⟨rfl, rfl⟩

theorem powerGo_resumes {s : State} (hu : s.undef = false) (hq : s.pwr.phase = .quiet) (ht : s.goTarget = 0) : Gives .powerGo s (fun t =>
    t.pwr.phase = .resuming ∧ t.clk.patRun = s.clk.plan.extractLsb' 8 4 ∧ t.clk.convRun = s.clk.plan.extractLsb' 0 4 ∧
      (s.dram.selfRefresh = true → t.dram.training = .short ∧ t.dram.selfRefresh = false) ∧ CmdsBut [clkA 0] s t ∧
      Within [.clk, .pwr, .cmd, .more, .dram] s t) := by
  have hgo : ¬ s.goDropped := by
    unfold State.goDropped
    simp [hq, ht]
  have h0 : BitVec.ofNat 2 s.goTarget = 0 := (s.goTarget_is 0 (by decide)).2 ht
  have hx := exec_powerGo hu
  rw [if_neg (fun hd => hgo (s.goDropped_iff.1 hd)), if_pos h0] at hx
  have htake := State.cmdTake_within s (clkA 0) 1
  have hleave := (s.cmdTake (clkA 0) 1).leaveQuiet_within
  refine ⟨_, hx, ?_, ?_, ?_, fun hr => State.leaveQuiet_dram (s := s.cmdTake (clkA 0) 1) hr, ?_, (htake.mono (by decide)).step hleave (by decide)⟩
  · rw [State.leaveQuiet_pwr]
  · rw [State.leaveQuiet_clk]; rfl
  · rw [State.leaveQuiet_clk]; rfl
  · exact (s.cmdTake_takes (clkA 0) 1).2.2.trans (hleave.cmdsBut _)

theorem powerGo_drops {s : State} (hu : s.undef = false) (hd : s.goDropped) : Gives .powerGo s (fun t =>
    t.pwr = { s.pwr with resCode := 3 } ∧ t.flag (clkA 0xC) = s.flag (clkA 0xC) ||| bit32 6 ∧ FlagsBut [clkA 0xC] s t ∧
      CmdsBut [clkA 0] s t ∧ Within [.pwr, .flg, .cmd, .more, .msix] s t) := by
  have hx := exec_powerGo hu
  rw [if_pos (s.goDropped_iff.2 hd)] at hx
  have hpre : Within [.pwr, .cmd, .more] s ((s.cmdTake (clkA 0) 1).modPwr (fun p => { p with resCode := 3 })) :=
    ((State.cmdTake_within s _ 1).mono (by decide)).step (State.modPwr_within _ _) (by decide)
  have hset := State.setBit_within ((s.cmdTake (clkA 0) 1).modPwr (fun p => { p with resCode := 3 })) (clkA 0xC) 6
  refine ⟨_, hx, ?_, ?_, (hpre.flagsBut _).setBit 6 (List.mem_singleton_self _), ?_, (hpre.mono (by decide)).step hset (by decide)⟩
  · rw [hset.pwrEq]; rfl
  · rw [State.flag_setBit_self _ 6 (by decide), hpre.flagEq]
  · exact (s.cmdTake_takes (clkA 0) 1).2.2.trans (CmdsBut.trans (fun _ _ => ⟨rfl, rfl⟩) (hset.cmdsBut _))

/-! ### The answers of the blocks (R431 to R433) -/

/-- The blocks that have agreed, with one more. -/
def State.agreedWith (s : State) (b : Fin 13) : List (Fin 13) := if s.pwr.agreed.contains b then s.pwr.agreed else s.pwr.agreed ++ [b]

theorem exec_blockAnswer {s : State} {tick : Nat} {b : Fin 13} (hu : s.undef = false) (hp : s.pwr.phase = .preparing) :
    exec (.powerBlockAnswer tick b) s = .next (if s.blockRefuses s.pwr.target b then (s.upto tick).requestRefuse b
      else (s.upto tick).blockAgrees b) := by
  show execPowerBlockAnswer tick b s = _
  rw [execPowerBlockAnswer, guarded_next hu]
  exact congrArg Host.Outcome.next (if_pos hp)

/-- What a refusal leaves before what it held acts. -/
def State.refusal (s : State) (b : Fin 13) : State :=
  ((s.modPwr (fun p => { p with
    phase := if p.wasQuiet then .quiet else .none, resCode := 2, resBlock := BitVec.ofNat 8 b.val, refusedAt := some s.clk.now
    agreed := [], prepared := if p.wasQuiet then s.quietBlocks else [] })).setBit (clkA 0xC) 1).upto (s.clk.now + 1)

theorem State.requestRefuse_eq (s : State) (b : Fin 13) : s.requestRefuse b = (s.refusal b).runHeld := rfl

theorem State.refusal_within (s : State) (b : Fin 13) : Within [.clk, .pwr, .flg, .msix] s (s.refusal b) := by
  unfold State.refusal
  exact (((State.modPwr_within s _).mono (by decide)).step (State.setBit_within _ _ _) (by decide)).step (State.upto_within _ _) (by decide)

theorem State.refusal_pwr (s : State) (b : Fin 13) : (s.refusal b).pwr = { s.pwr with
    phase := if s.pwr.wasQuiet then .quiet else .none, resCode := 2, resBlock := BitVec.ofNat 8 b.val, refusedAt := some s.clk.now
    agreed := [], prepared := if s.pwr.wasQuiet then s.quietBlocks else [] } := by
  unfold State.refusal
  rw [State.upto_pwr, (State.setBit_within _ _ _).pwrEq]
  rfl

theorem State.refusal_now (s : State) (b : Fin 13) : (s.refusal b).clk.now = s.clk.now + 1 := by
  have hnow : ∀ u : State, u.clk.now = s.clk.now → (u.upto (s.clk.now + 1)).clk.now = s.clk.now + 1 := fun u hu => by
    show max u.clk.now (s.clk.now + 1) = _
    omega
  unfold State.refusal
  exact hnow _ (congrArg Clock.now (State.setBit_within _ _ _).clkEq)

theorem State.refusal_flag (s : State) (b : Fin 13) : (s.refusal b).flag (clkA 0xC) = s.flag (clkA 0xC) ||| bit32 1 := by
  unfold State.refusal
  rw [(State.upto_within _ _).flagEq, State.flag_setBit_self _ 1 (by decide), (State.modPwr_within s _).flagEq]

theorem blockAnswer_refuses {s : State} {tick : Nat} {b : Fin 13} (hu : s.undef = false) (hp : s.pwr.phase = .preparing)
    (hr : s.blockRefuses s.pwr.target b = true) (hheld : s.pwr.held = []) : Gives (.powerBlockAnswer tick b) s (fun t =>
      t.pwr.phase = (if s.pwr.wasQuiet then .quiet else .none) ∧ t.pwr.resCode = 2 ∧ t.pwr.resBlock.toNat = b.val ∧
      t.pwr.agreed = [] ∧ t.clk.now = max s.clk.now tick + 1 ∧ t.flag (clkA 0xC) = s.flag (clkA 0xC) ||| bit32 1 ∧
      Within [.clk, .pwr, .flg, .msix] s t) := by
  have hx := exec_blockAnswer (tick := tick) (b := b) hu hp
  have hpwr := (s.upto tick).refusal_pwr b
  have hnone : ((s.upto tick).refusal b).pwr.held = [] := by rw [hpwr]; exact hheld
  rw [if_pos hr, State.requestRefuse_eq, State.runHeld_of_nil hnone] at hx
  refine ⟨_, hx, ?_, ?_, ?_, ?_, State.refusal_now _ b, ?_, ((State.upto_within s tick).mono (by decide)).step (State.refusal_within _ b) (by decide)⟩
  · rw [hpwr]; rfl
  · rw [hpwr]
  · rw [hpwr]
    show (BitVec.ofNat 8 b.val).toNat = b.val
    rw [BitVec.toNat_ofNat]
    omega
  · rw [hpwr]
  · exact State.refusal_flag _ b

/-- A block that agrees is prepared. -/
def State.agreed (s : State) (b : Fin 13) : State :=
  (if b = 9 then s.tuneStop else s).modPwr (fun p => { p with
    agreed := if p.agreed.contains b then p.agreed else p.agreed ++ [b]
    prepared := if p.prepared.contains b then p.prepared else p.prepared ++ [b] })

theorem State.blockAgrees_eq (s : State) (b : Fin 13) : s.blockAgrees b =
    if (s.agreed b).pwr.agreed.length < 13 then s.agreed b
    else if (s.agreed b).pwr.target = 1 then (s.agreed b).enterQuiet
    else (((s.agreed b).modPwr (fun p => { p with phase := .saving, agreed := [] })).modClk (fun c => { c with aonSaved := c.aonPeriod })).watchPause :=
  rfl

theorem State.tuneFirst_within (s : State) (b : Fin 13) : Within [.mem] s (if b = 9 then s.tuneStop else s) :=
  Within.ite s.tuneStop_within (Within.refl _ s)

theorem State.agreed_within (s : State) (b : Fin 13) : Within [.pwr, .mem] s (s.agreed b) :=
  ((s.tuneFirst_within b).mono (by decide)).step (State.modPwr_within _ _) (by decide)

theorem State.agreed_pwr (s : State) (b : Fin 13) : (s.agreed b).pwr = { s.pwr with
    agreed := s.agreedWith b, prepared := if s.pwr.prepared.contains b then s.pwr.prepared else s.pwr.prepared ++ [b] } := by
  have hmod : ∀ (u : State) (f : Power → Power), (u.modPwr f).pwr = f u.pwr := fun _ _ => rfl
  unfold State.agreed State.agreedWith
  rw [hmod, (s.tuneFirst_within b).pwrEq]

theorem State.agreed_prepared (s : State) (b : Fin 13) : (s.agreed b).pwr.prepared.contains b = true := by
  rw [State.agreed_pwr]
  dsimp only
  split
  · assumption
  · simp

/-- The first steps into QUIET: the play clocks stop, and DRAM sleeps where the policy asks for it. -/
def State.quieted (s : State) : State :=
  if s.pwr.quietSr ∧ s.dram.configured then s.playClocksStop.selfRefreshIn else s.playClocksStop

/-- QUIET before what was held acts. -/
def State.quietState (s : State) : State :=
  (s.quieted.modPwr (fun p => { p with phase := .quiet, resCode := 1, agreed := [], prepared := s.quieted.quietBlocks })).setBit (clkA 0xC) 0

theorem State.enterQuiet_eq (s : State) : s.enterQuiet = s.quietState.runHeld := rfl

theorem State.quieted_within (s : State) :
    Within [.clk, .link, .ovl, .flg, .ctr, .clu, .dram, .bytes, .mem, .host, .msix, .flt, .plc, .freeN] s s.quieted := by
  have hstop : Within [.clk, .link, .ovl, .flg, .ctr, .clu, .dram, .bytes, .mem, .host, .msix, .flt, .plc, .freeN] s s.playClocksStop :=
    s.playClocksStop_within.mono (by decide)
  exact Within.ite (hstop.step (State.selfRefreshIn_within _) (by decide)) hstop

theorem State.quieted_clk (s : State) : ∃ k, s.quieted.clk = { s.playClocksStop.clk with now := k } := by
  unfold State.quieted
  split
  · exact NowOnly.selfRefreshIn _
  · exact NowOnly.refl _

theorem State.playClocksStop_clk (s : State) : s.playClocksStop.clk.patRun = 0 ∧ s.playClocksStop.clk.convRun = 0 ∧
    s.playClocksStop.clk.aligned &&& 0x0FFF = 0 := by
  unfold State.playClocksStop
  rw [State.misalign_clk]
  exact ⟨rfl, rfl, and_not_and _ _⟩

theorem State.quietState_within (s : State) :
    Within [.pwr, .clk, .link, .ovl, .flg, .ctr, .clu, .dram, .bytes, .mem, .host, .msix, .flt, .plc, .freeN] s s.quietState :=
  ((s.quieted_within.mono (by decide)).step (State.modPwr_within _ _) (by decide)).step (State.setBit_within _ _ _) (by decide)

theorem State.quietState_marks (s : State) : Within [.pwr, .flg, .msix] s.quieted s.quietState :=
  ((State.modPwr_within _ _).mono (by decide)).step (State.setBit_within _ _ _) (by decide)

theorem State.quietState_pwr (s : State) : s.quietState.pwr = { s.pwr with
    phase := .quiet, resCode := 1, agreed := [], prepared := s.quieted.quietBlocks } := by
  have hmod : ∀ (u : State) (f : Power → Power), (u.modPwr f).pwr = f u.pwr := fun _ _ => rfl
  unfold State.quietState
  rw [(State.setBit_within _ _ _).pwrEq, hmod, s.quieted_within.pwrEq]

theorem State.quietState_clk (s : State) : s.quietState.clk.patRun = 0 ∧ s.quietState.clk.convRun = 0 ∧
    s.quietState.clk.aligned &&& 0x0FFF = 0 := by
  obtain ⟨k, hk⟩ := s.quieted_clk
  rw [s.quietState_marks.clkEq, hk]
  exact s.playClocksStop_clk

theorem State.quietState_dram {s : State} (hq : s.pwr.quietSr = true) (hc : s.dram.configured = true) :
    s.quietState.dram.selfRefresh = true := by
  have hin : s.quieted = s.playClocksStop.selfRefreshIn := if_pos ⟨hq, hc⟩
  rw [s.quietState_marks.dramEq, hin]
  exact (State.selfRefreshIn_dram _).1

theorem blockAnswer_agrees {s : State} {tick : Nat} {b : Fin 13} (hu : s.undef = false) (hp : s.pwr.phase = .preparing)
    (hr : s.blockRefuses s.pwr.target b = false) (hl : (s.agreedWith b).length < 13) : Gives (.powerBlockAnswer tick b) s (fun t =>
      t.pwr.phase = .preparing ∧ t.pwr.agreed = s.agreedWith b ∧ t.pwr.prepared.contains b = true ∧ Within [.clk, .pwr, .mem] s t) := by
  have hx := exec_blockAnswer (tick := tick) (b := b) hu hp
  have hpwr := (s.upto tick).agreed_pwr b
  rw [if_neg (by rw [hr]; decide), State.blockAgrees_eq, if_pos (by rw [hpwr]; exact hl)] at hx
  refine ⟨_, hx, ?_, ?_, State.agreed_prepared _ b, ((State.upto_within s tick).mono (by decide)).step (State.agreed_within _ b) (by decide)⟩
  · rw [hpwr]; exact hp
  · rw [hpwr]; rfl

theorem blockAnswer_quiets {s : State} {tick : Nat} {b : Fin 13} (hu : s.undef = false) (hp : s.pwr.phase = .preparing)
    (hr : s.blockRefuses s.pwr.target b = false) (hl : (s.agreedWith b).length = 13) (ht : s.pwr.target = 1) (hheld : s.pwr.held = []) :
    Gives (.powerBlockAnswer tick b) s (fun t =>
      t.pwr.phase = .quiet ∧ t.pwr.resCode = 1 ∧ t.clk.patRun = 0 ∧ t.clk.convRun = 0 ∧ t.clk.aligned &&& 0x0FFF = 0 ∧
      (t.flag (clkA 0xC)).getLsbD 0 = true ∧ (s.pwr.quietSr = true → s.dram.configured = true → t.dram.selfRefresh = true)) := by
  have hx := exec_blockAnswer (tick := tick) (b := b) hu hp
  have hpwr := (s.upto tick).agreed_pwr b
  have hquiet := ((s.upto tick).agreed b).quietState_pwr
  have hnone : ((s.upto tick).agreed b).quietState.pwr.held = [] := by rw [hquiet, hpwr]; exact hheld
  rw [if_neg (by rw [hr]; decide), State.blockAgrees_eq, if_neg (by rw [hpwr]; exact (Nat.not_lt.2 hl.ge)), if_pos (by rw [hpwr]; exact ht),
    State.enterQuiet_eq, State.runHeld_of_nil hnone] at hx
  obtain ⟨hpat, hconv, haligned⟩ := ((s.upto tick).agreed b).quietState_clk
  refine ⟨_, hx, ?_, ?_, hpat, hconv, haligned, ?_, fun hq hc => State.quietState_dram (by rw [hpwr]; exact hq) ?_⟩
  · rw [hquiet]
  · rw [hquiet]
  · exact State.flagBit_setBit _ (by decide) (by decide)
  · rw [((s.upto tick).agreed_within b).dramEq]
    exact hc

theorem blockAnswer_saves {s : State} {tick : Nat} {b : Fin 13} (hu : s.undef = false) (hp : s.pwr.phase = .preparing)
    (hr : s.blockRefuses s.pwr.target b = false) (hl : (s.agreedWith b).length = 13) (ht : s.pwr.target ≠ 1) :
    Gives (.powerBlockAnswer tick b) s (fun t =>
      t.pwr.phase = .saving ∧ t.pwr.agreed = [] ∧ t.clk.aonSaved = s.clk.aonPeriod ∧
      t.flt.pausedAt = some (s.flt.pausedAt.getD (max s.clk.now tick)) ∧ Within [.clk, .pwr, .mem, .flt] s t) := by
  have hx := exec_blockAnswer (tick := tick) (b := b) hu hp
  have hpwr := (s.upto tick).agreed_pwr b
  have hagree := (s.upto tick).agreed_within b
  have hclk : ((s.upto tick).agreed b).clk = { s.clk with now := max s.clk.now tick } := hagree.clkEq
  have hflt : ((s.upto tick).agreed b).flt = s.flt := hagree.fltEq
  have hw : Within [.clk, .pwr, .mem] s ((s.upto tick).agreed b) := ((State.upto_within s tick).mono (by decide)).step hagree (by decide)
  rw [if_neg (by rw [hr]; decide), State.blockAgrees_eq, if_neg (by rw [hpwr]; exact (Nat.not_lt.2 hl.ge)), if_neg (by rw [hpwr]; exact ht)] at hx
  generalize (s.upto tick).agreed b = u at *
  refine ⟨_, hx, rfl, rfl, ?_, ?_, (((hw.mono (by decide)).step (State.modPwr_within _ _) (by decide)).step (State.modClk_within _ _)
    (by decide)).step (State.watchPause_within _) (by decide)⟩
  · show u.clk.aonPeriod = _
    rw [hclk]
  · show some (u.flt.pausedAt.getD u.clk.now) = _
    rw [hclk, hflt]

/-! ### The end of RESUMING (R429) -/

theorem quietResumeDone_ends {s : State} (hu : s.undef = false) (hp : s.pwr.phase = .resuming) (ht : s.dram.training ≠ .short)
    (hheld : s.pwr.held = []) : Gives .quietResumeDone s (fun t =>
      t.pwr.phase = .none ∧ t.pwr.prepared = [] ∧ t.flag (clkA 0xC) = s.flag (clkA 0xC) ||| bit32 4 ∧
      FlagsBut [clkA 0xC] s t ∧ Within [.pwr, .flg, .msix] s t) := by
  have hmod := State.modPwr_within s (fun p => { p with phase := .none, prepared := [] })
  have hset := State.setBit_within (s.modPwr (fun p => { p with phase := .none, prepared := [] })) (clkA 0xC) 4
  have hpwr : ((s.modPwr (fun p => { p with phase := .none, prepared := [] })).setBit (clkA 0xC) 4).pwr =
      { s.pwr with phase := .none, prepared := [] } := by rw [hset.pwrEq]; rfl
  refine gives_branch hu rfl ((if_neg (by rw [hp]; simp [ht])).trans (State.runHeld_of_nil (by rw [hpwr]; exact hheld)))
    ⟨by rw [hpwr], by rw [hpwr], ?_, (hmod.flagsBut _).setBit 4 (List.mem_singleton_self _), (hmod.mono (by decide)).step hset (by decide)⟩
  rw [State.flag_setBit_self _ 4 (by decide), hmod.flagEq]

/-! ### The obligation -/

/-- Settles O17: each way of a request is one update of the power state, and with no command held nothing acts after it. -/
theorem powerRequests : Obligations.PowerRequests := by
  unfold Obligations.PowerRequests
  intro s hu
  exact ⟨⟨fun h => powerGo_asks hu h, fun h => powerGo_resumes hu h.1 h.2, fun h => powerGo_drops hu h⟩,
    fun tick b hp => ⟨fun hr hheld => blockAnswer_refuses hu hp hr hheld, fun hr hl => blockAnswer_agrees hu hp hr hl,
      fun hr hl ht hheld => blockAnswer_quiets hu hp hr hl ht hheld, fun hr hl ht => blockAnswer_saves hu hp hr hl ht⟩,
    fun hp ht hheld => quietResumeDone_ends hu hp ht hheld⟩

end Sys2Proof.Machine
end

