-- ==== Sys2Proof/Proofs/Winter.lean ====
section
/-! PROOF. The parking copy, the commit window and the wakes (R283, R429, R434 to R438; O18). -/
namespace Sys2Proof.Machine

/-! ### Bytes of DRAM -/

/-- What leaves the contents of DRAM leaves every byte. -/
theorem State.dramByte_congr {s t : State} (h : t.dram.cells = s.dram.cells ∧ t.dram.gen = s.dram.gen) (a : Nat) :
    t.dramByte a = s.dramByte a := by
  unfold State.dramByte State.dramDefault
  rw [h.1, h.2]

theorem Within.dramByteEq {l : List Field} {s t : State} (h : Within l s t) (a : Nat) (hl : Field.bytes ∉ l := by decide) :
    t.dramByte a = s.dramByte a := State.dramByte_congr (h.bytesEq hl) a

theorem State.dramWrite_byte (s : State) {a i : Nat} {l : List (Option Byte)} {b : Byte} (h : l[i]? = some (some b)) :
    (s.dramWrite a l).dramByte (a + i) = b := smGet_putBytes s.dramDefault l s.dram.cells a i b h

theorem State.dramWrite_byte_other (s : State) {a j : Nat} {l : List (Option Byte)} (h : j < a ∨ a + l.length ≤ j) :
    (s.dramWrite a l).dramByte j = s.dramByte j := smGet_putBytes_other s.dramDefault l s.dram.cells a j h

/-- An escape leaves the bytes of every other unit. -/
theorem State.smear_byte_other (s : State) {x a : Nat} (h : a / 64 * 64 ≠ x / 64 * 64) : (s.smear x).dramByte a = s.dramByte a := by
  have hwrite := s.dramWrite_byte_other (a := x / 64 * 64) (j := a)
    (l := (List.range 64).map (fun i => some (Config.escapedByte s.freeN (x / 64 * 64 + i))))
    (by rw [List.length_map, List.length_range]; omega)
  exact hwrite

theorem State.smearEscapes_byte (write : Bool) (src : Nat) (l : List Nat) (s : State) {a : Nat} (h : ∀ x ∈ l, a / 64 * 64 ≠ x / 64 * 64) :
    (l.foldl (fun s x => (s.smear x).escape x write src) s).dramByte a = s.dramByte a := by
  induction l generalizing s with
  | nil => rfl
  | cons x r ih =>
    rw [List.foldl_cons, ih _ (fun y hy => h y (List.mem_cons_of_mem _ hy)), (State.escape_within _ x write src).dramByteEq,
      State.smear_byte_other s (h x List.mem_cons_self)]

theorem escapesOf_aligned {l : List (Nat × EdcOutcome)} {x : Nat} (h : x ∈ escapesOf l) : x / 64 * 64 = x := by
  obtain ⟨y, -, hy⟩ := List.mem_map.1 h
  rw [← hy]
  omega

/-! ### The parking copy (R434) -/

/-- The bytes of the copy, with its CRC-32 behind them. -/
def Tables.copy (t : Tables) : List Byte := t.words.flatMap wordBytes ++ wordBytes (crc32 (t.words.flatMap wordBytes))

/-- The copy as it is written, and what the bursts that escape leave of it. -/
def State.parkWritten (s : State) : State := (s.hostAccesses s.parkBursts).dramWrite s.parkBase (s.tabs.copy.map some)

def State.parkEscaped (s : State) : State :=
  (escapesOf s.parkBursts).foldl (fun s x => (s.smear x).escape x true Config.parkMaster.toNat) s.parkWritten

theorem State.parkTables_eq (s : State) : s.parkTables = { s.parkEscaped with freeN := s.parkEscaped.freeN + 1 } := rfl

theorem State.parkTables_byte (s : State) {i : Nat} {b : Byte} (h : s.tabs.copy[i]? = some b)
    (he : (s.parkBase + i) / 64 * 64 ∉ escapesOf s.parkBursts) : s.parkTables.dramByte (s.parkBase + i) = b := by
  have hput : s.parkWritten.dramByte (s.parkBase + i) = b := State.dramWrite_byte _ (by rw [List.getElem?_map, h]; rfl)
  have hkeep : s.parkEscaped.dramByte (s.parkBase + i) = s.parkWritten.dramByte (s.parkBase + i) :=
    State.smearEscapes_byte true _ _ _ (fun x hx e => he (by rw [e, escapesOf_aligned hx]; exact hx))
  rw [State.parkTables_eq, ← hput, ← hkeep]
  generalize s.parkEscaped = u
  rfl

/-- The records that wait are written first (R464). -/
def State.recordsOut (s : State) : State := s.flt.queue.foldl (fun s _ => s.writeRecord) s

theorem State.recordsOut_within (s : State) : Within [.flg, .ctr, .msix, .flt] s s.recordsOut :=
  (Within.refl _ s).fold fun u _ h => h.step u.writeRecord_within (by decide)

theorem State.parkBursts_congr {s t : State} (hp : t.dram.part = s.dram.part) (hf : t.freeN = s.freeN) (he : t.eff = s.eff) :
    t.parkBase = s.parkBase ∧ t.parkBursts = s.parkBursts := by
  unfold State.parkBursts State.parkBase State.dramPart State.retryMax State.effF State.effW
  rw [hp, hf, he]
  exact ⟨rfl, rfl⟩

/-- A frame that does not name the host keeps the writes that it has accepted. -/
theorem Within.hostWritesEq {l : List Field} {s t : State} (h : Within l s t) (hl : Field.host ∉ l := by decide) :
    t.host.writes = s.host.writes := by
  have hhost : ({ t.host with msixPending := s.host.msixPending, msixSent := s.host.msixSent, msixLast := s.host.msixLast } : HostIf) =
    s.host := h .host hl
  have hwrites := congrArg HostIf.writes hhost
  exact hwrites

/-- With no write to drain, self-refresh leaves the contents. -/
theorem State.selfRefreshIn_bytes {s : State} (h : s.host.writes = []) (a : Nat) : s.selfRefreshIn.dramByte a = s.dramByte a := by
  have hsettle : s.settleDram.dramByte a = s.dramByte a := by
    unfold State.settleDram
    rw [h]
    exact (((((s.landAll_within s.flights.length).mono (l := [.clk, .ovl, .flg, .ctr, .clu, .dram, .mem, .msix, .flt, .plc])
      (m := [.clk, .ovl, .flg, .ctr, .clu, .dram, .mem, .msix, .flt, .plc]) (by decide)).step (State.closeRows_within _) (by decide)).fold
      fun u g hu => hu.step (State.modChan_within u g _) (by decide))).dramByteEq a
  rw [State.selfRefreshIn_eq, ← hsettle]
  generalize s.settleDram = u
  rfl

/-- SAVING ends (R434). -/
def State.saved (s : State) : State :=
  if s.recordsOut.dram.configured then s.recordsOut.parkTables.selfRefreshIn else s.recordsOut

theorem exec_winterSaveDone {s : State} (hu : s.undef = false) (hp : s.pwr.phase = .saving) :
    exec .winterSaveDone s = .next (s.saved.modPwr (fun p => { p with phase := .commit, cycle := 0 })) := by
  show execWinterSaveDone s = _
  rw [execWinterSaveDone, guarded_next hu]
  exact congrArg Host.Outcome.next (if_neg (fun h => h hp))

theorem State.saved_within (s : State) : Within [.clk, .ovl, .flg, .ctr, .clu, .dram, .bytes, .mem, .host, .msix, .flt, .plc, .freeN] s s.saved := by
  have hrec : Within [.clk, .ovl, .flg, .ctr, .clu, .dram, .bytes, .mem, .host, .msix, .flt, .plc, .freeN] s s.recordsOut :=
    s.recordsOut_within.mono (by decide)
  exact Within.ite ((hrec.step (State.parkTables_within _) (by decide)).step (State.selfRefreshIn_within _) (by decide)) hrec

theorem State.saved_dram {s : State} (h : s.dram.configured = true) : s.saved.dram.selfRefresh = true ∧ s.saved.dram.ready = false := by
  have hin : s.saved = s.recordsOut.parkTables.selfRefreshIn := if_pos (by rw [s.recordsOut_within.dramEq]; exact h)
  rw [hin]
  obtain ⟨hself, hready, -⟩ := State.selfRefreshIn_dram s.recordsOut.parkTables
  exact ⟨hself, hready⟩

theorem State.saved_byte {s : State} (hc : s.dram.configured = true) (hw : s.host.writes = []) {i : Nat} {b : Byte}
    (h : s.tabs.copy[i]? = some b) (he : (s.parkBase + i) / 64 * 64 ∉ escapesOf s.parkBursts) : s.saved.dramByte (s.parkBase + i) = b := by
  have hrec := s.recordsOut_within
  have hin : s.saved = s.recordsOut.parkTables.selfRefreshIn := if_pos (by rw [hrec.dramEq]; exact hc)
  obtain ⟨hbase, hbursts⟩ := State.parkBursts_congr (congrArg Dram.part hrec.dramEq) hrec.freeNEq hrec.effEq
  have hhost : s.recordsOut.parkTables.host.writes = s.host.writes := by
    have hall : Within [.flg, .ctr, .dram, .bytes, .msix, .flt, .freeN] s s.recordsOut.parkTables :=
      (hrec.mono (by decide)).step (State.parkTables_within _) (by decide)
    exact hall.hostWritesEq
  rw [hin, State.selfRefreshIn_bytes (hhost.trans hw), ← hbase]
  exact State.parkTables_byte _ (by rw [hrec.tabsEq]; exact h) (by rw [hbase, hbursts]; exact he)

/-! ### The commit window (R436) -/

theorem State.commitCycle_zero (s : State) : s.commitCycle 0 =
    s.portsFall.modClk (fun k => { k with timeRuns := false, stoppedAt := k.now, epochDue := none }) := rfl

theorem State.commitCycle_one (s : State) : s.commitCycle 1 = s.playClocksStop.sensorsOff (fun i => decide (4 ≤ i)) := rfl

theorem State.commitCycle_two (s : State) : (s.commitCycle 2).mem.xram = [] ∧ (s.commitCycle 2).mem.slots = [] ∧ (s.commitCycle 2).tabs = {} :=
  ⟨rfl, rfl, rfl⟩

theorem State.commitCycle_late (s : State) {c : Nat} (h : 6 ≤ c) : s.commitCycle c = s := by
  match c with
  | 0 | 1 | 2 | 3 => omega
  | _ + 4 => rfl

/-- A cycle of the window, counted. -/
def State.commitCounted (s : State) : State := (s.commitCycle s.pwr.cycle).modPwr (fun p => { p with cycle := s.pwr.cycle + 1 })

theorem exec_winterCommitCycle {s : State} (hu : s.undef = false) (hp : s.pwr.phase = .commit) : exec .winterCommitCycle s = .next
    (if s.pwr.cycle < 6 then s.commitCounted
      else if s.commitCounted.pwr.wakeLatched ≠ 0 then s.commitCounted.thawStart s.commitCounted.pwr.wakeLatched
      else if s.commitCounted.wakeNEn && s.commitCounted.pwr.wakeLow then s.commitCounted.thawStart 1
      else s.commitCounted.modPwr (fun p => { p with phase := .winter, wakeAt := s.commitCounted.clk.now + s.commitCounted.wakeTicks })) := by
  show execWinterCommitCycle s = _
  rw [execWinterCommitCycle, guarded_next hu]
  exact congrArg Host.Outcome.next (if_neg (fun h => h hp))

theorem State.commitCounted_pwr (s : State) : s.commitCounted.pwr = { s.pwr with cycle := s.pwr.cycle + 1 } := by
  have hmod : ∀ (u : State) (f : Power → Power), (u.modPwr f).pwr = f u.pwr := fun _ _ => rfl
  unfold State.commitCounted
  rw [hmod, (s.commitCycle_within s.pwr.cycle).pwrEq]

/-- What the clauses on one cycle say. -/
structure WindowCycle (s t : State) : Prop where
  counts : s.pwr.cycle < 6 → t.pwr = { s.pwr with cycle := s.pwr.cycle + 1 }
  first : s.pwr.cycle = 0 → t.clk.timeRuns = false ∧ t.clk.stoppedAt = s.clk.now ∧ ∀ p : Fin 4, t.link.ports[p].state = .down
  second : s.pwr.cycle = 1 → t.clk.patRun = 0 ∧ t.clk.convRun = 0
  third : s.pwr.cycle = 2 → t.mem.xram = [] ∧ t.mem.slots = [] ∧ t.tabs = {}

theorem State.commitCounted_cycle (s : State) : WindowCycle s s.commitCounted where
  counts _ := s.commitCounted_pwr
  first h := by
    have hfall := s.portsFall_within
    have heq : s.commitCounted = (s.portsFall.modClk (fun k => { k with timeRuns := false, stoppedAt := k.now, epochDue := none })).modPwr
        (fun p => { p with cycle := s.pwr.cycle + 1 }) := by
      unfold State.commitCounted
      rw [h, State.commitCycle_zero]
    have hnow : s.portsFall.clk.now = s.clk.now := congrArg Clock.now hfall.clkEq
    have hdown := s.portsFall_down
    rw [heq]
    generalize s.portsFall = u at *
    exact ⟨rfl, hnow, fun p => congrArg Port.state (hdown p)⟩
  second h := by
    have heq : s.commitCounted = (s.playClocksStop.sensorsOff (fun i => decide (4 ≤ i))).modPwr (fun p => { p with cycle := s.pwr.cycle + 1 }) := by
      unfold State.commitCounted
      rw [h, State.commitCycle_one]
    obtain ⟨hpat, hconv, -⟩ := s.playClocksStop_clk
    rw [heq]
    generalize s.playClocksStop = u at *
    exact ⟨hpat, hconv⟩
  third h := by
    have heq : s.commitCounted = (s.commitCycle 2).modPwr (fun p => { p with cycle := s.pwr.cycle + 1 }) := by
      unfold State.commitCounted
      rw [h]
    have htwo := s.commitCycle_two
    rw [heq]
    generalize s.commitCycle 2 = u at *
    exact htwo

theorem State.commitCounted_late {s : State} (h : 6 ≤ s.pwr.cycle) :
    s.commitCounted = s.modPwr (fun p => { p with cycle := s.pwr.cycle + 1 }) := by
  unfold State.commitCounted
  rw [State.commitCycle_late s h]

theorem winterCommitCycle_says {s : State} (hu : s.undef = false) (hp : s.pwr.phase = .commit) : Gives .winterCommitCycle s (fun t =>
    (s.pwr.cycle < 6 → t.pwr = { s.pwr with cycle := s.pwr.cycle + 1 }) ∧
    (s.pwr.cycle = 0 → t.clk.timeRuns = false ∧ t.clk.stoppedAt = s.clk.now ∧ ∀ p : Fin 4, t.link.ports[p].state = .down) ∧
    (s.pwr.cycle = 1 → t.clk.patRun = 0 ∧ t.clk.convRun = 0) ∧ (s.pwr.cycle = 2 → t.mem.xram = [] ∧ t.mem.slots = [] ∧ t.tabs = {}) ∧
    (6 ≤ s.pwr.cycle → s.pwr.wakeLatched = 0 → (s.wakeNEn && s.pwr.wakeLow) = false → t.pwr.phase = .winter ∧
      t.pwr.wakeAt = t.clk.now + s.wakeTicks) ∧
    (6 ≤ s.pwr.cycle → s.pwr.wakeLatched = 0 → (s.wakeNEn && s.pwr.wakeLow) = true → t.pwr.phase = .thawing ∧ t.pwr.wakeSrc = 1) ∧
    (6 ≤ s.pwr.cycle → s.pwr.wakeLatched ≠ 0 → t.pwr.phase = .thawing ∧ t.pwr.wakeSrc = s.pwr.wakeLatched ∧ t.pwr.wakeLatched = 0) ∧
    Within [.clk, .pwr, .flg, .tabs, .pg, .link, .mem, .xram, .msix, .smb] s t) := by
  have hx := exec_winterCommitCycle hu hp
  have hwithin := fun {t} (h : exec .winterCommitCycle s = .next t) => execWinterCommitCycle_within s h
  by_cases hc : s.pwr.cycle < 6
  · rw [if_pos hc] at hx
    have h := s.commitCounted_cycle
    exact ⟨_, hx, h.counts, h.first, h.second, h.third, fun h6 => absurd hc (by omega), fun h6 => absurd hc (by omega),
      fun h6 => absurd hc (by omega), hwithin hx⟩
  · have hpwr := s.commitCounted_pwr
    have hsame : Within [.pwr] s s.commitCounted := by
      rw [State.commitCounted_late (Nat.le_of_not_lt hc)]
      exact State.modPwr_within s _
    have hen : (s.commitCounted.wakeNEn && s.commitCounted.pwr.wakeLow) = (s.wakeNEn && s.pwr.wakeLow) := by
      unfold State.wakeNEn State.effB State.effW
      rw [hsame.effEq, hpwr]
    have hticks : s.commitCounted.wakeTicks = s.wakeTicks := by
      unfold State.wakeTicks State.effW
      rw [hsame.effEq, hsame.clkEq]
    have hlatched : s.commitCounted.pwr.wakeLatched = s.pwr.wakeLatched := by rw [hpwr]
    rw [if_neg hc, hen, hlatched, hticks] at hx
    have hno : ∀ k < 6, s.pwr.cycle ≠ k := fun k hk e => hc (e ▸ hk)
    by_cases hl : s.pwr.wakeLatched = 0
    · rw [if_neg (fun hn => hn hl)] at hx
      by_cases hn : (s.wakeNEn && s.pwr.wakeLow) = true
      · rw [if_pos hn] at hx
        exact ⟨_, hx, fun h => absurd h hc, fun h => absurd h (hno 0 (by decide)), fun h => absurd h (hno 1 (by decide)),
          fun h => absurd h (hno 2 (by decide)), fun _ _ hf => absurd hn (by rw [hf]; decide), fun _ _ _ => ⟨rfl, rfl⟩,
          fun _ hn => absurd hl hn, hwithin hx⟩
      · rw [if_neg hn] at hx
        exact ⟨_, hx, fun h => absurd h hc, fun h => absurd h (hno 0 (by decide)), fun h => absurd h (hno 1 (by decide)),
          fun h => absurd h (hno 2 (by decide)), fun _ _ _ => ⟨rfl, rfl⟩, fun _ _ ht => absurd ht hn,
          fun _ hn => absurd hl hn, hwithin hx⟩
    · rw [if_pos hl] at hx
      exact ⟨_, hx, fun h => absurd h hc, fun h => absurd h (hno 0 (by decide)), fun h => absurd h (hno 1 (by decide)),
        fun h => absurd h (hno 2 (by decide)), fun _ hz => absurd hz hl, fun _ hz => absurd hz hl, fun _ _ => ⟨rfl, rfl, rfl⟩, hwithin hx⟩

/-! ### The wake sources (R429, R438) -/

/-- The tick of a falling WAKE_N, and whether it stays low. -/
def State.wakeSeen (s : State) (tick : Nat) (low : Bool) : State := (s.upto tick).modPwr (fun p => { p with wakeLow := low })

theorem State.wakeSeen_within (s : State) (tick : Nat) (low : Bool) : Within [.clk, .pwr] s (s.wakeSeen tick low) :=
  ((State.upto_within s tick).mono (by decide)).step (State.modPwr_within _ _) (by decide)

/-- WAKE_N's producer fires in a configured device. -/
theorem State.wakeFires {s u : State} (hc : s.configured = true) (hi : u.img = s.img) (tick : Nat) :
    ∃ e ∈ (u.fire 245 tick).brg.inFlight, e.prod = 245 ∧ e.at_ = tick :=
  (State.fireWith_fires u (Fin.ofNat 256 245) tick (u.tbAt tick) 0).there ((State.configured_congr hi).trans hc) rfl

theorem exec_wakeNEdge {s : State} {tick : Nat} {low : Bool} (hu : s.undef = false) (hh : s.heldInReset = false) :
    exec (.wakeNEdge tick low) s = .next (match s.pwr.phase with
      | .commit => s.wakeSeen tick low
      | .winter => if (s.wakeSeen tick low).wakeNEn then (s.wakeSeen tick low).thawStart 1 else s.wakeSeen tick low
      | .thawing => s.wakeSeen tick low
      | .saving => (if (s.wakeSeen tick low).wakeNEn then (s.wakeSeen tick low).modPwr (fun p => { p with wakeLatched := 1 })
          else s.wakeSeen tick low).fire 245 tick
      | .preparing => if ((s.wakeSeen tick low).fire 245 tick).wakeNEn then ((s.wakeSeen tick low).fire 245 tick).requestRefuse 12
          else (s.wakeSeen tick low).fire 245 tick
      | .quiet => if ((s.wakeSeen tick low).fire 245 tick).wakeNEn then ((s.wakeSeen tick low).fire 245 tick).leaveQuiet
          else (s.wakeSeen tick low).fire 245 tick
      | _ => (s.wakeSeen tick low).fire 245 tick) := by
  show execWakeNEdge tick low s = _
  rw [execWakeNEdge, guarded_next hu]
  refine congrArg Host.Outcome.next ((if_neg (by rw [hh]; decide)).trans ?_)
  rfl

theorem wakeNEdge_winter {s : State} {tick : Nat} {low : Bool} (hu : s.undef = false) (hh : s.heldInReset = false)
    (hp : s.pwr.phase = .winter) (hn : s.wakeNEn = true) : Gives (.wakeNEdge tick low) s (fun t =>
      t.pwr = { s.pwr with phase := .thawing, thaw := .power, wakeSrc := 1, wakeLatched := 0, wakeLow := low } ∧ Within [.clk, .pwr] s t) := by
  have hx := exec_wakeNEdge (tick := tick) (low := low) hu hh
  rw [hp] at hx
  have hen : (s.wakeSeen tick low).wakeNEn = true := hn
  have hthaw : exec (.wakeNEdge tick low) s = .next ((s.wakeSeen tick low).thawStart 1) := hx.trans (congrArg Host.Outcome.next (if_pos hen))
  exact ⟨_, hthaw, rfl, (s.wakeSeen_within tick low).step (State.thawStart_within _ _) (by decide)⟩

theorem wakeNEdge_commit {s : State} {tick : Nat} {low : Bool} (hu : s.undef = false) (hh : s.heldInReset = false)
    (hp : s.pwr.phase = .commit) : Gives (.wakeNEdge tick low) s (fun t =>
      t.pwr = { s.pwr with wakeLow := low } ∧ Within [.clk, .pwr] s t) := by
  have hx := exec_wakeNEdge (tick := tick) (low := low) hu hh
  rw [hp] at hx
  exact ⟨_, hx, rfl, s.wakeSeen_within tick low⟩

theorem wakeNEdge_quiet {s : State} {tick : Nat} {low : Bool} (hu : s.undef = false) (hh : s.heldInReset = false)
    (hp : s.pwr.phase = .quiet) (hn : s.wakeNEn = true) : Gives (.wakeNEdge tick low) s (fun t =>
      t.pwr.phase = .resuming ∧ t.clk.patRun = s.clk.plan.extractLsb' 8 4 ∧
      (s.configured = true → ∃ e ∈ t.brg.inFlight, e.prod = 245 ∧ e.at_ = tick)) := by
  have hx := exec_wakeNEdge (tick := tick) (low := low) hu hh
  rw [hp] at hx
  have hfire := State.fire_within (s.wakeSeen tick low) 245 tick
  have hen : ((s.wakeSeen tick low).fire 245 tick).wakeNEn = true := by
    unfold State.wakeNEn State.effB State.effW
    rw [hfire.effEq]
    exact hn
  have hleave : exec (.wakeNEdge tick low) s = .next ((s.wakeSeen tick low).fire 245 tick).leaveQuiet :=
    hx.trans (congrArg Host.Outcome.next (if_pos hen))
  refine ⟨_, hleave, ?_, ?_, fun hc => ?_⟩
  · rw [State.leaveQuiet_pwr]
  · rw [State.leaveQuiet_clk, hfire.clkEq]
    rfl
  · rw [(State.leaveQuiet_within _).brgEq]
    exact State.wakeFires (u := s.wakeSeen tick low) hc rfl tick

theorem wakeNEdge_run {s : State} {tick : Nat} {low : Bool} (hu : s.undef = false) (hh : s.heldInReset = false)
    (hp : s.pwr.phase = .none) (hc : s.configured = true) : Gives (.wakeNEdge tick low) s (fun t =>
      t.clk.now = max s.clk.now tick ∧ (∃ e ∈ t.brg.inFlight, e.prod = 245 ∧ e.at_ = tick) ∧
      t.pwr = { s.pwr with wakeLow := low } ∧ Within [.clk, .pwr, .flg, .brg, .msix] s t) := by
  have hx := exec_wakeNEdge (tick := tick) (low := low) hu hh
  rw [hp] at hx
  have hfire := State.fire_within (s.wakeSeen tick low) 245 tick
  refine ⟨_, hx, ?_, State.wakeFires (u := s.wakeSeen tick low) hc rfl tick, ?_, ((s.wakeSeen_within tick low).mono (by decide)).step hfire (by decide)⟩
  · exact congrArg Clock.now hfire.clkEq
  · exact hfire.pwrEq

/-! ### The obligation -/

/-- Settles O18: the copy is written before DRAM sleeps, which with no write to drain touches no byte; each cycle of the window and each wake is
one update. -/
theorem winterAndItsWakes : Obligations.WinterAndItsWakes := by
  unfold Obligations.WinterAndItsWakes
  intro s hu
  refine ⟨fun hp => ?_, fun hp => winterCommitCycle_says hu hp, fun hp ht => ?_, fun tick low hh =>
    ⟨fun hp hn => wakeNEdge_winter hu hh hp hn, fun hp => wakeNEdge_commit hu hh hp, fun hp hn => wakeNEdge_quiet hu hh hp hn,
      fun hp hc => wakeNEdge_run hu hh hp hc⟩⟩
  · have hx := exec_winterSaveDone hu hp
    have hpwr := s.saved_within.pwrEq
    have hdram : s.dram.configured = true → s.saved.dram.selfRefresh = true ∧ s.saved.dram.ready = false := State.saved_dram
    have hbyte : s.dram.configured = true → s.host.writes = [] → ∀ (i : Nat) (b : Byte), s.tabs.copy[i]? = some b →
        (s.parkBase + i) / 64 * 64 ∉ escapesOf s.parkBursts → s.saved.dramByte (s.parkBase + i) = b :=
      fun hc hw i b h he => State.saved_byte hc hw h he
    generalize s.saved = u at *
    exact ⟨_, hx, by rw [← hpwr]; rfl, hdram, hbyte⟩
  · exact gives_branch hu rfl (if_pos ⟨hp, ht⟩) ⟨rfl, rfl, ((State.upto_within s _).mono (by decide)).step (State.thawStart_within _ _) (by decide)⟩

end Sys2Proof.Machine
end

