-- ==== Sys2Proof/Proofs/Thaw.lean ====
section
/-! PROOF. The phases of a thaw, and a thaw that fails (R366, R435, R440 to R443; O19). -/
namespace Sys2Proof.Machine

/-! ### The time base restarts, memories are cleared -/

theorem State.timeRestart_tb (s : State) (n : Nat) : (s.timeRestart n).tb = s.tb + n * s.clk.aonSaved.toNat / 65536 := by
  have hsum : ∀ v : Nat, ((s.clk.now : Int) + ((v : Int) - (s.clk.now : Int))).toNat = v := fun v => by omega
  exact hsum (s.tb + n * s.clk.aonSaved.toNat / 65536)

/-- What the end of CLOCKS leaves: the three memories are cleared and show it. -/
def State.thawCleared (s : State) (n : Nat) : State :=
  (((s.timeRestart n).clearMem .staging).clearMem .tables).clearMem .xram

theorem clearing_or (c : BitVec 4) : c ||| clearBit .staging ||| clearBit .tables ||| clearBit .xram = c ||| 7 := by
  revert c
  decide

theorem clearing_and (c : BitVec 4) : c &&& ~~~(clearBit .staging) &&& ~~~(clearBit .tables) &&& ~~~(clearBit .xram) = c &&& ~~~7 := by
  revert c
  decide

theorem State.clearMem_clk (s : State) (k : ClearKind) : (s.clearMem k).clk = s.clk := (s.clearMem_within k).clkEq

/-- What a clear leaves of the memories, by its kind. -/
theorem State.clearMem_staging (s : State) : (s.clearMem .staging).mem =
    { s.mem with clearing := s.mem.clearing ||| clearBit .staging, slots := [], spare := [] } :=
  foldl_keeps State.mem (allFin 4) (fun s g => s.modPg g (fun p => { p with ring := [] })) (fun _ _ => rfl) _

theorem State.clearMem_tables (s : State) : (s.clearMem .tables).mem = { s.mem with clearing := s.mem.clearing ||| clearBit .tables } ∧
    (s.clearMem .tables).tabs = {} := ⟨rfl, rfl⟩

theorem State.clearMem_xram (s : State) : (s.clearMem .xram).mem = { s.mem with clearing := s.mem.clearing ||| clearBit .xram, xram := [] } ∧
    (s.clearMem .xram).tabs = s.tabs := ⟨rfl, rfl⟩

theorem State.thawCleared_mem (s : State) (n : Nat) : (s.thawCleared n).mem =
    { s.mem with clearing := s.mem.clearing ||| 7, slots := [], spare := [], xram := [] } ∧ (s.thawCleared n).tabs = {} := by
  unfold State.thawCleared
  rw [(State.clearMem_xram _).1, (State.clearMem_xram _).2, (State.clearMem_tables _).1, (State.clearMem_tables _).2, State.clearMem_staging,
    (s.timeRestart_within n).memEq]
  refine ⟨?_, rfl⟩
  rw [← clearing_or]

theorem State.thawCleared_within (s : State) (n : Nat) : Within [.clk, .pwr, .tabs, .pg, .mem, .xram] s (s.thawCleared n) :=
  ((((s.timeRestart_within n).mono (by decide)).step (State.clearMem_within _ _) (by decide)).step (State.clearMem_within _ _) (by decide)).step
    (State.clearMem_within _ _) (by decide)

theorem State.thawCleared_time (s : State) (n : Nat) : (s.thawCleared n).tb = s.tb + n * s.clk.aonSaved.toNat / 65536 ∧
    (s.thawCleared n).clk = (s.timeRestart n).clk ∧ (s.thawCleared n).pwr = (s.timeRestart n).pwr := by
  have hclk : (s.thawCleared n).clk = (s.timeRestart n).clk := by
    unfold State.thawCleared
    rw [State.clearMem_clk, State.clearMem_clk, State.clearMem_clk]
  have hpwr : (s.thawCleared n).pwr = (s.timeRestart n).pwr := by
    unfold State.thawCleared
    rw [(State.clearMem_within _ _).pwrEq, (State.clearMem_within _ _).pwrEq, (State.clearMem_within _ _).pwrEq]
  exact ⟨(State.tb_congr hclk).trans (s.timeRestart_tb n), hclk, hpwr⟩

/-! ### The saved registers are back (R435) -/

/-- No CMD bit waits and no block is prepared. -/
def State.thawFront (s : State) : State :=
  { s with cmd := [], more := [] }.modPwr (fun p => { p with held := [], prepared := [], agreed := [] })

/-- Every level channel is OPEN. -/
def State.thawLevels (s : State) : State := (allFin 48).foldl State.lvlThaw s

/-- No strobe waits and no channel converts. -/
def State.thawStrobes (s : State) : State := { s with lg := Vector.replicate 6 {}, mon := { s.mon with chan := none } }

/-- The words that R435 takes from the saved ones. -/
def State.thawWords (s : State) : State :=
  (List.range 16).foldl (fun s i => s.resetField (brgA (0x2C40 + 4 * i)) 1) (s.resetField 0x200 (fmask 7 0))

/-- Lines and publishing start afresh. -/
def State.thawLines (s : State) : State :=
  s.linesOff.modPlc (fun p => { p with
    goes := [], queue := [], next := none, code := 0, refuseIdx := 0, jobs := [], entries := [], rolling := false, switching := false })

/-- No flag of the publishing stands. -/
def State.thawFlags (s : State) : State := { s with flg := smErase s.flg (plcA 0x10) }

/-- The fail logs are empty and nothing plays. -/
def State.thawLogs (s : State) : State :=
  (allFin 4).foldl (fun s g => s.modPg g (fun p => { p with
    flWr := 0, flRd := 0, flRdOld := none, flQueue := [], ring := [], strobes := [], vecs := [] })) s

/-- What follows the level channels. -/
def State.thawRest (s : State) : State := s.thawStrobes.thawWords.thawLines.thawFlags.thawLogs.linkReset

theorem State.thawState_eq (s : State) : s.thawState = s.thawFront.thawLevels.thawRest := rfl

theorem State.thawFront_within (s : State) : Within [.pwr, .cmd, .more] s s.thawFront :=
  ((Within.set_cmd_more s _ _ (fun _ => smWf_nil _) (fun _ => smWf_nil _)).mono (by decide)).step (State.modPwr_within _ _) (by decide)

theorem State.thawLevels_within (s : State) : Within [.cfg, .eff, .lvl] s s.thawLevels :=
  (Within.refl _ s).fold fun u c h => h.step (State.lvlThaw_within u c) (by decide)

theorem State.thawWords_within (s : State) : Within [.cfg, .eff] s s.thawWords :=
  (State.resetField_within s _ _).fold fun u i h => h.step (State.resetField_within u _ _) (by decide)

theorem State.thawLines_within (s : State) : Within [.trg, .brg, .plc] s s.thawLines :=
  (s.linesOff_within.mono (by decide)).step (State.modPlc_within _ _) (by decide)

theorem State.thawFlags_within (s : State) : Within [.flg] s s.thawFlags := Within.set_flg s _ (smWf_erase _ _ _)

theorem State.thawLogs_within (s : State) : Within [.pg] s s.thawLogs :=
  (Within.refl _ s).fold fun u g h => h.step (State.modPg_within u g _) (by decide)

theorem State.thawRest_within (s : State) : Within [.lg, .mon, .cfg, .eff, .trg, .brg, .plc, .flg, .pg, .ctr, .link, .msix] s s.thawRest := by
  have hstrobes : Within [.lg, .mon] s s.thawStrobes := Within.set_lg_mon s _ _
  exact (((((hstrobes.mono (by decide)).step (State.thawWords_within _) (by decide)).step (State.thawLines_within _) (by decide)).step
    (State.thawFlags_within _) (by decide)).step (State.thawLogs_within _) (by decide)).step (State.linkReset_within _) (by decide)

theorem State.lvlThaw_self (s : State) (c : Lvl) : (s.lvlThaw c).lvl[c] =
    { s.lvl[c] with state := .opened, oe := false, changing := false, settling := false, driven := false } :=
  State.modLvl_self _ c _

theorem State.lvlThaw_other (s : State) {c d : Lvl} (h : d ≠ c) : (s.lvlThaw c).lvl[d] = s.lvl[d] := State.modLvl_other _ c _ h

theorem State.thawLevels_lvl (s : State) (c : Lvl) : s.thawLevels.lvl[c] =
    { s.lvl[c] with state := .opened, oe := false, changing := false, settling := false, driven := false } :=
  foldl_allFin (fun _ => True) (fun u c => u.lvl[c]) State.lvlThaw
    (fun _ l => { l with state := .opened, oe := false, changing := false, settling := false, driven := false })
    (fun _ _ _ => trivial) (fun u c _ => u.lvlThaw_self c) (fun u _ _ h => u.lvlThaw_other h) trivial c

/-- The saved registers, with no CMD bit waiting and every level channel OPEN in its span with its codes. -/
structure Thawed (s t : State) : Prop where
  cmd : t.cmd = [] ∧ t.more = []
  pwr : t.pwr = { s.pwr with held := [], prepared := [], agreed := [] }
  lvl : ∀ c : Lvl, t.lvl[c].state = .opened ∧ t.lvl[c].oe = false ∧ t.lvl[c].span = s.lvl[c].span ∧ t.lvl[c].active = s.lvl[c].active
  dram : t.dram = s.dram

theorem State.thawState_thawed (s : State) : Thawed s s.thawState := by
  have hrest := s.thawFront.thawLevels.thawRest_within
  have hlevels := s.thawFront.thawLevels_within
  rw [State.thawState_eq]
  exact { cmd := ⟨by rw [hrest.cmdEq, hlevels.cmdEq]; rfl, by rw [hrest.moreEq, hlevels.moreEq]; rfl⟩
          pwr := by rw [hrest.pwrEq, hlevels.pwrEq]; rfl
          lvl := fun c => by rw [hrest.lvlEq, State.thawLevels_lvl]; exact ⟨rfl, rfl, rfl, rfl⟩
          dram := by rw [hrest.dramEq, hlevels.dramEq, s.thawFront_within.dramEq] }

/-- A frame that names none of them keeps what a thaw has brought back. -/
theorem Thawed.then {l : List Field} {s t u : State} (h : Thawed s t) (hw : Within l t u) (hc : Field.cmd ∉ l := by decide)
    (hm : Field.more ∉ l := by decide) (hv : Field.lvl ∉ l := by decide) : u.cmd = [] ∧ u.more = [] ∧ (∀ c : Lvl,
      u.lvl[c].state = .opened ∧ u.lvl[c].oe = false ∧ u.lvl[c].span = s.lvl[c].span ∧ u.lvl[c].active = s.lvl[c].active) :=
  ⟨(hw.cmdEq hc).trans h.cmd.1, (hw.moreEq hm).trans h.cmd.2, by rw [hw.lvlEq hv]; exact h.lvl⟩

/-- The phase REGISTERS ends. -/
def State.thawRegisters (s : State) : State :=
  ((if s.thawState.dram.configured then s.thawState.train .short else s.thawState).thawTo .dram).sendVectors

theorem State.thawTrain_within (s : State) : Within [.dram] s (if s.dram.configured then s.train .short else s) :=
  Within.ite (State.train_within s _) (Within.refl _ s)

theorem State.thawRegisters_marks (s : State) : Within [.dram, .pwr, .msix] s.thawState s.thawRegisters :=
  (((State.thawTrain_within s.thawState).mono (by decide)).step (State.thawTo_within _ _) (by decide)).step (State.sendVectors_within _) (by decide)

theorem State.thawRegisters_pwr (s : State) : s.thawRegisters.pwr = { s.pwr with held := [], prepared := [], agreed := [], thaw := .dram } := by
  have hto : ∀ (u : State) (x : ThawPhase), (u.thawTo x).pwr = { u.pwr with thaw := x } := fun _ _ => rfl
  unfold State.thawRegisters
  rw [(State.sendVectors_within _).pwrEq, hto, (State.thawTrain_within _).pwrEq, s.thawState_thawed.pwr]

theorem State.thawRegisters_training {s : State} (h : s.dram.configured = true) : s.thawRegisters.dram.training = .short := by
  obtain ⟨chans, htrain⟩ := s.thawState.train_eq .short
  unfold State.thawRegisters
  rw [(State.sendVectors_within _).dramEq, (State.thawTo_within _ _).dramEq, if_pos (by rw [s.thawState_thawed.dram]; exact h), htrain]

/-! ### The parking copy is read (R440) -/

theorem State.readEscapes_within (src : Nat) (l : List Nat) (s : State) :
    Within [.flg, .ctr, .dram, .msix, .flt] s (l.foldl (fun s x => s.escape x false src) s) :=
  (Within.refl _ s).fold fun u x h => h.step (State.escape_within u x false src) (by decide)

theorem SameStatus.part {s t : State} (h : SameStatus s t) : t.dram.part = s.dram.part := congrArg (fun x => x.2.1) h

/-- The bursts as they are read. -/
def State.parkEscapes (s : State) : State :=
  (escapesOf s.parkBursts).foldl (fun s x => s.escape x false Config.parkMaster.toNat) (s.hostAccesses s.parkBursts)

theorem State.parkRead_eq (s : State) : s.parkRead = { s.parkEscapes with freeN := s.parkEscapes.freeN + 1 } := rfl

/-- The read changes no byte and does not move the parking area. -/
theorem State.parkRead_part (s : State) : s.parkRead.dram.part = s.dram.part := by
  have hread : SameStatus s s.parkEscapes :=
    (SameStatus.hostAccesses s s.parkBursts).trans (SameStatus.fold (fun u x => SameStatus.escape u x false _) _ _)
  have hpart := hread.part
  rw [State.parkRead_eq, ← hpart]

theorem State.dramBytes_congr {s t : State} (h : t.dram.cells = s.dram.cells ∧ t.dram.gen = s.dram.gen) (a n : Nat) :
    t.dramBytes a n = s.dramBytes a n := by
  unfold State.dramBytes State.dramDefault
  rw [h.1, h.2]

theorem State.parkRead_reads (s : State) : s.parkRead.parkedTables = s.parkedTables ∧ s.parkRead.parkGood = s.parkGood := by
  have hbytes : ∀ a n, s.parkRead.dramBytes a n = s.dramBytes a n := State.dramBytes_congr s.parkRead_within.bytesEq
  have hbase : s.parkRead.parkBase = s.parkBase := by
    unfold State.parkBase State.dramPart
    rw [s.parkRead_part]
  have hword : s.parkRead.parkWord = s.parkWord := by
    funext k
    unfold State.parkWord
    rw [hbase, hbytes]
  unfold State.parkedTables State.parkGood
  rw [hword, hbase, hbytes]
  exact ⟨rfl, rfl⟩

theorem State.thawTables_of_configured {s : State} (h : s.dram.configured = true) :
    s.thawTables = ({ s.parkRead with tabs := s.parkedTables }, (escapesOf s.parkBursts).isEmpty && s.parkGood) := by
  unfold State.thawTables
  rw [if_neg (by rw [h]; decide)]

theorem State.thawTables_of_none {s : State} (h : s.dram.configured = false) : s.thawTables = (s, true) := by
  unfold State.thawTables
  rw [if_pos (by rw [h]; rfl)]

/-! ### A thaw that fails (R442) -/

/-- The state of a cold reset with the mark of the failure. -/
def State.thawLost (s : State) : State :=
  (((s.coldState false).cause 5).modPwr (fun p => { p with resCode := 4 })).setBit (clkA 0xC) 3

/-- What a failed thaw leaves. -/
structure ThawFailed (bootSel : Bool) (s t : State) : Prop where
  pwr : t.pwr.phase = .none ∧ t.pwr.rstCause = 5 ∧ t.pwr.resCode = 4
  flag : (t.flag (clkA 0xC)).getLsbD 3 = true
  img : t.img.state = (if bootSel then .fetch else .unconfigured)
  reset : t.dram.cells = [] ∧ t.wl = State.reset.wl ∧ t.lvl = State.reset.lvl ∧ t.clu = State.reset.clu
  kept : t.part = s.part ∧ t.jtag = s.jtag ∧ t.smb = s.smb ∧ t.pending = s.pending

theorem State.thawLost_kept (s : State) : Within [.flg, .msix] (((s.coldState false).cause 5).modPwr (fun p => { p with resCode := 4 })) s.thawLost :=
  State.setBit_within _ _ _

theorem State.thawLost_held {s : State} (h : s.heldInReset = false) : s.thawLost.heldInReset = false := by
  unfold State.heldInReset
  rw [s.thawLost_kept.pwrEq]
  exact h

theorem State.coldRelease_kept {s : State} (h : s.heldInReset = false) (b : Bool) :
    Within [.clk, .img, .flg, .link, .mem, .msix, .flt, .tabs] s (s.coldRelease b) := by
  rw [State.coldRelease_of_free h]
  exact (s.coldReady_within.mono (by decide)).step (State.boot_within_img _ b) (by decide)

/-- The release clears no flag of the power unit. -/
theorem State.coldRelease_flag {s : State} (h : s.heldInReset = false) (b : Bool) : (s.coldRelease b).flag (clkA 0xC) = s.flag (clkA 0xC) := by
  have habort : s.clearsEnd.timeZero.abortReport.flag (clkA 0xC) = s.clearsEnd.timeZero.flag (clkA 0xC) := by
    unfold State.abortReport
    split
    · exact (State.imgErr_flagsBut _ 0x10 255) (clkA 0xC) (by decide) (by decide)
    · rfl
  rw [State.coldRelease_of_free h, (State.boot_within_img _ b).flagEq, State.coldReady, (State.watchRelease_within _).flagEq, habort]
  rfl

theorem State.thawFail_failed {s : State} (h : s.heldInReset = false) (bootSel : Bool) : ThawFailed bootSel s (s.thawFail bootSel) := by
  have hheld := State.thawLost_held h
  have hrelease := State.coldRelease_kept hheld bootSel
  have hlost := s.thawLost_kept
  obtain ⟨-, -, -, -, -, -, -, -, -, hboot, hnone, -⟩ := State.coldRelease_released hheld bootSel
  have heq : s.thawFail bootSel = s.thawLost.coldRelease bootSel := rfl
  rw [heq]
  exact {
    pwr := by rw [hrelease.pwrEq, hlost.pwrEq]; exact ⟨rfl, rfl, rfl⟩
    flag := by rw [State.coldRelease_flag hheld]; exact State.flagBit_setBit _ (by decide) (by decide)
    img := by
      cases bootSel
      · exact (hnone rfl).trans (congrArg Image.state hlost.imgEq)
      · exact (hboot rfl).1
    reset := ⟨(hrelease.bytesEq.1.trans hlost.bytesEq.1), by rw [hrelease.wlEq, hlost.wlEq]; rfl, by rw [hrelease.lvlEq, hlost.lvlEq]; rfl,
      by rw [hrelease.cluEq (by decide), hlost.cluEq (by decide)]; rfl⟩
    kept := ⟨by rw [hrelease.partEq, hlost.partEq]; rfl, by rw [hrelease.jtagEq, hlost.jtagEq]; rfl, by rw [hrelease.smbEq, hlost.smbEq]; rfl,
      by rw [hrelease.pendingEq, hlost.pendingEq]; rfl⟩ }

/-- What was read before the failure does not count. -/
theorem ThawFailed.after {l : List Field} {b : Bool} {s t u : State} (h : ThawFailed b t u) (hw : Within l s t) (hp : Field.jtag ∉ l := by decide)
    (hs : Field.smb ∉ l := by decide) (hpart : t.part = s.part) (hpend : t.pending = s.pending) : ThawFailed b s u where
  pwr := h.pwr
  flag := h.flag
  img := h.img
  reset := h.reset
  kept := ⟨h.kept.1.trans hpart, h.kept.2.1.trans (hw.jtagEq hp), h.kept.2.2.1.trans (hw.smbEq hs), h.kept.2.2.2.trans hpend⟩

/-! ### The phases -/

theorem exec_thawPhaseDone {s : State} {crcOk : Bool} {n : Nat} {bootSel : Bool} (hu : s.undef = false) (hp : s.pwr.phase = .thawing) :
    exec (.thawPhaseDone crcOk n bootSel) s = .next (match s.pwr.thaw with
      | .power => s.thawTo .clocks
      | .clocks => (s.thawCleared n).thawTo .clear
      | .clear => (((s.clearEnd .staging).clearEnd .tables).clearEnd .xram).thawTo .registers
      | .registers => if !crcOk then s.thawFail bootSel else s.thawRegisters
      | .dram => if s.dram.training = .short then s else s.thawTo .tables
      | .tables => if crcOk && s.thawTables.2 then s.thawTables.1.thawTo .planned else s.thawTables.1.thawFail bootSel
      | .planned => s.playClocksStart.thawTo .done
      | .done => ((s.modPwr (fun p => { p with phase := .none, wasQuiet := false })).cause 4).watchResume.setBit (clkA 0xC) 2) := by
  show execThawPhaseDone crcOk n bootSel s = _
  rw [execThawPhaseDone, guarded_next hu]
  refine congrArg Host.Outcome.next ((if_neg (fun h => h hp)).trans ?_)
  rfl

theorem thawPhase_clocks {s : State} {crcOk : Bool} {n : Nat} {bootSel : Bool} (hu : s.undef = false) (hp : s.pwr.phase = .thawing)
    (ht : s.pwr.thaw = .clocks) : Gives (.thawPhaseDone crcOk n bootSel) s (fun t =>
      t.pwr.thaw = .clear ∧ t.tb = s.tb + n * s.clk.aonSaved.toNat / 65536 ∧ t.clk.timeRuns = true ∧ t.clk.timeCoarse = true ∧
      t.clk.timeValid = false ∧ t.clk.firstEpoch = true ∧ t.pwr.winterAon = BitVec.ofNat 64 n ∧
      t.tabs = {} ∧ t.mem.slots = [] ∧ t.mem.xram = [] ∧ t.mem.clearing = s.mem.clearing ||| 7 ∧
      Within [.clk, .pwr, .tabs, .pg, .mem, .xram] s t) := by
  have hx := exec_thawPhaseDone (crcOk := crcOk) (n := n) (bootSel := bootSel) hu hp
  rw [ht] at hx
  obtain ⟨htb, hclk, hpwr⟩ := s.thawCleared_time n
  obtain ⟨hmem, htabs⟩ := s.thawCleared_mem n
  have hw := s.thawCleared_within n
  have haon : (s.thawCleared n).pwr.winterAon = BitVec.ofNat 64 n := by rw [hpwr]; rfl
  have hruns : (s.thawCleared n).clk.timeRuns = true ∧ (s.thawCleared n).clk.timeCoarse = true ∧ (s.thawCleared n).clk.timeValid = false ∧
      (s.thawCleared n).clk.firstEpoch = true := by rw [hclk]; exact ⟨rfl, rfl, rfl, rfl⟩
  obtain ⟨hrun, hcoarse, hvalid, hfirst⟩ := hruns
  generalize s.thawCleared n = u at *
  exact ⟨_, hx, rfl, htb, hrun, hcoarse, hvalid, hfirst, haon, htabs, congrArg Mem.slots hmem, congrArg Mem.xram hmem,
    congrArg Mem.clearing hmem, hw.step (State.thawTo_within u _) (by decide)⟩

theorem thawPhase_clear {s : State} {crcOk : Bool} {n : Nat} {bootSel : Bool} (hu : s.undef = false) (hp : s.pwr.phase = .thawing)
    (ht : s.pwr.thaw = .clear) : Gives (.thawPhaseDone crcOk n bootSel) s (fun t =>
      t.pwr = { s.pwr with thaw := .registers } ∧ t.mem.clearing = s.mem.clearing &&& ~~~7 ∧ Within [.pwr, .mem] s t) := by
  have hx := exec_thawPhaseDone (crcOk := crcOk) (n := n) (bootSel := bootSel) hu hp
  rw [ht] at hx
  exact ⟨_, hx, rfl, clearing_and s.mem.clearing, ((((State.clearEnd_within s _).mono (by decide)).step (State.clearEnd_within _ _)
    (by decide)).step (State.clearEnd_within _ _) (by decide)).step (State.thawTo_within _ _) (by decide)⟩

theorem thawPhase_registers {s : State} {n : Nat} {bootSel : Bool} (hu : s.undef = false) (hp : s.pwr.phase = .thawing)
    (ht : s.pwr.thaw = .registers) : Gives (.thawPhaseDone true n bootSel) s (fun t =>
      t.pwr.phase = .thawing ∧ t.pwr.thaw = .dram ∧ t.cmd = [] ∧ t.more = [] ∧ t.pwr.held = [] ∧
      (∀ c : Lvl, t.lvl[c].state = .opened ∧ t.lvl[c].oe = false ∧ t.lvl[c].span = s.lvl[c].span ∧
        t.lvl[c].active = s.lvl[c].active) ∧
      (s.dram.configured = true → t.dram.training = .short) ∧
      Within [.pwr, .trg, .cfg, .eff, .flg, .ctr, .cmd, .more, .pg, .lvl, .lg, .mon, .brg, .link, .dram, .msix, .plc] s t) := by
  have hx := exec_thawPhaseDone (crcOk := true) (n := n) (bootSel := bootSel) hu hp
  rw [ht] at hx
  have hmarks := s.thawRegisters_marks
  obtain ⟨hcmd, hmore, hlvl⟩ := s.thawState_thawed.then hmarks
  exact ⟨s.thawRegisters, hx, by rw [State.thawRegisters_pwr]; exact hp, by rw [State.thawRegisters_pwr], hcmd, hmore,
    by rw [State.thawRegisters_pwr], hlvl, State.thawRegisters_training, (s.thawState_within.mono (by decide)).step hmarks (by decide)⟩

theorem thawPhase_tables {s : State} {n : Nat} {bootSel : Bool} (hu : s.undef = false) (hp : s.pwr.phase = .thawing)
    (ht : s.pwr.thaw = .tables) (hc : s.dram.configured = true) : Gives (.thawPhaseDone true n bootSel) s (fun t =>
      escapesOf s.parkBursts = [] → s.parkRead.parkGood = true → t.pwr = { s.pwr with thaw := .planned } ∧ t.tabs = s.parkRead.parkedTables ∧
        Within [.flg, .ctr, .tabs, .dram, .msix, .flt, .freeN, .pwr] s t) := by
  have hx := exec_thawPhaseDone (crcOk := true) (n := n) (bootSel := bootSel) hu hp
  rw [ht] at hx
  refine ⟨_, hx, fun hnone hgood => ?_⟩
  obtain ⟨htabs, hsame⟩ := s.parkRead_reads
  have hwhole : s.thawTables.2 = ((escapesOf s.parkBursts).isEmpty && s.parkGood) := by rw [State.thawTables_of_configured hc]
  have hok : s.thawTables.2 = true := by rw [hwhole, List.isEmpty_iff.2 hnone, ← hsame, hgood, Bool.and_self]
  have hw := s.thawTables_within
  have htab : s.thawTables.1.tabs = s.parkedTables := by rw [State.thawTables_of_configured hc]
  dsimp only
  rw [if_pos (by rw [hok]; rfl)]
  generalize s.thawTables.1 = u at *
  exact ⟨congrArg (fun p : Power => { p with thaw := .planned }) hw.pwrEq, htab.trans htabs.symm,
    (hw.mono (by decide)).step (State.thawTo_within u _) (by decide)⟩

theorem thawPhase_unparked {s : State} {n : Nat} {bootSel : Bool} (hu : s.undef = false) (hp : s.pwr.phase = .thawing)
    (ht : s.pwr.thaw = .tables) (hc : s.dram.configured = false) : Gives (.thawPhaseDone true n bootSel) s (fun t =>
      t.pwr = { s.pwr with thaw := .planned } ∧ Within [.pwr] s t) := by
  have hx := exec_thawPhaseDone (crcOk := true) (n := n) (bootSel := bootSel) hu hp
  rw [ht, State.thawTables_of_none hc] at hx
  exact ⟨_, hx, rfl, State.thawTo_within s _⟩

theorem thawPhase_done {s : State} {crcOk : Bool} {n : Nat} {bootSel : Bool} (hu : s.undef = false) (hp : s.pwr.phase = .thawing)
    (ht : s.pwr.thaw = .done) : Gives (.thawPhaseDone crcOk n bootSel) s (fun t =>
      t.pwr.phase = .none ∧ t.pwr.rstCause = 4 ∧ t.flag (clkA 0xC) = s.flag (clkA 0xC) ||| bit32 2 ∧ FlagsBut [clkA 0xC] s t ∧
      (∀ p : Nat, s.flt.pausedAt = some p → t.flt.pausedAt = none ∧ t.flt.beatAt = s.flt.beatAt + (s.clk.now - p)) ∧
      Within [.pwr, .flg, .msix, .flt] s t) := by
  have hx := exec_thawPhaseDone (crcOk := crcOk) (n := n) (bootSel := bootSel) hu hp
  rw [ht] at hx
  have hmod : Within [.pwr] s ((s.modPwr (fun p => { p with phase := .none, wasQuiet := false })).cause 4) :=
    (State.modPwr_within s _).step (State.modPwr_within _ _) (by decide)
  have hwatch := State.watchResume_within ((s.modPwr (fun p => { p with phase := .none, wasQuiet := false })).cause 4)
  have hset := State.setBit_within ((s.modPwr (fun p => { p with phase := .none, wasQuiet := false })).cause 4).watchResume (clkA 0xC) 2
  have hpre : Within [.pwr, .flt] s ((s.modPwr (fun p => { p with phase := .none, wasQuiet := false })).cause 4).watchResume :=
    (hmod.mono (by decide)).step hwatch (by decide)
  refine ⟨_, hx, ?_, ?_, ?_, (hpre.flagsBut _).setBit 2 (List.mem_singleton_self _), fun p hpause => ?_, (hpre.mono (by decide)).step hset (by decide)⟩
  · rw [hset.pwrEq, hwatch.pwrEq]; rfl
  · rw [hset.pwrEq, hwatch.pwrEq]; rfl
  · rw [State.flag_setBit_self _ 2 (by decide), hpre.flagEq]
  · rw [hset.fltEq]
    exact ⟨State.watchResume_pausedAt _, State.watchResume_beatAt (s := (s.modPwr (fun p => { p with phase := .none, wasQuiet := false })).cause 4)
      hpause⟩

theorem thawPhase_fails {s : State} {crcOk : Bool} {n : Nat} {bootSel : Bool} (hu : s.undef = false) (hp : s.pwr.phase = .thawing)
    (ht : s.pwr.thaw = .registers ∨ s.pwr.thaw = .tables) (hh : s.heldInReset = false) : Gives (.thawPhaseDone crcOk n bootSel) s (fun t =>
      crcOk = false ∨ (s.pwr.thaw = .tables ∧ s.thawTables.2 = false) → ThawFailed bootSel s t) := by
  have hx := exec_thawPhaseDone (crcOk := crcOk) (n := n) (bootSel := bootSel) hu hp
  rcases ht with ht | ht
  · rw [ht] at hx
    refine ⟨_, hx, fun hbad => ?_⟩
    have hcrc : crcOk = false := hbad.elim id (fun h => absurd (ht.symm.trans h.1) (by decide))
    dsimp only
    rw [if_pos (by rw [hcrc]; rfl)]
    exact State.thawFail_failed hh bootSel
  · rw [ht] at hx
    refine ⟨_, hx, fun hbad => ?_⟩
    have hcrc : ¬ (crcOk && s.thawTables.2) = true := by
      rcases hbad with h | ⟨-, h⟩ <;> simp [h]
    have hw := s.thawTables_within
    have hheld : s.thawTables.1.heldInReset = false := by
      unfold State.heldInReset
      rw [hw.pwrEq]
      exact hh
    dsimp only
    rw [if_neg hcrc]
    exact (State.thawFail_failed hheld bootSel).after hw (hpart := hw.partEq) (hpend := hw.pendingEq)

/-! ### The obligation -/

/-- Settles O19: every phase is one of the model's; the failed ones end in the state of a cold reset, released. -/
theorem thawRunsInPhases : Obligations.ThawRunsInPhases := by
  unfold Obligations.ThawRunsInPhases
  intro s crcOk cycles bootSel hu hp
  have hx := exec_thawPhaseDone (crcOk := crcOk) (n := cycles) (bootSel := bootSel) hu hp
  refine ⟨fun ht => ?_, fun ht => thawPhase_clocks hu hp ht, fun ht => thawPhase_clear hu hp ht, fun ht hc => ?_, fun ht hd => ?_,
    fun ht hc hd => ?_, fun ht hc hd => ?_, fun ht => ?_, fun ht => thawPhase_done hu hp ht, fun ht hh => ?_⟩
  · rw [ht] at hx
    exact ⟨_, hx, rfl, State.thawTo_within s _⟩
  · subst hc
    exact thawPhase_registers hu hp ht
  · rw [ht] at hx
    exact ⟨_, hx.trans (congrArg Host.Outcome.next (if_neg hd)), rfl, State.thawTo_within s _⟩
  · subst hc
    exact thawPhase_unparked hu hp ht hd
  · subst hc
    exact thawPhase_tables hu hp ht hd
  · rw [ht] at hx
    exact ⟨_, hx, rfl, rfl, rfl, (s.playClocksStart_within.mono (by decide)).step (State.thawTo_within _ _) (by decide)⟩
  · obtain ⟨t, htx, hfail⟩ := thawPhase_fails (crcOk := crcOk) (n := cycles) (bootSel := bootSel) hu hp ht hh
    refine ⟨t, htx, fun hbad => ?_⟩
    obtain ⟨⟨hphase, hcause, hcode⟩, hflag, himg, ⟨hcells, hwl, hlvl, hclu⟩, hpart, hjtag, hsmb, hpend⟩ := hfail hbad
    exact ⟨hphase, hcause, hcode, hflag, himg, hcells, hwl, hlvl, hclu, hpart, hjtag, hsmb, hpend⟩

end Sys2Proof.Machine
end

