-- ==== Sys2Proof/Proofs/BaseTraining.lean ====
section
/-! PROOF. CHECK, the training of a load, the end of APPLY, and the end of a RETRAIN (R40, R41, R43, R49, R335, R336, R495; O21). -/
namespace Sys2Proof.Machine

/-! ### What the sections of an image leave as it is -/

/-- A lane is left as it is, or a LOAD that waited on it acts at the next management tick (R181). -/
def LanesStay (s t : State) : Prop := ∀ w : Lane, t.wl[w] = s.wl[w] ∨
  ∃ at_, t.wl[w] = { s.wl[w] with load := .managementTick, loadAt := at_ }

/-- The training goes on as it was. -/
def Dram.trains (d : Dram) : Training × Bool × Bool := (d.training, d.ready, d.shortNext)

structure SectionsKeep (s t : State) : Prop where
  lanes : LanesStay s t
  trains : t.dram.trains = s.dram.trains

theorem SectionsKeep.refl (s : State) : SectionsKeep s s := ⟨fun _ => .inl rfl, rfl⟩

theorem LanesStay.trans {s t u : State} (h : LanesStay s t) (k : LanesStay t u) : LanesStay s u := fun w => by
  rcases k w with e | ⟨x, e⟩
  · rw [e]
    exact h w
  · rcases h w with f | ⟨y, f⟩
    · exact .inr ⟨x, by rw [e, f]⟩
    · exact .inr ⟨x, by rw [e, f]⟩

theorem LanesStay.of_eq {s t : State} (h : t.wl = s.wl) : LanesStay s t := fun w => .inl (by rw [h])

theorem SectionsKeep.trans {s t u : State} (h : SectionsKeep s t) (k : SectionsKeep t u) : SectionsKeep s u :=
  ⟨h.lanes.trans k.lanes, k.trains.trans h.trains⟩

theorem SectionsKeep.of_within {l : List Field} {s t : State} (h : Within l s t) (hw : Field.wl ∉ l := by decide)
    (hd : Field.dram ∉ l := by decide) : SectionsKeep s t := by
  have hdram : ({ t.dram with cells := s.dram.cells, gen := s.dram.gen } : Dram) = s.dram := h .dram hd
  have htrains := congrArg Dram.trains hdram
  exact ⟨LanesStay.of_eq (h.wlEq hw), htrains⟩

/-- A lane that a record unbinds. -/
def State.laneUnbound (s t : State) (w : Lane) : State :=
  if t.laneOwner w = s.laneOwner w then t
  else t.modWl w (fun l => if l.load = .segmentStart then { l with load := .managementTick, loadAt := t.clk.now } else l)

theorem SectionsKeep.laneUnbound (s t : State) (w : Lane) : SectionsKeep t (s.laneUnbound t w) := by
  unfold State.laneUnbound
  split
  · exact SectionsKeep.refl t
  · refine ⟨fun v => ?_, rfl⟩
    by_cases hv : v = w
    · subst hv
      rw [State.modWl_self]
      split
      · exact .inr ⟨_, rfl⟩
      · exact .inl rfl
    · exact .inl (State.modWl_other t w _ hv)

theorem SectionsKeep.fold {α : Type} {f : State → α → State} (h : ∀ u x, SectionsKeep u (f u x)) (l : List α) (s : State) :
    SectionsKeep s (l.foldl f s) := foldl_rel SectionsKeep SectionsKeep.refl SectionsKeep.trans f h l s

theorem SectionsKeep.applyBind (s : State) (r : List Word) : SectionsKeep s (s.applyBind r) := by
  unfold State.applyBind
  dsimp only
  refine SectionsKeep.trans (SectionsKeep.trans ?_ (SectionsKeep.fold (fun t w => SectionsKeep.laneUnbound s t w) (allFin 16) _))
    (SectionsKeep.fold (fun u g => SectionsKeep.of_within (State.copyTset_within u g)) _ _)
  exact SectionsKeep.fold (fun u k => by split <;> exact SectionsKeep.of_within (State.modClu_within u k _)) (allFin 8) s

theorem SectionsKeep.applyDram (s : State) (r : List Word) : SectionsKeep s (s.applyDram r) := ⟨fun _ => .inl rfl, rfl⟩

theorem SectionsKeep.applyRec (s : State) (typ : Nat) (r : List Word) : SectionsKeep s (s.applyRec typ r) := by
  unfold State.applyRec
  split
  · exact SectionsKeep.of_within (State.applyClocks_within s _)
  · exact SectionsKeep.applyDram s r
  · exact SectionsKeep.of_within (State.applyStaging_within s r)
  · exact SectionsKeep.applyBind s r
  · exact SectionsKeep.of_within (State.applyRow_within s r)
  · exact SectionsKeep.of_within (State.applyTsets_within s r)
  · exact SectionsKeep.of_within (State.applyLevel_within s r)
  · exact SectionsKeep.of_within (Within.set_tabs s _)
  · exact SectionsKeep.of_within (State.applySegs_within s r)
  · exact SectionsKeep.of_within (Within.set_tabs s _)
  · exact SectionsKeep.of_within (Within.set_tabs s _)
  · exact SectionsKeep.of_within (State.modPwr_within s _)
  · exact SectionsKeep.refl s

theorem SectionsKeep.applySects (s : State) (b : List Byte) (l : List ImgSect) : SectionsKeep s (s.applySects b l) :=
  SectionsKeep.fold (f := fun s e => ((recordsOf b e).filterMap id).foldl (fun s r => s.applyRec e.typ r) s)
    (fun u e => SectionsKeep.fold (fun v r => SectionsKeep.applyRec v e.typ r) _ u) l s

/-! ### CHECK (R40) -/

/-- The limit of a host's image. -/
def State.imageLimit (s : State) : Option Nat := if s.img.src = 0 then some s.img.hostLen.toNat else none

theorem exec_imgCheckDone {s : State} (hu : s.undef = false) (hc : s.img.state = .check) : exec .imgCheckDone s = .next
    (match s.imageCheck s.img.buf false s.imageLimit with
      | some (code, sect) => s.loadRefuse code sect
      | none => ((s.modImg (fun i => { i with state := .apply, bufVerified := s.isVerified s.img.buf })).applySects s.img.buf
          ((sectTable s.img.buf).take 2)).train .full) := by
  show execImgCheckDone s = _
  rw [execImgCheckDone, guarded_next hu]
  refine congrArg Host.Outcome.next ((if_neg (fun h => h hc)).trans ?_)
  rfl

/-- A good image goes on to APPLY. -/
def State.checkPassed (s : State) : State :=
  ((s.modImg (fun i => { i with state := .apply, bufVerified := s.isVerified s.img.buf })).applySects s.img.buf
    ((sectTable s.img.buf).take 2)).train .full

theorem State.checkPassed_sections (s : State) : Within [.img, .clk, .pwr, .cfg, .eff, .flg, .tabs, .was, .clu, .wl, .pg, .lvl, .mon, .dram, .mem,
    .host, .msix, .plc, .freeN] s s.checkPassed :=
  (((State.modImg_within s _).mono (by decide)).step (State.applySects_within _ _ _) (by decide)).step (State.train_within _ _) (by decide)

theorem State.checkPassed_img (s : State) : s.checkPassed.img = { s.img with state := .apply, bufVerified := s.isVerified s.img.buf } := by
  unfold State.checkPassed
  rw [(State.train_within _ _).imgEq, (State.applySects_within _ _ _).imgEq]
  rfl

theorem State.train_full (s : State) : (s.train .full).dram.training = .full ∧ (s.train .full).dram.ready = false ∧
    (s.train .full).dram.trainAt = (s.train .full).clk.now := by
  obtain ⟨chans, h⟩ := s.train_eq .full
  rw [h]
  exact ⟨rfl, rfl, rfl⟩

theorem State.checkPassed_lanes (s : State) : LanesStay s s.checkPassed :=
  ((LanesStay.of_eq (State.modImg_within s _).wlEq).trans (SectionsKeep.applySects _ _ _).lanes).trans
    (LanesStay.of_eq (State.train_within _ _).wlEq)

/-! ### The end of a training (R335, R336, R495) -/

/-- A training that passes: READY as its PLL is locked, unless the short training of a relock follows. -/
def Trained (s t : State) : Prop :=
  t.dram.training = (if s.dram.shortNext then .short else .none) ∧ t.dram.ready = (!s.dram.shortNext && s.clk.pll.getLsbD 6) ∧
    t.dram.shortNext = false

theorem State.trainPass_trained (s : State) : Trained s s.trainPass := by
  cases h : s.dram.shortNext with
  | false =>
    obtain ⟨chans, hpass⟩ := State.trainPass_eq h
    rw [hpass, Trained, h]
    exact ⟨rfl, (Bool.true_and _).symm, rfl⟩
  | true =>
    obtain ⟨c, hc⟩ := State.foldl_modChan (fun _ k => { k with predict := [] }) (allFin 16) s
    obtain ⟨chans, htrain⟩ := State.train_eq { s with dram := { s.dram with
      chans := c, training := .none, ready := s.clk.pll.getLsbD 6, shortNext := false } } .short
    have hpass : s.trainPass = State.train { s with dram := { s.dram with
        chans := c, training := .none, ready := s.clk.pll.getLsbD 6, shortNext := false } } .short := by
      unfold State.trainPass
      dsimp only
      rw [hc, if_pos h]
    rw [hpass, htrain, Trained, h]
    exact ⟨rfl, rfl, rfl⟩

theorem Trained.of_trains {s t u : State} (h : Trained s t) (hk : u.dram.trains = t.dram.trains) : Trained s u := by
  have htraining : u.dram.training = t.dram.training := congrArg (fun x => x.1) hk
  have hready : u.dram.ready = t.dram.ready := congrArg (fun x => x.2.1) hk
  have hnext : u.dram.shortNext = t.dram.shortNext := congrArg (fun x => x.2.2) hk
  unfold Trained
  rw [htraining, hready, hnext]
  exact h

theorem Within.trainsEq {l : List Field} {s t : State} (h : Within l s t) (hd : Field.dram ∉ l := by decide) : t.dram.trains = s.dram.trains := by
  have hdram : ({ t.dram with cells := s.dram.cells, gen := s.dram.gen } : Dram) = s.dram := h .dram hd
  have htrains := congrArg Dram.trains hdram
  exact htrains

/-- The sections that follow the training. -/
def State.restApplied (s : State) : State := s.trainPass.applySects s.img.buf ((sectTable s.img.buf).drop 2)

theorem State.applyRest_eq (s : State) : s.applyRest = s.restApplied.clearMem .staging := rfl

theorem State.clearMem_staging_tabs (s : State) : (s.clearMem .staging).tabs = s.tabs :=
  foldl_keeps State.tabs (allFin 4) (fun s g => s.modPg g (fun p => { p with ring := [] })) (fun _ _ => rfl) _

theorem State.dramPhase_of_none {s : State} (h : s.dram.training = .none) : s.dramPhase = 0 := by
  unfold State.dramPhase
  rw [h]
  rfl

theorem exec_trainDone_load {s : State} (failed : Option (Chan × Fin 8)) (hu : s.undef = false) (ht : s.dram.training = .full)
    (ha : s.img.state = .apply) : exec (.dramTrainDone failed) s = .next (match failed with
      | none => s.applyRest
      | some _ => s.trainUndo) := by
  show execDramTrainDone failed s = _
  rw [execDramTrainDone, guarded_next hu]
  simp only [ht]
  refine congrArg Host.Outcome.next ((if_neg (fun h => h ha)).trans ?_)
  rfl

theorem trainDone_passes {s : State} (hu : s.undef = false) (ht : s.dram.training = .full) (ha : s.img.state = .apply) :
    Gives (.dramTrainDone none) s (fun t => t.img = s.img ∧ Trained s t ∧ (s.dram.shortNext = false → t.dramPhase = 0) ∧
      t.tabs = (s.trainPass.applySects s.img.buf ((sectTable s.img.buf).drop 2)).tabs ∧
      t.clu = (s.trainPass.applySects s.img.buf ((sectTable s.img.buf).drop 2)).clu ∧ t.mem.slots = [] ∧
      LanesStay s t ∧ t.part = s.part) := by
  have hx := exec_trainDone_load none hu ht ha
  have hpass := s.trainPass_within
  have hsects := State.applySects_within s.trainPass s.img.buf ((sectTable s.img.buf).drop 2)
  have hkeep := SectionsKeep.applySects s.trainPass s.img.buf ((sectTable s.img.buf).drop 2)
  have hclear := s.restApplied.clearMem_within .staging
  have htrained : Trained s s.applyRest := by
    rw [State.applyRest_eq]
    exact s.trainPass_trained.of_trains (hclear.trainsEq.trans hkeep.trains)
  refine ⟨s.applyRest, hx, ?_, htrained, fun hn => State.dramPhase_of_none (htrained.1.trans (by rw [hn]; rfl)), ?_, ?_, ?_, ?_, ?_⟩
  all_goals rw [State.applyRest_eq]
  · rw [hclear.imgEq, State.restApplied, hsects.imgEq, hpass.imgEq]
  · exact State.clearMem_staging_tabs _
  · exact hclear.cluEq (by decide)
  · rw [State.clearMem_staging]
  · exact ((LanesStay.of_eq hpass.wlEq).trans hkeep.lanes).trans (LanesStay.of_eq hclear.wlEq)
  · rw [hclear.partEq, State.restApplied, hsects.partEq, hpass.partEq]

/-- What the failed training of a load undoes before it refuses the copy (R41). -/
def State.loadUndone (s : State) : State :=
  s.unconfigure.modImg (fun i => { i with src := s.img.src, fallbackNext := s.img.fallbackNext, fallbackUsed := s.img.fallbackUsed })

theorem State.trainUndo_eq (s : State) : s.trainUndo = s.loadUndone.loadRefuse 0x0E 1 := rfl

theorem trainDone_undoes {s : State} (hu : s.undef = false) (ht : s.dram.training = .full) (ha : s.img.state = .apply) (x : Chan × Fin 8) :
    Gives (.dramTrainDone (some x)) s (fun t =>
      t.img.errCode = 0x0E ∧ t.img.errSection = 1 ∧ (t.flag 0x108).getLsbD 16 = true ∧ t.dram.configured = false ∧
      (if s.img.src = 1 ∧ s.img.fallbackNext = true then t.img.state = .fetch ∧ t.img.src = 2 ∧ t.img.fallbackUsed = true
        else t.img.state = .unconfigured ∧ t.img.fallbackUsed = s.img.fallbackUsed)) := by
  have hx := exec_trainDone_load (some x) hu ht ha
  have hundo := State.modImg_within s.unconfigure (fun i => { i with
    src := s.img.src, fallbackNext := s.img.fallbackNext, fallbackUsed := s.img.fallbackUsed })
  have hsrc : s.loadUndone.img.src = s.img.src ∧ s.loadUndone.img.fallbackNext = s.img.fallbackNext ∧
      s.loadUndone.img.fallbackUsed = s.img.fallbackUsed := by
    rw [State.loadUndone, State.modImg_img]
    exact ⟨rfl, rfl, rfl⟩
  have hdram : s.loadUndone.dram.configured = false := by
    rw [State.loadUndone, hundo.dramEq, State.unconfigure_dram]
    rfl
  have hr := s.loadUndone.loadRefuse_refused 0x0E 1
  obtain ⟨hs, hn, hused⟩ := hsrc
  have hrefused : exec (.dramTrainDone (some x)) s = .next (s.loadUndone.loadRefuse 0x0E 1) := hx.trans (congrArg Host.Outcome.next s.trainUndo_eq)
  refine ⟨_, hrefused, hr.code, hr.section_, ?_, ?_, ?_⟩
  · rw [hr.flag, BitVec.getLsbD_or, bit32_self (by decide), Bool.or_true]
  · rw [hr.within.dramEq]
    exact hdram
  · split
    · next hy =>
      obtain ⟨hstate, h2, hset, -⟩ := hr.fallback (by rw [hs, hn]; exact hy)
      exact ⟨hstate, h2, hset⟩
    · next hno =>
      obtain ⟨hstate, -, hset, -⟩ := hr.ended (by rw [hs, hn]; exact hno)
      exact ⟨hstate, hset.trans hused⟩

/-! ### The end of a RETRAIN (R336) -/

theorem exec_trainDone_retrain {s : State} (failed : Option (Chan × Fin 8)) (hu : s.undef = false) (ht : s.dram.training = .retrain)
    (hh : s.pwr.held = []) : exec (.dramTrainDone failed) s = .next (s.retrainEnd failed) := by
  have hkeep : (s.retrainEnd failed).pwr = s.pwr := by
    unfold State.retrainEnd
    cases failed with
    | none => rw [(State.setBit_within _ _ _).pwrEq, (State.trainPass_within s).pwrEq]
    | some x => rw [(State.setBit_within _ _ _).pwrEq, (State.trainFail_within s _ _).pwrEq]
  show execDramTrainDone failed s = _
  rw [execDramTrainDone, guarded_next hu]
  simp only [ht]
  exact congrArg Host.Outcome.next (State.runHeld_of_nil (by rw [hkeep]; exact hh))

theorem trainDone_retrained {s : State} (hu : s.undef = false) (ht : s.dram.training = .retrain) (hh : s.pwr.held = []) :
    Gives (.dramTrainDone none) s (fun t => Trained s t ∧ t.flag (drmA 0x24) = s.flag (drmA 0x24) ||| bit32 5 ∧
      Within [.pwr, .flg, .dram, .msix] s t) := by
  have hset := State.setBit_within s.trainPass (drmA 0x24) 5
  exact ⟨_, exec_trainDone_retrain none hu ht hh, s.trainPass_trained.of_trains hset.trainsEq,
    (State.flag_setBit_self s.trainPass 5 (by decide)).trans (by rw [s.trainPass_within.flagEq]),
    (s.trainPass_within.mono (by decide)).step hset (by decide)⟩

/-- A training that fails leaves DRAM not ready and is reported. -/
theorem State.trainFail_says (s : State) (g : Chan) (phase : Fin 8) : (s.trainFail g phase).dram.training = .none ∧
    (s.trainFail g phase).dram.ready = false ∧ ((s.trainFail g phase).flag (drmA 0x24)).getLsbD 4 = true ∧
    (s.trainFail g phase).flt.seq = s.flt.seq + 1 := by
  unfold State.trainFail
  dsimp only
  have hset := State.setBit_within { s with dram := { s.dram with training := .none, ready := false, shortNext := false } } (drmA 0x24) 4
  refine ⟨?_, ?_, ?_, ?_⟩
  · rw [(State.report_within _ _).dramEq, hset.dramEq]
  · rw [(State.report_within _ _).dramEq, hset.dramEq]
  · rw [State.report_flags _ _ (drmA 0x24) (by decide) (by decide)]
    exact State.flagBit_setBit _ (by decide) (by decide)
  · rw [State.report_seq, hset.fltEq]

theorem trainDone_retrainFails {s : State} (hu : s.undef = false) (ht : s.dram.training = .retrain) (hh : s.pwr.held = []) (x : Chan × Fin 8) :
    Gives (.dramTrainDone (some x)) s (fun t => t.dram.training = .none ∧ t.dram.ready = false ∧
      (t.flag (drmA 0x24)).getLsbD 4 = true ∧ (t.flag (drmA 0x24)).getLsbD 5 = true ∧ t.flt.seq = s.flt.seq + 1 ∧
      Within [.pwr, .flg, .ctr, .dram, .msix, .flt] s t) := by
  have hset := State.setBit_within (s.trainFail x.1 x.2) (drmA 0x24) 5
  obtain ⟨hnone, hready, hflag, hseq⟩ := s.trainFail_says x.1 x.2
  refine ⟨_, exec_trainDone_retrain (some x) hu ht hh, ?_, ?_, ?_, State.flagBit_setBit _ (by decide) (by decide), ?_, ?_⟩
  · exact (congrArg Dram.training hset.dramEq).trans hnone
  · exact (congrArg Dram.ready hset.dramEq).trans hready
  · show (((s.trainFail x.1 x.2).setBit (drmA 0x24) 5).flag (drmA 0x24)).getLsbD 4 = true
    rw [State.flag_setBit_self _ 5 (by decide), BitVec.getLsbD_or, hflag, Bool.true_or]
  · exact (congrArg Supervisor.seq hset.fltEq).trans hseq
  · exact ((State.trainFail_within s x.1 x.2).mono (by decide)).step hset (by decide)

/-! ### The end of APPLY (R40, R49) -/

theorem imgApplyDone_configures {s : State} (hu : s.undef = false) (ha : s.img.state = .apply) (ht : s.dram.training = .none)
    (hr : s.dram.ready = true) : Gives .imgApplyDone s (fun t =>
      t.img.state = .configured ∧ t.img.loadedSrc = s.img.src ∧ t.img.verified = s.img.bufVerified ∧
      t.img.version = BitVec.ofNat 32 (hdrVersion s.img.buf) ∧ t.img.secCount = BitVec.ofNat 16 (hdrCount s.img.buf) ∧
      t.img.compat = BitVec.ofNat 16 (hdrCompat s.img.buf) ∧ t.img.baseId = BitVec.ofNat 32 (hdrTableCrc s.img.buf) ∧
      t.img.buf = [] ∧ Takes 0x100 1 s t ∧ Within [.img, .cmd, .more, .mem] s t) := by
  have hmem : Within [.img, .mem] s ((s.imgIdentity s.img.buf).modMem (fun m => { m with clearing := m.clearing &&& ~~~1 })) :=
    (Within.mono (m := [.img]) (State.modImg_within s _) (by decide)).step (m := [.mem])
      (Within.set_mem _ { s.mem with clearing := s.mem.clearing &&& ~~~1 } rfl) (by decide)
  have himg := State.modImg_within ((s.imgIdentity s.img.buf).modMem (fun m => { m with clearing := m.clearing &&& ~~~1 }))
    (fun i => { i with state := .configured, buf := [] })
  have hpre := hmem.step himg (by decide)
  refine gives_branch hu rfl (if_neg (by rw [ha, ht, hr]; decide)) ⟨rfl, rfl, rfl, rfl, rfl, rfl, rfl, rfl, ?_, ?_⟩
  · exact (State.cmdTake_takes _ 0x100 1).from_eq hpre.cmdEq hpre.moreEq
  · exact (hpre.mono (by decide)).step (State.cmdTake_within _ _ _) (by decide)

/-! ### The obligation -/

/-- Settles O21: the sections of an image touch neither the training nor a lane but for a LOAD that waits on it. -/
theorem baseLoadsCheckTrainApply : Obligations.BaseLoadsCheckTrainApply := by
  unfold Obligations.BaseLoadsCheckTrainApply
  intro lanesStay trained s hu
  refine ⟨fun hc => ⟨fun code sect hbad => ?_, fun hgood => ?_⟩, fun ht ha => ⟨trainDone_passes hu ht ha, fun x => trainDone_undoes hu ht ha x⟩,
    fun ht hh => ⟨trainDone_retrained hu ht hh, fun x => trainDone_retrainFails hu ht hh x⟩, fun ha ht hr => imgApplyDone_configures hu ha ht hr⟩
  · have hx := exec_imgCheckDone hu hc
    have hcheck : s.imageCheck s.img.buf false s.imageLimit = some (code, sect) := hbad
    rw [hcheck] at hx
    have hr := s.loadRefuse_refused code sect
    refine ⟨_, hx, hr.code, hr.section_, hr.flag, ?_, hr.flags, hr.within⟩
    split
    · next hy =>
      obtain ⟨hstate, h2, hset, -⟩ := hr.fallback hy
      exact ⟨hstate, h2, hset⟩
    · next hno =>
      obtain ⟨hstate, hbuf, -, htakes⟩ := hr.ended hno
      exact ⟨hstate, hbuf, htakes⟩
  · have hx := exec_imgCheckDone hu hc
    have hcheck : s.imageCheck s.img.buf false s.imageLimit = none := hgood
    rw [hcheck] at hx
    have hw := s.checkPassed_sections
    obtain ⟨htraining, hready, hat⟩ := State.train_full ((s.modImg (fun i => { i with
      state := .apply, bufVerified := s.isVerified s.img.buf })).applySects s.img.buf ((sectTable s.img.buf).take 2))
    exact ⟨_, hx, rfl, s.checkPassed_img, htraining, hready, hat, hw.partEq, s.checkPassed_lanes, hw.smbEq, hw.pendingEq⟩

end Sys2Proof.Machine
end

