-- ==== Sys2Proof/Proofs/OverlayEnds.lean ====
section
/-! PROOF. The quiet point of an overlay and the end of its application (R56 to R60, R63, R132, R135; O23). -/
namespace Sys2Proof.Machine

/-! ### Staged copies go or grow older -/

/-- No slot of the staging memory is gained, and one that stays differs in its age alone (R135). -/
structure SlotsAged (s t : State) : Prop where
  rest : t.mem = { s.mem with slots := t.mem.slots }
  slots : ∀ x ∈ t.mem.slots, ∃ y ∈ s.mem.slots, ∃ a, x = (y.1, { y.2 with age := a })

theorem SlotsAged.of_eq {s t : State} (h : t.mem = s.mem) : SlotsAged s t :=
  ⟨by rw [h], fun x hx => ⟨x, h ▸ hx, x.2.age, rfl⟩⟩

theorem SlotsAged.refl (s : State) : SlotsAged s s := SlotsAged.of_eq rfl

theorem SlotsAged.of_within {l : List Field} {s t : State} (h : Within l s t) (hm : Field.mem ∉ l := by decide)
    (hx : Field.xram ∉ l := by decide) : SlotsAged s t := SlotsAged.of_eq (h.memEq hm hx)

theorem SlotsAged.trans {s t u : State} (h : SlotsAged s t) (k : SlotsAged t u) : SlotsAged s u where
  rest := by rw [k.rest, h.rest]
  slots x hx := by
    obtain ⟨y, hy, a, rfl⟩ := k.slots x hx
    obtain ⟨z, hz, b, rfl⟩ := h.slots y hy
    exact ⟨z, hz, a, rfl⟩

theorem SlotsAged.setTabs {s t : State} (h : SlotsAged s t) (x : Tables) : SlotsAged s { t with tabs := x } := h.trans (SlotsAged.of_eq rfl)

theorem SlotsAged.fold {α : Type} {f : State → α → State} (h : ∀ u x, SlotsAged u (f u x)) (l : List α) (s : State) :
    SlotsAged s (l.foldl f s) := foldl_rel SlotsAged SlotsAged.refl SlotsAged.trans f h l s

theorem SlotsAged.dropCopies (s : State) (i : Nat) : SlotsAged s (s.dropCopies i) :=
  ⟨rfl, fun x hx => ⟨x, (List.mem_filter.1 hx).1, x.2.age, rfl⟩⟩

theorem olderSlot_eq (i : Nat) (x : Nat × Slot) : ∃ a, olderSlot i x = (x.1, { x.2 with age := a }) := by
  unfold olderSlot
  split
  · exact ⟨_, rfl⟩
  · exact ⟨x.2.age, rfl⟩

theorem SlotsAged.older (s : State) (i : Nat) : SlotsAged s { s with mem := { s.mem with slots := s.mem.slots.map (olderSlot i) } } := by
  refine ⟨rfl, fun x hx => ?_⟩
  obtain ⟨y, hy, rfl⟩ := List.mem_map.1 hx
  exact ⟨y, hy, olderSlot_eq i y⟩

theorem SlotsAged.ageCopies (s : State) (i : Nat) : SlotsAged s (s.ageCopies i) := by
  have hdropped : SlotsAged s ((s.retireCopy i).dropCopies i) :=
    (SlotsAged.of_within (State.retireCopy_within s i)).trans (SlotsAged.dropCopies _ i)
  unfold State.ageCopies
  refine SlotsAged.trans ?_ (SlotsAged.fold (fun u n => SlotsAged.of_within (State.modClu_within u n _)) (allFin 8) _)
  exact (hdropped.trans (SlotsAged.older _ i)).trans (SlotsAged.of_within (State.modPlc_within _ _))

theorem SlotsAged.unpublish (s : State) (i : Nat) : SlotsAged s (s.unpublish i) :=
  (((SlotsAged.of_within (State.keepRec_within s i _)).trans (SlotsAged.ageCopies _ i)).trans
    (SlotsAged.of_within (State.modEntry_within _ i _))).trans (SlotsAged.of_within (State.publishFinish_within _))

/-! ### The records of a section -/

theorem SlotsAged.applySegs (s : State) (r : List Word) : SlotsAged s (s.applySegs r) :=
  (SlotsAged.fold (fun u i => SlotsAged.unpublish u (winFirst r + i)) _ s).trans (SlotsAged.of_eq rfl)

theorem SlotsAged.applyRec (s : State) (typ : Nat) (r : List Word) : SlotsAged s (s.applyRec typ r) := by
  unfold State.applyRec
  split
  · exact SlotsAged.of_within (State.applyClocks_within s _)
  · exact SlotsAged.of_within (State.applyDram_within s r)
  · exact SlotsAged.of_within (State.applyStaging_within s r)
  · exact SlotsAged.of_within (State.applyBind_within s r)
  · exact SlotsAged.of_within (State.applyRow_within s r)
  · exact SlotsAged.of_within (State.applyTsets_within s r)
  · exact SlotsAged.of_within (State.applyLevel_within s r)
  · exact SlotsAged.of_within (Within.set_tabs s _)
  · exact SlotsAged.applySegs s r
  · exact SlotsAged.of_within (Within.set_tabs s _)
  · exact SlotsAged.of_within (Within.set_tabs s _)
  · exact SlotsAged.of_within (State.modPwr_within s _)
  · exact SlotsAged.refl s

theorem SlotsAged.applySects (s : State) (b : List Byte) (l : List ImgSect) : SlotsAged s (s.applySects b l) :=
  SlotsAged.fold (f := fun s e => ((recordsOf b e).filterMap id).foldl (fun s r => s.applyRec e.typ r) s)
    (fun u e => SlotsAged.fold (fun v r => SlotsAged.applyRec v e.typ r) _ u) l s

/-! ### The writes that an application holds -/

theorem SlotsAged.segWrite (s : State) (k : Nat) (be : BitVec 4) (data : Word) : SlotsAged s (s.segWrite k be data) := by
  unfold State.segWrite
  split
  · exact SlotsAged.refl s
  · exact SlotsAged.setTabs (((SlotsAged.of_within (State.markAll_within s)).trans
      (SlotsAged.of_within (State.keepWord_within _ _ _))).trans (SlotsAged.unpublish _ _)) _

theorem SlotsAged.tableWrite (s : State) (a : Nat) (be : BitVec 4) (data : Word) : SlotsAged s (s.tableWrite a be data) := by
  unfold State.tableWrite
  split
  · exact SlotsAged.segWrite s _ be data
  split
  · exact SlotsAged.setTabs ((SlotsAged.of_within (State.markAll_within s)).trans (SlotsAged.of_within (State.keepWord_within _ _ _))) _
  split
  · exact SlotsAged.setTabs (SlotsAged.of_within (State.keepWord_within s _ _)) _
  split
  · exact SlotsAged.of_within (State.tsetWrite_within s _ be data)
  · exact SlotsAged.refl s

theorem SlotsAged.sharedWrite (s : State) (a : Nat) (be : BitVec 4) (data : Word) : SlotsAged s (s.sharedWrite a be data) := by
  unfold State.sharedWrite
  split
  · exact SlotsAged.of_within (State.rwWrite_within s a data _)
  · exact SlotsAged.tableWrite s a be data

theorem FlagsBut.setTabs {m : List Nat} {s t : State} (h : FlagsBut m s t) (x : Tables) : FlagsBut m s { t with tabs := x } := h

theorem FlagsBut.of_eq {m : List Nat} {s t : State} (h : t.flg = s.flg) : FlagsBut m s t := fun a _ _ => flag_of_flg_eq h a

theorem State.publishFinish_flags (s : State) : FlagsBut [plcA 0x10] s s.publishFinish := by
  unfold State.publishFinish
  split
  · split
    · exact FlagsBut.refl _ _
    · exact FlagsBut.setBit (FlagsBut.of_eq rfl) 8 (List.mem_singleton_self _)
  · exact FlagsBut.refl _ _

/-- A write of the segment table can end a publish command; of the flags it raises that of placement alone. -/
theorem State.unpublish_flags (s : State) (i : Nat) : FlagsBut [plcA 0x10] s (s.unpublish i) :=
  ((((State.keepRec_within s i _).flagsBut _).trans ((State.ageCopies_within _ i).flagsBut _)).trans
    ((State.modEntry_within _ i _).flagsBut _)).trans (State.publishFinish_flags _)

theorem State.sharedWrite_flags (s : State) (a : Nat) (be : BitVec 4) (data : Word) : FlagsBut [plcA 0x10] s (s.sharedWrite a be data) := by
  unfold State.sharedWrite
  split
  · exact (State.rwWrite_within s a data _).flagsBut _
  unfold State.tableWrite
  split
  · unfold State.segWrite
    split
    · exact FlagsBut.refl _ _
    · exact FlagsBut.setTabs ((((State.markAll_within s).flagsBut _).trans ((State.keepWord_within _ _ _).flagsBut _)).trans
        (State.unpublish_flags _ _)) _
  split
  · exact FlagsBut.setTabs (((State.markAll_within s).flagsBut _).trans ((State.keepWord_within _ _ _).flagsBut _)) _
  split
  · exact FlagsBut.setTabs ((State.keepWord_within s _ _).flagsBut _) _
  split
  · exact (State.tsetWrite_within s _ be data).flagsBut _
  · exact FlagsBut.refl _ _

theorem State.releaseWrites_flags (s : State) : FlagsBut [plcA 0x10] s s.releaseWrites :=
  (FlagsBut.of_eq (t := { s with ovl := { s.ovl with heldWrites := [] } }) rfl).trans
    (foldl_rel (FlagsBut [plcA 0x10]) (FlagsBut.refl _) (fun h k => h.trans k) _ (fun u x => u.sharedWrite_flags x.addr x.be x.data)
      s.ovl.heldWrites _)

theorem SlotsAged.releaseWrites (s : State) : SlotsAged s s.releaseWrites := by
  have hreset : SlotsAged s { s with ovl := { s.ovl with heldWrites := [] } } := SlotsAged.of_eq rfl
  rw [State.releaseWrites]
  exact hreset.trans
    (SlotsAged.fold (f := fun (u : State) (x : HeldWrite) => u.sharedWrite x.addr x.be x.data)
      (fun u x => SlotsAged.sharedWrite u x.addr x.be x.data) s.ovl.heldWrites _)

theorem State.releaseWrites_ovl (s : State) : s.releaseWrites.ovl = { s.ovl with heldWrites := [] } :=
  foldl_keeps State.ovl s.ovl.heldWrites (fun s x => s.sharedWrite x.addr x.be x.data)
    (fun u x => (State.sharedWrite_within u x.addr x.be x.data).ovlEq) _

theorem State.releaseWrites_wl (s : State) : s.releaseWrites.wl = s.wl := (State.releaseWrites_within s).wlEq

theorem State.releaseWrites_of_nil {s : State} (h : s.ovl.heldWrites = []) :
    s.releaseWrites = { s with ovl := { s.ovl with heldWrites := [] } } := by
  rw [State.releaseWrites, h]
  rfl

/-! ### The quiet point -/

@[simp] theorem State.modOvl_ovl (s : State) (f : Overlay → Overlay) : (s.modOvl f).ovl = f s.ovl := rfl

@[simp] theorem State.modSlot_ovl (s : State) (k : Fin 16) (f : OvlSlot → OvlSlot) :
    (s.modSlot k f).ovl = { s.ovl with slots := s.ovl.slots.set k (f s.ovl.slots[k]) } := rfl

theorem ovlQuietPoint_begins {s : State} {k : Fin 16} {rest : List (Fin 16)} (hu : s.undef = false) (hq : s.ovl.queue = k :: rest)
    (ha : s.ovl.applying = none) (hm : s.quietFor s.ovl.slots[k].mask = true) (hr : s.dram.ready = true) (hl : s.loaderReads = false)
    (hd : s.digestSame k = true) : Gives .ovlQuietPoint s (fun t =>
      t.ovl = { s.ovl with applying := some k, applyBytes := s.slotBytes k, loaded := [], unread := [] } ∧ FlagsBut [drmA 0x24] s t ∧
      Within [.ovl, .flg, .ctr, .dram, .msix, .freeN] s t) := by
  have hw : Within [.ovl, .flg, .ctr, .dram, .msix, .freeN] s
      ((s.loaderDone k).modOvl (fun o => { o with applying := some k, applyBytes := s.slotBytes k })) :=
    (s.loaderDone_within k).step (State.modOvl_within _ _) (by decide)
  refine ⟨_, ?_, ?_, (s.loaderDone_flags k).trans ((State.modOvl_within _ _).flagsBut _), hw⟩
  · show execOvlQuietPoint s = _
    rw [execOvlQuietPoint, guarded_next hu]
    simp only [hq, ha, hm, hr, hl, hd, Option.isSome_none, Bool.not_true, Bool.or_self, Bool.false_eq_true, if_false, if_true]
  · rw [State.modOvl_ovl, State.loaderDone_ovl]

/-- The slot whose bytes have changed goes, and the reads made for it with it. -/
def State.digestRefused (s : State) (k : Fin 16) (rest : List (Fin 16)) : State :=
  ((s.loaderDone k).modOvl (fun o => { o with queue := rest })).modSlot k (fun _ => {})

theorem State.digestRefused_ovl (s : State) (k : Fin 16) (rest : List (Fin 16)) : (s.digestRefused k rest).ovl =
    { s.ovl with slots := s.ovl.slots.set k {}, queue := rest, loaded := [], unread := [] } := by
  rw [State.digestRefused, State.modSlot_ovl, State.modOvl_ovl, State.loaderDone_ovl]

theorem State.digestRefused_within (s : State) (k : Fin 16) (rest : List (Fin 16)) :
    Within [.ovl, .flg, .ctr, .dram, .msix, .freeN] s (s.digestRefused k rest) :=
  ((s.loaderDone_within k).step (State.modOvl_within _ _) (by decide)).step (State.modSlot_within _ k _) (by decide)

theorem State.digestRefused_flags (s : State) (k : Fin 16) (rest : List (Fin 16)) : FlagsBut [drmA 0x24] s (s.digestRefused k rest) :=
  ((s.loaderDone_flags k).trans ((State.modOvl_within _ _).flagsBut _)).trans ((State.modSlot_within _ k _).flagsBut _)

theorem ovlQuietPoint_refuses {s : State} {k : Fin 16} {rest : List (Fin 16)} (hu : s.undef = false) (hq : s.ovl.queue = k :: rest)
    (ha : s.ovl.applying = none) (hm : s.quietFor s.ovl.slots[k].mask = true) (hr : s.dram.ready = true) (hl : s.loaderReads = false)
    (hd : s.digestSame k = false) : Gives .ovlQuietPoint s (fun t => t.ovl.queue = rest ∧ t.ovl.slots[k] = {} ∧
      t.ovl.resCode = 0x14 ∧ t.ovl.resSlot.toNat = k.val ∧ t.flag 0x138 = s.flag 0x138 ||| bit32 13 ∧
      (∀ j : Fin 16, j ≠ k → t.ovl.slots[j] = s.ovl.slots[j]) ∧ FlagsBut [0x138, drmA 0x24] s t ∧
      Within [.ovl, .flg, .ctr, .dram, .msix, .freeN] s t) := by
  have hovl : ((s.digestRefused k rest).ovlResult k 0x14 255 13).ovl =
      Overlay.told { s.ovl with slots := s.ovl.slots.set k {}, queue := rest, loaded := [], unread := [] } k 0x14 255 := by
    rw [State.ovlResult_ovl, State.digestRefused_ovl]
  refine ⟨(s.digestRefused k rest).ovlResult k 0x14 255 13, ?_, by rw [hovl]; rfl, ?_, by rw [hovl]; rfl,
    by rw [hovl]; exact slot_ofNat_toNat k, ?_, fun j hj => ?_, fun a hn hp => ?_,
    (s.digestRefused_within k rest).step (State.ovlResult_within _ k _ _ _) (by decide)⟩
  · show execOvlQuietPoint s = _
    rw [execOvlQuietPoint, guarded_next hu]
    simp only [hq, ha, hm, hr, hl, hd, Option.isSome_none, Bool.not_true, Bool.or_self, Bool.false_eq_true, if_false]
    rfl
  · rw [hovl]
    exact Vector.getElem_set_self k.isLt
  · rw [State.ovlResult_flag, s.digestRefused_flags k rest 0x138 (by decide) (by decide)]
  · rw [hovl]
    exact slots_set_other s.ovl.slots {} hj
  · rw [(s.digestRefused k rest).ovlResult_flagsBut k 0x14 255 13 a (fun h => hn (List.mem_cons.2 (.inl (List.mem_singleton.1 h)))) hp,
      s.digestRefused_flags k rest a (fun h => hn (List.mem_cons_of_mem _ h)) hp]

theorem ovlQuietPoint_waits {s : State} {k : Fin 16} {rest : List (Fin 16)} (hu : s.undef = false) (hq : s.ovl.queue = k :: rest)
    (h : s.quietFor s.ovl.slots[k].mask = false ∨ s.dram.ready = false ∨ s.loaderReads = true) :
    Gives .ovlQuietPoint s (fun t => t = s) := by
  have hwaits : (s.ovl.applying.isSome || !s.quietFor s.ovl.slots[k].mask || !s.dram.ready || s.loaderReads) = true := by
    simp only [Bool.or_eq_true, Bool.not_eq_true']
    rcases h with h | h | h
    · exact .inl (.inl (.inr h))
    · exact .inl (.inr h)
    · exact .inr h
  refine ⟨s, ?_, rfl⟩
  show execOvlQuietPoint s = _
  rw [execOvlQuietPoint, guarded_next hu]
  simp only [hq, hwaits, if_true]

/-! ### The end of an application -/

/-- What the records of an overlay leave. -/
def State.overlaid (s : State) : State := s.freezeRows.applySects s.ovl.applyBytes (sectTable s.ovl.applyBytes)

/-- The slot is APPLIED and its result told, before the held writes follow. -/
def State.appliedSlot (s : State) (k : Fin 16) : State :=
  (((s.modSlot k (fun o => { o with state := .applied })).modOvl
    (fun o => { o with applying := none, applyBytes := [], queue := o.queue.filter (fun x => decide (x ≠ k)) }))).ovlResult k 0 255 12

theorem State.overlaid_within (s : State) :
    Within [.clk, .pwr, .cfg, .eff, .flg, .tabs, .was, .clu, .wl, .pg, .lvl, .mon, .dram, .mem, .host, .msix, .plc, .freeN, .brg]
      s s.overlaid := (s.freezeRows_within.mono (by decide)).step (State.applySects_within _ _ _) (by decide)

theorem State.overlaid_wl (s : State) : LanesStay s s.overlaid :=
  ((SectionsKeep.of_within s.freezeRows_within).trans (SectionsKeep.applySects _ _ _)).lanes

theorem SlotsAged.overlaid (s : State) : SlotsAged s s.overlaid :=
  (SlotsAged.of_within s.freezeRows_within).trans (SlotsAged.applySects _ _ _)

theorem State.appliedSlot_ovl (s : State) (k : Fin 16) : (s.appliedSlot k).ovl =
    Overlay.told { s.ovl with slots := s.ovl.slots.set k { s.ovl.slots[k] with state := .applied }, applying := none, applyBytes := []
                              queue := s.ovl.queue.filter (fun x => decide (x ≠ k)) } k 0 255 :=
  State.ovlResult_ovl _ k 0 255 12

theorem State.appliedSlot_within (s : State) (k : Fin 16) : Within [.ovl, .flg, .msix] s (s.appliedSlot k) :=
  (((State.modSlot_within s k _).mono (by decide)).step (State.modOvl_within _ _) (by decide)).step
    (State.ovlResult_within _ k 0 255 12) (by decide)

theorem State.appliedSlot_flag (s : State) (k : Fin 16) : ((s.appliedSlot k).flag 0x138).getLsbD 12 = true := by
  rw [State.appliedSlot, State.ovlResult_flag, BitVec.getLsbD_or, bit32_self (by decide), Bool.or_true]

/-- The state that the end of an application leaves. -/
def State.overlayEnds (s : State) (k : Fin 16) : State := (s.overlaid.appliedSlot k).releaseWrites

theorem exec_ovlApplyDone {s : State} {k : Fin 16} (hu : s.undef = false) (ha : s.ovl.applying = some k) :
    exec .ovlApplyDone s = .next (s.overlayEnds k) := by
  show execOvlApplyDone s = _
  rw [execOvlApplyDone, guarded_next hu]
  simp only [ha]
  rfl

theorem State.overlayEnds_ovl (s : State) (k : Fin 16) : (s.overlayEnds k).ovl =
    Overlay.told { s.ovl with slots := s.ovl.slots.set k { s.ovl.slots[k] with state := .applied }, applying := none, applyBytes := []
                              queue := s.ovl.queue.filter (fun x => decide (x ≠ k)), heldWrites := [] } k 0 255 := by
  rw [State.overlayEnds, State.releaseWrites_ovl, State.appliedSlot_ovl, s.overlaid_within.ovlEq]
  rfl

theorem State.overlayEnds_frame (s : State) (k : Fin 16) :
    Within [.clk, .pwr, .cfg, .eff, .flg, .tabs, .was, .clu, .wl, .pg, .lvl, .mon, .dram, .mem, .host, .msix, .plc, .freeN, .brg, .ovl]
      s (s.overlayEnds k) :=
  ((s.overlaid_within.mono (by decide)).step (State.appliedSlot_within _ k) (by decide)).step (State.releaseWrites_within _) (by decide)

theorem State.overlayEnds_wl (s : State) (k : Fin 16) : LanesStay s (s.overlayEnds k) :=
  s.overlaid_wl.trans (LanesStay.of_eq ((State.releaseWrites_wl _).trans (s.overlaid.appliedSlot_within k).wlEq))

theorem SlotsAged.overlayEnds (s : State) (k : Fin 16) : SlotsAged s (s.overlayEnds k) :=
  ((SlotsAged.overlaid s).trans (SlotsAged.of_within (State.appliedSlot_within _ k))).trans (SlotsAged.releaseWrites _)

theorem State.overlayEnds_flag (s : State) (k : Fin 16) : ((s.overlayEnds k).flag 0x138).getLsbD 12 = true := by
  rw [State.overlayEnds, State.releaseWrites_flags _ 0x138 (by decide) (by decide)]
  exact State.appliedSlot_flag _ k

/-- Where no write was held, the records' own work stands (R57, R60). -/
theorem State.overlayEnds_within {s : State} {k : Fin 16} (h : s.ovl.heldWrites = []) :
    Within [.ovl, .flg, .msix] s.overlaid (s.overlayEnds k) := by
  have hnone : (s.overlaid.appliedSlot k).ovl.heldWrites = [] := by
    rw [State.appliedSlot_ovl, s.overlaid_within.ovlEq]
    exact h
  rw [State.overlayEnds, State.releaseWrites_of_nil hnone]
  exact (State.appliedSlot_within _ k).step (Within.set_ovl _ _) (by decide)

/-- Settles O23: the frames of the loader's reads and of the records' stages, and staged copies that only go or grow older. -/
theorem overlayApplications : Obligations.OverlayApplications := by
  intro s k hu
  refine ⟨fun rest hq ha hm hr hl => ⟨ovlQuietPoint_begins hu hq ha hm hr hl, ovlQuietPoint_refuses hu hq ha hm hr hl⟩,
    fun rest hq h => ovlQuietPoint_waits hu hq h, fun ha => ⟨s.overlayEnds k, exec_ovlApplyDone hu ha, ?_⟩⟩
  have hovl := s.overlayEnds_ovl k
  have hself : (s.overlayEnds k).ovl.slots[k] = { s.ovl.slots[k] with state := .applied } := by
    rw [hovl]
    exact Vector.getElem_set_self k.isLt
  have hframe := s.overlayEnds_frame k
  refine ⟨?_, ?_, by rw [hovl]; rfl, by rw [hovl]; rfl, by rw [hovl]; rfl, by rw [hovl]; rfl, fun hnone => ?_, fun j hj => ?_,
    by rw [hovl]; rfl, by rw [hovl]; exact slot_ofNat_toNat k, s.overlayEnds_flag k, hframe.imgEq, hframe.pinEq, s.overlayEnds_wl k,
    (SlotsAged.overlayEnds s k).rest, (SlotsAged.overlayEnds s k).slots, hframe.partEq⟩
  · rw [hself]
  · rw [hself]
  · have hw := State.overlayEnds_within (k := k) hnone
    exact ⟨hw.tabsEq, hw.cfgEq, hw.effEq, hw.lvlEq, hw.plcEq, hw.cluEq (by decide)⟩
  · rw [hovl]
    exact slots_set_other s.ovl.slots _ hj

end Sys2Proof.Machine
end

