-- ==== Sys2Proof/Proofs/TuningPass.lean ====
section
/-! PROOF. The tuning pass and the end of a clear (R363, R364, R366; part of O52). -/
namespace Sys2Proof.Machine

/-- The requests of the test engine that wait at a tile. -/
def State.tuneAsks (s : State) (tile : Nat) : List Nat :=
  ((smGet (fun _ => ({} : Arb)) s.mem.arb tile).waiting.filter (fun x => decide (x.1 = 41))).map Prod.snd

theorem asks_filter (l : List (Fin 44 × Nat)) : (l.filter (fun x => decide (x.1 ≠ 41))).filter (fun x => decide (x.1 = 41)) = [] := by
  rw [List.filter_filter, List.filter_eq_nil_iff]
  simp

/-! ### Asking for an access -/

theorem State.modMem_mem (s : State) (f : Mem → Mem) : (s.modMem f).mem = f s.mem := rfl

theorem State.tuneAsks_modArb (s : State) (f : Arb → Arb) :
    (s.modMem (fun m => { m with arb := smMod (fun _ => ({} : Arb)) m.arb m.tuneTile.val f })).tuneAsks s.mem.tuneTile.val =
      ((f (smGet (fun _ => ({} : Arb)) s.mem.arb s.mem.tuneTile.val)).waiting.filter (fun x => decide (x.1 = 41))).map Prod.snd := by
  rw [State.tuneAsks, State.modMem_mem, smGet_mod_self]

theorem State.tuneAsk_mem (s : State) (t : Nat) : (s.tuneAsk t).mem = { s.mem with arb := (s.tuneAsk t).mem.arb } := by
  unfold State.tuneAsk
  split <;> rfl

theorem State.tuneAsk_asks {s : State} (t : Nat) (h : s.tuneLeft ≠ 0) : (s.tuneAsk t).tuneAsks s.mem.tuneTile.val = [t] := by
  rw [State.tuneAsk, if_neg h, State.tuneAsks_modArb, List.filter_append, asks_filter]
  rfl

theorem State.tuneUnask_asks (s : State) : s.tuneUnask.tuneAsks s.mem.tuneTile.val = [] := by
  rw [State.tuneUnask, State.tuneAsks_modArb, asks_filter]
  rfl

/-- The test engine begins a phase: what it asks for first. -/
theorem State.tuneTo_says (s : State) (p : TunePhase) (x : Option (Fin 96 × Fin 256)) (h : p.work ≠ 0) :
    (s.tuneTo p x).mem = { s.mem with tunePhase := p, tuneDone := 0, redirect := x, arb := (s.tuneTo p x).mem.arb } ∧
      (s.tuneTo p x).tuneAsks s.mem.tuneTile.val = [s.clk.now + 1] :=
  ⟨State.tuneAsk_mem _ _, State.tuneAsk_asks (s := s.modMem (fun m => { m with tunePhase := p, tuneDone := 0, redirect := x })) _ h⟩

/-! ### The accesses of a phase -/

/-- What the accesses of a phase leave: time moves on, conflicts count, and the spare, the tile's requests and the phase's progress change. -/
structure TuneSteps (s t : State) : Prop where
  arb : ArbSteps s t
  mem : t.mem = { s.mem with spare := t.mem.spare, tuneDone := t.mem.tuneDone, arb := t.mem.arb }

theorem TuneSteps.refl (s : State) : TuneSteps s s := ⟨ArbSteps.refl s, rfl⟩

theorem TuneSteps.trans {s t u : State} (h : TuneSteps s t) (k : TuneSteps t u) : TuneSteps s u :=
  ⟨h.arb.trans k.arb, by rw [k.mem, h.mem]⟩

theorem State.tuneGranted_mem (s : State) (tile t : Nat) : (s.tuneGranted tile t).mem =
    { s.mem with spare := (s.tuneGranted tile t).mem.spare, tuneDone := (s.tuneGranted tile t).mem.tuneDone
                 arb := (s.tuneGranted tile t).mem.arb } := by
  unfold State.tuneGranted
  split
  · rfl
  · dsimp only
    rw [State.tuneAsk_mem]
    rfl

theorem State.arbTick_mem (s : State) (tile t : Nat) : (s.arbTick tile t).1.mem =
    { s.mem with spare := (s.arbTick tile t).1.mem.spare, tuneDone := (s.arbTick tile t).1.mem.tuneDone
                 arb := (s.arbTick tile t).1.mem.arb } := by
  unfold State.arbTick
  dsimp only
  split
  · rfl
  · rename_i x c _
    dsimp only
    have hcounts := fun l : List Nat => foldl_keeps State.mem l (fun s m => s.count (memA (4 * m)) 1)
      (fun u m => (State.count_within u (memA (4 * m)) 1).memEq) (s.upto t)
    split
    · rw [State.tuneGranted_mem, State.modMem_mem, hcounts]
      rfl
    · rw [State.modMem_mem, hcounts]
      rfl

theorem State.arbTick_tuneSteps (s : State) (tile t : Nat) : TuneSteps s (s.arbTick tile t).1 :=
  ⟨s.arbTick_steps tile t, s.arbTick_mem tile t⟩

theorem State.tuneRun_steps (fuel : Nat) (s : State) : TuneSteps s (s.tuneRun fuel) := by
  induction fuel generalizing s with
  | zero => exact TuneSteps.refl s
  | succ fuel ih =>
    unfold State.tuneRun
    split
    · exact TuneSteps.refl s
    · split
      · exact TuneSteps.refl s
      · exact (s.arbTick_tuneSteps _ _).trans (ih _)

theorem State.tuneFinish_steps (s : State) : TuneSteps s s.tuneFinish := State.tuneRun_steps _ s

theorem State.tuneFinish_tile (s : State) : s.tuneFinish.mem.tuneTile = s.mem.tuneTile := by rw [s.tuneFinish_steps.mem]

/-- A row of a COPY goes to the spare (R363). -/
theorem tuneGranted_copies {s : State} (at_ : Nat) (hp : s.mem.tunePhase = .copy) (hd : s.mem.tuneDone < 64) :
    smGet (fun _ => (0 : BitVec 512)) (s.tuneGranted s.mem.tuneTile.val at_).mem.spare s.mem.tuneDone =
      s.slotBits (96 * (64 * s.mem.tuneBlock.val + s.mem.tuneDone) + s.mem.tuneTile.val) ∧
    (s.tuneGranted s.mem.tuneTile.val at_).mem.tuneDone = s.mem.tuneDone + 1 ∧
    (s.tuneGranted s.mem.tuneTile.val at_).mem.slots = s.mem.slots := by
  have hleft : s.tuneLeft ≠ 0 := by
    rw [State.tuneLeft, hp]
    show 64 - s.mem.tuneDone ≠ 0
    omega
  unfold State.tuneGranted
  rw [if_neg (fun h => h.elim (fun h => h rfl) hleft)]
  dsimp only
  rw [State.tuneAsk_mem]
  refine ⟨?_, rfl, rfl⟩
  show smGet _ (if s.mem.tunePhase = .copy then _ else _) _ = _
  rw [if_pos hp, smGet_put_self]
  rfl

/-! ### The commands -/

/-- TUNE_BLOCK_START acts. -/
def State.tuneStarts (s : State) : Prop :=
  s.tuneEn = true ∧ s.mem.tuneStopped = false ∧ s.mem.tunePhase = .idle ∧ s.mem.tuneNext ≤ s.clk.mgmtCount ∧ s.prepared 9 = false

theorem State.tuneStarts_iff (s : State) : (!s.tuneEn || s.mem.tuneStopped || decide (s.mem.tunePhase ≠ .idle) ||
    decide (s.clk.mgmtCount < s.mem.tuneNext) || s.prepared 9) = false ↔ s.tuneStarts := by
  simp only [Bool.or_eq_false_iff, Bool.not_eq_false', decide_eq_false_iff_not, Decidable.not_not, Nat.not_lt, State.tuneStarts, and_assoc]

theorem tuneBlockStart_asks {s : State} (hu : s.undef = false) (h : s.tuneStarts) : Gives .tuneBlockStart s (fun t =>
    t.mem = { s.mem with tunePhase := .copy, tuneDone := 0, arb := t.mem.arb } ∧ t.tuneAsks s.mem.tuneTile.val = [s.clk.now] ∧
      Within [.mem] s t) := by
  have hgo : ¬ (!s.tuneEn || s.mem.tuneStopped || decide (s.mem.tunePhase ≠ .idle) || decide (s.clk.mgmtCount < s.mem.tuneNext) ||
      s.prepared 9) = true := by
    rw [s.tuneStarts_iff.2 h]
    exact Bool.false_ne_true
  have hleft : TunePhase.copy.work - 0 ≠ 0 := by decide
  refine gives_framed hu (fun _ => execTuneBlockStart_within s) rfl (if_neg hgo) (fun hw => ⟨State.tuneAsk_mem _ _, ?_, hw⟩)
  exact State.tuneAsk_asks (s := s.modMem (fun m => { m with tunePhase := .copy, tuneDone := 0 })) _ hleft

theorem tuneBlockStart_waits {s : State} (hu : s.undef = false) (h : ¬ s.tuneStarts) : Gives .tuneBlockStart s (fun t => t = s) :=
  gives_branch hu rfl (if_pos (Bool.not_eq_false _ ▸ fun hf => h (s.tuneStarts_iff.1 hf))) rfl

/-- The phase's last accesses are granted, and the next phase begins. -/
theorem State.tuneNextPhase (s : State) (p : TunePhase) (h : p.work ≠ 0) :
    let t := s.tuneFinish.tuneTo p (some (s.mem.tuneTile, s.mem.tuneBlock))
    t.mem = { s.tuneFinish.mem with tunePhase := p, tuneDone := 0, redirect := some (s.mem.tuneTile, s.mem.tuneBlock), arb := t.mem.arb } ∧
      t.tuneAsks s.mem.tuneTile.val = [s.tuneFinish.clk.now + 1] ∧ Within [.clk, .ctr, .mem] s t := by
  obtain ⟨hmem, hasks⟩ := s.tuneFinish.tuneTo_says p (some (s.mem.tuneTile, s.mem.tuneBlock)) h
  rw [State.tuneFinish_tile] at hasks
  exact ⟨hmem, hasks, s.tuneFinish_within.step (State.tuneTo_within _ p _) (by decide)⟩

theorem tunePhaseDone_copy {s : State} (hu : s.undef = false) (passed : Bool) (h : s.mem.tunePhase = .copy) :
    Gives (.tunePhaseDone passed) s (fun t =>
      t.mem = { s.tuneFinish.mem with
        tunePhase := .test, tuneDone := 0, redirect := some (s.mem.tuneTile, s.mem.tuneBlock), arb := t.mem.arb } ∧
      t.tuneAsks s.mem.tuneTile.val = [s.tuneFinish.clk.now + 1] ∧ Within [.clk, .ctr, .mem] s t) := by
  refine ⟨_, ?_, s.tuneNextPhase .test (by decide)⟩
  show execTunePhaseDone passed s = _
  rw [execTunePhaseDone, guarded_next hu]
  simp only [h]

theorem tunePhaseDone_passed {s : State} (hu : s.undef = false) (h : s.mem.tunePhase = .test) :
    Gives (.tunePhaseDone true) s (fun t =>
      t.mem = { s.tuneFinish.mem with
        tunePhase := .restore, tuneDone := 0, redirect := some (s.mem.tuneTile, s.mem.tuneBlock), arb := t.mem.arb } ∧
      t.tuneAsks s.mem.tuneTile.val = [s.tuneFinish.clk.now + 1] ∧ Within [.clk, .ctr, .mem] s t) := by
  refine ⟨_, ?_, s.tuneNextPhase .restore (by decide)⟩
  show execTunePhaseDone true s = _
  rw [execTunePhaseDone, guarded_next hu]
  simp only [h, if_true]

/-- The failing block is on record before its flag and its report. -/
def State.tuneFailed (s : State) : State :=
  s.tuneUnask.modMem (fun m => { m with
    tunePhase := .idle, tuneDone := 0, tuneStopped := true, redirect := some (s.mem.tuneTile, s.mem.tuneBlock)
    failTile := BitVec.ofNat 7 s.mem.tuneTile.val, failBlock := BitVec.ofNat 8 s.mem.tuneBlock.val })

/-- The report of a failing block (R364). -/
def State.tuneFault (s : State) : FaultRec :=
  { cls := 10, cause := 1, source := BitVec.ofNat 8 s.mem.tuneTile.val, aux := BitVec.ofNat 16 s.mem.tuneBlock.val
    time := BitVec.ofNat 64 s.tuneFailed.tb }

theorem State.tuneFail_eq (s : State) : s.tuneFail = (s.tuneFailed.setBit (memA 0x308) 1).report s.tuneFault := rfl

theorem State.tuneFail_mem (s : State) : s.tuneFail.mem = s.tuneFailed.mem := by
  rw [State.tuneFail_eq, (State.report_within _ _).memEq, (State.setBit_within _ _ _).memEq]

theorem State.tuneFailed_mem (s : State) : s.tuneFailed.mem = { s.mem with
    tunePhase := .idle, tuneDone := 0, tuneStopped := true, redirect := some (s.mem.tuneTile, s.mem.tuneBlock)
    arb := s.tuneFailed.mem.arb, failTile := BitVec.ofNat 7 s.mem.tuneTile.val, failBlock := BitVec.ofNat 8 s.mem.tuneBlock.val } := rfl

theorem tunePhaseDone_failed {s : State} (hu : s.undef = false) (h : s.mem.tunePhase = .test) :
    Gives (.tunePhaseDone false) s (fun t => t.mem = { s.mem with
        tunePhase := .idle, tuneDone := 0, tuneStopped := true, redirect := some (s.mem.tuneTile, s.mem.tuneBlock), arb := t.mem.arb
        failTile := BitVec.ofNat 7 s.mem.tuneTile.val, failBlock := BitVec.ofNat 8 s.mem.tuneBlock.val } ∧
      t.tuneAsks s.mem.tuneTile.val = [] ∧ (t.flag (memA 0x308)).getLsbD 1 = true ∧ t.flt.seq = s.flt.seq + 1 ∧
      Within [.flg, .ctr, .mem, .msix, .flt] s t) := by
  refine ⟨s.tuneFail, ?_, ?_, ?_, ?_, ?_, State.tuneFail_within s⟩
  · show execTunePhaseDone false s = _
    rw [execTunePhaseDone, guarded_next hu]
    simp only [h, Bool.false_eq_true, if_false]
  · rw [State.tuneFail_mem]
    exact s.tuneFailed_mem
  · rw [State.tuneAsks, State.tuneFail_mem]
    exact s.tuneUnask_asks
  · rw [State.tuneFail_eq, State.report_flags _ _ (memA 0x308) (by decide) (by decide)]
    exact State.flagBit_setBit _ (by decide) (by decide)
  · rw [State.tuneFail_eq, State.report_seq, (State.setBit_within _ _ _).fltEq]
    rfl

/-- The block that RESTORE has ended, and the one that the engine visits next. -/
def State.tuneMoved (s : State) : State :=
  s.modMem (fun m => { m with
    tunePhase := .idle, tuneDone := 0, tuneTile := m.tuneTile + 1
    tuneBlock := if s.mem.tuneTile.val = 95 then m.tuneBlock + 1 else m.tuneBlock, tuneNext := s.clk.mgmtCount + s.tuneGap })

theorem State.tuneNextBlock_eq (s : State) : s.tuneNextBlock =
    if s.mem.tuneTile.val = 95 ∧ s.mem.tuneBlock = 255 then (s.tuneMoved.count (memA 0x310) 1).setBit (memA 0x308) 0 else s.tuneMoved := by
  simp only [State.tuneNextBlock, State.tuneMoved, Bool.and_eq_true, decide_eq_true_eq]

theorem State.tuneNextBlock_mem (s : State) : s.tuneNextBlock.mem = s.tuneMoved.mem := by
  rw [State.tuneNextBlock_eq]
  split
  · rw [(State.setBit_within _ _ _).memEq, (State.count_within _ _ _).memEq]
  · rfl

/-- The block's last accesses are granted and its redirection ends. -/
def State.tuneRestored (s : State) : State := s.tuneFinish.modMem (fun m => { m with redirect := none })

theorem State.tuneRestored_within (s : State) : Within [.clk, .ctr, .mem] s s.tuneRestored :=
  s.tuneFinish_within.step (Within.set_mem _ _ rfl) (by decide)

theorem State.tuneRestored_mem (s : State) : s.tuneRestored.mem = { s.tuneFinish.mem with redirect := none } := rfl

theorem State.tuneRestored_tile (s : State) : s.tuneRestored.mem.tuneTile = s.mem.tuneTile := s.tuneFinish_tile

theorem State.tuneRestored_block (s : State) : s.tuneRestored.mem.tuneBlock = s.mem.tuneBlock := by
  rw [State.tuneRestored_mem, s.tuneFinish_steps.mem]

theorem State.tuneRestored_mgmtCount (s : State) : s.tuneRestored.clk.mgmtCount = s.clk.mgmtCount :=
  (congrArg Clock.mgmtCount s.tuneFinish_steps.arb.clk :)

theorem State.tuneRestored_gap (s : State) : s.tuneRestored.tuneGap = s.tuneGap := by
  rw [State.tuneGap, State.tuneGap, State.effF, State.effF, State.effW_congr s.tuneRestored_within.effEq]

theorem State.tuneRestored_counter (s : State) : s.tuneRestored.counter (memA 0x310) = s.counter (memA 0x310) :=
  s.tuneFinish_steps.arb.ctrs _ (by decide)

theorem tunePhaseDone_restore {s : State} (hu : s.undef = false) (passed : Bool) (h : s.mem.tunePhase = .restore) :
    Gives (.tunePhaseDone passed) s (fun t => t.mem = { s.tuneFinish.mem with
        redirect := none, tunePhase := .idle, tuneDone := 0, tuneTile := s.mem.tuneTile + 1
        tuneBlock := if s.mem.tuneTile.val = 95 then s.mem.tuneBlock + 1 else s.mem.tuneBlock
        tuneNext := s.clk.mgmtCount + s.tuneGap } ∧
      (s.mem.tuneTile.val = 95 → s.mem.tuneBlock = 255 → (t.flag (memA 0x308)).getLsbD 0 = true ∧
        t.counter (memA 0x310) = min (s.counter (memA 0x310) + 1) top32) ∧
      (s.mem.tuneTile.val ≠ 95 ∨ s.mem.tuneBlock ≠ 255 → Within [.clk, .ctr, .mem] s t) ∧
      Within [.clk, .flg, .ctr, .mem, .msix] s t) := by
  have hmoved : Within [.clk, .ctr, .mem] s s.tuneRestored.tuneMoved := s.tuneRestored_within.step (Within.set_mem _ _ rfl) (by decide)
  refine ⟨s.tuneRestored.tuneNextBlock, ?_, ?_, fun ht hb => ?_, fun hn => ?_,
    (s.tuneRestored_within.mono (by decide)).step (State.tuneNextBlock_within _) (by decide)⟩
  · show execTunePhaseDone passed s = _
    rw [execTunePhaseDone, guarded_next hu]
    simp only [h]
    rfl
  · rw [State.tuneNextBlock_mem, State.tuneMoved, State.modMem_mem]
    simp only [s.tuneRestored_tile, s.tuneRestored_block, s.tuneRestored_mgmtCount, s.tuneRestored_gap]
    rfl
  · rw [State.tuneNextBlock_eq, if_pos ⟨by rw [s.tuneRestored_tile, ht], by rw [s.tuneRestored_block, hb]⟩]
    refine ⟨State.flagBit_setBit _ (by decide) (by decide), ?_⟩
    rw [counter_of_ctr_eq (State.setBit_within _ _ _).ctrEq, counter_count_self _ _ _ (by decide)]
    show min (s.tuneRestored.counter (memA 0x310) + 1) top32 = _
    rw [s.tuneRestored_counter]
  · rw [State.tuneNextBlock_eq, if_neg (fun hb => hn.elim (fun h => h (s.tuneRestored_tile ▸ hb.1)) (fun h => h (s.tuneRestored_block ▸ hb.2)))]
    exact hmoved

theorem memoryClearDone_ends {s : State} (hu : s.undef = false) (k : ClearKind) : Gives (.memoryClearDone k) s (fun t =>
    t.mem = { s.mem with clearing := s.mem.clearing &&& ~~~(clearBit k) } ∧ Within [.mem] s t) :=
  gives_framed hu (fun _ => execMemoryClearDone_within k s) rfl rfl (fun hw => ⟨rfl, hw⟩)

end Sys2Proof.Machine
end

