-- ==== Sys2Proof/Proofs/ExchangeHost.lean ====
section
/-! PROOF. The exchange RAM as the host's port reads and writes it (R366 to R368; part of O52). -/
namespace Sys2Proof.Machine

/-! ### Folds in which one element alone touches a part of the state -/

theorem foldl_stays {ι α : Type} (inv : State → Prop) (get : State → α) (f : State → ι → State) (hinv : ∀ u y, inv u → inv (f u y)) :
    ∀ (l : List ι) (s : State), (∀ y ∈ l, ∀ u, inv u → get (f u y) = get u) → inv s → get (l.foldl f s) = get s := by
  intro l
  induction l with
  | nil => exact fun _ _ _ => rfl
  | cons y r ih =>
    intro s h hs
    exact (ih (f s y) (fun z hz => h z (List.mem_cons_of_mem _ hz)) (hinv s y hs)).trans (h y List.mem_cons_self s hs)

theorem foldl_inv {ι : Type} (inv : State → Prop) (f : State → ι → State) (hinv : ∀ u y, inv u → inv (f u y)) :
    ∀ (l : List ι) (s : State), inv s → inv (l.foldl f s)
  | [], _, h => h
  | y :: r, s, h => foldl_inv inv f hinv r (f s y) (hinv s y h)

/-- A part of the state that one element of a list alone touches is what the step of that element makes of it. -/
theorem foldl_among {ι α : Type} (inv : State → Prop) (get : State → α) (f : State → ι → State) (hinv : ∀ u y, inv u → inv (f u y))
    (Q : α → Prop) {x : ι} {l : List ι} {s : State} (hn : l.Nodup) (hx : x ∈ l)
    (hother : ∀ y ∈ l, y ≠ x → ∀ u, inv u → get (f u y) = get u) (hs : inv s) (h : ∀ u, inv u → get u = get s → Q (get (f u x))) :
    Q (get (l.foldl f s)) := by
  obtain ⟨before, after, rfl⟩ := List.append_of_mem hx
  obtain ⟨_, hafter, hapart⟩ := List.nodup_append.1 hn
  have hb : ∀ y ∈ before, y ≠ x := fun y hy => hapart y hy x List.mem_cons_self
  have ha : ∀ y ∈ after, y ≠ x := fun y hy e => (List.nodup_cons.1 hafter).1 (e ▸ hy)
  rw [List.foldl_append, List.foldl_cons]
  have hreach := foldl_inv inv f hinv before s hs
  rw [foldl_stays inv get f hinv after _ (fun y hy => hother y (by simp [hy]) (ha y hy)) (hinv _ _ hreach)]
  exact h _ hreach (foldl_stays inv get f hinv before s (fun y hy => hother y (by simp [hy]) (hb y hy)) hs)

/-! ### Words of the exchange RAM -/

/-- A byte of the exchange RAM. -/
def State.xramByte (s : State) (a : Nat) : Byte := smGet xramDefault s.mem.xram a

theorem smGet_putBytes_keep (d : Nat → Byte) (l : List (Option Byte)) :
    ∀ (m : List Host.Cell) (a i : Nat), l[i]? = some none → smGet d (putBytes d m a l) (a + i) = smGet d m (a + i) := by
  induction l with
  | nil => exact fun _ _ _ h => absurd h (by simp)
  | cons x r ih =>
    intro m a i h
    cases i with
    | zero =>
      obtain rfl : x = none := Option.some.inj h
      exact smGet_putBytes_other d r m (a + 1) a (.inl (Nat.lt_succ_self a))
    | succ i =>
      have hr : r[i]? = some none := h
      have hplace : a + (i + 1) = a + 1 + i := by omega
      cases x with
      | none =>
        rw [hplace]
        exact ih m (a + 1) i hr
      | some b =>
        rw [hplace]
        exact (ih (smPut d m a b) (a + 1) i hr).trans (smGet_put_other d m b (by omega))

theorem State.xramWrite_byte (s : State) (w : Nat) (be : BitVec 4) (v : Word) (i : Fin 4) :
    (s.xramWrite w be v).xramByte (4 * w + i.val) =
      if be.getLsbD i.val then BitVec.ofNat 8 (v.toNat >>> (8 * i.val)) else s.xramByte (4 * w + i.val) := by
  have hentry : (enabledBytes be v)[i.val]? = some (if be.getLsbD i.val then some (BitVec.ofNat 8 (v.toNat >>> (8 * i.val))) else none) := by
    rw [enabledBytes, List.getElem?_map, List.getElem?_range i.isLt]
    rfl
  by_cases hb : be.getLsbD i.val = true
  · rw [if_pos hb] at hentry ⊢
    exact smGet_putBytes xramDefault _ s.mem.xram (4 * w) i.val _ hentry
  · rw [if_neg hb] at hentry ⊢
    exact smGet_putBytes_keep xramDefault _ s.mem.xram (4 * w) i.val hentry

theorem State.xramWrite_byte_other (s : State) (w : Nat) (be : BitVec 4) (v : Word) {a : Nat} (h : a < 4 * w ∨ 4 * w + 4 ≤ a) :
    (s.xramWrite w be v).xramByte a = s.xramByte a :=
  smGet_putBytes_other xramDefault (enabledBytes be v) s.mem.xram (4 * w) a h

theorem State.xramWord_congr {s t : State} (h : t.mem.xram = s.mem.xram) (w : Nat) : t.xramWord w = s.xramWord w := by
  rw [State.xramWord, h, State.xramWord]

theorem State.xramByte_congr {s t : State} (h : t.mem.xram = s.mem.xram) (a : Nat) : t.xramByte a = s.xramByte a := by
  rw [State.xramByte, h, State.xramByte]

/-! ### Collisions -/

/-- What tells of collisions: the latest address, the count and the flag (R368). -/
structure Collisions where
  addr : BitVec 18
  count : Nat
  flag : Word

def State.collisions (s : State) : Collisions := ⟨s.mem.collideAddr, s.counter (memA 0x404), s.flag (memA 0x408)⟩

/-- They after one more collision, at a word. -/
def Collisions.met (c : Collisions) (w : Nat) : Collisions := ⟨BitVec.ofNat 18 w, min (c.count + 1) top32, c.flag ||| bit32 0⟩

theorem State.collisions_of_within {l : List Field} {s t : State} (h : Within l s t) (ha : t.mem.collideAddr = s.mem.collideAddr)
    (hc : Field.ctr ∉ l := by decide) (hf : Field.flg ∉ l := by decide) : t.collisions = s.collisions := by
  rw [State.collisions, ha, h.counterEq (memA 0x404) hc, h.flagEq (memA 0x408) hf, State.collisions]

theorem State.xramCollide_collisions (s : State) (w cycle : Nat) : (s.xramCollide w cycle).collisions = s.collisions.met w := by
  have hcount : (s.xramCollide w cycle).counter (memA 0x404) = min (s.counter (memA 0x404) + 1) top32 := by
    rw [← counter_count_self s (memA 0x404) 1 (by decide), ← (State.setBit_within (s.count (memA 0x404) 1) (memA 0x408) 0).counterEq (memA 0x404)]
    rfl
  have hflag : (s.xramCollide w cycle).flag (memA 0x408) = s.flag (memA 0x408) ||| bit32 0 :=
    State.flag_setBit_self (s.count (memA 0x404) 1) 0 (by decide)
  rw [State.collisions, hcount, hflag]
  rfl

theorem State.xramCollide_mem (s : State) (w cycle : Nat) : (s.xramCollide w cycle).mem =
    { s.mem with collideAddr := BitVec.ofNat 18 w, lbRuns := (s.xramCollide w cycle).mem.lbRuns } := by
  have hmem : ((s.count (memA 0x404) 1).setBit (memA 0x408) 0).mem = s.mem := by
    rw [(State.setBit_within _ _ _).memEq, (State.count_within _ _ _).memEq]
  rw [State.xramCollide, State.modRun, State.modMem_mem, State.modMem_mem, hmem]

/-- The slot meets the one that the local bus has taken. -/
def State.meets (s : State) (x : XramSlot) : Bool := collides (some x) s.mem.lbSlot

/-- The collision of a host slot, where it is one. -/
def State.collideIf (s : State) (x : XramSlot) : State := if s.meets x then s.xramCollide x.word x.tick else s

theorem State.collideIf_collisions (s : State) (x : XramSlot) :
    (s.collideIf x).collisions = if s.meets x then s.collisions.met x.word else s.collisions := by
  unfold State.collideIf
  split
  · exact s.xramCollide_collisions x.word x.tick
  · rfl

theorem State.collideIf_mem (s : State) (x : XramSlot) : (s.collideIf x).mem =
    { s.mem with collideAddr := (s.collideIf x).mem.collideAddr, lbRuns := (s.collideIf x).mem.lbRuns } := by
  unfold State.collideIf
  split
  · rw [State.xramCollide_mem]
  · rfl

theorem State.collideIf_freeN (s : State) (x : XramSlot) : (s.collideIf x).freeN = s.freeN := by
  unfold State.collideIf
  split
  · exact (State.xramCollide_within s _ _).freeNEq
  · rfl

/-! ### A word of a host write -/

theorem State.collided_mem (s : State) : s.collided.2.mem = s.mem := rfl

/-- What the local bus's own slot of the cycle does after the host's word (R368). -/
def State.lbFollows (s : State) (x : XramSlot) (l : XramSlot) : State :=
  if l.write then s.xramWrite l.word l.be l.data
  else s.collided.2.modRun x.tick (fun r => { r with data := some s.collided.1 })

/-- The host's own write of a word, with its collision. -/
def State.hostPut (s : State) (x : XramSlot) : State := (s.collideIf x).xramWrite x.word x.be x.data

theorem State.hostPut_mem (s : State) (x : XramSlot) : (s.hostPut x).mem =
    { s.mem with xram := (s.hostPut x).mem.xram, collideAddr := (s.hostPut x).mem.collideAddr, lbRuns := (s.hostPut x).mem.lbRuns } := by
  rw [State.hostPut, State.xramWrite, State.modMem_mem, State.collideIf_mem]

theorem State.hostPut_collisions (s : State) (x : XramSlot) : (s.hostPut x).collisions = (s.collideIf x).collisions :=
  State.collisions_of_within (State.xramWrite_within _ _ _ _) rfl

theorem State.hostPut_byte_other (s : State) (x : XramSlot) {a : Nat} (h : a < 4 * x.word ∨ 4 * x.word + 4 ≤ a) :
    (s.hostPut x).xramByte a = s.xramByte a := by
  rw [State.hostPut, State.xramWrite_byte_other _ _ _ _ h]
  exact State.xramByte_congr (by rw [State.collideIf_mem]) a

theorem State.hostPut_lbSlot (s : State) (x : XramSlot) : (s.hostPut x).mem.lbSlot = s.mem.lbSlot := by rw [State.hostPut_mem]

theorem State.hostWord_eq (s : State) (x : XramSlot) : s.hostWord x =
    match (s.hostPut x).mem.lbSlot, s.meets x with
    | some l, true => (s.hostPut x).lbFollows x l
    | _, _ => s.hostPut x := rfl

theorem State.hostWord_alone {s : State} {x : XramSlot} (h : s.meets x = false) : s.hostWord x = s.hostPut x := by
  rw [State.hostWord_eq, h]
  cases (s.hostPut x).mem.lbSlot with
  | none => rfl
  | some l => rfl

/-- A slot that is met lies in the cycle of the local bus's own, at its word. -/
theorem State.meets_some {s : State} {x : XramSlot} (h : s.meets x = true) :
    ∃ l, s.mem.lbSlot = some l ∧ x.tick = l.tick ∧ x.word = l.word := by
  cases hl : s.mem.lbSlot with
  | none =>
    rw [State.meets, hl] at h
    exact absurd h Bool.false_ne_true
  | some l =>
    rw [State.meets, hl] at h
    obtain ⟨htick, hword⟩ := of_decide_eq_true (Bool.and_eq_true_iff.1 h).1
    exact ⟨l, rfl, htick, hword⟩

theorem State.hostWord_met {s : State} {x : XramSlot} (h : s.meets x = true) :
    ∃ l, l.word = x.word ∧ s.hostWord x = (s.hostPut x).lbFollows x l := by
  obtain ⟨l, hl, _, hword⟩ := State.meets_some h
  refine ⟨l, hword.symm, ?_⟩
  rw [State.hostWord_eq, State.hostPut_lbSlot, hl, h]

theorem State.lbFollows_mem (s : State) (x l : XramSlot) : (s.lbFollows x l).mem =
    { s.mem with xram := (s.lbFollows x l).mem.xram, lbRuns := (s.lbFollows x l).mem.lbRuns } := by
  unfold State.lbFollows
  split <;> rfl

theorem State.lbFollows_collisions (s : State) (x l : XramSlot) : (s.lbFollows x l).collisions = s.collisions := by
  unfold State.lbFollows
  split <;> rfl

theorem State.lbFollows_byte_other (s : State) (x l : XramSlot) {a : Nat} (h : a < 4 * l.word ∨ 4 * l.word + 4 ≤ a) :
    (s.lbFollows x l).xramByte a = s.xramByte a := by
  unfold State.lbFollows
  split
  · exact State.xramWrite_byte_other _ _ _ _ h
  · rfl

/-- What a word of a host write leaves of the memory's own record. -/
theorem State.hostWord_mem (s : State) (x : XramSlot) : (s.hostWord x).mem =
    { s.mem with xram := (s.hostWord x).mem.xram, collideAddr := (s.hostWord x).mem.collideAddr, lbRuns := (s.hostWord x).mem.lbRuns } := by
  cases h : s.meets x with
  | false =>
    rw [State.hostWord_alone h]
    exact s.hostPut_mem x
  | true =>
    obtain ⟨l, _, he⟩ := State.hostWord_met h
    rw [he, State.lbFollows_mem, State.hostPut_mem]

theorem State.hostWord_collisions (s : State) (x : XramSlot) :
    (s.hostWord x).collisions = if s.meets x then s.collisions.met x.word else s.collisions := by
  rw [← State.collideIf_collisions, ← State.hostPut_collisions]
  cases h : s.meets x with
  | false => rw [State.hostWord_alone h]
  | true =>
    obtain ⟨l, _, he⟩ := State.hostWord_met h
    rw [he, State.lbFollows_collisions]

theorem State.hostWord_byte_other (s : State) (x : XramSlot) {a : Nat} (h : a < 4 * x.word ∨ 4 * x.word + 4 ≤ a) :
    (s.hostWord x).xramByte a = s.xramByte a := by
  cases hm : s.meets x with
  | false =>
    rw [State.hostWord_alone hm]
    exact s.hostPut_byte_other x h
  | true =>
    obtain ⟨l, hl, he⟩ := State.hostWord_met hm
    rw [he, State.lbFollows_byte_other _ x l (by rw [hl]; exact h)]
    exact s.hostPut_byte_other x h

theorem State.hostWord_byte {s : State} {x : XramSlot} (h : s.meets x = false) (i : Fin 4) :
    (s.hostWord x).xramByte (4 * x.word + i.val) =
      if x.be.getLsbD i.val then BitVec.ofNat 8 (x.data.toNat >>> (8 * i.val)) else s.xramByte (4 * x.word + i.val) := by
  rw [State.hostWord_alone h, State.hostPut, State.xramWrite_byte, State.collideIf, h]
  rfl

theorem State.hostWord_within_alone {s : State} {x : XramSlot} (h : s.meets x = false) : Within [.mem, .xram] s (s.hostWord x) := by
  rw [State.hostWord_alone h, State.hostPut, State.collideIf, h]
  exact State.xramWrite_within s _ _ _

/-! ### A word of a host read -/

/-- The word that a host read takes in its slot. -/
def State.hostGets (s : State) (x : XramSlot) : Word := if s.meets x then Config.collidedWord s.freeN else s.xramWord x.word

theorem State.hostFetch_word (s : State) (x : XramSlot) : (s.hostFetch x).1 = s.hostGets x := by
  show ((s.collideIf x).slotRead x.word (s.meets x)).1 = _
  unfold State.slotRead State.hostGets
  split
  · exact congrArg Config.collidedWord (s.collideIf_freeN x)
  · exact State.xramWord_congr (by rw [State.collideIf_mem]) x.word

theorem State.slotRead_mem (s : State) (w : Nat) (clash : Bool) : (s.slotRead w clash).2.mem = s.mem := by
  unfold State.slotRead
  split <;> rfl

theorem State.hostFetch_mem (s : State) (x : XramSlot) : (s.hostFetch x).2.mem = (s.collideIf x).mem := State.slotRead_mem _ _ _

theorem State.hostFetch_collisions (s : State) (x : XramSlot) :
    (s.hostFetch x).2.collisions = if s.meets x then s.collisions.met x.word else s.collisions := by
  rw [← State.collideIf_collisions]
  exact State.collisions_of_within (State.slotRead_within _ _ _) (by rw [State.hostFetch_mem])

theorem State.hostFetch_freeN {s : State} {x : XramSlot} (h : s.meets x = false) : (s.hostFetch x).2.freeN = s.freeN := by
  show ((s.collideIf x).slotRead x.word (s.meets x)).2.freeN = _
  rw [h, State.slotRead, if_neg Bool.false_ne_true]
  exact s.collideIf_freeN x

/-! ### The words of an access, one per cycle -/

/-- One word of a write, in its cycle. -/
def State.hostWrites (s : State) (x : XramSlot) : State :=
  ((s.upto x.tick).hostWord x).modMem (fun m => { m with hostSlots := m.hostSlots ++ [x] })

/-- One word of a read, in its cycle. -/
def State.hostReads (s : State) (x : XramSlot) : State :=
  ((s.upto x.tick).hostFetch x).2.modMem (fun m => { m with
    hostSlots := m.hostSlots ++ [x], bar2Data := m.bar2Data ++ [((s.upto x.tick).hostFetch x).1] })

/-- One word of an access, in its cycle. -/
def State.hostTakes (write : Bool) (s : State) (x : XramSlot) : State := if write then s.hostWrites x else s.hostReads x

/-- The slots of an access from a cycle on. -/
def slotsFrom (write : Bool) (c : Nat) (addr : BitVec 18) : List (BitVec 4 × Word) → List XramSlot
  | [] => []
  | w :: ws => { tick := c, word := addr.toNat, write := write, be := w.1, data := w.2 } :: slotsFrom write (c + 1) (addr + 1) ws

theorem State.hostTakes_slots (write : Bool) (s : State) (x : XramSlot) :
    (s.hostTakes write x).mem.hostSlots = s.mem.hostSlots ++ [x] := by
  unfold State.hostTakes
  split
  · rw [State.hostWrites, State.modMem_mem, State.hostWord_mem]
    rfl
  · rw [State.hostReads, State.modMem_mem, State.hostFetch_mem, State.collideIf_mem]
    rfl

theorem State.hostTakes_now (write : Bool) (s : State) (x : XramSlot) : (s.hostTakes write x).clk.now = max s.clk.now x.tick := by
  unfold State.hostTakes
  split
  · show ((s.upto x.tick).hostWord x).clk.now = _
    rw [(State.hostWord_within _ x).clkEq]
    rfl
  · show ((s.upto x.tick).hostFetch x).2.clk.now = _
    rw [(State.hostFetch_within _ x).clkEq]
    rfl

theorem State.hostWords_eq (write : Bool) : ∀ (ws : List (BitVec 4 × Word)) (s : State) (t c : Nat) (addr : BitVec 18), s.hostCycle t = c →
    s.clk.now ≤ c → s.hostWords t write addr ws = (slotsFrom write c addr ws).foldl (State.hostTakes write) s
  | [], _, _, _, _, _, _ => rfl
  | w :: ws, s, t, c, addr, hc, hnow => by
    let x : XramSlot := { tick := c, word := addr.toNat, write := write, be := w.1, data := w.2 }
    have hstep : s.hostWords t write addr (w :: ws) = (s.hostTakes write x).hostWords (c + 1) write (addr + 1) ws := by
      rw [State.hostWords, hc]
      cases write <;> rfl
    have hnext : (s.hostTakes write x).clk.now = c := (s.hostTakes_now write x).trans (Nat.max_eq_right hnow)
    rw [hstep, slotsFrom, List.foldl_cons]
    refine State.hostWords_eq write ws _ _ _ _ ?_ (by rw [hnext]; exact Nat.le_succ c)
    have hlast : (s.hostTakes write x).mem.hostSlots.getLast? = some x := by rw [State.hostTakes_slots, List.getLast?_concat]
    rw [State.hostCycle, hlast, hnext]
    show max (max c (c + 1)) (c + 1) = c + 1
    omega

/-- The slot of word `i` of an access. -/
def accessSlot (write : Bool) (c : Nat) (addr : BitVec 18) (f : Nat → BitVec 4 × Word) (i : Nat) : XramSlot :=
  { tick := c + i, word := (addr + BitVec.ofNat 18 i).toNat, write := write, be := (f i).1, data := (f i).2 }

theorem slotsFrom_range (write : Bool) : ∀ (n c : Nat) (addr : BitVec 18) (f : Nat → BitVec 4 × Word),
    slotsFrom write c addr ((List.range n).map f) = (List.range n).map (accessSlot write c addr f)
  | 0, _, _, _ => rfl
  | n + 1, c, addr, f => by
    rw [List.range_succ_eq_map, List.map_cons, List.map_map, slotsFrom, slotsFrom_range write n (c + 1) (addr + 1) (f ∘ Nat.succ),
      List.map_cons, List.map_map]
    refine congrArg₂ List.cons ?_ (List.map_congr_left fun i _ => ?_)
    · simp [accessSlot]
    · have hword : addr + 1 + BitVec.ofNat 18 i = addr + BitVec.ofNat 18 (i + 1) := by
        rw [BitVec.add_assoc, BitVec.ofNat_add, BitVec.add_comm 1]
        rfl
      simp only [accessSlot, Function.comp, Nat.succ_eq_add_one, hword, Nat.add_assoc, Nat.add_comm 1 i]

/-! ### What an access leaves -/

theorem State.meets_congr {s t : State} (h : t.mem.lbSlot = s.mem.lbSlot) (x : XramSlot) : t.meets x = s.meets x := by
  rw [State.meets, h, State.meets]

theorem State.hostTakes_lbSlot (write : Bool) (s : State) (x : XramSlot) : (s.hostTakes write x).mem.lbSlot = s.mem.lbSlot := by
  unfold State.hostTakes
  split
  · rw [State.hostWrites, State.modMem_mem, State.hostWord_mem]
    rfl
  · rw [State.hostReads, State.modMem_mem, State.hostFetch_mem, State.collideIf_mem]
    rfl

theorem State.hostTakes_collisions (write : Bool) (s : State) (x : XramSlot) :
    (s.hostTakes write x).collisions = if s.meets x then s.collisions.met x.word else s.collisions := by
  unfold State.hostTakes
  split
  · exact (s.upto x.tick).hostWord_collisions x
  · exact (s.upto x.tick).hostFetch_collisions x

theorem State.hostWrites_mem (s : State) (x : XramSlot) : (s.hostWrites x).mem =
    { s.mem with xram := (s.hostWrites x).mem.xram, collideAddr := (s.hostWrites x).mem.collideAddr, lbRuns := (s.hostWrites x).mem.lbRuns
                 hostSlots := (s.hostWrites x).mem.hostSlots } := by
  rw [State.hostWrites, State.modMem_mem, State.hostWord_mem]
  rfl

theorem State.hostReads_mem (s : State) (x : XramSlot) : (s.hostReads x).mem =
    { s.mem with collideAddr := (s.hostReads x).mem.collideAddr, lbRuns := (s.hostReads x).mem.lbRuns
                 hostSlots := (s.hostReads x).mem.hostSlots, bar2Data := s.mem.bar2Data ++ [s.hostGets x] } := by
  rw [State.hostReads, State.modMem_mem, State.hostFetch_mem, State.hostFetch_word, State.collideIf_mem]
  rfl

theorem State.hostReads_freeN {s : State} {x : XramSlot} (h : s.meets x = false) : (s.hostReads x).freeN = s.freeN :=
  State.hostFetch_freeN (s := s.upto x.tick) h

theorem hostSlots_foldl (write : Bool) (l : List XramSlot) (s : State) :
    (l.foldl (State.hostTakes write) s).mem.hostSlots = s.mem.hostSlots ++ l := by
  induction l generalizing s with
  | nil => exact (List.append_nil _).symm
  | cons x r ih => rw [List.foldl_cons, ih, State.hostTakes_slots, List.append_assoc, List.singleton_append]

/-- The latest collision is that of the one slot that meets the local bus's. -/
theorem collisions_foldl (write : Bool) {l : List XramSlot} {s : State} {x : XramSlot} (hn : (l.map XramSlot.tick).Nodup) (hx : x ∈ l)
    (h : s.meets x = true) : (l.foldl (State.hostTakes write) s).collisions = s.collisions.met x.word := by
  obtain ⟨b, hb, htick, _⟩ := State.meets_some h
  refine foldl_among (fun u => u.mem.lbSlot = s.mem.lbSlot) State.collisions (State.hostTakes write)
    (fun u y hu => (u.hostTakes_lbSlot write y).trans hu) (fun c => c = s.collisions.met x.word) (List.Nodup.of_map _ hn) hx
    (fun y hy hne u hu => ?_) rfl (fun u hu hc => ?_)
  · have hapart : u.meets y = false := by
      rw [Bool.eq_false_iff]
      intro hm
      obtain ⟨b', hb', htick', _⟩ := State.meets_some hm
      have hsame : b' = b := by
        rw [hu, hb] at hb'
        exact (Option.some.inj hb').symm
      exact hne (List.inj_on_of_nodup_map hn hy hx (by rw [htick', htick, hsame]))
    rw [State.hostTakes_collisions, hapart]
    rfl
  · rw [State.hostTakes_collisions, State.meets_congr hu, h, hc]
    rfl

/-- The words of a write change no byte outside them. -/
theorem byte_foldl_other {l : List XramSlot} {s : State} {a : Nat} (h : ∀ x ∈ l, a < 4 * x.word ∨ 4 * x.word + 4 ≤ a) :
    (l.foldl (State.hostTakes true) s).xramByte a = s.xramByte a :=
  foldl_stays (fun _ => True) (fun u => u.xramByte a) (State.hostTakes true) (fun _ _ h => h) l s
    (fun x hx u _ => (u.upto x.tick).hostWord_byte_other x (h x hx)) trivial

/-- A write that meets nothing leaves in each of its words the bytes that it enables. -/
theorem byte_foldl_word {l : List XramSlot} {s : State} {x : XramSlot} (hn : (l.map XramSlot.word).Nodup) (hx : x ∈ l)
    (h : ∀ y ∈ l, s.meets y = false) (i : Fin 4) : (l.foldl (State.hostTakes true) s).xramByte (4 * x.word + i.val) =
      if x.be.getLsbD i.val then BitVec.ofNat 8 (x.data.toNat >>> (8 * i.val)) else s.xramByte (4 * x.word + i.val) := by
  refine foldl_among (fun u => u.mem.lbSlot = s.mem.lbSlot) (fun u => u.xramByte (4 * x.word + i.val)) (State.hostTakes true)
    (fun u y hu => (u.hostTakes_lbSlot true y).trans hu)
    (fun b => b = if x.be.getLsbD i.val then BitVec.ofNat 8 (x.data.toNat >>> (8 * i.val)) else s.xramByte (4 * x.word + i.val))
    (List.Nodup.of_map _ hn) hx (fun y hy hne u _ => ?_) rfl (fun u hu hb => ?_)
  · have hword : y.word ≠ x.word := fun e => hne (List.inj_on_of_nodup_map hn hy hx e)
    exact (u.upto y.tick).hostWord_byte_other y (by omega)
  · have hbyte := (u.upto x.tick).hostWord_byte (x := x) ((State.meets_congr hu x).trans (h x hx)) i
    exact hbyte.trans (by rw [show (u.upto x.tick).xramByte _ = _ from hb])

theorem within_foldl_alone {l : List XramSlot} {s : State} (h : ∀ y ∈ l, s.meets y = false) :
    Within [.clk, .mem, .xram] s (l.foldl (State.hostTakes true) s) := by
  induction l generalizing s with
  | nil => exact Within.refl _ s
  | cons x r ih =>
    have hstep : Within [.clk, .mem, .xram] s (s.hostTakes true x) :=
      (((State.upto_within s x.tick).mono (by decide)).step
        (State.hostWord_within_alone (s := s.upto x.tick) (h x List.mem_cons_self)) (by decide)).step (Within.set_mem _ _ rfl) (by decide)
    refine hstep.step (ih fun y hy => ?_) (by decide)
    rw [State.meets_congr (s.hostTakes_lbSlot true x)]
    exact h y (List.mem_cons_of_mem _ hy)

theorem xram_foldl (l : List XramSlot) (s : State) : (l.foldl (State.hostTakes false) s).mem.xram = s.mem.xram :=
  foldl_keeps (fun u => u.mem.xram) l (State.hostTakes false) (fun u x => by
    show (u.hostReads x).mem.xram = u.mem.xram
    rw [State.hostReads_mem]) s

theorem bar2Data_writes (l : List XramSlot) (s : State) : (l.foldl (State.hostTakes true) s).mem.bar2Data = s.mem.bar2Data :=
  foldl_keeps (fun u => u.mem.bar2Data) l (State.hostTakes true) (fun u x => by
    show (u.hostWrites x).mem.bar2Data = u.mem.bar2Data
    rw [State.hostWrites_mem]) s

theorem clearing_writes (l : List XramSlot) (s : State) : (l.foldl (State.hostTakes true) s).mem.clearing = s.mem.clearing :=
  foldl_keeps (fun u => u.mem.clearing) l (State.hostTakes true) (fun u x => by
    show (u.hostWrites x).mem.clearing = u.mem.clearing
    rw [State.hostWrites_mem]) s

/-- A read takes every word as the exchange RAM holds it, but for the one that meets a write, which is the first free value. -/
theorem bar2Data_reads (s : State) : ∀ (l : List XramSlot) (u : State), (l.map XramSlot.tick).Nodup → u.mem.lbSlot = s.mem.lbSlot →
    u.mem.xram = s.mem.xram → ((∃ x ∈ l, s.meets x = true) → u.freeN = s.freeN) →
    (l.foldl (State.hostTakes false) u).mem.bar2Data = u.mem.bar2Data ++ l.map s.hostGets
  | [], u, _, _, _, _ => (List.append_nil _).symm
  | x :: r, u, hn, hl, hx, hf => by
    obtain ⟨hapart, hr⟩ := List.nodup_cons.1 hn
    have hmeets : u.meets x = s.meets x := State.meets_congr hl x
    have hword : u.hostGets x = s.hostGets x := by
      unfold State.hostGets
      rw [hmeets]
      split
      · next h => rw [hf ⟨x, List.mem_cons_self, h⟩]
      · exact State.xramWord_congr hx x.word
    have hstep : (u.hostTakes false x).mem.bar2Data = u.mem.bar2Data ++ [s.hostGets x] := by
      show (u.hostReads x).mem.bar2Data = _
      rw [State.hostReads_mem, hword]
    rw [List.foldl_cons, bar2Data_reads s r _ hr ((u.hostTakes_lbSlot false x).trans hl) ((xram_foldl [x] u).trans hx) ?_, hstep,
      List.append_assoc, List.map_cons, List.singleton_append]
    rintro ⟨y, hy, hm⟩
    have hfirst : u.meets x = false := by
      rw [hmeets, Bool.eq_false_iff]
      intro hmx
      obtain ⟨a, ha, hta, _⟩ := State.meets_some hmx
      obtain ⟨b, hb, htb, _⟩ := State.meets_some hm
      obtain rfl : a = b := Option.some.inj (ha.symm.trans hb)
      exact hapart (List.mem_map.2 ⟨y, hy, htb.trans hta.symm⟩)
    exact (State.hostReads_freeN hfirst).trans (hf ⟨y, List.mem_cons_of_mem _ hy, hm⟩)

end Sys2Proof.Machine
end

