-- ==== Sys2Proof/Proofs/ExchangeAccesses.lean ====
section
/-! PROOF. Accesses of the exchange RAM through BAR2 (R366 to R368; part of O52). -/
namespace Sys2Proof.Machine

/-- The collision of an access, as it is told of. -/
def State.tellsOf (s t : State) (w : Nat) : Prop :=
  t.mem.collideAddr = BitVec.ofNat 18 w ∧ t.counter (memA 0x404) = min (s.counter (memA 0x404) + 1) top32 ∧
    (t.flag (memA 0x408)).getLsbD 0 = true

theorem State.tellsOf_of_met {s t : State} {w : Nat} (h : t.collisions = s.collisions.met w) : s.tellsOf t w := by
  refine ⟨congrArg Collisions.addr h, congrArg Collisions.count h, ?_⟩
  have hflag : t.flag (memA 0x408) = s.flag (memA 0x408) ||| bit32 0 := congrArg Collisions.flag h
  rw [hflag, BitVec.getLsbD_or, bit32_self (by decide), Bool.or_true]

/-! ### The slots of an access -/

/-- The words of an access with their byte enables. -/
def accessWord (be : List (BitVec 4)) (data : List Word) (i : Nat) : BitVec 4 × Word := ((be[i]?).getD 0, (data[i]?).getD 0)

/-- The slots of a BAR2 access from tick `at_` on. -/
def State.bar2Slots (s : State) (at_ : Nat) (write : Bool) (addr : BitVec 18) (be : List (BitVec 4)) (data : List Word) : List XramSlot :=
  (List.range be.length).map (accessSlot write ((s.upto at_).hostCycle at_) addr (accessWord be data))

theorem accessSlots_ticks (write : Bool) (c : Nat) (addr : BitVec 18) (f : Nat → BitVec 4 × Word) (n : Nat) :
    (((List.range n).map (accessSlot write c addr f)).map XramSlot.tick).Nodup := by
  rw [List.map_map]
  exact List.Nodup.map (fun i j h => Nat.add_left_cancel h) List.nodup_range

theorem accessSlots_words (write : Bool) (c : Nat) (addr : BitVec 18) (f : Nat → BitVec 4 × Word) {n : Nat} (hn : n ≤ 2 ^ 18) :
    (((List.range n).map (accessSlot write c addr f)).map XramSlot.word).Nodup := by
  rw [List.map_map]
  refine List.Nodup.map_on (fun i hi j hj h => ?_) List.nodup_range
  have hoffs : BitVec.ofNat 18 i = BitVec.ofNat 18 j := (BitVec.add_right_inj addr).1 (BitVec.eq_of_toNat_eq h)
  have h' := congrArg BitVec.toNat hoffs
  rw [BitVec.toNat_ofNat, BitVec.toNat_ofNat, Nat.mod_eq_of_lt (Nat.lt_of_lt_of_le (List.mem_range.1 hi) hn),
    Nat.mod_eq_of_lt (Nat.lt_of_lt_of_le (List.mem_range.1 hj) hn)] at h'
  exact h'

/-! ### A served access -/

/-- The state in which the first word of a served access takes its cycle: a clear has ended. -/
def State.bar2Begins (s : State) (at_ : Nat) (write : Bool) : State :=
  ((s.upto at_).clearEnd .xram).modMem (fun m => { m with hostSlots := [], bar2Data := if write then m.bar2Data else [] })

theorem State.bar2Begins_mem (s : State) (at_ : Nat) (write : Bool) : (s.bar2Begins at_ write).mem =
    { s.mem with clearing := s.mem.clearing &&& ~~~4, hostSlots := [], bar2Data := if write then s.mem.bar2Data else [] } := rfl

theorem State.bar2Begins_within (s : State) (at_ : Nat) (write : Bool) : Within [.clk, .mem] s (s.bar2Begins at_ write) :=
  (((State.upto_within s at_).mono (by decide)).step (State.clearEnd_within _ _) (by decide)).step (Within.set_mem _ _ rfl) (by decide)

theorem State.bar2Begins_meets (s : State) (at_ : Nat) (write : Bool) (x : XramSlot) : (s.bar2Begins at_ write).meets x = s.meets x :=
  State.meets_congr rfl x

theorem State.bar2Begins_collisions (s : State) (at_ : Nat) (write : Bool) : (s.bar2Begins at_ write).collisions = s.collisions :=
  State.collisions_of_within (s.bar2Begins_within at_ write) rfl

/-- The state that a served access leaves. -/
def State.bar2Done (s : State) (at_ : Nat) (write : Bool) (addr : BitVec 18) (be : List (BitVec 4)) (data : List Word) : State :=
  (s.bar2Slots at_ write addr be data).foldl (State.hostTakes write) (s.bar2Begins at_ write)

theorem exec_bar2Access {s : State} (hu : s.undef = false) (hc : s.hostCut = false) (hr : s.heldInReset = false) (at_ : Nat) (write : Bool)
    (addr : BitVec 18) (be : List (BitVec 4)) (data : List Word) :
    exec (.bar2Access at_ write addr be data) s = .next (s.bar2Done at_ write addr be data) := by
  have hserved : ¬ ((s.upto at_).heldInReset || (s.upto at_).hostCut) = true := by
    have hr' : (s.upto at_).heldInReset = false := hr
    have hc' : (s.upto at_).hostCut = false := hc
    rw [hr', hc']
    exact Bool.false_ne_true
  have hfirst : (s.upto at_).clk.now ≤ (s.upto at_).hostCycle at_ := by
    unfold State.hostCycle
    split
    · exact Nat.le_max_left _ _
    · exact Nat.le_trans (Nat.le_max_left _ _) (Nat.le_max_left _ _)
  have hcycle : (s.bar2Begins at_ write).hostCycle ((s.upto at_).hostCycle at_) = (s.upto at_).hostCycle at_ :=
    Nat.max_eq_right hfirst
  show execBar2Access at_ write addr be data s = _
  rw [execBar2Access, guarded_next hu, State.bar2Done, State.bar2Slots, ← slotsFrom_range,
    ← State.hostWords_eq write _ (s.bar2Begins at_ write) _ _ addr hcycle hfirst]
  exact congrArg Host.Outcome.next (if_neg hserved)

/-- What every served access tells of a collision. -/
theorem bar2Done_tells (s : State) (at_ : Nat) (write : Bool) (addr : BitVec 18) (be : List (BitVec 4)) (data : List Word) {x : XramSlot}
    (hm : s.meets x = true) (hx : x ∈ s.bar2Slots at_ write addr be data) : s.tellsOf (s.bar2Done at_ write addr be data) x.word := by
  refine State.tellsOf_of_met ?_
  rw [State.bar2Done, collisions_foldl write (l := s.bar2Slots at_ write addr be data) (accessSlots_ticks _ _ _ _ _) hx ((s.bar2Begins_meets at_ write x).trans hm),
    State.bar2Begins_collisions]

theorem State.bar2Done_slots (s : State) (at_ : Nat) (write : Bool) (addr : BitVec 18) (be : List (BitVec 4)) (data : List Word) :
    (s.bar2Done at_ write addr be data).mem.hostSlots = s.bar2Slots at_ write addr be data := by
  rw [State.bar2Done, hostSlots_foldl]
  rfl

/-- A served write changes the enabled bytes of its words, and no other byte. -/
theorem bar2Done_byte_other {s : State} {at_ : Nat} {addr : BitVec 18} {be : List (BitVec 4)} {data : List Word} {a : Nat}
    (h : ∀ i : Nat, i < be.length → a < 4 * (addr + BitVec.ofNat 18 i).toNat ∨ 4 * (addr + BitVec.ofNat 18 i).toNat + 4 ≤ a) :
    (s.bar2Done at_ true addr be data).xramByte a = s.xramByte a := by
  refine (byte_foldl_other fun x hx => ?_).trans (State.xramByte_congr (s := s) rfl a)
  obtain ⟨i, hi, rfl⟩ := List.mem_map.1 hx
  exact h i (List.mem_range.1 hi)

theorem bar2Done_byte {s : State} {at_ : Nat} {addr : BitVec 18} {be : List (BitVec 4)} {data : List Word} (hn : be.length ≤ 2 ^ 18)
    (h : ∀ x ∈ s.bar2Slots at_ true addr be data, s.meets x = false) {i : Nat} (hi : i < be.length) (j : Fin 4) :
    (s.bar2Done at_ true addr be data).xramByte (4 * (addr + BitVec.ofNat 18 i).toNat + j.val) =
      if ((be[i]?).getD 0).getLsbD j.val then BitVec.ofNat 8 (((data[i]?).getD 0).toNat >>> (8 * j.val))
      else s.xramByte (4 * (addr + BitVec.ofNat 18 i).toNat + j.val) :=
  byte_foldl_word (x := accessSlot true ((s.upto at_).hostCycle at_) addr (accessWord be data) i) (s := s.bar2Begins at_ true)
    (accessSlots_words true _ addr _ hn) (List.mem_map_of_mem (List.mem_range.2 hi)) h j

theorem bar2Done_within_alone {s : State} {at_ : Nat} {addr : BitVec 18} {be : List (BitVec 4)} {data : List Word}
    (h : ∀ x ∈ s.bar2Slots at_ true addr be data, s.meets x = false) :
    Within [.clk, .mem, .xram] s (s.bar2Done at_ true addr be data) :=
  ((s.bar2Begins_within at_ true).mono (by decide)).step (within_foldl_alone (s := s.bar2Begins at_ true) h) (by decide)

theorem State.bar2Done_read (s : State) (at_ : Nat) (addr : BitVec 18) (be : List (BitVec 4)) (data : List Word) :
    (s.bar2Done at_ false addr be data).mem.bar2Data = (s.bar2Slots at_ false addr be data).map s.hostGets :=
  bar2Data_reads s _ (s.bar2Begins at_ false) (accessSlots_ticks _ _ _ _ _) rfl rfl fun _ => rfl

theorem State.hostReads_within (s : State) (x : XramSlot) : Within [.clk, .flg, .ctr, .mem, .msix, .freeN] s (s.hostTakes false x) :=
  (((State.upto_within s x.tick).mono (by decide)).step (State.hostFetch_within (s.upto x.tick) x) (by decide)).step
    (Within.set_mem _ _ rfl) (by decide)

theorem bar2Done_within_read (s : State) (at_ : Nat) (addr : BitVec 18) (be : List (BitVec 4)) (data : List Word) :
    Within [.clk, .flg, .ctr, .mem, .msix, .freeN] s (s.bar2Done at_ false addr be data) :=
  Within.fold ((s.bar2Begins_within at_ false).mono (by decide)) (fun u x hu => hu.step (u.hostReads_within x) (by decide))

/-! ### An access of a host that is cut off -/

theorem bar2Access_cut {s : State} (hu : s.undef = false) (h : s.hostCut = true ∨ s.heldInReset = true) (at_ : Nat) (addr : BitVec 18)
    (be : List (BitVec 4)) (data : List Word) :
    Gives (.bar2Access at_ false addr be data) s (fun t =>
      t.mem = { s.mem with bar2Data := List.replicate be.length (~~~0) } ∧ Within [.clk, .mem] s t) ∧
    Gives (.bar2Access at_ true addr be data) s (fun t => t = s.upto at_) := by
  have hcut : ((s.upto at_).heldInReset || (s.upto at_).hostCut) = true := by
    have hr : (s.upto at_).heldInReset = s.heldInReset := rfl
    have hc : (s.upto at_).hostCut = s.hostCut := rfl
    rw [hr, hc, Bool.or_eq_true]
    exact h.symm
  refine ⟨gives_branch hu rfl (if_pos hcut) ⟨?_, ?_⟩, gives_branch hu rfl (if_pos hcut) rfl⟩
  · have hdata : ((List.range be.length).map (accessWord be data)).map (fun _ => (~~~0 : Word)) = List.replicate be.length (~~~0) := by
      rw [List.map_const', List.length_map, List.length_range]
    exact congrArg (fun d => { s.mem with bar2Data := d }) hdata
  · exact ((State.upto_within s at_).mono (by decide)).step (Within.set_mem _ _ rfl) (by decide)

end Sys2Proof.Machine
end

