-- ==== Sys2Proof/Proofs/LocalBus.lean ====
section
/-! PROOF. Accesses of the local bus to the exchange RAM (R368 to R371), and the on-chip memory as a whole (O52). -/
namespace Sys2Proof.Machine

/-! ### The accesses whose second edge has not passed -/

/-- The latest local-bus access, and the earlier ones that are still under way. -/
structure RunsTo (s t : State) (x : LbRun) : Prop where
  head : t.mem.lbRuns.head? = some x
  others : ∀ r ∈ s.mem.lbRuns, r.edge ≠ x.edge → x.edge < r.edge + 24 → r ∈ t.mem.lbRuns

theorem RunsTo.lbSample (s : State) (c t : Nat) (busy : Bool) : RunsTo s ((s.upto c).lbSample t busy) { edge := t, busy := busy } :=
  ⟨rfl, fun _ hr _ hlate => List.mem_cons_of_mem _ (List.mem_filter.2 ⟨hr, decide_eq_true hlate⟩)⟩

theorem RunsTo.of_eq {s t u : State} {x : LbRun} (h : RunsTo s t x) (he : u.mem.lbRuns = t.mem.lbRuns) : RunsTo s u x :=
  ⟨he ▸ h.head, fun r hr hn hl => he ▸ h.others r hr hn hl⟩

theorem RunsTo.modRun {s t : State} {x : LbRun} (h : RunsTo s t x) (f : LbRun → LbRun) (he : (f x).edge = x.edge) :
    RunsTo s (t.modRun (x.edge + 4) f) (f x) := by
  refine ⟨?_, fun r hr hn hl => ?_⟩
  · rw [State.modRun, State.modMem_mem, List.head?_map, h.head]
    exact congrArg some (if_pos rfl)
  · rw [he] at hn hl
    exact List.mem_map.2 ⟨r, h.others r hr hn hl, if_neg fun e => hn (Nat.add_right_cancel e)⟩

/-! ### The slot of an access -/

/-- The slot that a local-bus access takes. -/
def lbSlotOf (t : Nat) (write : Bool) (addr : BitVec 18) (be : BitVec 4) (data : Word) : XramSlot :=
  { tick := t + 4, word := addr.toNat, write := write, be := be, data := data }

/-- The host's slot that it meets. -/
def State.hostMet (s : State) (x : XramSlot) : Option XramSlot := s.mem.hostSlots.find? (fun h => collides (some h) (some x))

/-- The access has been sampled and takes its slot. -/
def State.lbTakes (s : State) (t : Nat) (x : XramSlot) : State :=
  ((s.upto (t + 4)).lbSample t false).modMem (fun m => { m with lbSlot := some x })

/-- Its collision, where it is one. -/
def State.lbCollides (s : State) (t w : Nat) (clash : Bool) : State := if clash then s.xramCollide w (t + 4) else s

/-- A host read of the cycle is spoiled by a write. -/
def State.lbSpoils (s : State) (t : Nat) (host : Option XramSlot) : State :=
  match host with
  | some h => if h.write then s else s.hostSpoiled (t + 4)
  | none => s

/-- A read takes its word. -/
def State.lbReads (s : State) (t w : Nat) (clash : Bool) : State :=
  (s.slotRead w clash).2.modRun (t + 4) (fun r => { r with data := some (s.slotRead w clash).1 })

theorem State.lbTakes_mem (s : State) (t : Nat) (x : XramSlot) : (s.lbTakes t x).mem =
    { s.mem with lbSlot := some x, lbRuns := (s.lbTakes t x).mem.lbRuns } := rfl

theorem State.lbTakes_within (s : State) (t : Nat) (x : XramSlot) : Within [.clk, .mem] s (s.lbTakes t x) :=
  (((State.upto_within s _).mono (by decide)).step (State.lbSample_within _ _ _) (by decide)).step (Within.set_mem _ _ rfl) (by decide)

theorem State.lbTakes_runs (s : State) (t : Nat) (x : XramSlot) : RunsTo s (s.lbTakes t x) { edge := t } :=
  RunsTo.of_eq (RunsTo.lbSample s (t + 4) t false) rfl

theorem State.lbCollides_mem (s : State) (t w : Nat) (clash : Bool) : (s.lbCollides t w clash).mem =
    { s.mem with collideAddr := (s.lbCollides t w clash).mem.collideAddr, lbRuns := (s.lbCollides t w clash).mem.lbRuns } := by
  unfold State.lbCollides
  split
  · rw [State.xramCollide_mem]
  · rfl

theorem State.lbCollides_within (s : State) (t w : Nat) (clash : Bool) :
    Within [.flg, .ctr, .mem, .msix] s (s.lbCollides t w clash) := by
  unfold State.lbCollides
  split
  · exact State.xramCollide_within s w _
  · exact Within.refl _ s

theorem State.xramCollide_runs (s : State) (w cycle : Nat) : (s.xramCollide w cycle).mem.lbRuns =
    (s.modRun cycle (fun r => { r with busy := true })).mem.lbRuns := by
  have hmem : ((s.count (memA 0x404) 1).setBit (memA 0x408) 0).mem = s.mem := by
    rw [(State.setBit_within _ _ _).memEq, (State.count_within _ _ _).memEq]
  rw [State.xramCollide, State.modRun, State.modMem_mem, State.modMem_mem, hmem]
  rfl

theorem RunsTo.lbCollides {s u : State} {t : Nat} (h : RunsTo s u { edge := t }) (w : Nat) (clash : Bool) :
    RunsTo s (u.lbCollides t w clash) { edge := t, busy := clash } := by
  unfold State.lbCollides
  cases clash with
  | false => exact h
  | true => exact RunsTo.of_eq (h.modRun (fun r => { r with busy := true }) rfl) (u.xramCollide_runs w (t + 4))

/-- A collision is told of. -/
theorem State.lbCollides_tells {s u : State} (h : u.collisions = s.collisions) (t w : Nat) {v : State}
    (hv : v.collisions = (u.lbCollides t w true).collisions) : s.tellsOf v w := by
  refine State.tellsOf_of_met (hv.trans ?_)
  rw [← h]
  exact u.xramCollide_collisions w (t + 4)

/-- The state in which a served access writes or reads. -/
def State.lbServes (s : State) (t : Nat) (write : Bool) (addr : BitVec 18) (be : BitVec 4) (data : Word) : State :=
  (s.lbTakes t (lbSlotOf t write addr be data)).lbCollides t addr.toNat (s.hostMet (lbSlotOf t write addr be data)).isSome

theorem State.lbServes_mem (s : State) (t : Nat) (write : Bool) (addr : BitVec 18) (be : BitVec 4) (data : Word) :
    (s.lbServes t write addr be data).mem = { s.mem with
      lbSlot := some (lbSlotOf t write addr be data), collideAddr := (s.lbServes t write addr be data).mem.collideAddr
      lbRuns := (s.lbServes t write addr be data).mem.lbRuns } := by
  rw [State.lbServes, State.lbCollides_mem, State.lbTakes_mem]

theorem State.lbServes_within (s : State) (t : Nat) (write : Bool) (addr : BitVec 18) (be : BitVec 4) (data : Word) :
    Within [.clk, .flg, .ctr, .mem, .msix] s (s.lbServes t write addr be data) :=
  ((s.lbTakes_within t _).mono (by decide)).step (State.lbCollides_within _ _ _ _) (by decide)

theorem State.lbServes_runs (s : State) (t : Nat) (write : Bool) (addr : BitVec 18) (be : BitVec 4) (data : Word) :
    RunsTo s (s.lbServes t write addr be data) { edge := t, busy := (s.hostMet (lbSlotOf t write addr be data)).isSome } :=
  (s.lbTakes_runs t _).lbCollides _ _

theorem State.lbServes_tells {s : State} {t : Nat} {write : Bool} {addr : BitVec 18} {be : BitVec 4} {data : Word} {v : State}
    (hv : v.collisions = (s.lbServes t write addr be data).collisions)
    (h : (s.hostMet (lbSlotOf t write addr be data)).isSome = true) : s.tellsOf v addr.toNat := by
  rw [State.lbServes, h] at hv
  exact State.lbCollides_tells (State.collisions_of_within (s.lbTakes_within t _) rfl) t addr.toNat hv

/-- An access that is served, as the model writes or reads its word. -/
theorem exec_lbAccess {s : State} (hu : s.undef = false) {t : Nat} (hc : s.lbClock = true) (he : s.tbAt t % 8 = 0) (hs : s.lbServed = true)
    (write : Bool) (addr : BitVec 18) (be : BitVec 4) (data : Word) : exec (.lbAccess t write addr be data) s = .next
      (if write then
        ((s.lbServes t write addr be data).lbSpoils t (s.hostMet (lbSlotOf t write addr be data))).xramWrite addr.toNat be data
      else (s.lbServes t write addr be data).lbReads t addr.toNat (s.hostMet (lbSlotOf t write addr be data)).isSome) := by
  have hedge : ¬ (!s.lbClock || decide (s.tbAt t % 8 ≠ 0)) = true := by rw [hc, he]; decide
  have hserved : ¬ (!(s.upto (t + 4)).lbServed) = true := by
    have h : (s.upto (t + 4)).lbServed = s.lbServed := rfl
    rw [h, hs]
    decide
  show execLbAccess t write addr be data s = _
  rw [execLbAccess, guarded_next hu]
  exact congrArg Host.Outcome.next ((if_neg hedge).trans (if_neg hserved))

/-! ### The commands -/

theorem lbAccess_off {s : State} (hu : s.undef = false) {t : Nat} (h : ¬ (s.lbClock = true ∧ s.tbAt t % 8 = 0)) (write : Bool)
    (addr : BitVec 18) (be : BitVec 4) (data : Word) : Gives (.lbAccess t write addr be data) s (fun u => u = s) := by
  have hoff : (!s.lbClock || decide (s.tbAt t % 8 ≠ 0)) = true := by
    rw [Bool.or_eq_true, Bool.not_eq_true', decide_eq_true_eq]
    by_cases hc : s.lbClock = true
    · exact .inr fun he => h ⟨hc, he⟩
    · exact .inl (Bool.eq_false_iff.2 hc)
  exact gives_branch hu rfl (if_pos hoff) rfl

theorem lbAccess_unserved {s : State} (hu : s.undef = false) {t : Nat} (hc : s.lbClock = true) (he : s.tbAt t % 8 = 0)
    (hs : s.lbServed = false) (write : Bool) (addr : BitVec 18) (be : BitVec 4) (data : Word) :
    Gives (.lbAccess t write addr be data) s (fun u => RunsTo s u { edge := t, busy := s.effB (memA 0x400) 0 } ∧
      u.mem = { s.mem with lbRuns := u.mem.lbRuns } ∧ Within [.clk, .mem] s u) := by
  have hedge : ¬ (!s.lbClock || decide (s.tbAt t % 8 ≠ 0)) = true := by rw [hc, he]; decide
  have hserved : (!(s.upto (t + 4)).lbServed) = true := by
    have h : (s.upto (t + 4)).lbServed = s.lbServed := rfl
    rw [h, hs]
    rfl
  exact gives_branch hu rfl ((if_neg hedge).trans (if_pos hserved))
    ⟨RunsTo.lbSample s (t + 4) t _, rfl, ((State.upto_within s _).mono (by decide)).step (State.lbSample_within _ _ _) (by decide)⟩

theorem State.lbSpoils_mem (s : State) (t : Nat) (host : Option XramSlot) : (s.lbSpoils t host).mem =
    { s.mem with bar2Data := if host.any (fun h => !h.write)
        then (List.zip s.mem.hostSlots s.mem.bar2Data).map (fun x => if x.1.tick = t + 4 then Config.collidedWord s.freeN else x.2)
        else s.mem.bar2Data } := by
  cases host with
  | none => rfl
  | some h =>
    cases hw : h.write with
    | false =>
      rw [State.lbSpoils, Option.any_some, hw]
      rfl
    | true =>
      rw [State.lbSpoils, Option.any_some, hw]
      rfl

theorem State.lbSpoils_within (s : State) (t : Nat) (host : Option XramSlot) : Within [.mem, .freeN] s (s.lbSpoils t host) := by
  unfold State.lbSpoils
  split
  · split
    · exact Within.refl _ s
    · exact State.hostSpoiled_within s _
  · exact Within.refl _ s

/-- A byte of a word, as a write leaves it. -/
def wordWritten (s t : State) (w : Nat) (be : BitVec 4) (data : Word) : Prop :=
  (∀ i : Fin 4, t.xramByte (4 * w + i.val) =
    if be.getLsbD i then BitVec.ofNat 8 (data.toNat >>> (8 * i.val)) else s.xramByte (4 * w + i.val)) ∧
  ∀ a, (a < 4 * w ∨ 4 * w + 4 ≤ a) → t.xramByte a = s.xramByte a

theorem State.xramWrite_written {s t : State} (h : t.mem.xram = s.mem.xram) (w : Nat) (be : BitVec 4) (data : Word) :
    wordWritten s (t.xramWrite w be data) w be data := by
  refine ⟨fun i => ?_, fun a ha => ?_⟩
  · rw [State.xramWrite_byte, State.xramByte_congr h]
  · rw [State.xramWrite_byte_other _ _ _ _ ha, State.xramByte_congr h]

theorem State.xramWrite_mem (s : State) (w : Nat) (be : BitVec 4) (data : Word) :
    (s.xramWrite w be data).mem = { s.mem with xram := (s.xramWrite w be data).mem.xram } := rfl

theorem lbAccess_writes {s : State} (hu : s.undef = false) {t : Nat} (hc : s.lbClock = true) (he : s.tbAt t % 8 = 0)
    (hs : s.lbServed = true) (addr : BitVec 18) (be : BitVec 4) (data : Word) :
    Gives (.lbAccess t true addr be data) s (fun u => wordWritten s u addr.toNat be data ∧
      ((s.hostMet (lbSlotOf t true addr be data)).isSome = true → s.tellsOf u addr.toNat) ∧
      RunsTo s u { edge := t, busy := (s.hostMet (lbSlotOf t true addr be data)).isSome } ∧
      u.mem.lbSlot = some (lbSlotOf t true addr be data) ∧
      u.mem.bar2Data = (if (s.hostMet (lbSlotOf t true addr be data)).any (fun h => !h.write)
        then (List.zip s.mem.hostSlots s.mem.bar2Data).map (fun x => if x.1.tick = t + 4 then Config.collidedWord s.freeN else x.2)
        else s.mem.bar2Data) ∧
      Within [.clk, .flg, .ctr, .mem, .xram, .msix, .freeN] s u) := by
  generalize hh : s.hostMet (lbSlotOf t true addr be data) = host
  generalize hv : s.lbServes t true addr be data = v
  have hexec := exec_lbAccess hu hc he hs true addr be data
  have hmem := s.lbServes_mem t true addr be data
  have hruns := s.lbServes_runs t true addr be data
  have hw := s.lbServes_within t true addr be data
  have htells := @State.lbServes_tells s t true addr be data
  rw [hh, hv] at hexec hruns htells
  rw [hv] at hmem hw
  have hspoil := v.lbSpoils_mem t host
  have hxram : (v.lbSpoils t host).mem.xram = s.mem.xram := by rw [hspoil, hmem]
  have hframe : Within [.clk, .flg, .ctr, .mem, .msix, .freeN] s (v.lbSpoils t host) :=
    (hw.mono (by decide)).step (v.lbSpoils_within t host) (by decide)
  refine ⟨_, hexec, State.xramWrite_written hxram _ be data, htells ?_, hruns.of_eq ?_, ?_, ?_,
    (hframe.mono (by decide)).step (State.xramWrite_within _ _ _ _) (by decide)⟩
  · have hcoll : (v.lbSpoils t host).collisions = v.collisions :=
      State.collisions_of_within (v.lbSpoils_within t host) (by rw [hspoil])
    exact hcoll
  · rw [if_pos rfl, State.xramWrite_mem, hspoil]
  · rw [if_pos rfl, State.xramWrite_mem, hspoil, hmem]
  · rw [if_pos rfl, State.xramWrite_mem, hspoil, hmem, hw.freeNEq]

theorem lbAccess_reads {s : State} (hu : s.undef = false) {t : Nat} (hc : s.lbClock = true) (he : s.tbAt t % 8 = 0)
    (hs : s.lbServed = true) (addr : BitVec 18) (be : BitVec 4) (data : Word) :
    Gives (.lbAccess t false addr be data) s (fun u =>
      ((s.hostMet (lbSlotOf t false addr be data)).isSome = true → s.tellsOf u addr.toNat) ∧ u.mem.xram = s.mem.xram ∧
      RunsTo s u { edge := t, busy := (s.hostMet (lbSlotOf t false addr be data)).isSome
                   data := some (if (s.hostMet (lbSlotOf t false addr be data)).isSome then Config.collidedWord s.freeN
                     else s.xramWord addr.toNat) } ∧
      u.mem.bar2Data = s.mem.bar2Data ∧ Within [.clk, .flg, .ctr, .mem, .msix, .freeN] s u) := by
  generalize hh : (s.hostMet (lbSlotOf t false addr be data)).isSome = clash
  generalize hv : s.lbServes t false addr be data = v
  have hexec := exec_lbAccess hu hc he hs false addr be data
  have hmem := s.lbServes_mem t false addr be data
  have hruns := s.lbServes_runs t false addr be data
  have hw := s.lbServes_within t false addr be data
  have htells := @State.lbServes_tells s t false addr be data
  rw [hh, hv] at hexec hruns htells
  rw [hv] at hmem hw
  have hread := v.slotRead_mem addr.toNat clash
  have hword : (v.slotRead addr.toNat clash).1 = if clash then Config.collidedWord s.freeN else s.xramWord addr.toNat := by
    cases clash with
    | false => exact State.xramWord_congr (by rw [hmem]) _
    | true => exact congrArg Config.collidedWord hw.freeNEq
  have hrun := (hruns.of_eq (u := (v.slotRead addr.toNat clash).2) (by rw [hread])).modRun
    (fun r => { r with data := some (v.slotRead addr.toNat clash).1 }) rfl
  rw [hword] at hrun
  refine ⟨_, hexec, htells ?_, ?_, ?_, ?_, ?_⟩
  · have hcoll : (v.lbReads t addr.toNat clash).collisions = v.collisions :=
      (State.collisions_of_within (State.modRun_within _ _ _) rfl).trans
        (State.collisions_of_within (State.slotRead_within _ _ _) (by rw [hread]))
    exact hcoll
  · show (v.slotRead addr.toNat clash).2.mem.xram = _
    rw [hread, hmem]
  · rw [if_neg Bool.false_ne_true, State.lbReads, hword]
    exact hrun
  · show (v.slotRead addr.toNat clash).2.mem.bar2Data = _
    rw [hread, hmem]
  · exact ((hw.mono (by decide)).step (State.slotRead_within _ _ _) (by decide)).step (State.modRun_within _ _ _) (by decide)

/-! ### The on-chip memory -/

theorem bar2Access_writes {s : State} (hu : s.undef = false) (hc : s.hostCut = false) (hr : s.heldInReset = false) (at_ : Nat)
    (addr : BitVec 18) {be : List (BitVec 4)} (data : List Word) (hn : be.length ≤ 2 ^ 18) :
    let slots := s.bar2Slots at_ true addr be data
    let word := fun i : Nat => (addr + BitVec.ofNat 18 i).toNat
    let clash := fun x : XramSlot => collides (some x) s.mem.lbSlot && decide (x ∈ slots)
    Gives (.bar2Access at_ true addr be data) s (fun t =>
      (∀ a, (∀ i : Nat, i < be.length → a < 4 * word i ∨ 4 * word i + 4 ≤ a) → t.xramByte a = s.xramByte a) ∧
      t.mem.hostSlots = slots ∧ t.mem.bar2Data = s.mem.bar2Data ∧ t.mem.clearing = s.mem.clearing &&& ~~~4 ∧
      (∀ x, clash x = true → s.tellsOf t x.word) ∧
      ((∀ x, clash x = false) → (∀ (i : Nat) (j : Fin 4), i < be.length → t.xramByte (4 * word i + j.val) =
        if ((be[i]?).getD 0).getLsbD j then BitVec.ofNat 8 (((data[i]?).getD 0).toNat >>> (8 * j.val)) else s.xramByte (4 * word i + j.val)) ∧
        Within [.clk, .mem, .xram] s t)) := by
  intro slots word clash
  refine ⟨_, exec_bar2Access hu hc hr at_ true addr be data, fun a h => bar2Done_byte_other h, s.bar2Done_slots at_ true addr be data,
    bar2Data_writes _ _, clearing_writes _ _, fun x hx => ?_, fun h => ?_⟩
  · obtain ⟨hm, hmem⟩ := Bool.and_eq_true_iff.1 hx
    exact bar2Done_tells s at_ true addr be data hm (of_decide_eq_true hmem)
  · have halone : ∀ x ∈ s.bar2Slots at_ true addr be data, s.meets x = false := fun x hx => by
      have hnone := h x
      rwa [show clash x = (s.meets x && decide (x ∈ slots)) from rfl, decide_eq_true hx, Bool.and_true] at hnone
    exact ⟨fun i j hi => bar2Done_byte hn halone hi j, bar2Done_within_alone halone⟩

theorem bar2Access_reads {s : State} (hu : s.undef = false) (hc : s.hostCut = false) (hr : s.heldInReset = false) (at_ : Nat)
    (addr : BitVec 18) (be : List (BitVec 4)) (data : List Word) :
    let slots := s.bar2Slots at_ false addr be data
    let clash := fun x : XramSlot => collides (some x) s.mem.lbSlot && decide (x ∈ slots)
    Gives (.bar2Access at_ false addr be data) s (fun t => t.mem.xram = s.mem.xram ∧ t.mem.hostSlots = slots ∧
      (∀ x, clash x = true → s.tellsOf t x.word) ∧
      t.mem.bar2Data = slots.map (fun x => if clash x then Config.collidedWord s.freeN else s.xramWord x.word) ∧
      Within [.clk, .flg, .ctr, .mem, .msix, .freeN] s t) := by
  intro slots clash
  refine ⟨_, exec_bar2Access hu hc hr at_ false addr be data, xram_foldl _ _, s.bar2Done_slots at_ false addr be data, fun x hx => ?_, ?_,
    bar2Done_within_read s at_ addr be data⟩
  · obtain ⟨hm, hmem⟩ := Bool.and_eq_true_iff.1 hx
    exact bar2Done_tells s at_ false addr be data hm (of_decide_eq_true hmem)
  · rw [State.bar2Done_read]
    refine List.map_congr_left fun x hx => ?_
    have hclash : clash x = s.meets x := by
      rw [show clash x = (s.meets x && decide (x ∈ slots)) from rfl, decide_eq_true hx, Bool.and_true]
    rw [hclash]
    rfl

/-- Settles O52: the phases of the tuning pass, and the two ports of the exchange RAM slot by slot. -/
theorem onChipMemory : Obligations.OnChipMemory := by
  intro s hu
  refine ⟨tuneBlockStart_asks hu, tuneBlockStart_waits hu, fun at_ hp hd => tuneGranted_copies at_ hp hd,
    fun passed => ⟨tunePhaseDone_copy hu passed, tunePhaseDone_restore hu passed⟩,
    fun h => ⟨tunePhaseDone_passed hu h, tunePhaseDone_failed hu h⟩, memoryClearDone_ends hu,
    fun at_ addr be data hn => ⟨fun hc hr => ⟨?_, ?_⟩, fun h => bar2Access_cut hu h at_ addr be data⟩,
    fun at_ addr be data => ⟨fun h write => lbAccess_off hu h write addr be data, fun he hs write => ?_, fun he hs => ⟨?_, ?_⟩⟩⟩
  · obtain ⟨t, hexec, helse, hslots, hdata, hclear, htells, hrest⟩ := bar2Access_writes hu hc hr at_ addr data hn
    exact ⟨t, hexec, helse, hslots, hdata, hclear, fun x hx _ => htells x hx, hrest⟩
  · obtain ⟨t, hexec, hxram, hslots, htells, hrest⟩ := bar2Access_reads hu hc hr at_ addr be data
    exact ⟨t, hexec, hxram, hslots, fun x hx _ => htells x hx, hrest⟩
  · obtain ⟨t, hexec, hruns, hrest⟩ := lbAccess_unserved hu he.1 he.2 hs write addr be data
    exact ⟨t, hexec, ⟨hruns.head, hruns.others⟩, hrest⟩
  · obtain ⟨t, hexec, hwritten, htells, hruns, hrest⟩ := lbAccess_writes hu he.1 he.2 hs addr be data
    exact ⟨t, hexec, hwritten, htells, ⟨hruns.head, hruns.others⟩, hrest⟩
  · obtain ⟨t, hexec, htells, hxram, hruns, hrest⟩ := lbAccess_reads hu he.1 he.2 hs addr be data
    exact ⟨t, hexec, htells, hxram, ⟨hruns.head, hruns.others⟩, hrest⟩

end Sys2Proof.Machine
end

