-- ==== Sys2Proof/Proofs/HostMemory.lean ====
section
/-! PROOF. The accesses of master 36: when they go, what they leave, and what escapes of them (R338, R340, R347 to R350). -/
namespace Sys2Proof.Machine

/-! ### When they go -/

/-- The accesses find places, and nothing goes before them (R338, R340, R347). -/
def State.hostFits (s : State) (acc : List (Nat × EdcOutcome)) (ready : List (Fin 1572864)) : Prop :=
  ∀ x ∈ acc, (s.dram.chans[unitChan x.1]).room false = true ∧ s.nbrDue (unitChan x.1) = false ∧
    ∀ y ∈ s.readyOn (unitChan x.1) ready, s.beats (s.hostFlight x.1) y false = true

theorem State.hostGoes_iff (s : State) (acc : List (Nat × EdcOutcome)) (ready : List (Fin 1572864)) :
    s.hostGoes acc ready = true ↔ s.hostFits acc ready := by
  simp only [State.hostGoes, State.hostFits, List.all_eq_true, Bool.and_eq_true, Bool.not_eq_true', and_assoc]

theorem State.hostGoes_of_not {s : State} {acc : List (Nat × EdcOutcome)} {ready : List (Fin 1572864)} (h : ¬ s.hostFits acc ready) :
    s.hostGoes acc ready = false := Bool.eq_false_iff.2 fun hg => h ((s.hostGoes_iff acc ready).1 hg)

/-! ### What they leave -/

theorem State.hostAccesses_flags (s : State) (l : List (Nat × EdcOutcome)) : FlagsBut [drmA 0x24] s (s.hostAccesses l) := by
  refine foldl_rel (FlagsBut [drmA 0x24]) (FlagsBut.refl _) (fun h k => h.trans k) _ (fun u x => ?_) l s
  exact (FlagsBut.bankAccess u _).trans ((State.retries_within _ _ x.2).flagsBut _)

/-! ### Escapes -/

theorem State.escape_flags (s : State) (x : Nat) (write : Bool) (src : Nat) : FlagsBut [drmA 0x24, fltA 4] s (s.escape x write src) := by
  have hset : FlagsBut [drmA 0x24, fltA 4] s ((s.count (chanA (chanOf x) 0xC) 1).setBit (drmA 0x24) (if write then 1 else 0)) :=
    ((State.count_within s _ 1).flagsBut _).setBit _ List.mem_cons_self
  refine hset.trans fun a ha hp => ?_
  exact State.report_flags _ _ a (fun h => ha (List.mem_cons_of_mem _ h)) hp

theorem State.escape_flag (s : State) (x : Nat) (write : Bool) (src : Nat) :
    ((s.escape x write src).flag (drmA 0x24)).getLsbD (if write then 1 else 0) = true := by
  have hreport : (s.escape x write src).flag (drmA 0x24) =
      ((s.count (chanA (chanOf x) 0xC) 1).setBit (drmA 0x24) (if write then 1 else 0)).flag (drmA 0x24) :=
    State.report_flags _ _ (drmA 0x24) (by decide) (by decide)
  rw [hreport]
  refine State.flagBit_setBit _ (by decide) ?_
  cases write <;> decide

theorem State.escape_dram (s : State) (x : Nat) (write : Bool) (src : Nat) :
    (s.escape x write src).dram.escAddr = BitVec.ofNat 64 x ∧ (s.escape x write src).dram.escWrite = write := by
  have hreport : (s.escape x write src).dram =
      { ((s.count (chanA (chanOf x) 0xC) 1).setBit (drmA 0x24) (if write then 1 else 0)).dram with
        escAddr := BitVec.ofNat 64 x, escWrite := write, escSrc := BitVec.ofNat 6 src } := (State.report_within _ _).dramEq
  rw [hreport]
  exact ⟨rfl, rfl⟩

/-- The last step of a fold. -/
theorem foldl_getLast {ι : Type} (f : State → ι → State) {l : List ι} {x : ι} (h : l.getLast? = some x) (s : State) :
    ∃ u, l.foldl f s = f u x := by
  obtain ⟨r, rfl⟩ := List.getLast?_eq_some_iff.1 h
  exact ⟨r.foldl f s, by rw [List.foldl_append]; rfl⟩

/-- The units of a write that escapes, one smeared and recorded after the other. -/
theorem writeEscapes_last {l : List Nat} {x : Nat} (h : l.getLast? = some x) (s : State) :
    (s.writeEscapes l).dram.escAddr = BitVec.ofNat 64 x ∧ (s.writeEscapes l).dram.escWrite = true ∧
      ((s.writeEscapes l).flag (drmA 0x24)).getLsbD 1 = true := by
  obtain ⟨u, hu⟩ := foldl_getLast (fun s x => (s.smear x).escape x true 36) h s
  have hlast : s.writeEscapes l = (u.smear x).escape x true 36 := hu
  rw [hlast]
  exact ⟨(State.escape_dram _ x true 36).1, (State.escape_dram _ x true 36).2, State.escape_flag _ x true 36⟩

theorem readEscapes_last {l : List Nat} {x : Nat} (h : l.getLast? = some x) (s : State) (src : Nat) :
    (l.foldl (fun s x => s.escape x false src) s).dram.escAddr = BitVec.ofNat 64 x ∧
      (l.foldl (fun s x => s.escape x false src) s).dram.escWrite = false := by
  obtain ⟨u, hu⟩ := foldl_getLast (fun s x => s.escape x false src) h s
  rw [hu]
  exact u.escape_dram x false src

theorem State.smear_freeN (s : State) (x : Nat) : (s.smear x).freeN = s.freeN + 1 := rfl

theorem State.writeEscapes_freeN (s : State) (l : List Nat) : (s.writeEscapes l).freeN = s.freeN + l.length := by
  induction l generalizing s with
  | nil => rfl
  | cons x r ih =>
    have hstep : (s.writeEscapes (x :: r)).freeN = (((s.smear x).escape x true 36).writeEscapes r).freeN := rfl
    rw [hstep, ih, (State.escape_within _ x true 36).freeNEq, State.smear_freeN, List.length_cons]
    omega

/-- The bytes of a smeared unit are free values. -/
theorem State.smear_byte (s : State) {x a : Nat} (h : a / 64 * 64 = x / 64 * 64) :
    (s.smear x).dramByte a = Config.escapedByte s.freeN a := by
  have hplace : x / 64 * 64 + a % 64 = a := by omega
  have hwrite := s.dramWrite_byte (a := x / 64 * 64) (i := a % 64) (b := Config.escapedByte s.freeN a)
    (l := (List.range 64).map (fun i => some (Config.escapedByte s.freeN (x / 64 * 64 + i))))
    (by rw [List.getElem?_map, List.getElem?_range (Nat.mod_lt a (by decide))]
        exact congrArg (fun b => some (some (Config.escapedByte s.freeN b))) hplace)
  rw [hplace] at hwrite
  exact hwrite

/-- The units of a write that escapes hold free values, each its own; every other byte stays. -/
theorem State.writeEscapes_byte (l : List Nat) (s : State) (a : Nat) (hn : l.Nodup) (ha : ∀ x ∈ l, x / 64 * 64 = x) :
    (s.writeEscapes l).dramByte a =
      if a / 64 * 64 ∈ l then Config.escapedByte (s.freeN + l.idxOf (a / 64 * 64)) a else s.dramByte a := by
  induction l generalizing s with
  | nil => rfl
  | cons x r ih =>
    obtain ⟨hx, hr⟩ := List.nodup_cons.1 hn
    have hx64 : x / 64 * 64 = x := ha x List.mem_cons_self
    have hstep : (s.writeEscapes (x :: r)).dramByte a = (((s.smear x).escape x true 36).writeEscapes r).dramByte a := rfl
    rw [hstep, ih _ hr (fun y hy => ha y (List.mem_cons_of_mem _ hy)), (State.escape_within _ x true 36).freeNEq, State.smear_freeN,
      (State.escape_within _ x true 36).dramByteEq]
    by_cases he : a / 64 * 64 = x
    · have hfirst : (x :: r).idxOf (a / 64 * 64) = 0 := by rw [he, List.idxOf_cons_self]
      rw [if_neg (he ▸ hx), if_pos (he ▸ List.mem_cons_self), hfirst, s.smear_byte (he.trans hx64.symm)]
      rfl
    · have hnext : (x :: r).idxOf (a / 64 * 64) = r.idxOf (a / 64 * 64) + 1 := List.idxOf_cons_ne _ (Ne.symm he)
      rw [hnext, s.smear_byte_other (by rw [hx64]; exact he)]
      by_cases hm : a / 64 * 64 ∈ r
      · rw [if_pos hm, if_pos (List.mem_cons_of_mem _ hm), Nat.add_assoc, Nat.add_comm 1]
      · rw [if_neg hm, if_neg (fun h => (List.mem_cons.1 h).elim he hm)]

/-! ### The units of a request -/

theorem unitsOf_nodup (a n : Nat) : (unitsOf a n).Nodup := List.Nodup.map (fun _ _ h => Nat.add_left_cancel h) List.nodup_range

theorem withEdc_units (us : List Nat) (edc : List EdcOutcome) : (withEdc us edc).map Prod.fst = us := by
  rw [withEdc, List.map_map]
  refine List.ext_getElem (by simp) fun i h1 h2 => ?_
  simp [List.getElem?_eq_getElem h2]

theorem escapesOf_nodup {us : List Nat} (edc : List EdcOutcome) (h : us.Nodup) : (escapesOf (withEdc us edc)).Nodup := by
  have hall : ((withEdc us edc).map (fun x => x.1 * 64)).Nodup := by
    have hunits : ((withEdc us edc).map Prod.fst).Nodup := (withEdc_units us edc).symm ▸ h
    have hbytes := List.Nodup.map (f := fun u : Nat => u * 64) (fun a b hab => Nat.eq_of_mul_eq_mul_right (by decide) hab) hunits
    rwa [List.map_map] at hbytes
  exact hall.sublist (List.filter_sublist.map _)

theorem HostWrite.units_nodup (w : HostWrite) : w.units.Nodup := (unitsOf_nodup w.addr w.bytes.length).filter _

end Sys2Proof.Machine
end

