-- ==== Sys2Proof/Proofs/Bar4.lean ====
section
/-! PROOF. BAR4 reads, writes and their drain, pending causes, bus mastering and the error log (R336, R338 to R350, R374 to R391; O53). -/
namespace Sys2Proof.Machine

theorem FlagsBut.flagBit {m : List Nat} {s t : State} (h : FlagsBut m s t) {a i : Nat} (hb : (s.flag a).getLsbD i = true)
    (ha : a ∉ m := by decide) (hp : a ∉ pendWords := by decide) : (t.flag a).getLsbD i = true := by rw [h a ha hp, hb]

/-! ### The flags of the zones -/

theorem State.flagBit_setBit_keep (s : State) (b j : Nat) {a i : Nat} (ha : a ∉ pendWords) (h : (s.flag a).getLsbD i = true) :
    ((s.setBit b j).flag a).getLsbD i = true := by
  by_cases hb : a = b
  · subst hb
    rw [State.flag_setBit_self _ _ ha, BitVec.getLsbD_or, h, Bool.true_or]
  · rwa [State.flag_setBit_other _ _ hb ha]

theorem State.zoneFlag_mono (s : State) (z : Bar4Zone) (write : Bool) {a i : Nat} (ha : a ∉ pendWords)
    (h : (s.flag a).getLsbD i = true) : ((s.zoneFlag z write).flag a).getLsbD i = true := by
  unfold State.zoneFlag
  split
  · exact s.flagBit_setBit_keep (hostA 4) 0 ha h
  · unfold State.setBitIf
    split
    · exact s.flagBit_setBit_keep (drmA 0x24) 7 ha h
    · exact h
  · exact s.flagBit_setBit_keep (hostA 4) 3 ha h
  · exact h

/-- The flags of the zones that an access touches. -/
def State.zoneFlags (s : State) (zs : List Bar4Zone) (write : Bool) : State := zs.foldl (fun s z => s.zoneFlag z write) s

theorem State.zoneFlags_within (s : State) (zs : List Bar4Zone) (write : Bool) : Within [.flg, .msix] s (s.zoneFlags zs write) :=
  (Within.refl _ s).fold fun u z h => h.step (u.zoneFlag_within z write) (by decide)

theorem State.zoneFlags_flag (s : State) {zs : List Bar4Zone} (write : Bool) {z : Bar4Zone} {a i : Nat} (hz : z ∈ zs) (ha : a ∉ pendWords)
    (h : ∀ u : State, ((u.zoneFlag z write).flag a).getLsbD i = true) : ((s.zoneFlags zs write).flag a).getLsbD i = true :=
  foldl_reaches (fun _ => True) (fun u => (u.flag a).getLsbD i = true) (fun s z => s.zoneFlag z write) (fun _ _ h => h) (fun u _ => h u)
    (fun u y _ hu => u.zoneFlag_mono y write ha hu) zs s hz trivial

theorem Within.bar4ZoneEq {l : List Field} {s t : State} (h : Within l s t) (a : Nat) (hi : Field.img ∉ l := by decide)
    (hd : Field.dram ∉ l := by decide) (hb : Field.bytes ∉ l := by decide) (hp : Field.pwr ∉ l := by decide) : t.bar4Zone a = s.bar4Zone a := by
  have hdram := h.dramEq hd hb
  unfold State.bar4Zone State.configured State.objSpace State.dramPart
  rw [h.imgEq hi, hdram, h.pwrEq hp]

/-! ### A read -/

/-- What a byte reads as (R379). -/
theorem State.hostByte_congr {s t : State} (hw : t.host.writes = s.host.writes) {a : Nat} (hb : t.dramByte a = s.dramByte a) :
    t.hostByte a = s.hostByte a := by
  rw [State.hostByte, hw, hb, State.hostByte]

/-- The accesses that a read makes, with what the EDC says of each. -/
def State.readAccesses (s : State) (addr : BitVec 35) (len : Nat) (r : HostRound) : List (Nat × EdcOutcome) :=
  withEdc ((Sys2Proof.Machine.unitsOf addr.toNat len).filter (fun u => decide (s.bar4Zone (u * 64) = .data))) r.edc

/-- The accesses of a read have been made. -/
def State.readMade (s : State) (acc : List (Nat × EdcOutcome)) : State :=
  (escapesOf acc).foldl (fun s x => s.escape x false 36) (s.hostAccesses acc)

theorem State.readMade_within (s : State) (acc : List (Nat × EdcOutcome)) : Within [.flg, .ctr, .dram, .msix, .flt] s (s.readMade acc) :=
  Within.fold ((s.hostAccesses_within acc).mono (by decide)) fun u x h => h.step (u.escape_within x false 36) (by decide)

theorem State.readMade_flags (s : State) (acc : List (Nat × EdcOutcome)) : FlagsBut [drmA 0x24, fltA 4] s (s.readMade acc) := by
  have hmade : FlagsBut [drmA 0x24, fltA 4] s (s.hostAccesses acc) := fun a ha hp =>
    s.hostAccesses_flags acc a (fun h => ha (List.mem_singleton.1 h ▸ List.mem_cons_self)) hp
  exact hmade.trans (foldl_rel (FlagsBut [drmA 0x24, fltA 4]) (FlagsBut.refl _) (fun h k => h.trans k) _
    (fun u x => u.escape_flags x false 36) _ _)

/-- The bytes that a read returns. -/
def State.readBytes (s : State) (addr : BitVec 35) (len : Nat) (esc : List Nat) : List Byte :=
  (List.range len).map (fun i => if s.bar4Zone (addr.toNat + i) = .data ∧ esc = [] then s.hostByte (addr.toNat + i) else 0xFF#8)

theorem State.readBytes_zoneFlags (s : State) (zs : List Bar4Zone) (addr : BitVec 35) (len : Nat) (esc : List Nat) :
    (s.zoneFlags zs false).readBytes addr len esc = s.readBytes addr len esc := by
  have hw := s.zoneFlags_within zs false
  refine List.map_congr_left fun i _ => ?_
  rw [hw.bar4ZoneEq, State.hostByte_congr hw.hostWritesEq (hw.dramByteEq _)]

/-- The state that a read leaves. -/
def State.bar4ReadDone (s : State) (addr : BitVec 35) (len : Nat) (r : HostRound) : State :=
  let v := s.zoneFlags (s.zonesOf addr.toNat len) false
  let acc := s.readAccesses addr len r
  { v.readMade acc with host := { (v.readMade acc).host with bar4Data := v.readBytes addr len (escapesOf acc) } }

theorem bar4Read_serves {s : State} (hu : s.undef = false) (addr : BitVec 35) (len : Nat) (r : HostRound) (hc : s.hostCut = false)
    (ht : s.trainingHolds = false) (hg : s.hostFits (s.readAccesses addr len r) r.ready) : Gives (.bar4Read addr len r) s (fun t =>
      t.host.bar4Data = (List.range len).map (fun i =>
        if s.bar4Zone (addr.toNat + i) = .data ∧ escapesOf (s.readAccesses addr len r) = [] then s.hostByte (addr.toNat + i) else 0xFF#8) ∧
      (.range ∈ s.zonesOf addr.toNat len → (t.flag (hostA 4)).getLsbD 0 = true) ∧
      (.pool ∈ s.zonesOf addr.toNat len → (t.flag (hostA 4)).getLsbD 3 = true) ∧
      (∀ x, (escapesOf (s.readAccesses addr len r)).getLast? = some x → t.dram.escAddr = BitVec.ofNat 64 x ∧ t.dram.escWrite = false) ∧
      t.host.writes = s.host.writes ∧ Within [.flg, .ctr, .dram, .host, .msix, .flt] s t) := by
  have hfree : ¬ (s.trainingHolds && !s.hostCut) = true := by rw [ht]; exact Bool.false_ne_true
  have hcut : ¬ s.hostCut = true := by rw [hc]; exact Bool.false_ne_true
  have hgoes : ¬ (!s.hostGoes (s.readAccesses addr len r) r.ready) = true := by
    rw [(s.hostGoes_iff _ _).2 hg]
    decide
  have hexec : exec (.bar4Read addr len r) s = .next (s.bar4ReadDone addr len r) := by
    show execBar4Read addr len r s = _
    rw [execBar4Read, guarded_next hu]
    exact congrArg Host.Outcome.next ((if_neg hfree).trans ((if_neg hcut).trans (if_neg hgoes)))
  have hzones := s.zoneFlags_within (s.zonesOf addr.toNat len) false
  have hmade := (s.zoneFlags (s.zonesOf addr.toNat len) false).readMade_within (s.readAccesses addr len r)
  have hflags := (s.zoneFlags (s.zonesOf addr.toNat len) false).readMade_flags (s.readAccesses addr len r)
  refine ⟨_, hexec, s.readBytes_zoneFlags _ addr len _, fun hz => ?_, fun hz => ?_, fun x hx => ?_, ?_, ?_⟩
  · exact hflags.flagBit (s.zoneFlags_flag false hz (by decide) fun u => u.flagBit_setBit (by decide) (by decide))
  · exact hflags.flagBit (s.zoneFlags_flag false hz (by decide) fun u => u.flagBit_setBit (by decide) (by decide))
  · exact readEscapes_last hx _ 36
  · exact hmade.hostWritesEq.trans hzones.hostWritesEq
  · exact ((hzones.mono (by decide)).step hmade (by decide)).step (Within.set_host _ _ rfl rfl rfl) (by decide)

theorem bar4Read_cut {s : State} (hu : s.undef = false) (addr : BitVec 35) (len : Nat) (r : HostRound) (hc : s.hostCut = true) :
    Gives (.bar4Read addr len r) s (fun t =>
      t.host = { s.host with bar4Data := List.replicate len 0xFF#8 } ∧ Within [.host] s t) := by
  have hfree : ¬ (s.trainingHolds && !s.hostCut) = true := by rw [hc, Bool.not_true, Bool.and_false]; exact Bool.false_ne_true
  exact gives_branch hu rfl ((if_neg hfree).trans (if_pos hc)) ⟨rfl, Within.set_host s _ rfl rfl rfl⟩

theorem bar4Read_held {s : State} (hu : s.undef = false) (addr : BitVec 35) (len : Nat) (r : HostRound) (hc : s.hostCut = false)
    (ht : s.trainingHolds = true) : Gives (.bar4Read addr len r) s (fun t =>
      t.pwr.held = s.pwr.held ++ [.bar4Read addr len r] ∧ Within [.pwr] s t) := by
  have hheld : (s.trainingHolds && !s.hostCut) = true := by rw [ht, hc]; rfl
  exact gives_branch hu rfl (if_pos hheld) ⟨rfl, State.hold_within s _⟩

theorem bar4Read_waits {s : State} (hu : s.undef = false) (addr : BitVec 35) (len : Nat) (r : HostRound) (hc : s.hostCut = false)
    (ht : s.trainingHolds = false) (hg : ¬ s.hostFits (s.readAccesses addr len r) r.ready) :
    Gives (.bar4Read addr len r) s (fun t => t = s) := by
  have hfree : ¬ (s.trainingHolds && !s.hostCut) = true := by rw [ht]; exact Bool.false_ne_true
  have hcut : ¬ s.hostCut = true := by rw [hc]; exact Bool.false_ne_true
  have hstays : (!s.hostGoes (s.readAccesses addr len r) r.ready) = true := by rw [State.hostGoes_of_not hg]; rfl
  exact gives_branch hu rfl ((if_neg hfree).trans ((if_neg hcut).trans (if_pos hstays))) rfl

/-! ### A write -/

/-- The writes that are left once those which are discarded whole have drained (R381). -/
def HostIf.settled (h : HostIf) (l : List HostWrite) (k : Word) (t : HostIf) : Prop :=
  t.writes = l.dropWhile HostWrite.discard ∧ t.wrDrained = h.wrDrained + k + BitVec.ofNat 32 (l.takeWhile HostWrite.discard).length

/-- A write as it is accepted. -/
def State.acceptedWrite (s : State) (addr : BitVec 35) (bytes : List (Option Byte)) : HostWrite :=
  { addr := addr.toNat
    bytes := (List.zip (List.range bytes.length) bytes).map (fun x => if s.bar4Zone (addr.toNat + x.1) = .data then x.2 else none)
    discard := !(s.zonesOf addr.toNat bytes.length).contains .data }

theorem State.acceptedWrite_length (s : State) (addr : BitVec 35) (bytes : List (Option Byte)) :
    (s.acceptedWrite addr bytes).bytes.length = bytes.length := by
  rw [State.acceptedWrite, List.length_map, List.length_zip, List.length_range, Nat.min_self]

theorem State.acceptedWrite_byte (s : State) (addr : BitVec 35) {bytes : List (Option Byte)} {i : Nat} (h : i < bytes.length) :
    (s.acceptedWrite addr bytes).bytes[i]? = some (if s.bar4Zone (addr.toNat + i) = .data then (bytes[i]?).getD none else none) := by
  have hzip : (List.zip (List.range bytes.length) bytes)[i]? = some (i, bytes[i]) := by
    rw [List.getElem?_zip_eq_some]
    exact ⟨List.getElem?_range h, List.getElem?_eq_getElem h⟩
  rw [State.acceptedWrite, List.getElem?_map, hzip, List.getElem?_eq_getElem h]
  rfl

/-- A write is accepted, before the oldest ones that are discarded count. -/
def State.writeAccepted (s : State) (w : HostWrite) : State :=
  { s with host := { s.host with writes := s.host.writes ++ [w], wrAccepted := s.host.wrAccepted + 1 } }

theorem State.writeAccepted_within (s : State) (w : HostWrite) : Within [.host] s (s.writeAccepted w) := Within.set_host s _ rfl rfl rfl

theorem State.writeAccepted_host (s : State) (w : HostWrite) : (s.writeAccepted w).settleWrites.host =
    { s.host with writes := (s.host.writes ++ [w]).dropWhile HostWrite.discard, wrAccepted := s.host.wrAccepted + 1
                  wrDrained := s.host.wrDrained + BitVec.ofNat 32 ((s.host.writes ++ [w]).takeWhile HostWrite.discard).length } := rfl

theorem bar4Write_accepts {s : State} (hu : s.undef = false) (addr : BitVec 35) (bytes : List (Option Byte)) (hc : s.hostCut = false)
    (ht : s.trainingHolds = false) : Gives (.bar4Write addr bytes) s (fun t =>
      (∃ w, s.host.settled (s.host.writes ++ [w]) 0 t.host ∧ w.addr = addr.toNat ∧
        w.discard = !(s.zonesOf addr.toNat bytes.length).contains .data ∧ w.bytes.length = bytes.length ∧
        ∀ i : Nat, i < bytes.length →
          w.bytes[i]? = some (if s.bar4Zone (addr.toNat + i) = .data then (bytes[i]?).getD none else none)) ∧
      t.host.wrAccepted = s.host.wrAccepted + 1 ∧ Within [.flg, .host, .msix] s t) := by
  have hcut : ¬ s.hostCut = true := by rw [hc]; exact Bool.false_ne_true
  have hfree : ¬ s.trainingHolds = true := by rw [ht]; exact Bool.false_ne_true
  have hzones := s.zoneFlags_within (s.zonesOf addr.toNat bytes.length) true
  generalize hv : s.zoneFlags (s.zonesOf addr.toNat bytes.length) true = v at hzones
  have hw : ({ v.acceptedWrite addr bytes with discard := !(s.zonesOf addr.toNat bytes.length).contains .data } : HostWrite) =
      s.acceptedWrite addr bytes := by
    refine congrArg (fun l => ({ addr := addr.toNat, bytes := l, discard := _ } : HostWrite)) (List.map_congr_left fun x _ => ?_)
    rw [hzones.bar4ZoneEq]
  have hexec : exec (.bar4Write addr bytes) s = .next (v.writeAccepted (s.acceptedWrite addr bytes)).settleWrites := by
    show execBar4Write addr bytes s = _
    rw [execBar4Write, guarded_next hu, ← hw, ← hv]
    exact congrArg Host.Outcome.next ((if_neg hcut).trans (if_neg hfree))
  have hhost : ({ v.host with msixPending := s.host.msixPending, msixSent := s.host.msixSent, msixLast := s.host.msixLast } : HostIf) =
      s.host := hzones .host (by decide)
  have haccepted : v.host.wrAccepted = s.host.wrAccepted := (congrArg HostIf.wrAccepted hhost :)
  have hdrained : v.host.wrDrained = s.host.wrDrained := (congrArg HostIf.wrDrained hhost :)
  refine ⟨_, hexec, ⟨s.acceptedWrite addr bytes, ⟨?_, ?_⟩, rfl, rfl, s.acceptedWrite_length addr bytes,
    fun i hi => s.acceptedWrite_byte addr hi⟩, ?_,
    ((hzones.mono (by decide)).step (State.writeAccepted_within _ _) (by decide)).step (State.settleWrites_within _) (by decide)⟩
  · rw [State.writeAccepted_host, hzones.hostWritesEq]
  · have hzero : s.host.wrDrained + 0 = s.host.wrDrained := BitVec.add_zero _
    rw [State.writeAccepted_host, hzones.hostWritesEq, hdrained, hzero]
  · rw [State.writeAccepted_host, haccepted]

theorem bar4Write_cut {s : State} (hu : s.undef = false) (addr : BitVec 35) (bytes : List (Option Byte)) (hc : s.hostCut = true) :
    Gives (.bar4Write addr bytes) s (fun t => t = s) := gives_branch hu rfl (if_pos hc) rfl

theorem bar4Write_held {s : State} (hu : s.undef = false) (addr : BitVec 35) (bytes : List (Option Byte)) (hc : s.hostCut = false)
    (ht : s.trainingHolds = true) : Gives (.bar4Write addr bytes) s (fun t =>
      t.pwr.held = s.pwr.held ++ [.bar4Write addr bytes] ∧ Within [.pwr] s t) := by
  have hcut : ¬ s.hostCut = true := by rw [hc]; exact Bool.false_ne_true
  exact gives_branch hu rfl ((if_neg hcut).trans (if_pos ht)) ⟨rfl, State.hold_within s _⟩

end Sys2Proof.Machine
end

