-- ==== Sys2Proof/Proofs/HostDrain.lean ====
section
/-! PROOF. The drain of accepted writes, pending causes, bus mastering and the error log (R336 to R350, R374 to R391; O53). -/
namespace Sys2Proof.Machine

/-! ### The drain -/

/-- The oldest write leaves the queue. -/
def State.writeTaken (s : State) (rest : List HostWrite) : State :=
  { s with host := { s.host with writes := rest, wrDrained := s.host.wrDrained + 1 } }

/-- The bytes of the oldest write are in DRAM. -/
def State.writeDrained (s : State) (w : HostWrite) (rest : List HostWrite) (acc : List (Nat × EdcOutcome)) : State :=
  ((s.writeTaken rest).hostAccesses acc).dramWrite w.addr w.bytes

theorem State.drain_eq {s : State} {w : HostWrite} {rest : List HostWrite} (h : s.host.writes = w :: rest) (edc : List EdcOutcome) :
    s.drain edc = ((s.writeDrained w rest (withEdc w.units edc)).writeEscapes (escapesOf (withEdc w.units edc))).settleWrites := by
  rw [State.drain, h]
  rfl

theorem State.writeTaken_within (s : State) (rest : List HostWrite) : Within [.host] s (s.writeTaken rest) :=
  Within.set_host s _ rfl rfl rfl

theorem State.writeDrained_made (s : State) (w : HostWrite) (rest : List HostWrite) (acc : List (Nat × EdcOutcome)) :
    Within [.flg, .ctr, .dram, .bytes, .msix] (s.writeTaken rest) (s.writeDrained w rest acc) :=
  ((State.hostAccesses_within _ acc).mono (by decide)).step (State.dramWrite_within _ _ _) (by decide)

theorem State.writeDrained_within (s : State) (w : HostWrite) (rest : List HostWrite) (acc : List (Nat × EdcOutcome)) :
    Within [.flg, .ctr, .dram, .bytes, .host, .msix] s (s.writeDrained w rest acc) :=
  ((s.writeTaken_within rest).mono (by decide)).step (s.writeDrained_made w rest acc) (by decide)

/-- The bytes that a write carries are in DRAM; every other byte stays. -/
theorem State.writeDrained_byte (s : State) (w : HostWrite) (rest : List HostWrite) (acc : List (Nat × EdcOutcome)) (a : Nat) :
    (s.writeDrained w rest acc).dramByte a = match w.bytes[a - w.addr]? with
      | some (some x) => if w.addr ≤ a then x else s.dramByte a
      | _ => s.dramByte a := by
  have hsame : ((s.writeTaken rest).hostAccesses acc).dramByte a = s.dramByte a :=
    ((State.hostAccesses_within _ acc).dramByteEq a).trans ((s.writeTaken_within rest).dramByteEq a)
  rw [State.writeDrained]
  by_cases ha : w.addr ≤ a
  · have hplace : w.addr + (a - w.addr) = a := by omega
    split
    · next x hx =>
      have hput := State.dramWrite_byte ((s.writeTaken rest).hostAccesses acc) (a := w.addr) hx
      rw [if_pos ha]
      rwa [hplace] at hput
    · next hx =>
      rw [← hsame]
      cases he : w.bytes[a - w.addr]? with
      | none =>
        exact State.dramWrite_byte_other _ (.inr (by have := List.getElem?_eq_none_iff.1 he; omega))
      | some o =>
        cases o with
        | none =>
          have hkeep := smGet_putBytes_keep ((s.writeTaken rest).hostAccesses acc).dramDefault w.bytes
            ((s.writeTaken rest).hostAccesses acc).dram.cells w.addr (a - w.addr) he
          rw [hplace] at hkeep
          exact hkeep
        | some x => exact absurd he (hx x)
  · rw [State.dramWrite_byte_other _ (.inl (Nat.lt_of_not_le ha)), hsame]
    split
    · rw [if_neg ha]
    · rfl

/-- What the drain of the oldest write leaves of the queue, before those that are discarded count. -/
theorem State.writeDrained_host (s : State) (w : HostWrite) (rest : List HostWrite) (acc : List (Nat × EdcOutcome)) (esc : List Nat) :
    ((s.writeDrained w rest acc).writeEscapes esc).host.writes = rest ∧
    ((s.writeDrained w rest acc).writeEscapes esc).host.wrDrained = s.host.wrDrained + 1 ∧
    ((s.writeDrained w rest acc).writeEscapes esc).host.wrAccepted = s.host.wrAccepted := by
  have hw : Within [.flg, .ctr, .dram, .bytes, .msix, .flt, .freeN] (s.writeTaken rest) ((s.writeDrained w rest acc).writeEscapes esc) :=
    ((s.writeDrained_made w rest acc).mono (by decide)).step (State.writeEscapes_within _ esc) (by decide)
  have hhost := hw .host (by decide)
  exact ⟨(congrArg HostIf.writes hhost :), (congrArg HostIf.wrDrained hhost :), (congrArg HostIf.wrAccepted hhost :)⟩

theorem bar4WriteDrain_drains {s : State} (hu : s.undef = false) {w : HostWrite} {rest : List HostWrite} (r : HostRound)
    (hr : s.dram.ready = true) (hw : s.host.writes = w :: rest) (hg : s.hostFits (withEdc w.units r.edc) r.ready) :
    Gives (.bar4WriteDrain r) s (fun t => s.host.settled rest 1 t.host ∧ t.host.wrAccepted = s.host.wrAccepted ∧
      t.freeN = s.freeN + (escapesOf (withEdc w.units r.edc)).length ∧
      (∀ a, t.dramByte a = if a / 64 * 64 ∈ escapesOf (withEdc w.units r.edc)
        then Config.escapedByte (s.freeN + (escapesOf (withEdc w.units r.edc)).idxOf (a / 64 * 64)) a
        else match w.bytes[a - w.addr]? with
          | some (some x) => if w.addr ≤ a then x else s.dramByte a
          | _ => s.dramByte a) ∧
      (∀ x, (escapesOf (withEdc w.units r.edc)).getLast? = some x → t.dram.escAddr = BitVec.ofNat 64 x ∧ t.dram.escWrite = true ∧
        (t.flag (drmA 0x24)).getLsbD 1 = true) ∧
      (escapesOf (withEdc w.units r.edc) = [] → Within [.flg, .ctr, .dram, .bytes, .host, .msix] s t)) := by
  have hdrain := State.drain_eq hw r.edc
  generalize hacc : withEdc w.units r.edc = acc at hdrain hg
  have hn : (escapesOf acc).Nodup := hacc ▸ escapesOf_nodup r.edc w.units_nodup
  have hgoes : (s.dram.ready && s.hostGoes (s.drainAccesses r.edc) r.ready) = true := by
    rw [hr, State.drainAccesses, hw]
    simp only [hacc]
    rw [(s.hostGoes_iff acc r.ready).2 hg]
    rfl
  obtain ⟨hwrites, hdrained, haccepted⟩ := s.writeDrained_host w rest acc (escapesOf acc)
  have hdone := s.writeDrained_within w rest acc
  refine gives_branch hu rfl ((if_pos hgoes).trans hdrain) ⟨⟨?_, ?_⟩, haccepted, ?_, fun a => ?_, fun x hx => writeEscapes_last hx _, fun he => ?_⟩
  · show ((s.writeDrained w rest acc).writeEscapes (escapesOf acc)).host.writes.dropWhile HostWrite.discard = _
    rw [hwrites]
  · show ((s.writeDrained w rest acc).writeEscapes (escapesOf acc)).host.wrDrained +
      BitVec.ofNat 32 (((s.writeDrained w rest acc).writeEscapes (escapesOf acc)).host.writes.takeWhile HostWrite.discard).length = _
    rw [hwrites, hdrained]
  · show ((s.writeDrained w rest acc).writeEscapes (escapesOf acc)).freeN = _
    rw [State.writeEscapes_freeN, hdone.freeNEq]
  · show ((s.writeDrained w rest acc).writeEscapes (escapesOf acc)).dramByte a = _
    rw [State.writeEscapes_byte _ _ a hn (fun x hx => escapesOf_aligned hx), hdone.freeNEq, s.writeDrained_byte]
  · rw [he]
    exact hdone.step (State.settleWrites_within _) (by decide)

theorem bar4WriteDrain_stays {s : State} (hu : s.undef = false) (r : HostRound)
    (h : s.dram.ready = false ∨ ¬ s.hostFits (s.drainAccesses r.edc) r.ready) : Gives (.bar4WriteDrain r) s (fun t => t = s) := by
  refine gives_branch hu rfl (if_neg fun hg => ?_) rfl
  obtain ⟨hr, hf⟩ := Bool.and_eq_true_iff.1 hg
  exact h.elim (fun hn => Bool.false_ne_true (hn.symm.trans hr)) (fun hn => hn ((s.hostGoes_iff _ _).1 hf))

theorem bar4WriteDrain_empty {s : State} (hu : s.undef = false) (r : HostRound) (h : s.host.writes = []) :
    Gives (.bar4WriteDrain r) s (fun t => t = s) := by
  have hnone : s.drain r.edc = s := by rw [State.drain, h]
  by_cases hg : (s.dram.ready && s.hostGoes (s.drainAccesses r.edc) r.ready) = true
  · exact gives_branch hu rfl ((if_pos hg).trans hnone) rfl
  · exact gives_branch hu rfl (if_neg hg) rfl

/-! ### Causes, bus mastering and errors -/

theorem intPendClear_clears {s : State} (hu : s.undef = false) (word : Fin 3) (mask : Word) :
    Gives (.intPendClear word mask) s (fun t =>
      t.flag (hostA (0x400 + 4 * word.val)) = s.flag (hostA (0x400 + 4 * word.val)) &&& ~~~(mask &&& ~~~(
        if (smGet (fun _ => ({} : Evt)) s.flg (hostA (0x400 + 4 * word.val))).tick = s.clk.now
        then (smGet (fun _ => ({} : Evt)) s.flg (hostA (0x400 + 4 * word.val))).fresh else 0)) ∧
      (∀ b, b ≠ hostA (0x400 + 4 * word.val) → t.flag b = s.flag b) ∧ Within [.flg] s t) :=
  gives_framed hu (fun _ => execIntPendClear_within word mask s) rfl rfl
    fun hw => ⟨s.flag_clearFlag_self _ mask, fun _ hb => s.flag_clearFlag_other mask hb, hw⟩

/-- The endpoint as a change of bus mastering leaves it. -/
def State.masters (s : State) (at_ : Nat) (bme d3hot : Bool) : State :=
  { s.upto at_ with host := { (s.upto at_).host with bme := bme, d3hot := d3hot } }

theorem State.masters_within (s : State) (at_ : Nat) (bme d3hot : Bool) : Within [.clk, .host] s (s.masters at_ bme d3hot) :=
  ((State.upto_within s at_).mono (by decide)).step (Within.set_host _ _ rfl rfl rfl) (by decide)

theorem bmeChange_says {s : State} (hu : s.undef = false) (at_ : Nat) (bme d3hot : Bool) : Gives (.bmeChange at_ bme d3hot) s (fun t =>
    t.host.bme = bme ∧ t.host.d3hot = d3hot ∧ ((bme = false ∨ d3hot = true) → (t.flag (hostA 4)).getLsbD 1 = true) ∧
      (bme = true → d3hot = false → t.flg = s.flg) ∧ t.host.ctxs = s.host.ctxs ∧ t.clk.now = max s.clk.now at_ ∧
      Within [.clk, .flg, .host, .msix] s t) := by
  have hset := State.setBitIf_within (s.masters at_ bme d3hot) (!(s.masters at_ bme d3hot).dmaOn) (hostA 4) 1
  generalize hv : (s.masters at_ bme d3hot).setBitIf (!(s.masters at_ bme d3hot).dmaOn) (hostA 4) 1 = v at hset
  have hsent : Within [.flg, .msix] (s.masters at_ bme d3hot) v.sendVectors := (hset.mono (by decide)).step (State.sendVectors_within v) (by decide)
  have hhost := hsent .host (by decide)
  have hexec : exec (.bmeChange at_ bme d3hot) s = .next v.sendVectors := by
    show execBmeChange at_ bme d3hot s = _
    rw [execBmeChange, guarded_next hu, ← hv]
    rfl
  refine ⟨_, hexec, (congrArg HostIf.bme hhost :), (congrArg HostIf.d3hot hhost :), fun h => ?_, fun hb hd => ?_,
    (congrArg HostIf.ctxs hhost :), (congrArg Clock.now hsent.clkEq :), (s.masters_within at_ bme d3hot).seq hsent⟩
  · have hoff : (!(s.masters at_ bme d3hot).dmaOn) = true := by
      show (!(bme && !d3hot)) = true
      rcases h with h | h
      · rw [h]; rfl
      · rw [h]; cases bme <;> rfl
    rw [(State.sendVectors_within v).flagEq (hostA 4), ← hv]
    exact State.flagBit_setBitIf _ hoff (by decide) (by decide)
  · have hon : (!(s.masters at_ bme d3hot).dmaOn) = false := by
      show (!(bme && !d3hot)) = false
      rw [hb, hd]
      rfl
    rw [(State.sendVectors_within v).flgEq, ← hv, hon]
    rfl

/-- An error's bit among the correctable ones, and among the others (R376). -/
def aerCorrBit (k : AerKind) : BitVec 6 := match k with
  | .receiverError => 1 | .badTlp => 2 | .badDllp => 4 | .replayTimeout => 8 | .replayRollover => 16 | .advisoryNonFatal => 32 | _ => 0
def aerUncorrBit (k : AerKind) : BitVec 6 := match k with
  | .dataLinkProtocol => 1 | .poisonedTlp => 2 | .completionTimeout => 4 | .unexpectedCompletion => 8
  | .malformedTlp => 16 | .unsupportedRequest => 32 | _ => 0

theorem aerCorr_logged (k : AerKind) (x : BitVec 6) :
    (if aerSeverity k = .correctable then x ||| 1#6 <<< aerPlace k else x) = x ||| aerCorrBit k := by
  cases k <;> simp [aerSeverity, aerPlace, aerCorrBit]

theorem aerUncorr_logged (k : AerKind) (x : BitVec 6) :
    (if aerSeverity k = .correctable then x else x ||| 1#6 <<< aerPlace k) = x ||| aerUncorrBit k := by
  cases k <;> simp [aerSeverity, aerPlace, aerUncorrBit]

theorem aerSeverity_eq (k : AerKind) : aerSeverity k =
    if aerCorrBit k ≠ 0 then .correctable else if k = .dataLinkProtocol ∨ k = .malformedTlp then .fatal else .nonFatal := by
  cases k <;> decide

theorem aerError_logs {s : State} (hu : s.undef = false) (k : AerKind) (hr : s.heldInReset = false) : Gives (.aerError k) s (fun t =>
    t.host = { s.host with
      aerCorr := s.host.aerCorr ||| aerCorrBit k, aerUncorr := s.host.aerUncorr ||| aerUncorrBit k
      aerReport := some (if aerCorrBit k ≠ 0 then .correctable
        else if k = .dataLinkProtocol ∨ k = .malformedTlp then .fatal else .nonFatal) } ∧ Within [.host] s t) := by
  have hfree : ¬ s.heldInReset = true := by rw [hr]; exact Bool.false_ne_true
  refine gives_framed hu (fun _ => execAerError_within k s) rfl (if_neg hfree) (fun hw => ⟨?_, hw⟩)
  rw [← aerCorr_logged, ← aerUncorr_logged, ← aerSeverity_eq]

/-- Settles O53: one lemma for each way a BAR4 access, a drain, a change of bus mastering or an error goes. -/
theorem hostAccesses : Obligations.HostAccesses := by
  intro s hu h goes settled
  refine ⟨fun addr len r => ⟨bar4Read_cut hu addr len r, bar4Read_held hu addr len r, bar4Read_waits hu addr len r, bar4Read_serves hu addr len r⟩,
    fun addr bytes => ⟨bar4Write_cut hu addr bytes, bar4Write_held hu addr bytes, bar4Write_accepts hu addr bytes⟩,
    fun he r => bar4WriteDrain_empty hu r he, fun hr r => bar4WriteDrain_stays hu r (.inl hr), fun w rest r hw hg => ?_,
    fun w rest r hr hw hg => bar4WriteDrain_drains hu r hr hw hg, intPendClear_clears hu, bmeChange_says hu,
    fun k => ⟨fun hr => gives_branch hu rfl (if_pos hr) rfl, aerError_logs hu k⟩⟩
  refine bar4WriteDrain_stays hu r (.inr fun hf => hg ?_)
  have hacc : s.drainAccesses r.edc = withEdc w.units r.edc := by rw [State.drainAccesses, show s.host.writes = w :: rest from hw]
  rw [hacc] at hf
  exact hf

end Sys2Proof.Machine
end

