-- ==== Sys2Proof/Proofs/StreamCommands.lean ====
section
/-! PROOF. Stream contexts: OPEN, CLOSE, TAIL, descriptors and errors (R384 to R386, R392 to R395; part of O54). -/
namespace Sys2Proof.Machine

/-! ### One context at a time -/

theorem ctxA_not_pend (c : Ctx) (off : Nat) : ctxA c off ∉ pendWords := by
  simp only [pendWords, List.mem_cons, List.not_mem_nil, or_false, not_or]
  unfold ctxA hostA
  omega

theorem State.modCtx_ctxs_self (s : State) (c : Ctx) (f : Stream → Stream) : (s.modCtx c f).host.ctxs[c] = f s.host.ctxs[c] :=
  Vector.getElem_set_self c.isLt

theorem State.modCtx_ctxs_other (s : State) (c : Ctx) (f : Stream → Stream) : CtxBut c s (s.modCtx c f) := fun d hd =>
  Vector.getElem_set_ne c.isLt d.isLt fun h => hd (Fin.ext h.symm)

theorem State.modCtx_poolFree (s : State) (c : Ctx) (f : Stream → Stream) : (s.modCtx c f).host.poolFree = s.host.poolFree := rfl

theorem Within.poolEq {l : List Field} {s t : State} (h : Within l s t) (hl : Field.host ∉ l := by decide) :
    t.host.poolFree = s.host.poolFree := by
  have hhost : ({ t.host with msixPending := s.host.msixPending, msixSent := s.host.msixSent, msixLast := s.host.msixLast } : HostIf) =
    s.host := h .host hl
  exact (congrArg HostIf.poolFree hhost :)

theorem Within.ctxEq {l : List Field} {s t : State} (h : Within l s t) (c : Ctx) (hl : Field.host ∉ l := by decide) :
    t.host.ctxs[c] = s.host.ctxs[c] := by rw [h.ctxsEq hl]

/-- Of the contexts only one changes, the pool stays, and of the flags only that context's change, none of which falls. -/
structure CtxStep (c : Ctx) (s t : State) : Prop where
  others : CtxBut c s t
  pool : t.host.poolFree = s.host.poolFree
  flags : FlagsBut [ctxA c 0x28] s t
  keeps : ∀ i, (s.flag (ctxA c 0x28)).getLsbD i = true → (t.flag (ctxA c 0x28)).getLsbD i = true

theorem CtxStep.refl (c : Ctx) (s : State) : CtxStep c s s := ⟨fun _ _ => rfl, rfl, FlagsBut.refl _ s, fun _ h => h⟩

theorem CtxStep.trans {c : Ctx} {s t u : State} (h : CtxStep c s t) (k : CtxStep c t u) : CtxStep c s u :=
  ⟨fun d hd => (k.others d hd).trans (h.others d hd), k.pool.trans h.pool, h.flags.trans k.flags, fun i hi => k.keeps i (h.keeps i hi)⟩

theorem CtxStep.modCtx (c : Ctx) (s : State) (f : Stream → Stream) : CtxStep c s (s.modCtx c f) :=
  ⟨s.modCtx_ctxs_other c f, rfl, fun _ _ _ => rfl, fun _ h => h⟩

theorem CtxStep.of_within {c : Ctx} {l : List Field} {s t : State} (h : Within l s t) (hh : Field.host ∉ l := by decide)
    (hf : Field.flg ∉ l := by decide) : CtxStep c s t :=
  ⟨fun d _ => h.ctxEq d hh, h.poolEq hh, h.flagsBut _ hf, fun i hi => by rwa [h.flagEq _ hf]⟩

theorem CtxStep.setBit (c : Ctx) (s : State) (i : Nat) : CtxStep c s (s.setBit (ctxA c 0x28) i) :=
  ⟨fun d _ => (State.setBit_within s _ i).ctxEq d, (State.setBit_within s _ i).poolEq,
    (FlagsBut.refl _ s).setBit i (List.mem_singleton_self _), fun _ h => s.flagBit_setBit_keep _ i (ctxA_not_pend c 0x28) h⟩

theorem CtxStep.setBitIf (c : Ctx) (s : State) (b : Bool) (i : Nat) : CtxStep c s (s.setBitIf b (ctxA c 0x28) i) := by
  unfold State.setBitIf
  split
  · exact CtxStep.setBit c s i
  · exact CtxStep.refl c s

/-! ### Low water -/

/-- Low water moves its own marks of a context alone (R393). -/
theorem State.lowWater_step (s : State) (c : Ctx) : CtxStep c s (s.lowWater c) := by
  unfold State.lowWater
  dsimp only
  split
  · exact CtxStep.refl c s
  split
  · exact CtxStep.modCtx c s _
  split
  · exact ((CtxStep.modCtx c s _).trans (CtxStep.setBit c _ 0)).trans (CtxStep.of_within (State.count_within _ _ 1))
  · exact CtxStep.refl c s

theorem State.lowWater_ctx (s : State) (c : Ctx) : ∃ b, (s.lowWater c).host.ctxs[c] = { s.host.ctxs[c] with lowArmed := b } := by
  unfold State.lowWater
  dsimp only
  split
  · exact ⟨_, rfl⟩
  split
  · exact ⟨true, s.modCtx_ctxs_self c _⟩
  split
  · refine ⟨false, ?_⟩
    rw [(State.count_within _ _ 1).ctxEq, (State.setBit_within _ _ 0).ctxEq]
    exact s.modCtx_ctxs_self c _
  · exact ⟨_, rfl⟩

/-! ### OPEN -/

theorem Within.openCheckEq {l : List Field} {s t : State} (h : Within l s t) (c : Ctx) (hi : Field.img ∉ l := by decide)
    (hh : Field.host ∉ l := by decide) (hm : Field.msix ∉ l := by decide) (hc : Field.cfg ∉ l := by decide)
    (hw : Field.was ∉ l := by decide) (hk : Field.clk ∉ l := by decide) : t.openCheck c = s.openCheck c := by
  have hword : ∀ a, t.settledW a = s.settledW a := fun a =>
    State.settledW_congr (h.cfgEq hc) (h.wasEq hw) (congrArg Clock.now (h.clkEq hk)) a
  unfold State.openCheck
  rw [State.configured_congr (h.imgEq hi), hword, hword, hword, h.hostEq hh hm]

theorem strmOpen_both {s : State} (hu : s.undef = false) (c : Ctx) (hb : (s.cmdWord (ctxA c 0)).getLsbD 1 = true) :
    Gives (.strmOpen c) s (fun t => Takes (ctxA c 0) 1 s t ∧ Within [.cmd, .more] s t) := by
  have hfree : ¬ (!(s.cmdWord (ctxA c 0)).getLsbD 1 && s.prepared 8) = true := by rw [hb]; exact Bool.false_ne_true
  exact gives_branch hu rfl ((if_neg hfree).trans (if_pos hb)) ⟨s.cmdTake_takes _ 1, State.cmdTake_within s _ _⟩

theorem strmOpen_held {s : State} (hu : s.undef = false) (c : Ctx) (hb : (s.cmdWord (ctxA c 0)).getLsbD 1 = false)
    (hp : s.prepared 8 = true) : Gives (.strmOpen c) s (fun t => t.pwr.held = s.pwr.held ++ [.strmOpen c] ∧ Within [.pwr] s t) := by
  have hheld : (!(s.cmdWord (ctxA c 0)).getLsbD 1 && s.prepared 8) = true := by rw [hb, hp]; rfl
  exact gives_branch hu rfl (if_pos hheld) ⟨rfl, State.hold_within s _⟩

theorem strmOpen_fails {s : State} (hu : s.undef = false) (c : Ctx) (hb : (s.cmdWord (ctxA c 0)).getLsbD 1 = false)
    (hp : s.prepared 8 = false) (hc : s.openCheck c ≠ 0) : Gives (.strmOpen c) s (fun t =>
      t.host.ctxs[c] = { s.host.ctxs[c] with err := BitVec.ofNat 4 (s.openCheck c) } ∧ CtxBut c s t ∧ t.host.poolFree = s.host.poolFree ∧
      Takes (ctxA c 0) 1 s t ∧ t.flag (ctxA c 0x28) = s.flag (ctxA c 0x28) ||| bit32 3 ∧ FlagsBut [ctxA c 0x28] s t ∧
      Within [.flg, .cmd, .more, .host, .msix] s t) := by
  have htake := State.cmdTake_within s (ctxA c 0) 1
  have hcode := htake.openCheckEq c
  generalize hv : s.cmdTake (ctxA c 0) 1 = v at htake hcode
  have htakes : Takes (ctxA c 0) 1 s v := hv ▸ s.cmdTake_takes (ctxA c 0) 1
  have hfree : ¬ (!(s.cmdWord (ctxA c 0)).getLsbD 1 && s.prepared 8) = true := by rw [hb, hp]; decide
  have hone : ¬ (s.cmdWord (ctxA c 0)).getLsbD 1 = true := by rw [hb]; exact Bool.false_ne_true
  have hset := State.setBit_within (v.modCtx c (fun k => { k with err := BitVec.ofNat 4 (v.openCheck c) })) (ctxA c 0x28) 3
  have hstep := (CtxStep.modCtx c v (fun k => { k with err := BitVec.ofNat 4 (v.openCheck c) })).trans (CtxStep.setBit c _ 3)
  have hexec : exec (.strmOpen c) s =
      .next ((v.modCtx c (fun k => { k with err := BitVec.ofNat 4 (v.openCheck c) })).setBit (ctxA c 0x28) 3) := by
    show execStrmOpen c s = _
    rw [execStrmOpen, guarded_next hu, ← hv]
    exact congrArg Host.Outcome.next ((if_neg hfree).trans ((if_neg hone).trans (if_pos (by rw [hv, hcode]; exact hc))))
  refine ⟨_, hexec, ?_, fun d hd => (hstep.others d hd).trans (htake.ctxEq d), hstep.pool.trans htake.poolEq,
    (htakes.then (State.modCtx_within v c _)).then hset, ?_, ((htake.flagsBut _).trans hstep.flags),
    ((htake.mono (by decide)).step (State.modCtx_within v c _) (by decide)).step hset (by decide)⟩
  · rw [hset.ctxEq, State.modCtx_ctxs_self, htake.ctxEq, hcode]
  · rw [State.flag_setBit_self _ _ (ctxA_not_pend c 0x28)]
    exact congrArg (· ||| bit32 3) (htake.flagEq (ctxA c 0x28))

/-- Units leave the pool. -/
def State.poolTaken (s : State) (n : Nat) : State := { s with host := { s.host with poolFree := s.host.poolFree.drop n } }

theorem State.poolTaken_ctxs (s : State) (n : Nat) : (s.poolTaken n).host.ctxs = s.host.ctxs := rfl
theorem State.poolTaken_poolFree (s : State) (n : Nat) : (s.poolTaken n).host.poolFree = s.host.poolFree.drop n := rfl
theorem State.poolTaken_within (s : State) (n : Nat) : Within [.host] s (s.poolTaken n) := Within.set_host s _ rfl rfl rfl

/-- The fields of OPEN act, and its units leave the pool (R384). -/
def State.opensWith (s : State) (c : Ctx) : State := (s.applyOpen c).poolTaken ((s.applyOpen c).effF (ctxA c 4) 8 0)

/-- The context is OPEN, before its low water is judged. -/
def State.opensCtx (s : State) (c : Ctx) : State :=
  (s.opensWith c).modCtx c (fun k => { state := .opened, err := k.err, units := (s.applyOpen c).host.poolFree.take ((s.applyOpen c).effF (ctxA c 4) 8 0) })

theorem State.applyOpen_effW (s : State) (c : Ctx) : (s.applyOpen c).effW (ctxA c 4) = s.settledW (ctxA c 4) := by
  have hword : ∀ (u : State) (off : Nat), off ≠ 4 → (u.applyDue (ctxA c off) (~~~0)).effW (ctxA c 4) = u.effW (ctxA c 4) :=
    fun u off h => u.effW_applyDue_other _ fun e => h (Nat.add_left_cancel e).symm
  show (((((s.applyDue (ctxA c 4) (~~~0)).applyDue (ctxA c 8) (~~~0)).applyDue (ctxA c 0xC) (~~~0)).applyDue (ctxA c 0x10) (~~~0)).applyDue
    (ctxA c 0x14) (~~~0)).effW (ctxA c 4) = _
  rw [hword _ 0x14 (by decide), hword _ 0x10 (by decide), hword _ 0xC (by decide), hword _ 8 (by decide), State.effW_applyDue_self, merge_all]

theorem State.applyOpen_ring (s : State) (c : Ctx) : (s.applyOpen c).effF (ctxA c 4) 8 0 = fld (s.settledW (ctxA c 4)) 8 0 := by
  rw [State.effF, State.applyOpen_effW]

theorem State.opensWith_within (s : State) (c : Ctx) : Within [.eff, .host] s (s.opensWith c) :=
  ((State.applyOpen_within s c).mono (by decide)).step (State.poolTaken_within _ _) (by decide)

theorem State.applyOpen_host (s : State) (c : Ctx) : (s.applyOpen c).host = s.host := (State.applyOpen_within s c).hostEq

theorem State.opensWith_ctxs (s : State) (c : Ctx) : (s.opensWith c).host.ctxs = s.host.ctxs := by
  rw [State.opensWith, State.poolTaken_ctxs, State.applyOpen_host]

theorem State.opensCtx_ctx (s : State) (c : Ctx) : (s.opensCtx c).host.ctxs[c] =
    { state := .opened, err := s.host.ctxs[c].err, units := s.host.poolFree.take (fld (s.settledW (ctxA c 4)) 8 0) } := by
  rw [State.opensCtx, State.modCtx_ctxs_self, s.opensWith_ctxs, State.applyOpen_ring, State.applyOpen_host]

theorem State.opensCtx_others (s : State) (c : Ctx) : CtxBut c s (s.opensCtx c) := fun d hd => by
  rw [State.opensCtx, State.modCtx_ctxs_other _ c _ d hd, s.opensWith_ctxs]

theorem State.opensCtx_pool (s : State) (c : Ctx) : (s.opensCtx c).host.poolFree = s.host.poolFree.drop (fld (s.settledW (ctxA c 4)) 8 0) := by
  rw [State.opensCtx, State.modCtx_poolFree, State.opensWith, State.poolTaken_poolFree, State.applyOpen_host, State.applyOpen_ring]

theorem State.opensCtx_within (s : State) (c : Ctx) : Within [.eff, .host] s (s.opensCtx c) :=
  (s.opensWith_within c).step (State.modCtx_within _ c _) (by decide)

theorem strmOpen_opens {s : State} (hu : s.undef = false) (c : Ctx) (hb : (s.cmdWord (ctxA c 0)).getLsbD 1 = false)
    (hp : s.prepared 8 = false) (hc : s.openCheck c = 0) : Gives (.strmOpen c) s (fun t =>
      t.host.ctxs[c].state = .opened ∧ t.host.ctxs[c].units = s.host.poolFree.take (fld (s.settledW (ctxA c 4)) 8 0) ∧
      t.host.ctxs[c].head = 0 ∧ t.host.ctxs[c].tail = 0 ∧ t.host.ctxs[c].landed = 0 ∧ t.host.ctxs[c].descs = [] ∧
      t.host.ctxs[c].err = s.host.ctxs[c].err ∧ t.host.poolFree = s.host.poolFree.drop (fld (s.settledW (ctxA c 4)) 8 0) ∧ CtxBut c s t ∧
      (t.flag (ctxA c 0x28)).getLsbD 4 = true ∧ FlagsBut [ctxA c 0x28] s t ∧ Takes (ctxA c 0) 1 s t ∧
      t.effW (ctxA c 4) = s.settledW (ctxA c 4) ∧ Within [.eff, .flg, .ctr, .cmd, .more, .host, .msix] s t) := by
  have htake := State.cmdTake_within s (ctxA c 0) 1
  have hcode := htake.openCheckEq c
  have htakes := s.cmdTake_takes (ctxA c 0) 1
  have hfree : ¬ (!(s.cmdWord (ctxA c 0)).getLsbD 1 && s.prepared 8) = true := by rw [hb, hp]; decide
  have hone : ¬ (s.cmdWord (ctxA c 0)).getLsbD 1 = true := by rw [hb]; exact Bool.false_ne_true
  have hexec : exec (.strmOpen c) s = .next ((((s.cmdTake (ctxA c 0) 1).opensCtx c).setBit (ctxA c 0x28) 4).lowWater c) := by
    have hpass : ¬ (s.cmdTake (ctxA c 0) 1).openCheck c ≠ 0 := fun h => h (hcode.trans hc)
    show execStrmOpen c s = _
    rw [execStrmOpen, guarded_next hu]
    exact congrArg Host.Outcome.next ((if_neg hfree).trans ((if_neg hone).trans (if_neg hpass)))
  generalize s.cmdTake (ctxA c 0) 1 = v at htake hexec htakes
  have hring : v.settledW (ctxA c 4) = s.settledW (ctxA c 4) := State.settledW_congr htake.cfgEq htake.wasEq (congrArg Clock.now htake.clkEq) _
  have hset := State.setBit_within (v.opensCtx c) (ctxA c 0x28) 4
  have hlow := State.lowWater_step ((v.opensCtx c).setBit (ctxA c 0x28) 4) c
  have hloww := State.lowWater_within ((v.opensCtx c).setBit (ctxA c 0x28) 4) c
  obtain ⟨armed, hctx⟩ := State.lowWater_ctx ((v.opensCtx c).setBit (ctxA c 0x28) 4) c
  rw [hset.ctxEq, State.opensCtx_ctx, hring, htake.hostEq] at hctx
  have hpool := v.opensCtx_pool c
  rw [hring, htake.hostEq] at hpool
  refine ⟨_, hexec, by rw [hctx], by rw [hctx], by rw [hctx], by rw [hctx], by rw [hctx], by rw [hctx], by rw [hctx],
    hlow.pool.trans (hset.poolEq.trans hpool), fun d hd => ?_, ?_, ?_, ?_, ?_,
    (((htake.mono (by decide)).step (v.opensCtx_within c) (by decide)).step hset (by decide)).step hloww (by decide)⟩
  · exact (hlow.others d hd).trans ((hset.ctxEq d).trans ((v.opensCtx_others c d hd).trans (htake.ctxEq d)))
  · exact hlow.keeps 4 (State.flagBit_setBit _ (ctxA_not_pend c 0x28) (by decide))
  · exact (((htake.flagsBut _).trans ((v.opensCtx_within c).flagsBut _)).setBit 4 (List.mem_singleton_self _)).trans hlow.flags
  · exact ((htakes.then (v.opensCtx_within c)).then hset).then hloww
  · have hopens : Within [.host] (v.applyOpen c) (v.opensCtx c) := (State.poolTaken_within _ _).step (State.modCtx_within _ c _) (by decide)
    rw [State.effW_congr hloww.effEq, State.effW_congr hset.effEq, State.effW_congr hopens.effEq, State.applyOpen_effW, hring]

/-! ### CLOSE -/

/-- The context as CLOSE leaves it, with the loose units that it frees. -/
def Stream.closesWith (loose : Nat) (k : Stream) : Stream :=
  { k with state := .closing, lastPiece := if k.state = .opened then k.descs.head? else none, descs := [], badDesc := 0, passed := []
           released := k.released + BitVec.ofNat 32 loose }

/-- The context as CLOSE leaves it while objects of it are held (R394). -/
def Stream.closes (k : Stream) : Stream := k.closesWith (k.landed - BitVec.ofNat 32 k.taken).toInt.toNat

theorem State.modCtx_congr (s : State) {c : Ctx} {f g : Stream → Stream} (h : f s.host.ctxs[c] = g s.host.ctxs[c]) :
    s.modCtx c f = s.modCtx c g := by rw [State.modCtx, h, State.modCtx]

theorem exec_strmClose {s : State} (hu : s.undef = false) (c : Ctx) (h : s.host.ctxs[c].state = .opened ∨ s.host.ctxs[c].state = .error) :
    exec (.strmClose c) s = .next (((s.cmdTake (ctxA c 0) 3).modCtx c Stream.closes).ctxCloseIfDone c) := by
  have hopen : (s.cmdTake (ctxA c 0) 3).host.ctxs[c].state = .opened ∨ (s.cmdTake (ctxA c 0) 3).host.ctxs[c].state = .error := by
    rw [(State.cmdTake_within s _ _).ctxEq]
    exact h
  have hcloses : (s.cmdTake (ctxA c 0) 3).modCtx c Stream.closes = (s.cmdTake (ctxA c 0) 3).modCtx c (Stream.closesWith
      ((s.cmdTake (ctxA c 0) 3).host.ctxs[c].landed - BitVec.ofNat 32 (s.cmdTake (ctxA c 0) 3).host.ctxs[c].taken).toInt.toNat) :=
    State.modCtx_congr _ rfl
  show execStrmClose c s = _
  rw [execStrmClose, guarded_next hu, hcloses]
  exact congrArg Host.Outcome.next (if_pos hopen)

theorem strmClose_waits {s : State} (hu : s.undef = false) (c : Ctx) (h : s.host.ctxs[c].state = .opened ∨ s.host.ctxs[c].state = .error)
    (ho : s.host.ctxs[c].objs ≠ []) : Gives (.strmClose c) s (fun t => t.host.ctxs[c] = s.host.ctxs[c].closes ∧ CtxBut c s t ∧
      Takes (ctxA c 0) 3 s t ∧ t.host.poolFree = s.host.poolFree ∧ Within [.cmd, .more, .host] s t) := by
  have htake := State.cmdTake_within s (ctxA c 0) 3
  have htakes := s.cmdTake_takes (ctxA c 0) 3
  have hexec := exec_strmClose hu c h
  generalize s.cmdTake (ctxA c 0) 3 = v at htake htakes hexec
  have hctx : (v.modCtx c Stream.closes).host.ctxs[c] = s.host.ctxs[c].closes := by rw [State.modCtx_ctxs_self, htake.ctxEq]
  have hstay : (v.modCtx c Stream.closes).ctxCloseIfDone c = v.modCtx c Stream.closes := by
    refine if_neg fun hd => ho ?_
    rw [hctx] at hd
    exact hd.2
  exact ⟨_, hexec.trans (congrArg _ hstay), hctx, fun d hd => (v.modCtx_ctxs_other c _ d hd).trans (htake.ctxEq d),
    htakes.then (State.modCtx_within v c _), htake.poolEq, (htake.mono (by decide)).step (State.modCtx_within v c _) (by decide)⟩

theorem State.ctxClear_ctxs_self (s : State) (c : Ctx) : (s.ctxClear c).host.ctxs[c] = { err := s.host.ctxs[c].err } :=
  (s.modCtx_ctxs_self c (fun _ => { err := s.host.ctxs[c].err }) :)

theorem State.ctxClear_ctxs_other (s : State) (c : Ctx) : CtxBut c s (s.ctxClear c) := fun d hd =>
  (s.modCtx_ctxs_other c (fun _ => { err := s.host.ctxs[c].err }) d hd :)

theorem State.ctxClear_poolFree (s : State) (c : Ctx) : (s.ctxClear c).host.poolFree = s.host.poolFree ++ s.host.ctxs[c].units := rfl

theorem strmClose_closes {s : State} (hu : s.undef = false) (c : Ctx) (h : s.host.ctxs[c].state = .opened ∨ s.host.ctxs[c].state = .error)
    (ho : s.host.ctxs[c].objs = []) : Gives (.strmClose c) s (fun t => t.host.ctxs[c] = { err := s.host.ctxs[c].err } ∧ CtxBut c s t ∧
      Takes (ctxA c 0) 3 s t ∧ t.host.poolFree = s.host.poolFree ++ s.host.ctxs[c].units ∧
      t.flag (ctxA c 0x28) = s.flag (ctxA c 0x28) ||| bit32 5 ∧ FlagsBut [ctxA c 0x28] s t ∧
      Within [.flg, .cmd, .more, .host, .msix] s t) := by
  have htake := State.cmdTake_within s (ctxA c 0) 3
  have htakes := s.cmdTake_takes (ctxA c 0) 3
  have hexec := exec_strmClose hu c h
  generalize s.cmdTake (ctxA c 0) 3 = v at htake htakes hexec
  have hmod := State.modCtx_within v c Stream.closes
  have hctx : (v.modCtx c Stream.closes).host.ctxs[c] = s.host.ctxs[c].closes := by rw [State.modCtx_ctxs_self, htake.ctxEq]
  have hothers : CtxBut c s (v.modCtx c Stream.closes) := fun d hd => (v.modCtx_ctxs_other c _ d hd).trans (htake.ctxEq d)
  have hpool : (v.modCtx c Stream.closes).host.poolFree = s.host.poolFree := htake.poolEq
  have hflag : ∀ a, (v.modCtx c Stream.closes).flag a = s.flag a := fun a => (hmod.flagEq a).trans (htake.flagEq a)
  have hw : Within [.cmd, .more, .host] s (v.modCtx c Stream.closes) := (htake.mono (by decide)).step hmod (by decide)
  generalize v.modCtx c Stream.closes = u at hexec hmod hctx hothers hpool hflag hw
  have hdone : u.ctxCloseIfDone c = (u.ctxClear c).setBit (ctxA c 0x28) 5 := if_pos (by rw [hctx]; exact ⟨rfl, ho⟩)
  have hset := State.setBit_within (u.ctxClear c) (ctxA c 0x28) 5
  have hclear := State.ctxClear_within u c
  refine ⟨_, hexec.trans (congrArg _ hdone), ?_, fun d hd => ?_, (((htakes.then hmod).then hclear).then hset), ?_, ?_, ?_,
    ((hw.mono (by decide)).step hclear (by decide)).step hset (by decide)⟩
  · rw [hset.ctxEq, State.ctxClear_ctxs_self, hctx]
    rfl
  · exact (hset.ctxEq d).trans ((u.ctxClear_ctxs_other c d hd).trans (hothers d hd))
  · rw [hset.poolEq, State.ctxClear_poolFree, hctx, hpool]
    rfl
  · rw [State.flag_setBit_self _ _ (ctxA_not_pend c 0x28), hclear.flagEq, hflag]
  · exact FlagsBut.setBit (fun a _ _ => (hclear.flagEq a).trans (hflag a)) 5 (List.mem_singleton_self _)

theorem strmClose_drops {s : State} (hu : s.undef = false) (c : Ctx) (h : s.host.ctxs[c].state = .closed ∨ s.host.ctxs[c].state = .closing) :
    Gives (.strmClose c) s (fun t => Takes (ctxA c 0) 3 s t ∧ t.flag (ctxA c 0x28) = s.flag (ctxA c 0x28) ||| bit32 6 ∧
      FlagsBut [ctxA c 0x28] s t ∧ Within [.flg, .cmd, .more, .msix] s t) := by
  have htake := State.cmdTake_within s (ctxA c 0) 3
  have hset := State.setBit_within (s.cmdTake (ctxA c 0) 3) (ctxA c 0x28) 6
  have hshut : ¬ ((s.cmdTake (ctxA c 0) 3).host.ctxs[c].state = .opened ∨ (s.cmdTake (ctxA c 0) 3).host.ctxs[c].state = .error) := by
    rw [htake.ctxEq]
    rcases h with h | h <;> rw [h] <;> decide
  refine gives_branch hu rfl (if_neg hshut) ⟨(s.cmdTake_takes _ 3).then hset, ?_, (htake.flagsBut _).setBit 6 (List.mem_singleton_self _),
    (htake.mono (by decide)).step hset (by decide)⟩
  rw [State.flag_setBit_self _ _ (ctxA_not_pend c 0x28), htake.flagEq]

/-! ### TAIL and descriptors -/

/-- How many descriptors a TAIL names. -/
def State.tailNames (s : State) (c : Ctx) (v : BitVec 16) : Nat :=
  (v.toNat % s.descCount c + s.descCount c - s.host.ctxs[c].head.toNat % s.descCount c) % s.descCount c

theorem strmTailWrite_bad {s : State} (hu : s.undef = false) (c : Ctx) (v : BitVec 16) (h : s.tailNames c v < s.owned c) :
    Gives (.strmTailWrite c v) s (fun t => t.flag (ctxA c 0x28) = s.flag (ctxA c 0x28) ||| bit32 7 ∧ FlagsBut [ctxA c 0x28] s t ∧
      Within [.flg, .msix] s t) :=
  gives_branch hu rfl (if_pos h) ⟨s.flag_setBit_self 7 (ctxA_not_pend c 0x28), (CtxStep.setBit c s 7).flags, State.setBit_within s _ 7⟩

theorem strmTailWrite_moves {s : State} (hu : s.undef = false) (c : Ctx) (v : BitVec 16) (h : s.owned c ≤ s.tailNames c v) :
    Gives (.strmTailWrite c v) s (fun t =>
      t.host.ctxs[c] = { s.host.ctxs[c] with tail := BitVec.ofNat 16 (v.toNat % s.descCount c) } ∧ CtxBut c s t ∧ Within [.host] s t) :=
  gives_branch hu rfl (if_neg (Nat.not_lt.2 h)) ⟨s.modCtx_ctxs_self c _, s.modCtx_ctxs_other c _, State.modCtx_within s c _⟩

/-- A context that has gone into ERROR (R392). -/
def CtxFailed (c : Ctx) (why : Nat) (s t : State) : Prop :=
  t.host.ctxs[c] = { s.host.ctxs[c] with state := .error, err := BitVec.ofNat 4 why, descs := [], badDesc := 0, pieceDone := 0 } ∧
    CtxBut c s t ∧ t.flag (ctxA c 0x28) = s.flag (ctxA c 0x28) ||| bit32 2 ∧ FlagsBut [ctxA c 0x28] s t ∧ Within [.flg, .host, .msix] s t

theorem State.ctxError_failed (s : State) (c : Ctx) (why : Nat) : CtxFailed c why s (s.ctxError c why) := by
  have hset : Within [.flg, .msix] (s.modCtx c (fun k => { k with
    state := .error, err := BitVec.ofNat 4 why, descs := [], badDesc := 0, pieceDone := 0 })) (s.ctxError c why) := State.setBit_within _ _ 2
  have hstep : CtxStep c s (s.ctxError c why) := (CtxStep.modCtx c s _).trans (CtxStep.setBit c _ 2)
  refine ⟨?_, hstep.others, State.flag_setBit_self _ 2 (ctxA_not_pend c 0x28), hstep.flags, State.ctxError_within s c why⟩
  rw [hset.ctxEq, State.modCtx_ctxs_self]

theorem streamDmaError_fails {s : State} (hu : s.undef = false) (c : Ctx) (e : Fin 4) (h : s.host.ctxs[c].state = .opened) :
    Gives (.streamDmaError c e) s (CtxFailed c (5 + e.val) s) :=
  gives_branch hu rfl (if_pos h) (s.ctxError_failed c _)

theorem streamDmaError_stays {s : State} (hu : s.undef = false) (c : Ctx) (e : Fin 4) (h : s.host.ctxs[c].state ≠ .opened) :
    Gives (.streamDmaError c e) s (fun t => t = s) := gives_branch hu rfl (if_neg h) rfl

theorem goodDescs_code (l : List Descriptor) : (goodDescs l).2 < 16 := by
  induction l with
  | nil => decide
  | cons d r ih =>
    unfold goodDescs
    split
    · unfold descCheck
      split
      · decide
      split
      · decide
      split <;> decide
    · exact ih

/-- The descriptors that a fetch takes, and the code of the bad one that follows them. -/
def State.fetched (s : State) (c : Ctx) (read : DescRead) : List Descriptor × Nat :=
  goodDescs (descsOf (min (min 16 (min (s.owned c - s.host.ctxs[c].descs.length) (s.descCount c - s.descNext c)))
    (read.bytes.length / 16)) read.bytes)

/-- A fetch reads at the address of the next descriptor. -/
def State.fetches (s : State) (c : Ctx) (read : DescRead) : Prop :=
  s.host.ctxs[c].state = .opened ∧ s.dmaOn = true ∧ s.host.ctxs[c].badDesc = 0 ∧ read.addr = s.descAddr c (s.descNext c)

theorem State.fetches_iff (s : State) (c : Ctx) (read : DescRead) :
    (s.host.ctxs[c].state ≠ .opened ∨ (!s.dmaOn) = true ∨ s.host.ctxs[c].badDesc ≠ 0 ∨ read.addr ≠ s.descAddr c (s.descNext c)) ↔
      ¬ s.fetches c read := by
  simp only [State.fetches, Bool.not_eq_true', not_and_or, Bool.not_eq_true, ne_eq]

theorem descFetch_stays {s : State} (hu : s.undef = false) (c : Ctx) (read : DescRead) (h : ¬ s.fetches c read) :
    Gives (.descFetch c read) s (fun t => t = s) := gives_branch hu rfl (if_pos ((s.fetches_iff c read).2 h)) rfl

/-- The descriptors of a fetch are in their context. -/
def State.fetchTaken (s : State) (c : Ctx) (read : DescRead) : State :=
  s.modCtx c (fun k => { k with descs := k.descs ++ (s.fetched c read).1, badDesc := BitVec.ofNat 4 (s.fetched c read).2 })

theorem exec_descFetch {s : State} (hu : s.undef = false) (c : Ctx) (read : DescRead) (h : s.fetches c read) :
    exec (.descFetch c read) s = .next ((s.fetchTaken c read).ctxBad c) := by
  show execDescFetch c read s = _
  rw [execDescFetch, guarded_next hu]
  exact congrArg Host.Outcome.next (if_neg fun hn => (s.fetches_iff c read).1 hn h)

theorem State.fetchTaken_ctx (s : State) (c : Ctx) (read : DescRead) : (s.fetchTaken c read).host.ctxs[c] =
    { s.host.ctxs[c] with descs := s.host.ctxs[c].descs ++ (s.fetched c read).1, badDesc := BitVec.ofNat 4 (s.fetched c read).2 } :=
  s.modCtx_ctxs_self c _

theorem State.fetched_code (s : State) (c : Ctx) (read : DescRead) :
    (BitVec.ofNat 4 (s.fetched c read).2).toNat = (s.fetched c read).2 := by
  rw [BitVec.toNat_ofNat, Nat.mod_eq_of_lt (show (s.fetched c read).2 < 2 ^ 4 from goodDescs_code _)]

theorem descFetch_takes {s : State} (hu : s.undef = false) (c : Ctx) (read : DescRead) (h : s.fetches c read)
    (hx : (s.fetched c read).2 = 0 ∨ s.host.ctxs[c].descs ++ (s.fetched c read).1 ≠ []) : Gives (.descFetch c read) s (fun t =>
      t.host.ctxs[c] = { s.host.ctxs[c] with
        descs := s.host.ctxs[c].descs ++ (s.fetched c read).1, badDesc := BitVec.ofNat 4 (s.fetched c read).2 } ∧
      CtxBut c s t ∧ Within [.host] s t) := by
  have hgood : (s.fetchTaken c read).ctxBad c = s.fetchTaken c read := by
    refine if_neg fun hb => ?_
    rw [State.fetchTaken_ctx] at hb
    refine hx.elim (fun h0 => hb.1 ?_) fun hd => hd hb.2
    rw [h0]
    rfl
  exact ⟨_, (exec_descFetch hu c read h).trans (congrArg _ hgood), s.fetchTaken_ctx c read, s.modCtx_ctxs_other c _, State.modCtx_within s c _⟩

theorem descFetch_fails {s : State} (hu : s.undef = false) (c : Ctx) (read : DescRead) (h : s.fetches c read)
    (hx : (s.fetched c read).2 ≠ 0) (hd : s.host.ctxs[c].descs ++ (s.fetched c read).1 = []) :
    Gives (.descFetch c read) s (CtxFailed c (s.fetched c read).2 s) := by
  have hctx := s.fetchTaken_ctx c read
  have hbad : (s.fetchTaken c read).ctxBad c = (s.fetchTaken c read).ctxError c (s.fetched c read).2 := by
    have hcond : (s.fetchTaken c read).host.ctxs[c].badDesc ≠ 0 ∧ (s.fetchTaken c read).host.ctxs[c].descs = [] := by
      rw [hctx]
      refine ⟨fun h0 => hx ?_, hd⟩
      rw [← s.fetched_code c read]
      exact congrArg BitVec.toNat h0
    have hcode : (s.fetchTaken c read).host.ctxs[c].badDesc.toNat = (s.fetched c read).2 := by
      rw [hctx]
      exact s.fetched_code c read
    rw [← hcode]
    exact if_pos hcond
  obtain ⟨hfail, hothers, hflag, hflags, hw⟩ := (s.fetchTaken c read).ctxError_failed c (s.fetched c read).2
  have hmod : Within [.host] s (s.fetchTaken c read) := State.modCtx_within s c _
  refine ⟨_, (exec_descFetch hu c read h).trans (congrArg _ hbad), ?_, fun d hne => ?_, ?_, ?_, (hmod.mono (by decide)).step hw (by decide)⟩
  · rw [hfail, hctx]
  · exact (hothers d hne).trans (s.modCtx_ctxs_other c _ d hne)
  · rw [hflag, hmod.flagEq]
  · exact (hmod.flagsBut _).trans hflags

end Sys2Proof.Machine
end

