-- ==== Sys2Proof/Proofs/StreamPieces.lean ====
section
/-! PROOF. The pieces of a stream: their landing in the ring and what completes with them (R336, R340, R350, R387 to R394; O54). -/
namespace Sys2Proof.Machine

/-! ### Ring units -/

theorem State.ringAddr_congr {s t : State} (hc : t.host.ctxs = s.host.ctxs) (hp : t.dram.part = s.dram.part) (c : Ctx) (pos : Nat) :
    t.ringAddr c pos = s.ringAddr c pos := by
  unfold State.ringAddr State.dramPart
  rw [hc, hp]

theorem State.ringAddr_aligned (s : State) (c : Ctx) (pos : Nat) : s.ringAddr c pos / 64 * 64 = s.ringAddr c pos := by
  unfold State.ringAddr
  dsimp only
  omega

/-- Units that are written change no byte outside them. -/
theorem ringWrite_byte_other (c : Ctx) (a : Nat) : ∀ (n pos : Nat) (s : State) (l : List Byte),
    (∀ i : Nat, i < n → a < s.ringAddr c (pos + i) ∨ s.ringAddr c (pos + i) + 64 ≤ a) → (ringWrite s c n pos l).dramByte a = s.dramByte a
  | 0, _, _, _, _ => rfl
  | n + 1, pos, s, l, h => by
    have hsame : ∀ q, (s.dramWrite (s.ringAddr c pos) ((l.take 64).map some)).ringAddr c q = s.ringAddr c q := fun _ => rfl
    have hrest := ringWrite_byte_other c a n (pos + 1) (s.dramWrite (s.ringAddr c pos) ((l.take 64).map some)) (l.drop 64)
      (fun i hi => by rw [hsame, Nat.add_assoc, Nat.add_comm 1 i]; exact h (i + 1) (Nat.succ_lt_succ hi))
    refine hrest.trans (State.dramWrite_byte_other s ?_)
    have hfirst := h 0 (Nat.succ_pos n)
    rw [Nat.add_zero] at hfirst
    have hlen : ((l.take 64).map some).length ≤ 64 := by rw [List.length_map, List.length_take]; exact Nat.min_le_left _ _
    omega

theorem ringWrite_one (s : State) (c : Ctx) (pos : Nat) (l : List Byte) {i : Nat} (hi : i < 64) (hl : 64 ≤ l.length) :
    some ((ringWrite s c 1 pos l).dramByte (s.ringAddr c pos + i)) = l[i]? := by
  have hb : l[i]? = some l[i] := List.getElem?_eq_getElem (by omega)
  have hput : (ringWrite s c 1 pos l).dramByte (s.ringAddr c pos + i) = l[i] := by
    refine State.dramWrite_byte s ?_
    rw [List.getElem?_map, List.getElem?_take, if_pos hi, hb]
    rfl
  rw [hput, hb]

/-! ### The bytes of a piece -/

/-- The accesses that a piece of n units makes, with what the EDC says of each. -/
def State.pieceAccesses (s : State) (c : Ctx) (n : Nat) (p : Piece) : List (Nat × EdcOutcome) :=
  withEdc ((List.range n).map (fun i => s.ringAddr c (s.host.ctxs[c].landed.toNat + i) / 64)) p.edc

/-- The units of a piece are in the ring, and those whose writes escape are undefined. -/
def State.pieceStored (s : State) (c : Ctx) (n : Nat) (p : Piece) : State :=
  (ringWrite (s.hostAccesses (s.pieceAccesses c n p)) c n s.host.ctxs[c].landed.toNat p.bytes).writeEscapes
    (escapesOf (s.pieceAccesses c n p))

theorem State.pieceStored_within (s : State) (c : Ctx) (n : Nat) (p : Piece) :
    Within [.flg, .ctr, .dram, .bytes, .msix, .flt, .freeN] s (s.pieceStored c n p) :=
  (((State.hostAccesses_within s _).mono (by decide)).step (ringWrite_within _ c n _ _) (by decide)).step
    (State.writeEscapes_within _ _) (by decide)

theorem State.hostAccesses_ringAddr (s : State) (acc : List (Nat × EdcOutcome)) (c : Ctx) (pos : Nat) :
    (s.hostAccesses acc).ringAddr c pos = s.ringAddr c pos :=
  State.ringAddr_congr (State.hostAccesses_within s acc).ctxsEq (SameStatus.hostAccesses s acc).part c pos

/-- An access of a piece that escapes is to one of its units. -/
theorem State.pieceEscape_unit {s : State} {c : Ctx} {n : Nat} {p : Piece} {x : Nat} (h : x ∈ escapesOf (s.pieceAccesses c n p)) :
    ∃ i, i < n ∧ x = s.ringAddr c (s.host.ctxs[c].landed.toNat + i) := by
  obtain ⟨y, hy, rfl⟩ := List.mem_map.1 h
  have hunit := List.mem_map_of_mem (f := Prod.fst) (List.mem_of_mem_filter hy)
  rw [State.pieceAccesses, withEdc_units] at hunit
  obtain ⟨i, hi, he⟩ := List.mem_map.1 hunit
  exact ⟨i, List.mem_range.1 hi, by rw [← he]; exact s.ringAddr_aligned c _⟩

theorem State.pieceStored_byte_other {s : State} {c : Ctx} {n : Nat} {p : Piece} {a : Nat}
    (h : ∀ i : Nat, i < n → a < s.ringAddr c (s.host.ctxs[c].landed.toNat + i) ∨ s.ringAddr c (s.host.ctxs[c].landed.toNat + i) + 64 ≤ a) :
    (s.pieceStored c n p).dramByte a = s.dramByte a := by
  have hescapes : (s.pieceStored c n p).dramByte a =
      (ringWrite (s.hostAccesses (s.pieceAccesses c n p)) c n s.host.ctxs[c].landed.toNat p.bytes).dramByte a := by
    refine State.smearEscapes_byte true 36 _ _ fun x hx e => ?_
    obtain ⟨i, hi, rfl⟩ := State.pieceEscape_unit hx
    rw [s.ringAddr_aligned] at e
    have hout := h i hi
    omega
  rw [hescapes, ringWrite_byte_other c a n _ _ _ (fun i hi => by rw [State.hostAccesses_ringAddr]; exact h i hi)]
  exact (State.hostAccesses_within s _).dramByteEq a

theorem State.pieceStored_one {s : State} {c : Ctx} {p : Piece} (he : escapesOf (s.pieceAccesses c 1 p) = []) (hl : 64 ≤ p.bytes.length)
    {i : Nat} (hi : i < 64) : some ((s.pieceStored c 1 p).dramByte (s.ringAddr c s.host.ctxs[c].landed.toNat + i)) = p.bytes[i]? := by
  have hput := ringWrite_one (s.hostAccesses (s.pieceAccesses c 1 p)) c s.host.ctxs[c].landed.toNat p.bytes hi hl
  rw [State.hostAccesses_ringAddr] at hput
  rw [State.pieceStored, he]
  exact hput

/-! ### The context of a piece -/

/-- The context once n units of a piece of some bytes have landed. -/
def Stream.pieceLands (k : Stream) (len n : Nat) : Stream := { k with pieceDone := k.pieceDone + len, lastPiece := none }.land n

theorem Stream.free_eq (k : Stream) (pos size : Nat) :
    k.free pos size = { k with released := (k.free pos size).released, passed := (k.free pos size).passed } := rfl

theorem Stream.land_eq (k : Stream) (n : Nat) : k.land n =
    { k with landed := k.landed + BitVec.ofNat 32 n, released := (k.land n).released, passed := (k.land n).passed } := by
  have hfold : ∀ (l : List (Nat × Nat)) (q : Stream), l.foldl (fun k x => k.free x.1 x.2) q =
      { q with released := (l.foldl (fun k x => k.free x.1 x.2) q).released, passed := (l.foldl (fun k x => k.free x.1 x.2) q).passed } := by
    intro l
    induction l with
    | nil => exact fun _ => rfl
    | cons x r ih =>
      intro q
      rw [List.foldl_cons, ih, q.free_eq]
  exact hfold k.passed _

/-- A piece has landed in its context. -/
def State.pieceTaken (s : State) (c : Ctx) (n : Nat) (p : Piece) : State :=
  (s.pieceStored c n p).modCtx c (fun k => k.pieceLands p.bytes.length n)

theorem State.pieceTaken_ctx (s : State) (c : Ctx) (n : Nat) (p : Piece) :
    (s.pieceTaken c n p).host.ctxs[c] = s.host.ctxs[c].pieceLands p.bytes.length n := by
  rw [State.pieceTaken, State.modCtx_ctxs_self, (s.pieceStored_within c n p).ctxEq]

theorem State.pieceTaken_within (s : State) (c : Ctx) (n : Nat) (p : Piece) :
    Within [.flg, .ctr, .dram, .bytes, .host, .msix, .flt, .freeN] s (s.pieceTaken c n p) :=
  ((s.pieceStored_within c n p).mono (by decide)).step (State.modCtx_within _ c _) (by decide)

/-! ### What completes -/

/-- The context whose oldest descriptor completes (R387). -/
def State.completedCtx (s : State) (c : Ctx) (k : Stream) : Stream :=
  { k with
    head := BitVec.ofNat 16 ((k.head.toNat + 1) % s.descCount c), descs := k.descs.tail, pieceDone := 0
    wbHead := if s.effB (ctxA c 4) 24 then
      some (s.hostAddr (ctxA c 0x10), (BitVec.ofNat 16 ((k.head.toNat + 1) % s.descCount c)).setWidth 32) else k.wbHead }

theorem State.completedCtx_congr {s t : State} (h : t.eff = s.eff) (c : Ctx) (k : Stream) : t.completedCtx c k = s.completedCtx c k := by
  unfold State.completedCtx State.descCount State.hostAddr State.effF State.effB State.effW
  rw [h]

theorem State.descComplete_eq (s : State) (c : Ctx) (d : Descriptor) :
    s.descComplete c d = (s.modCtx c (s.completedCtx c)).setBitIf (d.flags.getLsbD 31) (ctxA c 0x28) 1 := by
  have hsame : s.modCtx c (s.completedCtx c) = s.modCtx c (fun k => { k with
      head := BitVec.ofNat 16 ((s.host.ctxs[c].head.toNat + 1) % s.descCount c), descs := k.descs.tail, pieceDone := 0
      wbHead := if s.effB (ctxA c 4) 24 then
        some (s.hostAddr (ctxA c 0x10), (BitVec.ofNat 16 ((s.host.ctxs[c].head.toNat + 1) % s.descCount c)).setWidth 32)
        else k.wbHead }) := State.modCtx_congr s rfl
  rw [hsame]
  rfl

theorem State.descComplete_ctx (s : State) (c : Ctx) (d : Descriptor) : (s.descComplete c d).host.ctxs[c] = s.completedCtx c s.host.ctxs[c] := by
  rw [State.descComplete_eq, (State.setBitIf_within _ _ _ 1).ctxEq, State.modCtx_ctxs_self]

theorem State.descComplete_step (s : State) (c : Ctx) (d : Descriptor) : CtxStep c s (s.descComplete c d) := by
  rw [State.descComplete_eq]
  exact (CtxStep.modCtx c s _).trans (CtxStep.setBitIf c _ _ 1)

theorem State.descComplete_flag (s : State) (c : Ctx) {d : Descriptor} (h : d.flags.getLsbD 31 = true) :
    ((s.descComplete c d).flag (ctxA c 0x28)).getLsbD 1 = true := by
  rw [State.descComplete_eq]
  exact State.flagBit_setBitIf _ h (ctxA_not_pend c 0x28) (by decide)

theorem State.ctxError_step (s : State) (c : Ctx) (why : Nat) : CtxStep c s (s.ctxError c why) :=
  (CtxStep.modCtx c s _).trans (CtxStep.setBit c _ 2)

theorem State.ctxBad_step (s : State) (c : Ctx) : CtxStep c s (s.ctxBad c) := by
  unfold State.ctxBad
  dsimp only
  split
  · exact s.ctxError_step c _
  · exact CtxStep.refl c s

theorem State.ctxBad_good {s : State} {c : Ctx} (h : s.host.ctxs[c].badDesc = 0 ∨ s.host.ctxs[c].descs ≠ []) : s.ctxBad c = s :=
  if_neg fun hb => h.elim hb.1 fun hd => hd hb.2

theorem State.ctxBad_failed {s : State} {c : Ctx} (hb : s.host.ctxs[c].badDesc ≠ 0) (hd : s.host.ctxs[c].descs = []) :
    CtxFailed c s.host.ctxs[c].badDesc.toNat s (s.ctxBad c) := by
  have heq : s.ctxBad c = s.ctxError c s.host.ctxs[c].badDesc.toNat := if_pos ⟨hb, hd⟩
  rw [heq]
  exact s.ctxError_failed c _

/-! ### The command -/

/-- A piece can land, and its accesses can go (R387). -/
def State.pieceLands (s : State) (c : Ctx) (d : Descriptor) (p : Piece) : Prop :=
  0 < p.bytes.length ∧ p.bytes.length % 64 = 0 ∧ p.bytes.length ≤ 4096 ∧ s.host.ctxs[c].pieceDone + p.bytes.length ≤ d.len.toNat ∧
    s.host.ctxs[c].fill + p.bytes.length / 64 ≤ s.host.ctxs[c].ringUnits ∧
    s.hostGoes (s.pieceAccesses c (s.host.ctxs[c].takes (p.bytes.length / 64)) p) p.ready = true

theorem State.pieceLands_iff (s : State) (c : Ctx) (d : Descriptor) (p : Piece) (hm : s.dmaOn = true) (hr : s.dram.ready = true) :
    (!s.host.ctxs[c].fits d p.bytes.length || !s.dmaOn || !s.dram.ready ||
      !s.hostGoes (s.pieceAccesses c (s.host.ctxs[c].takes (p.bytes.length / 64)) p) p.ready) = false ↔ s.pieceLands c d p := by
  simp only [hm, hr, Stream.fits, State.pieceLands, Bool.not_true, Bool.or_false, Bool.or_eq_false_iff, Bool.not_eq_false',
    decide_eq_true_eq, and_assoc]

/-- What follows once a piece has landed: where its descriptor is complete with it, HEAD moves on, and a bad descriptor that follows is met. -/
def State.pieceEnds (s : State) (c : Ctx) (d : Descriptor) (n : Nat) (p : Piece) : State :=
  if n = p.bytes.length / 64 ∧ s.host.ctxs[c].pieceDone + p.bytes.length = d.len.toNat
  then ((s.pieceTaken c n p).descComplete c d).ctxBad c else s.pieceTaken c n p

theorem exec_pieceLand {s : State} (hu : s.undef = false) {c : Ctx} {d : Descriptor} {p : Piece} (hp : s.host.ctxs[c].pieceOf = some d)
    (hm : s.dmaOn = true) (hr : s.dram.ready = true) (hl : s.pieceLands c d p) :
    exec (.streamPieceLand c p) s = .next ((s.pieceEnds c d (s.host.ctxs[c].takes (p.bytes.length / 64)) p).lowWater c) := by
  have hgo := (s.pieceLands_iff c d p hm hr).2 hl
  show execStreamPieceLand c p s = _
  rw [execStreamPieceLand, guarded_next hu]
  simp only [hp]
  exact congrArg Host.Outcome.next (if_neg fun ht => Bool.false_ne_true (hgo.symm.trans ht))

theorem pieceLand_stays {s : State} (hu : s.undef = false) {c : Ctx} {d : Descriptor} {p : Piece} (hp : s.host.ctxs[c].pieceOf = some d)
    (hm : s.dmaOn = true) (hr : s.dram.ready = true) (hl : ¬ s.pieceLands c d p) :
    Gives (.streamPieceLand c p) s (fun t => t = s) := by
  have hstay := fun h => hl ((s.pieceLands_iff c d p hm hr).1 h)
  refine ⟨s, ?_, rfl⟩
  show execStreamPieceLand c p s = _
  rw [execStreamPieceLand, guarded_next hu]
  simp only [hp]
  exact congrArg Host.Outcome.next (if_pos (Bool.not_eq_false _ ▸ hstay))

theorem pieceLand_none {s : State} (hu : s.undef = false) {c : Ctx} {p : Piece}
    (h : s.host.ctxs[c].pieceOf = none ∨ s.dmaOn = false ∨ s.dram.ready = false) : Gives (.streamPieceLand c p) s (fun t => t = s) := by
  refine ⟨s, ?_, rfl⟩
  show execStreamPieceLand c p s = _
  rw [execStreamPieceLand, guarded_next hu]
  cases hp : s.host.ctxs[c].pieceOf with
  | none => simp only [hp]
  | some d =>
    simp only [hp]
    refine congrArg Host.Outcome.next (if_pos ?_)
    rcases h with h | h | h
    · exact absurd (hp.symm.trans h) (Option.some_ne_none d)
    · rw [h]; simp
    · rw [h]; simp

/-! ### What a landing leaves -/

/-- What a piece leaves outside the marks of its own context (R350, R387, R388). -/
def PieceLeaves (c : Ctx) (n : Nat) (p : Piece) (s t : State) : Prop :=
  (n = 1 → escapesOf (s.pieceAccesses c n p) = [] → ∀ i : Nat, i < 64 →
    some (t.dramByte (s.ringAddr c s.host.ctxs[c].landed.toNat + i)) = p.bytes[i]?) ∧
  (∀ x, (escapesOf (s.pieceAccesses c n p)).getLast? = some x → t.dram.escAddr = BitVec.ofNat 64 x ∧ t.dram.escWrite = true ∧
    (t.flag (drmA 0x24)).getLsbD 1 = true) ∧
  (∀ a, (∀ i : Nat, i < n → a < s.ringAddr c (s.host.ctxs[c].landed.toNat + i) ∨
    s.ringAddr c (s.host.ctxs[c].landed.toNat + i) + 64 ≤ a) → t.dramByte a = s.dramByte a) ∧
  CtxBut c s t ∧ t.host.poolFree = s.host.poolFree ∧ Within [.flg, .ctr, .dram, .bytes, .host, .msix, .flt, .freeN] s t

theorem State.pieceStored_leaves {s t : State} {c : Ctx} {n : Nat} {p : Piece} (hl : 64 ≤ p.bytes.length)
    (hstep : CtxStep c (s.pieceStored c n p) t) (hw : Within [.flg, .ctr, .host, .msix] (s.pieceStored c n p) t) :
    PieceLeaves c n p s t := by
  have hstored := s.pieceStored_within c n p
  refine ⟨fun hn he i hi => ?_, fun x hx => ?_, fun a ha => ?_, fun d hd => (hstep.others d hd).trans (hstored.ctxEq d),
    hstep.pool.trans hstored.poolEq, (hstored.mono (by decide)).step hw (by decide)⟩
  · subst hn
    rw [hw.dramByteEq]
    exact State.pieceStored_one he hl hi
  · obtain ⟨haddr, hwrite, hflag⟩ := writeEscapes_last hx
      (ringWrite (s.hostAccesses (s.pieceAccesses c n p)) c n s.host.ctxs[c].landed.toNat p.bytes)
    have hne : drmA 0x24 ∉ [ctxA c 0x28] := fun h => by
      have he := List.mem_singleton.1 h
      unfold drmA ctxA at he
      omega
    rw [hw.dramEq]
    exact ⟨haddr, hwrite, by rw [hstep.flags _ hne (by decide)]; exact hflag⟩
  · rw [hw.dramByteEq]
    exact State.pieceStored_byte_other ha

theorem State.lowWater_keeps (s : State) (c : Ctx) : (s.lowWater c).host.ctxs[c] =
    { s.host.ctxs[c] with lowArmed := (s.lowWater c).host.ctxs[c].lowArmed } := by
  obtain ⟨b, hb⟩ := s.lowWater_ctx c
  rw [hb]

theorem State.pieceEnds_step (s : State) (c : Ctx) (d : Descriptor) (n : Nat) (p : Piece) :
    CtxStep c (s.pieceStored c n p) ((s.pieceEnds c d n p).lowWater c) := by
  refine CtxStep.trans ?_ (State.lowWater_step _ c)
  have htaken : CtxStep c (s.pieceStored c n p) (s.pieceTaken c n p) := CtxStep.modCtx c _ _
  unfold State.pieceEnds
  split
  · exact (htaken.trans (State.descComplete_step _ c d)).trans (State.ctxBad_step _ c)
  · exact htaken

theorem State.pieceEnds_within (s : State) (c : Ctx) (d : Descriptor) (n : Nat) (p : Piece) :
    Within [.flg, .ctr, .host, .msix] (s.pieceStored c n p) ((s.pieceEnds c d n p).lowWater c) := by
  refine Within.step ?_ (State.lowWater_within _ c) (by decide)
  have htaken : Within [.flg, .ctr, .host, .msix] (s.pieceStored c n p) (s.pieceTaken c n p) := (State.modCtx_within _ c _).mono (by decide)
  unfold State.pieceEnds
  split
  · exact (htaken.step (State.descComplete_within _ c d) (by decide)).step (State.ctxBad_within _ c) (by decide)
  · exact htaken

/-- The context of a landed piece, but for what an end of its descriptor moves. -/
theorem State.pieceTaken_marks (s : State) (c : Ctx) (n : Nat) (p : Piece) : ∃ released passed, (s.pieceTaken c n p).host.ctxs[c] =
    { s.host.ctxs[c] with
      pieceDone := s.host.ctxs[c].pieceDone + p.bytes.length, lastPiece := none, landed := s.host.ctxs[c].landed + BitVec.ofNat 32 n
      released := released, passed := passed } := by
  rw [State.pieceTaken_ctx, Stream.pieceLands, Stream.land_eq]
  exact ⟨_, _, rfl⟩

/-- The context once its descriptor has completed with the piece. -/
theorem State.pieceCompleted_marks (s : State) (c : Ctx) (d : Descriptor) (n : Nat) (p : Piece) : ∃ released passed,
    ((s.pieceTaken c n p).descComplete c d).host.ctxs[c] = s.completedCtx c { s.host.ctxs[c] with
      pieceDone := s.host.ctxs[c].pieceDone + p.bytes.length, lastPiece := none, landed := s.host.ctxs[c].landed + BitVec.ofNat 32 n
      released := released, passed := passed } := by
  obtain ⟨released, passed, hmarks⟩ := s.pieceTaken_marks c n p
  refine ⟨released, passed, ?_⟩
  rw [State.descComplete_ctx, State.completedCtx_congr (s.pieceTaken_within c n p).effEq, hmarks]

theorem State.pieceEnds_waits {s : State} {c : Ctx} {d : Descriptor} {n : Nat} {p : Piece}
    (h : ¬ (n = p.bytes.length / 64 ∧ s.host.ctxs[c].pieceDone + p.bytes.length = d.len.toNat)) :
    s.pieceEnds c d n p = s.pieceTaken c n p := if_neg h

theorem State.pieceEnds_completes {s : State} {c : Ctx} {d : Descriptor} {n : Nat} {p : Piece} (hn : n = p.bytes.length / 64)
    (hd : s.host.ctxs[c].pieceDone + p.bytes.length = d.len.toNat)
    (hb : s.host.ctxs[c].badDesc = 0 ∨ s.host.ctxs[c].descs.tail ≠ []) :
    s.pieceEnds c d n p = (s.pieceTaken c n p).descComplete c d := by
  obtain ⟨_, _, hmarks⟩ := s.pieceCompleted_marks c d n p
  exact (if_pos ⟨hn, hd⟩).trans (State.ctxBad_good (by rw [hmarks]; exact hb))

theorem Stream.takes_opened {k : Stream} (h : k.state = .opened) (n : Nat) : k.takes n = n := if_pos h

/-- The piece that was in transmission at CLOSE (R394). -/
theorem pieceLand_closing {s : State} (hu : s.undef = false) {c : Ctx} {d : Descriptor} {p : Piece} (hm : s.dmaOn = true)
    (hr : s.dram.ready = true) (hs : s.host.ctxs[c].state = .closing) (hlast : s.host.ctxs[c].lastPiece = some d)
    (hb : s.host.ctxs[c].badDesc = 0) (hl : s.pieceLands c d p) : Gives (.streamPieceLand c p) s (fun t =>
      (t.host.ctxs[c].landed = s.host.ctxs[c].landed + BitVec.ofNat 32 (s.host.ctxs[c].takes (p.bytes.length / 64)) ∧
        t.host.ctxs[c].lastPiece = none ∧ PieceLeaves c (s.host.ctxs[c].takes (p.bytes.length / 64)) p s t) ∧
      s.host.ctxs[c].takes (p.bytes.length / 64) =
        min (p.bytes.length / 64) (BitVec.ofNat 32 s.host.ctxs[c].taken - s.host.ctxs[c].landed).toInt.toNat ∧
      t.host.ctxs[c].state = .closing ∧ t.host.ctxs[c].taken = s.host.ctxs[c].taken ∧ t.host.ctxs[c].objs = s.host.ctxs[c].objs) := by
  have hshut : s.host.ctxs[c].state ≠ .opened := by rw [hs]; decide
  have hp : s.host.ctxs[c].pieceOf = some d := (if_neg hshut).trans ((if_pos hs).trans hlast)
  have hlen : 64 ≤ p.bytes.length := by
    obtain ⟨h0, h64, _⟩ := hl
    omega
  have hleaves := State.pieceStored_leaves hlen (s.pieceEnds_step c d (s.host.ctxs[c].takes (p.bytes.length / 64)) p)
    (s.pieceEnds_within c d _ p)
  refine ⟨_, exec_pieceLand hu hp hm hr hl, ?_⟩
  have htakes : s.host.ctxs[c].takes (p.bytes.length / 64) =
      min (p.bytes.length / 64) (BitVec.ofNat 32 s.host.ctxs[c].taken - s.host.ctxs[c].landed).toInt.toNat := if_neg hshut
  generalize s.host.ctxs[c].takes (p.bytes.length / 64) = n at hleaves htakes
  dsimp only
  rw [State.lowWater_keeps]
  by_cases hdone : n = p.bytes.length / 64 ∧ s.host.ctxs[c].pieceDone + p.bytes.length = d.len.toNat
  · obtain ⟨_, _, hmarks⟩ := s.pieceCompleted_marks c d n p
    rw [State.pieceEnds_completes hdone.1 hdone.2 (.inl hb)] at hleaves ⊢
    rw [hmarks]
    exact ⟨⟨rfl, rfl, hleaves⟩, htakes, hs, rfl, rfl⟩
  · obtain ⟨_, _, hmarks⟩ := s.pieceTaken_marks c n p
    rw [State.pieceEnds_waits hdone] at hleaves ⊢
    rw [hmarks]
    exact ⟨⟨rfl, rfl, hleaves⟩, htakes, hs, rfl, rfl⟩

/-- The next piece of an OPEN context's oldest descriptor (R387). -/
theorem pieceLand_opened {s : State} (hu : s.undef = false) {c : Ctx} {d : Descriptor} {p : Piece} (hm : s.dmaOn = true)
    (hr : s.dram.ready = true) {more : List Descriptor} (hs : s.host.ctxs[c].state = .opened) (hd : s.host.ctxs[c].descs = d :: more)
    (hl : s.pieceLands c d p) :
    let done := s.host.ctxs[c].pieceDone + p.bytes.length = d.len.toNat
    Gives (.streamPieceLand c p) s (fun t =>
      (t.host.ctxs[c].landed = s.host.ctxs[c].landed + BitVec.ofNat 32 (s.host.ctxs[c].takes (p.bytes.length / 64)) ∧
        t.host.ctxs[c].lastPiece = none ∧ PieceLeaves c (s.host.ctxs[c].takes (p.bytes.length / 64)) p s t) ∧
      s.host.ctxs[c].takes (p.bytes.length / 64) = p.bytes.length / 64 ∧
      (¬ done ∨ s.host.ctxs[c].badDesc = 0 ∨ more ≠ [] → t.host.ctxs[c].state = .opened) ∧
      (done → s.host.ctxs[c].badDesc ≠ 0 → more = [] → t.host.ctxs[c].state = .error ∧ t.host.ctxs[c].err = s.host.ctxs[c].badDesc ∧
        (t.flag (ctxA c 0x28)).getLsbD 2 = true) ∧
      (¬ done → t.host.ctxs[c].pieceDone = s.host.ctxs[c].pieceDone + p.bytes.length ∧
        t.host.ctxs[c].descs = s.host.ctxs[c].descs ∧ t.host.ctxs[c].head = s.host.ctxs[c].head) ∧
      (done → t.host.ctxs[c].pieceDone = 0 ∧ t.host.ctxs[c].descs = more ∧
        t.host.ctxs[c].head = BitVec.ofNat 16 ((s.host.ctxs[c].head.toNat + 1) % s.descCount c) ∧
        (s.effB (ctxA c 4) 24 = true → t.host.ctxs[c].wbHead =
          some (s.hostAddr (ctxA c 0x10), t.host.ctxs[c].head.setWidth 32)) ∧
        (d.flags.getLsbD 31 = true → (t.flag (ctxA c 0x28)).getLsbD 1 = true))) := by
  intro done
  have hp : s.host.ctxs[c].pieceOf = some d := (if_pos hs).trans (by rw [hd]; rfl)
  have hlen : 64 ≤ p.bytes.length := by
    obtain ⟨h0, h64, _⟩ := hl
    omega
  have hn := Stream.takes_opened hs (p.bytes.length / 64)
  have hleaves := State.pieceStored_leaves hlen (s.pieceEnds_step c d (s.host.ctxs[c].takes (p.bytes.length / 64)) p)
    (s.pieceEnds_within c d _ p)
  refine ⟨_, exec_pieceLand hu hp hm hr hl, ?_⟩
  generalize s.host.ctxs[c].takes (p.bytes.length / 64) = n at hleaves hn
  have hlow := fun u => State.lowWater_step u c
  rw [State.lowWater_keeps]
  by_cases hdone : done
  · obtain ⟨_, _, hmarks⟩ := s.pieceCompleted_marks c d n p
    have hwb : s.effB (ctxA c 4) 24 = true → (s.completedCtx c s.host.ctxs[c]).wbHead =
        some (s.hostAddr (ctxA c 0x10), (BitVec.ofNat 16 ((s.host.ctxs[c].head.toNat + 1) % s.descCount c)).setWidth 32) := fun h => if_pos h
    by_cases hbad : s.host.ctxs[c].badDesc = 0 ∨ more ≠ []
    · have htail : s.host.ctxs[c].badDesc = 0 ∨ s.host.ctxs[c].descs.tail ≠ [] := by rw [hd]; exact hbad
      rw [State.pieceEnds_completes hn hdone htail] at hleaves ⊢
      rw [hmarks]
      exact ⟨⟨rfl, rfl, hleaves⟩, hn, fun _ => hs, fun _ hb hm => (hbad.elim hb fun h => h hm).elim, fun h => absurd hdone h,
        fun _ => ⟨rfl, congrArg List.tail hd, rfl, hwb, fun h => (hlow _).keeps 1 (State.descComplete_flag _ c h)⟩⟩
    · obtain ⟨hb, hmore⟩ := not_or.1 hbad
      have hnone : more = [] := not_not.1 hmore
      have hends : s.pieceEnds c d n p = ((s.pieceTaken c n p).descComplete c d).ctxBad c := if_pos ⟨hn, hdone⟩
      have hfailed := State.ctxBad_failed (s := (s.pieceTaken c n p).descComplete c d) (c := c) (by rw [hmarks]; exact hb)
        (by rw [hmarks]; exact (congrArg List.tail hd).trans hnone)
      have hstep := State.ctxBad_step ((s.pieceTaken c n p).descComplete c d) c
      obtain ⟨hctx, -, hflag, -, -⟩ := hfailed
      rw [hmarks] at hctx
      have hcode : BitVec.ofNat 4 s.host.ctxs[c].badDesc.toNat = s.host.ctxs[c].badDesc := by
        rw [BitVec.ofNat_toNat, BitVec.setWidth_eq]
      rw [hends] at hleaves ⊢
      rw [hctx]
      refine ⟨⟨rfl, rfl, hleaves⟩, hn, fun h => ?_, fun _ _ _ => ⟨rfl, hcode, (hlow _).keeps 2 ?_⟩, fun h => absurd hdone h,
        fun _ => ⟨rfl, hnone.symm, rfl, hwb, fun h => (hlow _).keeps 1 (hstep.keeps 1 (State.descComplete_flag _ c h))⟩⟩
      · exact (h.elim (fun h => h hdone) fun h => hbad h).elim
      · rw [hflag, BitVec.getLsbD_or, bit32_self (by decide), Bool.or_true]
  · obtain ⟨_, _, hmarks⟩ := s.pieceTaken_marks c n p
    rw [State.pieceEnds_waits (fun h => hdone h.2)] at hleaves ⊢
    rw [hmarks]
    exact ⟨⟨rfl, rfl, hleaves⟩, hn, fun _ => hs, fun h => absurd h hdone, fun _ => ⟨rfl, rfl, rfl⟩, fun h => absurd h hdone⟩

/-- Settles O54: the commands of a context, and the landing of a piece with what completes. -/
theorem streamContexts : Obligations.StreamContexts := by
  intro s c hu k evt both code ring size failed
  refine ⟨strmOpen_both hu c, strmOpen_held hu c, strmOpen_fails hu c, strmOpen_opens hu c,
    fun h => ⟨strmClose_closes hu c h, strmClose_waits hu c h⟩, strmClose_drops hu c,
    fun v => ⟨strmTailWrite_bad hu c v, strmTailWrite_moves hu c v⟩,
    fun read => ⟨descFetch_stays hu c read, descFetch_takes hu c read, descFetch_fails hu c read⟩,
    fun p => pieceLand_none hu, fun d p => ?_, fun e => ⟨streamDmaError_fails hu c e, streamDmaError_stays hu c e⟩⟩
  intro len n unit acc esc done lands stored hm hr
  refine ⟨fun hp hl => pieceLand_stays hu hp hm hr hl, fun hs hlast hb hl => ?_, fun more hs hd hl => ?_⟩
  · obtain ⟨t, hexec, ⟨hlanded, hlast', hone, hesc, hother, hothers, hpool, hw⟩, hrest⟩ := pieceLand_closing hu hm hr hs hlast hb hl
    exact ⟨t, hexec, ⟨hlanded, hlast', hone, hesc, hother, hothers, hpool, hw⟩, hrest⟩
  · obtain ⟨t, hexec, ⟨hlanded, hlast', hone, hesc, hother, hothers, hpool, hw⟩, hrest⟩ := pieceLand_opened hu hm hr hs hd hl
    exact ⟨t, hexec, ⟨hlanded, hlast', hone, hesc, hother, hothers, hpool, hw⟩, hrest⟩

end Sys2Proof.Machine
end

