-- ==== Sys2Proof/Proofs/FailLogReads.lean ====
section
/-! PROOF. A read of the fail log that is a violation can make an interrupt cause's vector pending (R362, R377, R378). -/
namespace Sys2Proof.Machine

/-- A configured device that no host region opens: pin group 0 has a fail log of 64 records, and the memory's cause is mapped, enabled, to
vector 0. -/
def loggedState : State :=
  let s := State.reset.modPg 0 (fun p => { p with flSize := 64 })
  { s with img := { s.img with state := .configured }, eff := [(hostA 0x814, 0x80000000)] }

/-- The pending vectors after a command. -/
def vectorsAfter (c : Instr) (s : State) : BitVec 64 :=
  match exec c s with
  | .next t => t.host.msixPending
  | _ => s.host.msixPending

theorem loggedState_read : (loggedState.heldInReset || loggedState.hostCut) = false ∧ canon (0x308000 : BitVec 24).toNat = some 0x308000 ∧
    (loggedState.upto 0).failLogSlot 0x308000 = some ((loggedState.upto 0).ringSlot 0 0) := by decide +kernel

theorem loggedState_vectors : vectorsAfter (.registerWrite 0 0x308000 .read) loggedState = 1 ∧ loggedState.host.msixPending = 0 := by
  decide +kernel

/-- Refutes O55 in its clause on a read of the fail log: it has the host interface change in the returned word alone, but where master 36 may not
make the read, the flag of the violation makes its cause pending, and the vector that the cause is mapped to with it. -/
theorem not_registerAccesses : ¬ Obligations.RegisterAccesses := by
  unfold Obligations.RegisterAccesses
  intro h
  obtain ⟨hcut, hcanon, hslot⟩ := loggedState_read
  obtain ⟨-, -, -, -, -, -, -, hreads⟩ := h loggedState 0 0x308000 rfl
  obtain ⟨-, hlog, -⟩ := hreads 0x308000 hcut hcanon
  obtain ⟨t, hexec, hhost, -⟩ := hlog _ hslot
  obtain ⟨hafter, hbefore⟩ := loggedState_vectors
  have hsame : t.host.msixPending = loggedState.host.msixPending := congrArg HostIf.msixPending hhost
  rw [vectorsAfter, hexec] at hafter
  exact absurd (hsame.symm.trans hafter) (by rw [hbefore]; decide)

end Sys2Proof.Machine
end

