-- ==== Sys2Proof/Proofs/StopFlags.lean ====
section
/-! PROOF. A stop of a cluster sets flags of that cluster, its lanes, its groups and the stream contexts alone (R85, R99). -/
namespace Sys2Proof.Machine

/-! ### Flags below the host's words -/

/-- No flag below the words of the host and of the clusters changes. -/
def LowFlags (s t : State) : Prop := ∀ a, a < 0x70000 → a ∉ pendWords → t.flag a = s.flag a

theorem LowFlags.refl (s : State) : LowFlags s s := fun _ _ _ => rfl

theorem LowFlags.trans {s t u : State} (h : LowFlags s t) (k : LowFlags t u) : LowFlags s u := fun a ha hp => (k a ha hp).trans (h a ha hp)

theorem LowFlags.of_within {l : List Field} {s t : State} (h : Within l s t) (hf : Field.flg ∉ l := by decide) : LowFlags s t :=
  fun a _ _ => flag_of_flg_eq (h.flgEq hf) a

theorem LowFlags.fold {α : Type} {f : State → α → State} (h : ∀ u x, LowFlags u (f u x)) (l : List α) (s : State) : LowFlags s (l.foldl f s) :=
  foldl_rel LowFlags LowFlags.refl LowFlags.trans f h l s

theorem LowFlags.setBit (s : State) {a : Nat} (i : Nat) (ha : 0x70000 ≤ a) : LowFlags s (s.setBit a i) :=
  fun _ hb hp => State.flag_setBit_other s i (Nat.ne_of_lt (Nat.lt_of_lt_of_le hb ha)) hp

theorem LowFlags.ite {c : Prop} [Decidable c] {s t u : State} (h : LowFlags s t) (k : LowFlags s u) : LowFlags s (if c then t else u) := by
  split
  · exact h
  · exact k

theorem LowFlags.setBitIf (s : State) (c : Bool) {a : Nat} (i : Nat) (ha : 0x70000 ≤ a) : LowFlags s (s.setBitIf c a i) :=
  LowFlags.ite (LowFlags.setBit s i ha) (LowFlags.refl s)

/-! ### Where the words stand -/

theorem le_cluA (n : Clu) (off : Nat) : 0x70000 ≤ cluA n off := by unfold cluA; omega
theorem le_wlA (w : Lane) (off : Nat) : 0x70000 ≤ wlA w off := by unfold wlA; omega
theorem le_pgA (g : Pg) (off : Nat) : 0x70000 ≤ pgA g off := by unfold pgA; omega
theorem le_ctxA (c : Ctx) (off : Nat) : 0x70000 ≤ ctxA c off := by unfold ctxA; omega

/-! ### The generators (R177, R192 to R196) -/

theorem LowFlags.bandAt (s : State) (w : Lane) (m : Nat) (f : BitVec 48) (g : Bool) : LowFlags s (s.bandAt w m f g) := by
  unfold State.bandAt
  dsimp only
  have htrack : ∀ b, LowFlags s (if b = s.wl[w].tracking then s else s.modWl w (fun l => { l with tracking := b, heldN := none })) :=
    fun b => LowFlags.ite (LowFlags.refl s) (LowFlags.of_within (State.modWl_within s w _))
  generalize hx : (if (s.qbWord w).getLsbD 26 = s.wl[w].tracking then s else _) = x
  have hsx : LowFlags s x := hx ▸ htrack _
  exact LowFlags.ite (hsx.trans (LowFlags.setBitIf _ _ _ (le_wlA w _))) ((hsx.trans (LowFlags.setBitIf _ _ _ (le_wlA w _))).trans (LowFlags.of_within (State.modWl_within _ w _)))

theorem LowFlags.ncoRun (s : State) (w : Lane) (k : Nat) : LowFlags s (s.ncoRun w k) := by
  unfold State.ncoRun State.modNco
  exact (LowFlags.bandAt s w _ _ true).trans (LowFlags.of_within (State.modWl_within _ w _))

theorem LowFlags.ncoSteps (w : Lane) (to_ k : Nat) (s : State) : LowFlags s (s.ncoSteps w to_ k) := by
  induction k generalizing s with
  | zero => exact LowFlags.refl s
  | succ k ih =>
    unfold State.ncoSteps
    exact LowFlags.ite (LowFlags.refl s) ((LowFlags.ncoRun s w _).trans (ih _))

theorem LowFlags.ncoUpTo (s : State) (w : Lane) (k : Nat) : LowFlags s (s.ncoUpTo w k) := by
  unfold State.ncoUpTo
  exact LowFlags.ite (LowFlags.refl s) ((LowFlags.ite (LowFlags.ncoRun s w _) (LowFlags.ncoSteps w _ _ s)).trans (LowFlags.of_within (State.modWl_within _ w _)))

theorem LowFlags.ncoSync (s : State) (fu : Nat) (w : Lane) : LowFlags s (s.ncoSync fu w) := LowFlags.ncoUpTo s w _

theorem LowFlags.snapAgain (s : State) (w : Lane) (m : Nat) : LowFlags s (s.snapAgain w m) :=
  LowFlags.ite (LowFlags.of_within (State.modWl_within s w _)) (LowFlags.refl s)

theorem LowFlags.bandFollow (s : State) (fu : Nat) (w : Lane) : LowFlags s (s.bandFollow fu w) :=
  LowFlags.ite (LowFlags.refl s) ((LowFlags.bandAt s w _ _ true).trans (LowFlags.snapAgain _ w _))

theorem LowFlags.ncoIdle (s : State) (n : Clu) : LowFlags s (s.ncoIdle n) :=
  LowFlags.fold (fun u w => LowFlags.of_within (State.modWl_within u w _)) _ s

/-! ### Streams and pin groups -/

theorem LowFlags.lowWater (s : State) (c : Ctx) : LowFlags s (s.lowWater c) := by
  unfold State.lowWater
  have hctx : ∀ f, LowFlags s (s.modCtx c f) := fun f => LowFlags.of_within (State.modCtx_within s c f)
  exact LowFlags.ite (LowFlags.refl _) (LowFlags.ite (hctx _) (LowFlags.ite
    (((hctx _).trans (LowFlags.setBit _ _ (le_ctxA c _))).trans (LowFlags.of_within (State.count_within _ _ _))) (LowFlags.refl _)))

theorem LowFlags.ctxCloseIfDone (s : State) (c : Ctx) : LowFlags s (s.ctxCloseIfDone c) := by
  unfold State.ctxCloseIfDone
  have hclear : LowFlags s (s.ctxClear c) := fun _ _ _ => rfl
  exact LowFlags.ite (hclear.trans (LowFlags.setBit _ _ (le_ctxA c _))) (LowFlags.refl _)

theorem LowFlags.releaseObject (s : State) (n : Clu) : LowFlags s (s.releaseObject n) := by
  unfold State.releaseObject
  split
  · exact LowFlags.refl s
  · rename_i o _
    have hctx : ∀ (u : State) (f : Stream → Stream), LowFlags u (((u.modCtx o.ctx f).lowWater o.ctx).ctxCloseIfDone o.ctx) := fun u f =>
      ((LowFlags.of_within (State.modCtx_within u o.ctx f)).trans (LowFlags.lowWater _ _)).trans (LowFlags.ctxCloseIfDone _ _)
    exact (LowFlags.of_within (State.modClu_within s n _)).trans (LowFlags.ite (hctx _ _) (LowFlags.refl _))

theorem LowFlags.crowd (s : State) (g : Pg) (bit : Nat) : LowFlags s (s.crowd g bit) :=
  (LowFlags.of_within (State.count_within s _ _)).trans (LowFlags.setBit _ _ (le_pgA g _))

theorem LowFlags.ddEdge (s : State) (g : Pg) (j : Fin 16) (x : Edge) : LowFlags s (s.ddEdge g j x) := by
  unfold State.ddEdge
  exact LowFlags.ite ((LowFlags.of_within (State.modPin_within s _ _)).trans (LowFlags.crowd _ g 1)) (LowFlags.of_within (State.modPin_within s _ _))

theorem LowFlags.deEdge (s : State) (g : Pg) (j : Fin 16) (x : Edge) : LowFlags s (s.deEdge g j x) := by
  unfold State.deEdge
  exact LowFlags.ite ((LowFlags.of_within (State.modPin_within s _ _)).trans (LowFlags.crowd _ g 1)) (LowFlags.of_within (State.modPin_within s _ _))

theorem LowFlags.parkPin (s : State) (g : Pg) (j : Fin 16) (k : Nat) : LowFlags s (s.parkPin g j k) := (LowFlags.deEdge s g j _).trans (LowFlags.ddEdge _ g j _)

theorem LowFlags.logVector (s : State) (g : Pg) (v : VecOpen) : LowFlags s (s.logVector g v) := by
  unfold State.logVector
  refine LowFlags.ite (LowFlags.refl s) ((LowFlags.of_within (State.modPg_within s g _)).trans (LowFlags.ite ?_ (LowFlags.of_within (State.modPg_within _ g _))))
  exact (LowFlags.of_within (State.count_within _ _ _)).trans (LowFlags.setBit _ _ (le_pgA g _))

theorem LowFlags.closeVector (s : State) (g : Pg) (v : VecOpen) : LowFlags s (s.closeVector g v) := by
  unfold State.closeVector
  refine LowFlags.trans (LowFlags.ite (LowFlags.refl s) ?_) (LowFlags.logVector _ g v)
  have hnote : LowFlags s (s.modPg g (fun p => { p with ffLast := some (s.clk.now, s.firstFail v) })) := LowFlags.of_within (State.modPg_within s g _)
  have htake : ∀ u, LowFlags u (u.takeFf g (s.firstFail v)) := fun u => (LowFlags.of_within (State.modPg_within u g _)).trans (LowFlags.setBit _ _ (le_pgA g _))
  refine LowFlags.trans (t := match s.pg[g].ffLast with
    | some x => if x.1 = s.clk.now then s else s.modPg g (fun p => { p with ffLast := some (s.clk.now, s.firstFail v) })
    | none => s.modPg g (fun p => { p with ffLast := some (s.clk.now, s.firstFail v) })) ?_ (LowFlags.ite (htake _) (LowFlags.refl _))
  split
  · exact LowFlags.ite (LowFlags.refl s) hnote
  · exact hnote

theorem LowFlags.closeVectors (s : State) (g : Pg) : LowFlags s (s.closeVectors g) := by
  unfold State.closeVectors
  exact LowFlags.trans (LowFlags.of_within (State.modPg_within s g _)) (LowFlags.fold (fun u v => LowFlags.closeVector u g v) _ _)

theorem LowFlags.cutGroup (s : State) (g : Pg) (k : Nat) (f : Nat → Bool) : LowFlags s (s.cutGroup g k f) := by
  unfold State.cutGroup
  exact ((LowFlags.fold (fun u j => LowFlags.of_within (State.modPin_within u _ _)) _ s).trans (LowFlags.of_within (State.modPg_within _ g _))).trans
    (LowFlags.closeVectors _ g)

theorem LowFlags.cutGroups (s : State) (n : Clu) (k : Nat) : LowFlags s (s.cutGroups n k) :=
  LowFlags.fold (fun u g => LowFlags.ite (LowFlags.cutGroup u g k _) (LowFlags.refl u)) _ s

theorem LowFlags.parkGroups (s : State) (n : Clu) (k : Nat) : LowFlags s (s.parkGroups n k) :=
  LowFlags.fold (fun u g => (LowFlags.cutGroup u g k _).trans (LowFlags.fold (fun v j => LowFlags.parkPin v g j k) _ _)) _ s

/-! ### A stop (R85, R99) -/

theorem LowFlags.cancelJump (s : State) (n : Clu) (soft : Bool) : LowFlags s (s.cancelJump n soft) := by
  unfold State.cancelJump
  split
  · exact LowFlags.refl s
  · refine LowFlags.ite (LowFlags.refl s) ?_
    exact (((LowFlags.of_within (State.markNeeded_within s n)).trans (LowFlags.of_within (State.modClu_within _ n _))).trans
      (LowFlags.of_within (State.count_within _ _ _))).trans (LowFlags.setBit _ _ (le_cluA n _))

theorem LowFlags.idleRuns (s : State) (n : Clu) : LowFlags s (s.idleRuns n) := by
  unfold State.idleRuns
  refine LowFlags.trans ?_ (LowFlags.ncoIdle _ n)
  refine LowFlags.trans ?_ (LowFlags.fold (fun u w => LowFlags.bandFollow u _ w) _ _)
  refine LowFlags.trans ?_ (LowFlags.fold (fun u g => LowFlags.of_within (State.copyTset_within u g)) _ _)
  refine LowFlags.trans ?_ (LowFlags.of_within (State.applyIdle_within _ n))
  exact (LowFlags.fold (fun u w => LowFlags.ncoSync u _ w) _ s).trans (LowFlags.releaseObject _ n)


theorem LowFlags.stopCluster (s : State) (n : Clu) (reason at_ : Nat) : LowFlags s (s.stopCluster n reason at_) := by
  unfold State.stopCluster
  dsimp only
  rw [State.idleEffects_eq]
  refine LowFlags.trans ?_ (LowFlags.setBitIf _ _ _ (le_cluA n 0x40))
  refine LowFlags.trans ?_ (LowFlags.of_within (State.lanesIdle_within _ n))
  refine LowFlags.trans ?_ (LowFlags.idleRuns _ n)
  refine LowFlags.trans ?_ (LowFlags.of_within (State.modClu_within _ n _))
  refine LowFlags.trans ?_ (LowFlags.cancelJump _ n false)
  exact ((LowFlags.of_within (State.markNeeded_within s n)).trans (LowFlags.cutGroups _ n at_)).trans (LowFlags.parkGroups _ n at_)

/-- Nor does the alignment action (R458, R459). -/
theorem LowFlags.alignAction (s : State) (l : List Nat) (at_ : Nat) : LowFlags s (s.alignAction l at_) := by
  rw [State.alignAction_eq]
  refine LowFlags.fold (fun u n => ?_) _ s
  unfold State.alignStop
  exact LowFlags.ite ((LowFlags.of_within (State.upto_within u _)).trans (LowFlags.stopCluster _ n 4 _)) (LowFlags.refl u)

end Sys2Proof.Machine
end

