-- ==== Sys2Proof/Proofs/Epoch.lean ====
section
/-! PROOF. The EPOCH ball anchors the time base, counts and checks the crossings (R310, R420 to R425, R458, R459; O15). -/
namespace Sys2Proof.Machine

/-! ### A pulse that the ball shows -/

/-- What a pulse leaves known of the ball. -/
def State.epochSeen (s : State) (high low : Nat) : State :=
  s.modClk (fun c => { c with epochLow := if low ≤ refEdge high then c.epochLow else some low })

/-- The pulse is seen high by an edge, and one has seen the ball low since the pulse before (R420). -/
def State.seesPulse (s : State) (high low : Nat) : Prop :=
  refEdge high < low ∧ ∀ l, s.clk.epochLow = some l → refEdge l < high

theorem State.registers_eq (s : State) (high low : Nat) :
    (¬ s.seesPulse high low → s.registers high low = none) ∧ (s.seesPulse high low → s.registers high low = some (refEdge high + 32)) := by
  unfold State.registers State.seesPulse
  cases he : s.clk.epochLow with
  | none =>
    by_cases h : refEdge high < low
    · exact ⟨fun hn => absurd ⟨h, fun l hl => nomatch hl⟩ hn, fun _ => if_neg (by simp; omega)⟩
    · exact ⟨fun _ => if_pos (by simp; omega), fun hs => absurd hs.1 h⟩
  | some k =>
    by_cases h : refEdge high < low ∧ refEdge k < high
    · exact ⟨fun hn => absurd ⟨h.1, fun l hl => Option.some.inj hl ▸ h.2⟩ hn, fun _ => if_neg (by simp; omega)⟩
    · exact ⟨fun _ => if_pos (by simp; omega), fun hs => absurd ⟨hs.1, hs.2 k rfl⟩ h⟩

/-- A pulse in a device that CK_CORE drives. -/
theorem exec_epochPulse {s : State} {high low : Nat} {slips : BitVec 16} (hu : s.undef = false) (hr : s.coreRuns = true) :
    exec (.epoch (.pulse high low) slips) s = .next (match s.registers high low with
      | none => s.epochSeen high low
      | some t => (s.epochSeen high low).epochAt t) := by
  show execEpoch (.pulse high low) slips s = _
  rw [execEpoch, guarded_next hu]
  exact congrArg Host.Outcome.next (if_neg (by rw [hr]; decide))

theorem exec_epochUnseen {s : State} {high low : Nat} {slips : BitVec 16} (hu : s.undef = false) (hr : s.coreRuns = true)
    (hn : ¬ s.seesPulse high low) : exec (.epoch (.pulse high low) slips) s = .next (s.epochSeen high low) := by
  rw [exec_epochPulse hu hr, (s.registers_eq high low).1 hn]

theorem exec_epochSeen {s : State} {high low : Nat} {slips : BitVec 16} (hu : s.undef = false) (hr : s.coreRuns = true)
    (hs : s.seesPulse high low) : exec (.epoch (.pulse high low) slips) s = .next ((s.epochSeen high low).epochAt (refEdge high + 32)) := by
  rw [exec_epochPulse hu hr, (s.registers_eq high low).2 hs]

/-! ### The ensemble's count -/

theorem State.viewEffect_of_none {s : State} (h : s.link.pendView = none) : s.viewEffect = (s, 0) := by
  unfold State.viewEffect
  rw [h]

/-- With no change of the view pending a pulse only moves the count on (R314; log 12). -/
theorem State.epochView_of_none {s : State} (h : s.link.pendView = none) :
    s.epochView = s.modLink (fun k => { k with ensEpoch := k.ensEpoch + 1 }) := by
  have hv : (s.modLink (fun k => { k with ensEpoch := k.ensEpoch + 1 })).viewEffect = (s.modLink (fun k => { k with ensEpoch := k.ensEpoch + 1 }), 0) :=
    State.viewEffect_of_none h
  unfold State.epochView
  dsimp only
  rw [hv]
  exact if_pos rfl

/-! ### What takes force with the pulse -/

/-- The tick of the pulse, with every field whose boundary it is in force. -/
def State.epochFields (s : State) (t : Nat) : State := (s.upto t).applyWhere (fun _ b => decide (b = .epoch))

theorem State.epochFields_within (s : State) (t : Nat) : Within [.clk, .eff] s (s.epochFields t) :=
  ((State.upto_within s t).mono (by decide)).step (State.applyWhere_within _ _) (by decide)

theorem State.epochFields_clk (s : State) (t : Nat) : (s.epochFields t).clk = (s.upto t).clk := (State.applyWhere_within _ _).clkEq

/-- The period is read from its word in force. -/
theorem State.epochTicks_congr {s t : State} (h : t.eff = s.eff) : t.epochTicks = s.epochTicks := by
  unfold State.epochTicks State.effF State.effW
  rw [h]

theorem State.epochTicks_pos (s : State) : 0 < s.epochTicks := by
  unfold State.epochTicks
  omega

/-! ### The first pulse -/

/-- The step of the time base to the least multiple of a period that is not below it. -/
def State.anchorStep (s : State) (p : Nat) : Int := (((s.tb + p - 1) / p * p : Nat) : Int) - (s.tb : Int)

/-- The anchored time base, before the link follows the step. -/
def State.anchored (s : State) (p : Nat) : State :=
  ((s.ncoStepBase (s.anchorStep p)).modClk (fun c => { c with
    ofs := c.ofs + s.anchorStep p, timeValid := true, timeCoarse := false, firstEpoch := false, epochCount := BitVec.ofNat 48 ((s.tb + p - 1) / p) })).mgmtRearm

/-- The link with it. -/
def State.anchorLink (s : State) (p : Nat) : State :=
  if s.anchorStep p = 0 then s.anchored p else (s.anchored p).linkStep (s.anchorStep p)

theorem State.epochFirst_eq (s : State) (p : Nat) : s.epochFirst p =
    ((s.anchorLink p).setBitIf s.clk.timeCoarse (clkA 0xC) 9).setBitIf (decide (s.anchorStep p ≠ 0)) (lnkA 0x40) 4 := rfl

theorem State.mgmtRearm_clk (s : State) : ∃ m, s.mgmtRearm.clk = { s.clk with mgmtFrom := m } := by
  unfold State.mgmtRearm
  split
  · exact ⟨s.clk.mgmtFrom, rfl⟩
  · exact ⟨s.clk.now, rfl⟩

theorem State.anchored_clk (s : State) (p : Nat) : ∃ m, (s.anchored p).clk = { s.clk with
    ofs := s.clk.ofs + s.anchorStep p, timeValid := true, timeCoarse := false, firstEpoch := false
    epochCount := BitVec.ofNat 48 ((s.tb + p - 1) / p), mgmtFrom := m } := by
  obtain ⟨m, hm⟩ := State.mgmtRearm_clk ((s.ncoStepBase (s.anchorStep p)).modClk (fun c => { c with
    ofs := c.ofs + s.anchorStep p, timeValid := true, timeCoarse := false, firstEpoch := false, epochCount := BitVec.ofNat 48 ((s.tb + p - 1) / p) }))
  have hmod : ∀ (u : State) f, (u.modClk f).clk = f u.clk := fun _ _ => rfl
  rw [hmod, (State.ncoStepBase_within s _).clkEq] at hm
  exact ⟨m, hm⟩

theorem State.anchored_within (s : State) (p : Nat) : Within [.clk, .flg, .wl, .msix] s (s.anchored p) :=
  (((State.ncoStepBase_within s _).mono (by decide)).step (State.modClk_within _ _) (by decide)).step (State.mgmtRearm_within _) (by decide)

theorem State.anchorLink_within (s : State) (p : Nat) : Within [.link] (s.anchored p) (s.anchorLink p) :=
  Within.ite (Within.refl _ _) (State.linkStep_within _ _)

theorem State.epochFirst_marks (s : State) (p : Nat) : Within [.flg, .msix] (s.anchorLink p) (s.epochFirst p) := by
  rw [State.epochFirst_eq]
  exact (State.setBitIf_within _ _ _ _).step (State.setBitIf_within _ _ _ _) (by decide)

theorem State.epochFirst_clk (s : State) (p : Nat) : ∃ m, (s.epochFirst p).clk = { s.clk with
    ofs := s.clk.ofs + s.anchorStep p, timeValid := true, timeCoarse := false, firstEpoch := false
    epochCount := BitVec.ofNat 48 ((s.tb + p - 1) / p), mgmtFrom := m } := by
  rw [(s.epochFirst_marks p).clkEq, (s.anchorLink_within p).clkEq]
  exact s.anchored_clk p

/-- A step of the time base moves what the link has timed; its members and ports stay. -/
structure LinkMoved (k k' : Link) : Prop where
  ensEpoch : k'.ensEpoch = k.ensEpoch
  state : k'.state = k.state
  view : k'.view = k.view
  generation : k'.generation = k.generation
  memberIdx : k'.memberIdx = k.memberIdx
  ports : k'.ports = k.ports
  pendView : k'.pendView = k.pendView

theorem State.epochFirst_link (s : State) (p : Nat) : LinkMoved s.link (s.epochFirst p).link ∧
    (s.anchorStep p = 0 → (s.epochFirst p).link = s.link) := by
  rw [(s.epochFirst_marks p).linkEq]
  have hk := (s.anchored_within p).linkEq
  unfold State.anchorLink
  split
  · rw [hk]
    exact ⟨⟨rfl, rfl, rfl, rfl, rfl, rfl, rfl⟩, fun _ => rfl⟩
  · next hd =>
    refine ⟨?_, fun h => absurd h hd⟩
    unfold State.linkStep
    dsimp only [State.modLink]
    rw [hk]
    exact ⟨rfl, rfl, rfl, rfl, rfl, rfl, rfl⟩

theorem State.epochFirst_flags (s : State) (p : Nat) : (s.clk.timeCoarse = true → ((s.epochFirst p).flag (clkA 0xC)).getLsbD 9 = true) ∧
    (s.anchorStep p ≠ 0 → ((s.epochFirst p).flag (lnkA 0x40)).getLsbD 4 = true) := by
  rw [State.epochFirst_eq]
  have h9 : s.clk.timeCoarse = true → (((s.anchorLink p).setBitIf s.clk.timeCoarse (clkA 0xC) 9).flag (clkA 0xC)).getLsbD 9 = true := fun h =>
    State.flagBit_setBitIf _ h (by decide) (by decide)
  refine ⟨fun h => ?_, fun h => State.flagBit_setBitIf _ (decide_eq_true h) (by decide) (by decide)⟩
  have hbut := (FlagsBut.refl [lnkA 0x40] ((s.anchorLink p).setBitIf s.clk.timeCoarse (clkA 0xC) 9)).setBitIf (decide (s.anchorStep p ≠ 0)) 4
    (a := lnkA 0x40) List.mem_cons_self
  rw [hbut _ (by decide) (by decide)]
  exact h9 h

/-! ### A later pulse -/

theorem State.epochLater_aligned (s : State) (p : Nat) : s.epochLater p false =
    s.modClk (fun c => { c with epochCount := BitVec.ofNat 48 ((2 * s.tb + p) / (2 * p)) }) := rfl

theorem State.epochLater_slipped (s : State) (p : Nat) : s.epochLater p true = ((s.epochLater p false).setBit (lnkA 0x40) 11).alignFault 2 0xFF
    ((s.epochLater p false).clk.now + 64) := rfl

theorem State.alignFault_seq (s : State) (cause source at_ : Nat) : (s.alignFault cause source at_).flt.seq = s.flt.seq + 1 :=
  State.report_seq s _

theorem State.epochLater_marks (s : State) (p : Nat) : Within [.flg, .ctr, .msix, .flt] (s.epochLater p false) (s.epochLater p true) := by
  rw [State.epochLater_slipped]
  exact ((State.setBit_within _ _ _).mono (by decide)).step (State.alignFault_within _ _ _ _) (by decide)

theorem State.epochLater_says (s : State) (p : Nat) : ((s.epochLater p true).flag (lnkA 0x40)).getLsbD 11 = true ∧
    (s.epochLater p true).flt.seq = s.flt.seq + 1 := by
  rw [State.epochLater_slipped]
  refine ⟨?_, ?_⟩
  · unfold State.alignFault
    rw [State.report_flags _ _ (lnkA 0x40) (by decide) (by decide)]
    exact State.flagBit_setBit _ (by decide) (by decide)
  · rw [State.alignFault_seq, (State.setBit_within _ _ _).fltEq]
    rfl

/-! ### What every pulse leaves -/

/-- The counted pulse, and when the next is due (R425). -/
def State.epochCounted (s : State) (p : Nat) : State :=
  (s.modLink (fun k => { k with ensEpoch := k.ensEpoch + 1 })).modClk (fun c => { c with epochDue := some (c.now + p) })

theorem State.epochCounted_within (s : State) (p : Nat) : Within [.clk, .link] s (s.epochCounted p) :=
  ((State.modLink_within s _).mono (by decide)).step (State.modClk_within _ _) (by decide)

theorem State.epochCounted_of_none {s : State} (p : Nat) (h : s.link.pendView = none) :
    s.epochView.modClk (fun c => { c with epochDue := some (c.now + p) }) = s.epochCounted p := by
  rw [State.epochView_of_none h]
  rfl

/-- The crossings that a pulse aligns (R421). -/
def State.freshCrossings (s : State) : List Nat := (List.range 12).filter (fun i => !s.alignedNow.getLsbD i && s.crossingRuns i)

theorem State.crossEpoch_clk (s : State) (t : Nat) : (s.crossEpoch t).clk = { s.clk with
    aligned := s.alignedNow &&& 0x0FFF, aligning := some (t + 64, crossBits s.freshCrossings), checkAt := some (t + 64) } := rfl

/-- The pulse is no multiple of the period (R310). -/
def State.epochSlips (s : State) : Bool := !s.clk.firstEpoch && decide (s.tb % s.epochTicks ≠ 0)

/-- The time base after the pulse. -/
def State.epochBase (s : State) : State :=
  if s.clk.firstEpoch then s.epochFirst s.epochTicks else s.epochLater s.epochTicks s.epochSlips

theorem State.epochAt_eq (s : State) (t : Nat) : s.epochAt t = if (s.epochFields t).epochSlips
    then ((s.epochFields t).epochBase.epochView.modClk (fun c => { c with epochDue := some (c.now + (s.epochFields t).epochTicks) })).modClk
      (fun c => { c with checkAt := none })
    else ((s.epochFields t).epochBase.epochView.modClk (fun c => { c with epochDue := some (c.now + (s.epochFields t).epochTicks) })).crossEpoch
      (s.epochFields t).epochBase.clk.now := rfl

theorem State.epochBase_first {s : State} (h : s.clk.firstEpoch = true) : s.epochBase = s.epochFirst s.epochTicks := if_pos h

theorem State.epochBase_later {s : State} (h : s.clk.firstEpoch = false) : s.epochBase = s.epochLater s.epochTicks s.epochSlips :=
  if_neg (by rw [h]; decide)

theorem State.epochBase_pendView (s : State) : s.epochBase.link.pendView = s.link.pendView := by
  cases h : s.clk.firstEpoch with
  | true => rw [State.epochBase_first h]; exact (s.epochFirst_link _).1.pendView
  | false => rw [State.epochBase_later h]; exact congrArg Link.pendView (s.epochLater_within _ _).linkEq

/-- With no change of the view pending, a pulse counts and the crossings follow it, or it slips. -/
theorem State.epochAt_of_none {s : State} (t : Nat) (hv : s.link.pendView = none) : s.epochAt t = if (s.epochFields t).epochSlips
    then ((s.epochFields t).epochBase.epochCounted (s.epochFields t).epochTicks).modClk (fun c => { c with checkAt := none })
    else ((s.epochFields t).epochBase.epochCounted (s.epochFields t).epochTicks).crossEpoch (s.epochFields t).epochBase.clk.now := by
  rw [State.epochAt_eq, State.epochCounted_of_none]
  rw [State.epochBase_pendView, (s.epochFields_within t).linkEq]
  exact hv

/-! ### The first pulse as a whole -/

/-- A state after the first pulse. -/
def State.afterFirst (s : State) : State :=
  ((s.epochFirst s.epochTicks).epochCounted s.epochTicks).crossEpoch (s.epochFirst s.epochTicks).clk.now

theorem State.epochAt_first {s : State} {t : Nat} (hf : (s.epochFields t).clk.firstEpoch = true) (hv : s.link.pendView = none) :
    s.epochAt t = (s.epochFields t).afterFirst := by
  rw [State.epochAt_of_none t hv, if_neg (by unfold State.epochSlips; rw [hf]; simp), State.epochBase_first hf]
  rfl

theorem State.afterFirst_within (s : State) : Within [.clk, .flg, .wl, .link, .msix] s s.afterFirst :=
  ((s.epochFirst_within _).step (State.epochCounted_within _ _) (by decide)).step (State.crossEpoch_within _ _) (by decide)

theorem State.afterFirst_counts (s : State) : Within [.clk, .link] (s.epochFirst s.epochTicks) s.afterFirst :=
  (State.epochCounted_within _ _).step (State.crossEpoch_within _ _) (by decide)

theorem State.afterFirst_link (s : State) :
    s.afterFirst.link = { (s.epochFirst s.epochTicks).link with ensEpoch := (s.epochFirst s.epochTicks).link.ensEpoch + 1 } := rfl

/-- What the first pulse leaves of the clock. -/
theorem State.afterFirst_clk (s : State) : ∃ m a g, s.afterFirst.clk = { s.clk with
    ofs := s.clk.ofs + s.anchorStep s.epochTicks, timeValid := true, timeCoarse := false, firstEpoch := false
    epochCount := BitVec.ofNat 48 ((s.tb + s.epochTicks - 1) / s.epochTicks), mgmtFrom := m, epochDue := some (s.clk.now + s.epochTicks)
    aligned := a, aligning := g, checkAt := some (s.clk.now + 64) } := by
  obtain ⟨m, hm⟩ := s.epochFirst_clk s.epochTicks
  have hcount : ∀ u : State, (u.epochCounted s.epochTicks).clk = { u.clk with epochDue := some (u.clk.now + s.epochTicks) } := fun _ => rfl
  unfold State.afterFirst
  rw [State.crossEpoch_clk, hcount, hm]
  exact ⟨m, _, _, rfl⟩

theorem State.tb_of_runs {s : State} (h : s.clk.timeRuns = true) : s.tb = ((s.clk.now : Int) + s.clk.ofs).toNat := by
  unfold State.tb State.tbAt
  rw [if_pos h]

/-- The first pulse anchors the time base at the least multiple of the period that is not below it (R310). -/
theorem State.afterFirst_tb {s : State} (hr : s.clk.timeRuns = true) (h0 : 0 ≤ (s.clk.now : Int) + s.clk.ofs) :
    s.afterFirst.tb = (s.tb + s.epochTicks - 1) / s.epochTicks * s.epochTicks := by
  obtain ⟨m, a, g, hclk⟩ := s.afterFirst_clk
  have hbase := State.tb_of_runs hr
  have hstep : s.anchorStep s.epochTicks = (((s.tb + s.epochTicks - 1) / s.epochTicks * s.epochTicks : Nat) : Int) - (s.tb : Int) := rfl
  rw [State.tb_of_runs (by rw [hclk]; exact hr), hclk]
  dsimp only
  rw [hstep]
  omega

/-- The least multiple of a positive number that is not below another. -/
theorem leastMultiple_bounds (v : Nat) {p : Nat} (hp : 0 < p) : v ≤ (v + p - 1) / p * p ∧ (v + p - 1) / p * p < v + p := by
  have hdiv := Nat.div_add_mod (v + p - 1) p
  have hmod := Nat.mod_lt (v + p - 1) hp
  rw [Nat.mul_comm] at hdiv
  omega

/-! ### A later pulse as a whole -/

/-- A state after a later pulse that is a multiple of the period. -/
def State.afterAligned (s : State) : State :=
  ((s.epochLater s.epochTicks false).epochCounted s.epochTicks).crossEpoch (s.epochLater s.epochTicks false).clk.now

/-- A state after one that is none. -/
def State.afterSlipped (s : State) : State :=
  ((s.epochLater s.epochTicks true).epochCounted s.epochTicks).modClk (fun c => { c with checkAt := none })

theorem State.epochAt_aligned {s : State} {t : Nat} (hf : (s.epochFields t).clk.firstEpoch = false) (hv : s.link.pendView = none)
    (hm : (s.epochFields t).tb % (s.epochFields t).epochTicks = 0) : s.epochAt t = (s.epochFields t).afterAligned := by
  have hs : (s.epochFields t).epochSlips = false := by unfold State.epochSlips; rw [hm]; simp
  rw [State.epochAt_of_none t hv, hs, if_neg (by decide), State.epochBase_later hf, hs]
  rfl

theorem State.epochAt_slipped {s : State} {t : Nat} (hf : (s.epochFields t).clk.firstEpoch = false) (hv : s.link.pendView = none)
    (hm : (s.epochFields t).tb % (s.epochFields t).epochTicks ≠ 0) : s.epochAt t = (s.epochFields t).afterSlipped := by
  have hs : (s.epochFields t).epochSlips = true := by unfold State.epochSlips; rw [hf, decide_eq_true hm]; rfl
  rw [State.epochAt_of_none t hv, hs, if_pos rfl, State.epochBase_later hf, hs]
  rfl

theorem State.afterAligned_within (s : State) : Within [.clk, .link] s s.afterAligned := by
  unfold State.afterAligned
  rw [State.epochLater_aligned]
  exact (((State.modClk_within s _).mono (by decide)).step (State.epochCounted_within _ _) (by decide)).step (State.crossEpoch_within _ _)
    (by decide)

theorem State.afterSlipped_within (s : State) : Within [.clk, .flg, .ctr, .link, .msix, .flt] s s.afterSlipped :=
  (((s.epochLater_within _ true).mono (by decide)).step (State.epochCounted_within _ _) (by decide)).step (State.modClk_within _ _) (by decide)

/-- What a later pulse on a multiple of the period leaves of the clock (R421, R425). -/
theorem State.afterAligned_clk (s : State) : s.afterAligned.clk = { s.clk with
    epochCount := BitVec.ofNat 48 ((2 * s.tb + s.epochTicks) / (2 * s.epochTicks)), epochDue := some (s.clk.now + s.epochTicks)
    aligned := s.alignedNow &&& 0x0FFF, aligning := some (s.clk.now + 64, crossBits s.freshCrossings), checkAt := some (s.clk.now + 64) } := rfl

theorem State.afterSlipped_clk (s : State) : s.afterSlipped.clk = { s.clk with
    epochCount := BitVec.ofNat 48 ((2 * s.tb + s.epochTicks) / (2 * s.epochTicks)), epochDue := some (s.clk.now + s.epochTicks)
    checkAt := none } := by
  have hcount : ∀ u : State, ((u.epochCounted s.epochTicks).modClk (fun c => { c with checkAt := none })).clk =
      { u.clk with epochDue := some (u.clk.now + s.epochTicks), checkAt := none } := fun _ => rfl
  unfold State.afterSlipped
  rw [hcount, (s.epochLater_marks _).clkEq, State.epochLater_aligned]
  rfl

theorem State.afterSlipped_link (s : State) : s.afterSlipped.link = { s.link with ensEpoch := s.link.ensEpoch + 1 } := by
  have hcount : ∀ u : State, ((u.epochCounted s.epochTicks).modClk (fun c => { c with checkAt := none })).link =
      { u.link with ensEpoch := u.link.ensEpoch + 1 } := fun _ => rfl
  unfold State.afterSlipped
  rw [hcount, (s.epochLater_within _ true).linkEq]

theorem State.afterSlipped_says (s : State) : (s.afterSlipped.flag (lnkA 0x40)).getLsbD 11 = true ∧ s.afterSlipped.flt.seq = s.flt.seq + 1 :=
  s.epochLater_says s.epochTicks

/-- The rounded count of a multiple of the period is its quotient. -/
theorem roundedCount_of_dvd {v p : Nat} (hp : 0 < p) (h : v % p = 0) : (2 * v + p) / (2 * p) = v / p := by
  obtain ⟨k, rfl⟩ := Nat.dvd_of_mod_eq_zero h
  rw [Nat.mul_div_cancel_left k hp, show 2 * (p * k) + p = p + 2 * p * k by ring, Nat.add_mul_div_left _ _ (by omega),
    Nat.div_eq_of_lt (by omega), Nat.zero_add]

/-- The mask of a list of crossings holds the crossings of the list. -/
theorem crossBits_getLsbD (l : List Nat) {i : Nat} (hi : i < 16) : (crossBits l).getLsbD i = decide (i ∈ l) := by
  have hfold : ∀ (l : List Nat) (m : BitVec 16), (l.foldl (fun m i => m ||| (1#16 <<< i)) m).getLsbD i = (m.getLsbD i || decide (i ∈ l)) := by
    intro l
    induction l with
    | nil => intro m; simp
    | cons x r ih =>
      intro m
      rw [List.foldl_cons, ih, BitVec.getLsbD_or, getLsbD_bit hi, Bool.or_assoc]
      simp [List.mem_cons]
  exact (hfold l 0).trans (by simp)

theorem freshCrossings_getLsbD (s : State) {i : Nat} (hi : i < 12) :
    (crossBits s.freshCrossings).getLsbD i = (!s.alignedNow.getLsbD i && s.crossingRuns i) := by
  rw [crossBits_getLsbD _ (by omega), State.freshCrossings]
  simp [List.mem_filter, hi]

/-! ### A pulse that is registered -/

/-- The fields in force at the pulse that the ball shows. -/
def State.pulseFields (s : State) (high low : Nat) : State := (s.epochSeen high low).epochFields (refEdge high + 32)

theorem State.pulseFields_within (s : State) (high low : Nat) : Within [.clk, .eff] s (s.pulseFields high low) :=
  ((State.modClk_within s _).mono (by decide)).step (State.epochFields_within _ _) (by decide)

theorem State.pulseFields_clk {s : State} {high low : Nat} (h : s.seesPulse high low) :
    (s.pulseFields high low).clk = { (s.upto (refEdge high + 32)).clk with epochLow := some low } := by
  unfold State.pulseFields
  rw [State.epochFields_clk]
  show { s.clk with epochLow := if low ≤ refEdge high then s.clk.epochLow else some low, now := max s.clk.now (refEdge high + 32) } = _
  rw [if_neg (Nat.not_le_of_lt h.1)]
  rfl

theorem State.pulseFields_tb {s : State} {high low : Nat} (h : s.seesPulse high low) :
    (s.pulseFields high low).tb = (s.upto (refEdge high + 32)).tb := by
  unfold State.tb State.tbAt
  rw [State.pulseFields_clk h]

theorem State.pulseFields_aligned {s : State} {high low : Nat} (h : s.seesPulse high low) :
    (s.pulseFields high low).alignedNow = (s.upto (refEdge high + 32)).alignedNow := by
  unfold State.alignedNow
  rw [State.pulseFields_clk h, (s.pulseFields_within high low).linkEq]
  rfl

theorem State.pulseFields_crossing {s : State} {high low : Nat} (h : s.seesPulse high low) (i : Nat) :
    (s.pulseFields high low).crossingRuns i = (s.upto (refEdge high + 32)).crossingRuns i := by
  unfold State.crossingRuns
  rw [State.pulseFields_clk h]

section
variable {s : State} {high low : Nat} {slips : BitVec 16} (hu : s.undef = false) (hr : s.coreRuns = true) (hs : s.seesPulse high low)
  (hv : s.link.pendView = none)
include hu hr hs hv

/-- The first pulse anchors the time base (R310). -/
theorem epoch_first (h0 : 0 ≤ ((s.upto (refEdge high + 32)).clk.now : Int) + s.clk.ofs) (hf : s.clk.firstEpoch = true) :
    let u := s.upto (refEdge high + 32)
    Gives (.epoch (.pulse high low) slips) s (fun t =>
        t.clk.now = u.clk.now ∧ t.tb % t.epochTicks = 0 ∧ u.tb ≤ t.tb ∧ t.tb < u.tb + t.epochTicks ∧ t.clk.timeValid = true ∧
        t.clk.timeCoarse = false ∧ t.clk.firstEpoch = false ∧ t.clk.epochCount = BitVec.ofNat 48 (t.tb / t.epochTicks) ∧
        t.clk.epochDue = some (t.clk.now + t.epochTicks) ∧ t.clk.epochLow = some low ∧
        (s.clk.timeCoarse = true → (t.flag (clkA 0xC)).getLsbD 9 = true) ∧ t.clu = s.clu ∧
        (t.link.ensEpoch = s.link.ensEpoch + 1 ∧ t.link.state = s.link.state ∧ t.link.view = s.link.view ∧
          t.link.generation = s.link.generation ∧ t.link.memberIdx = s.link.memberIdx ∧ t.link.ports = s.link.ports) ∧
        (t.tb = u.tb → t.link = { s.link with ensEpoch := s.link.ensEpoch + 1 }) ∧ (t.tb ≠ u.tb → (t.flag (lnkA 0x40)).getLsbD 4 = true) ∧
        Within [.clk, .eff, .flg, .wl, .link, .msix] s t) := by
  intro u
  have hx := exec_epochSeen (slips := slips) hu hr hs
  have hfirst : (s.pulseFields high low).clk.firstEpoch = true := by rw [State.pulseFields_clk hs]; exact hf
  rw [State.epochAt_first hfirst hv] at hx
  have hA := s.pulseFields_within high low
  have hclkA := State.pulseFields_clk hs
  have htbA := State.pulseFields_tb hs
  change exec _ s = .next (s.pulseFields high low).afterFirst at hx
  generalize s.pulseFields high low = A at hx hA hclkA htbA
  have hruns : A.clk.timeRuns = true := by
    rw [hclkA]
    unfold State.coreRuns at hr
    simp only [Bool.and_eq_true] at hr
    exact hr.1.2
  have hw := A.afterFirst_within
  have hticks : A.afterFirst.epochTicks = A.epochTicks := State.epochTicks_congr hw.effEq
  have htb : A.afterFirst.tb = (A.tb + A.epochTicks - 1) / A.epochTicks * A.epochTicks := State.afterFirst_tb hruns (by rw [hclkA]; exact h0)
  obtain ⟨hle, hlt⟩ := leastMultiple_bounds A.tb A.epochTicks_pos
  obtain ⟨m, a, g, hclk⟩ := A.afterFirst_clk
  obtain ⟨hmoved, hsame⟩ := A.epochFirst_link A.epochTicks
  have hlink := A.afterFirst_link
  have hlinkA : A.link = s.link := hA.linkEq
  have hstep : A.anchorStep A.epochTicks = (((A.tb + A.epochTicks - 1) / A.epochTicks * A.epochTicks : Nat) : Int) - (A.tb : Int) := rfl
  obtain ⟨hcoarse, hstepped⟩ := A.epochFirst_flags A.epochTicks
  have hnow : A.clk.now = u.clk.now := by rw [hclkA]
  refine ⟨_, hx, ?_, ?_, ?_, ?_, by rw [hclk], by rw [hclk], by rw [hclk], ?_, ?_, by rw [hclk, hclkA], fun h => ?_, ?_, ?_, fun h => ?_, fun h => ?_,
    (hA.mono (by decide)).step hw (by decide)⟩
  · rw [hclk, hclkA]
  · rw [htb, hticks, Nat.mul_mod_left]
  · rw [htb, ← htbA]; exact hle
  · rw [htb, hticks, ← htbA]; exact hlt
  · rw [htb, hticks, Nat.mul_div_cancel _ A.epochTicks_pos, hclk]
  · rw [hticks, hclk]
  · rw [A.afterFirst_counts.flagEq]
    exact hcoarse (by rw [hclkA]; exact h)
  · exact (hw.cluEq (by decide)).trans (hA.cluEq (by decide))
  · rw [hlink]
    obtain ⟨he, hst, hvw, hg, hm, hp, -⟩ := hmoved
    rw [← hlinkA]
    exact ⟨congrArg (· + 1) he, hst, hvw, hg, hm, hp⟩
  · rw [hlink, hsame (by rw [hstep, ← htb, h, htbA]; exact Int.sub_self _), hlinkA]
  · rw [A.afterFirst_counts.flagEq]
    change A.afterFirst.tb ≠ (s.upto (refEdge high + 32)).tb at h
    exact hstepped (by rw [hstep, ← htb, htbA]; omega)

/-- A later pulse keeps the time base, and aligns the crossings where it is a multiple of the period (R310, R421, R425). -/
theorem epoch_later (hf : s.clk.firstEpoch = false) :
    let u := s.upto (refEdge high + 32)
    Gives (.epoch (.pulse high low) slips) s (fun t =>
        t.clk.now = u.clk.now ∧ t.tb = u.tb ∧ t.clk.epochDue = some (t.clk.now + t.epochTicks) ∧
        t.link = { s.link with ensEpoch := s.link.ensEpoch + 1 } ∧
        (u.tb % t.epochTicks = 0 → t.clk.epochCount = BitVec.ofNat 48 (u.tb / t.epochTicks) ∧
          t.clk.aligned = u.alignedNow &&& 0x0FFF ∧ t.clk.checkAt = some (t.clk.now + 64) ∧
          (∃ m : BitVec 16, t.clk.aligning = some (t.clk.now + 64, m) ∧
            ∀ i, i < 12 → m.getLsbD i = (!u.alignedNow.getLsbD i && u.crossingRuns i)) ∧
          Within [.clk, .eff, .link] s t) ∧
        (u.tb % t.epochTicks ≠ 0 → (t.flag (lnkA 0x40)).getLsbD 11 = true ∧ t.flt.seq = s.flt.seq + 1 ∧ t.clk.checkAt = none ∧
          t.clk.aligned = s.clk.aligned ∧ t.clk.aligning = s.clk.aligning ∧ Within [.clk, .eff, .flg, .ctr, .link, .msix, .flt] s t)) := by
  intro u
  have hx := exec_epochSeen (slips := slips) hu hr hs
  have hA := s.pulseFields_within high low
  have hclkA := State.pulseFields_clk hs
  have htbA := State.pulseFields_tb hs
  have halA := State.pulseFields_aligned hs
  have hcrA := State.pulseFields_crossing hs
  have hlater : (s.pulseFields high low).clk.firstEpoch = false := by rw [hclkA]; exact hf
  have haligned := State.epochAt_aligned (t := refEdge high + 32) (s := s.epochSeen high low) hlater hv
  have hslipped := State.epochAt_slipped (t := refEdge high + 32) (s := s.epochSeen high low) hlater hv
  change (s.pulseFields high low).tb % (s.pulseFields high low).epochTicks = 0 → _ = (s.pulseFields high low).afterAligned at haligned
  change (s.pulseFields high low).tb % (s.pulseFields high low).epochTicks ≠ 0 → _ = (s.pulseFields high low).afterSlipped at hslipped
  generalize s.pulseFields high low = A at hA hclkA htbA halA hcrA haligned hslipped
  have hlinkA : A.link = s.link := hA.linkEq
  by_cases hm : A.tb % A.epochTicks = 0
  · rw [haligned hm] at hx
    have hw := A.afterAligned_within
    have hticks : A.afterAligned.epochTicks = A.epochTicks := State.epochTicks_congr hw.effEq
    have hclk := A.afterAligned_clk
    refine ⟨_, hx, by rw [hclk, hclkA], ?_, by rw [hticks, hclk], ?_, fun _ => ⟨?_, by rw [hclk, halA], by rw [hclk], ⟨_, by rw [hclk], fun i hi => ?_⟩,
      (hA.mono (by decide)).step hw (by decide)⟩, fun hne => absurd (by rw [hticks, ← htbA]; exact hm) hne⟩
    · rw [← htbA]
      unfold State.tb State.tbAt
      rw [hclk]
    · rw [← hlinkA]; rfl
    · rw [hticks, hclk, ← htbA]
      exact congrArg (BitVec.ofNat 48) (roundedCount_of_dvd A.epochTicks_pos hm)
    · rw [freshCrossings_getLsbD A hi, halA, hcrA]
  · rw [hslipped hm] at hx
    have hw := A.afterSlipped_within
    have hticks : A.afterSlipped.epochTicks = A.epochTicks := State.epochTicks_congr hw.effEq
    have hclk := A.afterSlipped_clk
    obtain ⟨hflag, hseq⟩ := A.afterSlipped_says
    refine ⟨_, hx, by rw [hclk, hclkA], ?_, by rw [hticks, hclk], by rw [A.afterSlipped_link, hlinkA],
      fun h0 => absurd (by rw [hticks, ← htbA] at h0; exact h0) hm, fun _ => ⟨hflag, by rw [hseq, hA.fltEq], by rw [hclk], by rw [hclk, hclkA]; rfl,
        by rw [hclk, hclkA]; rfl, (hA.mono (by decide)).step hw (by decide)⟩⟩
    rw [← htbA]
    unfold State.tb State.tbAt
    rw [hclk]

end

/-! ### The comparison 64 ticks on -/

/-- The clock but for which crossings are aligned. -/
def Clock.time (c : Clock) : Clock := { c with aligned := 0, aligning := none }

theorem State.slip_time (s : State) (i at_ : Nat) : (s.slip i at_).clk.time = s.clk.time := by
  have hw : Within [.flg, .ctr, .msix, .flt] (s.misalign (crossBits [i])) (s.slip i at_) :=
    (((State.setBit_within _ (clkA 0x24) i).mono (by decide)).step (State.count_within _ _ _) (by decide)).step (State.alignFault_within _ _ _ _) (by decide)
  rw [hw.clkEq, State.misalign_clk]
  rfl

theorem State.slip_aligned (s : State) (i at_ : Nat) {j : Nat} (hj : j < 16) :
    (s.slip i at_).clk.aligned.getLsbD j = (s.clk.aligned.getLsbD j && !decide (j = i)) := by
  have hw : Within [.flg, .ctr, .msix, .flt] (s.misalign (crossBits [i])) (s.slip i at_) :=
    (((State.setBit_within _ (clkA 0x24) i).mono (by decide)).step (State.count_within _ _ _) (by decide)).step (State.alignFault_within _ _ _ _) (by decide)
  rw [hw.clkEq, State.misalign_clk]
  show (s.clk.aligned &&& ~~~crossBits [i]).getLsbD j = _
  rw [BitVec.getLsbD_and, BitVec.getLsbD_not, crossBits_getLsbD _ hj]
  simp [hj]

theorem State.slip_flag (s : State) (at_ : Nat) {i j : Nat} (hi : i < 12) (hj : j < 12) :
    ((s.slip i at_).flag (clkA 0x24)).getLsbD j = ((s.flag (clkA 0x24)).getLsbD j || decide (j = i)) := by
  have hi32 : i < 32 := Nat.lt_trans hi (by decide)
  unfold State.slip State.alignFault
  rw [State.report_flags _ _ (clkA 0x24) (by decide) (by decide), (State.count_within _ _ _).flagEq, State.flag_setBit_self _ _ (by decide),
    (State.misalign_within _ _).flagEq, BitVec.getLsbD_or]
  refine congrArg ((s.flag (clkA 0x24)).getLsbD j || ·) ?_
  exact getLsbD_bit (Nat.lt_trans hj (by decide))

/-- The crossings of a list slip one after the other. -/
def State.slipAll (s : State) (l : List Nat) (at_ : Nat) : State := l.foldl (fun s i => s.slip i at_) s

theorem State.slipAll_time (s : State) (l : List Nat) (at_ : Nat) : (s.slipAll l at_).clk.time = s.clk.time :=
  foldl_keeps (fun u => u.clk.time) l _ (fun u i => u.slip_time i at_) s

theorem State.slipAll_aligned (s : State) (l : List Nat) (at_ : Nat) {j : Nat} (hj : j < 16) :
    (s.slipAll l at_).clk.aligned.getLsbD j = (s.clk.aligned.getLsbD j && !decide (j ∈ l)) := by
  unfold State.slipAll
  induction l generalizing s with
  | nil => simp
  | cons i r ih =>
    rw [List.foldl_cons, ih, State.slip_aligned s i at_ hj, Bool.and_assoc]
    simp [List.mem_cons]

theorem State.slipAll_flag (s : State) {l : List Nat} (at_ : Nat) {j : Nat} (hl : ∀ i ∈ l, i < 12) (hj : j < 12) :
    ((s.slipAll l at_).flag (clkA 0x24)).getLsbD j = ((s.flag (clkA 0x24)).getLsbD j || decide (j ∈ l)) := by
  unfold State.slipAll
  induction l generalizing s with
  | nil => simp
  | cons i r ih =>
    rw [List.foldl_cons, ih _ (fun k hk => hl k (List.mem_cons_of_mem _ hk)), State.slip_flag s at_ (hl i List.mem_cons_self) hj, Bool.or_assoc]
    simp [List.mem_cons]

theorem State.slipAll_within (s : State) (l : List Nat) (at_ : Nat) : Within [.clk, .flg, .ctr, .link, .msix, .flt] s (s.slipAll l at_) :=
  Within.fold (Within.refl _ s) (fun _ i hu => hu.step (State.slip_within _ i at_) (by decide))

/-- The ports whose crossings slip fall and train again (R422). -/
def State.portSlips (s : State) (slips : BitVec 16) : State :=
  (allFin 4).foldl (fun s (p : Fin 4) => if slips.getLsbD (12 + p.val) then s.portSlip p else s) s

theorem State.portSlips_within (s : State) (slips : BitVec 16) : Within [.flg, .ctr, .link, .msix] s (s.portSlips slips) :=
  Within.fold (Within.refl _ s) (fun _ p hu => Within.ite (hu.step (State.portSlip_within _ p) (by decide)) hu)

theorem LowFlags.portSlips (s : State) (slips : BitVec 16) : LowFlags s (s.portSlips slips) := by
  refine LowFlags.fold (fun u p => LowFlags.ite ?_ (LowFlags.refl u)) _ s
  unfold State.portSlip State.portFall
  exact LowFlags.ite (((LowFlags.of_within (State.modPort_within u _ _)).trans (LowFlags.setBitIf _ _ _ (by decide))).trans
    (LowFlags.of_within (State.portTrain_within _ _))) (LowFlags.refl u)

/-- The comparison begins at its tick. -/
def State.checkBegun (s : State) (d : Nat) : State := (s.upto d).modClk (fun c => { c with checkAt := none })

/-- The crossings that it finds slipped (R422). -/
def State.slipped (s : State) (slips : BitVec 16) : List Nat :=
  (List.range 12).filter (fun i => s.clk.aligned.getLsbD i && slips.getLsbD i)

theorem State.mem_slipped (s : State) (slips : BitVec 16) (i : Nat) :
    i ∈ s.slipped slips ↔ i < 12 ∧ s.clk.aligned.getLsbD i = true ∧ slips.getLsbD i = true := by
  unfold State.slipped
  simp [List.mem_filter]

/-- The crossings and the ports have slipped; the clusters are still to act. -/
def State.crossesSlipped (s : State) (slips : BitVec 16) (d : Nat) : State :=
  (((s.checkBegun d).slipAll (s.slipped slips) d)).portSlips slips

theorem State.crossCheck_eq {s : State} {d : Nat} (slips : BitVec 16) (h : s.clk.checkAt = some d) :
    s.crossCheck slips = (s.crossesSlipped slips d).alignAction (s.slipped slips) d := by
  unfold State.crossCheck
  rw [h]
  rfl

theorem State.crossesSlipped_within (s : State) (slips : BitVec 16) (d : Nat) : Within [.clk, .flg, .ctr, .link, .msix, .flt] s
    (s.crossesSlipped slips d) :=
  ((((State.upto_within s d).mono (by decide)).step (State.modClk_within _ _) (by decide)).step (State.slipAll_within _ _ _) (by decide)).step
    (State.portSlips_within _ _) (by decide)

theorem State.crossesSlipped_time (s : State) (slips : BitVec 16) (d : Nat) :
    (s.crossesSlipped slips d).clk.time = { (s.upto d).clk.time with checkAt := none } := by
  unfold State.crossesSlipped
  rw [(State.portSlips_within _ _).clkEq, State.slipAll_time]
  rfl

theorem State.crossesSlipped_aligned (s : State) (slips : BitVec 16) (d : Nat) :
    (s.crossesSlipped slips d).clk.aligned = s.clk.aligned &&& ~~~(slips &&& 0x0FFF) := by
  refine BitVec.eq_of_getLsbD_eq fun j hj => ?_
  unfold State.crossesSlipped
  rw [(State.portSlips_within _ _).clkEq, State.slipAll_aligned _ _ _ hj]
  show (s.clk.aligned.getLsbD j && !decide (j ∈ s.slipped slips)) = _
  have hlow : (0x0FFF : BitVec 16).getLsbD j = decide (j < 12) := by
    have hall : ∀ j : Fin 16, (0x0FFF : BitVec 16).getLsbD j.val = decide (j.val < 12) := by decide
    exact hall ⟨j, hj⟩
  rw [BitVec.getLsbD_and, BitVec.getLsbD_not, BitVec.getLsbD_and, hlow, decide_eq_true hj, Bool.true_and]
  cases ha : s.clk.aligned.getLsbD j with
  | false => rfl
  | true =>
    have hmem := s.mem_slipped slips j
    rw [ha] at hmem
    refine congrArg (fun b => true && b) (congrArg (fun b => !b) (Bool.eq_iff_iff.2 ?_))
    rw [decide_eq_true_iff, hmem, Bool.and_eq_true_iff, decide_eq_true_iff]
    exact ⟨fun k => ⟨k.2.2, k.1⟩, fun k => ⟨k.2, rfl, k.1⟩⟩

theorem State.crossCheck_flag {s : State} {d j : Nat} (slips : BitVec 16) (h : s.clk.checkAt = some d) (hj : j < 12) :
    ((s.crossCheck slips).flag (clkA 0x24)).getLsbD j = ((s.flag (clkA 0x24)).getLsbD j || (s.clk.aligned.getLsbD j && slips.getLsbD j)) := by
  rw [State.crossCheck_eq slips h, LowFlags.alignAction _ _ _ (clkA 0x24) (by decide) (by decide)]
  unfold State.crossesSlipped
  rw [LowFlags.portSlips _ _ (clkA 0x24) (by decide) (by decide),
    State.slipAll_flag _ _ (fun i hi => ((s.mem_slipped slips i).1 hi).1) hj]
  show ((s.flag (clkA 0x24)).getLsbD j || decide (j ∈ s.slipped slips)) = _
  refine congrArg ((s.flag (clkA 0x24)).getLsbD j || ·) (Bool.eq_iff_iff.2 ?_)
  rw [decide_eq_true_iff, s.mem_slipped slips j, Bool.and_eq_true_iff]
  exact and_iff_right hj

/-- A cluster in action that a slipped crossing serves stops where its alignment action is HALT (R458, R459). -/
theorem State.crossCheck_clu {s : State} {d : Nat} (slips : BitVec 16) (h : s.clk.checkAt = some d) (n : Clu) :
    if s.inAction n = true ∧ s.halts n = true ∧ (∃ i ∈ s.crossingsOf n, i < 12 ∧ s.clk.aligned.getLsbD i = true ∧ slips.getLsbD i = true)
      then (s.crossCheck slips).clu[n].state = .idle ∧ (s.crossCheck slips).clu[n].stopReason = 4 else (s.crossCheck slips).clu[n] = s.clu[n] := by
  have hw := s.crossesSlipped_within slips d
  have hsame := getClu_of_eq (hw.cluEq (by decide)) n
  have hview : (s.crossesSlipped slips d).alignView n = s.alignView n :=
    Prod.ext hsame (congrArg (fun m => smGet resetWord m (cluA n 0x1C0)) hw.effEq)
  have hact := (s.crossesSlipped slips d).alignAction_clu (s.slipped slips) d n
  rw [hview, hsame, ← State.crossCheck_eq slips h] at hact
  have hiff := Cluster.halted_iff s (s.slipped slips) n
  simp only [State.mem_slipped] at hiff
  by_cases hh : Cluster.halted (s.alignView n) (s.slipped slips) = true
  · rw [if_pos hh] at hact
    rw [if_pos (hiff.1 hh)]
    exact hact
  · rw [if_neg hh] at hact
    rw [if_neg (fun k => hh (hiff.2 k))]
    exact hact

/-- What the comparison leaves of the clock. -/
theorem State.crossCheck_clk {s : State} {d : Nat} (slips : BitVec 16) (h : s.clk.checkAt = some d) :
    (s.crossCheck slips).clk.time = { (s.upto d).clk.time with checkAt := none } ∧
    (s.crossCheck slips).clk.aligned = s.clk.aligned &&& ~~~(slips &&& 0x0FFF) := by
  have htime := s.crossesSlipped_time slips d
  have hnow : d ≤ (s.crossesSlipped slips d).clk.now := (Nat.le_max_right s.clk.now d).trans (Nat.le_of_eq (congrArg Clock.now htime).symm)
  rw [State.crossCheck_eq slips h, State.alignAction_clk _ hnow]
  exact ⟨htime, s.crossesSlipped_aligned slips d⟩

theorem exec_epochCheck {s : State} {slips : BitVec 16} (hu : s.undef = false) (hr : s.coreRuns = true) :
    exec (.epoch .check slips) s = .next (s.crossCheck slips) := by
  show execEpoch .check slips s = _
  rw [execEpoch, guarded_next hu]
  exact congrArg Host.Outcome.next (if_neg (by rw [hr]; decide))

theorem epoch_check {s : State} {slips : BitVec 16} (hu : s.undef = false) (hr : s.coreRuns = true) {d : Nat} (h : s.clk.checkAt = some d) :
    Gives (.epoch .check slips) s (fun t =>
      t.clk.checkAt = none ∧ t.clk.now = max s.clk.now d ∧ t.clk.aligned = s.clk.aligned &&& ~~~(slips &&& 0x0FFF) ∧ t.tb = (s.upto d).tb ∧
      (∀ i, i < 12 → (t.flag (clkA 0x24)).getLsbD i =
        ((s.flag (clkA 0x24)).getLsbD i || (s.clk.aligned.getLsbD i && slips.getLsbD i))) ∧
      (∀ n : Clu, if s.inAction n = true ∧ s.halts n = true ∧
            (∃ i ∈ s.crossingsOf n, i < 12 ∧ s.clk.aligned.getLsbD i = true ∧ slips.getLsbD i = true)
        then t.clu[n].state = .idle ∧ t.clu[n].stopReason = 4 else t.clu[n] = s.clu[n]) ∧
      Within [.clk, .eff, .flg, .ctr, .cmd, .more, .tabs, .clu, .wl, .gov, .pg, .pin, .link, .host, .msix, .flt, .plc] s t) := by
  obtain ⟨htime, haligned⟩ := State.crossCheck_clk slips h
  refine ⟨_, exec_epochCheck hu hr, (congrArg Clock.checkAt htime :), (congrArg Clock.now htime :), haligned, ?_,
    fun i hi => State.crossCheck_flag slips h hi, State.crossCheck_clu slips h, State.crossCheck_within s slips⟩
  exact (congrArg (fun c : Clock => (((if c.timeRuns then c.now else c.stoppedAt : Nat) : Int) + c.ofs).toNat) htime :)

/-! ### A pulse that does not come (R425) -/

theorem epoch_late {s : State} (hu : s.undef = false) (hr : s.coreRuns = true) {d : Nat} (h : s.clk.epochDue = some d) :
    Gives .epochLate s (fun t =>
      t.clk.now = max s.clk.now (d + 16) ∧ t.clk.epochDue = some (d + s.epochTicks) ∧
      t.flag (clkA 0xC) = s.flag (clkA 0xC) ||| bit32 7 ∧ FlagsBut [clkA 0xC] s t ∧ Within [.clk, .flg, .msix] s t) := by
  have hx : exec .epochLate s = .next (((s.upto (d + 16)).modClk (fun c => { c with epochDue := some (d + s.epochTicks) })).setBit (clkA 0xC) 7) := by
    show execEpochLate s = _
    rw [execEpochLate, guarded_next hu]
    simp only [h, hr]
    rfl
  have hw := State.setBit_within ((s.upto (d + 16)).modClk (fun c => { c with epochDue := some (d + s.epochTicks) })) (clkA 0xC) 7
  exact ⟨_, hx, congrArg Clock.now hw.clkEq, congrArg Clock.epochDue hw.clkEq, State.flag_setBit_self _ _ (by decide),
    (FlagsBut.refl [clkA 0xC] s).trans ((FlagsBut.refl [clkA 0xC] _).setBit 7 List.mem_cons_self),
    (((State.upto_within s _).mono (by decide)).step (State.modClk_within _ _) (by decide)).step hw (by decide)⟩

/-! ### The obligation -/

/-- Settles O15: a pulse with no change of the view pending changes the link's count alone, and a stop sets no flag of the clocks. -/
theorem epochAnchorsTheTimeBase : Obligations.EpochAnchorsTheTimeBase := by
  unfold Obligations.EpochAnchorsTheTimeBase
  intro s high low slips hu hr
  refine ⟨fun hn => ?_, fun hs hv h0 => ⟨fun hf => epoch_first hu hr hs hv h0 hf, fun hf => epoch_later hu hr hs hv hf⟩,
    fun d h => epoch_check hu hr h, fun d h => epoch_late hu hr h⟩
  exact ⟨_, exec_epochUnseen hu hr hn, rfl, State.modClk_within s _⟩

end Sys2Proof.Machine
end

