-- ==== Sys2Proof/Proofs/Publishing.lean ====
section
/-! PROOF. Publish commands are queued, run entry by entry and complete (R132 to R136, R145, R148, R381; O51). -/
namespace Sys2Proof.Machine

/-! ### PUB_GO -/

/-- The parameters of the oldest write of GO. -/
def State.goParams (s : State) : Nat × Nat × BitVec 8 :=
  s.plc.goes.head?.getD (fld (s.cfgW (plcA 4)) 16 0, fld (s.cfgW (plcA 8)) 12 0, BitVec.ofNat 8 (fld (s.cfgW (plcA 0)) 15 8))

/-- That write is taken out of the ones that wait. -/
def State.goPopped (s : State) : State := s.modPlc (fun p => { p with goes := p.goes.tail })

/-- GO stays while further writes of it wait. -/
def State.goTaken (s : State) : State := if s.goPopped.plc.goes = [] then s.goPopped.cmdDrop (plcA 0) 1 else s.goPopped

/-- The command as it is queued (R132, R133). -/
def State.goCommand (s : State) (x : Nat × Nat × BitVec 8) : PubCmd :=
  { first := x.1, count := max 1 (min 4096 x.2.1), mask := x.2.2, snapshot := s.host.wrAccepted
    layouts := (setBits 8 x.2.2.toNat).map (fun n => s.layoutOf (Fin.ofNat 8 n)) }

/-- A command is queued; it starts to run where none was before it (R134). -/
def State.goQueued (s : State) (c : PubCmd) : State :=
  s.modPlc (fun p => { p with queue := p.queue ++ [c], code := if p.queue = [] then 0 else p.code
                              refuseIdx := if p.queue = [] then 0 else p.refuseIdx })

theorem exec_pubGo {s : State} (hu : s.undef = false) (hp : s.prepared 6 = false) : exec .pubGo s = .next
    (if 16 ≤ s.goTaken.plc.queue.length then s.goTaken.setBit (plcA 0x10) 10
      else (s.goTaken.goQueued (s.goTaken.goCommand s.goParams)).goRolls) := by
  show execPubGo s = _
  rw [execPubGo, guarded_next hu]
  exact congrArg Host.Outcome.next (if_neg (by rw [hp]; decide))

theorem State.goTaken_plc (s : State) : s.goTaken.plc = { s.plc with goes := s.plc.goes.tail } := by
  unfold State.goTaken
  split
  · rfl
  · rfl

theorem State.goTaken_within (s : State) : Within [.cmd, .more, .plc] s s.goTaken :=
  Within.ite (((State.modPlc_within s _).mono (by decide)).step (State.cmdDrop_within _ _ _) (by decide))
    ((State.modPlc_within s _).mono (by decide))

/-- What the other part of PUB_GO leaves of the command bit. -/
theorem State.goTaken_bit (s : State) : (s.plc.goes.tail = [] → Drops (plcA 0) 1 s s.goTaken) ∧
    (s.plc.goes.tail ≠ [] → CmdsBut [] s s.goTaken) := by
  unfold State.goTaken
  refine ⟨fun h => ?_, fun h => ?_⟩
  · rw [if_pos (show s.goPopped.plc.goes = [] from h)]
    exact State.cmdDrop_drops s.goPopped (plcA 0) 1
  · rw [if_neg (show ¬ s.goPopped.plc.goes = [] from h)]
    exact (State.modPlc_within s _).cmdsBut _

/-- Capo rolls where the command would overflow the head area (R148). -/
theorem State.goRolls_plc (s : State) : s.goRolls.plc = { s.plc with rolling := s.goRolls.plc.rolling } ∧
    (s.goRolls.plc.rolling = true ↔ s.plc.rolling = true ∨
      (s.rollEn = true ∧ s.allIdle = true ∧ s.headCap < s.headsBut 131072 + s.queuedHeads)) := by
  have hif : s.goRolls = if !s.plc.rolling && s.rollEn && s.allIdle && decide (s.headCap < s.headsBut 131072 + s.queuedHeads)
      then s.modPlc (fun p => { p with rolling := true }) else s := rfl
  rw [hif]
  cases hr : s.plc.rolling
  · by_cases h : s.rollEn = true ∧ s.allIdle = true ∧ s.headCap < s.headsBut 131072 + s.queuedHeads
    · obtain ⟨he, ha, hh⟩ := h
      rw [he, ha, decide_eq_true hh]
      exact ⟨rfl, fun _ => Or.inr ⟨rfl, rfl, hh⟩, fun _ => rfl⟩
    · rw [if_neg (by simpa [and_assoc] using h), hr]
      exact ⟨by rw [← hr], iff_of_false Bool.false_ne_true (fun k => k.elim Bool.false_ne_true h)⟩
  · rw [if_neg (by simp), hr]
    exact ⟨by rw [← hr], iff_of_true rfl (Or.inl rfl)⟩

/-- What Capo weighs reads no command word. -/
theorem State.headsBut_cmd (s : State) (c m : SMap Word) (i : Nat) : ({ s with cmd := c, more := m } : State).headsBut i = s.headsBut i := rfl
theorem State.queuedHeads_cmd (s : State) (c m : SMap Word) : ({ s with cmd := c, more := m } : State).queuedHeads = s.queuedHeads := rfl

/-- The queued command, with the command words as they were: what `goQueued` weighs differs from it in them alone. -/
theorem State.goQueued_taken (s : State) (c : PubCmd) : ∃ x m, s.goTaken.goQueued c = { s.goPopped.goQueued c with cmd := x, more := m } := by
  unfold State.goTaken
  split
  · exact ⟨_, _, rfl⟩
  · exact ⟨s.cmd, s.more, rfl⟩

theorem State.goCommand_taken (s : State) (x : Nat × Nat × BitVec 8) : s.goTaken.goCommand x = s.goCommand x := by
  unfold State.goTaken
  split
  · rfl
  · rfl

theorem goBit_of_within {l : List Field} {s t : State} (h : Within l s.goTaken t) (hc : Field.cmd ∉ l := by decide) (hm : Field.more ∉ l := by decide) :
    (s.plc.goes.tail = [] → Drops (plcA 0) 1 s t) ∧ (s.plc.goes.tail ≠ [] → CmdsBut [] s t) := by
  obtain ⟨hdrop, hkeep⟩ := s.goTaken_bit
  have hcmds : CmdsBut [] s.goTaken t := h.cmdsBut _ hc hm
  refine ⟨fun k => ?_, fun k => (hkeep k).trans hcmds⟩
  obtain ⟨hself, hmore, hbut⟩ := hdrop k
  obtain ⟨hw, hr⟩ := hcmds (plcA 0) List.not_mem_nil
  exact ⟨hw.trans hself, hr.trans hmore, hbut.trans (h.cmdsBut _ hc hm)⟩

/-- PUB_GO queues its command (R132, R133, R134, R148). -/
theorem pubGo_queues {s : State} (hu : s.undef = false) (hp : s.prepared 6 = false) (hq : s.plc.queue.length < 16) :
    Gives .pubGo s (fun t => t.plc = { (s.goPopped.goQueued (s.goCommand s.goParams)).plc with rolling := t.plc.rolling } ∧
      (t.plc.rolling = true ↔ s.plc.rolling = true ∨ (s.rollEn = true ∧ s.allIdle = true ∧ s.headCap <
        (s.goPopped.goQueued (s.goCommand s.goParams)).headsBut 131072 + (s.goPopped.goQueued (s.goCommand s.goParams)).queuedHeads)) ∧
      ((s.plc.goes.tail = [] → Drops (plcA 0) 1 s t) ∧ (s.plc.goes.tail ≠ [] → CmdsBut [] s t)) ∧ Within [.cmd, .more, .plc] s t) := by
  have hx := exec_pubGo hu hp
  rw [s.goTaken_plc, if_neg (Nat.not_le_of_lt hq), State.goCommand_taken] at hx
  generalize s.goCommand s.goParams = c at hx ⊢
  obtain ⟨x, m, heq⟩ := s.goQueued_taken c
  obtain ⟨hplc, hroll⟩ := State.goRolls_plc (s.goTaken.goQueued c)
  have hw : Within [.plc] s.goTaken (s.goTaken.goQueued c).goRolls := (State.modPlc_within _ _).step (State.goRolls_within _) (by decide)
  refine ⟨_, hx, ?_, ?_, goBit_of_within hw, s.goTaken_within.step hw (by decide)⟩
  · refine hplc.trans ?_
    rw [heq]
  · rw [heq] at hroll ⊢
    exact hroll

/-- With 16 commands waiting it is dropped with OVERFLOW (R133). -/
theorem pubGo_overflows {s : State} (hu : s.undef = false) (hp : s.prepared 6 = false) (hq : 16 ≤ s.plc.queue.length) :
    Gives .pubGo s (fun t => t.plc = { s.plc with goes := s.plc.goes.tail } ∧ t.flag (plcA 0x10) = s.flag (plcA 0x10) ||| bit32 10 ∧
      ((s.plc.goes.tail = [] → Drops (plcA 0) 1 s t) ∧ (s.plc.goes.tail ≠ [] → CmdsBut [] s t)) ∧
      Within [.flg, .cmd, .more, .msix, .plc] s t) := by
  have hx := exec_pubGo hu hp
  rw [s.goTaken_plc, if_pos hq] at hx
  have hw := State.setBit_within s.goTaken (plcA 0x10) 10
  exact ⟨_, hx, hw.plcEq.trans s.goTaken_plc,
    (State.flag_setBit_self _ _ (by decide)).trans (congrArg (· ||| bit32 10) (s.goTaken_within.flagEq _)), goBit_of_within hw,
    (s.goTaken_within.mono (by decide)).step hw (by decide)⟩

/-! ### Completion (R133, R134) -/

theorem State.publishFinish_done {s : State} {c : PubCmd} {r : List PubCmd} {i : Nat} (hq : s.plc.queue = c :: r) (hn : s.plc.next = some i)
    (hl : c.last ≤ i) (hj : s.plc.jobs = []) : s.publishFinish =
      (s.modPlc (fun p => { p with queue := r, next := none, code := if r = [] then p.code else 0
                                   refuseIdx := if r = [] then p.refuseIdx else 0 })).setBit (plcA 0x10) 8 := by
  unfold State.publishFinish
  rw [hq, hn, hj]
  exact if_neg (by simpa using hl)

theorem State.publishFinish_waits {s : State} (hj : s.plc.jobs.any (fun j => !j.keep) = true) : s.publishFinish = s := by
  unfold State.publishFinish
  split
  · exact if_pos (Or.inr hj)
  · rfl

/-! ### One entry -/

theorem PubCmd.last_of_one {c : PubCmd} (h1 : c.count = 1) (hf : c.first < 131072) : c.last = c.first + 1 := by
  unfold PubCmd.last
  omega

/-- A command of one entry takes it, where room for it does not have to be waited for. -/
theorem State.publishFrom_one {s : State} {c : PubCmd} (h1 : c.count = 1) (hf : c.first < 131072) (hb : s.publishBlocked c c.first = false) :
    s.publishFrom c c.count c.first = (s.publishEntry c c.first).modPlc (fun p => { p with next := some (c.first + 1) }) := by
  rw [h1]
  unfold State.publishFrom
  rw [if_neg (by rw [hb, PubCmd.last_of_one h1 hf]; simp)]
  rfl

theorem exec_publishRun {s : State} {c : PubCmd} {r : List PubCmd} (hu : s.undef = false) (hq : s.plc.queue = c :: r) (hn : s.plc.next = none) :
    exec .publishRun s = .next (if 2 ^ 31 ≤ (s.host.wrDrained - c.snapshot).toNat then s
      else ((s.setBitIf (decide (131072 < c.first + c.count)) (plcA 0x10) 11).publishFrom c c.count c.first).publishFinish) := by
  show execPublishRun s = _
  rw [execPublishRun, guarded_next hu]
  simp only [hq, hn]

/-- The command of one entry that runs. -/
theorem exec_publishOne {s : State} {c : PubCmd} {r : List PubCmd} (hu : s.undef = false) (hq : s.plc.queue = c :: r) (hn : s.plc.next = none)
    (hd : (s.host.wrDrained - c.snapshot).toNat < 2 ^ 31) (h1 : c.count = 1) (hf : c.first < 131072) (hb : s.publishBlocked c c.first = false) :
    exec .publishRun s = .next ((s.publishEntry c c.first).modPlc (fun p => { p with next := some (c.first + 1) })).publishFinish := by
  have hstay : s.setBitIf (decide (131072 < c.first + c.count)) (plcA 0x10) 11 = s := if_neg (by simp; omega)
  rw [exec_publishRun hu hq hn, if_neg (Nat.not_le_of_lt hd), hstay, State.publishFrom_one h1 hf hb]

/-! ### Flags only rise -/

theorem Runs.publishRefuse (s : State) (i code : Nat) : Runs s (s.publishRefuse i code) := by
  unfold State.publishRefuse
  exact ((Runs.ite (Runs.of_within (State.modPlc_within s _)) (Runs.refl s)).trans (Runs.setBit _ _ _)).trans
    (Runs.of_within (State.count_within _ _ _))

theorem Runs.publishEntry (s : State) (c : PubCmd) (i : Nat) : Runs s (s.publishEntry c i) := by
  have hplc : ∀ (u : State) f, Runs u (u.modPlc f) := fun u f => Runs.of_within (State.modPlc_within u f)
  have hafresh : Runs s (((s.takeRoom i (s.publishCheck c i).2).ageCopies i).modEntry i (fun r => { r with published := false })) :=
    ((Runs.of_within (State.takeRoom_within s i _)).trans (Runs.of_within (State.ageCopies_within _ i))).trans
      (Runs.of_within (State.modEntry_within _ i _))
  unfold State.publishEntry
  exact Runs.ite (Runs.publishRefuse s i _) (hafresh.trans (Runs.ite (Runs.of_within (State.publishDone_within _ i _ _)) (hplc _ _)))

theorem Runs.publishFrom (c : PubCmd) (k : Nat) (s : State) (i : Nat) : Runs s (s.publishFrom c k i) := by
  induction k generalizing s i with
  | zero => exact Runs.of_within (State.modPlc_within s _)
  | succ k ih =>
    unfold State.publishFrom
    exact Runs.ite (Runs.of_within (State.modPlc_within s _)) ((Runs.publishEntry s c i).trans (ih _ _))

theorem Runs.publishFinish (s : State) : Runs s s.publishFinish := by
  unfold State.publishFinish
  split
  · exact Runs.ite (Runs.refl s) ((Runs.of_within (State.modPlc_within s _)).trans (Runs.setBit _ _ _))
  · exact Runs.refl s

/-- A drained command runs; entries past the last one are flagged (R133, R381). -/
theorem publishRun_runs {s : State} {c : PubCmd} {r : List PubCmd} (hu : s.undef = false) (hq : s.plc.queue = c :: r) (hn : s.plc.next = none)
    (hd : (s.host.wrDrained - c.snapshot).toNat < 2 ^ 31) : Gives .publishRun s (fun t =>
      (131072 < c.first + c.count → (t.flag (plcA 0x10)).getLsbD 11 = true) ∧ Within [.flg, .ctr, .clu, .mem, .msix, .plc] s t) := by
  have hx := exec_publishRun hu hq hn
  rw [if_neg (Nat.not_le_of_lt hd)] at hx
  refine ⟨_, hx, fun h => ?_, execPublishRun_within s hx⟩
  exact ((Runs.publishFrom c _ _ _).trans (Runs.publishFinish _)).flags _ _ (by decide)
    (State.flagBit_setBitIf _ (decide_eq_true h) (by decide) (by decide))

/-! ### An entry that is refused (R134) -/

theorem State.publishRefuse_plc (s : State) (i code : Nat) : (s.publishRefuse i code).plc =
    if s.plc.code = 0 then { s.plc with code := BitVec.ofNat 4 code, refuseIdx := BitVec.ofNat 17 i } else s.plc := by
  unfold State.publishRefuse
  dsimp only
  rw [(State.count_within _ _ _).plcEq, (State.setBit_within _ _ _).plcEq]
  split
  · rfl
  · rfl

theorem State.publishRefuse_counts (s : State) (i code : Nat) : ((s.publishRefuse i code).flag (plcA 0x10)).getLsbD 9 = true ∧
    (s.publishRefuse i code).counter (plcA 0x18) = min (s.counter (plcA 0x18) + 1) top32 := by
  unfold State.publishRefuse
  dsimp only
  refine ⟨?_, ?_⟩
  · rw [(State.count_within _ _ _).flagEq]
    exact State.flagBit_setBit _ (by decide) (by decide)
  · rw [counter_count_self _ _ _ (by decide), (State.setBit_within _ _ _).counterEq]
    split
    · rfl
    · rfl

/-- A command of one entry that has taken it and has no staging left completes. -/
theorem State.completes {s : State} {c : PubCmd} {r : List PubCmd} (hq : s.plc.queue = c :: r) (h1 : c.count = 1) (hf : c.first < 131072)
    (hj : s.plc.jobs = []) : (s.modPlc (fun p => { p with next := some (c.first + 1) })).publishFinish =
      ((s.modPlc (fun p => { p with next := some (c.first + 1) })).modPlc (fun p => { p with
        queue := r, next := none, code := if r = [] then p.code else 0, refuseIdx := if r = [] then p.refuseIdx else 0 })).setBit (plcA 0x10) 8 :=
  State.publishFinish_done (c := c) hq rfl (Nat.le_of_eq (PubCmd.last_of_one h1 hf)) hj

/-- What completion leaves of the placement. -/
theorem State.completes_plc {s : State} {c : PubCmd} {r : List PubCmd} (hq : s.plc.queue = c :: r) (h1 : c.count = 1) (hf : c.first < 131072)
    (hj : s.plc.jobs = []) : (s.modPlc (fun p => { p with next := some (c.first + 1) })).publishFinish.plc =
      { s.plc with queue := r, next := none, code := if r = [] then s.plc.code else 0, refuseIdx := if r = [] then s.plc.refuseIdx else 0 } := by
  rw [State.completes hq h1 hf hj, (State.setBit_within _ _ _).plcEq]
  rfl

theorem State.completes_flag {s : State} {c : PubCmd} {r : List PubCmd} (hq : s.plc.queue = c :: r) (h1 : c.count = 1) (hf : c.first < 131072)
    (hj : s.plc.jobs = []) : ((s.modPlc (fun p => { p with next := some (c.first + 1) })).publishFinish.flag (plcA 0x10)).getLsbD 8 = true := by
  rw [State.completes hq h1 hf hj]
  exact State.flagBit_setBit _ (by decide) (by decide)

theorem State.completes_within (s : State) (i : Nat) :
    Within [.flg, .msix, .plc] s (s.modPlc (fun p => { p with next := some i })).publishFinish :=
  ((State.modPlc_within s _).mono (by decide)).step (State.publishFinish_within _) (by decide)

theorem State.entryRec_of_entries {s t : State} (h : t.plc.entries = s.plc.entries) (i : Nat) : t.entryRec i = s.entryRec i := by
  unfold State.entryRec
  rw [h]

/-- A command of one entry runs. -/
structure PublishesOne (s : State) (c : PubCmd) (rest : List PubCmd) : Prop where
  undef : s.undef = false
  queue : s.plc.queue = c :: rest
  next : s.plc.next = none
  drained : (s.host.wrDrained - c.snapshot).toNat < 2 ^ 31
  count : c.count = 1
  first : c.first < 131072
  blocked : s.publishBlocked c c.first = false
  jobs : s.plc.jobs = []

theorem publishOne_refused {s : State} {c : PubCmd} {rest : List PubCmd} (h : PublishesOne s c rest) (hx : (s.publishCheck c c.first).1 ≠ 0) :
    Gives .publishRun s (fun t => (t.plc.queue = rest ∧ t.plc.next = none ∧ (t.flag (plcA 0x10)).getLsbD 8 = true) ∧
          (∀ j, j ≠ c.first → t.entryRec j = s.entryRec j) ∧ t.entryRec c.first = s.entryRec c.first ∧
          (rest = [] → s.plc.code = 0 → t.plc.code = BitVec.ofNat 4 (s.publishCheck c c.first).1 ∧ t.plc.refuseIdx = BitVec.ofNat 17 c.first) ∧
          (rest ≠ [] → t.plc.code = 0 ∧ t.plc.refuseIdx = 0) ∧ (t.flag (plcA 0x10)).getLsbD 9 = true ∧
          t.counter (plcA 0x18) = min (s.counter (plcA 0x18) + 1) top32 ∧ t.mem = s.mem ∧ t.clu = s.clu) := by
  obtain ⟨hu, hq, hn, hd, h1, hf, hb, hj⟩ := h
  have hrun := exec_publishOne hu hq hn hd h1 hf hb
  have hentry : s.publishEntry c c.first = s.publishRefuse c.first (s.publishCheck c c.first).1 := if_pos hx
  rw [hentry] at hrun
  have hplc := s.publishRefuse_plc c.first (s.publishCheck c c.first).1
  obtain ⟨hnine, hcount⟩ := s.publishRefuse_counts c.first (s.publishCheck c c.first).1
  have hw := s.publishRefuse_within c.first (s.publishCheck c c.first).1
  generalize s.publishRefuse c.first (s.publishCheck c c.first).1 = u at hrun hplc hnine hcount hw
  have hq' : u.plc.queue = c :: rest := by rw [hplc]; split <;> exact hq
  have hj' : u.plc.jobs = [] := by rw [hplc]; split <;> exact hj
  have hent : u.plc.entries = s.plc.entries := by rw [hplc]; split <;> rfl
  have htplc := State.completes_plc hq' h1 hf hj'
  have hweight := State.completes_within u (c.first + 1)
  have hrec : ∀ j, (u.modPlc (fun p => { p with next := some (c.first + 1) })).publishFinish.entryRec j = s.entryRec j := fun j =>
    State.entryRec_of_entries (by rw [htplc]; exact hent) j
  refine ⟨_, hrun, ⟨by rw [htplc], by rw [htplc], State.completes_flag hq' h1 hf hj'⟩, fun j _ => hrec j, hrec _, fun hr h0 => ?_, fun hr => ?_, ?_,
    (hweight.counterEq _).trans hcount, hweight.memEq.trans hw.memEq, (hweight.cluEq (by decide)).trans (hw.cluEq (by decide))⟩
  · rw [htplc, if_pos hr, if_pos hr, hplc, if_pos h0]
    exact ⟨rfl, rfl⟩
  · rw [htplc, if_neg hr, if_neg hr]
    exact ⟨rfl, rfl⟩
  · exact (Runs.publishFinish _).flags _ _ (by decide) hnine

/-! ### The copies of an entry that begins anew (R133, R135) -/

theorem State.retireCopy_plc (s : State) (i : Nat) : ∃ k, (s.retireCopy i).plc = { s.plc with kept := k } := ⟨_, rfl⟩

/-- The records and slots of an entry's copies, one publish older; the clusters follow. -/
def State.copiesAged (s : State) (i : Nat) : State :=
  let u := (s.retireCopy i).dropCopies i
  let v := { u with mem := { u.mem with slots := u.mem.slots.map (olderSlot i) } }
  v.modPlc (fun p => { p with kept := p.kept.map (fun c => if c.entry = i then { c with age := c.age + 1 } else c),
                              jobs := p.jobs.filter (fun j => decide (j.entry ≠ i)) })

theorem State.ageCopies_eq (s : State) (i : Nat) :
    s.ageCopies i = (allFin 8).foldl (fun s n => s.modClu n (fun k => k.older i)) (s.copiesAged i) := rfl

theorem State.ageCopies_clusters (s : State) (i : Nat) : Within [.clu] (s.copiesAged i) (s.ageCopies i) := by
  rw [State.ageCopies_eq]
  exact Within.fold (Within.refl _ _) (fun u n hu => hu.step (State.modClu_within u n _) (by decide))

theorem State.copiesAged_plc (s : State) (i : Nat) : ∃ k, (s.copiesAged i).plc =
    { s.plc with kept := k, jobs := s.plc.jobs.filter (fun j => decide (j.entry ≠ i)) } := by
  obtain ⟨k, hk⟩ := s.retireCopy_plc i
  have haged : (s.copiesAged i).plc = { (s.retireCopy i).plc with
      kept := (s.retireCopy i).plc.kept.map (fun c => if c.entry = i then { c with age := c.age + 1 } else c)
      jobs := (s.retireCopy i).plc.jobs.filter (fun j => decide (j.entry ≠ i)) } := rfl
  rw [haged, hk]
  exact ⟨_, rfl⟩

/-- Of the placement's records the copies that are kept change, and the staging of the entry ends. -/
theorem State.ageCopies_plc (s : State) (i : Nat) : ∃ k, (s.ageCopies i).plc =
    { s.plc with kept := k, jobs := s.plc.jobs.filter (fun j => decide (j.entry ≠ i)) } := by
  rw [(s.ageCopies_clusters i).plcEq]
  exact s.copiesAged_plc i

theorem State.ageCopies_clu (s : State) (i : Nat) (n : Clu) : (s.ageCopies i).clu[n] = s.clu[n].older i := by
  rw [State.ageCopies_eq]
  exact foldl_allFin (fun _ => True) (fun u m => u.clu[m]) (fun s n => s.modClu n (fun k => k.older i)) (fun _ k => k.older i)
    (fun _ _ _ => trivial) (fun u m _ => State.modClu_self u m _) (fun u m q hq => State.modClu_other u m _ hq) (s := s.copiesAged i) trivial n

theorem State.ageCopies_slots (s : State) (i : Nat) :
    (s.ageCopies i).mem.slots = ((s.mem.slots.filter (fun x => !(s.retireCopy i).slotUnused i x.2)).map (olderSlot i)) := by
  rw [(s.ageCopies_clusters i).memEq]
  rfl

/-- A copy that stays of the entry is an old one. -/
theorem State.ageCopies_old (s : State) (i : Nat) : ∀ y ∈ (s.ageCopies i).mem.slots, y.2.entry = some (BitVec.ofNat 17 i) → 0 < y.2.age := by
  intro y hy he
  rw [State.ageCopies_slots] at hy
  obtain ⟨x, -, rfl⟩ := List.mem_map.1 hy
  by_cases hx : x.2.entry = some (BitVec.ofNat 17 i)
  · unfold olderSlot
    rw [if_pos hx]
    exact Nat.succ_pos _
  · refine absurd ?_ hx
    unfold olderSlot at he
    rwa [if_neg hx] at he

/-- Another entry's copies stay as they are. -/
theorem State.ageCopies_others (s : State) (i : Nat) : ∀ y ∈ s.mem.slots, y.2.entry ≠ some (BitVec.ofNat 17 i) → y ∈ (s.ageCopies i).mem.slots := by
  intro y hy he
  rw [State.ageCopies_slots]
  refine List.mem_map.2 ⟨y, List.mem_filter.2 ⟨hy, ?_⟩, ?_⟩
  · unfold State.slotUnused
    rw [decide_eq_false he]
    rfl
  · unfold olderSlot
    rw [if_neg he]

/-! ### An entry that is taken (R133, R136) -/

/-- A publish of an entry begins: its copies are old ones, and it is not published. -/
def State.entryBegun (s : State) (i : Nat) (cls : List (Layout × PClass)) : State :=
  ((s.takeRoom i cls).ageCopies i).modEntry i (fun r => { r with published := false })

theorem State.takeRoom_plc (s : State) (i : Nat) (cls : List (Layout × PClass)) : ∃ r, (s.takeRoom i cls).plc = { s.plc with evalRoom := r } := by
  unfold State.takeRoom
  split
  · exact ⟨_, rfl⟩
  · exact ⟨s.plc.evalRoom, rfl⟩

theorem State.entryBegun_plc (s : State) (i : Nat) (cls : List (Layout × PClass)) : ∃ r k, (s.entryBegun i cls).plc = { s.plc with
    evalRoom := r, kept := k, jobs := s.plc.jobs.filter (fun j => decide (j.entry ≠ i))
    entries := smMod (fun _ => {}) s.plc.entries i (fun r => { r with published := false }) } := by
  obtain ⟨r, hr⟩ := s.takeRoom_plc i cls
  obtain ⟨k, hk⟩ := (s.takeRoom i cls).ageCopies_plc i
  have hmod : ∀ (u : State) f, (u.modEntry i f).plc = { u.plc with entries := smMod (fun _ => {}) u.plc.entries i f } := fun _ _ => rfl
  unfold State.entryBegun
  rw [hmod, hk, hr]
  exact ⟨r, k, rfl⟩

theorem State.entryBegun_within (s : State) (i : Nat) (cls : List (Layout × PClass)) : Within [.clu, .mem, .plc] s (s.entryBegun i cls) :=
  (((State.takeRoom_within s i cls).mono (by decide)).step (State.ageCopies_within _ i) (by decide)).step (State.modEntry_within _ i _) (by decide)

/-- The copies of the entry are old ones; other entries' copies stay, and so do those that runs use. -/
structure Afresh (i : Nat) (s t : State) : Prop where
  old : ∀ y ∈ t.mem.slots, y.2.entry = some (BitVec.ofNat 17 i) → 0 < y.2.age
  others : ∀ y ∈ s.mem.slots, y.2.entry ≠ some (BitVec.ofNat 17 i) → y ∈ t.mem.slots
  runs : ∀ n : Clu, t.clu[n] = s.clu[n].older i

theorem Afresh.entryBegun (s : State) (i : Nat) (cls : List (Layout × PClass)) : Afresh i s (s.entryBegun i cls) := by
  have hroom := s.takeRoom_within i cls
  have hw : Within [.plc] ((s.takeRoom i cls).ageCopies i) (s.entryBegun i cls) := State.modEntry_within _ i _
  refine ⟨?_, ?_, fun n => ?_⟩
  · rw [hw.memEq]
    exact State.ageCopies_old _ i
  · rw [hw.memEq, ← hroom.memEq]
    exact State.ageCopies_others _ i
  · rw [getClu_of_eq (hw.cluEq (by decide)) n, State.ageCopies_clu, getClu_of_eq (hroom.cluEq (by decide)) n]

theorem Afresh.of_within {i : Nat} {l : List Field} {s t u : State} (h : Afresh i s t) (hw : Within l t u) (hm : Field.mem ∉ l := by decide)
    (hx : Field.xram ∉ l := by decide) (hc : Field.clu ∉ l := by decide) : Afresh i s u := by
  refine ⟨?_, ?_, fun n => ?_⟩
  · rw [hw.memEq hm hx]; exact h.old
  · rw [hw.memEq hm hx]; exact h.others
  · rw [getClu_of_eq (hw.cluEq hc) n, h.runs]

/-- What publishing stages reads the placement's mode alone. -/
theorem State.stagedRanges_congr {s t : State} (hp : t.part = s.part) (hr : t.plc.rolling = s.plc.rolling) (e : BitVec 256) :
    t.stagedRanges e = s.stagedRanges e := by
  funext x
  unfold State.stagedRanges
  rw [hp, hr]

theorem State.entryBegun_ranges (s : State) (i : Nat) (cls : List (Layout × PClass)) (e : BitVec 256) :
    (s.entryBegun i cls).stagedRanges e = s.stagedRanges e := by
  obtain ⟨r, k, hplc⟩ := s.entryBegun_plc i cls
  exact State.stagedRanges_congr (s.entryBegun_within i cls).partEq (by rw [hplc]) e

/-- The staging of an entry under its classes (R133, R136). -/
def stagingOf (i : Nat) (cls : List (Layout × PClass)) (ranges : List (Nat × Nat)) (promoted : Bool) : StagingJob :=
  { entry := i, layouts := cls, ranges := ranges, promoted := promoted }

theorem State.publishEntry_taken {s : State} {c : PubCmd} {i : Nat} (hx : (s.publishCheck c i).1 = 0) : s.publishEntry c i =
    if (s.publishCheck c i).2.flatMap (s.stagedRanges (s.entry i)) = []
      then (s.entryBegun i (s.publishCheck c i).2).publishDone i (s.publishCheck c i).2 (s.promotedBy i (s.publishCheck c i).2)
      else (s.entryBegun i (s.publishCheck c i).2).modPlc (fun p => { p with jobs := p.jobs ++ [stagingOf i (s.publishCheck c i).2
        ((s.publishCheck c i).2.flatMap (s.stagedRanges (s.entry i))) (s.promotedBy i (s.publishCheck c i).2)] }) := by
  have hif : s.publishEntry c i = if (s.publishCheck c i).1 ≠ 0 then s.publishRefuse i (s.publishCheck c i).1 else
      if (s.publishCheck c i).2.flatMap ((s.entryBegun i (s.publishCheck c i).2).stagedRanges (s.entry i)) = []
        then (s.entryBegun i (s.publishCheck c i).2).publishDone i (s.publishCheck c i).2 (s.promotedBy i (s.publishCheck c i).2)
        else (s.entryBegun i (s.publishCheck c i).2).modPlc (fun p => { p with jobs := p.jobs ++ [stagingOf i (s.publishCheck c i).2
          ((s.publishCheck c i).2.flatMap ((s.entryBegun i (s.publishCheck c i).2).stagedRanges (s.entry i)))
          (s.promotedBy i (s.publishCheck c i).2)] }) := rfl
  rw [hif, if_neg (fun h => h hx), State.entryBegun_ranges]

theorem publishOne_published {s : State} {c : PubCmd} {rest : List PubCmd} (h : PublishesOne s c rest) (hx : (s.publishCheck c c.first).1 = 0)
    (hr : (s.publishCheck c c.first).2.flatMap (s.stagedRanges (s.entry c.first)) = []) :
    Gives .publishRun s (fun t => (t.plc.queue = rest ∧ t.plc.next = none ∧ (t.flag (plcA 0x10)).getLsbD 8 = true) ∧
          (∀ j, j ≠ c.first → t.entryRec j = s.entryRec j) ∧ Afresh c.first s t ∧
          t.entryRec c.first = { s.entryRec c.first with published := true, layouts := (s.publishCheck c c.first).2,
                                                         promoted := s.promotedBy c.first (s.publishCheck c c.first).2 } ∧
          t.plc.rolling = s.plc.rolling ∧ t.ctr = s.ctr) := by
  obtain ⟨hu, hq, hn, hd, h1, hf, hb, hj⟩ := h
  have hrun := exec_publishOne hu hq hn hd h1 hf hb
  rw [State.publishEntry_taken hx, if_pos hr] at hrun
  generalize (s.publishCheck c c.first).2 = cls at hrun ⊢
  generalize s.promotedBy c.first cls = promoted at hrun ⊢
  obtain ⟨r, k, hbegun⟩ := s.entryBegun_plc c.first cls
  have hafresh := Afresh.entryBegun s c.first cls
  have hw := s.entryBegun_within c.first cls
  generalize s.entryBegun c.first cls = u at hrun hbegun hafresh hw
  have hdone := u.publishDone_within c.first cls promoted
  have hplc : (u.publishDone c.first cls promoted).plc = { u.plc with
      entries := smMod (fun _ => {}) u.plc.entries c.first (fun r => { r with published := true, layouts := cls, promoted := promoted }) } := rfl
  rw [hbegun, hj] at hplc
  have hdoneFresh := hafresh.of_within hdone
  generalize u.publishDone c.first cls promoted = v at hrun hdone hplc hdoneFresh
  have hq' : v.plc.queue = c :: rest := by rw [hplc]; exact hq
  have hj' : v.plc.jobs = [] := by rw [hplc]; rfl
  have htplc := State.completes_plc hq' h1 hf hj'
  have hweight := State.completes_within v (c.first + 1)
  refine ⟨_, hrun, ⟨by rw [htplc], by rw [htplc], State.completes_flag hq' h1 hf hj'⟩, fun j hne => ?_, hdoneFresh.of_within hweight, ?_,
    by rw [htplc, hplc], (hweight.ctrEq.trans hdone.ctrEq).trans hw.ctrEq⟩
  · unfold State.entryRec
    rw [htplc, hplc]
    dsimp only
    rw [smGet_mod_other _ _ _ hne, smGet_mod_other _ _ _ hne]
  · unfold State.entryRec
    rw [htplc, hplc]
    dsimp only
    rw [smGet_mod_self, smGet_mod_self]

theorem publishOne_staged {s : State} {c : PubCmd} {rest : List PubCmd} (h : PublishesOne s c rest) (hx : (s.publishCheck c c.first).1 = 0)
    (hr : (s.publishCheck c c.first).2.flatMap (s.stagedRanges (s.entry c.first)) ≠ []) :
    Gives .publishRun s (fun t => t.plc.queue = s.plc.queue ∧ t.plc.next = some (c.first + 1) ∧
          (∀ j, j ≠ c.first → t.entryRec j = s.entryRec j) ∧ Afresh c.first s t ∧
          t.plc.jobs = [stagingOf c.first (s.publishCheck c c.first).2 ((s.publishCheck c c.first).2.flatMap (s.stagedRanges (s.entry c.first)))
            (s.promotedBy c.first (s.publishCheck c c.first).2)] ∧
          (t.entryRec c.first).published = false) := by
  obtain ⟨hu, hq, hn, hd, h1, hf, hb, hj⟩ := h
  have hrun := exec_publishOne hu hq hn hd h1 hf hb
  rw [State.publishEntry_taken hx, if_neg hr] at hrun
  generalize (s.publishCheck c c.first).2.flatMap (s.stagedRanges (s.entry c.first)) = ranges at hrun ⊢
  generalize (s.publishCheck c c.first).2 = cls at hrun ⊢
  generalize s.promotedBy c.first cls = promoted at hrun ⊢
  obtain ⟨r, k, hbegun⟩ := s.entryBegun_plc c.first cls
  have hafresh := Afresh.entryBegun s c.first cls
  generalize s.entryBegun c.first cls = u at hrun hbegun hafresh
  generalize hv : (u.modPlc (fun p => { p with jobs := p.jobs ++ [stagingOf c.first cls ranges promoted] })).modPlc
    (fun p => { p with next := some (c.first + 1) }) = v at hrun
  have hplc : v.plc = { u.plc with jobs := u.plc.jobs ++ [stagingOf c.first cls ranges promoted]
                                   next := some (c.first + 1) } := by rw [← hv]; rfl
  rw [hbegun, hj] at hplc
  have hwaits : v.plc.jobs.any (fun j => !j.keep) = true := by rw [hplc]; rfl
  rw [State.publishFinish_waits hwaits] at hrun
  have hw : Within [.plc] u v := by rw [← hv]; exact (State.modPlc_within u _).step (State.modPlc_within _ _) (by decide)
  refine ⟨_, hrun, by rw [hplc], by rw [hplc], fun j hne => ?_, hafresh.of_within hw, by rw [hplc]; rfl, ?_⟩
  · unfold State.entryRec
    rw [hplc]
    dsimp only
    rw [smGet_mod_other _ _ _ hne]
  · unfold State.entryRec
    rw [hplc]
    dsimp only
    rw [smGet_mod_self]

/-! ### Luthier (R137, R138) -/

/-- A change of class leaves heat and publication, and slots may go; nothing else of memory or of the commands changes. -/
structure Reclassed (s t : State) : Prop where
  recs : ∀ i, (t.entryRec i).heat = (s.entryRec i).heat ∧ (t.entryRec i).published = (s.entryRec i).published
  queue : t.plc.queue = s.plc.queue
  rolling : t.plc.rolling = s.plc.rolling
  mem : t.mem = { s.mem with slots := t.mem.slots }
  slots : ∀ y ∈ t.mem.slots, y ∈ s.mem.slots

theorem Reclassed.refl (s : State) : Reclassed s s := ⟨fun _ => ⟨rfl, rfl⟩, rfl, rfl, rfl, fun _ h => h⟩

theorem Reclassed.trans {s t u : State} (h : Reclassed s t) (k : Reclassed t u) : Reclassed s u where
  recs i := ⟨(k.recs i).1.trans (h.recs i).1, (k.recs i).2.trans (h.recs i).2⟩
  queue := k.queue.trans h.queue
  rolling := k.rolling.trans h.rolling
  mem := by rw [k.mem, h.mem]
  slots y hy := h.slots y (k.slots y hy)

/-- A change of the staging jobs alone. -/
theorem Reclassed.jobs (s : State) (f : List StagingJob → List StagingJob) : Reclassed s (s.modPlc (fun p => { p with jobs := f p.jobs })) :=
  ⟨fun _ => ⟨rfl, rfl⟩, rfl, rfl, rfl, fun _ h => h⟩

theorem Reclassed.modEntry (s : State) (i : Nat) {f : EntryRec → EntryRec} (hf : ∀ r, (f r).heat = r.heat ∧ (f r).published = r.published) :
    Reclassed s (s.modEntry i f) := by
  refine ⟨fun j => ?_, rfl, rfl, rfl, fun _ h => h⟩
  by_cases hj : j = i
  · subst hj
    have hself : (s.modEntry j f).entryRec j = f (s.entryRec j) := smGet_mod_self _ _ _ _
    rw [hself]
    exact hf _
  · have hother : (s.modEntry i f).entryRec j = s.entryRec j := smGet_mod_other (fun _ => ({} : EntryRec)) _ _ hj
    rw [hother]
    exact ⟨rfl, rfl⟩

theorem Reclassed.dropSlots (s : State) (q : Nat × Slot → Bool) : Reclassed s { s with mem := { s.mem with slots := s.mem.slots.filter q } } :=
  ⟨fun _ => ⟨rfl, rfl⟩, rfl, rfl, rfl, fun _ h => (List.mem_filter.1 h).1⟩

theorem Reclassed.demote (s : State) (i : Nat) : Reclassed s (s.demote i) := by
  unfold State.demote
  exact (Reclassed.dropSlots s _).trans (Reclassed.modEntry _ i (fun _ => ⟨rfl, rfl⟩))

theorem Reclassed.makeSpace (i k : Nat) (s t : State) (h : s.makeSpace i k = some t) : Reclassed s t := by
  induction k generalizing s with
  | zero => exact nomatch h
  | succ k ih =>
    unfold State.makeSpace at h
    split at h
    · exact Option.some.inj h ▸ Reclassed.refl s
    · split at h
      · exact nomatch h
      · split at h
        · exact (Reclassed.demote s _).trans (ih _ h)
        · exact nomatch h

theorem Reclassed.consider (s : State) (i : Nat) : Reclassed s (s.consider i) := by
  unfold State.consider
  split
  · exact Reclassed.refl s
  · split
    · exact Reclassed.refl s
    · next t ht => exact (Reclassed.makeSpace i _ s t ht).trans (Reclassed.jobs t (fun l => l ++ _))

/-- A change of class that waited leaves heat and publication. -/
theorem Reclassed.jobDone (s : State) {j : StagingJob} (h : j.keep = true) : Reclassed s (s.jobDone j) := by
  unfold State.jobDone
  dsimp only
  rw [if_neg (by rw [h]; decide)]
  split
  · refine (Reclassed.jobs s _).trans (Reclassed.modEntry _ _ (fun r => ?_))
    split
    · exact ⟨rfl, rfl⟩
    · exact ⟨rfl, rfl⟩
  · exact Reclassed.jobs s _

theorem Reclassed.jobsDone (l : List StagingJob) (s : State) (h : ∀ j ∈ l, j.keep = true) : Reclassed s (l.foldl State.jobDone s) := by
  induction l generalizing s with
  | nil => exact Reclassed.refl s
  | cons j r ih => exact (Reclassed.jobDone s (h j List.mem_cons_self)).trans (ih _ (fun k hk => h k (List.mem_cons_of_mem _ hk)))

/-- A re-evaluation before it halves heat. -/
def State.evalClasses (s : State) (l : List Nat) : State := l.foldl State.consider s.waitingJobs

/-- The candidates of a re-evaluation, the hottest first. -/
def State.evalOrder (s : State) : List Nat :=
  ((s.waitingJobs.plc.entries.map Prod.fst).filter s.waitingJobs.candidate).foldl (fun l i => hotInsert s.waitingJobs i l) []

/-- Each re-evaluation halves heat. -/
def State.evalCooled (s : State) (l : List Nat) : State :=
  s.modPlc (fun p => { p with
    entries := p.entries.map (fun x => (x.1, { x.2 with heat := x.2.heat / 2, seen := x.2.seen || l.contains x.1 }))
    evalRoom := s.resCap - s.residentTaken, evalAt := s.clk.mgmtCount })

theorem exec_luthierReevaluate {s : State} (hu : s.undef = false) : exec .luthierReevaluate s = .next
    (if s.effB (plcA 0x40) 0 || !s.evalDue then s else (s.evalClasses s.evalOrder).evalCooled s.evalOrder) := by
  show execLuthierReevaluate s = _
  rw [execLuthierReevaluate, guarded_next hu]
  rfl

theorem smFind_mapValues {α β : Type} (g : Nat → α → β) (m : SMap α) (i : Nat) :
    smFind (m.map (fun x => (x.1, g x.1 x.2))) i = (smFind m i).map (g i) := by
  induction m with
  | nil => rfl
  | cons x r ih =>
    obtain ⟨a, v⟩ := x
    rw [List.map_cons]
    unfold smFind
    by_cases h : a = i
    · rw [if_pos h, if_pos h, h]
      rfl
    · rw [if_neg h, if_neg h]
      exact ih

/-- A record once its entry has been weighed among some candidates. -/
def EntryRec.cooled (l : List Nat) (i : Nat) (r : EntryRec) : EntryRec := { r with heat := r.heat / 2, seen := r.seen || l.contains i }

theorem State.evalCooled_recs (s : State) (l : List Nat) (i : Nat) : ((s.evalCooled l).entryRec i).heat = (s.entryRec i).heat / 2 ∧
    ((s.evalCooled l).entryRec i).published = (s.entryRec i).published := by
  have hfind : smFind (s.evalCooled l).plc.entries i = (smFind s.plc.entries i).map (EntryRec.cooled l i) :=
    smFind_mapValues (EntryRec.cooled l) s.plc.entries i
  unfold State.entryRec smGet
  rw [hfind]
  cases smFind s.plc.entries i with
  | none => exact ⟨(Nat.zero_div 2).symm, rfl⟩
  | some r => exact ⟨rfl, rfl⟩

theorem luthier_evaluates {s : State} (hu : s.undef = false) (hf : s.effB (plcA 0x40) 0 = false) (hd : s.evalDue = true)
    (hj : ∀ j ∈ s.plc.jobs, j.waits = true → j.keep = true) : Gives .luthierReevaluate s (fun t =>
      (∀ i, (t.entryRec i).heat = (s.entryRec i).heat / 2 ∧ (t.entryRec i).published = (s.entryRec i).published) ∧
      t.plc.queue = s.plc.queue ∧ t.plc.rolling = s.plc.rolling ∧ t.plc.evalAt = s.clk.mgmtCount ∧ t.mem = { s.mem with slots := t.mem.slots } ∧
      (∀ y ∈ t.mem.slots, y ∈ s.mem.slots) ∧ Within [.mem, .plc] s t) := by
  have hx := exec_luthierReevaluate hu
  rw [if_neg (by rw [hf, hd]; decide)] at hx
  have hwaited : Reclassed s s.waitingJobs := Reclassed.jobsDone _ s (fun j hm => hj j (List.mem_filter.1 hm).1 (List.mem_filter.1 hm).2)
  have hall : Reclassed s (s.evalClasses s.evalOrder) :=
    hwaited.trans (foldl_rel Reclassed Reclassed.refl Reclassed.trans State.consider (fun u i => Reclassed.consider u i) s.evalOrder _)
  have hw := execLuthierReevaluate_within s hx
  have hclk : (s.evalClasses s.evalOrder).clk = s.clk := by
    have hc : Within [.mem, .plc] s (s.evalClasses s.evalOrder) :=
      Within.fold ((State.waitingJobs_within s).mono (by decide)) (fun u i h => h.step (State.consider_within u i) (by decide))
    exact hc.clkEq
  obtain ⟨hrecs, hqueue, hrolling, hmem, hslots⟩ := hall
  refine ⟨_, hx, fun i => ?_, hqueue, hrolling, congrArg Clock.mgmtCount hclk, hmem, hslots, hw⟩
  obtain ⟨hheat, hpub⟩ := State.evalCooled_recs (s.evalClasses s.evalOrder) s.evalOrder i
  exact ⟨hheat.trans (congrArg (· / 2) (hrecs i).1), hpub.trans (hrecs i).2⟩

/-! ### Capo (R148) -/

theorem exec_capoStaticSwitch {s : State} (hu : s.undef = false) : exec .capoStaticSwitch s = .next
    (if s.plc.rolling && s.allIdle && decide (s.staticNeed ≤ s.headCap) && s.requiredHeads.all (fun x => s.rangesLanded x.1 x.2) then
      s.modPlc (fun p => { p with rolling := false, switching := false }) else s) := by
  show execCapoStaticSwitch s = _
  rw [execCapoStaticSwitch, guarded_next hu]
  rfl

/-! ### The obligation -/

/-- Settles O51: a command of one entry refuses it, publishes it or stages it, beside its older copies. -/
theorem publishingAndPlacement : Obligations.PublishingAndPlacement := by
  unfold Obligations.PublishingAndPlacement
  intro s hu
  refine ⟨fun hp => ?_, fun hp hq => pubGo_queues hu hp hq, fun hp hq => pubGo_overflows hu hp hq, fun hq => ?_, fun c rest hq hn => ?_, fun h => ?_,
    fun hf hd hj => luthier_evaluates hu hf (decide_eq_true hd) hj, fun hm => ?_, fun hm => ?_⟩
  · exact gives_branch hu rfl (if_pos hp) ⟨rfl, State.hold_within s _⟩
  · refine ⟨s, ?_, rfl⟩
    show execPublishRun s = _
    rw [execPublishRun, guarded_next hu]
    simp only [hq]
  · refine ⟨fun hd => ?_, fun hd => publishRun_runs hu hq hn hd, fun hd h1 hf hb hj => ?_⟩
    · exact ⟨s, (exec_publishRun hu hq hn).trans (congrArg Host.Outcome.next (if_pos (Nat.not_lt.1 hd))), rfl⟩
    · have hone : PublishesOne s c rest := ⟨hu, hq, hn, hd, h1, hf, hb, hj⟩
      refine ⟨fun hx => publishOne_refused hone hx, fun hx hr => ?_, fun hx hr => ?_⟩
      · obtain ⟨t, ht, hdone, hoth, ⟨hold, hkeep, hruns⟩, hrest⟩ := publishOne_published hone hx hr
        exact ⟨t, ht, hdone, hoth, ⟨hold, hkeep, hruns⟩, hrest⟩
      · obtain ⟨t, ht, hqueue, hnext, hoth, ⟨hold, hkeep, hruns⟩, hrest⟩ := publishOne_staged hone hx hr
        exact ⟨t, ht, hqueue, hnext, hoth, ⟨hold, hkeep, hruns⟩, hrest⟩
  · refine ⟨s, (exec_luthierReevaluate hu).trans (congrArg Host.Outcome.next (if_pos ?_)), rfl⟩
    rcases h with h | h
    · rw [h]
      rfl
    · have hdue : s.evalDue = false := decide_eq_false h
      rw [hdue]
      simp
  · obtain ⟨hr, hi, hn, hl⟩ := hm
    refine ⟨_, (exec_capoStaticSwitch hu).trans (congrArg Host.Outcome.next (if_pos ?_)), rfl, State.modPlc_within s _⟩
    rw [hr, hi, hl, decide_eq_true hn]
    rfl
  · refine ⟨s, (exec_capoStaticSwitch hu).trans (congrArg Host.Outcome.next (if_neg fun h => hm ?_)), rfl⟩
    simp only [Bool.and_eq_true, decide_eq_true_eq] at h
    obtain ⟨⟨⟨hr, hi⟩, hn⟩, hl⟩ := h
    exact ⟨hr, hi, hn, hl⟩

end Sys2Proof.Machine
end

