-- ==== Sys2Proof/Proofs/DramTrainings.lean ====
section
/-! PROOF. RETRAIN and the ends of trainings, and the refreshes of a channel (R336, R343 to R348, R495; O50). -/
namespace Sys2Proof.Machine

/-! ### One channel -/

theorem State.modChan_self (s : State) (g : Chan) (f : DramChan → DramChan) : (s.modChan g f).dram.chans[g] = f s.dram.chans[g] :=
  Vector.getElem_set_self g.isLt

theorem State.modChan_other (s : State) (g : Chan) (f : DramChan → DramChan) {h : Chan} (hne : h ≠ g) :
    (s.modChan g f).dram.chans[h] = s.dram.chans[h] := Vector.getElem_set_ne g.isLt h.isLt (fun e => hne (Fin.ext e.symm))

theorem ChanBut.refl (g : Chan) (s : State) : ChanBut g s s := fun _ _ => rfl

theorem ChanBut.trans {g : Chan} {s t u : State} (h : ChanBut g s t) (k : ChanBut g t u) : ChanBut g s u := fun x hx => (k x hx).trans (h x hx)

theorem ChanBut.of_eq {g : Chan} {s t : State} (h : t.dram.chans = s.dram.chans) : ChanBut g s t := fun x _ => by rw [h]

theorem ChanBut.modChan (s : State) (g : Chan) (f : DramChan → DramChan) : ChanBut g s (s.modChan g f) := fun _ hx => State.modChan_other s g f hx

/-- Every channel is changed in the same way. -/
theorem State.foldl_modChans (f : DramChan → DramChan) (s : State) (g : Chan) :
    ((allFin 16).foldl (fun s g => s.modChan g f) s).dram.chans[g] = f s.dram.chans[g] :=
  foldl_allFin (fun _ => True) (fun u h => u.dram.chans[h]) (fun s g => s.modChan g f) (fun _ k => f k) (fun _ _ _ => trivial)
    (fun u h _ => State.modChan_self u h f) (fun u h q hq => State.modChan_other u h f hq) trivial g

/-! ### Trainings (R335 to R337) -/

/-- A training closes every row, and the cadence of refreshes starts afresh. -/
theorem State.train_chan (s : State) (k : Training) (g : Chan) :
    (s.train k).dram.chans[g] = { s.dram.chans[g] with rows := [], due := none } := by
  have hset : (s.train k).dram.chans = ((allFin 16).foldl (fun s g => s.modChan g (fun k => { k with due := none })) s.closeRows).dram.chans := rfl
  have hclose : s.closeRows.dram.chans[g] = { s.dram.chans[g] with rows := [] } := State.foldl_modChans _ s g
  rw [hset, State.foldl_modChans (fun k => { k with due := none }), hclose]

/-- A training that ends well leaves every predictor at 2 (R348). -/
theorem State.trainPass_predictor (s : State) (g : Chan) (b : Fin 16) : s.trainPass.dram.chans[g].predictor b = 2 := by
  have hpass : ((allFin 16).foldl (fun s g => s.modChan g (fun k => { k with predict := [] })) s).dram.chans[g] =
      { s.dram.chans[g] with predict := [] } := State.foldl_modChans _ s g
  unfold State.trainPass
  dsimp only
  split
  · rw [State.train_chan]
    dsimp only
    rw [hpass]
    rfl
  · rw [hpass]
    rfl

/-- A training of a configured device has ended. -/
structure TrainEnded (failed : Option (Chan × Fin 8)) (s u : State) : Prop where
  training : u.dram.training = (if failed.isNone && s.dram.shortNext then .short else .none)
  ready : u.dram.ready = (failed.isNone && !s.dram.shortNext && s.clk.pll.getLsbD 6)
  shortNext : u.dram.shortNext = false
  predictor : failed = none → ∀ (g : Chan) (b : Fin 16), u.dram.chans[g].predictor b = 2
  reported : failed ≠ none → (u.flag (drmA 0x24)).getLsbD 4 = true ∧ u.flt.seq = s.flt.seq + 1
  within : Within [.flg, .ctr, .dram, .msix, .flt] s u

/-- The training's end itself, before what it held acts. -/
def State.trainEnd (s : State) (failed : Option (Chan × Fin 8)) : State :=
  match failed with
  | some x => s.trainFail x.1 x.2
  | none => s.trainPass

theorem State.trainFail_shortNext (s : State) (g : Chan) (phase : Fin 8) : (s.trainFail g phase).dram.shortNext = false := by
  have hset := State.setBit_within { s with dram := { s.dram with training := .none, ready := false, shortNext := false } } (drmA 0x24) 4
  unfold State.trainFail
  dsimp only
  rw [(State.report_within _ _).dramEq, hset.dramEq]

theorem State.trainEnd_ended (s : State) (failed : Option (Chan × Fin 8)) : TrainEnded failed s (s.trainEnd failed) := by
  cases failed with
  | none =>
    obtain ⟨htraining, hready, hnext⟩ := s.trainPass_trained
    exact ⟨htraining, hready, hnext, fun _ => s.trainPass_predictor, fun h => absurd rfl h, s.trainPass_within.mono (by decide)⟩
  | some x =>
    obtain ⟨htraining, hready, hflag, hseq⟩ := s.trainFail_says x.1 x.2
    exact ⟨htraining, hready, s.trainFail_shortNext x.1 x.2, (fun h => nomatch h), fun _ => ⟨hflag, hseq⟩, s.trainFail_within x.1 x.2⟩

/-- A flag of the controller with it. -/
theorem TrainEnded.setBit {failed : Option (Chan × Fin 8)} {s u : State} (h : TrainEnded failed s u) (i : Nat) :
    TrainEnded failed s (u.setBit (drmA 0x24) i) := by
  have hw := State.setBit_within u (drmA 0x24) i
  obtain ⟨htraining, hready, hnext, hpred, hrep, hin⟩ := h
  refine ⟨?_, ?_, ?_, fun hf => ?_, fun hf => ⟨?_, ?_⟩, hin.step hw (by decide)⟩
  · rw [hw.dramEq]; exact htraining
  · rw [hw.dramEq]; exact hready
  · rw [hw.dramEq]; exact hnext
  · rw [hw.dramEq]; exact hpred hf
  · exact (Runs.setBit u _ i).flags _ _ (by decide) (hrep hf).1
  · rw [hw.fltEq]; exact (hrep hf).2

theorem exec_shortTrainDone {s : State} (failed : Option (Chan × Fin 8)) (hu : s.undef = false) (ht : s.dram.training = .short) :
    exec (.shortTrainDone failed) s = .next (s.trainEnd failed).shortEnd := by
  show execShortTrainDone failed s = _
  rw [execShortTrainDone, guarded_next hu]
  refine congrArg Host.Outcome.next ((if_neg (fun h => h ht)).trans ?_)
  cases failed with
  | none => rfl
  | some x => rfl

theorem exec_dramTrainDone {s : State} (failed : Option (Chan × Fin 8)) (hu : s.undef = false) (ht : s.dram.training = .retrain) :
    exec (.dramTrainDone failed) s = .next ((s.trainEnd failed).setBit (drmA 0x24) 5).runHeld := by
  show execDramTrainDone failed s = _
  rw [execDramTrainDone, guarded_next hu]
  cases failed with
  | none => simp only [ht]; rfl
  | some x => simp only [ht]; rfl

/-- The end of a short training releases a warm reset only once no training follows (R337, R446, R495). -/
theorem State.shortEnd_held {s u : State} {failed : Option (Chan × Fin 8)} (h : TrainEnded failed s u)
    (hr : s.pwr.releasing = false ∨ (failed.isNone && s.dram.shortNext) = true) : u.shortEnd = u.runHeld := by
  unfold State.shortEnd
  rw [if_neg]
  rintro ⟨hrel, hnone⟩
  rw [h.within.pwrEq] at hrel
  rcases hr with hr | hr
  · exact Bool.false_ne_true (hr.symm.trans hrel)
  · rw [h.training, if_pos hr] at hnone
    exact nomatch hnone

theorem TrainEnded.phase {failed : Option (Chan × Fin 8)} {s u : State} (h : TrainEnded failed s u)
    (hn : (failed.isNone && s.dram.shortNext) = false) : u.dramPhase = 0 :=
  State.dramPhase_of_none (h.training.trans (if_neg (by rw [hn]; decide)))

/-! ### RETRAIN (R336) -/

/-- RETRAIN of a configured device whose blocks are not prepared. -/
theorem exec_dramRetrain {s : State} (hu : s.undef = false) (hc : s.configured = true) (hp : s.prepared 7 = false) : exec .dramRetrain s = .next
    (if s.dram.training ≠ .none then (s.cmdTake (drmA 0x10) 1).setBit (drmA 0x24) 6
      else if !s.allIdle || !s.ovl.queue.isEmpty then { s with dram := { s.dram with retrainWait := true } }
      else State.train { s.cmdTake (drmA 0x10) 1 with dram := { (s.cmdTake (drmA 0x10) 1).dram with retrainWait := false } } .retrain) := by
  show execDramRetrain s = _
  rw [execDramRetrain, guarded_next hu]
  exact congrArg Host.Outcome.next ((if_neg (by rw [hc]; decide)).trans (if_neg (by rw [hp]; decide)))

theorem dramRetrain_held {s : State} (hu : s.undef = false) (hc : s.configured = true) (hp : s.prepared 7 = true) :
    Gives .dramRetrain s (fun t => t.pwr.held = s.pwr.held ++ [.dramRetrain] ∧ Within [.pwr] s t) :=
  gives_branch hu rfl ((if_neg (by rw [hc]; decide)).trans (if_pos hp)) ⟨rfl, State.hold_within s _⟩

theorem dramRetrain_dropped {s : State} (hu : s.undef = false) (hc : s.configured = true) (hp : s.prepared 7 = false)
    (ht : s.dram.training ≠ .none) : Gives .dramRetrain s (fun t =>
      t.flag (drmA 0x24) = s.flag (drmA 0x24) ||| bit32 6 ∧ Takes (drmA 0x10) 1 s t ∧ Within [.flg, .cmd, .more, .msix] s t) := by
  have hx := exec_dramRetrain hu hc hp
  rw [if_pos ht] at hx
  have htake := State.cmdTake_takes s (drmA 0x10) 1
  have hw := State.setBit_within (s.cmdTake (drmA 0x10) 1) (drmA 0x24) 6
  exact ⟨_, hx, (State.flag_setBit_self _ _ (by decide)).trans (congrArg (· ||| bit32 6) ((State.cmdTake_within s _ _).flagEq _)),
    htake.then hw, ((State.cmdTake_within s _ _).mono (by decide)).step hw (by decide)⟩

theorem dramRetrain_waits {s : State} (hu : s.undef = false) (hc : s.configured = true) (hp : s.prepared 7 = false)
    (ht : s.dram.training = .none) (hi : s.allIdle = false ∨ s.ovl.queue ≠ []) :
    Gives .dramRetrain s (fun t => t.dram = { s.dram with retrainWait := true } ∧ Within [.dram] s t) := by
  have hx := exec_dramRetrain hu hc hp
  have hwait : (!s.allIdle || !s.ovl.queue.isEmpty) = true := by
    rcases hi with hi | hi
    · rw [hi]; rfl
    · rw [List.isEmpty_eq_false_iff.2 hi, Bool.not_false, Bool.or_true]
  rw [if_neg (fun h => h ht), if_pos hwait] at hx
  exact ⟨_, hx, rfl, Within.set_dram _ _ rfl rfl⟩

theorem dramRetrain_trains {s : State} (hu : s.undef = false) (hc : s.configured = true) (hp : s.prepared 7 = false)
    (ht : s.dram.training = .none) (hi : s.allIdle = true) (hq : s.ovl.queue = []) : Gives .dramRetrain s (fun t =>
        t.dram.training = .retrain ∧ t.dram.ready = false ∧ t.dram.trainAt = s.clk.now ∧
        (∀ g : Chan, t.dram.chans[g] = { s.dram.chans[g] with rows := [], due := none }) ∧
        t.dram.inFlight = s.dram.inFlight ∧ Takes (drmA 0x10) 1 s t ∧ Within [.cmd, .more, .dram] s t) := by
  have hx := exec_dramRetrain hu hc hp
  rw [if_neg (fun h => h ht), if_neg (by rw [hi, hq]; decide)] at hx
  have htake := State.cmdTake_takes s (drmA 0x10) 1
  have hw := State.cmdTake_within s (drmA 0x10) 1
  have hdram : (s.cmdTake (drmA 0x10) 1).dram = s.dram := hw.dramEq
  have hnow : (s.cmdTake (drmA 0x10) 1).clk = s.clk := hw.clkEq
  generalize s.cmdTake (drmA 0x10) 1 = u at hx htake hw hdram hnow
  have hmark : Within [.dram] u { u with dram := { u.dram with retrainWait := false } } := Within.set_dram _ _ rfl rfl
  have hchan := State.train_chan { u with dram := { u.dram with retrainWait := false } } .retrain
  have htrain := hmark.step (State.train_within { u with dram := { u.dram with retrainWait := false } } .retrain) (by decide)
  obtain ⟨chans, heq⟩ := State.train_eq { u with dram := { u.dram with retrainWait := false } } .retrain
  refine ⟨_, hx, ?_, ?_, ?_, fun g => ?_, ?_, htake.then htrain, hw.seq htrain (by decide)⟩
  · rw [heq]
  · rw [heq]
  · rw [heq, ← hnow]
  · rw [hchan g]
    dsimp only
    rw [hdram]
  · rw [heq]
    show u.dram.inFlight = s.dram.inFlight
    rw [hdram]

/-! ### Refreshes (R343, R344) -/

/-- A refresh has fallen due, and its next one is an interval later. -/
def State.refreshCame (s : State) (g : Chan) (at_ : Nat) : State :=
  (s.upto ((s.refreshAt g at_ + 15) / 16)).modChan g (fun k => { k with due := some (s.refreshAt g at_ + s.refreshEvery) })

theorem State.refreshCame_self (s : State) (g : Chan) (at_ : Nat) : (s.refreshCame g at_).dram.chans[g] =
    { s.dram.chans[g] with due := some (s.refreshAt g at_ + s.refreshEvery) } := State.modChan_self _ g _

theorem State.refreshCame_but (s : State) (g : Chan) (at_ : Nat) : ChanBut g s (s.refreshCame g at_) := ChanBut.modChan (s.upto _) g _

theorem State.refreshCame_within (s : State) (g : Chan) (at_ : Nat) : Within [.clk, .dram] s (s.refreshCame g at_) :=
  ((State.upto_within s _).mono (by decide)).step (State.modChan_within _ g _) (by decide)

theorem exec_refreshDue {s : State} (g : Chan) (at_ : Nat) (rtWaiting : RtWaiting) (hu : s.undef = false) (hr : s.dram.ready = true) :
    exec (.refreshDue g at_ rtWaiting) s = .next
      (if !rtWaiting || decide ((s.refreshCame g at_).dram.chans[g].rt = 0) then (s.refreshCame g at_).modChan g
          (fun k => { (k.refresh s.perBank ((s.refreshCame g at_).dram.chans[g].owed + 1)) with owed := 0 })
        else if (s.refreshCame g at_).dram.chans[g].owed < 8 then (s.refreshCame g at_).modChan g
          (fun k => { k with owed := (s.refreshCame g at_).dram.chans[g].owed + 1 })
        else (((s.refreshCame g at_).modChan g (fun k => k.refresh s.perBank 1)).count (chanA g 0x10) 1).setBit (drmA 0x24) 2) := by
  show execRefreshDue g at_ rtWaiting s = _
  rw [execRefreshDue, guarded_next hu]
  exact congrArg Host.Outcome.next (if_neg (by rw [hr]; decide))

/-- A refresh that no real-time access holds up pays what is owed. -/
theorem refreshDue_pays {s : State} (g : Chan) (at_ : Nat) (rtWaiting : RtWaiting) (hu : s.undef = false) (hr : s.dram.ready = true)
    (hf : rtWaiting = false ∨ s.dram.chans[g].rt = 0) : Gives (.refreshDue g at_ rtWaiting) s (fun t =>
      t.dram.chans[g] = { (DramChan.refresh { s.dram.chans[g] with due := some (s.refreshAt g at_ + s.refreshEvery) } s.perBank
        (s.dram.chans[g].owed + 1)) with owed := 0 } ∧
      (ChanBut g s t ∧ t.clk = (s.upto ((s.refreshAt g at_ + 15) / 16)).clk) ∧ Within [.clk, .dram] s t) := by
  have hx := exec_refreshDue g at_ rtWaiting hu hr
  have hself := s.refreshCame_self g at_
  rw [hself] at hx
  dsimp only at hx
  have hfree : (!rtWaiting || decide (s.dram.chans[g].rt = 0)) = true := by
    rcases hf with h | h
    · rw [h]; rfl
    · rw [decide_eq_true h, Bool.or_true]
  rw [if_pos hfree] at hx
  refine ⟨_, hx, ?_, ⟨(s.refreshCame_but g at_).trans (ChanBut.modChan _ g _), rfl⟩,
    (s.refreshCame_within g at_).step (State.modChan_within _ g _) (by decide)⟩
  rw [State.modChan_self, hself]

/-- One that is held up is owed. -/
theorem refreshDue_owes {s : State} (g : Chan) (at_ : Nat) (rtWaiting : RtWaiting) (hu : s.undef = false) (hr : s.dram.ready = true)
    (hw : rtWaiting = true) (hrt : s.dram.chans[g].rt ≠ 0) (ho : s.dram.chans[g].owed < 8) : Gives (.refreshDue g at_ rtWaiting) s (fun t =>
      t.dram.chans[g] = { s.dram.chans[g] with due := some (s.refreshAt g at_ + s.refreshEvery), owed := s.dram.chans[g].owed + 1 } ∧
      (ChanBut g s t ∧ t.clk = (s.upto ((s.refreshAt g at_ + 15) / 16)).clk) ∧ Within [.clk, .dram] s t) := by
  have hx := exec_refreshDue g at_ rtWaiting hu hr
  have hself := s.refreshCame_self g at_
  rw [hself] at hx
  dsimp only at hx
  rw [if_neg (by rw [hw, decide_eq_false hrt]; decide), if_pos ho] at hx
  refine ⟨_, hx, ?_, ⟨(s.refreshCame_but g at_).trans (ChanBut.modChan _ g _), rfl⟩,
    (s.refreshCame_within g at_).step (State.modChan_within _ g _) (by decide)⟩
  rw [State.modChan_self, hself]

/-- Past eight that are owed it is issued all the same, and counted (R344). -/
theorem refreshDue_forced {s : State} (g : Chan) (at_ : Nat) (rtWaiting : RtWaiting) (hu : s.undef = false) (hr : s.dram.ready = true)
    (hw : rtWaiting = true) (hrt : s.dram.chans[g].rt ≠ 0) (ho : 8 ≤ s.dram.chans[g].owed) : Gives (.refreshDue g at_ rtWaiting) s (fun t =>
      t.dram.chans[g] = DramChan.refresh { s.dram.chans[g] with due := some (s.refreshAt g at_ + s.refreshEvery) } s.perBank 1 ∧
      (ChanBut g s t ∧ t.clk = (s.upto ((s.refreshAt g at_ + 15) / 16)).clk) ∧
      t.counter (chanA g 0x10) = min (s.counter (chanA g 0x10) + 1) top32 ∧ (t.flag (drmA 0x24)).getLsbD 2 = true ∧
      Within [.clk, .flg, .ctr, .dram, .msix] s t) := by
  have hx := exec_refreshDue g at_ rtWaiting hu hr
  have hself := s.refreshCame_self g at_
  rw [hself] at hx
  dsimp only at hx
  rw [if_neg (by rw [hw, decide_eq_false hrt]; decide), if_neg (Nat.not_lt.2 ho)] at hx
  have hcame := (s.refreshCame_within g at_).step (State.modChan_within (s.refreshCame g at_) g (fun k => k.refresh s.perBank 1)) (by decide)
  have hchan : ((s.refreshCame g at_).modChan g (fun k => k.refresh s.perBank 1)).dram.chans[g] =
      DramChan.refresh { s.dram.chans[g] with due := some (s.refreshAt g at_ + s.refreshEvery) } s.perBank 1 := by
    rw [State.modChan_self, hself]
  have hbut := (s.refreshCame_but g at_).trans (ChanBut.modChan (s.refreshCame g at_) g (fun k => k.refresh s.perBank 1))
  have hclk : ((s.refreshCame g at_).modChan g (fun k => k.refresh s.perBank 1)).clk = (s.upto ((s.refreshAt g at_ + 15) / 16)).clk := rfl
  generalize (s.refreshCame g at_).modChan g (fun k => k.refresh s.perBank 1) = u at hx hcame hchan hbut hclk
  have hmarks : Within [.flg, .ctr, .msix] u ((u.count (chanA g 0x10) 1).setBit (drmA 0x24) 2) :=
    ((State.count_within u _ _).mono (by decide)).step (State.setBit_within _ _ _) (by decide)
  have hdram := hmarks.dramEq
  refine ⟨_, hx, ?_, ⟨hbut.trans (ChanBut.of_eq (congrArg Dram.chans hdram)), by rw [hmarks.clkEq]; exact hclk⟩, ?_,
    State.flagBit_setBit _ (by decide) (by decide), (hcame.mono (by decide)).step hmarks (by decide)⟩
  · rw [hdram]; exact hchan
  · rw [(State.setBit_within _ _ _).counterEq, counter_count_self _ _ _ (by decide), hcame.counterEq]

/-! ### Neighbour refreshes (R345 to R347) -/

/-- What activates leave of their channel: each is drawn for while there are draws, and the marked rows become aggressors. -/
structure DramChan.Drawn (n : Nat) (k k' : DramChan) : Prop where
  aggressors : ∃ more, k'.aggressors = k.aggressors ++ more ∧ more.length ≤ n
  draws : k'.draws = k.draws + n
  rows : k'.rows = k.rows
  lastNbr : k'.lastNbr = k.lastNbr
  owed : k'.owed = k.owed

theorem DramChan.Drawn.refl (k : DramChan) : DramChan.Drawn 0 k k := ⟨⟨[], (List.append_nil _).symm, Nat.le_refl 0⟩, rfl, rfl, rfl, rfl⟩

theorem DramChan.Drawn.trans {m n : Nat} {k k' k'' : DramChan} (h : DramChan.Drawn m k k') (h' : DramChan.Drawn n k' k'') :
    DramChan.Drawn (m + n) k k'' where
  aggressors := by
    obtain ⟨a, ha, hla⟩ := h.aggressors
    obtain ⟨b, hb, hlb⟩ := h'.aggressors
    exact ⟨a ++ b, by rw [hb, ha, List.append_assoc], by rw [List.length_append]; omega⟩
  draws := by rw [h'.draws, h.draws, Nat.add_assoc]
  rows := h'.rows.trans h.rows
  lastNbr := h'.lastNbr.trans h.lastNbr
  owed := h'.owed.trans h.owed

/-- Activates on a channel touch no other, and count only what a full queue drops. -/
structure Activated (g : Chan) (n : Nat) (s t : State) : Prop where
  chan : DramChan.Drawn n s.dram.chans[g] t.dram.chans[g]
  but : ChanBut g s t
  ctrs : CtrsBut [chanA g 0x18] s t
  flags : FlagsBut [drmA 0x24] s t
  within : Within [.flg, .ctr, .dram, .msix] s t

theorem Activated.refl (g : Chan) (s : State) : Activated g 0 s s :=
  ⟨DramChan.Drawn.refl _, ChanBut.refl g s, CtrsBut.refl _ s, FlagsBut.refl _ s, Within.refl _ s⟩

theorem Activated.trans {g : Chan} {m n : Nat} {s t u : State} (h : Activated g m s t) (h' : Activated g n t u) : Activated g (m + n) s u :=
  ⟨h.chan.trans h'.chan, h.but.trans h'.but, h.ctrs.trans h'.ctrs, h.flags.trans h'.flags, h.within.step h'.within (by decide)⟩

/-- How often an activate draws (R345). -/
def State.drawsPer (s : State) : Nat := if (s.effW (drmA 0x14)).getLsbD 31 then 0 else 1

theorem State.drawsPer_congr {s t : State} (h : t.eff = s.eff) : t.drawsPer = s.drawsPer := by
  unfold State.drawsPer State.effW
  rw [h]

/-- A change of the channel alone that draws. -/
theorem Activated.modChan (s : State) (g : Chan) {n : Nat} {f : DramChan → DramChan} (h : ∀ k, DramChan.Drawn n k (f k)) :
    Activated g n s (s.modChan g f) :=
  ⟨(State.modChan_self s g f).symm ▸ h _, ChanBut.modChan s g f, CtrsBut.of_eq rfl, FlagsBut.of_eq rfl, (State.modChan_within s g f).mono (by decide)⟩

/-- A draw of a channel. -/
theorem Activated.draw (s : State) (g : Chan) : Activated g 1 s (s.modChan g (fun k => { k with draws := k.draws + 1 })) :=
  Activated.modChan s g (fun _ => ⟨⟨[], (List.append_nil _).symm, Nat.zero_le 1⟩, rfl, rfl, rfl, rfl⟩)

theorem Activated.of_drop {g : Chan} {n : Nat} {s t : State} (h : Activated g n s t) :
    Activated g n s ((t.count (chanA g 0x18) 1).setBit (drmA 0x24) 8) := by
  have hw : Within [.flg, .ctr, .msix] t ((t.count (chanA g 0x18) 1).setBit (drmA 0x24) 8) :=
    ((State.count_within t _ _).mono (by decide)).step (State.setBit_within _ _ _) (by decide)
  have hdram := hw.dramEq
  refine ⟨?_, h.but.trans (ChanBut.of_eq (congrArg Dram.chans hdram)),
    (h.ctrs.count 1 List.mem_cons_self).trans ((State.setBit_within _ _ _).ctrsBut _),
    (h.flags.trans ((State.count_within _ _ _).flagsBut _)).setBit 8 List.mem_cons_self, h.within.step hw (by decide)⟩
  rw [hdram]
  exact h.chan

theorem Activated.of_mark {g : Chan} {n : Nat} {s t : State} (h : Activated g n s t) (x : Fin 16 × Nat)
    (hn : t.dram.chans[g].aggressors = s.dram.chans[g].aggressors) (hpos : 0 < n) :
    Activated g n s (t.modChan g (fun k => { k with aggressors := k.aggressors ++ [x] })) := by
  refine ⟨?_, h.but.trans (ChanBut.modChan t g _), h.ctrs, h.flags, h.within.step (State.modChan_within t g _) (by decide)⟩
  rw [State.modChan_self]
  exact ⟨⟨[x], congrArg (· ++ [x]) hn, hpos⟩, h.chan.draws, h.chan.rows, h.chan.lastNbr, h.chan.owed⟩

theorem Activated.activate (s : State) (g : Chan) (bank : Fin 16) (row : Nat) : Activated g s.drawsPer s (s.activate g bank row) := by
  unfold State.drawsPer State.activate
  split
  · exact Activated.refl g s
  · dsimp only
    split
    · exact Activated.draw s g
    · split
      · exact (Activated.draw s g).of_drop
      · exact (Activated.draw s g).of_mark _ (congrArg DramChan.aggressors (State.modChan_self s g _) :) (by decide)

theorem Activated.activates (g : Chan) (bank : Fin 16) (l : List Nat) (s : State) :
    Activated g (l.length * s.drawsPer) s (l.foldl (fun s v => s.activate g bank v) s) := by
  induction l generalizing s with
  | nil => rw [List.length_nil, Nat.zero_mul]; exact Activated.refl g s
  | cons v r ih =>
    have hone := Activated.activate s g bank v
    have hrest := ih (s.activate g bank v)
    rw [State.drawsPer_congr hone.within.effEq] at hrest
    have hall := hone.trans hrest
    rw [List.length_cons, Nat.add_mul, Nat.one_mul, Nat.add_comm]
    exact hall

/-- The oldest aggressor is served: its victims' activates follow. -/
def State.nbrTaken (s : State) (g : Chan) (at_ : Nat) (a : Fin 16 × Nat) (rest : List (Fin 16 × Nat)) : State :=
  (s.upto (max at_ (match s.dram.chans[g].lastNbr with | some l => l + s.nbrGap | none => 0))).modChan g (fun k => { k with
    aggressors := rest, lastNbr := some (s.upto (max at_ (match s.dram.chans[g].lastNbr with | some l => l + s.nbrGap | none => 0))).clk.now
    rows := smErase k.rows a.1.val })

theorem exec_nbrRefresh {s : State} {g : Chan} {at_ : Nat} {rtWaiting : Bool} {a : Fin 16 × Nat} {rest : List (Fin 16 × Nat)}
    (hu : s.undef = false) (ha : s.dram.chans[g].aggressors = a :: rest) : exec (.nbrRefresh g ⟨at_, rtWaiting⟩) s = .next
      (if (s.dram.ready && !(rtWaiting && decide (0 < s.dram.chans[g].rt))) = true then
        (((s.nbrTaken g at_ a rest).victims a.2).foldl (fun s v => s.activate g a.1 v) (s.nbrTaken g at_ a rest)).count (chanA g 0x14) 1
      else s) := by
  show execNbrRefresh g ⟨at_, rtWaiting⟩ s = _
  rw [execNbrRefresh, guarded_next hu]
  dsimp only
  rw [ha]
  cases (s.dram.ready && !(rtWaiting && decide (0 < s.dram.chans[g].rt))) with
  | false => rfl
  | true => rfl

/-- The first tick that the gap from the set before allows (R347). -/
def State.nbrFrom (s : State) (g : Chan) (at_ : Nat) : Nat := max at_ (match s.dram.chans[g].lastNbr with | some l => l + s.nbrGap | none => 0)

theorem State.victims_congr {s t : State} (he : t.eff = s.eff) (hp : t.dram.part = s.dram.part) (row : Nat) : t.victims row = s.victims row := by
  unfold State.victims State.effW
  rw [he, hp]

theorem nbrRefresh_waits {s : State} {g : Chan} {at_ : Nat} {rtWaiting : Bool} {a : Fin 16 × Nat} {rest : List (Fin 16 × Nat)}
    (hu : s.undef = false) (ha : s.dram.chans[g].aggressors = a :: rest)
    (hn : s.dram.ready = false ∨ (rtWaiting = true ∧ 0 < s.dram.chans[g].rt)) : Gives (.nbrRefresh g ⟨at_, rtWaiting⟩) s (fun t => t = s) := by
  have hx := exec_nbrRefresh (at_ := at_) (rtWaiting := rtWaiting) hu ha
  have hoff : (s.dram.ready && !(rtWaiting && decide (0 < s.dram.chans[g].rt))) = false := by
    rcases hn with h | ⟨h, hrt⟩
    · rw [h, Bool.false_and]
    · rw [h, decide_eq_true hrt, Bool.true_and, Bool.not_true, Bool.and_false]
  rw [hoff, if_neg Bool.false_ne_true] at hx
  exact ⟨s, hx, rfl⟩

/-- The oldest aggressor is served: each victim's activate is drawn for (R345 to R347). -/
theorem nbrRefresh_serves {s : State} {g : Chan} {at_ : Nat} {rtWaiting : Bool} {a : Fin 16 × Nat} {rest : List (Fin 16 × Nat)}
    (hu : s.undef = false) (ha : s.dram.chans[g].aggressors = a :: rest) (hr : s.dram.ready = true)
    (hn : ¬ (rtWaiting = true ∧ 0 < s.dram.chans[g].rt)) : Gives (.nbrRefresh g ⟨at_, rtWaiting⟩) s (fun t =>
        (∃ more, t.dram.chans[g].aggressors = rest ++ more ∧
          more.length ≤ if (s.effW (drmA 0x14)).getLsbD 31 then 0 else (s.victims a.2).length) ∧
        t.dram.chans[g].draws = s.dram.chans[g].draws + (if (s.effW (drmA 0x14)).getLsbD 31 then 0 else (s.victims a.2).length) ∧
        t.dram.chans[g].rows = smErase s.dram.chans[g].rows a.1.val ∧
        t.clk.now = max s.clk.now (s.nbrFrom g at_) ∧
        t.dram.chans[g].lastNbr = some t.clk.now ∧ ChanBut g s t ∧
        t.counter (chanA g 0x14) = min (s.counter (chanA g 0x14) + 1) top32 ∧ CtrsBut [chanA g 0x14, chanA g 0x18] s t ∧
        FlagsBut [drmA 0x24] s t ∧ Within [.clk, .flg, .ctr, .dram, .msix] s t) := by
  have hx := exec_nbrRefresh (at_ := at_) (rtWaiting := rtWaiting) hu ha
  have hon : (s.dram.ready && !(rtWaiting && decide (0 < s.dram.chans[g].rt))) = true := by
    have hfree : (rtWaiting && decide (0 < s.dram.chans[g].rt)) = false :=
      Bool.eq_false_iff.2 fun h => hn ((Bool.and_eq_true _ _ ▸ h).imp id of_decide_eq_true)
    rw [hr, hfree]
    rfl
  rw [hon, if_pos rfl] at hx
  have htaken : Within [.clk, .dram] s (s.nbrTaken g at_ a rest) :=
    ((State.upto_within s _).mono (by decide)).step (State.modChan_within _ g _) (by decide)
  have hchan : (s.nbrTaken g at_ a rest).dram.chans[g] = { s.dram.chans[g] with
      aggressors := rest, lastNbr := some (max s.clk.now (s.nbrFrom g at_)), rows := smErase s.dram.chans[g].rows a.1.val } :=
    State.modChan_self _ g _
  have hbut : ChanBut g s (s.nbrTaken g at_ a rest) := ChanBut.modChan (s.upto _) g _
  have hnow : (s.nbrTaken g at_ a rest).clk.now = max s.clk.now (s.nbrFrom g at_) := rfl
  have hvictims : (s.nbrTaken g at_ a rest).victims a.2 = s.victims a.2 := State.victims_congr htaken.effEq rfl a.2
  have hdraws : (s.nbrTaken g at_ a rest).drawsPer = s.drawsPer := State.drawsPer_congr htaken.effEq
  rw [hvictims] at hx
  generalize s.nbrTaken g at_ a rest = u at hx htaken hchan hbut hnow hdraws
  have hact := Activated.activates g a.1 (s.victims a.2) u
  have hdrawn : (s.victims a.2).length * u.drawsPer = if (s.effW (drmA 0x14)).getLsbD 31 then 0 else (s.victims a.2).length := by
    rw [hdraws]
    unfold State.drawsPer
    split
    · exact Nat.mul_zero _
    · exact Nat.mul_one _
  rw [hdrawn] at hact
  generalize (if (s.effW (drmA 0x14)).getLsbD 31 then 0 else (s.victims a.2).length) = drawn at hact ⊢
  generalize (s.victims a.2).foldl (fun s v => s.activate g a.1 v) u = v at hx hact
  obtain ⟨⟨hagg, hdr, hrows, hlast, -⟩, hactBut, hactCtrs, hactFlags, hactIn⟩ := hact
  have hcount := State.count_within v (chanA g 0x14) 1
  have hdram := hcount.dramEq
  rw [hchan] at hagg hdr hrows hlast
  refine ⟨_, hx, ?_, ?_, ?_, ?_, ?_, ?_, ?_, ?_, ((htaken.flagsBut _).trans hactFlags).trans (hcount.flagsBut _), ?_⟩
  · rw [hdram]; exact hagg
  · rw [hdram]; exact hdr
  · rw [hdram]; exact hrows
  · rw [hcount.clkEq, hactIn.clkEq, hnow]
  · rw [hdram, hcount.clkEq, hactIn.clkEq, hnow]; exact hlast
  · exact (hbut.trans hactBut).trans (ChanBut.of_eq (congrArg Dram.chans hdram))
  · have hne : chanA g 0x14 ∉ [chanA g 0x18] := by simp [chanA, drmA]
    rw [counter_count_self _ _ _ (by decide), hactCtrs _ hne, htaken.counterEq]
  · have hsub : CtrsBut [chanA g 0x14, chanA g 0x18] u v := fun x hx => hactCtrs x (fun h => hx (List.mem_cons_of_mem _ h))
    exact ((htaken.ctrsBut _).trans hsub).count 1 List.mem_cons_self
  · exact ((htaken.mono (by decide)).step hactIn (by decide)).step hcount (by decide)

/-! ### Pages (R348) -/

theorem exec_pageClose {s : State} (g : Chan) (bank : Fin 16) (hu : s.undef = false) : exec (.pageClose g bank) s = .next
    (if s.predicts then s else match smFind s.dram.chans[g].rows bank.val with
      | none => s
      | some _ => (s.upto (smGet (fun _ => 0) s.dram.chans[g].used bank.val + s.pageTimer)).modChan g
          (fun k => { k with rows := smErase k.rows bank.val })) := by
  show execPageClose g bank s = _
  unfold execPageClose
  exact guarded_next hu _

theorem pageClose_predicts {s : State} (g : Chan) (bank : Fin 16) (hu : s.undef = false) (hp : s.predicts = true) :
    Gives (.pageClose g bank) s (fun t => t = s) :=
  ⟨s, (exec_pageClose g bank hu).trans (congrArg Host.Outcome.next (if_pos hp)), rfl⟩

theorem pageClose_closed {s : State} (g : Chan) (bank : Fin 16) (hu : s.undef = false) (hn : smFind s.dram.chans[g].rows bank.val = none) :
    Gives (.pageClose g bank) s (fun t => t = s) := by
  have hx := exec_pageClose g bank hu
  rw [hn] at hx
  exact ⟨s, hx.trans (congrArg Host.Outcome.next (ite_self s)), rfl⟩

theorem pageClose_closes {s : State} (g : Chan) (bank : Fin 16) (hu : s.undef = false) (hp : s.predicts = false)
    (hn : (smFind s.dram.chans[g].rows bank.val).isSome = true) : Gives (.pageClose g bank) s (fun t =>
        t.dram.chans[g] = { s.dram.chans[g] with rows := smErase s.dram.chans[g].rows bank.val } ∧ ChanBut g s t ∧
        t.clk.now = max s.clk.now (smGet (fun _ => 0) s.dram.chans[g].used bank.val + s.pageTimer) ∧
        Within [.clk, .dram] s t) := by
  obtain ⟨row, hrow⟩ := Option.isSome_iff_exists.1 hn
  have hx := exec_pageClose g bank hu
  rw [hrow, if_neg (by rw [hp]; decide)] at hx
  exact ⟨_, hx, State.modChan_self _ g _, ChanBut.modChan (s.upto _) g _, rfl,
    ((State.upto_within s _).mono (by decide)).step (State.modChan_within _ g _) (by decide)⟩

end Sys2Proof.Machine
end

