-- ==== Sys2Proof/Proofs/AccessIssues.lean ====
section
/-! PROOF. A master issues an access of DRAM: it takes its slot and its place, or waits for one (R54, R58, R153, R338; O50). -/
namespace Sys2Proof.Machine

/-! ### A place at a channel (R338) -/

/-- Where none waits there is no place to take. -/
theorem State.takePlaces_none {s : State} (h : s.dram.waiting = []) : s.takePlaces = s := by
  unfold State.takePlaces
  rw [h]
  rfl

/-- An access that alone waits takes the place that there is. -/
def State.admitted (s : State) (x : InFlight) : State :=
  { s.arrive x with dram := { (s.arrive x).dram with waiting := (s.arrive x).dram.waiting.erase x } }

theorem State.admitted_dram (s : State) (x : InFlight) : (s.admitted x).dram =
    { (s.modChan (unitChan x.tag.addr.toNat) (fun k => k.carry x.tag.rt true)).dram with
      inFlight := s.dram.inFlight ++ [{ x with passed := x.tag.rt && pastDeadline s.tb x.tag.deadline }]
      waiting := s.dram.waiting.erase x } := rfl

theorem State.takePlaces_room {s : State} {x : InFlight} (h : s.dram.waiting = [x])
    (hr : s.dram.chans[unitChan x.tag.addr.toNat].room x.tag.rt = true) : s.takePlaces = s.admitted x := by
  unfold State.takePlaces
  rw [h]
  unfold State.admitFrom
  rw [if_neg (by rw [hr]; simp)]
  rfl

theorem State.takePlaces_full {s : State} {x : InFlight} (h : s.dram.waiting = [x])
    (hr : s.dram.chans[unitChan x.tag.addr.toNat].room x.tag.rt = false) : s.takePlaces = s := by
  unfold State.takePlaces
  rw [h]
  unfold State.admitFrom
  rw [if_pos (by rw [hr]; simp)]
  rfl

/-- What a channel's place leaves of an access that alone asks for one. -/
structure Placed (x : InFlight) (s t : State) : Prop where
  waiting : t.dram.waiting = []
  inFlight : t.dram.inFlight = s.dram.inFlight ++ [{ x with passed := x.tag.rt && pastDeadline s.tb x.tag.deadline }]
  chan : t.dram.chans[unitChan x.tag.addr.toNat] = s.dram.chans[unitChan x.tag.addr.toNat].carry x.tag.rt true
  but : ChanBut (unitChan x.tag.addr.toNat) s t

/-- An access waits for a place. -/
def State.waitsFor (s : State) (x : InFlight) : State := { s with dram := { s.dram with waiting := s.dram.waiting ++ [x] } }

/-- An access asks for a place. -/
def State.asks (s : State) (x : InFlight) : State := (s.waitsFor x).takePlaces

theorem State.asks_within (s : State) (x : InFlight) : Within [.dram] s (s.asks x) :=
  Within.step (m := [.dram]) (t := s.waitsFor x) (Within.set_dram _ _ rfl rfl) (State.takePlaces_within _) (by decide)

theorem State.waitsFor_waiting {s : State} (x : InFlight) (h : s.dram.waiting = []) : (s.waitsFor x).dram.waiting = [x] := congrArg (· ++ [x]) h

theorem State.asks_placed {s : State} {x : InFlight} (h : s.dram.waiting = []) (hr : s.dram.chans[unitChan x.tag.addr.toNat].room x.tag.rt = true) :
    Placed x s (s.asks x) := by
  have hw := State.waitsFor_waiting x h
  have hasks : s.asks x = (s.waitsFor x).admitted x := State.takePlaces_room hw hr
  have hdram := (s.waitsFor x).admitted_dram x
  have hself := State.modChan_self (s.waitsFor x) (unitChan x.tag.addr.toNat) (fun k => k.carry x.tag.rt true)
  have hbut := ChanBut.modChan (s.waitsFor x) (unitChan x.tag.addr.toNat) (fun k => k.carry x.tag.rt true)
  have hchans : (s.waitsFor x).dram.chans = s.dram.chans := rfl
  have hin : (s.waitsFor x).dram.inFlight = s.dram.inFlight := rfl
  rw [hw, List.erase_cons_head, hin] at hdram
  rw [hasks]
  generalize (s.waitsFor x).modChan (unitChan x.tag.addr.toNat) (fun k => k.carry x.tag.rt true) = v at hdram hself hbut
  refine ⟨?_, ?_, ?_, fun g hg => ?_⟩
  · rw [hdram]
  · rw [hdram]; rfl
  · rw [hdram]; exact hself
  · rw [hdram]; exact hbut g hg

theorem State.asks_waits {s : State} {x : InFlight} (h : s.dram.waiting = []) (hr : s.dram.chans[unitChan x.tag.addr.toNat].room x.tag.rt = false) :
    (s.asks x).dram = { s.dram with waiting := [x] } := by
  have hw := State.waitsFor_waiting x h
  have hasks : s.asks x = s.waitsFor x := State.takePlaces_full hw hr
  have hdram : (s.waitsFor x).dram = { s.dram with waiting := s.dram.waiting ++ [x] } := rfl
  rw [hasks, hdram, h]
  rfl

theorem DramChan.carry_counts (k : DramChan) (rt : Bool) : (k.carry rt true).rt = (if rt then k.rt + 1 else k.rt) ∧
    (k.carry rt true).be = (if rt then k.be else k.be + 1) := by
  cases rt with
  | false => exact ⟨rfl, rfl⟩
  | true => exact ⟨rfl, rfl⟩

/-! ### An access with a slot (R153, R154) -/

/-- The slot of an access that is issued: its landing bit is clear. -/
def issuedSlot (a : AccessTag) (play : Option (Clu × Nat)) : Slot :=
  { addr := a.addr, landed := false, landedAt := 0, data := 0, entry := a.entry, play := play }

theorem State.issue_eq (s : State) (a : AccessTag) (play : Option (Clu × Nat)) : s.issue a play =
    State.asks { s with mem := { s.mem with slots := smInsert s.mem.slots a.dest.val (issuedSlot a play) } }
      { tag := a, issued := s.clk.now, play := play } := rfl

theorem State.issue_slots (s : State) (a : AccessTag) (play : Option (Clu × Nat)) :
    (s.issue a play).mem = { s.mem with slots := smInsert s.mem.slots a.dest.val (issuedSlot a play) } := by
  rw [State.issue_eq, (State.asks_within _ _).memEq]

/-- What an access that is issued leaves of DRAM and of its slot, from the state `s` in whose tick it is issued. -/
structure Issued (a : AccessTag) (play : Option (Clu × Nat)) (s t : State) : Prop where
  slot : smFind t.mem.slots a.dest.val = some (issuedSlot a play)
  placed : s.dram.waiting = [] → s.dram.chans[unitChan a.addr.toNat].room a.rt = true →
    Placed { tag := a, issued := s.clk.now, play := play } s t
  waits : s.dram.waiting = [] → s.dram.chans[unitChan a.addr.toNat].room a.rt = false →
    t.dram = { s.dram with waiting := [{ tag := a, issued := s.clk.now, play := play }] }

theorem State.issue_issued (s : State) (a : AccessTag) (play : Option (Clu × Nat)) : Issued a play s (s.issue a play) where
  slot := by rw [State.issue_slots]; exact smFind_insert_self _ _ _
  placed hw hr := by
    obtain ⟨hwait, hin, hchan, hbut⟩ := State.asks_placed (x := { tag := a, issued := s.clk.now, play := play })
      (s := { s with mem := { s.mem with slots := smInsert s.mem.slots a.dest.val (issuedSlot a play) } }) hw hr
    exact ⟨hwait, hin, hchan, hbut⟩
  waits hw hr := State.asks_waits (x := { tag := a, issued := s.clk.now, play := play })
    (s := { s with mem := { s.mem with slots := smInsert s.mem.slots a.dest.val (issuedSlot a play) } }) hw hr

/-- Another master's change of clusters or of slots before it is nothing to the controller. -/
theorem Issued.of_before {a : AccessTag} {play : Option (Clu × Nat)} {s u t : State} (h : Issued a play u t) (hd : u.dram = s.dram)
    (hc : u.clk = s.clk) : Issued a play s t where
  slot := h.slot
  placed hw hr := by
    obtain ⟨hwait, hin, hchan, hbut⟩ := h.placed (by rw [hd]; exact hw) (by rw [hd]; exact hr)
    refine ⟨hwait, ?_, ?_, fun g hg => (hbut g hg).trans (by rw [hd])⟩
    · rw [hin, State.tb_congr hc, hd, hc]
    · rw [hchan, hd]
  waits hw hr := by rw [h.waits (by rw [hd]; exact hw) (by rw [hd]; exact hr), hd, hc]

/-! ### The masters -/

theorem exec_accessIssue {s : State} {tag : AccessTag} {at_ : Nat} (hu : s.undef = false) (hc : s.configured = true) :
    exec (.accessIssue tag at_) s = .next ((s.upto at_).issueNow tag) := by
  show execAccessIssue tag at_ s = _
  unfold execAccessIssue
  exact (guarded_next hu _).trans (congrArg Host.Outcome.next (if_pos hc))

theorem accessIssue_unconfigured {s : State} {tag : AccessTag} {at_ : Nat} (hu : s.undef = false) (hc : s.configured = false) :
    Gives (.accessIssue tag at_) s (fun t => t = s.upto at_) :=
  gives_branch hu rfl (if_neg (by
    show ¬ s.configured = true
    rw [hc]
    decide)) rfl

theorem State.issueNow_loader {s : State} {a : AccessTag} (h : s.loaderRead a = true) :
    s.issueNow a = s.asks { tag := a, issued := s.clk.now } := if_pos h

/-- A fill engine issues for its cluster. -/
def State.engineAt (s : State) (n : Clu) (e : Fin 12) : State := s.modClu n (fun k => { k with engine := some e })

theorem State.issueNow_reader {s : State} {a : AccessTag} {p : Clu × Nat} (h : s.loaderRead a = false) (hp : s.readerAccess a = some p) :
    s.issueNow a = (s.engineAt p.1 (Fin.ofNat 12 (a.src.val - 20))).issue a (some p) := by
  unfold State.issueNow
  rw [if_neg (by rw [h]; decide), hp]
  rfl

theorem State.issueNow_staging {s : State} {a : AccessTag} (h : s.loaderRead a = false) (hp : s.readerAccess a = none)
    (hs : s.stagingAccess a = true) : s.issueNow a = s.issue a none := by
  unfold State.issueNow
  rw [if_neg (by rw [h]; decide), hp]
  exact if_pos hs

theorem State.issueNow_none {s : State} {a : AccessTag} (h : s.loaderRead a = false) (hp : s.readerAccess a = none)
    (hs : s.stagingAccess a = false) (hc : (allFin 8).find? (s.capoAccess a) = none) : s.issueNow a = s := by
  unfold State.issueNow
  rw [if_neg (by rw [h]; decide), hp]
  dsimp only
  rw [if_neg (by rw [hs]; decide), hc]

/-- Capo issues to a slot that is open, or to one of a head that it evicts (R149). -/
theorem State.issueNow_capo {s : State} {a : AccessTag} (h : s.loaderRead a = false) (hp : s.readerAccess a = none)
    (hs : s.stagingAccess a = false) (hc : ((allFin 8).find? (s.capoAccess a)).isSome = true) :
    ∃ u, Within [.mem] s u ∧ s.issueNow a = u.issue a none := by
  obtain ⟨n, hn⟩ := Option.isSome_iff_exists.1 hc
  unfold State.issueNow
  rw [if_neg (by rw [h]; decide), hp]
  dsimp only
  rw [if_neg (by rw [hs]; decide), hn]
  dsimp only
  split
  · exact ⟨_, State.evict_within s _, rfl⟩
  · exact ⟨s, Within.refl _ s, rfl⟩

/-- Of an access with a slot every other slot stays. -/
theorem State.issue_others (s : State) (a : AccessTag) (play : Option (Clu × Nat)) : ∀ d, d ≠ a.dest.val →
    smFind (s.issue a play).mem.slots d = smFind s.mem.slots d := fun d hd => by
  rw [State.issue_slots]
  exact smFind_insert_other _ _ hd

/-- What an issue in the tick `u` leaves, as the statement asks for it. -/
def IssuedAs (a : AccessTag) (play : Option (Clu × Nat)) (s u t : State) : Prop :=
  smFind t.mem.slots a.dest.val = some (issuedSlot a play) ∧
  (s.dram.waiting = [] → s.dram.chans[unitChan a.addr.toNat].room a.rt = true → t.dram.waiting = [] ∧ t.dram.inFlight = s.dram.inFlight ++
      [{ tag := a, issued := u.clk.now, play := play, passed := a.rt && pastDeadline u.tb a.deadline }] ∧
    t.dram.chans[unitChan a.addr.toNat].rt = (if a.rt then s.dram.chans[unitChan a.addr.toNat].rt + 1 else s.dram.chans[unitChan a.addr.toNat].rt) ∧
    t.dram.chans[unitChan a.addr.toNat].be = (if a.rt then s.dram.chans[unitChan a.addr.toNat].be else s.dram.chans[unitChan a.addr.toNat].be + 1) ∧
    ChanBut (unitChan a.addr.toNat) s t) ∧
  (s.dram.waiting = [] → s.dram.chans[unitChan a.addr.toNat].room a.rt = false → t.dram = { s.dram with
    waiting := [{ tag := a, issued := u.clk.now, play := play }] }) ∧
  t.clk = u.clk ∧ Within [.clk, .clu, .dram, .mem] s t

theorem Issued.as {a : AccessTag} {play : Option (Clu × Nat)} {s t : State} {at_ : Nat} (h : Issued a play (s.upto at_) t)
    (hw : Within [.clu, .dram, .mem] (s.upto at_) t) : IssuedAs a play s (s.upto at_) t := by
  refine ⟨h.slot, fun hq hr => ?_, h.waits, hw.clkEq, ((State.upto_within s at_).mono (by decide)).step hw (by decide)⟩
  obtain ⟨hwait, hin, hchan, hbut⟩ := h.placed hq hr
  obtain ⟨hrt, hbe⟩ := s.dram.chans[unitChan a.addr.toNat].carry_counts a.rt
  exact ⟨hwait, hin, (congrArg DramChan.rt hchan).trans hrt, (congrArg DramChan.be hchan).trans hbe, hbut⟩

theorem accessIssue_reader {s : State} {tag : AccessTag} {at_ : Nat} {p : Clu × Nat} (hu : s.undef = false) (hc : s.configured = true)
    (h : (s.upto at_).loaderRead tag = false) (hp : (s.upto at_).readerAccess tag = some p) : Gives (.accessIssue tag at_) s (fun t =>
      IssuedAs tag (some p) s (s.upto at_) t ∧ (∀ d, d ≠ tag.dest.val → smFind t.mem.slots d = smFind s.mem.slots d) ∧
        t.clu[p.1] = { s.clu[p.1] with engine := some (Fin.ofNat 12 (tag.src.val - 20)) } ∧ CluBut p.1 s t) := by
  have hx := exec_accessIssue (at_ := at_) (tag := tag) hu hc
  rw [State.issueNow_reader h hp] at hx
  have hclu : Within [.clu] (s.upto at_) ((s.upto at_).engineAt p.1 (Fin.ofNat 12 (tag.src.val - 20))) := State.modClu_within _ _ _
  have hself : ((s.upto at_).engineAt p.1 (Fin.ofNat 12 (tag.src.val - 20))).clu[p.1] =
      { s.clu[p.1] with engine := some (Fin.ofNat 12 (tag.src.val - 20)) } := State.modClu_self (s.upto at_) p.1 _
  have hother : CluBut p.1 s ((s.upto at_).engineAt p.1 (Fin.ofNat 12 (tag.src.val - 20))) := fun m hm => State.modClu_other (s.upto at_) p.1 _ hm
  generalize (s.upto at_).engineAt p.1 (Fin.ofNat 12 (tag.src.val - 20)) = v at hx hclu hself hother
  have hissue := State.issue_within v tag (some p)
  have hsame := hissue.cluEq (by decide)
  refine ⟨_, hx, ((v.issue_issued tag (some p)).of_before hclu.dramEq hclu.clkEq).as ((hclu.mono (by decide)).step hissue (by decide)), fun d hd => ?_,
    (getClu_of_eq hsame p.1).trans hself, fun m hm => (getClu_of_eq hsame m).trans (hother m hm)⟩
  rw [State.issue_others v tag (some p) d hd, hclu.memEq]
  rfl

theorem accessIssue_staging {s : State} {tag : AccessTag} {at_ : Nat} (hu : s.undef = false) (hc : s.configured = true)
    (h : (s.upto at_).loaderRead tag = false) (hp : (s.upto at_).readerAccess tag = none) (hs : (s.upto at_).stagingAccess tag = true) :
    Gives (.accessIssue tag at_) s (fun t => IssuedAs tag none s (s.upto at_) t ∧
      (∀ d, d ≠ tag.dest.val → smFind t.mem.slots d = smFind s.mem.slots d) ∧ t.clu = s.clu) := by
  have hx := exec_accessIssue (at_ := at_) (tag := tag) hu hc
  rw [State.issueNow_staging h hp hs] at hx
  have hissue := State.issue_within (s.upto at_) tag none
  exact ⟨_, hx, ((s.upto at_).issue_issued tag none).as (hissue.mono (by decide)), State.issue_others (s.upto at_) tag none,
    hissue.cluEq (by decide)⟩

theorem accessIssue_capo {s : State} {tag : AccessTag} {at_ : Nat} (hu : s.undef = false) (hc : s.configured = true)
    (h : (s.upto at_).loaderRead tag = false) (hp : (s.upto at_).readerAccess tag = none) (hs : (s.upto at_).stagingAccess tag = false)
    (hcapo : ((allFin 8).find? ((s.upto at_).capoAccess tag)).isSome = true) :
    Gives (.accessIssue tag at_) s (fun t => IssuedAs tag none s (s.upto at_) t ∧ t.clu = s.clu) := by
  have hx := exec_accessIssue (at_ := at_) (tag := tag) hu hc
  obtain ⟨v, hv, heq⟩ := State.issueNow_capo h hp hs hcapo
  rw [heq] at hx
  have hissue := State.issue_within v tag none
  exact ⟨_, hx, ((v.issue_issued tag none).of_before hv.dramEq hv.clkEq).as ((hv.mono (by decide)).step hissue (by decide)),
    (hissue.cluEq (by decide)).trans (hv.cluEq (by decide))⟩

theorem accessIssue_loader {s : State} {tag : AccessTag} {at_ : Nat} (hu : s.undef = false) (hc : s.configured = true)
    (h : (s.upto at_).loaderRead tag = true) : Gives (.accessIssue tag at_) s (fun t =>
        (s.dram.waiting = [] → s.dram.chans[unitChan tag.addr.toNat].room tag.rt = true → t.dram.waiting = [] ∧ t.dram.inFlight = s.dram.inFlight ++
            [{ tag := tag, issued := (s.upto at_).clk.now, passed := tag.rt && pastDeadline (s.upto at_).tb tag.deadline }] ∧
          ChanBut (unitChan tag.addr.toNat) s t) ∧
        (s.dram.waiting = [] → s.dram.chans[unitChan tag.addr.toNat].room tag.rt = false →
          t.dram = { s.dram with waiting := [{ tag := tag, issued := (s.upto at_).clk.now }] }) ∧
        t.clk = (s.upto at_).clk ∧ Within [.clk, .dram] s t) := by
  have hx := exec_accessIssue (at_ := at_) (tag := tag) hu hc
  rw [State.issueNow_loader h] at hx
  have hasks := State.asks_within (s.upto at_) { tag := tag, issued := (s.upto at_).clk.now }
  refine ⟨_, hx, fun hw hr => ?_, fun hw hr => State.asks_waits (s := s.upto at_) hw hr, hasks.clkEq,
    ((State.upto_within s at_).mono (by decide)).step hasks (by decide)⟩
  obtain ⟨hwait, hin, -, hbut⟩ := State.asks_placed (s := s.upto at_) (x := { tag := tag, issued := (s.upto at_).clk.now }) hw hr
  exact ⟨hwait, hin, hbut⟩

theorem accessIssue_other {s : State} {tag : AccessTag} {at_ : Nat} (hu : s.undef = false) (hc : s.configured = true)
    (h : (s.upto at_).loaderRead tag = false) (hp : (s.upto at_).readerAccess tag = none) (hs : (s.upto at_).stagingAccess tag = false)
    (hcapo : (allFin 8).find? ((s.upto at_).capoAccess tag) = none) : Gives (.accessIssue tag at_) s (fun t => t = s.upto at_) := by
  have hx := exec_accessIssue (at_ := at_) (tag := tag) hu hc
  rw [State.issueNow_none h hp hs hcapo] at hx
  exact ⟨_, hx, rfl⟩

end Sys2Proof.Machine
end

