-- ==== Sys2Proof/Proofs/Landings.lean ====
section
/-! PROOF. An access of DRAM ends: it leaves its channel, and its tile grants the landing write (R154, R338 to R340, R344, R349, R358, R362; O50). -/
namespace Sys2Proof.Machine

/-! ### The tile's grant depends on the staging store alone (R358) -/

/-- What the tiles' arbitration reads is the same. -/
structure SameTiles (s t : State) : Prop where
  mem : t.mem = s.mem
  clk : t.clk = s.clk
  pg : t.pg = s.pg
  plc : t.plc = s.plc

theorem SameTiles.of_within {l : List Field} {s t : State} (h : Within l s t) (hm : Field.mem ∉ l := by decide) (hx : Field.xram ∉ l := by decide)
    (hc : Field.clk ∉ l := by decide) (hp : Field.pg ∉ l := by decide) (hl : Field.plc ∉ l := by decide) : SameTiles s t :=
  ⟨h.memEq hm hx, h.clkEq hc, h.pgEq hp, h.plcEq hl⟩

theorem SameTiles.count {s t : State} (h : SameTiles s t) (a n : Nat) : SameTiles (s.count a n) (t.count a n) := by
  have hs := State.count_within s a n
  have ht := State.count_within t a n
  exact ⟨by rw [hs.memEq, ht.memEq, h.mem], by rw [hs.clkEq, ht.clkEq, h.clk], by rw [hs.pgEq, ht.pgEq, h.pg], by rw [hs.plcEq, ht.plcEq, h.plc]⟩

theorem SameTiles.conflicts {s t : State} (h : SameTiles s t) (l : List Nat) :
    SameTiles (l.foldl (fun s m => s.count (memA (4 * m)) 1) s) (l.foldl (fun s m => s.count (memA (4 * m)) 1) t) := by
  induction l generalizing s t with
  | nil => exact h
  | cons m r ih => exact ih (h.count _ 1)

theorem SameTiles.modMem {s t : State} (h : SameTiles s t) (f : Mem → Mem) : SameTiles (s.modMem f) (t.modMem f) :=
  ⟨congrArg f h.mem, h.clk, h.pg, h.plc⟩

theorem SameTiles.upto {s t : State} (h : SameTiles s t) (n : Nat) : SameTiles (s.upto n) (t.upto n) :=
  ⟨h.mem, congrArg (fun c : Clock => { c with now := max c.now n }) h.clk, h.pg, h.plc⟩

theorem SameTiles.slotBits {s t : State} (h : SameTiles s t) (slot : Nat) : t.slotBits slot = s.slotBits slot := by
  unfold State.slotBits State.ringAt State.ringSlot
  rw [h.mem, h.pg, h.plc]

theorem SameTiles.tbAt {s t : State} (h : SameTiles s t) (n : Nat) : t.tbAt n = s.tbAt n := by
  unfold State.tbAt
  rw [h.clk]

theorem SameTiles.tuneLeft {s t : State} (h : SameTiles s t) : t.tuneLeft = s.tuneLeft := by
  unfold State.tuneLeft
  rw [h.mem]

theorem SameTiles.ite {c c' : Prop} [Decidable c] [Decidable c'] {s s' t t' : State} (hc : c' ↔ c) (h : SameTiles s t) (h' : SameTiles s' t') :
    SameTiles (if c then s else s') (if c' then t else t') := by
  by_cases hx : c
  · rw [if_pos hx, if_pos (hc.2 hx)]; exact h
  · rw [if_neg hx, if_neg (fun k => hx (hc.1 k))]; exact h'

theorem SameTiles.tuneGranted {s t : State} (h : SameTiles s t) (tile n : Nat) : SameTiles (s.tuneGranted tile n) (t.tuneGranted tile n) := by
  unfold State.tuneGranted State.tuneAsk
  refine SameTiles.ite (by rw [h.mem, h.tuneLeft]) h ?_
  dsimp only
  rw [h.mem, h.slotBits]
  have hrow := h.modMem (fun m => { m with
    spare := if m.tunePhase = .copy then smPut (fun _ => 0) m.spare s.mem.tuneDone
      (s.slotBits (slotAt tile (64 * s.mem.tuneBlock.val + s.mem.tuneDone))) else m.spare, tuneDone := m.tuneDone + 1 })
  exact SameTiles.ite (by rw [hrow.tuneLeft]) hrow (hrow.modMem _)

theorem SameTiles.arbTick {s t : State} (h : SameTiles s t) (tile n : Nat) :
    (t.arbTick tile n).2 = (s.arbTick tile n).2 ∧ SameTiles (s.arbTick tile n).1 (t.arbTick tile n).1 := by
  unfold State.arbTick
  dsimp only
  rw [h.mem, h.tbAt]
  split
  · exact ⟨rfl, h⟩
  · rename_i x c _
    dsimp only
    refine ⟨rfl, ?_⟩
    have hgrant := ((h.upto n).conflicts (((smGet (fun _ => ({} : Arb)) s.mem.arb tile).masters n).filter (fun m => decide (m ≠ x.1.val)))).modMem
      (fun m => { m with arb := smPut (fun _ => {}) m.arb tile { smGet (fun _ => ({} : Arb)) s.mem.arb tile with
        at_ := n + 1, waiting := (smGet (fun _ => ({} : Arb)) s.mem.arb tile).waiting.erase x
        turn := (smGet (fun _ => ({} : Arb)) s.mem.arb tile).turn.setIfInBounds c (x.1.val + 1) } })
    exact SameTiles.ite Iff.rfl (hgrant.tuneGranted tile n) hgrant

theorem SameTiles.arbRun {tile : Nat} {x : Fin 44 × Nat} (k : Nat) {s t : State} (h : SameTiles s t) :
    (t.arbRun tile x k).2 = (s.arbRun tile x k).2 ∧ SameTiles (s.arbRun tile x k).1 (t.arbRun tile x k).1 := by
  induction k generalizing s t with
  | zero => exact ⟨congrArg Clock.now h.clk, h⟩
  | succ k ih =>
    unfold State.arbRun
    rw [h.mem]
    split
    · exact ⟨congrArg Clock.now h.clk, h⟩
    · rename_i n _
      obtain ⟨hgrant, hstep⟩ := h.arbTick tile n
      dsimp only
      rw [hgrant]
      split
      · exact ⟨rfl, hstep⟩
      · exact ih hstep

/-- The same request is granted in the same tick. -/
theorem SameTiles.tileGrant {s t : State} (h : SameTiles s t) (tile : Nat) (m : Fin 44) (n : Nat) (rivals : List (Fin 44 × Nat)) :
    (t.tileGrant tile m n rivals).2 = (s.tileGrant tile m n rivals).2 ∧
      SameTiles (s.tileGrant tile m n rivals).1 (t.tileGrant tile m n rivals).1 := by
  unfold State.tileGrant
  dsimp only
  rw [h.mem]
  have hasked := h.modMem (fun y => { y with arb := smPut (fun _ => {}) y.arb tile { smGet (fun _ => ({} : Arb)) s.mem.arb tile with
    waiting := if ((smGet (fun _ => ({} : Arb)) s.mem.arb tile).waiting ++
        rivals.filter (fun x => decide ((smGet (fun _ => ({} : Arb)) s.mem.arb tile).at_ ≤ x.2))).contains (m, n)
      then (smGet (fun _ => ({} : Arb)) s.mem.arb tile).waiting ++
        rivals.filter (fun x => decide ((smGet (fun _ => ({} : Arb)) s.mem.arb tile).at_ ≤ x.2))
      else (smGet (fun _ => ({} : Arb)) s.mem.arb tile).waiting ++
        rivals.filter (fun x => decide ((smGet (fun _ => ({} : Arb)) s.mem.arb tile).at_ ≤ x.2)) ++ [(m, n)] } })
  have hleft := hasked.tuneLeft
  rw [hleft]
  exact hasked.arbRun _

/-- A grant gives up no slot. -/
theorem State.arbRun_slots (tile : Nat) (x : Fin 44 × Nat) (k : Nat) (s : State) : (s.arbRun tile x k).1.mem.slots = s.mem.slots := by
  induction k generalizing s with
  | zero => rfl
  | succ k ih =>
    unfold State.arbRun
    split
    · rfl
    · rename_i n _
      have htick : (s.arbTick tile n).1.mem.slots = s.mem.slots := (congrArg Mem.slots (s.arbTick_mem tile n) :)
      dsimp only
      split
      · exact htick
      · exact (ih _).trans htick

theorem State.tileGrant_slots (s : State) (tile : Nat) (m : Fin 44) (n : Nat) (rivals : List (Fin 44 × Nat)) :
    (s.tileGrant tile m n rivals).1.mem.slots = s.mem.slots := State.arbRun_slots tile _ _ _

/-! ### An access leaves its channel (R338, R344, R349) -/

theorem DramChan.refresh_rt (k : DramChan) (perBank : Bool) (n : Nat) : (k.refresh perBank n).rt = k.rt := by
  unfold DramChan.refresh
  split
  · rfl
  · split
    · rfl
    · rfl

theorem DramChan.carry_owed (k : DramChan) (rt more : Bool) : (k.carry rt more).owed = k.owed := by
  unfold DramChan.carry
  split
  · rfl
  · rfl

/-- What a channel owes stays while accesses take their places. -/
theorem State.admitFrom_owed (l : List InFlight) (stuck : List (Fin 44)) (s : State) (g : Chan) :
    (State.admitFrom l stuck s).dram.chans[g].owed = s.dram.chans[g].owed := by
  induction l generalizing stuck s with
  | nil => rfl
  | cons x r ih =>
    unfold State.admitFrom
    split
    · exact ih _ s
    · refine (ih _ _).trans ?_
      have hchans : ({ s.arrive x with dram := { (s.arrive x).dram with waiting := (s.arrive x).dram.waiting.erase x } } : State).dram.chans =
          (s.modChan (unitChan x.tag.addr.toNat) (fun k => k.carry x.tag.rt true)).dram.chans := rfl
      rw [hchans]
      by_cases hg : g = unitChan x.tag.addr.toNat
      · subst hg
        rw [State.modChan_self, DramChan.carry_owed]
      · rw [State.modChan_other _ _ _ hg]

/-- A channel without a real-time access owes nothing, and another owes what it did. -/
theorem State.payRefresh_owed (s : State) (g : Chan) :
    (s.payRefresh g).dram.chans[g].owed = if (s.payRefresh g).dram.chans[g].rt = 0 then 0 else s.dram.chans[g].owed := by
  unfold State.payRefresh
  split
  · next h =>
    rw [State.modChan_self]
    dsimp only
    rw [DramChan.refresh_rt, if_pos h]
  · rfl

/-- A row that is not open is activated. -/
def State.rowOpened (s : State) (a : Nat) : State :=
  if decide (s.openRow (chanOf a) (s.bankOf a) = some (s.rowOf a)) then s else s.activate (chanOf a) (s.bankOf a) (s.rowOf a)

/-- What an access does to its bank (R348). -/
def State.bankUsed (s : State) (a : Nat) (k : DramChan) : DramChan :=
  let bank := s.bankOf a
  let open_ := s.openRow (chanOf a) bank
  let p := s.dram.chans[chanOf a].predictor bank
  let p1 := if decide (open_ = some (s.rowOf a)) then min 3 (p + 1) else if open_.isSome then p - 1 else p
  { k with
    used := smInsert k.used bank.val (s.rowOpened a).clk.now
    predict := smPut (fun _ => 2) k.predict bank.val p1
    rows := if (s.rowOpened a).predicts && decide (p1 < 2) then smErase k.rows bank.val else smInsert k.rows bank.val (s.rowOf a) }

theorem State.bankAccess_eq (s : State) (a : Nat) : s.bankAccess a = (s.rowOpened a).modChan (chanOf a) (s.bankUsed a) := rfl

/-- The bank of an access moves with it, and no other channel. -/
structure BankMoved (a : Nat) (s t : State) : Prop where
  owed : t.dram.chans[chanOf a].owed = s.dram.chans[chanOf a].owed
  but : ChanBut (chanOf a) s t
  ctrs : CtrsBut [chanA (chanOf a) 0x18] s t
  flags : FlagsBut [drmA 0x24] s t

theorem BankMoved.rowOpened (s : State) (a : Nat) : BankMoved a s (s.rowOpened a) := by
  unfold State.rowOpened
  have hact := Activated.activate s (chanOf a) (s.bankOf a) (s.rowOf a)
  split
  · exact ⟨rfl, ChanBut.refl _ s, CtrsBut.refl _ s, FlagsBut.refl _ s⟩
  · exact ⟨hact.chan.owed, hact.but, hact.ctrs, hact.flags⟩

theorem BankMoved.bankAccess (s : State) (a : Nat) : BankMoved a s (s.bankAccess a) := by
  obtain ⟨howed, hbut, hctrs, hflags⟩ := BankMoved.rowOpened s a
  rw [State.bankAccess_eq]
  refine ⟨?_, hbut.trans (ChanBut.modChan _ _ _), hctrs, hflags⟩
  rw [State.modChan_self]
  exact howed

/-- Its bank has moved, and the access is no longer in flight. -/
def State.flightOver (s : State) (x : InFlight) : State :=
  { s.bankAccess (x.tag.addr.toNat * 64) with dram := { (s.bankAccess (x.tag.addr.toNat * 64)).dram with
      inFlight := (s.bankAccess (x.tag.addr.toNat * 64)).dram.inFlight.erase x } }

/-- Its place is free. -/
def State.placeFreed (s : State) (x : InFlight) : State := (s.flightOver x).modChan (unitChan x.tag.addr.toNat) (fun k => k.carry x.tag.rt false)

theorem State.leaveChannel_eq (s : State) (x : InFlight) (edc : EdcOutcome) : s.leaveChannel x edc =
    (((s.placeFreed x).takePlaces).payRefresh (unitChan x.tag.addr.toNat)).retries (x.tag.addr.toNat * 64) edc := rfl

theorem State.bankAccess_lists (s : State) (a : Nat) : (s.bankAccess a).dram.inFlight = s.dram.inFlight ∧
    (s.bankAccess a).dram.waiting = s.dram.waiting := by
  have hmod : ∀ (u : State) (g : Chan) f, (u.modChan g f).dram.inFlight = u.dram.inFlight ∧ (u.modChan g f).dram.waiting = u.dram.waiting :=
    fun _ _ _ => ⟨rfl, rfl⟩
  have hact : ∀ (g : Chan) (b : Fin 16) (r : Nat), (s.activate g b r).dram.inFlight = s.dram.inFlight ∧ (s.activate g b r).dram.waiting = s.dram.waiting := by
    intro g b r
    unfold State.activate
    split
    · exact ⟨rfl, rfl⟩
    · dsimp only
      split
      · exact hmod s g _
      · split
        · rw [(State.setBit_within _ _ _).dramEq, (State.count_within _ _ _).dramEq]
          exact ⟨rfl, rfl⟩
        · exact ⟨rfl, rfl⟩
  have hopened : (s.rowOpened a).dram.inFlight = s.dram.inFlight ∧ (s.rowOpened a).dram.waiting = s.dram.waiting := by
    unfold State.rowOpened
    split
    · exact ⟨rfl, rfl⟩
    · exact hact _ _ _
  exact hopened

/-- What the end of an access leaves of the channels. -/
def ChannelLeft (x : InFlight) (s t : State) : Prop :=
  (s.dram.waiting = [] → t.dram.inFlight = s.dram.inFlight.erase x ∧ t.dram.waiting = [] ∧ ChanBut (unitChan x.tag.addr.toNat) s t) ∧
  t.dram.chans[unitChan x.tag.addr.toNat].owed =
    if t.dram.chans[unitChan x.tag.addr.toNat].rt = 0 then 0 else s.dram.chans[unitChan x.tag.addr.toNat].owed

theorem ChannelLeft.of_eq {x : InFlight} {s t u : State} (h : ChannelLeft x s t) (hi : u.dram.inFlight = t.dram.inFlight)
    (hw : u.dram.waiting = t.dram.waiting) (hc : u.dram.chans = t.dram.chans) : ChannelLeft x s u := by
  obtain ⟨hleft, howed⟩ := h
  refine ⟨fun h => ?_, by rw [hc]; exact howed⟩
  obtain ⟨hin, hwait, hbut⟩ := hleft h
  exact ⟨hi.trans hin, hw.trans hwait, hbut.trans (ChanBut.of_eq hc)⟩

theorem State.payRefresh_lists (s : State) (g : Chan) : (s.payRefresh g).dram.inFlight = s.dram.inFlight ∧
    (s.payRefresh g).dram.waiting = s.dram.waiting ∧ ChanBut g s (s.payRefresh g) := by
  unfold State.payRefresh
  split
  · exact ⟨rfl, rfl, ChanBut.modChan s g _⟩
  · exact ⟨rfl, rfl, ChanBut.refl g s⟩

theorem State.leaveChannel_left (s : State) (x : InFlight) (edc : EdcOutcome) : ChannelLeft x s (s.leaveChannel x edc) := by
  have hmoved := BankMoved.bankAccess s (x.tag.addr.toNat * 64)
  obtain ⟨hin, hwait⟩ := s.bankAccess_lists (x.tag.addr.toNat * 64)
  have hfreed : ChanBut (unitChan x.tag.addr.toNat) s (s.placeFreed x) :=
    hmoved.but.trans (ChanBut.modChan (s.flightOver x) (unitChan x.tag.addr.toNat) _)
  have hfreedOwed : (s.placeFreed x).dram.chans[unitChan x.tag.addr.toNat].owed = s.dram.chans[unitChan x.tag.addr.toNat].owed := by
    unfold State.placeFreed
    rw [State.modChan_self, DramChan.carry_owed]
    exact hmoved.owed
  have hfreedIn : (s.placeFreed x).dram.inFlight = s.dram.inFlight.erase x := congrArg (·.erase x) hin
  have hfreedWait : (s.placeFreed x).dram.waiting = s.dram.waiting := hwait
  have htaken : (s.placeFreed x).takePlaces.dram.chans[unitChan x.tag.addr.toNat].owed = s.dram.chans[unitChan x.tag.addr.toNat].owed :=
    (State.admitFrom_owed _ _ _ _).trans hfreedOwed
  have hpaid := State.payRefresh_owed (s.placeFreed x).takePlaces (unitChan x.tag.addr.toNat)
  rw [htaken] at hpaid
  have hretries := (State.retries_within ((s.placeFreed x).takePlaces.payRefresh (unitChan x.tag.addr.toNat)) (x.tag.addr.toNat * 64) edc).dramEq
  rw [State.leaveChannel_eq]
  refine ChannelLeft.of_eq (t := (s.placeFreed x).takePlaces.payRefresh (unitChan x.tag.addr.toNat)) ⟨fun h => ?_, hpaid⟩
    (congrArg Dram.inFlight hretries) (congrArg Dram.waiting hretries) (congrArg Dram.chans hretries)
  obtain ⟨hpIn, hpWait, hpBut⟩ := State.payRefresh_lists (s.placeFreed x).takePlaces (unitChan x.tag.addr.toNat)
  rw [State.takePlaces_none (hfreedWait.trans h)] at hpIn hpWait hpBut ⊢
  exact ⟨hpIn.trans hfreedIn, hpWait.trans (hfreedWait.trans h), hfreed.trans hpBut⟩

theorem State.leaveChannel_ctrs (s : State) (x : InFlight) (edc : EdcOutcome) :
    CtrsBut [chanA (unitChan x.tag.addr.toNat) 0x18, chanA (unitChan x.tag.addr.toNat) 8] s (s.leaveChannel x edc) := by
  have hmoved := BankMoved.bankAccess s (x.tag.addr.toNat * 64)
  have hpaid : CtrsBut [chanA (unitChan x.tag.addr.toNat) 0x18, chanA (unitChan x.tag.addr.toNat) 8] s
      ((s.placeFreed x).takePlaces.payRefresh (unitChan x.tag.addr.toNat)) := by
    have hplaces : Within [.dram] (s.placeFreed x) ((s.placeFreed x).takePlaces.payRefresh (unitChan x.tag.addr.toNat)) :=
      (State.takePlaces_within _).step (State.payRefresh_within _ _) (by decide)
    have hctr : (s.placeFreed x).ctr = (s.bankAccess (x.tag.addr.toNat * 64)).ctr := rfl
    have hfreed : CtrsBut [chanA (unitChan x.tag.addr.toNat) 0x18, chanA (unitChan x.tag.addr.toNat) 8] s (s.placeFreed x) := fun a ha =>
      (counter_of_ctr_eq hctr a).trans (hmoved.ctrs a (fun h => ha (List.mem_cons.2 (Or.inl (List.mem_singleton.1 h)))))
    exact hfreed.trans (hplaces.ctrsBut _)
  rw [State.leaveChannel_eq]
  unfold State.retries
  cases edc with
  | ok n => exact hpaid.count _ (List.mem_cons_of_mem _ List.mem_cons_self)
  | escaped => exact hpaid.count _ (List.mem_cons_of_mem _ List.mem_cons_self)

/-! ### A clean end (R154, R358, R362) -/

/-- Its tile has granted the landing write. -/
def State.landGranted (s : State) (x : InFlight) (rivals : List (Fin 44 × Nat)) : State :=
  (s.tileGrant (tileOf x.tag.dest.val) x.tag.src s.clk.now rivals).1.upto
    (s.tileGrant (tileOf x.tag.dest.val) x.tag.src s.clk.now rivals).2

/-- It is a real-time access past its deadline (R339). -/
def State.landsLate (s : State) (x : InFlight) : Bool := x.tag.rt && pastDeadline s.tb x.tag.deadline

/-- A real-time access is counted (R354). -/
def State.landReal (s : State) (x : InFlight) : State := if x.tag.rt then s.count (chanA (unitChan x.tag.addr.toNat) 0x1C) 1 else s

/-- And so is one that is late (R154). -/
def State.landCounted (s : State) (x : InFlight) (late : Bool) : State :=
  if late then ((s.landReal x).count (chanA (unitChan x.tag.addr.toNat) 4) 1).setBit (drmA 0x24) 3 else s.landReal x

theorem State.landsClean_eq (s : State) (x : InFlight) (rivals : List (Fin 44 × Nat)) : s.landsClean x rivals =
    ((s.landGranted x rivals).landCounted x ((s.landGranted x rivals).landsLate x)).landWrite x ((s.landGranted x rivals).landsLate x) := rfl

theorem State.landGranted_slots (s : State) (x : InFlight) (rivals : List (Fin 44 × Nat)) : (s.landGranted x rivals).mem.slots = s.mem.slots :=
  s.tileGrant_slots _ _ _ _

theorem State.landGranted_within (s : State) (x : InFlight) (rivals : List (Fin 44 × Nat)) : Within [.clk, .ctr, .mem] s (s.landGranted x rivals) :=
  (State.tileGrant_within s _ _ _ _).step (State.upto_within _ _) (by decide)

theorem SameTiles.landGranted {s t : State} (h : SameTiles s t) (x : InFlight) (rivals : List (Fin 44 × Nat)) :
    SameTiles (s.landGranted x rivals) (t.landGranted x rivals) := by
  obtain ⟨htick, hsame⟩ := h.tileGrant (tileOf x.tag.dest.val) x.tag.src s.clk.now rivals
  unfold State.landGranted
  rw [h.clk, htick]
  exact hsame.upto _

/-- A word of a DRAM channel is none of the masters' conflicts. -/
theorem chanA_not_conflict (g : Chan) {off : Nat} (h : off < 0x20) : chanA g off ∉ conflictCtrs := by
  intro hm
  obtain ⟨k, -, hk⟩ := List.mem_map.1 hm
  have hg := g.isLt
  unfold chanA drmA memA at hk
  omega

theorem chanA_ne (g : Chan) {i j : Nat} (h : i ≠ j) : chanA g i ≠ chanA g j := by
  unfold chanA drmA
  omega

/-- Nothing of a channel's counters changes. -/
theorem State.landGranted_counter (s : State) (x : InFlight) (rivals : List (Fin 44 × Nat)) (g : Chan) {off : Nat} (h : off < 0x20) :
    (s.landGranted x rivals).counter (chanA g off) = s.counter (chanA g off) :=
  (s.tileGrant_steps _ _ _ _).ctrs _ (chanA_not_conflict g h)

theorem State.landCounted_within (s : State) (x : InFlight) (late : Bool) : Within [.flg, .ctr, .msix] s (s.landCounted x late) := by
  have hrt : Within [.flg, .ctr, .msix] s (s.landReal x) :=
    Within.ite ((State.count_within _ _ _).mono (by decide)) (Within.refl _ s)
  exact Within.ite ((hrt.step (State.count_within _ _ _) (by decide)).step (State.setBit_within _ _ _) (by decide)) hrt

/-- A landing access is counted: a real-time one, and one past its deadline with its flag (R154, R354). -/
theorem State.landCounted_counts (s : State) (x : InFlight) (late : Bool) :
    let g := unitChan x.tag.addr.toNat
    let t := s.landCounted x late
    (x.tag.rt = true → t.counter (chanA g 0x1C) = min (s.counter (chanA g 0x1C) + 1) top32) ∧
    (late = true → (t.flag (drmA 0x24)).getLsbD 3 = true ∧ t.counter (chanA g 4) = min (s.counter (chanA g 4) + 1) top32) ∧
    (late = false → t.counter (chanA g 4) = s.counter (chanA g 4)) := by
  intro g t
  have hne : chanA g 0x1C ≠ chanA g 4 := chanA_ne g (by decide)
  have hrt : x.tag.rt = true → (s.landReal x).counter (chanA g 0x1C) = min (s.counter (chanA g 0x1C) + 1) top32 := fun h => by
    unfold State.landReal
    rw [if_pos h, counter_count_self _ _ _ (by decide)]
  have hfour : (s.landReal x).counter (chanA g 4) = s.counter (chanA g 4) := by
    unfold State.landReal
    split
    · exact counter_count_other s _ 1 _ hne.symm
    · rfl
  cases late with
  | false =>
    have ht : t = s.landReal x := if_neg Bool.false_ne_true
    rw [ht]
    exact ⟨hrt, fun h => absurd h Bool.false_ne_true, fun _ => hfour⟩
  | true =>
    have ht : t = ((s.landReal x).count (chanA g 4) 1).setBit (drmA 0x24) 3 := if_pos rfl
    have hset := State.setBit_within ((s.landReal x).count (chanA g 4) 1) (drmA 0x24) 3
    rw [ht]
    refine ⟨fun h => ?_, fun _ => ⟨State.flagBit_setBit _ (by decide) (by decide), ?_⟩, fun h => absurd h.symm Bool.false_ne_true⟩
    · rw [hset.counterEq, counter_count_other _ _ _ _ hne, hrt h]
    · rw [hset.counterEq, counter_count_self _ _ _ (by decide), hfour]

/-- What a landing write raises of counters and flags: nothing of the controller's. -/
structure LandMarks (s t : State) : Prop where
  ctrs : ∀ a, drmA 0 ≤ a → t.counter a = s.counter a
  flags : FlagsBut [fltA 4, plcA 0x10] s t

theorem LandMarks.refl (s : State) : LandMarks s s := ⟨fun _ _ => rfl, FlagsBut.refl _ s⟩

theorem LandMarks.trans {s t u : State} (h : LandMarks s t) (k : LandMarks t u) : LandMarks s u :=
  ⟨fun a ha => (k.ctrs a ha).trans (h.ctrs a ha), h.flags.trans k.flags⟩

theorem LandMarks.of_within {l : List Field} {s t : State} (h : Within l s t) (hf : Field.flg ∉ l := by decide) (hc : Field.ctr ∉ l := by decide) :
    LandMarks s t := ⟨fun a _ => h.counterEq a hc, h.flagsBut _ hf⟩

theorem LandMarks.reportLate (s : State) (n : Clu) (r : LateRec) (lateness : Nat) : LandMarks s (s.reportLate n r lateness) :=
  ⟨fun _ ha => State.report_counter s _ (Or.inr (Nat.le_trans (by decide) ha)),
    fun a ha => State.report_flags s _ a (fun h => ha (List.mem_cons.2 (Or.inl (List.mem_singleton.1 h))))⟩

theorem LandMarks.landRecs (s : State) (n : Clu) (u : Nat) (y : Slot) : LandMarks s (s.landRecs n u y) := by
  unfold State.landRecs
  exact (LandMarks.of_within (State.modClu_within s n _)).trans
    (foldl_rel LandMarks LandMarks.refl LandMarks.trans _ (fun v r => LandMarks.reportLate v n r _) _ _)

theorem LandMarks.jobsLanded (s : State) : LandMarks s s.jobsLanded := by
  have hjobs : ∀ (l : List StagingJob), LandMarks s (l.foldl State.jobDone s) := fun l =>
    foldl_rel LandMarks LandMarks.refl LandMarks.trans _ (fun u j => LandMarks.of_within (State.jobDone_within u j)) l s
  have hfinish : ∀ u : State, LandMarks u u.publishFinish := fun u =>
    ⟨fun a _ => u.publishFinish_within.counterEq a, fun a ha => u.publishFinish_flags a (fun h => ha (List.mem_cons_of_mem _ h))⟩
  unfold State.jobsLanded
  dsimp only
  split
  · exact LandMarks.refl s
  · exact (hjobs _).trans (hfinish _)

theorem LandMarks.afterLanding (s : State) (a : AccessTag) (y : Slot) : LandMarks s (s.afterLanding a y) := by
  have hcount : ∀ k, LandMarks s (s.count (plcA 0x30) k) := fun k =>
    ⟨fun b hb => counter_count_other s _ k b (fun e => absurd (e ▸ hb) (by decide)), (State.count_within s _ k).flagsBut _⟩
  unfold State.afterLanding
  dsimp only
  refine LandMarks.trans ?_ (LandMarks.jobsLanded _)
  exact (hcount _).trans (foldl_rel LandMarks LandMarks.refl LandMarks.trans _ (fun u n => LandMarks.landRecs u n _ y) _ _)

/-! ### The landing write (R154, R362) -/

/-- The regions of the master deny it. -/
theorem State.landWrite_denied {s : State} {x : InFlight} (late : Bool) (h : s.slotOk x.tag.src.val x.tag.dest.val true = false) :
    s.landWrite x late = s.violate x.tag.src.val x.tag.dest.val true := by
  unfold State.landWrite
  exact if_pos (by rw [h]; rfl)

/-- Its slot has been given up (R133, R135). -/
theorem State.landWrite_givenUp {s : State} {x : InFlight} (late : Bool) (h : s.slotOk x.tag.src.val x.tag.dest.val true = true)
    (hn : smFind s.mem.slots x.tag.dest.val = none) : s.landWrite x late = s := by
  unfold State.landWrite State.landsIn
  dsimp only
  rw [if_neg (by rw [h]; decide), hn]

theorem State.landWrite_lands {s : State} {x : InFlight} (late : Bool) {y : Slot} (h : s.slotOk x.tag.src.val x.tag.dest.val true = true)
    (hy : smFind s.mem.slots x.tag.dest.val = some y) :
    s.landWrite x late = ((s.landSlot x.tag late y).spareFollow x.tag.dest.val).afterLanding x.tag y := by
  unfold State.landWrite State.landsIn
  dsimp only
  rw [if_neg (by rw [h]; decide), hy]

/-- The slot with its data landed. -/
def State.landedSlot (s : State) (x : InFlight) (late : Bool) (y : Slot) : Slot :=
  { y with landed := true, landedAt := s.clk.now, late := late
           data := BitVec.ofNat 512 (leNat (s.dramBytes (x.tag.addr.toNat * 64) 64)) }

theorem State.spareFollow_slots (s : State) (slot : Nat) : (s.spareFollow slot).mem.slots = s.mem.slots := by
  unfold State.spareFollow
  split
  · rfl
  · rfl

/-- What the landing write does to the slots, where the regions allow it. -/
theorem State.landWrite_slots {s : State} {x : InFlight} (late : Bool) (h : s.slotOk x.tag.src.val x.tag.dest.val true = true) :
    (smFind s.mem.slots x.tag.dest.val = none → (s.landWrite x late).mem.slots = s.mem.slots) ∧
    (∀ y, smFind s.mem.slots x.tag.dest.val = some y →
      smFind (s.landWrite x late).mem.slots x.tag.dest.val = some (s.landedSlot x late y)) ∧
    (∀ d, d ≠ x.tag.dest.val → smFind (s.landWrite x late).mem.slots d = smFind s.mem.slots d) := by
  cases hy : smFind s.mem.slots x.tag.dest.val with
  | none =>
    rw [State.landWrite_givenUp late h hy]
    exact ⟨fun _ => rfl, (fun y hy => nomatch hy), fun _ _ => rfl⟩
  | some y =>
    have hslots : (s.landWrite x late).mem.slots = smInsert s.mem.slots x.tag.dest.val (s.landedSlot x late y) := by
      rw [State.landWrite_lands late h hy, (State.afterLanding_within _ _ _).memEq, State.spareFollow_slots]
      rfl
    rw [hslots]
    refine ⟨(fun hn => nomatch hn), fun z hz => ?_, fun d hd => smFind_insert_other _ _ hd⟩
    rw [smFind_insert_self, Option.some.inj hz]

theorem LandMarks.landWrite {s : State} {x : InFlight} (late : Bool) (h : s.slotOk x.tag.src.val x.tag.dest.val true = true) :
    LandMarks s (s.landWrite x late) := by
  cases hy : smFind s.mem.slots x.tag.dest.val with
  | none =>
    rw [State.landWrite_givenUp late h hy]
    exact LandMarks.refl s
  | some y =>
    rw [State.landWrite_lands late h hy]
    exact ((LandMarks.of_within (State.landSlot_within s _ _ _)).trans (LandMarks.of_within (State.spareFollow_within _ _))).trans
      (LandMarks.afterLanding _ _ _)

theorem State.violate_slots (s : State) (m slot : Nat) (w : Bool) : (s.violate m slot w).mem.slots = s.mem.slots := by
  have hset := State.setBit_within (s.count (memA (0x100 + 4 * m)) 1) (memA (0x200 + 4 * (m / 32))) (m % 32)
  have hmem : ((s.count (memA (0x100 + 4 * m)) 1).setBit (memA (0x200 + 4 * (m / 32))) (m % 32)).mem = s.mem :=
    hset.memEq.trans (State.count_within s _ 1).memEq
  unfold State.violate
  dsimp only
  split
  · exact (congrArg Mem.slots hmem :)
  · rw [(State.report_within _ _).memEq]
    exact (congrArg Mem.slots hmem :)

/-! ### An escape (R349) -/

theorem State.escape_seq (s : State) (a : Nat) (write : Bool) (src : Nat) : (s.escape a write src).flt.seq = s.flt.seq + 1 := by
  have hset := State.setBit_within (s.count (chanA (chanOf a) 0xC) 1) (drmA 0x24) (if write then 1 else 0)
  unfold State.escape
  dsimp only
  rw [State.report_seq, hset.fltEq, (State.count_within _ _ _).fltEq]

theorem State.escape_chans (s : State) (a : Nat) (write : Bool) (src : Nat) : (s.escape a write src).dram.chans = s.dram.chans ∧
    (s.escape a write src).dram.inFlight = s.dram.inFlight ∧ (s.escape a write src).dram.waiting = s.dram.waiting := by
  have hset := State.setBit_within (s.count (chanA (chanOf a) 0xC) 1) (drmA 0x24) (if write then 1 else 0)
  have hdram := hset.dramEq.trans (State.count_within s (chanA (chanOf a) 0xC) 1).dramEq
  unfold State.escape
  dsimp only
  rw [(State.report_within _ _).dramEq]
  exact ⟨(congrArg Dram.chans hdram :), (congrArg Dram.inFlight hdram :), (congrArg Dram.waiting hdram :)⟩

/-! ### ACCESS_LAND -/

/-- The access to land is the first of those that are ready. -/
theorem exec_accessLand {s : State} {x : InFlight} {at_ : Nat} {edc : EdcOutcome} {rivals : List (Fin 44 × Nat)} {ready : List (Fin 1572864)}
    (hu : s.undef = false) (hx : s.dram.inFlight.find? (fun y => decide (y.tag.dest = x.tag.dest)) = some x) (hr : s.dram.ready = true)
    (hf : s.issuedFirst x ready = true) :
    exec (.accessLand x.tag.dest at_ edc ⟨rivals, ready⟩) s = .next ((s.upto at_).landAccess x edc rivals) := by
  show execAccessLand x.tag.dest at_ edc ⟨rivals, ready⟩ s = _
  unfold execAccessLand
  refine (guarded_next hu _).trans (congrArg Host.Outcome.next ((if_neg (by rw [hr]; decide)).trans ?_))
  rw [hx]
  exact if_pos hf

/-- One that is not leaves the state. -/
theorem accessLand_waits {s : State} {x : InFlight} {at_ : Nat} {edc : EdcOutcome} {rivals : List (Fin 44 × Nat)} {ready : List (Fin 1572864)}
    (hu : s.undef = false) (hx : s.dram.inFlight.find? (fun y => decide (y.tag.dest = x.tag.dest)) = some x)
    (hn : s.dram.ready = false ∨ s.issuedFirst x ready = false) :
    Gives (.accessLand x.tag.dest at_ edc ⟨rivals, ready⟩) s (fun t => t = s) := by
  refine ⟨s, ?_, rfl⟩
  show execAccessLand x.tag.dest at_ edc ⟨rivals, ready⟩ s = _
  unfold execAccessLand
  refine (guarded_next hu _).trans (congrArg Host.Outcome.next ?_)
  cases hr : s.dram.ready with
  | false => exact if_pos rfl
  | true =>
    refine (if_neg (by decide)).trans ?_
    rw [hx]
    exact if_neg (by rw [hn.resolve_left (by rw [hr]; decide)]; decide)

/-- What the end of an access leaves whatever its outcome. -/
def LandGone (x : InFlight) (s t : State) : Prop :=
  (s.dram.waiting = [] → t.dram.inFlight = s.dram.inFlight.erase x ∧ t.dram.waiting = [] ∧ ChanBut (unitChan x.tag.addr.toNat) s t) ∧
  t.dram.chans[unitChan x.tag.addr.toNat].owed =
    (if t.dram.chans[unitChan x.tag.addr.toNat].rt = 0 then 0 else s.dram.chans[unitChan x.tag.addr.toNat].owed) ∧
  (∀ d, d ≠ x.tag.dest.val → smFind t.mem.slots d = smFind s.mem.slots d) ∧
  (¬ x.tag.src = 42 → t.ovl = s.ovl) ∧ Within [.clk, .ovl, .flg, .ctr, .clu, .dram, .mem, .msix, .flt, .plc] s t

theorem ChannelLeft.gone {x : InFlight} {s t : State} (h : ChannelLeft x s t)
    (hd : ∀ d, d ≠ x.tag.dest.val → smFind t.mem.slots d = smFind s.mem.slots d) (ho : ¬ x.tag.src = 42 → t.ovl = s.ovl)
    (hw : Within [.clk, .ovl, .flg, .ctr, .clu, .dram, .mem, .msix, .flt, .plc] s t) : LandGone x s t :=
  ⟨h.1, h.2, hd, ho, hw⟩

section
variable {s : State} {x : InFlight} {at_ n : Nat} {rivals : List (Fin 44 × Nat)} {ready : List (Fin 1572864)} (hu : s.undef = false)
  (hx : s.dram.inFlight.find? (fun y => decide (y.tag.dest = x.tag.dest)) = some x) (hr : s.dram.ready = true) (hf : s.issuedFirst x ready = true)
include hu hx hr hf

/-- What the loader reads goes to it. -/
theorem accessLand_loader (hl : x.tag.src = 42) : Gives (.accessLand x.tag.dest at_ (.ok n) ⟨rivals, ready⟩) s (fun t =>
    LandGone x s t ∧ t.mem = s.mem ∧ t.clk = (s.upto at_).clk ∧ t.ovl = { s.ovl with loaded := s.ovl.loaded ++ [x.tag.addr.toNat] }) := by
  have hexec := exec_accessLand (at_ := at_) (edc := .ok n) (rivals := rivals) hu hx hr hf
  have hframe := execAccessLand_within _ _ _ _ s hexec
  rw [State.landAccess_ok, if_pos hl] at hexec hframe
  have hleft := (s.upto at_).leaveChannel_left x (.ok n)
  have hw := (s.upto at_).leaveChannel_within x (.ok n)
  have hovl : ((s.upto at_).leaveChannel x (.ok n)).ovl = s.ovl := hw.ovlEq
  have hmem : ((s.upto at_).leaveChannel x (.ok n)).mem = s.mem := hw.memEq
  have hclk : ((s.upto at_).leaveChannel x (.ok n)).clk = (s.upto at_).clk := hw.clkEq
  generalize (s.upto at_).leaveChannel x (.ok n) = v at hexec hframe hleft hovl hmem hclk
  have hgets : (v.loaderGets x.tag.addr.toNat false).ovl = { v.ovl with loaded := v.ovl.loaded ++ [x.tag.addr.toNat] } := rfl
  have hgone : ChannelLeft x s (v.loaderGets x.tag.addr.toNat false) := hleft
  refine ⟨_, hexec, hgone.gone (fun d _ => congrArg (fun m : Mem => smFind m.slots d) hmem) (fun h => absurd hl h) hframe, hmem, hclk, ?_⟩
  rw [hgets, hovl]

/-- An access that escapes lands nothing, and is recorded (R349). -/
theorem accessLand_escapes : Gives (.accessLand x.tag.dest at_ .escaped ⟨rivals, ready⟩) s (fun t =>
    LandGone x s t ∧ t.mem = s.mem ∧ t.clk = (s.upto at_).clk ∧
      (x.tag.src = 42 → t.ovl = { s.ovl with unread := s.ovl.unread ++ [x.tag.addr.toNat], loaded := s.ovl.loaded ++ [x.tag.addr.toNat] }) ∧
      t.dram.escAddr = BitVec.ofNat 64 (x.tag.addr.toNat * 64) ∧ t.dram.escWrite = false ∧ (t.flag (drmA 0x24)).getLsbD 0 = true ∧
      t.flt.seq = s.flt.seq + 1) := by
  have hexec := exec_accessLand (at_ := at_) (edc := .escaped) (rivals := rivals) hu hx hr hf
  have hframe := execAccessLand_within _ _ _ _ s hexec
  rw [State.landAccess_escaped] at hexec hframe
  dsimp only at hexec hframe
  have hleft := (s.upto at_).leaveChannel_left x .escaped
  have hw := (s.upto at_).leaveChannel_within x .escaped
  have hesc := State.escape_within ((s.upto at_).leaveChannel x .escaped) (x.tag.addr.toNat * 64) false x.tag.src.val
  have hseq := State.escape_seq ((s.upto at_).leaveChannel x .escaped) (x.tag.addr.toNat * 64) false x.tag.src.val
  have hdram := State.escape_dram ((s.upto at_).leaveChannel x .escaped) (x.tag.addr.toNat * 64) false x.tag.src.val
  have hflag := State.escape_flag ((s.upto at_).leaveChannel x .escaped) (x.tag.addr.toNat * 64) false x.tag.src.val
  have hchans := State.escape_chans ((s.upto at_).leaveChannel x .escaped) (x.tag.addr.toNat * 64) false x.tag.src.val
  have hfl : ((s.upto at_).leaveChannel x .escaped).flt = s.flt := hw.fltEq
  have hovl : ((s.upto at_).leaveChannel x .escaped).ovl = s.ovl := hw.ovlEq
  have hmem : ((s.upto at_).leaveChannel x .escaped).mem = s.mem := hw.memEq
  have hclk : ((s.upto at_).leaveChannel x .escaped).clk = (s.upto at_).clk := hw.clkEq
  generalize (s.upto at_).leaveChannel x .escaped = v at hexec hframe hleft hesc hseq hdram hflag hchans hfl hovl hmem hclk
  have heovl := hesc.ovlEq.trans hovl
  have hemem := hesc.memEq.trans hmem
  have heclk := hesc.clkEq.trans hclk
  rw [hfl] at hseq
  obtain ⟨hchans, hin, hwait⟩ := hchans
  have heleft : ChannelLeft x s (v.escape (x.tag.addr.toNat * 64) false x.tag.src.val) := ChannelLeft.of_eq (t := v) hleft hin hwait hchans
  generalize v.escape (x.tag.addr.toNat * 64) false x.tag.src.val = w at hexec hframe hseq hdram hflag heovl hemem heclk heleft
  obtain ⟨haddr, hwrite⟩ := hdram
  by_cases hl : x.tag.src = 42
  · rw [if_pos hl] at hexec hframe
    have hgets : (w.loaderGets x.tag.addr.toNat true).ovl = { w.ovl with
        unread := w.ovl.unread ++ [x.tag.addr.toNat], loaded := w.ovl.loaded ++ [x.tag.addr.toNat] } := rfl
    have hgone : ChannelLeft x s (w.loaderGets x.tag.addr.toNat true) := heleft
    refine ⟨_, hexec, hgone.gone (fun d _ => congrArg (fun m : Mem => smFind m.slots d) hemem) (fun h => absurd hl h) hframe, hemem, heclk, fun _ => ?_,
      haddr, hwrite, hflag, hseq⟩
    rw [hgets, heovl]
  · rw [if_neg hl] at hexec hframe
    exact ⟨_, hexec, heleft.gone (fun d _ => congrArg (fun m : Mem => smFind m.slots d) hemem) (fun _ => heovl) hframe, hemem, heclk,
      fun h => absurd h hl, haddr, hwrite, hflag, hseq⟩

/-- A clean end of an access with a slot, up to its landing write. -/
theorem exec_accessClean (hl : ¬ x.tag.src = 42) : ∃ c : State, ∃ late : Bool,
    exec (.accessLand x.tag.dest at_ (.ok n) ⟨rivals, ready⟩) s = .next (c.landWrite x late) ∧
    ChannelLeft x s c ∧ c.mem.slots = s.mem.slots ∧ c.clk = ((s.upto at_).landGranted x rivals).clk ∧
    late = (x.tag.rt && pastDeadline ((s.upto at_).landGranted x rivals).tb x.tag.deadline) ∧
    Within [.clk, .flg, .ctr, .dram, .mem, .msix] s c ∧
    (x.tag.rt = true → c.counter (chanA (unitChan x.tag.addr.toNat) 0x1C) = min (s.counter (chanA (unitChan x.tag.addr.toNat) 0x1C) + 1) top32) ∧
    (late = true → (c.flag (drmA 0x24)).getLsbD 3 = true ∧
      c.counter (chanA (unitChan x.tag.addr.toNat) 4) = min (s.counter (chanA (unitChan x.tag.addr.toNat) 4) + 1) top32) ∧
    (late = false → c.counter (chanA (unitChan x.tag.addr.toNat) 4) = s.counter (chanA (unitChan x.tag.addr.toNat) 4)) := by
  have hexec := exec_accessLand (at_ := at_) (edc := .ok n) (rivals := rivals) hu hx hr hf
  rw [State.landAccess_ok, if_neg hl, State.landsClean_eq] at hexec
  have hleft := (s.upto at_).leaveChannel_left x (.ok n)
  have hw := (s.upto at_).leaveChannel_within x (.ok n)
  have hctrs := (s.upto at_).leaveChannel_ctrs x (.ok n)
  have htiles : SameTiles (s.upto at_) ((s.upto at_).leaveChannel x (.ok n)) := SameTiles.of_within hw
  generalize (s.upto at_).leaveChannel x (.ok n) = v at hexec hleft hw hctrs htiles
  have hgrant := v.landGranted_within x rivals
  have hslots := (v.landGranted_slots x rivals).trans (congrArg Mem.slots htiles.mem)
  have hclk := (htiles.landGranted x rivals).clk
  have hkept := fun {off : Nat} (h : off < 0x20) => v.landGranted_counter x rivals (unitChan x.tag.addr.toNat) h
  have hlate : (v.landGranted x rivals).landsLate x = (x.tag.rt && pastDeadline ((s.upto at_).landGranted x rivals).tb x.tag.deadline) := by
    unfold State.landsLate
    rw [State.tb_congr hclk]
  generalize v.landGranted x rivals = g at hexec hgrant hslots hclk hkept hlate
  have hcounted := g.landCounted_within x (g.landsLate x)
  obtain ⟨hreal, hpast, hin⟩ := g.landCounted_counts x (g.landsLate x)
  have hfour : g.counter (chanA (unitChan x.tag.addr.toNat) 4) = s.counter (chanA (unitChan x.tag.addr.toNat) 4) :=
    (hkept (by decide)).trans (hctrs _ (by simp [chanA_ne]))
  have hreals : g.counter (chanA (unitChan x.tag.addr.toNat) 0x1C) = s.counter (chanA (unitChan x.tag.addr.toNat) 0x1C) :=
    (hkept (by decide)).trans (hctrs _ (by simp [chanA_ne]))
  rw [hfour] at hpast hin
  rw [hreals] at hreal
  have hdram := hcounted.dramEq.trans hgrant.dramEq
  have hbefore : Within [.clk, .flg, .ctr, .dram, .msix] s v := ((State.upto_within s at_).mono (by decide)).step hw (by decide)
  exact ⟨g.landCounted x (g.landsLate x), g.landsLate x, hexec,
    ChannelLeft.of_eq (t := v) hleft (congrArg Dram.inFlight hdram) (congrArg Dram.waiting hdram) (congrArg Dram.chans hdram),
    (congrArg Mem.slots hcounted.memEq).trans hslots, hcounted.clkEq.trans hclk, hlate,
    ((hbefore.mono (by decide)).step hgrant (by decide)).step hcounted (by decide), hreal, hpast, hin⟩

/-- The regions deny the landing write: the landing bit stays clear (R362). -/
theorem accessLand_denied (hl : ¬ x.tag.src = 42) (hd : s.slotOk x.tag.src.val x.tag.dest.val true = false) :
    Gives (.accessLand x.tag.dest at_ (.ok n) ⟨rivals, ready⟩) s (fun t => LandGone x s t ∧ t.clk = ((s.upto at_).landGranted x rivals).clk ∧
      t.mem.slots = s.mem.slots ∧ t.mem.violSrc = BitVec.ofNat 6 x.tag.src.val ∧ t.mem.violWrite = true) := by
  obtain ⟨c, late, hexec, hleft, hslots, hclk, -, hw, -⟩ := exec_accessClean (at_ := at_) (n := n) (rivals := rivals) hu hx hr hf hl
  have hframe := execAccessLand_within _ _ _ _ s hexec
  rw [State.landWrite_denied late ((State.slotOk_congr hw.effEq _ _ _).trans hd)] at hexec hframe
  have hviol := State.violate_within c x.tag.src.val x.tag.dest.val true
  have hvslots := c.violate_slots x.tag.src.val x.tag.dest.val true
  have hdram := hviol.dramEq
  obtain ⟨hsrc, hwrite⟩ := c.violate_mem x.tag.src.val x.tag.dest.val true
  refine ⟨_, hexec, ChannelLeft.gone (ChannelLeft.of_eq hleft (congrArg Dram.inFlight hdram) (congrArg Dram.waiting hdram) (congrArg Dram.chans hdram))
    (fun d _ => by rw [hvslots, hslots]) (fun _ => hviol.ovlEq.trans hw.ovlEq) hframe, hviol.clkEq.trans hclk, hvslots.trans hslots, hsrc, hwrite⟩

/-- The landing write puts the 64 bytes into a slot that is still allocated (R154). -/
theorem accessLand_lands (hl : ¬ x.tag.src = 42) (hd : s.slotOk x.tag.src.val x.tag.dest.val true = true) :
    let g := unitChan x.tag.addr.toNat
    let granted := (s.upto at_).landGranted x rivals
    let late := x.tag.rt && pastDeadline granted.tb x.tag.deadline
    Gives (.accessLand x.tag.dest at_ (.ok n) ⟨rivals, ready⟩) s (fun t => LandGone x s t ∧ t.clk = granted.clk ∧
      (smFind s.mem.slots x.tag.dest.val = none → t.mem.slots = s.mem.slots) ∧
      (∀ y, smFind s.mem.slots x.tag.dest.val = some y → smFind t.mem.slots x.tag.dest.val = some { y with
            landed := true, landedAt := granted.clk.now, late := late
            data := BitVec.ofNat 512 (leNat (s.dramBytes (x.tag.addr.toNat * 64) 64)) }) ∧
      (x.tag.rt = true → t.counter (chanA g 0x1C) = min (s.counter (chanA g 0x1C) + 1) top32) ∧
      (late = true → (t.flag (drmA 0x24)).getLsbD 3 = true ∧ t.counter (chanA g 4) = min (s.counter (chanA g 4) + 1) top32) ∧
      (late = false → t.counter (chanA g 4) = s.counter (chanA g 4))) := by
  obtain ⟨c, late, hexec, hleft, hslots, hclk, hlate, hw, hreal, hpast, hin⟩ :=
    exec_accessClean (at_ := at_) (n := n) (rivals := rivals) hu hx hr hf hl
  have hframe := execAccessLand_within _ _ _ _ s hexec
  have hok := (State.slotOk_congr hw.effEq x.tag.src.val x.tag.dest.val true).trans hd
  obtain ⟨hnone, hsome, hothers⟩ := State.landWrite_slots late hok
  have hmarks := LandMarks.landWrite late hok
  have hwrite := c.landWrite_within x late
  have hdram := hwrite.dramEq
  have hbytes : c.dramBytes (x.tag.addr.toNat * 64) 64 = s.dramBytes (x.tag.addr.toNat * 64) 64 := State.dramBytes_congr hw.bytesEq _ _
  have hchan : ∀ off, drmA 0 ≤ chanA (unitChan x.tag.addr.toNat) off := fun off => by unfold chanA drmA; omega
  intro g granted late'
  have hlate' : late = late' := hlate
  subst hlate'
  rw [hslots] at hnone hsome hothers
  refine ⟨_, hexec, ChannelLeft.gone (ChannelLeft.of_eq hleft (congrArg Dram.inFlight hdram) (congrArg Dram.waiting hdram) (congrArg Dram.chans hdram))
    hothers (fun _ => hwrite.ovlEq.trans hw.ovlEq) hframe, hwrite.clkEq.trans hclk, hnone, fun y hy => ?_, fun h => ?_, fun h => ⟨?_, ?_⟩, fun h => ?_⟩
  · rw [hsome y hy, State.landedSlot, hbytes, hclk]
  · rw [hmarks.ctrs _ (hchan _)]; exact hreal h
  · rw [hmarks.flags (drmA 0x24) (by decide) (by decide)]; exact (hpast h).1
  · rw [hmarks.ctrs _ (hchan _)]; exact (hpast h).2
  · rw [hmarks.ctrs _ (hchan _)]; exact hin h

end

/-! ### The obligation -/

/-- Settles O50: the tile's grant reads the staging store alone, so it is that of the state before the access left its channel; a landing
gives up no slot. -/
theorem dramAccessesAndRefresh : Obligations.DramAccessesAndRefresh := by
  unfold Obligations.DramAccessesAndRefresh
  intro s hu
  refine ⟨fun tag at_ => ⟨fun hc => accessIssue_unconfigured hu hc, fun hc h => accessIssue_loader hu hc h, fun hc h p hp => ?_, fun hc h hp hs => ?_,
      fun hc h hp hs hcapo => ?_, fun hc h hp hs hcapo => accessIssue_other hu hc h hp hs hcapo⟩, fun x at_ n rivals ready hx => ⟨fun o hn => ?_, fun hr hf => ?_⟩,
    fun g at_ w => ⟨fun hr => ?_, fun hr => ⟨fun h => refreshDue_pays g at_ w hu hr h, fun hw hrt ho => refreshDue_owes g at_ w hu hr hw hrt ho,
      fun hw hrt ho => refreshDue_forced g at_ w hu hr hw hrt ho⟩⟩,
    fun g at_ w a rest ha => ⟨fun hn => nbrRefresh_waits hu ha hn, fun hr hn => nbrRefresh_serves hu ha hr hn⟩,
    fun g bank => ⟨fun hp => pageClose_predicts g bank hu hp, fun hn => pageClose_closed g bank hu hn, fun hp hn => pageClose_closes g bank hu hp hn⟩,
    fun hc => ⟨fun hp => dramRetrain_held hu hc hp, fun hp ht => dramRetrain_dropped hu hc hp ht, fun hp ht hi => dramRetrain_waits hu hc hp ht hi,
      fun hp ht hi hq => dramRetrain_trains hu hc hp ht hi hq⟩, fun failed => ⟨fun ht hrel => ?_, fun ht => ?_⟩⟩
  · exact accessIssue_reader hu hc h hp
  · exact accessIssue_staging hu hc h hp hs
  · exact accessIssue_capo hu hc h hp hs hcapo
  · exact accessLand_waits hu hx hn
  · refine ⟨fun hl hd => ?_, fun hl hd => ?_, fun hl => ?_, ?_⟩
    · exact accessLand_lands hu hx hr hf hl hd
    · exact accessLand_denied hu hx hr hf hl hd
    · exact accessLand_loader hu hx hr hf hl
    · exact accessLand_escapes hu hx hr hf
  · exact gives_branch hu rfl (if_pos (by rw [hr]; rfl)) rfl
  · have hend := s.trainEnd_ended failed
    refine ⟨_, exec_shortTrainDone failed hu ht, _, ?_, State.shortEnd_held hend hrel⟩
    exact ⟨hend.training, hend.phase, hend.ready, hend.shortNext, hend.predictor, hend.reported, hend.within⟩
  · have hend := (s.trainEnd_ended failed).setBit 5
    refine ⟨_, exec_dramTrainDone failed hu ht, _, ?_, State.flagBit_setBit _ (by decide) (by decide), rfl⟩
    exact ⟨hend.training, hend.phase, hend.ready, hend.shortNext, hend.predictor, hend.reported, hend.within⟩

end Sys2Proof.Machine
end
